-- ==== Sys2Proof/Word.lean ====
section
/-!
DEFINITION. The word types of the block and the sparse table, with their plainest operations.
Words are bit vectors because the spec numbers their bits (R5); counts and indexes are Nat.
-/
namespace Sys2Proof

/-- A 32-bit parameter, result or entity word (R456). -/
abbrev Word := BitVec 32
/-- A 64-bit register, TB_NS value or address (R475, R609). -/
abbrev DWord := BitVec 64
/-- One byte. -/
abbrev Byte := BitVec 8
/-- A core number, region × 256 + cluster × 32 + core-in-cluster (01, Entities). -/
abbrev CoreNo := BitVec 11
/-- A region number 0–7. -/
abbrev RegionNo := BitVec 3
/-- A node address: [17] aggregator, [16:0] die or tray number (R375). -/
abbrev Node := BitVec 18

/-- A sparse table keyed by a natural number, keys strictly rising. -/
abbrev Tab (α : Type) := List (Nat × α)

/-- The entry of a table at a key, if any. -/
def Tab.find {α : Type} : Tab α → Nat → Option α
  | [], _ => none
  | (k, a) :: t, i => if k = i then some a else Tab.find t i

/-- The entry of a table at a key, or a default. -/
def Tab.getD {α : Type} (t : Tab α) (i : Nat) (d : α) : α := (Tab.find t i).getD d

/-- Put an entry at a key, keeping the keys rising. -/
def Tab.put {α : Type} : Tab α → Nat → α → Tab α
  | [], i, a => [(i, a)]
  | (k, b) :: t, i, a =>
    if i < k then (i, a) :: (k, b) :: t
    else if i = k then (i, a) :: t
    else (k, b) :: Tab.put t i a

/-- Remove the entry of a key. -/
def Tab.drop {α : Type} (t : Tab α) (i : Nat) : Tab α := t.filter (fun p => p.1 != i)

/-- Replace element `i` of a list, if there is one. -/
def setAt {α : Type} : List α → Nat → α → List α
  | [], _, _ => []
  | _ :: t, 0, a => a :: t
  | x :: t, i + 1, a => x :: setAt t i a

/-- Element `i` of a list, or a default. -/
def getAt {α : Type} : List α → Nat → α → α
  | [], _, d => d
  | x :: _, 0, _ => x
  | _ :: t, i + 1, d => getAt t i d

end Sys2Proof
end

