-- ==== Sys2Proof/Syntax.lean ====
section
/-!
DEFINITION. The commands of the block: one constructor of `Instr` for each row of spec/opcode_table.json,
with the operands that the row's rules give it, and the types of those operands.
-/
namespace Sys2Proof

/-- Privilege domains (Table 12.9), in code order. -/
inductive Domain where
  | boot | fleet | tenant | debug
  deriving DecidableEq, Repr

/-- A requester of commands (Table 12.5). A key slot names the segment that carried the envelope (R426: false A, true B);
a relay origin carries the relay header (Table 12.7): origin, domain, job, relay number. -/
inductive Requester where
  | channel (c : BitVec 2)
  | key (k : BitVec 3) (seg : Bool)
  | relay (origin : BitVec 4) (dom : Domain) (job : BitVec 16) (rid : BitVec 24)
  | broadcast
  deriving DecidableEq, Repr

/-- A command packet as it reaches step 6 of Table 12.3: its header fields and its parameter words.
For an opcode with operations the row supplies the operation word, and `params` holds the words after it (R474). -/
structure Cmd where
  req    : Requester
  order  : Bool := false
  cseq   : Word := 0
  target : Node := 0x3FFFF
  params : List Word := []
  deriving DecidableEq, Repr

/-- Which part of a 64-bit register a write covers (R608): all, bits [31:0], or bits [63:32]. -/
inductive Part where
  | whole | low | high
  deriving DecidableEq, Repr

/-- Kinds of monitor (Table 9.1). -/
inductive MonKind where
  | temperature | droop | pathDelay
  deriving DecidableEq, Repr

/-- Which generation of an ensemble slot (R272). -/
inductive GenSel where
  | active | previous | staged
  deriving DecidableEq, Repr

/-- The payload of a HEARTBEAT (R392, R381). -/
structure Heartbeat where
  die       : BitVec 17
  state     : BitVec 3
  quality   : BitVec 2
  playa     : BitVec 3
  /-- the states of SB0–SB3: 0 DOWN, 1 TRAIN, 2 UP -/
  ports     : List (BitVec 2)
  verdictSeq : Word
  offset    : Word
  waiting   : Word
  deriving DecidableEq, Repr

/-- A numbered verdict of a tray for a die (R394, R646). -/
structure VerdictMsg where
  seq     : Word
  entity  : Word
  verdict : BitVec 3
  cause   : BitVec 3
  score   : Word
  generation : Word
  slot    : Word
  floor   : Word
  deriving DecidableEq, Repr

/-- A route: hop directions and their number (Table 10.4). -/
structure Route where
  hops  : Word
  nhops : BitVec 5
  deriving DecidableEq, Repr

/-- The payloads of sideband frames (Table 10.5). -/
inductive SbPayload where
  | ack
  | hello (node : Node) (dormant : Bool)
  | pdelayReq
  | pdelayResp (t2 t3 : DWord)
  | heartbeat (h : Heartbeat)
  | sync (origin corr : DWord)
  | command (bytes : List Byte)
  | reply (bytes : List Byte)
  | verdict (v : VerdictMsg)
  | bcast (bytes : List Byte)
  | routeSet (primary alternate : Option (BitVec 4 × Route)) (children : List (BitVec 2))
  | wake
  deriving DecidableEq, Repr

/-- A sideband frame (Table 10.4). `bad` says that its CRC fails or it holds a code error (R384). -/
structure SbFrame where
  ftype   : BitVec 4
  first   : Bool := true
  last    : Bool := true
  flood   : Bool := false
  rsvd    : BitVec 11 := 0
  lseq    : BitVec 8 := 0
  lack    : BitVec 8 := 0
  plen    : BitVec 8 := 0
  tport   : BitVec 4 := 0
  src     : Node := 0
  route   : Word := 0
  hop     : BitVec 5 := 0
  nhops   : BitVec 5 := 0
  ttl     : BitVec 6 := 16
  mseq    : BitVec 16 := 0
  bad     : Bool := false
  payload : SbPayload := .ack
  deriving DecidableEq, Repr

/-- How a broadcast message arrives (R398): in a Photen BCAST packet, or in a sideband BCAST frame, of which a long message takes several. -/
inductive BcastIn where
  | photen (p : List Byte) (port : BitVec 6)
  | sb (port : BitVec 4) (f : SbFrame)
  deriving DecidableEq, Repr

/-- The network-layer content of a received Ethernet frame, as far as Table 11.4 reads it. -/
inductive EthBody where
  /-- gPTP: domain and message type (IEEE 802.1AS) -/
  | gptp (domain : BitVec 8) (mtype : BitVec 4)
  /-- ICMPv6 Neighbor Solicitation or Advertisement for the target address; `ours` when it is the segment's address -/
  | ndp (advert : Bool) (ours : Bool)
  /-- UDP: destination port, checksum right, payload -/
  | udp (port : BitVec 16) (sumOk : Bool) (payload : List Byte)
  /-- another IPv6 next header -/
  | other
  deriving DecidableEq, Repr

/-- A received Ethernet frame (Table 11.4). `dstOk` : destination is the segment's unicast or one of the admitted
multicasts; `ipOk` : IPv6 source in fe80::/64, destination admitted, hop limit 255, no extension header. -/
structure EthFrame where
  fcsOk     : Bool := true
  rxer      : Bool := false
  wholeBytes : Bool := true
  bytes     : Nat := 64
  dstOk     : Bool := true
  etherType : BitVec 16 := 0x86DD
  ipOk      : Bool := true
  body      : EthBody := .other
  deriving DecidableEq, Repr

/-- An IEEE 802.1AS Announce: the priority vector as one number (lower is better), the port identity of the sender and
its announce interval in ns. -/
structure Announce where
  vector   : Nat
  identity : BitVec 80
  interval : Nat
  deriving DecidableEq, Repr

/-- The commands of the block. -/
inductive Instr where
  -- system and time commands
  | sysInfo (c : Cmd)
  | sysReset (c : Cmd)
  | sysStateRead (c : Cmd) (opWord : Bool)
  | sysStateRequestServing (c : Cmd)
  | sysStateRequestDrowse (c : Cmd)
  | sysStateRequestDormant (c : Cmd)
  | heldTransitionRecheck
  | timeSet (c : Cmd)
  | timeTrim (c : Cmd)
  | timeRead (c : Cmd)
  -- cell commands
  | cellCfg (c : Cmd)
  | cntRead (c : Cmd)
  | cntSnap (c : Cmd)
  | watchSet (c : Cmd)
  | ruleSet (c : Cmd)
  -- residue commands
  | resCfg (c : Cmd)
  | auditRate (c : Cmd)
  | auditRead (c : Cmd)
  -- digest commands
  | digCfg (c : Cmd)
  | digRead (c : Cmd)
  | digCompare (c : Cmd)
  | digEpochOpen (c : Cmd)
  | digEpochRelease (c : Cmd)
  | digEpochCheckpoint (c : Cmd)
  -- exact-sum commands
  | xsReduce (c : Cmd)
  | normReq (c : Cmd)
  -- ensemble commands
  | ensLoad (c : Cmd)
  | ensActivate (c : Cmd)
  | ensRun (c : Cmd)
  | featWrite (c : Cmd)
  | ensRollback (c : Cmd)
  -- verdict commands
  | policySet (c : Cmd)
  | fence (c : Cmd)
  | unfence (c : Cmd)
  | expel (c : Cmd)
  | shadowStart (c : Cmd)
  | testSchedSchedule (c : Cmd)
  | testSchedCancel (c : Cmd)
  | testSchedDone (c : Cmd)
  | verdictRead (c : Cmd)
  -- ageing commands
  | marginPlanMode (c : Cmd)
  | marginPlanSet (c : Cmd)
  | marginPlanAuto (c : Cmd)
  | marginPlanAck (c : Cmd)
  | marginPlanProbeDone (c : Cmd)
  | lifeRead (c : Cmd)
  -- trace commands
  | trcCfg (c : Cmd)
  | trcTrigArm (c : Cmd)
  | trcTrigDisarm (c : Cmd)
  | trcTrigFire (c : Cmd)
  | trcTrigRelease (c : Cmd)
  | trcTrigDump (c : Cmd)
  | nidCfg (c : Cmd)
  -- recorder, broadcast, membership, boot and debug commands
  | recRead (c : Cmd)
  | recMark (c : Cmd)
  | bcastPrepare (c : Cmd)
  | bcastCommit (c : Cmd)
  | jobMembersSet (c : Cmd)
  | jobMembersAdd (c : Cmd)
  | jobMembersRemove (c : Cmd)
  | jobMembersRead (c : Cmd)
  | keyLoad (c : Cmd)
  | protLock (c : Cmd)
  | imgLoad (c : Cmd)
  | dbgRead (c : Cmd)
  | dbgWrite (c : Cmd)
  | relayCommand (opcode : Byte) (c : Cmd)
  | relayTimeout (rid : BitVec 24)
  -- register accesses
  | cmdDoorbell (ch : BitVec 2) (len : BitVec 11)
  | cmdEventClear (ch : BitVec 2) (bits : BitVec 3)
  | cellFlagsClear (core : CoreNo) (bits : Byte)
  | timeCapture (cap : Bool)
  | timeNsRead
  | halfHoldRead (addr : BitVec 20)
  | mgtGclCommit
  | mgtShaperWrite (cls : BitVec 2) (part : Part) (v : DWord)
  | mgtMeterWrite (cls : BitVec 2) (part : Part) (v : DWord)
  | mgtSegcfgWrite (segB : Bool) (part : Part) (v : DWord)
  | dmaChStop (ch : BitVec 6)
  | dmaChResume (ch : BitVec 6)
  | dmaChReq (ch : BitVec 6)
  | dmaChEnable (ch : BitVec 6) (en : Bool)
  | dmaChTailWrite (ch : BitVec 6) (tail : BitVec 17)
  | dmaChCqheadWrite (ch : BitVec 6) (head : BitVec 17)
  | dmaMemFailedClear (mask : BitVec 32)
  | dmaIrqstatClear (mask : BitVec 64)
  | hubIrqstatClear (mask : BitVec 10)
  | protChWrite (ch : BitVec 2) (part : Part) (v : DWord)
  | resDbgSWrite (debug : Bool) (part : Part) (v : DWord)
  | registerWrite (addr : BitVec 20) (size : BitVec 2) (v : DWord)
  -- resets, boot and power
  | powerOnReset
  | powerOnResetRelease
  | blockResetPin
  | blockResetRelease
  | pllLock
  | fuseSenseDone (uncorrectable passesDiffer : Bool)
  | nvImageCheckDone
  | imageWaitExpiry
  | imageApply
  | enterServing
  | imageWriteBack (readBackOk : Bool)
  | protectionWaitExpiry
  | watchdogExpiry
  | watchdogReset
  | pfwWarning
  | flushEnd
  | pfwRelease
  | recoveryHoldExpiry
  | orderlyFlushDone
  | wakeN
  | sbWakeIdles (port : BitVec 4)
  | mainPgRise
  | mainPgFall
  | refclkLoss
  | refclkReturn
  | drowseDelayExpiry
  -- cells
  | hostRegionReset (r : RegionNo)
  | cellConfigRewrite (r : RegionNo)
  | hostCycle (core : CoreNo) (st : BitVec 2) (reason : BitVec 4) (ev : DWord) (ptake : Bool)
  | holdGraceExpiry (core : CoreNo)
  | sporeWindowEval (core : CoreNo) (rule : BitVec 3)
  | watchElement (core : CoreNo) (wd : Word) (last : Bool)
  | watchResultDrain (core : CoreNo)
  | traceWord (core : CoreNo) (w : DWord)
  | regionTraceTransfer (r : RegionNo)
  | clockMonitorInterval (r : RegionNo) (edges : BitVec 16)
  | regionStopDetect (r : RegionNo)
  | regionResume (r : RegionNo)
  | scanBoundary
  | quickBoundary
  | snapshotTransfer (core : CoreNo) (parityErr sumErr : Bool)
  | cellTurnTimeout (core : CoreNo)
  | pendingFlagTransfer (r : RegionNo)
  -- residue tap and audit
  | tapStart (core : CoreNo) (d : BitVec 128) (ptake : Bool)
  | tapSkip (core : CoreNo) (d : BitVec 128) (ptake : Bool)
  | tapPair (core : CoreNo) (d : BitVec 128) (ptake : Bool)
  | tapEnd (core : CoreNo) (d : BitVec 128) (ptake : Bool)
  | tapOutcomePresent (core : CoreNo)
  | tapTimeout (core : CoreNo)
  | pointFifoRefill (core : CoreNo)
  | drbgReseed (i : BitVec 3)
  | drbgFailure (i : BitVec 3)
  | outcomeQueueTransfer (r : RegionNo)
  | auditStart
  | auditDescriptorReread (unit : BitVec 5)
  | auditComplete (unit : BitVec 5)
  | auditHoldExpiry (core : CoreNo) (tag : BitVec 16)
  -- stream digests (false ingress, true egress)
  | digestChunkHeader (egress : Bool) (d : BitVec 128)
  | digestDataBeat (egress : Bool) (cnt : Byte) (lanes : List Word)
  | digestSliceEnd (egress : Bool) (d : BitVec 128)
  | digestSealHeader (egress : Bool) (d : BitVec 128)
  | digestRecallHeader (egress : Bool) (d : BitVec 128)
  | digestStashEnd (egress : Bool) (d : BitVec 128)
  | deliveryFinal (egress : Bool)
  | retireOverdue
  | compareTimeout (buf : Bool)
  | frozenScrubPass (idx : Byte)
  -- reduction
  | normContribute (group : BitVec 10)
  | aggregationWindowEnd
  | reductionCutoff (group : BitVec 16) (seq : BitVec 16)
  | reduceContributionReceive (p : List Byte) (port : BitVec 6)
  | reduceResultReceive (p : List Byte) (port : BitVec 6)
  | redirectReceive (p : List Byte) (port : BitVec 6)
  | combinerTimeout (group : BitVec 16) (seq : BitVec 16) (combiner : BitVec 10)
  | memberTimeout (group : BitVec 16) (seq : BitVec 16)
  | resultTimeout (group : BitVec 16) (seq : BitVec 16)
  | roundLifetimeExpiry (group : BitVec 16) (seq : BitVec 16)
  | exchangeReceive (p : List Byte) (port : BitVec 6)
  | rhizomeStepDeadline (step : BitVec 3)
  -- ensemble engine
  | sampleComplete
  | passComplete
  | rowFillComplete (entity : Word)
  | rowWritebackComplete (entity : Word)
  | assemblyLimitExpiry (entity : Word)
  | ensLoadFirstReadDone
  | ensLoadSecondReadDone
  | nodeMemoryScrub (slot : BitVec 4) (g : GenSel) (corrected : BitVec 32) (bad : List (Nat × Nat))
  -- verdicts and tests
  | floorExpiry (entity : Word)
  | probationExpiry (entity : Word)
  | periodicTestDue (core : CoreNo)
  | deferralDeadline (core : CoreNo)
  | testHoldExpiry (seq : Word)
  -- ageing
  | monitorSample (r : RegionNo) (kind : MonKind) (m : BitVec 3) (value : Int) (minimum : Int) (dips : Nat)
  | residenceTick
  | concentrationEval
  | ageingPersist
  | ageingEarlyPersist
  | planInterval (r : RegionNo)
  | planAckTimeout
  | probeTimeout (seq : Word)
  -- Photen and sideband
  | photenTxHead
  | photenHeartbeatReceive (p : List Byte) (port : BitVec 6)
  | photenRecordReceive (p : List Byte) (port : BitVec 6)
  | recordUpload
  | sbIdlesTrain (port : BitVec 4)
  | sbHelloReceive (port : BitVec 4) (f : SbFrame)
  | sbPortDown (port : BitVec 4) (cause : BitVec 2)
  | sbAckReceive (port : BitVec 4) (f : SbFrame)
  | sbRetransmitTimeout (port : BitVec 4)
  | sbFrameForward (port : BitVec 4) (f : SbFrame)
  | sbFloodForward (port : BitVec 4) (f : SbFrame)
  | sbReassemblyTimeout (src : Node) (mseq : BitVec 16)
  | heartbeatSend
  | sbHeartbeatReceive (port : BitVec 4) (f : SbFrame)
  | dieLost (die : BitVec 7)
  | trayLost
  | sbVerdictReceive (port : BitVec 4) (f : SbFrame)
  | verdictResend (die : BitVec 7)
  | syncSend
  | syncReceive (port : BitVec 4) (f : SbFrame)
  | holdoverEntry
  | holdoverLimitExpiry
  | pdelayInterval (port : BitVec 4)
  | sbPdelayReqReceive (port : BitVec 4) (f : SbFrame)
  | sbPdelayRespReceive (port : BitVec 4) (f : SbFrame)
  | sbCommandReceive (port : BitVec 4) (f : SbFrame)
  | sbReplyReceive (port : BitVec 4) (f : SbFrame)
  | routeRecompute
  | routeSetReceive (port : BitVec 4) (f : SbFrame)
  | sbWakeFrame (port : BitVec 4) (f : SbFrame)
  -- broadcast
  | bcastPrepareReceive (m : BcastIn)
  | bcastAckReceive (m : BcastIn)
  | bcastAckDeadline (group : BitVec 16) (bid : BitVec 16)
  | bcastCommitReceive (m : BcastIn)
  | bcastAbortReceive (m : BcastIn)
  | prepareHoldExpiry (group : BitVec 16) (bid : BitVec 16)
  -- management port (false segment A, true segment B)
  | miiFrameReceive (seg : Bool) (f : EthFrame)
  | mgmtEnvelopeReceive (seg : Bool) (payload : List Byte)
  | gptpSyncReceive (seg : Bool) (identity : BitVec 80) (origin corr : DWord) (interval : Nat)
  | gptpAnnounceReceive (seg : Bool) (a : Announce)
  | gptpAnnounceTimeout
  | gptpPdelayInterval (seg : Bool)
  | gptpPdelayReqReceive (seg : Bool) (identity : BitVec 80)
  | gptpPdelayRespReceive (seg : Bool) (identity : BitVec 80) (t2 t3 : DWord)
  | neighborSolicitationReceive (seg : Bool) (from_ : BitVec 128)
  | neighborAdvertisementReceive (seg : Bool)
  | dadTimeout (seg : Bool)
  | phyPoll (seg : Bool) (link : Bool)
  | segmentSilenceTimeout (seg : Bool)
  | segmentUp (seg : Bool)
  | segmentEnableHoldExpiry (seg : Bool)
  | failbackTimer
  | plcaBeaconReceive (seg : Bool)
  | plcaBeaconTimeout (seg : Bool)
  | plcaCollision (seg : Bool)
  | csmaCollision (seg : Bool)
  | egressFrameSelect (seg : Bool)
  | egressFrameDone (seg : Bool)
  | gateEntryBoundary
  | gclPendingActivate
  -- DMA and memory port
  | dmaBurstStart (ch : BitVec 6)
  | dmaDescriptorComplete (ch : BitVec 6)
  | dmaDescriptorFetchFail (ch : BitVec 6)
  | memoryReadResponse (att : BitVec 5) (tag : Byte) (err : Bool)
  | memoryWriteAck (att : BitVec 5) (tag : Byte) (err : Bool)
  | memoryTimeout (att : BitVec 5) (tag : Byte)
  | rekeySafePoint (range : BitVec 3)
  | migrationGroupDone
  | migrationRetry
  -- trace
  | trcTriginRise
  | traceBlockEnd
  | traceFlushInterval
  | postTriggerEnd
  | compressDone
  | sinkBlockWrite
  | tracePortFrame
  -- recorder
  | recordAccept
  | mirrorPageWrite
  | nvSectorErase
  | nvEraseDone
  | vddAonLoss
  | photenTraceReceive (p : List Byte) (port : BitVec 6)
  deriving DecidableEq, Repr

end Sys2Proof
end

