-- ==== Sys2Proof/Machine/StateSys.lean ====
section
/-!
DEFINITION. Plain data of the block's own state machine, its always-on island, its time base, the applied
configuration image and the event recorder (chapters 01, 02, 15, 16 of the spec).
-/
namespace Sys2Proof.Machine

/-- Block states (Table 1.8). -/
inductive BlockState where
  | cold | fuse | config | playa | serving | drowse | dormant | flush
  deriving DecidableEq, Repr

/-- The code of a block state (Table 1.8). -/
def BlockState.code : BlockState → Nat
  | .cold => 0 | .fuse => 1 | .config => 2 | .playa => 3 | .serving => 4 | .drowse => 5 | .dormant => 6 | .flush => 7

/-- A transition that SYS_STATE or SYS_RESET requests (R30, R594). -/
inductive Wanted where
  | serving | drowse | dormant | configReset | blockReset
  deriving DecidableEq, Repr

/-- A transition request held behind another (R34). -/
structure HeldReq where
  want : Wanted
  req  : Requester
  dom  : BitVec 2
  cseq : Word
  deriving DecidableEq, Repr

/-- The block's state machine and the pins it watches (R29–R34, R592–R601, R627–R630, R639). -/
structure Sys where
  st         : BlockState := .cold
  /-- the state FLUSH was entered from -/
  left       : BlockState := .config
  playaCause : BitVec 3 := 0
  /-- 0 COLD, 1 BLOCK, 2 CONFIG reset, 3 wake (HUB_STATE.LASTRESET) -/
  lastReset  : BitVec 2 := 0
  unprov     : Bool := false
  /-- this boot has entered CONFIG (R576) -/
  seenConfig : Bool := false
  held       : List HeldReq := []
  /-- what an orderly flush in progress leads to (R569, R594, R600) -/
  orderly    : Option Wanted := none
  porstLow   : Bool := true
  blkrstLow  : Bool := false
  pllLocked  : Bool := false
  /-- result of the fuse sensing passes once they have ended -/
  sense      : Option Bool := none
  mainPg     : Bool := true
  /-- main supply lost while the island keeps its own (R639) -/
  supplyLost : Bool := false
  pfwLow     : Bool := false
  /-- TB at which the controller watchdog's reset falls due (R595) -/
  wdReset    : Option Nat := none
  deriving DecidableEq, Repr

/-- The always-on island (R33, R59, R597, R600, R601). -/
structure Island where
  latched     : Bool := false
  warnings    : Nat := 0
  firstWarn   : Nat := 0
  lastWarn    : Nat := 0
  failedWakes : Nat := 0
  dormantTb   : Nat := 0
  mainOffOk   : Bool := false
  /-- the island has asked for the main supply -/
  asking      : Bool := false
  /-- the main reset is released after a wake, and the PLL is still to lock -/
  released    : Bool := false
  /-- WAKE_N low seen with a warning present (R630) -/
  wakeHeld    : Bool := false
  refLost     : Bool := false
  /-- REFCLK losses and returns (true) noticed while no record could be written, with their TBs: recorded on entry to CONFIG (R40) -/
  refRecs     : List (Bool × Nat) := []
  /-- cores fenced or expelled, each with that verdict (R597) -/
  removed     : List (Nat × Nat) := []
  /-- TBs of removals, newest first, at the die, engine 0, engine 1 and tray levels (R327, R597) -/
  remDie      : List Nat := []
  remEng0     : List Nat := []
  remEng1     : List Nat := []
  remTray     : List Nat := []
  deriving DecidableEq, Repr

/-- The time base and its discipline (R49–R60, Table 2.9, Table 17.5). -/
structure TimeU where
  /-- TB: [95:32] TB_NS, [31:0] TB_FRAC (Table 2.5) -/
  tb        : BitVec 96 := 0
  rate      : Int := 0
  /-- offset still to be slewed, in units of 2^-32 ns, positive forward -/
  toSlew    : Int := 0
  source    : BitVec 2 := 1
  quality   : BitVec 2 := 0
  lockRun   : Nat := 0
  offset    : Int := 0
  slewPpm   : Nat := 200
  stepThr   : Nat := 100000
  holdoverLimit : Nat := 60000000000
  stopThr   : Nat := 1000
  /-- REGION_MHZ: before any image 1,600 each, DESIGN CHOICE (log 82), since Table 2.9 gives the image as the only default -/
  mhz       : List Nat := List.replicate 8 1600
  syncInt   : Nat := 1000000
  lastSync  : Nat := 0
  holdSince : Nat := 0
  steps     : Nat := 0
  qchanges  : Nat := 0
  lastStep  : Int := 0
  stepped   : Bool := false
  capNs     : DWord := 0
  fracLatch : BitVec 32 := 0
  /-- a monotonic span is running (R52) -/
  span      : Bool := false
  /-- gap to be recorded on entry to SERVING: TB at entry, island TB at wake, step applied (R60) -/
  gap       : Option (Nat × Nat × Int) := none
  /-- the timers whose deadlines have passed expire now: TB has stepped forward, or units run again (R54, R71) -/
  due       : Bool := false
  deriving DecidableEq, Repr

/-- Where one sideband port leads (R382): a die and its port, or the tray and its port. -/
inductive MeshEnd where
  | none
  | die (d : BitVec 17) (port : BitVec 2)
  | tray (port : BitVec 4)
  deriving DecidableEq, Repr

/-- The mesh map: ends of SB0–SB3 of each die, and of each tray-role port (R382). -/
structure Mesh where
  dies  : List (Nat × List MeshEnd) := []
  ports : List MeshEnd := []
  deriving DecidableEq, Repr

/-- Memory tiers (Table 14.2). -/
inductive Tier where
  | faster | slower | reserved
  deriving DecidableEq, Repr

/-- One address range (Table 14.2). `block` is MODE BLOCK. -/
structure Range where
  base  : Nat
  size  : Nat
  tier  : Tier
  block : Bool
  c0    : Nat
  n     : Nat
  localBase : Nat
  masks : List (BitVec 58)
  deriving DecidableEq, Repr

/-- A member tray's place in a reduction tree (R221). -/
structure Group where
  job       : Option (BitVec 16) := none
  root      : Nat := 0
  combiners : List Nat := []
  dies      : List Nat := []
  deriving DecidableEq, Repr

/-- A figure of the telemetry plan: the group it is reduced in, its operation, histogram geometry,
and the feature word of the die row it sums, or the detector channel of a HIST_ADD (R227, R298). -/
structure Figure where
  group   : Nat
  op      : BitVec 4
  geom    : Word
  feature : Nat
  channel : Option Nat
  deriving DecidableEq, Repr

/-- Stages of the cascade an ensemble slot can serve (R286). -/
inductive Stage where
  | frond | screen | confirm | other
  deriving DecidableEq, Repr

/-- An ENSEMBLE section (Table 16.3). -/
structure EnsSection where
  slot   : Nat
  stage  : Stage
  nvAddr : Nat
  length : Nat
  sha    : BitVec 384
  deriving DecidableEq, Repr

/-- A scoring group (R302). -/
structure Scoring where
  members : List Nat := []
  handle  : Nat := 0
  /-- group entities in ascending order, each with the position of its home member -/
  homes   : List (Nat × Nat) := []
  /-- exchange words per kind (Table 8.4) -/
  words   : List (Nat × List Nat) := []
  deriving DecidableEq, Repr

/-- A detector channel (Table 8.2). SOURCE: 0–34 the counters of R641, 35 stretched cycles, 64 + n feature n. -/
structure Detector where
  kind   : Nat
  level  : Bool
  source : Nat
  aFast  : Nat
  aSlow  : Nat
  k      : Word
  hlev   : Word
  hist   : Bool
  b      : Nat
  e0     : Int
  drift  : Bool
  fbase  : Nat
  deriving DecidableEq, Repr

/-- Feature numbers of the block's own producers within rows (R262), and the entities that have rows. -/
structure FeatMap where
  rows      : List Nat := []
  sticky    : List Nat := []
  /-- first of the 36 words of cell count differences -/
  counts    : Nat := 0
  sporeFlag : Nat := 36
  outcome   : Nat := 37
  digest    : Nat := 38
  /-- first of the 7 words of Table 5.8 -/
  link      : Nat := 39
  /-- first of the 8 words of R355 -/
  ageing    : Nat := 46
  busyRatio : Nat := 54
  stretch   : Nat := 55
  stepLag   : Nat := 56
  drift     : Nat := 57
  overdue   : Nat := 58
  probe     : Nat := 59
  stale     : Nat := 60
  lost      : Nat := 61
  memErr    : Nat := 62
  replicaLag : Nat := 63
  /-- first of the 20 words of the counts of R150 -/
  residue   : Nat := 64
  deriving DecidableEq, Repr

/-- The configuration image as applied (R586), section by section of Table 16.3. -/
structure Image where
  generation : Word := 0
  hier6      : Bool := false
  autolock   : Bool := false
  tray       : Nat := 0
  engine     : Nat := 0
  trays      : Nat := 1024
  fleetDies  : Nat := 131072
  mesh       : Mesh := {}
  ranges     : List Range := []
  features   : FeatMap := {}
  windowNs   : Nat := 1000000
  figures    : List Figure := []
  fleet      : Group := {}
  ensembles  : List EnsSection := []
  scoring    : Option Scoring := none
  detectors  : List Detector := []
  /-- PROT section: values of PROT_CH0–3 -/
  prot       : Option (List DWord) := none
  agePlace   : Nat := 0x1000000
  linkRate   : Nat := 100000000000
  share      : Nat := 10
  blockCh    : Nat := 16
  traceCh    : Nat := 0
  deriving DecidableEq, Repr

/-- Boot: image candidates and the progress of CONFIG (R581–R588). -/
structure Boot where
  /-- an image delivered by IMG_LOAD, its bytes -/
  delivered : Option (List Byte) := none
  /-- the NV checks of this CONFIG have ended -/
  checked   : Bool := false
  /-- the selected image: its bytes, and whether it came from IMG_LOAD -/
  selected  : Option (List Byte × Bool) := none
  waitUntil : Option Nat := none
  applied   : Bool := false
  protUntil : Option Nat := none
  protWait  : Nat := 10000000000
  drowseDelay : Nat := 1000000
  recHold   : Nat := 10000000
  writeBack : Bool := false
  deriving DecidableEq, Repr

/-- One event record (Table 15.1): header fields and payload words. -/
structure Rec where
  type    : Byte
  sev     : BitVec 2
  cmpl    : BitVec 2
  rseq    : Word
  tb      : DWord
  entity  : Word
  unit    : Byte
  code    : Byte
  boot    : BitVec 16
  payload : List Word
  /-- TB at which the recorder accepted it; no part of its bytes -/
  took    : Nat := 0
  deriving DecidableEq, Repr

/-- Phase and figures of a flush in progress (R561–R569). -/
structure Flush where
  c0      : Nat
  orderly : Bool
  phase   : Nat := 0
  ended   : Bool := false
  bounces : Nat := 0
  /-- older pending records that the flush did not write (R562), for the LOSS record that precedes RECOVER -/
  lost    : Nat := 0
  deriving DecidableEq, Repr

/-- The event recorder (R547–R573, Table 15.9). -/
structure Recorder where
  queue     : List Rec := []
  bedrock   : List Rec := []
  drift     : List Rec := []
  rseq      : Word := 0
  bootseq   : Word := 0
  /-- RSEQ up to which records are mirrored, and sent; bytes of the record after the mirrored ones already in NV memory -/
  mirrored  : Nat := 0
  part      : Nat := 0
  /-- a FATAL record waits to be mirrored with all that are pending (R557) -/
  urgent    : Bool := false
  sent      : Nat := 0
  /-- stream offset of the next RECORD body, in bytes -/
  soff      : Nat := 0
  /-- bedrock area full: records go to drift (R551) -/
  full      : Bool := false
  nvKnown   : Bool := false
  nvOn      : Bool := false
  /-- REC_NV_BASE, sector size and LOG_SIZE in force -/
  nvBase    : Nat := 0x800000
  sector    : Nat := 65536
  logSize   : Nat := 4194304
  /-- write pointer of the drift log, in pages -/
  nvptr     : Nat := 0
  /-- write offset in the current bedrock slot -/
  slotPtr   : Nat := 0
  erased    : Nat := 0
  erasing   : Bool := false
  suspended : Bool := false
  lossDue   : Nat := 0
  /-- TB of the first and of the last record discarded since the last LOSS record of the input queue -/
  lossFirst : Nat := 0
  lossLast  : Nat := 0
  lostQueue : Nat := 0
  lostMirror : Nat := 0
  lostUpload : Nat := 0
  lostFlush : Nat := 0
  warn      : Nat := 0
  bounce    : Nat := 0
  recover   : Nat := 0
  cores     : Nat := 0
  lastPhase : Nat := 0
  flush     : Option Flush := none
  holdUntil : Option Nat := none
  /-- record log of a tray-role block: entries held (number, offset, bytes), oldest first, write offset, last SOFF end per sender -/
  logIndex  : List (Nat × Nat × Nat) := []
  logPtr    : Nat := 0
  logSenders : List (Nat × Nat) := []
  deriving DecidableEq, Repr

end Sys2Proof.Machine
end

