-- ==== Sys2Proof/Config.lean ====
section
/-!
DEFINITION. The free values: constants without a body for what the spec leaves open or gives only in name.
No proof can see a value of them. Log 1, 2, 3, 4, 5.
-/
namespace Sys2Proof.Config

/-- Block `n` drawn from the block's DRBG (R118): random, so free. -/
opaque drbg : Nat → BitVec 128

/-- The body a compressor writes for data at a level (R508 fixes only the decoding). -/
opaque nidjaBody : Nat → List Byte → List Byte

/-- Arbitrations lost at a node-memory page in the `n`-th pass (R254, R281): depends on cycle-level arbitration. -/
opaque pageLosses : Nat → Nat → Nat

/-- Arbitrations lost at a feature bank in the `n`-th pass (R254, R281). -/
opaque bankLosses : Nat → Nat → Nat

/-- The feature bank of a row and word: a fixed internal function (R254). -/
opaque featBank : Nat → Nat → Nat

/-- Node words with a single-bit error that the reads of a sample meet (R248): pass, entity. -/
opaque nodeCorrected : Nat → Nat → Nat

/-- How long before the end of an interval the last host edge came that the clock monitor counted in it (R66). Free value (log 65). -/
opaque lastEdge : Nat → Nat → Nat

/-- TB and epoch of a die's last step boundary as the tray knows them at the end of a window (Table 8.3): the spec gives no message that
carries them. Window, die. -/
opaque stepBoundary : Nat → Nat → Option (Nat × Nat)

/-- CK_CORE cycles of the `n`-th aggregation window in which the ensemble engine issued a visit (R348): depends on the arbitration. -/
opaque engineBusy : Nat → Nat

/-- Sub-code word of a UNIT record of code 0 (R642): the firmware version defines its meaning. -/
opaque subCode : Nat → Word

/-- Firmware version number (Table 12.11).  -/
opaque firmware : Byte

/-- A 32-bit histogram count of a watch window that has counted this many elements, 2^32 or more (R92 does not say what it reads). -/
opaque histOver : Nat → BitVec 32

/-- What the block's controller, whose programs the spec does not give, adds to its trace in one cycle, if anything: whether it entered an
exception, the instructions since the last packet, the target (Table 13.3, type 7). -/
opaque ctlPacket : Nat → Option (Bool × Nat × Word)

/-- The digest key a watch window uses while the die has no epoch open (R93 names the current epoch's): k_0, k_1. -/
opaque noEpochKey : BitVec 61 × BitVec 61

/-- Value bits of the elements that a memory range holds in an MX format (R191): the spec does not say where such a range keeps its
scale bytes. Format code, bytes. -/
opaque mxElements : Nat → List Byte → List Nat

/-- Sections of the configuration image whose bytes the spec gives no layout (Table 16.3). -/
opaque identity : List Byte → Option (Nat × Nat × Nat × Nat)
/-- MESH section. -/
opaque mesh : List Byte → Option Machine.Mesh
/-- MEMORY section. -/
opaque memory : List Byte → Option (List Machine.Range)
/-- FEATURE_MAP section. -/
opaque features : List Byte → Option Machine.FeatMap
/-- TELEMETRY section: window length in ns, figures, group 0. -/
opaque telemetry : List Byte → Option (Nat × List Machine.Figure × Machine.Group)
/-- ENSEMBLE section. -/
opaque ensemble : List Byte → Option Machine.EnsSection
/-- SCORING section. -/
opaque scoring : List Byte → Option Machine.Scoring
/-- DETECTORS section. -/
opaque detectors : List Byte → Option (List Machine.Detector)
/-- PROT section: PROT_CH0–3. -/
opaque prot : List Byte → Option (List DWord)
/-- RECORDER section: REC_NV_BASE, sector size, LOG_SIZE. -/
opaque recorder : List Byte → Option (Nat × Nat × Nat)

/-- Values in an image that a fuse field also holds, each with the field's highest and lowest bit (R577). -/
opaque fuseValues : List Byte → List (Nat × Nat × Nat)

/-- Settings of one management segment in the image: MGT_SEGCFG as Table 11.8 lays it out, silence limit, RX_LAT and TX_LAT (Table 11.2). -/
structure SegSet where
  cfg     : DWord := 0x81480002008FF
  silence : Nat := 1000000000
  rxLat   : Nat := 0
  txLat   : Nat := 0
  deriving DecidableEq, Repr

/-- Settings of the image that no setting table numbers, with their defaults: link rate and share (R377), block-owned and trace channels
(R533, R497), place of the ageing image, boot and power limits (R568, R588, R599), sideband, broadcast and relay timers (R392–R405, R470),
memory timeout, re-key and migration figures (R518, R525–R528), assembly limit (R265), member and result timeouts (R230), management port
(Tables 11.2, 11.8, R436), and how far each region's droop threshold lies below its planned voltage in mV. -/
structure Extra where
  linkRate : Nat := 100000000000
  share : Nat := 10
  blockCh : Nat := 16
  traceCh : Nat := 0
  agePlace : Nat := 0x1000000
  drowseDelay : Nat := 1000000
  recHold : Nat := 10000000
  protWait : Nat := 10000000000
  beatPeriod : Nat := 100000
  syncInt : Nat := 1000000
  sbPdelay : Nat := 10000000
  tack : Nat := 50000
  prepHold : Nat := 100000000
  relayTimeout : Nat := 10000000
  memTimeout : Nat := 100000
  migRate : Nat := 4000000000
  rekeyHold : Nat := 3600000000000
  skewMilli : Nat := 1500
  assembly : Nat := 50000
  memberTimeout : Nat := 100000
  resultTimeout : Nat := 1000000
  segA : SegSet := {}
  segB : SegSet := {}
  portcfg : DWord := 0xBCC00000
  mgtPdelay : Nat := 1000000000
  droopBelow : List Int := List.replicate 8 50
  deriving DecidableEq, Repr

/-- Those settings, read from the image's bytes. -/
opaque extraOf : List Byte → Option Extra

end Sys2Proof.Config
end

