-- ==== Sys2Proof/Machine/Codec.lean ====
section
/-!
DEFINITION. Bytes and words, CRC-32C, AES-128 with its CMAC (RFC 4493), SHA-384 (FIPS 180-4) and ECDSA P-384
verification (FIPS 186-5): the codes and check values the spec names.
-/
namespace Sys2Proof.Machine

/-- Bits [hi:lo] of a number. -/
def bitsOf (v hi lo : Nat) : Nat := v / 2 ^ lo % 2 ^ (hi + 1 - lo)

/-- Bit `i` of a number. -/
def bitOf (v i : Nat) : Bool := v / 2 ^ i % 2 = 1

/-- 1 or 0. -/
def b2n (b : Bool) : Nat := if b then 1 else 0

/-- The two's-complement reading of the low `w` bits. -/
def signed (w v : Nat) : Int := if v % 2 ^ w < 2 ^ (w - 1) then (v % 2 ^ w : Nat) else (v % 2 ^ w : Nat) - (2 ^ w : Nat)

/-- The low `w` bits of an integer in two's complement. -/
def unsigned (w : Nat) (i : Int) : Nat := (i % (2 ^ w : Nat)).toNat

/-- Insert into a list in order. -/
def insertBy {α : Type} (lt : α → α → Bool) (a : α) : List α → List α
  | [] => [a]
  | b :: t => if lt b a then b :: insertBy lt a t else a :: b :: t
/-- A list in order. -/
def sortBy {α : Type} (lt : α → α → Bool) (l : List α) : List α := l.foldr (insertBy lt) []

/-- A count as a register field of `w` bits shows it: saturated at its maximum. -/
def sat (w n : Nat) : Nat := min n (2 ^ w - 1)

/-- `n` bytes of a number, most significant first (R6). -/
def beBytes : Nat → Nat → List Byte
  | 0, _ => []
  | n + 1, v => BitVec.ofNat 8 (v / 256 ^ n) :: beBytes n v

/-- `n` bytes of a number, least significant first (R6). -/
def leBytes : Nat → Nat → List Byte
  | 0, _ => []
  | n + 1, v => BitVec.ofNat 8 v :: leBytes n (v / 256)

/-- The number that bytes spell, most significant first. -/
def beNat (bs : List Byte) : Nat := bs.foldl (fun a b => a * 256 + b.toNat) 0

/-- The number that bytes spell, least significant first. -/
def leNat : List Byte → Nat
  | [] => 0
  | b :: t => b.toNat + 256 * leNat t

/-- `n` bytes from offset `o`, big-endian. -/
def beAt (bs : List Byte) (o n : Nat) : Nat := beNat ((bs.drop o).take n)

/-- `n` bytes from offset `o`, little-endian. -/
def leAt (bs : List Byte) (o n : Nat) : Nat := leNat ((bs.drop o).take n)

/-- Words as bytes, most significant first. -/
def wordsBytes (ws : List Word) : List Byte := ws.flatMap (fun w => beBytes 4 w.toNat)

/-- Bytes as words, most significant first; a last part short of four bytes is left out. -/
def bytesWords : List Byte → List Word
  | a :: b :: c :: d :: t => (a ++ b ++ c ++ d) :: bytesWords t
  | _ => []

/-- Zero bytes up to a multiple of `n`. -/
def padTo (n : Nat) (bs : List Byte) : List Byte := bs ++ List.replicate ((n - bs.length % n) % n) 0

/-- Bytes cut into pieces of `n`, the last one as short as it falls. -/
def chunksOf (n : Nat) (bs : List Byte) : List (List Byte) :=
  (List.range ((bs.length + n - 1) / n)).map (fun i => (bs.drop (i * n)).take n)

/-! CRC-32C (the reflected Castagnoli polynomial 0x82F63B78). -/

/-- One bit of the CRC register. -/
def crcBit (c : BitVec 32) : BitVec 32 := if c.getLsbD 0 then (c >>> 1) ^^^ 0x82F63B78 else c >>> 1

/-- One byte into the CRC register. -/
def crcByte (c : BitVec 32) (b : Byte) : BitVec 32 :=
  crcBit (crcBit (crcBit (crcBit (crcBit (crcBit (crcBit (crcBit (c ^^^ b.zeroExtend 32))))))))

/-- CRC-32C of bytes. -/
def crc32c (bs : List Byte) : Word := bs.foldl crcByte 0xFFFFFFFF ^^^ 0xFFFFFFFF

/-! AES-128 and AES-CMAC. -/

/-- Doubling in GF(2^8) with the AES polynomial. -/
def gfDouble (a : Byte) : Byte := if a.getLsbD 7 then (a <<< 1) ^^^ 0x1B else a <<< 1

/-- Multiplication in GF(2^8), by the bits of the second factor from the top. -/
def gfMul (a b : Byte) : Byte :=
  (List.range 8).foldl (fun r i => (gfDouble r) ^^^ (if b.getLsbD (7 - i) then a else 0)) 0

/-- The multiplicative inverse in GF(2^8) (0 for 0): a to the power 254. -/
def gfInv (a : Byte) : Byte :=
  let sq := fun x => gfMul x x
  let a2 := sq a; let a3 := gfMul a2 a; let a6 := sq a3; let a7 := gfMul a6 a
  let a14 := sq a7; let a15 := gfMul a14 a; let a30 := sq a15; let a31 := gfMul a30 a
  let a62 := sq a31; let a63 := gfMul a62 a; let a126 := sq a63; let a127 := gfMul a126 a
  sq a127

/-- The AES substitution of a byte. -/
def aesSub (a : Byte) : Byte :=
  let b := gfInv a
  b ^^^ b.rotateLeft 1 ^^^ b.rotateLeft 2 ^^^ b.rotateLeft 3 ^^^ b.rotateLeft 4 ^^^ 0x63

/-- Exclusive or of two byte lists. -/
def xorBytes (a b : List Byte) : List Byte := List.zipWith (· ^^^ ·) a b

/-- The next AES round key. -/
def aesNextKey (k : List Byte) (rc : Byte) : List Byte :=
  let w := fun i => (k.drop (4 * i)).take 4
  let t := match w 3 with
    | [a, b, c, d] => [aesSub b ^^^ rc, aesSub c, aesSub d, aesSub a]
    | x => x
  let w0 := xorBytes (w 0) t
  let w1 := xorBytes (w 1) w0
  let w2 := xorBytes (w 2) w1
  w0 ++ w1 ++ w2 ++ xorBytes (w 3) w2

/-- SubBytes then ShiftRows on a column-major state. -/
def aesShift (s : List Byte) : List Byte :=
  (List.range 16).map (fun i => aesSub (getAt s ((i + 4 * (i % 4)) % 16) 0))

/-- MixColumns. -/
def aesMix (s : List Byte) : List Byte :=
  (List.range 16).map (fun i =>
    let c := i / 4 * 4
    let g := fun j => getAt s (c + (i + j) % 4) 0
    gfDouble (g 0) ^^^ gfDouble (g 1) ^^^ g 1 ^^^ g 2 ^^^ g 3)

/-- AES rounds after the first key addition, by round constants. -/
def aesRounds : List Byte → List Byte → List Byte → List Byte
  | [], _, s => s
  | [rc], k, s => xorBytes (aesShift s) (aesNextKey k rc)
  | rc :: t, k, s => let k' := aesNextKey k rc; aesRounds t k' (xorBytes (aesMix (aesShift s)) k')

/-- AES-128 of one block. -/
def aes128 (key block : List Byte) : List Byte :=
  aesRounds [1, 2, 4, 8, 0x10, 0x20, 0x40, 0x80, 0x1B, 0x36] key (xorBytes block key)

/-- The CMAC subkey after a 128-bit value. -/
def cmacDouble (v : BitVec 128) : BitVec 128 := if v.getLsbD 127 then (v <<< 1) ^^^ 0x87 else v <<< 1

/-- AES-CMAC (RFC 4493) of bytes under a key. -/
def aesCmac (key : BitVec 128) (msg : List Byte) : BitVec 128 :=
  let kb := beBytes 16 key.toNat
  let l : BitVec 128 := BitVec.ofNat 128 (beNat (aes128 kb (List.replicate 16 0)))
  let k1 := cmacDouble l
  let k2 := cmacDouble k1
  let n := if msg.length = 0 then 1 else (msg.length + 15) / 16
  let last := msg.drop ((n - 1) * 16)
  let lastB := if last.length = 16 then xorBytes last (beBytes 16 k1.toNat)
    else xorBytes (last ++ [0x80] ++ List.replicate (15 - last.length) 0) (beBytes 16 k2.toNat)
  let x := (List.range (n - 1)).foldl (fun x i => aes128 kb (xorBytes x ((msg.drop (16 * i)).take 16))) (List.replicate 16 0)
  BitVec.ofNat 128 (beNat (aes128 kb (xorBytes x lastB)))

/-! SHA-384: the round constants are the first 64 bits of the fractions of the cube roots of the first 80 primes,
the initial value those of the square roots of the 9th to 16th primes. -/

/-- Largest `r` with `r ^ k ≤ n`, found bit by bit from bit `b`. -/
def rootFrom (k n : Nat) : Nat → Nat → Nat
  | 0, r => if (r + 1) ^ k ≤ n then r + 1 else r
  | b + 1, r => rootFrom k n b (if (r + 2 ^ (b + 1)) ^ k ≤ n then r + 2 ^ (b + 1) else r)

/-- The primes below `n`, by trial division. -/
def primesBelow (n : Nat) : List Nat :=
  (List.range n).filter (fun p => 2 ≤ p && (List.range p).all (fun d => d < 2 || p % d != 0))

/-- Fraction bits of the `k`-th root of `p`, 64 of them. -/
def rootFrac (k p : Nat) : BitVec 64 := BitVec.ofNat 64 (rootFrom k (p * 2 ^ (64 * k)) 70 0)

/-- The eighty round constants. -/
def shaK : List (BitVec 64) := ((primesBelow 410).take 80).map (rootFrac 3)

/-- The initial hash value of SHA-384. -/
def shaH : List (BitVec 64) := (((primesBelow 60).drop 8).take 8).map (rootFrac 2)

/-- The message schedule of a block, newest word first. -/
def shaSchedule : Nat → List (BitVec 64) → List (BitVec 64)
  | 0, w => w
  | n + 1, w =>
    let g := fun i => getAt w i 0
    let s0 := (g 14).rotateRight 1 ^^^ (g 14).rotateRight 8 ^^^ (g 14 >>> 7)
    let s1 := (g 1).rotateRight 19 ^^^ (g 1).rotateRight 61 ^^^ (g 1 >>> 6)
    shaSchedule n ((g 15 + s0 + g 6 + s1) :: w)

/-- One SHA-512 round. -/
def shaRound (h : List (BitVec 64)) (kw : BitVec 64 × BitVec 64) : List (BitVec 64) :=
  match h with
  | [a, b, c, d, e, f, g, hh] =>
    let s1 := e.rotateRight 14 ^^^ e.rotateRight 18 ^^^ e.rotateRight 41
    let t1 := hh + s1 + ((e &&& f) ^^^ (~~~e &&& g)) + kw.1 + kw.2
    let s0 := a.rotateRight 28 ^^^ a.rotateRight 34 ^^^ a.rotateRight 39
    [t1 + s0 + ((a &&& b) ^^^ (a &&& c) ^^^ (b &&& c)), a, b, c, d + t1, e, f, g]
  | x => x

/-- One 128-byte block into the hash value. -/
def shaBlock (h : List (BitVec 64)) (blk : List Byte) : List (BitVec 64) :=
  let w0 := (List.range 16).map (fun i => BitVec.ofNat 64 (beAt blk (8 * i) 8))
  let w := (shaSchedule 64 w0.reverse).reverse
  List.zipWith (· + ·) h ((List.zip shaK w).foldl shaRound h)

/-- SHA-384 of bytes. -/
def sha384 (msg : List Byte) : BitVec 384 :=
  let z := (128 - (msg.length + 17) % 128) % 128
  let m := msg ++ [0x80] ++ List.replicate z 0 ++ beBytes 16 (8 * msg.length)
  let h := (chunksOf 128 m).foldl shaBlock shaH
  BitVec.ofNat 384 (beNat ((h.take 6).flatMap (fun w => beBytes 8 w.toNat)))

/-! ECDSA P-384. -/

/-- The field prime of P-384. -/
def p384P : Nat := 2 ^ 384 - 2 ^ 128 - 2 ^ 96 + 2 ^ 32 - 1
/-- The group order of P-384. -/
def p384N : Nat := 0xffffffffffffffffffffffffffffffffffffffffffffffffc7634d81f4372ddf581a0db248b0a77aecec196accc52973
/-- The coefficient b of P-384. -/
def p384B : Nat := 0xb3312fa7e23ee7e4988e056be3f82d19181d9c6efe8141120314088f5013875ac656398d8a2ed19d2a85c8edd3ec2aef
/-- The base point of P-384. -/
def p384G : Nat × Nat :=
  (0xaa87ca22be8b05378eb1c71ef320ad746e1d3b628ba79b9859f741e082542a385502f25dbf55296c3a545e3872760ab7,
   0x3617de4a96262c6f5d9e98bf9292dc29f8f41dbd289a147ce9da3113b5f0b8c00a60b1ce1d7e819d7a431d7c90ea0e5f)

/-- Power modulo `m`, by the bits of the exponent below bit `b`. -/
def powMod (m x : Nat) : Nat → Nat → Nat → Nat
  | 0, _, r => r
  | b + 1, e, r => powMod m x b e (if bitOf e b then r * r % m * x % m else r * r % m)

/-- Inverse modulo a prime below 2^384. -/
def invMod (m x : Nat) : Nat := powMod m (x % m) 384 (m - 2) 1

/-- Sum of two points of P-384; none is the point at infinity. -/
def p384Add (a b : Option (Nat × Nat)) : Option (Nat × Nat) :=
  let p := p384P
  match a, b with
  | none, q => q
  | q, none => q
  | some (x1, y1), some (x2, y2) =>
    if x1 = x2 ∧ (y1 + y2) % p = 0 then none
    else
      let l := if x1 = x2 then (3 * x1 * x1 + p - 3) * invMod p (2 * y1) % p
        else (y2 + p - y1) * invMod p (x2 + p - x1) % p
      let x3 := (l * l + 2 * p - x1 - x2) % p
      some (x3, (l * (x1 + p - x3) + p - y1) % p)

/-- A multiple of a point, by the bits of the scalar below bit `b`. -/
def p384Mul (q : Option (Nat × Nat)) (s : Nat) : Nat → Option (Nat × Nat) → Option (Nat × Nat)
  | 0, r => r
  | b + 1, r => let d := p384Add r r; p384Mul q s b (if bitOf s b then p384Add d q else d)

/-- ECDSA P-384 verification: key X ‖ Y, digest, signature r and s (R580). -/
def ecdsaOk (key : Nat) (digest r s : Nat) : Bool :=
  let p := p384P
  let n := p384N
  let x := key / 2 ^ 384
  let y := key % 2 ^ 384
  let onCurve := decide (x < p) && decide (y < p) && decide (y * y % p = (x * x * x + (p - 3) * x + p384B) % p)
  if onCurve && decide (0 < r) && decide (r < n) && decide (0 < s) && decide (s < n) then
    let w := invMod n s
    match p384Add (p384Mul (some p384G) (digest * w % n) 384 none) (p384Mul (some (x, y)) (r * w % n) 384 none) with
    | none => false
    | some (vx, _) => vx % n = r
  else false

end Sys2Proof.Machine
end

