-- ==== Sys2Proof/Machine/Flt.lean ====
section
/-!
DEFINITION. Exact IEEE 754-2019 arithmetic over dyadic rationals: decoding, one rounding, comparison (R110, R136, R211,
R249, R258, R294).
-/
namespace Sys2Proof.Machine

/-- A floating-point format: exponent bits and fraction bits. -/
structure FFmt where
  eb : Nat
  mb : Nat
  deriving DecidableEq, Repr

/-- binary16 -/
def f16 : FFmt := ⟨5, 10⟩
/-- bfloat16 -/
def bf16 : FFmt := ⟨8, 7⟩
/-- binary32 -/
def f32 : FFmt := ⟨8, 23⟩
/-- binary64 -/
def f64 : FFmt := ⟨11, 52⟩

/-- A decoded value: NaN, infinity of a sign, or ± m × 2^e. -/
inductive Flt where
  | nan
  | inf (neg : Bool)
  | fin (neg : Bool) (m : Nat) (e : Int)
  deriving DecidableEq, Repr

/-- Exponent bias of a format. -/
def FFmt.bias (f : FFmt) : Nat := 2 ^ (f.eb - 1) - 1
/-- Weight exponent of the lowest fraction bit of subnormals. -/
def FFmt.emin (f : FFmt) : Int := 1 - (f.bias : Int) - f.mb
/-- Bits of a signed infinity. -/
def FFmt.infBits (f : FFmt) (neg : Bool) : Nat := b2n neg * 2 ^ (f.eb + f.mb) + (2 ^ f.eb - 1) * 2 ^ f.mb
/-- The canonical quiet NaN of a format. -/
def FFmt.qnan (f : FFmt) : Nat := f.infBits false + 2 ^ (f.mb - 1)

/-- The value that encoding bits stand for. -/
def FFmt.decode (f : FFmt) (v : Nat) : Flt :=
  let s := bitOf v (f.eb + f.mb)
  let ex := bitsOf v (f.eb + f.mb - 1) f.mb
  let fr := v % 2 ^ f.mb
  if ex = 2 ^ f.eb - 1 then (if fr = 0 then .inf s else .nan)
  else if ex = 0 then .fin s fr f.emin
  else .fin s (fr + 2 ^ f.mb) (f.emin + ex - 1)

/-- floor(log2(n / d)) for positive n and d. -/
def log2Rat (n d : Nat) : Int :=
  let l : Int := (Nat.log2 n : Int) - (Nat.log2 d : Int)
  let lt := if l < 0 then n * 2 ^ (-l).toNat < d else n < d * 2 ^ l.toNat
  if lt then l - 1 else l

/-- A non-negative rational n / d rounded once to a format; `up` selects rounding upward in place of roundTiesToEven. -/
def FFmt.roundRat (f : FFmt) (neg : Bool) (n d : Nat) (up : Bool := false) : Nat :=
  if n = 0 then 0 else
    let q := max f.emin (log2Rat n d - f.mb)
    let n' := if q < 0 then n * 2 ^ (-q).toNat else n
    let d' := if q < 0 then d else d * 2 ^ q.toNat
    let i := n' / d'
    let r := n' % d'
    let inc := if up then decide (r ≠ 0) && !neg else decide (2 * r > d') || (decide (2 * r = d') && decide (i % 2 = 1))
    let i := i + b2n inc
    -- `i` × 2^q with i ≤ 2^(mb+1); the encoding's exponent step carries by itself
    let enc := if i < 2 ^ f.mb then i else (q - f.emin).toNat * 2 ^ f.mb + i
    if enc ≥ (2 ^ f.eb - 1) * 2 ^ f.mb then f.infBits neg else b2n neg * 2 ^ (f.eb + f.mb) + enc

/-- ± m × 2^e rounded once. -/
def FFmt.roundDy (f : FFmt) (neg : Bool) (m : Nat) (e : Int) (up : Bool := false) : Nat :=
  if e < 0 then f.roundRat neg m (2 ^ (-e).toNat) up else f.roundRat neg (m * 2 ^ e.toNat) 1 up

/-- A decoded value encoded in a format with one rounding; a zero keeps its sign. -/
def FFmt.encode (f : FFmt) (x : Flt) (up : Bool := false) : Nat :=
  match x with
  | .nan => f.qnan
  | .inf s => f.infBits s
  | .fin s 0 _ => b2n s * 2 ^ (f.eb + f.mb)
  | .fin s m e => f.roundDy s m e up

/-- A signed integer times 2^e as a value; zero is +0. -/
def Flt.ofInt (i : Int) (e : Int := 0) : Flt := .fin (decide (i < 0)) i.natAbs e

/-- Magnitude with sign as an integer. -/
def signedNat (s : Bool) (m : Nat) : Int := if s then -(m : Int) else m

/-- Exact sum. A sum of opposite values is +0; −0 + −0 is −0. -/
def Flt.add : Flt → Flt → Flt
  | .nan, _ => .nan
  | _, .nan => .nan
  | .inf a, .inf b => if a = b then .inf a else .nan
  | .inf a, _ => .inf a
  | _, .inf b => .inf b
  | .fin a m e, .fin b n k =>
    if m = 0 ∧ n = 0 then .fin (a && b) 0 0 else
      let q := min e k
      .ofInt (signedNat a (m * 2 ^ (e - q).toNat) + signedNat b (n * 2 ^ (k - q).toNat)) q

/-- Negation. -/
def Flt.neg : Flt → Flt
  | .nan => .nan
  | .inf a => .inf (!a)
  | .fin a m e => .fin (!a) m e

/-- Exact product. -/
def Flt.mul : Flt → Flt → Flt
  | .nan, _ => .nan
  | _, .nan => .nan
  | .inf a, .inf b => .inf (a != b)
  | .inf a, .fin b n _ => if n = 0 then .nan else .inf (a != b)
  | .fin a m _, .inf b => if m = 0 then .nan else .inf (a != b)
  | .fin a m e, .fin b n k => .fin (a != b) (m * n) (e + k)

/-- x < y for values that are not NaN. −0 equals +0; infinities compare normally. -/
def Flt.lt : Flt → Flt → Bool
  | .nan, _ => false
  | _, .nan => false
  | .inf a, .inf b => a && !b
  | .inf a, _ => a
  | _, .inf b => !b
  | .fin a m e, .fin b n k =>
    let q := min e k
    decide (signedNat a (m * 2 ^ (e - q).toNat) < signedNat b (n * 2 ^ (k - q).toNat))

/-- Is it a NaN? -/
def Flt.isNan : Flt → Bool
  | .nan => true
  | _ => false

/-- Is it finite? -/
def Flt.isFin : Flt → Bool
  | .fin _ _ _ => true
  | _ => false

/-- binary32 decoding of a word. -/
def dec32 (w : Word) : Flt := f32.decode w.toNat
/-- binary32 encoding with one roundTiesToEven. -/
def enc32 (x : Flt) : Word := BitVec.ofNat 32 (f32.encode x)
/-- binary32 addition. -/
def add32 (a b : Word) : Word := enc32 ((dec32 a).add (dec32 b))
/-- binary32 subtraction. -/
def sub32 (a b : Word) : Word := enc32 ((dec32 a).add (dec32 b).neg)
/-- binary32 multiplication. -/
def mul32 (a b : Word) : Word := enc32 ((dec32 a).mul (dec32 b))
/-- A rational rounded once to binary32; a zero divisor gives the missing marker (R300). -/
def ratio32 (n : Int) (d : Nat) : Word :=
  if d = 0 then 0xFFFFFFFF else BitVec.ofNat 32 (f32.roundRat (decide (n < 0)) n.natAbs d)
/-- The missing marker (R261). -/
def missing : Word := 0xFFFFFFFF
/-- binary32 division of two finite values; a zero divisor or a NaN gives the missing marker. -/
def div32 (a b : Word) : Word :=
  match dec32 a, dec32 b with
  | .fin s m e, .fin t n k =>
    if n = 0 then missing else
      let q := e - k
      if q < 0 then BitVec.ofNat 32 (f32.roundRat (s != t) m (n * 2 ^ (-q).toNat))
      else BitVec.ofNat 32 (f32.roundRat (s != t) (m * 2 ^ q.toNat) n)
  | _, _ => missing
/-- An integer as binary32. -/
def int32f (i : Int) : Word := enc32 (.ofInt i)

/-- Round a rational n / d to the nearest integer, ties to even. -/
def roundInt (n : Int) (d : Nat) : Int :=
  let q := n / (d : Int)
  let r := n - q * d
  if 2 * r > d ∨ (2 * r = d ∧ q % 2 = 1) then q + 1 else q

/-- Largest r with r² ≤ n. -/
def isqrt (n : Nat) : Nat := rootFrom 2 n (Nat.log2 n / 2 + 1) 0

/-- The square root of m × 2^(−2h), rounded once to a format (R239): two sticky-extended guard positions decide the ties. -/
def FFmt.sqrt (f : FFmt) (m h : Nat) : Nat :=
  let g := 2 ^ 160
  let r := isqrt (m * (g * g))
  let st := if r * r = m * (g * g) then 2 * r else 2 * r + 1
  f.roundRat false st (2 * g * 2 ^ h)

end Sys2Proof.Machine
end

