-- ==== Sys2Proof/Machine/StateCell.lean ====
section
/-!
DEFINITION. Plain data of the lichen cells and host regions, the residue lanes, the audit engine, the stream digest
engine, the exact-sum unit and the reduction rounds (chapters 03, 04, 05, 06 of the spec).
-/
namespace Sys2Proof.Machine

/-- A 48-bit counter (R77, R82). -/
abbrev Cnt := BitVec 48
/-- A residue field modulo p = 2^61 − 1. -/
abbrev Fld := BitVec 61

/-- Selection of one event counter (Table 3.4). -/
structure EvSel where
  sel  : Byte := 0
  qual : BitVec 2 := 0
  deriving DecidableEq, Repr

/-- One spore rule: its descriptor (Tables 3.6, 3.7) and its evaluation state (R85–R90). -/
structure Rule where
  w0      : DWord := 0x0800000000000000
  w1      : DWord := 0x0000000100000000
  base    : Cnt := 0
  elapsed : Cnt := 0
  run     : Nat := 0
  last    : Bool := false
  /-- TB at which the current window began; none until the first window boundary -/
  start   : Option Nat := none
  deriving DecidableEq, Repr

/-- Tensor-watch settings (Table 3.9). mode 0 OFF, 1 STATS, 2 DIGEST; fmt 0 binary32, 1 bfloat16, 2 binary16, 3 int32. -/
structure WatchSet where
  stream : BitVec 4 := 0
  fmt    : BitVec 2 := 0
  mode   : BitVec 2 := 0
  window : Nat := 0
  eoff   : Int := 0
  deriving DecidableEq, Repr

/-- A watch window's running figures, and its result (R92, R93). -/
structure WatchWin where
  count   : Nat := 0
  zeros   : Nat := 0
  subn    : Nat := 0
  nans    : Nat := 0
  pinfs   : Nat := 0
  ninfs   : Nat := 0
  min     : Option Word := none
  max     : Option Word := none
  hist    : List Nat := List.replicate 16 0
  d0      : Fld := 0
  d1      : Fld := 0
  forced  : Bool := false
  /-- an element was digested under the fixed keys of R165 -/
  fixed   : Bool := false
  /-- results discarded since the previous delivery (R94) -/
  lost    : Nat := 0
  deriving DecidableEq, Repr

/-- A point word in a cell FIFO (R119). -/
structure PointWord where
  audit : Bool
  s     : Fld
  t     : Fld
  u     : Fld
  /-- exponent at assignment is 0 for a probe; FIXED mark (R123) -/
  fixed : Bool
  deriving DecidableEq, Repr

/-- An open tile of a residue lane (R126). -/
structure Tile where
  bounded : Bool
  orient  : BitVec 2
  fmtL    : BitVec 4
  fmtR    : BitVec 4
  fmtC    : BitVec 2
  pseq    : BitVec 4
  m       : Nat
  n       : Nat
  k       : Nat
  tag     : BitVec 16
  word    : PointWord
  pairs   : Nat := 0
  sum     : Fld := 0
  fa      : Fld := 0
  fb      : Fld := 0
  /-- bounded mode: S and M as binary64 (R136); a non-finite value seen -/
  bs      : DWord := 0
  bm      : DWord := 0
  bad     : Bool := false
  deadline : Nat
  /-- region's stopped time when the tile started (R129) -/
  stopped0 : Nat
  deriving DecidableEq, Repr

/-- An outcome in a region queue or an audit request in it (R134). res: Table 4.10 code. -/
structure TapOut where
  core   : Nat
  res    : BitVec 3
  sub    : Nat := 0
  tile   : Option Tile := none
  vsent  : DWord := 0
  tb     : Nat
  hostCycle : Cnt
  /-- the region's condition bin at the outcome's TB (R152, R349) -/
  cond   : Nat := 0
  /-- audit request: slot and AUDRDY -/
  audit  : Option (BitVec 2 × Bool) := none
  /-- a LATE_END of R130: TAG and PSEQ of the tile -/
  lateEnd : Option (BitVec 16 × BitVec 4) := none
  deriving DecidableEq, Repr

/-- An outcome waiting to be presented on TAP_RV, TAP_RES, TAP_RTAG (R127): due host cycle, result, tag. -/
structure TapDue where
  due  : Nat
  res  : BitVec 2
  rtag : BitVec 16
  deriving DecidableEq, Repr

/-- Accounting and event counters of a cell (R77, R82). -/
structure Counters where
  elapsed : Cnt := 0
  busy    : Cnt := 0
  idle    : Cnt := 0
  stalls  : List Cnt := List.replicate 16 0
  events  : List Cnt := List.replicate 16 0
  deriving DecidableEq, Repr

/-- The cell's tensor watch (R91–R94). -/
structure Watch where
  set     : WatchSet := {}
  win     : WatchWin := {}
  ignore  : Nat := 0
  results : List WatchWin := []
  lost    : Nat := 0
  deriving DecidableEq, Repr

/-- The cell's residue lane and point FIFO (R121–R134). -/
structure Lane where
  fifo    : List PointWord := []
  /-- the group refills the FIFO: it has held six words or fewer and has not been full since (R121) -/
  filling : Bool := true
  pseq    : BitVec 4 := 0
  tiles   : List Tile := []
  /-- TAG and PSEQ of the last 16 timed-out tiles (R130) -/
  late    : List (BitVec 16 × BitVec 4) := []
  /-- TAGs of tiles that sub-code 5 closed, whose END is ignored -/
  ignore  : List (BitVec 16) := []
  /-- outcomes to present, in order; and the last one presented -/
  due     : List TapDue := []
  rv      : Bool := false
  res     : BitVec 2 := 0
  rtag    : BitVec 16 := 0
  cycle   : Nat := 0
  req     : Bool := false
  /-- host cycles since TAP_REQ rose, up to 17 -/
  reqAge  : Nat := 0
  deriving DecidableEq, Repr

/-- Trace intake of a cell (R95): words with their elapsed count and TB echo. -/
structure TraceIn where
  tsel  : Bool := false
  /-- words waiting: word, elapsed count, TB echo, words lost before it -/
  buf   : List (DWord × Cnt × Nat × Nat) := []
  lost  : Nat := 0
  deriving DecidableEq, Repr

/-- The lichen cell itself (chapter 03). -/
structure Cell where
  cnt     : Counters := {}
  sels    : List EvSel := List.replicate 16 {}
  rules   : List Rule := List.replicate 8 {}
  flags   : Byte := 0
  /-- flags set in the cycle in progress (R10) -/
  fresh   : Byte := 0
  flagTb  : List Nat := List.replicate 8 0
  /-- the host-cycle count that each flag carries (R61) -/
  flagCycle : List Cnt := List.replicate 8 0
  /-- configuration present: false between a reset and the hub's rewrite (R102) -/
  armed   : Bool := true
  /-- state presented in the last counted cycle -/
  last    : BitVec 2 := 0
  hold    : BitVec 2 := 0
  /-- host cycles since LC_HOLD changed, up to 256 -/
  holdAge : Nat := 256
  holdViol : Bool := false
  graceOver : Bool := false
  watch   : Watch := {}
  trace   : TraceIn := {}
  lane    : Lane := {}
  /-- counters captured by the last snapshot strobe, and the reset epoch then (R75, R96) -/
  shadow  : List Cnt := List.replicate 35 0
  shadowEpoch : BitVec 4 := 0
  /-- TB of that strobe -/
  shadowTb : Nat := 0
  deriving DecidableEq, Repr

/-- What the hub keeps for a core: last snapshot, configuration copy, counts of R150, audit exponent. -/
structure HubCell where
  snap    : List Cnt := List.replicate 35 0
  snapTb  : Nat := 0
  /-- TB at which it was captured in the cell (R44) -/
  capTb   : Nat := 0
  epoch   : BitVec 4 := 0
  /-- a base snapshot is held (R44) -/
  based   : Bool := false
  /-- the next snapshot counts from zero: its cell was reset -/
  fromZero : Bool := false
  delta   : List Nat := List.replicate 35 0
  /-- ns between the last two accepted snapshots -/
  deltaNs : Nat := 0
  /-- the region's stretched cycles at the last accepted snapshot, and those counted over `deltaNs` (R79, R294) -/
  stretchSeen : Nat := 0
  stretchDelta : Nat := 0
  failed  : Bool := false
  /-- reset while FAILED; the mark clears after three good snapshots (Table 3.10) -/
  proving : Bool := false
  badRun  : Nat := 0
  goodRun : Nat := 0
  skips   : Nat := 0
  noResp  : Bool := false
  late    : Bool := false
  stopped : Bool := false
  sel     : BitVec 5 := 0
  sels    : List EvSel := List.replicate 16 {}
  rules   : List (DWord × DWord) := List.replicate 8 (0x0800000000000000, 0x0000000100000000)
  watch   : WatchSet := {}
  bounded : Bool := false
  required : Bool := true
  uacc    : Nat := 24
  /-- the 20 counts of AUDIT_READ (Table 12.13) -/
  counts  : List Nat := List.replicate 20 0
  exponent : Option Nat := none
  /-- exponent that the verdicts call for, fixed at the last scan boundary, and its source (R21, R311) -/
  vexp    : Nat := 16
  vsrc    : Nat := 0
  /-- a verdict of the core has changed since the last scan boundary (R155) -/
  newVerdict : Bool := false
  /-- the quick scoring of the pending spore flag has been recorded as an act (R24) -/
  quickAct : Bool := false
  confirm : Nat := 0
  spore   : Bool := false
  outcome : Nat := 0
  lastProbe : Nat := 0
  lastTest : Nat := 0
  /-- outcome, spore flag or verdict change in the current aggregation window (R565) -/
  hadOutcome : Bool := false
  /-- outcome codes of discarded queue entries, counted at the next snapshot (R134) -/
  lostOut : List Nat := []
  /-- TAG, PSEQ and RSEQ of the last 16 timeout records (R130) -/
  timeouts : List (BitVec 16 × BitVec 4 × Word) := []
  deriving DecidableEq, Repr

/-- What a command changes in a cell, waiting for the region's clock (R47). -/
inductive Wait where
  | sels | watch | rule (i : Nat) | reset | hold (v : BitVec 2) | flags (bits : Byte)
  /-- the core settings of RES_CFG that it gave; LC_TSEL -/
  | res (bounded required : Option Bool) (uacc : Option Nat) | tsel (b : Bool)
  deriving DecidableEq, Repr

/-- Queue entries of a core that a full region queue has discarded (R134): how many, audit requests among them, the outcomes' codes, and
the TB of the first. -/
structure Dropped where
  core   : Nat
  count  : Nat := 0
  audits : Nat := 0
  codes  : List Nat := []
  first  : Nat
  deriving DecidableEq, Repr

/-- A host region as the hub sees it (R41–R48, R61–R68, R96–R103). -/
structure Region where
  epoch    : BitVec 4 := 0
  /-- the reset epoch the hub has last seen -/
  hubEpoch : BitVec 4 := 0
  stopped  : Bool := false
  stopTb   : Nat := 0
  resumeTb : Nat := 0
  lastEdge : Nat := 0
  stoppedNs : Nat := 0
  /-- a stop overlapped this scan period -/
  stopSeen : Bool := false
  /-- a stop overlapped the scan period before it -/
  wasStopped : Bool := false
  stretched : Nat := 0
  stretchPeriod : Nat := 0
  elapsedPeriod : Nat := 0
  busyPeriod : Nat := 0
  edges    : Bool := false
  /-- host edges counted in the last 1 µs interval (R65) -/
  count    : Nat := 0
  answered : Bool := true
  silent   : Nat := 0
  fault    : Bool := false
  late     : Bool := false
  /-- cores still to deliver in the collection in progress -/
  collect  : List Nat := []
  full     : Bool := false
  again    : Bool := false
  /-- partial snapshots asked for and not begun (R97) -/
  partialReq : List (List Nat) := []
  /-- host cycles of the head cell's turn so far, up to 16 (R69) -/
  turn     : Nat := 0
  /-- no TB echo has arrived yet since the last resume (R64) -/
  echoWait : Bool := false
  pending  : BitVec 256 := 0
  rewrite  : Bool := false
  /-- effects of commands that wait for the clock to return (R47): core, and what waits -/
  waitCfg  : List (Nat × Wait) := []
  outq     : List TapOut := []
  /-- entries discarded since the last delivery (R134) -/
  dropped  : List Dropped := []
  traceBuf : List (Nat × DWord × Cnt × Nat × Nat) := []
  traceTurn : Nat := 0
  watchq   : List (Nat × WatchWin) := []
  deriving DecidableEq, Repr

/-- A request of the audit queue (R142). -/
structure AuditReq where
  core  : Nat
  tile  : Tile
  lane  : BitVec 3
  slot  : BitVec 2
  ready : Bool
  special : Bool
  high  : Bool
  until_ : Nat
  /-- second read of the descriptor due at (R141) -/
  again : Option Nat := none
  /-- VALID was found set -/
  valid : Bool := false
  deriving DecidableEq, Repr

/-- Residue verifier and audit engine, die-wide (Tables 4.12, 4.13). -/
structure ResU where
  timeout   : Nat := 100000
  holdLimit : Nat := 100000
  elements  : Nat := 4
  budget    : Nat := 32000000000
  ring      : Nat := 0
  drbgOk    : BitVec 8 := 0
  /-- of each instance: generate requests since its last seed, blocks left of the last request (R118) -/
  drbg      : List (Nat × Nat) := List.replicate 8 (0, 0)
  /-- six-word groups: audit selectors left (R119) -/
  selectors : List (BitVec 20) := []
  queue     : List AuditReq := []
  units     : Tab AuditReq := []
  /-- RES_MISMATCH outcomes of audited tiles, each with the mark that a probe ran, whose class waits for the audit (R151) -/
  unclassed : List (TapOut × Bool) := []
  tiles     : Nat := 0
  mismatch  : Nat := 0
  timeouts  : Nat := 0
  proto     : Nat := 0
  audSkip   : Nat := 0
  tileSkip  : Nat := 0
  audits    : Nat := 0
  audMis    : Nat := 0
  audRound  : Nat := 0
  audFmt    : Nat := 0
  dbgS      : DWord := 0
  dbgT      : DWord := 0
  dbgU      : DWord := 0
  deriving DecidableEq, Repr

/-- An entry of the digest table (R173). state 0 none, 1 valid, 2 invalid. -/
structure DigEntry where
  d0    : Fld := 0
  d1    : Fld := 0
  count : Nat := 0
  state : BitVec 2 := 0
  /-- digested under the fixed keys of R165 -/
  fixed : Bool := false
  deriving DecidableEq, Repr

/-- A held version epoch (R179): keys, tables keyed layer × 64 + slice, exact-sum context, marks of its sum (R184, R185). -/
structure Epoch where
  num     : Word
  k0      : Fld
  k1      : Fld
  ingress : Tab DigEntry := []
  egress  : Tab DigEntry := []
  ctx     : Bool
  sumPartial : Bool := false
  incomplete : Bool := false
  /-- rounds submitted for the epoch so far (R195, R196, R200) -/
  rounds  : Nat := 0
  deriving DecidableEq, Repr

/-- Kind of the chunk that data beats of a tap belong to (R168). A slice's chunk is digested (skip 0), finds the table full (1), lost its
header (2), or names an epoch that is not open (3). -/
inductive ChunkKind where
  | slice (layer slice : Nat) (epoch : Word) (skip : Nat)
  | seal (sid : Nat)
  | recall (sid : Nat)
  deriving DecidableEq, Repr

/-- The current chunk of a tap. -/
structure Chunk where
  kind : ChunkKind
  fmt  : BitVec 4
  link : Nat
  next : Nat
  deriving DecidableEq, Repr

/-- A delivery in progress (layer, slice, epoch) on a tap, or a stash being sealed or recalled. -/
structure Delivery where
  layer   : Nat
  slice   : Nat
  epoch   : Word
  link    : Nat
  fmt     : BitVec 4
  k0      : Fld
  k1      : Fld
  fixed   : Bool
  d0      : Fld := 0
  d1      : Fld := 0
  count   : Nat := 0
  invalid : Bool := false
  overrun : Bool := false
  lost    : Nat := 0
  lastBeat : Nat
  deriving DecidableEq, Repr

/-- A stash seal (R186–R188). state 1 open, 2 sealed, 3 invalid. -/
structure Seal where
  state : BitVec 2
  egress : Bool := false
  k0    : Fld
  k1    : Fld
  d0    : Fld := 0
  d1    : Fld := 0
  count : Nat := 0
  overrun : Bool := false
  invalid : Bool := false
  /-- digested under the fixed keys of R165 -/
  fixed : Bool := false
  deriving DecidableEq, Repr

/-- A delivery or stash whose end beat has left the FIFO and waits for its digest to be final (R171). -/
inductive Final where
  | slice (d : Delivery) (valid : Bool)
  | recall (sid : Nat) (r : Seal) (s : Option Seal) (ok : Bool) (checked : Bool)
  deriving DecidableEq, Repr

/-- One digest pipe (R167–R178). FIFO: cost in DG_CLK cycles of each beat waiting, and when the last drain was counted. -/
structure Pipe where
  fifo    : List Nat := []
  drained : Nat := 0
  chunk   : Option Chunk := none
  open_   : List Delivery := []
  recalls : Tab Seal := []
  /-- ends that have left the FIFO or will, each with the TB at which its digest is final -/
  finals  : List (Nat × Final) := []
  lost    : Nat := 0
  deriving DecidableEq, Repr

/-- Weight-link figures of the scan period (Table 5.8). -/
structure LinkStat where
  elements : Nat := 0
  deliveries : Nat := 0
  wait     : Nat := 0
  gap      : Nat := 0
  invalid  : Nat := 0
  repeats  : Nat := 0
  stale    : Nat := 0
  /-- a delivery was open in the period; the most recent epoch of which the link has delivered, since both were last freed (R192) -/
  wasOpen  : Bool := false
  lastEpoch : Option Word := none
  deriving DecidableEq, Repr

/-- A frozen region (R191). -/
structure Frozen where
  layer : Nat
  slice : Nat
  fmt   : BitVec 4
  base  : Nat
  addr  : Nat
  len   : Nat
  deriving DecidableEq, Repr

/-- A comparison round in a compare buffer (R195): (layer, slice) and its own digest with validity; `no` is its place among the rounds
of its epoch. -/
structure CmpRound where
  epoch   : Word
  no      : Nat
  seq     : BitVec 16
  group   : Nat
  deadline : Nat
  pairs   : List (Nat × DigEntry)
  deriving DecidableEq, Repr

/-- The figures that DIG_CFG sets for a job on the die (Table 5.11). -/
structure DigCfg where
  job     : BitVec 16 := 0
  seed    : BitVec 128 := 0
  roles   : Tab (BitVec 2) := []
  period  : Nat := 4
  cmpTimeout : Nat := 10000000
  retireLimit : Nat := 60000000000
  scrubRate : Nat := 2000000000
  frozen  : List Frozen := []
  shielded : Bool := false
  deriving DecidableEq, Repr

/-- The stream digest engine (chapter 05). -/
structure DigU where
  ingress : Pipe := {}
  egress  : Pipe := {}
  newer   : Option Epoch := none
  older   : Option Epoch := none
  /-- retire count of the older epoch, and the TB since when it is HELD (R179, R182) -/
  retire  : Nat := 0
  heldSince : Nat := 0
  overdue : Bool := false
  /-- the job's figures in force, and those that wait for the next OPEN because they change the seed (R202) -/
  cfg     : DigCfg := {}
  next    : Option DigCfg := none
  /-- epochs opened since both were last freed (R181, R183) -/
  opened  : List Word := []
  checkpoint : Option Word := none
  /-- frozen references by layer × 64 + slice (R190) -/
  frozenRef : Tab DigEntry := []
  seals   : Tab Seal := []
  buf0    : Option CmpRound := none
  buf1    : Option CmpRound := none
  links   : List LinkStat := List.replicate 8 {}
  stale   : Nat := 0
  unopened : Nat := 0
  proto   : Nat := 0
  invalid : Nat := 0
  tableFull : Nat := 0
  odd     : Nat := 0
  split   : Nat := 0
  broken  : Nat := 0
  uncmp   : Nat := 0
  /-- (layer, slice) pairs counted uncompared (Table 5.9), DIG_OVERRUN outcomes, and the replica's consecutive matches (Table 5.10) -/
  uncmpPairs : Nat := 0
  overruns : Nat := 0
  matchRun : Nat := 0
  checked : Nat := 0
  unchecked : Nat := 0
  matched : Nat := 0
  scrubFail : Nat := 0
  scrubUnchecked : Nat := 0
  dbgK0   : DWord := 0
  dbgK1   : DWord := 0
  /-- DG_SV, DG_SOK, DG_SID -/
  sv      : Bool := false
  sok     : Bool := false
  sid     : BitVec 10 := 0
  deriving DecidableEq, Repr

/-- An XA640 value (R206): accumulator A, special counts and the flags of Table 6.1 other than XA_OVF. -/
structure Xa where
  a       : BitVec 704 := 0
  nans    : Nat := 0
  pinfs   : Nat := 0
  ninfs   : Nat := 0
  range   : Bool := false
  part    : Bool := false
  incomplete : Bool := false
  deriving DecidableEq, Repr

/-- A DIGEST_COMPARE set (R218): entries (D_0, D_1, voters, shadows) in ascending order, or overflow. -/
structure DigSet where
  pair    : Nat := 0
  ovf     : Bool := false
  entries : List (Nat × Nat × Nat × Nat) := []
  deriving DecidableEq, Repr

/-- One element of a reduction vector (Table 6.4). -/
inductive Elem where
  | int (v : BitVec 64)
  | xa (x : Xa)
  | bin (n : Nat)
  | set (d : DigSet)
  deriving DecidableEq, Repr

/-- Why a round is open, and where its result goes. -/
inductive RoundUse where
  | telemetry (figure : Nat)
  | xsReduce (pend : Nat) (dest : Nat)
  | norm (pend : Nat) (epoch : Word)
  | compare (epoch : Word)
  | egressCompare (epoch : Word) (rep : Nat)
  | screen | confirm | raises | mask
  | passing
  deriving DecidableEq, Repr

/-- A packet that a node has accepted of a round: its sender, FIRST and number of elements, the tray positions covered, and what it brings
when its sender's vector is whole. -/
structure RoundRx where
  src   : Nat
  first : Nat
  nel   : Nat
  /-- length of the sender's vector -/
  total : Nat
  cover : List Nat
  elems : List Elem := []
  contrib : Nat := 0
  incomplete : Bool := false
  carried : Bool := false
  coarse  : Bool := false
  deriving DecidableEq, Repr

/-- A reduction round at one level of this node (R220–R231): the member itself, its tray, a combiner, the root. -/
structure Round where
  op       : BitVec 4
  geom     : Word := 0
  total    : Nat
  window   : Nat := 0
  use      : RoundUse
  opened   : Nat
  /-- what this node itself puts in or carries, by element index; at a member, the result's elements as they come -/
  acc      : Tab Elem := []
  received : List RoundRx := []
  contrib  : Nat := 0
  /-- dies or tray positions expected (R223) -/
  expected : List Nat := []
  incomplete : Bool := false
  carried  : Bool := false
  coarse   : Bool := false
  /-- sent upward, or the result formed -/
  sent     : Bool := false
  /-- combiners declared failed (R224) -/
  failed   : List Nat := []
  /-- the round's result has arrived at, or been formed by, this node -/
  done     : Bool := false
  /-- a REDIRECT has asked this tray to send to the root directly -/
  direct   : Bool := false
  /-- traffic class of its packets (R240) -/
  tc       : BitVec 2 := 2
  /-- TB from which this level's wait for its inputs counts (R230); a REDIRECT restarts the root's -/
  timer    : Nat := 0
  /-- the group when the round opened at this node (R223), and the span in force in its window (R233) -/
  grp      : Option Group := none
  span     : Nat := 0
  /-- a coarsened level keeps what it gathered until its span ends (R235) -/
  kept     : Bool := false
  /-- the accumulator context that a command request in progress holds (R215, Table 6.11) -/
  ctx      : Option Nat := none
  deriving DecidableEq, Repr

/-- A NORM_REQ waiting for its epoch to be final (R238). -/
structure NormWait where
  group : Nat
  epoch : Word
  pend  : Nat
  deriving DecidableEq, Repr

/-- What a level carries into its next contribution (R228, R235). -/
structure Carry where
  elems   : List Elem := []
  contrib : Nat := 0
  incomplete : Bool := false
  carried : Bool := false
  deriving DecidableEq, Repr

/-- The exact-sum unit and the reduction fabric (chapter 06, Table 6.10). -/
structure XsU where
  /-- accumulator contexts that hold something, by lane × 16 + context: four lanes of 16 contexts (R214) -/
  lanes   : Tab Xa := []
  /-- lanes that accepted a beat in the cycle in progress, and in the last one (Table 6.10) -/
  laneNow : BitVec 4 := 0
  laneLast : BitVec 4 := 0
  /-- command requests that wait for the lanes or for a context: group and SEQ of their rounds, at most 8 (R215) -/
  queue   : List (Nat × Nat) := []
  /-- the raw export of the last XA640 results complete here (R212) -/
  rawExport : List Byte := []
  held0   : Bool := false
  held1   : Bool := false
  beats   : Nat := 0
  done    : Nat := 0
  incomplete : Nat := 0
  late    : Nat := 0
  carried : Nat := 0
  dup     : Nat := 0
  bad     : Nat := 0
  range   : Nat := 0
  ovf     : Nat := 0
  skipped : Nat := 0
  /-- span exponent c, windows since the last change of span, idle windows in a row, current load (R232–R236) -/
  span    : Nat := 0
  sinceSpan : Nat := 4
  idleRun : Nat := 0
  load    : Nat := 0
  /-- load last reported from above and from below, and the highest reported from below in this window (R233) -/
  aboveLoad : Option Nat := none
  belowLoad : Option Nat := none
  belowNow : Option Nat := none
  highAll : Bool := true
  lowAll  : Bool := true
  /-- what is carried into the next window (R228), by level × 2^32 + figure, and what a coarsened level keeps (R235), at 2^20 more -/
  carry   : Tab Carry := []
  /-- span exponent last reported by each sender below, and windows for which this level does not judge itself after a change (R236) -/
  belowSpan : Tab Nat := []
  judgeHold : Nat := 0
  memberTimeout : Nat := 100000
  resultTimeout : Nat := 1000000
  rounds  : Tab Round := []
  norms   : List NormWait := []
  deriving DecidableEq, Repr

end Sys2Proof.Machine
end

