-- ==== Sys2Proof/Machine/StateHost.lean ====
section
/-!
DEFINITION. Plain data of the command interpreter, the protection setup, the DMA engine, the memory port, the trace unit
and the Nidja compressors (chapters 12, 13, 14, 17 of the spec).
-/
namespace Sys2Proof.Machine

/-- A status reply or notice (Table 12.2). -/
structure Reply where
  notice : Bool := false
  opcode : Byte
  cseq   : Word
  status : BitVec 16
  domain : BitVec 2
  detail : Nat
  tb     : DWord
  result : List Word
  deriving DecidableEq, Repr

/-- A register window channel (Table 12.4, R477, R624). -/
structure Channel where
  enabled : Bool := false
  domain  : BitVec 2 := 0
  job     : BitVec 16 := 0
  follow  : Bool := false
  /-- a packet that a doorbell has submitted and that is still to be copied out: CBUF_FREE is 0 -/
  submitted : Option (List Byte) := none
  cbuf    : List (Nat × Byte) := []
  /-- reply in the reply buffer, and those waiting behind it -/
  rbuf    : Option Reply := none
  waiting : List Reply := []
  event   : BitVec 3 := 0
  /-- event bits set in the cycle in progress (R10) -/
  fresh   : BitVec 3 := 0
  irqen   : BitVec 4 := 0
  deriving DecidableEq, Repr

/-- Sequence state of a requester (R461): H, the CSEQ consumed in H − 15 … H with their replies (none while executing). -/
structure SeqState where
  h       : Word := 0
  stored  : List (Word × Option Reply) := []
  deriving DecidableEq, Repr

/-- A command in progress (R464). -/
structure Pend where
  id     : Nat
  opcode : Byte
  req    : Requester
  cseq   : Word
  domain : BitVec 2
  job    : Option (BitVec 16)
  /-- TB at which it times out, if it does -/
  due    : Option Nat := none
  deriving DecidableEq, Repr

/-- A command that waits because ORDER is set (R465). -/
structure Held where
  opcode : Byte
  cmd    : Cmd
  deriving DecidableEq, Repr

/-- A management key slot (R431–R435). -/
structure KeySlot where
  key    : BitVec 128
  domain : BitVec 2
  job    : BitVec 16
  h      : DWord := 0
  mask   : BitVec 64 := 0
  txSeq  : DWord := 1
  deriving DecidableEq, Repr

/-- A relay in progress (R469, R470). -/
structure Relay where
  rid    : BitVec 24
  die    : Nat
  req    : Requester
  opcode : Byte
  cseq   : Word
  domain : BitVec 2
  due    : Nat
  deriving DecidableEq, Repr

/-- The command interpreter (chapter 12). -/
structure CmdU where
  chans   : List Channel := List.replicate 4 {}
  /-- sequence states: channels 0–3, key slots 16–23, relay origins 32–43 -/
  seqs    : Tab SeqState := []
  pends   : List Pend := []
  nextId  : Nat := 0
  held    : List Held := []
  keys    : Tab KeySlot := []
  relays  : List Relay := []
  rid     : BitVec 24 := 0
  relayTimeout : Nat := 10000000
  notice  : Word := 0
  lateReplies : Nat := 0
  deriving DecidableEq, Repr

/-- The protection setup (Table 17.6). -/
structure Prot where
  locked  : Bool := false
  auto    : Bool := false
  ch      : List DWord := [0, 0, 0, 0]
  bwLocked : Nat := 0
  refused : Nat := 0
  ignored : Nat := 0
  deriving DecidableEq, Repr

/-- The HUB interrupt registers (Table 17.4) and the port's half hold (R609). -/
structure HubRegs where
  irqstat : BitVec 10 := 0
  irqen   : BitVec 10 := 0
  /-- HUB_IRQSTAT bits set in the cycle in progress (R10) -/
  irqFresh : BitVec 10 := 0
  /-- registers that a command has written in the cycle in progress; direct writes of it: unit, offset, value (R613) -/
  cmdWrote : List (Nat × Nat) := []
  portWrote : List (Nat × Nat × DWord) := []
  half    : Option (BitVec 20 × Word) := none
  lastRead : DWord := 0
  deriving DecidableEq, Repr

/-- Client of a memory access (Table 14.5). -/
inductive Client where
  | fill (entity : Nat) | writeback (entity : Nat) (tries : Nat) | audit (unit : Nat)
  /-- a line of channel `ch`'s descriptor at offset `off`, its completion record, a descriptor's fetch, its BAD mark -/
  | dmaRead (ch off : Nat) | dmaWrite (ch off : Nat) | dmaRecord (ch : Nat) (irq : Bool) | dmaFetch (ch : Nat) | dmaBad (ch : Nat)
  | migration
  deriving DecidableEq, Repr

/-- An outstanding request (R515). A tag whose request timed out stays in use until its late answer (R518). -/
structure MemReq where
  line    : Nat
  write   : Bool
  client  : Client
  range   : Nat
  deadline : Nat
  timedOut : Bool := false
  /-- byte address, and data to be written from there on -/
  addr    : Nat
  data    : List Byte := []
  deriving DecidableEq, Repr

/-- An access that waits for a tag, for an earlier access to its line, or for clients within their budgets (R515, R517, R526). -/
structure MemWait where
  addr   : Nat
  write  : Bool
  client : Client
  data   : List Byte := []
  /-- bytes that count against the client's budget -/
  cost   : Nat := 64
  deriving DecidableEq, Repr

/-- A range as applied, with its migration state and conflict figures (R524–R532). -/
structure MapRange where
  r       : Range
  old     : Option (List (BitVec 58)) := none
  pointer : Nat := 0
  migStart : Nat := 0
  busy    : List Nat := []
  since   : Option Nat := none
  lastRekey : Option Nat := none
  /-- a re-key is decided and waits for its safe point: RSEQ of its act -/
  wanted  : Option Word := none
  act     : Word := 0
  deriving DecidableEq, Repr

/-- The memory port (Table 14.10). Outstanding requests keyed attachment × 256 + tag. -/
structure MemU where
  ranges  : List MapRange := []
  out     : Tab MemReq := []
  waitq   : List MemWait := []
  /-- accesses that completed as errors without being issued, their clients still to be told -/
  errq    : List MemWait := []
  failed  : BitVec 32 := 0
  /-- MEM_FAILED bits set in the cycle in progress (R10) -/
  failFresh : BitVec 32 := 0
  errTb   : Tab (List Nat) := []
  /-- errors, timeouts and changes to FAILED of each attachment (R519) -/
  errCount : Tab Nat := []
  memTimeout : Nat := 100000
  migrating : Option Nat := none
  paused  : Option Nat := none
  /-- a group is being migrated; its range's re-key act -/
  group   : Bool := false
  rekeys  : Nat := 0
  recommend : Nat := 0
  timeouts : Nat := 0
  rerr    : Nat := 0
  berr    : Nat := 0
  decode  : Nat := 0
  skewMilli : Nat := 1500
  rekeyHold : Nat := 3600000000000
  migRate : Nat := 4000000000
  /-- until when each class's budget is used up by what it has issued, in ps of TB (R526) -/
  paid    : Tab Nat := []
  deriving DecidableEq, Repr

/-- A descriptor being worked on (Table 14.6). -/
structure Desc where
  src  : DWord
  dst  : DWord
  len  : Nat
  tag  : BitVec 16
  chain : Bool
  irq  : Bool
  barrier : Bool
  align : Bool
  user : DWord
  deriving DecidableEq, Repr

/-- A DMA channel (R533–R544, Table 14.10). state 0 IDLE, 1 RUN, 2 STOPPED, 3 HALTED, 4 CQWAIT. -/
structure DmaCh where
  enable  : Bool := false
  prio    : BitVec 2 := 0
  reqen   : Bool := false
  reqline : BitVec 6 := 0
  rsize   : Nat := 0
  cqsize  : Nat := 0
  ring    : DWord := 0
  tail    : Nat := 0
  head    : Nat := 0
  cq      : DWord := 0
  cqhead  : Nat := 0
  cqtail  : Nat := 0
  pend    : Nat := 0
  state   : BitVec 4 := 0
  last    : BitVec 4 := 0
  descs   : Nat := 0
  moved   : Nat := 0
  cur     : Option Desc := none
  fail    : Option Nat := none
  /-- the descriptor at HEAD is being read; its read has failed -/
  fetching : Bool := false
  fetchBad : Bool := false
  stopReq : Bool := false
  burst   : Bool := false
  /-- offset of the next line to issue -/
  issued  : Nat := 0
  deriving DecidableEq, Repr

/-- The DMA engine (Table 14.10). -/
structure DmaU where
  ch      : Tab DmaCh := []
  irqstat : BitVec 64 := 0
  /-- DMA_IRQSTAT bits set in the cycle in progress (R10) -/
  irqFresh : BitVec 64 := 0
  align   : Nat := 0
  buserr  : Nat := 0
  fetch   : Nat := 0
  lostreq : Nat := 0
  /-- the channel whose lines are being issued, and the one before it (R538) -/
  turn    : Option Nat := none
  lastTurn : Nat := 0
  deriving DecidableEq, Repr

/-- A Nidja block (Table 13.11). -/
structure NBlock where
  bseq  : Nat
  data  : List Byte
  trig  : Bool := false
  fin   : Bool := false
  /-- the memory sink completes its line with zero bytes after this block (R497) -/
  flush : Bool := false
  /-- compressed form, once a compressor has finished it; dropped at the sink -/
  image : Option (List Byte) := none
  deriving DecidableEq, Repr

/-- A circular buffer sink: blocks held with the capture offset of each (R497). -/
structure Sink where
  blocks : List (Nat × List Byte) := []
  frozen : Bool := false
  deriving DecidableEq, Repr

/-- Trace settings (Table 13.16). -/
structure TrcSet where
  sink    : Nat := 0
  cores   : List Nat := []
  ctl     : Bool := false
  marks   : BitVec 6 := 0x3F
  stretchMin : Nat := 16
  seif    : Nat := 4
  flush   : Nat := 100000
  memBase : Nat := 0
  memSize : Nat := 0
  dst     : Option Node := none
  reserve : Option Nat := none
  post    : Nat := 262144
  cond    : BitVec 7 := 3
  matchKind : Nat := 0
  matchMask : Word := 0
  matchVal : Word := 0
  deriving DecidableEq, Repr

/-- The trace unit (chapter 13, Table 13.17). -/
structure Trc where
  set     : TrcSet := {}
  /-- settings that take effect at the next block boundary (R511) -/
  next    : Option TrcSet := none
  /-- sink of the capture in progress: 0 none, 1 PORT, 2 MEMORY, 3 ERG, 4 PHOTEN -/
  sink    : Nat := 0
  capturing : Bool := false
  /-- bytes of the block in progress, its first packet's TB, TRIG mark -/
  cur     : List Byte := []
  /-- timed packets in the block in progress -/
  curPkts : Nat := 0
  curTb   : Nat := 0
  curTrig : Bool := false
  /-- time of the last timed packet of the stream, and cores with an ABS HOST packet in the block -/
  lastTb  : Nat := 0
  absDone : List Nat := []
  lastCyc : Tab Nat := []
  soff    : Nat := 0
  sseq    : Nat := 0
  bseq    : Nat := 0
  /-- a SEIF is due before the next packet -/
  seifDue : Bool := true
  trig    : Bool := false
  /-- blocks waiting for a compressor, in one, and compressed, in BSEQ order -/
  fifo    : List NBlock := []
  busy    : List NBlock := []
  ready   : List NBlock := []
  erg     : Sink := {}
  mem     : Sink := {}
  armed   : Bool := false
  posting : Bool := false
  posted  : Nat := 0
  trigPos : DWord := 0xFFFFFFFFFFFFFFFF
  trigBseq : Nat := 0
  reserveFrom : Nat := 0
  wptr    : Nat := 0
  oldest  : Nat := 0
  lostCell : Nat := 0
  lostMerge : Nat := 0
  lostSink : Nat := 0
  ignored : Nat := 0
  mergeDue : Nat := 0
  sinkDue : Nat := 0
  /-- bytes of the memory sink's line in progress -/
  memPart : List Byte := []
  sinkBlocks : Nat := 0
  frames  : Nat := 0
  fseq    : Nat := 0
  /-- stream bytes waiting for the port, frames sent (header, stream, trailer words) -/
  portq   : List Byte := []
  rowsSent : Nat := 0
  lastFrame : List Byte := []
  rdy     : Bool := true
  trigOut : Nat := 0
  /-- trigger conditions that have arisen in this cycle and fire at its end; a trigger has fired in this cycle (R502) -/
  conds   : List Nat := []
  fired   : Bool := false
  deriving DecidableEq, Repr

/-- The Nidja compressors (Table 13.17). -/
structure Nid where
  level   : Nat := 1
  verify  : Bool := false
  inB     : Nat := 0
  outB    : Nat := 0
  stored  : Nat := 0
  vfail   : Nat := 0
  lastErr : BitVec 4 := 0
  deriving DecidableEq, Repr

end Sys2Proof.Machine
end

