-- ==== Sys2Proof/Machine/StateNet.lean ====
section
/-!
DEFINITION. Plain data of the Photen port, the sideband network, broadcasts, job membership and the management port
(chapters 10, 11 of the spec).
-/
namespace Sys2Proof.Machine

/-- A queued Photen packet (Table 10.2): its header's choices and its body. -/
structure Packet where
  type : BitVec 4
  tc   : BitVec 2
  dst  : Node
  flow : BitVec 16 := 0
  soff : BitVec 24 := 0
  tb   : Nat
  body : List Byte
  deriving DecidableEq, Repr

/-- Receive record of one sender and class (R376). -/
structure RxSeq where
  h    : BitVec 16
  mask : BitVec 64
  tb   : Nat
  deriving DecidableEq, Repr

/-- The Photen port (Table 10.9). Bucket in units of 2^-10 byte. -/
structure Fab where
  outq    : List Packet := []
  sent    : List (List Byte) := []
  bucket  : Nat := 16777216
  filled  : Nat := 0
  mseq    : List (BitVec 16) := [0, 0, 0, 0]
  fresh   : List Nat := [64, 64, 64, 64]
  rx      : Tab RxSeq := []
  tx      : Nat := 0
  accepted : Nat := 0
  crc     : Nat := 0
  bad     : Nat := 0
  dup     : Nat := 0
  red     : Nat := 0
  excluded : Nat := 0
  phases  : Nat := 0
  /-- errors charged to fabric link ports 0–63 -/
  charged : List Nat := List.replicate 64 0
  /-- packets discarded in DROWSE (R381) -/
  drowse  : Nat := 0
  deriving DecidableEq, Repr

/-- A sideband port (R383–R387, R395). -/
structure Port where
  state   : BitVec 2 := 0
  miswired : Bool := false
  /-- neighbour is dormant (R397) -/
  dormant : Bool := false
  lseq    : BitVec 8 := 0
  rseq    : BitVec 8 := 0
  unacked : List SbFrame := []
  resent  : Nat := 0
  ackDue  : Option Nat := none
  queue   : List SbFrame := []
  t1      : Option Nat := none
  delays  : List Int := []
  /-- the frame put on the line last -/
  last    : Option SbFrame := none
  /-- the port sends the idles that wake its dormant neighbour (R397) -/
  idles   : Bool := false
  /-- TB of the last PDELAY_REQ -/
  lastPd  : Nat := 0
  deriving DecidableEq, Repr

/-- A numbered verdict sent to a die and not yet echoed (R394). -/
structure SentVerdict where
  msg   : VerdictMsg
  tb    : Nat
  deriving DecidableEq, Repr

/-- A member die as its tray-role block sees it. -/
structure Member where
  last    : Nat := 0
  state   : BitVec 3 := 0
  quality : BitVec 2 := 0
  playa   : BitVec 3 := 0
  ports   : List (BitVec 2) := []
  offset  : Word := 0
  waiting : Word := 0
  lost    : Bool := false
  /-- tray-role port and route of each path (R388) -/
  primary : Option (BitVec 4 × Route) := none
  alternate : Option (BitVec 4 × Route) := none
  children : List (BitVec 2) := []
  vseq    : Word := 0
  sent    : List SentVerdict := []
  deriving DecidableEq, Repr

/-- A message being reassembled (R384). -/
structure Reasm where
  src   : Nat
  mseq  : BitVec 16
  first : Nat
  bytes : List Byte
  deriving DecidableEq, Repr

/-- The sideband unit (R382–R397, Table 10.9). -/
structure Sb where
  ports   : List Port := List.replicate 16 {}
  /-- routes as the tray-role block sent them, with its port (R391) -/
  primary : Option (BitVec 4 × Route) := none
  alternate : Option (BitVec 4 × Route) := none
  children : List (BitVec 2) := []
  mseq    : BitVec 16 := 0
  flooded : List (Nat × BitVec 16) := []
  reasm   : List Reasm := []
  /-- heartbeats sent, and TB of the last one -/
  beat    : Nat := 0
  lastBeat : Nat := 0
  beatPeriod : Nat := 100000
  pdelay  : Nat := 10000000
  trayLost : Bool := false
  /-- in PLAYA without a mesh map, the originator of the first SYNC (R591) -/
  trayNode : Option Node := none
  /-- TB of the last SYNC received, in die role, or sent -/
  lastSync : Nat := 0
  /-- sequence number of the verdict received last, and all those applied (R394) -/
  vseq    : Word := 0
  lastVerdict : List Word := []
  members : Tab Member := []
  txFrames : Nat := 0
  rxFrames : Nat := 0
  code    : Nat := 0
  crc     : Nat := 0
  retry   : Nat := 0
  downs   : Nat := 0
  trayLosses : Nat := 0
  dieLosses : Nat := 0
  undeliv : Nat := 0
  notTray : Nat := 0
  /-- TB of a change of port states that asks for a recomputation of the routes (R391) -/
  changed : Option Nat := none
  deriving DecidableEq, Repr

/-- Where the PREPARE of a broadcast came from: the command at the root, a block above over Photen, or a die or tray-role block over the
sideband, with the route back to it (R399). -/
inductive Back where
  | root
  | photen (node : Node)
  | sb (route : Route)
  deriving DecidableEq, Repr

/-- A broadcast held by this block, and what it has heard (R398–R407). Trays are tray numbers, dies are die numbers. -/
structure Bcast where
  group   : BitVec 16
  bid     : BitVec 16
  window  : Word
  cmd     : List Byte
  back    : Back
  /-- this die is a member of the group; the result of its check -/
  member  : Bool := false
  status  : BitVec 16 := 0
  /-- 0 prepare phase, 1 answered, 2 commit or abort phase, 3 done -/
  phase   : Nat := 0
  abort   : Bool := false
  /-- part within the tray: 0 tree, 1 alternates, 2 ended; its deadline; dies still awaited -/
  tree    : Nat := 0
  treeDue : Nat := 0
  awaitD  : List Nat := []
  /-- part above the tray: trays still awaited, the deadline, whether the root has sent to a missing combiner's trays -/
  awaitT  : List Nat := []
  upDue   : Nat := 0
  upTry   : Bool := false
  ackD    : List Nat := []
  refD    : List Nat := []
  ackT    : List Nat := []
  refT    : List Nat := []
  /-- trays whose members have all answered well; members covered and refused in the answers of other trays -/
  fullT   : List Nat := []
  covered : Nat := 0
  refused : Nat := 0
  /-- members prepared, as the root counted them in the prepare phase -/
  prepared : Nat := 0
  /-- dies and trays excluded -/
  exD     : List Nat := []
  exT     : List Nat := []
  pend    : Option Nat := none
  dest    : Nat := 0
  /-- TB of receipt (R405) -/
  hold    : Nat := 0
  deriving DecidableEq, Repr

/-- A broadcast remembered for its group (R399, R407): the answers this block gave in the two phases. -/
structure BcastSeen where
  group  : BitVec 16
  bid    : BitVec 16
  prep   : Option (List Byte) := none
  commit : Option (List Byte) := none
  deriving DecidableEq, Repr

/-- Broadcast unit: broadcasts held, those remembered, oldest first, and the BID of each group's last broadcast at its root. -/
structure BcastU where
  held    : List Bcast := []
  seen    : List BcastSeen := []
  last    : Tab (BitVec 16) := []
  tack    : Nat := 50000
  hold    : Nat := 100000000
  lateAcks : Nat := 0
  /-- commands to be applied at a window's end: window and packet -/
  apply   : List (Word × List Byte) := []
  deriving DecidableEq, Repr

/-- A die of a job (Table 12.13). -/
structure JobDie where
  die    : Nat
  rep    : Byte
  shadow : Bool
  /-- its replica is removed from voting by an EXPEL (Table 8.6) -/
  out    : Bool := false
  deriving DecidableEq, Repr

/-- A job's membership (R408). -/
structure Job where
  group  : BitVec 16
  root   : Nat
  combiners : List Nat
  dies   : List JobDie
  deriving DecidableEq, Repr

/-- A membership change that waits for its window end (R409). -/
inductive JobChange where
  | set (j : Job)
  | add (dies : List JobDie)
  | remove (dies : List Nat)
  deriving DecidableEq, Repr

/-- Job membership in force, and the changes that wait: job, window whose end it falls at (R408–R410). -/
structure Jobs where
  table   : Tab Job := []
  waiting : List (Nat × BitVec 16 × JobChange) := []
  deriving DecidableEq, Repr

/-- An egress frame of the management port: its length and its payload. -/
structure Frame where
  bytes : Nat
  body  : List Byte := []
  deriving DecidableEq, Repr

/-- A token bucket in units of 2^-10 byte; may be negative (R447). -/
structure Bucket where
  level  : Int := 0
  filled : Nat := 0
  deriving DecidableEq, Repr

/-- One segment of the management port (Tables 11.2, 11.3). state 0 DISABLED, 1 DOWN, 2 UP. -/
structure Segment where
  cfg     : DWord := 0x81480002008FF
  state   : BitVec 2 := 0
  link    : Bool := false
  lastFrame : Option Nat := none
  upSince : Nat := 0
  conflict : Bool := false
  holdoff : Option Nat := none
  dad     : Option Nat := none
  plca    : Bool := false
  lastBeacon : Nat := 0
  restart : Bool := false
  collisions : List Nat := []
  attempts : Nat := 0
  queues  : List (List Frame) := [[], [], [], []]
  /-- the frame offered to the MII: class, frame, and whether its overrun is counted already (R442, R445) -/
  offered : Option (Nat × Frame × Bool) := none
  buckets : List Bucket := List.replicate 4 {}
  silence : Nat := 1000000000
  rxLat   : Nat := 0
  txLat   : Nat := 0
  lastAuthFail : Option Nat := none
  delay   : Int := 0
  pdelayT1 : Option Nat := none
  /-- TB of the last Pdelay_Req -/
  lastPd  : Nat := 0
  sentFrames : Nat := 0
  deriving DecidableEq, Repr

/-- A gate list (R443): GATES and INTERVAL per entry, BASE, CYCLE. -/
structure Gates where
  entries : List (BitVec 4 × Nat) := []
  base    : Nat := 0
  cycle   : Nat := 1000000
  deriving DecidableEq, Repr

/-- An ingress meter's two buckets in units of 2^-10 byte (R449, R450). -/
structure Meter where
  cfg    : DWord := 0
  c      : Nat := 0
  p      : Nat := 0
  filled : Nat := 0
  deriving DecidableEq, Repr

/-- The selected gPTP master (R438, R439). -/
structure Master where
  seg      : Bool
  vector   : Nat
  identity : BitVec 80
  interval : Nat
  last     : Nat
  deriving DecidableEq, Repr

/-- The management port (chapter 11, Table 11.8). -/
structure Mgt where
  a       : Segment := {}
  b       : Segment := {}
  active  : Bool := false
  portcfg : DWord := 0xBCC00000
  gclCtrl : BitVec 7 := 0
  gclBase : DWord := 0
  gclCycle : Word := 1000000
  gclE    : List DWord := List.replicate 64 0
  oper    : Gates := {}
  pending : Option (Gates × Nat) := none
  gateIdx : Nat := 0
  shapers : List DWord := List.replicate 4 0x0000FFFF00000000
  meters  : List Meter := List.replicate 4 {}
  /-- frames in the ingress buffer with their segment (R452) -/
  ingress : List (Bool × EthFrame) := []
  master  : Option Master := none
  announces : List Master := []
  accept  : Nat := 0
  stranger : Nat := 0
  fcs     : Nat := 0
  size    : Nat := 0
  metered : Nat := 0
  /-- gPTP frames accepted although yellow or red (Table 11.7) -/
  coloured : Nat := 0
  full    : Nat := 0
  authfail : Nat := 0
  replay  : Nat := 0
  ok      : Nat := 0
  overrun : Nat := 0
  toolong : Nat := 0
  excess  : Nat := 0
  plcacol : Nat := 0
  switches : Nat := 0
  beacon  : Nat := 0
  pdelayBad : Nat := 0
  annto   : Nat := 0
  dropped : Nat := 0
  pdelayInt : Nat := 1000000000
  deriving DecidableEq, Repr

end Sys2Proof.Machine
end

