-- ==== Sys2Proof/Machine/StateScore.lean ====
section
/-!
DEFINITION. Plain data of the ensemble engine, the anomaly cascade and verdict unit, and the ageing unit
(chapters 07, 08, 09 of the spec).
-/
namespace Sys2Proof.Machine

/-- An output of an ensemble (Table 7.7). -/
structure EnsOut where
  bias  : BitVec 64
  xform : BitVec 2
  a     : Word
  b     : Word
  deriving DecidableEq, Repr

/-- One loaded generation of an ensemble slot (Tables 7.6, 7.7; R247, R248, R272). -/
structure Gen where
  num      : Word
  kind     : BitVec 4 := 0
  tenant   : Bool := false
  shard    : Bool := false
  levels   : Nat
  trees    : Nat
  total    : Nat
  treeBase : Nat
  relmask  : Word
  scale    : Nat
  outs     : List EnsOut
  table    : List Word
  nodes    : List (List DWord)
  sets     : List DWord
  pages    : Nat
  /-- pages assigned to the level regions 0–15 and to the category-set region, in the order of assignment (R247) -/
  regions  : List (List Nat) := []
  /-- uncorrectable words: (level, index), level 16 for a category set -/
  bad      : List (Nat × Nat) := []
  damaged  : Bool := false
  deriving DecidableEq, Repr

/-- A pending swap (R273–R276): activation, or rollback and whether by command; at a window's end or the next boundary. -/
structure Swap where
  rollback : Bool
  commanded : Bool
  window   : Option Word
  /-- RSEQ of the record of the autonomous act that asked for it -/
  act      : Option Word := none
  deriving DecidableEq, Repr

/-- An ensemble slot (R272). -/
structure Slot where
  active   : Option Gen := none
  previous : Option Gen := none
  staged   : Option Gen := none
  swap     : Option Swap := none
  job      : Option (BitVec 16) := none
  suspect  : Bool := false
  /-- passes in a row of generation `hotGen` in which a page's losses were over the re-layout limit, by page; generation and TB of
  the requests of the last hour (R281) -/
  hot      : Tab Nat := []
  hotGen   : Word := 0
  lastLayout : List (Word × Nat) := []
  deriving DecidableEq, Repr

/-- States of a cached row (R264). -/
inductive RowState where
  | filling | valid | evicting
  deriving DecidableEq, Repr

/-- A feature row: its written words (an unwritten word holds the missing marker), and its cache state (R260–R268). -/
structure Row where
  words  : Tab Word := []
  st     : RowState := .valid
  dirty  : Bool := false
  pins   : Nat := 0
  used   : Nat := 0
  /-- words to be written once the row is filled (R268) -/
  waiting : List (Nat × Word) := []
  /-- a fill waits for the write-back (R267) -/
  refill : Bool := false
  deriving DecidableEq, Repr

/-- A result record (Table 7.9). -/
structure Result where
  tb      : Nat
  entity  : Word
  gen     : Word
  slot    : Nat
  fault   : Bool
  damaged : Bool
  shard   : Bool
  stopped : Bool
  missing : Nat
  visits  : Nat
  s       : List (BitVec 64)
  y       : List Word
  deriving DecidableEq, Repr

/-- What a pass is for (R269). -/
inductive PassUse where
  | full | quick | screen | confirm
  | run (pend : Nat) (dest : Nat) (job : Option (BitVec 16))
  deriving DecidableEq, Repr

/-- A pending pass (R269, R270). -/
structure Pass where
  slot   : Nat
  use    : PassUse
  /-- entities, or tenant rows, still to be scored -/
  todo   : List Word
  /-- the generation that scores the pass (R270, R273) -/
  gen    : Gen
  tb     : Nat
  /-- scan period in force when requested (R291) -/
  period : Nat
  results : List Result := []
  refused : Nat := 0
  /-- number of the pass, for the free counts of its arbitrations (log 1) -/
  seq    : Nat := 0
  /-- visits made so far to each page and each feature bank (R281) -/
  pageVisits : Tab Nat := []
  bankVisits : Tab Nat := []
  deriving DecidableEq, Repr

/-- A sample that waits for its rows: pass, entity, assembly deadline, keys of the rows pinned for it (R265). -/
structure SampleWait where
  pass     : Nat
  ent      : Nat
  deadline : Nat
  pins     : List Nat := []
  deriving DecidableEq, Repr

/-- An ENS_LOAD in progress (R271). -/
structure Load where
  slot   : Nat
  addr   : Nat
  len    : Nat
  pend   : Nat
  job    : Option (BitVec 16)
  /-- the first read's image, once it has passed every check -/
  gen    : Option Gen := none
  crc    : Word := 0
  deriving DecidableEq, Repr

/-- The quota of a job in open-ensemble mode (R277). -/
structure Quota where
  job    : BitVec 16
  arrays : Nat
  pages  : Nat
  rows   : Nat
  slots  : List Nat
  deriving DecidableEq, Repr

/-- The ensemble engine (chapter 07, Table 7.11). -/
structure EnsU where
  slots   : List Slot := List.replicate 16 {}
  rows    : Tab Row := []
  tenant  : Tab Row := []
  /-- rows that exist in the backing store, tray role: entity and row number (R268) -/
  backing : List (Nat × Nat) := []
  quotas  : List Quota := []
  /-- jobs that have ended and hold tenant resources until the next scoring boundary (R280) -/
  releasing : List (BitVec 16) := []
  passes  : List Pass := []
  loads   : List Load := []
  assembly : Nat := 50000
  /-- samples in flight that wait for rows (R265) -/
  waits   : List SampleWait := []
  /-- entities that wait for a row, in the order they came, with the words to be written to it (R266, R268) -/
  roomq   : List (Nat × List (Nat × Word)) := []
  /-- visits and lost arbitrations of each page and each feature bank in the last pass (R281) -/
  pageCount : Tab (Nat × Nat) := []
  bankCount : Tab (Nat × Nat) := []
  /-- re-layout requests counted and not sent (R285) -/
  relayouts : Nat := 0
  /-- passes requested so far -/
  passNo  : Nat := 0
  visits  : Nat := 0
  samples : Nat := 0
  done    : Nat := 0
  overrun : Nat := 0
  skipped : Nat := 0
  bank    : Nat := 0
  page    : Nat := 0
  faults  : Nat := 0
  uncorr  : Nat := 0
  corr    : Nat := 0
  refused : Nat := 0
  fillWaits : Nat := 0
  misses  : Nat := 0
  refusedPass : Nat := 0
  deriving DecidableEq, Repr

/-- A policy row (Table 8.7). -/
structure PolicyRow where
  watch   : Nat := 384
  suspect : Nat := 640
  test    : Nat := 768
  fence   : Nat := 896
  expel   : Nat := 960
  dwellUp : Nat := 3
  dwellDown : Nat := 1000
  hyst    : Nat := 32
  enable  : BitVec 8 := 0xFF
  deriving DecidableEq, Repr

/-- The policy (Tables 8.7, 8.8, 8.9, 8.11, R153). -/
structure Policy where
  rows     : List PolicyRow := List.replicate 12 {}
  pcfg     : Nat := 20000
  quick    : Nat := 5000
  healthOut : Nat := 0
  gate     : Option Nat := none
  probation : Nat := 3600000000000
  floorHold : Nat := 3600000000000
  deferral : Nat := 600000000000
  testHold : Nat := 1000000000
  concurrency : Nat := 32
  periodic : Nat := 86400000000000
  /-- budget and window of the die, engine and tray levels -/
  govern   : List (Nat × Nat) := [(4, 3600000000000), (1, 3600000000000), (8, 86400000000000)]
  spikeCount : Nat := 16
  spikeFrac : Nat := 1311
  spikeSpread : Nat := 4
  promotion : Nat := 64
  missLimit : Nat := 4
  /-- residue floors of rows 1–4 of Table 8.9, verdict codes -/
  floors   : List Nat := [5, 4, 2, 1]
  /-- audit exponents CLEAR, WATCH, SUSPECT, PROBATION, test-overdue (R153) -/
  exponents : List Nat := [16, 12, 6, 4, 4]
  /-- quotas of R277, and a detector table in place of the image's (R293) -/
  quotas   : List Quota := []
  detectors : Option (List Detector) := none
  deriving DecidableEq, Repr

/-- An evidence floor (R316): verdict code, TB of its outcome. -/
structure Floor where
  verdict : Nat
  tb      : Nat
  deriving DecidableEq, Repr

/-- An in-field test due on a core (R319–R326). -/
structure TestDue where
  deadline : Nat
  ident   : Word := 0
  /-- condition: temperature bin and load signature -/
  cond    : Option (Nat × Nat) := none
  running : Option (Word × Nat) := none
  overdue : Bool := false
  /-- RSEQ of the record of its deferral (R23), and whether the deferral is taken -/
  act     : Option Word := none
  defer   : Bool := true
  /-- the raise of the audit rate that its being overdue calls for was superseded (R26) -/
  noRaise : Bool := false
  deriving DecidableEq, Repr

/-- The judgement of one entity (R307–R318). Verdict codes are those of Table 8.5. -/
structure Ent where
  verdict : Nat := 0
  /-- verdict before a TEST -/
  prior   : Nat := 0
  scoreV  : Nat := 0
  h       : Nat := 0
  scored  : Bool := false
  gen     : Word := 0
  slot    : Nat := 0
  /-- consecutive scores that reached WATCH, SUSPECT, TEST, FENCE, EXPEL -/
  up      : List Nat := [0, 0, 0, 0, 0]
  down    : Nat := 0
  /-- scorings since one last reached T_SUSPECT -/
  calm    : Nat := 0
  floors  : List Floor := []
  pendRem : Option Nat := none
  probEnd : Option Nat := none
  /-- TB of the last command that reversed an act (R27) -/
  cmdTb   : Option Nat := none
  /-- TB of the last command that acted on the entity (R26) -/
  lastCmd : Option Nat := none
  clearRun : Nat := 0
  /-- RSEQ of the record of the removal that is pending (R329) -/
  pendAct : Word := 0
  /-- verdict last recorded as a recommendation not to be taken, while the entity's verdict stays (R23) -/
  recd    : Option Nat := none
  unconfirmed : Bool := false
  /-- the raise of the audit rate that the verdict calls for was superseded, or not to be taken again (R26, R27) -/
  noRaise : Bool := false
  /-- TB of the last AUDIT_RATE on the entity (R27), and of the pass that gave the score -/
  rateTb  : Option Nat := none
  scoreTb : Nat := 0
  test    : Option TestDue := none
  /-- verdicts received from the tray, to take effect in order at the next scan boundary (R311, R646): verdict, cause, score,
  generation, slot, floor -/
  received : List (Nat × Nat × Nat × Word × Nat × Nat) := []
  deriving DecidableEq, Repr

/-- A detector channel's figures for one entity (R294–R299), binary32 bits. -/
structure DetState where
  mf    : Word := 0
  ms    : Word := 0
  sp    : Word := 0
  sm    : Word := 0
  up    : Nat := 0
  down  : Nat := 0
  first : Bool := true
  /-- the last sample was infinite: the next finite one restarts the channel (R296) -/
  restart : Bool := false
  hist  : List Nat := []
  p50   : Word := 0xFFFFFFFF
  p99   : Word := 0xFFFFFFFF
  prev  : Nat := 0
  prevTb : Nat := 0
  /-- drift baseline (R301) -/
  base    : Option Word := none
  deriving DecidableEq, Repr

/-- A shadow replica under admission (R335–R339). -/
structure Shadow where
  job    : BitVec 16
  rep    : Byte
  twin   : Byte
  run    : Nat := 0
  misses : Nat := 0
  ready  : Bool := false
  /-- results of its rounds of which one half has come: epoch, whether the egress half, matched or not -/
  halves : List (Word × Bool × Option Bool) := []
  deriving DecidableEq, Repr

/-- A rhizome window in progress (R303–R306). -/
structure Rhizome where
  /-- the window in progress, whose number its rounds carry, and the TB of the boundary that began it -/
  window  : Nat
  boundary : Nat
  /-- step of Table 8.4 that is waited for: 2 exchange, 3 screen, 4 confirm, 5 spike test -/
  step    : Nat := 2
  /-- entities with current exchange words, and positions of the members heard -/
  present : List Nat := []
  heard   : List Nat := []
  /-- results kept for each entity: the screen's, then the confirm's, then those of the home entities that wait for the spike test -/
  results : List Result := []
  gated   : List Nat := []
  unconf  : List Nat := []
  /-- slot of the stage that scored last -/
  slot    : Nat := 0
  /-- changes that wait for the spike test: entity, old and new standing verdict -/
  changes : List (Nat × Nat × Nat) := []
  scored  : Nat := 0
  deriving DecidableEq, Repr

/-- The cascade and verdict unit (chapter 08, Table 17.4). -/
structure Casc where
  policy  : Policy := {}
  next    : Option Policy := none
  ents    : Tab Ent := []
  p       : Nat := 20000
  fastRun : Nat := 0
  detect  : Tab DetState := []
  /-- outcomes charged to an entity other than a core (R19, R103, R201) -/
  outcomes : Tab Nat := []
  shadows : List Shadow := []
  rhizome : Option Rhizome := none
  testSeq : Word := 0
  acts    : Nat := 0
  recommends : Nat := 0
  changes : Nat := 0
  governed : Nat := 0
  rollbacks : Nat := 0
  unscored : Nat := 0
  quickSkipped : Nat := 0
  lastScan : Nat := 0
  lastQuick : Nat := 0
  /-- autonomous acts decided and in effect at the next scoring boundary: RSEQ of their records -/
  actsDue : List Word := []
  window  : Nat := 0
  windowTb : Nat := 0
  /-- splits already reported to the parent, tray role: job, epoch and round (R200) -/
  splits  : List (Nat × Word × Nat) := []
  deriving DecidableEq, Repr

/-- One monitor (Table 9.1, R343, R344). Values in the kind's own resolution unit. -/
structure Monitor where
  failed : Bool := false
  value  : Option Int := none
  /-- TB of the reading (R342) -/
  tb     : Nat := 0
  same   : Nat := 0
  changed : Bool := false
  minimum : Int := 0
  /-- drift at the last reading, path-delay monitors (R344) -/
  drift   : Word := 0xFFFFFFFF
  deriving DecidableEq, Repr

/-- A lifetime bin (Table 9.3). -/
structure Bin where
  residence : Nat := 0
  residue   : Nat := 0
  audit     : Nat := 0
  digest    : Nat := 0
  tfail     : Nat := 0
  tpass     : Nat := 0
  other     : Nat := 0
  deriving DecidableEq, Repr

/-- A margin plan (Table 9.5). -/
structure Plan where
  seq    : BitVec 16 := 0
  cause  : BitVec 3 := 0
  offset : Int := 0
  fcap   : Nat := 0
  smin   : Int := 0
  tb     : Nat := 0
  deriving DecidableEq, Repr

/-- The ageing unit's figures for one region or zone. -/
structure Zone where
  temps   : List Monitor := List.replicate 8 {}
  droops  : List Monitor := List.replicate 8 {}
  paths   : List Monitor := List.replicate 8 {}
  vmin    : Option Int := none
  dips    : Nat := 0
  /-- the lowest supply of the last completed window, and the worst slack of the last completed plan interval (Table 9.6) -/
  vminLast : Option Int := none
  sminLast : Option Int := none
  /-- a droop event began in the last completed scan period, and in the present one -/
  droopBit : Bool := false
  droopNow : Bool := false
  busyBand : Nat := 0
  smin    : Option Int := none
  highFor : Nat := 0
  drift   : Word := 0xFFFFFFFF
  rate    : Word := 0xFFFFFFFF
  hourly  : List Word := []
  current : Plan := {}
  sent    : Option Plan := none
  manual  : Bool := false
  /-- TB of the last plan interval's end; a probe has failed at step 0 since (R365) -/
  lastPlan : Nat := 0
  probeFail : Bool := false
  /-- the droop threshold, in mV below the planned voltage (Table 9.1) -/
  droopBelow : Int := 50
  deriving DecidableEq, Repr

/-- A margin probe that runs (R362–R366). -/
structure Probe where
  core   : Nat
  seq    : Word
  notice : Nat
  /-- the core's planned frequency in MHz: step 0 -/
  base   : Nat
  failedAt : Option Nat := none
  deriving DecidableEq, Repr

/-- The ageing unit (chapter 09, Table 9.6). Planes are sparse tables of bins; plane 8 is the die. -/
structure AgeU where
  zones   : List Zone := List.replicate 8 {}
  planes  : List (Tab Bin) := List.replicate 9 []
  /-- microseconds below a millisecond, per plane (R350) -/
  remUs   : List Nat := List.replicate 9 0
  changed : List (Nat × Nat) := []
  mode    : BitVec 2 := 1
  sLow    : Int := 40
  sHigh   : Int := 120
  step    : Int := 5
  offMin  : Int := -25
  offMax  : Int := 75
  fFloor  : Nat := 800
  interval : Nat := 10000000000
  ackLimit : Nat := 100000000
  persist : Nat := 3600000000000
  lastPersist : Nat := 0
  cMin    : Nat := 3
  kConc   : Nat := 8
  lastConc : Nat := 0
  probeConc : Nat := 2
  probeInt : Nat := 604800000000000
  dwell   : Nat := 5000000
  probes  : List Probe := []
  planSeq : BitVec 16 := 0
  /-- sequence number of the newest plan sent, and the plans that wait for an ACK with their limits (R359) -/
  sentSeq : BitVec 16 := 0
  ackDue  : List (BitVec 16 × Nat) := []
  /-- end of the last interval of residence counted (R350) -/
  lastTick : Nat := 0
  nvgen   : Word := 0
  nvLost  : Bool := false
  /-- condition tests asked: core, cell, TB (R354) -/
  asked   : List (Nat × Nat × Nat) := []
  /-- outcomes by core and cell with their TB, for R354 -/
  evidence : List (Nat × Nat × Nat) := []
  cT      : Word := 0
  cV      : Word := 0
  droopsTotal : Nat := 0
  deriving DecidableEq, Repr

end Sys2Proof.Machine
end

