-- ==== Sys2Proof/Machine/State.lean ====
section
/-!
DEFINITION. The state of the block, the reasons a step can stop, and the state right after reset.
-/
namespace Sys2Proof.Machine

/-- Reasons for which a step could stop with a fault. The spec gives the block none: every command it describes has an
effect, a refusal status or no effect, and the block keeps running. No meaning raises a fault (safe). -/
inductive Fault where
  deriving DecidableEq, Repr

/-- Reasons for which a step has no meaning. -/
inductive Refusal where
  /-- Raised by an arm of `exec` whose command has no meaning yet, named by its mnemonic. Safe: the run stops. -/
  | notModelled (mnemonic : String)
  deriving DecidableEq, Repr

/-- A sparse memory: (address, byte) pairs, addresses strictly rising, none equal to what an unlisted address reads as. -/
abbrev Mem := List Host.Cell

/-- What an unlisted byte of the memory behind the memory port reads as. DESIGN CHOICE (log 6), unsafe. -/
def Mem.ramByte : Byte := 0

/-- What an unlisted byte of NV memory reads as: erased NV reads 0xFF. DEDUCED (log 7). -/
def Mem.nvByte : Byte := 0xFF

/-- The canonical form: addresses strictly rising from `lo` on, and no entry equal to `d`. -/
def Mem.wfFrom (d : Byte) : Nat → Mem → Bool
  | _, [] => true
  | lo, (a, b) :: t => decide (lo ≤ a) && (b != d) && Mem.wfFrom d (a + 1) t

/-- The canonical form of a memory whose unlisted bytes read as `d`. -/
def Mem.wf (d : Byte) (m : Mem) : Bool := Mem.wfFrom d 0 m

/-- What the block tells its parent or its tray (R25 and the rules that say "reports"). -/
inductive ReportKind where
  | verdict | act | recommendation | unchecked | split | singlePath | span | relayout | rekey | concentration
  | plcaConflict | failover | addressConflict | dieLost | trayLost | promotion | failedAdmission | plan | mgtFigures
  deriving DecidableEq, Repr

/-- A report: its traffic class, kind, entity, further words and TB. -/
structure Report where
  tc     : BitVec 2
  kind   : ReportKind
  entity : Word
  vals   : List Nat
  tb     : Nat
  deriving DecidableEq, Repr

/-- The fuse array (Table 16.1) and the silicon stepping (Table 12.11). Nothing in the model writes it (R1). -/
structure Fuses where
  array    : BitVec 4096 := 0
  stepping : Byte := 0
  deriving DecidableEq, Repr

/-- Everything of the block that a command can change, outside its two memories. -/
structure Hub where
  /-- the model's own: how many free values have been drawn (log 2) -/
  free    : Nat := 0
  sys     : Sys := {}
  isl     : Island := {}
  time    : TimeU := {}
  regions : List Region := List.replicate 8 {}
  cells   : Tab Cell := []
  hubc    : Tab HubCell := []
  res     : ResU := {}
  dig     : DigU := {}
  xs      : XsU := {}
  ens     : EnsU := {}
  casc    : Casc := {}
  age     : AgeU := {}
  fab     : Fab := {}
  sb      : Sb := {}
  bc      : BcastU := {}
  jobs    : Jobs := {}
  mgt     : Mgt := {}
  cmd     : CmdU := {}
  prot    : Prot := {}
  regs    : HubRegs := {}
  mem     : MemU := {}
  dma     : DmaU := {}
  trc     : Trc := {}
  nid     : Nid := {}
  log     : Recorder := {}
  boot    : Boot := {}
  img     : Option Image := none
  reports : List Report := []
  /-- writes to memory and to NV memory that the command in hand has posted, oldest first -/
  posted  : List Host.Cell := []
  nvPosted : List Host.Cell := []
  deriving DecidableEq, Repr

/-- What a meaning may read and not change directly: the fuses, the two memories, and the commands that wait behind it, which arrive in the
same cycle (R70). -/
structure Env where
  fuses : Fuses
  mem   : Mem
  nv    : Mem
  waiting : List Instr := []
  deriving DecidableEq, Repr

/-- The state of the block: fuses, the memory behind the memory port, NV memory, the hub, and the commands that wait. -/
structure State where
  fuses   : Fuses := {}
  mem     : Mem := []
  nv      : Mem := []
  hub     : Hub := {}
  pending : List Instr := []
  deriving DecidableEq, Repr

/-- The machine right after reset: COLD with PORST_N low (Table 1.8), no command waiting. -/
def State.reset : State := {}

end Sys2Proof.Machine
end

