-- ==== Sys2Proof/Machine/Ops.lean ====
section
/-!
DEFINITION. Named operations over memories, the hub's parts, entities, records and reports, and the ONE lift of a meaning
to the state.
-/
namespace Sys2Proof.Machine

/-! Memories in canonical form. -/

/-- Read one byte. -/
def Mem.get (d : Byte) : Mem → Nat → Byte
  | [], _ => d
  | (k, b) :: t, a => if k = a then b else Mem.get d t a

/-- Write one byte, keeping the canonical form. -/
def Mem.set (d : Byte) : Mem → Nat → Byte → Mem
  | [], a, b => if b = d then [] else [(a, b)]
  | (k, c) :: t, a, b =>
    if a < k then (if b = d then (k, c) :: t else (a, b) :: (k, c) :: t)
    else if a = k then (if b = d then t else (k, b) :: t)
    else (k, c) :: Mem.set d t a b

/-- Apply writes in order. -/
def Mem.apply (d : Byte) (m : Mem) (ws : List Host.Cell) : Mem := ws.foldl (fun m w => m.set d w.1 w.2) m

/-- The environment of a meaning. -/
def State.env (s : State) : Env := ⟨s.fuses, s.mem, s.nv, s.pending⟩

/-- The hub with nothing posted. -/
def Hub.clean (h : Hub) : Hub := { h with posted := [], nvPosted := [] }

/-- The state after a meaning's hub: what it has posted reaches the two memories; fuses and queue stay. -/
def State.settle (s : State) (h : Hub) : State :=
  { s with
    hub := h.clean
    mem := Mem.apply Mem.ramByte s.mem h.posted
    nv := Mem.apply Mem.nvByte s.nv h.nvPosted }

/-- The one lift of a meaning, which starts with nothing posted. -/
def State.run (s : State) (f : Env → Hub → Hub) : Host.Outcome State Fault Refusal :=
  .next (s.settle (f s.env s.hub.clean))

/-- Do something only when a guard holds: an event whose condition does not hold has not occurred. Log 8. -/
def guard (b : Bool) (f : Hub → Hub) (h : Hub) : Hub := if b then f h else h

/-- Bytes of NV memory. -/
def Env.nvRead (e : Env) (a n : Nat) : List Byte := (List.range n).map (fun i => e.nv.get Mem.nvByte (a + i))

/-- Post bytes to NV memory. A program operation clears bits only where the spec's erase rules say so; the model writes
the bytes as given, into sectors the recorder has erased. -/
def nvPost (a : Nat) (bs : List Byte) (h : Hub) : Hub :=
  { h with nvPosted := h.nvPosted ++ (List.range bs.length).zipWith (fun i b => (a + i, b)) bs }

/-- Post an erase of `n` bytes of NV memory. -/
def nvErase (e : Env) (a n : Nat) (h : Hub) : Hub :=
  { h with nvPosted := h.nvPosted ++ ((e.nv.filter (fun c => decide (a ≤ c.1) && decide (c.1 < a + n))).map (fun c => (c.1, 0xFF))) }

/-! Commands of one cycle (R70): TB stands still between them. -/

/-- A host clock edge of a region. -/
def evEdge (r : Nat) : Instr → Bool
  | .hostCycle c _ _ _ _ => decide (c.toNat / 256 = r)
  | .regionResume q => decide (q.toNat = r)
  | _ => false

/-- A host clock edge. -/
def evAnyEdge : Instr → Bool
  | .hostCycle .. => true
  | .regionResume _ => true
  | _ => false

/-- An END beat of a core's lane. -/
def evTapEnd (c : Nat) : Instr → Bool
  | .tapEnd k _ _ => decide (k.toNat = c)
  | _ => false

/-- A completed audit. -/
def evAudit : Instr → Bool
  | .auditComplete _ => true
  | _ => false

/-- A time message. -/
def evSync : Instr → Bool
  | .syncReceive _ _ => true
  | .gptpSyncReceive .. => true
  | _ => false

/-- A contribution to a round. -/
def evContribution : Instr → Bool
  | .reduceContributionReceive _ _ => true
  | _ => false

/-- A result of a round. -/
def evResult : Instr → Bool
  | .reduceResultReceive _ _ => true
  | _ => false

/-- Anything that a stage of the rhizome waits for. -/
def evRound : Instr → Bool
  | .reduceContributionReceive _ _ => true
  | .reduceResultReceive _ _ => true
  | .exchangeReceive _ _ => true
  | .passComplete => true
  | _ => false

/-- A filled row. -/
def evRowFill : Instr → Bool
  | .rowFillComplete _ => true
  | _ => false

/-- A step boundary. -/
def evStep : Instr → Bool
  | .digEpochOpen _ => true
  | _ => false

/-- The retirement of an epoch. -/
def evRetire : Instr → Bool
  | .digEpochOpen _ => true
  | .digEpochRelease _ => true
  | _ => false

/-- A test's result. -/
def evTestDone : Instr → Bool
  | .testSchedDone _ => true
  | _ => false

/-- The host's answer to a plan. -/
def evPlanAck : Instr → Bool
  | .marginPlanAck _ => true
  | _ => false

/-- A probe's result. -/
def evProbeDone : Instr → Bool
  | .marginPlanProbeDone _ => true
  | _ => false

/-- An acknowledgement on a sideband port. -/
def evSbAck (p : Nat) : Instr → Bool
  | .sbAckReceive q _ => decide (q.toNat = p)
  | _ => false

/-- A reply of a member die. -/
def evSbReply : Instr → Bool
  | .sbReplyReceive _ _ => true
  | _ => false

/-- A fragment of a message. -/
def evFragment (src : Nat) (mseq : BitVec 16) : Instr → Bool
  | .sbReplyReceive _ f => decide (f.src.toNat = src) && decide (f.mseq = mseq)
  | .sbCommandReceive _ f => decide (f.src.toNat = src) && decide (f.mseq = mseq)
  | .routeSetReceive _ f => decide (f.src.toNat = src) && decide (f.mseq = mseq)
  | .bcastPrepareReceive (.sb _ f) => decide (f.src.toNat = src) && decide (f.mseq = mseq)
  | .bcastAckReceive (.sb _ f) => decide (f.src.toNat = src) && decide (f.mseq = mseq)
  | _ => false

/-- A heartbeat of a die. -/
def evHeartbeat (d : Nat) : Instr → Bool
  | .sbHeartbeatReceive _ f => decide (f.src.toNat = d)
  | .photenHeartbeatReceive _ _ => true
  | _ => false

/-- An answer in a broadcast. -/
def evBcast : Instr → Bool
  | .bcastAckReceive _ => true
  | _ => false

/-- The second phase of a broadcast. -/
def evCommit : Instr → Bool
  | .bcastCommitReceive _ => true
  | .bcastAbortReceive _ => true
  | _ => false

/-- An Announce. -/
def evAnnounce : Instr → Bool
  | .gptpAnnounceReceive _ _ => true
  | _ => false

/-- A Neighbor Advertisement on a segment. -/
def evNeighbour (b : Bool) : Instr → Bool
  | .neighborAdvertisementReceive q => q == b
  | _ => false

/-- A frame on a segment. -/
def evFrame (b : Bool) : Instr → Bool
  | .miiFrameReceive q _ => q == b
  | _ => false

/-- A BEACON on a segment. -/
def evBeacon (b : Bool) : Instr → Bool
  | .plcaBeaconReceive q => q == b
  | _ => false

/-- The answer to a memory request. -/
def evMemory (att : BitVec 5) (tag : Byte) : Instr → Bool
  | .memoryReadResponse a t _ => a == att && t == tag
  | .memoryWriteAck a t _ => a == att && t == tag
  | _ => false

/-- A delivered image. -/
def evImage : Instr → Bool
  | .imgLoad _ => true
  | _ => false

/-- The protection lock. -/
def evLock : Instr → Bool
  | .protLock _ => true
  | _ => false

/-- A power-fail warning. -/
def evWarning : Instr → Bool
  | .pfwWarning => true
  | _ => false

/-- A timer that falls due in the very cycle in which an event it guards arrives: the event wins, and the timer is cancelled (R70). -/
def Env.beaten (e : Env) (ev : Instr → Bool) (due now : Nat) : Bool := decide (due = now) && e.waiting.any ev

/-! Time, role, states. -/

/-- TB_NS. -/
def nowNs (h : Hub) : Nat := h.time.tb.toNat / 2 ^ 32

/-- A field of the fuse map (Table 16.1). -/
def Env.fuse (e : Env) (hi lo : Nat) : Nat := bitsOf e.fuses.array.toNat hi lo

/-- The role: the majority of the three ROLE bits (R574). True is tray role. -/
def Env.tray (e : Env) : Bool :=
  decide (b2n (e.fuses.array.getLsbD 0) + b2n (e.fuses.array.getLsbD 1) + b2n (e.fuses.array.getLsbD 2) ≥ 2)

/-- Debug-disable fuse blown. -/
def Env.debugDis (e : Env) : Bool := e.fuses.array.getLsbD 3

/-- KEY_HASH all zeros (R576). -/
def Env.noKey (e : Env) : Bool := decide (e.fuse 493 110 = 0)

/-- The cell of a core is present: die role, not fused absent (R104, R3). -/
def Env.present (e : Env) (c : Nat) : Bool := !e.tray && decide (c < 2048) && !e.fuses.array.getLsbD (494 + c)

/-- Present cells, 0–2,048. -/
def Env.cellCount (e : Env) : Nat := ((List.range 2048).filter e.present).length

/-- All 256 cells of a region are absent. -/
def Env.regionAbsent (e : Env) (r : Nat) : Bool := (List.range 256).all (fun i => !e.present (r * 256 + i))

/-- The image applied, or defaults. -/
def imgOf (h : Hub) : Image := h.img.getD {}

/-- This die's number (01, Entities). -/
def dieNo (e : Env) (h : Hub) : Nat :=
  (imgOf h).tray * 128 + (imgOf h).engine * 64 + e.fuse 6 4 * 8 + e.fuse 9 7

/-- This block's node number with the aggregator bit at bit 17 (R375). -/
def nodeNo (e : Env) (h : Hub) : Nat := if e.tray then 2 ^ 17 + (imgOf h).tray else dieNo e h

/-- The block runs SERVING. -/
def serving (h : Hub) : Bool := h.sys.st == .serving

/-- SERVING or DROWSE. -/
def working (h : Hub) : Bool := h.sys.st == .serving || h.sys.st == .drowse

/-- A state in which the host target port responds (R607). -/
def portOn (h : Hub) : Bool :=
  h.sys.st == .config || h.sys.st == .playa || h.sys.st == .serving || h.sys.st == .drowse || h.sys.st == .flush

/-- The main domain runs and is not frozen for a flush. -/
def alive (h : Hub) : Bool := h.sys.st == .config || h.sys.st == .playa || h.sys.st == .serving || h.sys.st == .drowse

/-- PLAYA, SERVING or DROWSE. -/
def upState (h : Hub) : Bool := h.sys.st == .playa || h.sys.st == .serving || h.sys.st == .drowse

/-! Parts of the hub. -/

/-- A region's state. -/
def region (h : Hub) (r : Nat) : Region := getAt h.regions r {}
/-- Change a region. -/
def onRegion (r : Nat) (f : Region → Region) (h : Hub) : Hub := { h with regions := setAt h.regions r (f (region h r)) }
/-- A core's cell. -/
def cell (h : Hub) (c : Nat) : Cell := Tab.getD h.cells c {}
/-- Change a core's cell. -/
def onCell (c : Nat) (f : Cell → Cell) (h : Hub) : Hub := { h with cells := Tab.put h.cells c (f (cell h c)) }
/-- The hub's data of a core. -/
def hubc (h : Hub) (c : Nat) : HubCell := Tab.getD h.hubc c {}
/-- Change the hub's data of a core. -/
def onHubc (c : Nat) (f : HubCell → HubCell) (h : Hub) : Hub := { h with hubc := Tab.put h.hubc c (f (hubc h c)) }
/-- An entity's judgement. -/
def entity (h : Hub) (x : Word) : Ent := Tab.getD h.casc.ents x.toNat {}
/-- Change an entity's judgement. -/
def onEnt (x : Word) (f : Ent → Ent) (h : Hub) : Hub :=
  { h with casc := { h.casc with ents := Tab.put h.casc.ents x.toNat (f (entity h x)) } }
/-- Add to element `i` of a list of counts. -/
def addAt (l : List Nat) (i n : Nat) : List Nat := setAt l i (getAt l i 0 + n)
/-- Add to a count of R150 of a core. -/
def countCore (c i : Nat) (h : Hub) (n : Nat := 1) : Hub := onHubc c (fun x => { x with counts := addAt x.counts i n }) h

/-- Draw a DRBG block (free value). -/
def draw (h : Hub) : BitVec 128 := Config.drbg h.free
/-- After a draw. -/
def drawn (h : Hub) (n : Nat := 1) : Hub := { h with free := h.free + n }

/-! Entities (Table 1.5). -/

/-- An entity ID. -/
def entId (kind index : Nat) : Word := BitVec.ofNat 32 (kind * 2 ^ 28 + index)
/-- No entity. -/
def noEnt : Word := 0xFFFFFFFF
/-- The kind of an entity ID. -/
def kindOf (x : Word) : Nat := bitsOf x.toNat 31 28
/-- The die or node number field of an entity ID. -/
def dieOf (x : Word) : Nat := bitsOf x.toNat 27 11
/-- This die's entity of a kind with a low index. -/
def ownId (e : Env) (h : Hub) (kind low : Nat) : Word :=
  if e.tray && (kind = 7 || kind = 8 || kind = 11) then entId kind ((imgOf h).tray * 2048 + 1024 + low)
  else entId kind (dieNo e h * 2048 + low)
/-- A core of this die. -/
def coreId (e : Env) (h : Hub) (c : Nat) : Word := ownId e h 0 c
/-- A block-internal unit of this node (R16). -/
def unitId (e : Env) (h : Hub) (u : Nat) : Word := ownId e h 11 u
/-- The twenty unit codes (R16). -/
def unitCodes : List Nat := [0, 1, 2, 3, 4, 5, 6, 8, 9, 10, 11, 12, 16, 24, 28, 30, 32, 60, 61, 62]

/-- A node field (bits [27:11] with bit [10] aggregator) lies in the fleet. -/
def nodeInFleet (h : Hub) (x : Word) : Bool :=
  if bitOf x.toNat 10 then decide (dieOf x < (imgOf h).trays) else decide (dieOf x < (imgOf h).fleetDies)

/-- An entity ID has the layout of Table 1.5 and lies in the fleet configured at boot (R14, R15, R16). -/
def entOk (h : Hub) (x : Word) : Bool :=
  let v := x.toNat
  let inDie := decide (dieOf x < (imgOf h).fleetDies)
  let z := fun hi lo => decide (bitsOf v hi lo = 0)
  match kindOf x with
  | 0 => inDie
  | 1 => inDie && z 10 6
  | 2 => inDie && z 10 3
  | 3 => inDie && z 10 0
  | 4 => z 27 11 && decide (bitsOf v 10 0 < 2 * (imgOf h).trays)
  | 5 => z 27 10 && decide (bitsOf v 9 0 < (imgOf h).trays)
  | 6 => inDie && z 10 3
  | 7 => nodeInFleet h x && z 9 5
  | 8 => nodeInFleet h x && z 9 6
  | 9 => z 27 24
  | 10 => z 27 16
  | 11 => nodeInFleet h x && z 9 8 && unitCodes.contains (bitsOf v 7 0)
  | _ => false

/-- The core number of a core of this die, when it is one. -/
def ownCore (e : Env) (h : Hub) (x : Word) : Option Nat :=
  if kindOf x = 0 ∧ dieOf x = dieNo e h then some (bitsOf x.toNat 10 0) else none

/-- The cores of this die that an entity of kinds 0–3 covers, present ones only. -/
def coresOf (e : Env) (h : Hub) (x : Word) : List Nat :=
  let own := decide (dieOf x = dieNo e h)
  let lo := bitsOf x.toNat 10 0
  let l := match kindOf x with
    | 0 => if own then [lo] else []
    | 1 => if own then (List.range 32).map (fun i => lo / 8 * 256 + lo % 8 * 32 + i) else []
    | 2 => if own then (List.range 256).map (fun i => lo * 256 + i) else []
    | 3 => if own then List.range 2048 else []
    | _ => []
  l.filter e.present

/-- Region, and cluster within the die, of a core. -/
def regionOf (c : Nat) : Nat := c / 256
/-- The cluster entity's low index of a core (region × 8 + cluster). -/
def clusterOf (c : Nat) : Nat := c / 32

/-! Records, interrupts and reports. -/

/-- Set a HUB_IRQSTAT bit (R620). -/
def irq (b : Nat) (h : Hub) : Hub := { h with regs := { h.regs with
  irqstat := h.regs.irqstat ||| BitVec.ofNat 10 (2 ^ b), irqFresh := h.regs.irqFresh ||| BitVec.ofNat 10 (2 ^ b) } }

/-- Put one record into the recorder's input queue, with the next RSEQ. -/
def pushRec (ty sev cmpl : Nat) (x : Word) (unit code : Nat) (payload : List Word) (tb : Nat) (h : Hub) : Hub :=
  let q : Rec := {
    type := BitVec.ofNat 8 ty, sev := BitVec.ofNat 2 sev, cmpl := BitVec.ofNat 2 cmpl, rseq := h.log.rseq + 1,
    tb := BitVec.ofNat 64 tb, entity := x, unit := BitVec.ofNat 8 unit, code := BitVec.ofNat 8 code,
    boot := h.log.bootseq.setWidth 16, payload := payload.take 50 }
  { h with log := { h.log with queue := h.log.queue ++ [q], rseq := h.log.rseq + 1 } }

/-- Words of a number: high word, low word. -/
def w64 (n : Nat) : List Word := [BitVec.ofNat 32 (n / 2 ^ 32), BitVec.ofNat 32 n]

/-- Write a record (R552): no producer waits; a record that finds 64 waiting is discarded and counted, and the next one
accepted is preceded by a LOSS record with the count. In FLUSH only the flush's own records are written (R566). -/
def emitAt (ty sev cmpl : Nat) (x : Word) (unit code : Nat) (payload : List Word) (tb : Nat) (h : Hub) : Hub :=
  if h.sys.st == .flush then { h with log := { h.log with lostFlush := h.log.lostFlush + 1 } }
  else if !alive h then h
  else
    let h := if sev = 3 then irq 5 h else h
    let h := if ty = 10 then irq 6 h else h
    let due := h.log.lossDue
    if h.log.queue.length + (if due = 0 then 1 else 2) > 64 then
      { h with log := { h.log with
          lostQueue := h.log.lostQueue + 1, lossDue := due + 1, lossFirst := if due = 0 then tb else h.log.lossFirst, lossLast := tb } }
    else
      let h := if due = 0 then h else
        irq 6 (pushRec 10 1 0 noEnt 10 0 ([0, BitVec.ofNat 32 due] ++ w64 h.log.lossFirst ++ w64 h.log.lossLast) tb
          { h with log := { h.log with lossDue := 0 } })
      pushRec ty sev cmpl x unit code payload tb h

/-- Write a record stamped with the present TB. -/
def emit (ty sev cmpl : Nat) (x : Word) (unit code : Nat) (payload : List Word) (h : Hub) : Hub :=
  emitAt ty sev cmpl x unit code payload (nowNs h) h

/-- A record of an event that no code names: UNIT, code 0, with the firmware's sub-code word (R642). -/
def emitUnit (n : Nat) (x : Word) (unit : Nat) (payload : List Word) (h : Hub) : Hub :=
  emit 15 0 0 x unit 0 (Config.subCode n :: payload) h

/-- A word of a number. -/
def w32 (n : Nat) : Word := BitVec.ofNat 32 n
/-- A word of an integer in two's complement. -/
def wInt (i : Int) : Word := BitVec.ofNat 32 (unsigned 32 i)

/-- The next RSEQ, that of the record written next. -/
def nextRseq (h : Hub) : Word := h.log.rseq + (if h.log.lossDue = 0 then 1 else 2)

/-- A STATE record (Table 15.11). -/
def emitState (code : Nat) (payload : List Word) (h : Hub) : Hub := emit 7 0 0 noEnt 0 code payload h

/-- An ignored write (R611): recorded as CONFIG code 4 with unit, offset and value, and counted. -/
def ignoredWrite (unit off : Nat) (v : DWord) (h : Hub) : Hub :=
  emit 8 1 0 noEnt 11 4 ([w32 unit, w32 off] ++ w64 v.toNat) { h with prot := { h.prot with ignored := h.prot.ignored + 1 } }

/-- A register write that the unit refuses: recorded as CONFIG code 4, and not counted in IGNORED (R418, R446, R450, R545, R625). -/
def refusedWrite (unit off : Nat) (v : DWord) (h : Hub) : Hub := emit 8 1 0 noEnt 11 4 ([w32 unit, w32 off] ++ w64 v.toNat) h

/-- A direct write whose register a command writes in the same cycle is recorded as overridden (R613, CONFIG code 6). -/
def overridden (unit off : Nat) (v : DWord) (h : Hub) : Hub := emit 8 1 0 noEnt 11 6 ([w32 unit, w32 off] ++ w64 v.toNat) h

/-- A direct write of a register: overridden where a command has written the register in this cycle, and noted until the cycle ends
otherwise (R613; by whole registers: DESIGN CHOICE, log 71). -/
def portField (unit off : Nat) (v : DWord) (f : Hub → Hub) (h : Hub) : Hub :=
  if h.regs.cmdWrote.contains (unit, off) then overridden unit off v h
  else f { h with regs := { h.regs with portWrote := h.regs.portWrote ++ [(unit, off, v)] } }

/-- A command's write of a register: it overrides the direct writes of this cycle, before it and after it (R613). -/
def commandField (unit off : Nat) (f : Hub → Hub) (h : Hub) : Hub :=
  let mine := fun (w : Nat × Nat × DWord) => decide (w.1 = unit) && decide (w.2.1 = off)
  let h := (h.regs.portWrote.filter mine).foldl (fun h w => overridden w.1 w.2.1 w.2.2 h) h
  f { h with regs := { h.regs with portWrote := h.regs.portWrote.filter (fun w => !mine w), cmdWrote := (unit, off) :: h.regs.cmdWrote } }

/-- A report upward (R25). -/
def report (tc : Nat) (kind : ReportKind) (x : Word) (vals : List Nat) (h : Hub) : Hub :=
  { h with reports := h.reports ++ [{ tc := BitVec.ofNat 2 tc, kind := kind, entity := x, vals := vals, tb := nowNs h }] }

/-- Units run again: the expiries that were held for them act now, in the order of their deadlines (R71, `Due.lean`). -/
def actHeld (h : Hub) : Hub := { h with time := { h.time with due := true } }

/-- The block changes state, writing the STATE record and raising HUB_IRQSTAT.STATE (R30, R620). The record of a change
that leaves the recorded states is written before the change, one that enters them after it. -/
def toState (st : BlockState) (h : Hub) : Hub :=
  let pl := [w32 h.sys.st.code, w32 st.code]
  let h' := if alive h then emitState 0 pl h else h
  let h'' := irq 0 { h' with sys := { h'.sys with st := st } }
  if alive h then h'' else emitState 0 pl h''

end Sys2Proof.Machine
end

