-- ==== Sys2Proof/Machine/MemOps.lean ====
section
/-!
DEFINITION. The address map, the keyed interleave, memory reads and posted writes, outstanding requests, and the feature
table's writes with the spill cache (R260–R268, R514–R531).
-/
namespace Sys2Proof.Machine

/-- Parity of the set bits of a number below 2^n. -/
def parityTo : Nat → Nat → Bool
  | 0, _ => false
  | n + 1, v => Bool.xor (decide (v % 2 = 1)) (parityTo n (v / 2))

/-- The attachment offset c of line x under masks (R524): bit b is the parity of x AND M_b. -/
def maskC (masks : List (BitVec 58)) (x : Nat) : Nat :=
  ((masks.zipIdx).map (fun mb => b2n (parityTo 58 (x &&& mb.1.toNat)) * 2 ^ mb.2)).sum

/-- log2 of N for the permitted values. -/
def log2N (n : Nat) : Nat := Nat.log2 n

/-- The masks in force for a line of a range, with the migration pointer (R531). -/
def masksFor (m : MapRange) (x : Nat) : List (BitVec 58) :=
  match m.old with
  | some o => if x / m.r.n < m.pointer then m.r.masks else o
  | none => m.r.masks

/-- Where a line of a range lies: attachment and channel-local line (R524). -/
def place (m : MapRange) (x : Nat) : Nat × Nat :=
  (m.r.c0 + maskC (masksFor m x) x, m.r.localBase / 64 + x / 2 ^ log2N m.r.n)

/-- The range of an address and its line within it; none is DECODE (R521). -/
def findRange : List MapRange → Nat → Nat → Option (Nat × MapRange × Nat)
  | [], _, _ => none
  | m :: t, i, a =>
    if m.r.base ≤ a ∧ a / 64 * 64 + 64 ≤ m.r.base + m.r.size then some (i, m, (a - m.r.base) / 64) else findRange t (i + 1) a

/-- The key of a byte behind the port: attachment × 2^40 + channel-local byte address. -/
def physAddr (h : Hub) (a : Nat) : Option Nat :=
  match findRange h.mem.ranges 0 a with
  | none => none
  | some (_, m, x) => let p := place m x; some (p.1 * 2 ^ 40 + p.2 * 64 + a % 64)

/-- The attachment of an address, when it lies in a range. -/
def attachOf (h : Hub) (a : Nat) : Option Nat := (physAddr h a).map (· / 2 ^ 40)

/-- One byte at a byte address: none when no range holds it or its attachment is FAILED (R518, R521). -/
def readByte (e : Env) (h : Hub) (a : Nat) : Option Byte :=
  match physAddr h a with
  | none => none
  | some k => if h.mem.failed.getLsbD (k / 2 ^ 40) then none else some (e.mem.get Mem.ramByte k)

/-- Bytes at a byte address. -/
def readMem (e : Env) (h : Hub) (a n : Nat) : Option (List Byte) := (List.range n).mapM (fun i => readByte e h (a + i))

/-- Post bytes to memory at a byte address; a byte in no range, or on a FAILED attachment, is not written. -/
def postMem (a : Nat) (bs : List Byte) (h : Hub) : Hub :=
  { h with posted := h.posted ++
      ((List.range bs.length).zip bs).filterMap (fun ib =>
        match physAddr h (a + ib.1) with
        | none => none
        | some k => if h.mem.failed.getLsbD (k / 2 ^ 40) then none else some (k, ib.2)) }

/-- Are `n` bytes at an address all writable? -/
def writable (h : Hub) (a n : Nat) : Bool :=
  (List.range n).all (fun i => match physAddr h (a + i) with | none => false | some k => !h.mem.failed.getLsbD (k / 2 ^ 40))

/-- The RESERVED range's base (R520, R523). -/
def reservedBase (h : Hub) : Option Nat :=
  (h.mem.ranges.find? (fun m => m.r.tier == .reserved)).map (fun m => m.r.base)

/-! Outstanding requests (R515–R519). -/

/-- The lowest free tag of an attachment at or above `t`, trying `n` tags. -/
def freeTag (out : Tab MemReq) (att : Nat) : Nat → Nat → Option Nat
  | 0, _ => none
  | n + 1, t => if (Tab.find out (att * 256 + t)).isNone then some t else freeTag out att n (t + 1)

/-- Is an access to this line of this attachment outstanding (R517)? One whose answer is still to come late holds its line too. -/
def lineBusy (out : Tab MemReq) (att line : Nat) : Bool := out.any (fun p => decide (p.1 / 256 = att) && decide (p.2.line = line))

/-- Class of a client (Table 14.5). -/
def Client.cls : Client → Nat
  | .fill _ => 0
  | .writeback _ _ => 0
  | .audit _ => 1
  | .migration => 3
  | _ => 2

/-- Budget of a class in bytes a second; the spill cache has none (Table 14.5). -/
def portBudget (h : Hub) (k : Nat) : Option Nat :=
  match k with
  | 1 => some h.res.budget
  | 2 => some 32000000000
  | 3 => some h.mem.migRate
  | _ => none

/-- A class has issued more than its budget pays for up to now (R526). -/
def overBudget (h : Hub) (k : Nat) : Bool := decide (nowNs h * 1000 < Tab.getD h.mem.paid k 0)

/-- What a class issues uses its budget from now on, or from when it is paid for on (R526; DESIGN CHOICE, log 99). -/
def charge (k cost : Nat) (h : Hub) : Hub :=
  match portBudget h k with
  | some b => { h with mem := { h.mem with paid := Tab.put h.mem.paid k (max (nowNs h * 1000) (Tab.getD h.mem.paid k 0) + cost * 10 ^ 12 / b) } }
  | none => h

/-- Order in which waiting requests are served: within the budget first, then by class (R526). -/
def portRank (h : Hub) (c : Client) : Nat := (if overBudget h c.cls then 4 else 0) + c.cls

/-- A request over its budget gives way while a client within its budget waits at the attachment (R526). -/
def givesWay (h : Hub) (att : Nat) (c : Client) : Bool :=
  overBudget h c.cls && h.mem.waitq.any (fun u => !overBudget h u.client.cls && decide (attachOf h u.addr = some att))

/-- The outcomes of issuing a request. -/
inductive Issue where
  | decode | failed | wait | issued (h : Hub)

/-- Issue an access behind the waiting ones `before` it: DECODE, FAILED attachment, a wait for a tag, for the line, for the group that is being
migrated or for clients within their budgets, or issued (R515, R517, R518, R521, R526, R531). -/
def issueReq (before : List MemWait) (w : MemWait) (h : Hub) : Issue :=
  match findRange h.mem.ranges 0 w.addr with
  | none => .decode
  | some (i, m, x) =>
    let p := place m x
    if h.mem.failed.getLsbD p.1 then .failed
    else if m.old.isSome && decide (x / m.r.n = m.pointer) && w.client != .migration then .wait
    else if lineBusy h.mem.out p.1 p.2 || before.any (fun u => decide (u.addr / 64 = w.addr / 64)) || givesWay h p.1 w.client then .wait
    else match freeTag h.mem.out p.1 256 0 with
      | none => .wait
      | some t =>
        let q : MemReq := {
          line := p.2, write := w.write, client := w.client, range := i, deadline := nowNs h + h.mem.memTimeout
          addr := w.addr, data := w.data }
        .issued (charge w.client.cls w.cost { h with mem := { h.mem with out := Tab.put h.mem.out (p.1 * 256 + t) q } })

/-- A DECODE error is recorded and counted; `chargeDecode` charges it (R521). -/
def decodeError (e : Env) (h : Hub) : Hub :=
  emit 9 1 0 (unitId e h 6) 6 8 [3] { h with mem := { h.mem with decode := h.mem.decode + 1 } }

/-- Issue an access behind some that wait, or let it wait, or let its client be told of its error (R517, R518, R521). -/
def tryAccess (e : Env) (before : List MemWait) (w : MemWait) (h : Hub) : Hub :=
  let bad := fun (h : Hub) => { h with mem := { h.mem with errq := h.mem.errq ++ [w] } }
  match issueReq before w h with
  | .issued h => h
  | .wait => { h with mem := { h.mem with waitq := h.mem.waitq ++ [w] } }
  | .failed => bad h
  | .decode => bad (decodeError e h)

/-- A new access comes behind all that wait. -/
def access (e : Env) (w : MemWait) (h : Hub) : Hub := tryAccess e h.mem.waitq w h

/-- Can the access at place `i` of the waiting ones go? -/
def canGo (h : Hub) (i : Nat) (w : MemWait) : Bool :=
  match issueReq (h.mem.waitq.take i) w h with
  | .wait => false
  | _ => true

/-- The waiting access that goes next: of those that can, the first of the lowest rank (R526). -/
def nextAccess (h : Hub) : Option (MemWait × Nat) :=
  ((h.mem.waitq.zipIdx).filter (fun p => canGo h p.2 p.1)).foldl (fun a p => match a with
    | none => some p
    | some q => if portRank h p.1.client < portRank h q.1.client then some p else some q) none

/-- Up to `n` waiting accesses go, in the order of R526. -/
def pumpPort (e : Env) : Nat → Hub → Hub
  | 0, h => h
  | n + 1, h =>
    match nextAccess h with
    | none => h
    | some (w, i) => pumpPort e n (tryAccess e (h.mem.waitq.take i) w { h with mem := { h.mem with waitq := h.mem.waitq.eraseIdx i } })

/-- Some access of a client waits, is outstanding, or has failed without the client being told. -/
def clientBusy (h : Hub) (f : Client → Bool) : Bool :=
  h.mem.out.any (fun p => f p.2.client && !p.2.timedOut) || (h.mem.waitq ++ h.mem.errq).any (fun w => f w.client)

/-- One request of a DMA channel (R536): counted up to 65,535; one beyond is lost, counted and recorded. -/
def dmaRequest (c : Nat) (h : Hub) : Hub :=
  let x := Tab.getD h.dma.ch c {}
  if !x.enable || !x.reqen then h
  else if x.pend ≥ 65535 then
    emit 10 1 0 noEnt 6 7 ([7, 1] ++ w64 (nowNs h) ++ w64 (nowNs h)) { h with dma := { h.dma with lostreq := h.dma.lostreq + 1 } }
  else { h with dma := { h.dma with ch := Tab.put h.dma.ch c { x with pend := x.pend + 1 } } }

/-- A pulse of a producer's request line (Table 14.7): every channel bound to it has one more request. -/
def pulseLine (l : Nat) (h : Hub) : Hub :=
  (h.dma.ch.filter (fun p => decide (p.2.reqline.toNat = l))).foldl (fun h p => dmaRequest p.1 h) h

/-! The feature table (R260–R268). -/

/-- The row of an entity. -/
def rowOf (h : Hub) (x : Word) : Option Row := Tab.find h.ens.rows x.toNat
/-- Put an entity's row. -/
def putRow (x : Word) (r : Row) (h : Hub) : Hub := { h with ens := { h.ens with rows := Tab.put h.ens.rows x.toNat r } }

/-- The row number in the backing store. -/
def backingOf (h : Hub) (x : Word) : Option Nat := (h.ens.backing.find? (fun p => p.1 = x.toNat)).map Prod.snd

/-- The 1,024 bytes of a row: 256 words, an unwritten one as the missing marker. -/
def rowBytes (r : Row) : List Byte := (List.range 256).flatMap (fun i => leBytes 4 (Tab.getD r.words i missing).toNat)

/-- A row's words from its bytes. -/
def rowWords (bs : List Byte) : Tab Word :=
  (List.range 256).filterMap (fun i => let w := leAt bs (4 * i) 4; if w = 0xFFFFFFFF then none else some (i, BitVec.ofNat 32 w))

/-- The lowest row number of the backing store that no entity holds. -/
def freeBacking (h : Hub) : Nat :=
  ((List.range (h.ens.backing.length + 1)).find? (fun n => !h.ens.backing.any (fun p => decide (p.2 = n)))).getD h.ens.backing.length

/-- Address of a backing row (R523). -/
def backingAddr (h : Hub) (n : Nat) : Option Nat := (reservedBase h).map (fun b => b + 128 * 2 ^ 20 + 1024 * n)

/-- The 16 line accesses of a row's fill or write-back. -/
def rowLines (e : Env) (a : Nat) (write : Bool) (client : Client) (bs : List Byte) (h : Hub) : Hub :=
  (List.range 16).foldl (fun h i =>
    access e { addr := a + 64 * i, write := write, client := client, data := (bs.drop (64 * i)).take 64 } h) h

/-- Least recently used VALID row with a pin count of zero (R266): its key. -/
def evictable (h : Hub) : Option Nat :=
  let l := h.ens.rows.filter (fun p => p.2.st == .valid && p.2.pins == 0 && !(imgOf h).features.sticky.contains p.1)
  (l.foldl (fun a p => match a with
    | none => some p
    | some q => if p.2.used < q.2.used then some p else some q) none).map Prod.fst

/-- Rows on their way out that nobody waits to read again. -/
def leaving (h : Hub) : Nat := (h.ens.rows.filter (fun p => p.2.st == .evicting && !p.2.refill)).length

/-- Make room for the entities that wait for a row when 8,192 are held: drop a clean row, or start a dirty row's write-back (R266). One row
leaves for each that waits. -/
def makeRoom (e : Env) (h : Hub) : Hub :=
  if h.ens.rows.length < 8192 ∨ h.ens.roomq.length ≤ leaving h then h else
    match evictable h with
    | none => h
    | some k =>
      let r := Tab.getD h.ens.rows k {}
      if r.dirty then
        let h := { h with ens := { h.ens with rows := Tab.put h.ens.rows k { r with st := .evicting } } }
        match backingOf h (BitVec.ofNat 32 k) with
        | some n => match backingAddr h n with
          | some a => rowLines e a true (.writeback k 0) (rowBytes r) h
          | none => h
        | none => h
      else { h with ens := { h.ens with rows := Tab.drop h.ens.rows k } }

/-- The entity waits for a row (R266). -/
def waitRoom (x : Word) (h : Hub) : Hub :=
  if h.ens.roomq.any (fun p => decide (p.1 = x.toNat)) then h else { h with ens := { h.ens with roomq := h.ens.roomq ++ [(x.toNat, [])] } }

/-- An entity takes a free row: it is read from the backing store, or created filled with the missing marker when it does not exist
there (R268), with the writes that waited for it. A store that holds 1,048,576 rows creates no more (R285). -/
def takeRow (e : Env) (x : Word) (h : Hub) : Hub :=
  let ws := ((h.ens.roomq.find? (fun p => decide (p.1 = x.toNat))).map Prod.snd).getD []
  let h := { h with ens := { h.ens with roomq := h.ens.roomq.filter (fun p => decide (p.1 ≠ x.toNat)) } }
  match backingOf h x with
  | some n =>
    match backingAddr h n with
    | none => h
    | some a =>
      rowLines e a false (.fill x.toNat) [] (putRow x { st := .filling, used := nowNs h, waiting := ws }
        { h with ens := { h.ens with misses := h.ens.misses + 1 } })
  | none =>
    if h.ens.backing.length ≥ 1048576 then emitUnit 1 x 24 [] h else
    putRow x { dirty := true, used := nowNs h, words := ws.foldl (fun t p => Tab.put t p.1 p.2) [] }
      { h with ens := { h.ens with backing := h.ens.backing ++ [(x.toNat, freeBacking h)] } }

/-- Start the fill of a row that is not cached (tray role): a fill for a row being written back waits for that (R267), and without a free row the
entity waits (R266). -/
def startFill (e : Env) (x : Word) (h : Hub) : Hub :=
  match rowOf h x with
  | some r => if r.st == .evicting then
      putRow x { r with refill := true } { h with ens := { h.ens with fillWaits := h.ens.fillWaits + 1 } }
    else h
  | none =>
    let h := makeRoom e (waitRoom x h)
    if h.ens.rows.length ≥ 8192 then h else takeRow e x h

/-- Entities that wait for a row take the rows that have become free (R266). -/
def retryRoom (e : Env) (h : Hub) : Hub := h.ens.roomq.foldl (fun h p => startFill e (BitVec.ofNat 32 p.1) h) h

/-- Write one feature word of an entity's row (R262, R266–R268): a row not resident in die role takes no write; in tray role the write waits
for the row, and a row being written back is read again. -/
def featWrite (e : Env) (x : Word) (i : Nat) (v : Word) (h : Hub) : Hub :=
  let h := if e.tray && ((rowOf h x).isNone || (rowOf h x).any (fun r => r.st == .evicting && !r.refill)) then startFill e x h else h
  match rowOf h x with
  | none =>
    { h with ens := { h.ens with roomq := h.ens.roomq.map (fun p => if p.1 = x.toNat then (p.1, p.2 ++ [(i, v)]) else p) } }
  | some r =>
    if r.st == .valid then putRow x { r with words := Tab.put r.words i v, dirty := true, used := nowNs h } h
    else putRow x { r with waiting := r.waiting ++ [(i, v)] } h

/-- Write several words from a start index. -/
def featWrites (e : Env) (x : Word) (i : Nat) (vs : List Word) (h : Hub) : Hub :=
  (vs.zipIdx).foldl (fun h p => featWrite e x (i + p.2) p.1 h) h

/-- One more outcome of an entity that is no core: its count, and the outcome feature of its row (R19, R201). -/
def chargeEnt (e : Env) (x : Word) (h : Hub) : Hub :=
  let n := Tab.getD h.casc.outcomes x.toNat 0 + 1
  featWrite e x (imgOf h).features.outcome (int32f n) { h with casc := { h.casc with outcomes := Tab.put h.casc.outcomes x.toNat n } }

/-- A feature word as the engine reads it (R261). -/
def featRead (h : Hub) (x : Word) (i : Nat) : Word :=
  match rowOf h x with
  | some r => if r.st == .valid then Tab.getD r.words i missing else missing
  | none => missing

end Sys2Proof.Machine
end

