-- ==== Sys2Proof/Machine/NetOps.lean ====
section
/-!
DEFINITION. What the Photen port, the sideband ports and the management port do with what they send and receive
(chapters 10 and 11 of the spec): packet checks, frames, routes, queues, envelopes.
-/
namespace Sys2Proof.Machine

/-! Photen (R372–R381). -/

/-- Length on the wire of a packet with this body: header, body, zeros to a multiple of 4 and to 64 bytes (Table 10.2). -/
def photenLen (body : List Byte) : Nat := max 64 ((32 + body.length + 3) / 4 * 4)

/-- Packets that the 64 KiB queue holds, in order of arrival; those it has no room for stay with the units that produced them (R379). -/
def queued (q : List Packet) : List Packet :=
  (q.foldl (fun a p => if a.1 + photenLen p.body ≤ 65536 then (a.1 + photenLen p.body, p :: a.2) else a) (0, ([] : List Packet))).2.reverse

/-- Bytes in the output queue. -/
def queueFill (h : Hub) : Nat := ((queued h.fab.outq).map (fun p => photenLen p.body)).sum

/-- The output queue's fill is held against the marks of R232: above 75% or below 25% of its capacity for a whole window. -/
def noteFill (h : Hub) : Hub :=
  let fill := queueFill h
  { h with xs := { h.xs with highAll := h.xs.highAll && decide (fill > 49152), lowAll := h.xs.lowAll && decide (fill < 16384) } }

/-- Queue a Photen packet (R379). A TC3 packet that meets a full queue is discarded and counted. The list holds the 64 KiB
queue and, behind it, the TC0–TC2 packets that stay with the unit that produced them. -/
def photenSend (type tc : Nat) (dst : Nat) (flow soff : Nat) (body : List Byte) (h : Hub) : Hub :=
  if tc = 3 ∧ queueFill h + photenLen body > 65536 then { h with fab := { h.fab with red := h.fab.red + 1 } }
  else
    let p : Packet := {
      type := BitVec.ofNat 4 type, tc := BitVec.ofNat 2 tc, dst := BitVec.ofNat 18 dst, flow := BitVec.ofNat 16 flow
      soff := BitVec.ofNat 24 soff, tb := nowNs h, body := body }
    noteFill { h with fab := { h.fab with outq := h.fab.outq ++ [p] } }

/-- The header and body of a packet, CRC field zero then filled (Table 10.2). -/
def photenBytes (p : Packet) (src mseq : Nat) (red fresh : Bool) : List Byte :=
  let len := photenLen p.body
  let pad := len - 32 - p.body.length
  let w0 := 1 * 2 ^ 28 + p.type.toNat * 2 ^ 24 + p.tc.toNat * 2 ^ 22 + b2n red * 2 ^ 21 + b2n fresh * 2 ^ 20 + len * 2 ^ 8
  let hd := beBytes 4 w0 ++ beBytes 4 p.dst.toNat ++ beBytes 4 src ++ beBytes 4 (p.flow.toNat * 2 ^ 16 + mseq % 2 ^ 16) ++
    beBytes 8 p.tb ++ beBytes 4 (pad * 2 ^ 24 + p.soff.toNat)
  let body := p.body ++ List.replicate pad 0
  let crc := crc32c (hd ++ [0, 0, 0, 0] ++ body)
  hd ++ beBytes 4 crc.toNat ++ body

/-- A received packet that has passed every check. -/
structure RxPkt where
  type : Nat
  tc   : Nat
  src  : Nat
  flow : Nat
  soff : Nat
  tb   : Nat
  body : List Byte

/-- Serial-number comparison: how far `a` lies above `b` modulo 2^w. -/
def ahead (w a b : Nat) : Nat := (a + 2 ^ w - b % 2 ^ w) % 2 ^ w

/-- The duplicate rule of R376: the new receive record when the packet is accepted. -/
def rxAccept (old : Option RxSeq) (mseq tb : Nat) (fresh : Bool) : Option RxSeq :=
  let start : RxSeq := { h := BitVec.ofNat 16 mseq, mask := 1, tb := tb }
  match old with
  | none => some start
  | some r =>
    let up := ahead 16 mseq r.h.toNat
    if 1 ≤ up ∧ up ≤ 32767 then
      some { h := BitVec.ofNat 16 mseq, mask := (if up ≥ 64 then 0 else r.mask <<< up) ||| 1, tb := max r.tb tb }
    else
      let dn := ahead 16 r.h.toNat mseq
      if dn ≤ 63 ∧ !r.mask.getLsbD dn then some { r with mask := r.mask ||| BitVec.ofNat 64 (2 ^ dn), tb := max r.tb tb }
      else if fresh && decide (tb > r.tb) then some start
      else none

/-- Charge an error to the fabric link entity of a port 0–63 (R374). -/
def chargePort (e : Env) (port : Nat) (h : Hub) : Hub :=
  chargeEnt e (ownId e h 8 port) { h with fab := { h.fab with charged := addAt h.fab.charged port 1 } }

/-- The checks on a received packet (R374, R376, R380, R381), with what they count. -/
def photenCheck (e : Env) (p : List Byte) (port : Nat) (h : Hub) : Hub × Option RxPkt :=
  let bad := fun (h : Hub) => { h with fab := { h.fab with bad := h.fab.bad + 1 } }
  if !(serving h || h.sys.st == .drowse) then (h, none)
  else if port ≥ 48 then (chargeEnt e (unitId e h 5) (bad h), none)
  else
    let fail := fun (h : Hub) => (chargePort e (16 + port) h, (none : Option RxPkt))
    let w0 := beAt p 0 4
    let len := bitsOf w0 16 8
    if len < 64 ∨ len > 256 ∨ len % 4 ≠ 0 ∨ p.length ≠ len then fail (bad h)
    else if (crc32c (p.take 28 ++ [0, 0, 0, 0] ++ p.drop 32)).toNat ≠ beAt p 28 4 then
      fail { h with fab := { h.fab with crc := h.fab.crc + 1 } }
    else if bitsOf w0 31 28 ≠ 1 ∨ bitsOf w0 27 24 > 5 ∨ bitsOf w0 19 17 ≠ 0 ∨ bitsOf w0 7 0 ≠ 0 ∨
        bitsOf (beAt p 4 4) 31 18 ≠ 0 ∨ bitsOf (beAt p 8 4) 31 18 ≠ 0 then fail (bad h)
    else if beAt p 4 4 ≠ nodeNo e h then fail (bad h)
    else if h.sys.st == .drowse && bitsOf w0 27 24 != 5 then
      ({ h with fab := { h.fab with drowse := h.fab.drowse + 1 } }, none)
    else
      let src := bitsOf (beAt p 8 4) 17 0
      let tc := bitsOf w0 23 22
      let tb := beAt p 16 8
      match rxAccept (Tab.find h.fab.rx (src * 4 + tc)) (bitsOf (beAt p 12 4) 15 0) tb (bitOf w0 20) with
      | none => ({ h with fab := { h.fab with dup := h.fab.dup + 1 } }, none)
      | some r =>
        let pad := beAt p 24 1
        ({ h with fab := { h.fab with rx := Tab.put h.fab.rx (src * 4 + tc) r, accepted := h.fab.accepted + 1 } },
          some { type := bitsOf w0 27 24, tc := tc, src := src, flow := bitsOf (beAt p 12 4) 31 16, soff := beAt p 25 3, tb := tb
                 body := (p.drop 32).take (len - 32 - pad) })

/-- Receive a packet and, when it is accepted and of the type wanted, do something with it. -/
def photenRx (e : Env) (want : Nat) (p : List Byte) (port : Nat) (f : RxPkt → Hub → Hub) (h : Hub) : Hub :=
  match photenCheck e p port h with
  | (h', some r) => if r.type = want then f r h' else h'
  | (h', none) => h'

/-! Sideband (R382–R397). -/

/-- A sideband port. -/
def sbPort (h : Hub) (i : Nat) : Port := getAt h.sb.ports i {}
/-- Change a sideband port. -/
def onPort (i : Nat) (f : Port → Port) (h : Hub) : Hub := { h with sb := { h.sb with ports := setAt h.sb.ports i (f (sbPort h i)) } }

/-- The ports of this role (R382). -/
def sbPorts (e : Env) : List Nat := if e.tray then List.range 16 else List.range 4

/-- The sideband unit runs (Table 1.10). -/
def sbRuns (h : Hub) : Bool := alive h

/-- Directions of a route: 0 N, 1 E, 2 S, 3 W, hop 0 in bits [31:30] (Table 10.4). -/
def routeDirs (r : Route) : List Nat := (List.range r.nhops.toNat).map (fun i => bitsOf r.hops.toNat (31 - 2 * i) (30 - 2 * i))

/-- A route of directions. -/
def mkRoute (ds : List Nat) : Route :=
  { hops := BitVec.ofNat 32 (((ds.zipIdx).map (fun d => d.1 * 2 ^ (30 - 2 * d.2))).sum), nhops := BitVec.ofNat 5 ds.length }

/-- The die reached from a die in a direction, by the mesh map. -/
def meshStep (h : Hub) (d dir : Nat) : Option (Nat × Nat) :=
  match getAt (((imgOf h).mesh.dies.find? (fun p => p.1 = d)).map Prod.snd |>.getD []) dir .none with
  | .die n port => some (n.toNat, port.toNat)
  | _ => none

/-- The port of SB0–SB3 of a die that leads to a port of its tray. -/
def trayPortOf (h : Hub) (d : Nat) (tport : BitVec 4) : Option Nat :=
  let es := ((imgOf h).mesh.dies.find? (fun p => p.1 = d)).map Prod.snd |>.getD []
  (List.range 4).find? (fun i => match getAt es i .none with
    | .tray p => p == tport
    | _ => false)

/-- A die's upward route: the reverse of the route its tray sent, then the edge die's port to the tray (R391). -/
def upRoute (e : Env) (h : Hub) (p : BitVec 4 × Route) : Option Route :=
  let rev := (routeDirs p.2).reverse.map (fun d => (d + 2) % 4)
  let edge := rev.foldl (fun o d => o.bind (fun n => (meshStep h n d).map Prod.fst)) (some (dieNo e h))
  match edge.bind (fun n => trayPortOf h n p.1) with
  | some i => some (mkRoute (rev ++ [i]))
  | none => none

/-- Class order on a port (R387): timed frames, then TC0, then TC1. -/
def sbPrio (f : SbFrame) : Nat :=
  let t := f.ftype.toNat
  if t = 2 ∨ t = 3 ∨ t = 5 then 0 else if t = 4 ∨ t = 8 then 1 else 2

/-- Put a frame into a queue behind the frames of its own and earlier classes. -/
def sbInsert (f : SbFrame) (q : List SbFrame) : List SbFrame :=
  q.filter (fun g => decide (sbPrio g ≤ sbPrio f)) ++ [f] ++ q.filter (fun g => decide (sbPrio f < sbPrio g))

/-- Put a link-local frame on the line (R386). -/
def sbLocal (i : Nat) (f : SbFrame) (h : Hub) : Hub :=
  let p := sbPort h i
  let f := { f with lseq := 0, lack := p.rseq }
  onPort i (fun p => { p with last := some f }) { h with sb := { h.sb with txFrames := h.sb.txFrames + 1 } }

/-- Send the frames that wait on a port while the window of 16 has room (R386). -/
def sbPump : Nat → Nat → Hub → Hub
  | 0, _, h => h
  | n + 1, i, h =>
    let p := sbPort h i
    match p.queue with
    | [] => h
    | f :: t =>
      if p.unacked.length ≥ 16 ∨ p.state ≠ 2 ∨ p.dormant = true then h
      else
        let f := { f with lseq := p.lseq + 1, lack := p.rseq }
        sbPump n i (onPort i (fun p => { p with
          queue := t, lseq := p.lseq + 1, unacked := p.unacked ++ [f], last := some f
          ackDue := if p.unacked.isEmpty then some (nowNs h + 20000) else p.ackDue })
          { h with sb := { h.sb with txFrames := h.sb.txFrames + 1 } })

/-- Send a routed frame on a port; a port that is not UP makes it undeliverable (R389). In CONFIG the sideband carries
heartbeats only (Table 1.10). -/
def sbOut (i : Nat) (f : SbFrame) (h : Hub) : Hub :=
  if h.sys.st == .config && f.ftype != 4 then h else
  if (sbPort h i).state ≠ 2 ∨ (sbPort h i).dormant = true then { h with sb := { h.sb with undeliv := h.sb.undeliv + 1 } }
  else sbPump 16 i (onPort i (fun p => { p with queue := sbInsert f p.queue }) h)

/-- Bytes of a payload, for PLEN; payloads without a byte layout count as 0. -/
def sbLen : SbPayload → Nat
  | .command b => b.length
  | .reply b => b.length
  | .bcast b => b.length
  | _ => 0

/-- The part of a payload in one fragment. -/
def sbPart (p : SbPayload) (b : List Byte) : SbPayload :=
  match p with
  | .command _ => .command b
  | .reply _ => .reply b
  | .bcast _ => .bcast b
  | q => q

/-- The bytes of a payload that may be fragmented. -/
def sbBytes : SbPayload → List Byte
  | .command b => b
  | .reply b => b
  | .bcast b => b
  | _ => []

/-- A message as frames of at most 96 bytes, all with one MSEQ (R384). -/
def sbFragments (f : SbFrame) : List SbFrame :=
  let cs := chunksOf 96 (sbBytes f.payload)
  if cs.length ≤ 1 then [{ f with first := true, last := true, plen := BitVec.ofNat 8 (sbLen f.payload) }]
  else (cs.zipIdx).map (fun c => { f with
    first := decide (c.2 = 0), last := decide (c.2 + 1 = cs.length), plen := BitVec.ofNat 8 c.1.length
    payload := sbPart f.payload c.1 })

/-- The next message sequence number. -/
def sbNextMseq (h : Hub) : Hub := { h with sb := { h.sb with mseq := h.sb.mseq + 1 } }

/-- Send frames of a message along a route from this block: a die on ROUTE[0] with HOP = 1, a tray on TPORT with HOP = 0. -/
def sbAlong (e : Env) (r : Route) (tport : Nat) (f : SbFrame) (h : Hub) : Hub :=
  let f := { f with src := BitVec.ofNat 18 (nodeNo e h), route := r.hops, nhops := r.nhops, mseq := h.sb.mseq }
  (sbFragments f).foldl (fun h g =>
    if e.tray then sbOut tport { g with tport := BitVec.ofNat 4 tport, hop := 0 } h
    else sbOut (bitsOf r.hops.toNat 31 30) { g with hop := 1 } h) h

/-- Flood a message on every UP port (R390). -/
def sbFlood (e : Env) (f : SbFrame) (h : Hub) : Hub :=
  let f := { f with src := BitVec.ofNat 18 (nodeNo e h), flood := true, ttl := 16, mseq := h.sb.mseq }
  (sbFragments f).foldl (fun h g =>
    ((sbPorts e).filter (fun i => (sbPort h i).state == 2)).foldl (fun h i => sbOut i g h) h) h

/-- An upward route that is not held, or whose first port is DOWN (R390). -/
def routeDead (h : Hub) (r : Option Route) : Bool :=
  match r with
  | none => true
  | some r => (sbPort h (bitsOf r.hops.toNat 31 30)).state == 0

/-- A die sends a message upward (R389, R390): on the route named, true the alternate, or on the primary and else the alternate where none is
named; flooded when it is a HEARTBEAT or REPLY and the die holds no routes or both cross a DOWN port of its own. A route that is not held is
replaced by the other. DESIGN CHOICE (log 101). -/
def sbUp (e : Env) (alternate : Option Bool) (f : SbFrame) (h : Hub) : Hub :=
  let h := sbNextMseq h
  let p := h.sb.primary.bind (upRoute e h)
  let a := h.sb.alternate.bind (upRoute e h)
  if routeDead h p && routeDead h a then
    if f.ftype = 4 ∨ f.ftype = 7 then sbFlood e f h else { h with sb := { h.sb with undeliv := h.sb.undeliv + 1 } }
  else
    let r := match alternate with
      | none => if routeDead h p then a else p
      | some true => a.or p
      | some false => p.or a
    match r with
    | some r => sbAlong e r 0 f h
    | none => h

/-- A member die's record at the tray. -/
def member (h : Hub) (d : Nat) : Member := Tab.getD h.sb.members d {}
/-- Change a member die's record. -/
def onMember (d : Nat) (f : Member → Member) (h : Hub) : Hub :=
  { h with sb := { h.sb with members := Tab.put h.sb.members d (f (member h d)) } }

/-- A tray sends a message to a member die on its primary or alternate route (R388). -/
def sbDown (e : Env) (alternate : Bool) (die : Nat) (f : SbFrame) (h : Hub) : Hub :=
  let h := sbNextMseq h
  let m := member h die
  match (if alternate then m.alternate else m.primary) with
  | some (tp, r) => sbAlong e r tp.toNat f h
  | none => { h with sb := { h.sb with undeliv := h.sb.undeliv + 1 } }

/-- The dies of this tray under the mesh map. -/
def trayDies (h : Hub) : List Nat :=
  ((imgOf h).mesh.dies.map Prod.fst).filter (fun d => decide (d / 128 = (imgOf h).tray))

/-- Is a node number a member die of this tray-role block (R469)? -/
def memberDie (e : Env) (h : Hub) (n : Nat) : Bool :=
  e.tray && decide (n < 2 ^ 17) && decide (n / 128 = (imgOf h).tray) && (trayDies h).contains n

/-- Count a discarded frame against its port (R384). -/
def sbBad (e : Env) (i : Nat) (h : Hub) : Hub := chargePort e i { h with sb := { h.sb with crc := h.sb.crc + 1 } }

/-- Frames acknowledged up to LACK leave the window, and waiting frames follow (R386). -/
def sbLack (i : Nat) (lack : BitVec 8) (h : Hub) : Hub :=
  let p := sbPort h i
  let n := ahead 8 lack.toNat (match p.unacked with | f :: _ => (f.lseq - 1).toNat | [] => lack.toNat)
  if n = 0 ∨ n > p.unacked.length then h
  else
    let rest := p.unacked.drop n
    sbPump 16 i (onPort i (fun p => { p with
      unacked := rest, resent := 0, ackDue := if rest.isEmpty then none else some (nowNs h + 20000) }) h)

/-- Receive a frame on a port (R384, R386): discard a bad one, take its LACK, and accept a routed frame only in order,
acknowledging it with an ACK frame. True when the frame is to be acted on. -/
def sbRx (e : Env) (i : Nat) (f : SbFrame) (h : Hub) : Hub × Bool :=
  let p := sbPort h i
  if !sbRuns h || !(sbPorts e).contains i then (h, false)
  else
    let h := { h with sb := { h.sb with rxFrames := h.sb.rxFrames + 1 } }
    if f.bad || decide (f.plen.toNat > 96) || decide (f.ftype.toNat > 11) || decide (f.rsvd ≠ 0) ||
        decide (f.hop.toNat > 16) || decide (f.nhops.toNat > 16) then (sbBad e i h, false)
    else if f.ftype.toNat ≤ 3 then
      if p.state = 0 ∧ f.ftype ≠ 1 then (h, false) else (sbLack i f.lack h, true)
    else if p.state ≠ 2 then (h, false)
    else if h.sys.st == .config && f.ftype != 4 && f.ftype != 5 then (h, false)
    else
      let h := sbLack i f.lack h
      if f.lseq = p.rseq + 1 then
        (sbLocal i { ftype := 0 } (onPort i (fun p => { p with rseq := f.lseq }) h), true)
      else (sbLocal i { ftype := 0 } h, false)

/-- A flooded frame seen before, by SRC and MSEQ, among the last 256 (R390). -/
def floodSeen (f : SbFrame) (h : Hub) : Bool := h.sb.flooded.contains (f.src.toNat, f.mseq)

/-- Remember a flooded frame. -/
def noteFlood (f : SbFrame) (h : Hub) : Hub := { h with sb := { h.sb with flooded := ((f.src.toNat, f.mseq) :: h.sb.flooded).take 256 } }

/-- Act on an accepted frame of one type; a flooded one is acted on once (R390). -/
def sbOn (e : Env) (want : Nat) (i : Nat) (f : SbFrame) (act : Hub → Hub) (h : Hub) : Hub :=
  let r := sbRx e i f h
  if r.2 && decide (f.ftype.toNat = want) then
    if f.flood then (if floodSeen f r.1 then r.1 else act (noteFlood f r.1)) else act r.1
  else r.1

/-- The frame has reached its destination (R389, R390). -/
def sbMine (e : Env) (f : SbFrame) : Bool := if f.flood then e.tray else decide (f.hop = f.nhops)

/-- A message's bytes once its fragments are all here (R384); fragments held count 4 KiB at most. -/
def sbAssemble (f : SbFrame) (h : Hub) : Hub × Option (List Byte) :=
  let b := sbBytes f.payload
  if f.first && f.last then (h, some b)
  else
    let key := fun (r : Reasm) => decide (r.src = f.src.toNat) && decide (r.mseq = f.mseq)
    let others := h.sb.reasm.filter (fun r => !key r)
    match h.sb.reasm.find? key, f.first with
    | _, true =>
      let r : Reasm := { src := f.src.toNat, mseq := f.mseq, first := nowNs h, bytes := b }
      ({ h with sb := { h.sb with reasm := others ++ [r] } }, none)
    | none, false => (h, none)
    | some r, false =>
      let all := r.bytes ++ b
      if all.length > 4096 then ({ h with sb := { h.sb with reasm := others, crc := h.sb.crc + 1 } }, none)
      else if f.last then ({ h with sb := { h.sb with reasm := others } }, some all)
      else ({ h with sb := { h.sb with reasm := others ++ [{ r with bytes := all }] } }, none)

/-! Management port (R413–R455). -/

/-- A segment. -/
def seg (h : Hub) (b : Bool) : Segment := if b then h.mgt.b else h.mgt.a
/-- Change a segment. -/
def onSeg (b : Bool) (f : Segment → Segment) (h : Hub) : Hub :=
  if b then { h with mgt := { h.mgt with b := f h.mgt.b } } else { h with mgt := { h.mgt with a := f h.mgt.a } }

/-- A field of a segment's MGT_SEGCFG. -/
def segField (s : Segment) (hi lo : Nat) : Nat := bitsOf s.cfg.toNat hi lo

/-- The management port runs: tray role, in a state where Table 1.10 runs it. -/
def mgtRuns (e : Env) (h : Hub) : Bool := e.tray && alive h

/-- Capacity of an egress queue in bytes (Table 11.9). -/
def egressCap (cls : Nat) : Nat := getAt [2048, 8192, 16384, 32768] cls 0

/-- Put a frame into a class queue of a segment. A TC3 frame that meets a full queue is discarded and counted; a TC0–TC2
frame waits behind the queue with its producer (R427). -/
def mgtQueue (b : Bool) (cls : Nat) (f : Frame) (h : Hub) : Hub :=
  let q := getAt (seg h b).queues cls []
  if cls = 3 ∧ (q.map Frame.bytes).sum + f.bytes > egressCap cls then { h with mgt := { h.mgt with dropped := h.mgt.dropped + 1 } }
  else onSeg b (fun s => { s with queues := setAt s.queues cls (q ++ [f]) }) h

/-- Queue a datagram's payload for the segments of R426: TC0 on every UP segment; a reply on the segment that carried the
command while that segment is UP; otherwise the active segment. -/
def mgtSend (cls : Nat) (only : Option Bool) (payload : List Byte) (h : Hub) : Hub :=
  let f : Frame := { bytes := max 64 (14 + 40 + 8 + payload.length + 4), body := payload }
  let up := fun b => (seg h b).state == 2
  if cls = 0 then
    if up false || up true then
      let h := if up false then mgtQueue false 0 f h else h
      if up true then mgtQueue true 0 f h else h
    else mgtQueue h.mgt.active 0 f h
  else match only with
    | some b => mgtQueue (if up b then b else h.mgt.active) cls f h
    | none => mgtQueue h.mgt.active cls f h

/-- An envelope (Table 11.5) under a key slot, numbered with the slot's transmit SEQ (R435). -/
def envelope (slot tc kind src : Nat) (packet : List Byte) (k : KeySlot) : List Byte :=
  let hd := beBytes 4 (2 ^ 28 + tc * 2 ^ 26 + kind * 2 ^ 24 + slot * 2 ^ 16 + packet.length) ++ beBytes 8 k.txSeq.toNat ++ beBytes 4 src
  let m := hd ++ packet
  m ++ beBytes 16 (aesCmac k.key m).toNat

/-- Send a reply under a key slot on the segment that carried the command, in TC1. -/
def mgtReply (e : Env) (slot : Nat) (b : Bool) (packet : List Byte) (h : Hub) : Hub :=
  match Tab.find h.cmd.keys slot with
  | none => h
  | some k =>
    mgtSend 1 (some b) (envelope slot 1 1 (nodeNo e h) packet k)
      { h with cmd := { h.cmd with keys := Tab.put h.cmd.keys slot { k with txSeq := k.txSeq + 1 } } }

end Sys2Proof.Machine
end

