-- ==== Sys2Proof/Machine/Operands.lean ====
section
/-!
DEFINITION. The forms of a command's operands: parameter words, 64-bit values, setting records, masks (R474, R475, R641),
the entity rules a command's words are held to (R15, R16, R480), and the bytes of packets and replies (R456, R457).
-/
namespace Sys2Proof.Machine

/-- Status codes (Table 12.8). -/
def stOk : Nat := 0x0000
/-- ACCEPTED -/
def stAccepted : Nat := 0x0001
/-- BAD_OPCODE -/
def stBadOpcode : Nat := 0x0101
/-- BAD_LENGTH -/
def stBadLength : Nat := 0x0102
/-- BAD_PARAM -/
def stBadParam : Nat := 0x0103
/-- NOT_PERMITTED -/
def stNotPermitted : Nat := 0x0104
/-- AUTH_FAIL -/
def stAuthFail : Nat := 0x0105
/-- REPLAY -/
def stReplay : Nat := 0x0106
/-- BUSY -/
def stBusy : Nat := 0x0107
/-- WRONG_STATE -/
def stWrongState : Nat := 0x0108
/-- NO_SPACE -/
def stNoSpace : Nat := 0x0109
/-- TIMEOUT -/
def stTimeout : Nat := 0x010A
/-- NOT_FOUND -/
def stNotFound : Nat := 0x010B
/-- CRC_FAIL -/
def stCrcFail : Nat := 0x010C

/-- A command that has passed step 8: its requester, domain, job of a TENANT, sequence number and parameter words. -/
structure Ctx where
  req   : Requester
  dom   : Domain
  job   : Option (BitVec 16)
  cseq  : Word
  words : List Word

/-- Parameter word `n`, counted from 1 (R475). -/
def Ctx.w (c : Ctx) (n : Nat) : Word := getAt c.words (n - 1) 0
/-- Parameter word as a number. -/
def Ctx.n (c : Ctx) (n : Nat) : Nat := (c.w n).toNat
/-- A 64-bit parameter that starts at word `n`, high word first. -/
def Ctx.d (c : Ctx) (n : Nat) : Nat := c.n n * 2 ^ 32 + c.n (n + 1)
/-- The words from word `n` on. -/
def Ctx.from_ (c : Ctx) (n : Nat) : List Word := c.words.drop (n - 1)
/-- The command comes from a TENANT. -/
def Ctx.tenant (c : Ctx) : Bool := c.dom == .tenant

/-- Code of a domain (Table 12.9). -/
def domCode : Domain → Nat
  | .boot => 0
  | .fleet => 1
  | .tenant => 2
  | .debug => 3

/-- Domain of a code. -/
def domOf (n : Nat) : Domain := if n % 4 = 0 then .boot else if n % 4 = 1 then .fleet else if n % 4 = 2 then .tenant else .debug

/-- FLEET, or BOOT which may issue what FLEET may (R473). -/
def fleetDom (c : Ctx) : Bool := c.dom == .fleet || c.dom == .boot
/-- FLEET or DEBUG. -/
def fleetDebug (c : Ctx) : Bool := fleetDom c || c.dom == .debug
/-- FLEET or TENANT. -/
def fleetTenant (c : Ctx) : Bool := fleetDom c || c.dom == .tenant
/-- FLEET, DEBUG or TENANT. -/
def anyDom (_ : Ctx) : Bool := true
/-- The requester is a register window channel. -/
def fromChannel (c : Ctx) : Bool := match c.req with | .channel _ => true | _ => false

/-- A one-word value. -/
def one : List Word → Option Nat
  | [a] => some a.toNat
  | _ => none
/-- A two-word value, high word first. -/
def two : List Word → Option Nat
  | [a, b] => some (a.toNat * 2 ^ 32 + b.toNat)
  | _ => none
/-- A value within a range. -/
def within (lo hi : Nat) (v : Option Nat) : Option Nat := v.bind (fun n => if lo ≤ n ∧ n ≤ hi then some n else none)
/-- A one-word signed value. -/
def oneS : List Word → Option Int
  | [a] => some (signed 32 a.toNat)
  | _ => none
/-- A signed value within a range. -/
def withinS (lo hi : Int) (v : Option Int) : Option Int := v.bind (fun n => if lo ≤ n ∧ n ≤ hi then some n else none)

/-- Fold setting records over a value (R475): left is the word number of the first invalid record. -/
def foldSet {α : Type} (ap : Nat → List Word → α → Option α) : Nat → Nat → List Word → List Nat → α → Sum Nat α
  | 0, pos, ws, _, a => if ws.isEmpty then .inr a else .inl pos
  | f + 1, pos, ws, seen, a =>
    match ws with
    | [] => .inr a
    | w :: t =>
      let num := bitsOf w.toNat 31 16
      let cnt := bitsOf w.toNat 15 8
      if bitsOf w.toNat 7 0 ≠ 0 ∨ t.length < cnt ∨ seen.contains num then .inl pos
      else match ap num (t.take cnt) a with
        | none => .inl pos
        | some b => foldSet ap f (pos + 1 + cnt) (t.drop cnt) (num :: seen) b

/-- The setting records from word `n` of a command. -/
def Ctx.settings {α : Type} (c : Ctx) (n : Nat) (ap : Nat → List Word → α → Option α) (a : α) : Sum Nat α :=
  foldSet ap (c.from_ n).length n (c.from_ n) [] a

/-- The DETAIL of a settings check: none when every record is valid. -/
def badSet {α : Type} : Sum Nat α → Option Nat
  | .inl n => some n
  | .inr _ => none

/-- The value that valid settings leave. -/
def setOr {α : Type} (d : α) : Sum Nat α → α
  | .inl _ => d
  | .inr a => a

/-- First failing check of a list of (word number, holds). -/
def firstBad (l : List (Nat × Bool)) : Option Nat := (l.find? (fun p => !p.2)).map Prod.fst

/-- An operation word (R474): the code in [7:0], zeros above. -/
def opWord (n : Nat) : Word := BitVec.ofNat 32 n

/-- The command with its operation word put in front. -/
def withOp (n : Nat) (c : Cmd) : Cmd := { c with params := opWord n :: c.params }

/-! Jobs, members and visibility (R408–R410, R478, R480). -/

/-- A job in force. -/
def jobAt (h : Hub) (j : BitVec 16) : Option Job := Tab.find h.jobs.table j.toNat
/-- The dies of a job. -/
def jobDies (h : Hub) (j : BitVec 16) : List JobDie := ((jobAt h j).map Job.dies).getD []
/-- A die is listed in a job. -/
def inJob (h : Hub) (j : BitVec 16) (d : Nat) : Bool := (jobDies h j).any (fun x => decide (x.die = d))
/-- The job that lists a die, if any. -/
def jobOfDie (h : Hub) (d : Nat) : Option (BitVec 16) :=
  (h.jobs.table.find? (fun p => p.2.dies.any (fun x => decide (x.die = d)))).map (fun p => BitVec.ofNat 16 p.1)

/-- The scoring group as a reduction group (R302): its members are trays, each standing for the first die number of its tray,
and its first member is the root. -/
def scoringGroup (s : Scoring) : Group := { root := s.members.headD 0, dies := s.members.map (· * 128) }

/-- A reduction group (R221): the fleet group of the image for handle 0, a job's group, or the scoring group of the image. -/
def groupOf (h : Hub) (g : Nat) : Option Group :=
  if g = 0 then some (imgOf h).fleet
  else match h.jobs.table.find? (fun p => decide (p.2.group.toNat = g)) with
    | some p => some { job := some (BitVec.ofNat 16 p.1), root := p.2.root, combiners := p.2.combiners, dies := p.2.dies.map JobDie.die }
    | none => ((imgOf h).scoring.filter (fun s => decide (s.handle = g))).map scoringGroup

/-- The handle is the scoring group's, and no job's. -/
def isScoring (h : Hub) (g : Nat) : Bool :=
  decide (g ≠ 0) && !h.jobs.table.any (fun p => decide (p.2.group.toNat = g)) && (imgOf h).scoring.any (fun s => decide (s.handle = g))

/-- A reduction group is visible to a job: it belongs to it (R241, R480). -/
def groupSeen (h : Hub) (j : Option (BitVec 16)) (g : Nat) : Bool :=
  match j with
  | none => false
  | some j => match groupOf h g with
    | some gr => decide (gr.job = some j)
    | none => false

/-- An entity is visible to a TENANT's job (Table 12.10): a core or die listed in the job, a replica or the job itself. -/
def entSeen (h : Hub) (j : Option (BitVec 16)) (x : Word) : Bool :=
  match j with
  | none => false
  | some j =>
    match kindOf x with
    | 0 => inJob h j (dieOf x)
    | 3 => inJob h j (dieOf x)
    | 9 => decide (bitsOf x.toNat 23 8 = j.toNat)
    | 10 => decide (bitsOf x.toNat 15 0 = j.toNat)
    | _ => false

/-- A unit entity's unit is held by its node's role (R16, Table 17.3): CELL, DIG and RES exist in die role only. -/
def unitHere (x : Word) : Bool := !(kindOf x == 11 && bitOf x.toNat 10 && [16, 28, 32].contains (bitsOf x.toNat 7 0))

/-! Bytes of packets and replies. -/

/-- A command packet's bytes (Table 12.1). -/
def cmdBytes (opcode : Nat) (c : Cmd) : List Byte :=
  let b := beBytes 4 (2 ^ 28 + b2n c.order * 2 ^ 25 + opcode * 2 ^ 16 + c.params.length) ++ beBytes 4 c.cseq.toNat ++
    beBytes 4 c.target.toNat ++ wordsBytes c.params
  b ++ beBytes 4 (crc32c b).toNat

/-- A reply's or notice's bytes (Table 12.2). -/
def replyBytes (r : Reply) : List Byte :=
  let kind := if r.notice then 2 else 1
  let b := beBytes 4 (2 ^ 28 + kind * 2 ^ 26 + r.opcode.toNat * 2 ^ 16 + r.result.length) ++ beBytes 4 r.cseq.toNat ++
    beBytes 4 (r.status.toNat * 2 ^ 16 + r.domain.toNat * 2 ^ 14 + r.detail % 2 ^ 14) ++ beBytes 8 r.tb.toNat ++ wordsBytes r.result
  b ++ beBytes 4 (crc32c b).toNat

/-- A reply read back from its bytes. -/
def readReply (b : List Byte) : Reply :=
  { notice := decide (bitsOf (beAt b 0 4) 27 26 = 2), opcode := BitVec.ofNat 8 (bitsOf (beAt b 0 4) 23 16)
    cseq := BitVec.ofNat 32 (beAt b 4 4), status := BitVec.ofNat 16 (beAt b 8 2)
    domain := BitVec.ofNat 2 (bitsOf (beAt b 8 4) 15 14), detail := bitsOf (beAt b 8 4) 13 0
    tb := BitVec.ofNat 64 (beAt b 12 8), result := bytesWords ((b.drop 20).take (4 * bitsOf (beAt b 0 4) 15 0)) }

end Sys2Proof.Machine
end

