-- ==== Sys2Proof/Machine/Flags.lean ====
section
/-!
DEFINITION. Interrupt lines, write-one-to-clear status bits, and the events of a command channel (R10, R467, R468, R540, R620).
-/
namespace Sys2Proof.Machine

/-- Write-one-to-clear: each 1 clears its bit (R8). -/
def w1c {w : Nat} (v bits : BitVec w) : BitVec w := v &&& ~~~bits

/-- Write-one-to-clear of bits that the block also sets: a bit set in the same CK_CTL cycle stays set (R10). The commands that wait between
two idle steps share a cycle (log 9). -/
def w1cSet {w : Nat} (v set bits : BitVec w) : BitVec w := v &&& ~~~(bits &&& ~~~set)

/-- HUB_IRQ: some HUB_IRQSTAT bit is set and enabled (R620). -/
def hubIrqLine (h : Hub) : Bool := decide (h.regs.irqstat &&& h.regs.irqen ≠ 0)

/-- DMA_IRQ: some DMA_IRQSTAT bit is set (R540). -/
def dmaIrqLine (h : Hub) : Bool := decide (h.dma.irqstat ≠ 0)

/-- A command channel. -/
def chan (h : Hub) (c : Nat) : Channel := getAt h.cmd.chans c {}
/-- Change a command channel. -/
def onChan (c : Nat) (f : Channel → Channel) (h : Hub) : Hub := { h with cmd := { h.cmd with chans := setAt h.cmd.chans c (f (chan h c)) } }

/-- CMD_IRQc: REPLY, NOTICE or ERR set and enabled (Table 12.4). -/
def cmdIrqLine (h : Hub) (c : Nat) : Bool := decide ((chan h c).event &&& (chan h c).irqen.setWidth 3 ≠ 0)

/-- A channel accepts packets: channel 0 before PROT_LOCK, an enabled channel after it (R477, R624). -/
def chanOn (h : Hub) (c : Nat) : Bool := if h.prot.locked then (chan h c).enabled else decide (c = 0)

/-- Place a reply or notice in a free reply buffer, and set REPLY or NOTICE (R468). -/
def chanFill (r : Reply) (ch : Channel) : Channel :=
  let b : BitVec 3 := if r.notice then 2 else 1
  { ch with rbuf := some r, event := ch.event ||| b, fresh := ch.fresh ||| b }

/-- The next waiting reply or notice goes into the reply buffer once REPLY and NOTICE are clear (R468). -/
def chanNext (ch : Channel) : Channel :=
  if ch.event &&& 3 ≠ 0 then ch else
    match ch.waiting with
    | [] => { ch with rbuf := none }
    | r :: t => chanFill r { ch with waiting := t }

/-- Deliver a reply or notice to a channel (R468): into the buffer, behind at most 32 waiting, or lost and recorded. -/
def chanPut (c : Nat) (r : Reply) (h : Hub) : Hub :=
  let ch := chan h c
  if !chanOn h c then h
  else if ch.rbuf.isNone then onChan c (chanFill r) h
  else if ch.waiting.length ≥ 32 then emitUnit 2 noEnt 1 [w32 c, r.cseq] h
  else onChan c (fun ch => { ch with waiting := ch.waiting ++ [r] }) h

/-- Send a notice to every enabled channel whose NOTICES bit is set; one that no channel takes is recorded (R468). -/
def sendNotice (opcode : Nat) (words : List Word) (h : Hub) : Hub :=
  let n : Reply := {
    notice := true, opcode := BitVec.ofNat 8 opcode, cseq := h.cmd.notice + 1, status := 0, domain := 0, detail := 0
    tb := BitVec.ofNat 64 (nowNs h), result := words }
  let h := { h with cmd := { h.cmd with notice := h.cmd.notice + 1 } }
  let cs := (List.range 4).filter (fun c => chanOn h c && (chan h c).irqen.getLsbD 3)
  if cs.isEmpty then emitUnit 3 noEnt 1 [w32 opcode, n.cseq] h else cs.foldl (fun h c => chanPut c n h) h

end Sys2Proof.Machine
end

