-- ==== Sys2Proof/Machine/CmdOps.lean ====
section
/-!
DEFINITION. The command interpreter: the ordered checks of Table 12.3, sequencing and stored replies, replies, commands in
progress, and relays (R456–R472, R638).
-/
namespace Sys2Proof.Machine

/-- What executing a command answers at step 14: a status with DETAIL, results and the changed hub; or a reply that comes
later, with the change that starts the work, given the number of the command in progress. -/
inductive Ans where
  | done (status detail : Nat) (res : List Word) (h : Hub)
  | later (due : Option Nat) (f : Nat → Hub → Hub)

/-- What defines an opcode, or one operation of it: its code, whether it changes a setting or an entity, and its part in
steps 7, 10, 11, 12, 13 and 14 of Table 12.3. `see` and `range` give the DETAIL of a failure. -/
structure OpDef where
  code    : Nat
  changes : Bool := false
  may     : Ctx → Bool
  runs    : Env → Hub → Bool := fun _ _ => true
  form    : Ctx → Bool
  see     : Env → Hub → Ctx → Option Nat := fun _ _ _ => none
  range   : Env → Hub → Ctx → Option Nat := fun _ _ _ => none
  act     : Env → Hub → Ctx → Ans

/-- A plain answer with OK. -/
def ok (res : List Word) (h : Hub) : Ans := .done stOk 0 res h
/-- Something that crosses into a host region now waits for its stopped clock (R47). -/
def crossWaits (h0 h : Hub) : Bool := (List.range 8).any (fun r => decide ((region h0 r).waitCfg.length < (region h r).waitCfg.length))
/-- The reply of a command that may reach into host regions: ACCEPTED where an effect of it waits for a stopped clock (R47). -/
def okCross (h0 : Hub) (res : List Word) (h : Hub) : Ans := .done (if crossWaits h0 h then stAccepted else stOk) 0 res h
/-- A refusal at step 14: nothing changes. -/
def refuse (st : Nat) (h : Hub) (det : Nat := 0) : Ans := .done st det [] h

/-- Opcode classes that CONFIG and PLAYA admit (R638). -/
def admitted (code : Nat) (h : Hub) : Bool :=
  let sys := [0x00, 0x01, 0x02, 0xF0, 0xF1].contains code
  let boot := [0xC0, 0xC1, 0xC2].contains code
  match h.sys.st with
  | .config => sys || boot
  | .playa => sys || boot || [0x10, 0x11, 0x12, 0xA0, 0xA1].contains code
  | .serving => true
  | .drowse => true
  | _ => false

/-- Die role only (R638). -/
def dieOnly (e : Env) (_ : Hub) : Bool := !e.tray
/-- Die role, and not in DROWSE, where the unit is idle (Table 1.10). -/
def dieServing (e : Env) (h : Hub) : Bool := !e.tray && serving h

/-! Requesters and sequencing. -/

/-- The key of a requester's sequence state. -/
def reqKey : Requester → Option Nat
  | .channel c => some c.toNat
  | .key k _ => some (16 + k.toNat)
  | .relay o _ _ _ => some (32 + o.toNat)
  | .broadcast => none

/-- Two packets come from one requester: the channel, the key slot or the relay origin (Table 12.5); a broadcast has none. -/
def sameReq (a b : Requester) : Bool := (reqKey a).any (fun k => decide (reqKey b = some k))

/-- A requester as a record word. -/
def reqWord (r : Requester) : Word := match reqKey r with | some n => w32 n | none => noEnt

/-- The job a channel's or slot's TENANT is bound to (R478). -/
def chanJob (e : Env) (h : Hub) (c : Nat) : Option (BitVec 16) :=
  if (chan h c).follow then (if e.tray then none else jobOfDie h (dieNo e h)) else some (chan h c).job

/-- Domain and job of a requester whose packets reach the interpreter; none when they do not (Table 12.5). -/
def reqDom (e : Env) (h : Hub) (r : Requester) : Option (Domain × Option (BitVec 16)) :=
  match r with
  | .channel c =>
    if !portOn h || !chanOn h c.toNat then none
    else if !h.prot.locked then some (.boot, none)
    else
      let d := domOf (chan h c.toNat).domain.toNat
      some (d, if d == .tenant then chanJob e h c.toNat else none)
  | .key k _ =>
    if !mgtRuns e h || h.sys.st == .config then none
    else (Tab.find h.cmd.keys k.toNat).map (fun s =>
      let d := domOf s.domain.toNat
      (d, if d == .tenant then some s.job else none))
  | .relay o d j _ =>
    if e.tray || !(alive h || h.sys.st == .flush) || decide (o.toNat > 11) || d == .boot then none
    else some (d, if d == .tenant then some j else none)
  | .broadcast => if alive h then some (.fleet, none) else none

/-- What step 8 finds of a CSEQ (R461). -/
inductive SeqCheck where
  | pass | replay | stored (r : Option Reply)

/-- Step 8 (R461). -/
def seqCheck (s : SeqState) (q : Word) : SeqCheck :=
  if q = 0 then .pass
  else
    let up := ahead 32 q.toNat s.h.toNat
    if 1 ≤ up ∧ up ≤ 2 ^ 31 - 1 then .pass
    else if ahead 32 s.h.toNat q.toNat ≤ 15 then
      match s.stored.find? (fun p => p.1 = q) with
      | some p => .stored p.2
      | none => .pass
    else .replay

/-- A CSEQ consumed: H rises to it, and what lies below H − 15 is forgotten (R461, R483). -/
def seqConsume (s : SeqState) (q : Word) (r : Option Reply) : SeqState :=
  if q = 0 then s
  else
    let up := ahead 32 q.toNat s.h.toNat
    let h' := if 1 ≤ up ∧ up ≤ 2 ^ 31 - 1 then q else s.h
    let l := (q, r) :: s.stored.filter (fun p => decide (p.1 ≠ q))
    { h := h', stored := l.filter (fun p => decide (ahead 32 h'.toNat p.1.toNat ≤ 15)) }

/-- A requester's sequence state. -/
def seqOf (h : Hub) (r : Requester) : SeqState := match reqKey r with | some k => Tab.getD h.cmd.seqs k {} | none => {}
/-- Change a requester's sequence state. -/
def onSeq (r : Requester) (f : SeqState → SeqState) (h : Hub) : Hub :=
  match reqKey r with
  | some k => { h with cmd := { h.cmd with seqs := Tab.put h.cmd.seqs k (f (Tab.getD h.cmd.seqs k {})) } }
  | none => h

/-! Replies. -/

/-- The COMMAND record (Table 15.2): opcode, requester, domain, CSEQ, status. -/
def cmdRecord (code : Nat) (req : Requester) (dom : Nat) (cseq : Word) (st : Nat) (h : Hub) : Hub :=
  emit 6 0 0 noEnt 1 code [w32 code, reqWord req, w32 dom, cseq, w32 st] h

/-- The relay header's RID word and the reply, as a REPLY message (Table 12.7). -/
def relayReply (o : BitVec 4) (dom : Domain) (job : BitVec 16) (rid : BitVec 24) (r : Reply) : List Byte :=
  beBytes 4 (domCode dom * 2 ^ 30 + job.toNat) ++ beBytes 4 (o.toNat * 2 ^ 24 + rid.toNat) ++ replyBytes r

/-- Send a reply to its requester over the transport it came by; a broadcast's goes to the member's record (R472). -/
def sendReply (e : Env) (req : Requester) (r : Reply) (h : Hub) : Hub :=
  match req with
  | .channel c => chanPut c.toNat r h
  | .key k s => mgtReply e k.toNat s (replyBytes r) h
  | .relay o d j rid => sbUp e none { ftype := 7, payload := .reply (relayReply o d j rid r) } h
  | .broadcast => cmdRecord r.opcode.toNat .broadcast 1 r.cseq r.status.toNat h

/-- A reply formed now. -/
def mkReply (code : Nat) (cseq : Word) (st dom det : Nat) (res : List Word) (h : Hub) : Reply :=
  { opcode := BitVec.ofNat 8 code, cseq := cseq, status := BitVec.ofNat 16 st, domain := BitVec.ofNat 2 dom, detail := det
    tb := BitVec.ofNat 64 (nowNs h), result := res }

/-- Reply without storing: a refusal before step 8, or BUSY (R462). -/
def replyOnly (e : Env) (code : Nat) (c : Ctx) (st : Nat) (h : Hub) : Hub :=
  sendReply e c.req (mkReply code c.cseq st (domCode c.dom) 0 [] h) h

/-- Reply and store it against the CSEQ (R462). -/
def answer (e : Env) (code : Nat) (changes : Bool) (c : Ctx) (st det : Nat) (res : List Word) (h : Hub) : Hub :=
  let r := mkReply code c.cseq st (domCode c.dom) det res h
  let h := if changes && decide (st ≤ 1) && decide (c.req ≠ .broadcast) then cmdRecord code c.req (domCode c.dom) c.cseq st h else h
  sendReply e c.req r (if c.cseq = 0 then h else onSeq c.req (fun s => seqConsume s c.cseq (some r)) h)

/-- Commands in progress (R464). -/
def inProgress (h : Hub) : Nat := h.cmd.pends.length + h.cmd.held.length

/-- Steps 10 to 14 (Table 12.3). `h0` is the hub before the CSEQ was consumed. -/
def startCmd (d : OpDef) (e : Env) (c : Ctx) (h0 h : Hub) : Hub :=
  if !(admitted d.code h && d.runs e h) then answer e d.code d.changes c stWrongState 0 [] h
  else if !d.form c then answer e d.code d.changes c stBadLength 0 [] h
  else match d.see e h c with
    | some n => answer e d.code d.changes c stNotPermitted n [] h
    | none => match d.range e h c with
      | some n => answer e d.code d.changes c stBadParam n [] h
      | none => match d.act e h c with
        | .done st det res h' => if st = stBusy then replyOnly e d.code c stBusy h0 else answer e d.code d.changes c st det res h'
        | .later due f =>
          let id := h.cmd.nextId
          let p : Pend := {
            id := id, opcode := BitVec.ofNat 8 d.code, req := c.req, cseq := c.cseq
            domain := BitVec.ofNat 2 (domCode c.dom), job := c.job, due := due }
          f id { h with cmd := { h.cmd with pends := h.cmd.pends ++ [p], nextId := id + 1 } }

/-- The words of a command with its requester's domain. -/
def mkCtx (c : Cmd) (dj : Domain × Option (BitVec 16)) : Ctx :=
  { req := c.req, dom := dj.1, job := dj.2, cseq := c.cseq, words := c.params }

/-- The origin code of a relayed command (Table 12.7). -/
def originOf : Requester → Nat
  | .key k _ => k.toNat
  | .channel c => 8 + c.toNat
  | _ => 0

/-- Relay a command to a member die after step 7 (R469, R470): at most 64 in progress. -/
def relayCmd (e : Env) (code : Nat) (c : Cmd) (x : Ctx) (die : Nat) (h : Hub) : Hub :=
  if h.cmd.relays.length ≥ 64 then replyOnly e code x stBusy h
  else
    let rid := if h.cmd.rid + 1 = 0 then 1 else h.cmd.rid + 1
    let r : Relay := {
      rid := rid, die := die, req := c.req, opcode := BitVec.ofNat 8 code, cseq := c.cseq
      domain := BitVec.ofNat 2 (domCode x.dom), due := nowNs h + h.cmd.relayTimeout }
    let hd := beBytes 4 (domCode x.dom * 2 ^ 30 + ((x.job.getD 0)).toNat) ++ beBytes 4 (originOf c.req * 2 ^ 24 + rid.toNat)
    sbDown e false die { ftype := 6, payload := .command (hd ++ cmdBytes code c) }
      { h with cmd := { h.cmd with rid := rid, relays := h.cmd.relays ++ [r] } }

/-- A command that must wait for earlier commands of its requester (R465): ORDER is set and one of them has not replied, or
one waits before it. -/
def mustWait (c : Cmd) (h : Hub) : Bool :=
  (c.order && h.cmd.pends.any (fun p => sameReq p.req c.req)) || h.cmd.held.any (fun x => sameReq x.cmd.req c.req)

/-- Steps 8 and 9, and the start or the wait of a command for this block. -/
def acceptCmd (d : OpDef) (e : Env) (c : Cmd) (x : Ctx) (h : Hub) : Hub :=
  match seqCheck (seqOf h c.req) c.cseq with
  | .replay => replyOnly e d.code x stReplay h
  | .stored none => h
  | .stored (some r) => sendReply e c.req r h
  | .pass =>
    if h.sys.st == .flush || decide (inProgress h ≥ 32) then replyOnly e d.code x stBusy h
    else
      let h1 := onSeq c.req (fun s => seqConsume s c.cseq none) h
      if mustWait c h then
        { h1 with cmd := { h1.cmd with held := h1.cmd.held ++ [{ opcode := BitVec.ofNat 8 d.code, cmd := c }] } }
      else startCmd d e x h h1

/-- A command packet from step 6 on (Table 12.3): the target, the domain, then this block's execution or the relay. A packet
of a disabled channel is never taken: the doorbell write is ignored and recorded (R625). A TENANT channel that is bound to no
job fails step 7 (R478), and so does a BOOT command to a member die (Table 12.7). -/
def runCmd (d : OpDef) (e : Env) (c : Cmd) (h : Hub) : Hub :=
  match reqDom e h c.req with
  | none => match c.req with
    | .channel ch =>
      if portOn h then refusedWrite 1 (0x1000 * ch.toNat + 8) (BitVec.ofNat 64 (16 + 4 * c.params.length)) h else h
    | _ => h
  | some dj =>
    let x := mkCtx c dj
    let own := decide (c.target = 0x3FFFF) || decide (c.target.toNat = nodeNo e h)
    let mem := memberDie e h c.target.toNat
    if c.params.length > 348 then replyOnly e d.code x stBadLength h
    else if !own && !mem then replyOnly e d.code x stNotFound h
    else if !d.may x || (x.dom == .tenant && x.job.isNone) then replyOnly e d.code x stNotPermitted h
    else if own then acceptCmd d e c x h
    else if x.dom == .boot then replyOnly e d.code x stNotPermitted h
    else relayCmd e d.code c x c.target.toNat h

/-- Opcodes whose commands in progress change a setting or an entity when they complete. -/
def laterChanges (code : Nat) : Bool := [0x01, 0x60, 0xB0, 0xB1, 0xC1].contains code

/-- A command in progress completes (R462, R481): its reply is stored and sent; a TENANT's named object must still be
visible. -/
def finish (e : Env) (id : Nat) (st det : Nat) (res : List Word) (seen : Bool) (h : Hub) : Hub :=
  match h.cmd.pends.find? (fun p => p.id = id) with
  | none => h
  | some p =>
    let h := { h with cmd := { h.cmd with pends := h.cmd.pends.filter (fun q => decide (q.id ≠ id)) } }
    let c : Ctx := { req := p.req, dom := domOf p.domain.toNat, job := p.job, cseq := p.cseq, words := [] }
    let code := p.opcode.toNat
    if st = stBusy then
      replyOnly e code c stBusy (onSeq p.req (fun s => { s with stored := s.stored.filter (fun q => decide (q.1 ≠ p.cseq)) }) h)
    else if seen || !c.tenant then answer e code (laterChanges code) c st det res h
    else answer e code false c stNotPermitted 0 [] h

/-- A command in progress with this number. -/
def pendOf (h : Hub) (id : Nat) : Option Pend := h.cmd.pends.find? (fun p => p.id = id)

/-- Results to memory over a request line (Table 12.1 note, Table 14.7): bytes written at an address, or none when they cannot be. -/
def writeOut (l a : Nat) (bs : List Byte) (h : Hub) : Option Hub :=
  if writable h a bs.length then some (postMem a bs (pulseLine l h)) else none

end Sys2Proof.Machine
end

