-- ==== Sys2Proof/Machine/AgeOps.lean ====
section
/-!
DEFINITION. Monitors, condition bins and lifetime histograms (R342–R351).
-/
namespace Sys2Proof.Machine

/-- A region's or zone's ageing figures. -/
def zone (h : Hub) (r : Nat) : Zone := getAt h.age.zones r {}
/-- Change a zone. -/
def onZone (r : Nat) (f : Zone → Zone) (h : Hub) : Hub := { h with age := { h.age with zones := setAt h.age.zones r (f (zone h r)) } }

/-- Readings of the working monitors of a list (R343). -/
def readings (l : List Monitor) : List Int := l.filterMap (fun m => if m.failed then none else m.value)

/-- All monitors of a list have failed. -/
def allFailed (l : List Monitor) : Bool := l.all Monitor.failed

/-- Largest of a list of integers. -/
def maxInt : List Int → Option Int
  | [] => none
  | x :: t => match maxInt t with | none => some x | some y => some (max x y)
/-- Smallest of a list of integers. -/
def minInt (l : List Int) : Option Int := (maxInt (l.map (fun x => -x))).map (fun x => -x)

/-- Highest temperature of the regions other than `r`, in 0.25 °C. -/
def otherMax (h : Hub) (r : Nat) : Option Int :=
  maxInt (((List.range 8).filter (fun i => decide (i ≠ r))).flatMap (fun i => readings (zone h i).temps))

/-- A region's temperature as sum and count, in 0.25 °C: the mean of its working monitors, or the highest of the other
regions when all of its own have failed (R343). -/
def tempSum (h : Hub) (r : Nat) : Option (Int × Nat) :=
  let z := zone h r
  if allFailed z.temps then (otherMax h r).map (fun x => (x, 1))
  else
    let l := readings z.temps
    if l.isEmpty then none else some (l.sum, l.length)

/-- A region's mean supply as sum and count, in mV. -/
def supplySum (h : Hub) (r : Nat) : Option (Int × Nat) :=
  let l := readings (zone h r).droops
  if l.isEmpty then none else some (l.sum, l.length)

/-- T_BASE in °C (R347). -/
def tBase (e : Env) : Int := 20 + signed 8 (e.fuse 65 58)
/-- V_BASE in mV (R347). -/
def vBase (e : Env) : Int := 650 + signed 12 (e.fuse 77 66)

/-- A value clamped to 0 … hi. -/
def clampBin (hi : Nat) (i : Int) : Nat := min hi i.toNat

/-- Temperature bin of a temperature n / d in 0.25 °C (Table 9.2). -/
def tempBin (e : Env) (t : Option (Int × Nat)) : Nat :=
  match t with
  | none => 0
  | some (s, n) => clampBin 15 ((s - 4 * (n : Int) * tBase e) / (32 * (n : Int)))

/-- Voltage bin of a supply n / d in mV (Table 9.2). -/
def voltBin (e : Env) (v : Option (Int × Nat)) : Nat :=
  match v with
  | none => 0
  | some (s, n) => clampBin 7 ((s - (n : Int) * vBase e) / (25 * (n : Int)))

/-- Band of a busy fraction (Table 9.2). -/
def busyBandOf (busy total : Nat) : Nat := if total = 0 then 0 else min 3 (4 * busy / total)

/-- A region's load signature; a stopped region has none (R348). -/
def signature (h : Hub) (r : Nat) : Nat :=
  if (region h r).stopped then 0 else 2 * (zone h r).busyBand + b2n (zone h r).droopBit

/-- The condition bin of a region (Table 9.2). -/
def regionBin (e : Env) (h : Hub) (r : Nat) : Nat :=
  tempBin e (tempSum h r) * 64 + voltBin e (supplySum h r) * 8 + signature h r

/-- Highest temperature of any region. -/
def dieTemp (h : Hub) : Option Int := maxInt ((List.range 8).flatMap (fun r => readings (zone h r).temps))
/-- Lowest mean supply of any region, as sum and count. -/
def dieSupply (h : Hub) : Option (Int × Nat) :=
  ((List.range 8).filterMap (supplySum h)).foldl (fun o x => match o with
    | none => some x
    | some y => if x.1 * (y.2 : Int) < y.1 * (x.2 : Int) then some x else some y) none

/-- The die's busy band: from the sums over its regions; in tray role the engine's, held in zone 0 (R348). -/
def dieBand (e : Env) (h : Hub) : Nat :=
  if e.tray then (zone h 0).busyBand
  else busyBandOf ((h.regions.map Region.busyPeriod).sum) ((h.regions.map Region.elapsedPeriod).sum)

/-- The condition bin of plane 8. -/
def dieBin (e : Env) (h : Hub) : Nat :=
  let g := 2 * dieBand e h + b2n (h.age.zones.any Zone.droopBit)
  tempBin e ((dieTemp h).map (fun t => (t, 1))) * 64 + voltBin e (dieSupply h) * 8 + g

/-- The bin in force for a plane. -/
def planeBin (e : Env) (h : Hub) (p : Nat) : Nat := if p < 8 then regionBin e h p else dieBin e h

/-- A bin of a plane. -/
def binAt (h : Hub) (p b : Nat) : Bin := Tab.getD (getAt h.age.planes p []) b {}

/-- Change a bin, noting it as changed since the last persist (R367). -/
def onBin (p b : Nat) (f : Bin → Bin) (h : Hub) : Hub :=
  let pl := getAt h.age.planes p []
  let a := h.age
  { h with age := { a with
    planes := setAt a.planes p (Tab.put pl b (f (Tab.getD pl b {})))
    changed := if a.changed.contains (p, b) then a.changed else a.changed ++ [(p, b)] } }

/-- Fields of a bin entry that an outcome increments (Table 9.3). -/
inductive BinField where
  | residue | audit | digest | tfail | tpass | other
  deriving DecidableEq, Repr

/-- Increment a field of a bin, saturating (R350). -/
def Bin.bump (b : Bin) (f : BinField) (n : Nat) : Bin :=
  match f with
  | .residue => { b with residue := sat 16 (b.residue + n) }
  | .audit => { b with audit := sat 16 (b.audit + n) }
  | .digest => { b with digest := sat 16 (b.digest + n) }
  | .tfail => { b with tfail := sat 16 (b.tfail + n) }
  | .tpass => { b with tpass := sat 16 (b.tpass + n) }
  | .other => { b with other := sat 8 (b.other + n) }

/-- A bin entry as a 128-bit number (Table 9.3). -/
def Bin.word (b : Bin) : Nat :=
  sat 40 b.residence * 2 ^ 88 + b.residue * 2 ^ 72 + b.audit * 2 ^ 56 + b.digest * 2 ^ 40 + b.tfail * 2 ^ 24 + b.tpass * 2 ^ 8 +
    b.other

/-- A bin entry read back. -/
def Bin.ofWord (v : Nat) : Bin :=
  { residence := bitsOf v 127 88, residue := bitsOf v 87 72, audit := bitsOf v 71 56, digest := bitsOf v 55 40
    tfail := bitsOf v 39 24, tpass := bitsOf v 23 8, other := bitsOf v 7 0 }

/-- Failures of a bin (R353). -/
def Bin.failures (b : Bin) : Nat := b.residue + b.audit + b.digest + b.tfail

/-- The field of a residue or audit outcome of Table 4.10. -/
def outcomeField (code : Nat) : BinField := if code = 1 then .residue else if code = 4 ∨ code = 5 then .audit else .other

/-- Place an outcome of a core in bin `b` of its region's plane (R351), remembering cell and TB for a condition test (R354). -/
def histCore (c b : Nat) (f : BinField) (n : Nat) (tb : Nat) (h : Hub) : Hub :=
  let r := regionOf c
  let cell := b / 64 * 8 + b % 8
  let h := onBin r b (fun x => x.bump f n) h
  { h with age := { h.age with evidence := h.age.evidence.filter (fun x => !(x.1 == c && x.2.1 == cell)) ++ [(c, cell, tb)] } }

/-- Place an outcome charged to a die, replica or weight link in plane 8 (R351). -/
def histDie (e : Env) (f : BinField) (n : Nat) (h : Hub) : Hub := onBin 8 (dieBin e h) (fun x => x.bump f n) h

/-- A plan's words (Table 9.5). -/
def Plan.words (p : Plan) (r : Nat) : List Word :=
  [p.seq.setWidth 32, w32 r, p.cause.setWidth 32, w32 (unsigned 16 p.offset), w32 p.fcap, w32 (unsigned 16 p.smin)] ++ w64 p.tb

end Sys2Proof.Machine
end

