-- ==== Sys2Proof/Machine/Nidja.lean ====
section
/-!
DEFINITION. Nidja blocks: the header, the decoder of Table 13.12 with the errors of Table 13.14, and what a compressor
writes (R506–R510).
-/
namespace Sys2Proof.Machine

/-- Copy `n` bytes from a distance back, one at a time (R508). The output is held newest byte first. -/
def nidCopy : Nat → Nat → List Byte → List Byte
  | 0, _, out => out
  | n + 1, dist, out => nidCopy n dist (getAt out (dist - 1) 0 :: out)

/-- A match token: distance check, length check, copy. -/
def nidMatch (ulen len dist : Nat) (rest out : List Byte) : Sum Nat (List Byte × List Byte) :=
  if dist > out.length then .inl 4
  else if out.length + len > ulen then .inl 5
  else .inr (rest, nidCopy len dist out)

/-- One token (Table 13.12): the rest of the body and the output, or an error code of Table 13.14. -/
def nidToken (ulen : Nat) (b : Byte) (t out : List Byte) : Sum Nat (List Byte × List Byte) :=
  let v := b.toNat
  match v / 64 with
  | 0 =>
    let n := v % 64 + 1
    if t.length < n then .inl 2
    else if out.length + n > ulen then .inl 5
    else .inr (t.drop n, (t.take n).reverse ++ out)
  | 1 => match t with
    | c :: r => nidMatch ulen (v / 8 % 8 + 3) (v % 8 * 256 + c.toNat + 1) r out
    | _ => .inl 2
  | 2 => match t with
    | c :: d :: r => nidMatch ulen (v % 64 + 3) (c.toNat * 256 + d.toNat + 1) r out
    | _ => .inl 2
  | _ =>
    if v % 64 > 59 then .inl 3
    else match t with
      | c :: d :: f :: r => nidMatch ulen (v % 64 * 256 + c.toNat + 67) (d.toNat * 256 + f.toNat + 1) r out
      | _ => .inl 2

/-- The tokens of a body, at most `fuel` of them. -/
def nidTokens (ulen : Nat) : Nat → List Byte → List Byte → Sum Nat (List Byte)
  | 0, _, out => if out.length = ulen then .inr out.reverse else .inl 2
  | f + 1, body, out =>
    match body with
    | [] => if out.length = ulen then .inr out.reverse else .inl 2
    | b :: t => match nidToken ulen b t out with
      | .inl c => .inl c
      | .inr (rest, out') => nidTokens ulen f rest out'

/-- Decode a body to `ulen` bytes. -/
def nidDecode (ulen : Nat) (body : List Byte) : Sum Nat (List Byte) := nidTokens ulen (body.length + 1) body []

/-- A block's bytes: header, body, CRC of the data, zero fill to 8 bytes (Table 13.11). -/
def nidBlock (level bseq : Nat) (trig fin stored : Bool) (data body : List Byte) : List Byte :=
  padTo 8 ([0x4E, 0x44, BitVec.ofNat 8 (16 + level), BitVec.ofNat 8 (b2n fin * 4 + b2n trig * 2 + b2n stored)] ++
    beBytes 4 data.length ++ beBytes 4 body.length ++ beBytes 4 bseq ++ body ++ beBytes 4 (crc32c data).toNat)

/-- The body a compressor releases: STORED at level 0 or when the compressed body is longer than the data (R507), or when
VERIFY finds an error (R510). The compressed body itself is a free value (log 1). Answers body, STORED, verify error. -/
def nidBody (level : Nat) (verify : Bool) (data : List Byte) : List Byte × Bool × Nat :=
  let c := Config.nidjaBody level data
  if level = 0 ∨ c.length > data.length then (data, true, 0)
  else if verify then
    match nidDecode data.length c with
    | .inl code => (data, true, code)
    | .inr d => if crc32c d = crc32c data then (c, false, 0) else (data, true, 6)
  else (c, false, 0)

end Sys2Proof.Machine
end

