-- ==== Sys2Proof/Machine/TraceOps.lean ====
section
/-!
DEFINITION. The trace unit: packets, blocks, compressors, sinks, captures, triggers and marks (chapter 13 of the spec).
-/
namespace Sys2Proof.Machine

/-- Change the trace unit. -/
def onTrc (f : Trc → Trc) (h : Hub) : Hub := { h with trc := f h.trc }

/-- Unsigned LEB128 in at most `n` bytes (R488). -/
def leb : Nat → Nat → List Byte
  | 0, _ => []
  | n + 1, v => if v < 128 ∨ n = 0 then [BitVec.ofNat 8 (v % 128)] else BitVec.ofNat 8 (v % 128 + 128) :: leb n (v / 128)

/-- Zigzag of a signed DELTA. -/
def zigzag (d : Int) : Nat := if d ≥ 0 then (2 * d).toNat else (-2 * d - 1).toNat

/-- The sink the state gives: the erg in CONFIG and PLAYA, SINK in SERVING and DROWSE (R495, R496). -/
def sinkOf (h : Hub) : Nat :=
  match h.sys.st with
  | .config => 3
  | .playa => 3
  | .serving => h.trc.set.sink
  | .drowse => h.trc.set.sink
  | _ => 0

/-- Bytes of the current buffer sink; 0 for the other sinks. -/
def bufSize (t : Trc) : Nat := if t.sink = 3 then 2097152 else if t.sink = 2 then t.set.memSize else 0

/-- The current buffer sink is frozen. -/
def sinkFrozen (t : Trc) : Bool := if t.sink = 3 then t.erg.frozen else if t.sink = 2 then t.mem.frozen else false

/-- RESERVE in force: the setting, or half the buffer rounded down to 64 KiB. -/
def reserveOf (t : Trc) : Nat := t.set.reserve.getD (bufSize t / 2 / 65536 * 65536)

/-- A SEIF packet (Table 13.4). -/
def seifBytes (e : Env) (h : Hub) : List Byte :=
  [0x08, 0xA5, 0x5A, 0xC3] ++ beBytes 8 (nowNs h) ++ beBytes 8 h.trc.soff ++ beBytes 4 h.trc.sseq ++
    [BitVec.ofNat 8 (h.sys.st.code * 16 + h.time.quality.toNat * 4 + b2n h.trc.trig * 2 + b2n h.sys.unprov),
     BitVec.ofNat 8 h.trc.set.cores.length] ++ beBytes 3 (nodeNo e h) ++ [BitVec.ofNat 8 h.nid.level] ++
    beBytes 2 h.trc.set.seif ++ beBytes 4 (h.time.tb.toNat % 2 ^ 32) ++ [0, 0, 0, 0]

/-- Put bytes into the block in progress. -/
def putBytes (bs : List Byte) (t : Trc) : Trc :=
  let p := t.set.seif * 1024
  { t with
    cur := t.cur ++ bs, soff := t.soff + bs.length
    seifDue := t.seifDue || decide (t.soff / p ≠ (t.soff + bs.length) / p)
    posted := if t.posting then t.posted + bs.length else t.posted }

/-- Put a SEIF: none is due after it, unless the stream passes a multiple of the seif period with it (R489). -/
def putSeif (e : Env) (h : Hub) : Hub :=
  let b := seifBytes e h
  onTrc (fun t => { (putBytes b { t with seifDue := false }) with sseq := t.sseq + 1, lastTb := nowNs h }) h

/-- A timed packet's bytes: type and flags, SRC, DELTA, further fields (Table 13.3). -/
def timedPkt (type flags src : Nat) (delta : Int) (rest : List Byte) : List Byte :=
  BitVec.ofNat 8 (type * 8 + flags) :: (beBytes 2 src ++ leb 5 (zigzag delta) ++ rest)

/-- SRC of a class and index. -/
def srcOf (cls i : Nat) : Nat := cls * 4096 + i

/-- A timed packet into the block in progress, a SEIF first where R489 asks for one. -/
def putTimed (e : Env) (type flags src time : Nat) (rest : List Byte) (h : Hub) : Hub :=
  let d0 : Int := (time : Int) - h.trc.lastTb
  let h := if h.trc.seifDue || decide (d0.natAbs > 2 ^ 34 - 1) then putSeif e h else h
  let h := if h.trc.seifDue then putSeif e h else h
  let d : Int := (time : Int) - h.trc.lastTb
  onTrc (fun t => { (putBytes (timedPkt type flags src d rest) t) with lastTb := time, curPkts := t.curPkts + 1 }) h

/-- Begin a block when none is in progress: its SEIF, and the LOST packet of dropped blocks behind it (R489, Table 13.5). -/
def startBlock (e : Env) (h : Hub) : Hub :=
  if !h.trc.cur.isEmpty then h
  else
    let h := putSeif e (onTrc (fun t => { t with curTb := nowNs h, absDone := [], curPkts := 0 }) h)
    if h.trc.sinkDue = 0 then h
    else
      let n := h.trc.sinkDue
      putTimed e 3 2 (srcOf 4 0) (nowNs h) (leb 7 n) (onTrc (fun t => { t with sinkDue := 0 }) h)

/-- A timed packet, with its block begun, whatever the block's size. -/
def putFree (e : Env) (type flags src time : Nat) (rest : List Byte) (h : Hub) : Hub :=
  putTimed e type flags src time rest (startBlock e h)

/-- Blocks waiting for a compressor go to the free ones (R507). -/
def dealBlocks (t : Trc) : Trc :=
  let n := 4 - t.busy.length
  { t with busy := t.busy ++ t.fifo.take n, fifo := t.fifo.drop n }

/-- LC_TSEL changes at a cell, with its SEL packet (R485). -/
def applyTsel (e : Env) (c : Nat) (b : Bool) (h : Hub) : Hub :=
  let h := onCell c (fun x => { x with trace := { x.trace with tsel := b } }) h
  if h.trc.capturing && h.sys.st != .drowse then putFree e 9 (b2n b) (srcOf 0 c) (nowNs h) [] h else h

/-- Drive a core's LC_TSEL; a stopped region takes it when its clock returns (R47, R74). -/
def driveTsel (e : Env) (c : Nat) (b : Bool) (h : Hub) : Hub :=
  if (region h (regionOf c)).stopped then onRegion (regionOf c) (fun r => { r with waitCfg := r.waitCfg ++ [(c, .tsel b)] }) h
  else applyTsel e c b h

/-- Change LC_TSEL at the cells to the new selection (R485). -/
def applyCores (e : Env) (old new : List Nat) (h : Hub) : Hub :=
  let gone := old.filter (fun c => !new.contains c)
  let come := new.filter (fun c => !old.contains c)
  come.foldl (fun h c => driveTsel e c true h) (gone.foldl (fun h c => driveTsel e c false h) h)

/-- The cells' LC_TSEL follow the image's selection once the cells leave reset (R485). -/
def selectCores (e : Env) (h : Hub) : Hub :=
  applyCores e ((h.cells.filter (fun p => p.2.trace.tsel)).map Prod.fst) (h.trc.set.cores.filter e.present) h

/-- The settings that wait for a block boundary take effect (R511). -/
def applyTrcNext (e : Env) (h : Hub) : Hub :=
  match h.trc.next with
  | none => h
  | some s =>
    let old := h.trc.set.cores
    applyCores e old s.cores (onTrc (fun t => { t with set := s, next := none }) h)

/-- End the block in progress (R506). -/
def endBlock (e : Env) (trig fin flush : Bool) (h : Hub) : Hub :=
  if h.trc.cur.isEmpty then applyTrcNext e h
  else
    let b : NBlock := { bseq := h.trc.bseq, data := h.trc.cur, trig := trig || h.trc.curTrig, fin := fin, flush := flush }
    let t := h.trc
    applyTrcNext e { h with trc := dealBlocks { t with
      cur := [], curPkts := 0, curTrig := false, bseq := t.bseq + 1, fifo := t.fifo ++ [b] } }

/-- The packet fits into the block in progress, or begins a new one (R506). -/
def fits (e : Env) (type flags src time : Nat) (rest : List Byte) (h : Hub) : Bool :=
  decide ((putFree e type flags src time rest h).trc.cur.length ≤ 65536)

/-- A timed packet; one that would take the block past 65,536 bytes goes into the next block (R506). -/
def putRaw (e : Env) (type flags src time : Nat) (rest : List Byte) (h : Hub) : Hub :=
  if fits e type flags src time rest h then putFree e type flags src time rest h
  else putFree e type flags src time rest (endBlock e false false false h)

/-- Bytes by which a packet lengthens the stream. -/
def packetGrowth (e : Env) (type flags src time : Nat) (rest : List Byte) (h : Hub) : Nat :=
  (putFree e type flags src time rest h).trc.soff - h.trc.soff

/-! Compressors and sinks. -/

/-- Compress one block. -/
def compressBlock (h : Hub) (b : NBlock) : Hub × NBlock :=
  let r := nidBody h.nid.level h.nid.verify b.data
  let img := nidBlock h.nid.level b.bseq b.trig b.fin r.2.1 b.data r.1
  let n := h.nid
  ({ h with nid := { n with
      inB := n.inB + b.data.length, outB := n.outB + img.length, stored := n.stored + b2n r.2.1
      vfail := n.vfail + b2n (decide (r.2.2 ≠ 0)), lastErr := if r.2.2 = 0 then n.lastErr else BitVec.ofNat 4 r.2.2 } },
   { b with image := some img })

/-- A block dropped at the sink: stage 2 loss (Table 13.5). -/
def dropBlock (b : NBlock) (h : Hub) : Hub :=
  onTrc (fun t => { t with lostSink := t.lostSink + 1, sinkDue := t.sinkDue + b.data.length }) h

/-- Blocks still held after writing up to `w` in a buffer of `size` bytes (R497). -/
def keepBlocks (size w : Nat) (l : List (Nat × List Byte)) : List (Nat × List Byte) :=
  l.filter (fun b => decide (w - b.1 ≤ size))

/-- The start of the reserve before offset `w`: the most recent blocks within `lim` bytes (R503). -/
def reserveStart (lim w : Nat) (l : List (Nat × List Byte)) : Nat :=
  (l.filter (fun b => decide (b.1 < w) && decide (w - b.1 ≤ lim))).foldl (fun m b => min m b.1) w

/-- After a block of `n` bytes at `off` in a buffer sink: positions, reserve, oldest block, freeze (R497, R503, R504). -/
def bufWritten (b : NBlock) (off n : Nat) (blocks : List (Nat × List Byte)) (t : Trc) : Trc :=
  let w := off + n
  let kept := keepBlocks (bufSize t) w (blocks ++ [(off, b.image.getD [])])
  let res := if b.trig then reserveStart (reserveOf t) off kept else t.reserveFrom
  let s : Sink := { blocks := if b.fin && t.trigPos != 0xFFFFFFFFFFFFFFFF then kept.filter (fun x => decide (res ≤ x.1)) else kept
                    frozen := b.fin }
  let t := { t with
    wptr := w, sinkBlocks := t.sinkBlocks + 1, reserveFrom := res
    trigPos := if b.trig then BitVec.ofNat 64 off else t.trigPos
    oldest := (s.blocks.head?.map Prod.fst).getD w }
  if t.sink = 3 then { t with erg := s } else { t with mem := s }

/-- Bytes of the memory sink to its circular region in memory, whole lines of 64 (R497). -/
def memSinkWrite (base size pos : Nat) (bs : List Byte) (h : Hub) : Hub :=
  ((chunksOf 64 bs).zipIdx).foldl (fun h c => postMem (base + (pos + 64 * c.2) % size) c.1 h) (pulseLine 0 h)

/-- Write one compressed block to the sink (R497–R501), or drop it as stage 2 loss. -/
def sinkWrite (b : NBlock) (h : Hub) : Hub :=
  let img := b.image.getD []
  let t := h.trc
  match t.sink with
  | 1 => if t.rdy then onTrc (fun t => { t with portq := t.portq ++ img, wptr := t.wptr + img.length, sinkBlocks := t.sinkBlocks + 1 }) h
    else dropBlock b h
  | 2 =>
    if t.mem.frozen || !writable h t.set.memBase 64 then dropBlock b h
    else
      let all := t.memPart ++ img
      let all := if b.flush || b.fin then padTo 64 all else all
      let n := all.length / 64 * 64
      let h := memSinkWrite t.set.memBase t.set.memSize (t.wptr - t.memPart.length) (all.take n) h
      onTrc (fun t => { (bufWritten b t.wptr (all.length - t.memPart.length) t.mem.blocks t) with memPart := all.drop n }) h
  | 3 => if t.erg.frozen then dropBlock b h else onTrc (fun t => bufWritten b t.wptr img.length t.erg.blocks t) h
  | 4 =>
    match t.set.dst with
    | none => dropBlock b h
    | some d =>
      let h := ((chunksOf 224 img).zipIdx).foldl (fun h c =>
        photenSend 3 3 d.toNat 0 ((t.wptr + 224 * c.2) / 4 % 2 ^ 24) c.1 h) h
      onTrc (fun t => { t with wptr := t.wptr + img.length, sinkBlocks := t.sinkBlocks + 1 }) h
  | _ => h

/-- Finish the oldest block in a compressor; one that finds the 256 KiB sink buffer full is dropped (Table 13.18). -/
def compressOne (h : Hub) : Hub :=
  match h.trc.busy with
  | [] => h
  | b :: rest =>
    let r := compressBlock (onTrc (fun t => dealBlocks { t with busy := rest }) h) b
    let held := (r.1.trc.ready.map (fun x => (x.image.getD []).length)).sum
    if held + (r.2.image.getD []).length > 262144 then dropBlock r.2 r.1
    else onTrc (fun t => { t with ready := t.ready ++ [r.2] }) r.1

/-- Write the next block in BSEQ order to the sink. -/
def sinkOne (h : Hub) : Hub :=
  match h.trc.ready with
  | [] => h
  | b :: rest => sinkWrite b (onTrc (fun t => { t with ready := rest }) h)

/-- Everything in flight goes through the compressors and to the sink, as when a capture ends. -/
def drainTrace : Nat → Hub → Hub
  | 0, h => h
  | n + 1, h => drainTrace n (sinkOne (compressOne h))

/-- Blocks in flight. -/
def inFlight (t : Trc) : Nat := t.fifo.length + t.busy.length + t.ready.length

/-! Captures. -/

/-- A frame of the trace port (R501): header word, stream bytes, trailer word. -/
def frameBytes (node fseq : Nat) (bs : List Byte) : List Byte :=
  let hd := beBytes 8 (node * 2 ^ 46 + bs.length * 2 ^ 32 + fseq % 2 ^ 32)
  hd ++ bs ++ beBytes 4 (crc32c (hd ++ bs)).toNat ++ [0, 0, 0, 0]

/-- Rows sent once `n` more are, with the ALIGN row due every 4,096th (Table 13.8). -/
def rowsAfter (sent n : Nat) : Nat := if (sent + n) / 4096 = sent / 4096 then sent + n else sent + n + 1

/-- The port sends a frame of up to 2,048 bytes of the sink stream; nothing while TRC_RDY is low (R501). -/
def portFrame (e : Env) (h : Hub) : Hub :=
  if !h.trc.rdy || h.trc.portq.isEmpty then h
  else
    let bs := h.trc.portq.take 2048
    onTrc (fun t => { t with
      portq := t.portq.drop 2048, frames := t.frames + 1, fseq := t.fseq + 1, lastFrame := frameBytes (nodeNo e h) t.fseq bs
      rowsSent := rowsAfter t.rowsSent (1 + (bs.length / 8 + 2 + 3) / 4) }) h

/-- The port sends what is left of a capture before the next one's frames count from 0 (R501). -/
def drainPort (e : Env) : Nat → Hub → Hub
  | 0, h => h
  | n + 1, h => drainPort e n (portFrame e h)

/-- End the capture in progress with an END packet (Table 13.6) and drain it to its sink. -/
def endCapture (e : Env) (cause : Nat) (h : Hub) : Hub :=
  if !h.trc.capturing then h
  else
    let h := endBlock e false true true (putRaw e 10 0 (srcOf 4 0) (nowNs h) [BitVec.ofNat 8 cause] h)
    let h := drainTrace (inFlight h.trc) h
    let h := drainPort e (h.trc.portq.length / 2048 + 1) h
    onTrc (fun t => { t with capturing := false, posting := false, cur := [], curPkts := 0 }) h

/-- Start a new capture on a sink (R495). -/
def startCapture (sink : Nat) (h : Hub) : Hub :=
  onTrc (fun t => { t with
    sink := sink, capturing := decide (sink ≠ 0), cur := [], curPkts := 0, curTrig := false, absDone := [], lastCyc := []
    soff := 0, sseq := 0, bseq := 0, fseq := 0, seifDue := true, trig := false, fifo := [], busy := [], ready := []
    posting := false, posted := 0, trigPos := 0xFFFFFFFFFFFFFFFF, reserveFrom := 0, wptr := 0, oldest := 0, memPart := []
    mergeDue := 0, sinkDue := 0
    erg := if sink = 3 ∧ !t.erg.frozen then {} else t.erg
    mem := if sink = 2 then {} else t.mem }) h

/-- The block changed state: capture in the sink that the state gives (R495, R498). -/
def retarget (e : Env) (cause : Nat) (h : Hub) : Hub :=
  let h := endCapture e cause h
  startCapture (sinkOf h) h

/-! Packets, marks and triggers. -/

/-- A post-trigger run ends (R504): END, the END block, and no further packet. -/
def endPost (e : Env) (cause : Nat) (h : Hub) : Hub :=
  let h := endBlock e false true true (putRaw e 10 0 (srcOf 4 0) (nowNs h) [BitVec.ofNat 8 cause] h)
  onTrc (fun t => { t with capturing := false, posting := false }) h

/-- The largest possible size of a block of `n` bytes of data (R504). -/
def largest (n : Nat) : Nat := (n + 24 + 7) / 8 * 8

/-- Space before the reserve is too small for one more block of the largest size (R504). -/
def reserveNear (t : Trc) : Bool :=
  let waiting := ((t.fifo ++ t.busy ++ t.ready).map (fun b => largest b.data.length)).sum + largest t.cur.length
  let used := if t.trigPos = 0xFFFFFFFFFFFFFFFF then min (reserveOf t) (t.wptr - t.oldest) else t.wptr - t.reserveFrom
  decide (bufSize t < used + waiting + largest 65536)

/-- The post-trigger count or the reserve limit has been reached (R504). -/
def postDue (t : Trc) : Option Nat :=
  if !t.posting then none else if t.posted ≥ t.set.post then some 0 else if reserveNear t then some 1 else none

/-- The trigger fires (R502): on a capture, the block in progress ends, and the trigger block begins with its mark. -/
def fire (e : Env) (n : Nat) (h : Hub) : Hub :=
  let h := irq 7 (onTrc (fun t => { t with armed := false, trigOut := t.trigOut + 1, conds := [], fired := true }) h)
  if !h.trc.capturing then h
  else
    let h := onTrc (fun t => { t with
      trig := true, curTrig := true, trigBseq := t.bseq, posting := decide (bufSize t > 0), posted := 0 }) (endBlock e false false false h)
    let h := putRaw e 8 0 (srcOf 3 0) (nowNs h) ([2] ++ beBytes 4 0 ++ beBytes 4 n) h
    match postDue h.trc with
    | some c => endPost e c h
    | none => h

/-- A condition that does not fire: counted, and its mark carries bit 31 (R502). -/
def ignoreCond (e : Env) (n : Nat) (h : Hub) : Hub :=
  let h := onTrc (fun t => { t with ignored := t.ignored + 1 }) h
  if h.trc.capturing && h.trc.set.marks.getLsbD 2 then putRaw e 8 0 (srcOf 3 0) (nowNs h) ([2] ++ beBytes 4 0 ++ beBytes 4 (2 ^ 31 + n)) h
  else h

/-- A trigger condition arises (R502). FIRE, the lowest, fires at once; another fires at the end of its cycle, when the lowest of the cycle is
known; with one that has fired in the cycle it is one; at any other time it only leaves its mark. A condition whose bit is clear does not
arise. In the cycle of an entry to FLUSH it is ignored and counted (R505). -/
def trigger (e : Env) (n : Nat) (h : Hub) : Hub :=
  let t := h.trc
  if h.sys.st == .flush then
    (if h.log.flush.any (fun f => decide (f.c0 + 40 = nowNs h)) then onTrc (fun t => { t with ignored := t.ignored + 1 }) h else h)
  else if !working h || !(n = 0 || t.set.cond.getLsbD n) || t.fired then h
  else if t.armed && !t.posting && !sinkFrozen t then (if n = 0 then fire e 0 h else onTrc (fun t => { t with conds := t.conds ++ [n] }) h)
  else ignoreCond e n h

/-- The end of a cycle: the conditions that have arisen in it fire as one, named by the lowest (R502). -/
def fireConds (e : Env) (h : Hub) : Hub :=
  let h := match h.trc.conds with
    | [] => h
    | n :: t => if !working h || h.trc.posting || sinkFrozen h.trc then h else fire e (t.foldl min n) h
  onTrc (fun t => { t with conds := [], fired := false }) h

/-- The merger FIFO has no room for `n` more bytes (Table 13.18). -/
def mergerFull (t : Trc) (n : Nat) : Bool := decide ((t.fifo.map (fun b => b.data.length)).sum + n > 65536)

/-- The merger accepts a packet (R494, R506), after a LOST packet when some were lost before it. In DROWSE only marks pass
(R496). -/
def putPkt (e : Env) (type flags src time : Nat) (rest : List Byte) (h : Hub) : Hub :=
  if !h.trc.capturing || (h.sys.st == .drowse && type != 8) then h
  else if mergerFull h.trc (packetGrowth e type flags src time rest h) then onTrc (fun t => { t with lostMerge := t.lostMerge + 1, mergeDue := t.mergeDue + 1 }) h
  else
    let lost := type = 3 ∨ h.trc.mergeDue > 0 ∨ (h.trc.cur.isEmpty ∧ h.trc.sinkDue > 0)
    let h := if h.trc.mergeDue > 0 then
        let n := h.trc.mergeDue
        putRaw e 3 1 (srcOf 4 0) (nowNs h) (leb 7 n) (onTrc (fun t => { t with mergeDue := 0 }) h)
      else h
    let h := putRaw e type flags src time rest h
    let h := match postDue h.trc with
      | some c => endPost e c h
      | none => h
    if lost then trigger e 6 h else h

/-- The controller is a source of the capture: always in CONFIG and PLAYA, by TRC_CFG CONTROLLER in SERVING (R495, Table 13.1). -/
def ctlTraced (h : Hub) : Bool := h.trc.capturing && (h.sys.st == .config || h.sys.st == .playa || (serving h && h.trc.set.ctl))

/-- One cycle of the controller as its trace shows it: a CTL packet (Table 13.3), where its program, a free value (log 73), gives one. -/
def ctlTrace (e : Env) (h : Hub) : Hub :=
  if !ctlTraced h then h
  else match Config.ctlPacket h.free with
    | some (exc, n, target) => putPkt e 7 (b2n exc) (srcOf 2 0) (nowNs h) (leb 7 n ++ beBytes 4 target.toNat) (drawn h)
    | none => drawn h

/-- A MARK (Table 13.2), and trigger condition 5 when it matches. -/
def mark (e : Env) (kind : Nat) (x value : Word) (time : Nat) (h : Hub) : Hub :=
  if !h.trc.set.marks.getLsbD kind then h
  else
    let h := putPkt e 8 0 (srcOf 3 0) time (BitVec.ofNat 8 kind :: (beBytes 4 x.toNat ++ beBytes 4 value.toNat)) h
    let s := h.trc.set
    if decide (kind = s.matchKind) && decide (value &&& s.matchMask = s.matchVal) && s.cond.getLsbD 5 then trigger e 5 h else h

/-- A HOST packet (R491), with the cell's LOST packet before it when words were lost. -/
def hostPkt (e : Env) (core : Nat) (w : DWord) (cyc time lost : Nat) (h : Hub) : Hub :=
  let h := if lost = 0 then h else putPkt e 3 0 (srcOf 0 core) time (leb 7 lost) h
  let count := fun (h : Hub) (abs : Bool) => if abs then cyc % 2 ^ 48 else (cyc + 2 ^ 48 - Tab.getD h.trc.lastCyc core 0) % 2 ^ 48
  let first := fun (h : Hub) => !h.trc.absDone.contains core || h.trc.cur.isEmpty
  let h := if fits e 2 0 (srcOf 0 core) time (leb 7 (count h (first h)) ++ beBytes 8 w.toNat) h then h else endBlock e false false false h
  let abs := first h
  let c := count h abs
  let s0 := h.trc.soff
  let h := putPkt e 2 (b2n abs) (srcOf 0 core) time (leb 7 c ++ beBytes 8 w.toNat) h
  if h.trc.soff = s0 then h else onTrc (fun t => { t with
    absDone := if t.absDone.contains core then t.absDone else core :: t.absDone
    lastCyc := Tab.put t.lastCyc core cyc }) h

/-- A record on which a mark of the same TB follows. -/
def outcomeMark (e : Env) (x : Word) (digest : Bool) (code time : Nat) (h : Hub) : Hub :=
  let h := mark e 4 x (w32 (b2n digest * 256 + code)) time h
  trigger e (if digest then 3 else 2) h

/-- Entry to FLUSH (R505): packets of the block in progress are discarded and counted; conditions of this cycle are ignored and counted. -/
def traceFreeze (h : Hub) : Hub :=
  onTrc (fun t => { t with ignored := t.ignored + t.conds.length, conds := [], lostMerge := t.lostMerge + t.curPkts, mergeDue := t.mergeDue + t.curPkts
                           cur := [], curPkts := 0, curTrig := false, seifDue := true }) h

/-- Return from FLUSH (R505): a new block with a SEIF and the LOST packet. -/
def traceThaw (e : Env) (h : Hub) : Hub :=
  if !h.trc.capturing then h
  else
    let n := h.trc.mergeDue
    let h := startBlock e (onTrc (fun t => { t with mergeDue := 0 }) h)
    trigger e 6 (putRaw e 3 1 (srcOf 4 0) (nowNs h) (leb 7 n) h)

end Sys2Proof.Machine
end

