-- ==== Sys2Proof/Machine/VerdOps.lean ====
section
/-!
DEFINITION. Verdicts, evidence floors, the audit exponent and the hold they call for (R153–R156, R309–R317).
-/
namespace Sys2Proof.Machine

/-- Severity of a verdict code (Table 8.5). -/
def severity (v : Nat) : Nat := getAt [0, 2, 3, 4, 5, 6, 7, 1] v 0

/-- A change of the policy's figures takes effect at a scoring boundary; this is the policy in force. -/
def policy (h : Hub) : Policy := h.casc.policy

/-- An audit exponent of R153: 0 CLEAR, 1 WATCH, 2 SUSPECT, 3 PROBATION, 4 test-overdue. -/
def polExp (h : Hub) (i : Nat) : Nat := getAt (policy h).exponents i 4

/-- The die entity of this block. -/
def dieEnt (e : Env) (h : Hub) : Word := ownId e h 3 0

/-- The replica this die belongs to (R14, R408). -/
def replicaEnt (e : Env) (h : Hub) : Option Word :=
  match jobOfDie h (dieNo e h) with
  | none => none
  | some j => ((jobDies h j).find? (fun d => decide (d.die = dieNo e h))).map (fun d => entId 9 (j.toNat * 256 + d.rep.toNat))

/-- The entities of this die that enclose a core and can hold it: cluster, region, die. -/
def enclosing (e : Env) (h : Hub) (c : Nat) : List Word :=
  [ownId e h 1 (clusterOf c), ownId e h 2 (regionOf c), dieEnt e h]

/-- The entities above this die whose verdicts reach its cores: engine, tray, replica (Table 8.6). -/
def aboveDie (e : Env) (h : Hub) : List Word :=
  [entId 4 (dieNo e h / 64), entId 5 (dieNo e h / 128)] ++ (replicaEnt e h).toList

/-- The policy enables an autonomous act, row `r` of Table 1.7, on entities of a kind (R23, Table 8.7). -/
def actOn (h : Hub) (kind r : Nat) : Bool := (getAt (policy h).rows kind {}).enable.getLsbD r

/-- Exponent that a verdict calls for on its own core (Table 8.5). A raise that the policy disables, or that a command superseded, is not
taken (R23, R26): the core has then CLEAR's figure, which is DESIGN CHOICE (log 66): the spec does not say that it keeps another. -/
def ownExp (h : Hub) (noRaise : Bool) (verdict prior : Nat) : Nat :=
  let of := fun (v : Nat) => match v with
    | 1 => polExp h 1
    | 2 => if actOn h 0 0 && !noRaise then polExp h 2 else polExp h 0
    | 3 => if actOn h 0 0 && !noRaise then polExp h 3 else polExp h 0
    | _ => polExp h 0
  match verdict with
  | 4 => of prior
  | 5 => 4
  | 6 => 4
  | v => of v

/-- Exponent that an enclosing entity's verdict calls for, if any (R311). -/
def encExp (h : Hub) (x : Word) : Option Nat :=
  let k := kindOf x
  let raise := fun n => if actOn h k 0 && !(entity h x).noRaise then some (polExp h n) else none
  match (entity h x).verdict with
  | 2 => raise 2
  | 3 => raise 3
  | 4 => if 3 ≤ k ∧ k ≤ 5 then raise 2 else none
  | 5 => if k ≤ 3 then some 4 else none
  | 6 => if k ≤ 3 then some 4 else none
  | _ => none

/-- A test of the core is overdue (R321). -/
def overdue (e : Env) (h : Hub) (c : Nat) : Bool :=
  match (entity h (coreId e h c)).test with
  | some t => t.overdue
  | none => false

/-- The core is under a margin probe (R363). -/
def probing (h : Hub) (c : Nat) : Bool := h.age.probes.any (fun p => decide (p.core = c))

/-- The step of a probe that the region's clock shows: 25 MHz each above the planned frequency (R363, R65). DEDUCED (log 41). -/
def probeStep (h : Hub) (p : Probe) : Nat := min 7 (((region h (regionOf p.core)).count + 12 - p.base) / 25)

/-- The lowest of the exponents called for, with the source of the first that gives it. -/
def lowestExp (d : Nat × Nat) (l : List (Nat × Nat)) : Nat × Nat := l.foldl (fun a b => if b.1 < a.1 then b else a) d

/-- The exponent that the verdicts call for on a core, and its source: 0 own verdict, 1 enclosing verdict (R311). -/
def verdictExp (e : Env) (h : Hub) (c : Nat) : Nat × Nat :=
  let x := entity h (coreId e h c)
  lowestExp (ownExp h x.noRaise x.verdict x.prior, 0) ((enclosing e h c ++ aboveDie e h).filterMap (fun y => (encExp h y).map (fun n => (n, 1))))

/-- The test-overdue status of a core calls for its exponent: the raise is enabled and no command superseded it (R23, R26, R156). -/
def overdueRaise (e : Env) (h : Hub) (c : Nat) : Bool :=
  overdue e h c && actOn h 0 0 && !((entity h (coreId e h c)).test.any TestDue.noRaise)

/-- A core's effective audit exponent and its source: 0 own verdict, 1 enclosing verdict, 2 confirmation window,
3 test-overdue, 4 AUDIT_RATE (R155, R311, R363). The verdicts' part is the one fixed at the last scan boundary (R21). A probe's
exponent 0 stands above a commanded one: R363 audits every tile of a probe, R155 lets the commanded one prevail; DESIGN CHOICE (log 67). -/
def auditExp (e : Env) (h : Hub) (c : Nat) : Nat × Nat :=
  let x := hubc h c
  if probing h c then (0, 4)
  else match x.exponent with
    | some n => (n, 4)
    | none =>
      lowestExp (x.vexp, x.vsrc) ((if x.confirm > 0 then [(4, 2)] else []) ++
        (if overdueRaise e h c then [(polExp h 4, 3)] else []))

/-- At a scan boundary the verdicts' exponents of a core take effect; a new verdict of the core ends an exponent set by
AUDIT_RATE (R21, R155). -/
def latchExp (e : Env) (c : Nat) (h : Hub) : Hub :=
  let v := verdictExp e h c
  onHubc c (fun x => { x with
    vexp := v.1, vsrc := v.2, exponent := if x.newVerdict then none else x.exponent, newVerdict := false }) h

/-- The residue requirement that TAP_REQ shows (R122, R133, R156). -/
def tapReq (e : Env) (h : Hub) (c : Nat) : Bool :=
  h.res.drbgOk != 0 && ((hubc h c).required || overdue e h c || probing h c)

/-- A core is fenced: by its own verdict or that of its cluster, region or die (Table 8.6). -/
def fenced (e : Env) (h : Hub) (c : Nat) : Bool :=
  (coreId e h c :: enclosing e h c).any (fun x => (entity h x).verdict == 5 || (entity h x).verdict == 6)

/-- A test or probe that the block runs holds the core (R80, R323, R363). -/
def testHeld (e : Env) (h : Hub) (c : Nat) : Bool :=
  probing h c || (match (entity h (coreId e h c)).test with
    | some t => t.running.isSome
    | none => false)

/-- LC_HOLD wanted for a core (R80): fence takes precedence. -/
def holdWant (e : Env) (h : Hub) (c : Nat) : BitVec 2 := if fenced e h c then 2 else if testHeld e h c then 1 else 0

/-- Count tiles that close without an outcome as held (4) or reset (5) (R131), and drop them from the lane. -/
def closeTiles (c i : Nat) (h : Hub) : Hub :=
  let n := (cell h c).lane.tiles.length
  let h := onCell c (fun x => { x with lane := { x.lane with tiles := [] } }) h
  if n = 0 then h else countCore c i h n

/-- LC_HOLD changes at the cell (R80, R81, R131). -/
def applyHold (c : Nat) (v : BitVec 2) (h : Hub) : Hub :=
  if (cell h c).hold = v then h
  else
    let h := if (cell h c).hold = 0 then closeTiles c 4 h else h
    onCell c (fun x => { x with hold := v, holdAge := 0, holdViol := false, graceOver := false }) h

/-- Drive a core's LC_HOLD; a stopped region takes it when its clock returns (R47, R74). -/
def refreshHold (e : Env) (c : Nat) (h : Hub) : Hub :=
  let v := holdWant e h c
  if (region h (regionOf c)).stopped then
    onRegion (regionOf c) (fun r => { r with waitCfg := r.waitCfg ++ [(c, .hold v)] }) h
  else applyHold c v h

/-- Drive LC_HOLD of every core that an entity covers. -/
def refreshHolds (e : Env) (x : Word) (h : Hub) : Hub := (coresOf e h x).foldl (fun h c => refreshHold e c h) h

/-- Set an evidence floor (R316), unless the outcome lies before the command that reversed the entity's act (R27, R315). -/
def setFloor (x : Word) (v tb : Nat) (h : Hub) : Hub :=
  match (entity h x).cmdTb with
  | some t => if tb ≤ t then h else onEnt x (fun s => { s with floors := s.floors ++ [{ verdict := v, tb := tb }] }) h
  | none => onEnt x (fun s => { s with floors := s.floors ++ [{ verdict := v, tb := tb }] }) h

/-- Row of Table 8.9 of an evidence class and outcome code. -/
def floorRow (code cls : Nat) : Nat :=
  if cls = 2 then 0 else if cls = 3 ∨ cls = 4 ∨ code = 5 then 1 else if cls = 0 ∨ cls = 1 then 3 else 2

/-- The residue floor of a class (Table 8.9, POLICY_SET). -/
def residueFloor (h : Hub) (code cls : Nat) : Nat := getAt (policy h).floors (floorRow code cls) 0

end Sys2Proof.Machine
end

