-- ==== Sys2Proof/Machine/Effects.lean ====
section
/-!
DEFINITION. The effects of an outcome (R19, R103, R150–R154): the record, the counter, the feature, the spore flag and the
lifetime histogram.
-/
namespace Sys2Proof.Machine

/-- Indexes of the counts of R150 in the order of AUDIT_READ (Table 12.13). -/
def outcomeIndex (code orient : Nat) : Nat :=
  match code with
  | 1 => 6 | 2 => 7 | 3 => 8
  | 4 => 9 + orient % 3 | 5 => 12 + orient % 3 | 6 => 15 + orient % 3
  | _ => 0

/-- Die-wide RES counts of an outcome (Table 4.13). -/
def resCount (code n : Nat) (r : ResU) : ResU :=
  match code with
  | 1 => { r with mismatch := r.mismatch + n }
  | 2 => { r with timeouts := r.timeouts + n }
  | 3 => { r with proto := r.proto + n }
  | 4 => { r with audMis := r.audMis + n }
  | 5 => { r with audRound := r.audRound + n }
  | 6 => { r with audFmt := r.audFmt + n }
  | _ => r

/-- Put a core into the quick set, as a spore flag does (R288). -/
def flagCore (c : Nat) (h : Hub) : Hub := onHubc c (fun x => { x with quickAct := x.spore && x.quickAct, spore := true, hadOutcome := true }) h

/-- The spore-flag feature of a core's row (R262). -/
def sporeFeature (e : Env) (c : Nat) (h : Hub) : Hub :=
  featWrite e (coreId e h c) (imgOf h).features.sporeFlag (int32f 1) h

/-- Add `n` to a core's outcome counter, and write the outcome feature and that of the outcome's own count (R19, R150). -/
def outcomeCounter (e : Env) (c code orient n : Nat) (feature : Bool) (h : Hub) : Hub :=
  let h := countCore c (outcomeIndex code orient) h n
  let h := onHubc c (fun x => { x with outcome := x.outcome + n, hadOutcome := true }) { h with res := resCount code n h.res }
  if feature then
    let i := outcomeIndex code orient
    let h := featWrite e (coreId e h c) (imgOf h).features.outcome (int32f (hubc h c).outcome) h
    featWrite e (coreId e h c) ((imgOf h).features.residue + i) (int32f (getAt (hubc h c).counts i 0 : Nat)) h
  else h

/-- Classes of Table 4.11, in the table's order. -/
def classControl : Nat := 0
/-- DESCRIPTOR -/
def classDescriptor : Nat := 1
/-- ARRAY -/
def classArray : Nat := 2
/-- CHECKSUM -/
def classChecksum : Nat := 3
/-- OUTPUT -/
def classOutput : Nat := 4
/-- END_PATH -/
def classEndPath : Nat := 5
/-- UNCLASSIFIED -/
def classUnclassified : Nat := 6
/-- OPERAND -/
def classOperand : Nat := 7

/-- The payload of an OUTCOME record (R152), without its last fields. -/
def outcomePayload (cycle : Cnt) (code cls sub : Nat) (t : Option Tile) (extra : List Word) : List Word :=
  let tile := match t with
    | some t => [t.tag.setWidth 32, t.pseq.setWidth 32, w32 (b2n t.bounded), t.orient.setWidth 32, t.fmtL.setWidth 32, t.fmtR.setWidth 32,
        t.fmtC.setWidth 32, w32 t.m, w32 t.n, w32 t.k, w32 (b2n t.word.fixed), w32 (b2n t.bounded)]
    | none => List.replicate 12 0
  w64 cycle.toNat ++ [w32 code, w32 cls, w32 sub] ++ tile ++ extra

/-- Start or restart the confirmation window of a core (R154). -/
def confirmWindow (c : Nat) (h : Hub) : Hub := onHubc c (fun x => { x with confirm := 256 }) h

/-- A mismatch reaches the hub: its confirmation window begins, but for a probe's (R154, R19). -/
def mismatchArrives (c : Nat) (h : Hub) : Hub := if probing h c then h else confirmWindow c h

/-- The effects of one residue or audit outcome of a core (R19), raised at TB `tb` in condition bin `b`. During a probe only the record,
marked PROBE, and the counter (R19, R365). -/
def outcomeEffects (e : Env) (c code cls : Nat) (orient : Nat) (payload : List Word) (b : Nat) (pr : Bool) (tb : Nat) (h : Hub) : Hub :=
  let x := coreId e h c
  let h := emitAt 1 2 0 x 32 code (payload ++ [w32 (b / 64), w32 (b % 2), w32 (b2n pr)]) tb h
  let h := outcomeCounter e c code orient 1 (!pr) h
  let h := irq 3 h
  if pr then
    { h with age := { h.age with probes := h.age.probes.map (fun p =>
        if p.core = c then { p with failedAt := some (min (p.failedAt.getD 8) (probeStep h p)) } else p) } }
  else
    let h := sporeFeature e c (flagCore c h)
    let h := setFloor x (residueFloor h code cls) tb h
    let h := histCore c b (outcomeField code) 1 tb h
    outcomeMark e x false code tb h

/-- An outcome of a block-internal unit is counted, and its outcome feature follows (R19). -/
def unitCount (e : Env) (u : Word) (h : Hub) : Hub :=
  let n := Tab.getD h.casc.outcomes u.toNat 0 + 1
  let h := irq 3 { h with casc := { h.casc with outcomes := Tab.put h.casc.outcomes u.toNat n } }
  featWrite e u (imgOf h).features.outcome (int32f n) h

/-- A fault of a block-internal unit (R103, R343): a FAULT record, and the unit's outcome count and feature. -/
def unitFault (e : Env) (unit code sev : Nat) (x : Word) (payload : List Word) (h : Hub) : Hub :=
  unitCount e (unitId e h unit) (emit 9 sev 0 x unit code payload h)

/-- The other two effects of R19 for an outcome of unit CELL (R103): the spore flag in the unit's row, and the lifetime histogram of the
die, since the fault counts against no core. DEDUCED (log 83). -/
def unitFlag (e : Env) (u : Word) (h : Hub) : Hub := histDie e .other 1 (featWrite e u (imgOf h).features.sporeFlag (int32f 1) h)

/-- A LOSS record: kind, count, first and last TB (Table 15.2), and HUB_IRQSTAT.LOSS through its type. -/
def lossRecord (kind : Nat) (x : Word) (unit count first last : Nat) (h : Hub) : Hub :=
  emit 10 1 0 x unit kind ([w32 kind, w32 count] ++ w64 first ++ w64 last) h

end Sys2Proof.Machine
end

