-- ==== Sys2Proof/Machine/FldOps.lean ====
section
/-!
DEFINITION. Arithmetic modulo p = 2^61 − 1: residues of dyadic values, and the stream digest (R113, R161–R163).
-/
namespace Sys2Proof.Machine

/-- p = 2^61 − 1. -/
def resP : Nat := 2 ^ 61 - 1

/-- A residue field; p reads as 0 (R125). -/
def fld (n : Nat) : Fld := BitVec.ofNat 61 (n % resP)

/-- Sum modulo p. -/
def fAdd (a b : Fld) : Fld := fld (a.toNat + b.toNat)
/-- Product modulo p. -/
def fMul (a b : Fld) : Fld := fld (a.toNat * b.toNat)

/-- The residue of ± m × 2^e (R113). -/
def residue (neg : Bool) (m : Nat) (e : Int) : Fld :=
  let v := m % resP * 2 ^ (e % 61).toNat % resP
  fld (if neg then resP - v else v)

/-- The term of an element in a lane (R161). -/
def digTerm (k : Fld) (i w : Nat) : Fld := fld ((i * 2 ^ 32 + w + k.toNat) ^ 3)

/-- A digest with one element more. -/
def digAdd (k0 k1 : Fld) (i w : Nat) (d : Fld × Fld) : Fld × Fld := (fAdd d.1 (digTerm k0 i w), fAdd d.2 (digTerm k1 i w))

/-- The digest of elements with consecutive indices. -/
def digList (k0 k1 : Fld) : Nat → List Nat → Fld × Fld → Fld × Fld
  | _, [], d => d
  | i, w :: t, d => digList k0 k1 (i + 1) t (digAdd k0 k1 i w d)

/-- The lane keys of a digest and whether they are the fixed ones: those given, or those of the debug registers while FIXED is 1 (R165). -/
def laneKeys (h : Hub) (k : Fld × Fld) : Fld × Fld × Bool :=
  if h.dig.dbgK0.getLsbD 63 then (h.dig.dbgK0.setWidth 61, h.dig.dbgK1.setWidth 61, true) else (k.1, k.2, false)

/-- The lane key of a job's epoch (R163). -/
def digKey (seed : BitVec 128) (job epoch j : Nat) : Fld :=
  fld (bitsOf (aesCmac seed (beBytes 2 job ++ beBytes 4 epoch ++ beBytes 1 j)).toNat 60 0)

end Sys2Proof.Machine
end

