-- ==== Sys2Proof/Machine/CellOps.lean ====
section
/-!
DEFINITION. Lichen cells: counting, event counters, spore rules, watch windows, snapshots, and what a command changes in a
cell (chapter 03 of the spec).
-/
namespace Sys2Proof.Machine

/-- The present cores of a region. -/
def regionCores (e : Env) (r : Nat) : List Nat := ((List.range 256).map (fun i => r * 256 + i)).filter e.present

/-- Cells of a region in delivery order: the eight groups in turn, one cell at a time, in core-number order within a group. -/
def deliveryOrder (cs : List Nat) : List Nat :=
  let group := fun g => cs.filter (fun c => decide (clusterOf c % 8 = g))
  (List.range 32).flatMap (fun k => (List.range 8).flatMap (fun g => ((group g)[k]?).toList))

/-- What is crossing from a region, and what a crossing would carry to it, is discarded (R48). -/
def Region.dropCrossing (x : Region) : Region :=
  { x with collect := [], full := false, again := false, partialReq := [], turn := 0, pending := 0, waitCfg := [], outq := [], dropped := []
           traceBuf := [], watchq := [] }

/-- The rules hold their state outside SERVING; on the return to it their windows start again at the next boundary (R90). -/
def restartWindows (h : Hub) : Hub :=
  { h with cells := h.cells.map (fun p => (p.1, { p.2 with rules := p.2.rules.map (fun r => { r with start := none }) })) }

/-- The first host edge in DROWSE, or a request, returns the block to SERVING with the configured scan period (R292, R599). While an
orderly flush leads to DORMANT or a reset the edge is held behind it, and that transition leaves it nothing to do (R34). -/
def exitDrowse (h : Hub) : Hub :=
  if h.sys.st != .drowse || h.sys.orderly.isSome then h
  else
    let h := actHeld (restartWindows (toState .serving h))
    let p := h.casc.policy.pcfg
    if h.casc.p = p then h
    else
      let h := emitState 4 [w32 h.casc.p, w32 p] h
      { h with casc := { h.casc with p := p, fastRun := 0 } }

/-- The cells of a region count and its clock runs (Table 1.10). -/
def cellRuns (e : Env) (h : Hub) (c : Nat) : Bool := e.present c && upState h && !(region h (regionOf c)).stopped

/-! Counters (R77, R78, R82). -/

/-- The 35 counters in the order of CNT_READ: elapsed, busy, idle, stall 0–15, event 0–15. -/
def Counters.list (k : Counters) : List Cnt := [k.elapsed, k.busy, k.idle] ++ k.stalls ++ k.events

/-- The counter a SRC names (Table 3.8). -/
def Counters.src (k : Counters) (src : Nat) : Cnt := getAt k.list (if src < 3 then src else src - 1) 0

/-- A qualifier includes a presented state (Table 3.4, R82). -/
def qualIn (q st : BitVec 2) : Bool :=
  match q.toNat with
  | 0 => true
  | 1 => decide (st = 1)
  | 2 => decide (st = 2) || decide (st = 3)
  | _ => decide (st = 0)

/-- The accounting counters after one presented state (R77, R78). -/
def Counters.account (k : Counters) (st : BitVec 2) (reason : BitVec 4) : Counters :=
  let k := { k with elapsed := k.elapsed + 1 }
  if st = 1 then { k with busy := k.busy + 1 }
  else if st = 0 then { k with idle := k.idle + 1 }
  else
    let i := if st = 3 then 15 else reason.toNat
    { k with stalls := setAt k.stalls i (getAt k.stalls i 0 + 1) }

/-- The event counters after `n` occurrences of an event in a cycle of state `st` (R82). -/
def Counters.event (k : Counters) (sels : List EvSel) (st : BitVec 2) (sel n : Nat) : Counters :=
  { k with events := List.zipWith (fun (v : Cnt) (s : EvSel) =>
      if s.sel.toNat = sel && qualIn s.qual st then v + BitVec.ofNat 48 n else v) k.events sels }

/-- The event counters after the 32 host event lines of a cycle (R82). -/
def Counters.hostEvents (k : Counters) (sels : List EvSel) (st : BitVec 2) (ev : DWord) : Counters :=
  let add := fun (v : Cnt) (s : EvSel) =>
    let i := s.sel.toNat
    if i < 32 && qualIn s.qual st then v + BitVec.ofNat 48 (bitsOf ev.toNat (2 * i + 1) (2 * i)) else v
  { k with events := List.zipWith add k.events sels }

/-- A cell-internal event (Table 3.5), qualified by the state presented last; the counters hold at zero until the cell has its
configuration (R102). -/
def cellEvent (c sel : Nat) (h : Hub) (n : Nat := 1) : Hub :=
  onCell c (fun x => if x.armed then { x with cnt := x.cnt.event x.sels x.last sel n } else x) h

/-! Spore rules (R84–R90). -/

/-- Fields of a rule. -/
def Rule.en (r : Rule) : Bool := r.w0.getLsbD 63
/-- KIND -/
def Rule.kind (r : Rule) : Nat := bitsOf r.w0.toNat 62 61
/-- CMP: value ≤ THRESH -/
def Rule.le (r : Rule) : Bool := r.w0.getLsbD 60
/-- AUTOCLR -/
def Rule.autoclr (r : Rule) : Bool := r.w0.getLsbD 59
/-- MARK -/
def Rule.markBit (r : Rule) : Bool := r.w0.getLsbD 58
/-- SRC -/
def Rule.srcNo (r : Rule) : Nat := bitsOf r.w0.toNat 57 52
/-- THRESH -/
def Rule.thresh (r : Rule) : Nat := bitsOf r.w0.toNat 47 0
/-- HOLD -/
def Rule.holdN (r : Rule) : Nat := bitsOf r.w1.toNat 47 32
/-- WINDOW -/
def Rule.window (r : Rule) : Nat := bitsOf r.w1.toNat 31 0

/-- A comparison of a rule. -/
def Rule.test (r : Rule) (v t : Nat) : Bool := if r.le then decide (v ≤ t) else decide (v ≥ t)

/-- Increase of a 48-bit counter. -/
def cntDiff (a b : Cnt) : Nat := (a - b).toNat

/-- The condition of a rule over the increases since its base (R85). -/
def Rule.holds (r : Rule) (k : Counters) : Bool :=
  let d := cntDiff (k.src r.srcNo) r.base
  if r.kind = 2 then r.test (d * 65536) (r.thresh * cntDiff k.elapsed r.elapsed) else r.test d r.thresh

/-- A rule (re-)armed with the counters as they stand (R88); its windows restart at the next boundary. -/
def Rule.arm (r : Rule) (k : Counters) : Rule :=
  { r with base := k.src r.srcNo, elapsed := k.elapsed, run := 0, last := false, start := none }

/-- A cleared flag re-arms its rule (R88): the run of true results restarts, and a THRESH rule takes a new base. A window in progress goes on. -/
def Rule.rearm (r : Rule) (k : Counters) : Rule := { r with run := 0, base := if r.kind = 0 then k.src r.srcNo else r.base }

/-- The next whole multiple of a window at or after a time. -/
def windowFrom (w now : Nat) : Nat := if w = 0 then now else (now + w - 1) / w * w

/-- Rule `i` of a cell. -/
def ruleAt (x : Cell) (i : Nat) : Rule := getAt x.rules i {}

/-- A rule fires (R87): flag, stamp, event 42, the region's pending bit, and a mark when MARK is 1. -/
def fireRule (e : Env) (c i : Nat) (h : Hub) : Hub :=
  let now := nowNs h
  let mk := (ruleAt (cell h c) i).markBit
  let h := onCell c (fun x => { x with flags := x.flags ||| BitVec.ofNat 8 (2 ^ i), fresh := x.fresh ||| BitVec.ofNat 8 (2 ^ i), flagTb := setAt x.flagTb i now, flagCycle := setAt x.flagCycle i x.cnt.elapsed }) h
  let h := cellEvent c 42 h
  let h := onRegion (regionOf c) (fun r => { r with pending := r.pending ||| BitVec.ofNat 256 (2 ^ (c % 256)) }) h
  if mk then mark e 1 (coreId e h c) (w32 i) now h else h

/-- One evaluation of a rule (R85, R87): the latest result, the run of true ones, and the firing. A fired rule is evaluated
and does not fire. -/
def evalRule (e : Env) (c i : Nat) (v : Bool) (h : Hub) : Hub :=
  let x := cell h c
  let r := ruleAt x i
  let fired := x.flags.getLsbD i
  let run := if v then r.run + 1 else 0
  let fire := v && !fired && decide (run ≥ r.holdN)
  let h := onCell c (fun x => { x with rules := setAt x.rules i { (ruleAt x i) with last := v, run := if fire then 0 else run } }) h
  if fire then fireRule e c i h else h

/-- THRESH rules are evaluated on every edge; a RATE or FRACTION rule waits for its window's start (R85, R90). -/
def edgeRules (e : Env) (c : Nat) (h : Hub) : Hub :=
  if !(serving h) || !(cell h c).armed then h
  else (List.range 8).foldl (fun h i =>
    let x := cell h c
    let r := ruleAt x i
    if !r.en then h
    else if r.kind = 0 then evalRule e c i (r.holds x.cnt) h
    else
      let now := nowNs h
      let s := r.start.getD (windowFrom r.window now)
      let first := r.start.isNone
      let r := { r with start := some s }
      let r := if first || decide (now < s) then { r with base := x.cnt.src r.srcNo, elapsed := x.cnt.elapsed } else r
      onCell c (fun x => { x with rules := setAt x.rules i r }) h) h

/-- Flags of a cell clear: each re-arms its rule (R88), and the hub's view of the core follows. -/
def clearFlags (e : Env) (c : Nat) (bits : Byte) (h : Hub) : Hub :=
  let had := (cell h c).flags
  let h := onCell c (fun x => { x with
    flags := w1cSet x.flags x.fresh bits
    rules := (x.rules.zipIdx).map (fun r => if bits.getLsbD r.2 && x.flags.getLsbD r.2 && !x.fresh.getLsbD r.2 then r.1.rearm x.cnt else r.1) }) h
  if had &&& bits ≠ 0 ∧ (cell h c).flags = 0 then
    featWrite e (coreId e h c) (imgOf h).features.sporeFlag (int32f 0) (onHubc c (fun x => { x with spore := false }) h)
  else h

/-! Tensor watch (R91–R94). -/

/-- A watch element as a value; none for int32. -/
def watchFlt (fmt : BitVec 2) : Option FFmt :=
  match fmt.toNat with
  | 0 => some f32
  | 1 => some bf16
  | 2 => some f16
  | _ => none

/-- The value bits of a watch element: 16-bit formats use bits [15:0]. -/
def watchBits (fmt : BitVec 2) (w : Word) : Nat := if fmt = 1 ∨ fmt = 2 then w.toNat % 65536 else w.toNat

/-- Keep the first smallest (or largest) of the elements seen. -/
def watchKeep (less : Word → Word → Bool) (old : Option Word) (w : Word) : Option Word :=
  match old with
  | none => some w
  | some o => if less w o then some w else some o

/-- A float element into the statistics (R92). -/
def watchFloat (f : FFmt) (eoff : Int) (v : Nat) (x : WatchWin) : WatchWin :=
  let w : Word := BitVec.ofNat 32 v
  let lt := fun (a b : Word) => (f.decode a.toNat).lt (f.decode b.toNat)
  let mm := fun (x : WatchWin) => { x with min := watchKeep lt x.min w, max := watchKeep (fun a b => lt b a) x.max w }
  let x := { x with count := x.count + 1 }
  match f.decode v with
  | .nan => { x with nans := x.nans + 1 }
  | .inf false => mm { x with pinfs := x.pinfs + 1 }
  | .inf true => mm { x with ninfs := x.ninfs + 1 }
  | .fin _ m e =>
    if m = 0 then mm { x with zeros := x.zeros + 1 }
    else if m < 2 ^ f.mb then mm { x with subn := x.subn + 1 }
    else mm { x with hist := addAt x.hist (min 15 (e + f.mb - eoff).toNat) 1 }

/-- An int32 element into the statistics (R92). -/
def watchInt (eoff : Int) (w : Word) (x : WatchWin) : WatchWin :=
  let lt := fun (a b : Word) => decide (a.toInt < b.toInt)
  let x := { x with count := x.count + 1, min := watchKeep lt x.min w, max := watchKeep (fun a b => lt b a) x.max w }
  if w = 0 then { x with zeros := x.zeros + 1 }
  else { x with hist := addAt x.hist (min 15 ((Nat.log2 w.toInt.natAbs : Int) - eoff).toNat) 1 }

/-- The keys of a watch digest: those of the newer epoch (R93), read at each element, so that a window in which an epoch opens mixes both
epochs' keys: DEDUCED (log 80), R93 names the current epoch. -/
def watchKeys (h : Hub) : Fld × Fld × Bool :=
  laneKeys h (match h.dig.newer with
    | some ep => (ep.k0, ep.k1)
    | none => Config.noEpochKey)

/-- The watch window after one element (R92, R93). -/
def watchStep (h : Hub) (s : WatchSet) (w : Word) (x : WatchWin) : WatchWin :=
  if s.mode = 1 then
    match watchFlt s.fmt with
    | some f => watchFloat f s.eoff (watchBits s.fmt w) x
    | none => watchInt s.eoff w x
  else
    let k := watchKeys h
    let d := digAdd k.1 k.2.1 x.count (watchBits s.fmt w) (x.d0, x.d1)
    { x with count := x.count + 1, d0 := d.1, d1 := d.2, fixed := x.fixed || k.2.2 }

/-- A count of a window's histogram, 32 bits wide (R92); what one of 2^32 or more reads is a free value (log 87). -/
def histCount (n : Nat) : Nat := if n < 2 ^ 32 then n else (Config.histOver n).toNat

/-- The canonical quiet NaN that a window without a non-NaN element reports in the minimum and the maximum (R92). -/
def watchClose (s : WatchSet) (x : WatchWin) : WatchWin :=
  match s.mode.toNat, watchFlt s.fmt with
  | 1, some f =>
    let q : Word := BitVec.ofNat 32 f.qnan
    { x with min := some (x.min.getD q), max := some (x.max.getD q), hist := x.hist.map histCount }
  | 1, none => { x with hist := x.hist.map histCount }
  | _, _ => x

/-- A window completes: its result enters the two-entry buffer, or is discarded and counted (R94). -/
def watchEnd (c : Nat) (forced : Bool) (h : Hub) : Hub :=
  let x := cell h c
  let r := { (watchClose x.watch.set x.watch.win) with forced := forced }
  if x.watch.results.length ≥ 2 then
    cellEvent c 39 (onCell c (fun x => { x with watch := { x.watch with win := {}, lost := x.watch.lost + 1 } }) h)
  else onCell c (fun x => { x with watch := { x.watch with win := {}, results := x.watch.results ++ [r] } }) h

/-! Snapshots (R96–R99, R44). -/

/-- The strobe: every cell of a list captures its counters and the reset epoch. -/
def capture (cs : List Nat) (h : Hub) : Hub :=
  cs.foldl (fun h c => onCell c (fun x => { x with
    shadow := x.cnt.list, shadowTb := nowNs h, shadowEpoch := (region h (regionOf c)).epoch }) h) h

/-- Begin a full collection of a region. -/
def beginFull (e : Env) (r : Nat) (late : Bool) (h : Hub) : Hub :=
  let cs := deliveryOrder (regionCores e r)
  onRegion r (fun x => { x with collect := cs, full := true, again := false, late := late }) (capture cs h)

/-- Begin the oldest partial collection that waits, if any (R97). -/
def beginPartial (r : Nat) (h : Hub) : Hub :=
  match (region h r).partialReq with
  | [] => h
  | l :: t => onRegion r (fun x => { x with collect := deliveryOrder l, full := false, partialReq := t }) (capture (deliveryOrder l) h)

/-- Ask for a partial snapshot of cells of a region: of a request that names more than 32, the first 32 in core-number order. Requests are
served one after another, between full collections (R97). -/
def askPartial (r : Nat) (cs : List Nat) (h : Hub) : Hub :=
  let l := (((List.range 256).map (fun i => r * 256 + i)).filter cs.contains).take 32
  let h := if l.isEmpty then h else onRegion r (fun x => { x with partialReq := x.partialReq ++ [l] }) h
  if (region h r).collect.isEmpty && !(region h r).stopped then beginPartial r h else h

/-- The head cell of a region's collection has had its turn: the next collection begins when it was the last (R97, R99). -/
def turnDone (e : Env) (r : Nat) (h : Hub) : Hub :=
  let h := onRegion r (fun x => { x with collect := x.collect.drop 1, turn := 0 }) h
  let x := region h r
  if !x.collect.isEmpty then h
  else if x.again then beginFull e r true h
  else beginPartial r h

/-- A cell fault (R103): an outcome of the block-internal unit CELL with the core named. -/
def cellFault (e : Env) (c code : Nat) (h : Hub) : Hub :=
  unitFlag e (unitId e h 16) (unitFault e 16 code 1 (unitId e h 16) [coreId e h c] h)

/-- A core's data are reported invalid (Table 3.10). -/
def invalid (h : Hub) (c : Nat) : Bool := (hubc h c).failed || (hubc h c).proving || (region h (regionOf c)).fault

/-- Outcomes whose entries a full region queue discarded reach the hub as counts with a snapshot (R134): the outcome counter and feature
include them. That a RES_MISMATCH among them starts no confirmation window is DEDUCED (log 74): R134 lists which effects they have. -/
def countLost (e : Env) (c : Nat) (h : Hub) : Hub :=
  let l := (hubc h c).lostOut
  let h := onHubc c (fun x => { x with lostOut := [] }) h
  let pr := probing h c
  l.foldl (fun h code =>
    outcomeCounter e c code 0 1 (!pr) h) h

/-- The new reset epoch reaches the hub (R44): the reset is recorded, with the uncounted interval from the capture of the last snapshot that
was accepted of the old one; the reset is an outcome of unit CELL (R103, Table 3.10). -/
def epochArrives (e : Env) (c : Nat) (h : Hub) : Hub :=
  let r := regionOf c
  let x := ownId e h 2 r
  if (region h r).hubEpoch = (cell h c).shadowEpoch then h
  else
    let h := onRegion r (fun y => { y with hubEpoch := (cell h c).shadowEpoch }) h
    let h := emitUnit 10 x 16 [w32 r, (cell h c).shadowEpoch.setWidth 32] h
    let h := unitFlag e (unitId e h 16) (unitCount e (unitId e h 16) h)
    if (hubc h c).snapTb = 0 then h else lossRecord 9 x 16 0 (hubc h c).capTb (nowNs h) h

/-- A good snapshot is accepted (R43, R44, R107): the slot is replaced and the differences are taken. -/
def acceptGood (e : Env) (c : Nat) (h : Hub) : Hub :=
  let now := nowNs h
  let rg := region h (regionOf c)
  let x0 := hubc h c
  let snap := (cell h c).shadow
  let ep := (cell h c).shadowEpoch
  let changed := x0.based && decide (x0.epoch ≠ ep)
  let h := epochArrives e c h
  let old := if changed || x0.fromZero then List.replicate 35 0 else x0.snap
  let d := List.zipWith cntDiff snap old
  let count := x0.based || x0.fromZero
  let good := x0.goodRun + 1
  let h := if !x0.based && x0.badRun > 0 && x0.snapTb > 0 then lossRecord 9 (coreId e h c) 16 0 x0.snapTb now h else h
  let h := onHubc c (fun x => { x with
    snap := snap, snapTb := now, capTb := (cell h c).shadowTb, epoch := ep, based := true, fromZero := false, badRun := 0, skips := 0, noResp := false
    delta := if count then List.zipWith (· + ·) x.delta d else x.delta
    deltaNs := if count then x.deltaNs + (now - x0.snapTb) else x.deltaNs
    stretchSeen := rg.stretched, stretchDelta := if count then x.stretchDelta + (rg.stretched - x0.stretchSeen) else x.stretchDelta
    goodRun := good, proving := x.proving && decide (good < 3), late := rg.late, stopped := rg.stopSeen || rg.stopped }) h
  countLost e c (onRegion (regionOf c) (fun r => { r with answered := true }) h)

/-- A snapshot with a parity or sum error is discarded; the third in a row marks the cell FAILED (Table 3.10). -/
def acceptBad (e : Env) (c : Nat) (h : Hub) : Hub :=
  let n := (hubc h c).badRun + 1
  let h := cellFault e c 0 (onHubc c (fun x => { x with badRun := n, goodRun := 0, skips := 0, based := false }) h)
  if n = 3 then cellFault e c 1 (onHubc c (fun x => { x with failed := true }) h) else h

/-! Resets and configuration (R102, R121, Table 3.14). -/

/-- A lane as a reset leaves it (R121): no word, no tile, PSEQ 0; what it still has to present stays. -/
def Lane.discard (l : Lane) : Lane := { l with fifo := [], filling := true, pseq := 0, tiles := [], late := [], ignore := [] }

/-- The rules of a cell rewritten from the hub's copy, armed with the counters as they stand. -/
def rulesOf (x : HubCell) (k : Counters) : List Rule := x.rules.map (fun d => Rule.arm { w0 := d.1, w1 := d.2 } k)

/-- Counters, flags and watch state of a cell clear (R102); its configuration waits for the hub's rewrite. -/
def clearCell (c : Nat) (h : Hub) : Hub :=
  let h := closeTiles c 5 h
  let h := onHubc c (fun x => { x with spore := false }) h
  onCell c (fun x => { x with
    cnt := {}, flags := 0, flagTb := List.replicate 8 0, rules := List.replicate 8 {}, sels := List.replicate 16 {}
    watch := {}, armed := false, lane := x.lane.discard }) h

/-- The hub rewrites a cell's configuration from its copy (R102). -/
def rewriteCell (c : Nat) (h : Hub) : Hub :=
  let y := hubc h c
  onCell c (fun x => { x with
    sels := y.sels, rules := rulesOf y x.cnt, watch := { x.watch with set := y.watch }, armed := true }) h

/-- CELL_CFG RESET at the cell (Table 3.14). -/
def resetCell (c : Nat) (h : Hub) : Hub :=
  let h := rewriteCell c (clearCell c h)
  onHubc c (fun x => { x with
    fromZero := x.based, failed := false, proving := x.proving || x.failed, badRun := 0, goodRun := 0, skips := 0 }) h

/-- WATCH_SET at the cell: a change of stream, format or mode ends the window and ignores LC_WV for 16 cycles (R94). -/
def applyWatch (c : Nat) (h : Hub) : Hub :=
  let s := (hubc h c).watch
  onCell c (fun x =>
    let o := x.watch.set
    let w := { x.watch with set := s }
    if o.stream ≠ s.stream ∨ o.fmt ≠ s.fmt ∨ o.mode ≠ s.mode then { x with watch := { w with win := {}, ignore := 16 } }
    else { x with watch := w }) h

/-- RULE_SET at the cell: the new descriptor, its flag clear and the rule armed (R88). -/
def applyRule (e : Env) (c i : Nat) (h : Hub) : Hub :=
  let h := clearFlags e c (BitVec.ofNat 8 (2 ^ i)) h
  let d := getAt (hubc h c).rules i (0, 0)
  onCell c (fun x => { x with rules := setAt x.rules i (Rule.arm { w0 := d.1, w1 := d.2 } x.cnt) }) h

/-- Core-scoped settings of RES_CFG take effect at a core's lane (Table 4.12). -/
def resToCore (bounded required : Option Bool) (uacc : Option Nat) (c : Nat) (h : Hub) : Hub :=
  onHubc c (fun x => { x with
    bounded := bounded.getD x.bounded, required := required.getD x.required, uacc := uacc.getD x.uacc }) h

/-- What a command changes in a cell takes effect there. -/
def applyWait (e : Env) (c : Nat) (w : Wait) (h : Hub) : Hub :=
  match w with
  | .sels => onCell c (fun x => { x with sels := (hubc h c).sels }) h
  | .watch => applyWatch c h
  | .rule i => applyRule e c i h
  | .reset => resetCell c h
  | .hold v => applyHold c v h
  | .flags b => clearFlags e c b h
  | .res b r u => resToCore b r u c h
  | .tsel b => applyTsel e c b h

/-- Send a change to a cell: at once, or when its region's clock returns (R47). The second answer says that it waits. -/
def sendCell (e : Env) (c : Nat) (w : Wait) (h : Hub) : Hub × Bool :=
  if (region h (regionOf c)).stopped then
    (onRegion (regionOf c) (fun r => { r with waitCfg := r.waitCfg ++ [(c, w)] }) h, true)
  else (applyWait e c w h, false)

/-- The reply of a command whose effect goes to a cell: OK, or ACCEPTED when it waits (R47). -/
def cellAns (p : Hub × Bool) : Ans := .done (if p.2 then stAccepted else stOk) 0 [] p.1

/-! Core operands. -/

/-- A word names a core entity of the fleet (Table 1.5). -/
def coreWord (h : Hub) (w : Word) : Bool := entOk h w && decide (kindOf w = 0)

/-- The present core of this die that a word names; absent or of another die is NOT_FOUND (R104). -/
def presentCore (e : Env) (h : Hub) (w : Word) : Option Nat := (ownCore e h w).bind (fun c => if e.present c then some c else none)

/-- CELL_STATUS [11:0] (Table 3.11). -/
def cellStatus (e : Env) (h : Hub) (c : Nat) : Nat :=
  let x := hubc h c
  let y := cell h c
  if !e.present c then 0
  else x.epoch.toNat * 256 + 128 + b2n x.failed * 64 + b2n x.stopped * 32 + b2n (y.hold == 2) * 16 + b2n (y.hold == 1) * 8 +
    b2n y.trace.tsel * 4 + b2n (x.watch.mode != 0) * 2 + b2n x.late

end Sys2Proof.Machine
end

