-- ==== Sys2Proof/Machine/LaneOps.lean ====
section
/-!
DEFINITION. The residue lane: beats, sequencing, comparison and the region queue of outcomes (R113–R137, R640).
-/
namespace Sys2Proof.Machine

/-- Change a core's lane. -/
def onLane (c : Nat) (f : Lane → Lane) (h : Hub) : Hub := onCell c (fun x => { x with lane := f x.lane }) h

/-- The residue lanes run (Table 1.10) and the region's clock does. -/
def laneRuns (e : Env) (h : Hub) (c : Nat) : Bool := cellRuns e h c && working h

/-- An entry that meets a full region queue is discarded, and the next one delivered carries the count (R134). -/
def dropEntry (o : TapOut) (h : Hub) : Hub :=
  onRegion (regionOf o.core) (fun x =>
    let old := (x.dropped.find? (fun p => decide (p.core = o.core))).getD { core := o.core, first := nowNs h }
    let out := o.audit.isNone && o.lateEnd.isNone
    { x with dropped := x.dropped.filter (fun p => decide (p.core ≠ o.core)) ++ [{ old with
        count := old.count + 1, audits := old.audits + b2n o.audit.isSome, codes := if out then old.codes ++ [o.res.toNat] else old.codes }] }) h

/-- The timeout record of a tile is remembered for a later END (R130). -/
def rememberTimeout (c : Nat) (t : Option Tile) (rseq : Word) (h : Hub) : Hub :=
  match t with
  | none => h
  | some t => onHubc c (fun x => { x with timeouts := (x.timeouts ++ [(t.tag, t.pseq, rseq)]).drop (x.timeouts.length - 15) }) h

/-- An entry for the region's queue of 64 (R134). An outcome that finds it full still reaches the hub as a count; a timeout without an
entry has no record that a late END could name. -/
def postOut (o : TapOut) (h : Hub) : Hub :=
  let r := regionOf o.core
  if (region h r).outq.length < 64 then onRegion r (fun x => { x with outq := x.outq ++ [o] }) h
  else
    let h := if o.audit.isNone && o.lateEnd.isNone then onHubc o.core (fun x => { x with lostOut := x.lostOut ++ [o.res.toNat] }) h else h
    let h := if o.audit.isNone && decide (o.res = 2) then rememberTimeout o.core o.tile 0 h else h
    dropEntry o h

/-- An entry of this core, now, under the region's condition of now (R152, R349). -/
def mkOut (e : Env) (c : Nat) (h : Hub) : TapOut :=
  { core := c, res := 0, tb := nowNs h, hostCycle := (cell h c).cnt.elapsed, cond := regionBin e h (regionOf c) }

/-- An outcome is due on TAP_RV six host cycles from now (R127). -/
def presentIn6 (c : Nat) (res : BitVec 2) (tag : BitVec 16) (h : Hub) : Hub :=
  onLane c (fun l => { l with due := l.due ++ [{ due := l.cycle + 6, res := res, rtag := tag }] }) h

/-- A protocol outcome of a tile, or of none (R128): event 35, the queue, and TAP_RV when a tile is concerned. -/
def tapProto (e : Env) (c sub : Nat) (t : Option Tile) (h : Hub) : Hub :=
  let h := cellEvent c 35 h
  let h := match t with
    | some t => presentIn6 c 3 t.tag h
    | none => h
  postOut { (mkOut e c h) with res := 3, sub := sub, tile := t } h

/-- The word at the FIFO head is handed out (R119, R121). -/
def takeWord (c : Nat) (h : Hub) : Hub :=
  onLane c (fun l => match l.fifo with
    | [] => l
    | _ :: t => { l with fifo := t, pseq := l.pseq + 1 }) h

/-- TAP_PTAKE where it is not legal (sub-code 3): the word is consumed, and no tile is concerned (R128). -/
def takeWrongly (e : Env) (c : Nat) (h : Hub) : Hub := tapProto e c 3 none (takeWord c h)

/-- Bits of a beat. -/
def beatBits (d : BitVec 128) (hi lo : Nat) : Nat := bitsOf d.toNat hi lo

/-- A tile that a START or SKIP beat names (Table 4.3), with the point word taken. -/
def beatTile (h : Hub) (c : Nat) (d : BitVec 128) (w : PointWord) : Tile :=
  { bounded := decide (beatBits d 127 126 = 1), orient := BitVec.ofNat 2 (beatBits d 125 124)
    fmtL := BitVec.ofNat 4 (beatBits d 123 120), fmtR := BitVec.ofNat 4 (beatBits d 119 116)
    fmtC := BitVec.ofNat 2 (beatBits d 115 114), pseq := BitVec.ofNat 4 (beatBits d 113 110)
    m := beatBits d 109 99, n := beatBits d 98 88, k := beatBits d 87 67, tag := BitVec.ofNat 16 (beatBits d 66 51), word := w
    deadline := nowNs h + h.res.timeout, stopped0 := (region h (regionOf c)).stoppedNs }

/-- The fields of a START or SKIP beat are legal for the core (Table 4.7, sub-code 9). -/
def beatOk (d : BitVec 128) (bounded : Bool) : Bool :=
  let f := beatBits d
  decide (f 50 0 = 0) && decide (f 127 126 = b2n bounded) && decide (f 125 124 ≤ 2) && decide (f 123 120 ≤ 6) &&
    decide (f 119 116 ≤ 6) && decide (f 115 114 ≤ 2) && decide (1 ≤ f 109 99) && decide (f 109 99 ≤ 1024) &&
    decide (1 ≤ f 98 88) && decide (f 98 88 ≤ 1024) && decide (1 ≤ f 87 67) && decide (f 87 67 ≤ 1048576)

/-- A point word as it is handed out: while FIXED is 1 it carries the fixed s, t and u, whenever it was assigned (R123). DEDUCED (log 85). -/
def fixWord (h : Hub) (w : PointWord) : PointWord :=
  if h.res.dbgS.getLsbD 63 then { w with s := h.res.dbgS.setWidth 61, t := h.res.dbgT.setWidth 61, u := h.res.dbgU.setWidth 61, fixed := true }
  else w

/-- The word a beat takes: that at the head, or an empty one when there is none. -/
def headWord (h : Hub) (c : Nat) : PointWord := fixWord h (((cell h c).lane.fifo.head?).getD { audit := false, s := 0, t := 0, u := 0, fixed := false })

/-- The first violation of a new tile of a START or SKIP beat (R640): 0 for none. -/
def newTileCheck (h : Hub) (c : Nat) (d : BitVec 128) (ptake skip : Bool) : Nat :=
  let l := (cell h c).lane
  if !ptake || l.fifo.isEmpty then 1
  else if decide (beatBits d 113 110 ≠ l.pseq.toNat) then 2
  else if !beatOk d (hubc h c).bounded then 9
  else if skip && l.req && decide (l.reqAge > 16) then 10
  else 0

/-- Close the earlier open tiles that have fewer than K pairs (sub-code 6). -/
def closeShort (e : Env) (c : Nat) (h : Hub) : Hub :=
  let short := (cell h c).lane.tiles.filter (fun t => decide (t.pairs < t.k))
  let h := onLane c (fun l => { l with tiles := l.tiles.filter (fun t => !decide (t.pairs < t.k)) }) h
  short.foldl (fun h t => tapProto e c 6 (some t) h) h

/-- A START beat (R126, R128, R640). -/
def lanStart (e : Env) (c : Nat) (d : BitVec 128) (ptake : Bool) (h : Hub) : Hub :=
  let v := newTileCheck h c d ptake false
  let t := beatTile h c d (headWord h c)
  let h := if ptake then takeWord c h else h
  let h := if v = 0 then h else tapProto e c v (some t) h
  let h := closeShort e c h
  if v ≠ 0 then h
  else
    let h := match (cell h c).lane.tiles with
      | t0 :: t1 :: rest => tapProto e c 8 (some t0) (onLane c (fun l => { l with tiles := t1 :: rest }) h)
      | _ => h
    onLane c (fun l => { l with tiles := l.tiles ++ [t] }) h

/-- A SKIP beat (R133, R640). -/
def lanSkip (e : Env) (c : Nat) (d : BitVec 128) (ptake : Bool) (h : Hub) : Hub :=
  let v := newTileCheck h c d ptake true
  let t := beatTile h c d (headWord h c)
  let h := if ptake then takeWord c h else h
  let h := if v = 0 then h else tapProto e c v (some t) h
  let h := if v = 0 ∨ v = 10 then countCore c 1 { h with res := { h.res with tileSkip := h.res.tileSkip + 1 } } else h
  closeShort e c h

/-- One binary64 fused multiply-add of two binary32 factors (R136). -/
def fma64 (a b : Nat) (s : DWord) : DWord :=
  BitVec.ofNat 64 (f64.encode (((f32.decode a).mul (f32.decode b)).add (f64.decode s.toNat)))

/-- A tile after one PAIR beat: the lane sum and fingerprints (R114, R127), or the bounded sums (R135, R136). -/
def Tile.pair (t : Tile) (d : BitVec 128) : Tile :=
  if t.bounded then
    let x := fun hi lo => beatBits d hi lo
    let fin := fun v => (f32.decode v).isFin
    { t with
      pairs := t.pairs + 1, bs := fma64 (x 127 96) (x 95 64) t.bs, bm := fma64 (x 63 32) (x 31 0) t.bm
      bad := t.bad || !(fin (x 127 96) && fin (x 95 64) && fin (x 63 32) && fin (x 31 0)) }
  else
    let a := fld (beatBits d 121 61)
    let b := fld (beatBits d 60 0)
    { t with
      pairs := t.pairs + 1, sum := fAdd t.sum (fMul a b)
      fa := fMul (fAdd t.fa a) t.word.u, fb := fMul (fAdd t.fb b) t.word.u }

/-- Replace the newest open tile. -/
def setNewest (t : Tile) (l : List Tile) : List Tile := l.dropLast ++ [t]

/-- A PAIR beat (R126, R640). After sub-code 5 has closed the newest tile, a further PAIR goes to the tile that is then the newest open one,
the older: DEDUCED (log 75), by R126's "the most recently opened tile" among those open. -/
def lanPair (e : Env) (c : Nat) (d : BitVec 128) (ptake : Bool) (h : Hub) : Hub :=
  let h := if ptake then takeWrongly e c h else h
  match (cell h c).lane.tiles.getLast? with
  | none => tapProto e c 4 none h
  | some t =>
    if t.pairs ≥ t.k then
      tapProto e c 5 (some t) (onLane c (fun l => { l with tiles := l.tiles.dropLast, ignore := l.ignore ++ [t.tag] }) h)
    else onLane c (fun l => { l with tiles := setNewest (t.pair d) l.tiles }) h

/-- The rounding bound B of a bounded tile (R136), every operation rounded upward. -/
def boundOf (t : Tile) (uacc : Nat) : Flt :=
  let up := fun (x : Flt) => f64.decode (f64.encode x true)
  let a := up (.fin false (t.k + t.m + t.n) (-(uacc : Int)))
  let tau := up (a.add (.fin false 1 (-40)))
  up (tau.mul (f64.decode t.bm.toNat))

/-- A bounded tile passes: |v − S| is at most B, without rounding; a non-finite value fails (R136). -/
def boundedPass (t : Tile) (uacc v : Nat) : Bool :=
  match f64.decode v, f64.decode t.bs.toNat, boundOf t uacc with
  | .fin a m e, .fin b n k, .fin false p q =>
    !t.bad && (match (Flt.fin a m e).add (.fin (!b) n k) with
      | .fin _ r s => !(Flt.fin false p q).lt (.fin false r s)
      | _ => false)
  | _, _, .inf false => !t.bad && (f64.decode v).isFin
  | _, _, _ => false

/-- The lane's comparison at END (R127, R136). -/
def tilePass (t : Tile) (uacc : Nat) (v : Nat) : Bool := if t.bounded then boundedPass t uacc v else decide (fld v = t.sum)

/-- The audit request of an audited tile that ends (R138): the lane-side figures and the lane's result. -/
def askAudit (e : Env) (c : Nat) (t : Tile) (res : BitVec 3) (slot : BitVec 2) (ready : Bool) (v : DWord) (h : Hub) : Hub :=
  if t.word.audit then postOut { (mkOut e c h) with res := res, tile := some t, vsent := v, audit := some (slot, ready) } h else h

/-- The oldest tile ends normally: checked, compared, counted, presented (R127). -/
def endNormal (e : Env) (c : Nat) (t : Tile) (v : DWord) (h : Hub) : Hub × BitVec 3 :=
  let h := countCore c 0 { h with res := { h.res with tiles := h.res.tiles + 1 } }
  if tilePass t (hubc h c).uacc v.toNat then (cellEvent c 32 (presentIn6 c 0 t.tag h), 0)
  else
    let h := cellEvent c 33 (presentIn6 c 1 t.tag h)
    (postOut { (mkOut e c h) with res := 1, tile := some t, vsent := v } h, 1)

/-- An END beat for the oldest open tile, after the checks that concern no tile (R132, R640). An audited tile that ends with STATUS abort
asks for no audit: DEDUCED (log 76), since R132 lets nothing be made of its output. -/
def endOldest (e : Env) (c : Nat) (t : Tile) (d : BitVec 128) (h : Hub) : Hub :=
  let f := beatBits d
  let st := f 127 126
  let v : DWord := BitVec.ofNat 64 (f 63 0)
  let bad := decide (f 122 80 ≠ 0) || decide (st = 3) || (!t.bounded && decide (f 63 61 ≠ 0))
  let h := onLane c (fun l => { l with tiles := l.tiles.drop 1 }) h
  let slot := BitVec.ofNat 2 (f 124 123)
  let ready := bitOf d.toNat 125
  if bad then tapProto e c 9 (some t) h
  else if decide (f 79 64 ≠ t.tag.toNat) then tapProto e c 7 (some t) h
  else if t.pairs < t.k then tapProto e c 6 (some t) h
  else if st = 1 then askAudit e c t 4 slot ready v (countCore c 2 h)
  else if st = 2 then countCore c 3 h
  else
    let r := endNormal e c t v h
    askAudit e c t r.2 slot ready v r.1

/-- An END beat (R126–R132, R640). -/
def lanEnd (e : Env) (c : Nat) (d : BitVec 128) (ptake : Bool) (h : Hub) : Hub :=
  let h := if ptake then takeWrongly e c h else h
  let l := (cell h c).lane
  let tag := BitVec.ofNat 16 (beatBits d 79 64)
  let open_ := l.tiles.any (fun t => decide (t.tag = tag))
  match l.late.find? (fun p => p.1 = tag), open_ with
  | some p, false =>
    postOut { (mkOut e c h) with lateEnd := some p } (onLane c (fun l => { l with late := l.late.erase p }) h)
  | _, _ =>
    if !open_ && l.ignore.contains tag then onLane c (fun l => { l with ignore := l.ignore.erase tag }) h
    else match l.tiles with
      | [] => tapProto e c 4 none h
      | t :: _ => endOldest e c t d h

/-- Time a region has been stopped so far. -/
def stoppedSoFar (h : Hub) (r : Nat) : Nat :=
  let x := region h r
  x.stoppedNs + (if x.stopped then nowNs h - x.stopTb else 0)

/-- When a tile's timeout expires, stops excluded (R129). -/
def tileDue (h : Hub) (c : Nat) (t : Tile) : Nat := t.deadline + (stoppedSoFar h (regionOf c) - t.stopped0)

/-- A tile's timeout has expired (R129). -/
def tileExpired (h : Hub) (c : Nat) (t : Tile) : Bool := decide (tileDue h c t ≤ nowNs h)

/-- Close a tile with RES_TAP_TIMEOUT (R129, R130). -/
def timeOutTile (e : Env) (c : Nat) (t : Tile) (h : Hub) : Hub :=
  let h := onLane c (fun l => { l with
    tiles := l.tiles.filter (fun x => x != t), late := (l.late ++ [(t.tag, t.pseq)]).drop (l.late.length - 15) }) h
  let h := presentIn6 c 2 t.tag (cellEvent c 34 h)
  postOut { (mkOut e c h) with res := 2, tile := some t } h

end Sys2Proof.Machine
end

