-- ==== Sys2Proof/Machine/TimeOps.lean ====
section
/-!
DEFINITION. TB, its corrections, and the time quality (R49–R58, R643).
-/
namespace Sys2Proof.Machine

/-- Units of 2^-32 ns in one ns. -/
def tbUnit : Nat := 2 ^ 32

/-- A magnitude bound on an integer. -/
def clampInt (b : Nat) (i : Int) : Int := max (-(b : Int)) (min (b : Int) i)

/-- The slew limit in 2^-32 ns per CK_CORE cycle (R51). -/
def slewLimit (t : TimeU) : Nat := t.slewPpm * 2 ^ 32 / 1000000

/-- SLEW now: towards the offset still to be absorbed, zero once it is (R51). -/
def slewNow (t : TimeU) : Int := clampInt (slewLimit t) t.toSlew

/-- The sum RATE + SLEW, clamped to ±2,000 ppm (R49). -/
def trimNow (t : TimeU) : Int := clampInt 8589935 (t.rate + slewNow t)

/-- The increment of TB in one CK_CORE cycle (R49). -/
def tbIncrement (t : TimeU) : Nat := ((tbUnit : Int) + trimNow t).toNat

/-- One CK_CORE cycle of the time base: TB advances, and what SLEW adds beside RATE is absorbed (R49, R51). -/
def tbCycle (t : TimeU) : TimeU :=
  { t with tb := t.tb + BitVec.ofNat 96 (tbIncrement t), toSlew := t.toSlew - (trimNow t - clampInt 8589935 t.rate) }

/-- One REFCLK cycle of the island's carry in DORMANT: 10 ns, no fraction (R59). -/
def tbDormant (t : TimeU) : TimeU := { t with tb := BitVec.ofNat 96 ((t.tb.toNat / tbUnit + 10) * tbUnit) }

/-- The lock threshold of the role in ns (R58). -/
def lockThreshold (e : Env) : Nat := if e.tray then 1000 else 100

/-- Change the time quality: recorded as a STATE record and counted (R57), and HUB_IRQSTAT.QUALITY set (R620). -/
def setQuality (q : Nat) (h : Hub) : Hub :=
  if h.time.quality.toNat = q % 4 then h
  else
    irq 1 (emitState 1 ([w32 h.time.quality.toNat, w32 q] ++ w64 (nowNs h))
      { h with time := { h.time with quality := BitVec.ofNat 2 q, qchanges := h.time.qchanges + 1 } })

/-- The quality that the source, REFCLK and the run of locked intervals give (Table 2.6). -/
def qualityNow (h : Hub) : Nat :=
  if h.time.source ≠ 1 ∨ h.isl.refLost then 0 else if h.time.lockRun ≥ 8 then 2 else 1

/-- TB at the start of a monotonic span is bounded by R52; before its first SERVING, R53 allows a step either way. -/
def mayStep (h : Hub) (off : Int) : Bool :=
  if h.time.span then decide (off > (h.time.stepThr : Int))
  else (h.sys.st == .config || h.sys.st == .playa) && decide (off.natAbs > h.time.stepThr)

/-- TB stepped by an offset in ns: recorded with the TB before and after (R52, R53); the trace's next packet follows a SEIF (R489). Timers are absolute TB deadlines; those
that a forward step passes expire at once, in the order of their deadlines (R54, `Due.lean`). -/
def stepTb (off : Int) (h : Hub) : Hub :=
  let before := nowNs h
  let after := ((before : Int) + off).toNat
  let t := { h.time with
    tb := BitVec.ofNat 96 (after * tbUnit + h.time.tb.toNat % tbUnit), steps := h.time.steps + 1, lastStep := off
    stepped := true, toSlew := 0, due := h.time.due || decide (off > 0)
    gap := h.time.gap.map (fun g => (g.1, g.2.1, g.2.2 + off)) }
  emitState 2 (w64 before ++ w64 after) { h with time := t, trc := { h.trc with seifDue := true } }

/-- Correct an offset in ns, positive when TB is behind: by a step where R52 or R53 calls for one, otherwise by slewing. -/
def correct (off : Int) (h : Hub) : Hub :=
  if mayStep h off then stepTb off h
  else { h with time := { h.time with toSlew := off * (tbUnit : Int) } }

/-- A sync measurement: the offset of TB from the source in ns (positive when TB is ahead). TB is corrected, the run of
locked intervals counted, and the quality follows (R55, R57). An interval without a sync breaks the run. -/
def syncMeasured (e : Env) (off : Int) (h : Hub) : Hub :=
  if h.time.source ≠ 1 then h
  else
    let now := nowNs h
    let broken := decide (h.time.lastSync + 2 * h.time.syncInt ≤ now) || decide (h.time.quality = 3)
    let run0 := if broken then 0 else h.time.lockRun
    let run := if off.natAbs ≤ lockThreshold e then run0 + 1 else 0
    let h := { h with time := { h.time with offset := off, lockRun := run, lastSync := now } }
    correct (-off) (setQuality (qualityNow h) h)

/-- A change of source: the run of locked intervals restarts and the quality follows Table 2.6. -/
def sourceChanged (old : BitVec 2) (h : Hub) : Hub :=
  if h.time.source = old then h
  else setQuality (qualityNow { h with time := { h.time with lockRun := 0 } }) { h with time := { h.time with lockRun := 0 } }

/-- The time settings (Table 2.9). -/
def timeSetting (num : Nat) (v : List Word) (t : TimeU) : Option TimeU :=
  match num with
  | 1 => (within 0 2 (one v)).map (fun n => { t with source := BitVec.ofNat 2 n })
  | 2 => (withinS (-4294967) 4294967 (oneS v)).map (fun n => { t with rate := n })
  | 3 => (within 1 1000 (one v)).map (fun n => { t with slewPpm := n })
  | 4 => (within 1000 1000000000 (two v)).map (fun n => { t with stepThr := n })
  | 5 => (within 1000000000 3600000000000 (two v)).map (fun n => { t with holdoverLimit := n })
  | 6 => (within 100 100000 (two v)).map (fun n => { t with stopThr := n })
  | 7 => if v.length = 8 ∧ v.all (fun w => decide (100 ≤ w.toNat) && decide (w.toNat ≤ 1600)) then
      some { t with mhz := v.map BitVec.toNat } else none
  | _ => none

end Sys2Proof.Machine
end

