-- ==== Sys2Proof/Machine/TimeCmds.lean ====
section
/-!
DEFINITION. Identity, state and time commands (R473, R482, R56, R57, R643).
-/
namespace Sys2Proof.Machine

/-- Run a command packet with its opcode's definition. -/
def State.runOp (s : State) (d : OpDef) (c : Cmd) : Host.Outcome State Fault Refusal := s.run (fun e h => runCmd d e c h)

/-- The words of SYS_INFO (Table 12.11). -/
def sysInfoWords (e : Env) (h : Hub) : List Word :=
  [w32 (0x5376 * 2 ^ 16 + e.fuses.stepping.toNat * 2 ^ 8 + Config.firmware.toNat),
   w32 (b2n e.tray * 2 ^ 31 + b2n e.debugDis * 2 ^ 30 + nodeNo e h), w32 e.cellCount] ++ w64 (e.fuse 57 10)

/-- SYS_INFO -/
def opSysInfo : OpDef := {
  code := 0x00, may := anyDom, form := fun c => c.words.isEmpty
  act := fun e h _ => ok (sysInfoWords e h) h }

/-- SYS_INFO (R473). -/
def execSysInfo (c : Cmd) (s : State) : Host.Outcome State Fault Refusal := s.runOp opSysInfo c

/-- The SYS_STATE READ word (R482). -/
def stateWord (e : Env) (h : Hub) : Nat :=
  h.sys.st.code + h.time.quality.toNat * 2 ^ 4 + b2n e.tray * 2 ^ 6 + b2n h.prot.locked * 2 ^ 7 +
    (if h.sys.st == .playa then h.sys.playaCause.toNat else 0) * 2 ^ 8

/-- SYS_STATE READ -/
def opSysStateRead : OpDef := {
  code := 0x02, may := anyDom, form := fun c => decide (c.words.length ≤ 1)
  act := fun e h _ => ok [w32 (stateWord e h)] h }

/-- SYS_STATE READ (R482); no operation word means READ (Table 12.6). -/
def execSysStateRead (c : Cmd) (opWord : Bool) (s : State) : Host.Outcome State Fault Refusal :=
  s.runOp opSysStateRead (if opWord then withOp 0 c else c)

/-- TIME_SET -/
def opTimeSet : OpDef := {
  code := 0x10, changes := true, may := fleetDom, form := fun c => decide (c.words.length = 2)
  act := fun _ h c =>
    if h.time.source = 1 then refuse stWrongState h else ok [] (correct ((c.d 1 : Int) - nowNs h) h) }

/-- TIME_SET (R56): writes TB when no source is selected, under R52 and R53. -/
def execTimeSet (c : Cmd) (s : State) : Host.Outcome State Fault Refusal := s.runOp opTimeSet c

/-- TIME_TRIM -/
def opTimeTrim : OpDef := {
  code := 0x11, changes := true, may := fleetDom, form := fun c => decide (1 ≤ c.words.length)
  range := fun _ h c => badSet (c.settings 1 timeSetting h.time)
  act := fun _ h c => ok [] (sourceChanged h.time.source { h with time := setOr h.time (c.settings 1 timeSetting h.time) }) }

/-- TIME_TRIM (R643, R50, R56). -/
def execTimeTrim (c : Cmd) (s : State) : Host.Outcome State Fault Refusal := s.runOp opTimeTrim c

/-- The words of TIME_READ (Table 12.13). -/
def timeReadWords (h : Hub) : List Word :=
  w64 (nowNs h) ++ [h.time.tb.setWidth 32,
    w32 (h.time.quality.toNat + h.time.source.toNat * 4 + b2n h.isl.refLost * 16),
    wInt h.time.rate, wInt (slewNow h.time), wInt h.time.offset]

/-- TIME_READ -/
def opTimeRead : OpDef := {
  code := 0x12, may := anyDom, form := fun c => c.words.isEmpty
  act := fun _ h _ => ok (timeReadWords h) h }

/-- TIME_READ (R57): both parts of TB from one sample. -/
def execTimeRead (c : Cmd) (s : State) : Host.Outcome State Fault Refusal := s.runOp opTimeRead c

/-- HOLDOVER_ENTRY (R57): LOCKED without a valid sync for 3 sync intervals. -/
def execHoldoverEntry (s : State) : Host.Outcome State Fault Refusal :=
  s.run (fun _ h => guard (decide (h.time.quality = 2) && decide (h.time.lastSync + 3 * h.time.syncInt ≤ nowNs h) && alive h)
    (fun h => setQuality 3 { h with time := { h.time with holdSince := nowNs h } }) h)

/-- HOLDOVER_LIMIT_EXPIRY (R58): HOLDOVER beyond the holdover limit becomes FREE. -/
def execHoldoverLimitExpiry (s : State) : Host.Outcome State Fault Refusal :=
  s.run (fun e h => guard (decide (h.time.quality = 3) && decide (h.time.holdSince + h.time.holdoverLimit ≤ nowNs h) && alive h &&
      !e.beaten evSync (h.time.holdSince + h.time.holdoverLimit) (nowNs h))
    (fun h => setQuality 0 { h with time := { h.time with lockRun := 0 } }) h)

/-- The POWER record of a REFCLK loss or return (Table 15.4). Where no record is written, in COLD, FUSE and DORMANT, the island keeps it for
the entry to CONFIG (R33, R40). -/
def refclkRecord (back : Bool) (h : Hub) : Hub :=
  if alive h || h.sys.st == .flush then emit 12 1 0 noEnt 61 4 (w32 (b2n back) :: w64 (nowNs h)) h
  else { h with isl := { h.isl with refRecs := h.isl.refRecs ++ [(back, nowNs h)] } }

/-- REFCLK_LOSS (R40): recorded, quality FREE, the block keeps running. -/
def execRefclkLoss (s : State) : Host.Outcome State Fault Refusal :=
  s.run (fun _ h => guard (!h.isl.refLost)
    (fun h => setQuality 0 { (refclkRecord false h) with
      isl := { h.isl with refLost := true }, time := { h.time with lockRun := 0 } }) h)

/-- REFCLK_RETURN (R40): recorded as a return; the quality becomes ACQUIRING at once when a source is selected. -/
def execRefclkReturn (s : State) : Host.Outcome State Fault Refusal :=
  s.run (fun _ h => guard h.isl.refLost
    (fun h =>
      let h := { (refclkRecord true h) with isl := { h.isl with refLost := false }, time := { h.time with lockRun := 0 } }
      setQuality (qualityNow h) h) h)

/-- TIME_CAPTURE (R621): a direct write of CAP captures TB in TIME_CAPNS; writing 0 triggers nothing. -/
def execTimeCapture (cap : Bool) (s : State) : Host.Outcome State Fault Refusal :=
  s.run (fun _ h => guard (portOn h)
    (fun h =>
      let h := { h with regs := { h.regs with half := none } }
      portField 2 0x38 (BitVec.ofNat 64 (b2n cap))
        (fun h => if cap then { h with time := { h.time with capNs := BitVec.ofNat 64 (nowNs h) } } else h) h) h)

/-- TIME_NS_READ (R622): the read returns TB_NS and latches TB_FRAC of the same sample. -/
def execTimeNsRead (s : State) : Host.Outcome State Fault Refusal :=
  s.run (fun _ h => guard (portOn h)
    (fun h => { h with
      time := { h.time with fracLatch := h.time.tb.setWidth 32 }
      regs := { h.regs with lastRead := BitVec.ofNat 64 (nowNs h), half := none } }) h)

end Sys2Proof.Machine
end

