-- ==== Sys2Proof/Machine/CellCmds.lean ====
section
/-!
DEFINITION. The commands and events of the lichen cells and host regions (R65–R108, R644).
-/
namespace Sys2Proof.Machine

/-- Step 12 for a command whose word 1 names a core. -/
def coreSee (_ : Env) (h : Hub) (c : Ctx) : Option Nat := if c.tenant && !entSeen h c.job (c.w 1) then some 1 else none
/-- Step 13 for word 1 naming a core. -/
def coreRange (_ : Env) (h : Hub) (c : Ctx) : Option Nat := if coreWord h (c.w 1) then none else some 1

/-- Act on the present core of word 1. -/
def onCore (e : Env) (h : Hub) (c : Ctx) (f : Nat → Ans) : Ans :=
  match presentCore e h (c.w 1) with
  | none => refuse stNotFound h 1
  | some k => f k

/-- CELL_CFG settings (Table 3.14): the selections, and whether RESET is asked for. -/
def cellSetting (num : Nat) (v : List Word) (a : List EvSel × Bool) : Option (List EvSel × Bool) :=
  match one v with
  | none => none
  | some n =>
    if 1 ≤ num ∧ num ≤ 16 then
      if bitsOf n 31 16 = 0 ∧ bitsOf n 7 2 = 0 ∧ bitsOf n 15 8 ≤ 42 then
        some (setAt a.1 (num - 1) { sel := BitVec.ofNat 8 (bitsOf n 15 8), qual := BitVec.ofNat 2 n }, a.2)
      else none
    else if num = 17 ∧ n = 1 then some (a.1, true)
    else none

/-- Set the event selections in the hub's copy. -/
def setSels (c : Nat) (l : List EvSel) (h : Hub) : Hub := onHubc c (fun x => { x with sels := l }) h

/-- CELL_CFG -/
def opCellCfg : OpDef := {
  code := 0x20, changes := true, may := fleetDom, runs := dieOnly, form := fun c => decide (1 ≤ c.words.length)
  see := coreSee
  range := fun e h c => (coreRange e h c).or (badSet (c.settings 2 cellSetting ([], false)))
  act := fun e h c => onCore e h c (fun k =>
    let a := setOr ((hubc h k).sels, false) (c.settings 2 cellSetting ((hubc h k).sels, false))
    cellAns (sendCell e k (if a.2 then .reset else .sels) (setSels k a.1 h))) }

/-- CELL_CFG (R83, R644). -/
def execCellCfg (c : Cmd) (s : State) : Host.Outcome State Fault Refusal := s.runOp opCellCfg c

/-- Counters as 64-bit results. -/
def cntWords (l : List Nat) : List Word := l.flatMap w64

/-- Result of CNT_READ for a core (Table 12.13). -/
def cntCore (e : Env) (h : Hub) (c : Nat) : List Word :=
  let x := hubc h c
  [coreId e h c, w32 (cellStatus e h c)] ++ w64 x.snapTb ++ cntWords (x.snap.map BitVec.toNat) ++
    w64 (region h (regionOf c)).stretched

/-- Sum of lists of counts, place by place. -/
def sumLists (n : Nat) (l : List (List Nat)) : List Nat := l.foldl (List.zipWith (· + ·)) (List.replicate n 0)

/-- The cores of the die whose data CNT_READ sums: present, with an accepted snapshot and not reported invalid. -/
def sumCores (e : Env) (h : Hub) : List Nat :=
  (h.hubc.filter (fun p => e.present p.1 && p.2.based && !invalid h p.1)).map Prod.fst

/-- Result of CNT_READ for the die (Table 12.13). -/
def cntDie (e : Env) (h : Hub) : List Word :=
  let cs := sumCores e h
  [w32 cs.length] ++ w64 ((cs.map (fun c => (hubc h c).snapTb)).foldl max 0) ++
    cntWords (sumLists 35 (cs.map (fun c => (hubc h c).snap.map BitVec.toNat))) ++
    w64 ((cs.map (fun c => (region h (regionOf c)).stretched)).sum)

/-- CNT_READ -/
def opCntRead : OpDef := {
  code := 0x21, may := anyDom, runs := dieOnly, form := fun c => decide (c.words.length ≤ 1)
  see := fun e h c => if c.words.isEmpty then (if fleetDom c then none else some 0) else coreSee e h c
  range := fun e h c => if c.words.isEmpty then none else coreRange e h c
  act := fun e h c => if c.words.isEmpty then ok (cntDie e h) h else onCore e h c (fun k => ok (cntCore e h k) h) }

/-- CNT_READ (R106, R107, Table 12.13): sums over the die are FLEET only. -/
def execCntRead (c : Cmd) (s : State) : Host.Outcome State Fault Refusal := s.runOp opCntRead c

/-- The cores of a region that a 256-bit mask names: word k holds bits [32k + 31 : 32k] (R641). -/
def maskCores (r : Nat) (ws : List Word) : List Nat :=
  let v := leNat (ws.flatMap (fun w => leBytes 4 w.toNat))
  ((List.range 256).filter (fun i => bitOf v i)).map (fun i => r * 256 + i)

/-- CNT_SNAP -/
def opCntSnap : OpDef := {
  code := 0x22, may := fleetDebug, runs := dieOnly, form := fun c => decide (c.words.length = 9)
  range := fun _ _ c => if c.n 1 ≤ 7 then none else some 1
  act := fun e h c =>
    let r := c.n 1
    let cs := maskCores r (c.from_ 2)
    if !cs.all e.present then refuse stNotFound h (2 + ((cs.find? (fun c => !e.present c)).getD 0) % 256 / 32)
    else .done (if (region h r).stopped then stAccepted else stOk) 0 [] (askPartial r cs h) }

/-- CNT_SNAP (R97). -/
def execCntSnap (c : Cmd) (s : State) : Host.Outcome State Fault Refusal := s.runOp opCntSnap c

/-- WATCH_SET settings, numbered by the rows of Table 3.9. -/
def watchSetting (num : Nat) (v : List Word) (a : WatchSet) : Option WatchSet :=
  match num with
  | 1 => (within 0 15 (one v)).map (fun n => { a with stream := BitVec.ofNat 4 n })
  | 2 => (within 0 3 (one v)).map (fun n => { a with fmt := BitVec.ofNat 2 n })
  | 3 => (within 0 2 (one v)).map (fun n => { a with mode := BitVec.ofNat 2 n })
  | 4 => (within 0 16777216 (one v)).map (fun n => { a with window := n })
  | 5 => (withinS (-128) 127 (oneS v)).map (fun n => { a with eoff := n })
  | _ => none

/-- WATCH_SET -/
def opWatchSet : OpDef := {
  code := 0x23, changes := true, may := fleetDebug, runs := dieOnly, form := fun c => decide (1 ≤ c.words.length)
  range := fun e h c => (coreRange e h c).or (badSet (c.settings 2 watchSetting {}))
  act := fun e h c => onCore e h c (fun k =>
    let a := setOr {} (c.settings 2 watchSetting (hubc h k).watch)
    cellAns (sendCell e k .watch (onHubc k (fun x => { x with watch := a }) h))) }

/-- WATCH_SET (R91, R94). -/
def execWatchSet (c : Cmd) (s : State) : Host.Outcome State Fault Refusal := s.runOp opWatchSet c

/-- Word 0 of a descriptor is legal (R84). -/
def ruleWord0Ok (v : Nat) : Bool :=
  let src := bitsOf v 57 52
  decide (bitsOf v 62 61 ≤ 2) && decide (src ≠ 3) && decide (src ≤ 35) && decide (bitsOf v 51 48 = 0) &&
    !(decide (bitsOf v 62 61 = 2) && decide (bitsOf v 47 0 > 65536))

/-- Word 1 of a descriptor of a kind is legal (R84). -/
def ruleWord1Ok (kind v : Nat) : Bool :=
  decide (bitsOf v 63 48 = 0) && decide (bitsOf v 47 32 ≠ 0) &&
    (decide (kind = 0) || (decide (1000 ≤ bitsOf v 31 0) && decide (bitsOf v 31 0 ≤ 10000000)))

/-- RULE_SET -/
def opRuleSet : OpDef := {
  code := 0x24, changes := true, may := fleetDom, runs := dieOnly, form := fun c => decide (c.words.length = 6)
  range := fun e h c => (coreRange e h c).or (firstBad
    [(2, decide (c.n 2 ≤ 7)), (3, ruleWord0Ok (c.d 3)), (5, ruleWord1Ok (bitsOf (c.d 3) 62 61) (c.d 5))])
  act := fun e h c => onCore e h c (fun k =>
    let d : DWord × DWord := (BitVec.ofNat 64 (c.d 3), BitVec.ofNat 64 (c.d 5))
    cellAns (sendCell e k (.rule (c.n 2)) (onHubc k (fun x => { x with rules := setAt x.rules (c.n 2) d }) h))) }

/-- RULE_SET (R84, R88). -/
def execRuleSet (c : Cmd) (s : State) : Host.Outcome State Fault Refusal := s.runOp opRuleSet c

/-- CELL_FLAGS_CLEAR (R88, R10): a W1C write of CELL_FLAGS. A slot of an absent cell holds no register (R104). -/
def execCellFlagsClear (core : CoreNo) (bits : Byte) (s : State) : Host.Outcome State Fault Refusal :=
  s.run (fun e h => guard (portOn h)
    (fun h =>
      let h := { h with regs := { h.regs with half := none } }
      if e.present core.toNat then portField 16 (64 * core.toNat + 8) (bits.setWidth 64) (fun h => (sendCell e core.toNat (.flags bits) h).1) h
      else ignoredWrite 16 (64 * core.toNat + 8) (bits.setWidth 64) h) h)

/-- HOST_REGION_RESET (R102, R44, R121, R131): LC_RST_N asserted. -/
def execHostRegionReset (r : RegionNo) (s : State) : Host.Outcome State Fault Refusal :=
  s.run (fun e h => guard (!e.tray && portOn h)
    (fun h =>
      let i := r.toNat
      let h := (regionCores e i).foldl (fun h c => clearCell c h) h
      onRegion i (fun x => { x with epoch := x.epoch + 1, rewrite := true }) h) h)

/-- CELL_CONFIG_REWRITE (R102): the hub rewrites the configuration of the region's cells from its copy. -/
def execCellConfigRewrite (r : RegionNo) (s : State) : Host.Outcome State Fault Refusal :=
  s.run (fun e h => guard (alive h && (region h r.toNat).rewrite && !(region h r.toNat).stopped)
    (fun h =>
      let h := (regionCores e r.toNat).foldl (fun h c => rewriteCell c h) h
      onRegion r.toNat (fun x => { x with rewrite := false }) h) h)

/-- The state presented agrees with a hold (R81). -/
def holdHonoured (hold st : BitVec 2) (reason : BitVec 4) : Bool :=
  decide (st = 0) || (decide (st = 2) && decide (reason = if hold = 2 then 13 else 12))

/-- One host cycle's part in a hold (R81): a violation is counted, and the first of each hold is recorded with its floor on
the die (Table 8.9). -/
def holdCycle (e : Env) (c : Nat) (st : BitVec 2) (reason : BitVec 4) (h : Hub) : Hub :=
  let x := cell h c
  if x.hold = 0 then h
  else
    let h := onCell c (fun y => { y with holdAge := min 256 (y.holdAge + 1) }) h
    if !x.graceOver || holdHonoured x.hold st reason then h
    else
      let h := cellEvent c 41 h
      if x.holdViol then h
      else
        let h := emit 9 1 0 (coreId e h c) 16 13 [x.hold.setWidth 32, st.setWidth 32, reason.setWidth 32] h
        setFloor (dieEnt e h) 2 (nowNs h) (onCell c (fun y => { y with holdViol := true }) h)

/-- One host cycle of the residue lane's outputs: TAP_RV falls, and TAP_REQ follows the requirement (R127, R133). -/
def laneCycle (e : Env) (c : Nat) (h : Hub) : Hub :=
  let want := tapReq e h c
  onCell c (fun x =>
    let l := x.lane
    { x with lane := { l with
        cycle := l.cycle + 1, rv := false, req := want, reqAge := if want && l.req then min 17 (l.reqAge + 1) else 0 } }) h

/-- HOST_CYCLE (R75, R599, R77, R78, R81, R82, R85): one edge of LC_CLK at a cell. -/
def execHostCycle (core : CoreNo) (st : BitVec 2) (reason : BitVec 4) (ev : DWord) (ptake : Bool) (s : State) :
    Host.Outcome State Fault Refusal :=
  s.run (fun e h => guard (cellRuns e h core.toNat)
    (fun h =>
      let c := core.toNat
      let h := onRegion (regionOf c) (fun r => { r with
        lastEdge := nowNs h, edges := true, turn := if r.collect.head? = some c then min 16 (r.turn + 1) else r.turn }) (exitDrowse h)
      let h := onCell c (fun x =>
        let k := x.cnt.account st reason
        { x with
          last := st, cnt := if x.armed then k.hostEvents x.sels st ev else k
          watch := { x.watch with ignore := x.watch.ignore - 1 } }) h
      let h := if st = 3 then cellEvent c 40 h else h
      let h := holdCycle e c st reason h
      let h := if working h then laneCycle e c h else h
      let h := if ptake && working h then takeWrongly e c h else h
      edgeRules e c h) h)

/-- HOLD_GRACE_EXPIRY (R81): 256 host cycles after LC_HOLD changed. -/
def execHoldGraceExpiry (core : CoreNo) (s : State) : Host.Outcome State Fault Refusal :=
  s.run (fun e h => guard (cellRuns e h core.toNat && (cell h core.toNat).hold != 0 && decide ((cell h core.toNat).holdAge ≥ 256))
    (onCell core.toNat (fun x => { x with graceOver := true })) h)

/-- A window overlaps the region's last stop (R86). -/
def windowStopped (x : Region) (s w : Nat) : Bool := decide (x.stopTb < s + w) && decide (s < x.resumeTb)

/-- SPORE_WINDOW_EVAL (R85–R87): the first edge whose TB echo reaches a window's end. -/
def execSporeWindowEval (core : CoreNo) (rule : BitVec 3) (s : State) : Host.Outcome State Fault Refusal :=
  s.run (fun e h =>
    let c := core.toNat
    let i := rule.toNat
    let x := cell h c
    let r := ruleAt x i
    match r.start with
    | none => h
    | some t => guard (cellRuns e h c && serving h && x.armed && r.en && decide (r.kind ≠ 0) && decide (t + r.window ≤ nowNs h))
      (fun h =>
        let h := if windowStopped (region h (regionOf c)) t r.window then h else evalRule e c i (r.holds x.cnt) h
        onCell c (fun y => { y with rules := setAt y.rules i { (ruleAt y i) with
          base := y.cnt.src r.srcNo, elapsed := y.cnt.elapsed, start := some (nowNs h / r.window * r.window) } }) h) h)

/-- WATCH_ELEMENT (R91–R94). A WATCH_SET that makes N smaller than the elements already counted leaves the window open until LC_WL or 2^28:
DEDUCED (log 81), since its N-th element is past. -/
def execWatchElement (core : CoreNo) (wd : Word) (last : Bool) (s : State) : Host.Outcome State Fault Refusal :=
  s.run (fun e h =>
    let c := core.toNat
    let w := (cell h c).watch
    guard (cellRuns e h c && serving h && w.set.mode != 0 && decide (w.ignore = 0))
      (fun h =>
        let h := cellEvent c 38 (onCell c (fun x => { x with watch := { x.watch with win := watchStep h w.set wd x.watch.win } }) h)
        let n := (cell h c).watch.win.count
        let forced := decide (w.set.mode = 2) && decide (n = 2 ^ 28)
        let full := decide (w.set.window ≠ 0) && decide (n = w.set.window)
        if last || full then watchEnd c false h else if forced then watchEnd c true h else h) h)

/-- WATCH_RESULT_DRAIN (R94): the oldest result leaves the cell with the number discarded before it. -/
def execWatchResultDrain (core : CoreNo) (s : State) : Host.Outcome State Fault Refusal :=
  s.run (fun e h =>
    let c := core.toNat
    match (cell h c).watch.results with
    | [] => h
    | r :: t => guard (cellRuns e h c)
      (fun h =>
        let n := (cell h c).watch.lost
        let h := onCell c (fun x => { x with watch := { x.watch with results := t, lost := 0 } }) h
        let h := onRegion (regionOf c) (fun x => { x with watchq := x.watchq ++ [(c, { r with lost := n })] }) h
        if n = 0 then h else lossRecord 4 (coreId e h c) 16 n (nowNs h) (nowNs h) h) h)

/-- TRACE_WORD (R95): a selected core's trace word enters the cell's buffer, or is lost and counted. -/
def execTraceWord (core : CoreNo) (w : DWord) (s : State) : Host.Outcome State Fault Refusal :=
  s.run (fun e h =>
    let c := core.toNat
    guard (cellRuns e h c && (cell h c).trace.tsel)
      (fun h =>
        let x := cell h c
        if x.trace.buf.length ≥ 64 then
          cellEvent c 37 (onCell c (fun y => { y with trace := { y.trace with lost := y.trace.lost + 1 } }) h)
        else
          cellEvent c 36 (onCell c (fun y => { y with trace := { y.trace with
            buf := y.trace.buf ++ [(w, y.cnt.elapsed, nowNs h, y.trace.lost)], lost := 0 } }) h)) h)

/-- The next cell of a region after `turn` whose buffer holds a word, in core-number order (R486). -/
def nextTraced (h : Hub) (r turn : Nat) : Option Nat :=
  ((List.range 256).map (fun i => r * 256 + (turn + 1 + i) % 256)).find? (fun c => !(cell h c).trace.buf.isEmpty)

/-- The region bus moves words into the 32-word crossing buffer, cell by cell in turn (R486). -/
def fillCrossing : Nat → Nat → Hub → Hub
  | 0, _, h => h
  | n + 1, r, h =>
    if (region h r).traceBuf.length ≥ 32 then h
    else match nextTraced h r (region h r).traceTurn with
      | none => h
      | some c => match (cell h c).trace.buf with
        | [] => h
        | (w, cyc, tb, lost) :: t =>
          let h := onCell c (fun x => { x with trace := { x.trace with buf := t } }) h
          fillCrossing n r (onRegion r (fun x => { x with
            traceBuf := x.traceBuf ++ [(c, w, cyc, tb, lost)], traceTurn := c % 256 }) h)

/-- REGION_TRACE_TRANSFER (R486): up to eight words cross to the merger. -/
def execRegionTraceTransfer (r : RegionNo) (s : State) : Host.Outcome State Fault Refusal :=
  s.run (fun e h => guard (!e.tray && working h && !(region h r.toNat).stopped)
    (fun h =>
      let i := r.toNat
      let h := fillCrossing 32 i h
      let batch := (region h i).traceBuf.take 8
      let h := onRegion i (fun x => { x with traceBuf := x.traceBuf.drop 8 }) h
      batch.foldl (fun h w =>
        let lost := w.2.2.2.2
        let h := onTrc (fun t => { t with lostCell := t.lostCell + lost }) h
        hostPkt e w.1 w.2.1 w.2.2.1.toNat w.2.2.2.1 lost h) h) h)

/-- A region holds a core selected for trace. -/
def regionTraced (h : Hub) (r : Nat) : Bool := h.trc.set.cores.any (fun c => decide (regionOf c = r))

/-- CLOCK_MONITOR_INTERVAL (R65, R79, R493): the stretch amount of a 1 µs interval, given its host edges. -/
def execClockMonitorInterval (r : RegionNo) (edges : BitVec 16) (s : State) : Host.Outcome State Fault Refusal :=
  s.run (fun e h => guard (!e.tray && upState h)
    (fun h =>
      let i := r.toNat
      let n := getAt h.time.mhz i 1600 - edges.toNat
      let h := onRegion i (fun x => { x with
        stretched := x.stretched + n, stretchPeriod := x.stretchPeriod + n
        count := edges.toNat, edges := x.edges || decide (edges ≠ 0)
        lastEdge := if edges = 0 ∨ nowNs h < x.lastEdge + 1000 then x.lastEdge else nowNs h - Config.lastEdge i (nowNs h) % 1000 }) h
      let m := h.trc.set.stretchMin
      if m ≠ 0 ∧ m ≤ n ∧ regionTraced h i = true ∧ serving h = true then putPkt e 6 0 (srcOf 1 i) (nowNs h) (leb 7 n) h else h) h)

/-- The selected cores of a region, in ascending order. -/
def tracedCores (h : Hub) (r : Nat) : List Nat :=
  ((List.range 256).map (fun i => r * 256 + i)).filter (fun c => h.trc.set.cores.contains c)

/-- REGION_STOP_DETECT (R66, R68, R492): no host edge for the stop threshold. -/
def execRegionStopDetect (r : RegionNo) (s : State) : Host.Outcome State Fault Refusal :=
  s.run (fun e h =>
    let i := r.toNat
    let x := region h i
    guard (!e.tray && upState h && !x.stopped && decide (x.lastEdge + h.time.stopThr ≤ nowNs h) &&
        !e.beaten (evEdge i) (x.lastEdge + h.time.stopThr) (nowNs h))
      (fun h =>
        let h := onRegion i (fun y => { y with stopped := true, stopTb := y.lastEdge, stopSeen := true }) h
        if serving h then (tracedCores h i).foldl (fun h c => putPkt e 4 0 (srcOf 0 c) x.lastEdge [] h) h else h) h)

/-- Lost host cycles of a stop (R67). -/
def lostCycles (ns mhz : Nat) : Nat := ns * mhz / 1000

/-- REGION_RESUME (R64, R66, R67, R47, R599): the first edge after a stop; commands that waited take effect, with their TB
recorded. -/
def execRegionResume (r : RegionNo) (s : State) : Host.Outcome State Fault Refusal :=
  s.run (fun e h =>
    let i := r.toNat
    let x := region h i
    guard (!e.tray && upState h && x.stopped)
      (fun h =>
        let h := exitDrowse h
        let now := nowNs h
        let n := lostCycles (now - x.stopTb) (getAt h.time.mhz i 1600)
        let h := onRegion i (fun y => { y with
          stopped := false, resumeTb := now, echoWait := true, lastEdge := now, edges := true, stopSeen := true
          stoppedNs := y.stoppedNs + (now - y.stopTb), waitCfg := [] }) h
        let h := if serving h then (tracedCores h i).foldl (fun h c => putPkt e 5 0 (srcOf 0 c) now (leb 7 n) h) h else h
        let h := x.waitCfg.foldl (fun h w => emitUnit 11 (coreId e h w.1) 16 (w64 now) (applyWait e w.1 w.2 h)) h
        if (region h i).collect.isEmpty then
          beginPartial i (if x.partialReq.isEmpty then h else emitUnit 11 (ownId e h 2 i) 16 (w64 now) h)
        else h) h)

/-- SNAPSHOT_TRANSFER (R43, R44, R96, R107, R103): the cell whose turn it is delivers. -/
def execSnapshotTransfer (core : CoreNo) (parityErr sumErr : Bool) (s : State) : Host.Outcome State Fault Refusal :=
  s.run (fun e h =>
    let c := core.toNat
    guard (cellRuns e h c && decide ((region h (regionOf c)).collect.head? = some c))
      (fun h => turnDone e (regionOf c) (if parityErr || sumErr then acceptBad e c h else acceptGood e c h)) h)

/-- CELL_TURN_TIMEOUT (Table 3.10, R69): the cell whose turn it is sends nothing within 16 host cycles. -/
def execCellTurnTimeout (core : CoreNo) (s : State) : Host.Outcome State Fault Refusal :=
  s.run (fun e h =>
    let c := core.toNat
    guard (cellRuns e h c && decide ((region h (regionOf c)).collect.head? = some c) && decide ((region h (regionOf c)).turn = 16))
      (fun h =>
        let n := (hubc h c).skips + 1
        let h := cellFault e c 2 (onHubc c (fun x => { x with skips := n, noResp := true, goodRun := 0 }) h)
        let h := if n = 3 then cellFault e c 1 (onHubc c (fun x => { x with failed := true }) h) else h
        turnDone e (regionOf c) h) h)

/-- PENDING_FLAG_TRANSFER (R100): the accumulated bits cross and clear; the cores enter the quick set. -/
def execPendingFlagTransfer (r : RegionNo) (s : State) : Host.Outcome State Fault Refusal :=
  s.run (fun e h =>
    let i := r.toNat
    let bits := (region h i).pending
    guard (!e.tray && serving h && !(region h i).stopped && !(region h i).echoWait && bits != 0)
      (fun h =>
        let h := onRegion i (fun x => { x with pending := 0, answered := true }) h
        ((List.range 256).filter (fun k => bits.getLsbD k)).foldl (fun h k =>
          sporeFeature e (i * 256 + k) (flagCore (i * 256 + k) h)) h) h)

end Sys2Proof.Machine
end

