-- ==== Sys2Proof/Machine/XaOps.lean ====
section
/-!
DEFINITION. XA640 values, digest-compare sets, reduction elements, their combination and their bytes (R206–R219, Table 6.4).
-/
namespace Sys2Proof.Machine

/-- A count that saturates at 0xFFFF_FFFF. -/
def satAdd32 (a b : Nat) : Nat := min (a + b) 0xFFFFFFFF

/-- Combination of two XA640 values (R210). -/
def Xa.add (x y : Xa) : Xa :=
  { a := x.a + y.a, nans := satAdd32 x.nans y.nans, pinfs := satAdd32 x.pinfs y.pinfs, ninfs := satAdd32 x.ninfs y.ninfs
    range := x.range || y.range, part := x.part || y.part, incomplete := x.incomplete || y.incomplete }

/-- An exact value as an addend (R208, R209). Values of the formats summed have weights of at least 2^−320. -/
def Xa.ofFlt (v : Flt) : Xa :=
  match v with
  | .nan => { nans := 1 }
  | .inf false => { pinfs := 1 }
  | .inf true => { ninfs := 1 }
  | .fin s m e => { a := BitVec.ofInt 704 (signedNat s (m * 2 ^ (e + 320).toNat)) }

/-- A binary64 input (R208): saturated at 2^319 − 2^−320, and rounded to a multiple of 2^−320. -/
def Xa.ofF64 (v : Nat) : Xa :=
  match f64.decode v with
  | .fin s m e =>
    if e + (Nat.log2 m : Int) ≥ 319 ∧ m ≠ 0 then { a := BitVec.ofInt 704 (signedNat s (2 ^ 639 - 1)), range := true }
    else if e ≥ -320 then Xa.ofFlt (.fin s m e)
    else
      let d := 2 ^ (-320 - e).toNat
      { a := BitVec.ofInt 704 (roundInt (signedNat s m) d), range := decide (m % d ≠ 0) }
  | y => Xa.ofFlt y

/-- The square of a value (R184, R209). -/
def Flt.sq (v : Flt) : Flt :=
  match v with
  | .inf _ => .inf false
  | x => x.mul x

/-- A 64-bit integer input: exact (R208). -/
def Xa.ofInt64 (v : BitVec 64) : Xa := { a := BitVec.ofInt 704 (v.toInt * 2 ^ 320) }

/-- Kinds of beats (R213). -/
inductive BeatKind where
  | add | square | product
  deriving DecidableEq, Repr

/-- Pairs of consecutive values; one left over is no pair. -/
def pairUp : List Nat → List (Nat × Nat)
  | a :: b :: t => (a, b) :: pairUp t
  | _ => []

/-- The addends of the inputs of a kind in a format: each input, its square, or the products of the pairs (R209, R213). -/
def beatAddends (k : BeatKind) (f : FFmt) (ws : List Nat) : List Xa :=
  let v := fun w => f.decode (w % 2 ^ (1 + f.eb + f.mb))
  match k with
  | .add => ws.map (fun w => Xa.ofFlt (v w))
  | .square => ws.map (fun w => Xa.ofFlt (v w).sq)
  | .product => (pairUp ws).map (fun p => Xa.ofFlt ((v p.1).mul (v p.2)))

/-- XA_OVF: the guard is not 64 copies of body bit 639 (R206, R207). -/
def Xa.ovf (x : Xa) : Bool := decide (x.a.toInt < -(2 ^ 639 : Int)) || decide (x.a.toInt ≥ (2 ^ 639 : Int))

/-- The value an output rounds (R211). -/
def Xa.value (x : Xa) : Flt :=
  if x.nans > 0 ∨ (x.pinfs > 0 ∧ x.ninfs > 0) then .nan
  else if x.pinfs > 0 then .inf false
  else if x.ninfs > 0 then .inf true
  else .ofInt x.a.toInt (-320)

/-- The rounded output of a format (R211). -/
def Xa.round (f : FFmt) (x : Xa) : Nat := f.encode x.value

/-- The square root, correctly rounded to a format (R239). -/
def Xa.root (f : FFmt) (x : Xa) : Nat :=
  match x.value with
  | .nan => f.qnan
  | .inf false => f.infBits false
  | .inf true => f.qnan
  | .fin s m _ => if m = 0 then 0 else if s then f.qnan else f.sqrt m 160

/-- The flag word of an XA640 record (Table 6.1). -/
def Xa.flags (x : Xa) : Nat := b2n x.ovf + 2 * b2n x.incomplete + 4 * b2n x.part + 8 * b2n x.range

/-- The 104 bytes of a record in packets and replies (R207). -/
def Xa.bytes (x : Xa) : List Byte :=
  beBytes 88 x.a.toNat ++ beBytes 4 x.nans ++ beBytes 4 x.pinfs ++ beBytes 4 x.ninfs ++ beBytes 4 x.flags

/-- A raw export: the 80-byte body, the special counts and the flag word, without the guard (R212). -/
def Xa.raw (x : Xa) : List Byte :=
  beBytes 80 (x.a.toNat % 2 ^ 640) ++ beBytes 4 x.nans ++ beBytes 4 x.pinfs ++ beBytes 4 x.ninfs ++ beBytes 4 x.flags

/-- The 104 bytes of a record in memory (R207). -/
def Xa.memBytes (x : Xa) : List Byte :=
  leBytes 88 x.a.toNat ++ leBytes 4 x.nans ++ leBytes 4 x.pinfs ++ leBytes 4 x.ninfs ++ leBytes 4 x.flags

/-- A record of its fields; reserved flag bits are not legal, and XA_OVF is ignored (R207). -/
def Xa.ofFields (a n p m f : Nat) : Option Xa :=
  if f / 16 ≠ 0 then none
  else some { a := BitVec.ofNat 704 a, nans := n, pinfs := p, ninfs := m, incomplete := bitOf f 1, part := bitOf f 2, range := bitOf f 3 }

/-! DIGEST_COMPARE sets. -/

/-- Order of digests: D_0, then D_1. -/
def digBefore (x y : Nat × Nat × Nat × Nat) : Bool := decide (x.1 < y.1) || (decide (x.1 = y.1) && decide (x.2.1 < y.2.1))

/-- Put one entry into an ascending list, adding the counts of an equal digest. -/
def digPut (x : Nat × Nat × Nat × Nat) : List (Nat × Nat × Nat × Nat) → List (Nat × Nat × Nat × Nat)
  | [] => [x]
  | y :: t =>
    if digBefore x y then x :: y :: t
    else if x.1 = y.1 ∧ x.2.1 = y.2.1 then (y.1, y.2.1, y.2.2.1 + x.2.2.1, y.2.2.2 + x.2.2.2) :: t
    else y :: digPut x t

/-- Combination of two sets (R218). -/
def DigSet.union (x y : DigSet) : DigSet :=
  let u := x.entries.foldl (fun l e => digPut e l) y.entries
  if x.ovf || y.ovf || decide (u.length > 8) then { pair := x.pair, ovf := true, entries := [] }
  else { pair := x.pair, ovf := false, entries := u }

/-- Bytes of a set (Table 6.6), with the byte writer of the medium. -/
def DigSet.bytesWith (w : Nat → Nat → List Byte) (x : DigSet) : List Byte :=
  let hd := x.pair / 64 * 2 ^ 20 + x.pair % 64 * 2 ^ 14 + x.entries.length * 2 ^ 10 + b2n x.ovf * 2 ^ 9
  let es := x.entries.flatMap (fun e => w 8 e.1 ++ w 8 e.2.1 ++ w 2 e.2.2.1 ++ w 2 e.2.2.2)
  w 4 hd ++ es ++ List.replicate (160 - es.length) 0

/-- A set from its bytes, with the byte reader of the medium; malformed sets are refused. -/
def DigSet.ofBytes (r : Nat → Nat → Nat) : Option DigSet :=
  let hd := r 0 4
  let n := bitsOf hd 13 10
  if n > 8 ∨ bitsOf hd 8 0 ≠ 0 then none
  else
    let es := (List.range n).map (fun q => (r (4 + 20 * q) 8 % 2 ^ 61, r (12 + 20 * q) 8 % 2 ^ 61, r (20 + 20 * q) 2, r (22 + 20 * q) 2))
    let ovf := bitOf hd 9
    some { pair := bitsOf hd 31 20 * 64 + bitsOf hd 19 14, ovf := ovf
           entries := if ovf then [] else es.foldl (fun l e => digPut e l) [] }

/-! Elements (Table 6.4). -/

/-- Bytes of an element of an OP. -/
def elemSize (op : Nat) : Nat := if op = 3 then 104 else if op = 4 then 4 else if op = 6 then 164 else 8

/-- Combination of two elements (Table 6.4). -/
def elemCombine (op : Nat) (x y : Elem) : Elem :=
  match x, y with
  | .int a, .int b =>
    .int (match op with
      | 1 => if a.toInt ≤ b.toInt then a else b
      | 2 => if a.toInt ≤ b.toInt then b else a
      | 5 => a ||| b
      | _ => a + b)
  | .xa a, .xa b => .xa (a.add b)
  | .bin a, .bin b => .bin (satAdd32 a b)
  | .set a, .set b => .set (a.union b)
  | a, _ => a

/-- The identity of an OP (Table 6.4). -/
def elemZero (op : Nat) : Elem :=
  match op with
  | 1 => .int 0x7FFFFFFFFFFFFFFF
  | 2 => .int 0x8000000000000000
  | 3 => .xa {}
  | 4 => .bin 0
  | 6 => .set {}
  | _ => .int 0

/-- Bytes of an element in packets and replies. -/
def elemBytes : Elem → List Byte
  | .int v => beBytes 8 v.toNat
  | .xa x => x.bytes
  | .bin n => beBytes 4 n
  | .set d => d.bytesWith beBytes

/-- Bytes of an element in memory. -/
def elemMem : Elem → List Byte
  | .int v => leBytes 8 v.toNat
  | .xa x => x.memBytes
  | .bin n => leBytes 4 n
  | .set d => d.bytesWith leBytes

/-- An element from bytes most significant first. -/
def elemOf (op : Nat) (b : List Byte) : Option Elem :=
  match op with
  | 3 => (Xa.ofFields (beAt b 0 88) (beAt b 88 4) (beAt b 92 4) (beAt b 96 4) (beAt b 100 4)).map .xa
  | 4 => some (.bin (beAt b 0 4))
  | 6 => (DigSet.ofBytes (beAt b)).map .set
  | _ => some (.int (BitVec.ofNat 64 (beAt b 0 8)))

/-- An element from bytes in memory. -/
def elemOfMem (op : Nat) (b : List Byte) : Option Elem :=
  match op with
  | 3 => (Xa.ofFields (leAt b 0 88) (leAt b 88 4) (leAt b 92 4) (leAt b 96 4) (leAt b 100 4)).map .xa
  | 4 => some (.bin (leAt b 0 4))
  | 6 => (DigSet.ofBytes (leAt b)).map .set
  | _ => some (.int (BitVec.ofNat 64 (leAt b 0 8)))

/-- Elements of a byte list. -/
def elemsOf (rd : Nat → List Byte → Option Elem) (op n : Nat) (b : List Byte) : Option (List Elem) :=
  (List.range n).mapM (fun i => rd op ((b.drop (elemSize op * i)).take (elemSize op)))

end Sys2Proof.Machine
end

