-- ==== Sys2Proof/Machine/ReduceOps.lean ====
section
/-!
DEFINITION. Reduction rounds at the four levels of a tree: packets, acceptance, completion, results (R216–R231).
A node keeps one round per level it serves; a level that it serves for itself is delivered without a packet.
-/
namespace Sys2Proof.Machine

/-- A reduction packet's header and elements (Table 6.7). -/
structure Red where
  group   : Nat
  seq     : Nat
  op      : Nat
  level   : Nat
  result  : Bool := false
  redirect : Bool := false
  carried : Bool := false
  coarse  : Bool := false
  incomplete : Bool := false
  geom    : Nat := 0
  first   : Nat := 0
  total   : Nat
  span    : Nat := 0
  load    : Nat := 0
  contrib : Nat := 0
  cover   : List Nat := []
  window  : Nat := 0
  elems   : List Elem := []
  deriving DecidableEq, Repr

/-- The positions a cover names. -/
def coverOf (base mask : Nat) : List Nat := ((List.range 32).filter (fun b => bitOf mask b)).map (fun b => base + b)

/-- Base of a cover: the aligned block of 32 its positions lie in. -/
def coverBase (l : List Nat) : Nat := l.head?.getD 0 / 32 * 32
/-- Mask of a cover. -/
def coverMask (l : List Nat) : Nat := (l.map (fun p => 2 ^ (p % 32))).sum

/-- The positions a packet's COVER fields name: those of a LEVEL 2 or REDIRECT packet (Table 6.7). -/
def coverField (m : Red) : List Nat := if m.level = 2 ∨ m.redirect = true then m.cover else []

/-- The body of one packet (R220). -/
def redBody (m : Red) : List Byte :=
  let w1 := m.op * 2 ^ 28 + m.level * 2 ^ 24 + b2n m.result * 2 ^ 23 + b2n m.redirect * 2 ^ 22 + b2n m.carried * 2 ^ 21 +
    b2n m.coarse * 2 ^ 20 + b2n m.incomplete * 2 ^ 19 + m.geom % 65536
  beBytes 4 (m.group * 65536 + m.seq) ++ beBytes 4 w1 ++ beBytes 4 (m.first * 65536 + m.total) ++
    beBytes 4 (m.elems.length * 2 ^ 24 + m.span * 2 ^ 21 + m.load * 2 ^ 19) ++ beBytes 4 m.contrib ++
    beBytes 4 (coverBase (coverField m) * 2 ^ 22) ++ beBytes 4 (coverMask (coverField m)) ++ beBytes 4 m.window ++ m.elems.flatMap elemBytes

/-- Elements of an OP that one packet holds (R220). -/
def perPacket (op : Nat) : Nat := 192 / elemSize op

/-- A vector cut into packets with ascending FIRST (R220). -/
def redPackets (m : Red) : List Red :=
  let n := perPacket m.op
  (List.range ((m.elems.length + n - 1) / n)).map (fun i => { m with first := m.first + i * n, elems := (m.elems.drop (i * n)).take n })

/-- The geometry is legal for the operation: 1–64 bins for HIST_ADD, 0 for the others (R217, Table 6.7). -/
def geomOk (op g : Nat) : Bool :=
  if op = 4 then decide (g < 65536) && decide (1 ≤ bitsOf g 15 9) && decide (bitsOf g 15 9 ≤ 64) else decide (g = 0)

/-- A body read back; none for a malformed packet (R217, R220). -/
def redParse (b : List Byte) : Option Red :=
  let w := fun o => beAt b o 4
  let op := bitsOf (w 4) 31 28
  let nel := bitsOf (w 12) 31 24
  let level := bitsOf (w 4) 27 24
  let total := w 8 % 65536
  if b.length < 32 ∨ op > 6 ∨ level > 3 ∨ bitsOf (w 4) 18 16 ≠ 0 ∨ bitsOf (w 12) 18 0 ≠ 0 ∨ bitsOf (w 20) 21 0 ≠ 0 ∨
      w 0 / 65536 > 1023 ∨ total = 0 ∨ total > 8192 ∨ bitsOf (w 8) 31 16 + nel > total ∨ geomOk op (w 4 % 65536) = false ∨
      b.length < 32 + nel * elemSize op then none
  else (elemsOf elemOf op nel (b.drop 32)).map (fun es =>
    { group := w 0 / 65536, seq := w 0 % 65536, op := op, level := level, result := bitOf (w 4) 23, redirect := bitOf (w 4) 22
      carried := bitOf (w 4) 21, coarse := bitOf (w 4) 20, incomplete := bitOf (w 4) 19, geom := w 4 % 65536
      first := bitsOf (w 8) 31 16, total := total, span := bitsOf (w 12) 23 21, load := bitsOf (w 12) 20 19, contrib := w 16
      cover := coverOf (bitsOf (w 20) 31 22) (w 24), window := w 28, elems := es })

/-! Rounds. -/

/-- Key of a round: level 0 member, 1 tray, 2 combiner, 3 root. -/
def roundKey (level group seq : Nat) : Nat := (level * 1024 + group) * 65536 + seq
/-- A round at a level. -/
def roundAt (h : Hub) (level group seq : Nat) : Option Round := Tab.find h.xs.rounds (roundKey level group seq)
/-- Put a round. -/
def putRound (level group seq : Nat) (r : Round) (h : Hub) : Hub :=
  { h with xs := { h.xs with rounds := Tab.put h.xs.rounds (roundKey level group seq) r } }
/-- Drop a round. -/
def dropRound (level group seq : Nat) (h : Hub) : Hub :=
  { h with xs := { h.xs with rounds := Tab.drop h.xs.rounds (roundKey level group seq) } }
/-- Change the exact-sum unit. -/
def onXs (f : XsU → XsU) (h : Hub) : Hub := { h with xs := f h.xs }

/-- Records among elements, and how many of them carry XA_OVF. -/
def xaRecords (es : List Elem) : List Xa := es.filterMap (fun e => match e with
  | .xa x => some x
  | _ => none)
/-- Records are written: those with XA_OVF are counted (Table 6.10). -/
def recordsWritten (es : List Elem) (h : Hub) : Hub := onXs (fun x => { x with ovf := x.ovf + ((xaRecords es).filter Xa.ovf).length }) h

/-- Send the packets of a message to a node. -/
def redSend (tc dst : Nat) (m : Red) (h : Hub) : Hub :=
  (redPackets m).foldl (fun h p => photenSend 0 tc dst m.group 0 (redBody p) h) (recordsWritten m.elems h)

/-! The accumulator contexts of the four lanes (R213, R214). -/

/-- The sum that a context holds: the combination of its four lane contexts (R214). -/
def laneSum (h : Hub) (k : Nat) : Xa := (List.range 4).foldl (fun a l => a.add (Tab.getD h.xs.lanes (l * 16 + k) {})) {}
/-- Clear a context in every lane. -/
def clearCtx (k : Nat) (h : Hub) : Hub := onXs (fun x => { x with lanes := x.lanes.filter (fun p => decide (p.1 % 16 ≠ k)) }) h

/-- One beat into a lane's context; the lane is busy in this cycle. -/
def laneBeat (k lane : Nat) (s : Xa) (h : Hub) : Hub :=
  onXs (fun x => { x with
    beats := x.beats + 1, laneNow := x.laneNow ||| BitVec.ofNat 4 (2 ^ lane)
    lanes := Tab.put x.lanes (lane * 16 + k) ((Tab.getD x.lanes (lane * 16 + k) {}).add s) }) h

/-- Inputs of one format and kind into a context, 32 inputs (or pairs) to a beat, the beats on the lanes in turn. Which lane takes which beat is
DESIGN CHOICE (log 92): the sum is the same (R210). -/
def laneBeats (kind : BeatKind) (f : FFmt) (k : Nat) (ws : List Nat) (h : Hub) : Hub :=
  let as_ := beatAddends kind f ws
  (List.range ((as_.length + 31) / 32)).foldl (fun h i =>
    laneBeat k (i % 4) (((as_.drop (32 * i)).take 32).foldl Xa.add {}) h) h

/-- Contexts that no request in progress holds; the first two are the digest epochs' (R214). -/
def freeCtx (h : Hub) : List Nat :=
  ((List.range 16).drop 2).filter (fun k => !h.xs.rounds.any (fun p => decide (p.2.ctx = some k) && !p.2.done))

/-- Tray positions of a group, ascending (R408: positions are tray numbers). -/
def groupTrays (g : Group) : List Nat := (List.range 1024).filter (fun t => g.dies.any (fun d => decide (d / 128 = t)))
/-- The combiner of a tray's aligned block of 32 (R221). -/
def combinerFor (g : Group) (t : Nat) : Option Nat := g.combiners.find? (fun c => decide (c / 32 = t / 32))
/-- This tray's number. -/
def myTray (h : Hub) : Nat := (imgOf h).tray

/-- Elements received from a sender. -/
def rxFrom (r : Round) (src : Nat) : Nat := ((r.received.filter (fun x => decide (x.src = src))).map RoundRx.nel).sum
/-- A packet's sender has delivered its whole vector. -/
def rxWhole (r : Round) (x : RoundRx) : Bool := decide (rxFrom r x.src ≥ x.total)
/-- The packets of the senders whose vectors are whole: a member with part of its vector is missing (R226). -/
def wholeRx (r : Round) : List RoundRx := r.received.filter (rxWhole r)
/-- A position or die is complete: some sender that covers it has delivered the whole vector. -/
def posDone (r : Round) (p : Nat) : Bool := (wholeRx r).any (fun x => x.cover.contains p)
/-- Every expected input is complete. -/
def roundFull (r : Round) : Bool := r.expected.all (posDone r)

/-- Place of an element in a round's vector: its index, and for a DIGEST_COMPARE set the (layer, slice) that it names, since
members reduce each (layer, slice) separately (R195). -/
def elemKey (i : Nat) : Elem → Nat
  | .set d => d.pair
  | _ => i

/-- Elements into an accumulation. -/
def accAdd (op : Nat) (acc : Tab Elem) (first : Nat) (es : List Elem) : Tab Elem :=
  (es.zipIdx).foldl (fun acc e =>
    let i := elemKey (first + e.2) e.1
    Tab.put acc i (match Tab.find acc i with
      | some x => elemCombine op x e.1
      | none => e.1)) acc

/-- What a round has combined: this node's own part and the whole vectors received (R210). -/
def roundAcc (r : Round) : Tab Elem := (wholeRx r).foldl (fun acc x => accAdd r.op.toNat acc x.first x.elems) r.acc
/-- The whole vector of a round. -/
def roundVector (r : Round) : List Elem :=
  if r.op = 6 then (roundAcc r).map Prod.snd else (List.range r.total).map (fun i => Tab.getD (roundAcc r) i (elemZero r.op.toNat))
/-- Dies whose contributions a round holds. -/
def roundContrib (r : Round) : Nat := r.contrib + ((wholeRx r).map RoundRx.contrib).sum
/-- Something that a round holds is incomplete, or an expected input is missing (R226). -/
def roundIncomplete (r : Round) : Bool := r.incomplete || (wholeRx r).any RoundRx.incomplete || !roundFull r

/-- A message matches a round's operation, geometry and length (R217). -/
def redFits (r : Round) (m : Red) : Bool :=
  decide (r.op.toNat = m.op) && decide (r.geom.toNat = m.geom) && (decide (r.total = m.total) || decide (m.op = 6))

/-- Take an accepted packet (R222). -/
def roundTake (r : Round) (src : Nat) (m : Red) : Round :=
  { r with
    received := r.received ++ [{
      src := src, first := m.first, nel := m.elems.length, total := m.total, cover := m.cover, elems := m.elems
      contrib := if m.first = 0 then m.contrib else 0, incomplete := m.incomplete, carried := m.carried, coarse := m.coarse }] }

/-- A node has the round open, or room to open one more: 16 in die role, 64 in tray role (R243). -/
def roundRoom (e : Env) (h : Hub) (group seq : Nat) : Bool :=
  let l := ((h.xs.rounds.filter (fun p => !p.2.done)).map (fun p => p.1 % 2 ^ 26)).dedup
  l.contains (group * 65536 + seq) || decide (l.length < if e.tray then 64 else 16)

/-- The base window whose round a message enters: the last that its span covers (R233, R235); 0 on demand. -/
def Red.lastWindow (m : Red) : Nat := if m.window = 0 then 0 else m.window + 2 ^ m.span - 1

/-- A round opened at a level, with the group and the membership expected there (R223). -/
def newRound (h : Hub) (g : Group) (m : Red) (tc : Nat) (expected : List Nat) : Round :=
  { op := BitVec.ofNat 4 m.op, geom := w32 m.geom, total := m.total, window := m.lastWindow, use := .passing, opened := nowNs h
    timer := nowNs h, expected := expected, tc := BitVec.ofNat 2 tc, grp := some g, span := h.xs.span }

/-- The cutoff of a level in the window that runs, as TB (R227). -/
def cutoffAt (h : Hub) (share : Nat) : Nat := ((100 * h.casc.window + share) * (imgOf h).windowNs + 99) / 100

/-- The cutoff share of a level in hundredths of the window (Table 6.8). -/
def cutoffShare (level : Nat) : Nat := getAt [0, 40, 60, 75] level 100

/-- A periodic message comes after its level's cutoff (R228); one of the same cycle is in time (R229). -/
def afterCutoff (h : Hub) (level : Nat) (m : Red) : Bool :=
  decide (m.window ≠ 0) && (decide (m.lastWindow + 1 < h.casc.window) ||
    (decide (m.lastWindow + 1 = h.casc.window) && decide (cutoffAt h (cutoffShare level) < nowNs h)))

/-- What a message finds at a level. -/
inductive Take where
  | taken (r : Round) | late | gone | dup | overlap | bad

/-- Acceptance at a level (R217, R222, R224, R228, R231). -/
def roundAccept (r : Round) (src : Nat) (m : Red) : Take :=
  if !redFits r m then .bad
  else if r.failed.contains src then .gone
  else if r.received.any (fun x => decide (x.src = src) && decide (x.first = m.first)) then .dup
  else if r.sent then .late
  else if r.received.any (fun x => decide (x.src ≠ src) && !r.failed.contains x.src && x.cover.any (fun p => m.cover.contains p)) then .overlap
  else .taken (roundTake r src m)

/-- Figure of a periodic round's SEQ: its place in the telemetry plan; the low byte holds the window. -/
def figureOfSeq (seq : Nat) : Nat := seq / 256
/-- SEQ of a figure's round for a window. -/
def seqOfFigure (f w : Nat) : Nat := f % 64 * 256 + w % 256
/-- SEQ of the norm round of an epoch. -/
def seqOfNorm (ep : Nat) : Nat := 0x4000 + ep % 2 ^ 14
/-- SEQ of the comparison round of an epoch. -/
def seqOfCompare (ep : Nat) : Nat := 0x8000 + ep % 2 ^ 14
/-- SEQ of the egress comparison of a shadow replica with its twin (R199). -/
def seqOfEgress (ep rep : Nat) : Nat := 0xC000 + ep % 64 * 256 + rep % 256

/-- The dies of a shadow replica and its twin (R199). -/
def pairDies (h : Hub) (j : BitVec 16) (rep : Nat) : List Nat :=
  let twin := (h.casc.shadows.find? (fun s => decide (s.job = j) && decide (s.rep.toNat = rep))).map (fun s => s.twin.toNat)
  ((jobDies h j).filter (fun d => decide (d.rep.toNat = rep) || decide (some d.rep.toNat = twin))).map JobDie.die

/-- The group that a round runs over: as it was when the round opened at this node (R223), or as it is now; the second reduction of R199 has
the two replicas as its members. -/
def roundGroup (h : Hub) (group seq op : Nat) : Option Group :=
  match ([1, 2, 3].filterMap (fun l => (roundAt h l group seq).bind Round.grp)).head? with
  | some g => some g
  | none => (groupOf h group).map (fun g =>
    if op = 6 ∧ seq ≥ 0xC000 then
      match g.job with
      | some j => { g with dies := pairDies h j (seq % 256) }
      | none => g
    else g)

/-- Elements into what a level carries into its figure's next window (R228). -/
def carryElems (level seq op first : Nat) (es : List Elem) (h : Hub) : Hub :=
  let k := level * 2 ^ 32 + figureOfSeq seq
  let old := Tab.getD h.xs.carry k {}
  let acc := accAdd op (accAdd op [] 0 old.elems) first es
  let n := max old.elems.length (first + es.length)
  onXs (fun x => { x with
    carry := Tab.put x.carry k { old with elems := (List.range n).map (fun i => Tab.getD acc i (elemZero op)), carried := true } }) h

/-- A late contribution: carried into the next window when periodic, discarded and counted when on demand (R228, R231). -/
def roundLate (level : Nat) (m : Red) (h : Hub) : Hub :=
  if m.window = 0 then onXs (fun x => { x with late := x.late + 1 }) h
  else carryElems level m.seq m.op m.first m.elems (onXs (fun x => { x with carried := x.carried + 1 }) h)

/-- A message that is not taken. -/
def roundRefuse (e : Env) (level src : Nat) (m : Red) (t : Take) (h : Hub) : Hub :=
  match t with
  | .late => roundLate level m h
  | .gone => h
  | .dup => onXs (fun x => { x with dup := x.dup + 1 }) h
  | .overlap =>
    if m.level = 2 then emitUnit 20 (unitId e h 30) 30 [w32 m.group, w32 m.seq, w32 src] h
    else onXs (fun x => { x with dup := x.dup + 1 }) h
  | .bad => onXs (fun x => { x with bad := x.bad + 1 }) h
  | .taken _ => h

/-- A round that finds no room is skipped and recorded; what a periodic one brings is carried forward (R243). -/
def roundNoRoom (e : Env) (level : Nat) (m : Red) (h : Hub) : Hub :=
  emitUnit 23 (unitId e h 30) 30 [w32 m.group, w32 m.seq] (roundLate level m h)

/-- Elements a level carries from the window before, taken out of the carry (R228). -/
def takeCarry (level : Nat) (r : Round) (seq : Nat) (h : Hub) : Hub × Round :=
  if r.window = 0 then (h, r)
  else
    let k := level * 2 ^ 32 + figureOfSeq seq
    match Tab.find h.xs.carry k with
    | none => (h, r)
    | some c => (onXs (fun x => { x with carry := Tab.drop x.carry k }) h,
        { r with acc := accAdd r.op.toNat r.acc 0 (c.elems.take r.total), carried := true })

/-- What senders have delivered in time of vectors that are not whole is not lost either: it reaches the next window (R228). -/
def carryParts (level seq : Nat) (r : Round) (h : Hub) : Hub :=
  if r.window = 0 then h
  else (r.received.filter (fun x => !rxWhole r x && !r.failed.contains x.src)).foldl (fun h x =>
    carryElems level seq r.op.toNat x.first x.elems h) h

/-- A coarsened level keeps what it has gathered of a base window that does not end its span, and sends all of it with the window that
does (R233, R235). -/
def coarsen (level seq : Nat) (r : Round) (h : Hub) : Hub × Option Round :=
  let k := level * 2 ^ 32 + 2 ^ 20 + figureOfSeq seq
  let c := Tab.getD h.xs.carry k {}
  if r.window = 0 ∨ r.span = 0 then (h, some r)
  else
    let dies := max c.contrib (roundContrib r) - roundContrib r
    let r := { r with
      acc := accAdd r.op.toNat r.acc 0 (c.elems.take r.total), coarse := true, contrib := r.contrib + dies
      incomplete := r.incomplete || c.incomplete, carried := r.carried || c.carried }
    if (r.window + 1) % 2 ^ r.span = 0 then (onXs (fun x => { x with carry := Tab.drop x.carry k }) h, some r)
    else (onXs (fun x => { x with carry := Tab.put x.carry k {
      elems := roundVector r, contrib := roundContrib r, incomplete := roundIncomplete r, carried := r.carried || (wholeRx r).any RoundRx.carried } }) h, none)

/-- What a level sends upward (R226, R228): of a coarsened level the first window of its span (R233). -/
def upMessage (h : Hub) (level group seq : Nat) (r : Round) (cover : List Nat) : Red :=
  let v := roundVector r
  let span := if level = 3 then 0 else r.span
  { group := group, seq := seq, op := r.op.toNat, level := level, geom := r.geom.toNat, total := v.length, contrib := roundContrib r
    carried := r.carried || (wholeRx r).any RoundRx.carried, coarse := r.coarse || (wholeRx r).any RoundRx.coarse
    incomplete := roundIncomplete r, span := span, load := h.xs.load
    cover := cover, window := if r.window = 0 then 0 else r.window + 1 - 2 ^ span, elems := v }

/-- A result is complete at this node: its counters (Table 6.10), and the raw export of its records (R212); when one is taken the spec does not
say: DESIGN CHOICE (log 93). -/
def roundDone (incomplete : Bool) (elems : List Elem) (h : Hub) : Hub :=
  let xs := xaRecords elems
  onXs (fun x => { x with
    done := x.done + 1, incomplete := x.incomplete + b2n incomplete, range := x.range + (xs.filter Xa.range).length
    rawExport := if xs.isEmpty then x.rawExport else xs.flatMap Xa.raw }) h

/-- The round's last element has arrived. -/
def Red.ends (m : Red) : Bool := decide (m.first + m.elems.length ≥ m.total)

/-- A result packet into a member's own round: the elements by their index, and the result's flags; done when all are here. -/
def resultTake (r : Round) (m : Red) : Round :=
  if r.done || r.received.any (fun x => decide (x.first = m.first)) then r
  else
    let acc := (m.elems.zipIdx).foldl (fun a x => Tab.put a (m.first + x.2) x.1) r.acc
    let got := r.received ++ [{ src := 0, first := m.first, nel := m.elems.length, total := m.total, cover := [] }]
    { r with
      acc := acc, received := got, total := m.total, contrib := m.contrib, incomplete := r.incomplete || m.incomplete
      carried := r.carried || m.carried, coarse := r.coarse || m.coarse, done := decide ((got.map RoundRx.nel).sum ≥ m.total) }

/-- A tray hands a result to its member dies of the group (R225); the scoring group's members are the trays themselves. -/
def trayResult (h : Hub) (g : Group) (tc : Nat) (m : Red) : Hub :=
  let h := match roundAt h 1 m.group m.seq with
    | some r => putRound 1 m.group m.seq { r with done := r.done || m.ends } h
    | none => h
  if isScoring h m.group then
    match roundAt h 0 m.group m.seq with
    | some r => putRound 0 m.group m.seq (resultTake r m) h
    | none => h
  else
  (g.dies.filter (fun d => decide (d / 128 = myTray h))).foldl (fun h d => redSend tc d m h) h

/-- The trays of a combiner's block. -/
def combTrays (h : Hub) (g : Group) : List Nat := (groupTrays g).filter (fun t => decide (combinerFor g t = some (myTray h)))

/-- A combiner hands a result to the trays of its block, itself among them (R225). -/
def combResult (h : Hub) (g : Group) (tc : Nat) (m : Red) : Hub :=
  let h := match roundAt h 2 m.group m.seq with
    | some r => putRound 2 m.group m.seq { r with done := r.done || m.ends } h
    | none => h
  (combTrays h g).foldl (fun h t => if t = myTray h then trayResult h g tc m else redSend tc (2 ^ 17 + t) m h) h

/-- The root sends the result down the tree it used (R225). -/
def rootResult (h : Hub) (g : Group) (failed : List Nat) (tc : Nat) (m : Red) : Hub :=
  let me := myTray h
  let cs := g.combiners.filter (fun c => !failed.contains (2 ^ 17 + c) && (groupTrays g).any (fun t => decide (combinerFor g t = some c)))
  let h := cs.foldl (fun h c => if c = me then combResult h g tc m else redSend tc (2 ^ 17 + c) m h) h
  let ts := (groupTrays g).filter (fun t => match combinerFor g t with
    | some c => !cs.contains c
    | none => true)
  ts.foldl (fun h t => if t = me then trayResult h g tc m else redSend tc (2 ^ 17 + t) m h) h

/-- The root forms the result once (R225, R226): an incomplete round is recorded with the missing positions. -/
def rootForm (e : Env) (g : Group) (group seq : Nat) (r : Round) (h : Hub) : Hub :=
  let c := takeCarry 3 r seq h
  let r := c.2
  let m := { (upMessage c.1 3 group seq r []) with result := true, cover := [] }
  let miss := r.expected.filter (fun p => !posDone r p)
  let h := putRound 3 group seq { r with sent := true, done := true } (carryParts 3 seq r c.1)
  let h := if m.incomplete then emitUnit 21 (unitId e h 30) 30 ([w32 group, w32 seq] ++ miss.map w32) h else h
  rootResult (roundDone m.incomplete m.elems h) g r.failed r.tc.toNat m

/-- A message at a level (R222–R228): the round it finds or opens takes it, and is sent when it is full; one that comes after the level's
cutoff does not open a round. -/
def levelTake (e : Env) (level src : Nat) (g : Group) (exp : List Nat) (tc : Nat) (m : Red) (send : Round → Hub → Hub) (h : Hub) : Hub :=
  match roundAt h level m.group m.seq with
  | some r => (match (if afterCutoff h level m then roundAccept { r with sent := true } src m else roundAccept r src m) with
    | .taken r' =>
      let h := putRound level m.group m.seq r' h
      if roundFull r' then send r' h else h
    | t => roundRefuse e level src m t h)
  | none =>
    if afterCutoff h level m then roundLate level m h
    else if !roundRoom e h m.group m.seq then roundNoRoom e level m h
    else
      let r' := roundTake (newRound h g m tc exp) src m
      let h := putRound level m.group m.seq r' h
      if roundFull r' then send r' h else h

/-- A message for the root (R222, R224). -/
def rootTake (e : Env) (g : Group) (src tc : Nat) (m : Red) (h : Hub) : Hub :=
  levelTake e 3 src g (groupTrays g) tc m (rootForm e g m.group m.seq) h

/-- A combiner sends its partial to the root (R221). -/
def combSend (e : Env) (g : Group) (group seq : Nat) (r : Round) (h : Hub) : Hub :=
  let c := takeCarry 2 r seq h
  let k := coarsen 2 seq c.2 (carryParts 2 seq r c.1)
  let r := k.2.getD c.2
  let m := upMessage k.1 2 group seq r (r.expected.filter (posDone r))
  let h := putRound 2 group seq { r with sent := true, kept := k.2.isNone } k.1
  if k.2.isNone then h
  else if g.root = myTray h then rootTake e g (2 ^ 17 + myTray h + 1024) r.tc.toNat m h else redSend r.tc.toNat (2 ^ 17 + g.root) m h

/-- A message for a combiner. -/
def combTake (e : Env) (g : Group) (src tc : Nat) (m : Red) (h : Hub) : Hub :=
  levelTake e 2 src g (combTrays h g) tc m (combSend e g m.group m.seq) h

/-- A tray's message to its combiner, or to the root when it has none or a REDIRECT asks for it (R221, R224). -/
def trayDeliver (e : Env) (g : Group) (direct : Bool) (tc : Nat) (m : Red) (h : Hub) : Hub :=
  let me := myTray h
  match (if direct then none else combinerFor g me) with
  | some c => if c = me then combTake e g (2 ^ 17 + me) tc m h else redSend tc (2 ^ 17 + c) m h
  | none => if g.root = me then rootTake e g (2 ^ 17 + me) tc m h else redSend tc (2 ^ 17 + g.root) m h

/-- A tray sends its contribution (R221, R226): missing dies are recorded, and the contribution is held. -/
def traySend (e : Env) (g : Group) (group seq : Nat) (r : Round) (h : Hub) : Hub :=
  let c := takeCarry 1 r seq h
  let k := coarsen 1 seq c.2 (carryParts 1 seq r c.1)
  let r := k.2.getD c.2
  let m := upMessage k.1 1 group seq r [myTray h]
  let miss := r.expected.filter (fun p => !posDone r p)
  let h := putRound 1 group seq { r with sent := true, incomplete := m.incomplete, kept := k.2.isNone } k.1
  let h := if miss.isEmpty then h else emitUnit 22 (unitId e h 30) 30 ([w32 group, w32 seq] ++ miss.map w32) h
  if k.2.isNone then h else trayDeliver e g r.direct r.tc.toNat m h

/-- The member dies of a group at this tray. -/
def trayMembers (h : Hub) (g : Group) : List Nat := g.dies.filter (fun d => decide (d / 128 = myTray h))

/-- A die's message at its tray: of a die that is a member of the round (R223). -/
def trayTake (e : Env) (g : Group) (src tc : Nat) (m : Red) (h : Hub) : Hub :=
  if !((roundAt h 1 m.group m.seq).map Round.expected |>.getD (trayMembers h g)).contains src then onXs (fun x => { x with bad := x.bad + 1 }) h
  else levelTake e 1 src g (trayMembers h g) tc { m with cover := [src] } (traySend e g m.group m.seq) h

/-- A member die sends its contribution to its tray (R221). -/
def dieContribute (e : Env) (tc : Nat) (m : Red) (h : Hub) : Hub :=
  redSend tc (2 ^ 17 + dieNo e h / 128) { m with level := 0, contrib := 1, load := h.xs.load } h

end Sys2Proof.Machine
end

