-- ==== Sys2Proof/Machine/DigOps.lean ====
section
/-!
DEFINITION. The stream digest pipes: beats, deliveries, the digest table, seals, version epochs, digest outcomes and the
submission of comparison rounds (R161–R201).
-/
namespace Sys2Proof.Machine

/-- Change the digest engine. -/
def onDig (f : DigU → DigU) (h : Hub) : Hub := { h with dig := f h.dig }
/-- A pipe: false ingress, true egress. -/
def pipe (h : Hub) (p : Bool) : Pipe := if p then h.dig.egress else h.dig.ingress
/-- Change a pipe. -/
def onPipe (p : Bool) (f : Pipe → Pipe) (h : Hub) : Hub :=
  onDig (fun d => if p then { d with egress := f d.egress } else { d with ingress := f d.ingress }) h

/-- The pipes take beats: die role, SERVING (Table 1.10). -/
def digRuns (e : Env) (h : Hub) : Bool := !e.tray && serving h

/-- The key of a (layer, slice) pair. -/
def pairKey (layer slice : Nat) : Nat := layer * 64 + slice

/-- Roles of a layer: 0 NORMAL, 1 ADAPTER, 2 FROZEN. -/
def layerRole (h : Hub) (layer : Nat) : Nat := (Tab.getD h.dig.cfg.roles layer 0).toNat

/-- Element formats that Table 5.1 defines. -/
def digFmtOk (f : Nat) : Bool := decide (f ≤ 6) || (decide (8 ≤ f) && decide (f ≤ 11))
/-- Formats of 32 bits: binary32, int32, raw32. -/
def wideFmt (f : Nat) : Bool := f == 8 || f == 10 || f == 11
/-- Width of the element codes of the formats of Table 4.1 that share a scale byte. -/
def mxBits (f : Nat) : Nat := if f ≤ 2 then 8 else if f ≤ 4 then 6 else 4
/-- The value bits w of an element (Table 5.1): an element narrower than its field is zero-extended (R162). -/
def valueBits (f w : Nat) : Nat :=
  if f ≤ 5 then w / 256 % 256 * 256 + w % 2 ^ mxBits f
  else if wideFmt f then w else w % 65536
/-- Formats whose squares are summed (R184). -/
def sumFmt (f : Nat) : Option FFmt := if f = 8 then some f32 else if f = 6 then some bf16 else if f = 9 then some f16 else none

/-- Link entity of a weight link. -/
def linkEnt (e : Env) (h : Hub) (l : Nat) : Word := ownId e h 6 l
/-- Change a link's figures. -/
def onLink (l : Nat) (f : LinkStat → LinkStat) (h : Hub) : Hub :=
  onDig (fun d => { d with links := setAt d.links l (f (getAt d.links l {})) }) h

/-! Records and outcomes. -/

/-- A DIGEST record: pipe, layer, slice, epoch, scope, the mark FIXED of R165, counts, digests (Table 15.2), and what the rule adds. -/
def digRecord (code sev : Nat) (x : Word) (p : Bool) (layer slice : Nat) (ep : Word) (scope : Nat) (fixed : Bool) (counts : List Nat)
    (digests : List Nat) (extra : List Word) (h : Hub) : Hub :=
  emit 2 sev 0 x 28 code ([w32 (b2n p), w32 layer, w32 slice, ep, w32 scope, w32 (b2n fixed)] ++ counts.map w32 ++ digests.flatMap w64 ++ extra) h

/-- What every digest outcome other than DIG_MATCH does beside its record and its floors (R201, R620). -/
def digOutcome (e : Env) (code : Nat) (charged : List Word) (h : Hub) : Hub :=
  let h := charged.foldl (fun h x => chargeEnt e x h) (irq 3 h)
  let h := if code = 1 ∨ code = 4 then histDie e .digest 1 h else h
  outcomeMark e (charged.head?.getD noEnt) true code (nowNs h) h

/-- DIG_ODD of scope REPEAT against the link of a delivery (R175, R190). -/
def oddRepeat (e : Env) (d : Delivery) (ref : DigEntry) (h : Hub) : Hub :=
  let l := linkEnt e h d.link
  let h := digRecord 1 2 (dieEnt e h) false d.layer d.slice d.epoch 1 d.fixed [d.count, ref.count]
    [d.d0.toNat, d.d1.toNat, ref.d0.toNat, ref.d1.toNat] [l] h
  let h := onLink d.link (fun s => { s with repeats := s.repeats + 1 }) (onDig (fun x => { x with odd := x.odd + 1 }) h)
  setFloor l 2 (nowNs h) (digOutcome e 1 [dieEnt e h, l] h)

/-- A tap violation of Table 5.6, counted and recorded (R172). -/
def digProto (e : Env) (p : Bool) (sub : Nat) (h : Hub) : Hub :=
  digRecord 7 1 (dieEnt e h) p 0 0 0 0 false [] [] [w32 sub] (onDig (fun d => { d with proto := d.proto + 1 }) h)

/-- A stale use (R181): recorded, and counted for the die and the link. -/
def staleUse (e : Env) (p : Bool) (layer slice link : Nat) (ep : Word) (h : Hub) : Hub :=
  let h := digRecord 5 1 (dieEnt e h) p layer slice ep 0 false [] [] [w32 link] (onDig (fun d => { d with stale := d.stale + 1 }) h)
  let h := if p then h else onLink link (fun s => { s with stale := s.stale + 1 }) h
  featWrite e (dieEnt e h) (imgOf h).features.stale (int32f h.dig.stale) h

/-! The input FIFO (R169). -/

/-- Time spent on the beats that wait. -/
def drainFifo : List Nat → Nat → List Nat
  | [], _ => []
  | c :: t, n => if c ≤ n then drainFifo t (n - c) else (c - n) :: t

/-- A beat arrives: a tap presents at most one in a cycle, so at least one cycle of 1 ns has passed since the beat before. -/
def fifoTick (now : Nat) (p : Pipe) : Pipe :=
  { p with fifo := drainFifo p.fifo (max 1 (now - p.drained)), drained := max now (p.drained + 1) }

/-- Cycles a data beat takes in the pipe (R169). -/
def beatCost (fmt cnt : Nat) : Nat := if wideFmt fmt && decide (cnt > 64) then 2 else 1

/-- A beat enters the FIFO, or finds it full. -/
def fifoPush (p : Bool) (cost : Nat) (h : Hub) : Hub × Bool :=
  let q := fifoTick (nowNs h) (pipe h p)
  if q.fifo.length ≥ 16 then (onPipe p (fun _ => q) h, false)
  else (onPipe p (fun _ => { q with fifo := q.fifo ++ [cost] }) h, true)

/-- TB at which the end beat that entered last is final: it leaves the FIFO once those before it have, and 24 cycles pass (R171, Table 5.5). -/
def finalAt (p : Pipe) : Nat := p.drained + p.fifo.dropLast.sum + 24

/-! Deliveries. -/

/-- The epoch table that a number names. -/
def epochOf (h : Hub) (n : Word) : Option Epoch :=
  match h.dig.newer, h.dig.older with
  | some x, o => if x.num = n then some x else o.bind (fun y => if y.num = n then some y else none)
  | none, o => o.bind (fun y => if y.num = n then some y else none)
/-- Change a held epoch. -/
def onEpoch (n : Word) (f : Epoch → Epoch) (h : Hub) : Hub :=
  let g := fun (o : Option Epoch) => o.map (fun x => if x.num = n then f x else x)
  onDig (fun d => { d with newer := g d.newer, older := g d.older }) h
/-- The older epoch is RETIRED (R179). -/
def olderRetired (h : Hub) : Bool := h.dig.older.isSome && decide (h.dig.retire = 0)
/-- An epoch that deliveries may name. -/
def epochOpen (h : Hub) (n : Word) : Bool :=
  match h.dig.newer with
  | some x => decide (x.num = n) || (h.dig.older.any (fun y => decide (y.num = n)) && decide (h.dig.retire > 0))
  | none => h.dig.older.any (fun y => decide (y.num = n)) && decide (h.dig.retire > 0)

/-- The entries of a pipe in an epoch. -/
def tableOf (p : Bool) (ep : Epoch) : Tab DigEntry := if p then ep.egress else ep.ingress
/-- Put an entry. -/
def putEntry (p : Bool) (k : Nat) (x : DigEntry) (ep : Epoch) : Epoch :=
  if p then { ep with egress := Tab.put ep.egress k x } else { ep with ingress := Tab.put ep.ingress k x }

/-- Is this the delivery of a (layer, slice, epoch)? -/
def Delivery.is (d : Delivery) (layer slice : Nat) (ep : Word) : Bool :=
  decide (d.layer = layer) && decide (d.slice = slice) && decide (d.epoch = ep)
/-- The open delivery of a (layer, slice, epoch). -/
def delivery (h : Hub) (p : Bool) (layer slice : Nat) (ep : Word) : Option Delivery :=
  (pipe h p).open_.find? (fun d => d.is layer slice ep)
/-- Change an open delivery. -/
def onDelivery (p : Bool) (layer slice : Nat) (ep : Word) (f : Delivery → Delivery) (h : Hub) : Hub :=
  onPipe p (fun q => { q with open_ := q.open_.map (fun d => if d.is layer slice ep then f d else d) }) h

/-- The frozen keys of the job (R164). -/
def frozenKeys (h : Hub) : Fld × Fld :=
  (digKey h.dig.cfg.seed h.dig.cfg.job.toNat 0xFFFFFFFF 0, digKey h.dig.cfg.seed h.dig.cfg.job.toNat 0xFFFFFFFF 1)

/-- Keys of a delivery (R163–R165, R190) and whether they are the fixed ones. -/
def deliveryKeys (h : Hub) (p : Bool) (layer : Nat) (ep : Epoch) : Fld × Fld × Bool :=
  laneKeys h (if !p && layerRole h layer == 2 then frozenKeys h else (ep.k0, ep.k1))

/-- Change a seal that is held. -/
def onSeal (sid : Nat) (f : Seal → Seal) (h : Hub) : Hub :=
  onDig (fun d => match Tab.find d.seals sid with
    | some s => { d with seals := Tab.put d.seals sid (f s) }
    | none => d) h
/-- Change a recall that is open on a pipe. -/
def onRecall (p : Bool) (sid : Nat) (f : Seal → Seal) (h : Hub) : Hub :=
  onPipe p (fun q => match Tab.find q.recalls sid with
    | some s => { q with recalls := Tab.put q.recalls sid (f s) }
    | none => q) h

/-- Mark the open delivery on a tap, the one its current chunk belongs to, as invalid (R172). Between the end beat of one and the header of
the next no chunk says which of the interleaved deliveries that is, and every open one becomes invalid: DESIGN CHOICE (log 90). -/
def chunkInvalid (p : Bool) (h : Hub) : Hub :=
  match (pipe h p).chunk.map Chunk.kind with
  | some (.slice l s ep _) => onDelivery p l s ep (fun d => { d with invalid := true }) h
  | some (.seal sid) => onSeal sid (fun s => { s with invalid := true }) h
  | some (.recall sid) => onRecall p sid (fun s => { s with invalid := true }) h
  | none => onPipe p (fun q => { q with open_ := q.open_.map (fun d => { d with invalid := true }) }) h

/-- Elements of the current chunk that a full FIFO discarded (R169): counted as lost, and what they belong to overruns. -/
def chunkOverrun (p : Bool) (n : Nat) (h : Hub) : Hub :=
  let h := onPipe p (fun q => { q with lost := q.lost + n }) h
  match (pipe h p).chunk.map Chunk.kind with
  | some (.slice l s ep skip) =>
    if skip = 3 then h else onDelivery p l s ep (fun d => { d with overrun := true, lost := d.lost + n }) h
  | some (.seal sid) => onSeal sid (fun s => { s with overrun := true }) h
  | some (.recall sid) => onRecall p sid (fun s => { s with overrun := true }) h
  | none => h

/-- Fields of a header beat (Table 5.4). -/
structure DigHdr where
  type  : Nat
  fmt   : Nat
  link  : Nat
  layer : Nat
  slice : Nat
  epoch : Word
  base  : Nat
  sid   : Nat
  rsvd  : Nat

/-- A header beat read. -/
def digHdr (d : BitVec 128) : DigHdr :=
  let f := bitsOf d.toNat
  { type := f 127 124, fmt := f 123 120, link := f 119 117, layer := f 116 105, slice := f 104 99, epoch := BitVec.ofNat 32 (f 98 67)
    base := f 66 38, sid := f 37 28, rsvd := f 27 0 }

/-- A beat of an open ingress delivery: the interval since the one before it (Table 5.8). -/
def linkBeat (p : Bool) (l last : Nat) (h : Hub) : Hub :=
  if p then h else onLink l (fun s => { s with gap := max s.gap (nowNs h - last) }) h

/-- A link delivers of an epoch: a delivery is open on it, and its most recent epoch follows (R192). -/
def linkDelivers (p : Bool) (l : Nat) (ep : Word) (h : Hub) : Hub :=
  if p then h else onLink l (fun s => { s with
    wasOpen := true
    lastEpoch := some (match s.lastEpoch with
      | some y => if y.toNat < ep.toNat then ep else y
      | none => ep) }) h

/-- A CHUNK's delivery is started, or resumed. -/
def startDelivery (p : Bool) (x : DigHdr) (ep : Epoch) (h : Hub) : Hub :=
  let keys := deliveryKeys h p x.layer ep
  let fresh : Delivery := {
    layer := x.layer, slice := x.slice, epoch := x.epoch, link := x.link, fmt := BitVec.ofNat 4 x.fmt
    k0 := keys.1, k1 := keys.2.1, fixed := keys.2.2, lastBeat := nowNs h }
  let h := match delivery h p x.layer x.slice x.epoch with
    | some d =>
      onDelivery p x.layer x.slice x.epoch (fun d => { d with link := x.link, fmt := BitVec.ofNat 4 x.fmt, lastBeat := nowNs h })
        (linkBeat p d.link d.lastBeat h)
    | none => onPipe p (fun q => { q with open_ := q.open_ ++ [fresh] }) h
  linkDelivers p x.link x.epoch h

/-- The tap's current chunk is a slice's. -/
def sliceChunk (p : Bool) (skip : Nat) (x : DigHdr) (h : Hub) : Hub :=
  onPipe p (fun q => { q with
    chunk := some { kind := .slice x.layer x.slice x.epoch skip, fmt := BitVec.ofNat 4 x.fmt, link := x.link, next := x.base } }) h

/-- A delivery that overran. -/
def overrunDelivery (p : Bool) (x : DigHdr) (h : Hub) : Hub :=
  onDelivery p x.layer x.slice x.epoch (fun d => { d with overrun := true }) h

/-- A pipe's table of an epoch holds a pair, or has room for it (R173). -/
def tableRoom (p : Bool) (k : Nat) (ep : Epoch) : Bool := (Tab.find (tableOf p ep) k).isSome || decide ((tableOf p ep).length < 8192)

/-- A CHUNK for an open epoch: starts or resumes its delivery, and allocates a table entry (R173). -/
def openChunk (e : Env) (p : Bool) (x : DigHdr) (ep : Epoch) (h : Hub) : Hub :=
  let k := pairKey x.layer x.slice
  let h := startDelivery p x ep h
  if tableRoom p k ep then
    onEpoch ep.num (fun y => if (Tab.find (tableOf p y) k).isSome then y else putEntry p k {} y) (sliceChunk p 0 x h)
  else
    emitUnit 30 (unitId e h 28) 28 [w32 (b2n p), w32 x.layer, w32 x.slice, x.epoch]
      (overrunDelivery p x (onDig (fun d => { d with tableFull := d.tableFull + 1 }) (sliceChunk p 1 x h)))

/-- CHUNK (R172, R173, R181). -/
def chunkHeader (e : Env) (p : Bool) (x : DigHdr) (h : Hub) : Hub :=
  if !digFmtOk x.fmt then chunkInvalid p (digProto e p 2 h)
  else if epochOpen h x.epoch then
    match epochOf h x.epoch with
    | some ep => openChunk e p x ep h
    | none => h
  else if h.dig.opened.contains x.epoch then
    staleUse e p x.layer x.slice x.link x.epoch (sliceChunk p 3 x (digProto e p 5 h))
  else sliceChunk p 3 x (onDig (fun d => { d with unopened := d.unopened + 1 }) (digProto e p 4 h))

/-- SLICE_END (R172, R174, R178): the delivery is checked, and becomes final 24 cycles on. -/
def sliceEnd (e : Env) (p : Bool) (x : DigHdr) (h : Hub) : Hub :=
  let other := match (pipe h p).chunk.map Chunk.kind with
    | some (.slice l s ep _) => !(l == x.layer && s == x.slice && decide (ep = x.epoch))
    | _ => false
  let dead := match (pipe h p).chunk.map Chunk.kind with
    | some (.slice _ _ _ skip) => decide (skip ≠ 0)
    | _ => false
  if other then digProto e p 7 h
  else match delivery h p x.layer x.slice x.epoch with
    | none => if dead then onPipe p (fun q => { q with chunk := none }) h else digProto e p 6 h
    | some d =>
      let valid := !d.invalid && !d.overrun && decide (d.count = x.base)
      let h := onPipe p (fun q => { q with
        chunk := none, open_ := q.open_.filter (fun y => !y.is x.layer x.slice x.epoch)
        finals := q.finals ++ [(finalAt q, .slice d valid)] }) (linkBeat p d.link d.lastBeat h)
      let h := if p && !valid then onEpoch x.epoch (fun y => { y with incomplete := true }) h else h
      if d.overrun then h
      else if valid then (if p then h else onLink d.link (fun s => { s with deliveries := s.deliveries + 1 }) h)
      else
        let h := onDig (fun y => { y with invalid := y.invalid + 1 }) h
        let h := if p then h else onLink d.link (fun s => { s with invalid := s.invalid + 1 }) h
        digRecord 6 1 (dieEnt e h) p x.layer x.slice x.epoch 0 d.fixed [d.count, x.base] [d.d0.toNat, d.d1.toNat] [w32 d.link] h

/-- The tap's current chunk is a stash's. -/
def stashChunk (p : Bool) (kind : ChunkKind) (x : DigHdr) (h : Hub) : Hub :=
  onPipe p (fun q => { q with chunk := some { kind := kind, fmt := BitVec.ofNat 4 x.fmt, link := 0, next := x.base } }) h

/-- SEAL (R186, R188): a seal with fresh keys; one that still holds a seal is replaced and recorded. `lost` says that the header itself was
lost to a full FIFO. -/
def sealHeader (e : Env) (p lost : Bool) (x : DigHdr) (h : Hub) : Hub :=
  let h := match Tab.find h.dig.seals x.sid with
    | some s => digRecord 8 1 (dieEnt e h) p 0 0 0 0 s.fixed [s.count] [s.d0.toNat, s.d1.toNat] [w32 x.sid, 1] h
    | none => h
  let b := draw h
  let k := laneKeys h (fld (bitsOf b.toNat 60 0), fld (bitsOf b.toNat 121 61))
  let s : Seal := { state := 1, egress := p, k0 := k.1, k1 := k.2.1, fixed := k.2.2, overrun := lost }
  stashChunk p (.seal x.sid) x (onDig (fun d => { d with seals := Tab.put d.seals x.sid s }) (drawn h))

/-- RECALL (R187, R188): digested under the seal's keys from index 0; without a valid seal it is unchecked. -/
def recallHeader (p lost : Bool) (x : DigHdr) (h : Hub) : Hub :=
  let r : Seal := match Tab.find h.dig.seals x.sid with
    | some s =>
      let k := laneKeys h (s.k0, s.k1)
      { state := if s.state = 2 && !s.overrun then 1 else 3, egress := p, k0 := k.1, k1 := k.2.1, fixed := k.2.2, overrun := lost }
    | none => { state := 3, egress := p, k0 := 0, k1 := 0, overrun := lost }
  stashChunk p (.recall x.sid) { x with base := 0 } (onPipe p (fun q => { q with recalls := Tab.put q.recalls x.sid r }) h)

/-- STASH_END (R186–R188): ends a recall, or makes the seal. -/
def stashEnd (e : Env) (p : Bool) (x : DigHdr) (h : Hub) : Hub :=
  match Tab.find (pipe h p).recalls x.sid with
  | some r =>
    let sl := Tab.find h.dig.seals x.sid
    let checked := decide (r.state = 1) && !r.overrun
    let ok := match sl with
      | some s => decide (r.count = x.base) && !r.invalid && decide (s.count = r.count) && decide (s.d0 = r.d0) && decide (s.d1 = r.d1)
      | none => false
    let h := onPipe p (fun q => { q with
      chunk := none, recalls := Tab.drop q.recalls x.sid, finals := q.finals ++ [(finalAt q, .recall x.sid r sl (checked && ok) checked)] }) h
    onDig (fun d => { d with seals := Tab.drop d.seals x.sid }) h
  | none =>
    match Tab.find h.dig.seals x.sid with
    | none => digProto e p 6 h
    | some s =>
      if s.state ≠ 1 ∨ s.egress ≠ p then digProto e p 6 h
      else
        let good := decide (s.count = x.base) && !s.invalid && !s.overrun
        let h := onPipe p (fun q => { q with chunk := none }) h
        let h := onDig (fun d => { d with seals := Tab.put d.seals x.sid { s with state := if good then 2 else 3 } }) h
        if good then h
        else digRecord 8 1 (dieEnt e h) p 0 0 0 0 s.fixed [s.count, x.base] [s.d0.toNat, s.d1.toNat] [w32 x.sid, 0] h

/-- A header that a full FIFO discards (R169): what it names overruns: the delivery, seal or recall that it would have begun, or the one
that it ends, which stays open. The elements that follow the lost header of a chunk are lost with it. DESIGN CHOICE (log 31). -/
def lostHeader (e : Env) (p : Bool) (x : DigHdr) (h : Hub) : Hub :=
  match x.type with
  | 0 => (match (if epochOpen h x.epoch then epochOf h x.epoch else none) with
    | some ep => overrunDelivery p x (sliceChunk p 2 x (startDelivery p x ep h))
    | none => sliceChunk p 3 x h)
  | 1 => overrunDelivery p x h
  | 2 => sealHeader e p true x h
  | 3 => recallHeader p true x h
  | 4 => if (Tab.find (pipe h p).recalls x.sid).isSome then onRecall p x.sid (fun s => { s with overrun := true }) h
    else onSeal x.sid (fun s => { s with overrun := s.overrun || decide (s.state = 1) }) h
  | _ => h

/-- A header beat (Table 5.4): one cycle in the FIFO, then its type's effect; a reserved TYPE or FMT or a reserved field that is not zero is
violation 2 (Table 5.6). -/
def headerBeat (e : Env) (p : Bool) (d : BitVec 128) (h : Hub) : Hub :=
  let r := fifoPush p 1 h
  let x := digHdr d
  if !r.2 then lostHeader e p x r.1
  else if x.type > 4 ∨ x.rsvd ≠ 0 ∨ ((x.type = 2 ∨ x.type = 3) ∧ digFmtOk x.fmt = false) ∨ (x.type = 3 ∧ x.base ≠ 0) then
    chunkInvalid p (digProto e p 2 r.1)
  else match x.type with
    | 0 => chunkHeader e p x r.1
    | 1 => sliceEnd e p x r.1
    | 2 => sealHeader e p false x r.1
    | 3 => recallHeader p false x r.1
    | _ => stashEnd e p x r.1

/-! Data beats. -/

/-- Squares of egress elements into the epoch's sum (R184, R213); a RETIRED epoch is read-only (R179). -/
def addSquares (ep : Word) (fmt : Nat) (ws : List Nat) (h : Hub) : Hub :=
  if !epochOpen h ep then h
  else match sumFmt fmt with
  | none => if ws.isEmpty then h else onEpoch ep (fun y => { y with sumPartial := true }) h
  | some f =>
    match epochOf h ep with
    | none => h
    | some y => laneBeats .square f (b2n y.ctx) ws h

/-- The elements of a data beat at the chunk they belong to (R162, R168, R172, R173). -/
def takeData (e : Env) (p : Bool) (c : Chunk) (ws : List Nat) (h : Hub) : Hub :=
  let fit := (ws.take (2 ^ 28 - c.next)).map (valueBits c.fmt.toNat)
  let past := decide (fit.length < ws.length)
  let now := nowNs h
  let h := onPipe p (fun q => { q with chunk := some { c with next := c.next + ws.length } }) h
  let stash := fun (s : Seal) =>
    let v := digList s.k0 s.k1 c.next fit (s.d0, s.d1)
    { s with d0 := v.1, d1 := v.2, count := s.count + fit.length }
  let h := match c.kind with
    | .slice l s ep skip =>
      match delivery h p l s ep, skip with
      | none, _ => h
      | some d, 0 =>
        let v := digList d.k0 d.k1 c.next fit (d.d0, d.d1)
        let h := onDelivery p l s ep (fun d => { d with d0 := v.1, d1 := v.2, count := d.count + fit.length, lastBeat := now })
          (linkBeat p d.link d.lastBeat h)
        if p then addSquares ep c.fmt.toNat fit h else onLink c.link (fun s => { s with elements := s.elements + fit.length }) h
      | some d, 1 => onDelivery p l s ep (fun d => { d with lost := d.lost + ws.length, lastBeat := now }) (linkBeat p d.link d.lastBeat h)
      | some _, 2 => chunkOverrun p ws.length h
      | some _, _ => h
    | .seal sid => onSeal sid stash h
    | .recall sid => onRecall p sid stash h
  if past then chunkInvalid p (digProto e p 3 h) else h

/-- A data beat (R168, R169, R172); one of no elements is legal and changes nothing (R167). -/
def dataBeat (e : Env) (p : Bool) (cnt : Nat) (lanes : List Word) (h : Hub) : Hub :=
  if cnt = 0 then h else
  let fmt := match (pipe h p).chunk with
    | some c => c.fmt.toNat
    | none => 0
  let r := fifoPush p (beatCost fmt (min cnt 128)) h
  if !r.2 then chunkOverrun p (min cnt 128) r.1
  else if cnt > 128 then chunkInvalid p (digProto e p 2 r.1)
  else match (pipe r.1 p).chunk with
    | none => digProto e p 1 r.1
    | some c => takeData e p c ((lanes.take cnt).map BitVec.toNat) r.1

/-! A digest is final (R171). -/

/-- DIG_OVERRUN (R178): the digest is invalid, the loss is recorded, the unit DIG is charged. -/
def overrunFinal (e : Env) (p : Bool) (d : Delivery) (h : Hub) : Hub :=
  let u := unitId e h 28
  let h := digRecord 3 2 u p d.layer d.slice d.epoch 0 d.fixed [d.count, d.lost] [d.d0.toNat, d.d1.toNat] []
    (onDig (fun x => { x with overruns := x.overruns + 1 }) h)
  let h := lossRecord 5 u 28 d.lost d.lastBeat (nowNs h) h
  digOutcome e 3 [u] h

/-- An entry of an epoch that is not RETIRED, which is read-only (R179), where the table has it or has room (R173). -/
def setEntry (p : Bool) (ep : Word) (k : Nat) (x : DigEntry) (h : Hub) : Hub :=
  if epochOpen h ep then onEpoch ep (fun y => if tableRoom p k y then putEntry p k x y else y) h else h

/-- A delivery's digest is final (R174–R176, R190). -/
def sliceFinal (e : Env) (p : Bool) (d : Delivery) (valid : Bool) (h : Hub) : Hub :=
  let k := pairKey d.layer d.slice
  let mine : DigEntry := { d0 := d.d0, d1 := d.d1, count := d.count, state := 1, fixed := d.fixed }
  let h := if d.overrun then overrunFinal e p d h else h
  match epochOf h d.epoch with
  | none => h
  | some ep =>
    let old := Tab.getD (tableOf p ep) k {}
    if !valid then (if p then setEntry p d.epoch k { old with state := 2 } h else h)
    else if p then
      setEntry p d.epoch k { old with
        d0 := fAdd old.d0 d.d0, d1 := fAdd old.d1 d.d1, count := old.count + d.count
        state := if old.state = 2 then 2 else 1, fixed := old.fixed || d.fixed } h
    else if layerRole h d.layer == 2 then
      let h := if old.state = 1 then h else setEntry p d.epoch k mine h
      match Tab.find h.dig.frozenRef k with
      | none => onDig (fun x => { x with frozenRef := Tab.put x.frozenRef k mine }) h
      | some ref => if ref.d0 = d.d0 ∧ ref.d1 = d.d1 ∧ ref.count = d.count then h else oddRepeat e d ref h
    else if old.state = 1 then
      (if old.d0 = d.d0 ∧ old.d1 = d.d1 ∧ old.count = d.count then h else oddRepeat e d old h)
    else setEntry p d.epoch k mine h

/-- A recall is final (R187, R188): the result on DG_SV, and DIG_STASH_BROKEN when a checked recall differs. -/
def recallFinal (e : Env) (p : Bool) (sid : Nat) (r : Seal) (s : Option Seal) (ok checked : Bool) (h : Hub) : Hub :=
  let h := onDig (fun d => { d with
    sv := true, sok := ok, sid := BitVec.ofNat 10 sid
    checked := d.checked + b2n checked, unchecked := d.unchecked + b2n (!checked), broken := d.broken + b2n (checked && !ok) }) h
  if checked && !ok then
    let h := match s with
      | some s => digRecord 4 2 (dieEnt e h) p 0 0 0 0 r.fixed [r.count, s.count] [r.d0.toNat, r.d1.toNat, s.d0.toNat, s.d1.toNat] [w32 sid] h
      | none => h
    setFloor (dieEnt e h) 2 (nowNs h) (digOutcome e 4 [dieEnt e h] h)
  else h

/-! Comparison rounds (R194–R199). -/

/-- The layer takes part in the round of an epoch (R189, R194). -/
def included (h : Hub) (ep layer : Nat) : Bool :=
  match layerRole h layer with
  | 1 => true
  | 2 => decide (ep % (64 * h.dig.cfg.period) = 0)
  | _ => decide (ep % h.dig.cfg.period = 0)

/-- The shadow flag of this die in its job. -/
def isShadow (e : Env) (h : Hub) : Bool :=
  match jobOfDie h (dieNo e h) with
  | some j => (jobDies h j).any (fun d => decide (d.die = dieNo e h) && d.shadow)
  | none => false

/-- This die's replica is removed from voting (Table 8.6). -/
def isOut (e : Env) (h : Hub) : Bool :=
  match jobOfDie h (dieNo e h) with
  | some j => (jobDies h j).any (fun d => decide (d.die = dieNo e h) && d.out)
  | none => false

/-- The DIGEST_COMPARE set that a member contributes (R198, R199): a valid digest under the job's keys, or nothing. A replica removed from
voting puts nothing into it (R310). -/
def memberSet (shadow out : Bool) (p : Nat × DigEntry) : Elem :=
  if p.2.state = 1 && !p.2.fixed && !out then
    .set { pair := p.1, entries := [(p.2.d0.toNat, p.2.d1.toNat, b2n (!shadow), b2n shadow)] }
  else .set { pair := p.1 }

/-- A round recorded as uncompared (R195, R197). -/
def uncompared (e : Env) (ep : Word) (h : Hub) : Hub :=
  digRecord 10 1 (dieEnt e h) false 0 0 ep 0 false [] [] [] (onDig (fun d => { d with uncmp := d.uncmp + 1 }) h)

/-- Open a round at this die and contribute (R221). -/
def openRound (e : Env) (use : RoundUse) (tc : Nat) (m : Red) (h : Hub) : Hub :=
  let r : Round := {
    op := BitVec.ofNat 4 m.op, geom := w32 m.geom, total := m.total, window := m.window, use := use, opened := nowNs h, sent := true
    tc := BitVec.ofNat 2 tc }
  dieContribute e tc m (putRound 0 m.group m.seq r h)

/-- Submit the round of a retired epoch (R195, R199): its included ingress digests go into a compare buffer and to the
reduction; a shadow and its twin also submit their egress digests. -/
def submitRound (e : Env) (ep : Epoch) (h : Hub) : Hub :=
  let n := ep.num.toNat
  let pairs := ep.ingress.filter (fun p => included h n (p.1 / 64))
  let rounds := h.xs.rounds.filter (fun p => decide (p.1 / 2 ^ 26 = 0) && !p.2.done)
  let h := if pairs.isEmpty then h else onEpoch ep.num (fun y => { y with rounds := y.rounds + 1 }) h
  if pairs.isEmpty then h
  else match jobOfDie h (dieNo e h) with
    | none => uncompared e ep.num h
    | some j =>
      match jobAt h j, h.dig.buf0, h.dig.buf1 with
      | some job, b0, b1 =>
        if (b0.isSome && b1.isSome) || decide (rounds.length ≥ 16) then uncompared e ep.num h
        else
          let g := job.group.toNat
          let seq := seqOfCompare n
          let sh := isShadow e h
          let out := isOut e h
          let b : CmpRound := { epoch := ep.num, no := ep.rounds, seq := BitVec.ofNat 16 seq, group := g, deadline := nowNs h + h.dig.cfg.cmpTimeout, pairs := pairs }
          let h := onDig (fun d => if b0.isNone then { d with buf0 := some b } else { d with buf1 := some b }) h
          let h := openRound e (.compare ep.num) 2
            { group := g, seq := seq, op := 6, level := 0, total := pairs.length, elems := pairs.map (memberSet sh out) } h
          let me := dieNo e h
          let reps := (h.casc.shadows.filter (fun s => decide (s.job = j) && (pairDies h j s.rep.toNat).contains me)).map (fun s => s.rep.toNat)
          let eg := ep.egress
          if eg.isEmpty then h else
            reps.foldl (fun h rep => openRound e (.egressCompare ep.num rep) 2
              { group := g, seq := seqOfEgress n rep, op := 6, level := 0, total := eg.length, elems := eg.map (memberSet sh out) } h) h
      | none, _, _ => h

/-- The older epoch retires when its count reaches 0 (R181, R195). -/
def retired (e : Env) (h : Hub) : Hub :=
  match h.dig.older with
  | some ep => if h.dig.retire = 0 then submitRound e ep (onDig (fun d => { d with overdue := false }) h) else h
  | none => h

/-- A layer keeps its frozen references over a change of figures (R190): it is and stays FROZEN, under the same keys. -/
def keepsRefs (old new : DigCfg) (layer : Nat) : Bool :=
  decide (old.job = new.job) && decide (old.seed = new.seed) && decide (Tab.getD old.roles layer 0 = 2) && decide (Tab.getD new.roles layer 0 = 2)

/-- Figures come into force; those of another job have no checkpoint. -/
def applyDigCfg (c : DigCfg) (h : Hub) : Hub :=
  onDig (fun d => { d with
    cfg := c, checkpoint := if d.cfg.job = c.job then d.checkpoint else none
    frozenRef := d.frozenRef.filter (fun q => keepsRefs d.cfg c (q.1 / 64)) }) h

/-- The figures that wait for an OPEN come into force (R202). -/
def takeNext (h : Hub) : Hub :=
  match h.dig.next with
  | some c => onDig (fun d => { d with next := none }) (applyDigCfg c h)
  | none => h

/-- Free both epochs (R183). -/
def freeEpochs (h : Hub) : Hub :=
  onXs (fun x => { x with held0 := false, held1 := false }) <| clearCtx 0 <| clearCtx 1 <|
    (onDig (fun d => { d with
      newer := none, older := none, retire := 0, opened := [], overdue := false, links := d.links.map (fun l => { l with lastEpoch := none }) }) h)

end Sys2Proof.Machine
end

