-- ==== Sys2Proof/Machine/DigCmds.lean ====
section
/-!
DEFINITION. The commands and events of the stream digest engine (R161–R205), but for DIG_EPOCH OPEN, which is a step boundary.
-/
namespace Sys2Proof.Machine

/-- Pairs of words. -/
def pairsOf : List Word → Option (List (Nat × Nat))
  | [] => some []
  | a :: b :: t => (pairsOf t).map (fun l => (a.toNat, b.toNat) :: l)
  | _ => none

/-- Frozen regions of eight words: layer, slice, format, base index, address (2), length in bytes (2). DESIGN CHOICE (log 32). -/
def frozenOf : Nat → List Word → Option (List Frozen)
  | _, [] => some []
  | 0, _ => none
  | n + 1, a :: b :: c :: d :: a1 :: a0 :: l1 :: l0 :: t =>
    if a.toNat < 4096 ∧ b.toNat < 64 ∧ digFmtOk c.toNat ∧ d.toNat < 2 ^ 28 then
      (frozenOf n t).map (fun l => {
        layer := a.toNat, slice := b.toNat, fmt := BitVec.ofNat 4 c.toNat, base := d.toNat
        addr := a1.toNat * 2 ^ 32 + a0.toNat, len := l1.toNat * 2 ^ 32 + l0.toNat } :: l)
    else none
  | _, _ => none

/-- Set a layer's role. -/
def setRole (d : DigCfg) (p : Nat × Nat) : DigCfg := { d with roles := Tab.put d.roles p.1 (BitVec.ofNat 2 p.2) }

/-- DIG_CFG settings (Table 5.11). Layer roles come as pairs (layer, role); frozen regions add to those registered, and an
empty record clears them. DESIGN CHOICE (log 32). -/
def digSetting (num : Nat) (v : List Word) (d : DigCfg) : Option DigCfg :=
  match num with
  | 1 => if v.length = 4 then some { d with seed := BitVec.ofNat 128 (beNat (wordsBytes v)) } else none
  | 2 => (pairsOf v).bind (fun l => if l.all (fun p => decide (p.1 < 4096) && decide (p.2 ≤ 2)) then some (l.foldl setRole d) else none)
  | 3 => (within 1 256 (one v)).map (fun n => { d with period := n })
  | 4 => (within 1000000 1000000000 (two v)).map (fun n => { d with cmpTimeout := n })
  | 5 => (within 1000000000 3600000000000 (two v)).map (fun n => { d with retireLimit := n })
  | 6 => (two v).bind (fun n => if n = 0 ∨ (250000000 ≤ n ∧ n ≤ 32000000000) then some { d with scrubRate := n } else none)
  | 7 => (frozenOf v.length v).bind (fun l =>
      let all := if l.isEmpty then [] else d.frozen ++ l
      if all.length ≤ 256 then some { d with frozen := all } else none)
  | 8 => (within 0 1 (one v)).map (fun n => { d with shielded := decide (n = 0) })
  | _ => none

/-- The figures a job's DIG_CFG starts from: those that wait or are in force for the same job, the defaults for another. -/
def digBase (h : Hub) (job : Nat) : DigCfg :=
  let d := h.dig.next.getD h.dig.cfg
  if d.job.toNat = job then d else if h.dig.cfg.job.toNat = job then h.dig.cfg else { job := BitVec.ofNat 16 job }

/-- A DIG_CFG's figures are taken (R202): at once, or at the next OPEN when it changes the seed. Another job's seed is another seed.
DEDUCED (log 91). -/
def takeDigCfg (h : Hub) (c : Ctx) : Hub :=
  let base := digBase h (c.n 1)
  let new := setOr base (c.settings 2 digSetting base)
  if new.job ≠ h.dig.cfg.job ∨ new.seed ≠ base.seed then onDig (fun d => { d with next := some new }) h
  else
    let now := setOr h.dig.cfg (c.settings 2 digSetting h.dig.cfg)
    onDig (fun d => { d with next := d.next.map (fun _ => new) }) (applyDigCfg { now with seed := h.dig.cfg.seed } h)

/-- DIG_CFG -/
def opDigCfg : OpDef := {
  code := 0x40, changes := true, may := fleetDom, runs := dieServing, form := fun c => decide (1 ≤ c.words.length)
  range := fun _ h c => if c.n 1 > 0xFFFF then some 1 else badSet (c.settings 2 digSetting (digBase h (c.n 1)))
  act := fun _ h c => ok [] (takeDigCfg h c) }

/-- DIG_CFG (R202). -/
def execDigCfg (c : Cmd) (s : State) : Host.Outcome State Fault Refusal := s.runOp opDigCfg c

/-- A TENANT may name this die's digests only while the die is listed in its job (R203, Table 12.10). -/
def digSee (e : Env) (h : Hub) (c : Ctx) : Option Nat := if c.tenant && !entSeen h c.job (dieEnt e h) then some 0 else none

/-- Words of an entry (Table 12.13). -/
def entryWords (x : DigEntry) : List Word := w64 x.d0.toNat ++ w64 x.d1.toNat ++ [w32 x.count, x.state.setWidth 32]

/-- DIG_READ -/
def opDigRead : OpDef := {
  code := 0x41, may := anyDom, runs := dieServing
  form := fun c => if c.n 1 = 2 then decide (c.words.length = 2) else if c.n 1 ≤ 1 then decide (c.words.length = 4) else decide (1 ≤ c.words.length)
  see := digSee
  range := fun _ _ c =>
    if c.n 1 > 2 then some 1
    else if c.n 1 = 2 then firstBad [(2, decide (c.n 2 < 1024))]
    else firstBad [(2, decide (c.n 2 < 4096)), (3, decide (c.n 3 < 64))]
  act := fun _ h c =>
    if c.n 1 = 2 then
      match Tab.find h.dig.seals (c.n 2) with
      | some s => ok [s.state.setWidth 32, w32 s.count] h
      | none => ok [0, 0] h
    else match epochOf h (c.w 4) with
      | none => refuse stNotFound h 4
      | some ep => ok (entryWords (Tab.getD (tableOf (decide (c.n 1 = 1)) ep) (pairKey (c.n 2) (c.n 3)) {})) h }

/-- DIG_READ (R203). -/
def execDigRead (c : Cmd) (s : State) : Host.Outcome State Fault Refusal := s.runOp opDigRead c

/-- DIG_COMPARE -/
def opDigCompare : OpDef := {
  code := 0x42, may := fleetDom, runs := dieServing, form := fun c => decide (c.words.length = 1)
  range := fun _ _ c => if c.n 1 > 0xFFFF then some 1 else none
  act := fun e h c =>
    match h.dig.older with
    | some ep =>
      if h.dig.retire = 0 ∧ jobOfDie h (dieNo e h) = some (BitVec.ofNat 16 (c.n 1)) then ok [] (submitRound e ep h) else refuse stNotFound h 1
    | none => refuse stNotFound h 1 }

/-- DIG_COMPARE (R196). -/
def execDigCompare (c : Cmd) (s : State) : Host.Outcome State Fault Refusal := s.runOp opDigCompare c

/-- DIG_EPOCH RELEASE -/
def opDigRelease : OpDef := {
  code := 0x43, changes := true, may := fleetTenant, runs := dieServing, form := fun c => decide (c.words.length = 3), see := digSee
  act := fun e h c =>
    match h.dig.older with
    | none => refuse stNotFound h 2
    | some ep =>
      if ep.num ≠ c.w 2 then refuse stNotFound h 2
      else if c.n 3 = 0 ∨ c.n 3 > h.dig.retire then refuse stBadParam h 3
      else ok [] (retired e (onDig (fun d => { d with retire := d.retire - c.n 3 }) h)) }

/-- DIG_EPOCH RELEASE (R180). -/
def execDigEpochRelease (c : Cmd) (s : State) : Host.Outcome State Fault Refusal := s.runOp opDigRelease (withOp 1 c)

/-- DIG_EPOCH CHECKPOINT -/
def opDigCheckpoint : OpDef := {
  code := 0x43, changes := true, may := fleetTenant, runs := dieServing, form := fun c => decide (c.words.length = 2), see := digSee
  act := fun _ h c =>
    if (epochOf h (c.w 2)).isNone then refuse stNotFound h 2 else ok [] (onDig (fun d => { d with checkpoint := some (c.w 2) }) h) }

/-- DIG_EPOCH CHECKPOINT (R180). -/
def execDigEpochCheckpoint (c : Cmd) (s : State) : Host.Outcome State Fault Refusal := s.runOp opDigCheckpoint (withOp 2 c)

/-- DIGEST_CHUNK_HEADER (R173): the header beat acts by its TYPE field. -/
def execDigestChunkHeader (egress : Bool) (d : BitVec 128) (s : State) : Host.Outcome State Fault Refusal :=
  s.run (fun e h => guard (digRuns e h) (headerBeat e egress d) h)

/-- DIGEST_DATA_BEAT (R168, R169). -/
def execDigestDataBeat (egress : Bool) (cnt : Byte) (lanes : List Word) (s : State) : Host.Outcome State Fault Refusal :=
  s.run (fun e h => guard (digRuns e h) (dataBeat e egress cnt.toNat lanes) h)

/-- DIGEST_SLICE_END (R174). -/
def execDigestSliceEnd (egress : Bool) (d : BitVec 128) (s : State) : Host.Outcome State Fault Refusal :=
  s.run (fun e h => guard (digRuns e h) (headerBeat e egress d) h)

/-- DIGEST_SEAL_HEADER (R186). -/
def execDigestSealHeader (egress : Bool) (d : BitVec 128) (s : State) : Host.Outcome State Fault Refusal :=
  s.run (fun e h => guard (digRuns e h) (headerBeat e egress d) h)

/-- DIGEST_RECALL_HEADER (R187). -/
def execDigestRecallHeader (egress : Bool) (d : BitVec 128) (s : State) : Host.Outcome State Fault Refusal :=
  s.run (fun e h => guard (digRuns e h) (headerBeat e egress d) h)

/-- DIGEST_STASH_END (R186). -/
def execDigestStashEnd (egress : Bool) (d : BitVec 128) (s : State) : Host.Outcome State Fault Refusal :=
  s.run (fun e h => guard (digRuns e h) (headerBeat e egress d) h)

/-- DELIVERY_FINAL (R171): the oldest end on the pipe, 24 cycles after it left the FIFO. DG_SV is high for one result. -/
def execDeliveryFinal (egress : Bool) (s : State) : Host.Outcome State Fault Refusal :=
  s.run (fun e h =>
    match (pipe h egress).finals with
    | [] => h
    | (due, f) :: t => guard (digRuns e h && decide (due ≤ nowNs h)) (fun h =>
        let h := onDig (fun d => { d with sv := false }) (onPipe egress (fun q => { q with finals := t }) h)
        match f with
        | .slice d v => sliceFinal e egress d v h
        | .recall sid r x ok checked => recallFinal e egress sid r x ok checked h) h)

/-- RETIRE_OVERDUE (R182): one record and the die's feature; the epoch is not retired. -/
def execRetireOverdue (s : State) : Host.Outcome State Fault Refusal :=
  s.run (fun e h =>
    match h.dig.older with
    | none => h
    | some ep => guard (digRuns e h && decide (h.dig.retire > 0) && !h.dig.overdue && decide (nowNs h > h.dig.heldSince + h.dig.cfg.retireLimit)) (fun h =>
        let h := digRecord 9 1 (dieEnt e h) false 0 0 ep.num 0 false [h.dig.retire] [] [] (onDig (fun d => { d with overdue := true }) h)
        featWrite e (dieEnt e h) (imgOf h).features.overdue (int32f 1) h) h)

/-- A shadow's halves of a round that stays uncompared count for nothing (R337). -/
def dropHalves (ep : Word) (h : Hub) : Hub :=
  { h with casc := { h.casc with shadows := h.casc.shadows.map (fun s => { s with halves := s.halves.filter (fun x => decide (x.1 ≠ ep)) }) } }

/-- COMPARE_TIMEOUT (R197): recorded as uncompared, and the buffer freed. -/
def execCompareTimeout (buf : Bool) (s : State) : Host.Outcome State Fault Refusal :=
  s.run (fun e h =>
    match (if buf then h.dig.buf1 else h.dig.buf0) with
    | none => h
    | some b => guard (digRuns e h && decide (b.deadline ≤ nowNs h) && !e.beaten evResult b.deadline (nowNs h)) (fun h =>
        let h := onDig (fun d => if buf then { d with buf1 := none } else { d with buf0 := none }) h
        dropHalves b.epoch (uncompared e b.epoch (dropRound 0 b.group b.seq.toNat h))) h)

/-- Value bits of the elements in a frozen region's bytes. -/
def regionElems (fmt : Nat) (b : List Byte) : List Nat :=
  if fmt ≤ 5 then Config.mxElements fmt b
  else
    let n := if wideFmt fmt then 4 else 2
    (List.range (b.length / n)).map (fun i => leAt b (n * i) n)

/-- FROZEN_SCRUB_PASS (R191): a region's copy against the frozen reference. -/
def execFrozenScrubPass (idx : Byte) (s : State) : Host.Outcome State Fault Refusal :=
  s.run (fun e h =>
    match h.dig.cfg.frozen[idx.toNat]? with
    | none => h
    | some r => guard (digRuns e h && decide (h.dig.cfg.scrubRate ≠ 0)) (fun h =>
        match Tab.find h.dig.frozenRef (pairKey r.layer r.slice), readMem e h r.addr r.len with
        | none, _ => onDig (fun d => { d with scrubUnchecked := d.scrubUnchecked + 1 }) h
        | _, none => onDig (fun d => { d with scrubFail := d.scrubFail + 1 }) h
        | some ref, some b =>
          let k := laneKeys h (frozenKeys h)
          let es := regionElems r.fmt.toNat b
          let v := digList k.1 k.2.1 r.base es (0, 0)
          if v.1 = ref.d0 ∧ v.2 = ref.d1 then h
          else
            let h := digRecord 1 2 (dieEnt e h) false r.layer r.slice 0xFFFFFFFF 2 k.2.2 [es.length, ref.count]
              [v.1.toNat, v.2.toNat, ref.d0.toNat, ref.d1.toNat] [w32 idx.toNat] (onDig (fun d => { d with odd := d.odd + 1 }) h)
            setFloor (dieEnt e h) 2 (nowNs h) (digOutcome e 1 [dieEnt e h] h)) h)

end Sys2Proof.Machine
end

