-- ==== Sys2Proof/Machine/EnsOps.lean ====
section
/-!
DEFINITION. Ensembles: relations and features, traversal, raw scores and outputs, images and their checks, slots and swaps, passes
(R244–R283).
-/
namespace Sys2Proof.Machine

/-- Change the ensemble engine. -/
def onEns (f : EnsU → EnsU) (h : Hub) : Hub := { h with ens := f h.ens }
/-- An ensemble slot. -/
def slotAt (h : Hub) (i : Nat) : Slot := getAt h.ens.slots i {}
/-- Change an ensemble slot. -/
def onSlot (i : Nat) (f : Slot → Slot) (h : Hub) : Hub := onEns (fun x => { x with slots := setAt x.slots i (f (slotAt h i)) }) h

/-- The engine runs (Table 1.10). -/
def ensRuns (_ : Env) (h : Hub) : Bool := working h

/-! Relations (Tables 7.5, 7.13). -/

/-- The die that an entity of relation 3 lies in: kinds 0–3 and 6, and kinds 7, 8, 11 of a die. -/
def entDie (x : Word) : Option Nat :=
  let k := kindOf x
  if k ≤ 3 ∨ k = 6 then some (dieOf x)
  else if (k = 7 ∨ k = 8 ∨ k = 11) ∧ !bitOf x.toNat 10 then some (dieOf x)
  else none

/-- The engine of an entity. -/
def entEngine (x : Word) : Option Nat := if kindOf x = 4 then some (bitsOf x.toNat 10 0) else (entDie x).map (· / 64)

/-- The tray of an entity. -/
def entTray (x : Word) : Option Nat :=
  let k := kindOf x
  if k = 5 then some (bitsOf x.toNat 9 0)
  else if (k = 7 ∨ k = 8 ∨ k = 11) ∧ bitOf x.toNat 10 then some (dieOf x)
  else (entEngine x).map (· / 2)

/-- The job of an entity (relation 14). -/
def entJob (h : Hub) (x : Word) : Option Nat :=
  let k := kindOf x
  if k = 10 then some (bitsOf x.toNat 15 0)
  else if k = 9 then some (bitsOf x.toNat 23 8)
  else (entDie x).bind (fun d => (jobOfDie h d).map BitVec.toNat)

/-- The replica of an entity (relation 15). -/
def entReplica (h : Hub) (x : Word) : Option Word :=
  if kindOf x = 9 then some x
  else (entDie x).bind (fun d => (jobOfDie h d).bind (fun j =>
    ((jobDies h j).find? (fun y => decide (y.die = d))).map (fun y => entId 9 (j.toNat * 256 + y.rep.toNat))))

/-- The entity that a relation names (Table 7.13). -/
def relEnt (h : Hub) (x : Word) (r : Nat) : Option Word :=
  let k := kindOf x
  let lo := bitsOf x.toNat 10 0
  let inDie := fun kind low => entId kind (dieOf x * 2048 + low)
  match r with
  | 0 => some x
  | 1 => if k = 0 then some (inDie 1 (lo / 32)) else if k = 1 then some x else none
  | 2 => if k = 0 then some (inDie 2 (lo / 256)) else if k = 1 then some (inDie 2 (lo / 8)) else if k = 2 then some x else none
  | 3 => (entDie x).map (fun d => entId 3 (d * 2048))
  | 4 => (entEngine x).map (entId 4)
  | 5 => (entTray x).map (entId 5)
  | 14 => (entJob h x).map (entId 10)
  | 15 => entReplica h x
  | _ =>
    if r ≤ 13 then (entDie x).map (fun d => entId 6 (d * 2048 + (r - 6)))
    else
      let w := featRead h x (240 + (r - 16))
      if w = 0xFFFFFFFF then none else some w

/-- A feature as a sample of an entity reads it (R260, R261). -/
def feature (h : Hub) (x : Word) (n : Nat) : Word :=
  match relEnt h x (n / 256) with
  | some y => featRead h y (n % 256)
  | none => missing

/-! Traversal (R249–R252). -/

/-- The value as a category (R250). -/
def category (x : Flt) : Option Nat :=
  match x with
  | .fin s m e =>
    if m = 0 then some 0
    else if s then none
    else
      let v := if e ≥ 0 then some (m * 2 ^ e.toNat) else if m % 2 ^ (-e).toNat = 0 then some (m / 2 ^ (-e).toNat) else none
      v.bind (fun n => if n ≤ 63 then some n else none)
  | _ => none

/-- What a traversal gives: the leaf's output and value, unless it faulted; whether an uncorrectable word was read; visits made,
and visits that took the default direction; the words read (level and index, level 16 for a category set) and the features read. -/
structure Walk where
  leaf   : Option (Nat × BitVec 64)
  uncorr : Bool := false
  visits : Nat
  missed : Nat
  reads  : List (Nat × Nat) := []
  feats  : List Nat := []

/-- A traversal from node `i` of level `d`, with the features given. -/
def walk (g : Gen) (feat : Nat → Word) : Nat → Nat → Nat → Walk
  | 0, _, _ => { leaf := none, visits := 0, missed := 0 }
  | f + 1, d, i =>
    let w := (getAt (getAt g.nodes d []) i 0xC000000000000000).toNat
    if g.bad.contains (d, i) then { leaf := none, uncorr := true, visits := 1, missed := 0, reads := [(d, i)] }
    else
      let ty := bitsOf w 63 62
      let go := fun (left dflt : Bool) (set : List (Nat × Nat)) =>
        let r := walk g feat f (d + 1) (bitsOf w 15 0 + (if left then 0 else 1))
        { r with
          visits := r.visits + 1, missed := r.missed + b2n dflt, reads := (d, i) :: set ++ r.reads, feats := bitsOf w 60 48 :: r.feats }
      let x := dec32 (feat (bitsOf w 60 48))
      let dir := !bitOf w 61
      if ty = 0 then
        (if x.isNan then go dir true [] else go (x.lt (f32.decode (bitsOf w 47 16))) false [])
      else if ty = 1 then
        let si := bitsOf w 31 16
        match category x with
        | none => go dir true []
        | some c =>
          if g.bad.contains (16, si) then
            { leaf := none, uncorr := true, visits := 1, missed := 0, reads := [(d, i), (16, si)], feats := [bitsOf w 60 48] }
          else go ((getAt g.sets si 0).getLsbD c) false [(16, si)]
      else if ty = 2 then
        { leaf := some (bitsOf w 51 48, (BitVec.ofNat 32 (bitsOf w 47 16)).signExtend 64), visits := 1, missed := 0, reads := [(d, i)] }
      else { leaf := none, visits := 1, missed := 0, reads := [(d, i)] }

/-- The traversals of a sample, in tree order. -/
def walks (g : Gen) (feat : Nat → Word) : List Walk := (List.range g.trees).map (fun i => walk g feat 16 0 i)

/-- The raw score of output `o` (R256, R259). -/
def rawScore (g : Gen) (ws : List Walk) (o : Nat) : BitVec 64 :=
  let b : BitVec 64 := if g.shard && decide (g.treeBase ≠ 0) then 0 else (getAt g.outs o { bias := 0, xform := 0, a := 0, b := 0 }).bias
  ws.foldl (fun s w => match w.leaf with
    | some (q, v) => if q = o then s + v else s
    | none => s) b

/-- The output that a raw score gives (R258, Table 7.3). -/
def postTransform (g : Gen) (o : EnsOut) (s : BitVec 64) : Word :=
  let v := Flt.ofInt s.toInt (-(g.scale : Int))
  match o.xform.toNat with
  | 0 => enc32 v
  | 1 => enc32 (((dec32 o.a).mul v).add (dec32 o.b))
  | 2 => getAt g.table (min 1024 (512 + roundInt (s.toInt * 64) (2 ^ g.scale)).toNat) 0
  | _ => 0

/-- Fill in a result from the traversals (R252, R258, R259). -/
def formResult (g : Gen) (slot tb : Nat) (x : Word) (stopped : Bool) (ws : List Walk) : Result :=
  let fault := ws.any (fun w => w.leaf.isNone)
  let s := (List.range g.outs.length).map (rawScore g ws)
  { tb := tb, entity := x, gen := g.num, slot := slot, fault := fault, damaged := g.damaged, shard := g.shard, stopped := stopped
    missing := (ws.map Walk.missed).sum, visits := (ws.map Walk.visits).sum, s := s
    y := (g.outs.zip s).map (fun p => if fault then 0x7FC00000 else if g.shard then 0 else postTransform g p.1 p.2) }

/-- The words of a result record in a reply (Table 7.9). -/
def Result.words (r : Result) : List Word :=
  w64 r.tb ++ [r.entity, r.gen, w32 (r.slot * 2 ^ 28 + r.s.length * 2 ^ 23 + b2n r.fault * 2 ^ 22 + b2n r.damaged * 2 ^ 21 +
      b2n r.shard * 2 ^ 20 + b2n r.stopped * 2 ^ 19), w32 r.missing] ++ w64 r.visits ++
    (r.s.zip r.y).flatMap (fun p => w64 p.1.toNat ++ [p.2, 0])

/-- The bytes of a result record in memory, little-endian. The 128-bit output entry is one little-endian field group: S in the
upper eight bytes, then Y. -/
def Result.mem (r : Result) : List Byte :=
  leBytes 8 r.tb ++ leBytes 4 r.entity.toNat ++ leBytes 4 r.gen.toNat ++
    leBytes 4 (r.slot * 2 ^ 28 + r.s.length * 2 ^ 23 + b2n r.fault * 2 ^ 22 + b2n r.damaged * 2 ^ 21 + b2n r.shard * 2 ^ 20 + b2n r.stopped * 2 ^ 19) ++
    leBytes 4 r.missing ++ leBytes 8 r.visits ++
    (r.s.zip r.y).flatMap (fun p => leBytes 16 (p.1.toNat * 2 ^ 64 + p.2.toNat * 2 ^ 32))

/-! Images (Tables 7.6–7.8). -/

/-- The next multiple of 8. -/
def up8 (n : Nat) : Nat := (n + 7) / 8 * 8

/-- Sections of an image: output table, transform table (0 bytes when no output uses it), levels, sets, with begin and size. -/
def imageSections (b : List Byte) : List (Nat × Nat) :=
  let w := fun o => leAt b o 4
  let outs := bitsOf (w 0x14) 20 16
  let tab := (List.range outs).any (fun o => w (128 + 32 * o + 8) % 4 = 2)
  let sizes := [32 * outs, if tab then 4100 else 0] ++ (List.range 16).map (fun d => 8 * w (0x24 + 4 * d)) ++ [8 * w 0x64]
  (sizes.foldl (fun (a : List (Nat × Nat) × Nat) n => (a.1 ++ [(up8 a.2, n)], up8 a.2 + n)) ([], 128)).1

/-- Are these bytes all zero? -/
def zeros (b : List Byte) (o n : Nat) : Bool := ((b.drop o).take n).all (fun x => x == 0)

/-- The gaps between sections, and after the header, are zero. -/
def gapsZero (b : List Byte) (secs : List (Nat × Nat)) : Bool :=
  (secs.foldl (fun (a : Bool × Nat) s => (a.1 && zeros b a.2 (s.1 - a.2), s.1 + s.2)) (true, 128)).1

/-- A section's bytes. -/
def secBytes (b : List Byte) (s : Nat × Nat) : List Byte := (b.drop s.1).take s.2

/-- Eight-byte words of bytes. -/
def dwords (b : List Byte) : List DWord := (List.range (b.length / 8)).map (fun i => BitVec.ofNat 64 (leAt b (8 * i) 8))

/-- Reserved fields of a node word are zero (Table 7.1). -/
def nodeRsvd (w : Nat) : Bool :=
  match bitsOf w 63 62 with
  | 0 => true
  | 1 => decide (bitsOf w 47 32 = 0)
  | 2 => decide (bitsOf w 61 52 = 0) && decide (bitsOf w 15 0 = 0)
  | _ => decide (w % 2 ^ 62 = 0)

/-- Does the node split? -/
def isSplit (w : Nat) : Bool := decide (bitsOf w 63 62 ≤ 1)

/-- Pages of each level region and of the set region (R247). -/
def regionPages (nodes : List (List DWord)) (sets : List DWord) : List Nat := (nodes.map List.length ++ [sets.length]).map (fun n => (n + 8191) / 8192)

/-- The generation that an image spells, without checks. -/
def imageGen (b : List Byte) : Gen :=
  let w := fun o => leAt b o 4
  let secs := imageSections b
  let sec := fun i => secBytes b (getAt secs i (0, 0))
  let o := bitsOf (w 0x14) 20 16
  let outs : List EnsOut := (List.range o).map (fun i =>
    { bias := BitVec.ofNat 64 (leAt (sec 0) (32 * i) 8), xform := BitVec.ofNat 2 (leAt (sec 0) (32 * i + 8) 4)
      a := BitVec.ofNat 32 (leAt (sec 0) (32 * i + 12) 4), b := BitVec.ofNat 32 (leAt (sec 0) (32 * i + 16) 4) })
  let nodes := (List.range 16).map (fun d => dwords (sec (2 + d)))
  let sets := dwords (sec 18)
  { num := BitVec.ofNat 32 (w 0x10), kind := BitVec.ofNat 4 (bitsOf (w 0x14) 31 28), tenant := bitOf (w 0x14) 27, shard := bitOf (w 0x14) 26
    levels := bitsOf (w 0x14) 25 21, trees := w 0x14 % 65536, total := bitsOf (w 0x1C) 31 16, treeBase := w 0x1C % 65536
    relmask := BitVec.ofNat 32 (w 0x18), scale := w 0x20 % 256, outs := outs
    table := (List.range ((sec 1).length / 4)).map (fun i => BitVec.ofNat 32 (leAt (sec 1) (4 * i) 4))
    nodes := nodes, sets := sets, pages := (regionPages nodes sets).sum }

/-- The image's CRC with its field zero. -/
def imageCrc (b : List Byte) : Nat := (crc32c (b.take 12 ++ [0, 0, 0, 0] ++ b.drop 16)).toNat

/-- Third check of Table 7.8: reserved fields, gaps, ranges. -/
def imageRanges (b : List Byte) (g : Gen) : Bool :=
  let w := fun o => leAt b o 4
  let n := fun d => w (0x24 + 4 * d)
  let secs := imageSections b
  zeros b 6 2 && zeros b 0x21 3 && zeros b 0x68 0x18 && gapsZero b secs &&
  g.outs.zipIdx.all (fun o => decide (leAt b (128 + 32 * o.2 + 8) 4 < 4) && zeros b (128 + 32 * o.2 + 0x14) 12) &&
  g.nodes.all (fun l => l.all (fun x => nodeRsvd x.toNat)) &&
  decide (g.kind.toNat ≤ 3) && decide (g.trees ≤ 8192) && decide (1 ≤ g.outs.length) && decide (g.outs.length ≤ 16) &&
  decide (1 ≤ g.levels) && decide (g.levels ≤ 16) && decide (g.scale ≤ 31) && (List.range 16).all (fun d => decide (n d ≤ 65536)) &&
  decide (w 0x64 ≤ 65536) && decide (n 0 ≥ g.trees) && (List.range 16).all (fun d => decide (d < g.levels) || decide (n d = 0))

/-- Fifth check: biases, factors and table entries. -/
def imageOutputs (g : Gen) : Bool :=
  g.outs.all (fun o => decide (o.bias.toInt.natAbs ≤ 2 ^ 62) && (o.xform != 1 || ((dec32 o.a).isFin && (dec32 o.b).isFin))) &&
  g.table.all (fun x => (dec32 x).isFin)

/-- Sixth and seventh checks: thresholds, outputs, sets, roots, children. -/
def imageNodes (g : Gen) : Bool :=
  g.nodes.zipIdx.all (fun l => l.1.all (fun x =>
    let w := x.toNat
    match bitsOf w 63 62 with
    | 0 => !(f32.decode (bitsOf w 47 16)).isNan
    | 1 => decide (bitsOf w 31 16 < g.sets.length)
    | 2 => decide (bitsOf w 51 48 < g.outs.length)
    | _ => true))

/-- Seventh check. -/
def imageShape (g : Gen) : Bool :=
  ((getAt g.nodes 0 []).take g.trees).all (fun x => decide (bitsOf x.toNat 63 62 ≠ 3)) &&
  g.nodes.zipIdx.all (fun l => l.1.all (fun x =>
    !isSplit x.toNat || (decide (l.2 + 1 < g.levels) &&
      (let next := getAt g.nodes (l.2 + 1) []
       let c := bitsOf x.toNat 15 0
       decide (c + 1 < next.length) && decide (bitsOf (getAt next c 0xC000000000000000).toNat 63 62 ≠ 3) &&
        decide (bitsOf (getAt next (c + 1) 0xC000000000000000).toNat 63 62 ≠ 3)))))

/-- Eighth check: relations. -/
def imageRelations (g : Gen) : Bool :=
  g.nodes.all (fun l => l.all (fun x => !isSplit x.toNat || g.relmask.getLsbD (bitsOf x.toNat 60 56))) &&
  (!g.tenant || g.nodes.all (fun l => l.all (fun x => !isSplit x.toNat || decide (bitsOf x.toNat 60 56 = 0))))

/-- Pages that a list of generations holds. -/
def genPages (l : List (Option Gen)) : Nat := (l.map (fun g => (g.map Gen.pages).getD 0)).sum
/-- Pages of a slot, its STAGED generation apart. -/
def slotPages (s : Slot) : Nat := genPages [s.active, s.previous]
/-- Pages that loads past their first read hold, of the slots that a test picks (R271). -/
def loadPages (h : Hub) (f : Nat → Bool) : Nat := genPages ((h.ens.loads.filter (fun l => f l.slot)).map Load.gen)
/-- Pages in use, the STAGED generation of one slot counted as free (R272). -/
def pagesUsed (h : Hub) (slot : Option Nat) : Nat :=
  ((h.ens.slots.zipIdx).map (fun s => slotPages s.1 + (if some s.2 = slot then 0 else genPages [s.1.staged]))).sum + loadPages h (fun _ => true)
/-- The same over the slots of a job. -/
def jobPages (h : Hub) (j : BitVec 16) (slot : Nat) : Nat :=
  ((h.ens.slots.zipIdx).map (fun s => if s.1.job = some j then slotPages s.1 + (if s.2 = slot then 0 else genPages [s.1.staged]) else 0)).sum +
    loadPages h (fun i => decide ((slotAt h i).job = some j))
/-- The pages that no generation and no load holds (R247). -/
def freePages (h : Hub) : List Nat :=
  let used := (h.ens.slots.flatMap (fun s => [s.active, s.previous, s.staged]) ++ h.ens.loads.map Load.gen).flatMap
    (fun g => ((g.map Gen.regions).getD []).flatten)
  (List.range 384).filter (fun i => !used.contains i)
/-- Deal pages to regions in order. -/
def dealPages (free : List Nat) : List Nat → List (List Nat)
  | [] => []
  | n :: t => free.take n :: dealPages (free.drop n) t
/-- A generation with pages of node memory: the free pages of the lowest numbers, region after region (R247). Which free page a region gets is
DESIGN CHOICE (log 95). -/
def withPages (h : Hub) (g : Gen) : Gen := { g with regions := dealPages (freePages h) (regionPages g.nodes g.sets) }
/-- The page that holds a word of a region (R247). -/
def pageOf (g : Gen) (w : Nat × Nat) : Option Nat := (getAt g.regions w.1 [])[w.2 / 8192]?
/-- Pages granted to a job. -/
def quotaOf (h : Hub) (j : BitVec 16) : Option Quota := h.ens.quotas.find? (fun q => decide (q.job = j))

/-- The checks of Table 7.8 in order: the status of the first that fails, or OK. `j` is the job of a TENANT sender. -/
def imageCheck (h : Hub) (slot : Nat) (len : Nat) (j : Option (BitVec 16)) (b : List Byte) : Nat :=
  let w := fun o => leAt b o 4
  let s := slotAt h slot
  let g := imageGen b
  let last := getAt (imageSections b) 18 (0, 0)
  if w 0 ≠ 0x53564531 ∨ w 4 % 65536 ≠ 1 ∨ w 8 ≠ len ∨ last.1 + last.2 ≠ len then stBadParam
  else if imageCrc b ≠ w 12 then stCrcFail
  else if !imageRanges b g then stBadParam
  else if (g.shard && !(decide (g.treeBase + g.trees ≤ g.total) && decide (g.total ≤ 8192))) ||
      (!g.shard && !(decide (g.total = g.trees) && decide (g.treeBase = 0))) then stBadParam
  else if !imageOutputs g then stBadParam
  else if !imageNodes g then stBadParam
  else if !imageShape g then stBadParam
  else if !imageRelations g then stBadParam
  else if g.num = 0 ∨ s.active.any (fun a => decide (a.num = g.num)) ∨ s.previous.any (fun a => decide (a.num = g.num)) then stBadParam
  else if pagesUsed h (some slot) + g.pages > 384 then stNoSpace
  else if g.tenant && (match s.job with
      | some q => decide (jobPages h q slot + g.pages > ((quotaOf h q).map Quota.pages).getD 0)
      | none => false) then stNoSpace
  else if (g.tenant && s.job.isNone) || (!g.tenant && j.isSome) || (j.isSome && decide (s.job ≠ j)) then stNotPermitted
  else stOk

/-! Swaps (R273–R276). -/

/-- A CONFIG-free record of a slot's generations: slot and generation. -/
def slotRecord (n slot : Nat) (gen : Word) (e : Env) (h : Hub) : Hub := emitUnit n (unitId e h 24) 24 [w32 slot, gen] h

/-- An act is done (Table 15.2 type 5): 0 DONE, 1 SUPERSEDED, 2 REFUSED, 3 LAPSED. Acts taken are counted (Table 17.4). -/
def actDone (x : Word) (act : Word) (result : Nat) (h : Hub) : Hub :=
  emit 5 0 0 x 0 result [act, w32 result] { h with casc := { h.casc with acts := h.casc.acts + b2n (decide (result = 0)) } }

/-- The autonomous act behind a swap ends with a result, if there is one. -/
def swapDone (e : Env) (w : Option Swap) (result : Nat) (h : Hub) : Hub :=
  match w.bind Swap.act with
  | some a => actDone (unitId e h 24) a result h
  | none => h

/-- The generation that a swap makes ACTIVE, unless it is gone or was found damaged since (R248, R273, R274). -/
def swapGen (s : Slot) (w : Swap) : Option Gen := (if w.rollback then s.previous else s.staged).filter (fun g => !g.damaged)

/-- A pending swap takes effect (R273, R274). A damaged generation is not made ACTIVE (R248): the swap ends without effect, recorded as
refused (DEDUCED, log 96). -/
def doSwap (e : Env) (i : Nat) (w : Swap) (h : Hub) : Hub :=
  let s := slotAt h i
  let h := swapDone e (some w) (if (swapGen s w).isNone then 2 else 0) h
  if (swapGen s w).isNone then slotRecord 43 i (((if w.rollback then s.previous else s.staged).map Gen.num).getD 0) e (onSlot i (fun s => { s with swap := none }) h)
  else if w.rollback then
    match s.previous with
    | none => h
    | some p =>
      let h := slotRecord 41 i p.num e h
      onSlot i (fun s => { s with
        active := some p, previous := none, staged := if s.staged.isNone then s.active else s.staged, swap := none }) h
  else
    match s.staged with
    | none => h
    | some g =>
      let h := slotRecord 40 i g.num e h
      onSlot i (fun s => { s with active := some g, previous := s.active, staged := none, swap := none, suspect := false }) h

/-- A window number of 32 bits has already ended: it lies below the current one. -/
def windowEnded (h : Hub) (w : Word) : Bool :=
  let d := ahead 32 h.casc.window w.toNat
  decide (1 ≤ d) && decide (d ≤ 2 ^ 31 - 1)

/-- Swaps due at a scoring boundary (R273, R276): those without a window at the boundaries of the block's own scorings, and those
whose window has ended at a window's end. -/
def doSwaps (e : Env) (plain atWindow : Bool) (h : Hub) : Hub :=
  (List.range 16).foldl (fun h i =>
    match (slotAt h i).swap with
    | some w =>
      let due := match w.window with
        | none => plain
        | some n => atWindow && windowEnded h n
      if due then doSwap e i w h else h
    | none => h) h

/-! Passes (R263–R270). -/

/-- Priority of a pass: frond, rhizome, FLEET ENS_RUN, TENANT ENS_RUN (R269). -/
def PassUse.prio : PassUse → Nat
  | .full => 0
  | .quick => 0
  | .screen => 1
  | .confirm => 1
  | .run _ _ none => 2
  | .run _ _ (some _) => 3

/-- The key of a job's tenant row. -/
def tenantKey (j : BitVec 16) (row : Nat) : Nat := j.toNat * 65536 + row

/-- The rows that a sample of an entity needs: those of the relations in RELMASK that resolve to an entity (R265). -/
def sampleRows (h : Hub) (g : Gen) (x : Word) : List Word :=
  (((List.range 32).filter (fun r => g.relmask.getLsbD r)).filterMap (relEnt h x)).dedup

/-- The wait of a pass's sample for its rows. -/
def sampleWait (h : Hub) (seq x : Nat) : Option SampleWait := h.ens.waits.find? (fun w => decide (w.pass = seq) && decide (w.ent = x))
/-- The waits without that of a sample. -/
def otherWaits (h : Hub) (seq x : Nat) : List SampleWait := h.ens.waits.filter (fun w => !(decide (w.pass = seq) && decide (w.ent = x)))

/-- Pin the rows of a sample that are not pinned for it yet, and fill those that are not cached (R265). -/
def pinRows (e : Env) (p : Pass) (x : Word) (w : SampleWait) (h : Hub) : Hub :=
  let r := (sampleRows h p.gen x).foldl (fun (a : Hub × List Nat) y =>
    if a.2.contains y.toNat then a
    else
      let h := if (rowOf a.1 y).isNone || (rowOf a.1 y).any (fun r => r.st == .evicting && !r.refill) then startFill e y a.1 else a.1
      match rowOf h y with
      | some r => (putRow y { r with pins := r.pins + 1, used := nowNs h } h, a.2 ++ [y.toNat])
      | none => (h, a.2)) (h, w.pins)
  onEns (fun s => { s with waits := otherWaits r.1 p.seq x.toNat ++ [{ w with pins := r.2 }] }) r.1

/-- Change a pass. -/
def onPass (i : Nat) (f : Pass → Pass) (h : Hub) : Hub :=
  onEns (fun s => match s.passes[i]? with
    | some p => { s with passes := setAt s.passes i (f p) }
    | none => s) h

/-- A sample refused: no row, or not assembled in time (R263, R265). -/
def refuseSample (i : Nat) (x : Word) (h : Hub) : Hub :=
  onPass i (fun p => { p with todo := p.todo.erase x, refused := p.refused + 1 })
    (onEns (fun s => { s with refusedPass := s.refusedPass + 1 }) h)

/-- Unpin the rows of a sample; a row that has become free to leave makes room for those that wait (R265, R266). -/
def unpin (e : Env) (seq : Nat) (x : Word) (h : Hub) : Hub :=
  match sampleWait h seq x.toNat with
  | none => h
  | some w =>
    let h := w.pins.foldl (fun h k => match Tab.find h.ens.rows k with
      | some r => onEns (fun s => { s with rows := Tab.put s.rows k { r with pins := r.pins - 1 } }) h
      | none => h) h
    retryRoom e (onEns (fun s => { s with waits := otherWaits h seq x.toNat }) h)

/-- A sample that waited for rows is refused, and its rows are unpinned (R265, Table 14.5). -/
def dropSample (e : Env) (w : SampleWait) (h : Hub) : Hub :=
  unpin e w.pass (BitVec.ofNat 32 w.ent) (refuseSample (h.ens.passes.findIdx (fun p => decide (p.seq = w.pass))) (BitVec.ofNat 32 w.ent) h)

/-- Pin and fill the rows of a sample; one of whose rows the backing store can hold no more is refused (R285). -/
def gatherRows (e : Env) (p : Pass) (x : Word) (w : SampleWait) (h : Hub) : Hub :=
  let h := pinRows e p x w h
  if (sampleRows h p.gen x).all (fun y => (rowOf h y).isSome || h.ens.roomq.any (fun q => decide (q.1 = y.toNat))) then h
  else match sampleWait h p.seq x.toNat with
    | some w => dropSample e w h
    | none => h

/-- Try to assemble a sample in tray role: pin and fill its rows (R265). At most 4,096 samples are in flight (R285). -/
def assemble (e : Env) (p : Pass) (x : Word) (h : Hub) : Hub :=
  match sampleWait h p.seq x.toNat with
  | some w => gatherRows e p x w h
  | none =>
    if h.ens.waits.length ≥ 4096 then h else gatherRows e p x { pass := p.seq, ent := x.toNat, deadline := nowNs h + h.ens.assembly } h

/-- All rows of a sample are VALID. -/
def assembled (h : Hub) (g : Gen) (x : Word) : Bool := (sampleRows h g x).all (fun y => (rowOf h y).any (fun r => r.st == .valid))

/-- Is the pass a tenant's? Its list then holds tenant rows. -/
def PassUse.tenantJob : PassUse → Option (BitVec 16)
  | .run _ _ j => j
  | _ => none

/-! Bank conflicts (R254, R281). -/

/-- Visits and lost arbitrations of the pages or banks of a pass: how many are lost is free, but no visit loses more than 20 times (R254,
log 1). -/
def conflicts (visits : Tab Nat) (lost : Nat → Nat) : Tab (Nat × Nat) := visits.map (fun p => (p.1, p.2, min (20 * p.2) (lost p.1)))

/-- The 8 pages of the highest loss rates, worst first. -/
def worstPages (l : Tab (Nat × Nat)) : Tab (Nat × Nat) := (sortBy (fun a b => decide (b.2.2 * a.2.1 < a.2.2 * b.2.1)) l).take 8

/-- The counts of a pass at the pages and feature banks (R254, R281). A page whose losses exceed 5% of its visits in 16 passes in a row calls
for a re-layout request, at most one for each slot and generation per hour; a further one is counted (R285). -/
def passLosses (e : Env) (p : Pass) (h : Hub) : Hub :=
  let ps := conflicts p.pageVisits (Config.pageLosses p.seq)
  let bs := conflicts p.bankVisits (Config.bankLosses p.seq)
  let lost := (bs.map (fun x => x.2.2)).sum
  let h := onEns (fun s => { s with
    pageCount := ps, bankCount := bs, page := s.page + (ps.map (fun x => x.2.2)).sum, bank := s.bank + lost }) h
  let s := slotAt h p.slot
  let run := if s.hotGen = p.gen.num then s.hot else []
  let hot := (ps.filter (fun x => decide (20 * x.2.2 > x.2.1))).map (fun x => (x.1, Tab.getD run x.1 0 + 1))
  let sent := s.lastLayout.filter (fun x => decide (nowNs h < x.2 + 3600000000000))
  let h := onSlot p.slot (fun s => { s with hot := hot, hotGen := p.gen.num, lastLayout := sent }) h
  if !hot.any (fun x => decide (x.2 ≥ 16)) then h
  else if sent.any (fun x => decide (x.1 = p.gen.num)) then onEns (fun s => { s with relayouts := s.relayouts + 1 }) h
  else
    let u := unitId e h 24
    let ws := (worstPages ps).flatMap (fun x => [x.1, x.2.1, x.2.2])
    let h := emit 15 0 0 u 24 2 ([w32 p.slot, p.gen.num, w32 lost] ++ ws.map w32) h
    let h := report 2 .relayout u (p.slot :: p.gen.num.toNat :: ws) h
    onSlot p.slot (fun s => { s with lastLayout := sent ++ [(p.gen.num, nowNs h)] }) h

/-! Requesting and running passes. -/

/-- A pass ends (R269, R281). -/
def passDone (e : Env) (p : Pass) (h : Hub) : Hub :=
  passLosses e p (onEns (fun s => { s with passes := s.passes.filter (fun q => decide (q.seq ≠ p.seq)), done := s.done + 1 }) h)

/-- A pass that was still running at a scoring boundary is counted and recorded with the excess time (R270). -/
def overrunAt (e : Env) (p : Pass) (lim : Nat) (h : Hub) : Hub :=
  if lim < nowNs h then
    emitUnit 55 (unitId e h 24) 24 (w32 p.slot :: w64 (nowNs h - lim)) (onEns (fun s => { s with overrun := s.overrun + 1 }) h)
  else h

/-- Request a pass (R269, R270): the pass taken, or complete at once because its list is empty, or why not. -/
inductive Asked where
  | taken (h : Hub) | empty (p : Pass) (h : Hub) | noGen | full

/-- Request a pass over a list of entities or tenant rows. -/
def askPass (e : Env) (slot : Nat) (use : PassUse) (todo : List Word) (tb : Nat) (h : Hub) : Asked :=
  match (slotAt h slot).active with
  | none => .noGen
  | some g =>
    let p : Pass := { slot := slot, use := use, todo := todo, gen := g, tb := tb, period := h.casc.p, seq := h.ens.passNo }
    let no := onEns (fun s => { s with passNo := s.passNo + 1 })
    if todo.isEmpty then .empty p (passDone e p (no h))
    else if h.ens.passes.length ≥ 8 then .full
    else
      let h := onEns (fun s => { s with passes := s.passes ++ [p] }) (no h)
      .taken (if e.tray && use.tenantJob.isNone then todo.foldl (fun h x => assemble e p x h) h else h)

/-- Request a frond or rhizome pass: one that cannot be taken is counted as skipped; `fin` takes one that is complete at once. -/
def cascPass (e : Env) (slot : Option Nat) (use : PassUse) (todo : List Word) (tb : Nat) (fin : Pass → Hub → Hub) (h : Hub) : Hub :=
  let skip := onEns (fun s => { s with skipped := s.skipped + 1 }) h
  match slot with
  | none => skip
  | some i => match askPass e i use todo tb h with
    | .taken h => h
    | .empty p h => fin p h
    | _ => skip

/-- The pending passes in the order in which their samples are issued, with their positions: by priority, then as requested (R269). -/
def passOrder (h : Hub) : List (Pass × Nat) :=
  (List.range 4).flatMap (fun k => (h.ens.passes.zipIdx).filter (fun p => decide (p.1.use.prio = k)))

/-- The sample of a pass that can be issued: in tray role one whose rows are pinned and VALID (R265); a tenant's only while its job's quota grants
an array, unless the ensemble has no trees (R257, R277). -/
def passSample (e : Env) (h : Hub) (p : Pass) : Option Word :=
  match p.use.tenantJob with
  | some j => if ((quotaOf h j).map Quota.arrays).getD 0 = 0 ∧ p.gen.trees ≠ 0 then none else p.todo.head?
  | none => if e.tray then p.todo.find? (fun x => (sampleWait h p.seq x.toNat).isSome && assembled h p.gen x) else p.todo.head?

/-- The sample issued next: its pass, the pass's position, and its entity or tenant row. -/
def nextSample (e : Env) (h : Hub) : Option (Pass × Nat × Word) :=
  (passOrder h).findSome? (fun p => (passSample e h p.1).map (fun x => (p.1, p.2, x)))

/-- In tray role, samples of the pending passes are assembled in that order (R265, R269). -/
def assembleAll (e : Env) (h : Hub) : Hub :=
  if e.tray then
    ((passOrder h).filter (fun p => p.1.use.tenantJob.isNone)).foldl (fun h p => p.1.todo.foldl (fun h x => assemble e p.1 x h) h) h
  else h

/-- The entity's region was stopped in the scan period that is scored, or in the present one (R68). -/
def entStopped (h : Hub) (x : Word) : Bool :=
  let was := fun r => (region h r).wasStopped || (region h r).stopSeen
  match kindOf x with
  | 0 => was (bitsOf x.toNat 10 8)
  | 1 => was (bitsOf x.toNat 5 3)
  | 2 => was (bitsOf x.toNat 2 0)
  | _ => false

/-- Count one more at each of these keys. -/
def tally (t : Tab Nat) (ks : List Nat) : Tab Nat := ks.foldl (fun t k => Tab.put t k (Tab.getD t k 0 + 1)) t

/-- The feature bank that a feature of an anomaly sample is read from, if it is in a row (R254, R261). -/
def featBankOf (h : Hub) (x : Word) (n : Nat) : Option Nat :=
  ((relEnt h x (n / 256)).filter (fun y => (rowOf h y).isSome)).map (fun y => Config.featBank y.toNat (n % 256) % 512)

/-- Score one sample of pass `i` (R248, R252, R254–R256), with its features and their banks. -/
def scoreSample (e : Env) (i : Nat) (p : Pass) (x : Word) (feat : Nat → Word) (bank : Nat → Option Nat) (stopped : Bool) (h : Hub) : Hub :=
  let ws := walks p.gen feat
  let r := formResult p.gen p.slot p.tb x stopped ws
  let bad := (ws.filter (fun w => w.leaf.isNone)).length
  let h := onPass i (fun q => { q with
    todo := q.todo.erase x, results := q.results ++ [r]
    pageVisits := tally q.pageVisits ((ws.flatMap Walk.reads).filterMap (pageOf q.gen))
    bankVisits := tally q.bankVisits ((ws.flatMap Walk.feats).filterMap bank) }) h
  let h := onEns (fun s => { s with
    samples := s.samples + 1, visits := s.visits + r.visits, faults := s.faults + bad
    uncorr := s.uncorr + (ws.filter Walk.uncorr).length, corr := s.corr + min r.visits (Config.nodeCorrected p.seq x.toNat) }) h
  if r.fault then unitFault e 24 12 2 (unitId e h 24) [w32 p.slot, p.gen.num, x] h else h

end Sys2Proof.Machine
end

