-- ==== Sys2Proof/Machine/EnsCmds.lean ====
section
/-!
DEFINITION. The commands and events of the ensemble engine (R244–R285), but for PASS_COMPLETE, which the verdict unit takes part in.
-/
namespace Sys2Proof.Machine

/-- Step 12: a TENANT may name only slots assigned to its job (R280). -/
def slotSee (_ : Env) (h : Hub) (c : Ctx) : Option Nat :=
  if c.tenant && !(decide (c.n 1 < 16) && decide (c.job.isSome) && decide ((slotAt h (c.n 1)).job = c.job)) then some 1 else none
/-- Step 13: the slot number (R285). -/
def slotRange (c : Ctx) : Option Nat := if c.n 1 < 16 then none else some 1

/-- ENS_LOAD -/
def opEnsLoad : OpDef := {
  code := 0x60, changes := true, may := fleetTenant, runs := ensRuns, form := fun c => decide (c.words.length = 5), see := slotSee
  range := fun _ _ c => slotRange c
  act := fun _ _ c => .later none (fun id h =>
    pulseLine 2 <| onEns (fun s => { s with loads := s.loads ++ [{ slot := c.n 1, addr := c.d 2, len := c.d 4, pend := id, job := if c.tenant then c.job else none }] }) h) }

/-- ENS_LOAD (R271): the image is read twice by the DMA engine; the reply comes at the end of a read. -/
def execEnsLoad (c : Cmd) (s : State) : Host.Outcome State Fault Refusal := s.runOp opEnsLoad c

/-- A load's slot is still assigned to the TENANT that sent it (R481). -/
def loadSeen (h : Hub) (l : Load) : Bool :=
  match l.job with
  | none => true
  | some j => decide ((slotAt h l.slot).job = some j)

/-- ENS_LOAD_FIRST_READ_DONE (R271, R272): the checks of Table 7.8; on success the STAGED generation is freed and recorded. -/
def execEnsLoadFirstReadDone (s : State) : Host.Outcome State Fault Refusal :=
  s.run (fun e h =>
    match h.ens.loads.find? (fun l => l.gen.isNone) with
    | none => h
    | some l => guard (ensRuns e h) (fun h =>
        let drop := onEns (fun s => { s with loads := s.loads.filter (fun q => decide (q.pend ≠ l.pend)) })
        match readMem e h l.addr l.len with
        | none => finish e l.pend stBadParam 2 [] (loadSeen h l) (drop h)
        | some b =>
          let st := imageCheck h l.slot l.len l.job b
          if st ≠ stOk then finish e l.pend st 0 [] (loadSeen h l) (drop h)
          else
            let h := pulseLine 2 h
            let h := match (slotAt h l.slot).staged with
              | some g => slotRecord 42 l.slot g.num e h
              | none => h
            let h := onSlot l.slot (fun s => { s with staged := none }) h
            let h := onSlot l.slot (fun s => { s with swap := s.swap.bind (fun w => if w.rollback then some w else none) }) h
            onEns (fun s => { s with loads := s.loads.map (fun q => if q.pend = l.pend then { q with gen := some (withPages h (imageGen b)), crc := w32 (leAt b 12 4) } else q) }) h) h)

/-- ENS_LOAD_SECOND_READ_DONE (R271, R272): staged with OK, or CRC_FAIL when the image changed between the reads. -/
def execEnsLoadSecondReadDone (s : State) : Host.Outcome State Fault Refusal :=
  s.run (fun e h =>
    match h.ens.loads.find? (fun l => l.gen.isSome) with
    | none => h
    | some l => guard (ensRuns e h) (fun h =>
        let h := onEns (fun s => { s with loads := s.loads.filter (fun q => decide (q.pend ≠ l.pend)) }) h
        let good := match readMem e h l.addr l.len with
          | some b => decide (imageCrc b = l.crc.toNat)
          | none => false
        if good then
          finish e l.pend stOk 0 [] (loadSeen h l) (onSlot l.slot (fun s => { s with staged := l.gen }) h)
        else finish e l.pend stCrcFail 0 [] (loadSeen h l) h) h)

/-- An optional window word at place `n`: its check and its value. -/
def windowWord (c : Ctx) (n : Nat) : Option Word := if c.words.length ≥ n then some (c.w n) else none

/-- ENS_ACTIVATE -/
def opEnsActivate : OpDef := {
  code := 0x61, changes := true, may := fleetTenant, runs := ensRuns
  form := fun c => decide (c.words.length = 2) || decide (c.words.length = 3), see := slotSee, range := fun _ _ c => slotRange c
  act := fun e h c =>
    let s := slotAt h (c.n 1)
    match s.staged with
    | none => refuse stNotFound h 2
    | some g =>
      if g.num ≠ c.w 2 then refuse stNotFound h 2
      else if g.damaged then refuse stBadParam h 2
      else if (windowWord c 3).any (windowEnded h) then refuse stWrongState h 3
      else if s.swap.any Swap.commanded then refuse stBusy h
      else ok [] (onSlot (c.n 1) (fun s => { s with swap := some { rollback := false, commanded := true, window := windowWord c 3 } })
        (swapDone e s.swap 1 h)) }

/-- ENS_ACTIVATE (R273, R275, R276); an autonomous rollback that waits is superseded and recorded (R26). -/
def execEnsActivate (c : Cmd) (s : State) : Host.Outcome State Fault Refusal := s.runOp opEnsActivate c

/-- ENS_ROLLBACK -/
def opEnsRollback : OpDef := {
  code := 0x64, changes := true, may := fleetTenant, runs := ensRuns
  form := fun c => decide (c.words.length = 1) || decide (c.words.length = 2), see := slotSee, range := fun _ _ c => slotRange c
  act := fun e h c =>
    let s := slotAt h (c.n 1)
    if s.previous.isNone then refuse stNotFound h 1
    else if s.previous.any Gen.damaged then refuse stBadParam h 1
    else if (windowWord c 2).any (windowEnded h) then refuse stWrongState h 2
    else if s.swap.any (fun w => w.commanded && w.rollback) then refuse stBusy h
    else ok [] (onSlot (c.n 1) (fun s => { s with swap := some { rollback := true, commanded := true, window := windowWord c 2 } })
      (if s.swap.any (fun w => !w.rollback) then emitUnit 44 noEnt 24 [c.w 1] h else swapDone e s.swap 1 h)) }

/-- ENS_ROLLBACK (R274–R276): it replaces a pending activation, which is recorded as cancelled. A damaged generation is refused as ENS_ACTIVATE
refuses it (R248; DEDUCED, log 96). -/
def execEnsRollback (c : Cmd) (s : State) : Host.Outcome State Fault Refusal := s.runOp opEnsRollback c

/-- Bytes of the records of `n` samples of a slot's active generation. -/
def runBytes (h : Hub) (slot n : Nat) : Nat := n * (32 + 16 * (((slotAt h slot).active.map (fun g => g.outs.length)).getD 0))

/-- The first word of a list that fails, numbered from `n`. -/
def firstWord (n : Nat) (l : List Word) (good : Word → Bool) : Option Nat :=
  ((l.zipIdx).find? (fun p => !good p.1)).map (fun p => n + p.2)

/-- A tenant row lies within the quota of the requester's job (R278). -/
def rowSeen (h : Hub) (c : Ctx) (w : Word) : Bool :=
  match c.job with
  | none => false
  | some j => decide (w.toNat < ((quotaOf h j).map Quota.rows).getD 0)

/-- An entity that can have a row here: in die role only rows that the image allocated (R263). -/
def hasRow (e : Env) (h : Hub) (x : Word) : Bool := unitHere x && (e.tray || (rowOf h x).isSome)

/-- TB of the last scoring boundary: a scan boundary, or in tray role the end of an aggregation window (R262). -/
def scoringTb (e : Env) (h : Hub) : Nat := if e.tray then h.casc.windowTb else h.casc.lastScan

/-- ENS_RUN -/
def opEnsRun : OpDef := {
  code := 0x62, may := fleetTenant, runs := ensRuns, form := fun c => decide (3 ≤ c.words.length)
  see := fun e h c => (slotSee e h c).or (if c.tenant then firstWord 4 (c.from_ 4) (rowSeen h c) else none)
  range := fun _ h c => (slotRange c).or ((if c.d 2 = 0 ∨ writable h (c.d 2) (runBytes h (c.n 1) (c.from_ 4).length) then none else some 2).or
    (if c.tenant then none else firstWord 4 (c.from_ 4) (entOk h)))
  act := fun e h c =>
    let xs := c.from_ 4
    match (if c.tenant then none else firstWord 4 xs (hasRow e h)) with
    | some n => refuse stNotFound h n
    | none =>
      let j := if c.tenant then c.job else none
      match askPass e (c.n 1) (.run 0 (c.d 2) j) xs (scoringTb e h) h with
      | .noGen => refuse stNotFound h 1
      | .full => refuse stBusy h
      | .empty _ h => ok [0, 0] h
      | .taken _ => .later none (fun id h => match askPass e (c.n 1) (.run id (c.d 2) j) xs (scoringTb e h) h with
          | .taken h => h
          | _ => h) }

/-- ENS_RUN (R269). -/
def execEnsRun (c : Cmd) (s : State) : Host.Outcome State Fault Refusal := s.runOp opEnsRun c

/-- An ENS_RUN pass is complete: its records go to the reply or to memory (R283, Table 12.13). -/
def runComplete (e : Env) (p : Pass) (pend dest : Nat) (job : Option (BitVec 16)) (h : Hub) : Hub :=
  let n := p.results.length
  let seen := match job with
    | none => true
    | some j => decide ((slotAt h p.slot).job = some j)
  if dest = 0 then
    let fit := 344 / (8 + 4 * p.gen.outs.length)
    let rs := p.results.take fit
    finish e pend stOk 0 ([w32 n, w32 rs.length] ++ rs.flatMap Result.words) seen h
  else match writeOut 3 dest (p.results.flatMap Result.mem) h with
    | some h' => if seen then finish e pend stOk 0 [w32 n, w32 n] seen h' else finish e pend stOk 0 [] seen h
    | none => finish e pend stTimeout 0 [] seen h

/-- FEAT_WRITE -/
def opFeatWrite : OpDef := {
  code := 0x63, may := fleetTenant, runs := ensRuns, form := fun c => decide (2 ≤ c.words.length)
  see := fun _ h c => if c.tenant && !rowSeen h c (c.w 1) then some 1 else none
  range := fun _ h c => firstBad [(1, c.tenant || entOk h (c.w 1)), (2, decide (c.n 2 ≤ 255)), (3, decide (c.words.length - 2 + c.n 2 ≤ 256))]
  act := fun e h c =>
    let vs := c.from_ 3
    if c.tenant then
      let k := tenantKey (c.job.getD 0) (c.n 1)
      let r := Tab.getD h.ens.tenant k {}
      ok [] (onEns (fun s => { s with tenant := Tab.put s.tenant k { r with words := (vs.zipIdx).foldl (fun t p => Tab.put t (c.n 2 + p.2) p.1) r.words } }) h)
    else if !hasRow e h (c.w 1) then refuse stNotFound h 1
    else if e.tray && (rowOf h (c.w 1)).isNone && (backingOf h (c.w 1)).isNone && decide (h.ens.backing.length ≥ 1048576) then
      .done stNoSpace 1 [] (emitUnit 1 (c.w 1) 24 [] h)
    else ok [] (featWrites e (c.w 1) (c.n 2) vs h) }

/-- FEAT_WRITE (R262, R268, R278). -/
def execFeatWrite (c : Cmd) (s : State) : Host.Outcome State Fault Refusal := s.runOp opFeatWrite c

/-- SAMPLE_COMPLETE (R255, R263, R265, R269): the sample issued next. -/
def execSampleComplete (s : State) : Host.Outcome State Fault Refusal :=
  s.run (fun e h => guard (ensRuns e h) (fun h =>
    let h := assembleAll e h
    match nextSample e h with
    | none => h
    | some (p, i, x) =>
      match p.use.tenantJob with
      | some j =>
        let k := tenantKey j x.toNat
        let r := Tab.getD h.ens.tenant k {}
        scoreSample e i p x (fun n => if n < 256 then Tab.getD r.words n missing else missing)
          (fun n => if n < 256 then some (Config.featBank (2 ^ 32 + k) n % 512) else none) false h
      | none =>
        if e.tray || (rowOf h x).isSome then unpin e p.seq x (scoreSample e i p x (feature h x) (featBankOf h x) (entStopped h x) h)
        else refuseSample i x h) h)

/-- Rows that the backing store gives at a row's place. -/
def backingBytes (e : Env) (h : Hub) (x : Word) : Option (List Byte) :=
  (backingOf h x).bind (fun n => (backingAddr h n).bind (fun a => readMem e h a 1024))

/-- ROW_FILL_COMPLETE (R265, R268): the row becomes VALID, and the writes that waited land in it. -/
def execRowFillComplete (entity : Word) (s : State) : Host.Outcome State Fault Refusal :=
  s.run (fun e h =>
    match rowOf h entity with
    | none => h
    | some r => guard (e.tray && alive h && (r.st == .filling) && !clientBusy h (fun c => c == .fill entity.toNat)) (fun h =>
        match backingBytes e h entity with
        | none => retryRoom e (onEns (fun s => { s with rows := Tab.drop s.rows entity.toNat }) h)
        | some b =>
          let ws := r.waiting.foldl (fun t p => Tab.put t p.1 p.2) (rowWords b)
          retryRoom e (putRow entity { r with st := .valid, words := ws, dirty := !r.waiting.isEmpty, waiting := [], used := nowNs h } h)) h)

/-- ROW_WRITEBACK_COMPLETE (R266, R267): the row is in the backing store, and a fill that waited reads it again from there. -/
def execRowWritebackComplete (entity : Word) (s : State) : Host.Outcome State Fault Refusal :=
  s.run (fun e h =>
    match rowOf h entity with
    | none => h
    | some r => guard (e.tray && alive h && (r.st == .evicting) &&
          !clientBusy h (fun c => match c with | .writeback x _ => decide (x = entity.toNat) | _ => false)) (fun h =>
        let h := match (backingOf h entity).bind (backingAddr h) with
          | some a => postMem a (rowBytes r) h
          | none => h
        let h := onEns (fun s => { s with rows := Tab.drop s.rows entity.toNat }) h
        if r.refill || !r.waiting.isEmpty then
          let h := startFill e entity h
          match rowOf h entity with
          | some n => putRow entity { n with pins := r.pins, waiting := r.waiting } h
          | none => h
        else retryRoom e h) h)

/-- ASSEMBLY_LIMIT_EXPIRY (R265): a sample of the entity that still waits for a row is refused and counted. -/
def execAssemblyLimitExpiry (entity : Word) (s : State) : Host.Outcome State Fault Refusal :=
  s.run (fun e h =>
    match h.ens.waits.find? (fun w => decide (w.ent = entity.toNat) && decide (w.deadline ≤ nowNs h) &&
        h.ens.passes.any (fun p => decide (p.seq = w.pass) && !assembled h p.gen entity)) with
    | none => h
    | some w => guard (ensRuns e h && !e.beaten evRowFill w.deadline (nowNs h)) (fun h =>
        dropSample e w (onEns (fun s => { s with refused := s.refused + 1 }) h)) h)

/-- A generation of a slot. -/
def slotGen (s : Slot) (g : GenSel) : Option Gen :=
  match g with
  | .active => s.active
  | .previous => s.previous
  | .staged => s.staged

/-- Put a generation of a slot. -/
def putGen (s : Slot) (g : GenSel) (x : Gen) : Slot :=
  match g with
  | .active => { s with active := some x }
  | .previous => { s with previous := some x }
  | .staged => { s with staged := some x }

/-- NODE_MEMORY_SCRUB (R248): what the scrubber finds in one generation's pages. -/
def execNodeMemoryScrub (slot : BitVec 4) (g : GenSel) (corrected : BitVec 32) (bad : List (Nat × Nat)) (s : State) :
    Host.Outcome State Fault Refusal :=
  s.run (fun e h =>
    match slotGen (slotAt h slot.toNat) g with
    | none => h
    | some x => guard (alive h) (fun h =>
        let h := onEns (fun s => { s with corr := s.corr + corrected.toNat, uncorr := s.uncorr + bad.length }) h
        if bad.isEmpty then h
        else
          let y := { x with bad := x.bad ++ bad, damaged := true }
          let h := emit 9 2 0 (unitId e h 24) 24 10 ([slot.setWidth 32, x.num] ++ bad.flatMap (fun p => [w32 p.1, w32 (p.2 / 8192)])) h
          let h := onEns (fun s => { s with passes := s.passes.map (fun p => if p.slot = slot.toNat ∧ p.gen.num = x.num then { p with gen := y } else p) }) h
          onSlot slot.toNat (fun s => putGen s g y) h) h)

end Sys2Proof.Machine
end

