-- ==== Sys2Proof/Machine/CascOps.lean ====
section
/-!
DEFINITION. The verdict unit: bands, verdict records, acts and recommendations, evidence floors, the expulsion governor, the
spike test (R23–R28, R307–R318, R327–R334).
-/
namespace Sys2Proof.Machine

/-- Change the cascade unit. -/
def onCasc (f : Casc → Casc) (h : Hub) : Hub := { h with casc := f h.casc }

/-- FENCE or EXPEL. -/
def isRemoval (v : Nat) : Bool := v == 5 || v == 6
/-- The more severe of two verdicts (Table 8.5). -/
def worse (a b : Nat) : Nat := if severity a < severity b then b else a
/-- The policy row of an entity's kind (Table 8.7). -/
def polRow (h : Hub) (x : Word) : PolicyRow := getAt (policy h).rows (kindOf x) {}

/-! Floors (R316). -/

/-- Floors of an entity in force. -/
def floorsNow (h : Hub) (x : Word) : List Floor := (entity h x).floors.filter (fun f => decide (nowNs h < f.tb + (policy h).floorHold))
/-- The highest of some floors' verdicts; CLEAR for none. -/
def highest (l : List Floor) : Nat := l.foldl (fun a f => worse a f.verdict) 0
/-- The highest floor in force. -/
def floorNow (h : Hub) (x : Word) : Nat := highest (floorsNow h x)
/-- The floor in force as a word: the missing marker for none. DESIGN CHOICE (log 40). -/
def floorWord (h : Hub) (x : Word) : Word := if (floorsNow h x).isEmpty then missing else w32 (floorNow h x)
/-- An entity's health score as a word: the missing marker while it has none. DESIGN CHOICE (log 40). -/
def scoreWord (s : Ent) : Word := if s.scored then w32 s.h else missing

/-! Bands (R313). -/

/-- Thresholds of a row, lowest first. -/
def PolicyRow.thresholds (r : PolicyRow) : List Nat := [r.watch, r.suspect, r.test, r.fence, r.expel]
/-- Verdicts of the bands for a kind (R313, Table 8.6): TEST reads as SUSPECT outside kinds 0–2; a replica is never fenced. -/
def bandVerdicts (kind : Nat) : List Nat := if kind ≤ 2 then [1, 2, 4, 5, 6] else if kind = 9 then [1, 2, 2, 6, 6] else [1, 2, 2, 5, 6]
/-- The band of a score (R313). -/
def bandOf (r : PolicyRow) (kind hs : Nat) : Nat :=
  (r.thresholds.zip (bandVerdicts kind)).foldl (fun a p => if hs ≥ p.1 then p.2 else a) 0
/-- The highest band that each of the last DWELL_UP scores has reached (R313). -/
def risenTo (r : PolicyRow) (kind : Nat) (up : List Nat) : Nat :=
  (up.zip (bandVerdicts kind)).foldl (fun a p => if p.1 ≥ r.dwellUp then p.2 else a) 0

/-- The health score of an output (R307); none for NaN (R308). -/
def healthScore (y : Word) : Option Nat :=
  match dec32 y with
  | .nan => none
  | .inf s => some (if s then 0 else 1023)
  | .fin s m ex =>
    let n := signedNat s m * 1023
    let v := if ex ≥ 0 then n * 2 ^ ex.toNat else roundInt n (2 ^ (-ex).toNat)
    some (min 1023 v.toNat)

/-! Records, acts, reports (R23–R25, R318). -/

/-- A VERDICT record (R318, R646): old and new verdict, score, generation, slot, floor, cause, received mark. -/
def verdictRecord (x : Word) (old new : Nat) (score gen : Word) (slot : Nat) (floor : Word) (cause : Nat) (received : Bool) (h : Hub) : Hub :=
  emit 3 (if severity new ≥ 3 then 1 else 0) 0 x 0 new
    [w32 old, w32 new, score, gen, w32 slot, floor, w32 cause, w32 (b2n received)] h

/-- Bounds in force for a row of Table 1.7. -/
def actBounds (h : Hub) (row : Nat) : List Word :=
  let p := policy h
  match row with
  | 0 => [16]
  | 1 => w64 p.deferral
  | 2 => [64]
  | 5 => [w32 p.quick]
  | 6 => p.govern.flatMap (fun g => w32 g.1 :: w64 g.2)
  | 7 => [w32 h.age.probeConc, 0]
  | _ => []

/-- The record, mark and report of an act (CMPL 1) or a recommendation (CMPL 2) (R23–R25, Table 13.2, Table 15.1). -/
def actRecord (e : Env) (row cmpl : Nat) (x cause : Word) (h : Hub) : Hub :=
  let h := emit 4 1 cmpl x 0 row ([w32 row] ++ actBounds h row ++ [cause]) h
  let h := mark e 5 x (w32 (row + if cmpl = 2 then 2 ^ 31 else 0)) (nowNs h) h
  let h := report 2 (if cmpl = 2 then .recommendation else .act) x [row] h
  onCasc (fun c => { c with recommends := c.recommends + b2n (decide (cmpl = 2)) }) h

/-- Start of the scan period, or in tray role of the aggregation window, in progress. -/
def periodStart (e : Env) (h : Hub) : Nat := if e.tray then h.casc.windowTb else h.casc.lastScan

/-- A command has acted on the entity in this scan period: an autonomous act on it is superseded (R26). -/
def overruled (e : Env) (h : Hub) (x : Word) : Bool := (entity h x).lastCmd.any (fun t => decide (periodStart e h ≤ t))

/-- A command acts on an entity (R26). -/
def noteCmd (x : Word) (h : Hub) : Hub := onEnt x (fun s => { s with lastCmd := some (nowNs h) }) h

/-- An autonomous act of a row on an entity, by the policy row of `kind`: taken, superseded, or recorded as a recommendation
(R23, R24, R26). `f` is the act. -/
def autoAct (e : Env) (row kind : Nat) (x cause : Word) (f : Hub → Hub) (h : Hub) : Hub :=
  if !actOn h kind row then actRecord e row 2 x cause h
  else
    let act := nextRseq h
    let h := actRecord e row 1 x cause h
    if overruled e h x then actDone x act 1 h else actDone x act 0 (f h)

/-! Verdict changes (R310, R318). -/

/-- The member dies that an entity's verdict concerns (Table 8.6). -/
def diesUnder (h : Hub) (x : Word) : List Nat :=
  let lo := bitsOf x.toNat 10 0
  match kindOf x with
  | 3 => (trayDies h).filter (fun d => decide (d = dieOf x))
  | 4 => (trayDies h).filter (fun d => decide (d / 64 = lo))
  | 5 => trayDies h
  | 9 =>
    let r := (jobDies h (BitVec.ofNat 16 (bitsOf x.toNat 23 8))).filter (fun y => decide (y.rep.toNat = bitsOf x.toNat 7 0))
    (trayDies h).filter (fun d => r.any (fun y => decide (y.die = d)))
  | _ => []

/-- A tray sends a numbered verdict to a member die (R394). -/
def memberVerdict (e : Env) (d : Nat) (m : VerdictMsg) (h : Hub) : Hub :=
  let n := (member h d).vseq + 1
  let m := { m with seq := n }
  sbDown e false d { ftype := 8, payload := .verdict m }
    (onMember d (fun y => { y with vseq := n, sent := y.sent ++ [{ msg := m, tb := nowNs h }] }) h)

/-- The removal memory keeps the cores fenced and expelled (R597). -/
def noteRemoved (e : Env) (x : Word) (h : Hub) : Hub :=
  if e.tray || decide (kindOf x > 3) then h
  else { h with isl := { h.isl with removed :=
    ((List.range 2048).filter (fun c => e.present c && fenced e h c)).map (fun c =>
      (c, if (coreId e h c :: enclosing e h c).any (fun y => (entity h y).verdict == 6) then 6 else 5)) } }

/-- A test falls due on a core (R319): one already due absorbs it. Its deferral on a core in a job is an act (Table 1.7); one that an earlier
command of the scan period supersedes is not taken, and the test waits for no step boundary (R26). -/
def dueTest (e : Env) (c : Nat) (ident : Word) (cond : Option (Nat × Nat)) (h : Hub) : Hub :=
  let x := coreId e h c
  if (entity h x).test.isSome then h
  else
    let t : TestDue := { deadline := nowNs h + (policy h).deferral, ident := ident, cond := cond }
    if (jobOfDie h (dieNo e h)).isNone then onEnt x (fun s => { s with test := some t }) h
    else if actOn h 0 1 then
      let act := nextRseq h
      if overruled e h x then onEnt x (fun s => { s with test := some { t with defer := false } }) (actDone x act 1 (actRecord e 1 1 x 0 h))
      else onEnt x (fun s => { s with test := some { t with act := some act } }) (actRecord e 1 1 x 0 h)
    else onEnt x (fun s => { s with test := some { t with defer := false } }) (actRecord e 1 2 x 0 h)

/-- TB of the newest observation behind a verdict: the scored pass's, or that of the newest floor in force. -/
def obsTb (h : Hub) (x : Word) (cause : Nat) : Nat :=
  if cause = 1 then ((floorsNow h x).map Floor.tb).foldl max 0 else (entity h x).scoreTb

/-- The raise of the audit rate that SUSPECT or PROBATION calls for, an act in effect at the next boundary (R21, R23): superseded by a
command of the same scan period (R26), and not taken again after AUDIT_RATE on observations made before that command (R27). -/
def raiseAct (e : Env) (x : Word) (v cause : Nat) (rseq : Word) (h : Hub) : Hub :=
  if (v ≠ 2 ∧ v ≠ 3) ∨ cause = 3 ∨ ¬ (kindOf x ≤ 5 ∨ kindOf x = 9) then h
  else if !actOn h (kindOf x) 0 then actRecord e 0 2 x rseq h
  else
    let act := nextRseq h
    let skip := onEnt x (fun s => { s with noRaise := true })
    if overruled e h x then skip (actDone x act 1 (actRecord e 0 1 x rseq h))
    else if (entity h x).rateTb.any (fun t => decide (obsTb h x cause ≤ t)) then skip h
    else onCasc (fun c => { c with actsDue := c.actsDue ++ [act] }) (actRecord e 0 1 x rseq h)

/-- EXPEL removes a replica from voting at once (Table 8.6). -/
def noVote (x : Word) (h : Hub) : Hub :=
  let j := bitsOf x.toNat 23 8
  let r := bitsOf x.toNat 7 0
  { h with jobs := { h.jobs with table := h.jobs.table.map (fun p =>
      if p.1 = j then (p.1, { p.2 with dies := p.2.dies.map (fun d => if d.rep.toNat = r then { d with out := true } else d) }) else p) } }

/-- What a verdict that has changed does on this block (Table 8.6). -/
def verdictEffects (e : Env) (x : Word) (old new : Nat) (h : Hub) : Hub :=
  let h := match ownCore e h x with
    | some c => onHubc c (fun y => { y with newVerdict := true, hadOutcome := true }) h
    | none => h
  let h := if isRemoval old ≠ isRemoval new then refreshHolds e x (noteRemoved e x h) else h
  let h := if new = 6 ∧ kindOf x = 9 then noVote x h else h
  if new = 4 ∧ kindOf x ≤ 2 then (coresOf e h x).foldl (fun h c => dueTest e c 0 none h) h else h

/-- The mark of a recorded verdict (R487), and trigger condition 4: a change to SUSPECT or a more severe verdict (Table 13.9). -/
def verdictMark (e : Env) (x : Word) (old v : Nat) (h : Hub) : Hub :=
  let h := mark e 3 x (w32 (old * 256 + v)) (nowNs h) h
  if severity v ≥ 3 ∧ v ≠ old then trigger e 4 h else h

/-- A change of verdict (R318): the record, then the report and the acts. Causes: 0 SCORE, 1 FLOOR, 2 GOVERNED, 3 COMMAND,
4 TEST, 5 SHADOW, 6 ROLLBACK. -/
def setVerdict (e : Env) (x : Word) (v cause : Nat) (h : Hub) : Hub :=
  let s := entity h x
  let old := s.verdict
  if old = v then h
  else
    let fw := floorWord h x
    let rseq := nextRseq h
    let h := verdictRecord x old v (scoreWord s) s.gen s.slot fw cause false h
    let h := verdictMark e x old v h
    let h := if severity v ≥ 3 then irq 2 h else h
    let h := report 0 .verdict x [old, v, s.h, s.gen.toNat, s.slot, fw.toNat, cause] (onCasc (fun c => { c with changes := c.changes + 1 }) h)
    let h := onEnt x (fun y => { y with
      verdict := v, prior := if v = 4 then old else y.prior, recd := none, noRaise := false
      probEnd := if v = 3 then some (nowNs h + (policy h).probation) else none }) h
    let h := verdictEffects e x old v (raiseAct e x v cause rseq h)
    if e.tray then
      (diesUnder h x).foldl (fun h d => memberVerdict e d {
        seq := 0, entity := x, verdict := BitVec.ofNat 3 v, cause := BitVec.ofNat 3 cause, score := scoreWord s, generation := s.gen
        slot := w32 s.slot, floor := fw } h) h
    else h

/-- Set the verdict that stands when no floor is higher, and with it the verdict (R317). -/
def setBase (e : Env) (x : Word) (v cause : Nat) (h : Hub) : Hub :=
  let h := onEnt x (fun s => { s with scoreV := v, down := 0 }) h
  let f := highest ((floorsNow h x).filter (fun f => !isRemoval f.verdict || isRemoval (entity h x).verdict))
  let w := worse v f
  setVerdict e x w (if w = v then cause else 1) h

/-! The governor (R327–R330). -/

/-- Levels that contain an entity (Table 8.11): 0 the die, 1 and 2 the tray's engines, 3 the tray. A die's weight links and memory channels lie in
none of them (DEDUCED, log 100). -/
def levelsOf (h : Hub) (x : Word) : List Nat :=
  let lo := bitsOf x.toNat 10 0
  match kindOf x with
  | 0 => [0]
  | 1 => [0]
  | 2 => [0]
  | 3 => [1 + dieOf x / 64 % 2, 3]
  | 4 => [1 + lo % 2, 3]
  | 9 =>
    let ds := (jobDies h (BitVec.ofNat 16 (bitsOf x.toNat 23 8))).filter (fun y => decide (y.rep.toNat = bitsOf x.toNat 7 0))
    let mine := fun i => ds.any (fun y => decide (y.die / 64 = (imgOf h).tray * 2 + i))
    (if mine 0 then [1] else []) ++ (if mine 1 then [2] else []) ++ [3]
  | 7 => if bitOf x.toNat 10 then [3] else []
  | 5 => [3]
  | 8 => [3]
  | _ => []

/-- TBs of removals at a level. -/
def removalsAt (h : Hub) (l : Nat) : List Nat :=
  if l = 0 then h.isl.remDie else if l = 1 then h.isl.remEng0 else if l = 2 then h.isl.remEng1 else h.isl.remTray

/-- Budget and window of a level. -/
def budgetOf (h : Hub) (l : Nat) : Nat × Nat := getAt (policy h).govern (if l = 0 then 0 else if l = 3 then 2 else 1) (0, 0)

/-- Within budget at every level that contains the entity (R328). -/
def withinBudget (h : Hub) (x : Word) : Bool :=
  (levelsOf h x).all (fun l => decide (((removalsAt h l).filter (fun t => decide (nowNs h < t + (budgetOf h l).2))).length < (budgetOf h l).1))

/-- Is the entity a shadow replica? Its removal takes no capacity (R328, R339). -/
def shadowEnt (h : Hub) (x : Word) : Bool := h.casc.shadows.any (fun s => decide (x = entId 9 (s.job.toNat * 256 + s.rep.toNat)))

/-- A removal counts at its levels; the island keeps the last 256 TBs of each (R327, R597). -/
def countRemoval (x : Word) (h : Hub) : Hub :=
  if shadowEnt h x then h
  else (levelsOf h x).foldl (fun h l =>
    let add := fun (t : List Nat) => (nowNs h :: t).take 256
    let i := h.isl
    { h with isl :=
        if l = 0 then { i with remDie := add i.remDie } else if l = 1 then { i with remEng0 := add i.remEng0 }
        else if l = 2 then { i with remEng1 := add i.remEng1 } else { i with remTray := add i.remTray } }) h

/-- A pending removal ends with a result of Table 15.2 type 5. -/
def endPending (x : Word) (result : Nat) (h : Hub) : Hub :=
  let s := entity h x
  if s.pendRem.isNone then h else onEnt x (fun y => { y with pendRem := none }) (actDone x s.pendAct result h)

/-- The entity takes a removal verdict. -/
def removeNow (e : Env) (x : Word) (v cause : Nat) (h : Hub) : Hub :=
  let was := isRemoval (entity h x).verdict
  let h := setVerdict e x v cause (onEnt x (fun s => { s with scoreV := v, down := 0 }) h)
  if was then h else countRemoval x h

/-- Pending removals beyond 4,096: the lowest-scored one lapses (Table 8.13). -/
def limitPending (h : Hub) : Hub :=
  let l := h.casc.ents.filter (fun p => p.2.pendRem.isSome)
  if l.length ≤ 4096 then h
  else match l.foldl (fun a p => match a with
      | none => some p
      | some q => if p.2.h < q.2.h then some p else some q) (none : Option (Nat × Ent)) with
    | some p => endPending (BitVec.ofNat 32 p.1) 3 h
    | none => h

/-- A change that a more severe one of the same boundary covers is recorded as subsumed (R317). -/
def subsumed (x : Word) (v : Nat) (h : Hub) : Hub := emitUnit 50 x 0 [w32 v, 0] h

/-- An autonomous removal that a score or a floor calls for (R23, R26, R328, R329). A removal that is governed gives PROBATION, or the
verdict of a more severe floor in force (R317). -/
def autoRemove (e : Env) (x : Word) (v cause : Nat) (src : Word) (h : Hub) : Hub :=
  let s := entity h x
  if !actOn h (kindOf x) 6 then
    (if s.recd = some v then h else onEnt x (fun y => { y with recd := some v }) (actRecord e 6 2 x src h))
  else
    let act := nextRseq h
    let h := actRecord e 6 1 x src h
    if overruled e h x then actDone x act 1 h
    else if shadowEnt h x || withinBudget h x then actDone x act 0 (removeNow e x v cause (endPending x 3 h))
    else
      let h := endPending x 3 h
      let h := onEnt x (fun y => { y with pendRem := some v, pendAct := act, scoreV := 3, down := 0 })
        (onCasc (fun c => { c with governed := c.governed + 1 }) h)
      let f := highest ((floorsNow h x).filter (fun f => !isRemoval f.verdict))
      limitPending (if severity f > severity 3 then subsumed x 3 (setVerdict e x f 1 h) else setVerdict e x 3 2 h)

/-- A removal that competes at a boundary: entity, verdict, cause, and whether it is pending already. -/
structure Removal where
  x : Word
  v : Nat
  cause : Nat
  pending : Bool

/-- The order of R330: severity, then descending score, then ascending entity ID. -/
def remBefore (h : Hub) (a b : Removal) : Bool :=
  let ha := (entity h a.x).h
  let hb := (entity h b.x).h
  if a.v ≠ b.v then decide (severity b.v < severity a.v) else if ha ≠ hb then decide (hb < ha) else decide (a.x.toNat < b.x.toNat)

/-- Take removals in the order of R330. -/
def takeRemovals (e : Env) (l : List Removal) (h : Hub) : Hub :=
  (sortBy (remBefore h) l).foldl (fun h r =>
    if r.pending then
      (if withinBudget h r.x then endPending r.x 0 (removeNow e r.x r.v r.cause h) else h)
    else autoRemove e r.x r.v r.cause 0 h) h

/-! Scoring boundaries (R315–R317, R329). -/

/-- What the band of the last score and the floors still call for. -/
def callsFor (h : Hub) (x : Word) : Nat :=
  let s := entity h x
  worse (if s.scored then bandOf (polRow h x) (kindOf x) s.h else 0) (floorNow h x)

/-- A removal wanted by the floors or pending at a scoring boundary; a pending one that nothing calls for lapses (R329). -/
def boundaryRemoval (h : Hub) (x : Word) : Hub × List Removal :=
  let s := entity h x
  let f := floorNow h x
  let p := s.pendRem.getD 0
  if isRemoval f && !isRemoval s.verdict && decide (severity p < severity f) then (h, [⟨x, f, 1, false⟩])
  else if s.pendRem.isNone then (h, [])
  else if severity p ≤ severity (callsFor h x) then (h, [⟨x, p, if severity p ≤ severity f then 1 else 0, true⟩])
  else (endPending x 3 h, [])

/-- The more severe of the standing verdict and the highest floor that removes nothing new (R317). -/
def floorVerdict (h : Hub) (x : Word) : Nat :=
  let s := entity h x
  worse s.scoreV (highest ((floorsNow h x).filter (fun f => !isRemoval f.verdict || isRemoval s.verdict)))

/-- R317 for the floors that remove nothing. -/
def boundaryFloor (e : Env) (x : Word) (h : Hub) : Hub :=
  let s := entity h x
  let w := floorVerdict h x
  if w = s.verdict then h
  else
    let h := if severity w ≥ 4 then onEnt x (fun y => { y with scoreV := w }) h else h
    setVerdict e x w 1 h

/-- The block forms verdicts for these kinds of entity: those its role scores (Table 8.1). -/
def judges (e : Env) (x : Word) : Bool :=
  if e.tray then [3, 4, 5, 7, 8, 9, 11].contains (kindOf x) else [0, 1, 2, 6, 7, 11].contains (kindOf x)

/-- Floors, and removals they call for or that are pending, at a scoring boundary. An entity that is removed takes no other change; what a
lesser floor would have made of it is recorded as subsumed (R317). -/
def boundaryVerdicts (e : Env) (h : Hub) : Hub :=
  let xs := (h.casc.ents.filter (fun p => judges e (BitVec.ofNat 32 p.1) &&
    (!p.2.floors.isEmpty || p.2.pendRem.isSome || decide (p.2.verdict ≠ p.2.scoreV)))).map (fun p => BitVec.ofNat 32 p.1)
  let r := xs.foldl (fun (a : Hub × List Removal) x =>
    let b := boundaryRemoval a.1 x
    (b.1, a.2 ++ b.2)) (h, [])
  let less := (r.2.filter (fun q => decide (floorVerdict r.1 q.x ≠ (entity r.1 q.x).verdict))).map (fun q => (q.x, floorVerdict r.1 q.x))
  let h := takeRemovals e r.2 r.1
  xs.foldl (fun h x =>
    if isRemoval (entity h x).verdict && less.any (fun p => decide (p.1 = x)) then
      (less.filter (fun p => decide (p.1 = x))).foldl (fun h p => subsumed x p.2 h) h
    else boundaryFloor e x h) h

/-- Acts decided before take effect at the boundary (R21): they are done. -/
def finishActs (h : Hub) : Hub :=
  h.casc.actsDue.foldl (fun h a => actDone noEnt a 0 h) (onCasc (fun c => { c with actsDue := [] }) h)

/-- One received verdict takes effect on a die (R311, R646): verdict, cause, score, generation, slot, floor. -/
def takeReceived (e : Env) (x : Word) (m : Nat × Nat × Nat × Word × Nat × Nat) (h : Hub) : Hub :=
  let s := entity h x
  match m with
  | (v, cause, score, gen, slot, floor) =>
    let h := verdictRecord x s.verdict v (w32 score) gen slot (w32 floor) cause true h
    let h := verdictMark e x s.verdict v h
    let h := if severity v ≥ 3 ∧ v ≠ s.verdict then irq 2 h else h
    let h := onCasc (fun c => { c with changes := c.changes + b2n (decide (v ≠ s.verdict)) }) h
    let h := onEnt x (fun y => { y with
      verdict := v, scoreV := v, prior := if v = 4 then s.verdict else y.prior, h := score, scored := decide (score ≤ 1023), noRaise := false
      gen := gen, slot := slot }) h
    verdictEffects e x s.verdict v h

/-- The verdicts received for an entity take effect, in the order in which they came, each with its own record. -/
def applyReceived (e : Env) (x : Word) (h : Hub) : Hub :=
  (entity h x).received.foldl (fun h m => takeReceived e x m h) (onEnt x (fun y => { y with received := [] }) h)

/-! Passes (R307–R314, R331–R334). -/

/-- A score taken by an entity: its figures, and the standing verdict it rises or falls to, if it changes (R313, R314). -/
def scoreEnt (r : PolicyRow) (kind hs : Nat) (gen : Word) (slot : Nat) (s : Ent) : Ent × Option Nat :=
  let up := (r.thresholds.zip s.up).map (fun p => if hs ≥ p.1 then p.2 + 1 else 0)
  let s := { s with h := hs, scored := true, gen := gen, slot := slot, up := up, calm := if hs ≥ r.suspect then 0 else s.calm + 1 }
  let top := risenTo r kind up
  if severity top > severity s.scoreV then ({ s with down := 0 }, some top)
  else
    let t := if s.scoreV = 2 then r.suspect else r.watch
    if (s.scoreV = 1 ∨ s.scoreV = 2) ∧ hs + r.hyst < t then
      if s.down + 1 ≥ r.dwellDown then ({ s with down := 0 }, some (s.scoreV - 1)) else ({ s with down := s.down + 1 }, none)
    else ({ s with down := 0 }, none)

/-- A change of standing verdict that a pass calls for. -/
structure Change where
  x : Word
  old : Nat
  new : Nat

/-- A raise, not a fall. -/
def Change.raise (c : Change) : Bool := decide (severity c.old < severity c.new)

/-- The usable health score of a result (R307, R308). -/
def resultScore (h : Hub) (r : Result) : Option Nat :=
  if r.fault || r.damaged || r.stopped then none else (r.y[(policy h).healthOut]?).bind healthScore

/-- Enter a pass's scores; the changes that they call for are not applied yet (R332). A score from before the command that reversed an act
on the entity stands, and counts toward no verdict (R27). -/
def enterScores (rs : List Result) (h : Hub) : Hub × List Change :=
  rs.foldl (fun (a : Hub × List Change) r =>
    match resultScore a.1 r with
    | none => (onCasc (fun c => { c with unscored := c.unscored + 1 }) a.1, a.2)
    | some hs =>
      let s := entity a.1 r.entity
      let old := s.cmdTb.any (fun t => decide (r.tb ≤ t))
      let q := if old then ({ s with h := hs, scored := true, gen := r.gen, slot := r.slot, scoreTb := r.tb }, none)
        else scoreEnt (polRow a.1 r.entity) (kindOf r.entity) hs r.gen r.slot { s with scoreTb := r.tb }
      let skip := match q.2, s.pendRem with
        | some v, some p => decide (severity v ≤ severity p)
        | _, _ => false
      (onEnt r.entity (fun _ => q.1) a.1, match q.2 with
        | some v => if skip then a.2 else a.2 ++ [⟨r.entity, s.scoreV, v⟩]
        | none => a.2)) (h, [])

/-- A score-driven rise to SUSPECT or above on an entity that holds no floor (R331). -/
def uncorroborated (h : Hub) (c : Change) : Bool := c.raise && decide (severity c.new ≥ 3) && (floorsNow h c.x).isEmpty

/-- The lowest-numbered die of a replica. -/
def firstDie (h : Hub) (x : Word) : Option Nat :=
  let ds := ((jobDies h (BitVec.ofNat 16 (bitsOf x.toNat 23 8))).filter (fun y => decide (y.rep.toNat = bitsOf x.toNat 7 0))).map JobDie.die
  ds.foldl (fun a d => match a with
    | none => some d
    | some b => some (min b d)) none

/-- The place of a raised entity (R331, R333): a region or the rest of the die; in tray role a die, or none. -/
def placeOf (e : Env) (h : Hub) (x : Word) : Option Nat :=
  let lo := bitsOf x.toNat 10 0
  if e.tray then
    match kindOf x with
    | 4 => some (lo * 64)
    | 5 => some (bitsOf x.toNat 9 0 * 128)
    | 9 => firstDie h x
    | _ => entDie x
  else match kindOf x with
    | 0 => some (lo / 256)
    | 1 => some (lo / 8)
    | 2 => some lo
    | _ => some 8

/-- The spike test on a count of uncorroborated raises, the entities scored and the distinct places (R331). -/
def isSpike (h : Hub) (count scored places : Nat) : Bool :=
  let p := policy h
  decide (count * 65536 > max (p.spikeCount * 65536) (p.spikeFrac * scored)) && decide (places ≥ p.spikeSpread)

/-- The answer to a spike: an autonomous rollback of the slot, or the model-suspect mark (R332, R334). -/
def spikeAct (e : Env) (slot : Nat) (window : Option Word) (cause : Word) (h : Hub) : Hub :=
  let s := slotAt h slot
  let x := unitId e h 24
  if s.previous.isNone then
    onSlot slot (fun s => { s with suspect := true }) (onCasc (fun c => { c with rollbacks := c.rollbacks + 1 })
      (emitUnit 52 x 24 [w32 slot] h))
  else if !actOn h 11 4 then actRecord e 4 2 x cause h
  else
    let act := nextRseq h
    let h := actRecord e 4 1 x cause h
    if s.swap.any Swap.commanded then actDone x act 1 h
    else
      let h := swapDone e s.swap 1 h
      onSlot slot (fun s => { s with swap := some { rollback := true, commanded := false, window := window, act := some act } })
        (onCasc (fun c => { c with rollbacks := c.rollbacks + 1 }) h)

/-- Row of Table 1.7 that a verdict is: 6 for a removal, otherwise 0. -/
def rowOfVerdict (v : Nat) : Nat := if isRemoval v then 6 else 0

/-- A raise that is withheld is recorded as a recommendation (R332, R334). -/
def withhold (e : Env) (cause : Word) (c : Change) (h : Hub) : Hub :=
  actRecord e (rowOfVerdict c.new) 2 c.x cause h

/-- Apply the changes of a pass (R317, R330–R334). `spike` is the result of the spike test. -/
def applyChanges (e : Env) (slot : Nat) (window : Option Word) (spike : Bool) (cs : List Change) (h : Hub) : Hub :=
  let gone := if spike then cs.filter (uncorroborated h) else []
  let kept := cs.filter (fun c => !(spike && uncorroborated h c))
  let h := if !spike then h
    else
      let cause := nextRseq h
      let h := irq 9 (emitUnit 51 (unitId e h 24) 24 [w32 slot, w32 gone.length] h)
      spikeAct e slot window cause (gone.foldl (fun h c => withhold e cause c h) h)
  let sus := (slotAt h slot).suspect
  let held := kept.filter (fun c => sus && c.raise && decide (severity c.new > 2))
  let kept := kept.filter (fun c => !(sus && c.raise && decide (severity c.new > 2)))
  let h := held.foldl (fun h c => withhold e 0 c h) h
  let h := (kept.filter (fun c => !(c.raise && isRemoval c.new))).foldl (fun h c =>
    let v := (entity h c.x).verdict
    let h := setBase e c.x c.new 0 h
    if c.raise && decide (severity c.new ≤ severity v) then subsumed c.x c.new h else h) h
  takeRemovals e ((kept.filter (fun c => c.raise && isRemoval c.new)).map (fun c => ⟨c.x, c.new, 0, false⟩)) h

/-- The drift baselines of an entity: each channel's m_s (R301). -/
def takeBase (x : Word) (h : Hub) : Hub :=
  onCasc (fun c => { c with detect := c.detect.map (fun p =>
    if p.1 % 2 ^ 32 = x.toNat ∧ p.2.base.isNone = true ∧ p.2.first = false then (p.1, { p.2 with base := some p.2.ms }) else p) }) h

/-- After a scoring, runs of CLEAR scorings grow or restart; the thousandth in a row after allocation fixes the drift baselines (R301). -/
def noteClear (rs : List Result) (h : Hub) : Hub :=
  rs.foldl (fun h r =>
    if (resultScore h r).isNone then h
    else
      let h := onEnt r.entity (fun s => { s with clearRun := if s.verdict = 0 then s.clearRun + 1 else 0 }) h
      if (entity h r.entity).clearRun = 1000 ∧ (entJob h r.entity).isSome = true then takeBase r.entity h else h) h

/-- The verdict unit takes a pass's results (R307–R334). -/
def applyPass (e : Env) (slot : Nat) (rs : List Result) (h : Hub) : Hub :=
  let q := enterScores rs h
  let un := q.2.filter (uncorroborated q.1)
  let scored := (rs.filter (fun r => (resultScore q.1 r).isSome)).length
  let places := ((un.filterMap (fun c => placeOf e q.1 c.x)).dedup).length
  noteClear rs (applyChanges e slot none (isSpike q.1 un.length scored places) q.2 q.1)

end Sys2Proof.Machine
end

