-- ==== Sys2Proof/Machine/ScanOps.lean ====
section
/-!
DEFINITION. What happens at scoring boundaries and step boundaries: entity lists, features, detectors, in-field tests, margin probes,
the scan period, step boundaries (R287–R301, R319–R326, R362–R366).
-/
namespace Sys2Proof.Machine

/-! Entity lists (Table 8.1, R287, R288). -/

/-- The frond's entities of this die, in ascending entity ID (R287). -/
def frondEnts (e : Env) (h : Hub) : List Word :=
  ((List.range 2048).filter (fun c => e.present c && !(hubc h c).failed)).map (coreId e h) ++
  ((List.range 64).filter (fun k => (List.range 32).any (fun i => e.present (32 * k + i)))).map (ownId e h 1) ++
  ((List.range 8).filter (fun r => !e.regionAbsent r)).map (ownId e h 2) ++
  (List.range 8).map (ownId e h 6) ++ (List.range 32).map (ownId e h 7) ++ unitCodes.map (unitId e h)

/-- The replicas listed in jobs. -/
def replicaList (h : Hub) : List Word :=
  h.jobs.table.flatMap (fun j => ((j.2.dies.map (fun d => d.rep.toNat)).dedup).map (fun r => entId 9 (j.1 * 256 + r)))

/-- The rhizome's entities of this tray (Table 8.1, R302): a replica's home is the tray of its lowest-numbered die. -/
def rhizEnts (e : Env) (h : Hub) : List Word :=
  let t := (imgOf h).tray
  let link := fun d => (List.range 64).map (fun p => entId 8 (d * 2048 + p))
  let l := (trayDies h).map (fun d => entId 3 (d * 2048)) ++ [entId 4 (2 * t), entId 4 (2 * t + 1), entId 5 t] ++
    (List.range 32).map (ownId e h 7) ++ (trayDies h).flatMap link ++ (List.range 64).map (ownId e h 8) ++
    (replicaList h).filter (fun x => decide ((firstDie h x).map (· / 128) = some t)) ++
    (unitCodes.filter (fun u => !([16, 28, 32].contains u))).map (unitId e h)
  sortBy (fun a b => decide (a.toNat < b.toNat)) l

/-- The entities that this block scores. -/
def scoredEnts (e : Env) (h : Hub) : List Word := if e.tray then rhizEnts e h else frondEnts e h

/-- A core with a pending spore flag (R288). -/
def sporePending (e : Env) (h : Hub) (c : Nat) : Bool := e.present c && (hubc h c).spore && !(hubc h c).failed

/-- One that the policy lets the block score sooner (R288, Table 1.7 row 5). -/
def flagged (e : Env) (h : Hub) (c : Nat) : Bool := sporePending e h c && actOn h 0 5

/-- An entity whose verdict puts it into the quick set (R288). -/
def quickVerdict (h : Hub) (x : Word) : Bool :=
  let s := entity h x
  [2, 3, 4].contains s.verdict || (match s.test with
    | some t => t.overdue
    | none => false)

/-- The cores of the quick set (R288). -/
def quickCores (e : Env) (h : Hub) : List Nat :=
  (List.range 2048).filter (fun c => flagged e h c || (e.present c && !(hubc h c).failed && quickVerdict h (coreId e h c)))

/-- The quick pass's entities: at most 32 cores of each region (Table 8.13), and the other entities of the set. -/
def quickEnts (e : Env) (h : Hub) : List Word :=
  let cs := quickCores e h
  ((List.range 8).flatMap (fun r => (cs.filter (fun c => decide (regionOf c = r))).take 32)).map (coreId e h) ++
    (frondEnts e h).filter (fun x => decide (kindOf x ≠ 0) && quickVerdict h x)

/-- The slot that serves a stage (R286). -/
def stageSlot (h : Hub) (s : Stage) : Option Nat := ((imgOf h).ensembles.find? (fun x => x.stage == s)).map EnsSection.slot

/-! The scan period (R290–R292). -/

/-- P changes: recorded, and the count of fast passes restarts (R291). -/
def setPeriod (p : Nat) (h : Hub) : Hub :=
  if h.casc.p = p then h
  else onCasc (fun c => { c with p := p, fastRun := 0 }) (emitState 4 [w32 h.casc.p, w32 p] h)

/-- A full pass is judged against the P it was requested under (R291): overrun, fast, or neither. -/
def judgePass (e : Env) (p : Pass) (h : Hub) : Hub :=
  let now := nowNs h
  if p.tb + p.period < now then
    let h := overrunAt e p (p.tb + p.period) h
    if serving h then setPeriod (min 10000000 (2 * h.casc.p)) (onCasc (fun c => { c with fastRun := 0 }) h) else h
  else if 2 * (now - p.tb) ≤ p.period then
    let n := h.casc.fastRun + 1
    if n ≥ 64 ∧ serving h = true then setPeriod (max (policy h).pcfg (h.casc.p / 2)) (onCasc (fun c => { c with fastRun := 0 }) h)
    else onCasc (fun c => { c with fastRun := n }) h
  else onCasc (fun c => { c with fastRun := 0 }) h

/-- The tenant slots, pages and rows of jobs that have ended are freed, and the release is recorded (R280). -/
def releaseJobs (h : Hub) : Hub :=
  h.ens.releasing.foldl (fun h j =>
    let keep := fun (q : Quota) => decide (q.job ≠ j)
    let h := onEns (fun s => { s with
      slots := s.slots.map (fun x => if x.job = some j then {} else x)
      tenant := s.tenant.filter (fun p => decide (p.1 / 65536 ≠ j.toNat)), quotas := s.quotas.filter keep
      releasing := s.releasing.filter (fun k => decide (k ≠ j)) }) h
    let h := onCasc (fun c => { c with
      policy := { c.policy with quotas := c.policy.quotas.filter keep }
      next := c.next.map (fun p => { p with quotas := p.quotas.filter keep }) }) h
    emitUnit 74 (entId 10 j.toNat) 24 [j.setWidth 32] h) h

/-- The policy that waits takes effect (R291, R312), with the quotas and their slots (R277). -/
def takePolicy (h : Hub) : Hub :=
  let h := releaseJobs h
  match h.casc.next with
  | none => h
  | some p =>
    let old := h.casc.policy
    let h := onCasc (fun c => { c with policy := p, next := none }) h
    let h := onEns (fun s => { s with
      quotas := p.quotas
      slots := (s.slots.zipIdx).map (fun x => { x.1 with job := (p.quotas.find? (fun q => q.slots.contains x.2)).map Quota.job }) }) h
    if p.pcfg ≠ old.pcfg ∧ serving h = true then setPeriod p.pcfg h else h

/-! Detectors (R293–R299). -/

/-- The channel table in force. -/
def detectorsNow (h : Hub) : List Detector := (policy h).detectors.getD (imgOf h).detectors

/-- Key of a channel's figures for an entity. -/
def detKey (ch : Nat) (x : Word) : Nat := ch * 2 ^ 32 + x.toNat
/-- A channel's figures for an entity. -/
def detState (h : Hub) (ch : Nat) (x : Word) : DetState := Tab.getD h.casc.detect (detKey ch x) {}

/-- A value times a rational, rounded once to binary32. -/
def scaleRat (v : Flt) (n d : Nat) : Word :=
  match v with
  | .fin s m ex => if ex ≥ 0 then BitVec.ofNat 32 (f32.roundRat s (m * 2 ^ ex.toNat * n) d) else BitVec.ofNat 32 (f32.roundRat s (m * n) (d * 2 ^ (-ex).toNat))
  | w => enc32 w

/-- The sample of a channel for an entity, and the count it was taken from (R294). A core's counter differences come from the
snapshots accepted since the boundary before. -/
def detSample (e : Env) (h : Hub) (d : Detector) (x : Word) (s : DetState) : Option Word × Nat :=
  if d.source < 64 then
    match ownCore e h x with
    | none => (none, 0)
    | some c =>
      let y := hubc h c
      let r := region h (regionOf c)
      let n := if d.source = 35 then y.stretchDelta else getAt y.delta d.source 0
      if d.level then (some (int32f (if d.source = 35 then (r.stretched : Int) else ((getAt y.snap d.source 0).toNat : Int))), 0)
      else if y.deltaNs = 0 then (none, 0)
      else (some (ratio32 ((n : Int) * 1000) y.deltaNs), 0)
  else
    let w := featRead h x (d.source - 64)
    if d.level then (some w, 0)
    else if s.prevTb = 0 ∨ nowNs h ≤ s.prevTb then (none, w.toNat)
    else (some (scaleRat ((dec32 w).add (dec32 (BitVec.ofNat 32 s.prev)).neg) 1000 (nowNs h - s.prevTb)), w.toNat)

/-- max(0, v) in binary32. -/
def relu32 (v : Word) : Word := if (dec32 v).isNan then v else if (Flt.ofInt 0).lt (dec32 v) then v else 0

/-- Add one to an alarm count, which stays at 2^24 (R295). -/
def alarmUp (n : Nat) : Nat := min (n + 1) (2 ^ 24)

/-- The histogram bin of a positive sample (R297). -/
def histBin (d : Detector) (v : Flt) : Nat :=
  match v with
  | .fin _ m ex => min (d.b - 1) (((Nat.log2 m : Nat) : Int) + ex - d.e0).toNat
  | _ => d.b - 1

/-- One sample into a channel's figures (R294–R297). -/
def detUpdate (d : Detector) (v : Word) (s : DetState) : DetState :=
  let x := dec32 v
  if x.isNan then s
  else
    let s1 :=
      if s.first || (s.restart && x.isFin) then { s with mf := v, ms := v, sp := 0, sm := 0, first := false }
      else
        let z := sub32 v s.ms
        let sp := relu32 (sub32 (add32 s.sp z) d.k)
        let sm := relu32 (sub32 (sub32 s.sm z) d.k)
        let w := fun (a : Nat) => enc32 (.fin false 1 (-(a : Int)))
        let h := dec32 d.hlev
        { s with
          mf := add32 s.mf (mul32 (sub32 v s.mf) (w d.aFast)), ms := add32 s.ms (mul32 (sub32 v s.ms) (w d.aSlow))
          sp := if h.lt (dec32 sp) then 0 else sp, sm := if h.lt (dec32 sm) then 0 else sm
          up := if h.lt (dec32 sp) then alarmUp s.up else s.up, down := if h.lt (dec32 sm) then alarmUp s.down else s.down }
    let hs := if s1.hist.isEmpty then List.replicate d.b 0 else s1.hist
    { s1 with
      restart := !x.isFin
      hist := if d.hist && (Flt.ofInt 0).lt x then addAt hs (histBin d x) 1 else s1.hist }

/-- The eight feature words of a channel (R299). -/
def detWords (d : Detector) (s : DetState) : List Word :=
  [s.mf, s.ms, s.sp, s.sm, int32f s.up, int32f s.down, if d.hist then s.p50 else missing, if d.hist then s.p99 else missing]

/-- The drift feature (Table 8.3): m_s over the baseline, less one. -/
def driftWord (s : DetState) : Word :=
  match s.base with
  | none => missing
  | some b => if div32 s.ms b = missing then missing else sub32 (div32 s.ms b) 0x3F800000

/-- A scoring boundary for one entity of a channel. -/
def detEntity (e : Env) (i : Nat) (d : Detector) (x : Word) (h : Hub) : Hub :=
  let s := detState h i x
  let q := detSample e h d x s
  let stopped := match kindOf x with
    | 0 => (region h (bitsOf x.toNat 10 8)).stopSeen
    | 1 => (region h (bitsOf x.toNat 5 3)).stopSeen
    | 2 => (region h (bitsOf x.toNat 2 0)).stopSeen
    | _ => false
  let s := match q.1 with
    | some v => if stopped then s else detUpdate d v s
    | none => s
  let s := { s with prev := q.2, prevTb := nowNs h }
  let h := featWrites e x d.fbase (detWords d s) (onCasc (fun c => { c with detect := Tab.put c.detect (detKey i x) s }) h)
  if d.drift then featWrite e x (imgOf h).features.drift (driftWord s) h else h

/-- The detectors at a scoring boundary. -/
def detBoundary (e : Env) (xs : List Word) (h : Hub) : Hub :=
  (detectorsNow h).zipIdx.foldl (fun h d => (xs.filter (fun x => decide (kindOf x = d.1.kind))).foldl (fun h x => detEntity e d.2 d.1 x h) h) h

/-- The lower edge of the bin that holds the sample of rank ceil(q × n), q = num / den (R297). -/
def histQuantile (d : Detector) (hs : List Nat) (num den : Nat) : Word :=
  let n := hs.sum
  if n = 0 then missing
  else
    let rank := (num * n + den - 1) / den
    let i := (hs.foldl (fun (a : Nat × Nat × Bool) k =>
      if a.2.2 then a else if a.2.1 + k ≥ rank then (a.1, a.2.1, true) else (a.1 + 1, a.2.1 + k, false)) (0, 0, false)).1
    enc32 (.fin false 1 (d.e0 + (i : Int)))

/-- At a window's end each channel with a histogram computes its quantiles and clears it (R298). -/
def detWindow (h : Hub) : Hub :=
  let ds := detectorsNow h
  onCasc (fun c => { c with detect := c.detect.map (fun p =>
    match ds[p.1 / 2 ^ 32]? with
    | some d => if d.hist then (p.1, { p.2 with p50 := histQuantile d p.2.hist 1 2, p99 := histQuantile d p.2.hist 99 100, hist := [] }) else p
    | none => p) }) h

/-- The histogram that a channel contributes to a HIST_ADD round, in its `b` bins: the sum over its entities (R298). -/
def detHist (h : Hub) (i : Nat) (b : Nat) : List Nat :=
  (h.casc.detect.filter (fun p => decide (p.1 / 2 ^ 32 = i))).foldl (fun a p => List.zipWith (· + ·) a (p.2.hist ++ List.replicate (b - p.2.hist.length) 0))
    (List.replicate b 0)

/-! Features of the update phase (R192, R193, R262, R300). -/

/-- The lower median of binary32 values (R300). -/
def median32 (l : List Word) : Option Word :=
  (sortBy (fun a b => (dec32 a).lt (dec32 b)) l)[(l.length + 1) / 2 - 1]?

/-- Cores whose region was not stopped in the period. -/
def runningCores (e : Env) (h : Hub) : List Nat :=
  (List.range 2048).filter (fun c => e.present c && !(hubc h c).failed && !(region h (regionOf c)).stopSeen)

/-- The busy-ratio feature of every core, against the median over the running ones (Table 8.3). -/
def busyRatios (e : Env) (h : Hub) : Hub :=
  match (detectorsNow h).zipIdx.find? (fun d => decide (d.1.kind = 0) && !d.1.level && decide (d.1.source = 1)) with
  | none => h
  | some d =>
    let cs := runningCores e h
    let all := (List.range 2048).filter (fun c => e.present c && !(hubc h c).failed)
    let job := (jobOfDie h (dieNo e h)).isSome
    let med := if job then median32 ((cs.map (fun c => detState h d.2 (coreId e h c))).filter (fun s => !s.first) |>.map DetState.mf) else none
    all.foldl (fun h c =>
      let s := detState h d.2 (coreId e h c)
      featWrite e (coreId e h c) (imgOf h).features.busyRatio (match med with
        | some m => if s.first then missing else div32 s.mf m
        | none => missing) h) h

/-- Elapsed, busy and weight-wait cycles that the snapshots of some cores brought since the boundary before. -/
def deltaSum (h : Hub) (cs : List Nat) (i : Nat) : Nat := (cs.map (fun c => getAt (hubc h c).delta i 0)).sum

/-- A region's busy band, droop bit and stretch share at a scan boundary (Table 8.3, Table 9.2). -/
def regionFigures (e : Env) (r : Nat) (h : Hub) : Hub :=
  let cs := regionCores e r
  let el := deltaSum h cs 0
  let bu := deltaSum h cs 1
  let st := (cs.map (fun c => (hubc h c).stretchDelta)).sum
  let h := featWrite e (ownId e h 2 r) (imgOf h).features.stretch (ratio32 st (el + st)) h
  let h := onZone r (fun z => { z with busyBand := busyBandOf bu el, droopBit := z.droopNow, droopNow := false }) h
  onRegion r (fun x => { x with elapsedPeriod := el, busyPeriod := bu }) h

/-- Weight-link features of the period, and its figures cleared (R192, R193). -/
def linkFeatures (e : Env) (h : Hub) : Hub :=
  let wait := deltaSum h ((List.range 2048).filter e.present) 4
  let ls := h.dig.links.zipIdx
  let opn := ls.filter (fun l => l.1.wasOpen)
  let who := (if opn.isEmpty then ls.filter (fun l => l.1.lastEpoch.isSome && decide (l.1.lastEpoch = h.dig.newer.map Epoch.num)) else opn).map Prod.snd
  let share := fun l => if who.contains l then wait / who.length + (if who.head? = some l then wait % who.length else 0) else 0
  let still := fun l => h.dig.ingress.open_.any (fun d => decide (d.link = l))
  let h := ls.foldl (fun h l => featWrites e (ownId e h 6 l.2) (imgOf h).features.link
    ([l.1.elements, l.1.deliveries, share l.2, l.1.gap, l.1.invalid, l.1.repeats, l.1.stale].map (fun n => int32f (n : Int))) h) h
  onDig (fun d => { d with links := ls.map (fun l => { wasOpen := still l.2, lastEpoch := l.1.lastEpoch, wait := share l.2 }) }) h

/-- The count differences of a core (Table 1.6), written and taken out. -/
def coreCounts (e : Env) (c : Nat) (h : Hub) : Hub :=
  let x := hubc h c
  if x.deltaNs = 0 ∨ x.failed = true then h
  else featWrites e (coreId e h c) (imgOf h).features.counts
    ((x.delta ++ [x.stretchDelta]).map (fun n => int32f (n : Int))) h

/-- The counts of R150 as a core's residue features; those of outcomes are also written as each occurs (log 84). -/
def residueFeatures (e : Env) (c : Nat) (h : Hub) : Hub :=
  featWrites e (coreId e h c) (imgOf h).features.residue ((hubc h c).counts.map (fun n => int32f (n : Int))) h

/-- The update phase of a scan boundary (R262): features of counts, tiles and audits, links, detectors and derived features. -/
def scanFeatures (e : Env) (h : Hub) : Hub :=
  let cs := (List.range 2048).filter e.present
  let h := cs.foldl (fun h c => residueFeatures e c (coreCounts e c h)) h
  let h := linkFeatures e h
  let h := detBoundary e (frondEnts e h) h
  let h := busyRatios e h
  let h := ((List.range 8).filter (fun r => !e.regionAbsent r)).foldl (fun h r => regionFigures e r h) h
  cs.foldl (fun h c => onHubc c (fun x => { x with delta := List.replicate 35 0, deltaNs := 0, stretchDelta := 0 }) h) h

/-! Regions at a scan boundary (R68, R96, R99, Table 3.10). -/

/-- A region level that has sent nothing for two scan periods is at fault, and is initialised again at the next boundary:
its reset epoch restarts at 0 (R44) and what is crossing is discarded (R48). -/
def regionHealth (e : Env) (r : Nat) (h : Hub) : Hub :=
  let x := region h r
  if x.fault then
    (regionCores e r).foldl (fun h c => onHubc c (fun y => { y with based := false }) h)
      (onRegion r (fun x => { x.dropCrossing with fault := false, silent := 0, epoch := 0, hubEpoch := 0 }) h)
  else
    let n := if x.edges && !x.answered then x.silent + 1 else 0
    let h := onRegion r (fun x => { x with silent := n }) h
    if n ≥ 2 then unitFlag e (unitId e h 16) (unitFault e 16 3 2 (ownId e h 2 r) [w32 r] (onRegion r (fun x => { x with fault := true }) h)) else h

/-- The snapshot request of a scan boundary, and the period's figures of the region begun again. -/
def regionScan (e : Env) (r : Nat) (h : Hub) : Hub :=
  let h := regionHealth e r h
  let h := onRegion r (fun x => { x with
    wasStopped := x.stopSeen, stopSeen := x.stopped, stretchPeriod := 0, edges := false, answered := false }) h
  let x := region h r
  if x.stopped || x.fault then h
  else if !x.collect.isEmpty then onRegion r (fun x => { x with again := true, late := true }) h
  else beginFull e r false h

/-! In-field tests (R319–R326). -/

/-- Cores held for test (R322). -/
def testsRunning (h : Hub) : Nat := (h.casc.ents.filter (fun p => p.2.test.any (fun t => t.running.isSome))).length

/-- The region of a core lies in a condition cell (R326). -/
def inCondition (e : Env) (h : Hub) (c : Nat) (cond : Nat × Nat) : Bool :=
  let b := regionBin e h (regionOf c)
  decide (b / 64 = cond.1) && decide (b % 8 = cond.2)

/-- A due test starts (R323): the core is held, and the host is sent the test notice. -/
def startTest (e : Env) (c : Nat) (t : TestDue) (h : Hub) : Hub :=
  let x := coreId e h c
  let h := match t.act with
    | some a => actDone x a 0 h
    | none => h
  let late := t.cond.isSome && decide (t.deadline ≤ nowNs h)
  let h := if late then emitUnit 56 x 0 [w32 c] h else h
  let cond := if late then none else t.cond
  let q := h.casc.testSeq + 1
  let h := onCasc (fun c => { c with testSeq := q }) h
  let h := onEnt x (fun s => { s with test := some { t with running := some (q, nowNs h + (policy h).testHold), cond := cond, act := none } }) h
  let h := refreshHold e c h
  let words := [x, q, t.ident] ++ (match cond with
    | some p => [w32 (p.1 * 8 + p.2)]
    | none => []) ++ w64 (policy h).testHold
  sendNotice 0x75 words h

/-- Start due tests in order of deadline and core number, within the concurrency (R320, R322, R326). At a step boundary every due core
may start; at a scan boundary only those of a die in no job, and those whose deferral the policy disables. -/
def startTests (e : Env) (step : Bool) (h : Hub) : Hub :=
  let idle := (jobOfDie h (dieNo e h)).isNone
  let l := (List.range 2048).filterMap (fun c => if !e.present c then none else match (entity h (coreId e h c)).test with
    | some t =>
      let ready := t.running.isNone && (step || idle || !t.defer) &&
        (match t.cond with
          | some p => inCondition e h c p || decide (t.deadline ≤ nowNs h)
          | none => true)
      if ready then some (c, t) else none
    | none => none)
  let l := sortBy (fun (a b : Nat × TestDue) => decide (a.2.deadline < b.2.deadline) || (decide (a.2.deadline = b.2.deadline) && decide (a.1 < b.1))) l
  (l.take ((policy h).concurrency - testsRunning h)).foldl (fun h p => startTest e p.1 p.2 h) h

/-- A test that ends without a result stays due (R324). -/
def abortTest (e : Env) (c : Nat) (h : Hub) : Hub :=
  let x := coreId e h c
  refreshHold e c (onEnt x (fun s => { s with test := s.test.map (fun t => { t with running := none }) }) (emitUnit 57 x 0 [w32 c] h))

/-- A completed test (R325): 0 PASS, 1 FAIL. -/
def endTest (e : Env) (c : Nat) (fail : Bool) (h : Hub) : Hub :=
  let x := coreId e h c
  let now := nowNs h
  let h := emitUnit 54 x 0 [w32 c, w32 (b2n fail)] h
  let h := histCore c (regionBin e h (regionOf c)) (if fail then .tfail else .tpass) 1 now h
  let h := onHubc c (fun y => { y with lastTest := now }) h
  let h := if fail then setFloor x 5 now h else h
  let h := onEnt x (fun s => { s with test := none }) h
  let h :=
    if fail then
      let r := boundaryRemoval h x
      takeRemovals e (r.2.map (fun q => { q with cause := if q.pending then q.cause else 4 })) r.1
    else if (entity h x).verdict = 4 then setBase e x 1 4 h
    else h
  refreshHold e c h

/-- The core whose running test has a sequence number. -/
def testCore (e : Env) (h : Hub) (q : Word) : Option (Nat × Nat) :=
  (h.casc.ents.findSome? (fun p => match p.2.test with
    | some t => (match t.running with
      | some (n, lim) => if n = q then (ownCore e h (BitVec.ofNat 32 p.1)).map (fun c => (c, lim)) else none
      | none => none)
    | none => none))

/-! Margin probes (R362–R366). -/

/-- A region's planned frequency in MHz. -/
def plannedMhz (h : Hub) (r : Nat) : Nat :=
  let f := getAt h.time.mhz r 1600
  let cap := (zone h r).current.fcap
  if cap = 0 then f else min f cap

/-- A core may be probed (R362). -/
def probeReady (e : Env) (h : Hub) (c : Nat) : Bool :=
  e.present c && (jobOfDie h (dieNo e h)).isNone && decide ((entity h (coreId e h c)).verdict ≤ 1) && !(region h (regionOf c)).stopped &&
    !probing h c && !testHeld e h c && (decide ((hubc h c).lastProbe = 0) || decide ((hubc h c).lastProbe + h.age.probeInt ≤ nowNs h))

/-- A probe starts: the core is held, and the probe notice goes out (R363). -/
def startProbe (e : Env) (c : Nat) (h : Hub) : Hub :=
  let x := coreId e h c
  let f := plannedMhz h (regionOf c)
  let h := onHubc c (fun y => { y with lastProbe := nowNs h }) h
  autoAct e 7 0 x 0 (fun h =>
    let q := h.casc.testSeq + 1
    let h := onCasc (fun c => { c with testSeq := q }) h
    let h := { h with age := { h.age with probes := h.age.probes ++ [{ core := c, seq := q, notice := nowNs h, base := f }] } }
    sendNotice 0x80 ([x, q] ++ (List.range 8).map (fun i => w32 (f + 25 * i))) (refreshHold e c h)) h

/-- Probes start at a scan boundary, longest since the last probe first (R362). -/
def startProbes (e : Env) (h : Hub) : Hub :=
  let l := sortBy (fun a b => decide ((hubc h a).lastProbe < (hubc h b).lastProbe)) ((List.range 2048).filter (probeReady e h))
  (l.take (h.age.probeConc - h.age.probes.length)).foldl (fun h c => startProbe e c h) h

/-- A probe closed as incomplete: the hold is released (R364, R366). -/
def closeProbe (e : Env) (p : Probe) (h : Hub) : Hub :=
  let h := { h with age := { h.age with probes := h.age.probes.filter (fun q => decide (q.seq ≠ p.seq)) } }
  refreshHold e p.core (emitUnit 58 (coreId e h p.core) 12 [p.seq] h)

/-- A core that a job has claimed leaves its probe at the scan boundary (R366). -/
def claimedProbes (e : Env) (h : Hub) : Hub :=
  if (jobOfDie h (dieNo e h)).isSome then h.age.probes.foldl (fun h p => closeProbe e p h) h else h

/-! Step boundaries (R320, R338). -/

/-- A shadow whose run of matches has reached the promotion count is promoted (R338). -/
def promote (e : Env) (s : Shadow) (h : Hub) : Hub :=
  let x := entId 9 (s.job.toNat * 256 + s.rep.toNat)
  let h := onCasc (fun c => { c with shadows := c.shadows.filter (fun q => !(decide (q.job = s.job) && decide (q.rep = s.rep))) }) h
  let h := { h with jobs := { h.jobs with table := h.jobs.table.map (fun j =>
    if j.1 = s.job.toNat then (j.1, { j.2 with dies := j.2.dies.map (fun d => if d.rep = s.rep then { d with shadow := false, out := false } else d) }) else j) } }
  let h := onCasc (fun c => { c with detect := c.detect.map (fun p => if p.1 % 2 ^ 32 = x.toNat then (p.1, { p.2 with base := none }) else p) }) h
  let h := setBase e x 1 5 (onEnt x (fun y => { y with clearRun := 0 }) h)
  report 0 .promotion x [s.job.toNat, s.rep.toNat] h

/-- Promotions due. -/
def promotions (e : Env) (h : Hub) : Hub :=
  (h.casc.shadows.filter (fun s => decide (s.run ≥ (policy h).promotion))).foldl (fun h s => promote e s h) h

/-- A step boundary of the die's job: the completion of DIG_EPOCH OPEN (R320, R322, R338). -/
def stepBoundary (e : Env) (h : Hub) : Hub :=
  startTests e true (promotions e h)

/-! After a scoring (R88, R289). -/

/-- Flags with AUTOCLR whose condition was false at its latest evaluation are cleared after a scoring; a core without a flag leaves the
quick set. -/
def autoClear (e : Env) (c : Nat) (h : Hub) : Hub :=
  let x := cell h c
  let bits := (((x.rules.zipIdx).filter (fun r => x.flags.getLsbD r.2 && r.1.autoclr && !r.1.last)).map (fun r => 2 ^ r.2)).sum
  let h := if bits = 0 then h else (sendCell e c (.flags (BitVec.ofNat 8 bits)) h).1
  if (hubc h c).spore ∧ (cell h c).flags = 0 then
    featWrite e (coreId e h c) (imgOf h).features.sporeFlag (int32f 0) (onHubc c (fun x => { x with spore := false, quickAct := false }) h)
  else h

end Sys2Proof.Machine
end

