-- ==== Sys2Proof/Machine/CascCmds.lean ====
section
/-!
DEFINITION. The commands of the verdict unit, the scan and quick boundaries, the expiries of floors, probations and tests, and
DIG_EPOCH OPEN (R179–R183, R287–R292, R312–R326, R335, R340).
-/
namespace Sys2Proof.Machine

/-! POLICY_SET (R312, R645). -/

/-- One minute, one hour and one day in ns. -/
def nsMin : Nat := 60000000000
/-- One hour in ns. -/
def nsHour : Nat := 3600000000000
/-- One day in ns. -/
def nsDay : Nat := 86400000000000

/-- A policy row from its nine words (Table 8.7). -/
def rowOfWords (v : List Word) : Option PolicyRow :=
  match v.map BitVec.toNat with
  | [a, b, c, d, f, up, down, hy, en] =>
    if a ≤ b ∧ b ≤ c ∧ c ≤ d ∧ d ≤ f ∧ f ≤ 1024 ∧ 1 ≤ up ∧ up ≤ 255 ∧ 1 ≤ down ∧ down ≤ 65535 ∧ hy ≤ 255 ∧ en ≤ 255 then
      some { watch := a, suspect := b, test := c, fence := d, expel := f, dwellUp := up, dwellDown := down, hyst := hy, enable := BitVec.ofNat 8 en }
    else none
  | _ => none

/-- Governor budgets and windows from nine words. -/
def governOf (v : List Word) : Option (List (Nat × Nat)) :=
  match v.map BitVec.toNat with
  | [a, a1, a0, b, b1, b0, c, c1, c0] =>
    let l := [(a, a1 * 2 ^ 32 + a0), (b, b1 * 2 ^ 32 + b0), (c, c1 * 2 ^ 32 + c0)]
    if l.all (fun p => decide (p.1 ≤ 256) && decide (nsMin ≤ p.2) && decide (p.2 ≤ 30 * nsDay)) then some l else none
  | _ => none

/-- Quotas of jobs from groups of five words: job, arrays, pages, rows, slot mask. DESIGN CHOICE (log 42). -/
def quotasOf : List Word → Option (List Quota)
  | [] => some []
  | a :: b :: c :: d :: m :: t =>
    if a.toNat < 65536 ∧ m.toNat < 65536 then
      (quotasOf t).map (fun l => {
        job := a.setWidth 16, arrays := b.toNat, pages := c.toNat, rows := d.toNat
        slots := (List.range 16).filter (fun i => bitOf m.toNat i) } :: l)
    else none
  | _ => none

/-- Put quotas in place of those of the same jobs. -/
def mergeQuotas (old new : List Quota) : List Quota := old.filter (fun q => !new.any (fun n => decide (n.job = q.job))) ++ new

/-- No slot is assigned to two jobs. -/
def slotsDistinct (l : List Quota) : Bool := decide ((l.flatMap Quota.slots).Nodup)

/-- Kinds that a role scores (Table 8.1). -/
def kindScored (tray : Bool) (k : Nat) : Bool := if tray then [3, 4, 5, 7, 8, 9, 11].contains k else [0, 1, 2, 6, 7, 11].contains k

/-- A number of Table 8.2 that is finite and not negative. -/
def finitePos (w : Word) : Bool := (dec32 w).isFin && (w == 0x80000000 || !bitOf w.toNat 31)

/-- A detector channel within the ranges of Table 8.2 (R293): the counters are metrics of cores alone. -/
def detectorOk (d : Detector) : Bool :=
  ((decide (d.kind = 0) && decide (d.source ≤ 35)) || (decide (64 ≤ d.source) && decide (d.source ≤ 319))) && decide (1 ≤ d.aFast) &&
    decide (d.aFast < d.aSlow) && decide (d.aSlow ≤ 15) && finitePos d.k && finitePos d.hlev && (!d.hist || decide (1 ≤ d.b)) && decide (d.b ≤ 64) &&
    decide (-256 ≤ d.e0) && decide (d.e0 ≤ 255) && decide (d.fbase ≤ 232)

/-- A channel table: 32 channels, 4 of them with histograms (Table 8.13). -/
def detectorsOk (l : List Detector) : Bool := l.all detectorOk && decide (l.length ≤ 32) && decide ((l.filter Detector.hist).length ≤ 4)

/-- Detector channels from groups of twelve words: kind, mode, source, a_f, a_s, K, H, histogram, bins, E0, drift, first feature
(Table 8.2, R293). DESIGN CHOICE (log 42). -/
def detectorsOf : Nat → List Word → Option (List Detector)
  | _, [] => some []
  | 0, _ => none
  | n + 1, k :: lv :: s :: af :: a :: kk :: hh :: hi :: b :: e0 :: dr :: fb :: t =>
    if lv.toNat ≤ 1 ∧ hi.toNat ≤ 1 ∧ dr.toNat ≤ 1 then
      (detectorsOf n t).map (fun l => {
        kind := k.toNat, level := decide (lv = 1), source := s.toNat, aFast := af.toNat, aSlow := a.toNat, k := kk, hlev := hh
        hist := decide (hi = 1), b := b.toNat, e0 := signed 32 e0.toNat, drift := decide (dr = 1), fbase := fb.toNat } :: l)
    else none
  | _, _ => none

/-- POLICY_SET settings (Tables 8.8 and 8.14; 46 and 47 are the model's own, log 42). -/
def polSetting (num : Nat) (v : List Word) (p : Policy) : Option Policy :=
  match num with
  | 1 => (within 5000 10000000 (two v)).map (fun n => { p with pcfg := n })
  | 2 => (within 5000 10000000 (two v)).map (fun n => { p with quick := n })
  | 3 => (within 0 15 (one v)).map (fun n => { p with healthOut := n })
  | 4 => (within 0 1024 (one v)).map (fun n => { p with gate := some n })
  | 5 => (within nsMin (7 * nsDay) (two v)).map (fun n => { p with probation := n })
  | 6 => (within nsMin (30 * nsDay) (two v)).map (fun n => { p with floorHold := n })
  | 7 => (within nsMin nsDay (two v)).map (fun n => { p with deferral := n })
  | 8 => (within 10000000 60000000000 (two v)).map (fun n => { p with testHold := n })
  | 9 => (within 1 2048 (one v)).map (fun n => { p with concurrency := n })
  | 10 => (two v).bind (fun n => if n = 0 ∨ (nsHour ≤ n ∧ n ≤ 90 * nsDay) then some { p with periodic := n } else none)
  | 11 => (governOf v).map (fun l => { p with govern := l })
  | 12 => match v.map BitVec.toNat with
    | [a, b, c] =>
      if 1 ≤ a ∧ a ≤ 65535 ∧ 66 ≤ b ∧ b ≤ 65536 ∧ 1 ≤ c ∧ c ≤ 64 then some { p with spikeCount := a, spikeFrac := b, spikeSpread := c } else none
    | _ => none
  | 13 => (within 64 1024 (one v)).map (fun n => { p with promotion := n })
  | 14 => (within 1 64 (one v)).map (fun n => { p with missLimit := n })
  | 44 => if v.length = 4 ∧ v.all (fun w => decide (w.toNat ≤ 6)) then some { p with floors := v.map BitVec.toNat } else none
  | 45 => if v.length = 5 ∧ v.all (fun w => decide (4 ≤ w.toNat) && decide (w.toNat ≤ 20)) then some { p with exponents := v.map BitVec.toNat } else none
  | 46 => (quotasOf v).map (fun l => { p with quotas := mergeQuotas p.quotas l })
  | 47 => (detectorsOf v.length v).bind (fun l => if detectorsOk l then some { p with detectors := some l } else none)
  | n => if 32 ≤ n ∧ n ≤ 43 then (rowOfWords v).map (fun r => { p with rows := setAt p.rows (n - 32) r }) else none

/-- Every channel of a policy follows a kind that the block's role scores (Table 8.2). -/
def kindsFit (e : Env) (p : Policy) : Bool := (p.detectors.getD []).all (fun d => kindScored e.tray d.kind)

/-- The policy that a POLICY_SET starts from: the one that waits, or the one in force. -/
def polBase (h : Hub) : Policy := h.casc.next.getD (policy h)

/-- POLICY_SET -/
def opPolicySet : OpDef := {
  code := 0x70, changes := true, may := fleetDom, runs := ensRuns, form := fun c => decide (1 ≤ c.words.length)
  range := fun e h c => (badSet (c.settings 1 polSetting (polBase h))).or
    (let p := setOr (polBase h) (c.settings 1 polSetting (polBase h))
     if p.quick ≤ p.pcfg ∧ slotsDistinct p.quotas = true ∧ kindsFit e p = true then none else some 0)
  act := fun _ h c =>
    let p := setOr (polBase h) (c.settings 1 polSetting (polBase h))
    if (p.quotas.map Quota.arrays).sum > 8 ∨ (p.quotas.map Quota.pages).sum > 128 ∨ (p.quotas.map Quota.rows).sum > 2048 then refuse stNoSpace h
    else ok [] (onCasc (fun x => { x with next := some p }) h) }

/-- POLICY_SET (R312, R645): the policy takes effect at the next scoring boundary. -/
def execPolicySet (c : Cmd) (s : State) : Host.Outcome State Fault Refusal := s.runOp opPolicySet c

/-! FENCE, UNFENCE, EXPEL (R315, R328, R340). -/

/-- The block judges this entity: a core that is present, or another entity that it scores. -/
def ownsEnt (e : Env) (h : Hub) (x : Word) : Bool :=
  if kindOf x = 0 then (presentCore e h x).isSome else judges e x && (scoredEnts e h).contains x

/-- The one entity that a command names: its form. -/
def entRange (h : Hub) (c : Ctx) : Option Nat := if entOk h (c.w 1) then none else some 1

/-- A commanded removal (R26, R328): never refused by the governor, and counted. -/
def cmdRemove (e : Env) (x : Word) (v : Nat) (h : Hub) : Hub :=
  let h := endPending x 1 (noteCmd x h)
  removeNow e x (worse (if isRemoval (entity h x).verdict then (entity h x).verdict else 0) v) 3 h

/-- FENCE -/
def opFence : OpDef := {
  code := 0x71, changes := true, may := fleetDom, runs := ensRuns, form := fun c => decide (c.words.length = 1)
  range := fun _ h c => if kindOf (c.w 1) = 9 ∨ kindOf (c.w 1) = 10 then some 1 else entRange h c
  act := fun e h c => if ownsEnt e h (c.w 1) then okCross h [] (cmdRemove e (c.w 1) 5 h) else refuse stNotFound h 1 }

/-- FENCE (R328, R340). -/
def execFence (c : Cmd) (s : State) : Host.Outcome State Fault Refusal := s.runOp opFence c

/-- EXPEL -/
def opExpel : OpDef := {
  code := 0x73, changes := true, may := fleetDom, runs := ensRuns, form := fun c => decide (c.words.length = 1)
  range := fun _ h c => if kindOf (c.w 1) = 10 then some 1 else entRange h c
  act := fun e h c => if ownsEnt e h (c.w 1) then okCross h [] (cmdRemove e (c.w 1) 6 h) else refuse stNotFound h 1 }

/-- EXPEL (R328, R340). -/
def execExpel (c : Cmd) (s : State) : Host.Outcome State Fault Refusal := s.runOp opExpel c

/-- End the floors whose outcome lies before now, recording each; later observations start afresh (R27, R315). -/
def endFloors (x : Word) (h : Hub) : Hub :=
  let old := (entity h x).floors.filter (fun f => decide (f.tb < nowNs h))
  let h := old.foldl (fun h f => emitUnit 53 x 0 (w32 f.verdict :: w64 f.tb) h) h
  onEnt x (fun s => { s with
    floors := s.floors.filter (fun f => decide (nowNs h ≤ f.tb)), cmdTb := some (nowNs h), up := [0, 0, 0, 0, 0], calm := 0 }) h

/-- UNFENCE -/
def opUnfence : OpDef := {
  code := 0x72, changes := true, may := fleetDom, runs := ensRuns, form := fun c => decide (c.words.length = 1)
  range := fun _ h c => entRange h c
  act := fun e h c =>
    let x := c.w 1
    if !ownsEnt e h x then refuse stNotFound h 1
    else if kindOf x = 9 ∨ isRemoval (entity h x).verdict = false then refuse stWrongState h 1
    else
      let h1 := endFloors x (noteCmd x h)
      let h := setVerdict e x 3 3 (onEnt x (fun s => { s with scoreV := 3, down := 0 }) h1)
      okCross h1 [] (match ownCore e h x with
        | some c => onHubc c (fun y => { y with exponent := none }) h
        | none => h) }

/-- UNFENCE (R27, R155, R315, R340). -/
def execUnfence (c : Cmd) (s : State) : Host.Outcome State Fault Refusal := s.runOp opUnfence c

/-! SHADOW_START (R335, R336). -/

/-- Voting replicas of a job. -/
def votes (h : Hub) (j : BitVec 16) (rep : Nat) : Bool := (jobDies h j).any (fun d => decide (d.rep.toNat = rep) && !d.shadow && !d.out)

/-- The membership marks a replica's dies as a shadow's (R336). -/
def markShadow (j : BitVec 16) (rep : Nat) (h : Hub) : Hub :=
  { h with jobs := { h.jobs with table := h.jobs.table.map (fun p =>
      if p.1 = j.toNat then (p.1, { p.2 with dies := p.2.dies.map (fun d => if d.rep.toNat = rep then { d with shadow := true, out := false } else d) }) else p) } }

/-- SHADOW_START -/
def opShadowStart : OpDef := {
  code := 0x74, changes := true, may := fleetDom, runs := ensRuns, form := fun c => decide (c.words.length = 3)
  range := fun _ _ c => firstBad [(1, decide (c.n 1 < 65536)), (3, decide (c.n 3 < 256))]
  act := fun e h c =>
    let j := (c.w 1).setWidth 16
    let x := entId 9 (c.n 1 * 256 + c.n 2)
    if (jobAt h j).isNone then refuse stNotFound h 1
    else if c.n 2 = c.n 3 ∨ votes h j (c.n 3) = false then refuse stBadParam h 3
    else if c.n 2 ≥ 256 then refuse stNoSpace h 2
    else
      let h := endFloors x (endPending x 1 (noteCmd x h))
      let s : Shadow := { job := j, rep := BitVec.ofNat 8 (c.n 2), twin := BitVec.ofNat 8 (c.n 3) }
      let h := onCasc (fun y => { y with
        shadows := y.shadows.filter (fun q => !(decide (q.job = j) && decide (q.rep.toNat = c.n 2))) ++ [s] }) (markShadow j (c.n 2) h)
      ok [] (setVerdict e x 7 5 (onEnt x (fun s => { s with scoreV := 7, down := 0 }) h)) }

/-- SHADOW_START (R335, R336, R341). -/
def execShadowStart (c : Cmd) (s : State) : Host.Outcome State Fault Refusal := s.runOp opShadowStart c

/-! TEST_SCHED (Table 8.10). -/

/-- A condition word: temperature bin × 8 + load signature. DESIGN CHOICE (log 43). -/
def condOf (c : Ctx) (n : Nat) : Option (Nat × Nat) := if c.words.length < n then none else some (c.n n / 8, c.n n % 8)

/-- TEST_SCHED SCHEDULE -/
def opTestSchedule : OpDef := {
  code := 0x75, changes := true, may := fleetDom, runs := ensRuns
  form := fun c => decide (c.words.length = 3) || decide (c.words.length = 4)
  range := fun _ h c => firstBad [(2, entOk h (c.w 2) && decide (kindOf (c.w 2) ≤ 3)), (4, decide (c.words.length < 4) || decide (c.n 4 < 128))]
  act := fun e h c =>
    let cs := coresOf e h (c.w 2)
    if cs.isEmpty then refuse stNotFound h 2
    else ok [] (noteCmd (c.w 2) (cs.foldl (fun h k => dueTest e k (c.w 3) (condOf c 4) h) h)) }

/-- TEST_SCHED SCHEDULE (R319, R323, R326). -/
def execTestSchedSchedule (c : Cmd) (s : State) : Host.Outcome State Fault Refusal := s.runOp opTestSchedule (withOp 0 c)

/-- A core's due test. -/
def testOf (e : Env) (h : Hub) (k : Nat) : Option TestDue := (entity h (coreId e h k)).test

/-- A due test is cancelled; the act of its deferral is superseded. -/
def cancelTest (e : Env) (k : Nat) (h : Hub) : Hub :=
  let x := coreId e h k
  match testOf e h k with
  | none => h
  | some t =>
    let h := match t.act with
      | some a => actDone x a 1 h
      | none => h
    onEnt x (fun s => { s with test := none }) h

/-- TEST_SCHED CANCEL -/
def opTestCancel : OpDef := {
  code := 0x75, changes := true, may := fleetDom, runs := ensRuns, form := fun c => decide (c.words.length = 2)
  range := fun _ h c => if entOk h (c.w 2) then none else some 2
  act := fun e h c =>
    let ts := (coresOf e h (c.w 2)).filter (fun k => (testOf e h k).isSome)
    if ts.isEmpty then refuse stNotFound h 2
    else if ts.any (fun k => (testOf e h k).any (fun t => t.running.isSome)) then refuse stWrongState h 2
    else ok [] (ts.foldl (fun h k => cancelTest e k h) (noteCmd (c.w 2) h)) }

/-- TEST_SCHED CANCEL (Table 8.10). -/
def execTestSchedCancel (c : Cmd) (s : State) : Host.Outcome State Fault Refusal := s.runOp opTestCancel (withOp 1 c)

/-- TEST_SCHED DONE -/
def opTestDone : OpDef := {
  code := 0x75, changes := true, may := fun c => fleetDom c || fromChannel c, runs := ensRuns, form := fun c => decide (c.words.length = 3)
  range := fun _ _ c => if c.n 3 ≤ 2 then none else some 3
  act := fun e h c =>
    match testCore e h (c.w 2) with
    | none => refuse stNotFound h 2
    | some (k, lim) =>
      if lim < nowNs h then refuse stNotFound h 2
      else okCross h [] (if c.n 3 = 2 then abortTest e k h else endTest e k (decide (c.n 3 = 1)) h) }

/-- TEST_SCHED DONE (R323–R325). -/
def execTestSchedDone (c : Cmd) (s : State) : Host.Outcome State Fault Refusal := s.runOp opTestDone (withOp 2 c)

/-- The block holds a verdict of the entity: one it forms, or one its tray sends it (R311, R394). -/
def knowsEnt (e : Env) (h : Hub) (x : Word) : Bool :=
  ownsEnt e h x || (!e.tray && (dieEnt e h :: aboveDie e h).contains x)

/-- VERDICT_READ -/
def opVerdictRead : OpDef := {
  code := 0x76, may := fleetTenant, runs := ensRuns, form := fun c => decide (c.words.length = 1)
  see := fun _ h c => if c.tenant && !entSeen h c.job (c.w 1) then some 1 else none
  range := fun _ h c => entRange h c
  act := fun e h c =>
    if knowsEnt e h (c.w 1) then
      let s := entity h (c.w 1)
      ok [w32 s.verdict, scoreWord s, floorWord h (c.w 1)] h
    else refuse stNotFound h 1 }

/-- VERDICT_READ (R340, Table 12.6). -/
def execVerdictRead (c : Cmd) (s : State) : Host.Outcome State Fault Refusal := s.runOp opVerdictRead c

/-! Boundaries (R287–R289, R311, R317). -/

/-- A scan boundary: the whole multiple of P that TB has reached (R287). -/
def scanTb (h : Hub) : Nat := nowNs h / h.casc.p * h.casc.p

/-- SCAN_BOUNDARY (R262, R287, R290): swaps, verdicts and exponents take effect, features of the period are written, snapshots are
requested, tests and probes start, and the frond's full pass is requested. -/
def execScanBoundary (s : State) : Host.Outcome State Fault Refusal :=
  s.run (fun e h => guard (!e.tray && working h && decide (h.casc.lastScan < scanTb h)) (fun h =>
    let t := scanTb h
    let h := takePolicy (finishActs (doSwaps e true false (onCasc (fun c => { c with lastScan := t }) h)))
    let got := (h.casc.ents.filter (fun p => !p.2.received.isEmpty)).map (fun p => BitVec.ofNat 32 p.1)
    let h := got.foldl (fun h x => applyReceived e x h) h
    let h := ((List.range 2048).filter e.present).foldl (fun h c => latchExp e c h) h
    let h := scanFeatures e (claimedProbes e h)
    let h := ((List.range 8).filter (fun r => !e.regionAbsent r)).foldl (fun h r => regionScan e r h) h
    let h := startTests e false (boundaryVerdicts e h)
    let h := if serving h then startProbes e h else h
    cascPass e (stageSlot h .frond) .full (frondEnts e h) t (fun p h => applyPass e p.slot [] (judgePass e p h)) h) h)

/-- A quick boundary: the whole multiple of Q that TB has reached (R289). -/
def quickTb (h : Hub) : Nat := nowNs h / (policy h).quick * (policy h).quick

/-- The quick scoring of a spore flag is an act, recorded once for each flag (R23, R24). -/
def quickAct (e : Env) (c : Nat) (h : Hub) : Hub :=
  if sporePending e h c && !(hubc h c).quickAct then
    autoAct e 5 0 (coreId e h c) 0 id (onHubc c (fun x => { x with quickAct := true }) h)
  else h

/-- QUICK_BOUNDARY (R288, R289): a quick boundary that is also a scan boundary, or whose set is empty, serves nothing; one that finds
a quick pass still running is skipped and counted. -/
def execQuickBoundary (s : State) : Host.Outcome State Fault Refusal :=
  s.run (fun e h => guard (!e.tray && serving h && decide (h.casc.lastQuick < quickTb h)) (fun h =>
    let q := quickTb h
    let h := onCasc (fun c => { c with lastQuick := q }) h
    let xs := quickEnts e h
    let flags := (List.range 2048).filter (sporePending e h)
    if q % h.casc.p = 0 then h
    else if xs.isEmpty then flags.foldl (fun h c => quickAct e c h) h
    else if h.ens.passes.any (fun p => p.use == .quick) then onCasc (fun c => { c with quickSkipped := c.quickSkipped + 1 }) h
    else
      let cs := flags.filter (flagged e h)
      let h := flags.foldl (fun h c => quickAct e c h) h
      let h := (List.range 8).foldl (fun h r => askPartial r (cs.filter (fun c => decide (regionOf c = r))) h) h
      cascPass e (stageSlot h .frond) .quick xs q (fun _ h => h) h) h)

/-! Expiries. -/

/-- FLOOR_EXPIRY (R316): floors whose hold time has passed lapse; the verdict follows at the next scoring boundary. -/
def execFloorExpiry (entity : Word) (s : State) : Host.Outcome State Fault Refusal :=
  s.run (fun e h => guard (ensRuns e h) (onEnt entity (fun s => { s with
    floors := s.floors.filter (fun f => decide (nowNs h < f.tb + (policy h).floorHold)) })) h)

/-- PROBATION_EXPIRY (R315): WATCH, when no recent score reached SUSPECT and no floor holds; otherwise a further period. -/
def execProbationExpiry (entity : Word) (s : State) : Host.Outcome State Fault Refusal :=
  s.run (fun e h =>
    let x := Sys2Proof.Machine.entity h entity
    guard (ensRuns e h && decide (x.verdict = 3) && x.probEnd.any (fun t => decide (t ≤ nowNs h))) (fun h =>
      if x.calm ≥ (polRow h entity).dwellDown ∧ (floorsNow h entity).isEmpty ∧ x.pendRem.isNone then setBase e entity 1 0 h
      else onEnt entity (fun s => { s with probEnd := some (nowNs h + (policy h).probation) }) h) h)

/-- PERIODIC_TEST_DUE (R319): the periodic interval has passed since the core's last completed test. -/
def execPeriodicTestDue (core : CoreNo) (s : State) : Host.Outcome State Fault Refusal :=
  s.run (fun e h =>
    let c := core.toNat
    guard (e.present c && ensRuns e h && decide ((policy h).periodic ≠ 0) && decide ((hubc h c).lastTest + (policy h).periodic ≤ nowNs h))
      (dueTest e c 0 none) h)

/-- DEFERRAL_DEADLINE (R321): a test not started by its deadline makes the core test-overdue; the raise of its audit rate is an act, which a
command of the same scan period supersedes (R26). -/
def execDeferralDeadline (core : CoreNo) (s : State) : Host.Outcome State Fault Refusal :=
  s.run (fun e h =>
    let x := coreId e h core.toNat
    match (entity h x).test with
    | none => h
    | some t => guard (e.present core.toNat && ensRuns e h && t.running.isNone && !t.overdue && decide (t.deadline ≤ nowNs h) &&
        !e.beaten evStep t.deadline (nowNs h))
        (autoAct e 0 0 x 0 id ∘ onEnt x (fun s => { s with test := some { t with overdue := true, noRaise := overruled e h x } })) h)

/-- TEST_HOLD_EXPIRY (R324): a test without a result within the hold limit is closed as incomplete and stays due. -/
def execTestHoldExpiry (seq : Word) (s : State) : Host.Outcome State Fault Refusal :=
  s.run (fun e h =>
    match testCore e h seq with
    | none => h
    | some (c, lim) => guard (ensRuns e h && decide (lim ≤ nowNs h) && !e.beaten evTestDone lim (nowNs h)) (abortTest e c) h)

/-! DIG_EPOCH OPEN (R179–R183). -/

/-- Open an epoch: the older slot is freed, the newer becomes the older with retire count n, and e becomes the newer. -/
def openEpoch (e : Env) (n : Word) (cnt : Nat) (h : Hub) : Hub :=
  let h := takeNext h
  let d := h.dig
  let ctx := d.newer.any (fun x => !x.ctx)
  let new : Epoch := {
    num := n, k0 := digKey d.cfg.seed d.cfg.job.toNat n.toNat 0, k1 := digKey d.cfg.seed d.cfg.job.toNat n.toNat 1, ctx := ctx }
  let h := onXs (fun x => if ctx then { x with held1 := true } else { x with held0 := true }) (clearCtx (b2n ctx) h)
  let h := onDig (fun d => { d with
    newer := some new, older := d.newer, retire := if d.newer.isSome then cnt else 0, heldSince := nowNs h, overdue := false
    opened := d.opened ++ [n] }) h
  stepBoundary e (retired e h)

/-- DIG_EPOCH OPEN -/
def opDigOpen : OpDef := {
  code := 0x43, changes := true, may := fleetTenant, runs := dieServing, form := fun c => decide (c.words.length = 3), see := digSee
  range := fun _ h c => if c.n 2 = 0xFFFFFFFF ∨ h.dig.newer.any (fun x => decide (c.n 2 ≤ x.num.toNat)) then some 2 else none
  act := fun e h c =>
    if h.dig.older.isSome && decide (h.dig.retire > 0) then refuse stBusy h else ok [] (openEpoch e (c.w 2) (c.n 3) h) }

/-- DIG_EPOCH OPEN (R180, R183): its completion is a step boundary of the job (R320). -/
def execDigEpochOpen (c : Cmd) (s : State) : Host.Outcome State Fault Refusal := s.runOp opDigOpen (withOp 0 c)

end Sys2Proof.Machine
end

