-- ==== Sys2Proof/Machine/RoundOps.lean ====
section
/-!
DEFINITION. What a member does with a round's result: classification of comparison rounds (R196–R201), shadow admission
(R337–R339), replies of XS_REDUCE and NORM_REQ (R230, R239); and what a node does with a reduction packet (R220–R226).
-/
namespace Sys2Proof.Machine

/-! Classification of one (layer, slice) (Table 5.9). -/

/-- What a pair's set says of one digest: no outcome, a match, an odd digest, a split. -/
inductive PairOut where
  | absent | same | odd | split
  deriving DecidableEq, Repr

/-- Voters of a set. -/
def DigSet.voters (s : DigSet) : Nat := (s.entries.map (fun x => x.2.2.1)).sum

/-- Entries that a voter holds. -/
def DigSet.held (s : DigSet) : List (Nat × Nat × Nat × Nat) := s.entries.filter (fun x => decide (x.2.2.1 > 0))

/-- The digest that decides a set: the common one of two voters, or the one that more than half of three or more hold (Table 5.9). -/
def DigSet.major (s : DigSet) : Option (Nat × Nat) :=
  if s.ovf then none
  else if s.voters = 2 then (match s.held with
    | [x] => some (x.1, x.2.1)
    | _ => none)
  else if s.voters ≥ 3 then (s.held.find? (fun x => decide (2 * x.2.2.1 > s.voters))).map (fun x => (x.1, x.2.1))
  else none

/-- The outcome for a voter that holds a digest (R198, R219). -/
def DigSet.voterOut (s : DigSet) (d : Nat × Nat) : PairOut :=
  if s.ovf then .split
  else if s.voters ≤ 1 then .absent
  else match s.major with
    | none => .split
    | some m => if m = d then .same else .odd

/-- The outcome for a shadow that holds a digest (R199): DIG_ODD unless it equals the majority's or the two voters' common one. A pair that
fewer than two voters compare has no outcome (Table 5.9): DEDUCED (log 56). -/
def DigSet.shadowOut (s : DigSet) (d : Nat × Nat) : PairOut :=
  if !s.ovf && decide (s.voters ≤ 1) then .absent
  else if s.major = some d then .same else .odd

/-- The outcome of an egress pair for the shadow: equal to its twin's or not (R199). -/
def DigSet.twinOut (s : DigSet) (d : Nat × Nat) : PairOut :=
  if s.ovf then .odd
  else if s.voters = 0 then .absent
  else if s.held.any (fun x => decide ((x.1, x.2.1) = d)) then .same else .odd

/-- Sets of a result. -/
def setsOf (es : List Elem) : List DigSet := es.filterMap (fun x => match x with
  | .set s => some s
  | _ => none)

/-- Outcomes of a member's pairs against a result. -/
def pairOuts (f : DigSet → Nat × Nat → PairOut) (pairs : List (Nat × DigEntry)) (es : List Elem) : List PairOut :=
  pairs.map (fun (p : Nat × DigEntry) =>
    if decide (p.2.state = 1) && !p.2.fixed then
      (match (setsOf es).find? (fun s => decide (s.pair = p.1)) with
        | some s => f s (p.2.d0.toNat, p.2.d1.toNat)
        | none => .absent)
    else .absent)

/-- The worst of a round's outcomes, in the order of R198. -/
def worstOut (l : List PairOut) : PairOut := if l.contains .split then .split else if l.contains .odd then .odd else if l.contains .same then .same else .absent

/-! Shadow admission (R337–R339). -/

/-- The shadow that this die belongs to, if any. -/
def myShadow (e : Env) (h : Hub) : Option Shadow :=
  h.casc.shadows.find? (fun s => (jobDies h s.job).any (fun d => decide (d.die = dieNo e h) && decide (d.rep = s.rep)))

/-- Change a shadow. -/
def onShadow (s : Shadow) (f : Shadow → Shadow) (h : Hub) : Hub :=
  onCasc (fun c => { c with shadows := c.shadows.map (fun q => if q.job = s.job ∧ q.rep = s.rep then f q else q) }) h

/-- A shadow that misses too often is ended with EXPEL, which is not governed (R339). -/
def endShadow (e : Env) (s : Shadow) (h : Hub) : Hub :=
  let x := entId 9 (s.job.toNat * 256 + s.rep.toNat)
  let h := removeNow e x 6 5 h
  let h := onCasc (fun c => { c with shadows := c.shadows.filter (fun q => !(decide (q.job = s.job) && decide (q.rep = s.rep))) }) h
  report 0 .failedAdmission x [s.job.toNat, s.rep.toNat] h

/-- A round of the shadow is complete: matched, missed, or uncompared (R337). -/
def shadowRound (e : Env) (s : Shadow) (r : Option Bool) (h : Hub) : Hub :=
  match r with
  | none => h
  | some true => onShadow s (fun q => { q with run := q.run + 1 }) h
  | some false =>
    let h := onShadow s (fun q => { q with run := 0, misses := q.misses + 1 }) h
    if s.misses + 1 ≥ (policy h).missLimit then endShadow e s h else h

/-- Both halves of a round: a match only when every compared digest matches (R199). -/
def bothHalves (a b : Option Bool) : Option Bool :=
  match a, b with
  | some x, some y => some (x && y)
  | some x, none => if x then none else some false
  | none, some y => if y then none else some false
  | none, none => none

/-- One half of a shadow's round has come: the ingress round, or the egress comparison with the twin. `alone` says that no other half
is to come. -/
def shadowHalf (e : Env) (ep : Word) (egress alone : Bool) (r : Option Bool) (h : Hub) : Hub :=
  match myShadow e h with
  | none => h
  | some s =>
    match s.halves.find? (fun x => decide (x.1 = ep) && decide (x.2.1 ≠ egress)) with
    | some x => shadowRound e s (bothHalves x.2.2 r) (onShadow s (fun q => { q with halves := q.halves.filter (fun y => decide (y.1 ≠ ep)) }) h)
    | none =>
      if alone then shadowRound e s r h
      else onShadow s (fun q => { q with halves := (ep, egress, r) :: q.halves.take 15 }) h

/-- An outcome as a half of a shadow's round. -/
def PairOut.half : PairOut → Option Bool
  | .same => some true
  | .odd => some false
  | .split => some false
  | .absent => none

/-! Results at a member. -/

/-- The egress comparison of an epoch is open at this die. -/
def egressOpen (h : Hub) (ep : Word) : Bool :=
  h.xs.rounds.any (fun p => decide (p.1 / 2 ^ 26 = 0) && !p.2.done && (match p.2.use with
    | .egressCompare n _ => decide (n = ep)
    | _ => false))

/-- This die's charged entities for a round outcome: the die and its replica (Table 5.10). -/
def roundCharged (e : Env) (h : Hub) : List Word := dieEnt e h :: (replicaEnt e h).toList

/-- The first of a round's pairs that has an outcome, in the order of the table, with its own digest and its set. -/
def firstWith (o : PairOut) (pairs : List (Nat × DigEntry)) (outs : List PairOut) (es : List Elem) : Option (Nat × DigEntry × DigSet) :=
  ((pairs.zip outs).find? (fun p => decide (p.2 = o))).map (fun p =>
    (p.1.1, p.1.2, ((setsOf es).find? (fun s => decide (s.pair = p.1.1))).getD { pair := p.1.1 }))

/-- The most voters of a pair of a set of pairs that split (R200). -/
def splitVoters (pairs : List (Nat × DigEntry)) (outs : List PairOut) (es : List Elem) : Nat :=
  ((pairs.zip outs).filter (fun p => decide (p.2 = .split))).foldl (fun n p =>
    max n (((setsOf es).find? (fun s => decide (s.pair = p.1.1))).map DigSet.voters |>.getD 0)) 0

/-- The record of a round outcome (R201), scope ROUND: the first pair that has the outcome, with this die's count and digest and the
majority's (its own where there is none); then the job, the voters of the pairs that split, what R200 needs, the round's number and the
charged replica. DESIGN CHOICE (log 89). -/
def roundRecord (e : Env) (code : Nat) (o : PairOut) (b : CmpRound) (outs : List PairOut) (es : List Elem) (h : Hub) : Hub :=
  let job := (jobOfDie h (dieNo e h)).getD 0
  let w := (firstWith o b.pairs outs es).getD (0, {}, { pair := 0 })
  let mine := (w.2.1.d0.toNat, w.2.1.d1.toNat)
  let maj := w.2.2.major.getD mine
  digRecord code 2 (dieEnt e h) false (w.1 / 64) (w.1 % 64) b.epoch 0 false [w.2.1.count] [mine.1, mine.2, maj.1, maj.2]
    ([job.setWidth 32, w32 (splitVoters b.pairs outs es), w32 (b2n h.dig.cfg.shielded), h.dig.checkpoint.getD missing, w32 b.no]
      ++ (roundCharged e h).drop 1) h

/-- The request of R200 to the parent, one for each job and round: restart from the checkpoint epoch, a third replica, or a decision. -/
def splitRequest (job : Nat) (ep : Word) (no voters : Nat) (shielded : Bool) (checkpoint : Word) (h : Hub) : Hub :=
  if h.casc.splits.contains (job, ep, no) then h
  else report 0 .split (entId 10 job) [ep.toNat, if shielded then 0 else if voters = 2 then 1 else 2, checkpoint.toNat, no]
    (onCasc (fun c => { c with splits := (job, ep, no) :: c.splits.take 63 }) h)

/-- A comparison round's result at this die (R198–R201). -/
def compareResult (e : Env) (b : CmpRound) (es : List Elem) (h : Hub) : Hub :=
  let sh := isShadow e h
  let h := onDig (fun d => { d with
    buf0 := if d.buf0.any (fun x => decide (x.seq = b.seq)) then none else d.buf0
    buf1 := if d.buf1.any (fun x => decide (x.seq = b.seq)) then none else d.buf1 }) h
  let outs := pairOuts (if isOut e h then fun _ _ => .absent else if sh then DigSet.shadowOut else DigSet.voterOut) b.pairs es
  let o := worstOut outs
  let now := nowNs h
  let h := onDig (fun d => { d with
    uncmpPairs := d.uncmpPairs + outs.count .absent
    matchRun := match o with
      | .same => d.matchRun + 1
      | .absent => d.matchRun
      | _ => 0 }) h
  let h := match o with
    | .absent => uncompared e b.epoch h
    | .same => onDig (fun d => { d with matched := d.matched + 1 }) h
    | .odd =>
      let h := roundRecord e 1 o b outs es (onDig (fun d => { d with odd := d.odd + 1 }) h)
      let h := if sh then h else (roundCharged e h).drop 1 |>.foldl (fun h x => setFloor x 6 now h) h
      digOutcome e 1 (roundCharged e h) h
    | .split =>
      let h := roundRecord e 2 o b outs es (onDig (fun d => { d with split := d.split + 1 }) h)
      let h := (roundCharged e h).drop 1 |>.foldl (fun h x => setFloor x 2 now h) h
      digOutcome e 2 (roundCharged e h) h
  if sh then shadowHalf e b.epoch false (!egressOpen h b.epoch) o.half h else h

/-- An egress comparison's result at a die of the shadow (R199). -/
def egressResult (e : Env) (ep : Word) (es : List Elem) (h : Hub) : Hub :=
  if !isShadow e h then h
  else match epochOf h ep with
    | none => shadowHalf e ep true false none h
    | some x => shadowHalf e ep true false (worstOut (pairOuts DigSet.twinOut x.egress es)).half h

/-- The tenant whose command opened a round still sees its group (R481). -/
def roundSeen (h : Hub) (pend group : Nat) : Bool :=
  match pendOf h pend with
  | some p => groupSeen h p.job group
  | none => true

/-- The reply of an XS_REDUCE (Table 12.13). -/
def reduceReply (e : Env) (r : Round) (group pend dest : Nat) (es : List Elem) (h : Hub) : Hub :=
  let seen := roundSeen h pend group
  let hd := [w32 r.contrib, w32 (b2n r.incomplete + 2 * b2n r.carried + 4 * b2n r.coarse)]
  if dest = 0 then
    let ws := bytesWords (es.flatMap elemBytes)
    if ws.length > 344 then finish e pend stNoSpace 0 [] seen h else finish e pend stOk 0 (hd ++ ws) seen (recordsWritten es h)
  else
    let bs := es.flatMap elemMem
    match writeOut 4 dest bs h with
    | some h' =>
      let h' := recordsWritten es h'
      if seen then finish e pend stOk 0 (hd ++ [w32 bs.length]) seen h' else finish e pend stOk 0 [] seen h
    | none => finish e pend stTimeout 0 [] seen h

/-- The reply of a NORM_REQ (R239): both roots, the record and CONTRIB; NOT_FOUND when no contribution covers the epoch. -/
def normReply (e : Env) (r : Round) (group pend : Nat) (es : List Elem) (h : Hub) : Hub :=
  let seen := roundSeen h pend group
  match es with
  | .xa x :: _ =>
    if r.contrib = 0 then finish e pend stNotFound 2 [] seen h
    else
      let y := { x with incomplete := x.incomplete || r.incomplete }
      finish e pend stOk 0 ([w32 (y.root f32)] ++ w64 (y.root f64) ++ bytesWords y.bytes ++ [w32 r.contrib]) seen (recordsWritten [.xa y] h)
  | _ => finish e pend stNotFound 2 [] seen h

/-- The compare buffer of a sequence number. -/
def cmpBuf (h : Hub) (seq : Nat) : Option CmpRound :=
  match h.dig.buf0, h.dig.buf1 with
  | some b, o => if b.seq.toNat = seq then some b else o.filter (fun b => decide (b.seq.toNat = seq))
  | none, o => o.filter (fun b => decide (b.seq.toNat = seq))

/-- A result is complete at this die: the round is closed and its use takes the elements. -/
def useResult (e : Env) (group seq : Nat) (r : Round) (h : Hub) : Hub :=
  let es := (List.range r.total).map (fun i => Tab.getD r.acc i (elemZero r.op.toNat))
  let h := roundDone r.incomplete es (dropRound 0 group seq h)
  match r.use with
  | .xsReduce pend dest => reduceReply e r group pend dest es h
  | .norm pend _ => normReply e r group pend es h
  | .compare _ => (match cmpBuf h seq with
    | some b => compareResult e b es h
    | none => h)
  | .egressCompare ep _ => egressResult e ep es h
  | _ => h

/-! Reduction packets at a node. -/

/-- A result packet at a die (R225): of a round that is still open here; a later one is discarded (R197, R230). -/
def dieResult (e : Env) (m : Red) (h : Hub) : Hub :=
  match roundAt h 0 m.group m.seq with
  | none => h
  | some r =>
    if r.op.toNat ≠ m.op then onXs (fun x => { x with bad := x.bad + 1 }) h
    else
      let r := resultTake r m
      if r.done then useResult e m.group m.seq r h else putRound 0 m.group m.seq r h

/-- The loads that the levels above and below report (R232, R233). When a sender below has coarsened while this level is saturated too, this
level judges itself again only after 4 windows of the sender's new span (R236). -/
def noteLoad (src : Nat) (m : Red) (h : Hub) : Hub :=
  if m.result || m.redirect then onXs (fun x => { x with aboveLoad := some m.load }) h
  else onXs (fun x => { x with
    belowNow := some (max (x.belowNow.getD 0) m.load)
    belowSpan := if m.window = 0 then x.belowSpan else Tab.put x.belowSpan src m.span
    judgeHold := if m.window ≠ 0 ∧ Tab.getD x.belowSpan src 0 < m.span ∧ x.load = 2 then 4 * 2 ^ m.span else x.judgeHold }) h

/-- A redirect asks the trays it names to send to the root directly (R224): at once when the contribution has been sent and is held,
otherwise when it is sent. One that comes after the round's result is too late, and the contribution goes into the next window (R228). -/
def redirected (e : Env) (g : Group) (m : Red) (h : Hub) : Hub :=
  match roundAt h 1 m.group m.seq with
  | none => h
  | some r =>
    let h := putRound 1 m.group m.seq { r with direct := true } h
    if r.direct || r.kept then h
    else if r.done then
      (if r.window = 0 then h else roundLate 1 { (upMessage h 1 m.group m.seq r []) with window := r.window } h)
    else if r.sent then
      let up := { (upMessage h 1 m.group m.seq r [myTray h]) with incomplete := r.incomplete }
      trayDeliver e g true r.tc.toNat up h
    else h

/-- A reduction packet that has passed the port's checks (R220–R226): a contribution by its level, a redirect, or a result. -/
def reduceRx (e : Env) (p : RxPkt) (h : Hub) : Hub :=
  match redParse p.body with
  | none => onXs (fun x => { x with bad := x.bad + 1 }) h
  | some m =>
    let bad := onXs (fun x => { x with bad := x.bad + 1 }) h
    let h := noteLoad p.src m h
    let tray := p.src % 1024
    match roundGroup h m.group m.seq m.op with
    | none => bad
    | some g =>
      if !e.tray then (if m.result then dieResult e m h else bad)
      else if m.redirect then redirected e g m h
      else if m.result then
        if g.combiners.contains (myTray h) && decide (tray = g.root) then combResult h g p.tc m else trayResult h g p.tc m
      else match m.level with
        | 0 => if isScoring h m.group then bad else trayTake e g p.src p.tc m h
        | 1 =>
          let m := { m with cover := [tray] }
          if combinerFor g tray = some (myTray h) then combTake e g p.src p.tc m h
          else if g.root = myTray h then rootTake e g p.src p.tc m h else bad
        | 2 => if g.root = myTray h then rootTake e g p.src p.tc m h else bad
        | _ => bad

end Sys2Proof.Machine
end

