-- ==== Sys2Proof/Machine/RhizOps.lean ====
section
/-!
DEFINITION. The rhizome: its steps in a scoring group and in a group of one, the exchange of feature words, stage rounds, gate,
scores and the group's spike test (R302–R306, R331–R334).
-/
namespace Sys2Proof.Machine

/-- The scoring section, when the group has more than one member (R302). -/
def shardGroup (h : Hub) : Option Scoring := (imgOf h).scoring.filter (fun s => decide (s.members.length > 1))

/-- This tray's position in the group. -/
def myPos (h : Hub) (s : Scoring) : Nat := s.members.idxOf (myTray h)

/-- Position of an entity's home member: the image's, and for a replica the tray of its lowest-numbered die (R302). -/
def homePos (h : Hub) (s : Scoring) (p : Nat × Nat) : Nat :=
  if kindOf (BitVec.ofNat 32 p.1) = 9 then
    match firstDie h (BitVec.ofNat 32 p.1) with
    | some d => if s.members.contains (d / 128) then s.members.idxOf (d / 128) else p.2
    | none => p.2
  else p.2

/-- The group's entities, in ascending entity ID (R304). -/
def groupEnts (s : Scoring) : List Word := (sortBy (fun a b => decide (a < b)) ((s.homes.map Prod.fst).dedup)).map (BitVec.ofNat 32)

/-- The entities whose home is the member at a position. -/
def entsAt (h : Hub) (s : Scoring) (i : Nat) : List Word :=
  (groupEnts s).filter (fun x => s.homes.any (fun p => decide (p.1 = x.toNat) && decide (homePos h s p = i)))

/-- The entities whose home is this tray. -/
def homeEnts (h : Hub) (s : Scoring) : List Word := entsAt h s (myPos h s)

/-- Change the window in progress. -/
def onRhiz (f : Rhizome → Rhizome) (h : Hub) : Hub := onCasc (fun c => { c with rhizome := c.rhizome.map f }) h

/-! Exchange (Table 8.4 step 2). -/

/-- The exchange words of an entity: the feature numbers of its kind. -/
def exchangeWords (s : Scoring) (x : Word) : List Nat := ((s.words.find? (fun p => decide (p.1 = kindOf x))).map Prod.snd).getD []

/-- An entity's part of an EXCHANGE body: its ID and its words. -/
def exchangePart (h : Hub) (s : Scoring) (x : Word) : List Byte :=
  beBytes 4 x.toNat ++ (exchangeWords s x).flatMap (fun i => beBytes 4 (featRead h x i).toNat)

/-- Parts packed into bodies of at most 224 bytes, each after the window number and the sender's number of bodies. -/
def packParts (l : List (List Byte)) : List (List Byte) :=
  l.foldr (fun p acc => match acc with
    | b :: t => if (p ++ b).length ≤ 212 then (p ++ b) :: t else p :: acc
    | [] => [p]) []

/-- The EXCHANGE bodies of this tray's home entities: window, number of entities of this tray, entities in this body, then the parts.
DESIGN CHOICE (log 44). -/
def exchangeBodies (h : Hub) (s : Scoring) (w : Nat) : List (List Byte) :=
  let xs := homeEnts h s
  (packParts (xs.map (exchangePart h s))).map (fun b => beBytes 4 w ++ beBytes 4 xs.length ++ b)

/-- Words of an EXCHANGE body read back: entities with their words. -/
def readParts (s : Scoring) : Nat → List Byte → List (Word × List Word)
  | 0, _ => []
  | n + 1, b =>
    if b.length < 4 then []
    else
      let x := BitVec.ofNat 32 (beAt b 0 4)
      let k := (exchangeWords s x).length
      if b.length < 4 + 4 * k then [] else (x, bytesWords ((b.drop 4).take (4 * k))) :: readParts s n (b.drop (4 + 4 * k))

/-! Stage rounds (R304). -/

/-- SEQ of a rhizome round: 2,048 for each window, of which 1,020 for the parts of the screen, 1,020 for those of the confirm, then the raise
count and the die mask; the parts of a vector are consecutive (R304). The numbers are DESIGN CHOICE (log 44). -/
def seqOfRhiz (w stage part : Nat) : Nat := w % 32 * 2048 + getAt [0, 1020, 2046, 2047] stage 0 + part

/-- Elements of one part of a vector (R304). -/
def partSize : Nat := 8192

/-- The use of a stage's round. -/
def rhizUse (stage : Nat) : RoundUse := match stage with
  | 0 => .screen
  | 1 => .confirm
  | 2 => .raises
  | _ => .mask

/-- Contribute a vector to a stage's rounds: this tray is the member, and its own tray-level block. -/
def rhizContribute (e : Env) (s : Scoring) (w stage op : Nat) (v : List Elem) (h : Hub) : Hub :=
  (List.range ((v.length + partSize - 1) / partSize)).foldl (fun h i =>
    let es := (v.drop (i * partSize)).take partSize
    let q := seqOfRhiz w stage i
    let r : Round := {
      op := BitVec.ofNat 4 op, total := es.length, use := rhizUse stage, opened := nowNs h, timer := nowNs h, sent := true, tc := 2 }
    let m : Red := { group := s.handle, seq := q, op := op, level := 0, total := es.length, contrib := 1, elems := es }
    trayTake e (scoringGroup s) (myTray h * 128) 2 m (putRound 0 s.handle q r h)) h

/-- The rounds of a stage, once every part has its result: the whole vector, and whether it is complete. -/
def rhizResult (h : Hub) (s : Scoring) (w stage len : Nat) : Option (List Elem × Bool) :=
  let rs := (List.range ((len + partSize - 1) / partSize)).map (fun i => roundAt h 0 s.handle (seqOfRhiz w stage i))
  if rs.all (fun r => r.any Round.done) then
    let rs := rs.filterMap id
    some (rs.flatMap (fun r => (List.range r.total).map (fun i => Tab.getD r.acc i (elemZero r.op.toNat))), rs.all (fun r => !r.incomplete))
  else none

/-- A member's vector of a stage: for each group entity the raw scores and the presence (R304). -/
def stageVector (outs : Nat) (xs : List Word) (rs : List Result) : List Elem :=
  xs.flatMap (fun x => match rs.find? (fun r => decide (r.entity = x) && !r.fault && !r.damaged) with
    | some r => r.s.map Elem.int ++ [.int 1]
    | none => List.replicate (outs + 1) (.int 0))

/-- An integer element's value. -/
def elemInt : Elem → BitVec 64
  | .int v => v
  | _ => 0

/-- Results that a stage's summed vector gives: for each entity whose presence equals the number of members (R304). -/
def stageResults (g : Gen) (slot tb members : Nat) (xs : List Word) (v : List Elem) : List Result :=
  let n := g.outs.length + 1
  (xs.zipIdx).filterMap (fun x =>
    let es := ((v.drop (x.2 * n)).take n).map elemInt
    if getAt es g.outs.length 0 = BitVec.ofNat 64 members then
      let sm := es.take g.outs.length
      some { tb := tb, entity := x.1, gen := g.num, slot := slot, fault := false, damaged := g.damaged, shard := false, stopped := false, missing := 0
             visits := 0, s := sm, y := (g.outs.zip sm).map (fun p => postTransform g p.1 p.2) }
    else none)

/-! The gate (R305). -/

/-- The gate of an entity: the policy's, or T_SUSPECT of its kind. -/
def gateOf (h : Hub) (x : Word) : Nat := (policy h).gate.getD (polRow h x).suspect

/-- The results that pass the gate. -/
def gated (h : Hub) (rs : List Result) : List Word :=
  (rs.filter (fun r => (resultScore h r).any (fun n => decide (n ≥ gateOf h r.entity)))).map (fun r => r.entity)

/-- The confirm's results in place of the screen's; a gated entity without one keeps the screen's, and is unconfirmed. -/
def confirmed (h : Hub) (screen confirm : List Result) (g : List Nat) : List Result × List Nat :=
  (screen.map (fun r => (confirm.find? (fun c => decide (c.entity = r.entity) && (resultScore h c).isSome)).getD r),
    g.filter (fun x => !confirm.any (fun c => decide (c.entity.toNat = x) && (resultScore h c).isSome)))

/-- Mark the unconfirmed results of a scoring on their entities. -/
def markUnconf (xs : List Word) (un : List Nat) (h : Hub) : Hub :=
  xs.foldl (fun h x => onEnt x (fun s => { s with unconfirmed := un.contains x.toNat }) h) h

/-- Entities that get no rhizome score for a window, each recorded and counted as unscored (R306). -/
def unscored (xs : List Word) (h : Hub) : Hub :=
  xs.foldl (fun h x => emitUnit 59 x 24 [] (onCasc (fun c => { c with unscored := c.unscored + 1 }) h)) h

/-- A member's part of a stage: its vector goes to the stage's rounds (R304). -/
def contributeStage (e : Env) (s : Scoring) (w stage : Nat) (p : Pass) (h : Hub) : Hub :=
  rhizContribute e s w stage 0 (stageVector p.gen.outs.length (groupEnts s) p.results) h

/-- The rhizome's window is over. -/
def rhizEnd (h : Hub) : Hub := onCasc (fun c => { c with rhizome := none }) h

/-! Passes of a group of one (R302, R305). -/

/-- The screen of a group of one is complete: the gate, and the confirm pass or the verdict unit. -/
def soloScreen (e : Env) (p : Pass) (h : Hub) : Hub :=
  let g := gated h p.results
  match (if g.isEmpty then none else stageSlot h .confirm) with
  | none => applyPass e p.slot p.results (markUnconf (p.results.map (fun r => r.entity)) [] h)
  | some i =>
    match askPass e i .confirm g p.tb h with
    | .taken h =>
      onCasc (fun c => { c with rhizome := some {
        window := c.window, boundary := p.tb, step := 4, results := p.results, gated := g.map BitVec.toNat, slot := i } }) h
    | _ => applyPass e p.slot p.results (markUnconf (p.results.map (fun r => r.entity)) (g.map BitVec.toNat)
        (onEns (fun s => { s with skipped := s.skipped + 1 }) h))

/-- The confirm of a group of one is complete. -/
def soloConfirm (e : Env) (p : Pass) (h : Hub) : Hub :=
  match h.casc.rhizome with
  | none => h
  | some r =>
    let q := confirmed h r.results p.results r.gated
    applyPass e p.slot q.1 (markUnconf (q.1.map (fun r => r.entity)) q.2 (rhizEnd h))

/-! The steps. -/

/-- The generation that a slot holds active. -/
def activeGen (h : Hub) (slot : Option Nat) : Option Gen := slot.bind (fun i => (slotAt h i).active)

/-- Step 3: the screen shard over the group's entities. -/
def startScreen (e : Env) (s : Scoring) (h : Hub) : Hub :=
  match h.casc.rhizome with
  | none => h
  | some r =>
    let h := onRhiz (fun r => { r with step := 3 }) h
    cascPass e (stageSlot h .screen) .screen ((groupEnts s).filter (fun x => r.present.contains x.toNat)) r.boundary (contributeStage e s r.window 0) h

/-- Step 5: each home member forms scores; the raise count and the die mask go to the group (R333). Nothing of them enters an entity until the
group's spike rounds have come (R306, R332). -/
def startRaises (e : Env) (s : Scoring) (rs : List Result) (slot : Nat) (h : Hub) : Hub :=
  match h.casc.rhizome with
  | none => h
  | some r =>
    let mine := homeEnts h s
    let home := rs.filter (fun q => mine.contains q.entity)
    let h := unscored (mine.filter (fun x => !home.any (fun q => decide (q.entity = x)))) h
    let q := enterScores home h
    let un := q.2.filter (uncorroborated h)
    let ds := un.filterMap (fun c => (placeOf e h c.x).map (fun d => 128 * s.members.idxOf (d / 128) + d % 128))
    let words := (List.range 32).map (fun k => Elem.int (BitVec.ofNat 64 (((List.range 64).filter (fun b => ds.contains (64 * k + b))).map (2 ^ ·)).sum))
    let h := onRhiz (fun r => { r with
      step := 5, slot := slot, scored := rs.length, results := home, changes := q.2.map (fun c => (c.x.toNat, c.old, c.new)) }) h
    rhizContribute e s r.window 3 5 words (rhizContribute e s r.window 2 0 [.int (BitVec.ofNat 64 un.length)] h)

/-- Step 4: the confirm shard over the gated entities, or straight to step 5 when there are none or no confirm is named. -/
def startConfirm (e : Env) (s : Scoring) (h : Hub) : Hub :=
  match h.casc.rhizome with
  | none => h
  | some r =>
    let g := gated h r.results
    match stageSlot h .confirm with
    | some i =>
      if g.isEmpty then startRaises e s r.results r.slot h
      else
        let h := onRhiz (fun r => { r with step := 4, gated := g.map BitVec.toNat, slot := i }) h
        cascPass e (some i) .confirm (g.filter (fun x => r.present.contains x.toNat)) r.boundary (contributeStage e s r.window 1) h
    | none => startRaises e s r.results r.slot h

/-- Number of set bits of an OR result. -/
def maskCount (v : List Elem) : Nat := (v.map (fun x => ((List.range 64).filter (fun b => (elemInt x).getLsbD b)).length)).sum

/-- The group's spike test: the scores that waited for it enter, and the changes that they call for (R331–R334). -/
def rhizApply (e : Env) (r : Rhizome) (count places : Nat) (h : Hub) : Hub :=
  let cs : List Change := r.changes.map (fun c => ⟨BitVec.ofNat 32 c.1, c.2.1, c.2.2⟩)
  let h := markUnconf (r.results.map (fun q => q.entity)) r.unconf h
  let h := (enterScores r.results h).1
  noteClear r.results (applyChanges e r.slot (some (BitVec.ofNat 32 (h.casc.window + 1))) (isSpike h count r.scored places) cs (rhizEnd h))

/-- One step forward, when what the present step waits for is there. -/
def rhizStep (e : Env) (s : Scoring) (h : Hub) : Hub :=
  match h.casc.rhizome with
  | none => h
  | some r =>
    let xs := groupEnts s
    let stage := fun (st : Stage) (k : Nat) => match activeGen h (stageSlot h st), stageSlot h st with
      | some g, some i => (rhizResult h s r.window k (xs.length * (g.outs.length + 1))).map (fun v =>
          (if v.2 then stageResults g i r.boundary s.members.length xs v.1 else [], i))
      | _, _ => none
    match r.step with
    | 2 => if (List.range s.members.length).all (fun i => decide (i = myPos h s) || r.heard.contains i) then startScreen e s h else h
    | 3 => (match stage .screen 0 with
      | some (rs, i) => startConfirm e s (onRhiz (fun r => { r with results := rs, slot := i }) h)
      | none => h)
    | 4 => (match stage .confirm 1 with
      | some (cs, i) =>
        let q := confirmed h r.results cs r.gated
        startRaises e s q.1 i (onRhiz (fun r => { r with unconf := q.2 }) h)
      | none => h)
    | _ => (match rhizResult h s r.window 2 1, rhizResult h s r.window 3 32 with
      | some (c, true), some (m, true) => rhizApply e r ((elemInt (c.headD (.int 0))).toNat) (maskCount m) h
      | some _, some _ => unscored (r.results.map (fun q => q.entity)) (rhizEnd h)
      | _, _ => h)

/-- As far forward as the results at hand allow. -/
def rhizAdvance (e : Env) (h : Hub) : Hub :=
  match shardGroup h with
  | none => h
  | some s => rhizStep e s (rhizStep e s (rhizStep e s (rhizStep e s h)))

/-- A step's deadline passes without what it waits for (Table 8.4, R305, R306). -/
def rhizDeadline (e : Env) (step : Nat) (h : Hub) : Hub :=
  match shardGroup h, h.casc.rhizome with
  | some s, some r =>
    (match step with
      | 2 => rhizAdvance e (startScreen e s h)
      | 3 => rhizEnd (unscored (homeEnts h s) h)
      | 4 => rhizAdvance e (startRaises e s r.results r.slot (onRhiz (fun r => { r with unconf := r.gated }) h))
      | _ => unscored (r.results.map (fun q => q.entity)) (rhizEnd h))
  | _, _ => h

/-- Share of the window at which a step's deadline falls, in hundredths (Table 8.4). -/
def rhizShare (step : Nat) : Nat := getAt [0, 0, 20, 45, 70, 75] step 100

/-- The rhizome of a window begins at the boundary that ends the window after it (R303): the update phase, then the exchange with the
group's members, or, for a group of one, the screen pass over the tray's entities. -/
def rhizStart (e : Env) (h : Hub) : Hub :=
  let w := h.casc.window
  let tb := h.casc.windowTb
  match shardGroup h with
  | some s =>
    let h := detBoundary e (homeEnts h s) h
    let h := match h.casc.rhizome with
      | some r => unscored (if r.step = 5 then r.results.map (fun q => q.entity) else homeEnts h s) h
      | none => h
    let h := onCasc (fun c => { c with rhizome := some { window := w, boundary := tb, present := (homeEnts h s).map BitVec.toNat } }) h
    let others := s.members.filter (fun t => decide (t ≠ myTray h))
    (exchangeBodies h s w).foldl (fun h b => others.foldl (fun h t => photenSend 4 2 (2 ^ 17 + t) s.handle 0 b h) h) h
  | none =>
    let xs := rhizEnts e h
    let h := detBoundary e xs h
    cascPass e (stageSlot h .screen) .screen xs tb (soloScreen e) h

/-- An EXCHANGE of a member (Table 8.4 step 2): the words of its home entities enter their rows; a member is heard when all its
entities have come. -/
def exchangeRx (e : Env) (src : Nat) (b : List Byte) (h : Hub) : Hub :=
  match shardGroup h, h.casc.rhizome with
  | some s, some r =>
    let pos := s.members.idxOf (src % 1024)
    if r.step ≠ 2 ∨ pos ≥ s.members.length ∨ beAt b 0 4 ≠ r.window % 2 ^ 32 then h
    else
      let home := entsAt h s pos
      let ps := (readParts s b.length (b.drop 8)).filter (fun p => home.contains p.1)
      let h := ps.foldl (fun h p => (exchangeWords s p.1).zip p.2 |>.foldl (fun h w => featWrite e p.1 w.1 w.2 h) h) h
      let got := (r.present ++ ps.map (fun p => p.1.toNat)).dedup
      let all := home.all (fun x => got.contains x.toNat)
      rhizAdvance e (onRhiz (fun r => { r with present := got, heard := if all then (r.heard ++ [pos]).dedup else r.heard }) h)
  | _, _ => h

/-! Stage passes. -/

/-- A stage pass of the rhizome is complete: a group's member contributes it to the stage's rounds (R304). -/
def rhizPass (e : Env) (p : Pass) (stage : Nat) (h : Hub) : Hub :=
  match shardGroup h with
  | none => if stage = 0 then soloScreen e p h else soloConfirm e p h
  | some s =>
    match h.casc.rhizome with
    | none => h
    | some r =>
      if r.step ≠ 3 + stage ∨ p.tb ≠ r.boundary then h
      else rhizAdvance e (contributeStage e s r.window stage p h)

end Sys2Proof.Machine
end

