-- ==== Sys2Proof/Machine/RhizCmds.lean ====
section
/-!
DEFINITION. PASS_COMPLETE and the events of the rhizome (R269–R271, R281, R289, R303–R306).
-/
namespace Sys2Proof.Machine

/-- A rhizome pass that outlasts its window is recorded (R270). -/
def rhizOverrun (e : Env) (p : Pass) (h : Hub) : Hub := overrunAt e p (p.tb + (imgOf h).windowNs) h

/-- A quick pass that is still running at the next scan boundary is recorded (R270). -/
def quickOverrun (e : Env) (p : Pass) (h : Hub) : Hub := overrunAt e p ((p.tb / p.period + 1) * p.period) h

/-- The cores among scored entities. -/
def scoredCores (e : Env) (h : Hub) (p : Pass) : List Nat := p.results.filterMap (fun r => ownCore e h r.entity)

/-- PASS_COMPLETE (R269, R270, R289): the first pass without samples left ends, and its results go to the verdict unit, to the group's
rounds, or to the reply of its ENS_RUN. -/
def execPassComplete (s : State) : Host.Outcome State Fault Refusal :=
  s.run (fun e h =>
    match h.ens.passes.find? (fun p => p.todo.isEmpty) with
    | none => h
    | some p => guard (ensRuns e h) (fun h =>
        let h := passDone e p h
        match p.use with
        | .full => (scoredCores e h p).foldl (fun h c => autoClear e c h) (applyPass e p.slot p.results (judgePass e p h))
        | .quick => (scoredCores e h p).foldl (fun h c => autoClear e c h) (applyPass e p.slot p.results (quickOverrun e p h))
        | .screen => rhizPass e p 0 (rhizOverrun e p h)
        | .confirm => rhizPass e p 1 (rhizOverrun e p h)
        | .run pend dest job => runComplete e p pend dest job h) h)

/-- EXCHANGE_RECEIVE (Table 8.4 step 2): the exchange words of a member's home entities. -/
def execExchangeReceive (p : List Byte) (port : BitVec 6) (s : State) : Host.Outcome State Fault Refusal :=
  s.run (fun e h => photenRx e 4 p port.toNat (fun r h => if e.tray && serving h then exchangeRx e r.src r.body h else h) h)

/-- RHIZOME_STEP_DEADLINE (Table 8.4, R306): the step's share of the window has passed. -/
def execRhizomeStepDeadline (step : BitVec 3) (s : State) : Host.Outcome State Fault Refusal :=
  s.run (fun e h =>
    match h.casc.rhizome with
    | none => h
    | some r => guard (e.tray && working h && decide (r.step = step.toNat) &&
          decide (100 * (nowNs h - r.boundary) ≥ rhizShare step.toNat * (imgOf h).windowNs) &&
          !e.beaten evRound (r.boundary + rhizShare step.toNat * (imgOf h).windowNs / 100) (nowNs h)) (rhizDeadline e step.toNat) h)

end Sys2Proof.Machine
end

