-- ==== Sys2Proof/Machine/XsCmds.lean ====
section
/-!
DEFINITION. The commands of the exact-sum unit and the events of reduction rounds (R216–R243), but for the end of a window.
-/
namespace Sys2Proof.Machine

/-- The exact-sum unit runs: SERVING, and on command in DROWSE (Table 1.10). -/
def xsRuns (_ : Env) (h : Hub) : Bool := working h

/-- The unit's commands, whose rounds need Photen packets other than heartbeats, run: SERVING only (R35, R381). DEDUCED (log 72). -/
def redRuns (_ : Env) (h : Hub) : Bool := serving h

/-! XS_REDUCE. -/

/-- Words of the inline vector of an XS_REDUCE. -/
def inlineWords (c : Ctx) : Nat := if c.d 6 = 0 then c.n 5 * (elemSize (c.n 3) / 4) else 0
/-- The destination address. -/
def xsDest (c : Ctx) : Nat := c.d (8 + inlineWords c)
/-- Bytes of a vector in memory. -/
def xsBytes (c : Ctx) : Nat := c.n 5 * elemSize (c.n 3)
/-- The command's elements, inline or from memory. -/
def xsElems (e : Env) (h : Hub) (c : Ctx) : Option (List Elem) :=
  if c.d 6 = 0 then elemsOf elemOf (c.n 3) (c.n 5) (wordsBytes ((c.from_ 8).take (inlineWords c)))
  else (readMem e h (c.d 6) (xsBytes c)).bind (elemsOf elemOfMem (c.n 3) (c.n 5))

/-- This die is a member of a group. -/
def xsMember (e : Env) (h : Hub) (g : Nat) : Bool := !e.tray && (groupOf h g).any (fun x => x.dies.contains (dieNo e h))

/-- A round of this die is open. -/
def xsOpen (h : Hub) (g seq : Nat) : Bool := (roundAt h 0 g seq).isSome

/-! The command queue (R215): a request starts at once when the lanes and a context are free, and otherwise waits. -/

/-- The lanes are free in this cycle: egress squares have not taken all four (R184, R215). -/
def lanesFree (h : Hub) : Bool := decide (h.xs.laneNow ≠ 15)

/-- A request could start now. -/
def canStart (h : Hub) : Bool := h.xs.queue.isEmpty && lanesFree h && !(freeCtx h).isEmpty
/-- A request that comes now meets a full queue. -/
def queueFull (h : Hub) : Bool := !canStart h && decide (h.xs.queue.length ≥ 8)

/-- A request takes a context and does its work: an XS_REDUCE sends its vector, a NORM_REQ waits for its epoch (R230, R238). -/
def startRequest (e : Env) (group seq : Nat) (h : Hub) : Hub :=
  match roundAt h 0 group seq with
  | none => h
  | some r =>
    let x := (freeCtx h).head?
    match r.use with
    | .norm id ep => onXs (fun x => { x with norms := x.norms ++ [{ group := group, epoch := ep, pend := id }] })
        (putRound 0 group seq { r with ctx := x, acc := [] } h)
    | _ => dieContribute e 2 {
        group := group, seq := seq, op := r.op.toNat, level := 0, geom := r.geom.toNat, total := r.total, elems := r.acc.map Prod.snd }
        (putRound 0 group seq { r with ctx := x, acc := [], sent := true } h)

/-- A request is accepted. -/
def submitRequest (e : Env) (group seq : Nat) (h : Hub) : Hub :=
  if canStart h then startRequest e group seq h else onXs (fun x => { x with queue := x.queue ++ [(group, seq)] }) h

/-- Requests of the queue start while the lanes are free and a context is. -/
def drainQueue (e : Env) : Nat → Hub → Hub
  | 0, h => h
  | n + 1, h =>
    match h.xs.queue with
    | [] => h
    | q :: t =>
      if lanesFree h && !(freeCtx h).isEmpty && redRuns e h then drainQueue e n (startRequest e q.1 q.2 (onXs (fun x => { x with queue := t }) h)) else h

/-- A TENANT may name only groups of its job (R241). -/
def groupSee (_ : Env) (h : Hub) (c : Ctx) : Option Nat := if c.tenant && !groupSeen h c.job (c.n 1) then some 1 else none

/-- A request of the unit meets a round of its number that is open, no room for another round, or a full queue (R215, R230, R243). -/
def xsBusy (e : Env) (h : Hub) (group seq : Nat) : Bool := xsOpen h group seq || !roundRoom e h group seq || queueFull h

/-- The round of an XS_REDUCE opens with this die's vector, and its request is submitted (R230). -/
def beginReduce (e : Env) (c : Ctx) (es : List Elem) (id : Nat) (h : Hub) : Hub :=
  let r : Round := {
    op := BitVec.ofNat 4 (c.n 3), geom := w32 (c.n 4), total := es.length, use := .xsReduce id (xsDest c), opened := nowNs h, timer := nowNs h
    acc := es.zipIdx.map Prod.swap }
  submitRequest e (c.n 1) (c.n 2) (putRound 0 (c.n 1) (c.n 2) r (if c.d 6 = 0 then h else pulseLine 4 h))

/-- The round of a NORM_REQ opens, and its request is submitted (R237). -/
def beginNorm (e : Env) (c : Ctx) (id : Nat) (h : Hub) : Hub :=
  let q := seqOfNorm (c.n 2)
  let r : Round := { op := 3, total := 1, use := .norm id (c.w 2), opened := nowNs h, timer := nowNs h, tc := 0 }
  submitRequest e (c.n 1) q (putRound 0 (c.n 1) q r h)

/-- XS_REDUCE -/
def opXsReduce : OpDef := {
  code := 0x50, may := fleetTenant, runs := redRuns
  form := fun c => decide (9 ≤ c.words.length) && decide (c.words.length = 9 + inlineWords c), see := groupSee
  range := fun e h c => (firstBad [(1, decide (c.n 1 < 1024)), (2, decide (c.n 2 < 65536)), (3, decide (c.n 3 ≤ 6)), (4, geomOk (c.n 3) (c.n 4)),
      (5, decide (1 ≤ c.n 5) && decide (c.n 5 ≤ 8192)), (if c.d 6 = 0 then 8 else 6, (xsElems e h c).isSome),
      (8 + inlineWords c, if xsDest c = 0 then decide (2 + xsBytes c / 4 ≤ 346) else writable h (xsDest c) (xsBytes c))])
  act := fun e h c =>
    if !xsMember e h (c.n 1) then refuse stNotFound h 1
    else if xsBusy e h (c.n 1) (c.n 2) then refuse stBusy h
    else match xsElems e h c with
      | none => refuse stBadParam h 6
      | some es => .later (some (nowNs h + h.xs.resultTimeout)) (beginReduce e c es) }

/-- XS_REDUCE (R230): opens an on-demand round with this die's vector; the reply carries the result. -/
def execXsReduce (c : Cmd) (s : State) : Host.Outcome State Fault Refusal := s.runOp opXsReduce c

/-! The global norm service (R237–R240). -/

/-- NORM_REQ -/
def opNormReq : OpDef := {
  code := 0x51, may := fleetTenant, runs := redRuns, form := fun c => decide (c.words.length = 2), see := groupSee
  range := fun _ _ c => if c.n 1 < 1024 then none else some 1
  act := fun e h c =>
    if !xsMember e h (c.n 1) then refuse stNotFound h 1
    else if xsBusy e h (c.n 1) (seqOfNorm (c.n 2)) then refuse stBusy h
    else .later (some (nowNs h + h.xs.resultTimeout)) (beginNorm e c) }

/-- NORM_REQ (R237, R240): the die contributes once the epoch's digests are final. -/
def execNormReq (c : Cmd) (s : State) : Host.Outcome State Fault Refusal := s.runOp opNormReq c

/-- The egress digests of an epoch are final at this die (R171, R238): it is the older epoch, or it holds egress entries and none of its
egress deliveries is open or waits to be final. -/
def egressFinal (h : Hub) (ep : Word) : Bool :=
  h.dig.older.any (fun x => decide (x.num = ep)) ||
  (h.dig.newer.any (fun x => decide (x.num = ep) && !x.egress.isEmpty) &&
    !h.dig.egress.open_.any (fun d => decide (d.epoch = ep)) &&
    !h.dig.egress.finals.any (fun f => match f.2 with
      | .slice d _ => decide (d.epoch = ep)
      | _ => false))

/-- An epoch's sum of squares as a contribution (R184, R185, R238). -/
def normElem (h : Hub) (ep : Epoch) : Xa :=
  let x := laneSum h (b2n ep.ctx)
  { x with part := x.part || ep.sumPartial, incomplete := x.incomplete || ep.incomplete }

/-- This die no longer holds an epoch (R238): it has been opened and freed, or passed over. One above the newest may still be opened. -/
def epochGone (h : Hub) (ep : Word) : Bool :=
  (epochOf h ep).isNone && (h.dig.opened.contains ep || h.dig.newer.any (fun x => decide (ep.toNat < x.num.toNat)))

/-- NORM_CONTRIBUTE (R238): the die contributes its sum for the first epoch that is final, or records that it no longer holds one. -/
def execNormContribute (group : BitVec 10) (s : State) : Host.Outcome State Fault Refusal :=
  s.run (fun e h =>
    match h.xs.norms.find? (fun n => decide (n.group = group.toNat) && (egressFinal h n.epoch || epochGone h n.epoch)) with
    | none => h
    | some n => guard (!e.tray && working h) (fun h =>
        let h := onXs (fun x => { x with norms := x.norms.filter (fun q => decide (q.pend ≠ n.pend)) }) h
        let q := seqOfNorm n.epoch.toNat
        match epochOf h n.epoch, roundAt h 0 n.group q with
        | some ep, some r =>
          dieContribute e 0 { group := n.group, seq := q, op := 3, level := 0, total := 1, elems := [.xa (normElem h ep)] }
            (putRound 0 n.group q { r with sent := true } h)
        | _, _ => emitUnit 25 (unitId e h 30) 30 [w32 n.group, n.epoch] h) h)

/-! Packets. -/

/-- A reduction packet in SERVING, then what its result lets the rhizome do. -/
def redReceive (p : List Byte) (port : BitVec 6) (s : State) : Host.Outcome State Fault Refusal :=
  s.run (fun e h => photenRx e 0 p port.toNat (fun r h => if serving h then rhizAdvance e (reduceRx e r h) else h) h)

/-- REDUCE_CONTRIBUTION_RECEIVE (R222): the packet acts by its header. -/
def execReduceContributionReceive (p : List Byte) (port : BitVec 6) (s : State) : Host.Outcome State Fault Refusal := redReceive p port s

/-- REDUCE_RESULT_RECEIVE (R225): the packet acts by its header. -/
def execReduceResultReceive (p : List Byte) (port : BitVec 6) (s : State) : Host.Outcome State Fault Refusal := redReceive p port s

/-- REDIRECT_RECEIVE (R224): the packet acts by its header. -/
def execRedirectReceive (p : List Byte) (port : BitVec 6) (s : State) : Host.Outcome State Fault Refusal := redReceive p port s

/-! Cutoffs and timeouts. -/

/-- A level's cutoff has passed in hundredths of the window after the round's own (Table 6.8). -/
def cutoffPast (h : Hub) (r : Round) (share : Nat) : Bool :=
  decide (r.window + 1 < h.casc.window) ||
  (decide (r.window + 1 = h.casc.window) && decide (cutoffAt h share ≤ nowNs h))

/-- The levels of a round that have not sent yet and are due send what they have (R226, R227, R230). -/
def sendDue (e : Env) (g : Group) (group seq : Nat) (due : Nat → Round → Bool) (h : Hub) : Hub :=
  let at_ := fun (l : Nat) (h : Hub) => (roundAt h l group seq).filter (fun r => !r.sent && due l r)
  let h := match at_ 1 h with
    | some r => traySend e g group seq r h
    | none => h
  let h := match at_ 2 h with
    | some r => combSend e g group seq r h
    | none => h
  match at_ 3 h with
  | some r => rootForm e g group seq r h
  | none => h

/-- The operation of a round at this node. -/
def roundOp (h : Hub) (group seq : Nat) : Nat :=
  (([1, 2, 3].filterMap (fun l => roundAt h l group seq)).map (fun r => r.op.toNat)).headD 0

/-- REDUCTION_CUTOFF (R227, R229): at 40, 60 and 75% of the window the tray, combiner and root levels send what they have. -/
def execReductionCutoff (group : BitVec 16) (seq : BitVec 16) (s : State) : Host.Outcome State Fault Refusal :=
  s.run (fun e h =>
    match roundGroup h group.toNat seq.toNat (roundOp h group.toNat seq.toNat) with
    | none => h
    | some g => guard (e.tray && serving h)
        (fun h => rhizAdvance e (sendDue e g group.toNat seq.toNat
          (fun l r => decide (r.window ≠ 0) && cutoffPast h r (cutoffShare l) &&
            !e.beaten evContribution (cutoffAt h (cutoffShare l)) (nowNs h)) h)) h)

/-- Combiners of a round at the root whose contribution has not come and which have not been declared failed (R224). -/
def missingCombiners (h : Hub) (g : Group) (r : Round) : List Nat :=
  g.combiners.filter (fun c => !r.failed.contains (2 ^ 17 + c) && decide (c ≠ myTray h) &&
    (groupTrays g).any (fun t => decide (combinerFor g t = some c) && !posDone r t))

/-- MEMBER_TIMEOUT (R230): an on-demand round's levels send what they have; the root first declares its missing combiners failed
(COMBINER_TIMEOUT). -/
def execMemberTimeout (group : BitVec 16) (seq : BitVec 16) (s : State) : Host.Outcome State Fault Refusal :=
  s.run (fun e h =>
    match roundGroup h group.toNat seq.toNat (roundOp h group.toNat seq.toNat) with
    | none => h
    | some g => guard (e.tray && serving h)
        (fun h => rhizAdvance e (sendDue e g group.toNat seq.toNat (fun l r => decide (r.window = 0) && decide (r.timer + h.xs.memberTimeout ≤ nowNs h) &&
          !e.beaten evContribution (r.timer + h.xs.memberTimeout) (nowNs h) && (decide (l ≠ 3) || (missingCombiners h g r).isEmpty)) h)) h)

/-- COMBINER_TIMEOUT (R224): the root declares the combiner failed for the round and asks the trays of its positions not yet received to
send directly; the root's own wait begins again. -/
def execCombinerTimeout (group : BitVec 16) (seq : BitVec 16) (combiner : BitVec 10) (s : State) : Host.Outcome State Fault Refusal :=
  s.run (fun e h =>
    let c := combiner.toNat
    match roundGroup h group.toNat seq.toNat (roundOp h group.toNat seq.toNat), roundAt h 3 group.toNat seq.toNat with
    | some g, some r => guard (e.tray && serving h && !r.sent && (missingCombiners h g r).contains c && decide (r.timer + h.xs.memberTimeout ≤ nowNs h) &&
          !e.beaten evContribution (r.timer + h.xs.memberTimeout) (nowNs h))
        (fun h =>
          let ts := (groupTrays g).filter (fun t => decide (combinerFor g t = some c) && !posDone r t)
          let h := putRound 3 group.toNat seq.toNat { r with failed := r.failed ++ [2 ^ 17 + c], timer := nowNs h } h
          let h := emitUnit 26 (unitId e h 30) 30 ([group.setWidth 32, seq.setWidth 32, w32 c] ++ ts.map w32) h
          let m : Red := {
            group := group.toNat, seq := seq.toNat, op := r.op.toNat, level := 3, redirect := true, geom := r.geom.toNat, total := r.total, cover := ts
            window := r.window }
          ts.foldl (fun h t =>
            if t = myTray h then redirected e g m h else photenSend 0 r.tc.toNat (2 ^ 17 + t) group.toNat 0 (redBody m) h) h) h
    | _, _ => h)

/-- The command in progress that waits for a round, and the status it gets when no result comes (R230, R240). -/
def roundWait (r : Round) : Option (Nat × Nat) :=
  match r.use with
  | .xsReduce p _ => some (p, stTimeout)
  | .norm p _ => some (p, if r.sent then stTimeout else stNotFound)
  | _ => none

/-- A member's round is given up: its command completes, and a result that comes later is discarded. -/
def giveUp (e : Env) (group seq : Nat) (r : Round) (h : Hub) : Hub :=
  let h := onXs (fun x => { x with queue := x.queue.filter (fun q => decide (q ≠ (group, seq))) }) (dropRound 0 group seq h)
  let h := match r.use with
    | .norm p _ => onXs (fun x => { x with norms := x.norms.filter (fun q => decide (q.pend ≠ p)) }) h
    | .egressCompare ep _ => shadowHalf e ep true false none h
    | _ => h
  match roundWait r with
  | some (p, st) => finish e p st 0 [] (roundSeen h p group) h
  | none => h

/-- RESULT_TIMEOUT (R230, R240): a command without its result completes with TIMEOUT; a NORM_REQ to whose epoch this die did not contribute
completes with NOT_FOUND. -/
def execResultTimeout (group : BitVec 16) (seq : BitVec 16) (s : State) : Host.Outcome State Fault Refusal :=
  s.run (fun e h =>
    match roundAt h 0 group.toNat seq.toNat with
    | none => h
    | some r => guard (working h && !e.tray && (roundWait r).isSome && decide (r.opened + h.xs.resultTimeout ≤ nowNs h) &&
          !e.beaten evResult (r.opened + h.xs.resultTimeout) (nowNs h))
        (giveUp e group.toNat seq.toNat r) h)

/-- Nanoseconds of a round's lifetime (R224). -/
def roundLifetime : Nat := 100000000

/-- ROUND_LIFETIME_EXPIRY (R224, R243): what is held of the round is freed; a round without a result is recorded as expired. -/
def execRoundLifetimeExpiry (group : BitVec 16) (seq : BitVec 16) (s : State) : Host.Outcome State Fault Refusal :=
  s.run (fun e h => guard (working h) (fun h =>
    let old := ([0, 1, 2, 3].filterMap (fun l => (roundAt h l group.toNat seq.toNat).map (fun r => (l, r)))).filter
      (fun p => decide (p.2.opened + roundLifetime ≤ nowNs h) && !e.beaten evResult (p.2.opened + roundLifetime) (nowNs h))
    let h := if old.any (fun p => !p.2.done) then emitUnit 24 (unitId e h 30) 30 [group.setWidth 32, seq.setWidth 32] h else h
    old.foldl (fun h p => if p.1 = 0 then giveUp e group.toNat seq.toNat p.2 h else dropRound p.1 group.toNat seq.toNat h) h) h)

end Sys2Proof.Machine
end

