-- ==== Sys2Proof/Machine/AgeCmds.lean ====
section
/-!
DEFINITION. The commands and events of the ageing unit: monitors, drift, residence, concentration, margin plans, probes, persistence
(R342–R369).
-/
namespace Sys2Proof.Machine

/-- Change the ageing unit. -/
def onAge (f : AgeU → AgeU) (h : Hub) : Hub := { h with age := f h.age }
/-- The monitors run in every state but COLD, FUSE and DORMANT (R342). -/
def ageRuns (h : Hub) : Bool := portOn h

/-! Monitors (R342–R346). -/

/-- The monitors of a kind. -/
def Zone.mons (z : Zone) : MonKind → List Monitor
  | .temperature => z.temps
  | .droop => z.droops
  | .pathDelay => z.paths

/-- Put the monitors of a kind. -/
def Zone.setMons (z : Zone) (k : MonKind) (l : List Monitor) : Zone :=
  match k with
  | .temperature => { z with temps := l }
  | .droop => { z with droops := l }
  | .pathDelay => { z with paths := l }

/-- Range of a kind in its own unit (Table 9.1): 0.25 °C, 1 mV, 0.5 ps. -/
def monInRange (k : MonKind) (v : Int) : Bool :=
  match k with
  | .temperature => decide (-160 ≤ v) && decide (v ≤ 600)
  | .droop => decide (400 ≤ v) && decide (v ≤ 1200)
  | .pathDelay => decide (-400 ≤ v) && decide (v ≤ 800)

/-- The mean temperature of a region in °C. -/
def tempNow (h : Hub) (r : Nat) : Word :=
  match tempSum h r with
  | some (s, n) => ratio32 s (4 * n)
  | none => missing

/-- The mean supply of a region in mV. -/
def supplyNow (h : Hub) (r : Nat) : Word :=
  match supplySum h r with
  | some (s, n) => ratio32 s n
  | none => missing

/-- Baseline slack fuse of path-delay monitor `m` (Table 16.1). -/
def baseline (e : Env) (m : Nat) : Int := signed 16 (e.fuse (16 * m + 2557) (16 * m + 2542))

/-- The drift of a path-delay reading in ps (R344, R345). -/
def driftOf (e : Env) (h : Hub) (r m : Nat) (v : Int) : Word :=
  let s0 := baseline e (8 * r + m)
  if s0 = 0 then missing
  else
    let t0 := ratio32 (signed 10 (e.fuse 3575 3566)) 4
    let v0 := int32f (e.fuse 3587 3576)
    let sn := sub32 (sub32 (ratio32 v 2) (mul32 h.age.cT (sub32 (tempNow h r) t0))) (mul32 h.age.cV (sub32 (supplyNow h r) v0))
    sub32 (ratio32 s0 2) sn

/-- A monitor after a reading: repeated samples counted, and whether it has failed by R343's second case. -/
def Monitor.read (m : Monitor) (v minimum : Int) (drift : Word) (tb : Nat) : Monitor :=
  let m := { m with tb := tb }
  if m.value = some v then
    let n := m.same + 1
    { m with same := n, failed := m.failed || (decide (n ≥ 999) && m.changed), minimum := minimum, drift := drift }
  else { m with value := some v, same := 0, changed := false, minimum := minimum, drift := drift }

/-- A reading changes: the other monitors of its kind and region have seen a change beside them. -/
def markChanged (i : Nat) (l : List Monitor) : List Monitor := (l.zipIdx).map (fun p => if p.2 = i then p.1 else { p.1 with changed := true })

/-- A monitor fails: an outcome of the unit AGE (R343). -/
def monitorFailed (e : Env) (r m : Nat) (k : MonKind) (v : Int) (h : Hub) : Hub :=
  let kn := match k with
    | .temperature => 0
    | .droop => 1
    | .pathDelay => 2
  unitFault e 12 6 1 (unitId e h 12) [w32 r, w32 kn, w32 m, wInt v] h

/-- A sample that carries the TB of outcomes in the region's queue is used for them (R349). -/
def sampledConds (e : Env) (r : Nat) (h : Hub) : Hub :=
  onRegion r (fun x => { x with outq := x.outq.map (fun o => if o.tb = nowNs h then { o with cond := regionBin e h r } else o) }) h

/-- MONITOR_SAMPLE (R342, R343). -/
def execMonitorSample (r : RegionNo) (kind : MonKind) (m : BitVec 3) (value minimum : Int) (dips : Nat) (s : State) :
    Host.Outcome State Fault Refusal :=
  s.run (fun e h =>
    let z := zone h r.toNat
    let old := getAt (z.mons kind) m.toNat {}
    guard (ageRuns h && !old.failed && !(kind == .pathDelay && !e.tray && (region h r.toNat).stopped)) (fun h =>
      if !monInRange kind value then
        monitorFailed e r.toNat m.toNat kind value (onZone r.toNat (fun z => z.setMons kind (setAt (z.mons kind) m.toNat { old with failed := true })) h)
      else
        let d := if kind == .pathDelay then driftOf e h r.toNat m.toNat value else missing
        let new := old.read value minimum d (nowNs h)
        let l := setAt (z.mons kind) m.toNat new
        let l := if old.value = some value then l else markChanged m.toNat l
        let h := onZone r.toNat (fun z => z.setMons kind l) h
        let h := match kind with
          | .temperature => h
          | .droop =>
            let h := onZone r.toNat (fun z => { z with
              vmin := some (match z.vmin with
                | some x => min x minimum
                | none => minimum)
              dips := z.dips + dips, droopNow := z.droopNow || decide (dips > 0) }) h
            onAge (fun a => { a with droopsTotal := a.droopsTotal + dips }) h
          | .pathDelay => onZone r.toNat (fun z => { z with smin := some (match z.smin with
              | some x => min x value
              | none => value) }) h
        let h := sampledConds e r.toNat h
        if new.failed then monitorFailed e r.toNat m.toNat kind value h else h) h)

/-- The mean drift of a region's trimmed monitors (R346). -/
def meanDrift (h : Hub) (r : Nat) : Word :=
  let l := ((zone h r).paths.filter (fun m => !m.failed)).map Monitor.drift |>.filter (fun w => !(dec32 w).isNan)
  if l.isEmpty then missing else div32 (l.foldl add32 0) (int32f l.length)

/-- The drift-rate estimate in ps per 1,000 h: the least-squares slope through the hourly points, exact and rounded once (R346). -/
def driftRate (pts : List Word) : Word :=
  let l := (pts.zipIdx).filter (fun p => (dec32 p.1).isFin)
  let n := l.length
  if n < 24 then missing
  else
    let sx := (l.map Prod.snd).sum
    let sxx := (l.map (fun p => p.2 * p.2)).sum
    let sy := l.foldl (fun a p => a.add (dec32 p.1)) (Flt.ofInt 0)
    let sxy := l.foldl (fun a p => a.add ((Flt.ofInt p.2).mul (dec32 p.1))) (Flt.ofInt 0)
    let num := ((Flt.ofInt n).mul sxy).add ((Flt.ofInt sx).mul sy).neg
    scaleRat num 1000 (n * sxx - sx * sx)

/-! Concentration (R353–R355). -/

/-- A condition cell of a plane: failures and residence over the eight voltage bins. -/
def cellOf (h : Hub) (p t g : Nat) : Nat × Nat :=
  let bs := (List.range 8).map (fun v => binAt h p (t * 64 + v * 8 + g))
  ((bs.map Bin.failures).sum, (bs.map Bin.residence).sum)

/-- Totals of a plane. -/
def planeTotal (h : Hub) (p : Nat) : Nat × Nat :=
  let bs := (getAt h.age.planes p []).map Prod.snd
  ((bs.map Bin.failures).sum, (bs.map Bin.residence).sum)

/-- Cells of a plane that hold failures, as t × 8 + g. -/
def cellsWith (h : Hub) (p : Nat) : List Nat :=
  ((((getAt h.age.planes p []).filter (fun b => decide (b.2.failures > 0))).map (fun b => b.1 / 64 * 8 + b.1 % 8)).dedup)

/-- The cell is concentrated (R353). -/
def concentrated (h : Hub) (p k : Nat) : Bool :=
  let c := cellOf h p (k / 8) (k % 8)
  let t := planeTotal h p
  decide (c.1 ≥ h.age.cMin) && decide (c.1 * t.2 ≥ h.age.kConc * t.1 * c.2)

/-- The largest concentration ratio of a plane, as the numerator and divisor of a quotient (R355). -/
def worstRatio (h : Hub) (p : Nat) : Option (Nat × Nat) :=
  let t := planeTotal h p
  let l := ((cellsWith h p).map (fun k => cellOf h p (k / 8) (k % 8))).filter (fun c => decide (c.1 ≥ h.age.cMin))
  (l.map (fun c => (c.1 * t.2, t.1 * c.2))).foldl (fun a x => match a with
    | none => some x
    | some y => if y.2 = 0 ∨ x.1 * y.2 ≤ y.1 * x.2 then some y else some x) none

/-- The words of R355 for a region. -/
def ageWords (h : Hub) (r : Nat) : List Word :=
  let z := zone h r
  let num := fun (o : Option Int) (d : Nat) => match o with
    | some v => ratio32 v d
    | none => missing
  let lost := fun (k : MonKind) (w : Word) => if allFailed (z.mons k) then missing else w
  [num (if allFailed z.temps then otherMax h r else maxInt (readings z.temps)) 4, lost .droop (num z.vmin 1), lost .droop (int32f z.dips),
    lost .pathDelay (num (minInt (readings z.paths)) 2), z.drift, z.rate,
    match worstRatio h r with
    | some (a, b) => ratio32 a b
    | none => missing,
    int32f z.current.offset]

/-- The ageing figures of an aggregation window's end (R346, R348, R355): drift and rate, the busy band of a tray-role block, and the
features of the regions' rows. -/
def ageWindow (e : Env) (h : Hub) : Hub :=
  (List.range 8).foldl (fun h r =>
    let h := onZone r (fun z => { z with drift := meanDrift h r, rate := driftRate z.hourly }) h
    let h := if e.tray then onZone r (fun z => { z with
        busyBand := busyBandOf (Config.engineBusy h.casc.window) (imgOf h).windowNs, droopBit := z.droopNow, droopNow := false }) h
      else if e.regionAbsent r then h
      else featWrites e (ownId e h 2 r) (imgOf h).features.ageing (ageWords h r) h
    onZone r (fun z => { z with vmin := none, vminLast := z.vmin, dips := 0 }) h) h

/-- A condition test is asked of a core for a cell, at most once in 24 h (R354). -/
def askCondition (e : Env) (c k : Nat) (h : Hub) : Hub :=
  let now := nowNs h
  if h.age.asked.any (fun x => decide (x.1 = c) && decide (x.2.1 = k) && decide (now < x.2.2 + nsDay)) then h
  else dueTest e c 0 (some (k / 8, k % 8)) (onAge (fun a => { a with
    asked := a.asked.filter (fun x => !(decide (x.1 = c) && decide (x.2.1 = k))) ++ [(c, k, now)] }) h)

/-- Cores of a region with an outcome in a cell within the floor hold time (R354). -/
def coresInCell (e : Env) (h : Hub) (r k : Nat) : List Nat :=
  ((h.age.evidence.filter (fun x => e.present x.1 && decide (regionOf x.1 = r) && decide (x.2.1 = k) &&
    decide (nowNs h < x.2.2 + (policy h).floorHold))).map Prod.fst).dedup

/-- A concentrated cell: recorded; a region's cell asks for tests, the die's is reported (R354). -/
def concCell (e : Env) (p k : Nat) (h : Hub) : Hub :=
  let c := cellOf h p (k / 8) (k % 8)
  let h := emit 14 1 0 (if p < 8 ∧ e.tray = false then ownId e h 2 p else unitId e h 12) 12 3 [w32 p, w32 (k / 8), w32 (k % 8), w32 c.1, w32 c.2] h
  if p < 8 then (coresInCell e h p k).foldl (fun h c => askCondition e c k h) h
  else report 2 .concentration (unitId e h 12) [k / 8, k % 8, c.1, c.2] h

/-- CONCENTRATION_EVAL (R346, R353, R354): hourly. The hourly drift point is taken with it. -/
def execConcentrationEval (s : State) : Host.Outcome State Fault Refusal :=
  s.run (fun e h => guard (serving h && decide (h.age.lastConc + nsHour ≤ nowNs h)) (fun h =>
    let h := onAge (fun a => { a with lastConc := nowNs h }) h
    let h := (List.range 8).foldl (fun h r => onZone r (fun z => { z with hourly := (z.hourly ++ [meanDrift h r]).drop (z.hourly.length + 1 - 720) }) h) h
    (List.range 9).foldl (fun h p => ((cellsWith h p).filter (concentrated h p)).foldl (fun h k => concCell e p k h) h) h) h)

/-- One plane's part of a residence tick (R350). -/
def residencePlane (e : Env) (h : Hub) (p : Nat) : Hub :=
  let us := getAt h.age.remUs p 0 + 100
  let h := onAge (fun a => { a with remUs := setAt a.remUs p (us % 1000) }) h
  if us / 1000 = 0 then h else onBin p (planeBin e h p) (fun b => { b with residence := sat 40 (b.residence + us / 1000) }) h

/-- RESIDENCE_TICK (R350): 100 µs in the bin in force for each plane; whole milliseconds enter RESIDENCE. -/
def execResidenceTick (s : State) : Host.Outcome State Fault Refusal :=
  s.run (fun e h => guard (alive h && decide (h.age.lastTick + 100000 ≤ nowNs h)) (fun h =>
    (List.range 9).foldl (residencePlane e) (onAge (fun a => { a with lastTick := nowNs h / 100000 * 100000 }) h)) h)

/-! Margin plans (R356–R361). -/

/-- A plan goes to the host: the notice, and the wait for its ACK (R358, R359). -/
def sendPlan (r : Nat) (p : Plan) (h : Hub) : Hub :=
  let h := onZone r (fun z => { z with sent := some p }) h
  let h := onAge (fun a => { a with sentSeq := p.seq, ackDue := a.ackDue ++ [(p.seq, nowNs h + a.ackLimit)] }) h
  sendNotice 0x80 (p.words r) h

/-- A plan is formed: numbered, recorded, reported, and sent when `toHost`. -/
def formPlan (e : Env) (r cause : Nat) (off : Int) (cap : Nat) (toHost : Bool) (h : Hub) : Hub :=
  let n := h.age.planSeq + 1
  let p : Plan := { seq := n, cause := BitVec.ofNat 3 cause, offset := off, fcap := cap, smin := (zone h r).smin.getD 0, tb := nowNs h }
  let x := if e.tray then unitId e h 12 else ownId e h 2 r
  let h := onAge (fun a => { a with planSeq := n }) h
  let h := emit 14 0 0 x 12 1 (p.words r) h
  let h := report 2 .plan x [r, cause, unsigned 16 off, cap] h
  if toHost then sendPlan r p h else h

/-- The cap one step of 50 MHz lower, to no lower than F_FLOOR. -/
def capLower (h : Hub) (r cap : Nat) : Nat :=
  let top := if cap = 0 then getAt h.time.mhz r 1600 else cap
  max (top - 50) (min top h.age.fFloor)

/-- The cap one step higher; a cap that reaches the region's own frequency is none. DESIGN CHOICE (log 46). -/
def capRaise (h : Hub) (r cap : Nat) : Nat := if cap + 50 ≥ getAt h.time.mhz r 1600 then 0 else cap + 50

/-- The next plan from the current one (Table 9.4, R365): cause, offset and cap, or unchanged. -/
def nextPlan (h : Hub) (r : Nat) : Option (Nat × Int × Nat) :=
  let z := zone h r
  let a := h.age
  let off := z.current.offset
  let cap := z.current.fcap
  if z.probeFail then some (3, off, capLower h r cap)
  else match z.smin with
    | none => none
    | some s =>
      if s < a.sLow ∧ off < a.offMax then some (0, min a.offMax (off + a.step), cap)
      else if s < a.sLow then (if capLower h r cap = cap then none else some (0, off, capLower h r cap))
      else if s > a.sHigh ∧ z.highFor + a.interval ≥ nsHour then
        if cap ≠ 0 then some (1, off, capRaise h r cap)
        else if off ≤ a.offMin then none else some (1, max a.offMin (off - a.step), cap)
      else none

/-- PLAN_INTERVAL (R357): a region's next plan, unless a command has fixed it (R360). -/
def execPlanInterval (r : RegionNo) (s : State) : Host.Outcome State Fault Refusal :=
  s.run (fun e h =>
    let z := zone h r.toNat
    guard (serving h && decide (z.lastPlan + h.age.interval ≤ nowNs h)) (fun h =>
      let next := if z.manual || decide (h.age.mode = 0) then none else nextPlan h r.toNat
      let h := match next with
        | some p => formPlan e r.toNat p.1 p.2.1 p.2.2 (decide (h.age.mode = 2)) h
        | none => h
      let high := z.smin.any (fun x => decide (x > h.age.sHigh))
      onZone r.toNat (fun z => { z with
        lastPlan := nowNs h, smin := none, sminLast := z.smin, probeFail := if next.isSome then false else z.probeFail
        highFor := if high then z.highFor + h.age.interval else 0 }) h) h)

/-- PLAN_ACK_TIMEOUT (R359): the first plan whose limit has passed is recorded as unacknowledged. -/
def execPlanAckTimeout (s : State) : Host.Outcome State Fault Refusal :=
  s.run (fun e h =>
    match h.age.ackDue.find? (fun p => decide (p.2 ≤ nowNs h)) with
    | none => h
    | some p => guard (working h && !e.beaten evPlanAck p.2 (nowNs h)) (fun h =>
        let h := onAge (fun a => { a with ackDue := a.ackDue.filter (fun q => decide (q.1 ≠ p.1)) }) h
        let r := (List.range 8).find? (fun r => (zone h r).sent.any (fun x => decide (x.seq = p.1)))
        let h := match r with
          | some r => onZone r (fun z => { z with sent := none }) h
          | none => h
        emit 14 1 0 (unitId e h 12) 12 4 [p.1.setWidth 32] h) h)

/-- After a restart each region is sent the last acknowledged plan that the NV image keeps, before any new plan (R361). -/
def restorePlans (e : Env) (h : Hub) : Hub :=
  (List.range 8).foldl (fun h r =>
    let p := (zone h r).current
    if p.seq = 0 then h else formPlan e r 4 p.offset p.fcap true h) h

/-- Settings of the ageing unit, which MARGIN_PLAN MODE may carry after the mode. Their numbers are the model's own (log 45): S_LOW, S_HIGH,
step, OFFSET_MIN, OFFSET_MAX, F_FLOOR, plan interval, acknowledge limit, C_MIN, K_CONC, probe concurrency, interval and dwell, persist
interval, c_T, c_V, mode. -/
def ageSetting (num : Nat) (v : List Word) (a : AgeU) : Option AgeU :=
  match num with
  | 1 => (withinS (-400) 800 (oneS v)).map (fun n => { a with sLow := n })
  | 2 => (withinS (-400) 800 (oneS v)).map (fun n => { a with sHigh := n })
  | 3 => (withinS 1 25 (oneS v)).map (fun n => { a with step := n })
  | 4 => (withinS (-100) 150 (oneS v)).map (fun n => { a with offMin := n })
  | 5 => (withinS (-100) 150 (oneS v)).map (fun n => { a with offMax := n })
  | 6 => (within 0 65535 (one v)).map (fun n => { a with fFloor := n })
  | 7 => (within 1000000000 nsHour (two v)).map (fun n => { a with interval := n })
  | 8 => (within 1000000 10000000000 (two v)).map (fun n => { a with ackLimit := n })
  | 9 => (within 1 255 (one v)).map (fun n => { a with cMin := n })
  | 10 => (within 2 1024 (one v)).map (fun n => { a with kConc := n })
  | 11 => (within 0 16 (one v)).map (fun n => { a with probeConc := n })
  | 12 => (within nsHour (365 * nsDay) (two v)).map (fun n => { a with probeInt := n })
  | 13 => (two v).map (fun n => { a with dwell := n })
  | 14 => (within nsMin nsDay (two v)).map (fun n => { a with persist := n })
  | 15 => match v with
    | [w] => if (dec32 w).isFin then some { a with cT := w } else none
    | _ => none
  | 16 => match v with
    | [w] => if (dec32 w).isFin then some { a with cV := w } else none
    | _ => none
  | 17 => (within 0 2 (one v)).map (fun n => { a with mode := BitVec.ofNat 2 n })
  | _ => none

/-- S_LOW lies below S_HIGH and OFFSET_MIN below OFFSET_MAX (R357). -/
def ageOk (a : AgeU) : Bool := decide (a.sLow < a.sHigh) && decide (a.offMin < a.offMax)

/-- The domains of MARGIN_PLAN ACK and PROBE_DONE. -/
def fleetChannel (c : Ctx) : Bool := fleetDom c || fromChannel c

/-- MARGIN_PLAN MODE: the mode, then settings. DESIGN CHOICE (log 45). -/
def opPlanMode : OpDef := {
  code := 0x80, changes := true, may := fleetDom, runs := ensRuns, form := fun c => decide (2 ≤ c.words.length)
  range := fun _ h c => (if c.n 2 ≤ 2 then none else some 2).or ((badSet (c.settings 3 ageSetting h.age)).or
    (if ageOk (setOr h.age (c.settings 3 ageSetting h.age)) then none else some 0))
  act := fun _ h c => ok [] { h with age := { setOr h.age (c.settings 3 ageSetting h.age) with mode := BitVec.ofNat 2 (c.n 2) } } }

/-- MARGIN_PLAN MODE (R356, R357). -/
def execMarginPlanMode (c : Cmd) (s : State) : Host.Outcome State Fault Refusal := s.runOp opPlanMode (withOp 0 c)

/-- MARGIN_PLAN SET: region, offset in mV, frequency cap in MHz. -/
def opPlanSet : OpDef := {
  code := 0x80, changes := true, may := fleetDom, runs := ensRuns, form := fun c => decide (c.words.length = 4)
  range := fun _ _ c => firstBad [(2, decide (c.n 2 ≤ 7)), (3, (withinS (-100) 150 (oneS [c.w 3])).isSome), (4, decide (c.n 4 ≤ 65535))]
  act := fun e h c =>
    let h := if e.tray then h else noteCmd (ownId e h 2 (c.n 2)) h
    let h := onZone (c.n 2) (fun z => { z with manual := true, probeFail := false }) h
    ok [] (formPlan e (c.n 2) 2 (signed 32 (c.n 3)) (c.n 4) true h) }

/-- MARGIN_PLAN SET (R360): fixes a region's offset and cap and sends them at once with CAUSE 2. -/
def execMarginPlanSet (c : Cmd) (s : State) : Host.Outcome State Fault Refusal := s.runOp opPlanSet (withOp 1 c)

/-- MARGIN_PLAN AUTO: region. -/
def opPlanAuto : OpDef := {
  code := 0x80, changes := true, may := fleetDom, runs := ensRuns, form := fun c => decide (c.words.length = 2)
  range := fun _ _ c => if c.n 2 ≤ 7 then none else some 2
  act := fun _ h c => ok [] (onZone (c.n 2) (fun z => { z with manual := false }) h) }

/-- MARGIN_PLAN AUTO (R360): the planner takes the region back. -/
def execMarginPlanAuto (c : Cmd) (s : State) : Host.Outcome State Fault Refusal := s.runOp opPlanAuto (withOp 2 c)

/-- MARGIN_PLAN ACK: the plan sequence number. -/
def opPlanAck : OpDef := {
  code := 0x80, changes := true, may := fleetChannel, runs := ensRuns, form := fun c => decide (c.words.length = 2)
  act := fun _ h c =>
    let q := (c.w 2).setWidth 16
    match (List.range 8).find? (fun r => (zone h r).sent.any (fun p => decide (p.seq = q))) with
    | some r =>
      if c.n 2 < 65536 ∧ q = h.age.sentSeq ∧ h.age.ackDue.any (fun p => decide (p.1 = q)) = true then
        let h := onAge (fun a => { a with ackDue := a.ackDue.filter (fun p => decide (p.1 ≠ q)) }) h
        ok [] (onZone r (fun z => { z with current := z.sent.getD z.current, sent := none }) h)
      else refuse stNotFound h 2
    | none => refuse stNotFound h 2 }

/-- MARGIN_PLAN ACK (R358, R359): puts the newest plan sent in force. -/
def execMarginPlanAck (c : Cmd) (s : State) : Host.Outcome State Fault Refusal := s.runOp opPlanAck (withOp 3 c)

/-! Margin probes (R364–R366). -/

/-- One second: how long a probe waits for PROBE_DONE (R364). -/
def probeLimit : Nat := 1000000000

/-- The probe of a sequence number. -/
def probeOf (h : Hub) (q : Word) : Option Probe := h.age.probes.find? (fun p => decide (p.seq = q))

/-- The result of a probe: the highest step without an outcome, −1 when step 0 failed (R364). -/
def Probe.result (p : Probe) : Int :=
  match p.failedAt with
  | some k => (k : Int) - 1
  | none => 7

/-- A probe ends with a result (R364, R365). -/
def endProbe (e : Env) (p : Probe) (h : Hub) : Hub :=
  let x := coreId e h p.core
  let r := regionOf p.core
  let h := refreshHold e p.core (onAge (fun a => { a with probes := a.probes.filter (fun q => decide (q.seq ≠ p.seq)) }) h)
  let b := regionBin e h r
  let h := emit 14 0 0 x 12 2 [p.seq, wInt p.result, w32 (b / 64), w32 (b / 8 % 8), w32 (b % 8)] h
  let h := featWrite e x (imgOf h).features.probe (int32f p.result) h
  if p.result < 0 then onZone r (fun z => { z with probeFail := true }) (setFloor x 4 (nowNs h) h) else h

/-- MARGIN_PLAN PROBE_DONE: the sequence number. -/
def opProbeDone : OpDef := {
  code := 0x80, changes := true, may := fleetChannel, runs := ensRuns, form := fun c => decide (c.words.length = 2)
  act := fun e h c =>
    match probeOf h (c.w 2) with
    | none => refuse stNotFound h 2
    | some p => if p.notice + probeLimit < nowNs h then refuse stNotFound h 2 else okCross h [] (endProbe e p h) }

/-- MARGIN_PLAN PROBE_DONE (R364, R365). -/
def execMarginPlanProbeDone (c : Cmd) (s : State) : Host.Outcome State Fault Refusal := s.runOp opProbeDone (withOp 4 c)

/-- PROBE_TIMEOUT (R364): a probe without PROBE_DONE within 1 s is closed as incomplete. -/
def execProbeTimeout (seq : Word) (s : State) : Host.Outcome State Fault Refusal :=
  s.run (fun e h =>
    match probeOf h seq with
    | none => h
    | some p => guard (working h && decide (p.notice + probeLimit ≤ nowNs h) && !e.beaten evProbeDone (p.notice + probeLimit) (nowNs h)) (closeProbe e p) h)

/-! Persistence (R367, R368). -/

/-- Bytes of one copy of the ageing image: generation, nine planes of 1,024 bins, hourly points, plans, CRC. The order is the model's
(log 47). -/
def ageBytes (gen : Nat) (a : AgeU) : List Byte :=
  let plan := fun (z : Zone) => (z.current.words 0).flatMap (fun w => leBytes 4 w.toNat)
  let body := leBytes 4 gen ++ a.planes.flatMap (fun p => (List.range 1024).flatMap (fun b => leBytes 16 (Bin.word (Tab.getD p b {})))) ++
    a.zones.flatMap (fun z => (List.range 720).flatMap (fun i => leBytes 4 (getAt z.hourly i missing).toNat)) ++ a.zones.flatMap plan
  body ++ leBytes 4 (crc32c body).toNat

/-- Distance between the two copies in NV memory. DESIGN CHOICE (log 47). -/
def ageStride : Nat := 262144

/-- Place of a copy. -/
def agePlaceOf (h : Hub) (copy : Nat) : Nat := (imgOf h).agePlace + ageStride * copy

/-- Write the older copy under the next generation. -/
def persistAge (e : Env) (h : Hub) : Hub :=
  let g := (h.age.nvgen + 1).toNat
  let a := agePlaceOf h (g % 2)
  let bs := ageBytes g h.age
  onAge (fun x => { x with nvgen := x.nvgen + 1, changed := [], lastPersist := nowNs h }) (nvPost a bs (nvErase e a bs.length h))

/-- AGEING_PERSIST (R367): the older copy, every persist interval. -/
def execAgeingPersist (s : State) : Host.Outcome State Fault Refusal :=
  s.run (fun e h => guard (alive h && h.img.isSome && decide (h.age.lastPersist + h.age.persist ≤ nowNs h)) (persistAge e) h)

/-- AGEING_EARLY_PERSIST (R367): when 200 bins have changed since the last write. -/
def execAgeingEarlyPersist (s : State) : Host.Outcome State Fault Refusal :=
  s.run (fun e h => guard (alive h && h.img.isSome && decide (h.age.changed.length ≥ 200)) (persistAge e) h)

/-! LIFE_READ (R369). -/

/-- The words of a bin entry. -/
def Bin.words (b : Bin) : List Word := bytesWords (beBytes 16 b.word)

/-- The drift figures and current plans of the eight regions. -/
def driftWords (h : Hub) : List Word :=
  (List.range 8).flatMap (fun r => let z := zone h r; [z.drift, z.rate] ++ z.current.words r)

/-- Filled bins of a plane as they fit into a reply: how many there are, then index and entry of each. -/
def planeWords (h : Hub) (p : Nat) : List Word :=
  let bs := (getAt h.age.planes p []).filter (fun b => decide (b.2.word ≠ 0))
  w32 bs.length :: (bs.take 68).flatMap (fun b => w32 b.1 :: b.2.words)

/-- LIFE_READ: nothing for the drift figures and plans; a plane; or a plane and a condition cell t × 8 + g. DESIGN CHOICE (log 48). -/
def opLifeRead : OpDef := {
  code := 0x81, may := fleetDom, form := fun c => decide (c.words.length ≤ 2)
  range := fun _ _ c => firstBad [(1, decide (c.n 1 ≤ 8)), (2, decide (c.n 2 < 128))]
  act := fun _ h c =>
    match c.words.length with
    | 0 => ok (driftWords h) h
    | 1 => ok (planeWords h (c.n 1)) h
    | _ => ok ((List.range 8).flatMap (fun v => (binAt h (c.n 1) (c.n 2 / 8 * 64 + v * 8 + c.n 2 % 8)).words)) h }

/-- LIFE_READ (R369). -/
def execLifeRead (c : Cmd) (s : State) : Host.Outcome State Fault Refusal := s.runOp opLifeRead c

end Sys2Proof.Machine
end

