-- ==== Sys2Proof/Machine/TraceCmds.lean ====
section
/-!
DEFINITION. The commands and events of the trace unit and the compressors (R484–R513).
-/
namespace Sys2Proof.Machine

/-- The trace unit runs: CONFIG, PLAYA, SERVING and, with marks only, DROWSE (R495, R496). -/
def traceRuns (_ : Env) (h : Hub) : Bool := alive h

/-- A two-word value that is a multiple. -/
def aligned (m : Nat) (v : Option Nat) : Option Nat := v.bind (fun n => if n % m = 0 then some n else none)

/-- TRC_CFG settings (Table 13.16). -/
def trcSetting (num : Nat) (v : List Word) (t : TrcSet) : Option TrcSet :=
  match num with
  | 1 => (within 0 4 (one v)).map (fun n => { t with sink := n })
  | 2 => if v.length ≤ 64 ∧ v.Nodup ∧ v.all (fun w => decide (w.toNat < 2048)) = true then some { t with cores := v.map BitVec.toNat } else none
  | 3 => (within 0 1 (one v)).map (fun n => { t with ctl := decide (n = 1) })
  | 4 => (within 0 63 (one v)).map (fun n => { t with marks := BitVec.ofNat 6 n })
  | 5 => (within 0 1600 (one v)).map (fun n => { t with stretchMin := n })
  | 6 => (aligned 1024 (within 1024 65536 (two v))).map (fun n => { t with seif := n / 1024 })
  | 7 => (two v).bind (fun n => if n = 0 ∨ (10000 ≤ n ∧ n ≤ 100000000) then some { t with flush := n } else none)
  | 8 => (aligned 65536 (two v)).map (fun n => { t with memBase := n })
  | 9 => (aligned 65536 (two v)).bind (fun n => if n = 0 ∨ (131072 ≤ n ∧ n ≤ 4294967296) then some { t with memSize := n } else none)
  | 10 => (within 0 (2 ^ 18 - 1) (one v)).map (fun n => { t with dst := some (BitVec.ofNat 18 n) })
  | 11 => (aligned 65536 (two v)).bind (fun n => if n = 0 ∨ 131072 ≤ n then some { t with reserve := some n } else none)
  | 12 => (within 0 (2 ^ 40) (two v)).map (fun n => { t with post := n })
  | 13 => (within 0 127 (one v)).map (fun n => { t with cond := BitVec.ofNat 7 n })
  | 14 => match v with
    | [k, m, x] => if k.toNat ≤ 5 then some { t with matchKind := k.toNat, matchMask := m, matchVal := x } else none
    | _ => none
  | _ => none

/-- Bytes of the buffer that a sink setting names; 0 for the sinks without one. -/
def sinkBytes (t : TrcSet) : Nat := if t.sink = 3 then 2097152 else if t.sink = 2 then t.memSize else 0

/-- The settings agree: MEMORY has a size, PHOTEN a destination, RESERVE leaves 128 KiB of the buffer, and a tray-role block selects no
core (R484, Table 13.16). -/
def trcOk (e : Env) (t : TrcSet) : Bool :=
  !(t.sink == 2 && t.memSize == 0) && !(t.sink == 4 && t.dst.isNone) &&
  (match t.reserve with
    | some n => decide (n = 0) || decide (sinkBytes t = 0) || decide (n + 131072 ≤ sinkBytes t)
    | none => true) &&
  !(e.tray && !t.cores.isEmpty)

/-- The settings asked for so far: those that wait for a block boundary, or those in force. -/
def trcWanted (h : Hub) : TrcSet := h.trc.next.getD h.trc.set

/-- A change of SINK or of a buffer setting starts a new capture (R495, R511). -/
def newCapture (a b : TrcSet) : Bool :=
  !(decide (a.sink = b.sink) && decide (a.memBase = b.memBase) && decide (a.memSize = b.memSize) && decide (a.dst = b.dst) &&
    decide (a.reserve = b.reserve))

/-- Settings take effect at the next block boundary, at once when no block is in progress, or with a new capture (R511); the seif period and
the flush interval, which R511 does not name, at once. -/
def setTrace (e : Env) (t : TrcSet) (h : Hub) : Hub :=
  let h := onTrc (fun x => { x with set := { x.set with seif := t.seif, flush := t.flush } }) h
  if newCapture h.trc.set t then
    let h := endCapture e 3 h
    let h := applyTrcNext e (onTrc (fun x => { x with next := some t }) h)
    startCapture (sinkOf h) h
  else
    let h := onTrc (fun x => { x with next := some t }) h
    if h.trc.cur.isEmpty then applyTrcNext e h else h

/-- TRC_CFG -/
def opTrcCfg : OpDef := {
  code := 0x90, changes := true, may := fleetDebug, runs := traceRuns, form := fun c => decide (1 ≤ c.words.length)
  range := fun e h c => (badSet (c.settings 1 (fun n v t => if e.tray && decide (n = 2) && !v.isEmpty then none else trcSetting n v t) (trcWanted h))).or
    (if trcOk e (setOr (trcWanted h) (c.settings 1 trcSetting (trcWanted h))) then none else some 0)
  act := fun e h c =>
    let t := setOr (trcWanted h) (c.settings 1 trcSetting (trcWanted h))
    if t.cores.all e.present then okCross h [] (setTrace e t h) else refuse stNotFound h }

/-- TRC_CFG (R47, R484, R485, R495, R511). -/
def execTrcCfg (c : Cmd) (s : State) : Host.Outcome State Fault Refusal := s.runOp opTrcCfg c

/-- A TRC_TRIG action (Table 13.10) without further parameters. -/
def trigOp (n : Nat) (act : Env → Hub → Ctx → Ans) : OpDef := {
  code := 0x91, changes := true, may := fleetDebug, runs := traceRuns
  form := fun c => decide (c.words.length = (if n = 4 then 5 else 1)), act := act }

/-- TRC_TRIG ARM -/
def opTrigArm : OpDef := trigOp 0 (fun _ h _ =>
  if sinkFrozen h.trc || h.trc.posting then refuse stWrongState h else ok [] (onTrc (fun t => { t with armed := true }) h))

/-- TRC_TRIG ARM (R502). -/
def execTrcTrigArm (c : Cmd) (s : State) : Host.Outcome State Fault Refusal := s.runOp opTrigArm (withOp 0 c)

/-- TRC_TRIG DISARM -/
def opTrigDisarm : OpDef := trigOp 1 (fun _ h _ => ok [] (onTrc (fun t => { t with armed := false }) h))

/-- TRC_TRIG DISARM (R502). -/
def execTrcTrigDisarm (c : Cmd) (s : State) : Host.Outcome State Fault Refusal := s.runOp opTrigDisarm (withOp 1 c)

/-- TRC_TRIG FIRE -/
def opTrigFire : OpDef := trigOp 2 (fun e h _ => ok [] (trigger e 0 h))

/-- TRC_TRIG FIRE (R502): condition 0. -/
def execTrcTrigFire (c : Cmd) (s : State) : Host.Outcome State Fault Refusal := s.runOp opTrigFire (withOp 2 c)

/-- Discard a frozen buffer's capture and start a new one (Table 13.10, Table 13.6). -/
def releaseBuf (e : Env) (erg : Bool) (h : Hub) : Hub :=
  let h := endCapture e 3 h
  let h := onTrc (fun t => if erg then { t with erg := {} } else { t with mem := {} }) h
  startCapture (sinkOf h) h

/-- TRC_TRIG RELEASE: the current buffer sink's frozen capture, or the erg's when SINK is not ERG. -/
def opTrigRelease : OpDef := trigOp 3 (fun e h _ =>
  if sinkFrozen h.trc then ok [] (releaseBuf e (h.trc.sink == 3) h)
  else if h.trc.sink ≠ 3 ∧ h.trc.erg.frozen = true then ok [] (releaseBuf e true h)
  else refuse stWrongState h)

/-- TRC_TRIG RELEASE (R498). -/
def execTrcTrigRelease (c : Cmd) (s : State) : Host.Outcome State Fault Refusal := s.runOp opTrigRelease (withOp 3 c)

/-- TRC_TRIG DUMP: address, maximum length. -/
def opTrigDump : OpDef := trigOp 4 (fun _ h c =>
  if !h.trc.erg.frozen then refuse stWrongState h
  else
    let bs := h.trc.erg.blocks.flatMap Prod.snd
    if bs.length > c.d 4 then refuse stNoSpace h
    else match writeOut 1 (c.d 2) bs h with
      | some h => ok (w64 bs.length) h
      | none => refuse stBadParam h 2)

/-- TRC_TRIG DUMP (R498): the frozen erg, oldest block first, to memory. -/
def execTrcTrigDump (c : Cmd) (s : State) : Host.Outcome State Fault Refusal := s.runOp opTrigDump (withOp 4 c)

/-- NID_CFG settings (Table 13.16). -/
def nidSetting (num : Nat) (v : List Word) (n : Nid) : Option Nid :=
  match num with
  | 1 => (within 0 3 (one v)).map (fun x => { n with level := x })
  | 2 => (within 0 1 (one v)).map (fun x => { n with verify := decide (x = 1) })
  | _ => none

/-- NID_CFG -/
def opNidCfg : OpDef := {
  code := 0x92, changes := true, may := fleetDebug, runs := traceRuns, form := fun c => decide (1 ≤ c.words.length)
  range := fun _ h c => badSet (c.settings 1 nidSetting h.nid)
  act := fun _ h c => ok [] { h with nid := setOr h.nid (c.settings 1 nidSetting h.nid) } }

/-- NID_CFG (R511, R510). -/
def execNidCfg (c : Cmd) (s : State) : Host.Outcome State Fault Refusal := s.runOp opNidCfg c

/-- TRC_TRIGIN_RISE (R502): trigger condition 1. -/
def execTrcTriginRise (s : State) : Host.Outcome State Fault Refusal := s.run (fun e h => trigger e 1 h)

/-- TRACE_BLOCK_END (R506): no packet fits into the block any more; the shortest timed packet has four bytes. -/
def execTraceBlockEnd (s : State) : Host.Outcome State Fault Refusal :=
  s.run (fun e h => guard (alive h && decide (h.trc.cur.length + 4 > 65536)) (endBlock e false false false) h)

/-- TRACE_FLUSH_INTERVAL (R506): the flush interval has passed since the block's first packet. -/
def execTraceFlushInterval (s : State) : Host.Outcome State Fault Refusal :=
  s.run (fun e h => guard (alive h && !h.trc.cur.isEmpty && h.trc.set.flush != 0 && decide (h.trc.curTb + h.trc.set.flush ≤ nowNs h))
    (endBlock e false false true) h)

/-- POST_TRIGGER_END (R504): the count or the reserve limit ends the capture. -/
def execPostTriggerEnd (s : State) : Host.Outcome State Fault Refusal :=
  s.run (fun e h =>
    match postDue h.trc with
    | some c => guard (alive h) (endPost e c) h
    | none => h)

/-- COMPRESS_DONE (R507, R510). -/
def execCompressDone (s : State) : Host.Outcome State Fault Refusal := s.run (fun _ h => guard (alive h) compressOne h)

/-- SINK_BLOCK_WRITE (R497–R501): the next block in BSEQ order reaches the sink; none does in FLUSH (R505). -/
def execSinkBlockWrite (s : State) : Host.Outcome State Fault Refusal := s.run (fun _ h => guard (alive h) sinkOne h)

/-- TRACE_PORT_FRAME (R501): a frame of up to 2,048 bytes of the sink stream; nothing while TRC_RDY is low. -/
def execTracePortFrame (s : State) : Host.Outcome State Fault Refusal :=
  s.run (fun e h => guard (alive h) (portFrame e) h)

/-- PHOTEN_TRACE_RECEIVE (R499, R376, R380): the packet is checked and sequence-tracked; the block does nothing more with it. -/
def execPhotenTraceReceive (p : List Byte) (port : BitVec 6) (s : State) : Host.Outcome State Fault Refusal :=
  s.run (fun e h => photenRx e 3 p port.toNat (fun _ h => h) h)

end Sys2Proof.Machine
end

