-- ==== Sys2Proof/Machine/FabCmds.lean ====
section
/-!
DEFINITION. The events of the Photen output queue, the sideband ports, heartbeats, verdict frames, time over the sideband, routes and
replies of member dies (R376–R397, R469, R470).
-/
namespace Sys2Proof.Machine

/-! Photen transmit (R376–R381). -/

/-- The share meter's bucket after filling up to now, in units of 2^-10 byte: SHARE × LINK_RATE, 16 KiB at most (R378). -/
def bucketNow (h : Hub) : Nat :=
  let i := imgOf h
  min 16777216 (h.fab.bucket + (nowNs h - h.fab.filled) * i.share * i.linkRate * 1024 / 8000000000000)

/-- The packet at the queue's head: the first of the highest class that has one (R379); in DROWSE a HEARTBEAT (R381). -/
def txHead (h : Hub) : Option Packet :=
  let q := (queued h.fab.outq).filter (fun p => serving h || decide (p.type = 5))
  (List.range 4).findSome? (fun c => q.find? (fun p => decide (p.tc.toNat = c)))

/-- The packet leaves the output queue. -/
def unqueue (p : Packet) (h : Hub) : Hub := noteFill { h with fab := { h.fab with outq := h.fab.outq.erase p } }

/-- The packet is sent green: MSEQ and FRESH of its class, and the bucket pays its length (R376, R378). -/
def sendGreen (e : Env) (p : Packet) (level : Nat) (h : Hub) : Hub :=
  let c := p.tc.toNat
  let n := getAt h.fab.mseq c 0
  let fr := getAt h.fab.fresh c 0
  let f := h.fab
  unqueue p { h with fab := { f with
    sent := f.sent ++ [photenBytes p (nodeNo e h) n.toNat false (decide (fr > 0))], tx := f.tx + 1, mseq := setAt f.mseq c (n + 1)
    fresh := setAt f.fresh c (fr - 1), bucket := level - 1024 * photenLen p.body, filled := nowNs h } }

/-- PHOTEN_TX_HEAD (R378, R379): the packet at the head is sent green, waits, or, red in TC3, is discarded. -/
def execPhotenTxHead (s : State) : Host.Outcome State Fault Refusal :=
  s.run (fun e h =>
    match txHead h with
    | none => h
    | some p => guard (working h) (fun h =>
        let b := bucketNow h
        if 1024 * photenLen p.body ≤ b then sendGreen e p b h
        else
          let h := { h with fab := { h.fab with bucket := b, filled := nowNs h } }
          if p.tc = 3 then unqueue p { h with fab := { h.fab with red := h.fab.red + 1 } } else h) h)

/-! Heartbeats (R381, R392, R393). -/

/-- Records that wait for upload (R392, R558): the heartbeat's figure. -/
def waitingRecords (h : Hub) : Nat := h.log.rseq.toNat - h.log.sent

/-- The heartbeat payload (R392). -/
def heartbeatNow (e : Env) (h : Hub) : Heartbeat :=
  { die := BitVec.ofNat 17 (dieNo e h), state := BitVec.ofNat 3 h.sys.st.code, quality := h.time.quality
    playa := if h.sys.st == .playa then h.sys.playaCause else 0, ports := (List.range 4).map (fun i => (sbPort h i).state)
    verdictSeq := h.sb.vseq, offset := wInt h.time.offset, waiting := w32 (waitingRecords h) }

/-- The bytes of a heartbeat in a Photen packet: die, state with quality and PLAYA cause, ports, verdict number, offset, records waiting,
a word each. DESIGN CHOICE (log 49). -/
def heartbeatBytes (b : Heartbeat) : List Byte :=
  beBytes 4 b.die.toNat ++ beBytes 4 (b.state.toNat * 256 + b.quality.toNat * 16 + b.playa.toNat) ++
    beBytes 4 ((b.ports.zipIdx.map (fun p => p.1.toNat * 4 ^ p.2)).sum) ++ beBytes 4 b.verdictSeq.toNat ++ beBytes 4 b.offset.toNat ++
    beBytes 4 b.waiting.toNat

/-- A heartbeat read from its bytes. -/
def readHeartbeat (b : List Byte) : Heartbeat :=
  { die := BitVec.ofNat 17 (beAt b 0 4), state := BitVec.ofNat 3 (bitsOf (beAt b 4 4) 10 8), quality := BitVec.ofNat 2 (bitsOf (beAt b 4 4) 5 4)
    playa := BitVec.ofNat 3 (beAt b 4 4), ports := (List.range 4).map (fun i => BitVec.ofNat 2 (beAt b 8 4 / 4 ^ i))
    verdictSeq := BitVec.ofNat 32 (beAt b 12 4), offset := BitVec.ofNat 32 (beAt b 16 4), waiting := BitVec.ofNat 32 (beAt b 20 4) }

/-- A die's HEARTBEAT to its tray-role block, on the alternate route every eighth time (R392). -/
def sendHeartbeat (e : Env) (h : Hub) : Hub :=
  let n := h.sb.beat + 1
  let f : SbFrame := { ftype := 4, payload := .heartbeat (heartbeatNow e h) }
  sbUp e (some (decide (n % 8 = 0))) f { h with sb := { h.sb with beat := n, lastBeat := nowNs h } }

/-- HEARTBEAT_SEND (R392). -/
def execHeartbeatSend (s : State) : Host.Outcome State Fault Refusal :=
  s.run (fun e h => guard (!e.tray && sbRuns h && decide (h.sb.lastBeat + h.sb.beatPeriod ≤ nowNs h)) (sendHeartbeat e) h)

/-- A die's entity. -/
def dieId (d : Nat) : Word := entId 3 (d * 2048)

/-- The tray hears a member die (R392–R394): its figures, the echoed verdict, a change of port states, and the end of a loss. -/
def noteHeartbeat (e : Env) (b : Heartbeat) (h : Hub) : Hub :=
  let d := b.die.toNat
  if !memberDie e h d then h
  else
    let m := member h d
    let h := if m.ports = b.ports then h else { h with sb := { h.sb with changed := some (h.sb.changed.getD (nowNs h)) } }
    let h := if m.lost then featWrite e (dieId d) (imgOf h).features.lost (int32f 0) h else h
    onMember d (fun m => { m with
      last := nowNs h, state := b.state, quality := b.quality, playa := b.playa, ports := b.ports, offset := b.offset, waiting := b.waiting
      lost := false, sent := m.sent.filter (fun v => decide (v.msg.seq ≠ b.verdictSeq)) }) h

/-- SB_HEARTBEAT_RECEIVE (R392). -/
def execSbHeartbeatReceive (port : BitVec 4) (f : SbFrame) (s : State) : Host.Outcome State Fault Refusal :=
  s.run (fun e h => sbOn e 4 port.toNat f (fun h =>
    match f.payload with
    | .heartbeat b => if e.tray && sbMine e f then noteHeartbeat e b h else h
    | _ => h) h)

/-- PHOTEN_HEARTBEAT_RECEIVE (R381). -/
def execPhotenHeartbeatReceive (p : List Byte) (port : BitVec 6) (s : State) : Host.Outcome State Fault Refusal :=
  s.run (fun e h => photenRx e 5 p port.toNat (fun r h => if e.tray then noteHeartbeat e (readHeartbeat r.body) h else h) h)

/-- DIE_LOST (R393): no heartbeat from a member die for 4 heartbeat periods. -/
def execDieLost (die : BitVec 7) (s : State) : Host.Outcome State Fault Refusal :=
  s.run (fun e h =>
    let d := (imgOf h).tray * 128 + die.toNat
    guard (memberDie e h d && sbRuns h && !(member h d).lost && decide ((member h d).last + 4 * h.sb.beatPeriod ≤ nowNs h) &&
      !e.beaten (evHeartbeat d) ((member h d).last + 4 * h.sb.beatPeriod) (nowNs h)) (fun h =>
      let h := emit 9 1 0 (dieId d) 4 14 [w32 d] (onMember d (fun m => { m with lost := true }) h)
      let h := featWrite e (dieId d) (imgOf h).features.lost (int32f 1) { h with sb := { h.sb with dieLosses := h.sb.dieLosses + 1 } }
      report 0 .dieLost (dieId d) [] h) h)

/-- TRAY_LOST (R393, R463): no SYNC for 4 sync intervals; the sequence states of the relay origins are cleared. -/
def execTrayLost (s : State) : Host.Outcome State Fault Refusal :=
  s.run (fun e h => guard (!e.tray && sbRuns h && !h.sb.trayLost && decide (h.sb.lastSync + 4 * h.time.syncInt ≤ nowNs h) &&
      !e.beaten evSync (h.sb.lastSync + 4 * h.time.syncInt) (nowNs h)) (fun h =>
    let h := emit 9 1 0 (entId 5 (imgOf h).tray) 4 14 [w32 (imgOf h).tray] h
    let h := { h with cmd := { h.cmd with seqs := h.cmd.seqs.filter (fun q => decide (q.1 < 32)) } }
    { h with sb := { h.sb with trayLost := true, trayLosses := h.sb.trayLosses + 1 } }) h)

/-! Ports (R385–R387). -/

/-- A port changes state: recorded (R385); a tray-role block's routes are due for recomputation (R391). -/
def setPort (e : Env) (i : Nat) (st : Nat) (h : Hub) : Hub :=
  let old := (sbPort h i).state.toNat
  if old = st then h
  else
    let h := emitState 6 [w32 i, w32 old, w32 st] (onPort i (fun p => { p with state := BitVec.ofNat 2 st }) h)
    if e.tray then { h with sb := { h.sb with changed := some (h.sb.changed.getD (nowNs h)) } } else h

/-- A port goes DOWN: its link's sequence restarts, and what it held cannot be delivered. -/
def portDown (e : Env) (i : Nat) (h : Hub) : Hub :=
  let p := sbPort h i
  if p.state = 0 then h
  else
    let n := p.queue.length + p.unacked.length
    let h := { h with sb := { h.sb with downs := h.sb.downs + 1, undeliv := h.sb.undeliv + n } }
    setPort e i 0 (onPort i (fun p => { p with
      queue := [], unacked := [], lseq := 0, rseq := 0, resent := 0, ackDue := none, t1 := none }) h)

/-- The link entity of a port (R374). -/
def linkId (e : Env) (h : Hub) (port : Nat) : Word := ownId e h 8 port

/-- SB_IDLES_TRAIN (R385): 64 error-free idles; the port sends its HELLO. -/
def execSbIdlesTrain (port : BitVec 4) (s : State) : Host.Outcome State Fault Refusal :=
  s.run (fun e h =>
    let p := sbPort h port.toNat
    guard (sbRuns h && (sbPorts e).contains port.toNat && p.state == 0 && !p.miswired) (fun h =>
      let h := setPort e port.toNat 1 (onPort port.toNat (fun p => { p with dormant := false, idles := false }) h)
      sbLocal port.toNat { ftype := 1, src := BitVec.ofNat 18 (nodeNo e h), payload := .hello (BitVec.ofNat 18 (nodeNo e h)) false } h) h)

/-- The mesh map's end of a port of this block. -/
def portEnd (e : Env) (h : Hub) (i : Nat) : MeshEnd :=
  if e.tray then getAt (imgOf h).mesh.ports i .none
  else getAt (((imgOf h).mesh.dies.find? (fun p => p.1 = dieNo e h)).map Prod.snd |>.getD []) i .none

/-- The node that the mesh map expects on a port (R382). -/
def expected (e : Env) (h : Hub) (i : Nat) : Option Nat :=
  match portEnd e h i with
  | .none => none
  | .die d _ => some d.toNat
  | .tray _ => some (2 ^ 17 + (imgOf h).tray)

/-- The block holds a mesh map: before an image has given one, and in PLAYA without one, no HELLO is held against it (Table 16.7). -/
def meshKnown (h : Hub) : Bool := !((imgOf h).mesh.dies.isEmpty && (imgOf h).mesh.ports.isEmpty)

/-- SB_HELLO_RECEIVE (R385, R397): a port in TRAIN goes UP on a matching HELLO; one that disagrees takes the port DOWN, MISWIRED; a
dormant neighbour's stops the transmission on the port. -/
def execSbHelloReceive (port : BitVec 4) (f : SbFrame) (s : State) : Host.Outcome State Fault Refusal :=
  s.run (fun e h => sbOn e 1 port.toNat f (fun h =>
    let i := port.toNat
    match f.payload with
    | .hello node dormant =>
      if (sbPort h i).state = 0 then h
      else if meshKnown h && expected e h i != some node.toNat then
        let h := portDown e i (onPort i (fun p => { p with miswired := true }) h)
        emit 9 1 0 (linkId e h i) 4 7 [w32 i, node.setWidth 32] h
      else if dormant then onPort i (fun p => { p with dormant := true }) h
      else setPort e i 2 h
    | _ => h) h)

/-- SB_PORT_DOWN (R385): 0 more than 16 code errors within 1 ms, 1 no transition for 1 µs, 2 retransmissions. -/
def execSbPortDown (port : BitVec 4) (cause : BitVec 2) (s : State) : Host.Outcome State Fault Refusal :=
  s.run (fun e h => guard (sbRuns h && (sbPorts e).contains port.toNat) (fun h =>
    let h := if cause = 0 then chargePort e port.toNat { h with sb := { h.sb with code := h.sb.code + 17 } } else h
    portDown e port.toNat h) h)

/-- SB_ACK_RECEIVE (R386). -/
def execSbAckReceive (port : BitVec 4) (f : SbFrame) (s : State) : Host.Outcome State Fault Refusal :=
  s.run (fun e h => sbOn e 0 port.toNat f (fun h => h) h)

/-- SB_RETRANSMIT_TIMEOUT (R386): the frames not acknowledged within 20 µs go out again; past 8 retransmissions the port is DOWN. -/
def execSbRetransmitTimeout (port : BitVec 4) (s : State) : Host.Outcome State Fault Refusal :=
  s.run (fun e h =>
    let i := port.toNat
    let p := sbPort h i
    guard (sbRuns h && p.state == 2 && !p.dormant && !p.unacked.isEmpty && p.ackDue.any (fun t => decide (t ≤ nowNs h) && !e.beaten (evSbAck i) t (nowNs h))) (fun h =>
      if p.resent ≥ 8 then portDown e i h
      else
        let n := p.unacked.length
        let h := { h with sb := { h.sb with retry := h.sb.retry + n, txFrames := h.sb.txFrames + n } }
        onPort i (fun p => { p with resent := p.resent + 1, ackDue := some (nowNs h + 20000), last := p.unacked.getLast? }) h) h)

/-! Forwarding (R389, R390, R384, R397). -/

/-- SB_FRAME_FORWARD (R389): a routed frame that is not for this block goes out on ROUTE[HOP]. -/
def execSbFrameForward (port : BitVec 4) (f : SbFrame) (s : State) : Host.Outcome State Fault Refusal :=
  s.run (fun e h =>
    let r := sbRx e port.toNat f h
    if r.2 && decide (4 ≤ f.ftype.toNat) && !f.flood && !sbMine e f && !e.tray && decide (f.hop.toNat < 16) then
      sbOut (bitsOf f.route.toNat (31 - 2 * f.hop.toNat) (30 - 2 * f.hop.toNat)) { f with hop := f.hop + 1 } r.1
    else r.1)

/-- SB_FLOOD_FORWARD (R390). -/
def execSbFloodForward (port : BitVec 4) (f : SbFrame) (s : State) : Host.Outcome State Fault Refusal :=
  s.run (fun e h =>
    let r := sbRx e port.toNat f h
    let h := r.1
    if !(r.2 && decide (4 ≤ f.ftype.toNat) && f.flood && !e.tray) || floodSeen f h then h
    else
      let h := noteFlood f h
      if f.ttl.toNat ≤ 1 then h
      else ((sbPorts e).filter (fun i => decide (i ≠ port.toNat) && (sbPort h i).state == 2)).foldl (fun h i =>
        sbOut i { f with ttl := f.ttl - 1 } h) h)

/-- SB_REASSEMBLY_TIMEOUT (R384): fragments still incomplete 1 ms after the first. -/
def execSbReassemblyTimeout (src : Node) (mseq : BitVec 16) (s : State) : Host.Outcome State Fault Refusal :=
  s.run (fun e h =>
    let key := fun (r : Reasm) => decide (r.src = src.toNat) && decide (r.mseq = mseq)
    match h.sb.reasm.find? key with
    | none => h
    | some r => guard (sbRuns h && decide (r.first + 1000000 ≤ nowNs h) && !e.beaten (evFragment r.src r.mseq) (r.first + 1000000) (nowNs h)) (fun h =>
        { h with sb := { h.sb with reasm := h.sb.reasm.filter (fun r => !key r), crc := h.sb.crc + 1 } }) h)

/-- SB_WAKE_FRAME (R397): the last block before a dormant die sends it idles; any other passes the frame on. -/
def execSbWakeFrame (port : BitVec 4) (f : SbFrame) (s : State) : Host.Outcome State Fault Refusal :=
  s.run (fun e h => sbOn e 11 port.toNat f (fun h =>
    if sbMine e f || e.tray || decide (f.hop.toNat ≥ 16) then h
    else
      let i := bitsOf f.route.toNat (31 - 2 * f.hop.toNat) (30 - 2 * f.hop.toNat)
      if f.hop.toNat + 1 = f.nhops.toNat ∧ (sbPort h i).dormant = true then onPort i (fun p => { p with idles := true }) h
      else sbOut i { f with hop := f.hop + 1 } h) h)

/-! Verdicts (R394, R646). -/

/-- SB_VERDICT_RECEIVE (R394, R311): a verdict is applied once, at the next scan boundary. -/
def execSbVerdictReceive (port : BitVec 4) (f : SbFrame) (s : State) : Host.Outcome State Fault Refusal :=
  s.run (fun e h => sbOn e 8 port.toNat f (fun h =>
    match f.payload with
    | .verdict v =>
      if e.tray || !sbMine e f then h
      else
        let old := h.sb.lastVerdict.contains v.seq
        let h := { h with sb := { h.sb with vseq := v.seq, lastVerdict := if old then h.sb.lastVerdict else v.seq :: h.sb.lastVerdict } }
        if old then h
        else onEnt v.entity (fun s => { s with
          received := s.received ++ [(v.verdict.toNat, v.cause.toNat, v.score.toNat, v.generation, v.slot.toNat, v.floor.toNat)] }) h
    | _ => h) h)

/-- VERDICT_RESEND (R394): verdicts not echoed within 4 heartbeat periods go out again on the alternate route. -/
def execVerdictResend (die : BitVec 7) (s : State) : Host.Outcome State Fault Refusal :=
  s.run (fun e h =>
    let d := (imgOf h).tray * 128 + die.toNat
    let late := fun (v : SentVerdict) => decide (v.tb + 4 * h.sb.beatPeriod ≤ nowNs h) && !e.beaten (evHeartbeat d) (v.tb + 4 * h.sb.beatPeriod) (nowNs h)
    guard (memberDie e h d && sbRuns h) (fun h =>
      let l := (member h d).sent.filter late
      let h := onMember d (fun m => { m with sent := m.sent.filter (fun v => !late v) }) h
      l.foldl (fun h v => sbDown e true d { ftype := 8, payload := .verdict v.msg } h) h) h)

/-! Time (R395, R396). -/

/-- The link delay of a port in ns: the mean of its last 16 measurements (R395). -/
def linkDelay (h : Hub) (i : Nat) : Int :=
  let l := (sbPort h i).delays
  if l.isEmpty then 0 else l.sum / (l.length : Int)

/-- SYNC_SEND (R396): down the primary tree, on every tray-role port that a primary route uses. -/
def execSyncSend (s : State) : Host.Outcome State Fault Refusal :=
  s.run (fun e h => guard (e.tray && sbRuns h && decide (h.sb.lastSync + h.time.syncInt ≤ nowNs h)) (fun h =>
    let h := sbNextMseq { h with sb := { h.sb with lastSync := nowNs h } }
    let ports := ((h.sb.members.filterMap (fun m => m.2.primary.map (fun p => p.1.toNat)))).dedup
    ports.foldl (fun h i => sbOut i {
      ftype := 5, tport := BitVec.ofNat 4 i, src := BitVec.ofNat 18 (nodeNo e h), mseq := h.sb.mseq
      payload := .sync (BitVec.ofNat 64 (nowNs h)) 0 } h) h) h)

/-- SYNC_RECEIVE (R396, R55, R591): the offset is measured, TB is disciplined, and the SYNC goes on to the tree children. The block forwards at
once: the residence time is 0. DESIGN CHOICE (log 101). -/
def execSyncReceive (port : BitVec 4) (f : SbFrame) (s : State) : Host.Outcome State Fault Refusal :=
  s.run (fun e h => sbOn e 5 port.toNat f (fun h =>
    match f.payload with
    | .sync origin corr =>
      if e.tray then h
      else
        let d := linkDelay h port.toNat
        let c : Int := signed 64 corr.toNat + d
        let off : Int := (nowNs h : Int) - (signed 64 origin.toNat + c)
        let c' := BitVec.ofNat 64 (unsigned 64 c)
        let h := h.sb.children.foldl (fun h i => sbOut i.toNat { f with hop := f.hop + 1, payload := .sync origin c' } h) h
        let first := h.sys.st == .playa && !meshKnown h && h.sb.trayNode.isNone
        syncMeasured e off { h with sb := { h.sb with
          lastSync := nowNs h, trayLost := false, trayNode := if first then some f.src else h.sb.trayNode } }
    | _ => h) h)

/-- PDELAY_INTERVAL (R395): an UP port asks its neighbour. -/
def execPdelayInterval (port : BitVec 4) (s : State) : Host.Outcome State Fault Refusal :=
  s.run (fun e h =>
    let p := sbPort h port.toNat
    guard (sbRuns h && (sbPorts e).contains port.toNat && p.state == 2 && !p.dormant && decide (p.lastPd + h.sb.pdelay ≤ nowNs h)) (fun h =>
      let h := onPort port.toNat (fun p => { p with t1 := some (nowNs h), lastPd := nowNs h }) h
      sbLocal port.toNat { ftype := 2, src := BitVec.ofNat 18 (nodeNo e h), payload := .pdelayReq } h) h)

/-- SB_PDELAY_REQ_RECEIVE (R395): the answer carries the captures of the request and of the answer. -/
def execSbPdelayReqReceive (port : BitVec 4) (f : SbFrame) (s : State) : Host.Outcome State Fault Refusal :=
  s.run (fun e h => sbOn e 2 port.toNat f (fun h =>
    let t := BitVec.ofNat 64 (nowNs h)
    sbLocal port.toNat { ftype := 3, src := BitVec.ofNat 18 (nodeNo e h), payload := .pdelayResp t t } h) h)

/-- SB_PDELAY_RESP_RECEIVE (R395): a measurement of the link delay. -/
def execSbPdelayRespReceive (port : BitVec 4) (f : SbFrame) (s : State) : Host.Outcome State Fault Refusal :=
  s.run (fun e h => sbOn e 3 port.toNat f (fun h =>
    match f.payload, (sbPort h port.toNat).t1 with
    | .pdelayResp t2 t3, some t1 =>
      let m : Int := (((nowNs h : Int) - t1) - ((t3.toNat : Int) - t2.toNat)) / 2
      onPort port.toNat (fun p => { p with t1 := none, delays := (p.delays ++ [m]).drop (p.delays.length + 1 - 16) }) h
    | _, _ => h) h)

/-! Routes (R388, R391). -/

/-- A port of a member die is UP, by its last heartbeat. -/
def dieUp (h : Hub) (d i : Nat) : Bool := decide (getAt (member h d).ports i 0 = 2)

/-- A path from the tray: the die it reaches, the tray-role port, the hops, and the dies it passes. -/
structure Path where
  die  : Nat
  port : BitVec 4
  hops : List Nat
  via  : List Nat

/-- The links out of a die that are usable, in the order N, E, S, W, that reach no die of `seen`. `all` takes every link as UP. -/
def pathSteps (all : Bool) (h : Hub) (p : Path) (seen : List Nat) : List Path :=
  (List.range 4).filterMap (fun dir =>
    match meshStep h p.die dir with
    | some (n, q) =>
      if seen.contains n || !(all || (dieUp h p.die dir && dieUp h n q)) then none
      else some { die := n, port := p.port, hops := p.hops ++ [dir], via := p.via ++ [p.die] }
    | none => none)

/-- One level of the search: every path of the frontier grows, the first to reach a die wins (R388). -/
def pathLevel (all : Bool) (h : Hub) (front : List Path) (seen : List Nat) : List Path × List Nat :=
  front.foldl (fun (a : List Path × List Nat) p =>
    (pathSteps all h p a.2).foldl (fun b q => if b.2.contains q.die then b else (b.1 ++ [q], q.die :: b.2)) a) ([], seen)

/-- Shortest paths of at most `n` further hops, in the order in which they are found. -/
def pathSearch (all : Bool) (h : Hub) : Nat → List Path → List Nat → List Path
  | 0, front, _ => front
  | n + 1, front, seen =>
    let q := pathLevel all h front seen
    if q.1.isEmpty then front else front ++ pathSearch all h n q.1 q.2

/-- The edge dies behind the tray-role ports that are UP, lowest port first. -/
def pathStart (all : Bool) (h : Hub) (skip : Option (BitVec 4)) (avoid : List Nat) : List Path × List Nat :=
  (List.range 16).foldl (fun (a : List Path × List Nat) i =>
    match getAt (imgOf h).mesh.ports i .none with
    | .die d q =>
      if a.2.contains d.toNat || decide (skip = some (BitVec.ofNat 4 i)) || !(all || ((sbPort h i).state == 2 && dieUp h d.toNat q.toNat)) then a
      else (a.1 ++ [{ die := d.toNat, port := BitVec.ofNat 4 i, hops := [], via := [] }], d.toNat :: a.2)
    | _ => a) ([], avoid)

/-- The shortest-path tree of the tray (R388): a route has at most 16 links, the first of them the tray's own. -/
def primaryTree (all : Bool) (h : Hub) : List Path :=
  let s := pathStart all h none []
  pathSearch all h 15 s.1 s.2

/-- The alternate of a primary path: the shortest route that shares no die with it but the die itself, and not its first link when the
primary is that one link alone (R388). -/
def alternatePath (h : Hub) (p : Path) : Option Path :=
  let s := pathStart false h (if p.hops.isEmpty then some p.port else none) p.via
  (pathSearch false h 15 s.1 s.2).find? (fun q => decide (q.die = p.die))

/-- A path as the tray keeps it. -/
def Path.asRoute (p : Path) : BitVec 4 × Route := (p.port, mkRoute p.hops)

/-- The directions in which a die's tree children lie. -/
def treeChildren (tree : List Path) (d : Nat) : List (BitVec 2) :=
  tree.filterMap (fun p => if p.via.getLast? = some d then p.hops.getLast?.map (BitVec.ofNat 2) else none)

/-- A die's new routes: kept, recorded, sent to it when they or its children have changed, and reported when it is left with one. -/
def routeDie (e : Env) (tree : List Path) (h : Hub) (d : Nat) : Hub :=
  let m := member h d
  let path := tree.find? (fun p => decide (p.die = d))
  let alt := path.bind (alternatePath h)
  let p := path.map Path.asRoute
  let a := alt.map Path.asRoute
  let cs := treeChildren tree d
  if m.primary = p ∧ m.alternate = a ∧ m.children = cs then h
  else
    let h := onMember d (fun m => { m with primary := p, alternate := a, children := cs }) h
    let nh := fun (o : Option Path) => match o with
      | some q => w32 (q.hops.length + 1)
      | none => 0
    let h := emitState 10 [w32 d, nh path, nh alt] h
    let h := if path.isSome && alt.isNone && (m.alternate.isSome || m.primary.isNone) then report 2 .singlePath (dieId d) [] h else h
    sbDown e p.isNone d { ftype := 10, payload := .routeSet p a cs } h

/-- ROUTE_RECOMPUTE (R388, R391). -/
def execRouteRecompute (s : State) : Host.Outcome State Fault Refusal :=
  s.run (fun e h => guard (e.tray && sbRuns h && h.sb.changed.isSome) (fun h =>
    let tree := primaryTree false h
    (trayDies h).foldl (fun h d => routeDie e tree h d) { h with sb := { h.sb with changed := none } }) h)

/-- ROUTE_SET_RECEIVE (R391): the die replaces its routes as a whole. -/
def execRouteSetReceive (port : BitVec 4) (f : SbFrame) (s : State) : Host.Outcome State Fault Refusal :=
  s.run (fun e h => sbOn e 10 port.toNat f (fun h =>
    match f.payload with
    | .routeSet p a cs => if e.tray || !sbMine e f then h else { h with sb := { h.sb with primary := p, alternate := a, children := cs } }
    | _ => h) h)

/-! Replies of member dies (R469, R470). -/

/-- A relayed command's reply goes to its requester: in an envelope, or to the channel. -/
def relayBack (e : Env) (r : Relay) (bs : List Byte) (h : Hub) : Hub :=
  match r.req with
  | .key k seg => mgtReply e k.toNat seg bs h
  | .channel c => chanPut c.toNat (readReply bs) h
  | _ => h

/-- SB_REPLY_RECEIVE (R469, R470): a reply without a relay in progress is discarded and counted. A die's report (log 68) is no reply, and
changes nothing here. -/
def execSbReplyReceive (port : BitVec 4) (f : SbFrame) (s : State) : Host.Outcome State Fault Refusal :=
  s.run (fun e h => sbOn e 7 port.toNat f (fun h =>
    if !e.tray || !sbMine e f then h
    else
      match sbAssemble f h with
      | (h, none) => h
      | (h, some bs) =>
        let rid := BitVec.ofNat 24 (beAt bs 4 4)
        match h.cmd.relays.find? (fun r => decide (r.rid = rid)) with
        | none => if rid = 0 then h else { h with cmd := { h.cmd with lateReplies := h.cmd.lateReplies + 1 } }
        | some r => relayBack e r (bs.drop 8) { h with cmd := { h.cmd with relays := h.cmd.relays.filter (fun q => decide (q.rid ≠ rid)) } }) h)

/-- RELAY_TIMEOUT (R470): a relayed command without a reply completes with TIMEOUT at the tray-role block. -/
def execRelayTimeout (rid : BitVec 24) (s : State) : Host.Outcome State Fault Refusal :=
  s.run (fun e h =>
    match h.cmd.relays.find? (fun r => decide (r.rid = rid)) with
    | none => h
    | some r => guard (alive h && decide (r.due ≤ nowNs h) && !e.beaten evSbReply r.due (nowNs h)) (fun h =>
        let h := { h with cmd := { h.cmd with relays := h.cmd.relays.filter (fun q => decide (q.rid ≠ rid)) } }
        relayBack e r (replyBytes (mkReply r.opcode.toNat r.cseq stTimeout r.domain.toNat 0 [] h)) h) h)

end Sys2Proof.Machine
end

