-- ==== Sys2Proof/Machine/MgtCmds.lean ====
section
/-!
DEFINITION. The management port: segments, filtering and metering, gPTP, addresses, the gate list, shapers and egress (R413–R455).
-/
namespace Sys2Proof.Machine

/-- Change the management port. -/
def onMgt (f : Mgt → Mgt) (h : Hub) : Hub := { h with mgt := f h.mgt }

/-- The part of a 64-bit register that a write covers (R608). -/
def mergePart (p : Part) (old v : DWord) : DWord :=
  match p with
  | .whole => v
  | .low => (old &&& 0xFFFFFFFF00000000) ||| (v &&& 0xFFFFFFFF)
  | .high => (old &&& 0xFFFFFFFF) ||| (v <<< 32)

/-- A direct write reaches a register of the management port (R607, R616): the offset and value are recorded where the role has none. -/
def mgtWrite (off : Nat) (v : DWord) (f : Env → Hub → Hub) (e : Env) (h : Hub) : Hub :=
  if !portOn h then h
  else
    let h := { h with regs := { h.regs with half := none } }
    if e.tray then portField 3 off v (f e) h else ignoredWrite 3 off v h

/-! Segment settings and states (R417–R425). -/

/-- ENABLE -/
def segOn (s : Segment) : Bool := bitOf s.cfg.toNat 51
/-- NODE_ID -/
def nodeId (s : Segment) : Nat := segField s 7 0
/-- OVERHEAD -/
def overhead (s : Segment) : Nat := segField s 45 40
/-- A segment is UP. -/
def segUp (h : Hub) (b : Bool) : Bool := (seg h b).state == 2
/-- The preferred segment: PREFER. -/
def preferred (h : Hub) : Bool := h.mgt.portcfg.getLsbD 32

/-- TC1–TC3 frames that wait move to the tail of the same queues of the new active segment (R425). -/
def moveFrames (src dst : Bool) (h : Hub) : Hub :=
  let qs := (seg h src).queues
  let h := onSeg dst (fun s => { s with queues := (s.queues.zipIdx).map (fun q => if q.2 = 0 then q.1 else q.1 ++ getAt qs q.2 []) }) h
  onSeg src (fun s => { s with queues := (s.queues.zipIdx).map (fun q => if q.2 = 0 then q.1 else []) }) h

/-- The other segment becomes active (R423–R425). -/
def switchTo (b : Bool) (failover : Bool) (h : Hub) : Hub :=
  let h := emitState 8 [w32 (b2n !b), w32 (b2n b)] (onMgt (fun m => { m with active := b }) (moveFrames (!b) b h))
  if failover then report 0 .failover noEnt [b2n b] h else h

/-- A failover where the active segment is not UP and the other is (R423). -/
def checkActive (h : Hub) : Hub := if !segUp h h.mgt.active && segUp h (!h.mgt.active) then switchTo (!h.mgt.active) true h else h

/-- A segment changes state (Table 11.3): recorded; a failover follows where R423 asks for one. -/
def setSeg (b : Bool) (st : Nat) (h : Hub) : Hub :=
  let old := (seg h b).state.toNat
  if old = st then h
  else
    let h := onSeg b (fun s => { s with state := BitVec.ofNat 2 st, upSince := if st = 2 then nowNs h else s.upSince, dad := if st = 2 then s.dad else none }) h
    let h := emitState 6 [w32 (16 + b2n b), w32 old, w32 st] h
    checkActive h

/-- A segment is enabled: its PHY leaves reset, and its MII inputs are ignored for 10 ms (R417). -/
def enableSeg (b : Bool) (h : Hub) : Hub :=
  setSeg b 1 (onSeg b (fun s => { s with holdoff := some (nowNs h + 10000000), conflict := false, link := false, lastFrame := none }) h)

/-- The PLCA function starts: a coordinator is active at once, a follower at the next BEACON (R418–R420). -/
def plcaStart (b : Bool) (h : Hub) : Hub := onSeg b (fun s => { s with plca := decide (nodeId s = 0), restart := false }) h

/-- Settings of Table 11.2 within their ranges, in the halves written. -/
def segcfgOk (p : Part) (v : DWord) : Bool :=
  let n := v.toNat
  let low := decide (bitsOf n 15 8 ≠ 0) && decide (bitsOf n 23 16 ≠ 0)
  let high := decide (bitsOf n 39 32 ≠ 0)
  match p with
  | .whole => low && high
  | .low => low
  | .high => high

/-- The PLCA fields of MGT_SEGCFG (R419): NODE_ID, NODE_COUNT, TO_TIMER, MAX_BURST, BURST_TIMER. -/
def plcaFields (v : DWord) : Nat := bitsOf v.toNat 39 0

/-- A write of MGT_SEGCFG (R417–R419, R429). -/
def writeSegcfg (b : Bool) (p : Part) (v : DWord) (h : Hub) : Hub :=
  let old := (seg h b).cfg
  let new := mergePart p old v &&& 0xFFFFFFFFFFFFF
  if !segcfgOk p new then refusedWrite 3 (if b then 0x10 else 8) v h
  else
    let h := onSeg b (fun s => { s with cfg := new }) h
    let h := if plcaFields new = plcaFields old then h
      else if (seg h b).offered.isSome then onSeg b (fun s => { s with restart := true }) h else plcaStart b h
    match p with
    | .low => h
    | _ =>
      if !new.getLsbD 51 then setSeg b 0 h
      else if (seg h b).state = 0 ∨ (seg h b).conflict = true then enableSeg b h else h

/-- MGT_SEGCFG_WRITE (R417–R419). -/
def execMgtSegcfgWrite (segB : Bool) (part : Part) (v : DWord) (s : State) : Host.Outcome State Fault Refusal :=
  s.run (mgtWrite (if segB then 0x10 else 8) v (fun _ => writeSegcfg segB part v))

/-- PHY_POLL (R416, Table 11.3). -/
def execPhyPoll (seg_ : Bool) (link : Bool) (s : State) : Host.Outcome State Fault Refusal :=
  s.run (fun e h => guard (mgtRuns e h && segOn (seg h seg_)) (fun h =>
    let h := onSeg seg_ (fun s => { s with link := link }) h
    if !link && segUp h seg_ then setSeg seg_ 1 h else h) h)

/-- A good frame has arrived within the silence limit. -/
def heard (h : Hub) (b : Bool) : Bool := (seg h b).lastFrame.any (fun t => decide (nowNs h < t + (seg h b).silence))

/-- When a segment has been silent too long. -/
def silenceDue (h : Hub) (b : Bool) : Nat := ((seg h b).lastFrame.map (fun t => t + (seg h b).silence)).getD 0

/-- SEGMENT_SILENCE_TIMEOUT (Table 11.3). -/
def execSegmentSilenceTimeout (seg_ : Bool) (s : State) : Host.Outcome State Fault Refusal :=
  s.run (fun e h => guard (mgtRuns e h && segUp h seg_ && !heard h seg_ &&
    !e.beaten (evFrame seg_) (silenceDue h seg_) (nowNs h)) (setSeg seg_ 1) h)

/-- SEGMENT_UP (Table 11.3, R429): enabled, link up, a good frame within the silence limit; duplicate address detection starts. -/
def execSegmentUp (seg_ : Bool) (s : State) : Host.Outcome State Fault Refusal :=
  s.run (fun e h =>
    let x := seg h seg_
    guard (mgtRuns e h && x.state == 1 && x.link && heard h seg_ && !x.conflict && x.holdoff.isNone) (fun h =>
      setSeg seg_ 2 (onSeg seg_ (fun s => { s with dad := some (nowNs h + 1000000000), sentFrames := s.sentFrames + 1 }) h)) h)

/-- SEGMENT_ENABLE_HOLD_EXPIRY (R417). -/
def execSegmentEnableHoldExpiry (seg_ : Bool) (s : State) : Host.Outcome State Fault Refusal :=
  s.run (fun e h => guard (mgtRuns e h && (seg h seg_).holdoff.any (fun t => decide (t ≤ nowNs h)))
    (onSeg seg_ (fun s => { s with holdoff := none })) h)

/-- FAILBACK_TIMER (R424). -/
def execFailbackTimer (s : State) : Host.Outcome State Fault Refusal :=
  s.run (fun e h =>
    let p := preferred h
    guard (mgtRuns e h && h.mgt.portcfg.getLsbD 33 && h.mgt.active != p && segUp h p && decide ((seg h p).upSince + 10000000000 ≤ nowNs h))
      (switchTo p false) h)

/-! PLCA and collisions (R420–R422). -/

/-- A change of PLCA status: recorded (R420). -/
def setPlca (b : Bool) (on : Bool) (h : Hub) : Hub := emitState 9 [w32 (b2n b), w32 (b2n on)] (onSeg b (fun s => { s with plca := on }) h)

/-- A follower: NODE_ID 1–254. -/
def follower (s : Segment) : Bool := decide (1 ≤ nodeId s) && decide (nodeId s ≤ 254)

/-- PLCA_BEACON_RECEIVE (R420). -/
def execPlcaBeaconReceive (seg_ : Bool) (s : State) : Host.Outcome State Fault Refusal :=
  s.run (fun e h => guard (mgtRuns e h && segOn (seg h seg_) && (seg h seg_).holdoff.isNone && follower (seg h seg_)) (fun h =>
    let h := onSeg seg_ (fun s => { s with lastBeacon := nowNs h }) h
    if (seg h seg_).plca then h else setPlca seg_ true h) h)

/-- PLCA_BEACON_TIMEOUT (R420): 4,000 bit times without a BEACON. -/
def execPlcaBeaconTimeout (seg_ : Bool) (s : State) : Host.Outcome State Fault Refusal :=
  s.run (fun e h =>
    let x := seg h seg_
    guard (mgtRuns e h && segOn x && follower x && x.plca && decide (x.lastBeacon + 400000 ≤ nowNs h) &&
      !e.beaten (evBeacon seg_) (x.lastBeacon + 400000) (nowNs h)) (fun h =>
      setPlca seg_ false (onMgt (fun m => { m with beacon := m.beacon + 1 }) h)) h)

/-- PLCA_COLLISION (R421): counted; 16 within 1 s are a PLCA conflict. -/
def execPlcaCollision (seg_ : Bool) (s : State) : Host.Outcome State Fault Refusal :=
  s.run (fun e h => guard (mgtRuns e h && segOn (seg h seg_) && (seg h seg_).plca) (fun h =>
    let l := ((seg h seg_).collisions.filter (fun t => decide (nowNs h < t + 1000000000))) ++ [nowNs h]
    let h := onMgt (fun m => { m with plcacol := m.plcacol + 1 }) h
    if l.length < 16 then onSeg seg_ (fun s => { s with collisions := l }) h
    else
      let h := emitUnit 60 (unitId e h 3) 3 [w32 (b2n seg_)] (onSeg seg_ (fun s => { s with collisions := [] }) h)
      report 2 .plcaConflict (unitId e h 3) [b2n seg_] h) h)

/-- CSMA_COLLISION (R422): backoff; after the 16th a TC3 frame is discarded, another returns to the head of its queue. -/
def execCsmaCollision (seg_ : Bool) (s : State) : Host.Outcome State Fault Refusal :=
  s.run (fun e h =>
    match (seg h seg_).offered with
    | none => h
    | some (c, f, _) => guard (mgtRuns e h && !(seg h seg_).plca) (fun h =>
        let n := (seg h seg_).attempts + 1
        if n < 16 then onSeg seg_ (fun s => { s with attempts := n }) h
        else
          let h := onMgt (fun m => { m with excess := m.excess + 1 }) h
          onSeg seg_ (fun s => { s with
            attempts := 0, offered := none
            queues := if c = 3 then s.queues else setAt s.queues c (f :: getAt s.queues c []) }) h) h)

/-! Filtering and metering (R430, R449–R453). -/

/-- What Table 11.4 makes of a frame. -/
inductive RxClass where
  | fcs | size | stranger | pass (cls : Nat)

/-- Table 11.4, in its order; a frame that passes has the ingress class of R449. -/
def classify (m : Mgt) (f : EthFrame) : RxClass :=
  if !f.fcsOk || f.rxer || !f.wholeBytes then .fcs
  else if f.bytes < 64 ∨ f.bytes > 1518 then .size
  else if !f.dstOk then .stranger
  else if f.etherType = 0x88F7 then
    match f.body with
    | .gptp d t => if d.toNat = bitsOf m.portcfg.toNat 6 0 ∧ [0, 2, 3, 8, 10, 11].contains t.toNat = true then .pass 0 else .stranger
    | _ => .stranger
  else if f.etherType ≠ 0x86DD ∨ f.ipOk = false then .stranger
  else match f.body with
    | .ndp _ ours => if ours then .pass 2 else .stranger
    | .udp port sumOk payload =>
      if port.toNat ≠ bitsOf m.portcfg.toNat 31 16 then .stranger
      else if !sumOk then .fcs
      else .pass (bitsOf (beAt payload 0 1) 3 2)
    | _ => .stranger

/-- The meter of a class colours a frame of counted length L: 0 green, 1 yellow, 2 red (R449, R450, RFC 2698 colour-blind). -/
def meterFrame (now L : Nat) (m : Meter) : Meter × Nat :=
  let v := m.cfg.toNat
  let pir := bitsOf v 31 16
  if pir = 0 then (m, 0)
  else
    let fill := fun (lvl rate size : Nat) => min (size * 1024) (lvl + (now - m.filled) * rate * 1024 / 8000000)
    let c := fill m.c (bitsOf v 15 0) (bitsOf v 47 32)
    let p := fill m.p pir (bitsOf v 63 48)
    if p < L * 1024 then ({ m with c := c, p := p, filled := now }, 2)
    else if c < L * 1024 then ({ m with c := c, p := p - L * 1024, filled := now }, 1)
    else ({ m with c := c - L * 1024, p := p - L * 1024, filled := now }, 0)

/-- Bytes in the ingress buffer. -/
def ingressFill (m : Mgt) : Nat := (m.ingress.map (fun f => f.2.bytes)).sum

/-- A frame that passed the filter is metered and enters the ingress buffer, or is discarded and counted (R449–R452). -/
def meterIn (b : Bool) (cls : Nat) (f : EthFrame) (h : Hub) : Hub :=
  let ptp := decide (f.etherType = 0x88F7)
  let q := meterFrame (nowNs h) (f.bytes + overhead (seg h b)) (getAt h.mgt.meters cls {})
  let h := onMgt (fun m => { m with accept := m.accept + 1, meters := setAt m.meters cls q.1 }) h
  let fill := ingressFill h.mgt
  if !ptp && (decide (q.2 = 2) || (decide (q.2 = 1) && decide (cls = 3) && decide (fill > 8192))) then
    onMgt (fun m => { m with metered := m.metered + 1 }) h
  else if fill + f.bytes > (if ptp then 16384 else 14336) then onMgt (fun m => { m with full := m.full + 1 }) h
  else onMgt (fun m => { m with
    ingress := m.ingress ++ [(b, f)], coloured := m.coloured + b2n (ptp && decide (q.2 ≠ 0)) }) h

/-- MII_FRAME_RECEIVE (R430, R449–R453): an envelope in CONFIG is discarded and counted. -/
def execMiiFrameReceive (seg_ : Bool) (f : EthFrame) (s : State) : Host.Outcome State Fault Refusal :=
  s.run (fun e h => guard (mgtRuns e h && segOn (seg h seg_) && (seg h seg_).holdoff.isNone) (fun h =>
    let h := if f.fcsOk then onSeg seg_ (fun s => { s with lastFrame := some (nowNs h) }) h else h
    match classify h.mgt f with
    | .fcs => onMgt (fun m => { m with fcs := m.fcs + 1 }) h
    | .size => onMgt (fun m => { m with size := m.size + 1 }) h
    | .stranger => onMgt (fun m => { m with stranger := m.stranger + 1 }) h
    | .pass c =>
      match h.sys.st, f.body with
      | .config, .udp _ _ _ => onMgt (fun m => { m with stranger := m.stranger + 1 }) h
      | _, _ => meterIn seg_ c f h) h)

/-- The controller takes the first frame of a kind on a segment out of the ingress buffer. -/
def takeIngress (b : Bool) (p : EthFrame → Bool) (h : Hub) : Hub :=
  match h.mgt.ingress.find? (fun f => f.1 == b && p f.2) with
  | some f => onMgt (fun m => { m with ingress := m.ingress.erase f }) h
  | none => h

/-- A gPTP frame. -/
def isGptp (f : EthFrame) : Bool := decide (f.etherType = 0x88F7)
/-- A Neighbor Solicitation or Advertisement. -/
def isNdp (advert : Bool) (f : EthFrame) : Bool :=
  match f.body with
  | .ndp a _ => a == advert
  | _ => false

/-! Addresses (R429). -/

/-- NEIGHBOR_SOLICITATION_RECEIVE (R429): answered while the address holds. -/
def execNeighborSolicitationReceive (seg_ : Bool) (from_ : BitVec 128) (s : State) : Host.Outcome State Fault Refusal :=
  s.run (fun e h => guard (mgtRuns e h && segOn (seg h seg_) && (seg h seg_).holdoff.isNone) (fun h =>
    let h := takeIngress seg_ (isNdp false) h
    let x := seg h seg_
    if from_ = 0 ∨ x.conflict = true ∨ x.dad.isSome = true then h
    else onSeg seg_ (fun s => { s with sentFrames := s.sentFrames + 1 }) h) h)

/-- NEIGHBOR_ADVERTISEMENT_RECEIVE (R429): within 1 s of the solicitation it marks the address in conflict, and the segment goes DOWN. -/
def execNeighborAdvertisementReceive (seg_ : Bool) (s : State) : Host.Outcome State Fault Refusal :=
  s.run (fun e h => guard (mgtRuns e h && segOn (seg h seg_) && (seg h seg_).holdoff.isNone) (fun h =>
    let h := takeIngress seg_ (isNdp true) h
    if (seg h seg_).dad.any (fun t => decide (nowNs h ≤ t)) then
      let h := emit 9 1 0 (unitId e h 3) 3 15 [w32 (b2n seg_)] (onSeg seg_ (fun s => { s with conflict := true, dad := none }) h)
      report 0 .addressConflict (unitId e h 3) [b2n seg_] (setSeg seg_ 1 h)
    else h) h)

/-- DAD_TIMEOUT (R429). -/
def execDadTimeout (seg_ : Bool) (s : State) : Host.Outcome State Fault Refusal :=
  s.run (fun e h => guard (mgtRuns e h && (seg h seg_).dad.any (fun t => decide (t ≤ nowNs h) && !e.beaten (evNeighbour seg_) t (nowNs h))) (onSeg seg_ (fun s => { s with dad := none })) h)

/-! gPTP (R436–R441). -/

/-- A better master: the lower priority vector; for the same one, the active segment (R438). -/
def better (active : Bool) (a b : Master) : Bool :=
  decide (a.vector < b.vector) || (decide (a.vector = b.vector) && decide (a.seg = active) && decide (b.seg ≠ active))

/-- The best of some masters. -/
def bestMaster (active : Bool) : List Master → Option Master
  | [] => none
  | a :: t => match bestMaster active t with
    | none => some a
    | some b => if better active b a then some b else some a

/-- The same master on the same segment. -/
def sameMaster (a b : Option Master) : Bool :=
  match a, b with
  | none, none => true
  | some x, some y => decide (x.identity = y.identity) && decide (x.seg = y.seg)
  | _, _ => false

/-- Select the master from the Announce messages held that are not overdue; a change is recorded and counted, and restarts the count of
locked intervals (R438, R439). -/
def selectMaster (h : Hub) : Hub :=
  let l := h.mgt.announces.filter (fun a => decide (nowNs h < a.last + 3 * a.interval))
  let new := bestMaster h.mgt.active l
  let h := onMgt (fun m => { m with announces := l, master := new }) h
  h

/-- Selection with its consequences. -/
def reselect (h : Hub) : Hub :=
  let old := h.mgt.master
  let h := selectMaster h
  let new := h.mgt.master
  if sameMaster old new then h
  else
    let w := fun (o : Option Master) => match o with
      | some m => [w32 (b2n m.seg), BitVec.ofNat 32 (m.identity.toNat / 2 ^ 48), BitVec.ofNat 32 (m.identity.toNat / 2 ^ 16)]
      | none => [0, 0, 0]
    let h := emitState 7 (w old ++ w new) (onMgt (fun m => { m with switches := m.switches + 1 }) h)
    let same := match old, new with
      | some a, some b => decide (a.identity = b.identity)
      | _, _ => false
    if same then h else { h with time := { h.time with lockRun := 0 } }

/-- GPTP_ANNOUNCE_RECEIVE (R438). -/
def execGptpAnnounceReceive (seg_ : Bool) (a : Announce) (s : State) : Host.Outcome State Fault Refusal :=
  s.run (fun e h => guard (mgtRuns e h && segUp h seg_) (fun h =>
    let h := takeIngress seg_ isGptp h
    let m : Master := { seg := seg_, vector := a.vector, identity := a.identity, interval := a.interval, last := nowNs h }
    let l := h.mgt.announces.filter (fun x => !(decide (x.seg = seg_) && decide (x.identity = a.identity)))
    reselect (onMgt (fun x => { x with announces := l ++ [m] }) h)) h)

/-- GPTP_ANNOUNCE_TIMEOUT (R439). -/
def execGptpAnnounceTimeout (s : State) : Host.Outcome State Fault Refusal :=
  s.run (fun e h =>
    match h.mgt.master with
    | none => h
    | some m =>
      let last := ((h.mgt.announces.find? (fun a => decide (a.identity = m.identity) && decide (a.seg = m.seg))).map Master.last).getD m.last
      guard (mgtRuns e h && decide (last + 3 * m.interval ≤ nowNs h) && !e.beaten evAnnounce (last + 3 * m.interval) (nowNs h)) (fun h => reselect (onMgt (fun x => { x with annto := x.annto + 1 }) h)) h)

/-- Is this the selected master, on its segment? -/
def isMaster (h : Hub) (b : Bool) (identity : BitVec 80) : Bool :=
  h.mgt.master.any (fun m => decide (m.seg = b) && decide (m.identity = identity))

/-- GPTP_SYNC_RECEIVE (R438–R441): the offset from the master, with the receive stamp less RX_LAT. -/
def execGptpSyncReceive (seg_ : Bool) (identity : BitVec 80) (origin corr : DWord) (interval : Nat) (s : State) : Host.Outcome State Fault Refusal :=
  s.run (fun e h => guard (mgtRuns e h && segUp h seg_) (fun h =>
    let h := takeIngress seg_ isGptp h
    if isMaster h seg_ identity then
      let x := seg h seg_
      let off : Int := (nowNs h : Int) - x.rxLat - (signed 64 origin.toNat + signed 64 corr.toNat + x.delay)
      syncMeasured e off { h with time := { h.time with syncInt := interval } }
    else h) h)

/-- GPTP_PDELAY_INTERVAL (R437): a Pdelay_Req, stamped with TX_LAT. -/
def execGptpPdelayInterval (seg_ : Bool) (s : State) : Host.Outcome State Fault Refusal :=
  s.run (fun e h => guard (mgtRuns e h && segUp h seg_ && decide ((seg h seg_).lastPd + h.mgt.pdelayInt ≤ nowNs h)) (fun h =>
    onSeg seg_ (fun s => { s with pdelayT1 := some (nowNs h + s.txLat), lastPd := nowNs h, sentFrames := s.sentFrames + 1 }) h) h)

/-- GPTP_PDELAY_REQ_RECEIVE (R437): a two-step answer, two frames. -/
def execGptpPdelayReqReceive (seg_ : Bool) (identity : BitVec 80) (s : State) : Host.Outcome State Fault Refusal :=
  s.run (fun e h => guard (mgtRuns e h && segUp h seg_ && decide (identity ≠ 0)) (fun h =>
    onSeg seg_ (fun s => { s with sentFrames := s.sentFrames + 2 }) (takeIngress seg_ isGptp h)) h)

/-- GPTP_PDELAY_RESP_RECEIVE (R437): the mean link delay to the master's port; other responses are discarded and counted. -/
def execGptpPdelayRespReceive (seg_ : Bool) (identity : BitVec 80) (t2 t3 : DWord) (s : State) : Host.Outcome State Fault Refusal :=
  s.run (fun e h => guard (mgtRuns e h && segUp h seg_) (fun h =>
    let h := takeIngress seg_ isGptp h
    match isMaster h seg_ identity, (seg h seg_).pdelayT1 with
    | true, some t1 => onSeg seg_ (fun s => { s with
        pdelayT1 := none, delay := (((nowNs h : Int) - s.rxLat - t1) - ((t3.toNat : Int) - t2.toNat)) / 2 }) h
    | _, _ => onMgt (fun m => { m with pdelayBad := m.pdelayBad + 1 }) h) h)

/-! The gate list (R443–R446). -/

/-- The stretches of a cycle with the gates open in each: the list is cut at the cycle's end, or its last entry holds until then (R444). -/
def gateRuns (cycle : Nat) : Nat → List (BitVec 4 × Nat) → List (BitVec 4 × Nat)
  | _, [] => []
  | used, [(g, _)] => if used ≥ cycle then [] else [(g, cycle - used)]
  | used, (g, n) :: t => if used + n ≥ cycle then (if used ≥ cycle then [] else [(g, cycle - used)]) else (g, n) :: gateRuns cycle (used + n) t

/-- A class's stretches: open or not, length. -/
def classRuns (g : Gates) (c : Nat) : List (Bool × Nat) := (gateRuns g.cycle 0 g.entries).map (fun r => (r.1.getLsbD c, r.2))

/-- The position of a TB in the cycle. -/
def cyclePos (g : Gates) (now : Nat) : Nat := (((now : Int) - g.base) % (g.cycle : Int)).toNat

/-- The stretches from a position on. -/
def runsFrom : Nat → List (Bool × Nat) → List (Bool × Nat)
  | _, [] => []
  | p, (o, n) :: t => if p < n then (o, n - p) :: t else runsFrom (p - n) t

/-- Length of the leading open stretches. -/
def openLead (l : List (Bool × Nat)) : Nat := ((l.takeWhile Prod.fst).map Prod.snd).sum

/-- The class's gate never closes. -/
def alwaysOpen (g : Gates) (c : Nat) : Bool := (classRuns g c).all Prod.fst

/-- The class's gate is open (R443). -/
def gateOpen (g : Gates) (c now : Nat) : Bool :=
  g.entries.isEmpty || (match runsFrom (cyclePos g now) (classRuns g c) with
    | (o, _) :: _ => o
    | [] => false)

/-- Remaining open time, for a class whose gate closes at some time (R445). -/
def openTime (g : Gates) (c now : Nat) : Nat := openLead (runsFrom (cyclePos g now) (classRuns g c) ++ classRuns g c)

/-- Longest open run, for such a class (R445). -/
def longestRun (g : Gates) (c : Nat) : Nat :=
  let l := classRuns g c
  ((List.range l.length).map (fun i => openLead (l.drop i ++ l))).foldl max 0

/-- Time since the class's gate opened, in a cycle in which it closes. -/
def openSince (g : Gates) (c now : Nat) : Nat :=
  let l := classRuns g c
  let p := cyclePos g now
  openLead (runsFrom (g.cycle - p) (l.reverse) ++ l.reverse)

/-- Index of the entry in force. -/
def gateEntry (g : Gates) (now : Nat) : Nat :=
  let l := gateRuns g.cycle 0 g.entries
  l.length - (runsFrom (cyclePos g now) (l.map (fun r => (true, r.2)))).length

/-- GATE_ENTRY_BOUNDARY (R444): the list stands at the entry that TB gives. -/
def execGateEntryBoundary (s : State) : Host.Outcome State Fault Refusal :=
  s.run (fun e h => guard (mgtRuns e h && !h.mgt.oper.entries.isEmpty) (fun h =>
    onMgt (fun m => { m with gateIdx := gateEntry m.oper (nowNs h) }) h) h)

/-- The admin list may be committed (R446). -/
def adminOk (m : Mgt) : Bool :=
  (m.gclE.take m.gclCtrl.toNat).all (fun w => decide (bitsOf w.toNat 63 36 = 0) && decide (1 ≤ bitsOf w.toNat 31 0) &&
    decide (bitsOf w.toNat 31 0 ≤ 1000000000)) && decide (100000 ≤ m.gclCycle.toNat) && decide (m.gclCycle.toNat ≤ 1000000000)

/-- The first BASE + n × CYCLE, n ≥ 0, at or after a TB. -/
def cycleAt (base cycle t : Nat) : Nat := if t ≤ base then base else base + (t - base + cycle - 1) / cycle * cycle

/-- The end of the operational cycle then running; now when no list is operational. -/
def operEnd (g : Gates) (now : Nat) : Nat := if g.entries.isEmpty then now else now - cyclePos g now + g.cycle

/-- COMMIT (R446). -/
def commitGates (h : Hub) : Hub :=
  let m := h.mgt
  if !adminOk m then refusedWrite 3 0x20 (BitVec.ofNat 64 (128 + m.gclCtrl.toNat)) h
  else
    let g : Gates := {
      entries := (m.gclE.take m.gclCtrl.toNat).map (fun w => (BitVec.ofNat 4 (bitsOf w.toNat 35 32), bitsOf w.toNat 31 0))
      base := m.gclBase.toNat, cycle := m.gclCycle.toNat }
    onMgt (fun m => { m with pending := some (g, cycleAt g.base g.cycle (operEnd m.oper (nowNs h))) }) h

/-- MGT_GCL_COMMIT (R446). -/
def execMgtGclCommit (s : State) : Host.Outcome State Fault Refusal := s.run (mgtWrite 0x20 0x80 (fun _ => commitGates))

/-- GCL_PENDING_ACTIVATE (R446). -/
def execGclPendingActivate (s : State) : Host.Outcome State Fault Refusal :=
  s.run (fun e h =>
    match h.mgt.pending with
    | none => h
    | some (g, t) => guard (mgtRuns e h && decide (t ≤ nowNs h)) (fun h =>
        onMgt (fun m => { m with oper := g, pending := none, gateIdx := gateEntry g (nowNs h) }) h) h)

/-! Shapers and meters (R447–R450). -/

/-- A shaper's bucket on a segment at a TB: filled at RATE up to BURST (R447). -/
def shaperLevel (cfg : DWord) (b : Bucket) (now : Nat) : Int :=
  min ((bitsOf cfg.toNat 47 32 * 1024 : Nat) : Int) (b.level + (((now - b.filled) * bitsOf cfg.toNat 13 0 * 1024 / 8000000 : Nat) : Int))

/-- A write of a shaper (R447, R448): RATE up to 10,000, BURST from 64; otherwise ignored and recorded. -/
def writeShaper (c : Nat) (p : Part) (v : DWord) (h : Hub) : Hub :=
  let old := getAt h.mgt.shapers c 0
  let new := mergePart p old v &&& 0xFFFF00003FFF
  if bitsOf new.toNat 13 0 > 10000 ∨ bitsOf new.toNat 47 32 < 64 then refusedWrite 3 (0x40 + 8 * c) v h
  else
    let refill := match p with
      | .whole => v.getLsbD 48
      | .low => false
      | .high => v.getLsbD 16
    let b : Bucket := { level := if refill then ((bitsOf new.toNat 47 32 * 1024 : Nat) : Int) else 0, filled := nowNs h }
    let h := onMgt (fun m => { m with shapers := setAt m.shapers c new }) h
    let set := fun (s : Segment) => { s with buckets := setAt s.buckets c b }
    onSeg false set (onSeg true set h)

/-- MGT_SHAPER_WRITE (R448). -/
def execMgtShaperWrite (cls : BitVec 2) (part : Part) (v : DWord) (s : State) : Host.Outcome State Fault Refusal :=
  s.run (mgtWrite (0x40 + 8 * cls.toNat) v (fun _ => writeShaper cls.toNat part v))

/-- A write of a meter (R450): CIR above PIR, or a nonzero bucket size below 64, is ignored and recorded; an accepted write fills both
buckets. -/
def writeMeter (c : Nat) (p : Part) (v : DWord) (h : Hub) : Hub :=
  let new := mergePart p (getAt h.mgt.meters c {}).cfg v
  let n := new.toNat
  let small := fun x => decide (0 < x) && decide (x < 64)
  if bitsOf n 15 0 > bitsOf n 31 16 ∨ (small (bitsOf n 47 32) || small (bitsOf n 63 48)) = true then refusedWrite 3 (0x60 + 8 * c) v h
  else onMgt (fun m => { m with meters := setAt m.meters c {
      cfg := new, c := bitsOf n 47 32 * 1024, p := bitsOf n 63 48 * 1024, filled := nowNs h } }) h

/-- MGT_METER_WRITE (R450). -/
def execMgtMeterWrite (cls : BitVec 2) (part : Part) (v : DWord) (s : State) : Host.Outcome State Fault Refusal :=
  s.run (mgtWrite (0x60 + 8 * cls.toNat) v (fun _ => writeMeter cls.toNat part v))

/-! Egress (R442, R445, R447). -/

/-- Counted length of a frame on a segment. -/
def countedLen (s : Segment) (f : Frame) : Nat := f.bytes + overhead s
/-- Transmit time in ns: 0.8 µs per byte. -/
def transmitNs (s : Segment) (f : Frame) : Nat := 800 * countedLen s f

/-- How a class's head frame stands: not eligible, eligible, eligible at the longest run as an overrun, or too long for TC3. -/
inductive Offer where
  | no | yes | late | drop

/-- R442, R445, R447 for a class's head frame. The start of the longest open run is the CK_SLOW cycle of 4 ns in which the gate opens. -/
def offerOf (h : Hub) (s : Segment) (c : Nat) (f : Frame) : Offer :=
  let g := h.mgt.oper
  let now := nowNs h
  let cfg := getAt h.mgt.shapers c 0
  let shaped := decide (bitsOf cfg.toNat 13 0 = 0) || decide (0 ≤ shaperLevel cfg (getAt s.buckets c {}) now)
  let t := transmitNs s f
  if g.entries.isEmpty || alwaysOpen g c then (if shaped then .yes else .no)
  else if t > longestRun g c then
    if c = 3 then .drop
    else if shaped && gateOpen g c now && decide (openSince g c now < 4) && decide (openSince g c now + openTime g c now = longestRun g c) then .late
    else .no
  else if shaped && gateOpen g c now && decide (t ≤ openTime g c now) then .yes else .no

/-- A frame is offered to the MII: the shaper pays its counted length (R447). -/
def offerFrame (b : Bool) (c : Nat) (f : Frame) (late : Bool) (h : Hub) : Hub :=
  let cfg := getAt h.mgt.shapers c 0
  let now := nowNs h
  let h := onMgt (fun m => { m with overrun := m.overrun + b2n late }) h
  onSeg b (fun s => { s with
    queues := setAt s.queues c ((getAt s.queues c []).drop 1), offered := some (c, f, late), attempts := 0
    buckets := if bitsOf cfg.toNat 13 0 = 0 then s.buckets else setAt s.buckets c {
      level := shaperLevel cfg (getAt s.buckets c {}) now - ((1024 * countedLen s f : Nat) : Int), filled := now } }) h

/-- The lowest-numbered class whose head frame may be offered; a TC3 head that is too long is discarded. -/
def selectFrame (b : Bool) : List Nat → Hub → Hub
  | [], h => h
  | c :: t, h =>
    match getAt (seg h b).queues c [] with
    | [] => selectFrame b t h
    | f :: _ => match offerOf h (seg h b) c f with
      | .no => selectFrame b t h
      | .yes => offerFrame b c f false h
      | .late => offerFrame b c f true h
      | .drop => onMgt (fun m => { m with toolong := m.toolong + 1 })
          (onSeg b (fun s => { s with queues := setAt s.queues c ((getAt s.queues c []).drop 1) }) h)

/-- EGRESS_FRAME_SELECT (R442). -/
def execEgressFrameSelect (seg_ : Bool) (s : State) : Host.Outcome State Fault Refusal :=
  s.run (fun e h => guard (mgtRuns e h && segUp h seg_ && (seg h seg_).offered.isNone) (selectFrame seg_ [0, 1, 2, 3]) h)

/-- EGRESS_FRAME_DONE (R442): the frame completes, an overrun of its gate is counted, and a PLCA restart that waited takes place (R419). A
frame already on the MII completes in FLUSH too (R453). -/
def execEgressFrameDone (seg_ : Bool) (s : State) : Host.Outcome State Fault Refusal :=
  s.run (fun e h =>
    match (seg h seg_).offered with
    | none => h
    | some (c, _, counted) => guard (e.tray && portOn h) (fun h =>
        let excess := !counted && !gateOpen h.mgt.oper c (nowNs h)
        let h := onMgt (fun m => { m with overrun := m.overrun + b2n excess }) h
        let h := onSeg seg_ (fun s => { s with offered := none, attempts := 0, sentFrames := s.sentFrames + 1 }) h
        if (seg h seg_).restart then plcaStart seg_ h else h) h)

end Sys2Proof.Machine
end

