-- ==== Sys2Proof/Machine/AuditOps.lean ====
section
/-!
DEFINITION. The audit engine: operand formats, the descriptor, what an audit computes, its outcomes and classes
(R111–R117, R138–R152).
-/
namespace Sys2Proof.Machine

/-- Element width in bits of an operand format (Table 4.1). -/
def fmtBits (f : Nat) : Nat := getAt [8, 8, 8, 6, 6, 4, 16] f 0

/-- An element of a small float format with bias from OCP MX v1.0 and no infinities of its own. -/
def miniFloat (eb mb bias v : Nat) : Flt :=
  let s := bitOf v (eb + mb)
  let ex := bitsOf v (eb + mb - 1) mb
  let fr := v % 2 ^ mb
  if ex = 0 then .fin s fr (1 - (bias : Int) - mb) else .fin s (fr + 2 ^ mb) ((ex : Int) - bias - mb)

/-- The value of an element code (Table 4.1, OCP MX v1.0). -/
def elemVal (f v : Nat) : Flt :=
  match f with
  | 0 => .ofInt (signed 8 v) (-6)
  | 1 => if v % 128 = 127 then .nan else miniFloat 4 3 7 v
  | 2 => if bitsOf v 6 2 = 31 then (if v % 4 = 0 then .inf (bitOf v 7) else .nan) else miniFloat 5 2 15 v
  | 3 => miniFloat 3 2 3 v
  | 4 => miniFloat 2 3 1 v
  | 5 => miniFloat 2 1 1 v
  | _ => bf16.decode v

/-- A scaled element: e × 2^(S − 127), NaN for a scale of 0xFF (R111). -/
def scaled (x : Flt) (s : Nat) : Flt :=
  if s = 255 then .nan
  else match x with
    | .fin a m e => .fin a m (e + s - 127)
    | y => y

/-- Bits at a bit address of memory (R139): the element's least significant bit stands lowest. -/
def memBits (e : Env) (h : Hub) (a n : Nat) : Option Nat :=
  (readMem e h (a / 8) ((a % 8 + n + 7) / 8)).map (fun bs => leNat bs / 2 ^ (a % 8) % 2 ^ n)

/-- An audit descriptor (Table 4.8). -/
structure AuditDesc where
  addrL : Nat
  addrR : Nat
  addrC : Nat
  addrSL : Nat
  addrSR : Nat
  strideL : Nat
  strideR : Nat
  strideC : Nat
  w6 : Nat
  w7 : Nat
  deriving DecidableEq, Repr

/-- Byte address of the descriptor of a core's audit slot (R138). -/
def descAddr (h : Hub) (c : Nat) (slot : BitVec 2) : Nat := h.res.ring + 64 * (4 * c + slot.toNat)

/-- Read a descriptor. -/
def readDesc (e : Env) (h : Hub) (c : Nat) (slot : BitVec 2) : Option AuditDesc :=
  (readMem e h (descAddr h c slot) 64).map (fun b =>
    { addrL := leAt b 0 8, addrR := leAt b 8 8, addrC := leAt b 16 8, addrSL := leAt b 24 8, addrSR := leAt b 32 8
      strideL := leAt b 40 4, strideR := leAt b 44 4, strideC := leAt b 48 4, w6 := leAt b 48 8, w7 := leAt b 56 8 })

/-- VALID of a descriptor. -/
def AuditDesc.isValid (d : AuditDesc) : Bool := bitOf d.w7 63

/-- The descriptor agrees with the tile's START beat, and its addresses and strides are aligned (R139, R147). A reserved field that is not 0
counts as disagreeing: DESIGN CHOICE (log 77), Table 4.8 gives it no value to agree with. -/
def AuditDesc.agrees (d : AuditDesc) (t : Tile) : Bool :=
  decide (bitsOf d.w6 63 54 = 0) && decide (bitsOf d.w6 53 43 = t.n) && decide (bitsOf d.w6 42 32 = t.m) &&
    decide (bitsOf d.w7 62 49 = 0) && decide (bitsOf d.w7 48 33 = t.tag.toNat) && decide (bitsOf d.w7 32 31 = t.orient.toNat) &&
    decide (bitsOf d.w7 30 29 = t.fmtC.toNat) && decide (bitsOf d.w7 28 25 = t.fmtR.toNat) &&
    decide (bitsOf d.w7 24 21 = t.fmtL.toNat) && decide (bitsOf d.w7 20 0 = t.k) &&
    [d.addrL, d.addrR, d.addrC, d.strideL, d.strideR, d.strideC].all (fun a => decide (a % 64 = 0))

/-- Number of scale blocks along K. -/
def scaleBlocks (k : Nat) : Nat := (k + 31) / 32

/-- L_ik from memory (Table 4.9). -/
def auditL (e : Env) (h : Hub) (d : AuditDesc) (t : Tile) (i k : Nat) : Option Flt :=
  let f := t.fmtL.toNat
  let w := fmtBits f
  let a := if t.orient = 1 then 8 * d.addrL + 8 * k * d.strideL + w * i else 8 * d.addrL + 8 * i * d.strideL + w * k
  match memBits e h a w with
  | none => none
  | some v => if f = 6 then some (elemVal f v) else
      (readByte e h (d.addrSL + i * scaleBlocks t.k + k / 32)).map (fun s => scaled (elemVal f v) s.toNat)

/-- R_kj from memory (Table 4.9). -/
def auditR (e : Env) (h : Hub) (d : AuditDesc) (t : Tile) (k j : Nat) : Option Flt :=
  let f := t.fmtR.toNat
  let w := fmtBits f
  let a := if t.orient = 2 then 8 * d.addrR + 8 * j * d.strideR + w * k else 8 * d.addrR + 8 * k * d.strideR + w * j
  match memBits e h a w with
  | none => none
  | some v => if f = 6 then some (elemVal f v) else
      (readByte e h (d.addrSR + j * scaleBlocks t.k + k / 32)).map (fun s => scaled (elemVal f v) s.toNat)

/-- Format of the output. -/
def outFmt (t : Tile) : FFmt := if t.fmtC = 0 then f32 else if t.fmtC = 1 then bf16 else f16

/-- C_ij's bits in memory (Table 4.9). -/
def auditC (e : Env) (h : Hub) (d : AuditDesc) (t : Tile) (i j : Nat) : Option Nat :=
  let w := (outFmt t).eb + (outFmt t).mb + 1
  memBits e h (8 * d.addrC + 8 * i * d.strideC + w * j) w

/-- The residue of a value; a non-finite one has none and reads 0. -/
def fltResidue (x : Flt) : Fld :=
  match x with
  | .fin s m e => residue s m e
  | _ => 0

/-- A point's powers as weights: Σ over a list with x_i = s^(i + 1) (R114). -/
def weighted (s : Fld) (l : List Fld) : Fld :=
  (l.foldl (fun (acc : Fld × Fld) v => (fAdd acc.1 (fMul acc.2 v), fMul acc.2 s)) (0, s)).1

/-- A fingerprint by Horner's rule (R138). -/
def fingerprint (u : Fld) (l : List Fld) : Fld := l.foldl (fun a v => fMul (fAdd a v) u) 0

/-- Differences an audit can find: FP_L, FP_R, ELEMENT, BOUND, or a rounding difference; elements with i, j, expected and
host's bits (R144–R148). -/
inductive AuditDiff where
  | fpL | fpR
  | element (i j : Nat) (want got : Nat)
  | bound (i j : Nat) (want got : Nat)
  | rounding (i j : Nat) (want got : Nat)
  deriving DecidableEq, Repr

/-- Result of an audit: a descriptor or encoding fault, or the list of differences. -/
inductive AuditRes where
  | format
  | diffs (l : List AuditDiff)
  deriving DecidableEq, Repr

/-- `n` indexes below `total`, chosen uniformly without repetition by draws of the DRBG (R145, log 2). -/
def choose (seed : Nat) : Nat → List Nat → List Nat
  | 0, _ => []
  | n + 1, pool =>
    if pool.isEmpty then []
    else
      let i := (Config.drbg (seed + n)).toNat % pool.length
      getAt pool i 0 :: choose seed n (pool.eraseIdx i)

/-- Sum of exact values; an exact zero is +0 (R110). -/
def exactSum (l : List Flt) : Flt :=
  match l.foldl Flt.add (.fin false 0 0) with
  | .fin _ 0 _ => .fin false 0 0
  | x => x

/-- The host's bits are the other representable neighbour of the exact value, or a signed zero where the correct result is a
subnormal or a zero (R146). -/
def isRounding (f : FFmt) (x : Flt) (want got : Nat) : Bool :=
  let sb := 2 ^ (f.eb + f.mb)
  let mag := want % sb
  let gm := got % sb
  let zero := decide (gm = 0) && decide (mag < 2 ^ f.mb)
  let other := match x, f.decode want with
    | .fin s m e, .fin _ n k =>
      if !(Flt.fin false m e).lt (.fin false n k) && !(Flt.fin false n k).lt (.fin false m e) then none
      else if (Flt.fin false n k).lt (.fin false m e) then some (b2n s * sb + (mag + 1))
      else some (b2n s * sb + (mag - 1))
    | .fin s _ _, .inf _ => some (b2n s * sb + (mag - 1))
    | _, _ => none
  zero || decide (other = some got)

/-- Half a unit in the last place of the output format at a rounded value (R148). -/
def halfUlp (f : FFmt) (bits : Nat) : Flt :=
  let ex := bitsOf bits (f.eb + f.mb - 1) f.mb
  .fin false 1 (f.emin + ((ex - 1 : Nat) : Int) - 1)

/-- One output element's check (R145, R146, R148). -/
def checkElem (t : Tile) (uacc : Nat) (ls rs : List Flt) (i j got : Nat) : List AuditDiff :=
  let f := outFmt t
  let prods := List.zipWith Flt.mul ls rs
  let x := exactSum prods
  let want := f.encode x
  if t.bounded then
    let lim := ((exactSum (prods.map (fun p => match p with
      | .fin _ m e => .fin false m e
      | y => y))).mul (.fin false (t.k + 1) (-(uacc : Int)))).add (halfUlp f want)
    let d := (f.decode got).add x.neg
    let ok := match d with
      | .fin _ m e => !lim.lt (.fin false m e)
      | _ => false
    if ok then [] else [.bound i j want got]
  else if want = got then []
  else if isRounding f x want got then [.rounding i j want got]
  else [.element i j want got]

/-- What an audit of a tile finds in memory; none when a read fails (R139–R148). -/
def auditTile (e : Env) (h : Hub) (q : AuditReq) (uacc : Nat) : Option AuditRes :=
  match readDesc e h q.core q.slot with
  | none => none
  | some d =>
    let t := q.tile
    if !q.ready || !q.valid || !d.agrees t then some .format
    else
      let is := List.range t.m
      let js := List.range t.n
      let ks := List.range t.k
      match is.mapM (fun i => ks.mapM (fun k => auditL e h d t i k)), js.mapM (fun j => ks.mapM (fun k => auditR e h d t k j)) with
      | some ls, some rs =>
        let nonfin := (ls ++ rs).any (fun r => r.any (fun x => !x.isFin))
        if nonfin != q.special then some .format
        else if q.special then some (.diffs [])
        else
          let col := fun (m : List (List Flt)) (k : Nat) => m.map (fun r => fltResidue (getAt r k .nan))
          let fa := fingerprint t.word.u (ks.map (fun k => weighted t.word.s (col ls k)))
          let fb := fingerprint t.word.u (ks.map (fun k => weighted t.word.t (col rs k)))
          let fp := if t.bounded then [] else
            (if fa = t.fa then [] else [AuditDiff.fpL]) ++ (if fb = t.fb then [] else [AuditDiff.fpR])
          let all := List.range (t.m * t.n)
          let pick := if h.res.elements ≥ t.m * t.n then all else choose h.free h.res.elements all
          match pick.mapM (fun x => (auditC e h d t (x / t.n) (x % t.n)).map (fun got =>
              checkElem t uacc (getAt ls (x / t.n) []) (getAt rs (x % t.n) []) (x / t.n) (x % t.n) got)) with
          | none => none
          | some el => some (.diffs (fp ++ el.flatten))
      | _, _ => none

/-- An output or bound difference. -/
def AuditDiff.isElem : AuditDiff → Bool
  | .element _ _ _ _ => true
  | .bound _ _ _ _ => true
  | _ => false
/-- A fingerprint difference. -/
def AuditDiff.isFp : AuditDiff → Bool
  | .fpL => true
  | .fpR => true
  | _ => false

/-- Class of a tile's evidence (Table 4.11): lane result 1 is RES_MISMATCH, any other ended tile passed or was special. -/
def auditClass (lane : BitVec 3) (r : AuditRes) : Nat :=
  match r with
  | .format => classDescriptor
  | .diffs l =>
    if lane = 1 then
      if l.any AuditDiff.isElem then classArray
      else if l.any AuditDiff.isFp then classChecksum
      else if l.isEmpty then classEndPath
      else classOutput
    else if l.any AuditDiff.isFp then classOperand else classOutput

/-- Outcome code, kind and further words of a difference (Table 4.10, R152). -/
def AuditDiff.words : AuditDiff → Nat × Nat × List Word
  | .fpL => (4, 0, [])
  | .fpR => (4, 1, [])
  | .element i j a b => (4, 2, [w32 i, w32 j, w32 a, w32 b])
  | .bound i j a b => (4, 3, [w32 i, w32 j, w32 a, w32 b])
  | .rounding i j a b => (5, 0, [w32 i, w32 j, w32 a, w32 b])

/-- VALID of a descriptor clears (R149). -/
def clearValid (e : Env) (c : Nat) (slot : BitVec 2) (h : Hub) : Hub :=
  match readByte e h (descAddr h c slot + 63) with
  | some b => postMem (descAddr h c slot + 63) [b &&& 0x7F] h
  | none => h

/-- An audit request counted as audit-skipped (R142, R143). -/
def auditSkip (c n : Nat) (h : Hub) : Hub := countCore c 19 { h with res := { h.res with audSkip := h.res.audSkip + n } } n

/-- A lane outcome has its effects (R19, R151, R152), under a class. -/
def laneOutcome (e : Env) (o : TapOut) (cls : Nat) (pr : Bool) (h : Hub) : Hub :=
  let code := o.res.toNat
  let extra := match code, o.tile with
    | 1, some t => w64 (if t.bounded then t.bs.toNat else t.sum.toNat) ++ w64 o.vsent.toNat
    | _, _ => []
  let h := if code = 2 then rememberTimeout o.core o.tile (nextRseq h) h else h
  outcomeEffects e o.core code cls ((o.tile.map Tile.orient).getD 0).toNat
    (outcomePayload o.hostCycle code cls o.sub o.tile extra) o.cond pr o.tb h

/-- The class of an outcome waits for this request's audit. -/
def TapOut.isOf (o : TapOut) (q : AuditReq) : Bool :=
  decide (o.core = q.core) && o.tile.any (fun t => decide (t.tag = q.tile.tag) && decide (t.pseq = q.tile.pseq))

/-- The RES_MISMATCH of an audited tile has its effects under the class that its audit gives (R151). -/
def giveClass (e : Env) (q : AuditReq) (cls : Nat) (h : Hub) : Hub :=
  match h.res.unclassed.find? (fun p => p.1.isOf q) with
  | none => h
  | some p => laneOutcome e p.1 cls p.2 { h with res := { h.res with unclassed := h.res.unclassed.erase p } }

/-- An audit is abandoned: counted, and the tile's RES_MISMATCH stays unclassified (R142, R143, R151). -/
def abandon (e : Env) (q : AuditReq) (h : Hub) : Hub := giveClass e q classUnclassified (auditSkip q.core 1 h)

/-- A lane outcome reaches the hub: a RES_MISMATCH of an audited tile waits for its class, any other has its effects (R151). That the whole
outcome waits with its class is DEDUCED (log 88): R151 puts the class into the outcome's record. -/
def laneArrives (e : Env) (o : TapOut) (h : Hub) : Hub :=
  let pr := probing h o.core
  if o.res = 1 then
    let h := mismatchArrives o.core h
    if o.tile.any (fun t => t.word.audit) then { h with res := { h.res with unclassed := h.res.unclassed ++ [(o, pr)] } }
    else laneOutcome e o classUnclassified pr h
  else laneOutcome e o classControl pr h

/-- An audit outcome of a tile. -/
def auditOutcome (e : Env) (q : AuditReq) (cls code kind : Nat) (extra : List Word) (h : Hub) : Hub :=
  let h := if code = 4 then mismatchArrives q.core h else h
  outcomeEffects e q.core code cls q.tile.orient.toNat
    (outcomePayload (cell h q.core).cnt.elapsed code cls kind (some q.tile) extra) (regionBin e h (regionOf q.core)) (probing h q.core) (nowNs h) h

/-- An audit that has ended without abandonment: the class of the lane's outcome, the audit's outcomes, counts, VALID (R149–R151). -/
def auditEnds (e : Env) (q : AuditReq) (r : AuditRes) (h : Hub) : Hub :=
  let cls := auditClass q.lane r
  let h := giveClass e q cls h
  let h := match r with
    | .format => auditOutcome e q cls 6 0 [] h
    | .diffs l => l.foldl (fun h (d : AuditDiff) => let w := d.words; auditOutcome e q cls w.1 w.2.1 w.2.2 h) h
  clearValid e q.core q.slot (countCore q.core 18 { h with res := { h.res with audits := h.res.audits + 1 } })

/-- High priority (R142): SUSPECT, PROBATION, test-overdue, or inside a confirmation window. -/
def auditHigh (e : Env) (h : Hub) (c : Nat) : Bool :=
  let v := (entity h (coreId e h c)).verdict
  v == 2 || v == 3 || overdue e h c || decide ((hubc h c).confirm > 0)

/-- Drop the newest routine request of a queue. -/
def dropRoutine (l : List AuditReq) : Option (AuditReq × List AuditReq) :=
  match l.reverse.find? (fun q => !q.high) with
  | none => none
  | some q => some (q, (l.reverse.erase q).reverse)

/-- A request reaches the audit queue of 256 (R142). -/
def auditPush (e : Env) (q : AuditReq) (h : Hub) : Hub :=
  if h.res.queue.length < 256 then { h with res := { h.res with queue := h.res.queue ++ [q] } }
  else if q.high then
    match dropRoutine h.res.queue with
    | some (o, l) => abandon e o { h with res := { h.res with queue := l ++ [q] } }
    | none => abandon e q h
  else abandon e q h

/-- An audit slot of a core is in use by an earlier request. -/
def slotBusy (h : Hub) (c : Nat) (slot : BitVec 2) : Bool :=
  (h.res.queue ++ h.res.units.map Prod.snd).any (fun q => decide (q.core = c) && decide (q.slot = slot))

/-- An audit request that has crossed: queued, or AUD_FORMAT when its slot is still in use (Table 4.14). -/
def auditArrives (e : Env) (o : TapOut) (slot : BitVec 2) (ready : Bool) (t : Tile) (h : Hub) : Hub :=
  let q : AuditReq := {
    core := o.core, tile := t, lane := o.res, slot := slot, ready := ready, special := decide (o.res = 4)
    high := auditHigh e h o.core, until_ := o.tb + h.res.holdLimit }
  if slotBusy h o.core slot then auditOutcome e q classDescriptor 6 0 [] (giveClass e q classDescriptor h) else auditPush e q h

/-- A request of the tile is on its way or waits. -/
def auditAwaited (h : Hub) (o : TapOut) : Bool :=
  (h.res.queue ++ h.res.units.map Prod.snd).any o.isOf ||
    (region h (regionOf o.core)).outq.any (fun x => x.audit.isSome && decide (x.core = o.core) && decide (x.tile = o.tile))

/-- Outcomes of a core whose audit requests a full region queue has discarded stay unclassified (R134, R151). -/
def dropClasses (e : Env) (c : Nat) (h : Hub) : Hub :=
  let l := h.res.unclassed.filter (fun p => decide (p.1.core = c) && !auditAwaited h p.1)
  l.foldl (fun h p => laneOutcome e p.1 classUnclassified p.2 h)
    { h with res := { h.res with unclassed := h.res.unclassed.filter (fun p => !l.contains p) } }

/-- The next request a unit takes: high priority first, oldest first within a class (R142). -/
def auditNext (l : List AuditReq) : Option AuditReq := (l.find? AuditReq.high).or l.head?

/-- The lowest free one of the 32 units. -/
def freeUnit (h : Hub) : Option Nat := (List.range 32).find? (fun i => (Tab.find h.res.units i).isNone)

end Sys2Proof.Machine
end

