-- ==== Sys2Proof/Machine/ResCmds.lean ====
section
/-!
DEFINITION. The commands and events of the residue verifier and the audit engine (R118–R160).
-/
namespace Sys2Proof.Machine

/-- RES_CFG settings (Table 4.12), in order: what the die takes, and what a core takes. -/
structure ResSet where
  die     : ResU
  bounded : Option Bool := none
  required : Option Bool := none
  uacc    : Option Nat := none

/-- A core-scoped record. -/
def resCoreSetting (num : Nat) (v : List Word) (a : ResSet) : Option ResSet :=
  match num with
  | 1 => (within 0 1 (one v)).map (fun n => { a with bounded := some (decide (n = 1)) })
  | 2 => (within 0 1 (one v)).map (fun n => { a with required := some (decide (n = 0)) })
  | 7 => (within 8 60 (one v)).map (fun n => { a with uacc := some n })
  | _ => none

/-- A record of either scope. -/
def resDieSetting (num : Nat) (v : List Word) (a : ResSet) : Option ResSet :=
  match num with
  | 3 => (within 1000 100000000 (two v)).map (fun n => { a with die := { a.die with timeout := n } })
  | 4 => (within 10000 10000000 (two v)).map (fun n => { a with die := { a.die with holdLimit := n } })
  | 5 => (within 0 64 (one v)).map (fun n => { a with die := { a.die with elements := n } })
  | 6 => (within 4000000000 128000000000 (two v)).map (fun n => { a with die := { a.die with budget := n } })
  | 8 => (two v).bind (fun n => if n % 64 = 0 then some { a with die := { a.die with ring := n } } else none)
  | _ => resCoreSetting num v a

/-- Core-scoped settings go to a core (R47). -/
def sendRes (e : Env) (a : ResSet) (c : Nat) (h : Hub) : Hub := (sendCell e c (.res a.bounded a.required a.uacc) h).1

/-- The core-scoped settings name something. -/
def ResSet.cores (a : ResSet) : Bool := a.bounded.isSome || a.required.isSome || a.uacc.isSome

/-- The records of RES_CFG under its scope. -/
def resSettings (h : Hub) (c : Ctx) : Sum Nat ResSet :=
  c.settings 2 (if kindOf (c.w 1) = 3 then resDieSetting else resCoreSetting) { die := h.res }

/-- RES_CFG -/
def opResCfg : OpDef := {
  code := 0x30, changes := true, may := fleetDom, runs := dieOnly, form := fun c => decide (1 ≤ c.words.length)
  range := fun _ h c =>
    if entOk h (c.w 1) && (kindOf (c.w 1) == 0 || kindOf (c.w 1) == 3) then badSet (resSettings h c) else some 1
  act := fun e h c =>
    let a := setOr { die := h.res } (resSettings h c)
    if kindOf (c.w 1) = 3 then
      if c.w 1 ≠ dieEnt e h then refuse stNotFound h 1
      else
        okCross h [] (if a.cores then ((List.range 2048).filter e.present).foldl (fun h k => sendRes e a k h) { h with res := a.die }
          else { h with res := a.die })
    else onCore e h c (fun k => okCross h [] (sendRes e a k h)) }

/-- RES_CFG (R157, R47). -/
def execResCfg (c : Cmd) (s : State) : Host.Outcome State Fault Refusal := s.runOp opResCfg c

/-- Exponents AUDIT_RATE accepts of a domain (R155): that DEBUG may not set 4–20, which R155 gives FLEET, is DEDUCED (log 78). -/
def auditRateOk (c : Ctx) (n : Nat) : Bool := (decide (4 ≤ n) && decide (n ≤ 20) && fleetDom c) || decide (n = 31) ||
  (decide (n ≤ 3) && c.dom == .debug)

/-- AUDIT_RATE -/
def opAuditRate : OpDef := {
  code := 0x31, changes := true, may := fleetDebug, runs := dieOnly, form := fun c => decide (c.words.length = 2)
  range := fun e h c => (coreRange e h c).or (if auditRateOk c (c.n 2) then none else some 2)
  act := fun e h c => onCore e h c (fun k => ok [] (onEnt (c.w 1) (fun x => { x with lastCmd := some (nowNs h), rateTb := some (nowNs h) })
    (onHubc k (fun x => { x with exponent := some (c.n 2), newVerdict := false }) h))) }

/-- AUDIT_RATE (R155): the commanded exponent applies from the next point word assigned. -/
def execAuditRate (c : Cmd) (s : State) : Host.Outcome State Fault Refusal := s.runOp opAuditRate c

/-- Results of AUDIT_READ (Table 12.13). -/
def auditReadWords (e : Env) (h : Hub) (k : Nat) : List Word :=
  let x := auditExp e h k
  [coreId e h k, w32 (x.1 + x.2 * 256 + b2n (hubc h k).required * 65536)] ++ (hubc h k).counts.flatMap w64

/-- AUDIT_READ -/
def opAuditRead : OpDef := {
  code := 0x32, may := anyDom, runs := dieOnly, form := fun c => decide (c.words.length = 1)
  see := coreSee, range := coreRange
  act := fun e h c => onCore e h c (fun k => ok (auditReadWords e h k) h) }

/-- AUDIT_READ (R150, R311). -/
def execAuditRead (c : Cmd) (s : State) : Host.Outcome State Fault Refusal := s.runOp opAuditRead c

/-- TAP_START (R126, R128, R640). -/
def execTapStart (core : CoreNo) (d : BitVec 128) (ptake : Bool) (s : State) : Host.Outcome State Fault Refusal :=
  s.run (fun e h => guard (laneRuns e h core.toNat) (lanStart e core.toNat d ptake) h)

/-- TAP_SKIP (R133, R640). -/
def execTapSkip (core : CoreNo) (d : BitVec 128) (ptake : Bool) (s : State) : Host.Outcome State Fault Refusal :=
  s.run (fun e h => guard (laneRuns e h core.toNat) (lanSkip e core.toNat d ptake) h)

/-- TAP_PAIR (R126, R135, R138, R640). -/
def execTapPair (core : CoreNo) (d : BitVec 128) (ptake : Bool) (s : State) : Host.Outcome State Fault Refusal :=
  s.run (fun e h => guard (laneRuns e h core.toNat) (lanPair e core.toNat d ptake) h)

/-- TAP_END (R127, R130, R132, R136, R640). -/
def execTapEnd (core : CoreNo) (d : BitVec 128) (ptake : Bool) (s : State) : Host.Outcome State Fault Refusal :=
  s.run (fun e h => guard (laneRuns e h core.toNat) (lanEnd e core.toNat d ptake) h)

/-- TAP_OUTCOME_PRESENT (R127): the oldest outcome that is due takes a host cycle no earlier outcome holds. -/
def execTapOutcomePresent (core : CoreNo) (s : State) : Host.Outcome State Fault Refusal :=
  s.run (fun e h =>
    let c := core.toNat
    let l := (cell h c).lane
    match l.due with
    | [] => h
    | o :: t => guard (laneRuns e h c && !l.rv && decide (o.due ≤ l.cycle))
      (onLane c (fun l => { l with due := t, rv := true, res := o.res, rtag := o.rtag })) h)

/-- TAP_TIMEOUT (R129): the oldest open tile whose deadline, stops excluded, has passed. -/
def execTapTimeout (core : CoreNo) (s : State) : Host.Outcome State Fault Refusal :=
  s.run (fun e h =>
    let c := core.toNat
    match (cell h c).lane.tiles.find? (fun t => tileExpired h c t) with
    | none => h
    | some t => guard (laneRuns e h c && !e.beaten (evTapEnd c) (tileDue h c t) (nowNs h)) (timeOutTile e c t) h)

/-- A drawn block gives a point word: neither s nor t is 0 or p (R119). -/
def pointOk (b : BitVec 128) : Bool :=
  let s := beatBits b 121 61
  let t := beatBits b 60 0
  decide (s ≠ 0) && decide (s ≠ resP) && decide (t ≠ 0) && decide (t ≠ resP)

/-- The first block of the next `n` draws that satisfies a test, and how many were used. -/
def drawUntil (ok : BitVec 128 → Bool) (free : Nat) : Nat → Nat → Option (BitVec 128) × Nat
  | 0, k => (none, k)
  | n + 1, k => if ok (Config.drbg (free + k)) then (some (Config.drbg (free + k)), k + 1) else drawUntil ok free n (k + 1)

/-- Six 20-bit selectors of a block, the low 20 bits first (R119). -/
def selectorsOf (b : BitVec 128) : List (BitVec 20) := (List.range 6).map (fun i => BitVec.ofNat 20 (beatBits b (20 * i + 19) (20 * i)))

/-- A selector calls for an audit at an exponent (R119). -/
def selected (sel : BitVec 20) (r : Nat) : Bool := decide (r ≤ 20) && decide (sel.toNat % 2 ^ r = 0)

/-- An instance has served its 2^32 generate requests to the last block, and waits to be reseeded (R118). -/
def drbgSpent (h : Hub) (i : Nat) : Bool := decide (getAt h.res.drbg i (0, 0) = (2 ^ 32, 0))

/-- The instance that gives the next block: the lowest that runs and is not spent. Which one does is DESIGN CHOICE (log 86). -/
def servingInstance (h : Hub) : Option Nat := (List.range 8).find? (fun i => h.res.drbgOk.getLsbD i && !drbgSpent h i)

/-- One block of 128 bits is taken: of the request in progress, or of a new one of 4,096 blocks (R118). Its value is free (log 2), so an
instance's key and V are not held. -/
def takeBlock (h : Hub) : Hub :=
  match servingInstance h with
  | none => h
  | some i =>
    let p := getAt h.res.drbg i (0, 0)
    { h with res := { h.res with drbg := setAt h.res.drbg i (if p.2 = 0 then (p.1 + 1, 4095) else (p.1, p.2 - 1)) } }

/-- Blocks are taken. -/
def takeBlocks (n : Nat) (h : Hub) : Hub := (List.range n).foldl (fun h _ => takeBlock h) (drawn h n)

/-- Draw selectors when none is left. -/
def needSelectors (h : Hub) : Hub :=
  if h.res.selectors.isEmpty then takeBlocks 1 { h with res := { h.res with selectors := selectorsOf (draw h) } } else h

/-- Form and assign one point word (R119, R123): draws that give no legal word place none. -/
def assignWord (e : Env) (c : Nat) (h : Hub) : Hub :=
  let p := drawUntil pointOk h.free 16 0
  let h := needSelectors (takeBlocks p.2 h)
  match p.1, h.res.selectors with
  | some b, sel :: rest =>
    let audit := selected sel (auditExp e h c).1
    let uOk := fun (b : BitVec 128) => decide (beatBits b 60 0 ≠ 0) && decide (beatBits b 60 0 ≠ resP)
    let u := if audit then drawUntil uOk h.free 16 0 else (some 0, 0)
    let h := takeBlocks u.2 { h with res := { h.res with selectors := rest } }
    match u.1 with
    | none => h
    | some ub =>
      let fixed := h.res.dbgS.getLsbD 63
      let w : PointWord := if fixed then
          { audit := audit, s := h.res.dbgS.setWidth 61, t := h.res.dbgT.setWidth 61, u := h.res.dbgU.setWidth 61, fixed := true }
        else { audit := audit, s := BitVec.ofNat 61 (beatBits b 121 61), t := BitVec.ofNat 61 (beatBits b 60 0)
               u := if audit then BitVec.ofNat 61 (beatBits ub 60 0) else 0, fixed := false }
      onHubc c (fun x => { x with confirm := x.confirm - 1 }) (onLane c (fun l => { l with fifo := l.fifo ++ [w] }) h)
  | _, _ => h

/-- A refill of a FIFO goes on while it has room, and begins at six words or fewer (R121, Table 4.14). -/
def Lane.wants (l : Lane) : Bool := decide (l.fifo.length ≤ 6) || (l.filling && decide (l.fifo.length < 8))

/-- POINT_FIFO_REFILL (R118–R123, R154): the group places a word in a FIFO that it refills. -/
def execPointFifoRefill (core : CoreNo) (s : State) : Host.Outcome State Fault Refusal :=
  s.run (fun e h => guard (laneRuns e h core.toNat && (servingInstance h).isSome && (cell h core.toNat).lane.wants)
    (fun h => onLane core.toNat (fun l => { l with filling := decide (l.fifo.length < 8) }) (assignWord e core.toNat h)) h)

/-- DRBG_RESEED (R118): a running instance that has served 2^32 requests takes 384 bits from the noise source; its blocks stay free values. -/
def execDrbgReseed (i : BitVec 3) (s : State) : Host.Outcome State Fault Refusal :=
  s.run (fun e h => guard (!e.tray && alive h && h.res.drbgOk.getLsbD i.toNat && drbgSpent h i.toNat)
    (fun h => drawn { h with res := { h.res with drbg := setAt h.res.drbg i.toNat (0, 0) } } 3) h)

/-- DRBG_FAILURE (R122): the instance stops; with all eight stopped the die is reported unchecked. -/
def execDrbgFailure (i : BitVec 3) (s : State) : Host.Outcome State Fault Refusal :=
  s.run (fun e h => guard (!e.tray && alive h && h.res.drbgOk.getLsbD i.toNat)
    (fun h =>
      let h := { h with res := { h.res with drbgOk := w1c h.res.drbgOk (BitVec.ofNat 8 (2 ^ i.toNat)) } }
      let h := emit 9 1 0 (unitId e h 32) 32 4 [w32 i.toNat] h
      if h.res.drbgOk = 0 then report 0 .unchecked (dieEnt e h) [] (unitFault e 32 5 2 (unitId e h 32) [] h) else h) h)

/-- The losses that the next delivered entry carries (R134): a LOSS record per core, the quick set, the lifetime histogram under the
region's conditions of now, by the outcomes' codes (R134 names no field: DEDUCED, log 74), and audits skipped. -/
def deliverDrops (e : Env) (r : Nat) (h : Hub) : Hub :=
  let x := region h r
  let h := onRegion r (fun y => { y with dropped := [] }) h
  x.dropped.foldl (fun h p =>
    let h := lossRecord 3 (coreId e h p.core) 32 p.count p.first (nowNs h) h
    let h := flagCore p.core h
    let h := if probing h p.core then h
      else p.codes.foldl (fun h code => histCore p.core (regionBin e h r) (outcomeField code) 1 (nowNs h) h) h
    if p.audits = 0 then h else dropClasses e p.core (auditSkip p.core p.audits h)) h

/-- A late END reaches the hub (R130): a UNIT record of code LATE_END. -/
def lateEndRecord (e : Env) (o : TapOut) (p : BitVec 16 × BitVec 4) (h : Hub) : Hub :=
  let mine := fun (q : BitVec 16 × BitVec 4 × Word) => decide (q.1 = p.1) && decide (q.2.1 = p.2)
  let rs := (((hubc h o.core).timeouts.reverse.find? mine).map (fun q => q.2.2)).getD 0
  emit 15 0 0 (coreId e h o.core) 32 1 ([coreId e h o.core, p.1.setWidth 32, p.2.setWidth 32] ++ w64 o.tb ++ [rs]) h

/-- OUTCOME_QUEUE_TRANSFER (R134, R19): the oldest entry of a region's queue crosses to the hub. -/
def execOutcomeQueueTransfer (r : RegionNo) (s : State) : Host.Outcome State Fault Refusal :=
  s.run (fun e h =>
    match (region h r.toNat).outq with
    | [] => h
    | o :: t => guard (!e.tray && working h && !(region h r.toNat).stopped && !(region h r.toNat).echoWait)
      (fun h =>
        let h := deliverDrops e r.toNat (onRegion r.toNat (fun x => { x with outq := t }) h)
        match o.lateEnd, o.audit, o.tile with
        | some p, _, _ => lateEndRecord e o p h
        | none, some a, some t => auditArrives e o a.1 a.2 t h
        | none, _, _ => laneArrives e o h) h)

/-- Bytes of a tile's operands in memory. -/
def tileBytes (t : Tile) : Nat := (t.k * (t.m * fmtBits t.fmtL.toNat + t.n * fmtBits t.fmtR.toNat) + 7) / 8

/-- AUDIT_START (R141–R143): a free unit takes a request and reads its descriptor. One access stands for the audit's reads at the memory
port (log 50), and uses the audit budget for the descriptor and the operands (R526). -/
def execAuditStart (s : State) : Host.Outcome State Fault Refusal :=
  s.run (fun e h =>
    match auditNext h.res.queue, freeUnit h with
    | some q, some u => guard (!e.tray && serving h && decide (nowNs h < q.until_))
      (fun h =>
        let valid := ((readDesc e h q.core q.slot).map AuditDesc.isValid).getD false
        let q' := { q with valid := valid, again := if valid || !q.ready then none else some (nowNs h + 1000) }
        access e { addr := descAddr h q.core q.slot, write := false, client := .audit u
                   cost := 64 + tileBytes q.tile }
          { h with res := { h.res with queue := h.res.queue.erase q, units := Tab.put h.res.units u q' } }) h
    | _, _ => h)

/-- AUDIT_DESCRIPTOR_REREAD (R141): the second read, 1 µs after VALID was found 0. -/
def execAuditDescriptorReread (unit : BitVec 5) (s : State) : Host.Outcome State Fault Refusal :=
  s.run (fun e h =>
    match Tab.find h.res.units unit.toNat with
    | none => h
    | some q => guard (serving h && q.again.any (fun t => decide (t ≤ nowNs h)))
      (fun h =>
        let valid := ((readDesc e h q.core q.slot).map AuditDesc.isValid).getD false
        { h with res := { h.res with units := Tab.put h.res.units unit.toNat { q with again := none, valid := valid } } }) h)

/-- AUDIT_COMPLETE (R144–R151): every read of the unit's audit has answered. -/
def execAuditComplete (unit : BitVec 5) (s : State) : Host.Outcome State Fault Refusal :=
  s.run (fun e h =>
    match Tab.find h.res.units unit.toNat with
    | none => h
    | some q =>
      match auditTile e h q (hubc h q.core).uacc with
      | none => h
      | some r => guard (serving h && q.again.isNone && !clientBusy h (fun c => c == .audit unit.toNat))
        (fun h => auditEnds e q r (drawn { h with res := { h.res with units := Tab.drop h.res.units unit.toNat } } h.res.elements)) h)

/-- AUDIT_HOLD_EXPIRY (R140, R143): a request or audit beyond the hold limit is abandoned. -/
def execAuditHoldExpiry (core : CoreNo) (tag : BitVec 16) (s : State) : Host.Outcome State Fault Refusal :=
  s.run (fun e h =>
    let mine := fun (q : AuditReq) => decide (q.core = core.toNat) && decide (q.tile.tag = tag) && decide (q.until_ ≤ nowNs h)
    match h.res.queue.find? mine, h.res.units.find? (fun p => mine p.2) with
    | some q, _ => guard (alive h && !e.beaten evAudit q.until_ (nowNs h))
      (fun h => clearValid e q.core q.slot (abandon e q { h with res := { h.res with queue := h.res.queue.erase q } })) h
    | none, some p => guard (alive h && !e.beaten evAudit p.2.until_ (nowNs h))
      (fun h => clearValid e p.2.core p.2.slot (abandon e p.2 { h with res := { h.res with units := Tab.drop h.res.units p.1 } })) h
    | none, none => h)

end Sys2Proof.Machine
end

