-- ==== Sys2Proof/Machine/DmaOps.lean ====
section
/-!
DEFINITION. The memory port's errors, the answers its clients get, the DMA channels' progress and the migration of a range
(R514–R544).
-/
namespace Sys2Proof.Machine

/-- Change the memory port. -/
def onMem (f : MemU → MemU) (h : Hub) : Hub := { h with mem := f h.mem }
/-- Change the DMA engine. -/
def onDma (f : DmaU → DmaU) (h : Hub) : Hub := { h with dma := f h.dma }
/-- A DMA channel. -/
def dmaCh (h : Hub) (c : Nat) : DmaCh := Tab.getD h.dma.ch c {}
/-- Change a DMA channel. -/
def onDmaCh (c : Nat) (f : DmaCh → DmaCh) (h : Hub) : Hub := onDma (fun d => { d with ch := Tab.put d.ch c (f (dmaCh h c)) }) h

/-- The memory port answers: the main domain runs. -/
def memOn (h : Hub) : Bool := portOn h
/-- The DMA engine moves data: not in FLUSH. -/
def dmaRuns (h : Hub) : Bool := alive h

/-! Errors (R518, R519, Table 14.5). -/

/-- Kinds of memory error: read error, write error, timeout. -/
inductive MemErr where
  | read | write | timeout

/-- An error or a change to FAILED is a feature of the attachment's entity (R519). -/
def memFeature (e : Env) (att : Nat) (h : Hub) : Hub :=
  let n := Tab.getD h.mem.errCount att 0 + 1
  featWrite e (ownId e h 7 att) (imgOf h).features.memErr (int32f n) (onMem (fun m => { m with errCount := Tab.put m.errCount att n }) h)

/-- A memory error or timeout of an attachment: counted, recorded, and the 16th within 1 s marks the attachment FAILED (R518, R519). -/
def memError (e : Env) (att : Nat) (k : MemErr) (h : Hub) : Hub :=
  let now := nowNs h
  let l := now :: (Tab.getD h.mem.errTb att []).filter (fun t => decide (now ≤ t + 1000000000))
  let h := onMem (fun m => match k with
    | .read => { m with rerr := m.rerr + 1 }
    | .write => { m with berr := m.berr + 1 }
    | .timeout => { m with timeouts := m.timeouts + 1 }) h
  let code := match k with
    | .read => 0
    | .write => 1
    | .timeout => 2
  let h := emit 9 1 0 (ownId e h 7 att) 6 8 [code] (onMem (fun m => { m with errTb := Tab.put m.errTb att l }) h)
  let h := memFeature e att h
  if l.length ≥ 16 && !h.mem.failed.getLsbD att then
    memFeature e att (emit 9 2 0 (ownId e h 7 att) 6 9 [w32 att] (onMem (fun m => { m with failed := m.failed ||| BitVec.ofNat 32 (2 ^ att), failFresh := m.failFresh ||| BitVec.ofNat 32 (2 ^ att) }) h))
  else h

/-- The first failing offset of a descriptor (Table 14.8). -/
def dmaFail (c off : Nat) (h : Hub) : Hub :=
  onDmaCh c (fun x => { x with fail := some (min off (x.fail.getD off)) }) h

/-- What an error does to the client of an access (Table 14.5). -/
def clientError (e : Env) (w : MemWait) (h : Hub) : Hub :=
  match w.client with
  | .fill x =>
    let ent := BitVec.ofNat 32 x
    if (rowOf h ent).any (fun r => r.st == .filling) then
      let ws := h.ens.waits.filter (fun q => q.pins.contains x)
      let h := emitUnit 70 ent 24 [w32 ws.length] h
      let h := onEns (fun s => { s with refused := s.refused + ws.length }) h
      let h := ws.foldl (fun h q => dropSample e q h) h
      retryRoom e (onEns (fun s => { s with rows := Tab.drop s.rows x }) h)
    else h
  | .writeback x n =>
    if n < 2 then onMem (fun m => { m with waitq := m.waitq ++ [{ w with client := .writeback x (n + 1) }] }) h
    else if (rowOf h (BitVec.ofNat 32 x)).any (fun r => r.st == .evicting) then
      retryRoom e (onEns (fun s => { s with rows := Tab.drop s.rows x, backing := s.backing.filter (fun p => decide (p.1 ≠ x)) })
        (emitUnit 71 (BitVec.ofNat 32 x) 24 [] h))
    else h
  | .audit u =>
    match Tab.find h.res.units u with
    | some q => clearValid e q.core q.slot (abandon e q { h with res := { h.res with units := Tab.drop h.res.units u } })
    | none => h
  | .dmaRead c off => dmaFail c off h
  | .dmaWrite c off => dmaFail c off h
  | .dmaRecord c _ => emitUnit 73 (unitId e h 6) 6 [w32 c] h
  | .dmaFetch c => onDmaCh c (fun x => { x with fetching := false, fetchBad := true }) h
  | .dmaBad c => emitUnit 72 (unitId e h 6) 6 [w32 c] h
  | .migration => onMem (fun m => { m with paused := some (nowNs h + 1000000000) }) h

/-- An access outside every range is charged to the unit DMA when its client is told of it (R521). -/
def chargeDecode (e : Env) (w : MemWait) (h : Hub) : Hub :=
  if (findRange h.mem.ranges 0 w.addr).isNone then chargeEnt e (unitId e h 6) h else h

/-- Try the accesses that wait again, in the order of R526, and tell the clients of those that failed at once. -/
def memPump (e : Env) (h : Hub) : Hub :=
  let h := pumpPort e h.mem.waitq.length h
  h.mem.errq.foldl (fun h w => clientError e w (chargeDecode e w h)) (onMem (fun m => { m with errq := [] }) h)

/-! Descriptors, records and channels (R533–R544). -/

/-- A descriptor as it is read (Table 14.6). A set reserved field or BAD, and an address or length out of line, is ALIGN (R535). -/
def descOf (b : List Byte) : Desc :=
  let src := leAt b 0 8
  let dst := leAt b 8 8
  let len := leAt b 16 4
  let f := leAt b 20 4
  { src := BitVec.ofNat 64 src, dst := BitVec.ofNat 64 dst, len := len, tag := BitVec.ofNat 16 (bitsOf f 31 16)
    chain := bitOf f 2, irq := bitOf f 1, barrier := bitOf f 0, user := BitVec.ofNat 64 (leAt b 24 8)
    align := decide (bitsOf f 15 3 ≠ 0) || decide (len % 64 ≠ 0) || (decide (len ≠ 0) && (decide (src % 64 ≠ 0) || decide (dst % 64 ≠ 0))) }

/-- Ring entries of a channel: none while RSIZE is 0. -/
def ringSize (x : DmaCh) : Nat := if x.rsize = 0 then 0 else 2 ^ x.rsize
/-- Records that a completion queue holds. -/
def cqSize (x : DmaCh) : Nat := if x.cqsize = 0 then 0 else 2 ^ x.cqsize
/-- Ready descriptors (R533). -/
def readyDescs (x : DmaCh) : Nat := ahead 17 x.tail x.head
/-- The completion queue has room for a record (R544). -/
def cqRoom (x : DmaCh) : Bool := decide (ahead 17 x.cqtail x.cqhead < cqSize x)
/-- Address of the descriptor at HEAD. -/
def descAt (x : DmaCh) : Nat := x.ring.toNat + 32 * (x.head % 2 ^ x.rsize)

/-- The bytes of a completion record (Table 14.9). -/
def recordOf (x : DmaCh) (tb : Nat) (user : DWord) (bytes : Nat) (tag : BitVec 16) (status : Nat) (fetch : Bool) : List Byte :=
  let phase := b2n (decide (x.cqtail / 2 ^ x.cqsize % 2 = 0))
  leBytes 8 tb ++ leBytes 8 user.toNat ++ leBytes 4 bytes ++
    leBytes 4 (tag.toNat * 2 ^ 16 + status * 2 ^ 8 + b2n fetch * 2 ^ 7 + phase) ++ leBytes 4 x.head ++ leBytes 4 0

/-- Write a completion record at CQTAIL and advance CQTAIL (R544). The caller has seen room for it. -/
def putRecord (e : Env) (c : Nat) (user : DWord) (bytes : Nat) (tag : BitVec 16) (status : Nat) (fetch irq : Bool) (h : Hub) : Hub :=
  let x := dmaCh h c
  access e { addr := x.cq.toNat + 32 * (x.cqtail % 2 ^ x.cqsize), write := true, client := .dmaRecord c irq
             data := recordOf x (nowNs h) user bytes tag status fetch }
    (onDmaCh c (fun x => { x with cqtail := (x.cqtail + 1) % 2 ^ 17, last := BitVec.ofNat 4 status }) h)

/-- The channel's descriptor is in progress: being read, read, or its read has failed. -/
def dmaBusy (x : DmaCh) : Bool := x.fetching || x.fetchBad || x.cur.isSome

/-- A stop that is due takes effect at a descriptor boundary with one STOPPED record (R541). A channel without a queue has nowhere to write one. -/
def settleStop (e : Env) (c : Nat) (h : Hub) : Hub :=
  let x := dmaCh h c
  if !x.stopReq || dmaBusy x || !dmaRuns h then h
  else if x.cqsize = 0 then onDmaCh c (fun x => { x with stopReq := false, state := 2 }) h
  else if cqRoom x then onDmaCh c (fun x => { x with stopReq := false, state := 2 }) (putRecord e c 0 0 0 4 false false h)
  else onDmaCh c (fun x => { x with state := 4 }) h

/-- Begin the descriptor at HEAD where the channel may: it is read once (R534, R536, R537, R544). -/
def kick (e : Env) (c : Nat) (h : Hub) : Hub :=
  let x := dmaCh h c
  if !dmaRuns h || !x.enable || x.stopReq || x.state = 2 || x.state = 3 || dmaBusy x then h
  else if readyDescs x = 0 || (x.reqen && !x.burst) then onDmaCh c (fun x => { x with state := if x.burst then 1 else 0 }) h
  else if !cqRoom x then onDmaCh c (fun x => { x with state := 4 }) h
  else access e { addr := descAt x, write := false, client := .dmaFetch c } (onDmaCh c (fun x => { x with fetching := true, state := 1 }) h)

/-- A channel has a line to issue. -/
def wantsLine (x : DmaCh) : Bool :=
  match x.cur with
  | some d => !d.align && x.fail.isNone && decide (x.issued < d.len)
  | none => false

/-- The channel whose line is issued next (R538): the one that is within 4 KiB, else the lowest PRIO, in turn within a priority. -/
def nextTurn (h : Hub) : Option Nat :=
  let l := h.dma.ch.filter (fun p => wantsLine p.2)
  match h.dma.turn.bind (fun t => l.find? (fun p => decide (p.1 = t) && decide (p.2.issued % 4096 ≠ 0))) with
  | some p => some p.1
  | none =>
    let key := fun (p : Nat × DmaCh) => p.2.prio.toNat * 64 + (p.1 + 127 - h.dma.lastTurn) % 64
    (l.foldl (fun a p => match a with
      | none => some p
      | some q => if key p < key q then some p else some q) none).map Prod.fst

/-- Issue line reads in turn, up to `n`, until one must wait. -/
def issueLines (e : Env) : Nat → Hub → Hub
  | 0, h => h
  | n + 1, h =>
    match nextTurn h with
    | none => h
    | some c =>
      let x := dmaCh h c
      match x.cur with
      | none => h
      | some d =>
        let h := onDma (fun u => { u with turn := some c, lastTurn := c }) h
        match issueReq h.mem.waitq { addr := d.src.toNat + x.issued, write := false, client := .dmaRead c x.issued } h with
        | .issued h => issueLines e n (onDmaCh c (fun x => { x with issued := x.issued + 64 }) h)
        | .wait => h
        | .failed => issueLines e n (dmaFail c x.issued h)
        | .decode => issueLines e n (dmaFail c x.issued (chargeEnt e (unitId e h 6) (decodeError e h)))

/-- The engine goes on as far as it can: what waits, stops, descriptors, lines. -/
def dmaPump (e : Env) (h : Hub) : Hub :=
  let h := memPump e h
  if !dmaRuns h then h
  else
    let h := h.dma.ch.foldl (fun h p => kick e p.1 (settleStop e p.1 h)) h
    issueLines e 64 h

/-- A descriptor has been read: it becomes the channel's own. An internal address fails on a host channel (R535); on a block-owned one it names
the producer's buffer, whose bytes the producer's own command has moved (DESIGN CHOICE, log 50), and no line is left to issue. -/
def takeDesc (c : Nat) (b : List Byte) (h : Hub) : Hub :=
  let d := descOf b
  let internal := decide (d.len ≠ 0) && !d.align && (d.src.getLsbD 63 || d.dst.getLsbD 63)
  let host := decide ((imgOf h).blockCh ≤ c)
  onDmaCh c (fun x => { x with
    fetching := false, cur := some d, issued := if internal && !host then d.len else 0, fail := if internal && host then some 0 else none }) h

/-- The data of a line read (R514). -/
def lineBytes (e : Env) (att line : Nat) : List Byte := (List.range 64).map (fun i => e.mem.get Mem.ramByte (att * 2 ^ 40 + line * 64 + i))

/-- A line read has answered its client. -/
def readDone (e : Env) (att : Nat) (q : MemReq) (h : Hub) : Hub :=
  let b := lineBytes e att q.line
  match q.client with
  | .dmaFetch c => takeDesc c (b.drop (q.addr % 64)) h
  | .dmaRead c off =>
    match (dmaCh h c).cur with
    | some d => access e { addr := d.dst.toNat + off, write := true, client := .dmaWrite c off, data := b } h
    | none => h
  | _ => h

/-- Post the bytes of an acknowledged write behind an attachment. A row's bytes land with its write-back, a group's with its
migration. -/
def landWrite (att : Nat) (q : MemReq) (h : Hub) : Hub :=
  match q.client with
  | .writeback _ _ => h
  | _ => { h with posted := h.posted ++ (q.data.zipIdx).map (fun b => (att * 2 ^ 40 + q.line * 64 + q.addr % 64 + b.2, b.1)) }

/-- The key of an outstanding request. -/
def reqAt (att : BitVec 5) (tag : Byte) : Nat := att.toNat * 256 + tag.toNat

/-- The access of a request, for its client's error. -/
def waitOf (q : MemReq) : MemWait := { addr := q.addr, write := q.write, client := q.client, data := q.data }

/-- All the lines of a channel's descriptor have answered, or its first failure has. -/
def linesDone (h : Hub) (c : Nat) (x : DmaCh) : Bool :=
  !wantsLine x && !clientBusy h (fun k => match k with
    | .dmaRead d _ => decide (d = c)
    | .dmaWrite d _ => decide (d = c)
    | _ => false)

/-- A descriptor completes (R538, R539, Table 14.8). Every write of it has been acknowledged, so a barrier is met. -/
def completeDesc (e : Env) (c : Nat) (d : Desc) (h : Hub) : Hub :=
  let x := dmaCh h c
  let st := if d.align then 3 else if d.len = 0 then 1 else if x.fail.isSome then 2 else 0
  let bytes := if st = 0 then d.len else if st = 2 then x.fail.getD 0 else 0
  let h := if st = 2 then
      access e { addr := descAt x + 20, write := true, client := .dmaBad c
                 data := [BitVec.ofNat 8 (0x80 + b2n d.chain * 4 + b2n d.irq * 2 + b2n d.barrier)] } h
    else h
  let h := putRecord e c d.user bytes d.tag st false d.irq h
  let h := onDma (fun u => { u with align := u.align + b2n (decide (st = 3)), buserr := u.buserr + b2n (decide (st = 2)) }) h
  let fin := x.burst && !d.chain && decide (st ≠ 3)
  onDmaCh c (fun x => { x with
    head := if st = 3 then x.head else (x.head + 1) % 2 ^ 17, cur := none, fail := none, issued := 0
    descs := x.descs + 1, moved := x.moved + bytes, burst := x.burst && d.chain && decide (st ≠ 3)
    pend := x.pend - b2n fin, state := if st = 3 then 3 else 1 }) h

/-! Migration (R530–R532). -/

/-- Masks of a BLOCK range, drawn from the DRBG (R525, Table 14.3): `n` further blocks of it from block `i` on. -/
def drawMasks (k i : Nat) : List (BitVec 58) :=
  (List.range k).map (fun b => BitVec.ofNat 58 ((Config.drbg (i + b)).toNat / 2 ^ k % 2 ^ (58 - k) * 2 ^ k + 2 ^ b))

/-- A mapped range. -/
def mapRange (h : Hub) (r : Nat) : Option MapRange := h.mem.ranges[r]?
/-- Change a mapped range. -/
def onRange (r : Nat) (f : MapRange → MapRange) (h : Hub) : Hub :=
  match mapRange h r with
  | some m => onMem (fun u => { u with ranges := setAt u.ranges r (f m) }) h
  | none => h

/-- Begin the group at the pointer: one access stands for its reads and writes at the memory port (log 50), and uses the migration's budget for
all of them (R526, R530). -/
def beginGroup (e : Env) (r : Nat) (h : Hub) : Hub :=
  match mapRange h r with
  | none => h
  | some m => access e { addr := m.r.base + m.pointer * m.r.n * 64, write := false, client := .migration, cost := 128 * m.r.n }
      (onMem (fun u => { u with group := true }) h)

/-- The bytes of a group moved from their places under the old masks to those under the new (R530). -/
def moveGroup (e : Env) (m : MapRange) (o : List (BitVec 58)) (h : Hub) : Hub :=
  let x0 := m.pointer * m.r.n
  { h with posted := h.posted ++ (List.range m.r.n).flatMap (fun i =>
      let s := place { m with old := none, r := { m.r with masks := o } } (x0 + i)
      let d := place { m with old := none } (x0 + i)
      ((lineBytes e s.1 s.2).zipIdx).map (fun b => (d.1 * 2 ^ 40 + d.2 * 64 + b.2, b.1))) }

/-- A request of range `i` waits at its attachment `c` or is outstanding there (R527). -/
def rangeWaits (h : Hub) (i : Nat) (m : MapRange) (c : Nat) : Bool :=
  h.mem.out.any (fun p => decide (p.1 / 256 = m.r.c0 + c) && decide (p.2.range = i)) ||
    h.mem.waitq.any (fun w => match findRange h.mem.ranges 0 w.addr with
      | some (k, n, x) => decide (k = i) && decide ((place n x).1 = m.r.c0 + c)
      | none => false)

/-- One CK_CORE cycle of the busy counts (R527). -/
def countBusy (h : Hub) : Hub :=
  if h.mem.out.isEmpty && h.mem.waitq.isEmpty then h
  else onMem (fun u => { u with ranges := (u.ranges.zipIdx).map (fun p => { p.1 with
    busy := (List.range p.1.r.n).map (fun c => getAt p.1.busy c 0 + b2n (rangeWaits h p.2 p.1 c)) }) }) h

/-- Groups of a range. -/
def groupsOf (m : MapRange) : Nat := m.r.size / 64 / m.r.n

/-- An access to a line of the group at the pointer, issued before its migration, is still outstanding (R517). -/
def groupBusy (h : Hub) (r : Nat) (m : MapRange) : Bool :=
  h.mem.out.any (fun p => decide (p.2.range = r) && decide (p.2.line = m.r.localBase / 64 + m.pointer) && p.2.client != .migration)

/-- A migration goes on after FLUSH (R532): it begins the group at the pointer. -/
def migResume (e : Env) (h : Hub) : Hub :=
  match h.mem.migrating with
  | some r => if h.mem.group || h.mem.paused.isSome then h else beginGroup e r h
  | none => h

end Sys2Proof.Machine
end

