-- ==== Sys2Proof/Machine/DmaCmds.lean ====
section
/-!
DEFINITION. The events of the memory port and the commands and events of the DMA engine (R514–R546).
-/
namespace Sys2Proof.Machine

/-- A direct write reaches a register of a DMA channel (R545, R613): one of a block-owned channel is read-only. -/
def dmaWrite (ch : BitVec 6) (off : Nat) (v : DWord) (f : Env → Hub → Hub) (e : Env) (h : Hub) : Hub :=
  if !portOn h then h
  else
    let h := { h with regs := { h.regs with half := none } }
    if ch.toNat < (imgOf h).blockCh then refusedWrite 6 (0x1000 + 0x40 * ch.toNat + off) v h else portField 6 (0x1000 + 0x40 * ch.toNat + off) v (f e) h

/-- Stop a channel (R541): one that has stopped or halted already does nothing until RESUME. -/
def dmaStop (e : Env) (c : Nat) (h : Hub) : Hub :=
  let x := dmaCh h c
  if x.state = 2 || x.state = 3 then h else dmaPump e (onDmaCh c (fun x => { x with stopReq := true }) h)

/-- DMA_CH_STOP (R541, R543). -/
def execDmaChStop (ch : BitVec 6) (s : State) : Host.Outcome State Fault Refusal :=
  s.run (dmaWrite ch 0 4 (fun e h => dmaStop e ch.toNat h))

/-- Resume a channel (R542): ignored where it is neither STOPPED nor HALTED. -/
def dmaResume (e : Env) (c : Nat) (h : Hub) : Hub :=
  let x := dmaCh h c
  if x.state = 2 || x.state = 3 then dmaPump e (onDmaCh c (fun x => { x with state := 0 }) h) else h

/-- DMA_CH_RESUME (R542). -/
def execDmaChResume (ch : BitVec 6) (s : State) : Host.Outcome State Fault Refusal :=
  s.run (dmaWrite ch 0 8 (fun e h => dmaResume e ch.toNat h))

/-- DMA_CH_REQ (R536). -/
def execDmaChReq (ch : BitVec 6) (s : State) : Host.Outcome State Fault Refusal :=
  s.run (dmaWrite ch 0 2 (fun _ h => dmaRequest ch.toNat h))

/-- A write of ENABLE (R543, Table 14.10): refused while a size is 0; a 0 acts as a stop of an enabled channel. -/
def dmaEnable (e : Env) (c : Nat) (en : Bool) (h : Hub) : Hub :=
  let x := dmaCh h c
  if en then
    if x.rsize = 0 ∨ x.cqsize = 0 then refusedWrite 6 (0x1000 + 0x40 * c) 1 h
    else dmaPump e (onDmaCh c (fun x => { x with enable := true }) h)
  else if x.enable then dmaStop e c (onDmaCh c (fun x => { x with enable := false }) h)
  else h

/-- DMA_CH_ENABLE (R543). -/
def execDmaChEnable (ch : BitVec 6) (en : Bool) (s : State) : Host.Outcome State Fault Refusal :=
  s.run (dmaWrite ch 0 (BitVec.ofNat 64 (b2n en)) (fun e h => dmaEnable e ch.toNat en h))

/-- A write of TAIL (R533): ignored where it would give more ready descriptors than the ring holds. -/
def dmaTail (e : Env) (c : Nat) (tail : BitVec 17) (h : Hub) : Hub :=
  let x := dmaCh h c
  if ahead 17 tail.toNat x.head > ringSize x then refusedWrite 6 (0x1000 + 0x40 * c + 0x18) (tail.setWidth 64 <<< 32) h
  else dmaPump e (onDmaCh c (fun x => { x with tail := tail.toNat }) h)

/-- DMA_CH_TAIL_WRITE (R533, R541). -/
def execDmaChTailWrite (ch : BitVec 6) (tail : BitVec 17) (s : State) : Host.Outcome State Fault Refusal :=
  s.run (dmaWrite ch 0x18 (tail.setWidth 64 <<< 32) (fun e h => dmaTail e ch.toNat tail h))

/-- A write of CQHEAD: a channel that waited for room in its queue goes on (R544). -/
def dmaCqhead (e : Env) (c : Nat) (head : BitVec 17) (h : Hub) : Hub :=
  let h := onDmaCh c (fun x => { x with cqhead := head.toNat }) h
  let h := onDmaCh c (fun x => { x with state := if x.state = 4 && cqRoom x then (if dmaBusy x then 1 else 0) else x.state }) h
  dmaPump e h

/-- DMA_CH_CQHEAD_WRITE (R544). -/
def execDmaChCqheadWrite (ch : BitVec 6) (head : BitVec 17) (s : State) : Host.Outcome State Fault Refusal :=
  s.run (dmaWrite ch 0x28 (head.setWidth 64 <<< 32) (fun e h => dmaCqhead e ch.toNat head h))

/-- A direct write: it ends the half hold (R609). -/
def direct (f : Env → Hub → Hub) (e : Env) (h : Hub) : Hub :=
  if !portOn h then h else f e { h with regs := { h.regs with half := none } }

/-- A direct write of one register (R609, R613). -/
def directReg (unit off : Nat) (v : DWord) (f : Env → Hub → Hub) : Env → Hub → Hub := direct (fun e => portField unit off v (f e))

/-- Attachments return to service (R518): their errors so far count no more. -/
def failedClear (mask : BitVec 32) (h : Hub) : Hub :=
  onMem (fun m => { m with
    failed := w1cSet m.failed m.failFresh mask
    errTb := m.errTb.filter (fun p => !(mask.getLsbD p.1 && m.failed.getLsbD p.1 && !m.failFresh.getLsbD p.1)) }) h

/-- DMA_MEM_FAILED_CLEAR (R518). -/
def execDmaMemFailedClear (mask : BitVec 32) (s : State) : Host.Outcome State Fault Refusal :=
  s.run (directReg 6 0x108 (mask.setWidth 64) (fun e h => dmaPump e (failedClear mask h)))

/-- DMA_IRQSTAT_CLEAR (R8, R540). -/
def execDmaIrqstatClear (mask : BitVec 64) (s : State) : Host.Outcome State Fault Refusal :=
  s.run (directReg 6 8 mask (fun _ h => onDma (fun d => { d with irqstat := w1cSet d.irqstat d.irqFresh mask }) h))

/-- DMA_BURST_START (R536, R542). -/
def execDmaBurstStart (ch : BitVec 6) (s : State) : Host.Outcome State Fault Refusal :=
  s.run (fun e h =>
    let x := dmaCh h ch.toNat
    guard (dmaRuns h && x.enable && x.reqen && !x.burst && decide (x.pend > 0) && decide (readyDescs x > 0) && !x.stopReq &&
        x.state != 2 && x.state != 3 && !dmaBusy x)
      (fun h => dmaPump e (onDmaCh ch.toNat (fun x => { x with burst := true }) h)) h)

/-- DMA_DESCRIPTOR_COMPLETE (R538, R539, R544): its record waits for room in the completion queue. -/
def execDmaDescriptorComplete (ch : BitVec 6) (s : State) : Host.Outcome State Fault Refusal :=
  s.run (fun e h =>
    let x := dmaCh h ch.toNat
    match x.cur with
    | none => h
    | some d => guard (dmaRuns h && linesDone h ch.toNat x) (fun h =>
        if cqRoom x then dmaPump e (completeDesc e ch.toNat d h) else onDmaCh ch.toNat (fun x => { x with state := 4 }) h) h)

/-- DMA_DESCRIPTOR_FETCH_FAIL (Table 14.8): a record with FETCH, and the channel HALTED at the index. -/
def execDmaDescriptorFetchFail (ch : BitVec 6) (s : State) : Host.Outcome State Fault Refusal :=
  s.run (fun e h =>
    let x := dmaCh h ch.toNat
    guard (dmaRuns h && x.fetchBad) (fun h =>
      if cqRoom x then
        let h := putRecord e ch.toNat 0 0 0 2 true false h
        let h := onDma (fun u => { u with fetch := u.fetch + 1, buserr := u.buserr + 1 }) h
        dmaPump e (onDmaCh ch.toNat (fun x => { x with fetchBad := false, burst := false, state := 3 }) h)
      else onDmaCh ch.toNat (fun x => { x with state := 4 }) h) h)

/-- Forget an outstanding request. -/
def dropReq (k : Nat) (h : Hub) : Hub := onMem (fun m => { m with out := Tab.drop m.out k }) h

/-- MEMORY_READ_RESPONSE (R514, R515, R518): an answer that comes after its timeout only frees the tag. -/
def execMemoryReadResponse (att : BitVec 5) (tag : Byte) (err : Bool) (s : State) : Host.Outcome State Fault Refusal :=
  s.run (fun e h =>
    match Tab.find h.mem.out (reqAt att tag) with
    | none => h
    | some q => guard (memOn h && !q.write) (fun h =>
        let h := dropReq (reqAt att tag) h
        let h :=
          if q.timedOut then h
          else if err then clientError e (waitOf q) (memError e att.toNat .read h)
          else readDone e att.toNat q h
        dmaPump e h) h)

/-- MEMORY_WRITE_ACK (R516, R518, R540): the line is visible to every later read. -/
def execMemoryWriteAck (att : BitVec 5) (tag : Byte) (err : Bool) (s : State) : Host.Outcome State Fault Refusal :=
  s.run (fun e h =>
    match Tab.find h.mem.out (reqAt att tag) with
    | none => h
    | some q => guard (memOn h && q.write) (fun h =>
        let h := dropReq (reqAt att tag) h
        let h :=
          if err then (if q.timedOut then h else clientError e (waitOf q) (memError e att.toNat .write h))
          else
            let h := landWrite att.toNat q h
            match q.client, q.timedOut with
            | .dmaRecord c true, false => onDma (fun d => { d with
                irqstat := d.irqstat ||| BitVec.ofNat 64 (2 ^ c), irqFresh := d.irqFresh ||| BitVec.ofNat 64 (2 ^ c) }) h
            | _, _ => h
        dmaPump e h) h)

/-- MEMORY_TIMEOUT (R518, R519): the request completes as an error; its tag stays in use. -/
def execMemoryTimeout (att : BitVec 5) (tag : Byte) (s : State) : Host.Outcome State Fault Refusal :=
  s.run (fun e h =>
    match Tab.find h.mem.out (reqAt att tag) with
    | none => h
    | some q => guard (memOn h && !q.timedOut && decide (q.deadline ≤ nowNs h) && !e.beaten (evMemory att tag) q.deadline (nowNs h)) (fun h =>
        let h := onMem (fun m => { m with out := Tab.put m.out (reqAt att tag) { q with timedOut := true } }) h
        dmaPump e (clientError e (waitOf q) (memError e att.toNat .timeout h))) h)

/-- REKEY_SAFE_POINT (R530): a defeated BLOCK range draws new masks and begins to migrate at a window boundary in SERVING. -/
def execRekeySafePoint (range : BitVec 3) (s : State) : Host.Outcome State Fault Refusal :=
  s.run (fun e h =>
    match mapRange h range.toNat with
    | none => h
    | some m =>
      match m.wanted with
      | none => h
      | some act => guard (serving h && decide (h.casc.windowTb = nowNs h) && h.mem.migrating.isNone && m.r.block) (fun h =>
          let k := log2N m.r.n
          let h := onRange range.toNat (fun m => { m with
            old := some m.r.masks, r := { m.r with masks := drawMasks k h.free }, pointer := 0, migStart := nowNs h
            wanted := none, act := act }) h
          beginGroup e range.toNat (drawn (onMem (fun u => { u with migrating := some range.toNat }) h) k)) h)

/-- MIGRATION_GROUP_DONE (R530–R532): the pointer advances; after the last group the old masks are discarded and the re-key is
recorded with its duration. -/
def execMigrationGroupDone (s : State) : Host.Outcome State Fault Refusal :=
  s.run (fun e h =>
    match h.mem.migrating with
    | none => h
    | some r =>
      match mapRange h r with
      | none => h
      | some m =>
        match m.old with
        | none => h
        | some o => guard (memOn h && h.mem.group && h.mem.paused.isNone && !clientBusy h (fun c => c == .migration) &&
              !groupBusy h r m) (fun h =>
            let h := onMem (fun u => { u with group := false }) (moveGroup e m o h)
            let h := onRange r (fun m => { m with pointer := m.pointer + 1 }) h
            if m.pointer + 1 ≥ groupsOf m then
              let h := onRange r (fun m => { m with old := none, pointer := 0, busy := [], lastRekey := some (nowNs h), since := none }) h
              let h := onMem (fun u => { u with migrating := none, rekeys := u.rekeys + 1 }) h
              let h := emit 15 0 0 (unitId e h 6) 6 3 (w32 r :: w64 (nowNs h - m.migStart)) h
              dmaPump e (actDone (unitId e h 6) m.act 0 h)
            else dmaPump e (if alive h then beginGroup e r h else h)) h)

/-- MIGRATION_RETRY (Table 14.5): after 1 s a paused migration tries its group again. -/
def execMigrationRetry (s : State) : Host.Outcome State Fault Refusal :=
  s.run (fun e h =>
    match h.mem.migrating, h.mem.paused with
    | some r, some t => guard (alive h && decide (t ≤ nowNs h)) (fun h => beginGroup e r (onMem (fun u => { u with paused := none }) h)) h
    | _, _ => h)

end Sys2Proof.Machine
end

