-- ==== Sys2Proof/Machine/JobCmds.lean ====
section
/-!
DEFINITION. Job membership: the JOB_MEMBERS operations, and the changes that take effect at a window's end (R408–R410).
-/
namespace Sys2Proof.Machine

/-- The entities of a die, a job or a replica that leave a job keep no drift baseline, and a new one waits for its own scorings (R301). -/
def forgetBase (j : BitVec 16) (dies reps : List Nat) (h : Hub) : Hub :=
  let hit := fun (x : Nat) =>
    let w : Word := BitVec.ofNat 32 x
    (entDie w).any (fun d => dies.contains d) || (decide (kindOf w = 9) && decide (bitsOf x 23 8 = j.toNat) && (dies.isEmpty || reps.contains (x % 256))) ||
      (decide (kindOf w = 10) && decide (bitsOf x 15 0 = j.toNat) && dies.isEmpty)
  onCasc (fun c => { c with
    detect := c.detect.map (fun p => if hit (p.1 % 2 ^ 32) then (p.1, { p.2 with base := none }) else p)
    ents := c.ents.map (fun p => if hit p.1 then (p.1, { p.2 with clearRun := 0 }) else p) }) h

/-- Put or drop a job. -/
def putJob (j : BitVec 16) (x : Option Job) (t : Tab Job) : Tab Job :=
  match x with
  | some y => Tab.put t j.toNat y
  | none => Tab.drop t j.toNat

/-- Dies added to a list, each replacing its earlier entry. -/
def addDies (old new : List JobDie) : List JobDie := old.filter (fun d => !new.any (fun x => decide (x.die = d.die))) ++ new

/-- What a change makes of the jobs (R408, R410). -/
def changeJobs (j : BitVec 16) (c : JobChange) (t : Tab Job) : Tab Job :=
  match c with
  | .set x => putJob j (if x.dies.isEmpty then none else some x) t
  | .add l => match Tab.find t j.toNat with
    | some x => Tab.put t j.toNat { x with dies := addDies x.dies l }
    | none => t
  | .remove l => match Tab.find t j.toNat with
    | some x => Tab.put t j.toNat { x with dies := x.dies.filter (fun d => !l.contains d.die) }
    | none => t

/-- The dies whose place changes between two states of a job's list. -/
def movedDies (old new : List JobDie) : List Nat :=
  (old.filter (fun d => !new.any (fun x => decide (x.die = d.die)))).map JobDie.die ++
    (new.filter (fun d => !old.any (fun x => decide (x.die = d.die)))).map JobDie.die

/-- Replica numbers that a job lists in one of two states of its list only. -/
def movedReps (old new : List JobDie) : List Nat :=
  let only := fun (a b : List JobDie) => (a.filter (fun d => !b.any (fun x => decide (x.rep = d.rep)))).map (fun d => d.rep.toNat)
  only old new ++ only new old

/-- A change takes effect (R409): the membership, the baselines of what left or joined, and the end of a job (R410). -/
def applyChange (j : BitVec 16) (c : JobChange) (h : Hub) : Hub :=
  let old := jobDies h j
  let t := changeJobs j c h.jobs.table
  let ended := (jobAt h j).isSome && (Tab.find t j.toNat).isNone
  let h := { h with jobs := { h.jobs with table := t } }
  let moved := movedDies old (jobDies h j)
  let h := if moved.isEmpty then h else forgetBase j moved (movedReps old (jobDies h j)) h
  if ended then
    onEns (fun s => { s with releasing := s.releasing ++ [j] })
      (onCasc (fun c => { c with shadows := c.shadows.filter (fun s => decide (s.job ≠ j)) }) (forgetBase j [] [] h))
  else h

/-- The changes whose window has ended take effect, in the order of their windows (R409). -/
def applyMembership (h : Hub) : Hub :=
  let due := h.jobs.waiting.filter (fun p => windowEnded h (BitVec.ofNat 32 p.1))
  let h := { h with jobs := { h.jobs with waiting := h.jobs.waiting.filter (fun p => !windowEnded h (BitVec.ofNat 32 p.1)) } }
  due.foldl (fun h p => applyChange p.2.1 p.2.2 h) h

/-- The jobs as they will be once every change that waits has taken effect. -/
def projected (h : Hub) : Tab Job := h.jobs.waiting.foldl (fun t p => changeJobs p.2.1 p.2.2 t) h.jobs.table

/-- Put a change behind those of its window and the windows before it (R409). -/
def queueChange (base w : Nat) (j : BitVec 16) (c : JobChange) : List (Nat × BitVec 16 × JobChange) → List (Nat × BitVec 16 × JobChange)
  | [] => [(w, j, c)]
  | p :: t => if ahead 32 p.1 base ≤ ahead 32 w base then p :: queueChange base w j c t else (w, j, c) :: p :: t

/-- Accept a change for a window: the one named, or the window in progress. -/
def acceptChange (c : Ctx) (window : Option Word) (ch : JobChange) (h : Hub) : Ans :=
  match window with
  | some w => if windowEnded h w then refuse stWrongState h
    else ok [] { h with jobs := { h.jobs with waiting := queueChange (h.casc.window % 2 ^ 32) w.toNat (BitVec.ofNat 16 (c.n 2)) ch h.jobs.waiting } }
  | none => ok [] { h with jobs := { h.jobs with
      waiting := queueChange (h.casc.window % 2 ^ 32) (h.casc.window % 2 ^ 32) (BitVec.ofNat 16 (c.n 2)) ch h.jobs.waiting } }

/-- A die entry (Table 12.13). -/
def dieEntry (w : Word) : JobDie :=
  { die := bitsOf w.toNat 16 0, rep := BitVec.ofNat 8 (bitsOf w.toNat 24 17), shadow := bitOf w.toNat 25 }

/-- The `d` die entries from word `n` on with their word numbers. -/
def dieEntries (c : Ctx) (n d : Nat) : List (Nat × Word) := (List.range d).map (fun i => (n + i, c.w (n + i)))

/-- The word of the first die entry that is out of form, out of the fleet, listed twice, or (unless it is to be removed) listed in another
job (R408). -/
def badDie (h : Hub) (j : Nat) (away : Bool) (l : List (Nat × Word)) : Option Nat :=
  let t := projected h
  (l.find? (fun p =>
    let x := dieEntry p.2
    decide (bitsOf p.2.toNat 31 26 ≠ 0) || decide (x.die ≥ (imgOf h).fleetDies) ||
      l.any (fun q => decide (q.1 < p.1) && decide ((dieEntry q.2).die = x.die)) ||
      (!away && t.any (fun q => decide (q.1 ≠ j) && q.2.dies.any (fun y => decide (y.die = x.die)))))).map Prod.fst

/-- Words of the combiner count, and the word of the die count, of a SET. -/
def setC (c : Ctx) : Nat := c.n 5
/-- The word of a SET's die count. -/
def setDw (c : Ctx) : Nat := 6 + setC c
/-- A SET's die count. -/
def setD (c : Ctx) : Nat := c.n (setDw c)
/-- The combiners of a SET. -/
def setCombs (c : Ctx) : List Nat := ((c.from_ 6).take (setC c)).map BitVec.toNat

/-- The window that a command names as its last word, if it has `n` words before it. -/
def lastWindow (c : Ctx) (n : Nat) : Option Word := if c.words.length = n then none else some (c.w (n + 1))

/-- Two trays of a list share an aligned block of 32. -/
def sharedBlock (l : List Nat) : Bool := !decide ((l.map (· / 32)).Nodup)

/-- JOB_MEMBERS SET -/
def opJobSet : OpDef := {
  code := 0xB2, changes := true, may := fleetDom
  form := fun c => decide (c.words.length = setDw c + setD c) || decide (c.words.length = setDw c + setD c + 1)
  range := fun _ h c => (firstBad [(2, decide (c.n 2 < 65536)),
      (3, decide (c.n 3 ≠ 0) && decide (c.n 3 < 1024) && !(projected h).any (fun q => decide (q.1 ≠ c.n 2) && decide (q.2.group.toNat = c.n 3))),
      (4, decide (c.n 4 < (imgOf h).trays)), (6, (setCombs c).all (fun t => decide (t < (imgOf h).trays)) && !sharedBlock (setCombs c))]).or
    (badDie h (c.n 2) false (dieEntries c (setDw c + 1) (setD c)))
  act := fun _ h c =>
    acceptChange c (lastWindow c (setDw c + setD c)) (.set {
      group := BitVec.ofNat 16 (c.n 3), root := c.n 4, combiners := setCombs c
      dies := (dieEntries c (setDw c + 1) (setD c)).map (fun p => dieEntry p.2) }) h }

/-- JOB_MEMBERS SET (R408–R410). -/
def execJobMembersSet (c : Cmd) (s : State) : Host.Outcome State Fault Refusal := s.runOp opJobSet (withOp 0 c)

/-- The common part of ADD and REMOVE. -/
def opJobList (away : Bool) : OpDef := {
  code := 0xB2, changes := true, may := fleetDom
  form := fun c => decide (c.words.length = 3 + c.n 3) || decide (c.words.length = 4 + c.n 3)
  range := fun _ h c => (if c.n 2 < 65536 then none else some 2).or (badDie h (c.n 2) away (dieEntries c 4 (c.n 3)))
  act := fun _ h c =>
    let l := dieEntries c 4 (c.n 3)
    match Tab.find (projected h) (c.n 2) with
    | none => refuse stNotFound h 2
    | some x =>
      if away then
        match l.find? (fun p => !x.dies.any (fun y => decide (y.die = (dieEntry p.2).die))) with
        | some p => refuse stNotFound h p.1
        | none => acceptChange c (lastWindow c (3 + c.n 3)) (.remove (l.map (fun p => (dieEntry p.2).die))) h
      else acceptChange c (lastWindow c (3 + c.n 3)) (.add (l.map (fun p => dieEntry p.2))) h }

/-- JOB_MEMBERS ADD (R408, R409). -/
def execJobMembersAdd (c : Cmd) (s : State) : Host.Outcome State Fault Refusal := s.runOp (opJobList false) (withOp 1 c)

/-- JOB_MEMBERS REMOVE (R408, R409). -/
def execJobMembersRemove (c : Cmd) (s : State) : Host.Outcome State Fault Refusal := s.runOp (opJobList true) (withOp 2 c)

/-- The words of a die entry. -/
def dieWord (d : JobDie) : Word := BitVec.ofNat 32 (b2n d.shadow * 2 ^ 25 + d.rep.toNat * 2 ^ 17 + d.die % 2 ^ 17)

/-- A job's membership in the SET layout from the group handle on. -/
def jobWords (x : Job) : List Word :=
  [x.group.setWidth 32, w32 x.root, w32 x.combiners.length] ++ x.combiners.map w32 ++ [w32 x.dies.length] ++ x.dies.map dieWord

/-- JOB_MEMBERS READ -/
def opJobRead : OpDef := {
  code := 0xB2, may := fleetTenant, form := fun c => decide (c.words.length = 2)
  see := fun _ _ c => if c.tenant && decide (c.job.map BitVec.toNat ≠ some (c.n 2)) then some 2 else none
  range := fun _ _ c => if c.n 2 < 65536 then none else some 2
  act := fun _ h c =>
    match jobAt h (BitVec.ofNat 16 (c.n 2)) with
    | some x => ok ((jobWords x).take 346) h
    | none => refuse stNotFound h 2 }

/-- JOB_MEMBERS READ (R408, R480). -/
def execJobMembersRead (c : Cmd) (s : State) : Host.Outcome State Fault Refusal := s.runOp opJobRead (withOp 3 c)

end Sys2Proof.Machine
end

