-- ==== Sys2Proof/Machine/RecOps.lean ====
section
/-!
DEFINITION. The event recorder: bytes of records, the SRAM areas, the mirror's pages, the NV area, reading records back, and the tray's record
log (R547–R559, R570).
-/
namespace Sys2Proof.Machine

/-- Change the recorder. -/
def onLog (f : Recorder → Recorder) (h : Hub) : Hub := { h with log := f h.log }

/-- Bytes of a record (Table 15.1): 24 of header and its payload. -/
def Rec.size (r : Rec) : Nat := 24 + 4 * r.payload.length
/-- A record as bytes, most significant byte first (R547). -/
def Rec.bytes (r : Rec) : List Byte :=
  beBytes 4 (r.type.toNat * 2 ^ 24 + r.sev.toNat * 2 ^ 22 + r.cmpl.toNat * 2 ^ 20 + r.size / 4) ++ beBytes 4 r.rseq.toNat ++
    beBytes 8 r.tb.toNat ++ beBytes 4 r.entity.toNat ++ beBytes 4 (r.unit.toNat * 2 ^ 24 + r.code.toNat * 2 ^ 16 + r.boot.toNat) ++
    wordsBytes r.payload
/-- Bytes of a list of records. -/
def sizeOf_ (l : List Rec) : Nat := (l.map Rec.size).sum

/-! The SRAM areas (R551, R552). -/

/-- The oldest records of the drift area that must go for it to hold 64 KiB, and those that stay. -/
def trimDrift : List Rec → List Rec × List Rec
  | [] => ([], [])
  | r :: t => if sizeOf_ (r :: t) ≤ 65536 then ([], r :: t) else let p := trimDrift t; (r :: p.1, p.2)

/-- A record takes its place in the bedrock area, or once that is full in the drift area (R551). What the drift area overwrites before it
is mirrored, or in die role sent, is lost and counted (R552, R558); the LOSS record takes its place behind the records that wait, whose RSEQ
is given: DESIGN CHOICE (log 103). -/
def storeRec (e : Env) (r : Rec) (h : Hub) : Hub :=
  let r := { r with took := nowNs h }
  if !h.log.full && decide (sizeOf_ h.log.bedrock + r.size ≤ 32768) then onLog (fun l => { l with bedrock := l.bedrock ++ [r] }) h
  else
    let p := trimDrift (h.log.drift ++ [r])
    let m := (p.1.filter (fun x => decide (h.log.mirrored < x.rseq.toNat))).length
    let u := if e.tray then 0 else (p.1.filter (fun x => decide (h.log.sent < x.rseq.toNat))).length
    let h := onLog (fun l => { l with
      full := true, drift := p.2, lostMirror := l.lostMirror + m, lostUpload := l.lostUpload + u
      part := if (p.1.find? (fun x => decide (l.mirrored < x.rseq.toNat))).isSome then 0 else l.part }) h
    let h := if m = 0 then h else emit 10 1 0 noEnt 10 1 ([1, w32 m] ++ w64 (nowNs h) ++ w64 (nowNs h)) h
    if u = 0 then h else emit 10 1 0 noEnt 10 2 ([2, w32 u] ++ w64 (nowNs h) ++ w64 (nowNs h)) h

/-- The recorder takes one record from its input queue (R552). -/
def acceptRec (e : Env) (h : Hub) : Hub :=
  match h.log.queue with
  | [] => h
  | r :: t => storeRec e r (onLog (fun l => { l with queue := t, urgent := l.urgent || decide (r.sev = 3) }) h)

/-- Take everything that waits in the input queue. -/
def acceptAll (e : Env) : Nat → Hub → Hub
  | 0, h => h
  | n + 1, h => if h.log.queue.isEmpty then h else acceptAll e n (acceptRec e h)

/-- The records held that are not yet mirrored, in RSEQ order. -/
def unmirrored (h : Hub) : List Rec := (h.log.bedrock ++ h.log.drift).filter (fun r => decide (h.log.mirrored < r.rseq.toNat))
/-- The records held that are not yet sent upward (R558). -/
def unsent (h : Hub) : List Rec := (h.log.bedrock ++ h.log.drift).filter (fun r => decide (h.log.sent < r.rseq.toNat))
/-- Bytes not yet mirrored. -/
def pendingBytes (h : Hub) : Nat := sizeOf_ (unmirrored h) - h.log.part

/-! NV memory (Table 15.3). -/

/-- Start of bedrock slot `i`. -/
def slotAddr (h : Hub) (i : Nat) : Nat := h.log.nvBase + 262144 + 32768 * (i % 2)
/-- Start of the drift log. -/
def driftAddr (h : Hub) : Nat := h.log.nvBase + 327680
/-- Pages of the drift log. -/
def logPages (h : Hub) : Nat := max 1 (h.log.logSize / 256)

/-- Erase the next sector ahead of the write pointer (R554). -/
def eraseNext (e : Env) (h : Hub) : Hub :=
  let a := (h.log.nvptr * 256 + h.log.erased) % h.log.logSize
  onLog (fun l => { l with erased := l.erased + l.sector }) (nvErase e (driftAddr h + a) h.log.sector h)

/-- Erase until `n` bytes lie erased ahead. -/
def eraseFor (e : Env) (n : Nat) : Nat → Hub → Hub
  | 0, h => h
  | f + 1, h => if h.log.erased ≥ n then h else eraseFor e n f (eraseNext e h)

/-- Append whole pages to the drift log at its write pointer, the last one filled with zero bytes. -/
def appendDrift (bs : List Byte) (h : Hub) : Hub :=
  (chunksOf 256 (padTo 256 bs)).foldl (fun h p =>
    onLog (fun l => { l with nvptr := (l.nvptr + 1) % logPages h, erased := l.erased - 256 })
      (nvPost (driftAddr h + 256 * h.log.nvptr) p h)) h

/-- How far the mirror gets when it has written `n` bytes of the records given, of whose first `part` are in NV memory already: the last
RSEQ mirrored, and the bytes of the next record that are. -/
def advance : List Rec → Nat → Nat → Nat × Nat
  | [], done, _ => (done, 0)
  | r :: t, done, n => if r.size ≤ n then advance t r.rseq.toNat (n - r.size) else (done, n)

/-- The record lies in the bedrock area, and its slot has room for another page. -/
def toSlot (h : Hub) (r : Rec) : Bool := h.log.bedrock.any (fun x => decide (x.rseq = r.rseq)) && decide (h.log.slotPtr + 256 ≤ 32768)

/-- The mirror writes one page (R553): 256 bytes of the pending records of one area, or what there is, filled with zero bytes. -/
def mirrorPage (h : Hub) : Hub :=
  match unmirrored h with
  | [] => h
  | r :: t =>
    let bed := toSlot h r
    let seg := (r :: t).takeWhile (fun x => toSlot h x == bed)
    let bs := ((seg.flatMap Rec.bytes).drop h.log.part).take 256
    let adv := advance seg h.log.mirrored (h.log.part + bs.length)
    let h := if bed then
        onLog (fun l => { l with slotPtr := l.slotPtr + 256 }) (nvPost (slotAddr h h.log.bootseq.toNat + h.log.slotPtr) (padTo 256 bs) h)
      else appendDrift bs h
    let next := (unmirrored (onLog (fun l => { l with mirrored := adv.1 }) h)).head?
    let keep := next.any (fun x => toSlot h x == bed)
    onLog (fun l => { l with mirrored := adv.1, part := if keep then adv.2 else 0 }) h

/-- The mirror writes every pending record. -/
def mirrorAll : Nat → Hub → Hub
  | 0, h => h
  | n + 1, h => if (unmirrored h).isEmpty then h else mirrorAll n (mirrorPage h)

/-- A record of the flush structure (Table 15.4), which goes where its rule says and not through the queue. -/
def flushRec (code : Nat) (payload : List Word) (h : Hub) : Rec × Hub :=
  let r : Rec := {
    type := 13, sev := 0, cmpl := 0, rseq := h.log.rseq + 1, tb := BitVec.ofNat 64 (nowNs h), entity := noEnt, unit := 10
    code := BitVec.ofNat 8 code, boot := h.log.bootseq.setWidth 16, payload := payload }
  (r, onLog (fun l => { l with rseq := l.rseq + 1 }) h)

/-! Reading records back from bytes (R570). -/

/-- A record's header at the front of bytes gives its length in bytes, where it can be one. -/
def recLenAt (b : List Byte) : Option Nat :=
  let t := beAt b 0 1
  let n := bitsOf (beAt b 0 4) 5 0
  if t = 0 ∨ t = 0xFF ∨ n < 6 ∨ n > 56 ∨ b.length < 4 * n then none else some (4 * n)

/-- Does a page begin with a COMMIT_B record? It ends the count snapshot, whose entries are no records. -/
def atCommitB (b : List Byte) : Bool := decide (beAt b 0 1 = 13) && decide (beAt b 21 1 = 4) && decide (bitsOf (beAt b 0 4) 5 0 = 9)

/-- The records of a run of pages: each as its bytes. Zero at a record's start is padding to the next page, 0xFF the end; the pages between
COUNTS and COMMIT_B are passed over. -/
def readRecs (counts : Bool) (pos : Nat) : Nat → List Byte → List (List Byte)
  | 0, _ => []
  | f + 1, b =>
    let skip := 256 - pos % 256
    if b.isEmpty then []
    else if counts then
      if pos % 256 = 0 ∧ atCommitB b = true then readRecs false pos f b else readRecs true (pos + skip) f (b.drop skip)
    else if beAt b 0 1 = 0 then readRecs false (pos + skip) f (b.drop skip)
    else match recLenAt b with
      | none => []
      | some n => b.take n :: readRecs (decide (beAt b 0 1 = 13) && decide (beAt b 21 1 = 3)) (pos + n) f (b.drop n)

/-- RSEQ of a record's bytes. -/
def rseqOf (b : List Byte) : Nat := beAt b 4 4
/-- A FLUSH record of a code. -/
def isFlush (code : Nat) (b : List Byte) : Bool := decide (beAt b 0 1 = 13) && decide (beAt b 21 1 = code)

/-- The records of bedrock slot `i`. -/
def slotRecs (e : Env) (h : Hub) (i : Nat) : List (List Byte) := readRecs false 0 2048 (e.nvRead (slotAddr h i) 32768)

/-- Pages of the drift log that hold something, as page numbers. -/
def usedPages (e : Env) (h : Hub) : List Nat :=
  let a := driftAddr h
  ((e.nv.filter (fun c => decide (a ≤ c.1) && decide (c.1 < a + h.log.logSize))).map (fun c => (c.1 - a) / 256)).dedup

/-- The page at which the log's valid content ends: the first empty page behind a used one (R570). -/
def logEnd (e : Env) (h : Hub) : Nat :=
  let u := usedPages e h
  match u.find? (fun p => !u.contains ((p + 1) % logPages h)) with
  | some p => (p + 1) % logPages h
  | none => 0

/-- Empty pages from a page on, at most `n`. -/
def emptyRun (u : List Nat) (pages p : Nat) : Nat → Nat
  | 0 => 0
  | n + 1 => if u.contains (p % pages) then 0 else emptyRun u pages (p + 1) n + 1

/-- The bytes of the drift log from a page up to its end. -/
def logFrom (e : Env) (h : Hub) (page off : Nat) : List Byte :=
  let n := (h.log.nvptr + logPages h - page % logPages h) % logPages h
  (List.range (256 * n - off)).map (fun i => e.nv.get Mem.nvByte (driftAddr h + (256 * page + off + i) % h.log.logSize))

/-- The oldest page of the drift log. -/
def oldestPage (e : Env) (h : Hub) : Nat :=
  let u := usedPages e h
  (h.log.nvptr + emptyRun u (logPages h) h.log.nvptr (logPages h)) % logPages h

/-- Every record of the drift log, oldest first. -/
def logRecs (e : Env) (h : Hub) : List (List Byte) :=
  let b := logFrom e h (oldestPage e h) 0
  readRecs false 0 (b.length / 24 + logPages h) b

/-- The records of the last committed flush: from the last BEGIN behind which a COMMIT_A stands, to its end. -/
def lastFlush (e : Env) (h : Hub) : List (List Byte) :=
  let l := logRecs e h
  let starts := (l.zipIdx.filter (fun p => isFlush 0 p.1)).map Prod.snd
  let good := starts.filter (fun i => ((l.drop (i + 1)).takeWhile (fun b => !isFlush 0 b)).any (isFlush 1))
  match good.getLast? with
  | none => []
  | some i =>
    let run := (l.drop (i + 1)).takeWhile (fun b => !isFlush 0 b)
    let stop := ((run.zipIdx.filter (fun p => isFlush 1 p.1 || isFlush 4 p.1 || isFlush 8 p.1)).map (fun p => p.2 + 1)).foldl max 0
    l.getD i [] :: run.take stop

/-! The NV area becomes known (R555). -/

/-- The boot sequence number of slot `i`: 4 bytes, zeros, CRC-32C in the last 4 of 64. -/
def bootSlot (e : Env) (h : Hub) (i : Nat) : Option Nat :=
  let b := e.nvRead (h.log.nvBase + 64 * i) 64
  if (crc32c (b.take 60)).toNat = beAt b 60 4 then some (beAt b 0 4) else none

/-- The RSEQ of the previous boot's last valid record: the last of the drift log if it is of that boot, else of its bedrock slot. -/
def lastOfBoot (e : Env) (h : Hub) (boot : Nat) : Nat :=
  let mine := fun (b : List Byte) => decide (beAt b 22 2 = boot % 65536)
  match (logRecs e h).getLast? with
  | some b => if mine b then rseqOf b else (((slotRecs e h boot).getLast?).map rseqOf).getD 0
  | none => (((slotRecs e h boot).getLast?).map rseqOf).getD 0

/-- The recorder's NV area becomes known, or is known again in the same boot (R555). -/
def recorderKnown (e : Env) (base sector logSize : Nat) (h : Hub) : Hub :=
  let h := onLog (fun l => { l with nvBase := base, sector := sector, logSize := logSize, nvOn := true }) h
  if h.log.nvKnown then h
  else
    let old := max ((bootSlot e h 0).getD 0) ((bootSlot e h 1).getD 0)
    let boot := old + 1
    let h := onLog (fun l => { l with nvptr := logEnd e h }) h
    let room := emptyRun (usedPages e h) (logPages h) h.log.nvptr (logPages h) * 256
    let h := onLog (fun l => { l with
      nvKnown := true, bootseq := w32 boot, slotPtr := 0
      erased := room - (l.nvptr * 256 + room) % l.sector }) h
    let last := lastOfBoot e h old
    let num := beBytes 4 (boot % 2 ^ 32) ++ List.replicate 56 0
    let at_ := h.log.nvBase + 64 * (boot % 2)
    let h := nvPost at_ (num ++ beBytes 4 (crc32c num).toNat) (nvErase e at_ 64 h)
    let h := nvErase e (slotAddr h boot) 32768 h
    let r := flushRec 5 [w32 boot, w32 last] h
    appendDrift r.1.bytes (eraseFor e 256 4 r.2)

/-! The record log of a tray-role block (R559). -/

/-- Size of the record log, and its offset in the reserved range. -/
def trayLogSize : Nat := 67108864

/-- Address of the record log. -/
def trayLogAddr (h : Hub) : Option Nat := (reservedBase h).map (fun b => b + trayLogSize)

/-- An entry: a 32-byte header (sender, SOFF, TB of arrival, length, GAP) and the body, filled to a multiple of 64 bytes. -/
def logEntry (node soff len : Nat) (gap : Bool) (tb : Nat) (body : List Byte) : List Byte :=
  padTo 64 (leBytes 4 node ++ leBytes 4 soff ++ leBytes 8 tb ++ leBytes 4 len ++ leBytes 4 (b2n gap) ++ leBytes 8 0 ++ body)

/-- The oldest entries that a write of `n` bytes at the log's write offset overwrites are forgotten. -/
def dropOld (p n : Nat) (l : List (Nat × Nat × Nat)) : List (Nat × Nat × Nat) :=
  l.filter (fun x => decide ((x.2.1 + trayLogSize - p) % trayLogSize ≥ n) && decide ((p + trayLogSize - x.2.1) % trayLogSize ≥ x.2.2))

/-- Append an entry to the record log: circular, the oldest entries overwritten. -/
def appendLog (node soff : Nat) (body : List Byte) (h : Hub) : Hub :=
  match trayLogAddr h with
  | none => h
  | some a =>
    let prev := h.log.logSenders.find? (fun p => decide (p.1 = node))
    let gap := prev.any (fun p => decide (p.2 ≠ soff))
    let bs := logEntry node soff body.length gap (nowNs h) body
    let p := h.log.logPtr
    let num := ((h.log.logIndex.getLast?).map (fun x => x.1 + 1)).getD 0
    let h := ((chunksOf 64 bs).zipIdx).foldl (fun h c => postMem (a + (p + 64 * c.2) % trayLogSize) c.1 h) h
    onLog (fun l => { l with
      logIndex := dropOld p bs.length l.logIndex ++ [(num, p, bs.length)], logPtr := (p + bs.length) % trayLogSize
      logSenders := l.logSenders.filter (fun x => decide (x.1 ≠ node)) ++ [(node, (soff + body.length / 4) % 2 ^ 24)] }) h

/-- The bytes of an entry of the record log. -/
def entryBytes (e : Env) (h : Hub) (x : Nat × Nat × Nat) : List Byte :=
  match trayLogAddr h with
  | none => []
  | some a => (List.range x.2.2).filterMap (fun i => readByte e h (a + (x.2.1 + i) % trayLogSize))

/-- Whole records of a list that fit one body of at most 224 bytes. -/
def bodyOf : List Rec → Nat → List Rec
  | [], _ => []
  | r :: t, n => if n + r.size ≤ 224 then r :: bodyOf t (n + r.size) else []

end Sys2Proof.Machine
end

