-- ==== Sys2Proof/Machine/RecCmds.lean ====
section
/-!
DEFINITION. The commands and events of the event recorder (R547–R559, R571).
-/
namespace Sys2Proof.Machine

/-- The records that REC_READ returns from an area (Table 15.7), each as its bytes; none where the role has no such area. -/
def areaRecs (e : Env) (h : Hub) (area first : Nat) : Option (List (List Byte)) :=
  let from_ := fun (l : List (List Byte)) => l.filter (fun b => decide (first ≤ rseqOf b))
  let nv := fun (l : List (List Byte)) => if h.log.nvKnown then l else []
  match area with
  | 0 => some (from_ (h.log.bedrock.map Rec.bytes))
  | 1 => some (from_ (h.log.drift.map Rec.bytes))
  | 2 => some (nv (from_ (slotRecs e h h.log.bootseq.toNat)))
  | 3 => some (nv (from_ (slotRecs e h (h.log.bootseq.toNat + 1))))
  | 4 =>
    let b := logFrom e h (first / 256) (first % 256)
    some (nv (readRecs false first (b.length / 24 + logPages h) b))
  | 5 => some (nv (lastFlush e h))
  | 6 => if e.tray then some ((h.log.logIndex.filter (fun x => decide (first ≤ x.1))).map (entryBytes e h)) else none
  | _ => none

/-- As many of a list of byte strings as fit `n` bytes, from the front. -/
def takeFit : Nat → List (List Byte) → List (List Byte)
  | _, [] => []
  | n, b :: t => if b.length ≤ n then b :: takeFit (n - b.length) t else []

/-- REC_READ -/
def opRecRead : OpDef := {
  code := 0xA0, may := fleetDebug, form := fun c => decide (c.words.length = 4)
  range := fun _ h c => firstBad [(1, decide (c.n 1 ≤ 6)), (2, decide (c.n 1 ≠ 4) || decide (c.n 2 < h.log.logSize))]
  act := fun e h c =>
    match areaRecs e h (c.n 1) (c.n 2) with
    | none => refuse stNotFound h 1
    | some l =>
      if c.d 3 = 0 then
        let l := takeFit 1376 l
        ok ([w32 (l.map List.length).sum, w32 l.length] ++ bytesWords l.flatten) h
      else match writeOut 5 (c.d 3) l.flatten h with
        | some h => ok [w32 (l.map List.length).sum, w32 l.length] h
        | none => refuse stBadParam h 3 }

/-- REC_READ (R571). -/
def execRecRead (c : Cmd) (s : State) : Host.Outcome State Fault Refusal := s.runOp opRecRead c

/-- REC_MARK -/
def opRecMark : OpDef := {
  code := 0xA1, may := anyDom, form := fun c => decide (c.words.length = 1)
  act := fun e h c =>
    let j := if c.tenant then (c.job.getD 0).setWidth 32 else (0 : Word)
    ok [] (mark e 0 (if c.tenant then entId 10 j.toNat else 0) (c.w 1) (nowNs h) (emit 11 0 0 noEnt 10 0 [c.w 1, j] h)) }

/-- REC_MARK (R571, R487). -/
def execRecMark (c : Cmd) (s : State) : Host.Outcome State Fault Refusal := s.runOp opRecMark c

/-- RECORD_ACCEPT (R551, R552). -/
def execRecordAccept (s : State) : Host.Outcome State Fault Refusal :=
  s.run (fun e h => guard (alive h) (acceptRec e) h)

/-- The oldest record that is not mirrored was accepted 10 ms ago (R553). -/
def pageDue (h : Hub) : Bool := (unmirrored h).head?.any (fun r => decide (r.took + 10000000 ≤ nowNs h))

/-- The mirror may write: the NV area is known, no warning holds, and erased space lies ahead where the page goes to the drift log (R554, R556,
R564). -/
def mirrorOn (h : Hub) : Bool :=
  h.log.nvOn && alive h && !h.sys.pfwLow && (decide (h.log.erased ≥ 256) || (!h.log.urgent && (unmirrored h).head?.any (toSlot h)))

/-- MIRROR_PAGE_WRITE (R553, R557): one page, or behind a FLUSH record of code FAULT everything that is pending. -/
def execMirrorPageWrite (s : State) : Host.Outcome State Fault Refusal :=
  s.run (fun _ h => guard (mirrorOn h && !(unmirrored h).isEmpty && (h.log.urgent || decide (pendingBytes h ≥ 256) || pageDue h)) (fun h =>
    if h.log.urgent then
      let r := flushRec 6 [] (onLog (fun l => { l with urgent := false }) h)
      mirrorAll 1024 (appendDrift r.1.bytes r.2)
    else mirrorPage h) h)

/-- Erased space that the recorder keeps ahead of the drift log's write pointer (R554). -/
def eraseAhead : Nat := 262144

/-- NV_SECTOR_ERASE (R554, R563): an erase starts only while PFW_N is released. -/
def execNvSectorErase (s : State) : Host.Outcome State Fault Refusal :=
  s.run (fun _ h => guard (h.log.nvOn && !h.log.erasing && decide (h.log.erased < eraseAhead) && !h.sys.pfwLow &&
      (alive h || (h.sys.st == .flush && h.log.holdUntil.isSome)))
    (onLog (fun l => { l with erasing := true, suspended := false })) h)

/-- NV_ERASE_DONE (R554, R568). -/
def execNvEraseDone (s : State) : Host.Outcome State Fault Refusal :=
  s.run (fun e h => guard (h.log.erasing && !h.log.suspended && portOn h)
    (fun h => eraseNext e (onLog (fun l => { l with erasing := false }) h)) h)

/-- The records of one body are sent, or in tray role appended to its own record log (R558, R559). -/
def uploadOne (e : Env) (h : Hub) : Hub :=
  let rs := bodyOf (unsent h) 0
  match rs.getLast? with
  | none => h
  | some r =>
    let body := rs.flatMap Rec.bytes
    let soff := h.log.soff / 4 % 2 ^ 24
    let h := onLog (fun l => { l with sent := r.rseq.toNat, soff := l.soff + body.length }) h
    if e.tray then appendLog (nodeNo e h) soff body h else photenSend 2 3 (2 ^ 17 + (imgOf h).tray) 0 soff body h

/-- RECORD_UPLOAD (R558, R559): in SERVING, each record once, in RSEQ order. -/
def execRecordUpload (s : State) : Host.Outcome State Fault Refusal :=
  s.run (fun e h => guard (serving h) (uploadOne e) h)

/-- What a tray-role block reads from a member's record beside keeping it: the evidence of Table 8.9 on the die and its replica, and a split's
request to the parent (R200, R316). -/
def readEvidence (die : Nat) (b : List Byte) (h : Hub) : Hub :=
  let ty := beAt b 0 1
  let code := beAt b 21 1
  let tb := beAt b 8 8
  let w := fun i => beAt b (24 + 4 * i) 4
  let n := (b.length - 24) / 4
  if ty = 9 ∧ code = 13 then setFloor (dieId die) 2 tb h
  else if ty = 2 ∧ code = 4 then setFloor (dieId die) 2 tb h
  else if ty = 2 ∧ code = 1 ∧ w 4 = 2 then setFloor (dieId die) 2 tb h
  else if ty = 2 ∧ (code = 1 ∨ code = 2) ∧ w 4 = 0 ∧ n ≥ 20 then
    let rep : Option Word := if n ≥ 21 then some (BitVec.ofNat 32 (w 20)) else none
    let h := match rep with
      | some x => if shadowEnt h x then h else setFloor x (if code = 1 then 6 else 2) tb h
      | none => h
    if code = 2 then splitRequest (w 15) (BitVec.ofNat 32 (w 3)) (w 19) (w 16) (decide (w 17 = 1)) (BitVec.ofNat 32 (w 18)) h else h
  else h

/-- PHOTEN_RECORD_RECEIVE (R559). -/
def execPhotenRecordReceive (p : List Byte) (port : BitVec 6) (s : State) : Host.Outcome State Fault Refusal :=
  s.run (fun e h => photenRx e 2 p port.toNat (fun r h =>
    if !e.tray then h
    else
      let h := appendLog r.src r.soff r.body h
      if memberDie e h r.src then (readRecs false 0 16 r.body).foldl (fun h b => readEvidence r.src b h) h else h) h)

end Sys2Proof.Machine
end

