-- ==== Sys2Proof/Machine/FlushOps.lean ====
section
/-!
DEFINITION. The flush: its phases and the records it writes, in a power-fail warning and in an orderly flush (R556, R561–R569).
-/
namespace Sys2Proof.Machine

/-- A list cut into pieces of `n`. -/
def pieces {α : Type} (n : Nat) (l : List α) : List (List α) :=
  (List.range ((l.length + n - 1) / n)).map (fun i => (l.drop (i * n)).take n)

/-- A record of the flush itself: numbered, and written past the queue (R566). -/
def ownRec (ty unit code : Nat) (x : Word) (payload : List Word) (h : Hub) : Rec × Hub :=
  let r : Rec := {
    type := BitVec.ofNat 8 ty, sev := 0, cmpl := 0, rseq := h.log.rseq + 1, tb := BitVec.ofNat 64 (nowNs h), entity := x
    unit := BitVec.ofNat 8 unit, code := BitVec.ofNat 8 code, boot := h.log.bootseq.setWidth 16, payload := payload }
  (r, onLog (fun l => { l with rseq := l.rseq + 1 }) h)

/-- Several records of one kind. -/
def ownRecs (ty unit code : Nat) (x : Word) (ps : List (List Word)) (h : Hub) : List Rec × Hub :=
  ps.foldl (fun a p => let r := ownRec ty unit code x p a.2; (a.1 ++ [r.1], r.2)) ([], h)

/-- The bytes of a phase: it starts on a new page (R561). -/
def phaseBytes (rs : List Rec) : List Byte := padTo 256 (rs.flatMap Rec.bytes)

/-- Write bytes of a phase to the drift log; an orderly flush may erase as it goes, a warning's flush may not (R563, R564). -/
def putPages (e : Env) (ord : Bool) (bs : List Byte) (h : Hub) : Hub :=
  if bs.isEmpty then h
  else appendDrift bs (if ord then eraseFor e (padTo 256 bs).length (bs.length / 4096 + 2) h else h)

/-- Write the records of a phase: to the drift log, or to SRAM while the NV area is not known (R556). -/
def putPhase (e : Env) (ord : Bool) (rs : List Rec) (h : Hub) : Hub :=
  if h.log.nvOn then putPages e ord (rs.flatMap Rec.bytes) h else rs.foldl (fun h r => storeRec e r h) h

/-- The newest records of a list that fit `n` bytes (R562). -/
def newest (n : Nat) (l : List Rec) : List Rec :=
  (l.reverse.foldl (fun (a : List Rec × Nat × Bool) r =>
    if a.2.2 && decide (a.2.1 + r.size ≤ n) then (r :: a.1, a.2.1 + r.size, true) else (a.1, a.2.1, false)) ([], 0, true)).1

/-- The ageing delta (R367): the bins changed since the last persist, ten to a record. -/
def deltaPayloads (h : Hub) : List (List Word) :=
  (pieces 10 h.age.changed).map (fun l => l.flatMap (fun p => w32 (p.1 * 1024 + p.2) :: (binAt h p.1 p.2).words))

/-- The last acknowledged plan of each region (Table 15.6, phase 2). -/
def planPayloads (h : Hub) : List (List Word) := (List.range 8).map (fun r => (zone h r).current.words r)

/-- Epoch, last snapshot and stopped state of each region (Table 15.6, phase 4). -/
def cutRegions (e : Env) (h : Hub) : List Word :=
  if e.tray then [] else
  (List.range 8).flatMap (fun r =>
    let x := region h r
    [x.hubEpoch.setWidth 32] ++ w64 (((regionCores e r).map (fun c => (hubc h c).snapTb)).foldl max 0) ++ [w32 (b2n x.stopped)])

/-- Reduction contributions not sent or held (R224, R228): those of the telemetry plan's rounds in plan order, what is carried into the next
window, and the REDUCE packets that wait. -/
def cutContributions (h : Hub) : List (List Byte) :=
  let rounds := h.xs.rounds.filter (fun p => decide (p.1 / 2 ^ 26 ≠ 0) && decide (p.2.window ≠ 0) && !p.2.done)
  rounds.flatMap (fun p => (redPackets (upMessage h (p.1 / 65536 / 1024) (p.1 / 65536 % 1024) (p.1 % 65536) p.2 [])).map redBody) ++
    h.xs.carry.map (fun p => beBytes 4 p.1 ++ p.2.elems.flatMap elemBytes) ++
    (h.fab.outq.filter (fun p => decide (p.type = 0))).map Packet.body

/-- Contributions that fit 8 KiB, and whether some were dropped (R562). -/
def fitCut : Nat → List (List Byte) → List (List Byte) × Bool
  | _, [] => ([], false)
  | n, b :: t => if b.length ≤ n then let r := fitCut (n - b.length) t; (b :: r.1, r.2) else ([], true)

/-- CUT payloads: the regions; then the contributions, each record with a word that is 1 in the last one when contributions were
dropped. -/
def cutPayloads (e : Env) (h : Hub) : List (List Word) :=
  let f := fitCut 8192 (cutContributions h)
  let ps := pieces 49 (bytesWords (padTo 4 f.1.flatten))
  let ps := if ps.isEmpty && f.2 then [[]] else ps
  [cutRegions e h] ++ (ps.zipIdx).map (fun p => w32 (b2n (f.2 && decide (p.2 + 1 = ps.length))) :: p.1)

/-- Present cores in the order of the count snapshot (R565). -/
def saveOrder (e : Env) (h : Hub) : List Nat :=
  let l := (List.range 2048).filter e.present
  l.filter (fun c => (hubc h c).hadOutcome) ++ l.filter (fun c => !(hubc h c).hadOutcome)

/-- A count entry: 216 bytes (R565). -/
def countEntry (h : Hub) (c : Nat) : List Byte :=
  let x := hubc h c
  beBytes 2 c ++ beBytes 1 x.epoch.toNat ++ beBytes 1 (b2n x.failed * 4 + b2n x.stopped * 2 + b2n x.late) ++
    x.snap.flatMap (fun v => beBytes 6 v.toNat) ++ [0, 0]

/-- The mask of cores not saved, as the two MASK payloads (Table 15.4). -/
def maskPayloads (not_ : List Nat) : List (List Word) :=
  (List.range 2).map (fun half => w32 half :: bytesWords ((List.range 128).map (fun i =>
    BitVec.ofNat 8 ((List.range 8).map (fun b => if not_.contains (1024 * half + 8 * i + b) then 2 ^ b else 0)).sum)))

/-- Whole entries that phase 5 can write by 480 µs when `pages` pages are written before it: 2 µs, then 0.68 µs a page (R561, R565). -/
def entriesIn (pages : Nat) : Nat := (480000 - (2000 + 680 * pages)) / 680 * 256 / 216

/-- The whole flush, phases 1 to 6 (Table 15.6). -/
def writeFlush (e : Env) (h : Hub) : Hub :=
  let ord := (h.log.flush.map Flush.orderly).getD false
  let nv := h.log.nvOn
  let pend := if nv then unmirrored h else []
  let kept := if ord then pend else newest 16384 pend
  let lost := pend.length - kept.length
  let h := onLog (fun l => { l with lostMirror := l.lostMirror + lost, flush := l.flush.map (fun f => { f with lost := lost }) }) h
  -- phase 1
  let pre := ownRecs 13 10 7 noEnt (if ord then [[]] else []) h
  let first := (kept.head?.map Rec.rseq).getD (pre.2.log.rseq + 2)
  let beg := ownRec 13 10 0 noEnt [h.log.bootseq, first] pre.2
  let h1 := putPhase e ord (pre.1 ++ [beg.1] ++ kept) beg.2
  -- phase 2
  let d := ownRecs 14 12 0 noEnt (deltaPayloads h1) h1
  let p := ownRecs 14 12 1 noEnt (planPayloads d.2) d.2
  let h2 := putPhase e ord (d.1 ++ p.1) p.2
  -- phase 3
  let since := (phaseBytes (pre.1 ++ [beg.1] ++ kept) ++ phaseBytes (d.1 ++ p.1)).drop (pre.1.flatMap Rec.bytes).length
  let ca := ownRec 13 10 1 noEnt [h2.log.rseq, w32 since.length, crc32c since] h2
  let h3 := putPhase e ord [ca.1] ca.2
  -- phase 4
  let cut := ownRecs 13 10 2 noEnt (cutPayloads e h3) h3
  let h4 := putPhase e ord cut.1 cut.2
  -- phase 5
  let cores := saveOrder e h4
  let cn := ownRec 13 10 3 noEnt [216, w32 cores.length] h4
  let h5 := putPhase e ord [cn.1] cn.2
  let before := ((phaseBytes (pre.1 ++ [beg.1] ++ kept)).length + (phaseBytes (d.1 ++ p.1)).length + (phaseBytes cut.1).length) / 256 + 2
  let n := if !nv then 0 else if ord then cores.length else min cores.length (entriesIn before)
  let bytes := (cores.take n).flatMap (countEntry h5)
  let h5 := putPages e ord bytes h5
  -- phase 6
  let cb := ownRec 13 10 4 noEnt [w32 n, w32 bytes.length, crc32c bytes] h5
  let mk := ownRecs 13 10 8 noEnt (maskPayloads (cores.drop n)) cb.2
  let h6 := putPhase e ord (cb.1 :: mk.1) mk.2
  onLog (fun l => { l with
    mirrored := if nv then l.rseq.toNat else l.mirrored, part := if nv then 0 else l.part, lastPhase := 6, cores := n
    flush := l.flush.map (fun f => { f with phase := 6, ended := true }) }) h6

end Sys2Proof.Machine
end

