-- ==== Sys2Proof/Machine/PowerOps.lean ====
section
/-!
DEFINITION. What resets, power states and the entries to CONFIG and PLAYA keep and clear (R29–R34, R576, R590–R602, Tables 16.7 to 16.9).
-/
namespace Sys2Proof.Machine

/-- Change the block's state machine. -/
def onSys (f : Sys → Sys) (h : Hub) : Hub := { h with sys := f h.sys }
/-- Change the always-on island. -/
def onIsl (f : Island → Island) (h : Hub) : Hub := { h with isl := f h.isl }

/-! Counts that a CONFIG reset leaves: the Reset column of the register tables speaks of COLD and BLOCK resets only (R618). -/

/-- Counts of Table 4.13. -/
def ResU.counted (r : ResU) : ResU := {
  tiles := r.tiles, mismatch := r.mismatch, timeouts := r.timeouts, proto := r.proto, audSkip := r.audSkip, tileSkip := r.tileSkip
  audits := r.audits, audMis := r.audMis, audRound := r.audRound, audFmt := r.audFmt }
/-- Counts of Table 5.12. -/
def DigU.counted (d : DigU) : DigU := {
  ingress := { lost := d.ingress.lost }, egress := { lost := d.egress.lost }
  stale := d.stale, unopened := d.unopened, proto := d.proto, invalid := d.invalid, tableFull := d.tableFull, odd := d.odd, split := d.split
  broken := d.broken, uncmp := d.uncmp, checked := d.checked, unchecked := d.unchecked, matched := d.matched, scrubFail := d.scrubFail
  scrubUnchecked := d.scrubUnchecked, uncmpPairs := d.uncmpPairs, overruns := d.overruns }
/-- Counts of Table 6.10. -/
def XsU.counted (x : XsU) : XsU := {
  beats := x.beats, done := x.done, incomplete := x.incomplete, late := x.late, carried := x.carried, dup := x.dup, bad := x.bad
  range := x.range, ovf := x.ovf, skipped := x.skipped }
/-- Counts of Table 7.11, and the number of passes requested. -/
def EnsU.counted (x : EnsU) : EnsU := {
  passNo := x.passNo, visits := x.visits, samples := x.samples, done := x.done, overrun := x.overrun, skipped := x.skipped, bank := x.bank
  page := x.page, faults := x.faults, uncorr := x.uncorr, corr := x.corr, refused := x.refused, fillWaits := x.fillWaits
  misses := x.misses, refusedPass := x.refusedPass, relayouts := x.relayouts }
/-- Counts of the verdict unit (Table 17.4). -/
def Casc.counted (c : Casc) : Casc := {
  acts := c.acts, recommends := c.recommends, changes := c.changes, governed := c.governed, rollbacks := c.rollbacks
  unscored := c.unscored, quickSkipped := c.quickSkipped }
/-- Counts of the Photen port (Table 10.9). -/
def Fab.counted (f : Fab) : Fab := {
  sent := f.sent, tx := f.tx, accepted := f.accepted, crc := f.crc, bad := f.bad, dup := f.dup, red := f.red, excluded := f.excluded
  phases := f.phases, charged := f.charged, drowse := f.drowse }
/-- Counts of the sideband (Table 10.9). -/
def Sb.counted (x : Sb) : Sb := {
  txFrames := x.txFrames, rxFrames := x.rxFrames, code := x.code, crc := x.crc, retry := x.retry, downs := x.downs
  trayLosses := x.trayLosses, dieLosses := x.dieLosses, undeliv := x.undeliv, notTray := x.notTray }
/-- Counts of the management port (Table 11.8). -/
def Mgt.counted (m : Mgt) : Mgt := {
  accept := m.accept, stranger := m.stranger, fcs := m.fcs, size := m.size, metered := m.metered, coloured := m.coloured, full := m.full
  authfail := m.authfail, replay := m.replay, ok := m.ok, overrun := m.overrun, toolong := m.toolong, excess := m.excess
  plcacol := m.plcacol, switches := m.switches, beacon := m.beacon, pdelayBad := m.pdelayBad, annto := m.annto, dropped := m.dropped }
/-- Counts of the memory port (Table 14.10). -/
def MemU.counted (m : MemU) : MemU := {
  rekeys := m.rekeys, recommend := m.recommend, timeouts := m.timeouts, rerr := m.rerr, berr := m.berr, decode := m.decode }
/-- Counts of the DMA engine (Table 14.10). -/
def DmaU.counted (d : DmaU) : DmaU := { align := d.align, buserr := d.buserr, fetch := d.fetch, lostreq := d.lostreq }
/-- Counts of the trace unit (Table 13.17). -/
def Trc.counted (t : Trc) : Trc := {
  lostCell := t.lostCell, lostMerge := t.lostMerge, lostSink := t.lostSink, ignored := t.ignored, frames := t.frames
  sinkBlocks := t.sinkBlocks, trigOut := t.trigOut }
/-- Counts of the compressors (Table 13.17). -/
def Nid.counted (n : Nid) : Nid := { inB := n.inB, outB := n.outB, stored := n.stored, vfail := n.vfail, lastErr := n.lastErr }

/-! What resets keep (Table 16.9). -/

/-- The erg as a BLOCK or CONFIG reset leaves it: kept while frozen. -/
def ergKept (t : Trc) : Sink := if t.erg.frozen then t.erg else {}

/-- TB goes on, carried by the island; the discipline starts afresh, and the change of quality that brings is recorded on entry to CONFIG
(R57). -/
def timeKept (h : Hub) (gap : Option (Nat × Nat × Int)) : TimeU := { tb := h.time.tb, quality := h.time.quality, gap := gap }

/-- The pins' levels, which no reset changes. -/
def pinsOf (s : Sys) : Sys := { porstLow := s.porstLow, blkrstLow := s.blkrstLow, mainPg := s.mainPg, pfwLow := s.pfwLow }

/-- A COLD reset (R592, R602): nothing is kept but the pins. The free-value counters are the model's own. -/
def coldReset (h : Hub) : Hub :=
  let f : Hub := { free := h.free, reports := h.reports, posted := h.posted, nvPosted := h.nvPosted }
  { f with sys := { pinsOf h.sys with st := .cold, lastReset := 0 }, ens := { passNo := h.ens.passNo } }

/-- A BLOCK reset's clearing (R592, R602): the island keeps its state, TB is carried, a frozen erg stays. -/
def blockClear (h : Hub) : Hub :=
  let f := coldReset h
  { f with
    isl := { h.isl with asking := false, mainOffOk := false, wakeHeld := false, released := false }
    time := timeKept h (some (nowNs h, nowNs h, 0)), trc := { erg := ergKept h.trc } }

/-- A BLOCK reset: the block reports FUSE. The PLL keeps its lock, and a hold of R32 goes on. -/
def blockReset (h : Hub) : Hub :=
  let f := blockClear h
  let held := h.sys.st == .cold || h.sys.st == .fuse
  { f with
    sys := { f.sys with st := .fuse, lastReset := 1, pllLocked := h.sys.pllLocked && h.sys.mainPg }
    log := { holdUntil := if held then h.log.holdUntil else none } }

/-- What a CONFIG reset keeps (R592, R602): TB, the protection setup with keys and channels, the DRBG, the recorder, counts. Command sequence
state and commands in progress are cleared. -/
def configClear (h : Hub) : Hub :=
  let f : Hub := { free := h.free, reports := h.reports, posted := h.posted, nvPosted := h.nvPosted }
  { f with
    sys := { h.sys with lastReset := 2, orderly := none }
    isl := h.isl
    time := { timeKept h h.time.gap with
      span := h.time.span, steps := h.time.steps, qchanges := h.time.qchanges, capNs := h.time.capNs, fracLatch := h.time.fracLatch, lastStep := h.time.lastStep
      stepped := h.time.stepped }
    prot := h.prot, regs := { h.regs with half := none, irqen := 0 }
    cmd := { chans := h.cmd.chans.map (fun c => { c with irqen := 0, submitted := none }), keys := h.cmd.keys, notice := h.cmd.notice, lateReplies := h.cmd.lateReplies, nextId := h.cmd.nextId
             rid := h.cmd.rid }
    log := { h.log with nvOn := false }
    res := { h.res.counted with drbgOk := h.res.drbgOk, drbg := h.res.drbg }
    dig := h.dig.counted, xs := h.xs.counted, ens := h.ens.counted, casc := h.casc.counted, fab := h.fab.counted, sb := h.sb.counted
    bc := { lateAcks := h.bc.lateAcks }, mgt := h.mgt.counted, mem := h.mem.counted, dma := h.dma.counted
    trc := { h.trc.counted with erg := ergKept h.trc }, nid := h.nid.counted }

/-- What a wake from DORMANT keeps (R600, R602): what the island retains, and TB with the gap. -/
def wakeClear (h : Hub) : Hub :=
  let f : Hub := { free := h.free, reports := h.reports, posted := h.posted, nvPosted := h.nvPosted }
  let l := h.log
  { f with
    sys := { pinsOf h.sys with st := .dormant, lastReset := 3, pllLocked := h.sys.pllLocked, sense := h.sys.sense, unprov := h.sys.unprov
                               seenConfig := h.sys.seenConfig }
    isl := h.isl
    time := timeKept h (some (h.isl.dormantTb, nowNs h, 0))
    prot := { h.prot with bwLocked := 0, refused := 0, ignored := 0 }
    cmd := { keys := h.cmd.keys
             chans := h.cmd.chans.map (fun c => { enabled := c.enabled, domain := c.domain, job := c.job, follow := c.follow }) }
    log := { bedrock := l.bedrock, rseq := l.rseq, bootseq := l.bootseq, full := l.full, mirrored := l.mirrored, sent := l.sent, soff := l.soff
             nvKnown := l.nvKnown, nvBase := l.nvBase, sector := l.sector, logSize := l.logSize, nvptr := l.nvptr, slotPtr := l.slotPtr
             erased := l.erased }
    ens := { passNo := h.ens.passNo }, res := { drbgOk := 0xFF } }

/-! Entry to CONFIG. -/

/-- The units' intervals start again at the entry to CONFIG (R69). -/
def startTimers (h : Hub) : Hub :=
  let now := nowNs h
  { h with
    time := { h.time with lastSync := now }
    regions := List.replicate 8 { lastEdge := now, stopTb := now, resumeTb := now }
    sb := { h.sb with lastBeat := now, lastSync := now }
    fab := { h.fab with filled := now }
    casc := { h.casc with lastScan := now, lastQuick := now, windowTb := now, window := now / 1000000 }
    age := { h.age with
      lastTick := now / 100000 * 100000, lastPersist := now, lastConc := now
      zones := h.age.zones.map (fun z => { z with lastPlan := now }) } }

/-- The cells of removed cores drive LC_HOLD = 0b10 from the reset on (R597). -/
def holdRemoved (h : Hub) : Hub := h.isl.removed.foldl (fun h p => onCell p.1 (fun x => { x with hold := 2 }) h) h

/-- The removal memory restores the verdicts of the cores it names (R597). -/
def restoreRemoved (e : Env) (h : Hub) : Hub :=
  h.isl.removed.foldl (fun h p => onEnt (coreId e h p.1) (fun s => { s with verdict := p.2, prior := p.2 }) h) h

/-- The records that open an entry to CONFIG: DORMANT_WARN before any other (R33), the change of state, LATCHED (R32), UNPROVISIONED (R576), REFCLK's losses and returns (R40). -/
def configRecords (old : BlockState) (h : Hub) : Hub :=
  let i := h.isl
  let h := if old == .dormant && (decide (i.warnings > 0) || decide (i.failedWakes > 0)) then
      emit 12 1 0 noEnt 61 3 ([w32 i.warnings] ++ w64 i.firstWarn ++ w64 i.lastWarn ++ [w32 i.failedWakes]) h
    else h
  let h := emitState 0 [w32 old.code, w32 BlockState.config.code] h
  let h := if i.latched then emit 12 1 0 noEnt 61 2 [] h else h
  let h := if h.sys.unprov && !h.sys.seenConfig then emit 8 1 0 noEnt 60 3 [] h else h
  let h := i.refRecs.foldl (fun h p => emit 12 1 0 noEnt 61 4 (w32 (b2n p.1) :: w64 p.2) h) h
  onSys (fun s => { s with seenConfig := true }) (onIsl (fun i => { i with
    refRecs := [], latched := false, warnings := 0, firstWarn := 0, lastWarn := 0, failedWakes := 0, asking := false, mainOffOk := false, wakeHeld := false, released := false }) h)

/-- Entry to CONFIG, given what the reset or wake has left. The protection wait starts at its 10 s (R588). -/
def enterConfig (e : Env) (old : BlockState) (h : Hub) : Hub :=
  let h := irq 0 (onSys (fun s => { s with st := .config, playaCause := 0 }) h)
  let h := startTimers { h with boot := { protUntil := some (nowNs h + 10000000000) }, img := none }
  let h := configRecords old (holdRemoved h)
  retarget e 4 (setQuality (qualityNow h) h)

/-- FUSE completes (R32, R38, R574, R576, R593): both sensing passes have ended, the PLL is locked, BLKRST_N is released, and no warning is
asserted or held. The block enters CONFIG, a new boot, or PLAYA when the fuse read failed. -/
def fuseEnds (h : Hub) : Bool :=
  h.sys.st == .fuse && h.sys.sense.isSome && h.sys.pllLocked && !h.sys.blkrstLow && !h.sys.pfwLow && h.log.holdUntil.isNone

/-! Entry to PLAYA. -/

/-- Entry to PLAYA (R589, R590): the digest epochs are freed; seals, compare buffers, exact-sum contexts, open rounds and prepared
broadcasts are cleared; the node address is what `img` gives; the sideband and the management port start again on the fallback values. The time quality is kept, but for a source that the fallback changes. -/
def enterPlaya (e : Env) (cause : Nat) (img : Option Image) (h : Hub) : Hub :=
  let old := h.sys.st
  let reacquire := old == .fuse || decide (h.time.source ≠ 1)
  let h := freeEpochs h
  let h := { h with
    dig := { h.dig with seals := [], buf0 := none, buf1 := none }
    xs := { h.xs with rounds := [], carry := [], norms := [], queue := [], lanes := [] }
    bc := { h.bc with held := [], apply := [] }
    sb := { h.sb.counted with lastBeat := nowNs h, lastSync := nowNs h }
    mgt := h.mgt.counted, mem := if h.boot.applied then h.mem else h.mem.counted, img := img
    time := { h.time with source := 1 }
    boot := { h.boot with selected := none, delivered := none, waitUntil := none, applied := false, writeBack := false } }
  let h := irq 0 (onSys (fun s => { s with st := .playa, playaCause := BitVec.ofNat 3 cause }) h)
  let h := emitState 0 [w32 old.code, w32 BlockState.playa.code, w32 cause] h
  let h := if reacquire then setQuality (qualityNow h) h else h
  let h := if e.tray then enableSeg true (enableSeg false h) else h
  restoreRemoved e (retarget e 4 h)

/-- FUSE is checked for its end. -/
def fuseCheck (e : Env) (h : Hub) : Hub :=
  if !fuseEnds h then h
  else
    let h := onSys (fun s => { s with unprov := e.noKey && !e.debugDis }) { h with res := { h.res with drbgOk := 0xFF } }
    if h.sys.sense = some true then enterConfig e .fuse h
    else
      let h := startTimers { h with boot := {}, img := none }
      enterPlaya e 1 none (holdRemoved h)

/-! Requests for a transition (R30, R34, R594, R600). -/

/-- Enter DROWSE (R292): the scan period becomes 10 ms. -/
def enterDrowse (h : Hub) : Hub := setPeriod 10000000 (toState .drowse h)

/-- An orderly flush starts (R569). -/
def startOrderly (w : Wanted) (h : Hub) : Hub :=
  onSys (fun s => { s with orderly := some w }) (onLog (fun l => { l with flush := some { c0 := nowNs h, orderly := true } }) h)

/-- A CONFIG reset by command (R594): the ageing delta and every record not yet mirrored are written first. -/
def commandConfig (e : Env) (h : Hub) : Hub :=
  let old := h.sys.st
  let h := (deltaPayloads h).foldl (fun h p => emit 14 0 0 noEnt 12 0 p h) h
  let h := acceptAll e 64 h
  let h := if h.log.nvOn then mirrorAll 1024 h else h
  enterConfig e old (configClear h)

/-- Is a transition admitted from the present state (Table 1.9)? -/
def transitionOk (w : Wanted) (h : Hub) : Bool :=
  match w with
  | .serving => h.sys.st == .drowse
  | .drowse => h.sys.st == .serving
  | .dormant => h.sys.st == .drowse
  | .blockReset => alive h || h.sys.st == .dormant
  | .configReset => alive h

/-- Start an admitted transition. -/
def startTransition (e : Env) (w : Wanted) (h : Hub) : Hub :=
  match w with
  | .serving => exitDrowse h
  | .drowse => enterDrowse h
  | .dormant => startOrderly .dormant h
  | .configReset => commandConfig e h
  | .blockReset => if h.sys.st == .dormant then blockReset h else startOrderly .blockReset h

end Sys2Proof.Machine
end

