-- ==== Sys2Proof/Machine/BootOps.lean ====
section
/-!
DEFINITION. The configuration image: its checks, the choice between copies, and its application section by section (R574–R590).
-/
namespace Sys2Proof.Machine

/-! Checks (R579–R581, Tables 16.2 to 16.4). -/

/-- A little-endian word of an image. -/
def imgW (b : List Byte) (o : Nat) : Nat := leAt b o 4
/-- The signed bytes: all but the last 96. -/
def signedPart (b : List Byte) : List Byte := b.take (b.length - 96)
/-- GENERATION -/
def imgGen (b : List Byte) : Nat := imgW b 0x0C

/-- The section table: type, offset, length, reserved word of each entry. -/
def sectTable (b : List Byte) : List (Nat × Nat × Nat × Nat) :=
  (List.range (imgW b 0x10)).map (fun i => let o := 0xA0 + 16 * i; (imgW b o, imgW b (o + 4), imgW b (o + 8), imgW b (o + 12)))

/-- The bytes of every section of a type, in table order. -/
def sectsOf (b : List Byte) (ty : Nat) : List (List Byte) :=
  ((sectTable b).filter (fun s => decide (s.1 = ty))).map (fun s => (b.drop s.2.1).take s.2.2.1)

/-- Two sections share a byte. -/
def sectsMeet (x y : Nat × Nat × Nat × Nat) : Bool := decide (x.2.1 < y.2.1 + y.2.2.1) && decide (y.2.1 < x.2.1 + x.2.2.1)

/-- No two elements of a list are related. -/
def noPair {α : Type} (r : α → α → Bool) : List α → Bool
  | [] => true
  | a :: t => !t.any (r a) && noPair r t

/-- The stages that the role must have an ensemble for (R286, Table 16.3). -/
def stageNeeded (e : Env) : Stage := if e.tray then .screen else .frond

/-- Step 7: the section table (Table 16.4). -/
def sectionsOk (e : Env) (b : List Byte) : Bool :=
  let t := sectTable b
  let n := fun ty => (t.filter (fun s => decide (s.1 = ty))).length
  let ens := (sectsOf b 7).map Config.ensemble
  t.all (fun s => decide (1 ≤ s.1) && decide (s.1 ≤ 11) && decide (s.2.1 % 8 = 0) && decide (s.2.1 + s.2.2.1 ≤ b.length - 96) &&
      decide (0xA0 + 16 * t.length ≤ s.2.1) && decide (s.2.2.2 = 0)) &&
    noPair sectsMeet t && [1, 2, 3, 4, 5, 6, 11].all (fun ty => decide (n ty ≥ 1)) &&
    [1, 3, 4, 5, 6, 8, 9, 10, 11].all (fun ty => decide (n ty ≤ 1)) && decide (n 7 ≤ 16) &&
    ens.any (fun x => x.any (fun s => s.stage == stageNeeded e)) &&
    ens.all (fun x => x.any (fun s => sha384 (e.nvRead s.nvAddr s.length) == s.sha))

/-- The public key as one number, X then Y. -/
def pubKey (b : List Byte) : Nat := beAt b 0x40 96

/-- The first check of Table 16.4 that fails, or none for a valid image. -/
def imageStep (e : Env) (b : List Byte) : Option Nat :=
  let len := b.length
  let w1 := imgW b 0x04
  if imgW b 0 ≠ 0x53564331 ∨ bitsOf w1 15 0 ≠ 1 ∨ imgW b 8 ≠ len ∨ len < 1024 ∨ len > 4194304 ∨ imgW b 0x10 = 0 ∨ imgW b 0x10 > 64 ∨
      bitsOf w1 31 18 ≠ 0 ∨ zeros b 0x18 0x28 = false then some 1
  else if (crc32c (b.take 0x14 ++ [0, 0, 0, 0] ++ (signedPart b).drop 0x18)).toNat ≠ imgW b 0x14 then some 2
  else if (if e.noKey then e.debugDis else decide ((sha384 ((b.drop 0x40).take 96)).toNat ≠ e.fuse 493 110)) then some 3
  else if !ecdsaOk (pubKey b) (sha384 (signedPart b)).toNat (beAt b (len - 96) 48) (beAt b (len - 48) 48) then some 4
  else if imgGen b = 0 ∨ imgGen b < e.fuse 109 78 then some 5
  else if bitOf w1 16 != e.tray then some 6
  else if !sectionsOk e b then some 7
  else none

/-- The bytes of NV copy A (0) or B (1), as long as its header says; a header that cannot be one gives itself. -/
def nvCopy (e : Env) (i : Nat) : List Byte :=
  let base := 0x400000 * i
  let n := leNat (e.nvRead (base + 8) 4)
  if 1024 ≤ n ∧ n ≤ 4194304 then e.nvRead base n else e.nvRead base 0xA0

/-! The choice (R582, Table 16.5). -/

/-- What the candidates give. -/
inductive Chosen where
  | nothing | conflict | image (b : List Byte) (fromLoad : Bool)

/-- Choose among the valid candidates: the NV copies that are valid, and the image delivered. -/
def chooseImage (copies : List (List Byte)) (delivered : Option (List Byte)) : Chosen :=
  let all := copies ++ delivered.toList
  let top := (all.map imgGen).foldl max 0
  let best := all.filter (fun b => decide (imgGen b = top))
  match best with
  | [] => .nothing
  | b :: t =>
    if !t.all (fun x => decide (signedPart x = signedPart b)) then .conflict
    else
      let inNv := copies.any (fun x => decide (signedPart x = signedPart b))
      .image b (!inNv)

/-! Protection setup (R477, R478, R587, R624). -/

/-- The writable bits of PROT_CHc: JOB, FOLLOW, DOMAIN, ENABLE. -/
def protBits (v : Nat) : Nat := bitsOf v 31 16 * 2 ^ 16 + bitsOf v 4 4 * 16 + bitsOf v 2 0

/-- A PROT_CHc value takes its place. One that names BOOT, or DEBUG while the fuse forbids it, leaves the channel disabled, and is recorded
and counted (R478, R624). -/
def protPut (e : Env) (c : Nat) (v : Nat) (h : Hub) : Hub :=
  let d := bitsOf v 2 1
  let bad := decide (d = 0) || (decide (d = 3) && e.debugDis)
  let w := protBits v
  let h := { h with prot := { h.prot with ch := setAt h.prot.ch c (BitVec.ofNat 64 (if bad then w / 2 * 2 else w)) } }
  if bad then refusedWrite 11 (8 + 8 * c) (BitVec.ofNat 64 v) { h with prot := { h.prot with refused := h.prot.refused + 1 } } else h

/-- A channel as the lock makes it (R477, R624). -/
def lockChannel (v : Nat) (c : Channel) : Channel :=
  { c with
    enabled := bitOf v 0 && decide (bitsOf v 2 1 ≠ 0), domain := BitVec.ofNat 2 (bitsOf v 2 1), job := BitVec.ofNat 16 (bitsOf v 31 16)
    follow := bitOf v 4 }

/-- The protection locks: each channel takes its PROT values, and the sequence state of those enabled is cleared (R463, R477, R624). -/
def lockProt (auto : Bool) (h : Hub) : Hub :=
  let chans := (h.cmd.chans.zipIdx).map (fun p => lockChannel (getAt h.prot.ch p.2 0).toNat p.1)
  let on := fun (k : Nat) => decide (k < 4) && (getAt chans k {}).enabled
  { h with
    prot := { h.prot with locked := true, auto := auto }
    cmd := { h.cmd with chans := chans, seqs := h.cmd.seqs.filter (fun q => !on q.1) } }

/-! Sections (R586). A section's application gives the changed hub and image, or the setting number and the rule that failed. -/

/-- What applying a section gives. -/
abbrev Applied := Sum (Nat × Nat) (Hub × Image)

/-- IDENTITY (Table 1.11). -/
def applyIdentity (b : List Byte) (h : Hub) (i : Image) : Applied :=
  match Config.identity b with
  | none => .inl (0, 580)
  | some (tray, engine, trays, dies) =>
    if trays > 1024 ∨ dies > 131072 ∨ tray ≥ 1024 ∨ engine > 1 then .inl (0, 36)
    else let i := { i with tray := tray, engine := engine, trays := trays, fleetDies := dies }; .inr ({ h with img := some i }, i)

/-- Little-endian words of a section. -/
def leWords (b : List Byte) : List Word := (List.range (b.length / 4)).map (fun k => BitVec.ofNat 32 (leAt b (4 * k) 4))

/-- One setting of the image: the opcode whose table numbers it, the number and the value (Table 16.3). Settings of single cores go to every
present core. None when the value is not legal, with the rule of its table. -/
def applySetting (e : Env) (op num : Nat) (v : List Word) (h : Hub) : Sum Nat Hub :=
  let r := fun (rule : Nat) (o : Option Hub) => match o with
    | some h => Sum.inr h
    | none => .inl rule
  let cores := (List.range 2048).filter e.present
  match op with
  | 0x11 => r 643 ((timeSetting num v h.time).map (fun t => sourceChanged h.time.source { h with time := t }))
  | 0x20 => r 83 ((cellSetting num v (List.replicate 16 {}, false)).bind (fun _ =>
      if num = 17 then none
      else some (cores.foldl (fun h c =>
        match cellSetting num v ((hubc h c).sels, false) with
        | some a => onCell c (fun x => { x with sels := a.1 }) (onHubc c (fun x => { x with sels := a.1 }) h)
        | none => h) h)))
  | 0x23 => r 91 ((watchSetting num v {}).map (fun _ => cores.foldl (fun h c =>
      match watchSetting num v (hubc h c).watch with
      | some a => onCell c (fun x => { x with watch := { x.watch with set := a } }) (onHubc c (fun x => { x with watch := a }) h)
      | none => h) h))
  | 0x30 => r 157 ((resDieSetting num v { die := h.res }).map (fun a =>
      let h := { h with res := a.die }
      if a.cores then cores.foldl (fun h c => resToCore a.bounded a.required a.uacc c h) h else h))
  | 0x40 => r 202 ((digSetting num v h.dig.cfg).map (fun d => applyDigCfg d h))
  | 0x70 => r 645 ((polSetting num v h.casc.policy).map (fun p => onCasc (fun c => { c with policy := p }) h))
  | 0x80 => r 357 ((ageSetting num v h.age).map (fun a => { h with age := a }))
  | 0x90 => r 511 ((trcSetting num v h.trc.set).map (fun t => onTrc (fun x => { x with set := t }) h))
  | 0x92 => r 511 ((nidSetting num v h.nid).map (fun n => { h with nid := n }))
  | _ => .inl 475

/-- The settings of a section, each an opcode word and a setting record (R475). -/
def applySettings (e : Env) : Nat → List Word → Hub → Sum (Nat × Nat) Hub
  | _, [], h => .inr h
  | 0, _, _ => .inl (0, 475)
  | n + 1, op :: w :: t, h =>
    let cnt := bitsOf w.toNat 15 8
    let num := bitsOf w.toNat 31 16
    if bitsOf w.toNat 7 0 ≠ 0 ∨ t.length < cnt then .inl (num, 475)
    else match applySetting e op.toNat num (t.take cnt) h with
      | .inl rule => .inl (num, rule)
      | .inr h => applySettings e n (t.drop cnt) h
  | _, _, _ => .inl (0, 475)

/-- Settings that must agree with each other: the quick period, quotas, ageing limits and trace settings. -/
def settingsAgree (e : Env) (h : Hub) : Option Nat :=
  let p := h.casc.policy
  if p.quick > p.pcfg then some 288
  else if !kindsFit e p then some 293
  else if !slotsDistinct p.quotas ∨ (p.quotas.map Quota.arrays).sum > 8 ∨ (p.quotas.map Quota.pages).sum > 128 ∨
      (p.quotas.map Quota.rows).sum > 2048 then some 277
  else if !ageOk h.age then some 357
  else if !trcOk e h.trc.set then some 511
  else none

/-- Tray-role ports on distinct dies of an engine (R382). -/
def enginePorts (m : Mesh) (engine : Nat) : Nat :=
  ((m.ports.filterMap (fun x => match x with
    | .die d _ => if d.toNat / 64 % 2 = engine then some d.toNat else none
    | _ => none)).dedup).length

/-- MESH (R382). -/
def applyMesh (b : List Byte) (h : Hub) (i : Image) : Applied :=
  match Config.mesh b with
  | none => .inl (0, 382)
  | some m =>
    if enginePorts m 0 < 2 ∨ enginePorts m 1 < 2 then .inl (0, 382)
    else if (m.dies.filter (fun d => decide (d.1 / 128 = i.tray))).length > 128 then .inl (0, 36)
    else .inr (h, { i with mesh := m })

/-- Settings of one range (Table 14.2, Table 14.3). -/
def rangeOk (r : Range) : Bool :=
  let k := Nat.log2 r.n
  [1, 2, 4, 8, 16, 32].contains r.n && decide (r.c0 % r.n = 0) && decide (r.c0 + r.n ≤ 32) && decide (r.base % 65536 = 0) &&
    decide (65536 ≤ r.size) && decide (r.size ≤ 2 ^ 40) && decide (r.size % (65536 * r.n) = 0) && decide (r.localBase % 65536 = 0) &&
    (r.block || (decide (r.masks.length = k) && (r.masks.zipIdx).all (fun m => decide (m.1.toNat % 2 ^ k = 2 ^ m.2))))

/-- Two ranges of a tier share a byte address, or two ranges share a line of an attachment (R520). -/
def rangesMeet (a b : Range) : Bool :=
  (a.tier == b.tier && decide (a.base < b.base + b.size) && decide (b.base < a.base + a.size)) ||
  (decide (a.c0 < b.c0 + b.n) && decide (b.c0 < a.c0 + a.n) && decide (a.localBase < b.localBase + b.size / b.n) &&
    decide (b.localBase < a.localBase + a.size / a.n))

/-- The RESERVED range (R520). -/
def reservedOk (e : Env) (l : List Range) : Bool :=
  match l.filter (fun r => r.tier == .reserved) with
  | [r] => r.block && decide (r.n = 32) && decide ((if e.tray then 1152 else 128) * 2 ^ 20 ≤ r.size) && decide (r.size ≤ 32 * 2 ^ 30)
  | _ => false

/-- The ranges come into force, with masks drawn for each BLOCK range (R525). -/
def takeRanges : List Range → Hub → Hub
  | [], h => h
  | r :: t, h =>
    let k := Nat.log2 r.n
    if r.block then takeRanges t (drawn (onMem (fun m => { m with ranges := m.ranges ++ [{ r := { r with masks := drawMasks k h.free } }] }) h) k)
    else takeRanges t (onMem (fun m => { m with ranges := m.ranges ++ [{ r := r }] }) h)

/-- MEMORY (R520, R524). -/
def applyMemory (e : Env) (b : List Byte) (h : Hub) (i : Image) : Applied :=
  match Config.memory b with
  | none => .inl (0, 520)
  | some l =>
    if l.isEmpty ∨ l.length > 8 ∨ !l.all rangeOk ∨ !noPair rangesMeet l ∨ !reservedOk e l then .inl (0, 520)
    else .inr (takeRanges l (onMem (fun m => { m with ranges := [] }) h), { i with ranges := l })

/-- An entity number names a core of this die that is absent (R104). -/
def absentCore (e : Env) (h : Hub) (k : Nat) : Bool :=
  let x : Word := BitVec.ofNat 32 k
  match ownCore e h x with
  | some c => !e.present c
  | none => false

/-- FEATURE_MAP (R262, R263): in die role the rows are allocated once, each filled with the missing marker; an absent core gets none (R104). -/
def applyFeatures (e : Env) (b : List Byte) (h : Hub) (i : Image) : Applied :=
  match Config.features b with
  | none => .inl (0, 262)
  | some f =>
    if f.rows.length > 8192 then .inl (0, 263)
    else
      let h := if e.tray then h else onEns (fun x => { x with rows := (f.rows.filter (fun k => !absentCore e h k)).foldl (fun t k => Tab.put t k {}) [] }) h
      .inr (h, { i with features := f })

/-- TELEMETRY (R18, R221, R227). -/
def applyTelemetry (b : List Byte) (h : Hub) (i : Image) : Applied :=
  match Config.telemetry b with
  | none => .inl (0, 227)
  | some (w, figs, g) =>
    if w < 100000 ∨ w > 100000000 then .inl (0, 18)
    else if figs.any (fun f => !geomOk f.op.toNat f.geom.toNat) then .inl (0, 217)
    else .inr (h, { i with windowNs := w, figures := figs, fleet := g })

/-- An ENSEMBLE section: the stage runs in the role, and the image in NV passes its load checks and becomes ACTIVE (R286, R586, Table 7.8). -/
def applyEnsemble (e : Env) (b : List Byte) (h : Hub) (i : Image) : Applied :=
  match Config.ensemble b with
  | none => .inl (0, 580)
  | some s =>
    let bytes := e.nvRead s.nvAddr s.length
    let wrong := match s.stage with
      | .frond => e.tray
      | .screen => !e.tray
      | .confirm => !e.tray
      | .other => false
    if wrong = true ∨ s.slot > 15 then .inl (s.slot, 286)
    else if imageCheck h s.slot s.length none bytes ≠ stOk then .inl (s.slot, 271)
    else .inr (onSlot s.slot (fun x => { x with active := some (withPages h (imageGen bytes)) }) h, { i with ensembles := i.ensembles ++ [s] })

/-- SCORING (R302): 1–16 members, 64 exchange words a kind. -/
def applyScoring (b : List Byte) (h : Hub) (i : Image) : Applied :=
  match Config.scoring b with
  | none => .inl (0, 302)
  | some s =>
    if s.members.isEmpty ∨ s.members.length > 16 ∨ s.words.any (fun w => decide (w.2.length > 64)) then .inl (0, 302)
    else .inr (h, { i with scoring := some s })

/-- DETECTORS (R293). -/
def applyDetectors (e : Env) (b : List Byte) (h : Hub) (i : Image) : Applied :=
  match Config.detectors b with
  | none => .inl (0, 293)
  | some l =>
    if detectorsOk l && l.all (fun d => kindScored e.tray d.kind) then .inr (h, { i with detectors := l })
    else .inl (0, 293)

/-- PROT (R587): the section's values enter the PROT fields while the setup is open. -/
def applyProt (e : Env) (b : List Byte) (h : Hub) (i : Image) : Applied :=
  match Config.prot b with
  | none => .inl (0, 587)
  | some l =>
    let h := if h.prot.locked then h else ((l.take 4).zipIdx).foldl (fun h p => protPut e p.2 p.1.toNat h) h
    .inr (h, { i with prot := some l })

/-- The RECORDER section's values when they are within their limits (Table 15.10). -/
def recorderOf (b : List Byte) : Option (Nat × Nat × Nat) :=
  (Config.recorder b).filter (fun x =>
    decide (0x800000 ≤ x.1) && [4096, 8192, 16384, 32768, 65536, 131072, 262144].contains x.2.1 && decide (x.1 % x.2.1 = 0) &&
      decide (2 ^ 20 ≤ x.2.2) && decide (x.2.2 ≤ 2 ^ 26) && decide (x.2.2 % x.2.1 = 0))

/-- RECORDER (R555). -/
def applyRecorder (e : Env) (b : List Byte) (h : Hub) (i : Image) : Applied :=
  match recorderOf b with
  | none => .inl (0, 555)
  | some (base, sector, size) => .inr (recorderKnown e base sector size h, i)

/-- One section by its type. -/
def applySection (e : Env) (ty : Nat) (b : List Byte) (h : Hub) (i : Image) : Applied :=
  match ty with
  | 1 => applyIdentity b h i
  | 2 => match applySettings e (b.length + 1) (leWords b) h with
    | .inl x => .inl x
    | .inr h => .inr (h, i)
  | 3 => applyMesh b h i
  | 4 => applyMemory e b h i
  | 5 => applyFeatures e b h i
  | 6 => applyTelemetry b h i
  | 7 => applyEnsemble e b h i
  | 8 => applyScoring b h i
  | 9 => applyDetectors e b h i
  | 10 => applyProt e b h i
  | 11 => applyRecorder e b h i
  | _ => .inl (0, 580)

/-- AUTOLOCK takes its place behind DETECTORS and PROT, before RECORDER (R587). -/
def autoLock (i : Image) (h : Hub) : Hub := if i.autolock && !h.prot.locked then lockProt true h else h

/-- The sections in the order of Table 16.3: the type that failed with its setting and rule, or the hub and image. On a failure the hub as
it stands then comes with it. -/
def applyAll (e : Env) (b : List Byte) : List (Nat × List Byte) → Hub → Image → Hub × Image × Option (Nat × Nat × Nat)
  | [], h, i => (h, i, none)
  | (ty, s) :: t, h, i =>
    let h := if ty = 11 then autoLock i h else h
    match applySection e ty s h i with
    | .inl (num, rule) => (h, i, some (ty, num, rule))
    | .inr (h, i) => applyAll e b t h i

/-- Sections in the order of Table 16.3. -/
def orderedSects (b : List Byte) : List (Nat × List Byte) :=
  (List.range 12).flatMap (fun ty => (sectsOf b ty).map (fun s => (ty, s)))

/-- The settings of a management segment are within Table 11.2. -/
def segSetOk (x : Config.SegSet) : Bool :=
  segcfgOk .whole x.cfg && decide (100000000 ≤ x.silence) && decide (x.silence ≤ 60000000000) && decide (x.rxLat ≤ 65535) &&
    decide (x.txLat ≤ 65535)

/-- The other settings of the image are within their ranges: the rule of the first that is not. -/
def extraBad (x : Config.Extra) : Option Nat :=
  let r := fun (rule lo hi v : Nat) => (rule, decide (lo ≤ v) && decide (v ≤ hi))
  ([r 377 1250000000 400000000000 (x.linkRate / 8), r 377 1 100 x.share, r 533 8 32 x.blockCh, r 497 0 63 x.traceCh,
    r 599 100000 1000000000 x.drowseDelay, r 568 1000000 1000000000 x.recHold, r 588 1000000000 600000000000 x.protWait,
    r 392 10000 10000000 x.beatPeriod, r 396 125000 100000000 x.syncInt, r 395 1000000 1000000000 x.sbPdelay, r 400 10000 1000000 x.tack,
    r 405 10000000 10000000000 x.prepHold, r 470 1000000 1000000000 x.relayTimeout, r 518 10000 10000000 x.memTimeout,
    r 526 500000000 16000000000 x.migRate, r 528 600000000000 86400000000000 x.rekeyHold, r 528 1100 8000 x.skewMilli,
    r 265 5000 5000000 x.assembly, r 230 10000 10000000 x.memberTimeout, r 230 100000 100000000 x.resultTimeout,
    r 436 125000000 32000000000 x.mgtPdelay, (418, segSetOk x.segA), (418, segSetOk x.segB),
    (428, decide (1024 ≤ bitsOf x.portcfg.toNat 31 16))].find? (fun p => !p.2)).map Prod.fst

/-- A management segment takes its settings, and an enabled one leaves reset (R417). -/
def takeSeg (b : Bool) (x : Config.SegSet) (h : Hub) : Hub :=
  let h := onSeg b (fun s => { s with cfg := x.cfg, silence := x.silence, rxLat := x.rxLat, txLat := x.txLat }) h
  if segOn (seg h b) then enableSeg b h else h

/-- The other settings of the image come into force. -/
def takeExtra (e : Env) (x : Config.Extra) (h : Hub) (i : Image) : Hub × Image :=
  let h := { h with
    boot := { h.boot with drowseDelay := x.drowseDelay, recHold := x.recHold, protWait := x.protWait
                          protUntil := h.boot.protUntil.map (fun t => t - h.boot.protWait + x.protWait) }
    sb := { h.sb with beatPeriod := x.beatPeriod, pdelay := x.sbPdelay }
    time := { h.time with syncInt := x.syncInt }
    bc := { h.bc with tack := x.tack, hold := x.prepHold }
    cmd := { h.cmd with relayTimeout := x.relayTimeout }
    mem := { h.mem with memTimeout := x.memTimeout, migRate := x.migRate, rekeyHold := x.rekeyHold, skewMilli := x.skewMilli }
    ens := { h.ens with assembly := x.assembly }
    xs := { h.xs with memberTimeout := x.memberTimeout, resultTimeout := x.resultTimeout }
    mgt := { h.mgt with portcfg := x.portcfg, active := x.portcfg.getLsbD 32, pdelayInt := x.mgtPdelay } }
  let h := if e.tray then takeSeg true x.segB (takeSeg false x.segA h) else h
  let h := (List.range 8).foldl (fun h r => onZone r (fun z => { z with droopBelow := getAt x.droopBelow r 50 }) h) h
  (h, { i with linkRate := x.linkRate, share := x.share, blockCh := x.blockCh, traceCh := x.traceCh, agePlace := x.agePlace })

/-! The ageing image (R368). -/

/-- A copy of the ageing image whose CRC is good: its generation and bytes. -/
def ageCopy (e : Env) (h : Hub) (copy : Nat) : Option (Nat × List Byte) :=
  let b := e.nvRead (agePlaceOf h copy) (ageBytes 0 {}).length
  let n := b.length - 4
  if (crc32c (b.take n)).toNat = leAt b n 4 then some (leAt b 0 4, b) else none

/-- A margin plan from its eight words (Plan.words). -/
def planOf (ws : List Word) : Plan :=
  let w := fun i => (getAt ws i 0).toNat
  { seq := BitVec.ofNat 16 (w 0), cause := BitVec.ofNat 3 (w 2), offset := signed 16 (w 3), fcap := w 4, smin := signed 16 (w 5)
    tb := w 6 * 2 ^ 32 + w 7 }

/-- The later of two values of a bin: its fields never fall (R350). -/
def Bin.later (a b : Bin) : Bin :=
  { residence := max a.residence b.residence, residue := max a.residue b.residue, audit := max a.audit b.audit
    digest := max a.digest b.digest, tfail := max a.tfail b.tfail, tpass := max a.tpass b.tpass, other := max a.other b.other }

/-- What a block has counted since it entered CONFIG comes on top of what NV holds. -/
def Bin.onto (a b : Bin) : Bin :=
  { residence := sat 40 (a.residence + b.residence), residue := sat 16 (a.residue + b.residue), audit := sat 16 (a.audit + b.audit)
    digest := sat 16 (a.digest + b.digest), tfail := sat 16 (a.tfail + b.tfail), tpass := sat 16 (a.tpass + b.tpass)
    other := sat 8 (a.other + b.other) }

/-- The planes of a copy. -/
def ageCopyPlanes (b : List Byte) : List (Tab Bin) :=
  (List.range 9).map (fun p => (List.range 1024).filterMap (fun k =>
    let v := leAt b (4 + 16 * (1024 * p + k)) 16
    if v = 0 then none else some (k, Bin.ofWord v)))

/-- The delta records of the drift log: plane, bin and value of each entry. -/
def deltaEntries (e : Env) (h : Hub) : List (Nat × Nat × Bin) :=
  if !h.log.nvKnown then [] else
  ((logRecs e h).filter (fun b => decide (beAt b 0 1 = 14) && decide (beAt b 21 1 = 0))).flatMap (fun b =>
    (List.range ((b.length - 24) / 20)).map (fun i =>
      let w := beAt b (24 + 20 * i) 4
      (bitsOf w 13 10, bitsOf w 9 0, Bin.ofWord (beAt b (28 + 20 * i) 16))))

/-- Put an entry's later value into planes. -/
def putLater (ps : List (Tab Bin)) (x : Nat × Nat × Bin) : List (Tab Bin) :=
  let t := getAt ps x.1 []
  setAt ps x.1 (Tab.put t x.2.1 (Bin.later (Tab.getD t x.2.1 {}) x.2.2))

/-- Offset of the hourly points in an ageing image, and of the plans. -/
def ageHourAt : Nat := 4 + 16 * 9216
/-- Offset of the plans in an ageing image. -/
def agePlanAt : Nat := ageHourAt + 4 * 5760
/-- The hourly points of a zone in an ageing image. -/
def ageHourly (b : List Byte) (z : Nat) : List Word :=
  ((List.range 720).map (fun i => BitVec.ofNat 32 (leAt b (ageHourAt + 4 * (720 * z + i)) 4))).filter (fun w => w != missing)
/-- The plan of a zone in an ageing image. -/
def agePlan (b : List Byte) (z : Nat) : Plan :=
  planOf ((List.range 8).map (fun i => BitVec.ofNat 32 (leAt b (agePlanAt + 32 * z + 4 * i) 4)))
/-- Bins counted so far added onto the bins of an image. -/
def mergePlanes (now kept : List (Tab Bin)) : List (Tab Bin) :=
  (List.range 9).map (fun p => (getAt now p []).foldl (fun t x => Tab.put t x.1 (Bin.onto (Tab.getD t x.1 {}) x.2)) (getAt kept p []))
/-- The newer of the two ageing images that pass their checks. -/
def newerCopy (a b : Option (Nat × List Byte)) : Nat × List Byte :=
  match a, b with
  | some x, some y => if x.1 > y.1 then x else y
  | some x, none => x
  | none, y => y.getD (0, [])
/-- The ageing image taken over. -/
def takeAge (now : List (Tab Bin)) (planes : List (Tab Bin)) (pick : Nat × List Byte) (u : AgeU) : AgeU :=
  { u with
    planes := mergePlanes now planes, nvgen := w32 pick.1
    zones := (u.zones.zipIdx).map (fun z => { z.1 with hourly := ageHourly pick.2 z.2, current := agePlan pick.2 z.2 }) }

/-- Load the ageing image (R368): the copy of higher generation whose CRC is good with the newer delta records, or zero histograms and a
record of the loss. -/
def loadAge (e : Env) (h : Hub) : Hub :=
  let a := ageCopy e h 0
  let b := ageCopy e h 1
  if a.isNone && b.isNone then emit 14 1 0 (unitId e h 12) 12 5 [] (onAge (fun a => { a with nvLost := true }) h)
  else
    let pick := newerCopy a b
    onAge (takeAge h.age.planes ((deltaEntries e h).foldl putLater (ageCopyPlanes pick.2)) pick) h

/-! The whole application. -/

/-- CONFIG failed (R586): the record names section, setting number and rule; the protection setup stands as it is, and the RECORDER
section serves when it passes its checks (R590). -/
def configFails (e : Env) (b : List Byte) (h0 h : Hub) (i : Image) (f : Nat × Nat × Nat) : Hub :=
  let h1 := { h0 with prot := h.prot, cmd := h.cmd, log := h.log, regs := h.regs, nvPosted := h.nvPosted }
  let h1 := match ((sectsOf b 11).head?).bind recorderOf with
    | some (base, sector, size) => recorderKnown e base sector size h1
    | none => h1
  let named : Option Image := if f.1 = 1 then none else some { tray := i.tray, engine := i.engine, trays := i.trays, fleetDies := i.fleetDies }
  enterPlaya e 4 named (emit 8 2 0 noEnt 60 1 [w32 f.1, w32 f.2.1, w32 f.2.2] h1)

/-- Apply the selected image (R586). -/
def applyImage (e : Env) (b : List Byte) (h : Hub) : Hub :=
  let i0 : Image := { generation := w32 (imgGen b), hier6 := bitOf (imgW b 4) 16, autolock := bitOf (imgW b 4) 17 }
  let r := applyAll e b (orderedSects b) h i0
  match r.2.2 with
  | some f => configFails e b h r.1 r.2.1 f
  | none =>
    match settingsAgree e r.1, Config.extraOf b with
    | some rule, _ => configFails e b h r.1 r.2.1 (2, 0, rule)
    | none, none => configFails e b h r.1 r.2.1 (2, 0, 475)
    | none, some x =>
      match extraBad x with
      | some rule => configFails e b h r.1 r.2.1 (2, 0, rule)
      | none =>
        let p := takeExtra e x r.1 r.2.1
        let h := { p.1 with img := some p.2, boot := { p.1.boot with applied := true } }
        let h := (Config.fuseValues b).foldl (fun h v =>
          if e.fuse v.1 v.2.1 = v.2.2 then h else emit 8 1 0 noEnt 60 2 [w32 v.1, w32 v.2.1, w32 v.2.2] h) h
        let h := onCasc (fun c => { c with p := c.policy.pcfg, window := nowNs h / (imgOf h).windowNs }) h
        let h := onEns (fun x => { x with quotas := h.casc.policy.quotas }) h
        restoreRemoved e (loadAge e h)

end Sys2Proof.Machine
end

