-- ==== Sys2Proof/Machine/BootCmds.lean ====
section
/-!
DEFINITION. Boot: the choice of an image, its delivery, application and write-back, the protection wait and the entry to SERVING
(R581–R591).
-/
namespace Sys2Proof.Machine

/-- Change the boot unit. -/
def onBoot (f : Boot → Boot) (h : Hub) : Hub := { h with boot := f h.boot }

/-- The record of each NV copy whose check failed: the copy and its first failed step (R581). -/
def recordChecks (e : Env) (h : Hub) : Hub :=
  (List.range 2).foldl (fun h i =>
    match imageStep e (nvCopy e i) with
    | some n => emit 8 1 0 noEnt 60 0 [w32 i, w32 n] h
    | none => h) h

/-- The NV copies that are valid. -/
def validCopies (e : Env) : List (List Byte) := ((List.range 2).map (nvCopy e)).filter (fun b => (imageStep e b).isNone)

/-- A candidate is selected (R582). -/
def select (b : List Byte) (writeBack : Bool) (h : Hub) : Hub :=
  onBoot (fun x => { x with selected := some (b, writeBack), writeBack := writeBack, waitUntil := none }) h

/-- The NV checks end (R581, R582, R584). -/
def endChecks (e : Env) (h : Hub) : Hub :=
  let h := onBoot (fun x => { x with checked := true }) (recordChecks e h)
  match chooseImage (validCopies e) h.boot.delivered with
  | .nothing => onBoot (fun x => { x with waitUntil := some (nowNs h + 1000000000) }) h
  | .conflict => enterPlaya e 3 none h
  | .image b wb => select b wb h

/-- NV_IMAGE_CHECK_DONE (R582). -/
def execNvImageCheckDone (s : State) : Host.Outcome State Fault Refusal :=
  s.run (fun e h => guard (h.sys.st == .config && !h.boot.checked) (endChecks e) h)

/-- A deadline has come. -/
def reached (h : Hub) (t : Option Nat) : Bool := t.any (fun t => decide (t ≤ nowNs h))

/-- IMAGE_WAIT_EXPIRY (R584). -/
def execImageWaitExpiry (s : State) : Host.Outcome State Fault Refusal :=
  s.run (fun e h => guard (h.sys.st == .config && h.boot.selected.isNone && reached h h.boot.waitUntil &&
    !e.beaten evImage (h.boot.waitUntil.getD 0) (nowNs h)) (enterPlaya e 2 none) h)

/-- Bytes of the boot window (R583): lines of attachment 0 until an image has been applied, an address under the ranges after. -/
def bootRead (e : Env) (h : Hub) (a n : Nat) : Option (List Byte) :=
  if h.mem.ranges.isEmpty then
    if a + n ≤ 2 ^ 40 then some ((List.range n).map (fun i => e.mem.get Mem.ramByte (a + i))) else none
  else readMem e h a n

/-- IMG_LOAD is accepted now from this domain (R583). -/
def imgLoadNow (h : Hub) (c : Ctx) : Bool :=
  (h.sys.st == .config && c.dom == .boot && h.boot.selected.isNone) || (h.sys.st == .playa && fleetDom c)

/-- A valid image arrives in CONFIG: it joins the candidates, or is selected when the block waits for one (R583, R584). -/
def deliver (e : Env) (b : List Byte) (h : Hub) : Hub :=
  let h := onBoot (fun x => { x with delivered := some b }) h
  if h.boot.checked then
    match chooseImage (validCopies e) (some b) with
    | .image x wb => select x wb h
    | .conflict => enterPlaya e 3 none h
    | .nothing => h
  else h

/-- A valid image arrives in PLAYA: after the reply the block returns to CONFIG with it as a candidate (Table 1.9).
Behind an orderly flush the return is held, and the reset that the flush leads to leaves nothing of it (R34). -/
def reboot (e : Env) (b : List Byte) (h : Hub) : Hub :=
  onBoot (fun x => { x with delivered := some b }) (if h.sys.orderly.isSome then h else commandConfig e h)

/-- IMG_LOAD -/
def opImgLoad : OpDef := {
  code := 0xC2, may := fleetDom, form := fun c => decide (c.words.length = 4)
  range := fun _ _ c => firstBad [(3, decide (1024 ≤ c.d 3) && decide (c.d 3 ≤ 4194304))]
  act := fun e h c =>
    if !imgLoadNow h c then refuse stWrongState h
    else match bootRead e h (c.d 1) (c.d 3) with
      | none => refuse stBadParam h 1
      | some b =>
        match imageStep e b with
        | some 2 => refuse stCrcFail h 2
        | some n => refuse stBadParam h n
        | none =>
          if h.sys.st == .config then ok [] (deliver e b h)
          else .later none (fun id h => reboot e b (finish e id stOk 0 [] true h)) }

/-- IMG_LOAD (R583). -/
def execImgLoad (c : Cmd) (s : State) : Host.Outcome State Fault Refusal := s.runOp opImgLoad c

/-- IMAGE_APPLY (R586). -/
def execImageApply (s : State) : Host.Outcome State Fault Refusal :=
  s.run (fun e h => guard (h.sys.st == .config && !h.boot.applied)
    (fun h => match h.boot.selected with
      | some (b, _) => applyImage e b h
      | none => h) h)

/-- The copy that a write-back overwrites (R585): an invalid one, copy B when both are, else the one of lower generation. -/
def writeTarget (e : Env) : Nat :=
  let a := nvCopy e 0
  let b := nvCopy e 1
  let okA := (imageStep e a).isNone
  let okB := (imageStep e b).isNone
  if !okB then 1 else if !okA then 0 else if imgGen a < imgGen b then 0 else 1

/-- The selected image is written to NV memory and read back; a failed write-back leaves the copy erased, is recorded, and does not stop the
block from serving (R585). -/
def writeBackImage (e : Env) (good : Bool) (b : List Byte) (h : Hub) : Hub :=
  let t := writeTarget e
  let h := nvErase e (0x400000 * t) 0x400000 h
  let h := if good then nvPost (0x400000 * t) b h else h
  emit 8 (if good then 0 else 1) 0 noEnt 60 7 [w32 t, w32 (b2n good)] (onBoot (fun x => { x with writeBack := false }) h)

/-- IMAGE_WRITE_BACK (R585). -/
def execImageWriteBack (readBackOk : Bool) (s : State) : Host.Outcome State Fault Refusal :=
  s.run (fun e h => guard (h.sys.st == .config && h.boot.writeBack)
    (fun h => match h.boot.selected with
      | some (b, _) => writeBackImage e readBackOk b h
      | none => h) h)

/-- The units begin with SERVING: the span of TB, the telemetry windows, member dies' heartbeats, the plans kept in NV; expiries that were held for them act (R52, R18, R361, R393, R71). -/
def startServing (e : Env) (h : Hub) : Hub :=
  let now := nowNs h
  let h := restartWindows (toState .serving h)
  let h := match h.time.gap with
    | some (a, b, st) => emitState 3 (w64 a ++ w64 b ++ w64 (st % 2 ^ 64).toNat ++ [h.time.quality.setWidth 32]) h
    | none => h
  let h := { h with
    time := { h.time with span := true, stepped := false, gap := none, due := true }
    casc := { h.casc with windowTb := now, window := now / (imgOf h).windowNs, lastScan := now, lastQuick := now }
    boot := { h.boot with protUntil := none } }
  let h := if e.tray then (trayDies h).foldl (fun h d => onMember d (fun m => { m with last := now }) h) h else h
  selectCores e (restorePlans e (retarget e 5 h))

/-- ENTER_SERVING (R588): the image is applied and written back where it must be, and the lock is made. It is held behind an orderly flush
(R34). -/
def execEnterServing (s : State) : Host.Outcome State Fault Refusal :=
  s.run (fun e h => guard (h.sys.st == .config && h.boot.applied && h.prot.locked && !h.boot.writeBack && h.sys.orderly.isNone) (startServing e) h)

/-- PROTECTION_WAIT_EXPIRY (R588). -/
def execProtectionWaitExpiry (s : State) : Host.Outcome State Fault Refusal :=
  s.run (fun e h => guard (h.sys.st == .config && !h.prot.locked && reached h h.boot.protUntil && h.sys.orderly.isNone &&
    !e.beaten evLock (h.boot.protUntil.getD 0) (nowNs h))
    (fun h => enterPlaya e 5 (h.img.map (fun i => { tray := i.tray, engine := i.engine, trays := i.trays, fleetDies := i.fleetDies })) h) h)

end Sys2Proof.Machine
end

