-- ==== Sys2Proof/Machine/PowerCmds.lean ====
section
/-!
DEFINITION. Resets, requests for a state, power-fail warnings, the flush, DORMANT and the wake (R29–R34, R560–R569, R592–R601, R639).
-/
namespace Sys2Proof.Machine

/-! Requests (R30, R34, R594). -/

/-- A transition is in progress: others are held behind it (R34). -/
def transiting (h : Hub) : Bool := h.sys.orderly.isSome || !h.sys.held.isEmpty

/-- Hold a request (R34). -/
def holdReq (w : Wanted) (c : Ctx) (h : Hub) : Hub :=
  onSys (fun s => { s with held := s.held ++ [{ want := w, req := c.req, dom := BitVec.ofNat 2 (domCode c.dom), cseq := c.cseq }] }) h

/-- The state that a request names, where it names one. -/
def wantedState : Wanted → Option BlockState
  | .serving => some .serving
  | .drowse => some .drowse
  | .dormant => some .dormant
  | .configReset => none
  | .blockReset => none

/-- The CONFIG reset of command number `id`: the reply leaves first. A reply under a management key is queued again for the port that the
reset has cleared. -/
def configAfterReply (e : Env) (id : Nat) (h : Hub) : Hub :=
  match pendOf h id with
  | none => h
  | some p =>
    let h1 := commandConfig e (finish e id stAccepted 0 [] true h)
    match p.req with
    | .key k s => mgtReply e k.toNat s (replyBytes (mkReply 0x01 p.cseq stAccepted p.domain.toNat 0 [] h)) h1
    | _ => h1

/-- SYS_RESET -/
def opSysReset : OpDef := {
  code := 0x01, changes := true, may := fleetDom, form := fun c => decide (c.words.length = 1)
  range := fun _ _ c => firstBad [(1, decide (c.n 1 ≤ 1))]
  act := fun e h c =>
    let w := if c.n 1 = 0 then Wanted.configReset else .blockReset
    if transiting h then .done stAccepted 0 [] (holdReq w c h)
    else if c.n 1 = 0 then .later none (configAfterReply e)
    else .done stAccepted 0 [] (startOrderly .blockReset h) }

/-- SYS_RESET (R594). -/
def execSysReset (c : Cmd) (s : State) : Host.Outcome State Fault Refusal := s.runOp opSysReset c

/-- A SYS_STATE request (R30, R34). -/
def opStateRequest (w : Wanted) : OpDef := {
  code := 0x02, changes := true, may := fleetDom, form := fun c => decide (c.words.length = 1)
  act := fun e h c =>
    if transiting h then .done stAccepted 0 [] (holdReq w c h)
    else if wantedState w = some h.sys.st then ok [] h
    else if transitionOk w h then .done stAccepted 0 [] (startTransition e w h)
    else refuse stWrongState h }

/-- SYS_STATE request for SERVING (R30). -/
def execSysStateRequestServing (c : Cmd) (s : State) : Host.Outcome State Fault Refusal := s.runOp (opStateRequest .serving) (withOp 1 c)
/-- SYS_STATE request for DROWSE (R30). -/
def execSysStateRequestDrowse (c : Cmd) (s : State) : Host.Outcome State Fault Refusal := s.runOp (opStateRequest .drowse) (withOp 2 c)
/-- SYS_STATE request for DORMANT (R30, R600). -/
def execSysStateRequestDormant (c : Cmd) (s : State) : Host.Outcome State Fault Refusal := s.runOp (opStateRequest .dormant) (withOp 3 c)

/-- The oldest held request comes to its turn (R34): checked again against Table 1.9 and R30, started, or dropped with its record. A request
dropped in DORMANT leaves no record: R34 asks for one and R33 forbids every record there; DESIGN CHOICE (log 64). -/
def recheckHeld (e : Env) (h : Hub) : Hub :=
  match h.sys.held with
  | [] => h
  | q :: t =>
    let h := onSys (fun s => { s with held := t }) h
    if wantedState q.want = some h.sys.st then h
    else if transitionOk q.want h then startTransition e q.want h
    else
      let code := if (wantedState q.want).isSome then 0x02 else 0x01
      cmdRecord code q.req q.dom.toNat q.cseq stWrongState h

/-- HELD_TRANSITION_RECHECK (R34): once the transition before it has completed. -/
def execHeldTransitionRecheck (s : State) : Host.Outcome State Fault Refusal :=
  s.run (fun e h => guard ((alive h || h.sys.st == .dormant) && h.sys.orderly.isNone) (recheckHeld e) h)

/-! Resets (R592, R593, R595, R628). -/

/-- POWER_ON_RESET (R593): PORST_N low. -/
def execPowerOnReset (s : State) : Host.Outcome State Fault Refusal :=
  s.run (fun _ h => onSys (fun x => { x with porstLow := true }) (coldReset h))

/-- POWER_ON_RESET_RELEASE (R628): the block enters FUSE. -/
def execPowerOnResetRelease (s : State) : Host.Outcome State Fault Refusal :=
  s.run (fun _ h => guard (h.sys.st == .cold && !h.sys.supplyLost) (onSys (fun x => { x with porstLow := false, st := .fuse })) h)

/-- BLOCK_RESET_PIN (R593, R628): BLKRST_N low for 1 µs, in every state but COLD. -/
def execBlockResetPin (s : State) : Host.Outcome State Fault Refusal :=
  s.run (fun _ h => guard (h.sys.st != .cold) (fun h => onSys (fun x => { x with blkrstLow := true }) (blockReset h)) h)

/-- BLOCK_RESET_RELEASE (R593). -/
def execBlockResetRelease (s : State) : Host.Outcome State Fault Refusal :=
  s.run (fun e h => guard h.sys.blkrstLow (fun h => fuseCheck e (onSys (fun x => { x with blkrstLow := false }) h)) h)

/-- PLL_LOCK (R38): FUSE may end; after a wake the block enters CONFIG (R601). -/
def execPllLock (s : State) : Host.Outcome State Fault Refusal :=
  s.run (fun e h =>
    let h1 := onSys (fun x => { x with pllLocked := true }) h
    if h.sys.st == .fuse && h.sys.mainPg then fuseCheck e h1
    else if h.sys.st == .dormant && h.isl.asking && h.isl.released then enterConfig e .dormant (wakeClear h1)
    else h)

/-- FUSE_SENSE_DONE (R574). -/
def execFuseSenseDone (uncorrectable passesDiffer : Bool) (s : State) : Host.Outcome State Fault Refusal :=
  s.run (fun e h => guard (h.sys.st == .fuse && h.sys.sense.isNone)
    (fun h => fuseCheck e (onSys (fun x => { x with sense := some (!uncorrectable && !passesDiffer) }) h)) h)

/-- The watchdog's records (R557, R595): the FATAL record, and behind a FLUSH record of code FAULT every pending record. -/
def watchdogRecords (e : Env) (h : Hub) : Hub :=
  let h := acceptAll e 65 (emit 9 3 0 noEnt 60 11 [] h)
  let h := onLog (fun l => { l with urgent := false }) h
  if h.log.nvOn then
    let r := flushRec 6 [] h
    mirrorAll 1024 (appendDrift r.1.bytes r.2)
  else h

/-- WATCHDOG_EXPIRY (R595). -/
def execWatchdogExpiry (s : State) : Host.Outcome State Fault Refusal :=
  s.run (fun e h => guard (portOn h && h.sys.wdReset.isNone) (fun h =>
    let h := if alive h then watchdogRecords e h else h
    onSys (fun x => { x with wdReset := some (nowNs h + 1000000) }) h) h)

/-- WATCHDOG_RESET (R595). -/
def execWatchdogReset (s : State) : Host.Outcome State Fault Refusal :=
  s.run (fun _ h => guard (reached h h.sys.wdReset) blockReset h)

/-- VDD_AON_LOSS (R592): everything that the island retains is lost too. -/
def execVddAonLoss (s : State) : Host.Outcome State Fault Refusal := s.run (fun _ h => coldReset h)

/-! Warnings and the flush (R560–R569). -/

/-- Entry to FLUSH: the WARN record of phase 0, the change of state, what is still queued taken in, the trace unit frozen, a last
heartbeat (R505, R561, R563, R564). A CONFIG interrupted starts again when FLUSH returns (R34). -/
def enterFlush (e : Env) (h : Hub) : Hub :=
  let left := h.sys.st
  let c0 := nowNs h - 40
  let n := h.log.warn + 1
  let h := emit 12 1 0 noEnt 61 0 ([w32 n, w32 left.code] ++ w64 c0 ++ [w32 (b2n h.log.erasing)]) (onLog (fun l => { l with warn := n }) h)
  let h := acceptAll e 65 (toState .flush h)
  let h := onLog (fun l => { l with flush := some { c0 := c0, orderly := false }, suspended := l.erasing, holdUntil := none }) h
  let h := onSys (fun s => { s with left := left }) (traceFreeze h)
  if e.tray then h else sendHeartbeat e h

/-- PFW_WARNING (R32, R33, R560, R567). -/
def execPfwWarning (s : State) : Host.Outcome State Fault Refusal :=
  s.run (fun e h => guard (!h.sys.pfwLow) (fun h =>
    let h := onSys (fun x => { x with pfwLow := true }) h
    let now := nowNs h
    match h.sys.st with
    | .cold => onLog (fun l => { l with holdUntil := none }) (onIsl (fun i => { i with latched := true }) h)
    | .fuse => onLog (fun l => { l with holdUntil := none }) (onIsl (fun i => { i with latched := true }) h)
    | .dormant => onLog (fun l => { l with holdUntil := none }) (onIsl (fun i => { i with
        warnings := i.warnings + 1, firstWarn := if i.warnings = 0 then now else i.firstWarn, lastWarn := now }) h)
    | .flush => onLog (fun l => { l with
        bounce := l.bounce + 1, holdUntil := none, suspended := l.erasing, flush := l.flush.map (fun f => { f with bounces := f.bounces + 1 }) }) h
    | .config => enterFlush e h
    | .playa => enterFlush e h
    | .serving => enterFlush e h
    | .drowse => enterFlush e h) h)

/-- FLUSH_END (R561–R565). -/
def execFlushEnd (s : State) : Host.Outcome State Fault Refusal :=
  s.run (fun e h => guard (h.sys.st == .flush && h.log.flush.any (fun f => !f.ended)) (writeFlush e) h)

/-- PFW_RELEASE (R32, R563, R568, R630): the hold starts, and a suspended erase goes on. -/
def execPfwRelease (s : State) : Host.Outcome State Fault Refusal :=
  s.run (fun _ h => guard h.sys.pfwLow (fun h =>
    let h := onSys (fun x => { x with pfwLow := false }) h
    let hold := fun (n : Nat) => onLog (fun l => { l with holdUntil := some (nowNs h + n), suspended := false }) h
    match h.sys.st with
    | .cold => hold 10000000
    | .fuse => hold 10000000
    | .flush => hold h.boot.recHold
    | .dormant => if h.isl.wakeHeld then hold h.boot.recHold else h
    | _ => h) h)

/-- The block leaves FLUSH (R568, R34): a LOSS record of the pending records that the flush did not write (R562), RECOVER, and every unit goes on, taking the expiries it has kept (R71); CONFIG and an orderly flush start from their beginning. -/
def leaveFlush (e : Env) (h : Hub) : Hub :=
  let now := nowNs h
  let f := h.log.flush.getD { c0 := now, orderly := false }
  let release := h.log.holdUntil.getD now - h.boot.recHold
  let again : Option Flush := if h.sys.orderly.isSome then some { c0 := now, orderly := true } else none
  let h := irq 0 (onSys (fun s => { s with st := s.left }) h)
  let h := onLog (fun l => { l with recover := l.recover + 1, flush := again, holdUntil := none }) h
  let h := if f.lost = 0 then h else lossRecord 6 noEnt 10 f.lost f.c0 f.c0 h
  let h := emit 12 1 0 noEnt 61 1 (w64 release ++ [w32 f.bounces, w32 ((now - f.c0) / 1000), w32 h.log.lastPhase]) h
  let h := emitState 0 [w32 BlockState.flush.code, w32 h.sys.st.code] h
  let h := actHeld (migResume e (traceThaw e h))
  if h.sys.st == .config then
    { h with boot := { delivered := h.boot.delivered, protUntil := h.boot.protUntil, protWait := h.boot.protWait }, img := none }
  else h

/-- The erased space of R554 is there again. -/
def erasedEnough (h : Hub) : Bool := !h.log.erasing && (!h.log.nvOn || decide (h.log.erased ≥ 262144))

/-- The island asks for the main supply (R601); an attempt whose MAIN_PG never rose is counted. -/
def askMain (h : Hub) : Hub :=
  onIsl (fun i => { i with
    failedWakes := i.failedWakes + b2n (i.asking && !i.released), asking := true, mainOffOk := false, wakeHeld := false }) h

/-- RECOVERY_HOLD_EXPIRY (R32, R568, R630). -/
def execRecoveryHoldExpiry (s : State) : Host.Outcome State Fault Refusal :=
  s.run (fun e h => guard (reached h h.log.holdUntil && !h.sys.pfwLow && !e.beaten evWarning (h.log.holdUntil.getD 0) (nowNs h)) (fun h =>
    match h.sys.st with
    | .flush => if h.log.flush.any Flush.ended && erasedEnough h then leaveFlush e h else h
    | .fuse => fuseCheck e (onLog (fun l => { l with holdUntil := none }) h)
    | .cold => onLog (fun l => { l with holdUntil := none }) h
    | .dormant =>
      let h := onLog (fun l => { l with holdUntil := none }) h
      if h.isl.wakeHeld then askMain h else h
    | _ => h) h)

/-- Entry to DORMANT (R397, R600, R602): the neighbours hear of it, the capture ends, the record of the change is mirrored, TB passes to
the island, and the main supply may go. -/
def enterDormant (e : Env) (h : Hub) : Hub :=
  let ports := (sbPorts e).filter (fun i => (sbPort h i).state == 2)
  let h := ports.foldl (fun h i =>
    sbLocal i { ftype := 1, src := BitVec.ofNat 18 (nodeNo e h), payload := .hello (BitVec.ofNat 18 (nodeNo e h)) true } h) h
  let h := acceptAll e 65 (endCapture e 6 h)
  let h := emitState 0 [w32 h.sys.st.code, w32 BlockState.dormant.code] h
  let h := acceptAll e 65 h
  let h := if h.log.nvOn then mirrorAll 1024 h else h
  let h := onIsl (fun i => { i with dormantTb := nowNs h, mainOffOk := true, asking := false, released := false }) h
  let h := { h with time := { h.time with tb := BitVec.ofNat 96 (nowNs h * tbUnit) }, regions := h.regions.map Region.dropCrossing
                    cells := h.cells.map (fun p => (p.1, { p.2 with lane := p.2.lane.discard })) }
  irq 0 (onSys (fun s => { s with st := .dormant }) (onLog (fun l => { l with drift := [] }) h))

/-- The orderly flush is written, and what it leads to follows (R569, R594, R600). -/
def endOrderly (e : Env) (h : Hub) : Hub :=
  let h := writeFlush e (acceptAll e 65 h)
  let w := h.sys.orderly
  let h := onLog (fun l => { l with flush := none }) (onSys (fun s => { s with orderly := none }) h)
  match w with
  | some .dormant => enterDormant e h
  | some .blockReset => blockReset h
  | _ => h

/-- ORDERLY_FLUSH_DONE (R569, R600). -/
def execOrderlyFlushDone (s : State) : Host.Outcome State Fault Refusal :=
  s.run (fun e h => guard (alive h && h.sys.orderly.isSome && h.log.flush.any Flush.orderly) (endOrderly e) h)

/-! The island (R601, R630, R639). -/

/-- WAKE_N (R601, R630): with a warning present the island waits. -/
def execWakeN (s : State) : Host.Outcome State Fault Refusal :=
  s.run (fun _ h => guard (h.sys.st == .dormant) (fun h =>
    if h.sys.pfwLow then onIsl (fun i => { i with wakeHeld := true }) h else askMain h) h)

/-- SB_WAKE_IDLES (R397, R601): die role. -/
def execSbWakeIdles (port : BitVec 4) (s : State) : Host.Outcome State Fault Refusal :=
  s.run (fun e h => guard (!e.tray && h.sys.st == .dormant && decide (port.toNat < 4) && !h.sys.pfwLow) askMain h)

/-- MAIN_PG_RISE (R601, R639): high for 10 µs. -/
def execMainPgRise (s : State) : Host.Outcome State Fault Refusal :=
  s.run (fun _ h =>
    let h1 := onSys (fun x => { x with mainPg := true }) h
    if h.sys.supplyLost then blockReset (onSys (fun x => { x with pllLocked := false }) h1)
    else if h.sys.st == .dormant && h.isl.asking then
      onIsl (fun i => { i with released := true }) (onSys (fun x => { x with pllLocked := false }) h1)
    else h1)

/-- MAIN_PG_FALL (R639): outside DORMANT the block is in COLD while the island keeps what a BLOCK reset keeps. -/
def execMainPgFall (s : State) : Host.Outcome State Fault Refusal :=
  s.run (fun _ h =>
    let h1 := onSys (fun x => { x with mainPg := false, pllLocked := false }) h
    match h.sys.st with
    | .dormant => onIsl (fun i => { i with released := false }) h1
    | .cold => h1
    | _ => onSys (fun x => { x with supplyLost := true }) (blockClear h1))

/-- DROWSE_DELAY_EXPIRY (R599): in die role, every region that has cells has been stopped for longer than the drowse delay. -/
def execDrowseDelayExpiry (s : State) : Host.Outcome State Fault Refusal :=
  s.run (fun e h =>
    let rs := (List.range 8).filter (fun r => !e.regionAbsent r)
    guard (!e.tray && serving h && !transiting h && !rs.isEmpty &&
      rs.all (fun r => (region h r).stopped && decide ((region h r).stopTb + h.boot.drowseDelay < nowNs h))) enterDrowse h)

end Sys2Proof.Machine
end

