-- ==== Sys2Proof/Machine/RegOps.lean ====
section
/-!
DEFINITION. The register window's reads: the window map and every register (R604–R625, Tables 17.3 to 17.7 and those they name).
-/
namespace Sys2Proof.Machine

/-- The unit whose block a window address lies in, and the offset in it; none outside every unit block (Table 17.3). -/
def locate (a : Nat) : Option (Nat × Nat) :=
  let b := a / 0x4000
  if 16 ≤ b ∧ b ≤ 23 then some (16, a - 0x40000)
  else if [0, 1, 2, 3, 4, 5, 6, 8, 9, 10, 11, 12, 24, 28, 30, 32].contains b then some (b, a % 0x4000)
  else none

/-- Bits of a list of conditions, element 0 at bit 0. -/
def maskBits (l : List Bool) : Nat := ((l.zipIdx).map (fun p => b2n p.1 * 2 ^ p.2)).sum

/-- Two 32-bit counts, each saturated. -/
def pair32 (hi lo : Nat) : Nat := sat 32 hi * 2 ^ 32 + sat 32 lo
/-- Four 16-bit counts, each saturated, highest first. -/
def quad16 (a b c d : Nat) : Nat := sat 16 a * 2 ^ 48 + sat 16 b * 2 ^ 32 + sat 16 c * 2 ^ 16 + sat 16 d

/-- HUB registers (Table 17.4). -/
def readHub (e : Env) (h : Hub) (o : Nat) : Nat :=
  let c := h.casc
  match o with
  | 0x00 => 0x5376 * 2 ^ 48 + e.fuses.stepping.toNat * 2 ^ 40 + Config.firmware.toNat * 2 ^ 32 + b2n e.tray * 2 ^ 31 +
      b2n e.debugDis * 2 ^ 30 + nodeNo e h
  | 0x08 => e.cellCount * 2 ^ 16 + h.sys.lastReset.toNat * 2 ^ 12 + b2n h.sys.unprov * 2 ^ 11 + stateWord e h
  | 0x10 => sat 12 (quickCores e h).length * 2 ^ 48 + sat 24 c.policy.pcfg * 2 ^ 24 + sat 24 c.p
  | 0x18 => c.window % 2 ^ 32 * 2 ^ 32 + (imgOf h).windowNs / 1000
  | 0x20 => ((List.range 8).map (fun r =>
      let x := region h r
      maskBits [e.regionAbsent r, x.stopped, x.late, x.fault] * 2 ^ (4 * r))).sum
  | 0x28 => pair32 c.acts c.recommends
  | 0x30 => sat 32 c.changes * 2 ^ 32 + sat 16 c.governed * 2 ^ 16 + sat 16 c.rollbacks
  | 0x38 => h.regs.irqstat.toNat
  | 0x40 => h.regs.irqen.toNat
  | _ => 0

/-- Eight bytes of a buffer from an offset, bytes beyond its end zero (R467). -/
def lanes8 (b : List Byte) (o : Nat) : Nat := leAt b o 8

/-- The command buffer of a channel, 1,408 bytes. -/
def cbufBytes (ch : Channel) (n : Nat) : List Byte := (List.range n).map (fun i => ch.cbuf.find? (fun p => p.1 = i) |>.map Prod.snd |>.getD 0)

/-- A command channel's page (Table 12.4). -/
def readCmd (e : Env) (h : Hub) (o : Nat) : Nat :=
  let k := o / 0x1000
  let ch := chan h k
  let job := if domOf ch.domain.toNat == .tenant && ch.enabled then chanJob e h k else none
  let r := o % 0x1000
  if 0x400 ≤ r ∧ r < 0x980 then ((List.range 8).map (fun i =>
      ((ch.cbuf.find? (fun p => p.1 = r - 0x400 + i)).map (fun p => p.2.toNat)).getD 0 * 2 ^ (8 * i))).sum
  else if 0xA00 ≤ r ∧ r < 0xF80 then ((ch.rbuf.map replyBytes).map (fun b => lanes8 b (r - 0xA00))).getD 0
  else match r with
    | 0x00 => b2n ch.enabled * 2 ^ 23 + b2n job.isSome * 2 ^ 22 + b2n ch.submitted.isNone * 2 ^ 21 + ch.domain.toNat * 2 ^ 18 +
        (job.getD 0).toNat
    | 0x10 => ch.waiting.length * 2 ^ 16 + ((ch.rbuf.map replyBytes).map List.length).getD 0
    | 0x18 => ch.event.toNat
    | 0x20 => ch.irqen.toNat
    | _ => 0

/-- TIME registers (Table 17.5). -/
def readTime (h : Hub) (o : Nat) : Nat :=
  let t := h.time
  match o with
  | 0x00 => b2n h.isl.refLost * 2 ^ 7 + b2n t.stepped * 2 ^ 6 + b2n (decide (slewNow t ≠ 0)) * 2 ^ 5 + t.source.toNat * 4 + t.quality.toNat
  | 0x08 => nowNs h
  | 0x10 => t.fracLatch.toNat
  | 0x18 => unsigned 32 (slewNow t) * 2 ^ 32 + unsigned 32 t.rate
  | 0x20 => sat 16 t.lockRun * 2 ^ 48 + unsigned 32 t.offset
  | 0x28 => pair32 t.steps t.qchanges
  | 0x30 => unsigned 64 t.lastStep
  | 0x40 => t.capNs.toNat
  | _ => 0

/-- MGT registers (Table 11.8); in die role their reset values with ENABLED 0 (R616). -/
def readMgt (e : Env) (h : Hub) (o : Nat) : Nat :=
  let m : Mgt := if e.tray then h.mgt else {}
  if 0x200 ≤ o ∧ o < 0x400 then bitsOf (getAt m.gclE ((o - 0x200) / 8) 0).toNat 35 0
  else match o with
    | 0x00 => m.b.state.toNat * 2 ^ 14 + m.a.state.toNat * 2 ^ 12 +
        maskBits [mgtRuns e h, false, false, false, m.pending.isSome, m.a.conflict, m.b.conflict, m.a.plca, m.b.plca, m.master.isSome,
          m.master.any Master.seg, m.active]
    | 0x08 => m.a.cfg.toNat
    | 0x10 => m.b.cfg.toNat
    | 0x18 => m.portcfg.toNat
    | 0x20 => b2n m.pending.isSome * 2 ^ 8 + m.gclCtrl.toNat
    | 0x28 => m.gclBase.toNat
    | 0x30 => m.gclCycle.toNat
    | 0x38 => m.oper.entries.length
    | 0x40 => (getAt m.shapers 0 0).toNat
    | 0x48 => (getAt m.shapers 1 0).toNat
    | 0x50 => (getAt m.shapers 2 0).toNat
    | 0x58 => (getAt m.shapers 3 0).toNat
    | 0x60 => (getAt m.meters 0 {}).cfg.toNat
    | 0x68 => (getAt m.meters 1 {}).cfg.toNat
    | 0x70 => (getAt m.meters 2 {}).cfg.toNat
    | 0x78 => (getAt m.meters 3 {}).cfg.toNat
    | 0x80 => pair32 m.accept m.stranger
    | 0x88 => quad16 m.fcs m.size m.metered m.full
    | 0x90 => sat 16 m.authfail * 2 ^ 48 + sat 16 m.replay * 2 ^ 32 + sat 32 m.ok
    | 0x98 => quad16 m.overrun m.toolong m.excess m.plcacol
    | 0xA0 => quad16 m.switches m.beacon m.pdelayBad m.annto
    | _ => 0

/-- A route as SB_PRIMARY and SB_ALTERNATE show it. -/
def routeReg (r : Option Route) : Nat := (r.map (fun r => r.nhops.toNat * 2 ^ 32 + r.hops.toNat)).getD 0

/-- SB registers (Table 10.9). -/
def readSb (e : Env) (h : Hub) (o : Nat) : Nat :=
  let s := h.sb
  let ps := (sbPorts e).map (sbPort h)
  match o with
  | 0x00 => maskBits (ps.map Port.miswired) * 2 ^ 32 + maskBits (ps.map (fun p => p.state == 2)) * 2 ^ 16 +
      maskBits [sbRuns h, !e.tray && s.primary.isSome, !e.tray && s.trayLost, !e.tray && s.primary.isSome && s.alternate.isNone]
  | 0x08 => routeReg (s.primary.bind (upRoute e h))
  | 0x10 => routeReg (s.alternate.bind (upRoute e h))
  | 0x18 => pair32 s.rxFrames s.txFrames
  | 0x20 => quad16 s.code s.crc s.retry s.downs
  | 0x28 => sat 16 s.trayLosses * 2 ^ 16 + sat 16 s.dieLosses
  | _ => 0

/-- FAB registers (Table 10.9). -/
def readFab (h : Hub) (o : Nat) : Nat :=
  let f := h.fab
  match o with
  | 0x00 => (imgOf h).share % 256 * 2 ^ 16 + sat 8 (queueFill h / 256) * 2 ^ 8 + h.xs.load % 4 * 2 ^ 6 +
      b2n (working h)
  | 0x08 => f.tx % 2 ^ 64
  | 0x10 => f.accepted % 2 ^ 64
  | 0x18 => quad16 f.crc f.bad f.dup f.red
  | 0x20 => pair32 f.excluded f.phases
  | _ => 0

/-- DMA registers (Table 14.10). -/
def readDma (h : Hub) (o : Nat) : Nat :=
  let d := h.dma
  let m := h.mem
  if 0x1000 ≤ o ∧ o < 0x2000 then
    let c := (o - 0x1000) / 0x40
    let x := dmaCh h c
    match o % 0x40 with
    | 0x00 => b2n x.enable
    | 0x08 => x.prio.toNat * 2 ^ 30 + b2n (decide (c < (imgOf h).blockCh)) * 2 ^ 29 + b2n x.reqen * 2 ^ 28 + x.reqline.toNat * 2 ^ 22 +
        x.rsize * 2 ^ 16 + x.cqsize * 2 ^ 8
    | 0x10 => x.ring.toNat
    | 0x18 => x.tail * 2 ^ 32 + x.head
    | 0x20 => x.cq.toNat
    | 0x28 => x.cqhead * 2 ^ 32 + x.cqtail
    | 0x30 => x.pend * 2 ^ 16 + x.state.toNat * 2 ^ 12 + x.last.toNat * 2 ^ 8
    | 0x38 => pair32 (x.moved / 1024) x.descs
    | _ => 0
  else match o with
    | 0x00 => (imgOf h).blockCh * 2 ^ 32 + (d.ch.filter (fun p => p.2.state == 3)).length * 2 ^ 8 + b2n (dmaRuns h)
    | 0x08 => d.irqstat.toNat
    | 0x10 => quad16 d.align d.buserr d.fetch d.lostreq
    | 0x100 => (m.migrating.map (fun r => 2 ^ 15 + r * 2 ^ 12)).getD 0 + b2n (memOn h)
    | 0x108 => m.failed.toNat
    | 0x110 => sat 32 ((m.migrating.bind (mapRange h)).map MapRange.pointer |>.getD 0) * 2 ^ 32 + sat 16 m.rekeys * 2 ^ 16 + sat 16 m.recommend
    | 0x118 => quad16 m.timeouts m.rerr m.berr m.decode
    | _ => 0

/-- TRC registers (Table 13.17). -/
def readTrc (h : Hub) (o : Nat) : Nat :=
  let t := h.trc
  let frozen := (decide (t.sink = 2) && t.mem.frozen) || (decide (t.sink = 3) && t.erg.frozen)
  match o with
  | 0x00 => t.sink * 2 ^ 16 + t.set.cores.length * 2 ^ 9 +
      maskBits [t.capturing, false, false, t.set.ctl, t.armed, t.posting, frozen, t.erg.frozen, t.rdy && t.capturing && decide (t.sink = 1)]
  | 0x08 => t.wptr
  | 0x10 => t.oldest
  | 0x18 => t.trigPos.toNat
  | 0x20 => quad16 t.lostCell t.lostMerge t.lostSink t.ignored
  | 0x28 => t.soff
  | 0x30 => pair32 t.sinkBlocks t.frames
  | _ => 0

/-- NID registers (Table 13.17). -/
def readNid (h : Hub) (o : Nat) : Nat :=
  let n := h.nid
  match o with
  | 0x00 => (2 ^ min 4 h.trc.busy.length - 1) * 2 ^ 4 + n.level * 4 + b2n n.verify * 2 + b2n (alive h)
  | 0x08 => n.inB
  | 0x10 => n.outB
  | 0x18 => sat 32 n.stored * 2 ^ 32 + sat 16 n.vfail * 2 ^ 16 + n.lastErr.toNat
  | _ => 0

/-- REC registers (Table 15.9). -/
def readRec (h : Hub) (o : Nat) : Nat :=
  let l := h.log
  match o with
  | 0x00 => l.lastPhase * 2 ^ 5 + maskBits [portOn h, l.nvOn, l.full, decide (l.erased ≥ 262144), l.flush.any (fun f => !f.ended)]
  | 0x08 => l.bootseq.toNat * 2 ^ 32 + ((l.queue.head?.map (fun r => r.rseq - 1)).getD l.rseq).toNat
  | 0x10 => sat 16 ((l.bedrock.map Rec.size).sum) * 2 ^ 48 + sat 16 (pendingBytes h / 4) * 2 ^ 32 + sat 32 (unsent h).length
  | 0x18 => quad16 l.lostQueue l.lostMirror l.lostUpload l.lostFlush
  | 0x20 => quad16 l.warn l.bounce l.recover 0
  | 0x28 => l.nvptr * 2 ^ 32 + sat 12 l.cores * 2 ^ 8
  | _ => 0

/-- A key slot. -/
def keySlot (h : Hub) (k : Nat) : Option KeySlot := Tab.find h.cmd.keys k

/-- PROT registers (Table 17.6). -/
def readProt (e : Env) (h : Hub) (o : Nat) : Nat :=
  let p := h.prot
  let jobs := fun (base : Nat) => ((List.range 4).map (fun j =>
    ((keySlot h (base + j)).map (fun k => if domOf k.domain.toNat == .tenant then k.job.toNat else 0)).getD 0 * 2 ^ (16 * j))).sum
  let ch := fun c => (getAt p.ch c 0).toNat + b2n ((chan h c).irqen.getLsbD 3) * 8
  match o with
  | 0x00 => maskBits ((List.range 8).map (fun k => (keySlot h k).isSome)) * 2 ^ 8 + maskBits [p.locked, e.debugDis, p.auto, p.locked]
  | 0x08 => ch 0
  | 0x10 => ch 1
  | 0x18 => ch 2
  | 0x20 => ch 3
  | 0x28 => ((List.range 8).map (fun s => ((keySlot h s).map (fun k => 128 + k.domain.toNat * 32)).getD 0 * 2 ^ (8 * s))).sum
  | 0x30 => jobs 0
  | 0x38 => jobs 4
  | 0x40 => sat 32 p.bwLocked * 2 ^ 32 + sat 16 p.refused * 2 ^ 16 + sat 16 p.ignored
  | _ => 0

/-- The least and the greatest of a list of integers. -/
def leastOf : List Int → Option Int
  | [] => none
  | a :: t => some (t.foldl min a)
/-- See `leastOf`. -/
def mostOf : List Int → Option Int
  | [] => none
  | a :: t => some (t.foldl max a)

/-- AGE registers (Table 9.6). -/
def readAge (h : Hub) (o : Nat) : Nat :=
  let a := h.age
  let mons := a.zones.flatMap (fun z => z.temps ++ z.droops ++ z.paths)
  match o with
  | 0x00 => a.mode.toNat * 2 ^ 6 + maskBits [ageRuns h, false, mons.any Monitor.failed, a.nvLost, a.ackDue.any (fun p => p.1 = a.sentSeq),
      !a.probes.isEmpty]
  | 0x08 => unsigned 16 ((mostOf (readings (a.zones.flatMap Zone.temps))).getD 0) * 2 ^ 32 +
      unsigned 16 ((leastOf (a.zones.filterMap Zone.vminLast)).getD 0) * 2 ^ 16 + sat 16 a.droopsTotal
  | 0x10 => unsigned 16 ((leastOf (a.zones.filterMap Zone.sminLast)).getD 0)
  | 0x18 => a.nvgen.toNat
  | _ => 0

/-- A cell slot (Table 3.11): zero in tray role (R616). CELL_FLAGS and the hold, selection and watch bits of CELL_STATUS, which no snapshot
carries, read as they are now: DEDUCED (log 79). -/
def readCell (e : Env) (h : Hub) (o : Nat) : Nat :=
  let c := o / 64
  let x := hubc h c
  let cnt := fun i => (getAt x.snap i 0).toNat
  if e.tray || !e.present c then 0 else
  match o % 64 with
  | 0x00 => cellStatus e h c
  | 0x08 => (cell h c).flags.toNat
  | 0x10 => cnt 0
  | 0x18 => cnt 1
  | 0x20 => cnt 2
  | 0x28 => x.sel.toNat
  | 0x30 => cnt (3 + x.sel.toNat)
  | 0x38 => x.snapTb % 2 ^ 64
  | _ => 0

/-- TREE registers (Table 7.11). -/
def readTree (e : Env) (h : Hub) (o : Nat) : Nat :=
  let n := h.ens
  match o with
  | 0x00 => maskBits (n.slots.map (fun s => s.swap.isSome)) * 2 ^ 48 + maskBits (n.slots.map (fun s => s.active.isSome)) * 2 ^ 32 +
      maskBits (n.slots.map (fun s => s.staged.isSome)) * 2 ^ 16 + n.passes.length * 2 ^ 12 + (n.quotas.map Quota.arrays).sum * 2 ^ 7 +
      maskBits [ensRuns e h, !n.loads.isEmpty, e.tray && !n.rows.isEmpty]
  | 0x08 => genPages ((n.slots.flatMap (fun s => [s.active, s.previous, s.staged])).map (fun g => g.filter Gen.tenant)) * 2 ^ 16 +
      (384 - pagesUsed h none)
  | 0x10 => sat 64 n.visits
  | 0x18 => sat 64 n.samples
  | 0x20 => pair32 n.overrun n.done
  | 0x28 => pair32 n.bank n.page
  | 0x30 => sat 16 n.faults * 2 ^ 48 + sat 16 n.uncorr * 2 ^ 32 + sat 32 n.corr
  | 0x38 => sat 16 n.refused * 2 ^ 48 + sat 16 n.fillWaits * 2 ^ 32 + sat 32 n.misses
  | _ => 0

/-- DIG registers (Table 5.12): zero in tray role (R616). -/
def readDig (e : Env) (h : Hub) (o : Nat) : Nat :=
  let d := h.dig
  let num := fun (x : Option Epoch) => (x.map (fun y => y.num.toNat)).getD 0
  let older := if d.older.isNone then 0 else if d.retire = 0 then 2 else 1
  if e.tray then 0 else
  match o with
  | 0x00 => older * 2 ^ 6 + maskBits [d.newer.isSome, digRuns e h, digRuns e h, d.buf0.isSome, d.buf1.isSome,
      digRuns e h && decide (d.cfg.scrubRate ≠ 0) && !d.cfg.frozen.isEmpty]
  | 0x08 => num d.older * 2 ^ 32 + num d.newer
  | 0x10 => sat 32 d.retire
  | 0x18 => pair32 d.egress.lost d.ingress.lost
  | 0x20 => quad16 d.stale d.unopened d.proto d.invalid
  | 0x28 => quad16 d.odd d.split d.broken d.uncmp
  | 0x30 => sat 32 d.checked * 2 ^ 32 + (d.seals.filter (fun p => p.2.state == 2)).length
  | 0x38 => d.dbgK0.toNat
  | 0x40 => d.dbgK1.toNat
  | _ => 0

/-- XS registers (Table 6.10). -/
def readXs (e : Env) (h : Hub) (o : Nat) : Nat :=
  let x := h.xs
  match o with
  | 0x00 => x.laneLast.toNat * 2 ^ 12 + x.queue.length * 2 ^ 8 + x.span * 2 ^ 5 + x.load * 2 ^ 3 + maskBits [xsRuns e h, x.held0, x.held1]
  | 0x08 => sat 64 x.beats
  | 0x10 => pair32 x.incomplete x.done
  | 0x18 => quad16 x.late x.carried x.dup x.bad
  | 0x20 => sat 16 x.range * 2 ^ 16 + sat 16 x.ovf
  | _ => 0

/-- RES registers (Table 4.13): zero in tray role (R616). -/
def readRes (e : Env) (h : Hub) (o : Nat) : Nat :=
  let r := h.res
  if e.tray then 0 else
  match o with
  | 0x00 => r.drbgOk.toNat * 2 ^ 8 + maskBits [working h, decide (r.queue.length ≥ 256), decide (r.drbgOk = 0) && portOn h]
  | 0x08 => sat 64 r.tiles
  | 0x10 => sat 64 r.mismatch
  | 0x18 => pair32 r.timeouts r.proto
  | 0x20 => pair32 r.audSkip r.tileSkip
  | 0x28 => sat 64 r.audits
  | 0x30 => quad16 r.audMis r.audRound r.audFmt 0
  | 0x38 => r.dbgS.toNat
  | 0x40 => r.dbgT.toNat
  | 0x48 => r.dbgU.toNat
  | _ => 0

/-- A register by unit code and offset; zero where there is none (R611). -/
def readReg (e : Env) (h : Hub) (unit o : Nat) : Nat :=
  match unit with
  | 0 => readHub e h o
  | 1 => readCmd e h o
  | 2 => readTime h o
  | 3 => readMgt e h o
  | 4 => readSb e h o
  | 5 => readFab h o
  | 6 => readDma h o
  | 8 => readTrc h o
  | 9 => readNid h o
  | 10 => readRec h o
  | 11 => readProt e h o
  | 12 => readAge h o
  | 16 => readCell e h o
  | 24 => readTree e h o
  | 28 => readDig e h o
  | 30 => readXs e h o
  | 32 => readRes e h o
  | _ => 0

/-- The 64-bit register that holds a window address. -/
def readWindow (e : Env) (h : Hub) (a : Nat) : DWord :=
  match locate (a / 8 * 8) with
  | some (u, o) => BitVec.ofNat 64 (readReg e h u o)
  | none => 0

end Sys2Proof.Machine
end

