-- ==== Sys2Proof/Machine/RegWr.lean ====
section
/-!
DEFINITION. The register window's writes: access codes, partial writes, and what each writable register does (R8–R10, R605, R608, R611–R616).
-/
namespace Sys2Proof.Machine

/-- Registers of a unit by offset (Table 17.7 and the tables it names). -/
def hasReg (u o : Nat) : Bool :=
  let upTo := fun (n : Nat) => decide (o ≤ n)
  match u with
  | 0 => upTo 0x40
  | 1 => let r := o % 0x1000; decide (r ≤ 0x20) || (decide (0x400 ≤ r) && decide (r < 0x980)) || (decide (0xA00 ≤ r) && decide (r < 0xF80))
  | 2 => upTo 0x40
  | 3 => upTo 0xA0 || (decide (0x200 ≤ o) && decide (o < 0x400))
  | 4 => upTo 0x28
  | 5 => upTo 0x20
  | 6 => upTo 0x10 || (decide (0x100 ≤ o) && decide (o ≤ 0x118)) || (decide (0x1000 ≤ o) && decide (o < 0x2000))
  | 8 => upTo 0x30
  | 9 => upTo 0x18
  | 10 => upTo 0x28
  | 11 => upTo 0x40
  | 12 => upTo 0x18
  | 16 => true
  | 24 => upTo 0x38
  | 28 => upTo 0x40
  | 30 => upTo 0x20
  | 32 => upTo 0x48
  | _ => false

/-- The bits that a write of a part offers, zero elsewhere: W1C bits and actions (R608). -/
def offered (p : Part) (v : DWord) : Nat := (mergePart p 0 v).toNat

/-- A write covers bits [31:0]. -/
def partLow : Part → Bool
  | .whole => true
  | .low => true
  | .high => false
/-- A write covers bits [63:32]. -/
def partHigh : Part → Bool
  | .whole => true
  | .low => false
  | .high => true

/-- Release of the reply buffer: each 1 clears its bit, and with REPLY and NOTICE clear the next reply or notice comes (R468). -/
def clearEvent (c : Nat) (bits : BitVec 3) (h : Hub) : Hub :=
  let ch := chan h c
  let ch' := { ch with event := w1cSet ch.event ch.fresh bits }
  onChan c (fun _ => if ch.event &&& 3 ≠ 0 then chanNext ch' else ch') h

/-- A direct or DBG write of HUB_IRQSTAT (R620). -/
def clearIrq (mask : BitVec 10) (h : Hub) : Hub := { h with regs := { h.regs with irqstat := w1cSet h.regs.irqstat h.regs.irqFresh mask } }

/-- Bytes written into a channel's command buffer (R467). -/
def putCbuf (c o : Nat) (bs : List Byte) (h : Hub) : Hub :=
  onChan c (fun ch => { ch with
    cbuf := (bs.zipIdx).foldl (fun l b => (l.filter (fun p => decide (p.1 ≠ o + b.2))) ++ [(o + b.2, b.1)]) ch.cbuf }) h

/-- A PROT_CHc write (R8, R478, R623–R625): in the BOOT domain while the setup is open; later it is counted and recorded as an attempt.
Bits [63:32] are reserved: a write of that half writes no BW field (R608, Table 17.6). -/
def writeProt (e : Env) (boot : Bool) (c : Nat) (p : Part) (v : DWord) (h : Hub) : Hub :=
  let o := 8 + 8 * c
  if p = .high then h
  else if h.prot.locked then
    emit 8 1 0 noEnt 11 5 ([w32 11, w32 o] ++ w64 v.toNat) { h with prot := { h.prot with bwLocked := h.prot.bwLocked + 1 } }
  else if !boot then refusedWrite 11 o v h
  else protPut e c (mergePart p (getAt h.prot.ch c 0) v).toNat h

/-- A write of RES_DBG_S in the DEBUG domain (R159): FIXED stays 0 while S, T or U is 0 or p. -/
def writeDbgS (p : Part) (v : DWord) (h : Hub) : Hub :=
  let new := mergePart p h.res.dbgS v &&& 0x9FFFFFFFFFFFFFFF
  let bad := fun (x : Nat) => decide (x % 2 ^ 61 = 0) || decide (x % 2 ^ 61 = resP)
  if new.getLsbD 63 && (bad new.toNat || bad h.res.dbgT.toNat || bad h.res.dbgU.toNat) then
    refusedWrite 32 0x38 v { h with res := { h.res with dbgS := new &&& 0x1FFFFFFFFFFFFFFF } }
  else { h with res := { h.res with dbgS := new } }

/-- The registers that only the DEBUG domain writes (R123, R165). -/
def debugOnly (u o : Nat) : Bool := (decide (u = 32) && [0x38, 0x40, 0x48].contains o) || (decide (u = 28) && [0x38, 0x40].contains o)

/-- MGT_PORTCFG (R428): a UDP port below 1,024 is ignored and recorded. -/
def writePortcfg (p : Part) (v : DWord) (h : Hub) : Hub :=
  let new := mergePart p h.mgt.portcfg v &&& 0x3FFFF007F
  if bitsOf new.toNat 31 16 < 1024 then refusedWrite 3 0x18 v h else onMgt (fun m => { m with portcfg := new }) h

/-- MGT_GCL_CTRL: ENTRIES above 64 is ignored and recorded; COMMIT then acts (R446). -/
def writeGclCtrl (p : Part) (v : DWord) (h : Hub) : Hub :=
  if !(partLow p) then h
  else
    let n := bitsOf v.toNat 6 0
    if n > 64 then refusedWrite 3 0x20 v h
    else
      let h := onMgt (fun m => { m with gclCtrl := BitVec.ofNat 7 n }) h
      if v.getLsbD 7 then commitGates h else h

/-- MGT registers in tray role. -/
def writeMgt (o : Nat) (p : Part) (v : DWord) (h : Hub) : Hub :=
  if 0x200 ≤ o ∧ o < 0x400 then onMgt (fun m => { m with gclE := setAt m.gclE ((o - 0x200) / 8) (mergePart p (getAt m.gclE ((o - 0x200) / 8) 0) v) }) h
  else if 0x40 ≤ o ∧ o < 0x60 then writeShaper ((o - 0x40) / 8) p v h
  else if 0x60 ≤ o ∧ o < 0x80 then writeMeter ((o - 0x60) / 8) p v h
  else match o with
    | 0x08 => writeSegcfg false p v h
    | 0x10 => writeSegcfg true p v h
    | 0x18 => writePortcfg p v h
    | 0x20 => writeGclCtrl p v h
    | 0x28 => onMgt (fun m => { m with gclBase := mergePart p m.gclBase v }) h
    | 0x30 => if partLow p then onMgt (fun m => { m with gclCycle := v.setWidth 32 }) h else h
    | _ => h

/-- DMA_CH_CTRL (R536, R541–R543): ENABLE, then the actions asked for. -/
def writeDmaCtrl (e : Env) (c : Nat) (p : Part) (v : DWord) (h : Hub) : Hub :=
  if !(partLow p) then h
  else
    let en := v.getLsbD 0
    let h := if (dmaCh h c).enable == en then h else dmaEnable e c en h
    let h := if v.getLsbD 3 then dmaResume e c h else h
    let h := if v.getLsbD 1 then dmaRequest c h else h
    if v.getLsbD 2 then dmaStop e c h else h

/-- DMA_CH_CFG: a size above 16 keeps its value and is recorded (Table 14.10). -/
def writeDmaCfg (c : Nat) (p : Part) (v : DWord) (h : Hub) : Hub :=
  if !(partLow p) then h
  else
    let n := v.toNat
    let rs := bitsOf n 20 16
    let cs := bitsOf n 12 8
    let h := onDmaCh c (fun x => { x with
      prio := BitVec.ofNat 2 (bitsOf n 31 30), reqen := bitOf n 28, reqline := BitVec.ofNat 6 (bitsOf n 27 22)
      rsize := if rs ≤ 16 then rs else x.rsize, cqsize := if cs ≤ 16 then cs else x.cqsize }) h
    if rs > 16 ∨ cs > 16 then refusedWrite 6 (0x1008 + 0x40 * c) v h else h

/-- The registers of a DMA channel. -/
def writeDmaCh (e : Env) (c o : Nat) (p : Part) (v : DWord) (h : Hub) : Hub :=
  if c < (imgOf h).blockCh then refusedWrite 6 (0x1000 + 0x40 * c + o) v h
  else match o with
    | 0x00 => writeDmaCtrl e c p v h
    | 0x08 => writeDmaCfg c p v h
    | 0x10 => onDmaCh c (fun x => { x with ring := mergePart p x.ring v &&& 0xFFFFFFFFFFFFFFC0 }) h
    | 0x18 => if partHigh p then dmaTail e c (BitVec.ofNat 17 (offered p v / 2 ^ 32)) h else h
    | 0x20 => onDmaCh c (fun x => { x with cq := mergePart p x.cq v &&& 0xFFFFFFFFFFFFFFC0 }) h
    | 0x28 => if partHigh p then dmaCqhead e c (BitVec.ofNat 17 (offered p v / 2 ^ 32)) h else h
    | _ => h

/-- DMA registers. -/
def writeDmaReg (e : Env) (o : Nat) (p : Part) (v : DWord) (h : Hub) : Hub :=
  if 0x1000 ≤ o then writeDmaCh e ((o - 0x1000) / 0x40) (o % 0x40) p v h
  else match o with
    | 0x08 => onDma (fun d => { d with irqstat := w1cSet d.irqstat d.irqFresh (BitVec.ofNat 64 (offered p v)) }) h
    | 0x108 => if partLow p then dmaPump e (failedClear (v.setWidth 32) h) else h
    | _ => h

/-- The registers of a channel page but its doorbell. -/
def writeCmd (o : Nat) (p : Part) (v : DWord) (h : Hub) : Hub :=
  let c := o / 0x1000
  let r := o % 0x1000
  if 0x400 ≤ r ∧ r < 0x980 then
    match p with
    | .whole => putCbuf c (r - 0x400) (leBytes 8 v.toNat) h
    | .low => putCbuf c (r - 0x400) (leBytes 4 v.toNat) h
    | .high => putCbuf c (r - 0x400 + 4) (leBytes 4 v.toNat) h
  else match r with
    | 0x18 => clearEvent c (BitVec.ofNat 3 (offered p v)) h
    | 0x20 => if partLow p then onChan c (fun ch => { ch with irqen := v.setWidth 4 }) h else h
    | _ => h

/-- A cell slot: the flags and the selection (Table 3.11). -/
def writeCell (e : Env) (o : Nat) (p : Part) (v : DWord) (h : Hub) : Hub :=
  let c := o / 64
  if !e.present c then ignoredWrite 16 o v h
  else if !(partLow p) then h
  else match o % 64 with
    | 0x08 => (sendCell e c (.flags (v.setWidth 8)) h).1
    | 0x28 => onHubc c (fun x => { x with sel := v.setWidth 5 }) h
    | _ => h

/-- A doorbell of a channel, as far as its buffer goes (Table 12.4, R614, R625): of a disabled channel ignored and recorded, of a busy
buffer ignored with ERR; otherwise the packet is submitted. -/
def ringDoorbell (c len : Nat) (h : Hub) : Hub :=
  let ch := chan h c
  if !chanOn h c then refusedWrite 1 (0x1000 * c + 8) (BitVec.ofNat 64 len) h
  else if ch.submitted.isSome then onChan c (fun x => { x with event := x.event ||| 4, fresh := x.fresh ||| 4 }) h
  else onChan c (fun x => { x with submitted := some (cbufBytes x len) }) h

/-- A write of a register that exists (R8), by unit and offset: `boot` and `debug` say in which domain. Read-only registers ignore it. -/
def writeReg (e : Env) (boot debug : Bool) (u o : Nat) (p : Part) (v : DWord) (h : Hub) : Hub :=
  if (e.tray && [16, 28, 32].contains u) || (!e.tray && decide (u = 3)) then ignoredWrite u o v h
  else if debugOnly u o && !debug then ignoredWrite u o v h
  else match u with
    | 0 =>
      if o = 0x38 then clearIrq (BitVec.ofNat 10 (offered p v)) h
      else if o = 0x40 ∧ partLow p = true then { h with regs := { h.regs with irqen := v.setWidth 10 } } else h
    | 1 => if o % 0x1000 = 8 then (if partLow p then ringDoorbell (o / 0x1000) (bitsOf v.toNat 10 0) h else h) else writeCmd o p v h
    | 2 =>
      if o = 0x38 ∧ partLow p = true ∧ v.getLsbD 0 = true then { h with time := { h.time with capNs := BitVec.ofNat 64 (nowNs h) } } else h
    | 3 => writeMgt o p v h
    | 6 => writeDmaReg e o p v h
    | 11 => if 8 ≤ o ∧ o ≤ 0x20 then writeProt e boot ((o - 8) / 8) p v h else h
    | 16 => writeCell e o p v h
    | 28 =>
      if o = 0x38 then onDig (fun d => { d with dbgK0 := mergePart p d.dbgK0 v &&& 0x9FFFFFFFFFFFFFFF }) h
      else if o = 0x40 then onDig (fun d => { d with dbgK1 := mergePart p d.dbgK1 v &&& 0x1FFFFFFFFFFFFFFF }) h else h
    | 32 =>
      if o = 0x38 then writeDbgS p v h
      else if o = 0x40 then { h with res := { h.res with dbgT := mergePart p h.res.dbgT v &&& 0x1FFFFFFFFFFFFFFF } }
      else if o = 0x48 then { h with res := { h.res with dbgU := mergePart p h.res.dbgU v &&& 0x1FFFFFFFFFFFFFFF } } else h
    | _ => h

/-- Bytes of an access size (Table 17.1). -/
def sizeBytes (size : BitVec 2) : Nat := 2 ^ size.toNat

/-- A direct write on the port (R605, R608, R611–R613): `v` holds the bytes written, from bit 0 on. -/
def directWrite (e : Env) (addr : Nat) (size : BitVec 2) (v : DWord) (h : Hub) : Hub :=
  let n := sizeBytes size
  let o := addr % 8
  let bytes := BitVec.ofNat 64 (v.toNat % 2 ^ (8 * n))
  match locate (addr / 8 * 8) with
  | none => ignoredWrite 0xFF addr bytes h
  | some (u, r) =>
    if addr % n ≠ 0 ∨ hasReg u r = false then ignoredWrite u (r + o) bytes h
    else if n < 4 then
      if u = 1 ∧ 0x400 ≤ r % 0x1000 ∧ r % 0x1000 < 0x980 then putCbuf (r / 0x1000) (r % 0x1000 - 0x400 + o) (leBytes n v.toNat) h
      else ignoredWrite u (r + o) bytes h
    else portField u r bytes (writeReg e (!h.prot.locked) false u r (if n = 8 then .whole else if o = 0 then .low else .high) bytes) h

end Sys2Proof.Machine
end

