-- ==== Sys2Proof/Machine/RegCmds.lean ====
section
/-!
DEFINITION. The protection setup's commands, DBG_READ and DBG_WRITE, and the register accesses that have a row of their own (R431, R476–R478,
R604–R625).
-/
namespace Sys2Proof.Machine

/-- BOOT only. -/
def bootDom (c : Ctx) : Bool := c.dom == .boot
/-- DEBUG only. -/
def debugDom (c : Ctx) : Bool := c.dom == .debug

/-- The key of a KEY_LOAD: key byte 0 in bits [31:24] of the first word (Table 12.13). -/
def keyOf (c : Ctx) (n : Nat) : BitVec 128 := BitVec.ofNat 128 (c.d n * 2 ^ 64 + c.d (n + 2))

/-- A KEY_LOAD takes its slot: key, domain, job, an empty replay window, transmit SEQ 1, no sequence state (R431, R433, R435, R463). -/
def loadKey (slot dom job : Nat) (key : BitVec 128) (h : Hub) : Hub :=
  let k : KeySlot := { key := key, domain := BitVec.ofNat 2 dom, job := BitVec.ofNat 16 job }
  { h with cmd := { h.cmd with keys := Tab.put h.cmd.keys slot k, seqs := h.cmd.seqs.filter (fun p => decide (p.1 ≠ 16 + slot)) } }

/-- KEY_LOAD -/
def opKeyLoad : OpDef := {
  code := 0xC0, changes := true, may := bootDom, form := fun c => decide (c.words.length = 7)
  range := fun _ _ c => firstBad [(1, decide (c.n 1 ≤ 7)), (2, decide (c.n 2 ≤ 3)), (3, decide (c.n 3 ≤ 65535) && (decide (c.n 2 = 2) || decide (c.n 3 = 0)))]
  act := fun e h c =>
    if c.n 2 = 0 ∨ (c.n 2 = 3 ∧ e.debugDis = true) then
      refuse stBadParam (refusedWrite 11 0x28 (BitVec.ofNat 64 (c.d 1)) { h with prot := { h.prot with refused := h.prot.refused + 1 } }) 2
    else ok [] (loadKey (c.n 1) (c.n 2) (c.n 3) (keyOf c 4) h) }

/-- KEY_LOAD (R431, R478). -/
def execKeyLoad (c : Cmd) (s : State) : Host.Outcome State Fault Refusal := s.runOp opKeyLoad c

/-- PROT_LOCK: the reply leaves before the lock takes its channel. -/
def opProtLock : OpDef := {
  code := 0xC1, changes := true, may := bootDom, form := fun c => c.words.isEmpty
  act := fun e _ _ => .later none (fun id h => lockProt false (finish e id stOk 0 [] true h)) }

/-- PROT_LOCK (R477, R624). -/
def execProtLock (c : Cmd) (s : State) : Host.Outcome State Fault Refusal := s.runOp opProtLock c

/-- Units whose registers DBG_READ and DBG_WRITE reach. -/
def regUnits : List Nat := [0, 1, 2, 3, 4, 5, 6, 8, 9, 10, 11, 12, 16, 24, 28, 30, 32]

/-- A unit code and a byte offset in its block (Table 12.13). -/
def dbgRange (c : Ctx) : Option Nat :=
  firstBad [(1, regUnits.contains (c.n 1)), (2, decide (c.n 2 % 8 = 0) && decide (c.n 2 < if c.n 1 = 16 then 0x20000 else 0x4000))]

/-- DBG_READ -/
def opDbgRead : OpDef := {
  code := 0xF0, may := debugDom, form := fun c => decide (c.words.length = 2), range := fun _ _ c => dbgRange c
  act := fun e h c => ok (w64 (readReg e h (c.n 1) (c.n 2) % 2 ^ 64)) h }

/-- DBG_READ (R476). -/
def execDbgRead (c : Cmd) (s : State) : Host.Outcome State Fault Refusal := s.runOp opDbgRead c

/-- DBG_WRITE: a direct write of the register in the same cycle is overridden (R613) -/
def opDbgWrite : OpDef := {
  code := 0xF1, changes := true, may := debugDom, form := fun c => decide (c.words.length = 4), range := fun _ _ c => dbgRange c
  act := fun e h c =>
    let u := c.n 1
    let o := c.n 2
    let v := BitVec.ofNat 64 (c.d 3)
    if serving h && !debugOnly u o then refuse stWrongState h
    else ok [] (if hasReg u o then commandField u o (writeReg e false true u o .whole v) h else ignoredWrite u o v h) }

/-- DBG_WRITE (R476). -/
def execDbgWrite (c : Cmd) (s : State) : Host.Outcome State Fault Refusal := s.runOp opDbgWrite c

/-- A 32-bit read on the port (R605, R609, R622): the low half loads the half hold; the high half that follows it returns it. -/
def read32 (e : Env) (a : BitVec 20) (h : Hub) : Hub :=
  let n := a.toNat
  let hold := h.regs.half
  let h := { h with regs := { h.regs with half := none } }
  if n % 4 ≠ 0 then
    let h := match locate (n / 8 * 8) with
      | some (u, o) => ignoredWrite u (o + n % 8) 0 h
      | none => ignoredWrite 0xFF n 0 h
    { h with regs := { h.regs with lastRead := 0 } }
  else
    let v := readWindow e h n
    if n % 8 = 0 then
      let h := if n = 0x8008 then { h with time := { h.time with fracLatch := h.time.tb.setWidth 32 } } else h
      { h with regs := { h.regs with half := some (a, (v >>> 32).setWidth 32), lastRead := v &&& 0xFFFFFFFF } }
    else
      let hi := match hold with
        | some (b, w) => if b.toNat + 4 = n then w else (v >>> 32).setWidth 32
        | none => (v >>> 32).setWidth 32
      { h with regs := { h.regs with lastRead := hi.setWidth 64 } }

/-- HALF_HOLD_READ (R609). -/
def execHalfHoldRead (addr : BitVec 20) (s : State) : Host.Outcome State Fault Refusal :=
  s.run (fun e h => guard (portOn h) (read32 e addr) h)

/-- CMD_EVENT_CLEAR (R468). -/
def execCmdEventClear (ch : BitVec 2) (bits : BitVec 3) (s : State) : Host.Outcome State Fault Refusal :=
  s.run (directReg 1 (0x1000 * ch.toNat + 0x18) (bits.setWidth 64) (fun _ => clearEvent ch.toNat bits))

/-- HUB_IRQSTAT_CLEAR (R620). -/
def execHubIrqstatClear (mask : BitVec 10) (s : State) : Host.Outcome State Fault Refusal :=
  s.run (directReg 0 0x38 (mask.setWidth 64) (fun _ => clearIrq mask))

/-- PROT_CH_WRITE (R477, R478, R624, R625). -/
def execProtChWrite (ch : BitVec 2) (part : Part) (v : DWord) (s : State) : Host.Outcome State Fault Refusal :=
  s.run (directReg 11 (8 + 8 * ch.toNat) v (fun e h => writeProt e (!h.prot.locked) ch.toNat part v h))

/-- RES_DBG_S_WRITE (R123, R159): in the DEBUG domain, or direct and so ignored. -/
def execResDbgSWrite (debug : Bool) (part : Part) (v : DWord) (s : State) : Host.Outcome State Fault Refusal :=
  s.run (fun e h => guard (portOn h)
    ((if debug then commandField 32 0x38 else portField 32 0x38 v) (writeReg e false debug 32 0x38 part v)) h)

end Sys2Proof.Machine
end

