-- ==== Sys2Proof/Machine/PacketOps.lean ====
section
/-!
DEFINITION. The opcode table (Tables 12.6 and 12.6a) and the first five checks of a packet (Table 12.3, R458, R459).
-/
namespace Sys2Proof.Machine

/-- Opcodes with their operations in code order; an opcode without operations has one definition. BCAST_PREPARE and BCAST_COMMIT join in
`opcodes`. -/
def baseOpcodes : List (Nat × List OpDef) :=
  [(0x00, [opSysInfo]), (0x01, [opSysReset]),
   (0x02, [opSysStateRead, opStateRequest .serving, opStateRequest .drowse, opStateRequest .dormant]),
   (0x10, [opTimeSet]), (0x11, [opTimeTrim]), (0x12, [opTimeRead]),
   (0x20, [opCellCfg]), (0x21, [opCntRead]), (0x22, [opCntSnap]), (0x23, [opWatchSet]), (0x24, [opRuleSet]),
   (0x30, [opResCfg]), (0x31, [opAuditRate]), (0x32, [opAuditRead]),
   (0x40, [opDigCfg]), (0x41, [opDigRead]), (0x42, [opDigCompare]), (0x43, [opDigOpen, opDigRelease, opDigCheckpoint]),
   (0x50, [opXsReduce]), (0x51, [opNormReq])] ++
  [(0x60, [opEnsLoad]), (0x61, [opEnsActivate]), (0x62, [opEnsRun]), (0x63, [opFeatWrite]), (0x64, [opEnsRollback]),
   (0x70, [opPolicySet]), (0x71, [opFence]), (0x72, [opUnfence]), (0x73, [opExpel]), (0x74, [opShadowStart]),
   (0x75, [opTestSchedule, opTestCancel, opTestDone]), (0x76, [opVerdictRead]),
   (0x80, [opPlanMode, opPlanSet, opPlanAuto, opPlanAck, opProbeDone]), (0x81, [opLifeRead])] ++
  [(0x90, [opTrcCfg]), (0x91, [opTrigArm, opTrigDisarm, opTrigFire, opTrigRelease, opTrigDump]), (0x92, [opNidCfg]),
   (0xA0, [opRecRead]), (0xA1, [opRecMark]), (0xB2, [opJobSet, opJobList false, opJobList true, opJobRead]),
   (0xC0, [opKeyLoad]), (0xC1, [opProtLock]), (0xC2, [opImgLoad]), (0xF0, [opDbgRead]), (0xF1, [opDbgWrite])]

/-- What stands in for an operation that is missing (step 11) or unknown (step 13): the domains and the units of the opcode's operations. -/
def noOperation (code : Nat) (ds : List OpDef) (missing : Bool) : OpDef := {
  code := code, may := fun c => ds.any (fun d => d.may c), runs := fun e h => ds.any (fun d => d.runs e h), form := fun _ => !missing
  range := fun _ _ _ => some 1, act := fun _ h _ => refuse stBadParam h 1 }

/-- The definition of an opcode and operation in a table of opcodes (R473, R474); none when the opcode is not assigned. -/
def opIn (t : List (Nat × List OpDef)) (code : Nat) (ws : List Word) : Option OpDef :=
  match (t.find? (fun p => decide (p.1 = code))).map Prod.snd with
  | none => none
  | some [d] => some d
  | some ds => match ws with
    | [] => if code = 0x02 then ds.head? else some (noOperation code ds true)
    | w :: _ => some ((ds[w.toNat]?).getD (noOperation code ds false))

/-- A packet after steps 1 to 4: refused, with the opcode and CSEQ to echo, or its opcode, ORDER, CSEQ, target and parameters. -/
inductive Parsed where
  | bad (code : Nat) (cseq : Word) (st : Nat)
  | good (code : Nat) (order : Bool) (cseq : Word) (target : Node) (params : List Word)

/-- Steps 1 to 4 of Table 12.3 on received bytes (R458, R459). -/
def parsePacket (b : List Byte) : Parsed :=
  let z := b ++ List.replicate 8 0
  let w0 := beAt z 0 4
  let code := bitsOf w0 23 16
  let cseq := BitVec.ofNat 32 (beAt z 4 4)
  let n := b.length
  if n < 16 ∨ n > 1408 ∨ n % 4 ≠ 0 then .bad code cseq stBadLength
  else if (crc32c (b.take (n - 4))).toNat ≠ beAt b (n - 4) 4 then .bad code cseq stCrcFail
  else if bitsOf w0 31 28 ≠ 1 ∨ bitsOf w0 27 26 ≠ 0 ∨ bitOf w0 24 = true ∨ bitsOf (beAt b 8 4) 31 18 ≠ 0 then .bad code cseq stBadOpcode
  else if n ≠ 16 + 4 * bitsOf w0 15 0 then .bad code cseq stBadLength
  else .good code (bitOf w0 25) cseq (BitVec.ofNat 18 (beAt b 8 4)) (bytesWords ((b.drop 12).take (n - 16)))

/-- Refuse a packet before step 6. -/
def refusePacket (e : Env) (req : Requester) (dj : Domain × Option (BitVec 16)) (code : Nat) (cseq : Word) (st : Nat) (h : Hub) : Hub :=
  replyOnly e code { req := req, dom := dj.1, job := dj.2, cseq := cseq, words := [] } st h

/-- A received packet, from step 1 on. -/
def packetIn (t : List (Nat × List OpDef)) (e : Env) (req : Requester) (b : List Byte) (h : Hub) : Hub :=
  match reqDom e h req with
  | none => h
  | some dj => match parsePacket b with
    | .bad code cseq st => refusePacket e req dj code cseq st h
    | .good code order cseq target params => match opIn t code params with
      | none => refusePacket e req dj code cseq stBadOpcode h
      | some d => runCmd d e { req := req, order := order, cseq := cseq, target := target, params := params } h

/-! Reports upward (R25, R393, R426, R435). The spec gives a report packet no layout, and the sideband no frame type for reports other than
verdicts: the notice form of Table 12.2, and the REPLY frame with RID 0, are DESIGN CHOICE (log 68). -/

/-- Number of a kind of report, in the place of a notice's opcode. -/
def ReportKind.code : ReportKind → Nat
  | .verdict => 0 | .act => 1 | .recommendation => 2 | .unchecked => 3 | .split => 4 | .singlePath => 5 | .span => 6 | .relayout => 7
  | .rekey => 8 | .concentration => 9 | .plcaConflict => 10 | .failover => 11 | .addressConflict => 12 | .dieLost => 13 | .trayLost => 14
  | .promotion => 15 | .failedAdmission => 16 | .plan => 17 | .mgtFigures => 18

/-- A report's packet: its kind, its entity and its words. -/
def Report.packet (r : Report) : List Byte :=
  replyBytes {
    notice := true, opcode := BitVec.ofNat 8 r.kind.code, cseq := 0, status := 0, domain := 0, detail := 0, tb := BitVec.ofNat 64 r.tb
    result := r.entity :: r.vals.map w32 }

/-- A report's sideband frame: VERDICT for a verdict, REPLY for any other. -/
def Report.frame (r : Report) : SbFrame :=
  match r.kind, r.vals with
  | .verdict, [_, v, score, gen, slot, floor, cause] => { ftype := 8, payload := .verdict {
      seq := 0, entity := r.entity, verdict := BitVec.ofNat 3 v, cause := BitVec.ofNat 3 cause, score := w32 score, generation := w32 gen
      slot := w32 slot, floor := w32 floor } }
  | _, _ => { ftype := 7, payload := .reply (List.replicate 8 0 ++ r.packet) }

/-- The reports that wait can go: a die's while it has its tray, a tray's while a key slot 0 authenticates them. -/
def reportsGo (e : Env) (h : Hub) : Bool :=
  if e.tray then mgtRuns e h && (Tab.find h.cmd.keys 0).isSome else sbRuns h && !h.sb.trayLost

/-- Send one report: over the sideband to the tray, or over the management port to the parent in its class. -/
def sendReport (e : Env) (r : Report) (h : Hub) : Hub :=
  if e.tray then
    match Tab.find h.cmd.keys 0 with
    | none => h
    | some k => mgtSend r.tc.toNat none (envelope 0 r.tc.toNat 2 (nodeNo e h) r.packet k)
        { h with cmd := { h.cmd with keys := Tab.put h.cmd.keys 0 { k with txSeq := k.txSeq + 1 } } }
  else sbUp e none r.frame h

/-- Send the reports that wait, TC0 first, each class in order; those that cannot go stay queued (R393). -/
def sendReports (e : Env) (h : Hub) : Hub :=
  if reportsGo e h then
    (h.reports.filter (fun r => r.tc == 0) ++ h.reports.filter (fun r => r.tc != 0)).foldl (fun h r => sendReport e r h) { h with reports := [] }
  else h

end Sys2Proof.Machine
end

