-- ==== Sys2Proof/Machine/BcastOps.lean ====
section
/-!
DEFINITION. Two-phase broadcast (R398–R407, R472): the body, the tree, the answers gathered, the ends of the phases.
-/
namespace Sys2Proof.Machine

/-- A broadcast body (Table 10.7). Phases: 0 PREPARE, 1 PREP_ACK, 2 COMMIT, 3 COMMIT_ACK, 4 ABORT. -/
structure BMsg where
  phase  : Nat
  group  : Nat
  bid    : Nat
  status : Nat := 0
  window : Nat := 0
  count  : Nat := 0
  data   : List Byte := []
  deriving DecidableEq, Repr

/-- The bytes of a body. -/
def BMsg.bytes (m : BMsg) : List Byte :=
  beBytes 4 (m.phase * 2 ^ 28 + m.bid) ++ beBytes 4 (m.group * 2 ^ 16 + m.status) ++ beBytes 4 m.window ++ beBytes 4 m.count ++ m.data

/-- A body read back; other phases are discarded. -/
def readBMsg (b : List Byte) : Option BMsg :=
  let p := bitsOf (beAt b 0 4) 31 28
  if b.length < 16 ∨ p > 4 then none
  else some {
    phase := p, group := beAt b 4 2, bid := beAt b 2 2, status := beAt b 6 2, window := beAt b 8 4, count := beAt b 12 4, data := b.drop 16 }

/-- A mask of `n` bits over numbers modulo `n`, most significant byte first. -/
def maskBytes (n : Nat) (l : List Nat) : List Byte := beBytes (n / 8) (l.foldl (fun m x => m ||| 2 ^ (x % n)) 0)
/-- The numbers of a list that a mask of `n` bits at an offset names. -/
def maskOf (b : List Byte) (o n : Nat) (l : List Nat) : List Nat := l.filter (fun x => bitOf (beAt b o (n / 8)) (x % n))

/-- Change the broadcast unit. -/
def onBc (f : BcastU → BcastU) (h : Hub) : Hub := { h with bc := f h.bc }
/-- A broadcast held here. -/
def heldB (h : Hub) (g b : Nat) : Option Bcast := h.bc.held.find? (fun x => decide (x.group.toNat = g) && decide (x.bid.toNat = b))
/-- Is it this broadcast? -/
def sameB (x y : Bcast) : Bool := decide (x.group = y.group) && decide (x.bid = y.bid)
/-- Keep a broadcast in its place. -/
def putB (x : Bcast) (h : Hub) : Hub := onBc (fun u => { u with held := u.held.map (fun y => if sameB x y then x else y) }) h
/-- Hold a new broadcast. -/
def addB (x : Bcast) (h : Hub) : Hub := onBc (fun u => { u with held := u.held ++ [x] }) h
/-- Let a broadcast go. -/
def dropB (x : Bcast) (h : Hub) : Hub := onBc (fun u => { u with held := u.held.filter (fun y => !sameB x y) }) h

/-- The group of a broadcast; a block that does not know the handle knows no members. -/
def groupB (h : Hub) (g : Nat) : Group := (groupOf h g).getD { root := 0, dies := [] }
/-- Members of a group in a tray. -/
def membersIn (h : Hub) (g t : Nat) : List Nat := (groupB h g).dies.filter (fun d => decide (d / 128 = t))
/-- Members of a group in some trays. -/
def membersOf (h : Hub) (g : Nat) (ts : List Nat) : List Nat := (groupB h g).dies.filter (fun d => ts.contains (d / 128))

/-! The tree. -/

/-- The combiner through which the root reaches a tray, when that is another block. -/
def viaComb (g : Group) (t : Nat) : Option Nat := (combinerFor g t).filter (fun c => decide (c ≠ g.root))

/-- Trays whose answers this tray-role block gathers above its own tray: every other tray at the root, at a combiner those of its block
that are not the root's. -/
def traysBelow (e : Env) (h : Hub) (g : Nat) : List Nat :=
  let gr := groupB h g
  let me := myTray h
  if !e.tray then []
  else if me = gr.root then (groupTrays gr).filter (fun t => decide (t ≠ me))
  else (groupTrays gr).filter (fun t => decide (t ≠ me) && decide (t ≠ gr.root) && decide (viaComb gr t = some me))

/-- The trays to which this block sends for them: at the root the combiners and the trays without one. -/
def traysTo (e : Env) (h : Hub) (g : Nat) : List Nat :=
  let gr := groupB h g
  if myTray h = gr.root then ((traysBelow e h g).map (fun t => (viaComb gr t).getD t)).eraseDups else traysBelow e h g

/-- The children in the tray's primary tree (R391): at the tray the dies behind its ports, at a die those its routes name. -/
def treeKids (e : Env) (h : Hub) : List Nat :=
  if e.tray then (trayDies h).filter (fun d => (member h d).primary.any (fun p => decide (p.2.nhops = 0)))
  else h.sb.children.filterMap (fun dir => (meshStep h (dieNo e h) dir.toNat).map Prod.fst)

/-- The height of a block's subtree in its tray's primary tree (R400): links below a die; at the tray they are counted from the tray,
and the tray itself counts one more. -/
def treeHeight (e : Env) (h : Hub) : Nat :=
  let t := primaryTree true h
  if e.tray then (t.map (fun p => p.hops.length + 2)).foldl max 1
  else
    let d := dieNo e h
    let own := ((t.find? (fun p => decide (p.die = d))).map (fun p => p.hops.length)).getD 0
    ((t.filter (fun p => p.via.contains d)).map (fun p => p.hops.length - own)).foldl max (b2n (!(treeKids e h).isEmpty))

/-- A frame that carries a body. -/
def bFrame (m : BMsg) : SbFrame := { ftype := 9, payload := .bcast m.bytes }
/-- A Photen BCAST packet to a tray. -/
def bPhoten (node : Nat) (m : BMsg) (h : Hub) : Hub := photenSend 1 1 node m.group 0 m.bytes h

/-- Send a body to the tree children, over one link each. -/
def sendKids (e : Env) (m : BMsg) (h : Hub) : Hub :=
  if e.tray then (treeKids e h).foldl (fun h d => sbDown e false d (bFrame m) h) h
  else h.sb.children.foldl (fun h dir => sbAlong e (mkRoute [dir.toNat]) 0 (bFrame m) (sbNextMseq h)) h

/-- Send an answer back the way the PREPARE or COMMIT came. -/
def sendBack (e : Env) (b : Back) (m : BMsg) (h : Hub) : Hub :=
  match b with
  | .root => h
  | .photen n => bPhoten n.toNat m h
  | .sb r => sbAlong e r 0 (bFrame m) (sbNextMseq h)

/-! Remembered answers (R399, R407). -/

/-- The answers remembered of a group, oldest first. -/
def seenOf (h : Hub) (g : Nat) : List BcastSeen := h.bc.seen.filter (fun x => decide (x.group.toNat = g))
/-- What this block answered to a broadcast. -/
def seenB (h : Hub) (g b : Nat) : Option BcastSeen := (seenOf h g).find? (fun x => decide (x.bid.toNat = b))
/-- A BID older than the 64 remembered. -/
def tooOld (h : Hub) (g b : Nat) : Bool :=
  let l := seenOf h g
  decide (l.length ≥ 64) && l.all (fun x => let up := ahead 16 x.bid.toNat b; decide (1 ≤ up) && decide (up ≤ 32767))

/-- Remember an answer: 64 BIDs of each group, the oldest forgotten. -/
def noteSeen (commit : Bool) (g b : Nat) (bytes : List Byte) (h : Hub) : Hub :=
  let x : BcastSeen := (seenB h g b).getD { group := BitVec.ofNat 16 g, bid := BitVec.ofNat 16 b }
  let x := if commit then { x with commit := some bytes } else { x with prep := some bytes }
  let mine := (seenOf h g).filter (fun y => decide (y.bid ≠ x.bid)) ++ [x]
  onBc (fun u => { u with seen := u.seen.filter (fun y => decide (y.group.toNat ≠ g)) ++ mine.drop (mine.length - 64) }) h

/-! The check of an embedded command (R399, R472). -/

/-- The embedded packet of a broadcast, with its definition; or the status that refuses it. -/
def embedded (b : List Byte) : Sum Nat (OpDef × Cmd) :=
  match parsePacket b with
  | .bad _ _ st => .inl st
  | .good code order cseq target params =>
    if [0xB0, 0xB1, 0xC0, 0xC1, 0xC2].contains code then .inl stNotPermitted
    else match opIn baseOpcodes code params with
      | none => .inl stBadOpcode
      | some d =>
        if cseq ≠ 0 ∨ target ≠ 0x3FFFF then .inl stBadParam
        else .inr (d, { req := .broadcast, order := order, cseq := cseq, target := target, params := params })

/-- The status that executing the embedded command in the FLEET domain would give now; nothing is applied. -/
def checkEmbedded (e : Env) (b : List Byte) (h : Hub) : Nat :=
  match embedded b with
  | .inl st => st
  | .inr (d, c) =>
    let x := mkCtx c (.fleet, none)
    if !d.may x then stNotPermitted
    else if h.sys.st == .flush || decide (inProgress h ≥ 32) then stBusy
    else if !(admitted d.code h && d.runs e h) then stWrongState
    else if !d.form x then stBadLength
    else if (d.see e h x).isSome then stNotPermitted
    else if (d.range e h x).isSome then stBadParam
    else match d.act e h x with
      | .done st _ _ _ => st
      | .later _ _ => stOk

/-- Apply a prepared command; its reply goes to the record (R472). -/
def applyEmbedded (e : Env) (b : List Byte) (h : Hub) : Hub :=
  match embedded b with
  | .inl _ => h
  | .inr (d, c) => runCmd d e c h

/-! Phases. -/

/-- The body this block sends below in the phase it is in: the PREPARE, or the COMMIT or ABORT with the masks of those excluded. -/
def bodyDown (b : Bcast) (inTray : Bool) : BMsg :=
  let m : BMsg := { phase := 0, group := b.group.toNat, bid := b.bid.toNat }
  if b.phase < 2 then { m with window := b.window.toNat, count := b.cmd.length, data := b.cmd }
  else { m with phase := (if b.abort then 4 else 2), data := maskBytes 1024 b.exT ++ (if inTray then maskBytes 128 b.exD else []) }

/-- Start a phase: send to the children and to the trays below, and set the deadlines (R400, R402). In a commit phase only those that are
not excluded are awaited above the tray. -/
def startPhase (e : Env) (b : Bcast) (h : Hub) : Hub × Bcast :=
  let g := b.group.toNat
  let kids := treeKids e h
  let below := traysBelow e h g
  let h := sendKids e (bodyDown b true) h
  let h := (traysTo e h g).foldl (fun h t => bPhoten (2 ^ 17 + t) (bodyDown b false) h) h
  (h, { b with
    tree := 0, treeDue := nowNs h + treeHeight e h * h.bc.tack, awaitD := kids
    awaitT := if b.phase < 2 then below else below.filter (fun t => !b.exT.contains t)
    upDue := nowNs h + (if b.back == .root then 21 else 20) * h.bc.tack, upTry := false
    ackD := [], refD := [], ackT := [], refT := [], fullT := [], covered := 0, refused := 0 })

/-- The members of this tray whose answer is wanted in the phase. -/
def wantedD (h : Hub) (b : Bcast) : List Nat :=
  let l := membersIn h b.group.toNat (myTray h)
  if b.phase < 2 then l else l.filter (fun d => !b.exD.contains d)

/-- Those that have not answered. -/
def lackingD (h : Hub) (b : Bcast) : List Nat := (wantedD h b).filter (fun d => !(b.ackD.contains d || b.refD.contains d))

/-- The part within a tray goes on (R401): when its children have answered or its deadline has passed, the members without an answer are
asked on their alternate routes, and 2 × T_ack later those still without one are excluded. -/
def trayPart (e : Env) (b : Bcast) (h : Hub) : Hub × Bcast :=
  let now := nowNs h
  let r := if b.tree = 0 ∧ (b.awaitD.isEmpty = true ∨ b.treeDue ≤ now) then
      if (lackingD h b).isEmpty then (h, { b with tree := 2 })
      else ((lackingD h b).foldl (fun h d => sbDown e true d (bFrame (bodyDown b true)) h) h, { b with tree := 1, treeDue := now + 2 * h.bc.tack })
    else (h, b)
  let b := r.2
  if b.tree = 1 ∧ ((lackingD r.1 b).isEmpty = true ∨ b.treeDue ≤ now) then (r.1, { b with tree := 2 }) else (r.1, b)

/-- Members that the end of the prepare phase excludes in this tray (R401). -/
def excludeD (h : Hub) (b : Bcast) : Bcast := if b.phase < 2 then { b with exD := lackingD h b ++ b.refD } else b

/-- The part above the tray goes on (R402): at the deadline the root sends to the trays of the combiners that are missing and waits once more;
otherwise the trays without an answer are excluded with all their dies. -/
def upPart (b : Bcast) (h : Hub) : Hub × Bcast :=
  if b.awaitT.isEmpty || decide (nowNs h < b.upDue) then (h, b)
  else
    let gr := groupB h b.group.toNat
    let orphan := if b.back == .root && !b.upTry then b.awaitT.filter (fun t => (viaComb gr t).isSome) else []
    let lost := b.awaitT.filter (fun t => !orphan.contains t)
    let h := orphan.foldl (fun h t => bPhoten (2 ^ 17 + t) (bodyDown b false) h) h
    (h, { b with
      awaitT := orphan, upTry := true, upDue := b.upDue + 20 * h.bc.tack, tree := if orphan.isEmpty then 2 else b.tree
      exT := if b.phase < 2 then b.exT ++ lost else b.exT })

/-- Members of the group this block has found excluded. -/
def excludedCount (h : Hub) (b : Bcast) : Nat :=
  b.exD.length + ((membersOf h b.group.toNat b.exT).filter (fun d => decide (d / 128 ≠ myTray h))).length

/-- The answer of this block in its phase: within a tray the masks of dies, above it those of trays (Table 10.7). -/
def answerOf (e : Env) (h : Hub) (b : Bcast) : BMsg :=
  let m : BMsg := { phase := (if b.phase < 2 then 1 else 3), group := b.group.toNat, bid := b.bid.toNat, count := b.ackD.length + b.refD.length }
  if e.tray then
    let own := fun (l : List Nat) => if l.isEmpty then [] else [myTray h]
    { m with
      status := (b.refused + b.refD.length) % 65536, count := m.count + b.covered
      data := maskBytes 128 (own b.ackD ++ b.ackT) ++ maskBytes 128 (own b.refD ++ b.refT) }
  else
    { m with
      status := if b.ackD ++ b.refD = [dieNo e h] then b.status.toNat else 0
      data := maskBytes 128 b.ackD ++ maskBytes 128 b.refD }

/-- The root's vector: bit n set when die n is prepared (R403). -/
def rootVector (h : Hub) (b : Bcast) : List Byte :=
  let l := b.ackD ++ membersOf h b.group.toNat b.fullT
  leBytes 16384 (l.foldl (fun m d => m ||| 2 ^ d) 0)

/-- A phase ends at this block: the answer goes up and is remembered; the root completes its command (R403, R404). -/
def endPhase (e : Env) (b : Bcast) (h : Hub) : Hub :=
  let g := b.group.toNat
  let total := (groupB h g).dies.length
  let h := { h with fab := { h.fab with phases := h.fab.phases + 1, excluded := h.fab.excluded + (if b.phase < 2 then excludedCount h b else 0) } }
  let acked := b.ackD.length + (b.covered - b.refused)
  let refused := b.refD.length + b.refused
  match b.back, b.pend with
  | .root, some id =>
    if b.phase < 2 then
      let h := putB { b with phase := 1, pend := none, prepared := acked } h
      finish e id stOk 0 [w32 acked, w32 refused, w32 (total - acked - refused)] true (postMem b.dest (rootVector h b) h)
    else finish e id stOk 0 [w32 acked, w32 (b.prepared - acked)] true (dropB b h)
  | back, _ =>
    let m := answerOf e h b
    let h := noteSeen (decide (b.phase ≥ 2)) g b.bid.toNat m.bytes (sendBack e back m h)
    if b.phase < 2 then putB { b with phase := 1 } h else dropB b h

/-- A broadcast goes on as far as its answers and its deadlines let it. -/
def advanceB (e : Env) (b : Bcast) (h : Hub) : Hub :=
  if e.tray then
    let r := trayPart e b h
    let r := upPart r.2 r.1
    if r.2.tree = 2 ∧ r.2.awaitT.isEmpty = true then endPhase e (excludeD r.1 r.2) r.1 else putB r.2 r.1
  else if b.awaitD.isEmpty = true ∨ b.treeDue ≤ nowNs h then endPhase e b h
  else putB b h

/-- A broadcast is waiting for answers. -/
def waitingB (b : Bcast) : Bool := b.phase == 0 || b.phase == 2

end Sys2Proof.Machine
end

