-- ==== Sys2Proof/Machine/BcastCmds.lean ====
section
/-!
DEFINITION. The broadcast's commands and events (R398–R407, R472).
-/
namespace Sys2Proof.Machine

/-- The broadcast named by a command's first two words, at its root. -/
def rootB (h : Hub) (c : Ctx) : Option Bcast := (heldB h (c.n 1) (c.n 2)).filter (fun b => b.back == .root)

/-- Start a broadcast at its root. -/
def startRoot (e : Env) (c : Ctx) (id : Nat) (h : Hub) : Hub :=
  let b : Bcast := {
    group := BitVec.ofNat 16 (c.n 1), bid := BitVec.ofNat 16 (c.n 2), window := c.w 3, cmd := wordsBytes (c.from_ 6), back := .root
    pend := some id, dest := c.d 4, hold := nowNs h }
  let r := startPhase e b (addB b (onBc (fun u => { u with last := Tab.put u.last (c.n 1) b.bid }) h))
  advanceB e r.2 r.1

/-- The broadcast needs Photen packets to other trays while the Photen port sends heartbeats only (R35, R381). DEDUCED (log 72). -/
def photenShut (h : Hub) (g : Group) : Bool := h.sys.st == .drowse && (groupTrays g).any (fun t => decide (t ≠ myTray h))

/-- BCAST_PREPARE -/
def opBcastPrepare : OpDef := {
  code := 0xB0, changes := true, may := fleetDom, form := fun c => decide (9 ≤ c.words.length) && decide (c.words.length ≤ 53)
  range := fun _ _ c => firstBad [(1, decide (c.n 1 < 1024)), (2, decide (c.n 2 < 65536))]
  act := fun e h c =>
    match groupOf h (c.n 1) with
    | none => refuse stNotPermitted h
    | some g =>
      let up := ((Tab.find h.bc.last (c.n 1)).map (fun l => ahead 16 (c.n 2) l.toNat)).getD 1
      if !e.tray || decide (g.root ≠ myTray h) then refuse stNotPermitted h
      else if photenShut h g then refuse stWrongState h
      else if !(decide (1 ≤ up) && decide (up ≤ 32767)) then refuse stReplay h
      else if h.bc.held.length ≥ 4 then refuse stBusy h
      else if g.dies.isEmpty then
        let b : Bcast := {
          group := BitVec.ofNat 16 (c.n 1), bid := BitVec.ofNat 16 (c.n 2), window := c.w 3, cmd := wordsBytes (c.from_ 6), back := .root
          phase := 1, hold := nowNs h }
        ok [0, 0, 0] (addB b (onBc (fun u => { u with last := Tab.put u.last (c.n 1) b.bid }) h))
      else if !writable h (c.d 4) 16384 then refuse stBadParam h 4
      else .later none (startRoot e c) }

/-- BCAST_PREPARE (R398, R402, R403, R406, R407). -/
def execBcastPrepare (c : Cmd) (s : State) : Host.Outcome State Fault Refusal := s.runOp opBcastPrepare c

/-- BCAST_COMMIT: group, BID, abort flag. -/
def opBcastCommit : OpDef := {
  code := 0xB1, changes := true, may := fleetDom, form := fun c => decide (c.words.length = 3)
  range := fun _ _ c => firstBad [(1, decide (c.n 1 < 1024)), (2, decide (c.n 2 < 65536)), (3, decide (c.n 3 ≤ 1))]
  act := fun e h c =>
    match rootB h c with
    | none => refuse stNotFound h 2
    | some b =>
      if b.phase ≠ 1 || photenShut h (groupB h (c.n 1)) then refuse stWrongState h
      else if (groupB h (c.n 1)).dies.isEmpty then ok [0, 0] (dropB b h)
      else .later none (fun id h =>
        let r := startPhase e { b with phase := 2, abort := decide (c.n 3 = 1), pend := some id } h
        advanceB e r.2 (putB r.2 r.1)) }

/-- BCAST_COMMIT (R404, R406). -/
def execBcastCommit (c : Cmd) (s : State) : Host.Outcome State Fault Refusal := s.runOp opBcastCommit c

/-- A broadcast body that has arrived: who sent it and the way back. -/
structure BRx where
  src  : Nat
  back : Back
  msg  : BMsg

/-- The way back along the route of a copy (R399): the tray's own, reversed, or over the link it came by. -/
def backOf (e : Env) (port : Nat) (f : SbFrame) (h : Hub) : Route :=
  if f.src.toNat ≥ 2 ^ 17 then (upRoute e h (f.tport, ⟨f.route, f.nhops⟩)).getD (mkRoute [port]) else mkRoute [port]

/-- Receive a broadcast message over Photen, in tray role, or over the sideband, and act on the phases wanted. -/
def bcastRx (e : Env) (m : BcastIn) (want : List Nat) (f : BRx → Hub → Hub) (h : Hub) : Hub :=
  match m with
  | .photen p port =>
    photenRx e 1 p port.toNat (fun r h =>
      match readBMsg r.body with
      | some b => if e.tray && want.contains b.phase then f { src := r.src, back := .photen (BitVec.ofNat 18 r.src), msg := b } h else h
      | none => h) h
  | .sb port fr =>
    sbOn e 9 port.toNat fr (fun h =>
      if !sbMine e fr then h
      else match sbAssemble fr h with
        | (h, none) => h
        | (h, some bs) => match readBMsg bs with
          | some b => if want.contains b.phase then f { src := fr.src.toNat, back := .sb (backOf e port.toNat fr h), msg := b } h else h
          | none => h) h

/-- A refusal without holding the broadcast: the fifth (BUSY), or a BID older than those remembered (REPLAY). -/
def refuseB (e : Env) (x : BRx) (st : Nat) (h : Hub) : Hub :=
  let own := if e.tray then myTray h else dieNo e h
  sendBack e x.back { x.msg with
    phase := 1, status := (if e.tray then 0 else st), window := 0, count := b2n (!e.tray), data := maskBytes 128 [] ++ maskBytes 128 [own] } h

/-- A message whose sender may be a PREPARE's: in tray role from a tray over Photen, in die role over the sideband. -/
def fromAbove (e : Env) (x : BRx) : Bool :=
  match x.back with
  | .photen _ => e.tray
  | .sb _ => !e.tray
  | .root => false

/-- A PREPARE arrives (R399, R407). -/
def prepareIn (e : Env) (x : BRx) (h : Hub) : Hub :=
  let g := x.msg.group
  let b := x.msg.bid
  let cmd := x.msg.data.take x.msg.count
  if !fromAbove e x then h
  else if (heldB h g b).isSome || (seenB h g b).isSome then
    match (seenB h g b).bind BcastSeen.prep with
    | some bytes => match readBMsg bytes with
      | some m => sendBack e x.back m h
      | none => h
    | none => h
  else if tooOld h g b then refuseB e x stReplay h
  else if h.bc.held.length ≥ 4 then refuseB e x stBusy h
  else
    let member := !e.tray && (groupB h g).dies.contains (dieNo e h)
    let st := if member then (if cmd.length > 192 then stBadLength else checkEmbedded e cmd h) else 0
    let n : Bcast := {
      group := BitVec.ofNat 16 g, bid := BitVec.ofNat 16 b, window := BitVec.ofNat 32 x.msg.window, cmd := cmd, back := x.back
      member := member, status := BitVec.ofNat 16 st, hold := nowNs h }
    let r := startPhase e n (addB n h)
    let own := fun (yes : Bool) => if member && yes then [dieNo e h] else []
    advanceB e { r.2 with ackD := own (decide (st ≤ 1)), refD := own (decide (st > 1)) } r.1

/-- BCAST_PREPARE_RECEIVE (R399, R407, R472). -/
def execBcastPrepareReceive (m : BcastIn) (s : State) : Host.Outcome State Fault Refusal :=
  s.run (fun e h => bcastRx e m [0] (prepareIn e) h)

/-- An answer that no broadcast here waits for is discarded, counted and recorded (R401). -/
def lateAck (x : BRx) (h : Hub) : Hub :=
  emit 15 0 0 noEnt 4 4 [w32 x.msg.group, w32 x.msg.bid, w32 x.src, w32 x.msg.phase] (onBc (fun u => { u with lateAcks := u.lateAcks + 1 }) h)

/-- The members of this tray that an answer's mask names. -/
def dieMask (h : Hub) (x : BRx) (o : Nat) : List Nat := maskOf x.msg.data o 128 (membersIn h x.msg.group (myTray h))

/-- Two lists without repeats. -/
def unionNat (a b : List Nat) : List Nat := a ++ b.filter (fun x => !a.contains x)

/-- An answer of a die (R400, R401). -/
def dieAck (e : Env) (x : BRx) (b : Bcast) (h : Hub) : Hub :=
  if e.tray && decide (b.tree = 2) then lateAck x h
  else
    let ack := dieMask h x 0
    let ref := dieMask h x 16
    advanceB e { b with
      awaitD := b.awaitD.filter (fun d => decide (d ≠ x.src)), ackD := unionNat b.ackD ack, refD := unionNat b.refD ref } h

/-- An answer of a tray or a combiner (R402): it stands for every tray awaited behind it. -/
def trayAck (e : Env) (x : BRx) (b : Bcast) (h : Hub) : Hub :=
  let t := x.src - 2 ^ 17
  let gr := groupB h x.msg.group
  let ts := b.awaitT.filter (fun y => decide (y = t) || decide (viaComb gr y = some t))
  if ts.isEmpty then lateAck x h
  else
    let ack := maskOf x.msg.data 0 128 ts
    let ref := maskOf x.msg.data 16 128 ts
    let full := decide (x.msg.status = 0) && decide (x.msg.count = (membersOf h x.msg.group ack).length)
    advanceB e { b with
      awaitT := b.awaitT.filter (fun y => !ts.contains y), ackT := b.ackT ++ ack, refT := b.refT ++ ref
      fullT := if full then b.fullT ++ ack else b.fullT
      covered := b.covered + x.msg.count, refused := b.refused + x.msg.status
      exT := if b.phase < 2 then b.exT ++ ts.filter (fun y => !ack.contains y) else b.exT } h

/-- An answer arrives: for the phase that this block is in, from below. -/
def ackIn (e : Env) (x : BRx) (h : Hub) : Hub :=
  match heldB h x.msg.group x.msg.bid with
  | none => lateAck x h
  | some b =>
    if decide (b.phase ≠ x.msg.phase - 1) then lateAck x h
    else match x.back with
      | .sb _ => dieAck e x b h
      | _ => trayAck e x b h

/-- BCAST_ACK_RECEIVE (R400–R404). -/
def execBcastAckReceive (m : BcastIn) (s : State) : Host.Outcome State Fault Refusal :=
  s.run (fun e h => bcastRx e m [1, 3] (ackIn e) h)

/-- A deadline of a broadcast has passed. -/
def dueB (h : Hub) (b : Bcast) : Bool :=
  waitingB b && ((decide (b.tree < 2) && decide (b.treeDue ≤ nowNs h)) || (!b.awaitT.isEmpty && decide (b.upDue ≤ nowNs h)))

/-- The deadline of a broadcast that runs: that of its own tree, then that of the levels above. -/
def deadlineB (b : Bcast) : Nat := if b.tree < 2 then b.treeDue else b.upDue

/-- BCAST_ACK_DEADLINE (R400–R404). -/
def execBcastAckDeadline (group bid : BitVec 16) (s : State) : Host.Outcome State Fault Refusal :=
  s.run (fun e h =>
    match heldB h group.toNat bid.toNat with
    | none => h
    | some b => guard (upState h && dueB h b && !e.beaten evBcast (deadlineB b) (nowNs h)) (advanceB e b) h)

/-- A member's part in a COMMIT (R404): its prepared command is applied on arrival or at the end of the window named; excluded, it is
discarded. True when the member acknowledges. -/
def commitOwn (e : Env) (b : Bcast) (x : BRx) (h : Hub) : Hub × Bool :=
  let d := dieNo e h
  let out := bitOf (beAt x.msg.data 0 128) (d / 128 % 1024) || bitOf (beAt x.msg.data 128 16) (d % 128)
  if !b.member || decide (b.status.toNat > 1) || out then (h, false)
  else if x.msg.phase = 4 then (h, true)
  else if b.window = 0 ∨ windowEnded h b.window = true then (applyEmbedded e b.cmd h, true)
  else (onBc (fun u => { u with apply := u.apply ++ [(b.window, b.cmd)] }) h, true)

/-- A COMMIT or ABORT arrives: a copy of one answered already is answered again; one for a broadcast not held here is forwarded only. -/
def commitIn (e : Env) (x : BRx) (h : Hub) : Hub :=
  let g := x.msg.group
  if !fromAbove e x then h
  else match heldB h g x.msg.bid, (seenB h g x.msg.bid).bind BcastSeen.commit with
    | none, some bytes => match readBMsg bytes with
      | some m => sendBack e x.back m h
      | none => h
    | old, _ =>
      if old.any (fun b => decide (b.phase ≥ 2)) || (old.isNone && decide (h.bc.held.length ≥ 4)) then h
      else
        let new : Bcast := {
          group := BitVec.ofNat 16 g, bid := BitVec.ofNat 16 x.msg.bid, window := 0, cmd := [], back := x.back, hold := nowNs h }
        let b := old.getD new
        let h := if old.isNone then addB new h else h
        let local_ := membersIn h g (myTray h)
        let exT := maskOf x.msg.data 0 1024 (List.range 1024)
        let exD := if e.tray then (if exT.contains (myTray h) then local_ else b.exD) else maskOf x.msg.data 128 128 local_
        let b := { b with phase := 2, abort := decide (x.msg.phase = 4), back := x.back, exT := exT, exD := exD }
        let r := startPhase e b h
        let own := if e.tray then (r.1, false) else commitOwn e b x r.1
        advanceB e { r.2 with ackD := if own.2 then [dieNo e h] else [] } own.1

/-- BCAST_COMMIT_RECEIVE (R404). -/
def execBcastCommitReceive (m : BcastIn) (s : State) : Host.Outcome State Fault Refusal :=
  s.run (fun e h => bcastRx e m [2] (commitIn e) h)

/-- BCAST_ABORT_RECEIVE (R404). -/
def execBcastAbortReceive (m : BcastIn) (s : State) : Host.Outcome State Fault Refusal :=
  s.run (fun e h => bcastRx e m [4] (commitIn e) h)

/-- PREPARE_HOLD_EXPIRY (R405): the prepared command is discarded and the expiry recorded. A block that holds a broadcast without a command
prepared for itself (a tray-role block, a member that refused) lets it go at the same time, without a record. DESIGN CHOICE (log 101). -/
def execPrepareHoldExpiry (group bid : BitVec 16) (s : State) : Host.Outcome State Fault Refusal :=
  s.run (fun e h =>
    match heldB h group.toNat bid.toNat with
    | none => h
    | some b => guard (upState h && b.back != .root && decide (b.phase < 2) && decide (b.hold + h.bc.hold ≤ nowNs h) &&
        !e.beaten evCommit (b.hold + h.bc.hold) (nowNs h)) (fun h =>
        let h := dropB b h
        if b.member && decide (b.status.toNat ≤ 1) then emit 15 0 0 noEnt 4 4 [group.setWidth 32, bid.setWidth 32] h else h) h)

end Sys2Proof.Machine
end

