-- ==== Sys2Proof/Machine/PacketCmds.lean ====
section
/-!
DEFINITION. Packets as they arrive: over the register window, from the tray, in a management envelope (R432–R435, R458, R467, R469–R471); and
register writes.
-/
namespace Sys2Proof.Machine

/-- Every assigned opcode (Table 12.6). -/
def opcodes : List (Nat × List OpDef) := baseOpcodes ++ [(0xB0, [opBcastPrepare]), (0xB1, [opBcastCommit])]

/-! The register window. -/

/-- The block copies a submitted packet out of the buffer and takes it (R467); a LEN out of form is answered under R459. -/
def takeSubmitted (e : Env) (c : Nat) (h : Hub) : Hub :=
  match (chan h c).submitted with
  | none => h
  | some b => packetIn opcodes e (.channel (BitVec.ofNat 2 c)) b (onChan c (fun ch => { ch with submitted := none }) h)

/-- CMD_DOORBELL (R467, R468, R625). -/
def execCmdDoorbell (ch : BitVec 2) (len : BitVec 11) (s : State) : Host.Outcome State Fault Refusal :=
  s.run (directReg 1 (0x1000 * ch.toNat + 8) (len.setWidth 64)
    (fun e h => takeSubmitted e ch.toNat (ringDoorbell ch.toNat len.toNat h)))

/-- The channel whose doorbell an address is. -/
def doorbellAt (addr : Nat) : Option Nat :=
  match locate (addr / 8 * 8) with
  | some (u, o) => if u = 1 ∧ o % 0x1000 = 8 then some (o / 0x1000) else none
  | none => none

/-- REGISTER_WRITE (R8, R605, R608, R611, R612). -/
def execRegisterWrite (addr : BitVec 20) (size : BitVec 2) (v : DWord) (s : State) : Host.Outcome State Fault Refusal :=
  s.run (direct (fun e h =>
    let h := directWrite e addr.toNat size v h
    match doorbellAt addr.toNat with
    | some c => takeSubmitted e c h
    | none => h))

/-! Relays. -/

/-- RELAY_COMMAND (R469): a packet from step 5 on, whatever its opcode; for a member die steps 6 and 7 end in the relay. -/
def execRelayCommand (opcode : Byte) (c : Cmd) (s : State) : Host.Outcome State Fault Refusal :=
  s.run (fun e h =>
    match opIn opcodes opcode.toNat c.params, reqDom e h c.req with
    | some d, _ => runCmd d e c h
    | none, some dj => refusePacket e c.req dj opcode.toNat c.cseq stBadOpcode h
    | none, none => h)

/-- The SRC of a COMMAND is this die's tray-role block (R471): under the mesh map, or in PLAYA without one the sender of the first SYNC. -/
def ownTray (h : Hub) (src : Node) : Bool :=
  match h.img with
  | some i => decide (src.toNat = 2 ^ 17 + i.tray)
  | none => decide (h.sb.trayNode = some src)

/-- SB_COMMAND_RECEIVE (R469, R471, Table 12.7). -/
def execSbCommandReceive (port : BitVec 4) (f : SbFrame) (s : State) : Host.Outcome State Fault Refusal :=
  s.run (fun e h => sbOn e 6 port.toNat f (fun h =>
    if e.tray || !sbMine e f then h
    else if !ownTray h f.src then { h with sb := { h.sb with notTray := h.sb.notTray + 1 } }
    else match sbAssemble f h with
      | (h, none) => h
      | (h, some bs) =>
        let w := beAt bs 0 4
        let req : Requester :=
          .relay (BitVec.ofNat 4 (bitsOf (beAt bs 4 4) 27 24)) (domOf (bitsOf w 31 30)) (BitVec.ofNat 16 w) (BitVec.ofNat 24 (beAt bs 4 4))
        if bs.length < 8 then h else packetIn opcodes e req (bs.drop 8) h) h)

/-! Management envelopes (R432–R435). -/

/-- Step 1 of R432: version, kind, reserved field, and a LEN that agrees with the payload and with Table 11.5. -/
def envelopeForm (p : List Byte) : Bool :=
  let w := beAt p 0 4
  let len := bitsOf w 15 0
  decide (p.length ≥ 32) && decide (bitsOf w 31 28 = 1) && decide (bitsOf w 25 24 = 0) && decide (bitsOf (beAt p 12 4) 31 18 = 0) &&
    decide (len % 4 = 0) && decide (len ≤ 1408) && decide (p.length = 32 + len)

/-- The slot that authenticates an envelope (step 2). -/
def envelopeKey (h : Hub) (p : List Byte) : Option KeySlot :=
  let slot := bitsOf (beAt p 0 4) 23 16
  let n := p.length - 16
  if slot > 7 then none
  else (Tab.find h.cmd.keys slot).filter (fun k => decide ((aesCmac k.key (p.take n)).toNat = beAt p n 16))

/-- The replay window of a slot (R433): the slot with the SEQ taken, or none. -/
def seqWindow (k : KeySlot) (seq : Nat) : Option KeySlot :=
  let hi := k.h.toNat
  if seq = 0 then none
  else if seq > hi then
    let up := seq - hi
    some { k with h := BitVec.ofNat 64 seq, mask := (if up ≥ 64 then 0 else k.mask <<< up) ||| 1 }
  else if hi - seq ≤ 63 ∧ k.mask.getLsbD (hi - seq) = false then some { k with mask := k.mask ||| BitVec.ofNat 64 (2 ^ (hi - seq)) }
  else none

/-- The reply packet that refuses an envelope: opcode and CSEQ as they stand in the enclosed bytes. -/
def envelopeReply (p : List Byte) (st dom : Nat) (h : Hub) : List Byte :=
  let q := (p.drop 16).take (p.length - 32) ++ List.replicate 8 0
  replyBytes (mkReply (beAt q 1 1) (BitVec.ofNat 32 (beAt q 4 4)) st dom 0 [] h)

/-- An AUTH_FAIL reply (R435): KEYID 0xFF, the refused SEQ, a tag of zero. -/
def authFailBytes (src : Nat) (p : List Byte) (h : Hub) : List Byte :=
  let q := envelopeReply p stAuthFail 0 h
  beBytes 4 (2 ^ 28 + 2 ^ 26 + 2 ^ 24 + 0xFF * 2 ^ 16 + q.length) ++ beBytes 8 (beAt p 4 8) ++ beBytes 4 src ++ q ++ List.replicate 16 0

/-- An envelope that authenticates under no slot: counted, and answered once in 10 ms on its segment. -/
def authFail (e : Env) (b : Bool) (p : List Byte) (h : Hub) : Hub :=
  let h := onMgt (fun m => { m with authfail := m.authfail + 1 }) h
  if (seg h b).lastAuthFail.any (fun t => decide (nowNs h < t + 10000000)) then h
  else mgtSend 1 (some b) (authFailBytes (nodeNo e h) p h) (onSeg b (fun s => { s with lastAuthFail := some (nowNs h) }) h)

/-- An envelope's payload is a UDP frame of this content. -/
def isEnvelope (p : List Byte) (f : EthFrame) : Bool :=
  match f.body with
  | .udp _ _ q => q == p
  | _ => false

/-- An envelope with the same KEYID and SEQ passes the tag check on segment A in the same cycle (R434). -/
def twinOnA (e : Env) (h : Hub) (p : List Byte) : Bool :=
  e.waiting.any (fun i => match i with
    | .mgmtEnvelopeReceive false q => envelopeForm q && decide (bitsOf (beAt q 0 4) 23 16 = bitsOf (beAt p 0 4) 23 16) &&
        decide (beAt q 4 8 = beAt p 4 8) && (envelopeKey h q).isSome
    | _ => false)

/-- MGMT_ENVELOPE_RECEIVE (R432–R435). -/
def execMgmtEnvelopeReceive (seg_ : Bool) (payload : List Byte) (s : State) : Host.Outcome State Fault Refusal :=
  s.run (fun e h => guard (mgtRuns e h && h.sys.st != .config && segOn (seg h seg_)) (fun h =>
    let h := takeIngress seg_ (isEnvelope payload) h
    let slot := bitsOf (beAt payload 0 4) 23 16
    if !envelopeForm payload then onMgt (fun m => { m with stranger := m.stranger + 1 }) h
    else match envelopeKey h payload with
      | none => authFail e seg_ payload h
      | some k => match (if seg_ && twinOnA e h payload then none else seqWindow k (beAt payload 4 8)) with
        | none => mgtReply e slot seg_ (envelopeReply payload stReplay k.domain.toNat h) (onMgt (fun m => { m with replay := m.replay + 1 }) h)
        | some k' =>
          let h := onMgt (fun m => { m with ok := m.ok + 1 }) { h with cmd := { h.cmd with keys := Tab.put h.cmd.keys slot k' } }
          packetIn opcodes e (.key (BitVec.ofNat 3 slot) seg_) ((payload.drop 16).take (payload.length - 32)) h) h)

end Sys2Proof.Machine
end

