-- ==== Sys2Proof/Machine/WindowCmds.lean ====
section
/-!
DEFINITION. The end of an aggregation window (R17): changes that wait for it, telemetry contributions and coarsening (R223–R236), memory
conflict figures (R527–R529), step lags (R300) and the rhizome's start.
-/
namespace Sys2Proof.Machine

/-! What waits for a window's end. -/

/-- Commands of broadcasts whose named window has ended are applied (R404). -/
def applyBroadcasts (e : Env) (h : Hub) : Hub :=
  let due := h.bc.apply.filter (fun p => windowEnded h p.1)
  let h := onBc (fun u => { u with apply := u.apply.filter (fun p => !windowEnded h p.1) }) h
  due.foldl (fun h p => applyEmbedded e p.2 h) h

/-- The figures of the management port, reported each window in TC2 (Table 11.4). -/
def reportMgt (e : Env) (h : Hub) : Hub :=
  if mgtRuns e h then report 2 .mgtFigures (unitId e h 3) [h.mgt.stranger, h.mgt.fcs, h.mgt.size] h else h

/-! Conflict figures of the memory ranges (R527–R529). -/

/-- Numbers of the three busiest attachments. -/
def busiest (c0 : Nat) (l : List Nat) : List Word :=
  ((sortBy (fun (a b : Nat × Nat) => decide (b.1 < a.1)) l.zipIdx).take 3).map (fun p => w32 (c0 + p.2))

/-- A defeated range (R529): a re-key is decided for a BLOCK range when the policy allows it; otherwise, and within 24 h of a re-key, it is
recommended. -/
def defeated (e : Env) (i : Nat) (m : MapRange) (l : List Nat) (h : Hub) : Hub :=
  let x := unitId e h 6
  let now := nowNs h
  let recommend := fun (h : Hub) =>
    let h := emit 15 1 2 x 6 3 ([w32 i, w32 (1000 * l.foldl max 0 * l.length / l.sum)] ++ busiest m.r.c0 l) h
    report 2 .rekey x [i] (onMem (fun u => { u with recommend := u.recommend + 1 }) (onRange i (fun m => { m with since := none }) h))
  if !m.r.block then recommend h
  else if m.wanted.isSome || h.mem.migrating == some i then h
  else if actOn h 11 3 && !m.lastRekey.any (fun t => decide (now < t + 86400000000000)) then
    let act := nextRseq h
    onRange i (fun m => { m with wanted := some act, since := none }) (actRecord e 3 1 x (w32 i) h)
  else recommend (actRecord e 3 2 x (w32 i) h)

/-- One range at the end of a window: skew, light windows, and the run over the re-key hold (R527, R528). -/
def judgeRange (e : Env) (h : Hub) (i : Nat) : Hub :=
  match mapRange h i with
  | none => h
  | some m =>
    let n := m.r.n
    let l := (List.range n).map (fun c => getAt m.busy c 0)
    let wide := (imgOf h).windowNs
    let since := if 10 * l.sum < n * wide then m.since
      else if 1000 * l.foldl max 0 * n ≥ h.mem.skewMilli * l.sum then some (m.since.getD (nowNs h - wide)) else none
    let h := onRange i (fun m => { m with since := since, busy := [] }) h
    if since.any (fun t => decide (t + h.mem.rekeyHold ≤ nowNs h)) then defeated e i { m with since := since } l h else h

/-- Every range of the memory map. -/
def judgeMemory (e : Env) (h : Hub) : Hub := (List.range h.mem.ranges.length).foldl (judgeRange e) h

/-! Load and coarsening (R232–R236). -/

/-- This level's load in the window that ends: 2 saturated, 0 idle, 1 otherwise (R232). -/
def loadNow (h : Hub) : Nat := if h.xs.highAll then 2 else if h.xs.lowAll then 0 else 1

/-- A change of span, recorded and reported (R235). -/
def setSpan (e : Env) (c : Nat) (h : Hub) : Hub :=
  let h := emitState 5 [w32 h.xs.span, w32 c] h
  report 2 .span (unitId e h 30) [h.xs.span, c] (onXs (fun x => { x with span := c, sinceSpan := 0, idleRun := 0 }) h)

/-- The load of the window that ends (R232), and what the levels below have reported in it; a level that has reported nothing since keeps its
last report. What is sent from here on counts in the window that begins. -/
def takeLoad (h : Hub) : Hub :=
  let h := noteFill h
  let load := loadNow h
  noteFill (onXs (fun x => { x with
    load := load, sinceSpan := x.sinceSpan + 1, idleRun := if load = 0 then x.idleRun + 1 else 0, judgeHold := x.judgeHold - 1
    belowLoad := match x.belowNow with
      | some n => some n
      | none => x.belowLoad
    belowNow := none, highAll := true, lowAll := true }) h)

/-- The span that the load calls for, at a boundary that ends the current span (R233–R236). `w` is the window that begins. A die has no level
below; a saturated lower level coarsens whatever the one above has reported (R236, log 39). -/
def judgeLoad (e : Env) (w : Nat) (h : Hub) : Hub :=
  let x := h.xs
  if w % 2 ^ x.span ≠ 0 ∨ x.judgeHold ≠ 0 then h
  else if x.load = 2 ∧ (e.tray = false ∨ x.belowLoad.any (fun n => decide (n ≤ 1)) = true) ∧ x.sinceSpan ≥ 4 * 2 ^ x.span ∧ x.span < 6 ∧ w % 2 ^ (x.span + 1) = 0 then
    autoAct e 2 11 (unitId e h 30) 0 (setSpan e (x.span + 1)) (onXs (fun x => { x with sinceSpan := 0 }) h)
  else if x.span > 0 ∧ x.idleRun ≥ 16 * 2 ^ x.span then setSpan e (x.span - 1) h
  else h

/-! Telemetry (R227, R228, R298). -/

/-- The integer part of a binary32 value; none for the missing marker and for what is not finite. -/
def wordInt (v : Word) : Option Int :=
  match dec32 v with
  | .fin s m e => some (signedNat s (if e ≥ 0 then m * 2 ^ e.toNat else m / 2 ^ (-e).toNat))
  | _ => none

/-- The channel whose histogram a HIST_ADD figure names, where this block has it (R298). -/
def figureChannel (f : Figure) (h : Hub) : Option (Nat × Detector) :=
  if f.op = 4 then f.channel.bind (fun i => ((detectorsNow h)[i]?).bind (fun d => if d.hist then some (i, d) else none)) else none

/-- The geometry word of a channel's histogram (Table 6.7). -/
def channelGeom (d : Detector) : Nat := d.b * 2 ^ 9 + (d.e0 % 512).toNat

/-- Elements in a figure's vector: the bins of its geometry, or one. -/
def figureLen (f : Figure) : Nat := if f.op = 4 then bitsOf f.geom.toNat 15 9 else 1

/-- What this die contributes to a figure, with its geometry: a channel's histogram in the channel's own bins (R217, R298), or the feature that
the plan names, combined over the die's cores; the addends of an exact sum go through the lanes (R213), in the lowest context that is free. The
plan's layout is not given, and so is this reading of it. DESIGN CHOICE (log 39). -/
def figureElems (e : Env) (f : Figure) (h : Hub) : List Elem × Nat × Hub :=
  match figureChannel f h with
  | some (i, d) => ((detHist h i d.b).map Elem.bin, channelGeom d, h)
  | none =>
    let op := f.op.toNat
    let vs := (((List.range 2048).filter e.present).map (fun c => featRead h (coreId e h c) f.feature)).filter (fun v => decide (v ≠ missing))
    if op = 3 then
      let k := (freeCtx h).headD 15
      let h := laneBeats .add f32 k (vs.map BitVec.toNat) (clearCtx k h)
      ([.xa (laneSum h k)], f.geom.toNat, h)
    else if op = 4 then (List.replicate (figureLen f) (.bin 0), f.geom.toNat, h)
    else ([(vs.filterMap wordInt).foldl (fun a n => elemCombine op a (.int (BitVec.ofInt 64 n))) (elemZero op)], f.geom.toNat, h)

/-- A die's contribution to a figure's round of window `w` (Table 6.8, R228, R235, R243). Window 0 has no periodic rounds, because WINDOW 0 marks
those on demand; what it brings is carried. -/
def contributeFigure (e : Env) (w : Nat) (h : Hub) (f : Figure × Nat) : Hub :=
  match groupOf h f.1.group with
  | none => h
  | some g =>
    if !g.dies.contains (dieNo e h) then h
    else
      let c := figureElems e f.1 h
      let es := c.1
      let h := c.2.2
      let seq := seqOfFigure f.2 w
      let m : Red := { group := f.1.group, seq := seq, op := f.1.op.toNat, level := 0, geom := c.2.1, total := es.length, elems := es, window := w }
      if w = 0 then roundLate 0 { m with window := 1 } h
      else if !roundRoom e h m.group seq then roundNoRoom e 0 m h
      else
        let r : Round := { newRound h g m 2 [] with acc := accAdd m.op [] 0 es, contrib := 1, use := .telemetry f.2 }
        let c := takeCarry 0 r seq h
        let k := coarsen 0 seq c.2 c.1
        match k.2 with
        | none => k.1
        | some r => dieContribute e 2 (upMessage k.1 0 f.1.group seq r []) (putRound 0 m.group seq { r with acc := [], sent := true } k.1)

/-- A die sends its periodic contributions (R17, R227). -/
def contributeAll (e : Env) (w : Nat) (h : Hub) : Hub := ((imgOf h).figures.zipIdx).foldl (contributeFigure e w) h

/-- A tray-role block opens the rounds of a figure for window `w` at the levels that it serves, so that each has its cutoff although nothing may
come (R227), and puts its own channel's histogram into the tray's (R298). -/
def openFigure (e : Env) (w : Nat) (h : Hub) (f : Figure × Nat) : Hub :=
  match groupOf h f.1.group with
  | none => h
  | some g =>
    let m : Red := {
      group := f.1.group, seq := seqOfFigure f.2 w, op := f.1.op.toNat, level := 0, geom := f.1.geom.toNat, total := figureLen f.1, window := w }
    let own : Tab Elem := match figureChannel f.1 h with
      | some (i, d) => if channelGeom d = f.1.geom.toNat then accAdd m.op [] 0 ((detHist h i d.b).map Elem.bin) else []
      | none => []
    [(1, trayMembers h g), (2, combTrays h g), (3, if g.root = myTray h then groupTrays g else [])].foldl (fun h l =>
      if l.2.isEmpty || (roundAt h l.1 m.group m.seq).isSome then h
      else if !roundRoom e h m.group m.seq then emitUnit 23 (unitId e h 30) 30 [w32 m.group, w32 m.seq] h
      else putRound l.1 m.group m.seq { newRound h g m 2 l.2 with use := .telemetry f.2, acc := if l.1 = 1 then own else [] } h) h

/-- A tray-role block opens the periodic rounds of a window; window 0 has none. -/
def openPeriodic (e : Env) (w : Nat) (h : Hub) : Hub := if w = 0 then h else ((imgOf h).figures.zipIdx).foldl (openFigure e w) h

/-! Step lags (Table 8.3). -/

/-- The lower median of some numbers. -/
def medianNat (l : List Nat) : Nat := getAt (sortBy (fun (a b : Nat) => decide (a < b)) l) ((l.length + 1) / 2 - 1) 0

/-- A die's step lag in ns: the TB of its last step boundary less the median over the tray's dies of the same job and epoch. -/
def stepLag (h : Hub) (w d : Nat) : Option Int :=
  match Config.stepBoundary w d, jobOfDie h d with
  | some (tb, ep), some j =>
    let peers := (trayDies h).filterMap (fun q => (Config.stepBoundary w q).bind (fun p =>
      if p.2 = ep ∧ jobOfDie h q = some j then some p.1 else none))
    some ((tb : Int) - medianNat peers)
  | _, _ => none

/-- A lag as a feature. -/
def lagWord (l : Option Int) : Word := (l.map int32f).getD missing

/-- Step lags of the tray's dies, and of each replica the largest among its dies here. -/
def stepLags (e : Env) (w : Nat) (h : Hub) : Hub :=
  let h := (trayDies h).foldl (fun h d => featWrite e (dieId d) (imgOf h).features.stepLag (lagWord (stepLag h w d)) h) h
  h.jobs.table.foldl (fun h j =>
    let here := j.2.dies.filter (fun y => decide (y.die / 128 = myTray h))
    ((here.map (fun y => y.rep)).dedup).foldl (fun h r =>
      let ls := (here.filter (fun y => decide (y.rep = r))).filterMap (fun y => stepLag h w y.die)
      let worst := match ls with
        | [] => none
        | a :: t => some (t.foldl max a)
      featWrite e (entId 9 (j.1 * 256 + r.toNat)) (imgOf h).features.replicaLag (lagWord worst) h) h) h

/-! The window's end. -/

/-- The part of a block in SERVING. `w` is the window that ends. -/
def windowServing (e : Env) (w : Nat) (h : Hub) : Hub :=
  let h := judgeMemory e (reportMgt e h)
  let h := takeLoad h
  let h := if e.tray then openPeriodic e w h else contributeAll e w h
  let h := judgeLoad e (w + 1) h
  let h := ageWindow e (detWindow h)
  if e.tray then rhizStart e (boundaryVerdicts e (stepLags e w (takePolicy (finishActs h)))) else h

/-- AGGREGATION_WINDOW_END (R17): the window in progress ends when TB has passed its last ns. -/
def execAggregationWindowEnd (s : State) : Host.Outcome State Fault Refusal :=
  s.run (fun e h =>
    let w := h.casc.window
    guard (working h && decide (w < nowNs h / (imgOf h).windowNs)) (fun h =>
      let h := onCasc (fun c => { c with window := w + 1, windowTb := nowNs h }) h
      let h := { h with hubc := h.hubc.map (fun p => (p.1, { p.2 with hadOutcome := false })) }
      let h := applyMembership (doSwaps e e.tray true (applyBroadcasts e h))
      if serving h then windowServing e w h
      else if e.tray then h
      else photenSend 5 0 (2 ^ 17 + myTray h) 0 0 (heartbeatBytes (heartbeatNow e h)) h) h)

end Sys2Proof.Machine
end

