-- ==== Sys2Proof/Machine/Dispatch.lean ====
section
/-!
DEFINITION. The dispatch of a command to its meaning: one arm per constructor of `Instr`.
-/
namespace Sys2Proof.Machine

def exec (i : Instr) (s : State) : Host.Outcome State Fault Refusal :=
  match i with
  | .sysInfo c => Sys2Proof.Machine.execSysInfo c s
  | .sysReset c => Sys2Proof.Machine.execSysReset c s
  | .sysStateRead c opWord => Sys2Proof.Machine.execSysStateRead c opWord s
  | .sysStateRequestServing c => Sys2Proof.Machine.execSysStateRequestServing c s
  | .sysStateRequestDrowse c => Sys2Proof.Machine.execSysStateRequestDrowse c s
  | .sysStateRequestDormant c => Sys2Proof.Machine.execSysStateRequestDormant c s
  | .heldTransitionRecheck => Sys2Proof.Machine.execHeldTransitionRecheck s
  | .timeSet c => Sys2Proof.Machine.execTimeSet c s
  | .timeTrim c => Sys2Proof.Machine.execTimeTrim c s
  | .timeRead c => Sys2Proof.Machine.execTimeRead c s
  | .cellCfg c => Sys2Proof.Machine.execCellCfg c s
  | .cntRead c => Sys2Proof.Machine.execCntRead c s
  | .cntSnap c => Sys2Proof.Machine.execCntSnap c s
  | .watchSet c => Sys2Proof.Machine.execWatchSet c s
  | .ruleSet c => Sys2Proof.Machine.execRuleSet c s
  | .resCfg c => Sys2Proof.Machine.execResCfg c s
  | .auditRate c => Sys2Proof.Machine.execAuditRate c s
  | .auditRead c => Sys2Proof.Machine.execAuditRead c s
  | .digCfg c => Sys2Proof.Machine.execDigCfg c s
  | .digRead c => Sys2Proof.Machine.execDigRead c s
  | .digCompare c => Sys2Proof.Machine.execDigCompare c s
  | .digEpochOpen c => Sys2Proof.Machine.execDigEpochOpen c s
  | .digEpochRelease c => Sys2Proof.Machine.execDigEpochRelease c s
  | .digEpochCheckpoint c => Sys2Proof.Machine.execDigEpochCheckpoint c s
  | .xsReduce c => Sys2Proof.Machine.execXsReduce c s
  | .normReq c => Sys2Proof.Machine.execNormReq c s
  | .ensLoad c => Sys2Proof.Machine.execEnsLoad c s
  | .ensActivate c => Sys2Proof.Machine.execEnsActivate c s
  | .ensRun c => Sys2Proof.Machine.execEnsRun c s
  | .featWrite c => Sys2Proof.Machine.execFeatWrite c s
  | .ensRollback c => Sys2Proof.Machine.execEnsRollback c s
  | .policySet c => Sys2Proof.Machine.execPolicySet c s
  | .fence c => Sys2Proof.Machine.execFence c s
  | .unfence c => Sys2Proof.Machine.execUnfence c s
  | .expel c => Sys2Proof.Machine.execExpel c s
  | .shadowStart c => Sys2Proof.Machine.execShadowStart c s
  | .testSchedSchedule c => Sys2Proof.Machine.execTestSchedSchedule c s
  | .testSchedCancel c => Sys2Proof.Machine.execTestSchedCancel c s
  | .testSchedDone c => Sys2Proof.Machine.execTestSchedDone c s
  | .verdictRead c => Sys2Proof.Machine.execVerdictRead c s
  | .marginPlanMode c => Sys2Proof.Machine.execMarginPlanMode c s
  | .marginPlanSet c => Sys2Proof.Machine.execMarginPlanSet c s
  | .marginPlanAuto c => Sys2Proof.Machine.execMarginPlanAuto c s
  | .marginPlanAck c => Sys2Proof.Machine.execMarginPlanAck c s
  | .marginPlanProbeDone c => Sys2Proof.Machine.execMarginPlanProbeDone c s
  | .lifeRead c => Sys2Proof.Machine.execLifeRead c s
  | .trcCfg c => Sys2Proof.Machine.execTrcCfg c s
  | .trcTrigArm c => Sys2Proof.Machine.execTrcTrigArm c s
  | .trcTrigDisarm c => Sys2Proof.Machine.execTrcTrigDisarm c s
  | .trcTrigFire c => Sys2Proof.Machine.execTrcTrigFire c s
  | .trcTrigRelease c => Sys2Proof.Machine.execTrcTrigRelease c s
  | .trcTrigDump c => Sys2Proof.Machine.execTrcTrigDump c s
  | .nidCfg c => Sys2Proof.Machine.execNidCfg c s
  | .recRead c => Sys2Proof.Machine.execRecRead c s
  | .recMark c => Sys2Proof.Machine.execRecMark c s
  | .bcastPrepare c => Sys2Proof.Machine.execBcastPrepare c s
  | .bcastCommit c => Sys2Proof.Machine.execBcastCommit c s
  | .jobMembersSet c => Sys2Proof.Machine.execJobMembersSet c s
  | .jobMembersAdd c => Sys2Proof.Machine.execJobMembersAdd c s
  | .jobMembersRemove c => Sys2Proof.Machine.execJobMembersRemove c s
  | .jobMembersRead c => Sys2Proof.Machine.execJobMembersRead c s
  | .keyLoad c => Sys2Proof.Machine.execKeyLoad c s
  | .protLock c => Sys2Proof.Machine.execProtLock c s
  | .imgLoad c => Sys2Proof.Machine.execImgLoad c s
  | .dbgRead c => Sys2Proof.Machine.execDbgRead c s
  | .dbgWrite c => Sys2Proof.Machine.execDbgWrite c s
  | .relayCommand opcode c => Sys2Proof.Machine.execRelayCommand opcode c s
  | .relayTimeout rid => Sys2Proof.Machine.execRelayTimeout rid s
  | .cmdDoorbell ch len => Sys2Proof.Machine.execCmdDoorbell ch len s
  | .cmdEventClear ch bits => Sys2Proof.Machine.execCmdEventClear ch bits s
  | .cellFlagsClear core bits => Sys2Proof.Machine.execCellFlagsClear core bits s
  | .timeCapture cap => Sys2Proof.Machine.execTimeCapture cap s
  | .timeNsRead => Sys2Proof.Machine.execTimeNsRead s
  | .halfHoldRead addr => Sys2Proof.Machine.execHalfHoldRead addr s
  | .mgtGclCommit => Sys2Proof.Machine.execMgtGclCommit s
  | .mgtShaperWrite cls part v => Sys2Proof.Machine.execMgtShaperWrite cls part v s
  | .mgtMeterWrite cls part v => Sys2Proof.Machine.execMgtMeterWrite cls part v s
  | .mgtSegcfgWrite segB part v => Sys2Proof.Machine.execMgtSegcfgWrite segB part v s
  | .dmaChStop ch => Sys2Proof.Machine.execDmaChStop ch s
  | .dmaChResume ch => Sys2Proof.Machine.execDmaChResume ch s
  | .dmaChReq ch => Sys2Proof.Machine.execDmaChReq ch s
  | .dmaChEnable ch en => Sys2Proof.Machine.execDmaChEnable ch en s
  | .dmaChTailWrite ch tail => Sys2Proof.Machine.execDmaChTailWrite ch tail s
  | .dmaChCqheadWrite ch head => Sys2Proof.Machine.execDmaChCqheadWrite ch head s
  | .dmaMemFailedClear mask => Sys2Proof.Machine.execDmaMemFailedClear mask s
  | .dmaIrqstatClear mask => Sys2Proof.Machine.execDmaIrqstatClear mask s
  | .hubIrqstatClear mask => Sys2Proof.Machine.execHubIrqstatClear mask s
  | .protChWrite ch part v => Sys2Proof.Machine.execProtChWrite ch part v s
  | .resDbgSWrite debug part v => Sys2Proof.Machine.execResDbgSWrite debug part v s
  | .registerWrite addr size v => Sys2Proof.Machine.execRegisterWrite addr size v s
  | .powerOnReset => Sys2Proof.Machine.execPowerOnReset s
  | .powerOnResetRelease => Sys2Proof.Machine.execPowerOnResetRelease s
  | .blockResetPin => Sys2Proof.Machine.execBlockResetPin s
  | .blockResetRelease => Sys2Proof.Machine.execBlockResetRelease s
  | .pllLock => Sys2Proof.Machine.execPllLock s
  | .fuseSenseDone uncorrectable passesDiffer => Sys2Proof.Machine.execFuseSenseDone uncorrectable passesDiffer s
  | .nvImageCheckDone => Sys2Proof.Machine.execNvImageCheckDone s
  | .imageWaitExpiry => Sys2Proof.Machine.execImageWaitExpiry s
  | .imageApply => Sys2Proof.Machine.execImageApply s
  | .enterServing => Sys2Proof.Machine.execEnterServing s
  | .imageWriteBack readBackOk => Sys2Proof.Machine.execImageWriteBack readBackOk s
  | .protectionWaitExpiry => Sys2Proof.Machine.execProtectionWaitExpiry s
  | .watchdogExpiry => Sys2Proof.Machine.execWatchdogExpiry s
  | .watchdogReset => Sys2Proof.Machine.execWatchdogReset s
  | .pfwWarning => Sys2Proof.Machine.execPfwWarning s
  | .flushEnd => Sys2Proof.Machine.execFlushEnd s
  | .pfwRelease => Sys2Proof.Machine.execPfwRelease s
  | .recoveryHoldExpiry => Sys2Proof.Machine.execRecoveryHoldExpiry s
  | .orderlyFlushDone => Sys2Proof.Machine.execOrderlyFlushDone s
  | .wakeN => Sys2Proof.Machine.execWakeN s
  | .sbWakeIdles port => Sys2Proof.Machine.execSbWakeIdles port s
  | .mainPgRise => Sys2Proof.Machine.execMainPgRise s
  | .mainPgFall => Sys2Proof.Machine.execMainPgFall s
  | .refclkLoss => Sys2Proof.Machine.execRefclkLoss s
  | .refclkReturn => Sys2Proof.Machine.execRefclkReturn s
  | .drowseDelayExpiry => Sys2Proof.Machine.execDrowseDelayExpiry s
  | .hostRegionReset r => Sys2Proof.Machine.execHostRegionReset r s
  | .cellConfigRewrite r => Sys2Proof.Machine.execCellConfigRewrite r s
  | .hostCycle core st reason ev ptake => Sys2Proof.Machine.execHostCycle core st reason ev ptake s
  | .holdGraceExpiry core => Sys2Proof.Machine.execHoldGraceExpiry core s
  | .sporeWindowEval core rule => Sys2Proof.Machine.execSporeWindowEval core rule s
  | .watchElement core wd last => Sys2Proof.Machine.execWatchElement core wd last s
  | .watchResultDrain core => Sys2Proof.Machine.execWatchResultDrain core s
  | .traceWord core w => Sys2Proof.Machine.execTraceWord core w s
  | .regionTraceTransfer r => Sys2Proof.Machine.execRegionTraceTransfer r s
  | .clockMonitorInterval r edges => Sys2Proof.Machine.execClockMonitorInterval r edges s
  | .regionStopDetect r => Sys2Proof.Machine.execRegionStopDetect r s
  | .regionResume r => Sys2Proof.Machine.execRegionResume r s
  | .scanBoundary => Sys2Proof.Machine.execScanBoundary s
  | .quickBoundary => Sys2Proof.Machine.execQuickBoundary s
  | .snapshotTransfer core parityErr sumErr => Sys2Proof.Machine.execSnapshotTransfer core parityErr sumErr s
  | .cellTurnTimeout core => Sys2Proof.Machine.execCellTurnTimeout core s
  | .pendingFlagTransfer r => Sys2Proof.Machine.execPendingFlagTransfer r s
  | .tapStart core d ptake => Sys2Proof.Machine.execTapStart core d ptake s
  | .tapSkip core d ptake => Sys2Proof.Machine.execTapSkip core d ptake s
  | .tapPair core d ptake => Sys2Proof.Machine.execTapPair core d ptake s
  | .tapEnd core d ptake => Sys2Proof.Machine.execTapEnd core d ptake s
  | .tapOutcomePresent core => Sys2Proof.Machine.execTapOutcomePresent core s
  | .tapTimeout core => Sys2Proof.Machine.execTapTimeout core s
  | .pointFifoRefill core => Sys2Proof.Machine.execPointFifoRefill core s
  | .drbgReseed ix => Sys2Proof.Machine.execDrbgReseed ix s
  | .drbgFailure ix => Sys2Proof.Machine.execDrbgFailure ix s
  | .outcomeQueueTransfer r => Sys2Proof.Machine.execOutcomeQueueTransfer r s
  | .auditStart => Sys2Proof.Machine.execAuditStart s
  | .auditDescriptorReread unit => Sys2Proof.Machine.execAuditDescriptorReread unit s
  | .auditComplete unit => Sys2Proof.Machine.execAuditComplete unit s
  | .auditHoldExpiry core tag => Sys2Proof.Machine.execAuditHoldExpiry core tag s
  | .digestChunkHeader egress d => Sys2Proof.Machine.execDigestChunkHeader egress d s
  | .digestDataBeat egress cnt lanes => Sys2Proof.Machine.execDigestDataBeat egress cnt lanes s
  | .digestSliceEnd egress d => Sys2Proof.Machine.execDigestSliceEnd egress d s
  | .digestSealHeader egress d => Sys2Proof.Machine.execDigestSealHeader egress d s
  | .digestRecallHeader egress d => Sys2Proof.Machine.execDigestRecallHeader egress d s
  | .digestStashEnd egress d => Sys2Proof.Machine.execDigestStashEnd egress d s
  | .deliveryFinal egress => Sys2Proof.Machine.execDeliveryFinal egress s
  | .retireOverdue => Sys2Proof.Machine.execRetireOverdue s
  | .compareTimeout buf => Sys2Proof.Machine.execCompareTimeout buf s
  | .frozenScrubPass idx => Sys2Proof.Machine.execFrozenScrubPass idx s
  | .normContribute group => Sys2Proof.Machine.execNormContribute group s
  | .aggregationWindowEnd => Sys2Proof.Machine.execAggregationWindowEnd s
  | .reductionCutoff group seq => Sys2Proof.Machine.execReductionCutoff group seq s
  | .reduceContributionReceive p port => Sys2Proof.Machine.execReduceContributionReceive p port s
  | .reduceResultReceive p port => Sys2Proof.Machine.execReduceResultReceive p port s
  | .redirectReceive p port => Sys2Proof.Machine.execRedirectReceive p port s
  | .combinerTimeout group seq combiner => Sys2Proof.Machine.execCombinerTimeout group seq combiner s
  | .memberTimeout group seq => Sys2Proof.Machine.execMemberTimeout group seq s
  | .resultTimeout group seq => Sys2Proof.Machine.execResultTimeout group seq s
  | .roundLifetimeExpiry group seq => Sys2Proof.Machine.execRoundLifetimeExpiry group seq s
  | .exchangeReceive p port => Sys2Proof.Machine.execExchangeReceive p port s
  | .rhizomeStepDeadline step => Sys2Proof.Machine.execRhizomeStepDeadline step s
  | .sampleComplete => Sys2Proof.Machine.execSampleComplete s
  | .passComplete => Sys2Proof.Machine.execPassComplete s
  | .rowFillComplete entity => Sys2Proof.Machine.execRowFillComplete entity s
  | .rowWritebackComplete entity => Sys2Proof.Machine.execRowWritebackComplete entity s
  | .assemblyLimitExpiry entity => Sys2Proof.Machine.execAssemblyLimitExpiry entity s
  | .ensLoadFirstReadDone => Sys2Proof.Machine.execEnsLoadFirstReadDone s
  | .ensLoadSecondReadDone => Sys2Proof.Machine.execEnsLoadSecondReadDone s
  | .nodeMemoryScrub slot g corrected bad => Sys2Proof.Machine.execNodeMemoryScrub slot g corrected bad s
  | .floorExpiry entity => Sys2Proof.Machine.execFloorExpiry entity s
  | .probationExpiry entity => Sys2Proof.Machine.execProbationExpiry entity s
  | .periodicTestDue core => Sys2Proof.Machine.execPeriodicTestDue core s
  | .deferralDeadline core => Sys2Proof.Machine.execDeferralDeadline core s
  | .testHoldExpiry seq => Sys2Proof.Machine.execTestHoldExpiry seq s
  | .monitorSample r kind m value minimum dips => Sys2Proof.Machine.execMonitorSample r kind m value minimum dips s
  | .residenceTick => Sys2Proof.Machine.execResidenceTick s
  | .concentrationEval => Sys2Proof.Machine.execConcentrationEval s
  | .ageingPersist => Sys2Proof.Machine.execAgeingPersist s
  | .ageingEarlyPersist => Sys2Proof.Machine.execAgeingEarlyPersist s
  | .planInterval r => Sys2Proof.Machine.execPlanInterval r s
  | .planAckTimeout => Sys2Proof.Machine.execPlanAckTimeout s
  | .probeTimeout seq => Sys2Proof.Machine.execProbeTimeout seq s
  | .photenTxHead => Sys2Proof.Machine.execPhotenTxHead s
  | .photenHeartbeatReceive p port => Sys2Proof.Machine.execPhotenHeartbeatReceive p port s
  | .photenRecordReceive p port => Sys2Proof.Machine.execPhotenRecordReceive p port s
  | .recordUpload => Sys2Proof.Machine.execRecordUpload s
  | .sbIdlesTrain port => Sys2Proof.Machine.execSbIdlesTrain port s
  | .sbHelloReceive port f => Sys2Proof.Machine.execSbHelloReceive port f s
  | .sbPortDown port cause => Sys2Proof.Machine.execSbPortDown port cause s
  | .sbAckReceive port f => Sys2Proof.Machine.execSbAckReceive port f s
  | .sbRetransmitTimeout port => Sys2Proof.Machine.execSbRetransmitTimeout port s
  | .sbFrameForward port f => Sys2Proof.Machine.execSbFrameForward port f s
  | .sbFloodForward port f => Sys2Proof.Machine.execSbFloodForward port f s
  | .sbReassemblyTimeout src mseq => Sys2Proof.Machine.execSbReassemblyTimeout src mseq s
  | .heartbeatSend => Sys2Proof.Machine.execHeartbeatSend s
  | .sbHeartbeatReceive port f => Sys2Proof.Machine.execSbHeartbeatReceive port f s
  | .dieLost die => Sys2Proof.Machine.execDieLost die s
  | .trayLost => Sys2Proof.Machine.execTrayLost s
  | .sbVerdictReceive port f => Sys2Proof.Machine.execSbVerdictReceive port f s
  | .verdictResend die => Sys2Proof.Machine.execVerdictResend die s
  | .syncSend => Sys2Proof.Machine.execSyncSend s
  | .syncReceive port f => Sys2Proof.Machine.execSyncReceive port f s
  | .holdoverEntry => Sys2Proof.Machine.execHoldoverEntry s
  | .holdoverLimitExpiry => Sys2Proof.Machine.execHoldoverLimitExpiry s
  | .pdelayInterval port => Sys2Proof.Machine.execPdelayInterval port s
  | .sbPdelayReqReceive port f => Sys2Proof.Machine.execSbPdelayReqReceive port f s
  | .sbPdelayRespReceive port f => Sys2Proof.Machine.execSbPdelayRespReceive port f s
  | .sbCommandReceive port f => Sys2Proof.Machine.execSbCommandReceive port f s
  | .sbReplyReceive port f => Sys2Proof.Machine.execSbReplyReceive port f s
  | .routeRecompute => Sys2Proof.Machine.execRouteRecompute s
  | .routeSetReceive port f => Sys2Proof.Machine.execRouteSetReceive port f s
  | .sbWakeFrame port f => Sys2Proof.Machine.execSbWakeFrame port f s
  | .bcastPrepareReceive m => Sys2Proof.Machine.execBcastPrepareReceive m s
  | .bcastAckReceive m => Sys2Proof.Machine.execBcastAckReceive m s
  | .bcastAckDeadline group bid => Sys2Proof.Machine.execBcastAckDeadline group bid s
  | .bcastCommitReceive m => Sys2Proof.Machine.execBcastCommitReceive m s
  | .bcastAbortReceive m => Sys2Proof.Machine.execBcastAbortReceive m s
  | .prepareHoldExpiry group bid => Sys2Proof.Machine.execPrepareHoldExpiry group bid s
  | .miiFrameReceive seg f => Sys2Proof.Machine.execMiiFrameReceive seg f s
  | .mgmtEnvelopeReceive seg payload => Sys2Proof.Machine.execMgmtEnvelopeReceive seg payload s
  | .gptpSyncReceive seg identity origin corr interval => Sys2Proof.Machine.execGptpSyncReceive seg identity origin corr interval s
  | .gptpAnnounceReceive seg a => Sys2Proof.Machine.execGptpAnnounceReceive seg a s
  | .gptpAnnounceTimeout => Sys2Proof.Machine.execGptpAnnounceTimeout s
  | .gptpPdelayInterval seg => Sys2Proof.Machine.execGptpPdelayInterval seg s
  | .gptpPdelayReqReceive seg identity => Sys2Proof.Machine.execGptpPdelayReqReceive seg identity s
  | .gptpPdelayRespReceive seg identity t2 t3 => Sys2Proof.Machine.execGptpPdelayRespReceive seg identity t2 t3 s
  | .neighborSolicitationReceive seg from_ => Sys2Proof.Machine.execNeighborSolicitationReceive seg from_ s
  | .neighborAdvertisementReceive seg => Sys2Proof.Machine.execNeighborAdvertisementReceive seg s
  | .dadTimeout seg => Sys2Proof.Machine.execDadTimeout seg s
  | .phyPoll seg link => Sys2Proof.Machine.execPhyPoll seg link s
  | .segmentSilenceTimeout seg => Sys2Proof.Machine.execSegmentSilenceTimeout seg s
  | .segmentUp seg => Sys2Proof.Machine.execSegmentUp seg s
  | .segmentEnableHoldExpiry seg => Sys2Proof.Machine.execSegmentEnableHoldExpiry seg s
  | .failbackTimer => Sys2Proof.Machine.execFailbackTimer s
  | .plcaBeaconReceive seg => Sys2Proof.Machine.execPlcaBeaconReceive seg s
  | .plcaBeaconTimeout seg => Sys2Proof.Machine.execPlcaBeaconTimeout seg s
  | .plcaCollision seg => Sys2Proof.Machine.execPlcaCollision seg s
  | .csmaCollision seg => Sys2Proof.Machine.execCsmaCollision seg s
  | .egressFrameSelect seg => Sys2Proof.Machine.execEgressFrameSelect seg s
  | .egressFrameDone seg => Sys2Proof.Machine.execEgressFrameDone seg s
  | .gateEntryBoundary => Sys2Proof.Machine.execGateEntryBoundary s
  | .gclPendingActivate => Sys2Proof.Machine.execGclPendingActivate s
  | .dmaBurstStart ch => Sys2Proof.Machine.execDmaBurstStart ch s
  | .dmaDescriptorComplete ch => Sys2Proof.Machine.execDmaDescriptorComplete ch s
  | .dmaDescriptorFetchFail ch => Sys2Proof.Machine.execDmaDescriptorFetchFail ch s
  | .memoryReadResponse att tag err => Sys2Proof.Machine.execMemoryReadResponse att tag err s
  | .memoryWriteAck att tag err => Sys2Proof.Machine.execMemoryWriteAck att tag err s
  | .memoryTimeout att tag => Sys2Proof.Machine.execMemoryTimeout att tag s
  | .rekeySafePoint range => Sys2Proof.Machine.execRekeySafePoint range s
  | .migrationGroupDone => Sys2Proof.Machine.execMigrationGroupDone s
  | .migrationRetry => Sys2Proof.Machine.execMigrationRetry s
  | .trcTriginRise => Sys2Proof.Machine.execTrcTriginRise s
  | .traceBlockEnd => Sys2Proof.Machine.execTraceBlockEnd s
  | .traceFlushInterval => Sys2Proof.Machine.execTraceFlushInterval s
  | .postTriggerEnd => Sys2Proof.Machine.execPostTriggerEnd s
  | .compressDone => Sys2Proof.Machine.execCompressDone s
  | .sinkBlockWrite => Sys2Proof.Machine.execSinkBlockWrite s
  | .tracePortFrame => Sys2Proof.Machine.execTracePortFrame s
  | .recordAccept => Sys2Proof.Machine.execRecordAccept s
  | .mirrorPageWrite => Sys2Proof.Machine.execMirrorPageWrite s
  | .nvSectorErase => Sys2Proof.Machine.execNvSectorErase s
  | .nvEraseDone => Sys2Proof.Machine.execNvEraseDone s
  | .vddAonLoss => Sys2Proof.Machine.execVddAonLoss s
  | .photenTraceReceive p port => Sys2Proof.Machine.execPhotenTraceReceive p port s

end Sys2Proof.Machine
end

