-- ==== Sys2Proof/Machine/Due.lean ====
section
/-!
DEFINITION. The timers that hold a deadline, each with the meaning of its expiry, and their expiry in the order of their deadlines
after a forward step of TB and when their units run again (R54, R69, R71).
-/
namespace Sys2Proof.Machine

/-- A timer that holds a deadline: that deadline and the meaning of its expiry. -/
abbrev Timer := Nat × (State → Host.Outcome State Fault Refusal)

/-- An optional deadline. -/
def timer (t : Option Nat) (i : State → Host.Outcome State Fault Refusal) : List Timer := (t.map (fun d => (d, i))).toList

/-- Timers of time, start-up, the reset and the drowse delay. -/
def timersSys (h : Hub) : List Timer :=
  timer h.boot.waitUntil execImageWaitExpiry ++ timer h.boot.protUntil execProtectionWaitExpiry ++
  timer h.log.holdUntil execRecoveryHoldExpiry ++
  [(h.time.lastSync + 3 * h.time.syncInt, execHoldoverEntry), (h.time.holdSince + h.time.holdoverLimit, execHoldoverLimitExpiry),
   (((h.regions.map Region.stopTb).foldl max 0) + h.boot.drowseDelay + 1, execDrowseDelayExpiry)]

/-- Timers of the regions, the cells and their lanes. -/
def timersCells (e : Env) (h : Hub) : List Timer :=
  (List.range 8).map (fun r => ((region h r).lastEdge + h.time.stopThr, execRegionStopDetect (BitVec.ofNat 3 r))) ++
  ((List.range 2048).filter e.present).flatMap (fun c =>
    (List.range 8).flatMap (fun i => timer ((ruleAt (cell h c) i).start.map (· + (ruleAt (cell h c) i).window))
      (execSporeWindowEval (BitVec.ofNat 11 c) (BitVec.ofNat 3 i))) ++
    (cell h c).lane.tiles.map (fun t => (tileDue h c t, execTapTimeout (BitVec.ofNat 11 c)))) ++
  (h.res.queue ++ h.res.units.map Prod.snd).map (fun q => (q.until_, execAuditHoldExpiry (BitVec.ofNat 11 q.core) q.tile.tag))

/-- Timers of the digest engine, the reduction rounds and the ensemble engine. -/
def timersSums (h : Hub) : List Timer :=
  timer (h.dig.buf0.map (fun b => b.deadline)) (execCompareTimeout false) ++ timer (h.dig.buf1.map (fun b => b.deadline)) (execCompareTimeout true) ++
  timer (h.dig.older.map (fun _ => h.dig.heldSince + h.dig.cfg.retireLimit + 1)) execRetireOverdue ++
  h.xs.rounds.flatMap (fun p =>
    let g := BitVec.ofNat 16 (p.1 / 65536 % 1024)
    let q := BitVec.ofNat 16 (p.1 % 65536)
    [(p.2.timer + h.xs.memberTimeout, execMemberTimeout g q), (p.2.opened + h.xs.resultTimeout, execResultTimeout g q),
     (p.2.opened + roundLifetime, execRoundLifetimeExpiry g q), (cutoffAt h (cutoffShare (p.1 / 65536 / 1024)), execReductionCutoff g q)]) ++
  h.ens.waits.map (fun w => (w.deadline, execAssemblyLimitExpiry (BitVec.ofNat 32 w.ent)))

/-- Timers of the cascade, its tests and the margin controller. -/
def timersCasc (e : Env) (h : Hub) : List Timer :=
  [(h.casc.lastScan + h.casc.p, execScanBoundary), (h.casc.lastQuick + (policy h).quick, execQuickBoundary),
   ((h.casc.window + 1) * (imgOf h).windowNs, execAggregationWindowEnd)] ++
  h.casc.ents.flatMap (fun p =>
    let x := BitVec.ofNat 32 p.1
    p.2.floors.map (fun f => (f.tb + (policy h).floorHold, execFloorExpiry x)) ++ timer p.2.probEnd (execProbationExpiry x) ++
    (match p.2.test, ownCore e h x with
      | some t, some c => [(t.deadline, execDeferralDeadline (BitVec.ofNat 11 c))]
      | _, _ => []) ++
    (match p.2.test.bind (fun t => t.running) with
      | some (q, lim) => [(lim, execTestHoldExpiry q)]
      | none => [])) ++
  ((List.range 2048).filter e.present).map (fun c => ((hubc h c).lastTest + (policy h).periodic, execPeriodicTestDue (BitVec.ofNat 11 c))) ++
  (match h.casc.rhizome with
    | some r => [(r.boundary + rhizShare r.step * (imgOf h).windowNs / 100, execRhizomeStepDeadline (BitVec.ofNat 3 r.step))]
    | none => []) ++
  [(h.age.lastConc + nsHour, execConcentrationEval), (h.age.lastTick + 100000, execResidenceTick), (h.age.lastPersist + h.age.persist, execAgeingPersist)] ++
  (List.range 8).map (fun r => ((zone h r).lastPlan + h.age.interval, execPlanInterval (BitVec.ofNat 3 r))) ++
  h.age.ackDue.map (fun p => (p.2, execPlanAckTimeout)) ++ h.age.probes.map (fun p => (p.notice + probeLimit, execProbeTimeout p.seq))

/-- Timers of the sideband network and its broadcasts. -/
def timersFab (h : Hub) : List Timer :=
  [(h.sb.lastBeat + h.sb.beatPeriod, execHeartbeatSend), (h.sb.lastSync + 4 * h.time.syncInt, execTrayLost), (h.sb.lastSync + h.time.syncInt, execSyncSend)] ++
  h.sb.members.flatMap (fun m =>
    (m.2.last + 4 * h.sb.beatPeriod, execDieLost (BitVec.ofNat 7 m.1)) ::
    m.2.sent.map (fun v => (v.tb + 4 * h.sb.beatPeriod, execVerdictResend (BitVec.ofNat 7 m.1)))) ++
  (List.range 16).flatMap (fun i =>
    timer (sbPort h i).ackDue (execSbRetransmitTimeout (BitVec.ofNat 4 i)) ++ [((sbPort h i).lastPd + h.sb.pdelay, execPdelayInterval (BitVec.ofNat 4 i))]) ++
  h.sb.reasm.map (fun r => (r.first + 1000000, execSbReassemblyTimeout (BitVec.ofNat 18 r.src) r.mseq)) ++
  h.cmd.relays.map (fun r => (r.due, execRelayTimeout r.rid)) ++
  h.bc.held.flatMap (fun b => [(deadlineB b, execBcastAckDeadline b.group b.bid), (b.hold + h.bc.hold, execPrepareHoldExpiry b.group b.bid)])

/-- When the Announce of the master in force is overdue (R440). -/
def announceDue (h : Hub) : Option Nat := h.mgt.master.map (fun m =>
  ((h.mgt.announces.find? (fun a => decide (a.identity = m.identity) && decide (a.seg = m.seg))).map Master.last).getD m.last + 3 * m.interval)

/-- Timers of the management port, of memory and of the trace unit. -/
def timersPort (h : Hub) : List Timer :=
  [false, true].flatMap (fun b =>
    timer (seg h b).holdoff (execSegmentEnableHoldExpiry b) ++ timer (seg h b).dad (execDadTimeout b) ++
    [(silenceDue h b, execSegmentSilenceTimeout b), ((seg h b).lastPd + h.mgt.pdelayInt, execGptpPdelayInterval b),
     ((seg h b).lastBeacon + 400000, execPlcaBeaconTimeout b)]) ++
  timer (announceDue h) execGptpAnnounceTimeout ++ timer (h.mgt.pending.map Prod.snd) execGclPendingActivate ++
  [((seg h (preferred h)).upSince + 10000000000, execFailbackTimer)] ++
  h.mem.out.map (fun p => (p.2.deadline, execMemoryTimeout (BitVec.ofNat 5 (p.1 / 256)) (BitVec.ofNat 8 (p.1 % 256)))) ++
  timer h.mem.paused execMigrationRetry ++ [(h.trc.curTb + h.trc.set.flush, execTraceFlushInterval)]

/-- Every timer whose deadline has passed, in the order of the deadlines; of equal deadlines, in the order of the units above (log 70). -/
def dueTimers (e : Env) (h : Hub) : List Timer :=
  ((timersSys h ++ timersCells e h ++ timersSums h ++ timersCasc e h ++ timersFab h ++ timersPort h).filter
    (fun t => decide (t.1 ≤ nowNs h))).mergeSort (fun a b => decide (a.1 ≤ b.1))

/-- One expiry: its meaning, which does nothing where its guard is not met. -/
def expire (s : State) (t : Timer) : State :=
  match t.2 s with
  | .next s' => s'
  | _ => s

/-- The expiries that a forward step of TB has passed, or that were kept while their units did not run, act in the order of their
deadlines (R54, R71). -/
def fireDue (s : State) : State :=
  (dueTimers s.env s.hub).foldl expire (s.settle { s.hub.clean with time := { s.hub.time with due := false } })

end Sys2Proof.Machine
end

