-- ==== Sys2Proof/Machine/Tick.lean ====
section
/-!
DEFINITION. What passes when no command waits: one cycle of the block's clock (log 9).
-/
namespace Sys2Proof.Machine

/-- One cycle of the clock that runs TB: CK_CORE in the states whose main domain is powered and whose PLL is locked (R49), one REFCLK
cycle of the island in DORMANT, in FUSE and in COLD once power-on reset is released (R59, R32, R639), while there is REFCLK. Otherwise TB stands. -/
def tickTime (h : Hub) : Hub :=
  if h.sys.st == .dormant || h.sys.st == .fuse || (h.sys.st == .cold && (h.sys.supplyLost || !h.sys.porstLow)) then
    if h.isl.refLost then h else { h with time := tbDormant h.time }
  else if alive h || h.sys.st == .flush then { h with time := tbCycle h.time }
  else h

/-- The cycle in progress ends: DG_SV falls (Table 5.3), no write-one-to-clear bit counts as set in it any more (R10), no register as written in it (R613), and a region whose clock has resumed has its
first TB echo (R64; how long that echo takes is DESIGN CHOICE, log 63). -/
def endCycle (h : Hub) : Hub := { h with
  regs := { h.regs with irqFresh := 0, cmdWrote := [], portWrote := [] }
  dig := { h.dig with sv := false }
  xs := { h.xs with laneLast := h.xs.laneNow, laneNow := 0 }
  dma := { h.dma with irqFresh := 0 }
  mem := { h.mem with failFresh := 0 }
  cmd := { h.cmd with chans := h.cmd.chans.map (fun c => { c with fresh := 0 }) }
  cells := h.cells.map (fun p => (p.1, { p.2 with fresh := 0 }))
  regions := h.regions.map (fun r => { r with echoWait := r.echoWait && r.stopped }) }

/-- A command that waited for the earlier commands of its requester starts (R465). -/
def startHeld (e : Env) (x : Held) (h : Hub) : Hub :=
  let h := { h with cmd := { h.cmd with held := h.cmd.held.erase x } }
  match opIn opcodes x.opcode.toNat x.cmd.params, reqDom e h x.cmd.req with
  | some d, some dj =>
    startCmd d e (mkCtx x.cmd dj) (onSeq x.cmd.req (fun s => { s with stored := s.stored.filter (fun p => decide (p.1 ≠ x.cmd.cseq)) }) h) h
  | _, _ => h

/-- Those that may start, in the order in which they were accepted. -/
def startAllHeld (e : Env) (h : Hub) : Hub :=
  (h.cmd.held.foldl (fun (a : Hub × List Requester) x =>
    if a.2.any (sameReq x.cmd.req) || (x.cmd.order && a.1.cmd.pends.any (fun p => sameReq p.req x.cmd.req)) then (a.1, x.cmd.req :: a.2)
    else (startHeld e x a.1, a.2)) (h, [])).1

/-- One idle cycle: the busy counts of the memory port (R527), the trigger conditions of the cycle that ends, TB, the packets that doorbells have submitted, the commands that ORDER held back, the requests that wait for the exact-sum lanes (R215), the reports that wait (R25), the controller's trace, and accesses
that end as errors without being issued. -/
def tick (e : Env) (h : Hub) : Hub :=
  let h := countBusy (tickTime (endCycle (fireConds e h)))
  let h := if portOn h then (List.range 4).foldl (fun h c => takeSubmitted e c h) h else h
  let h := if alive h then ctlTrace e (sendReports e (drainQueue e 8 (startAllHeld e h))) else h
  if h.mem.errq.isEmpty || !alive h then h else dmaPump e h

end Sys2Proof.Machine
end

