-- ==== Sys2Proof/Machine/Step.lean ====
section
/-!
DEFINITION. One step of the block: the command at the front of the queue, or one idle clock cycle.
-/
namespace Sys2Proof.Machine

/-- One step: run the oldest waiting command on the state with the queue's rest. With none waiting, the expiries that are due together act
(R54, R71), and otherwise one cycle of CK_CORE passes (log 9). -/
def step (s : State) : Host.Outcome State Fault Refusal :=
  match s.pending with
  | [] => if s.hub.time.due then .next (fireDue s) else s.run tick
  | c :: rest => exec c { s with pending := rest }

/-- The state with the command that a table word spells put in front of its queue; unchanged when it spells none. -/
def State.withFetchWord (s : State) (nbits w : Nat) : State :=
  match decodeTableWord nbits w with
  | some c => { s with pending := c :: s.pending }
  | none => s

end Sys2Proof.Machine
end

