-- ==== Sys2Proof/Safety.lean ====
section
/-!
DEFINITION. What counts as a safe state and a safe run, in the terms the claims use: the pieces of the state, what a command leaves alone,
and the canonical form of the memories.
-/
namespace Sys2Proof

/-- Parameter word `n` of a command, counted from 1 (R475). -/
def Cmd.w (c : Cmd) (n : Nat) : Word := getAt c.params (n - 1) 0
/-- It as a number. -/
def Cmd.n (c : Cmd) (n : Nat) : Nat := (c.w n).toNat
/-- The 64-bit parameter that starts at word `n`, high word first. -/
def Cmd.d (c : Cmd) (n : Nat) : Nat := c.n n * 2 ^ 32 + c.n (n + 1)

end Sys2Proof

namespace Sys2Proof.Machine

/-- Both memories of a state are in canonical form. -/
def State.wf (s : State) : Bool := Mem.wf Mem.ramByte s.mem && Mem.wf Mem.nvByte s.nv

/-- A step that answers a next state. -/
def Steps (s t : State) : Prop := step s = .next t

/-- The pieces of the state that commands change: the parts of the hub, the memory behind the memory port (`ram`) and NV memory (`nvm`). -/
inductive Piece where
  | free | sys | isl | time | regions | cells | hubc | res | dig | xs | ens | casc | age | fab | sb | bc | jobs | mgt | cmd | prot
  | regs | mem | dma | trc | nid | log | boot | img | reports | ram | nvm
  deriving DecidableEq, Repr

/-- A piece is the same in two hubs; for a memory, what has been posted to it is. -/
def Piece.same (p : Piece) (h k : Hub) : Prop :=
  match p with
  | .free => k.free = h.free
  | .sys => k.sys = h.sys
  | .isl => k.isl = h.isl
  | .time => k.time = h.time
  | .regions => k.regions = h.regions
  | .cells => k.cells = h.cells
  | .hubc => k.hubc = h.hubc
  | .res => k.res = h.res
  | .dig => k.dig = h.dig
  | .xs => k.xs = h.xs
  | .ens => k.ens = h.ens
  | .casc => k.casc = h.casc
  | .age => k.age = h.age
  | .fab => k.fab = h.fab
  | .sb => k.sb = h.sb
  | .bc => k.bc = h.bc
  | .jobs => k.jobs = h.jobs
  | .mgt => k.mgt = h.mgt
  | .cmd => k.cmd = h.cmd
  | .prot => k.prot = h.prot
  | .regs => k.regs = h.regs
  | .mem => k.mem = h.mem
  | .dma => k.dma = h.dma
  | .trc => k.trc = h.trc
  | .nid => k.nid = h.nid
  | .log => k.log = h.log
  | .boot => k.boot = h.boot
  | .img => k.img = h.img
  | .reports => k.reports = h.reports
  | .ram => k.posted = h.posted
  | .nvm => k.nvPosted = h.nvPosted

/-- Between two hubs only the listed pieces may differ. -/
structure Only (ps : List Piece) (h k : Hub) : Prop where
  keep : ∀ p, p ∉ ps → p.same h k

/-- Between two states only the listed pieces may differ: not the fuses, not the queue, no other part of the hub, and no byte of a memory
that is not listed. -/
def Keeps (ps : List Piece) (s t : State) : Prop :=
  t.fuses = s.fuses ∧ t.pending = s.pending ∧ Only (.ram :: .nvm :: ps) s.hub t.hub ∧
    (.ram ∉ ps → ∀ a, t.mem.get Mem.ramByte a = s.mem.get Mem.ramByte a) ∧
    (.nvm ∉ ps → ∀ a, t.nv.get Mem.nvByte a = s.nv.get Mem.nvByte a)

/-- A bit of HUB_IRQSTAT is set (R620). -/
def irqSet (h : Hub) (b : Nat) : Bool := h.regs.irqstat.getLsbD b

/-- The hub in which a direct write of a register acts: a half held for a read is gone (R609), and the write is noted until the cycle ends (R613). -/
def noted (unit off : Nat) (v : DWord) (h : Hub) : Hub :=
  { h.clean with regs := { h.regs with half := none, portWrote := h.regs.portWrote ++ [(unit, off, v)] } }

/-- The memory once bytes have been written from an address of the memory map (R524). -/
def State.memAfter (s : State) (a : Nat) (bs : List Byte) : Mem := Mem.apply Mem.ramByte s.mem (postMem a bs s.hub.clean).posted

/-- The NV memory once a place has been erased and bytes have been written there (R367, R569). -/
def State.nvAfter (s : State) (a : Nat) (bs : List Byte) : Mem :=
  Mem.apply Mem.nvByte s.nv (nvPost a bs (nvErase s.env a bs.length s.hub.clean)).nvPosted

/-! Fabric packets (Table 10.1). -/

/-- A packet of `type` that arrives for this node in order: its checks pass (R374, R380) and its sequence is accepted (R376). -/
def photenOk (e : Env) (h : Hub) (type : Nat) (p : List Byte) (port : Nat) : Bool :=
  let w0 := beAt p 0 4
  (serving h || (h.sys.st == .drowse && type == 5)) && decide (port < 48) && decide (p.length = bitsOf w0 16 8) && decide (64 ≤ p.length) &&
    decide (p.length ≤ 256) && decide (p.length % 4 = 0) && decide ((crc32c (p.take 28 ++ [0, 0, 0, 0] ++ p.drop 32)).toNat = beAt p 28 4) &&
    decide (bitsOf w0 31 28 = 1) && decide (bitsOf w0 27 24 = type) && decide (type ≤ 5) && decide (bitsOf w0 19 17 = 0) && decide (bitsOf w0 7 0 = 0) &&
    decide (bitsOf (beAt p 4 4) 31 18 = 0) && decide (bitsOf (beAt p 8 4) 31 18 = 0) && decide (beAt p 4 4 = nodeNo e h) &&
    (rxAccept (Tab.find h.fab.rx (bitsOf (beAt p 8 4) 17 0 * 4 + bitsOf w0 23 22)) (bitsOf (beAt p 12 4) 15 0) (beAt p 16 8) (bitOf w0 20)).isSome

/-- What a packet carries: the fields of its header and its payload without the padding. -/
def photenFields (p : List Byte) : RxPkt :=
  { type := bitsOf (beAt p 0 4) 27 24, tc := bitsOf (beAt p 0 4) 23 22, src := bitsOf (beAt p 8 4) 17 0, flow := bitsOf (beAt p 12 4) 31 16
    soff := beAt p 25 3, tb := beAt p 16 8, body := (p.drop 32).take (p.length - 32 - beAt p 24 1) }

/-! Sideband frames (Table 10.4). -/

/-- A frame of `type` that arrives on a port and is acted on: its checks pass (R384), the port takes it in its state (R385, R386), a routed
one is the next in order, and a flooded one has not been seen (R390). -/
def sbOk (e : Env) (h : Hub) (type i : Nat) (f : SbFrame) : Bool :=
  let p := sbPort h i
  sbRuns h && (sbPorts e).contains i && decide (f.ftype.toNat = type) && !f.bad && decide (f.plen.toNat ≤ 96) && decide (type ≤ 11) && decide (f.rsvd = 0) &&
    decide (f.hop.toNat ≤ 16) && decide (f.nhops.toNat ≤ 16) &&
    (if type ≤ 3 then decide (p.state ≠ 0) || decide (f.ftype = 1)
     else decide (p.state = 2) && !(h.sys.st == .config && f.ftype != 4 && f.ftype != 5) && decide (f.lseq = p.rseq + 1)) &&
    !(f.flood && floodSeen f h)

/-- A message that has arrived whole and is for this block: a frame of its type that is acted on, with the fragments before it (R384). -/
def sbMessage (e : Env) (h : Hub) (type i : Nat) (f : SbFrame) : Option (List Byte) :=
  if sbOk e h type i f && sbMine e f then (sbAssemble f h).2 else none

/-- A broadcast message that has arrived for this block, over Photen in tray role or over the sideband (R399). -/
def bcastMsg (e : Env) (h : Hub) (m : BcastIn) : Option BRx :=
  match m with
  | .photen p port =>
    if e.tray && photenOk e h 1 p port.toNat then
      (readBMsg (photenFields p).body).map (fun b => { src := (photenFields p).src, back := .photen (BitVec.ofNat 18 (photenFields p).src), msg := b })
    else none
  | .sb port f =>
    ((sbMessage e h 9 port.toNat f).bind readBMsg).map (fun b => { src := f.src.toNat, back := .sb (backOf e port.toNat f h), msg := b })

/-- The packets of a reduction message to a node, as a node queues them (R220, R379). -/
def redOut (h : Hub) (tc dst : Nat) (m : Red) : List Packet :=
  (redPackets m).map (fun p => { type := 0, tc := BitVec.ofNat 2 tc, dst := BitVec.ofNat 18 dst, flow := BitVec.ofNat 16 m.group, soff := 0
                                 tb := nowNs h, body := redBody p })

/-- What a member die sends to its tray: its elements as one contribution, with its load (R221, R232). -/
def redUp (h : Hub) (m : Red) : Red := { m with level := 0, contrib := 1, load := h.xs.load }

/-! Commands as packets. -/

/-- The words of a command with its requester's domain, as steps 7 to 14 see them. -/
def ctxOf (c : Cmd) (s : State) : Ctx := mkCtx c ((reqDom s.env s.hub c.req).getD (.tenant, none))

/-- The hub once step 8 has consumed the command's CSEQ. -/
def consumed (c : Cmd) (s : State) : Hub := onSeq c.req (fun q => seqConsume q c.cseq none) s.hub.clean

/-- Step 8 lets the command through (R461). -/
def seqPass (c : Cmd) (s : State) : Bool :=
  match seqCheck (seqOf s.hub c.req) c.cseq with
  | .pass => true
  | _ => false

/-- A command for this block passes steps 6 to 13 of Table 12.3 and need not wait: its requester reaches the interpreter, the target is this
block, the domain may issue it, the CSEQ is new, the block has room for it, and its state, length, entities and values are right. -/
def passes (d : OpDef) (c : Cmd) (s : State) : Bool :=
  let x := ctxOf c s
  let h := consumed c s
  (reqDom s.env s.hub c.req).isSome && decide (c.params.length ≤ 348) &&
    (decide (c.target = 0x3FFFF) || decide (c.target.toNat = nodeNo s.env s.hub)) &&
    d.may x && !(x.dom == .tenant && x.job.isNone) && seqPass c s && s.hub.sys.st != .flush && decide (inProgress s.hub < 32) &&
    !mustWait c s.hub && admitted d.code s.hub && d.runs s.env h && d.form x && (d.see s.env h x).isNone && (d.range s.env h x).isNone

/-- The command has had its reply: status, DETAIL and results stand in the reply stored against its CSEQ (R462), and in the reply buffer of the
channel it came by when that was free (R468). No other channel has changed. -/
def Answered (opcode st det : Nat) (res : List Word) (c : Cmd) (s t : State) : Prop :=
  (∃ r : Reply, r.notice = false ∧ r.opcode = BitVec.ofNat 8 opcode ∧ r.cseq = c.cseq ∧ r.status = BitVec.ofNat 16 st ∧ r.detail = det ∧
    r.result = res ∧ r.tb = BitVec.ofNat 64 (nowNs t.hub) ∧
    (c.cseq ≠ 0 → c.req ≠ .broadcast → (c.cseq, some r) ∈ (seqOf t.hub c.req).stored) ∧
    ∀ ch x, c.req = .channel ch → s.hub.cmd.chans[ch.toNat]? = some x → x.rbuf = none →
      ∃ y, t.hub.cmd.chans[ch.toNat]? = some y ∧ y.rbuf = some r) ∧
  ∀ i, (∀ ch, c.req = .channel ch → ch.toNat ≠ i) → t.hub.cmd.chans[i]? = s.hub.cmd.chans[i]?

/-- The command is in progress: its reply comes later (R464). -/
def InProgress (opcode : Nat) (c : Cmd) (t : State) : Prop :=
  ∃ p ∈ t.hub.cmd.pends, p.opcode = BitVec.ofNat 8 opcode ∧ p.req = c.req ∧ p.cseq = c.cseq

/-! What commands leave of a part of the hub, for the statements about plans, broadcasts and sideband frames. -/

/-- The plan that is formed for a region (R358). -/
def planFor (h : Hub) (r cause : Nat) (off : Int) (cap : Nat) : Plan :=
  { seq := h.age.planSeq + 1, cause := BitVec.ofNat 3 cause, offset := off, fcap := cap, smin := (zone h r).smin.getD 0, tb := nowNs h }

/-- What a block's progress in a phase leaves of a broadcast: what it is, who it came from, and the answers gathered. -/
def Bcast.asked (b : Bcast) : Bcast :=
  { b with phase := 0, tree := 0, treeDue := 0, awaitT := [], upDue := 0, upTry := false, exD := [], exT := [], pend := none, prepared := 0 }

/-- What the frames on a port's line leave of the port. -/
def Port.line (p : Port) : Port := { p with lseq := 0, rseq := 0, unacked := [], resent := 0, ackDue := none, queue := [], last := none }
/-- What frames sent and received leave of the sideband unit. -/
def Sb.line (s : Sb) : Sb := { s with ports := [], txFrames := 0, rxFrames := 0, undeliv := 0, mseq := 0 }

/-- Between two hubs only frames have been sent and received on the sideband. -/
structure Frames (h k : Hub) : Prop where
  only : Only [.sb] h k
  sb : k.sb.line = h.sb.line
  port : ∀ i, (sbPort k i).line = (sbPort h i).line

/-- What a frame acted on leaves of the sideband unit. -/
def Sb.acted (s : Sb) : Sb := { s.line with flooded := [] }

/-- Between two hubs the sideband has received a frame, and noted a flooded one, and sent and received nothing else but frames. -/
structure Acted (h k : Hub) : Prop where
  only : Only [.sb] h k
  sb : k.sb.acted = h.sb.acted
  port : ∀ i, (sbPort k i).line = (sbPort h i).line

end Sys2Proof.Machine
end

