-- ==== Sys2Proof/Certificates/Slice0/Obligations.lean ====
section
/-!
DEFINITION. What is claimed of the model, from the numbered rules of the spec.

A completion statement says of each command it names that `exec` answers a next state, and what that state holds. `passes` is steps 6 to 13 of
Table 12.3; an event's hypotheses are the conditions under which its rule says that it occurs.
-/
open Sys2Proof Sys2Proof.Machine

/-- A step of a state whose queue has command c at its front is exec of c on that state with the queue's rest. (R464, R465) -/
def Obligations.StepRunsFront : Prop :=
  ∀ s c l, s.pending = c :: l → step s = exec c { s with pending := l }

/-- With no command waiting a step completes and the queue stays empty; where expiries are due together it is their expiry. Otherwise it is
one clock cycle: with no trigger condition met, no access outstanding or waiting at the memory port and nothing else waiting to go, what
the cycle's end clears is cleared and nothing but the time base changes beside it. In DORMANT with REFCLK present TB_NS moves by 10 and
the fraction is 0; in a state whose units run TB moves by one cycle of CK_CORE; in COLD before power-on reset is released TB stands. That
an empty queue means a clock cycle is the model's choice (log 9). (R49, R51, R54, R59, R71) -/
def Obligations.IdleStep : Prop :=
  (∀ s, s.pending = [] → ∃ t, step s = .next t ∧ t.pending = []) ∧
  (∀ s, s.pending = [] → s.hub.time.due = true → step s = .next (fireDue s)) ∧
  (∀ s, s.pending = [] → s.hub.time.due = false → s.hub.trc.conds = [] → s.hub.mem.out = [] → s.hub.mem.waitq = [] →
    (s.hub.sys.st = .dormant → s.hub.isl.refLost = false → nowNs s.hub + 10 < 2 ^ 64 → ∃ t, step s = .next t ∧ nowNs t.hub = nowNs s.hub + 10 ∧ t.hub.time.tb.toNat % 2 ^ 32 = 0 ∧
      t.hub = { endCycle (onTrc (fun t => { t with fired := false }) s.hub.clean) with time := t.hub.time }) ∧
    (alive s.hub = true → (∀ c, (chan s.hub c).submitted = none) → s.hub.cmd.held = [] → s.hub.mem.errq = [] → s.hub.xs.queue = [] → s.hub.reports = [] → ctlTraced s.hub = false →
      ∃ t, step s = .next t ∧ t.hub = { endCycle (onTrc (fun t => { t with fired := false }) s.hub.clean) with time := tbCycle s.hub.time }) ∧
    (s.hub.sys.st = .cold → s.hub.sys.supplyLost = false → s.hub.sys.porstLow = true → ∃ t, step s = .next t ∧
      t.hub = endCycle (onTrc (fun t => { t with fired := false }) s.hub.clean)))

/-- Right after power-on reset the block is in COLD with PORST_N low, unprovisioned by any image, the protection setup open, TB 0, no channel
but channel 0 open, no command in progress, no interrupt set, no boost of a lane or cell stored, and both memories list nothing. The
levels and counters that the spec gives no reset value for are the model's choice (log 10). (R592, R618, R30) -/
def Obligations.ResetState : Prop :=
  State.reset.hub.sys.st = .cold ∧ State.reset.hub.sys.porstLow = true ∧ State.reset.hub.img = none ∧ State.reset.hub.prot.locked = false ∧ State.reset.hub.time.tb = 0 ∧
  (∀ c, chanOn State.reset.hub c = decide (c = 0)) ∧ State.reset.hub.cmd.pends = [] ∧ State.reset.hub.regs.irqstat = 0 ∧ State.reset.hub.regs.irqen = 0 ∧ State.reset.hub.cells = [] ∧
  State.reset.hub.log.queue = [] ∧ State.reset.mem = [] ∧ State.reset.nv = [] ∧ State.reset.pending = []

/-- Right after reset both memories are in canonical form and nothing is left over to be written to them. (R602, R616) -/
def Obligations.ResetCanonical : Prop :=
  State.reset.wf = true ∧ State.reset.hub.posted = [] ∧ State.reset.hub.nvPosted = []

/-- From every state whose memories are in canonical form, a step answers a next state, in which both are again, whatever command ran and
whatever it wrote; nothing is left over to be written, the fuses are as they were, and the queue has lost its front and nothing else.
(R465, R575, R524) -/
def Obligations.StepKeepsCanonical : Prop :=
  ∀ s, s.wf = true → ∃ t, step s = .next t ∧ t.wf = true ∧ t.hub.posted = [] ∧ t.hub.nvPosted = [] ∧ t.fuses = s.fuses ∧ t.pending = s.pending.tail

/-- The accumulator adds modulo 2^704, the special counts add and saturate at 0xFFFF_FFFF, the flags combine by OR; the sum of a list of
values does not change with their order, nor with how they are grouped. (R210) -/
def Obligations.ExactSums : Prop :=
  (∀ x y : Xa, (x.add y).a.toNat = (x.a.toNat + y.a.toNat) % 2 ^ 704 ∧ (x.add y).nans = min (x.nans + y.nans) 0xFFFFFFFF ∧ (x.add y).pinfs = min (x.pinfs + y.pinfs) 0xFFFFFFFF ∧
    (x.add y).ninfs = min (x.ninfs + y.ninfs) 0xFFFFFFFF ∧ (x.add y).range = (x.range || y.range) ∧ (x.add y).part = (x.part || y.part) ∧
    (x.add y).incomplete = (x.incomplete || y.incomplete)) ∧
  (∀ l m : List Xa, l.Perm m → l.foldl Xa.add {} = m.foldl Xa.add {}) ∧
  (∀ g : List (List Xa), (g.map (fun l => l.foldl Xa.add {})).foldl Xa.add {} = g.flatten.foldl Xa.add {})

/-- SYS_STATE READ, with or without its operation word, is answered with one word whose fields are the state's code of Table 1.8, the time
quality, the role, the protection lock and the PLAYA cause, the last 0 outside PLAYA, with bits 31 to 11 zero; the HUB state register's
bits 3 to 0 are the same code. (R29, R482) -/
def Obligations.StateReport : Prop :=
  (∀ c s w, passes opSysStateRead (if w then withOp 0 c else c) s = true → ∃ t r, exec (.sysStateRead c w) s = .next t ∧
    Answered 0x02 0x0000 0 [r] (if w then withOp 0 c else c) s t ∧
    r.extractLsb 3 0 = (match s.hub.sys.st with
      | .cold => 0 | .fuse => 1 | .config => 2 | .playa => 3 | .serving => 4 | .drowse => 5 | .dormant => 6 | .flush => 7) ∧
    r.extractLsb 5 4 = s.hub.time.quality ∧ r.getLsbD 6 = s.env.tray ∧ r.getLsbD 7 = s.hub.prot.locked ∧
    r.extractLsb 10 8 = (if s.hub.sys.st = .playa then s.hub.sys.playaCause else 0) ∧ r.extractLsb 31 11 = 0) ∧
  (∀ e h, readReg e h 0 0x08 % 16 = (match h.sys.st with
      | .cold => 0 | .fuse => 1 | .config => 2 | .playa => 3 | .serving => 4 | .drowse => 5 | .dormant => 6 | .flush => 7))

/-- SYS_INFO answers OK with the words of Table 12.11 and SYS_STATE READ with the word of R482. A SYS_STATE request for the present state
answers OK and leaves the state; an admitted one answers ACCEPTED and the change starts; while a transition is in progress every request
is held behind it. SYS_RESET of kind 1 starts the orderly flush that a BLOCK reset follows; of kind 0 it leaves the block in CONFIG by a
CONFIG reset with TB kept. (R473, R482, R30, R34, R594, R600) -/
def Obligations.IdentityAndStateCommands : Prop :=
  (∀ c s, passes opSysInfo c s = true →
    ∃ t, exec (.sysInfo c) s = .next t ∧ Answered 0x00 0x0000 0 (sysInfoWords s.env s.hub) c s t) ∧
  (∀ c s, passes opSysStateRead (withOp 0 c) s = true →
    ∃ t, exec (.sysStateRead c true) s = .next t ∧ Answered 0x02 0x0000 0 [w32 (stateWord s.env s.hub)] (withOp 0 c) s t) ∧
  (∀ c s, passes opSysStateRead c s = true →
    ∃ t, exec (.sysStateRead c false) s = .next t ∧ Answered 0x02 0x0000 0 [w32 (stateWord s.env s.hub)] c s t) ∧
  (∀ c s, passes (opStateRequest .serving) (withOp 1 c) s = true → transiting s.hub = false →
    (s.hub.sys.st = .serving → ∃ t, exec (.sysStateRequestServing c) s = .next t ∧ Answered 0x02 0x0000 0 [] (withOp 1 c) s t ∧ t.hub.sys = s.hub.sys) ∧
    (s.hub.sys.st = .drowse → ∃ t, exec (.sysStateRequestServing c) s = .next t ∧ Answered 0x02 0x0001 0 [] (withOp 1 c) s t ∧ t.hub.sys.st = .serving)) ∧
  (∀ c s, passes (opStateRequest .drowse) (withOp 2 c) s = true → transiting s.hub = false →
    (s.hub.sys.st = .drowse → ∃ t, exec (.sysStateRequestDrowse c) s = .next t ∧ Answered 0x02 0x0000 0 [] (withOp 2 c) s t ∧ t.hub.sys = s.hub.sys) ∧
    (s.hub.sys.st = .serving → ∃ t, exec (.sysStateRequestDrowse c) s = .next t ∧ Answered 0x02 0x0001 0 [] (withOp 2 c) s t ∧ t.hub.sys.st = .drowse)) ∧
  (∀ c s, passes (opStateRequest .dormant) (withOp 3 c) s = true → transiting s.hub = false → s.hub.sys.st = .drowse →
    ∃ t, exec (.sysStateRequestDormant c) s = .next t ∧ Answered 0x02 0x0001 0 [] (withOp 3 c) s t ∧
      t.hub.sys.st = .drowse ∧ t.hub.sys.orderly = some .dormant) ∧
  (∀ c s, passes (opStateRequest .dormant) (withOp 3 c) s = true → transiting s.hub = true →
    ∃ t, exec (.sysStateRequestDormant c) s = .next t ∧ Answered 0x02 0x0001 0 [] (withOp 3 c) s t ∧ t.hub.sys.st = s.hub.sys.st ∧
      t.hub.sys.held.length = s.hub.sys.held.length + 1) ∧
  (∀ c s, passes opSysReset c s = true → transiting s.hub = false → c.n 1 = 1 →
    ∃ t, exec (.sysReset c) s = .next t ∧ Answered 0x01 0x0001 0 [] c s t ∧ t.hub.sys.st = s.hub.sys.st ∧ t.hub.sys.orderly = some .blockReset) ∧
  (∀ c s, passes opSysReset c s = true → transiting s.hub = false → c.n 1 = 0 →
    ∃ t, exec (.sysReset c) s = .next t ∧ t.hub.sys.st = .config ∧ t.hub.sys.lastReset = 2 ∧ t.hub.time.tb = s.hub.time.tb)

/-- TIME_SET with a source selected answers WRONG_STATE and changes no time; with none it answers OK and steps TB to the operand where R52 or
R53 allow a step, and otherwise leaves the difference to be slewed. TIME_TRIM writes its settings, and TB stays. TIME_READ answers with
the words of one sample. A write of CAP captures TB in TIME_CAPNS, and a read of TIME_NS latches the fraction of the same sample. (R50,
R51, R52, R53, R56, R57, R643) -/
def Obligations.TimeCommands : Prop :=
  (∀ c s, passes opTimeSet c s = true →
    (s.hub.time.source = 1 → ∃ t, exec (.timeSet c) s = .next t ∧ Answered 0x10 0x0108 0 [] c s t ∧ t.hub.time = s.hub.time) ∧
    (s.hub.time.source ≠ 1 → mayStep s.hub ((c.d 1 : Int) - nowNs s.hub) = true →
      ∃ t, exec (.timeSet c) s = .next t ∧ Answered 0x10 0x0000 0 [] c s t ∧ nowNs t.hub = c.d 1 ∧ t.hub.time.toSlew = 0 ∧
        t.hub.time.steps = s.hub.time.steps + 1) ∧
    (s.hub.time.source ≠ 1 → mayStep s.hub ((c.d 1 : Int) - nowNs s.hub) = false →
      ∃ t, exec (.timeSet c) s = .next t ∧ Answered 0x10 0x0000 0 [] c s t ∧
        t.hub.time = { s.hub.time with toSlew := ((c.d 1 : Int) - nowNs s.hub) * 2 ^ 32 })) ∧
  (∀ c s, passes opTimeTrim c s = true → ∀ tm, foldSet timeSetting c.params.length 1 c.params [] s.hub.time = .inr tm →
    ∃ t, exec (.timeTrim c) s = .next t ∧ Answered 0x11 0x0000 0 [] c s t ∧ t.hub.time.rate = tm.rate ∧ t.hub.time.source = tm.source ∧
      t.hub.time.slewPpm = tm.slewPpm ∧ t.hub.time.stepThr = tm.stepThr ∧ t.hub.time.tb = tm.tb ∧ tm.tb = s.hub.time.tb) ∧
  (∀ c s, passes opTimeRead c s = true → ∃ t, exec (.timeRead c) s = .next t ∧ Answered 0x12 0x0000 0 (timeReadWords s.hub) c s t ∧
    t.hub.time = s.hub.time) ∧
  (∀ s, portOn s.hub = true → s.hub.regs.cmdWrote.contains (2, 0x38) = false → ∃ t, exec (.timeCapture true) s = .next t ∧
    t.hub.time = { s.hub.time with capNs := BitVec.ofNat 64 (nowNs s.hub) } ∧ t.hub.sys = s.hub.sys ∧ t.hub.log = s.hub.log) ∧
  (∀ s, portOn s.hub = true → s.hub.regs.cmdWrote.contains (2, 0x38) = false → ∃ t, exec (.timeCapture false) s = .next t ∧ t.hub.time = s.hub.time) ∧
  (∀ s, portOn s.hub = true → ∃ t, exec .timeNsRead s = .next t ∧
    t.hub.time = { s.hub.time with fracLatch := s.hub.time.tb.setWidth 32 } ∧
    t.hub.regs = { s.hub.regs with lastRead := BitVec.ofNat 64 (nowNs s.hub), half := none })

/-- LOCKED without a valid sync for 3 sync intervals becomes HOLDOVER, and HOLDOVER beyond its limit becomes FREE. A loss of REFCLK sets FREE
and the block keeps running; its return restarts the run of locked intervals and sets the quality that the source gives. (R40, R57, R58,
R620) -/
def Obligations.TimeQuality : Prop :=
  (∀ s, s.hub.time.quality = 2 → s.hub.time.lastSync + 3 * s.hub.time.syncInt ≤ nowNs s.hub → alive s.hub = true →
    ∃ t, exec .holdoverEntry s = .next t ∧ t.hub.time = { s.hub.time with quality := 3, holdSince := nowNs s.hub, qchanges := s.hub.time.qchanges + 1 } ∧
      irqSet t.hub 1 = true) ∧
  (∀ s, s.hub.time.quality = 3 → s.hub.time.holdSince + s.hub.time.holdoverLimit ≤ nowNs s.hub → alive s.hub = true →
    s.env.beaten evSync (s.hub.time.holdSince + s.hub.time.holdoverLimit) (nowNs s.hub) = false →
    ∃ t, exec .holdoverLimitExpiry s = .next t ∧ t.hub.time = { s.hub.time with quality := 0, lockRun := 0, qchanges := s.hub.time.qchanges + 1 } ∧
      irqSet t.hub 1 = true) ∧
  (∀ s, s.hub.isl.refLost = false → ∃ t, exec .refclkLoss s = .next t ∧ t.hub.isl = { s.hub.isl with refLost := true } ∧ t.hub.time.quality = 0 ∧
    t.hub.time.lockRun = 0 ∧ t.hub.time.tb = s.hub.time.tb ∧ t.hub.sys = s.hub.sys) ∧
  (∀ s, s.hub.isl.refLost = true → ∃ t, exec .refclkReturn s = .next t ∧ t.hub.isl = { s.hub.isl with refLost := false } ∧
    t.hub.time.quality = (if s.hub.time.source = 1 then 1 else 0) ∧ t.hub.time.lockRun = 0 ∧ t.hub.time.tb = s.hub.time.tb)

/-- A COLD reset (PORST_N, a loss of the always-on supply) leaves COLD with nothing of the block's state but the pins' levels and the free
values' counter; the release of PORST_N enters FUSE. BLKRST_N outside COLD, and the watchdog one millisecond after it expired, are BLOCK
resets: FUSE, TB and the island's removal memory kept. A fall of MAIN_PG outside DORMANT leaves COLD with the supply lost, and its rise is
a BLOCK reset; in DORMANT a rise that the island asked for releases the main reset. (R592, R593, R595, R602, R628, R639) -/
def Obligations.ResetEvents : Prop :=
  (∀ s, ∃ t, exec .powerOnReset s = .next t ∧ t.hub =
    { free := s.hub.free, reports := s.hub.reports, ens := { passNo := s.hub.ens.passNo }, sys := { porstLow := true, blkrstLow := s.hub.sys.blkrstLow, mainPg := s.hub.sys.mainPg, pfwLow := s.hub.sys.pfwLow } }) ∧
  (∀ s, ∃ t, exec .vddAonLoss s = .next t ∧ t.hub =
    { free := s.hub.free, reports := s.hub.reports, ens := { passNo := s.hub.ens.passNo }, sys := { porstLow := s.hub.sys.porstLow, blkrstLow := s.hub.sys.blkrstLow, mainPg := s.hub.sys.mainPg, pfwLow := s.hub.sys.pfwLow } }) ∧
  (∀ s, s.hub.sys.st = .cold → s.hub.sys.supplyLost = false → ∃ t, exec .powerOnResetRelease s = .next t ∧
    t.hub = { s.hub.clean with sys := { s.hub.sys with porstLow := false, st := .fuse } }) ∧
  (∀ s, s.hub.sys.st ≠ .cold → ∃ t, exec .blockResetPin s = .next t ∧ t.hub.sys.st = .fuse ∧ t.hub.sys.lastReset = 1 ∧ t.hub.sys.blkrstLow = true ∧
    t.hub.time.tb = s.hub.time.tb ∧ t.hub.isl.removed = s.hub.isl.removed ∧ t.hub.cmd = {} ∧ t.hub.casc = {} ∧ t.hub.prot = {}) ∧
  (∀ s, s.hub.sys.blkrstLow = true → s.hub.sys.st ≠ .fuse → ∃ t, exec .blockResetRelease s = .next t ∧
    t.hub = { s.hub.clean with sys := { s.hub.sys with blkrstLow := false } }) ∧
  (∀ s, portOn s.hub = true → s.hub.sys.wdReset = none → alive s.hub = false → ∃ t, exec .watchdogExpiry s = .next t ∧
    t.hub = { s.hub.clean with sys := { s.hub.sys with wdReset := some (nowNs s.hub + 1000000) } }) ∧
  (∀ s d, s.hub.sys.wdReset = some d → d ≤ nowNs s.hub → ∃ t, exec .watchdogReset s = .next t ∧ t.hub.sys.st = .fuse ∧ t.hub.sys.lastReset = 1 ∧
    t.hub.sys.wdReset = none ∧ t.hub.time.tb = s.hub.time.tb ∧ t.hub.isl.removed = s.hub.isl.removed) ∧
  (∀ s, s.hub.sys.supplyLost = true → ∃ t, exec .mainPgRise s = .next t ∧ t.hub.sys.st = .fuse ∧ t.hub.sys.mainPg = true ∧ t.hub.sys.pllLocked = false ∧
    t.hub.sys.supplyLost = false ∧ t.hub.time.tb = s.hub.time.tb) ∧
  (∀ s, s.hub.sys.supplyLost = false → s.hub.sys.st = .dormant → s.hub.isl.asking = true → ∃ t, exec .mainPgRise s = .next t ∧
    t.hub = { s.hub.clean with isl := { s.hub.isl with released := true }, sys := { s.hub.sys with mainPg := true, pllLocked := false } }) ∧
  (∀ s, s.hub.sys.st ≠ .dormant → s.hub.sys.st ≠ .cold → ∃ t, exec .mainPgFall s = .next t ∧ t.hub.sys.st = .cold ∧ t.hub.sys.supplyLost = true ∧
    t.hub.sys.mainPg = false ∧ t.hub.isl.removed = s.hub.isl.removed ∧ t.hub.time.tb = s.hub.time.tb)

/-- When the last of its conditions comes in FUSE (the sensing passes ended, the PLL locked, BLKRST_N and PFW_N released, no recovery hold),
the block enters CONFIG, waiting 10 s for its protection setup, if the fuse read is good, and PLAYA with cause 1 if it failed. Before that
it stays in FUSE. (R32, R38, R574, R576, R588, R593, R597) -/
def Obligations.FuseEnd : Prop :=
  (∀ s u d, s.hub.sys.st = .fuse → s.hub.sys.sense = none → s.hub.sys.pllLocked = true → s.hub.sys.blkrstLow = false → s.hub.sys.pfwLow = false →
    s.hub.log.holdUntil = none → ∃ t, exec (.fuseSenseDone u d) s = .next t ∧ t.hub.sys.sense = some (!u && !d) ∧ t.hub.img = none ∧
      t.hub.sys.st = (if u || d then .playa else .config) ∧ t.hub.sys.playaCause = (if u || d then 1 else 0) ∧
      t.hub.boot.protUntil = (if u || d then none else some (nowNs s.hub + 10000000000))) ∧
  (∀ s u d, s.hub.sys.st = .fuse → s.hub.sys.sense = none → s.hub.sys.pllLocked = false → ∃ t, exec (.fuseSenseDone u d) s = .next t ∧
    t.hub = { s.hub.clean with sys := { s.hub.sys with sense := some (!u && !d) } }) ∧
  (∀ s r, s.hub.sys.st = .fuse → s.hub.sys.mainPg = true → s.hub.sys.sense = some r → s.hub.sys.blkrstLow = false → s.hub.sys.pfwLow = false →
    s.hub.log.holdUntil = none → ∃ t, exec .pllLock s = .next t ∧ t.hub.sys.pllLocked = true ∧ t.hub.sys.st = (if r then .config else .playa)) ∧
  (∀ s, s.hub.sys.st = .fuse → s.hub.sys.mainPg = true → s.hub.sys.sense = none → ∃ t, exec .pllLock s = .next t ∧
    t.hub = { s.hub.clean with sys := { s.hub.sys with pllLocked := true } }) ∧
  (∀ s, s.hub.sys.st = .dormant → s.hub.isl.asking = true → s.hub.isl.released = true → ∃ t, exec .pllLock s = .next t ∧ t.hub.sys.st = .config ∧
    t.hub.sys.lastReset = 3 ∧ t.hub.time.tb = s.hub.time.tb ∧ t.hub.isl.removed = s.hub.isl.removed)

/-- A warning in CONFIG, PLAYA, SERVING or DROWSE enters FLUSH and remembers the state it left; in COLD or FUSE the island latches it; in
DORMANT the island counts it with its first and last TB; in FLUSH it is a bounce. The end of the flush writes phases 1 to 6. A release
starts the hold of 10 ms, or of the configured length; when the hold ends without a new warning, not even in the same cycle, an ended
flush with its erases done returns to the state it left, and the expiries that it kept are due. (R32, R33, R560, R561, R563, R568, R630) -/
def Obligations.PowerFailEvents : Prop :=
  (∀ s, s.hub.sys.pfwLow = false → alive s.hub = true → ∃ t, exec .pfwWarning s = .next t ∧ t.hub.sys.st = .flush ∧ t.hub.sys.left = s.hub.sys.st ∧
    t.hub.sys.pfwLow = true ∧ t.hub.time = s.hub.time ∧ t.hub.casc = s.hub.casc) ∧
  (∀ s, s.hub.sys.pfwLow = false → s.hub.sys.st = .cold ∨ s.hub.sys.st = .fuse → ∃ t, exec .pfwWarning s = .next t ∧
    t.hub = { s.hub.clean with sys := { s.hub.sys with pfwLow := true }, isl := { s.hub.isl with latched := true }, log := { s.hub.log with holdUntil := none } }) ∧
  (∀ s, s.hub.sys.pfwLow = false → s.hub.sys.st = .dormant → ∃ t, exec .pfwWarning s = .next t ∧ t.hub.sys = { s.hub.sys with pfwLow := true } ∧
    t.hub.isl = { s.hub.isl with warnings := s.hub.isl.warnings + 1, firstWarn := (if s.hub.isl.warnings = 0 then nowNs s.hub else s.hub.isl.firstWarn), lastWarn := nowNs s.hub }) ∧
  (∀ s f, s.hub.sys.pfwLow = false → s.hub.sys.st = .flush → s.hub.log.flush = some f → ∃ t, exec .pfwWarning s = .next t ∧
    t.hub.sys = { s.hub.sys with pfwLow := true } ∧ t.hub.log =
    { s.hub.log with bounce := s.hub.log.bounce + 1, holdUntil := none, suspended := s.hub.log.erasing, flush := some { f with bounces := f.bounces + 1 } }) ∧
  (∀ s f, s.hub.sys.st = .flush → s.hub.log.flush = some f → f.ended = false → ∃ t, exec .flushEnd s = .next t ∧ t.hub.log.lastPhase = 6 ∧
    (∀ g, t.hub.log.flush = some g → g.ended = true ∧ g.phase = 6) ∧ t.hub.sys = s.hub.sys ∧ t.hub.time = s.hub.time) ∧
  (∀ s, s.hub.sys.pfwLow = true → s.hub.sys.st = .flush → ∃ t, exec .pfwRelease s = .next t ∧
    t.hub = { s.hub.clean with sys := { s.hub.sys with pfwLow := false }, log := { s.hub.log with holdUntil := some (nowNs s.hub + s.hub.boot.recHold), suspended := false } }) ∧
  (∀ s, s.hub.sys.pfwLow = true → s.hub.sys.st = .cold ∨ s.hub.sys.st = .fuse → ∃ t, exec .pfwRelease s = .next t ∧
    t.hub = { s.hub.clean with sys := { s.hub.sys with pfwLow := false }, log := { s.hub.log with holdUntil := some (nowNs s.hub + 10000000), suspended := false } }) ∧
  (∀ s d f, s.hub.log.holdUntil = some d → d ≤ nowNs s.hub → s.hub.sys.pfwLow = false → s.env.beaten evWarning d (nowNs s.hub) = false → s.hub.sys.st = .flush → s.hub.log.flush = some f →
    f.ended = true → erasedEnough s.hub = true → ∃ t, exec .recoveryHoldExpiry s = .next t ∧ t.hub.sys = { s.hub.sys with st := s.hub.sys.left } ∧
      t.hub.time = { s.hub.time with due := true } ∧ t.hub.casc = s.hub.casc) ∧
  (∀ s d, s.hub.log.holdUntil = some d → d ≤ nowNs s.hub → s.hub.sys.pfwLow = false → s.env.beaten evWarning d (nowNs s.hub) = false → s.hub.sys.st = .cold → ∃ t,
    exec .recoveryHoldExpiry s = .next t ∧ t.hub = { s.hub.clean with log := { s.hub.log with holdUntil := none } })

/-- The end of an orderly flush enters DORMANT, TB passed to the island, or is the BLOCK reset it was started for. WAKE_N in DORMANT, or idles
on a die's sideband port, make the island ask for the main supply; with a warning present WAKE_N waits. When every region with cells has
been stopped for longer than the drowse delay, SERVING becomes DROWSE. A held request comes to its turn once the transition before it has
completed. (R30, R34, R569, R594, R599, R600, R601, R630) -/
def Obligations.DormantEvents : Prop :=
  (∀ s f, alive s.hub = true → s.hub.sys.orderly = some .dormant → s.hub.log.flush = some f → f.orderly = true → ∃ t,
    exec .orderlyFlushDone s = .next t ∧ t.hub.sys.st = .dormant ∧ t.hub.sys.orderly = none ∧ t.hub.isl.dormantTb = nowNs s.hub ∧ t.hub.isl.mainOffOk = true) ∧
  (∀ s f, alive s.hub = true → s.hub.sys.orderly = some .blockReset → s.hub.log.flush = some f → f.orderly = true → ∃ t,
    exec .orderlyFlushDone s = .next t ∧ t.hub.sys.st = .fuse ∧ t.hub.sys.lastReset = 1 ∧ t.hub.time.tb = s.hub.time.tb ∧
      t.hub.isl.removed = s.hub.isl.removed) ∧
  (∀ s, s.hub.sys.st = .dormant → s.hub.sys.pfwLow = false → ∃ t, exec .wakeN s = .next t ∧ t.hub.isl.asking = true ∧ t.hub.sys = s.hub.sys ∧
    t.hub.isl.failedWakes = s.hub.isl.failedWakes + (if s.hub.isl.asking && !s.hub.isl.released then 1 else 0)) ∧
  (∀ s, s.hub.sys.st = .dormant → s.hub.sys.pfwLow = true → ∃ t, exec .wakeN s = .next t ∧
    t.hub = { s.hub.clean with isl := { s.hub.isl with wakeHeld := true } }) ∧
  (∀ s p, s.env.tray = false → s.hub.sys.st = .dormant → p.toNat < 4 → s.hub.sys.pfwLow = false → ∃ t, exec (.sbWakeIdles p) s = .next t ∧
    t.hub.isl.asking = true ∧ t.hub.sys = s.hub.sys) ∧
  (∀ s, s.env.tray = false → serving s.hub = true → transiting s.hub = false → (∃ r < 8, s.env.regionAbsent r = false) →
    (∀ r < 8, s.env.regionAbsent r = false → (region s.hub r).stopped = true ∧ (region s.hub r).stopTb + s.hub.boot.drowseDelay < nowNs s.hub) →
    ∃ t, exec .drowseDelayExpiry s = .next t ∧ t.hub.sys.st = .drowse) ∧
  (∀ s q l, alive s.hub = true → s.hub.sys.orderly = none → s.hub.sys.held = q :: l → wantedState q.want = some s.hub.sys.st → ∃ t,
    exec .heldTransitionRecheck s = .next t ∧ t.hub = { s.hub.clean with sys := { s.hub.sys with held := l } }) ∧
  (∀ s q l, s.hub.sys.orderly = none → s.hub.sys.held = q :: l → q.want = .drowse → s.hub.sys.st = .serving → ∃ t,
    exec .heldTransitionRecheck s = .next t ∧ t.hub.sys.st = .drowse ∧ t.hub.sys.held = l) ∧
  (∀ s q l, alive s.hub = true → s.hub.sys.orderly = none → s.hub.sys.held = q :: l → q.want = .dormant → s.hub.sys.st ≠ .drowse → ∃ t,
    exec .heldTransitionRecheck s = .next t ∧ t.hub.sys = { s.hub.sys with held := l })

/-- The end of the NV checks selects the candidate of the highest generation, waits 1 s with none, and enters PLAYA with cause 3 on a
conflict. The wait and the protection wait end in PLAYA with causes 2 and 5, a section that fails in cause 4. An image that applies is in
force. With the lock made, the image applied and written back where it must be, the block serves. IMG_LOAD makes an image whose checks
pass a candidate, in PLAYA behind a reset. (R582, R583, R584, R585, R586, R588, R589) -/
def Obligations.BootEvents : Prop :=
  (∀ s, s.hub.sys.st = .config → s.hub.boot.checked = false →
    (chooseImage (validCopies s.env) s.hub.boot.delivered = .nothing → ∃ t, exec .nvImageCheckDone s = .next t ∧ t.hub.sys = s.hub.sys ∧
      t.hub.boot = { s.hub.boot with checked := true, waitUntil := some (nowNs s.hub + 1000000000) }) ∧
    (chooseImage (validCopies s.env) s.hub.boot.delivered = .conflict → ∃ t, exec .nvImageCheckDone s = .next t ∧ t.hub.sys.st = .playa ∧
      t.hub.sys.playaCause = 3) ∧
    (∀ b wb, chooseImage (validCopies s.env) s.hub.boot.delivered = .image b wb → ∃ t, exec .nvImageCheckDone s = .next t ∧ t.hub.sys = s.hub.sys ∧
      t.hub.boot = { s.hub.boot with checked := true, selected := some (b, wb), writeBack := wb, waitUntil := none })) ∧
  (∀ s d, s.hub.sys.st = .config → s.hub.boot.selected = none → s.hub.boot.waitUntil = some d → d ≤ nowNs s.hub → s.env.beaten evImage d (nowNs s.hub) = false → ∃ t,
    exec .imageWaitExpiry s = .next t ∧ t.hub.sys.st = .playa ∧ t.hub.sys.playaCause = 2 ∧ t.hub.img = none) ∧
  (∀ s d, s.hub.sys.st = .config → s.hub.prot.locked = false → s.hub.boot.protUntil = some d → d ≤ nowNs s.hub → s.hub.sys.orderly = none → s.env.beaten evLock d (nowNs s.hub) = false → ∃ t,
    exec .protectionWaitExpiry s = .next t ∧ t.hub.sys.st = .playa ∧ t.hub.sys.playaCause = 5) ∧
  (∀ s b w i, s.hub.sys.st = .config → s.hub.boot.applied = false → s.hub.boot.selected = some (b, w) →
    i = ({ generation := w32 (imgGen b), hier6 := bitOf (imgW b 4) 16, autolock := bitOf (imgW b 4) 17 } : Image) →
    (∀ f, (applyAll s.env b (orderedSects b) s.hub.clean i).2.2 = some f → ∃ t, exec .imageApply s = .next t ∧ t.hub.sys.st = .playa ∧
      t.hub.sys.playaCause = 4) ∧
    (∀ x, (applyAll s.env b (orderedSects b) s.hub.clean i).2.2 = none →
      settingsAgree s.env (applyAll s.env b (orderedSects b) s.hub.clean i).1 = none → Config.extraOf b = some x → extraBad x = none → ∃ t,
        exec .imageApply s = .next t ∧ t.hub.boot.applied = true ∧ t.hub.img =
          some { (applyAll s.env b (orderedSects b) s.hub.clean i).2.1 with linkRate := x.linkRate, share := x.share, blockCh := x.blockCh, traceCh := x.traceCh, agePlace := x.agePlace })) ∧
  (∀ s b w g, s.hub.sys.st = .config → s.hub.boot.writeBack = true → s.hub.boot.selected = some (b, w) → ∃ t, exec (.imageWriteBack g) s = .next t ∧
    t.hub.boot = { s.hub.boot with writeBack := false } ∧ t.hub.sys = s.hub.sys) ∧
  (∀ s, s.hub.sys.st = .config → s.hub.boot.applied = true → s.hub.prot.locked = true → s.hub.boot.writeBack = false → s.hub.sys.orderly = none → ∃ t,
    exec .enterServing s = .next t ∧ t.hub.sys = { s.hub.sys with st := .serving } ∧ t.hub.time.span = true ∧ t.hub.time.tb = s.hub.time.tb ∧
      t.hub.boot.protUntil = none ∧ t.hub.casc.window = nowNs s.hub / (imgOf s.hub).windowNs) ∧
  (∀ c s b, passes opImgLoad c s = true → s.hub.sys.st = .config → (ctxOf c s).dom = .boot → s.hub.boot.selected = none → s.hub.boot.checked = false →
    bootRead s.env s.hub (c.d 1) (c.d 3) = some b → imageStep s.env b = none → ∃ t, exec (.imgLoad c) s = .next t ∧ Answered 0xC2 0x0000 0 [] c s t ∧
      t.hub.boot = { s.hub.boot with delivered := some b }) ∧
  (∀ c s b n, passes opImgLoad c s = true → imgLoadNow s.hub (ctxOf c s) = true → bootRead s.env s.hub (c.d 1) (c.d 3) = some b →
    imageStep s.env b = some n → ∃ t, exec (.imgLoad c) s = .next t ∧ Answered 0xC2 (if n = 2 then 0x010C else 0x0103) n [] c s t ∧
      t.hub.boot = s.hub.boot) ∧
  (∀ c s b, passes opImgLoad c s = true → s.hub.sys.st = .playa → s.hub.sys.orderly = none → fleetDom (ctxOf c s) = true → bootRead s.env s.hub (c.d 1) (c.d 3) = some b →
    imageStep s.env b = none → ∃ t, exec (.imgLoad c) s = .next t ∧ t.hub.sys.st = .config ∧ t.hub.sys.lastReset = 2 ∧ t.hub.boot.delivered = some b)

/-- KEY_LOAD over a channel puts the key, its domain and job into its slot with an empty replay window, and leaves the other slots; a slot for
BOOT, or for DEBUG while the fuse forbids it, is refused with BAD_PARAM and counted. PROT_LOCK makes every channel what its PROT value
says. DBG_READ answers with the register; DBG_WRITE to a register that is not the DEBUG domain's own is refused in SERVING, and writes it
elsewhere. (R431, R433, R463, R476, R477, R478, R624) -/
def Obligations.ProtectionCommands : Prop :=
  (∀ c s ch, passes opKeyLoad c s = true → c.req = .channel ch → c.n 2 ≠ 0 → (c.n 2 = 3 → s.env.debugDis = false) →
    ∃ t, exec (.keyLoad c) s = .next t ∧ Answered 0xC0 0x0000 0 [] c s t ∧
      Tab.find t.hub.cmd.keys (c.n 1) =
        some { key := BitVec.ofNat 128 (c.d 4 * 2 ^ 64 + c.d 6), domain := BitVec.ofNat 2 (c.n 2), job := BitVec.ofNat 16 (c.n 3) } ∧
      ∀ i, i ≠ c.n 1 → Tab.find t.hub.cmd.keys i = Tab.find s.hub.cmd.keys i) ∧
  (∀ c s, passes opKeyLoad c s = true → c.n 2 = 0 ∨ (c.n 2 = 3 ∧ s.env.debugDis = true) →
    ∃ t, exec (.keyLoad c) s = .next t ∧ Answered 0xC0 0x0103 2 [] c s t ∧ t.hub.prot = { s.hub.prot with refused := s.hub.prot.refused + 1 }) ∧
  (∀ c s, passes opProtLock c s = true → ∃ t, exec (.protLock c) s = .next t ∧
    t.hub.prot = { s.hub.prot with locked := true, auto := false } ∧ t.hub.cmd.chans.length = s.hub.cmd.chans.length ∧
    ∀ i x, t.hub.cmd.chans[i]? = some x →
      x.enabled = (bitOf (getAt s.hub.prot.ch i 0).toNat 0 && decide (bitsOf (getAt s.hub.prot.ch i 0).toNat 2 1 ≠ 0)) ∧
      x.domain = BitVec.ofNat 2 (bitsOf (getAt s.hub.prot.ch i 0).toNat 2 1) ∧ x.job = BitVec.ofNat 16 (bitsOf (getAt s.hub.prot.ch i 0).toNat 31 16) ∧
      x.follow = bitOf (getAt s.hub.prot.ch i 0).toNat 4) ∧
  (∀ c s, passes opDbgRead c s = true → ∃ t, exec (.dbgRead c) s = .next t ∧
    Answered 0xF0 0x0000 0 (w64 (readReg s.env (consumed c s) (c.n 1) (c.n 2) % 2 ^ 64)) c s t) ∧
  (∀ c s, passes opDbgWrite c s = true → serving s.hub = true → debugOnly (c.n 1) (c.n 2) = false →
    ∃ t, exec (.dbgWrite c) s = .next t ∧ Answered 0xF1 0x0108 0 [] c s t ∧ t.hub.res = s.hub.res ∧ t.hub.dig = s.hub.dig) ∧
  (∀ c s, passes opDbgWrite c s = true → s.env.tray = false → c.n 1 = 32 → c.n 2 = 0x40 →
    (∀ w ∈ s.hub.regs.portWrote, ¬(w.1 = 32 ∧ w.2.1 = 0x40)) → ∃ t, exec (.dbgWrite c) s = .next t ∧ Answered 0xF1 0x0000 0 [] c s t ∧
      t.hub.res = { s.hub.res with dbgT := BitVec.ofNat 64 (c.d 3) &&& 0x1FFFFFFFFFFFFFFF })

/-- A write to no register, or one not aligned to its size, is ignored and counted; HUB_IRQEN takes the bits written, HUB_IRQSTAT and a
channel's EVENT lose those written as one that were not set in this cycle. A direct write of a register that a command wrote in this cycle
changes no register. An 8-byte-aligned 32-bit read returns the low half and keeps the high half, which the read that follows it returns.
PROT_CHc takes its value while the setup is open, disabled if it names BOOT, and is counted once locked. RES_DBG_S takes its bits in the
DEBUG domain and is not written directly. A doorbell runs the packet of its buffer as a command of its channel, and sets ERR while the
buffer is busy. (R8, R159, R467, R468, R605, R608, R609, R611, R620, R623, R624, R625) -/
def Obligations.RegisterAccesses : Prop :=
  (∀ s a z v, portOn s.hub = true → locate (a.toNat / 8 * 8) = none → ∃ t, exec (.registerWrite a z v) s = .next t ∧
    t.hub.prot = { s.hub.prot with ignored := s.hub.prot.ignored + 1 } ∧ t.hub.cmd = s.hub.cmd ∧ t.hub.time = s.hub.time) ∧
  (∀ s v, portOn s.hub = true → s.hub.regs.cmdWrote.contains (0, 0x40) = false → ∃ t, exec (.registerWrite 0x40 3 v) s = .next t ∧
    t.hub = { s.hub.clean with regs := { (noted 0 0x40 v s.hub).regs with irqen := v.setWidth 10 } }) ∧
  (∀ s m, portOn s.hub = true → s.hub.regs.cmdWrote.contains (0, 0x38) = false → ∃ t, exec (.hubIrqstatClear m) s = .next t ∧
    t.hub = { s.hub.clean with regs := { (noted 0 0x38 (m.setWidth 64) s.hub).regs with irqstat := s.hub.regs.irqstat &&& ~~~(m &&& ~~~s.hub.regs.irqFresh) } }) ∧
  (∀ s ch b x, portOn s.hub = true → s.hub.regs.cmdWrote.contains (1, 0x1000 * ch.toNat + 0x18) = false → s.hub.cmd.chans[ch.toNat]? = some x → x.event &&& 3 = 0 → ∃ t, exec (.cmdEventClear ch b) s = .next t ∧
    t.hub.cmd.chans[ch.toNat]? = some { x with event := x.event &&& ~~~(b &&& ~~~x.fresh) } ∧ (∀ i, i ≠ ch.toNat → t.hub.cmd.chans[i]? = s.hub.cmd.chans[i]?) ∧
    t.hub.cmd.seqs = s.hub.cmd.seqs) ∧
  (∀ s ch b x, portOn s.hub = true → s.hub.regs.cmdWrote.contains (1, 0x1000 * ch.toNat + 0x18) = false → s.hub.cmd.chans[ch.toNat]? = some x → x.event &&& 3 ≠ 0 →
    x.event &&& ~~~(b &&& ~~~x.fresh) &&& 3 = 0 → x.waiting = [] → ∃ t,
    exec (.cmdEventClear ch b) s = .next t ∧ t.hub.cmd.chans[ch.toNat]? = some { x with event := x.event &&& ~~~(b &&& ~~~x.fresh), rbuf := none } ∧
    ∀ i, i ≠ ch.toNat → t.hub.cmd.chans[i]? = s.hub.cmd.chans[i]?) ∧
  (∀ s a, portOn s.hub = true → a.toNat % 8 = 0 → a.toNat ≠ 0x8008 → ∃ t, exec (.halfHoldRead a) s = .next t ∧
    ∃ v, v = readWindow s.env { s.hub.clean with regs := { s.hub.regs with half := none } } a.toNat ∧
      t.hub = { s.hub.clean with regs := { s.hub.regs with half := some (a, (v >>> 32).setWidth 32), lastRead := v &&& 0xFFFFFFFF } }) ∧
  (∀ s a b w, portOn s.hub = true → a.toNat % 8 = 4 → s.hub.regs.half = some (b, w) → b.toNat + 4 = a.toNat → ∃ t, exec (.halfHoldRead a) s = .next t ∧
    t.hub = { s.hub.clean with regs := { s.hub.regs with half := none, lastRead := w.setWidth 64 } }) ∧
  (∀ s ch v, portOn s.hub = true → s.hub.regs.cmdWrote.contains (11, 8 + 8 * ch.toNat) = false → s.hub.prot.locked = true →
    (∀ p, p ≠ .high → ∃ t, exec (.protChWrite ch p v) s = .next t ∧ t.hub.prot = { s.hub.prot with bwLocked := s.hub.prot.bwLocked + 1 }) ∧
    ∃ t, exec (.protChWrite ch .high v) s = .next t ∧ t.hub = noted 11 (8 + 8 * ch.toNat) v s.hub) ∧
  (∀ s ch v, portOn s.hub = true → s.hub.regs.cmdWrote.contains (11, 8 + 8 * ch.toNat) = false → s.hub.prot.locked = false →
    (bitsOf v.toNat 2 1 ≠ 0 → (bitsOf v.toNat 2 1 = 3 → s.env.debugDis = false) → ∃ t, exec (.protChWrite ch .whole v) s = .next t ∧
      t.hub.prot = { s.hub.prot with ch := setAt s.hub.prot.ch ch.toNat (BitVec.ofNat 64 (protBits v.toNat)) }) ∧
    (bitsOf v.toNat 2 1 = 0 → ∃ t, exec (.protChWrite ch .whole v) s = .next t ∧ t.hub.prot =
      { s.hub.prot with ch := setAt s.hub.prot.ch ch.toNat (BitVec.ofNat 64 (protBits v.toNat / 2 * 2)), refused := s.hub.prot.refused + 1 })) ∧
  (∀ s p v, portOn s.hub = true → s.hub.regs.cmdWrote.contains (32, 0x38) = false → ∃ t, exec (.resDbgSWrite false p v) s = .next t ∧ t.hub.res = s.hub.res ∧ t.hub.prot.ignored = s.hub.prot.ignored + 1) ∧
  (∀ s v, portOn s.hub = true → s.env.tray = false → v.getLsbD 63 = false → (∀ w ∈ s.hub.regs.portWrote, ¬(w.1 = 32 ∧ w.2.1 = 0x38)) → ∃ t, exec (.resDbgSWrite true .whole v) s = .next t ∧
    t.hub = { s.hub.clean with res := { s.hub.res with dbgS := v &&& 0x9FFFFFFFFFFFFFFF }, regs := { s.hub.regs with cmdWrote := (32, 0x38) :: s.hub.regs.cmdWrote } }) ∧
  (∀ s v, portOn s.hub = true → s.hub.regs.cmdWrote.contains (0, 0x40) = true → ∃ t, exec (.registerWrite 0x40 3 v) s = .next t ∧
    t.hub.regs.irqen = s.hub.regs.irqen ∧ t.hub.regs.portWrote = s.hub.regs.portWrote) ∧
  (∀ s ch len x code order cseq target ws d, portOn s.hub = true → s.hub.regs.cmdWrote.contains (1, 0x1000 * ch.toNat + 8) = false → chanOn s.hub ch.toNat = true → s.hub.cmd.chans[ch.toNat]? = some x → x.submitted = none →
    parsePacket (cbufBytes x len.toNat) = .good code order cseq target ws → opIn opcodes code ws = some d → ∃ t, exec (.cmdDoorbell ch len) s = .next t ∧
      t = s.settle (runCmd d s.env { req := .channel ch, order := order, cseq := cseq, target := target, params := ws } (noted 1 (0x1000 * ch.toNat + 8) (len.setWidth 64) s.hub))) ∧
  (∀ s ch len x b, portOn s.hub = true → s.hub.regs.cmdWrote.contains (1, 0x1000 * ch.toNat + 8) = false → chanOn s.hub ch.toNat = true → s.hub.cmd.chans[ch.toNat]? = some x → x.submitted = some b → ∃ t,
    exec (.cmdDoorbell ch len) s = .next t ∧ t = s.settle (packetIn opcodes s.env (.channel ch) b { noted 1 (0x1000 * ch.toNat + 8) (len.setWidth 64) s.hub with
      cmd := { s.hub.cmd with chans := setAt s.hub.cmd.chans ch.toNat { x with event := x.event ||| 4, fresh := x.fresh ||| 4, submitted := none } } }))

/-- CELL_CFG, WATCH_SET and RULE_SET write the hub's copy, and the cell's at once when its region's clock runs; a stopped region's cell keeps
what it has, and the change waits with ACCEPTED. A new descriptor arms its rule and clears its flag; a new stream, format or mode ends the
watch window. CELL_FLAGS_CLEAR clears the flags written as one that were not raised in the same cycle. CNT_READ answers with the counters
of the last accepted snapshot, and CNT_SNAP asks for the cores of its mask. (R10, R47, R83, R84, R88, R91, R94, R97, R106, R107, R644) -/
def Obligations.CellCommands : Prop :=
  (∀ c s k x l b, passes opCellCfg c s = true → presentCore s.env s.hub (c.w 1) = some k → s.hub.regions[regionOf k]? = some x →
    (ctxOf c s).settings 2 cellSetting ((hubc s.hub k).sels, false) = .inr (l, b) →
    (x.stopped = false → b = false → ∃ t, exec (.cellCfg c) s = .next t ∧ Answered 0x20 0x0000 0 [] c s t ∧
      t.hub.hubc = Tab.put s.hub.hubc k { hubc s.hub k with sels := l } ∧ t.hub.cells = Tab.put s.hub.cells k { cell s.hub k with sels := l }) ∧
    (x.stopped = false → b = true → ∃ t, exec (.cellCfg c) s = .next t ∧ Answered 0x20 0x0000 0 [] c s t ∧ (cell t.hub k).cnt = {} ∧
      (cell t.hub k).flags = 0 ∧ (cell t.hub k).sels = l ∧ (cell t.hub k).watch = { set := (hubc s.hub k).watch } ∧ (hubc t.hub k).failed = false) ∧
    (x.stopped = true → ∃ t, exec (.cellCfg c) s = .next t ∧ Answered 0x20 0x0001 0 [] c s t ∧ t.hub.cells = s.hub.cells ∧
      t.hub.hubc = Tab.put s.hub.hubc k { hubc s.hub k with sels := l } ∧
      t.hub.regions = setAt s.hub.regions (regionOf k) { x with waitCfg := x.waitCfg ++ [(k, if b then .reset else .sels)] })) ∧
  (∀ c s k, passes opCntRead c s = true → c.params = [c.w 1] → presentCore s.env s.hub (c.w 1) = some k → ∃ t, exec (.cntRead c) s = .next t ∧
    Answered 0x21 0x0000 0 ([coreId s.env s.hub k, w32 (cellStatus s.env s.hub k)] ++ w64 (hubc s.hub k).snapTb ++
      cntWords ((hubc s.hub k).snap.map BitVec.toNat) ++ w64 (region s.hub (regionOf k)).stretched) c s t ∧ t.hub.cells = s.hub.cells) ∧
  (∀ c s, passes opCntRead c s = true → c.params = [] → ∃ t, exec (.cntRead c) s = .next t ∧
    Answered 0x21 0x0000 0 (cntDie s.env s.hub) c s t ∧ t.hub.cells = s.hub.cells) ∧
  (∀ c s x, passes opCntSnap c s = true → (maskCores (c.n 1) (c.params.drop 1)).all s.env.present = true → s.hub.regions[c.n 1]? = some x →
    x.collect ≠ [] → maskCores (c.n 1) (c.params.drop 1) ≠ [] → ∃ t, exec (.cntSnap c) s = .next t ∧ Answered 0x22 (if x.stopped then 0x0001 else 0x0000) 0 [] c s t ∧
      t.hub.regions = setAt s.hub.regions (c.n 1) { x with partialReq := x.partialReq ++ [(((List.range 256).map (fun i => c.n 1 * 256 + i)).filter
        (maskCores (c.n 1) (c.params.drop 1)).contains).take 32] }) ∧
  (∀ c s k x w, passes opWatchSet c s = true → presentCore s.env s.hub (c.w 1) = some k → s.hub.regions[regionOf k]? = some x → x.stopped = false →
    (ctxOf c s).settings 2 watchSetting (hubc s.hub k).watch = .inr w → ∃ t, exec (.watchSet c) s = .next t ∧ Answered 0x23 0x0000 0 [] c s t ∧
      (hubc t.hub k).watch = w ∧ (cell t.hub k).watch.set = w ∧
      ((cell s.hub k).watch.set.mode ≠ w.mode → (cell t.hub k).watch.win = {} ∧ (cell t.hub k).watch.ignore = 16)) ∧
  (∀ c s k x, passes opRuleSet c s = true → presentCore s.env s.hub (c.w 1) = some k → s.hub.regions[regionOf k]? = some x → x.stopped = false →
    (hubc s.hub k).rules.length = 8 → (cell s.hub k).rules.length = 8 → c.n 2 ≤ 7 → ∃ t, exec (.ruleSet c) s = .next t ∧ Answered 0x24 0x0000 0 [] c s t ∧
      (cell t.hub k).flags = (cell s.hub k).flags &&& ~~~(BitVec.ofNat 8 (2 ^ c.n 2) &&& ~~~(cell s.hub k).fresh) ∧ (cell t.hub k).cnt = (cell s.hub k).cnt ∧
      ruleAt (cell t.hub k) (c.n 2) = Rule.arm { w0 := BitVec.ofNat 64 (c.d 3), w1 := BitVec.ofNat 64 (c.d 5) } (cell s.hub k).cnt) ∧
  (∀ s (k : BitVec 11) b x, portOn s.hub = true → s.hub.regs.cmdWrote.contains (16, 64 * k.toNat + 8) = false → s.env.present k.toNat = true → s.hub.regions[regionOf k.toNat]? = some x → x.stopped = false →
    ∃ t, exec (.cellFlagsClear k b) s = .next t ∧ (cell t.hub k.toNat).flags = (cell s.hub k.toNat).flags &&& ~~~(b &&& ~~~(cell s.hub k.toNat).fresh) ∧
      (cell t.hub k.toNat).cnt = (cell s.hub k.toNat).cnt)

/-- A host cycle adds one to the elapsed counter and to exactly one of busy, idle and the stall counter of its reason, an unknown state
counting as stall reason 15; the sum of busy, idle and stalls moves with elapsed. It is the region's last edge, and takes DROWSE back to
SERVING. (R64, R75, R77, R78, R292, R599) -/
def Obligations.HostCycle : Prop :=
  (∀ s (k : BitVec 11) st reason ev pt x, cellRuns s.env s.hub k.toNat = true → s.hub.regions[regionOf k.toNat]? = some x →
    (cell s.hub k.toNat).cnt.stalls.length = 16 → ∃ t, exec (.hostCycle k st reason ev pt) s = .next t ∧
      (cell t.hub k.toNat).cnt.elapsed = (cell s.hub k.toNat).cnt.elapsed + 1 ∧
      (st = 1 → (cell t.hub k.toNat).cnt.busy = (cell s.hub k.toNat).cnt.busy + 1 ∧ (cell t.hub k.toNat).cnt.idle = (cell s.hub k.toNat).cnt.idle ∧
        (cell t.hub k.toNat).cnt.stalls = (cell s.hub k.toNat).cnt.stalls) ∧
      (st = 0 → (cell t.hub k.toNat).cnt.busy = (cell s.hub k.toNat).cnt.busy ∧ (cell t.hub k.toNat).cnt.idle = (cell s.hub k.toNat).cnt.idle + 1 ∧
        (cell t.hub k.toNat).cnt.stalls = (cell s.hub k.toNat).cnt.stalls) ∧
      (st = 2 ∨ st = 3 → (cell t.hub k.toNat).cnt.busy = (cell s.hub k.toNat).cnt.busy ∧ (cell t.hub k.toNat).cnt.idle = (cell s.hub k.toNat).cnt.idle ∧
        ∀ i v, (cell s.hub k.toNat).cnt.stalls[i]? = some v →
          (cell t.hub k.toNat).cnt.stalls[i]? = some (if i = (if st = 3 then 15 else reason.toNat) then v + 1 else v)) ∧
      (region t.hub (regionOf k.toNat)).lastEdge = nowNs s.hub ∧ (region t.hub (regionOf k.toNat)).edges = true ∧
      (s.hub.sys.st = .drowse → s.hub.sys.orderly = none → t.hub.sys.st = .serving)) ∧
  (∀ (k : Counters) st (reason : BitVec 4), k.stalls.length = 16 → (k.account st reason).busy + (k.account st reason).idle + (k.account st reason).stalls.sum -
    (k.account st reason).elapsed = k.busy + k.idle + k.stalls.sum - k.elapsed)

/-- A region reset clears its cells' counters and flags and steps its epoch, and the rewrite gives them their configuration again. A window's
end evaluates its rule: the condition held long enough sets the flag, and a stop in the window suspends it. A watch element enters the
window, its end completes a result, the third is discarded and counted, a drained one leaves. A stop and a resume set the region's times
and a waiting change takes effect. A good snapshot replaces the hub's, a bad one and a missed turn count towards FAILED. (R47, R65, R66,
R67, R81, R85, R87, R94, R96, R100, R102, R103) -/
def Obligations.CellEvents : Prop :=
  (∀ s (r : RegionNo) x, s.env.tray = false → portOn s.hub = true → s.hub.regions[r.toNat]? = some x → ∃ t, exec (.hostRegionReset r) s = .next t ∧
    t.hub.regions = setAt s.hub.regions r.toNat { x with epoch := x.epoch + 1, rewrite := true } ∧
    ∀ c, s.env.present c = true → regionOf c = r.toNat → (cell t.hub c).cnt = {} ∧ (cell t.hub c).flags = 0 ∧ (cell t.hub c).armed = false) ∧
  (∀ s (r : RegionNo) x, alive s.hub = true → s.hub.regions[r.toNat]? = some x → x.rewrite = true → x.stopped = false → ∃ t,
    exec (.cellConfigRewrite r) s = .next t ∧ t.hub.regions = setAt s.hub.regions r.toNat { x with rewrite := false } ∧
    ∀ c, s.env.present c = true → regionOf c = r.toNat → (cell t.hub c).sels = (hubc s.hub c).sels ∧ (cell t.hub c).watch.set = (hubc s.hub c).watch ∧
      (cell t.hub c).armed = true) ∧
  (∀ s (k : BitVec 11), cellRuns s.env s.hub k.toNat = true → (cell s.hub k.toNat).hold ≠ 0 → 256 ≤ (cell s.hub k.toNat).holdAge → ∃ t,
    exec (.holdGraceExpiry k) s = .next t ∧ t.hub.cells = Tab.put s.hub.cells k.toNat { cell s.hub k.toNat with graceOver := true }) ∧
  (∀ s (k : BitVec 11) (i : BitVec 3) r t0, cellRuns s.env s.hub k.toNat = true → serving s.hub = true → (cell s.hub k.toNat).armed = true →
    (cell s.hub k.toNat).rules[i.toNat]? = some r → r.en = true → r.kind ≠ 0 → r.start = some t0 → t0 + r.window ≤ nowNs s.hub →
    ∃ t, exec (.sporeWindowEval k i) s = .next t ∧
      (ruleAt (cell t.hub k.toNat) i.toNat).start = some (nowNs s.hub / r.window * r.window) ∧
      (windowStopped (region s.hub (regionOf k.toNat)) t0 r.window = true → (cell t.hub k.toNat).flags = (cell s.hub k.toNat).flags) ∧
      (windowStopped (region s.hub (regionOf k.toNat)) t0 r.window = false → r.holds (cell s.hub k.toNat).cnt = true →
        (cell s.hub k.toNat).flags.getLsbD i.toNat = false → r.holdN ≤ r.run + 1 → (cell t.hub k.toNat).flags = (cell s.hub k.toNat).flags ||| BitVec.ofNat 8 (2 ^ i.toNat))) ∧
  (∀ s (k : BitVec 11) wd last w n, cellRuns s.env s.hub k.toNat = true → serving s.hub = true → (cell s.hub k.toNat).watch = w → w.set.mode ≠ 0 → w.ignore = 0 →
    watchStep s.hub w.set wd w.win = n → n.count < 2 ^ 28 →
    (last = false → w.set.window ≠ n.count → ∃ t, exec (.watchElement k wd last) s = .next t ∧ (cell t.hub k.toNat).watch = { w with win := n }) ∧
    (last = true → w.results.length < 2 → ∃ t, exec (.watchElement k wd last) s = .next t ∧
      (cell t.hub k.toNat).watch = { w with win := {}, results := w.results ++ [{ (watchClose w.set n) with forced := false }] }) ∧
    (last = true → 2 ≤ w.results.length → ∃ t, exec (.watchElement k wd last) s = .next t ∧ (cell t.hub k.toNat).watch = { w with win := {}, lost := w.lost + 1 })) ∧
  (∀ s (k : BitVec 11) x a l, cellRuns s.env s.hub k.toNat = true → s.hub.regions[regionOf k.toNat]? = some x → (cell s.hub k.toNat).watch.results = a :: l → ∃ t,
    exec (.watchResultDrain k) s = .next t ∧ (cell t.hub k.toNat).watch.results = l ∧ (cell t.hub k.toNat).watch.lost = 0 ∧
    t.hub.regions = setAt s.hub.regions (regionOf k.toNat) { x with watchq := x.watchq ++ [(k.toNat, { a with lost := (cell s.hub k.toNat).watch.lost })] }) ∧
  (∀ s (r : RegionNo) n x, s.env.tray = false → upState s.hub = true → s.hub.regions[r.toNat]? = some x → ∃ t, exec (.clockMonitorInterval r n) s = .next t ∧
    (∃ w, region t.hub r.toNat = { x with
      waitCfg := w, stretched := x.stretched + (getAt s.hub.time.mhz r.toNat 1600 - n.toNat), stretchPeriod := x.stretchPeriod + (getAt s.hub.time.mhz r.toNat 1600 - n.toNat),
      count := n.toNat, edges := x.edges || decide (n ≠ 0)
      lastEdge := if n = 0 ∨ nowNs s.hub < x.lastEdge + 1000 then x.lastEdge else nowNs s.hub - Config.lastEdge r.toNat (nowNs s.hub) % 1000 }) ∧
    ∀ q, q ≠ r.toNat → ∃ w, region t.hub q = { region s.hub q with waitCfg := w }) ∧
  (∀ s (r : RegionNo) x, s.env.tray = false → upState s.hub = true → s.hub.regions[r.toNat]? = some x → x.stopped = false → x.lastEdge + s.hub.time.stopThr ≤ nowNs s.hub →
    s.env.beaten (evEdge r.toNat) (x.lastEdge + s.hub.time.stopThr) (nowNs s.hub) = false → ∃ t,
    exec (.regionStopDetect r) s = .next t ∧ (∃ w, region t.hub r.toNat = { x with waitCfg := w, stopped := true, stopTb := x.lastEdge, stopSeen := true }) ∧
    ∀ q, q ≠ r.toNat → ∃ w, region t.hub q = { region s.hub q with waitCfg := w }) ∧
  (∀ s (r : RegionNo) x k, s.env.tray = false → s.hub.sys.st = .playa → s.hub.regions[r.toNat]? = some x → x.stopped = true → x.partialReq = [] →
    (x.waitCfg = [] ∨ x.waitCfg = [(k, .sels)]) → ∃ t,
    exec (.regionResume r) s = .next t ∧ t.hub.regions = setAt s.hub.regions r.toNat { x with stopped := false, resumeTb := nowNs s.hub, echoWait := true, lastEdge := nowNs s.hub, edges := true, stopSeen := true,
                                                                                               stoppedNs := x.stoppedNs + (nowNs s.hub - x.stopTb), waitCfg := [] } ∧
    (x.waitCfg = [(k, .sels)] → (cell t.hub k).sels = (hubc s.hub k).sels)) ∧
  (∀ s (k : BitVec 11) l x, cellRuns s.env s.hub k.toNat = true → s.hub.regions[regionOf k.toNat]? = some x → x.collect = k.toNat :: l →
    (∃ t, exec (.snapshotTransfer k false false) s = .next t ∧ ((hubc s.hub k.toNat).lostOut = [] → (hubc t.hub k.toNat).snap = (cell s.hub k.toNat).shadow ∧
      (hubc t.hub k.toNat).snapTb = nowNs s.hub ∧ (hubc t.hub k.toNat).based = true) ∧ (l ≠ [] → (region t.hub (regionOf k.toNat)).collect = l)) ∧
    (∃ t, exec (.snapshotTransfer k true false) s = .next t ∧ (hubc t.hub k.toNat).snap = (hubc s.hub k.toNat).snap ∧
      (hubc t.hub k.toNat).badRun = (hubc s.hub k.toNat).badRun + 1 ∧ ((hubc s.hub k.toNat).badRun = 2 → (hubc t.hub k.toNat).failed = true)) ∧
    (x.turn = 16 → ∃ t, exec (.cellTurnTimeout k) s = .next t ∧ (hubc t.hub k.toNat).snap = (hubc s.hub k.toNat).snap ∧
      (hubc t.hub k.toNat).skips = (hubc s.hub k.toNat).skips + 1 ∧ ((hubc s.hub k.toNat).skips = 2 → (hubc t.hub k.toNat).failed = true))) ∧
  (∀ s (r : RegionNo) x, s.env.tray = false → serving s.hub = true → s.hub.regions[r.toNat]? = some x → x.stopped = false → x.echoWait = false → x.pending ≠ 0 → ∃ t,
    exec (.pendingFlagTransfer r) s = .next t ∧ t.hub.regions = setAt s.hub.regions r.toNat { x with pending := 0, answered := true } ∧
    ∀ i, i < 256 → x.pending.getLsbD i = true → (hubc t.hub (r.toNat * 256 + i)).spore = true)

/-- RES_CFG, AUDIT_RATE and AUDIT_READ act on the named core or die. A legal START beat takes the word at the FIFO head into a new tile, a
PAIR beat adds the product of its elements to the tile's lane sum, and the END beat compares it with the value sent: a difference is
queued as RES_MISMATCH, and the result is due on TAP_RV six cycles later. A beat out of order is a protocol outcome, a SKIP counts an
unverified tile, an expired tile ends in RES_TAP_TIMEOUT, and a refill appends the word drawn. (R114, R119, R121, R126, R127, R128, R129,
R133, R150, R155, R157) -/
def Obligations.ResidueCommands : Prop :=
  (∀ c s k a x, passes opResCfg c s = true → kindOf (c.w 1) = 0 → presentCore s.env s.hub (c.w 1) = some k → (ctxOf c s).settings 2 resCoreSetting { die := s.hub.res } = .inr a →
    s.hub.regions[regionOf k]? = some x →
    (x.stopped = false → ∃ t, exec (.resCfg c) s = .next t ∧ Answered 0x30 0x0000 0 [] c s t ∧ t.hub.hubc = Tab.put s.hub.hubc k { hubc s.hub k with
      bounded := a.bounded.getD (hubc s.hub k).bounded, required := a.required.getD (hubc s.hub k).required, uacc := a.uacc.getD (hubc s.hub k).uacc } ∧ t.hub.res = s.hub.res) ∧
    (x.stopped = true → regionOf k < 8 → ∃ t, exec (.resCfg c) s = .next t ∧ Answered 0x30 0x0001 0 [] c s t ∧ t.hub.hubc = s.hub.hubc ∧ t.hub.res = s.hub.res ∧
      t.hub.regions = setAt s.hub.regions (regionOf k) { x with waitCfg := x.waitCfg ++ [(k, .res a.bounded a.required a.uacc)] })) ∧
  (∀ c s a, passes opResCfg c s = true → kindOf (c.w 1) = 3 → c.w 1 = dieEnt s.env s.hub → (ctxOf c s).settings 2 resDieSetting { die := s.hub.res } = .inr a → a.cores = false →
    ∃ t, exec (.resCfg c) s = .next t ∧ Answered 0x30 0x0000 0 [] c s t ∧ t.hub.res = a.die ∧ t.hub.hubc = s.hub.hubc) ∧
  (∀ c s k, passes opAuditRate c s = true → presentCore s.env s.hub (c.w 1) = some k → ∃ t, exec (.auditRate c) s = .next t ∧ Answered 0x31 0x0000 0 [] c s t ∧
    t.hub.hubc = Tab.put s.hub.hubc k { hubc s.hub k with exponent := some (c.n 2), newVerdict := false }) ∧
  (∀ c s k, passes opAuditRead c s = true → presentCore s.env s.hub (c.w 1) = some k → ∃ t, exec (.auditRead c) s = .next t ∧
    Answered 0x32 0x0000 0 ([coreId s.env s.hub k, w32 ((auditExp s.env s.hub k).1 + (auditExp s.env s.hub k).2 * 256 + b2n (hubc s.hub k).required * 65536)] ++
      (hubc s.hub k).counts.flatMap w64) c s t ∧ t.hub.hubc = s.hub.hubc) ∧
  (∀ s (k : BitVec 11) d l w f, laneRuns s.env s.hub k.toNat = true → (cell s.hub k.toNat).lane = l → l.fifo = w :: f → l.tiles = [] →
    (newTileCheck s.hub k.toNat d true false = 0 → ∃ t, exec (.tapStart k d true) s = .next t ∧
      (cell t.hub k.toNat).lane = { l with fifo := f, pseq := l.pseq + 1, tiles := [beatTile s.hub k.toNat d (fixWord s.hub w)] } ∧ t.hub.res = s.hub.res) ∧
    (newTileCheck s.hub k.toNat d true true = 0 → ∃ t, exec (.tapSkip k d true) s = .next t ∧
      (cell t.hub k.toNat).lane = { l with fifo := f, pseq := l.pseq + 1 } ∧ t.hub.res = { s.hub.res with tileSkip := s.hub.res.tileSkip + 1 })) ∧
  (∀ s (k : BitVec 11) d x, laneRuns s.env s.hub k.toNat = true → (cell s.hub k.toNat).lane.tiles = [] → s.hub.regions[regionOf k.toNat]? = some x → x.outq.length < 64 →
    ∃ t, exec (.tapStart k d false) s = .next t ∧ (cell t.hub k.toNat).lane.tiles = [] ∧ ∃ y o, t.hub.regions[regionOf k.toNat]? = some y ∧ y.outq = x.outq ++ [o] ∧
      o.core = k.toNat ∧ o.res = 3 ∧ o.sub = 1) ∧
  (∀ s (k : BitVec 11) d l u, laneRuns s.env s.hub k.toNat = true → (cell s.hub k.toNat).lane = l → l.tiles = [u] → u.pairs < u.k → u.bounded = false → ∃ t,
    exec (.tapPair k d false) s = .next t ∧ ∃ v, (cell t.hub k.toNat).lane = { l with tiles := [v] } ∧ v.pairs = u.pairs + 1 ∧
      v.sum = fAdd u.sum (fMul (fld (beatBits d 121 61)) (fld (beatBits d 60 0)))) ∧
  (∀ s (k : BitVec 11) d l u x, laneRuns s.env s.hub k.toNat = true → (cell s.hub k.toNat).lane = l → l.tiles = [u] → u.bounded = false → u.word.audit = false → u.k ≤ u.pairs →
    beatBits d 122 80 = 0 → beatBits d 127 126 = 0 → beatBits d 63 61 = 0 → beatBits d 79 64 = u.tag.toNat → s.hub.regions[regionOf k.toNat]? = some x → x.outq.length < 64 →
    (fld (beatBits d 63 0) = u.sum → ∃ t, exec (.tapEnd k d false) s = .next t ∧ (cell t.hub k.toNat).lane =
      { l with tiles := [], due := l.due ++ [{ due := l.cycle + 6, res := 0, rtag := u.tag }] } ∧ t.hub.regions = s.hub.regions ∧
      t.hub.res = { s.hub.res with tiles := s.hub.res.tiles + 1 }) ∧
    (fld (beatBits d 63 0) ≠ u.sum → ∃ t, exec (.tapEnd k d false) s = .next t ∧ (cell t.hub k.toNat).lane =
      { l with tiles := [], due := l.due ++ [{ due := l.cycle + 6, res := 1, rtag := u.tag }] } ∧
      ∃ y o, t.hub.regions[regionOf k.toNat]? = some y ∧ y.outq = x.outq ++ [o] ∧ o.core = k.toNat ∧ o.res = 1 ∧ o.tile = some u)) ∧
  (∀ s (k : BitVec 11) l o q, laneRuns s.env s.hub k.toNat = true → (cell s.hub k.toNat).lane = l → l.due = o :: q → l.rv = false → o.due ≤ l.cycle → ∃ t,
    exec (.tapOutcomePresent k) s = .next t ∧ (cell t.hub k.toNat).lane = { l with due := q, rv := true, res := o.res, rtag := o.rtag }) ∧
  (∀ s (k : BitVec 11) l u x, laneRuns s.env s.hub k.toNat = true → (cell s.hub k.toNat).lane = l → l.tiles = [u] → tileExpired s.hub k.toNat u = true →
    s.env.beaten (evTapEnd k.toNat) (tileDue s.hub k.toNat u) (nowNs s.hub) = false →
    s.hub.regions[regionOf k.toNat]? = some x → x.outq.length < 64 → ∃ t, exec (.tapTimeout k) s = .next t ∧ (cell t.hub k.toNat).lane.tiles = [] ∧
      ∃ y o, t.hub.regions[regionOf k.toNat]? = some y ∧ y.outq = x.outq ++ [o] ∧ o.core = k.toNat ∧ o.res = 2 ∧ o.tile = some u) ∧
  (∀ s (k : BitVec 11) l b sel q i, laneRuns s.env s.hub k.toNat = true → servingInstance s.hub = some i → (cell s.hub k.toNat).lane = l → l.wants = true → Config.drbg s.hub.free = b →
    pointOk b = true → s.hub.res.selectors = sel :: q → selected sel (auditExp s.env s.hub k.toNat).1 = false → s.hub.res.dbgS.getLsbD 63 = false → ∃ t,
    exec (.pointFifoRefill k) s = .next t ∧ (cell t.hub k.toNat).lane = { l with filling := decide (l.fifo.length + 1 < 8), fifo := l.fifo ++
      [{ audit := false, s := BitVec.ofNat 61 (beatBits b 121 61), t := BitVec.ofNat 61 (beatBits b 60 0), u := 0, fixed := false }] } ∧
    t.hub.res = { s.hub.res with selectors := q, drbg := setAt s.hub.res.drbg i (if (getAt s.hub.res.drbg i (0, 0)).2 = 0 then ((getAt s.hub.res.drbg i (0, 0)).1 + 1, 4095)
      else ((getAt s.hub.res.drbg i (0, 0)).1, (getAt s.hub.res.drbg i (0, 0)).2 - 1)) })

/-- A reseed takes three draws and a failure stops its instance. The oldest entry of a region's queue crosses: a mismatch counts at the die
and its core, an audit request joins the queue. A free unit takes the next request, rereads a descriptor that was not valid, and its end
counts an audit and frees the unit; a request beyond the hold limit is skipped and counted. (R19, R118, R122, R134, R140, R141, R142,
R143, R149, R150, R151) -/
def Obligations.AuditEvents : Prop :=
  (∀ s i, s.env.tray = false → alive s.hub = true → s.hub.res.drbgOk.getLsbD i.toNat = true →
    (drbgSpent s.hub i.toNat = true → ∃ t, exec (.drbgReseed i) s = .next t ∧ t.hub.free = s.hub.free + 3 ∧
      t.hub.res = { s.hub.res with drbg := setAt s.hub.res.drbg i.toNat (0, 0) }) ∧
    (∃ t, exec (.drbgFailure i) s = .next t ∧ t.hub.res = { s.hub.res with drbgOk := s.hub.res.drbgOk &&& ~~~BitVec.ofNat 8 (2 ^ i.toNat) })) ∧
  (∀ s (r : RegionNo) x o l, s.env.tray = false → working s.hub = true → s.hub.regions[r.toNat]? = some x → x.stopped = false → x.echoWait = false → x.dropped = [] → x.outq = o :: l → o.audit = none →
    o.lateEnd = none → o.res = 1 →
    (o.tile.any (fun u => u.word.audit) = false → ∃ t, exec (.outcomeQueueTransfer r) s = .next t ∧ (∃ w, region t.hub r.toNat = { x with outq := l, waitCfg := w }) ∧
      t.hub.res = { s.hub.res with mismatch := s.hub.res.mismatch + 1 } ∧ (hubc t.hub o.core).outcome = (hubc s.hub o.core).outcome + 1) ∧
    (o.tile.any (fun u => u.word.audit) = true → ∃ t, exec (.outcomeQueueTransfer r) s = .next t ∧ region t.hub r.toNat = { x with outq := l } ∧
      t.hub.res = { s.hub.res with unclassed := s.hub.res.unclassed ++ [(o, probing s.hub o.core)] } ∧ (hubc t.hub o.core).outcome = (hubc s.hub o.core).outcome)) ∧
  (∀ s (r : RegionNo) x o l slot rd u, s.env.tray = false → working s.hub = true → s.hub.regions[r.toNat]? = some x → x.stopped = false → x.echoWait = false → x.dropped = [] → x.outq = o :: l →
    o.audit = some (slot, rd) → o.lateEnd = none → o.tile = some u → slotBusy s.hub o.core slot = false → s.hub.res.queue.length < 256 → ∃ t,
    exec (.outcomeQueueTransfer r) s = .next t ∧ ∃ q, t.hub.res = { s.hub.res with queue := s.hub.res.queue ++ [q] } ∧ q.core = o.core ∧ q.tile = u ∧ q.slot = slot ∧
      q.until_ = o.tb + s.hub.res.holdLimit) ∧
  (∀ s q u, s.env.tray = false → serving s.hub = true → auditNext s.hub.res.queue = some q → freeUnit s.hub = some u → nowNs s.hub < q.until_ → ∃ t,
    exec .auditStart s = .next t ∧ t.hub.res.queue = s.hub.res.queue.erase q ∧ ∃ v, Tab.find t.hub.res.units u = some v ∧ v.core = q.core ∧ v.tile = q.tile ∧
      v.valid = ((readDesc s.env s.hub q.core q.slot).map AuditDesc.isValid).getD false) ∧
  (∀ s (u : BitVec 5) q d, serving s.hub = true → Tab.find s.hub.res.units u.toNat = some q → q.again = some d → d ≤ nowNs s.hub → ∃ t,
    exec (.auditDescriptorReread u) s = .next t ∧ t.hub.res = { s.hub.res with units := Tab.put s.hub.res.units u.toNat { q with
      again := none, valid := ((readDesc s.env s.hub q.core q.slot).map AuditDesc.isValid).getD false } }) ∧
  (∀ s (u : BitVec 5) q, serving s.hub = true → Tab.find s.hub.res.units u.toNat = some q → q.again = none → clientBusy s.hub (fun c => c == .audit u.toNat) = false →
    auditTile s.env s.hub q (hubc s.hub q.core).uacc = some (.diffs []) →
    (s.hub.res.unclassed.find? (fun p => p.1.isOf q) = none → ∃ t, exec (.auditComplete u) s = .next t ∧
      t.hub.res = { s.hub.res with units := Tab.drop s.hub.res.units u.toNat, audits := s.hub.res.audits + 1 }) ∧
    (∀ p, s.hub.res.unclassed.find? (fun p => p.1.isOf q) = some p → ∃ t, exec (.auditComplete u) s = .next t ∧
      t.hub.res = { (resCount p.1.res.toNat 1 { s.hub.res with units := Tab.drop s.hub.res.units u.toNat, unclassed := s.hub.res.unclassed.erase p }) with
        audits := s.hub.res.audits + 1 })) ∧
  (∀ s (k : BitVec 11) (tag : BitVec 16) q, alive s.hub = true → s.hub.res.queue.find? (fun q => decide (q.core = k.toNat) && decide (q.tile.tag = tag) && decide (q.until_ ≤ nowNs s.hub)) = some q →
    s.env.beaten evAudit q.until_ (nowNs s.hub) = false → s.hub.res.unclassed.find? (fun p => p.1.isOf q) = none → ∃ t, exec (.auditHoldExpiry k tag) s = .next t ∧ t.hub.res = { s.hub.res with queue := s.hub.res.queue.erase q, audSkip := s.hub.res.audSkip + 1 })

/-- DIG_CFG puts its settings in force, DIG_READ answers with an entry or a seal, OPEN makes an epoch the newer one under the keys of the
seed, RELEASE lowers the older epoch's count and CHECKPOINT names one. DIG_COMPARE submits the retired epoch's included digests into a
compare buffer. An epoch held too long is marked overdue, an unanswered round is freed and counted as uncompared, and a scrub pass counts
a region without a reference and one that differs. (R180, R181, R182, R183, R190, R191, R195, R196, R197, R202, R203) -/
def Obligations.DigestCommands : Prop :=
  (∀ c s d, passes opDigCfg c s = true → (ctxOf c s).settings 2 digSetting (digBase s.hub (c.n 1)) = .inr d →
    (d.job ≠ s.hub.dig.cfg.job ∨ d.seed ≠ (digBase s.hub (c.n 1)).seed → ∃ t, exec (.digCfg c) s = .next t ∧ Answered 0x40 0x0000 0 [] c s t ∧
      t.hub.dig = { s.hub.dig with next := some d }) ∧
    (s.hub.dig.next = none → c.n 1 = s.hub.dig.cfg.job.toNat → d.job = s.hub.dig.cfg.job → d.seed = s.hub.dig.cfg.seed → ∃ t, exec (.digCfg c) s = .next t ∧
      Answered 0x40 0x0000 0 [] c s t ∧ t.hub.dig = { s.hub.dig with cfg := d, frozenRef := s.hub.dig.frozenRef.filter (fun q => keepsRefs s.hub.dig.cfg d (q.1 / 64)) })) ∧
  (∀ c s ep x, passes opDigRead c s = true → c.n 1 ≤ 1 → epochOf s.hub (c.w 4) = some ep → Tab.find (tableOf (decide (c.n 1 = 1)) ep) (c.n 2 * 64 + c.n 3) = some x → ∃ t,
    exec (.digRead c) s = .next t ∧ Answered 0x41 0x0000 0 (w64 x.d0.toNat ++ w64 x.d1.toNat ++ [w32 x.count, x.state.setWidth 32]) c s t ∧ t.hub.dig = s.hub.dig) ∧
  (∀ c s x, passes opDigRead c s = true → c.n 1 = 2 → Tab.find s.hub.dig.seals (c.n 2) = some x → ∃ t, exec (.digRead c) s = .next t ∧
    Answered 0x41 0x0000 0 [x.state.setWidth 32, w32 x.count] c s t) ∧
  (∀ c s, passes opDigOpen (withOp 0 c) s = true → s.hub.dig.newer = none → s.hub.dig.older = none → s.hub.dig.next = none → ∃ t, exec (.digEpochOpen c) s = .next t ∧
    t.hub.dig = { s.hub.dig with
      newer := some {
        num := (withOp 0 c).w 2, k0 := digKey s.hub.dig.cfg.seed s.hub.dig.cfg.job.toNat ((withOp 0 c).n 2) 0
        k1 := digKey s.hub.dig.cfg.seed s.hub.dig.cfg.job.toNat ((withOp 0 c).n 2) 1, ctx := false },
      retire := 0, heldSince := nowNs s.hub, overdue := false, opened := s.hub.dig.opened ++ [(withOp 0 c).w 2] } ∧
    t.hub.xs = { s.hub.xs with lanes := s.hub.xs.lanes.filter (fun p => decide (p.1 % 16 ≠ 0)), held0 := true }) ∧
  (∀ c s ep, passes opDigRelease (withOp 1 c) s = true → s.hub.dig.older = some ep → ep.num = (withOp 1 c).w 2 →
    (0 < (withOp 1 c).n 3 → (withOp 1 c).n 3 < s.hub.dig.retire → ∃ t, exec (.digEpochRelease c) s = .next t ∧ Answered 0x43 0x0000 0 [] c s t ∧
      t.hub.dig = { s.hub.dig with retire := s.hub.dig.retire - (withOp 1 c).n 3 }) ∧
    (s.hub.dig.retire < (withOp 1 c).n 3 → ∃ t, exec (.digEpochRelease c) s = .next t ∧ Answered 0x43 0x0103 3 [] c s t ∧ t.hub.dig = s.hub.dig)) ∧
  (∀ c s, passes opDigCheckpoint (withOp 2 c) s = true → (epochOf s.hub ((withOp 2 c).w 2)).isSome = true → ∃ t, exec (.digEpochCheckpoint c) s = .next t ∧
    Answered 0x43 0x0000 0 [] c s t ∧ t.hub.dig = { s.hub.dig with checkpoint := some ((withOp 2 c).w 2) }) ∧
  (∀ c s ep j, passes opDigCompare c s = true → s.hub.dig.older = some ep → (∀ y, s.hub.dig.newer = some y → y.num ≠ ep.num) → s.hub.dig.retire = 0 → jobOfDie s.hub (dieNo s.env s.hub) = some (BitVec.ofNat 16 (c.n 1)) →
    jobAt s.hub (BitVec.ofNat 16 (c.n 1)) = some j → s.hub.dig.buf0 = none → (s.hub.xs.rounds.filter (fun p => decide (p.1 / 2 ^ 26 = 0) && !p.2.done)).length < 16 →
    ep.ingress.filter (fun p => included s.hub ep.num.toNat (p.1 / 64)) ≠ [] → ∃ t, exec (.digCompare c) s = .next t ∧ Answered 0x42 0x0000 0 [] c s t ∧
      t.hub.dig = { s.hub.dig with
        older := some { ep with rounds := ep.rounds + 1 }
        buf0 := some { epoch := ep.num, no := ep.rounds, seq := BitVec.ofNat 16 (seqOfCompare ep.num.toNat), group := j.group.toNat, deadline := nowNs s.hub + s.hub.dig.cfg.cmpTimeout
                       pairs := ep.ingress.filter (fun p => included s.hub ep.num.toNat (p.1 / 64)) } }) ∧
  (∀ s ep, digRuns s.env s.hub = true → s.hub.dig.older = some ep → 0 < s.hub.dig.retire → s.hub.dig.overdue = false → s.hub.dig.heldSince + s.hub.dig.cfg.retireLimit < nowNs s.hub → ∃ t,
    exec .retireOverdue s = .next t ∧ t.hub.dig = { s.hub.dig with overdue := true }) ∧
  (∀ s b, digRuns s.env s.hub = true → s.hub.dig.buf0 = some b → b.deadline ≤ nowNs s.hub → s.env.beaten evResult b.deadline (nowNs s.hub) = false → ∃ t, exec (.compareTimeout false) s = .next t ∧
    t.hub.dig = { s.hub.dig with buf0 := none, uncmp := s.hub.dig.uncmp + 1 }) ∧
  (∀ s (i : Byte) r, digRuns s.env s.hub = true → s.hub.dig.cfg.frozen[i.toNat]? = some r → s.hub.dig.cfg.scrubRate ≠ 0 →
    (Tab.find s.hub.dig.frozenRef (pairKey r.layer r.slice) = none → ∃ t, exec (.frozenScrubPass i) s = .next t ∧ t.hub.dig = { s.hub.dig with scrubUnchecked := s.hub.dig.scrubUnchecked + 1 }) ∧
    (∀ f b v, Tab.find s.hub.dig.frozenRef (pairKey r.layer r.slice) = some f → readMem s.env s.hub r.addr r.len = some b →
      digList (laneKeys s.hub (frozenKeys s.hub)).1 (laneKeys s.hub (frozenKeys s.hub)).2.1 r.base (regionElems r.fmt.toNat b) (0, 0) = v →
      (v = (f.d0, f.d1) → ∃ t, exec (.frozenScrubPass i) s = .next t ∧ t.hub.dig = s.hub.dig) ∧
      (v ≠ (f.d0, f.d1) → ∃ t, exec (.frozenScrubPass i) s = .next t ∧ t.hub.dig = { s.hub.dig with odd := s.hub.dig.odd + 1 })))

/-- A write reaches a channel that the block does not own. ENABLE takes effect where both sizes are set and is refused where one is 0; STOP
marks a channel whose descriptor is in progress, RESUME brings a stopped or halted channel out of that state, REQ counts one request, TAIL
and CQHEAD take the value written, a write of ones clears bits of IRQSTAT and FAILED, but for those set in the same cycle. A command has
written none of these registers in the cycle. The engine then goes on as far as it can, which changes none of these. (R8, R518, R533,
R536, R541, R542, R543, R544, R545) -/
def Obligations.DmaRegisters : Prop :=
  (∀ s (ch : BitVec 6), portOn s.hub = true → (imgOf s.hub).blockCh ≤ ch.toNat →
    (∀ o ∈ [0, 0x18, 0x28], s.hub.regs.cmdWrote.contains (6, 0x1000 + 0x40 * ch.toNat + o) = false) →
    ((dmaCh s.hub ch.toNat).rsize ≠ 0 → (dmaCh s.hub ch.toNat).cqsize ≠ 0 → ∃ t, exec (.dmaChEnable ch true) s = .next t ∧ (dmaCh t.hub ch.toNat).enable = true) ∧
    ((dmaCh s.hub ch.toNat).rsize = 0 → ∃ t, exec (.dmaChEnable ch true) s = .next t ∧ t.hub.dma = s.hub.dma) ∧
    ((dmaCh s.hub ch.toNat).enable = true → ∃ t, exec (.dmaChEnable ch false) s = .next t ∧ (dmaCh t.hub ch.toNat).enable = false) ∧
    ((dmaCh s.hub ch.toNat).state ≠ 2 → (dmaCh s.hub ch.toNat).state ≠ 3 → dmaBusy (dmaCh s.hub ch.toNat) = true → ∃ t, exec (.dmaChStop ch) s = .next t ∧
      (dmaCh t.hub ch.toNat).stopReq = true ∧ (dmaCh t.hub ch.toNat).cur = (dmaCh s.hub ch.toNat).cur) ∧
    ((dmaCh s.hub ch.toNat).state = 2 ∨ (dmaCh s.hub ch.toNat).state = 3 → (dmaCh s.hub ch.toNat).stopReq = false → ∃ t, exec (.dmaChResume ch) s = .next t ∧
      (dmaCh t.hub ch.toNat).state ≠ 2 ∧ (dmaCh t.hub ch.toNat).state ≠ 3) ∧
    ((dmaCh s.hub ch.toNat).enable = true → (dmaCh s.hub ch.toNat).reqen = true → (dmaCh s.hub ch.toNat).pend < 65535 → ∃ t, exec (.dmaChReq ch) s = .next t ∧
      dmaCh t.hub ch.toNat = { dmaCh s.hub ch.toNat with pend := (dmaCh s.hub ch.toNat).pend + 1 }) ∧
    (∀ tail : BitVec 17, ahead 17 tail.toNat (dmaCh s.hub ch.toNat).head ≤ ringSize (dmaCh s.hub ch.toNat) → ∃ t, exec (.dmaChTailWrite ch tail) s = .next t ∧
      (dmaCh t.hub ch.toNat).tail = tail.toNat ∧ (dmaCh t.hub ch.toNat).head = (dmaCh s.hub ch.toNat).head) ∧
    (∀ tail : BitVec 17, ringSize (dmaCh s.hub ch.toNat) < ahead 17 tail.toNat (dmaCh s.hub ch.toNat).head → ∃ t, exec (.dmaChTailWrite ch tail) s = .next t ∧ t.hub.dma = s.hub.dma) ∧
    (∀ head : BitVec 17, ∃ t, exec (.dmaChCqheadWrite ch head) s = .next t ∧ (dmaCh t.hub ch.toNat).cqhead = head.toNat)) ∧
  (∀ s m, portOn s.hub = true → s.hub.regs.cmdWrote.contains (6, 0x108) = false → ∃ t, exec (.dmaMemFailedClear m) s = .next t ∧
    t.hub.mem.failed = s.hub.mem.failed &&& ~~~(m &&& ~~~s.hub.mem.failFresh)) ∧
  (∀ s m, portOn s.hub = true → s.hub.regs.cmdWrote.contains (6, 8) = false → ∃ t, exec (.dmaIrqstatClear m) s = .next t ∧
    t.hub.dma = { s.hub.dma with irqstat := s.hub.dma.irqstat &&& ~~~(m &&& ~~~s.hub.dma.irqFresh) })

/-- A burst starts on a pending request with a descriptor ready. A descriptor that has been read becomes the channel's own; one that is done
moves HEAD on, counts its bytes, and leaves the channel without a descriptor; one that could not be read halts the channel. An error
counts as one, a timeout as one, an acknowledged record raises its channel's interrupt and an acknowledged write lands. A safe point draws
new masks for a defeated range and begins its migration, each group moves the pointer on, the last one ends it, and a retry resumes it.
(R518, R530, R531, R532, R534, R536, R538, R539, R540, R544) -/
def Obligations.MemoryEvents : Prop :=
  (∀ s (ch : BitVec 6), dmaRuns s.hub = true → (dmaCh s.hub ch.toNat).enable = true → (dmaCh s.hub ch.toNat).reqen = true → (dmaCh s.hub ch.toNat).burst = false →
    0 < (dmaCh s.hub ch.toNat).pend → 0 < readyDescs (dmaCh s.hub ch.toNat) → (dmaCh s.hub ch.toNat).stopReq = false → (dmaCh s.hub ch.toNat).state ≠ 2 → (dmaCh s.hub ch.toNat).state ≠ 3 →
    dmaBusy (dmaCh s.hub ch.toNat) = false → ∃ t, exec (.dmaBurstStart ch) s = .next t ∧ (dmaCh t.hub ch.toNat).burst = true) ∧
  (∀ s (ch : BitVec 6) d, dmaRuns s.hub = true → (dmaCh s.hub ch.toNat).cur = some d → linesDone s.hub ch.toNat (dmaCh s.hub ch.toNat) = true → cqRoom (dmaCh s.hub ch.toNat) = true →
    d.align = false → d.len ≠ 0 → (dmaCh s.hub ch.toNat).fail = none → ∃ t, exec (.dmaDescriptorComplete ch) s = .next t ∧
      (dmaCh t.hub ch.toNat).head = ((dmaCh s.hub ch.toNat).head + 1) % 2 ^ 17 ∧ (dmaCh t.hub ch.toNat).descs = (dmaCh s.hub ch.toNat).descs + 1 ∧
      (dmaCh t.hub ch.toNat).moved = (dmaCh s.hub ch.toNat).moved + d.len ∧ (dmaCh t.hub ch.toNat).cur = none ∧
      (dmaCh t.hub ch.toNat).pend = (dmaCh s.hub ch.toNat).pend - b2n ((dmaCh s.hub ch.toNat).burst && !d.chain)) ∧
  (∀ s (ch : BitVec 6), dmaRuns s.hub = true → (dmaCh s.hub ch.toNat).fetchBad = true → cqRoom (dmaCh s.hub ch.toNat) = true → (dmaCh s.hub ch.toNat).stopReq = false → ∃ t,
    exec (.dmaDescriptorFetchFail ch) s = .next t ∧ (dmaCh t.hub ch.toNat).state = 3 ∧ (dmaCh t.hub ch.toNat).head = (dmaCh s.hub ch.toNat).head ∧ t.hub.dma.fetch = s.hub.dma.fetch + 1 ∧
      t.hub.dma.buserr = s.hub.dma.buserr + 1) ∧
  (∀ s (att : BitVec 5) (tag : Byte) q c, memOn s.hub = true → Tab.find s.hub.mem.out (reqAt att tag) = some q → q.write = false → q.timedOut = false →
    (q.client = .dmaFetch c → ∃ t, exec (.memoryReadResponse att tag false) s = .next t ∧ (dmaCh t.hub c).cur = some (descOf ((lineBytes s.env att.toNat q.line).drop (q.addr % 64)))) ∧
    (q.client = .dmaRead c 0 → ∃ t, exec (.memoryReadResponse att tag true) s = .next t ∧ t.hub.mem.rerr = s.hub.mem.rerr + 1)) ∧
  (∀ s (att : BitVec 5) (tag : Byte) q, s.wf = true → memOn s.hub = true → Tab.find s.hub.mem.out (reqAt att tag) = some q → q.write = true → q.timedOut = false →
    (∀ c, q.client = .dmaRecord c true → ∃ t, exec (.memoryWriteAck att tag false) s = .next t ∧ t.hub.dma.irqstat = s.hub.dma.irqstat ||| BitVec.ofNat 64 (2 ^ c)) ∧
    (∀ c, q.client = .dmaRecord c true → ∃ t, exec (.memoryWriteAck att tag true) s = .next t ∧ t.hub.dma.irqstat = s.hub.dma.irqstat ∧ t.hub.mem.berr = s.hub.mem.berr + 1) ∧
    (∀ c off b, q.client = .dmaWrite c off → q.data = [b] → s.hub.mem.waitq = [] → s.hub.mem.errq = [] → ∃ t, exec (.memoryWriteAck att tag false) s = .next t ∧
      t.mem.get Mem.ramByte (att.toNat * 2 ^ 40 + q.line * 64 + q.addr % 64) = b)) ∧
  (∀ s (att : BitVec 5) (tag : Byte) q, memOn s.hub = true → Tab.find s.hub.mem.out (reqAt att tag) = some q → q.timedOut = false → q.deadline ≤ nowNs s.hub →
    s.env.beaten (evMemory att tag) q.deadline (nowNs s.hub) = false → ∃ t,
    exec (.memoryTimeout att tag) s = .next t ∧ t.hub.mem.timeouts = s.hub.mem.timeouts + 1) ∧
  (∀ s (r : BitVec 3) m a, mapRange s.hub r.toNat = some m → m.wanted = some a → serving s.hub = true → s.hub.casc.windowTb = nowNs s.hub → s.hub.mem.migrating = none → m.r.block = true → ∃ t,
    exec (.rekeySafePoint r) s = .next t ∧ t.hub.mem.migrating = some r.toNat ∧ t.hub.free = s.hub.free + log2N m.r.n ∧
      mapRange t.hub r.toNat = some { m with old := some m.r.masks, r := { m.r with masks := drawMasks (log2N m.r.n) s.hub.free }, pointer := 0, migStart := nowNs s.hub, wanted := none, act := a }) ∧
  (∀ s r m o, s.hub.mem.migrating = some r → mapRange s.hub r = some m → m.old = some o → memOn s.hub = true → s.hub.mem.group = true → s.hub.mem.paused = none →
    clientBusy s.hub (fun c => c == .migration) = false → groupBusy s.hub r m = false →
    (m.pointer + 1 < groupsOf m → ∃ t, exec .migrationGroupDone s = .next t ∧ mapRange t.hub r = some { m with pointer := m.pointer + 1 } ∧ t.hub.mem.migrating = some r) ∧
    (groupsOf m ≤ m.pointer + 1 → ∃ t, exec .migrationGroupDone s = .next t ∧ mapRange t.hub r = some { m with pointer := 0, old := none, busy := [], lastRekey := some (nowNs s.hub), since := none } ∧
      t.hub.mem.migrating = none ∧ t.hub.mem.rekeys = s.hub.mem.rekeys + 1)) ∧
  (∀ s r m tb, s.hub.mem.migrating = some r → s.hub.mem.paused = some tb → alive s.hub = true → tb ≤ nowNs s.hub → mapRange s.hub r = some m → ∃ t,
    exec .migrationRetry s = .next t ∧ t.hub.mem.paused = none ∧ t.hub.mem.group = true)

/-- A shaper takes RATE and BURST in their ranges and is otherwise unchanged; a meter takes a value with CIR up to PIR and fills both buckets;
COMMIT queues a right admin list for the first cycle boundary after the one that runs. A segment takes the settings written: with ENABLE 0
it is DISABLED, and enabling a disabled one puts it DOWN and ignores its MII inputs for 10 ms. This is where no command has written the
register in the cycle. A die has no such registers and is unchanged. The pending list becomes the operational one at its time, and a
boundary puts the list at the entry that TB gives. (R417, R418, R419, R443, R444, R446, R447, R448, R450, R607, R608, R616) -/
def Obligations.ManagementRegisters : Prop :=
  (∀ s (c : BitVec 2) p v, portOn s.hub = true → s.env.tray = true → s.hub.regs.cmdWrote.contains (3, 0x40 + 8 * c.toNat) = false → s.hub.regs.cmdWrote.contains (3, 0x60 + 8 * c.toNat) = false →
    (bitsOf (mergePart p (getAt s.hub.mgt.shapers c.toNat 0) v &&& 0xFFFF00003FFF).toNat 13 0 ≤ 10000 → 64 ≤ bitsOf (mergePart p (getAt s.hub.mgt.shapers c.toNat 0) v &&& 0xFFFF00003FFF).toNat 47 32 →
      ∃ t, exec (.mgtShaperWrite c p v) s = .next t ∧ t.hub.mgt.shapers = setAt s.hub.mgt.shapers c.toNat (mergePart p (getAt s.hub.mgt.shapers c.toNat 0) v &&& 0xFFFF00003FFF)) ∧
    (10000 < bitsOf (mergePart p (getAt s.hub.mgt.shapers c.toNat 0) v &&& 0xFFFF00003FFF).toNat 13 0 → ∃ t, exec (.mgtShaperWrite c p v) s = .next t ∧ t.hub.mgt = s.hub.mgt) ∧
    (bitsOf (mergePart p (getAt s.hub.mgt.meters c.toNat {}).cfg v).toNat 15 0 ≤ bitsOf (mergePart p (getAt s.hub.mgt.meters c.toNat {}).cfg v).toNat 31 16 →
      64 ≤ bitsOf (mergePart p (getAt s.hub.mgt.meters c.toNat {}).cfg v).toNat 47 32 → 64 ≤ bitsOf (mergePart p (getAt s.hub.mgt.meters c.toNat {}).cfg v).toNat 63 48 →
      ∃ t, exec (.mgtMeterWrite c p v) s = .next t ∧ t.hub.mgt = { s.hub.mgt with meters := setAt s.hub.mgt.meters c.toNat {
        cfg := mergePart p (getAt s.hub.mgt.meters c.toNat {}).cfg v, c := bitsOf (mergePart p (getAt s.hub.mgt.meters c.toNat {}).cfg v).toNat 47 32 * 1024
        p := bitsOf (mergePart p (getAt s.hub.mgt.meters c.toNat {}).cfg v).toNat 63 48 * 1024, filled := nowNs s.hub } }) ∧
    (bitsOf (mergePart p (getAt s.hub.mgt.meters c.toNat {}).cfg v).toNat 31 16 < bitsOf (mergePart p (getAt s.hub.mgt.meters c.toNat {}).cfg v).toNat 15 0 →
      ∃ t, exec (.mgtMeterWrite c p v) s = .next t ∧ t.hub.mgt = s.hub.mgt)) ∧
  (∀ s c p v, portOn s.hub = true → s.env.tray = false → ∃ t, exec (.mgtMeterWrite c p v) s = .next t ∧ t.hub.mgt = s.hub.mgt) ∧
  (∀ s, portOn s.hub = true → s.env.tray = true → s.hub.regs.cmdWrote.contains (3, 0x20) = false →
    (adminOk s.hub.mgt = true → ∃ t, exec .mgtGclCommit s = .next t ∧ ∃ g, t.hub.mgt = { s.hub.mgt with
        pending := some (g, cycleAt s.hub.mgt.gclBase.toNat s.hub.mgt.gclCycle.toNat (operEnd s.hub.mgt.oper (nowNs s.hub))) } ∧
      g.base = s.hub.mgt.gclBase.toNat ∧ g.cycle = s.hub.mgt.gclCycle.toNat ∧ g.entries = (s.hub.mgt.gclE.take s.hub.mgt.gclCtrl.toNat).map (fun w => (w.extractLsb' 32 4, (w.extractLsb' 0 32).toNat))) ∧
    (adminOk s.hub.mgt = false → ∃ t, exec .mgtGclCommit s = .next t ∧ t.hub.mgt = s.hub.mgt)) ∧
  (∀ s b v, portOn s.hub = true → s.env.tray = true → s.hub.regs.cmdWrote.contains (3, if b then 0x10 else 8) = false →
    (segcfgOk .low (mergePart .low (seg s.hub b).cfg v &&& 0xFFFFFFFFFFFFF) = true → ∃ t, exec (.mgtSegcfgWrite b .low v) s = .next t ∧
      (seg t.hub b).cfg = mergePart .low (seg s.hub b).cfg v &&& 0xFFFFFFFFFFFFF ∧ (seg t.hub b).state = (seg s.hub b).state) ∧
    (segcfgOk .whole (v &&& 0xFFFFFFFFFFFFF) = true → (v &&& 0xFFFFFFFFFFFFF).getLsbD 51 = false → ∃ t, exec (.mgtSegcfgWrite b .whole v) s = .next t ∧
      (seg t.hub b).cfg = v &&& 0xFFFFFFFFFFFFF ∧ (seg t.hub b).state = 0) ∧
    (segcfgOk .whole (v &&& 0xFFFFFFFFFFFFF) = true → (v &&& 0xFFFFFFFFFFFFF).getLsbD 51 = true → (seg s.hub b).state = 0 → ∃ t, exec (.mgtSegcfgWrite b .whole v) s = .next t ∧
      (seg t.hub b).cfg = v &&& 0xFFFFFFFFFFFFF ∧ (seg t.hub b).state = 1 ∧ (seg t.hub b).holdoff = some (nowNs s.hub + 10000000)) ∧
    (segcfgOk .whole (v &&& 0xFFFFFFFFFFFFF) = false → ∃ t, exec (.mgtSegcfgWrite b .whole v) s = .next t ∧ t.hub.mgt = s.hub.mgt)) ∧
  (∀ s, mgtRuns s.env s.hub = true →
    (s.hub.mgt.oper.entries ≠ [] → ∃ t, exec .gateEntryBoundary s = .next t ∧ t.hub.mgt = { s.hub.mgt with gateIdx := gateEntry s.hub.mgt.oper (nowNs s.hub) }) ∧
    (∀ g tb, s.hub.mgt.pending = some (g, tb) → tb ≤ nowNs s.hub → ∃ t, exec .gclPendingActivate s = .next t ∧
      t.hub.mgt = { s.hub.mgt with oper := g, pending := none, gateIdx := gateEntry g (nowNs s.hub) }))

/-- A poll sets a segment's link status, a lost link or silence puts an UP segment DOWN, and one that is enabled, linked and heard goes UP and
begins to look for its address elsewhere. The preferred segment becomes active again after its time. A BEACON makes a follower use PLCA
and its absence ends that; collisions are counted, 16 on CSMA end the attempt. A solicitation is answered, an advertisement within the
second marks a conflict and puts the segment DOWN. The head frame of the lowest class that may go is offered, and its end is counted.
(R416, R417, R420, R421, R422, R423, R424, R429, R442) -/
def Obligations.ManagementSegments : Prop :=
  (∀ s b, mgtRuns s.env s.hub = true → segOn (seg s.hub b) = true →
    (∃ t, exec (.phyPoll b true) s = .next t ∧ seg t.hub b = { seg s.hub b with link := true }) ∧
    ((seg s.hub b).state = 2 → ∃ t, exec (.phyPoll b false) s = .next t ∧ (seg t.hub b).state = 1 ∧ (seg t.hub b).link = false)) ∧
  (∀ s b, mgtRuns s.env s.hub = true → segUp s.hub b = true → heard s.hub b = false → s.env.beaten (evFrame b) (silenceDue s.hub b) (nowNs s.hub) = false → ∃ t, exec (.segmentSilenceTimeout b) s = .next t ∧ (seg t.hub b).state = 1) ∧
  (∀ s b, mgtRuns s.env s.hub = true → (seg s.hub b).state = 1 → (seg s.hub b).link = true → heard s.hub b = true → (seg s.hub b).conflict = false → (seg s.hub b).holdoff = none → ∃ t,
    exec (.segmentUp b) s = .next t ∧ (seg t.hub b).state = 2 ∧ (seg t.hub b).upSince = nowNs s.hub ∧ (seg t.hub b).dad = some (nowNs s.hub + 1000000000)) ∧
  (∀ s b x, mgtRuns s.env s.hub = true → (seg s.hub b).holdoff = some x → x ≤ nowNs s.hub → ∃ t, exec (.segmentEnableHoldExpiry b) s = .next t ∧
    seg t.hub b = { seg s.hub b with holdoff := none }) ∧
  (∀ s, mgtRuns s.env s.hub = true → s.hub.mgt.portcfg.getLsbD 33 = true → s.hub.mgt.active ≠ preferred s.hub → segUp s.hub (preferred s.hub) = true →
    (seg s.hub (preferred s.hub)).upSince + 10000000000 ≤ nowNs s.hub → ∃ t, exec .failbackTimer s = .next t ∧ t.hub.mgt.active = preferred s.hub) ∧
  (∀ s b, mgtRuns s.env s.hub = true → segOn (seg s.hub b) = true → follower (seg s.hub b) = true →
    ((seg s.hub b).holdoff = none → ∃ t, exec (.plcaBeaconReceive b) s = .next t ∧ seg t.hub b = { seg s.hub b with lastBeacon := nowNs s.hub, plca := true }) ∧
    ((seg s.hub b).plca = true → (seg s.hub b).lastBeacon + 400000 ≤ nowNs s.hub → s.env.beaten (evBeacon b) ((seg s.hub b).lastBeacon + 400000) (nowNs s.hub) = false → ∃ t,
      exec (.plcaBeaconTimeout b) s = .next t ∧ seg t.hub b = { seg s.hub b with plca := false } ∧
      t.hub.mgt.beacon = s.hub.mgt.beacon + 1)) ∧
  (∀ s b, mgtRuns s.env s.hub = true → segOn (seg s.hub b) = true → (seg s.hub b).plca = true → ((seg s.hub b).collisions.filter (fun t => decide (nowNs s.hub < t + 1000000000))).length < 15 → ∃ t,
    exec (.plcaCollision b) s = .next t ∧ t.hub.mgt.plcacol = s.hub.mgt.plcacol + 1 ∧
      (seg t.hub b).collisions = (seg s.hub b).collisions.filter (fun t => decide (nowNs s.hub < t + 1000000000)) ++ [nowNs s.hub]) ∧
  (∀ s b c f l, mgtRuns s.env s.hub = true → (seg s.hub b).plca = false → (seg s.hub b).offered = some (c, f, l) →
    ((seg s.hub b).attempts < 15 → ∃ t, exec (.csmaCollision b) s = .next t ∧ seg t.hub b = { seg s.hub b with attempts := (seg s.hub b).attempts + 1 }) ∧
    (15 ≤ (seg s.hub b).attempts → c = 3 → ∃ t, exec (.csmaCollision b) s = .next t ∧ seg t.hub b = { seg s.hub b with attempts := 0, offered := none } ∧ t.hub.mgt.excess = s.hub.mgt.excess + 1)) ∧
  (∀ s b from_, mgtRuns s.env s.hub = true → segOn (seg s.hub b) = true → (seg s.hub b).holdoff = none → from_ ≠ 0 → (seg s.hub b).conflict = false → (seg s.hub b).dad = none → ∃ t,
    exec (.neighborSolicitationReceive b from_) s = .next t ∧ seg t.hub b = { seg s.hub b with sentFrames := (seg s.hub b).sentFrames + 1 }) ∧
  (∀ s b x, mgtRuns s.env s.hub = true → segOn (seg s.hub b) = true → (seg s.hub b).holdoff = none → (seg s.hub b).state = 2 → (seg s.hub b).dad = some x → nowNs s.hub ≤ x → ∃ t,
    exec (.neighborAdvertisementReceive b) s = .next t ∧ (seg t.hub b).conflict = true ∧ (seg t.hub b).state = 1 ∧ (seg t.hub b).dad = none) ∧
  (∀ s b x, mgtRuns s.env s.hub = true → (seg s.hub b).dad = some x → x ≤ nowNs s.hub → s.env.beaten (evNeighbour b) x (nowNs s.hub) = false → ∃ t, exec (.dadTimeout b) s = .next t ∧ seg t.hub b = { seg s.hub b with dad := none }) ∧
  (∀ s b f l, mgtRuns s.env s.hub = true → segUp s.hub b = true → (seg s.hub b).offered = none → getAt (seg s.hub b).queues 0 [] = f :: l →
    (offerOf s.hub (seg s.hub b) 0 f = .yes → ∃ t, exec (.egressFrameSelect b) s = .next t ∧ (seg t.hub b).offered = some (0, f, false) ∧ (seg t.hub b).attempts = 0 ∧
      (seg t.hub b).queues = setAt (seg s.hub b).queues 0 l)) ∧
  (∀ s b c f l, s.env.tray = true → portOn s.hub = true → (seg s.hub b).offered = some (c, f, l) → ∃ t, exec (.egressFrameDone b) s = .next t ∧ (seg t.hub b).offered = none ∧
    (seg t.hub b).attempts = 0 ∧ (seg t.hub b).sentFrames = (seg s.hub b).sentFrames + 1 ∧ (seg t.hub b).queues = (seg s.hub b).queues)

/-- A frame with a wrong check sequence is counted and discarded, a frame for someone else is a stranger, and one that passes the filter
unmetered is accepted into the ingress buffer while it has room. An Announce is held with its time and the best master not overdue is
selected; the loss of the master is counted. A Sync of the selected master is measured, one of another is not. A delay request is sent, is
answered with two frames, and the answer of the master's port gives the mean delay; another is counted. (R430, R437, R438, R439, R441,
R449, R451, R452, R453) -/
def Obligations.ManagementTraffic : Prop :=
  (∀ s b f, mgtRuns s.env s.hub = true → segOn (seg s.hub b) = true → (seg s.hub b).holdoff = none →
    (f.fcsOk = false → ∃ t, exec (.miiFrameReceive b f) s = .next t ∧ t.hub.mgt = { s.hub.mgt with fcs := s.hub.mgt.fcs + 1 }) ∧
    (classify s.hub.mgt f = .stranger → f.fcsOk = true → ∃ t, exec (.miiFrameReceive b f) s = .next t ∧ t.hub.mgt.stranger = s.hub.mgt.stranger + 1 ∧ t.hub.mgt.ingress = s.hub.mgt.ingress ∧
      (seg t.hub b).lastFrame = some (nowNs s.hub)) ∧
    (∀ c, classify s.hub.mgt f = .pass c → f.fcsOk = true → f.etherType ≠ 0x88F7 → s.hub.sys.st ≠ .config → bitsOf (getAt s.hub.mgt.meters c {}).cfg.toNat 31 16 = 0 →
      ingressFill s.hub.mgt + f.bytes ≤ 14336 → ∃ t, exec (.miiFrameReceive b f) s = .next t ∧ t.hub.mgt.accept = s.hub.mgt.accept + 1 ∧ t.hub.mgt.ingress = s.hub.mgt.ingress ++ [(b, f)] ∧
      t.hub.mgt.metered = s.hub.mgt.metered)) ∧
  (∀ s b (a : Announce), mgtRuns s.env s.hub = true → segUp s.hub b = true → 0 < a.interval → ∃ t, exec (.gptpAnnounceReceive b a) s = .next t ∧
    { seg := b, vector := a.vector, identity := a.identity, interval := a.interval, last := nowNs s.hub } ∈ t.hub.mgt.announces ∧
    t.hub.mgt.master = bestMaster s.hub.mgt.active t.hub.mgt.announces) ∧
  (∀ s m, mgtRuns s.env s.hub = true → s.hub.mgt.master = some m →
    (((s.hub.mgt.announces.find? (fun a => decide (a.identity = m.identity) && decide (a.seg = m.seg))).map Master.last).getD m.last) + 3 * m.interval ≤ nowNs s.hub →
    s.env.beaten evAnnounce ((((s.hub.mgt.announces.find? (fun a => decide (a.identity = m.identity) && decide (a.seg = m.seg))).map Master.last).getD m.last) + 3 * m.interval) (nowNs s.hub) = false → ∃ t,
    exec .gptpAnnounceTimeout s = .next t ∧ t.hub.mgt.annto = s.hub.mgt.annto + 1 ∧ t.hub.mgt.master = bestMaster s.hub.mgt.active t.hub.mgt.announces) ∧
  (∀ s b i o c n, mgtRuns s.env s.hub = true → segUp s.hub b = true →
    (isMaster s.hub b i = true → ∃ t, exec (.gptpSyncReceive b i o c n) s = .next t ∧
      t.hub.time = (syncMeasured s.env ((nowNs s.hub : Int) - (seg s.hub b).rxLat - (o.toInt + c.toInt + (seg s.hub b).delay))
        { takeIngress b isGptp s.hub.clean with time := { s.hub.time with syncInt := n } }).time) ∧
    (isMaster s.hub b i = false → ∃ t, exec (.gptpSyncReceive b i o c n) s = .next t ∧ t.hub.time = s.hub.time)) ∧
  (∀ s b, mgtRuns s.env s.hub = true → segUp s.hub b = true → (seg s.hub b).lastPd + s.hub.mgt.pdelayInt ≤ nowNs s.hub → ∃ t, exec (.gptpPdelayInterval b) s = .next t ∧
    seg t.hub b = { seg s.hub b with pdelayT1 := some (nowNs s.hub + (seg s.hub b).txLat), lastPd := nowNs s.hub, sentFrames := (seg s.hub b).sentFrames + 1 }) ∧
  (∀ s b i, mgtRuns s.env s.hub = true → segUp s.hub b = true → i ≠ 0 → ∃ t, exec (.gptpPdelayReqReceive b i) s = .next t ∧
    seg t.hub b = { seg s.hub b with sentFrames := (seg s.hub b).sentFrames + 2 }) ∧
  (∀ s b i (t2 t3 : DWord), mgtRuns s.env s.hub = true → segUp s.hub b = true →
    (∀ t1, isMaster s.hub b i = true → (seg s.hub b).pdelayT1 = some t1 → ∃ t, exec (.gptpPdelayRespReceive b i t2 t3) s = .next t ∧ seg t.hub b = { seg s.hub b with
      pdelayT1 := none, delay := (((nowNs s.hub : Int) - (seg s.hub b).rxLat - t1) - ((t3.toNat : Int) - t2.toNat)) / 2 }) ∧
    (isMaster s.hub b i = false → ∃ t, exec (.gptpPdelayRespReceive b i t2 t3) s = .next t ∧ t.hub.mgt.pdelayBad = s.hub.mgt.pdelayBad + 1 ∧ seg t.hub b = seg s.hub b))

/-- TRC_CFG's settings take effect at the next block boundary, at once when no block is in progress, or with a new capture; a core that is not
present is NOT_FOUND. NID_CFG writes its settings. ARM arms the trigger unless the buffer is frozen or a post-trigger run is on, DISARM
clears it, FIRE is trigger condition 0: it fires an armed trigger and otherwise counts as ignored. RELEASE discards a frozen buffer's
capture, DUMP writes the frozen erg's blocks to memory when they fit. (R484, R495, R498, R502, R511) -/
def Obligations.TraceCommands : Prop :=
  (∀ c s v, passes opTrcCfg c s = true → (ctxOf c s).settings 1 trcSetting (trcWanted s.hub) = .inr v →
    (v.cores.all s.env.present = false → ∃ t, exec (.trcCfg c) s = .next t ∧ Answered 0x90 stNotFound 0 [] c s t ∧ t.hub.trc = s.hub.trc) ∧
    (v.cores.all s.env.present = true → newCapture s.hub.trc.set v = false → s.hub.trc.cur ≠ [] → ∃ t, exec (.trcCfg c) s = .next t ∧ Answered 0x90 0x0000 0 [] c s t ∧
      t.hub.trc = { s.hub.trc with set := { s.hub.trc.set with seif := v.seif, flush := v.flush }, next := some v }) ∧
    (v.cores.all s.env.present = true → newCapture s.hub.trc.set v = false → s.hub.trc.cur = [] → ∃ t, exec (.trcCfg c) s = .next t ∧ t.hub.trc.set = v ∧ t.hub.trc.next = none) ∧
    (v.cores.all s.env.present = true → newCapture s.hub.trc.set v = true → ∃ t, exec (.trcCfg c) s = .next t ∧ t.hub.trc.set = v ∧ t.hub.trc.next = none ∧
      t.hub.trc.soff = 0 ∧ t.hub.trc.bseq = 0)) ∧
  (∀ c s v, passes opNidCfg c s = true → (ctxOf c s).settings 1 nidSetting s.hub.nid = .inr v → ∃ t, exec (.nidCfg c) s = .next t ∧ Answered 0x92 0x0000 0 [] c s t ∧
    t.hub.nid = v ∧ t.hub.trc = s.hub.trc) ∧
  (∀ c s, passes opTrigArm (withOp 0 c) s = true →
    ((sinkFrozen s.hub.trc || s.hub.trc.posting) = false → ∃ t, exec (.trcTrigArm c) s = .next t ∧ Answered 0x91 0x0000 0 [] c s t ∧ t.hub.trc = { s.hub.trc with armed := true }) ∧
    ((sinkFrozen s.hub.trc || s.hub.trc.posting) = true → ∃ t, exec (.trcTrigArm c) s = .next t ∧ Answered 0x91 stWrongState 0 [] c s t ∧ t.hub.trc = s.hub.trc)) ∧
  (∀ c s, passes opTrigDisarm (withOp 1 c) s = true → ∃ t, exec (.trcTrigDisarm c) s = .next t ∧ Answered 0x91 0x0000 0 [] c s t ∧ t.hub.trc = { s.hub.trc with armed := false }) ∧
  (∀ c s, passes opTrigFire (withOp 2 c) s = true → s.hub.sys.st = .serving ∨ s.hub.sys.st = .drowse → s.hub.trc.fired = false →
    (s.hub.trc.armed = true → s.hub.trc.posting = false → sinkFrozen s.hub.trc = false → ∃ t, exec (.trcTrigFire c) s = .next t ∧
      Answered 0x91 0x0000 0 [] c s t ∧ t.hub.trc.armed = false ∧ t.hub.trc.trigOut = s.hub.trc.trigOut + 1) ∧
    ((s.hub.trc.armed && !s.hub.trc.posting && !sinkFrozen s.hub.trc) = false → ∃ t, exec (.trcTrigFire c) s = .next t ∧
      Answered 0x91 0x0000 0 [] c s t ∧ t.hub.trc.trigOut = s.hub.trc.trigOut ∧ t.hub.trc.ignored = s.hub.trc.ignored + 1)) ∧
  (∀ c s, passes opTrigRelease (withOp 3 c) s = true →
    (s.hub.trc.erg.frozen = true → sinkFrozen s.hub.trc = true → s.hub.trc.sink = 3 → ∃ t, exec (.trcTrigRelease c) s = .next t ∧ t.hub.trc.erg = {} ∧ t.hub.trc.bseq = 0) ∧
    (sinkFrozen s.hub.trc = true → s.hub.trc.sink ≠ 3 → ∃ t, exec (.trcTrigRelease c) s = .next t ∧ t.hub.trc.mem = {} ∧ t.hub.trc.bseq = 0) ∧
    (s.hub.trc.erg.frozen = false → sinkFrozen s.hub.trc = false → ∃ t, exec (.trcTrigRelease c) s = .next t ∧ Answered 0x91 stWrongState 0 [] c s t ∧ t.hub.trc = s.hub.trc)) ∧
  (∀ c s bs, passes opTrigDump (withOp 4 c) s = true → s.hub.trc.erg.frozen = true → s.hub.trc.erg.blocks.flatMap Prod.snd = bs → bs.length ≤ (withOp 4 c).d 4 →
    writable s.hub ((withOp 4 c).d 2) bs.length = true → ∃ t, exec (.trcTrigDump c) s = .next t ∧ Answered 0x91 0x0000 0 (w64 bs.length) c s t ∧
      t.mem = s.memAfter ((withOp 4 c).d 2) bs ∧ t.hub.trc = s.hub.trc)

/-- A selected core's word enters its cell's buffer and up to eight words a region cross to the merger. The trigger input is condition 1: it
waits for the end of its cycle, or counts as ignored. A block ends when no packet fits or its flush interval has passed, and takes the
next BSEQ; a post-trigger run that is due ends the capture. The oldest block leaves its compressor, the next one reaches the sink of the
trace port or is lost while TRC_RDY is low, and a frame takes up to 2,048 bytes of the stream. A trace packet in order is accepted and
nothing more. (R95, R486, R499, R501, R502, R504, R506, R507, R510, R376) -/
def Obligations.TraceEvents : Prop :=
  (∀ s (k : BitVec 11) w, cellRuns s.env s.hub k.toNat = true → (cell s.hub k.toNat).trace.tsel = true →
    ((cell s.hub k.toNat).trace.buf.length < 64 → ∃ t, exec (.traceWord k w) s = .next t ∧ (cell t.hub k.toNat).trace = { (cell s.hub k.toNat).trace with
      buf := (cell s.hub k.toNat).trace.buf ++ [(w, (cell s.hub k.toNat).cnt.elapsed, nowNs s.hub, (cell s.hub k.toNat).trace.lost)], lost := 0 }) ∧
    (64 ≤ (cell s.hub k.toNat).trace.buf.length → ∃ t, exec (.traceWord k w) s = .next t ∧ (cell t.hub k.toNat).trace = { (cell s.hub k.toNat).trace with
      lost := (cell s.hub k.toNat).trace.lost + 1 })) ∧
  (∀ s (r : RegionNo) x, s.env.tray = false → working s.hub = true → s.hub.regions[r.toNat]? = some x → x.stopped = false → nextTraced s.hub r.toNat x.traceTurn = none → ∃ t,
    exec (.regionTraceTransfer r) s = .next t ∧ ∃ w, region t.hub r.toNat = { x with traceBuf := x.traceBuf.drop 8, waitCfg := w }) ∧
  (∀ s, s.hub.sys.st = .serving ∨ s.hub.sys.st = .drowse → s.hub.trc.set.cond.getLsbD 1 = true → s.hub.trc.fired = false →
    (s.hub.trc.armed = true → s.hub.trc.posting = false → sinkFrozen s.hub.trc = false → ∃ t, exec .trcTriginRise s = .next t ∧
      t.hub.trc = { s.hub.trc with conds := s.hub.trc.conds ++ [1] }) ∧
    ((s.hub.trc.armed && !s.hub.trc.posting && !sinkFrozen s.hub.trc) = false → ∃ t, exec .trcTriginRise s = .next t ∧
      t.hub.trc.trigOut = s.hub.trc.trigOut ∧ t.hub.trc.ignored = s.hub.trc.ignored + 1)) ∧
  (∀ s, alive s.hub = true → s.hub.trc.next = none →
    (65536 < s.hub.trc.cur.length + 4 → ∃ t, exec .traceBlockEnd s = .next t ∧ t.hub.trc.cur = [] ∧ t.hub.trc.bseq = s.hub.trc.bseq + 1 ∧ t.hub.trc.ready = s.hub.trc.ready ∧
      t.hub.trc.busy ++ t.hub.trc.fifo = s.hub.trc.busy ++ s.hub.trc.fifo ++
        [{ bseq := s.hub.trc.bseq, data := s.hub.trc.cur, trig := s.hub.trc.curTrig, fin := false, flush := false }]) ∧
    (s.hub.trc.cur ≠ [] → s.hub.trc.set.flush ≠ 0 → s.hub.trc.curTb + s.hub.trc.set.flush ≤ nowNs s.hub → ∃ t, exec .traceFlushInterval s = .next t ∧ t.hub.trc.cur = [] ∧
      t.hub.trc.bseq = s.hub.trc.bseq + 1 ∧ t.hub.trc.busy ++ t.hub.trc.fifo = s.hub.trc.busy ++ s.hub.trc.fifo ++
        [{ bseq := s.hub.trc.bseq, data := s.hub.trc.cur, trig := s.hub.trc.curTrig, fin := false, flush := true }])) ∧
  (∀ s, alive s.hub = true → s.hub.trc.posting = true → s.hub.trc.set.post ≤ s.hub.trc.posted → ∃ t, exec .postTriggerEnd s = .next t ∧ t.hub.trc.capturing = false ∧
    t.hub.trc.posting = false ∧ t.hub.trc.trigOut = s.hub.trc.trigOut) ∧
  (∀ s b l, alive s.hub = true → s.hub.trc.busy = b :: l → ∃ t, exec .compressDone s = .next t ∧ t.hub.nid.inB = s.hub.nid.inB + b.data.length ∧
    (t.hub.trc.lostSink = s.hub.trc.lostSink ∧ (∃ i, t.hub.trc.ready = s.hub.trc.ready ++ [{ b with image := some i }]) ∨
      t.hub.trc.lostSink = s.hub.trc.lostSink + 1 ∧ t.hub.trc.ready = s.hub.trc.ready)) ∧
  (∀ s b l, alive s.hub = true → s.hub.trc.ready = b :: l → s.hub.trc.sink = 1 →
    (s.hub.trc.rdy = true → ∃ t, exec .sinkBlockWrite s = .next t ∧ t.hub.trc = { s.hub.trc with
      ready := l, portq := s.hub.trc.portq ++ b.image.getD [], wptr := s.hub.trc.wptr + (b.image.getD []).length, sinkBlocks := s.hub.trc.sinkBlocks + 1 }) ∧
    (s.hub.trc.rdy = false → ∃ t, exec .sinkBlockWrite s = .next t ∧ t.hub.trc = { s.hub.trc with
      ready := l, lostSink := s.hub.trc.lostSink + 1, sinkDue := s.hub.trc.sinkDue + b.data.length })) ∧
  (∀ s, alive s.hub = true → s.hub.trc.rdy = true → s.hub.trc.portq ≠ [] → ∃ t, exec .tracePortFrame s = .next t ∧ t.hub.trc.portq = s.hub.trc.portq.drop 2048 ∧
    t.hub.trc.frames = s.hub.trc.frames + 1 ∧ t.hub.trc.fseq = s.hub.trc.fseq + 1 ∧
    t.hub.trc.lastFrame = frameBytes (nodeNo s.env s.hub) s.hub.trc.fseq (s.hub.trc.portq.take 2048)) ∧
  (∀ s p (port : BitVec 6), photenOk s.env s.hub 3 p port.toNat = true → ∃ t, exec (.photenTraceReceive p port) s = .next t ∧ t.hub.fab.accepted = s.hub.fab.accepted + 1 ∧
    t.hub.trc = s.hub.trc)

/-- A beat that finds room in its pipe's FIFO acts by its header's type. A CHUNK of an open epoch starts a delivery under the epoch's keys and
becomes the tap's chunk; one of an epoch never opened is counted and not digested. A data beat adds its elements to both digests of the
open delivery and moves the chunk's next index by their number. A SLICE_END closes the delivery; with the count it states, the delivery
waits as valid for its digest to be final. A SEAL header opens a seal under keys drawn for it, a RECALL digests under the keys of the seal
it names, and STASH_END makes the seal, or ends the recall and frees the seal. (R163, R168, R169, R171, R172, R173, R174, R176, R181,
R186, R187, R188) -/
def Obligations.DigestBeats : Prop :=
  (∀ s p d ep x, digRuns s.env s.hub = true → (fifoTick (nowNs s.hub) (pipe s.hub p)).fifo.length < 16 → digHdr d = x → x.rsvd = 0 → x.type = 0 → digFmtOk x.fmt = true →
    epochOpen s.hub x.epoch = true → epochOf s.hub x.epoch = some ep → delivery s.hub p x.layer x.slice x.epoch = none →
    tableRoom p (x.layer * 64 + x.slice) ep = true → ∃ t, exec (.digestChunkHeader p d) s = .next t ∧
      (pipe t.hub p).chunk = some { kind := .slice x.layer x.slice x.epoch 0, fmt := BitVec.ofNat 4 x.fmt, link := x.link, next := x.base } ∧
      delivery t.hub p x.layer x.slice x.epoch = some { layer := x.layer, slice := x.slice, epoch := x.epoch, link := x.link, fmt := BitVec.ofNat 4 x.fmt
                                                        k0 := (deliveryKeys s.hub p x.layer ep).1, k1 := (deliveryKeys s.hub p x.layer ep).2.1
                                                        fixed := (deliveryKeys s.hub p x.layer ep).2.2, lastBeat := nowNs s.hub }) ∧
  (∀ s p d x, digRuns s.env s.hub = true → (fifoTick (nowNs s.hub) (pipe s.hub p)).fifo.length < 16 → digHdr d = x → x.rsvd = 0 → x.type = 0 → digFmtOk x.fmt = true →
    epochOpen s.hub x.epoch = false → s.hub.dig.opened.contains x.epoch = false → ∃ t, exec (.digestChunkHeader p d) s = .next t ∧
      (pipe t.hub p).chunk = some { kind := .slice x.layer x.slice x.epoch 3, fmt := BitVec.ofNat 4 x.fmt, link := x.link, next := x.base } ∧
      t.hub.dig.unopened = s.hub.dig.unopened + 1 ∧ t.hub.dig.proto = s.hub.dig.proto + 1) ∧
  (∀ s p (n : Byte) lanes c l u ep v, digRuns s.env s.hub = true → (fifoTick (nowNs s.hub) (pipe s.hub p)).fifo.length < 16 → (pipe s.hub p).chunk = some c → c.kind = .slice l u ep 0 →
    delivery s.hub p l u ep = some v → 0 < n.toNat → n.toNat ≤ 128 → n.toNat ≤ lanes.length → c.next + n.toNat ≤ 2 ^ 28 → ∃ t, exec (.digestDataBeat p n lanes) s = .next t ∧
      (pipe t.hub p).chunk = some { c with next := c.next + n.toNat } ∧
      delivery t.hub p l u ep = some { v with
        d0 := (digList v.k0 v.k1 c.next (((lanes.take n.toNat).map BitVec.toNat).map (valueBits c.fmt.toNat)) (v.d0, v.d1)).1
        d1 := (digList v.k0 v.k1 c.next (((lanes.take n.toNat).map BitVec.toNat).map (valueBits c.fmt.toNat)) (v.d0, v.d1)).2
        count := v.count + n.toNat, lastBeat := nowNs s.hub }) ∧
  (∀ s d x v, digRuns s.env s.hub = true → (fifoTick (nowNs s.hub) s.hub.dig.ingress).fifo.length < 16 → digHdr d = x → x.rsvd = 0 → x.type = 1 → s.hub.dig.ingress.chunk = none →
    delivery s.hub false x.layer x.slice x.epoch = some v → v.invalid = false → v.overrun = false → v.count = x.base → ∃ t, exec (.digestSliceEnd false d) s = .next t ∧
      t.hub.dig.ingress.chunk = none ∧ t.hub.dig.ingress.open_ = s.hub.dig.ingress.open_.filter (fun y => !y.is x.layer x.slice x.epoch) ∧
      (∃ due, t.hub.dig.ingress.finals = s.hub.dig.ingress.finals ++ [(due, .slice v true)]) ∧ t.hub.dig.invalid = s.hub.dig.invalid) ∧
  (∀ s p d x b k, digRuns s.env s.hub = true → (fifoTick (nowNs s.hub) (pipe s.hub p)).fifo.length < 16 → digHdr d = x → x.rsvd = 0 → x.type = 2 → digFmtOk x.fmt = true →
    Tab.find s.hub.dig.seals x.sid = none → Config.drbg s.hub.free = b →
    laneKeys s.hub (fld (bitsOf b.toNat 60 0), fld (bitsOf b.toNat 121 61)) = k → ∃ t, exec (.digestSealHeader p d) s = .next t ∧
      Tab.find t.hub.dig.seals x.sid = some { state := 1, egress := p, k0 := k.1, k1 := k.2.1, fixed := k.2.2 } ∧ t.hub.free = s.hub.free + 1 ∧
      (pipe t.hub p).chunk = some { kind := .seal x.sid, fmt := BitVec.ofNat 4 x.fmt, link := 0, next := x.base }) ∧
  (∀ s p d x v k, digRuns s.env s.hub = true → (fifoTick (nowNs s.hub) (pipe s.hub p)).fifo.length < 16 → digHdr d = x → x.rsvd = 0 → x.type = 3 → digFmtOk x.fmt = true → x.base = 0 →
    Tab.find s.hub.dig.seals x.sid = some v → v.state = 2 → v.overrun = false → laneKeys s.hub (v.k0, v.k1) = k → ∃ t, exec (.digestRecallHeader p d) s = .next t ∧
      Tab.find (pipe t.hub p).recalls x.sid = some { state := 1, egress := p, k0 := k.1, k1 := k.2.1, fixed := k.2.2 } ∧
      (pipe t.hub p).chunk = some { kind := .recall x.sid, fmt := BitVec.ofNat 4 x.fmt, link := 0, next := 0 } ∧ t.hub.dig.seals = s.hub.dig.seals) ∧
  (∀ s p d x v, digRuns s.env s.hub = true → (fifoTick (nowNs s.hub) (pipe s.hub p)).fifo.length < 16 → digHdr d = x → x.rsvd = 0 → x.type = 4 →
    Tab.find s.hub.dig.seals x.sid = some v →
    (Tab.find (pipe s.hub p).recalls x.sid = none → v.state = 1 → v.egress = p → v.count = x.base → v.invalid = false → v.overrun = false → ∃ t, exec (.digestStashEnd p d) s = .next t ∧
      Tab.find t.hub.dig.seals x.sid = some { v with state := 2 } ∧ (pipe t.hub p).chunk = none) ∧
    (∀ r, Tab.find (pipe s.hub p).recalls x.sid = some r → r.state = 1 → r.overrun = false → r.invalid = false → r.count = x.base → ∃ t, exec (.digestStashEnd p d) s = .next t ∧
      Tab.find t.hub.dig.seals x.sid = none ∧ Tab.find (pipe t.hub p).recalls x.sid = none ∧ ∃ due,
      (pipe t.hub p).finals = (pipe s.hub p).finals ++ [(due, .recall x.sid r (some v) (decide (v.count = r.count) && decide (v.d0 = r.d0) && decide (v.d1 = r.d1)) true)])) ∧
  (∀ s p due sid r x o k l, digRuns s.env s.hub = true → (pipe s.hub p).finals = (due, .recall sid r x o k) :: l → due ≤ nowNs s.hub → (k && !o) = false → ∃ t, exec (.deliveryFinal p) s = .next t ∧
    (pipe t.hub p).finals = l ∧ t.hub.dig.sv = true ∧ t.hub.dig.sok = o ∧ t.hub.dig.sid = BitVec.ofNat 10 sid ∧ t.hub.dig.checked = s.hub.dig.checked + b2n k) ∧
  (∀ s due v l ep, digRuns s.env s.hub = true → s.hub.dig.egress.finals = (due, .slice v true) :: l → due ≤ nowNs s.hub → v.overrun = false → s.hub.dig.newer = some ep → ep.num = v.epoch →
    tableRoom true (pairKey v.layer v.slice) ep = true →
    ∃ t, exec (.deliveryFinal true) s = .next t ∧ t.hub.dig.egress.finals = l ∧ ∃ y, t.hub.dig.newer = some y ∧ Tab.find y.egress (v.layer * 64 + v.slice) =
      some { d0 := fAdd (Tab.getD ep.egress (v.layer * 64 + v.slice) {}).d0 v.d0, d1 := fAdd (Tab.getD ep.egress (v.layer * 64 + v.slice) {}).d1 v.d1
             count := (Tab.getD ep.egress (v.layer * 64 + v.slice) {}).count + v.count
             state := if (Tab.getD ep.egress (v.layer * 64 + v.slice) {}).state = (2 : BitVec 2) then (2 : BitVec 2) else 1
             fixed := (Tab.getD ep.egress (v.layer * 64 + v.slice) {}).fixed || v.fixed })

/-- POLICY_SET keeps its policy for the next scoring boundary, or is refused with NO_SPACE where the quotas exceed the block. FENCE and EXPEL
give an entity that the block judges that verdict, an entity it does not judge is NOT_FOUND; UNFENCE takes a removed entity to PROBATION
and ends the floors that lie before it, and is refused where nothing is removed. SHADOW_START takes the replica to SHADOW. TEST_SCHED
makes a test due, cancels one that has not started, and takes its result; of these, what reaches into a host region answers ACCEPTED where
it waits for a stopped clock. VERDICT_READ answers with verdict, score and floor. No other entity's verdict changes. (R26, R27, R312,
R315, R318, R319, R323, R324, R325, R328, R335, R340) -/
def Obligations.VerdictCommands : Prop :=
  (∀ c s v, passes opPolicySet c s = true → (ctxOf c s).settings 1 polSetting (polBase s.hub) = .inr v →
    ((v.quotas.map Quota.arrays).sum ≤ 8 → (v.quotas.map Quota.pages).sum ≤ 128 → (v.quotas.map Quota.rows).sum ≤ 2048 → ∃ t, exec (.policySet c) s = .next t ∧
      Answered 0x70 0x0000 0 [] c s t ∧ t.hub.casc = { s.hub.casc with next := some v }) ∧
    (8 < (v.quotas.map Quota.arrays).sum → ∃ t, exec (.policySet c) s = .next t ∧ Answered 0x70 stNoSpace 0 [] c s t ∧ t.hub.casc = s.hub.casc)) ∧
  (∀ c s, passes opFence c s = true →
    (ownsEnt s.env s.hub (c.w 1) = true → ∃ t, exec (.fence c) s = .next t ∧ Answered 0x71 (if crossWaits s.hub t.hub then stAccepted else stOk) 0 [] c s t ∧
      (entity t.hub (c.w 1)).verdict = (if (entity s.hub (c.w 1)).verdict = 6 then 6 else 5) ∧ ∀ y, y ≠ c.w 1 → (entity t.hub y).verdict = (entity s.hub y).verdict) ∧
    (ownsEnt s.env s.hub (c.w 1) = false → ∃ t, exec (.fence c) s = .next t ∧ Answered 0x71 stNotFound 1 [] c s t ∧ t.hub.casc = s.hub.casc)) ∧
  (∀ c s, passes opExpel c s = true → ownsEnt s.env s.hub (c.w 1) = true → ∃ t, exec (.expel c) s = .next t ∧ Answered 0x73 (if crossWaits s.hub t.hub then stAccepted else stOk) 0 [] c s t ∧
    (entity t.hub (c.w 1)).verdict = 6 ∧ ∀ y, y ≠ c.w 1 → (entity t.hub y).verdict = (entity s.hub y).verdict) ∧
  (∀ c s, passes opUnfence c s = true → ownsEnt s.env s.hub (c.w 1) = true →
    (kindOf (c.w 1) ≠ 9 → isRemoval (entity s.hub (c.w 1)).verdict = true → ∃ t, exec (.unfence c) s = .next t ∧ Answered 0x72 (if crossWaits s.hub t.hub then stAccepted else stOk) 0 [] c s t ∧
      (entity t.hub (c.w 1)).verdict = 3 ∧ ∀ y, y ≠ c.w 1 → (entity t.hub y).verdict = (entity s.hub y).verdict) ∧
    (isRemoval (entity s.hub (c.w 1)).verdict = false → ∃ t, exec (.unfence c) s = .next t ∧ Answered 0x72 stWrongState 1 [] c s t ∧ t.hub.casc = s.hub.casc)) ∧
  (∀ c s, passes opShadowStart c s = true → (jobAt s.hub ((c.w 1).setWidth 16)).isSome = true → c.n 2 ≠ c.n 3 → votes s.hub ((c.w 1).setWidth 16) (c.n 3) = true → c.n 2 < 256 →
    ∃ t, exec (.shadowStart c) s = .next t ∧ Answered 0x74 0x0000 0 [] c s t ∧ (entity t.hub (entId 9 (c.n 1 * 256 + c.n 2))).verdict = 7) ∧
  (∀ c s k, passes opTestSchedule (withOp 0 c) s = true → coresOf s.env s.hub ((withOp 0 c).w 2) = [k] → coreId s.env s.hub k = (withOp 0 c).w 2 →
    (entity s.hub ((withOp 0 c).w 2)).test = none → jobOfDie s.hub (dieNo s.env s.hub) = none → ∃ t, exec (.testSchedSchedule c) s = .next t ∧ Answered 0x75 0x0000 0 [] c s t ∧
      (entity t.hub ((withOp 0 c).w 2)).test = some { deadline := nowNs s.hub + (policy s.hub).deferral, ident := (withOp 0 c).w 3, cond := condOf (ctxOf (withOp 0 c) s) 4 }) ∧
  (∀ c s k v, passes opTestCancel (withOp 1 c) s = true → coresOf s.env s.hub ((withOp 1 c).w 2) = [k] → testOf s.env s.hub k = some v →
    (v.running = none → ∃ t, exec (.testSchedCancel c) s = .next t ∧ Answered 0x75 0x0000 0 [] c s t ∧ testOf s.env t.hub k = none) ∧
    (v.running.isSome = true → ∃ t, exec (.testSchedCancel c) s = .next t ∧ Answered 0x75 stWrongState 2 [] c s t ∧ t.hub.casc = s.hub.casc)) ∧
  (∀ c s k lim, passes opTestDone (withOp 2 c) s = true → testCore s.env s.hub ((withOp 2 c).w 2) = some (k, lim) → nowNs s.hub ≤ lim →
    ((withOp 2 c).n 3 = 2 → ∃ t, exec (.testSchedDone c) s = .next t ∧ Answered 0x75 (if crossWaits s.hub t.hub then stAccepted else stOk) 0 [] c s t ∧
      testOf s.env t.hub k = (testOf s.env s.hub k).map (fun t => { t with running := none })) ∧
    ((withOp 2 c).n 3 = 0 → (entity s.hub (coreId s.env s.hub k)).verdict ≠ 4 → ∃ t, exec (.testSchedDone c) s = .next t ∧ Answered 0x75 (if crossWaits s.hub t.hub then stAccepted else stOk) 0 [] c s t ∧ testOf s.env t.hub k = none ∧
      (hubc t.hub k).lastTest = nowNs s.hub) ∧
    ((withOp 2 c).n 3 = 0 → (entity s.hub (coreId s.env s.hub k)).verdict = 4 → (entity s.hub (coreId s.env s.hub k)).floors = [] → ∃ t, exec (.testSchedDone c) s = .next t ∧
      (entity t.hub (coreId s.env s.hub k)).verdict = 1)) ∧
  (∀ c s, passes opVerdictRead c s = true → knowsEnt s.env s.hub (c.w 1) = true → ∃ t, exec (.verdictRead c) s = .next t ∧
    Answered 0x76 0x0000 0 [w32 (entity s.hub (c.w 1)).verdict, scoreWord (entity s.hub (c.w 1)), floorWord s.hub (c.w 1)] c s t ∧ t.hub.casc = s.hub.casc)

/-- A scan boundary takes the whole multiple of P that TB has reached, a quick boundary that of Q: one that is a scan boundary or whose set is
empty serves nothing, one that finds a quick pass running is counted as skipped, and another requests the quick pass of the frond slot
over the set. Floors whose hold time has passed lapse, a PROBATION that stayed calm ends in WATCH and another is prolonged. A due test is
created with its deferral, one that has not started by its deadline is overdue, and one without a result within the hold limit is no
longer running and stays due. (R262, R287, R288, R289, R311, R315, R316, R319, R321, R324, R325) -/
def Obligations.CascadeEvents : Prop :=
  (∀ s, s.env.tray = false → working s.hub = true → s.hub.casc.lastScan < scanTb s.hub → ∃ t, exec .scanBoundary s = .next t ∧ t.hub.casc.lastScan = scanTb s.hub) ∧
  (∀ s, s.env.tray = false → serving s.hub = true → s.hub.casc.lastQuick < quickTb s.hub → ∃ t, exec .quickBoundary s = .next t ∧
    (quickTb s.hub % s.hub.casc.p = 0 → t.hub.casc = { s.hub.casc with lastQuick := quickTb s.hub } ∧ t.hub.ens = s.hub.ens) ∧
    (quickEnts s.env s.hub = [] → t.hub.ens = s.hub.ens) ∧
    (quickTb s.hub % s.hub.casc.p ≠ 0 → quickEnts s.env s.hub ≠ [] → s.hub.ens.passes.any (fun p => p.use == .quick) = true →
      t.hub.casc = { s.hub.casc with lastQuick := quickTb s.hub, quickSkipped := s.hub.casc.quickSkipped + 1 } ∧ t.hub.ens = s.hub.ens) ∧
    (∀ i g, quickTb s.hub % s.hub.casc.p ≠ 0 → quickEnts s.env s.hub ≠ [] → s.hub.ens.passes.any (fun p => p.use == .quick) = false →
      stageSlot s.hub .frond = some i → (slotAt s.hub i).active = some g → s.hub.ens.passes.length < 8 →
      t.hub.ens.passes.map (fun p => (p.slot, p.use, p.todo, p.gen, p.tb)) =
        s.hub.ens.passes.map (fun p => (p.slot, p.use, p.todo, p.gen, p.tb)) ++ [(i, .quick, quickEnts s.env s.hub, g, quickTb s.hub)])) ∧
  (∀ s x, ensRuns s.env s.hub = true → ∃ t, exec (.floorExpiry x) s = .next t ∧
    entity t.hub x = { entity s.hub x with floors := (entity s.hub x).floors.filter (fun f => decide (nowNs s.hub < f.tb + (policy s.hub).floorHold)) } ∧
    ∀ y, y ≠ x → entity t.hub y = entity s.hub y) ∧
  (∀ s x d, ensRuns s.env s.hub = true → (entity s.hub x).verdict = 3 → (entity s.hub x).probEnd = some d → d ≤ nowNs s.hub → ∃ t, exec (.probationExpiry x) s = .next t ∧
    ((polRow s.hub x).dwellDown ≤ (entity s.hub x).calm → (entity s.hub x).floors = [] → (entity s.hub x).pendRem = none → (entity t.hub x).verdict = 1) ∧
    ((entity s.hub x).calm < (polRow s.hub x).dwellDown →
      entity t.hub x = { entity s.hub x with probEnd := some (nowNs s.hub + (policy s.hub).probation) } ∧ ∀ y, y ≠ x → entity t.hub y = entity s.hub y)) ∧
  (∀ s (k : CoreNo), s.env.present k.toNat = true → ensRuns s.env s.hub = true → (policy s.hub).periodic ≠ 0 → (hubc s.hub k.toNat).lastTest + (policy s.hub).periodic ≤ nowNs s.hub →
    (entity s.hub (coreId s.env s.hub k.toNat)).test = none → jobOfDie s.hub (dieNo s.env s.hub) = none → ∃ t, exec (.periodicTestDue k) s = .next t ∧
    (entity t.hub (coreId s.env s.hub k.toNat)).test = some { deadline := nowNs s.hub + (policy s.hub).deferral, ident := 0, cond := none } ∧
    ∀ y, y ≠ coreId s.env s.hub k.toNat → entity t.hub y = entity s.hub y) ∧
  (∀ s (k : CoreNo) v, s.env.present k.toNat = true → ensRuns s.env s.hub = true → (entity s.hub (coreId s.env s.hub k.toNat)).test = some v → v.running = none → v.overdue = false →
    v.deadline ≤ nowNs s.hub → s.env.beaten evStep v.deadline (nowNs s.hub) = false → ∃ t, exec (.deferralDeadline k) s = .next t ∧
    (entity t.hub (coreId s.env s.hub k.toNat)).test = some { v with overdue := true, noRaise := overruled s.env s.hub (coreId s.env s.hub k.toNat) } ∧
    ∀ y, (entity t.hub y).verdict = (entity s.hub y).verdict) ∧
  (∀ s q k lim, testCore s.env s.hub q = some (k, lim) → ensRuns s.env s.hub = true → lim ≤ nowNs s.hub → s.env.beaten evTestDone lim (nowNs s.hub) = false → ∃ t, exec (.testHoldExpiry q) s = .next t ∧
    testOf s.env t.hub k = (testOf s.env s.hub k).map (fun t => { t with running := none }))

/-- XS_REDUCE and NORM_REQ of a group that this die is no member of are NOT_FOUND. Otherwise, with room, no round of that number open and the
command queue not full, both stay in progress with their round open. With the lanes and a context free the request starts at once: an
XS_REDUCE takes the context and queues its elements, in packets, for the die's tray; a NORM_REQ takes the context and waits for its epoch,
nothing being sent. Without, the request joins the end of the command queue and nothing is sent. (R215, R216, R217, R221, R230, R237,
R238, R241, R243) -/
def Obligations.ReduceCommands : Prop :=
  (∀ c s, passes opXsReduce c s = true →
    (xsMember s.env s.hub (c.n 1) = false → ∃ t, exec (.xsReduce c) s = .next t ∧ Answered 0x50 stNotFound 1 [] c s t ∧ t.hub.xs = s.hub.xs) ∧
    (∀ es, xsMember s.env s.hub (c.n 1) = true → xsBusy s.env s.hub (c.n 1) (c.n 2) = false → xsElems s.env (consumed c s) (ctxOf c s) = some es →
      ∃ t, exec (.xsReduce c) s = .next t ∧ InProgress 0x50 c t ∧
        (canStart s.hub = true →
          roundAt t.hub 0 (c.n 1) (c.n 2) = some { op := BitVec.ofNat 4 (c.n 3), geom := w32 (c.n 4), total := es.length
                                                   use := .xsReduce s.hub.cmd.nextId (xsDest (ctxOf c s)), opened := nowNs s.hub, timer := nowNs s.hub
                                                   ctx := (freeCtx s.hub).head?, sent := true } ∧
          t.hub.xs.queue = s.hub.xs.queue ∧
          t.hub.fab.outq = s.hub.fab.outq ++ redOut s.hub 2 (2 ^ 17 + dieNo s.env s.hub / 128)
            (redUp s.hub { group := c.n 1, seq := c.n 2, op := c.n 3 % 16, level := 0, geom := c.n 4 % 2 ^ 32, total := es.length, elems := es })) ∧
        (canStart s.hub = false → (∃ r, roundAt t.hub 0 (c.n 1) (c.n 2) = some r ∧ r.acc.map Prod.snd = es ∧ r.sent = false ∧ r.ctx = none) ∧
          t.hub.xs.queue = s.hub.xs.queue ++ [(c.n 1, c.n 2)] ∧ t.hub.fab = s.hub.fab))) ∧
  (∀ c s, passes opNormReq c s = true →
    (xsMember s.env s.hub (c.n 1) = false → ∃ t, exec (.normReq c) s = .next t ∧ Answered 0x51 stNotFound 1 [] c s t ∧ t.hub.xs = s.hub.xs) ∧
    (xsMember s.env s.hub (c.n 1) = true → xsBusy s.env s.hub (c.n 1) (seqOfNorm (c.n 2)) = false →
      ∃ t, exec (.normReq c) s = .next t ∧ InProgress 0x51 c t ∧ t.hub.fab = s.hub.fab ∧
        (canStart s.hub = true →
          roundAt t.hub 0 (c.n 1) (seqOfNorm (c.n 2)) = some { op := 3, total := 1, use := .norm s.hub.cmd.nextId (c.w 2), opened := nowNs s.hub, timer := nowNs s.hub
                                                               tc := 0, ctx := (freeCtx s.hub).head? } ∧
          t.hub.xs.norms = s.hub.xs.norms ++ [{ group := c.n 1, epoch := c.w 2, pend := s.hub.cmd.nextId }]) ∧
        (canStart s.hub = false → t.hub.xs.queue = s.hub.xs.queue ++ [(c.n 1, seqOfNorm (c.n 2))] ∧ t.hub.xs.norms = s.hub.xs.norms)))

/-- The first waiting norm request of the group whose epoch is final, or is held no longer, is taken out of those that wait. With the epoch
and its round at hand the die's sum of squares leaves for its tray as one contribution and the round is marked sent; of an epoch held no
longer nothing is sent. A round whose command has waited for the result timeout is given up, no packet leaving. At the end of a round's
lifetime each level frees what it holds of it, and a level whose round is younger keeps it. (R224, R230, R238, R240, R243) -/
def Obligations.MemberRounds : Prop :=
  (∀ s (g : BitVec 10) n, s.env.tray = false → working s.hub = true →
    s.hub.xs.norms.find? (fun n => decide (n.group = g.toNat) && (egressFinal s.hub n.epoch || epochGone s.hub n.epoch)) = some n →
    (∀ ep r, epochOf s.hub n.epoch = some ep → roundAt s.hub 0 n.group (seqOfNorm n.epoch.toNat) = some r →
      ∃ t, exec (.normContribute g) s = .next t ∧ t.hub.xs.norms = s.hub.xs.norms.filter (fun q => decide (q.pend ≠ n.pend)) ∧
        roundAt t.hub 0 n.group (seqOfNorm n.epoch.toNat) = some { r with sent := true } ∧
        t.hub.fab.outq = s.hub.fab.outq ++ redOut s.hub 0 (2 ^ 17 + dieNo s.env s.hub / 128)
          (redUp s.hub { group := n.group, seq := seqOfNorm n.epoch.toNat, op := 3, level := 0, total := 1, elems := [.xa (normElem s.hub ep)] })) ∧
    (epochOf s.hub n.epoch = none → ∃ t, exec (.normContribute g) s = .next t ∧ t.hub.xs.norms = s.hub.xs.norms.filter (fun q => decide (q.pend ≠ n.pend)) ∧
      t.hub.fab.outq = s.hub.fab.outq ∧ t.hub.xs.rounds = s.hub.xs.rounds)) ∧
  (∀ s (g q : BitVec 16) r, s.env.tray = false → working s.hub = true → roundAt s.hub 0 g.toNat q.toNat = some r → (roundWait r).isSome = true →
    r.opened + s.hub.xs.resultTimeout ≤ nowNs s.hub → s.env.beaten evResult (r.opened + s.hub.xs.resultTimeout) (nowNs s.hub) = false →
    ∃ t, exec (.resultTimeout g q) s = .next t ∧ roundAt t.hub 0 g.toNat q.toNat = none ∧ t.hub.fab = s.hub.fab) ∧
  (∀ s (g q : BitVec 16), working s.hub = true → ∃ t, exec (.roundLifetimeExpiry g q) s = .next t ∧ t.hub.fab = s.hub.fab ∧
    ∀ l r, l < 4 → roundAt s.hub l g.toNat q.toNat = some r →
      roundAt t.hub l g.toNat q.toNat =
        if r.opened + 100000000 ≤ nowNs s.hub ∧ s.env.beaten evResult (r.opened + 100000000) (nowNs s.hub) = false then none else some r)

/-- ENS_LOAD stays in progress with its load waiting for its first read. ENS_ACTIVATE of a slot whose STAGED generation is not the one named
is NOT_FOUND, of a damaged one BAD_PARAM, for a window that has ended WRONG_STATE, BUSY while a commanded swap waits, and otherwise OK
with the swap waiting for its boundary; ENS_ROLLBACK likewise of the PREVIOUS generation, but it replaces a commanded activation. No other
slot changes. ENS_RUN of a slot without an ACTIVE generation is NOT_FOUND, with 8 passes pending BUSY, and otherwise in progress with its
pass requested, of the ACTIVE generation. FEAT_WRITE puts its words into the row of its entity, the others kept, and leaves every other
row; a TENANT's go into the row of its job; in die role an entity without a row is NOT_FOUND. (R248, R262, R263, R268, R269, R271, R273,
R274, R275, R276, R278, R285) -/
def Obligations.EnsembleCommands : Prop :=
  (∀ c s, passes opEnsLoad c s = true → ∃ t, exec (.ensLoad c) s = .next t ∧ InProgress 0x60 c t ∧
    t.hub.ens = { s.hub.ens with loads := s.hub.ens.loads ++ [{ slot := c.n 1, addr := c.d 2, len := c.d 4, pend := s.hub.cmd.nextId
                                                                job := if (ctxOf c s).tenant then (ctxOf c s).job else none }] }) ∧
  (∀ c s, passes opEnsActivate c s = true → c.n 1 < s.hub.ens.slots.length →
    ((slotAt s.hub (c.n 1)).staged.all (fun g => decide (g.num ≠ c.w 2)) = true →
      ∃ t, exec (.ensActivate c) s = .next t ∧ Answered 0x61 stNotFound 2 [] c s t ∧ t.hub.ens = s.hub.ens) ∧
    (∀ g, (slotAt s.hub (c.n 1)).staged = some g → g.num = c.w 2 →
      (g.damaged = true → ∃ t, exec (.ensActivate c) s = .next t ∧ Answered 0x61 stBadParam 2 [] c s t ∧ t.hub.ens = s.hub.ens) ∧
      (g.damaged = false → (windowWord (ctxOf c s) 3).any (windowEnded s.hub) = true →
        ∃ t, exec (.ensActivate c) s = .next t ∧ Answered 0x61 stWrongState 3 [] c s t ∧ t.hub.ens = s.hub.ens) ∧
      (g.damaged = false → (windowWord (ctxOf c s) 3).any (windowEnded s.hub) = false →
        ((slotAt s.hub (c.n 1)).swap.any Swap.commanded = true → ∃ t, exec (.ensActivate c) s = .next t ∧ t.hub.ens = s.hub.ens) ∧
        ((slotAt s.hub (c.n 1)).swap.any Swap.commanded = false → ∃ t, exec (.ensActivate c) s = .next t ∧ Answered 0x61 stOk 0 [] c s t ∧
          slotAt t.hub (c.n 1) = { slotAt s.hub (c.n 1) with swap := some { rollback := false, commanded := true, window := windowWord (ctxOf c s) 3 } } ∧
          ∀ i, i ≠ c.n 1 → slotAt t.hub i = slotAt s.hub i)))) ∧
  (∀ c s, passes opEnsRollback c s = true → c.n 1 < s.hub.ens.slots.length →
    ((slotAt s.hub (c.n 1)).previous = none → ∃ t, exec (.ensRollback c) s = .next t ∧ Answered 0x64 stNotFound 1 [] c s t ∧ t.hub.ens = s.hub.ens) ∧
    (∀ g, (slotAt s.hub (c.n 1)).previous = some g →
      (g.damaged = true → ∃ t, exec (.ensRollback c) s = .next t ∧ Answered 0x64 stBadParam 1 [] c s t ∧ t.hub.ens = s.hub.ens) ∧
      (g.damaged = false → (windowWord (ctxOf c s) 2).any (windowEnded s.hub) = true →
        ∃ t, exec (.ensRollback c) s = .next t ∧ Answered 0x64 stWrongState 2 [] c s t ∧ t.hub.ens = s.hub.ens) ∧
      (g.damaged = false → (windowWord (ctxOf c s) 2).any (windowEnded s.hub) = false →
        ((slotAt s.hub (c.n 1)).swap.any (fun w => w.commanded && w.rollback) = true → ∃ t, exec (.ensRollback c) s = .next t ∧ t.hub.ens = s.hub.ens) ∧
        ((slotAt s.hub (c.n 1)).swap.any (fun w => w.commanded && w.rollback) = false → ∃ t, exec (.ensRollback c) s = .next t ∧ Answered 0x64 stOk 0 [] c s t ∧
          slotAt t.hub (c.n 1) = { slotAt s.hub (c.n 1) with swap := some { rollback := true, commanded := true, window := windowWord (ctxOf c s) 2 } } ∧
          ∀ i, i ≠ c.n 1 → slotAt t.hub i = slotAt s.hub i)))) ∧
  (∀ c s, passes opEnsRun c s = true → (if (ctxOf c s).tenant then none else firstWord 4 (c.params.drop 3) (hasRow s.env s.hub)) = none →
    ((slotAt s.hub (c.n 1)).active = none → ∃ t, exec (.ensRun c) s = .next t ∧ Answered 0x62 stNotFound 1 [] c s t ∧ t.hub.ens = s.hub.ens) ∧
    (∀ g, (slotAt s.hub (c.n 1)).active = some g → c.params.drop 3 ≠ [] →
      (8 ≤ s.hub.ens.passes.length → ∃ t, exec (.ensRun c) s = .next t ∧ t.hub.ens = s.hub.ens) ∧
      (s.hub.ens.passes.length < 8 → s.env.tray = false ∨ (ctxOf c s).tenant = true ∧ (ctxOf c s).job.isSome = true →
        ∃ t, exec (.ensRun c) s = .next t ∧ InProgress 0x62 c t ∧
          t.hub.ens.passes = s.hub.ens.passes ++ [{
            slot := c.n 1, use := .run s.hub.cmd.nextId (c.d 2) (if (ctxOf c s).tenant then (ctxOf c s).job else none), todo := c.params.drop 3, gen := g
            tb := scoringTb s.env s.hub, period := s.hub.casc.p, seq := s.hub.ens.passNo }]))) ∧
  (∀ c s, passes opFeatWrite c s = true →
    ((ctxOf c s).tenant = true → ∃ t, exec (.featWrite c) s = .next t ∧ Answered 0x63 stOk 0 [] c s t ∧ t.hub.ens.rows = s.hub.ens.rows ∧
      ∀ n, Tab.find (Tab.getD t.hub.ens.tenant (tenantKey ((ctxOf c s).job.getD 0) (c.n 1)) {}).words n =
        if c.n 2 ≤ n ∧ n < c.n 2 + (c.params.drop 2).length then (c.params.drop 2)[n - c.n 2]?
        else Tab.find (Tab.getD s.hub.ens.tenant (tenantKey ((ctxOf c s).job.getD 0) (c.n 1)) {}).words n) ∧
    ((ctxOf c s).tenant = false → hasRow s.env s.hub (c.w 1) = false →
      ∃ t, exec (.featWrite c) s = .next t ∧ Answered 0x63 stNotFound 1 [] c s t ∧ t.hub.ens = s.hub.ens) ∧
    (∀ r, (ctxOf c s).tenant = false → hasRow s.env s.hub (c.w 1) = true → rowOf s.hub (c.w 1) = some r → r.st = .valid →
      ∃ t, exec (.featWrite c) s = .next t ∧ Answered 0x63 stOk 0 [] c s t ∧
        (∃ q, rowOf t.hub (c.w 1) = some q ∧ q.st = .valid ∧ (c.params.drop 2 ≠ [] → q.dirty = true) ∧
          ∀ n, Tab.find q.words n = if c.n 2 ≤ n ∧ n < c.n 2 + (c.params.drop 2).length then (c.params.drop 2)[n - c.n 2]? else Tab.find r.words n) ∧
        ∀ y, y ≠ c.w 1 → rowOf t.hub y = rowOf s.hub y))

/-- The first read of a load that cannot be read, or fails a check of Table 7.8, ends the load and changes no slot. One that passes frees the
slot's STAGED generation and a pending activation of it, and the load holds the image's generation on free pages with its CRC. The second
read stages that generation when the image still has the CRC, changes no slot when it has not, and ends the load. What the scrubber
corrects is counted; uncorrectable words are counted and mark the generation damaged, with those words, in its slot and in the passes that
it scores. (R247, R248, R271, R272, R276) -/
def Obligations.EnsembleLoads : Prop :=
  (∀ s l, s.hub.ens.loads.find? (fun l => l.gen.isNone) = some l → ensRuns s.env s.hub = true →
    (((∀ b, readMem s.env s.hub.clean l.addr l.len = some b → imageCheck s.hub l.slot l.len l.job b ≠ stOk) →
      ∃ t, exec .ensLoadFirstReadDone s = .next t ∧ t.hub.ens = { s.hub.ens with loads := s.hub.ens.loads.filter (fun q => decide (q.pend ≠ l.pend)) }) ∧
    (∀ b, readMem s.env s.hub.clean l.addr l.len = some b → imageCheck s.hub l.slot l.len l.job b = stOk → l.slot < s.hub.ens.slots.length →
      ∃ t, exec .ensLoadFirstReadDone s = .next t ∧
        slotAt t.hub l.slot = { slotAt s.hub l.slot with staged := none, swap := (slotAt s.hub l.slot).swap.filter Swap.rollback } ∧
        (∀ i, i ≠ l.slot → slotAt t.hub i = slotAt s.hub i) ∧
        t.hub.ens.loads = s.hub.ens.loads.map (fun q => if q.pend = l.pend then
          { q with gen := some (withPages (onSlot l.slot (fun x => { x with staged := none, swap := x.swap.filter Swap.rollback }) s.hub) (imageGen b)), crc := w32 (leAt b 12 4) } else q)))) ∧
  (∀ s l, s.hub.ens.loads.find? (fun l => l.gen.isSome) = some l → ensRuns s.env s.hub = true →
    (∀ b, readMem s.env s.hub.clean l.addr l.len = some b → imageCrc b = l.crc.toNat → l.slot < s.hub.ens.slots.length →
      ∃ t, exec .ensLoadSecondReadDone s = .next t ∧ t.hub.ens.loads = s.hub.ens.loads.filter (fun q => decide (q.pend ≠ l.pend)) ∧
        slotAt t.hub l.slot = { slotAt s.hub l.slot with staged := l.gen } ∧ ∀ i, i ≠ l.slot → slotAt t.hub i = slotAt s.hub i) ∧
    ((∀ b, readMem s.env s.hub.clean l.addr l.len = some b → imageCrc b ≠ l.crc.toNat) →
      ∃ t, exec .ensLoadSecondReadDone s = .next t ∧ t.hub.ens = { s.hub.ens with loads := s.hub.ens.loads.filter (fun q => decide (q.pend ≠ l.pend)) })) ∧
  (∀ s (i : BitVec 4) g (n : BitVec 32) x, slotGen (slotAt s.hub i.toNat) g = some x → alive s.hub = true →
    (∃ t, exec (.nodeMemoryScrub i g n []) s = .next t ∧ t.hub.ens = { s.hub.ens with corr := s.hub.ens.corr + n.toNat }) ∧
    ∀ bad, bad ≠ [] → i.toNat < s.hub.ens.slots.length → ∃ t, exec (.nodeMemoryScrub i g n bad) s = .next t ∧
      t.hub.ens.corr = s.hub.ens.corr + n.toNat ∧ t.hub.ens.uncorr = s.hub.ens.uncorr + bad.length ∧
      slotGen (slotAt t.hub i.toNat) g = some { x with bad := x.bad ++ bad, damaged := true } ∧ (∀ j, j ≠ i.toNat → slotAt t.hub j = slotAt s.hub j) ∧
      t.hub.ens.passes = s.hub.ens.passes.map (fun p => if p.slot = i.toNat ∧ p.gen.num = x.num then { p with gen := { x with bad := x.bad ++ bad, damaged := true } } else p))

/-- The sample issued next is scored: it leaves its pass's list, and its result, formed from the traversals of the pass's generation over its
features, joins the pass's results; in die role a sample without a row is refused and counted. No other pass changes. The first pass
without samples left ends and is counted, whatever it is for when that is an ENS_RUN. A filled row becomes VALID with its backing bytes
and the writes that waited; a row written back is in the backing store and cached no longer. A sample that outlasts the assembly limit is
refused and counted, and waits no longer. (R249, R255, R263, R265, R266, R267, R268, R269, R270, R283) -/
def Obligations.EnsemblePasses : Prop :=
  (∀ s p i x, ensRuns s.env s.hub = true → nextSample s.env (assembleAll s.env s.hub.clean) = some (p, i, x) → (assembleAll s.env s.hub.clean).ens.passes[i]? = some p →
    (p.use.tenantJob = none → s.env.tray = true ∨ (rowOf (assembleAll s.env s.hub.clean) x).isSome = true → ∃ t q, exec .sampleComplete s = .next t ∧
      t.hub.ens.passes[i]? = some q ∧ q.todo = p.todo.erase x ∧
      q.results = p.results ++ [formResult p.gen p.slot p.tb x (entStopped (assembleAll s.env s.hub.clean) x) (walks p.gen (feature (assembleAll s.env s.hub.clean) x))] ∧
      (∀ j, j ≠ i → t.hub.ens.passes[j]? = (assembleAll s.env s.hub.clean).ens.passes[j]?) ∧ t.hub.ens.samples = (assembleAll s.env s.hub.clean).ens.samples + 1) ∧
    (∀ j, p.use.tenantJob = some j → ∃ t q, exec .sampleComplete s = .next t ∧ t.hub.ens.passes[i]? = some q ∧ q.todo = p.todo.erase x ∧
      q.results = p.results ++ [formResult p.gen p.slot p.tb x false (walks p.gen (fun n =>
        if n < 256 then Tab.getD (Tab.getD (assembleAll s.env s.hub.clean).ens.tenant (tenantKey j x.toNat) {}).words n missing else missing))] ∧
      (∀ k, k ≠ i → t.hub.ens.passes[k]? = (assembleAll s.env s.hub.clean).ens.passes[k]?)) ∧
    (p.use.tenantJob = none → s.env.tray = false → rowOf s.hub x = none → ∃ t, exec .sampleComplete s = .next t ∧
      t.hub.ens.passes[i]? = some { p with todo := p.todo.erase x, refused := p.refused + 1 } ∧ t.hub.ens.refusedPass = s.hub.ens.refusedPass + 1 ∧
      (∀ j, j ≠ i → t.hub.ens.passes[j]? = s.hub.ens.passes[j]?))) ∧
  (∀ s p pend dest job, ensRuns s.env s.hub = true → s.hub.ens.passes.find? (fun p => p.todo.isEmpty) = some p → p.use = .run pend dest job →
    ∃ t, exec .passComplete s = .next t ∧ t.hub.ens.passes = s.hub.ens.passes.filter (fun q => decide (q.seq ≠ p.seq)) ∧ t.hub.ens.done = s.hub.ens.done + 1) ∧
  (∀ s x r, s.env.tray = true → alive s.hub = true → s.hub.ens.roomq = [] → rowOf s.hub x = some r →
    (∀ b, r.st = .filling → clientBusy s.hub (fun c => c == .fill x.toNat) = false → backingBytes s.env s.hub.clean x = some b →
      ∃ t, exec (.rowFillComplete x) s = .next t ∧ (∀ y, y ≠ x → rowOf t.hub y = rowOf s.hub y) ∧
        rowOf t.hub x = some { r with st := .valid, words := r.waiting.foldl (fun t p => Tab.put t p.1 p.2) (rowWords b), dirty := !r.waiting.isEmpty, waiting := [], used := nowNs s.hub }) ∧
    (∀ a, r.st = .evicting → r.refill = false → r.waiting = [] → (backingOf s.hub x).bind (backingAddr s.hub) = some a →
      clientBusy s.hub (fun c => match c with | .writeback y _ => decide (y = x.toNat) | _ => false) = false →
      ∃ t, exec (.rowWritebackComplete x) s = .next t ∧ rowOf t.hub x = none ∧ (∀ y, y ≠ x → rowOf t.hub y = rowOf s.hub y) ∧ t.mem = s.memAfter a (rowBytes r))) ∧
  (∀ s (x : Word) w i p, ensRuns s.env s.hub = true → s.env.beaten evRowFill w.deadline (nowNs s.hub) = false →
    s.hub.ens.waits.find? (fun w => decide (w.ent = x.toNat) && decide (w.deadline ≤ nowNs s.hub) &&
        s.hub.ens.passes.any (fun p => decide (p.seq = w.pass) && !assembled s.hub p.gen x)) = some w →
    s.hub.ens.passes.findIdx (fun p => decide (p.seq = w.pass)) = i → s.hub.ens.passes[i]? = some p →
    ∃ t, exec (.assemblyLimitExpiry x) s = .next t ∧ t.hub.ens.refused = s.hub.ens.refused + 1 ∧
      t.hub.ens.passes[i]? = some { p with todo := p.todo.erase x, refused := p.refused + 1 } ∧ sampleWait t.hub w.pass x.toNat = none)

/-- MARGIN_PLAN MODE is OK and leaves the mode it names, with the settings it carries. SET fixes its region: the region's plan is formed with
the next number, CAUSE 2 and the offset and cap given, is the plan last sent and waits for its ACK; no other region changes. AUTO gives
the region back. ACK of the newest plan sent, while it waits, puts that plan in force; any other is NOT_FOUND. PROBE_DONE of a probe that
runs ends it, and of no such probe, or later than 1 s after its notice, is NOT_FOUND. LIFE_READ answers the drift figures and plans, a
plane, or the eight voltage bins of a condition cell, and changes nothing. (R357, R358, R359, R360, R364, R369) -/
def Obligations.MarginPlanCommands : Prop :=
  (∀ c s, passes opPlanMode (withOp 0 c) s = true → ∃ t, exec (.marginPlanMode c) s = .next t ∧ Answered 0x80 stOk 0 [] (withOp 0 c) s t ∧
    t.hub.age = { setOr s.hub.age ((ctxOf (withOp 0 c) s).settings 3 ageSetting s.hub.age) with mode := BitVec.ofNat 2 ((withOp 0 c).n 2) }) ∧
  (∀ c s, passes opPlanSet (withOp 1 c) s = true → (withOp 1 c).n 2 < s.hub.age.zones.length → ∃ t, exec (.marginPlanSet c) s = .next t ∧
    zone t.hub ((withOp 1 c).n 2) = { zone s.hub ((withOp 1 c).n 2) with
      manual := true, probeFail := false, sent := some (planFor s.hub ((withOp 1 c).n 2) 2 (signed 32 ((withOp 1 c).n 3)) ((withOp 1 c).n 4)) } ∧
    (∀ r, r ≠ (withOp 1 c).n 2 → zone t.hub r = zone s.hub r) ∧ t.hub.age.planSeq = s.hub.age.planSeq + 1 ∧ t.hub.age.sentSeq = s.hub.age.planSeq + 1 ∧
    t.hub.age.ackDue = s.hub.age.ackDue ++ [(s.hub.age.planSeq + 1, nowNs s.hub + s.hub.age.ackLimit)]) ∧
  (∀ c s, passes opPlanAuto (withOp 2 c) s = true → (withOp 2 c).n 2 < s.hub.age.zones.length → ∃ t, exec (.marginPlanAuto c) s = .next t ∧
    Answered 0x80 stOk 0 [] (withOp 2 c) s t ∧ zone t.hub ((withOp 2 c).n 2) = { zone s.hub ((withOp 2 c).n 2) with manual := false } ∧
    ∀ r, r ≠ (withOp 2 c).n 2 → zone t.hub r = zone s.hub r) ∧
  (∀ c s q, passes opPlanAck (withOp 3 c) s = true → ((withOp 3 c).w 2).setWidth 16 = q →
    (∀ r, (List.range 8).find? (fun r => (zone s.hub r).sent.any (fun p => decide (p.seq = q))) = some r → r < s.hub.age.zones.length →
      (withOp 3 c).n 2 < 65536 → q = s.hub.age.sentSeq → s.hub.age.ackDue.any (fun p => decide (p.1 = q)) = true →
      ∃ t, exec (.marginPlanAck c) s = .next t ∧ Answered 0x80 stOk 0 [] (withOp 3 c) s t ∧
        zone t.hub r = { zone s.hub r with current := (zone s.hub r).sent.getD (zone s.hub r).current, sent := none } ∧ (∀ i, i ≠ r → zone t.hub i = zone s.hub i) ∧
        t.hub.age.ackDue = s.hub.age.ackDue.filter (fun p => decide (p.1 ≠ q))) ∧
    ((List.range 8).find? (fun r => (zone s.hub r).sent.any (fun p => decide (p.seq = q))) = none ∨ 65536 ≤ (withOp 3 c).n 2 ∨ q ≠ s.hub.age.sentSeq ∨
        s.hub.age.ackDue.any (fun p => decide (p.1 = q)) = false →
      ∃ t, exec (.marginPlanAck c) s = .next t ∧ Answered 0x80 stNotFound 2 [] (withOp 3 c) s t ∧ t.hub.age = s.hub.age)) ∧
  (∀ c s, passes opProbeDone (withOp 4 c) s = true →
    (∀ p, probeOf s.hub ((withOp 4 c).w 2) = some p → nowNs s.hub ≤ p.notice + 1000000000 → ∃ t, exec (.marginPlanProbeDone c) s = .next t ∧
      Answered 0x80 (if crossWaits s.hub t.hub then stAccepted else stOk) 0 [] (withOp 4 c) s t ∧ t.hub.age.probes = s.hub.age.probes.filter (fun q => decide (q.seq ≠ p.seq))) ∧
    ((∀ p, probeOf s.hub ((withOp 4 c).w 2) = some p → p.notice + 1000000000 < nowNs s.hub) →
      ∃ t, exec (.marginPlanProbeDone c) s = .next t ∧ Answered 0x80 stNotFound 2 [] (withOp 4 c) s t ∧ t.hub.age = s.hub.age)) ∧
  (∀ c s, passes opLifeRead c s = true →
    (c.params.length = 0 → ∃ t, exec (.lifeRead c) s = .next t ∧ Answered 0x81 stOk 0 (driftWords s.hub) c s t ∧ t.hub.age = s.hub.age) ∧
    (c.params.length = 1 → ∃ t, exec (.lifeRead c) s = .next t ∧ Answered 0x81 stOk 0 (planeWords s.hub (c.n 1)) c s t ∧ t.hub.age = s.hub.age) ∧
    (c.params.length = 2 → ∃ t, exec (.lifeRead c) s = .next t ∧
      Answered 0x81 stOk 0 ((List.range 8).flatMap (fun v => (binAt s.hub (c.n 1) (c.n 2 / 8 * 64 + v * 8 + c.n 2 % 8)).words)) c s t ∧ t.hub.age = s.hub.age))

/-- A reading out of its monitor's range fails the monitor; one in range is its value, with its TB, drift and minimum, a droop monitor's dips
and lowest supply and a path-delay monitor's worst slack going to its region. No other region changes. A residence tick adds 100 µs to
each plane, whole milliseconds entering the bin in force. The hourly evaluation adds each region's drift point. At a plan interval's end
the region's next plan, if there is one and no command has fixed the region, is formed, and sent where the mode says so; a plan whose ACK
does not come is withdrawn, and a probe whose PROBE_DONE does not come is closed. A persist writes the older copy of the image under the
next generation. (R342, R343, R344, R346, R350, R356, R357, R359, R360, R364, R365, R367) -/
def Obligations.AgeingEvents : Prop :=
  (∀ s (r : RegionNo) k (m : BitVec 3) v mn d old, ageRuns s.hub = true → getAt ((zone s.hub r.toNat).mons k) m.toNat {} = old → old.failed = false →
    (k = .pathDelay → s.env.tray = false → (region s.hub r.toNat).stopped = false) → r.toNat < s.hub.age.zones.length →
    (monInRange k v = false → ∃ t, exec (.monitorSample r k m v mn d) s = .next t ∧ (∀ q, q ≠ r.toNat → zone t.hub q = zone s.hub q) ∧
      zone t.hub r.toNat = (zone s.hub r.toNat).setMons k (setAt ((zone s.hub r.toNat).mons k) m.toNat { old with failed := true })) ∧
    (∀ new l, monInRange k v = true → old.read v mn (if k == .pathDelay then driftOf s.env s.hub r.toNat m.toNat v else missing) (nowNs s.hub) = new →
      (if old.value = some v then setAt ((zone s.hub r.toNat).mons k) m.toNat new else markChanged m.toNat (setAt ((zone s.hub r.toNat).mons k) m.toNat new)) = l →
      ∃ t, exec (.monitorSample r k m v mn d) s = .next t ∧ (∀ q, q ≠ r.toNat → zone t.hub q = zone s.hub q) ∧
        zone t.hub r.toNat = (match k with
          | .temperature => { zone s.hub r.toNat with temps := l }
          | .droop => { zone s.hub r.toNat with
              droops := l, dips := (zone s.hub r.toNat).dips + d, droopNow := (zone s.hub r.toNat).droopNow || decide (d > 0)
              vmin := some (match (zone s.hub r.toNat).vmin with
                | some x => min x mn
                | none => mn) }
          | .pathDelay => { zone s.hub r.toNat with
              paths := l
              smin := some (match (zone s.hub r.toNat).smin with
                | some x => min x v
                | none => v) }))) ∧
  (∀ s, alive s.hub = true → s.hub.age.lastTick + 100000 ≤ nowNs s.hub → s.hub.age.remUs.length = 9 → s.hub.age.planes.length = 9 →
    ∃ t, exec .residenceTick s = .next t ∧ t.hub.age.lastTick = nowNs s.hub / 100000 * 100000 ∧
      ∀ p, p < 9 → getAt t.hub.age.remUs p 0 = (getAt s.hub.age.remUs p 0 + 100) % 1000 ∧
        (binAt t.hub p (planeBin s.env s.hub p)).residence =
          (if getAt s.hub.age.remUs p 0 + 100 < 1000 then (binAt s.hub p (planeBin s.env s.hub p)).residence
           else sat 40 ((binAt s.hub p (planeBin s.env s.hub p)).residence + (getAt s.hub.age.remUs p 0 + 100) / 1000)) ∧
        ∀ c, c ≠ planeBin s.env s.hub p → binAt t.hub p c = binAt s.hub p c) ∧
  (∀ s, serving s.hub = true → s.hub.age.lastConc + 3600000000000 ≤ nowNs s.hub → s.hub.age.zones.length = 8 →
    ∃ t, exec .concentrationEval s = .next t ∧ t.hub.age.lastConc = nowNs s.hub ∧
      ∀ r, r < 8 → (zone t.hub r).hourly = ((zone s.hub r).hourly ++ [meanDrift s.hub r]).drop ((zone s.hub r).hourly.length + 1 - 720)) ∧
  (∀ s (r : RegionNo) next, serving s.hub = true → (zone s.hub r.toNat).lastPlan + s.hub.age.interval ≤ nowNs s.hub → r.toNat < s.hub.age.zones.length →
    (if (zone s.hub r.toNat).manual || decide (s.hub.age.mode = 0) then none else nextPlan s.hub r.toNat) = next →
    ∃ t, exec (.planInterval r) s = .next t ∧ (∀ q, q ≠ r.toNat → zone t.hub q = zone s.hub q) ∧
      t.hub.age.planSeq = s.hub.age.planSeq + (if next.isSome then 1 else 0) ∧
      zone t.hub r.toNat = { zone s.hub r.toNat with
        lastPlan := nowNs s.hub, smin := none, sminLast := (zone s.hub r.toNat).smin, probeFail := if next.isSome then false else (zone s.hub r.toNat).probeFail
        highFor := if (zone s.hub r.toNat).smin.any (fun x => decide (x > s.hub.age.sHigh)) then (zone s.hub r.toNat).highFor + s.hub.age.interval else 0
        sent := (match next with
          | some p => if s.hub.age.mode = 2 then some (planFor s.hub r.toNat p.1 p.2.1 p.2.2) else (zone s.hub r.toNat).sent
          | none => (zone s.hub r.toNat).sent) }) ∧
  (∀ s p, working s.hub = true → s.hub.age.ackDue.find? (fun p => decide (p.2 ≤ nowNs s.hub)) = some p → s.env.beaten evPlanAck p.2 (nowNs s.hub) = false →
    ∃ t, exec .planAckTimeout s = .next t ∧ t.hub.age.ackDue = s.hub.age.ackDue.filter (fun q => decide (q.1 ≠ p.1)) ∧
      ∀ r, (List.range 8).find? (fun r => (zone s.hub r).sent.any (fun x => decide (x.seq = p.1))) = some r → r < s.hub.age.zones.length →
        zone t.hub r = { zone s.hub r with sent := none }) ∧
  (∀ s q p, working s.hub = true → probeOf s.hub q = some p → p.notice + 1000000000 ≤ nowNs s.hub → s.env.beaten evProbeDone (p.notice + 1000000000) (nowNs s.hub) = false →
    ∃ t, exec (.probeTimeout q) s = .next t ∧ t.hub.age.probes = s.hub.age.probes.filter (fun x => decide (x.seq ≠ p.seq))) ∧
  (∀ s a bs, alive s.hub = true → s.hub.img.isSome = true → agePlaceOf s.hub ((s.hub.age.nvgen + 1).toNat % 2) = a → ageBytes (s.hub.age.nvgen + 1).toNat s.hub.age = bs →
    (s.hub.age.lastPersist + s.hub.age.persist ≤ nowNs s.hub → ∃ t, exec .ageingPersist s = .next t ∧ t.nv = s.nvAfter a bs ∧
      t.hub.age = { s.hub.age with nvgen := s.hub.age.nvgen + 1, changed := [], lastPersist := nowNs s.hub }) ∧
    (200 ≤ s.hub.age.changed.length → ∃ t, exec .ageingEarlyPersist s = .next t ∧ t.nv = s.nvAfter a bs ∧
      t.hub.age = { s.hub.age with nvgen := s.hub.age.nvgen + 1, changed := [], lastPersist := nowNs s.hub }))

/-- REC_READ answers the records of an area of Table 15.7 as many as fit the reply, or writes them all to memory when it may be written there
and is BAD_PARAM otherwise; an area that the role does not have is NOT_FOUND. It leaves every part of the hub but the answer as it was.
REC_MARK writes one record with the caller's value and its job, which joins the recorder's queue with the next RSEQ. (R487, R547, R552,
R570, R571) -/
def Obligations.RecorderCommands : Prop :=
  (∀ c s, passes opRecRead c s = true →
    (areaRecs s.env s.hub (c.n 1) (c.n 2) = none → ∃ t, exec (.recRead c) s = .next t ∧ Answered 0xA0 stNotFound 1 [] c s t) ∧
    (∀ l, areaRecs s.env s.hub (c.n 1) (c.n 2) = some l →
      (c.d 3 = 0 → ∃ t, exec (.recRead c) s = .next t ∧
        Answered 0xA0 stOk 0 ([w32 (((takeFit 1376 l).map List.length).sum), w32 (takeFit 1376 l).length] ++ bytesWords (takeFit 1376 l).flatten) c s t) ∧
      (c.d 3 ≠ 0 → writable s.hub (c.d 3) l.flatten.length = true → ∃ t, exec (.recRead c) s = .next t ∧
        Answered 0xA0 stOk 0 [w32 ((l.map List.length).sum), w32 l.length] c s t ∧ t.mem = s.memAfter (c.d 3) l.flatten) ∧
      (c.d 3 ≠ 0 → writable s.hub (c.d 3) l.flatten.length = false → ∃ t, exec (.recRead c) s = .next t ∧ Answered 0xA0 stBadParam 3 [] c s t))) ∧
  (∀ c s ch, passes opRecMark c s = true → c.req = .channel ch → (chan s.hub ch.toNat).rbuf = none → alive s.hub = true → s.hub.log.lossDue = 0 →
    s.hub.log.queue.length < 64 → ∃ t r, exec (.recMark c) s = .next t ∧ Answered 0xA1 stOk 0 [] c s t ∧ t.hub.log.queue = s.hub.log.queue ++ [r] ∧
      t.hub.log.rseq = s.hub.log.rseq + 1 ∧ r.type = 11 ∧ r.rseq = s.hub.log.rseq + 1 ∧ r.tb = BitVec.ofNat 64 (nowNs s.hub) ∧ r.entity = noEnt ∧
      r.payload = [c.w 1, if (ctxOf c s).tenant then ((ctxOf c s).job.getD 0).setWidth 32 else 0])

/-- The recorder takes the record that waits first into the bedrock area while that has room, and into the drift area afterwards, whose oldest
records then go. The mirror writes the next page of the records not yet in NV memory into the bedrock slot or the drift log, and counts
them as mirrored; behind a fatal record it writes all. An erase begins while less than 256 KiB are erased ahead, and when it is done one
sector more is. The records not yet sent go upward as one body, in die role in a packet and in tray role to the own record log; a member's
or other sender's body that arrives is appended to the record log with the sender's number. (R551, R552, R553, R554, R556, R557, R558,
R559, R563) -/
def Obligations.RecorderEvents : Prop :=
  (∀ s r l, alive s.hub = true → s.hub.log.queue = r :: l →
    (s.hub.log.full = false → sizeOf_ s.hub.log.bedrock + r.size ≤ 32768 → ∃ t, exec .recordAccept s = .next t ∧ t.hub.log = { s.hub.log with
      queue := l, urgent := s.hub.log.urgent || decide (r.sev = 3), bedrock := s.hub.log.bedrock ++ [{ r with took := nowNs s.hub }] }) ∧
    (s.hub.log.full = true ∨ 32768 < sizeOf_ s.hub.log.bedrock + r.size → ∃ t, exec .recordAccept s = .next t ∧ t.hub.log.full = true ∧
      t.hub.log.drift = (trimDrift (s.hub.log.drift ++ [{ r with took := nowNs s.hub }])).2 ∧ t.hub.log.bedrock = s.hub.log.bedrock)) ∧
  (∀ s r l seg bs, mirrorOn s.hub = true → unmirrored s.hub = r :: l → s.hub.log.urgent = false → 256 ≤ pendingBytes s.hub ∨ r.took + 10000000 ≤ nowNs s.hub →
    (r :: l).takeWhile (fun x => toSlot s.hub x == toSlot s.hub r) = seg → ((seg.flatMap Rec.bytes).drop s.hub.log.part).take 256 = bs →
    ∃ t, exec .mirrorPageWrite s = .next t ∧ t.hub.log.mirrored = (advance seg s.hub.log.mirrored (s.hub.log.part + bs.length)).1 ∧
      (toSlot s.hub r = true → t.hub.log.slotPtr = s.hub.log.slotPtr + 256 ∧
        t.nv = Mem.apply Mem.nvByte s.nv (nvPost (slotAddr s.hub s.hub.log.bootseq.toNat + s.hub.log.slotPtr) (padTo 256 bs) s.hub.clean).nvPosted) ∧
      (toSlot s.hub r = false → t.hub.log.slotPtr = s.hub.log.slotPtr ∧ t.nv = Mem.apply Mem.nvByte s.nv (appendDrift bs s.hub.clean).nvPosted)) ∧
  (∀ s r l, mirrorOn s.hub = true → unmirrored s.hub = r :: l → s.hub.log.urgent = true → ∃ t, exec .mirrorPageWrite s = .next t ∧
    t.hub.log.urgent = false ∧ t.hub.log.rseq = s.hub.log.rseq + 1 ∧ t.hub.log.bedrock = s.hub.log.bedrock ∧ t.hub.log.drift = s.hub.log.drift) ∧
  (∀ s, s.hub.log.nvOn = true → s.hub.log.erasing = false → s.hub.log.erased < 262144 → s.hub.sys.pfwLow = false → alive s.hub = true →
    ∃ t, exec .nvSectorErase s = .next t ∧ t.hub.log = { s.hub.log with erasing := true, suspended := false } ∧ t.nv = s.nv) ∧
  (∀ s, s.hub.log.erasing = true → s.hub.log.suspended = false → portOn s.hub = true → ∃ t, exec .nvEraseDone s = .next t ∧
    t.hub.log = { s.hub.log with erasing := false, erased := s.hub.log.erased + s.hub.log.sector } ∧
    t.nv = Mem.apply Mem.nvByte s.nv (nvErase s.env (driftAddr s.hub + (s.hub.log.nvptr * 256 + s.hub.log.erased) % s.hub.log.logSize) s.hub.log.sector s.hub.clean).nvPosted) ∧
  (∀ s r body, serving s.hub = true → (bodyOf (unsent s.hub) 0).getLast? = some r → (bodyOf (unsent s.hub) 0).flatMap Rec.bytes = body →
    (s.env.tray = false → queueFill s.hub + photenLen body ≤ 65536 → ∃ t, exec .recordUpload s = .next t ∧ t.hub.log.sent = r.rseq.toNat ∧ t.hub.log.soff = s.hub.log.soff + body.length ∧
      t.hub.fab.outq = s.hub.fab.outq ++ [{ type := 2, tc := 3, dst := BitVec.ofNat 18 (2 ^ 17 + (imgOf s.hub).tray), flow := 0
                                            soff := BitVec.ofNat 24 (s.hub.log.soff / 4 % 2 ^ 24), tb := nowNs s.hub, body := body }]) ∧
    (s.env.tray = true → ∀ a, trayLogAddr s.hub = some a → ∃ t n, exec .recordUpload s = .next t ∧ t.hub.log.sent = r.rseq.toNat ∧ t.hub.log.soff = s.hub.log.soff + body.length ∧
      t.hub.log.logSenders = s.hub.log.logSenders.filter (fun x => decide (x.1 ≠ nodeNo s.env s.hub)) ++ [(nodeNo s.env s.hub, (s.hub.log.soff / 4 % 2 ^ 24 + body.length / 4) % 2 ^ 24)] ∧
      (t.hub.log.logIndex.getLast?).map (fun x => (x.1, x.2.1)) = some n ∧ n = (((s.hub.log.logIndex.getLast?).map (fun x => x.1 + 1)).getD 0, s.hub.log.logPtr))) ∧
  (∀ s p port a, s.env.tray = true → photenOk s.env s.hub 2 p port.toNat = true → trayLogAddr s.hub = some a →
    ∃ t, exec (.photenRecordReceive p port) s = .next t ∧ t.hub.fab.accepted = s.hub.fab.accepted + 1 ∧
      t.hub.log.logSenders = s.hub.log.logSenders.filter (fun x => decide (x.1 ≠ (photenFields p).src)) ++
        [((photenFields p).src, ((photenFields p).soff + (photenFields p).body.length / 4) % 2 ^ 24)] ∧
      (t.hub.log.logIndex.getLast?).map (fun x => (x.1, x.2.1)) = some (((s.hub.log.logIndex.getLast?).map (fun x => x.1 + 1)).getD 0, s.hub.log.logPtr))

/-- At the root of a group, a BCAST_PREPARE with a BID that follows the group's last one holds the broadcast and starts its prepare phase, its
BID being the group's last; of a group without members it is answered at once. It is BUSY while four are held, REPLAY out of order,
BAD_PARAM where the vector cannot be written, and NOT_PERMITTED elsewhere than at the root. BCAST_COMMIT of a prepared broadcast starts
its commit or abort phase, after which it is no longer held; of a group without members it lets it go at once, of a broadcast not held it
is NOT_FOUND, and before the prepare phase has ended WRONG_STATE. (R398, R402, R403, R404, R406, R407) -/
def Obligations.BroadcastCommands : Prop :=
  (∀ c s, passes opBcastPrepare c s = true →
    (∀ g, groupOf s.hub (c.n 1) = some g → s.env.tray = true → g.root = myTray s.hub → photenShut s.hub g = false →
      ∀ up, ((Tab.find s.hub.bc.last (c.n 1)).map (fun l => ahead 16 (c.n 2) l.toNat)).getD 1 = up →
      (1 ≤ up → up ≤ 32767 →
        (4 ≤ s.hub.bc.held.length → exec (.bcastPrepare c) s = .next (s.settle (replyOnly s.env 0xB0 (ctxOf c s) stBusy s.hub.clean)) ∧
          (s.settle (replyOnly s.env 0xB0 (ctxOf c s) stBusy s.hub.clean)).hub.bc = s.hub.bc) ∧
        (s.hub.bc.held.length < 4 → g.dies = [] → ∃ t, exec (.bcastPrepare c) s = .next t ∧ Answered 0xB0 stOk 0 [0, 0, 0] c s t ∧
          t.hub.bc = { s.hub.bc with last := Tab.put s.hub.bc.last (c.n 1) (BitVec.ofNat 16 (c.n 2)), held := s.hub.bc.held ++ [{
            group := BitVec.ofNat 16 (c.n 1), bid := BitVec.ofNat 16 (c.n 2), window := c.w 3, cmd := wordsBytes (c.params.drop 5), back := .root, phase := 1, hold := nowNs s.hub }] }) ∧
        (s.hub.bc.held.length < 4 → g.dies ≠ [] → writable s.hub (c.d 4) 16384 = false → ∃ t, exec (.bcastPrepare c) s = .next t ∧
          Answered 0xB0 stBadParam 4 [] c s t ∧ t.hub.bc = s.hub.bc) ∧
        (s.hub.bc.held.length < 4 → g.dies ≠ [] → writable s.hub (c.d 4) 16384 = true → ∃ t p, exec (.bcastPrepare c) s = .next t ∧
          t.hub.bc.last = Tab.put s.hub.bc.last (c.n 1) (BitVec.ofNat 16 (c.n 2)) ∧ heldB t.hub (c.n 1) (c.n 2) = some p ∧ p.back = .root ∧ p.window = c.w 3 ∧
          p.cmd = wordsBytes (c.params.drop 5) ∧ p.dest = c.d 4 ∧ p.phase < 2)) ∧
      (up = 0 ∨ 32767 < up → ∃ t, exec (.bcastPrepare c) s = .next t ∧ Answered 0xB0 stReplay 0 [] c s t ∧ t.hub.bc = s.hub.bc)) ∧
    ((∀ g, groupOf s.hub (c.n 1) = some g → s.env.tray = false ∨ g.root ≠ myTray s.hub) → ∃ t, exec (.bcastPrepare c) s = .next t ∧
      Answered 0xB0 stNotPermitted 0 [] c s t ∧ t.hub.bc = s.hub.bc)) ∧
  (∀ c s, passes opBcastCommit c s = true →
    (∀ b, heldB s.hub (c.n 1) (c.n 2) = some b → b.back = .root → photenShut s.hub (groupB s.hub (c.n 1)) = false →
      (b.phase = 1 → (groupB s.hub (c.n 1)).dies = [] → ∃ t, exec (.bcastCommit c) s = .next t ∧ Answered 0xB1 stOk 0 [0, 0] c s t ∧
        t.hub.bc = { s.hub.bc with held := s.hub.bc.held.filter (fun y => !sameB b y) }) ∧
      (b.phase = 1 → (groupB s.hub (c.n 1)).dies ≠ [] → ∃ t, exec (.bcastCommit c) s = .next t ∧ t.hub.bc.last = s.hub.bc.last ∧
        (heldB t.hub (c.n 1) (c.n 2) = none ∨ ∃ p, heldB t.hub (c.n 1) (c.n 2) = some p ∧ p.phase = 2 ∧ p.abort = decide (c.n 3 = 1) ∧ p.cmd = b.cmd)) ∧
      (b.phase ≠ 1 → ∃ t, exec (.bcastCommit c) s = .next t ∧ Answered 0xB1 stWrongState 0 [] c s t ∧ t.hub.bc = s.hub.bc)) ∧
    ((∀ b, heldB s.hub (c.n 1) (c.n 2) = some b → b.back ≠ .root) → ∃ t, exec (.bcastCommit c) s = .next t ∧ Answered 0xB1 stNotFound 2 [] c s t ∧ t.hub.bc = s.hub.bc))

/-- A PREPARE that arrives for a broadcast not known here is held, checked at a member, and goes on to the blocks below; a copy of one
answered is answered as before, and a fifth or one too old is refused. An answer that is awaited joins the answers gathered, any other is
counted as late. At its deadline a die answers with what it has, and a tray first asks the members without an answer on their alternate
routes and then ends its part without them. A COMMIT applies a member's prepared command at once or at the end of its window unless the
member is excluded, an ABORT applies nothing, and both go on to the blocks below. A command prepared longer than the hold time is let go.
(R399, R400, R401, R402, R404, R405, R407, R472) -/
def Obligations.BroadcastMessages : Prop :=
  (∀ s m x, bcastMsg s.env s.hub m = some x → x.msg.phase = 0 → fromAbove s.env x = true →
    (heldB s.hub x.msg.group x.msg.bid = none → seenB s.hub x.msg.group x.msg.bid = none → tooOld s.hub x.msg.group x.msg.bid = false → s.hub.bc.held.length < 4 →
      ∃ t p, exec (.bcastPrepareReceive m) s = .next t ∧ heldB t.hub x.msg.group x.msg.bid = some p ∧ p.phase < 2 ∧ p.back = x.back ∧ p.window = BitVec.ofNat 32 x.msg.window ∧
        p.cmd = x.msg.data.take x.msg.count ∧ p.hold = nowNs s.hub ∧ p.member = (!s.env.tray && (groupB s.hub x.msg.group).dies.contains (dieNo s.env s.hub))) ∧
    ((heldB s.hub x.msg.group x.msg.bid).isSome = true ∨ (seenB s.hub x.msg.group x.msg.bid).isSome = true → ∃ t, exec (.bcastPrepareReceive m) s = .next t ∧ t.hub.bc = s.hub.bc ∧
      ∀ bytes y n, (seenB s.hub x.msg.group x.msg.bid).bind BcastSeen.prep = some bytes → readBMsg bytes = some y → x.back = .photen n →
        t.hub.fab.outq = s.hub.fab.outq ++ [{ type := 1, tc := 1, dst := BitVec.ofNat 18 n.toNat, flow := BitVec.ofNat 16 y.group, soff := 0, tb := nowNs s.hub, body := y.bytes }]) ∧
    (heldB s.hub x.msg.group x.msg.bid = none → seenB s.hub x.msg.group x.msg.bid = none → tooOld s.hub x.msg.group x.msg.bid = true ∨ 4 ≤ s.hub.bc.held.length →
      ∃ t, exec (.bcastPrepareReceive m) s = .next t ∧ t.hub.bc = s.hub.bc)) ∧
  (∀ s m x, bcastMsg s.env s.hub m = some x → x.msg.phase = 1 ∨ x.msg.phase = 3 →
    ((∀ b, heldB s.hub x.msg.group x.msg.bid = some b → b.phase ≠ x.msg.phase - 1) → ∃ t, exec (.bcastAckReceive m) s = .next t ∧
      t.hub.bc = { s.hub.bc with lateAcks := s.hub.bc.lateAcks + 1 }) ∧
    (∀ b, heldB s.hub x.msg.group x.msg.bid = some b → b.phase = x.msg.phase - 1 →
      (∀ r, x.back = .sb r → (s.env.tray && decide (b.tree = 2)) = false → ∃ t, exec (.bcastAckReceive m) s = .next t ∧ t.hub.bc.lateAcks = s.hub.bc.lateAcks ∧
        ((2 ≤ b.phase ∧ heldB t.hub x.msg.group x.msg.bid = none) ∨ ∃ p, heldB t.hub x.msg.group x.msg.bid = some p ∧ p.awaitD = b.awaitD.filter (fun d => decide (d ≠ x.src)) ∧
          p.ackD = unionNat b.ackD (dieMask s.hub x 0) ∧ p.refD = unionNat b.refD (dieMask s.hub x 16))) ∧
      (∀ n ts, x.back = .photen n → b.awaitT.filter (fun y => decide (y = x.src - 2 ^ 17) || decide (viaComb (groupB s.hub x.msg.group) y = some (x.src - 2 ^ 17))) = ts →
        (ts = [] → ∃ t, exec (.bcastAckReceive m) s = .next t ∧ t.hub.bc = { s.hub.bc with lateAcks := s.hub.bc.lateAcks + 1 }) ∧
        (ts ≠ [] → ∃ t, exec (.bcastAckReceive m) s = .next t ∧ t.hub.bc.lateAcks = s.hub.bc.lateAcks ∧
          ((2 ≤ b.phase ∧ heldB t.hub x.msg.group x.msg.bid = none) ∨ ∃ p, heldB t.hub x.msg.group x.msg.bid = some p ∧ p.ackT = b.ackT ++ maskOf x.msg.data 0 128 ts ∧
            p.refT = b.refT ++ maskOf x.msg.data 16 128 ts ∧ p.covered = b.covered + x.msg.count ∧ p.refused = b.refused + x.msg.status))))) ∧
  (∀ s (g d : BitVec 16) b, heldB s.hub g.toNat d.toNat = some b → upState s.hub = true → dueB s.hub b = true → s.env.beaten evBcast (deadlineB b) (nowNs s.hub) = false →
    (s.env.tray = false → b.treeDue ≤ nowNs s.hub → ∃ t, exec (.bcastAckDeadline g d) s = .next t ∧
      ((b.phase = 2 ∧ heldB t.hub g.toNat d.toNat = none) ∨ ∃ p, heldB t.hub g.toNat d.toNat = some p ∧ p.phase = 1 ∧ p.asked = b.asked)) ∧
    (s.env.tray = true → b.tree = 0 → b.treeDue ≤ nowNs s.hub → lackingD s.hub b ≠ [] → 0 < s.hub.bc.tack → b.awaitT = [] ∨ nowNs s.hub < b.upDue →
      ∃ t, exec (.bcastAckDeadline g d) s = .next t ∧ heldB t.hub g.toNat d.toNat = some { b with tree := 1, treeDue := nowNs s.hub + 2 * s.hub.bc.tack }) ∧
    (s.env.tray = true → b.tree = 1 → b.treeDue ≤ nowNs s.hub → b.awaitT = [] → ∃ t, exec (.bcastAckDeadline g d) s = .next t ∧
      ((b.phase = 2 ∧ heldB t.hub g.toNat d.toNat = none) ∨ ∃ p, heldB t.hub g.toNat d.toNat = some p ∧ p.phase = 1 ∧ p.exD = lackingD s.hub b ++ b.refD))) ∧
  (∀ s m x b, bcastMsg s.env s.hub m = some x → fromAbove s.env x = true → heldB s.hub x.msg.group x.msg.bid = some b → b.phase < 2 →
    (x.msg.phase = 4 ∨ (x.msg.phase = 2 ∧ (s.env.tray = true ∨ b.member = false ∨ 1 < b.status.toNat)) → ∃ t, exec (if x.msg.phase = 4 then .bcastAbortReceive m else .bcastCommitReceive m) s = .next t ∧
      t.hub.bc.apply = s.hub.bc.apply ∧ (heldB t.hub x.msg.group x.msg.bid = none ∨ ∃ p, heldB t.hub x.msg.group x.msg.bid = some p ∧ p.phase = 2 ∧ p.abort = decide (x.msg.phase = 4) ∧
        p.back = x.back)) ∧
    (∀ out, (bitOf (beAt x.msg.data 0 128) (dieNo s.env s.hub / 128 % 1024) || bitOf (beAt x.msg.data 128 16) (dieNo s.env s.hub % 128)) = out → x.msg.phase = 2 → s.env.tray = false →
      b.member = true → b.status.toNat ≤ 1 →
      (out = true → ∃ t, exec (.bcastCommitReceive m) s = .next t ∧ t.hub.bc.apply = s.hub.bc.apply) ∧
      (out = false → b.window ≠ 0 → windowEnded s.hub b.window = false → ∃ t, exec (.bcastCommitReceive m) s = .next t ∧ t.hub.bc.apply = s.hub.bc.apply ++ [(b.window, b.cmd)]) ∧
      (out = false → b.window = 0 ∨ windowEnded s.hub b.window = true → ∃ k y, Only [.xs, .fab, .sb] s.hub.clean k ∧ y.group = b.group ∧ y.bid = b.bid ∧ y.phase = 2 ∧ y.ackD = [dieNo s.env s.hub] ∧
        exec (.bcastCommitReceive m) s = .next (s.settle (advanceB s.env y (applyEmbedded s.env b.cmd k)))))) ∧
  (∀ s (g d : BitVec 16) b, heldB s.hub g.toNat d.toNat = some b → upState s.hub = true → b.back ≠ .root → b.phase < 2 → b.hold + s.hub.bc.hold ≤ nowNs s.hub →
    s.env.beaten evCommit (b.hold + s.hub.bc.hold) (nowNs s.hub) = false → ∃ t, exec (.prepareHoldExpiry g d) s = .next t ∧
      t.hub.bc = { s.hub.bc with held := s.hub.bc.held.filter (fun y => !sameB b y) })

/-- JOB_MEMBERS SET, ADD and REMOVE are OK and put their change behind those of its window and earlier ones; the membership changes at that
window's end, the one named or the one in progress. A named window that has ended is WRONG_STATE, a job that has no membership then is
NOT_FOUND for ADD and REMOVE, and so is a die to be removed that is not listed. READ answers a job's membership in the layout of SET, and
NOT_FOUND without one; it changes nothing. (R408, R409, R480) -/
def Obligations.JobCommands : Prop :=
  (∀ c s x w, passes opJobSet (withOp 0 c) s = true → ctxOf (withOp 0 c) s = x → lastWindow x (setDw x + setD x) = w →
    (w.any (windowEnded s.hub) = false → ∃ t, exec (.jobMembersSet c) s = .next t ∧ Answered 0xB2 stOk 0 [] (withOp 0 c) s t ∧
      t.hub.jobs = { s.hub.jobs with waiting := queueChange (s.hub.casc.window % 2 ^ 32) (w.elim (s.hub.casc.window % 2 ^ 32) BitVec.toNat) (BitVec.ofNat 16 (x.n 2)) (.set { group := BitVec.ofNat 16 (x.n 3), root := x.n 4, combiners := setCombs x, dies := (dieEntries x (setDw x + 1) (setD x)).map (fun p => dieEntry p.2) }) s.hub.jobs.waiting }) ∧
    (w.any (windowEnded s.hub) = true → ∃ t, exec (.jobMembersSet c) s = .next t ∧ Answered 0xB2 stWrongState 0 [] (withOp 0 c) s t ∧ t.hub.jobs = s.hub.jobs)) ∧
  (∀ c s x w, passes (opJobList false) (withOp 1 c) s = true → ctxOf (withOp 1 c) s = x → lastWindow x (3 + x.n 3) = w →
    (Tab.find (projected s.hub) (x.n 2) = none → ∃ t, exec (.jobMembersAdd c) s = .next t ∧ Answered 0xB2 stNotFound 2 [] (withOp 1 c) s t ∧ t.hub.jobs = s.hub.jobs) ∧
    (∀ y, Tab.find (projected s.hub) (x.n 2) = some y →
      (w.any (windowEnded s.hub) = false → ∃ t, exec (.jobMembersAdd c) s = .next t ∧ Answered 0xB2 stOk 0 [] (withOp 1 c) s t ∧
        t.hub.jobs = { s.hub.jobs with waiting := queueChange (s.hub.casc.window % 2 ^ 32) (w.elim (s.hub.casc.window % 2 ^ 32) BitVec.toNat) (BitVec.ofNat 16 (x.n 2)) (.add ((dieEntries x 4 (x.n 3)).map (fun p => dieEntry p.2))) s.hub.jobs.waiting }) ∧
      (w.any (windowEnded s.hub) = true → ∃ t, exec (.jobMembersAdd c) s = .next t ∧ Answered 0xB2 stWrongState 0 [] (withOp 1 c) s t ∧ t.hub.jobs = s.hub.jobs))) ∧
  (∀ c s x w, passes (opJobList true) (withOp 2 c) s = true → ctxOf (withOp 2 c) s = x → lastWindow x (3 + x.n 3) = w →
    (Tab.find (projected s.hub) (x.n 2) = none → ∃ t, exec (.jobMembersRemove c) s = .next t ∧ Answered 0xB2 stNotFound 2 [] (withOp 2 c) s t ∧ t.hub.jobs = s.hub.jobs) ∧
    (∀ y, Tab.find (projected s.hub) (x.n 2) = some y →
      (∀ p, (dieEntries x 4 (x.n 3)).find? (fun p => !y.dies.any (fun d => decide (d.die = (dieEntry p.2).die))) = some p → ∃ t, exec (.jobMembersRemove c) s = .next t ∧
        Answered 0xB2 stNotFound p.1 [] (withOp 2 c) s t ∧ t.hub.jobs = s.hub.jobs) ∧
      ((dieEntries x 4 (x.n 3)).find? (fun p => !y.dies.any (fun d => decide (d.die = (dieEntry p.2).die))) = none →
        (w.any (windowEnded s.hub) = false → ∃ t, exec (.jobMembersRemove c) s = .next t ∧ Answered 0xB2 stOk 0 [] (withOp 2 c) s t ∧
          t.hub.jobs = { s.hub.jobs with waiting := queueChange (s.hub.casc.window % 2 ^ 32) (w.elim (s.hub.casc.window % 2 ^ 32) BitVec.toNat) (BitVec.ofNat 16 (x.n 2)) (.remove ((dieEntries x 4 (x.n 3)).map (fun p => (dieEntry p.2).die))) s.hub.jobs.waiting }) ∧
        (w.any (windowEnded s.hub) = true → ∃ t, exec (.jobMembersRemove c) s = .next t ∧ Answered 0xB2 stWrongState 0 [] (withOp 2 c) s t ∧ t.hub.jobs = s.hub.jobs)))) ∧
  (∀ c s, passes opJobRead (withOp 3 c) s = true →
    (∀ x, jobAt s.hub (BitVec.ofNat 16 ((withOp 3 c).n 2)) = some x → ∃ t, exec (.jobMembersRead c) s = .next t ∧ Answered 0xB2 stOk 0 ((jobWords x).take 346) (withOp 3 c) s t ∧ t.hub.jobs = s.hub.jobs) ∧
    (jobAt s.hub (BitVec.ofNat 16 ((withOp 3 c).n 2)) = none → ∃ t, exec (.jobMembersRead c) s = .next t ∧ Answered 0xB2 stNotFound 2 [] (withOp 3 c) s t ∧ t.hub.jobs = s.hub.jobs))

/-- A relayed packet for this block acts as the command it carries; one for a member die is kept as a relay with the next RID, the requester
and its deadline, and goes to the die. A relay without a reply at its deadline is dropped, and its requester gets TIMEOUT. A die takes a
COMMAND message from its own tray as a packet, and counts one from any other. An envelope that is out of form, authenticates under no slot
or repeats a SEQ is counted as such; any other consumes its SEQ and its packet is taken as the slot's. (R432, R433, R435, R469, R470,
R471) -/
def Obligations.RelaysAndEnvelopes : Prop :=
  (∀ s (op : Byte) c d, opIn opcodes op.toNat c.params = some d →
    (∃ t, exec (.relayCommand op c) s = .next t ∧ s.runOp d c = .next t) ∧
    (∀ dj, reqDom s.env s.hub c.req = some dj → c.params.length ≤ 348 → c.target ≠ 0x3FFFF → c.target.toNat ≠ nodeNo s.env s.hub → memberDie s.env s.hub c.target.toNat = true →
      d.may (mkCtx c dj) = true → (dj.1 == .tenant && dj.2.isNone) = false → (dj.1 == .boot) = false →
      (s.hub.cmd.relays.length < 64 → ∃ t, exec (.relayCommand op c) s = .next t ∧ t.hub.cmd.rid = (if s.hub.cmd.rid + 1 = 0 then 1 else s.hub.cmd.rid + 1) ∧
        t.hub.cmd.relays = s.hub.cmd.relays ++ [{
          rid := if s.hub.cmd.rid + 1 = 0 then 1 else s.hub.cmd.rid + 1, die := c.target.toNat, req := c.req, opcode := BitVec.ofNat 8 d.code, cseq := c.cseq
          domain := BitVec.ofNat 2 (domCode dj.1), due := nowNs s.hub + s.hub.cmd.relayTimeout }]) ∧
      (64 ≤ s.hub.cmd.relays.length → ∃ t, exec (.relayCommand op c) s = .next t ∧ t.hub.cmd.relays = s.hub.cmd.relays ∧
        t = s.settle (replyOnly s.env d.code (mkCtx c dj) stBusy s.hub.clean)))) ∧
  (∀ s (op : Byte) c dj, opIn opcodes op.toNat c.params = none → reqDom s.env s.hub c.req = some dj →
    exec (.relayCommand op c) s = .next (s.settle (refusePacket s.env c.req dj op.toNat c.cseq stBadOpcode s.hub.clean))) ∧
  (∀ s rid r, s.hub.cmd.relays.find? (fun r => decide (r.rid = rid)) = some r → alive s.hub = true → r.due ≤ nowNs s.hub → s.env.beaten evSbReply r.due (nowNs s.hub) = false →
    ∃ t, exec (.relayTimeout rid) s = .next t ∧ t.hub.cmd.relays = s.hub.cmd.relays.filter (fun q => decide (q.rid ≠ rid)) ∧
      ∀ ch x, r.req = .channel ch → chanOn s.hub ch.toNat = true → s.hub.cmd.chans[ch.toNat]? = some x → x.rbuf = none → ∃ y, t.hub.cmd.chans[ch.toNat]? = some y ∧
        y.rbuf = some (readReply (replyBytes (mkReply r.opcode.toNat r.cseq stTimeout r.domain.toNat 0 [] s.hub)))) ∧
  (∀ s (port : BitVec 4) f, s.env.tray = false →
    (∀ bs code order cseq target ps d, sbMessage s.env s.hub 6 port.toNat f = some bs → ownTray s.hub f.src = true → 8 ≤ bs.length → parsePacket (bs.drop 8) = .good code order cseq target ps →
      opIn opcodes code ps = some d → ∃ k, Only [.sb] s.hub.clean k ∧ exec (.sbCommandReceive port f) s = .next (s.settle (runCmd d s.env {
        req := .relay (BitVec.ofNat 4 (bitsOf (beAt bs 4 4) 27 24)) (domOf (bitsOf (beAt bs 0 4) 31 30)) (BitVec.ofNat 16 (beAt bs 0 4)) (BitVec.ofNat 24 (beAt bs 4 4))
        order := order, cseq := cseq, target := target, params := ps } k))) ∧
    (sbOk s.env s.hub 6 port.toNat f = true → sbMine s.env f = true → ownTray s.hub f.src = false → ∃ t, exec (.sbCommandReceive port f) s = .next t ∧ t.hub.sb.notTray = s.hub.sb.notTray + 1)) ∧
  (∀ s b p, mgtRuns s.env s.hub = true → s.hub.sys.st ≠ .config → segOn (seg s.hub b) = true →
    (envelopeForm p = false → ∃ t, exec (.mgmtEnvelopeReceive b p) s = .next t ∧ t.hub.mgt.stranger = s.hub.mgt.stranger + 1) ∧
    (envelopeForm p = true → envelopeKey s.hub p = none → ∃ t, exec (.mgmtEnvelopeReceive b p) s = .next t ∧ t.hub.mgt.authfail = s.hub.mgt.authfail + 1 ∧ t.hub.cmd = s.hub.cmd) ∧
    (∀ k, envelopeForm p = true → envelopeKey s.hub p = some k →
      ((b && twinOnA s.env s.hub p) = true ∨ seqWindow k (beAt p 4 8) = none → ∃ t, exec (.mgmtEnvelopeReceive b p) s = .next t ∧ t.hub.mgt.replay = s.hub.mgt.replay + 1) ∧
      (∀ k', (b && twinOnA s.env s.hub p) = false → seqWindow k (beAt p 4 8) = some k' → ∃ K, Only [.mgt, .cmd] s.hub.clean K ∧ K.mgt.ok = s.hub.mgt.ok + 1 ∧
        K.cmd = { s.hub.cmd with keys := Tab.put s.hub.cmd.keys (bitsOf (beAt p 0 4) 23 16) k' } ∧
        exec (.mgmtEnvelopeReceive b p) s = .next (s.settle (packetIn opcodes s.env (.key (BitVec.ofNat 3 (bitsOf (beAt p 0 4) 23 16)) b) ((p.drop 16).take (p.length - 32)) K)))))

/-- The packet at the head of the output queue is sent with the next MSEQ of its class when the bucket pays its length, is discarded when it
is of TC3 and the bucket does not, and waits otherwise. A die sends its heartbeat a period after the last, on the alternate route every
eighth time; a packet's heartbeat becomes the tray's record of the die. A member die not heard for four periods is lost, counted and
reported; a die without SYNC for four intervals has lost its tray, and forgets the sequence states of its relay origins. (R376, R378,
R379, R381, R392, R393, R463) -/
def Obligations.PhotenQueueAndHeartbeats : Prop :=
  (∀ s, txHead s.hub = none → exec .photenTxHead s = .next (s.settle s.hub.clean)) ∧
  (∀ s p, txHead s.hub = some p → working s.hub = true →
    (1024 * photenLen p.body ≤ bucketNow s.hub → ∃ t, exec .photenTxHead s = .next t ∧ t.hub.fab = { s.hub.fab with
      outq := s.hub.fab.outq.erase p, tx := s.hub.fab.tx + 1, bucket := bucketNow s.hub - 1024 * photenLen p.body, filled := nowNs s.hub
      mseq := setAt s.hub.fab.mseq p.tc.toNat (getAt s.hub.fab.mseq p.tc.toNat 0 + 1), fresh := setAt s.hub.fab.fresh p.tc.toNat (getAt s.hub.fab.fresh p.tc.toNat 0 - 1)
      sent := s.hub.fab.sent ++ [photenBytes p (nodeNo s.env s.hub) (getAt s.hub.fab.mseq p.tc.toNat 0).toNat false (decide (getAt s.hub.fab.fresh p.tc.toNat 0 > 0))] }) ∧
    (bucketNow s.hub < 1024 * photenLen p.body → p.tc = 3 → ∃ t, exec .photenTxHead s = .next t ∧
      t.hub.fab = { s.hub.fab with outq := s.hub.fab.outq.erase p, red := s.hub.fab.red + 1, bucket := bucketNow s.hub, filled := nowNs s.hub }) ∧
    (bucketNow s.hub < 1024 * photenLen p.body → p.tc ≠ 3 → exec .photenTxHead s =
      .next (s.settle { s.hub.clean with fab := { s.hub.fab with bucket := bucketNow s.hub, filled := nowNs s.hub } }))) ∧
  (∀ s p port, photenOk s.env s.hub 5 p port.toNat = true → s.env.tray = true → memberDie s.env s.hub (readHeartbeat (photenFields p).body).die.toNat = true →
    ∃ t m, exec (.photenHeartbeatReceive p port) s = .next t ∧ t.hub.fab.accepted = s.hub.fab.accepted + 1 ∧
      m = member s.hub (readHeartbeat (photenFields p).body).die.toNat ∧
      member t.hub (readHeartbeat (photenFields p).body).die.toNat = { m with
        last := nowNs s.hub, state := (readHeartbeat (photenFields p).body).state, quality := (readHeartbeat (photenFields p).body).quality, playa := (readHeartbeat (photenFields p).body).playa
        ports := (readHeartbeat (photenFields p).body).ports, offset := (readHeartbeat (photenFields p).body).offset, waiting := (readHeartbeat (photenFields p).body).waiting
        lost := false, sent := m.sent.filter (fun v => decide (v.msg.seq ≠ (readHeartbeat (photenFields p).body).verdictSeq)) } ∧
      t.hub.sb.changed = (if m.ports = (readHeartbeat (photenFields p).body).ports then s.hub.sb.changed else some (s.hub.sb.changed.getD (nowNs s.hub)))) ∧
  (∀ s, s.env.tray = false → sbRuns s.hub = true → s.hub.sb.lastBeat + s.hub.sb.beatPeriod ≤ nowNs s.hub →
    ∃ t, exec .heartbeatSend s = .next t ∧ t.hub.sb.beat = s.hub.sb.beat + 1 ∧ t.hub.sb.lastBeat = nowNs s.hub ∧
      t = s.settle (sbUp s.env (some (decide ((s.hub.sb.beat + 1) % 8 = 0))) { ftype := 4, payload := .heartbeat (heartbeatNow s.env s.hub) }
        { s.hub.clean with sb := { s.hub.sb with beat := s.hub.sb.beat + 1, lastBeat := nowNs s.hub } })) ∧
  (∀ s (die : BitVec 7) d, d = (imgOf s.hub).tray * 128 + die.toNat → memberDie s.env s.hub d = true → sbRuns s.hub = true → (member s.hub d).lost = false →
    (member s.hub d).last + 4 * s.hub.sb.beatPeriod ≤ nowNs s.hub → s.env.beaten (evHeartbeat d) ((member s.hub d).last + 4 * s.hub.sb.beatPeriod) (nowNs s.hub) = false →
    ∃ t, exec (.dieLost die) s = .next t ∧ (member t.hub d) = { member s.hub d with lost := true } ∧ t.hub.sb.dieLosses = s.hub.sb.dieLosses + 1 ∧
      t.hub.reports = s.hub.reports ++ [{ tc := 0, kind := .dieLost, entity := dieId d, vals := [], tb := nowNs s.hub }]) ∧
  (∀ s, s.env.tray = false → sbRuns s.hub = true → s.hub.sb.trayLost = false → s.hub.sb.lastSync + 4 * s.hub.time.syncInt ≤ nowNs s.hub →
    s.env.beaten evSync (s.hub.sb.lastSync + 4 * s.hub.time.syncInt) (nowNs s.hub) = false →
    ∃ t, exec .trayLost s = .next t ∧ t.hub.sb = { s.hub.sb with trayLost := true, trayLosses := s.hub.sb.trayLosses + 1 } ∧
      t.hub.cmd = { s.hub.cmd with seqs := s.hub.cmd.seqs.filter (fun q => decide (q.1 < 32)) })

/-- Idles train a port that is DOWN, and it sends its HELLO; a HELLO takes it UP, DOWN and MISWIRED where the mesh map expects another node,
or marks its neighbour dormant. A port that goes DOWN restarts its link and loses what it held. An acknowledgement lets its frames go;
frames without one for 20 us go out again, and after the eighth time the port is DOWN. A port asks for the link delay, answers its
neighbour, and keeps the last 16 measurements. (R384, R385, R386, R395, R397) -/
def Obligations.SidebandPorts : Prop :=
  (∀ s (port : BitVec 4) p, p = sbPort s.hub port.toNat → sbRuns s.hub = true → (sbPorts s.env).contains port.toNat = true → port.toNat < s.hub.sb.ports.length → p.state = 0 → p.miswired = false →
    ∃ t, exec (.sbIdlesTrain port) s = .next t ∧ sbPort t.hub port.toNat = { p with state := 1, dormant := false, idles := false, last := some {
      ftype := 1, src := BitVec.ofNat 18 (nodeNo s.env s.hub), lseq := 0, lack := p.rseq, payload := .hello (BitVec.ofNat 18 (nodeNo s.env s.hub)) false } }) ∧
  (∀ s (port : BitVec 4) f node dorm p, p = sbPort s.hub port.toNat → sbOk s.env s.hub 1 port.toNat f = true → f.payload = .hello node dorm → port.toNat < s.hub.sb.ports.length → p.state ≠ 0 →
    ((meshKnown s.hub && expected s.env s.hub port.toNat != some node.toNat) = true → ∃ t, exec (.sbHelloReceive port f) s = .next t ∧
      (sbPort t.hub port.toNat).state = 0 ∧ (sbPort t.hub port.toNat).miswired = true ∧ (sbPort t.hub port.toNat).queue = [] ∧ (sbPort t.hub port.toNat).unacked = [] ∧ t.hub.sb.downs = s.hub.sb.downs + 1) ∧
    ((meshKnown s.hub && expected s.env s.hub port.toNat != some node.toNat) = false → ∃ t, exec (.sbHelloReceive port f) s = .next t ∧
      (sbPort t.hub port.toNat).line = (if dorm then { p with dormant := true } else { p with state := 2 }).line ∧ t.hub.sb.downs = s.hub.sb.downs)) ∧
  (∀ s (port : BitVec 4) (cause : BitVec 2) p, p = sbPort s.hub port.toNat → sbRuns s.hub = true → (sbPorts s.env).contains port.toNat = true → port.toNat < s.hub.sb.ports.length → p.state ≠ 0 →
    ∃ t, exec (.sbPortDown port cause) s = .next t ∧ sbPort t.hub port.toNat = { p with state := 0, queue := [], unacked := [], lseq := 0, rseq := 0, resent := 0, ackDue := none, t1 := none } ∧
      t.hub.sb.downs = s.hub.sb.downs + 1 ∧ t.hub.sb.undeliv = s.hub.sb.undeliv + (p.queue.length + p.unacked.length) ∧ t.hub.sb.code = (if cause = 0 then s.hub.sb.code + 17 else s.hub.sb.code)) ∧
  (∀ s (port : BitVec 4) f p g gs, p = sbPort s.hub port.toNat → sbOk s.env s.hub 0 port.toNat f = true → port.toNat < s.hub.sb.ports.length → p.queue = [] → p.unacked = g :: gs →
    0 < ahead 8 f.lack.toNat (g.lseq - 1).toNat → ahead 8 f.lack.toNat (g.lseq - 1).toNat ≤ p.unacked.length →
    ∃ t, exec (.sbAckReceive port f) s = .next t ∧ t.hub.sb.rxFrames = s.hub.sb.rxFrames + 1 ∧ sbPort t.hub port.toNat = { p with
      unacked := p.unacked.drop (ahead 8 f.lack.toNat (g.lseq - 1).toNat), resent := 0
      ackDue := if (p.unacked.drop (ahead 8 f.lack.toNat (g.lseq - 1).toNat)).isEmpty then none else some (nowNs s.hub + 20000) }) ∧
  (∀ s (port : BitVec 4) p due, p = sbPort s.hub port.toNat → sbRuns s.hub = true → port.toNat < s.hub.sb.ports.length → p.state = 2 → p.dormant = false → p.unacked ≠ [] → p.ackDue = some due → due ≤ nowNs s.hub →
    s.env.beaten (evSbAck port.toNat) due (nowNs s.hub) = false →
    (p.resent < 8 → ∃ t, exec (.sbRetransmitTimeout port) s = .next t ∧ sbPort t.hub port.toNat = { p with resent := p.resent + 1, ackDue := some (nowNs s.hub + 20000), last := p.unacked.getLast? } ∧
      t.hub.sb.retry = s.hub.sb.retry + p.unacked.length ∧ t.hub.sb.txFrames = s.hub.sb.txFrames + p.unacked.length) ∧
    (8 ≤ p.resent → ∃ t, exec (.sbRetransmitTimeout port) s = .next t ∧ (sbPort t.hub port.toNat).state = 0 ∧ (sbPort t.hub port.toNat).unacked = [] ∧ t.hub.sb.downs = s.hub.sb.downs + 1)) ∧
  (∀ s (port : BitVec 4) p, p = sbPort s.hub port.toNat → sbRuns s.hub = true → (sbPorts s.env).contains port.toNat = true → port.toNat < s.hub.sb.ports.length → p.state = 2 → p.dormant = false →
    p.lastPd + s.hub.sb.pdelay ≤ nowNs s.hub →
    ∃ t, exec (.pdelayInterval port) s = .next t ∧ sbPort t.hub port.toNat = { p with t1 := some (nowNs s.hub), lastPd := nowNs s.hub, last := some {
      ftype := 2, src := BitVec.ofNat 18 (nodeNo s.env s.hub), lseq := 0, lack := p.rseq, payload := .pdelayReq } }) ∧
  (∀ s (port : BitVec 4) f, sbOk s.env s.hub 2 port.toNat f = true → port.toNat < s.hub.sb.ports.length →
    ∃ t, exec (.sbPdelayReqReceive port f) s = .next t ∧ (sbPort t.hub port.toNat).last = some {
      ftype := 3, src := BitVec.ofNat 18 (nodeNo s.env s.hub), lseq := 0, lack := (sbPort s.hub port.toNat).rseq, payload := .pdelayResp (BitVec.ofNat 64 (nowNs s.hub)) (BitVec.ofNat 64 (nowNs s.hub)) }) ∧
  (∀ s (port : BitVec 4) f t1 t2 t3, sbOk s.env s.hub 3 port.toNat f = true → port.toNat < s.hub.sb.ports.length → f.payload = .pdelayResp t2 t3 → (sbPort s.hub port.toNat).t1 = some t1 →
    ∃ t, exec (.sbPdelayRespReceive port f) s = .next t ∧ (sbPort t.hub port.toNat).t1 = none ∧ (sbPort t.hub port.toNat).delays =
      ((sbPort s.hub port.toNat).delays ++ [(((nowNs s.hub : Int) - t1) - ((t3.toNat : Int) - t2.toNat)) / 2]).drop ((sbPort s.hub port.toNat).delays.length + 1 - 16))

/-- A routed frame that is not for this die goes out on the port its route names, one hop on; a flooded one seen for the first time goes out
on every other port that is UP, one hop less to live. The last block before a dormant die sends it idles. Fragments incomplete 1 ms after
the first are dropped. A heartbeat becomes the tray's record of the die; a verdict not received before waits for the next scan boundary;
one not echoed goes out again; a reply goes to the requester of its relay, and one without a relay is counted. (R384, R389, R390, R392,
R394, R397, R469, R470, R646) -/
def Obligations.SidebandFrames : Prop :=
  (∀ s (port : BitVec 4) f, s.env.tray = false → sbOk s.env s.hub f.ftype.toNat port.toNat f = true → 4 ≤ f.ftype.toNat →
    (f.flood = false → sbMine s.env f = false → f.hop.toNat < 16 → ∃ k, Frames s.hub.clean k ∧ exec (.sbFrameForward port f) s =
      .next (s.settle (sbOut (bitsOf f.route.toNat (31 - 2 * f.hop.toNat) (30 - 2 * f.hop.toNat)) { f with hop := f.hop + 1 } k))) ∧
    (f.flood = true → ∃ k, Frames s.hub.clean k ∧ exec (.sbFloodForward port f) s = .next (s.settle (if f.ttl.toNat ≤ 1 then noteFlood f k
      else ((sbPorts s.env).filter (fun i => decide (i ≠ port.toNat) && (sbPort k i).state == 2)).foldl (fun h i => sbOut i { f with ttl := f.ttl - 1 } h) (noteFlood f k))))) ∧
  (∀ s (port : BitVec 4) f i, s.env.tray = false → sbOk s.env s.hub 11 port.toNat f = true → sbMine s.env f = false → f.hop.toNat < 16 →
    i = bitsOf f.route.toNat (31 - 2 * f.hop.toNat) (30 - 2 * f.hop.toNat) →
    (f.hop.toNat + 1 = f.nhops.toNat → (sbPort s.hub i).dormant = true → i < s.hub.sb.ports.length → ∃ t, exec (.sbWakeFrame port f) s = .next t ∧ (sbPort t.hub i).idles = true) ∧
    (¬(f.hop.toNat + 1 = f.nhops.toNat ∧ (sbPort s.hub i).dormant = true) → ∃ k, Acted s.hub.clean k ∧ exec (.sbWakeFrame port f) s = .next (s.settle (sbOut i { f with hop := f.hop + 1 } k)))) ∧
  (∀ s (src : Node) mseq r, s.hub.sb.reasm.find? (fun (r : Reasm) => decide (r.src = src.toNat) && decide (r.mseq = mseq)) = some r → sbRuns s.hub = true → r.first + 1000000 ≤ nowNs s.hub →
    s.env.beaten (evFragment r.src r.mseq) (r.first + 1000000) (nowNs s.hub) = false → exec (.sbReassemblyTimeout src mseq) s = .next (s.settle { s.hub.clean with
      sb := { s.hub.sb with reasm := s.hub.sb.reasm.filter (fun r => !(decide (r.src = src.toNat) && decide (r.mseq = mseq))), crc := s.hub.sb.crc + 1 } })) ∧
  (∀ s (port : BitVec 4) f b m, s.env.tray = true → sbOk s.env s.hub 4 port.toNat f = true → sbMine s.env f = true → f.payload = .heartbeat b → memberDie s.env s.hub b.die.toNat = true → m = member s.hub b.die.toNat →
    ∃ t, exec (.sbHeartbeatReceive port f) s = .next t ∧ member t.hub b.die.toNat = { m with
        last := nowNs s.hub, state := b.state, quality := b.quality, playa := b.playa, ports := b.ports, offset := b.offset, waiting := b.waiting
        lost := false, sent := m.sent.filter (fun v => decide (v.msg.seq ≠ b.verdictSeq)) } ∧
      t.hub.sb.changed = (if m.ports = b.ports then s.hub.sb.changed else some (s.hub.sb.changed.getD (nowNs s.hub)))) ∧
  (∀ s (port : BitVec 4) f v, s.env.tray = false → sbOk s.env s.hub 8 port.toNat f = true → sbMine s.env f = true → f.payload = .verdict v →
    ∃ t, exec (.sbVerdictReceive port f) s = .next t ∧ t.hub.sb.vseq = v.seq ∧
      (s.hub.sb.lastVerdict.contains v.seq = true → t.hub.sb.lastVerdict = s.hub.sb.lastVerdict ∧ t.hub.casc = s.hub.casc) ∧
      (s.hub.sb.lastVerdict.contains v.seq = false → t.hub.sb.lastVerdict = v.seq :: s.hub.sb.lastVerdict ∧ (∀ x, x ≠ v.entity → entity t.hub x = entity s.hub x) ∧
        entity t.hub v.entity = { entity s.hub v.entity with
          received := (entity s.hub v.entity).received ++ [(v.verdict.toNat, v.cause.toNat, v.score.toNat, v.generation, v.slot.toNat, v.floor.toNat)] })) ∧
  (∀ s (die : BitVec 7) d late, d = (imgOf s.hub).tray * 128 + die.toNat → memberDie s.env s.hub d = true → sbRuns s.hub = true →
    late = (fun (v : SentVerdict) => decide (v.tb + 4 * s.hub.sb.beatPeriod ≤ nowNs s.hub) && !s.env.beaten (evHeartbeat d) (v.tb + 4 * s.hub.sb.beatPeriod) (nowNs s.hub)) →
    ∃ t, exec (.verdictResend die) s = .next t ∧ member t.hub d = { member s.hub d with sent := (member s.hub d).sent.filter (fun v => !late v) } ∧
      t = s.settle (((member s.hub d).sent.filter late).foldl (fun h v => sbDown s.env true d { ftype := 8, payload := .verdict v.msg } h)
        (onMember d (fun m => { m with sent := m.sent.filter (fun v => !late v) }) s.hub.clean))) ∧
  (∀ s (port : BitVec 4) f bs rid, s.env.tray = true → sbMessage s.env s.hub 7 port.toNat f = some bs → rid = BitVec.ofNat 24 (beAt bs 4 4) →
    (s.hub.cmd.relays.find? (fun r => decide (r.rid = rid)) = none → rid ≠ 0 → ∃ t, exec (.sbReplyReceive port f) s = .next t ∧ t.hub.cmd = { s.hub.cmd with lateReplies := s.hub.cmd.lateReplies + 1 }) ∧
    (∀ r, s.hub.cmd.relays.find? (fun r => decide (r.rid = rid)) = some r → ∃ t, exec (.sbReplyReceive port f) s = .next t ∧ t.hub.cmd.relays = s.hub.cmd.relays.filter (fun q => decide (q.rid ≠ rid)) ∧
      ∀ ch x, r.req = .channel ch → chanOn s.hub ch.toNat = true → s.hub.cmd.chans[ch.toNat]? = some x → x.rbuf = none → ∃ y, t.hub.cmd.chans[ch.toNat]? = some y ∧ y.rbuf = some (readReply (bs.drop 8))))

/-- The tray sends SYNC on every port that a primary route uses, an interval after the last. A die that takes one passes it to its tree
children with the correction grown by the link's delay, has heard its tray, and disciplines its time by the offset. When port states have
changed, every die of the tray gets the primary route, the alternate route and the tree children that the search gives it; a die takes the
routes it is sent as a whole. (R388, R391, R395, R396) -/
def Obligations.TimeAndRoutesOverTheSideband : Prop :=
  (∀ s, s.env.tray = true → sbRuns s.hub = true → s.hub.sb.lastSync + s.hub.time.syncInt ≤ nowNs s.hub →
    ∃ t, exec .syncSend s = .next t ∧ t.hub.sb.lastSync = nowNs s.hub ∧
      t = s.settle ((((s.hub.sb.members.filterMap (fun m => m.2.primary.map (fun p => p.1.toNat)))).dedup).foldl (fun h i => sbOut i {
        ftype := 5, tport := BitVec.ofNat 4 i, src := BitVec.ofNat 18 (nodeNo s.env h), mseq := h.sb.mseq, payload := .sync (BitVec.ofNat 64 (nowNs h)) 0 } h)
        { s.hub.clean with sb := { s.hub.sb with lastSync := nowNs s.hub, mseq := s.hub.sb.mseq + 1 } })) ∧
  (∀ s (port : BitVec 4) f origin corr c, s.env.tray = false → sbOk s.env s.hub 5 port.toNat f = true → f.payload = .sync origin corr → c = signed 64 corr.toNat + linkDelay s.hub port.toNat →
    ∃ t k, exec (.syncReceive port f) s = .next t ∧ Acted s.hub.clean k ∧ t.hub.sb.lastSync = nowNs s.hub ∧ t.hub.sb.trayLost = false ∧
      t = s.settle (syncMeasured s.env ((nowNs s.hub : Int) - (signed 64 origin.toNat + c)) (
        let h := k.sb.children.foldl (fun h i => sbOut i.toNat { f with hop := f.hop + 1, payload := .sync origin (BitVec.ofNat 64 (unsigned 64 c)) } h) k
        { h with sb := { h.sb with
          lastSync := nowNs s.hub, trayLost := false
          trayNode := if s.hub.sys.st == .playa && !meshKnown s.hub && s.hub.sb.trayNode.isNone then some f.src else s.hub.sb.trayNode } }))) ∧
  (∀ s, s.env.tray = true → sbRuns s.hub = true → s.hub.sb.changed.isSome = true → ∃ t, exec .routeRecompute s = .next t ∧ t.hub.sb.changed = none ∧
    (∀ d, d ∉ trayDies s.hub → member t.hub d = member s.hub d) ∧
    (∀ d p, d ∈ trayDies s.hub → p = (primaryTree false s.hub).find? (fun p => decide (p.die = d)) → (member t.hub d).primary = p.map Path.asRoute ∧
      (member t.hub d).alternate = (p.bind (alternatePath s.hub)).map Path.asRoute ∧ (member t.hub d).children = treeChildren (primaryTree false s.hub) d)) ∧
  (∀ s (port : BitVec 4) f p a cs, s.env.tray = false → sbOk s.env s.hub 10 port.toNat f = true → sbMine s.env f = true → f.payload = .routeSet p a cs →
    ∃ t, exec (.routeSetReceive port f) s = .next t ∧ t.hub.sb.primary = p ∧ t.hub.sb.alternate = a ∧ t.hub.sb.children = cs)

/-- At its cutoff, or a member timeout after its last contribution on demand, the lowest level of a round that has not sent sends what it has.
On demand a tray that is neither combiner nor root queues its contribution, incomplete where a die is missing, for the node above it. A
combiner that the root has waited for in vain is failed, and every tray of its block that is missing is sent a REDIRECT. (R221, R224,
R226, R227, R230) -/
def Obligations.RoundDeadlines : Prop :=
  (∀ s (group seq : BitVec 16) g l r, roundGroup s.hub group.toNat seq.toNat (roundOp s.hub group.toNat seq.toNat) = some g → s.env.tray = true → serving s.hub = true → shardGroup s.hub = none →
    1 ≤ l ∧ l ≤ 3 → (∀ i, 1 ≤ i → i < l → roundAt s.hub i group.toNat seq.toNat = none) → roundAt s.hub l group.toNat seq.toNat = some r → r.sent = false →
    (r.window ≠ 0 → cutoffPast s.hub r (cutoffShare l) = true → s.env.beaten evContribution (cutoffAt s.hub (cutoffShare l)) (nowNs s.hub) = false →
      ∃ t, exec (.reductionCutoff group seq) s = .next t ∧ (roundAt t.hub l group.toNat seq.toNat).map Round.sent = some true) ∧
    (r.window = 0 → r.timer + s.hub.xs.memberTimeout ≤ nowNs s.hub → s.env.beaten evContribution (r.timer + s.hub.xs.memberTimeout) (nowNs s.hub) = false → (l ≠ 3 ∨ missingCombiners s.hub g r = []) →
      ∃ t, exec (.memberTimeout group seq) s = .next t ∧ (roundAt t.hub l group.toNat seq.toNat).map Round.sent = some true)) ∧
  (∀ s (group seq : BitVec 16) g r dst, roundGroup s.hub group.toNat seq.toNat (roundOp s.hub group.toNat seq.toNat) = some g → s.env.tray = true → serving s.hub = true → shardGroup s.hub = none →
    roundAt s.hub 1 group.toNat seq.toNat = some r → roundAt s.hub 2 group.toNat seq.toNat = none → roundAt s.hub 3 group.toNat seq.toNat = none → r.sent = false → r.direct = false → r.tc.toNat ≠ 3 →
    r.window = 0 → r.timer + s.hub.xs.memberTimeout ≤ nowNs s.hub → s.env.beaten evContribution (r.timer + s.hub.xs.memberTimeout) (nowNs s.hub) = false →
    dst = (combinerFor g (myTray s.hub)).getD g.root → dst ≠ myTray s.hub →
    ∃ t, exec (.memberTimeout group seq) s = .next t ∧ roundAt t.hub 1 group.toNat seq.toNat = some { r with sent := true, incomplete := roundIncomplete r, kept := false } ∧
      t.hub.fab = { s.hub.fab with outq := s.hub.fab.outq ++ redOut s.hub r.tc.toNat (2 ^ 17 + dst) (upMessage s.hub 1 group.toNat seq.toNat r [myTray s.hub]) }) ∧
  (∀ s (group seq : BitVec 16) (combiner : BitVec 10) g r ts, roundGroup s.hub group.toNat seq.toNat (roundOp s.hub group.toNat seq.toNat) = some g → s.env.tray = true → serving s.hub = true →
    roundAt s.hub 3 group.toNat seq.toNat = some r → r.sent = false → (missingCombiners s.hub g r).contains combiner.toNat = true → r.tc.toNat ≠ 3 →
    r.timer + s.hub.xs.memberTimeout ≤ nowNs s.hub → s.env.beaten evContribution (r.timer + s.hub.xs.memberTimeout) (nowNs s.hub) = false →
    ts = (groupTrays g).filter (fun t => decide (combinerFor g t = some combiner.toNat) && !posDone r t) → myTray s.hub ∉ ts →
    ∃ t, exec (.combinerTimeout group seq combiner) s = .next t ∧ roundAt t.hub 3 group.toNat seq.toNat = some { r with failed := r.failed ++ [2 ^ 17 + combiner.toNat], timer := nowNs s.hub } ∧
      t.hub.fab.outq = s.hub.fab.outq ++ ts.map (fun t => {
        type := 0, tc := BitVec.ofNat 2 r.tc.toNat, dst := BitVec.ofNat 18 (2 ^ 17 + t), flow := BitVec.ofNat 16 group.toNat, soff := 0, tb := nowNs s.hub, body := redBody {
          group := group.toNat, seq := seq.toNat, op := r.op.toNat, level := 3, redirect := true, geom := r.geom.toNat, total := r.total, cover := ts, window := r.window } }))

/-- A contribution in form and in time enters the round at the level it is for, or opens it; a repeated one is counted. A die gathers its
result packet by packet; a tray marks its round done with the last packet and hands each to its dies. A tray that gets a REDIRECT goes
past its combiner: a contribution already sent goes to the root. (R217, R222, R223, R224, R225) -/
def Obligations.ReductionMessages : Prop :=
  (∀ s bytes (port : BitVec 6) p m g, photenOk s.env s.hub 0 bytes port.toNat = true → shardGroup s.hub = none → p = photenFields bytes → redParse p.body = some m → m.result = false → m.redirect = false →
    s.env.tray = true → roundGroup s.hub m.group m.seq m.op = some g →
    (m.level = 0 → isScoring s.hub m.group = false → afterCutoff s.hub 1 m = false →
      (∀ r, roundAt s.hub 1 m.group m.seq = some r → r.expected.contains p.src = true →
        (∀ q, roundAccept r p.src { m with cover := [p.src] } = .taken q → roundFull q = false →
          ∃ t, exec (.reduceContributionReceive bytes port) s = .next t ∧ roundAt t.hub 1 m.group m.seq = some q ∧ q = roundTake r p.src { m with cover := [p.src] }) ∧
        (roundAccept r p.src { m with cover := [p.src] } = .dup → ∃ t, exec (.reduceContributionReceive bytes port) s = .next t ∧ roundAt t.hub 1 m.group m.seq = some r ∧ t.hub.xs.dup = s.hub.xs.dup + 1)) ∧
      (∀ r, roundAt s.hub 1 m.group m.seq = none → (trayMembers s.hub g).contains p.src = true → roundRoom s.env s.hub m.group m.seq = true →
        r = roundTake (newRound s.hub g m p.tc (trayMembers s.hub g)) p.src { m with cover := [p.src] } → roundFull r = false →
        ∃ t, exec (.reduceContributionReceive bytes port) s = .next t ∧ roundAt t.hub 1 m.group m.seq = some r)) ∧
    (∀ r q, m.level = 1 → combinerFor g (p.src % 1024) = some (myTray s.hub) → roundAt s.hub 2 m.group m.seq = some r → afterCutoff s.hub 2 m = false →
      roundAccept r p.src { m with cover := [p.src % 1024] } = .taken q → roundFull q = false →
      ∃ t, exec (.reduceContributionReceive bytes port) s = .next t ∧ roundAt t.hub 2 m.group m.seq = some q) ∧
    (∀ r q, m.level = 2 → g.root = myTray s.hub → roundAt s.hub 3 m.group m.seq = some r → afterCutoff s.hub 3 m = false → roundAccept r p.src m = .taken q → roundFull q = false →
      ∃ t, exec (.reduceContributionReceive bytes port) s = .next t ∧ roundAt t.hub 3 m.group m.seq = some q)) ∧
  (∀ s bytes (port : BitVec 6) p m g r, photenOk s.env s.hub 0 bytes port.toNat = true → shardGroup s.hub = none → p = photenFields bytes → redParse p.body = some m → m.result = true → m.redirect = false →
    roundGroup s.hub m.group m.seq m.op = some g →
    (s.env.tray = false → roundAt s.hub 0 m.group m.seq = some r → r.op.toNat = m.op → (resultTake r m).done = false →
      ∃ t, exec (.reduceResultReceive bytes port) s = .next t ∧ roundAt t.hub 0 m.group m.seq = some (resultTake r m)) ∧
    (s.env.tray = true → g.combiners.contains (myTray s.hub) = false → isScoring s.hub m.group = false → roundAt s.hub 1 m.group m.seq = some r → p.tc ≠ 3 →
      ∃ t, exec (.reduceResultReceive bytes port) s = .next t ∧ roundAt t.hub 1 m.group m.seq = some { r with done := r.done || m.ends } ∧
        t.hub.fab.outq = s.hub.fab.outq ++ (trayMembers s.hub g).flatMap (fun d => redOut s.hub p.tc d m))) ∧
  (∀ s bytes (port : BitVec 6) p m g r, photenOk s.env s.hub 0 bytes port.toNat = true → shardGroup s.hub = none → p = photenFields bytes → redParse p.body = some m → m.redirect = true →
    roundGroup s.hub m.group m.seq m.op = some g → s.env.tray = true → roundAt s.hub 1 m.group m.seq = some r → r.done = false → r.direct = false → r.kept = false →
    (r.sent = false → ∃ t, exec (.redirectReceive bytes port) s = .next t ∧ roundAt t.hub 1 m.group m.seq = some { r with direct := true } ∧ t.hub.fab.outq = s.hub.fab.outq) ∧
    (r.sent = true → g.root ≠ myTray s.hub → r.tc.toNat ≠ 3 → ∃ t, exec (.redirectReceive bytes port) s = .next t ∧ roundAt t.hub 1 m.group m.seq = some { r with direct := true } ∧
      t.hub.fab.outq = s.hub.fab.outq ++ redOut s.hub r.tc.toNat (2 ^ 17 + g.root) { (upMessage s.hub 1 m.group m.seq r [myTray s.hub]) with incomplete := r.incomplete }))

/-- The aggregation window in progress ends when TB has passed its last ns: the next window is in progress, from the TB at which the end was
taken. The exchange words of a member enter the round until every other member is heard. At its deadline a step goes on with what it has,
and a window whose screen or spike rounds are missing ends without scores, each of its entities counted. (R17, R303, R305, R306) -/
def Obligations.WindowsAndRhizomes : Prop :=
  (∀ s, working s.hub = true → s.hub.casc.window < nowNs s.hub / (imgOf s.hub).windowNs →
    (∀ p ∈ s.hub.bc.apply, windowEnded { s.hub with casc := { s.hub.casc with window := s.hub.casc.window + 1 } } p.1 = false) →
    ∃ t, exec .aggregationWindowEnd s = .next t ∧ t.hub.casc.window = s.hub.casc.window + 1 ∧ t.hub.casc.windowTb = nowNs s.hub ∧ t.hub.casc.lastScan = s.hub.casc.lastScan) ∧
  (∀ s bytes (port : BitVec 6) b sg r pos ps, s.env.tray = true → serving s.hub = true → photenOk s.env s.hub 4 bytes port.toNat = true → shardGroup s.hub = some sg → s.hub.casc.rhizome = some r →
    b = (photenFields bytes).body → pos = sg.members.idxOf ((photenFields bytes).src % 1024) → ps = (readParts sg b.length (b.drop 8)).filter (fun p => (entsAt s.hub sg pos).contains p.1) →
    (r.step ≠ 2 → ∃ t, exec (.exchangeReceive bytes port) s = .next t ∧ t.hub.casc = s.hub.casc ∧ t.hub.fab.accepted = s.hub.fab.accepted + 1) ∧
    (∀ got heard, r.step = 2 → pos < sg.members.length → beAt b 0 4 = r.window % 2 ^ 32 → got = (r.present ++ ps.map (fun p => p.1.toNat)).dedup →
      heard = (if (entsAt s.hub sg pos).all (fun x => got.contains x.toNat) then (r.heard ++ [pos]).dedup else r.heard) →
      (List.range sg.members.length).all (fun i => decide (i = myPos s.hub sg) || heard.contains i) = false →
      ∃ t, exec (.exchangeReceive bytes port) s = .next t ∧ t.hub.casc.rhizome = some { r with present := got, heard := heard })) ∧
  (∀ s (step : BitVec 3) sg r, s.env.tray = true → working s.hub = true → shardGroup s.hub = some sg → s.hub.casc.rhizome = some r → r.step = step.toNat →
    100 * (nowNs s.hub - r.boundary) ≥ rhizShare step.toNat * (imgOf s.hub).windowNs →
    s.env.beaten evRound (r.boundary + rhizShare step.toNat * (imgOf s.hub).windowNs / 100) (nowNs s.hub) = false →
    (step = 2 → exec (.rhizomeStepDeadline step) s = .next (s.settle (rhizAdvance s.env (startScreen s.env sg s.hub.clean)))) ∧
    (step = 4 → exec (.rhizomeStepDeadline step) s = .next (s.settle (rhizAdvance s.env (startRaises s.env sg r.results r.slot (onRhiz (fun r => { r with unconf := r.gated }) s.hub.clean))))) ∧
    (step = 3 → ∃ t, exec (.rhizomeStepDeadline step) s = .next t ∧ t.hub.casc = { s.hub.casc with rhizome := none, unscored := s.hub.casc.unscored + (homeEnts s.hub sg).length }) ∧
    (step = 5 → ∃ t, exec (.rhizomeStepDeadline step) s = .next t ∧ t.hub.casc = { s.hub.casc with rhizome := none, unscored := s.hub.casc.unscored + r.results.length }))
end

