-- ==== Sys2Proof/Laws/Frame.lean ====
section
/-!
SUPPORT. How frames compose: an operation that may change the pieces of one list, after operations that may change those of another.
-/
namespace Sys2Proof.Machine

/-- Every piece of one list is in the other. -/
def within? (a b : List Piece) : Bool := a.all (fun p => b.contains p)

theorem Only.refl (ps : List Piece) (h : Hub) : Only ps h h := by
  refine ⟨fun p _ => ?_⟩
  cases p <;> rfl

theorem Piece.same_trans (p : Piece) {h k l : Hub} (a : p.same h k) (b : p.same k l) : p.same h l := by
  cases p <;> exact Eq.trans b a

theorem mem_of_within {a b : List Piece} (w : within? a b = true) {p : Piece} (h : p ∈ a) : p ∈ b := by
  have := List.all_eq_true.mp w p h
  simpa using this

/-- One more operation. -/
theorem Only.step {ps qs : List Piece} {h k l : Hub} (a : Only ps h k) (b : Only qs k l) (w : within? qs ps = true) : Only ps h l := by
  exact ⟨fun p hp => p.same_trans (a.keep p hp) (b.keep p (fun hq => hp (mem_of_within w hq)))⟩

theorem within_trans {a b c : List Piece} (h : within? a b = true) (k : within? b c = true) : within? a c = true := by
  refine List.all_eq_true.mpr (fun p hp => ?_)
  simpa using mem_of_within k (mem_of_within h hp)

/-- What the answer of a command at step 14 may change. -/
def Ans.only (ps : List Piece) (h : Hub) : Ans → Prop
  | .done _ _ _ k => Only ps h k
  | .later _ f => ∀ n x, Only ps x (f n x)

/-- One more operation of the same frame. -/
theorem Only.trans {ps : List Piece} {h k l : Hub} (a : Only ps h k) (b : Only ps k l) : Only ps h l :=
  ⟨fun p hp => p.same_trans (a.keep p hp) (b.keep p hp)⟩

theorem Only.weaken {ps qs : List Piece} {h k : Hub} (b : Only qs h k) (w : within? qs ps = true) : Only ps h k :=
  Only.step (Only.refl ps h) b w

/-- A fold of operations. -/
theorem Only.foldl {ps : List Piece} {α : Type} {f : Hub → α → Hub} (hf : ∀ h x, Only ps h (f h x)) (l : List α) {h k : Hub}
    (a : Only ps h k) : Only ps h (l.foldl f k) := by
  induction l generalizing k with
  | nil => exact a
  | cons x l ih => exact ih (a.trans (hf k x))

/-- A hub that is used more than once. -/
theorem Only.named {ps : List Piece} {h v l : Hub} (k : Only ps h v → Only ps h l) (a : Only ps h v) : Only ps h l := k a

/-- The hub of a pair. -/
theorem Only.pair {ps : List Piece} {α : Type} {h k : Hub} {x : α} {p : Hub × α} (e : p = (k, x)) (a : Only ps h p.1) : Only ps h k := by
  subst e; exact a

theorem Only.fst {ps : List Piece} {α : Type} {h k : Hub} {x : α} (a : Only ps h k) : Only ps h (k, x).1 := a

theorem Only.snd {ps : List Piece} {α : Type} {h k : Hub} {x : α} (a : Only ps h k) : Only ps h (x, k).2 := a

/-- A record update of a hub. -/
theorem Only.upd {ps : List Piece} {h k : Hub} (hk : Only ps h k)
    {free sys isl time regions cells hubc res dig xs ens casc age fab sb bc jobs mgt cmd prot regs mem dma trc nid log boot img reports
      posted nvPosted}
    (h1 : within? [.free] ps = true ∨ free = k.free) (h2 : within? [.sys] ps = true ∨ sys = k.sys)
    (h3 : within? [.isl] ps = true ∨ isl = k.isl) (h4 : within? [.time] ps = true ∨ time = k.time)
    (h5 : within? [.regions] ps = true ∨ regions = k.regions) (h6 : within? [.cells] ps = true ∨ cells = k.cells)
    (h7 : within? [.hubc] ps = true ∨ hubc = k.hubc) (h8 : within? [.res] ps = true ∨ res = k.res)
    (h9 : within? [.dig] ps = true ∨ dig = k.dig) (h10 : within? [.xs] ps = true ∨ xs = k.xs)
    (h11 : within? [.ens] ps = true ∨ ens = k.ens) (h12 : within? [.casc] ps = true ∨ casc = k.casc)
    (h13 : within? [.age] ps = true ∨ age = k.age) (h14 : within? [.fab] ps = true ∨ fab = k.fab)
    (h15 : within? [.sb] ps = true ∨ sb = k.sb) (h16 : within? [.bc] ps = true ∨ bc = k.bc)
    (h17 : within? [.jobs] ps = true ∨ jobs = k.jobs) (h18 : within? [.mgt] ps = true ∨ mgt = k.mgt)
    (h19 : within? [.cmd] ps = true ∨ cmd = k.cmd) (h20 : within? [.prot] ps = true ∨ prot = k.prot)
    (h21 : within? [.regs] ps = true ∨ regs = k.regs) (h22 : within? [.mem] ps = true ∨ mem = k.mem)
    (h23 : within? [.dma] ps = true ∨ dma = k.dma) (h24 : within? [.trc] ps = true ∨ trc = k.trc)
    (h25 : within? [.nid] ps = true ∨ nid = k.nid) (h26 : within? [.log] ps = true ∨ log = k.log)
    (h27 : within? [.boot] ps = true ∨ boot = k.boot) (h28 : within? [.img] ps = true ∨ img = k.img)
    (h29 : within? [.reports] ps = true ∨ reports = k.reports) (h30 : within? [.ram] ps = true ∨ posted = k.posted)
    (h31 : within? [.nvm] ps = true ∨ nvPosted = k.nvPosted) :
    Only ps h ⟨free, sys, isl, time, regions, cells, hubc, res, dig, xs, ens, casc, age, fab, sb, bc, jobs, mgt, cmd, prot, regs, mem, dma,
      trc, nid, log, boot, img, reports, posted, nvPosted⟩ := by
  refine ⟨fun p hp => ?_⟩
  have lift : ∀ {A : Prop}, (within? [p] ps = true ∨ A) → A := by
    intro A hA
    cases hA with
    | inl w => exact absurd (mem_of_within w (List.mem_singleton.mpr rfl)) hp
    | inr a => exact a
  cases p
  · exact (lift h1).trans (hk.keep _ hp)
  · exact (lift h2).trans (hk.keep _ hp)
  · exact (lift h3).trans (hk.keep _ hp)
  · exact (lift h4).trans (hk.keep _ hp)
  · exact (lift h5).trans (hk.keep _ hp)
  · exact (lift h6).trans (hk.keep _ hp)
  · exact (lift h7).trans (hk.keep _ hp)
  · exact (lift h8).trans (hk.keep _ hp)
  · exact (lift h9).trans (hk.keep _ hp)
  · exact (lift h10).trans (hk.keep _ hp)
  · exact (lift h11).trans (hk.keep _ hp)
  · exact (lift h12).trans (hk.keep _ hp)
  · exact (lift h13).trans (hk.keep _ hp)
  · exact (lift h14).trans (hk.keep _ hp)
  · exact (lift h15).trans (hk.keep _ hp)
  · exact (lift h16).trans (hk.keep _ hp)
  · exact (lift h17).trans (hk.keep _ hp)
  · exact (lift h18).trans (hk.keep _ hp)
  · exact (lift h19).trans (hk.keep _ hp)
  · exact (lift h20).trans (hk.keep _ hp)
  · exact (lift h21).trans (hk.keep _ hp)
  · exact (lift h22).trans (hk.keep _ hp)
  · exact (lift h23).trans (hk.keep _ hp)
  · exact (lift h24).trans (hk.keep _ hp)
  · exact (lift h25).trans (hk.keep _ hp)
  · exact (lift h26).trans (hk.keep _ hp)
  · exact (lift h27).trans (hk.keep _ hp)
  · exact (lift h28).trans (hk.keep _ hp)
  · exact (lift h29).trans (hk.keep _ hp)
  · exact (lift h30).trans (hk.keep _ hp)
  · exact (lift h31).trans (hk.keep _ hp)

/-- A choice. -/
theorem Only.ite {ps : List Piece} {h k l : Hub} {c : Prop} [Decidable c] (a : Only ps h k) (b : Only ps h l) :
    Only ps h (if c then k else l) := by
  split
  · exact a
  · exact b

/-- A choice between pairs. -/
theorem Only.ite1 {ps : List Piece} {α : Type} {h : Hub} {k l : Hub × α} {c : Prop} [Decidable c] (a : Only ps h k.1)
    (b : Only ps h l.1) : Only ps h (if c then k else l).1 := by
  split
  · exact a
  · exact b

/-- A fold over pairs. -/
theorem Only.foldl1 {ps : List Piece} {α β : Type} {f : Hub × β → α → Hub × β} (hf : ∀ p x, Only ps p.1 (f p x).1) (l : List α)
    {h : Hub} {k : Hub × β} (a : Only ps h k.1) : Only ps h (l.foldl f k).1 := by
  induction l generalizing k with
  | nil => exact a
  | cons x l ih => exact ih (a.trans (hf k x))

theorem Only.set_free {ps : List Piece} {h k : Hub} (a : Only ps h k) {v} (w : within? [.free] ps = true) :
    Only ps h ⟨v, k.sys, k.isl, k.time, k.regions, k.cells, k.hubc, k.res, k.dig, k.xs, k.ens, k.casc, k.age, k.fab, k.sb, k.bc, k.jobs, k.mgt, k.cmd, k.prot, k.regs, k.mem, k.dma, k.trc, k.nid, k.log, k.boot, k.img, k.reports, k.posted, k.nvPosted⟩ :=
  Only.upd a (.inl w) (.inr rfl) (.inr rfl) (.inr rfl) (.inr rfl) (.inr rfl) (.inr rfl) (.inr rfl) (.inr rfl) (.inr rfl) (.inr rfl) (.inr rfl) (.inr rfl) (.inr rfl) (.inr rfl) (.inr rfl) (.inr rfl) (.inr rfl) (.inr rfl) (.inr rfl) (.inr rfl) (.inr rfl) (.inr rfl) (.inr rfl) (.inr rfl) (.inr rfl) (.inr rfl) (.inr rfl) (.inr rfl) (.inr rfl) (.inr rfl)

theorem Only.set_sys {ps : List Piece} {h k : Hub} (a : Only ps h k) {v} (w : within? [.sys] ps = true) :
    Only ps h ⟨k.free, v, k.isl, k.time, k.regions, k.cells, k.hubc, k.res, k.dig, k.xs, k.ens, k.casc, k.age, k.fab, k.sb, k.bc, k.jobs, k.mgt, k.cmd, k.prot, k.regs, k.mem, k.dma, k.trc, k.nid, k.log, k.boot, k.img, k.reports, k.posted, k.nvPosted⟩ :=
  Only.upd a (.inr rfl) (.inl w) (.inr rfl) (.inr rfl) (.inr rfl) (.inr rfl) (.inr rfl) (.inr rfl) (.inr rfl) (.inr rfl) (.inr rfl) (.inr rfl) (.inr rfl) (.inr rfl) (.inr rfl) (.inr rfl) (.inr rfl) (.inr rfl) (.inr rfl) (.inr rfl) (.inr rfl) (.inr rfl) (.inr rfl) (.inr rfl) (.inr rfl) (.inr rfl) (.inr rfl) (.inr rfl) (.inr rfl) (.inr rfl) (.inr rfl)

theorem Only.set_isl {ps : List Piece} {h k : Hub} (a : Only ps h k) {v} (w : within? [.isl] ps = true) :
    Only ps h ⟨k.free, k.sys, v, k.time, k.regions, k.cells, k.hubc, k.res, k.dig, k.xs, k.ens, k.casc, k.age, k.fab, k.sb, k.bc, k.jobs, k.mgt, k.cmd, k.prot, k.regs, k.mem, k.dma, k.trc, k.nid, k.log, k.boot, k.img, k.reports, k.posted, k.nvPosted⟩ :=
  Only.upd a (.inr rfl) (.inr rfl) (.inl w) (.inr rfl) (.inr rfl) (.inr rfl) (.inr rfl) (.inr rfl) (.inr rfl) (.inr rfl) (.inr rfl) (.inr rfl) (.inr rfl) (.inr rfl) (.inr rfl) (.inr rfl) (.inr rfl) (.inr rfl) (.inr rfl) (.inr rfl) (.inr rfl) (.inr rfl) (.inr rfl) (.inr rfl) (.inr rfl) (.inr rfl) (.inr rfl) (.inr rfl) (.inr rfl) (.inr rfl) (.inr rfl)

theorem Only.set_time {ps : List Piece} {h k : Hub} (a : Only ps h k) {v} (w : within? [.time] ps = true) :
    Only ps h ⟨k.free, k.sys, k.isl, v, k.regions, k.cells, k.hubc, k.res, k.dig, k.xs, k.ens, k.casc, k.age, k.fab, k.sb, k.bc, k.jobs, k.mgt, k.cmd, k.prot, k.regs, k.mem, k.dma, k.trc, k.nid, k.log, k.boot, k.img, k.reports, k.posted, k.nvPosted⟩ :=
  Only.upd a (.inr rfl) (.inr rfl) (.inr rfl) (.inl w) (.inr rfl) (.inr rfl) (.inr rfl) (.inr rfl) (.inr rfl) (.inr rfl) (.inr rfl) (.inr rfl) (.inr rfl) (.inr rfl) (.inr rfl) (.inr rfl) (.inr rfl) (.inr rfl) (.inr rfl) (.inr rfl) (.inr rfl) (.inr rfl) (.inr rfl) (.inr rfl) (.inr rfl) (.inr rfl) (.inr rfl) (.inr rfl) (.inr rfl) (.inr rfl) (.inr rfl)

theorem Only.set_regions {ps : List Piece} {h k : Hub} (a : Only ps h k) {v} (w : within? [.regions] ps = true) :
    Only ps h ⟨k.free, k.sys, k.isl, k.time, v, k.cells, k.hubc, k.res, k.dig, k.xs, k.ens, k.casc, k.age, k.fab, k.sb, k.bc, k.jobs, k.mgt, k.cmd, k.prot, k.regs, k.mem, k.dma, k.trc, k.nid, k.log, k.boot, k.img, k.reports, k.posted, k.nvPosted⟩ :=
  Only.upd a (.inr rfl) (.inr rfl) (.inr rfl) (.inr rfl) (.inl w) (.inr rfl) (.inr rfl) (.inr rfl) (.inr rfl) (.inr rfl) (.inr rfl) (.inr rfl) (.inr rfl) (.inr rfl) (.inr rfl) (.inr rfl) (.inr rfl) (.inr rfl) (.inr rfl) (.inr rfl) (.inr rfl) (.inr rfl) (.inr rfl) (.inr rfl) (.inr rfl) (.inr rfl) (.inr rfl) (.inr rfl) (.inr rfl) (.inr rfl) (.inr rfl)

theorem Only.set_cells {ps : List Piece} {h k : Hub} (a : Only ps h k) {v} (w : within? [.cells] ps = true) :
    Only ps h ⟨k.free, k.sys, k.isl, k.time, k.regions, v, k.hubc, k.res, k.dig, k.xs, k.ens, k.casc, k.age, k.fab, k.sb, k.bc, k.jobs, k.mgt, k.cmd, k.prot, k.regs, k.mem, k.dma, k.trc, k.nid, k.log, k.boot, k.img, k.reports, k.posted, k.nvPosted⟩ :=
  Only.upd a (.inr rfl) (.inr rfl) (.inr rfl) (.inr rfl) (.inr rfl) (.inl w) (.inr rfl) (.inr rfl) (.inr rfl) (.inr rfl) (.inr rfl) (.inr rfl) (.inr rfl) (.inr rfl) (.inr rfl) (.inr rfl) (.inr rfl) (.inr rfl) (.inr rfl) (.inr rfl) (.inr rfl) (.inr rfl) (.inr rfl) (.inr rfl) (.inr rfl) (.inr rfl) (.inr rfl) (.inr rfl) (.inr rfl) (.inr rfl) (.inr rfl)

theorem Only.set_hubc {ps : List Piece} {h k : Hub} (a : Only ps h k) {v} (w : within? [.hubc] ps = true) :
    Only ps h ⟨k.free, k.sys, k.isl, k.time, k.regions, k.cells, v, k.res, k.dig, k.xs, k.ens, k.casc, k.age, k.fab, k.sb, k.bc, k.jobs, k.mgt, k.cmd, k.prot, k.regs, k.mem, k.dma, k.trc, k.nid, k.log, k.boot, k.img, k.reports, k.posted, k.nvPosted⟩ :=
  Only.upd a (.inr rfl) (.inr rfl) (.inr rfl) (.inr rfl) (.inr rfl) (.inr rfl) (.inl w) (.inr rfl) (.inr rfl) (.inr rfl) (.inr rfl) (.inr rfl) (.inr rfl) (.inr rfl) (.inr rfl) (.inr rfl) (.inr rfl) (.inr rfl) (.inr rfl) (.inr rfl) (.inr rfl) (.inr rfl) (.inr rfl) (.inr rfl) (.inr rfl) (.inr rfl) (.inr rfl) (.inr rfl) (.inr rfl) (.inr rfl) (.inr rfl)

theorem Only.set_res {ps : List Piece} {h k : Hub} (a : Only ps h k) {v} (w : within? [.res] ps = true) :
    Only ps h ⟨k.free, k.sys, k.isl, k.time, k.regions, k.cells, k.hubc, v, k.dig, k.xs, k.ens, k.casc, k.age, k.fab, k.sb, k.bc, k.jobs, k.mgt, k.cmd, k.prot, k.regs, k.mem, k.dma, k.trc, k.nid, k.log, k.boot, k.img, k.reports, k.posted, k.nvPosted⟩ :=
  Only.upd a (.inr rfl) (.inr rfl) (.inr rfl) (.inr rfl) (.inr rfl) (.inr rfl) (.inr rfl) (.inl w) (.inr rfl) (.inr rfl) (.inr rfl) (.inr rfl) (.inr rfl) (.inr rfl) (.inr rfl) (.inr rfl) (.inr rfl) (.inr rfl) (.inr rfl) (.inr rfl) (.inr rfl) (.inr rfl) (.inr rfl) (.inr rfl) (.inr rfl) (.inr rfl) (.inr rfl) (.inr rfl) (.inr rfl) (.inr rfl) (.inr rfl)

theorem Only.set_dig {ps : List Piece} {h k : Hub} (a : Only ps h k) {v} (w : within? [.dig] ps = true) :
    Only ps h ⟨k.free, k.sys, k.isl, k.time, k.regions, k.cells, k.hubc, k.res, v, k.xs, k.ens, k.casc, k.age, k.fab, k.sb, k.bc, k.jobs, k.mgt, k.cmd, k.prot, k.regs, k.mem, k.dma, k.trc, k.nid, k.log, k.boot, k.img, k.reports, k.posted, k.nvPosted⟩ :=
  Only.upd a (.inr rfl) (.inr rfl) (.inr rfl) (.inr rfl) (.inr rfl) (.inr rfl) (.inr rfl) (.inr rfl) (.inl w) (.inr rfl) (.inr rfl) (.inr rfl) (.inr rfl) (.inr rfl) (.inr rfl) (.inr rfl) (.inr rfl) (.inr rfl) (.inr rfl) (.inr rfl) (.inr rfl) (.inr rfl) (.inr rfl) (.inr rfl) (.inr rfl) (.inr rfl) (.inr rfl) (.inr rfl) (.inr rfl) (.inr rfl) (.inr rfl)

theorem Only.set_xs {ps : List Piece} {h k : Hub} (a : Only ps h k) {v} (w : within? [.xs] ps = true) :
    Only ps h ⟨k.free, k.sys, k.isl, k.time, k.regions, k.cells, k.hubc, k.res, k.dig, v, k.ens, k.casc, k.age, k.fab, k.sb, k.bc, k.jobs, k.mgt, k.cmd, k.prot, k.regs, k.mem, k.dma, k.trc, k.nid, k.log, k.boot, k.img, k.reports, k.posted, k.nvPosted⟩ :=
  Only.upd a (.inr rfl) (.inr rfl) (.inr rfl) (.inr rfl) (.inr rfl) (.inr rfl) (.inr rfl) (.inr rfl) (.inr rfl) (.inl w) (.inr rfl) (.inr rfl) (.inr rfl) (.inr rfl) (.inr rfl) (.inr rfl) (.inr rfl) (.inr rfl) (.inr rfl) (.inr rfl) (.inr rfl) (.inr rfl) (.inr rfl) (.inr rfl) (.inr rfl) (.inr rfl) (.inr rfl) (.inr rfl) (.inr rfl) (.inr rfl) (.inr rfl)

theorem Only.set_ens {ps : List Piece} {h k : Hub} (a : Only ps h k) {v} (w : within? [.ens] ps = true) :
    Only ps h ⟨k.free, k.sys, k.isl, k.time, k.regions, k.cells, k.hubc, k.res, k.dig, k.xs, v, k.casc, k.age, k.fab, k.sb, k.bc, k.jobs, k.mgt, k.cmd, k.prot, k.regs, k.mem, k.dma, k.trc, k.nid, k.log, k.boot, k.img, k.reports, k.posted, k.nvPosted⟩ :=
  Only.upd a (.inr rfl) (.inr rfl) (.inr rfl) (.inr rfl) (.inr rfl) (.inr rfl) (.inr rfl) (.inr rfl) (.inr rfl) (.inr rfl) (.inl w) (.inr rfl) (.inr rfl) (.inr rfl) (.inr rfl) (.inr rfl) (.inr rfl) (.inr rfl) (.inr rfl) (.inr rfl) (.inr rfl) (.inr rfl) (.inr rfl) (.inr rfl) (.inr rfl) (.inr rfl) (.inr rfl) (.inr rfl) (.inr rfl) (.inr rfl) (.inr rfl)

theorem Only.set_casc {ps : List Piece} {h k : Hub} (a : Only ps h k) {v} (w : within? [.casc] ps = true) :
    Only ps h ⟨k.free, k.sys, k.isl, k.time, k.regions, k.cells, k.hubc, k.res, k.dig, k.xs, k.ens, v, k.age, k.fab, k.sb, k.bc, k.jobs, k.mgt, k.cmd, k.prot, k.regs, k.mem, k.dma, k.trc, k.nid, k.log, k.boot, k.img, k.reports, k.posted, k.nvPosted⟩ :=
  Only.upd a (.inr rfl) (.inr rfl) (.inr rfl) (.inr rfl) (.inr rfl) (.inr rfl) (.inr rfl) (.inr rfl) (.inr rfl) (.inr rfl) (.inr rfl) (.inl w) (.inr rfl) (.inr rfl) (.inr rfl) (.inr rfl) (.inr rfl) (.inr rfl) (.inr rfl) (.inr rfl) (.inr rfl) (.inr rfl) (.inr rfl) (.inr rfl) (.inr rfl) (.inr rfl) (.inr rfl) (.inr rfl) (.inr rfl) (.inr rfl) (.inr rfl)

theorem Only.set_age {ps : List Piece} {h k : Hub} (a : Only ps h k) {v} (w : within? [.age] ps = true) :
    Only ps h ⟨k.free, k.sys, k.isl, k.time, k.regions, k.cells, k.hubc, k.res, k.dig, k.xs, k.ens, k.casc, v, k.fab, k.sb, k.bc, k.jobs, k.mgt, k.cmd, k.prot, k.regs, k.mem, k.dma, k.trc, k.nid, k.log, k.boot, k.img, k.reports, k.posted, k.nvPosted⟩ :=
  Only.upd a (.inr rfl) (.inr rfl) (.inr rfl) (.inr rfl) (.inr rfl) (.inr rfl) (.inr rfl) (.inr rfl) (.inr rfl) (.inr rfl) (.inr rfl) (.inr rfl) (.inl w) (.inr rfl) (.inr rfl) (.inr rfl) (.inr rfl) (.inr rfl) (.inr rfl) (.inr rfl) (.inr rfl) (.inr rfl) (.inr rfl) (.inr rfl) (.inr rfl) (.inr rfl) (.inr rfl) (.inr rfl) (.inr rfl) (.inr rfl) (.inr rfl)

theorem Only.set_fab {ps : List Piece} {h k : Hub} (a : Only ps h k) {v} (w : within? [.fab] ps = true) :
    Only ps h ⟨k.free, k.sys, k.isl, k.time, k.regions, k.cells, k.hubc, k.res, k.dig, k.xs, k.ens, k.casc, k.age, v, k.sb, k.bc, k.jobs, k.mgt, k.cmd, k.prot, k.regs, k.mem, k.dma, k.trc, k.nid, k.log, k.boot, k.img, k.reports, k.posted, k.nvPosted⟩ :=
  Only.upd a (.inr rfl) (.inr rfl) (.inr rfl) (.inr rfl) (.inr rfl) (.inr rfl) (.inr rfl) (.inr rfl) (.inr rfl) (.inr rfl) (.inr rfl) (.inr rfl) (.inr rfl) (.inl w) (.inr rfl) (.inr rfl) (.inr rfl) (.inr rfl) (.inr rfl) (.inr rfl) (.inr rfl) (.inr rfl) (.inr rfl) (.inr rfl) (.inr rfl) (.inr rfl) (.inr rfl) (.inr rfl) (.inr rfl) (.inr rfl) (.inr rfl)

theorem Only.set_sb {ps : List Piece} {h k : Hub} (a : Only ps h k) {v} (w : within? [.sb] ps = true) :
    Only ps h ⟨k.free, k.sys, k.isl, k.time, k.regions, k.cells, k.hubc, k.res, k.dig, k.xs, k.ens, k.casc, k.age, k.fab, v, k.bc, k.jobs, k.mgt, k.cmd, k.prot, k.regs, k.mem, k.dma, k.trc, k.nid, k.log, k.boot, k.img, k.reports, k.posted, k.nvPosted⟩ :=
  Only.upd a (.inr rfl) (.inr rfl) (.inr rfl) (.inr rfl) (.inr rfl) (.inr rfl) (.inr rfl) (.inr rfl) (.inr rfl) (.inr rfl) (.inr rfl) (.inr rfl) (.inr rfl) (.inr rfl) (.inl w) (.inr rfl) (.inr rfl) (.inr rfl) (.inr rfl) (.inr rfl) (.inr rfl) (.inr rfl) (.inr rfl) (.inr rfl) (.inr rfl) (.inr rfl) (.inr rfl) (.inr rfl) (.inr rfl) (.inr rfl) (.inr rfl)

theorem Only.set_bc {ps : List Piece} {h k : Hub} (a : Only ps h k) {v} (w : within? [.bc] ps = true) :
    Only ps h ⟨k.free, k.sys, k.isl, k.time, k.regions, k.cells, k.hubc, k.res, k.dig, k.xs, k.ens, k.casc, k.age, k.fab, k.sb, v, k.jobs, k.mgt, k.cmd, k.prot, k.regs, k.mem, k.dma, k.trc, k.nid, k.log, k.boot, k.img, k.reports, k.posted, k.nvPosted⟩ :=
  Only.upd a (.inr rfl) (.inr rfl) (.inr rfl) (.inr rfl) (.inr rfl) (.inr rfl) (.inr rfl) (.inr rfl) (.inr rfl) (.inr rfl) (.inr rfl) (.inr rfl) (.inr rfl) (.inr rfl) (.inr rfl) (.inl w) (.inr rfl) (.inr rfl) (.inr rfl) (.inr rfl) (.inr rfl) (.inr rfl) (.inr rfl) (.inr rfl) (.inr rfl) (.inr rfl) (.inr rfl) (.inr rfl) (.inr rfl) (.inr rfl) (.inr rfl)

theorem Only.set_jobs {ps : List Piece} {h k : Hub} (a : Only ps h k) {v} (w : within? [.jobs] ps = true) :
    Only ps h ⟨k.free, k.sys, k.isl, k.time, k.regions, k.cells, k.hubc, k.res, k.dig, k.xs, k.ens, k.casc, k.age, k.fab, k.sb, k.bc, v, k.mgt, k.cmd, k.prot, k.regs, k.mem, k.dma, k.trc, k.nid, k.log, k.boot, k.img, k.reports, k.posted, k.nvPosted⟩ :=
  Only.upd a (.inr rfl) (.inr rfl) (.inr rfl) (.inr rfl) (.inr rfl) (.inr rfl) (.inr rfl) (.inr rfl) (.inr rfl) (.inr rfl) (.inr rfl) (.inr rfl) (.inr rfl) (.inr rfl) (.inr rfl) (.inr rfl) (.inl w) (.inr rfl) (.inr rfl) (.inr rfl) (.inr rfl) (.inr rfl) (.inr rfl) (.inr rfl) (.inr rfl) (.inr rfl) (.inr rfl) (.inr rfl) (.inr rfl) (.inr rfl) (.inr rfl)

theorem Only.set_mgt {ps : List Piece} {h k : Hub} (a : Only ps h k) {v} (w : within? [.mgt] ps = true) :
    Only ps h ⟨k.free, k.sys, k.isl, k.time, k.regions, k.cells, k.hubc, k.res, k.dig, k.xs, k.ens, k.casc, k.age, k.fab, k.sb, k.bc, k.jobs, v, k.cmd, k.prot, k.regs, k.mem, k.dma, k.trc, k.nid, k.log, k.boot, k.img, k.reports, k.posted, k.nvPosted⟩ :=
  Only.upd a (.inr rfl) (.inr rfl) (.inr rfl) (.inr rfl) (.inr rfl) (.inr rfl) (.inr rfl) (.inr rfl) (.inr rfl) (.inr rfl) (.inr rfl) (.inr rfl) (.inr rfl) (.inr rfl) (.inr rfl) (.inr rfl) (.inr rfl) (.inl w) (.inr rfl) (.inr rfl) (.inr rfl) (.inr rfl) (.inr rfl) (.inr rfl) (.inr rfl) (.inr rfl) (.inr rfl) (.inr rfl) (.inr rfl) (.inr rfl) (.inr rfl)

theorem Only.set_cmd {ps : List Piece} {h k : Hub} (a : Only ps h k) {v} (w : within? [.cmd] ps = true) :
    Only ps h ⟨k.free, k.sys, k.isl, k.time, k.regions, k.cells, k.hubc, k.res, k.dig, k.xs, k.ens, k.casc, k.age, k.fab, k.sb, k.bc, k.jobs, k.mgt, v, k.prot, k.regs, k.mem, k.dma, k.trc, k.nid, k.log, k.boot, k.img, k.reports, k.posted, k.nvPosted⟩ :=
  Only.upd a (.inr rfl) (.inr rfl) (.inr rfl) (.inr rfl) (.inr rfl) (.inr rfl) (.inr rfl) (.inr rfl) (.inr rfl) (.inr rfl) (.inr rfl) (.inr rfl) (.inr rfl) (.inr rfl) (.inr rfl) (.inr rfl) (.inr rfl) (.inr rfl) (.inl w) (.inr rfl) (.inr rfl) (.inr rfl) (.inr rfl) (.inr rfl) (.inr rfl) (.inr rfl) (.inr rfl) (.inr rfl) (.inr rfl) (.inr rfl) (.inr rfl)

theorem Only.set_prot {ps : List Piece} {h k : Hub} (a : Only ps h k) {v} (w : within? [.prot] ps = true) :
    Only ps h ⟨k.free, k.sys, k.isl, k.time, k.regions, k.cells, k.hubc, k.res, k.dig, k.xs, k.ens, k.casc, k.age, k.fab, k.sb, k.bc, k.jobs, k.mgt, k.cmd, v, k.regs, k.mem, k.dma, k.trc, k.nid, k.log, k.boot, k.img, k.reports, k.posted, k.nvPosted⟩ :=
  Only.upd a (.inr rfl) (.inr rfl) (.inr rfl) (.inr rfl) (.inr rfl) (.inr rfl) (.inr rfl) (.inr rfl) (.inr rfl) (.inr rfl) (.inr rfl) (.inr rfl) (.inr rfl) (.inr rfl) (.inr rfl) (.inr rfl) (.inr rfl) (.inr rfl) (.inr rfl) (.inl w) (.inr rfl) (.inr rfl) (.inr rfl) (.inr rfl) (.inr rfl) (.inr rfl) (.inr rfl) (.inr rfl) (.inr rfl) (.inr rfl) (.inr rfl)

theorem Only.set_regs {ps : List Piece} {h k : Hub} (a : Only ps h k) {v} (w : within? [.regs] ps = true) :
    Only ps h ⟨k.free, k.sys, k.isl, k.time, k.regions, k.cells, k.hubc, k.res, k.dig, k.xs, k.ens, k.casc, k.age, k.fab, k.sb, k.bc, k.jobs, k.mgt, k.cmd, k.prot, v, k.mem, k.dma, k.trc, k.nid, k.log, k.boot, k.img, k.reports, k.posted, k.nvPosted⟩ :=
  Only.upd a (.inr rfl) (.inr rfl) (.inr rfl) (.inr rfl) (.inr rfl) (.inr rfl) (.inr rfl) (.inr rfl) (.inr rfl) (.inr rfl) (.inr rfl) (.inr rfl) (.inr rfl) (.inr rfl) (.inr rfl) (.inr rfl) (.inr rfl) (.inr rfl) (.inr rfl) (.inr rfl) (.inl w) (.inr rfl) (.inr rfl) (.inr rfl) (.inr rfl) (.inr rfl) (.inr rfl) (.inr rfl) (.inr rfl) (.inr rfl) (.inr rfl)

theorem Only.set_mem {ps : List Piece} {h k : Hub} (a : Only ps h k) {v} (w : within? [.mem] ps = true) :
    Only ps h ⟨k.free, k.sys, k.isl, k.time, k.regions, k.cells, k.hubc, k.res, k.dig, k.xs, k.ens, k.casc, k.age, k.fab, k.sb, k.bc, k.jobs, k.mgt, k.cmd, k.prot, k.regs, v, k.dma, k.trc, k.nid, k.log, k.boot, k.img, k.reports, k.posted, k.nvPosted⟩ :=
  Only.upd a (.inr rfl) (.inr rfl) (.inr rfl) (.inr rfl) (.inr rfl) (.inr rfl) (.inr rfl) (.inr rfl) (.inr rfl) (.inr rfl) (.inr rfl) (.inr rfl) (.inr rfl) (.inr rfl) (.inr rfl) (.inr rfl) (.inr rfl) (.inr rfl) (.inr rfl) (.inr rfl) (.inr rfl) (.inl w) (.inr rfl) (.inr rfl) (.inr rfl) (.inr rfl) (.inr rfl) (.inr rfl) (.inr rfl) (.inr rfl) (.inr rfl)

theorem Only.set_dma {ps : List Piece} {h k : Hub} (a : Only ps h k) {v} (w : within? [.dma] ps = true) :
    Only ps h ⟨k.free, k.sys, k.isl, k.time, k.regions, k.cells, k.hubc, k.res, k.dig, k.xs, k.ens, k.casc, k.age, k.fab, k.sb, k.bc, k.jobs, k.mgt, k.cmd, k.prot, k.regs, k.mem, v, k.trc, k.nid, k.log, k.boot, k.img, k.reports, k.posted, k.nvPosted⟩ :=
  Only.upd a (.inr rfl) (.inr rfl) (.inr rfl) (.inr rfl) (.inr rfl) (.inr rfl) (.inr rfl) (.inr rfl) (.inr rfl) (.inr rfl) (.inr rfl) (.inr rfl) (.inr rfl) (.inr rfl) (.inr rfl) (.inr rfl) (.inr rfl) (.inr rfl) (.inr rfl) (.inr rfl) (.inr rfl) (.inr rfl) (.inl w) (.inr rfl) (.inr rfl) (.inr rfl) (.inr rfl) (.inr rfl) (.inr rfl) (.inr rfl) (.inr rfl)

theorem Only.set_trc {ps : List Piece} {h k : Hub} (a : Only ps h k) {v} (w : within? [.trc] ps = true) :
    Only ps h ⟨k.free, k.sys, k.isl, k.time, k.regions, k.cells, k.hubc, k.res, k.dig, k.xs, k.ens, k.casc, k.age, k.fab, k.sb, k.bc, k.jobs, k.mgt, k.cmd, k.prot, k.regs, k.mem, k.dma, v, k.nid, k.log, k.boot, k.img, k.reports, k.posted, k.nvPosted⟩ :=
  Only.upd a (.inr rfl) (.inr rfl) (.inr rfl) (.inr rfl) (.inr rfl) (.inr rfl) (.inr rfl) (.inr rfl) (.inr rfl) (.inr rfl) (.inr rfl) (.inr rfl) (.inr rfl) (.inr rfl) (.inr rfl) (.inr rfl) (.inr rfl) (.inr rfl) (.inr rfl) (.inr rfl) (.inr rfl) (.inr rfl) (.inr rfl) (.inl w) (.inr rfl) (.inr rfl) (.inr rfl) (.inr rfl) (.inr rfl) (.inr rfl) (.inr rfl)

theorem Only.set_nid {ps : List Piece} {h k : Hub} (a : Only ps h k) {v} (w : within? [.nid] ps = true) :
    Only ps h ⟨k.free, k.sys, k.isl, k.time, k.regions, k.cells, k.hubc, k.res, k.dig, k.xs, k.ens, k.casc, k.age, k.fab, k.sb, k.bc, k.jobs, k.mgt, k.cmd, k.prot, k.regs, k.mem, k.dma, k.trc, v, k.log, k.boot, k.img, k.reports, k.posted, k.nvPosted⟩ :=
  Only.upd a (.inr rfl) (.inr rfl) (.inr rfl) (.inr rfl) (.inr rfl) (.inr rfl) (.inr rfl) (.inr rfl) (.inr rfl) (.inr rfl) (.inr rfl) (.inr rfl) (.inr rfl) (.inr rfl) (.inr rfl) (.inr rfl) (.inr rfl) (.inr rfl) (.inr rfl) (.inr rfl) (.inr rfl) (.inr rfl) (.inr rfl) (.inr rfl) (.inl w) (.inr rfl) (.inr rfl) (.inr rfl) (.inr rfl) (.inr rfl) (.inr rfl)

theorem Only.set_log {ps : List Piece} {h k : Hub} (a : Only ps h k) {v} (w : within? [.log] ps = true) :
    Only ps h ⟨k.free, k.sys, k.isl, k.time, k.regions, k.cells, k.hubc, k.res, k.dig, k.xs, k.ens, k.casc, k.age, k.fab, k.sb, k.bc, k.jobs, k.mgt, k.cmd, k.prot, k.regs, k.mem, k.dma, k.trc, k.nid, v, k.boot, k.img, k.reports, k.posted, k.nvPosted⟩ :=
  Only.upd a (.inr rfl) (.inr rfl) (.inr rfl) (.inr rfl) (.inr rfl) (.inr rfl) (.inr rfl) (.inr rfl) (.inr rfl) (.inr rfl) (.inr rfl) (.inr rfl) (.inr rfl) (.inr rfl) (.inr rfl) (.inr rfl) (.inr rfl) (.inr rfl) (.inr rfl) (.inr rfl) (.inr rfl) (.inr rfl) (.inr rfl) (.inr rfl) (.inr rfl) (.inl w) (.inr rfl) (.inr rfl) (.inr rfl) (.inr rfl) (.inr rfl)

theorem Only.set_boot {ps : List Piece} {h k : Hub} (a : Only ps h k) {v} (w : within? [.boot] ps = true) :
    Only ps h ⟨k.free, k.sys, k.isl, k.time, k.regions, k.cells, k.hubc, k.res, k.dig, k.xs, k.ens, k.casc, k.age, k.fab, k.sb, k.bc, k.jobs, k.mgt, k.cmd, k.prot, k.regs, k.mem, k.dma, k.trc, k.nid, k.log, v, k.img, k.reports, k.posted, k.nvPosted⟩ :=
  Only.upd a (.inr rfl) (.inr rfl) (.inr rfl) (.inr rfl) (.inr rfl) (.inr rfl) (.inr rfl) (.inr rfl) (.inr rfl) (.inr rfl) (.inr rfl) (.inr rfl) (.inr rfl) (.inr rfl) (.inr rfl) (.inr rfl) (.inr rfl) (.inr rfl) (.inr rfl) (.inr rfl) (.inr rfl) (.inr rfl) (.inr rfl) (.inr rfl) (.inr rfl) (.inr rfl) (.inl w) (.inr rfl) (.inr rfl) (.inr rfl) (.inr rfl)

theorem Only.set_img {ps : List Piece} {h k : Hub} (a : Only ps h k) {v} (w : within? [.img] ps = true) :
    Only ps h ⟨k.free, k.sys, k.isl, k.time, k.regions, k.cells, k.hubc, k.res, k.dig, k.xs, k.ens, k.casc, k.age, k.fab, k.sb, k.bc, k.jobs, k.mgt, k.cmd, k.prot, k.regs, k.mem, k.dma, k.trc, k.nid, k.log, k.boot, v, k.reports, k.posted, k.nvPosted⟩ :=
  Only.upd a (.inr rfl) (.inr rfl) (.inr rfl) (.inr rfl) (.inr rfl) (.inr rfl) (.inr rfl) (.inr rfl) (.inr rfl) (.inr rfl) (.inr rfl) (.inr rfl) (.inr rfl) (.inr rfl) (.inr rfl) (.inr rfl) (.inr rfl) (.inr rfl) (.inr rfl) (.inr rfl) (.inr rfl) (.inr rfl) (.inr rfl) (.inr rfl) (.inr rfl) (.inr rfl) (.inr rfl) (.inl w) (.inr rfl) (.inr rfl) (.inr rfl)

theorem Only.set_reports {ps : List Piece} {h k : Hub} (a : Only ps h k) {v} (w : within? [.reports] ps = true) :
    Only ps h ⟨k.free, k.sys, k.isl, k.time, k.regions, k.cells, k.hubc, k.res, k.dig, k.xs, k.ens, k.casc, k.age, k.fab, k.sb, k.bc, k.jobs, k.mgt, k.cmd, k.prot, k.regs, k.mem, k.dma, k.trc, k.nid, k.log, k.boot, k.img, v, k.posted, k.nvPosted⟩ :=
  Only.upd a (.inr rfl) (.inr rfl) (.inr rfl) (.inr rfl) (.inr rfl) (.inr rfl) (.inr rfl) (.inr rfl) (.inr rfl) (.inr rfl) (.inr rfl) (.inr rfl) (.inr rfl) (.inr rfl) (.inr rfl) (.inr rfl) (.inr rfl) (.inr rfl) (.inr rfl) (.inr rfl) (.inr rfl) (.inr rfl) (.inr rfl) (.inr rfl) (.inr rfl) (.inr rfl) (.inr rfl) (.inr rfl) (.inl w) (.inr rfl) (.inr rfl)

theorem Only.set_posted {ps : List Piece} {h k : Hub} (a : Only ps h k) {v} (w : within? [.ram] ps = true) :
    Only ps h ⟨k.free, k.sys, k.isl, k.time, k.regions, k.cells, k.hubc, k.res, k.dig, k.xs, k.ens, k.casc, k.age, k.fab, k.sb, k.bc, k.jobs, k.mgt, k.cmd, k.prot, k.regs, k.mem, k.dma, k.trc, k.nid, k.log, k.boot, k.img, k.reports, v, k.nvPosted⟩ :=
  Only.upd a (.inr rfl) (.inr rfl) (.inr rfl) (.inr rfl) (.inr rfl) (.inr rfl) (.inr rfl) (.inr rfl) (.inr rfl) (.inr rfl) (.inr rfl) (.inr rfl) (.inr rfl) (.inr rfl) (.inr rfl) (.inr rfl) (.inr rfl) (.inr rfl) (.inr rfl) (.inr rfl) (.inr rfl) (.inr rfl) (.inr rfl) (.inr rfl) (.inr rfl) (.inr rfl) (.inr rfl) (.inr rfl) (.inr rfl) (.inl w) (.inr rfl)

theorem Only.set_nvPosted {ps : List Piece} {h k : Hub} (a : Only ps h k) {v} (w : within? [.nvm] ps = true) :
    Only ps h ⟨k.free, k.sys, k.isl, k.time, k.regions, k.cells, k.hubc, k.res, k.dig, k.xs, k.ens, k.casc, k.age, k.fab, k.sb, k.bc, k.jobs, k.mgt, k.cmd, k.prot, k.regs, k.mem, k.dma, k.trc, k.nid, k.log, k.boot, k.img, k.reports, k.posted, v⟩ :=
  Only.upd a (.inr rfl) (.inr rfl) (.inr rfl) (.inr rfl) (.inr rfl) (.inr rfl) (.inr rfl) (.inr rfl) (.inr rfl) (.inr rfl) (.inr rfl) (.inr rfl) (.inr rfl) (.inr rfl) (.inr rfl) (.inr rfl) (.inr rfl) (.inr rfl) (.inr rfl) (.inr rfl) (.inr rfl) (.inr rfl) (.inr rfl) (.inr rfl) (.inr rfl) (.inr rfl) (.inr rfl) (.inr rfl) (.inr rfl) (.inr rfl) (.inl w)

end Sys2Proof.Machine
end

