-- ==== Sys2Proof/Laws/FrameOps.lean ====
section
/-!
SUPPORT. What each shared operation of records, memory, network, commands, time and trace may change: one lemma an operation.
-/
namespace Sys2Proof.Machine

theorem onHubc_only (a0 a1 a2) : Only [.hubc] a2 (onHubc a0 a1 a2) := by
  unfold onHubc
  exact (Only.set_hubc (Only.refl _ _) rfl)

theorem report_only (a0 a1 a2 a3 a4) : Only [.reports] a4 (report a0 a1 a2 a3 a4) := by
  unfold report
  exact (Only.set_reports (Only.refl _ _) rfl)

theorem irq_only (a0 a1) : Only [.regs] a1 (irq a0 a1) := by
  unfold irq
  exact (Only.set_regs (Only.refl _ _) rfl)

theorem pushRec_only (a0 a1 a2 a3 a4 a5 a6 a7 a8) : Only [.log] a8 (pushRec a0 a1 a2 a3 a4 a5 a6 a7 a8) := by
  unfold pushRec
  exact (Only.set_log (Only.refl _ _) rfl)

theorem emitAt_only (a0 a1 a2 a3 a4 a5 a6 a7 a8) : Only [.regs, .log] a8 (emitAt a0 a1 a2 a3 a4 a5 a6 a7 a8) := by
  unfold emitAt
  exact (Only.ite (Only.set_log (Only.refl _ _) rfl) (Only.ite (Only.refl _ _) (Only.named (fun q1 =>
    (Only.named (fun q2 =>
    (Only.ite (Only.set_log q2 rfl) (Only.named (fun q3 =>
    (Only.step q3 (pushRec_only ..) rfl))
    (Only.ite q2 (Only.step (Only.step (Only.set_log q2 rfl) (pushRec_only ..) rfl) (irq_only ..) rfl)))))
    (Only.ite (Only.step q1 (irq_only ..) rfl) q1)))
    (Only.ite (Only.step (Only.refl _ _) (irq_only ..) rfl) (Only.refl _ _)))))

theorem onRegion_only (a0 a1 a2) : Only [.regions] a2 (onRegion a0 a1 a2) := by
  unfold onRegion
  exact (Only.set_regions (Only.refl _ _) rfl)

theorem emit_only (a0 a1 a2 a3 a4 a5 a6 a7) : Only [.regs, .log] a7 (emit a0 a1 a2 a3 a4 a5 a6 a7) := by
  unfold emit
  exact (Only.step (Only.refl _ _) (emitAt_only ..) rfl)

theorem overridden_only (a0 a1 a2 a3) : Only [.regs, .log] a3 (overridden a0 a1 a2 a3) := by
  unfold overridden
  exact (Only.step (Only.refl _ _) (emit_only ..) rfl)

theorem portField_only {ps : List Piece} {unit off : Nat} {v : DWord} {f : Hub → Hub} {h k : Hub} (a : Only ps h k)
    (hf : ∀ x, Only ps x (f x)) (w : within? [.regs, .log] ps = true) : Only ps h (portField unit off v f k) := by
  have r : within? [.regs] ps = true := within_trans (by decide) w
  unfold portField
  exact Only.ite (Only.step a (overridden_only ..) w) ((Only.set_regs a r).trans (hf _))

theorem refusedWrite_only (a0 a1 a2 a3) : Only [.regs, .log] a3 (refusedWrite a0 a1 a2 a3) := by
  unfold refusedWrite
  exact (Only.step (Only.refl _ _) (emit_only ..) rfl)

theorem emitState_only (a0 a1 a2) : Only [.regs, .log] a2 (emitState a0 a1 a2) := by
  unfold emitState
  exact (Only.step (Only.refl _ _) (emit_only ..) rfl)

theorem nvPost_only (a0 a1 a2) : Only [.nvm] a2 (nvPost a0 a1 a2) := by
  unfold nvPost
  exact (Only.set_nvPosted (Only.refl _ _) rfl)

theorem actHeld_only (a0) : Only [.time] a0 (actHeld a0) := by
  unfold actHeld
  exact (Only.set_time (Only.refl _ _) rfl)

theorem drawn_only (a0 a1) : Only [.free] a0 (drawn a0 a1) := by
  unfold drawn
  exact (Only.set_free (Only.refl _ _) rfl)

theorem guard_only {ps : List Piece} {b : Bool} {f : Hub → Hub} {h k : Hub} (a : Only ps h k) (hf : ∀ x, Only ps x (f x)) :
    Only ps h (guard b f k) := by
  unfold guard
  exact Only.ite (a.trans (hf k)) a

theorem onCell_only (a0 a1 a2) : Only [.cells] a2 (onCell a0 a1 a2) := by
  unfold onCell
  exact (Only.set_cells (Only.refl _ _) rfl)

theorem ignoredWrite_only (a0 a1 a2 a3) : Only [.prot, .regs, .log] a3 (ignoredWrite a0 a1 a2 a3) := by
  unfold ignoredWrite
  exact (Only.step (Only.set_prot (Only.refl _ _) rfl) (emit_only ..) rfl)

theorem toState_only (a0 a1) : Only [.sys, .regs, .log] a1 (toState a0 a1) := by
  unfold toState
  exact (Only.named (fun q1 =>
    (Only.named (fun q2 =>
    (Only.ite q2 (Only.step q2 (emitState_only ..) rfl)))
    (Only.step (Only.set_sys q1 rfl) (irq_only ..) rfl)))
    (Only.ite (Only.step (Only.refl _ _) (emitState_only ..) rfl) (Only.refl _ _)))

theorem commandField_only {ps : List Piece} {unit off : Nat} {f : Hub → Hub} {h k : Hub} (a : Only ps h k)
    (hf : ∀ x, Only ps x (f x)) (w : within? [.regs, .log] ps = true) : Only ps h (commandField unit off f k) := by
  have r : within? [.regs] ps = true := within_trans (by decide) w
  unfold commandField
  exact Only.named (fun q1 => (Only.set_regs q1 r).trans (hf _))
    (Only.foldl (fun _ _ => Only.step (Only.refl _ _) (overridden_only ..) w) _ a)

theorem emitUnit_only (a0 a1 a2 a3 a4) : Only [.regs, .log] a4 (emitUnit a0 a1 a2 a3 a4) := by
  unfold emitUnit
  exact (Only.step (Only.refl _ _) (emit_only ..) rfl)

theorem nvErase_only (a0 a1 a2 a3) : Only [.nvm] a3 (nvErase a0 a1 a2 a3) := by
  unfold nvErase
  exact (Only.set_nvPosted (Only.refl _ _) rfl)

theorem onEnt_only (a0 a1 a2) : Only [.casc] a2 (onEnt a0 a1 a2) := by
  unfold onEnt
  exact (Only.set_casc (Only.refl _ _) rfl)

theorem countCore_only (a0 a1 a2 a3) : Only [.hubc] a2 (countCore a0 a1 a2 a3) := by
  unfold countCore
  exact (Only.step (Only.refl _ _) (onHubc_only ..) rfl)

theorem decodeError_only (a0 a1) : Only [.regs, .mem, .log] a1 (decodeError a0 a1) := by
  unfold decodeError
  exact (Only.step (Only.set_mem (Only.refl _ _) rfl) (emit_only ..) rfl)

theorem charge_only (a0 a1 a2) : Only [.mem] a2 (charge a0 a1 a2) := by
  unfold charge
  exact (by
    split
    · exact (Only.set_mem (Only.refl _ _) rfl)
    · exact (Only.refl _ _))

theorem issueReq_only {l : List MemWait} {w : MemWait} {h k : Hub} (q : issueReq l w h = .issued k) :
    Only [.mem] h k := by
  unfold issueReq at q
  split at q
  · cases q
  · dsimp only at q
    split at q
    · cases q
    · split at q
      · cases q
      · split at q
        · cases q
        · split at q
          · cases q
          · injection q with q
            rw [← q]
            exact Only.step (Only.set_mem (Only.refl _ _) rfl) (charge_only ..) rfl

theorem tryAccess_only (e : Env) (before : List MemWait) (w : MemWait) (h : Hub) : Only [.regs, .mem, .log] h (tryAccess e before w h) := by
  unfold tryAccess
  dsimp only
  split
  · exact Only.weaken (issueReq_only (by assumption)) rfl
  · exact Only.set_mem (Only.refl _ _) rfl
  · exact Only.set_mem (Only.refl _ _) rfl
  · exact Only.set_mem (Only.weaken (decodeError_only ..) rfl) rfl

theorem access_only (a0 a1 a2) : Only [.regs, .mem, .log] a2 (access a0 a1 a2) := by
  unfold access
  exact (Only.step (Only.refl _ _) (tryAccess_only ..) rfl)

theorem rowLines_only (a0 a1 a2 a3 a4 a5) : Only [.regs, .mem, .log] a5 (rowLines a0 a1 a2 a3 a4 a5) := by
  unfold rowLines
  exact (Only.foldl (fun _ _ => (Only.step (Only.refl _ _) (access_only ..) rfl)) _ (Only.refl _ _))

theorem putRow_only (a0 a1 a2) : Only [.ens] a2 (putRow a0 a1 a2) := by
  unfold putRow
  exact (Only.set_ens (Only.refl _ _) rfl)

theorem makeRoom_only (a0 a1) : Only [.ens, .regs, .mem, .log] a1 (makeRoom a0 a1) := by
  unfold makeRoom
  exact (Only.ite (Only.refl _ _) (by
    split
    · exact (Only.refl _ _)
    · exact (Only.ite (Only.named (fun q1 =>
    (by
    try dsimp -proj only
    split
    · exact (by
    split
    · exact (Only.step q1 (rowLines_only ..) rfl)
    · exact q1)
    · exact q1))
    (Only.set_ens (Only.refl _ _) rfl)) (Only.set_ens (Only.refl _ _) rfl))))

theorem waitRoom_only (a0 a1) : Only [.ens] a1 (waitRoom a0 a1) := by
  unfold waitRoom
  exact (Only.ite (Only.refl _ _) (Only.set_ens (Only.refl _ _) rfl))

theorem takeRow_only (a0 a1 a2) : Only [.ens, .regs, .mem, .log] a2 (takeRow a0 a1 a2) := by
  unfold takeRow
  exact (Only.named (fun q1 =>
    (by
    try dsimp -proj only
    split
    · exact (by
    split
    · exact q1
    · exact (Only.step (Only.step (Only.set_ens q1 rfl) (putRow_only ..) rfl) (rowLines_only ..) rfl))
    · exact (Only.ite (Only.step q1 (emitUnit_only ..) rfl) (Only.step (Only.set_ens q1 rfl) (putRow_only ..) rfl))))
    (Only.set_ens (Only.refl _ _) rfl))

theorem startFill_only (a0 a1 a2) : Only [.ens, .regs, .mem, .log] a2 (startFill a0 a1 a2) := by
  unfold startFill
  exact (by
    split
    · exact (Only.ite (Only.step (Only.set_ens (Only.refl _ _) rfl) (putRow_only ..) rfl) (Only.refl _ _))
    · exact (Only.named (fun q1 =>
    (Only.ite q1 (Only.step q1 (takeRow_only ..) rfl)))
    (Only.step (Only.step (Only.refl _ _) (waitRoom_only ..) rfl) (makeRoom_only ..) rfl)))

theorem retryRoom_only (a0 a1) : Only [.ens, .regs, .mem, .log] a1 (retryRoom a0 a1) := by
  unfold retryRoom
  exact (Only.foldl (fun _ _ => (Only.step (Only.refl _ _) (startFill_only ..) rfl)) _ (Only.refl _ _))

theorem featWrite_only (a0 a1 a2 a3 a4) : Only [.ens, .regs, .mem, .log] a4 (featWrite a0 a1 a2 a3 a4) := by
  unfold featWrite
  exact (Only.named (fun q1 =>
    (by
    try dsimp -proj only
    split
    · exact (Only.set_ens q1 rfl)
    · exact (Only.ite (Only.step q1 (putRow_only ..) rfl) (Only.step q1 (putRow_only ..) rfl))))
    (Only.ite (Only.step (Only.refl _ _) (startFill_only ..) rfl) (Only.refl _ _)))

theorem featWrites_only (a0 a1 a2 a3 a4) : Only [.ens, .regs, .mem, .log] a4 (featWrites a0 a1 a2 a3 a4) := by
  unfold featWrites
  exact (Only.foldl (fun _ _ => (Only.step (Only.refl _ _) (featWrite_only ..) rfl)) _ (Only.refl _ _))

theorem pumpPort_only (e : Env) (n : Nat) (h : Hub) : Only [.regs, .mem, .log] h (pumpPort e n h) := by
  induction n generalizing h with
  | zero => exact Only.refl _ _
  | succ n ih =>
    unfold pumpPort
    split
    · exact Only.refl _ _
    · exact Only.step (Only.step (Only.set_mem (Only.refl _ _) rfl) (tryAccess_only ..) rfl) (ih _) rfl

theorem dmaRequest_only (a0 a1) : Only [.regs, .dma, .log] a1 (dmaRequest a0 a1) := by
  unfold dmaRequest
  exact (Only.ite (Only.refl _ _) (Only.ite (Only.step (Only.set_dma (Only.refl _ _) rfl) (emit_only ..) rfl) (Only.set_dma (Only.refl _ _) rfl)))

theorem pulseLine_only (a0 a1) : Only [.regs, .dma, .log] a1 (pulseLine a0 a1) := by
  unfold pulseLine
  exact (Only.foldl (fun _ _ => (Only.step (Only.refl _ _) (dmaRequest_only ..) rfl)) _ (Only.refl _ _))

theorem chargeEnt_only (a0 a1 a2) : Only [.ens, .casc, .regs, .mem, .log] a2 (chargeEnt a0 a1 a2) := by
  unfold chargeEnt
  exact (Only.step (Only.set_casc (Only.refl _ _) rfl) (featWrite_only ..) rfl)

theorem postMem_only (a0 a1 a2) : Only [.ram] a2 (postMem a0 a1 a2) := by
  unfold postMem
  exact (Only.set_posted (Only.refl _ _) rfl)

theorem sbAssemble_only (a0 a1) : Only [.sb] a1 (sbAssemble a0 a1).1 := by
  unfold sbAssemble
  exact (Only.ite1 (Only.fst (Only.refl _ _)) (by
    try dsimp -proj only
    split
    · exact (Only.fst (Only.set_sb (Only.refl _ _) rfl))
    · exact (Only.fst (Only.refl _ _))
    · exact (Only.ite1 (Only.fst (Only.set_sb (Only.refl _ _) rfl)) (Only.ite1 (Only.fst (Only.set_sb (Only.refl _ _) rfl)) (Only.fst (Only.set_sb (Only.refl _ _) rfl))))))

theorem onMember_only (a0 a1 a2) : Only [.sb] a2 (onMember a0 a1 a2) := by
  unfold onMember
  exact (Only.set_sb (Only.refl _ _) rfl)

theorem onPort_only (a0 a1 a2) : Only [.sb] a2 (onPort a0 a1 a2) := by
  unfold onPort
  exact (Only.set_sb (Only.refl _ _) rfl)

theorem sbPump_only (n i : Nat) (h : Hub) : Only [.sb] h (sbPump n i h) := by
  induction n generalizing h with
  | zero => exact Only.refl _ _
  | succ n ih =>
    unfold sbPump
    dsimp only
    split
    · exact Only.refl _ _
    · exact Only.ite (Only.refl _ _) (Only.step (Only.step (Only.set_sb (Only.refl _ _) rfl) (onPort_only ..) rfl) (ih _) rfl)

theorem sbOut_only (a0 a1 a2) : Only [.sb] a2 (sbOut a0 a1 a2) := by
  unfold sbOut
  exact (Only.ite (Only.refl _ _) (Only.ite (Only.set_sb (Only.refl _ _) rfl) (Only.step (Only.step (Only.refl _ _) (onPort_only ..) rfl) (sbPump_only ..) rfl)))

theorem onSeg_only (a0 a1 a2) : Only [.mgt] a2 (onSeg a0 a1 a2) := by
  unfold onSeg
  exact (Only.ite (Only.set_mgt (Only.refl _ _) rfl) (Only.set_mgt (Only.refl _ _) rfl))

theorem mgtQueue_only (a0 a1 a2 a3) : Only [.mgt] a3 (mgtQueue a0 a1 a2 a3) := by
  unfold mgtQueue
  exact (Only.ite (Only.set_mgt (Only.refl _ _) rfl) (Only.step (Only.refl _ _) (onSeg_only ..) rfl))

theorem mgtSend_only (a0 a1 a2 a3) : Only [.mgt] a3 (mgtSend a0 a1 a2 a3) := by
  unfold mgtSend
  exact (Only.ite (Only.ite (Only.named (fun q1 =>
    (Only.ite (Only.step q1 (mgtQueue_only ..) rfl) q1))
    (Only.ite (Only.step (Only.refl _ _) (mgtQueue_only ..) rfl) (Only.refl _ _))) (Only.step (Only.refl _ _) (mgtQueue_only ..) rfl)) (by
    split
    · exact (Only.step (Only.refl _ _) (mgtQueue_only ..) rfl)
    · exact (Only.step (Only.refl _ _) (mgtQueue_only ..) rfl)))

theorem sbLack_only (a0 a1 a2) : Only [.sb] a2 (sbLack a0 a1 a2) := by
  unfold sbLack
  exact (Only.ite (Only.refl _ _) (Only.step (Only.step (Only.refl _ _) (onPort_only ..) rfl) (sbPump_only ..) rfl))

theorem noteFlood_only (a0 a1) : Only [.sb] a1 (noteFlood a0 a1) := by
  unfold noteFlood
  exact (Only.set_sb (Only.refl _ _) rfl)

theorem chargePort_only (a0 a1 a2) : Only [.ens, .casc, .fab, .regs, .mem, .log] a2 (chargePort a0 a1 a2) := by
  unfold chargePort
  exact (Only.step (Only.set_fab (Only.refl _ _) rfl) (chargeEnt_only ..) rfl)

theorem sbBad_only (a0 a1 a2) : Only [.ens, .casc, .fab, .sb, .regs, .mem, .log] a2 (sbBad a0 a1 a2) := by
  unfold sbBad
  exact (Only.step (Only.set_sb (Only.refl _ _) rfl) (chargePort_only ..) rfl)

theorem sbLocal_only (a0 a1 a2) : Only [.sb] a2 (sbLocal a0 a1 a2) := by
  unfold sbLocal
  exact (Only.step (Only.set_sb (Only.refl _ _) rfl) (onPort_only ..) rfl)

theorem sbRx_only (a0 a1 a2 a3) : Only [.ens, .casc, .fab, .sb, .regs, .mem, .log] a3 (sbRx a0 a1 a2 a3).1 := by
  unfold sbRx
  exact (Only.ite1 (Only.fst (Only.refl _ _)) (Only.named (fun q1 =>
    (Only.ite1 (Only.fst (Only.step q1 (sbBad_only ..) rfl)) (Only.ite1 (Only.ite1 (Only.fst q1) (Only.fst (Only.step q1 (sbLack_only ..) rfl))) (Only.ite1 (Only.fst q1) (Only.ite1 (Only.fst q1) (Only.named (fun q2 =>
    (Only.ite1 (Only.fst (Only.step (Only.step q2 (onPort_only ..) rfl) (sbLocal_only ..) rfl)) (Only.fst (Only.step q2 (sbLocal_only ..) rfl))))
    (Only.step q1 (sbLack_only ..) rfl)))))))
    (Only.set_sb (Only.refl _ _) rfl)))

theorem photenCheck_only (e : Env) (p : List Byte) (port : Nat) (h : Hub) : Only [.ens, .casc, .fab, .regs, .mem, .log] h (photenCheck e p port h).1 := by
  have bad : ∀ k, Only [.ens, .casc, .fab, .regs, .mem, .log] k { k with fab := { k.fab with bad := k.fab.bad + 1 } } := fun k => Only.set_fab (Only.refl _ _) rfl
  have crc : Only [.ens, .casc, .fab, .regs, .mem, .log] h { h with fab := { h.fab with crc := h.fab.crc + 1 } } := Only.set_fab (Only.refl _ _) rfl
  have drowse : Only [.ens, .casc, .fab, .regs, .mem, .log] h { h with fab := { h.fab with drowse := h.fab.drowse + 1 } } := Only.set_fab (Only.refl _ _) rfl
  have dup : Only [.ens, .casc, .fab, .regs, .mem, .log] h { h with fab := { h.fab with dup := h.fab.dup + 1 } } := Only.set_fab (Only.refl _ _) rfl
  unfold photenCheck
  refine Only.ite1 (Only.refl _ _) (Only.ite1 (Only.step (bad _) (chargeEnt_only ..) rfl)
    (Only.ite1 (Only.step (bad _) (chargePort_only ..) rfl)
    (Only.ite1 (Only.step crc (chargePort_only ..) rfl) (Only.ite1 (Only.step (bad _) (chargePort_only ..) rfl)
    (Only.ite1 (Only.step (bad _) (chargePort_only ..) rfl) (Only.ite1 drowse ?_))))))
  dsimp only
  split
  · exact dup
  · exact Only.set_fab (Only.refl _ _) rfl

theorem photenRx_only {ps : List Piece} {e : Env} {want : Nat} {b : List Byte} {port : Nat} {f : RxPkt → Hub → Hub} {h k : Hub}
    (a : Only ps h k) (hf : ∀ r x, Only ps x (f r x)) (w : within? [.ens, .casc, .fab, .regs, .mem, .log] ps = true) : Only ps h (photenRx e want b port f k) := by
  unfold photenRx
  split
  · next x r hq =>
    have q : Only ps h x := Only.pair (by assumption) (Only.step a (photenCheck_only e b port k) w)
    exact Only.ite (q.trans (hf r x)) q
  · next x hq => exact Only.pair (by assumption) (Only.step a (photenCheck_only e b port k) w)

theorem sbNextMseq_only (a0) : Only [.sb] a0 (sbNextMseq a0) := by
  unfold sbNextMseq
  exact (Only.set_sb (Only.refl _ _) rfl)

theorem sbFlood_only (a0 a1 a2) : Only [.sb] a2 (sbFlood a0 a1 a2) := by
  unfold sbFlood
  exact (Only.foldl (fun _ _ => (Only.foldl (fun _ _ => (Only.step (Only.refl _ _) (sbOut_only ..) rfl)) _ (Only.refl _ _))) _ (Only.refl _ _))

theorem sbAlong_only (a0 a1 a2 a3 a4) : Only [.sb] a4 (sbAlong a0 a1 a2 a3 a4) := by
  unfold sbAlong
  exact (Only.foldl (fun _ _ => (Only.ite (Only.step (Only.refl _ _) (sbOut_only ..) rfl) (Only.step (Only.refl _ _) (sbOut_only ..) rfl))) _ (Only.refl _ _))

theorem sbUp_only (a0 a1 a2 a3) : Only [.sb] a3 (sbUp a0 a1 a2 a3) := by
  unfold sbUp
  exact (Only.named (fun q1 =>
    (Only.ite (Only.ite (Only.step q1 (sbFlood_only ..) rfl) (Only.set_sb q1 rfl)) (by
    try dsimp -proj only
    split
    · exact (Only.step q1 (sbAlong_only ..) rfl)
    · exact q1)))
    (Only.step (Only.refl _ _) (sbNextMseq_only ..) rfl))

theorem sbOn_only {ps : List Piece} {e : Env} {want i : Nat} {f : SbFrame} {act : Hub → Hub} {h k : Hub}
    (a : Only ps h k) (hf : ∀ x, Only ps x (act x)) (w : within? [.ens, .casc, .fab, .sb, .regs, .mem, .log] ps = true) : Only ps h (sbOn e want i f act k) := by
  unfold sbOn
  have q : Only ps h (sbRx e i f k).1 := Only.step a (sbRx_only e i f k) w
  have t : ∀ x, Only ps h x → Only ps h (act x) := fun x hx => hx.trans (hf x)
  have s : within? [.sb] ps = true := within_trans (by decide) w
  exact Only.ite (Only.ite (Only.ite q (t _ (Only.step q (noteFlood_only ..) s))) (t _ q)) q

theorem mgtReply_only (a0 a1 a2 a3 a4) : Only [.mgt, .cmd] a4 (mgtReply a0 a1 a2 a3 a4) := by
  unfold mgtReply
  exact (by
    split
    · exact (Only.refl _ _)
    · exact (Only.step (Only.set_cmd (Only.refl _ _) rfl) (mgtSend_only ..) rfl))

theorem noteFill_only (a0) : Only [.xs] a0 (noteFill a0) := by
  unfold noteFill
  exact (Only.set_xs (Only.refl _ _) rfl)

theorem photenSend_only (a0 a1 a2 a3 a4 a5 a6) : Only [.xs, .fab] a6 (photenSend a0 a1 a2 a3 a4 a5 a6) := by
  unfold photenSend
  exact (Only.ite (Only.set_fab (Only.refl _ _) rfl) (Only.step (Only.set_fab (Only.refl _ _) rfl) (noteFill_only ..) rfl))

theorem sbDown_only (a0 a1 a2 a3 a4) : Only [.sb] a4 (sbDown a0 a1 a2 a3 a4) := by
  unfold sbDown
  exact (Only.named (fun q1 =>
    (by
    try dsimp -proj only
    split
    · exact (Only.step q1 (sbAlong_only ..) rfl)
    · exact (Only.set_sb q1 rfl)))
    (Only.step (Only.refl _ _) (sbNextMseq_only ..) rfl))

theorem onBin_only (a0 a1 a2 a3) : Only [.age] a3 (onBin a0 a1 a2 a3) := by
  unfold onBin
  exact (Only.set_age (Only.refl _ _) rfl)

theorem histCore_only (a0 a1 a2 a3 a4 a5) : Only [.age] a5 (histCore a0 a1 a2 a3 a4 a5) := by
  unfold histCore
  exact (Only.named (fun q1 =>
    (Only.set_age q1 rfl))
    (Only.step (Only.refl _ _) (onBin_only ..) rfl))

theorem histDie_only (a0 a1 a2 a3) : Only [.age] a3 (histDie a0 a1 a2 a3) := by
  unfold histDie
  exact (Only.step (Only.refl _ _) (onBin_only ..) rfl)

theorem onZone_only (a0 a1 a2) : Only [.age] a2 (onZone a0 a1 a2) := by
  unfold onZone
  exact (Only.set_age (Only.refl _ _) rfl)

theorem onTrc_only (a0 a1) : Only [.trc] a1 (onTrc a0 a1) := by
  unfold onTrc
  exact (Only.set_trc (Only.refl _ _) rfl)

theorem putSeif_only (a0 a1) : Only [.trc] a1 (putSeif a0 a1) := by
  unfold putSeif
  exact (Only.step (Only.refl _ _) (onTrc_only ..) rfl)

theorem putTimed_only (a0 a1 a2 a3 a4 a5 a6) : Only [.trc] a6 (putTimed a0 a1 a2 a3 a4 a5 a6) := by
  unfold putTimed
  exact (Only.named (fun q1 =>
    (Only.named (fun q2 =>
    (Only.step q2 (onTrc_only ..) rfl))
    (Only.ite (Only.step q1 (putSeif_only ..) rfl) q1)))
    (Only.ite (Only.step (Only.refl _ _) (putSeif_only ..) rfl) (Only.refl _ _)))

theorem startBlock_only (a0 a1) : Only [.trc] a1 (startBlock a0 a1) := by
  unfold startBlock
  exact (Only.ite (Only.refl _ _) (Only.named (fun q1 =>
    (Only.ite q1 (Only.step (Only.step q1 (onTrc_only ..) rfl) (putTimed_only ..) rfl)))
    (Only.step (Only.step (Only.refl _ _) (onTrc_only ..) rfl) (putSeif_only ..) rfl)))

theorem putFree_only (a0 a1 a2 a3 a4 a5 a6) : Only [.trc] a6 (putFree a0 a1 a2 a3 a4 a5 a6) := by
  unfold putFree
  exact (Only.step (Only.step (Only.refl _ _) (startBlock_only ..) rfl) (putTimed_only ..) rfl)

theorem applyTsel_only (a0 a1 a2 a3) : Only [.cells, .trc] a3 (applyTsel a0 a1 a2 a3) := by
  unfold applyTsel
  exact (Only.named (fun q1 =>
    (Only.ite (Only.step q1 (putFree_only ..) rfl) q1))
    (Only.step (Only.refl _ _) (onCell_only ..) rfl))

theorem driveTsel_only (a0 a1 a2 a3) : Only [.regions, .cells, .trc] a3 (driveTsel a0 a1 a2 a3) := by
  unfold driveTsel
  exact (Only.ite (Only.step (Only.refl _ _) (onRegion_only ..) rfl) (Only.step (Only.refl _ _) (applyTsel_only ..) rfl))

theorem applyCores_only (a0 a1 a2 a3) : Only [.regions, .cells, .trc] a3 (applyCores a0 a1 a2 a3) := by
  unfold applyCores
  exact (Only.foldl (fun _ _ => (Only.step (Only.refl _ _) (driveTsel_only ..) rfl)) _ (Only.foldl (fun _ _ => (Only.step (Only.refl _ _) (driveTsel_only ..) rfl)) _ (Only.refl _ _)))

theorem applyTrcNext_only (a0 a1) : Only [.regions, .cells, .trc] a1 (applyTrcNext a0 a1) := by
  unfold applyTrcNext
  exact (by
    split
    · exact (Only.refl _ _)
    · exact (Only.step (Only.step (Only.refl _ _) (onTrc_only ..) rfl) (applyCores_only ..) rfl))

theorem endBlock_only (a0 a1 a2 a3 a4) : Only [.regions, .cells, .trc] a4 (endBlock a0 a1 a2 a3 a4) := by
  unfold endBlock
  exact (Only.ite (Only.step (Only.refl _ _) (applyTrcNext_only ..) rfl) (Only.step (Only.set_trc (Only.refl _ _) rfl) (applyTrcNext_only ..) rfl))

theorem putRaw_only (a0 a1 a2 a3 a4 a5 a6) : Only [.regions, .cells, .trc] a6 (putRaw a0 a1 a2 a3 a4 a5 a6) := by
  unfold putRaw
  exact (Only.ite (Only.step (Only.refl _ _) (putFree_only ..) rfl) (Only.step (Only.step (Only.refl _ _) (endBlock_only ..) rfl) (putFree_only ..) rfl))

theorem endPost_only (a0 a1 a2) : Only [.regions, .cells, .trc] a2 (endPost a0 a1 a2) := by
  unfold endPost
  exact (Only.named (fun q1 =>
    (Only.step q1 (onTrc_only ..) rfl))
    (Only.step (Only.step (Only.refl _ _) (putRaw_only ..) rfl) (endBlock_only ..) rfl))

theorem fire_only (a0 a1 a2) : Only [.regions, .cells, .regs, .trc] a2 (fire a0 a1 a2) := by
  unfold fire
  exact (Only.named (fun q1 =>
    (Only.ite q1 (Only.named (fun q2 =>
    (Only.named (fun q3 =>
    (by
    try dsimp -proj only
    split
    · exact (Only.step q3 (endPost_only ..) rfl)
    · exact q3))
    (Only.step q2 (putRaw_only ..) rfl)))
    (Only.step (Only.step q1 (endBlock_only ..) rfl) (onTrc_only ..) rfl))))
    (Only.step (Only.step (Only.refl _ _) (onTrc_only ..) rfl) (irq_only ..) rfl))

theorem ignoreCond_only (a0 a1 a2) : Only [.regions, .cells, .trc] a2 (ignoreCond a0 a1 a2) := by
  unfold ignoreCond
  exact (Only.named (fun q1 =>
    (Only.ite (Only.step q1 (putRaw_only ..) rfl) q1))
    (Only.step (Only.refl _ _) (onTrc_only ..) rfl))

theorem trigger_only (a0 a1 a2) : Only [.regions, .cells, .regs, .trc] a2 (trigger a0 a1 a2) := by
  unfold trigger
  exact (Only.ite (Only.ite (Only.step (Only.refl _ _) (onTrc_only ..) rfl) (Only.refl _ _)) (Only.ite (Only.refl _ _) (Only.ite (Only.ite (Only.step (Only.refl _ _) (fire_only ..) rfl) (Only.step (Only.refl _ _) (onTrc_only ..) rfl)) (Only.step (Only.refl _ _) (ignoreCond_only ..) rfl))))

theorem putPkt_only (a0 a1 a2 a3 a4 a5 a6) : Only [.regions, .cells, .regs, .trc] a6 (putPkt a0 a1 a2 a3 a4 a5 a6) := by
  unfold putPkt
  exact (Only.ite (Only.refl _ _) (Only.ite (Only.step (Only.refl _ _) (onTrc_only ..) rfl) (Only.named (fun q1 =>
    (Only.named (fun q2 =>
    (Only.named (fun q3 =>
    (Only.ite (Only.step q3 (trigger_only ..) rfl) q3))
    (by
    split
    · exact (Only.step q2 (endPost_only ..) rfl)
    · exact q2)))
    (Only.step q1 (putRaw_only ..) rfl)))
    (Only.ite (Only.step (Only.step (Only.refl _ _) (onTrc_only ..) rfl) (putRaw_only ..) rfl) (Only.refl _ _)))))

theorem mark_only (a0 a1 a2 a3 a4 a5) : Only [.regions, .cells, .regs, .trc] a5 (mark a0 a1 a2 a3 a4 a5) := by
  unfold mark
  exact (Only.ite (Only.refl _ _) (Only.named (fun q1 =>
    (Only.ite (Only.step q1 (trigger_only ..) rfl) q1))
    (Only.step (Only.refl _ _) (putPkt_only ..) rfl)))

theorem outcomeMark_only (a0 a1 a2 a3 a4 a5) : Only [.regions, .cells, .regs, .trc] a5 (outcomeMark a0 a1 a2 a3 a4 a5) := by
  unfold outcomeMark
  exact (Only.named (fun q1 =>
    (Only.step q1 (trigger_only ..) rfl))
    (Only.step (Only.refl _ _) (mark_only ..) rfl))

theorem dropBlock_only (a0 a1) : Only [.trc] a1 (dropBlock a0 a1) := by
  unfold dropBlock
  exact (Only.step (Only.refl _ _) (onTrc_only ..) rfl)

theorem memSinkWrite_only (a0 a1 a2 a3 a4) : Only [.regs, .dma, .log, .ram] a4 (memSinkWrite a0 a1 a2 a3 a4) := by
  unfold memSinkWrite
  exact (Only.foldl (fun _ _ => (Only.step (Only.refl _ _) (postMem_only ..) rfl)) _ (Only.step (Only.refl _ _) (pulseLine_only ..) rfl))

theorem sinkWrite_only (a0 a1) : Only [.xs, .fab, .regs, .dma, .trc, .log, .ram] a1 (sinkWrite a0 a1) := by
  unfold sinkWrite
  exact (by
    try dsimp -proj only
    split
    · exact (Only.ite (Only.step (Only.refl _ _) (onTrc_only ..) rfl) (Only.step (Only.refl _ _) (dropBlock_only ..) rfl))
    · exact (Only.ite (Only.step (Only.refl _ _) (dropBlock_only ..) rfl) (Only.named (fun q1 =>
    (Only.step q1 (onTrc_only ..) rfl))
    (Only.step (Only.refl _ _) (memSinkWrite_only ..) rfl)))
    · exact (Only.ite (Only.step (Only.refl _ _) (dropBlock_only ..) rfl) (Only.step (Only.refl _ _) (onTrc_only ..) rfl))
    · exact (by
    split
    · exact (Only.step (Only.refl _ _) (dropBlock_only ..) rfl)
    · exact (Only.named (fun q1 =>
    (Only.step q1 (onTrc_only ..) rfl))
    (Only.foldl (fun _ _ => (Only.step (Only.refl _ _) (photenSend_only ..) rfl)) _ (Only.refl _ _))))
    · exact (Only.refl _ _))

theorem sinkOne_only (a0) : Only [.xs, .fab, .regs, .dma, .trc, .log, .ram] a0 (sinkOne a0) := by
  unfold sinkOne
  exact (by
    split
    · exact (Only.refl _ _)
    · exact (Only.step (Only.step (Only.refl _ _) (onTrc_only ..) rfl) (sinkWrite_only ..) rfl))

theorem compressBlock_only (a0 a1) : Only [.nid] a0 (compressBlock a0 a1).1 := by
  unfold compressBlock
  exact (Only.fst (Only.set_nid (Only.refl _ _) rfl))

theorem compressOne_only (a0) : Only [.trc, .nid] a0 (compressOne a0) := by
  unfold compressOne
  exact (by
    split
    · exact (Only.refl _ _)
    · exact (Only.named (fun q1 =>
    (Only.ite (Only.step q1 (dropBlock_only ..) rfl) (Only.step q1 (onTrc_only ..) rfl)))
    (Only.step (Only.step (Only.refl _ _) (onTrc_only ..) rfl) (compressBlock_only ..) rfl)))

theorem drainTrace_only (n : Nat) (h : Hub) : Only [.xs, .fab, .regs, .dma, .trc, .nid, .log, .ram] h (drainTrace n h) := by
  induction n generalizing h with
  | zero => exact Only.refl _ _
  | succ n ih => exact Only.step (Only.step (Only.step (Only.refl _ _) (compressOne_only ..) rfl) (sinkOne_only ..) rfl) (ih _) rfl

theorem portFrame_only (a0 a1) : Only [.trc] a1 (portFrame a0 a1) := by
  unfold portFrame
  exact (Only.ite (Only.refl _ _) (Only.step (Only.refl _ _) (onTrc_only ..) rfl))

theorem hostPkt_only (a0 a1 a2 a3 a4 a5 a6) : Only [.regions, .cells, .regs, .trc] a6 (hostPkt a0 a1 a2 a3 a4 a5 a6) := by
  unfold hostPkt
  exact (Only.named (fun q1 =>
    (Only.named (fun q2 =>
    (Only.named (fun q3 =>
    (Only.ite q3 (Only.step q3 (onTrc_only ..) rfl)))
    (Only.step q2 (putPkt_only ..) rfl)))
    (Only.ite q1 (Only.step q1 (endBlock_only ..) rfl))))
    (Only.ite (Only.refl _ _) (Only.step (Only.refl _ _) (putPkt_only ..) rfl)))

theorem drainPort_only (e : Env) (n : Nat) (h : Hub) : Only [.trc] h (drainPort e n h) := by
  induction n generalizing h with
  | zero => exact Only.refl _ _
  | succ n ih => exact Only.step (Only.step (Only.refl _ _) (portFrame_only ..) rfl) (ih _) rfl

theorem endCapture_only (a0 a1 a2) : Only [.regions, .cells, .xs, .fab, .regs, .dma, .trc, .nid, .log, .ram] a2 (endCapture a0 a1 a2) := by
  unfold endCapture
  exact (Only.ite (Only.refl _ _) (Only.named (fun q1 =>
    (Only.named (fun q2 =>
    (Only.named (fun q3 =>
    (Only.step q3 (onTrc_only ..) rfl))
    (Only.step q2 (drainPort_only ..) rfl)))
    (Only.step q1 (drainTrace_only ..) rfl)))
    (Only.step (Only.step (Only.refl _ _) (putRaw_only ..) rfl) (endBlock_only ..) rfl)))

theorem fireConds_only (a0 a1) : Only [.regions, .cells, .regs, .trc] a1 (fireConds a0 a1) := by
  unfold fireConds
  exact (Only.named (fun q1 =>
    (Only.step q1 (onTrc_only ..) rfl))
    (by
    split
    · exact (Only.refl _ _)
    · exact (Only.ite (Only.refl _ _) (Only.step (Only.refl _ _) (fire_only ..) rfl))))

theorem ctlTrace_only (a0 a1) : Only [.free, .regions, .cells, .regs, .trc] a1 (ctlTrace a0 a1) := by
  unfold ctlTrace
  exact (Only.ite (Only.refl _ _) (by
    split
    · exact (Only.step (Only.step (Only.refl _ _) (drawn_only ..) rfl) (putPkt_only ..) rfl)
    · exact (Only.step (Only.refl _ _) (drawn_only ..) rfl)))

theorem startCapture_only (a0 a1) : Only [.trc] a1 (startCapture a0 a1) := by
  unfold startCapture
  exact (Only.step (Only.refl _ _) (onTrc_only ..) rfl)

theorem traceThaw_only (a0 a1) : Only [.regions, .cells, .regs, .trc] a1 (traceThaw a0 a1) := by
  unfold traceThaw
  exact (Only.ite (Only.refl _ _) (Only.named (fun q1 =>
    (Only.step (Only.step q1 (putRaw_only ..) rfl) (trigger_only ..) rfl))
    (Only.step (Only.step (Only.refl _ _) (onTrc_only ..) rfl) (startBlock_only ..) rfl)))

theorem traceFreeze_only (a0) : Only [.trc] a0 (traceFreeze a0) := by
  unfold traceFreeze
  exact (Only.step (Only.refl _ _) (onTrc_only ..) rfl)

theorem selectCores_only (a0 a1) : Only [.regions, .cells, .trc] a1 (selectCores a0 a1) := by
  unfold selectCores
  exact (Only.step (Only.refl _ _) (applyCores_only ..) rfl)

theorem retarget_only (a0 a1 a2) : Only [.regions, .cells, .xs, .fab, .regs, .dma, .trc, .nid, .log, .ram] a2 (retarget a0 a1 a2) := by
  unfold retarget
  exact (Only.named (fun q1 =>
    (Only.step q1 (startCapture_only ..) rfl))
    (Only.step (Only.refl _ _) (endCapture_only ..) rfl))

theorem latchExp_only (a0 a1 a2) : Only [.hubc] a2 (latchExp a0 a1 a2) := by
  unfold latchExp
  exact (Only.step (Only.refl _ _) (onHubc_only ..) rfl)

theorem closeTiles_only (a0 a1 a2) : Only [.cells, .hubc] a2 (closeTiles a0 a1 a2) := by
  unfold closeTiles
  exact (Only.named (fun q1 =>
    (Only.ite q1 (Only.step q1 (countCore_only ..) rfl)))
    (Only.step (Only.refl _ _) (onCell_only ..) rfl))

theorem applyHold_only (a0 a1 a2) : Only [.cells, .hubc] a2 (applyHold a0 a1 a2) := by
  unfold applyHold
  exact (Only.ite (Only.refl _ _) (Only.named (fun q1 =>
    (Only.step q1 (onCell_only ..) rfl))
    (Only.ite (Only.step (Only.refl _ _) (closeTiles_only ..) rfl) (Only.refl _ _))))

theorem refreshHold_only (a0 a1 a2) : Only [.regions, .cells, .hubc] a2 (refreshHold a0 a1 a2) := by
  unfold refreshHold
  exact (Only.ite (Only.step (Only.refl _ _) (onRegion_only ..) rfl) (Only.step (Only.refl _ _) (applyHold_only ..) rfl))

theorem refreshHolds_only (a0 a1 a2) : Only [.regions, .cells, .hubc] a2 (refreshHolds a0 a1 a2) := by
  unfold refreshHolds
  exact (Only.foldl (fun _ _ => (Only.step (Only.refl _ _) (refreshHold_only ..) rfl)) _ (Only.refl _ _))

theorem setFloor_only (a0 a1 a2 a3) : Only [.casc] a3 (setFloor a0 a1 a2 a3) := by
  unfold setFloor
  exact (by
    split
    · exact (Only.ite (Only.refl _ _) (Only.step (Only.refl _ _) (onEnt_only ..) rfl))
    · exact (Only.step (Only.refl _ _) (onEnt_only ..) rfl))

theorem unitFlag_only (a0 a1 a2) : Only [.ens, .age, .regs, .mem, .log] a2 (unitFlag a0 a1 a2) := by
  unfold unitFlag
  exact (Only.step (Only.step (Only.refl _ _) (featWrite_only ..) rfl) (histDie_only ..) rfl)

theorem unitCount_only (a0 a1 a2) : Only [.ens, .casc, .regs, .mem, .log] a2 (unitCount a0 a1 a2) := by
  unfold unitCount
  exact (Only.named (fun q1 =>
    (Only.step q1 (featWrite_only ..) rfl))
    (Only.step (Only.set_casc (Only.refl _ _) rfl) (irq_only ..) rfl))

theorem unitFault_only (a0 a1 a2 a3 a4 a5 a6) : Only [.ens, .casc, .regs, .mem, .log] a6 (unitFault a0 a1 a2 a3 a4 a5 a6) := by
  unfold unitFault
  exact (Only.step (Only.step (Only.refl _ _) (emit_only ..) rfl) (unitCount_only ..) rfl)

theorem confirmWindow_only (a0 a1) : Only [.hubc] a1 (confirmWindow a0 a1) := by
  unfold confirmWindow
  exact (Only.step (Only.refl _ _) (onHubc_only ..) rfl)

theorem outcomeCounter_only (a0 a1 a2 a3 a4 a5 a6) : Only [.hubc, .res, .ens, .regs, .mem, .log] a6 (outcomeCounter a0 a1 a2 a3 a4 a5 a6) := by
  unfold outcomeCounter
  exact (Only.named (fun q1 =>
    (Only.named (fun q2 =>
    (Only.ite (Only.named (fun q3 =>
    (Only.step q3 (featWrite_only ..) rfl))
    (Only.step q2 (featWrite_only ..) rfl)) q2))
    (Only.step (Only.set_res q1 rfl) (onHubc_only ..) rfl)))
    (Only.step (Only.refl _ _) (countCore_only ..) rfl))

theorem sporeFeature_only (a0 a1 a2) : Only [.ens, .regs, .mem, .log] a2 (sporeFeature a0 a1 a2) := by
  unfold sporeFeature
  exact (Only.step (Only.refl _ _) (featWrite_only ..) rfl)

theorem flagCore_only (a0 a1) : Only [.hubc] a1 (flagCore a0 a1) := by
  unfold flagCore
  exact (Only.step (Only.refl _ _) (onHubc_only ..) rfl)

theorem outcomeEffects_only (a0 a1 a2 a3 a4 a5 a6 a7 a8 a9) : Only [.regions, .cells, .hubc, .res, .ens, .casc, .age, .regs, .mem, .trc, .log] a9 (outcomeEffects a0 a1 a2 a3 a4 a5 a6 a7 a8 a9) := by
  unfold outcomeEffects
  exact (Only.named (fun q1 =>
    (Only.named (fun q2 =>
    (Only.named (fun q3 =>
    (Only.ite (Only.set_age q3 rfl) (Only.named (fun q4 =>
    (Only.named (fun q5 =>
    (Only.named (fun q6 =>
    (Only.step q6 (outcomeMark_only ..) rfl))
    (Only.step q5 (histCore_only ..) rfl)))
    (Only.step q4 (setFloor_only ..) rfl)))
    (Only.step (Only.step q3 (flagCore_only ..) rfl) (sporeFeature_only ..) rfl))))
    (Only.step q2 (irq_only ..) rfl)))
    (Only.step q1 (outcomeCounter_only ..) rfl)))
    (Only.step (Only.refl _ _) (emitAt_only ..) rfl))

theorem lossRecord_only (a0 a1 a2 a3 a4 a5 a6) : Only [.regs, .log] a6 (lossRecord a0 a1 a2 a3 a4 a5 a6) := by
  unfold lossRecord
  exact (Only.step (Only.refl _ _) (emit_only ..) rfl)

theorem mismatchArrives_only (a0 a1) : Only [.hubc] a1 (mismatchArrives a0 a1) := by
  unfold mismatchArrives
  exact (Only.ite (Only.refl _ _) (Only.step (Only.refl _ _) (confirmWindow_only ..) rfl))

theorem onChan_only (a0 a1 a2) : Only [.cmd] a2 (onChan a0 a1 a2) := by
  unfold onChan
  exact (Only.set_cmd (Only.refl _ _) rfl)

theorem chanPut_only (a0 a1 a2) : Only [.cmd, .regs, .log] a2 (chanPut a0 a1 a2) := by
  unfold chanPut
  exact (Only.ite (Only.refl _ _) (Only.ite (Only.step (Only.refl _ _) (onChan_only ..) rfl) (Only.ite (Only.step (Only.refl _ _) (emitUnit_only ..) rfl) (Only.step (Only.refl _ _) (onChan_only ..) rfl))))

theorem sendNotice_only (a0 a1 a2) : Only [.cmd, .regs, .log] a2 (sendNotice a0 a1 a2) := by
  unfold sendNotice
  exact (Only.named (fun q1 =>
    (Only.ite (Only.step q1 (emitUnit_only ..) rfl) (Only.foldl (fun _ _ => (Only.step (Only.refl _ _) (chanPut_only ..) rfl)) _ q1)))
    (Only.set_cmd (Only.refl _ _) rfl))

theorem onSeq_only (a0 a1 a2) : Only [.cmd] a2 (onSeq a0 a1 a2) := by
  unfold onSeq
  exact (by
    split
    · exact (Only.set_cmd (Only.refl _ _) rfl)
    · exact (Only.refl _ _))

theorem cmdRecord_only (a0 a1 a2 a3 a4 a5) : Only [.regs, .log] a5 (cmdRecord a0 a1 a2 a3 a4 a5) := by
  unfold cmdRecord
  exact (Only.step (Only.refl _ _) (emit_only ..) rfl)

theorem sendReply_only (a0 a1 a2 a3) : Only [.sb, .mgt, .cmd, .regs, .log] a3 (sendReply a0 a1 a2 a3) := by
  unfold sendReply
  exact (by
    split
    · exact (Only.step (Only.refl _ _) (chanPut_only ..) rfl)
    · exact (Only.step (Only.refl _ _) (mgtReply_only ..) rfl)
    · exact (Only.step (Only.refl _ _) (sbUp_only ..) rfl)
    · exact (Only.step (Only.refl _ _) (cmdRecord_only ..) rfl))

theorem answer_only (a0 a1 a2 a3 a4 a5 a6 a7) : Only [.sb, .mgt, .cmd, .regs, .log] a7 (answer a0 a1 a2 a3 a4 a5 a6 a7) := by
  unfold answer
  exact (Only.named (fun q1 =>
    (Only.step (Only.ite q1 (Only.step q1 (onSeq_only ..) rfl)) (sendReply_only ..) rfl))
    (Only.ite (Only.step (Only.refl _ _) (cmdRecord_only ..) rfl) (Only.refl _ _)))

theorem replyOnly_only (a0 a1 a2 a3 a4) : Only [.sb, .mgt, .cmd, .regs, .log] a4 (replyOnly a0 a1 a2 a3 a4) := by
  unfold replyOnly
  exact (Only.step (Only.refl _ _) (sendReply_only ..) rfl)

theorem startCmd_only {ps : List Piece} {d : OpDef} {e : Env} {c : Ctx} {g h0 h : Hub} (a0 : Only ps g h0) (a : Only ps g h)
    (hd : (d.act e h c).only ps h) (w : within? [.sb, .mgt, .cmd, .regs, .log] ps = true) : Only ps g (startCmd d e c h0 h) := by
  have c1 : within? [.cmd] ps = true := by
    simp only [within?, List.all_cons, Bool.and_eq_true] at w ⊢
    exact ⟨w.2.2.1, rfl⟩
  have an : ∀ st det res k, Only ps g k → Only ps g (answer e d.code d.changes c st det res k) := fun st det res k q =>
    Only.step q (answer_only ..) w
  unfold startCmd
  refine Only.ite (an _ _ _ _ a) (Only.ite (an _ _ _ _ a) ?_)
  split
  · exact an _ _ _ _ a
  · split
    · exact an _ _ _ _ a
    · split
      · next q =>
        rw [q] at hd
        exact Only.ite (Only.step a0 (replyOnly_only ..) w) (an _ _ _ _ (a.trans hd))
      · next f q =>
        rw [q] at hd
        exact (Only.set_cmd a c1).trans (hd _ _)

theorem relayCmd_only (a0 a1 a2 a3 a4 a5) : Only [.sb, .mgt, .cmd, .regs, .log] a5 (relayCmd a0 a1 a2 a3 a4 a5) := by
  unfold relayCmd
  exact (Only.ite (Only.step (Only.refl _ _) (replyOnly_only ..) rfl) (Only.step (Only.set_cmd (Only.refl _ _) rfl) (sbDown_only ..) rfl))

theorem runCmd_only {ps : List Piece} {d : OpDef} {e : Env} {c : Cmd} {h : Hub} (hd : ∀ k x, (d.act e k x).only ps k)
    (w : within? [.sb, .mgt, .cmd, .regs, .log] ps = true) : Only ps h (runCmd d e c h) := by
  have c1 : within? [.cmd] ps = true := by
    simp only [within?, List.all_cons, Bool.and_eq_true] at w ⊢
    exact ⟨w.2.2.1, rfl⟩
  have r1 : within? [.regs, .log] ps = true := by
    simp only [within?, List.all_cons, Bool.and_eq_true] at w ⊢
    exact w.2.2.2
  have s1 : within? [.sb, .cmd] ps = true ∧ within? [.sb, .mgt, .cmd, .regs, .log] ps = true := by
    simp only [within?, List.all_cons, Bool.and_eq_true] at w ⊢
    exact ⟨⟨w.1, w.2.2.1, rfl⟩, w⟩
  have ro : ∀ x st k, Only ps h k → Only ps h (replyOnly e d.code x st k) := fun x st k q => Only.step q (replyOnly_only ..) w
  have acc : ∀ x, Only ps h (acceptCmd d e c x h) := by
    intro x
    unfold acceptCmd
    split
    · exact ro _ _ _ (Only.refl _ _)
    · exact Only.refl _ _
    · exact Only.weaken (sendReply_only ..) w
    · refine Only.ite (ro _ _ _ (Only.refl _ _)) ?_
      have q : Only ps h (onSeq c.req (fun s => seqConsume s c.cseq none) h) := Only.weaken (onSeq_only ..) c1
      exact Only.ite (Only.set_cmd q c1) (startCmd_only (Only.refl _ _) q (hd _ _) w)
  unfold runCmd
  split
  · split
    · exact Only.ite (Only.weaken (refusedWrite_only ..) r1) (Only.refl _ _)
    · exact Only.refl _ _
  · exact Only.ite (ro _ _ _ (Only.refl _ _)) (Only.ite (ro _ _ _ (Only.refl _ _)) (Only.ite (ro _ _ _ (Only.refl _ _))
      (Only.ite (acc _) (Only.ite (ro _ _ _ (Only.refl _ _)) (Only.weaken (relayCmd_only ..) w)))))

theorem writeOut_only {l a : Nat} {bs : List Byte} {h k : Hub} (q : writeOut l a bs h = some k) : Only [.regs, .dma, .log, .ram] h k := by
  unfold writeOut at q
  split at q
  · cases q
    exact Only.step (Only.step (Only.refl _ _) (pulseLine_only ..) rfl) (postMem_only ..) rfl
  · cases q

theorem finish_only (a0 a1 a2 a3 a4 a5 a6) : Only [.sb, .mgt, .cmd, .regs, .log] a6 (finish a0 a1 a2 a3 a4 a5 a6) := by
  unfold finish
  exact (by
    split
    · exact (Only.refl _ _)
    · exact (Only.named (fun q1 =>
    (Only.ite (Only.step (Only.step q1 (onSeq_only ..) rfl) (replyOnly_only ..) rfl) (Only.ite (Only.step q1 (answer_only ..) rfl) (Only.step q1 (answer_only ..) rfl))))
    (Only.set_cmd (Only.refl _ _) rfl)))

theorem stepTb_only (a0 a1) : Only [.time, .regs, .trc, .log] a1 (stepTb a0 a1) := by
  unfold stepTb
  exact (Only.step (Only.upd (Only.refl _ _) (.inr rfl) (.inr rfl) (.inr rfl) (.inl rfl) (.inr rfl) (.inr rfl) (.inr rfl) (.inr rfl) (.inr rfl) (.inr rfl) (.inr rfl) (.inr rfl) (.inr rfl) (.inr rfl) (.inr rfl) (.inr rfl) (.inr rfl) (.inr rfl) (.inr rfl) (.inr rfl) (.inr rfl) (.inr rfl) (.inr rfl) (.inl rfl) (.inr rfl) (.inr rfl) (.inr rfl) (.inr rfl) (.inr rfl) (.inr rfl) (.inr rfl)) (emitState_only ..) rfl)

theorem correct_only (a0 a1) : Only [.time, .regs, .trc, .log] a1 (correct a0 a1) := by
  unfold correct
  exact (Only.ite (Only.step (Only.refl _ _) (stepTb_only ..) rfl) (Only.set_time (Only.refl _ _) rfl))

theorem setQuality_only (a0 a1) : Only [.time, .regs, .log] a1 (setQuality a0 a1) := by
  unfold setQuality
  exact (Only.ite (Only.refl _ _) (Only.step (Only.step (Only.set_time (Only.refl _ _) rfl) (emitState_only ..) rfl) (irq_only ..) rfl))

theorem syncMeasured_only (a0 a1 a2) : Only [.time, .regs, .trc, .log] a2 (syncMeasured a0 a1 a2) := by
  unfold syncMeasured
  exact (Only.ite (Only.refl _ _) (Only.named (fun q1 =>
    (Only.step (Only.step q1 (setQuality_only ..) rfl) (correct_only ..) rfl))
    (Only.set_time (Only.refl _ _) rfl)))

theorem sourceChanged_only (a0 a1) : Only [.time, .regs, .log] a1 (sourceChanged a0 a1) := by
  unfold sourceChanged
  exact (Only.ite (Only.refl _ _) (Only.step (Only.set_time (Only.refl _ _) rfl) (setQuality_only ..) rfl))

theorem refclkRecord_only (a0 a1) : Only [.isl, .regs, .log] a1 (refclkRecord a0 a1) := by
  unfold refclkRecord
  exact (Only.ite (Only.step (Only.refl _ _) (emit_only ..) rfl) (Only.set_isl (Only.refl _ _) rfl))

end Sys2Proof.Machine
end

