-- ==== Sys2Proof/Laws/FrameUnits.lean ====
section
/-!
SUPPORT. What each operation of the units may change: one lemma an operation.
-/
namespace Sys2Proof.Machine

theorem onXs_only (a0 a1) : Only [.xs] a1 (onXs a0 a1) := by
  unfold onXs
  exact (Only.set_xs (Only.refl _ _) rfl)

theorem laneBeat_only (a0 a1 a2 a3) : Only [.xs] a3 (laneBeat a0 a1 a2 a3) := by
  unfold laneBeat
  exact (Only.step (Only.refl _ _) (onXs_only ..) rfl)

theorem laneBeats_only (a0 a1 a2 a3 a4) : Only [.xs] a4 (laneBeats a0 a1 a2 a3 a4) := by
  unfold laneBeats
  exact (Only.foldl (fun _ _ => (Only.step (Only.refl _ _) (laneBeat_only ..) rfl)) _ (Only.refl _ _))

theorem putRound_only (a0 a1 a2 a3 a4) : Only [.xs] a4 (putRound a0 a1 a2 a3 a4) := by
  unfold putRound
  exact (Only.set_xs (Only.refl _ _) rfl)

theorem carryElems_only (a0 a1 a2 a3 a4 a5) : Only [.xs] a5 (carryElems a0 a1 a2 a3 a4 a5) := by
  unfold carryElems
  exact (Only.step (Only.refl _ _) (onXs_only ..) rfl)

theorem roundLate_only (a0 a1 a2) : Only [.xs] a2 (roundLate a0 a1 a2) := by
  unfold roundLate
  exact (Only.ite (Only.step (Only.refl _ _) (onXs_only ..) rfl) (Only.step (Only.step (Only.refl _ _) (onXs_only ..) rfl) (carryElems_only ..) rfl))

theorem roundRefuse_only (a0 a1 a2 a3 a4 a5) : Only [.xs, .regs, .log] a5 (roundRefuse a0 a1 a2 a3 a4 a5) := by
  unfold roundRefuse
  exact (by
    split
    · exact (Only.step (Only.refl _ _) (roundLate_only ..) rfl)
    · exact (Only.refl _ _)
    · exact (Only.step (Only.refl _ _) (onXs_only ..) rfl)
    · exact (Only.ite (Only.step (Only.refl _ _) (emitUnit_only ..) rfl) (Only.step (Only.refl _ _) (onXs_only ..) rfl))
    · exact (Only.step (Only.refl _ _) (onXs_only ..) rfl)
    · exact (Only.refl _ _))

theorem roundNoRoom_only (a0 a1 a2 a3) : Only [.xs, .regs, .log] a3 (roundNoRoom a0 a1 a2 a3) := by
  unfold roundNoRoom
  exact (Only.step (Only.step (Only.refl _ _) (roundLate_only ..) rfl) (emitUnit_only ..) rfl)

theorem levelTake_only {ps : List Piece} {e : Env} {level src : Nat} {g : Group} {exp : List Nat} {tc : Nat} {m : Red}
    {send : Round → Hub → Hub} {h k : Hub} (a : Only ps h k) (hf : ∀ r x, Only ps x (send r x)) (w : within? [.xs, .regs, .log] ps = true) :
    Only ps h (levelTake e level src g exp tc m send k) := by
  have x : within? [.xs] ps = true := within_trans (by decide) w
  have put : ∀ g s r, Only ps h (putRound level g s r k) := fun g s r => Only.step a (putRound_only ..) x
  unfold levelTake
  split
  · dsimp only
    split
    · exact Only.ite ((put _ _ _).trans (hf _ _)) (put _ _ _)
    · exact Only.step a (roundRefuse_only ..) w
  · exact Only.ite (Only.step a (roundLate_only ..) x) (Only.ite (Only.step a (roundNoRoom_only ..) w)
      (Only.ite ((put _ _ _).trans (hf _ _)) (put _ _ _)))

theorem takeCarry_only (a0 a1 a2 a3) : Only [.xs] a3 (takeCarry a0 a1 a2 a3).1 := by
  unfold takeCarry
  exact (Only.ite1 (Only.fst (Only.refl _ _)) (by
    try dsimp -proj only
    split
    · exact (Only.fst (Only.refl _ _))
    · exact (Only.fst (Only.step (Only.refl _ _) (onXs_only ..) rfl))))

theorem coarsen_only (a0 a1 a2 a3) : Only [.xs] a3 (coarsen a0 a1 a2 a3).1 := by
  unfold coarsen
  exact (Only.ite1 (Only.fst (Only.refl _ _)) (Only.ite1 (Only.fst (Only.step (Only.refl _ _) (onXs_only ..) rfl)) (Only.fst (Only.step (Only.refl _ _) (onXs_only ..) rfl))))

theorem carryParts_only (a0 a1 a2 a3) : Only [.xs] a3 (carryParts a0 a1 a2 a3) := by
  unfold carryParts
  exact (Only.ite (Only.refl _ _) (Only.foldl (fun _ _ => (Only.step (Only.refl _ _) (carryElems_only ..) rfl)) _ (Only.refl _ _)))

theorem recordsWritten_only (a0 a1) : Only [.xs] a1 (recordsWritten a0 a1) := by
  unfold recordsWritten
  exact (Only.step (Only.refl _ _) (onXs_only ..) rfl)

theorem redSend_only (a0 a1 a2 a3) : Only [.xs, .fab] a3 (redSend a0 a1 a2 a3) := by
  unfold redSend
  exact (Only.foldl (fun _ _ => (Only.step (Only.refl _ _) (photenSend_only ..) rfl)) _ (Only.step (Only.refl _ _) (recordsWritten_only ..) rfl))

theorem trayResult_only (a0 a1 a2 a3) : Only [.xs, .fab] a0 (trayResult a0 a1 a2 a3) := by
  unfold trayResult
  exact (Only.named (fun q1 =>
    (Only.ite (by
    split
    · exact (Only.step q1 (putRound_only ..) rfl)
    · exact q1) (Only.foldl (fun _ _ => (Only.step (Only.refl _ _) (redSend_only ..) rfl)) _ q1)))
    (by
    split
    · exact (Only.step (Only.refl _ _) (putRound_only ..) rfl)
    · exact (Only.refl _ _)))

theorem combResult_only (a0 a1 a2 a3) : Only [.xs, .fab] a0 (combResult a0 a1 a2 a3) := by
  unfold combResult
  exact (Only.named (fun q1 =>
    (Only.foldl (fun _ _ => (Only.ite (Only.step (Only.refl _ _) (trayResult_only ..) rfl) (Only.step (Only.refl _ _) (redSend_only ..) rfl))) _ q1))
    (by
    split
    · exact (Only.step (Only.refl _ _) (putRound_only ..) rfl)
    · exact (Only.refl _ _)))

theorem rootResult_only (a0 a1 a2 a3 a4) : Only [.xs, .fab] a0 (rootResult a0 a1 a2 a3 a4) := by
  unfold rootResult
  exact (Only.named (fun q1 =>
    (Only.foldl (fun _ _ => (Only.ite (Only.step (Only.refl _ _) (trayResult_only ..) rfl) (Only.step (Only.refl _ _) (redSend_only ..) rfl))) _ q1))
    (Only.foldl (fun _ _ => (Only.ite (Only.step (Only.refl _ _) (combResult_only ..) rfl) (Only.step (Only.refl _ _) (redSend_only ..) rfl))) _ (Only.refl _ _)))

theorem roundDone_only (a0 a1 a2) : Only [.xs] a2 (roundDone a0 a1 a2) := by
  unfold roundDone
  exact (Only.step (Only.refl _ _) (onXs_only ..) rfl)

theorem rootForm_only (a0 a1 a2 a3 a4 a5) : Only [.xs, .fab, .regs, .log] a5 (rootForm a0 a1 a2 a3 a4 a5) := by
  unfold rootForm
  exact (Only.named (fun q1 =>
    (Only.named (fun q2 =>
    (Only.named (fun q3 =>
    (Only.step (Only.step q3 (roundDone_only ..) rfl) (rootResult_only ..) rfl))
    (Only.ite (Only.step q2 (emitUnit_only ..) rfl) q2)))
    (Only.step (Only.step q1 (carryParts_only ..) rfl) (putRound_only ..) rfl)))
    (Only.step (Only.refl _ _) (takeCarry_only ..) rfl))

theorem rootTake_only (a0 a1 a2 a3 a4 a5) : Only [.xs, .fab, .regs, .log] a5 (rootTake a0 a1 a2 a3 a4 a5) := by
  unfold rootTake
  exact (levelTake_only (Only.refl _ _) (fun _ _ => (Only.step (Only.refl _ _) (rootForm_only ..) rfl)) rfl)

theorem combSend_only (a0 a1 a2 a3 a4 a5) : Only [.xs, .fab, .regs, .log] a5 (combSend a0 a1 a2 a3 a4 a5) := by
  unfold combSend
  exact (Only.named (fun q1 =>
    (Only.named (fun q2 =>
    (Only.named (fun q3 =>
    (Only.ite q3 (Only.ite (Only.step q3 (rootTake_only ..) rfl) (Only.step q3 (redSend_only ..) rfl))))
    (Only.step q2 (putRound_only ..) rfl)))
    (Only.step (Only.step q1 (carryParts_only ..) rfl) (coarsen_only ..) rfl)))
    (Only.step (Only.refl _ _) (takeCarry_only ..) rfl))

theorem combTake_only (a0 a1 a2 a3 a4 a5) : Only [.xs, .fab, .regs, .log] a5 (combTake a0 a1 a2 a3 a4 a5) := by
  unfold combTake
  exact (levelTake_only (Only.refl _ _) (fun _ _ => (Only.step (Only.refl _ _) (combSend_only ..) rfl)) rfl)

theorem trayDeliver_only (a0 a1 a2 a3 a4 a5) : Only [.xs, .fab, .regs, .log] a5 (trayDeliver a0 a1 a2 a3 a4 a5) := by
  unfold trayDeliver
  exact (by
    try dsimp -proj only
    split
    · exact (Only.ite (Only.step (Only.refl _ _) (combTake_only ..) rfl) (Only.step (Only.refl _ _) (redSend_only ..) rfl))
    · exact (Only.ite (Only.step (Only.refl _ _) (rootTake_only ..) rfl) (Only.step (Only.refl _ _) (redSend_only ..) rfl)))

theorem dieContribute_only (a0 a1 a2 a3) : Only [.xs, .fab] a3 (dieContribute a0 a1 a2 a3) := by
  unfold dieContribute
  exact (Only.step (Only.refl _ _) (redSend_only ..) rfl)

theorem traySend_only (a0 a1 a2 a3 a4 a5) : Only [.xs, .fab, .regs, .log] a5 (traySend a0 a1 a2 a3 a4 a5) := by
  unfold traySend
  exact (Only.named (fun q1 =>
    (Only.named (fun q2 =>
    (Only.named (fun q3 =>
    (Only.named (fun q4 =>
    (Only.ite q4 (Only.step q4 (trayDeliver_only ..) rfl)))
    (Only.ite q3 (Only.step q3 (emitUnit_only ..) rfl))))
    (Only.step q2 (putRound_only ..) rfl)))
    (Only.step (Only.step q1 (carryParts_only ..) rfl) (coarsen_only ..) rfl)))
    (Only.step (Only.refl _ _) (takeCarry_only ..) rfl))

theorem trayTake_only (a0 a1 a2 a3 a4 a5) : Only [.xs, .fab, .regs, .log] a5 (trayTake a0 a1 a2 a3 a4 a5) := by
  unfold trayTake
  exact (Only.ite (Only.step (Only.refl _ _) (onXs_only ..) rfl) (levelTake_only (Only.refl _ _) (fun _ _ => (Only.step (Only.refl _ _) (traySend_only ..) rfl)) rfl))

theorem clearCtx_only (a0 a1) : Only [.xs] a1 (clearCtx a0 a1) := by
  unfold clearCtx
  exact (Only.step (Only.refl _ _) (onXs_only ..) rfl)

theorem dropRound_only (a0 a1 a2 a3) : Only [.xs] a3 (dropRound a0 a1 a2 a3) := by
  unfold dropRound
  exact (Only.set_xs (Only.refl _ _) rfl)

theorem onDig_only (a0 a1) : Only [.dig] a1 (onDig a0 a1) := by
  unfold onDig
  exact (Only.set_dig (Only.refl _ _) rfl)

theorem onPipe_only (a0 a1 a2) : Only [.dig] a2 (onPipe a0 a1 a2) := by
  unfold onPipe
  exact (Only.step (Only.refl _ _) (onDig_only ..) rfl)

theorem onDelivery_only (a0 a1 a2 a3 a4 a5) : Only [.dig] a5 (onDelivery a0 a1 a2 a3 a4 a5) := by
  unfold onDelivery
  exact (Only.step (Only.refl _ _) (onPipe_only ..) rfl)

theorem overrunDelivery_only (a0 a1 a2) : Only [.dig] a2 (overrunDelivery a0 a1 a2) := by
  unfold overrunDelivery
  exact (Only.step (Only.refl _ _) (onDelivery_only ..) rfl)

theorem onLink_only (a0 a1 a2) : Only [.dig] a2 (onLink a0 a1 a2) := by
  unfold onLink
  exact (Only.step (Only.refl _ _) (onDig_only ..) rfl)

theorem linkBeat_only (a0 a1 a2 a3) : Only [.dig] a3 (linkBeat a0 a1 a2 a3) := by
  unfold linkBeat
  exact (Only.ite (Only.refl _ _) (Only.step (Only.refl _ _) (onLink_only ..) rfl))

theorem linkDelivers_only (a0 a1 a2 a3) : Only [.dig] a3 (linkDelivers a0 a1 a2 a3) := by
  unfold linkDelivers
  exact (Only.ite (Only.refl _ _) (Only.step (Only.refl _ _) (onLink_only ..) rfl))

theorem startDelivery_only (a0 a1 a2 a3) : Only [.dig] a3 (startDelivery a0 a1 a2 a3) := by
  unfold startDelivery
  exact (Only.named (fun q1 =>
    (Only.step q1 (linkDelivers_only ..) rfl))
    (by
    split
    · exact (Only.step (Only.step (Only.refl _ _) (linkBeat_only ..) rfl) (onDelivery_only ..) rfl)
    · exact (Only.step (Only.refl _ _) (onPipe_only ..) rfl)))

theorem sliceChunk_only (a0 a1 a2 a3) : Only [.dig] a3 (sliceChunk a0 a1 a2 a3) := by
  unfold sliceChunk
  exact (Only.step (Only.refl _ _) (onPipe_only ..) rfl)

theorem digRecord_only (a0 a1 a2 a3 a4 a5 a6 a7 a8 a9 a10 a11 a12) : Only [.regs, .log] a12 (digRecord a0 a1 a2 a3 a4 a5 a6 a7 a8 a9 a10 a11 a12) := by
  unfold digRecord
  exact (Only.step (Only.refl _ _) (emit_only ..) rfl)

theorem stashChunk_only (a0 a1 a2 a3) : Only [.dig] a3 (stashChunk a0 a1 a2 a3) := by
  unfold stashChunk
  exact (Only.step (Only.refl _ _) (onPipe_only ..) rfl)

theorem sealHeader_only (a0 a1 a2 a3 a4) : Only [.free, .dig, .regs, .log] a4 (sealHeader a0 a1 a2 a3 a4) := by
  unfold sealHeader
  exact (Only.named (fun q1 =>
    (Only.step (Only.step (Only.step q1 (drawn_only ..) rfl) (onDig_only ..) rfl) (stashChunk_only ..) rfl))
    (by
    split
    · exact (Only.step (Only.refl _ _) (digRecord_only ..) rfl)
    · exact (Only.refl _ _)))

theorem recallHeader_only (a0 a1 a2 a3) : Only [.dig] a3 (recallHeader a0 a1 a2 a3) := by
  unfold recallHeader
  exact (Only.step (Only.step (Only.refl _ _) (onPipe_only ..) rfl) (stashChunk_only ..) rfl)

theorem onRecall_only (a0 a1 a2 a3) : Only [.dig] a3 (onRecall a0 a1 a2 a3) := by
  unfold onRecall
  exact (Only.step (Only.refl _ _) (onPipe_only ..) rfl)

theorem onSeal_only (a0 a1 a2) : Only [.dig] a2 (onSeal a0 a1 a2) := by
  unfold onSeal
  exact (Only.step (Only.refl _ _) (onDig_only ..) rfl)

theorem lostHeader_only (a0 a1 a2 a3) : Only [.free, .dig, .regs, .log] a3 (lostHeader a0 a1 a2 a3) := by
  unfold lostHeader
  exact (by
    split
    · exact (by
    split
    · exact (Only.step (Only.step (Only.step (Only.refl _ _) (startDelivery_only ..) rfl) (sliceChunk_only ..) rfl) (overrunDelivery_only ..) rfl)
    · exact (Only.step (Only.refl _ _) (sliceChunk_only ..) rfl))
    · exact (Only.step (Only.refl _ _) (overrunDelivery_only ..) rfl)
    · exact (Only.step (Only.refl _ _) (sealHeader_only ..) rfl)
    · exact (Only.step (Only.refl _ _) (recallHeader_only ..) rfl)
    · exact (Only.ite (Only.step (Only.refl _ _) (onRecall_only ..) rfl) (Only.step (Only.refl _ _) (onSeal_only ..) rfl))
    · exact (Only.refl _ _))

theorem chunkInvalid_only (a0 a1) : Only [.dig] a1 (chunkInvalid a0 a1) := by
  unfold chunkInvalid
  exact (by
    split
    · exact (Only.step (Only.refl _ _) (onDelivery_only ..) rfl)
    · exact (Only.step (Only.refl _ _) (onSeal_only ..) rfl)
    · exact (Only.step (Only.refl _ _) (onRecall_only ..) rfl)
    · exact (Only.step (Only.refl _ _) (onPipe_only ..) rfl))

theorem digOutcome_only (a0 a1 a2 a3) : Only [.regions, .cells, .ens, .casc, .age, .regs, .mem, .trc, .log] a3 (digOutcome a0 a1 a2 a3) := by
  unfold digOutcome
  exact (Only.named (fun q1 =>
    (Only.named (fun q2 =>
    (Only.step q2 (outcomeMark_only ..) rfl))
    (Only.ite (Only.step q1 (histDie_only ..) rfl) q1)))
    (Only.foldl (fun _ _ => (Only.step (Only.refl _ _) (chargeEnt_only ..) rfl)) _ (Only.step (Only.refl _ _) (irq_only ..) rfl)))

theorem recallFinal_only (a0 a1 a2 a3 a4 a5 a6 a7) : Only [.regions, .cells, .dig, .ens, .casc, .age, .regs, .mem, .trc, .log] a7 (recallFinal a0 a1 a2 a3 a4 a5 a6 a7) := by
  unfold recallFinal
  exact (Only.named (fun q1 =>
    (Only.ite (Only.named (fun q2 =>
    (Only.step (Only.step q2 (digOutcome_only ..) rfl) (setFloor_only ..) rfl))
    (by
    split
    · exact (Only.step q1 (digRecord_only ..) rfl)
    · exact q1)) q1))
    (Only.step (Only.refl _ _) (onDig_only ..) rfl))

theorem fifoPush_only (a0 a1 a2) : Only [.dig] a2 (fifoPush a0 a1 a2).1 := by
  unfold fifoPush
  exact (Only.ite1 (Only.fst (Only.step (Only.refl _ _) (onPipe_only ..) rfl)) (Only.fst (Only.step (Only.refl _ _) (onPipe_only ..) rfl)))

theorem chunkOverrun_only (a0 a1 a2) : Only [.dig] a2 (chunkOverrun a0 a1 a2) := by
  unfold chunkOverrun
  exact (Only.named (fun q1 =>
    (by
    try dsimp -proj only
    split
    · exact (Only.ite q1 (Only.step q1 (onDelivery_only ..) rfl))
    · exact (Only.step q1 (onSeal_only ..) rfl)
    · exact (Only.step q1 (onRecall_only ..) rfl)
    · exact q1))
    (Only.step (Only.refl _ _) (onPipe_only ..) rfl))

theorem digProto_only (a0 a1 a2 a3) : Only [.dig, .regs, .log] a3 (digProto a0 a1 a2 a3) := by
  unfold digProto
  exact (Only.step (Only.step (Only.refl _ _) (onDig_only ..) rfl) (digRecord_only ..) rfl)

theorem onEpoch_only (a0 a1 a2) : Only [.dig] a2 (onEpoch a0 a1 a2) := by
  unfold onEpoch
  exact (Only.step (Only.refl _ _) (onDig_only ..) rfl)

theorem addSquares_only (a0 a1 a2 a3) : Only [.dig, .xs] a3 (addSquares a0 a1 a2 a3) := by
  unfold addSquares
  exact (Only.ite (Only.refl _ _) (by
    split
    · exact (Only.ite (Only.refl _ _) (Only.step (Only.refl _ _) (onEpoch_only ..) rfl))
    · exact (by
    split
    · exact (Only.refl _ _)
    · exact (Only.step (Only.refl _ _) (laneBeats_only ..) rfl))))

theorem takeData_only (a0 a1 a2 a3 a4) : Only [.dig, .xs, .regs, .log] a4 (takeData a0 a1 a2 a3 a4) := by
  unfold takeData
  exact (Only.named (fun q1 =>
    (Only.named (fun q2 =>
    (Only.ite (Only.step (Only.step q2 (digProto_only ..) rfl) (chunkInvalid_only ..) rfl) q2))
    (by
    split
    · exact (by
    split
    · exact q1
    · exact (Only.named (fun q2 =>
    (Only.ite (Only.step q2 (addSquares_only ..) rfl) (Only.step q2 (onLink_only ..) rfl)))
    (Only.step (Only.step q1 (linkBeat_only ..) rfl) (onDelivery_only ..) rfl))
    · exact (Only.step (Only.step q1 (linkBeat_only ..) rfl) (onDelivery_only ..) rfl)
    · exact (Only.step q1 (chunkOverrun_only ..) rfl)
    · exact q1)
    · exact (Only.step q1 (onSeal_only ..) rfl)
    · exact (Only.step q1 (onRecall_only ..) rfl))))
    (Only.step (Only.refl _ _) (onPipe_only ..) rfl))

theorem dataBeat_only (a0 a1 a2 a3 a4) : Only [.dig, .xs, .regs, .log] a4 (dataBeat a0 a1 a2 a3 a4) := by
  unfold dataBeat
  exact (Only.ite (Only.refl _ _) (Only.named (fun q1 =>
    (Only.ite (Only.step q1 (chunkOverrun_only ..) rfl) (Only.ite (Only.step (Only.step q1 (digProto_only ..) rfl) (chunkInvalid_only ..) rfl) (by
    split
    · exact (Only.step q1 (digProto_only ..) rfl)
    · exact (Only.step q1 (takeData_only ..) rfl)))))
    (Only.step (Only.refl _ _) (fifoPush_only ..) rfl)))

theorem uncompared_only (a0 a1 a2) : Only [.dig, .regs, .log] a2 (uncompared a0 a1 a2) := by
  unfold uncompared
  exact (Only.step (Only.step (Only.refl _ _) (onDig_only ..) rfl) (digRecord_only ..) rfl)

theorem openRound_only (a0 a1 a2 a3 a4) : Only [.xs, .fab] a4 (openRound a0 a1 a2 a3 a4) := by
  unfold openRound
  exact (Only.step (Only.step (Only.refl _ _) (putRound_only ..) rfl) (dieContribute_only ..) rfl)

theorem submitRound_only (a0 a1 a2) : Only [.dig, .xs, .fab, .regs, .log] a2 (submitRound a0 a1 a2) := by
  unfold submitRound
  exact (Only.named (fun q1 =>
    (Only.ite q1 (by
    split
    · exact (Only.step q1 (uncompared_only ..) rfl)
    · exact (by
    split
    · exact (Only.ite (Only.step q1 (uncompared_only ..) rfl) (Only.named (fun q2 =>
    (Only.named (fun q3 =>
    (Only.ite q3 (Only.foldl (fun _ _ => (Only.step (Only.refl _ _) (openRound_only ..) rfl)) _ q3)))
    (Only.step q2 (openRound_only ..) rfl)))
    (Only.step q1 (onDig_only ..) rfl)))
    · exact q1))))
    (Only.ite (Only.refl _ _) (Only.step (Only.refl _ _) (onEpoch_only ..) rfl)))

theorem openChunk_only (a0 a1 a2 a3 a4) : Only [.dig, .regs, .log] a4 (openChunk a0 a1 a2 a3 a4) := by
  unfold openChunk
  exact (Only.named (fun q1 =>
    (Only.ite (Only.step (Only.step q1 (sliceChunk_only ..) rfl) (onEpoch_only ..) rfl) (Only.step (Only.step (Only.step (Only.step q1 (sliceChunk_only ..) rfl) (onDig_only ..) rfl) (overrunDelivery_only ..) rfl) (emitUnit_only ..) rfl)))
    (Only.step (Only.refl _ _) (startDelivery_only ..) rfl))

theorem staleUse_only (a0 a1 a2 a3 a4 a5 a6) : Only [.dig, .ens, .regs, .mem, .log] a6 (staleUse a0 a1 a2 a3 a4 a5 a6) := by
  unfold staleUse
  exact (Only.named (fun q1 =>
    (Only.named (fun q2 =>
    (Only.step q2 (featWrite_only ..) rfl))
    (Only.ite q1 (Only.step q1 (onLink_only ..) rfl))))
    (Only.step (Only.step (Only.refl _ _) (onDig_only ..) rfl) (digRecord_only ..) rfl))

theorem chunkHeader_only (a0 a1 a2 a3) : Only [.dig, .ens, .regs, .mem, .log] a3 (chunkHeader a0 a1 a2 a3) := by
  unfold chunkHeader
  exact (Only.ite (Only.step (Only.step (Only.refl _ _) (digProto_only ..) rfl) (chunkInvalid_only ..) rfl) (Only.ite (by
    split
    · exact (Only.step (Only.refl _ _) (openChunk_only ..) rfl)
    · exact (Only.refl _ _)) (Only.ite (Only.step (Only.step (Only.step (Only.refl _ _) (digProto_only ..) rfl) (sliceChunk_only ..) rfl) (staleUse_only ..) rfl) (Only.step (Only.step (Only.step (Only.refl _ _) (digProto_only ..) rfl) (onDig_only ..) rfl) (sliceChunk_only ..) rfl))))

theorem oddRepeat_only (a0 a1 a2 a3) : Only [.regions, .cells, .dig, .ens, .casc, .age, .regs, .mem, .trc, .log] a3 (oddRepeat a0 a1 a2 a3) := by
  unfold oddRepeat
  exact (Only.named (fun q1 =>
    (Only.named (fun q2 =>
    (Only.step (Only.step q2 (digOutcome_only ..) rfl) (setFloor_only ..) rfl))
    (Only.step (Only.step q1 (onDig_only ..) rfl) (onLink_only ..) rfl)))
    (Only.step (Only.refl _ _) (digRecord_only ..) rfl))

theorem retired_only (a0 a1) : Only [.dig, .xs, .fab, .regs, .log] a1 (retired a0 a1) := by
  unfold retired
  exact (by
    split
    · exact (Only.ite (Only.step (Only.step (Only.refl _ _) (onDig_only ..) rfl) (submitRound_only ..) rfl) (Only.refl _ _))
    · exact (Only.refl _ _))

theorem sliceEnd_only (a0 a1 a2 a3) : Only [.dig, .regs, .log] a3 (sliceEnd a0 a1 a2 a3) := by
  unfold sliceEnd
  exact (Only.ite (Only.step (Only.refl _ _) (digProto_only ..) rfl) (by
    split
    · exact (Only.ite (Only.step (Only.refl _ _) (onPipe_only ..) rfl) (Only.step (Only.refl _ _) (digProto_only ..) rfl))
    · exact (Only.named (fun q1 =>
    (Only.named (fun q2 =>
    (Only.ite q2 (Only.ite (Only.ite q2 (Only.step q2 (onLink_only ..) rfl)) (Only.named (fun q3 =>
    (Only.named (fun q4 =>
    (Only.step q4 (digRecord_only ..) rfl))
    (Only.ite q3 (Only.step q3 (onLink_only ..) rfl))))
    (Only.step q2 (onDig_only ..) rfl)))))
    (Only.ite (Only.step q1 (onEpoch_only ..) rfl) q1)))
    (Only.step (Only.step (Only.refl _ _) (linkBeat_only ..) rfl) (onPipe_only ..) rfl))))

theorem overrunFinal_only (a0 a1 a2 a3) : Only [.regions, .cells, .dig, .ens, .casc, .age, .regs, .mem, .trc, .log] a3 (overrunFinal a0 a1 a2 a3) := by
  unfold overrunFinal
  exact (Only.named (fun q1 =>
    (Only.named (fun q2 =>
    (Only.step q2 (digOutcome_only ..) rfl))
    (Only.step q1 (lossRecord_only ..) rfl)))
    (Only.step (Only.step (Only.refl _ _) (onDig_only ..) rfl) (digRecord_only ..) rfl))

theorem setEntry_only (a0 a1 a2 a3 a4) : Only [.dig] a4 (setEntry a0 a1 a2 a3 a4) := by
  unfold setEntry
  exact (Only.ite (Only.step (Only.refl _ _) (onEpoch_only ..) rfl) (Only.refl _ _))

theorem sliceFinal_only (a0 a1 a2 a3 a4) : Only [.regions, .cells, .dig, .ens, .casc, .age, .regs, .mem, .trc, .log] a4 (sliceFinal a0 a1 a2 a3 a4) := by
  unfold sliceFinal
  exact (Only.named (fun q1 =>
    (by
    try dsimp -proj only
    split
    · exact q1
    · exact (Only.ite (Only.ite (Only.step q1 (setEntry_only ..) rfl) q1) (Only.ite (Only.step q1 (setEntry_only ..) rfl) (Only.ite (Only.named (fun q2 =>
    (by
    try dsimp -proj only
    split
    · exact (Only.step q2 (onDig_only ..) rfl)
    · exact (Only.ite q2 (Only.step q2 (oddRepeat_only ..) rfl))))
    (Only.ite q1 (Only.step q1 (setEntry_only ..) rfl))) (Only.ite (Only.ite q1 (Only.step q1 (oddRepeat_only ..) rfl)) (Only.step q1 (setEntry_only ..) rfl)))))))
    (Only.ite (Only.step (Only.refl _ _) (overrunFinal_only ..) rfl) (Only.refl _ _)))

theorem stashEnd_only (a0 a1 a2 a3) : Only [.dig, .regs, .log] a3 (stashEnd a0 a1 a2 a3) := by
  unfold stashEnd
  exact (by
    split
    · exact (Only.named (fun q1 =>
    (Only.step q1 (onDig_only ..) rfl))
    (Only.step (Only.refl _ _) (onPipe_only ..) rfl))
    · exact (by
    split
    · exact (Only.step (Only.refl _ _) (digProto_only ..) rfl)
    · exact (Only.ite (Only.step (Only.refl _ _) (digProto_only ..) rfl) (Only.named (fun q1 =>
    (Only.named (fun q2 =>
    (Only.ite q2 (Only.step q2 (digRecord_only ..) rfl)))
    (Only.step q1 (onDig_only ..) rfl)))
    (Only.step (Only.refl _ _) (onPipe_only ..) rfl)))))

theorem headerBeat_only (a0 a1 a2 a3) : Only [.free, .dig, .ens, .regs, .mem, .log] a3 (headerBeat a0 a1 a2 a3) := by
  unfold headerBeat
  exact (Only.named (fun q1 =>
    (Only.ite (Only.step q1 (lostHeader_only ..) rfl) (Only.ite (Only.step (Only.step q1 (digProto_only ..) rfl) (chunkInvalid_only ..) rfl) (by
    split
    · exact (Only.step q1 (chunkHeader_only ..) rfl)
    · exact (Only.step q1 (sliceEnd_only ..) rfl)
    · exact (Only.step q1 (sealHeader_only ..) rfl)
    · exact (Only.step q1 (recallHeader_only ..) rfl)
    · exact (Only.step q1 (stashEnd_only ..) rfl)))))
    (Only.step (Only.refl _ _) (fifoPush_only ..) rfl))

theorem freeEpochs_only (a0) : Only [.dig, .xs] a0 (freeEpochs a0) := by
  unfold freeEpochs
  exact (Only.step (Only.step (Only.step (Only.step (Only.refl _ _) (onDig_only ..) rfl) (clearCtx_only ..) rfl) (clearCtx_only ..) rfl) (onXs_only ..) rfl)

theorem applyDigCfg_only (a0 a1) : Only [.dig] a1 (applyDigCfg a0 a1) := by
  unfold applyDigCfg
  exact (Only.step (Only.refl _ _) (onDig_only ..) rfl)

theorem takeNext_only (a0) : Only [.dig] a0 (takeNext a0) := by
  unfold takeNext
  exact (by
    split
    · exact (Only.step (Only.step (Only.refl _ _) (applyDigCfg_only ..) rfl) (onDig_only ..) rfl)
    · exact (Only.refl _ _))

theorem restartWindows_only (a0) : Only [.cells] a0 (restartWindows a0) := by
  unfold restartWindows
  exact (Only.set_cells (Only.refl _ _) rfl)

theorem exitDrowse_only (a0) : Only [.sys, .time, .cells, .casc, .regs, .log] a0 (exitDrowse a0) := by
  unfold exitDrowse
  exact (Only.ite (Only.refl _ _) (Only.named (fun q1 =>
    (Only.ite q1 (Only.named (fun q2 =>
    (Only.set_casc q2 rfl))
    (Only.step q1 (emitState_only ..) rfl))))
    (Only.step (Only.step (Only.step (Only.refl _ _) (toState_only ..) rfl) (restartWindows_only ..) rfl) (actHeld_only ..) rfl)))

theorem capture_only (a0 a1) : Only [.cells] a1 (capture a0 a1) := by
  unfold capture
  exact (Only.foldl (fun _ _ => (Only.step (Only.refl _ _) (onCell_only ..) rfl)) _ (Only.refl _ _))

theorem applyWatch_only (a0 a1) : Only [.cells] a1 (applyWatch a0 a1) := by
  unfold applyWatch
  exact (Only.step (Only.refl _ _) (onCell_only ..) rfl)

theorem clearFlags_only (a0 a1 a2 a3) : Only [.cells, .hubc, .ens, .regs, .mem, .log] a3 (clearFlags a0 a1 a2 a3) := by
  unfold clearFlags
  exact (Only.named (fun q1 =>
    (Only.ite (Only.step (Only.step q1 (onHubc_only ..) rfl) (featWrite_only ..) rfl) q1))
    (Only.step (Only.refl _ _) (onCell_only ..) rfl))

theorem applyRule_only (a0 a1 a2 a3) : Only [.cells, .hubc, .ens, .regs, .mem, .log] a3 (applyRule a0 a1 a2 a3) := by
  unfold applyRule
  exact (Only.named (fun q1 =>
    (Only.step q1 (onCell_only ..) rfl))
    (Only.step (Only.refl _ _) (clearFlags_only ..) rfl))

theorem rewriteCell_only (a0 a1) : Only [.cells] a1 (rewriteCell a0 a1) := by
  unfold rewriteCell
  exact (Only.step (Only.refl _ _) (onCell_only ..) rfl)

theorem clearCell_only (a0 a1) : Only [.cells, .hubc] a1 (clearCell a0 a1) := by
  unfold clearCell
  exact (Only.named (fun q1 =>
    (Only.named (fun q2 =>
    (Only.step q2 (onCell_only ..) rfl))
    (Only.step q1 (onHubc_only ..) rfl)))
    (Only.step (Only.refl _ _) (closeTiles_only ..) rfl))

theorem resetCell_only (a0 a1) : Only [.cells, .hubc] a1 (resetCell a0 a1) := by
  unfold resetCell
  exact (Only.named (fun q1 =>
    (Only.step q1 (onHubc_only ..) rfl))
    (Only.step (Only.step (Only.refl _ _) (clearCell_only ..) rfl) (rewriteCell_only ..) rfl))

theorem resToCore_only (a0 a1 a2 a3 a4) : Only [.hubc] a4 (resToCore a0 a1 a2 a3 a4) := by
  unfold resToCore
  exact (Only.step (Only.refl _ _) (onHubc_only ..) rfl)

theorem applyWait_only (a0 a1 a2 a3) : Only [.cells, .hubc, .ens, .regs, .mem, .trc, .log] a3 (applyWait a0 a1 a2 a3) := by
  unfold applyWait
  exact (by
    split
    · exact (Only.step (Only.refl _ _) (onCell_only ..) rfl)
    · exact (Only.step (Only.refl _ _) (applyWatch_only ..) rfl)
    · exact (Only.step (Only.refl _ _) (applyRule_only ..) rfl)
    · exact (Only.step (Only.refl _ _) (resetCell_only ..) rfl)
    · exact (Only.step (Only.refl _ _) (applyHold_only ..) rfl)
    · exact (Only.step (Only.refl _ _) (clearFlags_only ..) rfl)
    · exact (Only.step (Only.refl _ _) (resToCore_only ..) rfl)
    · exact (Only.step (Only.refl _ _) (applyTsel_only ..) rfl))

theorem cellEvent_only (a0 a1 a2 a3) : Only [.cells] a2 (cellEvent a0 a1 a2 a3) := by
  unfold cellEvent
  exact (Only.step (Only.refl _ _) (onCell_only ..) rfl)

theorem fireRule_only (a0 a1 a2 a3) : Only [.regions, .cells, .regs, .trc] a3 (fireRule a0 a1 a2 a3) := by
  unfold fireRule
  exact (Only.named (fun q1 =>
    (Only.named (fun q2 =>
    (Only.named (fun q3 =>
    (Only.ite (Only.step q3 (mark_only ..) rfl) q3))
    (Only.step q2 (onRegion_only ..) rfl)))
    (Only.step q1 (cellEvent_only ..) rfl)))
    (Only.step (Only.refl _ _) (onCell_only ..) rfl))

theorem evalRule_only (a0 a1 a2 a3 a4) : Only [.regions, .cells, .regs, .trc] a4 (evalRule a0 a1 a2 a3 a4) := by
  unfold evalRule
  exact (Only.named (fun q1 =>
    (Only.ite (Only.step q1 (fireRule_only ..) rfl) q1))
    (Only.step (Only.refl _ _) (onCell_only ..) rfl))

theorem epochArrives_only (a0 a1 a2) : Only [.regions, .ens, .casc, .age, .regs, .mem, .log] a2 (epochArrives a0 a1 a2) := by
  unfold epochArrives
  exact (Only.ite (Only.refl _ _) (Only.named (fun q1 =>
    (Only.named (fun q2 =>
    (Only.named (fun q3 =>
    (Only.ite q3 (Only.step q3 (lossRecord_only ..) rfl)))
    (Only.step (Only.step q2 (unitCount_only ..) rfl) (unitFlag_only ..) rfl)))
    (Only.step q1 (emitUnit_only ..) rfl)))
    (Only.step (Only.refl _ _) (onRegion_only ..) rfl)))

theorem countLost_only (a0 a1 a2) : Only [.hubc, .res, .ens, .regs, .mem, .log] a2 (countLost a0 a1 a2) := by
  unfold countLost
  exact (Only.named (fun q1 =>
    (Only.foldl (fun _ _ => (Only.step (Only.refl _ _) (outcomeCounter_only ..) rfl)) _ q1))
    (Only.step (Only.refl _ _) (onHubc_only ..) rfl))

theorem acceptGood_only (a0 a1 a2) : Only [.regions, .hubc, .res, .ens, .casc, .age, .regs, .mem, .log] a2 (acceptGood a0 a1 a2) := by
  unfold acceptGood
  exact (Only.named (fun q1 =>
    (Only.named (fun q2 =>
    (Only.named (fun q3 =>
    (Only.step (Only.step q3 (onRegion_only ..) rfl) (countLost_only ..) rfl))
    (Only.step q2 (onHubc_only ..) rfl)))
    (Only.ite (Only.step q1 (lossRecord_only ..) rfl) q1)))
    (Only.step (Only.refl _ _) (epochArrives_only ..) rfl))

theorem beginFull_only (a0 a1 a2 a3) : Only [.regions, .cells] a3 (beginFull a0 a1 a2 a3) := by
  unfold beginFull
  exact (Only.step (Only.step (Only.refl _ _) (capture_only ..) rfl) (onRegion_only ..) rfl)

theorem cellFault_only (a0 a1 a2 a3) : Only [.ens, .casc, .age, .regs, .mem, .log] a3 (cellFault a0 a1 a2 a3) := by
  unfold cellFault
  exact (Only.step (Only.step (Only.refl _ _) (unitFault_only ..) rfl) (unitFlag_only ..) rfl)

theorem acceptBad_only (a0 a1 a2) : Only [.hubc, .ens, .casc, .age, .regs, .mem, .log] a2 (acceptBad a0 a1 a2) := by
  unfold acceptBad
  exact (Only.named (fun q1 =>
    (Only.ite (Only.step (Only.step q1 (onHubc_only ..) rfl) (cellFault_only ..) rfl) q1))
    (Only.step (Only.step (Only.refl _ _) (onHubc_only ..) rfl) (cellFault_only ..) rfl))

theorem sendCell_only (a0 a1 a2 a3) : Only [.regions, .cells, .hubc, .ens, .regs, .mem, .trc, .log] a3 (sendCell a0 a1 a2 a3).1 := by
  unfold sendCell
  exact (Only.ite1 (Only.fst (Only.step (Only.refl _ _) (onRegion_only ..) rfl)) (Only.fst (Only.step (Only.refl _ _) (applyWait_only ..) rfl)))

theorem beginPartial_only (a0 a1) : Only [.regions, .cells] a1 (beginPartial a0 a1) := by
  unfold beginPartial
  exact (by
    split
    · exact (Only.refl _ _)
    · exact (Only.step (Only.step (Only.refl _ _) (capture_only ..) rfl) (onRegion_only ..) rfl))

theorem askPartial_only (a0 a1 a2) : Only [.regions, .cells] a2 (askPartial a0 a1 a2) := by
  unfold askPartial
  exact (Only.named (fun q1 =>
    (Only.ite (Only.step q1 (beginPartial_only ..) rfl) q1))
    (Only.ite (Only.refl _ _) (Only.step (Only.refl _ _) (onRegion_only ..) rfl)))

theorem edgeRules_only (a0 a1 a2) : Only [.regions, .cells, .regs, .trc] a2 (edgeRules a0 a1 a2) := by
  unfold edgeRules
  exact (Only.ite (Only.refl _ _) (Only.foldl (fun _ _ => (Only.ite (Only.refl _ _) (Only.ite (Only.step (Only.refl _ _) (evalRule_only ..) rfl) (Only.step (Only.refl _ _) (onCell_only ..) rfl)))) _ (Only.refl _ _)))

theorem watchEnd_only (a0 a1 a2) : Only [.cells] a2 (watchEnd a0 a1 a2) := by
  unfold watchEnd
  exact (Only.ite (Only.step (Only.step (Only.refl _ _) (onCell_only ..) rfl) (cellEvent_only ..) rfl) (Only.step (Only.refl _ _) (onCell_only ..) rfl))

theorem turnDone_only (a0 a1 a2) : Only [.regions, .cells] a2 (turnDone a0 a1 a2) := by
  unfold turnDone
  exact (Only.named (fun q1 =>
    (Only.ite q1 (Only.ite (Only.step q1 (beginFull_only ..) rfl) (Only.step q1 (beginPartial_only ..) rfl))))
    (Only.step (Only.refl _ _) (onRegion_only ..) rfl))

theorem onLane_only (a0 a1 a2) : Only [.cells] a2 (onLane a0 a1 a2) := by
  unfold onLane
  exact (Only.step (Only.refl _ _) (onCell_only ..) rfl)

theorem presentIn6_only (a0 a1 a2 a3) : Only [.cells] a3 (presentIn6 a0 a1 a2 a3) := by
  unfold presentIn6
  exact (Only.step (Only.refl _ _) (onLane_only ..) rfl)

theorem rememberTimeout_only (a0 a1 a2 a3) : Only [.hubc] a3 (rememberTimeout a0 a1 a2 a3) := by
  unfold rememberTimeout
  exact (by
    split
    · exact (Only.refl _ _)
    · exact (Only.step (Only.refl _ _) (onHubc_only ..) rfl))

theorem dropEntry_only (a0 a1) : Only [.regions] a1 (dropEntry a0 a1) := by
  unfold dropEntry
  exact (Only.step (Only.refl _ _) (onRegion_only ..) rfl)

theorem postOut_only (a0 a1) : Only [.regions, .hubc] a1 (postOut a0 a1) := by
  unfold postOut
  exact (Only.ite (Only.step (Only.refl _ _) (onRegion_only ..) rfl) (Only.named (fun q1 =>
    (Only.named (fun q2 =>
    (Only.step q2 (dropEntry_only ..) rfl))
    (Only.ite (Only.step q1 (rememberTimeout_only ..) rfl) q1)))
    (Only.ite (Only.step (Only.refl _ _) (onHubc_only ..) rfl) (Only.refl _ _))))

theorem tapProto_only (a0 a1 a2 a3 a4) : Only [.regions, .cells, .hubc] a4 (tapProto a0 a1 a2 a3 a4) := by
  unfold tapProto
  exact (Only.named (fun q1 =>
    (Only.named (fun q2 =>
    (Only.step q2 (postOut_only ..) rfl))
    (by
    split
    · exact (Only.step q1 (presentIn6_only ..) rfl)
    · exact q1)))
    (Only.step (Only.refl _ _) (cellEvent_only ..) rfl))

theorem takeWord_only (a0 a1) : Only [.cells] a1 (takeWord a0 a1) := by
  unfold takeWord
  exact (Only.step (Only.refl _ _) (onLane_only ..) rfl)

theorem takeWrongly_only (a0 a1 a2) : Only [.regions, .cells, .hubc] a2 (takeWrongly a0 a1 a2) := by
  unfold takeWrongly
  exact (Only.step (Only.step (Only.refl _ _) (takeWord_only ..) rfl) (tapProto_only ..) rfl)

theorem lanPair_only (a0 a1 a2 a3 a4) : Only [.regions, .cells, .hubc] a4 (lanPair a0 a1 a2 a3 a4) := by
  unfold lanPair
  exact (Only.named (fun q1 =>
    (by
    try dsimp -proj only
    split
    · exact (Only.step q1 (tapProto_only ..) rfl)
    · exact (Only.ite (Only.step (Only.step q1 (onLane_only ..) rfl) (tapProto_only ..) rfl) (Only.step q1 (onLane_only ..) rfl))))
    (Only.ite (Only.step (Only.refl _ _) (takeWrongly_only ..) rfl) (Only.refl _ _)))

theorem askAudit_only (a0 a1 a2 a3 a4 a5 a6 a7) : Only [.regions, .hubc] a7 (askAudit a0 a1 a2 a3 a4 a5 a6 a7) := by
  unfold askAudit
  exact (Only.ite (Only.step (Only.refl _ _) (postOut_only ..) rfl) (Only.refl _ _))

theorem endNormal_only (a0 a1 a2 a3 a4) : Only [.regions, .cells, .hubc, .res] a4 (endNormal a0 a1 a2 a3 a4).1 := by
  unfold endNormal
  exact (Only.named (fun q1 =>
    (Only.ite1 (Only.fst (Only.step (Only.step q1 (presentIn6_only ..) rfl) (cellEvent_only ..) rfl)) (Only.named (fun q2 =>
    (Only.fst (Only.step q2 (postOut_only ..) rfl)))
    (Only.step (Only.step q1 (presentIn6_only ..) rfl) (cellEvent_only ..) rfl))))
    (Only.step (Only.set_res (Only.refl _ _) rfl) (countCore_only ..) rfl))

theorem endOldest_only (a0 a1 a2 a3 a4) : Only [.regions, .cells, .hubc, .res] a4 (endOldest a0 a1 a2 a3 a4) := by
  unfold endOldest
  exact (Only.named (fun q1 =>
    (Only.ite (Only.step q1 (tapProto_only ..) rfl) (Only.ite (Only.step q1 (tapProto_only ..) rfl) (Only.ite (Only.step q1 (tapProto_only ..) rfl) (Only.ite (Only.step (Only.step q1 (countCore_only ..) rfl) (askAudit_only ..) rfl) (Only.ite (Only.step q1 (countCore_only ..) rfl) (Only.named (fun q2 =>
    (Only.step q2 (askAudit_only ..) rfl))
    (Only.step q1 (endNormal_only ..) rfl))))))))
    (Only.step (Only.refl _ _) (onLane_only ..) rfl))

theorem closeShort_only (a0 a1 a2) : Only [.regions, .cells, .hubc] a2 (closeShort a0 a1 a2) := by
  unfold closeShort
  exact (Only.named (fun q1 =>
    (Only.foldl (fun _ _ => (Only.step (Only.refl _ _) (tapProto_only ..) rfl)) _ q1))
    (Only.step (Only.refl _ _) (onLane_only ..) rfl))

theorem timeOutTile_only (a0 a1 a2 a3) : Only [.regions, .cells, .hubc] a3 (timeOutTile a0 a1 a2 a3) := by
  unfold timeOutTile
  exact (Only.named (fun q1 =>
    (Only.named (fun q2 =>
    (Only.step q2 (postOut_only ..) rfl))
    (Only.step (Only.step q1 (cellEvent_only ..) rfl) (presentIn6_only ..) rfl)))
    (Only.step (Only.refl _ _) (onLane_only ..) rfl))

theorem lanStart_only (a0 a1 a2 a3 a4) : Only [.regions, .cells, .hubc] a4 (lanStart a0 a1 a2 a3 a4) := by
  unfold lanStart
  exact (Only.named (fun q1 =>
    (Only.named (fun q2 =>
    (Only.named (fun q3 =>
    (Only.ite q3 (Only.named (fun q4 =>
    (Only.step q4 (onLane_only ..) rfl))
    (by
    split
    · exact (Only.step (Only.step q3 (onLane_only ..) rfl) (tapProto_only ..) rfl)
    · exact q3))))
    (Only.step q2 (closeShort_only ..) rfl)))
    (Only.ite q1 (Only.step q1 (tapProto_only ..) rfl))))
    (Only.ite (Only.step (Only.refl _ _) (takeWord_only ..) rfl) (Only.refl _ _)))

theorem lanEnd_only (a0 a1 a2 a3 a4) : Only [.regions, .cells, .hubc, .res] a4 (lanEnd a0 a1 a2 a3 a4) := by
  unfold lanEnd
  exact (Only.named (fun q1 =>
    (by
    try dsimp -proj only
    split
    · exact (Only.step (Only.step q1 (onLane_only ..) rfl) (postOut_only ..) rfl)
    · exact (Only.ite (Only.step q1 (onLane_only ..) rfl) (by
    split
    · exact (Only.step q1 (tapProto_only ..) rfl)
    · exact (Only.step q1 (endOldest_only ..) rfl)))))
    (Only.ite (Only.step (Only.refl _ _) (takeWrongly_only ..) rfl) (Only.refl _ _)))

theorem lanSkip_only (a0 a1 a2 a3 a4) : Only [.regions, .cells, .hubc, .res] a4 (lanSkip a0 a1 a2 a3 a4) := by
  unfold lanSkip
  exact (Only.named (fun q1 =>
    (Only.named (fun q2 =>
    (Only.named (fun q3 =>
    (Only.step q3 (closeShort_only ..) rfl))
    (Only.ite (Only.step (Only.set_res q2 rfl) (countCore_only ..) rfl) q2)))
    (Only.ite q1 (Only.step q1 (tapProto_only ..) rfl))))
    (Only.ite (Only.step (Only.refl _ _) (takeWord_only ..) rfl) (Only.refl _ _)))

theorem onEns_only (a0 a1) : Only [.ens] a1 (onEns a0 a1) := by
  unfold onEns
  exact (Only.set_ens (Only.refl _ _) rfl)

theorem onPass_only (a0 a1 a2) : Only [.ens] a2 (onPass a0 a1 a2) := by
  unfold onPass
  exact (Only.step (Only.refl _ _) (onEns_only ..) rfl)

theorem scoreSample_only (a0 a1 a2 a3 a4 a5 a6 a7) : Only [.ens, .casc, .regs, .mem, .log] a7 (scoreSample a0 a1 a2 a3 a4 a5 a6 a7) := by
  unfold scoreSample
  exact (Only.named (fun q1 =>
    (Only.named (fun q2 =>
    (Only.ite (Only.step q2 (unitFault_only ..) rfl) q2))
    (Only.step q1 (onEns_only ..) rfl)))
    (Only.step (Only.refl _ _) (onPass_only ..) rfl))

theorem onSlot_only (a0 a1 a2) : Only [.ens] a2 (onSlot a0 a1 a2) := by
  unfold onSlot
  exact (Only.step (Only.refl _ _) (onEns_only ..) rfl)

theorem pinRows_only (a0 a1 a2 a3 a4) : Only [.ens, .regs, .mem, .log] a4 (pinRows a0 a1 a2 a3 a4) := by
  unfold pinRows
  exact (Only.named (fun q1 =>
    (Only.step q1 (onEns_only ..) rfl))
    (Only.foldl1 (fun _ _ => (Only.ite1 (Only.refl _ _) (Only.named (fun q1 =>
    (by
    try dsimp -proj only
    split
    · exact (Only.fst (Only.step q1 (putRow_only ..) rfl))
    · exact (Only.fst q1)))
    (Only.ite (Only.step (Only.refl _ _) (startFill_only ..) rfl) (Only.refl _ _))))) _ (Only.fst (Only.refl _ _))))

theorem unpin_only (a0 a1 a2 a3) : Only [.ens, .regs, .mem, .log] a3 (unpin a0 a1 a2 a3) := by
  unfold unpin
  exact (by
    split
    · exact (Only.refl _ _)
    · exact (Only.named (fun q1 =>
    (Only.step (Only.step q1 (onEns_only ..) rfl) (retryRoom_only ..) rfl))
    (Only.foldl (fun _ _ => (by
    split
    · exact (Only.step (Only.refl _ _) (onEns_only ..) rfl)
    · exact (Only.refl _ _))) _ (Only.refl _ _))))

theorem refuseSample_only (a0 a1 a2) : Only [.ens] a2 (refuseSample a0 a1 a2) := by
  unfold refuseSample
  exact (Only.step (Only.step (Only.refl _ _) (onEns_only ..) rfl) (onPass_only ..) rfl)

theorem dropSample_only (a0 a1 a2) : Only [.ens, .regs, .mem, .log] a2 (dropSample a0 a1 a2) := by
  unfold dropSample
  exact (Only.step (Only.step (Only.refl _ _) (refuseSample_only ..) rfl) (unpin_only ..) rfl)

theorem gatherRows_only (a0 a1 a2 a3 a4) : Only [.ens, .regs, .mem, .log] a4 (gatherRows a0 a1 a2 a3 a4) := by
  unfold gatherRows
  exact (Only.named (fun q1 =>
    (Only.ite q1 (by
    split
    · exact (Only.step q1 (dropSample_only ..) rfl)
    · exact q1)))
    (Only.step (Only.refl _ _) (pinRows_only ..) rfl))

theorem assemble_only (a0 a1 a2 a3) : Only [.ens, .regs, .mem, .log] a3 (assemble a0 a1 a2 a3) := by
  unfold assemble
  exact (by
    split
    · exact (Only.step (Only.refl _ _) (gatherRows_only ..) rfl)
    · exact (Only.ite (Only.refl _ _) (Only.step (Only.refl _ _) (gatherRows_only ..) rfl)))

theorem assembleAll_only (a0 a1) : Only [.ens, .regs, .mem, .log] a1 (assembleAll a0 a1) := by
  unfold assembleAll
  exact (Only.ite (Only.foldl (fun _ _ => (Only.foldl (fun _ _ => (Only.step (Only.refl _ _) (assemble_only ..) rfl)) _ (Only.refl _ _))) _ (Only.refl _ _)) (Only.refl _ _))

theorem actDone_only (a0 a1 a2 a3) : Only [.casc, .regs, .log] a3 (actDone a0 a1 a2 a3) := by
  unfold actDone
  exact (Only.step (Only.set_casc (Only.refl _ _) rfl) (emit_only ..) rfl)

theorem swapDone_only (a0 a1 a2 a3) : Only [.casc, .regs, .log] a3 (swapDone a0 a1 a2 a3) := by
  unfold swapDone
  exact (by
    split
    · exact (Only.step (Only.refl _ _) (actDone_only ..) rfl)
    · exact (Only.refl _ _))

theorem slotRecord_only (a0 a1 a2 a3 a4) : Only [.regs, .log] a4 (slotRecord a0 a1 a2 a3 a4) := by
  unfold slotRecord
  exact (Only.step (Only.refl _ _) (emitUnit_only ..) rfl)

theorem doSwap_only (a0 a1 a2 a3) : Only [.ens, .casc, .regs, .log] a3 (doSwap a0 a1 a2 a3) := by
  unfold doSwap
  exact (Only.named (fun q1 =>
    (Only.ite (Only.step (Only.step q1 (onSlot_only ..) rfl) (slotRecord_only ..) rfl) (Only.ite (by
    split
    · exact q1
    · exact (Only.named (fun q2 =>
    (Only.step q2 (onSlot_only ..) rfl))
    (Only.step q1 (slotRecord_only ..) rfl))) (by
    split
    · exact q1
    · exact (Only.named (fun q2 =>
    (Only.step q2 (onSlot_only ..) rfl))
    (Only.step q1 (slotRecord_only ..) rfl))))))
    (Only.step (Only.refl _ _) (swapDone_only ..) rfl))

theorem doSwaps_only (a0 a1 a2 a3) : Only [.ens, .casc, .regs, .log] a3 (doSwaps a0 a1 a2 a3) := by
  unfold doSwaps
  exact (Only.foldl (fun _ _ => (by
    split
    · exact (Only.ite (Only.step (Only.refl _ _) (doSwap_only ..) rfl) (Only.refl _ _))
    · exact (Only.refl _ _))) _ (Only.refl _ _))

theorem passLosses_only (a0 a1 a2) : Only [.ens, .regs, .log, .reports] a2 (passLosses a0 a1 a2) := by
  unfold passLosses
  exact (Only.named (fun q1 =>
    (Only.named (fun q2 =>
    (Only.ite q2 (Only.ite (Only.step q2 (onEns_only ..) rfl) (Only.named (fun q3 =>
    (Only.named (fun q4 =>
    (Only.step q4 (onSlot_only ..) rfl))
    (Only.step q3 (report_only ..) rfl)))
    (Only.step q2 (emit_only ..) rfl)))))
    (Only.step q1 (onSlot_only ..) rfl)))
    (Only.step (Only.refl _ _) (onEns_only ..) rfl))

theorem passDone_only (a0 a1 a2) : Only [.ens, .regs, .log, .reports] a2 (passDone a0 a1 a2) := by
  unfold passDone
  exact (Only.step (Only.step (Only.refl _ _) (onEns_only ..) rfl) (passLosses_only ..) rfl)

theorem askPass_only {e : Env} {i : Nat} {use : PassUse} {todo : List Word} {tb : Nat} {h k : Hub}
    (q : askPass e i use todo tb h = .taken k) : Only [.ens, .regs, .mem, .log] h k := by
  unfold askPass at q
  split at q
  · cases q
  · dsimp only at q
    split at q
    · cases q
    · split at q
      · cases q
      · injection q with q
        rw [← q]
        exact Only.named (fun q1 => Only.ite (Only.foldl (fun _ _ => Only.weaken (assemble_only ..) rfl) _ q1) q1)
          (Only.weaken (Only.step (Only.refl [.ens] h) (onEns_only ..) rfl |>.trans (onEns_only ..)) rfl)

/-- A request with an empty list is complete at once (R269). -/
theorem askPass_empty_only {e : Env} {i : Nat} {use : PassUse} {todo : List Word} {tb : Nat} {h k : Hub} {p : Pass}
    (q : askPass e i use todo tb h = .empty p k) : Only [.ens, .regs, .log, .reports] h k := by
  unfold askPass at q
  split at q
  · cases q
  · dsimp only at q
    split at q
    · injection q with q r
      rw [← r]
      exact Only.step (Only.step (Only.refl _ _) (onEns_only ..) rfl) (passDone_only ..) rfl
    · split at q
      · cases q
      · cases q

theorem cascPass_only {ps : List Piece} {e : Env} {slot : Option Nat} {use : PassUse} {todo : List Word} {tb : Nat}
    {fin : Pass → Hub → Hub} {h k : Hub} (a : Only ps h k) (hf : ∀ p x, Only ps x (fin p x)) (w : within? [.ens, .regs, .mem, .log, .reports] ps = true) :
    Only ps h (cascPass e slot use todo tb fin k) := by
  have v : within? [.ens] ps = true := within_trans (by decide) w
  unfold cascPass
  dsimp only
  split
  · exact Only.step a (onEns_only ..) v
  · split
    · exact Only.step a (askPass_only (by assumption)) (within_trans (by decide) w)
    · exact (Only.step a (askPass_empty_only (by assumption)) (within_trans (by decide) w)).trans (hf _ _)
    · exact Only.step a (onEns_only ..) v

theorem overrunAt_only (a0 a1 a2 a3) : Only [.ens, .regs, .log] a3 (overrunAt a0 a1 a2 a3) := by
  unfold overrunAt
  exact (Only.ite (Only.step (Only.step (Only.refl _ _) (onEns_only ..) rfl) (emitUnit_only ..) rfl) (Only.refl _ _))

theorem onCasc_only (a0 a1) : Only [.casc] a1 (onCasc a0 a1) := by
  unfold onCasc
  exact (Only.set_casc (Only.refl _ _) rfl)

theorem actRecord_only (a0 a1 a2 a3 a4 a5) : Only [.regions, .cells, .casc, .regs, .trc, .log, .reports] a5 (actRecord a0 a1 a2 a3 a4 a5) := by
  unfold actRecord
  exact (Only.named (fun q1 =>
    (Only.named (fun q2 =>
    (Only.named (fun q3 =>
    (Only.step q3 (onCasc_only ..) rfl))
    (Only.step q2 (report_only ..) rfl)))
    (Only.step q1 (mark_only ..) rfl)))
    (Only.step (Only.refl _ _) (emit_only ..) rfl))

theorem dueTest_only (a0 a1 a2 a3 a4) : Only [.regions, .cells, .casc, .regs, .trc, .log, .reports] a4 (dueTest a0 a1 a2 a3 a4) := by
  unfold dueTest
  exact (Only.ite (Only.refl _ _) (Only.ite (Only.step (Only.refl _ _) (onEnt_only ..) rfl) (Only.ite (Only.ite (Only.step (Only.step (Only.step (Only.refl _ _) (actRecord_only ..) rfl) (actDone_only ..) rfl) (onEnt_only ..) rfl) (Only.step (Only.step (Only.refl _ _) (actRecord_only ..) rfl) (onEnt_only ..) rfl)) (Only.step (Only.step (Only.refl _ _) (actRecord_only ..) rfl) (onEnt_only ..) rfl))))

theorem countRemoval_only (a0 a1) : Only [.isl] a1 (countRemoval a0 a1) := by
  unfold countRemoval
  exact (Only.ite (Only.refl _ _) (Only.foldl (fun _ _ => (Only.set_isl (Only.refl _ _) rfl)) _ (Only.refl _ _)))

theorem verdictMark_only (a0 a1 a2 a3 a4) : Only [.regions, .cells, .regs, .trc] a4 (verdictMark a0 a1 a2 a3 a4) := by
  unfold verdictMark
  exact (Only.named (fun q1 =>
    (Only.ite (Only.step q1 (trigger_only ..) rfl) q1))
    (Only.step (Only.refl _ _) (mark_only ..) rfl))

theorem verdictRecord_only (a0 a1 a2 a3 a4 a5 a6 a7 a8 a9) : Only [.regs, .log] a9 (verdictRecord a0 a1 a2 a3 a4 a5 a6 a7 a8 a9) := by
  unfold verdictRecord
  exact (Only.step (Only.refl _ _) (emit_only ..) rfl)

theorem noteRemoved_only (a0 a1 a2) : Only [.isl] a2 (noteRemoved a0 a1 a2) := by
  unfold noteRemoved
  exact (Only.ite (Only.refl _ _) (Only.set_isl (Only.refl _ _) rfl))

theorem noVote_only (a0 a1) : Only [.jobs] a1 (noVote a0 a1) := by
  unfold noVote
  exact (Only.set_jobs (Only.refl _ _) rfl)

theorem verdictEffects_only (a0 a1 a2 a3 a4) : Only [.isl, .regions, .cells, .hubc, .casc, .jobs, .regs, .trc, .log, .reports] a4 (verdictEffects a0 a1 a2 a3 a4) := by
  unfold verdictEffects
  exact (Only.named (fun q1 =>
    (Only.named (fun q2 =>
    (Only.named (fun q3 =>
    (Only.ite (Only.foldl (fun _ _ => (Only.step (Only.refl _ _) (dueTest_only ..) rfl)) _ q3) q3))
    (Only.ite (Only.step q2 (noVote_only ..) rfl) q2)))
    (Only.ite (Only.step (Only.step q1 (noteRemoved_only ..) rfl) (refreshHolds_only ..) rfl) q1)))
    (by
    split
    · exact (Only.step (Only.refl _ _) (onHubc_only ..) rfl)
    · exact (Only.refl _ _)))

theorem takeReceived_only (e : Env) (x : Word) (m : Nat × Nat × Nat × Word × Nat × Nat) (h : Hub) :
    Only [.isl, .regions, .cells, .hubc, .casc, .jobs, .regs, .trc, .log, .reports] h (takeReceived e x m h) := by
  unfold takeReceived
  exact Only.named (fun q1 => Only.named (fun q2 => Only.step (Only.step (Only.step q2 (onCasc_only ..) rfl) (onEnt_only ..) rfl)
    (verdictEffects_only ..) rfl) (Only.ite (Only.step q1 (irq_only ..) rfl) q1))
    (Only.step (Only.step (Only.refl _ _) (verdictRecord_only ..) rfl) (verdictMark_only ..) rfl)

theorem raiseAct_only (a0 a1 a2 a3 a4 a5) : Only [.regions, .cells, .casc, .regs, .trc, .log, .reports] a5 (raiseAct a0 a1 a2 a3 a4 a5) := by
  unfold raiseAct
  exact (Only.ite (Only.refl _ _) (Only.ite (Only.step (Only.refl _ _) (actRecord_only ..) rfl) (Only.ite (Only.step (Only.step (Only.step (Only.refl _ _) (actRecord_only ..) rfl) (actDone_only ..) rfl) (onEnt_only ..) rfl) (Only.ite (Only.step (Only.refl _ _) (onEnt_only ..) rfl) (Only.step (Only.step (Only.refl _ _) (actRecord_only ..) rfl) (onCasc_only ..) rfl)))))

theorem memberVerdict_only (a0 a1 a2 a3) : Only [.sb] a3 (memberVerdict a0 a1 a2 a3) := by
  unfold memberVerdict
  exact (Only.step (Only.step (Only.refl _ _) (onMember_only ..) rfl) (sbDown_only ..) rfl)

theorem setVerdict_only (a0 a1 a2 a3 a4) : Only [.isl, .regions, .cells, .hubc, .casc, .sb, .jobs, .regs, .trc, .log, .reports] a4 (setVerdict a0 a1 a2 a3 a4) := by
  unfold setVerdict
  exact (Only.ite (Only.refl _ _) (Only.named (fun q1 =>
    (Only.named (fun q2 =>
    (Only.named (fun q3 =>
    (Only.named (fun q4 =>
    (Only.named (fun q5 =>
    (Only.named (fun q6 =>
    (Only.ite (Only.foldl (fun _ _ => (Only.step (Only.refl _ _) (memberVerdict_only ..) rfl)) _ q6) q6))
    (Only.step (Only.step q5 (raiseAct_only ..) rfl) (verdictEffects_only ..) rfl)))
    (Only.step q4 (onEnt_only ..) rfl)))
    (Only.step (Only.step q3 (onCasc_only ..) rfl) (report_only ..) rfl)))
    (Only.ite (Only.step q2 (irq_only ..) rfl) q2)))
    (Only.step q1 (verdictMark_only ..) rfl)))
    (Only.step (Only.refl _ _) (verdictRecord_only ..) rfl)))

theorem endPending_only (a0 a1 a2) : Only [.casc, .regs, .log] a2 (endPending a0 a1 a2) := by
  unfold endPending
  exact (Only.ite (Only.refl _ _) (Only.step (Only.step (Only.refl _ _) (actDone_only ..) rfl) (onEnt_only ..) rfl))

theorem limitPending_only (a0) : Only [.casc, .regs, .log] a0 (limitPending a0) := by
  unfold limitPending
  exact (Only.ite (Only.refl _ _) (by
    split
    · exact (Only.step (Only.refl _ _) (endPending_only ..) rfl)
    · exact (Only.refl _ _)))

theorem autoAct_only {ps : List Piece} {e : Env} {row kind : Nat} {x cause : Word} {f : Hub → Hub} {h k : Hub} (a : Only ps h k)
    (hf : ∀ x, Only ps x (f x)) (w : within? [.regions, .cells, .casc, .regs, .trc, .log, .reports] ps = true) : Only ps h (autoAct e row kind x cause f k) := by
  have v : within? [.casc, .regs, .log] ps = true := within_trans (by decide) w
  unfold autoAct
  exact Only.ite (Only.step a (actRecord_only ..) w) (Only.named (fun hq => Only.ite (Only.step hq (actDone_only ..) v)
    (Only.step (hq.trans (hf _)) (actDone_only ..) v)) (Only.step a (actRecord_only ..) w))

theorem subsumed_only (a0 a1 a2) : Only [.regs, .log] a2 (subsumed a0 a1 a2) := by
  unfold subsumed
  exact (Only.step (Only.refl _ _) (emitUnit_only ..) rfl)

theorem spikeAct_only (a0 a1 a2 a3 a4) : Only [.regions, .cells, .ens, .casc, .regs, .trc, .log, .reports] a4 (spikeAct a0 a1 a2 a3 a4) := by
  unfold spikeAct
  exact (Only.ite (Only.step (Only.step (Only.step (Only.refl _ _) (emitUnit_only ..) rfl) (onCasc_only ..) rfl) (onSlot_only ..) rfl) (Only.ite (Only.step (Only.refl _ _) (actRecord_only ..) rfl) (Only.named (fun q1 =>
    (Only.ite (Only.step q1 (actDone_only ..) rfl) (Only.named (fun q2 =>
    (Only.step (Only.step q2 (onCasc_only ..) rfl) (onSlot_only ..) rfl))
    (Only.step q1 (swapDone_only ..) rfl))))
    (Only.step (Only.refl _ _) (actRecord_only ..) rfl))))

theorem boundaryRemoval_only (a0 a1) : Only [.casc, .regs, .log] a0 (boundaryRemoval a0 a1).1 := by
  unfold boundaryRemoval
  exact (Only.ite1 (Only.fst (Only.refl _ _)) (Only.ite1 (Only.fst (Only.refl _ _)) (Only.ite1 (Only.fst (Only.refl _ _)) (Only.fst (Only.step (Only.refl _ _) (endPending_only ..) rfl)))))

theorem removeNow_only (a0 a1 a2 a3 a4) : Only [.isl, .regions, .cells, .hubc, .casc, .sb, .jobs, .regs, .trc, .log, .reports] a4 (removeNow a0 a1 a2 a3 a4) := by
  unfold removeNow
  exact (Only.named (fun q1 =>
    (Only.ite q1 (Only.step q1 (countRemoval_only ..) rfl)))
    (Only.step (Only.step (Only.refl _ _) (onEnt_only ..) rfl) (setVerdict_only ..) rfl))

theorem autoRemove_only (a0 a1 a2 a3 a4 a5) : Only [.isl, .regions, .cells, .hubc, .casc, .sb, .jobs, .regs, .trc, .log, .reports] a5 (autoRemove a0 a1 a2 a3 a4 a5) := by
  unfold autoRemove
  exact (Only.ite (Only.ite (Only.refl _ _) (Only.step (Only.step (Only.refl _ _) (actRecord_only ..) rfl) (onEnt_only ..) rfl)) (Only.named (fun q1 =>
    (Only.ite (Only.step q1 (actDone_only ..) rfl) (Only.ite (Only.step (Only.step (Only.step q1 (endPending_only ..) rfl) (removeNow_only ..) rfl) (actDone_only ..) rfl) (Only.named (fun q2 =>
    (Only.named (fun q3 =>
    (Only.step (Only.ite (Only.step (Only.step q3 (setVerdict_only ..) rfl) (subsumed_only ..) rfl) (Only.step q3 (setVerdict_only ..) rfl)) (limitPending_only ..) rfl))
    (Only.step (Only.step q2 (onCasc_only ..) rfl) (onEnt_only ..) rfl)))
    (Only.step q1 (endPending_only ..) rfl)))))
    (Only.step (Only.refl _ _) (actRecord_only ..) rfl)))

theorem takeRemovals_only (a0 a1 a2) : Only [.isl, .regions, .cells, .hubc, .casc, .sb, .jobs, .regs, .trc, .log, .reports] a2 (takeRemovals a0 a1 a2) := by
  unfold takeRemovals
  exact (Only.foldl (fun _ _ => (Only.ite (Only.ite (Only.step (Only.step (Only.refl _ _) (removeNow_only ..) rfl) (endPending_only ..) rfl) (Only.refl _ _)) (Only.step (Only.refl _ _) (autoRemove_only ..) rfl))) _ (Only.refl _ _))

theorem boundaryFloor_only (a0 a1 a2) : Only [.isl, .regions, .cells, .hubc, .casc, .sb, .jobs, .regs, .trc, .log, .reports] a2 (boundaryFloor a0 a1 a2) := by
  unfold boundaryFloor
  exact (Only.ite (Only.refl _ _) (Only.named (fun q1 =>
    (Only.step q1 (setVerdict_only ..) rfl))
    (Only.ite (Only.step (Only.refl _ _) (onEnt_only ..) rfl) (Only.refl _ _))))

theorem boundaryVerdicts_only (a0 a1) : Only [.isl, .regions, .cells, .hubc, .casc, .sb, .jobs, .regs, .trc, .log, .reports] a1 (boundaryVerdicts a0 a1) := by
  unfold boundaryVerdicts
  exact (Only.named (fun q1 =>
    (Only.named (fun q2 =>
    (Only.foldl (fun _ _ => (Only.ite (Only.foldl (fun _ _ => (Only.step (Only.refl _ _) (subsumed_only ..) rfl)) _ (Only.refl _ _)) (Only.step (Only.refl _ _) (boundaryFloor_only ..) rfl))) _ q2))
    (Only.step q1 (takeRemovals_only ..) rfl)))
    (Only.foldl1 (fun _ _ => (Only.named (fun q1 =>
    (Only.fst q1))
    (Only.step (Only.refl _ _) (boundaryRemoval_only ..) rfl))) _ (Only.fst (Only.refl _ _))))

theorem enterScores_only (a0 a1) : Only [.casc] a1 (enterScores a0 a1).1 := by
  unfold enterScores
  exact (Only.foldl1 (fun _ _ => (by
    split
    · exact (Only.fst (Only.step (Only.refl _ _) (onCasc_only ..) rfl))
    · exact (Only.fst (Only.step (Only.refl _ _) (onEnt_only ..) rfl)))) _ (Only.fst (Only.refl _ _)))

theorem finishActs_only (a0) : Only [.casc, .regs, .log] a0 (finishActs a0) := by
  unfold finishActs
  exact (Only.foldl (fun _ _ => (Only.step (Only.refl _ _) (actDone_only ..) rfl)) _ (Only.step (Only.refl _ _) (onCasc_only ..) rfl))

theorem withhold_only (a0 a1 a2 a3) : Only [.regions, .cells, .casc, .regs, .trc, .log, .reports] a3 (withhold a0 a1 a2 a3) := by
  unfold withhold
  exact (Only.step (Only.refl _ _) (actRecord_only ..) rfl)

theorem setBase_only (a0 a1 a2 a3 a4) : Only [.isl, .regions, .cells, .hubc, .casc, .sb, .jobs, .regs, .trc, .log, .reports] a4 (setBase a0 a1 a2 a3 a4) := by
  unfold setBase
  exact (Only.named (fun q1 =>
    (Only.step q1 (setVerdict_only ..) rfl))
    (Only.step (Only.refl _ _) (onEnt_only ..) rfl))

theorem applyChanges_only (a0 a1 a2 a3 a4 a5) : Only [.isl, .regions, .cells, .hubc, .ens, .casc, .sb, .jobs, .regs, .trc, .log, .reports] a5 (applyChanges a0 a1 a2 a3 a4 a5) := by
  unfold applyChanges
  exact (Only.named (fun q1 =>
    (Only.named (fun q2 =>
    (Only.named (fun q3 =>
    (Only.step q3 (takeRemovals_only ..) rfl))
    (Only.foldl (fun _ _ => (Only.named (fun q1 =>
    (Only.ite (Only.step q1 (subsumed_only ..) rfl) q1))
    (Only.step (Only.refl _ _) (setBase_only ..) rfl))) _ q2)))
    (Only.foldl (fun _ _ => (Only.step (Only.refl _ _) (withhold_only ..) rfl)) _ q1)))
    (Only.ite (Only.refl _ _) (Only.named (fun q1 =>
    (Only.step (Only.foldl (fun _ _ => (Only.step (Only.refl _ _) (withhold_only ..) rfl)) _ q1) (spikeAct_only ..) rfl))
    (Only.step (Only.step (Only.refl _ _) (emitUnit_only ..) rfl) (irq_only ..) rfl))))

theorem noteCmd_only (a0 a1) : Only [.casc] a1 (noteCmd a0 a1) := by
  unfold noteCmd
  exact (Only.step (Only.refl _ _) (onEnt_only ..) rfl)

theorem applyReceived_only (a0 a1 a2) : Only [.isl, .regions, .cells, .hubc, .casc, .jobs, .regs, .trc, .log, .reports] a2 (applyReceived a0 a1 a2) := by
  unfold applyReceived
  exact (Only.foldl (fun _ _ => (Only.step (Only.refl _ _) (takeReceived_only ..) rfl)) _ (Only.step (Only.refl _ _) (onEnt_only ..) rfl))

theorem takeBase_only (a0 a1) : Only [.casc] a1 (takeBase a0 a1) := by
  unfold takeBase
  exact (Only.step (Only.refl _ _) (onCasc_only ..) rfl)

theorem noteClear_only (a0 a1) : Only [.casc] a1 (noteClear a0 a1) := by
  unfold noteClear
  exact (Only.foldl (fun _ _ => (Only.ite (Only.refl _ _) (Only.named (fun q1 =>
    (Only.ite (Only.step q1 (takeBase_only ..) rfl) q1))
    (Only.step (Only.refl _ _) (onEnt_only ..) rfl)))) _ (Only.refl _ _))

theorem applyPass_only (a0 a1 a2 a3) : Only [.isl, .regions, .cells, .hubc, .ens, .casc, .sb, .jobs, .regs, .trc, .log, .reports] a3 (applyPass a0 a1 a2 a3) := by
  unfold applyPass
  exact (Only.named (fun q1 =>
    (Only.step (Only.step q1 (applyChanges_only ..) rfl) (noteClear_only ..) rfl))
    (Only.step (Only.refl _ _) (enterScores_only ..) rfl))

theorem detEntity_only (a0 a1 a2 a3 a4) : Only [.ens, .casc, .regs, .mem, .log] a4 (detEntity a0 a1 a2 a3 a4) := by
  unfold detEntity
  exact (Only.named (fun q1 =>
    (Only.ite (Only.step q1 (featWrite_only ..) rfl) q1))
    (Only.step (Only.step (Only.refl _ _) (onCasc_only ..) rfl) (featWrites_only ..) rfl))

theorem busyRatios_only (a0 a1) : Only [.ens, .regs, .mem, .log] a1 (busyRatios a0 a1) := by
  unfold busyRatios
  exact (by
    split
    · exact (Only.refl _ _)
    · exact (Only.foldl (fun _ _ => (Only.step (Only.refl _ _) (featWrite_only ..) rfl)) _ (Only.refl _ _)))

theorem promote_only (a0 a1 a2) : Only [.isl, .regions, .cells, .hubc, .casc, .sb, .jobs, .regs, .trc, .log, .reports] a2 (promote a0 a1 a2) := by
  unfold promote
  exact (Only.named (fun q1 =>
    (Only.named (fun q2 =>
    (Only.named (fun q3 =>
    (Only.named (fun q4 =>
    (Only.step q4 (report_only ..) rfl))
    (Only.step (Only.step q3 (onEnt_only ..) rfl) (setBase_only ..) rfl)))
    (Only.step q2 (onCasc_only ..) rfl)))
    (Only.set_jobs q1 rfl)))
    (Only.step (Only.refl _ _) (onCasc_only ..) rfl))

theorem abortTest_only (a0 a1 a2) : Only [.regions, .cells, .hubc, .casc, .regs, .log] a2 (abortTest a0 a1 a2) := by
  unfold abortTest
  exact (Only.step (Only.step (Only.step (Only.refl _ _) (emitUnit_only ..) rfl) (onEnt_only ..) rfl) (refreshHold_only ..) rfl)

theorem setPeriod_only (a0 a1) : Only [.casc, .regs, .log] a1 (setPeriod a0 a1) := by
  unfold setPeriod
  exact (Only.ite (Only.refl _ _) (Only.step (Only.step (Only.refl _ _) (emitState_only ..) rfl) (onCasc_only ..) rfl))

theorem autoClear_only (a0 a1 a2) : Only [.regions, .cells, .hubc, .ens, .regs, .mem, .trc, .log] a2 (autoClear a0 a1 a2) := by
  unfold autoClear
  exact (Only.named (fun q1 =>
    (Only.ite (Only.step (Only.step q1 (onHubc_only ..) rfl) (featWrite_only ..) rfl) q1))
    (Only.ite (Only.refl _ _) (Only.step (Only.refl _ _) (sendCell_only ..) rfl)))

theorem regionHealth_only (a0 a1 a2) : Only [.regions, .hubc, .ens, .casc, .age, .regs, .mem, .log] a2 (regionHealth a0 a1 a2) := by
  unfold regionHealth
  exact (Only.ite (Only.foldl (fun _ _ => (Only.step (Only.refl _ _) (onHubc_only ..) rfl)) _ (Only.step (Only.refl _ _) (onRegion_only ..) rfl)) (Only.named (fun q1 =>
    (Only.ite (Only.step (Only.step (Only.step q1 (onRegion_only ..) rfl) (unitFault_only ..) rfl) (unitFlag_only ..) rfl) q1))
    (Only.step (Only.refl _ _) (onRegion_only ..) rfl)))

theorem judgePass_only (a0 a1 a2) : Only [.ens, .casc, .regs, .log] a2 (judgePass a0 a1 a2) := by
  unfold judgePass
  exact (Only.ite (Only.named (fun q1 =>
    (Only.ite (Only.step (Only.step q1 (onCasc_only ..) rfl) (setPeriod_only ..) rfl) q1))
    (Only.step (Only.refl _ _) (overrunAt_only ..) rfl)) (Only.ite (Only.ite (Only.step (Only.step (Only.refl _ _) (onCasc_only ..) rfl) (setPeriod_only ..) rfl) (Only.step (Only.refl _ _) (onCasc_only ..) rfl)) (Only.step (Only.refl _ _) (onCasc_only ..) rfl)))

theorem residueFeatures_only (a0 a1 a2) : Only [.ens, .regs, .mem, .log] a2 (residueFeatures a0 a1 a2) := by
  unfold residueFeatures
  exact (Only.step (Only.refl _ _) (featWrites_only ..) rfl)

theorem coreCounts_only (a0 a1 a2) : Only [.ens, .regs, .mem, .log] a2 (coreCounts a0 a1 a2) := by
  unfold coreCounts
  exact (Only.ite (Only.refl _ _) (Only.step (Only.refl _ _) (featWrites_only ..) rfl))

theorem linkFeatures_only (a0 a1) : Only [.dig, .ens, .regs, .mem, .log] a1 (linkFeatures a0 a1) := by
  unfold linkFeatures
  exact (Only.named (fun q1 =>
    (Only.step q1 (onDig_only ..) rfl))
    (Only.foldl (fun _ _ => (Only.step (Only.refl _ _) (featWrites_only ..) rfl)) _ (Only.refl _ _)))

theorem detBoundary_only (a0 a1 a2) : Only [.ens, .casc, .regs, .mem, .log] a2 (detBoundary a0 a1 a2) := by
  unfold detBoundary
  exact (Only.foldl (fun _ _ => (Only.foldl (fun _ _ => (Only.step (Only.refl _ _) (detEntity_only ..) rfl)) _ (Only.refl _ _))) _ (Only.refl _ _))

theorem regionFigures_only (a0 a1 a2) : Only [.regions, .ens, .age, .regs, .mem, .log] a2 (regionFigures a0 a1 a2) := by
  unfold regionFigures
  exact (Only.named (fun q1 =>
    (Only.named (fun q2 =>
    (Only.step q2 (onRegion_only ..) rfl))
    (Only.step q1 (onZone_only ..) rfl)))
    (Only.step (Only.refl _ _) (featWrite_only ..) rfl))

theorem scanFeatures_only (a0 a1) : Only [.regions, .hubc, .dig, .ens, .casc, .age, .regs, .mem, .log] a1 (scanFeatures a0 a1) := by
  unfold scanFeatures
  exact (Only.named (fun q1 =>
    (Only.named (fun q2 =>
    (Only.named (fun q3 =>
    (Only.named (fun q4 =>
    (Only.named (fun q5 =>
    (Only.foldl (fun _ _ => (Only.step (Only.refl _ _) (onHubc_only ..) rfl)) _ q5))
    (Only.foldl (fun _ _ => (Only.step (Only.refl _ _) (regionFigures_only ..) rfl)) _ q4)))
    (Only.step q3 (busyRatios_only ..) rfl)))
    (Only.step q2 (detBoundary_only ..) rfl)))
    (Only.step q1 (linkFeatures_only ..) rfl)))
    (Only.foldl (fun _ _ => (Only.step (Only.step (Only.refl _ _) (coreCounts_only ..) rfl) (residueFeatures_only ..) rfl)) _ (Only.refl _ _)))

theorem closeProbe_only (a0 a1 a2) : Only [.regions, .cells, .hubc, .age, .regs, .log] a2 (closeProbe a0 a1 a2) := by
  unfold closeProbe
  exact (Only.named (fun q1 =>
    (Only.step (Only.step q1 (emitUnit_only ..) rfl) (refreshHold_only ..) rfl))
    (Only.set_age (Only.refl _ _) rfl))

theorem promotions_only (a0 a1) : Only [.isl, .regions, .cells, .hubc, .casc, .sb, .jobs, .regs, .trc, .log, .reports] a1 (promotions a0 a1) := by
  unfold promotions
  exact (Only.foldl (fun _ _ => (Only.step (Only.refl _ _) (promote_only ..) rfl)) _ (Only.refl _ _))

theorem claimedProbes_only (a0 a1) : Only [.regions, .cells, .hubc, .age, .regs, .log] a1 (claimedProbes a0 a1) := by
  unfold claimedProbes
  exact (Only.ite (Only.foldl (fun _ _ => (Only.step (Only.refl _ _) (closeProbe_only ..) rfl)) _ (Only.refl _ _)) (Only.refl _ _))

theorem startTest_only (a0 a1 a2 a3) : Only [.regions, .cells, .hubc, .casc, .cmd, .regs, .log] a3 (startTest a0 a1 a2 a3) := by
  unfold startTest
  exact (Only.named (fun q1 =>
    (Only.named (fun q2 =>
    (Only.named (fun q3 =>
    (Only.named (fun q4 =>
    (Only.named (fun q5 =>
    (Only.step q5 (sendNotice_only ..) rfl))
    (Only.step q4 (refreshHold_only ..) rfl)))
    (Only.step q3 (onEnt_only ..) rfl)))
    (Only.step q2 (onCasc_only ..) rfl)))
    (Only.ite (Only.step q1 (emitUnit_only ..) rfl) q1)))
    (by
    split
    · exact (Only.step (Only.refl _ _) (actDone_only ..) rfl)
    · exact (Only.refl _ _)))

theorem detWindow_only (a0) : Only [.casc] a0 (detWindow a0) := by
  unfold detWindow
  exact (Only.step (Only.refl _ _) (onCasc_only ..) rfl)

theorem startProbe_only (a0 a1 a2) : Only [.regions, .cells, .hubc, .casc, .age, .cmd, .regs, .trc, .log, .reports] a2 (startProbe a0 a1 a2) := by
  unfold startProbe
  exact (Only.named (fun q1 =>
    (autoAct_only q1 (fun _ => (Only.named (fun q1 =>
    (Only.named (fun q2 =>
    (Only.step (Only.step q2 (refreshHold_only ..) rfl) (sendNotice_only ..) rfl))
    (Only.set_age q1 rfl)))
    (Only.step (Only.refl _ _) (onCasc_only ..) rfl))) rfl))
    (Only.step (Only.refl _ _) (onHubc_only ..) rfl))

theorem startTests_only (a0 a1 a2) : Only [.regions, .cells, .hubc, .casc, .cmd, .regs, .log] a2 (startTests a0 a1 a2) := by
  unfold startTests
  exact (Only.foldl (fun _ _ => (Only.step (Only.refl _ _) (startTest_only ..) rfl)) _ (Only.refl _ _))

theorem stepBoundary_only (a0 a1) : Only [.isl, .regions, .cells, .hubc, .casc, .sb, .jobs, .cmd, .regs, .trc, .log, .reports] a1 (stepBoundary a0 a1) := by
  unfold stepBoundary
  exact (Only.step (Only.step (Only.refl _ _) (promotions_only ..) rfl) (startTests_only ..) rfl)

theorem regionScan_only (a0 a1 a2) : Only [.regions, .cells, .hubc, .ens, .casc, .age, .regs, .mem, .log] a2 (regionScan a0 a1 a2) := by
  unfold regionScan
  exact (Only.named (fun q1 =>
    (Only.named (fun q2 =>
    (Only.ite q2 (Only.ite (Only.step q2 (onRegion_only ..) rfl) (Only.step q2 (beginFull_only ..) rfl))))
    (Only.step q1 (onRegion_only ..) rfl)))
    (Only.step (Only.refl _ _) (regionHealth_only ..) rfl))

theorem endTest_only (a0 a1 a2 a3) : Only [.isl, .regions, .cells, .hubc, .casc, .age, .sb, .jobs, .regs, .trc, .log, .reports] a3 (endTest a0 a1 a2 a3) := by
  unfold endTest
  exact (Only.named (fun q1 =>
    (Only.named (fun q2 =>
    (Only.named (fun q3 =>
    (Only.named (fun q4 =>
    (Only.named (fun q5 =>
    (Only.named (fun q6 =>
    (Only.step q6 (refreshHold_only ..) rfl))
    (Only.ite (Only.named (fun q6 =>
    (Only.step q6 (takeRemovals_only ..) rfl))
    (Only.step q5 (boundaryRemoval_only ..) rfl)) (Only.ite (Only.step q5 (setBase_only ..) rfl) q5))))
    (Only.step q4 (onEnt_only ..) rfl)))
    (Only.ite (Only.step q3 (setFloor_only ..) rfl) q3)))
    (Only.step q2 (onHubc_only ..) rfl)))
    (Only.step q1 (histCore_only ..) rfl)))
    (Only.step (Only.refl _ _) (emitUnit_only ..) rfl))

theorem releaseJobs_only (a0) : Only [.ens, .casc, .regs, .log] a0 (releaseJobs a0) := by
  unfold releaseJobs
  exact (Only.foldl (fun _ _ => (Only.named (fun q1 =>
    (Only.named (fun q2 =>
    (Only.step q2 (emitUnit_only ..) rfl))
    (Only.step q1 (onCasc_only ..) rfl)))
    (Only.step (Only.refl _ _) (onEns_only ..) rfl))) _ (Only.refl _ _))

theorem takePolicy_only (a0) : Only [.ens, .casc, .regs, .log] a0 (takePolicy a0) := by
  unfold takePolicy
  exact (Only.named (fun q1 =>
    (by
    try dsimp -proj only
    split
    · exact q1
    · exact (Only.named (fun q2 =>
    (Only.named (fun q3 =>
    (Only.ite (Only.step q3 (setPeriod_only ..) rfl) q3))
    (Only.step q2 (onEns_only ..) rfl)))
    (Only.step q1 (onCasc_only ..) rfl))))
    (Only.step (Only.refl _ _) (releaseJobs_only ..) rfl))

theorem startProbes_only (a0 a1) : Only [.regions, .cells, .hubc, .casc, .age, .cmd, .regs, .trc, .log, .reports] a1 (startProbes a0 a1) := by
  unfold startProbes
  exact (Only.foldl (fun _ _ => (Only.step (Only.refl _ _) (startProbe_only ..) rfl)) _ (Only.refl _ _))

theorem reduceReply_only (e : Env) (r : Round) (group pend dest : Nat) (es : List Elem) (h : Hub) :
    Only [.xs, .sb, .mgt, .cmd, .regs, .dma, .log, .ram] h (reduceReply e r group pend dest es h) := by
  unfold reduceReply
  refine Only.ite (Only.ite (Only.weaken (finish_only ..) rfl)
    (Only.step (Only.step (Only.refl _ _) (recordsWritten_only ..) rfl) (finish_only ..) rfl)) ?_
  dsimp only
  split
  · exact Only.ite (Only.step (Only.step (Only.weaken (writeOut_only (by assumption)) rfl) (recordsWritten_only ..) rfl) (finish_only ..) rfl)
      (Only.weaken (finish_only ..) rfl)
  · exact Only.weaken (finish_only ..) rfl

theorem normReply_only (a0 a1 a2 a3 a4 a5) : Only [.xs, .sb, .mgt, .cmd, .regs, .log] a5 (normReply a0 a1 a2 a3 a4 a5) := by
  unfold normReply
  exact (by
    try dsimp -proj only
    split
    · exact (Only.ite (Only.step (Only.refl _ _) (finish_only ..) rfl) (Only.step (Only.step (Only.refl _ _) (recordsWritten_only ..) rfl) (finish_only ..) rfl))
    · exact (Only.step (Only.refl _ _) (finish_only ..) rfl))

theorem roundRecord_only (a0 a1 a2 a3 a4 a5 a6) : Only [.regs, .log] a6 (roundRecord a0 a1 a2 a3 a4 a5 a6) := by
  unfold roundRecord
  exact (Only.step (Only.refl _ _) (digRecord_only ..) rfl)

theorem onShadow_only (a0 a1 a2) : Only [.casc] a2 (onShadow a0 a1 a2) := by
  unfold onShadow
  exact (Only.step (Only.refl _ _) (onCasc_only ..) rfl)

theorem endShadow_only (a0 a1 a2) : Only [.isl, .regions, .cells, .hubc, .casc, .sb, .jobs, .regs, .trc, .log, .reports] a2 (endShadow a0 a1 a2) := by
  unfold endShadow
  exact (Only.named (fun q1 =>
    (Only.named (fun q2 =>
    (Only.step q2 (report_only ..) rfl))
    (Only.step q1 (onCasc_only ..) rfl)))
    (Only.step (Only.refl _ _) (removeNow_only ..) rfl))

theorem shadowRound_only (a0 a1 a2 a3) : Only [.isl, .regions, .cells, .hubc, .casc, .sb, .jobs, .regs, .trc, .log, .reports] a3 (shadowRound a0 a1 a2 a3) := by
  unfold shadowRound
  exact (by
    split
    · exact (Only.refl _ _)
    · exact (Only.step (Only.refl _ _) (onShadow_only ..) rfl)
    · exact (Only.named (fun q1 =>
    (Only.ite (Only.step q1 (endShadow_only ..) rfl) q1))
    (Only.step (Only.refl _ _) (onShadow_only ..) rfl)))

theorem shadowHalf_only (a0 a1 a2 a3 a4 a5) : Only [.isl, .regions, .cells, .hubc, .casc, .sb, .jobs, .regs, .trc, .log, .reports] a5 (shadowHalf a0 a1 a2 a3 a4 a5) := by
  unfold shadowHalf
  exact (by
    split
    · exact (Only.refl _ _)
    · exact (by
    split
    · exact (Only.step (Only.step (Only.refl _ _) (onShadow_only ..) rfl) (shadowRound_only ..) rfl)
    · exact (Only.ite (Only.step (Only.refl _ _) (shadowRound_only ..) rfl) (Only.step (Only.refl _ _) (onShadow_only ..) rfl))))

theorem compareResult_only (a0 a1 a2 a3) : Only [.isl, .regions, .cells, .hubc, .dig, .ens, .casc, .age, .sb, .jobs, .regs, .mem, .trc, .log, .reports] a3 (compareResult a0 a1 a2 a3) := by
  unfold compareResult
  exact (Only.named (fun q1 =>
    (Only.named (fun q2 =>
    (Only.named (fun q3 =>
    (Only.ite (Only.step q3 (shadowHalf_only ..) rfl) q3))
    (by
    split
    · exact (Only.step q2 (uncompared_only ..) rfl)
    · exact (Only.step q2 (onDig_only ..) rfl)
    · exact (Only.named (fun q3 =>
    (Only.named (fun q4 =>
    (Only.step q4 (digOutcome_only ..) rfl))
    (Only.ite q3 (Only.foldl (fun _ _ => (Only.step (Only.refl _ _) (setFloor_only ..) rfl)) _ q3))))
    (Only.step (Only.step q2 (onDig_only ..) rfl) (roundRecord_only ..) rfl))
    · exact (Only.named (fun q3 =>
    (Only.named (fun q4 =>
    (Only.step q4 (digOutcome_only ..) rfl))
    (Only.foldl (fun _ _ => (Only.step (Only.refl _ _) (setFloor_only ..) rfl)) _ q3)))
    (Only.step (Only.step q2 (onDig_only ..) rfl) (roundRecord_only ..) rfl)))))
    (Only.step q1 (onDig_only ..) rfl)))
    (Only.step (Only.refl _ _) (onDig_only ..) rfl))

theorem egressResult_only (a0 a1 a2 a3) : Only [.isl, .regions, .cells, .hubc, .casc, .sb, .jobs, .regs, .trc, .log, .reports] a3 (egressResult a0 a1 a2 a3) := by
  unfold egressResult
  exact (Only.ite (Only.refl _ _) (by
    split
    · exact (Only.step (Only.refl _ _) (shadowHalf_only ..) rfl)
    · exact (Only.step (Only.refl _ _) (shadowHalf_only ..) rfl)))

theorem useResult_only (a0 a1 a2 a3 a4) : Only [.isl, .regions, .cells, .hubc, .dig, .xs, .ens, .casc, .age, .sb, .jobs, .mgt, .cmd, .regs, .mem, .dma, .trc, .log, .reports, .ram] a4 (useResult a0 a1 a2 a3 a4) := by
  unfold useResult
  exact (Only.named (fun q1 =>
    (by
    try dsimp -proj only
    split
    · exact (Only.step q1 (reduceReply_only ..) rfl)
    · exact (Only.step q1 (normReply_only ..) rfl)
    · exact (by
    split
    · exact (Only.step q1 (compareResult_only ..) rfl)
    · exact q1)
    · exact (Only.step q1 (egressResult_only ..) rfl)
    · exact q1))
    (Only.step (Only.step (Only.refl _ _) (dropRound_only ..) rfl) (roundDone_only ..) rfl))

theorem dieResult_only (a0 a1 a2) : Only [.isl, .regions, .cells, .hubc, .dig, .xs, .ens, .casc, .age, .sb, .jobs, .mgt, .cmd, .regs, .mem, .dma, .trc, .log, .reports, .ram] a2 (dieResult a0 a1 a2) := by
  unfold dieResult
  exact (by
    split
    · exact (Only.refl _ _)
    · exact (Only.ite (Only.step (Only.refl _ _) (onXs_only ..) rfl) (Only.ite (Only.step (Only.refl _ _) (useResult_only ..) rfl) (Only.step (Only.refl _ _) (putRound_only ..) rfl))))

theorem noteLoad_only (a0 a1 a2) : Only [.xs] a2 (noteLoad a0 a1 a2) := by
  unfold noteLoad
  exact (Only.ite (Only.step (Only.refl _ _) (onXs_only ..) rfl) (Only.step (Only.refl _ _) (onXs_only ..) rfl))

theorem redirected_only (a0 a1 a2 a3) : Only [.xs, .fab, .regs, .log] a3 (redirected a0 a1 a2 a3) := by
  unfold redirected
  exact (by
    split
    · exact (Only.refl _ _)
    · exact (Only.named (fun q1 =>
    (Only.ite q1 (Only.ite (Only.ite q1 (Only.step q1 (roundLate_only ..) rfl)) (Only.ite (Only.step q1 (trayDeliver_only ..) rfl) q1))))
    (Only.step (Only.refl _ _) (putRound_only ..) rfl)))

theorem reduceRx_only (a0 a1 a2) : Only [.isl, .regions, .cells, .hubc, .dig, .xs, .ens, .casc, .age, .fab, .sb, .jobs, .mgt, .cmd, .regs, .mem, .dma, .trc, .log, .reports, .ram] a2 (reduceRx a0 a1 a2) := by
  unfold reduceRx
  exact (by
    split
    · exact (Only.step (Only.refl _ _) (onXs_only ..) rfl)
    · exact (Only.named (fun q1 =>
    (Only.named (fun q2 =>
    (by
    try dsimp -proj only
    split
    · exact q1
    · exact (Only.ite (Only.ite (Only.step q2 (dieResult_only ..) rfl) q1) (Only.ite (Only.step q2 (redirected_only ..) rfl) (Only.ite (Only.ite (Only.step q2 (combResult_only ..) rfl) (Only.step q2 (trayResult_only ..) rfl)) (by
    split
    · exact (Only.ite q1 (Only.step q2 (trayTake_only ..) rfl))
    · exact (Only.ite (Only.step q2 (combTake_only ..) rfl) (Only.ite (Only.step q2 (rootTake_only ..) rfl) q1))
    · exact (Only.ite (Only.step q2 (rootTake_only ..) rfl) q1)
    · exact q1))))))
    (Only.step (Only.refl _ _) (noteLoad_only ..) rfl)))
    (Only.step (Only.refl _ _) (onXs_only ..) rfl)))

theorem splitRequest_only (a0 a1 a2 a3 a4 a5 a6) : Only [.casc, .reports] a6 (splitRequest a0 a1 a2 a3 a4 a5 a6) := by
  unfold splitRequest
  exact (Only.ite (Only.refl _ _) (Only.step (Only.step (Only.refl _ _) (onCasc_only ..) rfl) (report_only ..) rfl))

theorem unscored_only (a0 a1) : Only [.casc, .regs, .log] a1 (unscored a0 a1) := by
  unfold unscored
  exact (Only.foldl (fun _ _ => (Only.step (Only.step (Only.refl _ _) (onCasc_only ..) rfl) (emitUnit_only ..) rfl)) _ (Only.refl _ _))

theorem markUnconf_only (a0 a1 a2) : Only [.casc] a2 (markUnconf a0 a1 a2) := by
  unfold markUnconf
  exact (Only.foldl (fun _ _ => (Only.step (Only.refl _ _) (onEnt_only ..) rfl)) _ (Only.refl _ _))

theorem soloScreen_only (e : Env) (p : Pass) (h : Hub) : Only [.isl, .regions, .cells, .hubc, .ens, .casc, .sb, .jobs, .regs, .mem, .trc, .log, .reports] h (soloScreen e p h) := by
  unfold soloScreen
  dsimp only
  split
  · exact Only.step (Only.step (Only.refl _ _) (markUnconf_only ..) rfl) (applyPass_only ..) rfl
  · split
    · exact Only.step (Only.weaken (askPass_only (by assumption)) rfl) (onCasc_only ..) rfl
    · exact Only.step (Only.step (Only.step (Only.refl _ _) (onEns_only ..) rfl) (markUnconf_only ..) rfl) (applyPass_only ..) rfl

theorem rhizStart_only (a0 a1) : Only [.isl, .regions, .cells, .hubc, .xs, .ens, .casc, .fab, .sb, .jobs, .regs, .mem, .trc, .log, .reports] a1 (rhizStart a0 a1) := by
  unfold rhizStart
  exact (by
    try dsimp -proj only
    split
    · exact (Only.named (fun q1 =>
    (Only.named (fun q2 =>
    (Only.named (fun q3 =>
    (Only.foldl (fun _ _ => (Only.foldl (fun _ _ => (Only.step (Only.refl _ _) (photenSend_only ..) rfl)) _ (Only.refl _ _))) _ q3))
    (Only.step q2 (onCasc_only ..) rfl)))
    (by
    split
    · exact (Only.step q1 (unscored_only ..) rfl)
    · exact q1)))
    (Only.step (Only.refl _ _) (detBoundary_only ..) rfl))
    · exact (Only.named (fun q1 =>
    (cascPass_only q1 (fun _ _ => (Only.step (Only.refl _ _) (soloScreen_only ..) rfl)) rfl))
    (Only.step (Only.refl _ _) (detBoundary_only ..) rfl)))

theorem rhizEnd_only (a0) : Only [.casc] a0 (rhizEnd a0) := by
  unfold rhizEnd
  exact (Only.step (Only.refl _ _) (onCasc_only ..) rfl)

theorem rhizApply_only (a0 a1 a2 a3 a4) : Only [.isl, .regions, .cells, .hubc, .ens, .casc, .sb, .jobs, .regs, .trc, .log, .reports] a4 (rhizApply a0 a1 a2 a3 a4) := by
  unfold rhizApply
  exact (Only.named (fun q1 =>
    (Only.named (fun q2 =>
    (Only.step (Only.step (Only.step q2 (rhizEnd_only ..) rfl) (applyChanges_only ..) rfl) (noteClear_only ..) rfl))
    (Only.step q1 (enterScores_only ..) rfl)))
    (Only.step (Only.refl _ _) (markUnconf_only ..) rfl))

theorem onRhiz_only (a0 a1) : Only [.casc] a1 (onRhiz a0 a1) := by
  unfold onRhiz
  exact (Only.step (Only.refl _ _) (onCasc_only ..) rfl)

theorem rhizContribute_only (a0 a1 a2 a3 a4 a5 a6) : Only [.xs, .fab, .regs, .log] a6 (rhizContribute a0 a1 a2 a3 a4 a5 a6) := by
  unfold rhizContribute
  exact (Only.foldl (fun _ _ => (Only.step (Only.step (Only.refl _ _) (putRound_only ..) rfl) (trayTake_only ..) rfl)) _ (Only.refl _ _))

theorem contributeStage_only (a0 a1 a2 a3 a4 a5) : Only [.xs, .fab, .regs, .log] a5 (contributeStage a0 a1 a2 a3 a4 a5) := by
  unfold contributeStage
  exact (Only.step (Only.refl _ _) (rhizContribute_only ..) rfl)

theorem startScreen_only (a0 a1 a2) : Only [.xs, .ens, .casc, .fab, .regs, .mem, .log, .reports] a2 (startScreen a0 a1 a2) := by
  unfold startScreen
  exact (by
    split
    · exact (Only.refl _ _)
    · exact (Only.named (fun q1 =>
    (cascPass_only q1 (fun _ _ => (Only.step (Only.refl _ _) (contributeStage_only ..) rfl)) rfl))
    (Only.step (Only.refl _ _) (onRhiz_only ..) rfl)))

theorem startRaises_only (e : Env) (s : Scoring) (rs : List Result) (slot : Nat) (h : Hub) :
    Only [.xs, .casc, .fab, .regs, .log] h (startRaises e s rs slot h) := by
  unfold startRaises
  split
  · exact Only.refl _ _
  · exact Only.step (Only.step (Only.step (Only.step (Only.refl _ _) (unscored_only ..) rfl) (onRhiz_only ..) rfl) (rhizContribute_only ..) rfl)
      (rhizContribute_only ..) rfl

theorem startConfirm_only (a0 a1 a2) : Only [.xs, .ens, .casc, .fab, .regs, .mem, .log, .reports] a2 (startConfirm a0 a1 a2) := by
  unfold startConfirm
  exact (by
    split
    · exact (Only.refl _ _)
    · exact (by
    try dsimp -proj only
    split
    · exact (Only.ite (Only.step (Only.refl _ _) (startRaises_only ..) rfl) (Only.named (fun q1 =>
    (cascPass_only q1 (fun _ _ => (Only.step (Only.refl _ _) (contributeStage_only ..) rfl)) rfl))
    (Only.step (Only.refl _ _) (onRhiz_only ..) rfl)))
    · exact (Only.step (Only.refl _ _) (startRaises_only ..) rfl)))

theorem rhizStep_only (a0 a1 a2) : Only [.isl, .regions, .cells, .hubc, .xs, .ens, .casc, .fab, .sb, .jobs, .regs, .mem, .trc, .log, .reports] a2 (rhizStep a0 a1 a2) := by
  unfold rhizStep
  exact (by
    split
    · exact (Only.refl _ _)
    · exact (by
    try dsimp -proj only
    split
    · exact (Only.ite (Only.step (Only.refl _ _) (startScreen_only ..) rfl) (Only.refl _ _))
    · exact (by
    split
    · exact (Only.step (Only.step (Only.refl _ _) (onRhiz_only ..) rfl) (startConfirm_only ..) rfl)
    · exact (Only.refl _ _))
    · exact (by
    split
    · exact (Only.step (Only.step (Only.refl _ _) (onRhiz_only ..) rfl) (startRaises_only ..) rfl)
    · exact (Only.refl _ _))
    · exact (by
    split
    · exact (Only.step (Only.refl _ _) (rhizApply_only ..) rfl)
    · exact (Only.step (Only.step (Only.refl _ _) (rhizEnd_only ..) rfl) (unscored_only ..) rfl)
    · exact (Only.refl _ _))))

theorem rhizAdvance_only (a0 a1) : Only [.isl, .regions, .cells, .hubc, .xs, .ens, .casc, .fab, .sb, .jobs, .regs, .mem, .trc, .log, .reports] a1 (rhizAdvance a0 a1) := by
  unfold rhizAdvance
  exact (by
    split
    · exact (Only.refl _ _)
    · exact (Only.step (Only.step (Only.step (Only.step (Only.refl _ _) (rhizStep_only ..) rfl) (rhizStep_only ..) rfl) (rhizStep_only ..) rfl) (rhizStep_only ..) rfl))

theorem exchangeRx_only (a0 a1 a2 a3) : Only [.isl, .regions, .cells, .hubc, .xs, .ens, .casc, .fab, .sb, .jobs, .regs, .mem, .trc, .log, .reports] a3 (exchangeRx a0 a1 a2 a3) := by
  unfold exchangeRx
  exact (by
    split
    · exact (Only.ite (Only.refl _ _) (Only.named (fun q1 =>
    (Only.step (Only.step q1 (onRhiz_only ..) rfl) (rhizAdvance_only ..) rfl))
    (Only.foldl (fun _ _ => (Only.foldl (fun _ _ => (Only.step (Only.refl _ _) (featWrite_only ..) rfl)) _ (Only.refl _ _))) _ (Only.refl _ _))))
    · exact (Only.refl _ _))

theorem soloConfirm_only (a0 a1 a2) : Only [.isl, .regions, .cells, .hubc, .ens, .casc, .sb, .jobs, .regs, .trc, .log, .reports] a2 (soloConfirm a0 a1 a2) := by
  unfold soloConfirm
  exact (by
    split
    · exact (Only.refl _ _)
    · exact (Only.step (Only.step (Only.step (Only.refl _ _) (rhizEnd_only ..) rfl) (markUnconf_only ..) rfl) (applyPass_only ..) rfl))

theorem rhizPass_only (a0 a1 a2 a3) : Only [.isl, .regions, .cells, .hubc, .xs, .ens, .casc, .fab, .sb, .jobs, .regs, .mem, .trc, .log, .reports] a3 (rhizPass a0 a1 a2 a3) := by
  unfold rhizPass
  exact (by
    split
    · exact (Only.ite (Only.step (Only.refl _ _) (soloScreen_only ..) rfl) (Only.step (Only.refl _ _) (soloConfirm_only ..) rfl))
    · exact (by
    split
    · exact (Only.refl _ _)
    · exact (Only.ite (Only.refl _ _) (Only.step (Only.step (Only.refl _ _) (contributeStage_only ..) rfl) (rhizAdvance_only ..) rfl))))

theorem rhizDeadline_only (a0 a1 a2) : Only [.isl, .regions, .cells, .hubc, .xs, .ens, .casc, .fab, .sb, .jobs, .regs, .mem, .trc, .log, .reports] a2 (rhizDeadline a0 a1 a2) := by
  unfold rhizDeadline
  exact (by
    split
    · exact (by
    split
    · exact (Only.step (Only.step (Only.refl _ _) (startScreen_only ..) rfl) (rhizAdvance_only ..) rfl)
    · exact (Only.step (Only.step (Only.refl _ _) (unscored_only ..) rfl) (rhizEnd_only ..) rfl)
    · exact (Only.step (Only.step (Only.step (Only.refl _ _) (onRhiz_only ..) rfl) (startRaises_only ..) rfl) (rhizAdvance_only ..) rfl)
    · exact (Only.step (Only.step (Only.refl _ _) (rhizEnd_only ..) rfl) (unscored_only ..) rfl))
    · exact (Only.refl _ _))

theorem laneOutcome_only (a0 a1 a2 a3 a4) : Only [.regions, .cells, .hubc, .res, .ens, .casc, .age, .regs, .mem, .trc, .log] a4 (laneOutcome a0 a1 a2 a3 a4) := by
  unfold laneOutcome
  exact (Only.named (fun q1 =>
    (Only.step q1 (outcomeEffects_only ..) rfl))
    (Only.ite (Only.step (Only.refl _ _) (rememberTimeout_only ..) rfl) (Only.refl _ _)))

theorem giveClass_only (a0 a1 a2 a3) : Only [.regions, .cells, .hubc, .res, .ens, .casc, .age, .regs, .mem, .trc, .log] a3 (giveClass a0 a1 a2 a3) := by
  unfold giveClass
  exact (by
    split
    · exact (Only.refl _ _)
    · exact (Only.step (Only.set_res (Only.refl _ _) rfl) (laneOutcome_only ..) rfl))

theorem auditOutcome_only (a0 a1 a2 a3 a4 a5 a6) : Only [.regions, .cells, .hubc, .res, .ens, .casc, .age, .regs, .mem, .trc, .log] a6 (auditOutcome a0 a1 a2 a3 a4 a5 a6) := by
  unfold auditOutcome
  exact (Only.named (fun q1 =>
    (Only.step q1 (outcomeEffects_only ..) rfl))
    (Only.ite (Only.step (Only.refl _ _) (mismatchArrives_only ..) rfl) (Only.refl _ _)))

theorem clearValid_only (a0 a1 a2 a3) : Only [.ram] a3 (clearValid a0 a1 a2 a3) := by
  unfold clearValid
  exact (by
    split
    · exact (Only.step (Only.refl _ _) (postMem_only ..) rfl)
    · exact (Only.refl _ _))

theorem auditEnds_only (a0 a1 a2 a3) : Only [.regions, .cells, .hubc, .res, .ens, .casc, .age, .regs, .mem, .trc, .log, .ram] a3 (auditEnds a0 a1 a2 a3) := by
  unfold auditEnds
  exact (Only.named (fun q1 =>
    (Only.named (fun q2 =>
    (Only.step (Only.step (Only.set_res q2 rfl) (countCore_only ..) rfl) (clearValid_only ..) rfl))
    (by
    split
    · exact (Only.step q1 (auditOutcome_only ..) rfl)
    · exact (Only.foldl (fun _ _ => (Only.step (Only.refl _ _) (auditOutcome_only ..) rfl)) _ q1))))
    (Only.step (Only.refl _ _) (giveClass_only ..) rfl))

theorem auditSkip_only (a0 a1 a2) : Only [.hubc, .res] a2 (auditSkip a0 a1 a2) := by
  unfold auditSkip
  exact (Only.step (Only.set_res (Only.refl _ _) rfl) (countCore_only ..) rfl)

theorem abandon_only (a0 a1 a2) : Only [.regions, .cells, .hubc, .res, .ens, .casc, .age, .regs, .mem, .trc, .log] a2 (abandon a0 a1 a2) := by
  unfold abandon
  exact (Only.step (Only.step (Only.refl _ _) (auditSkip_only ..) rfl) (giveClass_only ..) rfl)

theorem auditPush_only (a0 a1 a2) : Only [.regions, .cells, .hubc, .res, .ens, .casc, .age, .regs, .mem, .trc, .log] a2 (auditPush a0 a1 a2) := by
  unfold auditPush
  exact (Only.ite (Only.set_res (Only.refl _ _) rfl) (Only.ite (by
    split
    · exact (Only.step (Only.set_res (Only.refl _ _) rfl) (abandon_only ..) rfl)
    · exact (Only.step (Only.refl _ _) (abandon_only ..) rfl)) (Only.step (Only.refl _ _) (abandon_only ..) rfl)))

theorem dropClasses_only (a0 a1 a2) : Only [.regions, .cells, .hubc, .res, .ens, .casc, .age, .regs, .mem, .trc, .log] a2 (dropClasses a0 a1 a2) := by
  unfold dropClasses
  exact (Only.foldl (fun _ _ => (Only.step (Only.refl _ _) (laneOutcome_only ..) rfl)) _ (Only.set_res (Only.refl _ _) rfl))

theorem auditArrives_only (a0 a1 a2 a3 a4 a5) : Only [.regions, .cells, .hubc, .res, .ens, .casc, .age, .regs, .mem, .trc, .log] a5 (auditArrives a0 a1 a2 a3 a4 a5) := by
  unfold auditArrives
  exact (Only.ite (Only.step (Only.step (Only.refl _ _) (giveClass_only ..) rfl) (auditOutcome_only ..) rfl) (Only.step (Only.refl _ _) (auditPush_only ..) rfl))

theorem laneArrives_only (a0 a1 a2) : Only [.regions, .cells, .hubc, .res, .ens, .casc, .age, .regs, .mem, .trc, .log] a2 (laneArrives a0 a1 a2) := by
  unfold laneArrives
  exact (Only.ite (Only.named (fun q1 =>
    (Only.ite (Only.set_res q1 rfl) (Only.step q1 (laneOutcome_only ..) rfl)))
    (Only.step (Only.refl _ _) (mismatchArrives_only ..) rfl)) (Only.step (Only.refl _ _) (laneOutcome_only ..) rfl))

theorem onMem_only (a0 a1) : Only [.mem] a1 (onMem a0 a1) := by
  unfold onMem
  exact (Only.set_mem (Only.refl _ _) rfl)

theorem onDma_only (a0 a1) : Only [.dma] a1 (onDma a0 a1) := by
  unfold onDma
  exact (Only.set_dma (Only.refl _ _) rfl)

theorem onDmaCh_only (a0 a1 a2) : Only [.dma] a2 (onDmaCh a0 a1 a2) := by
  unfold onDmaCh
  exact (Only.step (Only.refl _ _) (onDma_only ..) rfl)

theorem kick_only (a0 a1 a2) : Only [.regs, .mem, .dma, .log] a2 (kick a0 a1 a2) := by
  unfold kick
  exact (Only.ite (Only.refl _ _) (Only.ite (Only.step (Only.refl _ _) (onDmaCh_only ..) rfl) (Only.ite (Only.step (Only.refl _ _) (onDmaCh_only ..) rfl) (Only.step (Only.step (Only.refl _ _) (onDmaCh_only ..) rfl) (access_only ..) rfl))))

theorem beginGroup_only (a0 a1 a2) : Only [.regs, .mem, .log] a2 (beginGroup a0 a1 a2) := by
  unfold beginGroup
  exact (by
    split
    · exact (Only.refl _ _)
    · exact (Only.step (Only.step (Only.refl _ _) (onMem_only ..) rfl) (access_only ..) rfl))

theorem dmaFail_only (a0 a1 a2) : Only [.dma] a2 (dmaFail a0 a1 a2) := by
  unfold dmaFail
  exact (Only.step (Only.refl _ _) (onDmaCh_only ..) rfl)

theorem clientError_only (a0 a1 a2) : Only [.regions, .cells, .hubc, .res, .ens, .casc, .age, .regs, .mem, .dma, .trc, .log, .ram] a2 (clientError a0 a1 a2) := by
  unfold clientError
  exact (by
    split
    · exact (Only.ite (Only.named (fun q1 =>
    (Only.named (fun q2 =>
    (Only.named (fun q3 =>
    (Only.step (Only.step q3 (onEns_only ..) rfl) (retryRoom_only ..) rfl))
    (Only.foldl (fun _ _ => (Only.step (Only.refl _ _) (dropSample_only ..) rfl)) _ q2)))
    (Only.step q1 (onEns_only ..) rfl)))
    (Only.step (Only.refl _ _) (emitUnit_only ..) rfl)) (Only.refl _ _))
    · exact (Only.ite (Only.step (Only.refl _ _) (onMem_only ..) rfl) (Only.ite (Only.step (Only.step (Only.step (Only.refl _ _) (emitUnit_only ..) rfl) (onEns_only ..) rfl) (retryRoom_only ..) rfl) (Only.refl _ _)))
    · exact (by
    split
    · exact (Only.step (Only.step (Only.set_res (Only.refl _ _) rfl) (abandon_only ..) rfl) (clearValid_only ..) rfl)
    · exact (Only.refl _ _))
    · exact (Only.step (Only.refl _ _) (dmaFail_only ..) rfl)
    · exact (Only.step (Only.refl _ _) (dmaFail_only ..) rfl)
    · exact (Only.step (Only.refl _ _) (emitUnit_only ..) rfl)
    · exact (Only.step (Only.refl _ _) (onDmaCh_only ..) rfl)
    · exact (Only.step (Only.refl _ _) (emitUnit_only ..) rfl)
    · exact (Only.step (Only.refl _ _) (onMem_only ..) rfl))

theorem chargeDecode_only (a0 a1 a2) : Only [.ens, .casc, .regs, .mem, .log] a2 (chargeDecode a0 a1 a2) := by
  unfold chargeDecode
  exact (Only.ite (Only.step (Only.refl _ _) (chargeEnt_only ..) rfl) (Only.refl _ _))

theorem memPump_only (a0 a1) : Only [.regions, .cells, .hubc, .res, .ens, .casc, .age, .regs, .mem, .dma, .trc, .log, .ram] a1 (memPump a0 a1) := by
  unfold memPump
  exact (Only.named (fun q1 =>
    (Only.foldl (fun _ _ => (Only.step (Only.step (Only.refl _ _) (chargeDecode_only ..) rfl) (clientError_only ..) rfl)) _ (Only.step q1 (onMem_only ..) rfl)))
    (Only.step (Only.refl _ _) (pumpPort_only ..) rfl))

theorem putRecord_only (a0 a1 a2 a3 a4 a5 a6 a7 a8) : Only [.regs, .mem, .dma, .log] a8 (putRecord a0 a1 a2 a3 a4 a5 a6 a7 a8) := by
  unfold putRecord
  exact (Only.step (Only.step (Only.refl _ _) (onDmaCh_only ..) rfl) (access_only ..) rfl)

theorem settleStop_only (a0 a1 a2) : Only [.regs, .mem, .dma, .log] a2 (settleStop a0 a1 a2) := by
  unfold settleStop
  exact (Only.ite (Only.refl _ _) (Only.ite (Only.step (Only.refl _ _) (onDmaCh_only ..) rfl) (Only.ite (Only.step (Only.step (Only.refl _ _) (putRecord_only ..) rfl) (onDmaCh_only ..) rfl) (Only.step (Only.refl _ _) (onDmaCh_only ..) rfl))))

theorem issueLines_only (e : Env) (n : Nat) (h : Hub) : Only [.ens, .casc, .regs, .mem, .dma, .log] h (issueLines e n h) := by
  induction n generalizing h with
  | zero => exact Only.refl _ _
  | succ n ih =>
    unfold issueLines
    split
    · exact Only.refl _ _
    · next c _ =>
      dsimp only
      split
      · exact Only.refl _ _
      ·
        have hq := Only.step (Only.refl [.ens, .casc, .regs, .mem, .dma, .log] h) (onDma_only (fun u => { u with turn := some c, lastTurn := c }) h) rfl
        split
        · exact Only.step (Only.step (Only.step hq (issueReq_only (by assumption)) rfl) (onDmaCh_only ..) rfl) (ih _) rfl
        · exact hq
        · exact Only.step (Only.step hq (dmaFail_only ..) rfl) (ih _) rfl
        · exact Only.step (Only.step (Only.step (Only.step hq (decodeError_only ..) rfl) (chargeEnt_only ..) rfl) (dmaFail_only ..) rfl) (ih _) rfl

theorem dmaPump_only (a0 a1) : Only [.regions, .cells, .hubc, .res, .ens, .casc, .age, .regs, .mem, .dma, .trc, .log, .ram] a1 (dmaPump a0 a1) := by
  unfold dmaPump
  exact (Only.named (fun q1 =>
    (Only.ite q1 (Only.named (fun q2 =>
    (Only.step q2 (issueLines_only ..) rfl))
    (Only.foldl (fun _ _ => (Only.step (Only.step (Only.refl _ _) (settleStop_only ..) rfl) (kick_only ..) rfl)) _ q1))))
    (Only.step (Only.refl _ _) (memPump_only ..) rfl))

theorem memFeature_only (a0 a1 a2) : Only [.ens, .regs, .mem, .log] a2 (memFeature a0 a1 a2) := by
  unfold memFeature
  exact (Only.step (Only.step (Only.refl _ _) (onMem_only ..) rfl) (featWrite_only ..) rfl)

theorem memError_only (a0 a1 a2 a3) : Only [.ens, .regs, .mem, .log] a3 (memError a0 a1 a2 a3) := by
  unfold memError
  exact (Only.named (fun q1 =>
    (Only.named (fun q2 =>
    (Only.named (fun q3 =>
    (Only.ite (Only.step (Only.step (Only.step q3 (onMem_only ..) rfl) (emit_only ..) rfl) (memFeature_only ..) rfl) q3))
    (Only.step q2 (memFeature_only ..) rfl)))
    (Only.step (Only.step q1 (onMem_only ..) rfl) (emit_only ..) rfl)))
    (Only.step (Only.refl _ _) (onMem_only ..) rfl))

theorem countBusy_only (a0) : Only [.mem] a0 (countBusy a0) := by
  unfold countBusy
  exact (Only.ite (Only.refl _ _) (Only.step (Only.refl _ _) (onMem_only ..) rfl))

theorem onRange_only (a0 a1 a2) : Only [.mem] a2 (onRange a0 a1 a2) := by
  unfold onRange
  exact (by
    split
    · exact (Only.step (Only.refl _ _) (onMem_only ..) rfl)
    · exact (Only.refl _ _))

theorem moveGroup_only (a0 a1 a2 a3) : Only [.ram] a3 (moveGroup a0 a1 a2 a3) := by
  unfold moveGroup
  exact (Only.set_posted (Only.refl _ _) rfl)

theorem landWrite_only (a0 a1 a2) : Only [.ram] a2 (landWrite a0 a1 a2) := by
  unfold landWrite
  exact (by
    split
    · exact (Only.refl _ _)
    · exact (Only.set_posted (Only.refl _ _) rfl))

theorem migResume_only (a0 a1) : Only [.regs, .mem, .log] a1 (migResume a0 a1) := by
  unfold migResume
  exact (by
    split
    · exact (Only.ite (Only.refl _ _) (Only.step (Only.refl _ _) (beginGroup_only ..) rfl))
    · exact (Only.refl _ _))

theorem takeDesc_only (a0 a1 a2) : Only [.dma] a2 (takeDesc a0 a1 a2) := by
  unfold takeDesc
  exact (Only.step (Only.refl _ _) (onDmaCh_only ..) rfl)

theorem completeDesc_only (a0 a1 a2 a3) : Only [.regs, .mem, .dma, .log] a3 (completeDesc a0 a1 a2 a3) := by
  unfold completeDesc
  exact (Only.named (fun q1 =>
    (Only.named (fun q2 =>
    (Only.named (fun q3 =>
    (Only.step q3 (onDmaCh_only ..) rfl))
    (Only.step q2 (onDma_only ..) rfl)))
    (Only.step q1 (putRecord_only ..) rfl)))
    (Only.ite (Only.step (Only.refl _ _) (access_only ..) rfl) (Only.refl _ _)))

theorem readDone_only (a0 a1 a2 a3) : Only [.regs, .mem, .dma, .log] a3 (readDone a0 a1 a2 a3) := by
  unfold readDone
  exact (by
    try dsimp -proj only
    split
    · exact (Only.step (Only.refl _ _) (takeDesc_only ..) rfl)
    · exact (by
    split
    · exact (Only.step (Only.refl _ _) (access_only ..) rfl)
    · exact (Only.refl _ _))
    · exact (Only.refl _ _))

theorem onLog_only (a0 a1) : Only [.log] a1 (onLog a0 a1) := by
  unfold onLog
  exact (Only.set_log (Only.refl _ _) rfl)

theorem appendDrift_only (a0 a1) : Only [.log, .nvm] a1 (appendDrift a0 a1) := by
  unfold appendDrift
  exact (Only.foldl (fun _ _ => (Only.step (Only.step (Only.refl _ _) (nvPost_only ..) rfl) (onLog_only ..) rfl)) _ (Only.refl _ _))

theorem mirrorPage_only (a0) : Only [.log, .nvm] a0 (mirrorPage a0) := by
  unfold mirrorPage
  exact (by
    split
    · exact (Only.refl _ _)
    · exact (Only.named (fun q1 =>
    (Only.step q1 (onLog_only ..) rfl))
    (Only.ite (Only.step (Only.step (Only.refl _ _) (nvPost_only ..) rfl) (onLog_only ..) rfl) (Only.step (Only.refl _ _) (appendDrift_only ..) rfl))))

theorem mirrorAll_only (n : Nat) (h : Hub) : Only [.log, .nvm] h (mirrorAll n h) := by
  induction n generalizing h with
  | zero => exact Only.refl _ _
  | succ n ih => exact Only.ite (Only.refl _ _) (Only.step (Only.step (Only.refl _ _) (mirrorPage_only ..) rfl) (ih _) rfl)

theorem appendLog_only (a0 a1 a2 a3) : Only [.log, .ram] a3 (appendLog a0 a1 a2 a3) := by
  unfold appendLog
  exact (by
    split
    · exact (Only.refl _ _)
    · exact (Only.named (fun q1 =>
    (Only.step q1 (onLog_only ..) rfl))
    (Only.foldl (fun _ _ => (Only.step (Only.refl _ _) (postMem_only ..) rfl)) _ (Only.refl _ _))))

theorem flushRec_only (code : Nat) (payload : List Word) (h : Hub) : Only [.log] h (flushRec code payload h).2 :=
  Only.snd <| Only.step (Only.refl _ _) (onLog_only ..) rfl

theorem eraseNext_only (a0 a1) : Only [.log, .nvm] a1 (eraseNext a0 a1) := by
  unfold eraseNext
  exact (Only.step (Only.step (Only.refl _ _) (nvErase_only ..) rfl) (onLog_only ..) rfl)

theorem eraseFor_only (e : Env) (n f : Nat) (h : Hub) : Only [.log, .nvm] h (eraseFor e n f h) := by
  induction f generalizing h with
  | zero => exact Only.refl _ _
  | succ f ih => exact Only.ite (Only.refl _ _) (Only.step (Only.step (Only.refl _ _) (eraseNext_only ..) rfl) (ih _) rfl)

theorem storeRec_only (a0 a1 a2) : Only [.regs, .log] a2 (storeRec a0 a1 a2) := by
  unfold storeRec
  exact (Only.ite (Only.step (Only.refl _ _) (onLog_only ..) rfl) (Only.named (fun q1 =>
    (Only.named (fun q2 =>
    (Only.ite q2 (Only.step q2 (emit_only ..) rfl)))
    (Only.ite q1 (Only.step q1 (emit_only ..) rfl))))
    (Only.step (Only.refl _ _) (onLog_only ..) rfl)))

theorem acceptRec_only (a0 a1) : Only [.regs, .log] a1 (acceptRec a0 a1) := by
  unfold acceptRec
  exact (by
    split
    · exact (Only.refl _ _)
    · exact (Only.step (Only.step (Only.refl _ _) (onLog_only ..) rfl) (storeRec_only ..) rfl))

theorem recorderKnown_only (e : Env) (base sector logSize : Nat) (h : Hub) :
    Only [.log, .nvm] h (recorderKnown e base sector logSize h) := by
  unfold recorderKnown
  exact Only.named (fun q1 => Only.ite q1 (Only.step (Only.step (Only.step (Only.step (Only.step (Only.step (Only.step (Only.step
    q1 (onLog_only ..) rfl) (onLog_only ..) rfl) (nvErase_only ..) rfl) (nvPost_only ..) rfl) (nvErase_only ..) rfl) (flushRec_only ..) rfl)
    (eraseFor_only ..) rfl) (appendDrift_only ..) rfl)) (Only.step (Only.refl _ _) (onLog_only ..) rfl)

theorem acceptAll_only (e : Env) (n : Nat) (h : Hub) : Only [.regs, .log] h (acceptAll e n h) := by
  induction n generalizing h with
  | zero => exact Only.refl _ _
  | succ n ih => exact Only.ite (Only.refl _ _) (Only.step (Only.step (Only.refl _ _) (acceptRec_only ..) rfl) (ih _) rfl)

theorem putPages_only (a0 a1 a2 a3) : Only [.log, .nvm] a3 (putPages a0 a1 a2 a3) := by
  unfold putPages
  exact (Only.ite (Only.refl _ _) (Only.step (Only.ite (Only.step (Only.refl _ _) (eraseFor_only ..) rfl) (Only.refl _ _)) (appendDrift_only ..) rfl))

theorem ownRec_only (ty unit code : Nat) (x : Word) (payload : List Word) (h : Hub) :
    Only [.log] h (ownRec ty unit code x payload h).2 :=
  Only.snd <| Only.step (Only.refl _ _) (onLog_only ..) rfl

theorem ownRecs_only (ty unit code : Nat) (x : Word) (ps : List (List Word)) (h : Hub) :
    Only [.log] h (ownRecs ty unit code x ps h).2 := by
  have all : ∀ (l : List (List Word)) (a : List Rec × Hub), Only [.log] a.2
      (l.foldl (fun a p => let r := ownRec ty unit code x p a.2; (a.1 ++ [r.1], r.2)) a).2 := by
    intro l
    induction l with
    | nil => exact fun _ => Only.refl _ _
    | cons p l ih => exact fun a => (ownRec_only ty unit code x p a.2).trans (ih (a.1 ++ [(ownRec ty unit code x p a.2).1], _))
  exact all ps ([], h)

theorem putPhase_only (a0 a1 a2 a3) : Only [.regs, .log, .nvm] a3 (putPhase a0 a1 a2 a3) := by
  unfold putPhase
  exact (Only.ite (Only.step (Only.refl _ _) (putPages_only ..) rfl) (Only.foldl (fun _ _ => (Only.step (Only.refl _ _) (storeRec_only ..) rfl)) _ (Only.refl _ _)))

theorem writeFlush_only (e : Env) (h : Hub) : Only [.regs, .log, .nvm] h (writeFlush e h) := by
  unfold writeFlush
  have one : ∀ {ps} {k : Hub} (_ : within? [.log] ps = true) {ty unit code x pay}, Only ps h k → Only ps h (ownRec ty unit code x pay k).2 :=
    fun w _ _ _ _ _ a => Only.step a (ownRec_only ..) w
  have many : ∀ {ps} {k : Hub} (_ : within? [.log] ps = true) {ty unit code x pay}, Only ps h k → Only ps h (ownRecs ty unit code x pay k).2 :=
    fun w _ _ _ _ _ a => Only.step a (ownRecs_only ..) w
  exact (Only.step (Only.step (many rfl (one rfl (Only.step (Only.step (one rfl (Only.step (many rfl (Only.step (one rfl (Only.step (many rfl (many rfl (Only.step (one rfl (many rfl (Only.step (Only.refl _ _) (onLog_only ..) rfl))) (putPhase_only ..) rfl))) (putPhase_only ..) rfl)) (putPhase_only ..) rfl)) (putPhase_only ..) rfl)) (putPhase_only ..) rfl) (putPages_only ..) rfl))) (putPhase_only ..) rfl) (onLog_only ..) rfl)

theorem coldReset_only (a0) : Only [.sys, .isl, .time, .regions, .cells, .hubc, .res, .dig, .xs, .ens, .casc, .age, .fab, .sb, .bc, .jobs, .mgt, .cmd, .prot, .regs, .mem, .dma, .trc, .nid, .log, .boot, .img] a0 (coldReset a0) := by
  unfold coldReset
  exact (Only.named (fun q1 =>
    (Only.upd q1 (.inr rfl) (.inl rfl) (.inr rfl) (.inr rfl) (.inr rfl) (.inr rfl) (.inr rfl) (.inr rfl) (.inr rfl) (.inr rfl) (.inl rfl) (.inr rfl) (.inr rfl) (.inr rfl) (.inr rfl) (.inr rfl) (.inr rfl) (.inr rfl) (.inr rfl) (.inr rfl) (.inr rfl) (.inr rfl) (.inr rfl) (.inr rfl) (.inr rfl) (.inr rfl) (.inr rfl) (.inr rfl) (.inr rfl) (.inr rfl) (.inr rfl)))
    (Only.upd (Only.refl _ _) (.inr rfl) (.inl rfl) (.inl rfl) (.inl rfl) (.inl rfl) (.inl rfl) (.inl rfl) (.inl rfl) (.inl rfl) (.inl rfl) (.inl rfl) (.inl rfl) (.inl rfl) (.inl rfl) (.inl rfl) (.inl rfl) (.inl rfl) (.inl rfl) (.inl rfl) (.inl rfl) (.inl rfl) (.inl rfl) (.inl rfl) (.inl rfl) (.inl rfl) (.inl rfl) (.inl rfl) (.inl rfl) (.inr rfl) (.inr rfl) (.inr rfl)))

theorem onSys_only (a0 a1) : Only [.sys] a1 (onSys a0 a1) := by
  unfold onSys
  exact (Only.set_sys (Only.refl _ _) rfl)

theorem startOrderly_only (a0 a1) : Only [.sys, .log] a1 (startOrderly a0 a1) := by
  unfold startOrderly
  exact (Only.step (Only.step (Only.refl _ _) (onLog_only ..) rfl) (onSys_only ..) rfl)

theorem configClear_only (a0) : Only [.sys, .isl, .time, .regions, .cells, .hubc, .res, .dig, .xs, .ens, .casc, .age, .fab, .sb, .bc, .jobs, .mgt, .cmd, .prot, .regs, .mem, .dma, .trc, .nid, .log, .boot, .img] a0 (configClear a0) := by
  unfold configClear
  exact (Only.named (fun q1 =>
    (Only.upd q1 (.inr rfl) (.inl rfl) (.inl rfl) (.inl rfl) (.inr rfl) (.inr rfl) (.inr rfl) (.inl rfl) (.inl rfl) (.inl rfl) (.inl rfl) (.inl rfl) (.inr rfl) (.inl rfl) (.inl rfl) (.inl rfl) (.inr rfl) (.inl rfl) (.inl rfl) (.inl rfl) (.inl rfl) (.inl rfl) (.inl rfl) (.inl rfl) (.inl rfl) (.inl rfl) (.inr rfl) (.inr rfl) (.inr rfl) (.inr rfl) (.inr rfl)))
    (Only.upd (Only.refl _ _) (.inr rfl) (.inl rfl) (.inl rfl) (.inl rfl) (.inl rfl) (.inl rfl) (.inl rfl) (.inl rfl) (.inl rfl) (.inl rfl) (.inl rfl) (.inl rfl) (.inl rfl) (.inl rfl) (.inl rfl) (.inl rfl) (.inl rfl) (.inl rfl) (.inl rfl) (.inl rfl) (.inl rfl) (.inl rfl) (.inl rfl) (.inl rfl) (.inl rfl) (.inl rfl) (.inl rfl) (.inl rfl) (.inr rfl) (.inr rfl) (.inr rfl)))

theorem enterDrowse_only (a0) : Only [.sys, .casc, .regs, .log] a0 (enterDrowse a0) := by
  unfold enterDrowse
  exact (Only.step (Only.step (Only.refl _ _) (toState_only ..) rfl) (setPeriod_only ..) rfl)

theorem startTimers_only (a0) : Only [.time, .regions, .casc, .age, .fab, .sb] a0 (startTimers a0) := by
  unfold startTimers
  exact (Only.upd (Only.refl _ _) (.inr rfl) (.inr rfl) (.inr rfl) (.inl rfl) (.inl rfl) (.inr rfl) (.inr rfl) (.inr rfl) (.inr rfl) (.inr rfl) (.inr rfl) (.inl rfl) (.inl rfl) (.inl rfl) (.inl rfl) (.inr rfl) (.inr rfl) (.inr rfl) (.inr rfl) (.inr rfl) (.inr rfl) (.inr rfl) (.inr rfl) (.inr rfl) (.inr rfl) (.inr rfl) (.inr rfl) (.inr rfl) (.inr rfl) (.inr rfl) (.inr rfl))

theorem onIsl_only (a0 a1) : Only [.isl] a1 (onIsl a0 a1) := by
  unfold onIsl
  exact (Only.set_isl (Only.refl _ _) rfl)

theorem configRecords_only (a0 a1) : Only [.sys, .isl, .regs, .log] a1 (configRecords a0 a1) := by
  unfold configRecords
  exact (Only.named (fun q1 =>
    (Only.named (fun q2 =>
    (Only.named (fun q3 =>
    (Only.named (fun q4 =>
    (Only.named (fun q5 =>
    (Only.step (Only.step q5 (onIsl_only ..) rfl) (onSys_only ..) rfl))
    (Only.foldl (fun _ _ => (Only.step (Only.refl _ _) (emit_only ..) rfl)) _ q4)))
    (Only.ite (Only.step q3 (emit_only ..) rfl) q3)))
    (Only.ite (Only.step q2 (emit_only ..) rfl) q2)))
    (Only.step q1 (emitState_only ..) rfl)))
    (Only.ite (Only.step (Only.refl _ _) (emit_only ..) rfl) (Only.refl _ _)))

theorem holdRemoved_only (a0) : Only [.cells] a0 (holdRemoved a0) := by
  unfold holdRemoved
  exact (Only.foldl (fun _ _ => (Only.step (Only.refl _ _) (onCell_only ..) rfl)) _ (Only.refl _ _))

theorem enterConfig_only (a0 a1 a2) : Only [.sys, .isl, .time, .regions, .cells, .xs, .casc, .age, .fab, .sb, .regs, .dma, .trc, .nid, .log, .boot, .img, .ram] a2 (enterConfig a0 a1 a2) := by
  unfold enterConfig
  exact (Only.named (fun q1 =>
    (Only.named (fun q2 =>
    (Only.named (fun q3 =>
    (Only.step (Only.step q3 (setQuality_only ..) rfl) (retarget_only ..) rfl))
    (Only.step (Only.step q2 (holdRemoved_only ..) rfl) (configRecords_only ..) rfl)))
    (Only.step (Only.upd q1 (.inr rfl) (.inr rfl) (.inr rfl) (.inr rfl) (.inr rfl) (.inr rfl) (.inr rfl) (.inr rfl) (.inr rfl) (.inr rfl) (.inr rfl) (.inr rfl) (.inr rfl) (.inr rfl) (.inr rfl) (.inr rfl) (.inr rfl) (.inr rfl) (.inr rfl) (.inr rfl) (.inr rfl) (.inr rfl) (.inr rfl) (.inr rfl) (.inr rfl) (.inr rfl) (.inl rfl) (.inl rfl) (.inr rfl) (.inr rfl) (.inr rfl)) (startTimers_only ..) rfl)))
    (Only.step (Only.step (Only.refl _ _) (onSys_only ..) rfl) (irq_only ..) rfl))

theorem commandConfig_only (a0 a1) : Only [.sys, .isl, .time, .regions, .cells, .hubc, .res, .dig, .xs, .ens, .casc, .age, .fab, .sb, .bc, .jobs, .mgt, .cmd, .prot, .regs, .mem, .dma, .trc, .nid, .log, .boot, .img, .ram, .nvm] a1 (commandConfig a0 a1) := by
  unfold commandConfig
  exact (Only.named (fun q1 =>
    (Only.named (fun q2 =>
    (Only.named (fun q3 =>
    (Only.step (Only.step q3 (configClear_only ..) rfl) (enterConfig_only ..) rfl))
    (Only.ite (Only.step q2 (mirrorAll_only ..) rfl) q2)))
    (Only.step q1 (acceptAll_only ..) rfl)))
    (Only.foldl (fun _ _ => (Only.step (Only.refl _ _) (emit_only ..) rfl)) _ (Only.refl _ _)))

theorem blockClear_only (a0) : Only [.sys, .isl, .time, .regions, .cells, .hubc, .res, .dig, .xs, .ens, .casc, .age, .fab, .sb, .bc, .jobs, .mgt, .cmd, .prot, .regs, .mem, .dma, .trc, .nid, .log, .boot, .img] a0 (blockClear a0) := by
  unfold blockClear
  exact (Only.named (fun q1 =>
    (Only.upd q1 (.inr rfl) (.inr rfl) (.inl rfl) (.inl rfl) (.inr rfl) (.inr rfl) (.inr rfl) (.inr rfl) (.inr rfl) (.inr rfl) (.inr rfl) (.inr rfl) (.inr rfl) (.inr rfl) (.inr rfl) (.inr rfl) (.inr rfl) (.inr rfl) (.inr rfl) (.inr rfl) (.inr rfl) (.inr rfl) (.inr rfl) (.inl rfl) (.inr rfl) (.inr rfl) (.inr rfl) (.inr rfl) (.inr rfl) (.inr rfl) (.inr rfl)))
    (Only.step (Only.refl _ _) (coldReset_only ..) rfl))

theorem blockReset_only (a0) : Only [.sys, .isl, .time, .regions, .cells, .hubc, .res, .dig, .xs, .ens, .casc, .age, .fab, .sb, .bc, .jobs, .mgt, .cmd, .prot, .regs, .mem, .dma, .trc, .nid, .log, .boot, .img] a0 (blockReset a0) := by
  unfold blockReset
  exact (Only.named (fun q1 =>
    (Only.upd q1 (.inr rfl) (.inl rfl) (.inr rfl) (.inr rfl) (.inr rfl) (.inr rfl) (.inr rfl) (.inr rfl) (.inr rfl) (.inr rfl) (.inr rfl) (.inr rfl) (.inr rfl) (.inr rfl) (.inr rfl) (.inr rfl) (.inr rfl) (.inr rfl) (.inr rfl) (.inr rfl) (.inr rfl) (.inr rfl) (.inr rfl) (.inr rfl) (.inr rfl) (.inl rfl) (.inr rfl) (.inr rfl) (.inr rfl) (.inr rfl) (.inr rfl)))
    (Only.step (Only.refl _ _) (blockClear_only ..) rfl))

theorem startTransition_only (a0 a1 a2) : Only [.sys, .isl, .time, .regions, .cells, .hubc, .res, .dig, .xs, .ens, .casc, .age, .fab, .sb, .bc, .jobs, .mgt, .cmd, .prot, .regs, .mem, .dma, .trc, .nid, .log, .boot, .img, .ram, .nvm] a2 (startTransition a0 a1 a2) := by
  unfold startTransition
  exact (by
    split
    · exact (Only.step (Only.refl _ _) (exitDrowse_only ..) rfl)
    · exact (Only.step (Only.refl _ _) (enterDrowse_only ..) rfl)
    · exact (Only.step (Only.refl _ _) (startOrderly_only ..) rfl)
    · exact (Only.step (Only.refl _ _) (commandConfig_only ..) rfl)
    · exact (Only.ite (Only.step (Only.refl _ _) (blockReset_only ..) rfl) (Only.step (Only.refl _ _) (startOrderly_only ..) rfl)))

theorem restoreRemoved_only (a0 a1) : Only [.casc] a1 (restoreRemoved a0 a1) := by
  unfold restoreRemoved
  exact (Only.foldl (fun _ _ => (Only.step (Only.refl _ _) (onEnt_only ..) rfl)) _ (Only.refl _ _))

theorem wakeClear_only (a0) : Only [.sys, .isl, .time, .regions, .cells, .hubc, .res, .dig, .xs, .ens, .casc, .age, .fab, .sb, .bc, .jobs, .mgt, .cmd, .prot, .regs, .mem, .dma, .trc, .nid, .log, .boot, .img] a0 (wakeClear a0) := by
  unfold wakeClear
  exact (Only.named (fun q1 =>
    (Only.upd q1 (.inr rfl) (.inl rfl) (.inl rfl) (.inl rfl) (.inr rfl) (.inr rfl) (.inr rfl) (.inl rfl) (.inr rfl) (.inr rfl) (.inl rfl) (.inr rfl) (.inr rfl) (.inr rfl) (.inr rfl) (.inr rfl) (.inr rfl) (.inr rfl) (.inl rfl) (.inl rfl) (.inr rfl) (.inr rfl) (.inr rfl) (.inr rfl) (.inr rfl) (.inl rfl) (.inr rfl) (.inr rfl) (.inr rfl) (.inr rfl) (.inr rfl)))
    (Only.upd (Only.refl _ _) (.inr rfl) (.inl rfl) (.inl rfl) (.inl rfl) (.inl rfl) (.inl rfl) (.inl rfl) (.inl rfl) (.inl rfl) (.inl rfl) (.inl rfl) (.inl rfl) (.inl rfl) (.inl rfl) (.inl rfl) (.inl rfl) (.inl rfl) (.inl rfl) (.inl rfl) (.inl rfl) (.inl rfl) (.inl rfl) (.inl rfl) (.inl rfl) (.inl rfl) (.inl rfl) (.inl rfl) (.inl rfl) (.inr rfl) (.inr rfl) (.inr rfl)))

theorem protPut_only (a0 a1 a2 a3) : Only [.prot, .regs, .log] a3 (protPut a0 a1 a2 a3) := by
  unfold protPut
  exact (Only.named (fun q1 =>
    (Only.ite (Only.step (Only.set_prot q1 rfl) (refusedWrite_only ..) rfl) q1))
    (Only.set_prot (Only.refl _ _) rfl))

theorem lockProt_only (a0 a1) : Only [.cmd, .prot] a1 (lockProt a0 a1) := by
  unfold lockProt
  exact (Only.upd (Only.refl _ _) (.inr rfl) (.inr rfl) (.inr rfl) (.inr rfl) (.inr rfl) (.inr rfl) (.inr rfl) (.inr rfl) (.inr rfl) (.inr rfl) (.inr rfl) (.inr rfl) (.inr rfl) (.inr rfl) (.inr rfl) (.inr rfl) (.inr rfl) (.inr rfl) (.inl rfl) (.inl rfl) (.inr rfl) (.inr rfl) (.inr rfl) (.inr rfl) (.inr rfl) (.inr rfl) (.inr rfl) (.inr rfl) (.inr rfl) (.inr rfl) (.inr rfl))

theorem takeRanges_only (l : List Range) (h : Hub) : Only [.free, .mem] h (takeRanges l h) := by
  induction l generalizing h with
  | nil => exact Only.refl _ _
  | cons r t ih =>
    unfold takeRanges
    exact Only.ite (Only.step (Only.step (Only.step (Only.refl _ _) (onMem_only ..) rfl) (drawn_only ..) rfl) (ih _) rfl)
      (Only.step (Only.step (Only.refl _ _) (onMem_only ..) rfl) (ih _) rfl)

theorem autoLock_only (a0 a1) : Only [.cmd, .prot] a1 (autoLock a0 a1) := by
  unfold autoLock
  exact (Only.ite (Only.step (Only.refl _ _) (lockProt_only ..) rfl) (Only.refl _ _))

end Sys2Proof.Machine
end

