-- ==== Sys2Proof/Laws/FrameCmds.lean ====
section
/-!
SUPPORT. What the parts of the commands' meanings may change: one lemma a part.
-/
namespace Sys2Proof.Machine

theorem fillCrossing_only (n r : Nat) (h : Hub) : Only [.regions, .cells] h (fillCrossing n r h) := by
  induction n generalizing h with
  | zero => exact Only.refl _ _
  | succ n ih =>
    unfold fillCrossing
    refine Only.ite (Only.refl _ _) ?_
    split
    · exact Only.refl _ _
    · split
      · exact Only.refl _ _
      · exact Only.step (Only.step (Only.step (Only.refl _ _) (onCell_only ..) rfl) (onRegion_only ..) rfl) (ih _) rfl

theorem laneCycle_only (a0 a1 a2) : Only [.cells] a2 (laneCycle a0 a1 a2) := by
  unfold laneCycle
  exact (Only.step (Only.refl _ _) (onCell_only ..) rfl)

theorem setSels_only (a0 a1 a2) : Only [.hubc] a2 (setSels a0 a1 a2) := by
  unfold setSels
  exact (Only.step (Only.refl _ _) (onHubc_only ..) rfl)

theorem holdCycle_only (a0 a1 a2 a3 a4) : Only [.cells, .casc, .regs, .log] a4 (holdCycle a0 a1 a2 a3 a4) := by
  unfold holdCycle
  exact (Only.ite (Only.refl _ _) (Only.named (fun q1 =>
    (Only.ite q1 (Only.named (fun q2 =>
    (Only.ite q2 (Only.named (fun q3 =>
    (Only.step (Only.step q3 (onCell_only ..) rfl) (setFloor_only ..) rfl))
    (Only.step q2 (emit_only ..) rfl))))
    (Only.step q1 (cellEvent_only ..) rfl))))
    (Only.step (Only.refl _ _) (onCell_only ..) rfl)))

theorem takeDigCfg_only (a0 a1) : Only [.dig] a0 (takeDigCfg a0 a1) := by
  unfold takeDigCfg
  exact (Only.ite (Only.step (Only.refl _ _) (onDig_only ..) rfl) (Only.step (Only.step (Only.refl _ _) (applyDigCfg_only ..) rfl) (onDig_only ..) rfl))

theorem dropHalves_only (a0 a1) : Only [.casc] a1 (dropHalves a0 a1) := by
  unfold dropHalves
  exact (Only.set_casc (Only.refl _ _) rfl)

theorem runComplete_only (e : Env) (p : Pass) (pend dest : Nat) (job : Option (BitVec 16)) (h : Hub) :
    Only [.sb, .mgt, .cmd, .regs, .dma, .log, .ram] h (runComplete e p pend dest job h) := by
  unfold runComplete
  refine Only.ite (Only.weaken (finish_only ..) rfl) ?_
  split
  · exact Only.ite (Only.step (Only.weaken (writeOut_only (by assumption)) rfl) (finish_only ..) rfl) (Only.weaken (finish_only ..) rfl)
  · exact Only.weaken (finish_only ..) rfl

theorem rhizOverrun_only (a0 a1 a2) : Only [.ens, .regs, .log] a2 (rhizOverrun a0 a1 a2) := by
  unfold rhizOverrun
  exact (Only.step (Only.refl _ _) (overrunAt_only ..) rfl)

theorem quickOverrun_only (a0 a1 a2) : Only [.ens, .regs, .log] a2 (quickOverrun a0 a1 a2) := by
  unfold quickOverrun
  exact (Only.step (Only.refl _ _) (overrunAt_only ..) rfl)

theorem startRequest_only (a0 a1 a2 a3) : Only [.xs, .fab] a3 (startRequest a0 a1 a2 a3) := by
  unfold startRequest
  split
  · exact Only.refl _ _
  · dsimp -proj only
    split
    · exact Only.step (Only.step (Only.refl _ _) (putRound_only ..) rfl) (onXs_only ..) rfl
    · exact Only.step (Only.step (Only.refl _ _) (putRound_only ..) rfl) (dieContribute_only ..) rfl

theorem submitRequest_only (a0 a1 a2 a3) : Only [.xs, .fab] a3 (submitRequest a0 a1 a2 a3) := by
  unfold submitRequest
  exact (Only.ite (Only.step (Only.refl _ _) (startRequest_only ..) rfl) (Only.step (Only.refl _ _) (onXs_only ..) rfl))

theorem beginNorm_only (a0 a1 a2 a3) : Only [.xs, .fab] a3 (beginNorm a0 a1 a2 a3) := by
  unfold beginNorm
  exact (Only.step (Only.step (Only.refl _ _) (putRound_only ..) rfl) (submitRequest_only ..) rfl)

theorem beginReduce_only (a0 a1 a2 a3 a4) : Only [.xs, .fab, .regs, .dma, .log] a4 (beginReduce a0 a1 a2 a3 a4) := by
  unfold beginReduce
  exact (Only.step (Only.step (Only.ite (Only.refl _ _) (Only.step (Only.refl _ _) (pulseLine_only ..) rfl)) (putRound_only ..) rfl) (submitRequest_only ..) rfl)

theorem sendDue_only (a0 a1 a2 a3 a4 a5) : Only [.xs, .fab, .regs, .log] a5 (sendDue a0 a1 a2 a3 a4 a5) := by
  unfold sendDue
  exact (Only.named (fun q1 =>
    (Only.named (fun q2 =>
    (by
    try dsimp -proj only
    split
    · exact (Only.step q2 (rootForm_only ..) rfl)
    · exact q2))
    (by
    split
    · exact (Only.step q1 (combSend_only ..) rfl)
    · exact q1)))
    (by
    split
    · exact (Only.step (Only.refl _ _) (traySend_only ..) rfl)
    · exact (Only.refl _ _)))

theorem giveUp_only (a0 a1 a2 a3 a4) : Only [.isl, .regions, .cells, .hubc, .xs, .casc, .sb, .jobs, .mgt, .cmd, .regs, .trc, .log, .reports] a4 (giveUp a0 a1 a2 a3 a4) := by
  unfold giveUp
  exact (Only.named (fun q1 =>
    (Only.named (fun q2 =>
    (by
    try dsimp -proj only
    split
    · exact (Only.step q2 (finish_only ..) rfl)
    · exact q2))
    (by
    split
    · exact (Only.step q1 (onXs_only ..) rfl)
    · exact (Only.step q1 (shadowHalf_only ..) rfl)
    · exact q1)))
    (Only.step (Only.step (Only.refl _ _) (dropRound_only ..) rfl) (onXs_only ..) rfl))

theorem drainQueue_only (e : Env) (n : Nat) (h : Hub) : Only [.xs, .fab] h (drainQueue e n h) := by
  induction n generalizing h with
  | zero => exact Only.refl _ _
  | succ n ih =>
    unfold drainQueue
    split
    · exact Only.refl _ _
    · exact Only.ite (Only.step (Only.step (Only.step (Only.refl _ _) (onXs_only ..) rfl) (startRequest_only ..) rfl) (ih _) rfl)
        (Only.refl _ _)

theorem markShadow_only (a0 a1 a2) : Only [.jobs] a2 (markShadow a0 a1 a2) := by
  unfold markShadow
  exact (Only.set_jobs (Only.refl _ _) rfl)

theorem cancelTest_only (a0 a1 a2) : Only [.casc, .regs, .log] a2 (cancelTest a0 a1 a2) := by
  unfold cancelTest
  exact (by
    try dsimp -proj only
    split
    · exact (Only.refl _ _)
    · exact (Only.named (fun q1 =>
    (Only.step q1 (onEnt_only ..) rfl))
    (by
    split
    · exact (Only.step (Only.refl _ _) (actDone_only ..) rfl)
    · exact (Only.refl _ _))))

theorem quickAct_only (e : Env) (c : Nat) (h : Hub) : Only [.regions, .cells, .hubc, .casc, .regs, .trc, .log, .reports] h (quickAct e c h) := by
  unfold quickAct
  exact Only.ite (autoAct_only (Only.step (Only.refl _ _) (onHubc_only ..) rfl) (fun _ => Only.refl _ _) rfl) (Only.refl _ _)

theorem cmdRemove_only (a0 a1 a2 a3) : Only [.isl, .regions, .cells, .hubc, .casc, .sb, .jobs, .regs, .trc, .log, .reports] a3 (cmdRemove a0 a1 a2 a3) := by
  unfold cmdRemove
  exact (Only.named (fun q1 =>
    (Only.step q1 (removeNow_only ..) rfl))
    (Only.step (Only.step (Only.refl _ _) (noteCmd_only ..) rfl) (endPending_only ..) rfl))

theorem openEpoch_only (a0 a1 a2 a3) : Only [.isl, .regions, .cells, .hubc, .dig, .xs, .casc, .fab, .sb, .jobs, .cmd, .regs, .trc, .log, .reports] a3 (openEpoch a0 a1 a2 a3) := by
  unfold openEpoch
  exact (Only.named (fun q1 =>
    (Only.named (fun q2 =>
    (Only.named (fun q3 =>
    (Only.step (Only.step q3 (retired_only ..) rfl) (stepBoundary_only ..) rfl))
    (Only.step q2 (onDig_only ..) rfl)))
    (Only.step (Only.step q1 (clearCtx_only ..) rfl) (onXs_only ..) rfl)))
    (Only.step (Only.refl _ _) (takeNext_only ..) rfl))

theorem endFloors_only (a0 a1) : Only [.casc, .regs, .log] a1 (endFloors a0 a1) := by
  unfold endFloors
  exact (Only.named (fun q1 =>
    (Only.step q1 (onEnt_only ..) rfl))
    (Only.foldl (fun _ _ => (Only.step (Only.refl _ _) (emitUnit_only ..) rfl)) _ (Only.refl _ _)))

theorem onAge_only (a0 a1) : Only [.age] a1 (onAge a0 a1) := by
  unfold onAge
  exact (Only.set_age (Only.refl _ _) rfl)

theorem sendPlan_only (a0 a1 a2) : Only [.age, .cmd, .regs, .log] a2 (sendPlan a0 a1 a2) := by
  unfold sendPlan
  exact (Only.named (fun q1 =>
    (Only.named (fun q2 =>
    (Only.step q2 (sendNotice_only ..) rfl))
    (Only.step q1 (onAge_only ..) rfl)))
    (Only.step (Only.refl _ _) (onZone_only ..) rfl))

theorem persistAge_only (a0 a1) : Only [.age, .nvm] a1 (persistAge a0 a1) := by
  unfold persistAge
  exact (Only.step (Only.step (Only.step (Only.refl _ _) (nvErase_only ..) rfl) (nvPost_only ..) rfl) (onAge_only ..) rfl)

theorem sampledConds_only (a0 a1 a2) : Only [.regions] a2 (sampledConds a0 a1 a2) := by
  unfold sampledConds
  exact (Only.step (Only.refl _ _) (onRegion_only ..) rfl)

theorem formPlan_only (a0 a1 a2 a3 a4 a5 a6) : Only [.age, .cmd, .regs, .log, .reports] a6 (formPlan a0 a1 a2 a3 a4 a5 a6) := by
  unfold formPlan
  exact (Only.named (fun q1 =>
    (Only.named (fun q2 =>
    (Only.named (fun q3 =>
    (Only.ite (Only.step q3 (sendPlan_only ..) rfl) q3))
    (Only.step q2 (report_only ..) rfl)))
    (Only.step q1 (emit_only ..) rfl)))
    (Only.step (Only.refl _ _) (onAge_only ..) rfl))

theorem ageWindow_only (a0 a1) : Only [.ens, .age, .regs, .mem, .log] a1 (ageWindow a0 a1) := by
  unfold ageWindow
  exact (Only.foldl (fun _ _ => (Only.named (fun q1 =>
    (Only.named (fun q2 =>
    (Only.step q2 (onZone_only ..) rfl))
    (Only.ite (Only.step q1 (onZone_only ..) rfl) (Only.ite q1 (Only.step q1 (featWrites_only ..) rfl)))))
    (Only.step (Only.refl _ _) (onZone_only ..) rfl))) _ (Only.refl _ _))

theorem restorePlans_only (a0 a1) : Only [.age, .cmd, .regs, .log, .reports] a1 (restorePlans a0 a1) := by
  unfold restorePlans
  exact (Only.foldl (fun _ _ => (Only.ite (Only.refl _ _) (Only.step (Only.refl _ _) (formPlan_only ..) rfl))) _ (Only.refl _ _))

theorem askCondition_only (a0 a1 a2 a3) : Only [.regions, .cells, .casc, .age, .regs, .trc, .log, .reports] a3 (askCondition a0 a1 a2 a3) := by
  unfold askCondition
  exact (Only.ite (Only.refl _ _) (Only.step (Only.step (Only.refl _ _) (onAge_only ..) rfl) (dueTest_only ..) rfl))

theorem concCell_only (a0 a1 a2 a3) : Only [.regions, .cells, .casc, .age, .regs, .trc, .log, .reports] a3 (concCell a0 a1 a2 a3) := by
  unfold concCell
  exact (Only.named (fun q1 =>
    (Only.ite (Only.foldl (fun _ _ => (Only.step (Only.refl _ _) (askCondition_only ..) rfl)) _ q1) (Only.step q1 (report_only ..) rfl)))
    (Only.step (Only.refl _ _) (emit_only ..) rfl))

theorem monitorFailed_only (a0 a1 a2 a3 a4 a5) : Only [.ens, .casc, .regs, .mem, .log] a5 (monitorFailed a0 a1 a2 a3 a4 a5) := by
  unfold monitorFailed
  exact (Only.step (Only.refl _ _) (unitFault_only ..) rfl)

theorem endProbe_only (a0 a1 a2) : Only [.regions, .cells, .hubc, .ens, .casc, .age, .regs, .mem, .log] a2 (endProbe a0 a1 a2) := by
  unfold endProbe
  exact (Only.named (fun q1 =>
    (Only.named (fun q2 =>
    (Only.named (fun q3 =>
    (Only.ite (Only.step (Only.step q3 (setFloor_only ..) rfl) (onZone_only ..) rfl) q3))
    (Only.step q2 (featWrite_only ..) rfl)))
    (Only.step q1 (emit_only ..) rfl)))
    (Only.step (Only.step (Only.refl _ _) (onAge_only ..) rfl) (refreshHold_only ..) rfl))

theorem setTrace_only (a0 a1 a2) : Only [.regions, .cells, .xs, .fab, .regs, .dma, .trc, .nid, .log, .ram] a2 (setTrace a0 a1 a2) := by
  unfold setTrace
  exact (Only.named (fun q1 =>
    (Only.ite (Only.named (fun q2 =>
    (Only.named (fun q3 =>
    (Only.step q3 (startCapture_only ..) rfl))
    (Only.step (Only.step q2 (onTrc_only ..) rfl) (applyTrcNext_only ..) rfl)))
    (Only.step q1 (endCapture_only ..) rfl)) (Only.named (fun q2 =>
    (Only.ite (Only.step q2 (applyTrcNext_only ..) rfl) q2))
    (Only.step q1 (onTrc_only ..) rfl))))
    (Only.step (Only.refl _ _) (onTrc_only ..) rfl))

theorem releaseBuf_only (a0 a1 a2) : Only [.regions, .cells, .xs, .fab, .regs, .dma, .trc, .nid, .log, .ram] a2 (releaseBuf a0 a1 a2) := by
  unfold releaseBuf
  exact (Only.named (fun q1 =>
    (Only.named (fun q2 =>
    (Only.step q2 (startCapture_only ..) rfl))
    (Only.step q1 (onTrc_only ..) rfl)))
    (Only.step (Only.refl _ _) (endCapture_only ..) rfl))

theorem setPort_only (a0 a1 a2 a3) : Only [.sb, .regs, .log] a3 (setPort a0 a1 a2 a3) := by
  unfold setPort
  exact (Only.ite (Only.refl _ _) (Only.named (fun q1 =>
    (Only.ite (Only.set_sb q1 rfl) q1))
    (Only.step (Only.step (Only.refl _ _) (onPort_only ..) rfl) (emitState_only ..) rfl)))

theorem portDown_only (a0 a1 a2) : Only [.sb, .regs, .log] a2 (portDown a0 a1 a2) := by
  unfold portDown
  exact (Only.ite (Only.refl _ _) (Only.named (fun q1 =>
    (Only.step (Only.step q1 (onPort_only ..) rfl) (setPort_only ..) rfl))
    (Only.set_sb (Only.refl _ _) rfl)))

theorem sendHeartbeat_only (a0 a1) : Only [.sb] a1 (sendHeartbeat a0 a1) := by
  unfold sendHeartbeat
  exact (Only.step (Only.set_sb (Only.refl _ _) rfl) (sbUp_only ..) rfl)

theorem noteHeartbeat_only (a0 a1 a2) : Only [.ens, .sb, .regs, .mem, .log] a2 (noteHeartbeat a0 a1 a2) := by
  unfold noteHeartbeat
  exact (Only.ite (Only.refl _ _) (Only.named (fun q1 =>
    (Only.named (fun q2 =>
    (Only.step q2 (onMember_only ..) rfl))
    (Only.ite (Only.step q1 (featWrite_only ..) rfl) q1)))
    (Only.ite (Only.refl _ _) (Only.set_sb (Only.refl _ _) rfl))))

theorem unqueue_only (a0 a1) : Only [.xs, .fab] a1 (unqueue a0 a1) := by
  unfold unqueue
  exact (Only.step (Only.set_fab (Only.refl _ _) rfl) (noteFill_only ..) rfl)

theorem sendGreen_only (a0 a1 a2 a3) : Only [.xs, .fab] a3 (sendGreen a0 a1 a2 a3) := by
  unfold sendGreen
  exact (Only.step (Only.set_fab (Only.refl _ _) rfl) (unqueue_only ..) rfl)

theorem routeDie_only (a0 a1 a2 a3) : Only [.sb, .regs, .log, .reports] a2 (routeDie a0 a1 a2 a3) := by
  unfold routeDie
  exact (Only.ite (Only.refl _ _) (Only.named (fun q1 =>
    (Only.named (fun q2 =>
    (Only.named (fun q3 =>
    (Only.step q3 (sbDown_only ..) rfl))
    (Only.ite (Only.step q2 (report_only ..) rfl) q2)))
    (Only.step q1 (emitState_only ..) rfl)))
    (Only.step (Only.refl _ _) (onMember_only ..) rfl)))

theorem relayBack_only (a0 a1 a2 a3) : Only [.mgt, .cmd, .regs, .log] a3 (relayBack a0 a1 a2 a3) := by
  unfold relayBack
  exact (by
    split
    · exact (Only.step (Only.refl _ _) (mgtReply_only ..) rfl)
    · exact (Only.step (Only.refl _ _) (chanPut_only ..) rfl)
    · exact (Only.refl _ _))

theorem plcaStart_only (a0 a1) : Only [.mgt] a1 (plcaStart a0 a1) := by
  unfold plcaStart
  exact (Only.step (Only.refl _ _) (onSeg_only ..) rfl)

theorem onMgt_only (a0 a1) : Only [.mgt] a1 (onMgt a0 a1) := by
  unfold onMgt
  exact (Only.set_mgt (Only.refl _ _) rfl)

theorem writeMeter_only (a0 a1 a2 a3) : Only [.mgt, .regs, .log] a3 (writeMeter a0 a1 a2 a3) := by
  unfold writeMeter
  exact (Only.ite (Only.step (Only.refl _ _) (refusedWrite_only ..) rfl) (Only.step (Only.refl _ _) (onMgt_only ..) rfl))

theorem offerFrame_only (a0 a1 a2 a3 a4) : Only [.mgt] a4 (offerFrame a0 a1 a2 a3 a4) := by
  unfold offerFrame
  exact (Only.named (fun q1 =>
    (Only.step q1 (onSeg_only ..) rfl))
    (Only.step (Only.refl _ _) (onMgt_only ..) rfl))

theorem moveFrames_only (a0 a1 a2) : Only [.mgt] a2 (moveFrames a0 a1 a2) := by
  unfold moveFrames
  exact (Only.named (fun q1 =>
    (Only.step q1 (onSeg_only ..) rfl))
    (Only.step (Only.refl _ _) (onSeg_only ..) rfl))

theorem takeIngress_only (a0 a1 a2) : Only [.mgt] a2 (takeIngress a0 a1 a2) := by
  unfold takeIngress
  exact (by
    split
    · exact (Only.step (Only.refl _ _) (onMgt_only ..) rfl)
    · exact (Only.refl _ _))

theorem switchTo_only (a0 a1 a2) : Only [.mgt, .regs, .log, .reports] a2 (switchTo a0 a1 a2) := by
  unfold switchTo
  exact (Only.named (fun q1 =>
    (Only.ite (Only.step q1 (report_only ..) rfl) q1))
    (Only.step (Only.step (Only.step (Only.refl _ _) (moveFrames_only ..) rfl) (onMgt_only ..) rfl) (emitState_only ..) rfl))

theorem checkActive_only (a0) : Only [.mgt, .regs, .log, .reports] a0 (checkActive a0) := by
  unfold checkActive
  exact (Only.ite (Only.step (Only.refl _ _) (switchTo_only ..) rfl) (Only.refl _ _))

theorem setSeg_only (a0 a1 a2) : Only [.mgt, .regs, .log, .reports] a2 (setSeg a0 a1 a2) := by
  unfold setSeg
  exact (Only.ite (Only.refl _ _) (Only.named (fun q1 =>
    (Only.named (fun q2 =>
    (Only.step q2 (checkActive_only ..) rfl))
    (Only.step q1 (emitState_only ..) rfl)))
    (Only.step (Only.refl _ _) (onSeg_only ..) rfl)))

theorem enableSeg_only (a0 a1) : Only [.mgt, .regs, .log, .reports] a1 (enableSeg a0 a1) := by
  unfold enableSeg
  exact (Only.step (Only.step (Only.refl _ _) (onSeg_only ..) rfl) (setSeg_only ..) rfl)

theorem writeSegcfg_only (b : Bool) (p : Part) (v : DWord) (h : Hub) :
    Only [.mgt, .regs, .log, .reports] h (writeSegcfg b p v h) := by
  unfold writeSegcfg
  cases p with
  | low => exact Only.ite (Only.step (Only.refl _ _) (refusedWrite_only ..) rfl) (Only.named (fun q1 => Only.named (fun q2 =>
      q2)
      (Only.ite q1 (Only.ite (Only.step q1 (onSeg_only ..) rfl) (Only.step q1 (plcaStart_only ..) rfl))))
      (Only.step (Only.refl _ _) (onSeg_only ..) rfl))
  | whole => exact Only.ite (Only.step (Only.refl _ _) (refusedWrite_only ..) rfl) (Only.named (fun q1 => Only.named (fun q2 =>
      Only.ite (Only.step q2 (setSeg_only ..) rfl) (Only.ite (Only.step q2 (enableSeg_only ..) rfl) q2))
      (Only.ite q1 (Only.ite (Only.step q1 (onSeg_only ..) rfl) (Only.step q1 (plcaStart_only ..) rfl))))
      (Only.step (Only.refl _ _) (onSeg_only ..) rfl))
  | high => exact Only.ite (Only.step (Only.refl _ _) (refusedWrite_only ..) rfl) (Only.named (fun q1 => Only.named (fun q2 =>
      Only.ite (Only.step q2 (setSeg_only ..) rfl) (Only.ite (Only.step q2 (enableSeg_only ..) rfl) q2))
      (Only.ite q1 (Only.ite (Only.step q1 (onSeg_only ..) rfl) (Only.step q1 (plcaStart_only ..) rfl))))
      (Only.step (Only.refl _ _) (onSeg_only ..) rfl))

theorem selectMaster_only (a0) : Only [.mgt] a0 (selectMaster a0) := by
  unfold selectMaster
  exact (Only.named (fun q1 =>
    q1)
    (Only.step (Only.refl _ _) (onMgt_only ..) rfl))

theorem meterIn_only (a0 a1 a2 a3) : Only [.mgt] a3 (meterIn a0 a1 a2 a3) := by
  unfold meterIn
  exact (Only.named (fun q1 =>
    (Only.ite (Only.step q1 (onMgt_only ..) rfl) (Only.ite (Only.step q1 (onMgt_only ..) rfl) (Only.step q1 (onMgt_only ..) rfl))))
    (Only.step (Only.refl _ _) (onMgt_only ..) rfl))

theorem selectFrame_only (b : Bool) (l : List Nat) (h : Hub) : Only [.mgt] h (selectFrame b l h) := by
  induction l with
  | nil => exact Only.refl _ _
  | cons c t ih =>
    unfold selectFrame
    split
    · exact ih
    · split
      · exact ih
      · exact Only.weaken (offerFrame_only ..) rfl
      · exact Only.weaken (offerFrame_only ..) rfl
      · exact Only.step (Only.step (Only.refl _ _) (onSeg_only ..) rfl) (onMgt_only ..) rfl

theorem reselect_only (a0) : Only [.time, .mgt, .regs, .log] a0 (reselect a0) := by
  unfold reselect
  exact (Only.named (fun q1 =>
    (Only.ite q1 (Only.named (fun q2 =>
    (Only.ite q2 (Only.set_time q2 rfl)))
    (Only.step (Only.step q1 (onMgt_only ..) rfl) (emitState_only ..) rfl))))
    (Only.step (Only.refl _ _) (selectMaster_only ..) rfl))

theorem commitGates_only (a0) : Only [.mgt, .regs, .log] a0 (commitGates a0) := by
  unfold commitGates
  exact (Only.ite (Only.step (Only.refl _ _) (refusedWrite_only ..) rfl) (Only.step (Only.refl _ _) (onMgt_only ..) rfl))

theorem mgtWrite_only {ps : List Piece} {off : Nat} {v : DWord} {f : Env → Hub → Hub} {e : Env} {h k : Hub}
    (a : Only ps h k) (hf : ∀ e x, Only ps x (f e x)) (w : within? [.prot, .regs, .log] ps = true) :
    Only ps h (mgtWrite off v f e k) := by
  have r : within? [.regs] ps = true := by
    simp only [within?, List.all_cons, Bool.and_eq_true] at w ⊢
    exact ⟨w.2.1, rfl⟩
  unfold mgtWrite
  exact Only.ite a (Only.named (fun hq => Only.ite (portField_only hq (hf e) (within_trans (by decide) w)) (Only.step hq (ignoredWrite_only ..) w)) (Only.set_regs a r))

theorem setPlca_only (a0 a1 a2) : Only [.mgt, .regs, .log] a2 (setPlca a0 a1 a2) := by
  unfold setPlca
  exact (Only.step (Only.step (Only.refl _ _) (onSeg_only ..) rfl) (emitState_only ..) rfl)

theorem writeShaper_only (a0 a1 a2 a3) : Only [.mgt, .regs, .log] a3 (writeShaper a0 a1 a2 a3) := by
  unfold writeShaper
  exact (Only.ite (Only.step (Only.refl _ _) (refusedWrite_only ..) rfl) (Only.named (fun q1 =>
    (Only.step (Only.step q1 (onSeg_only ..) rfl) (onSeg_only ..) rfl))
    (Only.step (Only.refl _ _) (onMgt_only ..) rfl)))

theorem takeBlock_only (a0) : Only [.res] a0 (takeBlock a0) := by
  unfold takeBlock
  exact (by
    split
    · exact (Only.refl _ _)
    · exact (Only.set_res (Only.refl _ _) rfl))

theorem takeBlocks_only (a0 a1) : Only [.free, .res] a1 (takeBlocks a0 a1) := by
  unfold takeBlocks
  exact (Only.foldl (fun _ _ => (Only.step (Only.refl _ _) (takeBlock_only ..) rfl)) _ (Only.step (Only.refl _ _) (drawn_only ..) rfl))

theorem needSelectors_only (a0) : Only [.free, .res] a0 (needSelectors a0) := by
  unfold needSelectors
  exact (Only.ite (Only.step (Only.set_res (Only.refl _ _) rfl) (takeBlocks_only ..) rfl) (Only.refl _ _))

theorem assignWord_only (a0 a1 a2) : Only [.free, .cells, .hubc, .res] a2 (assignWord a0 a1 a2) := by
  unfold assignWord
  exact (Only.named (fun q1 =>
    (by
    try dsimp -proj only
    split
    · exact (Only.named (fun q2 =>
    (by
    try dsimp -proj only
    split
    · exact q2
    · exact (Only.step (Only.step q2 (onLane_only ..) rfl) (onHubc_only ..) rfl)))
    (Only.step (Only.set_res q1 rfl) (takeBlocks_only ..) rfl))
    · exact q1))
    (Only.step (Only.step (Only.refl _ _) (takeBlocks_only ..) rfl) (needSelectors_only ..) rfl))

theorem sendRes_only (a0 a1 a2 a3) : Only [.regions, .cells, .hubc, .ens, .regs, .mem, .trc, .log] a3 (sendRes a0 a1 a2 a3) := by
  unfold sendRes
  exact (Only.step (Only.refl _ _) (sendCell_only ..) rfl)

theorem deliverDrops_only (a0 a1 a2) : Only [.regions, .cells, .hubc, .res, .ens, .casc, .age, .regs, .mem, .trc, .log] a2 (deliverDrops a0 a1 a2) := by
  unfold deliverDrops
  exact (Only.named (fun q1 =>
    (Only.foldl (fun _ _ => (Only.named (fun q1 =>
    (Only.named (fun q2 =>
    (Only.named (fun q3 =>
    (Only.ite q3 (Only.step (Only.step q3 (auditSkip_only ..) rfl) (dropClasses_only ..) rfl)))
    (Only.ite q2 (Only.foldl (fun _ _ => (Only.step (Only.refl _ _) (histCore_only ..) rfl)) _ q2))))
    (Only.step q1 (flagCore_only ..) rfl)))
    (Only.step (Only.refl _ _) (lossRecord_only ..) rfl))) _ q1))
    (Only.step (Only.refl _ _) (onRegion_only ..) rfl))

theorem lateEndRecord_only (a0 a1 a2 a3) : Only [.regs, .log] a3 (lateEndRecord a0 a1 a2 a3) := by
  unfold lateEndRecord
  exact (Only.step (Only.refl _ _) (emit_only ..) rfl)

theorem direct_only {ps : List Piece} {f : Env → Hub → Hub} {e : Env} {h k : Hub} (a : Only ps h k) (hf : ∀ e x, Only ps x (f e x)) :
    Only (.regs :: ps) h (direct f e k) := by
  have cons : within? ps (.regs :: ps) = true := by
    simp only [within?, List.all_eq_true, List.contains_eq_mem, List.mem_cons, decide_eq_true_eq]
    exact fun p hp => Or.inr hp
  unfold direct
  refine Only.ite (Only.weaken a cons) ?_
  refine Only.step (Only.set_regs (Only.weaken a cons) (by simp [within?])) (hf e _) cons

theorem dmaStop_only (a0 a1 a2) : Only [.regions, .cells, .hubc, .res, .ens, .casc, .age, .regs, .mem, .dma, .trc, .log, .ram] a2 (dmaStop a0 a1 a2) := by
  unfold dmaStop
  exact (Only.ite (Only.refl _ _) (Only.step (Only.step (Only.refl _ _) (onDmaCh_only ..) rfl) (dmaPump_only ..) rfl))

theorem dmaTail_only (a0 a1 a2 a3) : Only [.regions, .cells, .hubc, .res, .ens, .casc, .age, .regs, .mem, .dma, .trc, .log, .ram] a3 (dmaTail a0 a1 a2 a3) := by
  unfold dmaTail
  exact (Only.ite (Only.step (Only.refl _ _) (refusedWrite_only ..) rfl) (Only.step (Only.step (Only.refl _ _) (onDmaCh_only ..) rfl) (dmaPump_only ..) rfl))

theorem dropReq_only (a0 a1) : Only [.mem] a1 (dropReq a0 a1) := by
  unfold dropReq
  exact (Only.step (Only.refl _ _) (onMem_only ..) rfl)

theorem dmaEnable_only (a0 a1 a2 a3) : Only [.regions, .cells, .hubc, .res, .ens, .casc, .age, .regs, .mem, .dma, .trc, .log, .ram] a3 (dmaEnable a0 a1 a2 a3) := by
  unfold dmaEnable
  exact (Only.ite (Only.ite (Only.step (Only.refl _ _) (refusedWrite_only ..) rfl) (Only.step (Only.step (Only.refl _ _) (onDmaCh_only ..) rfl) (dmaPump_only ..) rfl)) (Only.ite (Only.step (Only.step (Only.refl _ _) (onDmaCh_only ..) rfl) (dmaStop_only ..) rfl) (Only.refl _ _)))

theorem failedClear_only (a0 a1) : Only [.mem] a1 (failedClear a0 a1) := by
  unfold failedClear
  exact (Only.step (Only.refl _ _) (onMem_only ..) rfl)

theorem dmaCqhead_only (a0 a1 a2 a3) : Only [.regions, .cells, .hubc, .res, .ens, .casc, .age, .regs, .mem, .dma, .trc, .log, .ram] a3 (dmaCqhead a0 a1 a2 a3) := by
  unfold dmaCqhead
  exact (Only.named (fun q1 =>
    (Only.named (fun q2 =>
    (Only.step q2 (dmaPump_only ..) rfl))
    (Only.step q1 (onDmaCh_only ..) rfl)))
    (Only.step (Only.refl _ _) (onDmaCh_only ..) rfl))

theorem dmaWrite_only {ps : List Piece} {ch : BitVec 6} {off : Nat} {v : DWord} {f : Env → Hub → Hub} {e : Env} {h k : Hub}
    (a : Only ps h k) (hf : ∀ e x, Only ps x (f e x)) (w : within? [.regs, .log] ps = true) :
    Only ps h (dmaWrite ch off v f e k) := by
  have r : within? [.regs] ps = true := by
    simp only [within?, List.all_cons, Bool.and_eq_true] at w ⊢
    exact ⟨w.1, rfl⟩
  unfold dmaWrite
  exact Only.ite a (Only.named (fun hq => Only.ite (Only.step hq (refusedWrite_only ..) w) (portField_only hq (hf e) w)) (Only.set_regs a r))

theorem directReg_only {ps : List Piece} {unit off : Nat} {v : DWord} {f : Env → Hub → Hub} {e : Env} {h k : Hub} (a : Only ps h k)
    (hf : ∀ e x, Only ps x (f e x)) (w : within? [.regs, .log] ps = true) : Only ps h (directReg unit off v f e k) := by
  have r : within? [.regs] ps = true := within_trans (by decide) w
  unfold directReg direct
  exact Only.ite a ((Only.set_regs a r).trans (portField_only (Only.refl _ _) (hf e) w))

theorem dmaResume_only (a0 a1 a2) : Only [.regions, .cells, .hubc, .res, .ens, .casc, .age, .regs, .mem, .dma, .trc, .log, .ram] a2 (dmaResume a0 a1 a2) := by
  unfold dmaResume
  exact (Only.ite (Only.step (Only.step (Only.refl _ _) (onDmaCh_only ..) rfl) (dmaPump_only ..) rfl) (Only.refl _ _))

theorem forgetBase_only (a0 a1 a2 a3) : Only [.casc] a3 (forgetBase a0 a1 a2 a3) := by
  unfold forgetBase
  exact (Only.step (Only.refl _ _) (onCasc_only ..) rfl)

theorem applyChange_only (a0 a1 a2) : Only [.ens, .casc, .jobs] a2 (applyChange a0 a1 a2) := by
  unfold applyChange
  exact (Only.named (fun q1 =>
    (Only.named (fun q2 =>
    (Only.ite (Only.step (Only.step (Only.step q2 (forgetBase_only ..) rfl) (onCasc_only ..) rfl) (onEns_only ..) rfl) q2))
    (Only.ite q1 (Only.step q1 (forgetBase_only ..) rfl))))
    (Only.set_jobs (Only.refl _ _) rfl))

theorem applyMembership_only (a0) : Only [.ens, .casc, .jobs] a0 (applyMembership a0) := by
  unfold applyMembership
  exact (Only.named (fun q1 =>
    (Only.foldl (fun _ _ => (Only.step (Only.refl _ _) (applyChange_only ..) rfl)) _ q1))
    (Only.set_jobs (Only.refl _ _) rfl))

theorem uploadOne_only (a0 a1) : Only [.xs, .fab, .log, .ram] a1 (uploadOne a0 a1) := by
  unfold uploadOne
  exact (by
    try dsimp -proj only
    split
    · exact (Only.refl _ _)
    · exact (Only.named (fun q1 =>
    (Only.ite (Only.step q1 (appendLog_only ..) rfl) (Only.step q1 (photenSend_only ..) rfl)))
    (Only.step (Only.refl _ _) (onLog_only ..) rfl)))

theorem readEvidence_only (a0 a1 a2) : Only [.casc, .reports] a2 (readEvidence a0 a1 a2) := by
  unfold readEvidence
  exact (Only.ite (Only.step (Only.refl _ _) (setFloor_only ..) rfl) (Only.ite (Only.step (Only.refl _ _) (setFloor_only ..) rfl) (Only.ite (Only.step (Only.refl _ _) (setFloor_only ..) rfl) (Only.ite (Only.named (fun q1 =>
    (Only.ite (Only.step q1 (splitRequest_only ..) rfl) q1))
    (by
    split
    · exact (Only.ite (Only.refl _ _) (Only.step (Only.refl _ _) (setFloor_only ..) rfl))
    · exact (Only.refl _ _))) (Only.refl _ _)))))

theorem enterPlaya_only (a0 a1 a2 a3) : Only [.sys, .time, .regions, .cells, .dig, .xs, .casc, .fab, .sb, .bc, .mgt, .regs, .mem, .dma, .trc, .nid, .log, .boot, .img, .reports, .ram] a3 (enterPlaya a0 a1 a2 a3) := by
  unfold enterPlaya
  exact (Only.named (fun q1 =>
    (Only.named (fun q2 =>
    (Only.named (fun q3 =>
    (Only.named (fun q4 =>
    (Only.named (fun q5 =>
    (Only.named (fun q6 =>
    (Only.step (Only.step q6 (retarget_only ..) rfl) (restoreRemoved_only ..) rfl))
    (Only.ite (Only.step (Only.step q5 (enableSeg_only ..) rfl) (enableSeg_only ..) rfl) q5)))
    (Only.ite (Only.step q4 (setQuality_only ..) rfl) q4)))
    (Only.step q3 (emitState_only ..) rfl)))
    (Only.step (Only.step q2 (onSys_only ..) rfl) (irq_only ..) rfl)))
    (Only.upd q1 (.inr rfl) (.inr rfl) (.inr rfl) (.inl rfl) (.inr rfl) (.inr rfl) (.inr rfl) (.inr rfl) (.inl rfl) (.inl rfl) (.inr rfl) (.inr rfl) (.inr rfl) (.inr rfl) (.inl rfl) (.inl rfl) (.inr rfl) (.inl rfl) (.inr rfl) (.inr rfl) (.inr rfl) (.inl rfl) (.inr rfl) (.inr rfl) (.inr rfl) (.inr rfl) (.inl rfl) (.inl rfl) (.inr rfl) (.inr rfl) (.inr rfl))))
    (Only.step (Only.refl _ _) (freeEpochs_only ..) rfl))

theorem fuseCheck_only (a0 a1) : Only [.sys, .isl, .time, .regions, .cells, .res, .dig, .xs, .casc, .age, .fab, .sb, .bc, .mgt, .regs, .mem, .dma, .trc, .nid, .log, .boot, .img, .reports, .ram] a1 (fuseCheck a0 a1) := by
  unfold fuseCheck
  exact (Only.ite (Only.refl _ _) (Only.named (fun q1 =>
    (Only.ite (Only.step q1 (enterConfig_only ..) rfl) (Only.named (fun q2 =>
    (Only.step (Only.step q2 (holdRemoved_only ..) rfl) (enterPlaya_only ..) rfl))
    (Only.step (Only.upd q1 (.inr rfl) (.inr rfl) (.inr rfl) (.inr rfl) (.inr rfl) (.inr rfl) (.inr rfl) (.inr rfl) (.inr rfl) (.inr rfl) (.inr rfl) (.inr rfl) (.inr rfl) (.inr rfl) (.inr rfl) (.inr rfl) (.inr rfl) (.inr rfl) (.inr rfl) (.inr rfl) (.inr rfl) (.inr rfl) (.inr rfl) (.inr rfl) (.inr rfl) (.inr rfl) (.inl rfl) (.inl rfl) (.inr rfl) (.inr rfl) (.inr rfl)) (startTimers_only ..) rfl))))
    (Only.step (Only.set_res (Only.refl _ _) rfl) (onSys_only ..) rfl)))

theorem takeSeg_only (a0 a1 a2) : Only [.mgt, .regs, .log, .reports] a2 (takeSeg a0 a1 a2) := by
  unfold takeSeg
  exact (Only.named (fun q1 =>
    (Only.ite (Only.step q1 (enableSeg_only ..) rfl) q1))
    (Only.step (Only.refl _ _) (onSeg_only ..) rfl))

theorem takeExtra_only (a0 a1 a2 a3) : Only [.time, .xs, .ens, .age, .sb, .bc, .mgt, .cmd, .regs, .mem, .log, .boot, .reports] a2 (takeExtra a0 a1 a2 a3).1 := by
  unfold takeExtra
  exact (Only.named (fun q1 =>
    (Only.named (fun q2 =>
    (Only.named (fun q3 =>
    (Only.fst q3))
    (Only.foldl (fun _ _ => (Only.step (Only.refl _ _) (onZone_only ..) rfl)) _ q2)))
    (Only.ite (Only.step (Only.step q1 (takeSeg_only ..) rfl) (takeSeg_only ..) rfl) q1)))
    (Only.upd (Only.refl _ _) (.inr rfl) (.inr rfl) (.inr rfl) (.inl rfl) (.inr rfl) (.inr rfl) (.inr rfl) (.inr rfl) (.inr rfl) (.inl rfl) (.inl rfl) (.inr rfl) (.inr rfl) (.inr rfl) (.inl rfl) (.inl rfl) (.inr rfl) (.inl rfl) (.inl rfl) (.inr rfl) (.inr rfl) (.inl rfl) (.inr rfl) (.inr rfl) (.inr rfl) (.inr rfl) (.inl rfl) (.inr rfl) (.inr rfl) (.inr rfl) (.inr rfl)))

theorem loadAge_only (a0 a1) : Only [.age, .regs, .log] a1 (loadAge a0 a1) := by
  unfold loadAge
  exact (Only.ite (Only.step (Only.step (Only.refl _ _) (onAge_only ..) rfl) (emit_only ..) rfl) (Only.step (Only.refl _ _) (onAge_only ..) rfl))

theorem onBoot_only (a0 a1) : Only [.boot] a1 (onBoot a0 a1) := by
  unfold onBoot
  exact (Only.set_boot (Only.refl _ _) rfl)

theorem reboot_only (a0 a1 a2) : Only [.sys, .isl, .time, .regions, .cells, .hubc, .res, .dig, .xs, .ens, .casc, .age, .fab, .sb, .bc, .jobs, .mgt, .cmd, .prot, .regs, .mem, .dma, .trc, .nid, .log, .boot, .img, .ram, .nvm] a2 (reboot a0 a1 a2) := by
  unfold reboot
  exact (Only.step (Only.ite (Only.refl _ _) (Only.step (Only.refl _ _) (commandConfig_only ..) rfl)) (onBoot_only ..) rfl)

theorem recordChecks_only (a0 a1) : Only [.regs, .log] a1 (recordChecks a0 a1) := by
  unfold recordChecks
  exact (Only.foldl (fun _ _ => (by
    split
    · exact (Only.step (Only.refl _ _) (emit_only ..) rfl)
    · exact (Only.refl _ _))) _ (Only.refl _ _))

theorem select_only (a0 a1 a2) : Only [.boot] a2 (select a0 a1 a2) := by
  unfold select
  exact (Only.step (Only.refl _ _) (onBoot_only ..) rfl)

theorem endChecks_only (a0 a1) : Only [.sys, .time, .regions, .cells, .dig, .xs, .casc, .fab, .sb, .bc, .mgt, .regs, .mem, .dma, .trc, .nid, .log, .boot, .img, .reports, .ram] a1 (endChecks a0 a1) := by
  unfold endChecks
  exact (Only.named (fun q1 =>
    (by
    try dsimp -proj only
    split
    · exact (Only.step q1 (onBoot_only ..) rfl)
    · exact (Only.step q1 (enterPlaya_only ..) rfl)
    · exact (Only.step q1 (select_only ..) rfl)))
    (Only.step (Only.step (Only.refl _ _) (recordChecks_only ..) rfl) (onBoot_only ..) rfl))

theorem startServing_only (a0 a1) : Only [.sys, .time, .regions, .cells, .xs, .casc, .age, .fab, .sb, .cmd, .regs, .dma, .trc, .nid, .log, .boot, .reports, .ram] a1 (startServing a0 a1) := by
  unfold startServing
  exact (Only.named (fun q1 =>
    (Only.named (fun q2 =>
    (Only.named (fun q3 =>
    (Only.named (fun q4 =>
    (Only.step (Only.step (Only.step q4 (retarget_only ..) rfl) (restorePlans_only ..) rfl) (selectCores_only ..) rfl))
    (Only.ite (Only.foldl (fun _ _ => (Only.step (Only.refl _ _) (onMember_only ..) rfl)) _ q3) q3)))
    (Only.upd q2 (.inr rfl) (.inr rfl) (.inr rfl) (.inl rfl) (.inr rfl) (.inr rfl) (.inr rfl) (.inr rfl) (.inr rfl) (.inr rfl) (.inr rfl) (.inl rfl) (.inr rfl) (.inr rfl) (.inr rfl) (.inr rfl) (.inr rfl) (.inr rfl) (.inr rfl) (.inr rfl) (.inr rfl) (.inr rfl) (.inr rfl) (.inr rfl) (.inr rfl) (.inr rfl) (.inl rfl) (.inr rfl) (.inr rfl) (.inr rfl) (.inr rfl))))
    (by
    split
    · exact (Only.step q1 (emitState_only ..) rfl)
    · exact q1)))
    (Only.step (Only.step (Only.refl _ _) (toState_only ..) rfl) (restartWindows_only ..) rfl))

theorem deliver_only (a0 a1 a2) : Only [.sys, .time, .regions, .cells, .dig, .xs, .casc, .fab, .sb, .bc, .mgt, .regs, .mem, .dma, .trc, .nid, .log, .boot, .img, .reports, .ram] a2 (deliver a0 a1 a2) := by
  unfold deliver
  exact (Only.named (fun q1 =>
    (Only.ite (by
    split
    · exact (Only.step q1 (select_only ..) rfl)
    · exact (Only.step q1 (enterPlaya_only ..) rfl)
    · exact q1) q1))
    (Only.step (Only.refl _ _) (onBoot_only ..) rfl))

theorem writeBackImage_only (a0 a1 a2 a3) : Only [.regs, .log, .boot, .nvm] a3 (writeBackImage a0 a1 a2 a3) := by
  unfold writeBackImage
  exact (Only.named (fun q1 =>
    (Only.named (fun q2 =>
    (Only.step (Only.step q2 (onBoot_only ..) rfl) (emit_only ..) rfl))
    (Only.ite (Only.step q1 (nvPost_only ..) rfl) q1)))
    (Only.step (Only.refl _ _) (nvErase_only ..) rfl))

theorem enterFlush_only (a0 a1) : Only [.sys, .sb, .regs, .trc, .log] a1 (enterFlush a0 a1) := by
  unfold enterFlush
  exact (Only.named (fun q1 =>
    (Only.named (fun q2 =>
    (Only.named (fun q3 =>
    (Only.named (fun q4 =>
    (Only.ite q4 (Only.step q4 (sendHeartbeat_only ..) rfl)))
    (Only.step (Only.step q3 (traceFreeze_only ..) rfl) (onSys_only ..) rfl)))
    (Only.step q2 (onLog_only ..) rfl)))
    (Only.step (Only.step q1 (toState_only ..) rfl) (acceptAll_only ..) rfl)))
    (Only.step (Only.step (Only.refl _ _) (onLog_only ..) rfl) (emit_only ..) rfl))

theorem watchdogRecords_only (e : Env) (h : Hub) : Only [.regs, .log, .nvm] h (watchdogRecords e h) := by
  unfold watchdogRecords
  exact Only.named (fun q1 => Only.ite (Only.step (Only.step (Only.step q1 (flushRec_only ..) rfl) (appendDrift_only ..) rfl)
    (mirrorAll_only ..) rfl) q1) (Only.step (Only.step (Only.step (Only.refl _ _) (emit_only ..) rfl) (acceptAll_only ..) rfl) (onLog_only ..) rfl)

theorem holdReq_only (a0 a1 a2) : Only [.sys] a2 (holdReq a0 a1 a2) := by
  unfold holdReq
  exact (Only.step (Only.refl _ _) (onSys_only ..) rfl)

theorem configAfterReply_only (a0 a1 a2) : Only [.sys, .isl, .time, .regions, .cells, .hubc, .res, .dig, .xs, .ens, .casc, .age, .fab, .sb, .bc, .jobs, .mgt, .cmd, .prot, .regs, .mem, .dma, .trc, .nid, .log, .boot, .img, .ram, .nvm] a2 (configAfterReply a0 a1 a2) := by
  unfold configAfterReply
  exact (by
    split
    · exact (Only.refl _ _)
    · exact (Only.named (fun q1 =>
    (by
    try dsimp -proj only
    split
    · exact (Only.step q1 (mgtReply_only ..) rfl)
    · exact q1))
    (Only.step (Only.step (Only.refl _ _) (finish_only ..) rfl) (commandConfig_only ..) rfl)))

theorem leaveFlush_only (a0 a1) : Only [.sys, .time, .regions, .cells, .regs, .mem, .trc, .log, .boot, .img] a1 (leaveFlush a0 a1) := by
  unfold leaveFlush
  exact (Only.named (fun q1 =>
    (Only.named (fun q2 =>
    (Only.named (fun q3 =>
    (Only.named (fun q4 =>
    (Only.named (fun q5 =>
    (Only.named (fun q6 =>
    (Only.ite (Only.upd q6 (.inr rfl) (.inr rfl) (.inr rfl) (.inr rfl) (.inr rfl) (.inr rfl) (.inr rfl) (.inr rfl) (.inr rfl) (.inr rfl) (.inr rfl) (.inr rfl) (.inr rfl) (.inr rfl) (.inr rfl) (.inr rfl) (.inr rfl) (.inr rfl) (.inr rfl) (.inr rfl) (.inr rfl) (.inr rfl) (.inr rfl) (.inr rfl) (.inr rfl) (.inr rfl) (.inl rfl) (.inl rfl) (.inr rfl) (.inr rfl) (.inr rfl)) q6))
    (Only.step (Only.step (Only.step q5 (traceThaw_only ..) rfl) (migResume_only ..) rfl) (actHeld_only ..) rfl)))
    (Only.step q4 (emitState_only ..) rfl)))
    (Only.step q3 (emit_only ..) rfl)))
    (Only.ite q2 (Only.step q2 (lossRecord_only ..) rfl))))
    (Only.step q1 (onLog_only ..) rfl)))
    (Only.step (Only.step (Only.refl _ _) (onSys_only ..) rfl) (irq_only ..) rfl))

theorem askMain_only (a0) : Only [.isl] a0 (askMain a0) := by
  unfold askMain
  exact (Only.step (Only.refl _ _) (onIsl_only ..) rfl)

theorem recheckHeld_only (a0 a1) : Only [.sys, .isl, .time, .regions, .cells, .hubc, .res, .dig, .xs, .ens, .casc, .age, .fab, .sb, .bc, .jobs, .mgt, .cmd, .prot, .regs, .mem, .dma, .trc, .nid, .log, .boot, .img, .ram, .nvm] a1 (recheckHeld a0 a1) := by
  unfold recheckHeld
  exact (by
    split
    · exact (Only.refl _ _)
    · exact (Only.named (fun q1 =>
    (Only.ite q1 (Only.ite (Only.step q1 (startTransition_only ..) rfl) (Only.step q1 (cmdRecord_only ..) rfl))))
    (Only.step (Only.refl _ _) (onSys_only ..) rfl)))

theorem enterDormant_only (a0 a1) : Only [.sys, .isl, .time, .regions, .cells, .xs, .fab, .sb, .regs, .dma, .trc, .nid, .log, .ram, .nvm] a1 (enterDormant a0 a1) := by
  unfold enterDormant
  exact (Only.named (fun q1 =>
    (Only.named (fun q2 =>
    (Only.named (fun q3 =>
    (Only.named (fun q4 =>
    (Only.named (fun q5 =>
    (Only.named (fun q6 =>
    (Only.named (fun q7 =>
    (Only.step (Only.step (Only.step q7 (onLog_only ..) rfl) (onSys_only ..) rfl) (irq_only ..) rfl))
    (Only.upd q6 (.inr rfl) (.inr rfl) (.inr rfl) (.inl rfl) (.inl rfl) (.inl rfl) (.inr rfl) (.inr rfl) (.inr rfl) (.inr rfl) (.inr rfl) (.inr rfl) (.inr rfl) (.inr rfl) (.inr rfl) (.inr rfl) (.inr rfl) (.inr rfl) (.inr rfl) (.inr rfl) (.inr rfl) (.inr rfl) (.inr rfl) (.inr rfl) (.inr rfl) (.inr rfl) (.inr rfl) (.inr rfl) (.inr rfl) (.inr rfl) (.inr rfl))))
    (Only.step q5 (onIsl_only ..) rfl)))
    (Only.ite (Only.step q4 (mirrorAll_only ..) rfl) q4)))
    (Only.step q3 (acceptAll_only ..) rfl)))
    (Only.step q2 (emitState_only ..) rfl)))
    (Only.step (Only.step q1 (endCapture_only ..) rfl) (acceptAll_only ..) rfl)))
    (Only.foldl (fun _ _ => (Only.step (Only.refl _ _) (sbLocal_only ..) rfl)) _ (Only.refl _ _)))

theorem endOrderly_only (a0 a1) : Only [.sys, .isl, .time, .regions, .cells, .hubc, .res, .dig, .xs, .ens, .casc, .age, .fab, .sb, .bc, .jobs, .mgt, .cmd, .prot, .regs, .mem, .dma, .trc, .nid, .log, .boot, .img, .ram, .nvm] a1 (endOrderly a0 a1) := by
  unfold endOrderly
  exact (Only.named (fun q1 =>
    (Only.named (fun q2 =>
    (by
    try dsimp -proj only
    split
    · exact (Only.step q2 (enterDormant_only ..) rfl)
    · exact (Only.step q2 (blockReset_only ..) rfl)
    · exact q2))
    (Only.step (Only.step q1 (onSys_only ..) rfl) (onLog_only ..) rfl)))
    (Only.step (Only.step (Only.refl _ _) (acceptAll_only ..) rfl) (writeFlush_only ..) rfl))

theorem putCbuf_only (a0 a1 a2 a3) : Only [.cmd] a3 (putCbuf a0 a1 a2 a3) := by
  unfold putCbuf
  exact (Only.step (Only.refl _ _) (onChan_only ..) rfl)

theorem clearIrq_only (a0 a1) : Only [.regs] a1 (clearIrq a0 a1) := by
  unfold clearIrq
  exact (Only.set_regs (Only.refl _ _) rfl)

theorem ringDoorbell_only (a0 a1 a2) : Only [.cmd, .regs, .log] a2 (ringDoorbell a0 a1 a2) := by
  unfold ringDoorbell
  exact (Only.ite (Only.step (Only.refl _ _) (refusedWrite_only ..) rfl) (Only.ite (Only.step (Only.refl _ _) (onChan_only ..) rfl) (Only.step (Only.refl _ _) (onChan_only ..) rfl)))

theorem clearEvent_only (a0 a1 a2) : Only [.cmd] a2 (clearEvent a0 a1 a2) := by
  unfold clearEvent
  exact (Only.step (Only.refl _ _) (onChan_only ..) rfl)

theorem writeCmd_only (a0 a1 a2 a3) : Only [.cmd] a3 (writeCmd a0 a1 a2 a3) := by
  unfold writeCmd
  exact (Only.ite (by
    split
    · exact (Only.step (Only.refl _ _) (putCbuf_only ..) rfl)
    · exact (Only.step (Only.refl _ _) (putCbuf_only ..) rfl)
    · exact (Only.step (Only.refl _ _) (putCbuf_only ..) rfl)) (by
    split
    · exact (Only.step (Only.refl _ _) (clearEvent_only ..) rfl)
    · exact (Only.ite (Only.step (Only.refl _ _) (onChan_only ..) rfl) (Only.refl _ _))
    · exact (Only.refl _ _)))

theorem writePortcfg_only (a0 a1 a2) : Only [.mgt, .regs, .log] a2 (writePortcfg a0 a1 a2) := by
  unfold writePortcfg
  exact (Only.ite (Only.step (Only.refl _ _) (refusedWrite_only ..) rfl) (Only.step (Only.refl _ _) (onMgt_only ..) rfl))

theorem writeGclCtrl_only (a0 a1 a2) : Only [.mgt, .regs, .log] a2 (writeGclCtrl a0 a1 a2) := by
  unfold writeGclCtrl
  exact (Only.ite (Only.refl _ _) (Only.ite (Only.step (Only.refl _ _) (refusedWrite_only ..) rfl) (Only.named (fun q1 =>
    (Only.ite (Only.step q1 (commitGates_only ..) rfl) q1))
    (Only.step (Only.refl _ _) (onMgt_only ..) rfl))))

theorem writeMgt_only (a0 a1 a2 a3) : Only [.mgt, .regs, .log, .reports] a3 (writeMgt a0 a1 a2 a3) := by
  unfold writeMgt
  exact (Only.ite (Only.step (Only.refl _ _) (onMgt_only ..) rfl) (Only.ite (Only.step (Only.refl _ _) (writeShaper_only ..) rfl) (Only.ite (Only.step (Only.refl _ _) (writeMeter_only ..) rfl) (by
    split
    · exact (Only.step (Only.refl _ _) (writeSegcfg_only ..) rfl)
    · exact (Only.step (Only.refl _ _) (writeSegcfg_only ..) rfl)
    · exact (Only.step (Only.refl _ _) (writePortcfg_only ..) rfl)
    · exact (Only.step (Only.refl _ _) (writeGclCtrl_only ..) rfl)
    · exact (Only.step (Only.refl _ _) (onMgt_only ..) rfl)
    · exact (Only.ite (Only.step (Only.refl _ _) (onMgt_only ..) rfl) (Only.refl _ _))
    · exact (Only.refl _ _)))))

theorem writeDmaCtrl_only (a0 a1 a2 a3 a4) : Only [.regions, .cells, .hubc, .res, .ens, .casc, .age, .regs, .mem, .dma, .trc, .log, .ram] a4 (writeDmaCtrl a0 a1 a2 a3 a4) := by
  unfold writeDmaCtrl
  exact (Only.ite (Only.refl _ _) (Only.named (fun q1 =>
    (Only.named (fun q2 =>
    (Only.named (fun q3 =>
    (Only.ite (Only.step q3 (dmaStop_only ..) rfl) q3))
    (Only.ite (Only.step q2 (dmaRequest_only ..) rfl) q2)))
    (Only.ite (Only.step q1 (dmaResume_only ..) rfl) q1)))
    (Only.ite (Only.refl _ _) (Only.step (Only.refl _ _) (dmaEnable_only ..) rfl))))

theorem writeDmaCfg_only (a0 a1 a2 a3) : Only [.regs, .dma, .log] a3 (writeDmaCfg a0 a1 a2 a3) := by
  unfold writeDmaCfg
  exact (Only.ite (Only.refl _ _) (Only.named (fun q1 =>
    (Only.ite (Only.step q1 (refusedWrite_only ..) rfl) q1))
    (Only.step (Only.refl _ _) (onDmaCh_only ..) rfl)))

theorem writeDmaCh_only (a0 a1 a2 a3 a4 a5) : Only [.regions, .cells, .hubc, .res, .ens, .casc, .age, .regs, .mem, .dma, .trc, .log, .ram] a5 (writeDmaCh a0 a1 a2 a3 a4 a5) := by
  unfold writeDmaCh
  exact (Only.ite (Only.step (Only.refl _ _) (refusedWrite_only ..) rfl) (by
    split
    · exact (Only.step (Only.refl _ _) (writeDmaCtrl_only ..) rfl)
    · exact (Only.step (Only.refl _ _) (writeDmaCfg_only ..) rfl)
    · exact (Only.step (Only.refl _ _) (onDmaCh_only ..) rfl)
    · exact (Only.ite (Only.step (Only.refl _ _) (dmaTail_only ..) rfl) (Only.refl _ _))
    · exact (Only.step (Only.refl _ _) (onDmaCh_only ..) rfl)
    · exact (Only.ite (Only.step (Only.refl _ _) (dmaCqhead_only ..) rfl) (Only.refl _ _))
    · exact (Only.refl _ _)))

theorem writeDmaReg_only (a0 a1 a2 a3 a4) : Only [.regions, .cells, .hubc, .res, .ens, .casc, .age, .regs, .mem, .dma, .trc, .log, .ram] a4 (writeDmaReg a0 a1 a2 a3 a4) := by
  unfold writeDmaReg
  exact (Only.ite (Only.step (Only.refl _ _) (writeDmaCh_only ..) rfl) (by
    split
    · exact (Only.step (Only.refl _ _) (onDma_only ..) rfl)
    · exact (Only.ite (Only.step (Only.step (Only.refl _ _) (failedClear_only ..) rfl) (dmaPump_only ..) rfl) (Only.refl _ _))
    · exact (Only.refl _ _)))

theorem writeProt_only (a0 a1 a2 a3 a4 a5) : Only [.prot, .regs, .log] a5 (writeProt a0 a1 a2 a3 a4 a5) := by
  unfold writeProt
  exact (Only.ite (Only.refl _ _) (Only.ite (Only.step (Only.set_prot (Only.refl _ _) rfl) (emit_only ..) rfl) (Only.ite (Only.step (Only.refl _ _) (refusedWrite_only ..) rfl) (Only.step (Only.refl _ _) (protPut_only ..) rfl))))

theorem writeCell_only (a0 a1 a2 a3 a4) : Only [.regions, .cells, .hubc, .ens, .prot, .regs, .mem, .trc, .log] a4 (writeCell a0 a1 a2 a3 a4) := by
  unfold writeCell
  exact (Only.ite (Only.step (Only.refl _ _) (ignoredWrite_only ..) rfl) (Only.ite (Only.refl _ _) (by
    split
    · exact (Only.step (Only.refl _ _) (sendCell_only ..) rfl)
    · exact (Only.step (Only.refl _ _) (onHubc_only ..) rfl)
    · exact (Only.refl _ _))))

theorem writeDbgS_only (a0 a1 a2) : Only [.res, .regs, .log] a2 (writeDbgS a0 a1 a2) := by
  unfold writeDbgS
  exact (Only.ite (Only.step (Only.set_res (Only.refl _ _) rfl) (refusedWrite_only ..) rfl) (Only.set_res (Only.refl _ _) rfl))

theorem writeReg_only (a0 a1 a2 a3 a4 a5 a6 a7) : Only [.time, .regions, .cells, .hubc, .res, .dig, .ens, .casc, .age, .mgt, .cmd, .prot, .regs, .mem, .dma, .trc, .log, .reports, .ram] a7 (writeReg a0 a1 a2 a3 a4 a5 a6 a7) := by
  unfold writeReg
  exact (Only.ite (Only.step (Only.refl _ _) (ignoredWrite_only ..) rfl) (Only.ite (Only.step (Only.refl _ _) (ignoredWrite_only ..) rfl) (by
    split
    · exact (Only.ite (Only.step (Only.refl _ _) (clearIrq_only ..) rfl) (Only.ite (Only.set_regs (Only.refl _ _) rfl) (Only.refl _ _)))
    · exact (Only.ite (Only.ite (Only.step (Only.refl _ _) (ringDoorbell_only ..) rfl) (Only.refl _ _)) (Only.step (Only.refl _ _) (writeCmd_only ..) rfl))
    · exact (Only.ite (Only.set_time (Only.refl _ _) rfl) (Only.refl _ _))
    · exact (Only.step (Only.refl _ _) (writeMgt_only ..) rfl)
    · exact (Only.step (Only.refl _ _) (writeDmaReg_only ..) rfl)
    · exact (Only.ite (Only.step (Only.refl _ _) (writeProt_only ..) rfl) (Only.refl _ _))
    · exact (Only.step (Only.refl _ _) (writeCell_only ..) rfl)
    · exact (Only.ite (Only.step (Only.refl _ _) (onDig_only ..) rfl) (Only.ite (Only.step (Only.refl _ _) (onDig_only ..) rfl) (Only.refl _ _)))
    · exact (Only.ite (Only.step (Only.refl _ _) (writeDbgS_only ..) rfl) (Only.ite (Only.set_res (Only.refl _ _) rfl) (Only.ite (Only.set_res (Only.refl _ _) rfl) (Only.refl _ _))))
    · exact (Only.refl _ _))))

theorem directWrite_only (a0 a1 a2 a3 a4) : Only [.time, .regions, .cells, .hubc, .res, .dig, .ens, .casc, .age, .mgt, .cmd, .prot, .regs, .mem, .dma, .trc, .log, .reports, .ram] a4 (directWrite a0 a1 a2 a3 a4) := by
  unfold directWrite
  exact (by
    try dsimp -proj only
    split
    · exact (Only.step (Only.refl _ _) (ignoredWrite_only ..) rfl)
    · exact (Only.ite (Only.step (Only.refl _ _) (ignoredWrite_only ..) rfl) (Only.ite (Only.ite (Only.step (Only.refl _ _) (putCbuf_only ..) rfl) (Only.step (Only.refl _ _) (ignoredWrite_only ..) rfl)) (portField_only (Only.refl _ _) (fun _ => (Only.step (Only.refl _ _) (writeReg_only ..) rfl)) rfl))))

theorem loadKey_only (a0 a1 a2 a3 a4) : Only [.cmd] a4 (loadKey a0 a1 a2 a3 a4) := by
  unfold loadKey
  exact (Only.set_cmd (Only.refl _ _) rfl)

theorem read32_only (a0 a1 a2) : Only [.time, .prot, .regs, .log] a2 (read32 a0 a1 a2) := by
  unfold read32
  exact (Only.named (fun q1 =>
    (Only.ite (Only.named (fun q2 =>
    (Only.set_regs q2 rfl))
    (by
    split
    · exact (Only.step q1 (ignoredWrite_only ..) rfl)
    · exact (Only.step q1 (ignoredWrite_only ..) rfl))) (Only.ite (Only.named (fun q2 =>
    (Only.set_regs q2 rfl))
    (Only.ite (Only.set_time q1 rfl) q1)) (Only.set_regs q1 rfl))))
    (Only.set_regs (Only.refl _ _) rfl))

theorem refusePacket_only (a0 a1 a2 a3 a4 a5 a6) : Only [.sb, .mgt, .cmd, .regs, .log] a6 (refusePacket a0 a1 a2 a3 a4 a5 a6) := by
  unfold refusePacket
  exact (Only.step (Only.refl _ _) (replyOnly_only ..) rfl)

theorem sendReport_only (a0 a1 a2) : Only [.sb, .mgt, .cmd] a2 (sendReport a0 a1 a2) := by
  unfold sendReport
  exact (Only.ite (by
    split
    · exact (Only.refl _ _)
    · exact (Only.step (Only.set_cmd (Only.refl _ _) rfl) (mgtSend_only ..) rfl)) (Only.step (Only.refl _ _) (sbUp_only ..) rfl))

theorem sendReports_only (a0 a1) : Only [.sb, .mgt, .cmd, .reports] a1 (sendReports a0 a1) := by
  unfold sendReports
  exact (Only.ite (Only.foldl (fun _ _ => (Only.step (Only.refl _ _) (sendReport_only ..) rfl)) _ (Only.set_reports (Only.refl _ _) rfl)) (Only.refl _ _))

theorem onBc_only (a0 a1) : Only [.bc] a1 (onBc a0 a1) := by
  unfold onBc
  exact (Only.set_bc (Only.refl _ _) rfl)

theorem noteSeen_only (a0 a1 a2 a3 a4) : Only [.bc] a4 (noteSeen a0 a1 a2 a3 a4) := by
  unfold noteSeen
  exact (Only.step (Only.refl _ _) (onBc_only ..) rfl)

theorem sendKids_only (a0 a1 a2) : Only [.sb] a2 (sendKids a0 a1 a2) := by
  unfold sendKids
  exact (Only.ite (Only.foldl (fun _ _ => (Only.step (Only.refl _ _) (sbDown_only ..) rfl)) _ (Only.refl _ _)) (Only.foldl (fun _ _ => (Only.step (Only.step (Only.refl _ _) (sbNextMseq_only ..) rfl) (sbAlong_only ..) rfl)) _ (Only.refl _ _)))

theorem putB_only (a0 a1) : Only [.bc] a1 (putB a0 a1) := by
  unfold putB
  exact (Only.step (Only.refl _ _) (onBc_only ..) rfl)

theorem dropB_only (a0 a1) : Only [.bc] a1 (dropB a0 a1) := by
  unfold dropB
  exact (Only.step (Only.refl _ _) (onBc_only ..) rfl)

theorem bPhoten_only (a0 a1 a2) : Only [.xs, .fab] a2 (bPhoten a0 a1 a2) := by
  unfold bPhoten
  exact (Only.step (Only.refl _ _) (photenSend_only ..) rfl)

theorem sendBack_only (a0 a1 a2 a3) : Only [.xs, .fab, .sb] a3 (sendBack a0 a1 a2 a3) := by
  unfold sendBack
  exact (by
    split
    · exact (Only.refl _ _)
    · exact (Only.step (Only.refl _ _) (bPhoten_only ..) rfl)
    · exact (Only.step (Only.step (Only.refl _ _) (sbNextMseq_only ..) rfl) (sbAlong_only ..) rfl))

theorem endPhase_only (a0 a1 a2) : Only [.xs, .fab, .sb, .bc, .mgt, .cmd, .regs, .log, .ram] a2 (endPhase a0 a1 a2) := by
  unfold endPhase
  exact (Only.named (fun q1 =>
    (by
    try dsimp -proj only
    split
    · exact (Only.ite (Only.named (fun q2 =>
    (Only.step (Only.step q2 (postMem_only ..) rfl) (finish_only ..) rfl))
    (Only.step q1 (putB_only ..) rfl)) (Only.step (Only.step q1 (dropB_only ..) rfl) (finish_only ..) rfl))
    · exact (Only.named (fun q2 =>
    (Only.ite (Only.step q2 (putB_only ..) rfl) (Only.step q2 (dropB_only ..) rfl)))
    (Only.step (Only.step q1 (sendBack_only ..) rfl) (noteSeen_only ..) rfl))))
    (Only.set_fab (Only.refl _ _) rfl))

theorem trayPart_only (a0 a1 a2) : Only [.sb] a2 (trayPart a0 a1 a2).1 := by
  unfold trayPart
  exact (Only.named (fun q1 =>
    (Only.ite1 (Only.fst q1) (Only.fst q1)))
    (Only.ite1 (Only.ite1 (Only.fst (Only.refl _ _)) (Only.fst (Only.foldl (fun _ _ => (Only.step (Only.refl _ _) (sbDown_only ..) rfl)) _ (Only.refl _ _)))) (Only.fst (Only.refl _ _))))

theorem startPhase_only (a0 a1 a2) : Only [.xs, .fab, .sb] a2 (startPhase a0 a1 a2).1 := by
  unfold startPhase
  exact (Only.named (fun q1 =>
    (Only.named (fun q2 =>
    (Only.fst q2))
    (Only.foldl (fun _ _ => (Only.step (Only.refl _ _) (bPhoten_only ..) rfl)) _ q1)))
    (Only.step (Only.refl _ _) (sendKids_only ..) rfl))

theorem upPart_only (a0 a1) : Only [.xs, .fab] a1 (upPart a0 a1).1 := by
  unfold upPart
  exact (Only.ite1 (Only.fst (Only.refl _ _)) (Only.named (fun q1 =>
    (Only.fst q1))
    (Only.foldl (fun _ _ => (Only.step (Only.refl _ _) (bPhoten_only ..) rfl)) _ (Only.refl _ _))))

theorem advanceB_only (a0 a1 a2) : Only [.xs, .fab, .sb, .bc, .mgt, .cmd, .regs, .log, .ram] a2 (advanceB a0 a1 a2) := by
  unfold advanceB
  exact (Only.ite (Only.named (fun q1 =>
    (Only.named (fun q2 =>
    (Only.ite (Only.step q2 (endPhase_only ..) rfl) (Only.step q2 (putB_only ..) rfl)))
    (Only.step q1 (upPart_only ..) rfl)))
    (Only.step (Only.refl _ _) (trayPart_only ..) rfl)) (Only.ite (Only.step (Only.refl _ _) (endPhase_only ..) rfl) (Only.step (Only.refl _ _) (putB_only ..) rfl)))

theorem addB_only (a0 a1) : Only [.bc] a1 (addB a0 a1) := by
  unfold addB
  exact (Only.step (Only.refl _ _) (onBc_only ..) rfl)

theorem lateAck_only (a0 a1) : Only [.bc, .regs, .log] a1 (lateAck a0 a1) := by
  unfold lateAck
  exact (Only.step (Only.step (Only.refl _ _) (onBc_only ..) rfl) (emit_only ..) rfl)

theorem refuseB_only (a0 a1 a2 a3) : Only [.xs, .fab, .sb] a3 (refuseB a0 a1 a2 a3) := by
  unfold refuseB
  exact (Only.step (Only.refl _ _) (sendBack_only ..) rfl)

theorem prepareIn_only (a0 a1 a2) : Only [.sys, .isl, .time, .regions, .cells, .hubc, .res, .dig, .xs, .ens, .casc, .age, .fab, .sb, .bc, .jobs, .mgt, .cmd, .prot, .regs, .mem, .dma, .trc, .nid, .log, .boot, .img, .reports, .ram, .nvm] a2 (prepareIn a0 a1 a2) := by
  unfold prepareIn
  exact (Only.ite (Only.refl _ _) (Only.ite (by
    split
    · exact (by
    split
    · exact (Only.step (Only.refl _ _) (sendBack_only ..) rfl)
    · exact (Only.refl _ _))
    · exact (Only.refl _ _)) (Only.ite (Only.step (Only.refl _ _) (refuseB_only ..) rfl) (Only.ite (Only.step (Only.refl _ _) (refuseB_only ..) rfl) (Only.named (fun q1 =>
    (Only.step q1 (advanceB_only ..) rfl))
    (Only.step (Only.step (Only.refl _ _) (addB_only ..) rfl) (startPhase_only ..) rfl))))))

theorem dieAck_only (a0 a1 a2 a3) : Only [.xs, .fab, .sb, .bc, .mgt, .cmd, .regs, .log, .ram] a3 (dieAck a0 a1 a2 a3) := by
  unfold dieAck
  exact (Only.ite (Only.step (Only.refl _ _) (lateAck_only ..) rfl) (Only.step (Only.refl _ _) (advanceB_only ..) rfl))

theorem trayAck_only (a0 a1 a2 a3) : Only [.xs, .fab, .sb, .bc, .mgt, .cmd, .regs, .log, .ram] a3 (trayAck a0 a1 a2 a3) := by
  unfold trayAck
  exact (Only.ite (Only.step (Only.refl _ _) (lateAck_only ..) rfl) (Only.step (Only.refl _ _) (advanceB_only ..) rfl))

theorem ackIn_only (a0 a1 a2) : Only [.xs, .fab, .sb, .bc, .mgt, .cmd, .regs, .log, .ram] a2 (ackIn a0 a1 a2) := by
  unfold ackIn
  exact (by
    split
    · exact (Only.step (Only.refl _ _) (lateAck_only ..) rfl)
    · exact (Only.ite (Only.step (Only.refl _ _) (lateAck_only ..) rfl) (by
    split
    · exact (Only.step (Only.refl _ _) (dieAck_only ..) rfl)
    · exact (Only.step (Only.refl _ _) (trayAck_only ..) rfl))))

theorem bcastRx_only {ps : List Piece} {e : Env} {m : BcastIn} {want : List Nat} {f : BRx → Hub → Hub} {h k : Hub}
    (a : Only ps h k) (hf : ∀ r x, Only ps x (f r x)) (w : within? [.ens, .casc, .fab, .sb, .regs, .mem, .log] ps = true) : Only ps h (bcastRx e m want f k) := by
  unfold bcastRx
  split
  · refine photenRx_only a (fun r x => ?_) (within_trans (by decide) w)
    split
    · exact Only.ite (hf _ _) (Only.refl _ _)
    · exact Only.refl _ _
  · refine sbOn_only a (fun x => ?_) w
    refine Only.ite (Only.refl _ _) ?_
    split
    · exact Only.pair (by assumption) (Only.weaken (sbAssemble_only ..) (within_trans (by decide) w))
    · next y bs hq =>
      have q : Only ps x y := Only.pair hq (Only.weaken (sbAssemble_only ..) (within_trans (by decide) w))
      split
      · exact Only.ite (q.trans (hf _ _)) q
      · exact q

theorem startRoot_only (a0 a1 a2 a3) : Only [.xs, .fab, .sb, .bc, .mgt, .cmd, .regs, .log, .ram] a3 (startRoot a0 a1 a2 a3) := by
  unfold startRoot
  exact (Only.named (fun q1 =>
    (Only.step q1 (advanceB_only ..) rfl))
    (Only.step (Only.step (Only.step (Only.refl _ _) (onBc_only ..) rfl) (addB_only ..) rfl) (startPhase_only ..) rfl))

theorem authFail_only (a0 a1 a2 a3) : Only [.mgt] a3 (authFail a0 a1 a2 a3) := by
  unfold authFail
  exact (Only.named (fun q1 =>
    (Only.ite q1 (Only.step (Only.step q1 (onSeg_only ..) rfl) (mgtSend_only ..) rfl)))
    (Only.step (Only.refl _ _) (onMgt_only ..) rfl))

theorem reportMgt_only (a0 a1) : Only [.reports] a1 (reportMgt a0 a1) := by
  unfold reportMgt
  exact (Only.ite (Only.step (Only.refl _ _) (report_only ..) rfl) (Only.refl _ _))

theorem stepLags_only (a0 a1 a2) : Only [.ens, .regs, .mem, .log] a2 (stepLags a0 a1 a2) := by
  unfold stepLags
  exact (Only.named (fun q1 =>
    (Only.foldl (fun _ _ => (Only.foldl (fun _ _ => (Only.step (Only.refl _ _) (featWrite_only ..) rfl)) _ (Only.refl _ _))) _ q1))
    (Only.foldl (fun _ _ => (Only.step (Only.refl _ _) (featWrite_only ..) rfl)) _ (Only.refl _ _)))

theorem defeated_only (a0 a1 a2 a3 a4) : Only [.regions, .cells, .casc, .regs, .mem, .trc, .log, .reports] a4 (defeated a0 a1 a2 a3 a4) := by
  unfold defeated
  exact (Only.ite (Only.named (fun q1 =>
    (Only.step (Only.step (Only.step q1 (onRange_only ..) rfl) (onMem_only ..) rfl) (report_only ..) rfl))
    (Only.step (Only.refl _ _) (emit_only ..) rfl)) (Only.ite (Only.refl _ _) (Only.ite (Only.step (Only.step (Only.refl _ _) (actRecord_only ..) rfl) (onRange_only ..) rfl) (Only.named (fun q1 =>
    (Only.step (Only.step (Only.step q1 (onRange_only ..) rfl) (onMem_only ..) rfl) (report_only ..) rfl))
    (Only.step (Only.step (Only.refl _ _) (actRecord_only ..) rfl) (emit_only ..) rfl)))))

theorem judgeRange_only (a0 a1 a2) : Only [.regions, .cells, .casc, .regs, .mem, .trc, .log, .reports] a1 (judgeRange a0 a1 a2) := by
  unfold judgeRange
  exact (by
    split
    · exact (Only.refl _ _)
    · exact (Only.named (fun q1 =>
    (Only.ite (Only.step q1 (defeated_only ..) rfl) q1))
    (Only.step (Only.refl _ _) (onRange_only ..) rfl)))

theorem openFigure_only (a0 a1 a2 a3) : Only [.xs, .regs, .log] a2 (openFigure a0 a1 a2 a3) := by
  unfold openFigure
  exact (by
    split
    · exact (Only.refl _ _)
    · exact (Only.foldl (fun _ _ => (Only.ite (Only.refl _ _) (Only.ite (Only.step (Only.refl _ _) (emitUnit_only ..) rfl) (Only.step (Only.refl _ _) (putRound_only ..) rfl)))) _ (Only.refl _ _)))

theorem openPeriodic_only (a0 a1 a2) : Only [.xs, .regs, .log] a2 (openPeriodic a0 a1 a2) := by
  unfold openPeriodic
  exact (Only.ite (Only.refl _ _) (Only.foldl (fun _ _ => (Only.step (Only.refl _ _) (openFigure_only ..) rfl)) _ (Only.refl _ _)))

theorem setSpan_only (a0 a1 a2) : Only [.xs, .regs, .log, .reports] a2 (setSpan a0 a1 a2) := by
  unfold setSpan
  exact (Only.named (fun q1 =>
    (Only.step (Only.step q1 (onXs_only ..) rfl) (report_only ..) rfl))
    (Only.step (Only.refl _ _) (emitState_only ..) rfl))

theorem figureElems_only (e : Env) (f : Figure) (h : Hub) : Only [.xs] h (figureElems e f h).2.2 := by
  unfold figureElems
  split
  · exact Only.refl _ _
  · dsimp only
    split
    · exact Only.step (Only.step (Only.refl _ _) (clearCtx_only ..) rfl) (laneBeats_only ..) rfl
    · split
      · exact Only.refl _ _
      · exact Only.refl _ _

theorem judgeMemory_only (a0 a1) : Only [.regions, .cells, .casc, .regs, .mem, .trc, .log, .reports] a1 (judgeMemory a0 a1) := by
  unfold judgeMemory
  exact (Only.foldl (fun _ _ => (Only.step (Only.refl _ _) (judgeRange_only ..) rfl)) _ (Only.refl _ _))

theorem takeLoad_only (a0) : Only [.xs] a0 (takeLoad a0) := by
  unfold takeLoad
  exact (Only.named (fun q1 =>
    (Only.step (Only.step q1 (onXs_only ..) rfl) (noteFill_only ..) rfl))
    (Only.step (Only.refl _ _) (noteFill_only ..) rfl))

theorem contributeFigure_only (a0 a1 a2 a3) : Only [.xs, .fab, .regs, .log] a2 (contributeFigure a0 a1 a2 a3) := by
  unfold contributeFigure
  exact (by
    split
    · exact (Only.refl _ _)
    · exact (Only.ite (Only.refl _ _) (Only.named (fun q1 =>
    (Only.ite (Only.step q1 (roundLate_only ..) rfl) (Only.ite (Only.step q1 (roundNoRoom_only ..) rfl) (Only.named (fun q2 =>
    (Only.named (fun q3 =>
    (by
    try dsimp -proj only
    split
    · exact q3
    · exact (Only.step (Only.step q3 (putRound_only ..) rfl) (dieContribute_only ..) rfl)))
    (Only.step q2 (coarsen_only ..) rfl)))
    (Only.step q1 (takeCarry_only ..) rfl)))))
    (Only.weaken (figureElems_only ..) rfl))))

theorem contributeAll_only (a0 a1 a2) : Only [.xs, .fab, .regs, .log] a2 (contributeAll a0 a1 a2) := by
  unfold contributeAll
  exact (Only.foldl (fun _ _ => (Only.step (Only.refl _ _) (contributeFigure_only ..) rfl)) _ (Only.refl _ _))

theorem judgeLoad_only (a0 a1 a2) : Only [.regions, .cells, .xs, .casc, .regs, .trc, .log, .reports] a2 (judgeLoad a0 a1 a2) := by
  unfold judgeLoad
  exact (Only.ite (Only.refl _ _) (Only.ite (autoAct_only (Only.step (Only.refl _ _) (onXs_only ..) rfl) (fun _ => (Only.step (Only.refl _ _) (setSpan_only ..) rfl)) rfl) (Only.ite (Only.step (Only.refl _ _) (setSpan_only ..) rfl) (Only.refl _ _))))

theorem windowServing_only (a0 a1 a2) : Only [.isl, .regions, .cells, .hubc, .xs, .ens, .casc, .age, .fab, .sb, .jobs, .regs, .mem, .trc, .log, .reports] a2 (windowServing a0 a1 a2) := by
  unfold windowServing
  exact (Only.named (fun q1 =>
    (Only.named (fun q2 =>
    (Only.named (fun q3 =>
    (Only.named (fun q4 =>
    (Only.named (fun q5 =>
    (Only.ite (Only.step (Only.step (Only.step (Only.step (Only.step q5 (finishActs_only ..) rfl) (takePolicy_only ..) rfl) (stepLags_only ..) rfl) (boundaryVerdicts_only ..) rfl) (rhizStart_only ..) rfl) q5))
    (Only.step (Only.step q4 (detWindow_only ..) rfl) (ageWindow_only ..) rfl)))
    (Only.step q3 (judgeLoad_only ..) rfl)))
    (Only.ite (Only.step q2 (openPeriodic_only ..) rfl) (Only.step q2 (contributeAll_only ..) rfl))))
    (Only.step q1 (takeLoad_only ..) rfl)))
    (Only.step (Only.step (Only.refl _ _) (reportMgt_only ..) rfl) (judgeMemory_only ..) rfl))

theorem endCycle_only (a0) : Only [.regions, .cells, .dig, .xs, .cmd, .regs, .mem, .dma] a0 (endCycle a0) := by
  unfold endCycle
  exact (Only.upd (Only.refl _ _) (.inr rfl) (.inr rfl) (.inr rfl) (.inr rfl) (.inl rfl) (.inl rfl) (.inr rfl) (.inr rfl) (.inl rfl) (.inl rfl) (.inr rfl) (.inr rfl) (.inr rfl) (.inr rfl) (.inr rfl) (.inr rfl) (.inr rfl) (.inr rfl) (.inl rfl) (.inr rfl) (.inl rfl) (.inl rfl) (.inl rfl) (.inr rfl) (.inr rfl) (.inr rfl) (.inr rfl) (.inr rfl) (.inr rfl) (.inr rfl) (.inr rfl))

theorem tickTime_only (a0) : Only [.time] a0 (tickTime a0) := by
  unfold tickTime
  exact (Only.ite (Only.ite (Only.refl _ _) (Only.set_time (Only.refl _ _) rfl)) (Only.ite (Only.set_time (Only.refl _ _) rfl) (Only.refl _ _)))

end Sys2Proof.Machine
end

