-- ==== Sys2Proof/Laws/State.lean ====
section
/-!
SUPPORT. Which parts of the hub the operations that every family uses leave alone, one equation a part, so that no proof unfolds a record
update; and what the lift of a meaning does to the state.
-/
namespace Sys2Proof.Machine

/-! The lift. -/

theorem State.run_next (s : State) (f : Env → Hub → Hub) : s.run f = .next (s.settle (f s.env s.hub.clean)) := rfl
@[simp] theorem State.settle_fuses (s : State) (h : Hub) : (s.settle h).fuses = s.fuses := rfl
@[simp] theorem State.settle_pending (s : State) (h : Hub) : (s.settle h).pending = s.pending := rfl
@[simp] theorem State.settle_hub (s : State) (h : Hub) : (s.settle h).hub = h.clean := rfl
@[simp] theorem Hub.clean_free (h : Hub) : h.clean.free = h.free := rfl
@[simp] theorem Hub.clean_sys (h : Hub) : h.clean.sys = h.sys := rfl
@[simp] theorem Hub.clean_isl (h : Hub) : h.clean.isl = h.isl := rfl
@[simp] theorem Hub.clean_time (h : Hub) : h.clean.time = h.time := rfl
@[simp] theorem Hub.clean_regions (h : Hub) : h.clean.regions = h.regions := rfl
@[simp] theorem Hub.clean_cells (h : Hub) : h.clean.cells = h.cells := rfl
@[simp] theorem Hub.clean_hubc (h : Hub) : h.clean.hubc = h.hubc := rfl
@[simp] theorem Hub.clean_res (h : Hub) : h.clean.res = h.res := rfl
@[simp] theorem Hub.clean_dig (h : Hub) : h.clean.dig = h.dig := rfl
@[simp] theorem Hub.clean_xs (h : Hub) : h.clean.xs = h.xs := rfl
@[simp] theorem Hub.clean_ens (h : Hub) : h.clean.ens = h.ens := rfl
@[simp] theorem Hub.clean_casc (h : Hub) : h.clean.casc = h.casc := rfl
@[simp] theorem Hub.clean_age (h : Hub) : h.clean.age = h.age := rfl
@[simp] theorem Hub.clean_fab (h : Hub) : h.clean.fab = h.fab := rfl
@[simp] theorem Hub.clean_sb (h : Hub) : h.clean.sb = h.sb := rfl
@[simp] theorem Hub.clean_bc (h : Hub) : h.clean.bc = h.bc := rfl
@[simp] theorem Hub.clean_jobs (h : Hub) : h.clean.jobs = h.jobs := rfl
@[simp] theorem Hub.clean_mgt (h : Hub) : h.clean.mgt = h.mgt := rfl
@[simp] theorem Hub.clean_cmd (h : Hub) : h.clean.cmd = h.cmd := rfl
@[simp] theorem Hub.clean_prot (h : Hub) : h.clean.prot = h.prot := rfl
@[simp] theorem Hub.clean_regs (h : Hub) : h.clean.regs = h.regs := rfl
@[simp] theorem Hub.clean_mem (h : Hub) : h.clean.mem = h.mem := rfl
@[simp] theorem Hub.clean_dma (h : Hub) : h.clean.dma = h.dma := rfl
@[simp] theorem Hub.clean_trc (h : Hub) : h.clean.trc = h.trc := rfl
@[simp] theorem Hub.clean_nid (h : Hub) : h.clean.nid = h.nid := rfl
@[simp] theorem Hub.clean_log (h : Hub) : h.clean.log = h.log := rfl
@[simp] theorem Hub.clean_boot (h : Hub) : h.clean.boot = h.boot := rfl
@[simp] theorem Hub.clean_img (h : Hub) : h.clean.img = h.img := rfl
@[simp] theorem Hub.clean_reports (h : Hub) : h.clean.reports = h.reports := rfl
@[simp] theorem Hub.clean_posted (h : Hub) : h.clean.posted = [] := rfl
@[simp] theorem Hub.clean_nvPosted (h : Hub) : h.clean.nvPosted = [] := rfl
@[simp] theorem guard_true (f : Hub → Hub) (h : Hub) : guard true f h = f h := rfl
@[simp] theorem guard_false (f : Hub → Hub) (h : Hub) : guard false f h = h := rfl

/-! The operations. -/

@[simp] theorem irq_keeps (a0 a1) :
    (irq a0 a1).free = a1.free ∧ (irq a0 a1).sys = a1.sys ∧ (irq a0 a1).isl = a1.isl ∧ (irq a0 a1).time = a1.time ∧
    (irq a0 a1).regions = a1.regions ∧ (irq a0 a1).cells = a1.cells ∧ (irq a0 a1).hubc = a1.hubc ∧ (irq a0 a1).res = a1.res ∧
    (irq a0 a1).dig = a1.dig ∧ (irq a0 a1).xs = a1.xs ∧ (irq a0 a1).ens = a1.ens ∧ (irq a0 a1).casc = a1.casc ∧
    (irq a0 a1).age = a1.age ∧ (irq a0 a1).fab = a1.fab ∧ (irq a0 a1).sb = a1.sb ∧ (irq a0 a1).bc = a1.bc ∧
    (irq a0 a1).jobs = a1.jobs ∧ (irq a0 a1).mgt = a1.mgt ∧ (irq a0 a1).cmd = a1.cmd ∧ (irq a0 a1).prot = a1.prot ∧
    (irq a0 a1).mem = a1.mem ∧ (irq a0 a1).dma = a1.dma ∧ (irq a0 a1).trc = a1.trc ∧ (irq a0 a1).nid = a1.nid ∧
    (irq a0 a1).log = a1.log ∧ (irq a0 a1).boot = a1.boot ∧ (irq a0 a1).img = a1.img ∧ (irq a0 a1).reports = a1.reports ∧
    (irq a0 a1).posted = a1.posted ∧ (irq a0 a1).nvPosted = a1.nvPosted := by
  have k := (irq_only a0 a1).keep
  exact ⟨k .free (by decide), k .sys (by decide), k .isl (by decide), k .time (by decide), k .regions (by decide), k .cells (by decide), k .hubc (by decide), k .res (by decide), k .dig (by decide), k .xs (by decide), k .ens (by decide), k .casc (by decide), k .age (by decide), k .fab (by decide), k .sb (by decide), k .bc (by decide), k .jobs (by decide), k .mgt (by decide), k .cmd (by decide), k .prot (by decide), k .mem (by decide), k .dma (by decide), k .trc (by decide), k .nid (by decide), k .log (by decide), k .boot (by decide), k .img (by decide), k .reports (by decide), k .ram (by decide), k .nvm (by decide)⟩

@[simp] theorem pushRec_keeps (a0 a1 a2 a3 a4 a5 a6 a7 a8) :
    (pushRec a0 a1 a2 a3 a4 a5 a6 a7 a8).free = a8.free ∧ (pushRec a0 a1 a2 a3 a4 a5 a6 a7 a8).sys = a8.sys ∧ (pushRec a0 a1 a2 a3 a4 a5 a6 a7 a8).isl = a8.isl ∧ (pushRec a0 a1 a2 a3 a4 a5 a6 a7 a8).time = a8.time ∧
    (pushRec a0 a1 a2 a3 a4 a5 a6 a7 a8).regions = a8.regions ∧ (pushRec a0 a1 a2 a3 a4 a5 a6 a7 a8).cells = a8.cells ∧ (pushRec a0 a1 a2 a3 a4 a5 a6 a7 a8).hubc = a8.hubc ∧ (pushRec a0 a1 a2 a3 a4 a5 a6 a7 a8).res = a8.res ∧
    (pushRec a0 a1 a2 a3 a4 a5 a6 a7 a8).dig = a8.dig ∧ (pushRec a0 a1 a2 a3 a4 a5 a6 a7 a8).xs = a8.xs ∧ (pushRec a0 a1 a2 a3 a4 a5 a6 a7 a8).ens = a8.ens ∧ (pushRec a0 a1 a2 a3 a4 a5 a6 a7 a8).casc = a8.casc ∧
    (pushRec a0 a1 a2 a3 a4 a5 a6 a7 a8).age = a8.age ∧ (pushRec a0 a1 a2 a3 a4 a5 a6 a7 a8).fab = a8.fab ∧ (pushRec a0 a1 a2 a3 a4 a5 a6 a7 a8).sb = a8.sb ∧ (pushRec a0 a1 a2 a3 a4 a5 a6 a7 a8).bc = a8.bc ∧
    (pushRec a0 a1 a2 a3 a4 a5 a6 a7 a8).jobs = a8.jobs ∧ (pushRec a0 a1 a2 a3 a4 a5 a6 a7 a8).mgt = a8.mgt ∧ (pushRec a0 a1 a2 a3 a4 a5 a6 a7 a8).cmd = a8.cmd ∧ (pushRec a0 a1 a2 a3 a4 a5 a6 a7 a8).prot = a8.prot ∧
    (pushRec a0 a1 a2 a3 a4 a5 a6 a7 a8).regs = a8.regs ∧ (pushRec a0 a1 a2 a3 a4 a5 a6 a7 a8).mem = a8.mem ∧ (pushRec a0 a1 a2 a3 a4 a5 a6 a7 a8).dma = a8.dma ∧ (pushRec a0 a1 a2 a3 a4 a5 a6 a7 a8).trc = a8.trc ∧
    (pushRec a0 a1 a2 a3 a4 a5 a6 a7 a8).nid = a8.nid ∧ (pushRec a0 a1 a2 a3 a4 a5 a6 a7 a8).boot = a8.boot ∧ (pushRec a0 a1 a2 a3 a4 a5 a6 a7 a8).img = a8.img ∧ (pushRec a0 a1 a2 a3 a4 a5 a6 a7 a8).reports = a8.reports ∧
    (pushRec a0 a1 a2 a3 a4 a5 a6 a7 a8).posted = a8.posted ∧ (pushRec a0 a1 a2 a3 a4 a5 a6 a7 a8).nvPosted = a8.nvPosted := by
  have k := (pushRec_only a0 a1 a2 a3 a4 a5 a6 a7 a8).keep
  exact ⟨k .free (by decide), k .sys (by decide), k .isl (by decide), k .time (by decide), k .regions (by decide), k .cells (by decide), k .hubc (by decide), k .res (by decide), k .dig (by decide), k .xs (by decide), k .ens (by decide), k .casc (by decide), k .age (by decide), k .fab (by decide), k .sb (by decide), k .bc (by decide), k .jobs (by decide), k .mgt (by decide), k .cmd (by decide), k .prot (by decide), k .regs (by decide), k .mem (by decide), k .dma (by decide), k .trc (by decide), k .nid (by decide), k .boot (by decide), k .img (by decide), k .reports (by decide), k .ram (by decide), k .nvm (by decide)⟩

@[simp] theorem emitAt_keeps (a0 a1 a2 a3 a4 a5 a6 a7 a8) :
    (emitAt a0 a1 a2 a3 a4 a5 a6 a7 a8).free = a8.free ∧ (emitAt a0 a1 a2 a3 a4 a5 a6 a7 a8).sys = a8.sys ∧ (emitAt a0 a1 a2 a3 a4 a5 a6 a7 a8).isl = a8.isl ∧ (emitAt a0 a1 a2 a3 a4 a5 a6 a7 a8).time = a8.time ∧
    (emitAt a0 a1 a2 a3 a4 a5 a6 a7 a8).regions = a8.regions ∧ (emitAt a0 a1 a2 a3 a4 a5 a6 a7 a8).cells = a8.cells ∧ (emitAt a0 a1 a2 a3 a4 a5 a6 a7 a8).hubc = a8.hubc ∧ (emitAt a0 a1 a2 a3 a4 a5 a6 a7 a8).res = a8.res ∧
    (emitAt a0 a1 a2 a3 a4 a5 a6 a7 a8).dig = a8.dig ∧ (emitAt a0 a1 a2 a3 a4 a5 a6 a7 a8).xs = a8.xs ∧ (emitAt a0 a1 a2 a3 a4 a5 a6 a7 a8).ens = a8.ens ∧ (emitAt a0 a1 a2 a3 a4 a5 a6 a7 a8).casc = a8.casc ∧
    (emitAt a0 a1 a2 a3 a4 a5 a6 a7 a8).age = a8.age ∧ (emitAt a0 a1 a2 a3 a4 a5 a6 a7 a8).fab = a8.fab ∧ (emitAt a0 a1 a2 a3 a4 a5 a6 a7 a8).sb = a8.sb ∧ (emitAt a0 a1 a2 a3 a4 a5 a6 a7 a8).bc = a8.bc ∧
    (emitAt a0 a1 a2 a3 a4 a5 a6 a7 a8).jobs = a8.jobs ∧ (emitAt a0 a1 a2 a3 a4 a5 a6 a7 a8).mgt = a8.mgt ∧ (emitAt a0 a1 a2 a3 a4 a5 a6 a7 a8).cmd = a8.cmd ∧ (emitAt a0 a1 a2 a3 a4 a5 a6 a7 a8).prot = a8.prot ∧
    (emitAt a0 a1 a2 a3 a4 a5 a6 a7 a8).mem = a8.mem ∧ (emitAt a0 a1 a2 a3 a4 a5 a6 a7 a8).dma = a8.dma ∧ (emitAt a0 a1 a2 a3 a4 a5 a6 a7 a8).trc = a8.trc ∧ (emitAt a0 a1 a2 a3 a4 a5 a6 a7 a8).nid = a8.nid ∧
    (emitAt a0 a1 a2 a3 a4 a5 a6 a7 a8).boot = a8.boot ∧ (emitAt a0 a1 a2 a3 a4 a5 a6 a7 a8).img = a8.img ∧ (emitAt a0 a1 a2 a3 a4 a5 a6 a7 a8).reports = a8.reports ∧ (emitAt a0 a1 a2 a3 a4 a5 a6 a7 a8).posted = a8.posted ∧
    (emitAt a0 a1 a2 a3 a4 a5 a6 a7 a8).nvPosted = a8.nvPosted := by
  have k := (emitAt_only a0 a1 a2 a3 a4 a5 a6 a7 a8).keep
  exact ⟨k .free (by decide), k .sys (by decide), k .isl (by decide), k .time (by decide), k .regions (by decide), k .cells (by decide), k .hubc (by decide), k .res (by decide), k .dig (by decide), k .xs (by decide), k .ens (by decide), k .casc (by decide), k .age (by decide), k .fab (by decide), k .sb (by decide), k .bc (by decide), k .jobs (by decide), k .mgt (by decide), k .cmd (by decide), k .prot (by decide), k .mem (by decide), k .dma (by decide), k .trc (by decide), k .nid (by decide), k .boot (by decide), k .img (by decide), k .reports (by decide), k .ram (by decide), k .nvm (by decide)⟩

@[simp] theorem emit_keeps (a0 a1 a2 a3 a4 a5 a6 a7) :
    (emit a0 a1 a2 a3 a4 a5 a6 a7).free = a7.free ∧ (emit a0 a1 a2 a3 a4 a5 a6 a7).sys = a7.sys ∧ (emit a0 a1 a2 a3 a4 a5 a6 a7).isl = a7.isl ∧ (emit a0 a1 a2 a3 a4 a5 a6 a7).time = a7.time ∧
    (emit a0 a1 a2 a3 a4 a5 a6 a7).regions = a7.regions ∧ (emit a0 a1 a2 a3 a4 a5 a6 a7).cells = a7.cells ∧ (emit a0 a1 a2 a3 a4 a5 a6 a7).hubc = a7.hubc ∧ (emit a0 a1 a2 a3 a4 a5 a6 a7).res = a7.res ∧
    (emit a0 a1 a2 a3 a4 a5 a6 a7).dig = a7.dig ∧ (emit a0 a1 a2 a3 a4 a5 a6 a7).xs = a7.xs ∧ (emit a0 a1 a2 a3 a4 a5 a6 a7).ens = a7.ens ∧ (emit a0 a1 a2 a3 a4 a5 a6 a7).casc = a7.casc ∧
    (emit a0 a1 a2 a3 a4 a5 a6 a7).age = a7.age ∧ (emit a0 a1 a2 a3 a4 a5 a6 a7).fab = a7.fab ∧ (emit a0 a1 a2 a3 a4 a5 a6 a7).sb = a7.sb ∧ (emit a0 a1 a2 a3 a4 a5 a6 a7).bc = a7.bc ∧
    (emit a0 a1 a2 a3 a4 a5 a6 a7).jobs = a7.jobs ∧ (emit a0 a1 a2 a3 a4 a5 a6 a7).mgt = a7.mgt ∧ (emit a0 a1 a2 a3 a4 a5 a6 a7).cmd = a7.cmd ∧ (emit a0 a1 a2 a3 a4 a5 a6 a7).prot = a7.prot ∧
    (emit a0 a1 a2 a3 a4 a5 a6 a7).mem = a7.mem ∧ (emit a0 a1 a2 a3 a4 a5 a6 a7).dma = a7.dma ∧ (emit a0 a1 a2 a3 a4 a5 a6 a7).trc = a7.trc ∧ (emit a0 a1 a2 a3 a4 a5 a6 a7).nid = a7.nid ∧
    (emit a0 a1 a2 a3 a4 a5 a6 a7).boot = a7.boot ∧ (emit a0 a1 a2 a3 a4 a5 a6 a7).img = a7.img ∧ (emit a0 a1 a2 a3 a4 a5 a6 a7).reports = a7.reports ∧ (emit a0 a1 a2 a3 a4 a5 a6 a7).posted = a7.posted ∧
    (emit a0 a1 a2 a3 a4 a5 a6 a7).nvPosted = a7.nvPosted := by
  have k := (emit_only a0 a1 a2 a3 a4 a5 a6 a7).keep
  exact ⟨k .free (by decide), k .sys (by decide), k .isl (by decide), k .time (by decide), k .regions (by decide), k .cells (by decide), k .hubc (by decide), k .res (by decide), k .dig (by decide), k .xs (by decide), k .ens (by decide), k .casc (by decide), k .age (by decide), k .fab (by decide), k .sb (by decide), k .bc (by decide), k .jobs (by decide), k .mgt (by decide), k .cmd (by decide), k .prot (by decide), k .mem (by decide), k .dma (by decide), k .trc (by decide), k .nid (by decide), k .boot (by decide), k .img (by decide), k .reports (by decide), k .ram (by decide), k .nvm (by decide)⟩

@[simp] theorem emitUnit_keeps (a0 a1 a2 a3 a4) :
    (emitUnit a0 a1 a2 a3 a4).free = a4.free ∧ (emitUnit a0 a1 a2 a3 a4).sys = a4.sys ∧ (emitUnit a0 a1 a2 a3 a4).isl = a4.isl ∧ (emitUnit a0 a1 a2 a3 a4).time = a4.time ∧
    (emitUnit a0 a1 a2 a3 a4).regions = a4.regions ∧ (emitUnit a0 a1 a2 a3 a4).cells = a4.cells ∧ (emitUnit a0 a1 a2 a3 a4).hubc = a4.hubc ∧ (emitUnit a0 a1 a2 a3 a4).res = a4.res ∧
    (emitUnit a0 a1 a2 a3 a4).dig = a4.dig ∧ (emitUnit a0 a1 a2 a3 a4).xs = a4.xs ∧ (emitUnit a0 a1 a2 a3 a4).ens = a4.ens ∧ (emitUnit a0 a1 a2 a3 a4).casc = a4.casc ∧
    (emitUnit a0 a1 a2 a3 a4).age = a4.age ∧ (emitUnit a0 a1 a2 a3 a4).fab = a4.fab ∧ (emitUnit a0 a1 a2 a3 a4).sb = a4.sb ∧ (emitUnit a0 a1 a2 a3 a4).bc = a4.bc ∧
    (emitUnit a0 a1 a2 a3 a4).jobs = a4.jobs ∧ (emitUnit a0 a1 a2 a3 a4).mgt = a4.mgt ∧ (emitUnit a0 a1 a2 a3 a4).cmd = a4.cmd ∧ (emitUnit a0 a1 a2 a3 a4).prot = a4.prot ∧
    (emitUnit a0 a1 a2 a3 a4).mem = a4.mem ∧ (emitUnit a0 a1 a2 a3 a4).dma = a4.dma ∧ (emitUnit a0 a1 a2 a3 a4).trc = a4.trc ∧ (emitUnit a0 a1 a2 a3 a4).nid = a4.nid ∧
    (emitUnit a0 a1 a2 a3 a4).boot = a4.boot ∧ (emitUnit a0 a1 a2 a3 a4).img = a4.img ∧ (emitUnit a0 a1 a2 a3 a4).reports = a4.reports ∧ (emitUnit a0 a1 a2 a3 a4).posted = a4.posted ∧
    (emitUnit a0 a1 a2 a3 a4).nvPosted = a4.nvPosted := by
  have k := (emitUnit_only a0 a1 a2 a3 a4).keep
  exact ⟨k .free (by decide), k .sys (by decide), k .isl (by decide), k .time (by decide), k .regions (by decide), k .cells (by decide), k .hubc (by decide), k .res (by decide), k .dig (by decide), k .xs (by decide), k .ens (by decide), k .casc (by decide), k .age (by decide), k .fab (by decide), k .sb (by decide), k .bc (by decide), k .jobs (by decide), k .mgt (by decide), k .cmd (by decide), k .prot (by decide), k .mem (by decide), k .dma (by decide), k .trc (by decide), k .nid (by decide), k .boot (by decide), k .img (by decide), k .reports (by decide), k .ram (by decide), k .nvm (by decide)⟩

@[simp] theorem emitState_keeps (a0 a1 a2) :
    (emitState a0 a1 a2).free = a2.free ∧ (emitState a0 a1 a2).sys = a2.sys ∧ (emitState a0 a1 a2).isl = a2.isl ∧ (emitState a0 a1 a2).time = a2.time ∧
    (emitState a0 a1 a2).regions = a2.regions ∧ (emitState a0 a1 a2).cells = a2.cells ∧ (emitState a0 a1 a2).hubc = a2.hubc ∧ (emitState a0 a1 a2).res = a2.res ∧
    (emitState a0 a1 a2).dig = a2.dig ∧ (emitState a0 a1 a2).xs = a2.xs ∧ (emitState a0 a1 a2).ens = a2.ens ∧ (emitState a0 a1 a2).casc = a2.casc ∧
    (emitState a0 a1 a2).age = a2.age ∧ (emitState a0 a1 a2).fab = a2.fab ∧ (emitState a0 a1 a2).sb = a2.sb ∧ (emitState a0 a1 a2).bc = a2.bc ∧
    (emitState a0 a1 a2).jobs = a2.jobs ∧ (emitState a0 a1 a2).mgt = a2.mgt ∧ (emitState a0 a1 a2).cmd = a2.cmd ∧ (emitState a0 a1 a2).prot = a2.prot ∧
    (emitState a0 a1 a2).mem = a2.mem ∧ (emitState a0 a1 a2).dma = a2.dma ∧ (emitState a0 a1 a2).trc = a2.trc ∧ (emitState a0 a1 a2).nid = a2.nid ∧
    (emitState a0 a1 a2).boot = a2.boot ∧ (emitState a0 a1 a2).img = a2.img ∧ (emitState a0 a1 a2).reports = a2.reports ∧ (emitState a0 a1 a2).posted = a2.posted ∧
    (emitState a0 a1 a2).nvPosted = a2.nvPosted := by
  have k := (emitState_only a0 a1 a2).keep
  exact ⟨k .free (by decide), k .sys (by decide), k .isl (by decide), k .time (by decide), k .regions (by decide), k .cells (by decide), k .hubc (by decide), k .res (by decide), k .dig (by decide), k .xs (by decide), k .ens (by decide), k .casc (by decide), k .age (by decide), k .fab (by decide), k .sb (by decide), k .bc (by decide), k .jobs (by decide), k .mgt (by decide), k .cmd (by decide), k .prot (by decide), k .mem (by decide), k .dma (by decide), k .trc (by decide), k .nid (by decide), k .boot (by decide), k .img (by decide), k .reports (by decide), k .ram (by decide), k .nvm (by decide)⟩

@[simp] theorem ignoredWrite_keeps (a0 a1 a2 a3) :
    (ignoredWrite a0 a1 a2 a3).free = a3.free ∧ (ignoredWrite a0 a1 a2 a3).sys = a3.sys ∧ (ignoredWrite a0 a1 a2 a3).isl = a3.isl ∧ (ignoredWrite a0 a1 a2 a3).time = a3.time ∧
    (ignoredWrite a0 a1 a2 a3).regions = a3.regions ∧ (ignoredWrite a0 a1 a2 a3).cells = a3.cells ∧ (ignoredWrite a0 a1 a2 a3).hubc = a3.hubc ∧ (ignoredWrite a0 a1 a2 a3).res = a3.res ∧
    (ignoredWrite a0 a1 a2 a3).dig = a3.dig ∧ (ignoredWrite a0 a1 a2 a3).xs = a3.xs ∧ (ignoredWrite a0 a1 a2 a3).ens = a3.ens ∧ (ignoredWrite a0 a1 a2 a3).casc = a3.casc ∧
    (ignoredWrite a0 a1 a2 a3).age = a3.age ∧ (ignoredWrite a0 a1 a2 a3).fab = a3.fab ∧ (ignoredWrite a0 a1 a2 a3).sb = a3.sb ∧ (ignoredWrite a0 a1 a2 a3).bc = a3.bc ∧
    (ignoredWrite a0 a1 a2 a3).jobs = a3.jobs ∧ (ignoredWrite a0 a1 a2 a3).mgt = a3.mgt ∧ (ignoredWrite a0 a1 a2 a3).cmd = a3.cmd ∧ (ignoredWrite a0 a1 a2 a3).mem = a3.mem ∧
    (ignoredWrite a0 a1 a2 a3).dma = a3.dma ∧ (ignoredWrite a0 a1 a2 a3).trc = a3.trc ∧ (ignoredWrite a0 a1 a2 a3).nid = a3.nid ∧ (ignoredWrite a0 a1 a2 a3).boot = a3.boot ∧
    (ignoredWrite a0 a1 a2 a3).img = a3.img ∧ (ignoredWrite a0 a1 a2 a3).reports = a3.reports ∧ (ignoredWrite a0 a1 a2 a3).posted = a3.posted ∧ (ignoredWrite a0 a1 a2 a3).nvPosted = a3.nvPosted := by
  have k := (ignoredWrite_only a0 a1 a2 a3).keep
  exact ⟨k .free (by decide), k .sys (by decide), k .isl (by decide), k .time (by decide), k .regions (by decide), k .cells (by decide), k .hubc (by decide), k .res (by decide), k .dig (by decide), k .xs (by decide), k .ens (by decide), k .casc (by decide), k .age (by decide), k .fab (by decide), k .sb (by decide), k .bc (by decide), k .jobs (by decide), k .mgt (by decide), k .cmd (by decide), k .mem (by decide), k .dma (by decide), k .trc (by decide), k .nid (by decide), k .boot (by decide), k .img (by decide), k .reports (by decide), k .ram (by decide), k .nvm (by decide)⟩

@[simp] theorem refusedWrite_keeps (a0 a1 a2 a3) :
    (refusedWrite a0 a1 a2 a3).free = a3.free ∧ (refusedWrite a0 a1 a2 a3).sys = a3.sys ∧ (refusedWrite a0 a1 a2 a3).isl = a3.isl ∧ (refusedWrite a0 a1 a2 a3).time = a3.time ∧
    (refusedWrite a0 a1 a2 a3).regions = a3.regions ∧ (refusedWrite a0 a1 a2 a3).cells = a3.cells ∧ (refusedWrite a0 a1 a2 a3).hubc = a3.hubc ∧ (refusedWrite a0 a1 a2 a3).res = a3.res ∧
    (refusedWrite a0 a1 a2 a3).dig = a3.dig ∧ (refusedWrite a0 a1 a2 a3).xs = a3.xs ∧ (refusedWrite a0 a1 a2 a3).ens = a3.ens ∧ (refusedWrite a0 a1 a2 a3).casc = a3.casc ∧
    (refusedWrite a0 a1 a2 a3).age = a3.age ∧ (refusedWrite a0 a1 a2 a3).fab = a3.fab ∧ (refusedWrite a0 a1 a2 a3).sb = a3.sb ∧ (refusedWrite a0 a1 a2 a3).bc = a3.bc ∧
    (refusedWrite a0 a1 a2 a3).jobs = a3.jobs ∧ (refusedWrite a0 a1 a2 a3).mgt = a3.mgt ∧ (refusedWrite a0 a1 a2 a3).cmd = a3.cmd ∧ (refusedWrite a0 a1 a2 a3).prot = a3.prot ∧
    (refusedWrite a0 a1 a2 a3).mem = a3.mem ∧ (refusedWrite a0 a1 a2 a3).dma = a3.dma ∧ (refusedWrite a0 a1 a2 a3).trc = a3.trc ∧ (refusedWrite a0 a1 a2 a3).nid = a3.nid ∧
    (refusedWrite a0 a1 a2 a3).boot = a3.boot ∧ (refusedWrite a0 a1 a2 a3).img = a3.img ∧ (refusedWrite a0 a1 a2 a3).reports = a3.reports ∧ (refusedWrite a0 a1 a2 a3).posted = a3.posted ∧
    (refusedWrite a0 a1 a2 a3).nvPosted = a3.nvPosted := by
  have k := (refusedWrite_only a0 a1 a2 a3).keep
  exact ⟨k .free (by decide), k .sys (by decide), k .isl (by decide), k .time (by decide), k .regions (by decide), k .cells (by decide), k .hubc (by decide), k .res (by decide), k .dig (by decide), k .xs (by decide), k .ens (by decide), k .casc (by decide), k .age (by decide), k .fab (by decide), k .sb (by decide), k .bc (by decide), k .jobs (by decide), k .mgt (by decide), k .cmd (by decide), k .prot (by decide), k .mem (by decide), k .dma (by decide), k .trc (by decide), k .nid (by decide), k .boot (by decide), k .img (by decide), k .reports (by decide), k .ram (by decide), k .nvm (by decide)⟩

@[simp] theorem report_keeps (a0 a1 a2 a3 a4) :
    (report a0 a1 a2 a3 a4).free = a4.free ∧ (report a0 a1 a2 a3 a4).sys = a4.sys ∧ (report a0 a1 a2 a3 a4).isl = a4.isl ∧ (report a0 a1 a2 a3 a4).time = a4.time ∧
    (report a0 a1 a2 a3 a4).regions = a4.regions ∧ (report a0 a1 a2 a3 a4).cells = a4.cells ∧ (report a0 a1 a2 a3 a4).hubc = a4.hubc ∧ (report a0 a1 a2 a3 a4).res = a4.res ∧
    (report a0 a1 a2 a3 a4).dig = a4.dig ∧ (report a0 a1 a2 a3 a4).xs = a4.xs ∧ (report a0 a1 a2 a3 a4).ens = a4.ens ∧ (report a0 a1 a2 a3 a4).casc = a4.casc ∧
    (report a0 a1 a2 a3 a4).age = a4.age ∧ (report a0 a1 a2 a3 a4).fab = a4.fab ∧ (report a0 a1 a2 a3 a4).sb = a4.sb ∧ (report a0 a1 a2 a3 a4).bc = a4.bc ∧
    (report a0 a1 a2 a3 a4).jobs = a4.jobs ∧ (report a0 a1 a2 a3 a4).mgt = a4.mgt ∧ (report a0 a1 a2 a3 a4).cmd = a4.cmd ∧ (report a0 a1 a2 a3 a4).prot = a4.prot ∧
    (report a0 a1 a2 a3 a4).regs = a4.regs ∧ (report a0 a1 a2 a3 a4).mem = a4.mem ∧ (report a0 a1 a2 a3 a4).dma = a4.dma ∧ (report a0 a1 a2 a3 a4).trc = a4.trc ∧
    (report a0 a1 a2 a3 a4).nid = a4.nid ∧ (report a0 a1 a2 a3 a4).log = a4.log ∧ (report a0 a1 a2 a3 a4).boot = a4.boot ∧ (report a0 a1 a2 a3 a4).img = a4.img ∧
    (report a0 a1 a2 a3 a4).posted = a4.posted ∧ (report a0 a1 a2 a3 a4).nvPosted = a4.nvPosted := by
  have k := (report_only a0 a1 a2 a3 a4).keep
  exact ⟨k .free (by decide), k .sys (by decide), k .isl (by decide), k .time (by decide), k .regions (by decide), k .cells (by decide), k .hubc (by decide), k .res (by decide), k .dig (by decide), k .xs (by decide), k .ens (by decide), k .casc (by decide), k .age (by decide), k .fab (by decide), k .sb (by decide), k .bc (by decide), k .jobs (by decide), k .mgt (by decide), k .cmd (by decide), k .prot (by decide), k .regs (by decide), k .mem (by decide), k .dma (by decide), k .trc (by decide), k .nid (by decide), k .log (by decide), k .boot (by decide), k .img (by decide), k .ram (by decide), k .nvm (by decide)⟩

@[simp] theorem toState_keeps (a0 a1) :
    (toState a0 a1).free = a1.free ∧ (toState a0 a1).isl = a1.isl ∧ (toState a0 a1).time = a1.time ∧ (toState a0 a1).regions = a1.regions ∧
    (toState a0 a1).cells = a1.cells ∧ (toState a0 a1).hubc = a1.hubc ∧ (toState a0 a1).res = a1.res ∧ (toState a0 a1).dig = a1.dig ∧
    (toState a0 a1).xs = a1.xs ∧ (toState a0 a1).ens = a1.ens ∧ (toState a0 a1).casc = a1.casc ∧ (toState a0 a1).age = a1.age ∧
    (toState a0 a1).fab = a1.fab ∧ (toState a0 a1).sb = a1.sb ∧ (toState a0 a1).bc = a1.bc ∧ (toState a0 a1).jobs = a1.jobs ∧
    (toState a0 a1).mgt = a1.mgt ∧ (toState a0 a1).cmd = a1.cmd ∧ (toState a0 a1).prot = a1.prot ∧ (toState a0 a1).mem = a1.mem ∧
    (toState a0 a1).dma = a1.dma ∧ (toState a0 a1).trc = a1.trc ∧ (toState a0 a1).nid = a1.nid ∧ (toState a0 a1).boot = a1.boot ∧
    (toState a0 a1).img = a1.img ∧ (toState a0 a1).reports = a1.reports ∧ (toState a0 a1).posted = a1.posted ∧ (toState a0 a1).nvPosted = a1.nvPosted := by
  have k := (toState_only a0 a1).keep
  exact ⟨k .free (by decide), k .isl (by decide), k .time (by decide), k .regions (by decide), k .cells (by decide), k .hubc (by decide), k .res (by decide), k .dig (by decide), k .xs (by decide), k .ens (by decide), k .casc (by decide), k .age (by decide), k .fab (by decide), k .sb (by decide), k .bc (by decide), k .jobs (by decide), k .mgt (by decide), k .cmd (by decide), k .prot (by decide), k .mem (by decide), k .dma (by decide), k .trc (by decide), k .nid (by decide), k .boot (by decide), k .img (by decide), k .reports (by decide), k .ram (by decide), k .nvm (by decide)⟩

@[simp] theorem onRegion_keeps (a0 a1 a2) :
    (onRegion a0 a1 a2).free = a2.free ∧ (onRegion a0 a1 a2).sys = a2.sys ∧ (onRegion a0 a1 a2).isl = a2.isl ∧ (onRegion a0 a1 a2).time = a2.time ∧
    (onRegion a0 a1 a2).cells = a2.cells ∧ (onRegion a0 a1 a2).hubc = a2.hubc ∧ (onRegion a0 a1 a2).res = a2.res ∧ (onRegion a0 a1 a2).dig = a2.dig ∧
    (onRegion a0 a1 a2).xs = a2.xs ∧ (onRegion a0 a1 a2).ens = a2.ens ∧ (onRegion a0 a1 a2).casc = a2.casc ∧ (onRegion a0 a1 a2).age = a2.age ∧
    (onRegion a0 a1 a2).fab = a2.fab ∧ (onRegion a0 a1 a2).sb = a2.sb ∧ (onRegion a0 a1 a2).bc = a2.bc ∧ (onRegion a0 a1 a2).jobs = a2.jobs ∧
    (onRegion a0 a1 a2).mgt = a2.mgt ∧ (onRegion a0 a1 a2).cmd = a2.cmd ∧ (onRegion a0 a1 a2).prot = a2.prot ∧ (onRegion a0 a1 a2).regs = a2.regs ∧
    (onRegion a0 a1 a2).mem = a2.mem ∧ (onRegion a0 a1 a2).dma = a2.dma ∧ (onRegion a0 a1 a2).trc = a2.trc ∧ (onRegion a0 a1 a2).nid = a2.nid ∧
    (onRegion a0 a1 a2).log = a2.log ∧ (onRegion a0 a1 a2).boot = a2.boot ∧ (onRegion a0 a1 a2).img = a2.img ∧ (onRegion a0 a1 a2).reports = a2.reports ∧
    (onRegion a0 a1 a2).posted = a2.posted ∧ (onRegion a0 a1 a2).nvPosted = a2.nvPosted := by
  have k := (onRegion_only a0 a1 a2).keep
  exact ⟨k .free (by decide), k .sys (by decide), k .isl (by decide), k .time (by decide), k .cells (by decide), k .hubc (by decide), k .res (by decide), k .dig (by decide), k .xs (by decide), k .ens (by decide), k .casc (by decide), k .age (by decide), k .fab (by decide), k .sb (by decide), k .bc (by decide), k .jobs (by decide), k .mgt (by decide), k .cmd (by decide), k .prot (by decide), k .regs (by decide), k .mem (by decide), k .dma (by decide), k .trc (by decide), k .nid (by decide), k .log (by decide), k .boot (by decide), k .img (by decide), k .reports (by decide), k .ram (by decide), k .nvm (by decide)⟩

@[simp] theorem onCell_keeps (a0 a1 a2) :
    (onCell a0 a1 a2).free = a2.free ∧ (onCell a0 a1 a2).sys = a2.sys ∧ (onCell a0 a1 a2).isl = a2.isl ∧ (onCell a0 a1 a2).time = a2.time ∧
    (onCell a0 a1 a2).regions = a2.regions ∧ (onCell a0 a1 a2).hubc = a2.hubc ∧ (onCell a0 a1 a2).res = a2.res ∧ (onCell a0 a1 a2).dig = a2.dig ∧
    (onCell a0 a1 a2).xs = a2.xs ∧ (onCell a0 a1 a2).ens = a2.ens ∧ (onCell a0 a1 a2).casc = a2.casc ∧ (onCell a0 a1 a2).age = a2.age ∧
    (onCell a0 a1 a2).fab = a2.fab ∧ (onCell a0 a1 a2).sb = a2.sb ∧ (onCell a0 a1 a2).bc = a2.bc ∧ (onCell a0 a1 a2).jobs = a2.jobs ∧
    (onCell a0 a1 a2).mgt = a2.mgt ∧ (onCell a0 a1 a2).cmd = a2.cmd ∧ (onCell a0 a1 a2).prot = a2.prot ∧ (onCell a0 a1 a2).regs = a2.regs ∧
    (onCell a0 a1 a2).mem = a2.mem ∧ (onCell a0 a1 a2).dma = a2.dma ∧ (onCell a0 a1 a2).trc = a2.trc ∧ (onCell a0 a1 a2).nid = a2.nid ∧
    (onCell a0 a1 a2).log = a2.log ∧ (onCell a0 a1 a2).boot = a2.boot ∧ (onCell a0 a1 a2).img = a2.img ∧ (onCell a0 a1 a2).reports = a2.reports ∧
    (onCell a0 a1 a2).posted = a2.posted ∧ (onCell a0 a1 a2).nvPosted = a2.nvPosted := by
  have k := (onCell_only a0 a1 a2).keep
  exact ⟨k .free (by decide), k .sys (by decide), k .isl (by decide), k .time (by decide), k .regions (by decide), k .hubc (by decide), k .res (by decide), k .dig (by decide), k .xs (by decide), k .ens (by decide), k .casc (by decide), k .age (by decide), k .fab (by decide), k .sb (by decide), k .bc (by decide), k .jobs (by decide), k .mgt (by decide), k .cmd (by decide), k .prot (by decide), k .regs (by decide), k .mem (by decide), k .dma (by decide), k .trc (by decide), k .nid (by decide), k .log (by decide), k .boot (by decide), k .img (by decide), k .reports (by decide), k .ram (by decide), k .nvm (by decide)⟩

@[simp] theorem onHubc_keeps (a0 a1 a2) :
    (onHubc a0 a1 a2).free = a2.free ∧ (onHubc a0 a1 a2).sys = a2.sys ∧ (onHubc a0 a1 a2).isl = a2.isl ∧ (onHubc a0 a1 a2).time = a2.time ∧
    (onHubc a0 a1 a2).regions = a2.regions ∧ (onHubc a0 a1 a2).cells = a2.cells ∧ (onHubc a0 a1 a2).res = a2.res ∧ (onHubc a0 a1 a2).dig = a2.dig ∧
    (onHubc a0 a1 a2).xs = a2.xs ∧ (onHubc a0 a1 a2).ens = a2.ens ∧ (onHubc a0 a1 a2).casc = a2.casc ∧ (onHubc a0 a1 a2).age = a2.age ∧
    (onHubc a0 a1 a2).fab = a2.fab ∧ (onHubc a0 a1 a2).sb = a2.sb ∧ (onHubc a0 a1 a2).bc = a2.bc ∧ (onHubc a0 a1 a2).jobs = a2.jobs ∧
    (onHubc a0 a1 a2).mgt = a2.mgt ∧ (onHubc a0 a1 a2).cmd = a2.cmd ∧ (onHubc a0 a1 a2).prot = a2.prot ∧ (onHubc a0 a1 a2).regs = a2.regs ∧
    (onHubc a0 a1 a2).mem = a2.mem ∧ (onHubc a0 a1 a2).dma = a2.dma ∧ (onHubc a0 a1 a2).trc = a2.trc ∧ (onHubc a0 a1 a2).nid = a2.nid ∧
    (onHubc a0 a1 a2).log = a2.log ∧ (onHubc a0 a1 a2).boot = a2.boot ∧ (onHubc a0 a1 a2).img = a2.img ∧ (onHubc a0 a1 a2).reports = a2.reports ∧
    (onHubc a0 a1 a2).posted = a2.posted ∧ (onHubc a0 a1 a2).nvPosted = a2.nvPosted := by
  have k := (onHubc_only a0 a1 a2).keep
  exact ⟨k .free (by decide), k .sys (by decide), k .isl (by decide), k .time (by decide), k .regions (by decide), k .cells (by decide), k .res (by decide), k .dig (by decide), k .xs (by decide), k .ens (by decide), k .casc (by decide), k .age (by decide), k .fab (by decide), k .sb (by decide), k .bc (by decide), k .jobs (by decide), k .mgt (by decide), k .cmd (by decide), k .prot (by decide), k .regs (by decide), k .mem (by decide), k .dma (by decide), k .trc (by decide), k .nid (by decide), k .log (by decide), k .boot (by decide), k .img (by decide), k .reports (by decide), k .ram (by decide), k .nvm (by decide)⟩

@[simp] theorem onEnt_keeps (a0 a1 a2) :
    (onEnt a0 a1 a2).free = a2.free ∧ (onEnt a0 a1 a2).sys = a2.sys ∧ (onEnt a0 a1 a2).isl = a2.isl ∧ (onEnt a0 a1 a2).time = a2.time ∧
    (onEnt a0 a1 a2).regions = a2.regions ∧ (onEnt a0 a1 a2).cells = a2.cells ∧ (onEnt a0 a1 a2).hubc = a2.hubc ∧ (onEnt a0 a1 a2).res = a2.res ∧
    (onEnt a0 a1 a2).dig = a2.dig ∧ (onEnt a0 a1 a2).xs = a2.xs ∧ (onEnt a0 a1 a2).ens = a2.ens ∧ (onEnt a0 a1 a2).age = a2.age ∧
    (onEnt a0 a1 a2).fab = a2.fab ∧ (onEnt a0 a1 a2).sb = a2.sb ∧ (onEnt a0 a1 a2).bc = a2.bc ∧ (onEnt a0 a1 a2).jobs = a2.jobs ∧
    (onEnt a0 a1 a2).mgt = a2.mgt ∧ (onEnt a0 a1 a2).cmd = a2.cmd ∧ (onEnt a0 a1 a2).prot = a2.prot ∧ (onEnt a0 a1 a2).regs = a2.regs ∧
    (onEnt a0 a1 a2).mem = a2.mem ∧ (onEnt a0 a1 a2).dma = a2.dma ∧ (onEnt a0 a1 a2).trc = a2.trc ∧ (onEnt a0 a1 a2).nid = a2.nid ∧
    (onEnt a0 a1 a2).log = a2.log ∧ (onEnt a0 a1 a2).boot = a2.boot ∧ (onEnt a0 a1 a2).img = a2.img ∧ (onEnt a0 a1 a2).reports = a2.reports ∧
    (onEnt a0 a1 a2).posted = a2.posted ∧ (onEnt a0 a1 a2).nvPosted = a2.nvPosted := by
  have k := (onEnt_only a0 a1 a2).keep
  exact ⟨k .free (by decide), k .sys (by decide), k .isl (by decide), k .time (by decide), k .regions (by decide), k .cells (by decide), k .hubc (by decide), k .res (by decide), k .dig (by decide), k .xs (by decide), k .ens (by decide), k .age (by decide), k .fab (by decide), k .sb (by decide), k .bc (by decide), k .jobs (by decide), k .mgt (by decide), k .cmd (by decide), k .prot (by decide), k .regs (by decide), k .mem (by decide), k .dma (by decide), k .trc (by decide), k .nid (by decide), k .log (by decide), k .boot (by decide), k .img (by decide), k .reports (by decide), k .ram (by decide), k .nvm (by decide)⟩

@[simp] theorem countCore_keeps (a0 a1 a2 a3) :
    (countCore a0 a1 a2 a3).free = a2.free ∧ (countCore a0 a1 a2 a3).sys = a2.sys ∧ (countCore a0 a1 a2 a3).isl = a2.isl ∧ (countCore a0 a1 a2 a3).time = a2.time ∧
    (countCore a0 a1 a2 a3).regions = a2.regions ∧ (countCore a0 a1 a2 a3).cells = a2.cells ∧ (countCore a0 a1 a2 a3).res = a2.res ∧ (countCore a0 a1 a2 a3).dig = a2.dig ∧
    (countCore a0 a1 a2 a3).xs = a2.xs ∧ (countCore a0 a1 a2 a3).ens = a2.ens ∧ (countCore a0 a1 a2 a3).casc = a2.casc ∧ (countCore a0 a1 a2 a3).age = a2.age ∧
    (countCore a0 a1 a2 a3).fab = a2.fab ∧ (countCore a0 a1 a2 a3).sb = a2.sb ∧ (countCore a0 a1 a2 a3).bc = a2.bc ∧ (countCore a0 a1 a2 a3).jobs = a2.jobs ∧
    (countCore a0 a1 a2 a3).mgt = a2.mgt ∧ (countCore a0 a1 a2 a3).cmd = a2.cmd ∧ (countCore a0 a1 a2 a3).prot = a2.prot ∧ (countCore a0 a1 a2 a3).regs = a2.regs ∧
    (countCore a0 a1 a2 a3).mem = a2.mem ∧ (countCore a0 a1 a2 a3).dma = a2.dma ∧ (countCore a0 a1 a2 a3).trc = a2.trc ∧ (countCore a0 a1 a2 a3).nid = a2.nid ∧
    (countCore a0 a1 a2 a3).log = a2.log ∧ (countCore a0 a1 a2 a3).boot = a2.boot ∧ (countCore a0 a1 a2 a3).img = a2.img ∧ (countCore a0 a1 a2 a3).reports = a2.reports ∧
    (countCore a0 a1 a2 a3).posted = a2.posted ∧ (countCore a0 a1 a2 a3).nvPosted = a2.nvPosted := by
  have k := (countCore_only a0 a1 a2 a3).keep
  exact ⟨k .free (by decide), k .sys (by decide), k .isl (by decide), k .time (by decide), k .regions (by decide), k .cells (by decide), k .res (by decide), k .dig (by decide), k .xs (by decide), k .ens (by decide), k .casc (by decide), k .age (by decide), k .fab (by decide), k .sb (by decide), k .bc (by decide), k .jobs (by decide), k .mgt (by decide), k .cmd (by decide), k .prot (by decide), k .regs (by decide), k .mem (by decide), k .dma (by decide), k .trc (by decide), k .nid (by decide), k .log (by decide), k .boot (by decide), k .img (by decide), k .reports (by decide), k .ram (by decide), k .nvm (by decide)⟩

@[simp] theorem drawn_keeps (a0 a1) :
    (drawn a0 a1).sys = a0.sys ∧ (drawn a0 a1).isl = a0.isl ∧ (drawn a0 a1).time = a0.time ∧ (drawn a0 a1).regions = a0.regions ∧
    (drawn a0 a1).cells = a0.cells ∧ (drawn a0 a1).hubc = a0.hubc ∧ (drawn a0 a1).res = a0.res ∧ (drawn a0 a1).dig = a0.dig ∧
    (drawn a0 a1).xs = a0.xs ∧ (drawn a0 a1).ens = a0.ens ∧ (drawn a0 a1).casc = a0.casc ∧ (drawn a0 a1).age = a0.age ∧
    (drawn a0 a1).fab = a0.fab ∧ (drawn a0 a1).sb = a0.sb ∧ (drawn a0 a1).bc = a0.bc ∧ (drawn a0 a1).jobs = a0.jobs ∧
    (drawn a0 a1).mgt = a0.mgt ∧ (drawn a0 a1).cmd = a0.cmd ∧ (drawn a0 a1).prot = a0.prot ∧ (drawn a0 a1).regs = a0.regs ∧
    (drawn a0 a1).mem = a0.mem ∧ (drawn a0 a1).dma = a0.dma ∧ (drawn a0 a1).trc = a0.trc ∧ (drawn a0 a1).nid = a0.nid ∧
    (drawn a0 a1).log = a0.log ∧ (drawn a0 a1).boot = a0.boot ∧ (drawn a0 a1).img = a0.img ∧ (drawn a0 a1).reports = a0.reports ∧
    (drawn a0 a1).posted = a0.posted ∧ (drawn a0 a1).nvPosted = a0.nvPosted := by
  have k := (drawn_only a0 a1).keep
  exact ⟨k .sys (by decide), k .isl (by decide), k .time (by decide), k .regions (by decide), k .cells (by decide), k .hubc (by decide), k .res (by decide), k .dig (by decide), k .xs (by decide), k .ens (by decide), k .casc (by decide), k .age (by decide), k .fab (by decide), k .sb (by decide), k .bc (by decide), k .jobs (by decide), k .mgt (by decide), k .cmd (by decide), k .prot (by decide), k .regs (by decide), k .mem (by decide), k .dma (by decide), k .trc (by decide), k .nid (by decide), k .log (by decide), k .boot (by decide), k .img (by decide), k .reports (by decide), k .ram (by decide), k .nvm (by decide)⟩

@[simp] theorem onSys_keeps (a0 a1) :
    (onSys a0 a1).free = a1.free ∧ (onSys a0 a1).isl = a1.isl ∧ (onSys a0 a1).time = a1.time ∧ (onSys a0 a1).regions = a1.regions ∧
    (onSys a0 a1).cells = a1.cells ∧ (onSys a0 a1).hubc = a1.hubc ∧ (onSys a0 a1).res = a1.res ∧ (onSys a0 a1).dig = a1.dig ∧
    (onSys a0 a1).xs = a1.xs ∧ (onSys a0 a1).ens = a1.ens ∧ (onSys a0 a1).casc = a1.casc ∧ (onSys a0 a1).age = a1.age ∧
    (onSys a0 a1).fab = a1.fab ∧ (onSys a0 a1).sb = a1.sb ∧ (onSys a0 a1).bc = a1.bc ∧ (onSys a0 a1).jobs = a1.jobs ∧
    (onSys a0 a1).mgt = a1.mgt ∧ (onSys a0 a1).cmd = a1.cmd ∧ (onSys a0 a1).prot = a1.prot ∧ (onSys a0 a1).regs = a1.regs ∧
    (onSys a0 a1).mem = a1.mem ∧ (onSys a0 a1).dma = a1.dma ∧ (onSys a0 a1).trc = a1.trc ∧ (onSys a0 a1).nid = a1.nid ∧
    (onSys a0 a1).log = a1.log ∧ (onSys a0 a1).boot = a1.boot ∧ (onSys a0 a1).img = a1.img ∧ (onSys a0 a1).reports = a1.reports ∧
    (onSys a0 a1).posted = a1.posted ∧ (onSys a0 a1).nvPosted = a1.nvPosted := by
  have k := (onSys_only a0 a1).keep
  exact ⟨k .free (by decide), k .isl (by decide), k .time (by decide), k .regions (by decide), k .cells (by decide), k .hubc (by decide), k .res (by decide), k .dig (by decide), k .xs (by decide), k .ens (by decide), k .casc (by decide), k .age (by decide), k .fab (by decide), k .sb (by decide), k .bc (by decide), k .jobs (by decide), k .mgt (by decide), k .cmd (by decide), k .prot (by decide), k .regs (by decide), k .mem (by decide), k .dma (by decide), k .trc (by decide), k .nid (by decide), k .log (by decide), k .boot (by decide), k .img (by decide), k .reports (by decide), k .ram (by decide), k .nvm (by decide)⟩

@[simp] theorem onIsl_keeps (a0 a1) :
    (onIsl a0 a1).free = a1.free ∧ (onIsl a0 a1).sys = a1.sys ∧ (onIsl a0 a1).time = a1.time ∧ (onIsl a0 a1).regions = a1.regions ∧
    (onIsl a0 a1).cells = a1.cells ∧ (onIsl a0 a1).hubc = a1.hubc ∧ (onIsl a0 a1).res = a1.res ∧ (onIsl a0 a1).dig = a1.dig ∧
    (onIsl a0 a1).xs = a1.xs ∧ (onIsl a0 a1).ens = a1.ens ∧ (onIsl a0 a1).casc = a1.casc ∧ (onIsl a0 a1).age = a1.age ∧
    (onIsl a0 a1).fab = a1.fab ∧ (onIsl a0 a1).sb = a1.sb ∧ (onIsl a0 a1).bc = a1.bc ∧ (onIsl a0 a1).jobs = a1.jobs ∧
    (onIsl a0 a1).mgt = a1.mgt ∧ (onIsl a0 a1).cmd = a1.cmd ∧ (onIsl a0 a1).prot = a1.prot ∧ (onIsl a0 a1).regs = a1.regs ∧
    (onIsl a0 a1).mem = a1.mem ∧ (onIsl a0 a1).dma = a1.dma ∧ (onIsl a0 a1).trc = a1.trc ∧ (onIsl a0 a1).nid = a1.nid ∧
    (onIsl a0 a1).log = a1.log ∧ (onIsl a0 a1).boot = a1.boot ∧ (onIsl a0 a1).img = a1.img ∧ (onIsl a0 a1).reports = a1.reports ∧
    (onIsl a0 a1).posted = a1.posted ∧ (onIsl a0 a1).nvPosted = a1.nvPosted := by
  have k := (onIsl_only a0 a1).keep
  exact ⟨k .free (by decide), k .sys (by decide), k .time (by decide), k .regions (by decide), k .cells (by decide), k .hubc (by decide), k .res (by decide), k .dig (by decide), k .xs (by decide), k .ens (by decide), k .casc (by decide), k .age (by decide), k .fab (by decide), k .sb (by decide), k .bc (by decide), k .jobs (by decide), k .mgt (by decide), k .cmd (by decide), k .prot (by decide), k .regs (by decide), k .mem (by decide), k .dma (by decide), k .trc (by decide), k .nid (by decide), k .log (by decide), k .boot (by decide), k .img (by decide), k .reports (by decide), k .ram (by decide), k .nvm (by decide)⟩

@[simp] theorem onAge_keeps (a0 a1) :
    (onAge a0 a1).free = a1.free ∧ (onAge a0 a1).sys = a1.sys ∧ (onAge a0 a1).isl = a1.isl ∧ (onAge a0 a1).time = a1.time ∧
    (onAge a0 a1).regions = a1.regions ∧ (onAge a0 a1).cells = a1.cells ∧ (onAge a0 a1).hubc = a1.hubc ∧ (onAge a0 a1).res = a1.res ∧
    (onAge a0 a1).dig = a1.dig ∧ (onAge a0 a1).xs = a1.xs ∧ (onAge a0 a1).ens = a1.ens ∧ (onAge a0 a1).casc = a1.casc ∧
    (onAge a0 a1).fab = a1.fab ∧ (onAge a0 a1).sb = a1.sb ∧ (onAge a0 a1).bc = a1.bc ∧ (onAge a0 a1).jobs = a1.jobs ∧
    (onAge a0 a1).mgt = a1.mgt ∧ (onAge a0 a1).cmd = a1.cmd ∧ (onAge a0 a1).prot = a1.prot ∧ (onAge a0 a1).regs = a1.regs ∧
    (onAge a0 a1).mem = a1.mem ∧ (onAge a0 a1).dma = a1.dma ∧ (onAge a0 a1).trc = a1.trc ∧ (onAge a0 a1).nid = a1.nid ∧
    (onAge a0 a1).log = a1.log ∧ (onAge a0 a1).boot = a1.boot ∧ (onAge a0 a1).img = a1.img ∧ (onAge a0 a1).reports = a1.reports ∧
    (onAge a0 a1).posted = a1.posted ∧ (onAge a0 a1).nvPosted = a1.nvPosted := by
  have k := (onAge_only a0 a1).keep
  exact ⟨k .free (by decide), k .sys (by decide), k .isl (by decide), k .time (by decide), k .regions (by decide), k .cells (by decide), k .hubc (by decide), k .res (by decide), k .dig (by decide), k .xs (by decide), k .ens (by decide), k .casc (by decide), k .fab (by decide), k .sb (by decide), k .bc (by decide), k .jobs (by decide), k .mgt (by decide), k .cmd (by decide), k .prot (by decide), k .regs (by decide), k .mem (by decide), k .dma (by decide), k .trc (by decide), k .nid (by decide), k .log (by decide), k .boot (by decide), k .img (by decide), k .reports (by decide), k .ram (by decide), k .nvm (by decide)⟩

@[simp] theorem onZone_keeps (a0 a1 a2) :
    (onZone a0 a1 a2).free = a2.free ∧ (onZone a0 a1 a2).sys = a2.sys ∧ (onZone a0 a1 a2).isl = a2.isl ∧ (onZone a0 a1 a2).time = a2.time ∧
    (onZone a0 a1 a2).regions = a2.regions ∧ (onZone a0 a1 a2).cells = a2.cells ∧ (onZone a0 a1 a2).hubc = a2.hubc ∧ (onZone a0 a1 a2).res = a2.res ∧
    (onZone a0 a1 a2).dig = a2.dig ∧ (onZone a0 a1 a2).xs = a2.xs ∧ (onZone a0 a1 a2).ens = a2.ens ∧ (onZone a0 a1 a2).casc = a2.casc ∧
    (onZone a0 a1 a2).fab = a2.fab ∧ (onZone a0 a1 a2).sb = a2.sb ∧ (onZone a0 a1 a2).bc = a2.bc ∧ (onZone a0 a1 a2).jobs = a2.jobs ∧
    (onZone a0 a1 a2).mgt = a2.mgt ∧ (onZone a0 a1 a2).cmd = a2.cmd ∧ (onZone a0 a1 a2).prot = a2.prot ∧ (onZone a0 a1 a2).regs = a2.regs ∧
    (onZone a0 a1 a2).mem = a2.mem ∧ (onZone a0 a1 a2).dma = a2.dma ∧ (onZone a0 a1 a2).trc = a2.trc ∧ (onZone a0 a1 a2).nid = a2.nid ∧
    (onZone a0 a1 a2).log = a2.log ∧ (onZone a0 a1 a2).boot = a2.boot ∧ (onZone a0 a1 a2).img = a2.img ∧ (onZone a0 a1 a2).reports = a2.reports ∧
    (onZone a0 a1 a2).posted = a2.posted ∧ (onZone a0 a1 a2).nvPosted = a2.nvPosted := by
  have k := (onZone_only a0 a1 a2).keep
  exact ⟨k .free (by decide), k .sys (by decide), k .isl (by decide), k .time (by decide), k .regions (by decide), k .cells (by decide), k .hubc (by decide), k .res (by decide), k .dig (by decide), k .xs (by decide), k .ens (by decide), k .casc (by decide), k .fab (by decide), k .sb (by decide), k .bc (by decide), k .jobs (by decide), k .mgt (by decide), k .cmd (by decide), k .prot (by decide), k .regs (by decide), k .mem (by decide), k .dma (by decide), k .trc (by decide), k .nid (by decide), k .log (by decide), k .boot (by decide), k .img (by decide), k .reports (by decide), k .ram (by decide), k .nvm (by decide)⟩

@[simp] theorem onBc_keeps (a0 a1) :
    (onBc a0 a1).free = a1.free ∧ (onBc a0 a1).sys = a1.sys ∧ (onBc a0 a1).isl = a1.isl ∧ (onBc a0 a1).time = a1.time ∧
    (onBc a0 a1).regions = a1.regions ∧ (onBc a0 a1).cells = a1.cells ∧ (onBc a0 a1).hubc = a1.hubc ∧ (onBc a0 a1).res = a1.res ∧
    (onBc a0 a1).dig = a1.dig ∧ (onBc a0 a1).xs = a1.xs ∧ (onBc a0 a1).ens = a1.ens ∧ (onBc a0 a1).casc = a1.casc ∧
    (onBc a0 a1).age = a1.age ∧ (onBc a0 a1).fab = a1.fab ∧ (onBc a0 a1).sb = a1.sb ∧ (onBc a0 a1).jobs = a1.jobs ∧
    (onBc a0 a1).mgt = a1.mgt ∧ (onBc a0 a1).cmd = a1.cmd ∧ (onBc a0 a1).prot = a1.prot ∧ (onBc a0 a1).regs = a1.regs ∧
    (onBc a0 a1).mem = a1.mem ∧ (onBc a0 a1).dma = a1.dma ∧ (onBc a0 a1).trc = a1.trc ∧ (onBc a0 a1).nid = a1.nid ∧
    (onBc a0 a1).log = a1.log ∧ (onBc a0 a1).boot = a1.boot ∧ (onBc a0 a1).img = a1.img ∧ (onBc a0 a1).reports = a1.reports ∧
    (onBc a0 a1).posted = a1.posted ∧ (onBc a0 a1).nvPosted = a1.nvPosted := by
  have k := (onBc_only a0 a1).keep
  exact ⟨k .free (by decide), k .sys (by decide), k .isl (by decide), k .time (by decide), k .regions (by decide), k .cells (by decide), k .hubc (by decide), k .res (by decide), k .dig (by decide), k .xs (by decide), k .ens (by decide), k .casc (by decide), k .age (by decide), k .fab (by decide), k .sb (by decide), k .jobs (by decide), k .mgt (by decide), k .cmd (by decide), k .prot (by decide), k .regs (by decide), k .mem (by decide), k .dma (by decide), k .trc (by decide), k .nid (by decide), k .log (by decide), k .boot (by decide), k .img (by decide), k .reports (by decide), k .ram (by decide), k .nvm (by decide)⟩

@[simp] theorem onBoot_keeps (a0 a1) :
    (onBoot a0 a1).free = a1.free ∧ (onBoot a0 a1).sys = a1.sys ∧ (onBoot a0 a1).isl = a1.isl ∧ (onBoot a0 a1).time = a1.time ∧
    (onBoot a0 a1).regions = a1.regions ∧ (onBoot a0 a1).cells = a1.cells ∧ (onBoot a0 a1).hubc = a1.hubc ∧ (onBoot a0 a1).res = a1.res ∧
    (onBoot a0 a1).dig = a1.dig ∧ (onBoot a0 a1).xs = a1.xs ∧ (onBoot a0 a1).ens = a1.ens ∧ (onBoot a0 a1).casc = a1.casc ∧
    (onBoot a0 a1).age = a1.age ∧ (onBoot a0 a1).fab = a1.fab ∧ (onBoot a0 a1).sb = a1.sb ∧ (onBoot a0 a1).bc = a1.bc ∧
    (onBoot a0 a1).jobs = a1.jobs ∧ (onBoot a0 a1).mgt = a1.mgt ∧ (onBoot a0 a1).cmd = a1.cmd ∧ (onBoot a0 a1).prot = a1.prot ∧
    (onBoot a0 a1).regs = a1.regs ∧ (onBoot a0 a1).mem = a1.mem ∧ (onBoot a0 a1).dma = a1.dma ∧ (onBoot a0 a1).trc = a1.trc ∧
    (onBoot a0 a1).nid = a1.nid ∧ (onBoot a0 a1).log = a1.log ∧ (onBoot a0 a1).img = a1.img ∧ (onBoot a0 a1).reports = a1.reports ∧
    (onBoot a0 a1).posted = a1.posted ∧ (onBoot a0 a1).nvPosted = a1.nvPosted := by
  have k := (onBoot_only a0 a1).keep
  exact ⟨k .free (by decide), k .sys (by decide), k .isl (by decide), k .time (by decide), k .regions (by decide), k .cells (by decide), k .hubc (by decide), k .res (by decide), k .dig (by decide), k .xs (by decide), k .ens (by decide), k .casc (by decide), k .age (by decide), k .fab (by decide), k .sb (by decide), k .bc (by decide), k .jobs (by decide), k .mgt (by decide), k .cmd (by decide), k .prot (by decide), k .regs (by decide), k .mem (by decide), k .dma (by decide), k .trc (by decide), k .nid (by decide), k .log (by decide), k .img (by decide), k .reports (by decide), k .ram (by decide), k .nvm (by decide)⟩

@[simp] theorem onCasc_keeps (a0 a1) :
    (onCasc a0 a1).free = a1.free ∧ (onCasc a0 a1).sys = a1.sys ∧ (onCasc a0 a1).isl = a1.isl ∧ (onCasc a0 a1).time = a1.time ∧
    (onCasc a0 a1).regions = a1.regions ∧ (onCasc a0 a1).cells = a1.cells ∧ (onCasc a0 a1).hubc = a1.hubc ∧ (onCasc a0 a1).res = a1.res ∧
    (onCasc a0 a1).dig = a1.dig ∧ (onCasc a0 a1).xs = a1.xs ∧ (onCasc a0 a1).ens = a1.ens ∧ (onCasc a0 a1).age = a1.age ∧
    (onCasc a0 a1).fab = a1.fab ∧ (onCasc a0 a1).sb = a1.sb ∧ (onCasc a0 a1).bc = a1.bc ∧ (onCasc a0 a1).jobs = a1.jobs ∧
    (onCasc a0 a1).mgt = a1.mgt ∧ (onCasc a0 a1).cmd = a1.cmd ∧ (onCasc a0 a1).prot = a1.prot ∧ (onCasc a0 a1).regs = a1.regs ∧
    (onCasc a0 a1).mem = a1.mem ∧ (onCasc a0 a1).dma = a1.dma ∧ (onCasc a0 a1).trc = a1.trc ∧ (onCasc a0 a1).nid = a1.nid ∧
    (onCasc a0 a1).log = a1.log ∧ (onCasc a0 a1).boot = a1.boot ∧ (onCasc a0 a1).img = a1.img ∧ (onCasc a0 a1).reports = a1.reports ∧
    (onCasc a0 a1).posted = a1.posted ∧ (onCasc a0 a1).nvPosted = a1.nvPosted := by
  have k := (onCasc_only a0 a1).keep
  exact ⟨k .free (by decide), k .sys (by decide), k .isl (by decide), k .time (by decide), k .regions (by decide), k .cells (by decide), k .hubc (by decide), k .res (by decide), k .dig (by decide), k .xs (by decide), k .ens (by decide), k .age (by decide), k .fab (by decide), k .sb (by decide), k .bc (by decide), k .jobs (by decide), k .mgt (by decide), k .cmd (by decide), k .prot (by decide), k .regs (by decide), k .mem (by decide), k .dma (by decide), k .trc (by decide), k .nid (by decide), k .log (by decide), k .boot (by decide), k .img (by decide), k .reports (by decide), k .ram (by decide), k .nvm (by decide)⟩

@[simp] theorem onSeq_keeps (a0 a1 a2) :
    (onSeq a0 a1 a2).free = a2.free ∧ (onSeq a0 a1 a2).sys = a2.sys ∧ (onSeq a0 a1 a2).isl = a2.isl ∧ (onSeq a0 a1 a2).time = a2.time ∧
    (onSeq a0 a1 a2).regions = a2.regions ∧ (onSeq a0 a1 a2).cells = a2.cells ∧ (onSeq a0 a1 a2).hubc = a2.hubc ∧ (onSeq a0 a1 a2).res = a2.res ∧
    (onSeq a0 a1 a2).dig = a2.dig ∧ (onSeq a0 a1 a2).xs = a2.xs ∧ (onSeq a0 a1 a2).ens = a2.ens ∧ (onSeq a0 a1 a2).casc = a2.casc ∧
    (onSeq a0 a1 a2).age = a2.age ∧ (onSeq a0 a1 a2).fab = a2.fab ∧ (onSeq a0 a1 a2).sb = a2.sb ∧ (onSeq a0 a1 a2).bc = a2.bc ∧
    (onSeq a0 a1 a2).jobs = a2.jobs ∧ (onSeq a0 a1 a2).mgt = a2.mgt ∧ (onSeq a0 a1 a2).prot = a2.prot ∧ (onSeq a0 a1 a2).regs = a2.regs ∧
    (onSeq a0 a1 a2).mem = a2.mem ∧ (onSeq a0 a1 a2).dma = a2.dma ∧ (onSeq a0 a1 a2).trc = a2.trc ∧ (onSeq a0 a1 a2).nid = a2.nid ∧
    (onSeq a0 a1 a2).log = a2.log ∧ (onSeq a0 a1 a2).boot = a2.boot ∧ (onSeq a0 a1 a2).img = a2.img ∧ (onSeq a0 a1 a2).reports = a2.reports ∧
    (onSeq a0 a1 a2).posted = a2.posted ∧ (onSeq a0 a1 a2).nvPosted = a2.nvPosted := by
  have k := (onSeq_only a0 a1 a2).keep
  exact ⟨k .free (by decide), k .sys (by decide), k .isl (by decide), k .time (by decide), k .regions (by decide), k .cells (by decide), k .hubc (by decide), k .res (by decide), k .dig (by decide), k .xs (by decide), k .ens (by decide), k .casc (by decide), k .age (by decide), k .fab (by decide), k .sb (by decide), k .bc (by decide), k .jobs (by decide), k .mgt (by decide), k .prot (by decide), k .regs (by decide), k .mem (by decide), k .dma (by decide), k .trc (by decide), k .nid (by decide), k .log (by decide), k .boot (by decide), k .img (by decide), k .reports (by decide), k .ram (by decide), k .nvm (by decide)⟩

@[simp] theorem onDig_keeps (a0 a1) :
    (onDig a0 a1).free = a1.free ∧ (onDig a0 a1).sys = a1.sys ∧ (onDig a0 a1).isl = a1.isl ∧ (onDig a0 a1).time = a1.time ∧
    (onDig a0 a1).regions = a1.regions ∧ (onDig a0 a1).cells = a1.cells ∧ (onDig a0 a1).hubc = a1.hubc ∧ (onDig a0 a1).res = a1.res ∧
    (onDig a0 a1).xs = a1.xs ∧ (onDig a0 a1).ens = a1.ens ∧ (onDig a0 a1).casc = a1.casc ∧ (onDig a0 a1).age = a1.age ∧
    (onDig a0 a1).fab = a1.fab ∧ (onDig a0 a1).sb = a1.sb ∧ (onDig a0 a1).bc = a1.bc ∧ (onDig a0 a1).jobs = a1.jobs ∧
    (onDig a0 a1).mgt = a1.mgt ∧ (onDig a0 a1).cmd = a1.cmd ∧ (onDig a0 a1).prot = a1.prot ∧ (onDig a0 a1).regs = a1.regs ∧
    (onDig a0 a1).mem = a1.mem ∧ (onDig a0 a1).dma = a1.dma ∧ (onDig a0 a1).trc = a1.trc ∧ (onDig a0 a1).nid = a1.nid ∧
    (onDig a0 a1).log = a1.log ∧ (onDig a0 a1).boot = a1.boot ∧ (onDig a0 a1).img = a1.img ∧ (onDig a0 a1).reports = a1.reports ∧
    (onDig a0 a1).posted = a1.posted ∧ (onDig a0 a1).nvPosted = a1.nvPosted := by
  have k := (onDig_only a0 a1).keep
  exact ⟨k .free (by decide), k .sys (by decide), k .isl (by decide), k .time (by decide), k .regions (by decide), k .cells (by decide), k .hubc (by decide), k .res (by decide), k .xs (by decide), k .ens (by decide), k .casc (by decide), k .age (by decide), k .fab (by decide), k .sb (by decide), k .bc (by decide), k .jobs (by decide), k .mgt (by decide), k .cmd (by decide), k .prot (by decide), k .regs (by decide), k .mem (by decide), k .dma (by decide), k .trc (by decide), k .nid (by decide), k .log (by decide), k .boot (by decide), k .img (by decide), k .reports (by decide), k .ram (by decide), k .nvm (by decide)⟩

@[simp] theorem onPipe_keeps (a0 a1 a2) :
    (onPipe a0 a1 a2).free = a2.free ∧ (onPipe a0 a1 a2).sys = a2.sys ∧ (onPipe a0 a1 a2).isl = a2.isl ∧ (onPipe a0 a1 a2).time = a2.time ∧
    (onPipe a0 a1 a2).regions = a2.regions ∧ (onPipe a0 a1 a2).cells = a2.cells ∧ (onPipe a0 a1 a2).hubc = a2.hubc ∧ (onPipe a0 a1 a2).res = a2.res ∧
    (onPipe a0 a1 a2).xs = a2.xs ∧ (onPipe a0 a1 a2).ens = a2.ens ∧ (onPipe a0 a1 a2).casc = a2.casc ∧ (onPipe a0 a1 a2).age = a2.age ∧
    (onPipe a0 a1 a2).fab = a2.fab ∧ (onPipe a0 a1 a2).sb = a2.sb ∧ (onPipe a0 a1 a2).bc = a2.bc ∧ (onPipe a0 a1 a2).jobs = a2.jobs ∧
    (onPipe a0 a1 a2).mgt = a2.mgt ∧ (onPipe a0 a1 a2).cmd = a2.cmd ∧ (onPipe a0 a1 a2).prot = a2.prot ∧ (onPipe a0 a1 a2).regs = a2.regs ∧
    (onPipe a0 a1 a2).mem = a2.mem ∧ (onPipe a0 a1 a2).dma = a2.dma ∧ (onPipe a0 a1 a2).trc = a2.trc ∧ (onPipe a0 a1 a2).nid = a2.nid ∧
    (onPipe a0 a1 a2).log = a2.log ∧ (onPipe a0 a1 a2).boot = a2.boot ∧ (onPipe a0 a1 a2).img = a2.img ∧ (onPipe a0 a1 a2).reports = a2.reports ∧
    (onPipe a0 a1 a2).posted = a2.posted ∧ (onPipe a0 a1 a2).nvPosted = a2.nvPosted := by
  have k := (onPipe_only a0 a1 a2).keep
  exact ⟨k .free (by decide), k .sys (by decide), k .isl (by decide), k .time (by decide), k .regions (by decide), k .cells (by decide), k .hubc (by decide), k .res (by decide), k .xs (by decide), k .ens (by decide), k .casc (by decide), k .age (by decide), k .fab (by decide), k .sb (by decide), k .bc (by decide), k .jobs (by decide), k .mgt (by decide), k .cmd (by decide), k .prot (by decide), k .regs (by decide), k .mem (by decide), k .dma (by decide), k .trc (by decide), k .nid (by decide), k .log (by decide), k .boot (by decide), k .img (by decide), k .reports (by decide), k .ram (by decide), k .nvm (by decide)⟩

@[simp] theorem onEpoch_keeps (a0 a1 a2) :
    (onEpoch a0 a1 a2).free = a2.free ∧ (onEpoch a0 a1 a2).sys = a2.sys ∧ (onEpoch a0 a1 a2).isl = a2.isl ∧ (onEpoch a0 a1 a2).time = a2.time ∧
    (onEpoch a0 a1 a2).regions = a2.regions ∧ (onEpoch a0 a1 a2).cells = a2.cells ∧ (onEpoch a0 a1 a2).hubc = a2.hubc ∧ (onEpoch a0 a1 a2).res = a2.res ∧
    (onEpoch a0 a1 a2).xs = a2.xs ∧ (onEpoch a0 a1 a2).ens = a2.ens ∧ (onEpoch a0 a1 a2).casc = a2.casc ∧ (onEpoch a0 a1 a2).age = a2.age ∧
    (onEpoch a0 a1 a2).fab = a2.fab ∧ (onEpoch a0 a1 a2).sb = a2.sb ∧ (onEpoch a0 a1 a2).bc = a2.bc ∧ (onEpoch a0 a1 a2).jobs = a2.jobs ∧
    (onEpoch a0 a1 a2).mgt = a2.mgt ∧ (onEpoch a0 a1 a2).cmd = a2.cmd ∧ (onEpoch a0 a1 a2).prot = a2.prot ∧ (onEpoch a0 a1 a2).regs = a2.regs ∧
    (onEpoch a0 a1 a2).mem = a2.mem ∧ (onEpoch a0 a1 a2).dma = a2.dma ∧ (onEpoch a0 a1 a2).trc = a2.trc ∧ (onEpoch a0 a1 a2).nid = a2.nid ∧
    (onEpoch a0 a1 a2).log = a2.log ∧ (onEpoch a0 a1 a2).boot = a2.boot ∧ (onEpoch a0 a1 a2).img = a2.img ∧ (onEpoch a0 a1 a2).reports = a2.reports ∧
    (onEpoch a0 a1 a2).posted = a2.posted ∧ (onEpoch a0 a1 a2).nvPosted = a2.nvPosted := by
  have k := (onEpoch_only a0 a1 a2).keep
  exact ⟨k .free (by decide), k .sys (by decide), k .isl (by decide), k .time (by decide), k .regions (by decide), k .cells (by decide), k .hubc (by decide), k .res (by decide), k .xs (by decide), k .ens (by decide), k .casc (by decide), k .age (by decide), k .fab (by decide), k .sb (by decide), k .bc (by decide), k .jobs (by decide), k .mgt (by decide), k .cmd (by decide), k .prot (by decide), k .regs (by decide), k .mem (by decide), k .dma (by decide), k .trc (by decide), k .nid (by decide), k .log (by decide), k .boot (by decide), k .img (by decide), k .reports (by decide), k .ram (by decide), k .nvm (by decide)⟩

@[simp] theorem onMem_keeps (a0 a1) :
    (onMem a0 a1).free = a1.free ∧ (onMem a0 a1).sys = a1.sys ∧ (onMem a0 a1).isl = a1.isl ∧ (onMem a0 a1).time = a1.time ∧
    (onMem a0 a1).regions = a1.regions ∧ (onMem a0 a1).cells = a1.cells ∧ (onMem a0 a1).hubc = a1.hubc ∧ (onMem a0 a1).res = a1.res ∧
    (onMem a0 a1).dig = a1.dig ∧ (onMem a0 a1).xs = a1.xs ∧ (onMem a0 a1).ens = a1.ens ∧ (onMem a0 a1).casc = a1.casc ∧
    (onMem a0 a1).age = a1.age ∧ (onMem a0 a1).fab = a1.fab ∧ (onMem a0 a1).sb = a1.sb ∧ (onMem a0 a1).bc = a1.bc ∧
    (onMem a0 a1).jobs = a1.jobs ∧ (onMem a0 a1).mgt = a1.mgt ∧ (onMem a0 a1).cmd = a1.cmd ∧ (onMem a0 a1).prot = a1.prot ∧
    (onMem a0 a1).regs = a1.regs ∧ (onMem a0 a1).dma = a1.dma ∧ (onMem a0 a1).trc = a1.trc ∧ (onMem a0 a1).nid = a1.nid ∧
    (onMem a0 a1).log = a1.log ∧ (onMem a0 a1).boot = a1.boot ∧ (onMem a0 a1).img = a1.img ∧ (onMem a0 a1).reports = a1.reports ∧
    (onMem a0 a1).posted = a1.posted ∧ (onMem a0 a1).nvPosted = a1.nvPosted := by
  have k := (onMem_only a0 a1).keep
  exact ⟨k .free (by decide), k .sys (by decide), k .isl (by decide), k .time (by decide), k .regions (by decide), k .cells (by decide), k .hubc (by decide), k .res (by decide), k .dig (by decide), k .xs (by decide), k .ens (by decide), k .casc (by decide), k .age (by decide), k .fab (by decide), k .sb (by decide), k .bc (by decide), k .jobs (by decide), k .mgt (by decide), k .cmd (by decide), k .prot (by decide), k .regs (by decide), k .dma (by decide), k .trc (by decide), k .nid (by decide), k .log (by decide), k .boot (by decide), k .img (by decide), k .reports (by decide), k .ram (by decide), k .nvm (by decide)⟩

@[simp] theorem onDma_keeps (a0 a1) :
    (onDma a0 a1).free = a1.free ∧ (onDma a0 a1).sys = a1.sys ∧ (onDma a0 a1).isl = a1.isl ∧ (onDma a0 a1).time = a1.time ∧
    (onDma a0 a1).regions = a1.regions ∧ (onDma a0 a1).cells = a1.cells ∧ (onDma a0 a1).hubc = a1.hubc ∧ (onDma a0 a1).res = a1.res ∧
    (onDma a0 a1).dig = a1.dig ∧ (onDma a0 a1).xs = a1.xs ∧ (onDma a0 a1).ens = a1.ens ∧ (onDma a0 a1).casc = a1.casc ∧
    (onDma a0 a1).age = a1.age ∧ (onDma a0 a1).fab = a1.fab ∧ (onDma a0 a1).sb = a1.sb ∧ (onDma a0 a1).bc = a1.bc ∧
    (onDma a0 a1).jobs = a1.jobs ∧ (onDma a0 a1).mgt = a1.mgt ∧ (onDma a0 a1).cmd = a1.cmd ∧ (onDma a0 a1).prot = a1.prot ∧
    (onDma a0 a1).regs = a1.regs ∧ (onDma a0 a1).mem = a1.mem ∧ (onDma a0 a1).trc = a1.trc ∧ (onDma a0 a1).nid = a1.nid ∧
    (onDma a0 a1).log = a1.log ∧ (onDma a0 a1).boot = a1.boot ∧ (onDma a0 a1).img = a1.img ∧ (onDma a0 a1).reports = a1.reports ∧
    (onDma a0 a1).posted = a1.posted ∧ (onDma a0 a1).nvPosted = a1.nvPosted := by
  have k := (onDma_only a0 a1).keep
  exact ⟨k .free (by decide), k .sys (by decide), k .isl (by decide), k .time (by decide), k .regions (by decide), k .cells (by decide), k .hubc (by decide), k .res (by decide), k .dig (by decide), k .xs (by decide), k .ens (by decide), k .casc (by decide), k .age (by decide), k .fab (by decide), k .sb (by decide), k .bc (by decide), k .jobs (by decide), k .mgt (by decide), k .cmd (by decide), k .prot (by decide), k .regs (by decide), k .mem (by decide), k .trc (by decide), k .nid (by decide), k .log (by decide), k .boot (by decide), k .img (by decide), k .reports (by decide), k .ram (by decide), k .nvm (by decide)⟩

@[simp] theorem onDmaCh_keeps (a0 a1 a2) :
    (onDmaCh a0 a1 a2).free = a2.free ∧ (onDmaCh a0 a1 a2).sys = a2.sys ∧ (onDmaCh a0 a1 a2).isl = a2.isl ∧ (onDmaCh a0 a1 a2).time = a2.time ∧
    (onDmaCh a0 a1 a2).regions = a2.regions ∧ (onDmaCh a0 a1 a2).cells = a2.cells ∧ (onDmaCh a0 a1 a2).hubc = a2.hubc ∧ (onDmaCh a0 a1 a2).res = a2.res ∧
    (onDmaCh a0 a1 a2).dig = a2.dig ∧ (onDmaCh a0 a1 a2).xs = a2.xs ∧ (onDmaCh a0 a1 a2).ens = a2.ens ∧ (onDmaCh a0 a1 a2).casc = a2.casc ∧
    (onDmaCh a0 a1 a2).age = a2.age ∧ (onDmaCh a0 a1 a2).fab = a2.fab ∧ (onDmaCh a0 a1 a2).sb = a2.sb ∧ (onDmaCh a0 a1 a2).bc = a2.bc ∧
    (onDmaCh a0 a1 a2).jobs = a2.jobs ∧ (onDmaCh a0 a1 a2).mgt = a2.mgt ∧ (onDmaCh a0 a1 a2).cmd = a2.cmd ∧ (onDmaCh a0 a1 a2).prot = a2.prot ∧
    (onDmaCh a0 a1 a2).regs = a2.regs ∧ (onDmaCh a0 a1 a2).mem = a2.mem ∧ (onDmaCh a0 a1 a2).trc = a2.trc ∧ (onDmaCh a0 a1 a2).nid = a2.nid ∧
    (onDmaCh a0 a1 a2).log = a2.log ∧ (onDmaCh a0 a1 a2).boot = a2.boot ∧ (onDmaCh a0 a1 a2).img = a2.img ∧ (onDmaCh a0 a1 a2).reports = a2.reports ∧
    (onDmaCh a0 a1 a2).posted = a2.posted ∧ (onDmaCh a0 a1 a2).nvPosted = a2.nvPosted := by
  have k := (onDmaCh_only a0 a1 a2).keep
  exact ⟨k .free (by decide), k .sys (by decide), k .isl (by decide), k .time (by decide), k .regions (by decide), k .cells (by decide), k .hubc (by decide), k .res (by decide), k .dig (by decide), k .xs (by decide), k .ens (by decide), k .casc (by decide), k .age (by decide), k .fab (by decide), k .sb (by decide), k .bc (by decide), k .jobs (by decide), k .mgt (by decide), k .cmd (by decide), k .prot (by decide), k .regs (by decide), k .mem (by decide), k .trc (by decide), k .nid (by decide), k .log (by decide), k .boot (by decide), k .img (by decide), k .reports (by decide), k .ram (by decide), k .nvm (by decide)⟩

@[simp] theorem onEns_keeps (a0 a1) :
    (onEns a0 a1).free = a1.free ∧ (onEns a0 a1).sys = a1.sys ∧ (onEns a0 a1).isl = a1.isl ∧ (onEns a0 a1).time = a1.time ∧
    (onEns a0 a1).regions = a1.regions ∧ (onEns a0 a1).cells = a1.cells ∧ (onEns a0 a1).hubc = a1.hubc ∧ (onEns a0 a1).res = a1.res ∧
    (onEns a0 a1).dig = a1.dig ∧ (onEns a0 a1).xs = a1.xs ∧ (onEns a0 a1).casc = a1.casc ∧ (onEns a0 a1).age = a1.age ∧
    (onEns a0 a1).fab = a1.fab ∧ (onEns a0 a1).sb = a1.sb ∧ (onEns a0 a1).bc = a1.bc ∧ (onEns a0 a1).jobs = a1.jobs ∧
    (onEns a0 a1).mgt = a1.mgt ∧ (onEns a0 a1).cmd = a1.cmd ∧ (onEns a0 a1).prot = a1.prot ∧ (onEns a0 a1).regs = a1.regs ∧
    (onEns a0 a1).mem = a1.mem ∧ (onEns a0 a1).dma = a1.dma ∧ (onEns a0 a1).trc = a1.trc ∧ (onEns a0 a1).nid = a1.nid ∧
    (onEns a0 a1).log = a1.log ∧ (onEns a0 a1).boot = a1.boot ∧ (onEns a0 a1).img = a1.img ∧ (onEns a0 a1).reports = a1.reports ∧
    (onEns a0 a1).posted = a1.posted ∧ (onEns a0 a1).nvPosted = a1.nvPosted := by
  have k := (onEns_only a0 a1).keep
  exact ⟨k .free (by decide), k .sys (by decide), k .isl (by decide), k .time (by decide), k .regions (by decide), k .cells (by decide), k .hubc (by decide), k .res (by decide), k .dig (by decide), k .xs (by decide), k .casc (by decide), k .age (by decide), k .fab (by decide), k .sb (by decide), k .bc (by decide), k .jobs (by decide), k .mgt (by decide), k .cmd (by decide), k .prot (by decide), k .regs (by decide), k .mem (by decide), k .dma (by decide), k .trc (by decide), k .nid (by decide), k .log (by decide), k .boot (by decide), k .img (by decide), k .reports (by decide), k .ram (by decide), k .nvm (by decide)⟩

@[simp] theorem onSlot_keeps (a0 a1 a2) :
    (onSlot a0 a1 a2).free = a2.free ∧ (onSlot a0 a1 a2).sys = a2.sys ∧ (onSlot a0 a1 a2).isl = a2.isl ∧ (onSlot a0 a1 a2).time = a2.time ∧
    (onSlot a0 a1 a2).regions = a2.regions ∧ (onSlot a0 a1 a2).cells = a2.cells ∧ (onSlot a0 a1 a2).hubc = a2.hubc ∧ (onSlot a0 a1 a2).res = a2.res ∧
    (onSlot a0 a1 a2).dig = a2.dig ∧ (onSlot a0 a1 a2).xs = a2.xs ∧ (onSlot a0 a1 a2).casc = a2.casc ∧ (onSlot a0 a1 a2).age = a2.age ∧
    (onSlot a0 a1 a2).fab = a2.fab ∧ (onSlot a0 a1 a2).sb = a2.sb ∧ (onSlot a0 a1 a2).bc = a2.bc ∧ (onSlot a0 a1 a2).jobs = a2.jobs ∧
    (onSlot a0 a1 a2).mgt = a2.mgt ∧ (onSlot a0 a1 a2).cmd = a2.cmd ∧ (onSlot a0 a1 a2).prot = a2.prot ∧ (onSlot a0 a1 a2).regs = a2.regs ∧
    (onSlot a0 a1 a2).mem = a2.mem ∧ (onSlot a0 a1 a2).dma = a2.dma ∧ (onSlot a0 a1 a2).trc = a2.trc ∧ (onSlot a0 a1 a2).nid = a2.nid ∧
    (onSlot a0 a1 a2).log = a2.log ∧ (onSlot a0 a1 a2).boot = a2.boot ∧ (onSlot a0 a1 a2).img = a2.img ∧ (onSlot a0 a1 a2).reports = a2.reports ∧
    (onSlot a0 a1 a2).posted = a2.posted ∧ (onSlot a0 a1 a2).nvPosted = a2.nvPosted := by
  have k := (onSlot_only a0 a1 a2).keep
  exact ⟨k .free (by decide), k .sys (by decide), k .isl (by decide), k .time (by decide), k .regions (by decide), k .cells (by decide), k .hubc (by decide), k .res (by decide), k .dig (by decide), k .xs (by decide), k .casc (by decide), k .age (by decide), k .fab (by decide), k .sb (by decide), k .bc (by decide), k .jobs (by decide), k .mgt (by decide), k .cmd (by decide), k .prot (by decide), k .regs (by decide), k .mem (by decide), k .dma (by decide), k .trc (by decide), k .nid (by decide), k .log (by decide), k .boot (by decide), k .img (by decide), k .reports (by decide), k .ram (by decide), k .nvm (by decide)⟩

@[simp] theorem onPass_keeps (a0 a1 a2) :
    (onPass a0 a1 a2).free = a2.free ∧ (onPass a0 a1 a2).sys = a2.sys ∧ (onPass a0 a1 a2).isl = a2.isl ∧ (onPass a0 a1 a2).time = a2.time ∧
    (onPass a0 a1 a2).regions = a2.regions ∧ (onPass a0 a1 a2).cells = a2.cells ∧ (onPass a0 a1 a2).hubc = a2.hubc ∧ (onPass a0 a1 a2).res = a2.res ∧
    (onPass a0 a1 a2).dig = a2.dig ∧ (onPass a0 a1 a2).xs = a2.xs ∧ (onPass a0 a1 a2).casc = a2.casc ∧ (onPass a0 a1 a2).age = a2.age ∧
    (onPass a0 a1 a2).fab = a2.fab ∧ (onPass a0 a1 a2).sb = a2.sb ∧ (onPass a0 a1 a2).bc = a2.bc ∧ (onPass a0 a1 a2).jobs = a2.jobs ∧
    (onPass a0 a1 a2).mgt = a2.mgt ∧ (onPass a0 a1 a2).cmd = a2.cmd ∧ (onPass a0 a1 a2).prot = a2.prot ∧ (onPass a0 a1 a2).regs = a2.regs ∧
    (onPass a0 a1 a2).mem = a2.mem ∧ (onPass a0 a1 a2).dma = a2.dma ∧ (onPass a0 a1 a2).trc = a2.trc ∧ (onPass a0 a1 a2).nid = a2.nid ∧
    (onPass a0 a1 a2).log = a2.log ∧ (onPass a0 a1 a2).boot = a2.boot ∧ (onPass a0 a1 a2).img = a2.img ∧ (onPass a0 a1 a2).reports = a2.reports ∧
    (onPass a0 a1 a2).posted = a2.posted ∧ (onPass a0 a1 a2).nvPosted = a2.nvPosted := by
  have k := (onPass_only a0 a1 a2).keep
  exact ⟨k .free (by decide), k .sys (by decide), k .isl (by decide), k .time (by decide), k .regions (by decide), k .cells (by decide), k .hubc (by decide), k .res (by decide), k .dig (by decide), k .xs (by decide), k .casc (by decide), k .age (by decide), k .fab (by decide), k .sb (by decide), k .bc (by decide), k .jobs (by decide), k .mgt (by decide), k .cmd (by decide), k .prot (by decide), k .regs (by decide), k .mem (by decide), k .dma (by decide), k .trc (by decide), k .nid (by decide), k .log (by decide), k .boot (by decide), k .img (by decide), k .reports (by decide), k .ram (by decide), k .nvm (by decide)⟩

@[simp] theorem onChan_keeps (a0 a1 a2) :
    (onChan a0 a1 a2).free = a2.free ∧ (onChan a0 a1 a2).sys = a2.sys ∧ (onChan a0 a1 a2).isl = a2.isl ∧ (onChan a0 a1 a2).time = a2.time ∧
    (onChan a0 a1 a2).regions = a2.regions ∧ (onChan a0 a1 a2).cells = a2.cells ∧ (onChan a0 a1 a2).hubc = a2.hubc ∧ (onChan a0 a1 a2).res = a2.res ∧
    (onChan a0 a1 a2).dig = a2.dig ∧ (onChan a0 a1 a2).xs = a2.xs ∧ (onChan a0 a1 a2).ens = a2.ens ∧ (onChan a0 a1 a2).casc = a2.casc ∧
    (onChan a0 a1 a2).age = a2.age ∧ (onChan a0 a1 a2).fab = a2.fab ∧ (onChan a0 a1 a2).sb = a2.sb ∧ (onChan a0 a1 a2).bc = a2.bc ∧
    (onChan a0 a1 a2).jobs = a2.jobs ∧ (onChan a0 a1 a2).mgt = a2.mgt ∧ (onChan a0 a1 a2).prot = a2.prot ∧ (onChan a0 a1 a2).regs = a2.regs ∧
    (onChan a0 a1 a2).mem = a2.mem ∧ (onChan a0 a1 a2).dma = a2.dma ∧ (onChan a0 a1 a2).trc = a2.trc ∧ (onChan a0 a1 a2).nid = a2.nid ∧
    (onChan a0 a1 a2).log = a2.log ∧ (onChan a0 a1 a2).boot = a2.boot ∧ (onChan a0 a1 a2).img = a2.img ∧ (onChan a0 a1 a2).reports = a2.reports ∧
    (onChan a0 a1 a2).posted = a2.posted ∧ (onChan a0 a1 a2).nvPosted = a2.nvPosted := by
  have k := (onChan_only a0 a1 a2).keep
  exact ⟨k .free (by decide), k .sys (by decide), k .isl (by decide), k .time (by decide), k .regions (by decide), k .cells (by decide), k .hubc (by decide), k .res (by decide), k .dig (by decide), k .xs (by decide), k .ens (by decide), k .casc (by decide), k .age (by decide), k .fab (by decide), k .sb (by decide), k .bc (by decide), k .jobs (by decide), k .mgt (by decide), k .prot (by decide), k .regs (by decide), k .mem (by decide), k .dma (by decide), k .trc (by decide), k .nid (by decide), k .log (by decide), k .boot (by decide), k .img (by decide), k .reports (by decide), k .ram (by decide), k .nvm (by decide)⟩

@[simp] theorem onLane_keeps (a0 a1 a2) :
    (onLane a0 a1 a2).free = a2.free ∧ (onLane a0 a1 a2).sys = a2.sys ∧ (onLane a0 a1 a2).isl = a2.isl ∧ (onLane a0 a1 a2).time = a2.time ∧
    (onLane a0 a1 a2).regions = a2.regions ∧ (onLane a0 a1 a2).hubc = a2.hubc ∧ (onLane a0 a1 a2).res = a2.res ∧ (onLane a0 a1 a2).dig = a2.dig ∧
    (onLane a0 a1 a2).xs = a2.xs ∧ (onLane a0 a1 a2).ens = a2.ens ∧ (onLane a0 a1 a2).casc = a2.casc ∧ (onLane a0 a1 a2).age = a2.age ∧
    (onLane a0 a1 a2).fab = a2.fab ∧ (onLane a0 a1 a2).sb = a2.sb ∧ (onLane a0 a1 a2).bc = a2.bc ∧ (onLane a0 a1 a2).jobs = a2.jobs ∧
    (onLane a0 a1 a2).mgt = a2.mgt ∧ (onLane a0 a1 a2).cmd = a2.cmd ∧ (onLane a0 a1 a2).prot = a2.prot ∧ (onLane a0 a1 a2).regs = a2.regs ∧
    (onLane a0 a1 a2).mem = a2.mem ∧ (onLane a0 a1 a2).dma = a2.dma ∧ (onLane a0 a1 a2).trc = a2.trc ∧ (onLane a0 a1 a2).nid = a2.nid ∧
    (onLane a0 a1 a2).log = a2.log ∧ (onLane a0 a1 a2).boot = a2.boot ∧ (onLane a0 a1 a2).img = a2.img ∧ (onLane a0 a1 a2).reports = a2.reports ∧
    (onLane a0 a1 a2).posted = a2.posted ∧ (onLane a0 a1 a2).nvPosted = a2.nvPosted := by
  have k := (onLane_only a0 a1 a2).keep
  exact ⟨k .free (by decide), k .sys (by decide), k .isl (by decide), k .time (by decide), k .regions (by decide), k .hubc (by decide), k .res (by decide), k .dig (by decide), k .xs (by decide), k .ens (by decide), k .casc (by decide), k .age (by decide), k .fab (by decide), k .sb (by decide), k .bc (by decide), k .jobs (by decide), k .mgt (by decide), k .cmd (by decide), k .prot (by decide), k .regs (by decide), k .mem (by decide), k .dma (by decide), k .trc (by decide), k .nid (by decide), k .log (by decide), k .boot (by decide), k .img (by decide), k .reports (by decide), k .ram (by decide), k .nvm (by decide)⟩

@[simp] theorem onMgt_keeps (a0 a1) :
    (onMgt a0 a1).free = a1.free ∧ (onMgt a0 a1).sys = a1.sys ∧ (onMgt a0 a1).isl = a1.isl ∧ (onMgt a0 a1).time = a1.time ∧
    (onMgt a0 a1).regions = a1.regions ∧ (onMgt a0 a1).cells = a1.cells ∧ (onMgt a0 a1).hubc = a1.hubc ∧ (onMgt a0 a1).res = a1.res ∧
    (onMgt a0 a1).dig = a1.dig ∧ (onMgt a0 a1).xs = a1.xs ∧ (onMgt a0 a1).ens = a1.ens ∧ (onMgt a0 a1).casc = a1.casc ∧
    (onMgt a0 a1).age = a1.age ∧ (onMgt a0 a1).fab = a1.fab ∧ (onMgt a0 a1).sb = a1.sb ∧ (onMgt a0 a1).bc = a1.bc ∧
    (onMgt a0 a1).jobs = a1.jobs ∧ (onMgt a0 a1).cmd = a1.cmd ∧ (onMgt a0 a1).prot = a1.prot ∧ (onMgt a0 a1).regs = a1.regs ∧
    (onMgt a0 a1).mem = a1.mem ∧ (onMgt a0 a1).dma = a1.dma ∧ (onMgt a0 a1).trc = a1.trc ∧ (onMgt a0 a1).nid = a1.nid ∧
    (onMgt a0 a1).log = a1.log ∧ (onMgt a0 a1).boot = a1.boot ∧ (onMgt a0 a1).img = a1.img ∧ (onMgt a0 a1).reports = a1.reports ∧
    (onMgt a0 a1).posted = a1.posted ∧ (onMgt a0 a1).nvPosted = a1.nvPosted := by
  have k := (onMgt_only a0 a1).keep
  exact ⟨k .free (by decide), k .sys (by decide), k .isl (by decide), k .time (by decide), k .regions (by decide), k .cells (by decide), k .hubc (by decide), k .res (by decide), k .dig (by decide), k .xs (by decide), k .ens (by decide), k .casc (by decide), k .age (by decide), k .fab (by decide), k .sb (by decide), k .bc (by decide), k .jobs (by decide), k .cmd (by decide), k .prot (by decide), k .regs (by decide), k .mem (by decide), k .dma (by decide), k .trc (by decide), k .nid (by decide), k .log (by decide), k .boot (by decide), k .img (by decide), k .reports (by decide), k .ram (by decide), k .nvm (by decide)⟩

@[simp] theorem onSeg_keeps (a0 a1 a2) :
    (onSeg a0 a1 a2).free = a2.free ∧ (onSeg a0 a1 a2).sys = a2.sys ∧ (onSeg a0 a1 a2).isl = a2.isl ∧ (onSeg a0 a1 a2).time = a2.time ∧
    (onSeg a0 a1 a2).regions = a2.regions ∧ (onSeg a0 a1 a2).cells = a2.cells ∧ (onSeg a0 a1 a2).hubc = a2.hubc ∧ (onSeg a0 a1 a2).res = a2.res ∧
    (onSeg a0 a1 a2).dig = a2.dig ∧ (onSeg a0 a1 a2).xs = a2.xs ∧ (onSeg a0 a1 a2).ens = a2.ens ∧ (onSeg a0 a1 a2).casc = a2.casc ∧
    (onSeg a0 a1 a2).age = a2.age ∧ (onSeg a0 a1 a2).fab = a2.fab ∧ (onSeg a0 a1 a2).sb = a2.sb ∧ (onSeg a0 a1 a2).bc = a2.bc ∧
    (onSeg a0 a1 a2).jobs = a2.jobs ∧ (onSeg a0 a1 a2).cmd = a2.cmd ∧ (onSeg a0 a1 a2).prot = a2.prot ∧ (onSeg a0 a1 a2).regs = a2.regs ∧
    (onSeg a0 a1 a2).mem = a2.mem ∧ (onSeg a0 a1 a2).dma = a2.dma ∧ (onSeg a0 a1 a2).trc = a2.trc ∧ (onSeg a0 a1 a2).nid = a2.nid ∧
    (onSeg a0 a1 a2).log = a2.log ∧ (onSeg a0 a1 a2).boot = a2.boot ∧ (onSeg a0 a1 a2).img = a2.img ∧ (onSeg a0 a1 a2).reports = a2.reports ∧
    (onSeg a0 a1 a2).posted = a2.posted ∧ (onSeg a0 a1 a2).nvPosted = a2.nvPosted := by
  have k := (onSeg_only a0 a1 a2).keep
  exact ⟨k .free (by decide), k .sys (by decide), k .isl (by decide), k .time (by decide), k .regions (by decide), k .cells (by decide), k .hubc (by decide), k .res (by decide), k .dig (by decide), k .xs (by decide), k .ens (by decide), k .casc (by decide), k .age (by decide), k .fab (by decide), k .sb (by decide), k .bc (by decide), k .jobs (by decide), k .cmd (by decide), k .prot (by decide), k .regs (by decide), k .mem (by decide), k .dma (by decide), k .trc (by decide), k .nid (by decide), k .log (by decide), k .boot (by decide), k .img (by decide), k .reports (by decide), k .ram (by decide), k .nvm (by decide)⟩

@[simp] theorem onPort_keeps (a0 a1 a2) :
    (onPort a0 a1 a2).free = a2.free ∧ (onPort a0 a1 a2).sys = a2.sys ∧ (onPort a0 a1 a2).isl = a2.isl ∧ (onPort a0 a1 a2).time = a2.time ∧
    (onPort a0 a1 a2).regions = a2.regions ∧ (onPort a0 a1 a2).cells = a2.cells ∧ (onPort a0 a1 a2).hubc = a2.hubc ∧ (onPort a0 a1 a2).res = a2.res ∧
    (onPort a0 a1 a2).dig = a2.dig ∧ (onPort a0 a1 a2).xs = a2.xs ∧ (onPort a0 a1 a2).ens = a2.ens ∧ (onPort a0 a1 a2).casc = a2.casc ∧
    (onPort a0 a1 a2).age = a2.age ∧ (onPort a0 a1 a2).fab = a2.fab ∧ (onPort a0 a1 a2).bc = a2.bc ∧ (onPort a0 a1 a2).jobs = a2.jobs ∧
    (onPort a0 a1 a2).mgt = a2.mgt ∧ (onPort a0 a1 a2).cmd = a2.cmd ∧ (onPort a0 a1 a2).prot = a2.prot ∧ (onPort a0 a1 a2).regs = a2.regs ∧
    (onPort a0 a1 a2).mem = a2.mem ∧ (onPort a0 a1 a2).dma = a2.dma ∧ (onPort a0 a1 a2).trc = a2.trc ∧ (onPort a0 a1 a2).nid = a2.nid ∧
    (onPort a0 a1 a2).log = a2.log ∧ (onPort a0 a1 a2).boot = a2.boot ∧ (onPort a0 a1 a2).img = a2.img ∧ (onPort a0 a1 a2).reports = a2.reports ∧
    (onPort a0 a1 a2).posted = a2.posted ∧ (onPort a0 a1 a2).nvPosted = a2.nvPosted := by
  have k := (onPort_only a0 a1 a2).keep
  exact ⟨k .free (by decide), k .sys (by decide), k .isl (by decide), k .time (by decide), k .regions (by decide), k .cells (by decide), k .hubc (by decide), k .res (by decide), k .dig (by decide), k .xs (by decide), k .ens (by decide), k .casc (by decide), k .age (by decide), k .fab (by decide), k .bc (by decide), k .jobs (by decide), k .mgt (by decide), k .cmd (by decide), k .prot (by decide), k .regs (by decide), k .mem (by decide), k .dma (by decide), k .trc (by decide), k .nid (by decide), k .log (by decide), k .boot (by decide), k .img (by decide), k .reports (by decide), k .ram (by decide), k .nvm (by decide)⟩

@[simp] theorem onMember_keeps (a0 a1 a2) :
    (onMember a0 a1 a2).free = a2.free ∧ (onMember a0 a1 a2).sys = a2.sys ∧ (onMember a0 a1 a2).isl = a2.isl ∧ (onMember a0 a1 a2).time = a2.time ∧
    (onMember a0 a1 a2).regions = a2.regions ∧ (onMember a0 a1 a2).cells = a2.cells ∧ (onMember a0 a1 a2).hubc = a2.hubc ∧ (onMember a0 a1 a2).res = a2.res ∧
    (onMember a0 a1 a2).dig = a2.dig ∧ (onMember a0 a1 a2).xs = a2.xs ∧ (onMember a0 a1 a2).ens = a2.ens ∧ (onMember a0 a1 a2).casc = a2.casc ∧
    (onMember a0 a1 a2).age = a2.age ∧ (onMember a0 a1 a2).fab = a2.fab ∧ (onMember a0 a1 a2).bc = a2.bc ∧ (onMember a0 a1 a2).jobs = a2.jobs ∧
    (onMember a0 a1 a2).mgt = a2.mgt ∧ (onMember a0 a1 a2).cmd = a2.cmd ∧ (onMember a0 a1 a2).prot = a2.prot ∧ (onMember a0 a1 a2).regs = a2.regs ∧
    (onMember a0 a1 a2).mem = a2.mem ∧ (onMember a0 a1 a2).dma = a2.dma ∧ (onMember a0 a1 a2).trc = a2.trc ∧ (onMember a0 a1 a2).nid = a2.nid ∧
    (onMember a0 a1 a2).log = a2.log ∧ (onMember a0 a1 a2).boot = a2.boot ∧ (onMember a0 a1 a2).img = a2.img ∧ (onMember a0 a1 a2).reports = a2.reports ∧
    (onMember a0 a1 a2).posted = a2.posted ∧ (onMember a0 a1 a2).nvPosted = a2.nvPosted := by
  have k := (onMember_only a0 a1 a2).keep
  exact ⟨k .free (by decide), k .sys (by decide), k .isl (by decide), k .time (by decide), k .regions (by decide), k .cells (by decide), k .hubc (by decide), k .res (by decide), k .dig (by decide), k .xs (by decide), k .ens (by decide), k .casc (by decide), k .age (by decide), k .fab (by decide), k .bc (by decide), k .jobs (by decide), k .mgt (by decide), k .cmd (by decide), k .prot (by decide), k .regs (by decide), k .mem (by decide), k .dma (by decide), k .trc (by decide), k .nid (by decide), k .log (by decide), k .boot (by decide), k .img (by decide), k .reports (by decide), k .ram (by decide), k .nvm (by decide)⟩

@[simp] theorem onLog_keeps (a0 a1) :
    (onLog a0 a1).free = a1.free ∧ (onLog a0 a1).sys = a1.sys ∧ (onLog a0 a1).isl = a1.isl ∧ (onLog a0 a1).time = a1.time ∧
    (onLog a0 a1).regions = a1.regions ∧ (onLog a0 a1).cells = a1.cells ∧ (onLog a0 a1).hubc = a1.hubc ∧ (onLog a0 a1).res = a1.res ∧
    (onLog a0 a1).dig = a1.dig ∧ (onLog a0 a1).xs = a1.xs ∧ (onLog a0 a1).ens = a1.ens ∧ (onLog a0 a1).casc = a1.casc ∧
    (onLog a0 a1).age = a1.age ∧ (onLog a0 a1).fab = a1.fab ∧ (onLog a0 a1).sb = a1.sb ∧ (onLog a0 a1).bc = a1.bc ∧
    (onLog a0 a1).jobs = a1.jobs ∧ (onLog a0 a1).mgt = a1.mgt ∧ (onLog a0 a1).cmd = a1.cmd ∧ (onLog a0 a1).prot = a1.prot ∧
    (onLog a0 a1).regs = a1.regs ∧ (onLog a0 a1).mem = a1.mem ∧ (onLog a0 a1).dma = a1.dma ∧ (onLog a0 a1).trc = a1.trc ∧
    (onLog a0 a1).nid = a1.nid ∧ (onLog a0 a1).boot = a1.boot ∧ (onLog a0 a1).img = a1.img ∧ (onLog a0 a1).reports = a1.reports ∧
    (onLog a0 a1).posted = a1.posted ∧ (onLog a0 a1).nvPosted = a1.nvPosted := by
  have k := (onLog_only a0 a1).keep
  exact ⟨k .free (by decide), k .sys (by decide), k .isl (by decide), k .time (by decide), k .regions (by decide), k .cells (by decide), k .hubc (by decide), k .res (by decide), k .dig (by decide), k .xs (by decide), k .ens (by decide), k .casc (by decide), k .age (by decide), k .fab (by decide), k .sb (by decide), k .bc (by decide), k .jobs (by decide), k .mgt (by decide), k .cmd (by decide), k .prot (by decide), k .regs (by decide), k .mem (by decide), k .dma (by decide), k .trc (by decide), k .nid (by decide), k .boot (by decide), k .img (by decide), k .reports (by decide), k .ram (by decide), k .nvm (by decide)⟩

@[simp] theorem onXs_keeps (a0 a1) :
    (onXs a0 a1).free = a1.free ∧ (onXs a0 a1).sys = a1.sys ∧ (onXs a0 a1).isl = a1.isl ∧ (onXs a0 a1).time = a1.time ∧
    (onXs a0 a1).regions = a1.regions ∧ (onXs a0 a1).cells = a1.cells ∧ (onXs a0 a1).hubc = a1.hubc ∧ (onXs a0 a1).res = a1.res ∧
    (onXs a0 a1).dig = a1.dig ∧ (onXs a0 a1).ens = a1.ens ∧ (onXs a0 a1).casc = a1.casc ∧ (onXs a0 a1).age = a1.age ∧
    (onXs a0 a1).fab = a1.fab ∧ (onXs a0 a1).sb = a1.sb ∧ (onXs a0 a1).bc = a1.bc ∧ (onXs a0 a1).jobs = a1.jobs ∧
    (onXs a0 a1).mgt = a1.mgt ∧ (onXs a0 a1).cmd = a1.cmd ∧ (onXs a0 a1).prot = a1.prot ∧ (onXs a0 a1).regs = a1.regs ∧
    (onXs a0 a1).mem = a1.mem ∧ (onXs a0 a1).dma = a1.dma ∧ (onXs a0 a1).trc = a1.trc ∧ (onXs a0 a1).nid = a1.nid ∧
    (onXs a0 a1).log = a1.log ∧ (onXs a0 a1).boot = a1.boot ∧ (onXs a0 a1).img = a1.img ∧ (onXs a0 a1).reports = a1.reports ∧
    (onXs a0 a1).posted = a1.posted ∧ (onXs a0 a1).nvPosted = a1.nvPosted := by
  have k := (onXs_only a0 a1).keep
  exact ⟨k .free (by decide), k .sys (by decide), k .isl (by decide), k .time (by decide), k .regions (by decide), k .cells (by decide), k .hubc (by decide), k .res (by decide), k .dig (by decide), k .ens (by decide), k .casc (by decide), k .age (by decide), k .fab (by decide), k .sb (by decide), k .bc (by decide), k .jobs (by decide), k .mgt (by decide), k .cmd (by decide), k .prot (by decide), k .regs (by decide), k .mem (by decide), k .dma (by decide), k .trc (by decide), k .nid (by decide), k .log (by decide), k .boot (by decide), k .img (by decide), k .reports (by decide), k .ram (by decide), k .nvm (by decide)⟩

@[simp] theorem onTrc_keeps (a0 a1) :
    (onTrc a0 a1).free = a1.free ∧ (onTrc a0 a1).sys = a1.sys ∧ (onTrc a0 a1).isl = a1.isl ∧ (onTrc a0 a1).time = a1.time ∧
    (onTrc a0 a1).regions = a1.regions ∧ (onTrc a0 a1).cells = a1.cells ∧ (onTrc a0 a1).hubc = a1.hubc ∧ (onTrc a0 a1).res = a1.res ∧
    (onTrc a0 a1).dig = a1.dig ∧ (onTrc a0 a1).xs = a1.xs ∧ (onTrc a0 a1).ens = a1.ens ∧ (onTrc a0 a1).casc = a1.casc ∧
    (onTrc a0 a1).age = a1.age ∧ (onTrc a0 a1).fab = a1.fab ∧ (onTrc a0 a1).sb = a1.sb ∧ (onTrc a0 a1).bc = a1.bc ∧
    (onTrc a0 a1).jobs = a1.jobs ∧ (onTrc a0 a1).mgt = a1.mgt ∧ (onTrc a0 a1).cmd = a1.cmd ∧ (onTrc a0 a1).prot = a1.prot ∧
    (onTrc a0 a1).regs = a1.regs ∧ (onTrc a0 a1).mem = a1.mem ∧ (onTrc a0 a1).dma = a1.dma ∧ (onTrc a0 a1).nid = a1.nid ∧
    (onTrc a0 a1).log = a1.log ∧ (onTrc a0 a1).boot = a1.boot ∧ (onTrc a0 a1).img = a1.img ∧ (onTrc a0 a1).reports = a1.reports ∧
    (onTrc a0 a1).posted = a1.posted ∧ (onTrc a0 a1).nvPosted = a1.nvPosted := by
  have k := (onTrc_only a0 a1).keep
  exact ⟨k .free (by decide), k .sys (by decide), k .isl (by decide), k .time (by decide), k .regions (by decide), k .cells (by decide), k .hubc (by decide), k .res (by decide), k .dig (by decide), k .xs (by decide), k .ens (by decide), k .casc (by decide), k .age (by decide), k .fab (by decide), k .sb (by decide), k .bc (by decide), k .jobs (by decide), k .mgt (by decide), k .cmd (by decide), k .prot (by decide), k .regs (by decide), k .mem (by decide), k .dma (by decide), k .nid (by decide), k .log (by decide), k .boot (by decide), k .img (by decide), k .reports (by decide), k .ram (by decide), k .nvm (by decide)⟩

@[simp] theorem chanPut_keeps (a0 a1 a2) :
    (chanPut a0 a1 a2).free = a2.free ∧ (chanPut a0 a1 a2).sys = a2.sys ∧ (chanPut a0 a1 a2).isl = a2.isl ∧ (chanPut a0 a1 a2).time = a2.time ∧
    (chanPut a0 a1 a2).regions = a2.regions ∧ (chanPut a0 a1 a2).cells = a2.cells ∧ (chanPut a0 a1 a2).hubc = a2.hubc ∧ (chanPut a0 a1 a2).res = a2.res ∧
    (chanPut a0 a1 a2).dig = a2.dig ∧ (chanPut a0 a1 a2).xs = a2.xs ∧ (chanPut a0 a1 a2).ens = a2.ens ∧ (chanPut a0 a1 a2).casc = a2.casc ∧
    (chanPut a0 a1 a2).age = a2.age ∧ (chanPut a0 a1 a2).fab = a2.fab ∧ (chanPut a0 a1 a2).sb = a2.sb ∧ (chanPut a0 a1 a2).bc = a2.bc ∧
    (chanPut a0 a1 a2).jobs = a2.jobs ∧ (chanPut a0 a1 a2).mgt = a2.mgt ∧ (chanPut a0 a1 a2).prot = a2.prot ∧ (chanPut a0 a1 a2).mem = a2.mem ∧
    (chanPut a0 a1 a2).dma = a2.dma ∧ (chanPut a0 a1 a2).trc = a2.trc ∧ (chanPut a0 a1 a2).nid = a2.nid ∧ (chanPut a0 a1 a2).boot = a2.boot ∧
    (chanPut a0 a1 a2).img = a2.img ∧ (chanPut a0 a1 a2).reports = a2.reports ∧ (chanPut a0 a1 a2).posted = a2.posted ∧ (chanPut a0 a1 a2).nvPosted = a2.nvPosted := by
  have k := (chanPut_only a0 a1 a2).keep
  exact ⟨k .free (by decide), k .sys (by decide), k .isl (by decide), k .time (by decide), k .regions (by decide), k .cells (by decide), k .hubc (by decide), k .res (by decide), k .dig (by decide), k .xs (by decide), k .ens (by decide), k .casc (by decide), k .age (by decide), k .fab (by decide), k .sb (by decide), k .bc (by decide), k .jobs (by decide), k .mgt (by decide), k .prot (by decide), k .mem (by decide), k .dma (by decide), k .trc (by decide), k .nid (by decide), k .boot (by decide), k .img (by decide), k .reports (by decide), k .ram (by decide), k .nvm (by decide)⟩

@[simp] theorem sendNotice_keeps (a0 a1 a2) :
    (sendNotice a0 a1 a2).free = a2.free ∧ (sendNotice a0 a1 a2).sys = a2.sys ∧ (sendNotice a0 a1 a2).isl = a2.isl ∧ (sendNotice a0 a1 a2).time = a2.time ∧
    (sendNotice a0 a1 a2).regions = a2.regions ∧ (sendNotice a0 a1 a2).cells = a2.cells ∧ (sendNotice a0 a1 a2).hubc = a2.hubc ∧ (sendNotice a0 a1 a2).res = a2.res ∧
    (sendNotice a0 a1 a2).dig = a2.dig ∧ (sendNotice a0 a1 a2).xs = a2.xs ∧ (sendNotice a0 a1 a2).ens = a2.ens ∧ (sendNotice a0 a1 a2).casc = a2.casc ∧
    (sendNotice a0 a1 a2).age = a2.age ∧ (sendNotice a0 a1 a2).fab = a2.fab ∧ (sendNotice a0 a1 a2).sb = a2.sb ∧ (sendNotice a0 a1 a2).bc = a2.bc ∧
    (sendNotice a0 a1 a2).jobs = a2.jobs ∧ (sendNotice a0 a1 a2).mgt = a2.mgt ∧ (sendNotice a0 a1 a2).prot = a2.prot ∧ (sendNotice a0 a1 a2).mem = a2.mem ∧
    (sendNotice a0 a1 a2).dma = a2.dma ∧ (sendNotice a0 a1 a2).trc = a2.trc ∧ (sendNotice a0 a1 a2).nid = a2.nid ∧ (sendNotice a0 a1 a2).boot = a2.boot ∧
    (sendNotice a0 a1 a2).img = a2.img ∧ (sendNotice a0 a1 a2).reports = a2.reports ∧ (sendNotice a0 a1 a2).posted = a2.posted ∧ (sendNotice a0 a1 a2).nvPosted = a2.nvPosted := by
  have k := (sendNotice_only a0 a1 a2).keep
  exact ⟨k .free (by decide), k .sys (by decide), k .isl (by decide), k .time (by decide), k .regions (by decide), k .cells (by decide), k .hubc (by decide), k .res (by decide), k .dig (by decide), k .xs (by decide), k .ens (by decide), k .casc (by decide), k .age (by decide), k .fab (by decide), k .sb (by decide), k .bc (by decide), k .jobs (by decide), k .mgt (by decide), k .prot (by decide), k .mem (by decide), k .dma (by decide), k .trc (by decide), k .nid (by decide), k .boot (by decide), k .img (by decide), k .reports (by decide), k .ram (by decide), k .nvm (by decide)⟩

@[simp] theorem cmdRecord_keeps (a0 a1 a2 a3 a4 a5) :
    (cmdRecord a0 a1 a2 a3 a4 a5).free = a5.free ∧ (cmdRecord a0 a1 a2 a3 a4 a5).sys = a5.sys ∧ (cmdRecord a0 a1 a2 a3 a4 a5).isl = a5.isl ∧ (cmdRecord a0 a1 a2 a3 a4 a5).time = a5.time ∧
    (cmdRecord a0 a1 a2 a3 a4 a5).regions = a5.regions ∧ (cmdRecord a0 a1 a2 a3 a4 a5).cells = a5.cells ∧ (cmdRecord a0 a1 a2 a3 a4 a5).hubc = a5.hubc ∧ (cmdRecord a0 a1 a2 a3 a4 a5).res = a5.res ∧
    (cmdRecord a0 a1 a2 a3 a4 a5).dig = a5.dig ∧ (cmdRecord a0 a1 a2 a3 a4 a5).xs = a5.xs ∧ (cmdRecord a0 a1 a2 a3 a4 a5).ens = a5.ens ∧ (cmdRecord a0 a1 a2 a3 a4 a5).casc = a5.casc ∧
    (cmdRecord a0 a1 a2 a3 a4 a5).age = a5.age ∧ (cmdRecord a0 a1 a2 a3 a4 a5).fab = a5.fab ∧ (cmdRecord a0 a1 a2 a3 a4 a5).sb = a5.sb ∧ (cmdRecord a0 a1 a2 a3 a4 a5).bc = a5.bc ∧
    (cmdRecord a0 a1 a2 a3 a4 a5).jobs = a5.jobs ∧ (cmdRecord a0 a1 a2 a3 a4 a5).mgt = a5.mgt ∧ (cmdRecord a0 a1 a2 a3 a4 a5).cmd = a5.cmd ∧ (cmdRecord a0 a1 a2 a3 a4 a5).prot = a5.prot ∧
    (cmdRecord a0 a1 a2 a3 a4 a5).mem = a5.mem ∧ (cmdRecord a0 a1 a2 a3 a4 a5).dma = a5.dma ∧ (cmdRecord a0 a1 a2 a3 a4 a5).trc = a5.trc ∧ (cmdRecord a0 a1 a2 a3 a4 a5).nid = a5.nid ∧
    (cmdRecord a0 a1 a2 a3 a4 a5).boot = a5.boot ∧ (cmdRecord a0 a1 a2 a3 a4 a5).img = a5.img ∧ (cmdRecord a0 a1 a2 a3 a4 a5).reports = a5.reports ∧ (cmdRecord a0 a1 a2 a3 a4 a5).posted = a5.posted ∧
    (cmdRecord a0 a1 a2 a3 a4 a5).nvPosted = a5.nvPosted := by
  have k := (cmdRecord_only a0 a1 a2 a3 a4 a5).keep
  exact ⟨k .free (by decide), k .sys (by decide), k .isl (by decide), k .time (by decide), k .regions (by decide), k .cells (by decide), k .hubc (by decide), k .res (by decide), k .dig (by decide), k .xs (by decide), k .ens (by decide), k .casc (by decide), k .age (by decide), k .fab (by decide), k .sb (by decide), k .bc (by decide), k .jobs (by decide), k .mgt (by decide), k .cmd (by decide), k .prot (by decide), k .mem (by decide), k .dma (by decide), k .trc (by decide), k .nid (by decide), k .boot (by decide), k .img (by decide), k .reports (by decide), k .ram (by decide), k .nvm (by decide)⟩

@[simp] theorem sendReply_keeps (a0 a1 a2 a3) :
    (sendReply a0 a1 a2 a3).free = a3.free ∧ (sendReply a0 a1 a2 a3).sys = a3.sys ∧ (sendReply a0 a1 a2 a3).isl = a3.isl ∧ (sendReply a0 a1 a2 a3).time = a3.time ∧
    (sendReply a0 a1 a2 a3).regions = a3.regions ∧ (sendReply a0 a1 a2 a3).cells = a3.cells ∧ (sendReply a0 a1 a2 a3).hubc = a3.hubc ∧ (sendReply a0 a1 a2 a3).res = a3.res ∧
    (sendReply a0 a1 a2 a3).dig = a3.dig ∧ (sendReply a0 a1 a2 a3).xs = a3.xs ∧ (sendReply a0 a1 a2 a3).ens = a3.ens ∧ (sendReply a0 a1 a2 a3).casc = a3.casc ∧
    (sendReply a0 a1 a2 a3).age = a3.age ∧ (sendReply a0 a1 a2 a3).fab = a3.fab ∧ (sendReply a0 a1 a2 a3).bc = a3.bc ∧ (sendReply a0 a1 a2 a3).jobs = a3.jobs ∧
    (sendReply a0 a1 a2 a3).prot = a3.prot ∧ (sendReply a0 a1 a2 a3).mem = a3.mem ∧ (sendReply a0 a1 a2 a3).dma = a3.dma ∧ (sendReply a0 a1 a2 a3).trc = a3.trc ∧
    (sendReply a0 a1 a2 a3).nid = a3.nid ∧ (sendReply a0 a1 a2 a3).boot = a3.boot ∧ (sendReply a0 a1 a2 a3).img = a3.img ∧ (sendReply a0 a1 a2 a3).reports = a3.reports ∧
    (sendReply a0 a1 a2 a3).posted = a3.posted ∧ (sendReply a0 a1 a2 a3).nvPosted = a3.nvPosted := by
  have k := (sendReply_only a0 a1 a2 a3).keep
  exact ⟨k .free (by decide), k .sys (by decide), k .isl (by decide), k .time (by decide), k .regions (by decide), k .cells (by decide), k .hubc (by decide), k .res (by decide), k .dig (by decide), k .xs (by decide), k .ens (by decide), k .casc (by decide), k .age (by decide), k .fab (by decide), k .bc (by decide), k .jobs (by decide), k .prot (by decide), k .mem (by decide), k .dma (by decide), k .trc (by decide), k .nid (by decide), k .boot (by decide), k .img (by decide), k .reports (by decide), k .ram (by decide), k .nvm (by decide)⟩

@[simp] theorem replyOnly_keeps (a0 a1 a2 a3 a4) :
    (replyOnly a0 a1 a2 a3 a4).free = a4.free ∧ (replyOnly a0 a1 a2 a3 a4).sys = a4.sys ∧ (replyOnly a0 a1 a2 a3 a4).isl = a4.isl ∧ (replyOnly a0 a1 a2 a3 a4).time = a4.time ∧
    (replyOnly a0 a1 a2 a3 a4).regions = a4.regions ∧ (replyOnly a0 a1 a2 a3 a4).cells = a4.cells ∧ (replyOnly a0 a1 a2 a3 a4).hubc = a4.hubc ∧ (replyOnly a0 a1 a2 a3 a4).res = a4.res ∧
    (replyOnly a0 a1 a2 a3 a4).dig = a4.dig ∧ (replyOnly a0 a1 a2 a3 a4).xs = a4.xs ∧ (replyOnly a0 a1 a2 a3 a4).ens = a4.ens ∧ (replyOnly a0 a1 a2 a3 a4).casc = a4.casc ∧
    (replyOnly a0 a1 a2 a3 a4).age = a4.age ∧ (replyOnly a0 a1 a2 a3 a4).fab = a4.fab ∧ (replyOnly a0 a1 a2 a3 a4).bc = a4.bc ∧ (replyOnly a0 a1 a2 a3 a4).jobs = a4.jobs ∧
    (replyOnly a0 a1 a2 a3 a4).prot = a4.prot ∧ (replyOnly a0 a1 a2 a3 a4).mem = a4.mem ∧ (replyOnly a0 a1 a2 a3 a4).dma = a4.dma ∧ (replyOnly a0 a1 a2 a3 a4).trc = a4.trc ∧
    (replyOnly a0 a1 a2 a3 a4).nid = a4.nid ∧ (replyOnly a0 a1 a2 a3 a4).boot = a4.boot ∧ (replyOnly a0 a1 a2 a3 a4).img = a4.img ∧ (replyOnly a0 a1 a2 a3 a4).reports = a4.reports ∧
    (replyOnly a0 a1 a2 a3 a4).posted = a4.posted ∧ (replyOnly a0 a1 a2 a3 a4).nvPosted = a4.nvPosted := by
  have k := (replyOnly_only a0 a1 a2 a3 a4).keep
  exact ⟨k .free (by decide), k .sys (by decide), k .isl (by decide), k .time (by decide), k .regions (by decide), k .cells (by decide), k .hubc (by decide), k .res (by decide), k .dig (by decide), k .xs (by decide), k .ens (by decide), k .casc (by decide), k .age (by decide), k .fab (by decide), k .bc (by decide), k .jobs (by decide), k .prot (by decide), k .mem (by decide), k .dma (by decide), k .trc (by decide), k .nid (by decide), k .boot (by decide), k .img (by decide), k .reports (by decide), k .ram (by decide), k .nvm (by decide)⟩

@[simp] theorem answer_keeps (a0 a1 a2 a3 a4 a5 a6 a7) :
    (answer a0 a1 a2 a3 a4 a5 a6 a7).free = a7.free ∧ (answer a0 a1 a2 a3 a4 a5 a6 a7).sys = a7.sys ∧ (answer a0 a1 a2 a3 a4 a5 a6 a7).isl = a7.isl ∧ (answer a0 a1 a2 a3 a4 a5 a6 a7).time = a7.time ∧
    (answer a0 a1 a2 a3 a4 a5 a6 a7).regions = a7.regions ∧ (answer a0 a1 a2 a3 a4 a5 a6 a7).cells = a7.cells ∧ (answer a0 a1 a2 a3 a4 a5 a6 a7).hubc = a7.hubc ∧ (answer a0 a1 a2 a3 a4 a5 a6 a7).res = a7.res ∧
    (answer a0 a1 a2 a3 a4 a5 a6 a7).dig = a7.dig ∧ (answer a0 a1 a2 a3 a4 a5 a6 a7).xs = a7.xs ∧ (answer a0 a1 a2 a3 a4 a5 a6 a7).ens = a7.ens ∧ (answer a0 a1 a2 a3 a4 a5 a6 a7).casc = a7.casc ∧
    (answer a0 a1 a2 a3 a4 a5 a6 a7).age = a7.age ∧ (answer a0 a1 a2 a3 a4 a5 a6 a7).fab = a7.fab ∧ (answer a0 a1 a2 a3 a4 a5 a6 a7).bc = a7.bc ∧ (answer a0 a1 a2 a3 a4 a5 a6 a7).jobs = a7.jobs ∧
    (answer a0 a1 a2 a3 a4 a5 a6 a7).prot = a7.prot ∧ (answer a0 a1 a2 a3 a4 a5 a6 a7).mem = a7.mem ∧ (answer a0 a1 a2 a3 a4 a5 a6 a7).dma = a7.dma ∧ (answer a0 a1 a2 a3 a4 a5 a6 a7).trc = a7.trc ∧
    (answer a0 a1 a2 a3 a4 a5 a6 a7).nid = a7.nid ∧ (answer a0 a1 a2 a3 a4 a5 a6 a7).boot = a7.boot ∧ (answer a0 a1 a2 a3 a4 a5 a6 a7).img = a7.img ∧ (answer a0 a1 a2 a3 a4 a5 a6 a7).reports = a7.reports ∧
    (answer a0 a1 a2 a3 a4 a5 a6 a7).posted = a7.posted ∧ (answer a0 a1 a2 a3 a4 a5 a6 a7).nvPosted = a7.nvPosted := by
  have k := (answer_only a0 a1 a2 a3 a4 a5 a6 a7).keep
  exact ⟨k .free (by decide), k .sys (by decide), k .isl (by decide), k .time (by decide), k .regions (by decide), k .cells (by decide), k .hubc (by decide), k .res (by decide), k .dig (by decide), k .xs (by decide), k .ens (by decide), k .casc (by decide), k .age (by decide), k .fab (by decide), k .bc (by decide), k .jobs (by decide), k .prot (by decide), k .mem (by decide), k .dma (by decide), k .trc (by decide), k .nid (by decide), k .boot (by decide), k .img (by decide), k .reports (by decide), k .ram (by decide), k .nvm (by decide)⟩

@[simp] theorem finish_keeps (a0 a1 a2 a3 a4 a5 a6) :
    (finish a0 a1 a2 a3 a4 a5 a6).free = a6.free ∧ (finish a0 a1 a2 a3 a4 a5 a6).sys = a6.sys ∧ (finish a0 a1 a2 a3 a4 a5 a6).isl = a6.isl ∧ (finish a0 a1 a2 a3 a4 a5 a6).time = a6.time ∧
    (finish a0 a1 a2 a3 a4 a5 a6).regions = a6.regions ∧ (finish a0 a1 a2 a3 a4 a5 a6).cells = a6.cells ∧ (finish a0 a1 a2 a3 a4 a5 a6).hubc = a6.hubc ∧ (finish a0 a1 a2 a3 a4 a5 a6).res = a6.res ∧
    (finish a0 a1 a2 a3 a4 a5 a6).dig = a6.dig ∧ (finish a0 a1 a2 a3 a4 a5 a6).xs = a6.xs ∧ (finish a0 a1 a2 a3 a4 a5 a6).ens = a6.ens ∧ (finish a0 a1 a2 a3 a4 a5 a6).casc = a6.casc ∧
    (finish a0 a1 a2 a3 a4 a5 a6).age = a6.age ∧ (finish a0 a1 a2 a3 a4 a5 a6).fab = a6.fab ∧ (finish a0 a1 a2 a3 a4 a5 a6).bc = a6.bc ∧ (finish a0 a1 a2 a3 a4 a5 a6).jobs = a6.jobs ∧
    (finish a0 a1 a2 a3 a4 a5 a6).prot = a6.prot ∧ (finish a0 a1 a2 a3 a4 a5 a6).mem = a6.mem ∧ (finish a0 a1 a2 a3 a4 a5 a6).dma = a6.dma ∧ (finish a0 a1 a2 a3 a4 a5 a6).trc = a6.trc ∧
    (finish a0 a1 a2 a3 a4 a5 a6).nid = a6.nid ∧ (finish a0 a1 a2 a3 a4 a5 a6).boot = a6.boot ∧ (finish a0 a1 a2 a3 a4 a5 a6).img = a6.img ∧ (finish a0 a1 a2 a3 a4 a5 a6).reports = a6.reports ∧
    (finish a0 a1 a2 a3 a4 a5 a6).posted = a6.posted ∧ (finish a0 a1 a2 a3 a4 a5 a6).nvPosted = a6.nvPosted := by
  have k := (finish_only a0 a1 a2 a3 a4 a5 a6).keep
  exact ⟨k .free (by decide), k .sys (by decide), k .isl (by decide), k .time (by decide), k .regions (by decide), k .cells (by decide), k .hubc (by decide), k .res (by decide), k .dig (by decide), k .xs (by decide), k .ens (by decide), k .casc (by decide), k .age (by decide), k .fab (by decide), k .bc (by decide), k .jobs (by decide), k .prot (by decide), k .mem (by decide), k .dma (by decide), k .trc (by decide), k .nid (by decide), k .boot (by decide), k .img (by decide), k .reports (by decide), k .ram (by decide), k .nvm (by decide)⟩

@[simp] theorem relayCmd_keeps (a0 a1 a2 a3 a4 a5) :
    (relayCmd a0 a1 a2 a3 a4 a5).free = a5.free ∧ (relayCmd a0 a1 a2 a3 a4 a5).sys = a5.sys ∧ (relayCmd a0 a1 a2 a3 a4 a5).isl = a5.isl ∧ (relayCmd a0 a1 a2 a3 a4 a5).time = a5.time ∧
    (relayCmd a0 a1 a2 a3 a4 a5).regions = a5.regions ∧ (relayCmd a0 a1 a2 a3 a4 a5).cells = a5.cells ∧ (relayCmd a0 a1 a2 a3 a4 a5).hubc = a5.hubc ∧ (relayCmd a0 a1 a2 a3 a4 a5).res = a5.res ∧
    (relayCmd a0 a1 a2 a3 a4 a5).dig = a5.dig ∧ (relayCmd a0 a1 a2 a3 a4 a5).xs = a5.xs ∧ (relayCmd a0 a1 a2 a3 a4 a5).ens = a5.ens ∧ (relayCmd a0 a1 a2 a3 a4 a5).casc = a5.casc ∧
    (relayCmd a0 a1 a2 a3 a4 a5).age = a5.age ∧ (relayCmd a0 a1 a2 a3 a4 a5).fab = a5.fab ∧ (relayCmd a0 a1 a2 a3 a4 a5).bc = a5.bc ∧ (relayCmd a0 a1 a2 a3 a4 a5).jobs = a5.jobs ∧
    (relayCmd a0 a1 a2 a3 a4 a5).prot = a5.prot ∧ (relayCmd a0 a1 a2 a3 a4 a5).mem = a5.mem ∧ (relayCmd a0 a1 a2 a3 a4 a5).dma = a5.dma ∧ (relayCmd a0 a1 a2 a3 a4 a5).trc = a5.trc ∧
    (relayCmd a0 a1 a2 a3 a4 a5).nid = a5.nid ∧ (relayCmd a0 a1 a2 a3 a4 a5).boot = a5.boot ∧ (relayCmd a0 a1 a2 a3 a4 a5).img = a5.img ∧ (relayCmd a0 a1 a2 a3 a4 a5).reports = a5.reports ∧
    (relayCmd a0 a1 a2 a3 a4 a5).posted = a5.posted ∧ (relayCmd a0 a1 a2 a3 a4 a5).nvPosted = a5.nvPosted := by
  have k := (relayCmd_only a0 a1 a2 a3 a4 a5).keep
  exact ⟨k .free (by decide), k .sys (by decide), k .isl (by decide), k .time (by decide), k .regions (by decide), k .cells (by decide), k .hubc (by decide), k .res (by decide), k .dig (by decide), k .xs (by decide), k .ens (by decide), k .casc (by decide), k .age (by decide), k .fab (by decide), k .bc (by decide), k .jobs (by decide), k .prot (by decide), k .mem (by decide), k .dma (by decide), k .trc (by decide), k .nid (by decide), k .boot (by decide), k .img (by decide), k .reports (by decide), k .ram (by decide), k .nvm (by decide)⟩

@[simp] theorem setQuality_keeps (a0 a1) :
    (setQuality a0 a1).free = a1.free ∧ (setQuality a0 a1).sys = a1.sys ∧ (setQuality a0 a1).isl = a1.isl ∧ (setQuality a0 a1).regions = a1.regions ∧
    (setQuality a0 a1).cells = a1.cells ∧ (setQuality a0 a1).hubc = a1.hubc ∧ (setQuality a0 a1).res = a1.res ∧ (setQuality a0 a1).dig = a1.dig ∧
    (setQuality a0 a1).xs = a1.xs ∧ (setQuality a0 a1).ens = a1.ens ∧ (setQuality a0 a1).casc = a1.casc ∧ (setQuality a0 a1).age = a1.age ∧
    (setQuality a0 a1).fab = a1.fab ∧ (setQuality a0 a1).sb = a1.sb ∧ (setQuality a0 a1).bc = a1.bc ∧ (setQuality a0 a1).jobs = a1.jobs ∧
    (setQuality a0 a1).mgt = a1.mgt ∧ (setQuality a0 a1).cmd = a1.cmd ∧ (setQuality a0 a1).prot = a1.prot ∧ (setQuality a0 a1).mem = a1.mem ∧
    (setQuality a0 a1).dma = a1.dma ∧ (setQuality a0 a1).trc = a1.trc ∧ (setQuality a0 a1).nid = a1.nid ∧ (setQuality a0 a1).boot = a1.boot ∧
    (setQuality a0 a1).img = a1.img ∧ (setQuality a0 a1).reports = a1.reports ∧ (setQuality a0 a1).posted = a1.posted ∧ (setQuality a0 a1).nvPosted = a1.nvPosted := by
  have k := (setQuality_only a0 a1).keep
  exact ⟨k .free (by decide), k .sys (by decide), k .isl (by decide), k .regions (by decide), k .cells (by decide), k .hubc (by decide), k .res (by decide), k .dig (by decide), k .xs (by decide), k .ens (by decide), k .casc (by decide), k .age (by decide), k .fab (by decide), k .sb (by decide), k .bc (by decide), k .jobs (by decide), k .mgt (by decide), k .cmd (by decide), k .prot (by decide), k .mem (by decide), k .dma (by decide), k .trc (by decide), k .nid (by decide), k .boot (by decide), k .img (by decide), k .reports (by decide), k .ram (by decide), k .nvm (by decide)⟩

@[simp] theorem stepTb_keeps (a0 a1) :
    (stepTb a0 a1).free = a1.free ∧ (stepTb a0 a1).sys = a1.sys ∧ (stepTb a0 a1).isl = a1.isl ∧ (stepTb a0 a1).regions = a1.regions ∧
    (stepTb a0 a1).cells = a1.cells ∧ (stepTb a0 a1).hubc = a1.hubc ∧ (stepTb a0 a1).res = a1.res ∧ (stepTb a0 a1).dig = a1.dig ∧
    (stepTb a0 a1).xs = a1.xs ∧ (stepTb a0 a1).ens = a1.ens ∧ (stepTb a0 a1).casc = a1.casc ∧ (stepTb a0 a1).age = a1.age ∧
    (stepTb a0 a1).fab = a1.fab ∧ (stepTb a0 a1).sb = a1.sb ∧ (stepTb a0 a1).bc = a1.bc ∧ (stepTb a0 a1).jobs = a1.jobs ∧
    (stepTb a0 a1).mgt = a1.mgt ∧ (stepTb a0 a1).cmd = a1.cmd ∧ (stepTb a0 a1).prot = a1.prot ∧ (stepTb a0 a1).mem = a1.mem ∧
    (stepTb a0 a1).dma = a1.dma ∧ (stepTb a0 a1).nid = a1.nid ∧ (stepTb a0 a1).boot = a1.boot ∧ (stepTb a0 a1).img = a1.img ∧
    (stepTb a0 a1).reports = a1.reports ∧ (stepTb a0 a1).posted = a1.posted ∧ (stepTb a0 a1).nvPosted = a1.nvPosted := by
  have k := (stepTb_only a0 a1).keep
  exact ⟨k .free (by decide), k .sys (by decide), k .isl (by decide), k .regions (by decide), k .cells (by decide), k .hubc (by decide), k .res (by decide), k .dig (by decide), k .xs (by decide), k .ens (by decide), k .casc (by decide), k .age (by decide), k .fab (by decide), k .sb (by decide), k .bc (by decide), k .jobs (by decide), k .mgt (by decide), k .cmd (by decide), k .prot (by decide), k .mem (by decide), k .dma (by decide), k .nid (by decide), k .boot (by decide), k .img (by decide), k .reports (by decide), k .ram (by decide), k .nvm (by decide)⟩

@[simp] theorem correct_keeps (a0 a1) :
    (correct a0 a1).free = a1.free ∧ (correct a0 a1).sys = a1.sys ∧ (correct a0 a1).isl = a1.isl ∧ (correct a0 a1).regions = a1.regions ∧
    (correct a0 a1).cells = a1.cells ∧ (correct a0 a1).hubc = a1.hubc ∧ (correct a0 a1).res = a1.res ∧ (correct a0 a1).dig = a1.dig ∧
    (correct a0 a1).xs = a1.xs ∧ (correct a0 a1).ens = a1.ens ∧ (correct a0 a1).casc = a1.casc ∧ (correct a0 a1).age = a1.age ∧
    (correct a0 a1).fab = a1.fab ∧ (correct a0 a1).sb = a1.sb ∧ (correct a0 a1).bc = a1.bc ∧ (correct a0 a1).jobs = a1.jobs ∧
    (correct a0 a1).mgt = a1.mgt ∧ (correct a0 a1).cmd = a1.cmd ∧ (correct a0 a1).prot = a1.prot ∧ (correct a0 a1).mem = a1.mem ∧
    (correct a0 a1).dma = a1.dma ∧ (correct a0 a1).nid = a1.nid ∧ (correct a0 a1).boot = a1.boot ∧ (correct a0 a1).img = a1.img ∧
    (correct a0 a1).reports = a1.reports ∧ (correct a0 a1).posted = a1.posted ∧ (correct a0 a1).nvPosted = a1.nvPosted := by
  have k := (correct_only a0 a1).keep
  exact ⟨k .free (by decide), k .sys (by decide), k .isl (by decide), k .regions (by decide), k .cells (by decide), k .hubc (by decide), k .res (by decide), k .dig (by decide), k .xs (by decide), k .ens (by decide), k .casc (by decide), k .age (by decide), k .fab (by decide), k .sb (by decide), k .bc (by decide), k .jobs (by decide), k .mgt (by decide), k .cmd (by decide), k .prot (by decide), k .mem (by decide), k .dma (by decide), k .nid (by decide), k .boot (by decide), k .img (by decide), k .reports (by decide), k .ram (by decide), k .nvm (by decide)⟩

@[simp] theorem featWrite_keeps (a0 a1 a2 a3 a4) :
    (featWrite a0 a1 a2 a3 a4).free = a4.free ∧ (featWrite a0 a1 a2 a3 a4).sys = a4.sys ∧ (featWrite a0 a1 a2 a3 a4).isl = a4.isl ∧ (featWrite a0 a1 a2 a3 a4).time = a4.time ∧
    (featWrite a0 a1 a2 a3 a4).regions = a4.regions ∧ (featWrite a0 a1 a2 a3 a4).cells = a4.cells ∧ (featWrite a0 a1 a2 a3 a4).hubc = a4.hubc ∧ (featWrite a0 a1 a2 a3 a4).res = a4.res ∧
    (featWrite a0 a1 a2 a3 a4).dig = a4.dig ∧ (featWrite a0 a1 a2 a3 a4).xs = a4.xs ∧ (featWrite a0 a1 a2 a3 a4).casc = a4.casc ∧ (featWrite a0 a1 a2 a3 a4).age = a4.age ∧
    (featWrite a0 a1 a2 a3 a4).fab = a4.fab ∧ (featWrite a0 a1 a2 a3 a4).sb = a4.sb ∧ (featWrite a0 a1 a2 a3 a4).bc = a4.bc ∧ (featWrite a0 a1 a2 a3 a4).jobs = a4.jobs ∧
    (featWrite a0 a1 a2 a3 a4).mgt = a4.mgt ∧ (featWrite a0 a1 a2 a3 a4).cmd = a4.cmd ∧ (featWrite a0 a1 a2 a3 a4).prot = a4.prot ∧ (featWrite a0 a1 a2 a3 a4).dma = a4.dma ∧
    (featWrite a0 a1 a2 a3 a4).trc = a4.trc ∧ (featWrite a0 a1 a2 a3 a4).nid = a4.nid ∧ (featWrite a0 a1 a2 a3 a4).boot = a4.boot ∧ (featWrite a0 a1 a2 a3 a4).img = a4.img ∧
    (featWrite a0 a1 a2 a3 a4).reports = a4.reports ∧ (featWrite a0 a1 a2 a3 a4).posted = a4.posted ∧ (featWrite a0 a1 a2 a3 a4).nvPosted = a4.nvPosted := by
  have k := (featWrite_only a0 a1 a2 a3 a4).keep
  exact ⟨k .free (by decide), k .sys (by decide), k .isl (by decide), k .time (by decide), k .regions (by decide), k .cells (by decide), k .hubc (by decide), k .res (by decide), k .dig (by decide), k .xs (by decide), k .casc (by decide), k .age (by decide), k .fab (by decide), k .sb (by decide), k .bc (by decide), k .jobs (by decide), k .mgt (by decide), k .cmd (by decide), k .prot (by decide), k .dma (by decide), k .trc (by decide), k .nid (by decide), k .boot (by decide), k .img (by decide), k .reports (by decide), k .ram (by decide), k .nvm (by decide)⟩

@[simp] theorem unitFault_keeps (a0 a1 a2 a3 a4 a5 a6) :
    (unitFault a0 a1 a2 a3 a4 a5 a6).free = a6.free ∧ (unitFault a0 a1 a2 a3 a4 a5 a6).sys = a6.sys ∧ (unitFault a0 a1 a2 a3 a4 a5 a6).isl = a6.isl ∧ (unitFault a0 a1 a2 a3 a4 a5 a6).time = a6.time ∧
    (unitFault a0 a1 a2 a3 a4 a5 a6).regions = a6.regions ∧ (unitFault a0 a1 a2 a3 a4 a5 a6).cells = a6.cells ∧ (unitFault a0 a1 a2 a3 a4 a5 a6).hubc = a6.hubc ∧ (unitFault a0 a1 a2 a3 a4 a5 a6).res = a6.res ∧
    (unitFault a0 a1 a2 a3 a4 a5 a6).dig = a6.dig ∧ (unitFault a0 a1 a2 a3 a4 a5 a6).xs = a6.xs ∧ (unitFault a0 a1 a2 a3 a4 a5 a6).age = a6.age ∧ (unitFault a0 a1 a2 a3 a4 a5 a6).fab = a6.fab ∧
    (unitFault a0 a1 a2 a3 a4 a5 a6).sb = a6.sb ∧ (unitFault a0 a1 a2 a3 a4 a5 a6).bc = a6.bc ∧ (unitFault a0 a1 a2 a3 a4 a5 a6).jobs = a6.jobs ∧ (unitFault a0 a1 a2 a3 a4 a5 a6).mgt = a6.mgt ∧
    (unitFault a0 a1 a2 a3 a4 a5 a6).cmd = a6.cmd ∧ (unitFault a0 a1 a2 a3 a4 a5 a6).prot = a6.prot ∧ (unitFault a0 a1 a2 a3 a4 a5 a6).dma = a6.dma ∧ (unitFault a0 a1 a2 a3 a4 a5 a6).trc = a6.trc ∧
    (unitFault a0 a1 a2 a3 a4 a5 a6).nid = a6.nid ∧ (unitFault a0 a1 a2 a3 a4 a5 a6).boot = a6.boot ∧ (unitFault a0 a1 a2 a3 a4 a5 a6).img = a6.img ∧ (unitFault a0 a1 a2 a3 a4 a5 a6).reports = a6.reports ∧
    (unitFault a0 a1 a2 a3 a4 a5 a6).posted = a6.posted ∧ (unitFault a0 a1 a2 a3 a4 a5 a6).nvPosted = a6.nvPosted := by
  have k := (unitFault_only a0 a1 a2 a3 a4 a5 a6).keep
  exact ⟨k .free (by decide), k .sys (by decide), k .isl (by decide), k .time (by decide), k .regions (by decide), k .cells (by decide), k .hubc (by decide), k .res (by decide), k .dig (by decide), k .xs (by decide), k .age (by decide), k .fab (by decide), k .sb (by decide), k .bc (by decide), k .jobs (by decide), k .mgt (by decide), k .cmd (by decide), k .prot (by decide), k .dma (by decide), k .trc (by decide), k .nid (by decide), k .boot (by decide), k .img (by decide), k .reports (by decide), k .ram (by decide), k .nvm (by decide)⟩

@[simp] theorem lossRecord_keeps (a0 a1 a2 a3 a4 a5 a6) :
    (lossRecord a0 a1 a2 a3 a4 a5 a6).free = a6.free ∧ (lossRecord a0 a1 a2 a3 a4 a5 a6).sys = a6.sys ∧ (lossRecord a0 a1 a2 a3 a4 a5 a6).isl = a6.isl ∧ (lossRecord a0 a1 a2 a3 a4 a5 a6).time = a6.time ∧
    (lossRecord a0 a1 a2 a3 a4 a5 a6).regions = a6.regions ∧ (lossRecord a0 a1 a2 a3 a4 a5 a6).cells = a6.cells ∧ (lossRecord a0 a1 a2 a3 a4 a5 a6).hubc = a6.hubc ∧ (lossRecord a0 a1 a2 a3 a4 a5 a6).res = a6.res ∧
    (lossRecord a0 a1 a2 a3 a4 a5 a6).dig = a6.dig ∧ (lossRecord a0 a1 a2 a3 a4 a5 a6).xs = a6.xs ∧ (lossRecord a0 a1 a2 a3 a4 a5 a6).ens = a6.ens ∧ (lossRecord a0 a1 a2 a3 a4 a5 a6).casc = a6.casc ∧
    (lossRecord a0 a1 a2 a3 a4 a5 a6).age = a6.age ∧ (lossRecord a0 a1 a2 a3 a4 a5 a6).fab = a6.fab ∧ (lossRecord a0 a1 a2 a3 a4 a5 a6).sb = a6.sb ∧ (lossRecord a0 a1 a2 a3 a4 a5 a6).bc = a6.bc ∧
    (lossRecord a0 a1 a2 a3 a4 a5 a6).jobs = a6.jobs ∧ (lossRecord a0 a1 a2 a3 a4 a5 a6).mgt = a6.mgt ∧ (lossRecord a0 a1 a2 a3 a4 a5 a6).cmd = a6.cmd ∧ (lossRecord a0 a1 a2 a3 a4 a5 a6).prot = a6.prot ∧
    (lossRecord a0 a1 a2 a3 a4 a5 a6).mem = a6.mem ∧ (lossRecord a0 a1 a2 a3 a4 a5 a6).dma = a6.dma ∧ (lossRecord a0 a1 a2 a3 a4 a5 a6).trc = a6.trc ∧ (lossRecord a0 a1 a2 a3 a4 a5 a6).nid = a6.nid ∧
    (lossRecord a0 a1 a2 a3 a4 a5 a6).boot = a6.boot ∧ (lossRecord a0 a1 a2 a3 a4 a5 a6).img = a6.img ∧ (lossRecord a0 a1 a2 a3 a4 a5 a6).reports = a6.reports ∧ (lossRecord a0 a1 a2 a3 a4 a5 a6).posted = a6.posted ∧
    (lossRecord a0 a1 a2 a3 a4 a5 a6).nvPosted = a6.nvPosted := by
  have k := (lossRecord_only a0 a1 a2 a3 a4 a5 a6).keep
  exact ⟨k .free (by decide), k .sys (by decide), k .isl (by decide), k .time (by decide), k .regions (by decide), k .cells (by decide), k .hubc (by decide), k .res (by decide), k .dig (by decide), k .xs (by decide), k .ens (by decide), k .casc (by decide), k .age (by decide), k .fab (by decide), k .sb (by decide), k .bc (by decide), k .jobs (by decide), k .mgt (by decide), k .cmd (by decide), k .prot (by decide), k .mem (by decide), k .dma (by decide), k .trc (by decide), k .nid (by decide), k .boot (by decide), k .img (by decide), k .reports (by decide), k .ram (by decide), k .nvm (by decide)⟩

@[simp] theorem nvPost_keeps (a0 a1 a2) :
    (nvPost a0 a1 a2).free = a2.free ∧ (nvPost a0 a1 a2).sys = a2.sys ∧ (nvPost a0 a1 a2).isl = a2.isl ∧ (nvPost a0 a1 a2).time = a2.time ∧
    (nvPost a0 a1 a2).regions = a2.regions ∧ (nvPost a0 a1 a2).cells = a2.cells ∧ (nvPost a0 a1 a2).hubc = a2.hubc ∧ (nvPost a0 a1 a2).res = a2.res ∧
    (nvPost a0 a1 a2).dig = a2.dig ∧ (nvPost a0 a1 a2).xs = a2.xs ∧ (nvPost a0 a1 a2).ens = a2.ens ∧ (nvPost a0 a1 a2).casc = a2.casc ∧
    (nvPost a0 a1 a2).age = a2.age ∧ (nvPost a0 a1 a2).fab = a2.fab ∧ (nvPost a0 a1 a2).sb = a2.sb ∧ (nvPost a0 a1 a2).bc = a2.bc ∧
    (nvPost a0 a1 a2).jobs = a2.jobs ∧ (nvPost a0 a1 a2).mgt = a2.mgt ∧ (nvPost a0 a1 a2).cmd = a2.cmd ∧ (nvPost a0 a1 a2).prot = a2.prot ∧
    (nvPost a0 a1 a2).regs = a2.regs ∧ (nvPost a0 a1 a2).mem = a2.mem ∧ (nvPost a0 a1 a2).dma = a2.dma ∧ (nvPost a0 a1 a2).trc = a2.trc ∧
    (nvPost a0 a1 a2).nid = a2.nid ∧ (nvPost a0 a1 a2).log = a2.log ∧ (nvPost a0 a1 a2).boot = a2.boot ∧ (nvPost a0 a1 a2).img = a2.img ∧
    (nvPost a0 a1 a2).reports = a2.reports ∧ (nvPost a0 a1 a2).posted = a2.posted := by
  have k := (nvPost_only a0 a1 a2).keep
  exact ⟨k .free (by decide), k .sys (by decide), k .isl (by decide), k .time (by decide), k .regions (by decide), k .cells (by decide), k .hubc (by decide), k .res (by decide), k .dig (by decide), k .xs (by decide), k .ens (by decide), k .casc (by decide), k .age (by decide), k .fab (by decide), k .sb (by decide), k .bc (by decide), k .jobs (by decide), k .mgt (by decide), k .cmd (by decide), k .prot (by decide), k .regs (by decide), k .mem (by decide), k .dma (by decide), k .trc (by decide), k .nid (by decide), k .log (by decide), k .boot (by decide), k .img (by decide), k .reports (by decide), k .ram (by decide)⟩

@[simp] theorem nvErase_keeps (a0 a1 a2 a3) :
    (nvErase a0 a1 a2 a3).free = a3.free ∧ (nvErase a0 a1 a2 a3).sys = a3.sys ∧ (nvErase a0 a1 a2 a3).isl = a3.isl ∧ (nvErase a0 a1 a2 a3).time = a3.time ∧
    (nvErase a0 a1 a2 a3).regions = a3.regions ∧ (nvErase a0 a1 a2 a3).cells = a3.cells ∧ (nvErase a0 a1 a2 a3).hubc = a3.hubc ∧ (nvErase a0 a1 a2 a3).res = a3.res ∧
    (nvErase a0 a1 a2 a3).dig = a3.dig ∧ (nvErase a0 a1 a2 a3).xs = a3.xs ∧ (nvErase a0 a1 a2 a3).ens = a3.ens ∧ (nvErase a0 a1 a2 a3).casc = a3.casc ∧
    (nvErase a0 a1 a2 a3).age = a3.age ∧ (nvErase a0 a1 a2 a3).fab = a3.fab ∧ (nvErase a0 a1 a2 a3).sb = a3.sb ∧ (nvErase a0 a1 a2 a3).bc = a3.bc ∧
    (nvErase a0 a1 a2 a3).jobs = a3.jobs ∧ (nvErase a0 a1 a2 a3).mgt = a3.mgt ∧ (nvErase a0 a1 a2 a3).cmd = a3.cmd ∧ (nvErase a0 a1 a2 a3).prot = a3.prot ∧
    (nvErase a0 a1 a2 a3).regs = a3.regs ∧ (nvErase a0 a1 a2 a3).mem = a3.mem ∧ (nvErase a0 a1 a2 a3).dma = a3.dma ∧ (nvErase a0 a1 a2 a3).trc = a3.trc ∧
    (nvErase a0 a1 a2 a3).nid = a3.nid ∧ (nvErase a0 a1 a2 a3).log = a3.log ∧ (nvErase a0 a1 a2 a3).boot = a3.boot ∧ (nvErase a0 a1 a2 a3).img = a3.img ∧
    (nvErase a0 a1 a2 a3).reports = a3.reports ∧ (nvErase a0 a1 a2 a3).posted = a3.posted := by
  have k := (nvErase_only a0 a1 a2 a3).keep
  exact ⟨k .free (by decide), k .sys (by decide), k .isl (by decide), k .time (by decide), k .regions (by decide), k .cells (by decide), k .hubc (by decide), k .res (by decide), k .dig (by decide), k .xs (by decide), k .ens (by decide), k .casc (by decide), k .age (by decide), k .fab (by decide), k .sb (by decide), k .bc (by decide), k .jobs (by decide), k .mgt (by decide), k .cmd (by decide), k .prot (by decide), k .regs (by decide), k .mem (by decide), k .dma (by decide), k .trc (by decide), k .nid (by decide), k .log (by decide), k .boot (by decide), k .img (by decide), k .reports (by decide), k .ram (by decide)⟩

@[simp] theorem postMem_keeps (a0 a1 a2) :
    (postMem a0 a1 a2).free = a2.free ∧ (postMem a0 a1 a2).sys = a2.sys ∧ (postMem a0 a1 a2).isl = a2.isl ∧ (postMem a0 a1 a2).time = a2.time ∧
    (postMem a0 a1 a2).regions = a2.regions ∧ (postMem a0 a1 a2).cells = a2.cells ∧ (postMem a0 a1 a2).hubc = a2.hubc ∧ (postMem a0 a1 a2).res = a2.res ∧
    (postMem a0 a1 a2).dig = a2.dig ∧ (postMem a0 a1 a2).xs = a2.xs ∧ (postMem a0 a1 a2).ens = a2.ens ∧ (postMem a0 a1 a2).casc = a2.casc ∧
    (postMem a0 a1 a2).age = a2.age ∧ (postMem a0 a1 a2).fab = a2.fab ∧ (postMem a0 a1 a2).sb = a2.sb ∧ (postMem a0 a1 a2).bc = a2.bc ∧
    (postMem a0 a1 a2).jobs = a2.jobs ∧ (postMem a0 a1 a2).mgt = a2.mgt ∧ (postMem a0 a1 a2).cmd = a2.cmd ∧ (postMem a0 a1 a2).prot = a2.prot ∧
    (postMem a0 a1 a2).regs = a2.regs ∧ (postMem a0 a1 a2).mem = a2.mem ∧ (postMem a0 a1 a2).dma = a2.dma ∧ (postMem a0 a1 a2).trc = a2.trc ∧
    (postMem a0 a1 a2).nid = a2.nid ∧ (postMem a0 a1 a2).log = a2.log ∧ (postMem a0 a1 a2).boot = a2.boot ∧ (postMem a0 a1 a2).img = a2.img ∧
    (postMem a0 a1 a2).reports = a2.reports ∧ (postMem a0 a1 a2).nvPosted = a2.nvPosted := by
  have k := (postMem_only a0 a1 a2).keep
  exact ⟨k .free (by decide), k .sys (by decide), k .isl (by decide), k .time (by decide), k .regions (by decide), k .cells (by decide), k .hubc (by decide), k .res (by decide), k .dig (by decide), k .xs (by decide), k .ens (by decide), k .casc (by decide), k .age (by decide), k .fab (by decide), k .sb (by decide), k .bc (by decide), k .jobs (by decide), k .mgt (by decide), k .cmd (by decide), k .prot (by decide), k .regs (by decide), k .mem (by decide), k .dma (by decide), k .trc (by decide), k .nid (by decide), k .log (by decide), k .boot (by decide), k .img (by decide), k .reports (by decide), k .nvm (by decide)⟩

@[simp] theorem pulseLine_keeps (a0 a1) :
    (pulseLine a0 a1).free = a1.free ∧ (pulseLine a0 a1).sys = a1.sys ∧ (pulseLine a0 a1).isl = a1.isl ∧ (pulseLine a0 a1).time = a1.time ∧
    (pulseLine a0 a1).regions = a1.regions ∧ (pulseLine a0 a1).cells = a1.cells ∧ (pulseLine a0 a1).hubc = a1.hubc ∧ (pulseLine a0 a1).res = a1.res ∧
    (pulseLine a0 a1).dig = a1.dig ∧ (pulseLine a0 a1).xs = a1.xs ∧ (pulseLine a0 a1).ens = a1.ens ∧ (pulseLine a0 a1).casc = a1.casc ∧
    (pulseLine a0 a1).age = a1.age ∧ (pulseLine a0 a1).fab = a1.fab ∧ (pulseLine a0 a1).sb = a1.sb ∧ (pulseLine a0 a1).bc = a1.bc ∧
    (pulseLine a0 a1).jobs = a1.jobs ∧ (pulseLine a0 a1).mgt = a1.mgt ∧ (pulseLine a0 a1).cmd = a1.cmd ∧ (pulseLine a0 a1).prot = a1.prot ∧
    (pulseLine a0 a1).mem = a1.mem ∧ (pulseLine a0 a1).trc = a1.trc ∧ (pulseLine a0 a1).nid = a1.nid ∧ (pulseLine a0 a1).boot = a1.boot ∧
    (pulseLine a0 a1).img = a1.img ∧ (pulseLine a0 a1).reports = a1.reports ∧ (pulseLine a0 a1).posted = a1.posted ∧ (pulseLine a0 a1).nvPosted = a1.nvPosted := by
  have k := (pulseLine_only a0 a1).keep
  exact ⟨k .free (by decide), k .sys (by decide), k .isl (by decide), k .time (by decide), k .regions (by decide), k .cells (by decide), k .hubc (by decide), k .res (by decide), k .dig (by decide), k .xs (by decide), k .ens (by decide), k .casc (by decide), k .age (by decide), k .fab (by decide), k .sb (by decide), k .bc (by decide), k .jobs (by decide), k .mgt (by decide), k .cmd (by decide), k .prot (by decide), k .mem (by decide), k .trc (by decide), k .nid (by decide), k .boot (by decide), k .img (by decide), k .reports (by decide), k .ram (by decide), k .nvm (by decide)⟩

@[simp] theorem setSeg_keeps (a0 a1 a2) :
    (setSeg a0 a1 a2).free = a2.free ∧ (setSeg a0 a1 a2).sys = a2.sys ∧ (setSeg a0 a1 a2).isl = a2.isl ∧ (setSeg a0 a1 a2).time = a2.time ∧
    (setSeg a0 a1 a2).regions = a2.regions ∧ (setSeg a0 a1 a2).cells = a2.cells ∧ (setSeg a0 a1 a2).hubc = a2.hubc ∧ (setSeg a0 a1 a2).res = a2.res ∧
    (setSeg a0 a1 a2).dig = a2.dig ∧ (setSeg a0 a1 a2).xs = a2.xs ∧ (setSeg a0 a1 a2).ens = a2.ens ∧ (setSeg a0 a1 a2).casc = a2.casc ∧
    (setSeg a0 a1 a2).age = a2.age ∧ (setSeg a0 a1 a2).fab = a2.fab ∧ (setSeg a0 a1 a2).sb = a2.sb ∧ (setSeg a0 a1 a2).bc = a2.bc ∧
    (setSeg a0 a1 a2).jobs = a2.jobs ∧ (setSeg a0 a1 a2).cmd = a2.cmd ∧ (setSeg a0 a1 a2).prot = a2.prot ∧ (setSeg a0 a1 a2).mem = a2.mem ∧
    (setSeg a0 a1 a2).dma = a2.dma ∧ (setSeg a0 a1 a2).trc = a2.trc ∧ (setSeg a0 a1 a2).nid = a2.nid ∧ (setSeg a0 a1 a2).boot = a2.boot ∧
    (setSeg a0 a1 a2).img = a2.img ∧ (setSeg a0 a1 a2).posted = a2.posted ∧ (setSeg a0 a1 a2).nvPosted = a2.nvPosted := by
  have k := (setSeg_only a0 a1 a2).keep
  exact ⟨k .free (by decide), k .sys (by decide), k .isl (by decide), k .time (by decide), k .regions (by decide), k .cells (by decide), k .hubc (by decide), k .res (by decide), k .dig (by decide), k .xs (by decide), k .ens (by decide), k .casc (by decide), k .age (by decide), k .fab (by decide), k .sb (by decide), k .bc (by decide), k .jobs (by decide), k .cmd (by decide), k .prot (by decide), k .mem (by decide), k .dma (by decide), k .trc (by decide), k .nid (by decide), k .boot (by decide), k .img (by decide), k .ram (by decide), k .nvm (by decide)⟩

@[simp] theorem access_keeps (a0 a1 a2) :
    (access a0 a1 a2).free = a2.free ∧ (access a0 a1 a2).sys = a2.sys ∧ (access a0 a1 a2).isl = a2.isl ∧ (access a0 a1 a2).time = a2.time ∧
    (access a0 a1 a2).regions = a2.regions ∧ (access a0 a1 a2).cells = a2.cells ∧ (access a0 a1 a2).hubc = a2.hubc ∧ (access a0 a1 a2).res = a2.res ∧
    (access a0 a1 a2).dig = a2.dig ∧ (access a0 a1 a2).xs = a2.xs ∧ (access a0 a1 a2).ens = a2.ens ∧ (access a0 a1 a2).casc = a2.casc ∧
    (access a0 a1 a2).age = a2.age ∧ (access a0 a1 a2).fab = a2.fab ∧ (access a0 a1 a2).sb = a2.sb ∧ (access a0 a1 a2).bc = a2.bc ∧
    (access a0 a1 a2).jobs = a2.jobs ∧ (access a0 a1 a2).mgt = a2.mgt ∧ (access a0 a1 a2).cmd = a2.cmd ∧ (access a0 a1 a2).prot = a2.prot ∧
    (access a0 a1 a2).dma = a2.dma ∧ (access a0 a1 a2).trc = a2.trc ∧ (access a0 a1 a2).nid = a2.nid ∧ (access a0 a1 a2).boot = a2.boot ∧
    (access a0 a1 a2).img = a2.img ∧ (access a0 a1 a2).reports = a2.reports ∧ (access a0 a1 a2).posted = a2.posted ∧ (access a0 a1 a2).nvPosted = a2.nvPosted := by
  have k := (access_only a0 a1 a2).keep
  exact ⟨k .free (by decide), k .sys (by decide), k .isl (by decide), k .time (by decide), k .regions (by decide), k .cells (by decide), k .hubc (by decide), k .res (by decide), k .dig (by decide), k .xs (by decide), k .ens (by decide), k .casc (by decide), k .age (by decide), k .fab (by decide), k .sb (by decide), k .bc (by decide), k .jobs (by decide), k .mgt (by decide), k .cmd (by decide), k .prot (by decide), k .dma (by decide), k .trc (by decide), k .nid (by decide), k .boot (by decide), k .img (by decide), k .reports (by decide), k .ram (by decide), k .nvm (by decide)⟩

@[simp] theorem dmaPump_keeps (a0 a1) :
    (dmaPump a0 a1).free = a1.free ∧ (dmaPump a0 a1).sys = a1.sys ∧ (dmaPump a0 a1).isl = a1.isl ∧ (dmaPump a0 a1).time = a1.time ∧
    (dmaPump a0 a1).dig = a1.dig ∧ (dmaPump a0 a1).xs = a1.xs ∧ (dmaPump a0 a1).fab = a1.fab ∧ (dmaPump a0 a1).sb = a1.sb ∧
    (dmaPump a0 a1).bc = a1.bc ∧ (dmaPump a0 a1).jobs = a1.jobs ∧ (dmaPump a0 a1).mgt = a1.mgt ∧ (dmaPump a0 a1).cmd = a1.cmd ∧
    (dmaPump a0 a1).prot = a1.prot ∧ (dmaPump a0 a1).nid = a1.nid ∧ (dmaPump a0 a1).boot = a1.boot ∧ (dmaPump a0 a1).img = a1.img ∧
    (dmaPump a0 a1).reports = a1.reports ∧ (dmaPump a0 a1).nvPosted = a1.nvPosted := by
  have k := (dmaPump_only a0 a1).keep
  exact ⟨k .free (by decide), k .sys (by decide), k .isl (by decide), k .time (by decide), k .dig (by decide), k .xs (by decide), k .fab (by decide), k .sb (by decide), k .bc (by decide), k .jobs (by decide), k .mgt (by decide), k .cmd (by decide), k .prot (by decide), k .nid (by decide), k .boot (by decide), k .img (by decide), k .reports (by decide), k .nvm (by decide)⟩

@[simp] theorem mgtSend_keeps (a0 a1 a2 a3) :
    (mgtSend a0 a1 a2 a3).free = a3.free ∧ (mgtSend a0 a1 a2 a3).sys = a3.sys ∧ (mgtSend a0 a1 a2 a3).isl = a3.isl ∧ (mgtSend a0 a1 a2 a3).time = a3.time ∧
    (mgtSend a0 a1 a2 a3).regions = a3.regions ∧ (mgtSend a0 a1 a2 a3).cells = a3.cells ∧ (mgtSend a0 a1 a2 a3).hubc = a3.hubc ∧ (mgtSend a0 a1 a2 a3).res = a3.res ∧
    (mgtSend a0 a1 a2 a3).dig = a3.dig ∧ (mgtSend a0 a1 a2 a3).xs = a3.xs ∧ (mgtSend a0 a1 a2 a3).ens = a3.ens ∧ (mgtSend a0 a1 a2 a3).casc = a3.casc ∧
    (mgtSend a0 a1 a2 a3).age = a3.age ∧ (mgtSend a0 a1 a2 a3).fab = a3.fab ∧ (mgtSend a0 a1 a2 a3).sb = a3.sb ∧ (mgtSend a0 a1 a2 a3).bc = a3.bc ∧
    (mgtSend a0 a1 a2 a3).jobs = a3.jobs ∧ (mgtSend a0 a1 a2 a3).cmd = a3.cmd ∧ (mgtSend a0 a1 a2 a3).prot = a3.prot ∧ (mgtSend a0 a1 a2 a3).regs = a3.regs ∧
    (mgtSend a0 a1 a2 a3).mem = a3.mem ∧ (mgtSend a0 a1 a2 a3).dma = a3.dma ∧ (mgtSend a0 a1 a2 a3).trc = a3.trc ∧ (mgtSend a0 a1 a2 a3).nid = a3.nid ∧
    (mgtSend a0 a1 a2 a3).log = a3.log ∧ (mgtSend a0 a1 a2 a3).boot = a3.boot ∧ (mgtSend a0 a1 a2 a3).img = a3.img ∧ (mgtSend a0 a1 a2 a3).reports = a3.reports ∧
    (mgtSend a0 a1 a2 a3).posted = a3.posted ∧ (mgtSend a0 a1 a2 a3).nvPosted = a3.nvPosted := by
  have k := (mgtSend_only a0 a1 a2 a3).keep
  exact ⟨k .free (by decide), k .sys (by decide), k .isl (by decide), k .time (by decide), k .regions (by decide), k .cells (by decide), k .hubc (by decide), k .res (by decide), k .dig (by decide), k .xs (by decide), k .ens (by decide), k .casc (by decide), k .age (by decide), k .fab (by decide), k .sb (by decide), k .bc (by decide), k .jobs (by decide), k .cmd (by decide), k .prot (by decide), k .regs (by decide), k .mem (by decide), k .dma (by decide), k .trc (by decide), k .nid (by decide), k .log (by decide), k .boot (by decide), k .img (by decide), k .reports (by decide), k .ram (by decide), k .nvm (by decide)⟩

@[simp] theorem sbNextMseq_keeps (a0) :
    (sbNextMseq a0).free = a0.free ∧ (sbNextMseq a0).sys = a0.sys ∧ (sbNextMseq a0).isl = a0.isl ∧ (sbNextMseq a0).time = a0.time ∧
    (sbNextMseq a0).regions = a0.regions ∧ (sbNextMseq a0).cells = a0.cells ∧ (sbNextMseq a0).hubc = a0.hubc ∧ (sbNextMseq a0).res = a0.res ∧
    (sbNextMseq a0).dig = a0.dig ∧ (sbNextMseq a0).xs = a0.xs ∧ (sbNextMseq a0).ens = a0.ens ∧ (sbNextMseq a0).casc = a0.casc ∧
    (sbNextMseq a0).age = a0.age ∧ (sbNextMseq a0).fab = a0.fab ∧ (sbNextMseq a0).bc = a0.bc ∧ (sbNextMseq a0).jobs = a0.jobs ∧
    (sbNextMseq a0).mgt = a0.mgt ∧ (sbNextMseq a0).cmd = a0.cmd ∧ (sbNextMseq a0).prot = a0.prot ∧ (sbNextMseq a0).regs = a0.regs ∧
    (sbNextMseq a0).mem = a0.mem ∧ (sbNextMseq a0).dma = a0.dma ∧ (sbNextMseq a0).trc = a0.trc ∧ (sbNextMseq a0).nid = a0.nid ∧
    (sbNextMseq a0).log = a0.log ∧ (sbNextMseq a0).boot = a0.boot ∧ (sbNextMseq a0).img = a0.img ∧ (sbNextMseq a0).reports = a0.reports ∧
    (sbNextMseq a0).posted = a0.posted ∧ (sbNextMseq a0).nvPosted = a0.nvPosted := by
  have k := (sbNextMseq_only a0).keep
  exact ⟨k .free (by decide), k .sys (by decide), k .isl (by decide), k .time (by decide), k .regions (by decide), k .cells (by decide), k .hubc (by decide), k .res (by decide), k .dig (by decide), k .xs (by decide), k .ens (by decide), k .casc (by decide), k .age (by decide), k .fab (by decide), k .bc (by decide), k .jobs (by decide), k .mgt (by decide), k .cmd (by decide), k .prot (by decide), k .regs (by decide), k .mem (by decide), k .dma (by decide), k .trc (by decide), k .nid (by decide), k .log (by decide), k .boot (by decide), k .img (by decide), k .reports (by decide), k .ram (by decide), k .nvm (by decide)⟩

@[simp] theorem noteFlood_keeps (a0 a1) :
    (noteFlood a0 a1).free = a1.free ∧ (noteFlood a0 a1).sys = a1.sys ∧ (noteFlood a0 a1).isl = a1.isl ∧ (noteFlood a0 a1).time = a1.time ∧
    (noteFlood a0 a1).regions = a1.regions ∧ (noteFlood a0 a1).cells = a1.cells ∧ (noteFlood a0 a1).hubc = a1.hubc ∧ (noteFlood a0 a1).res = a1.res ∧
    (noteFlood a0 a1).dig = a1.dig ∧ (noteFlood a0 a1).xs = a1.xs ∧ (noteFlood a0 a1).ens = a1.ens ∧ (noteFlood a0 a1).casc = a1.casc ∧
    (noteFlood a0 a1).age = a1.age ∧ (noteFlood a0 a1).fab = a1.fab ∧ (noteFlood a0 a1).bc = a1.bc ∧ (noteFlood a0 a1).jobs = a1.jobs ∧
    (noteFlood a0 a1).mgt = a1.mgt ∧ (noteFlood a0 a1).cmd = a1.cmd ∧ (noteFlood a0 a1).prot = a1.prot ∧ (noteFlood a0 a1).regs = a1.regs ∧
    (noteFlood a0 a1).mem = a1.mem ∧ (noteFlood a0 a1).dma = a1.dma ∧ (noteFlood a0 a1).trc = a1.trc ∧ (noteFlood a0 a1).nid = a1.nid ∧
    (noteFlood a0 a1).log = a1.log ∧ (noteFlood a0 a1).boot = a1.boot ∧ (noteFlood a0 a1).img = a1.img ∧ (noteFlood a0 a1).reports = a1.reports ∧
    (noteFlood a0 a1).posted = a1.posted ∧ (noteFlood a0 a1).nvPosted = a1.nvPosted := by
  have k := (noteFlood_only a0 a1).keep
  exact ⟨k .free (by decide), k .sys (by decide), k .isl (by decide), k .time (by decide), k .regions (by decide), k .cells (by decide), k .hubc (by decide), k .res (by decide), k .dig (by decide), k .xs (by decide), k .ens (by decide), k .casc (by decide), k .age (by decide), k .fab (by decide), k .bc (by decide), k .jobs (by decide), k .mgt (by decide), k .cmd (by decide), k .prot (by decide), k .regs (by decide), k .mem (by decide), k .dma (by decide), k .trc (by decide), k .nid (by decide), k .log (by decide), k .boot (by decide), k .img (by decide), k .reports (by decide), k .ram (by decide), k .nvm (by decide)⟩

@[simp] theorem chargePort_keeps (a0 a1 a2) :
    (chargePort a0 a1 a2).free = a2.free ∧ (chargePort a0 a1 a2).sys = a2.sys ∧ (chargePort a0 a1 a2).isl = a2.isl ∧ (chargePort a0 a1 a2).time = a2.time ∧
    (chargePort a0 a1 a2).regions = a2.regions ∧ (chargePort a0 a1 a2).cells = a2.cells ∧ (chargePort a0 a1 a2).hubc = a2.hubc ∧ (chargePort a0 a1 a2).res = a2.res ∧
    (chargePort a0 a1 a2).dig = a2.dig ∧ (chargePort a0 a1 a2).xs = a2.xs ∧ (chargePort a0 a1 a2).age = a2.age ∧ (chargePort a0 a1 a2).sb = a2.sb ∧
    (chargePort a0 a1 a2).bc = a2.bc ∧ (chargePort a0 a1 a2).jobs = a2.jobs ∧ (chargePort a0 a1 a2).mgt = a2.mgt ∧ (chargePort a0 a1 a2).cmd = a2.cmd ∧
    (chargePort a0 a1 a2).prot = a2.prot ∧ (chargePort a0 a1 a2).dma = a2.dma ∧ (chargePort a0 a1 a2).trc = a2.trc ∧ (chargePort a0 a1 a2).nid = a2.nid ∧
    (chargePort a0 a1 a2).boot = a2.boot ∧ (chargePort a0 a1 a2).img = a2.img ∧ (chargePort a0 a1 a2).reports = a2.reports ∧ (chargePort a0 a1 a2).posted = a2.posted ∧
    (chargePort a0 a1 a2).nvPosted = a2.nvPosted := by
  have k := (chargePort_only a0 a1 a2).keep
  exact ⟨k .free (by decide), k .sys (by decide), k .isl (by decide), k .time (by decide), k .regions (by decide), k .cells (by decide), k .hubc (by decide), k .res (by decide), k .dig (by decide), k .xs (by decide), k .age (by decide), k .sb (by decide), k .bc (by decide), k .jobs (by decide), k .mgt (by decide), k .cmd (by decide), k .prot (by decide), k .dma (by decide), k .trc (by decide), k .nid (by decide), k .boot (by decide), k .img (by decide), k .reports (by decide), k .ram (by decide), k .nvm (by decide)⟩

@[simp] theorem sbOut_keeps (a0 a1 a2) :
    (sbOut a0 a1 a2).free = a2.free ∧ (sbOut a0 a1 a2).sys = a2.sys ∧ (sbOut a0 a1 a2).isl = a2.isl ∧ (sbOut a0 a1 a2).time = a2.time ∧
    (sbOut a0 a1 a2).regions = a2.regions ∧ (sbOut a0 a1 a2).cells = a2.cells ∧ (sbOut a0 a1 a2).hubc = a2.hubc ∧ (sbOut a0 a1 a2).res = a2.res ∧
    (sbOut a0 a1 a2).dig = a2.dig ∧ (sbOut a0 a1 a2).xs = a2.xs ∧ (sbOut a0 a1 a2).ens = a2.ens ∧ (sbOut a0 a1 a2).casc = a2.casc ∧
    (sbOut a0 a1 a2).age = a2.age ∧ (sbOut a0 a1 a2).fab = a2.fab ∧ (sbOut a0 a1 a2).bc = a2.bc ∧ (sbOut a0 a1 a2).jobs = a2.jobs ∧
    (sbOut a0 a1 a2).mgt = a2.mgt ∧ (sbOut a0 a1 a2).cmd = a2.cmd ∧ (sbOut a0 a1 a2).prot = a2.prot ∧ (sbOut a0 a1 a2).regs = a2.regs ∧
    (sbOut a0 a1 a2).mem = a2.mem ∧ (sbOut a0 a1 a2).dma = a2.dma ∧ (sbOut a0 a1 a2).trc = a2.trc ∧ (sbOut a0 a1 a2).nid = a2.nid ∧
    (sbOut a0 a1 a2).log = a2.log ∧ (sbOut a0 a1 a2).boot = a2.boot ∧ (sbOut a0 a1 a2).img = a2.img ∧ (sbOut a0 a1 a2).reports = a2.reports ∧
    (sbOut a0 a1 a2).posted = a2.posted ∧ (sbOut a0 a1 a2).nvPosted = a2.nvPosted := by
  have k := (sbOut_only a0 a1 a2).keep
  exact ⟨k .free (by decide), k .sys (by decide), k .isl (by decide), k .time (by decide), k .regions (by decide), k .cells (by decide), k .hubc (by decide), k .res (by decide), k .dig (by decide), k .xs (by decide), k .ens (by decide), k .casc (by decide), k .age (by decide), k .fab (by decide), k .bc (by decide), k .jobs (by decide), k .mgt (by decide), k .cmd (by decide), k .prot (by decide), k .regs (by decide), k .mem (by decide), k .dma (by decide), k .trc (by decide), k .nid (by decide), k .log (by decide), k .boot (by decide), k .img (by decide), k .reports (by decide), k .ram (by decide), k .nvm (by decide)⟩

@[simp] theorem sbUp_keeps (a0 a1 a2 a3) :
    (sbUp a0 a1 a2 a3).free = a3.free ∧ (sbUp a0 a1 a2 a3).sys = a3.sys ∧ (sbUp a0 a1 a2 a3).isl = a3.isl ∧ (sbUp a0 a1 a2 a3).time = a3.time ∧
    (sbUp a0 a1 a2 a3).regions = a3.regions ∧ (sbUp a0 a1 a2 a3).cells = a3.cells ∧ (sbUp a0 a1 a2 a3).hubc = a3.hubc ∧ (sbUp a0 a1 a2 a3).res = a3.res ∧
    (sbUp a0 a1 a2 a3).dig = a3.dig ∧ (sbUp a0 a1 a2 a3).xs = a3.xs ∧ (sbUp a0 a1 a2 a3).ens = a3.ens ∧ (sbUp a0 a1 a2 a3).casc = a3.casc ∧
    (sbUp a0 a1 a2 a3).age = a3.age ∧ (sbUp a0 a1 a2 a3).fab = a3.fab ∧ (sbUp a0 a1 a2 a3).bc = a3.bc ∧ (sbUp a0 a1 a2 a3).jobs = a3.jobs ∧
    (sbUp a0 a1 a2 a3).mgt = a3.mgt ∧ (sbUp a0 a1 a2 a3).cmd = a3.cmd ∧ (sbUp a0 a1 a2 a3).prot = a3.prot ∧ (sbUp a0 a1 a2 a3).regs = a3.regs ∧
    (sbUp a0 a1 a2 a3).mem = a3.mem ∧ (sbUp a0 a1 a2 a3).dma = a3.dma ∧ (sbUp a0 a1 a2 a3).trc = a3.trc ∧ (sbUp a0 a1 a2 a3).nid = a3.nid ∧
    (sbUp a0 a1 a2 a3).log = a3.log ∧ (sbUp a0 a1 a2 a3).boot = a3.boot ∧ (sbUp a0 a1 a2 a3).img = a3.img ∧ (sbUp a0 a1 a2 a3).reports = a3.reports ∧
    (sbUp a0 a1 a2 a3).posted = a3.posted ∧ (sbUp a0 a1 a2 a3).nvPosted = a3.nvPosted := by
  have k := (sbUp_only a0 a1 a2 a3).keep
  exact ⟨k .free (by decide), k .sys (by decide), k .isl (by decide), k .time (by decide), k .regions (by decide), k .cells (by decide), k .hubc (by decide), k .res (by decide), k .dig (by decide), k .xs (by decide), k .ens (by decide), k .casc (by decide), k .age (by decide), k .fab (by decide), k .bc (by decide), k .jobs (by decide), k .mgt (by decide), k .cmd (by decide), k .prot (by decide), k .regs (by decide), k .mem (by decide), k .dma (by decide), k .trc (by decide), k .nid (by decide), k .log (by decide), k .boot (by decide), k .img (by decide), k .reports (by decide), k .ram (by decide), k .nvm (by decide)⟩

@[simp] theorem sbDown_keeps (a0 a1 a2 a3 a4) :
    (sbDown a0 a1 a2 a3 a4).free = a4.free ∧ (sbDown a0 a1 a2 a3 a4).sys = a4.sys ∧ (sbDown a0 a1 a2 a3 a4).isl = a4.isl ∧ (sbDown a0 a1 a2 a3 a4).time = a4.time ∧
    (sbDown a0 a1 a2 a3 a4).regions = a4.regions ∧ (sbDown a0 a1 a2 a3 a4).cells = a4.cells ∧ (sbDown a0 a1 a2 a3 a4).hubc = a4.hubc ∧ (sbDown a0 a1 a2 a3 a4).res = a4.res ∧
    (sbDown a0 a1 a2 a3 a4).dig = a4.dig ∧ (sbDown a0 a1 a2 a3 a4).xs = a4.xs ∧ (sbDown a0 a1 a2 a3 a4).ens = a4.ens ∧ (sbDown a0 a1 a2 a3 a4).casc = a4.casc ∧
    (sbDown a0 a1 a2 a3 a4).age = a4.age ∧ (sbDown a0 a1 a2 a3 a4).fab = a4.fab ∧ (sbDown a0 a1 a2 a3 a4).bc = a4.bc ∧ (sbDown a0 a1 a2 a3 a4).jobs = a4.jobs ∧
    (sbDown a0 a1 a2 a3 a4).mgt = a4.mgt ∧ (sbDown a0 a1 a2 a3 a4).cmd = a4.cmd ∧ (sbDown a0 a1 a2 a3 a4).prot = a4.prot ∧ (sbDown a0 a1 a2 a3 a4).regs = a4.regs ∧
    (sbDown a0 a1 a2 a3 a4).mem = a4.mem ∧ (sbDown a0 a1 a2 a3 a4).dma = a4.dma ∧ (sbDown a0 a1 a2 a3 a4).trc = a4.trc ∧ (sbDown a0 a1 a2 a3 a4).nid = a4.nid ∧
    (sbDown a0 a1 a2 a3 a4).log = a4.log ∧ (sbDown a0 a1 a2 a3 a4).boot = a4.boot ∧ (sbDown a0 a1 a2 a3 a4).img = a4.img ∧ (sbDown a0 a1 a2 a3 a4).reports = a4.reports ∧
    (sbDown a0 a1 a2 a3 a4).posted = a4.posted ∧ (sbDown a0 a1 a2 a3 a4).nvPosted = a4.nvPosted := by
  have k := (sbDown_only a0 a1 a2 a3 a4).keep
  exact ⟨k .free (by decide), k .sys (by decide), k .isl (by decide), k .time (by decide), k .regions (by decide), k .cells (by decide), k .hubc (by decide), k .res (by decide), k .dig (by decide), k .xs (by decide), k .ens (by decide), k .casc (by decide), k .age (by decide), k .fab (by decide), k .bc (by decide), k .jobs (by decide), k .mgt (by decide), k .cmd (by decide), k .prot (by decide), k .regs (by decide), k .mem (by decide), k .dma (by decide), k .trc (by decide), k .nid (by decide), k .log (by decide), k .boot (by decide), k .img (by decide), k .reports (by decide), k .ram (by decide), k .nvm (by decide)⟩

@[simp] theorem sbLocal_keeps (a0 a1 a2) :
    (sbLocal a0 a1 a2).free = a2.free ∧ (sbLocal a0 a1 a2).sys = a2.sys ∧ (sbLocal a0 a1 a2).isl = a2.isl ∧ (sbLocal a0 a1 a2).time = a2.time ∧
    (sbLocal a0 a1 a2).regions = a2.regions ∧ (sbLocal a0 a1 a2).cells = a2.cells ∧ (sbLocal a0 a1 a2).hubc = a2.hubc ∧ (sbLocal a0 a1 a2).res = a2.res ∧
    (sbLocal a0 a1 a2).dig = a2.dig ∧ (sbLocal a0 a1 a2).xs = a2.xs ∧ (sbLocal a0 a1 a2).ens = a2.ens ∧ (sbLocal a0 a1 a2).casc = a2.casc ∧
    (sbLocal a0 a1 a2).age = a2.age ∧ (sbLocal a0 a1 a2).fab = a2.fab ∧ (sbLocal a0 a1 a2).bc = a2.bc ∧ (sbLocal a0 a1 a2).jobs = a2.jobs ∧
    (sbLocal a0 a1 a2).mgt = a2.mgt ∧ (sbLocal a0 a1 a2).cmd = a2.cmd ∧ (sbLocal a0 a1 a2).prot = a2.prot ∧ (sbLocal a0 a1 a2).regs = a2.regs ∧
    (sbLocal a0 a1 a2).mem = a2.mem ∧ (sbLocal a0 a1 a2).dma = a2.dma ∧ (sbLocal a0 a1 a2).trc = a2.trc ∧ (sbLocal a0 a1 a2).nid = a2.nid ∧
    (sbLocal a0 a1 a2).log = a2.log ∧ (sbLocal a0 a1 a2).boot = a2.boot ∧ (sbLocal a0 a1 a2).img = a2.img ∧ (sbLocal a0 a1 a2).reports = a2.reports ∧
    (sbLocal a0 a1 a2).posted = a2.posted ∧ (sbLocal a0 a1 a2).nvPosted = a2.nvPosted := by
  have k := (sbLocal_only a0 a1 a2).keep
  exact ⟨k .free (by decide), k .sys (by decide), k .isl (by decide), k .time (by decide), k .regions (by decide), k .cells (by decide), k .hubc (by decide), k .res (by decide), k .dig (by decide), k .xs (by decide), k .ens (by decide), k .casc (by decide), k .age (by decide), k .fab (by decide), k .bc (by decide), k .jobs (by decide), k .mgt (by decide), k .cmd (by decide), k .prot (by decide), k .regs (by decide), k .mem (by decide), k .dma (by decide), k .trc (by decide), k .nid (by decide), k .log (by decide), k .boot (by decide), k .img (by decide), k .reports (by decide), k .ram (by decide), k .nvm (by decide)⟩

@[simp] theorem mgtReply_keeps (a0 a1 a2 a3 a4) :
    (mgtReply a0 a1 a2 a3 a4).free = a4.free ∧ (mgtReply a0 a1 a2 a3 a4).sys = a4.sys ∧ (mgtReply a0 a1 a2 a3 a4).isl = a4.isl ∧ (mgtReply a0 a1 a2 a3 a4).time = a4.time ∧
    (mgtReply a0 a1 a2 a3 a4).regions = a4.regions ∧ (mgtReply a0 a1 a2 a3 a4).cells = a4.cells ∧ (mgtReply a0 a1 a2 a3 a4).hubc = a4.hubc ∧ (mgtReply a0 a1 a2 a3 a4).res = a4.res ∧
    (mgtReply a0 a1 a2 a3 a4).dig = a4.dig ∧ (mgtReply a0 a1 a2 a3 a4).xs = a4.xs ∧ (mgtReply a0 a1 a2 a3 a4).ens = a4.ens ∧ (mgtReply a0 a1 a2 a3 a4).casc = a4.casc ∧
    (mgtReply a0 a1 a2 a3 a4).age = a4.age ∧ (mgtReply a0 a1 a2 a3 a4).fab = a4.fab ∧ (mgtReply a0 a1 a2 a3 a4).sb = a4.sb ∧ (mgtReply a0 a1 a2 a3 a4).bc = a4.bc ∧
    (mgtReply a0 a1 a2 a3 a4).jobs = a4.jobs ∧ (mgtReply a0 a1 a2 a3 a4).prot = a4.prot ∧ (mgtReply a0 a1 a2 a3 a4).regs = a4.regs ∧ (mgtReply a0 a1 a2 a3 a4).mem = a4.mem ∧
    (mgtReply a0 a1 a2 a3 a4).dma = a4.dma ∧ (mgtReply a0 a1 a2 a3 a4).trc = a4.trc ∧ (mgtReply a0 a1 a2 a3 a4).nid = a4.nid ∧ (mgtReply a0 a1 a2 a3 a4).log = a4.log ∧
    (mgtReply a0 a1 a2 a3 a4).boot = a4.boot ∧ (mgtReply a0 a1 a2 a3 a4).img = a4.img ∧ (mgtReply a0 a1 a2 a3 a4).reports = a4.reports ∧ (mgtReply a0 a1 a2 a3 a4).posted = a4.posted ∧
    (mgtReply a0 a1 a2 a3 a4).nvPosted = a4.nvPosted := by
  have k := (mgtReply_only a0 a1 a2 a3 a4).keep
  exact ⟨k .free (by decide), k .sys (by decide), k .isl (by decide), k .time (by decide), k .regions (by decide), k .cells (by decide), k .hubc (by decide), k .res (by decide), k .dig (by decide), k .xs (by decide), k .ens (by decide), k .casc (by decide), k .age (by decide), k .fab (by decide), k .sb (by decide), k .bc (by decide), k .jobs (by decide), k .prot (by decide), k .regs (by decide), k .mem (by decide), k .dma (by decide), k .trc (by decide), k .nid (by decide), k .log (by decide), k .boot (by decide), k .img (by decide), k .reports (by decide), k .ram (by decide), k .nvm (by decide)⟩

@[simp] theorem photenSend_keeps (a0 a1 a2 a3 a4 a5 a6) :
    (photenSend a0 a1 a2 a3 a4 a5 a6).free = a6.free ∧ (photenSend a0 a1 a2 a3 a4 a5 a6).sys = a6.sys ∧ (photenSend a0 a1 a2 a3 a4 a5 a6).isl = a6.isl ∧ (photenSend a0 a1 a2 a3 a4 a5 a6).time = a6.time ∧
    (photenSend a0 a1 a2 a3 a4 a5 a6).regions = a6.regions ∧ (photenSend a0 a1 a2 a3 a4 a5 a6).cells = a6.cells ∧ (photenSend a0 a1 a2 a3 a4 a5 a6).hubc = a6.hubc ∧ (photenSend a0 a1 a2 a3 a4 a5 a6).res = a6.res ∧
    (photenSend a0 a1 a2 a3 a4 a5 a6).dig = a6.dig ∧ (photenSend a0 a1 a2 a3 a4 a5 a6).ens = a6.ens ∧ (photenSend a0 a1 a2 a3 a4 a5 a6).casc = a6.casc ∧ (photenSend a0 a1 a2 a3 a4 a5 a6).age = a6.age ∧
    (photenSend a0 a1 a2 a3 a4 a5 a6).sb = a6.sb ∧ (photenSend a0 a1 a2 a3 a4 a5 a6).bc = a6.bc ∧ (photenSend a0 a1 a2 a3 a4 a5 a6).jobs = a6.jobs ∧ (photenSend a0 a1 a2 a3 a4 a5 a6).mgt = a6.mgt ∧
    (photenSend a0 a1 a2 a3 a4 a5 a6).cmd = a6.cmd ∧ (photenSend a0 a1 a2 a3 a4 a5 a6).prot = a6.prot ∧ (photenSend a0 a1 a2 a3 a4 a5 a6).regs = a6.regs ∧ (photenSend a0 a1 a2 a3 a4 a5 a6).mem = a6.mem ∧
    (photenSend a0 a1 a2 a3 a4 a5 a6).dma = a6.dma ∧ (photenSend a0 a1 a2 a3 a4 a5 a6).trc = a6.trc ∧ (photenSend a0 a1 a2 a3 a4 a5 a6).nid = a6.nid ∧ (photenSend a0 a1 a2 a3 a4 a5 a6).log = a6.log ∧
    (photenSend a0 a1 a2 a3 a4 a5 a6).boot = a6.boot ∧ (photenSend a0 a1 a2 a3 a4 a5 a6).img = a6.img ∧ (photenSend a0 a1 a2 a3 a4 a5 a6).reports = a6.reports ∧ (photenSend a0 a1 a2 a3 a4 a5 a6).posted = a6.posted ∧
    (photenSend a0 a1 a2 a3 a4 a5 a6).nvPosted = a6.nvPosted := by
  have k := (photenSend_only a0 a1 a2 a3 a4 a5 a6).keep
  exact ⟨k .free (by decide), k .sys (by decide), k .isl (by decide), k .time (by decide), k .regions (by decide), k .cells (by decide), k .hubc (by decide), k .res (by decide), k .dig (by decide), k .ens (by decide), k .casc (by decide), k .age (by decide), k .sb (by decide), k .bc (by decide), k .jobs (by decide), k .mgt (by decide), k .cmd (by decide), k .prot (by decide), k .regs (by decide), k .mem (by decide), k .dma (by decide), k .trc (by decide), k .nid (by decide), k .log (by decide), k .boot (by decide), k .img (by decide), k .reports (by decide), k .ram (by decide), k .nvm (by decide)⟩

@[simp] theorem setPeriod_keeps (a0 a1) :
    (setPeriod a0 a1).free = a1.free ∧ (setPeriod a0 a1).sys = a1.sys ∧ (setPeriod a0 a1).isl = a1.isl ∧ (setPeriod a0 a1).time = a1.time ∧
    (setPeriod a0 a1).regions = a1.regions ∧ (setPeriod a0 a1).cells = a1.cells ∧ (setPeriod a0 a1).hubc = a1.hubc ∧ (setPeriod a0 a1).res = a1.res ∧
    (setPeriod a0 a1).dig = a1.dig ∧ (setPeriod a0 a1).xs = a1.xs ∧ (setPeriod a0 a1).ens = a1.ens ∧ (setPeriod a0 a1).age = a1.age ∧
    (setPeriod a0 a1).fab = a1.fab ∧ (setPeriod a0 a1).sb = a1.sb ∧ (setPeriod a0 a1).bc = a1.bc ∧ (setPeriod a0 a1).jobs = a1.jobs ∧
    (setPeriod a0 a1).mgt = a1.mgt ∧ (setPeriod a0 a1).cmd = a1.cmd ∧ (setPeriod a0 a1).prot = a1.prot ∧ (setPeriod a0 a1).mem = a1.mem ∧
    (setPeriod a0 a1).dma = a1.dma ∧ (setPeriod a0 a1).trc = a1.trc ∧ (setPeriod a0 a1).nid = a1.nid ∧ (setPeriod a0 a1).boot = a1.boot ∧
    (setPeriod a0 a1).img = a1.img ∧ (setPeriod a0 a1).reports = a1.reports ∧ (setPeriod a0 a1).posted = a1.posted ∧ (setPeriod a0 a1).nvPosted = a1.nvPosted := by
  have k := (setPeriod_only a0 a1).keep
  exact ⟨k .free (by decide), k .sys (by decide), k .isl (by decide), k .time (by decide), k .regions (by decide), k .cells (by decide), k .hubc (by decide), k .res (by decide), k .dig (by decide), k .xs (by decide), k .ens (by decide), k .age (by decide), k .fab (by decide), k .sb (by decide), k .bc (by decide), k .jobs (by decide), k .mgt (by decide), k .cmd (by decide), k .prot (by decide), k .mem (by decide), k .dma (by decide), k .trc (by decide), k .nid (by decide), k .boot (by decide), k .img (by decide), k .reports (by decide), k .ram (by decide), k .nvm (by decide)⟩

@[simp] theorem retarget_keeps (a0 a1 a2) :
    (retarget a0 a1 a2).free = a2.free ∧ (retarget a0 a1 a2).sys = a2.sys ∧ (retarget a0 a1 a2).isl = a2.isl ∧ (retarget a0 a1 a2).time = a2.time ∧
    (retarget a0 a1 a2).hubc = a2.hubc ∧ (retarget a0 a1 a2).res = a2.res ∧ (retarget a0 a1 a2).dig = a2.dig ∧ (retarget a0 a1 a2).ens = a2.ens ∧
    (retarget a0 a1 a2).casc = a2.casc ∧ (retarget a0 a1 a2).age = a2.age ∧ (retarget a0 a1 a2).sb = a2.sb ∧ (retarget a0 a1 a2).bc = a2.bc ∧
    (retarget a0 a1 a2).jobs = a2.jobs ∧ (retarget a0 a1 a2).mgt = a2.mgt ∧ (retarget a0 a1 a2).cmd = a2.cmd ∧ (retarget a0 a1 a2).prot = a2.prot ∧
    (retarget a0 a1 a2).mem = a2.mem ∧ (retarget a0 a1 a2).boot = a2.boot ∧ (retarget a0 a1 a2).img = a2.img ∧ (retarget a0 a1 a2).reports = a2.reports ∧
    (retarget a0 a1 a2).nvPosted = a2.nvPosted := by
  have k := (retarget_only a0 a1 a2).keep
  exact ⟨k .free (by decide), k .sys (by decide), k .isl (by decide), k .time (by decide), k .hubc (by decide), k .res (by decide), k .dig (by decide), k .ens (by decide), k .casc (by decide), k .age (by decide), k .sb (by decide), k .bc (by decide), k .jobs (by decide), k .mgt (by decide), k .cmd (by decide), k .prot (by decide), k .mem (by decide), k .boot (by decide), k .img (by decide), k .reports (by decide), k .nvm (by decide)⟩

@[simp] theorem acceptAll_keeps (a0 a1 a2) :
    (acceptAll a0 a1 a2).free = a2.free ∧ (acceptAll a0 a1 a2).sys = a2.sys ∧ (acceptAll a0 a1 a2).isl = a2.isl ∧ (acceptAll a0 a1 a2).time = a2.time ∧
    (acceptAll a0 a1 a2).regions = a2.regions ∧ (acceptAll a0 a1 a2).cells = a2.cells ∧ (acceptAll a0 a1 a2).hubc = a2.hubc ∧ (acceptAll a0 a1 a2).res = a2.res ∧
    (acceptAll a0 a1 a2).dig = a2.dig ∧ (acceptAll a0 a1 a2).xs = a2.xs ∧ (acceptAll a0 a1 a2).ens = a2.ens ∧ (acceptAll a0 a1 a2).casc = a2.casc ∧
    (acceptAll a0 a1 a2).age = a2.age ∧ (acceptAll a0 a1 a2).fab = a2.fab ∧ (acceptAll a0 a1 a2).sb = a2.sb ∧ (acceptAll a0 a1 a2).bc = a2.bc ∧
    (acceptAll a0 a1 a2).jobs = a2.jobs ∧ (acceptAll a0 a1 a2).mgt = a2.mgt ∧ (acceptAll a0 a1 a2).cmd = a2.cmd ∧ (acceptAll a0 a1 a2).prot = a2.prot ∧
    (acceptAll a0 a1 a2).mem = a2.mem ∧ (acceptAll a0 a1 a2).dma = a2.dma ∧ (acceptAll a0 a1 a2).trc = a2.trc ∧ (acceptAll a0 a1 a2).nid = a2.nid ∧
    (acceptAll a0 a1 a2).boot = a2.boot ∧ (acceptAll a0 a1 a2).img = a2.img ∧ (acceptAll a0 a1 a2).reports = a2.reports ∧ (acceptAll a0 a1 a2).posted = a2.posted ∧
    (acceptAll a0 a1 a2).nvPosted = a2.nvPosted := by
  have k := (acceptAll_only a0 a1 a2).keep
  exact ⟨k .free (by decide), k .sys (by decide), k .isl (by decide), k .time (by decide), k .regions (by decide), k .cells (by decide), k .hubc (by decide), k .res (by decide), k .dig (by decide), k .xs (by decide), k .ens (by decide), k .casc (by decide), k .age (by decide), k .fab (by decide), k .sb (by decide), k .bc (by decide), k .jobs (by decide), k .mgt (by decide), k .cmd (by decide), k .prot (by decide), k .mem (by decide), k .dma (by decide), k .trc (by decide), k .nid (by decide), k .boot (by decide), k .img (by decide), k .reports (by decide), k .ram (by decide), k .nvm (by decide)⟩


end Sys2Proof.Machine
end

