-- ==== Sys2Proof/Laws/Units.lean ====
section
/-!
SUPPORT. Which parts of the hub the operations of the single families leave alone, one equation a part.
-/
namespace Sys2Proof.Machine

/-! A choice between two hubs, part by part. -/

@[simp] theorem ite_free {p : Prop} [Decidable p] (a b : Hub) : (if p then a else b).free = if p then a.free else b.free := by split <;> rfl
@[simp] theorem ite_sys {p : Prop} [Decidable p] (a b : Hub) : (if p then a else b).sys = if p then a.sys else b.sys := by split <;> rfl
@[simp] theorem ite_isl {p : Prop} [Decidable p] (a b : Hub) : (if p then a else b).isl = if p then a.isl else b.isl := by split <;> rfl
@[simp] theorem ite_time {p : Prop} [Decidable p] (a b : Hub) : (if p then a else b).time = if p then a.time else b.time := by split <;> rfl
@[simp] theorem ite_regions {p : Prop} [Decidable p] (a b : Hub) : (if p then a else b).regions = if p then a.regions else b.regions := by split <;> rfl
@[simp] theorem ite_cells {p : Prop} [Decidable p] (a b : Hub) : (if p then a else b).cells = if p then a.cells else b.cells := by split <;> rfl
@[simp] theorem ite_hubc {p : Prop} [Decidable p] (a b : Hub) : (if p then a else b).hubc = if p then a.hubc else b.hubc := by split <;> rfl
@[simp] theorem ite_res {p : Prop} [Decidable p] (a b : Hub) : (if p then a else b).res = if p then a.res else b.res := by split <;> rfl
@[simp] theorem ite_dig {p : Prop} [Decidable p] (a b : Hub) : (if p then a else b).dig = if p then a.dig else b.dig := by split <;> rfl
@[simp] theorem ite_xs {p : Prop} [Decidable p] (a b : Hub) : (if p then a else b).xs = if p then a.xs else b.xs := by split <;> rfl
@[simp] theorem ite_ens {p : Prop} [Decidable p] (a b : Hub) : (if p then a else b).ens = if p then a.ens else b.ens := by split <;> rfl
@[simp] theorem ite_casc {p : Prop} [Decidable p] (a b : Hub) : (if p then a else b).casc = if p then a.casc else b.casc := by split <;> rfl
@[simp] theorem ite_age {p : Prop} [Decidable p] (a b : Hub) : (if p then a else b).age = if p then a.age else b.age := by split <;> rfl
@[simp] theorem ite_fab {p : Prop} [Decidable p] (a b : Hub) : (if p then a else b).fab = if p then a.fab else b.fab := by split <;> rfl
@[simp] theorem ite_sb {p : Prop} [Decidable p] (a b : Hub) : (if p then a else b).sb = if p then a.sb else b.sb := by split <;> rfl
@[simp] theorem ite_bc {p : Prop} [Decidable p] (a b : Hub) : (if p then a else b).bc = if p then a.bc else b.bc := by split <;> rfl
@[simp] theorem ite_jobs {p : Prop} [Decidable p] (a b : Hub) : (if p then a else b).jobs = if p then a.jobs else b.jobs := by split <;> rfl
@[simp] theorem ite_mgt {p : Prop} [Decidable p] (a b : Hub) : (if p then a else b).mgt = if p then a.mgt else b.mgt := by split <;> rfl
@[simp] theorem ite_cmd {p : Prop} [Decidable p] (a b : Hub) : (if p then a else b).cmd = if p then a.cmd else b.cmd := by split <;> rfl
@[simp] theorem ite_prot {p : Prop} [Decidable p] (a b : Hub) : (if p then a else b).prot = if p then a.prot else b.prot := by split <;> rfl
@[simp] theorem ite_regs {p : Prop} [Decidable p] (a b : Hub) : (if p then a else b).regs = if p then a.regs else b.regs := by split <;> rfl
@[simp] theorem ite_mem {p : Prop} [Decidable p] (a b : Hub) : (if p then a else b).mem = if p then a.mem else b.mem := by split <;> rfl
@[simp] theorem ite_dma {p : Prop} [Decidable p] (a b : Hub) : (if p then a else b).dma = if p then a.dma else b.dma := by split <;> rfl
@[simp] theorem ite_trc {p : Prop} [Decidable p] (a b : Hub) : (if p then a else b).trc = if p then a.trc else b.trc := by split <;> rfl
@[simp] theorem ite_nid {p : Prop} [Decidable p] (a b : Hub) : (if p then a else b).nid = if p then a.nid else b.nid := by split <;> rfl
@[simp] theorem ite_log {p : Prop} [Decidable p] (a b : Hub) : (if p then a else b).log = if p then a.log else b.log := by split <;> rfl
@[simp] theorem ite_boot {p : Prop} [Decidable p] (a b : Hub) : (if p then a else b).boot = if p then a.boot else b.boot := by split <;> rfl
@[simp] theorem ite_img {p : Prop} [Decidable p] (a b : Hub) : (if p then a else b).img = if p then a.img else b.img := by split <;> rfl
@[simp] theorem ite_reports {p : Prop} [Decidable p] (a b : Hub) : (if p then a else b).reports = if p then a.reports else b.reports := by split <;> rfl
@[simp] theorem ite_posted {p : Prop} [Decidable p] (a b : Hub) : (if p then a else b).posted = if p then a.posted else b.posted := by split <;> rfl
@[simp] theorem ite_nvPosted {p : Prop} [Decidable p] (a b : Hub) : (if p then a else b).nvPosted = if p then a.nvPosted else b.nvPosted := by split <;> rfl

/-! A list of changes, part by part. -/

@[simp] theorem foldl_free {α : Type} (f : Hub → α → Hub) (l : List α) (h : Hub) (k : ∀ h x, (f h x).free = h.free) : (l.foldl f h).free = h.free := by
  induction l generalizing h with
  | nil => rfl
  | cons x t ih => exact (ih _).trans (k h x)
@[simp] theorem foldl_sys {α : Type} (f : Hub → α → Hub) (l : List α) (h : Hub) (k : ∀ h x, (f h x).sys = h.sys) : (l.foldl f h).sys = h.sys := by
  induction l generalizing h with
  | nil => rfl
  | cons x t ih => exact (ih _).trans (k h x)
@[simp] theorem foldl_isl {α : Type} (f : Hub → α → Hub) (l : List α) (h : Hub) (k : ∀ h x, (f h x).isl = h.isl) : (l.foldl f h).isl = h.isl := by
  induction l generalizing h with
  | nil => rfl
  | cons x t ih => exact (ih _).trans (k h x)
@[simp] theorem foldl_time {α : Type} (f : Hub → α → Hub) (l : List α) (h : Hub) (k : ∀ h x, (f h x).time = h.time) : (l.foldl f h).time = h.time := by
  induction l generalizing h with
  | nil => rfl
  | cons x t ih => exact (ih _).trans (k h x)
@[simp] theorem foldl_regions {α : Type} (f : Hub → α → Hub) (l : List α) (h : Hub) (k : ∀ h x, (f h x).regions = h.regions) : (l.foldl f h).regions = h.regions := by
  induction l generalizing h with
  | nil => rfl
  | cons x t ih => exact (ih _).trans (k h x)
@[simp] theorem foldl_cells {α : Type} (f : Hub → α → Hub) (l : List α) (h : Hub) (k : ∀ h x, (f h x).cells = h.cells) : (l.foldl f h).cells = h.cells := by
  induction l generalizing h with
  | nil => rfl
  | cons x t ih => exact (ih _).trans (k h x)
@[simp] theorem foldl_hubc {α : Type} (f : Hub → α → Hub) (l : List α) (h : Hub) (k : ∀ h x, (f h x).hubc = h.hubc) : (l.foldl f h).hubc = h.hubc := by
  induction l generalizing h with
  | nil => rfl
  | cons x t ih => exact (ih _).trans (k h x)
@[simp] theorem foldl_res {α : Type} (f : Hub → α → Hub) (l : List α) (h : Hub) (k : ∀ h x, (f h x).res = h.res) : (l.foldl f h).res = h.res := by
  induction l generalizing h with
  | nil => rfl
  | cons x t ih => exact (ih _).trans (k h x)
@[simp] theorem foldl_dig {α : Type} (f : Hub → α → Hub) (l : List α) (h : Hub) (k : ∀ h x, (f h x).dig = h.dig) : (l.foldl f h).dig = h.dig := by
  induction l generalizing h with
  | nil => rfl
  | cons x t ih => exact (ih _).trans (k h x)
@[simp] theorem foldl_xs {α : Type} (f : Hub → α → Hub) (l : List α) (h : Hub) (k : ∀ h x, (f h x).xs = h.xs) : (l.foldl f h).xs = h.xs := by
  induction l generalizing h with
  | nil => rfl
  | cons x t ih => exact (ih _).trans (k h x)
@[simp] theorem foldl_ens {α : Type} (f : Hub → α → Hub) (l : List α) (h : Hub) (k : ∀ h x, (f h x).ens = h.ens) : (l.foldl f h).ens = h.ens := by
  induction l generalizing h with
  | nil => rfl
  | cons x t ih => exact (ih _).trans (k h x)
@[simp] theorem foldl_casc {α : Type} (f : Hub → α → Hub) (l : List α) (h : Hub) (k : ∀ h x, (f h x).casc = h.casc) : (l.foldl f h).casc = h.casc := by
  induction l generalizing h with
  | nil => rfl
  | cons x t ih => exact (ih _).trans (k h x)
@[simp] theorem foldl_age {α : Type} (f : Hub → α → Hub) (l : List α) (h : Hub) (k : ∀ h x, (f h x).age = h.age) : (l.foldl f h).age = h.age := by
  induction l generalizing h with
  | nil => rfl
  | cons x t ih => exact (ih _).trans (k h x)
@[simp] theorem foldl_fab {α : Type} (f : Hub → α → Hub) (l : List α) (h : Hub) (k : ∀ h x, (f h x).fab = h.fab) : (l.foldl f h).fab = h.fab := by
  induction l generalizing h with
  | nil => rfl
  | cons x t ih => exact (ih _).trans (k h x)
@[simp] theorem foldl_sb {α : Type} (f : Hub → α → Hub) (l : List α) (h : Hub) (k : ∀ h x, (f h x).sb = h.sb) : (l.foldl f h).sb = h.sb := by
  induction l generalizing h with
  | nil => rfl
  | cons x t ih => exact (ih _).trans (k h x)
@[simp] theorem foldl_bc {α : Type} (f : Hub → α → Hub) (l : List α) (h : Hub) (k : ∀ h x, (f h x).bc = h.bc) : (l.foldl f h).bc = h.bc := by
  induction l generalizing h with
  | nil => rfl
  | cons x t ih => exact (ih _).trans (k h x)
@[simp] theorem foldl_jobs {α : Type} (f : Hub → α → Hub) (l : List α) (h : Hub) (k : ∀ h x, (f h x).jobs = h.jobs) : (l.foldl f h).jobs = h.jobs := by
  induction l generalizing h with
  | nil => rfl
  | cons x t ih => exact (ih _).trans (k h x)
@[simp] theorem foldl_mgt {α : Type} (f : Hub → α → Hub) (l : List α) (h : Hub) (k : ∀ h x, (f h x).mgt = h.mgt) : (l.foldl f h).mgt = h.mgt := by
  induction l generalizing h with
  | nil => rfl
  | cons x t ih => exact (ih _).trans (k h x)
@[simp] theorem foldl_cmd {α : Type} (f : Hub → α → Hub) (l : List α) (h : Hub) (k : ∀ h x, (f h x).cmd = h.cmd) : (l.foldl f h).cmd = h.cmd := by
  induction l generalizing h with
  | nil => rfl
  | cons x t ih => exact (ih _).trans (k h x)
@[simp] theorem foldl_prot {α : Type} (f : Hub → α → Hub) (l : List α) (h : Hub) (k : ∀ h x, (f h x).prot = h.prot) : (l.foldl f h).prot = h.prot := by
  induction l generalizing h with
  | nil => rfl
  | cons x t ih => exact (ih _).trans (k h x)
@[simp] theorem foldl_regs {α : Type} (f : Hub → α → Hub) (l : List α) (h : Hub) (k : ∀ h x, (f h x).regs = h.regs) : (l.foldl f h).regs = h.regs := by
  induction l generalizing h with
  | nil => rfl
  | cons x t ih => exact (ih _).trans (k h x)
@[simp] theorem foldl_mem {α : Type} (f : Hub → α → Hub) (l : List α) (h : Hub) (k : ∀ h x, (f h x).mem = h.mem) : (l.foldl f h).mem = h.mem := by
  induction l generalizing h with
  | nil => rfl
  | cons x t ih => exact (ih _).trans (k h x)
@[simp] theorem foldl_dma {α : Type} (f : Hub → α → Hub) (l : List α) (h : Hub) (k : ∀ h x, (f h x).dma = h.dma) : (l.foldl f h).dma = h.dma := by
  induction l generalizing h with
  | nil => rfl
  | cons x t ih => exact (ih _).trans (k h x)
@[simp] theorem foldl_trc {α : Type} (f : Hub → α → Hub) (l : List α) (h : Hub) (k : ∀ h x, (f h x).trc = h.trc) : (l.foldl f h).trc = h.trc := by
  induction l generalizing h with
  | nil => rfl
  | cons x t ih => exact (ih _).trans (k h x)
@[simp] theorem foldl_nid {α : Type} (f : Hub → α → Hub) (l : List α) (h : Hub) (k : ∀ h x, (f h x).nid = h.nid) : (l.foldl f h).nid = h.nid := by
  induction l generalizing h with
  | nil => rfl
  | cons x t ih => exact (ih _).trans (k h x)
@[simp] theorem foldl_log {α : Type} (f : Hub → α → Hub) (l : List α) (h : Hub) (k : ∀ h x, (f h x).log = h.log) : (l.foldl f h).log = h.log := by
  induction l generalizing h with
  | nil => rfl
  | cons x t ih => exact (ih _).trans (k h x)
@[simp] theorem foldl_boot {α : Type} (f : Hub → α → Hub) (l : List α) (h : Hub) (k : ∀ h x, (f h x).boot = h.boot) : (l.foldl f h).boot = h.boot := by
  induction l generalizing h with
  | nil => rfl
  | cons x t ih => exact (ih _).trans (k h x)
@[simp] theorem foldl_img {α : Type} (f : Hub → α → Hub) (l : List α) (h : Hub) (k : ∀ h x, (f h x).img = h.img) : (l.foldl f h).img = h.img := by
  induction l generalizing h with
  | nil => rfl
  | cons x t ih => exact (ih _).trans (k h x)
@[simp] theorem foldl_reports {α : Type} (f : Hub → α → Hub) (l : List α) (h : Hub) (k : ∀ h x, (f h x).reports = h.reports) : (l.foldl f h).reports = h.reports := by
  induction l generalizing h with
  | nil => rfl
  | cons x t ih => exact (ih _).trans (k h x)
@[simp] theorem foldl_posted {α : Type} (f : Hub → α → Hub) (l : List α) (h : Hub) (k : ∀ h x, (f h x).posted = h.posted) : (l.foldl f h).posted = h.posted := by
  induction l generalizing h with
  | nil => rfl
  | cons x t ih => exact (ih _).trans (k h x)
@[simp] theorem foldl_nvPosted {α : Type} (f : Hub → α → Hub) (l : List α) (h : Hub) (k : ∀ h x, (f h x).nvPosted = h.nvPosted) : (l.foldl f h).nvPosted = h.nvPosted := by
  induction l generalizing h with
  | nil => rfl
  | cons x t ih => exact (ih _).trans (k h x)

/-! The operations. -/

@[simp] theorem holdRemoved_keeps (a0) :
    (holdRemoved a0).free = a0.free ∧ (holdRemoved a0).sys = a0.sys ∧ (holdRemoved a0).isl = a0.isl ∧ (holdRemoved a0).time = a0.time ∧
    (holdRemoved a0).regions = a0.regions ∧ (holdRemoved a0).hubc = a0.hubc ∧ (holdRemoved a0).res = a0.res ∧ (holdRemoved a0).dig = a0.dig ∧
    (holdRemoved a0).xs = a0.xs ∧ (holdRemoved a0).ens = a0.ens ∧ (holdRemoved a0).casc = a0.casc ∧ (holdRemoved a0).age = a0.age ∧
    (holdRemoved a0).fab = a0.fab ∧ (holdRemoved a0).sb = a0.sb ∧ (holdRemoved a0).bc = a0.bc ∧ (holdRemoved a0).jobs = a0.jobs ∧
    (holdRemoved a0).mgt = a0.mgt ∧ (holdRemoved a0).cmd = a0.cmd ∧ (holdRemoved a0).prot = a0.prot ∧ (holdRemoved a0).regs = a0.regs ∧
    (holdRemoved a0).mem = a0.mem ∧ (holdRemoved a0).dma = a0.dma ∧ (holdRemoved a0).trc = a0.trc ∧ (holdRemoved a0).nid = a0.nid ∧
    (holdRemoved a0).log = a0.log ∧ (holdRemoved a0).boot = a0.boot ∧ (holdRemoved a0).img = a0.img ∧ (holdRemoved a0).reports = a0.reports ∧
    (holdRemoved a0).posted = a0.posted ∧ (holdRemoved a0).nvPosted = a0.nvPosted := by
  have k := (holdRemoved_only a0).keep
  exact ⟨k .free (by decide), k .sys (by decide), k .isl (by decide), k .time (by decide), k .regions (by decide), k .hubc (by decide), k .res (by decide), k .dig (by decide), k .xs (by decide), k .ens (by decide), k .casc (by decide), k .age (by decide), k .fab (by decide), k .sb (by decide), k .bc (by decide), k .jobs (by decide), k .mgt (by decide), k .cmd (by decide), k .prot (by decide), k .regs (by decide), k .mem (by decide), k .dma (by decide), k .trc (by decide), k .nid (by decide), k .log (by decide), k .boot (by decide), k .img (by decide), k .reports (by decide), k .ram (by decide), k .nvm (by decide)⟩

@[simp] theorem configRecords_keeps (a0 a1) :
    (configRecords a0 a1).free = a1.free ∧ (configRecords a0 a1).time = a1.time ∧ (configRecords a0 a1).regions = a1.regions ∧ (configRecords a0 a1).cells = a1.cells ∧
    (configRecords a0 a1).hubc = a1.hubc ∧ (configRecords a0 a1).res = a1.res ∧ (configRecords a0 a1).dig = a1.dig ∧ (configRecords a0 a1).xs = a1.xs ∧
    (configRecords a0 a1).ens = a1.ens ∧ (configRecords a0 a1).casc = a1.casc ∧ (configRecords a0 a1).age = a1.age ∧ (configRecords a0 a1).fab = a1.fab ∧
    (configRecords a0 a1).sb = a1.sb ∧ (configRecords a0 a1).bc = a1.bc ∧ (configRecords a0 a1).jobs = a1.jobs ∧ (configRecords a0 a1).mgt = a1.mgt ∧
    (configRecords a0 a1).cmd = a1.cmd ∧ (configRecords a0 a1).prot = a1.prot ∧ (configRecords a0 a1).mem = a1.mem ∧ (configRecords a0 a1).dma = a1.dma ∧
    (configRecords a0 a1).trc = a1.trc ∧ (configRecords a0 a1).nid = a1.nid ∧ (configRecords a0 a1).boot = a1.boot ∧ (configRecords a0 a1).img = a1.img ∧
    (configRecords a0 a1).reports = a1.reports ∧ (configRecords a0 a1).posted = a1.posted ∧ (configRecords a0 a1).nvPosted = a1.nvPosted := by
  have k := (configRecords_only a0 a1).keep
  exact ⟨k .free (by decide), k .time (by decide), k .regions (by decide), k .cells (by decide), k .hubc (by decide), k .res (by decide), k .dig (by decide), k .xs (by decide), k .ens (by decide), k .casc (by decide), k .age (by decide), k .fab (by decide), k .sb (by decide), k .bc (by decide), k .jobs (by decide), k .mgt (by decide), k .cmd (by decide), k .prot (by decide), k .mem (by decide), k .dma (by decide), k .trc (by decide), k .nid (by decide), k .boot (by decide), k .img (by decide), k .reports (by decide), k .ram (by decide), k .nvm (by decide)⟩

@[simp] theorem exitDrowse_keeps (a0) :
    (exitDrowse a0).free = a0.free ∧ (exitDrowse a0).isl = a0.isl ∧ (exitDrowse a0).regions = a0.regions ∧ (exitDrowse a0).hubc = a0.hubc ∧
    (exitDrowse a0).res = a0.res ∧ (exitDrowse a0).dig = a0.dig ∧ (exitDrowse a0).xs = a0.xs ∧ (exitDrowse a0).ens = a0.ens ∧
    (exitDrowse a0).age = a0.age ∧ (exitDrowse a0).fab = a0.fab ∧ (exitDrowse a0).sb = a0.sb ∧ (exitDrowse a0).bc = a0.bc ∧
    (exitDrowse a0).jobs = a0.jobs ∧ (exitDrowse a0).mgt = a0.mgt ∧ (exitDrowse a0).cmd = a0.cmd ∧ (exitDrowse a0).prot = a0.prot ∧
    (exitDrowse a0).mem = a0.mem ∧ (exitDrowse a0).dma = a0.dma ∧ (exitDrowse a0).trc = a0.trc ∧ (exitDrowse a0).nid = a0.nid ∧
    (exitDrowse a0).boot = a0.boot ∧ (exitDrowse a0).img = a0.img ∧ (exitDrowse a0).reports = a0.reports ∧ (exitDrowse a0).posted = a0.posted ∧
    (exitDrowse a0).nvPosted = a0.nvPosted := by
  have k := (exitDrowse_only a0).keep
  exact ⟨k .free (by decide), k .isl (by decide), k .regions (by decide), k .hubc (by decide), k .res (by decide), k .dig (by decide), k .xs (by decide), k .ens (by decide), k .age (by decide), k .fab (by decide), k .sb (by decide), k .bc (by decide), k .jobs (by decide), k .mgt (by decide), k .cmd (by decide), k .prot (by decide), k .mem (by decide), k .dma (by decide), k .trc (by decide), k .nid (by decide), k .boot (by decide), k .img (by decide), k .reports (by decide), k .ram (by decide), k .nvm (by decide)⟩

@[simp] theorem enterDrowse_keeps (a0) :
    (enterDrowse a0).free = a0.free ∧ (enterDrowse a0).isl = a0.isl ∧ (enterDrowse a0).time = a0.time ∧ (enterDrowse a0).regions = a0.regions ∧
    (enterDrowse a0).cells = a0.cells ∧ (enterDrowse a0).hubc = a0.hubc ∧ (enterDrowse a0).res = a0.res ∧ (enterDrowse a0).dig = a0.dig ∧
    (enterDrowse a0).xs = a0.xs ∧ (enterDrowse a0).ens = a0.ens ∧ (enterDrowse a0).age = a0.age ∧ (enterDrowse a0).fab = a0.fab ∧
    (enterDrowse a0).sb = a0.sb ∧ (enterDrowse a0).bc = a0.bc ∧ (enterDrowse a0).jobs = a0.jobs ∧ (enterDrowse a0).mgt = a0.mgt ∧
    (enterDrowse a0).cmd = a0.cmd ∧ (enterDrowse a0).prot = a0.prot ∧ (enterDrowse a0).mem = a0.mem ∧ (enterDrowse a0).dma = a0.dma ∧
    (enterDrowse a0).trc = a0.trc ∧ (enterDrowse a0).nid = a0.nid ∧ (enterDrowse a0).boot = a0.boot ∧ (enterDrowse a0).img = a0.img ∧
    (enterDrowse a0).reports = a0.reports ∧ (enterDrowse a0).posted = a0.posted ∧ (enterDrowse a0).nvPosted = a0.nvPosted := by
  have k := (enterDrowse_only a0).keep
  exact ⟨k .free (by decide), k .isl (by decide), k .time (by decide), k .regions (by decide), k .cells (by decide), k .hubc (by decide), k .res (by decide), k .dig (by decide), k .xs (by decide), k .ens (by decide), k .age (by decide), k .fab (by decide), k .sb (by decide), k .bc (by decide), k .jobs (by decide), k .mgt (by decide), k .cmd (by decide), k .prot (by decide), k .mem (by decide), k .dma (by decide), k .trc (by decide), k .nid (by decide), k .boot (by decide), k .img (by decide), k .reports (by decide), k .ram (by decide), k .nvm (by decide)⟩

@[simp] theorem startOrderly_keeps (a0 a1) :
    (startOrderly a0 a1).free = a1.free ∧ (startOrderly a0 a1).isl = a1.isl ∧ (startOrderly a0 a1).time = a1.time ∧ (startOrderly a0 a1).regions = a1.regions ∧
    (startOrderly a0 a1).cells = a1.cells ∧ (startOrderly a0 a1).hubc = a1.hubc ∧ (startOrderly a0 a1).res = a1.res ∧ (startOrderly a0 a1).dig = a1.dig ∧
    (startOrderly a0 a1).xs = a1.xs ∧ (startOrderly a0 a1).ens = a1.ens ∧ (startOrderly a0 a1).casc = a1.casc ∧ (startOrderly a0 a1).age = a1.age ∧
    (startOrderly a0 a1).fab = a1.fab ∧ (startOrderly a0 a1).sb = a1.sb ∧ (startOrderly a0 a1).bc = a1.bc ∧ (startOrderly a0 a1).jobs = a1.jobs ∧
    (startOrderly a0 a1).mgt = a1.mgt ∧ (startOrderly a0 a1).cmd = a1.cmd ∧ (startOrderly a0 a1).prot = a1.prot ∧ (startOrderly a0 a1).regs = a1.regs ∧
    (startOrderly a0 a1).mem = a1.mem ∧ (startOrderly a0 a1).dma = a1.dma ∧ (startOrderly a0 a1).trc = a1.trc ∧ (startOrderly a0 a1).nid = a1.nid ∧
    (startOrderly a0 a1).boot = a1.boot ∧ (startOrderly a0 a1).img = a1.img ∧ (startOrderly a0 a1).reports = a1.reports ∧ (startOrderly a0 a1).posted = a1.posted ∧
    (startOrderly a0 a1).nvPosted = a1.nvPosted := by
  have k := (startOrderly_only a0 a1).keep
  exact ⟨k .free (by decide), k .isl (by decide), k .time (by decide), k .regions (by decide), k .cells (by decide), k .hubc (by decide), k .res (by decide), k .dig (by decide), k .xs (by decide), k .ens (by decide), k .casc (by decide), k .age (by decide), k .fab (by decide), k .sb (by decide), k .bc (by decide), k .jobs (by decide), k .mgt (by decide), k .cmd (by decide), k .prot (by decide), k .regs (by decide), k .mem (by decide), k .dma (by decide), k .trc (by decide), k .nid (by decide), k .boot (by decide), k .img (by decide), k .reports (by decide), k .ram (by decide), k .nvm (by decide)⟩

@[simp] theorem enterConfig_keeps (a0 a1 a2) :
    (enterConfig a0 a1 a2).free = a2.free ∧ (enterConfig a0 a1 a2).hubc = a2.hubc ∧ (enterConfig a0 a1 a2).res = a2.res ∧ (enterConfig a0 a1 a2).dig = a2.dig ∧
    (enterConfig a0 a1 a2).ens = a2.ens ∧ (enterConfig a0 a1 a2).bc = a2.bc ∧ (enterConfig a0 a1 a2).jobs = a2.jobs ∧ (enterConfig a0 a1 a2).mgt = a2.mgt ∧
    (enterConfig a0 a1 a2).cmd = a2.cmd ∧ (enterConfig a0 a1 a2).prot = a2.prot ∧ (enterConfig a0 a1 a2).mem = a2.mem ∧ (enterConfig a0 a1 a2).reports = a2.reports ∧
    (enterConfig a0 a1 a2).nvPosted = a2.nvPosted := by
  have k := (enterConfig_only a0 a1 a2).keep
  exact ⟨k .free (by decide), k .hubc (by decide), k .res (by decide), k .dig (by decide), k .ens (by decide), k .bc (by decide), k .jobs (by decide), k .mgt (by decide), k .cmd (by decide), k .prot (by decide), k .mem (by decide), k .reports (by decide), k .nvm (by decide)⟩

@[simp] theorem restoreRemoved_keeps (a0 a1) :
    (restoreRemoved a0 a1).free = a1.free ∧ (restoreRemoved a0 a1).sys = a1.sys ∧ (restoreRemoved a0 a1).isl = a1.isl ∧ (restoreRemoved a0 a1).time = a1.time ∧
    (restoreRemoved a0 a1).regions = a1.regions ∧ (restoreRemoved a0 a1).cells = a1.cells ∧ (restoreRemoved a0 a1).hubc = a1.hubc ∧ (restoreRemoved a0 a1).res = a1.res ∧
    (restoreRemoved a0 a1).dig = a1.dig ∧ (restoreRemoved a0 a1).xs = a1.xs ∧ (restoreRemoved a0 a1).ens = a1.ens ∧ (restoreRemoved a0 a1).age = a1.age ∧
    (restoreRemoved a0 a1).fab = a1.fab ∧ (restoreRemoved a0 a1).sb = a1.sb ∧ (restoreRemoved a0 a1).bc = a1.bc ∧ (restoreRemoved a0 a1).jobs = a1.jobs ∧
    (restoreRemoved a0 a1).mgt = a1.mgt ∧ (restoreRemoved a0 a1).cmd = a1.cmd ∧ (restoreRemoved a0 a1).prot = a1.prot ∧ (restoreRemoved a0 a1).regs = a1.regs ∧
    (restoreRemoved a0 a1).mem = a1.mem ∧ (restoreRemoved a0 a1).dma = a1.dma ∧ (restoreRemoved a0 a1).trc = a1.trc ∧ (restoreRemoved a0 a1).nid = a1.nid ∧
    (restoreRemoved a0 a1).log = a1.log ∧ (restoreRemoved a0 a1).boot = a1.boot ∧ (restoreRemoved a0 a1).img = a1.img ∧ (restoreRemoved a0 a1).reports = a1.reports ∧
    (restoreRemoved a0 a1).posted = a1.posted ∧ (restoreRemoved a0 a1).nvPosted = a1.nvPosted := by
  have k := (restoreRemoved_only a0 a1).keep
  exact ⟨k .free (by decide), k .sys (by decide), k .isl (by decide), k .time (by decide), k .regions (by decide), k .cells (by decide), k .hubc (by decide), k .res (by decide), k .dig (by decide), k .xs (by decide), k .ens (by decide), k .age (by decide), k .fab (by decide), k .sb (by decide), k .bc (by decide), k .jobs (by decide), k .mgt (by decide), k .cmd (by decide), k .prot (by decide), k .regs (by decide), k .mem (by decide), k .dma (by decide), k .trc (by decide), k .nid (by decide), k .log (by decide), k .boot (by decide), k .img (by decide), k .reports (by decide), k .ram (by decide), k .nvm (by decide)⟩

@[simp] theorem blockReset_keeps (a0) :
    (blockReset a0).free = a0.free ∧ (blockReset a0).reports = a0.reports ∧ (blockReset a0).posted = a0.posted ∧ (blockReset a0).nvPosted = a0.nvPosted := by
  have k := (blockReset_only a0).keep
  exact ⟨k .free (by decide), k .reports (by decide), k .ram (by decide), k .nvm (by decide)⟩

@[simp] theorem coldReset_keeps (a0) :
    (coldReset a0).free = a0.free ∧ (coldReset a0).reports = a0.reports ∧ (coldReset a0).posted = a0.posted ∧ (coldReset a0).nvPosted = a0.nvPosted := by
  have k := (coldReset_only a0).keep
  exact ⟨k .free (by decide), k .reports (by decide), k .ram (by decide), k .nvm (by decide)⟩

@[simp] theorem blockClear_keeps (a0) :
    (blockClear a0).free = a0.free ∧ (blockClear a0).reports = a0.reports ∧ (blockClear a0).posted = a0.posted ∧ (blockClear a0).nvPosted = a0.nvPosted := by
  have k := (blockClear_only a0).keep
  exact ⟨k .free (by decide), k .reports (by decide), k .ram (by decide), k .nvm (by decide)⟩

@[simp] theorem wakeClear_keeps (a0) :
    (wakeClear a0).free = a0.free ∧ (wakeClear a0).reports = a0.reports ∧ (wakeClear a0).posted = a0.posted ∧ (wakeClear a0).nvPosted = a0.nvPosted := by
  have k := (wakeClear_only a0).keep
  exact ⟨k .free (by decide), k .reports (by decide), k .ram (by decide), k .nvm (by decide)⟩

@[simp] theorem configClear_keeps (a0) :
    (configClear a0).free = a0.free ∧ (configClear a0).reports = a0.reports ∧ (configClear a0).posted = a0.posted ∧ (configClear a0).nvPosted = a0.nvPosted := by
  have k := (configClear_only a0).keep
  exact ⟨k .free (by decide), k .reports (by decide), k .ram (by decide), k .nvm (by decide)⟩

@[simp] theorem enableSeg_keeps (a0 a1) :
    (enableSeg a0 a1).free = a1.free ∧ (enableSeg a0 a1).sys = a1.sys ∧ (enableSeg a0 a1).isl = a1.isl ∧ (enableSeg a0 a1).time = a1.time ∧
    (enableSeg a0 a1).regions = a1.regions ∧ (enableSeg a0 a1).cells = a1.cells ∧ (enableSeg a0 a1).hubc = a1.hubc ∧ (enableSeg a0 a1).res = a1.res ∧
    (enableSeg a0 a1).dig = a1.dig ∧ (enableSeg a0 a1).xs = a1.xs ∧ (enableSeg a0 a1).ens = a1.ens ∧ (enableSeg a0 a1).casc = a1.casc ∧
    (enableSeg a0 a1).age = a1.age ∧ (enableSeg a0 a1).fab = a1.fab ∧ (enableSeg a0 a1).sb = a1.sb ∧ (enableSeg a0 a1).bc = a1.bc ∧
    (enableSeg a0 a1).jobs = a1.jobs ∧ (enableSeg a0 a1).cmd = a1.cmd ∧ (enableSeg a0 a1).prot = a1.prot ∧ (enableSeg a0 a1).mem = a1.mem ∧
    (enableSeg a0 a1).dma = a1.dma ∧ (enableSeg a0 a1).trc = a1.trc ∧ (enableSeg a0 a1).nid = a1.nid ∧ (enableSeg a0 a1).boot = a1.boot ∧
    (enableSeg a0 a1).img = a1.img ∧ (enableSeg a0 a1).posted = a1.posted ∧ (enableSeg a0 a1).nvPosted = a1.nvPosted := by
  have k := (enableSeg_only a0 a1).keep
  exact ⟨k .free (by decide), k .sys (by decide), k .isl (by decide), k .time (by decide), k .regions (by decide), k .cells (by decide), k .hubc (by decide), k .res (by decide), k .dig (by decide), k .xs (by decide), k .ens (by decide), k .casc (by decide), k .age (by decide), k .fab (by decide), k .sb (by decide), k .bc (by decide), k .jobs (by decide), k .cmd (by decide), k .prot (by decide), k .mem (by decide), k .dma (by decide), k .trc (by decide), k .nid (by decide), k .boot (by decide), k .img (by decide), k .ram (by decide), k .nvm (by decide)⟩

@[simp] theorem freeEpochs_keeps (a0) :
    (freeEpochs a0).free = a0.free ∧ (freeEpochs a0).sys = a0.sys ∧ (freeEpochs a0).isl = a0.isl ∧ (freeEpochs a0).time = a0.time ∧
    (freeEpochs a0).regions = a0.regions ∧ (freeEpochs a0).cells = a0.cells ∧ (freeEpochs a0).hubc = a0.hubc ∧ (freeEpochs a0).res = a0.res ∧
    (freeEpochs a0).ens = a0.ens ∧ (freeEpochs a0).casc = a0.casc ∧ (freeEpochs a0).age = a0.age ∧ (freeEpochs a0).fab = a0.fab ∧
    (freeEpochs a0).sb = a0.sb ∧ (freeEpochs a0).bc = a0.bc ∧ (freeEpochs a0).jobs = a0.jobs ∧ (freeEpochs a0).mgt = a0.mgt ∧
    (freeEpochs a0).cmd = a0.cmd ∧ (freeEpochs a0).prot = a0.prot ∧ (freeEpochs a0).regs = a0.regs ∧ (freeEpochs a0).mem = a0.mem ∧
    (freeEpochs a0).dma = a0.dma ∧ (freeEpochs a0).trc = a0.trc ∧ (freeEpochs a0).nid = a0.nid ∧ (freeEpochs a0).log = a0.log ∧
    (freeEpochs a0).boot = a0.boot ∧ (freeEpochs a0).img = a0.img ∧ (freeEpochs a0).reports = a0.reports ∧ (freeEpochs a0).posted = a0.posted ∧
    (freeEpochs a0).nvPosted = a0.nvPosted := by
  have k := (freeEpochs_only a0).keep
  exact ⟨k .free (by decide), k .sys (by decide), k .isl (by decide), k .time (by decide), k .regions (by decide), k .cells (by decide), k .hubc (by decide), k .res (by decide), k .ens (by decide), k .casc (by decide), k .age (by decide), k .fab (by decide), k .sb (by decide), k .bc (by decide), k .jobs (by decide), k .mgt (by decide), k .cmd (by decide), k .prot (by decide), k .regs (by decide), k .mem (by decide), k .dma (by decide), k .trc (by decide), k .nid (by decide), k .log (by decide), k .boot (by decide), k .img (by decide), k .reports (by decide), k .ram (by decide), k .nvm (by decide)⟩

@[simp] theorem startTimers_keeps (a0) :
    (startTimers a0).free = a0.free ∧ (startTimers a0).sys = a0.sys ∧ (startTimers a0).isl = a0.isl ∧ (startTimers a0).cells = a0.cells ∧
    (startTimers a0).hubc = a0.hubc ∧ (startTimers a0).res = a0.res ∧ (startTimers a0).dig = a0.dig ∧ (startTimers a0).xs = a0.xs ∧
    (startTimers a0).ens = a0.ens ∧ (startTimers a0).bc = a0.bc ∧ (startTimers a0).jobs = a0.jobs ∧ (startTimers a0).mgt = a0.mgt ∧
    (startTimers a0).cmd = a0.cmd ∧ (startTimers a0).prot = a0.prot ∧ (startTimers a0).regs = a0.regs ∧ (startTimers a0).mem = a0.mem ∧
    (startTimers a0).dma = a0.dma ∧ (startTimers a0).trc = a0.trc ∧ (startTimers a0).nid = a0.nid ∧ (startTimers a0).log = a0.log ∧
    (startTimers a0).boot = a0.boot ∧ (startTimers a0).img = a0.img ∧ (startTimers a0).reports = a0.reports ∧ (startTimers a0).posted = a0.posted ∧
    (startTimers a0).nvPosted = a0.nvPosted := by
  have k := (startTimers_only a0).keep
  exact ⟨k .free (by decide), k .sys (by decide), k .isl (by decide), k .cells (by decide), k .hubc (by decide), k .res (by decide), k .dig (by decide), k .xs (by decide), k .ens (by decide), k .bc (by decide), k .jobs (by decide), k .mgt (by decide), k .cmd (by decide), k .prot (by decide), k .regs (by decide), k .mem (by decide), k .dma (by decide), k .trc (by decide), k .nid (by decide), k .log (by decide), k .boot (by decide), k .img (by decide), k .reports (by decide), k .ram (by decide), k .nvm (by decide)⟩

@[simp] theorem enterPlaya_keeps (a0 a1 a2 a3) :
    (enterPlaya a0 a1 a2 a3).free = a3.free ∧ (enterPlaya a0 a1 a2 a3).isl = a3.isl ∧ (enterPlaya a0 a1 a2 a3).hubc = a3.hubc ∧ (enterPlaya a0 a1 a2 a3).res = a3.res ∧
    (enterPlaya a0 a1 a2 a3).ens = a3.ens ∧ (enterPlaya a0 a1 a2 a3).age = a3.age ∧ (enterPlaya a0 a1 a2 a3).jobs = a3.jobs ∧ (enterPlaya a0 a1 a2 a3).cmd = a3.cmd ∧
    (enterPlaya a0 a1 a2 a3).prot = a3.prot ∧ (enterPlaya a0 a1 a2 a3).nvPosted = a3.nvPosted := by
  have k := (enterPlaya_only a0 a1 a2 a3).keep
  exact ⟨k .free (by decide), k .isl (by decide), k .hubc (by decide), k .res (by decide), k .ens (by decide), k .age (by decide), k .jobs (by decide), k .cmd (by decide), k .prot (by decide), k .nvm (by decide)⟩

@[simp] theorem fuseCheck_keeps (a0 a1) :
    (fuseCheck a0 a1).free = a1.free ∧ (fuseCheck a0 a1).hubc = a1.hubc ∧ (fuseCheck a0 a1).ens = a1.ens ∧ (fuseCheck a0 a1).jobs = a1.jobs ∧
    (fuseCheck a0 a1).cmd = a1.cmd ∧ (fuseCheck a0 a1).prot = a1.prot ∧ (fuseCheck a0 a1).nvPosted = a1.nvPosted := by
  have k := (fuseCheck_only a0 a1).keep
  exact ⟨k .free (by decide), k .hubc (by decide), k .ens (by decide), k .jobs (by decide), k .cmd (by decide), k .prot (by decide), k .nvm (by decide)⟩

@[simp] theorem traceFreeze_keeps (a0) :
    (traceFreeze a0).free = a0.free ∧ (traceFreeze a0).sys = a0.sys ∧ (traceFreeze a0).isl = a0.isl ∧ (traceFreeze a0).time = a0.time ∧
    (traceFreeze a0).regions = a0.regions ∧ (traceFreeze a0).cells = a0.cells ∧ (traceFreeze a0).hubc = a0.hubc ∧ (traceFreeze a0).res = a0.res ∧
    (traceFreeze a0).dig = a0.dig ∧ (traceFreeze a0).xs = a0.xs ∧ (traceFreeze a0).ens = a0.ens ∧ (traceFreeze a0).casc = a0.casc ∧
    (traceFreeze a0).age = a0.age ∧ (traceFreeze a0).fab = a0.fab ∧ (traceFreeze a0).sb = a0.sb ∧ (traceFreeze a0).bc = a0.bc ∧
    (traceFreeze a0).jobs = a0.jobs ∧ (traceFreeze a0).mgt = a0.mgt ∧ (traceFreeze a0).cmd = a0.cmd ∧ (traceFreeze a0).prot = a0.prot ∧
    (traceFreeze a0).regs = a0.regs ∧ (traceFreeze a0).mem = a0.mem ∧ (traceFreeze a0).dma = a0.dma ∧ (traceFreeze a0).nid = a0.nid ∧
    (traceFreeze a0).log = a0.log ∧ (traceFreeze a0).boot = a0.boot ∧ (traceFreeze a0).img = a0.img ∧ (traceFreeze a0).reports = a0.reports ∧
    (traceFreeze a0).posted = a0.posted ∧ (traceFreeze a0).nvPosted = a0.nvPosted := by
  have k := (traceFreeze_only a0).keep
  exact ⟨k .free (by decide), k .sys (by decide), k .isl (by decide), k .time (by decide), k .regions (by decide), k .cells (by decide), k .hubc (by decide), k .res (by decide), k .dig (by decide), k .xs (by decide), k .ens (by decide), k .casc (by decide), k .age (by decide), k .fab (by decide), k .sb (by decide), k .bc (by decide), k .jobs (by decide), k .mgt (by decide), k .cmd (by decide), k .prot (by decide), k .regs (by decide), k .mem (by decide), k .dma (by decide), k .nid (by decide), k .log (by decide), k .boot (by decide), k .img (by decide), k .reports (by decide), k .ram (by decide), k .nvm (by decide)⟩

@[simp] theorem traceThaw_keeps (a0 a1) :
    (traceThaw a0 a1).free = a1.free ∧ (traceThaw a0 a1).sys = a1.sys ∧ (traceThaw a0 a1).isl = a1.isl ∧ (traceThaw a0 a1).time = a1.time ∧
    (traceThaw a0 a1).hubc = a1.hubc ∧ (traceThaw a0 a1).res = a1.res ∧ (traceThaw a0 a1).dig = a1.dig ∧ (traceThaw a0 a1).xs = a1.xs ∧
    (traceThaw a0 a1).ens = a1.ens ∧ (traceThaw a0 a1).casc = a1.casc ∧ (traceThaw a0 a1).age = a1.age ∧ (traceThaw a0 a1).fab = a1.fab ∧
    (traceThaw a0 a1).sb = a1.sb ∧ (traceThaw a0 a1).bc = a1.bc ∧ (traceThaw a0 a1).jobs = a1.jobs ∧ (traceThaw a0 a1).mgt = a1.mgt ∧
    (traceThaw a0 a1).cmd = a1.cmd ∧ (traceThaw a0 a1).prot = a1.prot ∧ (traceThaw a0 a1).mem = a1.mem ∧ (traceThaw a0 a1).dma = a1.dma ∧
    (traceThaw a0 a1).nid = a1.nid ∧ (traceThaw a0 a1).log = a1.log ∧ (traceThaw a0 a1).boot = a1.boot ∧ (traceThaw a0 a1).img = a1.img ∧
    (traceThaw a0 a1).reports = a1.reports ∧ (traceThaw a0 a1).posted = a1.posted ∧ (traceThaw a0 a1).nvPosted = a1.nvPosted := by
  have k := (traceThaw_only a0 a1).keep
  exact ⟨k .free (by decide), k .sys (by decide), k .isl (by decide), k .time (by decide), k .hubc (by decide), k .res (by decide), k .dig (by decide), k .xs (by decide), k .ens (by decide), k .casc (by decide), k .age (by decide), k .fab (by decide), k .sb (by decide), k .bc (by decide), k .jobs (by decide), k .mgt (by decide), k .cmd (by decide), k .prot (by decide), k .mem (by decide), k .dma (by decide), k .nid (by decide), k .log (by decide), k .boot (by decide), k .img (by decide), k .reports (by decide), k .ram (by decide), k .nvm (by decide)⟩

@[simp] theorem migResume_keeps (a0 a1) :
    (migResume a0 a1).free = a1.free ∧ (migResume a0 a1).sys = a1.sys ∧ (migResume a0 a1).isl = a1.isl ∧ (migResume a0 a1).time = a1.time ∧
    (migResume a0 a1).regions = a1.regions ∧ (migResume a0 a1).cells = a1.cells ∧ (migResume a0 a1).hubc = a1.hubc ∧ (migResume a0 a1).res = a1.res ∧
    (migResume a0 a1).dig = a1.dig ∧ (migResume a0 a1).xs = a1.xs ∧ (migResume a0 a1).ens = a1.ens ∧ (migResume a0 a1).casc = a1.casc ∧
    (migResume a0 a1).age = a1.age ∧ (migResume a0 a1).fab = a1.fab ∧ (migResume a0 a1).sb = a1.sb ∧ (migResume a0 a1).bc = a1.bc ∧
    (migResume a0 a1).jobs = a1.jobs ∧ (migResume a0 a1).mgt = a1.mgt ∧ (migResume a0 a1).cmd = a1.cmd ∧ (migResume a0 a1).prot = a1.prot ∧
    (migResume a0 a1).dma = a1.dma ∧ (migResume a0 a1).trc = a1.trc ∧ (migResume a0 a1).nid = a1.nid ∧ (migResume a0 a1).boot = a1.boot ∧
    (migResume a0 a1).img = a1.img ∧ (migResume a0 a1).reports = a1.reports ∧ (migResume a0 a1).posted = a1.posted ∧ (migResume a0 a1).nvPosted = a1.nvPosted := by
  have k := (migResume_only a0 a1).keep
  exact ⟨k .free (by decide), k .sys (by decide), k .isl (by decide), k .time (by decide), k .regions (by decide), k .cells (by decide), k .hubc (by decide), k .res (by decide), k .dig (by decide), k .xs (by decide), k .ens (by decide), k .casc (by decide), k .age (by decide), k .fab (by decide), k .sb (by decide), k .bc (by decide), k .jobs (by decide), k .mgt (by decide), k .cmd (by decide), k .prot (by decide), k .dma (by decide), k .trc (by decide), k .nid (by decide), k .boot (by decide), k .img (by decide), k .reports (by decide), k .ram (by decide), k .nvm (by decide)⟩

@[simp] theorem sendHeartbeat_keeps (a0 a1) :
    (sendHeartbeat a0 a1).free = a1.free ∧ (sendHeartbeat a0 a1).sys = a1.sys ∧ (sendHeartbeat a0 a1).isl = a1.isl ∧ (sendHeartbeat a0 a1).time = a1.time ∧
    (sendHeartbeat a0 a1).regions = a1.regions ∧ (sendHeartbeat a0 a1).cells = a1.cells ∧ (sendHeartbeat a0 a1).hubc = a1.hubc ∧ (sendHeartbeat a0 a1).res = a1.res ∧
    (sendHeartbeat a0 a1).dig = a1.dig ∧ (sendHeartbeat a0 a1).xs = a1.xs ∧ (sendHeartbeat a0 a1).ens = a1.ens ∧ (sendHeartbeat a0 a1).casc = a1.casc ∧
    (sendHeartbeat a0 a1).age = a1.age ∧ (sendHeartbeat a0 a1).fab = a1.fab ∧ (sendHeartbeat a0 a1).bc = a1.bc ∧ (sendHeartbeat a0 a1).jobs = a1.jobs ∧
    (sendHeartbeat a0 a1).mgt = a1.mgt ∧ (sendHeartbeat a0 a1).cmd = a1.cmd ∧ (sendHeartbeat a0 a1).prot = a1.prot ∧ (sendHeartbeat a0 a1).regs = a1.regs ∧
    (sendHeartbeat a0 a1).mem = a1.mem ∧ (sendHeartbeat a0 a1).dma = a1.dma ∧ (sendHeartbeat a0 a1).trc = a1.trc ∧ (sendHeartbeat a0 a1).nid = a1.nid ∧
    (sendHeartbeat a0 a1).log = a1.log ∧ (sendHeartbeat a0 a1).boot = a1.boot ∧ (sendHeartbeat a0 a1).img = a1.img ∧ (sendHeartbeat a0 a1).reports = a1.reports ∧
    (sendHeartbeat a0 a1).posted = a1.posted ∧ (sendHeartbeat a0 a1).nvPosted = a1.nvPosted := by
  have k := (sendHeartbeat_only a0 a1).keep
  exact ⟨k .free (by decide), k .sys (by decide), k .isl (by decide), k .time (by decide), k .regions (by decide), k .cells (by decide), k .hubc (by decide), k .res (by decide), k .dig (by decide), k .xs (by decide), k .ens (by decide), k .casc (by decide), k .age (by decide), k .fab (by decide), k .bc (by decide), k .jobs (by decide), k .mgt (by decide), k .cmd (by decide), k .prot (by decide), k .regs (by decide), k .mem (by decide), k .dma (by decide), k .trc (by decide), k .nid (by decide), k .log (by decide), k .boot (by decide), k .img (by decide), k .reports (by decide), k .ram (by decide), k .nvm (by decide)⟩

@[simp] theorem endCapture_keeps (a0 a1 a2) :
    (endCapture a0 a1 a2).free = a2.free ∧ (endCapture a0 a1 a2).sys = a2.sys ∧ (endCapture a0 a1 a2).isl = a2.isl ∧ (endCapture a0 a1 a2).time = a2.time ∧
    (endCapture a0 a1 a2).hubc = a2.hubc ∧ (endCapture a0 a1 a2).res = a2.res ∧ (endCapture a0 a1 a2).dig = a2.dig ∧ (endCapture a0 a1 a2).ens = a2.ens ∧
    (endCapture a0 a1 a2).casc = a2.casc ∧ (endCapture a0 a1 a2).age = a2.age ∧ (endCapture a0 a1 a2).sb = a2.sb ∧ (endCapture a0 a1 a2).bc = a2.bc ∧
    (endCapture a0 a1 a2).jobs = a2.jobs ∧ (endCapture a0 a1 a2).mgt = a2.mgt ∧ (endCapture a0 a1 a2).cmd = a2.cmd ∧ (endCapture a0 a1 a2).prot = a2.prot ∧
    (endCapture a0 a1 a2).mem = a2.mem ∧ (endCapture a0 a1 a2).boot = a2.boot ∧ (endCapture a0 a1 a2).img = a2.img ∧ (endCapture a0 a1 a2).reports = a2.reports ∧
    (endCapture a0 a1 a2).nvPosted = a2.nvPosted := by
  have k := (endCapture_only a0 a1 a2).keep
  exact ⟨k .free (by decide), k .sys (by decide), k .isl (by decide), k .time (by decide), k .hubc (by decide), k .res (by decide), k .dig (by decide), k .ens (by decide), k .casc (by decide), k .age (by decide), k .sb (by decide), k .bc (by decide), k .jobs (by decide), k .mgt (by decide), k .cmd (by decide), k .prot (by decide), k .mem (by decide), k .boot (by decide), k .img (by decide), k .reports (by decide), k .nvm (by decide)⟩

@[simp] theorem writeFlush_keeps (a0 a1) :
    (writeFlush a0 a1).free = a1.free ∧ (writeFlush a0 a1).sys = a1.sys ∧ (writeFlush a0 a1).isl = a1.isl ∧ (writeFlush a0 a1).time = a1.time ∧
    (writeFlush a0 a1).regions = a1.regions ∧ (writeFlush a0 a1).cells = a1.cells ∧ (writeFlush a0 a1).hubc = a1.hubc ∧ (writeFlush a0 a1).res = a1.res ∧
    (writeFlush a0 a1).dig = a1.dig ∧ (writeFlush a0 a1).xs = a1.xs ∧ (writeFlush a0 a1).ens = a1.ens ∧ (writeFlush a0 a1).casc = a1.casc ∧
    (writeFlush a0 a1).age = a1.age ∧ (writeFlush a0 a1).fab = a1.fab ∧ (writeFlush a0 a1).sb = a1.sb ∧ (writeFlush a0 a1).bc = a1.bc ∧
    (writeFlush a0 a1).jobs = a1.jobs ∧ (writeFlush a0 a1).mgt = a1.mgt ∧ (writeFlush a0 a1).cmd = a1.cmd ∧ (writeFlush a0 a1).prot = a1.prot ∧
    (writeFlush a0 a1).mem = a1.mem ∧ (writeFlush a0 a1).dma = a1.dma ∧ (writeFlush a0 a1).trc = a1.trc ∧ (writeFlush a0 a1).nid = a1.nid ∧
    (writeFlush a0 a1).boot = a1.boot ∧ (writeFlush a0 a1).img = a1.img ∧ (writeFlush a0 a1).reports = a1.reports ∧ (writeFlush a0 a1).posted = a1.posted := by
  have k := (writeFlush_only a0 a1).keep
  exact ⟨k .free (by decide), k .sys (by decide), k .isl (by decide), k .time (by decide), k .regions (by decide), k .cells (by decide), k .hubc (by decide), k .res (by decide), k .dig (by decide), k .xs (by decide), k .ens (by decide), k .casc (by decide), k .age (by decide), k .fab (by decide), k .sb (by decide), k .bc (by decide), k .jobs (by decide), k .mgt (by decide), k .cmd (by decide), k .prot (by decide), k .mem (by decide), k .dma (by decide), k .trc (by decide), k .nid (by decide), k .boot (by decide), k .img (by decide), k .reports (by decide), k .ram (by decide)⟩

@[simp] theorem enterDormant_keeps (a0 a1) :
    (enterDormant a0 a1).free = a1.free ∧ (enterDormant a0 a1).hubc = a1.hubc ∧ (enterDormant a0 a1).res = a1.res ∧ (enterDormant a0 a1).dig = a1.dig ∧
    (enterDormant a0 a1).ens = a1.ens ∧ (enterDormant a0 a1).casc = a1.casc ∧ (enterDormant a0 a1).age = a1.age ∧ (enterDormant a0 a1).bc = a1.bc ∧
    (enterDormant a0 a1).jobs = a1.jobs ∧ (enterDormant a0 a1).mgt = a1.mgt ∧ (enterDormant a0 a1).cmd = a1.cmd ∧ (enterDormant a0 a1).prot = a1.prot ∧
    (enterDormant a0 a1).mem = a1.mem ∧ (enterDormant a0 a1).boot = a1.boot ∧ (enterDormant a0 a1).img = a1.img ∧ (enterDormant a0 a1).reports = a1.reports := by
  have k := (enterDormant_only a0 a1).keep
  exact ⟨k .free (by decide), k .hubc (by decide), k .res (by decide), k .dig (by decide), k .ens (by decide), k .casc (by decide), k .age (by decide), k .bc (by decide), k .jobs (by decide), k .mgt (by decide), k .cmd (by decide), k .prot (by decide), k .mem (by decide), k .boot (by decide), k .img (by decide), k .reports (by decide)⟩

@[simp] theorem leaveFlush_keeps (a0 a1) :
    (leaveFlush a0 a1).free = a1.free ∧ (leaveFlush a0 a1).isl = a1.isl ∧ (leaveFlush a0 a1).hubc = a1.hubc ∧ (leaveFlush a0 a1).res = a1.res ∧
    (leaveFlush a0 a1).dig = a1.dig ∧ (leaveFlush a0 a1).xs = a1.xs ∧ (leaveFlush a0 a1).ens = a1.ens ∧ (leaveFlush a0 a1).casc = a1.casc ∧
    (leaveFlush a0 a1).age = a1.age ∧ (leaveFlush a0 a1).fab = a1.fab ∧ (leaveFlush a0 a1).sb = a1.sb ∧ (leaveFlush a0 a1).bc = a1.bc ∧
    (leaveFlush a0 a1).jobs = a1.jobs ∧ (leaveFlush a0 a1).mgt = a1.mgt ∧ (leaveFlush a0 a1).cmd = a1.cmd ∧ (leaveFlush a0 a1).prot = a1.prot ∧
    (leaveFlush a0 a1).dma = a1.dma ∧ (leaveFlush a0 a1).nid = a1.nid ∧ (leaveFlush a0 a1).reports = a1.reports ∧ (leaveFlush a0 a1).posted = a1.posted ∧
    (leaveFlush a0 a1).nvPosted = a1.nvPosted := by
  have k := (leaveFlush_only a0 a1).keep
  exact ⟨k .free (by decide), k .isl (by decide), k .hubc (by decide), k .res (by decide), k .dig (by decide), k .xs (by decide), k .ens (by decide), k .casc (by decide), k .age (by decide), k .fab (by decide), k .sb (by decide), k .bc (by decide), k .jobs (by decide), k .mgt (by decide), k .cmd (by decide), k .prot (by decide), k .dma (by decide), k .nid (by decide), k .reports (by decide), k .ram (by decide), k .nvm (by decide)⟩

@[simp] theorem enterFlush_keeps (a0 a1) :
    (enterFlush a0 a1).free = a1.free ∧ (enterFlush a0 a1).isl = a1.isl ∧ (enterFlush a0 a1).time = a1.time ∧ (enterFlush a0 a1).regions = a1.regions ∧
    (enterFlush a0 a1).cells = a1.cells ∧ (enterFlush a0 a1).hubc = a1.hubc ∧ (enterFlush a0 a1).res = a1.res ∧ (enterFlush a0 a1).dig = a1.dig ∧
    (enterFlush a0 a1).xs = a1.xs ∧ (enterFlush a0 a1).ens = a1.ens ∧ (enterFlush a0 a1).casc = a1.casc ∧ (enterFlush a0 a1).age = a1.age ∧
    (enterFlush a0 a1).fab = a1.fab ∧ (enterFlush a0 a1).bc = a1.bc ∧ (enterFlush a0 a1).jobs = a1.jobs ∧ (enterFlush a0 a1).mgt = a1.mgt ∧
    (enterFlush a0 a1).cmd = a1.cmd ∧ (enterFlush a0 a1).prot = a1.prot ∧ (enterFlush a0 a1).mem = a1.mem ∧ (enterFlush a0 a1).dma = a1.dma ∧
    (enterFlush a0 a1).nid = a1.nid ∧ (enterFlush a0 a1).boot = a1.boot ∧ (enterFlush a0 a1).img = a1.img ∧ (enterFlush a0 a1).reports = a1.reports ∧
    (enterFlush a0 a1).posted = a1.posted ∧ (enterFlush a0 a1).nvPosted = a1.nvPosted := by
  have k := (enterFlush_only a0 a1).keep
  exact ⟨k .free (by decide), k .isl (by decide), k .time (by decide), k .regions (by decide), k .cells (by decide), k .hubc (by decide), k .res (by decide), k .dig (by decide), k .xs (by decide), k .ens (by decide), k .casc (by decide), k .age (by decide), k .fab (by decide), k .bc (by decide), k .jobs (by decide), k .mgt (by decide), k .cmd (by decide), k .prot (by decide), k .mem (by decide), k .dma (by decide), k .nid (by decide), k .boot (by decide), k .img (by decide), k .reports (by decide), k .ram (by decide), k .nvm (by decide)⟩

@[simp] theorem mirrorAll_keeps (a0 a1) :
    (mirrorAll a0 a1).free = a1.free ∧ (mirrorAll a0 a1).sys = a1.sys ∧ (mirrorAll a0 a1).isl = a1.isl ∧ (mirrorAll a0 a1).time = a1.time ∧
    (mirrorAll a0 a1).regions = a1.regions ∧ (mirrorAll a0 a1).cells = a1.cells ∧ (mirrorAll a0 a1).hubc = a1.hubc ∧ (mirrorAll a0 a1).res = a1.res ∧
    (mirrorAll a0 a1).dig = a1.dig ∧ (mirrorAll a0 a1).xs = a1.xs ∧ (mirrorAll a0 a1).ens = a1.ens ∧ (mirrorAll a0 a1).casc = a1.casc ∧
    (mirrorAll a0 a1).age = a1.age ∧ (mirrorAll a0 a1).fab = a1.fab ∧ (mirrorAll a0 a1).sb = a1.sb ∧ (mirrorAll a0 a1).bc = a1.bc ∧
    (mirrorAll a0 a1).jobs = a1.jobs ∧ (mirrorAll a0 a1).mgt = a1.mgt ∧ (mirrorAll a0 a1).cmd = a1.cmd ∧ (mirrorAll a0 a1).prot = a1.prot ∧
    (mirrorAll a0 a1).regs = a1.regs ∧ (mirrorAll a0 a1).mem = a1.mem ∧ (mirrorAll a0 a1).dma = a1.dma ∧ (mirrorAll a0 a1).trc = a1.trc ∧
    (mirrorAll a0 a1).nid = a1.nid ∧ (mirrorAll a0 a1).boot = a1.boot ∧ (mirrorAll a0 a1).img = a1.img ∧ (mirrorAll a0 a1).reports = a1.reports ∧
    (mirrorAll a0 a1).posted = a1.posted := by
  have k := (mirrorAll_only a0 a1).keep
  exact ⟨k .free (by decide), k .sys (by decide), k .isl (by decide), k .time (by decide), k .regions (by decide), k .cells (by decide), k .hubc (by decide), k .res (by decide), k .dig (by decide), k .xs (by decide), k .ens (by decide), k .casc (by decide), k .age (by decide), k .fab (by decide), k .sb (by decide), k .bc (by decide), k .jobs (by decide), k .mgt (by decide), k .cmd (by decide), k .prot (by decide), k .regs (by decide), k .mem (by decide), k .dma (by decide), k .trc (by decide), k .nid (by decide), k .boot (by decide), k .img (by decide), k .reports (by decide), k .ram (by decide)⟩

@[simp] theorem recordChecks_keeps (a0 a1) :
    (recordChecks a0 a1).free = a1.free ∧ (recordChecks a0 a1).sys = a1.sys ∧ (recordChecks a0 a1).isl = a1.isl ∧ (recordChecks a0 a1).time = a1.time ∧
    (recordChecks a0 a1).regions = a1.regions ∧ (recordChecks a0 a1).cells = a1.cells ∧ (recordChecks a0 a1).hubc = a1.hubc ∧ (recordChecks a0 a1).res = a1.res ∧
    (recordChecks a0 a1).dig = a1.dig ∧ (recordChecks a0 a1).xs = a1.xs ∧ (recordChecks a0 a1).ens = a1.ens ∧ (recordChecks a0 a1).casc = a1.casc ∧
    (recordChecks a0 a1).age = a1.age ∧ (recordChecks a0 a1).fab = a1.fab ∧ (recordChecks a0 a1).sb = a1.sb ∧ (recordChecks a0 a1).bc = a1.bc ∧
    (recordChecks a0 a1).jobs = a1.jobs ∧ (recordChecks a0 a1).mgt = a1.mgt ∧ (recordChecks a0 a1).cmd = a1.cmd ∧ (recordChecks a0 a1).prot = a1.prot ∧
    (recordChecks a0 a1).mem = a1.mem ∧ (recordChecks a0 a1).dma = a1.dma ∧ (recordChecks a0 a1).trc = a1.trc ∧ (recordChecks a0 a1).nid = a1.nid ∧
    (recordChecks a0 a1).boot = a1.boot ∧ (recordChecks a0 a1).img = a1.img ∧ (recordChecks a0 a1).reports = a1.reports ∧ (recordChecks a0 a1).posted = a1.posted ∧
    (recordChecks a0 a1).nvPosted = a1.nvPosted := by
  have k := (recordChecks_only a0 a1).keep
  exact ⟨k .free (by decide), k .sys (by decide), k .isl (by decide), k .time (by decide), k .regions (by decide), k .cells (by decide), k .hubc (by decide), k .res (by decide), k .dig (by decide), k .xs (by decide), k .ens (by decide), k .casc (by decide), k .age (by decide), k .fab (by decide), k .sb (by decide), k .bc (by decide), k .jobs (by decide), k .mgt (by decide), k .cmd (by decide), k .prot (by decide), k .mem (by decide), k .dma (by decide), k .trc (by decide), k .nid (by decide), k .boot (by decide), k .img (by decide), k .reports (by decide), k .ram (by decide), k .nvm (by decide)⟩

@[simp] theorem restorePlans_keeps (a0 a1) :
    (restorePlans a0 a1).free = a1.free ∧ (restorePlans a0 a1).sys = a1.sys ∧ (restorePlans a0 a1).isl = a1.isl ∧ (restorePlans a0 a1).time = a1.time ∧
    (restorePlans a0 a1).regions = a1.regions ∧ (restorePlans a0 a1).cells = a1.cells ∧ (restorePlans a0 a1).hubc = a1.hubc ∧ (restorePlans a0 a1).res = a1.res ∧
    (restorePlans a0 a1).dig = a1.dig ∧ (restorePlans a0 a1).xs = a1.xs ∧ (restorePlans a0 a1).ens = a1.ens ∧ (restorePlans a0 a1).casc = a1.casc ∧
    (restorePlans a0 a1).fab = a1.fab ∧ (restorePlans a0 a1).sb = a1.sb ∧ (restorePlans a0 a1).bc = a1.bc ∧ (restorePlans a0 a1).jobs = a1.jobs ∧
    (restorePlans a0 a1).mgt = a1.mgt ∧ (restorePlans a0 a1).prot = a1.prot ∧ (restorePlans a0 a1).mem = a1.mem ∧ (restorePlans a0 a1).dma = a1.dma ∧
    (restorePlans a0 a1).trc = a1.trc ∧ (restorePlans a0 a1).nid = a1.nid ∧ (restorePlans a0 a1).boot = a1.boot ∧ (restorePlans a0 a1).img = a1.img ∧
    (restorePlans a0 a1).posted = a1.posted ∧ (restorePlans a0 a1).nvPosted = a1.nvPosted := by
  have k := (restorePlans_only a0 a1).keep
  exact ⟨k .free (by decide), k .sys (by decide), k .isl (by decide), k .time (by decide), k .regions (by decide), k .cells (by decide), k .hubc (by decide), k .res (by decide), k .dig (by decide), k .xs (by decide), k .ens (by decide), k .casc (by decide), k .fab (by decide), k .sb (by decide), k .bc (by decide), k .jobs (by decide), k .mgt (by decide), k .prot (by decide), k .mem (by decide), k .dma (by decide), k .trc (by decide), k .nid (by decide), k .boot (by decide), k .img (by decide), k .ram (by decide), k .nvm (by decide)⟩

@[simp] theorem loadAge_keeps (a0 a1) :
    (loadAge a0 a1).free = a1.free ∧ (loadAge a0 a1).sys = a1.sys ∧ (loadAge a0 a1).isl = a1.isl ∧ (loadAge a0 a1).time = a1.time ∧
    (loadAge a0 a1).regions = a1.regions ∧ (loadAge a0 a1).cells = a1.cells ∧ (loadAge a0 a1).hubc = a1.hubc ∧ (loadAge a0 a1).res = a1.res ∧
    (loadAge a0 a1).dig = a1.dig ∧ (loadAge a0 a1).xs = a1.xs ∧ (loadAge a0 a1).ens = a1.ens ∧ (loadAge a0 a1).casc = a1.casc ∧
    (loadAge a0 a1).fab = a1.fab ∧ (loadAge a0 a1).sb = a1.sb ∧ (loadAge a0 a1).bc = a1.bc ∧ (loadAge a0 a1).jobs = a1.jobs ∧
    (loadAge a0 a1).mgt = a1.mgt ∧ (loadAge a0 a1).cmd = a1.cmd ∧ (loadAge a0 a1).prot = a1.prot ∧ (loadAge a0 a1).mem = a1.mem ∧
    (loadAge a0 a1).dma = a1.dma ∧ (loadAge a0 a1).trc = a1.trc ∧ (loadAge a0 a1).nid = a1.nid ∧ (loadAge a0 a1).boot = a1.boot ∧
    (loadAge a0 a1).img = a1.img ∧ (loadAge a0 a1).reports = a1.reports ∧ (loadAge a0 a1).posted = a1.posted ∧ (loadAge a0 a1).nvPosted = a1.nvPosted := by
  have k := (loadAge_only a0 a1).keep
  exact ⟨k .free (by decide), k .sys (by decide), k .isl (by decide), k .time (by decide), k .regions (by decide), k .cells (by decide), k .hubc (by decide), k .res (by decide), k .dig (by decide), k .xs (by decide), k .ens (by decide), k .casc (by decide), k .fab (by decide), k .sb (by decide), k .bc (by decide), k .jobs (by decide), k .mgt (by decide), k .cmd (by decide), k .prot (by decide), k .mem (by decide), k .dma (by decide), k .trc (by decide), k .nid (by decide), k .boot (by decide), k .img (by decide), k .reports (by decide), k .ram (by decide), k .nvm (by decide)⟩

@[simp] theorem writeBackImage_keeps (a0 a1 a2 a3) :
    (writeBackImage a0 a1 a2 a3).free = a3.free ∧ (writeBackImage a0 a1 a2 a3).sys = a3.sys ∧ (writeBackImage a0 a1 a2 a3).isl = a3.isl ∧ (writeBackImage a0 a1 a2 a3).time = a3.time ∧
    (writeBackImage a0 a1 a2 a3).regions = a3.regions ∧ (writeBackImage a0 a1 a2 a3).cells = a3.cells ∧ (writeBackImage a0 a1 a2 a3).hubc = a3.hubc ∧ (writeBackImage a0 a1 a2 a3).res = a3.res ∧
    (writeBackImage a0 a1 a2 a3).dig = a3.dig ∧ (writeBackImage a0 a1 a2 a3).xs = a3.xs ∧ (writeBackImage a0 a1 a2 a3).ens = a3.ens ∧ (writeBackImage a0 a1 a2 a3).casc = a3.casc ∧
    (writeBackImage a0 a1 a2 a3).age = a3.age ∧ (writeBackImage a0 a1 a2 a3).fab = a3.fab ∧ (writeBackImage a0 a1 a2 a3).sb = a3.sb ∧ (writeBackImage a0 a1 a2 a3).bc = a3.bc ∧
    (writeBackImage a0 a1 a2 a3).jobs = a3.jobs ∧ (writeBackImage a0 a1 a2 a3).mgt = a3.mgt ∧ (writeBackImage a0 a1 a2 a3).cmd = a3.cmd ∧ (writeBackImage a0 a1 a2 a3).prot = a3.prot ∧
    (writeBackImage a0 a1 a2 a3).mem = a3.mem ∧ (writeBackImage a0 a1 a2 a3).dma = a3.dma ∧ (writeBackImage a0 a1 a2 a3).trc = a3.trc ∧ (writeBackImage a0 a1 a2 a3).nid = a3.nid ∧
    (writeBackImage a0 a1 a2 a3).img = a3.img ∧ (writeBackImage a0 a1 a2 a3).reports = a3.reports ∧ (writeBackImage a0 a1 a2 a3).posted = a3.posted := by
  have k := (writeBackImage_only a0 a1 a2 a3).keep
  exact ⟨k .free (by decide), k .sys (by decide), k .isl (by decide), k .time (by decide), k .regions (by decide), k .cells (by decide), k .hubc (by decide), k .res (by decide), k .dig (by decide), k .xs (by decide), k .ens (by decide), k .casc (by decide), k .age (by decide), k .fab (by decide), k .sb (by decide), k .bc (by decide), k .jobs (by decide), k .mgt (by decide), k .cmd (by decide), k .prot (by decide), k .mem (by decide), k .dma (by decide), k .trc (by decide), k .nid (by decide), k .img (by decide), k .reports (by decide), k .ram (by decide)⟩

@[simp] theorem deliver_keeps (a0 a1 a2) :
    (deliver a0 a1 a2).free = a2.free ∧ (deliver a0 a1 a2).isl = a2.isl ∧ (deliver a0 a1 a2).hubc = a2.hubc ∧ (deliver a0 a1 a2).res = a2.res ∧
    (deliver a0 a1 a2).ens = a2.ens ∧ (deliver a0 a1 a2).age = a2.age ∧ (deliver a0 a1 a2).jobs = a2.jobs ∧ (deliver a0 a1 a2).cmd = a2.cmd ∧
    (deliver a0 a1 a2).prot = a2.prot ∧ (deliver a0 a1 a2).nvPosted = a2.nvPosted := by
  have k := (deliver_only a0 a1 a2).keep
  exact ⟨k .free (by decide), k .isl (by decide), k .hubc (by decide), k .res (by decide), k .ens (by decide), k .age (by decide), k .jobs (by decide), k .cmd (by decide), k .prot (by decide), k .nvm (by decide)⟩

@[simp] theorem actHeld_keeps (a0) :
    (actHeld a0).free = a0.free ∧ (actHeld a0).sys = a0.sys ∧ (actHeld a0).isl = a0.isl ∧ (actHeld a0).regions = a0.regions ∧
    (actHeld a0).cells = a0.cells ∧ (actHeld a0).hubc = a0.hubc ∧ (actHeld a0).res = a0.res ∧ (actHeld a0).dig = a0.dig ∧
    (actHeld a0).xs = a0.xs ∧ (actHeld a0).ens = a0.ens ∧ (actHeld a0).casc = a0.casc ∧ (actHeld a0).age = a0.age ∧
    (actHeld a0).fab = a0.fab ∧ (actHeld a0).sb = a0.sb ∧ (actHeld a0).bc = a0.bc ∧ (actHeld a0).jobs = a0.jobs ∧
    (actHeld a0).mgt = a0.mgt ∧ (actHeld a0).cmd = a0.cmd ∧ (actHeld a0).prot = a0.prot ∧ (actHeld a0).regs = a0.regs ∧
    (actHeld a0).mem = a0.mem ∧ (actHeld a0).dma = a0.dma ∧ (actHeld a0).trc = a0.trc ∧ (actHeld a0).nid = a0.nid ∧
    (actHeld a0).log = a0.log ∧ (actHeld a0).boot = a0.boot ∧ (actHeld a0).img = a0.img ∧ (actHeld a0).reports = a0.reports ∧
    (actHeld a0).posted = a0.posted ∧ (actHeld a0).nvPosted = a0.nvPosted := by
  have k := (actHeld_only a0).keep
  exact ⟨k .free (by decide), k .sys (by decide), k .isl (by decide), k .regions (by decide), k .cells (by decide), k .hubc (by decide), k .res (by decide), k .dig (by decide), k .xs (by decide), k .ens (by decide), k .casc (by decide), k .age (by decide), k .fab (by decide), k .sb (by decide), k .bc (by decide), k .jobs (by decide), k .mgt (by decide), k .cmd (by decide), k .prot (by decide), k .regs (by decide), k .mem (by decide), k .dma (by decide), k .trc (by decide), k .nid (by decide), k .log (by decide), k .boot (by decide), k .img (by decide), k .reports (by decide), k .ram (by decide), k .nvm (by decide)⟩

@[simp] theorem restartWindows_keeps (a0) :
    (restartWindows a0).free = a0.free ∧ (restartWindows a0).sys = a0.sys ∧ (restartWindows a0).isl = a0.isl ∧ (restartWindows a0).time = a0.time ∧
    (restartWindows a0).regions = a0.regions ∧ (restartWindows a0).hubc = a0.hubc ∧ (restartWindows a0).res = a0.res ∧ (restartWindows a0).dig = a0.dig ∧
    (restartWindows a0).xs = a0.xs ∧ (restartWindows a0).ens = a0.ens ∧ (restartWindows a0).casc = a0.casc ∧ (restartWindows a0).age = a0.age ∧
    (restartWindows a0).fab = a0.fab ∧ (restartWindows a0).sb = a0.sb ∧ (restartWindows a0).bc = a0.bc ∧ (restartWindows a0).jobs = a0.jobs ∧
    (restartWindows a0).mgt = a0.mgt ∧ (restartWindows a0).cmd = a0.cmd ∧ (restartWindows a0).prot = a0.prot ∧ (restartWindows a0).regs = a0.regs ∧
    (restartWindows a0).mem = a0.mem ∧ (restartWindows a0).dma = a0.dma ∧ (restartWindows a0).trc = a0.trc ∧ (restartWindows a0).nid = a0.nid ∧
    (restartWindows a0).log = a0.log ∧ (restartWindows a0).boot = a0.boot ∧ (restartWindows a0).img = a0.img ∧ (restartWindows a0).reports = a0.reports ∧
    (restartWindows a0).posted = a0.posted ∧ (restartWindows a0).nvPosted = a0.nvPosted := by
  have k := (restartWindows_only a0).keep
  exact ⟨k .free (by decide), k .sys (by decide), k .isl (by decide), k .time (by decide), k .regions (by decide), k .hubc (by decide), k .res (by decide), k .dig (by decide), k .xs (by decide), k .ens (by decide), k .casc (by decide), k .age (by decide), k .fab (by decide), k .sb (by decide), k .bc (by decide), k .jobs (by decide), k .mgt (by decide), k .cmd (by decide), k .prot (by decide), k .regs (by decide), k .mem (by decide), k .dma (by decide), k .trc (by decide), k .nid (by decide), k .log (by decide), k .boot (by decide), k .img (by decide), k .reports (by decide), k .ram (by decide), k .nvm (by decide)⟩

@[simp] theorem selectCores_keeps (a0 a1) :
    (selectCores a0 a1).free = a1.free ∧ (selectCores a0 a1).sys = a1.sys ∧ (selectCores a0 a1).isl = a1.isl ∧ (selectCores a0 a1).time = a1.time ∧
    (selectCores a0 a1).hubc = a1.hubc ∧ (selectCores a0 a1).res = a1.res ∧ (selectCores a0 a1).dig = a1.dig ∧ (selectCores a0 a1).xs = a1.xs ∧
    (selectCores a0 a1).ens = a1.ens ∧ (selectCores a0 a1).casc = a1.casc ∧ (selectCores a0 a1).age = a1.age ∧ (selectCores a0 a1).fab = a1.fab ∧
    (selectCores a0 a1).sb = a1.sb ∧ (selectCores a0 a1).bc = a1.bc ∧ (selectCores a0 a1).jobs = a1.jobs ∧ (selectCores a0 a1).mgt = a1.mgt ∧
    (selectCores a0 a1).cmd = a1.cmd ∧ (selectCores a0 a1).prot = a1.prot ∧ (selectCores a0 a1).regs = a1.regs ∧ (selectCores a0 a1).mem = a1.mem ∧
    (selectCores a0 a1).dma = a1.dma ∧ (selectCores a0 a1).nid = a1.nid ∧ (selectCores a0 a1).log = a1.log ∧ (selectCores a0 a1).boot = a1.boot ∧
    (selectCores a0 a1).img = a1.img ∧ (selectCores a0 a1).reports = a1.reports ∧ (selectCores a0 a1).posted = a1.posted ∧ (selectCores a0 a1).nvPosted = a1.nvPosted := by
  have k := (selectCores_only a0 a1).keep
  exact ⟨k .free (by decide), k .sys (by decide), k .isl (by decide), k .time (by decide), k .hubc (by decide), k .res (by decide), k .dig (by decide), k .xs (by decide), k .ens (by decide), k .casc (by decide), k .age (by decide), k .fab (by decide), k .sb (by decide), k .bc (by decide), k .jobs (by decide), k .mgt (by decide), k .cmd (by decide), k .prot (by decide), k .regs (by decide), k .mem (by decide), k .dma (by decide), k .nid (by decide), k .log (by decide), k .boot (by decide), k .img (by decide), k .reports (by decide), k .ram (by decide), k .nvm (by decide)⟩

@[simp] theorem commitGates_keeps (a0) :
    (commitGates a0).free = a0.free ∧ (commitGates a0).sys = a0.sys ∧ (commitGates a0).isl = a0.isl ∧ (commitGates a0).time = a0.time ∧
    (commitGates a0).regions = a0.regions ∧ (commitGates a0).cells = a0.cells ∧ (commitGates a0).hubc = a0.hubc ∧ (commitGates a0).res = a0.res ∧
    (commitGates a0).dig = a0.dig ∧ (commitGates a0).xs = a0.xs ∧ (commitGates a0).ens = a0.ens ∧ (commitGates a0).casc = a0.casc ∧
    (commitGates a0).age = a0.age ∧ (commitGates a0).fab = a0.fab ∧ (commitGates a0).sb = a0.sb ∧ (commitGates a0).bc = a0.bc ∧
    (commitGates a0).jobs = a0.jobs ∧ (commitGates a0).cmd = a0.cmd ∧ (commitGates a0).prot = a0.prot ∧ (commitGates a0).mem = a0.mem ∧
    (commitGates a0).dma = a0.dma ∧ (commitGates a0).trc = a0.trc ∧ (commitGates a0).nid = a0.nid ∧ (commitGates a0).boot = a0.boot ∧
    (commitGates a0).img = a0.img ∧ (commitGates a0).reports = a0.reports ∧ (commitGates a0).posted = a0.posted ∧ (commitGates a0).nvPosted = a0.nvPosted := by
  have k := (commitGates_only a0).keep
  exact ⟨k .free (by decide), k .sys (by decide), k .isl (by decide), k .time (by decide), k .regions (by decide), k .cells (by decide), k .hubc (by decide), k .res (by decide), k .dig (by decide), k .xs (by decide), k .ens (by decide), k .casc (by decide), k .age (by decide), k .fab (by decide), k .sb (by decide), k .bc (by decide), k .jobs (by decide), k .cmd (by decide), k .prot (by decide), k .mem (by decide), k .dma (by decide), k .trc (by decide), k .nid (by decide), k .boot (by decide), k .img (by decide), k .reports (by decide), k .ram (by decide), k .nvm (by decide)⟩


end Sys2Proof.Machine
end

