-- ==== Sys2Proof/Laws/FramePort.lean ====
section
/-!
SUPPORT. What leaves the settings and counts of the memory port as they are: the accesses an operation asks for wait, go or fail, and none of
that counts an answer.
-/
namespace Sys2Proof.Machine

/-- The memory port but for its waiting and outstanding accesses. -/
def MemU.port (m : MemU) : List MapRange × BitVec 32 × Tab (List Nat) × Option Nat × Bool × Nat × Nat × Nat × Nat × Nat × Option Nat :=
  (m.ranges, m.failed, m.errTb, m.migrating, m.group, m.rekeys, m.timeouts, m.rerr, m.berr, m.memTimeout, m.paused)

/-- The port of `k` is as it is in `h`. -/
structure SamePort (h k : Hub) : Prop where
  eq : k.mem.port = h.mem.port

theorem SamePort.refl (h : Hub) : SamePort h h := ⟨rfl⟩
theorem SamePort.step {h k l : Hub} (a : SamePort h k) (b : SamePort k l) : SamePort h l := ⟨b.eq.trans a.eq⟩
theorem SamePort.of {ps : List Piece} {h k : Hub} (b : Only ps h k) (w : ps.contains .mem = false) : SamePort h k := by
  exact ⟨by rw [show k.mem = h.mem from b.keep .mem (by simpa using w)]⟩
theorem SamePort.named {h v l : Hub} (k : SamePort h v → SamePort h l) (a : SamePort h v) : SamePort h l := k a
theorem SamePort.set_free {h k : Hub} (a : SamePort h k) {v} :
    SamePort h ⟨v, k.sys, k.isl, k.time, k.regions, k.cells, k.hubc, k.res, k.dig, k.xs, k.ens, k.casc, k.age, k.fab, k.sb, k.bc, k.jobs, k.mgt, k.cmd, k.prot, k.regs, k.mem, k.dma, k.trc, k.nid, k.log, k.boot, k.img, k.reports, k.posted, k.nvPosted⟩ := ⟨a.eq⟩
theorem SamePort.set_sys {h k : Hub} (a : SamePort h k) {v} :
    SamePort h ⟨k.free, v, k.isl, k.time, k.regions, k.cells, k.hubc, k.res, k.dig, k.xs, k.ens, k.casc, k.age, k.fab, k.sb, k.bc, k.jobs, k.mgt, k.cmd, k.prot, k.regs, k.mem, k.dma, k.trc, k.nid, k.log, k.boot, k.img, k.reports, k.posted, k.nvPosted⟩ := ⟨a.eq⟩
theorem SamePort.set_isl {h k : Hub} (a : SamePort h k) {v} :
    SamePort h ⟨k.free, k.sys, v, k.time, k.regions, k.cells, k.hubc, k.res, k.dig, k.xs, k.ens, k.casc, k.age, k.fab, k.sb, k.bc, k.jobs, k.mgt, k.cmd, k.prot, k.regs, k.mem, k.dma, k.trc, k.nid, k.log, k.boot, k.img, k.reports, k.posted, k.nvPosted⟩ := ⟨a.eq⟩
theorem SamePort.set_time {h k : Hub} (a : SamePort h k) {v} :
    SamePort h ⟨k.free, k.sys, k.isl, v, k.regions, k.cells, k.hubc, k.res, k.dig, k.xs, k.ens, k.casc, k.age, k.fab, k.sb, k.bc, k.jobs, k.mgt, k.cmd, k.prot, k.regs, k.mem, k.dma, k.trc, k.nid, k.log, k.boot, k.img, k.reports, k.posted, k.nvPosted⟩ := ⟨a.eq⟩
theorem SamePort.set_regions {h k : Hub} (a : SamePort h k) {v} :
    SamePort h ⟨k.free, k.sys, k.isl, k.time, v, k.cells, k.hubc, k.res, k.dig, k.xs, k.ens, k.casc, k.age, k.fab, k.sb, k.bc, k.jobs, k.mgt, k.cmd, k.prot, k.regs, k.mem, k.dma, k.trc, k.nid, k.log, k.boot, k.img, k.reports, k.posted, k.nvPosted⟩ := ⟨a.eq⟩
theorem SamePort.set_cells {h k : Hub} (a : SamePort h k) {v} :
    SamePort h ⟨k.free, k.sys, k.isl, k.time, k.regions, v, k.hubc, k.res, k.dig, k.xs, k.ens, k.casc, k.age, k.fab, k.sb, k.bc, k.jobs, k.mgt, k.cmd, k.prot, k.regs, k.mem, k.dma, k.trc, k.nid, k.log, k.boot, k.img, k.reports, k.posted, k.nvPosted⟩ := ⟨a.eq⟩
theorem SamePort.set_hubc {h k : Hub} (a : SamePort h k) {v} :
    SamePort h ⟨k.free, k.sys, k.isl, k.time, k.regions, k.cells, v, k.res, k.dig, k.xs, k.ens, k.casc, k.age, k.fab, k.sb, k.bc, k.jobs, k.mgt, k.cmd, k.prot, k.regs, k.mem, k.dma, k.trc, k.nid, k.log, k.boot, k.img, k.reports, k.posted, k.nvPosted⟩ := ⟨a.eq⟩
theorem SamePort.set_res {h k : Hub} (a : SamePort h k) {v} :
    SamePort h ⟨k.free, k.sys, k.isl, k.time, k.regions, k.cells, k.hubc, v, k.dig, k.xs, k.ens, k.casc, k.age, k.fab, k.sb, k.bc, k.jobs, k.mgt, k.cmd, k.prot, k.regs, k.mem, k.dma, k.trc, k.nid, k.log, k.boot, k.img, k.reports, k.posted, k.nvPosted⟩ := ⟨a.eq⟩
theorem SamePort.set_dig {h k : Hub} (a : SamePort h k) {v} :
    SamePort h ⟨k.free, k.sys, k.isl, k.time, k.regions, k.cells, k.hubc, k.res, v, k.xs, k.ens, k.casc, k.age, k.fab, k.sb, k.bc, k.jobs, k.mgt, k.cmd, k.prot, k.regs, k.mem, k.dma, k.trc, k.nid, k.log, k.boot, k.img, k.reports, k.posted, k.nvPosted⟩ := ⟨a.eq⟩
theorem SamePort.set_xs {h k : Hub} (a : SamePort h k) {v} :
    SamePort h ⟨k.free, k.sys, k.isl, k.time, k.regions, k.cells, k.hubc, k.res, k.dig, v, k.ens, k.casc, k.age, k.fab, k.sb, k.bc, k.jobs, k.mgt, k.cmd, k.prot, k.regs, k.mem, k.dma, k.trc, k.nid, k.log, k.boot, k.img, k.reports, k.posted, k.nvPosted⟩ := ⟨a.eq⟩
theorem SamePort.set_ens {h k : Hub} (a : SamePort h k) {v} :
    SamePort h ⟨k.free, k.sys, k.isl, k.time, k.regions, k.cells, k.hubc, k.res, k.dig, k.xs, v, k.casc, k.age, k.fab, k.sb, k.bc, k.jobs, k.mgt, k.cmd, k.prot, k.regs, k.mem, k.dma, k.trc, k.nid, k.log, k.boot, k.img, k.reports, k.posted, k.nvPosted⟩ := ⟨a.eq⟩
theorem SamePort.set_casc {h k : Hub} (a : SamePort h k) {v} :
    SamePort h ⟨k.free, k.sys, k.isl, k.time, k.regions, k.cells, k.hubc, k.res, k.dig, k.xs, k.ens, v, k.age, k.fab, k.sb, k.bc, k.jobs, k.mgt, k.cmd, k.prot, k.regs, k.mem, k.dma, k.trc, k.nid, k.log, k.boot, k.img, k.reports, k.posted, k.nvPosted⟩ := ⟨a.eq⟩
theorem SamePort.set_age {h k : Hub} (a : SamePort h k) {v} :
    SamePort h ⟨k.free, k.sys, k.isl, k.time, k.regions, k.cells, k.hubc, k.res, k.dig, k.xs, k.ens, k.casc, v, k.fab, k.sb, k.bc, k.jobs, k.mgt, k.cmd, k.prot, k.regs, k.mem, k.dma, k.trc, k.nid, k.log, k.boot, k.img, k.reports, k.posted, k.nvPosted⟩ := ⟨a.eq⟩
theorem SamePort.set_fab {h k : Hub} (a : SamePort h k) {v} :
    SamePort h ⟨k.free, k.sys, k.isl, k.time, k.regions, k.cells, k.hubc, k.res, k.dig, k.xs, k.ens, k.casc, k.age, v, k.sb, k.bc, k.jobs, k.mgt, k.cmd, k.prot, k.regs, k.mem, k.dma, k.trc, k.nid, k.log, k.boot, k.img, k.reports, k.posted, k.nvPosted⟩ := ⟨a.eq⟩
theorem SamePort.set_sb {h k : Hub} (a : SamePort h k) {v} :
    SamePort h ⟨k.free, k.sys, k.isl, k.time, k.regions, k.cells, k.hubc, k.res, k.dig, k.xs, k.ens, k.casc, k.age, k.fab, v, k.bc, k.jobs, k.mgt, k.cmd, k.prot, k.regs, k.mem, k.dma, k.trc, k.nid, k.log, k.boot, k.img, k.reports, k.posted, k.nvPosted⟩ := ⟨a.eq⟩
theorem SamePort.set_bc {h k : Hub} (a : SamePort h k) {v} :
    SamePort h ⟨k.free, k.sys, k.isl, k.time, k.regions, k.cells, k.hubc, k.res, k.dig, k.xs, k.ens, k.casc, k.age, k.fab, k.sb, v, k.jobs, k.mgt, k.cmd, k.prot, k.regs, k.mem, k.dma, k.trc, k.nid, k.log, k.boot, k.img, k.reports, k.posted, k.nvPosted⟩ := ⟨a.eq⟩
theorem SamePort.set_jobs {h k : Hub} (a : SamePort h k) {v} :
    SamePort h ⟨k.free, k.sys, k.isl, k.time, k.regions, k.cells, k.hubc, k.res, k.dig, k.xs, k.ens, k.casc, k.age, k.fab, k.sb, k.bc, v, k.mgt, k.cmd, k.prot, k.regs, k.mem, k.dma, k.trc, k.nid, k.log, k.boot, k.img, k.reports, k.posted, k.nvPosted⟩ := ⟨a.eq⟩
theorem SamePort.set_mgt {h k : Hub} (a : SamePort h k) {v} :
    SamePort h ⟨k.free, k.sys, k.isl, k.time, k.regions, k.cells, k.hubc, k.res, k.dig, k.xs, k.ens, k.casc, k.age, k.fab, k.sb, k.bc, k.jobs, v, k.cmd, k.prot, k.regs, k.mem, k.dma, k.trc, k.nid, k.log, k.boot, k.img, k.reports, k.posted, k.nvPosted⟩ := ⟨a.eq⟩
theorem SamePort.set_cmd {h k : Hub} (a : SamePort h k) {v} :
    SamePort h ⟨k.free, k.sys, k.isl, k.time, k.regions, k.cells, k.hubc, k.res, k.dig, k.xs, k.ens, k.casc, k.age, k.fab, k.sb, k.bc, k.jobs, k.mgt, v, k.prot, k.regs, k.mem, k.dma, k.trc, k.nid, k.log, k.boot, k.img, k.reports, k.posted, k.nvPosted⟩ := ⟨a.eq⟩
theorem SamePort.set_prot {h k : Hub} (a : SamePort h k) {v} :
    SamePort h ⟨k.free, k.sys, k.isl, k.time, k.regions, k.cells, k.hubc, k.res, k.dig, k.xs, k.ens, k.casc, k.age, k.fab, k.sb, k.bc, k.jobs, k.mgt, k.cmd, v, k.regs, k.mem, k.dma, k.trc, k.nid, k.log, k.boot, k.img, k.reports, k.posted, k.nvPosted⟩ := ⟨a.eq⟩
theorem SamePort.set_regs {h k : Hub} (a : SamePort h k) {v} :
    SamePort h ⟨k.free, k.sys, k.isl, k.time, k.regions, k.cells, k.hubc, k.res, k.dig, k.xs, k.ens, k.casc, k.age, k.fab, k.sb, k.bc, k.jobs, k.mgt, k.cmd, k.prot, v, k.mem, k.dma, k.trc, k.nid, k.log, k.boot, k.img, k.reports, k.posted, k.nvPosted⟩ := ⟨a.eq⟩
theorem SamePort.set_mem {h k : Hub} (a : SamePort h k) {v} (w : v.port = k.mem.port) :
    SamePort h ⟨k.free, k.sys, k.isl, k.time, k.regions, k.cells, k.hubc, k.res, k.dig, k.xs, k.ens, k.casc, k.age, k.fab, k.sb, k.bc, k.jobs, k.mgt, k.cmd, k.prot, k.regs, v, k.dma, k.trc, k.nid, k.log, k.boot, k.img, k.reports, k.posted, k.nvPosted⟩ := ⟨w.trans a.eq⟩
theorem SamePort.set_dma {h k : Hub} (a : SamePort h k) {v} :
    SamePort h ⟨k.free, k.sys, k.isl, k.time, k.regions, k.cells, k.hubc, k.res, k.dig, k.xs, k.ens, k.casc, k.age, k.fab, k.sb, k.bc, k.jobs, k.mgt, k.cmd, k.prot, k.regs, k.mem, v, k.trc, k.nid, k.log, k.boot, k.img, k.reports, k.posted, k.nvPosted⟩ := ⟨a.eq⟩
theorem SamePort.set_trc {h k : Hub} (a : SamePort h k) {v} :
    SamePort h ⟨k.free, k.sys, k.isl, k.time, k.regions, k.cells, k.hubc, k.res, k.dig, k.xs, k.ens, k.casc, k.age, k.fab, k.sb, k.bc, k.jobs, k.mgt, k.cmd, k.prot, k.regs, k.mem, k.dma, v, k.nid, k.log, k.boot, k.img, k.reports, k.posted, k.nvPosted⟩ := ⟨a.eq⟩
theorem SamePort.set_nid {h k : Hub} (a : SamePort h k) {v} :
    SamePort h ⟨k.free, k.sys, k.isl, k.time, k.regions, k.cells, k.hubc, k.res, k.dig, k.xs, k.ens, k.casc, k.age, k.fab, k.sb, k.bc, k.jobs, k.mgt, k.cmd, k.prot, k.regs, k.mem, k.dma, k.trc, v, k.log, k.boot, k.img, k.reports, k.posted, k.nvPosted⟩ := ⟨a.eq⟩
theorem SamePort.set_log {h k : Hub} (a : SamePort h k) {v} :
    SamePort h ⟨k.free, k.sys, k.isl, k.time, k.regions, k.cells, k.hubc, k.res, k.dig, k.xs, k.ens, k.casc, k.age, k.fab, k.sb, k.bc, k.jobs, k.mgt, k.cmd, k.prot, k.regs, k.mem, k.dma, k.trc, k.nid, v, k.boot, k.img, k.reports, k.posted, k.nvPosted⟩ := ⟨a.eq⟩
theorem SamePort.set_boot {h k : Hub} (a : SamePort h k) {v} :
    SamePort h ⟨k.free, k.sys, k.isl, k.time, k.regions, k.cells, k.hubc, k.res, k.dig, k.xs, k.ens, k.casc, k.age, k.fab, k.sb, k.bc, k.jobs, k.mgt, k.cmd, k.prot, k.regs, k.mem, k.dma, k.trc, k.nid, k.log, v, k.img, k.reports, k.posted, k.nvPosted⟩ := ⟨a.eq⟩
theorem SamePort.set_img {h k : Hub} (a : SamePort h k) {v} :
    SamePort h ⟨k.free, k.sys, k.isl, k.time, k.regions, k.cells, k.hubc, k.res, k.dig, k.xs, k.ens, k.casc, k.age, k.fab, k.sb, k.bc, k.jobs, k.mgt, k.cmd, k.prot, k.regs, k.mem, k.dma, k.trc, k.nid, k.log, k.boot, v, k.reports, k.posted, k.nvPosted⟩ := ⟨a.eq⟩
theorem SamePort.set_reports {h k : Hub} (a : SamePort h k) {v} :
    SamePort h ⟨k.free, k.sys, k.isl, k.time, k.regions, k.cells, k.hubc, k.res, k.dig, k.xs, k.ens, k.casc, k.age, k.fab, k.sb, k.bc, k.jobs, k.mgt, k.cmd, k.prot, k.regs, k.mem, k.dma, k.trc, k.nid, k.log, k.boot, k.img, v, k.posted, k.nvPosted⟩ := ⟨a.eq⟩
theorem SamePort.set_ram {h k : Hub} (a : SamePort h k) {v} :
    SamePort h ⟨k.free, k.sys, k.isl, k.time, k.regions, k.cells, k.hubc, k.res, k.dig, k.xs, k.ens, k.casc, k.age, k.fab, k.sb, k.bc, k.jobs, k.mgt, k.cmd, k.prot, k.regs, k.mem, k.dma, k.trc, k.nid, k.log, k.boot, k.img, k.reports, v, k.nvPosted⟩ := ⟨a.eq⟩
theorem SamePort.set_nvm {h k : Hub} (a : SamePort h k) {v} :
    SamePort h ⟨k.free, k.sys, k.isl, k.time, k.regions, k.cells, k.hubc, k.res, k.dig, k.xs, k.ens, k.casc, k.age, k.fab, k.sb, k.bc, k.jobs, k.mgt, k.cmd, k.prot, k.regs, k.mem, k.dma, k.trc, k.nid, k.log, k.boot, k.img, k.reports, k.posted, v⟩ := ⟨a.eq⟩
theorem SamePort.ite {h k l : Hub} {c : Prop} [Decidable c] (a : SamePort h k) (b : SamePort h l) : SamePort h (if c then k else l) := by
  split
  · exact a
  · exact b
theorem SamePort.foldl {α : Type} {f : Hub → α → Hub} (hf : ∀ h x, SamePort h (f h x)) (l : List α) {h k : Hub} (a : SamePort h k) : SamePort h (l.foldl f k) := by
  induction l generalizing k with
  | nil => exact a
  | cons x t ih => exact ih (a.step (hf k x))

theorem charge_port (k c : Nat) (h : Hub) : SamePort h (charge k c h) := by
  unfold charge
  split
  · exact ⟨rfl⟩
  · exact ⟨rfl⟩
theorem issueReq_port {l : List MemWait} {w : MemWait} {h k : Hub} (q : issueReq l w h = .issued k) : SamePort h k := by
  unfold issueReq at q
  split at q
  · cases q
  · dsimp only at q
    split at q
    · cases q
    · split at q
      · cases q
      · split at q
        · cases q
        · split at q
          · cases q
          · injection q with q
            rw [← q]
            exact ⟨(charge_port ..).eq.trans rfl⟩
theorem decodeError_port (e : Env) (h : Hub) : SamePort h (decodeError e h) := by
  unfold decodeError
  exact ⟨by simp [MemU.port]⟩
theorem tryAccess_port (e : Env) (b : List MemWait) (w : MemWait) (h : Hub) : SamePort h (tryAccess e b w h) := by
  unfold tryAccess
  dsimp only
  split
  · exact issueReq_port (by assumption)
  · exact ⟨rfl⟩
  · exact ⟨rfl⟩
  · exact SamePort.set_mem (decodeError_port ..) rfl
theorem access_port (e : Env) (w : MemWait) (h : Hub) : SamePort h (access e w h) := tryAccess_port ..

theorem rowLines_port (a0 a1 a2 a3 a4 a5) : SamePort a5 (rowLines a0 a1 a2 a3 a4 a5) := by
  unfold rowLines
  exact (SamePort.foldl (fun _ _ => (SamePort.step (SamePort.refl _) (access_port ..))) _ (SamePort.refl _))

theorem takeRow_port (a0 a1 a2) : SamePort a2 (takeRow a0 a1 a2) := by
  unfold takeRow
  exact (SamePort.named (fun q1 =>
    (by
    try dsimp -proj only
    split
    · exact (by
    split
    · exact q1
    · exact (SamePort.step (SamePort.step (SamePort.set_ens q1) (SamePort.of (putRow_only ..) rfl)) (rowLines_port ..)))
    · exact (SamePort.ite (SamePort.step q1 (SamePort.of (emitUnit_only ..) rfl)) (SamePort.step (SamePort.set_ens q1) (SamePort.of (putRow_only ..) rfl)))))
    (SamePort.set_ens (SamePort.refl _)))

theorem makeRoom_port (a0 a1) : SamePort a1 (makeRoom a0 a1) := by
  unfold makeRoom
  exact (SamePort.ite (SamePort.refl _) (by
    split
    · exact (SamePort.refl _)
    · exact (SamePort.ite (SamePort.named (fun q1 =>
    (by
    try dsimp -proj only
    split
    · exact (by
    split
    · exact (SamePort.step q1 (rowLines_port ..))
    · exact q1)
    · exact q1))
    (SamePort.set_ens (SamePort.refl _))) (SamePort.set_ens (SamePort.refl _)))))

theorem startFill_port (a0 a1 a2) : SamePort a2 (startFill a0 a1 a2) := by
  unfold startFill
  exact (by
    split
    · exact (SamePort.ite (SamePort.step (SamePort.set_ens (SamePort.refl _)) (SamePort.of (putRow_only ..) rfl)) (SamePort.refl _))
    · exact (SamePort.named (fun q1 =>
    (SamePort.ite q1 (SamePort.step q1 (takeRow_port ..))))
    (SamePort.step (SamePort.step (SamePort.refl _) (SamePort.of (waitRoom_only ..) rfl)) (makeRoom_port ..))))

theorem retryRoom_port (a0 a1) : SamePort a1 (retryRoom a0 a1) := by
  unfold retryRoom
  exact (SamePort.foldl (fun _ _ => (SamePort.step (SamePort.refl _) (startFill_port ..))) _ (SamePort.refl _))

theorem unpin_port (a0 a1 a2 a3) : SamePort a3 (unpin a0 a1 a2 a3) := by
  unfold unpin
  exact (by
    split
    · exact (SamePort.refl _)
    · exact (SamePort.named (fun q1 =>
    (SamePort.step (SamePort.step q1 (SamePort.of (onEns_only ..) rfl)) (retryRoom_port ..)))
    (SamePort.foldl (fun _ _ => (by
    split
    · exact (SamePort.step (SamePort.refl _) (SamePort.of (onEns_only ..) rfl))
    · exact (SamePort.refl _))) _ (SamePort.refl _))))

theorem dropSample_port (a0 a1 a2) : SamePort a2 (dropSample a0 a1 a2) := by
  unfold dropSample
  exact (SamePort.step (SamePort.step (SamePort.refl _) (SamePort.of (refuseSample_only ..) rfl)) (unpin_port ..))

theorem featWrite_port (a0 a1 a2 a3 a4) : SamePort a4 (featWrite a0 a1 a2 a3 a4) := by
  unfold featWrite
  exact (SamePort.named (fun q1 =>
    (by
    try dsimp -proj only
    split
    · exact (SamePort.set_ens q1)
    · exact (SamePort.ite (SamePort.step q1 (SamePort.of (putRow_only ..) rfl)) (SamePort.step q1 (SamePort.of (putRow_only ..) rfl)))))
    (SamePort.ite (SamePort.step (SamePort.refl _) (startFill_port ..)) (SamePort.refl _)))

theorem chargeEnt_port (a0 a1 a2) : SamePort a2 (chargeEnt a0 a1 a2) := by
  unfold chargeEnt
  exact (SamePort.step (SamePort.set_casc (SamePort.refl _)) (featWrite_port ..))

theorem chargeDecode_port (a0 a1 a2) : SamePort a2 (chargeDecode a0 a1 a2) := by
  unfold chargeDecode
  exact (SamePort.ite (SamePort.step (SamePort.refl _) (chargeEnt_port ..)) (SamePort.refl _))

theorem sporeFeature_port (a0 a1 a2) : SamePort a2 (sporeFeature a0 a1 a2) := by
  unfold sporeFeature
  exact (SamePort.step (SamePort.refl _) (featWrite_port ..))

theorem outcomeCounter_port (a0 a1 a2 a3 a4 a5 a6) : SamePort a6 (outcomeCounter a0 a1 a2 a3 a4 a5 a6) := by
  unfold outcomeCounter
  exact (SamePort.named (fun q1 =>
    (SamePort.named (fun q2 =>
    (SamePort.ite (SamePort.named (fun q3 =>
    (SamePort.step q3 (featWrite_port ..)))
    (SamePort.step q2 (featWrite_port ..))) q2))
    (SamePort.step (SamePort.set_res q1) (SamePort.of (onHubc_only ..) rfl))))
    (SamePort.step (SamePort.refl _) (SamePort.of (countCore_only ..) rfl)))

theorem outcomeEffects_port (a0 a1 a2 a3 a4 a5 a6 a7 a8 a9) : SamePort a9 (outcomeEffects a0 a1 a2 a3 a4 a5 a6 a7 a8 a9) := by
  unfold outcomeEffects
  exact (SamePort.named (fun q1 =>
    (SamePort.named (fun q2 =>
    (SamePort.named (fun q3 =>
    (SamePort.ite (SamePort.set_age q3) (SamePort.named (fun q4 =>
    (SamePort.named (fun q5 =>
    (SamePort.named (fun q6 =>
    (SamePort.step q6 (SamePort.of (outcomeMark_only ..) rfl)))
    (SamePort.step q5 (SamePort.of (histCore_only ..) rfl))))
    (SamePort.step q4 (SamePort.of (setFloor_only ..) rfl))))
    (SamePort.step (SamePort.step q3 (SamePort.of (flagCore_only ..) rfl)) (sporeFeature_port ..)))))
    (SamePort.step q2 (SamePort.of (irq_only ..) rfl))))
    (SamePort.step q1 (outcomeCounter_port ..))))
    (SamePort.step (SamePort.refl _) (SamePort.of (emitAt_only ..) rfl)))

theorem laneOutcome_port (a0 a1 a2 a3 a4) : SamePort a4 (laneOutcome a0 a1 a2 a3 a4) := by
  unfold laneOutcome
  exact (SamePort.named (fun q1 =>
    (SamePort.step q1 (outcomeEffects_port ..)))
    (SamePort.ite (SamePort.step (SamePort.refl _) (SamePort.of (rememberTimeout_only ..) rfl)) (SamePort.refl _)))

theorem giveClass_port (a0 a1 a2 a3) : SamePort a3 (giveClass a0 a1 a2 a3) := by
  unfold giveClass
  exact (by
    split
    · exact (SamePort.refl _)
    · exact (SamePort.step (SamePort.set_res (SamePort.refl _)) (laneOutcome_port ..)))

theorem abandon_port (a0 a1 a2) : SamePort a2 (abandon a0 a1 a2) := by
  unfold abandon
  exact (SamePort.step (SamePort.step (SamePort.refl _) (SamePort.of (auditSkip_only ..) rfl)) (giveClass_port ..))

end Sys2Proof.Machine
end

