-- ==== Sys2Proof/Laws/FrameActs.lean ====
section
/-!
SUPPORT. What each command may change at step 14, beside the interpreter's own parts: one lemma an operation.
-/
namespace Sys2Proof.Machine

theorem Ans.named {ps qs : List Piece} {h g v : Hub} {a : Ans} (k : Only qs g v → a.only ps h) (q : Only qs g v) : a.only ps h := k q

theorem Ans.ite {ps : List Piece} {h : Hub} {a b : Ans} {c : Prop} [Decidable c] (x : a.only ps h) (y : b.only ps h) :
    (if c then a else b).only ps h := by
  split
  · exact x
  · exact y

theorem Ans.weaken {ps qs : List Piece} {h : Hub} {a : Ans} (x : a.only qs h) (w : within? qs ps = true) : a.only ps h := by
  cases a with
  | done => exact Only.weaken x w
  | later => exact fun n k => Only.weaken (x n k) w

theorem Ans.ok_only {ps : List Piece} {h k : Hub} {res : List Word} (a : Only ps h k) : (ok res k).only ps h := a
theorem Ans.refuse_only {ps : List Piece} {h k : Hub} {st det : Nat} (a : Only ps h k) : (refuse st k det).only ps h := a
theorem Ans.done_only {ps : List Piece} {h k : Hub} {st det : Nat} {res : List Word} (a : Only ps h k) : (Ans.done st det res k).only ps h := a
theorem Ans.later_only {ps : List Piece} {h : Hub} {due : Option Nat} {f : Nat → Hub → Hub} (a : ∀ n x, Only ps x (f n x)) :
    (Ans.later due f).only ps h := a

theorem onCore_only {ps : List Piece} {e : Env} {h : Hub} {c : Ctx} {f : Nat → Ans} (a : ∀ k, (f k).only ps h) : (onCore e h c f).only ps h := by
  unfold onCore
  split
  · exact Ans.refuse_only (Only.refl _ _)
  · exact a _

theorem acceptChange_only (c : Ctx) (w : Option Word) (ch : JobChange) (h : Hub) : (acceptChange c w ch h).only [.jobs] h := by
  unfold acceptChange
  split
  · exact Ans.ite (Ans.refuse_only (Only.refl _ _)) (Ans.ok_only (Only.set_jobs (Only.refl _ _) rfl))
  · exact Ans.ok_only (Only.set_jobs (Only.refl _ _) rfl)

theorem opTrcCfg_only (e : Env) (h : Hub) (c : Ctx) : (opTrcCfg.act e h c).only [.regions, .cells, .xs, .fab, .regs, .dma, .trc, .nid, .log, .ram] h := by
  delta opTrcCfg
  dsimp only
  exact (Ans.ite (Ans.done_only (Only.step (Only.refl _ _) (setTrace_only ..) rfl)) (Ans.refuse_only (Only.refl _ _)))

theorem opDigCompare_only (e : Env) (h : Hub) (c : Ctx) : (opDigCompare.act e h c).only [.dig, .xs, .fab, .regs, .log] h := by
  delta opDigCompare
  dsimp only
  exact (by
    split
    · exact (Ans.ite (Ans.ok_only (Only.step (Only.refl _ _) (submitRound_only ..) rfl)) (Ans.refuse_only (Only.refl _ _)))
    · exact (Ans.refuse_only (Only.refl _ _)))

theorem opDigRead_only (e : Env) (h : Hub) (c : Ctx) : (opDigRead.act e h c).only [] h := by
  delta opDigRead
  dsimp only
  exact (Ans.ite (by
    split
    · exact (Ans.ok_only (Only.refl _ _))
    · exact (Ans.ok_only (Only.refl _ _))) (by
    split
    · exact (Ans.refuse_only (Only.refl _ _))
    · exact (Ans.ok_only (Only.refl _ _))))

theorem opVerdictRead_only (e : Env) (h : Hub) (c : Ctx) : (opVerdictRead.act e h c).only [] h := by
  delta opVerdictRead
  dsimp only
  exact (Ans.ite (Ans.ok_only (Only.refl _ _)) (Ans.refuse_only (Only.refl _ _)))

theorem opXsReduce_only (e : Env) (h : Hub) (c : Ctx) : (opXsReduce.act e h c).only [.xs, .fab, .regs, .dma, .log] h := by
  delta opXsReduce
  dsimp only
  exact (Ans.ite (Ans.refuse_only (Only.refl _ _)) (Ans.ite (Ans.refuse_only (Only.refl _ _)) (by
    split
    · exact (Ans.refuse_only (Only.refl _ _))
    · exact (Ans.later_only (fun _ _ => (Only.step (Only.refl _ _) (beginReduce_only ..) rfl))))))

theorem opDbgRead_only (e : Env) (h : Hub) (c : Ctx) : (opDbgRead.act e h c).only [] h := by
  delta opDbgRead
  dsimp only
  exact (Ans.ok_only (Only.refl _ _))

theorem opTrigDisarm_only (e : Env) (h : Hub) (c : Ctx) : (opTrigDisarm.act e h c).only [.trc] h := by
  delta opTrigDisarm trigOp
  dsimp only
  exact (Ans.ok_only (Only.step (Only.refl _ _) (onTrc_only ..) rfl))

theorem opBcastPrepare_only (e : Env) (h : Hub) (c : Ctx) : (opBcastPrepare.act e h c).only [.xs, .fab, .sb, .bc, .mgt, .cmd, .regs, .log, .ram] h := by
  delta opBcastPrepare
  dsimp only
  split
  · exact Ans.refuse_only (Only.refl _ _)
  · refine Ans.ite (Ans.refuse_only (Only.refl _ _)) (Ans.ite (Ans.refuse_only (Only.refl _ _)) (Ans.ite (Ans.refuse_only (Only.refl _ _))
      (Ans.ite (Ans.refuse_only (Only.refl _ _)) (Ans.ite (Ans.ok_only (Only.step (Only.weaken (onBc_only ..) rfl) (addB_only ..) rfl)) ?_))))
    generalize writable h _ _ = w
    cases w
    · exact Ans.refuse_only (Only.refl _ _)
    · exact Ans.later_only (fun _ _ => Only.weaken (startRoot_only ..) rfl)

theorem opSysStateRead_only (e : Env) (h : Hub) (c : Ctx) : (opSysStateRead.act e h c).only [] h := by
  delta opSysStateRead
  dsimp only
  exact (Ans.ok_only (Only.refl _ _))

theorem opTrigRelease_only (e : Env) (h : Hub) (c : Ctx) : (opTrigRelease.act e h c).only [.regions, .cells, .xs, .fab, .regs, .dma, .trc, .nid, .log, .ram] h := by
  delta opTrigRelease trigOp
  dsimp only
  exact (Ans.ite (Ans.ok_only (Only.step (Only.refl _ _) (releaseBuf_only ..) rfl)) (Ans.ite (Ans.ok_only (Only.step (Only.refl _ _) (releaseBuf_only ..) rfl)) (Ans.refuse_only (Only.refl _ _))))

theorem opJobSet_only (e : Env) (h : Hub) (c : Ctx) : (opJobSet.act e h c).only [.jobs] h := by
  delta opJobSet
  dsimp only
  exact (acceptChange_only _ _ _ _)

theorem opProtLock_only (e : Env) (h : Hub) (c : Ctx) : (opProtLock.act e h c).only [.sb, .mgt, .cmd, .prot, .regs, .log] h := by
  delta opProtLock
  dsimp only
  exact (Ans.later_only (fun _ _ => (Only.step (Only.step (Only.refl _ _) (finish_only ..) rfl) (lockProt_only ..) rfl)))

theorem opPlanAck_only (e : Env) (h : Hub) (c : Ctx) : (opPlanAck.act e h c).only [.age] h := by
  delta opPlanAck
  dsimp only
  exact (by
    try dsimp -proj only
    split
    · exact (Ans.ite (Ans.named (fun q1 =>
    (Ans.ok_only (Only.step q1 (onZone_only ..) rfl)))
    (Only.step (Only.refl _ _) (onAge_only ..) rfl)) (Ans.refuse_only (Only.refl _ _)))
    · exact (Ans.refuse_only (Only.refl _ _)))

theorem opBcastCommit_only (e : Env) (h : Hub) (c : Ctx) : (opBcastCommit.act e h c).only [.xs, .fab, .sb, .bc, .mgt, .cmd, .regs, .log, .ram] h := by
  delta opBcastCommit
  dsimp only
  exact (by
    split
    · exact (Ans.refuse_only (Only.refl _ _))
    · exact (Ans.ite (Ans.refuse_only (Only.refl _ _)) (Ans.ite (Ans.ok_only (Only.step (Only.refl _ _) (dropB_only ..) rfl)) (Ans.later_only (fun _ _ => (Only.named (fun q1 =>
    (Only.step (Only.step q1 (putB_only ..) rfl) (advanceB_only ..) rfl))
    (Only.step (Only.refl _ _) (startPhase_only ..) rfl)))))))

theorem opTimeTrim_only (e : Env) (h : Hub) (c : Ctx) : (opTimeTrim.act e h c).only [.time, .regs, .log] h := by
  delta opTimeTrim
  dsimp only
  exact (Ans.ok_only (Only.step (Only.set_time (Only.refl _ _) rfl) (sourceChanged_only ..) rfl))

theorem opWatchSet_only (e : Env) (h : Hub) (c : Ctx) : (opWatchSet.act e h c).only [.regions, .cells, .hubc, .ens, .regs, .mem, .trc, .log] h := by
  delta opWatchSet
  dsimp only
  exact (onCore_only (fun _ => (Ans.done_only (Only.step (Only.step (Only.refl _ _) (onHubc_only ..) rfl) (sendCell_only ..) rfl))))

theorem opCellCfg_only (e : Env) (h : Hub) (c : Ctx) : (opCellCfg.act e h c).only [.regions, .cells, .hubc, .ens, .regs, .mem, .trc, .log] h := by
  delta opCellCfg
  dsimp only
  exact (onCore_only (fun _ => (Ans.done_only (Only.step (Only.step (Only.refl _ _) (setSels_only ..) rfl) (sendCell_only ..) rfl))))

theorem opTestDone_only (e : Env) (h : Hub) (c : Ctx) : (opTestDone.act e h c).only [.isl, .regions, .cells, .hubc, .casc, .age, .sb, .jobs, .regs, .trc, .log, .reports] h := by
  delta opTestDone
  dsimp only
  exact (by
    split
    · exact (Ans.refuse_only (Only.refl _ _))
    · exact (Ans.ite (Ans.refuse_only (Only.refl _ _)) (Ans.done_only (Only.ite (Only.step (Only.refl _ _) (abortTest_only ..) rfl) (Only.step (Only.refl _ _) (endTest_only ..) rfl)))))

theorem opTimeRead_only (e : Env) (h : Hub) (c : Ctx) : (opTimeRead.act e h c).only [] h := by
  delta opTimeRead
  dsimp only
  exact (Ans.ok_only (Only.refl _ _))

theorem opSysInfo_only (e : Env) (h : Hub) (c : Ctx) : (opSysInfo.act e h c).only [] h := by
  delta opSysInfo
  dsimp only
  exact (Ans.ok_only (Only.refl _ _))

theorem opStateRequest_only (a0) (e : Env) (h : Hub) (c : Ctx) : ((opStateRequest a0).act e h c).only [.sys, .isl, .time, .regions, .cells, .hubc, .res, .dig, .xs, .ens, .casc, .age, .fab, .sb, .bc, .jobs, .mgt, .cmd, .prot, .regs, .mem, .dma, .trc, .nid, .log, .boot, .img, .ram, .nvm] h := by
  delta opStateRequest
  dsimp only
  exact (Ans.ite (Ans.done_only (Only.step (Only.refl _ _) (holdReq_only ..) rfl)) (Ans.ite (Ans.ok_only (Only.refl _ _)) (Ans.ite (Ans.done_only (Only.step (Only.refl _ _) (startTransition_only ..) rfl)) (Ans.refuse_only (Only.refl _ _)))))

theorem opPlanSet_only (e : Env) (h : Hub) (c : Ctx) : (opPlanSet.act e h c).only [.casc, .age, .cmd, .regs, .log, .reports] h := by
  delta opPlanSet
  dsimp only
  exact (Ans.named (fun q1 =>
    (Ans.named (fun q2 =>
    (Ans.ok_only (Only.step q2 (formPlan_only ..) rfl)))
    (Only.step q1 (onZone_only ..) rfl)))
    (Only.ite (Only.refl _ _) (Only.step (Only.refl _ _) (noteCmd_only ..) rfl)))

theorem opDigCfg_only (e : Env) (h : Hub) (c : Ctx) : (opDigCfg.act e h c).only [.dig] h := by
  delta opDigCfg
  dsimp only
  exact (Ans.ok_only (Only.step (Only.refl _ _) (takeDigCfg_only ..) rfl))

theorem opAuditRead_only (e : Env) (h : Hub) (c : Ctx) : (opAuditRead.act e h c).only [] h := by
  delta opAuditRead
  dsimp only
  exact (onCore_only (fun _ => (Ans.ok_only (Only.refl _ _))))

theorem opCntRead_only (e : Env) (h : Hub) (c : Ctx) : (opCntRead.act e h c).only [] h := by
  delta opCntRead
  dsimp only
  exact (Ans.ite (Ans.ok_only (Only.refl _ _)) (onCore_only (fun _ => (Ans.ok_only (Only.refl _ _)))))

theorem opJobRead_only (e : Env) (h : Hub) (c : Ctx) : (opJobRead.act e h c).only [] h := by
  delta opJobRead
  dsimp only
  exact (by
    split
    · exact (Ans.ok_only (Only.refl _ _))
    · exact (Ans.refuse_only (Only.refl _ _)))

theorem opNidCfg_only (e : Env) (h : Hub) (c : Ctx) : (opNidCfg.act e h c).only [.nid] h := by
  delta opNidCfg
  dsimp only
  exact (Ans.ok_only (Only.set_nid (Only.refl _ _) rfl))

theorem opSysReset_only (e : Env) (h : Hub) (c : Ctx) : (opSysReset.act e h c).only [.sys, .isl, .time, .regions, .cells, .hubc, .res, .dig, .xs, .ens, .casc, .age, .fab, .sb, .bc, .jobs, .mgt, .cmd, .prot, .regs, .mem, .dma, .trc, .nid, .log, .boot, .img, .ram, .nvm] h := by
  delta opSysReset
  dsimp only
  exact (Ans.ite (Ans.done_only (Only.step (Only.refl _ _) (holdReq_only ..) rfl)) (Ans.ite (Ans.later_only (fun _ _ => (Only.step (Only.refl _ _) (configAfterReply_only ..) rfl))) (Ans.done_only (Only.step (Only.refl _ _) (startOrderly_only ..) rfl))))

theorem opKeyLoad_only (e : Env) (h : Hub) (c : Ctx) : (opKeyLoad.act e h c).only [.cmd, .prot, .regs, .log] h := by
  delta opKeyLoad
  dsimp only
  exact (Ans.ite (Ans.refuse_only (Only.step (Only.set_prot (Only.refl _ _) rfl) (refusedWrite_only ..) rfl)) (Ans.ok_only (Only.step (Only.refl _ _) (loadKey_only ..) rfl)))

theorem opImgLoad_only (e : Env) (h : Hub) (c : Ctx) : (opImgLoad.act e h c).only [.sys, .isl, .time, .regions, .cells, .hubc, .res, .dig, .xs, .ens, .casc, .age, .fab, .sb, .bc, .jobs, .mgt, .cmd, .prot, .regs, .mem, .dma, .trc, .nid, .log, .boot, .img, .reports, .ram, .nvm] h := by
  delta opImgLoad
  dsimp only
  exact (Ans.ite (Ans.refuse_only (Only.refl _ _)) (by
    split
    · exact (Ans.refuse_only (Only.refl _ _))
    · exact (by
    split
    · exact (Ans.refuse_only (Only.refl _ _))
    · exact (Ans.refuse_only (Only.refl _ _))
    · exact (Ans.ite (Ans.ok_only (Only.step (Only.refl _ _) (deliver_only ..) rfl)) (Ans.later_only (fun _ _ => (Only.step (Only.step (Only.refl _ _) (finish_only ..) rfl) (reboot_only ..) rfl)))))))

theorem opNormReq_only (e : Env) (h : Hub) (c : Ctx) : (opNormReq.act e h c).only [.xs, .fab] h := by
  delta opNormReq
  dsimp only
  exact (Ans.ite (Ans.refuse_only (Only.refl _ _)) (Ans.ite (Ans.refuse_only (Only.refl _ _)) (Ans.later_only (fun _ _ => (Only.step (Only.refl _ _) (beginNorm_only ..) rfl)))))

theorem opPolicySet_only (e : Env) (h : Hub) (c : Ctx) : (opPolicySet.act e h c).only [.casc] h := by
  delta opPolicySet
  dsimp only
  exact (Ans.ite (Ans.refuse_only (Only.refl _ _)) (Ans.ok_only (Only.step (Only.refl _ _) (onCasc_only ..) rfl)))

theorem opDigRelease_only (e : Env) (h : Hub) (c : Ctx) : (opDigRelease.act e h c).only [.dig, .xs, .fab, .regs, .log] h := by
  delta opDigRelease
  dsimp only
  exact (by
    split
    · exact (Ans.refuse_only (Only.refl _ _))
    · exact (Ans.ite (Ans.refuse_only (Only.refl _ _)) (Ans.ite (Ans.refuse_only (Only.refl _ _)) (Ans.ok_only (Only.step (Only.step (Only.refl _ _) (onDig_only ..) rfl) (retired_only ..) rfl)))))

theorem opRuleSet_only (e : Env) (h : Hub) (c : Ctx) : (opRuleSet.act e h c).only [.regions, .cells, .hubc, .ens, .regs, .mem, .trc, .log] h := by
  delta opRuleSet
  dsimp only
  exact (onCore_only (fun _ => (Ans.done_only (Only.step (Only.step (Only.refl _ _) (onHubc_only ..) rfl) (sendCell_only ..) rfl))))

theorem opFence_only (e : Env) (h : Hub) (c : Ctx) : (opFence.act e h c).only [.isl, .regions, .cells, .hubc, .casc, .sb, .jobs, .regs, .trc, .log, .reports] h := by
  delta opFence
  dsimp only
  exact (Ans.ite (Ans.done_only (Only.step (Only.refl _ _) (cmdRemove_only ..) rfl)) (Ans.refuse_only (Only.refl _ _)))

theorem opFeatWrite_only (e : Env) (h : Hub) (c : Ctx) : (opFeatWrite.act e h c).only [.ens, .regs, .mem, .log] h := by
  delta opFeatWrite
  dsimp only
  exact (Ans.ite (Ans.ok_only (Only.step (Only.refl _ _) (onEns_only ..) rfl)) (Ans.ite (Ans.refuse_only (Only.refl _ _)) (Ans.ite (Ans.done_only (Only.step (Only.refl _ _) (emitUnit_only ..) rfl)) (Ans.ok_only (Only.step (Only.refl _ _) (featWrites_only ..) rfl)))))

theorem opTimeSet_only (e : Env) (h : Hub) (c : Ctx) : (opTimeSet.act e h c).only [.time, .regs, .trc, .log] h := by
  delta opTimeSet
  dsimp only
  exact (Ans.ite (Ans.refuse_only (Only.refl _ _)) (Ans.ok_only (Only.step (Only.refl _ _) (correct_only ..) rfl)))

theorem opTrigFire_only (e : Env) (h : Hub) (c : Ctx) : (opTrigFire.act e h c).only [.regions, .cells, .regs, .trc] h := by
  delta opTrigFire trigOp
  dsimp only
  exact (Ans.ok_only (Only.step (Only.refl _ _) (trigger_only ..) rfl))

theorem opTrigArm_only (e : Env) (h : Hub) (c : Ctx) : (opTrigArm.act e h c).only [.trc] h := by
  delta opTrigArm trigOp
  dsimp only
  exact (Ans.ite (Ans.refuse_only (Only.refl _ _)) (Ans.ok_only (Only.step (Only.refl _ _) (onTrc_only ..) rfl)))

theorem opResCfg_only (e : Env) (h : Hub) (c : Ctx) : (opResCfg.act e h c).only [.regions, .cells, .hubc, .res, .ens, .regs, .mem, .trc, .log] h := by
  delta opResCfg
  dsimp only
  exact (Ans.ite (Ans.ite (Ans.refuse_only (Only.refl _ _)) (Ans.done_only (Only.ite (Only.foldl (fun _ _ => (Only.step (Only.refl _ _) (sendRes_only ..) rfl)) _ (Only.set_res (Only.refl _ _) rfl)) (Only.set_res (Only.refl _ _) rfl)))) (onCore_only (fun _ => (Ans.done_only (Only.step (Only.refl _ _) (sendRes_only ..) rfl)))))

theorem opExpel_only (e : Env) (h : Hub) (c : Ctx) : (opExpel.act e h c).only [.isl, .regions, .cells, .hubc, .casc, .sb, .jobs, .regs, .trc, .log, .reports] h := by
  delta opExpel
  dsimp only
  exact (Ans.ite (Ans.done_only (Only.step (Only.refl _ _) (cmdRemove_only ..) rfl)) (Ans.refuse_only (Only.refl _ _)))

theorem opTestCancel_only (e : Env) (h : Hub) (c : Ctx) : (opTestCancel.act e h c).only [.casc, .regs, .log] h := by
  delta opTestCancel
  dsimp only
  exact (Ans.ite (Ans.refuse_only (Only.refl _ _)) (Ans.ite (Ans.refuse_only (Only.refl _ _)) (Ans.ok_only (Only.foldl (fun _ _ => (Only.step (Only.refl _ _) (cancelTest_only ..) rfl)) _ (Only.step (Only.refl _ _) (noteCmd_only ..) rfl)))))

theorem opCntSnap_only (e : Env) (h : Hub) (c : Ctx) : (opCntSnap.act e h c).only [.regions, .cells] h := by
  delta opCntSnap
  dsimp only
  exact (Ans.ite (Ans.refuse_only (Only.refl _ _)) (Ans.done_only (Only.step (Only.refl _ _) (askPartial_only ..) rfl)))

theorem opDigCheckpoint_only (e : Env) (h : Hub) (c : Ctx) : (opDigCheckpoint.act e h c).only [.dig] h := by
  delta opDigCheckpoint
  dsimp only
  exact (Ans.ite (Ans.refuse_only (Only.refl _ _)) (Ans.ok_only (Only.step (Only.refl _ _) (onDig_only ..) rfl)))

theorem opRecMark_only (e : Env) (h : Hub) (c : Ctx) : (opRecMark.act e h c).only [.regions, .cells, .regs, .trc, .log] h := by
  delta opRecMark
  dsimp only
  exact (Ans.ok_only (Only.step (Only.step (Only.refl _ _) (emit_only ..) rfl) (mark_only ..) rfl))

theorem opDbgWrite_only (e : Env) (h : Hub) (c : Ctx) : (opDbgWrite.act e h c).only [.time, .regions, .cells, .hubc, .res, .dig, .ens, .casc, .age, .mgt, .cmd, .prot, .regs, .mem, .dma, .trc, .log, .reports, .ram] h := by
  delta opDbgWrite
  dsimp only
  exact (Ans.ite (Ans.refuse_only (Only.refl _ _)) (Ans.ok_only (Only.ite (commandField_only (Only.refl _ _) (fun _ => (Only.step (Only.refl _ _) (writeReg_only ..) rfl)) rfl) (Only.step (Only.refl _ _) (ignoredWrite_only ..) rfl))))

theorem opEnsActivate_only (e : Env) (h : Hub) (c : Ctx) : (opEnsActivate.act e h c).only [.ens, .casc, .regs, .log] h := by
  delta opEnsActivate
  dsimp only
  exact (by
    try dsimp -proj only
    split
    · exact (Ans.refuse_only (Only.refl _ _))
    · exact (Ans.ite (Ans.refuse_only (Only.refl _ _)) (Ans.ite (Ans.refuse_only (Only.refl _ _)) (Ans.ite (Ans.refuse_only (Only.refl _ _)) (Ans.ite (Ans.refuse_only (Only.refl _ _)) (Ans.ok_only (Only.step (Only.step (Only.refl _ _) (swapDone_only ..) rfl) (onSlot_only ..) rfl)))))))

theorem opEnsRun_only (e : Env) (h : Hub) (c : Ctx) : (opEnsRun.act e h c).only [.ens, .regs, .mem, .log, .reports] h := by
  delta opEnsRun
  dsimp only
  split
  · exact Ans.refuse_only (Only.refl _ _)
  · split
    · exact Ans.refuse_only (Only.refl _ _)
    · exact Ans.refuse_only (Only.refl _ _)
    · exact Ans.ok_only (Only.weaken (askPass_empty_only (by assumption)) rfl)
    · refine Ans.later_only (fun _ _ => ?_)
      split
      · exact Only.weaken (askPass_only (by assumption)) rfl
      · exact Only.refl _ _

theorem opUnfence_only (e : Env) (h : Hub) (c : Ctx) : (opUnfence.act e h c).only [.isl, .regions, .cells, .hubc, .casc, .sb, .jobs, .regs, .trc, .log, .reports] h := by
  delta opUnfence
  dsimp only
  exact (Ans.ite (Ans.refuse_only (Only.refl _ _)) (Ans.ite (Ans.refuse_only (Only.refl _ _)) (Ans.named (fun q1 =>
    (Ans.named (fun q2 =>
    (Ans.done_only (by
    split
    · exact (Only.step q2 (onHubc_only ..) rfl)
    · exact q2)))
    (Only.step (Only.step q1 (onEnt_only ..) rfl) (setVerdict_only ..) rfl)))
    (Only.step (Only.step (Only.refl _ _) (noteCmd_only ..) rfl) (endFloors_only ..) rfl))))

theorem opAuditRate_only (e : Env) (h : Hub) (c : Ctx) : (opAuditRate.act e h c).only [.hubc, .casc] h := by
  delta opAuditRate
  dsimp only
  exact (onCore_only (fun _ => (Ans.ok_only (Only.step (Only.step (Only.refl _ _) (onHubc_only ..) rfl) (onEnt_only ..) rfl))))

theorem opProbeDone_only (e : Env) (h : Hub) (c : Ctx) : (opProbeDone.act e h c).only [.regions, .cells, .hubc, .ens, .casc, .age, .regs, .mem, .log] h := by
  delta opProbeDone
  dsimp only
  exact (by
    split
    · exact (Ans.refuse_only (Only.refl _ _))
    · exact (Ans.ite (Ans.refuse_only (Only.refl _ _)) (Ans.done_only (Only.step (Only.refl _ _) (endProbe_only ..) rfl))))

theorem opLifeRead_only (e : Env) (h : Hub) (c : Ctx) : (opLifeRead.act e h c).only [] h := by
  delta opLifeRead
  dsimp only
  exact (by
    split
    · exact (Ans.ok_only (Only.refl _ _))
    · exact (Ans.ok_only (Only.refl _ _))
    · exact (Ans.ok_only (Only.refl _ _)))

theorem opShadowStart_only (e : Env) (h : Hub) (c : Ctx) : (opShadowStart.act e h c).only [.isl, .regions, .cells, .hubc, .casc, .sb, .jobs, .regs, .trc, .log, .reports] h := by
  delta opShadowStart
  dsimp only
  exact (Ans.ite (Ans.refuse_only (Only.refl _ _)) (Ans.ite (Ans.refuse_only (Only.refl _ _)) (Ans.ite (Ans.refuse_only (Only.refl _ _)) (Ans.named (fun q1 =>
    (Ans.named (fun q2 =>
    (Ans.ok_only (Only.step (Only.step q2 (onEnt_only ..) rfl) (setVerdict_only ..) rfl)))
    (Only.step (Only.step q1 (markShadow_only ..) rfl) (onCasc_only ..) rfl)))
    (Only.step (Only.step (Only.step (Only.refl _ _) (noteCmd_only ..) rfl) (endPending_only ..) rfl) (endFloors_only ..) rfl)))))

theorem opTestSchedule_only (e : Env) (h : Hub) (c : Ctx) : (opTestSchedule.act e h c).only [.regions, .cells, .casc, .regs, .trc, .log, .reports] h := by
  delta opTestSchedule
  dsimp only
  exact (Ans.ite (Ans.refuse_only (Only.refl _ _)) (Ans.ok_only (Only.step (Only.foldl (fun _ _ => (Only.step (Only.refl _ _) (dueTest_only ..) rfl)) _ (Only.refl _ _)) (noteCmd_only ..) rfl)))

theorem opJobList_only (a0) (e : Env) (h : Hub) (c : Ctx) : ((opJobList a0).act e h c).only [.jobs] h := by
  delta opJobList
  dsimp only
  exact (by
    try dsimp -proj only
    split
    · exact (Ans.refuse_only (Only.refl _ _))
    · exact (Ans.ite (by
    split
    · exact (Ans.refuse_only (Only.refl _ _))
    · exact (acceptChange_only _ _ _ _)) (acceptChange_only _ _ _ _)))

theorem opEnsRollback_only (e : Env) (h : Hub) (c : Ctx) : (opEnsRollback.act e h c).only [.ens, .casc, .regs, .log] h := by
  delta opEnsRollback
  dsimp only
  exact (Ans.ite (Ans.refuse_only (Only.refl _ _)) (Ans.ite (Ans.refuse_only (Only.refl _ _)) (Ans.ite (Ans.refuse_only (Only.refl _ _)) (Ans.ite (Ans.refuse_only (Only.refl _ _)) (Ans.ok_only (Only.step (Only.ite (Only.step (Only.refl _ _) (emitUnit_only ..) rfl) (Only.step (Only.refl _ _) (swapDone_only ..) rfl)) (onSlot_only ..) rfl))))))

theorem opTrigDump_only (e : Env) (h : Hub) (c : Ctx) : (opTrigDump.act e h c).only [.regs, .dma, .log, .ram] h := by
  delta opTrigDump trigOp
  dsimp only
  exact (Ans.ite (Ans.refuse_only (Only.refl _ _)) (Ans.ite (Ans.refuse_only (Only.refl _ _)) (by
    split
    · exact (Ans.ok_only (Only.weaken (writeOut_only (by assumption)) rfl))
    · exact (Ans.refuse_only (Only.refl _ _)))))

theorem opRecRead_only (e : Env) (h : Hub) (c : Ctx) : (opRecRead.act e h c).only [.regs, .dma, .log, .ram] h := by
  delta opRecRead
  dsimp only
  exact (by
    split
    · exact (Ans.refuse_only (Only.refl _ _))
    · exact (Ans.ite (Ans.ok_only (Only.refl _ _)) (by
    split
    · exact (Ans.ok_only (Only.weaken (writeOut_only (by assumption)) rfl))
    · exact (Ans.refuse_only (Only.refl _ _)))))

theorem opPlanMode_only (e : Env) (h : Hub) (c : Ctx) : (opPlanMode.act e h c).only [.age] h := by
  delta opPlanMode
  dsimp only
  exact (Ans.ok_only (Only.set_age (Only.refl _ _) rfl))

theorem opDigOpen_only (e : Env) (h : Hub) (c : Ctx) : (opDigOpen.act e h c).only [.isl, .regions, .cells, .hubc, .dig, .xs, .casc, .fab, .sb, .jobs, .cmd, .regs, .trc, .log, .reports] h := by
  delta opDigOpen
  dsimp only
  exact (Ans.ite (Ans.refuse_only (Only.refl _ _)) (Ans.ok_only (Only.step (Only.refl _ _) (openEpoch_only ..) rfl)))

theorem opEnsLoad_only (e : Env) (h : Hub) (c : Ctx) : (opEnsLoad.act e h c).only [.ens, .regs, .dma, .log] h := by
  delta opEnsLoad
  dsimp only
  exact (Ans.later_only (fun _ _ => (Only.step (Only.step (Only.refl _ _) (onEns_only ..) rfl) (pulseLine_only ..) rfl)))

theorem opPlanAuto_only (e : Env) (h : Hub) (c : Ctx) : (opPlanAuto.act e h c).only [.age] h := by
  delta opPlanAuto
  dsimp only
  exact (Ans.ok_only (Only.step (Only.refl _ _) (onZone_only ..) rfl))

theorem noOperation_only (a0 a1 a2) (e : Env) (h : Hub) (c : Ctx) : ((noOperation a0 a1 a2).act e h c).only [] h := by
  delta noOperation
  dsimp only
  exact (Ans.refuse_only (Only.refl _ _))

end Sys2Proof.Machine
end

