-- ==== Sys2Proof/Laws/Tables.lean ====
section
/-!
SUPPORT. The laws of the tables and lists the state is made of, and of the memories: a read after a write, a write elsewhere, and that the
canonical form of a memory is kept.
-/
namespace Sys2Proof

@[simp] theorem getAt_setAt_self {α : Type} (l : List α) (i : Nat) (a d : α) (h : i < l.length) : getAt (setAt l i a) i d = a := by
  induction l generalizing i with
  | nil => simp at h
  | cons x t ih => cases i with
    | zero => rfl
    | succ i => exact ih i (by simpa using h)

theorem getAt_setAt_ne {α : Type} (l : List α) (i j : Nat) (a d : α) (h : j ≠ i) : getAt (setAt l i a) j d = getAt l j d := by
  induction l generalizing i j with
  | nil => rfl
  | cons x t ih => cases i with
    | zero => cases j with
      | zero => exact absurd rfl h
      | succ j => rfl
    | succ i => cases j with
      | zero => rfl
      | succ j => exact ih i j (fun e => h (congrArg (· + 1) e))

/-- A list after one element is replaced, element by element. -/
theorem getElem?_setAt {α : Type} (l : List α) (i j : Nat) (a : α) :
    (setAt l i a)[j]? = if i = j then (l[j]?).map (fun _ => a) else l[j]? := by
  induction l generalizing i j with
  | nil => simp [setAt]
  | cons x t ih => cases i with
    | zero => cases j with
      | zero => simp [setAt]
      | succ j => simp [setAt]
    | succ i => cases j with
      | zero => simp [setAt]
      | succ j => simp [setAt, ih]

theorem getAt_eq {α : Type} (l : List α) (i : Nat) (d : α) : getAt l i d = (l[i]?).getD d := by
  induction l generalizing i with
  | nil => simp [getAt]
  | cons x t ih => cases i with
    | zero => simp [getAt]
    | succ i => simp [getAt, ih]

@[simp] theorem length_setAt {α : Type} (l : List α) (i : Nat) (a : α) : (setAt l i a).length = l.length := by
  induction l generalizing i with
  | nil => rfl
  | cons x t ih => cases i with
    | zero => rfl
    | succ i => exact congrArg (· + 1) (ih i)

@[simp] theorem Tab.find_put_self {α : Type} (t : Tab α) (i : Nat) (a : α) : Tab.find (Tab.put t i a) i = some a := by
  induction t with
  | nil => simp [Tab.put, Tab.find]
  | cons x t ih =>
    obtain ⟨k, b⟩ := x
    unfold Tab.put
    split
    · simp [Tab.find]
    · split
      · simp [Tab.find]
      · next h => rw [Tab.find, if_neg (fun e => h e.symm), ih]

theorem Tab.find_put_ne {α : Type} (t : Tab α) (i j : Nat) (a : α) (h : j ≠ i) : Tab.find (Tab.put t i a) j = Tab.find t j := by
  induction t with
  | nil => simp [Tab.put, Tab.find, Ne.symm h]
  | cons x t ih =>
    obtain ⟨k, b⟩ := x
    unfold Tab.put
    split
    · simp [Tab.find, Ne.symm h]
    · split
      · next hk => rw [Tab.find, Tab.find, if_neg (Ne.symm h), if_neg (fun e => h (by omega))]
      · simp [Tab.find, ih]

@[simp] theorem Tab.getD_put_self {α : Type} (t : Tab α) (i : Nat) (a d : α) : Tab.getD (Tab.put t i a) i d = a := by
  simp [Tab.getD]

theorem Tab.getD_put_ne {α : Type} (t : Tab α) (i j : Nat) (a d : α) (h : j ≠ i) : Tab.getD (Tab.put t i a) j d = Tab.getD t j d := by
  simp [Tab.getD, Tab.find_put_ne t i j a h]

end Sys2Proof

namespace Sys2Proof.Machine

/-! Memories. -/

theorem Mem.wfFrom_mono (d : Byte) {lo hi : Nat} (h : lo ≤ hi) (m : Mem) (w : Mem.wfFrom d hi m = true) : Mem.wfFrom d lo m = true := by
  cases m with
  | nil => rfl
  | cons x t =>
    simp only [Mem.wfFrom, Bool.and_eq_true, decide_eq_true_eq] at w ⊢
    exact ⟨⟨by omega, w.1.2⟩, w.2⟩

/-- A write keeps the canonical form. -/
theorem Mem.wfFrom_set (d : Byte) (m : Mem) (lo a : Nat) (b : Byte) (w : Mem.wfFrom d lo m = true) (h : lo ≤ a) :
    Mem.wfFrom d lo (Mem.set d m a b) = true := by
  induction m generalizing lo with
  | nil =>
    unfold Mem.set
    split
    · rfl
    · simp_all [Mem.wfFrom]
  | cons x t ih =>
    obtain ⟨k, c⟩ := x
    simp only [Mem.wfFrom, Bool.and_eq_true, decide_eq_true_eq] at w
    unfold Mem.set
    split
    · split
      · simp [Mem.wfFrom, w]
      · simp_all [Mem.wfFrom]
    · split
      · split
        · exact Mem.wfFrom_mono d (by omega) t w.2
        · simp_all [Mem.wfFrom]
      · simp only [Mem.wfFrom, Bool.and_eq_true, decide_eq_true_eq]
        exact ⟨w.1, ih (k + 1) w.2 (by omega)⟩

theorem Mem.wf_set (d : Byte) (m : Mem) (a : Nat) (b : Byte) (w : Mem.wf d m = true) : Mem.wf d (Mem.set d m a b) = true :=
  Mem.wfFrom_set d m 0 a b w (Nat.zero_le a)

/-- Writes in order keep the canonical form. -/
theorem Mem.wf_apply (d : Byte) (ws : List Host.Cell) (m : Mem) (w : Mem.wf d m = true) : Mem.wf d (Mem.apply d m ws) = true := by
  unfold Mem.apply
  induction ws generalizing m with
  | nil => exact w
  | cons x ws ih => exact ih _ (Mem.wf_set d m x.1 x.2 w)

theorem Mem.get_below (d : Byte) (m : Mem) (lo a : Nat) (w : Mem.wfFrom d lo m = true) (h : a < lo) : Mem.get d m a = d := by
  induction m generalizing lo with
  | nil => rfl
  | cons x t ih =>
    obtain ⟨k, c⟩ := x
    simp only [Mem.wfFrom, Bool.and_eq_true, decide_eq_true_eq] at w
    unfold Mem.get
    rw [if_neg (by omega)]
    exact ih (k + 1) w.2 (by omega)

/-- A byte reads as written. -/
theorem Mem.get_set_self (d : Byte) (m : Mem) (a : Nat) (b : Byte) (w : Mem.wf d m = true) : Mem.get d (Mem.set d m a b) a = b := by
  have all : ∀ (m : Mem) (lo : Nat), Mem.wfFrom d lo m = true → Mem.get d (Mem.set d m a b) a = b := by
    intro m
    induction m with
    | nil =>
      intro lo _
      unfold Mem.set
      split <;> simp_all [Mem.get]
    | cons x t ih =>
      intro lo w
      obtain ⟨k, c⟩ := x
      simp only [Mem.wfFrom, Bool.and_eq_true, decide_eq_true_eq] at w
      unfold Mem.set
      split
      · split
        · next hb =>
          rw [Mem.get, if_neg (by omega), Mem.get_below d t (k + 1) a w.2 (by omega), hb]
        · simp [Mem.get]
      · split
        · split
          · next hk hb => rw [Mem.get_below d t (k + 1) a w.2 (by omega), hb]
          · next hk hb => simp [Mem.get, hk]
        · next h1 h2 =>
          rw [Mem.get, if_neg (fun e => h2 e.symm)]
          exact ih (k + 1) w.2
  exact all m 0 w

/-- Other bytes read as before. -/
theorem Mem.get_set_ne (d : Byte) (m : Mem) (a c : Nat) (b : Byte) (h : c ≠ a) : Mem.get d (Mem.set d m a b) c = Mem.get d m c := by
  induction m with
  | nil =>
    unfold Mem.set
    split
    · rfl
    · simp [Mem.get, Ne.symm h]
  | cons x t ih =>
    obtain ⟨k, e⟩ := x
    unfold Mem.set
    split
    · split
      · rfl
      · simp [Mem.get, Ne.symm h]
    · split
      · next h1 h2 =>
        split
        · rw [Mem.get, if_neg (by omega)]
        · rw [Mem.get, Mem.get, if_neg (by omega), if_neg (by omega)]
      · simp only [Mem.get, ih]

/-- Bytes that no write of a list names read as before. -/
theorem Mem.get_apply_ne (d : Byte) (ws : List Host.Cell) (m : Mem) (a : Nat) (h : ∀ w ∈ ws, w.1 ≠ a) :
    Mem.get d (Mem.apply d m ws) a = Mem.get d m a := by
  unfold Mem.apply
  induction ws generalizing m with
  | nil => rfl
  | cons x ws ih =>
    rw [List.foldl_cons, ih _ (fun w hw => h w (List.mem_cons_of_mem _ hw))]
    exact Mem.get_set_ne d m x.1 a x.2 (Ne.symm (h x List.mem_cons_self))

@[simp] theorem Mem.apply_nil (d : Byte) (m : Mem) : Mem.apply d m [] = m := rfl

theorem Tab.find_filter {α : Type} (t : Tab α) (f : Nat × α → Bool) (i : Nat) (h : ∀ a, f (i, a) = true) :
    Tab.find (t.filter f) i = Tab.find t i := by
  induction t with
  | nil => rfl
  | cons x t ih =>
    obtain ⟨k, a⟩ := x
    by_cases e : k = i
    · subst e
      rw [List.filter_cons_of_pos (h a)]
      simp [Tab.find]
    · by_cases g : f (k, a) = true
      · rw [List.filter_cons_of_pos g]
        simp [Tab.find, e, ih]
      · rw [List.filter_cons_of_neg g]
        simp [Tab.find, e, ih]

/-- What a meaning leaves alone, the state after it has too. -/
theorem keeps_of_only {ps : List Piece} {s : State} {h : Hub} (a : Only ps s.hub.clean h) : Keeps ps s (s.settle h) := by
  refine ⟨rfl, rfl, ⟨fun p hp => ?_⟩, fun hr x => ?_, fun hn x => ?_⟩
  · have hq : p ∉ ps := fun q => hp (List.mem_cons_of_mem _ (List.mem_cons_of_mem _ q))
    have := a.keep p hq
    cases p <;> first | exact this | simp at hp
  · have : h.posted = [] := a.keep .ram hr
    simp [State.settle, this]
  · have : h.nvPosted = [] := a.keep .nvm hn
    simp [State.settle, this]

end Sys2Proof.Machine
end

