-- ==== Sys2Proof/Laws/Interp.lean ====
section
/-!
SUPPORT. The command interpreter: what a command that passes its checks does, and what its answer leaves.
-/
namespace Sys2Proof.Machine

@[simp] theorem nowNs_clean (h : Hub) : nowNs h.clean = nowNs h := rfl
@[simp] theorem alive_clean (h : Hub) : alive h.clean = alive h := rfl
@[simp] theorem serving_clean (h : Hub) : serving h.clean = serving h := rfl
@[simp] theorem working_clean (h : Hub) : working h.clean = working h := rfl
@[simp] theorem upState_clean (h : Hub) : upState h.clean = upState h := rfl
@[simp] theorem portOn_clean (h : Hub) : portOn h.clean = portOn h := rfl
@[simp] theorem imgOf_clean (h : Hub) : imgOf h.clean = imgOf h := rfl
@[simp] theorem dieNo_clean (e : Env) (h : Hub) : dieNo e h.clean = dieNo e h := rfl
@[simp] theorem nodeNo_clean (e : Env) (h : Hub) : nodeNo e h.clean = nodeNo e h := rfl
@[simp] theorem region_clean (h : Hub) (r : Nat) : region h.clean r = region h r := rfl
@[simp] theorem cell_clean (h : Hub) (c : Nat) : cell h.clean c = cell h c := rfl
@[simp] theorem hubc_clean (h : Hub) (c : Nat) : Sys2Proof.Machine.hubc h.clean c = Sys2Proof.Machine.hubc h c := rfl
@[simp] theorem entity_clean (h : Hub) (x : Word) : entity h.clean x = entity h x := rfl
@[simp] theorem chan_clean (h : Hub) (c : Nat) : chan h.clean c = chan h c := rfl
@[simp] theorem seqOf_clean (h : Hub) (r : Requester) : seqOf h.clean r = seqOf h r := rfl
@[simp] theorem dmaCh_clean (h : Hub) (c : Nat) : dmaCh h.clean c = dmaCh h c := rfl
@[simp] theorem seg_clean (h : Hub) (b : Bool) : seg h.clean b = seg h b := rfl
@[simp] theorem sbPort_clean (h : Hub) (i : Nat) : sbPort h.clean i = sbPort h i := rfl

/-- A command that passes its checks is executed on the hub its CSEQ has been consumed in. -/
theorem runCmd_of_passes {d : OpDef} {c : Cmd} {s : State} (p : passes d c s = true) :
    runCmd d s.env c s.hub.clean =
      match d.act s.env (consumed c s) (ctxOf c s) with
      | .done st det res k =>
        if st = stBusy then replyOnly s.env d.code (ctxOf c s) stBusy s.hub.clean
        else answer s.env d.code d.changes (ctxOf c s) st det res k
      | .later due f =>
        f (consumed c s).cmd.nextId { consumed c s with cmd := { (consumed c s).cmd with
          pends := (consumed c s).cmd.pends ++ [{ id := (consumed c s).cmd.nextId, opcode := BitVec.ofNat 8 d.code, req := c.req
                                                  cseq := c.cseq, domain := BitVec.ofNat 2 (domCode (ctxOf c s).dom)
                                                  job := (ctxOf c s).job, due := due }]
          nextId := (consumed c s).cmd.nextId + 1 } } := by
  unfold passes at p
  simp only [Bool.and_eq_true, decide_eq_true_eq, Bool.not_eq_true', bne_iff_ne, ne_eq, Option.isNone_iff_eq_none] at p
  obtain ⟨⟨⟨⟨⟨⟨⟨⟨⟨⟨⟨⟨⟨hd, hl⟩, ht⟩, hm⟩, hj⟩, hs⟩, hf⟩, hn⟩, hw⟩, ha⟩, hr⟩, hfm⟩, hsee⟩, hrg⟩ := p
  obtain ⟨dj, hdj⟩ := Option.isSome_iff_exists.mp hd
  have hx : ctxOf c s = mkCtx c dj := by simp [ctxOf, hdj]
  have hdj' : reqDom s.env s.hub.clean c.req = some dj := hdj
  have own : (decide (c.target = 0x3FFFF) || decide (c.target.toNat = nodeNo s.env s.hub.clean)) = true := ht
  have hq : seqCheck (seqOf s.hub.clean c.req) c.cseq = .pass := by
    unfold seqPass at hs
    split at hs
    · assumption
    · cases hs
  have hw' : mustWait c s.hub.clean = false := hw
  have hf' : (s.hub.clean.sys.st == .flush || decide (inProgress s.hub.clean ≥ 32)) = false := by
    have h1 : (s.hub.clean.sys.st == BlockState.flush) = false := by simpa using hf
    have h2 : decide (inProgress s.hub.clean ≥ 32) = false := by
      have : inProgress s.hub.clean = inProgress s.hub := rfl
      simp [this]; omega
    rw [h1, h2]; rfl
  have adm : admitted d.code (consumed c s) = true := by
    rw [← ha]
    unfold consumed onSeq
    split <;> rfl
  have hdom : (mkCtx c dj).dom = dj.1 := rfl
  rw [hx] at hm hj hfm hsee hrg ⊢
  have run : runCmd d s.env c s.hub.clean = acceptCmd d s.env c (mkCtx c dj) s.hub.clean := by
    unfold runCmd
    simp only [hdj', own, hm, Bool.not_true, Bool.false_and, Bool.false_eq_true, if_false, if_true]
    have hb : ((mkCtx c dj).dom == Domain.tenant && (mkCtx c dj).job.isNone) = false := by simpa using hj
    rw [if_neg (by omega)]
    rw [hb]
    simp
  rw [run]
  unfold acceptCmd
  rw [hq]
  dsimp only
  rw [hf', hw']
  simp only [Bool.false_eq_true, if_false]
  change startCmd d s.env (mkCtx c dj) s.hub.clean (consumed c s) = _
  unfold startCmd
  rw [adm, hr, hfm, hsee, hrg]
  simp only [Bool.and_self, Bool.not_true, Bool.false_eq_true, if_false]
  rfl

@[simp] theorem chanPut_seqs (c : Nat) (r : Reply) (h : Hub) : (chanPut c r h).cmd.seqs = h.cmd.seqs := by
  unfold chanPut
  simp only
  split
  · rfl
  · split
    · rfl
    · split
      · simp
      · rfl

@[simp] theorem mgtReply_seqs (e : Env) (k : Nat) (b : Bool) (bs : List Byte) (h : Hub) : (mgtReply e k b bs h).cmd.seqs = h.cmd.seqs := by
  unfold mgtReply
  split
  · rfl
  · simp

@[simp] theorem sendReply_seqs (e : Env) (q : Requester) (r : Reply) (h : Hub) : (sendReply e q r h).cmd.seqs = h.cmd.seqs := by
  cases q <;> simp [sendReply]

theorem ahead_self (q : Word) : ahead 32 q.toNat q.toNat = 0 := by
  have := q.isLt
  unfold ahead
  rw [Nat.mod_eq_of_lt this]
  simp

/-- A CSEQ that step 8 lets through is remembered with the reply stored against it (R461, R462). -/
theorem seqConsume_stored {q : SeqState} {n : Word} {r : Reply} (hn : n ≠ 0)
    (w : ahead 32 (seqConsume q n none).h.toNat n.toNat ≤ 15) :
    (n, some r) ∈ (seqConsume (seqConsume q n none) n (some r)).stored := by
  have h2 : (seqConsume (seqConsume q n none) n (some r)).h = (seqConsume q n none).h ∨
      (seqConsume (seqConsume q n none) n (some r)).h = n := by
    generalize seqConsume q n none = p
    unfold seqConsume
    rw [if_neg hn]
    dsimp only
    split
    · exact Or.inr rfl
    · exact Or.inl rfl
  have w2 : ahead 32 (seqConsume (seqConsume q n none) n (some r)).h.toNat n.toNat ≤ 15 := by
    rcases h2 with e | e
    · rw [e]; exact w
    · rw [e, ahead_self]; omega
  revert w2
  generalize seqConsume q n none = p
  intro w2
  unfold seqConsume at w2 ⊢
  rw [if_neg hn] at w2 ⊢
  dsimp only at w2 ⊢
  exact List.mem_filter.mpr ⟨List.mem_cons_self, by simpa using w2⟩

theorem seqConsume_near {q : SeqState} {n : Word} (hn : n ≠ 0)
    (p : (match seqCheck q n with | .pass => true | _ => false) = true) : ahead 32 (seqConsume q n none).h.toNat n.toNat ≤ 15 := by
  by_cases hu : 1 ≤ ahead 32 n.toNat q.h.toNat ∧ ahead 32 n.toNat q.h.toNat ≤ 2 ^ 31 - 1
  · have : (seqConsume q n none).h = n := by
      unfold seqConsume
      rw [if_neg hn]
      exact if_pos hu
    rw [this, ahead_self]
    exact Nat.zero_le _
  · have e : (seqConsume q n none).h = q.h := by
      unfold seqConsume
      rw [if_neg hn]
      exact if_neg hu
    rw [e]
    by_contra hw
    have : seqCheck q n = .replay := by
      unfold seqCheck
      rw [if_neg hn]
      exact (if_neg hu).trans (if_neg hw)
    rw [this] at p
    cases p

theorem chanOn_of_reqDom {e : Env} {h : Hub} {ch : BitVec 2} (d : (reqDom e h (.channel ch)).isSome = true) : chanOn h ch.toNat = true := by
  unfold reqDom at d
  dsimp only at d
  by_contra hx
  rw [Bool.not_eq_true] at hx
  rw [hx] at d
  simp at d

theorem chanOn_congr {h k : Hub} {c : Nat} (a : k.cmd.chans = h.cmd.chans) (b : k.prot.locked = h.prot.locked) : chanOn k c = chanOn h c := by
  unfold chanOn chan
  rw [a, b]

theorem chanPut_other (c i : Nat) (r : Reply) (h : Hub) (ne : c ≠ i) : (chanPut c r h).cmd.chans[i]? = h.cmd.chans[i]? := by
  unfold chanPut
  simp only
  split
  · rfl
  · split
    · simp [onChan, getElem?_setAt, ne]
    · split
      · simp
      · simp [onChan, getElem?_setAt, ne]

@[simp] theorem mgtReply_chans (e : Env) (k : Nat) (b : Bool) (bs : List Byte) (h : Hub) : (mgtReply e k b bs h).cmd.chans = h.cmd.chans := by
  unfold mgtReply
  split
  · rfl
  · simp

/-- A reply by another way than a channel leaves that channel alone. -/
theorem sendReply_other (e : Env) (q : Requester) (r : Reply) (h : Hub) (i : Nat) (ne : ∀ ch, q = .channel ch → ch.toNat ≠ i) :
    (sendReply e q r h).cmd.chans[i]? = h.cmd.chans[i]? := by
  cases q with
  | channel c => exact chanPut_other _ _ _ _ (ne c rfl)
  | key => simp [sendReply]
  | relay => simp [sendReply]
  | broadcast => simp [sendReply]

@[simp] theorem onSeq_chans (q : Requester) (f : SeqState → SeqState) (h : Hub) : (onSeq q f h).cmd.chans = h.cmd.chans := by
  unfold onSeq
  split <;> rfl

@[simp] theorem cmdRecord_if (b : Bool) (code : Nat) (q : Requester) (dom : Nat) (n : Word) (st : Nat) (h : Hub) :
    (if b then cmdRecord code q dom n st h else h).cmd = h.cmd ∧ (if b then cmdRecord code q dom n st h else h).prot = h.prot := by
  cases b <;> simp

/-- A reply in the free buffer of the channel its command came by (R468). -/
theorem chanPut_here {c : Nat} {r : Reply} {h : Hub} {x : Channel} (on : chanOn h c = true) (g : h.cmd.chans[c]? = some x)
    (b : x.rbuf = none) : ∃ y, (chanPut c r h).cmd.chans[c]? = some y ∧ y.rbuf = some r := by
  have cx : chan h c = x := by simp [chan, getAt_eq, g]
  refine ⟨chanFill r x, ?_, rfl⟩
  unfold chanPut
  dsimp only
  rw [on, cx, b]
  simp [onChan, getElem?_setAt, g, cx]

/-- A command that passed its checks and is answered at once has had its reply, where what it did left the channels and the sequence states
as they were. -/
theorem answered_seq {d : OpDef} {c : Cmd} {s : State} {st det : Nat} {res : List Word} {k : Hub} (p : passes d c s = true)
    (hs : seqOf k c.req = seqOf (consumed c s) c.req) (hc : k.cmd.chans = s.hub.cmd.chans) (hp : k.prot.locked = s.hub.prot.locked) :
    Answered d.code st det res c s (s.settle (answer s.env d.code d.changes (ctxOf c s) st det res k)) := by
  have dom : (reqDom s.env s.hub c.req).isSome = true := by
    unfold passes at p
    simp only [Bool.and_eq_true] at p
    exact p.1.1.1.1.1.1.1.1.1.1.1.1.1
  have sp : seqPass c s = true := by
    unfold passes at p
    simp only [Bool.and_eq_true] at p
    exact p.1.1.1.1.1.1.1.1.2
  have cs : (ctxOf c s).cseq = c.cseq := rfl
  have cr : (ctxOf c s).req = c.req := rfl
  refine ⟨⟨mkReply d.code c.cseq st (domCode (ctxOf c s).dom) det res k, rfl, rfl, rfl, rfl, rfl, rfl, ?_, ?_, ?_⟩, ?_⟩
  · show BitVec.ofNat 64 (_ / 2 ^ 32) = BitVec.ofNat 64 (_ / 2 ^ 32)
    simp
  · intro hn hb
    have hk : ∃ n, reqKey c.req = some n := by
      cases hr : c.req <;> simp_all [reqKey]
    obtain ⟨n, hk⟩ := hk
    have e : (s.settle (answer s.env d.code d.changes (ctxOf c s) st det res k)).hub.cmd.seqs =
        Tab.put k.cmd.seqs n (seqConsume (seqConsume (seqOf s.hub c.req) c.cseq none) c.cseq
          (some (mkReply d.code c.cseq st (domCode (ctxOf c s).dom) det res k))) := by
      simp only [State.settle_hub, Hub.clean_cmd, answer, sendReply_seqs, cs, cr]
      rw [if_neg hn]
      unfold onSeq
      rw [hk]
      dsimp only
      rw [(cmdRecord_if _ _ _ _ _ _ _).1]
      have g : Tab.getD k.cmd.seqs n {} = seqConsume (seqOf s.hub c.req) c.cseq none := by
        unfold seqOf at hs
        rw [hk] at hs
        dsimp only at hs
        rw [hs]
        unfold consumed onSeq seqOf
        rw [hk]
        simp
      rw [g]
    unfold seqOf
    rw [hk]
    dsimp only
    rw [e, Tab.getD_put_self]
    exact seqConsume_stored hn (seqConsume_near hn sp)
  · intro ch x hr hx hb
    rw [hr] at dom
    have on := chanOn_of_reqDom dom
    have cr' : (ctxOf c s).req = .channel ch := hr
    simp only [State.settle_hub, Hub.clean_cmd, answer, cr', cs, sendReply]
    refine chanPut_here (x := x) ?_ ?_ hb
    · refine (chanOn_congr ?_ ?_).trans on
      · split
        · rw [(cmdRecord_if _ _ _ _ _ _ _).1, hc]
        · rw [onSeq_chans, (cmdRecord_if _ _ _ _ _ _ _).1, hc]
      · split
        · rw [(cmdRecord_if _ _ _ _ _ _ _).2, hp]
        · rw [(onSeq_keeps _ _ _).2.2.2.2.2.2.2.2.2.2.2.2.2.2.2.2.2.2.1, (cmdRecord_if _ _ _ _ _ _ _).2, hp]
    · split
      · rw [(cmdRecord_if _ _ _ _ _ _ _).1, hc, hx]
      · rw [onSeq_chans, (cmdRecord_if _ _ _ _ _ _ _).1, hc, hx]
  · intro i ne
    simp only [State.settle_hub, Hub.clean_cmd, answer]
    rw [sendReply_other _ _ _ _ _ (by rw [cr]; exact ne)]
    split
    · rw [(cmdRecord_if _ _ _ _ _ _ _).1, hc]
    · rw [onSeq_chans, (cmdRecord_if _ _ _ _ _ _ _).1, hc]

theorem answered {d : OpDef} {c : Cmd} {s : State} {st det : Nat} {res : List Word} {k : Hub} (p : passes d c s = true)
    (hs : k.cmd.seqs = (consumed c s).cmd.seqs) (hc : k.cmd.chans = s.hub.cmd.chans) (hp : k.prot.locked = s.hub.prot.locked) :
    Answered d.code st det res c s (s.settle (answer s.env d.code d.changes (ctxOf c s) st det res k)) :=
  answered_seq p (by unfold seqOf; rw [hs]) hc hp

/-- Consuming a CSEQ touches the sequence state only. -/
@[simp] theorem consumed_keeps (c : Cmd) (s : State) :
    (consumed c s).free = s.hub.free ∧ (consumed c s).sys = s.hub.sys ∧ (consumed c s).isl = s.hub.isl ∧ (consumed c s).time = s.hub.time ∧
    (consumed c s).regions = s.hub.regions ∧ (consumed c s).cells = s.hub.cells ∧ (consumed c s).hubc = s.hub.hubc ∧
    (consumed c s).res = s.hub.res ∧ (consumed c s).dig = s.hub.dig ∧ (consumed c s).xs = s.hub.xs ∧ (consumed c s).ens = s.hub.ens ∧
    (consumed c s).casc = s.hub.casc ∧ (consumed c s).age = s.hub.age ∧ (consumed c s).fab = s.hub.fab ∧ (consumed c s).sb = s.hub.sb ∧
    (consumed c s).bc = s.hub.bc ∧ (consumed c s).jobs = s.hub.jobs ∧ (consumed c s).mgt = s.hub.mgt ∧ (consumed c s).prot = s.hub.prot ∧
    (consumed c s).regs = s.hub.regs ∧ (consumed c s).mem = s.hub.mem ∧ (consumed c s).dma = s.hub.dma ∧ (consumed c s).trc = s.hub.trc ∧
    (consumed c s).nid = s.hub.nid ∧ (consumed c s).log = s.hub.log ∧ (consumed c s).boot = s.hub.boot ∧ (consumed c s).img = s.hub.img ∧
    (consumed c s).reports = s.hub.reports ∧ (consumed c s).posted = [] ∧ (consumed c s).nvPosted = [] := by
  unfold consumed
  simp

@[simp] theorem consumed_chans (c : Cmd) (s : State) : (consumed c s).cmd.chans = s.hub.cmd.chans := by
  unfold consumed
  simp

@[simp] theorem ctxOf_words (c : Cmd) (s : State) : (ctxOf c s).words = c.params ∧ (ctxOf c s).req = c.req ∧ (ctxOf c s).cseq = c.cseq := ⟨rfl, rfl, rfl⟩
@[simp] theorem ctxOf_d (c : Cmd) (s : State) (n : Nat) : (ctxOf c s).d n = c.d n := rfl
@[simp] theorem ctxOf_n (c : Cmd) (s : State) (n : Nat) : (ctxOf c s).n n = c.n n := rfl
@[simp] theorem ctxOf_w (c : Cmd) (s : State) (n : Nat) : (ctxOf c s).w n = c.w n := rfl
@[simp] theorem ctxOf_from (c : Cmd) (s : State) (n : Nat) : (ctxOf c s).from_ n = c.params.drop (n - 1) := rfl

/-- A command that passes its checks and is answered at once. -/
theorem runCmd_done {d : OpDef} {c : Cmd} {s : State} {st det : Nat} {res : List Word} {k : Hub} (p : passes d c s = true)
    (a : d.act s.env (consumed c s) (ctxOf c s) = .done st det res k) (b : st ≠ stBusy) :
    runCmd d s.env c s.hub.clean = answer s.env d.code d.changes (ctxOf c s) st det res k := by
  rw [runCmd_of_passes p, a]
  exact if_neg b

/-- What it leaves beside its reply. -/
theorem op_done {d : OpDef} {c : Cmd} {s : State} {st det : Nat} {res : List Word} {k : Hub} (p : passes d c s = true)
    (a : d.act s.env (consumed c s) (ctxOf c s) = .done st det res k) (b : st ≠ stBusy) (hs : k.cmd.seqs = (consumed c s).cmd.seqs)
    (hc : k.cmd.chans = s.hub.cmd.chans) (hp : k.prot.locked = s.hub.prot.locked) :
    ∃ t, s.runOp d c = .next t ∧ Answered d.code st det res c s t ∧
      t = s.settle (answer s.env d.code d.changes (ctxOf c s) st det res k) :=
  ⟨_, congrArg Host.Outcome.next (congrArg s.settle (runCmd_done p a b)), answered p hs hc hp, rfl⟩

theorem op_done_seq {d : OpDef} {c : Cmd} {s : State} {st det : Nat} {res : List Word} {k : Hub} (p : passes d c s = true)
    (a : d.act s.env (consumed c s) (ctxOf c s) = .done st det res k) (b : st ≠ stBusy) (hs : seqOf k c.req = seqOf (consumed c s) c.req)
    (hc : k.cmd.chans = s.hub.cmd.chans) (hp : k.prot.locked = s.hub.prot.locked) :
    ∃ t, s.runOp d c = .next t ∧ Answered d.code st det res c s t ∧
      t = s.settle (answer s.env d.code d.changes (ctxOf c s) st det res k) :=
  ⟨_, congrArg Host.Outcome.next (congrArg s.settle (runCmd_done p a b)), answered_seq p hs hc hp, rfl⟩

/-- A command that passes its checks and replies later is in progress. -/
theorem op_later {d : OpDef} {c : Cmd} {s : State} {due : Option Nat} {f : Nat → Hub → Hub} (p : passes d c s = true)
    (a : d.act s.env (consumed c s) (ctxOf c s) = .later due f) :
    ∃ t, s.runOp d c = .next t ∧
      t = s.settle (f s.hub.cmd.nextId { consumed c s with cmd := { (consumed c s).cmd with
        pends := s.hub.cmd.pends ++ [{ id := s.hub.cmd.nextId, opcode := BitVec.ofNat 8 d.code, req := c.req, cseq := c.cseq
                                       domain := BitVec.ofNat 2 (domCode (ctxOf c s).dom), job := (ctxOf c s).job, due := due }]
        nextId := s.hub.cmd.nextId + 1 } }) := by
  have n : (consumed c s).cmd.nextId = s.hub.cmd.nextId := by unfold consumed onSeq; split <;> rfl
  have q : (consumed c s).cmd.pends = s.hub.cmd.pends := by unfold consumed onSeq; split <;> rfl
  have r := runCmd_of_passes p
  rw [a] at r
  dsimp only at r
  rw [n, q] at r
  exact ⟨_, congrArg Host.Outcome.next (congrArg s.settle r), rfl⟩

/-- An event whose condition holds takes place (log 8). -/
theorem run_guard {s : State} {b : Env → Hub → Bool} {f : Env → Hub → Hub} (h : b s.env s.hub.clean = true) :
    s.run (fun e h => guard (b e h) (f e) h) = .next (s.settle (f s.env s.hub.clean)) := by
  rw [State.run_next, h]
  rfl

end Sys2Proof.Machine
end

