-- ==== Sys2Proof/Laws/Spec.lean ====
section
/-!
SUPPORT. What the shared operations do, one lemma an operation.
-/
namespace Sys2Proof.Machine

@[simp] theorem toState_sys (st : BlockState) (h : Hub) : (toState st h).sys = { h.sys with st := st } := by
  unfold toState
  dsimp only
  split <;> simp

/-- From one hub to the other, of the port's registers only interrupts and their fresh marks may have changed. -/
structure IrqOnly (h k : Hub) : Prop where
  eq : ∃ q f, k.regs = { h.regs with irqstat := q, irqFresh := f }
theorem IrqOnly.of_eq {h k : Hub} (a : k.regs = h.regs) : IrqOnly h k := ⟨⟨_, _, a⟩⟩
theorem IrqOnly.irq {h k : Hub} (b : Nat) (a : IrqOnly h k) : IrqOnly h (irq b k) := by
  obtain ⟨q, f, e⟩ := a.eq
  refine ⟨⟨k.regs.irqstat ||| BitVec.ofNat 10 (2 ^ b), k.regs.irqFresh ||| BitVec.ofNat 10 (2 ^ b), ?_⟩⟩
  unfold Machine.irq
  simp only [e]
theorem IrqOnly.ite {h x y : Hub} {c : Prop} [Decidable c] (a : IrqOnly h x) (b : IrqOnly h y) : IrqOnly h (if c then x else y) := by
  split
  · exact a
  · exact b
theorem IrqOnly.named {h x : Hub} {f : Hub → Hub} (a : IrqOnly h x) (g : ∀ y, IrqOnly h y → IrqOnly h (f y)) : IrqOnly h (f x) := g x a
theorem IrqOnly.log {h k : Hub} (l : Recorder) (a : IrqOnly h k) : IrqOnly h { k with log := l } := ⟨a.eq⟩
/-- A record raises interrupts and writes no register. -/
theorem emitAt_irq (ty sev cmpl : Nat) (x : Word) (unit code : Nat) (p : List Word) (tb : Nat) (h : Hub) : IrqOnly h (emitAt ty sev cmpl x unit code p tb h) := by
  unfold emitAt
  refine .ite (.log _ (.of_eq rfl)) (.ite (.of_eq rfl) (.named (.ite (.irq 5 (.of_eq rfl)) (.of_eq rfl)) fun h1 q1 => .named (.ite (.irq 6 q1) q1) fun h2 q2 =>
    .ite (.log _ q2) (.named (.ite q2 (.irq 6 (.log _ (.log _ q2)))) fun h3 q3 => .log _ q3)))

/-- A direct write of a register that no command has written in this cycle takes effect. -/
@[simp] theorem portField_free {u o : Nat} {v : DWord} {f : Hub → Hub} {h : Hub} (a : h.regs.cmdWrote.contains (u, o) = false) :
    portField u o v f h = f { h with regs := { h.regs with portWrote := h.regs.portWrote ++ [(u, o, v)] } } := by
  unfold portField
  rw [a]
  rfl

@[simp] theorem noted_keeps (u o : Nat) (v : DWord) (h : Hub) :
    (noted u o v h).free = h.free ∧ (noted u o v h).sys = h.sys ∧ (noted u o v h).isl = h.isl ∧ (noted u o v h).time = h.time ∧ (noted u o v h).regions =
    h.regions ∧ (noted u o v h).cells = h.cells ∧ (noted u o v h).hubc = h.hubc ∧ (noted u o v h).res = h.res ∧ (noted u o v h).dig = h.dig ∧ (noted u o v
    h).xs = h.xs ∧ (noted u o v h).ens = h.ens ∧ (noted u o v h).casc = h.casc ∧ (noted u o v h).age = h.age ∧ (noted u o v h).fab = h.fab ∧ (noted u o v
    h).sb = h.sb ∧ (noted u o v h).bc = h.bc ∧ (noted u o v h).jobs = h.jobs ∧ (noted u o v h).mgt = h.mgt ∧ (noted u o v h).cmd = h.cmd ∧ (noted u o v
    h).prot = h.prot ∧ (noted u o v h).mem = h.mem ∧ (noted u o v h).dma = h.dma ∧ (noted u o v h).trc = h.trc ∧ (noted u o v h).nid = h.nid ∧ (noted u o
    v h).log = h.log ∧ (noted u o v h).boot = h.boot ∧ (noted u o v h).img = h.img ∧ (noted u o v h).reports = h.reports := by
  unfold noted
  simp
@[simp] theorem noted_regs (u o : Nat) (v : DWord) (h : Hub) :
    (noted u o v h).regs = { h.regs with half := none, portWrote := h.regs.portWrote ++ [(u, o, v)] } := rfl
@[simp] theorem imgOf_noted (u o : Nat) (v : DWord) (h : Hub) : imgOf (noted u o v h) = imgOf h := rfl
@[simp] theorem nowNs_noted (u o : Nat) (v : DWord) (h : Hub) : nowNs (noted u o v h) = nowNs h := rfl
/-- A direct write of a register is noted and acts. -/
theorem directReg_run {s : State} {u o : Nat} {v : DWord} {f : Env → Hub → Hub} (p : portOn s.hub = true) (a : s.hub.regs.cmdWrote.contains (u, o) = false) :
    s.run (directReg u o v f) = .next (s.settle (f s.env (noted u o v s.hub))) := by
  have q : portOn s.hub.clean = true := p
  rw [State.run_next]
  unfold directReg direct
  rw [if_neg (by rw [q]; decide)]
  dsimp only
  rw [portField_free (by exact a)]
  rfl
/-- A direct write of a DMA channel that software owns. -/
theorem dmaWrite_run {s : State} {c : BitVec 6} {o : Nat} {v : DWord} {f : Env → Hub → Hub} (p : portOn s.hub = true) (b : (imgOf s.hub).blockCh ≤ c.toNat)
    (a : s.hub.regs.cmdWrote.contains (6, 0x1000 + 0x40 * c.toNat + o) = false) :
    s.run (dmaWrite c o v f) = .next (s.settle (f s.env (noted 6 (0x1000 + 0x40 * c.toNat + o) v s.hub))) := by
  have q : portOn s.hub.clean = true := p
  have b' : ¬c.toNat < (imgOf s.hub.clean).blockCh := by have : imgOf s.hub.clean = imgOf s.hub := rfl; rw [this]; omega
  rw [State.run_next]
  unfold dmaWrite
  rw [if_neg (by rw [q]; decide), if_neg (by exact b'), portField_free (by exact a)]
  rfl
/-- A direct write of a register of the management port, in tray role. -/
theorem mgtWrite_run {s : State} {o : Nat} {v : DWord} {f : Env → Hub → Hub} (p : portOn s.hub = true) (b : s.env.tray = true)
    (a : s.hub.regs.cmdWrote.contains (3, o) = false) : s.run (mgtWrite o v f) = .next (s.settle (f s.env (noted 3 o v s.hub))) := by
  have q : portOn s.hub.clean = true := p
  rw [State.run_next]
  unfold mgtWrite
  rw [if_neg (by rw [q]; decide), if_pos b, portField_free (by exact a)]
  rfl
/-- A write by a command that no direct write of this cycle meets. -/
theorem commandField_free {u o : Nat} {f : Hub → Hub} {h : Hub} (a : ∀ w ∈ h.regs.portWrote, ¬(w.1 = u ∧ w.2.1 = o)) :
    commandField u o f h = f { h with regs := { h.regs with cmdWrote := (u, o) :: h.regs.cmdWrote } } := by
  unfold commandField
  have e : h.regs.portWrote.filter (fun w => decide (w.1 = u) && decide (w.2.1 = o)) = [] :=
    List.filter_eq_nil_iff.mpr (fun w m => by simpa using fun x y => a w m ⟨x, y⟩)
  have k : h.regs.portWrote.filter (fun w => !(decide (w.1 = u) && decide (w.2.1 = o))) = h.regs.portWrote :=
    List.filter_eq_self.mpr (fun w m => by have := Decidable.not_and_iff_or_not.mp (a w m); simpa using this)
  simp only [e, k, List.foldl_nil]

theorem exitDrowse_st {h : Hub} (a : h.sys.st = .drowse) (o : h.sys.orderly = none) : (exitDrowse h).sys.st = .serving := by
  unfold exitDrowse
  simp only [a, o, bne_self_eq_false, Option.isSome_none, Bool.or_self, Bool.false_eq_true, if_false]
  split <;> simp

@[simp] theorem setQuality_tb (q : Nat) (h : Hub) : (setQuality q h).time.tb = h.time.tb := by
  unfold setQuality
  split <;> simp

theorem configRecords_st (old : BlockState) (h : Hub) :
    (configRecords old h).sys.st = h.sys.st ∧ (configRecords old h).sys.lastReset = h.sys.lastReset := by
  unfold configRecords
  simp only [onSys, onIsl]
  split <;> split <;> split <;> simp

/-- An entry to CONFIG: the state, the last reset and TB (R588). -/
theorem enterConfig_st (e : Env) (old : BlockState) (h : Hub) :
    (enterConfig e old h).sys.st = .config ∧ (enterConfig e old h).sys.lastReset = h.sys.lastReset ∧
      (enterConfig e old h).time.tb = h.time.tb := by
  unfold enterConfig
  simp [configRecords_st, startTimers, onSys]

/-- A CONFIG reset by command (R594). -/
theorem commandConfig_st (e : Env) (h : Hub) :
    (commandConfig e h).sys.st = .config ∧ (commandConfig e h).sys.lastReset = 2 ∧ (commandConfig e h).time.tb = h.time.tb := by
  unfold commandConfig
  simp only [enterConfig_st, configClear, timeKept]
  refine ⟨trivial, trivial, ?_⟩
  simp

@[simp] theorem irqSet_clean (h : Hub) (b : Nat) : irqSet h.clean b = irqSet h b := rfl

/-- A hub interrupt's bit is set (R620). -/
theorem irq_bit (b : Nat) (h : Hub) (lt : b < 10) : irqSet (irq b h) b = true := by
  simp only [irqSet, irq, BitVec.getLsbD_or, BitVec.getLsbD_ofNat, lt, Nat.testBit_two_pow_self, decide_true, Bool.and_self, Bool.or_true]

theorem setQuality_time {q : Nat} {h : Hub} (ne : h.time.quality.toNat ≠ q % 4) :
    (setQuality q h).time = { h.time with quality := BitVec.ofNat 2 q, qchanges := h.time.qchanges + 1 } ∧
      irqSet (setQuality q h) 1 = true := by
  unfold setQuality
  rw [if_neg ne]
  exact ⟨by simp, irq_bit _ _ (by decide)⟩

theorem setQuality_quality (q : Nat) (h : Hub) : (setQuality q h).time.quality = BitVec.ofNat 2 q := by
  unfold setQuality
  split
  · next e =>
    apply BitVec.eq_of_toNat_eq
    rw [e]
    simp
  · simp

@[simp] theorem setQuality_other (q : Nat) (h : Hub) :
    (setQuality q h).time.lockRun = h.time.lockRun ∧ (setQuality q h).time.source = h.time.source ∧ (setQuality q h).time.rate = h.time.rate := by
  unfold setQuality
  split <;> simp

/-- A step of TB leaves TB_NS at the sum, where that is a 64-bit number (R52, R53). -/
theorem stepTb_now {off : Int} {h : Hub} {n : Nat} (e : (nowNs h : Int) + off = n) (lt : n < 2 ^ 64) :
    nowNs (stepTb off h) = n ∧ (stepTb off h).time.toSlew = 0 ∧ (stepTb off h).time.steps = h.time.steps + 1 := by
  unfold stepTb
  dsimp only
  rw [e]
  refine ⟨?_, by simp, by simp⟩
  unfold nowNs
  simp only [emitState_keeps, Int.toNat_natCast, BitVec.toNat_ofNat, tbUnit]
  have : h.time.tb.toNat % 2 ^ 32 < 2 ^ 32 := Nat.mod_lt _ (by decide)
  rw [Nat.mod_eq_of_lt (by omega)]
  omega

theorem foldSet_inv {α : Type} {β : Type} (ap : Nat → List Word → α → Option α) (g : α → β)
    (k : ∀ n v a b, ap n v a = some b → g b = g a) (f p : Nat) (ws : List Word) (l : List Nat) (a b : α)
    (h : foldSet ap f p ws l a = .inr b) : g b = g a := by
  induction f generalizing p ws l a with
  | zero =>
    unfold foldSet at h
    split at h
    · cases h; rfl
    · cases h
  | succ f ih =>
    unfold foldSet at h
    split at h
    · cases h; rfl
    · dsimp only at h
      split at h
      · cases h
      · split at h
        · cases h
        · next q => exact (ih _ _ _ _ h).trans (k _ _ _ _ q)

theorem enterConfig_boot (e : Env) (old : BlockState) (h : Hub) :
    (enterConfig e old h).boot = { protUntil := some (nowNs h + 10000000000) } ∧ (enterConfig e old h).img = none ∧
      (enterConfig e old h).sys.sense = h.sys.sense ∧ (enterConfig e old h).sys.pllLocked = h.sys.pllLocked ∧
      (enterConfig e old h).sys.playaCause = 0 ∧ (enterConfig e old h).isl.removed = h.isl.removed := by
  have c : ∀ h : Hub, (configRecords old h).sys.sense = h.sys.sense ∧ (configRecords old h).sys.pllLocked = h.sys.pllLocked ∧
      (configRecords old h).sys.playaCause = h.sys.playaCause ∧ (configRecords old h).isl.removed = h.isl.removed := by
    intro h
    unfold configRecords
    simp only [onSys, onIsl]
    split <;> split <;> split <;> simp
  unfold enterConfig
  simp [c, startTimers, onSys, nowNs]

/-- An entry to PLAYA: the state with its cause (R589, R590). -/
theorem enterPlaya_st (e : Env) (cause : Nat) (img : Option Image) (h : Hub) :
    (enterPlaya e cause img h).sys = { h.sys with st := .playa, playaCause := BitVec.ofNat 3 cause } ∧
      (enterPlaya e cause img h).img = img ∧ (enterPlaya e cause img h).boot.protUntil = h.boot.protUntil ∧
      (enterPlaya e cause img h).boot.selected = none ∧ (enterPlaya e cause img h).boot.applied = false := by
  unfold enterPlaya
  simp [onSys]

theorem irqSet_of_regs {h k : Hub} (e : k.regs = h.regs) (b : Nat) : irqSet k b = irqSet h b := by unfold irqSet; rw [e]

/-- An interrupt bit stays set when another is set (R620). -/
theorem irqSet_irq {h : Hub} {b : Nat} (i : Nat) (k : irqSet h b = true) : irqSet (irq i h) b = true := by
  simp only [irqSet, irq, BitVec.getLsbD_or] at k ⊢
  rw [k, Bool.true_or]

theorem irqSet_emitAt {h : Hub} {b : Nat} (ty sev cmpl : Nat) (x : Word) (unit code : Nat) (pl : List Word) (tb : Nat) (k : irqSet h b = true) :
    irqSet (emitAt ty sev cmpl x unit code pl tb h) b = true := by
  have p : ∀ (ty sev cmpl : Nat) (x : Word) (unit code : Nat) (pl : List Word) (tb : Nat) (h : Hub),
      irqSet (pushRec ty sev cmpl x unit code pl tb h) b = irqSet h b := fun _ _ _ _ _ _ _ _ _ => rfl
  unfold emitAt
  split
  · exact k
  · split
    · exact k
    · dsimp only
      have k1 : irqSet (if sev = 3 then irq 5 h else h) b = true := by
        split
        · exact irqSet_irq _ k
        · exact k
      generalize (if sev = 3 then irq 5 h else h) = h1 at k1
      have k2 : irqSet (if ty = 10 then irq 6 h1 else h1) b = true := by
        split
        · exact irqSet_irq _ k1
        · exact k1
      generalize (if ty = 10 then irq 6 h1 else h1) = h2 at k2
      split <;> split <;> first
        | (rw [p]; exact k2)
        | (rw [p]; exact irqSet_irq _ k2)
        | exact k2

theorem irqSet_emit {h : Hub} {b : Nat} (ty sev cmpl : Nat) (x : Word) (unit code : Nat) (pl : List Word) (k : irqSet h b = true) :
    irqSet (emit ty sev cmpl x unit code pl h) b = true := irqSet_emitAt _ _ _ _ _ _ _ _ k

theorem toState_irq (st : BlockState) (h : Hub) : irqSet (toState st h) 0 = true := by
  unfold toState
  dsimp only
  split
  · exact irq_bit _ _ (by decide)
  · exact irqSet_emit _ _ _ _ _ _ _ (irq_bit _ _ (by decide))

/-- Entry to FLUSH (R560, R561). -/
theorem enterFlush_st (e : Env) (h : Hub) :
    (enterFlush e h).sys.st = .flush ∧ (enterFlush e h).sys.left = h.sys.st ∧ (enterFlush e h).sys.pfwLow = h.sys.pfwLow := by
  unfold enterFlush
  simp [onSys, onLog]

/-- The flush is written (R561). -/
theorem writeFlush_log (e : Env) (h : Hub) :
    (writeFlush e h).log.lastPhase = 6 ∧ ∀ g, (writeFlush e h).log.flush = some g → g.ended = true ∧ g.phase = 6 := by
  unfold writeFlush
  simp only [onLog]
  refine ⟨trivial, fun g hg => ?_⟩
  obtain ⟨f, -, rfl⟩ := Option.map_eq_some_iff.mp hg
  exact ⟨rfl, rfl⟩

theorem leaveFlush_st (e : Env) (h : Hub) : (leaveFlush e h).sys = { h.sys with st := h.sys.left } := by
  unfold leaveFlush
  simp [onSys, onLog]

theorem enterDormant_st (e : Env) (h : Hub) :
    (enterDormant e h).sys = { h.sys with st := .dormant } ∧
      (enterDormant e h).isl = { h.isl with dormantTb := nowNs h, mainOffOk := true, asking := false, released := false } := by
  have n : ∀ h k : Hub, h.time = k.time → nowNs h = nowNs k := fun h k e => by unfold nowNs; rw [e]
  unfold enterDormant
  simp [onSys, onLog, onIsl]
  exact n _ _ (by simp)

/-- An image whose sections and settings are good is in force (R586). -/
theorem applyImage_good {e : Env} {b : List Byte} {h h1 : Hub} {i1 : Image} {x : Config.Extra}
    (r : applyAll e b (orderedSects b) h { generation := w32 (imgGen b), hier6 := bitOf (imgW b 4) 16, autolock := bitOf (imgW b 4) 17 } = (h1, i1, none))
    (a : settingsAgree e h1 = none) (x' : Config.extraOf b = some x) (g : extraBad x = none) :
    (applyImage e b h).boot.applied = true ∧ (applyImage e b h).img = some (takeExtra e x h1 i1).2 := by
  unfold applyImage
  simp only [r, a, x', g]
  generalize takeExtra e x h1 i1 = p
  simp [onCasc, onEns]

/-- A section that fails takes the block to PLAYA with cause 4 (R586, R589). -/
theorem applyImage_bad {e : Env} {b : List Byte} {h h1 : Hub} {i1 : Image} {f : Nat × Nat × Nat}
    (r : applyAll e b (orderedSects b) h { generation := w32 (imgGen b), hier6 := bitOf (imgW b 4) 16, autolock := bitOf (imgW b 4) 17 } = (h1, i1, some f)) :
    (applyImage e b h).sys.st = .playa ∧ (applyImage e b h).sys.playaCause = 4 := by
  unfold applyImage
  simp only [r]
  unfold configFails
  simp [enterPlaya_st]

theorem startServing_st (e : Env) (h : Hub) :
    (startServing e h).sys = { h.sys with st := .serving } ∧ (startServing e h).time = { h.time with span := true, stepped := false, gap := none, due := true } ∧
      (startServing e h).boot = { h.boot with protUntil := none } ∧ (startServing e h).casc.window = nowNs h / (imgOf h).windowNs := by
  unfold startServing
  simp only [restartWindows_keeps, toState_keeps]
  cases h.time.gap <;> simp [imgOf, nowNs]

/-! What a CSEQ's consumption leaves to read. -/

@[simp] theorem readByte_consumed (e : Env) (c : Cmd) (s : State) (a : Nat) : readByte e (consumed c s) a = readByte e s.hub a := by
  simp [readByte, physAddr]
@[simp] theorem readMem_consumed (e : Env) (c : Cmd) (s : State) (a n : Nat) : readMem e (consumed c s) a n = readMem e s.hub a n := by
  simp [readMem]
@[simp] theorem writable_consumed (c : Cmd) (s : State) (a n : Nat) : writable (consumed c s) a n = writable s.hub a n := by
  simp [writable, physAddr]
@[simp] theorem bootRead_consumed (e : Env) (c : Cmd) (s : State) (a n : Nat) : bootRead e (consumed c s) a n = bootRead e s.hub a n := by
  simp [bootRead]

@[simp] theorem onSeq_rest (q : Requester) (f : SeqState → SeqState) (h : Hub) :
    (onSeq q f h).cmd.keys = h.cmd.keys ∧ (onSeq q f h).cmd.pends = h.cmd.pends ∧ (onSeq q f h).cmd.nextId = h.cmd.nextId ∧
      (onSeq q f h).cmd.relays = h.cmd.relays ∧ (onSeq q f h).cmd.rid = h.cmd.rid ∧ (onSeq q f h).cmd.held = h.cmd.held := by
  unfold onSeq
  split <;> exact ⟨rfl, rfl, rfl, rfl, rfl, rfl⟩

@[simp] theorem chanPut_rest (c : Nat) (r : Reply) (h : Hub) :
    (chanPut c r h).cmd.keys = h.cmd.keys ∧ (chanPut c r h).cmd.pends = h.cmd.pends ∧ (chanPut c r h).cmd.relays = h.cmd.relays ∧
      (chanPut c r h).cmd.chans.length = h.cmd.chans.length := by
  unfold chanPut
  simp only
  split
  · exact ⟨rfl, rfl, rfl, rfl⟩
  · split
    · simp [onChan]
    · split
      · simp
      · simp [onChan]

@[simp] theorem mgtReply_rest (e : Env) (k : Nat) (b : Bool) (bs : List Byte) (h : Hub) :
    (mgtReply e k b bs h).cmd.pends = h.cmd.pends ∧ (mgtReply e k b bs h).cmd.relays = h.cmd.relays := by
  unfold mgtReply
  split
  · exact ⟨rfl, rfl⟩
  · simp

@[simp] theorem sendReply_rest (e : Env) (q : Requester) (r : Reply) (h : Hub) :
    (sendReply e q r h).cmd.pends = h.cmd.pends ∧ (sendReply e q r h).cmd.relays = h.cmd.relays ∧
      (sendReply e q r h).cmd.chans.length = h.cmd.chans.length := by
  cases q <;> simp [sendReply]

/-- A reply by a channel leaves the keys alone. -/
theorem answer_keys {e : Env} {code : Nat} {changes : Bool} {x : Ctx} {st det : Nat} {res : List Word} {h : Hub} {ch : BitVec 2}
    (q : x.req = .channel ch) : (answer e code changes x st det res h).cmd.keys = h.cmd.keys := by
  unfold answer
  rw [q]
  simp only [sendReply, chanPut_rest]
  split <;> simp

@[simp] theorem answer_rest (e : Env) (code : Nat) (changes : Bool) (x : Ctx) (st det : Nat) (res : List Word) (h : Hub) :
    (answer e code changes x st det res h).cmd.pends = h.cmd.pends ∧ (answer e code changes x st det res h).cmd.relays = h.cmd.relays ∧
      (answer e code changes x st det res h).cmd.chans.length = h.cmd.chans.length := by
  unfold answer
  simp only [sendReply_rest]
  split <;> simp

@[simp] theorem finish_chans (e : Env) (id st det : Nat) (res : List Word) (seen : Bool) (h : Hub) :
    (finish e id st det res seen h).cmd.chans.length = h.cmd.chans.length := by
  unfold finish
  split
  · rfl
  · dsimp only
    split
    · simp [replyOnly]
    · split <;> simp

theorem setAt_setAt {α : Type} (l : List α) (i : Nat) (a b : α) : setAt (setAt l i a) i b = setAt l i b := by
  induction l generalizing i with
  | nil => rfl
  | cons x t ih => cases i with
    | zero => rfl
    | succ i => simp [setAt, ih]

theorem setAt_self {α : Type} {l : List α} {i : Nat} {a : α} (h : l[i]? = some a) : setAt l i a = l := by
  induction l generalizing i with
  | nil => rfl
  | cons x t ih => cases i with
    | zero => simp at h; simp [setAt, h]
    | succ i => simp at h; simp [setAt, ih h]

theorem reqDom_chan {e : Env} {h : Hub} {ch : BitVec 2} (p : portOn h = true) (o : chanOn h ch.toNat = true) :
    ∃ dj, reqDom e h (.channel ch) = some dj := by
  unfold reqDom
  simp only [p, o, Bool.not_true, Bool.or_self, Bool.false_eq_true, if_false]
  split <;> exact ⟨_, rfl⟩

/-- A doorbell of a free buffer runs the packet in it (R467). -/
theorem doorbell_runs {e : Env} {h : Hub} {ch : BitVec 2} {len : Nat} {x : Channel} {code : Nat} {order : Bool} {cseq : Word} {target : Node}
    {ws : List Word} {d : OpDef} (p : portOn h = true) (o : chanOn h ch.toNat = true) (g : h.cmd.chans[ch.toNat]? = some x) (n : x.submitted = none)
    (b : parsePacket (cbufBytes x len) = .good code order cseq target ws) (w : opIn opcodes code ws = some d) :
    takeSubmitted e ch.toNat (ringDoorbell ch.toNat len h) =
      runCmd d e { req := .channel ch, order := order, cseq := cseq, target := target, params := ws } h := by
  have cx : chan h ch.toNat = x := by simp [chan, getAt_eq, g]
  have r : ringDoorbell ch.toNat len h = onChan ch.toNat (fun _ => { x with submitted := some (cbufBytes x len) }) h := by
    unfold ringDoorbell
    simp [o, cx, n, onChan]
  have cr : chan (onChan ch.toNat (fun _ => { x with submitted := some (cbufBytes x len) }) h) ch.toNat =
      { x with submitted := some (cbufBytes x len) } := by
    simp [chan, onChan, getAt_eq, getElem?_setAt, g]
  have back : onChan ch.toNat (fun c => { c with submitted := none })
      (onChan ch.toNat (fun _ => { x with submitted := some (cbufBytes x len) }) h) = h := by
    have : setAt (setAt h.cmd.chans ch.toNat { x with submitted := some (cbufBytes x len) }) ch.toNat { x with submitted := none } = h.cmd.chans := by
      rw [setAt_setAt]
      refine setAt_self (g.trans ?_)
      rw [← n]
    unfold onChan at cr ⊢
    rw [cr]
    dsimp only
    rw [this]
  rw [r]
  unfold takeSubmitted
  rw [cr]
  dsimp only
  rw [back]
  have c2 : BitVec.ofNat 2 ch.toNat = ch := by simp
  rw [c2]
  obtain ⟨dj, z⟩ := reqDom_chan (e := e) p o
  unfold packetIn
  rw [z]
  dsimp only
  rw [b]
  dsimp only
  rw [w]

end Sys2Proof.Machine
end

