-- ==== Sys2Proof/Laws/Readers.lean ====
section
/-!
SUPPORT. What reads the hub reads the same once step 8 has consumed a command's CSEQ, and what a read of a cell, a region or a core's data
gives after a change of one.
-/
namespace Sys2Proof.Machine

theorem consumed_eq (c : Cmd) (s : State) : consumed c s = { s.hub.clean with cmd := (consumed c s).cmd } := by
  unfold consumed onSeq
  split <;> rfl
@[simp] theorem region_consumed (q : Cmd) (s : State) (r : Nat) : region (consumed q s) r = region s.hub r := by rw [consumed_eq]; rfl
@[simp] theorem cell_consumed (q : Cmd) (s : State) (c : Nat) : cell (consumed q s) c = cell s.hub c := by rw [consumed_eq]; rfl
@[simp] theorem hubc_consumed (q : Cmd) (s : State) (c : Nat) : Sys2Proof.Machine.hubc (consumed q s) c = Sys2Proof.Machine.hubc s.hub c := by rw [consumed_eq]; rfl
@[simp] theorem entity_consumed (q : Cmd) (s : State) (x : Word) : entity (consumed q s) x = entity s.hub x := by rw [consumed_eq]; rfl
@[simp] theorem imgOf_consumed (q : Cmd) (s : State) : imgOf (consumed q s) = imgOf s.hub := by rw [consumed_eq]; rfl
@[simp] theorem nowNs_consumed (q : Cmd) (s : State) : nowNs (consumed q s) = nowNs s.hub := by rw [consumed_eq]; rfl
@[simp] theorem serving_consumed (q : Cmd) (s : State) : serving (consumed q s) = serving s.hub := by rw [consumed_eq]; rfl
@[simp] theorem working_consumed (q : Cmd) (s : State) : working (consumed q s) = working s.hub := by rw [consumed_eq]; rfl
@[simp] theorem alive_consumed (q : Cmd) (s : State) : alive (consumed q s) = alive s.hub := by rw [consumed_eq]; rfl
@[simp] theorem upState_consumed (q : Cmd) (s : State) : upState (consumed q s) = upState s.hub := by rw [consumed_eq]; rfl
@[simp] theorem dieNo_consumed (e : Env) (q : Cmd) (s : State) : dieNo e (consumed q s) = dieNo e s.hub := by rw [consumed_eq]; rfl
@[simp] theorem nodeNo_consumed (e : Env) (q : Cmd) (s : State) : nodeNo e (consumed q s) = nodeNo e s.hub := by rw [consumed_eq]; rfl
@[simp] theorem coreId_consumed (e : Env) (q : Cmd) (s : State) (c : Nat) : coreId e (consumed q s) c = coreId e s.hub c := by rw [consumed_eq]; rfl
@[simp] theorem ownId_consumed (e : Env) (q : Cmd) (s : State) (k : Nat) (l : Nat) : ownId e (consumed q s) k l = ownId e s.hub k l := by rw [consumed_eq]; rfl
@[simp] theorem unitId_consumed (e : Env) (q : Cmd) (s : State) (u : Nat) : unitId e (consumed q s) u = unitId e s.hub u := by rw [consumed_eq]; rfl
@[simp] theorem entOk_consumed (q : Cmd) (s : State) (x : Word) : entOk (consumed q s) x = entOk s.hub x := by rw [consumed_eq]; rfl
@[simp] theorem coreWord_consumed (q : Cmd) (s : State) (x : Word) : coreWord (consumed q s) x = coreWord s.hub x := by rw [consumed_eq]; rfl
@[simp] theorem presentCore_consumed (e : Env) (q : Cmd) (s : State) (x : Word) : presentCore e (consumed q s) x = presentCore e s.hub x := by rw [consumed_eq]; rfl
@[simp] theorem cellStatus_consumed (e : Env) (q : Cmd) (s : State) (c : Nat) : cellStatus e (consumed q s) c = cellStatus e s.hub c := by rw [consumed_eq]; rfl
@[simp] theorem sumCores_consumed (e : Env) (q : Cmd) (s : State) : sumCores e (consumed q s) = sumCores e s.hub := by rw [consumed_eq]; rfl
@[simp] theorem cntCore_consumed (e : Env) (q : Cmd) (s : State) (c : Nat) : cntCore e (consumed q s) c = cntCore e s.hub c := by rw [consumed_eq]; rfl
@[simp] theorem cntDie_consumed (e : Env) (q : Cmd) (s : State) : cntDie e (consumed q s) = cntDie e s.hub := by rw [consumed_eq]; rfl
@[simp] theorem groupOf_consumed (q : Cmd) (s : State) (g : Nat) : groupOf (consumed q s) g = groupOf s.hub g := by rw [consumed_eq]; rfl
@[simp] theorem jobOfDie_consumed (q : Cmd) (s : State) (d : Nat) : jobOfDie (consumed q s) d = jobOfDie s.hub d := by rw [consumed_eq]; rfl
@[simp] theorem jobDies_consumed (q : Cmd) (s : State) (j : BitVec 16) : jobDies (consumed q s) j = jobDies s.hub j := by rw [consumed_eq]; rfl
@[simp] theorem jobAt_consumed (q : Cmd) (s : State) (j : BitVec 16) : jobAt (consumed q s) j = jobAt s.hub j := by rw [consumed_eq]; rfl
@[simp] theorem ownCore_consumed (e : Env) (q : Cmd) (s : State) (x : Word) : ownCore e (consumed q s) x = ownCore e s.hub x := by rw [consumed_eq]; rfl
@[simp] theorem coresOf_consumed (e : Env) (q : Cmd) (s : State) (x : Word) : coresOf e (consumed q s) x = coresOf e s.hub x := by rw [consumed_eq]; rfl
@[simp] theorem invalid_consumed (q : Cmd) (s : State) (c : Nat) : invalid (consumed q s) c = invalid s.hub c := by rw [consumed_eq]; rfl

@[simp] theorem cell_onCell_self (c : Nat) (f : Cell → Cell) (h : Hub) : cell (onCell c f h) c = f (cell h c) := by simp [cell, onCell]
theorem cell_onCell_ne {c d : Nat} (f : Cell → Cell) (h : Hub) (n : d ≠ c) : cell (onCell c f h) d = cell h d := by
  simp [cell, onCell, Tab.getD_put_ne _ _ _ _ _ n]
@[simp] theorem hubc_onHubc_self (c : Nat) (f : HubCell → HubCell) (h : Hub) :
    Sys2Proof.Machine.hubc (onHubc c f h) c = f (Sys2Proof.Machine.hubc h c) := by simp [Sys2Proof.Machine.hubc, onHubc]
theorem region_of {h : Hub} {r : Nat} {x : Region} (e : h.regions[r]? = some x) : region h r = x := by simp [region, getAt_eq, e]

theorem hubc_onHubc_ne {c d : Nat} (f : HubCell → HubCell) (h : Hub) (n : d ≠ c) :
    Sys2Proof.Machine.hubc (onHubc c f h) d = Sys2Proof.Machine.hubc h d := by simp [Sys2Proof.Machine.hubc, onHubc, Tab.getD_put_ne _ _ _ _ _ n]
@[simp] theorem onCell_cells (c : Nat) (f : Cell → Cell) (h : Hub) : (onCell c f h).cells = Tab.put h.cells c (f (cell h c)) := rfl
@[simp] theorem onHubc_hubc (c : Nat) (f : HubCell → HubCell) (h : Hub) : (onHubc c f h).hubc = Tab.put h.hubc c (f (Sys2Proof.Machine.hubc h c)) := rfl
@[simp] theorem onRegion_regions (r : Nat) (f : Region → Region) (h : Hub) : (onRegion r f h).regions = setAt h.regions r (f (region h r)) := rfl
theorem region_onRegion {r : Nat} {x : Region} (f : Region → Region) {h : Hub} (e : h.regions[r]? = some x) : region (onRegion r f h) r = f x := by
  simp [region, onRegion, getAt_eq, getElem?_setAt, e]
theorem region_onRegion_ne {r q : Nat} (f : Region → Region) (h : Hub) (n : q ≠ r) : region (onRegion r f h) q = region h q := by
  simp [region, onRegion, getAt_setAt_ne _ _ _ _ _ n]

end Sys2Proof.Machine
end

