-- ==== Sys2Proof/Laws/Reads.lean ====
section
/-!
SUPPORT. What a read of the hub gives after an operation that leaves its part alone.
-/
namespace Sys2Proof.Machine

/-! A read follows its part. -/

theorem cell_congr {h k : Hub} (q0 : k.cells = h.cells) (c : Nat) : cell k c = cell h c := by
  unfold cell; rw [q0]

theorem hubc_congr {h k : Hub} (q0 : k.hubc = h.hubc) (c : Nat) : Sys2Proof.Machine.hubc k c = Sys2Proof.Machine.hubc h c := by
  unfold Sys2Proof.Machine.hubc; rw [q0]

theorem region_congr {h k : Hub} (q0 : k.regions = h.regions) (c : Nat) : region k c = region h c := by
  unfold region; rw [q0]

theorem entity_congr {h k : Hub} (q0 : k.casc = h.casc) (x : Word) : entity k x = entity h x := by
  unfold entity; rw [q0]

theorem nowNs_congr {h k : Hub} (q0 : k.time = h.time) : nowNs k  = nowNs h  := by
  unfold nowNs; rw [q0]

theorem imgOf_congr {h k : Hub} (q0 : k.img = h.img) : imgOf k  = imgOf h  := by
  unfold imgOf; rw [q0]

theorem serving_congr {h k : Hub} (q0 : k.sys = h.sys) : serving k  = serving h  := by
  unfold serving; rw [q0]

theorem working_congr {h k : Hub} (q0 : k.sys = h.sys) : working k  = working h  := by
  unfold working; rw [q0]

theorem alive_congr {h k : Hub} (q0 : k.sys = h.sys) : alive k  = alive h  := by
  unfold alive; rw [q0]

theorem upState_congr {h k : Hub} (q0 : k.sys = h.sys) : upState k  = upState h  := by
  unfold upState; rw [q0]

theorem portOn_congr {h k : Hub} (q0 : k.sys = h.sys) : portOn k  = portOn h  := by
  unfold portOn; rw [q0]

theorem dieNo_congr (e : Env) {h k : Hub} (q0 : k.img = h.img) : dieNo e k  = dieNo e h  := by
  unfold dieNo; rw [imgOf_congr q0]

theorem nodeNo_congr (e : Env) {h k : Hub} (q0 : k.img = h.img) : nodeNo e k  = nodeNo e h  := by
  unfold nodeNo; rw [imgOf_congr q0, dieNo_congr e q0]

theorem coreId_congr (e : Env) {h k : Hub} (q0 : k.img = h.img) (c : Nat) : coreId e k c = coreId e h c := by
  unfold coreId ownId; rw [imgOf_congr q0, dieNo_congr e q0]

theorem unitId_congr (e : Env) {h k : Hub} (q0 : k.img = h.img) (c : Nat) : unitId e k c = unitId e h c := by
  unfold unitId ownId; rw [imgOf_congr q0, dieNo_congr e q0]

theorem chan_congr {h k : Hub} (q0 : k.cmd = h.cmd) (c : Nat) : chan k c = chan h c := by
  unfold chan; rw [q0]

theorem entOk_congr {h k : Hub} (q0 : k.img = h.img) (x : Word) : entOk k x = entOk h x := by
  unfold entOk nodeInFleet; rw [imgOf_congr q0]

theorem groupOf_congr {h k : Hub} (q0 : k.img = h.img) (q1 : k.jobs = h.jobs) (c : Nat) : groupOf k c = groupOf h c := by
  unfold groupOf; rw [imgOf_congr q0, q1]

theorem probing_congr {h k : Hub} (q0 : k.age = h.age) (c : Nat) : probing k c = probing h c := by
  unfold probing; rw [q0]

theorem presentCore_congr (e : Env) {h k : Hub} (q0 : k.img = h.img) (x : Word) : presentCore e k x = presentCore e h x := by
  unfold presentCore ownCore; rw [dieNo_congr e q0]

@[simp] theorem cell_ite {p : Prop} [Decidable p] (h k : Hub) (c : Nat) :
    cell (if p then h else k) c = if p then cell h c else cell k c := by split <;> rfl
@[simp] theorem hubc_ite {p : Prop} [Decidable p] (h k : Hub) (c : Nat) :
    Sys2Proof.Machine.hubc (if p then h else k) c = if p then Sys2Proof.Machine.hubc h c else Sys2Proof.Machine.hubc k c := by split <;> rfl
@[simp] theorem region_ite {p : Prop} [Decidable p] (h k : Hub) (c : Nat) :
    region (if p then h else k) c = if p then region h c else region k c := by split <;> rfl
@[simp] theorem entity_ite {p : Prop} [Decidable p] (h k : Hub) (x : Word) :
    entity (if p then h else k) x = if p then entity h x else entity k x := by split <;> rfl
@[simp] theorem nowNs_ite {p : Prop} [Decidable p] (h k : Hub) :
    nowNs (if p then h else k)  = if p then nowNs h  else nowNs k  := by split <;> rfl
@[simp] theorem imgOf_ite {p : Prop} [Decidable p] (h k : Hub) :
    imgOf (if p then h else k)  = if p then imgOf h  else imgOf k  := by split <;> rfl
@[simp] theorem serving_ite {p : Prop} [Decidable p] (h k : Hub) :
    serving (if p then h else k)  = if p then serving h  else serving k  := by split <;> rfl
@[simp] theorem working_ite {p : Prop} [Decidable p] (h k : Hub) :
    working (if p then h else k)  = if p then working h  else working k  := by split <;> rfl
@[simp] theorem alive_ite {p : Prop} [Decidable p] (h k : Hub) :
    alive (if p then h else k)  = if p then alive h  else alive k  := by split <;> rfl
@[simp] theorem upState_ite {p : Prop} [Decidable p] (h k : Hub) :
    upState (if p then h else k)  = if p then upState h  else upState k  := by split <;> rfl
@[simp] theorem portOn_ite {p : Prop} [Decidable p] (h k : Hub) :
    portOn (if p then h else k)  = if p then portOn h  else portOn k  := by split <;> rfl
@[simp] theorem dieNo_ite (e : Env) {p : Prop} [Decidable p] (h k : Hub) :
    dieNo e (if p then h else k)  = if p then dieNo e h  else dieNo e k  := by split <;> rfl
@[simp] theorem nodeNo_ite (e : Env) {p : Prop} [Decidable p] (h k : Hub) :
    nodeNo e (if p then h else k)  = if p then nodeNo e h  else nodeNo e k  := by split <;> rfl
@[simp] theorem coreId_ite (e : Env) {p : Prop} [Decidable p] (h k : Hub) (c : Nat) :
    coreId e (if p then h else k) c = if p then coreId e h c else coreId e k c := by split <;> rfl
@[simp] theorem unitId_ite (e : Env) {p : Prop} [Decidable p] (h k : Hub) (c : Nat) :
    unitId e (if p then h else k) c = if p then unitId e h c else unitId e k c := by split <;> rfl
@[simp] theorem chan_ite {p : Prop} [Decidable p] (h k : Hub) (c : Nat) :
    chan (if p then h else k) c = if p then chan h c else chan k c := by split <;> rfl
@[simp] theorem entOk_ite {p : Prop} [Decidable p] (h k : Hub) (x : Word) :
    entOk (if p then h else k) x = if p then entOk h x else entOk k x := by split <;> rfl
@[simp] theorem groupOf_ite {p : Prop} [Decidable p] (h k : Hub) (c : Nat) :
    groupOf (if p then h else k) c = if p then groupOf h c else groupOf k c := by split <;> rfl
@[simp] theorem probing_ite {p : Prop} [Decidable p] (h k : Hub) (c : Nat) :
    probing (if p then h else k) c = if p then probing h c else probing k c := by split <;> rfl
@[simp] theorem presentCore_ite (e : Env) {p : Prop} [Decidable p] (h k : Hub) (x : Word) :
    presentCore e (if p then h else k) x = if p then presentCore e h x else presentCore e k x := by split <;> rfl

/-! The operations. -/

@[simp] theorem irq_reads (a0 a1) :
    (∀ (c : Nat), cell (irq a0 a1) c = cell a1 c) ∧ (∀ (c : Nat), Sys2Proof.Machine.hubc (irq a0 a1) c = Sys2Proof.Machine.hubc a1 c) ∧ (∀ (c : Nat), region (irq a0 a1) c = region a1 c) ∧
    (∀ (x : Word), entity (irq a0 a1) x = entity a1 x) ∧ (nowNs (irq a0 a1) = nowNs a1 ) ∧ (imgOf (irq a0 a1) = imgOf a1 ) ∧
    (serving (irq a0 a1) = serving a1 ) ∧ (working (irq a0 a1) = working a1 ) ∧ (alive (irq a0 a1) = alive a1 ) ∧
    (upState (irq a0 a1) = upState a1 ) ∧ (portOn (irq a0 a1) = portOn a1 ) ∧ (∀ (e : Env), dieNo e (irq a0 a1) = dieNo e a1 ) ∧
    (∀ (e : Env), nodeNo e (irq a0 a1) = nodeNo e a1 ) ∧ (∀ (e : Env) (c : Nat), coreId e (irq a0 a1) c = coreId e a1 c) ∧ (∀ (e : Env) (c : Nat), unitId e (irq a0 a1) c = unitId e a1 c) ∧
    (∀ (c : Nat), chan (irq a0 a1) c = chan a1 c) ∧ (∀ (x : Word), entOk (irq a0 a1) x = entOk a1 x) ∧ (∀ (c : Nat), groupOf (irq a0 a1) c = groupOf a1 c) ∧
    (∀ (c : Nat), probing (irq a0 a1) c = probing a1 c) ∧ (∀ (e : Env) (x : Word), presentCore e (irq a0 a1) x = presentCore e a1 x) := by
  have k := (irq_only a0 a1).keep
  exact ⟨fun c => cell_congr (k .cells (by decide)) c, fun c => hubc_congr (k .hubc (by decide)) c, fun c => region_congr (k .regions (by decide)) c, fun x => entity_congr (k .casc (by decide)) x, nowNs_congr (k .time (by decide)), imgOf_congr (k .img (by decide)), serving_congr (k .sys (by decide)), working_congr (k .sys (by decide)), alive_congr (k .sys (by decide)), upState_congr (k .sys (by decide)), portOn_congr (k .sys (by decide)), fun e  => dieNo_congr e (k .img (by decide)), fun e  => nodeNo_congr e (k .img (by decide)), fun e c => coreId_congr e (k .img (by decide)) c, fun e c => unitId_congr e (k .img (by decide)) c, fun c => chan_congr (k .cmd (by decide)) c, fun x => entOk_congr (k .img (by decide)) x, fun c => groupOf_congr (k .img (by decide)) (k .jobs (by decide)) c, fun c => probing_congr (k .age (by decide)) c, fun e x => presentCore_congr e (k .img (by decide)) x⟩

@[simp] theorem pushRec_reads (a0 a1 a2 a3 a4 a5 a6 a7 a8) :
    (∀ (c : Nat), cell (pushRec a0 a1 a2 a3 a4 a5 a6 a7 a8) c = cell a8 c) ∧ (∀ (c : Nat), Sys2Proof.Machine.hubc (pushRec a0 a1 a2 a3 a4 a5 a6 a7 a8) c = Sys2Proof.Machine.hubc a8 c) ∧ (∀ (c : Nat), region (pushRec a0 a1 a2 a3 a4 a5 a6 a7 a8) c = region a8 c) ∧
    (∀ (x : Word), entity (pushRec a0 a1 a2 a3 a4 a5 a6 a7 a8) x = entity a8 x) ∧ (nowNs (pushRec a0 a1 a2 a3 a4 a5 a6 a7 a8) = nowNs a8 ) ∧ (imgOf (pushRec a0 a1 a2 a3 a4 a5 a6 a7 a8) = imgOf a8 ) ∧
    (serving (pushRec a0 a1 a2 a3 a4 a5 a6 a7 a8) = serving a8 ) ∧ (working (pushRec a0 a1 a2 a3 a4 a5 a6 a7 a8) = working a8 ) ∧ (alive (pushRec a0 a1 a2 a3 a4 a5 a6 a7 a8) = alive a8 ) ∧
    (upState (pushRec a0 a1 a2 a3 a4 a5 a6 a7 a8) = upState a8 ) ∧ (portOn (pushRec a0 a1 a2 a3 a4 a5 a6 a7 a8) = portOn a8 ) ∧ (∀ (e : Env), dieNo e (pushRec a0 a1 a2 a3 a4 a5 a6 a7 a8) = dieNo e a8 ) ∧
    (∀ (e : Env), nodeNo e (pushRec a0 a1 a2 a3 a4 a5 a6 a7 a8) = nodeNo e a8 ) ∧ (∀ (e : Env) (c : Nat), coreId e (pushRec a0 a1 a2 a3 a4 a5 a6 a7 a8) c = coreId e a8 c) ∧ (∀ (e : Env) (c : Nat), unitId e (pushRec a0 a1 a2 a3 a4 a5 a6 a7 a8) c = unitId e a8 c) ∧
    (∀ (c : Nat), chan (pushRec a0 a1 a2 a3 a4 a5 a6 a7 a8) c = chan a8 c) ∧ (∀ (x : Word), entOk (pushRec a0 a1 a2 a3 a4 a5 a6 a7 a8) x = entOk a8 x) ∧ (∀ (c : Nat), groupOf (pushRec a0 a1 a2 a3 a4 a5 a6 a7 a8) c = groupOf a8 c) ∧
    (∀ (c : Nat), probing (pushRec a0 a1 a2 a3 a4 a5 a6 a7 a8) c = probing a8 c) ∧ (∀ (e : Env) (x : Word), presentCore e (pushRec a0 a1 a2 a3 a4 a5 a6 a7 a8) x = presentCore e a8 x) := by
  have k := (pushRec_only a0 a1 a2 a3 a4 a5 a6 a7 a8).keep
  exact ⟨fun c => cell_congr (k .cells (by decide)) c, fun c => hubc_congr (k .hubc (by decide)) c, fun c => region_congr (k .regions (by decide)) c, fun x => entity_congr (k .casc (by decide)) x, nowNs_congr (k .time (by decide)), imgOf_congr (k .img (by decide)), serving_congr (k .sys (by decide)), working_congr (k .sys (by decide)), alive_congr (k .sys (by decide)), upState_congr (k .sys (by decide)), portOn_congr (k .sys (by decide)), fun e  => dieNo_congr e (k .img (by decide)), fun e  => nodeNo_congr e (k .img (by decide)), fun e c => coreId_congr e (k .img (by decide)) c, fun e c => unitId_congr e (k .img (by decide)) c, fun c => chan_congr (k .cmd (by decide)) c, fun x => entOk_congr (k .img (by decide)) x, fun c => groupOf_congr (k .img (by decide)) (k .jobs (by decide)) c, fun c => probing_congr (k .age (by decide)) c, fun e x => presentCore_congr e (k .img (by decide)) x⟩

@[simp] theorem emitAt_reads (a0 a1 a2 a3 a4 a5 a6 a7 a8) :
    (∀ (c : Nat), cell (emitAt a0 a1 a2 a3 a4 a5 a6 a7 a8) c = cell a8 c) ∧ (∀ (c : Nat), Sys2Proof.Machine.hubc (emitAt a0 a1 a2 a3 a4 a5 a6 a7 a8) c = Sys2Proof.Machine.hubc a8 c) ∧ (∀ (c : Nat), region (emitAt a0 a1 a2 a3 a4 a5 a6 a7 a8) c = region a8 c) ∧
    (∀ (x : Word), entity (emitAt a0 a1 a2 a3 a4 a5 a6 a7 a8) x = entity a8 x) ∧ (nowNs (emitAt a0 a1 a2 a3 a4 a5 a6 a7 a8) = nowNs a8 ) ∧ (imgOf (emitAt a0 a1 a2 a3 a4 a5 a6 a7 a8) = imgOf a8 ) ∧
    (serving (emitAt a0 a1 a2 a3 a4 a5 a6 a7 a8) = serving a8 ) ∧ (working (emitAt a0 a1 a2 a3 a4 a5 a6 a7 a8) = working a8 ) ∧ (alive (emitAt a0 a1 a2 a3 a4 a5 a6 a7 a8) = alive a8 ) ∧
    (upState (emitAt a0 a1 a2 a3 a4 a5 a6 a7 a8) = upState a8 ) ∧ (portOn (emitAt a0 a1 a2 a3 a4 a5 a6 a7 a8) = portOn a8 ) ∧ (∀ (e : Env), dieNo e (emitAt a0 a1 a2 a3 a4 a5 a6 a7 a8) = dieNo e a8 ) ∧
    (∀ (e : Env), nodeNo e (emitAt a0 a1 a2 a3 a4 a5 a6 a7 a8) = nodeNo e a8 ) ∧ (∀ (e : Env) (c : Nat), coreId e (emitAt a0 a1 a2 a3 a4 a5 a6 a7 a8) c = coreId e a8 c) ∧ (∀ (e : Env) (c : Nat), unitId e (emitAt a0 a1 a2 a3 a4 a5 a6 a7 a8) c = unitId e a8 c) ∧
    (∀ (c : Nat), chan (emitAt a0 a1 a2 a3 a4 a5 a6 a7 a8) c = chan a8 c) ∧ (∀ (x : Word), entOk (emitAt a0 a1 a2 a3 a4 a5 a6 a7 a8) x = entOk a8 x) ∧ (∀ (c : Nat), groupOf (emitAt a0 a1 a2 a3 a4 a5 a6 a7 a8) c = groupOf a8 c) ∧
    (∀ (c : Nat), probing (emitAt a0 a1 a2 a3 a4 a5 a6 a7 a8) c = probing a8 c) ∧ (∀ (e : Env) (x : Word), presentCore e (emitAt a0 a1 a2 a3 a4 a5 a6 a7 a8) x = presentCore e a8 x) := by
  have k := (emitAt_only a0 a1 a2 a3 a4 a5 a6 a7 a8).keep
  exact ⟨fun c => cell_congr (k .cells (by decide)) c, fun c => hubc_congr (k .hubc (by decide)) c, fun c => region_congr (k .regions (by decide)) c, fun x => entity_congr (k .casc (by decide)) x, nowNs_congr (k .time (by decide)), imgOf_congr (k .img (by decide)), serving_congr (k .sys (by decide)), working_congr (k .sys (by decide)), alive_congr (k .sys (by decide)), upState_congr (k .sys (by decide)), portOn_congr (k .sys (by decide)), fun e  => dieNo_congr e (k .img (by decide)), fun e  => nodeNo_congr e (k .img (by decide)), fun e c => coreId_congr e (k .img (by decide)) c, fun e c => unitId_congr e (k .img (by decide)) c, fun c => chan_congr (k .cmd (by decide)) c, fun x => entOk_congr (k .img (by decide)) x, fun c => groupOf_congr (k .img (by decide)) (k .jobs (by decide)) c, fun c => probing_congr (k .age (by decide)) c, fun e x => presentCore_congr e (k .img (by decide)) x⟩

@[simp] theorem emit_reads (a0 a1 a2 a3 a4 a5 a6 a7) :
    (∀ (c : Nat), cell (emit a0 a1 a2 a3 a4 a5 a6 a7) c = cell a7 c) ∧ (∀ (c : Nat), Sys2Proof.Machine.hubc (emit a0 a1 a2 a3 a4 a5 a6 a7) c = Sys2Proof.Machine.hubc a7 c) ∧ (∀ (c : Nat), region (emit a0 a1 a2 a3 a4 a5 a6 a7) c = region a7 c) ∧
    (∀ (x : Word), entity (emit a0 a1 a2 a3 a4 a5 a6 a7) x = entity a7 x) ∧ (nowNs (emit a0 a1 a2 a3 a4 a5 a6 a7) = nowNs a7 ) ∧ (imgOf (emit a0 a1 a2 a3 a4 a5 a6 a7) = imgOf a7 ) ∧
    (serving (emit a0 a1 a2 a3 a4 a5 a6 a7) = serving a7 ) ∧ (working (emit a0 a1 a2 a3 a4 a5 a6 a7) = working a7 ) ∧ (alive (emit a0 a1 a2 a3 a4 a5 a6 a7) = alive a7 ) ∧
    (upState (emit a0 a1 a2 a3 a4 a5 a6 a7) = upState a7 ) ∧ (portOn (emit a0 a1 a2 a3 a4 a5 a6 a7) = portOn a7 ) ∧ (∀ (e : Env), dieNo e (emit a0 a1 a2 a3 a4 a5 a6 a7) = dieNo e a7 ) ∧
    (∀ (e : Env), nodeNo e (emit a0 a1 a2 a3 a4 a5 a6 a7) = nodeNo e a7 ) ∧ (∀ (e : Env) (c : Nat), coreId e (emit a0 a1 a2 a3 a4 a5 a6 a7) c = coreId e a7 c) ∧ (∀ (e : Env) (c : Nat), unitId e (emit a0 a1 a2 a3 a4 a5 a6 a7) c = unitId e a7 c) ∧
    (∀ (c : Nat), chan (emit a0 a1 a2 a3 a4 a5 a6 a7) c = chan a7 c) ∧ (∀ (x : Word), entOk (emit a0 a1 a2 a3 a4 a5 a6 a7) x = entOk a7 x) ∧ (∀ (c : Nat), groupOf (emit a0 a1 a2 a3 a4 a5 a6 a7) c = groupOf a7 c) ∧
    (∀ (c : Nat), probing (emit a0 a1 a2 a3 a4 a5 a6 a7) c = probing a7 c) ∧ (∀ (e : Env) (x : Word), presentCore e (emit a0 a1 a2 a3 a4 a5 a6 a7) x = presentCore e a7 x) := by
  have k := (emit_only a0 a1 a2 a3 a4 a5 a6 a7).keep
  exact ⟨fun c => cell_congr (k .cells (by decide)) c, fun c => hubc_congr (k .hubc (by decide)) c, fun c => region_congr (k .regions (by decide)) c, fun x => entity_congr (k .casc (by decide)) x, nowNs_congr (k .time (by decide)), imgOf_congr (k .img (by decide)), serving_congr (k .sys (by decide)), working_congr (k .sys (by decide)), alive_congr (k .sys (by decide)), upState_congr (k .sys (by decide)), portOn_congr (k .sys (by decide)), fun e  => dieNo_congr e (k .img (by decide)), fun e  => nodeNo_congr e (k .img (by decide)), fun e c => coreId_congr e (k .img (by decide)) c, fun e c => unitId_congr e (k .img (by decide)) c, fun c => chan_congr (k .cmd (by decide)) c, fun x => entOk_congr (k .img (by decide)) x, fun c => groupOf_congr (k .img (by decide)) (k .jobs (by decide)) c, fun c => probing_congr (k .age (by decide)) c, fun e x => presentCore_congr e (k .img (by decide)) x⟩

@[simp] theorem emitUnit_reads (a0 a1 a2 a3 a4) :
    (∀ (c : Nat), cell (emitUnit a0 a1 a2 a3 a4) c = cell a4 c) ∧ (∀ (c : Nat), Sys2Proof.Machine.hubc (emitUnit a0 a1 a2 a3 a4) c = Sys2Proof.Machine.hubc a4 c) ∧ (∀ (c : Nat), region (emitUnit a0 a1 a2 a3 a4) c = region a4 c) ∧
    (∀ (x : Word), entity (emitUnit a0 a1 a2 a3 a4) x = entity a4 x) ∧ (nowNs (emitUnit a0 a1 a2 a3 a4) = nowNs a4 ) ∧ (imgOf (emitUnit a0 a1 a2 a3 a4) = imgOf a4 ) ∧
    (serving (emitUnit a0 a1 a2 a3 a4) = serving a4 ) ∧ (working (emitUnit a0 a1 a2 a3 a4) = working a4 ) ∧ (alive (emitUnit a0 a1 a2 a3 a4) = alive a4 ) ∧
    (upState (emitUnit a0 a1 a2 a3 a4) = upState a4 ) ∧ (portOn (emitUnit a0 a1 a2 a3 a4) = portOn a4 ) ∧ (∀ (e : Env), dieNo e (emitUnit a0 a1 a2 a3 a4) = dieNo e a4 ) ∧
    (∀ (e : Env), nodeNo e (emitUnit a0 a1 a2 a3 a4) = nodeNo e a4 ) ∧ (∀ (e : Env) (c : Nat), coreId e (emitUnit a0 a1 a2 a3 a4) c = coreId e a4 c) ∧ (∀ (e : Env) (c : Nat), unitId e (emitUnit a0 a1 a2 a3 a4) c = unitId e a4 c) ∧
    (∀ (c : Nat), chan (emitUnit a0 a1 a2 a3 a4) c = chan a4 c) ∧ (∀ (x : Word), entOk (emitUnit a0 a1 a2 a3 a4) x = entOk a4 x) ∧ (∀ (c : Nat), groupOf (emitUnit a0 a1 a2 a3 a4) c = groupOf a4 c) ∧
    (∀ (c : Nat), probing (emitUnit a0 a1 a2 a3 a4) c = probing a4 c) ∧ (∀ (e : Env) (x : Word), presentCore e (emitUnit a0 a1 a2 a3 a4) x = presentCore e a4 x) := by
  have k := (emitUnit_only a0 a1 a2 a3 a4).keep
  exact ⟨fun c => cell_congr (k .cells (by decide)) c, fun c => hubc_congr (k .hubc (by decide)) c, fun c => region_congr (k .regions (by decide)) c, fun x => entity_congr (k .casc (by decide)) x, nowNs_congr (k .time (by decide)), imgOf_congr (k .img (by decide)), serving_congr (k .sys (by decide)), working_congr (k .sys (by decide)), alive_congr (k .sys (by decide)), upState_congr (k .sys (by decide)), portOn_congr (k .sys (by decide)), fun e  => dieNo_congr e (k .img (by decide)), fun e  => nodeNo_congr e (k .img (by decide)), fun e c => coreId_congr e (k .img (by decide)) c, fun e c => unitId_congr e (k .img (by decide)) c, fun c => chan_congr (k .cmd (by decide)) c, fun x => entOk_congr (k .img (by decide)) x, fun c => groupOf_congr (k .img (by decide)) (k .jobs (by decide)) c, fun c => probing_congr (k .age (by decide)) c, fun e x => presentCore_congr e (k .img (by decide)) x⟩

@[simp] theorem emitState_reads (a0 a1 a2) :
    (∀ (c : Nat), cell (emitState a0 a1 a2) c = cell a2 c) ∧ (∀ (c : Nat), Sys2Proof.Machine.hubc (emitState a0 a1 a2) c = Sys2Proof.Machine.hubc a2 c) ∧ (∀ (c : Nat), region (emitState a0 a1 a2) c = region a2 c) ∧
    (∀ (x : Word), entity (emitState a0 a1 a2) x = entity a2 x) ∧ (nowNs (emitState a0 a1 a2) = nowNs a2 ) ∧ (imgOf (emitState a0 a1 a2) = imgOf a2 ) ∧
    (serving (emitState a0 a1 a2) = serving a2 ) ∧ (working (emitState a0 a1 a2) = working a2 ) ∧ (alive (emitState a0 a1 a2) = alive a2 ) ∧
    (upState (emitState a0 a1 a2) = upState a2 ) ∧ (portOn (emitState a0 a1 a2) = portOn a2 ) ∧ (∀ (e : Env), dieNo e (emitState a0 a1 a2) = dieNo e a2 ) ∧
    (∀ (e : Env), nodeNo e (emitState a0 a1 a2) = nodeNo e a2 ) ∧ (∀ (e : Env) (c : Nat), coreId e (emitState a0 a1 a2) c = coreId e a2 c) ∧ (∀ (e : Env) (c : Nat), unitId e (emitState a0 a1 a2) c = unitId e a2 c) ∧
    (∀ (c : Nat), chan (emitState a0 a1 a2) c = chan a2 c) ∧ (∀ (x : Word), entOk (emitState a0 a1 a2) x = entOk a2 x) ∧ (∀ (c : Nat), groupOf (emitState a0 a1 a2) c = groupOf a2 c) ∧
    (∀ (c : Nat), probing (emitState a0 a1 a2) c = probing a2 c) ∧ (∀ (e : Env) (x : Word), presentCore e (emitState a0 a1 a2) x = presentCore e a2 x) := by
  have k := (emitState_only a0 a1 a2).keep
  exact ⟨fun c => cell_congr (k .cells (by decide)) c, fun c => hubc_congr (k .hubc (by decide)) c, fun c => region_congr (k .regions (by decide)) c, fun x => entity_congr (k .casc (by decide)) x, nowNs_congr (k .time (by decide)), imgOf_congr (k .img (by decide)), serving_congr (k .sys (by decide)), working_congr (k .sys (by decide)), alive_congr (k .sys (by decide)), upState_congr (k .sys (by decide)), portOn_congr (k .sys (by decide)), fun e  => dieNo_congr e (k .img (by decide)), fun e  => nodeNo_congr e (k .img (by decide)), fun e c => coreId_congr e (k .img (by decide)) c, fun e c => unitId_congr e (k .img (by decide)) c, fun c => chan_congr (k .cmd (by decide)) c, fun x => entOk_congr (k .img (by decide)) x, fun c => groupOf_congr (k .img (by decide)) (k .jobs (by decide)) c, fun c => probing_congr (k .age (by decide)) c, fun e x => presentCore_congr e (k .img (by decide)) x⟩

@[simp] theorem ignoredWrite_reads (a0 a1 a2 a3) :
    (∀ (c : Nat), cell (ignoredWrite a0 a1 a2 a3) c = cell a3 c) ∧ (∀ (c : Nat), Sys2Proof.Machine.hubc (ignoredWrite a0 a1 a2 a3) c = Sys2Proof.Machine.hubc a3 c) ∧ (∀ (c : Nat), region (ignoredWrite a0 a1 a2 a3) c = region a3 c) ∧
    (∀ (x : Word), entity (ignoredWrite a0 a1 a2 a3) x = entity a3 x) ∧ (nowNs (ignoredWrite a0 a1 a2 a3) = nowNs a3 ) ∧ (imgOf (ignoredWrite a0 a1 a2 a3) = imgOf a3 ) ∧
    (serving (ignoredWrite a0 a1 a2 a3) = serving a3 ) ∧ (working (ignoredWrite a0 a1 a2 a3) = working a3 ) ∧ (alive (ignoredWrite a0 a1 a2 a3) = alive a3 ) ∧
    (upState (ignoredWrite a0 a1 a2 a3) = upState a3 ) ∧ (portOn (ignoredWrite a0 a1 a2 a3) = portOn a3 ) ∧ (∀ (e : Env), dieNo e (ignoredWrite a0 a1 a2 a3) = dieNo e a3 ) ∧
    (∀ (e : Env), nodeNo e (ignoredWrite a0 a1 a2 a3) = nodeNo e a3 ) ∧ (∀ (e : Env) (c : Nat), coreId e (ignoredWrite a0 a1 a2 a3) c = coreId e a3 c) ∧ (∀ (e : Env) (c : Nat), unitId e (ignoredWrite a0 a1 a2 a3) c = unitId e a3 c) ∧
    (∀ (c : Nat), chan (ignoredWrite a0 a1 a2 a3) c = chan a3 c) ∧ (∀ (x : Word), entOk (ignoredWrite a0 a1 a2 a3) x = entOk a3 x) ∧ (∀ (c : Nat), groupOf (ignoredWrite a0 a1 a2 a3) c = groupOf a3 c) ∧
    (∀ (c : Nat), probing (ignoredWrite a0 a1 a2 a3) c = probing a3 c) ∧ (∀ (e : Env) (x : Word), presentCore e (ignoredWrite a0 a1 a2 a3) x = presentCore e a3 x) := by
  have k := (ignoredWrite_only a0 a1 a2 a3).keep
  exact ⟨fun c => cell_congr (k .cells (by decide)) c, fun c => hubc_congr (k .hubc (by decide)) c, fun c => region_congr (k .regions (by decide)) c, fun x => entity_congr (k .casc (by decide)) x, nowNs_congr (k .time (by decide)), imgOf_congr (k .img (by decide)), serving_congr (k .sys (by decide)), working_congr (k .sys (by decide)), alive_congr (k .sys (by decide)), upState_congr (k .sys (by decide)), portOn_congr (k .sys (by decide)), fun e  => dieNo_congr e (k .img (by decide)), fun e  => nodeNo_congr e (k .img (by decide)), fun e c => coreId_congr e (k .img (by decide)) c, fun e c => unitId_congr e (k .img (by decide)) c, fun c => chan_congr (k .cmd (by decide)) c, fun x => entOk_congr (k .img (by decide)) x, fun c => groupOf_congr (k .img (by decide)) (k .jobs (by decide)) c, fun c => probing_congr (k .age (by decide)) c, fun e x => presentCore_congr e (k .img (by decide)) x⟩

@[simp] theorem refusedWrite_reads (a0 a1 a2 a3) :
    (∀ (c : Nat), cell (refusedWrite a0 a1 a2 a3) c = cell a3 c) ∧ (∀ (c : Nat), Sys2Proof.Machine.hubc (refusedWrite a0 a1 a2 a3) c = Sys2Proof.Machine.hubc a3 c) ∧ (∀ (c : Nat), region (refusedWrite a0 a1 a2 a3) c = region a3 c) ∧
    (∀ (x : Word), entity (refusedWrite a0 a1 a2 a3) x = entity a3 x) ∧ (nowNs (refusedWrite a0 a1 a2 a3) = nowNs a3 ) ∧ (imgOf (refusedWrite a0 a1 a2 a3) = imgOf a3 ) ∧
    (serving (refusedWrite a0 a1 a2 a3) = serving a3 ) ∧ (working (refusedWrite a0 a1 a2 a3) = working a3 ) ∧ (alive (refusedWrite a0 a1 a2 a3) = alive a3 ) ∧
    (upState (refusedWrite a0 a1 a2 a3) = upState a3 ) ∧ (portOn (refusedWrite a0 a1 a2 a3) = portOn a3 ) ∧ (∀ (e : Env), dieNo e (refusedWrite a0 a1 a2 a3) = dieNo e a3 ) ∧
    (∀ (e : Env), nodeNo e (refusedWrite a0 a1 a2 a3) = nodeNo e a3 ) ∧ (∀ (e : Env) (c : Nat), coreId e (refusedWrite a0 a1 a2 a3) c = coreId e a3 c) ∧ (∀ (e : Env) (c : Nat), unitId e (refusedWrite a0 a1 a2 a3) c = unitId e a3 c) ∧
    (∀ (c : Nat), chan (refusedWrite a0 a1 a2 a3) c = chan a3 c) ∧ (∀ (x : Word), entOk (refusedWrite a0 a1 a2 a3) x = entOk a3 x) ∧ (∀ (c : Nat), groupOf (refusedWrite a0 a1 a2 a3) c = groupOf a3 c) ∧
    (∀ (c : Nat), probing (refusedWrite a0 a1 a2 a3) c = probing a3 c) ∧ (∀ (e : Env) (x : Word), presentCore e (refusedWrite a0 a1 a2 a3) x = presentCore e a3 x) := by
  have k := (refusedWrite_only a0 a1 a2 a3).keep
  exact ⟨fun c => cell_congr (k .cells (by decide)) c, fun c => hubc_congr (k .hubc (by decide)) c, fun c => region_congr (k .regions (by decide)) c, fun x => entity_congr (k .casc (by decide)) x, nowNs_congr (k .time (by decide)), imgOf_congr (k .img (by decide)), serving_congr (k .sys (by decide)), working_congr (k .sys (by decide)), alive_congr (k .sys (by decide)), upState_congr (k .sys (by decide)), portOn_congr (k .sys (by decide)), fun e  => dieNo_congr e (k .img (by decide)), fun e  => nodeNo_congr e (k .img (by decide)), fun e c => coreId_congr e (k .img (by decide)) c, fun e c => unitId_congr e (k .img (by decide)) c, fun c => chan_congr (k .cmd (by decide)) c, fun x => entOk_congr (k .img (by decide)) x, fun c => groupOf_congr (k .img (by decide)) (k .jobs (by decide)) c, fun c => probing_congr (k .age (by decide)) c, fun e x => presentCore_congr e (k .img (by decide)) x⟩

@[simp] theorem report_reads (a0 a1 a2 a3 a4) :
    (∀ (c : Nat), cell (report a0 a1 a2 a3 a4) c = cell a4 c) ∧ (∀ (c : Nat), Sys2Proof.Machine.hubc (report a0 a1 a2 a3 a4) c = Sys2Proof.Machine.hubc a4 c) ∧ (∀ (c : Nat), region (report a0 a1 a2 a3 a4) c = region a4 c) ∧
    (∀ (x : Word), entity (report a0 a1 a2 a3 a4) x = entity a4 x) ∧ (nowNs (report a0 a1 a2 a3 a4) = nowNs a4 ) ∧ (imgOf (report a0 a1 a2 a3 a4) = imgOf a4 ) ∧
    (serving (report a0 a1 a2 a3 a4) = serving a4 ) ∧ (working (report a0 a1 a2 a3 a4) = working a4 ) ∧ (alive (report a0 a1 a2 a3 a4) = alive a4 ) ∧
    (upState (report a0 a1 a2 a3 a4) = upState a4 ) ∧ (portOn (report a0 a1 a2 a3 a4) = portOn a4 ) ∧ (∀ (e : Env), dieNo e (report a0 a1 a2 a3 a4) = dieNo e a4 ) ∧
    (∀ (e : Env), nodeNo e (report a0 a1 a2 a3 a4) = nodeNo e a4 ) ∧ (∀ (e : Env) (c : Nat), coreId e (report a0 a1 a2 a3 a4) c = coreId e a4 c) ∧ (∀ (e : Env) (c : Nat), unitId e (report a0 a1 a2 a3 a4) c = unitId e a4 c) ∧
    (∀ (c : Nat), chan (report a0 a1 a2 a3 a4) c = chan a4 c) ∧ (∀ (x : Word), entOk (report a0 a1 a2 a3 a4) x = entOk a4 x) ∧ (∀ (c : Nat), groupOf (report a0 a1 a2 a3 a4) c = groupOf a4 c) ∧
    (∀ (c : Nat), probing (report a0 a1 a2 a3 a4) c = probing a4 c) ∧ (∀ (e : Env) (x : Word), presentCore e (report a0 a1 a2 a3 a4) x = presentCore e a4 x) := by
  have k := (report_only a0 a1 a2 a3 a4).keep
  exact ⟨fun c => cell_congr (k .cells (by decide)) c, fun c => hubc_congr (k .hubc (by decide)) c, fun c => region_congr (k .regions (by decide)) c, fun x => entity_congr (k .casc (by decide)) x, nowNs_congr (k .time (by decide)), imgOf_congr (k .img (by decide)), serving_congr (k .sys (by decide)), working_congr (k .sys (by decide)), alive_congr (k .sys (by decide)), upState_congr (k .sys (by decide)), portOn_congr (k .sys (by decide)), fun e  => dieNo_congr e (k .img (by decide)), fun e  => nodeNo_congr e (k .img (by decide)), fun e c => coreId_congr e (k .img (by decide)) c, fun e c => unitId_congr e (k .img (by decide)) c, fun c => chan_congr (k .cmd (by decide)) c, fun x => entOk_congr (k .img (by decide)) x, fun c => groupOf_congr (k .img (by decide)) (k .jobs (by decide)) c, fun c => probing_congr (k .age (by decide)) c, fun e x => presentCore_congr e (k .img (by decide)) x⟩

@[simp] theorem toState_reads (a0 a1) :
    (∀ (c : Nat), cell (toState a0 a1) c = cell a1 c) ∧ (∀ (c : Nat), Sys2Proof.Machine.hubc (toState a0 a1) c = Sys2Proof.Machine.hubc a1 c) ∧ (∀ (c : Nat), region (toState a0 a1) c = region a1 c) ∧
    (∀ (x : Word), entity (toState a0 a1) x = entity a1 x) ∧ (nowNs (toState a0 a1) = nowNs a1 ) ∧ (imgOf (toState a0 a1) = imgOf a1 ) ∧
    (∀ (e : Env), dieNo e (toState a0 a1) = dieNo e a1 ) ∧ (∀ (e : Env), nodeNo e (toState a0 a1) = nodeNo e a1 ) ∧ (∀ (e : Env) (c : Nat), coreId e (toState a0 a1) c = coreId e a1 c) ∧
    (∀ (e : Env) (c : Nat), unitId e (toState a0 a1) c = unitId e a1 c) ∧ (∀ (c : Nat), chan (toState a0 a1) c = chan a1 c) ∧ (∀ (x : Word), entOk (toState a0 a1) x = entOk a1 x) ∧
    (∀ (c : Nat), groupOf (toState a0 a1) c = groupOf a1 c) ∧ (∀ (c : Nat), probing (toState a0 a1) c = probing a1 c) ∧ (∀ (e : Env) (x : Word), presentCore e (toState a0 a1) x = presentCore e a1 x) := by
  have k := (toState_only a0 a1).keep
  exact ⟨fun c => cell_congr (k .cells (by decide)) c, fun c => hubc_congr (k .hubc (by decide)) c, fun c => region_congr (k .regions (by decide)) c, fun x => entity_congr (k .casc (by decide)) x, nowNs_congr (k .time (by decide)), imgOf_congr (k .img (by decide)), fun e  => dieNo_congr e (k .img (by decide)), fun e  => nodeNo_congr e (k .img (by decide)), fun e c => coreId_congr e (k .img (by decide)) c, fun e c => unitId_congr e (k .img (by decide)) c, fun c => chan_congr (k .cmd (by decide)) c, fun x => entOk_congr (k .img (by decide)) x, fun c => groupOf_congr (k .img (by decide)) (k .jobs (by decide)) c, fun c => probing_congr (k .age (by decide)) c, fun e x => presentCore_congr e (k .img (by decide)) x⟩

@[simp] theorem onRegion_reads (a0 a1 a2) :
    (∀ (c : Nat), cell (onRegion a0 a1 a2) c = cell a2 c) ∧ (∀ (c : Nat), Sys2Proof.Machine.hubc (onRegion a0 a1 a2) c = Sys2Proof.Machine.hubc a2 c) ∧ (∀ (x : Word), entity (onRegion a0 a1 a2) x = entity a2 x) ∧
    (nowNs (onRegion a0 a1 a2) = nowNs a2 ) ∧ (imgOf (onRegion a0 a1 a2) = imgOf a2 ) ∧ (serving (onRegion a0 a1 a2) = serving a2 ) ∧
    (working (onRegion a0 a1 a2) = working a2 ) ∧ (alive (onRegion a0 a1 a2) = alive a2 ) ∧ (upState (onRegion a0 a1 a2) = upState a2 ) ∧
    (portOn (onRegion a0 a1 a2) = portOn a2 ) ∧ (∀ (e : Env), dieNo e (onRegion a0 a1 a2) = dieNo e a2 ) ∧ (∀ (e : Env), nodeNo e (onRegion a0 a1 a2) = nodeNo e a2 ) ∧
    (∀ (e : Env) (c : Nat), coreId e (onRegion a0 a1 a2) c = coreId e a2 c) ∧ (∀ (e : Env) (c : Nat), unitId e (onRegion a0 a1 a2) c = unitId e a2 c) ∧ (∀ (c : Nat), chan (onRegion a0 a1 a2) c = chan a2 c) ∧
    (∀ (x : Word), entOk (onRegion a0 a1 a2) x = entOk a2 x) ∧ (∀ (c : Nat), groupOf (onRegion a0 a1 a2) c = groupOf a2 c) ∧ (∀ (c : Nat), probing (onRegion a0 a1 a2) c = probing a2 c) ∧
    (∀ (e : Env) (x : Word), presentCore e (onRegion a0 a1 a2) x = presentCore e a2 x) := by
  have k := (onRegion_only a0 a1 a2).keep
  exact ⟨fun c => cell_congr (k .cells (by decide)) c, fun c => hubc_congr (k .hubc (by decide)) c, fun x => entity_congr (k .casc (by decide)) x, nowNs_congr (k .time (by decide)), imgOf_congr (k .img (by decide)), serving_congr (k .sys (by decide)), working_congr (k .sys (by decide)), alive_congr (k .sys (by decide)), upState_congr (k .sys (by decide)), portOn_congr (k .sys (by decide)), fun e  => dieNo_congr e (k .img (by decide)), fun e  => nodeNo_congr e (k .img (by decide)), fun e c => coreId_congr e (k .img (by decide)) c, fun e c => unitId_congr e (k .img (by decide)) c, fun c => chan_congr (k .cmd (by decide)) c, fun x => entOk_congr (k .img (by decide)) x, fun c => groupOf_congr (k .img (by decide)) (k .jobs (by decide)) c, fun c => probing_congr (k .age (by decide)) c, fun e x => presentCore_congr e (k .img (by decide)) x⟩

@[simp] theorem onCell_reads (a0 a1 a2) :
    (∀ (c : Nat), Sys2Proof.Machine.hubc (onCell a0 a1 a2) c = Sys2Proof.Machine.hubc a2 c) ∧ (∀ (c : Nat), region (onCell a0 a1 a2) c = region a2 c) ∧ (∀ (x : Word), entity (onCell a0 a1 a2) x = entity a2 x) ∧
    (nowNs (onCell a0 a1 a2) = nowNs a2 ) ∧ (imgOf (onCell a0 a1 a2) = imgOf a2 ) ∧ (serving (onCell a0 a1 a2) = serving a2 ) ∧
    (working (onCell a0 a1 a2) = working a2 ) ∧ (alive (onCell a0 a1 a2) = alive a2 ) ∧ (upState (onCell a0 a1 a2) = upState a2 ) ∧
    (portOn (onCell a0 a1 a2) = portOn a2 ) ∧ (∀ (e : Env), dieNo e (onCell a0 a1 a2) = dieNo e a2 ) ∧ (∀ (e : Env), nodeNo e (onCell a0 a1 a2) = nodeNo e a2 ) ∧
    (∀ (e : Env) (c : Nat), coreId e (onCell a0 a1 a2) c = coreId e a2 c) ∧ (∀ (e : Env) (c : Nat), unitId e (onCell a0 a1 a2) c = unitId e a2 c) ∧ (∀ (c : Nat), chan (onCell a0 a1 a2) c = chan a2 c) ∧
    (∀ (x : Word), entOk (onCell a0 a1 a2) x = entOk a2 x) ∧ (∀ (c : Nat), groupOf (onCell a0 a1 a2) c = groupOf a2 c) ∧ (∀ (c : Nat), probing (onCell a0 a1 a2) c = probing a2 c) ∧
    (∀ (e : Env) (x : Word), presentCore e (onCell a0 a1 a2) x = presentCore e a2 x) := by
  have k := (onCell_only a0 a1 a2).keep
  exact ⟨fun c => hubc_congr (k .hubc (by decide)) c, fun c => region_congr (k .regions (by decide)) c, fun x => entity_congr (k .casc (by decide)) x, nowNs_congr (k .time (by decide)), imgOf_congr (k .img (by decide)), serving_congr (k .sys (by decide)), working_congr (k .sys (by decide)), alive_congr (k .sys (by decide)), upState_congr (k .sys (by decide)), portOn_congr (k .sys (by decide)), fun e  => dieNo_congr e (k .img (by decide)), fun e  => nodeNo_congr e (k .img (by decide)), fun e c => coreId_congr e (k .img (by decide)) c, fun e c => unitId_congr e (k .img (by decide)) c, fun c => chan_congr (k .cmd (by decide)) c, fun x => entOk_congr (k .img (by decide)) x, fun c => groupOf_congr (k .img (by decide)) (k .jobs (by decide)) c, fun c => probing_congr (k .age (by decide)) c, fun e x => presentCore_congr e (k .img (by decide)) x⟩

@[simp] theorem onHubc_reads (a0 a1 a2) :
    (∀ (c : Nat), cell (onHubc a0 a1 a2) c = cell a2 c) ∧ (∀ (c : Nat), region (onHubc a0 a1 a2) c = region a2 c) ∧ (∀ (x : Word), entity (onHubc a0 a1 a2) x = entity a2 x) ∧
    (nowNs (onHubc a0 a1 a2) = nowNs a2 ) ∧ (imgOf (onHubc a0 a1 a2) = imgOf a2 ) ∧ (serving (onHubc a0 a1 a2) = serving a2 ) ∧
    (working (onHubc a0 a1 a2) = working a2 ) ∧ (alive (onHubc a0 a1 a2) = alive a2 ) ∧ (upState (onHubc a0 a1 a2) = upState a2 ) ∧
    (portOn (onHubc a0 a1 a2) = portOn a2 ) ∧ (∀ (e : Env), dieNo e (onHubc a0 a1 a2) = dieNo e a2 ) ∧ (∀ (e : Env), nodeNo e (onHubc a0 a1 a2) = nodeNo e a2 ) ∧
    (∀ (e : Env) (c : Nat), coreId e (onHubc a0 a1 a2) c = coreId e a2 c) ∧ (∀ (e : Env) (c : Nat), unitId e (onHubc a0 a1 a2) c = unitId e a2 c) ∧ (∀ (c : Nat), chan (onHubc a0 a1 a2) c = chan a2 c) ∧
    (∀ (x : Word), entOk (onHubc a0 a1 a2) x = entOk a2 x) ∧ (∀ (c : Nat), groupOf (onHubc a0 a1 a2) c = groupOf a2 c) ∧ (∀ (c : Nat), probing (onHubc a0 a1 a2) c = probing a2 c) ∧
    (∀ (e : Env) (x : Word), presentCore e (onHubc a0 a1 a2) x = presentCore e a2 x) := by
  have k := (onHubc_only a0 a1 a2).keep
  exact ⟨fun c => cell_congr (k .cells (by decide)) c, fun c => region_congr (k .regions (by decide)) c, fun x => entity_congr (k .casc (by decide)) x, nowNs_congr (k .time (by decide)), imgOf_congr (k .img (by decide)), serving_congr (k .sys (by decide)), working_congr (k .sys (by decide)), alive_congr (k .sys (by decide)), upState_congr (k .sys (by decide)), portOn_congr (k .sys (by decide)), fun e  => dieNo_congr e (k .img (by decide)), fun e  => nodeNo_congr e (k .img (by decide)), fun e c => coreId_congr e (k .img (by decide)) c, fun e c => unitId_congr e (k .img (by decide)) c, fun c => chan_congr (k .cmd (by decide)) c, fun x => entOk_congr (k .img (by decide)) x, fun c => groupOf_congr (k .img (by decide)) (k .jobs (by decide)) c, fun c => probing_congr (k .age (by decide)) c, fun e x => presentCore_congr e (k .img (by decide)) x⟩

@[simp] theorem onEnt_reads (a0 a1 a2) :
    (∀ (c : Nat), cell (onEnt a0 a1 a2) c = cell a2 c) ∧ (∀ (c : Nat), Sys2Proof.Machine.hubc (onEnt a0 a1 a2) c = Sys2Proof.Machine.hubc a2 c) ∧ (∀ (c : Nat), region (onEnt a0 a1 a2) c = region a2 c) ∧
    (nowNs (onEnt a0 a1 a2) = nowNs a2 ) ∧ (imgOf (onEnt a0 a1 a2) = imgOf a2 ) ∧ (serving (onEnt a0 a1 a2) = serving a2 ) ∧
    (working (onEnt a0 a1 a2) = working a2 ) ∧ (alive (onEnt a0 a1 a2) = alive a2 ) ∧ (upState (onEnt a0 a1 a2) = upState a2 ) ∧
    (portOn (onEnt a0 a1 a2) = portOn a2 ) ∧ (∀ (e : Env), dieNo e (onEnt a0 a1 a2) = dieNo e a2 ) ∧ (∀ (e : Env), nodeNo e (onEnt a0 a1 a2) = nodeNo e a2 ) ∧
    (∀ (e : Env) (c : Nat), coreId e (onEnt a0 a1 a2) c = coreId e a2 c) ∧ (∀ (e : Env) (c : Nat), unitId e (onEnt a0 a1 a2) c = unitId e a2 c) ∧ (∀ (c : Nat), chan (onEnt a0 a1 a2) c = chan a2 c) ∧
    (∀ (x : Word), entOk (onEnt a0 a1 a2) x = entOk a2 x) ∧ (∀ (c : Nat), groupOf (onEnt a0 a1 a2) c = groupOf a2 c) ∧ (∀ (c : Nat), probing (onEnt a0 a1 a2) c = probing a2 c) ∧
    (∀ (e : Env) (x : Word), presentCore e (onEnt a0 a1 a2) x = presentCore e a2 x) := by
  have k := (onEnt_only a0 a1 a2).keep
  exact ⟨fun c => cell_congr (k .cells (by decide)) c, fun c => hubc_congr (k .hubc (by decide)) c, fun c => region_congr (k .regions (by decide)) c, nowNs_congr (k .time (by decide)), imgOf_congr (k .img (by decide)), serving_congr (k .sys (by decide)), working_congr (k .sys (by decide)), alive_congr (k .sys (by decide)), upState_congr (k .sys (by decide)), portOn_congr (k .sys (by decide)), fun e  => dieNo_congr e (k .img (by decide)), fun e  => nodeNo_congr e (k .img (by decide)), fun e c => coreId_congr e (k .img (by decide)) c, fun e c => unitId_congr e (k .img (by decide)) c, fun c => chan_congr (k .cmd (by decide)) c, fun x => entOk_congr (k .img (by decide)) x, fun c => groupOf_congr (k .img (by decide)) (k .jobs (by decide)) c, fun c => probing_congr (k .age (by decide)) c, fun e x => presentCore_congr e (k .img (by decide)) x⟩

@[simp] theorem countCore_reads (a0 a1 a2 a3) :
    (∀ (c : Nat), cell (countCore a0 a1 a2 a3) c = cell a2 c) ∧ (∀ (c : Nat), region (countCore a0 a1 a2 a3) c = region a2 c) ∧ (∀ (x : Word), entity (countCore a0 a1 a2 a3) x = entity a2 x) ∧
    (nowNs (countCore a0 a1 a2 a3) = nowNs a2 ) ∧ (imgOf (countCore a0 a1 a2 a3) = imgOf a2 ) ∧ (serving (countCore a0 a1 a2 a3) = serving a2 ) ∧
    (working (countCore a0 a1 a2 a3) = working a2 ) ∧ (alive (countCore a0 a1 a2 a3) = alive a2 ) ∧ (upState (countCore a0 a1 a2 a3) = upState a2 ) ∧
    (portOn (countCore a0 a1 a2 a3) = portOn a2 ) ∧ (∀ (e : Env), dieNo e (countCore a0 a1 a2 a3) = dieNo e a2 ) ∧ (∀ (e : Env), nodeNo e (countCore a0 a1 a2 a3) = nodeNo e a2 ) ∧
    (∀ (e : Env) (c : Nat), coreId e (countCore a0 a1 a2 a3) c = coreId e a2 c) ∧ (∀ (e : Env) (c : Nat), unitId e (countCore a0 a1 a2 a3) c = unitId e a2 c) ∧ (∀ (c : Nat), chan (countCore a0 a1 a2 a3) c = chan a2 c) ∧
    (∀ (x : Word), entOk (countCore a0 a1 a2 a3) x = entOk a2 x) ∧ (∀ (c : Nat), groupOf (countCore a0 a1 a2 a3) c = groupOf a2 c) ∧ (∀ (c : Nat), probing (countCore a0 a1 a2 a3) c = probing a2 c) ∧
    (∀ (e : Env) (x : Word), presentCore e (countCore a0 a1 a2 a3) x = presentCore e a2 x) := by
  have k := (countCore_only a0 a1 a2 a3).keep
  exact ⟨fun c => cell_congr (k .cells (by decide)) c, fun c => region_congr (k .regions (by decide)) c, fun x => entity_congr (k .casc (by decide)) x, nowNs_congr (k .time (by decide)), imgOf_congr (k .img (by decide)), serving_congr (k .sys (by decide)), working_congr (k .sys (by decide)), alive_congr (k .sys (by decide)), upState_congr (k .sys (by decide)), portOn_congr (k .sys (by decide)), fun e  => dieNo_congr e (k .img (by decide)), fun e  => nodeNo_congr e (k .img (by decide)), fun e c => coreId_congr e (k .img (by decide)) c, fun e c => unitId_congr e (k .img (by decide)) c, fun c => chan_congr (k .cmd (by decide)) c, fun x => entOk_congr (k .img (by decide)) x, fun c => groupOf_congr (k .img (by decide)) (k .jobs (by decide)) c, fun c => probing_congr (k .age (by decide)) c, fun e x => presentCore_congr e (k .img (by decide)) x⟩

@[simp] theorem drawn_reads (a0 a1) :
    (∀ (c : Nat), cell (drawn a0 a1) c = cell a0 c) ∧ (∀ (c : Nat), Sys2Proof.Machine.hubc (drawn a0 a1) c = Sys2Proof.Machine.hubc a0 c) ∧ (∀ (c : Nat), region (drawn a0 a1) c = region a0 c) ∧
    (∀ (x : Word), entity (drawn a0 a1) x = entity a0 x) ∧ (nowNs (drawn a0 a1) = nowNs a0 ) ∧ (imgOf (drawn a0 a1) = imgOf a0 ) ∧
    (serving (drawn a0 a1) = serving a0 ) ∧ (working (drawn a0 a1) = working a0 ) ∧ (alive (drawn a0 a1) = alive a0 ) ∧
    (upState (drawn a0 a1) = upState a0 ) ∧ (portOn (drawn a0 a1) = portOn a0 ) ∧ (∀ (e : Env), dieNo e (drawn a0 a1) = dieNo e a0 ) ∧
    (∀ (e : Env), nodeNo e (drawn a0 a1) = nodeNo e a0 ) ∧ (∀ (e : Env) (c : Nat), coreId e (drawn a0 a1) c = coreId e a0 c) ∧ (∀ (e : Env) (c : Nat), unitId e (drawn a0 a1) c = unitId e a0 c) ∧
    (∀ (c : Nat), chan (drawn a0 a1) c = chan a0 c) ∧ (∀ (x : Word), entOk (drawn a0 a1) x = entOk a0 x) ∧ (∀ (c : Nat), groupOf (drawn a0 a1) c = groupOf a0 c) ∧
    (∀ (c : Nat), probing (drawn a0 a1) c = probing a0 c) ∧ (∀ (e : Env) (x : Word), presentCore e (drawn a0 a1) x = presentCore e a0 x) := by
  have k := (drawn_only a0 a1).keep
  exact ⟨fun c => cell_congr (k .cells (by decide)) c, fun c => hubc_congr (k .hubc (by decide)) c, fun c => region_congr (k .regions (by decide)) c, fun x => entity_congr (k .casc (by decide)) x, nowNs_congr (k .time (by decide)), imgOf_congr (k .img (by decide)), serving_congr (k .sys (by decide)), working_congr (k .sys (by decide)), alive_congr (k .sys (by decide)), upState_congr (k .sys (by decide)), portOn_congr (k .sys (by decide)), fun e  => dieNo_congr e (k .img (by decide)), fun e  => nodeNo_congr e (k .img (by decide)), fun e c => coreId_congr e (k .img (by decide)) c, fun e c => unitId_congr e (k .img (by decide)) c, fun c => chan_congr (k .cmd (by decide)) c, fun x => entOk_congr (k .img (by decide)) x, fun c => groupOf_congr (k .img (by decide)) (k .jobs (by decide)) c, fun c => probing_congr (k .age (by decide)) c, fun e x => presentCore_congr e (k .img (by decide)) x⟩

@[simp] theorem onSys_reads (a0 a1) :
    (∀ (c : Nat), cell (onSys a0 a1) c = cell a1 c) ∧ (∀ (c : Nat), Sys2Proof.Machine.hubc (onSys a0 a1) c = Sys2Proof.Machine.hubc a1 c) ∧ (∀ (c : Nat), region (onSys a0 a1) c = region a1 c) ∧
    (∀ (x : Word), entity (onSys a0 a1) x = entity a1 x) ∧ (nowNs (onSys a0 a1) = nowNs a1 ) ∧ (imgOf (onSys a0 a1) = imgOf a1 ) ∧
    (∀ (e : Env), dieNo e (onSys a0 a1) = dieNo e a1 ) ∧ (∀ (e : Env), nodeNo e (onSys a0 a1) = nodeNo e a1 ) ∧ (∀ (e : Env) (c : Nat), coreId e (onSys a0 a1) c = coreId e a1 c) ∧
    (∀ (e : Env) (c : Nat), unitId e (onSys a0 a1) c = unitId e a1 c) ∧ (∀ (c : Nat), chan (onSys a0 a1) c = chan a1 c) ∧ (∀ (x : Word), entOk (onSys a0 a1) x = entOk a1 x) ∧
    (∀ (c : Nat), groupOf (onSys a0 a1) c = groupOf a1 c) ∧ (∀ (c : Nat), probing (onSys a0 a1) c = probing a1 c) ∧ (∀ (e : Env) (x : Word), presentCore e (onSys a0 a1) x = presentCore e a1 x) := by
  have k := (onSys_only a0 a1).keep
  exact ⟨fun c => cell_congr (k .cells (by decide)) c, fun c => hubc_congr (k .hubc (by decide)) c, fun c => region_congr (k .regions (by decide)) c, fun x => entity_congr (k .casc (by decide)) x, nowNs_congr (k .time (by decide)), imgOf_congr (k .img (by decide)), fun e  => dieNo_congr e (k .img (by decide)), fun e  => nodeNo_congr e (k .img (by decide)), fun e c => coreId_congr e (k .img (by decide)) c, fun e c => unitId_congr e (k .img (by decide)) c, fun c => chan_congr (k .cmd (by decide)) c, fun x => entOk_congr (k .img (by decide)) x, fun c => groupOf_congr (k .img (by decide)) (k .jobs (by decide)) c, fun c => probing_congr (k .age (by decide)) c, fun e x => presentCore_congr e (k .img (by decide)) x⟩

@[simp] theorem onIsl_reads (a0 a1) :
    (∀ (c : Nat), cell (onIsl a0 a1) c = cell a1 c) ∧ (∀ (c : Nat), Sys2Proof.Machine.hubc (onIsl a0 a1) c = Sys2Proof.Machine.hubc a1 c) ∧ (∀ (c : Nat), region (onIsl a0 a1) c = region a1 c) ∧
    (∀ (x : Word), entity (onIsl a0 a1) x = entity a1 x) ∧ (nowNs (onIsl a0 a1) = nowNs a1 ) ∧ (imgOf (onIsl a0 a1) = imgOf a1 ) ∧
    (serving (onIsl a0 a1) = serving a1 ) ∧ (working (onIsl a0 a1) = working a1 ) ∧ (alive (onIsl a0 a1) = alive a1 ) ∧
    (upState (onIsl a0 a1) = upState a1 ) ∧ (portOn (onIsl a0 a1) = portOn a1 ) ∧ (∀ (e : Env), dieNo e (onIsl a0 a1) = dieNo e a1 ) ∧
    (∀ (e : Env), nodeNo e (onIsl a0 a1) = nodeNo e a1 ) ∧ (∀ (e : Env) (c : Nat), coreId e (onIsl a0 a1) c = coreId e a1 c) ∧ (∀ (e : Env) (c : Nat), unitId e (onIsl a0 a1) c = unitId e a1 c) ∧
    (∀ (c : Nat), chan (onIsl a0 a1) c = chan a1 c) ∧ (∀ (x : Word), entOk (onIsl a0 a1) x = entOk a1 x) ∧ (∀ (c : Nat), groupOf (onIsl a0 a1) c = groupOf a1 c) ∧
    (∀ (c : Nat), probing (onIsl a0 a1) c = probing a1 c) ∧ (∀ (e : Env) (x : Word), presentCore e (onIsl a0 a1) x = presentCore e a1 x) := by
  have k := (onIsl_only a0 a1).keep
  exact ⟨fun c => cell_congr (k .cells (by decide)) c, fun c => hubc_congr (k .hubc (by decide)) c, fun c => region_congr (k .regions (by decide)) c, fun x => entity_congr (k .casc (by decide)) x, nowNs_congr (k .time (by decide)), imgOf_congr (k .img (by decide)), serving_congr (k .sys (by decide)), working_congr (k .sys (by decide)), alive_congr (k .sys (by decide)), upState_congr (k .sys (by decide)), portOn_congr (k .sys (by decide)), fun e  => dieNo_congr e (k .img (by decide)), fun e  => nodeNo_congr e (k .img (by decide)), fun e c => coreId_congr e (k .img (by decide)) c, fun e c => unitId_congr e (k .img (by decide)) c, fun c => chan_congr (k .cmd (by decide)) c, fun x => entOk_congr (k .img (by decide)) x, fun c => groupOf_congr (k .img (by decide)) (k .jobs (by decide)) c, fun c => probing_congr (k .age (by decide)) c, fun e x => presentCore_congr e (k .img (by decide)) x⟩

@[simp] theorem onAge_reads (a0 a1) :
    (∀ (c : Nat), cell (onAge a0 a1) c = cell a1 c) ∧ (∀ (c : Nat), Sys2Proof.Machine.hubc (onAge a0 a1) c = Sys2Proof.Machine.hubc a1 c) ∧ (∀ (c : Nat), region (onAge a0 a1) c = region a1 c) ∧
    (∀ (x : Word), entity (onAge a0 a1) x = entity a1 x) ∧ (nowNs (onAge a0 a1) = nowNs a1 ) ∧ (imgOf (onAge a0 a1) = imgOf a1 ) ∧
    (serving (onAge a0 a1) = serving a1 ) ∧ (working (onAge a0 a1) = working a1 ) ∧ (alive (onAge a0 a1) = alive a1 ) ∧
    (upState (onAge a0 a1) = upState a1 ) ∧ (portOn (onAge a0 a1) = portOn a1 ) ∧ (∀ (e : Env), dieNo e (onAge a0 a1) = dieNo e a1 ) ∧
    (∀ (e : Env), nodeNo e (onAge a0 a1) = nodeNo e a1 ) ∧ (∀ (e : Env) (c : Nat), coreId e (onAge a0 a1) c = coreId e a1 c) ∧ (∀ (e : Env) (c : Nat), unitId e (onAge a0 a1) c = unitId e a1 c) ∧
    (∀ (c : Nat), chan (onAge a0 a1) c = chan a1 c) ∧ (∀ (x : Word), entOk (onAge a0 a1) x = entOk a1 x) ∧ (∀ (c : Nat), groupOf (onAge a0 a1) c = groupOf a1 c) ∧
    (∀ (e : Env) (x : Word), presentCore e (onAge a0 a1) x = presentCore e a1 x) := by
  have k := (onAge_only a0 a1).keep
  exact ⟨fun c => cell_congr (k .cells (by decide)) c, fun c => hubc_congr (k .hubc (by decide)) c, fun c => region_congr (k .regions (by decide)) c, fun x => entity_congr (k .casc (by decide)) x, nowNs_congr (k .time (by decide)), imgOf_congr (k .img (by decide)), serving_congr (k .sys (by decide)), working_congr (k .sys (by decide)), alive_congr (k .sys (by decide)), upState_congr (k .sys (by decide)), portOn_congr (k .sys (by decide)), fun e  => dieNo_congr e (k .img (by decide)), fun e  => nodeNo_congr e (k .img (by decide)), fun e c => coreId_congr e (k .img (by decide)) c, fun e c => unitId_congr e (k .img (by decide)) c, fun c => chan_congr (k .cmd (by decide)) c, fun x => entOk_congr (k .img (by decide)) x, fun c => groupOf_congr (k .img (by decide)) (k .jobs (by decide)) c, fun e x => presentCore_congr e (k .img (by decide)) x⟩

@[simp] theorem onZone_reads (a0 a1 a2) :
    (∀ (c : Nat), cell (onZone a0 a1 a2) c = cell a2 c) ∧ (∀ (c : Nat), Sys2Proof.Machine.hubc (onZone a0 a1 a2) c = Sys2Proof.Machine.hubc a2 c) ∧ (∀ (c : Nat), region (onZone a0 a1 a2) c = region a2 c) ∧
    (∀ (x : Word), entity (onZone a0 a1 a2) x = entity a2 x) ∧ (nowNs (onZone a0 a1 a2) = nowNs a2 ) ∧ (imgOf (onZone a0 a1 a2) = imgOf a2 ) ∧
    (serving (onZone a0 a1 a2) = serving a2 ) ∧ (working (onZone a0 a1 a2) = working a2 ) ∧ (alive (onZone a0 a1 a2) = alive a2 ) ∧
    (upState (onZone a0 a1 a2) = upState a2 ) ∧ (portOn (onZone a0 a1 a2) = portOn a2 ) ∧ (∀ (e : Env), dieNo e (onZone a0 a1 a2) = dieNo e a2 ) ∧
    (∀ (e : Env), nodeNo e (onZone a0 a1 a2) = nodeNo e a2 ) ∧ (∀ (e : Env) (c : Nat), coreId e (onZone a0 a1 a2) c = coreId e a2 c) ∧ (∀ (e : Env) (c : Nat), unitId e (onZone a0 a1 a2) c = unitId e a2 c) ∧
    (∀ (c : Nat), chan (onZone a0 a1 a2) c = chan a2 c) ∧ (∀ (x : Word), entOk (onZone a0 a1 a2) x = entOk a2 x) ∧ (∀ (c : Nat), groupOf (onZone a0 a1 a2) c = groupOf a2 c) ∧
    (∀ (e : Env) (x : Word), presentCore e (onZone a0 a1 a2) x = presentCore e a2 x) := by
  have k := (onZone_only a0 a1 a2).keep
  exact ⟨fun c => cell_congr (k .cells (by decide)) c, fun c => hubc_congr (k .hubc (by decide)) c, fun c => region_congr (k .regions (by decide)) c, fun x => entity_congr (k .casc (by decide)) x, nowNs_congr (k .time (by decide)), imgOf_congr (k .img (by decide)), serving_congr (k .sys (by decide)), working_congr (k .sys (by decide)), alive_congr (k .sys (by decide)), upState_congr (k .sys (by decide)), portOn_congr (k .sys (by decide)), fun e  => dieNo_congr e (k .img (by decide)), fun e  => nodeNo_congr e (k .img (by decide)), fun e c => coreId_congr e (k .img (by decide)) c, fun e c => unitId_congr e (k .img (by decide)) c, fun c => chan_congr (k .cmd (by decide)) c, fun x => entOk_congr (k .img (by decide)) x, fun c => groupOf_congr (k .img (by decide)) (k .jobs (by decide)) c, fun e x => presentCore_congr e (k .img (by decide)) x⟩

@[simp] theorem onBc_reads (a0 a1) :
    (∀ (c : Nat), cell (onBc a0 a1) c = cell a1 c) ∧ (∀ (c : Nat), Sys2Proof.Machine.hubc (onBc a0 a1) c = Sys2Proof.Machine.hubc a1 c) ∧ (∀ (c : Nat), region (onBc a0 a1) c = region a1 c) ∧
    (∀ (x : Word), entity (onBc a0 a1) x = entity a1 x) ∧ (nowNs (onBc a0 a1) = nowNs a1 ) ∧ (imgOf (onBc a0 a1) = imgOf a1 ) ∧
    (serving (onBc a0 a1) = serving a1 ) ∧ (working (onBc a0 a1) = working a1 ) ∧ (alive (onBc a0 a1) = alive a1 ) ∧
    (upState (onBc a0 a1) = upState a1 ) ∧ (portOn (onBc a0 a1) = portOn a1 ) ∧ (∀ (e : Env), dieNo e (onBc a0 a1) = dieNo e a1 ) ∧
    (∀ (e : Env), nodeNo e (onBc a0 a1) = nodeNo e a1 ) ∧ (∀ (e : Env) (c : Nat), coreId e (onBc a0 a1) c = coreId e a1 c) ∧ (∀ (e : Env) (c : Nat), unitId e (onBc a0 a1) c = unitId e a1 c) ∧
    (∀ (c : Nat), chan (onBc a0 a1) c = chan a1 c) ∧ (∀ (x : Word), entOk (onBc a0 a1) x = entOk a1 x) ∧ (∀ (c : Nat), groupOf (onBc a0 a1) c = groupOf a1 c) ∧
    (∀ (c : Nat), probing (onBc a0 a1) c = probing a1 c) ∧ (∀ (e : Env) (x : Word), presentCore e (onBc a0 a1) x = presentCore e a1 x) := by
  have k := (onBc_only a0 a1).keep
  exact ⟨fun c => cell_congr (k .cells (by decide)) c, fun c => hubc_congr (k .hubc (by decide)) c, fun c => region_congr (k .regions (by decide)) c, fun x => entity_congr (k .casc (by decide)) x, nowNs_congr (k .time (by decide)), imgOf_congr (k .img (by decide)), serving_congr (k .sys (by decide)), working_congr (k .sys (by decide)), alive_congr (k .sys (by decide)), upState_congr (k .sys (by decide)), portOn_congr (k .sys (by decide)), fun e  => dieNo_congr e (k .img (by decide)), fun e  => nodeNo_congr e (k .img (by decide)), fun e c => coreId_congr e (k .img (by decide)) c, fun e c => unitId_congr e (k .img (by decide)) c, fun c => chan_congr (k .cmd (by decide)) c, fun x => entOk_congr (k .img (by decide)) x, fun c => groupOf_congr (k .img (by decide)) (k .jobs (by decide)) c, fun c => probing_congr (k .age (by decide)) c, fun e x => presentCore_congr e (k .img (by decide)) x⟩

@[simp] theorem onBoot_reads (a0 a1) :
    (∀ (c : Nat), cell (onBoot a0 a1) c = cell a1 c) ∧ (∀ (c : Nat), Sys2Proof.Machine.hubc (onBoot a0 a1) c = Sys2Proof.Machine.hubc a1 c) ∧ (∀ (c : Nat), region (onBoot a0 a1) c = region a1 c) ∧
    (∀ (x : Word), entity (onBoot a0 a1) x = entity a1 x) ∧ (nowNs (onBoot a0 a1) = nowNs a1 ) ∧ (imgOf (onBoot a0 a1) = imgOf a1 ) ∧
    (serving (onBoot a0 a1) = serving a1 ) ∧ (working (onBoot a0 a1) = working a1 ) ∧ (alive (onBoot a0 a1) = alive a1 ) ∧
    (upState (onBoot a0 a1) = upState a1 ) ∧ (portOn (onBoot a0 a1) = portOn a1 ) ∧ (∀ (e : Env), dieNo e (onBoot a0 a1) = dieNo e a1 ) ∧
    (∀ (e : Env), nodeNo e (onBoot a0 a1) = nodeNo e a1 ) ∧ (∀ (e : Env) (c : Nat), coreId e (onBoot a0 a1) c = coreId e a1 c) ∧ (∀ (e : Env) (c : Nat), unitId e (onBoot a0 a1) c = unitId e a1 c) ∧
    (∀ (c : Nat), chan (onBoot a0 a1) c = chan a1 c) ∧ (∀ (x : Word), entOk (onBoot a0 a1) x = entOk a1 x) ∧ (∀ (c : Nat), groupOf (onBoot a0 a1) c = groupOf a1 c) ∧
    (∀ (c : Nat), probing (onBoot a0 a1) c = probing a1 c) ∧ (∀ (e : Env) (x : Word), presentCore e (onBoot a0 a1) x = presentCore e a1 x) := by
  have k := (onBoot_only a0 a1).keep
  exact ⟨fun c => cell_congr (k .cells (by decide)) c, fun c => hubc_congr (k .hubc (by decide)) c, fun c => region_congr (k .regions (by decide)) c, fun x => entity_congr (k .casc (by decide)) x, nowNs_congr (k .time (by decide)), imgOf_congr (k .img (by decide)), serving_congr (k .sys (by decide)), working_congr (k .sys (by decide)), alive_congr (k .sys (by decide)), upState_congr (k .sys (by decide)), portOn_congr (k .sys (by decide)), fun e  => dieNo_congr e (k .img (by decide)), fun e  => nodeNo_congr e (k .img (by decide)), fun e c => coreId_congr e (k .img (by decide)) c, fun e c => unitId_congr e (k .img (by decide)) c, fun c => chan_congr (k .cmd (by decide)) c, fun x => entOk_congr (k .img (by decide)) x, fun c => groupOf_congr (k .img (by decide)) (k .jobs (by decide)) c, fun c => probing_congr (k .age (by decide)) c, fun e x => presentCore_congr e (k .img (by decide)) x⟩

@[simp] theorem onCasc_reads (a0 a1) :
    (onCasc a0 a1).free = a1.free ∧ (onCasc a0 a1).sys = a1.sys ∧ (onCasc a0 a1).isl = a1.isl ∧
    (onCasc a0 a1).time = a1.time ∧ (onCasc a0 a1).regions = a1.regions ∧ (onCasc a0 a1).cells = a1.cells ∧
    (onCasc a0 a1).hubc = a1.hubc ∧ (onCasc a0 a1).res = a1.res ∧ (onCasc a0 a1).dig = a1.dig ∧
    (onCasc a0 a1).xs = a1.xs ∧ (onCasc a0 a1).ens = a1.ens ∧ (onCasc a0 a1).age = a1.age ∧
    (onCasc a0 a1).fab = a1.fab ∧ (onCasc a0 a1).sb = a1.sb ∧ (onCasc a0 a1).bc = a1.bc ∧
    (onCasc a0 a1).jobs = a1.jobs ∧ (onCasc a0 a1).mgt = a1.mgt ∧ (onCasc a0 a1).cmd = a1.cmd ∧
    (onCasc a0 a1).prot = a1.prot ∧ (onCasc a0 a1).regs = a1.regs ∧ (onCasc a0 a1).mem = a1.mem ∧
    (onCasc a0 a1).dma = a1.dma ∧ (onCasc a0 a1).trc = a1.trc ∧ (onCasc a0 a1).nid = a1.nid ∧
    (onCasc a0 a1).log = a1.log ∧ (onCasc a0 a1).boot = a1.boot ∧ (onCasc a0 a1).img = a1.img ∧
    (onCasc a0 a1).reports = a1.reports ∧ (onCasc a0 a1).posted = a1.posted ∧ (onCasc a0 a1).nvPosted = a1.nvPosted ∧
    (∀ (c : Nat), cell (onCasc a0 a1) c = cell a1 c) ∧ (∀ (c : Nat), Sys2Proof.Machine.hubc (onCasc a0 a1) c = Sys2Proof.Machine.hubc a1 c) ∧ (∀ (c : Nat), region (onCasc a0 a1) c = region a1 c) ∧
    (nowNs (onCasc a0 a1) = nowNs a1 ) ∧ (imgOf (onCasc a0 a1) = imgOf a1 ) ∧ (serving (onCasc a0 a1) = serving a1 ) ∧
    (working (onCasc a0 a1) = working a1 ) ∧ (alive (onCasc a0 a1) = alive a1 ) ∧ (upState (onCasc a0 a1) = upState a1 ) ∧
    (portOn (onCasc a0 a1) = portOn a1 ) ∧ (∀ (e : Env), dieNo e (onCasc a0 a1) = dieNo e a1 ) ∧ (∀ (e : Env), nodeNo e (onCasc a0 a1) = nodeNo e a1 ) ∧
    (∀ (e : Env) (c : Nat), coreId e (onCasc a0 a1) c = coreId e a1 c) ∧ (∀ (e : Env) (c : Nat), unitId e (onCasc a0 a1) c = unitId e a1 c) ∧ (∀ (c : Nat), chan (onCasc a0 a1) c = chan a1 c) ∧
    (∀ (x : Word), entOk (onCasc a0 a1) x = entOk a1 x) ∧ (∀ (c : Nat), groupOf (onCasc a0 a1) c = groupOf a1 c) ∧ (∀ (c : Nat), probing (onCasc a0 a1) c = probing a1 c) ∧
    (∀ (e : Env) (x : Word), presentCore e (onCasc a0 a1) x = presentCore e a1 x) := by
  have k := (onCasc_only a0 a1).keep
  exact ⟨k .free (by decide), k .sys (by decide), k .isl (by decide), k .time (by decide), k .regions (by decide), k .cells (by decide), k .hubc (by decide), k .res (by decide), k .dig (by decide), k .xs (by decide), k .ens (by decide), k .age (by decide), k .fab (by decide), k .sb (by decide), k .bc (by decide), k .jobs (by decide), k .mgt (by decide), k .cmd (by decide), k .prot (by decide), k .regs (by decide), k .mem (by decide), k .dma (by decide), k .trc (by decide), k .nid (by decide), k .log (by decide), k .boot (by decide), k .img (by decide), k .reports (by decide), k .ram (by decide), k .nvm (by decide), fun c => cell_congr (k .cells (by decide)) c, fun c => hubc_congr (k .hubc (by decide)) c, fun c => region_congr (k .regions (by decide)) c, nowNs_congr (k .time (by decide)), imgOf_congr (k .img (by decide)), serving_congr (k .sys (by decide)), working_congr (k .sys (by decide)), alive_congr (k .sys (by decide)), upState_congr (k .sys (by decide)), portOn_congr (k .sys (by decide)), fun e  => dieNo_congr e (k .img (by decide)), fun e  => nodeNo_congr e (k .img (by decide)), fun e c => coreId_congr e (k .img (by decide)) c, fun e c => unitId_congr e (k .img (by decide)) c, fun c => chan_congr (k .cmd (by decide)) c, fun x => entOk_congr (k .img (by decide)) x, fun c => groupOf_congr (k .img (by decide)) (k .jobs (by decide)) c, fun c => probing_congr (k .age (by decide)) c, fun e x => presentCore_congr e (k .img (by decide)) x⟩

@[simp] theorem onSeq_reads (a0 a1 a2) :
    (∀ (c : Nat), cell (onSeq a0 a1 a2) c = cell a2 c) ∧ (∀ (c : Nat), Sys2Proof.Machine.hubc (onSeq a0 a1 a2) c = Sys2Proof.Machine.hubc a2 c) ∧ (∀ (c : Nat), region (onSeq a0 a1 a2) c = region a2 c) ∧
    (∀ (x : Word), entity (onSeq a0 a1 a2) x = entity a2 x) ∧ (nowNs (onSeq a0 a1 a2) = nowNs a2 ) ∧ (imgOf (onSeq a0 a1 a2) = imgOf a2 ) ∧
    (serving (onSeq a0 a1 a2) = serving a2 ) ∧ (working (onSeq a0 a1 a2) = working a2 ) ∧ (alive (onSeq a0 a1 a2) = alive a2 ) ∧
    (upState (onSeq a0 a1 a2) = upState a2 ) ∧ (portOn (onSeq a0 a1 a2) = portOn a2 ) ∧ (∀ (e : Env), dieNo e (onSeq a0 a1 a2) = dieNo e a2 ) ∧
    (∀ (e : Env), nodeNo e (onSeq a0 a1 a2) = nodeNo e a2 ) ∧ (∀ (e : Env) (c : Nat), coreId e (onSeq a0 a1 a2) c = coreId e a2 c) ∧ (∀ (e : Env) (c : Nat), unitId e (onSeq a0 a1 a2) c = unitId e a2 c) ∧
    (∀ (x : Word), entOk (onSeq a0 a1 a2) x = entOk a2 x) ∧ (∀ (c : Nat), groupOf (onSeq a0 a1 a2) c = groupOf a2 c) ∧ (∀ (c : Nat), probing (onSeq a0 a1 a2) c = probing a2 c) ∧
    (∀ (e : Env) (x : Word), presentCore e (onSeq a0 a1 a2) x = presentCore e a2 x) := by
  have k := (onSeq_only a0 a1 a2).keep
  exact ⟨fun c => cell_congr (k .cells (by decide)) c, fun c => hubc_congr (k .hubc (by decide)) c, fun c => region_congr (k .regions (by decide)) c, fun x => entity_congr (k .casc (by decide)) x, nowNs_congr (k .time (by decide)), imgOf_congr (k .img (by decide)), serving_congr (k .sys (by decide)), working_congr (k .sys (by decide)), alive_congr (k .sys (by decide)), upState_congr (k .sys (by decide)), portOn_congr (k .sys (by decide)), fun e  => dieNo_congr e (k .img (by decide)), fun e  => nodeNo_congr e (k .img (by decide)), fun e c => coreId_congr e (k .img (by decide)) c, fun e c => unitId_congr e (k .img (by decide)) c, fun x => entOk_congr (k .img (by decide)) x, fun c => groupOf_congr (k .img (by decide)) (k .jobs (by decide)) c, fun c => probing_congr (k .age (by decide)) c, fun e x => presentCore_congr e (k .img (by decide)) x⟩

@[simp] theorem onDig_reads (a0 a1) :
    (∀ (c : Nat), cell (onDig a0 a1) c = cell a1 c) ∧ (∀ (c : Nat), Sys2Proof.Machine.hubc (onDig a0 a1) c = Sys2Proof.Machine.hubc a1 c) ∧ (∀ (c : Nat), region (onDig a0 a1) c = region a1 c) ∧
    (∀ (x : Word), entity (onDig a0 a1) x = entity a1 x) ∧ (nowNs (onDig a0 a1) = nowNs a1 ) ∧ (imgOf (onDig a0 a1) = imgOf a1 ) ∧
    (serving (onDig a0 a1) = serving a1 ) ∧ (working (onDig a0 a1) = working a1 ) ∧ (alive (onDig a0 a1) = alive a1 ) ∧
    (upState (onDig a0 a1) = upState a1 ) ∧ (portOn (onDig a0 a1) = portOn a1 ) ∧ (∀ (e : Env), dieNo e (onDig a0 a1) = dieNo e a1 ) ∧
    (∀ (e : Env), nodeNo e (onDig a0 a1) = nodeNo e a1 ) ∧ (∀ (e : Env) (c : Nat), coreId e (onDig a0 a1) c = coreId e a1 c) ∧ (∀ (e : Env) (c : Nat), unitId e (onDig a0 a1) c = unitId e a1 c) ∧
    (∀ (c : Nat), chan (onDig a0 a1) c = chan a1 c) ∧ (∀ (x : Word), entOk (onDig a0 a1) x = entOk a1 x) ∧ (∀ (c : Nat), groupOf (onDig a0 a1) c = groupOf a1 c) ∧
    (∀ (c : Nat), probing (onDig a0 a1) c = probing a1 c) ∧ (∀ (e : Env) (x : Word), presentCore e (onDig a0 a1) x = presentCore e a1 x) := by
  have k := (onDig_only a0 a1).keep
  exact ⟨fun c => cell_congr (k .cells (by decide)) c, fun c => hubc_congr (k .hubc (by decide)) c, fun c => region_congr (k .regions (by decide)) c, fun x => entity_congr (k .casc (by decide)) x, nowNs_congr (k .time (by decide)), imgOf_congr (k .img (by decide)), serving_congr (k .sys (by decide)), working_congr (k .sys (by decide)), alive_congr (k .sys (by decide)), upState_congr (k .sys (by decide)), portOn_congr (k .sys (by decide)), fun e  => dieNo_congr e (k .img (by decide)), fun e  => nodeNo_congr e (k .img (by decide)), fun e c => coreId_congr e (k .img (by decide)) c, fun e c => unitId_congr e (k .img (by decide)) c, fun c => chan_congr (k .cmd (by decide)) c, fun x => entOk_congr (k .img (by decide)) x, fun c => groupOf_congr (k .img (by decide)) (k .jobs (by decide)) c, fun c => probing_congr (k .age (by decide)) c, fun e x => presentCore_congr e (k .img (by decide)) x⟩

@[simp] theorem onPipe_reads (a0 a1 a2) :
    (∀ (c : Nat), cell (onPipe a0 a1 a2) c = cell a2 c) ∧ (∀ (c : Nat), Sys2Proof.Machine.hubc (onPipe a0 a1 a2) c = Sys2Proof.Machine.hubc a2 c) ∧ (∀ (c : Nat), region (onPipe a0 a1 a2) c = region a2 c) ∧
    (∀ (x : Word), entity (onPipe a0 a1 a2) x = entity a2 x) ∧ (nowNs (onPipe a0 a1 a2) = nowNs a2 ) ∧ (imgOf (onPipe a0 a1 a2) = imgOf a2 ) ∧
    (serving (onPipe a0 a1 a2) = serving a2 ) ∧ (working (onPipe a0 a1 a2) = working a2 ) ∧ (alive (onPipe a0 a1 a2) = alive a2 ) ∧
    (upState (onPipe a0 a1 a2) = upState a2 ) ∧ (portOn (onPipe a0 a1 a2) = portOn a2 ) ∧ (∀ (e : Env), dieNo e (onPipe a0 a1 a2) = dieNo e a2 ) ∧
    (∀ (e : Env), nodeNo e (onPipe a0 a1 a2) = nodeNo e a2 ) ∧ (∀ (e : Env) (c : Nat), coreId e (onPipe a0 a1 a2) c = coreId e a2 c) ∧ (∀ (e : Env) (c : Nat), unitId e (onPipe a0 a1 a2) c = unitId e a2 c) ∧
    (∀ (c : Nat), chan (onPipe a0 a1 a2) c = chan a2 c) ∧ (∀ (x : Word), entOk (onPipe a0 a1 a2) x = entOk a2 x) ∧ (∀ (c : Nat), groupOf (onPipe a0 a1 a2) c = groupOf a2 c) ∧
    (∀ (c : Nat), probing (onPipe a0 a1 a2) c = probing a2 c) ∧ (∀ (e : Env) (x : Word), presentCore e (onPipe a0 a1 a2) x = presentCore e a2 x) := by
  have k := (onPipe_only a0 a1 a2).keep
  exact ⟨fun c => cell_congr (k .cells (by decide)) c, fun c => hubc_congr (k .hubc (by decide)) c, fun c => region_congr (k .regions (by decide)) c, fun x => entity_congr (k .casc (by decide)) x, nowNs_congr (k .time (by decide)), imgOf_congr (k .img (by decide)), serving_congr (k .sys (by decide)), working_congr (k .sys (by decide)), alive_congr (k .sys (by decide)), upState_congr (k .sys (by decide)), portOn_congr (k .sys (by decide)), fun e  => dieNo_congr e (k .img (by decide)), fun e  => nodeNo_congr e (k .img (by decide)), fun e c => coreId_congr e (k .img (by decide)) c, fun e c => unitId_congr e (k .img (by decide)) c, fun c => chan_congr (k .cmd (by decide)) c, fun x => entOk_congr (k .img (by decide)) x, fun c => groupOf_congr (k .img (by decide)) (k .jobs (by decide)) c, fun c => probing_congr (k .age (by decide)) c, fun e x => presentCore_congr e (k .img (by decide)) x⟩

@[simp] theorem onEpoch_reads (a0 a1 a2) :
    (∀ (c : Nat), cell (onEpoch a0 a1 a2) c = cell a2 c) ∧ (∀ (c : Nat), Sys2Proof.Machine.hubc (onEpoch a0 a1 a2) c = Sys2Proof.Machine.hubc a2 c) ∧ (∀ (c : Nat), region (onEpoch a0 a1 a2) c = region a2 c) ∧
    (∀ (x : Word), entity (onEpoch a0 a1 a2) x = entity a2 x) ∧ (nowNs (onEpoch a0 a1 a2) = nowNs a2 ) ∧ (imgOf (onEpoch a0 a1 a2) = imgOf a2 ) ∧
    (serving (onEpoch a0 a1 a2) = serving a2 ) ∧ (working (onEpoch a0 a1 a2) = working a2 ) ∧ (alive (onEpoch a0 a1 a2) = alive a2 ) ∧
    (upState (onEpoch a0 a1 a2) = upState a2 ) ∧ (portOn (onEpoch a0 a1 a2) = portOn a2 ) ∧ (∀ (e : Env), dieNo e (onEpoch a0 a1 a2) = dieNo e a2 ) ∧
    (∀ (e : Env), nodeNo e (onEpoch a0 a1 a2) = nodeNo e a2 ) ∧ (∀ (e : Env) (c : Nat), coreId e (onEpoch a0 a1 a2) c = coreId e a2 c) ∧ (∀ (e : Env) (c : Nat), unitId e (onEpoch a0 a1 a2) c = unitId e a2 c) ∧
    (∀ (c : Nat), chan (onEpoch a0 a1 a2) c = chan a2 c) ∧ (∀ (x : Word), entOk (onEpoch a0 a1 a2) x = entOk a2 x) ∧ (∀ (c : Nat), groupOf (onEpoch a0 a1 a2) c = groupOf a2 c) ∧
    (∀ (c : Nat), probing (onEpoch a0 a1 a2) c = probing a2 c) ∧ (∀ (e : Env) (x : Word), presentCore e (onEpoch a0 a1 a2) x = presentCore e a2 x) := by
  have k := (onEpoch_only a0 a1 a2).keep
  exact ⟨fun c => cell_congr (k .cells (by decide)) c, fun c => hubc_congr (k .hubc (by decide)) c, fun c => region_congr (k .regions (by decide)) c, fun x => entity_congr (k .casc (by decide)) x, nowNs_congr (k .time (by decide)), imgOf_congr (k .img (by decide)), serving_congr (k .sys (by decide)), working_congr (k .sys (by decide)), alive_congr (k .sys (by decide)), upState_congr (k .sys (by decide)), portOn_congr (k .sys (by decide)), fun e  => dieNo_congr e (k .img (by decide)), fun e  => nodeNo_congr e (k .img (by decide)), fun e c => coreId_congr e (k .img (by decide)) c, fun e c => unitId_congr e (k .img (by decide)) c, fun c => chan_congr (k .cmd (by decide)) c, fun x => entOk_congr (k .img (by decide)) x, fun c => groupOf_congr (k .img (by decide)) (k .jobs (by decide)) c, fun c => probing_congr (k .age (by decide)) c, fun e x => presentCore_congr e (k .img (by decide)) x⟩

@[simp] theorem onMem_reads (a0 a1) :
    (∀ (c : Nat), cell (onMem a0 a1) c = cell a1 c) ∧ (∀ (c : Nat), Sys2Proof.Machine.hubc (onMem a0 a1) c = Sys2Proof.Machine.hubc a1 c) ∧ (∀ (c : Nat), region (onMem a0 a1) c = region a1 c) ∧
    (∀ (x : Word), entity (onMem a0 a1) x = entity a1 x) ∧ (nowNs (onMem a0 a1) = nowNs a1 ) ∧ (imgOf (onMem a0 a1) = imgOf a1 ) ∧
    (serving (onMem a0 a1) = serving a1 ) ∧ (working (onMem a0 a1) = working a1 ) ∧ (alive (onMem a0 a1) = alive a1 ) ∧
    (upState (onMem a0 a1) = upState a1 ) ∧ (portOn (onMem a0 a1) = portOn a1 ) ∧ (∀ (e : Env), dieNo e (onMem a0 a1) = dieNo e a1 ) ∧
    (∀ (e : Env), nodeNo e (onMem a0 a1) = nodeNo e a1 ) ∧ (∀ (e : Env) (c : Nat), coreId e (onMem a0 a1) c = coreId e a1 c) ∧ (∀ (e : Env) (c : Nat), unitId e (onMem a0 a1) c = unitId e a1 c) ∧
    (∀ (c : Nat), chan (onMem a0 a1) c = chan a1 c) ∧ (∀ (x : Word), entOk (onMem a0 a1) x = entOk a1 x) ∧ (∀ (c : Nat), groupOf (onMem a0 a1) c = groupOf a1 c) ∧
    (∀ (c : Nat), probing (onMem a0 a1) c = probing a1 c) ∧ (∀ (e : Env) (x : Word), presentCore e (onMem a0 a1) x = presentCore e a1 x) := by
  have k := (onMem_only a0 a1).keep
  exact ⟨fun c => cell_congr (k .cells (by decide)) c, fun c => hubc_congr (k .hubc (by decide)) c, fun c => region_congr (k .regions (by decide)) c, fun x => entity_congr (k .casc (by decide)) x, nowNs_congr (k .time (by decide)), imgOf_congr (k .img (by decide)), serving_congr (k .sys (by decide)), working_congr (k .sys (by decide)), alive_congr (k .sys (by decide)), upState_congr (k .sys (by decide)), portOn_congr (k .sys (by decide)), fun e  => dieNo_congr e (k .img (by decide)), fun e  => nodeNo_congr e (k .img (by decide)), fun e c => coreId_congr e (k .img (by decide)) c, fun e c => unitId_congr e (k .img (by decide)) c, fun c => chan_congr (k .cmd (by decide)) c, fun x => entOk_congr (k .img (by decide)) x, fun c => groupOf_congr (k .img (by decide)) (k .jobs (by decide)) c, fun c => probing_congr (k .age (by decide)) c, fun e x => presentCore_congr e (k .img (by decide)) x⟩

@[simp] theorem onDma_reads (a0 a1) :
    (∀ (c : Nat), cell (onDma a0 a1) c = cell a1 c) ∧ (∀ (c : Nat), Sys2Proof.Machine.hubc (onDma a0 a1) c = Sys2Proof.Machine.hubc a1 c) ∧ (∀ (c : Nat), region (onDma a0 a1) c = region a1 c) ∧
    (∀ (x : Word), entity (onDma a0 a1) x = entity a1 x) ∧ (nowNs (onDma a0 a1) = nowNs a1 ) ∧ (imgOf (onDma a0 a1) = imgOf a1 ) ∧
    (serving (onDma a0 a1) = serving a1 ) ∧ (working (onDma a0 a1) = working a1 ) ∧ (alive (onDma a0 a1) = alive a1 ) ∧
    (upState (onDma a0 a1) = upState a1 ) ∧ (portOn (onDma a0 a1) = portOn a1 ) ∧ (∀ (e : Env), dieNo e (onDma a0 a1) = dieNo e a1 ) ∧
    (∀ (e : Env), nodeNo e (onDma a0 a1) = nodeNo e a1 ) ∧ (∀ (e : Env) (c : Nat), coreId e (onDma a0 a1) c = coreId e a1 c) ∧ (∀ (e : Env) (c : Nat), unitId e (onDma a0 a1) c = unitId e a1 c) ∧
    (∀ (c : Nat), chan (onDma a0 a1) c = chan a1 c) ∧ (∀ (x : Word), entOk (onDma a0 a1) x = entOk a1 x) ∧ (∀ (c : Nat), groupOf (onDma a0 a1) c = groupOf a1 c) ∧
    (∀ (c : Nat), probing (onDma a0 a1) c = probing a1 c) ∧ (∀ (e : Env) (x : Word), presentCore e (onDma a0 a1) x = presentCore e a1 x) := by
  have k := (onDma_only a0 a1).keep
  exact ⟨fun c => cell_congr (k .cells (by decide)) c, fun c => hubc_congr (k .hubc (by decide)) c, fun c => region_congr (k .regions (by decide)) c, fun x => entity_congr (k .casc (by decide)) x, nowNs_congr (k .time (by decide)), imgOf_congr (k .img (by decide)), serving_congr (k .sys (by decide)), working_congr (k .sys (by decide)), alive_congr (k .sys (by decide)), upState_congr (k .sys (by decide)), portOn_congr (k .sys (by decide)), fun e  => dieNo_congr e (k .img (by decide)), fun e  => nodeNo_congr e (k .img (by decide)), fun e c => coreId_congr e (k .img (by decide)) c, fun e c => unitId_congr e (k .img (by decide)) c, fun c => chan_congr (k .cmd (by decide)) c, fun x => entOk_congr (k .img (by decide)) x, fun c => groupOf_congr (k .img (by decide)) (k .jobs (by decide)) c, fun c => probing_congr (k .age (by decide)) c, fun e x => presentCore_congr e (k .img (by decide)) x⟩

@[simp] theorem onDmaCh_reads (a0 a1 a2) :
    (∀ (c : Nat), cell (onDmaCh a0 a1 a2) c = cell a2 c) ∧ (∀ (c : Nat), Sys2Proof.Machine.hubc (onDmaCh a0 a1 a2) c = Sys2Proof.Machine.hubc a2 c) ∧ (∀ (c : Nat), region (onDmaCh a0 a1 a2) c = region a2 c) ∧
    (∀ (x : Word), entity (onDmaCh a0 a1 a2) x = entity a2 x) ∧ (nowNs (onDmaCh a0 a1 a2) = nowNs a2 ) ∧ (imgOf (onDmaCh a0 a1 a2) = imgOf a2 ) ∧
    (serving (onDmaCh a0 a1 a2) = serving a2 ) ∧ (working (onDmaCh a0 a1 a2) = working a2 ) ∧ (alive (onDmaCh a0 a1 a2) = alive a2 ) ∧
    (upState (onDmaCh a0 a1 a2) = upState a2 ) ∧ (portOn (onDmaCh a0 a1 a2) = portOn a2 ) ∧ (∀ (e : Env), dieNo e (onDmaCh a0 a1 a2) = dieNo e a2 ) ∧
    (∀ (e : Env), nodeNo e (onDmaCh a0 a1 a2) = nodeNo e a2 ) ∧ (∀ (e : Env) (c : Nat), coreId e (onDmaCh a0 a1 a2) c = coreId e a2 c) ∧ (∀ (e : Env) (c : Nat), unitId e (onDmaCh a0 a1 a2) c = unitId e a2 c) ∧
    (∀ (c : Nat), chan (onDmaCh a0 a1 a2) c = chan a2 c) ∧ (∀ (x : Word), entOk (onDmaCh a0 a1 a2) x = entOk a2 x) ∧ (∀ (c : Nat), groupOf (onDmaCh a0 a1 a2) c = groupOf a2 c) ∧
    (∀ (c : Nat), probing (onDmaCh a0 a1 a2) c = probing a2 c) ∧ (∀ (e : Env) (x : Word), presentCore e (onDmaCh a0 a1 a2) x = presentCore e a2 x) := by
  have k := (onDmaCh_only a0 a1 a2).keep
  exact ⟨fun c => cell_congr (k .cells (by decide)) c, fun c => hubc_congr (k .hubc (by decide)) c, fun c => region_congr (k .regions (by decide)) c, fun x => entity_congr (k .casc (by decide)) x, nowNs_congr (k .time (by decide)), imgOf_congr (k .img (by decide)), serving_congr (k .sys (by decide)), working_congr (k .sys (by decide)), alive_congr (k .sys (by decide)), upState_congr (k .sys (by decide)), portOn_congr (k .sys (by decide)), fun e  => dieNo_congr e (k .img (by decide)), fun e  => nodeNo_congr e (k .img (by decide)), fun e c => coreId_congr e (k .img (by decide)) c, fun e c => unitId_congr e (k .img (by decide)) c, fun c => chan_congr (k .cmd (by decide)) c, fun x => entOk_congr (k .img (by decide)) x, fun c => groupOf_congr (k .img (by decide)) (k .jobs (by decide)) c, fun c => probing_congr (k .age (by decide)) c, fun e x => presentCore_congr e (k .img (by decide)) x⟩

@[simp] theorem onEns_reads (a0 a1) :
    (∀ (c : Nat), cell (onEns a0 a1) c = cell a1 c) ∧ (∀ (c : Nat), Sys2Proof.Machine.hubc (onEns a0 a1) c = Sys2Proof.Machine.hubc a1 c) ∧ (∀ (c : Nat), region (onEns a0 a1) c = region a1 c) ∧
    (∀ (x : Word), entity (onEns a0 a1) x = entity a1 x) ∧ (nowNs (onEns a0 a1) = nowNs a1 ) ∧ (imgOf (onEns a0 a1) = imgOf a1 ) ∧
    (serving (onEns a0 a1) = serving a1 ) ∧ (working (onEns a0 a1) = working a1 ) ∧ (alive (onEns a0 a1) = alive a1 ) ∧
    (upState (onEns a0 a1) = upState a1 ) ∧ (portOn (onEns a0 a1) = portOn a1 ) ∧ (∀ (e : Env), dieNo e (onEns a0 a1) = dieNo e a1 ) ∧
    (∀ (e : Env), nodeNo e (onEns a0 a1) = nodeNo e a1 ) ∧ (∀ (e : Env) (c : Nat), coreId e (onEns a0 a1) c = coreId e a1 c) ∧ (∀ (e : Env) (c : Nat), unitId e (onEns a0 a1) c = unitId e a1 c) ∧
    (∀ (c : Nat), chan (onEns a0 a1) c = chan a1 c) ∧ (∀ (x : Word), entOk (onEns a0 a1) x = entOk a1 x) ∧ (∀ (c : Nat), groupOf (onEns a0 a1) c = groupOf a1 c) ∧
    (∀ (c : Nat), probing (onEns a0 a1) c = probing a1 c) ∧ (∀ (e : Env) (x : Word), presentCore e (onEns a0 a1) x = presentCore e a1 x) := by
  have k := (onEns_only a0 a1).keep
  exact ⟨fun c => cell_congr (k .cells (by decide)) c, fun c => hubc_congr (k .hubc (by decide)) c, fun c => region_congr (k .regions (by decide)) c, fun x => entity_congr (k .casc (by decide)) x, nowNs_congr (k .time (by decide)), imgOf_congr (k .img (by decide)), serving_congr (k .sys (by decide)), working_congr (k .sys (by decide)), alive_congr (k .sys (by decide)), upState_congr (k .sys (by decide)), portOn_congr (k .sys (by decide)), fun e  => dieNo_congr e (k .img (by decide)), fun e  => nodeNo_congr e (k .img (by decide)), fun e c => coreId_congr e (k .img (by decide)) c, fun e c => unitId_congr e (k .img (by decide)) c, fun c => chan_congr (k .cmd (by decide)) c, fun x => entOk_congr (k .img (by decide)) x, fun c => groupOf_congr (k .img (by decide)) (k .jobs (by decide)) c, fun c => probing_congr (k .age (by decide)) c, fun e x => presentCore_congr e (k .img (by decide)) x⟩

@[simp] theorem onSlot_reads (a0 a1 a2) :
    (∀ (c : Nat), cell (onSlot a0 a1 a2) c = cell a2 c) ∧ (∀ (c : Nat), Sys2Proof.Machine.hubc (onSlot a0 a1 a2) c = Sys2Proof.Machine.hubc a2 c) ∧ (∀ (c : Nat), region (onSlot a0 a1 a2) c = region a2 c) ∧
    (∀ (x : Word), entity (onSlot a0 a1 a2) x = entity a2 x) ∧ (nowNs (onSlot a0 a1 a2) = nowNs a2 ) ∧ (imgOf (onSlot a0 a1 a2) = imgOf a2 ) ∧
    (serving (onSlot a0 a1 a2) = serving a2 ) ∧ (working (onSlot a0 a1 a2) = working a2 ) ∧ (alive (onSlot a0 a1 a2) = alive a2 ) ∧
    (upState (onSlot a0 a1 a2) = upState a2 ) ∧ (portOn (onSlot a0 a1 a2) = portOn a2 ) ∧ (∀ (e : Env), dieNo e (onSlot a0 a1 a2) = dieNo e a2 ) ∧
    (∀ (e : Env), nodeNo e (onSlot a0 a1 a2) = nodeNo e a2 ) ∧ (∀ (e : Env) (c : Nat), coreId e (onSlot a0 a1 a2) c = coreId e a2 c) ∧ (∀ (e : Env) (c : Nat), unitId e (onSlot a0 a1 a2) c = unitId e a2 c) ∧
    (∀ (c : Nat), chan (onSlot a0 a1 a2) c = chan a2 c) ∧ (∀ (x : Word), entOk (onSlot a0 a1 a2) x = entOk a2 x) ∧ (∀ (c : Nat), groupOf (onSlot a0 a1 a2) c = groupOf a2 c) ∧
    (∀ (c : Nat), probing (onSlot a0 a1 a2) c = probing a2 c) ∧ (∀ (e : Env) (x : Word), presentCore e (onSlot a0 a1 a2) x = presentCore e a2 x) := by
  have k := (onSlot_only a0 a1 a2).keep
  exact ⟨fun c => cell_congr (k .cells (by decide)) c, fun c => hubc_congr (k .hubc (by decide)) c, fun c => region_congr (k .regions (by decide)) c, fun x => entity_congr (k .casc (by decide)) x, nowNs_congr (k .time (by decide)), imgOf_congr (k .img (by decide)), serving_congr (k .sys (by decide)), working_congr (k .sys (by decide)), alive_congr (k .sys (by decide)), upState_congr (k .sys (by decide)), portOn_congr (k .sys (by decide)), fun e  => dieNo_congr e (k .img (by decide)), fun e  => nodeNo_congr e (k .img (by decide)), fun e c => coreId_congr e (k .img (by decide)) c, fun e c => unitId_congr e (k .img (by decide)) c, fun c => chan_congr (k .cmd (by decide)) c, fun x => entOk_congr (k .img (by decide)) x, fun c => groupOf_congr (k .img (by decide)) (k .jobs (by decide)) c, fun c => probing_congr (k .age (by decide)) c, fun e x => presentCore_congr e (k .img (by decide)) x⟩

@[simp] theorem onPass_reads (a0 a1 a2) :
    (∀ (c : Nat), cell (onPass a0 a1 a2) c = cell a2 c) ∧ (∀ (c : Nat), Sys2Proof.Machine.hubc (onPass a0 a1 a2) c = Sys2Proof.Machine.hubc a2 c) ∧ (∀ (c : Nat), region (onPass a0 a1 a2) c = region a2 c) ∧
    (∀ (x : Word), entity (onPass a0 a1 a2) x = entity a2 x) ∧ (nowNs (onPass a0 a1 a2) = nowNs a2 ) ∧ (imgOf (onPass a0 a1 a2) = imgOf a2 ) ∧
    (serving (onPass a0 a1 a2) = serving a2 ) ∧ (working (onPass a0 a1 a2) = working a2 ) ∧ (alive (onPass a0 a1 a2) = alive a2 ) ∧
    (upState (onPass a0 a1 a2) = upState a2 ) ∧ (portOn (onPass a0 a1 a2) = portOn a2 ) ∧ (∀ (e : Env), dieNo e (onPass a0 a1 a2) = dieNo e a2 ) ∧
    (∀ (e : Env), nodeNo e (onPass a0 a1 a2) = nodeNo e a2 ) ∧ (∀ (e : Env) (c : Nat), coreId e (onPass a0 a1 a2) c = coreId e a2 c) ∧ (∀ (e : Env) (c : Nat), unitId e (onPass a0 a1 a2) c = unitId e a2 c) ∧
    (∀ (c : Nat), chan (onPass a0 a1 a2) c = chan a2 c) ∧ (∀ (x : Word), entOk (onPass a0 a1 a2) x = entOk a2 x) ∧ (∀ (c : Nat), groupOf (onPass a0 a1 a2) c = groupOf a2 c) ∧
    (∀ (c : Nat), probing (onPass a0 a1 a2) c = probing a2 c) ∧ (∀ (e : Env) (x : Word), presentCore e (onPass a0 a1 a2) x = presentCore e a2 x) := by
  have k := (onPass_only a0 a1 a2).keep
  exact ⟨fun c => cell_congr (k .cells (by decide)) c, fun c => hubc_congr (k .hubc (by decide)) c, fun c => region_congr (k .regions (by decide)) c, fun x => entity_congr (k .casc (by decide)) x, nowNs_congr (k .time (by decide)), imgOf_congr (k .img (by decide)), serving_congr (k .sys (by decide)), working_congr (k .sys (by decide)), alive_congr (k .sys (by decide)), upState_congr (k .sys (by decide)), portOn_congr (k .sys (by decide)), fun e  => dieNo_congr e (k .img (by decide)), fun e  => nodeNo_congr e (k .img (by decide)), fun e c => coreId_congr e (k .img (by decide)) c, fun e c => unitId_congr e (k .img (by decide)) c, fun c => chan_congr (k .cmd (by decide)) c, fun x => entOk_congr (k .img (by decide)) x, fun c => groupOf_congr (k .img (by decide)) (k .jobs (by decide)) c, fun c => probing_congr (k .age (by decide)) c, fun e x => presentCore_congr e (k .img (by decide)) x⟩

@[simp] theorem onChan_reads (a0 a1 a2) :
    (∀ (c : Nat), cell (onChan a0 a1 a2) c = cell a2 c) ∧ (∀ (c : Nat), Sys2Proof.Machine.hubc (onChan a0 a1 a2) c = Sys2Proof.Machine.hubc a2 c) ∧ (∀ (c : Nat), region (onChan a0 a1 a2) c = region a2 c) ∧
    (∀ (x : Word), entity (onChan a0 a1 a2) x = entity a2 x) ∧ (nowNs (onChan a0 a1 a2) = nowNs a2 ) ∧ (imgOf (onChan a0 a1 a2) = imgOf a2 ) ∧
    (serving (onChan a0 a1 a2) = serving a2 ) ∧ (working (onChan a0 a1 a2) = working a2 ) ∧ (alive (onChan a0 a1 a2) = alive a2 ) ∧
    (upState (onChan a0 a1 a2) = upState a2 ) ∧ (portOn (onChan a0 a1 a2) = portOn a2 ) ∧ (∀ (e : Env), dieNo e (onChan a0 a1 a2) = dieNo e a2 ) ∧
    (∀ (e : Env), nodeNo e (onChan a0 a1 a2) = nodeNo e a2 ) ∧ (∀ (e : Env) (c : Nat), coreId e (onChan a0 a1 a2) c = coreId e a2 c) ∧ (∀ (e : Env) (c : Nat), unitId e (onChan a0 a1 a2) c = unitId e a2 c) ∧
    (∀ (x : Word), entOk (onChan a0 a1 a2) x = entOk a2 x) ∧ (∀ (c : Nat), groupOf (onChan a0 a1 a2) c = groupOf a2 c) ∧ (∀ (c : Nat), probing (onChan a0 a1 a2) c = probing a2 c) ∧
    (∀ (e : Env) (x : Word), presentCore e (onChan a0 a1 a2) x = presentCore e a2 x) := by
  have k := (onChan_only a0 a1 a2).keep
  exact ⟨fun c => cell_congr (k .cells (by decide)) c, fun c => hubc_congr (k .hubc (by decide)) c, fun c => region_congr (k .regions (by decide)) c, fun x => entity_congr (k .casc (by decide)) x, nowNs_congr (k .time (by decide)), imgOf_congr (k .img (by decide)), serving_congr (k .sys (by decide)), working_congr (k .sys (by decide)), alive_congr (k .sys (by decide)), upState_congr (k .sys (by decide)), portOn_congr (k .sys (by decide)), fun e  => dieNo_congr e (k .img (by decide)), fun e  => nodeNo_congr e (k .img (by decide)), fun e c => coreId_congr e (k .img (by decide)) c, fun e c => unitId_congr e (k .img (by decide)) c, fun x => entOk_congr (k .img (by decide)) x, fun c => groupOf_congr (k .img (by decide)) (k .jobs (by decide)) c, fun c => probing_congr (k .age (by decide)) c, fun e x => presentCore_congr e (k .img (by decide)) x⟩

@[simp] theorem onLane_reads (a0 a1 a2) :
    (onLane a0 a1 a2).free = a2.free ∧ (onLane a0 a1 a2).sys = a2.sys ∧ (onLane a0 a1 a2).isl = a2.isl ∧
    (onLane a0 a1 a2).time = a2.time ∧ (onLane a0 a1 a2).regions = a2.regions ∧ (onLane a0 a1 a2).hubc = a2.hubc ∧
    (onLane a0 a1 a2).res = a2.res ∧ (onLane a0 a1 a2).dig = a2.dig ∧ (onLane a0 a1 a2).xs = a2.xs ∧
    (onLane a0 a1 a2).ens = a2.ens ∧ (onLane a0 a1 a2).casc = a2.casc ∧ (onLane a0 a1 a2).age = a2.age ∧
    (onLane a0 a1 a2).fab = a2.fab ∧ (onLane a0 a1 a2).sb = a2.sb ∧ (onLane a0 a1 a2).bc = a2.bc ∧
    (onLane a0 a1 a2).jobs = a2.jobs ∧ (onLane a0 a1 a2).mgt = a2.mgt ∧ (onLane a0 a1 a2).cmd = a2.cmd ∧
    (onLane a0 a1 a2).prot = a2.prot ∧ (onLane a0 a1 a2).regs = a2.regs ∧ (onLane a0 a1 a2).mem = a2.mem ∧
    (onLane a0 a1 a2).dma = a2.dma ∧ (onLane a0 a1 a2).trc = a2.trc ∧ (onLane a0 a1 a2).nid = a2.nid ∧
    (onLane a0 a1 a2).log = a2.log ∧ (onLane a0 a1 a2).boot = a2.boot ∧ (onLane a0 a1 a2).img = a2.img ∧
    (onLane a0 a1 a2).reports = a2.reports ∧ (onLane a0 a1 a2).posted = a2.posted ∧ (onLane a0 a1 a2).nvPosted = a2.nvPosted ∧
    (∀ (c : Nat), Sys2Proof.Machine.hubc (onLane a0 a1 a2) c = Sys2Proof.Machine.hubc a2 c) ∧ (∀ (c : Nat), region (onLane a0 a1 a2) c = region a2 c) ∧ (∀ (x : Word), entity (onLane a0 a1 a2) x = entity a2 x) ∧
    (nowNs (onLane a0 a1 a2) = nowNs a2 ) ∧ (imgOf (onLane a0 a1 a2) = imgOf a2 ) ∧ (serving (onLane a0 a1 a2) = serving a2 ) ∧
    (working (onLane a0 a1 a2) = working a2 ) ∧ (alive (onLane a0 a1 a2) = alive a2 ) ∧ (upState (onLane a0 a1 a2) = upState a2 ) ∧
    (portOn (onLane a0 a1 a2) = portOn a2 ) ∧ (∀ (e : Env), dieNo e (onLane a0 a1 a2) = dieNo e a2 ) ∧ (∀ (e : Env), nodeNo e (onLane a0 a1 a2) = nodeNo e a2 ) ∧
    (∀ (e : Env) (c : Nat), coreId e (onLane a0 a1 a2) c = coreId e a2 c) ∧ (∀ (e : Env) (c : Nat), unitId e (onLane a0 a1 a2) c = unitId e a2 c) ∧ (∀ (c : Nat), chan (onLane a0 a1 a2) c = chan a2 c) ∧
    (∀ (x : Word), entOk (onLane a0 a1 a2) x = entOk a2 x) ∧ (∀ (c : Nat), groupOf (onLane a0 a1 a2) c = groupOf a2 c) ∧ (∀ (c : Nat), probing (onLane a0 a1 a2) c = probing a2 c) ∧
    (∀ (e : Env) (x : Word), presentCore e (onLane a0 a1 a2) x = presentCore e a2 x) := by
  have k := (onLane_only a0 a1 a2).keep
  exact ⟨k .free (by decide), k .sys (by decide), k .isl (by decide), k .time (by decide), k .regions (by decide), k .hubc (by decide), k .res (by decide), k .dig (by decide), k .xs (by decide), k .ens (by decide), k .casc (by decide), k .age (by decide), k .fab (by decide), k .sb (by decide), k .bc (by decide), k .jobs (by decide), k .mgt (by decide), k .cmd (by decide), k .prot (by decide), k .regs (by decide), k .mem (by decide), k .dma (by decide), k .trc (by decide), k .nid (by decide), k .log (by decide), k .boot (by decide), k .img (by decide), k .reports (by decide), k .ram (by decide), k .nvm (by decide), fun c => hubc_congr (k .hubc (by decide)) c, fun c => region_congr (k .regions (by decide)) c, fun x => entity_congr (k .casc (by decide)) x, nowNs_congr (k .time (by decide)), imgOf_congr (k .img (by decide)), serving_congr (k .sys (by decide)), working_congr (k .sys (by decide)), alive_congr (k .sys (by decide)), upState_congr (k .sys (by decide)), portOn_congr (k .sys (by decide)), fun e  => dieNo_congr e (k .img (by decide)), fun e  => nodeNo_congr e (k .img (by decide)), fun e c => coreId_congr e (k .img (by decide)) c, fun e c => unitId_congr e (k .img (by decide)) c, fun c => chan_congr (k .cmd (by decide)) c, fun x => entOk_congr (k .img (by decide)) x, fun c => groupOf_congr (k .img (by decide)) (k .jobs (by decide)) c, fun c => probing_congr (k .age (by decide)) c, fun e x => presentCore_congr e (k .img (by decide)) x⟩

@[simp] theorem onMgt_reads (a0 a1) :
    (∀ (c : Nat), cell (onMgt a0 a1) c = cell a1 c) ∧ (∀ (c : Nat), Sys2Proof.Machine.hubc (onMgt a0 a1) c = Sys2Proof.Machine.hubc a1 c) ∧ (∀ (c : Nat), region (onMgt a0 a1) c = region a1 c) ∧
    (∀ (x : Word), entity (onMgt a0 a1) x = entity a1 x) ∧ (nowNs (onMgt a0 a1) = nowNs a1 ) ∧ (imgOf (onMgt a0 a1) = imgOf a1 ) ∧
    (serving (onMgt a0 a1) = serving a1 ) ∧ (working (onMgt a0 a1) = working a1 ) ∧ (alive (onMgt a0 a1) = alive a1 ) ∧
    (upState (onMgt a0 a1) = upState a1 ) ∧ (portOn (onMgt a0 a1) = portOn a1 ) ∧ (∀ (e : Env), dieNo e (onMgt a0 a1) = dieNo e a1 ) ∧
    (∀ (e : Env), nodeNo e (onMgt a0 a1) = nodeNo e a1 ) ∧ (∀ (e : Env) (c : Nat), coreId e (onMgt a0 a1) c = coreId e a1 c) ∧ (∀ (e : Env) (c : Nat), unitId e (onMgt a0 a1) c = unitId e a1 c) ∧
    (∀ (c : Nat), chan (onMgt a0 a1) c = chan a1 c) ∧ (∀ (x : Word), entOk (onMgt a0 a1) x = entOk a1 x) ∧ (∀ (c : Nat), groupOf (onMgt a0 a1) c = groupOf a1 c) ∧
    (∀ (c : Nat), probing (onMgt a0 a1) c = probing a1 c) ∧ (∀ (e : Env) (x : Word), presentCore e (onMgt a0 a1) x = presentCore e a1 x) := by
  have k := (onMgt_only a0 a1).keep
  exact ⟨fun c => cell_congr (k .cells (by decide)) c, fun c => hubc_congr (k .hubc (by decide)) c, fun c => region_congr (k .regions (by decide)) c, fun x => entity_congr (k .casc (by decide)) x, nowNs_congr (k .time (by decide)), imgOf_congr (k .img (by decide)), serving_congr (k .sys (by decide)), working_congr (k .sys (by decide)), alive_congr (k .sys (by decide)), upState_congr (k .sys (by decide)), portOn_congr (k .sys (by decide)), fun e  => dieNo_congr e (k .img (by decide)), fun e  => nodeNo_congr e (k .img (by decide)), fun e c => coreId_congr e (k .img (by decide)) c, fun e c => unitId_congr e (k .img (by decide)) c, fun c => chan_congr (k .cmd (by decide)) c, fun x => entOk_congr (k .img (by decide)) x, fun c => groupOf_congr (k .img (by decide)) (k .jobs (by decide)) c, fun c => probing_congr (k .age (by decide)) c, fun e x => presentCore_congr e (k .img (by decide)) x⟩

@[simp] theorem onSeg_reads (a0 a1 a2) :
    (∀ (c : Nat), cell (onSeg a0 a1 a2) c = cell a2 c) ∧ (∀ (c : Nat), Sys2Proof.Machine.hubc (onSeg a0 a1 a2) c = Sys2Proof.Machine.hubc a2 c) ∧ (∀ (c : Nat), region (onSeg a0 a1 a2) c = region a2 c) ∧
    (∀ (x : Word), entity (onSeg a0 a1 a2) x = entity a2 x) ∧ (nowNs (onSeg a0 a1 a2) = nowNs a2 ) ∧ (imgOf (onSeg a0 a1 a2) = imgOf a2 ) ∧
    (serving (onSeg a0 a1 a2) = serving a2 ) ∧ (working (onSeg a0 a1 a2) = working a2 ) ∧ (alive (onSeg a0 a1 a2) = alive a2 ) ∧
    (upState (onSeg a0 a1 a2) = upState a2 ) ∧ (portOn (onSeg a0 a1 a2) = portOn a2 ) ∧ (∀ (e : Env), dieNo e (onSeg a0 a1 a2) = dieNo e a2 ) ∧
    (∀ (e : Env), nodeNo e (onSeg a0 a1 a2) = nodeNo e a2 ) ∧ (∀ (e : Env) (c : Nat), coreId e (onSeg a0 a1 a2) c = coreId e a2 c) ∧ (∀ (e : Env) (c : Nat), unitId e (onSeg a0 a1 a2) c = unitId e a2 c) ∧
    (∀ (c : Nat), chan (onSeg a0 a1 a2) c = chan a2 c) ∧ (∀ (x : Word), entOk (onSeg a0 a1 a2) x = entOk a2 x) ∧ (∀ (c : Nat), groupOf (onSeg a0 a1 a2) c = groupOf a2 c) ∧
    (∀ (c : Nat), probing (onSeg a0 a1 a2) c = probing a2 c) ∧ (∀ (e : Env) (x : Word), presentCore e (onSeg a0 a1 a2) x = presentCore e a2 x) := by
  have k := (onSeg_only a0 a1 a2).keep
  exact ⟨fun c => cell_congr (k .cells (by decide)) c, fun c => hubc_congr (k .hubc (by decide)) c, fun c => region_congr (k .regions (by decide)) c, fun x => entity_congr (k .casc (by decide)) x, nowNs_congr (k .time (by decide)), imgOf_congr (k .img (by decide)), serving_congr (k .sys (by decide)), working_congr (k .sys (by decide)), alive_congr (k .sys (by decide)), upState_congr (k .sys (by decide)), portOn_congr (k .sys (by decide)), fun e  => dieNo_congr e (k .img (by decide)), fun e  => nodeNo_congr e (k .img (by decide)), fun e c => coreId_congr e (k .img (by decide)) c, fun e c => unitId_congr e (k .img (by decide)) c, fun c => chan_congr (k .cmd (by decide)) c, fun x => entOk_congr (k .img (by decide)) x, fun c => groupOf_congr (k .img (by decide)) (k .jobs (by decide)) c, fun c => probing_congr (k .age (by decide)) c, fun e x => presentCore_congr e (k .img (by decide)) x⟩

@[simp] theorem onPort_reads (a0 a1 a2) :
    (∀ (c : Nat), cell (onPort a0 a1 a2) c = cell a2 c) ∧ (∀ (c : Nat), Sys2Proof.Machine.hubc (onPort a0 a1 a2) c = Sys2Proof.Machine.hubc a2 c) ∧ (∀ (c : Nat), region (onPort a0 a1 a2) c = region a2 c) ∧
    (∀ (x : Word), entity (onPort a0 a1 a2) x = entity a2 x) ∧ (nowNs (onPort a0 a1 a2) = nowNs a2 ) ∧ (imgOf (onPort a0 a1 a2) = imgOf a2 ) ∧
    (serving (onPort a0 a1 a2) = serving a2 ) ∧ (working (onPort a0 a1 a2) = working a2 ) ∧ (alive (onPort a0 a1 a2) = alive a2 ) ∧
    (upState (onPort a0 a1 a2) = upState a2 ) ∧ (portOn (onPort a0 a1 a2) = portOn a2 ) ∧ (∀ (e : Env), dieNo e (onPort a0 a1 a2) = dieNo e a2 ) ∧
    (∀ (e : Env), nodeNo e (onPort a0 a1 a2) = nodeNo e a2 ) ∧ (∀ (e : Env) (c : Nat), coreId e (onPort a0 a1 a2) c = coreId e a2 c) ∧ (∀ (e : Env) (c : Nat), unitId e (onPort a0 a1 a2) c = unitId e a2 c) ∧
    (∀ (c : Nat), chan (onPort a0 a1 a2) c = chan a2 c) ∧ (∀ (x : Word), entOk (onPort a0 a1 a2) x = entOk a2 x) ∧ (∀ (c : Nat), groupOf (onPort a0 a1 a2) c = groupOf a2 c) ∧
    (∀ (c : Nat), probing (onPort a0 a1 a2) c = probing a2 c) ∧ (∀ (e : Env) (x : Word), presentCore e (onPort a0 a1 a2) x = presentCore e a2 x) := by
  have k := (onPort_only a0 a1 a2).keep
  exact ⟨fun c => cell_congr (k .cells (by decide)) c, fun c => hubc_congr (k .hubc (by decide)) c, fun c => region_congr (k .regions (by decide)) c, fun x => entity_congr (k .casc (by decide)) x, nowNs_congr (k .time (by decide)), imgOf_congr (k .img (by decide)), serving_congr (k .sys (by decide)), working_congr (k .sys (by decide)), alive_congr (k .sys (by decide)), upState_congr (k .sys (by decide)), portOn_congr (k .sys (by decide)), fun e  => dieNo_congr e (k .img (by decide)), fun e  => nodeNo_congr e (k .img (by decide)), fun e c => coreId_congr e (k .img (by decide)) c, fun e c => unitId_congr e (k .img (by decide)) c, fun c => chan_congr (k .cmd (by decide)) c, fun x => entOk_congr (k .img (by decide)) x, fun c => groupOf_congr (k .img (by decide)) (k .jobs (by decide)) c, fun c => probing_congr (k .age (by decide)) c, fun e x => presentCore_congr e (k .img (by decide)) x⟩

@[simp] theorem onMember_reads (a0 a1 a2) :
    (∀ (c : Nat), cell (onMember a0 a1 a2) c = cell a2 c) ∧ (∀ (c : Nat), Sys2Proof.Machine.hubc (onMember a0 a1 a2) c = Sys2Proof.Machine.hubc a2 c) ∧ (∀ (c : Nat), region (onMember a0 a1 a2) c = region a2 c) ∧
    (∀ (x : Word), entity (onMember a0 a1 a2) x = entity a2 x) ∧ (nowNs (onMember a0 a1 a2) = nowNs a2 ) ∧ (imgOf (onMember a0 a1 a2) = imgOf a2 ) ∧
    (serving (onMember a0 a1 a2) = serving a2 ) ∧ (working (onMember a0 a1 a2) = working a2 ) ∧ (alive (onMember a0 a1 a2) = alive a2 ) ∧
    (upState (onMember a0 a1 a2) = upState a2 ) ∧ (portOn (onMember a0 a1 a2) = portOn a2 ) ∧ (∀ (e : Env), dieNo e (onMember a0 a1 a2) = dieNo e a2 ) ∧
    (∀ (e : Env), nodeNo e (onMember a0 a1 a2) = nodeNo e a2 ) ∧ (∀ (e : Env) (c : Nat), coreId e (onMember a0 a1 a2) c = coreId e a2 c) ∧ (∀ (e : Env) (c : Nat), unitId e (onMember a0 a1 a2) c = unitId e a2 c) ∧
    (∀ (c : Nat), chan (onMember a0 a1 a2) c = chan a2 c) ∧ (∀ (x : Word), entOk (onMember a0 a1 a2) x = entOk a2 x) ∧ (∀ (c : Nat), groupOf (onMember a0 a1 a2) c = groupOf a2 c) ∧
    (∀ (c : Nat), probing (onMember a0 a1 a2) c = probing a2 c) ∧ (∀ (e : Env) (x : Word), presentCore e (onMember a0 a1 a2) x = presentCore e a2 x) := by
  have k := (onMember_only a0 a1 a2).keep
  exact ⟨fun c => cell_congr (k .cells (by decide)) c, fun c => hubc_congr (k .hubc (by decide)) c, fun c => region_congr (k .regions (by decide)) c, fun x => entity_congr (k .casc (by decide)) x, nowNs_congr (k .time (by decide)), imgOf_congr (k .img (by decide)), serving_congr (k .sys (by decide)), working_congr (k .sys (by decide)), alive_congr (k .sys (by decide)), upState_congr (k .sys (by decide)), portOn_congr (k .sys (by decide)), fun e  => dieNo_congr e (k .img (by decide)), fun e  => nodeNo_congr e (k .img (by decide)), fun e c => coreId_congr e (k .img (by decide)) c, fun e c => unitId_congr e (k .img (by decide)) c, fun c => chan_congr (k .cmd (by decide)) c, fun x => entOk_congr (k .img (by decide)) x, fun c => groupOf_congr (k .img (by decide)) (k .jobs (by decide)) c, fun c => probing_congr (k .age (by decide)) c, fun e x => presentCore_congr e (k .img (by decide)) x⟩

@[simp] theorem onLog_reads (a0 a1) :
    (∀ (c : Nat), cell (onLog a0 a1) c = cell a1 c) ∧ (∀ (c : Nat), Sys2Proof.Machine.hubc (onLog a0 a1) c = Sys2Proof.Machine.hubc a1 c) ∧ (∀ (c : Nat), region (onLog a0 a1) c = region a1 c) ∧
    (∀ (x : Word), entity (onLog a0 a1) x = entity a1 x) ∧ (nowNs (onLog a0 a1) = nowNs a1 ) ∧ (imgOf (onLog a0 a1) = imgOf a1 ) ∧
    (serving (onLog a0 a1) = serving a1 ) ∧ (working (onLog a0 a1) = working a1 ) ∧ (alive (onLog a0 a1) = alive a1 ) ∧
    (upState (onLog a0 a1) = upState a1 ) ∧ (portOn (onLog a0 a1) = portOn a1 ) ∧ (∀ (e : Env), dieNo e (onLog a0 a1) = dieNo e a1 ) ∧
    (∀ (e : Env), nodeNo e (onLog a0 a1) = nodeNo e a1 ) ∧ (∀ (e : Env) (c : Nat), coreId e (onLog a0 a1) c = coreId e a1 c) ∧ (∀ (e : Env) (c : Nat), unitId e (onLog a0 a1) c = unitId e a1 c) ∧
    (∀ (c : Nat), chan (onLog a0 a1) c = chan a1 c) ∧ (∀ (x : Word), entOk (onLog a0 a1) x = entOk a1 x) ∧ (∀ (c : Nat), groupOf (onLog a0 a1) c = groupOf a1 c) ∧
    (∀ (c : Nat), probing (onLog a0 a1) c = probing a1 c) ∧ (∀ (e : Env) (x : Word), presentCore e (onLog a0 a1) x = presentCore e a1 x) := by
  have k := (onLog_only a0 a1).keep
  exact ⟨fun c => cell_congr (k .cells (by decide)) c, fun c => hubc_congr (k .hubc (by decide)) c, fun c => region_congr (k .regions (by decide)) c, fun x => entity_congr (k .casc (by decide)) x, nowNs_congr (k .time (by decide)), imgOf_congr (k .img (by decide)), serving_congr (k .sys (by decide)), working_congr (k .sys (by decide)), alive_congr (k .sys (by decide)), upState_congr (k .sys (by decide)), portOn_congr (k .sys (by decide)), fun e  => dieNo_congr e (k .img (by decide)), fun e  => nodeNo_congr e (k .img (by decide)), fun e c => coreId_congr e (k .img (by decide)) c, fun e c => unitId_congr e (k .img (by decide)) c, fun c => chan_congr (k .cmd (by decide)) c, fun x => entOk_congr (k .img (by decide)) x, fun c => groupOf_congr (k .img (by decide)) (k .jobs (by decide)) c, fun c => probing_congr (k .age (by decide)) c, fun e x => presentCore_congr e (k .img (by decide)) x⟩

@[simp] theorem onXs_reads (a0 a1) :
    (∀ (c : Nat), cell (onXs a0 a1) c = cell a1 c) ∧ (∀ (c : Nat), Sys2Proof.Machine.hubc (onXs a0 a1) c = Sys2Proof.Machine.hubc a1 c) ∧ (∀ (c : Nat), region (onXs a0 a1) c = region a1 c) ∧
    (∀ (x : Word), entity (onXs a0 a1) x = entity a1 x) ∧ (nowNs (onXs a0 a1) = nowNs a1 ) ∧ (imgOf (onXs a0 a1) = imgOf a1 ) ∧
    (serving (onXs a0 a1) = serving a1 ) ∧ (working (onXs a0 a1) = working a1 ) ∧ (alive (onXs a0 a1) = alive a1 ) ∧
    (upState (onXs a0 a1) = upState a1 ) ∧ (portOn (onXs a0 a1) = portOn a1 ) ∧ (∀ (e : Env), dieNo e (onXs a0 a1) = dieNo e a1 ) ∧
    (∀ (e : Env), nodeNo e (onXs a0 a1) = nodeNo e a1 ) ∧ (∀ (e : Env) (c : Nat), coreId e (onXs a0 a1) c = coreId e a1 c) ∧ (∀ (e : Env) (c : Nat), unitId e (onXs a0 a1) c = unitId e a1 c) ∧
    (∀ (c : Nat), chan (onXs a0 a1) c = chan a1 c) ∧ (∀ (x : Word), entOk (onXs a0 a1) x = entOk a1 x) ∧ (∀ (c : Nat), groupOf (onXs a0 a1) c = groupOf a1 c) ∧
    (∀ (c : Nat), probing (onXs a0 a1) c = probing a1 c) ∧ (∀ (e : Env) (x : Word), presentCore e (onXs a0 a1) x = presentCore e a1 x) := by
  have k := (onXs_only a0 a1).keep
  exact ⟨fun c => cell_congr (k .cells (by decide)) c, fun c => hubc_congr (k .hubc (by decide)) c, fun c => region_congr (k .regions (by decide)) c, fun x => entity_congr (k .casc (by decide)) x, nowNs_congr (k .time (by decide)), imgOf_congr (k .img (by decide)), serving_congr (k .sys (by decide)), working_congr (k .sys (by decide)), alive_congr (k .sys (by decide)), upState_congr (k .sys (by decide)), portOn_congr (k .sys (by decide)), fun e  => dieNo_congr e (k .img (by decide)), fun e  => nodeNo_congr e (k .img (by decide)), fun e c => coreId_congr e (k .img (by decide)) c, fun e c => unitId_congr e (k .img (by decide)) c, fun c => chan_congr (k .cmd (by decide)) c, fun x => entOk_congr (k .img (by decide)) x, fun c => groupOf_congr (k .img (by decide)) (k .jobs (by decide)) c, fun c => probing_congr (k .age (by decide)) c, fun e x => presentCore_congr e (k .img (by decide)) x⟩

@[simp] theorem onTrc_reads (a0 a1) :
    (∀ (c : Nat), cell (onTrc a0 a1) c = cell a1 c) ∧ (∀ (c : Nat), Sys2Proof.Machine.hubc (onTrc a0 a1) c = Sys2Proof.Machine.hubc a1 c) ∧ (∀ (c : Nat), region (onTrc a0 a1) c = region a1 c) ∧
    (∀ (x : Word), entity (onTrc a0 a1) x = entity a1 x) ∧ (nowNs (onTrc a0 a1) = nowNs a1 ) ∧ (imgOf (onTrc a0 a1) = imgOf a1 ) ∧
    (serving (onTrc a0 a1) = serving a1 ) ∧ (working (onTrc a0 a1) = working a1 ) ∧ (alive (onTrc a0 a1) = alive a1 ) ∧
    (upState (onTrc a0 a1) = upState a1 ) ∧ (portOn (onTrc a0 a1) = portOn a1 ) ∧ (∀ (e : Env), dieNo e (onTrc a0 a1) = dieNo e a1 ) ∧
    (∀ (e : Env), nodeNo e (onTrc a0 a1) = nodeNo e a1 ) ∧ (∀ (e : Env) (c : Nat), coreId e (onTrc a0 a1) c = coreId e a1 c) ∧ (∀ (e : Env) (c : Nat), unitId e (onTrc a0 a1) c = unitId e a1 c) ∧
    (∀ (c : Nat), chan (onTrc a0 a1) c = chan a1 c) ∧ (∀ (x : Word), entOk (onTrc a0 a1) x = entOk a1 x) ∧ (∀ (c : Nat), groupOf (onTrc a0 a1) c = groupOf a1 c) ∧
    (∀ (c : Nat), probing (onTrc a0 a1) c = probing a1 c) ∧ (∀ (e : Env) (x : Word), presentCore e (onTrc a0 a1) x = presentCore e a1 x) := by
  have k := (onTrc_only a0 a1).keep
  exact ⟨fun c => cell_congr (k .cells (by decide)) c, fun c => hubc_congr (k .hubc (by decide)) c, fun c => region_congr (k .regions (by decide)) c, fun x => entity_congr (k .casc (by decide)) x, nowNs_congr (k .time (by decide)), imgOf_congr (k .img (by decide)), serving_congr (k .sys (by decide)), working_congr (k .sys (by decide)), alive_congr (k .sys (by decide)), upState_congr (k .sys (by decide)), portOn_congr (k .sys (by decide)), fun e  => dieNo_congr e (k .img (by decide)), fun e  => nodeNo_congr e (k .img (by decide)), fun e c => coreId_congr e (k .img (by decide)) c, fun e c => unitId_congr e (k .img (by decide)) c, fun c => chan_congr (k .cmd (by decide)) c, fun x => entOk_congr (k .img (by decide)) x, fun c => groupOf_congr (k .img (by decide)) (k .jobs (by decide)) c, fun c => probing_congr (k .age (by decide)) c, fun e x => presentCore_congr e (k .img (by decide)) x⟩

@[simp] theorem chanPut_reads (a0 a1 a2) :
    (∀ (c : Nat), cell (chanPut a0 a1 a2) c = cell a2 c) ∧ (∀ (c : Nat), Sys2Proof.Machine.hubc (chanPut a0 a1 a2) c = Sys2Proof.Machine.hubc a2 c) ∧ (∀ (c : Nat), region (chanPut a0 a1 a2) c = region a2 c) ∧
    (∀ (x : Word), entity (chanPut a0 a1 a2) x = entity a2 x) ∧ (nowNs (chanPut a0 a1 a2) = nowNs a2 ) ∧ (imgOf (chanPut a0 a1 a2) = imgOf a2 ) ∧
    (serving (chanPut a0 a1 a2) = serving a2 ) ∧ (working (chanPut a0 a1 a2) = working a2 ) ∧ (alive (chanPut a0 a1 a2) = alive a2 ) ∧
    (upState (chanPut a0 a1 a2) = upState a2 ) ∧ (portOn (chanPut a0 a1 a2) = portOn a2 ) ∧ (∀ (e : Env), dieNo e (chanPut a0 a1 a2) = dieNo e a2 ) ∧
    (∀ (e : Env), nodeNo e (chanPut a0 a1 a2) = nodeNo e a2 ) ∧ (∀ (e : Env) (c : Nat), coreId e (chanPut a0 a1 a2) c = coreId e a2 c) ∧ (∀ (e : Env) (c : Nat), unitId e (chanPut a0 a1 a2) c = unitId e a2 c) ∧
    (∀ (x : Word), entOk (chanPut a0 a1 a2) x = entOk a2 x) ∧ (∀ (c : Nat), groupOf (chanPut a0 a1 a2) c = groupOf a2 c) ∧ (∀ (c : Nat), probing (chanPut a0 a1 a2) c = probing a2 c) ∧
    (∀ (e : Env) (x : Word), presentCore e (chanPut a0 a1 a2) x = presentCore e a2 x) := by
  have k := (chanPut_only a0 a1 a2).keep
  exact ⟨fun c => cell_congr (k .cells (by decide)) c, fun c => hubc_congr (k .hubc (by decide)) c, fun c => region_congr (k .regions (by decide)) c, fun x => entity_congr (k .casc (by decide)) x, nowNs_congr (k .time (by decide)), imgOf_congr (k .img (by decide)), serving_congr (k .sys (by decide)), working_congr (k .sys (by decide)), alive_congr (k .sys (by decide)), upState_congr (k .sys (by decide)), portOn_congr (k .sys (by decide)), fun e  => dieNo_congr e (k .img (by decide)), fun e  => nodeNo_congr e (k .img (by decide)), fun e c => coreId_congr e (k .img (by decide)) c, fun e c => unitId_congr e (k .img (by decide)) c, fun x => entOk_congr (k .img (by decide)) x, fun c => groupOf_congr (k .img (by decide)) (k .jobs (by decide)) c, fun c => probing_congr (k .age (by decide)) c, fun e x => presentCore_congr e (k .img (by decide)) x⟩

@[simp] theorem sendNotice_reads (a0 a1 a2) :
    (∀ (c : Nat), cell (sendNotice a0 a1 a2) c = cell a2 c) ∧ (∀ (c : Nat), Sys2Proof.Machine.hubc (sendNotice a0 a1 a2) c = Sys2Proof.Machine.hubc a2 c) ∧ (∀ (c : Nat), region (sendNotice a0 a1 a2) c = region a2 c) ∧
    (∀ (x : Word), entity (sendNotice a0 a1 a2) x = entity a2 x) ∧ (nowNs (sendNotice a0 a1 a2) = nowNs a2 ) ∧ (imgOf (sendNotice a0 a1 a2) = imgOf a2 ) ∧
    (serving (sendNotice a0 a1 a2) = serving a2 ) ∧ (working (sendNotice a0 a1 a2) = working a2 ) ∧ (alive (sendNotice a0 a1 a2) = alive a2 ) ∧
    (upState (sendNotice a0 a1 a2) = upState a2 ) ∧ (portOn (sendNotice a0 a1 a2) = portOn a2 ) ∧ (∀ (e : Env), dieNo e (sendNotice a0 a1 a2) = dieNo e a2 ) ∧
    (∀ (e : Env), nodeNo e (sendNotice a0 a1 a2) = nodeNo e a2 ) ∧ (∀ (e : Env) (c : Nat), coreId e (sendNotice a0 a1 a2) c = coreId e a2 c) ∧ (∀ (e : Env) (c : Nat), unitId e (sendNotice a0 a1 a2) c = unitId e a2 c) ∧
    (∀ (x : Word), entOk (sendNotice a0 a1 a2) x = entOk a2 x) ∧ (∀ (c : Nat), groupOf (sendNotice a0 a1 a2) c = groupOf a2 c) ∧ (∀ (c : Nat), probing (sendNotice a0 a1 a2) c = probing a2 c) ∧
    (∀ (e : Env) (x : Word), presentCore e (sendNotice a0 a1 a2) x = presentCore e a2 x) := by
  have k := (sendNotice_only a0 a1 a2).keep
  exact ⟨fun c => cell_congr (k .cells (by decide)) c, fun c => hubc_congr (k .hubc (by decide)) c, fun c => region_congr (k .regions (by decide)) c, fun x => entity_congr (k .casc (by decide)) x, nowNs_congr (k .time (by decide)), imgOf_congr (k .img (by decide)), serving_congr (k .sys (by decide)), working_congr (k .sys (by decide)), alive_congr (k .sys (by decide)), upState_congr (k .sys (by decide)), portOn_congr (k .sys (by decide)), fun e  => dieNo_congr e (k .img (by decide)), fun e  => nodeNo_congr e (k .img (by decide)), fun e c => coreId_congr e (k .img (by decide)) c, fun e c => unitId_congr e (k .img (by decide)) c, fun x => entOk_congr (k .img (by decide)) x, fun c => groupOf_congr (k .img (by decide)) (k .jobs (by decide)) c, fun c => probing_congr (k .age (by decide)) c, fun e x => presentCore_congr e (k .img (by decide)) x⟩

@[simp] theorem cmdRecord_reads (a0 a1 a2 a3 a4 a5) :
    (∀ (c : Nat), cell (cmdRecord a0 a1 a2 a3 a4 a5) c = cell a5 c) ∧ (∀ (c : Nat), Sys2Proof.Machine.hubc (cmdRecord a0 a1 a2 a3 a4 a5) c = Sys2Proof.Machine.hubc a5 c) ∧ (∀ (c : Nat), region (cmdRecord a0 a1 a2 a3 a4 a5) c = region a5 c) ∧
    (∀ (x : Word), entity (cmdRecord a0 a1 a2 a3 a4 a5) x = entity a5 x) ∧ (nowNs (cmdRecord a0 a1 a2 a3 a4 a5) = nowNs a5 ) ∧ (imgOf (cmdRecord a0 a1 a2 a3 a4 a5) = imgOf a5 ) ∧
    (serving (cmdRecord a0 a1 a2 a3 a4 a5) = serving a5 ) ∧ (working (cmdRecord a0 a1 a2 a3 a4 a5) = working a5 ) ∧ (alive (cmdRecord a0 a1 a2 a3 a4 a5) = alive a5 ) ∧
    (upState (cmdRecord a0 a1 a2 a3 a4 a5) = upState a5 ) ∧ (portOn (cmdRecord a0 a1 a2 a3 a4 a5) = portOn a5 ) ∧ (∀ (e : Env), dieNo e (cmdRecord a0 a1 a2 a3 a4 a5) = dieNo e a5 ) ∧
    (∀ (e : Env), nodeNo e (cmdRecord a0 a1 a2 a3 a4 a5) = nodeNo e a5 ) ∧ (∀ (e : Env) (c : Nat), coreId e (cmdRecord a0 a1 a2 a3 a4 a5) c = coreId e a5 c) ∧ (∀ (e : Env) (c : Nat), unitId e (cmdRecord a0 a1 a2 a3 a4 a5) c = unitId e a5 c) ∧
    (∀ (c : Nat), chan (cmdRecord a0 a1 a2 a3 a4 a5) c = chan a5 c) ∧ (∀ (x : Word), entOk (cmdRecord a0 a1 a2 a3 a4 a5) x = entOk a5 x) ∧ (∀ (c : Nat), groupOf (cmdRecord a0 a1 a2 a3 a4 a5) c = groupOf a5 c) ∧
    (∀ (c : Nat), probing (cmdRecord a0 a1 a2 a3 a4 a5) c = probing a5 c) ∧ (∀ (e : Env) (x : Word), presentCore e (cmdRecord a0 a1 a2 a3 a4 a5) x = presentCore e a5 x) := by
  have k := (cmdRecord_only a0 a1 a2 a3 a4 a5).keep
  exact ⟨fun c => cell_congr (k .cells (by decide)) c, fun c => hubc_congr (k .hubc (by decide)) c, fun c => region_congr (k .regions (by decide)) c, fun x => entity_congr (k .casc (by decide)) x, nowNs_congr (k .time (by decide)), imgOf_congr (k .img (by decide)), serving_congr (k .sys (by decide)), working_congr (k .sys (by decide)), alive_congr (k .sys (by decide)), upState_congr (k .sys (by decide)), portOn_congr (k .sys (by decide)), fun e  => dieNo_congr e (k .img (by decide)), fun e  => nodeNo_congr e (k .img (by decide)), fun e c => coreId_congr e (k .img (by decide)) c, fun e c => unitId_congr e (k .img (by decide)) c, fun c => chan_congr (k .cmd (by decide)) c, fun x => entOk_congr (k .img (by decide)) x, fun c => groupOf_congr (k .img (by decide)) (k .jobs (by decide)) c, fun c => probing_congr (k .age (by decide)) c, fun e x => presentCore_congr e (k .img (by decide)) x⟩

@[simp] theorem sendReply_reads (a0 a1 a2 a3) :
    (∀ (c : Nat), cell (sendReply a0 a1 a2 a3) c = cell a3 c) ∧ (∀ (c : Nat), Sys2Proof.Machine.hubc (sendReply a0 a1 a2 a3) c = Sys2Proof.Machine.hubc a3 c) ∧ (∀ (c : Nat), region (sendReply a0 a1 a2 a3) c = region a3 c) ∧
    (∀ (x : Word), entity (sendReply a0 a1 a2 a3) x = entity a3 x) ∧ (nowNs (sendReply a0 a1 a2 a3) = nowNs a3 ) ∧ (imgOf (sendReply a0 a1 a2 a3) = imgOf a3 ) ∧
    (serving (sendReply a0 a1 a2 a3) = serving a3 ) ∧ (working (sendReply a0 a1 a2 a3) = working a3 ) ∧ (alive (sendReply a0 a1 a2 a3) = alive a3 ) ∧
    (upState (sendReply a0 a1 a2 a3) = upState a3 ) ∧ (portOn (sendReply a0 a1 a2 a3) = portOn a3 ) ∧ (∀ (e : Env), dieNo e (sendReply a0 a1 a2 a3) = dieNo e a3 ) ∧
    (∀ (e : Env), nodeNo e (sendReply a0 a1 a2 a3) = nodeNo e a3 ) ∧ (∀ (e : Env) (c : Nat), coreId e (sendReply a0 a1 a2 a3) c = coreId e a3 c) ∧ (∀ (e : Env) (c : Nat), unitId e (sendReply a0 a1 a2 a3) c = unitId e a3 c) ∧
    (∀ (x : Word), entOk (sendReply a0 a1 a2 a3) x = entOk a3 x) ∧ (∀ (c : Nat), groupOf (sendReply a0 a1 a2 a3) c = groupOf a3 c) ∧ (∀ (c : Nat), probing (sendReply a0 a1 a2 a3) c = probing a3 c) ∧
    (∀ (e : Env) (x : Word), presentCore e (sendReply a0 a1 a2 a3) x = presentCore e a3 x) := by
  have k := (sendReply_only a0 a1 a2 a3).keep
  exact ⟨fun c => cell_congr (k .cells (by decide)) c, fun c => hubc_congr (k .hubc (by decide)) c, fun c => region_congr (k .regions (by decide)) c, fun x => entity_congr (k .casc (by decide)) x, nowNs_congr (k .time (by decide)), imgOf_congr (k .img (by decide)), serving_congr (k .sys (by decide)), working_congr (k .sys (by decide)), alive_congr (k .sys (by decide)), upState_congr (k .sys (by decide)), portOn_congr (k .sys (by decide)), fun e  => dieNo_congr e (k .img (by decide)), fun e  => nodeNo_congr e (k .img (by decide)), fun e c => coreId_congr e (k .img (by decide)) c, fun e c => unitId_congr e (k .img (by decide)) c, fun x => entOk_congr (k .img (by decide)) x, fun c => groupOf_congr (k .img (by decide)) (k .jobs (by decide)) c, fun c => probing_congr (k .age (by decide)) c, fun e x => presentCore_congr e (k .img (by decide)) x⟩

@[simp] theorem replyOnly_reads (a0 a1 a2 a3 a4) :
    (∀ (c : Nat), cell (replyOnly a0 a1 a2 a3 a4) c = cell a4 c) ∧ (∀ (c : Nat), Sys2Proof.Machine.hubc (replyOnly a0 a1 a2 a3 a4) c = Sys2Proof.Machine.hubc a4 c) ∧ (∀ (c : Nat), region (replyOnly a0 a1 a2 a3 a4) c = region a4 c) ∧
    (∀ (x : Word), entity (replyOnly a0 a1 a2 a3 a4) x = entity a4 x) ∧ (nowNs (replyOnly a0 a1 a2 a3 a4) = nowNs a4 ) ∧ (imgOf (replyOnly a0 a1 a2 a3 a4) = imgOf a4 ) ∧
    (serving (replyOnly a0 a1 a2 a3 a4) = serving a4 ) ∧ (working (replyOnly a0 a1 a2 a3 a4) = working a4 ) ∧ (alive (replyOnly a0 a1 a2 a3 a4) = alive a4 ) ∧
    (upState (replyOnly a0 a1 a2 a3 a4) = upState a4 ) ∧ (portOn (replyOnly a0 a1 a2 a3 a4) = portOn a4 ) ∧ (∀ (e : Env), dieNo e (replyOnly a0 a1 a2 a3 a4) = dieNo e a4 ) ∧
    (∀ (e : Env), nodeNo e (replyOnly a0 a1 a2 a3 a4) = nodeNo e a4 ) ∧ (∀ (e : Env) (c : Nat), coreId e (replyOnly a0 a1 a2 a3 a4) c = coreId e a4 c) ∧ (∀ (e : Env) (c : Nat), unitId e (replyOnly a0 a1 a2 a3 a4) c = unitId e a4 c) ∧
    (∀ (x : Word), entOk (replyOnly a0 a1 a2 a3 a4) x = entOk a4 x) ∧ (∀ (c : Nat), groupOf (replyOnly a0 a1 a2 a3 a4) c = groupOf a4 c) ∧ (∀ (c : Nat), probing (replyOnly a0 a1 a2 a3 a4) c = probing a4 c) ∧
    (∀ (e : Env) (x : Word), presentCore e (replyOnly a0 a1 a2 a3 a4) x = presentCore e a4 x) := by
  have k := (replyOnly_only a0 a1 a2 a3 a4).keep
  exact ⟨fun c => cell_congr (k .cells (by decide)) c, fun c => hubc_congr (k .hubc (by decide)) c, fun c => region_congr (k .regions (by decide)) c, fun x => entity_congr (k .casc (by decide)) x, nowNs_congr (k .time (by decide)), imgOf_congr (k .img (by decide)), serving_congr (k .sys (by decide)), working_congr (k .sys (by decide)), alive_congr (k .sys (by decide)), upState_congr (k .sys (by decide)), portOn_congr (k .sys (by decide)), fun e  => dieNo_congr e (k .img (by decide)), fun e  => nodeNo_congr e (k .img (by decide)), fun e c => coreId_congr e (k .img (by decide)) c, fun e c => unitId_congr e (k .img (by decide)) c, fun x => entOk_congr (k .img (by decide)) x, fun c => groupOf_congr (k .img (by decide)) (k .jobs (by decide)) c, fun c => probing_congr (k .age (by decide)) c, fun e x => presentCore_congr e (k .img (by decide)) x⟩

@[simp] theorem answer_reads (a0 a1 a2 a3 a4 a5 a6 a7) :
    (∀ (c : Nat), cell (answer a0 a1 a2 a3 a4 a5 a6 a7) c = cell a7 c) ∧ (∀ (c : Nat), Sys2Proof.Machine.hubc (answer a0 a1 a2 a3 a4 a5 a6 a7) c = Sys2Proof.Machine.hubc a7 c) ∧ (∀ (c : Nat), region (answer a0 a1 a2 a3 a4 a5 a6 a7) c = region a7 c) ∧
    (∀ (x : Word), entity (answer a0 a1 a2 a3 a4 a5 a6 a7) x = entity a7 x) ∧ (nowNs (answer a0 a1 a2 a3 a4 a5 a6 a7) = nowNs a7 ) ∧ (imgOf (answer a0 a1 a2 a3 a4 a5 a6 a7) = imgOf a7 ) ∧
    (serving (answer a0 a1 a2 a3 a4 a5 a6 a7) = serving a7 ) ∧ (working (answer a0 a1 a2 a3 a4 a5 a6 a7) = working a7 ) ∧ (alive (answer a0 a1 a2 a3 a4 a5 a6 a7) = alive a7 ) ∧
    (upState (answer a0 a1 a2 a3 a4 a5 a6 a7) = upState a7 ) ∧ (portOn (answer a0 a1 a2 a3 a4 a5 a6 a7) = portOn a7 ) ∧ (∀ (e : Env), dieNo e (answer a0 a1 a2 a3 a4 a5 a6 a7) = dieNo e a7 ) ∧
    (∀ (e : Env), nodeNo e (answer a0 a1 a2 a3 a4 a5 a6 a7) = nodeNo e a7 ) ∧ (∀ (e : Env) (c : Nat), coreId e (answer a0 a1 a2 a3 a4 a5 a6 a7) c = coreId e a7 c) ∧ (∀ (e : Env) (c : Nat), unitId e (answer a0 a1 a2 a3 a4 a5 a6 a7) c = unitId e a7 c) ∧
    (∀ (x : Word), entOk (answer a0 a1 a2 a3 a4 a5 a6 a7) x = entOk a7 x) ∧ (∀ (c : Nat), groupOf (answer a0 a1 a2 a3 a4 a5 a6 a7) c = groupOf a7 c) ∧ (∀ (c : Nat), probing (answer a0 a1 a2 a3 a4 a5 a6 a7) c = probing a7 c) ∧
    (∀ (e : Env) (x : Word), presentCore e (answer a0 a1 a2 a3 a4 a5 a6 a7) x = presentCore e a7 x) := by
  have k := (answer_only a0 a1 a2 a3 a4 a5 a6 a7).keep
  exact ⟨fun c => cell_congr (k .cells (by decide)) c, fun c => hubc_congr (k .hubc (by decide)) c, fun c => region_congr (k .regions (by decide)) c, fun x => entity_congr (k .casc (by decide)) x, nowNs_congr (k .time (by decide)), imgOf_congr (k .img (by decide)), serving_congr (k .sys (by decide)), working_congr (k .sys (by decide)), alive_congr (k .sys (by decide)), upState_congr (k .sys (by decide)), portOn_congr (k .sys (by decide)), fun e  => dieNo_congr e (k .img (by decide)), fun e  => nodeNo_congr e (k .img (by decide)), fun e c => coreId_congr e (k .img (by decide)) c, fun e c => unitId_congr e (k .img (by decide)) c, fun x => entOk_congr (k .img (by decide)) x, fun c => groupOf_congr (k .img (by decide)) (k .jobs (by decide)) c, fun c => probing_congr (k .age (by decide)) c, fun e x => presentCore_congr e (k .img (by decide)) x⟩

@[simp] theorem finish_reads (a0 a1 a2 a3 a4 a5 a6) :
    (∀ (c : Nat), cell (finish a0 a1 a2 a3 a4 a5 a6) c = cell a6 c) ∧ (∀ (c : Nat), Sys2Proof.Machine.hubc (finish a0 a1 a2 a3 a4 a5 a6) c = Sys2Proof.Machine.hubc a6 c) ∧ (∀ (c : Nat), region (finish a0 a1 a2 a3 a4 a5 a6) c = region a6 c) ∧
    (∀ (x : Word), entity (finish a0 a1 a2 a3 a4 a5 a6) x = entity a6 x) ∧ (nowNs (finish a0 a1 a2 a3 a4 a5 a6) = nowNs a6 ) ∧ (imgOf (finish a0 a1 a2 a3 a4 a5 a6) = imgOf a6 ) ∧
    (serving (finish a0 a1 a2 a3 a4 a5 a6) = serving a6 ) ∧ (working (finish a0 a1 a2 a3 a4 a5 a6) = working a6 ) ∧ (alive (finish a0 a1 a2 a3 a4 a5 a6) = alive a6 ) ∧
    (upState (finish a0 a1 a2 a3 a4 a5 a6) = upState a6 ) ∧ (portOn (finish a0 a1 a2 a3 a4 a5 a6) = portOn a6 ) ∧ (∀ (e : Env), dieNo e (finish a0 a1 a2 a3 a4 a5 a6) = dieNo e a6 ) ∧
    (∀ (e : Env), nodeNo e (finish a0 a1 a2 a3 a4 a5 a6) = nodeNo e a6 ) ∧ (∀ (e : Env) (c : Nat), coreId e (finish a0 a1 a2 a3 a4 a5 a6) c = coreId e a6 c) ∧ (∀ (e : Env) (c : Nat), unitId e (finish a0 a1 a2 a3 a4 a5 a6) c = unitId e a6 c) ∧
    (∀ (x : Word), entOk (finish a0 a1 a2 a3 a4 a5 a6) x = entOk a6 x) ∧ (∀ (c : Nat), groupOf (finish a0 a1 a2 a3 a4 a5 a6) c = groupOf a6 c) ∧ (∀ (c : Nat), probing (finish a0 a1 a2 a3 a4 a5 a6) c = probing a6 c) ∧
    (∀ (e : Env) (x : Word), presentCore e (finish a0 a1 a2 a3 a4 a5 a6) x = presentCore e a6 x) := by
  have k := (finish_only a0 a1 a2 a3 a4 a5 a6).keep
  exact ⟨fun c => cell_congr (k .cells (by decide)) c, fun c => hubc_congr (k .hubc (by decide)) c, fun c => region_congr (k .regions (by decide)) c, fun x => entity_congr (k .casc (by decide)) x, nowNs_congr (k .time (by decide)), imgOf_congr (k .img (by decide)), serving_congr (k .sys (by decide)), working_congr (k .sys (by decide)), alive_congr (k .sys (by decide)), upState_congr (k .sys (by decide)), portOn_congr (k .sys (by decide)), fun e  => dieNo_congr e (k .img (by decide)), fun e  => nodeNo_congr e (k .img (by decide)), fun e c => coreId_congr e (k .img (by decide)) c, fun e c => unitId_congr e (k .img (by decide)) c, fun x => entOk_congr (k .img (by decide)) x, fun c => groupOf_congr (k .img (by decide)) (k .jobs (by decide)) c, fun c => probing_congr (k .age (by decide)) c, fun e x => presentCore_congr e (k .img (by decide)) x⟩

@[simp] theorem relayCmd_reads (a0 a1 a2 a3 a4 a5) :
    (∀ (c : Nat), cell (relayCmd a0 a1 a2 a3 a4 a5) c = cell a5 c) ∧ (∀ (c : Nat), Sys2Proof.Machine.hubc (relayCmd a0 a1 a2 a3 a4 a5) c = Sys2Proof.Machine.hubc a5 c) ∧ (∀ (c : Nat), region (relayCmd a0 a1 a2 a3 a4 a5) c = region a5 c) ∧
    (∀ (x : Word), entity (relayCmd a0 a1 a2 a3 a4 a5) x = entity a5 x) ∧ (nowNs (relayCmd a0 a1 a2 a3 a4 a5) = nowNs a5 ) ∧ (imgOf (relayCmd a0 a1 a2 a3 a4 a5) = imgOf a5 ) ∧
    (serving (relayCmd a0 a1 a2 a3 a4 a5) = serving a5 ) ∧ (working (relayCmd a0 a1 a2 a3 a4 a5) = working a5 ) ∧ (alive (relayCmd a0 a1 a2 a3 a4 a5) = alive a5 ) ∧
    (upState (relayCmd a0 a1 a2 a3 a4 a5) = upState a5 ) ∧ (portOn (relayCmd a0 a1 a2 a3 a4 a5) = portOn a5 ) ∧ (∀ (e : Env), dieNo e (relayCmd a0 a1 a2 a3 a4 a5) = dieNo e a5 ) ∧
    (∀ (e : Env), nodeNo e (relayCmd a0 a1 a2 a3 a4 a5) = nodeNo e a5 ) ∧ (∀ (e : Env) (c : Nat), coreId e (relayCmd a0 a1 a2 a3 a4 a5) c = coreId e a5 c) ∧ (∀ (e : Env) (c : Nat), unitId e (relayCmd a0 a1 a2 a3 a4 a5) c = unitId e a5 c) ∧
    (∀ (x : Word), entOk (relayCmd a0 a1 a2 a3 a4 a5) x = entOk a5 x) ∧ (∀ (c : Nat), groupOf (relayCmd a0 a1 a2 a3 a4 a5) c = groupOf a5 c) ∧ (∀ (c : Nat), probing (relayCmd a0 a1 a2 a3 a4 a5) c = probing a5 c) ∧
    (∀ (e : Env) (x : Word), presentCore e (relayCmd a0 a1 a2 a3 a4 a5) x = presentCore e a5 x) := by
  have k := (relayCmd_only a0 a1 a2 a3 a4 a5).keep
  exact ⟨fun c => cell_congr (k .cells (by decide)) c, fun c => hubc_congr (k .hubc (by decide)) c, fun c => region_congr (k .regions (by decide)) c, fun x => entity_congr (k .casc (by decide)) x, nowNs_congr (k .time (by decide)), imgOf_congr (k .img (by decide)), serving_congr (k .sys (by decide)), working_congr (k .sys (by decide)), alive_congr (k .sys (by decide)), upState_congr (k .sys (by decide)), portOn_congr (k .sys (by decide)), fun e  => dieNo_congr e (k .img (by decide)), fun e  => nodeNo_congr e (k .img (by decide)), fun e c => coreId_congr e (k .img (by decide)) c, fun e c => unitId_congr e (k .img (by decide)) c, fun x => entOk_congr (k .img (by decide)) x, fun c => groupOf_congr (k .img (by decide)) (k .jobs (by decide)) c, fun c => probing_congr (k .age (by decide)) c, fun e x => presentCore_congr e (k .img (by decide)) x⟩

@[simp] theorem setQuality_reads (a0 a1) :
    (∀ (c : Nat), cell (setQuality a0 a1) c = cell a1 c) ∧ (∀ (c : Nat), Sys2Proof.Machine.hubc (setQuality a0 a1) c = Sys2Proof.Machine.hubc a1 c) ∧ (∀ (c : Nat), region (setQuality a0 a1) c = region a1 c) ∧
    (∀ (x : Word), entity (setQuality a0 a1) x = entity a1 x) ∧ (imgOf (setQuality a0 a1) = imgOf a1 ) ∧ (serving (setQuality a0 a1) = serving a1 ) ∧
    (working (setQuality a0 a1) = working a1 ) ∧ (alive (setQuality a0 a1) = alive a1 ) ∧ (upState (setQuality a0 a1) = upState a1 ) ∧
    (portOn (setQuality a0 a1) = portOn a1 ) ∧ (∀ (e : Env), dieNo e (setQuality a0 a1) = dieNo e a1 ) ∧ (∀ (e : Env), nodeNo e (setQuality a0 a1) = nodeNo e a1 ) ∧
    (∀ (e : Env) (c : Nat), coreId e (setQuality a0 a1) c = coreId e a1 c) ∧ (∀ (e : Env) (c : Nat), unitId e (setQuality a0 a1) c = unitId e a1 c) ∧ (∀ (c : Nat), chan (setQuality a0 a1) c = chan a1 c) ∧
    (∀ (x : Word), entOk (setQuality a0 a1) x = entOk a1 x) ∧ (∀ (c : Nat), groupOf (setQuality a0 a1) c = groupOf a1 c) ∧ (∀ (c : Nat), probing (setQuality a0 a1) c = probing a1 c) ∧
    (∀ (e : Env) (x : Word), presentCore e (setQuality a0 a1) x = presentCore e a1 x) := by
  have k := (setQuality_only a0 a1).keep
  exact ⟨fun c => cell_congr (k .cells (by decide)) c, fun c => hubc_congr (k .hubc (by decide)) c, fun c => region_congr (k .regions (by decide)) c, fun x => entity_congr (k .casc (by decide)) x, imgOf_congr (k .img (by decide)), serving_congr (k .sys (by decide)), working_congr (k .sys (by decide)), alive_congr (k .sys (by decide)), upState_congr (k .sys (by decide)), portOn_congr (k .sys (by decide)), fun e  => dieNo_congr e (k .img (by decide)), fun e  => nodeNo_congr e (k .img (by decide)), fun e c => coreId_congr e (k .img (by decide)) c, fun e c => unitId_congr e (k .img (by decide)) c, fun c => chan_congr (k .cmd (by decide)) c, fun x => entOk_congr (k .img (by decide)) x, fun c => groupOf_congr (k .img (by decide)) (k .jobs (by decide)) c, fun c => probing_congr (k .age (by decide)) c, fun e x => presentCore_congr e (k .img (by decide)) x⟩

@[simp] theorem stepTb_reads (a0 a1) :
    (∀ (c : Nat), cell (stepTb a0 a1) c = cell a1 c) ∧ (∀ (c : Nat), Sys2Proof.Machine.hubc (stepTb a0 a1) c = Sys2Proof.Machine.hubc a1 c) ∧ (∀ (c : Nat), region (stepTb a0 a1) c = region a1 c) ∧
    (∀ (x : Word), entity (stepTb a0 a1) x = entity a1 x) ∧ (imgOf (stepTb a0 a1) = imgOf a1 ) ∧ (serving (stepTb a0 a1) = serving a1 ) ∧
    (working (stepTb a0 a1) = working a1 ) ∧ (alive (stepTb a0 a1) = alive a1 ) ∧ (upState (stepTb a0 a1) = upState a1 ) ∧
    (portOn (stepTb a0 a1) = portOn a1 ) ∧ (∀ (e : Env), dieNo e (stepTb a0 a1) = dieNo e a1 ) ∧ (∀ (e : Env), nodeNo e (stepTb a0 a1) = nodeNo e a1 ) ∧
    (∀ (e : Env) (c : Nat), coreId e (stepTb a0 a1) c = coreId e a1 c) ∧ (∀ (e : Env) (c : Nat), unitId e (stepTb a0 a1) c = unitId e a1 c) ∧ (∀ (c : Nat), chan (stepTb a0 a1) c = chan a1 c) ∧
    (∀ (x : Word), entOk (stepTb a0 a1) x = entOk a1 x) ∧ (∀ (c : Nat), groupOf (stepTb a0 a1) c = groupOf a1 c) ∧ (∀ (c : Nat), probing (stepTb a0 a1) c = probing a1 c) ∧
    (∀ (e : Env) (x : Word), presentCore e (stepTb a0 a1) x = presentCore e a1 x) := by
  have k := (stepTb_only a0 a1).keep
  exact ⟨fun c => cell_congr (k .cells (by decide)) c, fun c => hubc_congr (k .hubc (by decide)) c, fun c => region_congr (k .regions (by decide)) c, fun x => entity_congr (k .casc (by decide)) x, imgOf_congr (k .img (by decide)), serving_congr (k .sys (by decide)), working_congr (k .sys (by decide)), alive_congr (k .sys (by decide)), upState_congr (k .sys (by decide)), portOn_congr (k .sys (by decide)), fun e  => dieNo_congr e (k .img (by decide)), fun e  => nodeNo_congr e (k .img (by decide)), fun e c => coreId_congr e (k .img (by decide)) c, fun e c => unitId_congr e (k .img (by decide)) c, fun c => chan_congr (k .cmd (by decide)) c, fun x => entOk_congr (k .img (by decide)) x, fun c => groupOf_congr (k .img (by decide)) (k .jobs (by decide)) c, fun c => probing_congr (k .age (by decide)) c, fun e x => presentCore_congr e (k .img (by decide)) x⟩

@[simp] theorem correct_reads (a0 a1) :
    (∀ (c : Nat), cell (correct a0 a1) c = cell a1 c) ∧ (∀ (c : Nat), Sys2Proof.Machine.hubc (correct a0 a1) c = Sys2Proof.Machine.hubc a1 c) ∧ (∀ (c : Nat), region (correct a0 a1) c = region a1 c) ∧
    (∀ (x : Word), entity (correct a0 a1) x = entity a1 x) ∧ (imgOf (correct a0 a1) = imgOf a1 ) ∧ (serving (correct a0 a1) = serving a1 ) ∧
    (working (correct a0 a1) = working a1 ) ∧ (alive (correct a0 a1) = alive a1 ) ∧ (upState (correct a0 a1) = upState a1 ) ∧
    (portOn (correct a0 a1) = portOn a1 ) ∧ (∀ (e : Env), dieNo e (correct a0 a1) = dieNo e a1 ) ∧ (∀ (e : Env), nodeNo e (correct a0 a1) = nodeNo e a1 ) ∧
    (∀ (e : Env) (c : Nat), coreId e (correct a0 a1) c = coreId e a1 c) ∧ (∀ (e : Env) (c : Nat), unitId e (correct a0 a1) c = unitId e a1 c) ∧ (∀ (c : Nat), chan (correct a0 a1) c = chan a1 c) ∧
    (∀ (x : Word), entOk (correct a0 a1) x = entOk a1 x) ∧ (∀ (c : Nat), groupOf (correct a0 a1) c = groupOf a1 c) ∧ (∀ (c : Nat), probing (correct a0 a1) c = probing a1 c) ∧
    (∀ (e : Env) (x : Word), presentCore e (correct a0 a1) x = presentCore e a1 x) := by
  have k := (correct_only a0 a1).keep
  exact ⟨fun c => cell_congr (k .cells (by decide)) c, fun c => hubc_congr (k .hubc (by decide)) c, fun c => region_congr (k .regions (by decide)) c, fun x => entity_congr (k .casc (by decide)) x, imgOf_congr (k .img (by decide)), serving_congr (k .sys (by decide)), working_congr (k .sys (by decide)), alive_congr (k .sys (by decide)), upState_congr (k .sys (by decide)), portOn_congr (k .sys (by decide)), fun e  => dieNo_congr e (k .img (by decide)), fun e  => nodeNo_congr e (k .img (by decide)), fun e c => coreId_congr e (k .img (by decide)) c, fun e c => unitId_congr e (k .img (by decide)) c, fun c => chan_congr (k .cmd (by decide)) c, fun x => entOk_congr (k .img (by decide)) x, fun c => groupOf_congr (k .img (by decide)) (k .jobs (by decide)) c, fun c => probing_congr (k .age (by decide)) c, fun e x => presentCore_congr e (k .img (by decide)) x⟩

@[simp] theorem featWrite_reads (a0 a1 a2 a3 a4) :
    (∀ (c : Nat), cell (featWrite a0 a1 a2 a3 a4) c = cell a4 c) ∧ (∀ (c : Nat), Sys2Proof.Machine.hubc (featWrite a0 a1 a2 a3 a4) c = Sys2Proof.Machine.hubc a4 c) ∧ (∀ (c : Nat), region (featWrite a0 a1 a2 a3 a4) c = region a4 c) ∧
    (∀ (x : Word), entity (featWrite a0 a1 a2 a3 a4) x = entity a4 x) ∧ (nowNs (featWrite a0 a1 a2 a3 a4) = nowNs a4 ) ∧ (imgOf (featWrite a0 a1 a2 a3 a4) = imgOf a4 ) ∧
    (serving (featWrite a0 a1 a2 a3 a4) = serving a4 ) ∧ (working (featWrite a0 a1 a2 a3 a4) = working a4 ) ∧ (alive (featWrite a0 a1 a2 a3 a4) = alive a4 ) ∧
    (upState (featWrite a0 a1 a2 a3 a4) = upState a4 ) ∧ (portOn (featWrite a0 a1 a2 a3 a4) = portOn a4 ) ∧ (∀ (e : Env), dieNo e (featWrite a0 a1 a2 a3 a4) = dieNo e a4 ) ∧
    (∀ (e : Env), nodeNo e (featWrite a0 a1 a2 a3 a4) = nodeNo e a4 ) ∧ (∀ (e : Env) (c : Nat), coreId e (featWrite a0 a1 a2 a3 a4) c = coreId e a4 c) ∧ (∀ (e : Env) (c : Nat), unitId e (featWrite a0 a1 a2 a3 a4) c = unitId e a4 c) ∧
    (∀ (c : Nat), chan (featWrite a0 a1 a2 a3 a4) c = chan a4 c) ∧ (∀ (x : Word), entOk (featWrite a0 a1 a2 a3 a4) x = entOk a4 x) ∧ (∀ (c : Nat), groupOf (featWrite a0 a1 a2 a3 a4) c = groupOf a4 c) ∧
    (∀ (c : Nat), probing (featWrite a0 a1 a2 a3 a4) c = probing a4 c) ∧ (∀ (e : Env) (x : Word), presentCore e (featWrite a0 a1 a2 a3 a4) x = presentCore e a4 x) := by
  have k := (featWrite_only a0 a1 a2 a3 a4).keep
  exact ⟨fun c => cell_congr (k .cells (by decide)) c, fun c => hubc_congr (k .hubc (by decide)) c, fun c => region_congr (k .regions (by decide)) c, fun x => entity_congr (k .casc (by decide)) x, nowNs_congr (k .time (by decide)), imgOf_congr (k .img (by decide)), serving_congr (k .sys (by decide)), working_congr (k .sys (by decide)), alive_congr (k .sys (by decide)), upState_congr (k .sys (by decide)), portOn_congr (k .sys (by decide)), fun e  => dieNo_congr e (k .img (by decide)), fun e  => nodeNo_congr e (k .img (by decide)), fun e c => coreId_congr e (k .img (by decide)) c, fun e c => unitId_congr e (k .img (by decide)) c, fun c => chan_congr (k .cmd (by decide)) c, fun x => entOk_congr (k .img (by decide)) x, fun c => groupOf_congr (k .img (by decide)) (k .jobs (by decide)) c, fun c => probing_congr (k .age (by decide)) c, fun e x => presentCore_congr e (k .img (by decide)) x⟩

@[simp] theorem unitFault_reads (a0 a1 a2 a3 a4 a5 a6) :
    (∀ (c : Nat), cell (unitFault a0 a1 a2 a3 a4 a5 a6) c = cell a6 c) ∧ (∀ (c : Nat), Sys2Proof.Machine.hubc (unitFault a0 a1 a2 a3 a4 a5 a6) c = Sys2Proof.Machine.hubc a6 c) ∧ (∀ (c : Nat), region (unitFault a0 a1 a2 a3 a4 a5 a6) c = region a6 c) ∧
    (nowNs (unitFault a0 a1 a2 a3 a4 a5 a6) = nowNs a6 ) ∧ (imgOf (unitFault a0 a1 a2 a3 a4 a5 a6) = imgOf a6 ) ∧ (serving (unitFault a0 a1 a2 a3 a4 a5 a6) = serving a6 ) ∧
    (working (unitFault a0 a1 a2 a3 a4 a5 a6) = working a6 ) ∧ (alive (unitFault a0 a1 a2 a3 a4 a5 a6) = alive a6 ) ∧ (upState (unitFault a0 a1 a2 a3 a4 a5 a6) = upState a6 ) ∧
    (portOn (unitFault a0 a1 a2 a3 a4 a5 a6) = portOn a6 ) ∧ (∀ (e : Env), dieNo e (unitFault a0 a1 a2 a3 a4 a5 a6) = dieNo e a6 ) ∧ (∀ (e : Env), nodeNo e (unitFault a0 a1 a2 a3 a4 a5 a6) = nodeNo e a6 ) ∧
    (∀ (e : Env) (c : Nat), coreId e (unitFault a0 a1 a2 a3 a4 a5 a6) c = coreId e a6 c) ∧ (∀ (e : Env) (c : Nat), unitId e (unitFault a0 a1 a2 a3 a4 a5 a6) c = unitId e a6 c) ∧ (∀ (c : Nat), chan (unitFault a0 a1 a2 a3 a4 a5 a6) c = chan a6 c) ∧
    (∀ (x : Word), entOk (unitFault a0 a1 a2 a3 a4 a5 a6) x = entOk a6 x) ∧ (∀ (c : Nat), groupOf (unitFault a0 a1 a2 a3 a4 a5 a6) c = groupOf a6 c) ∧ (∀ (c : Nat), probing (unitFault a0 a1 a2 a3 a4 a5 a6) c = probing a6 c) ∧
    (∀ (e : Env) (x : Word), presentCore e (unitFault a0 a1 a2 a3 a4 a5 a6) x = presentCore e a6 x) := by
  have k := (unitFault_only a0 a1 a2 a3 a4 a5 a6).keep
  exact ⟨fun c => cell_congr (k .cells (by decide)) c, fun c => hubc_congr (k .hubc (by decide)) c, fun c => region_congr (k .regions (by decide)) c, nowNs_congr (k .time (by decide)), imgOf_congr (k .img (by decide)), serving_congr (k .sys (by decide)), working_congr (k .sys (by decide)), alive_congr (k .sys (by decide)), upState_congr (k .sys (by decide)), portOn_congr (k .sys (by decide)), fun e  => dieNo_congr e (k .img (by decide)), fun e  => nodeNo_congr e (k .img (by decide)), fun e c => coreId_congr e (k .img (by decide)) c, fun e c => unitId_congr e (k .img (by decide)) c, fun c => chan_congr (k .cmd (by decide)) c, fun x => entOk_congr (k .img (by decide)) x, fun c => groupOf_congr (k .img (by decide)) (k .jobs (by decide)) c, fun c => probing_congr (k .age (by decide)) c, fun e x => presentCore_congr e (k .img (by decide)) x⟩

@[simp] theorem lossRecord_reads (a0 a1 a2 a3 a4 a5 a6) :
    (∀ (c : Nat), cell (lossRecord a0 a1 a2 a3 a4 a5 a6) c = cell a6 c) ∧ (∀ (c : Nat), Sys2Proof.Machine.hubc (lossRecord a0 a1 a2 a3 a4 a5 a6) c = Sys2Proof.Machine.hubc a6 c) ∧ (∀ (c : Nat), region (lossRecord a0 a1 a2 a3 a4 a5 a6) c = region a6 c) ∧
    (∀ (x : Word), entity (lossRecord a0 a1 a2 a3 a4 a5 a6) x = entity a6 x) ∧ (nowNs (lossRecord a0 a1 a2 a3 a4 a5 a6) = nowNs a6 ) ∧ (imgOf (lossRecord a0 a1 a2 a3 a4 a5 a6) = imgOf a6 ) ∧
    (serving (lossRecord a0 a1 a2 a3 a4 a5 a6) = serving a6 ) ∧ (working (lossRecord a0 a1 a2 a3 a4 a5 a6) = working a6 ) ∧ (alive (lossRecord a0 a1 a2 a3 a4 a5 a6) = alive a6 ) ∧
    (upState (lossRecord a0 a1 a2 a3 a4 a5 a6) = upState a6 ) ∧ (portOn (lossRecord a0 a1 a2 a3 a4 a5 a6) = portOn a6 ) ∧ (∀ (e : Env), dieNo e (lossRecord a0 a1 a2 a3 a4 a5 a6) = dieNo e a6 ) ∧
    (∀ (e : Env), nodeNo e (lossRecord a0 a1 a2 a3 a4 a5 a6) = nodeNo e a6 ) ∧ (∀ (e : Env) (c : Nat), coreId e (lossRecord a0 a1 a2 a3 a4 a5 a6) c = coreId e a6 c) ∧ (∀ (e : Env) (c : Nat), unitId e (lossRecord a0 a1 a2 a3 a4 a5 a6) c = unitId e a6 c) ∧
    (∀ (c : Nat), chan (lossRecord a0 a1 a2 a3 a4 a5 a6) c = chan a6 c) ∧ (∀ (x : Word), entOk (lossRecord a0 a1 a2 a3 a4 a5 a6) x = entOk a6 x) ∧ (∀ (c : Nat), groupOf (lossRecord a0 a1 a2 a3 a4 a5 a6) c = groupOf a6 c) ∧
    (∀ (c : Nat), probing (lossRecord a0 a1 a2 a3 a4 a5 a6) c = probing a6 c) ∧ (∀ (e : Env) (x : Word), presentCore e (lossRecord a0 a1 a2 a3 a4 a5 a6) x = presentCore e a6 x) := by
  have k := (lossRecord_only a0 a1 a2 a3 a4 a5 a6).keep
  exact ⟨fun c => cell_congr (k .cells (by decide)) c, fun c => hubc_congr (k .hubc (by decide)) c, fun c => region_congr (k .regions (by decide)) c, fun x => entity_congr (k .casc (by decide)) x, nowNs_congr (k .time (by decide)), imgOf_congr (k .img (by decide)), serving_congr (k .sys (by decide)), working_congr (k .sys (by decide)), alive_congr (k .sys (by decide)), upState_congr (k .sys (by decide)), portOn_congr (k .sys (by decide)), fun e  => dieNo_congr e (k .img (by decide)), fun e  => nodeNo_congr e (k .img (by decide)), fun e c => coreId_congr e (k .img (by decide)) c, fun e c => unitId_congr e (k .img (by decide)) c, fun c => chan_congr (k .cmd (by decide)) c, fun x => entOk_congr (k .img (by decide)) x, fun c => groupOf_congr (k .img (by decide)) (k .jobs (by decide)) c, fun c => probing_congr (k .age (by decide)) c, fun e x => presentCore_congr e (k .img (by decide)) x⟩

@[simp] theorem nvPost_reads (a0 a1 a2) :
    (∀ (c : Nat), cell (nvPost a0 a1 a2) c = cell a2 c) ∧ (∀ (c : Nat), Sys2Proof.Machine.hubc (nvPost a0 a1 a2) c = Sys2Proof.Machine.hubc a2 c) ∧ (∀ (c : Nat), region (nvPost a0 a1 a2) c = region a2 c) ∧
    (∀ (x : Word), entity (nvPost a0 a1 a2) x = entity a2 x) ∧ (nowNs (nvPost a0 a1 a2) = nowNs a2 ) ∧ (imgOf (nvPost a0 a1 a2) = imgOf a2 ) ∧
    (serving (nvPost a0 a1 a2) = serving a2 ) ∧ (working (nvPost a0 a1 a2) = working a2 ) ∧ (alive (nvPost a0 a1 a2) = alive a2 ) ∧
    (upState (nvPost a0 a1 a2) = upState a2 ) ∧ (portOn (nvPost a0 a1 a2) = portOn a2 ) ∧ (∀ (e : Env), dieNo e (nvPost a0 a1 a2) = dieNo e a2 ) ∧
    (∀ (e : Env), nodeNo e (nvPost a0 a1 a2) = nodeNo e a2 ) ∧ (∀ (e : Env) (c : Nat), coreId e (nvPost a0 a1 a2) c = coreId e a2 c) ∧ (∀ (e : Env) (c : Nat), unitId e (nvPost a0 a1 a2) c = unitId e a2 c) ∧
    (∀ (c : Nat), chan (nvPost a0 a1 a2) c = chan a2 c) ∧ (∀ (x : Word), entOk (nvPost a0 a1 a2) x = entOk a2 x) ∧ (∀ (c : Nat), groupOf (nvPost a0 a1 a2) c = groupOf a2 c) ∧
    (∀ (c : Nat), probing (nvPost a0 a1 a2) c = probing a2 c) ∧ (∀ (e : Env) (x : Word), presentCore e (nvPost a0 a1 a2) x = presentCore e a2 x) := by
  have k := (nvPost_only a0 a1 a2).keep
  exact ⟨fun c => cell_congr (k .cells (by decide)) c, fun c => hubc_congr (k .hubc (by decide)) c, fun c => region_congr (k .regions (by decide)) c, fun x => entity_congr (k .casc (by decide)) x, nowNs_congr (k .time (by decide)), imgOf_congr (k .img (by decide)), serving_congr (k .sys (by decide)), working_congr (k .sys (by decide)), alive_congr (k .sys (by decide)), upState_congr (k .sys (by decide)), portOn_congr (k .sys (by decide)), fun e  => dieNo_congr e (k .img (by decide)), fun e  => nodeNo_congr e (k .img (by decide)), fun e c => coreId_congr e (k .img (by decide)) c, fun e c => unitId_congr e (k .img (by decide)) c, fun c => chan_congr (k .cmd (by decide)) c, fun x => entOk_congr (k .img (by decide)) x, fun c => groupOf_congr (k .img (by decide)) (k .jobs (by decide)) c, fun c => probing_congr (k .age (by decide)) c, fun e x => presentCore_congr e (k .img (by decide)) x⟩

@[simp] theorem nvErase_reads (a0 a1 a2 a3) :
    (∀ (c : Nat), cell (nvErase a0 a1 a2 a3) c = cell a3 c) ∧ (∀ (c : Nat), Sys2Proof.Machine.hubc (nvErase a0 a1 a2 a3) c = Sys2Proof.Machine.hubc a3 c) ∧ (∀ (c : Nat), region (nvErase a0 a1 a2 a3) c = region a3 c) ∧
    (∀ (x : Word), entity (nvErase a0 a1 a2 a3) x = entity a3 x) ∧ (nowNs (nvErase a0 a1 a2 a3) = nowNs a3 ) ∧ (imgOf (nvErase a0 a1 a2 a3) = imgOf a3 ) ∧
    (serving (nvErase a0 a1 a2 a3) = serving a3 ) ∧ (working (nvErase a0 a1 a2 a3) = working a3 ) ∧ (alive (nvErase a0 a1 a2 a3) = alive a3 ) ∧
    (upState (nvErase a0 a1 a2 a3) = upState a3 ) ∧ (portOn (nvErase a0 a1 a2 a3) = portOn a3 ) ∧ (∀ (e : Env), dieNo e (nvErase a0 a1 a2 a3) = dieNo e a3 ) ∧
    (∀ (e : Env), nodeNo e (nvErase a0 a1 a2 a3) = nodeNo e a3 ) ∧ (∀ (e : Env) (c : Nat), coreId e (nvErase a0 a1 a2 a3) c = coreId e a3 c) ∧ (∀ (e : Env) (c : Nat), unitId e (nvErase a0 a1 a2 a3) c = unitId e a3 c) ∧
    (∀ (c : Nat), chan (nvErase a0 a1 a2 a3) c = chan a3 c) ∧ (∀ (x : Word), entOk (nvErase a0 a1 a2 a3) x = entOk a3 x) ∧ (∀ (c : Nat), groupOf (nvErase a0 a1 a2 a3) c = groupOf a3 c) ∧
    (∀ (c : Nat), probing (nvErase a0 a1 a2 a3) c = probing a3 c) ∧ (∀ (e : Env) (x : Word), presentCore e (nvErase a0 a1 a2 a3) x = presentCore e a3 x) := by
  have k := (nvErase_only a0 a1 a2 a3).keep
  exact ⟨fun c => cell_congr (k .cells (by decide)) c, fun c => hubc_congr (k .hubc (by decide)) c, fun c => region_congr (k .regions (by decide)) c, fun x => entity_congr (k .casc (by decide)) x, nowNs_congr (k .time (by decide)), imgOf_congr (k .img (by decide)), serving_congr (k .sys (by decide)), working_congr (k .sys (by decide)), alive_congr (k .sys (by decide)), upState_congr (k .sys (by decide)), portOn_congr (k .sys (by decide)), fun e  => dieNo_congr e (k .img (by decide)), fun e  => nodeNo_congr e (k .img (by decide)), fun e c => coreId_congr e (k .img (by decide)) c, fun e c => unitId_congr e (k .img (by decide)) c, fun c => chan_congr (k .cmd (by decide)) c, fun x => entOk_congr (k .img (by decide)) x, fun c => groupOf_congr (k .img (by decide)) (k .jobs (by decide)) c, fun c => probing_congr (k .age (by decide)) c, fun e x => presentCore_congr e (k .img (by decide)) x⟩

@[simp] theorem postMem_reads (a0 a1 a2) :
    (∀ (c : Nat), cell (postMem a0 a1 a2) c = cell a2 c) ∧ (∀ (c : Nat), Sys2Proof.Machine.hubc (postMem a0 a1 a2) c = Sys2Proof.Machine.hubc a2 c) ∧ (∀ (c : Nat), region (postMem a0 a1 a2) c = region a2 c) ∧
    (∀ (x : Word), entity (postMem a0 a1 a2) x = entity a2 x) ∧ (nowNs (postMem a0 a1 a2) = nowNs a2 ) ∧ (imgOf (postMem a0 a1 a2) = imgOf a2 ) ∧
    (serving (postMem a0 a1 a2) = serving a2 ) ∧ (working (postMem a0 a1 a2) = working a2 ) ∧ (alive (postMem a0 a1 a2) = alive a2 ) ∧
    (upState (postMem a0 a1 a2) = upState a2 ) ∧ (portOn (postMem a0 a1 a2) = portOn a2 ) ∧ (∀ (e : Env), dieNo e (postMem a0 a1 a2) = dieNo e a2 ) ∧
    (∀ (e : Env), nodeNo e (postMem a0 a1 a2) = nodeNo e a2 ) ∧ (∀ (e : Env) (c : Nat), coreId e (postMem a0 a1 a2) c = coreId e a2 c) ∧ (∀ (e : Env) (c : Nat), unitId e (postMem a0 a1 a2) c = unitId e a2 c) ∧
    (∀ (c : Nat), chan (postMem a0 a1 a2) c = chan a2 c) ∧ (∀ (x : Word), entOk (postMem a0 a1 a2) x = entOk a2 x) ∧ (∀ (c : Nat), groupOf (postMem a0 a1 a2) c = groupOf a2 c) ∧
    (∀ (c : Nat), probing (postMem a0 a1 a2) c = probing a2 c) ∧ (∀ (e : Env) (x : Word), presentCore e (postMem a0 a1 a2) x = presentCore e a2 x) := by
  have k := (postMem_only a0 a1 a2).keep
  exact ⟨fun c => cell_congr (k .cells (by decide)) c, fun c => hubc_congr (k .hubc (by decide)) c, fun c => region_congr (k .regions (by decide)) c, fun x => entity_congr (k .casc (by decide)) x, nowNs_congr (k .time (by decide)), imgOf_congr (k .img (by decide)), serving_congr (k .sys (by decide)), working_congr (k .sys (by decide)), alive_congr (k .sys (by decide)), upState_congr (k .sys (by decide)), portOn_congr (k .sys (by decide)), fun e  => dieNo_congr e (k .img (by decide)), fun e  => nodeNo_congr e (k .img (by decide)), fun e c => coreId_congr e (k .img (by decide)) c, fun e c => unitId_congr e (k .img (by decide)) c, fun c => chan_congr (k .cmd (by decide)) c, fun x => entOk_congr (k .img (by decide)) x, fun c => groupOf_congr (k .img (by decide)) (k .jobs (by decide)) c, fun c => probing_congr (k .age (by decide)) c, fun e x => presentCore_congr e (k .img (by decide)) x⟩

@[simp] theorem pulseLine_reads (a0 a1) :
    (∀ (c : Nat), cell (pulseLine a0 a1) c = cell a1 c) ∧ (∀ (c : Nat), Sys2Proof.Machine.hubc (pulseLine a0 a1) c = Sys2Proof.Machine.hubc a1 c) ∧ (∀ (c : Nat), region (pulseLine a0 a1) c = region a1 c) ∧
    (∀ (x : Word), entity (pulseLine a0 a1) x = entity a1 x) ∧ (nowNs (pulseLine a0 a1) = nowNs a1 ) ∧ (imgOf (pulseLine a0 a1) = imgOf a1 ) ∧
    (serving (pulseLine a0 a1) = serving a1 ) ∧ (working (pulseLine a0 a1) = working a1 ) ∧ (alive (pulseLine a0 a1) = alive a1 ) ∧
    (upState (pulseLine a0 a1) = upState a1 ) ∧ (portOn (pulseLine a0 a1) = portOn a1 ) ∧ (∀ (e : Env), dieNo e (pulseLine a0 a1) = dieNo e a1 ) ∧
    (∀ (e : Env), nodeNo e (pulseLine a0 a1) = nodeNo e a1 ) ∧ (∀ (e : Env) (c : Nat), coreId e (pulseLine a0 a1) c = coreId e a1 c) ∧ (∀ (e : Env) (c : Nat), unitId e (pulseLine a0 a1) c = unitId e a1 c) ∧
    (∀ (c : Nat), chan (pulseLine a0 a1) c = chan a1 c) ∧ (∀ (x : Word), entOk (pulseLine a0 a1) x = entOk a1 x) ∧ (∀ (c : Nat), groupOf (pulseLine a0 a1) c = groupOf a1 c) ∧
    (∀ (c : Nat), probing (pulseLine a0 a1) c = probing a1 c) ∧ (∀ (e : Env) (x : Word), presentCore e (pulseLine a0 a1) x = presentCore e a1 x) := by
  have k := (pulseLine_only a0 a1).keep
  exact ⟨fun c => cell_congr (k .cells (by decide)) c, fun c => hubc_congr (k .hubc (by decide)) c, fun c => region_congr (k .regions (by decide)) c, fun x => entity_congr (k .casc (by decide)) x, nowNs_congr (k .time (by decide)), imgOf_congr (k .img (by decide)), serving_congr (k .sys (by decide)), working_congr (k .sys (by decide)), alive_congr (k .sys (by decide)), upState_congr (k .sys (by decide)), portOn_congr (k .sys (by decide)), fun e  => dieNo_congr e (k .img (by decide)), fun e  => nodeNo_congr e (k .img (by decide)), fun e c => coreId_congr e (k .img (by decide)) c, fun e c => unitId_congr e (k .img (by decide)) c, fun c => chan_congr (k .cmd (by decide)) c, fun x => entOk_congr (k .img (by decide)) x, fun c => groupOf_congr (k .img (by decide)) (k .jobs (by decide)) c, fun c => probing_congr (k .age (by decide)) c, fun e x => presentCore_congr e (k .img (by decide)) x⟩

@[simp] theorem setSeg_reads (a0 a1 a2) :
    (∀ (c : Nat), cell (setSeg a0 a1 a2) c = cell a2 c) ∧ (∀ (c : Nat), Sys2Proof.Machine.hubc (setSeg a0 a1 a2) c = Sys2Proof.Machine.hubc a2 c) ∧ (∀ (c : Nat), region (setSeg a0 a1 a2) c = region a2 c) ∧
    (∀ (x : Word), entity (setSeg a0 a1 a2) x = entity a2 x) ∧ (nowNs (setSeg a0 a1 a2) = nowNs a2 ) ∧ (imgOf (setSeg a0 a1 a2) = imgOf a2 ) ∧
    (serving (setSeg a0 a1 a2) = serving a2 ) ∧ (working (setSeg a0 a1 a2) = working a2 ) ∧ (alive (setSeg a0 a1 a2) = alive a2 ) ∧
    (upState (setSeg a0 a1 a2) = upState a2 ) ∧ (portOn (setSeg a0 a1 a2) = portOn a2 ) ∧ (∀ (e : Env), dieNo e (setSeg a0 a1 a2) = dieNo e a2 ) ∧
    (∀ (e : Env), nodeNo e (setSeg a0 a1 a2) = nodeNo e a2 ) ∧ (∀ (e : Env) (c : Nat), coreId e (setSeg a0 a1 a2) c = coreId e a2 c) ∧ (∀ (e : Env) (c : Nat), unitId e (setSeg a0 a1 a2) c = unitId e a2 c) ∧
    (∀ (c : Nat), chan (setSeg a0 a1 a2) c = chan a2 c) ∧ (∀ (x : Word), entOk (setSeg a0 a1 a2) x = entOk a2 x) ∧ (∀ (c : Nat), groupOf (setSeg a0 a1 a2) c = groupOf a2 c) ∧
    (∀ (c : Nat), probing (setSeg a0 a1 a2) c = probing a2 c) ∧ (∀ (e : Env) (x : Word), presentCore e (setSeg a0 a1 a2) x = presentCore e a2 x) := by
  have k := (setSeg_only a0 a1 a2).keep
  exact ⟨fun c => cell_congr (k .cells (by decide)) c, fun c => hubc_congr (k .hubc (by decide)) c, fun c => region_congr (k .regions (by decide)) c, fun x => entity_congr (k .casc (by decide)) x, nowNs_congr (k .time (by decide)), imgOf_congr (k .img (by decide)), serving_congr (k .sys (by decide)), working_congr (k .sys (by decide)), alive_congr (k .sys (by decide)), upState_congr (k .sys (by decide)), portOn_congr (k .sys (by decide)), fun e  => dieNo_congr e (k .img (by decide)), fun e  => nodeNo_congr e (k .img (by decide)), fun e c => coreId_congr e (k .img (by decide)) c, fun e c => unitId_congr e (k .img (by decide)) c, fun c => chan_congr (k .cmd (by decide)) c, fun x => entOk_congr (k .img (by decide)) x, fun c => groupOf_congr (k .img (by decide)) (k .jobs (by decide)) c, fun c => probing_congr (k .age (by decide)) c, fun e x => presentCore_congr e (k .img (by decide)) x⟩

@[simp] theorem access_reads (a0 a1 a2) :
    (∀ (c : Nat), cell (access a0 a1 a2) c = cell a2 c) ∧ (∀ (c : Nat), Sys2Proof.Machine.hubc (access a0 a1 a2) c = Sys2Proof.Machine.hubc a2 c) ∧ (∀ (c : Nat), region (access a0 a1 a2) c = region a2 c) ∧
    (∀ (x : Word), entity (access a0 a1 a2) x = entity a2 x) ∧ (nowNs (access a0 a1 a2) = nowNs a2 ) ∧ (imgOf (access a0 a1 a2) = imgOf a2 ) ∧
    (serving (access a0 a1 a2) = serving a2 ) ∧ (working (access a0 a1 a2) = working a2 ) ∧ (alive (access a0 a1 a2) = alive a2 ) ∧
    (upState (access a0 a1 a2) = upState a2 ) ∧ (portOn (access a0 a1 a2) = portOn a2 ) ∧ (∀ (e : Env), dieNo e (access a0 a1 a2) = dieNo e a2 ) ∧
    (∀ (e : Env), nodeNo e (access a0 a1 a2) = nodeNo e a2 ) ∧ (∀ (e : Env) (c : Nat), coreId e (access a0 a1 a2) c = coreId e a2 c) ∧ (∀ (e : Env) (c : Nat), unitId e (access a0 a1 a2) c = unitId e a2 c) ∧
    (∀ (c : Nat), chan (access a0 a1 a2) c = chan a2 c) ∧ (∀ (x : Word), entOk (access a0 a1 a2) x = entOk a2 x) ∧ (∀ (c : Nat), groupOf (access a0 a1 a2) c = groupOf a2 c) ∧
    (∀ (c : Nat), probing (access a0 a1 a2) c = probing a2 c) ∧ (∀ (e : Env) (x : Word), presentCore e (access a0 a1 a2) x = presentCore e a2 x) := by
  have k := (access_only a0 a1 a2).keep
  exact ⟨fun c => cell_congr (k .cells (by decide)) c, fun c => hubc_congr (k .hubc (by decide)) c, fun c => region_congr (k .regions (by decide)) c, fun x => entity_congr (k .casc (by decide)) x, nowNs_congr (k .time (by decide)), imgOf_congr (k .img (by decide)), serving_congr (k .sys (by decide)), working_congr (k .sys (by decide)), alive_congr (k .sys (by decide)), upState_congr (k .sys (by decide)), portOn_congr (k .sys (by decide)), fun e  => dieNo_congr e (k .img (by decide)), fun e  => nodeNo_congr e (k .img (by decide)), fun e c => coreId_congr e (k .img (by decide)) c, fun e c => unitId_congr e (k .img (by decide)) c, fun c => chan_congr (k .cmd (by decide)) c, fun x => entOk_congr (k .img (by decide)) x, fun c => groupOf_congr (k .img (by decide)) (k .jobs (by decide)) c, fun c => probing_congr (k .age (by decide)) c, fun e x => presentCore_congr e (k .img (by decide)) x⟩

@[simp] theorem dmaPump_reads (a0 a1) :
    (nowNs (dmaPump a0 a1) = nowNs a1 ) ∧ (imgOf (dmaPump a0 a1) = imgOf a1 ) ∧ (serving (dmaPump a0 a1) = serving a1 ) ∧
    (working (dmaPump a0 a1) = working a1 ) ∧ (alive (dmaPump a0 a1) = alive a1 ) ∧ (upState (dmaPump a0 a1) = upState a1 ) ∧
    (portOn (dmaPump a0 a1) = portOn a1 ) ∧ (∀ (e : Env), dieNo e (dmaPump a0 a1) = dieNo e a1 ) ∧ (∀ (e : Env), nodeNo e (dmaPump a0 a1) = nodeNo e a1 ) ∧
    (∀ (e : Env) (c : Nat), coreId e (dmaPump a0 a1) c = coreId e a1 c) ∧ (∀ (e : Env) (c : Nat), unitId e (dmaPump a0 a1) c = unitId e a1 c) ∧ (∀ (c : Nat), chan (dmaPump a0 a1) c = chan a1 c) ∧
    (∀ (x : Word), entOk (dmaPump a0 a1) x = entOk a1 x) ∧ (∀ (c : Nat), groupOf (dmaPump a0 a1) c = groupOf a1 c) ∧ (∀ (e : Env) (x : Word), presentCore e (dmaPump a0 a1) x = presentCore e a1 x) := by
  have k := (dmaPump_only a0 a1).keep
  exact ⟨nowNs_congr (k .time (by decide)), imgOf_congr (k .img (by decide)), serving_congr (k .sys (by decide)), working_congr (k .sys (by decide)), alive_congr (k .sys (by decide)), upState_congr (k .sys (by decide)), portOn_congr (k .sys (by decide)), fun e  => dieNo_congr e (k .img (by decide)), fun e  => nodeNo_congr e (k .img (by decide)), fun e c => coreId_congr e (k .img (by decide)) c, fun e c => unitId_congr e (k .img (by decide)) c, fun c => chan_congr (k .cmd (by decide)) c, fun x => entOk_congr (k .img (by decide)) x, fun c => groupOf_congr (k .img (by decide)) (k .jobs (by decide)) c, fun e x => presentCore_congr e (k .img (by decide)) x⟩

@[simp] theorem mgtSend_reads (a0 a1 a2 a3) :
    (∀ (c : Nat), cell (mgtSend a0 a1 a2 a3) c = cell a3 c) ∧ (∀ (c : Nat), Sys2Proof.Machine.hubc (mgtSend a0 a1 a2 a3) c = Sys2Proof.Machine.hubc a3 c) ∧ (∀ (c : Nat), region (mgtSend a0 a1 a2 a3) c = region a3 c) ∧
    (∀ (x : Word), entity (mgtSend a0 a1 a2 a3) x = entity a3 x) ∧ (nowNs (mgtSend a0 a1 a2 a3) = nowNs a3 ) ∧ (imgOf (mgtSend a0 a1 a2 a3) = imgOf a3 ) ∧
    (serving (mgtSend a0 a1 a2 a3) = serving a3 ) ∧ (working (mgtSend a0 a1 a2 a3) = working a3 ) ∧ (alive (mgtSend a0 a1 a2 a3) = alive a3 ) ∧
    (upState (mgtSend a0 a1 a2 a3) = upState a3 ) ∧ (portOn (mgtSend a0 a1 a2 a3) = portOn a3 ) ∧ (∀ (e : Env), dieNo e (mgtSend a0 a1 a2 a3) = dieNo e a3 ) ∧
    (∀ (e : Env), nodeNo e (mgtSend a0 a1 a2 a3) = nodeNo e a3 ) ∧ (∀ (e : Env) (c : Nat), coreId e (mgtSend a0 a1 a2 a3) c = coreId e a3 c) ∧ (∀ (e : Env) (c : Nat), unitId e (mgtSend a0 a1 a2 a3) c = unitId e a3 c) ∧
    (∀ (c : Nat), chan (mgtSend a0 a1 a2 a3) c = chan a3 c) ∧ (∀ (x : Word), entOk (mgtSend a0 a1 a2 a3) x = entOk a3 x) ∧ (∀ (c : Nat), groupOf (mgtSend a0 a1 a2 a3) c = groupOf a3 c) ∧
    (∀ (c : Nat), probing (mgtSend a0 a1 a2 a3) c = probing a3 c) ∧ (∀ (e : Env) (x : Word), presentCore e (mgtSend a0 a1 a2 a3) x = presentCore e a3 x) := by
  have k := (mgtSend_only a0 a1 a2 a3).keep
  exact ⟨fun c => cell_congr (k .cells (by decide)) c, fun c => hubc_congr (k .hubc (by decide)) c, fun c => region_congr (k .regions (by decide)) c, fun x => entity_congr (k .casc (by decide)) x, nowNs_congr (k .time (by decide)), imgOf_congr (k .img (by decide)), serving_congr (k .sys (by decide)), working_congr (k .sys (by decide)), alive_congr (k .sys (by decide)), upState_congr (k .sys (by decide)), portOn_congr (k .sys (by decide)), fun e  => dieNo_congr e (k .img (by decide)), fun e  => nodeNo_congr e (k .img (by decide)), fun e c => coreId_congr e (k .img (by decide)) c, fun e c => unitId_congr e (k .img (by decide)) c, fun c => chan_congr (k .cmd (by decide)) c, fun x => entOk_congr (k .img (by decide)) x, fun c => groupOf_congr (k .img (by decide)) (k .jobs (by decide)) c, fun c => probing_congr (k .age (by decide)) c, fun e x => presentCore_congr e (k .img (by decide)) x⟩

@[simp] theorem sbNextMseq_reads (a0) :
    (∀ (c : Nat), cell (sbNextMseq a0) c = cell a0 c) ∧ (∀ (c : Nat), Sys2Proof.Machine.hubc (sbNextMseq a0) c = Sys2Proof.Machine.hubc a0 c) ∧ (∀ (c : Nat), region (sbNextMseq a0) c = region a0 c) ∧
    (∀ (x : Word), entity (sbNextMseq a0) x = entity a0 x) ∧ (nowNs (sbNextMseq a0) = nowNs a0 ) ∧ (imgOf (sbNextMseq a0) = imgOf a0 ) ∧
    (serving (sbNextMseq a0) = serving a0 ) ∧ (working (sbNextMseq a0) = working a0 ) ∧ (alive (sbNextMseq a0) = alive a0 ) ∧
    (upState (sbNextMseq a0) = upState a0 ) ∧ (portOn (sbNextMseq a0) = portOn a0 ) ∧ (∀ (e : Env), dieNo e (sbNextMseq a0) = dieNo e a0 ) ∧
    (∀ (e : Env), nodeNo e (sbNextMseq a0) = nodeNo e a0 ) ∧ (∀ (e : Env) (c : Nat), coreId e (sbNextMseq a0) c = coreId e a0 c) ∧ (∀ (e : Env) (c : Nat), unitId e (sbNextMseq a0) c = unitId e a0 c) ∧
    (∀ (c : Nat), chan (sbNextMseq a0) c = chan a0 c) ∧ (∀ (x : Word), entOk (sbNextMseq a0) x = entOk a0 x) ∧ (∀ (c : Nat), groupOf (sbNextMseq a0) c = groupOf a0 c) ∧
    (∀ (c : Nat), probing (sbNextMseq a0) c = probing a0 c) ∧ (∀ (e : Env) (x : Word), presentCore e (sbNextMseq a0) x = presentCore e a0 x) := by
  have k := (sbNextMseq_only a0).keep
  exact ⟨fun c => cell_congr (k .cells (by decide)) c, fun c => hubc_congr (k .hubc (by decide)) c, fun c => region_congr (k .regions (by decide)) c, fun x => entity_congr (k .casc (by decide)) x, nowNs_congr (k .time (by decide)), imgOf_congr (k .img (by decide)), serving_congr (k .sys (by decide)), working_congr (k .sys (by decide)), alive_congr (k .sys (by decide)), upState_congr (k .sys (by decide)), portOn_congr (k .sys (by decide)), fun e  => dieNo_congr e (k .img (by decide)), fun e  => nodeNo_congr e (k .img (by decide)), fun e c => coreId_congr e (k .img (by decide)) c, fun e c => unitId_congr e (k .img (by decide)) c, fun c => chan_congr (k .cmd (by decide)) c, fun x => entOk_congr (k .img (by decide)) x, fun c => groupOf_congr (k .img (by decide)) (k .jobs (by decide)) c, fun c => probing_congr (k .age (by decide)) c, fun e x => presentCore_congr e (k .img (by decide)) x⟩

@[simp] theorem noteFlood_reads (a0 a1) :
    (∀ (c : Nat), cell (noteFlood a0 a1) c = cell a1 c) ∧ (∀ (c : Nat), Sys2Proof.Machine.hubc (noteFlood a0 a1) c = Sys2Proof.Machine.hubc a1 c) ∧ (∀ (c : Nat), region (noteFlood a0 a1) c = region a1 c) ∧
    (∀ (x : Word), entity (noteFlood a0 a1) x = entity a1 x) ∧ (nowNs (noteFlood a0 a1) = nowNs a1 ) ∧ (imgOf (noteFlood a0 a1) = imgOf a1 ) ∧
    (serving (noteFlood a0 a1) = serving a1 ) ∧ (working (noteFlood a0 a1) = working a1 ) ∧ (alive (noteFlood a0 a1) = alive a1 ) ∧
    (upState (noteFlood a0 a1) = upState a1 ) ∧ (portOn (noteFlood a0 a1) = portOn a1 ) ∧ (∀ (e : Env), dieNo e (noteFlood a0 a1) = dieNo e a1 ) ∧
    (∀ (e : Env), nodeNo e (noteFlood a0 a1) = nodeNo e a1 ) ∧ (∀ (e : Env) (c : Nat), coreId e (noteFlood a0 a1) c = coreId e a1 c) ∧ (∀ (e : Env) (c : Nat), unitId e (noteFlood a0 a1) c = unitId e a1 c) ∧
    (∀ (c : Nat), chan (noteFlood a0 a1) c = chan a1 c) ∧ (∀ (x : Word), entOk (noteFlood a0 a1) x = entOk a1 x) ∧ (∀ (c : Nat), groupOf (noteFlood a0 a1) c = groupOf a1 c) ∧
    (∀ (c : Nat), probing (noteFlood a0 a1) c = probing a1 c) ∧ (∀ (e : Env) (x : Word), presentCore e (noteFlood a0 a1) x = presentCore e a1 x) := by
  have k := (noteFlood_only a0 a1).keep
  exact ⟨fun c => cell_congr (k .cells (by decide)) c, fun c => hubc_congr (k .hubc (by decide)) c, fun c => region_congr (k .regions (by decide)) c, fun x => entity_congr (k .casc (by decide)) x, nowNs_congr (k .time (by decide)), imgOf_congr (k .img (by decide)), serving_congr (k .sys (by decide)), working_congr (k .sys (by decide)), alive_congr (k .sys (by decide)), upState_congr (k .sys (by decide)), portOn_congr (k .sys (by decide)), fun e  => dieNo_congr e (k .img (by decide)), fun e  => nodeNo_congr e (k .img (by decide)), fun e c => coreId_congr e (k .img (by decide)) c, fun e c => unitId_congr e (k .img (by decide)) c, fun c => chan_congr (k .cmd (by decide)) c, fun x => entOk_congr (k .img (by decide)) x, fun c => groupOf_congr (k .img (by decide)) (k .jobs (by decide)) c, fun c => probing_congr (k .age (by decide)) c, fun e x => presentCore_congr e (k .img (by decide)) x⟩

@[simp] theorem chargePort_reads (a0 a1 a2) :
    (∀ (c : Nat), cell (chargePort a0 a1 a2) c = cell a2 c) ∧ (∀ (c : Nat), Sys2Proof.Machine.hubc (chargePort a0 a1 a2) c = Sys2Proof.Machine.hubc a2 c) ∧ (∀ (c : Nat), region (chargePort a0 a1 a2) c = region a2 c) ∧
    (nowNs (chargePort a0 a1 a2) = nowNs a2 ) ∧ (imgOf (chargePort a0 a1 a2) = imgOf a2 ) ∧ (serving (chargePort a0 a1 a2) = serving a2 ) ∧
    (working (chargePort a0 a1 a2) = working a2 ) ∧ (alive (chargePort a0 a1 a2) = alive a2 ) ∧ (upState (chargePort a0 a1 a2) = upState a2 ) ∧
    (portOn (chargePort a0 a1 a2) = portOn a2 ) ∧ (∀ (e : Env), dieNo e (chargePort a0 a1 a2) = dieNo e a2 ) ∧ (∀ (e : Env), nodeNo e (chargePort a0 a1 a2) = nodeNo e a2 ) ∧
    (∀ (e : Env) (c : Nat), coreId e (chargePort a0 a1 a2) c = coreId e a2 c) ∧ (∀ (e : Env) (c : Nat), unitId e (chargePort a0 a1 a2) c = unitId e a2 c) ∧ (∀ (c : Nat), chan (chargePort a0 a1 a2) c = chan a2 c) ∧
    (∀ (x : Word), entOk (chargePort a0 a1 a2) x = entOk a2 x) ∧ (∀ (c : Nat), groupOf (chargePort a0 a1 a2) c = groupOf a2 c) ∧ (∀ (c : Nat), probing (chargePort a0 a1 a2) c = probing a2 c) ∧
    (∀ (e : Env) (x : Word), presentCore e (chargePort a0 a1 a2) x = presentCore e a2 x) := by
  have k := (chargePort_only a0 a1 a2).keep
  exact ⟨fun c => cell_congr (k .cells (by decide)) c, fun c => hubc_congr (k .hubc (by decide)) c, fun c => region_congr (k .regions (by decide)) c, nowNs_congr (k .time (by decide)), imgOf_congr (k .img (by decide)), serving_congr (k .sys (by decide)), working_congr (k .sys (by decide)), alive_congr (k .sys (by decide)), upState_congr (k .sys (by decide)), portOn_congr (k .sys (by decide)), fun e  => dieNo_congr e (k .img (by decide)), fun e  => nodeNo_congr e (k .img (by decide)), fun e c => coreId_congr e (k .img (by decide)) c, fun e c => unitId_congr e (k .img (by decide)) c, fun c => chan_congr (k .cmd (by decide)) c, fun x => entOk_congr (k .img (by decide)) x, fun c => groupOf_congr (k .img (by decide)) (k .jobs (by decide)) c, fun c => probing_congr (k .age (by decide)) c, fun e x => presentCore_congr e (k .img (by decide)) x⟩

@[simp] theorem sbOut_reads (a0 a1 a2) :
    (∀ (c : Nat), cell (sbOut a0 a1 a2) c = cell a2 c) ∧ (∀ (c : Nat), Sys2Proof.Machine.hubc (sbOut a0 a1 a2) c = Sys2Proof.Machine.hubc a2 c) ∧ (∀ (c : Nat), region (sbOut a0 a1 a2) c = region a2 c) ∧
    (∀ (x : Word), entity (sbOut a0 a1 a2) x = entity a2 x) ∧ (nowNs (sbOut a0 a1 a2) = nowNs a2 ) ∧ (imgOf (sbOut a0 a1 a2) = imgOf a2 ) ∧
    (serving (sbOut a0 a1 a2) = serving a2 ) ∧ (working (sbOut a0 a1 a2) = working a2 ) ∧ (alive (sbOut a0 a1 a2) = alive a2 ) ∧
    (upState (sbOut a0 a1 a2) = upState a2 ) ∧ (portOn (sbOut a0 a1 a2) = portOn a2 ) ∧ (∀ (e : Env), dieNo e (sbOut a0 a1 a2) = dieNo e a2 ) ∧
    (∀ (e : Env), nodeNo e (sbOut a0 a1 a2) = nodeNo e a2 ) ∧ (∀ (e : Env) (c : Nat), coreId e (sbOut a0 a1 a2) c = coreId e a2 c) ∧ (∀ (e : Env) (c : Nat), unitId e (sbOut a0 a1 a2) c = unitId e a2 c) ∧
    (∀ (c : Nat), chan (sbOut a0 a1 a2) c = chan a2 c) ∧ (∀ (x : Word), entOk (sbOut a0 a1 a2) x = entOk a2 x) ∧ (∀ (c : Nat), groupOf (sbOut a0 a1 a2) c = groupOf a2 c) ∧
    (∀ (c : Nat), probing (sbOut a0 a1 a2) c = probing a2 c) ∧ (∀ (e : Env) (x : Word), presentCore e (sbOut a0 a1 a2) x = presentCore e a2 x) := by
  have k := (sbOut_only a0 a1 a2).keep
  exact ⟨fun c => cell_congr (k .cells (by decide)) c, fun c => hubc_congr (k .hubc (by decide)) c, fun c => region_congr (k .regions (by decide)) c, fun x => entity_congr (k .casc (by decide)) x, nowNs_congr (k .time (by decide)), imgOf_congr (k .img (by decide)), serving_congr (k .sys (by decide)), working_congr (k .sys (by decide)), alive_congr (k .sys (by decide)), upState_congr (k .sys (by decide)), portOn_congr (k .sys (by decide)), fun e  => dieNo_congr e (k .img (by decide)), fun e  => nodeNo_congr e (k .img (by decide)), fun e c => coreId_congr e (k .img (by decide)) c, fun e c => unitId_congr e (k .img (by decide)) c, fun c => chan_congr (k .cmd (by decide)) c, fun x => entOk_congr (k .img (by decide)) x, fun c => groupOf_congr (k .img (by decide)) (k .jobs (by decide)) c, fun c => probing_congr (k .age (by decide)) c, fun e x => presentCore_congr e (k .img (by decide)) x⟩

@[simp] theorem sbUp_reads (a0 a1 a2 a3) :
    (∀ (c : Nat), cell (sbUp a0 a1 a2 a3) c = cell a3 c) ∧ (∀ (c : Nat), Sys2Proof.Machine.hubc (sbUp a0 a1 a2 a3) c = Sys2Proof.Machine.hubc a3 c) ∧ (∀ (c : Nat), region (sbUp a0 a1 a2 a3) c = region a3 c) ∧
    (∀ (x : Word), entity (sbUp a0 a1 a2 a3) x = entity a3 x) ∧ (nowNs (sbUp a0 a1 a2 a3) = nowNs a3 ) ∧ (imgOf (sbUp a0 a1 a2 a3) = imgOf a3 ) ∧
    (serving (sbUp a0 a1 a2 a3) = serving a3 ) ∧ (working (sbUp a0 a1 a2 a3) = working a3 ) ∧ (alive (sbUp a0 a1 a2 a3) = alive a3 ) ∧
    (upState (sbUp a0 a1 a2 a3) = upState a3 ) ∧ (portOn (sbUp a0 a1 a2 a3) = portOn a3 ) ∧ (∀ (e : Env), dieNo e (sbUp a0 a1 a2 a3) = dieNo e a3 ) ∧
    (∀ (e : Env), nodeNo e (sbUp a0 a1 a2 a3) = nodeNo e a3 ) ∧ (∀ (e : Env) (c : Nat), coreId e (sbUp a0 a1 a2 a3) c = coreId e a3 c) ∧ (∀ (e : Env) (c : Nat), unitId e (sbUp a0 a1 a2 a3) c = unitId e a3 c) ∧
    (∀ (c : Nat), chan (sbUp a0 a1 a2 a3) c = chan a3 c) ∧ (∀ (x : Word), entOk (sbUp a0 a1 a2 a3) x = entOk a3 x) ∧ (∀ (c : Nat), groupOf (sbUp a0 a1 a2 a3) c = groupOf a3 c) ∧
    (∀ (c : Nat), probing (sbUp a0 a1 a2 a3) c = probing a3 c) ∧ (∀ (e : Env) (x : Word), presentCore e (sbUp a0 a1 a2 a3) x = presentCore e a3 x) := by
  have k := (sbUp_only a0 a1 a2 a3).keep
  exact ⟨fun c => cell_congr (k .cells (by decide)) c, fun c => hubc_congr (k .hubc (by decide)) c, fun c => region_congr (k .regions (by decide)) c, fun x => entity_congr (k .casc (by decide)) x, nowNs_congr (k .time (by decide)), imgOf_congr (k .img (by decide)), serving_congr (k .sys (by decide)), working_congr (k .sys (by decide)), alive_congr (k .sys (by decide)), upState_congr (k .sys (by decide)), portOn_congr (k .sys (by decide)), fun e  => dieNo_congr e (k .img (by decide)), fun e  => nodeNo_congr e (k .img (by decide)), fun e c => coreId_congr e (k .img (by decide)) c, fun e c => unitId_congr e (k .img (by decide)) c, fun c => chan_congr (k .cmd (by decide)) c, fun x => entOk_congr (k .img (by decide)) x, fun c => groupOf_congr (k .img (by decide)) (k .jobs (by decide)) c, fun c => probing_congr (k .age (by decide)) c, fun e x => presentCore_congr e (k .img (by decide)) x⟩

@[simp] theorem sbDown_reads (a0 a1 a2 a3 a4) :
    (∀ (c : Nat), cell (sbDown a0 a1 a2 a3 a4) c = cell a4 c) ∧ (∀ (c : Nat), Sys2Proof.Machine.hubc (sbDown a0 a1 a2 a3 a4) c = Sys2Proof.Machine.hubc a4 c) ∧ (∀ (c : Nat), region (sbDown a0 a1 a2 a3 a4) c = region a4 c) ∧
    (∀ (x : Word), entity (sbDown a0 a1 a2 a3 a4) x = entity a4 x) ∧ (nowNs (sbDown a0 a1 a2 a3 a4) = nowNs a4 ) ∧ (imgOf (sbDown a0 a1 a2 a3 a4) = imgOf a4 ) ∧
    (serving (sbDown a0 a1 a2 a3 a4) = serving a4 ) ∧ (working (sbDown a0 a1 a2 a3 a4) = working a4 ) ∧ (alive (sbDown a0 a1 a2 a3 a4) = alive a4 ) ∧
    (upState (sbDown a0 a1 a2 a3 a4) = upState a4 ) ∧ (portOn (sbDown a0 a1 a2 a3 a4) = portOn a4 ) ∧ (∀ (e : Env), dieNo e (sbDown a0 a1 a2 a3 a4) = dieNo e a4 ) ∧
    (∀ (e : Env), nodeNo e (sbDown a0 a1 a2 a3 a4) = nodeNo e a4 ) ∧ (∀ (e : Env) (c : Nat), coreId e (sbDown a0 a1 a2 a3 a4) c = coreId e a4 c) ∧ (∀ (e : Env) (c : Nat), unitId e (sbDown a0 a1 a2 a3 a4) c = unitId e a4 c) ∧
    (∀ (c : Nat), chan (sbDown a0 a1 a2 a3 a4) c = chan a4 c) ∧ (∀ (x : Word), entOk (sbDown a0 a1 a2 a3 a4) x = entOk a4 x) ∧ (∀ (c : Nat), groupOf (sbDown a0 a1 a2 a3 a4) c = groupOf a4 c) ∧
    (∀ (c : Nat), probing (sbDown a0 a1 a2 a3 a4) c = probing a4 c) ∧ (∀ (e : Env) (x : Word), presentCore e (sbDown a0 a1 a2 a3 a4) x = presentCore e a4 x) := by
  have k := (sbDown_only a0 a1 a2 a3 a4).keep
  exact ⟨fun c => cell_congr (k .cells (by decide)) c, fun c => hubc_congr (k .hubc (by decide)) c, fun c => region_congr (k .regions (by decide)) c, fun x => entity_congr (k .casc (by decide)) x, nowNs_congr (k .time (by decide)), imgOf_congr (k .img (by decide)), serving_congr (k .sys (by decide)), working_congr (k .sys (by decide)), alive_congr (k .sys (by decide)), upState_congr (k .sys (by decide)), portOn_congr (k .sys (by decide)), fun e  => dieNo_congr e (k .img (by decide)), fun e  => nodeNo_congr e (k .img (by decide)), fun e c => coreId_congr e (k .img (by decide)) c, fun e c => unitId_congr e (k .img (by decide)) c, fun c => chan_congr (k .cmd (by decide)) c, fun x => entOk_congr (k .img (by decide)) x, fun c => groupOf_congr (k .img (by decide)) (k .jobs (by decide)) c, fun c => probing_congr (k .age (by decide)) c, fun e x => presentCore_congr e (k .img (by decide)) x⟩

@[simp] theorem sbLocal_reads (a0 a1 a2) :
    (∀ (c : Nat), cell (sbLocal a0 a1 a2) c = cell a2 c) ∧ (∀ (c : Nat), Sys2Proof.Machine.hubc (sbLocal a0 a1 a2) c = Sys2Proof.Machine.hubc a2 c) ∧ (∀ (c : Nat), region (sbLocal a0 a1 a2) c = region a2 c) ∧
    (∀ (x : Word), entity (sbLocal a0 a1 a2) x = entity a2 x) ∧ (nowNs (sbLocal a0 a1 a2) = nowNs a2 ) ∧ (imgOf (sbLocal a0 a1 a2) = imgOf a2 ) ∧
    (serving (sbLocal a0 a1 a2) = serving a2 ) ∧ (working (sbLocal a0 a1 a2) = working a2 ) ∧ (alive (sbLocal a0 a1 a2) = alive a2 ) ∧
    (upState (sbLocal a0 a1 a2) = upState a2 ) ∧ (portOn (sbLocal a0 a1 a2) = portOn a2 ) ∧ (∀ (e : Env), dieNo e (sbLocal a0 a1 a2) = dieNo e a2 ) ∧
    (∀ (e : Env), nodeNo e (sbLocal a0 a1 a2) = nodeNo e a2 ) ∧ (∀ (e : Env) (c : Nat), coreId e (sbLocal a0 a1 a2) c = coreId e a2 c) ∧ (∀ (e : Env) (c : Nat), unitId e (sbLocal a0 a1 a2) c = unitId e a2 c) ∧
    (∀ (c : Nat), chan (sbLocal a0 a1 a2) c = chan a2 c) ∧ (∀ (x : Word), entOk (sbLocal a0 a1 a2) x = entOk a2 x) ∧ (∀ (c : Nat), groupOf (sbLocal a0 a1 a2) c = groupOf a2 c) ∧
    (∀ (c : Nat), probing (sbLocal a0 a1 a2) c = probing a2 c) ∧ (∀ (e : Env) (x : Word), presentCore e (sbLocal a0 a1 a2) x = presentCore e a2 x) := by
  have k := (sbLocal_only a0 a1 a2).keep
  exact ⟨fun c => cell_congr (k .cells (by decide)) c, fun c => hubc_congr (k .hubc (by decide)) c, fun c => region_congr (k .regions (by decide)) c, fun x => entity_congr (k .casc (by decide)) x, nowNs_congr (k .time (by decide)), imgOf_congr (k .img (by decide)), serving_congr (k .sys (by decide)), working_congr (k .sys (by decide)), alive_congr (k .sys (by decide)), upState_congr (k .sys (by decide)), portOn_congr (k .sys (by decide)), fun e  => dieNo_congr e (k .img (by decide)), fun e  => nodeNo_congr e (k .img (by decide)), fun e c => coreId_congr e (k .img (by decide)) c, fun e c => unitId_congr e (k .img (by decide)) c, fun c => chan_congr (k .cmd (by decide)) c, fun x => entOk_congr (k .img (by decide)) x, fun c => groupOf_congr (k .img (by decide)) (k .jobs (by decide)) c, fun c => probing_congr (k .age (by decide)) c, fun e x => presentCore_congr e (k .img (by decide)) x⟩

@[simp] theorem mgtReply_reads (a0 a1 a2 a3 a4) :
    (∀ (c : Nat), cell (mgtReply a0 a1 a2 a3 a4) c = cell a4 c) ∧ (∀ (c : Nat), Sys2Proof.Machine.hubc (mgtReply a0 a1 a2 a3 a4) c = Sys2Proof.Machine.hubc a4 c) ∧ (∀ (c : Nat), region (mgtReply a0 a1 a2 a3 a4) c = region a4 c) ∧
    (∀ (x : Word), entity (mgtReply a0 a1 a2 a3 a4) x = entity a4 x) ∧ (nowNs (mgtReply a0 a1 a2 a3 a4) = nowNs a4 ) ∧ (imgOf (mgtReply a0 a1 a2 a3 a4) = imgOf a4 ) ∧
    (serving (mgtReply a0 a1 a2 a3 a4) = serving a4 ) ∧ (working (mgtReply a0 a1 a2 a3 a4) = working a4 ) ∧ (alive (mgtReply a0 a1 a2 a3 a4) = alive a4 ) ∧
    (upState (mgtReply a0 a1 a2 a3 a4) = upState a4 ) ∧ (portOn (mgtReply a0 a1 a2 a3 a4) = portOn a4 ) ∧ (∀ (e : Env), dieNo e (mgtReply a0 a1 a2 a3 a4) = dieNo e a4 ) ∧
    (∀ (e : Env), nodeNo e (mgtReply a0 a1 a2 a3 a4) = nodeNo e a4 ) ∧ (∀ (e : Env) (c : Nat), coreId e (mgtReply a0 a1 a2 a3 a4) c = coreId e a4 c) ∧ (∀ (e : Env) (c : Nat), unitId e (mgtReply a0 a1 a2 a3 a4) c = unitId e a4 c) ∧
    (∀ (x : Word), entOk (mgtReply a0 a1 a2 a3 a4) x = entOk a4 x) ∧ (∀ (c : Nat), groupOf (mgtReply a0 a1 a2 a3 a4) c = groupOf a4 c) ∧ (∀ (c : Nat), probing (mgtReply a0 a1 a2 a3 a4) c = probing a4 c) ∧
    (∀ (e : Env) (x : Word), presentCore e (mgtReply a0 a1 a2 a3 a4) x = presentCore e a4 x) := by
  have k := (mgtReply_only a0 a1 a2 a3 a4).keep
  exact ⟨fun c => cell_congr (k .cells (by decide)) c, fun c => hubc_congr (k .hubc (by decide)) c, fun c => region_congr (k .regions (by decide)) c, fun x => entity_congr (k .casc (by decide)) x, nowNs_congr (k .time (by decide)), imgOf_congr (k .img (by decide)), serving_congr (k .sys (by decide)), working_congr (k .sys (by decide)), alive_congr (k .sys (by decide)), upState_congr (k .sys (by decide)), portOn_congr (k .sys (by decide)), fun e  => dieNo_congr e (k .img (by decide)), fun e  => nodeNo_congr e (k .img (by decide)), fun e c => coreId_congr e (k .img (by decide)) c, fun e c => unitId_congr e (k .img (by decide)) c, fun x => entOk_congr (k .img (by decide)) x, fun c => groupOf_congr (k .img (by decide)) (k .jobs (by decide)) c, fun c => probing_congr (k .age (by decide)) c, fun e x => presentCore_congr e (k .img (by decide)) x⟩

@[simp] theorem photenSend_reads (a0 a1 a2 a3 a4 a5 a6) :
    (∀ (c : Nat), cell (photenSend a0 a1 a2 a3 a4 a5 a6) c = cell a6 c) ∧ (∀ (c : Nat), Sys2Proof.Machine.hubc (photenSend a0 a1 a2 a3 a4 a5 a6) c = Sys2Proof.Machine.hubc a6 c) ∧ (∀ (c : Nat), region (photenSend a0 a1 a2 a3 a4 a5 a6) c = region a6 c) ∧
    (∀ (x : Word), entity (photenSend a0 a1 a2 a3 a4 a5 a6) x = entity a6 x) ∧ (nowNs (photenSend a0 a1 a2 a3 a4 a5 a6) = nowNs a6 ) ∧ (imgOf (photenSend a0 a1 a2 a3 a4 a5 a6) = imgOf a6 ) ∧
    (serving (photenSend a0 a1 a2 a3 a4 a5 a6) = serving a6 ) ∧ (working (photenSend a0 a1 a2 a3 a4 a5 a6) = working a6 ) ∧ (alive (photenSend a0 a1 a2 a3 a4 a5 a6) = alive a6 ) ∧
    (upState (photenSend a0 a1 a2 a3 a4 a5 a6) = upState a6 ) ∧ (portOn (photenSend a0 a1 a2 a3 a4 a5 a6) = portOn a6 ) ∧ (∀ (e : Env), dieNo e (photenSend a0 a1 a2 a3 a4 a5 a6) = dieNo e a6 ) ∧
    (∀ (e : Env), nodeNo e (photenSend a0 a1 a2 a3 a4 a5 a6) = nodeNo e a6 ) ∧ (∀ (e : Env) (c : Nat), coreId e (photenSend a0 a1 a2 a3 a4 a5 a6) c = coreId e a6 c) ∧ (∀ (e : Env) (c : Nat), unitId e (photenSend a0 a1 a2 a3 a4 a5 a6) c = unitId e a6 c) ∧
    (∀ (c : Nat), chan (photenSend a0 a1 a2 a3 a4 a5 a6) c = chan a6 c) ∧ (∀ (x : Word), entOk (photenSend a0 a1 a2 a3 a4 a5 a6) x = entOk a6 x) ∧ (∀ (c : Nat), groupOf (photenSend a0 a1 a2 a3 a4 a5 a6) c = groupOf a6 c) ∧
    (∀ (c : Nat), probing (photenSend a0 a1 a2 a3 a4 a5 a6) c = probing a6 c) ∧ (∀ (e : Env) (x : Word), presentCore e (photenSend a0 a1 a2 a3 a4 a5 a6) x = presentCore e a6 x) := by
  have k := (photenSend_only a0 a1 a2 a3 a4 a5 a6).keep
  exact ⟨fun c => cell_congr (k .cells (by decide)) c, fun c => hubc_congr (k .hubc (by decide)) c, fun c => region_congr (k .regions (by decide)) c, fun x => entity_congr (k .casc (by decide)) x, nowNs_congr (k .time (by decide)), imgOf_congr (k .img (by decide)), serving_congr (k .sys (by decide)), working_congr (k .sys (by decide)), alive_congr (k .sys (by decide)), upState_congr (k .sys (by decide)), portOn_congr (k .sys (by decide)), fun e  => dieNo_congr e (k .img (by decide)), fun e  => nodeNo_congr e (k .img (by decide)), fun e c => coreId_congr e (k .img (by decide)) c, fun e c => unitId_congr e (k .img (by decide)) c, fun c => chan_congr (k .cmd (by decide)) c, fun x => entOk_congr (k .img (by decide)) x, fun c => groupOf_congr (k .img (by decide)) (k .jobs (by decide)) c, fun c => probing_congr (k .age (by decide)) c, fun e x => presentCore_congr e (k .img (by decide)) x⟩

@[simp] theorem setPeriod_reads (a0 a1) :
    (∀ (c : Nat), cell (setPeriod a0 a1) c = cell a1 c) ∧ (∀ (c : Nat), Sys2Proof.Machine.hubc (setPeriod a0 a1) c = Sys2Proof.Machine.hubc a1 c) ∧ (∀ (c : Nat), region (setPeriod a0 a1) c = region a1 c) ∧
    (nowNs (setPeriod a0 a1) = nowNs a1 ) ∧ (imgOf (setPeriod a0 a1) = imgOf a1 ) ∧ (serving (setPeriod a0 a1) = serving a1 ) ∧
    (working (setPeriod a0 a1) = working a1 ) ∧ (alive (setPeriod a0 a1) = alive a1 ) ∧ (upState (setPeriod a0 a1) = upState a1 ) ∧
    (portOn (setPeriod a0 a1) = portOn a1 ) ∧ (∀ (e : Env), dieNo e (setPeriod a0 a1) = dieNo e a1 ) ∧ (∀ (e : Env), nodeNo e (setPeriod a0 a1) = nodeNo e a1 ) ∧
    (∀ (e : Env) (c : Nat), coreId e (setPeriod a0 a1) c = coreId e a1 c) ∧ (∀ (e : Env) (c : Nat), unitId e (setPeriod a0 a1) c = unitId e a1 c) ∧ (∀ (c : Nat), chan (setPeriod a0 a1) c = chan a1 c) ∧
    (∀ (x : Word), entOk (setPeriod a0 a1) x = entOk a1 x) ∧ (∀ (c : Nat), groupOf (setPeriod a0 a1) c = groupOf a1 c) ∧ (∀ (c : Nat), probing (setPeriod a0 a1) c = probing a1 c) ∧
    (∀ (e : Env) (x : Word), presentCore e (setPeriod a0 a1) x = presentCore e a1 x) := by
  have k := (setPeriod_only a0 a1).keep
  exact ⟨fun c => cell_congr (k .cells (by decide)) c, fun c => hubc_congr (k .hubc (by decide)) c, fun c => region_congr (k .regions (by decide)) c, nowNs_congr (k .time (by decide)), imgOf_congr (k .img (by decide)), serving_congr (k .sys (by decide)), working_congr (k .sys (by decide)), alive_congr (k .sys (by decide)), upState_congr (k .sys (by decide)), portOn_congr (k .sys (by decide)), fun e  => dieNo_congr e (k .img (by decide)), fun e  => nodeNo_congr e (k .img (by decide)), fun e c => coreId_congr e (k .img (by decide)) c, fun e c => unitId_congr e (k .img (by decide)) c, fun c => chan_congr (k .cmd (by decide)) c, fun x => entOk_congr (k .img (by decide)) x, fun c => groupOf_congr (k .img (by decide)) (k .jobs (by decide)) c, fun c => probing_congr (k .age (by decide)) c, fun e x => presentCore_congr e (k .img (by decide)) x⟩

@[simp] theorem retarget_reads (a0 a1 a2) :
    (∀ (c : Nat), Sys2Proof.Machine.hubc (retarget a0 a1 a2) c = Sys2Proof.Machine.hubc a2 c) ∧ (∀ (x : Word), entity (retarget a0 a1 a2) x = entity a2 x) ∧ (nowNs (retarget a0 a1 a2) = nowNs a2 ) ∧
    (imgOf (retarget a0 a1 a2) = imgOf a2 ) ∧ (serving (retarget a0 a1 a2) = serving a2 ) ∧ (working (retarget a0 a1 a2) = working a2 ) ∧
    (alive (retarget a0 a1 a2) = alive a2 ) ∧ (upState (retarget a0 a1 a2) = upState a2 ) ∧ (portOn (retarget a0 a1 a2) = portOn a2 ) ∧
    (∀ (e : Env), dieNo e (retarget a0 a1 a2) = dieNo e a2 ) ∧ (∀ (e : Env), nodeNo e (retarget a0 a1 a2) = nodeNo e a2 ) ∧ (∀ (e : Env) (c : Nat), coreId e (retarget a0 a1 a2) c = coreId e a2 c) ∧
    (∀ (e : Env) (c : Nat), unitId e (retarget a0 a1 a2) c = unitId e a2 c) ∧ (∀ (c : Nat), chan (retarget a0 a1 a2) c = chan a2 c) ∧ (∀ (x : Word), entOk (retarget a0 a1 a2) x = entOk a2 x) ∧
    (∀ (c : Nat), groupOf (retarget a0 a1 a2) c = groupOf a2 c) ∧ (∀ (c : Nat), probing (retarget a0 a1 a2) c = probing a2 c) ∧ (∀ (e : Env) (x : Word), presentCore e (retarget a0 a1 a2) x = presentCore e a2 x) := by
  have k := (retarget_only a0 a1 a2).keep
  exact ⟨fun c => hubc_congr (k .hubc (by decide)) c, fun x => entity_congr (k .casc (by decide)) x, nowNs_congr (k .time (by decide)), imgOf_congr (k .img (by decide)), serving_congr (k .sys (by decide)), working_congr (k .sys (by decide)), alive_congr (k .sys (by decide)), upState_congr (k .sys (by decide)), portOn_congr (k .sys (by decide)), fun e  => dieNo_congr e (k .img (by decide)), fun e  => nodeNo_congr e (k .img (by decide)), fun e c => coreId_congr e (k .img (by decide)) c, fun e c => unitId_congr e (k .img (by decide)) c, fun c => chan_congr (k .cmd (by decide)) c, fun x => entOk_congr (k .img (by decide)) x, fun c => groupOf_congr (k .img (by decide)) (k .jobs (by decide)) c, fun c => probing_congr (k .age (by decide)) c, fun e x => presentCore_congr e (k .img (by decide)) x⟩

@[simp] theorem acceptAll_reads (a0 a1 a2) :
    (∀ (c : Nat), cell (acceptAll a0 a1 a2) c = cell a2 c) ∧ (∀ (c : Nat), Sys2Proof.Machine.hubc (acceptAll a0 a1 a2) c = Sys2Proof.Machine.hubc a2 c) ∧ (∀ (c : Nat), region (acceptAll a0 a1 a2) c = region a2 c) ∧
    (∀ (x : Word), entity (acceptAll a0 a1 a2) x = entity a2 x) ∧ (nowNs (acceptAll a0 a1 a2) = nowNs a2 ) ∧ (imgOf (acceptAll a0 a1 a2) = imgOf a2 ) ∧
    (serving (acceptAll a0 a1 a2) = serving a2 ) ∧ (working (acceptAll a0 a1 a2) = working a2 ) ∧ (alive (acceptAll a0 a1 a2) = alive a2 ) ∧
    (upState (acceptAll a0 a1 a2) = upState a2 ) ∧ (portOn (acceptAll a0 a1 a2) = portOn a2 ) ∧ (∀ (e : Env), dieNo e (acceptAll a0 a1 a2) = dieNo e a2 ) ∧
    (∀ (e : Env), nodeNo e (acceptAll a0 a1 a2) = nodeNo e a2 ) ∧ (∀ (e : Env) (c : Nat), coreId e (acceptAll a0 a1 a2) c = coreId e a2 c) ∧ (∀ (e : Env) (c : Nat), unitId e (acceptAll a0 a1 a2) c = unitId e a2 c) ∧
    (∀ (c : Nat), chan (acceptAll a0 a1 a2) c = chan a2 c) ∧ (∀ (x : Word), entOk (acceptAll a0 a1 a2) x = entOk a2 x) ∧ (∀ (c : Nat), groupOf (acceptAll a0 a1 a2) c = groupOf a2 c) ∧
    (∀ (c : Nat), probing (acceptAll a0 a1 a2) c = probing a2 c) ∧ (∀ (e : Env) (x : Word), presentCore e (acceptAll a0 a1 a2) x = presentCore e a2 x) := by
  have k := (acceptAll_only a0 a1 a2).keep
  exact ⟨fun c => cell_congr (k .cells (by decide)) c, fun c => hubc_congr (k .hubc (by decide)) c, fun c => region_congr (k .regions (by decide)) c, fun x => entity_congr (k .casc (by decide)) x, nowNs_congr (k .time (by decide)), imgOf_congr (k .img (by decide)), serving_congr (k .sys (by decide)), working_congr (k .sys (by decide)), alive_congr (k .sys (by decide)), upState_congr (k .sys (by decide)), portOn_congr (k .sys (by decide)), fun e  => dieNo_congr e (k .img (by decide)), fun e  => nodeNo_congr e (k .img (by decide)), fun e c => coreId_congr e (k .img (by decide)) c, fun e c => unitId_congr e (k .img (by decide)) c, fun c => chan_congr (k .cmd (by decide)) c, fun x => entOk_congr (k .img (by decide)) x, fun c => groupOf_congr (k .img (by decide)) (k .jobs (by decide)) c, fun c => probing_congr (k .age (by decide)) c, fun e x => presentCore_congr e (k .img (by decide)) x⟩

@[simp] theorem holdRemoved_reads (a0) :
    (∀ (c : Nat), Sys2Proof.Machine.hubc (holdRemoved a0) c = Sys2Proof.Machine.hubc a0 c) ∧ (∀ (c : Nat), region (holdRemoved a0) c = region a0 c) ∧ (∀ (x : Word), entity (holdRemoved a0) x = entity a0 x) ∧
    (nowNs (holdRemoved a0) = nowNs a0 ) ∧ (imgOf (holdRemoved a0) = imgOf a0 ) ∧ (serving (holdRemoved a0) = serving a0 ) ∧
    (working (holdRemoved a0) = working a0 ) ∧ (alive (holdRemoved a0) = alive a0 ) ∧ (upState (holdRemoved a0) = upState a0 ) ∧
    (portOn (holdRemoved a0) = portOn a0 ) ∧ (∀ (e : Env), dieNo e (holdRemoved a0) = dieNo e a0 ) ∧ (∀ (e : Env), nodeNo e (holdRemoved a0) = nodeNo e a0 ) ∧
    (∀ (e : Env) (c : Nat), coreId e (holdRemoved a0) c = coreId e a0 c) ∧ (∀ (e : Env) (c : Nat), unitId e (holdRemoved a0) c = unitId e a0 c) ∧ (∀ (c : Nat), chan (holdRemoved a0) c = chan a0 c) ∧
    (∀ (x : Word), entOk (holdRemoved a0) x = entOk a0 x) ∧ (∀ (c : Nat), groupOf (holdRemoved a0) c = groupOf a0 c) ∧ (∀ (c : Nat), probing (holdRemoved a0) c = probing a0 c) ∧
    (∀ (e : Env) (x : Word), presentCore e (holdRemoved a0) x = presentCore e a0 x) := by
  have k := (holdRemoved_only a0).keep
  exact ⟨fun c => hubc_congr (k .hubc (by decide)) c, fun c => region_congr (k .regions (by decide)) c, fun x => entity_congr (k .casc (by decide)) x, nowNs_congr (k .time (by decide)), imgOf_congr (k .img (by decide)), serving_congr (k .sys (by decide)), working_congr (k .sys (by decide)), alive_congr (k .sys (by decide)), upState_congr (k .sys (by decide)), portOn_congr (k .sys (by decide)), fun e  => dieNo_congr e (k .img (by decide)), fun e  => nodeNo_congr e (k .img (by decide)), fun e c => coreId_congr e (k .img (by decide)) c, fun e c => unitId_congr e (k .img (by decide)) c, fun c => chan_congr (k .cmd (by decide)) c, fun x => entOk_congr (k .img (by decide)) x, fun c => groupOf_congr (k .img (by decide)) (k .jobs (by decide)) c, fun c => probing_congr (k .age (by decide)) c, fun e x => presentCore_congr e (k .img (by decide)) x⟩

@[simp] theorem configRecords_reads (a0 a1) :
    (∀ (c : Nat), cell (configRecords a0 a1) c = cell a1 c) ∧ (∀ (c : Nat), Sys2Proof.Machine.hubc (configRecords a0 a1) c = Sys2Proof.Machine.hubc a1 c) ∧ (∀ (c : Nat), region (configRecords a0 a1) c = region a1 c) ∧
    (∀ (x : Word), entity (configRecords a0 a1) x = entity a1 x) ∧ (nowNs (configRecords a0 a1) = nowNs a1 ) ∧ (imgOf (configRecords a0 a1) = imgOf a1 ) ∧
    (∀ (e : Env), dieNo e (configRecords a0 a1) = dieNo e a1 ) ∧ (∀ (e : Env), nodeNo e (configRecords a0 a1) = nodeNo e a1 ) ∧ (∀ (e : Env) (c : Nat), coreId e (configRecords a0 a1) c = coreId e a1 c) ∧
    (∀ (e : Env) (c : Nat), unitId e (configRecords a0 a1) c = unitId e a1 c) ∧ (∀ (c : Nat), chan (configRecords a0 a1) c = chan a1 c) ∧ (∀ (x : Word), entOk (configRecords a0 a1) x = entOk a1 x) ∧
    (∀ (c : Nat), groupOf (configRecords a0 a1) c = groupOf a1 c) ∧ (∀ (c : Nat), probing (configRecords a0 a1) c = probing a1 c) ∧ (∀ (e : Env) (x : Word), presentCore e (configRecords a0 a1) x = presentCore e a1 x) := by
  have k := (configRecords_only a0 a1).keep
  exact ⟨fun c => cell_congr (k .cells (by decide)) c, fun c => hubc_congr (k .hubc (by decide)) c, fun c => region_congr (k .regions (by decide)) c, fun x => entity_congr (k .casc (by decide)) x, nowNs_congr (k .time (by decide)), imgOf_congr (k .img (by decide)), fun e  => dieNo_congr e (k .img (by decide)), fun e  => nodeNo_congr e (k .img (by decide)), fun e c => coreId_congr e (k .img (by decide)) c, fun e c => unitId_congr e (k .img (by decide)) c, fun c => chan_congr (k .cmd (by decide)) c, fun x => entOk_congr (k .img (by decide)) x, fun c => groupOf_congr (k .img (by decide)) (k .jobs (by decide)) c, fun c => probing_congr (k .age (by decide)) c, fun e x => presentCore_congr e (k .img (by decide)) x⟩

@[simp] theorem exitDrowse_reads (a0) :
    (∀ (c : Nat), Sys2Proof.Machine.hubc (exitDrowse a0) c = Sys2Proof.Machine.hubc a0 c) ∧ (∀ (c : Nat), region (exitDrowse a0) c = region a0 c) ∧ (imgOf (exitDrowse a0) = imgOf a0 ) ∧
    (∀ (e : Env), dieNo e (exitDrowse a0) = dieNo e a0 ) ∧ (∀ (e : Env), nodeNo e (exitDrowse a0) = nodeNo e a0 ) ∧ (∀ (e : Env) (c : Nat), coreId e (exitDrowse a0) c = coreId e a0 c) ∧
    (∀ (e : Env) (c : Nat), unitId e (exitDrowse a0) c = unitId e a0 c) ∧ (∀ (c : Nat), chan (exitDrowse a0) c = chan a0 c) ∧ (∀ (x : Word), entOk (exitDrowse a0) x = entOk a0 x) ∧
    (∀ (c : Nat), groupOf (exitDrowse a0) c = groupOf a0 c) ∧ (∀ (c : Nat), probing (exitDrowse a0) c = probing a0 c) ∧ (∀ (e : Env) (x : Word), presentCore e (exitDrowse a0) x = presentCore e a0 x) := by
  have k := (exitDrowse_only a0).keep
  exact ⟨fun c => hubc_congr (k .hubc (by decide)) c, fun c => region_congr (k .regions (by decide)) c, imgOf_congr (k .img (by decide)), fun e  => dieNo_congr e (k .img (by decide)), fun e  => nodeNo_congr e (k .img (by decide)), fun e c => coreId_congr e (k .img (by decide)) c, fun e c => unitId_congr e (k .img (by decide)) c, fun c => chan_congr (k .cmd (by decide)) c, fun x => entOk_congr (k .img (by decide)) x, fun c => groupOf_congr (k .img (by decide)) (k .jobs (by decide)) c, fun c => probing_congr (k .age (by decide)) c, fun e x => presentCore_congr e (k .img (by decide)) x⟩

@[simp] theorem enterDrowse_reads (a0) :
    (∀ (c : Nat), cell (enterDrowse a0) c = cell a0 c) ∧ (∀ (c : Nat), Sys2Proof.Machine.hubc (enterDrowse a0) c = Sys2Proof.Machine.hubc a0 c) ∧ (∀ (c : Nat), region (enterDrowse a0) c = region a0 c) ∧
    (nowNs (enterDrowse a0) = nowNs a0 ) ∧ (imgOf (enterDrowse a0) = imgOf a0 ) ∧ (∀ (e : Env), dieNo e (enterDrowse a0) = dieNo e a0 ) ∧
    (∀ (e : Env), nodeNo e (enterDrowse a0) = nodeNo e a0 ) ∧ (∀ (e : Env) (c : Nat), coreId e (enterDrowse a0) c = coreId e a0 c) ∧ (∀ (e : Env) (c : Nat), unitId e (enterDrowse a0) c = unitId e a0 c) ∧
    (∀ (c : Nat), chan (enterDrowse a0) c = chan a0 c) ∧ (∀ (x : Word), entOk (enterDrowse a0) x = entOk a0 x) ∧ (∀ (c : Nat), groupOf (enterDrowse a0) c = groupOf a0 c) ∧
    (∀ (c : Nat), probing (enterDrowse a0) c = probing a0 c) ∧ (∀ (e : Env) (x : Word), presentCore e (enterDrowse a0) x = presentCore e a0 x) := by
  have k := (enterDrowse_only a0).keep
  exact ⟨fun c => cell_congr (k .cells (by decide)) c, fun c => hubc_congr (k .hubc (by decide)) c, fun c => region_congr (k .regions (by decide)) c, nowNs_congr (k .time (by decide)), imgOf_congr (k .img (by decide)), fun e  => dieNo_congr e (k .img (by decide)), fun e  => nodeNo_congr e (k .img (by decide)), fun e c => coreId_congr e (k .img (by decide)) c, fun e c => unitId_congr e (k .img (by decide)) c, fun c => chan_congr (k .cmd (by decide)) c, fun x => entOk_congr (k .img (by decide)) x, fun c => groupOf_congr (k .img (by decide)) (k .jobs (by decide)) c, fun c => probing_congr (k .age (by decide)) c, fun e x => presentCore_congr e (k .img (by decide)) x⟩

@[simp] theorem startOrderly_reads (a0 a1) :
    (∀ (c : Nat), cell (startOrderly a0 a1) c = cell a1 c) ∧ (∀ (c : Nat), Sys2Proof.Machine.hubc (startOrderly a0 a1) c = Sys2Proof.Machine.hubc a1 c) ∧ (∀ (c : Nat), region (startOrderly a0 a1) c = region a1 c) ∧
    (∀ (x : Word), entity (startOrderly a0 a1) x = entity a1 x) ∧ (nowNs (startOrderly a0 a1) = nowNs a1 ) ∧ (imgOf (startOrderly a0 a1) = imgOf a1 ) ∧
    (∀ (e : Env), dieNo e (startOrderly a0 a1) = dieNo e a1 ) ∧ (∀ (e : Env), nodeNo e (startOrderly a0 a1) = nodeNo e a1 ) ∧ (∀ (e : Env) (c : Nat), coreId e (startOrderly a0 a1) c = coreId e a1 c) ∧
    (∀ (e : Env) (c : Nat), unitId e (startOrderly a0 a1) c = unitId e a1 c) ∧ (∀ (c : Nat), chan (startOrderly a0 a1) c = chan a1 c) ∧ (∀ (x : Word), entOk (startOrderly a0 a1) x = entOk a1 x) ∧
    (∀ (c : Nat), groupOf (startOrderly a0 a1) c = groupOf a1 c) ∧ (∀ (c : Nat), probing (startOrderly a0 a1) c = probing a1 c) ∧ (∀ (e : Env) (x : Word), presentCore e (startOrderly a0 a1) x = presentCore e a1 x) := by
  have k := (startOrderly_only a0 a1).keep
  exact ⟨fun c => cell_congr (k .cells (by decide)) c, fun c => hubc_congr (k .hubc (by decide)) c, fun c => region_congr (k .regions (by decide)) c, fun x => entity_congr (k .casc (by decide)) x, nowNs_congr (k .time (by decide)), imgOf_congr (k .img (by decide)), fun e  => dieNo_congr e (k .img (by decide)), fun e  => nodeNo_congr e (k .img (by decide)), fun e c => coreId_congr e (k .img (by decide)) c, fun e c => unitId_congr e (k .img (by decide)) c, fun c => chan_congr (k .cmd (by decide)) c, fun x => entOk_congr (k .img (by decide)) x, fun c => groupOf_congr (k .img (by decide)) (k .jobs (by decide)) c, fun c => probing_congr (k .age (by decide)) c, fun e x => presentCore_congr e (k .img (by decide)) x⟩

@[simp] theorem enterConfig_reads (a0 a1 a2) :
    (∀ (c : Nat), Sys2Proof.Machine.hubc (enterConfig a0 a1 a2) c = Sys2Proof.Machine.hubc a2 c) ∧ (∀ (c : Nat), chan (enterConfig a0 a1 a2) c = chan a2 c) := by
  have k := (enterConfig_only a0 a1 a2).keep
  exact ⟨fun c => hubc_congr (k .hubc (by decide)) c, fun c => chan_congr (k .cmd (by decide)) c⟩

@[simp] theorem restoreRemoved_reads (a0 a1) :
    (∀ (c : Nat), cell (restoreRemoved a0 a1) c = cell a1 c) ∧ (∀ (c : Nat), Sys2Proof.Machine.hubc (restoreRemoved a0 a1) c = Sys2Proof.Machine.hubc a1 c) ∧ (∀ (c : Nat), region (restoreRemoved a0 a1) c = region a1 c) ∧
    (nowNs (restoreRemoved a0 a1) = nowNs a1 ) ∧ (imgOf (restoreRemoved a0 a1) = imgOf a1 ) ∧ (serving (restoreRemoved a0 a1) = serving a1 ) ∧
    (working (restoreRemoved a0 a1) = working a1 ) ∧ (alive (restoreRemoved a0 a1) = alive a1 ) ∧ (upState (restoreRemoved a0 a1) = upState a1 ) ∧
    (portOn (restoreRemoved a0 a1) = portOn a1 ) ∧ (∀ (e : Env), dieNo e (restoreRemoved a0 a1) = dieNo e a1 ) ∧ (∀ (e : Env), nodeNo e (restoreRemoved a0 a1) = nodeNo e a1 ) ∧
    (∀ (e : Env) (c : Nat), coreId e (restoreRemoved a0 a1) c = coreId e a1 c) ∧ (∀ (e : Env) (c : Nat), unitId e (restoreRemoved a0 a1) c = unitId e a1 c) ∧ (∀ (c : Nat), chan (restoreRemoved a0 a1) c = chan a1 c) ∧
    (∀ (x : Word), entOk (restoreRemoved a0 a1) x = entOk a1 x) ∧ (∀ (c : Nat), groupOf (restoreRemoved a0 a1) c = groupOf a1 c) ∧ (∀ (c : Nat), probing (restoreRemoved a0 a1) c = probing a1 c) ∧
    (∀ (e : Env) (x : Word), presentCore e (restoreRemoved a0 a1) x = presentCore e a1 x) := by
  have k := (restoreRemoved_only a0 a1).keep
  exact ⟨fun c => cell_congr (k .cells (by decide)) c, fun c => hubc_congr (k .hubc (by decide)) c, fun c => region_congr (k .regions (by decide)) c, nowNs_congr (k .time (by decide)), imgOf_congr (k .img (by decide)), serving_congr (k .sys (by decide)), working_congr (k .sys (by decide)), alive_congr (k .sys (by decide)), upState_congr (k .sys (by decide)), portOn_congr (k .sys (by decide)), fun e  => dieNo_congr e (k .img (by decide)), fun e  => nodeNo_congr e (k .img (by decide)), fun e c => coreId_congr e (k .img (by decide)) c, fun e c => unitId_congr e (k .img (by decide)) c, fun c => chan_congr (k .cmd (by decide)) c, fun x => entOk_congr (k .img (by decide)) x, fun c => groupOf_congr (k .img (by decide)) (k .jobs (by decide)) c, fun c => probing_congr (k .age (by decide)) c, fun e x => presentCore_congr e (k .img (by decide)) x⟩

@[simp] theorem enableSeg_reads (a0 a1) :
    (∀ (c : Nat), cell (enableSeg a0 a1) c = cell a1 c) ∧ (∀ (c : Nat), Sys2Proof.Machine.hubc (enableSeg a0 a1) c = Sys2Proof.Machine.hubc a1 c) ∧ (∀ (c : Nat), region (enableSeg a0 a1) c = region a1 c) ∧
    (∀ (x : Word), entity (enableSeg a0 a1) x = entity a1 x) ∧ (nowNs (enableSeg a0 a1) = nowNs a1 ) ∧ (imgOf (enableSeg a0 a1) = imgOf a1 ) ∧
    (serving (enableSeg a0 a1) = serving a1 ) ∧ (working (enableSeg a0 a1) = working a1 ) ∧ (alive (enableSeg a0 a1) = alive a1 ) ∧
    (upState (enableSeg a0 a1) = upState a1 ) ∧ (portOn (enableSeg a0 a1) = portOn a1 ) ∧ (∀ (e : Env), dieNo e (enableSeg a0 a1) = dieNo e a1 ) ∧
    (∀ (e : Env), nodeNo e (enableSeg a0 a1) = nodeNo e a1 ) ∧ (∀ (e : Env) (c : Nat), coreId e (enableSeg a0 a1) c = coreId e a1 c) ∧ (∀ (e : Env) (c : Nat), unitId e (enableSeg a0 a1) c = unitId e a1 c) ∧
    (∀ (c : Nat), chan (enableSeg a0 a1) c = chan a1 c) ∧ (∀ (x : Word), entOk (enableSeg a0 a1) x = entOk a1 x) ∧ (∀ (c : Nat), groupOf (enableSeg a0 a1) c = groupOf a1 c) ∧
    (∀ (c : Nat), probing (enableSeg a0 a1) c = probing a1 c) ∧ (∀ (e : Env) (x : Word), presentCore e (enableSeg a0 a1) x = presentCore e a1 x) := by
  have k := (enableSeg_only a0 a1).keep
  exact ⟨fun c => cell_congr (k .cells (by decide)) c, fun c => hubc_congr (k .hubc (by decide)) c, fun c => region_congr (k .regions (by decide)) c, fun x => entity_congr (k .casc (by decide)) x, nowNs_congr (k .time (by decide)), imgOf_congr (k .img (by decide)), serving_congr (k .sys (by decide)), working_congr (k .sys (by decide)), alive_congr (k .sys (by decide)), upState_congr (k .sys (by decide)), portOn_congr (k .sys (by decide)), fun e  => dieNo_congr e (k .img (by decide)), fun e  => nodeNo_congr e (k .img (by decide)), fun e c => coreId_congr e (k .img (by decide)) c, fun e c => unitId_congr e (k .img (by decide)) c, fun c => chan_congr (k .cmd (by decide)) c, fun x => entOk_congr (k .img (by decide)) x, fun c => groupOf_congr (k .img (by decide)) (k .jobs (by decide)) c, fun c => probing_congr (k .age (by decide)) c, fun e x => presentCore_congr e (k .img (by decide)) x⟩

@[simp] theorem freeEpochs_reads (a0) :
    (∀ (c : Nat), cell (freeEpochs a0) c = cell a0 c) ∧ (∀ (c : Nat), Sys2Proof.Machine.hubc (freeEpochs a0) c = Sys2Proof.Machine.hubc a0 c) ∧ (∀ (c : Nat), region (freeEpochs a0) c = region a0 c) ∧
    (∀ (x : Word), entity (freeEpochs a0) x = entity a0 x) ∧ (nowNs (freeEpochs a0) = nowNs a0 ) ∧ (imgOf (freeEpochs a0) = imgOf a0 ) ∧
    (serving (freeEpochs a0) = serving a0 ) ∧ (working (freeEpochs a0) = working a0 ) ∧ (alive (freeEpochs a0) = alive a0 ) ∧
    (upState (freeEpochs a0) = upState a0 ) ∧ (portOn (freeEpochs a0) = portOn a0 ) ∧ (∀ (e : Env), dieNo e (freeEpochs a0) = dieNo e a0 ) ∧
    (∀ (e : Env), nodeNo e (freeEpochs a0) = nodeNo e a0 ) ∧ (∀ (e : Env) (c : Nat), coreId e (freeEpochs a0) c = coreId e a0 c) ∧ (∀ (e : Env) (c : Nat), unitId e (freeEpochs a0) c = unitId e a0 c) ∧
    (∀ (c : Nat), chan (freeEpochs a0) c = chan a0 c) ∧ (∀ (x : Word), entOk (freeEpochs a0) x = entOk a0 x) ∧ (∀ (c : Nat), groupOf (freeEpochs a0) c = groupOf a0 c) ∧
    (∀ (c : Nat), probing (freeEpochs a0) c = probing a0 c) ∧ (∀ (e : Env) (x : Word), presentCore e (freeEpochs a0) x = presentCore e a0 x) := by
  have k := (freeEpochs_only a0).keep
  exact ⟨fun c => cell_congr (k .cells (by decide)) c, fun c => hubc_congr (k .hubc (by decide)) c, fun c => region_congr (k .regions (by decide)) c, fun x => entity_congr (k .casc (by decide)) x, nowNs_congr (k .time (by decide)), imgOf_congr (k .img (by decide)), serving_congr (k .sys (by decide)), working_congr (k .sys (by decide)), alive_congr (k .sys (by decide)), upState_congr (k .sys (by decide)), portOn_congr (k .sys (by decide)), fun e  => dieNo_congr e (k .img (by decide)), fun e  => nodeNo_congr e (k .img (by decide)), fun e c => coreId_congr e (k .img (by decide)) c, fun e c => unitId_congr e (k .img (by decide)) c, fun c => chan_congr (k .cmd (by decide)) c, fun x => entOk_congr (k .img (by decide)) x, fun c => groupOf_congr (k .img (by decide)) (k .jobs (by decide)) c, fun c => probing_congr (k .age (by decide)) c, fun e x => presentCore_congr e (k .img (by decide)) x⟩

@[simp] theorem startTimers_reads (a0) :
    (∀ (c : Nat), cell (startTimers a0) c = cell a0 c) ∧ (∀ (c : Nat), Sys2Proof.Machine.hubc (startTimers a0) c = Sys2Proof.Machine.hubc a0 c) ∧ (imgOf (startTimers a0) = imgOf a0 ) ∧
    (serving (startTimers a0) = serving a0 ) ∧ (working (startTimers a0) = working a0 ) ∧ (alive (startTimers a0) = alive a0 ) ∧
    (upState (startTimers a0) = upState a0 ) ∧ (portOn (startTimers a0) = portOn a0 ) ∧ (∀ (e : Env), dieNo e (startTimers a0) = dieNo e a0 ) ∧
    (∀ (e : Env), nodeNo e (startTimers a0) = nodeNo e a0 ) ∧ (∀ (e : Env) (c : Nat), coreId e (startTimers a0) c = coreId e a0 c) ∧ (∀ (e : Env) (c : Nat), unitId e (startTimers a0) c = unitId e a0 c) ∧
    (∀ (c : Nat), chan (startTimers a0) c = chan a0 c) ∧ (∀ (x : Word), entOk (startTimers a0) x = entOk a0 x) ∧ (∀ (c : Nat), groupOf (startTimers a0) c = groupOf a0 c) ∧
    (∀ (e : Env) (x : Word), presentCore e (startTimers a0) x = presentCore e a0 x) := by
  have k := (startTimers_only a0).keep
  exact ⟨fun c => cell_congr (k .cells (by decide)) c, fun c => hubc_congr (k .hubc (by decide)) c, imgOf_congr (k .img (by decide)), serving_congr (k .sys (by decide)), working_congr (k .sys (by decide)), alive_congr (k .sys (by decide)), upState_congr (k .sys (by decide)), portOn_congr (k .sys (by decide)), fun e  => dieNo_congr e (k .img (by decide)), fun e  => nodeNo_congr e (k .img (by decide)), fun e c => coreId_congr e (k .img (by decide)) c, fun e c => unitId_congr e (k .img (by decide)) c, fun c => chan_congr (k .cmd (by decide)) c, fun x => entOk_congr (k .img (by decide)) x, fun c => groupOf_congr (k .img (by decide)) (k .jobs (by decide)) c, fun e x => presentCore_congr e (k .img (by decide)) x⟩

@[simp] theorem enterPlaya_reads (a0 a1 a2 a3) :
    (∀ (c : Nat), Sys2Proof.Machine.hubc (enterPlaya a0 a1 a2 a3) c = Sys2Proof.Machine.hubc a3 c) ∧ (∀ (c : Nat), chan (enterPlaya a0 a1 a2 a3) c = chan a3 c) ∧ (∀ (c : Nat), probing (enterPlaya a0 a1 a2 a3) c = probing a3 c) := by
  have k := (enterPlaya_only a0 a1 a2 a3).keep
  exact ⟨fun c => hubc_congr (k .hubc (by decide)) c, fun c => chan_congr (k .cmd (by decide)) c, fun c => probing_congr (k .age (by decide)) c⟩

@[simp] theorem fuseCheck_reads (a0 a1) :
    (∀ (c : Nat), Sys2Proof.Machine.hubc (fuseCheck a0 a1) c = Sys2Proof.Machine.hubc a1 c) ∧ (∀ (c : Nat), chan (fuseCheck a0 a1) c = chan a1 c) := by
  have k := (fuseCheck_only a0 a1).keep
  exact ⟨fun c => hubc_congr (k .hubc (by decide)) c, fun c => chan_congr (k .cmd (by decide)) c⟩

@[simp] theorem traceFreeze_reads (a0) :
    (∀ (c : Nat), cell (traceFreeze a0) c = cell a0 c) ∧ (∀ (c : Nat), Sys2Proof.Machine.hubc (traceFreeze a0) c = Sys2Proof.Machine.hubc a0 c) ∧ (∀ (c : Nat), region (traceFreeze a0) c = region a0 c) ∧
    (∀ (x : Word), entity (traceFreeze a0) x = entity a0 x) ∧ (nowNs (traceFreeze a0) = nowNs a0 ) ∧ (imgOf (traceFreeze a0) = imgOf a0 ) ∧
    (serving (traceFreeze a0) = serving a0 ) ∧ (working (traceFreeze a0) = working a0 ) ∧ (alive (traceFreeze a0) = alive a0 ) ∧
    (upState (traceFreeze a0) = upState a0 ) ∧ (portOn (traceFreeze a0) = portOn a0 ) ∧ (∀ (e : Env), dieNo e (traceFreeze a0) = dieNo e a0 ) ∧
    (∀ (e : Env), nodeNo e (traceFreeze a0) = nodeNo e a0 ) ∧ (∀ (e : Env) (c : Nat), coreId e (traceFreeze a0) c = coreId e a0 c) ∧ (∀ (e : Env) (c : Nat), unitId e (traceFreeze a0) c = unitId e a0 c) ∧
    (∀ (c : Nat), chan (traceFreeze a0) c = chan a0 c) ∧ (∀ (x : Word), entOk (traceFreeze a0) x = entOk a0 x) ∧ (∀ (c : Nat), groupOf (traceFreeze a0) c = groupOf a0 c) ∧
    (∀ (c : Nat), probing (traceFreeze a0) c = probing a0 c) ∧ (∀ (e : Env) (x : Word), presentCore e (traceFreeze a0) x = presentCore e a0 x) := by
  have k := (traceFreeze_only a0).keep
  exact ⟨fun c => cell_congr (k .cells (by decide)) c, fun c => hubc_congr (k .hubc (by decide)) c, fun c => region_congr (k .regions (by decide)) c, fun x => entity_congr (k .casc (by decide)) x, nowNs_congr (k .time (by decide)), imgOf_congr (k .img (by decide)), serving_congr (k .sys (by decide)), working_congr (k .sys (by decide)), alive_congr (k .sys (by decide)), upState_congr (k .sys (by decide)), portOn_congr (k .sys (by decide)), fun e  => dieNo_congr e (k .img (by decide)), fun e  => nodeNo_congr e (k .img (by decide)), fun e c => coreId_congr e (k .img (by decide)) c, fun e c => unitId_congr e (k .img (by decide)) c, fun c => chan_congr (k .cmd (by decide)) c, fun x => entOk_congr (k .img (by decide)) x, fun c => groupOf_congr (k .img (by decide)) (k .jobs (by decide)) c, fun c => probing_congr (k .age (by decide)) c, fun e x => presentCore_congr e (k .img (by decide)) x⟩

@[simp] theorem traceThaw_reads (a0 a1) :
    (∀ (c : Nat), Sys2Proof.Machine.hubc (traceThaw a0 a1) c = Sys2Proof.Machine.hubc a1 c) ∧ (∀ (x : Word), entity (traceThaw a0 a1) x = entity a1 x) ∧ (nowNs (traceThaw a0 a1) = nowNs a1 ) ∧
    (imgOf (traceThaw a0 a1) = imgOf a1 ) ∧ (serving (traceThaw a0 a1) = serving a1 ) ∧ (working (traceThaw a0 a1) = working a1 ) ∧
    (alive (traceThaw a0 a1) = alive a1 ) ∧ (upState (traceThaw a0 a1) = upState a1 ) ∧ (portOn (traceThaw a0 a1) = portOn a1 ) ∧
    (∀ (e : Env), dieNo e (traceThaw a0 a1) = dieNo e a1 ) ∧ (∀ (e : Env), nodeNo e (traceThaw a0 a1) = nodeNo e a1 ) ∧ (∀ (e : Env) (c : Nat), coreId e (traceThaw a0 a1) c = coreId e a1 c) ∧
    (∀ (e : Env) (c : Nat), unitId e (traceThaw a0 a1) c = unitId e a1 c) ∧ (∀ (c : Nat), chan (traceThaw a0 a1) c = chan a1 c) ∧ (∀ (x : Word), entOk (traceThaw a0 a1) x = entOk a1 x) ∧
    (∀ (c : Nat), groupOf (traceThaw a0 a1) c = groupOf a1 c) ∧ (∀ (c : Nat), probing (traceThaw a0 a1) c = probing a1 c) ∧ (∀ (e : Env) (x : Word), presentCore e (traceThaw a0 a1) x = presentCore e a1 x) := by
  have k := (traceThaw_only a0 a1).keep
  exact ⟨fun c => hubc_congr (k .hubc (by decide)) c, fun x => entity_congr (k .casc (by decide)) x, nowNs_congr (k .time (by decide)), imgOf_congr (k .img (by decide)), serving_congr (k .sys (by decide)), working_congr (k .sys (by decide)), alive_congr (k .sys (by decide)), upState_congr (k .sys (by decide)), portOn_congr (k .sys (by decide)), fun e  => dieNo_congr e (k .img (by decide)), fun e  => nodeNo_congr e (k .img (by decide)), fun e c => coreId_congr e (k .img (by decide)) c, fun e c => unitId_congr e (k .img (by decide)) c, fun c => chan_congr (k .cmd (by decide)) c, fun x => entOk_congr (k .img (by decide)) x, fun c => groupOf_congr (k .img (by decide)) (k .jobs (by decide)) c, fun c => probing_congr (k .age (by decide)) c, fun e x => presentCore_congr e (k .img (by decide)) x⟩

@[simp] theorem migResume_reads (a0 a1) :
    (∀ (c : Nat), cell (migResume a0 a1) c = cell a1 c) ∧ (∀ (c : Nat), Sys2Proof.Machine.hubc (migResume a0 a1) c = Sys2Proof.Machine.hubc a1 c) ∧ (∀ (c : Nat), region (migResume a0 a1) c = region a1 c) ∧
    (∀ (x : Word), entity (migResume a0 a1) x = entity a1 x) ∧ (nowNs (migResume a0 a1) = nowNs a1 ) ∧ (imgOf (migResume a0 a1) = imgOf a1 ) ∧
    (serving (migResume a0 a1) = serving a1 ) ∧ (working (migResume a0 a1) = working a1 ) ∧ (alive (migResume a0 a1) = alive a1 ) ∧
    (upState (migResume a0 a1) = upState a1 ) ∧ (portOn (migResume a0 a1) = portOn a1 ) ∧ (∀ (e : Env), dieNo e (migResume a0 a1) = dieNo e a1 ) ∧
    (∀ (e : Env), nodeNo e (migResume a0 a1) = nodeNo e a1 ) ∧ (∀ (e : Env) (c : Nat), coreId e (migResume a0 a1) c = coreId e a1 c) ∧ (∀ (e : Env) (c : Nat), unitId e (migResume a0 a1) c = unitId e a1 c) ∧
    (∀ (c : Nat), chan (migResume a0 a1) c = chan a1 c) ∧ (∀ (x : Word), entOk (migResume a0 a1) x = entOk a1 x) ∧ (∀ (c : Nat), groupOf (migResume a0 a1) c = groupOf a1 c) ∧
    (∀ (c : Nat), probing (migResume a0 a1) c = probing a1 c) ∧ (∀ (e : Env) (x : Word), presentCore e (migResume a0 a1) x = presentCore e a1 x) := by
  have k := (migResume_only a0 a1).keep
  exact ⟨fun c => cell_congr (k .cells (by decide)) c, fun c => hubc_congr (k .hubc (by decide)) c, fun c => region_congr (k .regions (by decide)) c, fun x => entity_congr (k .casc (by decide)) x, nowNs_congr (k .time (by decide)), imgOf_congr (k .img (by decide)), serving_congr (k .sys (by decide)), working_congr (k .sys (by decide)), alive_congr (k .sys (by decide)), upState_congr (k .sys (by decide)), portOn_congr (k .sys (by decide)), fun e  => dieNo_congr e (k .img (by decide)), fun e  => nodeNo_congr e (k .img (by decide)), fun e c => coreId_congr e (k .img (by decide)) c, fun e c => unitId_congr e (k .img (by decide)) c, fun c => chan_congr (k .cmd (by decide)) c, fun x => entOk_congr (k .img (by decide)) x, fun c => groupOf_congr (k .img (by decide)) (k .jobs (by decide)) c, fun c => probing_congr (k .age (by decide)) c, fun e x => presentCore_congr e (k .img (by decide)) x⟩

@[simp] theorem sendHeartbeat_reads (a0 a1) :
    (∀ (c : Nat), cell (sendHeartbeat a0 a1) c = cell a1 c) ∧ (∀ (c : Nat), Sys2Proof.Machine.hubc (sendHeartbeat a0 a1) c = Sys2Proof.Machine.hubc a1 c) ∧ (∀ (c : Nat), region (sendHeartbeat a0 a1) c = region a1 c) ∧
    (∀ (x : Word), entity (sendHeartbeat a0 a1) x = entity a1 x) ∧ (nowNs (sendHeartbeat a0 a1) = nowNs a1 ) ∧ (imgOf (sendHeartbeat a0 a1) = imgOf a1 ) ∧
    (serving (sendHeartbeat a0 a1) = serving a1 ) ∧ (working (sendHeartbeat a0 a1) = working a1 ) ∧ (alive (sendHeartbeat a0 a1) = alive a1 ) ∧
    (upState (sendHeartbeat a0 a1) = upState a1 ) ∧ (portOn (sendHeartbeat a0 a1) = portOn a1 ) ∧ (∀ (e : Env), dieNo e (sendHeartbeat a0 a1) = dieNo e a1 ) ∧
    (∀ (e : Env), nodeNo e (sendHeartbeat a0 a1) = nodeNo e a1 ) ∧ (∀ (e : Env) (c : Nat), coreId e (sendHeartbeat a0 a1) c = coreId e a1 c) ∧ (∀ (e : Env) (c : Nat), unitId e (sendHeartbeat a0 a1) c = unitId e a1 c) ∧
    (∀ (c : Nat), chan (sendHeartbeat a0 a1) c = chan a1 c) ∧ (∀ (x : Word), entOk (sendHeartbeat a0 a1) x = entOk a1 x) ∧ (∀ (c : Nat), groupOf (sendHeartbeat a0 a1) c = groupOf a1 c) ∧
    (∀ (c : Nat), probing (sendHeartbeat a0 a1) c = probing a1 c) ∧ (∀ (e : Env) (x : Word), presentCore e (sendHeartbeat a0 a1) x = presentCore e a1 x) := by
  have k := (sendHeartbeat_only a0 a1).keep
  exact ⟨fun c => cell_congr (k .cells (by decide)) c, fun c => hubc_congr (k .hubc (by decide)) c, fun c => region_congr (k .regions (by decide)) c, fun x => entity_congr (k .casc (by decide)) x, nowNs_congr (k .time (by decide)), imgOf_congr (k .img (by decide)), serving_congr (k .sys (by decide)), working_congr (k .sys (by decide)), alive_congr (k .sys (by decide)), upState_congr (k .sys (by decide)), portOn_congr (k .sys (by decide)), fun e  => dieNo_congr e (k .img (by decide)), fun e  => nodeNo_congr e (k .img (by decide)), fun e c => coreId_congr e (k .img (by decide)) c, fun e c => unitId_congr e (k .img (by decide)) c, fun c => chan_congr (k .cmd (by decide)) c, fun x => entOk_congr (k .img (by decide)) x, fun c => groupOf_congr (k .img (by decide)) (k .jobs (by decide)) c, fun c => probing_congr (k .age (by decide)) c, fun e x => presentCore_congr e (k .img (by decide)) x⟩

@[simp] theorem endCapture_reads (a0 a1 a2) :
    (∀ (c : Nat), Sys2Proof.Machine.hubc (endCapture a0 a1 a2) c = Sys2Proof.Machine.hubc a2 c) ∧ (∀ (x : Word), entity (endCapture a0 a1 a2) x = entity a2 x) ∧ (nowNs (endCapture a0 a1 a2) = nowNs a2 ) ∧
    (imgOf (endCapture a0 a1 a2) = imgOf a2 ) ∧ (serving (endCapture a0 a1 a2) = serving a2 ) ∧ (working (endCapture a0 a1 a2) = working a2 ) ∧
    (alive (endCapture a0 a1 a2) = alive a2 ) ∧ (upState (endCapture a0 a1 a2) = upState a2 ) ∧ (portOn (endCapture a0 a1 a2) = portOn a2 ) ∧
    (∀ (e : Env), dieNo e (endCapture a0 a1 a2) = dieNo e a2 ) ∧ (∀ (e : Env), nodeNo e (endCapture a0 a1 a2) = nodeNo e a2 ) ∧ (∀ (e : Env) (c : Nat), coreId e (endCapture a0 a1 a2) c = coreId e a2 c) ∧
    (∀ (e : Env) (c : Nat), unitId e (endCapture a0 a1 a2) c = unitId e a2 c) ∧ (∀ (c : Nat), chan (endCapture a0 a1 a2) c = chan a2 c) ∧ (∀ (x : Word), entOk (endCapture a0 a1 a2) x = entOk a2 x) ∧
    (∀ (c : Nat), groupOf (endCapture a0 a1 a2) c = groupOf a2 c) ∧ (∀ (c : Nat), probing (endCapture a0 a1 a2) c = probing a2 c) ∧ (∀ (e : Env) (x : Word), presentCore e (endCapture a0 a1 a2) x = presentCore e a2 x) := by
  have k := (endCapture_only a0 a1 a2).keep
  exact ⟨fun c => hubc_congr (k .hubc (by decide)) c, fun x => entity_congr (k .casc (by decide)) x, nowNs_congr (k .time (by decide)), imgOf_congr (k .img (by decide)), serving_congr (k .sys (by decide)), working_congr (k .sys (by decide)), alive_congr (k .sys (by decide)), upState_congr (k .sys (by decide)), portOn_congr (k .sys (by decide)), fun e  => dieNo_congr e (k .img (by decide)), fun e  => nodeNo_congr e (k .img (by decide)), fun e c => coreId_congr e (k .img (by decide)) c, fun e c => unitId_congr e (k .img (by decide)) c, fun c => chan_congr (k .cmd (by decide)) c, fun x => entOk_congr (k .img (by decide)) x, fun c => groupOf_congr (k .img (by decide)) (k .jobs (by decide)) c, fun c => probing_congr (k .age (by decide)) c, fun e x => presentCore_congr e (k .img (by decide)) x⟩

@[simp] theorem writeFlush_reads (a0 a1) :
    (∀ (c : Nat), cell (writeFlush a0 a1) c = cell a1 c) ∧ (∀ (c : Nat), Sys2Proof.Machine.hubc (writeFlush a0 a1) c = Sys2Proof.Machine.hubc a1 c) ∧ (∀ (c : Nat), region (writeFlush a0 a1) c = region a1 c) ∧
    (∀ (x : Word), entity (writeFlush a0 a1) x = entity a1 x) ∧ (nowNs (writeFlush a0 a1) = nowNs a1 ) ∧ (imgOf (writeFlush a0 a1) = imgOf a1 ) ∧
    (serving (writeFlush a0 a1) = serving a1 ) ∧ (working (writeFlush a0 a1) = working a1 ) ∧ (alive (writeFlush a0 a1) = alive a1 ) ∧
    (upState (writeFlush a0 a1) = upState a1 ) ∧ (portOn (writeFlush a0 a1) = portOn a1 ) ∧ (∀ (e : Env), dieNo e (writeFlush a0 a1) = dieNo e a1 ) ∧
    (∀ (e : Env), nodeNo e (writeFlush a0 a1) = nodeNo e a1 ) ∧ (∀ (e : Env) (c : Nat), coreId e (writeFlush a0 a1) c = coreId e a1 c) ∧ (∀ (e : Env) (c : Nat), unitId e (writeFlush a0 a1) c = unitId e a1 c) ∧
    (∀ (c : Nat), chan (writeFlush a0 a1) c = chan a1 c) ∧ (∀ (x : Word), entOk (writeFlush a0 a1) x = entOk a1 x) ∧ (∀ (c : Nat), groupOf (writeFlush a0 a1) c = groupOf a1 c) ∧
    (∀ (c : Nat), probing (writeFlush a0 a1) c = probing a1 c) ∧ (∀ (e : Env) (x : Word), presentCore e (writeFlush a0 a1) x = presentCore e a1 x) := by
  have k := (writeFlush_only a0 a1).keep
  exact ⟨fun c => cell_congr (k .cells (by decide)) c, fun c => hubc_congr (k .hubc (by decide)) c, fun c => region_congr (k .regions (by decide)) c, fun x => entity_congr (k .casc (by decide)) x, nowNs_congr (k .time (by decide)), imgOf_congr (k .img (by decide)), serving_congr (k .sys (by decide)), working_congr (k .sys (by decide)), alive_congr (k .sys (by decide)), upState_congr (k .sys (by decide)), portOn_congr (k .sys (by decide)), fun e  => dieNo_congr e (k .img (by decide)), fun e  => nodeNo_congr e (k .img (by decide)), fun e c => coreId_congr e (k .img (by decide)) c, fun e c => unitId_congr e (k .img (by decide)) c, fun c => chan_congr (k .cmd (by decide)) c, fun x => entOk_congr (k .img (by decide)) x, fun c => groupOf_congr (k .img (by decide)) (k .jobs (by decide)) c, fun c => probing_congr (k .age (by decide)) c, fun e x => presentCore_congr e (k .img (by decide)) x⟩

@[simp] theorem enterDormant_reads (a0 a1) :
    (∀ (c : Nat), Sys2Proof.Machine.hubc (enterDormant a0 a1) c = Sys2Proof.Machine.hubc a1 c) ∧ (∀ (x : Word), entity (enterDormant a0 a1) x = entity a1 x) ∧ (imgOf (enterDormant a0 a1) = imgOf a1 ) ∧
    (∀ (e : Env), dieNo e (enterDormant a0 a1) = dieNo e a1 ) ∧ (∀ (e : Env), nodeNo e (enterDormant a0 a1) = nodeNo e a1 ) ∧ (∀ (e : Env) (c : Nat), coreId e (enterDormant a0 a1) c = coreId e a1 c) ∧
    (∀ (e : Env) (c : Nat), unitId e (enterDormant a0 a1) c = unitId e a1 c) ∧ (∀ (c : Nat), chan (enterDormant a0 a1) c = chan a1 c) ∧ (∀ (x : Word), entOk (enterDormant a0 a1) x = entOk a1 x) ∧
    (∀ (c : Nat), groupOf (enterDormant a0 a1) c = groupOf a1 c) ∧ (∀ (c : Nat), probing (enterDormant a0 a1) c = probing a1 c) ∧ (∀ (e : Env) (x : Word), presentCore e (enterDormant a0 a1) x = presentCore e a1 x) := by
  have k := (enterDormant_only a0 a1).keep
  exact ⟨fun c => hubc_congr (k .hubc (by decide)) c, fun x => entity_congr (k .casc (by decide)) x, imgOf_congr (k .img (by decide)), fun e  => dieNo_congr e (k .img (by decide)), fun e  => nodeNo_congr e (k .img (by decide)), fun e c => coreId_congr e (k .img (by decide)) c, fun e c => unitId_congr e (k .img (by decide)) c, fun c => chan_congr (k .cmd (by decide)) c, fun x => entOk_congr (k .img (by decide)) x, fun c => groupOf_congr (k .img (by decide)) (k .jobs (by decide)) c, fun c => probing_congr (k .age (by decide)) c, fun e x => presentCore_congr e (k .img (by decide)) x⟩

@[simp] theorem leaveFlush_reads (a0 a1) :
    (∀ (c : Nat), Sys2Proof.Machine.hubc (leaveFlush a0 a1) c = Sys2Proof.Machine.hubc a1 c) ∧ (∀ (x : Word), entity (leaveFlush a0 a1) x = entity a1 x) ∧ (∀ (c : Nat), chan (leaveFlush a0 a1) c = chan a1 c) ∧
    (∀ (c : Nat), probing (leaveFlush a0 a1) c = probing a1 c) := by
  have k := (leaveFlush_only a0 a1).keep
  exact ⟨fun c => hubc_congr (k .hubc (by decide)) c, fun x => entity_congr (k .casc (by decide)) x, fun c => chan_congr (k .cmd (by decide)) c, fun c => probing_congr (k .age (by decide)) c⟩

@[simp] theorem enterFlush_reads (a0 a1) :
    (∀ (c : Nat), cell (enterFlush a0 a1) c = cell a1 c) ∧ (∀ (c : Nat), Sys2Proof.Machine.hubc (enterFlush a0 a1) c = Sys2Proof.Machine.hubc a1 c) ∧ (∀ (c : Nat), region (enterFlush a0 a1) c = region a1 c) ∧
    (∀ (x : Word), entity (enterFlush a0 a1) x = entity a1 x) ∧ (nowNs (enterFlush a0 a1) = nowNs a1 ) ∧ (imgOf (enterFlush a0 a1) = imgOf a1 ) ∧
    (∀ (e : Env), dieNo e (enterFlush a0 a1) = dieNo e a1 ) ∧ (∀ (e : Env), nodeNo e (enterFlush a0 a1) = nodeNo e a1 ) ∧ (∀ (e : Env) (c : Nat), coreId e (enterFlush a0 a1) c = coreId e a1 c) ∧
    (∀ (e : Env) (c : Nat), unitId e (enterFlush a0 a1) c = unitId e a1 c) ∧ (∀ (c : Nat), chan (enterFlush a0 a1) c = chan a1 c) ∧ (∀ (x : Word), entOk (enterFlush a0 a1) x = entOk a1 x) ∧
    (∀ (c : Nat), groupOf (enterFlush a0 a1) c = groupOf a1 c) ∧ (∀ (c : Nat), probing (enterFlush a0 a1) c = probing a1 c) ∧ (∀ (e : Env) (x : Word), presentCore e (enterFlush a0 a1) x = presentCore e a1 x) := by
  have k := (enterFlush_only a0 a1).keep
  exact ⟨fun c => cell_congr (k .cells (by decide)) c, fun c => hubc_congr (k .hubc (by decide)) c, fun c => region_congr (k .regions (by decide)) c, fun x => entity_congr (k .casc (by decide)) x, nowNs_congr (k .time (by decide)), imgOf_congr (k .img (by decide)), fun e  => dieNo_congr e (k .img (by decide)), fun e  => nodeNo_congr e (k .img (by decide)), fun e c => coreId_congr e (k .img (by decide)) c, fun e c => unitId_congr e (k .img (by decide)) c, fun c => chan_congr (k .cmd (by decide)) c, fun x => entOk_congr (k .img (by decide)) x, fun c => groupOf_congr (k .img (by decide)) (k .jobs (by decide)) c, fun c => probing_congr (k .age (by decide)) c, fun e x => presentCore_congr e (k .img (by decide)) x⟩

@[simp] theorem mirrorAll_reads (a0 a1) :
    (∀ (c : Nat), cell (mirrorAll a0 a1) c = cell a1 c) ∧ (∀ (c : Nat), Sys2Proof.Machine.hubc (mirrorAll a0 a1) c = Sys2Proof.Machine.hubc a1 c) ∧ (∀ (c : Nat), region (mirrorAll a0 a1) c = region a1 c) ∧
    (∀ (x : Word), entity (mirrorAll a0 a1) x = entity a1 x) ∧ (nowNs (mirrorAll a0 a1) = nowNs a1 ) ∧ (imgOf (mirrorAll a0 a1) = imgOf a1 ) ∧
    (serving (mirrorAll a0 a1) = serving a1 ) ∧ (working (mirrorAll a0 a1) = working a1 ) ∧ (alive (mirrorAll a0 a1) = alive a1 ) ∧
    (upState (mirrorAll a0 a1) = upState a1 ) ∧ (portOn (mirrorAll a0 a1) = portOn a1 ) ∧ (∀ (e : Env), dieNo e (mirrorAll a0 a1) = dieNo e a1 ) ∧
    (∀ (e : Env), nodeNo e (mirrorAll a0 a1) = nodeNo e a1 ) ∧ (∀ (e : Env) (c : Nat), coreId e (mirrorAll a0 a1) c = coreId e a1 c) ∧ (∀ (e : Env) (c : Nat), unitId e (mirrorAll a0 a1) c = unitId e a1 c) ∧
    (∀ (c : Nat), chan (mirrorAll a0 a1) c = chan a1 c) ∧ (∀ (x : Word), entOk (mirrorAll a0 a1) x = entOk a1 x) ∧ (∀ (c : Nat), groupOf (mirrorAll a0 a1) c = groupOf a1 c) ∧
    (∀ (c : Nat), probing (mirrorAll a0 a1) c = probing a1 c) ∧ (∀ (e : Env) (x : Word), presentCore e (mirrorAll a0 a1) x = presentCore e a1 x) := by
  have k := (mirrorAll_only a0 a1).keep
  exact ⟨fun c => cell_congr (k .cells (by decide)) c, fun c => hubc_congr (k .hubc (by decide)) c, fun c => region_congr (k .regions (by decide)) c, fun x => entity_congr (k .casc (by decide)) x, nowNs_congr (k .time (by decide)), imgOf_congr (k .img (by decide)), serving_congr (k .sys (by decide)), working_congr (k .sys (by decide)), alive_congr (k .sys (by decide)), upState_congr (k .sys (by decide)), portOn_congr (k .sys (by decide)), fun e  => dieNo_congr e (k .img (by decide)), fun e  => nodeNo_congr e (k .img (by decide)), fun e c => coreId_congr e (k .img (by decide)) c, fun e c => unitId_congr e (k .img (by decide)) c, fun c => chan_congr (k .cmd (by decide)) c, fun x => entOk_congr (k .img (by decide)) x, fun c => groupOf_congr (k .img (by decide)) (k .jobs (by decide)) c, fun c => probing_congr (k .age (by decide)) c, fun e x => presentCore_congr e (k .img (by decide)) x⟩

@[simp] theorem recordChecks_reads (a0 a1) :
    (∀ (c : Nat), cell (recordChecks a0 a1) c = cell a1 c) ∧ (∀ (c : Nat), Sys2Proof.Machine.hubc (recordChecks a0 a1) c = Sys2Proof.Machine.hubc a1 c) ∧ (∀ (c : Nat), region (recordChecks a0 a1) c = region a1 c) ∧
    (∀ (x : Word), entity (recordChecks a0 a1) x = entity a1 x) ∧ (nowNs (recordChecks a0 a1) = nowNs a1 ) ∧ (imgOf (recordChecks a0 a1) = imgOf a1 ) ∧
    (serving (recordChecks a0 a1) = serving a1 ) ∧ (working (recordChecks a0 a1) = working a1 ) ∧ (alive (recordChecks a0 a1) = alive a1 ) ∧
    (upState (recordChecks a0 a1) = upState a1 ) ∧ (portOn (recordChecks a0 a1) = portOn a1 ) ∧ (∀ (e : Env), dieNo e (recordChecks a0 a1) = dieNo e a1 ) ∧
    (∀ (e : Env), nodeNo e (recordChecks a0 a1) = nodeNo e a1 ) ∧ (∀ (e : Env) (c : Nat), coreId e (recordChecks a0 a1) c = coreId e a1 c) ∧ (∀ (e : Env) (c : Nat), unitId e (recordChecks a0 a1) c = unitId e a1 c) ∧
    (∀ (c : Nat), chan (recordChecks a0 a1) c = chan a1 c) ∧ (∀ (x : Word), entOk (recordChecks a0 a1) x = entOk a1 x) ∧ (∀ (c : Nat), groupOf (recordChecks a0 a1) c = groupOf a1 c) ∧
    (∀ (c : Nat), probing (recordChecks a0 a1) c = probing a1 c) ∧ (∀ (e : Env) (x : Word), presentCore e (recordChecks a0 a1) x = presentCore e a1 x) := by
  have k := (recordChecks_only a0 a1).keep
  exact ⟨fun c => cell_congr (k .cells (by decide)) c, fun c => hubc_congr (k .hubc (by decide)) c, fun c => region_congr (k .regions (by decide)) c, fun x => entity_congr (k .casc (by decide)) x, nowNs_congr (k .time (by decide)), imgOf_congr (k .img (by decide)), serving_congr (k .sys (by decide)), working_congr (k .sys (by decide)), alive_congr (k .sys (by decide)), upState_congr (k .sys (by decide)), portOn_congr (k .sys (by decide)), fun e  => dieNo_congr e (k .img (by decide)), fun e  => nodeNo_congr e (k .img (by decide)), fun e c => coreId_congr e (k .img (by decide)) c, fun e c => unitId_congr e (k .img (by decide)) c, fun c => chan_congr (k .cmd (by decide)) c, fun x => entOk_congr (k .img (by decide)) x, fun c => groupOf_congr (k .img (by decide)) (k .jobs (by decide)) c, fun c => probing_congr (k .age (by decide)) c, fun e x => presentCore_congr e (k .img (by decide)) x⟩

@[simp] theorem restorePlans_reads (a0 a1) :
    (∀ (c : Nat), cell (restorePlans a0 a1) c = cell a1 c) ∧ (∀ (c : Nat), Sys2Proof.Machine.hubc (restorePlans a0 a1) c = Sys2Proof.Machine.hubc a1 c) ∧ (∀ (c : Nat), region (restorePlans a0 a1) c = region a1 c) ∧
    (∀ (x : Word), entity (restorePlans a0 a1) x = entity a1 x) ∧ (nowNs (restorePlans a0 a1) = nowNs a1 ) ∧ (imgOf (restorePlans a0 a1) = imgOf a1 ) ∧
    (serving (restorePlans a0 a1) = serving a1 ) ∧ (working (restorePlans a0 a1) = working a1 ) ∧ (alive (restorePlans a0 a1) = alive a1 ) ∧
    (upState (restorePlans a0 a1) = upState a1 ) ∧ (portOn (restorePlans a0 a1) = portOn a1 ) ∧ (∀ (e : Env), dieNo e (restorePlans a0 a1) = dieNo e a1 ) ∧
    (∀ (e : Env), nodeNo e (restorePlans a0 a1) = nodeNo e a1 ) ∧ (∀ (e : Env) (c : Nat), coreId e (restorePlans a0 a1) c = coreId e a1 c) ∧ (∀ (e : Env) (c : Nat), unitId e (restorePlans a0 a1) c = unitId e a1 c) ∧
    (∀ (x : Word), entOk (restorePlans a0 a1) x = entOk a1 x) ∧ (∀ (c : Nat), groupOf (restorePlans a0 a1) c = groupOf a1 c) ∧ (∀ (e : Env) (x : Word), presentCore e (restorePlans a0 a1) x = presentCore e a1 x) := by
  have k := (restorePlans_only a0 a1).keep
  exact ⟨fun c => cell_congr (k .cells (by decide)) c, fun c => hubc_congr (k .hubc (by decide)) c, fun c => region_congr (k .regions (by decide)) c, fun x => entity_congr (k .casc (by decide)) x, nowNs_congr (k .time (by decide)), imgOf_congr (k .img (by decide)), serving_congr (k .sys (by decide)), working_congr (k .sys (by decide)), alive_congr (k .sys (by decide)), upState_congr (k .sys (by decide)), portOn_congr (k .sys (by decide)), fun e  => dieNo_congr e (k .img (by decide)), fun e  => nodeNo_congr e (k .img (by decide)), fun e c => coreId_congr e (k .img (by decide)) c, fun e c => unitId_congr e (k .img (by decide)) c, fun x => entOk_congr (k .img (by decide)) x, fun c => groupOf_congr (k .img (by decide)) (k .jobs (by decide)) c, fun e x => presentCore_congr e (k .img (by decide)) x⟩

@[simp] theorem loadAge_reads (a0 a1) :
    (∀ (c : Nat), cell (loadAge a0 a1) c = cell a1 c) ∧ (∀ (c : Nat), Sys2Proof.Machine.hubc (loadAge a0 a1) c = Sys2Proof.Machine.hubc a1 c) ∧ (∀ (c : Nat), region (loadAge a0 a1) c = region a1 c) ∧
    (∀ (x : Word), entity (loadAge a0 a1) x = entity a1 x) ∧ (nowNs (loadAge a0 a1) = nowNs a1 ) ∧ (imgOf (loadAge a0 a1) = imgOf a1 ) ∧
    (serving (loadAge a0 a1) = serving a1 ) ∧ (working (loadAge a0 a1) = working a1 ) ∧ (alive (loadAge a0 a1) = alive a1 ) ∧
    (upState (loadAge a0 a1) = upState a1 ) ∧ (portOn (loadAge a0 a1) = portOn a1 ) ∧ (∀ (e : Env), dieNo e (loadAge a0 a1) = dieNo e a1 ) ∧
    (∀ (e : Env), nodeNo e (loadAge a0 a1) = nodeNo e a1 ) ∧ (∀ (e : Env) (c : Nat), coreId e (loadAge a0 a1) c = coreId e a1 c) ∧ (∀ (e : Env) (c : Nat), unitId e (loadAge a0 a1) c = unitId e a1 c) ∧
    (∀ (c : Nat), chan (loadAge a0 a1) c = chan a1 c) ∧ (∀ (x : Word), entOk (loadAge a0 a1) x = entOk a1 x) ∧ (∀ (c : Nat), groupOf (loadAge a0 a1) c = groupOf a1 c) ∧
    (∀ (e : Env) (x : Word), presentCore e (loadAge a0 a1) x = presentCore e a1 x) := by
  have k := (loadAge_only a0 a1).keep
  exact ⟨fun c => cell_congr (k .cells (by decide)) c, fun c => hubc_congr (k .hubc (by decide)) c, fun c => region_congr (k .regions (by decide)) c, fun x => entity_congr (k .casc (by decide)) x, nowNs_congr (k .time (by decide)), imgOf_congr (k .img (by decide)), serving_congr (k .sys (by decide)), working_congr (k .sys (by decide)), alive_congr (k .sys (by decide)), upState_congr (k .sys (by decide)), portOn_congr (k .sys (by decide)), fun e  => dieNo_congr e (k .img (by decide)), fun e  => nodeNo_congr e (k .img (by decide)), fun e c => coreId_congr e (k .img (by decide)) c, fun e c => unitId_congr e (k .img (by decide)) c, fun c => chan_congr (k .cmd (by decide)) c, fun x => entOk_congr (k .img (by decide)) x, fun c => groupOf_congr (k .img (by decide)) (k .jobs (by decide)) c, fun e x => presentCore_congr e (k .img (by decide)) x⟩

@[simp] theorem writeBackImage_reads (a0 a1 a2 a3) :
    (∀ (c : Nat), cell (writeBackImage a0 a1 a2 a3) c = cell a3 c) ∧ (∀ (c : Nat), Sys2Proof.Machine.hubc (writeBackImage a0 a1 a2 a3) c = Sys2Proof.Machine.hubc a3 c) ∧ (∀ (c : Nat), region (writeBackImage a0 a1 a2 a3) c = region a3 c) ∧
    (∀ (x : Word), entity (writeBackImage a0 a1 a2 a3) x = entity a3 x) ∧ (nowNs (writeBackImage a0 a1 a2 a3) = nowNs a3 ) ∧ (imgOf (writeBackImage a0 a1 a2 a3) = imgOf a3 ) ∧
    (serving (writeBackImage a0 a1 a2 a3) = serving a3 ) ∧ (working (writeBackImage a0 a1 a2 a3) = working a3 ) ∧ (alive (writeBackImage a0 a1 a2 a3) = alive a3 ) ∧
    (upState (writeBackImage a0 a1 a2 a3) = upState a3 ) ∧ (portOn (writeBackImage a0 a1 a2 a3) = portOn a3 ) ∧ (∀ (e : Env), dieNo e (writeBackImage a0 a1 a2 a3) = dieNo e a3 ) ∧
    (∀ (e : Env), nodeNo e (writeBackImage a0 a1 a2 a3) = nodeNo e a3 ) ∧ (∀ (e : Env) (c : Nat), coreId e (writeBackImage a0 a1 a2 a3) c = coreId e a3 c) ∧ (∀ (e : Env) (c : Nat), unitId e (writeBackImage a0 a1 a2 a3) c = unitId e a3 c) ∧
    (∀ (c : Nat), chan (writeBackImage a0 a1 a2 a3) c = chan a3 c) ∧ (∀ (x : Word), entOk (writeBackImage a0 a1 a2 a3) x = entOk a3 x) ∧ (∀ (c : Nat), groupOf (writeBackImage a0 a1 a2 a3) c = groupOf a3 c) ∧
    (∀ (c : Nat), probing (writeBackImage a0 a1 a2 a3) c = probing a3 c) ∧ (∀ (e : Env) (x : Word), presentCore e (writeBackImage a0 a1 a2 a3) x = presentCore e a3 x) := by
  have k := (writeBackImage_only a0 a1 a2 a3).keep
  exact ⟨fun c => cell_congr (k .cells (by decide)) c, fun c => hubc_congr (k .hubc (by decide)) c, fun c => region_congr (k .regions (by decide)) c, fun x => entity_congr (k .casc (by decide)) x, nowNs_congr (k .time (by decide)), imgOf_congr (k .img (by decide)), serving_congr (k .sys (by decide)), working_congr (k .sys (by decide)), alive_congr (k .sys (by decide)), upState_congr (k .sys (by decide)), portOn_congr (k .sys (by decide)), fun e  => dieNo_congr e (k .img (by decide)), fun e  => nodeNo_congr e (k .img (by decide)), fun e c => coreId_congr e (k .img (by decide)) c, fun e c => unitId_congr e (k .img (by decide)) c, fun c => chan_congr (k .cmd (by decide)) c, fun x => entOk_congr (k .img (by decide)) x, fun c => groupOf_congr (k .img (by decide)) (k .jobs (by decide)) c, fun c => probing_congr (k .age (by decide)) c, fun e x => presentCore_congr e (k .img (by decide)) x⟩

@[simp] theorem deliver_reads (a0 a1 a2) :
    (∀ (c : Nat), Sys2Proof.Machine.hubc (deliver a0 a1 a2) c = Sys2Proof.Machine.hubc a2 c) ∧ (∀ (c : Nat), chan (deliver a0 a1 a2) c = chan a2 c) ∧ (∀ (c : Nat), probing (deliver a0 a1 a2) c = probing a2 c) := by
  have k := (deliver_only a0 a1 a2).keep
  exact ⟨fun c => hubc_congr (k .hubc (by decide)) c, fun c => chan_congr (k .cmd (by decide)) c, fun c => probing_congr (k .age (by decide)) c⟩

@[simp] theorem actHeld_reads (a0) :
    (∀ (c : Nat), cell (actHeld a0) c = cell a0 c) ∧ (∀ (c : Nat), Sys2Proof.Machine.hubc (actHeld a0) c = Sys2Proof.Machine.hubc a0 c) ∧ (∀ (c : Nat), region (actHeld a0) c = region a0 c) ∧
    (∀ (x : Word), entity (actHeld a0) x = entity a0 x) ∧ (imgOf (actHeld a0) = imgOf a0 ) ∧ (serving (actHeld a0) = serving a0 ) ∧
    (working (actHeld a0) = working a0 ) ∧ (alive (actHeld a0) = alive a0 ) ∧ (upState (actHeld a0) = upState a0 ) ∧
    (portOn (actHeld a0) = portOn a0 ) ∧ (∀ (e : Env), dieNo e (actHeld a0) = dieNo e a0 ) ∧ (∀ (e : Env), nodeNo e (actHeld a0) = nodeNo e a0 ) ∧
    (∀ (e : Env) (c : Nat), coreId e (actHeld a0) c = coreId e a0 c) ∧ (∀ (e : Env) (c : Nat), unitId e (actHeld a0) c = unitId e a0 c) ∧ (∀ (c : Nat), chan (actHeld a0) c = chan a0 c) ∧
    (∀ (x : Word), entOk (actHeld a0) x = entOk a0 x) ∧ (∀ (c : Nat), groupOf (actHeld a0) c = groupOf a0 c) ∧ (∀ (c : Nat), probing (actHeld a0) c = probing a0 c) ∧
    (∀ (e : Env) (x : Word), presentCore e (actHeld a0) x = presentCore e a0 x) := by
  have k := (actHeld_only a0).keep
  exact ⟨fun c => cell_congr (k .cells (by decide)) c, fun c => hubc_congr (k .hubc (by decide)) c, fun c => region_congr (k .regions (by decide)) c, fun x => entity_congr (k .casc (by decide)) x, imgOf_congr (k .img (by decide)), serving_congr (k .sys (by decide)), working_congr (k .sys (by decide)), alive_congr (k .sys (by decide)), upState_congr (k .sys (by decide)), portOn_congr (k .sys (by decide)), fun e  => dieNo_congr e (k .img (by decide)), fun e  => nodeNo_congr e (k .img (by decide)), fun e c => coreId_congr e (k .img (by decide)) c, fun e c => unitId_congr e (k .img (by decide)) c, fun c => chan_congr (k .cmd (by decide)) c, fun x => entOk_congr (k .img (by decide)) x, fun c => groupOf_congr (k .img (by decide)) (k .jobs (by decide)) c, fun c => probing_congr (k .age (by decide)) c, fun e x => presentCore_congr e (k .img (by decide)) x⟩

@[simp] theorem restartWindows_reads (a0) :
    (∀ (c : Nat), Sys2Proof.Machine.hubc (restartWindows a0) c = Sys2Proof.Machine.hubc a0 c) ∧ (∀ (c : Nat), region (restartWindows a0) c = region a0 c) ∧ (∀ (x : Word), entity (restartWindows a0) x = entity a0 x) ∧
    (nowNs (restartWindows a0) = nowNs a0 ) ∧ (imgOf (restartWindows a0) = imgOf a0 ) ∧ (serving (restartWindows a0) = serving a0 ) ∧
    (working (restartWindows a0) = working a0 ) ∧ (alive (restartWindows a0) = alive a0 ) ∧ (upState (restartWindows a0) = upState a0 ) ∧
    (portOn (restartWindows a0) = portOn a0 ) ∧ (∀ (e : Env), dieNo e (restartWindows a0) = dieNo e a0 ) ∧ (∀ (e : Env), nodeNo e (restartWindows a0) = nodeNo e a0 ) ∧
    (∀ (e : Env) (c : Nat), coreId e (restartWindows a0) c = coreId e a0 c) ∧ (∀ (e : Env) (c : Nat), unitId e (restartWindows a0) c = unitId e a0 c) ∧ (∀ (c : Nat), chan (restartWindows a0) c = chan a0 c) ∧
    (∀ (x : Word), entOk (restartWindows a0) x = entOk a0 x) ∧ (∀ (c : Nat), groupOf (restartWindows a0) c = groupOf a0 c) ∧ (∀ (c : Nat), probing (restartWindows a0) c = probing a0 c) ∧
    (∀ (e : Env) (x : Word), presentCore e (restartWindows a0) x = presentCore e a0 x) := by
  have k := (restartWindows_only a0).keep
  exact ⟨fun c => hubc_congr (k .hubc (by decide)) c, fun c => region_congr (k .regions (by decide)) c, fun x => entity_congr (k .casc (by decide)) x, nowNs_congr (k .time (by decide)), imgOf_congr (k .img (by decide)), serving_congr (k .sys (by decide)), working_congr (k .sys (by decide)), alive_congr (k .sys (by decide)), upState_congr (k .sys (by decide)), portOn_congr (k .sys (by decide)), fun e  => dieNo_congr e (k .img (by decide)), fun e  => nodeNo_congr e (k .img (by decide)), fun e c => coreId_congr e (k .img (by decide)) c, fun e c => unitId_congr e (k .img (by decide)) c, fun c => chan_congr (k .cmd (by decide)) c, fun x => entOk_congr (k .img (by decide)) x, fun c => groupOf_congr (k .img (by decide)) (k .jobs (by decide)) c, fun c => probing_congr (k .age (by decide)) c, fun e x => presentCore_congr e (k .img (by decide)) x⟩

@[simp] theorem selectCores_reads (a0 a1) :
    (∀ (c : Nat), Sys2Proof.Machine.hubc (selectCores a0 a1) c = Sys2Proof.Machine.hubc a1 c) ∧ (∀ (x : Word), entity (selectCores a0 a1) x = entity a1 x) ∧ (nowNs (selectCores a0 a1) = nowNs a1 ) ∧
    (imgOf (selectCores a0 a1) = imgOf a1 ) ∧ (serving (selectCores a0 a1) = serving a1 ) ∧ (working (selectCores a0 a1) = working a1 ) ∧
    (alive (selectCores a0 a1) = alive a1 ) ∧ (upState (selectCores a0 a1) = upState a1 ) ∧ (portOn (selectCores a0 a1) = portOn a1 ) ∧
    (∀ (e : Env), dieNo e (selectCores a0 a1) = dieNo e a1 ) ∧ (∀ (e : Env), nodeNo e (selectCores a0 a1) = nodeNo e a1 ) ∧ (∀ (e : Env) (c : Nat), coreId e (selectCores a0 a1) c = coreId e a1 c) ∧
    (∀ (e : Env) (c : Nat), unitId e (selectCores a0 a1) c = unitId e a1 c) ∧ (∀ (c : Nat), chan (selectCores a0 a1) c = chan a1 c) ∧ (∀ (x : Word), entOk (selectCores a0 a1) x = entOk a1 x) ∧
    (∀ (c : Nat), groupOf (selectCores a0 a1) c = groupOf a1 c) ∧ (∀ (c : Nat), probing (selectCores a0 a1) c = probing a1 c) ∧ (∀ (e : Env) (x : Word), presentCore e (selectCores a0 a1) x = presentCore e a1 x) := by
  have k := (selectCores_only a0 a1).keep
  exact ⟨fun c => hubc_congr (k .hubc (by decide)) c, fun x => entity_congr (k .casc (by decide)) x, nowNs_congr (k .time (by decide)), imgOf_congr (k .img (by decide)), serving_congr (k .sys (by decide)), working_congr (k .sys (by decide)), alive_congr (k .sys (by decide)), upState_congr (k .sys (by decide)), portOn_congr (k .sys (by decide)), fun e  => dieNo_congr e (k .img (by decide)), fun e  => nodeNo_congr e (k .img (by decide)), fun e c => coreId_congr e (k .img (by decide)) c, fun e c => unitId_congr e (k .img (by decide)) c, fun c => chan_congr (k .cmd (by decide)) c, fun x => entOk_congr (k .img (by decide)) x, fun c => groupOf_congr (k .img (by decide)) (k .jobs (by decide)) c, fun c => probing_congr (k .age (by decide)) c, fun e x => presentCore_congr e (k .img (by decide)) x⟩

@[simp] theorem commitGates_reads (a0) :
    (∀ (c : Nat), cell (commitGates a0) c = cell a0 c) ∧ (∀ (c : Nat), Sys2Proof.Machine.hubc (commitGates a0) c = Sys2Proof.Machine.hubc a0 c) ∧ (∀ (c : Nat), region (commitGates a0) c = region a0 c) ∧
    (∀ (x : Word), entity (commitGates a0) x = entity a0 x) ∧ (nowNs (commitGates a0) = nowNs a0 ) ∧ (imgOf (commitGates a0) = imgOf a0 ) ∧
    (serving (commitGates a0) = serving a0 ) ∧ (working (commitGates a0) = working a0 ) ∧ (alive (commitGates a0) = alive a0 ) ∧
    (upState (commitGates a0) = upState a0 ) ∧ (portOn (commitGates a0) = portOn a0 ) ∧ (∀ (e : Env), dieNo e (commitGates a0) = dieNo e a0 ) ∧
    (∀ (e : Env), nodeNo e (commitGates a0) = nodeNo e a0 ) ∧ (∀ (e : Env) (c : Nat), coreId e (commitGates a0) c = coreId e a0 c) ∧ (∀ (e : Env) (c : Nat), unitId e (commitGates a0) c = unitId e a0 c) ∧
    (∀ (c : Nat), chan (commitGates a0) c = chan a0 c) ∧ (∀ (x : Word), entOk (commitGates a0) x = entOk a0 x) ∧ (∀ (c : Nat), groupOf (commitGates a0) c = groupOf a0 c) ∧
    (∀ (c : Nat), probing (commitGates a0) c = probing a0 c) ∧ (∀ (e : Env) (x : Word), presentCore e (commitGates a0) x = presentCore e a0 x) := by
  have k := (commitGates_only a0).keep
  exact ⟨fun c => cell_congr (k .cells (by decide)) c, fun c => hubc_congr (k .hubc (by decide)) c, fun c => region_congr (k .regions (by decide)) c, fun x => entity_congr (k .casc (by decide)) x, nowNs_congr (k .time (by decide)), imgOf_congr (k .img (by decide)), serving_congr (k .sys (by decide)), working_congr (k .sys (by decide)), alive_congr (k .sys (by decide)), upState_congr (k .sys (by decide)), portOn_congr (k .sys (by decide)), fun e  => dieNo_congr e (k .img (by decide)), fun e  => nodeNo_congr e (k .img (by decide)), fun e c => coreId_congr e (k .img (by decide)) c, fun e c => unitId_congr e (k .img (by decide)) c, fun c => chan_congr (k .cmd (by decide)) c, fun x => entOk_congr (k .img (by decide)) x, fun c => groupOf_congr (k .img (by decide)) (k .jobs (by decide)) c, fun c => probing_congr (k .age (by decide)) c, fun e x => presentCore_congr e (k .img (by decide)) x⟩

@[simp] theorem askPartial_reads (a0 a1 a2) :
    (askPartial a0 a1 a2).free = a2.free ∧ (askPartial a0 a1 a2).sys = a2.sys ∧ (askPartial a0 a1 a2).isl = a2.isl ∧
    (askPartial a0 a1 a2).time = a2.time ∧ (askPartial a0 a1 a2).hubc = a2.hubc ∧ (askPartial a0 a1 a2).res = a2.res ∧
    (askPartial a0 a1 a2).dig = a2.dig ∧ (askPartial a0 a1 a2).xs = a2.xs ∧ (askPartial a0 a1 a2).ens = a2.ens ∧
    (askPartial a0 a1 a2).casc = a2.casc ∧ (askPartial a0 a1 a2).age = a2.age ∧ (askPartial a0 a1 a2).fab = a2.fab ∧
    (askPartial a0 a1 a2).sb = a2.sb ∧ (askPartial a0 a1 a2).bc = a2.bc ∧ (askPartial a0 a1 a2).jobs = a2.jobs ∧
    (askPartial a0 a1 a2).mgt = a2.mgt ∧ (askPartial a0 a1 a2).cmd = a2.cmd ∧ (askPartial a0 a1 a2).prot = a2.prot ∧
    (askPartial a0 a1 a2).regs = a2.regs ∧ (askPartial a0 a1 a2).mem = a2.mem ∧ (askPartial a0 a1 a2).dma = a2.dma ∧
    (askPartial a0 a1 a2).trc = a2.trc ∧ (askPartial a0 a1 a2).nid = a2.nid ∧ (askPartial a0 a1 a2).log = a2.log ∧
    (askPartial a0 a1 a2).boot = a2.boot ∧ (askPartial a0 a1 a2).img = a2.img ∧ (askPartial a0 a1 a2).reports = a2.reports ∧
    (askPartial a0 a1 a2).posted = a2.posted ∧ (askPartial a0 a1 a2).nvPosted = a2.nvPosted ∧ (∀ (c : Nat), Sys2Proof.Machine.hubc (askPartial a0 a1 a2) c = Sys2Proof.Machine.hubc a2 c) ∧
    (∀ (x : Word), entity (askPartial a0 a1 a2) x = entity a2 x) ∧ (nowNs (askPartial a0 a1 a2) = nowNs a2 ) ∧ (imgOf (askPartial a0 a1 a2) = imgOf a2 ) ∧
    (serving (askPartial a0 a1 a2) = serving a2 ) ∧ (working (askPartial a0 a1 a2) = working a2 ) ∧ (alive (askPartial a0 a1 a2) = alive a2 ) ∧
    (upState (askPartial a0 a1 a2) = upState a2 ) ∧ (portOn (askPartial a0 a1 a2) = portOn a2 ) ∧ (∀ (e : Env), dieNo e (askPartial a0 a1 a2) = dieNo e a2 ) ∧
    (∀ (e : Env), nodeNo e (askPartial a0 a1 a2) = nodeNo e a2 ) ∧ (∀ (e : Env) (c : Nat), coreId e (askPartial a0 a1 a2) c = coreId e a2 c) ∧ (∀ (e : Env) (c : Nat), unitId e (askPartial a0 a1 a2) c = unitId e a2 c) ∧
    (∀ (c : Nat), chan (askPartial a0 a1 a2) c = chan a2 c) ∧ (∀ (x : Word), entOk (askPartial a0 a1 a2) x = entOk a2 x) ∧ (∀ (c : Nat), groupOf (askPartial a0 a1 a2) c = groupOf a2 c) ∧
    (∀ (c : Nat), probing (askPartial a0 a1 a2) c = probing a2 c) ∧ (∀ (e : Env) (x : Word), presentCore e (askPartial a0 a1 a2) x = presentCore e a2 x) := by
  have k := (askPartial_only a0 a1 a2).keep
  exact ⟨k .free (by decide), k .sys (by decide), k .isl (by decide), k .time (by decide), k .hubc (by decide), k .res (by decide), k .dig (by decide), k .xs (by decide), k .ens (by decide), k .casc (by decide), k .age (by decide), k .fab (by decide), k .sb (by decide), k .bc (by decide), k .jobs (by decide), k .mgt (by decide), k .cmd (by decide), k .prot (by decide), k .regs (by decide), k .mem (by decide), k .dma (by decide), k .trc (by decide), k .nid (by decide), k .log (by decide), k .boot (by decide), k .img (by decide), k .reports (by decide), k .ram (by decide), k .nvm (by decide), fun c => hubc_congr (k .hubc (by decide)) c, fun x => entity_congr (k .casc (by decide)) x, nowNs_congr (k .time (by decide)), imgOf_congr (k .img (by decide)), serving_congr (k .sys (by decide)), working_congr (k .sys (by decide)), alive_congr (k .sys (by decide)), upState_congr (k .sys (by decide)), portOn_congr (k .sys (by decide)), fun e  => dieNo_congr e (k .img (by decide)), fun e  => nodeNo_congr e (k .img (by decide)), fun e c => coreId_congr e (k .img (by decide)) c, fun e c => unitId_congr e (k .img (by decide)) c, fun c => chan_congr (k .cmd (by decide)) c, fun x => entOk_congr (k .img (by decide)) x, fun c => groupOf_congr (k .img (by decide)) (k .jobs (by decide)) c, fun c => probing_congr (k .age (by decide)) c, fun e x => presentCore_congr e (k .img (by decide)) x⟩

@[simp] theorem beginPartial_reads (a0 a1) :
    (beginPartial a0 a1).free = a1.free ∧ (beginPartial a0 a1).sys = a1.sys ∧ (beginPartial a0 a1).isl = a1.isl ∧
    (beginPartial a0 a1).time = a1.time ∧ (beginPartial a0 a1).hubc = a1.hubc ∧ (beginPartial a0 a1).res = a1.res ∧
    (beginPartial a0 a1).dig = a1.dig ∧ (beginPartial a0 a1).xs = a1.xs ∧ (beginPartial a0 a1).ens = a1.ens ∧
    (beginPartial a0 a1).casc = a1.casc ∧ (beginPartial a0 a1).age = a1.age ∧ (beginPartial a0 a1).fab = a1.fab ∧
    (beginPartial a0 a1).sb = a1.sb ∧ (beginPartial a0 a1).bc = a1.bc ∧ (beginPartial a0 a1).jobs = a1.jobs ∧
    (beginPartial a0 a1).mgt = a1.mgt ∧ (beginPartial a0 a1).cmd = a1.cmd ∧ (beginPartial a0 a1).prot = a1.prot ∧
    (beginPartial a0 a1).regs = a1.regs ∧ (beginPartial a0 a1).mem = a1.mem ∧ (beginPartial a0 a1).dma = a1.dma ∧
    (beginPartial a0 a1).trc = a1.trc ∧ (beginPartial a0 a1).nid = a1.nid ∧ (beginPartial a0 a1).log = a1.log ∧
    (beginPartial a0 a1).boot = a1.boot ∧ (beginPartial a0 a1).img = a1.img ∧ (beginPartial a0 a1).reports = a1.reports ∧
    (beginPartial a0 a1).posted = a1.posted ∧ (beginPartial a0 a1).nvPosted = a1.nvPosted ∧ (∀ (c : Nat), Sys2Proof.Machine.hubc (beginPartial a0 a1) c = Sys2Proof.Machine.hubc a1 c) ∧
    (∀ (x : Word), entity (beginPartial a0 a1) x = entity a1 x) ∧ (nowNs (beginPartial a0 a1) = nowNs a1 ) ∧ (imgOf (beginPartial a0 a1) = imgOf a1 ) ∧
    (serving (beginPartial a0 a1) = serving a1 ) ∧ (working (beginPartial a0 a1) = working a1 ) ∧ (alive (beginPartial a0 a1) = alive a1 ) ∧
    (upState (beginPartial a0 a1) = upState a1 ) ∧ (portOn (beginPartial a0 a1) = portOn a1 ) ∧ (∀ (e : Env), dieNo e (beginPartial a0 a1) = dieNo e a1 ) ∧
    (∀ (e : Env), nodeNo e (beginPartial a0 a1) = nodeNo e a1 ) ∧ (∀ (e : Env) (c : Nat), coreId e (beginPartial a0 a1) c = coreId e a1 c) ∧ (∀ (e : Env) (c : Nat), unitId e (beginPartial a0 a1) c = unitId e a1 c) ∧
    (∀ (c : Nat), chan (beginPartial a0 a1) c = chan a1 c) ∧ (∀ (x : Word), entOk (beginPartial a0 a1) x = entOk a1 x) ∧ (∀ (c : Nat), groupOf (beginPartial a0 a1) c = groupOf a1 c) ∧
    (∀ (c : Nat), probing (beginPartial a0 a1) c = probing a1 c) ∧ (∀ (e : Env) (x : Word), presentCore e (beginPartial a0 a1) x = presentCore e a1 x) := by
  have k := (beginPartial_only a0 a1).keep
  exact ⟨k .free (by decide), k .sys (by decide), k .isl (by decide), k .time (by decide), k .hubc (by decide), k .res (by decide), k .dig (by decide), k .xs (by decide), k .ens (by decide), k .casc (by decide), k .age (by decide), k .fab (by decide), k .sb (by decide), k .bc (by decide), k .jobs (by decide), k .mgt (by decide), k .cmd (by decide), k .prot (by decide), k .regs (by decide), k .mem (by decide), k .dma (by decide), k .trc (by decide), k .nid (by decide), k .log (by decide), k .boot (by decide), k .img (by decide), k .reports (by decide), k .ram (by decide), k .nvm (by decide), fun c => hubc_congr (k .hubc (by decide)) c, fun x => entity_congr (k .casc (by decide)) x, nowNs_congr (k .time (by decide)), imgOf_congr (k .img (by decide)), serving_congr (k .sys (by decide)), working_congr (k .sys (by decide)), alive_congr (k .sys (by decide)), upState_congr (k .sys (by decide)), portOn_congr (k .sys (by decide)), fun e  => dieNo_congr e (k .img (by decide)), fun e  => nodeNo_congr e (k .img (by decide)), fun e c => coreId_congr e (k .img (by decide)) c, fun e c => unitId_congr e (k .img (by decide)) c, fun c => chan_congr (k .cmd (by decide)) c, fun x => entOk_congr (k .img (by decide)) x, fun c => groupOf_congr (k .img (by decide)) (k .jobs (by decide)) c, fun c => probing_congr (k .age (by decide)) c, fun e x => presentCore_congr e (k .img (by decide)) x⟩

@[simp] theorem capture_reads (a0 a1) :
    (capture a0 a1).free = a1.free ∧ (capture a0 a1).sys = a1.sys ∧ (capture a0 a1).isl = a1.isl ∧
    (capture a0 a1).time = a1.time ∧ (capture a0 a1).regions = a1.regions ∧ (capture a0 a1).hubc = a1.hubc ∧
    (capture a0 a1).res = a1.res ∧ (capture a0 a1).dig = a1.dig ∧ (capture a0 a1).xs = a1.xs ∧
    (capture a0 a1).ens = a1.ens ∧ (capture a0 a1).casc = a1.casc ∧ (capture a0 a1).age = a1.age ∧
    (capture a0 a1).fab = a1.fab ∧ (capture a0 a1).sb = a1.sb ∧ (capture a0 a1).bc = a1.bc ∧
    (capture a0 a1).jobs = a1.jobs ∧ (capture a0 a1).mgt = a1.mgt ∧ (capture a0 a1).cmd = a1.cmd ∧
    (capture a0 a1).prot = a1.prot ∧ (capture a0 a1).regs = a1.regs ∧ (capture a0 a1).mem = a1.mem ∧
    (capture a0 a1).dma = a1.dma ∧ (capture a0 a1).trc = a1.trc ∧ (capture a0 a1).nid = a1.nid ∧
    (capture a0 a1).log = a1.log ∧ (capture a0 a1).boot = a1.boot ∧ (capture a0 a1).img = a1.img ∧
    (capture a0 a1).reports = a1.reports ∧ (capture a0 a1).posted = a1.posted ∧ (capture a0 a1).nvPosted = a1.nvPosted ∧
    (∀ (c : Nat), Sys2Proof.Machine.hubc (capture a0 a1) c = Sys2Proof.Machine.hubc a1 c) ∧ (∀ (c : Nat), region (capture a0 a1) c = region a1 c) ∧ (∀ (x : Word), entity (capture a0 a1) x = entity a1 x) ∧
    (nowNs (capture a0 a1) = nowNs a1 ) ∧ (imgOf (capture a0 a1) = imgOf a1 ) ∧ (serving (capture a0 a1) = serving a1 ) ∧
    (working (capture a0 a1) = working a1 ) ∧ (alive (capture a0 a1) = alive a1 ) ∧ (upState (capture a0 a1) = upState a1 ) ∧
    (portOn (capture a0 a1) = portOn a1 ) ∧ (∀ (e : Env), dieNo e (capture a0 a1) = dieNo e a1 ) ∧ (∀ (e : Env), nodeNo e (capture a0 a1) = nodeNo e a1 ) ∧
    (∀ (e : Env) (c : Nat), coreId e (capture a0 a1) c = coreId e a1 c) ∧ (∀ (e : Env) (c : Nat), unitId e (capture a0 a1) c = unitId e a1 c) ∧ (∀ (c : Nat), chan (capture a0 a1) c = chan a1 c) ∧
    (∀ (x : Word), entOk (capture a0 a1) x = entOk a1 x) ∧ (∀ (c : Nat), groupOf (capture a0 a1) c = groupOf a1 c) ∧ (∀ (c : Nat), probing (capture a0 a1) c = probing a1 c) ∧
    (∀ (e : Env) (x : Word), presentCore e (capture a0 a1) x = presentCore e a1 x) := by
  have k := (capture_only a0 a1).keep
  exact ⟨k .free (by decide), k .sys (by decide), k .isl (by decide), k .time (by decide), k .regions (by decide), k .hubc (by decide), k .res (by decide), k .dig (by decide), k .xs (by decide), k .ens (by decide), k .casc (by decide), k .age (by decide), k .fab (by decide), k .sb (by decide), k .bc (by decide), k .jobs (by decide), k .mgt (by decide), k .cmd (by decide), k .prot (by decide), k .regs (by decide), k .mem (by decide), k .dma (by decide), k .trc (by decide), k .nid (by decide), k .log (by decide), k .boot (by decide), k .img (by decide), k .reports (by decide), k .ram (by decide), k .nvm (by decide), fun c => hubc_congr (k .hubc (by decide)) c, fun c => region_congr (k .regions (by decide)) c, fun x => entity_congr (k .casc (by decide)) x, nowNs_congr (k .time (by decide)), imgOf_congr (k .img (by decide)), serving_congr (k .sys (by decide)), working_congr (k .sys (by decide)), alive_congr (k .sys (by decide)), upState_congr (k .sys (by decide)), portOn_congr (k .sys (by decide)), fun e  => dieNo_congr e (k .img (by decide)), fun e  => nodeNo_congr e (k .img (by decide)), fun e c => coreId_congr e (k .img (by decide)) c, fun e c => unitId_congr e (k .img (by decide)) c, fun c => chan_congr (k .cmd (by decide)) c, fun x => entOk_congr (k .img (by decide)) x, fun c => groupOf_congr (k .img (by decide)) (k .jobs (by decide)) c, fun c => probing_congr (k .age (by decide)) c, fun e x => presentCore_congr e (k .img (by decide)) x⟩

@[simp] theorem sendCell_reads (a0 a1 a2 a3) :
    (sendCell a0 a1 a2 a3).1.free = a3.free ∧ (sendCell a0 a1 a2 a3).1.sys = a3.sys ∧ (sendCell a0 a1 a2 a3).1.isl = a3.isl ∧
    (sendCell a0 a1 a2 a3).1.time = a3.time ∧ (sendCell a0 a1 a2 a3).1.res = a3.res ∧ (sendCell a0 a1 a2 a3).1.dig = a3.dig ∧
    (sendCell a0 a1 a2 a3).1.xs = a3.xs ∧ (sendCell a0 a1 a2 a3).1.casc = a3.casc ∧ (sendCell a0 a1 a2 a3).1.age = a3.age ∧
    (sendCell a0 a1 a2 a3).1.fab = a3.fab ∧ (sendCell a0 a1 a2 a3).1.sb = a3.sb ∧ (sendCell a0 a1 a2 a3).1.bc = a3.bc ∧
    (sendCell a0 a1 a2 a3).1.jobs = a3.jobs ∧ (sendCell a0 a1 a2 a3).1.mgt = a3.mgt ∧ (sendCell a0 a1 a2 a3).1.cmd = a3.cmd ∧
    (sendCell a0 a1 a2 a3).1.prot = a3.prot ∧ (sendCell a0 a1 a2 a3).1.dma = a3.dma ∧ (sendCell a0 a1 a2 a3).1.nid = a3.nid ∧
    (sendCell a0 a1 a2 a3).1.boot = a3.boot ∧ (sendCell a0 a1 a2 a3).1.img = a3.img ∧ (sendCell a0 a1 a2 a3).1.reports = a3.reports ∧
    (sendCell a0 a1 a2 a3).1.posted = a3.posted ∧ (sendCell a0 a1 a2 a3).1.nvPosted = a3.nvPosted ∧ (∀ (x : Word), entity (sendCell a0 a1 a2 a3).1 x = entity a3 x) ∧
    (nowNs (sendCell a0 a1 a2 a3).1 = nowNs a3 ) ∧ (imgOf (sendCell a0 a1 a2 a3).1 = imgOf a3 ) ∧ (serving (sendCell a0 a1 a2 a3).1 = serving a3 ) ∧
    (working (sendCell a0 a1 a2 a3).1 = working a3 ) ∧ (alive (sendCell a0 a1 a2 a3).1 = alive a3 ) ∧ (upState (sendCell a0 a1 a2 a3).1 = upState a3 ) ∧
    (portOn (sendCell a0 a1 a2 a3).1 = portOn a3 ) ∧ (∀ (e : Env), dieNo e (sendCell a0 a1 a2 a3).1 = dieNo e a3 ) ∧ (∀ (e : Env), nodeNo e (sendCell a0 a1 a2 a3).1 = nodeNo e a3 ) ∧
    (∀ (e : Env) (c : Nat), coreId e (sendCell a0 a1 a2 a3).1 c = coreId e a3 c) ∧ (∀ (e : Env) (c : Nat), unitId e (sendCell a0 a1 a2 a3).1 c = unitId e a3 c) ∧ (∀ (c : Nat), chan (sendCell a0 a1 a2 a3).1 c = chan a3 c) ∧
    (∀ (x : Word), entOk (sendCell a0 a1 a2 a3).1 x = entOk a3 x) ∧ (∀ (c : Nat), groupOf (sendCell a0 a1 a2 a3).1 c = groupOf a3 c) ∧ (∀ (c : Nat), probing (sendCell a0 a1 a2 a3).1 c = probing a3 c) ∧
    (∀ (e : Env) (x : Word), presentCore e (sendCell a0 a1 a2 a3).1 x = presentCore e a3 x) := by
  have k := (sendCell_only a0 a1 a2 a3).keep
  exact ⟨k .free (by decide), k .sys (by decide), k .isl (by decide), k .time (by decide), k .res (by decide), k .dig (by decide), k .xs (by decide), k .casc (by decide), k .age (by decide), k .fab (by decide), k .sb (by decide), k .bc (by decide), k .jobs (by decide), k .mgt (by decide), k .cmd (by decide), k .prot (by decide), k .dma (by decide), k .nid (by decide), k .boot (by decide), k .img (by decide), k .reports (by decide), k .ram (by decide), k .nvm (by decide), fun x => entity_congr (k .casc (by decide)) x, nowNs_congr (k .time (by decide)), imgOf_congr (k .img (by decide)), serving_congr (k .sys (by decide)), working_congr (k .sys (by decide)), alive_congr (k .sys (by decide)), upState_congr (k .sys (by decide)), portOn_congr (k .sys (by decide)), fun e  => dieNo_congr e (k .img (by decide)), fun e  => nodeNo_congr e (k .img (by decide)), fun e c => coreId_congr e (k .img (by decide)) c, fun e c => unitId_congr e (k .img (by decide)) c, fun c => chan_congr (k .cmd (by decide)) c, fun x => entOk_congr (k .img (by decide)) x, fun c => groupOf_congr (k .img (by decide)) (k .jobs (by decide)) c, fun c => probing_congr (k .age (by decide)) c, fun e x => presentCore_congr e (k .img (by decide)) x⟩

@[simp] theorem applyWait_reads (a0 a1 a2 a3) :
    (applyWait a0 a1 a2 a3).free = a3.free ∧ (applyWait a0 a1 a2 a3).sys = a3.sys ∧ (applyWait a0 a1 a2 a3).isl = a3.isl ∧
    (applyWait a0 a1 a2 a3).time = a3.time ∧ (applyWait a0 a1 a2 a3).regions = a3.regions ∧ (applyWait a0 a1 a2 a3).res = a3.res ∧
    (applyWait a0 a1 a2 a3).dig = a3.dig ∧ (applyWait a0 a1 a2 a3).xs = a3.xs ∧ (applyWait a0 a1 a2 a3).casc = a3.casc ∧
    (applyWait a0 a1 a2 a3).age = a3.age ∧ (applyWait a0 a1 a2 a3).fab = a3.fab ∧ (applyWait a0 a1 a2 a3).sb = a3.sb ∧
    (applyWait a0 a1 a2 a3).bc = a3.bc ∧ (applyWait a0 a1 a2 a3).jobs = a3.jobs ∧ (applyWait a0 a1 a2 a3).mgt = a3.mgt ∧
    (applyWait a0 a1 a2 a3).cmd = a3.cmd ∧ (applyWait a0 a1 a2 a3).prot = a3.prot ∧ (applyWait a0 a1 a2 a3).dma = a3.dma ∧
    (applyWait a0 a1 a2 a3).nid = a3.nid ∧ (applyWait a0 a1 a2 a3).boot = a3.boot ∧ (applyWait a0 a1 a2 a3).img = a3.img ∧
    (applyWait a0 a1 a2 a3).reports = a3.reports ∧ (applyWait a0 a1 a2 a3).posted = a3.posted ∧ (applyWait a0 a1 a2 a3).nvPosted = a3.nvPosted ∧
    (∀ (c : Nat), region (applyWait a0 a1 a2 a3) c = region a3 c) ∧ (∀ (x : Word), entity (applyWait a0 a1 a2 a3) x = entity a3 x) ∧ (nowNs (applyWait a0 a1 a2 a3) = nowNs a3 ) ∧
    (imgOf (applyWait a0 a1 a2 a3) = imgOf a3 ) ∧ (serving (applyWait a0 a1 a2 a3) = serving a3 ) ∧ (working (applyWait a0 a1 a2 a3) = working a3 ) ∧
    (alive (applyWait a0 a1 a2 a3) = alive a3 ) ∧ (upState (applyWait a0 a1 a2 a3) = upState a3 ) ∧ (portOn (applyWait a0 a1 a2 a3) = portOn a3 ) ∧
    (∀ (e : Env), dieNo e (applyWait a0 a1 a2 a3) = dieNo e a3 ) ∧ (∀ (e : Env), nodeNo e (applyWait a0 a1 a2 a3) = nodeNo e a3 ) ∧ (∀ (e : Env) (c : Nat), coreId e (applyWait a0 a1 a2 a3) c = coreId e a3 c) ∧
    (∀ (e : Env) (c : Nat), unitId e (applyWait a0 a1 a2 a3) c = unitId e a3 c) ∧ (∀ (c : Nat), chan (applyWait a0 a1 a2 a3) c = chan a3 c) ∧ (∀ (x : Word), entOk (applyWait a0 a1 a2 a3) x = entOk a3 x) ∧
    (∀ (c : Nat), groupOf (applyWait a0 a1 a2 a3) c = groupOf a3 c) ∧ (∀ (c : Nat), probing (applyWait a0 a1 a2 a3) c = probing a3 c) ∧ (∀ (e : Env) (x : Word), presentCore e (applyWait a0 a1 a2 a3) x = presentCore e a3 x) := by
  have k := (applyWait_only a0 a1 a2 a3).keep
  exact ⟨k .free (by decide), k .sys (by decide), k .isl (by decide), k .time (by decide), k .regions (by decide), k .res (by decide), k .dig (by decide), k .xs (by decide), k .casc (by decide), k .age (by decide), k .fab (by decide), k .sb (by decide), k .bc (by decide), k .jobs (by decide), k .mgt (by decide), k .cmd (by decide), k .prot (by decide), k .dma (by decide), k .nid (by decide), k .boot (by decide), k .img (by decide), k .reports (by decide), k .ram (by decide), k .nvm (by decide), fun c => region_congr (k .regions (by decide)) c, fun x => entity_congr (k .casc (by decide)) x, nowNs_congr (k .time (by decide)), imgOf_congr (k .img (by decide)), serving_congr (k .sys (by decide)), working_congr (k .sys (by decide)), alive_congr (k .sys (by decide)), upState_congr (k .sys (by decide)), portOn_congr (k .sys (by decide)), fun e  => dieNo_congr e (k .img (by decide)), fun e  => nodeNo_congr e (k .img (by decide)), fun e c => coreId_congr e (k .img (by decide)) c, fun e c => unitId_congr e (k .img (by decide)) c, fun c => chan_congr (k .cmd (by decide)) c, fun x => entOk_congr (k .img (by decide)) x, fun c => groupOf_congr (k .img (by decide)) (k .jobs (by decide)) c, fun c => probing_congr (k .age (by decide)) c, fun e x => presentCore_congr e (k .img (by decide)) x⟩

@[simp] theorem setSels_reads (a0 a1 a2) :
    (setSels a0 a1 a2).free = a2.free ∧ (setSels a0 a1 a2).sys = a2.sys ∧ (setSels a0 a1 a2).isl = a2.isl ∧
    (setSels a0 a1 a2).time = a2.time ∧ (setSels a0 a1 a2).regions = a2.regions ∧ (setSels a0 a1 a2).cells = a2.cells ∧
    (setSels a0 a1 a2).res = a2.res ∧ (setSels a0 a1 a2).dig = a2.dig ∧ (setSels a0 a1 a2).xs = a2.xs ∧
    (setSels a0 a1 a2).ens = a2.ens ∧ (setSels a0 a1 a2).casc = a2.casc ∧ (setSels a0 a1 a2).age = a2.age ∧
    (setSels a0 a1 a2).fab = a2.fab ∧ (setSels a0 a1 a2).sb = a2.sb ∧ (setSels a0 a1 a2).bc = a2.bc ∧
    (setSels a0 a1 a2).jobs = a2.jobs ∧ (setSels a0 a1 a2).mgt = a2.mgt ∧ (setSels a0 a1 a2).cmd = a2.cmd ∧
    (setSels a0 a1 a2).prot = a2.prot ∧ (setSels a0 a1 a2).regs = a2.regs ∧ (setSels a0 a1 a2).mem = a2.mem ∧
    (setSels a0 a1 a2).dma = a2.dma ∧ (setSels a0 a1 a2).trc = a2.trc ∧ (setSels a0 a1 a2).nid = a2.nid ∧
    (setSels a0 a1 a2).log = a2.log ∧ (setSels a0 a1 a2).boot = a2.boot ∧ (setSels a0 a1 a2).img = a2.img ∧
    (setSels a0 a1 a2).reports = a2.reports ∧ (setSels a0 a1 a2).posted = a2.posted ∧ (setSels a0 a1 a2).nvPosted = a2.nvPosted ∧
    (∀ (c : Nat), cell (setSels a0 a1 a2) c = cell a2 c) ∧ (∀ (c : Nat), region (setSels a0 a1 a2) c = region a2 c) ∧ (∀ (x : Word), entity (setSels a0 a1 a2) x = entity a2 x) ∧
    (nowNs (setSels a0 a1 a2) = nowNs a2 ) ∧ (imgOf (setSels a0 a1 a2) = imgOf a2 ) ∧ (serving (setSels a0 a1 a2) = serving a2 ) ∧
    (working (setSels a0 a1 a2) = working a2 ) ∧ (alive (setSels a0 a1 a2) = alive a2 ) ∧ (upState (setSels a0 a1 a2) = upState a2 ) ∧
    (portOn (setSels a0 a1 a2) = portOn a2 ) ∧ (∀ (e : Env), dieNo e (setSels a0 a1 a2) = dieNo e a2 ) ∧ (∀ (e : Env), nodeNo e (setSels a0 a1 a2) = nodeNo e a2 ) ∧
    (∀ (e : Env) (c : Nat), coreId e (setSels a0 a1 a2) c = coreId e a2 c) ∧ (∀ (e : Env) (c : Nat), unitId e (setSels a0 a1 a2) c = unitId e a2 c) ∧ (∀ (c : Nat), chan (setSels a0 a1 a2) c = chan a2 c) ∧
    (∀ (x : Word), entOk (setSels a0 a1 a2) x = entOk a2 x) ∧ (∀ (c : Nat), groupOf (setSels a0 a1 a2) c = groupOf a2 c) ∧ (∀ (c : Nat), probing (setSels a0 a1 a2) c = probing a2 c) ∧
    (∀ (e : Env) (x : Word), presentCore e (setSels a0 a1 a2) x = presentCore e a2 x) := by
  have k := (setSels_only a0 a1 a2).keep
  exact ⟨k .free (by decide), k .sys (by decide), k .isl (by decide), k .time (by decide), k .regions (by decide), k .cells (by decide), k .res (by decide), k .dig (by decide), k .xs (by decide), k .ens (by decide), k .casc (by decide), k .age (by decide), k .fab (by decide), k .sb (by decide), k .bc (by decide), k .jobs (by decide), k .mgt (by decide), k .cmd (by decide), k .prot (by decide), k .regs (by decide), k .mem (by decide), k .dma (by decide), k .trc (by decide), k .nid (by decide), k .log (by decide), k .boot (by decide), k .img (by decide), k .reports (by decide), k .ram (by decide), k .nvm (by decide), fun c => cell_congr (k .cells (by decide)) c, fun c => region_congr (k .regions (by decide)) c, fun x => entity_congr (k .casc (by decide)) x, nowNs_congr (k .time (by decide)), imgOf_congr (k .img (by decide)), serving_congr (k .sys (by decide)), working_congr (k .sys (by decide)), alive_congr (k .sys (by decide)), upState_congr (k .sys (by decide)), portOn_congr (k .sys (by decide)), fun e  => dieNo_congr e (k .img (by decide)), fun e  => nodeNo_congr e (k .img (by decide)), fun e c => coreId_congr e (k .img (by decide)) c, fun e c => unitId_congr e (k .img (by decide)) c, fun c => chan_congr (k .cmd (by decide)) c, fun x => entOk_congr (k .img (by decide)) x, fun c => groupOf_congr (k .img (by decide)) (k .jobs (by decide)) c, fun c => probing_congr (k .age (by decide)) c, fun e x => presentCore_congr e (k .img (by decide)) x⟩

@[simp] theorem clearFlags_reads (a0 a1 a2 a3) :
    (clearFlags a0 a1 a2 a3).free = a3.free ∧ (clearFlags a0 a1 a2 a3).sys = a3.sys ∧ (clearFlags a0 a1 a2 a3).isl = a3.isl ∧
    (clearFlags a0 a1 a2 a3).time = a3.time ∧ (clearFlags a0 a1 a2 a3).regions = a3.regions ∧ (clearFlags a0 a1 a2 a3).res = a3.res ∧
    (clearFlags a0 a1 a2 a3).dig = a3.dig ∧ (clearFlags a0 a1 a2 a3).xs = a3.xs ∧ (clearFlags a0 a1 a2 a3).casc = a3.casc ∧
    (clearFlags a0 a1 a2 a3).age = a3.age ∧ (clearFlags a0 a1 a2 a3).fab = a3.fab ∧ (clearFlags a0 a1 a2 a3).sb = a3.sb ∧
    (clearFlags a0 a1 a2 a3).bc = a3.bc ∧ (clearFlags a0 a1 a2 a3).jobs = a3.jobs ∧ (clearFlags a0 a1 a2 a3).mgt = a3.mgt ∧
    (clearFlags a0 a1 a2 a3).cmd = a3.cmd ∧ (clearFlags a0 a1 a2 a3).prot = a3.prot ∧ (clearFlags a0 a1 a2 a3).dma = a3.dma ∧
    (clearFlags a0 a1 a2 a3).trc = a3.trc ∧ (clearFlags a0 a1 a2 a3).nid = a3.nid ∧ (clearFlags a0 a1 a2 a3).boot = a3.boot ∧
    (clearFlags a0 a1 a2 a3).img = a3.img ∧ (clearFlags a0 a1 a2 a3).reports = a3.reports ∧ (clearFlags a0 a1 a2 a3).posted = a3.posted ∧
    (clearFlags a0 a1 a2 a3).nvPosted = a3.nvPosted ∧ (∀ (c : Nat), region (clearFlags a0 a1 a2 a3) c = region a3 c) ∧ (∀ (x : Word), entity (clearFlags a0 a1 a2 a3) x = entity a3 x) ∧
    (nowNs (clearFlags a0 a1 a2 a3) = nowNs a3 ) ∧ (imgOf (clearFlags a0 a1 a2 a3) = imgOf a3 ) ∧ (serving (clearFlags a0 a1 a2 a3) = serving a3 ) ∧
    (working (clearFlags a0 a1 a2 a3) = working a3 ) ∧ (alive (clearFlags a0 a1 a2 a3) = alive a3 ) ∧ (upState (clearFlags a0 a1 a2 a3) = upState a3 ) ∧
    (portOn (clearFlags a0 a1 a2 a3) = portOn a3 ) ∧ (∀ (e : Env), dieNo e (clearFlags a0 a1 a2 a3) = dieNo e a3 ) ∧ (∀ (e : Env), nodeNo e (clearFlags a0 a1 a2 a3) = nodeNo e a3 ) ∧
    (∀ (e : Env) (c : Nat), coreId e (clearFlags a0 a1 a2 a3) c = coreId e a3 c) ∧ (∀ (e : Env) (c : Nat), unitId e (clearFlags a0 a1 a2 a3) c = unitId e a3 c) ∧ (∀ (c : Nat), chan (clearFlags a0 a1 a2 a3) c = chan a3 c) ∧
    (∀ (x : Word), entOk (clearFlags a0 a1 a2 a3) x = entOk a3 x) ∧ (∀ (c : Nat), groupOf (clearFlags a0 a1 a2 a3) c = groupOf a3 c) ∧ (∀ (c : Nat), probing (clearFlags a0 a1 a2 a3) c = probing a3 c) ∧
    (∀ (e : Env) (x : Word), presentCore e (clearFlags a0 a1 a2 a3) x = presentCore e a3 x) := by
  have k := (clearFlags_only a0 a1 a2 a3).keep
  exact ⟨k .free (by decide), k .sys (by decide), k .isl (by decide), k .time (by decide), k .regions (by decide), k .res (by decide), k .dig (by decide), k .xs (by decide), k .casc (by decide), k .age (by decide), k .fab (by decide), k .sb (by decide), k .bc (by decide), k .jobs (by decide), k .mgt (by decide), k .cmd (by decide), k .prot (by decide), k .dma (by decide), k .trc (by decide), k .nid (by decide), k .boot (by decide), k .img (by decide), k .reports (by decide), k .ram (by decide), k .nvm (by decide), fun c => region_congr (k .regions (by decide)) c, fun x => entity_congr (k .casc (by decide)) x, nowNs_congr (k .time (by decide)), imgOf_congr (k .img (by decide)), serving_congr (k .sys (by decide)), working_congr (k .sys (by decide)), alive_congr (k .sys (by decide)), upState_congr (k .sys (by decide)), portOn_congr (k .sys (by decide)), fun e  => dieNo_congr e (k .img (by decide)), fun e  => nodeNo_congr e (k .img (by decide)), fun e c => coreId_congr e (k .img (by decide)) c, fun e c => unitId_congr e (k .img (by decide)) c, fun c => chan_congr (k .cmd (by decide)) c, fun x => entOk_congr (k .img (by decide)) x, fun c => groupOf_congr (k .img (by decide)) (k .jobs (by decide)) c, fun c => probing_congr (k .age (by decide)) c, fun e x => presentCore_congr e (k .img (by decide)) x⟩

@[simp] theorem applyWatch_reads (a0 a1) :
    (applyWatch a0 a1).free = a1.free ∧ (applyWatch a0 a1).sys = a1.sys ∧ (applyWatch a0 a1).isl = a1.isl ∧
    (applyWatch a0 a1).time = a1.time ∧ (applyWatch a0 a1).regions = a1.regions ∧ (applyWatch a0 a1).hubc = a1.hubc ∧
    (applyWatch a0 a1).res = a1.res ∧ (applyWatch a0 a1).dig = a1.dig ∧ (applyWatch a0 a1).xs = a1.xs ∧
    (applyWatch a0 a1).ens = a1.ens ∧ (applyWatch a0 a1).casc = a1.casc ∧ (applyWatch a0 a1).age = a1.age ∧
    (applyWatch a0 a1).fab = a1.fab ∧ (applyWatch a0 a1).sb = a1.sb ∧ (applyWatch a0 a1).bc = a1.bc ∧
    (applyWatch a0 a1).jobs = a1.jobs ∧ (applyWatch a0 a1).mgt = a1.mgt ∧ (applyWatch a0 a1).cmd = a1.cmd ∧
    (applyWatch a0 a1).prot = a1.prot ∧ (applyWatch a0 a1).regs = a1.regs ∧ (applyWatch a0 a1).mem = a1.mem ∧
    (applyWatch a0 a1).dma = a1.dma ∧ (applyWatch a0 a1).trc = a1.trc ∧ (applyWatch a0 a1).nid = a1.nid ∧
    (applyWatch a0 a1).log = a1.log ∧ (applyWatch a0 a1).boot = a1.boot ∧ (applyWatch a0 a1).img = a1.img ∧
    (applyWatch a0 a1).reports = a1.reports ∧ (applyWatch a0 a1).posted = a1.posted ∧ (applyWatch a0 a1).nvPosted = a1.nvPosted ∧
    (∀ (c : Nat), Sys2Proof.Machine.hubc (applyWatch a0 a1) c = Sys2Proof.Machine.hubc a1 c) ∧ (∀ (c : Nat), region (applyWatch a0 a1) c = region a1 c) ∧ (∀ (x : Word), entity (applyWatch a0 a1) x = entity a1 x) ∧
    (nowNs (applyWatch a0 a1) = nowNs a1 ) ∧ (imgOf (applyWatch a0 a1) = imgOf a1 ) ∧ (serving (applyWatch a0 a1) = serving a1 ) ∧
    (working (applyWatch a0 a1) = working a1 ) ∧ (alive (applyWatch a0 a1) = alive a1 ) ∧ (upState (applyWatch a0 a1) = upState a1 ) ∧
    (portOn (applyWatch a0 a1) = portOn a1 ) ∧ (∀ (e : Env), dieNo e (applyWatch a0 a1) = dieNo e a1 ) ∧ (∀ (e : Env), nodeNo e (applyWatch a0 a1) = nodeNo e a1 ) ∧
    (∀ (e : Env) (c : Nat), coreId e (applyWatch a0 a1) c = coreId e a1 c) ∧ (∀ (e : Env) (c : Nat), unitId e (applyWatch a0 a1) c = unitId e a1 c) ∧ (∀ (c : Nat), chan (applyWatch a0 a1) c = chan a1 c) ∧
    (∀ (x : Word), entOk (applyWatch a0 a1) x = entOk a1 x) ∧ (∀ (c : Nat), groupOf (applyWatch a0 a1) c = groupOf a1 c) ∧ (∀ (c : Nat), probing (applyWatch a0 a1) c = probing a1 c) ∧
    (∀ (e : Env) (x : Word), presentCore e (applyWatch a0 a1) x = presentCore e a1 x) := by
  have k := (applyWatch_only a0 a1).keep
  exact ⟨k .free (by decide), k .sys (by decide), k .isl (by decide), k .time (by decide), k .regions (by decide), k .hubc (by decide), k .res (by decide), k .dig (by decide), k .xs (by decide), k .ens (by decide), k .casc (by decide), k .age (by decide), k .fab (by decide), k .sb (by decide), k .bc (by decide), k .jobs (by decide), k .mgt (by decide), k .cmd (by decide), k .prot (by decide), k .regs (by decide), k .mem (by decide), k .dma (by decide), k .trc (by decide), k .nid (by decide), k .log (by decide), k .boot (by decide), k .img (by decide), k .reports (by decide), k .ram (by decide), k .nvm (by decide), fun c => hubc_congr (k .hubc (by decide)) c, fun c => region_congr (k .regions (by decide)) c, fun x => entity_congr (k .casc (by decide)) x, nowNs_congr (k .time (by decide)), imgOf_congr (k .img (by decide)), serving_congr (k .sys (by decide)), working_congr (k .sys (by decide)), alive_congr (k .sys (by decide)), upState_congr (k .sys (by decide)), portOn_congr (k .sys (by decide)), fun e  => dieNo_congr e (k .img (by decide)), fun e  => nodeNo_congr e (k .img (by decide)), fun e c => coreId_congr e (k .img (by decide)) c, fun e c => unitId_congr e (k .img (by decide)) c, fun c => chan_congr (k .cmd (by decide)) c, fun x => entOk_congr (k .img (by decide)) x, fun c => groupOf_congr (k .img (by decide)) (k .jobs (by decide)) c, fun c => probing_congr (k .age (by decide)) c, fun e x => presentCore_congr e (k .img (by decide)) x⟩

@[simp] theorem applyRule_reads (a0 a1 a2 a3) :
    (applyRule a0 a1 a2 a3).free = a3.free ∧ (applyRule a0 a1 a2 a3).sys = a3.sys ∧ (applyRule a0 a1 a2 a3).isl = a3.isl ∧
    (applyRule a0 a1 a2 a3).time = a3.time ∧ (applyRule a0 a1 a2 a3).regions = a3.regions ∧ (applyRule a0 a1 a2 a3).res = a3.res ∧
    (applyRule a0 a1 a2 a3).dig = a3.dig ∧ (applyRule a0 a1 a2 a3).xs = a3.xs ∧ (applyRule a0 a1 a2 a3).casc = a3.casc ∧
    (applyRule a0 a1 a2 a3).age = a3.age ∧ (applyRule a0 a1 a2 a3).fab = a3.fab ∧ (applyRule a0 a1 a2 a3).sb = a3.sb ∧
    (applyRule a0 a1 a2 a3).bc = a3.bc ∧ (applyRule a0 a1 a2 a3).jobs = a3.jobs ∧ (applyRule a0 a1 a2 a3).mgt = a3.mgt ∧
    (applyRule a0 a1 a2 a3).cmd = a3.cmd ∧ (applyRule a0 a1 a2 a3).prot = a3.prot ∧ (applyRule a0 a1 a2 a3).dma = a3.dma ∧
    (applyRule a0 a1 a2 a3).trc = a3.trc ∧ (applyRule a0 a1 a2 a3).nid = a3.nid ∧ (applyRule a0 a1 a2 a3).boot = a3.boot ∧
    (applyRule a0 a1 a2 a3).img = a3.img ∧ (applyRule a0 a1 a2 a3).reports = a3.reports ∧ (applyRule a0 a1 a2 a3).posted = a3.posted ∧
    (applyRule a0 a1 a2 a3).nvPosted = a3.nvPosted ∧ (∀ (c : Nat), region (applyRule a0 a1 a2 a3) c = region a3 c) ∧ (∀ (x : Word), entity (applyRule a0 a1 a2 a3) x = entity a3 x) ∧
    (nowNs (applyRule a0 a1 a2 a3) = nowNs a3 ) ∧ (imgOf (applyRule a0 a1 a2 a3) = imgOf a3 ) ∧ (serving (applyRule a0 a1 a2 a3) = serving a3 ) ∧
    (working (applyRule a0 a1 a2 a3) = working a3 ) ∧ (alive (applyRule a0 a1 a2 a3) = alive a3 ) ∧ (upState (applyRule a0 a1 a2 a3) = upState a3 ) ∧
    (portOn (applyRule a0 a1 a2 a3) = portOn a3 ) ∧ (∀ (e : Env), dieNo e (applyRule a0 a1 a2 a3) = dieNo e a3 ) ∧ (∀ (e : Env), nodeNo e (applyRule a0 a1 a2 a3) = nodeNo e a3 ) ∧
    (∀ (e : Env) (c : Nat), coreId e (applyRule a0 a1 a2 a3) c = coreId e a3 c) ∧ (∀ (e : Env) (c : Nat), unitId e (applyRule a0 a1 a2 a3) c = unitId e a3 c) ∧ (∀ (c : Nat), chan (applyRule a0 a1 a2 a3) c = chan a3 c) ∧
    (∀ (x : Word), entOk (applyRule a0 a1 a2 a3) x = entOk a3 x) ∧ (∀ (c : Nat), groupOf (applyRule a0 a1 a2 a3) c = groupOf a3 c) ∧ (∀ (c : Nat), probing (applyRule a0 a1 a2 a3) c = probing a3 c) ∧
    (∀ (e : Env) (x : Word), presentCore e (applyRule a0 a1 a2 a3) x = presentCore e a3 x) := by
  have k := (applyRule_only a0 a1 a2 a3).keep
  exact ⟨k .free (by decide), k .sys (by decide), k .isl (by decide), k .time (by decide), k .regions (by decide), k .res (by decide), k .dig (by decide), k .xs (by decide), k .casc (by decide), k .age (by decide), k .fab (by decide), k .sb (by decide), k .bc (by decide), k .jobs (by decide), k .mgt (by decide), k .cmd (by decide), k .prot (by decide), k .dma (by decide), k .trc (by decide), k .nid (by decide), k .boot (by decide), k .img (by decide), k .reports (by decide), k .ram (by decide), k .nvm (by decide), fun c => region_congr (k .regions (by decide)) c, fun x => entity_congr (k .casc (by decide)) x, nowNs_congr (k .time (by decide)), imgOf_congr (k .img (by decide)), serving_congr (k .sys (by decide)), working_congr (k .sys (by decide)), alive_congr (k .sys (by decide)), upState_congr (k .sys (by decide)), portOn_congr (k .sys (by decide)), fun e  => dieNo_congr e (k .img (by decide)), fun e  => nodeNo_congr e (k .img (by decide)), fun e c => coreId_congr e (k .img (by decide)) c, fun e c => unitId_congr e (k .img (by decide)) c, fun c => chan_congr (k .cmd (by decide)) c, fun x => entOk_congr (k .img (by decide)) x, fun c => groupOf_congr (k .img (by decide)) (k .jobs (by decide)) c, fun c => probing_congr (k .age (by decide)) c, fun e x => presentCore_congr e (k .img (by decide)) x⟩

@[simp] theorem resetCell_reads (a0 a1) :
    (resetCell a0 a1).free = a1.free ∧ (resetCell a0 a1).sys = a1.sys ∧ (resetCell a0 a1).isl = a1.isl ∧
    (resetCell a0 a1).time = a1.time ∧ (resetCell a0 a1).regions = a1.regions ∧ (resetCell a0 a1).res = a1.res ∧
    (resetCell a0 a1).dig = a1.dig ∧ (resetCell a0 a1).xs = a1.xs ∧ (resetCell a0 a1).ens = a1.ens ∧
    (resetCell a0 a1).casc = a1.casc ∧ (resetCell a0 a1).age = a1.age ∧ (resetCell a0 a1).fab = a1.fab ∧
    (resetCell a0 a1).sb = a1.sb ∧ (resetCell a0 a1).bc = a1.bc ∧ (resetCell a0 a1).jobs = a1.jobs ∧
    (resetCell a0 a1).mgt = a1.mgt ∧ (resetCell a0 a1).cmd = a1.cmd ∧ (resetCell a0 a1).prot = a1.prot ∧
    (resetCell a0 a1).regs = a1.regs ∧ (resetCell a0 a1).mem = a1.mem ∧ (resetCell a0 a1).dma = a1.dma ∧
    (resetCell a0 a1).trc = a1.trc ∧ (resetCell a0 a1).nid = a1.nid ∧ (resetCell a0 a1).log = a1.log ∧
    (resetCell a0 a1).boot = a1.boot ∧ (resetCell a0 a1).img = a1.img ∧ (resetCell a0 a1).reports = a1.reports ∧
    (resetCell a0 a1).posted = a1.posted ∧ (resetCell a0 a1).nvPosted = a1.nvPosted ∧ (∀ (c : Nat), region (resetCell a0 a1) c = region a1 c) ∧
    (∀ (x : Word), entity (resetCell a0 a1) x = entity a1 x) ∧ (nowNs (resetCell a0 a1) = nowNs a1 ) ∧ (imgOf (resetCell a0 a1) = imgOf a1 ) ∧
    (serving (resetCell a0 a1) = serving a1 ) ∧ (working (resetCell a0 a1) = working a1 ) ∧ (alive (resetCell a0 a1) = alive a1 ) ∧
    (upState (resetCell a0 a1) = upState a1 ) ∧ (portOn (resetCell a0 a1) = portOn a1 ) ∧ (∀ (e : Env), dieNo e (resetCell a0 a1) = dieNo e a1 ) ∧
    (∀ (e : Env), nodeNo e (resetCell a0 a1) = nodeNo e a1 ) ∧ (∀ (e : Env) (c : Nat), coreId e (resetCell a0 a1) c = coreId e a1 c) ∧ (∀ (e : Env) (c : Nat), unitId e (resetCell a0 a1) c = unitId e a1 c) ∧
    (∀ (c : Nat), chan (resetCell a0 a1) c = chan a1 c) ∧ (∀ (x : Word), entOk (resetCell a0 a1) x = entOk a1 x) ∧ (∀ (c : Nat), groupOf (resetCell a0 a1) c = groupOf a1 c) ∧
    (∀ (c : Nat), probing (resetCell a0 a1) c = probing a1 c) ∧ (∀ (e : Env) (x : Word), presentCore e (resetCell a0 a1) x = presentCore e a1 x) := by
  have k := (resetCell_only a0 a1).keep
  exact ⟨k .free (by decide), k .sys (by decide), k .isl (by decide), k .time (by decide), k .regions (by decide), k .res (by decide), k .dig (by decide), k .xs (by decide), k .ens (by decide), k .casc (by decide), k .age (by decide), k .fab (by decide), k .sb (by decide), k .bc (by decide), k .jobs (by decide), k .mgt (by decide), k .cmd (by decide), k .prot (by decide), k .regs (by decide), k .mem (by decide), k .dma (by decide), k .trc (by decide), k .nid (by decide), k .log (by decide), k .boot (by decide), k .img (by decide), k .reports (by decide), k .ram (by decide), k .nvm (by decide), fun c => region_congr (k .regions (by decide)) c, fun x => entity_congr (k .casc (by decide)) x, nowNs_congr (k .time (by decide)), imgOf_congr (k .img (by decide)), serving_congr (k .sys (by decide)), working_congr (k .sys (by decide)), alive_congr (k .sys (by decide)), upState_congr (k .sys (by decide)), portOn_congr (k .sys (by decide)), fun e  => dieNo_congr e (k .img (by decide)), fun e  => nodeNo_congr e (k .img (by decide)), fun e c => coreId_congr e (k .img (by decide)) c, fun e c => unitId_congr e (k .img (by decide)) c, fun c => chan_congr (k .cmd (by decide)) c, fun x => entOk_congr (k .img (by decide)) x, fun c => groupOf_congr (k .img (by decide)) (k .jobs (by decide)) c, fun c => probing_congr (k .age (by decide)) c, fun e x => presentCore_congr e (k .img (by decide)) x⟩

@[simp] theorem rewriteCell_reads (a0 a1) :
    (rewriteCell a0 a1).free = a1.free ∧ (rewriteCell a0 a1).sys = a1.sys ∧ (rewriteCell a0 a1).isl = a1.isl ∧
    (rewriteCell a0 a1).time = a1.time ∧ (rewriteCell a0 a1).regions = a1.regions ∧ (rewriteCell a0 a1).hubc = a1.hubc ∧
    (rewriteCell a0 a1).res = a1.res ∧ (rewriteCell a0 a1).dig = a1.dig ∧ (rewriteCell a0 a1).xs = a1.xs ∧
    (rewriteCell a0 a1).ens = a1.ens ∧ (rewriteCell a0 a1).casc = a1.casc ∧ (rewriteCell a0 a1).age = a1.age ∧
    (rewriteCell a0 a1).fab = a1.fab ∧ (rewriteCell a0 a1).sb = a1.sb ∧ (rewriteCell a0 a1).bc = a1.bc ∧
    (rewriteCell a0 a1).jobs = a1.jobs ∧ (rewriteCell a0 a1).mgt = a1.mgt ∧ (rewriteCell a0 a1).cmd = a1.cmd ∧
    (rewriteCell a0 a1).prot = a1.prot ∧ (rewriteCell a0 a1).regs = a1.regs ∧ (rewriteCell a0 a1).mem = a1.mem ∧
    (rewriteCell a0 a1).dma = a1.dma ∧ (rewriteCell a0 a1).trc = a1.trc ∧ (rewriteCell a0 a1).nid = a1.nid ∧
    (rewriteCell a0 a1).log = a1.log ∧ (rewriteCell a0 a1).boot = a1.boot ∧ (rewriteCell a0 a1).img = a1.img ∧
    (rewriteCell a0 a1).reports = a1.reports ∧ (rewriteCell a0 a1).posted = a1.posted ∧ (rewriteCell a0 a1).nvPosted = a1.nvPosted ∧
    (∀ (c : Nat), Sys2Proof.Machine.hubc (rewriteCell a0 a1) c = Sys2Proof.Machine.hubc a1 c) ∧ (∀ (c : Nat), region (rewriteCell a0 a1) c = region a1 c) ∧ (∀ (x : Word), entity (rewriteCell a0 a1) x = entity a1 x) ∧
    (nowNs (rewriteCell a0 a1) = nowNs a1 ) ∧ (imgOf (rewriteCell a0 a1) = imgOf a1 ) ∧ (serving (rewriteCell a0 a1) = serving a1 ) ∧
    (working (rewriteCell a0 a1) = working a1 ) ∧ (alive (rewriteCell a0 a1) = alive a1 ) ∧ (upState (rewriteCell a0 a1) = upState a1 ) ∧
    (portOn (rewriteCell a0 a1) = portOn a1 ) ∧ (∀ (e : Env), dieNo e (rewriteCell a0 a1) = dieNo e a1 ) ∧ (∀ (e : Env), nodeNo e (rewriteCell a0 a1) = nodeNo e a1 ) ∧
    (∀ (e : Env) (c : Nat), coreId e (rewriteCell a0 a1) c = coreId e a1 c) ∧ (∀ (e : Env) (c : Nat), unitId e (rewriteCell a0 a1) c = unitId e a1 c) ∧ (∀ (c : Nat), chan (rewriteCell a0 a1) c = chan a1 c) ∧
    (∀ (x : Word), entOk (rewriteCell a0 a1) x = entOk a1 x) ∧ (∀ (c : Nat), groupOf (rewriteCell a0 a1) c = groupOf a1 c) ∧ (∀ (c : Nat), probing (rewriteCell a0 a1) c = probing a1 c) ∧
    (∀ (e : Env) (x : Word), presentCore e (rewriteCell a0 a1) x = presentCore e a1 x) := by
  have k := (rewriteCell_only a0 a1).keep
  exact ⟨k .free (by decide), k .sys (by decide), k .isl (by decide), k .time (by decide), k .regions (by decide), k .hubc (by decide), k .res (by decide), k .dig (by decide), k .xs (by decide), k .ens (by decide), k .casc (by decide), k .age (by decide), k .fab (by decide), k .sb (by decide), k .bc (by decide), k .jobs (by decide), k .mgt (by decide), k .cmd (by decide), k .prot (by decide), k .regs (by decide), k .mem (by decide), k .dma (by decide), k .trc (by decide), k .nid (by decide), k .log (by decide), k .boot (by decide), k .img (by decide), k .reports (by decide), k .ram (by decide), k .nvm (by decide), fun c => hubc_congr (k .hubc (by decide)) c, fun c => region_congr (k .regions (by decide)) c, fun x => entity_congr (k .casc (by decide)) x, nowNs_congr (k .time (by decide)), imgOf_congr (k .img (by decide)), serving_congr (k .sys (by decide)), working_congr (k .sys (by decide)), alive_congr (k .sys (by decide)), upState_congr (k .sys (by decide)), portOn_congr (k .sys (by decide)), fun e  => dieNo_congr e (k .img (by decide)), fun e  => nodeNo_congr e (k .img (by decide)), fun e c => coreId_congr e (k .img (by decide)) c, fun e c => unitId_congr e (k .img (by decide)) c, fun c => chan_congr (k .cmd (by decide)) c, fun x => entOk_congr (k .img (by decide)) x, fun c => groupOf_congr (k .img (by decide)) (k .jobs (by decide)) c, fun c => probing_congr (k .age (by decide)) c, fun e x => presentCore_congr e (k .img (by decide)) x⟩

@[simp] theorem clearCell_reads (a0 a1) :
    (clearCell a0 a1).free = a1.free ∧ (clearCell a0 a1).sys = a1.sys ∧ (clearCell a0 a1).isl = a1.isl ∧
    (clearCell a0 a1).time = a1.time ∧ (clearCell a0 a1).regions = a1.regions ∧ (clearCell a0 a1).res = a1.res ∧
    (clearCell a0 a1).dig = a1.dig ∧ (clearCell a0 a1).xs = a1.xs ∧ (clearCell a0 a1).ens = a1.ens ∧
    (clearCell a0 a1).casc = a1.casc ∧ (clearCell a0 a1).age = a1.age ∧ (clearCell a0 a1).fab = a1.fab ∧
    (clearCell a0 a1).sb = a1.sb ∧ (clearCell a0 a1).bc = a1.bc ∧ (clearCell a0 a1).jobs = a1.jobs ∧
    (clearCell a0 a1).mgt = a1.mgt ∧ (clearCell a0 a1).cmd = a1.cmd ∧ (clearCell a0 a1).prot = a1.prot ∧
    (clearCell a0 a1).regs = a1.regs ∧ (clearCell a0 a1).mem = a1.mem ∧ (clearCell a0 a1).dma = a1.dma ∧
    (clearCell a0 a1).trc = a1.trc ∧ (clearCell a0 a1).nid = a1.nid ∧ (clearCell a0 a1).log = a1.log ∧
    (clearCell a0 a1).boot = a1.boot ∧ (clearCell a0 a1).img = a1.img ∧ (clearCell a0 a1).reports = a1.reports ∧
    (clearCell a0 a1).posted = a1.posted ∧ (clearCell a0 a1).nvPosted = a1.nvPosted ∧ (∀ (c : Nat), region (clearCell a0 a1) c = region a1 c) ∧
    (∀ (x : Word), entity (clearCell a0 a1) x = entity a1 x) ∧ (nowNs (clearCell a0 a1) = nowNs a1 ) ∧ (imgOf (clearCell a0 a1) = imgOf a1 ) ∧
    (serving (clearCell a0 a1) = serving a1 ) ∧ (working (clearCell a0 a1) = working a1 ) ∧ (alive (clearCell a0 a1) = alive a1 ) ∧
    (upState (clearCell a0 a1) = upState a1 ) ∧ (portOn (clearCell a0 a1) = portOn a1 ) ∧ (∀ (e : Env), dieNo e (clearCell a0 a1) = dieNo e a1 ) ∧
    (∀ (e : Env), nodeNo e (clearCell a0 a1) = nodeNo e a1 ) ∧ (∀ (e : Env) (c : Nat), coreId e (clearCell a0 a1) c = coreId e a1 c) ∧ (∀ (e : Env) (c : Nat), unitId e (clearCell a0 a1) c = unitId e a1 c) ∧
    (∀ (c : Nat), chan (clearCell a0 a1) c = chan a1 c) ∧ (∀ (x : Word), entOk (clearCell a0 a1) x = entOk a1 x) ∧ (∀ (c : Nat), groupOf (clearCell a0 a1) c = groupOf a1 c) ∧
    (∀ (c : Nat), probing (clearCell a0 a1) c = probing a1 c) ∧ (∀ (e : Env) (x : Word), presentCore e (clearCell a0 a1) x = presentCore e a1 x) := by
  have k := (clearCell_only a0 a1).keep
  exact ⟨k .free (by decide), k .sys (by decide), k .isl (by decide), k .time (by decide), k .regions (by decide), k .res (by decide), k .dig (by decide), k .xs (by decide), k .ens (by decide), k .casc (by decide), k .age (by decide), k .fab (by decide), k .sb (by decide), k .bc (by decide), k .jobs (by decide), k .mgt (by decide), k .cmd (by decide), k .prot (by decide), k .regs (by decide), k .mem (by decide), k .dma (by decide), k .trc (by decide), k .nid (by decide), k .log (by decide), k .boot (by decide), k .img (by decide), k .reports (by decide), k .ram (by decide), k .nvm (by decide), fun c => region_congr (k .regions (by decide)) c, fun x => entity_congr (k .casc (by decide)) x, nowNs_congr (k .time (by decide)), imgOf_congr (k .img (by decide)), serving_congr (k .sys (by decide)), working_congr (k .sys (by decide)), alive_congr (k .sys (by decide)), upState_congr (k .sys (by decide)), portOn_congr (k .sys (by decide)), fun e  => dieNo_congr e (k .img (by decide)), fun e  => nodeNo_congr e (k .img (by decide)), fun e c => coreId_congr e (k .img (by decide)) c, fun e c => unitId_congr e (k .img (by decide)) c, fun c => chan_congr (k .cmd (by decide)) c, fun x => entOk_congr (k .img (by decide)) x, fun c => groupOf_congr (k .img (by decide)) (k .jobs (by decide)) c, fun c => probing_congr (k .age (by decide)) c, fun e x => presentCore_congr e (k .img (by decide)) x⟩

@[simp] theorem closeTiles_reads (a0 a1 a2) :
    (closeTiles a0 a1 a2).free = a2.free ∧ (closeTiles a0 a1 a2).sys = a2.sys ∧ (closeTiles a0 a1 a2).isl = a2.isl ∧
    (closeTiles a0 a1 a2).time = a2.time ∧ (closeTiles a0 a1 a2).regions = a2.regions ∧ (closeTiles a0 a1 a2).res = a2.res ∧
    (closeTiles a0 a1 a2).dig = a2.dig ∧ (closeTiles a0 a1 a2).xs = a2.xs ∧ (closeTiles a0 a1 a2).ens = a2.ens ∧
    (closeTiles a0 a1 a2).casc = a2.casc ∧ (closeTiles a0 a1 a2).age = a2.age ∧ (closeTiles a0 a1 a2).fab = a2.fab ∧
    (closeTiles a0 a1 a2).sb = a2.sb ∧ (closeTiles a0 a1 a2).bc = a2.bc ∧ (closeTiles a0 a1 a2).jobs = a2.jobs ∧
    (closeTiles a0 a1 a2).mgt = a2.mgt ∧ (closeTiles a0 a1 a2).cmd = a2.cmd ∧ (closeTiles a0 a1 a2).prot = a2.prot ∧
    (closeTiles a0 a1 a2).regs = a2.regs ∧ (closeTiles a0 a1 a2).mem = a2.mem ∧ (closeTiles a0 a1 a2).dma = a2.dma ∧
    (closeTiles a0 a1 a2).trc = a2.trc ∧ (closeTiles a0 a1 a2).nid = a2.nid ∧ (closeTiles a0 a1 a2).log = a2.log ∧
    (closeTiles a0 a1 a2).boot = a2.boot ∧ (closeTiles a0 a1 a2).img = a2.img ∧ (closeTiles a0 a1 a2).reports = a2.reports ∧
    (closeTiles a0 a1 a2).posted = a2.posted ∧ (closeTiles a0 a1 a2).nvPosted = a2.nvPosted ∧ (∀ (c : Nat), region (closeTiles a0 a1 a2) c = region a2 c) ∧
    (∀ (x : Word), entity (closeTiles a0 a1 a2) x = entity a2 x) ∧ (nowNs (closeTiles a0 a1 a2) = nowNs a2 ) ∧ (imgOf (closeTiles a0 a1 a2) = imgOf a2 ) ∧
    (serving (closeTiles a0 a1 a2) = serving a2 ) ∧ (working (closeTiles a0 a1 a2) = working a2 ) ∧ (alive (closeTiles a0 a1 a2) = alive a2 ) ∧
    (upState (closeTiles a0 a1 a2) = upState a2 ) ∧ (portOn (closeTiles a0 a1 a2) = portOn a2 ) ∧ (∀ (e : Env), dieNo e (closeTiles a0 a1 a2) = dieNo e a2 ) ∧
    (∀ (e : Env), nodeNo e (closeTiles a0 a1 a2) = nodeNo e a2 ) ∧ (∀ (e : Env) (c : Nat), coreId e (closeTiles a0 a1 a2) c = coreId e a2 c) ∧ (∀ (e : Env) (c : Nat), unitId e (closeTiles a0 a1 a2) c = unitId e a2 c) ∧
    (∀ (c : Nat), chan (closeTiles a0 a1 a2) c = chan a2 c) ∧ (∀ (x : Word), entOk (closeTiles a0 a1 a2) x = entOk a2 x) ∧ (∀ (c : Nat), groupOf (closeTiles a0 a1 a2) c = groupOf a2 c) ∧
    (∀ (c : Nat), probing (closeTiles a0 a1 a2) c = probing a2 c) ∧ (∀ (e : Env) (x : Word), presentCore e (closeTiles a0 a1 a2) x = presentCore e a2 x) := by
  have k := (closeTiles_only a0 a1 a2).keep
  exact ⟨k .free (by decide), k .sys (by decide), k .isl (by decide), k .time (by decide), k .regions (by decide), k .res (by decide), k .dig (by decide), k .xs (by decide), k .ens (by decide), k .casc (by decide), k .age (by decide), k .fab (by decide), k .sb (by decide), k .bc (by decide), k .jobs (by decide), k .mgt (by decide), k .cmd (by decide), k .prot (by decide), k .regs (by decide), k .mem (by decide), k .dma (by decide), k .trc (by decide), k .nid (by decide), k .log (by decide), k .boot (by decide), k .img (by decide), k .reports (by decide), k .ram (by decide), k .nvm (by decide), fun c => region_congr (k .regions (by decide)) c, fun x => entity_congr (k .casc (by decide)) x, nowNs_congr (k .time (by decide)), imgOf_congr (k .img (by decide)), serving_congr (k .sys (by decide)), working_congr (k .sys (by decide)), alive_congr (k .sys (by decide)), upState_congr (k .sys (by decide)), portOn_congr (k .sys (by decide)), fun e  => dieNo_congr e (k .img (by decide)), fun e  => nodeNo_congr e (k .img (by decide)), fun e c => coreId_congr e (k .img (by decide)) c, fun e c => unitId_congr e (k .img (by decide)) c, fun c => chan_congr (k .cmd (by decide)) c, fun x => entOk_congr (k .img (by decide)) x, fun c => groupOf_congr (k .img (by decide)) (k .jobs (by decide)) c, fun c => probing_congr (k .age (by decide)) c, fun e x => presentCore_congr e (k .img (by decide)) x⟩

@[simp] theorem flagCore_reads (a0 a1) :
    (flagCore a0 a1).free = a1.free ∧ (flagCore a0 a1).sys = a1.sys ∧ (flagCore a0 a1).isl = a1.isl ∧
    (flagCore a0 a1).time = a1.time ∧ (flagCore a0 a1).regions = a1.regions ∧ (flagCore a0 a1).cells = a1.cells ∧
    (flagCore a0 a1).res = a1.res ∧ (flagCore a0 a1).dig = a1.dig ∧ (flagCore a0 a1).xs = a1.xs ∧
    (flagCore a0 a1).ens = a1.ens ∧ (flagCore a0 a1).casc = a1.casc ∧ (flagCore a0 a1).age = a1.age ∧
    (flagCore a0 a1).fab = a1.fab ∧ (flagCore a0 a1).sb = a1.sb ∧ (flagCore a0 a1).bc = a1.bc ∧
    (flagCore a0 a1).jobs = a1.jobs ∧ (flagCore a0 a1).mgt = a1.mgt ∧ (flagCore a0 a1).cmd = a1.cmd ∧
    (flagCore a0 a1).prot = a1.prot ∧ (flagCore a0 a1).regs = a1.regs ∧ (flagCore a0 a1).mem = a1.mem ∧
    (flagCore a0 a1).dma = a1.dma ∧ (flagCore a0 a1).trc = a1.trc ∧ (flagCore a0 a1).nid = a1.nid ∧
    (flagCore a0 a1).log = a1.log ∧ (flagCore a0 a1).boot = a1.boot ∧ (flagCore a0 a1).img = a1.img ∧
    (flagCore a0 a1).reports = a1.reports ∧ (flagCore a0 a1).posted = a1.posted ∧ (flagCore a0 a1).nvPosted = a1.nvPosted ∧
    (∀ (c : Nat), cell (flagCore a0 a1) c = cell a1 c) ∧ (∀ (c : Nat), region (flagCore a0 a1) c = region a1 c) ∧ (∀ (x : Word), entity (flagCore a0 a1) x = entity a1 x) ∧
    (nowNs (flagCore a0 a1) = nowNs a1 ) ∧ (imgOf (flagCore a0 a1) = imgOf a1 ) ∧ (serving (flagCore a0 a1) = serving a1 ) ∧
    (working (flagCore a0 a1) = working a1 ) ∧ (alive (flagCore a0 a1) = alive a1 ) ∧ (upState (flagCore a0 a1) = upState a1 ) ∧
    (portOn (flagCore a0 a1) = portOn a1 ) ∧ (∀ (e : Env), dieNo e (flagCore a0 a1) = dieNo e a1 ) ∧ (∀ (e : Env), nodeNo e (flagCore a0 a1) = nodeNo e a1 ) ∧
    (∀ (e : Env) (c : Nat), coreId e (flagCore a0 a1) c = coreId e a1 c) ∧ (∀ (e : Env) (c : Nat), unitId e (flagCore a0 a1) c = unitId e a1 c) ∧ (∀ (c : Nat), chan (flagCore a0 a1) c = chan a1 c) ∧
    (∀ (x : Word), entOk (flagCore a0 a1) x = entOk a1 x) ∧ (∀ (c : Nat), groupOf (flagCore a0 a1) c = groupOf a1 c) ∧ (∀ (c : Nat), probing (flagCore a0 a1) c = probing a1 c) ∧
    (∀ (e : Env) (x : Word), presentCore e (flagCore a0 a1) x = presentCore e a1 x) := by
  have k := (flagCore_only a0 a1).keep
  exact ⟨k .free (by decide), k .sys (by decide), k .isl (by decide), k .time (by decide), k .regions (by decide), k .cells (by decide), k .res (by decide), k .dig (by decide), k .xs (by decide), k .ens (by decide), k .casc (by decide), k .age (by decide), k .fab (by decide), k .sb (by decide), k .bc (by decide), k .jobs (by decide), k .mgt (by decide), k .cmd (by decide), k .prot (by decide), k .regs (by decide), k .mem (by decide), k .dma (by decide), k .trc (by decide), k .nid (by decide), k .log (by decide), k .boot (by decide), k .img (by decide), k .reports (by decide), k .ram (by decide), k .nvm (by decide), fun c => cell_congr (k .cells (by decide)) c, fun c => region_congr (k .regions (by decide)) c, fun x => entity_congr (k .casc (by decide)) x, nowNs_congr (k .time (by decide)), imgOf_congr (k .img (by decide)), serving_congr (k .sys (by decide)), working_congr (k .sys (by decide)), alive_congr (k .sys (by decide)), upState_congr (k .sys (by decide)), portOn_congr (k .sys (by decide)), fun e  => dieNo_congr e (k .img (by decide)), fun e  => nodeNo_congr e (k .img (by decide)), fun e c => coreId_congr e (k .img (by decide)) c, fun e c => unitId_congr e (k .img (by decide)) c, fun c => chan_congr (k .cmd (by decide)) c, fun x => entOk_congr (k .img (by decide)) x, fun c => groupOf_congr (k .img (by decide)) (k .jobs (by decide)) c, fun c => probing_congr (k .age (by decide)) c, fun e x => presentCore_congr e (k .img (by decide)) x⟩

@[simp] theorem sporeFeature_reads (a0 a1 a2) :
    (sporeFeature a0 a1 a2).free = a2.free ∧ (sporeFeature a0 a1 a2).sys = a2.sys ∧ (sporeFeature a0 a1 a2).isl = a2.isl ∧
    (sporeFeature a0 a1 a2).time = a2.time ∧ (sporeFeature a0 a1 a2).regions = a2.regions ∧ (sporeFeature a0 a1 a2).cells = a2.cells ∧
    (sporeFeature a0 a1 a2).hubc = a2.hubc ∧ (sporeFeature a0 a1 a2).res = a2.res ∧ (sporeFeature a0 a1 a2).dig = a2.dig ∧
    (sporeFeature a0 a1 a2).xs = a2.xs ∧ (sporeFeature a0 a1 a2).casc = a2.casc ∧ (sporeFeature a0 a1 a2).age = a2.age ∧
    (sporeFeature a0 a1 a2).fab = a2.fab ∧ (sporeFeature a0 a1 a2).sb = a2.sb ∧ (sporeFeature a0 a1 a2).bc = a2.bc ∧
    (sporeFeature a0 a1 a2).jobs = a2.jobs ∧ (sporeFeature a0 a1 a2).mgt = a2.mgt ∧ (sporeFeature a0 a1 a2).cmd = a2.cmd ∧
    (sporeFeature a0 a1 a2).prot = a2.prot ∧ (sporeFeature a0 a1 a2).dma = a2.dma ∧ (sporeFeature a0 a1 a2).trc = a2.trc ∧
    (sporeFeature a0 a1 a2).nid = a2.nid ∧ (sporeFeature a0 a1 a2).boot = a2.boot ∧ (sporeFeature a0 a1 a2).img = a2.img ∧
    (sporeFeature a0 a1 a2).reports = a2.reports ∧ (sporeFeature a0 a1 a2).posted = a2.posted ∧ (sporeFeature a0 a1 a2).nvPosted = a2.nvPosted ∧
    (∀ (c : Nat), cell (sporeFeature a0 a1 a2) c = cell a2 c) ∧ (∀ (c : Nat), Sys2Proof.Machine.hubc (sporeFeature a0 a1 a2) c = Sys2Proof.Machine.hubc a2 c) ∧ (∀ (c : Nat), region (sporeFeature a0 a1 a2) c = region a2 c) ∧
    (∀ (x : Word), entity (sporeFeature a0 a1 a2) x = entity a2 x) ∧ (nowNs (sporeFeature a0 a1 a2) = nowNs a2 ) ∧ (imgOf (sporeFeature a0 a1 a2) = imgOf a2 ) ∧
    (serving (sporeFeature a0 a1 a2) = serving a2 ) ∧ (working (sporeFeature a0 a1 a2) = working a2 ) ∧ (alive (sporeFeature a0 a1 a2) = alive a2 ) ∧
    (upState (sporeFeature a0 a1 a2) = upState a2 ) ∧ (portOn (sporeFeature a0 a1 a2) = portOn a2 ) ∧ (∀ (e : Env), dieNo e (sporeFeature a0 a1 a2) = dieNo e a2 ) ∧
    (∀ (e : Env), nodeNo e (sporeFeature a0 a1 a2) = nodeNo e a2 ) ∧ (∀ (e : Env) (c : Nat), coreId e (sporeFeature a0 a1 a2) c = coreId e a2 c) ∧ (∀ (e : Env) (c : Nat), unitId e (sporeFeature a0 a1 a2) c = unitId e a2 c) ∧
    (∀ (c : Nat), chan (sporeFeature a0 a1 a2) c = chan a2 c) ∧ (∀ (x : Word), entOk (sporeFeature a0 a1 a2) x = entOk a2 x) ∧ (∀ (c : Nat), groupOf (sporeFeature a0 a1 a2) c = groupOf a2 c) ∧
    (∀ (c : Nat), probing (sporeFeature a0 a1 a2) c = probing a2 c) ∧ (∀ (e : Env) (x : Word), presentCore e (sporeFeature a0 a1 a2) x = presentCore e a2 x) := by
  have k := (sporeFeature_only a0 a1 a2).keep
  exact ⟨k .free (by decide), k .sys (by decide), k .isl (by decide), k .time (by decide), k .regions (by decide), k .cells (by decide), k .hubc (by decide), k .res (by decide), k .dig (by decide), k .xs (by decide), k .casc (by decide), k .age (by decide), k .fab (by decide), k .sb (by decide), k .bc (by decide), k .jobs (by decide), k .mgt (by decide), k .cmd (by decide), k .prot (by decide), k .dma (by decide), k .trc (by decide), k .nid (by decide), k .boot (by decide), k .img (by decide), k .reports (by decide), k .ram (by decide), k .nvm (by decide), fun c => cell_congr (k .cells (by decide)) c, fun c => hubc_congr (k .hubc (by decide)) c, fun c => region_congr (k .regions (by decide)) c, fun x => entity_congr (k .casc (by decide)) x, nowNs_congr (k .time (by decide)), imgOf_congr (k .img (by decide)), serving_congr (k .sys (by decide)), working_congr (k .sys (by decide)), alive_congr (k .sys (by decide)), upState_congr (k .sys (by decide)), portOn_congr (k .sys (by decide)), fun e  => dieNo_congr e (k .img (by decide)), fun e  => nodeNo_congr e (k .img (by decide)), fun e c => coreId_congr e (k .img (by decide)) c, fun e c => unitId_congr e (k .img (by decide)) c, fun c => chan_congr (k .cmd (by decide)) c, fun x => entOk_congr (k .img (by decide)) x, fun c => groupOf_congr (k .img (by decide)) (k .jobs (by decide)) c, fun c => probing_congr (k .age (by decide)) c, fun e x => presentCore_congr e (k .img (by decide)) x⟩

@[simp] theorem cellEvent_reads (a0 a1 a2 a3) :
    (cellEvent a0 a1 a2 a3).free = a2.free ∧ (cellEvent a0 a1 a2 a3).sys = a2.sys ∧ (cellEvent a0 a1 a2 a3).isl = a2.isl ∧
    (cellEvent a0 a1 a2 a3).time = a2.time ∧ (cellEvent a0 a1 a2 a3).regions = a2.regions ∧ (cellEvent a0 a1 a2 a3).hubc = a2.hubc ∧
    (cellEvent a0 a1 a2 a3).res = a2.res ∧ (cellEvent a0 a1 a2 a3).dig = a2.dig ∧ (cellEvent a0 a1 a2 a3).xs = a2.xs ∧
    (cellEvent a0 a1 a2 a3).ens = a2.ens ∧ (cellEvent a0 a1 a2 a3).casc = a2.casc ∧ (cellEvent a0 a1 a2 a3).age = a2.age ∧
    (cellEvent a0 a1 a2 a3).fab = a2.fab ∧ (cellEvent a0 a1 a2 a3).sb = a2.sb ∧ (cellEvent a0 a1 a2 a3).bc = a2.bc ∧
    (cellEvent a0 a1 a2 a3).jobs = a2.jobs ∧ (cellEvent a0 a1 a2 a3).mgt = a2.mgt ∧ (cellEvent a0 a1 a2 a3).cmd = a2.cmd ∧
    (cellEvent a0 a1 a2 a3).prot = a2.prot ∧ (cellEvent a0 a1 a2 a3).regs = a2.regs ∧ (cellEvent a0 a1 a2 a3).mem = a2.mem ∧
    (cellEvent a0 a1 a2 a3).dma = a2.dma ∧ (cellEvent a0 a1 a2 a3).trc = a2.trc ∧ (cellEvent a0 a1 a2 a3).nid = a2.nid ∧
    (cellEvent a0 a1 a2 a3).log = a2.log ∧ (cellEvent a0 a1 a2 a3).boot = a2.boot ∧ (cellEvent a0 a1 a2 a3).img = a2.img ∧
    (cellEvent a0 a1 a2 a3).reports = a2.reports ∧ (cellEvent a0 a1 a2 a3).posted = a2.posted ∧ (cellEvent a0 a1 a2 a3).nvPosted = a2.nvPosted ∧
    (∀ (c : Nat), Sys2Proof.Machine.hubc (cellEvent a0 a1 a2 a3) c = Sys2Proof.Machine.hubc a2 c) ∧ (∀ (c : Nat), region (cellEvent a0 a1 a2 a3) c = region a2 c) ∧ (∀ (x : Word), entity (cellEvent a0 a1 a2 a3) x = entity a2 x) ∧
    (nowNs (cellEvent a0 a1 a2 a3) = nowNs a2 ) ∧ (imgOf (cellEvent a0 a1 a2 a3) = imgOf a2 ) ∧ (serving (cellEvent a0 a1 a2 a3) = serving a2 ) ∧
    (working (cellEvent a0 a1 a2 a3) = working a2 ) ∧ (alive (cellEvent a0 a1 a2 a3) = alive a2 ) ∧ (upState (cellEvent a0 a1 a2 a3) = upState a2 ) ∧
    (portOn (cellEvent a0 a1 a2 a3) = portOn a2 ) ∧ (∀ (e : Env), dieNo e (cellEvent a0 a1 a2 a3) = dieNo e a2 ) ∧ (∀ (e : Env), nodeNo e (cellEvent a0 a1 a2 a3) = nodeNo e a2 ) ∧
    (∀ (e : Env) (c : Nat), coreId e (cellEvent a0 a1 a2 a3) c = coreId e a2 c) ∧ (∀ (e : Env) (c : Nat), unitId e (cellEvent a0 a1 a2 a3) c = unitId e a2 c) ∧ (∀ (c : Nat), chan (cellEvent a0 a1 a2 a3) c = chan a2 c) ∧
    (∀ (x : Word), entOk (cellEvent a0 a1 a2 a3) x = entOk a2 x) ∧ (∀ (c : Nat), groupOf (cellEvent a0 a1 a2 a3) c = groupOf a2 c) ∧ (∀ (c : Nat), probing (cellEvent a0 a1 a2 a3) c = probing a2 c) ∧
    (∀ (e : Env) (x : Word), presentCore e (cellEvent a0 a1 a2 a3) x = presentCore e a2 x) := by
  have k := (cellEvent_only a0 a1 a2 a3).keep
  exact ⟨k .free (by decide), k .sys (by decide), k .isl (by decide), k .time (by decide), k .regions (by decide), k .hubc (by decide), k .res (by decide), k .dig (by decide), k .xs (by decide), k .ens (by decide), k .casc (by decide), k .age (by decide), k .fab (by decide), k .sb (by decide), k .bc (by decide), k .jobs (by decide), k .mgt (by decide), k .cmd (by decide), k .prot (by decide), k .regs (by decide), k .mem (by decide), k .dma (by decide), k .trc (by decide), k .nid (by decide), k .log (by decide), k .boot (by decide), k .img (by decide), k .reports (by decide), k .ram (by decide), k .nvm (by decide), fun c => hubc_congr (k .hubc (by decide)) c, fun c => region_congr (k .regions (by decide)) c, fun x => entity_congr (k .casc (by decide)) x, nowNs_congr (k .time (by decide)), imgOf_congr (k .img (by decide)), serving_congr (k .sys (by decide)), working_congr (k .sys (by decide)), alive_congr (k .sys (by decide)), upState_congr (k .sys (by decide)), portOn_congr (k .sys (by decide)), fun e  => dieNo_congr e (k .img (by decide)), fun e  => nodeNo_congr e (k .img (by decide)), fun e c => coreId_congr e (k .img (by decide)) c, fun e c => unitId_congr e (k .img (by decide)) c, fun c => chan_congr (k .cmd (by decide)) c, fun x => entOk_congr (k .img (by decide)) x, fun c => groupOf_congr (k .img (by decide)) (k .jobs (by decide)) c, fun c => probing_congr (k .age (by decide)) c, fun e x => presentCore_congr e (k .img (by decide)) x⟩

@[simp] theorem holdCycle_reads (a0 a1 a2 a3 a4) :
    (holdCycle a0 a1 a2 a3 a4).free = a4.free ∧ (holdCycle a0 a1 a2 a3 a4).sys = a4.sys ∧ (holdCycle a0 a1 a2 a3 a4).isl = a4.isl ∧
    (holdCycle a0 a1 a2 a3 a4).time = a4.time ∧ (holdCycle a0 a1 a2 a3 a4).regions = a4.regions ∧ (holdCycle a0 a1 a2 a3 a4).hubc = a4.hubc ∧
    (holdCycle a0 a1 a2 a3 a4).res = a4.res ∧ (holdCycle a0 a1 a2 a3 a4).dig = a4.dig ∧ (holdCycle a0 a1 a2 a3 a4).xs = a4.xs ∧
    (holdCycle a0 a1 a2 a3 a4).ens = a4.ens ∧ (holdCycle a0 a1 a2 a3 a4).age = a4.age ∧ (holdCycle a0 a1 a2 a3 a4).fab = a4.fab ∧
    (holdCycle a0 a1 a2 a3 a4).sb = a4.sb ∧ (holdCycle a0 a1 a2 a3 a4).bc = a4.bc ∧ (holdCycle a0 a1 a2 a3 a4).jobs = a4.jobs ∧
    (holdCycle a0 a1 a2 a3 a4).mgt = a4.mgt ∧ (holdCycle a0 a1 a2 a3 a4).cmd = a4.cmd ∧ (holdCycle a0 a1 a2 a3 a4).prot = a4.prot ∧
    (holdCycle a0 a1 a2 a3 a4).mem = a4.mem ∧ (holdCycle a0 a1 a2 a3 a4).dma = a4.dma ∧ (holdCycle a0 a1 a2 a3 a4).trc = a4.trc ∧
    (holdCycle a0 a1 a2 a3 a4).nid = a4.nid ∧ (holdCycle a0 a1 a2 a3 a4).boot = a4.boot ∧ (holdCycle a0 a1 a2 a3 a4).img = a4.img ∧
    (holdCycle a0 a1 a2 a3 a4).reports = a4.reports ∧ (holdCycle a0 a1 a2 a3 a4).posted = a4.posted ∧ (holdCycle a0 a1 a2 a3 a4).nvPosted = a4.nvPosted ∧
    (∀ (c : Nat), Sys2Proof.Machine.hubc (holdCycle a0 a1 a2 a3 a4) c = Sys2Proof.Machine.hubc a4 c) ∧ (∀ (c : Nat), region (holdCycle a0 a1 a2 a3 a4) c = region a4 c) ∧ (nowNs (holdCycle a0 a1 a2 a3 a4) = nowNs a4 ) ∧
    (imgOf (holdCycle a0 a1 a2 a3 a4) = imgOf a4 ) ∧ (serving (holdCycle a0 a1 a2 a3 a4) = serving a4 ) ∧ (working (holdCycle a0 a1 a2 a3 a4) = working a4 ) ∧
    (alive (holdCycle a0 a1 a2 a3 a4) = alive a4 ) ∧ (upState (holdCycle a0 a1 a2 a3 a4) = upState a4 ) ∧ (portOn (holdCycle a0 a1 a2 a3 a4) = portOn a4 ) ∧
    (∀ (e : Env), dieNo e (holdCycle a0 a1 a2 a3 a4) = dieNo e a4 ) ∧ (∀ (e : Env), nodeNo e (holdCycle a0 a1 a2 a3 a4) = nodeNo e a4 ) ∧ (∀ (e : Env) (c : Nat), coreId e (holdCycle a0 a1 a2 a3 a4) c = coreId e a4 c) ∧
    (∀ (e : Env) (c : Nat), unitId e (holdCycle a0 a1 a2 a3 a4) c = unitId e a4 c) ∧ (∀ (c : Nat), chan (holdCycle a0 a1 a2 a3 a4) c = chan a4 c) ∧ (∀ (x : Word), entOk (holdCycle a0 a1 a2 a3 a4) x = entOk a4 x) ∧
    (∀ (c : Nat), groupOf (holdCycle a0 a1 a2 a3 a4) c = groupOf a4 c) ∧ (∀ (c : Nat), probing (holdCycle a0 a1 a2 a3 a4) c = probing a4 c) ∧ (∀ (e : Env) (x : Word), presentCore e (holdCycle a0 a1 a2 a3 a4) x = presentCore e a4 x) := by
  have k := (holdCycle_only a0 a1 a2 a3 a4).keep
  exact ⟨k .free (by decide), k .sys (by decide), k .isl (by decide), k .time (by decide), k .regions (by decide), k .hubc (by decide), k .res (by decide), k .dig (by decide), k .xs (by decide), k .ens (by decide), k .age (by decide), k .fab (by decide), k .sb (by decide), k .bc (by decide), k .jobs (by decide), k .mgt (by decide), k .cmd (by decide), k .prot (by decide), k .mem (by decide), k .dma (by decide), k .trc (by decide), k .nid (by decide), k .boot (by decide), k .img (by decide), k .reports (by decide), k .ram (by decide), k .nvm (by decide), fun c => hubc_congr (k .hubc (by decide)) c, fun c => region_congr (k .regions (by decide)) c, nowNs_congr (k .time (by decide)), imgOf_congr (k .img (by decide)), serving_congr (k .sys (by decide)), working_congr (k .sys (by decide)), alive_congr (k .sys (by decide)), upState_congr (k .sys (by decide)), portOn_congr (k .sys (by decide)), fun e  => dieNo_congr e (k .img (by decide)), fun e  => nodeNo_congr e (k .img (by decide)), fun e c => coreId_congr e (k .img (by decide)) c, fun e c => unitId_congr e (k .img (by decide)) c, fun c => chan_congr (k .cmd (by decide)) c, fun x => entOk_congr (k .img (by decide)) x, fun c => groupOf_congr (k .img (by decide)) (k .jobs (by decide)) c, fun c => probing_congr (k .age (by decide)) c, fun e x => presentCore_congr e (k .img (by decide)) x⟩

@[simp] theorem laneCycle_reads (a0 a1 a2) :
    (laneCycle a0 a1 a2).free = a2.free ∧ (laneCycle a0 a1 a2).sys = a2.sys ∧ (laneCycle a0 a1 a2).isl = a2.isl ∧
    (laneCycle a0 a1 a2).time = a2.time ∧ (laneCycle a0 a1 a2).regions = a2.regions ∧ (laneCycle a0 a1 a2).hubc = a2.hubc ∧
    (laneCycle a0 a1 a2).res = a2.res ∧ (laneCycle a0 a1 a2).dig = a2.dig ∧ (laneCycle a0 a1 a2).xs = a2.xs ∧
    (laneCycle a0 a1 a2).ens = a2.ens ∧ (laneCycle a0 a1 a2).casc = a2.casc ∧ (laneCycle a0 a1 a2).age = a2.age ∧
    (laneCycle a0 a1 a2).fab = a2.fab ∧ (laneCycle a0 a1 a2).sb = a2.sb ∧ (laneCycle a0 a1 a2).bc = a2.bc ∧
    (laneCycle a0 a1 a2).jobs = a2.jobs ∧ (laneCycle a0 a1 a2).mgt = a2.mgt ∧ (laneCycle a0 a1 a2).cmd = a2.cmd ∧
    (laneCycle a0 a1 a2).prot = a2.prot ∧ (laneCycle a0 a1 a2).regs = a2.regs ∧ (laneCycle a0 a1 a2).mem = a2.mem ∧
    (laneCycle a0 a1 a2).dma = a2.dma ∧ (laneCycle a0 a1 a2).trc = a2.trc ∧ (laneCycle a0 a1 a2).nid = a2.nid ∧
    (laneCycle a0 a1 a2).log = a2.log ∧ (laneCycle a0 a1 a2).boot = a2.boot ∧ (laneCycle a0 a1 a2).img = a2.img ∧
    (laneCycle a0 a1 a2).reports = a2.reports ∧ (laneCycle a0 a1 a2).posted = a2.posted ∧ (laneCycle a0 a1 a2).nvPosted = a2.nvPosted ∧
    (∀ (c : Nat), Sys2Proof.Machine.hubc (laneCycle a0 a1 a2) c = Sys2Proof.Machine.hubc a2 c) ∧ (∀ (c : Nat), region (laneCycle a0 a1 a2) c = region a2 c) ∧ (∀ (x : Word), entity (laneCycle a0 a1 a2) x = entity a2 x) ∧
    (nowNs (laneCycle a0 a1 a2) = nowNs a2 ) ∧ (imgOf (laneCycle a0 a1 a2) = imgOf a2 ) ∧ (serving (laneCycle a0 a1 a2) = serving a2 ) ∧
    (working (laneCycle a0 a1 a2) = working a2 ) ∧ (alive (laneCycle a0 a1 a2) = alive a2 ) ∧ (upState (laneCycle a0 a1 a2) = upState a2 ) ∧
    (portOn (laneCycle a0 a1 a2) = portOn a2 ) ∧ (∀ (e : Env), dieNo e (laneCycle a0 a1 a2) = dieNo e a2 ) ∧ (∀ (e : Env), nodeNo e (laneCycle a0 a1 a2) = nodeNo e a2 ) ∧
    (∀ (e : Env) (c : Nat), coreId e (laneCycle a0 a1 a2) c = coreId e a2 c) ∧ (∀ (e : Env) (c : Nat), unitId e (laneCycle a0 a1 a2) c = unitId e a2 c) ∧ (∀ (c : Nat), chan (laneCycle a0 a1 a2) c = chan a2 c) ∧
    (∀ (x : Word), entOk (laneCycle a0 a1 a2) x = entOk a2 x) ∧ (∀ (c : Nat), groupOf (laneCycle a0 a1 a2) c = groupOf a2 c) ∧ (∀ (c : Nat), probing (laneCycle a0 a1 a2) c = probing a2 c) ∧
    (∀ (e : Env) (x : Word), presentCore e (laneCycle a0 a1 a2) x = presentCore e a2 x) := by
  have k := (laneCycle_only a0 a1 a2).keep
  exact ⟨k .free (by decide), k .sys (by decide), k .isl (by decide), k .time (by decide), k .regions (by decide), k .hubc (by decide), k .res (by decide), k .dig (by decide), k .xs (by decide), k .ens (by decide), k .casc (by decide), k .age (by decide), k .fab (by decide), k .sb (by decide), k .bc (by decide), k .jobs (by decide), k .mgt (by decide), k .cmd (by decide), k .prot (by decide), k .regs (by decide), k .mem (by decide), k .dma (by decide), k .trc (by decide), k .nid (by decide), k .log (by decide), k .boot (by decide), k .img (by decide), k .reports (by decide), k .ram (by decide), k .nvm (by decide), fun c => hubc_congr (k .hubc (by decide)) c, fun c => region_congr (k .regions (by decide)) c, fun x => entity_congr (k .casc (by decide)) x, nowNs_congr (k .time (by decide)), imgOf_congr (k .img (by decide)), serving_congr (k .sys (by decide)), working_congr (k .sys (by decide)), alive_congr (k .sys (by decide)), upState_congr (k .sys (by decide)), portOn_congr (k .sys (by decide)), fun e  => dieNo_congr e (k .img (by decide)), fun e  => nodeNo_congr e (k .img (by decide)), fun e c => coreId_congr e (k .img (by decide)) c, fun e c => unitId_congr e (k .img (by decide)) c, fun c => chan_congr (k .cmd (by decide)) c, fun x => entOk_congr (k .img (by decide)) x, fun c => groupOf_congr (k .img (by decide)) (k .jobs (by decide)) c, fun c => probing_congr (k .age (by decide)) c, fun e x => presentCore_congr e (k .img (by decide)) x⟩

@[simp] theorem takeWrongly_reads (a0 a1 a2) :
    (takeWrongly a0 a1 a2).free = a2.free ∧ (takeWrongly a0 a1 a2).sys = a2.sys ∧ (takeWrongly a0 a1 a2).isl = a2.isl ∧
    (takeWrongly a0 a1 a2).time = a2.time ∧ (takeWrongly a0 a1 a2).res = a2.res ∧ (takeWrongly a0 a1 a2).dig = a2.dig ∧
    (takeWrongly a0 a1 a2).xs = a2.xs ∧ (takeWrongly a0 a1 a2).ens = a2.ens ∧ (takeWrongly a0 a1 a2).casc = a2.casc ∧
    (takeWrongly a0 a1 a2).age = a2.age ∧ (takeWrongly a0 a1 a2).fab = a2.fab ∧ (takeWrongly a0 a1 a2).sb = a2.sb ∧
    (takeWrongly a0 a1 a2).bc = a2.bc ∧ (takeWrongly a0 a1 a2).jobs = a2.jobs ∧ (takeWrongly a0 a1 a2).mgt = a2.mgt ∧
    (takeWrongly a0 a1 a2).cmd = a2.cmd ∧ (takeWrongly a0 a1 a2).prot = a2.prot ∧ (takeWrongly a0 a1 a2).regs = a2.regs ∧
    (takeWrongly a0 a1 a2).mem = a2.mem ∧ (takeWrongly a0 a1 a2).dma = a2.dma ∧ (takeWrongly a0 a1 a2).trc = a2.trc ∧
    (takeWrongly a0 a1 a2).nid = a2.nid ∧ (takeWrongly a0 a1 a2).log = a2.log ∧ (takeWrongly a0 a1 a2).boot = a2.boot ∧
    (takeWrongly a0 a1 a2).img = a2.img ∧ (takeWrongly a0 a1 a2).reports = a2.reports ∧ (takeWrongly a0 a1 a2).posted = a2.posted ∧
    (takeWrongly a0 a1 a2).nvPosted = a2.nvPosted ∧ (∀ (x : Word), entity (takeWrongly a0 a1 a2) x = entity a2 x) ∧ (nowNs (takeWrongly a0 a1 a2) = nowNs a2 ) ∧
    (imgOf (takeWrongly a0 a1 a2) = imgOf a2 ) ∧ (serving (takeWrongly a0 a1 a2) = serving a2 ) ∧ (working (takeWrongly a0 a1 a2) = working a2 ) ∧
    (alive (takeWrongly a0 a1 a2) = alive a2 ) ∧ (upState (takeWrongly a0 a1 a2) = upState a2 ) ∧ (portOn (takeWrongly a0 a1 a2) = portOn a2 ) ∧
    (∀ (e : Env), dieNo e (takeWrongly a0 a1 a2) = dieNo e a2 ) ∧ (∀ (e : Env), nodeNo e (takeWrongly a0 a1 a2) = nodeNo e a2 ) ∧ (∀ (e : Env) (c : Nat), coreId e (takeWrongly a0 a1 a2) c = coreId e a2 c) ∧
    (∀ (e : Env) (c : Nat), unitId e (takeWrongly a0 a1 a2) c = unitId e a2 c) ∧ (∀ (c : Nat), chan (takeWrongly a0 a1 a2) c = chan a2 c) ∧ (∀ (x : Word), entOk (takeWrongly a0 a1 a2) x = entOk a2 x) ∧
    (∀ (c : Nat), groupOf (takeWrongly a0 a1 a2) c = groupOf a2 c) ∧ (∀ (c : Nat), probing (takeWrongly a0 a1 a2) c = probing a2 c) ∧ (∀ (e : Env) (x : Word), presentCore e (takeWrongly a0 a1 a2) x = presentCore e a2 x) := by
  have k := (takeWrongly_only a0 a1 a2).keep
  exact ⟨k .free (by decide), k .sys (by decide), k .isl (by decide), k .time (by decide), k .res (by decide), k .dig (by decide), k .xs (by decide), k .ens (by decide), k .casc (by decide), k .age (by decide), k .fab (by decide), k .sb (by decide), k .bc (by decide), k .jobs (by decide), k .mgt (by decide), k .cmd (by decide), k .prot (by decide), k .regs (by decide), k .mem (by decide), k .dma (by decide), k .trc (by decide), k .nid (by decide), k .log (by decide), k .boot (by decide), k .img (by decide), k .reports (by decide), k .ram (by decide), k .nvm (by decide), fun x => entity_congr (k .casc (by decide)) x, nowNs_congr (k .time (by decide)), imgOf_congr (k .img (by decide)), serving_congr (k .sys (by decide)), working_congr (k .sys (by decide)), alive_congr (k .sys (by decide)), upState_congr (k .sys (by decide)), portOn_congr (k .sys (by decide)), fun e  => dieNo_congr e (k .img (by decide)), fun e  => nodeNo_congr e (k .img (by decide)), fun e c => coreId_congr e (k .img (by decide)) c, fun e c => unitId_congr e (k .img (by decide)) c, fun c => chan_congr (k .cmd (by decide)) c, fun x => entOk_congr (k .img (by decide)) x, fun c => groupOf_congr (k .img (by decide)) (k .jobs (by decide)) c, fun c => probing_congr (k .age (by decide)) c, fun e x => presentCore_congr e (k .img (by decide)) x⟩

@[simp] theorem edgeRules_reads (a0 a1 a2) :
    (edgeRules a0 a1 a2).free = a2.free ∧ (edgeRules a0 a1 a2).sys = a2.sys ∧ (edgeRules a0 a1 a2).isl = a2.isl ∧
    (edgeRules a0 a1 a2).time = a2.time ∧ (edgeRules a0 a1 a2).hubc = a2.hubc ∧ (edgeRules a0 a1 a2).res = a2.res ∧
    (edgeRules a0 a1 a2).dig = a2.dig ∧ (edgeRules a0 a1 a2).xs = a2.xs ∧ (edgeRules a0 a1 a2).ens = a2.ens ∧
    (edgeRules a0 a1 a2).casc = a2.casc ∧ (edgeRules a0 a1 a2).age = a2.age ∧ (edgeRules a0 a1 a2).fab = a2.fab ∧
    (edgeRules a0 a1 a2).sb = a2.sb ∧ (edgeRules a0 a1 a2).bc = a2.bc ∧ (edgeRules a0 a1 a2).jobs = a2.jobs ∧
    (edgeRules a0 a1 a2).mgt = a2.mgt ∧ (edgeRules a0 a1 a2).cmd = a2.cmd ∧ (edgeRules a0 a1 a2).prot = a2.prot ∧
    (edgeRules a0 a1 a2).mem = a2.mem ∧ (edgeRules a0 a1 a2).dma = a2.dma ∧ (edgeRules a0 a1 a2).nid = a2.nid ∧
    (edgeRules a0 a1 a2).log = a2.log ∧ (edgeRules a0 a1 a2).boot = a2.boot ∧ (edgeRules a0 a1 a2).img = a2.img ∧
    (edgeRules a0 a1 a2).reports = a2.reports ∧ (edgeRules a0 a1 a2).posted = a2.posted ∧ (edgeRules a0 a1 a2).nvPosted = a2.nvPosted ∧
    (∀ (c : Nat), Sys2Proof.Machine.hubc (edgeRules a0 a1 a2) c = Sys2Proof.Machine.hubc a2 c) ∧ (∀ (x : Word), entity (edgeRules a0 a1 a2) x = entity a2 x) ∧ (nowNs (edgeRules a0 a1 a2) = nowNs a2 ) ∧
    (imgOf (edgeRules a0 a1 a2) = imgOf a2 ) ∧ (serving (edgeRules a0 a1 a2) = serving a2 ) ∧ (working (edgeRules a0 a1 a2) = working a2 ) ∧
    (alive (edgeRules a0 a1 a2) = alive a2 ) ∧ (upState (edgeRules a0 a1 a2) = upState a2 ) ∧ (portOn (edgeRules a0 a1 a2) = portOn a2 ) ∧
    (∀ (e : Env), dieNo e (edgeRules a0 a1 a2) = dieNo e a2 ) ∧ (∀ (e : Env), nodeNo e (edgeRules a0 a1 a2) = nodeNo e a2 ) ∧ (∀ (e : Env) (c : Nat), coreId e (edgeRules a0 a1 a2) c = coreId e a2 c) ∧
    (∀ (e : Env) (c : Nat), unitId e (edgeRules a0 a1 a2) c = unitId e a2 c) ∧ (∀ (c : Nat), chan (edgeRules a0 a1 a2) c = chan a2 c) ∧ (∀ (x : Word), entOk (edgeRules a0 a1 a2) x = entOk a2 x) ∧
    (∀ (c : Nat), groupOf (edgeRules a0 a1 a2) c = groupOf a2 c) ∧ (∀ (c : Nat), probing (edgeRules a0 a1 a2) c = probing a2 c) ∧ (∀ (e : Env) (x : Word), presentCore e (edgeRules a0 a1 a2) x = presentCore e a2 x) := by
  have k := (edgeRules_only a0 a1 a2).keep
  exact ⟨k .free (by decide), k .sys (by decide), k .isl (by decide), k .time (by decide), k .hubc (by decide), k .res (by decide), k .dig (by decide), k .xs (by decide), k .ens (by decide), k .casc (by decide), k .age (by decide), k .fab (by decide), k .sb (by decide), k .bc (by decide), k .jobs (by decide), k .mgt (by decide), k .cmd (by decide), k .prot (by decide), k .mem (by decide), k .dma (by decide), k .nid (by decide), k .log (by decide), k .boot (by decide), k .img (by decide), k .reports (by decide), k .ram (by decide), k .nvm (by decide), fun c => hubc_congr (k .hubc (by decide)) c, fun x => entity_congr (k .casc (by decide)) x, nowNs_congr (k .time (by decide)), imgOf_congr (k .img (by decide)), serving_congr (k .sys (by decide)), working_congr (k .sys (by decide)), alive_congr (k .sys (by decide)), upState_congr (k .sys (by decide)), portOn_congr (k .sys (by decide)), fun e  => dieNo_congr e (k .img (by decide)), fun e  => nodeNo_congr e (k .img (by decide)), fun e c => coreId_congr e (k .img (by decide)) c, fun e c => unitId_congr e (k .img (by decide)) c, fun c => chan_congr (k .cmd (by decide)) c, fun x => entOk_congr (k .img (by decide)) x, fun c => groupOf_congr (k .img (by decide)) (k .jobs (by decide)) c, fun c => probing_congr (k .age (by decide)) c, fun e x => presentCore_congr e (k .img (by decide)) x⟩

@[simp] theorem evalRule_reads (a0 a1 a2 a3 a4) :
    (evalRule a0 a1 a2 a3 a4).free = a4.free ∧ (evalRule a0 a1 a2 a3 a4).sys = a4.sys ∧ (evalRule a0 a1 a2 a3 a4).isl = a4.isl ∧
    (evalRule a0 a1 a2 a3 a4).time = a4.time ∧ (evalRule a0 a1 a2 a3 a4).hubc = a4.hubc ∧ (evalRule a0 a1 a2 a3 a4).res = a4.res ∧
    (evalRule a0 a1 a2 a3 a4).dig = a4.dig ∧ (evalRule a0 a1 a2 a3 a4).xs = a4.xs ∧ (evalRule a0 a1 a2 a3 a4).ens = a4.ens ∧
    (evalRule a0 a1 a2 a3 a4).casc = a4.casc ∧ (evalRule a0 a1 a2 a3 a4).age = a4.age ∧ (evalRule a0 a1 a2 a3 a4).fab = a4.fab ∧
    (evalRule a0 a1 a2 a3 a4).sb = a4.sb ∧ (evalRule a0 a1 a2 a3 a4).bc = a4.bc ∧ (evalRule a0 a1 a2 a3 a4).jobs = a4.jobs ∧
    (evalRule a0 a1 a2 a3 a4).mgt = a4.mgt ∧ (evalRule a0 a1 a2 a3 a4).cmd = a4.cmd ∧ (evalRule a0 a1 a2 a3 a4).prot = a4.prot ∧
    (evalRule a0 a1 a2 a3 a4).mem = a4.mem ∧ (evalRule a0 a1 a2 a3 a4).dma = a4.dma ∧ (evalRule a0 a1 a2 a3 a4).nid = a4.nid ∧
    (evalRule a0 a1 a2 a3 a4).log = a4.log ∧ (evalRule a0 a1 a2 a3 a4).boot = a4.boot ∧ (evalRule a0 a1 a2 a3 a4).img = a4.img ∧
    (evalRule a0 a1 a2 a3 a4).reports = a4.reports ∧ (evalRule a0 a1 a2 a3 a4).posted = a4.posted ∧ (evalRule a0 a1 a2 a3 a4).nvPosted = a4.nvPosted ∧
    (∀ (c : Nat), Sys2Proof.Machine.hubc (evalRule a0 a1 a2 a3 a4) c = Sys2Proof.Machine.hubc a4 c) ∧ (∀ (x : Word), entity (evalRule a0 a1 a2 a3 a4) x = entity a4 x) ∧ (nowNs (evalRule a0 a1 a2 a3 a4) = nowNs a4 ) ∧
    (imgOf (evalRule a0 a1 a2 a3 a4) = imgOf a4 ) ∧ (serving (evalRule a0 a1 a2 a3 a4) = serving a4 ) ∧ (working (evalRule a0 a1 a2 a3 a4) = working a4 ) ∧
    (alive (evalRule a0 a1 a2 a3 a4) = alive a4 ) ∧ (upState (evalRule a0 a1 a2 a3 a4) = upState a4 ) ∧ (portOn (evalRule a0 a1 a2 a3 a4) = portOn a4 ) ∧
    (∀ (e : Env), dieNo e (evalRule a0 a1 a2 a3 a4) = dieNo e a4 ) ∧ (∀ (e : Env), nodeNo e (evalRule a0 a1 a2 a3 a4) = nodeNo e a4 ) ∧ (∀ (e : Env) (c : Nat), coreId e (evalRule a0 a1 a2 a3 a4) c = coreId e a4 c) ∧
    (∀ (e : Env) (c : Nat), unitId e (evalRule a0 a1 a2 a3 a4) c = unitId e a4 c) ∧ (∀ (c : Nat), chan (evalRule a0 a1 a2 a3 a4) c = chan a4 c) ∧ (∀ (x : Word), entOk (evalRule a0 a1 a2 a3 a4) x = entOk a4 x) ∧
    (∀ (c : Nat), groupOf (evalRule a0 a1 a2 a3 a4) c = groupOf a4 c) ∧ (∀ (c : Nat), probing (evalRule a0 a1 a2 a3 a4) c = probing a4 c) ∧ (∀ (e : Env) (x : Word), presentCore e (evalRule a0 a1 a2 a3 a4) x = presentCore e a4 x) := by
  have k := (evalRule_only a0 a1 a2 a3 a4).keep
  exact ⟨k .free (by decide), k .sys (by decide), k .isl (by decide), k .time (by decide), k .hubc (by decide), k .res (by decide), k .dig (by decide), k .xs (by decide), k .ens (by decide), k .casc (by decide), k .age (by decide), k .fab (by decide), k .sb (by decide), k .bc (by decide), k .jobs (by decide), k .mgt (by decide), k .cmd (by decide), k .prot (by decide), k .mem (by decide), k .dma (by decide), k .nid (by decide), k .log (by decide), k .boot (by decide), k .img (by decide), k .reports (by decide), k .ram (by decide), k .nvm (by decide), fun c => hubc_congr (k .hubc (by decide)) c, fun x => entity_congr (k .casc (by decide)) x, nowNs_congr (k .time (by decide)), imgOf_congr (k .img (by decide)), serving_congr (k .sys (by decide)), working_congr (k .sys (by decide)), alive_congr (k .sys (by decide)), upState_congr (k .sys (by decide)), portOn_congr (k .sys (by decide)), fun e  => dieNo_congr e (k .img (by decide)), fun e  => nodeNo_congr e (k .img (by decide)), fun e c => coreId_congr e (k .img (by decide)) c, fun e c => unitId_congr e (k .img (by decide)) c, fun c => chan_congr (k .cmd (by decide)) c, fun x => entOk_congr (k .img (by decide)) x, fun c => groupOf_congr (k .img (by decide)) (k .jobs (by decide)) c, fun c => probing_congr (k .age (by decide)) c, fun e x => presentCore_congr e (k .img (by decide)) x⟩

@[simp] theorem fireRule_reads (a0 a1 a2 a3) :
    (fireRule a0 a1 a2 a3).free = a3.free ∧ (fireRule a0 a1 a2 a3).sys = a3.sys ∧ (fireRule a0 a1 a2 a3).isl = a3.isl ∧
    (fireRule a0 a1 a2 a3).time = a3.time ∧ (fireRule a0 a1 a2 a3).hubc = a3.hubc ∧ (fireRule a0 a1 a2 a3).res = a3.res ∧
    (fireRule a0 a1 a2 a3).dig = a3.dig ∧ (fireRule a0 a1 a2 a3).xs = a3.xs ∧ (fireRule a0 a1 a2 a3).ens = a3.ens ∧
    (fireRule a0 a1 a2 a3).casc = a3.casc ∧ (fireRule a0 a1 a2 a3).age = a3.age ∧ (fireRule a0 a1 a2 a3).fab = a3.fab ∧
    (fireRule a0 a1 a2 a3).sb = a3.sb ∧ (fireRule a0 a1 a2 a3).bc = a3.bc ∧ (fireRule a0 a1 a2 a3).jobs = a3.jobs ∧
    (fireRule a0 a1 a2 a3).mgt = a3.mgt ∧ (fireRule a0 a1 a2 a3).cmd = a3.cmd ∧ (fireRule a0 a1 a2 a3).prot = a3.prot ∧
    (fireRule a0 a1 a2 a3).mem = a3.mem ∧ (fireRule a0 a1 a2 a3).dma = a3.dma ∧ (fireRule a0 a1 a2 a3).nid = a3.nid ∧
    (fireRule a0 a1 a2 a3).log = a3.log ∧ (fireRule a0 a1 a2 a3).boot = a3.boot ∧ (fireRule a0 a1 a2 a3).img = a3.img ∧
    (fireRule a0 a1 a2 a3).reports = a3.reports ∧ (fireRule a0 a1 a2 a3).posted = a3.posted ∧ (fireRule a0 a1 a2 a3).nvPosted = a3.nvPosted ∧
    (∀ (c : Nat), Sys2Proof.Machine.hubc (fireRule a0 a1 a2 a3) c = Sys2Proof.Machine.hubc a3 c) ∧ (∀ (x : Word), entity (fireRule a0 a1 a2 a3) x = entity a3 x) ∧ (nowNs (fireRule a0 a1 a2 a3) = nowNs a3 ) ∧
    (imgOf (fireRule a0 a1 a2 a3) = imgOf a3 ) ∧ (serving (fireRule a0 a1 a2 a3) = serving a3 ) ∧ (working (fireRule a0 a1 a2 a3) = working a3 ) ∧
    (alive (fireRule a0 a1 a2 a3) = alive a3 ) ∧ (upState (fireRule a0 a1 a2 a3) = upState a3 ) ∧ (portOn (fireRule a0 a1 a2 a3) = portOn a3 ) ∧
    (∀ (e : Env), dieNo e (fireRule a0 a1 a2 a3) = dieNo e a3 ) ∧ (∀ (e : Env), nodeNo e (fireRule a0 a1 a2 a3) = nodeNo e a3 ) ∧ (∀ (e : Env) (c : Nat), coreId e (fireRule a0 a1 a2 a3) c = coreId e a3 c) ∧
    (∀ (e : Env) (c : Nat), unitId e (fireRule a0 a1 a2 a3) c = unitId e a3 c) ∧ (∀ (c : Nat), chan (fireRule a0 a1 a2 a3) c = chan a3 c) ∧ (∀ (x : Word), entOk (fireRule a0 a1 a2 a3) x = entOk a3 x) ∧
    (∀ (c : Nat), groupOf (fireRule a0 a1 a2 a3) c = groupOf a3 c) ∧ (∀ (c : Nat), probing (fireRule a0 a1 a2 a3) c = probing a3 c) ∧ (∀ (e : Env) (x : Word), presentCore e (fireRule a0 a1 a2 a3) x = presentCore e a3 x) := by
  have k := (fireRule_only a0 a1 a2 a3).keep
  exact ⟨k .free (by decide), k .sys (by decide), k .isl (by decide), k .time (by decide), k .hubc (by decide), k .res (by decide), k .dig (by decide), k .xs (by decide), k .ens (by decide), k .casc (by decide), k .age (by decide), k .fab (by decide), k .sb (by decide), k .bc (by decide), k .jobs (by decide), k .mgt (by decide), k .cmd (by decide), k .prot (by decide), k .mem (by decide), k .dma (by decide), k .nid (by decide), k .log (by decide), k .boot (by decide), k .img (by decide), k .reports (by decide), k .ram (by decide), k .nvm (by decide), fun c => hubc_congr (k .hubc (by decide)) c, fun x => entity_congr (k .casc (by decide)) x, nowNs_congr (k .time (by decide)), imgOf_congr (k .img (by decide)), serving_congr (k .sys (by decide)), working_congr (k .sys (by decide)), alive_congr (k .sys (by decide)), upState_congr (k .sys (by decide)), portOn_congr (k .sys (by decide)), fun e  => dieNo_congr e (k .img (by decide)), fun e  => nodeNo_congr e (k .img (by decide)), fun e c => coreId_congr e (k .img (by decide)) c, fun e c => unitId_congr e (k .img (by decide)) c, fun c => chan_congr (k .cmd (by decide)) c, fun x => entOk_congr (k .img (by decide)) x, fun c => groupOf_congr (k .img (by decide)) (k .jobs (by decide)) c, fun c => probing_congr (k .age (by decide)) c, fun e x => presentCore_congr e (k .img (by decide)) x⟩

@[simp] theorem setFloor_reads (a0 a1 a2 a3) :
    (setFloor a0 a1 a2 a3).free = a3.free ∧ (setFloor a0 a1 a2 a3).sys = a3.sys ∧ (setFloor a0 a1 a2 a3).isl = a3.isl ∧
    (setFloor a0 a1 a2 a3).time = a3.time ∧ (setFloor a0 a1 a2 a3).regions = a3.regions ∧ (setFloor a0 a1 a2 a3).cells = a3.cells ∧
    (setFloor a0 a1 a2 a3).hubc = a3.hubc ∧ (setFloor a0 a1 a2 a3).res = a3.res ∧ (setFloor a0 a1 a2 a3).dig = a3.dig ∧
    (setFloor a0 a1 a2 a3).xs = a3.xs ∧ (setFloor a0 a1 a2 a3).ens = a3.ens ∧ (setFloor a0 a1 a2 a3).age = a3.age ∧
    (setFloor a0 a1 a2 a3).fab = a3.fab ∧ (setFloor a0 a1 a2 a3).sb = a3.sb ∧ (setFloor a0 a1 a2 a3).bc = a3.bc ∧
    (setFloor a0 a1 a2 a3).jobs = a3.jobs ∧ (setFloor a0 a1 a2 a3).mgt = a3.mgt ∧ (setFloor a0 a1 a2 a3).cmd = a3.cmd ∧
    (setFloor a0 a1 a2 a3).prot = a3.prot ∧ (setFloor a0 a1 a2 a3).regs = a3.regs ∧ (setFloor a0 a1 a2 a3).mem = a3.mem ∧
    (setFloor a0 a1 a2 a3).dma = a3.dma ∧ (setFloor a0 a1 a2 a3).trc = a3.trc ∧ (setFloor a0 a1 a2 a3).nid = a3.nid ∧
    (setFloor a0 a1 a2 a3).log = a3.log ∧ (setFloor a0 a1 a2 a3).boot = a3.boot ∧ (setFloor a0 a1 a2 a3).img = a3.img ∧
    (setFloor a0 a1 a2 a3).reports = a3.reports ∧ (setFloor a0 a1 a2 a3).posted = a3.posted ∧ (setFloor a0 a1 a2 a3).nvPosted = a3.nvPosted ∧
    (∀ (c : Nat), cell (setFloor a0 a1 a2 a3) c = cell a3 c) ∧ (∀ (c : Nat), Sys2Proof.Machine.hubc (setFloor a0 a1 a2 a3) c = Sys2Proof.Machine.hubc a3 c) ∧ (∀ (c : Nat), region (setFloor a0 a1 a2 a3) c = region a3 c) ∧
    (nowNs (setFloor a0 a1 a2 a3) = nowNs a3 ) ∧ (imgOf (setFloor a0 a1 a2 a3) = imgOf a3 ) ∧ (serving (setFloor a0 a1 a2 a3) = serving a3 ) ∧
    (working (setFloor a0 a1 a2 a3) = working a3 ) ∧ (alive (setFloor a0 a1 a2 a3) = alive a3 ) ∧ (upState (setFloor a0 a1 a2 a3) = upState a3 ) ∧
    (portOn (setFloor a0 a1 a2 a3) = portOn a3 ) ∧ (∀ (e : Env), dieNo e (setFloor a0 a1 a2 a3) = dieNo e a3 ) ∧ (∀ (e : Env), nodeNo e (setFloor a0 a1 a2 a3) = nodeNo e a3 ) ∧
    (∀ (e : Env) (c : Nat), coreId e (setFloor a0 a1 a2 a3) c = coreId e a3 c) ∧ (∀ (e : Env) (c : Nat), unitId e (setFloor a0 a1 a2 a3) c = unitId e a3 c) ∧ (∀ (c : Nat), chan (setFloor a0 a1 a2 a3) c = chan a3 c) ∧
    (∀ (x : Word), entOk (setFloor a0 a1 a2 a3) x = entOk a3 x) ∧ (∀ (c : Nat), groupOf (setFloor a0 a1 a2 a3) c = groupOf a3 c) ∧ (∀ (c : Nat), probing (setFloor a0 a1 a2 a3) c = probing a3 c) ∧
    (∀ (e : Env) (x : Word), presentCore e (setFloor a0 a1 a2 a3) x = presentCore e a3 x) := by
  have k := (setFloor_only a0 a1 a2 a3).keep
  exact ⟨k .free (by decide), k .sys (by decide), k .isl (by decide), k .time (by decide), k .regions (by decide), k .cells (by decide), k .hubc (by decide), k .res (by decide), k .dig (by decide), k .xs (by decide), k .ens (by decide), k .age (by decide), k .fab (by decide), k .sb (by decide), k .bc (by decide), k .jobs (by decide), k .mgt (by decide), k .cmd (by decide), k .prot (by decide), k .regs (by decide), k .mem (by decide), k .dma (by decide), k .trc (by decide), k .nid (by decide), k .log (by decide), k .boot (by decide), k .img (by decide), k .reports (by decide), k .ram (by decide), k .nvm (by decide), fun c => cell_congr (k .cells (by decide)) c, fun c => hubc_congr (k .hubc (by decide)) c, fun c => region_congr (k .regions (by decide)) c, nowNs_congr (k .time (by decide)), imgOf_congr (k .img (by decide)), serving_congr (k .sys (by decide)), working_congr (k .sys (by decide)), alive_congr (k .sys (by decide)), upState_congr (k .sys (by decide)), portOn_congr (k .sys (by decide)), fun e  => dieNo_congr e (k .img (by decide)), fun e  => nodeNo_congr e (k .img (by decide)), fun e c => coreId_congr e (k .img (by decide)) c, fun e c => unitId_congr e (k .img (by decide)) c, fun c => chan_congr (k .cmd (by decide)) c, fun x => entOk_congr (k .img (by decide)) x, fun c => groupOf_congr (k .img (by decide)) (k .jobs (by decide)) c, fun c => probing_congr (k .age (by decide)) c, fun e x => presentCore_congr e (k .img (by decide)) x⟩

@[simp] theorem mark_reads (a0 a1 a2 a3 a4 a5) :
    (mark a0 a1 a2 a3 a4 a5).free = a5.free ∧ (mark a0 a1 a2 a3 a4 a5).sys = a5.sys ∧ (mark a0 a1 a2 a3 a4 a5).isl = a5.isl ∧
    (mark a0 a1 a2 a3 a4 a5).time = a5.time ∧ (mark a0 a1 a2 a3 a4 a5).hubc = a5.hubc ∧ (mark a0 a1 a2 a3 a4 a5).res = a5.res ∧
    (mark a0 a1 a2 a3 a4 a5).dig = a5.dig ∧ (mark a0 a1 a2 a3 a4 a5).xs = a5.xs ∧ (mark a0 a1 a2 a3 a4 a5).ens = a5.ens ∧
    (mark a0 a1 a2 a3 a4 a5).casc = a5.casc ∧ (mark a0 a1 a2 a3 a4 a5).age = a5.age ∧ (mark a0 a1 a2 a3 a4 a5).fab = a5.fab ∧
    (mark a0 a1 a2 a3 a4 a5).sb = a5.sb ∧ (mark a0 a1 a2 a3 a4 a5).bc = a5.bc ∧ (mark a0 a1 a2 a3 a4 a5).jobs = a5.jobs ∧
    (mark a0 a1 a2 a3 a4 a5).mgt = a5.mgt ∧ (mark a0 a1 a2 a3 a4 a5).cmd = a5.cmd ∧ (mark a0 a1 a2 a3 a4 a5).prot = a5.prot ∧
    (mark a0 a1 a2 a3 a4 a5).mem = a5.mem ∧ (mark a0 a1 a2 a3 a4 a5).dma = a5.dma ∧ (mark a0 a1 a2 a3 a4 a5).nid = a5.nid ∧
    (mark a0 a1 a2 a3 a4 a5).log = a5.log ∧ (mark a0 a1 a2 a3 a4 a5).boot = a5.boot ∧ (mark a0 a1 a2 a3 a4 a5).img = a5.img ∧
    (mark a0 a1 a2 a3 a4 a5).reports = a5.reports ∧ (mark a0 a1 a2 a3 a4 a5).posted = a5.posted ∧ (mark a0 a1 a2 a3 a4 a5).nvPosted = a5.nvPosted ∧
    (∀ (c : Nat), Sys2Proof.Machine.hubc (mark a0 a1 a2 a3 a4 a5) c = Sys2Proof.Machine.hubc a5 c) ∧ (∀ (x : Word), entity (mark a0 a1 a2 a3 a4 a5) x = entity a5 x) ∧ (nowNs (mark a0 a1 a2 a3 a4 a5) = nowNs a5 ) ∧
    (imgOf (mark a0 a1 a2 a3 a4 a5) = imgOf a5 ) ∧ (serving (mark a0 a1 a2 a3 a4 a5) = serving a5 ) ∧ (working (mark a0 a1 a2 a3 a4 a5) = working a5 ) ∧
    (alive (mark a0 a1 a2 a3 a4 a5) = alive a5 ) ∧ (upState (mark a0 a1 a2 a3 a4 a5) = upState a5 ) ∧ (portOn (mark a0 a1 a2 a3 a4 a5) = portOn a5 ) ∧
    (∀ (e : Env), dieNo e (mark a0 a1 a2 a3 a4 a5) = dieNo e a5 ) ∧ (∀ (e : Env), nodeNo e (mark a0 a1 a2 a3 a4 a5) = nodeNo e a5 ) ∧ (∀ (e : Env) (c : Nat), coreId e (mark a0 a1 a2 a3 a4 a5) c = coreId e a5 c) ∧
    (∀ (e : Env) (c : Nat), unitId e (mark a0 a1 a2 a3 a4 a5) c = unitId e a5 c) ∧ (∀ (c : Nat), chan (mark a0 a1 a2 a3 a4 a5) c = chan a5 c) ∧ (∀ (x : Word), entOk (mark a0 a1 a2 a3 a4 a5) x = entOk a5 x) ∧
    (∀ (c : Nat), groupOf (mark a0 a1 a2 a3 a4 a5) c = groupOf a5 c) ∧ (∀ (c : Nat), probing (mark a0 a1 a2 a3 a4 a5) c = probing a5 c) ∧ (∀ (e : Env) (x : Word), presentCore e (mark a0 a1 a2 a3 a4 a5) x = presentCore e a5 x) := by
  have k := (mark_only a0 a1 a2 a3 a4 a5).keep
  exact ⟨k .free (by decide), k .sys (by decide), k .isl (by decide), k .time (by decide), k .hubc (by decide), k .res (by decide), k .dig (by decide), k .xs (by decide), k .ens (by decide), k .casc (by decide), k .age (by decide), k .fab (by decide), k .sb (by decide), k .bc (by decide), k .jobs (by decide), k .mgt (by decide), k .cmd (by decide), k .prot (by decide), k .mem (by decide), k .dma (by decide), k .nid (by decide), k .log (by decide), k .boot (by decide), k .img (by decide), k .reports (by decide), k .ram (by decide), k .nvm (by decide), fun c => hubc_congr (k .hubc (by decide)) c, fun x => entity_congr (k .casc (by decide)) x, nowNs_congr (k .time (by decide)), imgOf_congr (k .img (by decide)), serving_congr (k .sys (by decide)), working_congr (k .sys (by decide)), alive_congr (k .sys (by decide)), upState_congr (k .sys (by decide)), portOn_congr (k .sys (by decide)), fun e  => dieNo_congr e (k .img (by decide)), fun e  => nodeNo_congr e (k .img (by decide)), fun e c => coreId_congr e (k .img (by decide)) c, fun e c => unitId_congr e (k .img (by decide)) c, fun c => chan_congr (k .cmd (by decide)) c, fun x => entOk_congr (k .img (by decide)) x, fun c => groupOf_congr (k .img (by decide)) (k .jobs (by decide)) c, fun c => probing_congr (k .age (by decide)) c, fun e x => presentCore_congr e (k .img (by decide)) x⟩

@[simp] theorem turnDone_reads (a0 a1 a2) :
    (turnDone a0 a1 a2).free = a2.free ∧ (turnDone a0 a1 a2).sys = a2.sys ∧ (turnDone a0 a1 a2).isl = a2.isl ∧
    (turnDone a0 a1 a2).time = a2.time ∧ (turnDone a0 a1 a2).hubc = a2.hubc ∧ (turnDone a0 a1 a2).res = a2.res ∧
    (turnDone a0 a1 a2).dig = a2.dig ∧ (turnDone a0 a1 a2).xs = a2.xs ∧ (turnDone a0 a1 a2).ens = a2.ens ∧
    (turnDone a0 a1 a2).casc = a2.casc ∧ (turnDone a0 a1 a2).age = a2.age ∧ (turnDone a0 a1 a2).fab = a2.fab ∧
    (turnDone a0 a1 a2).sb = a2.sb ∧ (turnDone a0 a1 a2).bc = a2.bc ∧ (turnDone a0 a1 a2).jobs = a2.jobs ∧
    (turnDone a0 a1 a2).mgt = a2.mgt ∧ (turnDone a0 a1 a2).cmd = a2.cmd ∧ (turnDone a0 a1 a2).prot = a2.prot ∧
    (turnDone a0 a1 a2).regs = a2.regs ∧ (turnDone a0 a1 a2).mem = a2.mem ∧ (turnDone a0 a1 a2).dma = a2.dma ∧
    (turnDone a0 a1 a2).trc = a2.trc ∧ (turnDone a0 a1 a2).nid = a2.nid ∧ (turnDone a0 a1 a2).log = a2.log ∧
    (turnDone a0 a1 a2).boot = a2.boot ∧ (turnDone a0 a1 a2).img = a2.img ∧ (turnDone a0 a1 a2).reports = a2.reports ∧
    (turnDone a0 a1 a2).posted = a2.posted ∧ (turnDone a0 a1 a2).nvPosted = a2.nvPosted ∧ (∀ (c : Nat), Sys2Proof.Machine.hubc (turnDone a0 a1 a2) c = Sys2Proof.Machine.hubc a2 c) ∧
    (∀ (x : Word), entity (turnDone a0 a1 a2) x = entity a2 x) ∧ (nowNs (turnDone a0 a1 a2) = nowNs a2 ) ∧ (imgOf (turnDone a0 a1 a2) = imgOf a2 ) ∧
    (serving (turnDone a0 a1 a2) = serving a2 ) ∧ (working (turnDone a0 a1 a2) = working a2 ) ∧ (alive (turnDone a0 a1 a2) = alive a2 ) ∧
    (upState (turnDone a0 a1 a2) = upState a2 ) ∧ (portOn (turnDone a0 a1 a2) = portOn a2 ) ∧ (∀ (e : Env), dieNo e (turnDone a0 a1 a2) = dieNo e a2 ) ∧
    (∀ (e : Env), nodeNo e (turnDone a0 a1 a2) = nodeNo e a2 ) ∧ (∀ (e : Env) (c : Nat), coreId e (turnDone a0 a1 a2) c = coreId e a2 c) ∧ (∀ (e : Env) (c : Nat), unitId e (turnDone a0 a1 a2) c = unitId e a2 c) ∧
    (∀ (c : Nat), chan (turnDone a0 a1 a2) c = chan a2 c) ∧ (∀ (x : Word), entOk (turnDone a0 a1 a2) x = entOk a2 x) ∧ (∀ (c : Nat), groupOf (turnDone a0 a1 a2) c = groupOf a2 c) ∧
    (∀ (c : Nat), probing (turnDone a0 a1 a2) c = probing a2 c) ∧ (∀ (e : Env) (x : Word), presentCore e (turnDone a0 a1 a2) x = presentCore e a2 x) := by
  have k := (turnDone_only a0 a1 a2).keep
  exact ⟨k .free (by decide), k .sys (by decide), k .isl (by decide), k .time (by decide), k .hubc (by decide), k .res (by decide), k .dig (by decide), k .xs (by decide), k .ens (by decide), k .casc (by decide), k .age (by decide), k .fab (by decide), k .sb (by decide), k .bc (by decide), k .jobs (by decide), k .mgt (by decide), k .cmd (by decide), k .prot (by decide), k .regs (by decide), k .mem (by decide), k .dma (by decide), k .trc (by decide), k .nid (by decide), k .log (by decide), k .boot (by decide), k .img (by decide), k .reports (by decide), k .ram (by decide), k .nvm (by decide), fun c => hubc_congr (k .hubc (by decide)) c, fun x => entity_congr (k .casc (by decide)) x, nowNs_congr (k .time (by decide)), imgOf_congr (k .img (by decide)), serving_congr (k .sys (by decide)), working_congr (k .sys (by decide)), alive_congr (k .sys (by decide)), upState_congr (k .sys (by decide)), portOn_congr (k .sys (by decide)), fun e  => dieNo_congr e (k .img (by decide)), fun e  => nodeNo_congr e (k .img (by decide)), fun e c => coreId_congr e (k .img (by decide)) c, fun e c => unitId_congr e (k .img (by decide)) c, fun c => chan_congr (k .cmd (by decide)) c, fun x => entOk_congr (k .img (by decide)) x, fun c => groupOf_congr (k .img (by decide)) (k .jobs (by decide)) c, fun c => probing_congr (k .age (by decide)) c, fun e x => presentCore_congr e (k .img (by decide)) x⟩

@[simp] theorem acceptGood_reads (a0 a1 a2) :
    (acceptGood a0 a1 a2).free = a2.free ∧ (acceptGood a0 a1 a2).sys = a2.sys ∧ (acceptGood a0 a1 a2).isl = a2.isl ∧
    (acceptGood a0 a1 a2).time = a2.time ∧ (acceptGood a0 a1 a2).cells = a2.cells ∧ (acceptGood a0 a1 a2).dig = a2.dig ∧
    (acceptGood a0 a1 a2).xs = a2.xs ∧ (acceptGood a0 a1 a2).fab = a2.fab ∧ (acceptGood a0 a1 a2).sb = a2.sb ∧
    (acceptGood a0 a1 a2).bc = a2.bc ∧ (acceptGood a0 a1 a2).jobs = a2.jobs ∧ (acceptGood a0 a1 a2).mgt = a2.mgt ∧
    (acceptGood a0 a1 a2).cmd = a2.cmd ∧ (acceptGood a0 a1 a2).prot = a2.prot ∧ (acceptGood a0 a1 a2).dma = a2.dma ∧
    (acceptGood a0 a1 a2).trc = a2.trc ∧ (acceptGood a0 a1 a2).nid = a2.nid ∧ (acceptGood a0 a1 a2).boot = a2.boot ∧
    (acceptGood a0 a1 a2).img = a2.img ∧ (acceptGood a0 a1 a2).reports = a2.reports ∧ (acceptGood a0 a1 a2).posted = a2.posted ∧
    (acceptGood a0 a1 a2).nvPosted = a2.nvPosted ∧ (∀ (c : Nat), cell (acceptGood a0 a1 a2) c = cell a2 c) ∧ (nowNs (acceptGood a0 a1 a2) = nowNs a2 ) ∧
    (imgOf (acceptGood a0 a1 a2) = imgOf a2 ) ∧ (serving (acceptGood a0 a1 a2) = serving a2 ) ∧ (working (acceptGood a0 a1 a2) = working a2 ) ∧
    (alive (acceptGood a0 a1 a2) = alive a2 ) ∧ (upState (acceptGood a0 a1 a2) = upState a2 ) ∧ (portOn (acceptGood a0 a1 a2) = portOn a2 ) ∧
    (∀ (e : Env), dieNo e (acceptGood a0 a1 a2) = dieNo e a2 ) ∧ (∀ (e : Env), nodeNo e (acceptGood a0 a1 a2) = nodeNo e a2 ) ∧ (∀ (e : Env) (c : Nat), coreId e (acceptGood a0 a1 a2) c = coreId e a2 c) ∧
    (∀ (e : Env) (c : Nat), unitId e (acceptGood a0 a1 a2) c = unitId e a2 c) ∧ (∀ (c : Nat), chan (acceptGood a0 a1 a2) c = chan a2 c) ∧ (∀ (x : Word), entOk (acceptGood a0 a1 a2) x = entOk a2 x) ∧
    (∀ (c : Nat), groupOf (acceptGood a0 a1 a2) c = groupOf a2 c) ∧ (∀ (e : Env) (x : Word), presentCore e (acceptGood a0 a1 a2) x = presentCore e a2 x) := by
  have k := (acceptGood_only a0 a1 a2).keep
  exact ⟨k .free (by decide), k .sys (by decide), k .isl (by decide), k .time (by decide), k .cells (by decide), k .dig (by decide), k .xs (by decide), k .fab (by decide), k .sb (by decide), k .bc (by decide), k .jobs (by decide), k .mgt (by decide), k .cmd (by decide), k .prot (by decide), k .dma (by decide), k .trc (by decide), k .nid (by decide), k .boot (by decide), k .img (by decide), k .reports (by decide), k .ram (by decide), k .nvm (by decide), fun c => cell_congr (k .cells (by decide)) c, nowNs_congr (k .time (by decide)), imgOf_congr (k .img (by decide)), serving_congr (k .sys (by decide)), working_congr (k .sys (by decide)), alive_congr (k .sys (by decide)), upState_congr (k .sys (by decide)), portOn_congr (k .sys (by decide)), fun e  => dieNo_congr e (k .img (by decide)), fun e  => nodeNo_congr e (k .img (by decide)), fun e c => coreId_congr e (k .img (by decide)) c, fun e c => unitId_congr e (k .img (by decide)) c, fun c => chan_congr (k .cmd (by decide)) c, fun x => entOk_congr (k .img (by decide)) x, fun c => groupOf_congr (k .img (by decide)) (k .jobs (by decide)) c, fun e x => presentCore_congr e (k .img (by decide)) x⟩

@[simp] theorem acceptBad_reads (a0 a1 a2) :
    (acceptBad a0 a1 a2).free = a2.free ∧ (acceptBad a0 a1 a2).sys = a2.sys ∧ (acceptBad a0 a1 a2).isl = a2.isl ∧
    (acceptBad a0 a1 a2).time = a2.time ∧ (acceptBad a0 a1 a2).regions = a2.regions ∧ (acceptBad a0 a1 a2).cells = a2.cells ∧
    (acceptBad a0 a1 a2).res = a2.res ∧ (acceptBad a0 a1 a2).dig = a2.dig ∧ (acceptBad a0 a1 a2).xs = a2.xs ∧
    (acceptBad a0 a1 a2).fab = a2.fab ∧ (acceptBad a0 a1 a2).sb = a2.sb ∧ (acceptBad a0 a1 a2).bc = a2.bc ∧
    (acceptBad a0 a1 a2).jobs = a2.jobs ∧ (acceptBad a0 a1 a2).mgt = a2.mgt ∧ (acceptBad a0 a1 a2).cmd = a2.cmd ∧
    (acceptBad a0 a1 a2).prot = a2.prot ∧ (acceptBad a0 a1 a2).dma = a2.dma ∧ (acceptBad a0 a1 a2).trc = a2.trc ∧
    (acceptBad a0 a1 a2).nid = a2.nid ∧ (acceptBad a0 a1 a2).boot = a2.boot ∧ (acceptBad a0 a1 a2).img = a2.img ∧
    (acceptBad a0 a1 a2).reports = a2.reports ∧ (acceptBad a0 a1 a2).posted = a2.posted ∧ (acceptBad a0 a1 a2).nvPosted = a2.nvPosted ∧
    (∀ (c : Nat), cell (acceptBad a0 a1 a2) c = cell a2 c) ∧ (∀ (c : Nat), region (acceptBad a0 a1 a2) c = region a2 c) ∧ (nowNs (acceptBad a0 a1 a2) = nowNs a2 ) ∧
    (imgOf (acceptBad a0 a1 a2) = imgOf a2 ) ∧ (serving (acceptBad a0 a1 a2) = serving a2 ) ∧ (working (acceptBad a0 a1 a2) = working a2 ) ∧
    (alive (acceptBad a0 a1 a2) = alive a2 ) ∧ (upState (acceptBad a0 a1 a2) = upState a2 ) ∧ (portOn (acceptBad a0 a1 a2) = portOn a2 ) ∧
    (∀ (e : Env), dieNo e (acceptBad a0 a1 a2) = dieNo e a2 ) ∧ (∀ (e : Env), nodeNo e (acceptBad a0 a1 a2) = nodeNo e a2 ) ∧ (∀ (e : Env) (c : Nat), coreId e (acceptBad a0 a1 a2) c = coreId e a2 c) ∧
    (∀ (e : Env) (c : Nat), unitId e (acceptBad a0 a1 a2) c = unitId e a2 c) ∧ (∀ (c : Nat), chan (acceptBad a0 a1 a2) c = chan a2 c) ∧ (∀ (x : Word), entOk (acceptBad a0 a1 a2) x = entOk a2 x) ∧
    (∀ (c : Nat), groupOf (acceptBad a0 a1 a2) c = groupOf a2 c) ∧ (∀ (e : Env) (x : Word), presentCore e (acceptBad a0 a1 a2) x = presentCore e a2 x) := by
  have k := (acceptBad_only a0 a1 a2).keep
  exact ⟨k .free (by decide), k .sys (by decide), k .isl (by decide), k .time (by decide), k .regions (by decide), k .cells (by decide), k .res (by decide), k .dig (by decide), k .xs (by decide), k .fab (by decide), k .sb (by decide), k .bc (by decide), k .jobs (by decide), k .mgt (by decide), k .cmd (by decide), k .prot (by decide), k .dma (by decide), k .trc (by decide), k .nid (by decide), k .boot (by decide), k .img (by decide), k .reports (by decide), k .ram (by decide), k .nvm (by decide), fun c => cell_congr (k .cells (by decide)) c, fun c => region_congr (k .regions (by decide)) c, nowNs_congr (k .time (by decide)), imgOf_congr (k .img (by decide)), serving_congr (k .sys (by decide)), working_congr (k .sys (by decide)), alive_congr (k .sys (by decide)), upState_congr (k .sys (by decide)), portOn_congr (k .sys (by decide)), fun e  => dieNo_congr e (k .img (by decide)), fun e  => nodeNo_congr e (k .img (by decide)), fun e c => coreId_congr e (k .img (by decide)) c, fun e c => unitId_congr e (k .img (by decide)) c, fun c => chan_congr (k .cmd (by decide)) c, fun x => entOk_congr (k .img (by decide)) x, fun c => groupOf_congr (k .img (by decide)) (k .jobs (by decide)) c, fun e x => presentCore_congr e (k .img (by decide)) x⟩

@[simp] theorem epochArrives_reads (a0 a1 a2) :
    (epochArrives a0 a1 a2).free = a2.free ∧ (epochArrives a0 a1 a2).sys = a2.sys ∧ (epochArrives a0 a1 a2).isl = a2.isl ∧
    (epochArrives a0 a1 a2).time = a2.time ∧ (epochArrives a0 a1 a2).cells = a2.cells ∧ (epochArrives a0 a1 a2).hubc = a2.hubc ∧
    (epochArrives a0 a1 a2).res = a2.res ∧ (epochArrives a0 a1 a2).dig = a2.dig ∧ (epochArrives a0 a1 a2).xs = a2.xs ∧
    (epochArrives a0 a1 a2).fab = a2.fab ∧ (epochArrives a0 a1 a2).sb = a2.sb ∧ (epochArrives a0 a1 a2).bc = a2.bc ∧
    (epochArrives a0 a1 a2).jobs = a2.jobs ∧ (epochArrives a0 a1 a2).mgt = a2.mgt ∧ (epochArrives a0 a1 a2).cmd = a2.cmd ∧
    (epochArrives a0 a1 a2).prot = a2.prot ∧ (epochArrives a0 a1 a2).dma = a2.dma ∧ (epochArrives a0 a1 a2).trc = a2.trc ∧
    (epochArrives a0 a1 a2).nid = a2.nid ∧ (epochArrives a0 a1 a2).boot = a2.boot ∧ (epochArrives a0 a1 a2).img = a2.img ∧
    (epochArrives a0 a1 a2).reports = a2.reports ∧ (epochArrives a0 a1 a2).posted = a2.posted ∧ (epochArrives a0 a1 a2).nvPosted = a2.nvPosted ∧
    (∀ (c : Nat), cell (epochArrives a0 a1 a2) c = cell a2 c) ∧ (∀ (c : Nat), Sys2Proof.Machine.hubc (epochArrives a0 a1 a2) c = Sys2Proof.Machine.hubc a2 c) ∧ (nowNs (epochArrives a0 a1 a2) = nowNs a2 ) ∧
    (imgOf (epochArrives a0 a1 a2) = imgOf a2 ) ∧ (serving (epochArrives a0 a1 a2) = serving a2 ) ∧ (working (epochArrives a0 a1 a2) = working a2 ) ∧
    (alive (epochArrives a0 a1 a2) = alive a2 ) ∧ (upState (epochArrives a0 a1 a2) = upState a2 ) ∧ (portOn (epochArrives a0 a1 a2) = portOn a2 ) ∧
    (∀ (e : Env), dieNo e (epochArrives a0 a1 a2) = dieNo e a2 ) ∧ (∀ (e : Env), nodeNo e (epochArrives a0 a1 a2) = nodeNo e a2 ) ∧ (∀ (e : Env) (c : Nat), coreId e (epochArrives a0 a1 a2) c = coreId e a2 c) ∧
    (∀ (e : Env) (c : Nat), unitId e (epochArrives a0 a1 a2) c = unitId e a2 c) ∧ (∀ (c : Nat), chan (epochArrives a0 a1 a2) c = chan a2 c) ∧ (∀ (x : Word), entOk (epochArrives a0 a1 a2) x = entOk a2 x) ∧
    (∀ (c : Nat), groupOf (epochArrives a0 a1 a2) c = groupOf a2 c) ∧ (∀ (e : Env) (x : Word), presentCore e (epochArrives a0 a1 a2) x = presentCore e a2 x) := by
  have k := (epochArrives_only a0 a1 a2).keep
  exact ⟨k .free (by decide), k .sys (by decide), k .isl (by decide), k .time (by decide), k .cells (by decide), k .hubc (by decide), k .res (by decide), k .dig (by decide), k .xs (by decide), k .fab (by decide), k .sb (by decide), k .bc (by decide), k .jobs (by decide), k .mgt (by decide), k .cmd (by decide), k .prot (by decide), k .dma (by decide), k .trc (by decide), k .nid (by decide), k .boot (by decide), k .img (by decide), k .reports (by decide), k .ram (by decide), k .nvm (by decide), fun c => cell_congr (k .cells (by decide)) c, fun c => hubc_congr (k .hubc (by decide)) c, nowNs_congr (k .time (by decide)), imgOf_congr (k .img (by decide)), serving_congr (k .sys (by decide)), working_congr (k .sys (by decide)), alive_congr (k .sys (by decide)), upState_congr (k .sys (by decide)), portOn_congr (k .sys (by decide)), fun e  => dieNo_congr e (k .img (by decide)), fun e  => nodeNo_congr e (k .img (by decide)), fun e c => coreId_congr e (k .img (by decide)) c, fun e c => unitId_congr e (k .img (by decide)) c, fun c => chan_congr (k .cmd (by decide)) c, fun x => entOk_congr (k .img (by decide)) x, fun c => groupOf_congr (k .img (by decide)) (k .jobs (by decide)) c, fun e x => presentCore_congr e (k .img (by decide)) x⟩

@[simp] theorem countLost_reads (a0 a1 a2) :
    (countLost a0 a1 a2).free = a2.free ∧ (countLost a0 a1 a2).sys = a2.sys ∧ (countLost a0 a1 a2).isl = a2.isl ∧
    (countLost a0 a1 a2).time = a2.time ∧ (countLost a0 a1 a2).regions = a2.regions ∧ (countLost a0 a1 a2).cells = a2.cells ∧
    (countLost a0 a1 a2).dig = a2.dig ∧ (countLost a0 a1 a2).xs = a2.xs ∧ (countLost a0 a1 a2).casc = a2.casc ∧
    (countLost a0 a1 a2).age = a2.age ∧ (countLost a0 a1 a2).fab = a2.fab ∧ (countLost a0 a1 a2).sb = a2.sb ∧
    (countLost a0 a1 a2).bc = a2.bc ∧ (countLost a0 a1 a2).jobs = a2.jobs ∧ (countLost a0 a1 a2).mgt = a2.mgt ∧
    (countLost a0 a1 a2).cmd = a2.cmd ∧ (countLost a0 a1 a2).prot = a2.prot ∧ (countLost a0 a1 a2).dma = a2.dma ∧
    (countLost a0 a1 a2).trc = a2.trc ∧ (countLost a0 a1 a2).nid = a2.nid ∧ (countLost a0 a1 a2).boot = a2.boot ∧
    (countLost a0 a1 a2).img = a2.img ∧ (countLost a0 a1 a2).reports = a2.reports ∧ (countLost a0 a1 a2).posted = a2.posted ∧
    (countLost a0 a1 a2).nvPosted = a2.nvPosted ∧ (∀ (c : Nat), cell (countLost a0 a1 a2) c = cell a2 c) ∧ (∀ (c : Nat), region (countLost a0 a1 a2) c = region a2 c) ∧
    (∀ (x : Word), entity (countLost a0 a1 a2) x = entity a2 x) ∧ (nowNs (countLost a0 a1 a2) = nowNs a2 ) ∧ (imgOf (countLost a0 a1 a2) = imgOf a2 ) ∧
    (serving (countLost a0 a1 a2) = serving a2 ) ∧ (working (countLost a0 a1 a2) = working a2 ) ∧ (alive (countLost a0 a1 a2) = alive a2 ) ∧
    (upState (countLost a0 a1 a2) = upState a2 ) ∧ (portOn (countLost a0 a1 a2) = portOn a2 ) ∧ (∀ (e : Env), dieNo e (countLost a0 a1 a2) = dieNo e a2 ) ∧
    (∀ (e : Env), nodeNo e (countLost a0 a1 a2) = nodeNo e a2 ) ∧ (∀ (e : Env) (c : Nat), coreId e (countLost a0 a1 a2) c = coreId e a2 c) ∧ (∀ (e : Env) (c : Nat), unitId e (countLost a0 a1 a2) c = unitId e a2 c) ∧
    (∀ (c : Nat), chan (countLost a0 a1 a2) c = chan a2 c) ∧ (∀ (x : Word), entOk (countLost a0 a1 a2) x = entOk a2 x) ∧ (∀ (c : Nat), groupOf (countLost a0 a1 a2) c = groupOf a2 c) ∧
    (∀ (c : Nat), probing (countLost a0 a1 a2) c = probing a2 c) ∧ (∀ (e : Env) (x : Word), presentCore e (countLost a0 a1 a2) x = presentCore e a2 x) := by
  have k := (countLost_only a0 a1 a2).keep
  exact ⟨k .free (by decide), k .sys (by decide), k .isl (by decide), k .time (by decide), k .regions (by decide), k .cells (by decide), k .dig (by decide), k .xs (by decide), k .casc (by decide), k .age (by decide), k .fab (by decide), k .sb (by decide), k .bc (by decide), k .jobs (by decide), k .mgt (by decide), k .cmd (by decide), k .prot (by decide), k .dma (by decide), k .trc (by decide), k .nid (by decide), k .boot (by decide), k .img (by decide), k .reports (by decide), k .ram (by decide), k .nvm (by decide), fun c => cell_congr (k .cells (by decide)) c, fun c => region_congr (k .regions (by decide)) c, fun x => entity_congr (k .casc (by decide)) x, nowNs_congr (k .time (by decide)), imgOf_congr (k .img (by decide)), serving_congr (k .sys (by decide)), working_congr (k .sys (by decide)), alive_congr (k .sys (by decide)), upState_congr (k .sys (by decide)), portOn_congr (k .sys (by decide)), fun e  => dieNo_congr e (k .img (by decide)), fun e  => nodeNo_congr e (k .img (by decide)), fun e c => coreId_congr e (k .img (by decide)) c, fun e c => unitId_congr e (k .img (by decide)) c, fun c => chan_congr (k .cmd (by decide)) c, fun x => entOk_congr (k .img (by decide)) x, fun c => groupOf_congr (k .img (by decide)) (k .jobs (by decide)) c, fun c => probing_congr (k .age (by decide)) c, fun e x => presentCore_congr e (k .img (by decide)) x⟩

@[simp] theorem cellFault_reads (a0 a1 a2 a3) :
    (cellFault a0 a1 a2 a3).free = a3.free ∧ (cellFault a0 a1 a2 a3).sys = a3.sys ∧ (cellFault a0 a1 a2 a3).isl = a3.isl ∧
    (cellFault a0 a1 a2 a3).time = a3.time ∧ (cellFault a0 a1 a2 a3).regions = a3.regions ∧ (cellFault a0 a1 a2 a3).cells = a3.cells ∧
    (cellFault a0 a1 a2 a3).hubc = a3.hubc ∧ (cellFault a0 a1 a2 a3).res = a3.res ∧ (cellFault a0 a1 a2 a3).dig = a3.dig ∧
    (cellFault a0 a1 a2 a3).xs = a3.xs ∧ (cellFault a0 a1 a2 a3).fab = a3.fab ∧ (cellFault a0 a1 a2 a3).sb = a3.sb ∧
    (cellFault a0 a1 a2 a3).bc = a3.bc ∧ (cellFault a0 a1 a2 a3).jobs = a3.jobs ∧ (cellFault a0 a1 a2 a3).mgt = a3.mgt ∧
    (cellFault a0 a1 a2 a3).cmd = a3.cmd ∧ (cellFault a0 a1 a2 a3).prot = a3.prot ∧ (cellFault a0 a1 a2 a3).dma = a3.dma ∧
    (cellFault a0 a1 a2 a3).trc = a3.trc ∧ (cellFault a0 a1 a2 a3).nid = a3.nid ∧ (cellFault a0 a1 a2 a3).boot = a3.boot ∧
    (cellFault a0 a1 a2 a3).img = a3.img ∧ (cellFault a0 a1 a2 a3).reports = a3.reports ∧ (cellFault a0 a1 a2 a3).posted = a3.posted ∧
    (cellFault a0 a1 a2 a3).nvPosted = a3.nvPosted ∧ (∀ (c : Nat), cell (cellFault a0 a1 a2 a3) c = cell a3 c) ∧ (∀ (c : Nat), Sys2Proof.Machine.hubc (cellFault a0 a1 a2 a3) c = Sys2Proof.Machine.hubc a3 c) ∧
    (∀ (c : Nat), region (cellFault a0 a1 a2 a3) c = region a3 c) ∧ (nowNs (cellFault a0 a1 a2 a3) = nowNs a3 ) ∧ (imgOf (cellFault a0 a1 a2 a3) = imgOf a3 ) ∧
    (serving (cellFault a0 a1 a2 a3) = serving a3 ) ∧ (working (cellFault a0 a1 a2 a3) = working a3 ) ∧ (alive (cellFault a0 a1 a2 a3) = alive a3 ) ∧
    (upState (cellFault a0 a1 a2 a3) = upState a3 ) ∧ (portOn (cellFault a0 a1 a2 a3) = portOn a3 ) ∧ (∀ (e : Env), dieNo e (cellFault a0 a1 a2 a3) = dieNo e a3 ) ∧
    (∀ (e : Env), nodeNo e (cellFault a0 a1 a2 a3) = nodeNo e a3 ) ∧ (∀ (e : Env) (c : Nat), coreId e (cellFault a0 a1 a2 a3) c = coreId e a3 c) ∧ (∀ (e : Env) (c : Nat), unitId e (cellFault a0 a1 a2 a3) c = unitId e a3 c) ∧
    (∀ (c : Nat), chan (cellFault a0 a1 a2 a3) c = chan a3 c) ∧ (∀ (x : Word), entOk (cellFault a0 a1 a2 a3) x = entOk a3 x) ∧ (∀ (c : Nat), groupOf (cellFault a0 a1 a2 a3) c = groupOf a3 c) ∧
    (∀ (e : Env) (x : Word), presentCore e (cellFault a0 a1 a2 a3) x = presentCore e a3 x) := by
  have k := (cellFault_only a0 a1 a2 a3).keep
  exact ⟨k .free (by decide), k .sys (by decide), k .isl (by decide), k .time (by decide), k .regions (by decide), k .cells (by decide), k .hubc (by decide), k .res (by decide), k .dig (by decide), k .xs (by decide), k .fab (by decide), k .sb (by decide), k .bc (by decide), k .jobs (by decide), k .mgt (by decide), k .cmd (by decide), k .prot (by decide), k .dma (by decide), k .trc (by decide), k .nid (by decide), k .boot (by decide), k .img (by decide), k .reports (by decide), k .ram (by decide), k .nvm (by decide), fun c => cell_congr (k .cells (by decide)) c, fun c => hubc_congr (k .hubc (by decide)) c, fun c => region_congr (k .regions (by decide)) c, nowNs_congr (k .time (by decide)), imgOf_congr (k .img (by decide)), serving_congr (k .sys (by decide)), working_congr (k .sys (by decide)), alive_congr (k .sys (by decide)), upState_congr (k .sys (by decide)), portOn_congr (k .sys (by decide)), fun e  => dieNo_congr e (k .img (by decide)), fun e  => nodeNo_congr e (k .img (by decide)), fun e c => coreId_congr e (k .img (by decide)) c, fun e c => unitId_congr e (k .img (by decide)) c, fun c => chan_congr (k .cmd (by decide)) c, fun x => entOk_congr (k .img (by decide)) x, fun c => groupOf_congr (k .img (by decide)) (k .jobs (by decide)) c, fun e x => presentCore_congr e (k .img (by decide)) x⟩

@[simp] theorem applyHold_reads (a0 a1 a2) :
    (applyHold a0 a1 a2).free = a2.free ∧ (applyHold a0 a1 a2).sys = a2.sys ∧ (applyHold a0 a1 a2).isl = a2.isl ∧
    (applyHold a0 a1 a2).time = a2.time ∧ (applyHold a0 a1 a2).regions = a2.regions ∧ (applyHold a0 a1 a2).res = a2.res ∧
    (applyHold a0 a1 a2).dig = a2.dig ∧ (applyHold a0 a1 a2).xs = a2.xs ∧ (applyHold a0 a1 a2).ens = a2.ens ∧
    (applyHold a0 a1 a2).casc = a2.casc ∧ (applyHold a0 a1 a2).age = a2.age ∧ (applyHold a0 a1 a2).fab = a2.fab ∧
    (applyHold a0 a1 a2).sb = a2.sb ∧ (applyHold a0 a1 a2).bc = a2.bc ∧ (applyHold a0 a1 a2).jobs = a2.jobs ∧
    (applyHold a0 a1 a2).mgt = a2.mgt ∧ (applyHold a0 a1 a2).cmd = a2.cmd ∧ (applyHold a0 a1 a2).prot = a2.prot ∧
    (applyHold a0 a1 a2).regs = a2.regs ∧ (applyHold a0 a1 a2).mem = a2.mem ∧ (applyHold a0 a1 a2).dma = a2.dma ∧
    (applyHold a0 a1 a2).trc = a2.trc ∧ (applyHold a0 a1 a2).nid = a2.nid ∧ (applyHold a0 a1 a2).log = a2.log ∧
    (applyHold a0 a1 a2).boot = a2.boot ∧ (applyHold a0 a1 a2).img = a2.img ∧ (applyHold a0 a1 a2).reports = a2.reports ∧
    (applyHold a0 a1 a2).posted = a2.posted ∧ (applyHold a0 a1 a2).nvPosted = a2.nvPosted ∧ (∀ (c : Nat), region (applyHold a0 a1 a2) c = region a2 c) ∧
    (∀ (x : Word), entity (applyHold a0 a1 a2) x = entity a2 x) ∧ (nowNs (applyHold a0 a1 a2) = nowNs a2 ) ∧ (imgOf (applyHold a0 a1 a2) = imgOf a2 ) ∧
    (serving (applyHold a0 a1 a2) = serving a2 ) ∧ (working (applyHold a0 a1 a2) = working a2 ) ∧ (alive (applyHold a0 a1 a2) = alive a2 ) ∧
    (upState (applyHold a0 a1 a2) = upState a2 ) ∧ (portOn (applyHold a0 a1 a2) = portOn a2 ) ∧ (∀ (e : Env), dieNo e (applyHold a0 a1 a2) = dieNo e a2 ) ∧
    (∀ (e : Env), nodeNo e (applyHold a0 a1 a2) = nodeNo e a2 ) ∧ (∀ (e : Env) (c : Nat), coreId e (applyHold a0 a1 a2) c = coreId e a2 c) ∧ (∀ (e : Env) (c : Nat), unitId e (applyHold a0 a1 a2) c = unitId e a2 c) ∧
    (∀ (c : Nat), chan (applyHold a0 a1 a2) c = chan a2 c) ∧ (∀ (x : Word), entOk (applyHold a0 a1 a2) x = entOk a2 x) ∧ (∀ (c : Nat), groupOf (applyHold a0 a1 a2) c = groupOf a2 c) ∧
    (∀ (c : Nat), probing (applyHold a0 a1 a2) c = probing a2 c) ∧ (∀ (e : Env) (x : Word), presentCore e (applyHold a0 a1 a2) x = presentCore e a2 x) := by
  have k := (applyHold_only a0 a1 a2).keep
  exact ⟨k .free (by decide), k .sys (by decide), k .isl (by decide), k .time (by decide), k .regions (by decide), k .res (by decide), k .dig (by decide), k .xs (by decide), k .ens (by decide), k .casc (by decide), k .age (by decide), k .fab (by decide), k .sb (by decide), k .bc (by decide), k .jobs (by decide), k .mgt (by decide), k .cmd (by decide), k .prot (by decide), k .regs (by decide), k .mem (by decide), k .dma (by decide), k .trc (by decide), k .nid (by decide), k .log (by decide), k .boot (by decide), k .img (by decide), k .reports (by decide), k .ram (by decide), k .nvm (by decide), fun c => region_congr (k .regions (by decide)) c, fun x => entity_congr (k .casc (by decide)) x, nowNs_congr (k .time (by decide)), imgOf_congr (k .img (by decide)), serving_congr (k .sys (by decide)), working_congr (k .sys (by decide)), alive_congr (k .sys (by decide)), upState_congr (k .sys (by decide)), portOn_congr (k .sys (by decide)), fun e  => dieNo_congr e (k .img (by decide)), fun e  => nodeNo_congr e (k .img (by decide)), fun e c => coreId_congr e (k .img (by decide)) c, fun e c => unitId_congr e (k .img (by decide)) c, fun c => chan_congr (k .cmd (by decide)) c, fun x => entOk_congr (k .img (by decide)) x, fun c => groupOf_congr (k .img (by decide)) (k .jobs (by decide)) c, fun c => probing_congr (k .age (by decide)) c, fun e x => presentCore_congr e (k .img (by decide)) x⟩

@[simp] theorem watchEnd_reads (a0 a1 a2) :
    (watchEnd a0 a1 a2).free = a2.free ∧ (watchEnd a0 a1 a2).sys = a2.sys ∧ (watchEnd a0 a1 a2).isl = a2.isl ∧
    (watchEnd a0 a1 a2).time = a2.time ∧ (watchEnd a0 a1 a2).regions = a2.regions ∧ (watchEnd a0 a1 a2).hubc = a2.hubc ∧
    (watchEnd a0 a1 a2).res = a2.res ∧ (watchEnd a0 a1 a2).dig = a2.dig ∧ (watchEnd a0 a1 a2).xs = a2.xs ∧
    (watchEnd a0 a1 a2).ens = a2.ens ∧ (watchEnd a0 a1 a2).casc = a2.casc ∧ (watchEnd a0 a1 a2).age = a2.age ∧
    (watchEnd a0 a1 a2).fab = a2.fab ∧ (watchEnd a0 a1 a2).sb = a2.sb ∧ (watchEnd a0 a1 a2).bc = a2.bc ∧
    (watchEnd a0 a1 a2).jobs = a2.jobs ∧ (watchEnd a0 a1 a2).mgt = a2.mgt ∧ (watchEnd a0 a1 a2).cmd = a2.cmd ∧
    (watchEnd a0 a1 a2).prot = a2.prot ∧ (watchEnd a0 a1 a2).regs = a2.regs ∧ (watchEnd a0 a1 a2).mem = a2.mem ∧
    (watchEnd a0 a1 a2).dma = a2.dma ∧ (watchEnd a0 a1 a2).trc = a2.trc ∧ (watchEnd a0 a1 a2).nid = a2.nid ∧
    (watchEnd a0 a1 a2).log = a2.log ∧ (watchEnd a0 a1 a2).boot = a2.boot ∧ (watchEnd a0 a1 a2).img = a2.img ∧
    (watchEnd a0 a1 a2).reports = a2.reports ∧ (watchEnd a0 a1 a2).posted = a2.posted ∧ (watchEnd a0 a1 a2).nvPosted = a2.nvPosted ∧
    (∀ (c : Nat), Sys2Proof.Machine.hubc (watchEnd a0 a1 a2) c = Sys2Proof.Machine.hubc a2 c) ∧ (∀ (c : Nat), region (watchEnd a0 a1 a2) c = region a2 c) ∧ (∀ (x : Word), entity (watchEnd a0 a1 a2) x = entity a2 x) ∧
    (nowNs (watchEnd a0 a1 a2) = nowNs a2 ) ∧ (imgOf (watchEnd a0 a1 a2) = imgOf a2 ) ∧ (serving (watchEnd a0 a1 a2) = serving a2 ) ∧
    (working (watchEnd a0 a1 a2) = working a2 ) ∧ (alive (watchEnd a0 a1 a2) = alive a2 ) ∧ (upState (watchEnd a0 a1 a2) = upState a2 ) ∧
    (portOn (watchEnd a0 a1 a2) = portOn a2 ) ∧ (∀ (e : Env), dieNo e (watchEnd a0 a1 a2) = dieNo e a2 ) ∧ (∀ (e : Env), nodeNo e (watchEnd a0 a1 a2) = nodeNo e a2 ) ∧
    (∀ (e : Env) (c : Nat), coreId e (watchEnd a0 a1 a2) c = coreId e a2 c) ∧ (∀ (e : Env) (c : Nat), unitId e (watchEnd a0 a1 a2) c = unitId e a2 c) ∧ (∀ (c : Nat), chan (watchEnd a0 a1 a2) c = chan a2 c) ∧
    (∀ (x : Word), entOk (watchEnd a0 a1 a2) x = entOk a2 x) ∧ (∀ (c : Nat), groupOf (watchEnd a0 a1 a2) c = groupOf a2 c) ∧ (∀ (c : Nat), probing (watchEnd a0 a1 a2) c = probing a2 c) ∧
    (∀ (e : Env) (x : Word), presentCore e (watchEnd a0 a1 a2) x = presentCore e a2 x) := by
  have k := (watchEnd_only a0 a1 a2).keep
  exact ⟨k .free (by decide), k .sys (by decide), k .isl (by decide), k .time (by decide), k .regions (by decide), k .hubc (by decide), k .res (by decide), k .dig (by decide), k .xs (by decide), k .ens (by decide), k .casc (by decide), k .age (by decide), k .fab (by decide), k .sb (by decide), k .bc (by decide), k .jobs (by decide), k .mgt (by decide), k .cmd (by decide), k .prot (by decide), k .regs (by decide), k .mem (by decide), k .dma (by decide), k .trc (by decide), k .nid (by decide), k .log (by decide), k .boot (by decide), k .img (by decide), k .reports (by decide), k .ram (by decide), k .nvm (by decide), fun c => hubc_congr (k .hubc (by decide)) c, fun c => region_congr (k .regions (by decide)) c, fun x => entity_congr (k .casc (by decide)) x, nowNs_congr (k .time (by decide)), imgOf_congr (k .img (by decide)), serving_congr (k .sys (by decide)), working_congr (k .sys (by decide)), alive_congr (k .sys (by decide)), upState_congr (k .sys (by decide)), portOn_congr (k .sys (by decide)), fun e  => dieNo_congr e (k .img (by decide)), fun e  => nodeNo_congr e (k .img (by decide)), fun e c => coreId_congr e (k .img (by decide)) c, fun e c => unitId_congr e (k .img (by decide)) c, fun c => chan_congr (k .cmd (by decide)) c, fun x => entOk_congr (k .img (by decide)) x, fun c => groupOf_congr (k .img (by decide)) (k .jobs (by decide)) c, fun c => probing_congr (k .age (by decide)) c, fun e x => presentCore_congr e (k .img (by decide)) x⟩

@[simp] theorem outcomeCounter_reads (a0 a1 a2 a3 a4 a5 a6) :
    (outcomeCounter a0 a1 a2 a3 a4 a5 a6).free = a6.free ∧ (outcomeCounter a0 a1 a2 a3 a4 a5 a6).sys = a6.sys ∧ (outcomeCounter a0 a1 a2 a3 a4 a5 a6).isl = a6.isl ∧
    (outcomeCounter a0 a1 a2 a3 a4 a5 a6).time = a6.time ∧ (outcomeCounter a0 a1 a2 a3 a4 a5 a6).regions = a6.regions ∧ (outcomeCounter a0 a1 a2 a3 a4 a5 a6).cells = a6.cells ∧
    (outcomeCounter a0 a1 a2 a3 a4 a5 a6).dig = a6.dig ∧ (outcomeCounter a0 a1 a2 a3 a4 a5 a6).xs = a6.xs ∧ (outcomeCounter a0 a1 a2 a3 a4 a5 a6).casc = a6.casc ∧
    (outcomeCounter a0 a1 a2 a3 a4 a5 a6).age = a6.age ∧ (outcomeCounter a0 a1 a2 a3 a4 a5 a6).fab = a6.fab ∧ (outcomeCounter a0 a1 a2 a3 a4 a5 a6).sb = a6.sb ∧
    (outcomeCounter a0 a1 a2 a3 a4 a5 a6).bc = a6.bc ∧ (outcomeCounter a0 a1 a2 a3 a4 a5 a6).jobs = a6.jobs ∧ (outcomeCounter a0 a1 a2 a3 a4 a5 a6).mgt = a6.mgt ∧
    (outcomeCounter a0 a1 a2 a3 a4 a5 a6).cmd = a6.cmd ∧ (outcomeCounter a0 a1 a2 a3 a4 a5 a6).prot = a6.prot ∧ (outcomeCounter a0 a1 a2 a3 a4 a5 a6).dma = a6.dma ∧
    (outcomeCounter a0 a1 a2 a3 a4 a5 a6).trc = a6.trc ∧ (outcomeCounter a0 a1 a2 a3 a4 a5 a6).nid = a6.nid ∧ (outcomeCounter a0 a1 a2 a3 a4 a5 a6).boot = a6.boot ∧
    (outcomeCounter a0 a1 a2 a3 a4 a5 a6).img = a6.img ∧ (outcomeCounter a0 a1 a2 a3 a4 a5 a6).reports = a6.reports ∧ (outcomeCounter a0 a1 a2 a3 a4 a5 a6).posted = a6.posted ∧
    (outcomeCounter a0 a1 a2 a3 a4 a5 a6).nvPosted = a6.nvPosted ∧ (∀ (c : Nat), cell (outcomeCounter a0 a1 a2 a3 a4 a5 a6) c = cell a6 c) ∧ (∀ (c : Nat), region (outcomeCounter a0 a1 a2 a3 a4 a5 a6) c = region a6 c) ∧
    (∀ (x : Word), entity (outcomeCounter a0 a1 a2 a3 a4 a5 a6) x = entity a6 x) ∧ (nowNs (outcomeCounter a0 a1 a2 a3 a4 a5 a6) = nowNs a6 ) ∧ (imgOf (outcomeCounter a0 a1 a2 a3 a4 a5 a6) = imgOf a6 ) ∧
    (serving (outcomeCounter a0 a1 a2 a3 a4 a5 a6) = serving a6 ) ∧ (working (outcomeCounter a0 a1 a2 a3 a4 a5 a6) = working a6 ) ∧ (alive (outcomeCounter a0 a1 a2 a3 a4 a5 a6) = alive a6 ) ∧
    (upState (outcomeCounter a0 a1 a2 a3 a4 a5 a6) = upState a6 ) ∧ (portOn (outcomeCounter a0 a1 a2 a3 a4 a5 a6) = portOn a6 ) ∧ (∀ (e : Env), dieNo e (outcomeCounter a0 a1 a2 a3 a4 a5 a6) = dieNo e a6 ) ∧
    (∀ (e : Env), nodeNo e (outcomeCounter a0 a1 a2 a3 a4 a5 a6) = nodeNo e a6 ) ∧ (∀ (e : Env) (c : Nat), coreId e (outcomeCounter a0 a1 a2 a3 a4 a5 a6) c = coreId e a6 c) ∧ (∀ (e : Env) (c : Nat), unitId e (outcomeCounter a0 a1 a2 a3 a4 a5 a6) c = unitId e a6 c) ∧
    (∀ (c : Nat), chan (outcomeCounter a0 a1 a2 a3 a4 a5 a6) c = chan a6 c) ∧ (∀ (x : Word), entOk (outcomeCounter a0 a1 a2 a3 a4 a5 a6) x = entOk a6 x) ∧ (∀ (c : Nat), groupOf (outcomeCounter a0 a1 a2 a3 a4 a5 a6) c = groupOf a6 c) ∧
    (∀ (c : Nat), probing (outcomeCounter a0 a1 a2 a3 a4 a5 a6) c = probing a6 c) ∧ (∀ (e : Env) (x : Word), presentCore e (outcomeCounter a0 a1 a2 a3 a4 a5 a6) x = presentCore e a6 x) := by
  have k := (outcomeCounter_only a0 a1 a2 a3 a4 a5 a6).keep
  exact ⟨k .free (by decide), k .sys (by decide), k .isl (by decide), k .time (by decide), k .regions (by decide), k .cells (by decide), k .dig (by decide), k .xs (by decide), k .casc (by decide), k .age (by decide), k .fab (by decide), k .sb (by decide), k .bc (by decide), k .jobs (by decide), k .mgt (by decide), k .cmd (by decide), k .prot (by decide), k .dma (by decide), k .trc (by decide), k .nid (by decide), k .boot (by decide), k .img (by decide), k .reports (by decide), k .ram (by decide), k .nvm (by decide), fun c => cell_congr (k .cells (by decide)) c, fun c => region_congr (k .regions (by decide)) c, fun x => entity_congr (k .casc (by decide)) x, nowNs_congr (k .time (by decide)), imgOf_congr (k .img (by decide)), serving_congr (k .sys (by decide)), working_congr (k .sys (by decide)), alive_congr (k .sys (by decide)), upState_congr (k .sys (by decide)), portOn_congr (k .sys (by decide)), fun e  => dieNo_congr e (k .img (by decide)), fun e  => nodeNo_congr e (k .img (by decide)), fun e c => coreId_congr e (k .img (by decide)) c, fun e c => unitId_congr e (k .img (by decide)) c, fun c => chan_congr (k .cmd (by decide)) c, fun x => entOk_congr (k .img (by decide)) x, fun c => groupOf_congr (k .img (by decide)) (k .jobs (by decide)) c, fun c => probing_congr (k .age (by decide)) c, fun e x => presentCore_congr e (k .img (by decide)) x⟩

@[simp] theorem fillCrossing_reads (a0 a1 a2) :
    (fillCrossing a0 a1 a2).free = a2.free ∧ (fillCrossing a0 a1 a2).sys = a2.sys ∧ (fillCrossing a0 a1 a2).isl = a2.isl ∧
    (fillCrossing a0 a1 a2).time = a2.time ∧ (fillCrossing a0 a1 a2).hubc = a2.hubc ∧ (fillCrossing a0 a1 a2).res = a2.res ∧
    (fillCrossing a0 a1 a2).dig = a2.dig ∧ (fillCrossing a0 a1 a2).xs = a2.xs ∧ (fillCrossing a0 a1 a2).ens = a2.ens ∧
    (fillCrossing a0 a1 a2).casc = a2.casc ∧ (fillCrossing a0 a1 a2).age = a2.age ∧ (fillCrossing a0 a1 a2).fab = a2.fab ∧
    (fillCrossing a0 a1 a2).sb = a2.sb ∧ (fillCrossing a0 a1 a2).bc = a2.bc ∧ (fillCrossing a0 a1 a2).jobs = a2.jobs ∧
    (fillCrossing a0 a1 a2).mgt = a2.mgt ∧ (fillCrossing a0 a1 a2).cmd = a2.cmd ∧ (fillCrossing a0 a1 a2).prot = a2.prot ∧
    (fillCrossing a0 a1 a2).regs = a2.regs ∧ (fillCrossing a0 a1 a2).mem = a2.mem ∧ (fillCrossing a0 a1 a2).dma = a2.dma ∧
    (fillCrossing a0 a1 a2).trc = a2.trc ∧ (fillCrossing a0 a1 a2).nid = a2.nid ∧ (fillCrossing a0 a1 a2).log = a2.log ∧
    (fillCrossing a0 a1 a2).boot = a2.boot ∧ (fillCrossing a0 a1 a2).img = a2.img ∧ (fillCrossing a0 a1 a2).reports = a2.reports ∧
    (fillCrossing a0 a1 a2).posted = a2.posted ∧ (fillCrossing a0 a1 a2).nvPosted = a2.nvPosted ∧ (∀ (c : Nat), Sys2Proof.Machine.hubc (fillCrossing a0 a1 a2) c = Sys2Proof.Machine.hubc a2 c) ∧
    (∀ (x : Word), entity (fillCrossing a0 a1 a2) x = entity a2 x) ∧ (nowNs (fillCrossing a0 a1 a2) = nowNs a2 ) ∧ (imgOf (fillCrossing a0 a1 a2) = imgOf a2 ) ∧
    (serving (fillCrossing a0 a1 a2) = serving a2 ) ∧ (working (fillCrossing a0 a1 a2) = working a2 ) ∧ (alive (fillCrossing a0 a1 a2) = alive a2 ) ∧
    (upState (fillCrossing a0 a1 a2) = upState a2 ) ∧ (portOn (fillCrossing a0 a1 a2) = portOn a2 ) ∧ (∀ (e : Env), dieNo e (fillCrossing a0 a1 a2) = dieNo e a2 ) ∧
    (∀ (e : Env), nodeNo e (fillCrossing a0 a1 a2) = nodeNo e a2 ) ∧ (∀ (e : Env) (c : Nat), coreId e (fillCrossing a0 a1 a2) c = coreId e a2 c) ∧ (∀ (e : Env) (c : Nat), unitId e (fillCrossing a0 a1 a2) c = unitId e a2 c) ∧
    (∀ (c : Nat), chan (fillCrossing a0 a1 a2) c = chan a2 c) ∧ (∀ (x : Word), entOk (fillCrossing a0 a1 a2) x = entOk a2 x) ∧ (∀ (c : Nat), groupOf (fillCrossing a0 a1 a2) c = groupOf a2 c) ∧
    (∀ (c : Nat), probing (fillCrossing a0 a1 a2) c = probing a2 c) ∧ (∀ (e : Env) (x : Word), presentCore e (fillCrossing a0 a1 a2) x = presentCore e a2 x) := by
  have k := (fillCrossing_only a0 a1 a2).keep
  exact ⟨k .free (by decide), k .sys (by decide), k .isl (by decide), k .time (by decide), k .hubc (by decide), k .res (by decide), k .dig (by decide), k .xs (by decide), k .ens (by decide), k .casc (by decide), k .age (by decide), k .fab (by decide), k .sb (by decide), k .bc (by decide), k .jobs (by decide), k .mgt (by decide), k .cmd (by decide), k .prot (by decide), k .regs (by decide), k .mem (by decide), k .dma (by decide), k .trc (by decide), k .nid (by decide), k .log (by decide), k .boot (by decide), k .img (by decide), k .reports (by decide), k .ram (by decide), k .nvm (by decide), fun c => hubc_congr (k .hubc (by decide)) c, fun x => entity_congr (k .casc (by decide)) x, nowNs_congr (k .time (by decide)), imgOf_congr (k .img (by decide)), serving_congr (k .sys (by decide)), working_congr (k .sys (by decide)), alive_congr (k .sys (by decide)), upState_congr (k .sys (by decide)), portOn_congr (k .sys (by decide)), fun e  => dieNo_congr e (k .img (by decide)), fun e  => nodeNo_congr e (k .img (by decide)), fun e c => coreId_congr e (k .img (by decide)) c, fun e c => unitId_congr e (k .img (by decide)) c, fun c => chan_congr (k .cmd (by decide)) c, fun x => entOk_congr (k .img (by decide)) x, fun c => groupOf_congr (k .img (by decide)) (k .jobs (by decide)) c, fun c => probing_congr (k .age (by decide)) c, fun e x => presentCore_congr e (k .img (by decide)) x⟩

@[simp] theorem hostPkt_reads (a0 a1 a2 a3 a4 a5 a6) :
    (hostPkt a0 a1 a2 a3 a4 a5 a6).free = a6.free ∧ (hostPkt a0 a1 a2 a3 a4 a5 a6).sys = a6.sys ∧ (hostPkt a0 a1 a2 a3 a4 a5 a6).isl = a6.isl ∧
    (hostPkt a0 a1 a2 a3 a4 a5 a6).time = a6.time ∧ (hostPkt a0 a1 a2 a3 a4 a5 a6).hubc = a6.hubc ∧ (hostPkt a0 a1 a2 a3 a4 a5 a6).res = a6.res ∧
    (hostPkt a0 a1 a2 a3 a4 a5 a6).dig = a6.dig ∧ (hostPkt a0 a1 a2 a3 a4 a5 a6).xs = a6.xs ∧ (hostPkt a0 a1 a2 a3 a4 a5 a6).ens = a6.ens ∧
    (hostPkt a0 a1 a2 a3 a4 a5 a6).casc = a6.casc ∧ (hostPkt a0 a1 a2 a3 a4 a5 a6).age = a6.age ∧ (hostPkt a0 a1 a2 a3 a4 a5 a6).fab = a6.fab ∧
    (hostPkt a0 a1 a2 a3 a4 a5 a6).sb = a6.sb ∧ (hostPkt a0 a1 a2 a3 a4 a5 a6).bc = a6.bc ∧ (hostPkt a0 a1 a2 a3 a4 a5 a6).jobs = a6.jobs ∧
    (hostPkt a0 a1 a2 a3 a4 a5 a6).mgt = a6.mgt ∧ (hostPkt a0 a1 a2 a3 a4 a5 a6).cmd = a6.cmd ∧ (hostPkt a0 a1 a2 a3 a4 a5 a6).prot = a6.prot ∧
    (hostPkt a0 a1 a2 a3 a4 a5 a6).mem = a6.mem ∧ (hostPkt a0 a1 a2 a3 a4 a5 a6).dma = a6.dma ∧ (hostPkt a0 a1 a2 a3 a4 a5 a6).nid = a6.nid ∧
    (hostPkt a0 a1 a2 a3 a4 a5 a6).log = a6.log ∧ (hostPkt a0 a1 a2 a3 a4 a5 a6).boot = a6.boot ∧ (hostPkt a0 a1 a2 a3 a4 a5 a6).img = a6.img ∧
    (hostPkt a0 a1 a2 a3 a4 a5 a6).reports = a6.reports ∧ (hostPkt a0 a1 a2 a3 a4 a5 a6).posted = a6.posted ∧ (hostPkt a0 a1 a2 a3 a4 a5 a6).nvPosted = a6.nvPosted ∧
    (∀ (c : Nat), Sys2Proof.Machine.hubc (hostPkt a0 a1 a2 a3 a4 a5 a6) c = Sys2Proof.Machine.hubc a6 c) ∧ (∀ (x : Word), entity (hostPkt a0 a1 a2 a3 a4 a5 a6) x = entity a6 x) ∧ (nowNs (hostPkt a0 a1 a2 a3 a4 a5 a6) = nowNs a6 ) ∧
    (imgOf (hostPkt a0 a1 a2 a3 a4 a5 a6) = imgOf a6 ) ∧ (serving (hostPkt a0 a1 a2 a3 a4 a5 a6) = serving a6 ) ∧ (working (hostPkt a0 a1 a2 a3 a4 a5 a6) = working a6 ) ∧
    (alive (hostPkt a0 a1 a2 a3 a4 a5 a6) = alive a6 ) ∧ (upState (hostPkt a0 a1 a2 a3 a4 a5 a6) = upState a6 ) ∧ (portOn (hostPkt a0 a1 a2 a3 a4 a5 a6) = portOn a6 ) ∧
    (∀ (e : Env), dieNo e (hostPkt a0 a1 a2 a3 a4 a5 a6) = dieNo e a6 ) ∧ (∀ (e : Env), nodeNo e (hostPkt a0 a1 a2 a3 a4 a5 a6) = nodeNo e a6 ) ∧ (∀ (e : Env) (c : Nat), coreId e (hostPkt a0 a1 a2 a3 a4 a5 a6) c = coreId e a6 c) ∧
    (∀ (e : Env) (c : Nat), unitId e (hostPkt a0 a1 a2 a3 a4 a5 a6) c = unitId e a6 c) ∧ (∀ (c : Nat), chan (hostPkt a0 a1 a2 a3 a4 a5 a6) c = chan a6 c) ∧ (∀ (x : Word), entOk (hostPkt a0 a1 a2 a3 a4 a5 a6) x = entOk a6 x) ∧
    (∀ (c : Nat), groupOf (hostPkt a0 a1 a2 a3 a4 a5 a6) c = groupOf a6 c) ∧ (∀ (c : Nat), probing (hostPkt a0 a1 a2 a3 a4 a5 a6) c = probing a6 c) ∧ (∀ (e : Env) (x : Word), presentCore e (hostPkt a0 a1 a2 a3 a4 a5 a6) x = presentCore e a6 x) := by
  have k := (hostPkt_only a0 a1 a2 a3 a4 a5 a6).keep
  exact ⟨k .free (by decide), k .sys (by decide), k .isl (by decide), k .time (by decide), k .hubc (by decide), k .res (by decide), k .dig (by decide), k .xs (by decide), k .ens (by decide), k .casc (by decide), k .age (by decide), k .fab (by decide), k .sb (by decide), k .bc (by decide), k .jobs (by decide), k .mgt (by decide), k .cmd (by decide), k .prot (by decide), k .mem (by decide), k .dma (by decide), k .nid (by decide), k .log (by decide), k .boot (by decide), k .img (by decide), k .reports (by decide), k .ram (by decide), k .nvm (by decide), fun c => hubc_congr (k .hubc (by decide)) c, fun x => entity_congr (k .casc (by decide)) x, nowNs_congr (k .time (by decide)), imgOf_congr (k .img (by decide)), serving_congr (k .sys (by decide)), working_congr (k .sys (by decide)), alive_congr (k .sys (by decide)), upState_congr (k .sys (by decide)), portOn_congr (k .sys (by decide)), fun e  => dieNo_congr e (k .img (by decide)), fun e  => nodeNo_congr e (k .img (by decide)), fun e c => coreId_congr e (k .img (by decide)) c, fun e c => unitId_congr e (k .img (by decide)) c, fun c => chan_congr (k .cmd (by decide)) c, fun x => entOk_congr (k .img (by decide)) x, fun c => groupOf_congr (k .img (by decide)) (k .jobs (by decide)) c, fun c => probing_congr (k .age (by decide)) c, fun e x => presentCore_congr e (k .img (by decide)) x⟩

@[simp] theorem putPkt_reads (a0 a1 a2 a3 a4 a5 a6) :
    (putPkt a0 a1 a2 a3 a4 a5 a6).free = a6.free ∧ (putPkt a0 a1 a2 a3 a4 a5 a6).sys = a6.sys ∧ (putPkt a0 a1 a2 a3 a4 a5 a6).isl = a6.isl ∧
    (putPkt a0 a1 a2 a3 a4 a5 a6).time = a6.time ∧ (putPkt a0 a1 a2 a3 a4 a5 a6).hubc = a6.hubc ∧ (putPkt a0 a1 a2 a3 a4 a5 a6).res = a6.res ∧
    (putPkt a0 a1 a2 a3 a4 a5 a6).dig = a6.dig ∧ (putPkt a0 a1 a2 a3 a4 a5 a6).xs = a6.xs ∧ (putPkt a0 a1 a2 a3 a4 a5 a6).ens = a6.ens ∧
    (putPkt a0 a1 a2 a3 a4 a5 a6).casc = a6.casc ∧ (putPkt a0 a1 a2 a3 a4 a5 a6).age = a6.age ∧ (putPkt a0 a1 a2 a3 a4 a5 a6).fab = a6.fab ∧
    (putPkt a0 a1 a2 a3 a4 a5 a6).sb = a6.sb ∧ (putPkt a0 a1 a2 a3 a4 a5 a6).bc = a6.bc ∧ (putPkt a0 a1 a2 a3 a4 a5 a6).jobs = a6.jobs ∧
    (putPkt a0 a1 a2 a3 a4 a5 a6).mgt = a6.mgt ∧ (putPkt a0 a1 a2 a3 a4 a5 a6).cmd = a6.cmd ∧ (putPkt a0 a1 a2 a3 a4 a5 a6).prot = a6.prot ∧
    (putPkt a0 a1 a2 a3 a4 a5 a6).mem = a6.mem ∧ (putPkt a0 a1 a2 a3 a4 a5 a6).dma = a6.dma ∧ (putPkt a0 a1 a2 a3 a4 a5 a6).nid = a6.nid ∧
    (putPkt a0 a1 a2 a3 a4 a5 a6).log = a6.log ∧ (putPkt a0 a1 a2 a3 a4 a5 a6).boot = a6.boot ∧ (putPkt a0 a1 a2 a3 a4 a5 a6).img = a6.img ∧
    (putPkt a0 a1 a2 a3 a4 a5 a6).reports = a6.reports ∧ (putPkt a0 a1 a2 a3 a4 a5 a6).posted = a6.posted ∧ (putPkt a0 a1 a2 a3 a4 a5 a6).nvPosted = a6.nvPosted ∧
    (∀ (c : Nat), Sys2Proof.Machine.hubc (putPkt a0 a1 a2 a3 a4 a5 a6) c = Sys2Proof.Machine.hubc a6 c) ∧ (∀ (x : Word), entity (putPkt a0 a1 a2 a3 a4 a5 a6) x = entity a6 x) ∧ (nowNs (putPkt a0 a1 a2 a3 a4 a5 a6) = nowNs a6 ) ∧
    (imgOf (putPkt a0 a1 a2 a3 a4 a5 a6) = imgOf a6 ) ∧ (serving (putPkt a0 a1 a2 a3 a4 a5 a6) = serving a6 ) ∧ (working (putPkt a0 a1 a2 a3 a4 a5 a6) = working a6 ) ∧
    (alive (putPkt a0 a1 a2 a3 a4 a5 a6) = alive a6 ) ∧ (upState (putPkt a0 a1 a2 a3 a4 a5 a6) = upState a6 ) ∧ (portOn (putPkt a0 a1 a2 a3 a4 a5 a6) = portOn a6 ) ∧
    (∀ (e : Env), dieNo e (putPkt a0 a1 a2 a3 a4 a5 a6) = dieNo e a6 ) ∧ (∀ (e : Env), nodeNo e (putPkt a0 a1 a2 a3 a4 a5 a6) = nodeNo e a6 ) ∧ (∀ (e : Env) (c : Nat), coreId e (putPkt a0 a1 a2 a3 a4 a5 a6) c = coreId e a6 c) ∧
    (∀ (e : Env) (c : Nat), unitId e (putPkt a0 a1 a2 a3 a4 a5 a6) c = unitId e a6 c) ∧ (∀ (c : Nat), chan (putPkt a0 a1 a2 a3 a4 a5 a6) c = chan a6 c) ∧ (∀ (x : Word), entOk (putPkt a0 a1 a2 a3 a4 a5 a6) x = entOk a6 x) ∧
    (∀ (c : Nat), groupOf (putPkt a0 a1 a2 a3 a4 a5 a6) c = groupOf a6 c) ∧ (∀ (c : Nat), probing (putPkt a0 a1 a2 a3 a4 a5 a6) c = probing a6 c) ∧ (∀ (e : Env) (x : Word), presentCore e (putPkt a0 a1 a2 a3 a4 a5 a6) x = presentCore e a6 x) := by
  have k := (putPkt_only a0 a1 a2 a3 a4 a5 a6).keep
  exact ⟨k .free (by decide), k .sys (by decide), k .isl (by decide), k .time (by decide), k .hubc (by decide), k .res (by decide), k .dig (by decide), k .xs (by decide), k .ens (by decide), k .casc (by decide), k .age (by decide), k .fab (by decide), k .sb (by decide), k .bc (by decide), k .jobs (by decide), k .mgt (by decide), k .cmd (by decide), k .prot (by decide), k .mem (by decide), k .dma (by decide), k .nid (by decide), k .log (by decide), k .boot (by decide), k .img (by decide), k .reports (by decide), k .ram (by decide), k .nvm (by decide), fun c => hubc_congr (k .hubc (by decide)) c, fun x => entity_congr (k .casc (by decide)) x, nowNs_congr (k .time (by decide)), imgOf_congr (k .img (by decide)), serving_congr (k .sys (by decide)), working_congr (k .sys (by decide)), alive_congr (k .sys (by decide)), upState_congr (k .sys (by decide)), portOn_congr (k .sys (by decide)), fun e  => dieNo_congr e (k .img (by decide)), fun e  => nodeNo_congr e (k .img (by decide)), fun e c => coreId_congr e (k .img (by decide)) c, fun e c => unitId_congr e (k .img (by decide)) c, fun c => chan_congr (k .cmd (by decide)) c, fun x => entOk_congr (k .img (by decide)) x, fun c => groupOf_congr (k .img (by decide)) (k .jobs (by decide)) c, fun c => probing_congr (k .age (by decide)) c, fun e x => presentCore_congr e (k .img (by decide)) x⟩

@[simp] theorem beginFull_reads (a0 a1 a2 a3) :
    (beginFull a0 a1 a2 a3).free = a3.free ∧ (beginFull a0 a1 a2 a3).sys = a3.sys ∧ (beginFull a0 a1 a2 a3).isl = a3.isl ∧
    (beginFull a0 a1 a2 a3).time = a3.time ∧ (beginFull a0 a1 a2 a3).hubc = a3.hubc ∧ (beginFull a0 a1 a2 a3).res = a3.res ∧
    (beginFull a0 a1 a2 a3).dig = a3.dig ∧ (beginFull a0 a1 a2 a3).xs = a3.xs ∧ (beginFull a0 a1 a2 a3).ens = a3.ens ∧
    (beginFull a0 a1 a2 a3).casc = a3.casc ∧ (beginFull a0 a1 a2 a3).age = a3.age ∧ (beginFull a0 a1 a2 a3).fab = a3.fab ∧
    (beginFull a0 a1 a2 a3).sb = a3.sb ∧ (beginFull a0 a1 a2 a3).bc = a3.bc ∧ (beginFull a0 a1 a2 a3).jobs = a3.jobs ∧
    (beginFull a0 a1 a2 a3).mgt = a3.mgt ∧ (beginFull a0 a1 a2 a3).cmd = a3.cmd ∧ (beginFull a0 a1 a2 a3).prot = a3.prot ∧
    (beginFull a0 a1 a2 a3).regs = a3.regs ∧ (beginFull a0 a1 a2 a3).mem = a3.mem ∧ (beginFull a0 a1 a2 a3).dma = a3.dma ∧
    (beginFull a0 a1 a2 a3).trc = a3.trc ∧ (beginFull a0 a1 a2 a3).nid = a3.nid ∧ (beginFull a0 a1 a2 a3).log = a3.log ∧
    (beginFull a0 a1 a2 a3).boot = a3.boot ∧ (beginFull a0 a1 a2 a3).img = a3.img ∧ (beginFull a0 a1 a2 a3).reports = a3.reports ∧
    (beginFull a0 a1 a2 a3).posted = a3.posted ∧ (beginFull a0 a1 a2 a3).nvPosted = a3.nvPosted ∧ (∀ (c : Nat), Sys2Proof.Machine.hubc (beginFull a0 a1 a2 a3) c = Sys2Proof.Machine.hubc a3 c) ∧
    (∀ (x : Word), entity (beginFull a0 a1 a2 a3) x = entity a3 x) ∧ (nowNs (beginFull a0 a1 a2 a3) = nowNs a3 ) ∧ (imgOf (beginFull a0 a1 a2 a3) = imgOf a3 ) ∧
    (serving (beginFull a0 a1 a2 a3) = serving a3 ) ∧ (working (beginFull a0 a1 a2 a3) = working a3 ) ∧ (alive (beginFull a0 a1 a2 a3) = alive a3 ) ∧
    (upState (beginFull a0 a1 a2 a3) = upState a3 ) ∧ (portOn (beginFull a0 a1 a2 a3) = portOn a3 ) ∧ (∀ (e : Env), dieNo e (beginFull a0 a1 a2 a3) = dieNo e a3 ) ∧
    (∀ (e : Env), nodeNo e (beginFull a0 a1 a2 a3) = nodeNo e a3 ) ∧ (∀ (e : Env) (c : Nat), coreId e (beginFull a0 a1 a2 a3) c = coreId e a3 c) ∧ (∀ (e : Env) (c : Nat), unitId e (beginFull a0 a1 a2 a3) c = unitId e a3 c) ∧
    (∀ (c : Nat), chan (beginFull a0 a1 a2 a3) c = chan a3 c) ∧ (∀ (x : Word), entOk (beginFull a0 a1 a2 a3) x = entOk a3 x) ∧ (∀ (c : Nat), groupOf (beginFull a0 a1 a2 a3) c = groupOf a3 c) ∧
    (∀ (c : Nat), probing (beginFull a0 a1 a2 a3) c = probing a3 c) ∧ (∀ (e : Env) (x : Word), presentCore e (beginFull a0 a1 a2 a3) x = presentCore e a3 x) := by
  have k := (beginFull_only a0 a1 a2 a3).keep
  exact ⟨k .free (by decide), k .sys (by decide), k .isl (by decide), k .time (by decide), k .hubc (by decide), k .res (by decide), k .dig (by decide), k .xs (by decide), k .ens (by decide), k .casc (by decide), k .age (by decide), k .fab (by decide), k .sb (by decide), k .bc (by decide), k .jobs (by decide), k .mgt (by decide), k .cmd (by decide), k .prot (by decide), k .regs (by decide), k .mem (by decide), k .dma (by decide), k .trc (by decide), k .nid (by decide), k .log (by decide), k .boot (by decide), k .img (by decide), k .reports (by decide), k .ram (by decide), k .nvm (by decide), fun c => hubc_congr (k .hubc (by decide)) c, fun x => entity_congr (k .casc (by decide)) x, nowNs_congr (k .time (by decide)), imgOf_congr (k .img (by decide)), serving_congr (k .sys (by decide)), working_congr (k .sys (by decide)), alive_congr (k .sys (by decide)), upState_congr (k .sys (by decide)), portOn_congr (k .sys (by decide)), fun e  => dieNo_congr e (k .img (by decide)), fun e  => nodeNo_congr e (k .img (by decide)), fun e c => coreId_congr e (k .img (by decide)) c, fun e c => unitId_congr e (k .img (by decide)) c, fun c => chan_congr (k .cmd (by decide)) c, fun x => entOk_congr (k .img (by decide)) x, fun c => groupOf_congr (k .img (by decide)) (k .jobs (by decide)) c, fun c => probing_congr (k .age (by decide)) c, fun e x => presentCore_congr e (k .img (by decide)) x⟩

@[simp] theorem histCore_reads (a0 a1 a2 a3 a4 a5) :
    (histCore a0 a1 a2 a3 a4 a5).free = a5.free ∧ (histCore a0 a1 a2 a3 a4 a5).sys = a5.sys ∧ (histCore a0 a1 a2 a3 a4 a5).isl = a5.isl ∧
    (histCore a0 a1 a2 a3 a4 a5).time = a5.time ∧ (histCore a0 a1 a2 a3 a4 a5).regions = a5.regions ∧ (histCore a0 a1 a2 a3 a4 a5).cells = a5.cells ∧
    (histCore a0 a1 a2 a3 a4 a5).hubc = a5.hubc ∧ (histCore a0 a1 a2 a3 a4 a5).res = a5.res ∧ (histCore a0 a1 a2 a3 a4 a5).dig = a5.dig ∧
    (histCore a0 a1 a2 a3 a4 a5).xs = a5.xs ∧ (histCore a0 a1 a2 a3 a4 a5).ens = a5.ens ∧ (histCore a0 a1 a2 a3 a4 a5).casc = a5.casc ∧
    (histCore a0 a1 a2 a3 a4 a5).fab = a5.fab ∧ (histCore a0 a1 a2 a3 a4 a5).sb = a5.sb ∧ (histCore a0 a1 a2 a3 a4 a5).bc = a5.bc ∧
    (histCore a0 a1 a2 a3 a4 a5).jobs = a5.jobs ∧ (histCore a0 a1 a2 a3 a4 a5).mgt = a5.mgt ∧ (histCore a0 a1 a2 a3 a4 a5).cmd = a5.cmd ∧
    (histCore a0 a1 a2 a3 a4 a5).prot = a5.prot ∧ (histCore a0 a1 a2 a3 a4 a5).regs = a5.regs ∧ (histCore a0 a1 a2 a3 a4 a5).mem = a5.mem ∧
    (histCore a0 a1 a2 a3 a4 a5).dma = a5.dma ∧ (histCore a0 a1 a2 a3 a4 a5).trc = a5.trc ∧ (histCore a0 a1 a2 a3 a4 a5).nid = a5.nid ∧
    (histCore a0 a1 a2 a3 a4 a5).log = a5.log ∧ (histCore a0 a1 a2 a3 a4 a5).boot = a5.boot ∧ (histCore a0 a1 a2 a3 a4 a5).img = a5.img ∧
    (histCore a0 a1 a2 a3 a4 a5).reports = a5.reports ∧ (histCore a0 a1 a2 a3 a4 a5).posted = a5.posted ∧ (histCore a0 a1 a2 a3 a4 a5).nvPosted = a5.nvPosted ∧
    (∀ (c : Nat), cell (histCore a0 a1 a2 a3 a4 a5) c = cell a5 c) ∧ (∀ (c : Nat), Sys2Proof.Machine.hubc (histCore a0 a1 a2 a3 a4 a5) c = Sys2Proof.Machine.hubc a5 c) ∧ (∀ (c : Nat), region (histCore a0 a1 a2 a3 a4 a5) c = region a5 c) ∧
    (∀ (x : Word), entity (histCore a0 a1 a2 a3 a4 a5) x = entity a5 x) ∧ (nowNs (histCore a0 a1 a2 a3 a4 a5) = nowNs a5 ) ∧ (imgOf (histCore a0 a1 a2 a3 a4 a5) = imgOf a5 ) ∧
    (serving (histCore a0 a1 a2 a3 a4 a5) = serving a5 ) ∧ (working (histCore a0 a1 a2 a3 a4 a5) = working a5 ) ∧ (alive (histCore a0 a1 a2 a3 a4 a5) = alive a5 ) ∧
    (upState (histCore a0 a1 a2 a3 a4 a5) = upState a5 ) ∧ (portOn (histCore a0 a1 a2 a3 a4 a5) = portOn a5 ) ∧ (∀ (e : Env), dieNo e (histCore a0 a1 a2 a3 a4 a5) = dieNo e a5 ) ∧
    (∀ (e : Env), nodeNo e (histCore a0 a1 a2 a3 a4 a5) = nodeNo e a5 ) ∧ (∀ (e : Env) (c : Nat), coreId e (histCore a0 a1 a2 a3 a4 a5) c = coreId e a5 c) ∧ (∀ (e : Env) (c : Nat), unitId e (histCore a0 a1 a2 a3 a4 a5) c = unitId e a5 c) ∧
    (∀ (c : Nat), chan (histCore a0 a1 a2 a3 a4 a5) c = chan a5 c) ∧ (∀ (x : Word), entOk (histCore a0 a1 a2 a3 a4 a5) x = entOk a5 x) ∧ (∀ (c : Nat), groupOf (histCore a0 a1 a2 a3 a4 a5) c = groupOf a5 c) ∧
    (∀ (e : Env) (x : Word), presentCore e (histCore a0 a1 a2 a3 a4 a5) x = presentCore e a5 x) := by
  have k := (histCore_only a0 a1 a2 a3 a4 a5).keep
  exact ⟨k .free (by decide), k .sys (by decide), k .isl (by decide), k .time (by decide), k .regions (by decide), k .cells (by decide), k .hubc (by decide), k .res (by decide), k .dig (by decide), k .xs (by decide), k .ens (by decide), k .casc (by decide), k .fab (by decide), k .sb (by decide), k .bc (by decide), k .jobs (by decide), k .mgt (by decide), k .cmd (by decide), k .prot (by decide), k .regs (by decide), k .mem (by decide), k .dma (by decide), k .trc (by decide), k .nid (by decide), k .log (by decide), k .boot (by decide), k .img (by decide), k .reports (by decide), k .ram (by decide), k .nvm (by decide), fun c => cell_congr (k .cells (by decide)) c, fun c => hubc_congr (k .hubc (by decide)) c, fun c => region_congr (k .regions (by decide)) c, fun x => entity_congr (k .casc (by decide)) x, nowNs_congr (k .time (by decide)), imgOf_congr (k .img (by decide)), serving_congr (k .sys (by decide)), working_congr (k .sys (by decide)), alive_congr (k .sys (by decide)), upState_congr (k .sys (by decide)), portOn_congr (k .sys (by decide)), fun e  => dieNo_congr e (k .img (by decide)), fun e  => nodeNo_congr e (k .img (by decide)), fun e c => coreId_congr e (k .img (by decide)) c, fun e c => unitId_congr e (k .img (by decide)) c, fun c => chan_congr (k .cmd (by decide)) c, fun x => entOk_congr (k .img (by decide)) x, fun c => groupOf_congr (k .img (by decide)) (k .jobs (by decide)) c, fun e x => presentCore_congr e (k .img (by decide)) x⟩

@[simp] theorem outcomeMark_reads (a0 a1 a2 a3 a4 a5) :
    (outcomeMark a0 a1 a2 a3 a4 a5).free = a5.free ∧ (outcomeMark a0 a1 a2 a3 a4 a5).sys = a5.sys ∧ (outcomeMark a0 a1 a2 a3 a4 a5).isl = a5.isl ∧
    (outcomeMark a0 a1 a2 a3 a4 a5).time = a5.time ∧ (outcomeMark a0 a1 a2 a3 a4 a5).hubc = a5.hubc ∧ (outcomeMark a0 a1 a2 a3 a4 a5).res = a5.res ∧
    (outcomeMark a0 a1 a2 a3 a4 a5).dig = a5.dig ∧ (outcomeMark a0 a1 a2 a3 a4 a5).xs = a5.xs ∧ (outcomeMark a0 a1 a2 a3 a4 a5).ens = a5.ens ∧
    (outcomeMark a0 a1 a2 a3 a4 a5).casc = a5.casc ∧ (outcomeMark a0 a1 a2 a3 a4 a5).age = a5.age ∧ (outcomeMark a0 a1 a2 a3 a4 a5).fab = a5.fab ∧
    (outcomeMark a0 a1 a2 a3 a4 a5).sb = a5.sb ∧ (outcomeMark a0 a1 a2 a3 a4 a5).bc = a5.bc ∧ (outcomeMark a0 a1 a2 a3 a4 a5).jobs = a5.jobs ∧
    (outcomeMark a0 a1 a2 a3 a4 a5).mgt = a5.mgt ∧ (outcomeMark a0 a1 a2 a3 a4 a5).cmd = a5.cmd ∧ (outcomeMark a0 a1 a2 a3 a4 a5).prot = a5.prot ∧
    (outcomeMark a0 a1 a2 a3 a4 a5).mem = a5.mem ∧ (outcomeMark a0 a1 a2 a3 a4 a5).dma = a5.dma ∧ (outcomeMark a0 a1 a2 a3 a4 a5).nid = a5.nid ∧
    (outcomeMark a0 a1 a2 a3 a4 a5).log = a5.log ∧ (outcomeMark a0 a1 a2 a3 a4 a5).boot = a5.boot ∧ (outcomeMark a0 a1 a2 a3 a4 a5).img = a5.img ∧
    (outcomeMark a0 a1 a2 a3 a4 a5).reports = a5.reports ∧ (outcomeMark a0 a1 a2 a3 a4 a5).posted = a5.posted ∧ (outcomeMark a0 a1 a2 a3 a4 a5).nvPosted = a5.nvPosted ∧
    (∀ (c : Nat), Sys2Proof.Machine.hubc (outcomeMark a0 a1 a2 a3 a4 a5) c = Sys2Proof.Machine.hubc a5 c) ∧ (∀ (x : Word), entity (outcomeMark a0 a1 a2 a3 a4 a5) x = entity a5 x) ∧ (nowNs (outcomeMark a0 a1 a2 a3 a4 a5) = nowNs a5 ) ∧
    (imgOf (outcomeMark a0 a1 a2 a3 a4 a5) = imgOf a5 ) ∧ (serving (outcomeMark a0 a1 a2 a3 a4 a5) = serving a5 ) ∧ (working (outcomeMark a0 a1 a2 a3 a4 a5) = working a5 ) ∧
    (alive (outcomeMark a0 a1 a2 a3 a4 a5) = alive a5 ) ∧ (upState (outcomeMark a0 a1 a2 a3 a4 a5) = upState a5 ) ∧ (portOn (outcomeMark a0 a1 a2 a3 a4 a5) = portOn a5 ) ∧
    (∀ (e : Env), dieNo e (outcomeMark a0 a1 a2 a3 a4 a5) = dieNo e a5 ) ∧ (∀ (e : Env), nodeNo e (outcomeMark a0 a1 a2 a3 a4 a5) = nodeNo e a5 ) ∧ (∀ (e : Env) (c : Nat), coreId e (outcomeMark a0 a1 a2 a3 a4 a5) c = coreId e a5 c) ∧
    (∀ (e : Env) (c : Nat), unitId e (outcomeMark a0 a1 a2 a3 a4 a5) c = unitId e a5 c) ∧ (∀ (c : Nat), chan (outcomeMark a0 a1 a2 a3 a4 a5) c = chan a5 c) ∧ (∀ (x : Word), entOk (outcomeMark a0 a1 a2 a3 a4 a5) x = entOk a5 x) ∧
    (∀ (c : Nat), groupOf (outcomeMark a0 a1 a2 a3 a4 a5) c = groupOf a5 c) ∧ (∀ (c : Nat), probing (outcomeMark a0 a1 a2 a3 a4 a5) c = probing a5 c) ∧ (∀ (e : Env) (x : Word), presentCore e (outcomeMark a0 a1 a2 a3 a4 a5) x = presentCore e a5 x) := by
  have k := (outcomeMark_only a0 a1 a2 a3 a4 a5).keep
  exact ⟨k .free (by decide), k .sys (by decide), k .isl (by decide), k .time (by decide), k .hubc (by decide), k .res (by decide), k .dig (by decide), k .xs (by decide), k .ens (by decide), k .casc (by decide), k .age (by decide), k .fab (by decide), k .sb (by decide), k .bc (by decide), k .jobs (by decide), k .mgt (by decide), k .cmd (by decide), k .prot (by decide), k .mem (by decide), k .dma (by decide), k .nid (by decide), k .log (by decide), k .boot (by decide), k .img (by decide), k .reports (by decide), k .ram (by decide), k .nvm (by decide), fun c => hubc_congr (k .hubc (by decide)) c, fun x => entity_congr (k .casc (by decide)) x, nowNs_congr (k .time (by decide)), imgOf_congr (k .img (by decide)), serving_congr (k .sys (by decide)), working_congr (k .sys (by decide)), alive_congr (k .sys (by decide)), upState_congr (k .sys (by decide)), portOn_congr (k .sys (by decide)), fun e  => dieNo_congr e (k .img (by decide)), fun e  => nodeNo_congr e (k .img (by decide)), fun e c => coreId_congr e (k .img (by decide)) c, fun e c => unitId_congr e (k .img (by decide)) c, fun c => chan_congr (k .cmd (by decide)) c, fun x => entOk_congr (k .img (by decide)) x, fun c => groupOf_congr (k .img (by decide)) (k .jobs (by decide)) c, fun c => probing_congr (k .age (by decide)) c, fun e x => presentCore_congr e (k .img (by decide)) x⟩

@[simp] theorem outcomeEffects_reads (a0 a1 a2 a3 a4 a5 a6 a7 a8 a9) :
    (outcomeEffects a0 a1 a2 a3 a4 a5 a6 a7 a8 a9).free = a9.free ∧ (outcomeEffects a0 a1 a2 a3 a4 a5 a6 a7 a8 a9).sys = a9.sys ∧ (outcomeEffects a0 a1 a2 a3 a4 a5 a6 a7 a8 a9).isl = a9.isl ∧
    (outcomeEffects a0 a1 a2 a3 a4 a5 a6 a7 a8 a9).time = a9.time ∧ (outcomeEffects a0 a1 a2 a3 a4 a5 a6 a7 a8 a9).dig = a9.dig ∧ (outcomeEffects a0 a1 a2 a3 a4 a5 a6 a7 a8 a9).xs = a9.xs ∧
    (outcomeEffects a0 a1 a2 a3 a4 a5 a6 a7 a8 a9).fab = a9.fab ∧ (outcomeEffects a0 a1 a2 a3 a4 a5 a6 a7 a8 a9).sb = a9.sb ∧ (outcomeEffects a0 a1 a2 a3 a4 a5 a6 a7 a8 a9).bc = a9.bc ∧
    (outcomeEffects a0 a1 a2 a3 a4 a5 a6 a7 a8 a9).jobs = a9.jobs ∧ (outcomeEffects a0 a1 a2 a3 a4 a5 a6 a7 a8 a9).mgt = a9.mgt ∧ (outcomeEffects a0 a1 a2 a3 a4 a5 a6 a7 a8 a9).cmd = a9.cmd ∧
    (outcomeEffects a0 a1 a2 a3 a4 a5 a6 a7 a8 a9).prot = a9.prot ∧ (outcomeEffects a0 a1 a2 a3 a4 a5 a6 a7 a8 a9).dma = a9.dma ∧ (outcomeEffects a0 a1 a2 a3 a4 a5 a6 a7 a8 a9).nid = a9.nid ∧
    (outcomeEffects a0 a1 a2 a3 a4 a5 a6 a7 a8 a9).boot = a9.boot ∧ (outcomeEffects a0 a1 a2 a3 a4 a5 a6 a7 a8 a9).img = a9.img ∧ (outcomeEffects a0 a1 a2 a3 a4 a5 a6 a7 a8 a9).reports = a9.reports ∧
    (outcomeEffects a0 a1 a2 a3 a4 a5 a6 a7 a8 a9).posted = a9.posted ∧ (outcomeEffects a0 a1 a2 a3 a4 a5 a6 a7 a8 a9).nvPosted = a9.nvPosted ∧ (nowNs (outcomeEffects a0 a1 a2 a3 a4 a5 a6 a7 a8 a9) = nowNs a9 ) ∧
    (imgOf (outcomeEffects a0 a1 a2 a3 a4 a5 a6 a7 a8 a9) = imgOf a9 ) ∧ (serving (outcomeEffects a0 a1 a2 a3 a4 a5 a6 a7 a8 a9) = serving a9 ) ∧ (working (outcomeEffects a0 a1 a2 a3 a4 a5 a6 a7 a8 a9) = working a9 ) ∧
    (alive (outcomeEffects a0 a1 a2 a3 a4 a5 a6 a7 a8 a9) = alive a9 ) ∧ (upState (outcomeEffects a0 a1 a2 a3 a4 a5 a6 a7 a8 a9) = upState a9 ) ∧ (portOn (outcomeEffects a0 a1 a2 a3 a4 a5 a6 a7 a8 a9) = portOn a9 ) ∧
    (∀ (e : Env), dieNo e (outcomeEffects a0 a1 a2 a3 a4 a5 a6 a7 a8 a9) = dieNo e a9 ) ∧ (∀ (e : Env), nodeNo e (outcomeEffects a0 a1 a2 a3 a4 a5 a6 a7 a8 a9) = nodeNo e a9 ) ∧ (∀ (e : Env) (c : Nat), coreId e (outcomeEffects a0 a1 a2 a3 a4 a5 a6 a7 a8 a9) c = coreId e a9 c) ∧
    (∀ (e : Env) (c : Nat), unitId e (outcomeEffects a0 a1 a2 a3 a4 a5 a6 a7 a8 a9) c = unitId e a9 c) ∧ (∀ (c : Nat), chan (outcomeEffects a0 a1 a2 a3 a4 a5 a6 a7 a8 a9) c = chan a9 c) ∧ (∀ (x : Word), entOk (outcomeEffects a0 a1 a2 a3 a4 a5 a6 a7 a8 a9) x = entOk a9 x) ∧
    (∀ (c : Nat), groupOf (outcomeEffects a0 a1 a2 a3 a4 a5 a6 a7 a8 a9) c = groupOf a9 c) ∧ (∀ (e : Env) (x : Word), presentCore e (outcomeEffects a0 a1 a2 a3 a4 a5 a6 a7 a8 a9) x = presentCore e a9 x) := by
  have k := (outcomeEffects_only a0 a1 a2 a3 a4 a5 a6 a7 a8 a9).keep
  exact ⟨k .free (by decide), k .sys (by decide), k .isl (by decide), k .time (by decide), k .dig (by decide), k .xs (by decide), k .fab (by decide), k .sb (by decide), k .bc (by decide), k .jobs (by decide), k .mgt (by decide), k .cmd (by decide), k .prot (by decide), k .dma (by decide), k .nid (by decide), k .boot (by decide), k .img (by decide), k .reports (by decide), k .ram (by decide), k .nvm (by decide), nowNs_congr (k .time (by decide)), imgOf_congr (k .img (by decide)), serving_congr (k .sys (by decide)), working_congr (k .sys (by decide)), alive_congr (k .sys (by decide)), upState_congr (k .sys (by decide)), portOn_congr (k .sys (by decide)), fun e  => dieNo_congr e (k .img (by decide)), fun e  => nodeNo_congr e (k .img (by decide)), fun e c => coreId_congr e (k .img (by decide)) c, fun e c => unitId_congr e (k .img (by decide)) c, fun c => chan_congr (k .cmd (by decide)) c, fun x => entOk_congr (k .img (by decide)) x, fun c => groupOf_congr (k .img (by decide)) (k .jobs (by decide)) c, fun e x => presentCore_congr e (k .img (by decide)) x⟩

@[simp] theorem confirmWindow_reads (a0 a1) :
    (confirmWindow a0 a1).free = a1.free ∧ (confirmWindow a0 a1).sys = a1.sys ∧ (confirmWindow a0 a1).isl = a1.isl ∧
    (confirmWindow a0 a1).time = a1.time ∧ (confirmWindow a0 a1).regions = a1.regions ∧ (confirmWindow a0 a1).cells = a1.cells ∧
    (confirmWindow a0 a1).res = a1.res ∧ (confirmWindow a0 a1).dig = a1.dig ∧ (confirmWindow a0 a1).xs = a1.xs ∧
    (confirmWindow a0 a1).ens = a1.ens ∧ (confirmWindow a0 a1).casc = a1.casc ∧ (confirmWindow a0 a1).age = a1.age ∧
    (confirmWindow a0 a1).fab = a1.fab ∧ (confirmWindow a0 a1).sb = a1.sb ∧ (confirmWindow a0 a1).bc = a1.bc ∧
    (confirmWindow a0 a1).jobs = a1.jobs ∧ (confirmWindow a0 a1).mgt = a1.mgt ∧ (confirmWindow a0 a1).cmd = a1.cmd ∧
    (confirmWindow a0 a1).prot = a1.prot ∧ (confirmWindow a0 a1).regs = a1.regs ∧ (confirmWindow a0 a1).mem = a1.mem ∧
    (confirmWindow a0 a1).dma = a1.dma ∧ (confirmWindow a0 a1).trc = a1.trc ∧ (confirmWindow a0 a1).nid = a1.nid ∧
    (confirmWindow a0 a1).log = a1.log ∧ (confirmWindow a0 a1).boot = a1.boot ∧ (confirmWindow a0 a1).img = a1.img ∧
    (confirmWindow a0 a1).reports = a1.reports ∧ (confirmWindow a0 a1).posted = a1.posted ∧ (confirmWindow a0 a1).nvPosted = a1.nvPosted ∧
    (∀ (c : Nat), cell (confirmWindow a0 a1) c = cell a1 c) ∧ (∀ (c : Nat), region (confirmWindow a0 a1) c = region a1 c) ∧ (∀ (x : Word), entity (confirmWindow a0 a1) x = entity a1 x) ∧
    (nowNs (confirmWindow a0 a1) = nowNs a1 ) ∧ (imgOf (confirmWindow a0 a1) = imgOf a1 ) ∧ (serving (confirmWindow a0 a1) = serving a1 ) ∧
    (working (confirmWindow a0 a1) = working a1 ) ∧ (alive (confirmWindow a0 a1) = alive a1 ) ∧ (upState (confirmWindow a0 a1) = upState a1 ) ∧
    (portOn (confirmWindow a0 a1) = portOn a1 ) ∧ (∀ (e : Env), dieNo e (confirmWindow a0 a1) = dieNo e a1 ) ∧ (∀ (e : Env), nodeNo e (confirmWindow a0 a1) = nodeNo e a1 ) ∧
    (∀ (e : Env) (c : Nat), coreId e (confirmWindow a0 a1) c = coreId e a1 c) ∧ (∀ (e : Env) (c : Nat), unitId e (confirmWindow a0 a1) c = unitId e a1 c) ∧ (∀ (c : Nat), chan (confirmWindow a0 a1) c = chan a1 c) ∧
    (∀ (x : Word), entOk (confirmWindow a0 a1) x = entOk a1 x) ∧ (∀ (c : Nat), groupOf (confirmWindow a0 a1) c = groupOf a1 c) ∧ (∀ (c : Nat), probing (confirmWindow a0 a1) c = probing a1 c) ∧
    (∀ (e : Env) (x : Word), presentCore e (confirmWindow a0 a1) x = presentCore e a1 x) := by
  have k := (confirmWindow_only a0 a1).keep
  exact ⟨k .free (by decide), k .sys (by decide), k .isl (by decide), k .time (by decide), k .regions (by decide), k .cells (by decide), k .res (by decide), k .dig (by decide), k .xs (by decide), k .ens (by decide), k .casc (by decide), k .age (by decide), k .fab (by decide), k .sb (by decide), k .bc (by decide), k .jobs (by decide), k .mgt (by decide), k .cmd (by decide), k .prot (by decide), k .regs (by decide), k .mem (by decide), k .dma (by decide), k .trc (by decide), k .nid (by decide), k .log (by decide), k .boot (by decide), k .img (by decide), k .reports (by decide), k .ram (by decide), k .nvm (by decide), fun c => cell_congr (k .cells (by decide)) c, fun c => region_congr (k .regions (by decide)) c, fun x => entity_congr (k .casc (by decide)) x, nowNs_congr (k .time (by decide)), imgOf_congr (k .img (by decide)), serving_congr (k .sys (by decide)), working_congr (k .sys (by decide)), alive_congr (k .sys (by decide)), upState_congr (k .sys (by decide)), portOn_congr (k .sys (by decide)), fun e  => dieNo_congr e (k .img (by decide)), fun e  => nodeNo_congr e (k .img (by decide)), fun e c => coreId_congr e (k .img (by decide)) c, fun e c => unitId_congr e (k .img (by decide)) c, fun c => chan_congr (k .cmd (by decide)) c, fun x => entOk_congr (k .img (by decide)) x, fun c => groupOf_congr (k .img (by decide)) (k .jobs (by decide)) c, fun c => probing_congr (k .age (by decide)) c, fun e x => presentCore_congr e (k .img (by decide)) x⟩

@[simp] theorem dieContribute_reads (a0 a1 a2 a3) :
    (dieContribute a0 a1 a2 a3).free = a3.free ∧ (dieContribute a0 a1 a2 a3).sys = a3.sys ∧ (dieContribute a0 a1 a2 a3).isl = a3.isl ∧
    (dieContribute a0 a1 a2 a3).time = a3.time ∧ (dieContribute a0 a1 a2 a3).regions = a3.regions ∧ (dieContribute a0 a1 a2 a3).cells = a3.cells ∧
    (dieContribute a0 a1 a2 a3).hubc = a3.hubc ∧ (dieContribute a0 a1 a2 a3).res = a3.res ∧ (dieContribute a0 a1 a2 a3).dig = a3.dig ∧
    (dieContribute a0 a1 a2 a3).ens = a3.ens ∧ (dieContribute a0 a1 a2 a3).casc = a3.casc ∧ (dieContribute a0 a1 a2 a3).age = a3.age ∧
    (dieContribute a0 a1 a2 a3).sb = a3.sb ∧ (dieContribute a0 a1 a2 a3).bc = a3.bc ∧ (dieContribute a0 a1 a2 a3).jobs = a3.jobs ∧
    (dieContribute a0 a1 a2 a3).mgt = a3.mgt ∧ (dieContribute a0 a1 a2 a3).cmd = a3.cmd ∧ (dieContribute a0 a1 a2 a3).prot = a3.prot ∧
    (dieContribute a0 a1 a2 a3).regs = a3.regs ∧ (dieContribute a0 a1 a2 a3).mem = a3.mem ∧ (dieContribute a0 a1 a2 a3).dma = a3.dma ∧
    (dieContribute a0 a1 a2 a3).trc = a3.trc ∧ (dieContribute a0 a1 a2 a3).nid = a3.nid ∧ (dieContribute a0 a1 a2 a3).log = a3.log ∧
    (dieContribute a0 a1 a2 a3).boot = a3.boot ∧ (dieContribute a0 a1 a2 a3).img = a3.img ∧ (dieContribute a0 a1 a2 a3).reports = a3.reports ∧
    (dieContribute a0 a1 a2 a3).posted = a3.posted ∧ (dieContribute a0 a1 a2 a3).nvPosted = a3.nvPosted ∧ (∀ (c : Nat), cell (dieContribute a0 a1 a2 a3) c = cell a3 c) ∧
    (∀ (c : Nat), Sys2Proof.Machine.hubc (dieContribute a0 a1 a2 a3) c = Sys2Proof.Machine.hubc a3 c) ∧ (∀ (c : Nat), region (dieContribute a0 a1 a2 a3) c = region a3 c) ∧ (∀ (x : Word), entity (dieContribute a0 a1 a2 a3) x = entity a3 x) ∧
    (nowNs (dieContribute a0 a1 a2 a3) = nowNs a3 ) ∧ (imgOf (dieContribute a0 a1 a2 a3) = imgOf a3 ) ∧ (serving (dieContribute a0 a1 a2 a3) = serving a3 ) ∧
    (working (dieContribute a0 a1 a2 a3) = working a3 ) ∧ (alive (dieContribute a0 a1 a2 a3) = alive a3 ) ∧ (upState (dieContribute a0 a1 a2 a3) = upState a3 ) ∧
    (portOn (dieContribute a0 a1 a2 a3) = portOn a3 ) ∧ (∀ (e : Env), dieNo e (dieContribute a0 a1 a2 a3) = dieNo e a3 ) ∧ (∀ (e : Env), nodeNo e (dieContribute a0 a1 a2 a3) = nodeNo e a3 ) ∧
    (∀ (e : Env) (c : Nat), coreId e (dieContribute a0 a1 a2 a3) c = coreId e a3 c) ∧ (∀ (e : Env) (c : Nat), unitId e (dieContribute a0 a1 a2 a3) c = unitId e a3 c) ∧ (∀ (c : Nat), chan (dieContribute a0 a1 a2 a3) c = chan a3 c) ∧
    (∀ (x : Word), entOk (dieContribute a0 a1 a2 a3) x = entOk a3 x) ∧ (∀ (c : Nat), groupOf (dieContribute a0 a1 a2 a3) c = groupOf a3 c) ∧ (∀ (c : Nat), probing (dieContribute a0 a1 a2 a3) c = probing a3 c) ∧
    (∀ (e : Env) (x : Word), presentCore e (dieContribute a0 a1 a2 a3) x = presentCore e a3 x) := by
  have k := (dieContribute_only a0 a1 a2 a3).keep
  exact ⟨k .free (by decide), k .sys (by decide), k .isl (by decide), k .time (by decide), k .regions (by decide), k .cells (by decide), k .hubc (by decide), k .res (by decide), k .dig (by decide), k .ens (by decide), k .casc (by decide), k .age (by decide), k .sb (by decide), k .bc (by decide), k .jobs (by decide), k .mgt (by decide), k .cmd (by decide), k .prot (by decide), k .regs (by decide), k .mem (by decide), k .dma (by decide), k .trc (by decide), k .nid (by decide), k .log (by decide), k .boot (by decide), k .img (by decide), k .reports (by decide), k .ram (by decide), k .nvm (by decide), fun c => cell_congr (k .cells (by decide)) c, fun c => hubc_congr (k .hubc (by decide)) c, fun c => region_congr (k .regions (by decide)) c, fun x => entity_congr (k .casc (by decide)) x, nowNs_congr (k .time (by decide)), imgOf_congr (k .img (by decide)), serving_congr (k .sys (by decide)), working_congr (k .sys (by decide)), alive_congr (k .sys (by decide)), upState_congr (k .sys (by decide)), portOn_congr (k .sys (by decide)), fun e  => dieNo_congr e (k .img (by decide)), fun e  => nodeNo_congr e (k .img (by decide)), fun e c => coreId_congr e (k .img (by decide)) c, fun e c => unitId_congr e (k .img (by decide)) c, fun c => chan_congr (k .cmd (by decide)) c, fun x => entOk_congr (k .img (by decide)) x, fun c => groupOf_congr (k .img (by decide)) (k .jobs (by decide)) c, fun c => probing_congr (k .age (by decide)) c, fun e x => presentCore_congr e (k .img (by decide)) x⟩

@[simp] theorem putFree_reads (a0 a1 a2 a3 a4 a5 a6) :
    (putFree a0 a1 a2 a3 a4 a5 a6).free = a6.free ∧ (putFree a0 a1 a2 a3 a4 a5 a6).sys = a6.sys ∧ (putFree a0 a1 a2 a3 a4 a5 a6).isl = a6.isl ∧
    (putFree a0 a1 a2 a3 a4 a5 a6).time = a6.time ∧ (putFree a0 a1 a2 a3 a4 a5 a6).regions = a6.regions ∧ (putFree a0 a1 a2 a3 a4 a5 a6).cells = a6.cells ∧
    (putFree a0 a1 a2 a3 a4 a5 a6).hubc = a6.hubc ∧ (putFree a0 a1 a2 a3 a4 a5 a6).res = a6.res ∧ (putFree a0 a1 a2 a3 a4 a5 a6).dig = a6.dig ∧
    (putFree a0 a1 a2 a3 a4 a5 a6).xs = a6.xs ∧ (putFree a0 a1 a2 a3 a4 a5 a6).ens = a6.ens ∧ (putFree a0 a1 a2 a3 a4 a5 a6).casc = a6.casc ∧
    (putFree a0 a1 a2 a3 a4 a5 a6).age = a6.age ∧ (putFree a0 a1 a2 a3 a4 a5 a6).fab = a6.fab ∧ (putFree a0 a1 a2 a3 a4 a5 a6).sb = a6.sb ∧
    (putFree a0 a1 a2 a3 a4 a5 a6).bc = a6.bc ∧ (putFree a0 a1 a2 a3 a4 a5 a6).jobs = a6.jobs ∧ (putFree a0 a1 a2 a3 a4 a5 a6).mgt = a6.mgt ∧
    (putFree a0 a1 a2 a3 a4 a5 a6).cmd = a6.cmd ∧ (putFree a0 a1 a2 a3 a4 a5 a6).prot = a6.prot ∧ (putFree a0 a1 a2 a3 a4 a5 a6).regs = a6.regs ∧
    (putFree a0 a1 a2 a3 a4 a5 a6).mem = a6.mem ∧ (putFree a0 a1 a2 a3 a4 a5 a6).dma = a6.dma ∧ (putFree a0 a1 a2 a3 a4 a5 a6).nid = a6.nid ∧
    (putFree a0 a1 a2 a3 a4 a5 a6).log = a6.log ∧ (putFree a0 a1 a2 a3 a4 a5 a6).boot = a6.boot ∧ (putFree a0 a1 a2 a3 a4 a5 a6).img = a6.img ∧
    (putFree a0 a1 a2 a3 a4 a5 a6).reports = a6.reports ∧ (putFree a0 a1 a2 a3 a4 a5 a6).posted = a6.posted ∧ (putFree a0 a1 a2 a3 a4 a5 a6).nvPosted = a6.nvPosted ∧
    (∀ (c : Nat), cell (putFree a0 a1 a2 a3 a4 a5 a6) c = cell a6 c) ∧ (∀ (c : Nat), Sys2Proof.Machine.hubc (putFree a0 a1 a2 a3 a4 a5 a6) c = Sys2Proof.Machine.hubc a6 c) ∧ (∀ (c : Nat), region (putFree a0 a1 a2 a3 a4 a5 a6) c = region a6 c) ∧
    (∀ (x : Word), entity (putFree a0 a1 a2 a3 a4 a5 a6) x = entity a6 x) ∧ (nowNs (putFree a0 a1 a2 a3 a4 a5 a6) = nowNs a6 ) ∧ (imgOf (putFree a0 a1 a2 a3 a4 a5 a6) = imgOf a6 ) ∧
    (serving (putFree a0 a1 a2 a3 a4 a5 a6) = serving a6 ) ∧ (working (putFree a0 a1 a2 a3 a4 a5 a6) = working a6 ) ∧ (alive (putFree a0 a1 a2 a3 a4 a5 a6) = alive a6 ) ∧
    (upState (putFree a0 a1 a2 a3 a4 a5 a6) = upState a6 ) ∧ (portOn (putFree a0 a1 a2 a3 a4 a5 a6) = portOn a6 ) ∧ (∀ (e : Env), dieNo e (putFree a0 a1 a2 a3 a4 a5 a6) = dieNo e a6 ) ∧
    (∀ (e : Env), nodeNo e (putFree a0 a1 a2 a3 a4 a5 a6) = nodeNo e a6 ) ∧ (∀ (e : Env) (c : Nat), coreId e (putFree a0 a1 a2 a3 a4 a5 a6) c = coreId e a6 c) ∧ (∀ (e : Env) (c : Nat), unitId e (putFree a0 a1 a2 a3 a4 a5 a6) c = unitId e a6 c) ∧
    (∀ (c : Nat), chan (putFree a0 a1 a2 a3 a4 a5 a6) c = chan a6 c) ∧ (∀ (x : Word), entOk (putFree a0 a1 a2 a3 a4 a5 a6) x = entOk a6 x) ∧ (∀ (c : Nat), groupOf (putFree a0 a1 a2 a3 a4 a5 a6) c = groupOf a6 c) ∧
    (∀ (c : Nat), probing (putFree a0 a1 a2 a3 a4 a5 a6) c = probing a6 c) ∧ (∀ (e : Env) (x : Word), presentCore e (putFree a0 a1 a2 a3 a4 a5 a6) x = presentCore e a6 x) := by
  have k := (putFree_only a0 a1 a2 a3 a4 a5 a6).keep
  exact ⟨k .free (by decide), k .sys (by decide), k .isl (by decide), k .time (by decide), k .regions (by decide), k .cells (by decide), k .hubc (by decide), k .res (by decide), k .dig (by decide), k .xs (by decide), k .ens (by decide), k .casc (by decide), k .age (by decide), k .fab (by decide), k .sb (by decide), k .bc (by decide), k .jobs (by decide), k .mgt (by decide), k .cmd (by decide), k .prot (by decide), k .regs (by decide), k .mem (by decide), k .dma (by decide), k .nid (by decide), k .log (by decide), k .boot (by decide), k .img (by decide), k .reports (by decide), k .ram (by decide), k .nvm (by decide), fun c => cell_congr (k .cells (by decide)) c, fun c => hubc_congr (k .hubc (by decide)) c, fun c => region_congr (k .regions (by decide)) c, fun x => entity_congr (k .casc (by decide)) x, nowNs_congr (k .time (by decide)), imgOf_congr (k .img (by decide)), serving_congr (k .sys (by decide)), working_congr (k .sys (by decide)), alive_congr (k .sys (by decide)), upState_congr (k .sys (by decide)), portOn_congr (k .sys (by decide)), fun e  => dieNo_congr e (k .img (by decide)), fun e  => nodeNo_congr e (k .img (by decide)), fun e c => coreId_congr e (k .img (by decide)) c, fun e c => unitId_congr e (k .img (by decide)) c, fun c => chan_congr (k .cmd (by decide)) c, fun x => entOk_congr (k .img (by decide)) x, fun c => groupOf_congr (k .img (by decide)) (k .jobs (by decide)) c, fun c => probing_congr (k .age (by decide)) c, fun e x => presentCore_congr e (k .img (by decide)) x⟩

@[simp] theorem putTimed_reads (a0 a1 a2 a3 a4 a5 a6) :
    (putTimed a0 a1 a2 a3 a4 a5 a6).free = a6.free ∧ (putTimed a0 a1 a2 a3 a4 a5 a6).sys = a6.sys ∧ (putTimed a0 a1 a2 a3 a4 a5 a6).isl = a6.isl ∧
    (putTimed a0 a1 a2 a3 a4 a5 a6).time = a6.time ∧ (putTimed a0 a1 a2 a3 a4 a5 a6).regions = a6.regions ∧ (putTimed a0 a1 a2 a3 a4 a5 a6).cells = a6.cells ∧
    (putTimed a0 a1 a2 a3 a4 a5 a6).hubc = a6.hubc ∧ (putTimed a0 a1 a2 a3 a4 a5 a6).res = a6.res ∧ (putTimed a0 a1 a2 a3 a4 a5 a6).dig = a6.dig ∧
    (putTimed a0 a1 a2 a3 a4 a5 a6).xs = a6.xs ∧ (putTimed a0 a1 a2 a3 a4 a5 a6).ens = a6.ens ∧ (putTimed a0 a1 a2 a3 a4 a5 a6).casc = a6.casc ∧
    (putTimed a0 a1 a2 a3 a4 a5 a6).age = a6.age ∧ (putTimed a0 a1 a2 a3 a4 a5 a6).fab = a6.fab ∧ (putTimed a0 a1 a2 a3 a4 a5 a6).sb = a6.sb ∧
    (putTimed a0 a1 a2 a3 a4 a5 a6).bc = a6.bc ∧ (putTimed a0 a1 a2 a3 a4 a5 a6).jobs = a6.jobs ∧ (putTimed a0 a1 a2 a3 a4 a5 a6).mgt = a6.mgt ∧
    (putTimed a0 a1 a2 a3 a4 a5 a6).cmd = a6.cmd ∧ (putTimed a0 a1 a2 a3 a4 a5 a6).prot = a6.prot ∧ (putTimed a0 a1 a2 a3 a4 a5 a6).regs = a6.regs ∧
    (putTimed a0 a1 a2 a3 a4 a5 a6).mem = a6.mem ∧ (putTimed a0 a1 a2 a3 a4 a5 a6).dma = a6.dma ∧ (putTimed a0 a1 a2 a3 a4 a5 a6).nid = a6.nid ∧
    (putTimed a0 a1 a2 a3 a4 a5 a6).log = a6.log ∧ (putTimed a0 a1 a2 a3 a4 a5 a6).boot = a6.boot ∧ (putTimed a0 a1 a2 a3 a4 a5 a6).img = a6.img ∧
    (putTimed a0 a1 a2 a3 a4 a5 a6).reports = a6.reports ∧ (putTimed a0 a1 a2 a3 a4 a5 a6).posted = a6.posted ∧ (putTimed a0 a1 a2 a3 a4 a5 a6).nvPosted = a6.nvPosted ∧
    (∀ (c : Nat), cell (putTimed a0 a1 a2 a3 a4 a5 a6) c = cell a6 c) ∧ (∀ (c : Nat), Sys2Proof.Machine.hubc (putTimed a0 a1 a2 a3 a4 a5 a6) c = Sys2Proof.Machine.hubc a6 c) ∧ (∀ (c : Nat), region (putTimed a0 a1 a2 a3 a4 a5 a6) c = region a6 c) ∧
    (∀ (x : Word), entity (putTimed a0 a1 a2 a3 a4 a5 a6) x = entity a6 x) ∧ (nowNs (putTimed a0 a1 a2 a3 a4 a5 a6) = nowNs a6 ) ∧ (imgOf (putTimed a0 a1 a2 a3 a4 a5 a6) = imgOf a6 ) ∧
    (serving (putTimed a0 a1 a2 a3 a4 a5 a6) = serving a6 ) ∧ (working (putTimed a0 a1 a2 a3 a4 a5 a6) = working a6 ) ∧ (alive (putTimed a0 a1 a2 a3 a4 a5 a6) = alive a6 ) ∧
    (upState (putTimed a0 a1 a2 a3 a4 a5 a6) = upState a6 ) ∧ (portOn (putTimed a0 a1 a2 a3 a4 a5 a6) = portOn a6 ) ∧ (∀ (e : Env), dieNo e (putTimed a0 a1 a2 a3 a4 a5 a6) = dieNo e a6 ) ∧
    (∀ (e : Env), nodeNo e (putTimed a0 a1 a2 a3 a4 a5 a6) = nodeNo e a6 ) ∧ (∀ (e : Env) (c : Nat), coreId e (putTimed a0 a1 a2 a3 a4 a5 a6) c = coreId e a6 c) ∧ (∀ (e : Env) (c : Nat), unitId e (putTimed a0 a1 a2 a3 a4 a5 a6) c = unitId e a6 c) ∧
    (∀ (c : Nat), chan (putTimed a0 a1 a2 a3 a4 a5 a6) c = chan a6 c) ∧ (∀ (x : Word), entOk (putTimed a0 a1 a2 a3 a4 a5 a6) x = entOk a6 x) ∧ (∀ (c : Nat), groupOf (putTimed a0 a1 a2 a3 a4 a5 a6) c = groupOf a6 c) ∧
    (∀ (c : Nat), probing (putTimed a0 a1 a2 a3 a4 a5 a6) c = probing a6 c) ∧ (∀ (e : Env) (x : Word), presentCore e (putTimed a0 a1 a2 a3 a4 a5 a6) x = presentCore e a6 x) := by
  have k := (putTimed_only a0 a1 a2 a3 a4 a5 a6).keep
  exact ⟨k .free (by decide), k .sys (by decide), k .isl (by decide), k .time (by decide), k .regions (by decide), k .cells (by decide), k .hubc (by decide), k .res (by decide), k .dig (by decide), k .xs (by decide), k .ens (by decide), k .casc (by decide), k .age (by decide), k .fab (by decide), k .sb (by decide), k .bc (by decide), k .jobs (by decide), k .mgt (by decide), k .cmd (by decide), k .prot (by decide), k .regs (by decide), k .mem (by decide), k .dma (by decide), k .nid (by decide), k .log (by decide), k .boot (by decide), k .img (by decide), k .reports (by decide), k .ram (by decide), k .nvm (by decide), fun c => cell_congr (k .cells (by decide)) c, fun c => hubc_congr (k .hubc (by decide)) c, fun c => region_congr (k .regions (by decide)) c, fun x => entity_congr (k .casc (by decide)) x, nowNs_congr (k .time (by decide)), imgOf_congr (k .img (by decide)), serving_congr (k .sys (by decide)), working_congr (k .sys (by decide)), alive_congr (k .sys (by decide)), upState_congr (k .sys (by decide)), portOn_congr (k .sys (by decide)), fun e  => dieNo_congr e (k .img (by decide)), fun e  => nodeNo_congr e (k .img (by decide)), fun e c => coreId_congr e (k .img (by decide)) c, fun e c => unitId_congr e (k .img (by decide)) c, fun c => chan_congr (k .cmd (by decide)) c, fun x => entOk_congr (k .img (by decide)) x, fun c => groupOf_congr (k .img (by decide)) (k .jobs (by decide)) c, fun c => probing_congr (k .age (by decide)) c, fun e x => presentCore_congr e (k .img (by decide)) x⟩

@[simp] theorem putSeif_reads (a0 a1) :
    (putSeif a0 a1).free = a1.free ∧ (putSeif a0 a1).sys = a1.sys ∧ (putSeif a0 a1).isl = a1.isl ∧
    (putSeif a0 a1).time = a1.time ∧ (putSeif a0 a1).regions = a1.regions ∧ (putSeif a0 a1).cells = a1.cells ∧
    (putSeif a0 a1).hubc = a1.hubc ∧ (putSeif a0 a1).res = a1.res ∧ (putSeif a0 a1).dig = a1.dig ∧
    (putSeif a0 a1).xs = a1.xs ∧ (putSeif a0 a1).ens = a1.ens ∧ (putSeif a0 a1).casc = a1.casc ∧
    (putSeif a0 a1).age = a1.age ∧ (putSeif a0 a1).fab = a1.fab ∧ (putSeif a0 a1).sb = a1.sb ∧
    (putSeif a0 a1).bc = a1.bc ∧ (putSeif a0 a1).jobs = a1.jobs ∧ (putSeif a0 a1).mgt = a1.mgt ∧
    (putSeif a0 a1).cmd = a1.cmd ∧ (putSeif a0 a1).prot = a1.prot ∧ (putSeif a0 a1).regs = a1.regs ∧
    (putSeif a0 a1).mem = a1.mem ∧ (putSeif a0 a1).dma = a1.dma ∧ (putSeif a0 a1).nid = a1.nid ∧
    (putSeif a0 a1).log = a1.log ∧ (putSeif a0 a1).boot = a1.boot ∧ (putSeif a0 a1).img = a1.img ∧
    (putSeif a0 a1).reports = a1.reports ∧ (putSeif a0 a1).posted = a1.posted ∧ (putSeif a0 a1).nvPosted = a1.nvPosted ∧
    (∀ (c : Nat), cell (putSeif a0 a1) c = cell a1 c) ∧ (∀ (c : Nat), Sys2Proof.Machine.hubc (putSeif a0 a1) c = Sys2Proof.Machine.hubc a1 c) ∧ (∀ (c : Nat), region (putSeif a0 a1) c = region a1 c) ∧
    (∀ (x : Word), entity (putSeif a0 a1) x = entity a1 x) ∧ (nowNs (putSeif a0 a1) = nowNs a1 ) ∧ (imgOf (putSeif a0 a1) = imgOf a1 ) ∧
    (serving (putSeif a0 a1) = serving a1 ) ∧ (working (putSeif a0 a1) = working a1 ) ∧ (alive (putSeif a0 a1) = alive a1 ) ∧
    (upState (putSeif a0 a1) = upState a1 ) ∧ (portOn (putSeif a0 a1) = portOn a1 ) ∧ (∀ (e : Env), dieNo e (putSeif a0 a1) = dieNo e a1 ) ∧
    (∀ (e : Env), nodeNo e (putSeif a0 a1) = nodeNo e a1 ) ∧ (∀ (e : Env) (c : Nat), coreId e (putSeif a0 a1) c = coreId e a1 c) ∧ (∀ (e : Env) (c : Nat), unitId e (putSeif a0 a1) c = unitId e a1 c) ∧
    (∀ (c : Nat), chan (putSeif a0 a1) c = chan a1 c) ∧ (∀ (x : Word), entOk (putSeif a0 a1) x = entOk a1 x) ∧ (∀ (c : Nat), groupOf (putSeif a0 a1) c = groupOf a1 c) ∧
    (∀ (c : Nat), probing (putSeif a0 a1) c = probing a1 c) ∧ (∀ (e : Env) (x : Word), presentCore e (putSeif a0 a1) x = presentCore e a1 x) := by
  have k := (putSeif_only a0 a1).keep
  exact ⟨k .free (by decide), k .sys (by decide), k .isl (by decide), k .time (by decide), k .regions (by decide), k .cells (by decide), k .hubc (by decide), k .res (by decide), k .dig (by decide), k .xs (by decide), k .ens (by decide), k .casc (by decide), k .age (by decide), k .fab (by decide), k .sb (by decide), k .bc (by decide), k .jobs (by decide), k .mgt (by decide), k .cmd (by decide), k .prot (by decide), k .regs (by decide), k .mem (by decide), k .dma (by decide), k .nid (by decide), k .log (by decide), k .boot (by decide), k .img (by decide), k .reports (by decide), k .ram (by decide), k .nvm (by decide), fun c => cell_congr (k .cells (by decide)) c, fun c => hubc_congr (k .hubc (by decide)) c, fun c => region_congr (k .regions (by decide)) c, fun x => entity_congr (k .casc (by decide)) x, nowNs_congr (k .time (by decide)), imgOf_congr (k .img (by decide)), serving_congr (k .sys (by decide)), working_congr (k .sys (by decide)), alive_congr (k .sys (by decide)), upState_congr (k .sys (by decide)), portOn_congr (k .sys (by decide)), fun e  => dieNo_congr e (k .img (by decide)), fun e  => nodeNo_congr e (k .img (by decide)), fun e c => coreId_congr e (k .img (by decide)) c, fun e c => unitId_congr e (k .img (by decide)) c, fun c => chan_congr (k .cmd (by decide)) c, fun x => entOk_congr (k .img (by decide)) x, fun c => groupOf_congr (k .img (by decide)) (k .jobs (by decide)) c, fun c => probing_congr (k .age (by decide)) c, fun e x => presentCore_congr e (k .img (by decide)) x⟩

@[simp] theorem startBlock_reads (a0 a1) :
    (startBlock a0 a1).free = a1.free ∧ (startBlock a0 a1).sys = a1.sys ∧ (startBlock a0 a1).isl = a1.isl ∧
    (startBlock a0 a1).time = a1.time ∧ (startBlock a0 a1).regions = a1.regions ∧ (startBlock a0 a1).cells = a1.cells ∧
    (startBlock a0 a1).hubc = a1.hubc ∧ (startBlock a0 a1).res = a1.res ∧ (startBlock a0 a1).dig = a1.dig ∧
    (startBlock a0 a1).xs = a1.xs ∧ (startBlock a0 a1).ens = a1.ens ∧ (startBlock a0 a1).casc = a1.casc ∧
    (startBlock a0 a1).age = a1.age ∧ (startBlock a0 a1).fab = a1.fab ∧ (startBlock a0 a1).sb = a1.sb ∧
    (startBlock a0 a1).bc = a1.bc ∧ (startBlock a0 a1).jobs = a1.jobs ∧ (startBlock a0 a1).mgt = a1.mgt ∧
    (startBlock a0 a1).cmd = a1.cmd ∧ (startBlock a0 a1).prot = a1.prot ∧ (startBlock a0 a1).regs = a1.regs ∧
    (startBlock a0 a1).mem = a1.mem ∧ (startBlock a0 a1).dma = a1.dma ∧ (startBlock a0 a1).nid = a1.nid ∧
    (startBlock a0 a1).log = a1.log ∧ (startBlock a0 a1).boot = a1.boot ∧ (startBlock a0 a1).img = a1.img ∧
    (startBlock a0 a1).reports = a1.reports ∧ (startBlock a0 a1).posted = a1.posted ∧ (startBlock a0 a1).nvPosted = a1.nvPosted ∧
    (∀ (c : Nat), cell (startBlock a0 a1) c = cell a1 c) ∧ (∀ (c : Nat), Sys2Proof.Machine.hubc (startBlock a0 a1) c = Sys2Proof.Machine.hubc a1 c) ∧ (∀ (c : Nat), region (startBlock a0 a1) c = region a1 c) ∧
    (∀ (x : Word), entity (startBlock a0 a1) x = entity a1 x) ∧ (nowNs (startBlock a0 a1) = nowNs a1 ) ∧ (imgOf (startBlock a0 a1) = imgOf a1 ) ∧
    (serving (startBlock a0 a1) = serving a1 ) ∧ (working (startBlock a0 a1) = working a1 ) ∧ (alive (startBlock a0 a1) = alive a1 ) ∧
    (upState (startBlock a0 a1) = upState a1 ) ∧ (portOn (startBlock a0 a1) = portOn a1 ) ∧ (∀ (e : Env), dieNo e (startBlock a0 a1) = dieNo e a1 ) ∧
    (∀ (e : Env), nodeNo e (startBlock a0 a1) = nodeNo e a1 ) ∧ (∀ (e : Env) (c : Nat), coreId e (startBlock a0 a1) c = coreId e a1 c) ∧ (∀ (e : Env) (c : Nat), unitId e (startBlock a0 a1) c = unitId e a1 c) ∧
    (∀ (c : Nat), chan (startBlock a0 a1) c = chan a1 c) ∧ (∀ (x : Word), entOk (startBlock a0 a1) x = entOk a1 x) ∧ (∀ (c : Nat), groupOf (startBlock a0 a1) c = groupOf a1 c) ∧
    (∀ (c : Nat), probing (startBlock a0 a1) c = probing a1 c) ∧ (∀ (e : Env) (x : Word), presentCore e (startBlock a0 a1) x = presentCore e a1 x) := by
  have k := (startBlock_only a0 a1).keep
  exact ⟨k .free (by decide), k .sys (by decide), k .isl (by decide), k .time (by decide), k .regions (by decide), k .cells (by decide), k .hubc (by decide), k .res (by decide), k .dig (by decide), k .xs (by decide), k .ens (by decide), k .casc (by decide), k .age (by decide), k .fab (by decide), k .sb (by decide), k .bc (by decide), k .jobs (by decide), k .mgt (by decide), k .cmd (by decide), k .prot (by decide), k .regs (by decide), k .mem (by decide), k .dma (by decide), k .nid (by decide), k .log (by decide), k .boot (by decide), k .img (by decide), k .reports (by decide), k .ram (by decide), k .nvm (by decide), fun c => cell_congr (k .cells (by decide)) c, fun c => hubc_congr (k .hubc (by decide)) c, fun c => region_congr (k .regions (by decide)) c, fun x => entity_congr (k .casc (by decide)) x, nowNs_congr (k .time (by decide)), imgOf_congr (k .img (by decide)), serving_congr (k .sys (by decide)), working_congr (k .sys (by decide)), alive_congr (k .sys (by decide)), upState_congr (k .sys (by decide)), portOn_congr (k .sys (by decide)), fun e  => dieNo_congr e (k .img (by decide)), fun e  => nodeNo_congr e (k .img (by decide)), fun e c => coreId_congr e (k .img (by decide)) c, fun e c => unitId_congr e (k .img (by decide)) c, fun c => chan_congr (k .cmd (by decide)) c, fun x => entOk_congr (k .img (by decide)) x, fun c => groupOf_congr (k .img (by decide)) (k .jobs (by decide)) c, fun c => probing_congr (k .age (by decide)) c, fun e x => presentCore_congr e (k .img (by decide)) x⟩

@[simp] theorem resToCore_reads (a0 a1 a2 a3 a4) :
    (resToCore a0 a1 a2 a3 a4).free = a4.free ∧ (resToCore a0 a1 a2 a3 a4).sys = a4.sys ∧ (resToCore a0 a1 a2 a3 a4).isl = a4.isl ∧
    (resToCore a0 a1 a2 a3 a4).time = a4.time ∧ (resToCore a0 a1 a2 a3 a4).regions = a4.regions ∧ (resToCore a0 a1 a2 a3 a4).cells = a4.cells ∧
    (resToCore a0 a1 a2 a3 a4).res = a4.res ∧ (resToCore a0 a1 a2 a3 a4).dig = a4.dig ∧ (resToCore a0 a1 a2 a3 a4).xs = a4.xs ∧
    (resToCore a0 a1 a2 a3 a4).ens = a4.ens ∧ (resToCore a0 a1 a2 a3 a4).casc = a4.casc ∧ (resToCore a0 a1 a2 a3 a4).age = a4.age ∧
    (resToCore a0 a1 a2 a3 a4).fab = a4.fab ∧ (resToCore a0 a1 a2 a3 a4).sb = a4.sb ∧ (resToCore a0 a1 a2 a3 a4).bc = a4.bc ∧
    (resToCore a0 a1 a2 a3 a4).jobs = a4.jobs ∧ (resToCore a0 a1 a2 a3 a4).mgt = a4.mgt ∧ (resToCore a0 a1 a2 a3 a4).cmd = a4.cmd ∧
    (resToCore a0 a1 a2 a3 a4).prot = a4.prot ∧ (resToCore a0 a1 a2 a3 a4).regs = a4.regs ∧ (resToCore a0 a1 a2 a3 a4).mem = a4.mem ∧
    (resToCore a0 a1 a2 a3 a4).dma = a4.dma ∧ (resToCore a0 a1 a2 a3 a4).trc = a4.trc ∧ (resToCore a0 a1 a2 a3 a4).nid = a4.nid ∧
    (resToCore a0 a1 a2 a3 a4).log = a4.log ∧ (resToCore a0 a1 a2 a3 a4).boot = a4.boot ∧ (resToCore a0 a1 a2 a3 a4).img = a4.img ∧
    (resToCore a0 a1 a2 a3 a4).reports = a4.reports ∧ (resToCore a0 a1 a2 a3 a4).posted = a4.posted ∧ (resToCore a0 a1 a2 a3 a4).nvPosted = a4.nvPosted ∧
    (∀ (c : Nat), cell (resToCore a0 a1 a2 a3 a4) c = cell a4 c) ∧ (∀ (c : Nat), region (resToCore a0 a1 a2 a3 a4) c = region a4 c) ∧ (∀ (x : Word), entity (resToCore a0 a1 a2 a3 a4) x = entity a4 x) ∧
    (nowNs (resToCore a0 a1 a2 a3 a4) = nowNs a4 ) ∧ (imgOf (resToCore a0 a1 a2 a3 a4) = imgOf a4 ) ∧ (serving (resToCore a0 a1 a2 a3 a4) = serving a4 ) ∧
    (working (resToCore a0 a1 a2 a3 a4) = working a4 ) ∧ (alive (resToCore a0 a1 a2 a3 a4) = alive a4 ) ∧ (upState (resToCore a0 a1 a2 a3 a4) = upState a4 ) ∧
    (portOn (resToCore a0 a1 a2 a3 a4) = portOn a4 ) ∧ (∀ (e : Env), dieNo e (resToCore a0 a1 a2 a3 a4) = dieNo e a4 ) ∧ (∀ (e : Env), nodeNo e (resToCore a0 a1 a2 a3 a4) = nodeNo e a4 ) ∧
    (∀ (e : Env) (c : Nat), coreId e (resToCore a0 a1 a2 a3 a4) c = coreId e a4 c) ∧ (∀ (e : Env) (c : Nat), unitId e (resToCore a0 a1 a2 a3 a4) c = unitId e a4 c) ∧ (∀ (c : Nat), chan (resToCore a0 a1 a2 a3 a4) c = chan a4 c) ∧
    (∀ (x : Word), entOk (resToCore a0 a1 a2 a3 a4) x = entOk a4 x) ∧ (∀ (c : Nat), groupOf (resToCore a0 a1 a2 a3 a4) c = groupOf a4 c) ∧ (∀ (c : Nat), probing (resToCore a0 a1 a2 a3 a4) c = probing a4 c) ∧
    (∀ (e : Env) (x : Word), presentCore e (resToCore a0 a1 a2 a3 a4) x = presentCore e a4 x) := by
  have k := (resToCore_only a0 a1 a2 a3 a4).keep
  exact ⟨k .free (by decide), k .sys (by decide), k .isl (by decide), k .time (by decide), k .regions (by decide), k .cells (by decide), k .res (by decide), k .dig (by decide), k .xs (by decide), k .ens (by decide), k .casc (by decide), k .age (by decide), k .fab (by decide), k .sb (by decide), k .bc (by decide), k .jobs (by decide), k .mgt (by decide), k .cmd (by decide), k .prot (by decide), k .regs (by decide), k .mem (by decide), k .dma (by decide), k .trc (by decide), k .nid (by decide), k .log (by decide), k .boot (by decide), k .img (by decide), k .reports (by decide), k .ram (by decide), k .nvm (by decide), fun c => cell_congr (k .cells (by decide)) c, fun c => region_congr (k .regions (by decide)) c, fun x => entity_congr (k .casc (by decide)) x, nowNs_congr (k .time (by decide)), imgOf_congr (k .img (by decide)), serving_congr (k .sys (by decide)), working_congr (k .sys (by decide)), alive_congr (k .sys (by decide)), upState_congr (k .sys (by decide)), portOn_congr (k .sys (by decide)), fun e  => dieNo_congr e (k .img (by decide)), fun e  => nodeNo_congr e (k .img (by decide)), fun e c => coreId_congr e (k .img (by decide)) c, fun e c => unitId_congr e (k .img (by decide)) c, fun c => chan_congr (k .cmd (by decide)) c, fun x => entOk_congr (k .img (by decide)) x, fun c => groupOf_congr (k .img (by decide)) (k .jobs (by decide)) c, fun c => probing_congr (k .age (by decide)) c, fun e x => presentCore_congr e (k .img (by decide)) x⟩

@[simp] theorem tapProto_reads (a0 a1 a2 a3 a4) :
    (tapProto a0 a1 a2 a3 a4).free = a4.free ∧ (tapProto a0 a1 a2 a3 a4).sys = a4.sys ∧ (tapProto a0 a1 a2 a3 a4).isl = a4.isl ∧
    (tapProto a0 a1 a2 a3 a4).time = a4.time ∧ (tapProto a0 a1 a2 a3 a4).res = a4.res ∧ (tapProto a0 a1 a2 a3 a4).dig = a4.dig ∧
    (tapProto a0 a1 a2 a3 a4).xs = a4.xs ∧ (tapProto a0 a1 a2 a3 a4).ens = a4.ens ∧ (tapProto a0 a1 a2 a3 a4).casc = a4.casc ∧
    (tapProto a0 a1 a2 a3 a4).age = a4.age ∧ (tapProto a0 a1 a2 a3 a4).fab = a4.fab ∧ (tapProto a0 a1 a2 a3 a4).sb = a4.sb ∧
    (tapProto a0 a1 a2 a3 a4).bc = a4.bc ∧ (tapProto a0 a1 a2 a3 a4).jobs = a4.jobs ∧ (tapProto a0 a1 a2 a3 a4).mgt = a4.mgt ∧
    (tapProto a0 a1 a2 a3 a4).cmd = a4.cmd ∧ (tapProto a0 a1 a2 a3 a4).prot = a4.prot ∧ (tapProto a0 a1 a2 a3 a4).regs = a4.regs ∧
    (tapProto a0 a1 a2 a3 a4).mem = a4.mem ∧ (tapProto a0 a1 a2 a3 a4).dma = a4.dma ∧ (tapProto a0 a1 a2 a3 a4).trc = a4.trc ∧
    (tapProto a0 a1 a2 a3 a4).nid = a4.nid ∧ (tapProto a0 a1 a2 a3 a4).log = a4.log ∧ (tapProto a0 a1 a2 a3 a4).boot = a4.boot ∧
    (tapProto a0 a1 a2 a3 a4).img = a4.img ∧ (tapProto a0 a1 a2 a3 a4).reports = a4.reports ∧ (tapProto a0 a1 a2 a3 a4).posted = a4.posted ∧
    (tapProto a0 a1 a2 a3 a4).nvPosted = a4.nvPosted ∧ (∀ (x : Word), entity (tapProto a0 a1 a2 a3 a4) x = entity a4 x) ∧ (nowNs (tapProto a0 a1 a2 a3 a4) = nowNs a4 ) ∧
    (imgOf (tapProto a0 a1 a2 a3 a4) = imgOf a4 ) ∧ (serving (tapProto a0 a1 a2 a3 a4) = serving a4 ) ∧ (working (tapProto a0 a1 a2 a3 a4) = working a4 ) ∧
    (alive (tapProto a0 a1 a2 a3 a4) = alive a4 ) ∧ (upState (tapProto a0 a1 a2 a3 a4) = upState a4 ) ∧ (portOn (tapProto a0 a1 a2 a3 a4) = portOn a4 ) ∧
    (∀ (e : Env), dieNo e (tapProto a0 a1 a2 a3 a4) = dieNo e a4 ) ∧ (∀ (e : Env), nodeNo e (tapProto a0 a1 a2 a3 a4) = nodeNo e a4 ) ∧ (∀ (e : Env) (c : Nat), coreId e (tapProto a0 a1 a2 a3 a4) c = coreId e a4 c) ∧
    (∀ (e : Env) (c : Nat), unitId e (tapProto a0 a1 a2 a3 a4) c = unitId e a4 c) ∧ (∀ (c : Nat), chan (tapProto a0 a1 a2 a3 a4) c = chan a4 c) ∧ (∀ (x : Word), entOk (tapProto a0 a1 a2 a3 a4) x = entOk a4 x) ∧
    (∀ (c : Nat), groupOf (tapProto a0 a1 a2 a3 a4) c = groupOf a4 c) ∧ (∀ (c : Nat), probing (tapProto a0 a1 a2 a3 a4) c = probing a4 c) ∧ (∀ (e : Env) (x : Word), presentCore e (tapProto a0 a1 a2 a3 a4) x = presentCore e a4 x) := by
  have k := (tapProto_only a0 a1 a2 a3 a4).keep
  exact ⟨k .free (by decide), k .sys (by decide), k .isl (by decide), k .time (by decide), k .res (by decide), k .dig (by decide), k .xs (by decide), k .ens (by decide), k .casc (by decide), k .age (by decide), k .fab (by decide), k .sb (by decide), k .bc (by decide), k .jobs (by decide), k .mgt (by decide), k .cmd (by decide), k .prot (by decide), k .regs (by decide), k .mem (by decide), k .dma (by decide), k .trc (by decide), k .nid (by decide), k .log (by decide), k .boot (by decide), k .img (by decide), k .reports (by decide), k .ram (by decide), k .nvm (by decide), fun x => entity_congr (k .casc (by decide)) x, nowNs_congr (k .time (by decide)), imgOf_congr (k .img (by decide)), serving_congr (k .sys (by decide)), working_congr (k .sys (by decide)), alive_congr (k .sys (by decide)), upState_congr (k .sys (by decide)), portOn_congr (k .sys (by decide)), fun e  => dieNo_congr e (k .img (by decide)), fun e  => nodeNo_congr e (k .img (by decide)), fun e c => coreId_congr e (k .img (by decide)) c, fun e c => unitId_congr e (k .img (by decide)) c, fun c => chan_congr (k .cmd (by decide)) c, fun x => entOk_congr (k .img (by decide)) x, fun c => groupOf_congr (k .img (by decide)) (k .jobs (by decide)) c, fun c => probing_congr (k .age (by decide)) c, fun e x => presentCore_congr e (k .img (by decide)) x⟩

@[simp] theorem postOut_reads (a0 a1) :
    (postOut a0 a1).free = a1.free ∧ (postOut a0 a1).sys = a1.sys ∧ (postOut a0 a1).isl = a1.isl ∧
    (postOut a0 a1).time = a1.time ∧ (postOut a0 a1).cells = a1.cells ∧ (postOut a0 a1).res = a1.res ∧
    (postOut a0 a1).dig = a1.dig ∧ (postOut a0 a1).xs = a1.xs ∧ (postOut a0 a1).ens = a1.ens ∧
    (postOut a0 a1).casc = a1.casc ∧ (postOut a0 a1).age = a1.age ∧ (postOut a0 a1).fab = a1.fab ∧
    (postOut a0 a1).sb = a1.sb ∧ (postOut a0 a1).bc = a1.bc ∧ (postOut a0 a1).jobs = a1.jobs ∧
    (postOut a0 a1).mgt = a1.mgt ∧ (postOut a0 a1).cmd = a1.cmd ∧ (postOut a0 a1).prot = a1.prot ∧
    (postOut a0 a1).regs = a1.regs ∧ (postOut a0 a1).mem = a1.mem ∧ (postOut a0 a1).dma = a1.dma ∧
    (postOut a0 a1).trc = a1.trc ∧ (postOut a0 a1).nid = a1.nid ∧ (postOut a0 a1).log = a1.log ∧
    (postOut a0 a1).boot = a1.boot ∧ (postOut a0 a1).img = a1.img ∧ (postOut a0 a1).reports = a1.reports ∧
    (postOut a0 a1).posted = a1.posted ∧ (postOut a0 a1).nvPosted = a1.nvPosted ∧ (∀ (c : Nat), cell (postOut a0 a1) c = cell a1 c) ∧
    (∀ (x : Word), entity (postOut a0 a1) x = entity a1 x) ∧ (nowNs (postOut a0 a1) = nowNs a1 ) ∧ (imgOf (postOut a0 a1) = imgOf a1 ) ∧
    (serving (postOut a0 a1) = serving a1 ) ∧ (working (postOut a0 a1) = working a1 ) ∧ (alive (postOut a0 a1) = alive a1 ) ∧
    (upState (postOut a0 a1) = upState a1 ) ∧ (portOn (postOut a0 a1) = portOn a1 ) ∧ (∀ (e : Env), dieNo e (postOut a0 a1) = dieNo e a1 ) ∧
    (∀ (e : Env), nodeNo e (postOut a0 a1) = nodeNo e a1 ) ∧ (∀ (e : Env) (c : Nat), coreId e (postOut a0 a1) c = coreId e a1 c) ∧ (∀ (e : Env) (c : Nat), unitId e (postOut a0 a1) c = unitId e a1 c) ∧
    (∀ (c : Nat), chan (postOut a0 a1) c = chan a1 c) ∧ (∀ (x : Word), entOk (postOut a0 a1) x = entOk a1 x) ∧ (∀ (c : Nat), groupOf (postOut a0 a1) c = groupOf a1 c) ∧
    (∀ (c : Nat), probing (postOut a0 a1) c = probing a1 c) ∧ (∀ (e : Env) (x : Word), presentCore e (postOut a0 a1) x = presentCore e a1 x) := by
  have k := (postOut_only a0 a1).keep
  exact ⟨k .free (by decide), k .sys (by decide), k .isl (by decide), k .time (by decide), k .cells (by decide), k .res (by decide), k .dig (by decide), k .xs (by decide), k .ens (by decide), k .casc (by decide), k .age (by decide), k .fab (by decide), k .sb (by decide), k .bc (by decide), k .jobs (by decide), k .mgt (by decide), k .cmd (by decide), k .prot (by decide), k .regs (by decide), k .mem (by decide), k .dma (by decide), k .trc (by decide), k .nid (by decide), k .log (by decide), k .boot (by decide), k .img (by decide), k .reports (by decide), k .ram (by decide), k .nvm (by decide), fun c => cell_congr (k .cells (by decide)) c, fun x => entity_congr (k .casc (by decide)) x, nowNs_congr (k .time (by decide)), imgOf_congr (k .img (by decide)), serving_congr (k .sys (by decide)), working_congr (k .sys (by decide)), alive_congr (k .sys (by decide)), upState_congr (k .sys (by decide)), portOn_congr (k .sys (by decide)), fun e  => dieNo_congr e (k .img (by decide)), fun e  => nodeNo_congr e (k .img (by decide)), fun e c => coreId_congr e (k .img (by decide)) c, fun e c => unitId_congr e (k .img (by decide)) c, fun c => chan_congr (k .cmd (by decide)) c, fun x => entOk_congr (k .img (by decide)) x, fun c => groupOf_congr (k .img (by decide)) (k .jobs (by decide)) c, fun c => probing_congr (k .age (by decide)) c, fun e x => presentCore_congr e (k .img (by decide)) x⟩

@[simp] theorem presentIn6_reads (a0 a1 a2 a3) :
    (presentIn6 a0 a1 a2 a3).free = a3.free ∧ (presentIn6 a0 a1 a2 a3).sys = a3.sys ∧ (presentIn6 a0 a1 a2 a3).isl = a3.isl ∧
    (presentIn6 a0 a1 a2 a3).time = a3.time ∧ (presentIn6 a0 a1 a2 a3).regions = a3.regions ∧ (presentIn6 a0 a1 a2 a3).hubc = a3.hubc ∧
    (presentIn6 a0 a1 a2 a3).res = a3.res ∧ (presentIn6 a0 a1 a2 a3).dig = a3.dig ∧ (presentIn6 a0 a1 a2 a3).xs = a3.xs ∧
    (presentIn6 a0 a1 a2 a3).ens = a3.ens ∧ (presentIn6 a0 a1 a2 a3).casc = a3.casc ∧ (presentIn6 a0 a1 a2 a3).age = a3.age ∧
    (presentIn6 a0 a1 a2 a3).fab = a3.fab ∧ (presentIn6 a0 a1 a2 a3).sb = a3.sb ∧ (presentIn6 a0 a1 a2 a3).bc = a3.bc ∧
    (presentIn6 a0 a1 a2 a3).jobs = a3.jobs ∧ (presentIn6 a0 a1 a2 a3).mgt = a3.mgt ∧ (presentIn6 a0 a1 a2 a3).cmd = a3.cmd ∧
    (presentIn6 a0 a1 a2 a3).prot = a3.prot ∧ (presentIn6 a0 a1 a2 a3).regs = a3.regs ∧ (presentIn6 a0 a1 a2 a3).mem = a3.mem ∧
    (presentIn6 a0 a1 a2 a3).dma = a3.dma ∧ (presentIn6 a0 a1 a2 a3).trc = a3.trc ∧ (presentIn6 a0 a1 a2 a3).nid = a3.nid ∧
    (presentIn6 a0 a1 a2 a3).log = a3.log ∧ (presentIn6 a0 a1 a2 a3).boot = a3.boot ∧ (presentIn6 a0 a1 a2 a3).img = a3.img ∧
    (presentIn6 a0 a1 a2 a3).reports = a3.reports ∧ (presentIn6 a0 a1 a2 a3).posted = a3.posted ∧ (presentIn6 a0 a1 a2 a3).nvPosted = a3.nvPosted ∧
    (∀ (c : Nat), Sys2Proof.Machine.hubc (presentIn6 a0 a1 a2 a3) c = Sys2Proof.Machine.hubc a3 c) ∧ (∀ (c : Nat), region (presentIn6 a0 a1 a2 a3) c = region a3 c) ∧ (∀ (x : Word), entity (presentIn6 a0 a1 a2 a3) x = entity a3 x) ∧
    (nowNs (presentIn6 a0 a1 a2 a3) = nowNs a3 ) ∧ (imgOf (presentIn6 a0 a1 a2 a3) = imgOf a3 ) ∧ (serving (presentIn6 a0 a1 a2 a3) = serving a3 ) ∧
    (working (presentIn6 a0 a1 a2 a3) = working a3 ) ∧ (alive (presentIn6 a0 a1 a2 a3) = alive a3 ) ∧ (upState (presentIn6 a0 a1 a2 a3) = upState a3 ) ∧
    (portOn (presentIn6 a0 a1 a2 a3) = portOn a3 ) ∧ (∀ (e : Env), dieNo e (presentIn6 a0 a1 a2 a3) = dieNo e a3 ) ∧ (∀ (e : Env), nodeNo e (presentIn6 a0 a1 a2 a3) = nodeNo e a3 ) ∧
    (∀ (e : Env) (c : Nat), coreId e (presentIn6 a0 a1 a2 a3) c = coreId e a3 c) ∧ (∀ (e : Env) (c : Nat), unitId e (presentIn6 a0 a1 a2 a3) c = unitId e a3 c) ∧ (∀ (c : Nat), chan (presentIn6 a0 a1 a2 a3) c = chan a3 c) ∧
    (∀ (x : Word), entOk (presentIn6 a0 a1 a2 a3) x = entOk a3 x) ∧ (∀ (c : Nat), groupOf (presentIn6 a0 a1 a2 a3) c = groupOf a3 c) ∧ (∀ (c : Nat), probing (presentIn6 a0 a1 a2 a3) c = probing a3 c) ∧
    (∀ (e : Env) (x : Word), presentCore e (presentIn6 a0 a1 a2 a3) x = presentCore e a3 x) := by
  have k := (presentIn6_only a0 a1 a2 a3).keep
  exact ⟨k .free (by decide), k .sys (by decide), k .isl (by decide), k .time (by decide), k .regions (by decide), k .hubc (by decide), k .res (by decide), k .dig (by decide), k .xs (by decide), k .ens (by decide), k .casc (by decide), k .age (by decide), k .fab (by decide), k .sb (by decide), k .bc (by decide), k .jobs (by decide), k .mgt (by decide), k .cmd (by decide), k .prot (by decide), k .regs (by decide), k .mem (by decide), k .dma (by decide), k .trc (by decide), k .nid (by decide), k .log (by decide), k .boot (by decide), k .img (by decide), k .reports (by decide), k .ram (by decide), k .nvm (by decide), fun c => hubc_congr (k .hubc (by decide)) c, fun c => region_congr (k .regions (by decide)) c, fun x => entity_congr (k .casc (by decide)) x, nowNs_congr (k .time (by decide)), imgOf_congr (k .img (by decide)), serving_congr (k .sys (by decide)), working_congr (k .sys (by decide)), alive_congr (k .sys (by decide)), upState_congr (k .sys (by decide)), portOn_congr (k .sys (by decide)), fun e  => dieNo_congr e (k .img (by decide)), fun e  => nodeNo_congr e (k .img (by decide)), fun e c => coreId_congr e (k .img (by decide)) c, fun e c => unitId_congr e (k .img (by decide)) c, fun c => chan_congr (k .cmd (by decide)) c, fun x => entOk_congr (k .img (by decide)) x, fun c => groupOf_congr (k .img (by decide)) (k .jobs (by decide)) c, fun c => probing_congr (k .age (by decide)) c, fun e x => presentCore_congr e (k .img (by decide)) x⟩

@[simp] theorem takeWord_reads (a0 a1) :
    (takeWord a0 a1).free = a1.free ∧ (takeWord a0 a1).sys = a1.sys ∧ (takeWord a0 a1).isl = a1.isl ∧
    (takeWord a0 a1).time = a1.time ∧ (takeWord a0 a1).regions = a1.regions ∧ (takeWord a0 a1).hubc = a1.hubc ∧
    (takeWord a0 a1).res = a1.res ∧ (takeWord a0 a1).dig = a1.dig ∧ (takeWord a0 a1).xs = a1.xs ∧
    (takeWord a0 a1).ens = a1.ens ∧ (takeWord a0 a1).casc = a1.casc ∧ (takeWord a0 a1).age = a1.age ∧
    (takeWord a0 a1).fab = a1.fab ∧ (takeWord a0 a1).sb = a1.sb ∧ (takeWord a0 a1).bc = a1.bc ∧
    (takeWord a0 a1).jobs = a1.jobs ∧ (takeWord a0 a1).mgt = a1.mgt ∧ (takeWord a0 a1).cmd = a1.cmd ∧
    (takeWord a0 a1).prot = a1.prot ∧ (takeWord a0 a1).regs = a1.regs ∧ (takeWord a0 a1).mem = a1.mem ∧
    (takeWord a0 a1).dma = a1.dma ∧ (takeWord a0 a1).trc = a1.trc ∧ (takeWord a0 a1).nid = a1.nid ∧
    (takeWord a0 a1).log = a1.log ∧ (takeWord a0 a1).boot = a1.boot ∧ (takeWord a0 a1).img = a1.img ∧
    (takeWord a0 a1).reports = a1.reports ∧ (takeWord a0 a1).posted = a1.posted ∧ (takeWord a0 a1).nvPosted = a1.nvPosted ∧
    (∀ (c : Nat), Sys2Proof.Machine.hubc (takeWord a0 a1) c = Sys2Proof.Machine.hubc a1 c) ∧ (∀ (c : Nat), region (takeWord a0 a1) c = region a1 c) ∧ (∀ (x : Word), entity (takeWord a0 a1) x = entity a1 x) ∧
    (nowNs (takeWord a0 a1) = nowNs a1 ) ∧ (imgOf (takeWord a0 a1) = imgOf a1 ) ∧ (serving (takeWord a0 a1) = serving a1 ) ∧
    (working (takeWord a0 a1) = working a1 ) ∧ (alive (takeWord a0 a1) = alive a1 ) ∧ (upState (takeWord a0 a1) = upState a1 ) ∧
    (portOn (takeWord a0 a1) = portOn a1 ) ∧ (∀ (e : Env), dieNo e (takeWord a0 a1) = dieNo e a1 ) ∧ (∀ (e : Env), nodeNo e (takeWord a0 a1) = nodeNo e a1 ) ∧
    (∀ (e : Env) (c : Nat), coreId e (takeWord a0 a1) c = coreId e a1 c) ∧ (∀ (e : Env) (c : Nat), unitId e (takeWord a0 a1) c = unitId e a1 c) ∧ (∀ (c : Nat), chan (takeWord a0 a1) c = chan a1 c) ∧
    (∀ (x : Word), entOk (takeWord a0 a1) x = entOk a1 x) ∧ (∀ (c : Nat), groupOf (takeWord a0 a1) c = groupOf a1 c) ∧ (∀ (c : Nat), probing (takeWord a0 a1) c = probing a1 c) ∧
    (∀ (e : Env) (x : Word), presentCore e (takeWord a0 a1) x = presentCore e a1 x) := by
  have k := (takeWord_only a0 a1).keep
  exact ⟨k .free (by decide), k .sys (by decide), k .isl (by decide), k .time (by decide), k .regions (by decide), k .hubc (by decide), k .res (by decide), k .dig (by decide), k .xs (by decide), k .ens (by decide), k .casc (by decide), k .age (by decide), k .fab (by decide), k .sb (by decide), k .bc (by decide), k .jobs (by decide), k .mgt (by decide), k .cmd (by decide), k .prot (by decide), k .regs (by decide), k .mem (by decide), k .dma (by decide), k .trc (by decide), k .nid (by decide), k .log (by decide), k .boot (by decide), k .img (by decide), k .reports (by decide), k .ram (by decide), k .nvm (by decide), fun c => hubc_congr (k .hubc (by decide)) c, fun c => region_congr (k .regions (by decide)) c, fun x => entity_congr (k .casc (by decide)) x, nowNs_congr (k .time (by decide)), imgOf_congr (k .img (by decide)), serving_congr (k .sys (by decide)), working_congr (k .sys (by decide)), alive_congr (k .sys (by decide)), upState_congr (k .sys (by decide)), portOn_congr (k .sys (by decide)), fun e  => dieNo_congr e (k .img (by decide)), fun e  => nodeNo_congr e (k .img (by decide)), fun e c => coreId_congr e (k .img (by decide)) c, fun e c => unitId_congr e (k .img (by decide)) c, fun c => chan_congr (k .cmd (by decide)) c, fun x => entOk_congr (k .img (by decide)) x, fun c => groupOf_congr (k .img (by decide)) (k .jobs (by decide)) c, fun c => probing_congr (k .age (by decide)) c, fun e x => presentCore_congr e (k .img (by decide)) x⟩

@[simp] theorem lanStart_reads (a0 a1 a2 a3 a4) :
    (lanStart a0 a1 a2 a3 a4).free = a4.free ∧ (lanStart a0 a1 a2 a3 a4).sys = a4.sys ∧ (lanStart a0 a1 a2 a3 a4).isl = a4.isl ∧
    (lanStart a0 a1 a2 a3 a4).time = a4.time ∧ (lanStart a0 a1 a2 a3 a4).res = a4.res ∧ (lanStart a0 a1 a2 a3 a4).dig = a4.dig ∧
    (lanStart a0 a1 a2 a3 a4).xs = a4.xs ∧ (lanStart a0 a1 a2 a3 a4).ens = a4.ens ∧ (lanStart a0 a1 a2 a3 a4).casc = a4.casc ∧
    (lanStart a0 a1 a2 a3 a4).age = a4.age ∧ (lanStart a0 a1 a2 a3 a4).fab = a4.fab ∧ (lanStart a0 a1 a2 a3 a4).sb = a4.sb ∧
    (lanStart a0 a1 a2 a3 a4).bc = a4.bc ∧ (lanStart a0 a1 a2 a3 a4).jobs = a4.jobs ∧ (lanStart a0 a1 a2 a3 a4).mgt = a4.mgt ∧
    (lanStart a0 a1 a2 a3 a4).cmd = a4.cmd ∧ (lanStart a0 a1 a2 a3 a4).prot = a4.prot ∧ (lanStart a0 a1 a2 a3 a4).regs = a4.regs ∧
    (lanStart a0 a1 a2 a3 a4).mem = a4.mem ∧ (lanStart a0 a1 a2 a3 a4).dma = a4.dma ∧ (lanStart a0 a1 a2 a3 a4).trc = a4.trc ∧
    (lanStart a0 a1 a2 a3 a4).nid = a4.nid ∧ (lanStart a0 a1 a2 a3 a4).log = a4.log ∧ (lanStart a0 a1 a2 a3 a4).boot = a4.boot ∧
    (lanStart a0 a1 a2 a3 a4).img = a4.img ∧ (lanStart a0 a1 a2 a3 a4).reports = a4.reports ∧ (lanStart a0 a1 a2 a3 a4).posted = a4.posted ∧
    (lanStart a0 a1 a2 a3 a4).nvPosted = a4.nvPosted ∧ (∀ (x : Word), entity (lanStart a0 a1 a2 a3 a4) x = entity a4 x) ∧ (nowNs (lanStart a0 a1 a2 a3 a4) = nowNs a4 ) ∧
    (imgOf (lanStart a0 a1 a2 a3 a4) = imgOf a4 ) ∧ (serving (lanStart a0 a1 a2 a3 a4) = serving a4 ) ∧ (working (lanStart a0 a1 a2 a3 a4) = working a4 ) ∧
    (alive (lanStart a0 a1 a2 a3 a4) = alive a4 ) ∧ (upState (lanStart a0 a1 a2 a3 a4) = upState a4 ) ∧ (portOn (lanStart a0 a1 a2 a3 a4) = portOn a4 ) ∧
    (∀ (e : Env), dieNo e (lanStart a0 a1 a2 a3 a4) = dieNo e a4 ) ∧ (∀ (e : Env), nodeNo e (lanStart a0 a1 a2 a3 a4) = nodeNo e a4 ) ∧ (∀ (e : Env) (c : Nat), coreId e (lanStart a0 a1 a2 a3 a4) c = coreId e a4 c) ∧
    (∀ (e : Env) (c : Nat), unitId e (lanStart a0 a1 a2 a3 a4) c = unitId e a4 c) ∧ (∀ (c : Nat), chan (lanStart a0 a1 a2 a3 a4) c = chan a4 c) ∧ (∀ (x : Word), entOk (lanStart a0 a1 a2 a3 a4) x = entOk a4 x) ∧
    (∀ (c : Nat), groupOf (lanStart a0 a1 a2 a3 a4) c = groupOf a4 c) ∧ (∀ (c : Nat), probing (lanStart a0 a1 a2 a3 a4) c = probing a4 c) ∧ (∀ (e : Env) (x : Word), presentCore e (lanStart a0 a1 a2 a3 a4) x = presentCore e a4 x) := by
  have k := (lanStart_only a0 a1 a2 a3 a4).keep
  exact ⟨k .free (by decide), k .sys (by decide), k .isl (by decide), k .time (by decide), k .res (by decide), k .dig (by decide), k .xs (by decide), k .ens (by decide), k .casc (by decide), k .age (by decide), k .fab (by decide), k .sb (by decide), k .bc (by decide), k .jobs (by decide), k .mgt (by decide), k .cmd (by decide), k .prot (by decide), k .regs (by decide), k .mem (by decide), k .dma (by decide), k .trc (by decide), k .nid (by decide), k .log (by decide), k .boot (by decide), k .img (by decide), k .reports (by decide), k .ram (by decide), k .nvm (by decide), fun x => entity_congr (k .casc (by decide)) x, nowNs_congr (k .time (by decide)), imgOf_congr (k .img (by decide)), serving_congr (k .sys (by decide)), working_congr (k .sys (by decide)), alive_congr (k .sys (by decide)), upState_congr (k .sys (by decide)), portOn_congr (k .sys (by decide)), fun e  => dieNo_congr e (k .img (by decide)), fun e  => nodeNo_congr e (k .img (by decide)), fun e c => coreId_congr e (k .img (by decide)) c, fun e c => unitId_congr e (k .img (by decide)) c, fun c => chan_congr (k .cmd (by decide)) c, fun x => entOk_congr (k .img (by decide)) x, fun c => groupOf_congr (k .img (by decide)) (k .jobs (by decide)) c, fun c => probing_congr (k .age (by decide)) c, fun e x => presentCore_congr e (k .img (by decide)) x⟩

@[simp] theorem lanPair_reads (a0 a1 a2 a3 a4) :
    (lanPair a0 a1 a2 a3 a4).free = a4.free ∧ (lanPair a0 a1 a2 a3 a4).sys = a4.sys ∧ (lanPair a0 a1 a2 a3 a4).isl = a4.isl ∧
    (lanPair a0 a1 a2 a3 a4).time = a4.time ∧ (lanPair a0 a1 a2 a3 a4).res = a4.res ∧ (lanPair a0 a1 a2 a3 a4).dig = a4.dig ∧
    (lanPair a0 a1 a2 a3 a4).xs = a4.xs ∧ (lanPair a0 a1 a2 a3 a4).ens = a4.ens ∧ (lanPair a0 a1 a2 a3 a4).casc = a4.casc ∧
    (lanPair a0 a1 a2 a3 a4).age = a4.age ∧ (lanPair a0 a1 a2 a3 a4).fab = a4.fab ∧ (lanPair a0 a1 a2 a3 a4).sb = a4.sb ∧
    (lanPair a0 a1 a2 a3 a4).bc = a4.bc ∧ (lanPair a0 a1 a2 a3 a4).jobs = a4.jobs ∧ (lanPair a0 a1 a2 a3 a4).mgt = a4.mgt ∧
    (lanPair a0 a1 a2 a3 a4).cmd = a4.cmd ∧ (lanPair a0 a1 a2 a3 a4).prot = a4.prot ∧ (lanPair a0 a1 a2 a3 a4).regs = a4.regs ∧
    (lanPair a0 a1 a2 a3 a4).mem = a4.mem ∧ (lanPair a0 a1 a2 a3 a4).dma = a4.dma ∧ (lanPair a0 a1 a2 a3 a4).trc = a4.trc ∧
    (lanPair a0 a1 a2 a3 a4).nid = a4.nid ∧ (lanPair a0 a1 a2 a3 a4).log = a4.log ∧ (lanPair a0 a1 a2 a3 a4).boot = a4.boot ∧
    (lanPair a0 a1 a2 a3 a4).img = a4.img ∧ (lanPair a0 a1 a2 a3 a4).reports = a4.reports ∧ (lanPair a0 a1 a2 a3 a4).posted = a4.posted ∧
    (lanPair a0 a1 a2 a3 a4).nvPosted = a4.nvPosted ∧ (∀ (x : Word), entity (lanPair a0 a1 a2 a3 a4) x = entity a4 x) ∧ (nowNs (lanPair a0 a1 a2 a3 a4) = nowNs a4 ) ∧
    (imgOf (lanPair a0 a1 a2 a3 a4) = imgOf a4 ) ∧ (serving (lanPair a0 a1 a2 a3 a4) = serving a4 ) ∧ (working (lanPair a0 a1 a2 a3 a4) = working a4 ) ∧
    (alive (lanPair a0 a1 a2 a3 a4) = alive a4 ) ∧ (upState (lanPair a0 a1 a2 a3 a4) = upState a4 ) ∧ (portOn (lanPair a0 a1 a2 a3 a4) = portOn a4 ) ∧
    (∀ (e : Env), dieNo e (lanPair a0 a1 a2 a3 a4) = dieNo e a4 ) ∧ (∀ (e : Env), nodeNo e (lanPair a0 a1 a2 a3 a4) = nodeNo e a4 ) ∧ (∀ (e : Env) (c : Nat), coreId e (lanPair a0 a1 a2 a3 a4) c = coreId e a4 c) ∧
    (∀ (e : Env) (c : Nat), unitId e (lanPair a0 a1 a2 a3 a4) c = unitId e a4 c) ∧ (∀ (c : Nat), chan (lanPair a0 a1 a2 a3 a4) c = chan a4 c) ∧ (∀ (x : Word), entOk (lanPair a0 a1 a2 a3 a4) x = entOk a4 x) ∧
    (∀ (c : Nat), groupOf (lanPair a0 a1 a2 a3 a4) c = groupOf a4 c) ∧ (∀ (c : Nat), probing (lanPair a0 a1 a2 a3 a4) c = probing a4 c) ∧ (∀ (e : Env) (x : Word), presentCore e (lanPair a0 a1 a2 a3 a4) x = presentCore e a4 x) := by
  have k := (lanPair_only a0 a1 a2 a3 a4).keep
  exact ⟨k .free (by decide), k .sys (by decide), k .isl (by decide), k .time (by decide), k .res (by decide), k .dig (by decide), k .xs (by decide), k .ens (by decide), k .casc (by decide), k .age (by decide), k .fab (by decide), k .sb (by decide), k .bc (by decide), k .jobs (by decide), k .mgt (by decide), k .cmd (by decide), k .prot (by decide), k .regs (by decide), k .mem (by decide), k .dma (by decide), k .trc (by decide), k .nid (by decide), k .log (by decide), k .boot (by decide), k .img (by decide), k .reports (by decide), k .ram (by decide), k .nvm (by decide), fun x => entity_congr (k .casc (by decide)) x, nowNs_congr (k .time (by decide)), imgOf_congr (k .img (by decide)), serving_congr (k .sys (by decide)), working_congr (k .sys (by decide)), alive_congr (k .sys (by decide)), upState_congr (k .sys (by decide)), portOn_congr (k .sys (by decide)), fun e  => dieNo_congr e (k .img (by decide)), fun e  => nodeNo_congr e (k .img (by decide)), fun e c => coreId_congr e (k .img (by decide)) c, fun e c => unitId_congr e (k .img (by decide)) c, fun c => chan_congr (k .cmd (by decide)) c, fun x => entOk_congr (k .img (by decide)) x, fun c => groupOf_congr (k .img (by decide)) (k .jobs (by decide)) c, fun c => probing_congr (k .age (by decide)) c, fun e x => presentCore_congr e (k .img (by decide)) x⟩

@[simp] theorem lanEnd_reads (a0 a1 a2 a3 a4) :
    (lanEnd a0 a1 a2 a3 a4).free = a4.free ∧ (lanEnd a0 a1 a2 a3 a4).sys = a4.sys ∧ (lanEnd a0 a1 a2 a3 a4).isl = a4.isl ∧
    (lanEnd a0 a1 a2 a3 a4).time = a4.time ∧ (lanEnd a0 a1 a2 a3 a4).dig = a4.dig ∧ (lanEnd a0 a1 a2 a3 a4).xs = a4.xs ∧
    (lanEnd a0 a1 a2 a3 a4).ens = a4.ens ∧ (lanEnd a0 a1 a2 a3 a4).casc = a4.casc ∧ (lanEnd a0 a1 a2 a3 a4).age = a4.age ∧
    (lanEnd a0 a1 a2 a3 a4).fab = a4.fab ∧ (lanEnd a0 a1 a2 a3 a4).sb = a4.sb ∧ (lanEnd a0 a1 a2 a3 a4).bc = a4.bc ∧
    (lanEnd a0 a1 a2 a3 a4).jobs = a4.jobs ∧ (lanEnd a0 a1 a2 a3 a4).mgt = a4.mgt ∧ (lanEnd a0 a1 a2 a3 a4).cmd = a4.cmd ∧
    (lanEnd a0 a1 a2 a3 a4).prot = a4.prot ∧ (lanEnd a0 a1 a2 a3 a4).regs = a4.regs ∧ (lanEnd a0 a1 a2 a3 a4).mem = a4.mem ∧
    (lanEnd a0 a1 a2 a3 a4).dma = a4.dma ∧ (lanEnd a0 a1 a2 a3 a4).trc = a4.trc ∧ (lanEnd a0 a1 a2 a3 a4).nid = a4.nid ∧
    (lanEnd a0 a1 a2 a3 a4).log = a4.log ∧ (lanEnd a0 a1 a2 a3 a4).boot = a4.boot ∧ (lanEnd a0 a1 a2 a3 a4).img = a4.img ∧
    (lanEnd a0 a1 a2 a3 a4).reports = a4.reports ∧ (lanEnd a0 a1 a2 a3 a4).posted = a4.posted ∧ (lanEnd a0 a1 a2 a3 a4).nvPosted = a4.nvPosted ∧
    (∀ (x : Word), entity (lanEnd a0 a1 a2 a3 a4) x = entity a4 x) ∧ (nowNs (lanEnd a0 a1 a2 a3 a4) = nowNs a4 ) ∧ (imgOf (lanEnd a0 a1 a2 a3 a4) = imgOf a4 ) ∧
    (serving (lanEnd a0 a1 a2 a3 a4) = serving a4 ) ∧ (working (lanEnd a0 a1 a2 a3 a4) = working a4 ) ∧ (alive (lanEnd a0 a1 a2 a3 a4) = alive a4 ) ∧
    (upState (lanEnd a0 a1 a2 a3 a4) = upState a4 ) ∧ (portOn (lanEnd a0 a1 a2 a3 a4) = portOn a4 ) ∧ (∀ (e : Env), dieNo e (lanEnd a0 a1 a2 a3 a4) = dieNo e a4 ) ∧
    (∀ (e : Env), nodeNo e (lanEnd a0 a1 a2 a3 a4) = nodeNo e a4 ) ∧ (∀ (e : Env) (c : Nat), coreId e (lanEnd a0 a1 a2 a3 a4) c = coreId e a4 c) ∧ (∀ (e : Env) (c : Nat), unitId e (lanEnd a0 a1 a2 a3 a4) c = unitId e a4 c) ∧
    (∀ (c : Nat), chan (lanEnd a0 a1 a2 a3 a4) c = chan a4 c) ∧ (∀ (x : Word), entOk (lanEnd a0 a1 a2 a3 a4) x = entOk a4 x) ∧ (∀ (c : Nat), groupOf (lanEnd a0 a1 a2 a3 a4) c = groupOf a4 c) ∧
    (∀ (c : Nat), probing (lanEnd a0 a1 a2 a3 a4) c = probing a4 c) ∧ (∀ (e : Env) (x : Word), presentCore e (lanEnd a0 a1 a2 a3 a4) x = presentCore e a4 x) := by
  have k := (lanEnd_only a0 a1 a2 a3 a4).keep
  exact ⟨k .free (by decide), k .sys (by decide), k .isl (by decide), k .time (by decide), k .dig (by decide), k .xs (by decide), k .ens (by decide), k .casc (by decide), k .age (by decide), k .fab (by decide), k .sb (by decide), k .bc (by decide), k .jobs (by decide), k .mgt (by decide), k .cmd (by decide), k .prot (by decide), k .regs (by decide), k .mem (by decide), k .dma (by decide), k .trc (by decide), k .nid (by decide), k .log (by decide), k .boot (by decide), k .img (by decide), k .reports (by decide), k .ram (by decide), k .nvm (by decide), fun x => entity_congr (k .casc (by decide)) x, nowNs_congr (k .time (by decide)), imgOf_congr (k .img (by decide)), serving_congr (k .sys (by decide)), working_congr (k .sys (by decide)), alive_congr (k .sys (by decide)), upState_congr (k .sys (by decide)), portOn_congr (k .sys (by decide)), fun e  => dieNo_congr e (k .img (by decide)), fun e  => nodeNo_congr e (k .img (by decide)), fun e c => coreId_congr e (k .img (by decide)) c, fun e c => unitId_congr e (k .img (by decide)) c, fun c => chan_congr (k .cmd (by decide)) c, fun x => entOk_congr (k .img (by decide)) x, fun c => groupOf_congr (k .img (by decide)) (k .jobs (by decide)) c, fun c => probing_congr (k .age (by decide)) c, fun e x => presentCore_congr e (k .img (by decide)) x⟩

@[simp] theorem lanSkip_reads (a0 a1 a2 a3 a4) :
    (lanSkip a0 a1 a2 a3 a4).free = a4.free ∧ (lanSkip a0 a1 a2 a3 a4).sys = a4.sys ∧ (lanSkip a0 a1 a2 a3 a4).isl = a4.isl ∧
    (lanSkip a0 a1 a2 a3 a4).time = a4.time ∧ (lanSkip a0 a1 a2 a3 a4).dig = a4.dig ∧ (lanSkip a0 a1 a2 a3 a4).xs = a4.xs ∧
    (lanSkip a0 a1 a2 a3 a4).ens = a4.ens ∧ (lanSkip a0 a1 a2 a3 a4).casc = a4.casc ∧ (lanSkip a0 a1 a2 a3 a4).age = a4.age ∧
    (lanSkip a0 a1 a2 a3 a4).fab = a4.fab ∧ (lanSkip a0 a1 a2 a3 a4).sb = a4.sb ∧ (lanSkip a0 a1 a2 a3 a4).bc = a4.bc ∧
    (lanSkip a0 a1 a2 a3 a4).jobs = a4.jobs ∧ (lanSkip a0 a1 a2 a3 a4).mgt = a4.mgt ∧ (lanSkip a0 a1 a2 a3 a4).cmd = a4.cmd ∧
    (lanSkip a0 a1 a2 a3 a4).prot = a4.prot ∧ (lanSkip a0 a1 a2 a3 a4).regs = a4.regs ∧ (lanSkip a0 a1 a2 a3 a4).mem = a4.mem ∧
    (lanSkip a0 a1 a2 a3 a4).dma = a4.dma ∧ (lanSkip a0 a1 a2 a3 a4).trc = a4.trc ∧ (lanSkip a0 a1 a2 a3 a4).nid = a4.nid ∧
    (lanSkip a0 a1 a2 a3 a4).log = a4.log ∧ (lanSkip a0 a1 a2 a3 a4).boot = a4.boot ∧ (lanSkip a0 a1 a2 a3 a4).img = a4.img ∧
    (lanSkip a0 a1 a2 a3 a4).reports = a4.reports ∧ (lanSkip a0 a1 a2 a3 a4).posted = a4.posted ∧ (lanSkip a0 a1 a2 a3 a4).nvPosted = a4.nvPosted ∧
    (∀ (x : Word), entity (lanSkip a0 a1 a2 a3 a4) x = entity a4 x) ∧ (nowNs (lanSkip a0 a1 a2 a3 a4) = nowNs a4 ) ∧ (imgOf (lanSkip a0 a1 a2 a3 a4) = imgOf a4 ) ∧
    (serving (lanSkip a0 a1 a2 a3 a4) = serving a4 ) ∧ (working (lanSkip a0 a1 a2 a3 a4) = working a4 ) ∧ (alive (lanSkip a0 a1 a2 a3 a4) = alive a4 ) ∧
    (upState (lanSkip a0 a1 a2 a3 a4) = upState a4 ) ∧ (portOn (lanSkip a0 a1 a2 a3 a4) = portOn a4 ) ∧ (∀ (e : Env), dieNo e (lanSkip a0 a1 a2 a3 a4) = dieNo e a4 ) ∧
    (∀ (e : Env), nodeNo e (lanSkip a0 a1 a2 a3 a4) = nodeNo e a4 ) ∧ (∀ (e : Env) (c : Nat), coreId e (lanSkip a0 a1 a2 a3 a4) c = coreId e a4 c) ∧ (∀ (e : Env) (c : Nat), unitId e (lanSkip a0 a1 a2 a3 a4) c = unitId e a4 c) ∧
    (∀ (c : Nat), chan (lanSkip a0 a1 a2 a3 a4) c = chan a4 c) ∧ (∀ (x : Word), entOk (lanSkip a0 a1 a2 a3 a4) x = entOk a4 x) ∧ (∀ (c : Nat), groupOf (lanSkip a0 a1 a2 a3 a4) c = groupOf a4 c) ∧
    (∀ (c : Nat), probing (lanSkip a0 a1 a2 a3 a4) c = probing a4 c) ∧ (∀ (e : Env) (x : Word), presentCore e (lanSkip a0 a1 a2 a3 a4) x = presentCore e a4 x) := by
  have k := (lanSkip_only a0 a1 a2 a3 a4).keep
  exact ⟨k .free (by decide), k .sys (by decide), k .isl (by decide), k .time (by decide), k .dig (by decide), k .xs (by decide), k .ens (by decide), k .casc (by decide), k .age (by decide), k .fab (by decide), k .sb (by decide), k .bc (by decide), k .jobs (by decide), k .mgt (by decide), k .cmd (by decide), k .prot (by decide), k .regs (by decide), k .mem (by decide), k .dma (by decide), k .trc (by decide), k .nid (by decide), k .log (by decide), k .boot (by decide), k .img (by decide), k .reports (by decide), k .ram (by decide), k .nvm (by decide), fun x => entity_congr (k .casc (by decide)) x, nowNs_congr (k .time (by decide)), imgOf_congr (k .img (by decide)), serving_congr (k .sys (by decide)), working_congr (k .sys (by decide)), alive_congr (k .sys (by decide)), upState_congr (k .sys (by decide)), portOn_congr (k .sys (by decide)), fun e  => dieNo_congr e (k .img (by decide)), fun e  => nodeNo_congr e (k .img (by decide)), fun e c => coreId_congr e (k .img (by decide)) c, fun e c => unitId_congr e (k .img (by decide)) c, fun c => chan_congr (k .cmd (by decide)) c, fun x => entOk_congr (k .img (by decide)) x, fun c => groupOf_congr (k .img (by decide)) (k .jobs (by decide)) c, fun c => probing_congr (k .age (by decide)) c, fun e x => presentCore_congr e (k .img (by decide)) x⟩

@[simp] theorem closeShort_reads (a0 a1 a2) :
    (closeShort a0 a1 a2).free = a2.free ∧ (closeShort a0 a1 a2).sys = a2.sys ∧ (closeShort a0 a1 a2).isl = a2.isl ∧
    (closeShort a0 a1 a2).time = a2.time ∧ (closeShort a0 a1 a2).res = a2.res ∧ (closeShort a0 a1 a2).dig = a2.dig ∧
    (closeShort a0 a1 a2).xs = a2.xs ∧ (closeShort a0 a1 a2).ens = a2.ens ∧ (closeShort a0 a1 a2).casc = a2.casc ∧
    (closeShort a0 a1 a2).age = a2.age ∧ (closeShort a0 a1 a2).fab = a2.fab ∧ (closeShort a0 a1 a2).sb = a2.sb ∧
    (closeShort a0 a1 a2).bc = a2.bc ∧ (closeShort a0 a1 a2).jobs = a2.jobs ∧ (closeShort a0 a1 a2).mgt = a2.mgt ∧
    (closeShort a0 a1 a2).cmd = a2.cmd ∧ (closeShort a0 a1 a2).prot = a2.prot ∧ (closeShort a0 a1 a2).regs = a2.regs ∧
    (closeShort a0 a1 a2).mem = a2.mem ∧ (closeShort a0 a1 a2).dma = a2.dma ∧ (closeShort a0 a1 a2).trc = a2.trc ∧
    (closeShort a0 a1 a2).nid = a2.nid ∧ (closeShort a0 a1 a2).log = a2.log ∧ (closeShort a0 a1 a2).boot = a2.boot ∧
    (closeShort a0 a1 a2).img = a2.img ∧ (closeShort a0 a1 a2).reports = a2.reports ∧ (closeShort a0 a1 a2).posted = a2.posted ∧
    (closeShort a0 a1 a2).nvPosted = a2.nvPosted ∧ (∀ (x : Word), entity (closeShort a0 a1 a2) x = entity a2 x) ∧ (nowNs (closeShort a0 a1 a2) = nowNs a2 ) ∧
    (imgOf (closeShort a0 a1 a2) = imgOf a2 ) ∧ (serving (closeShort a0 a1 a2) = serving a2 ) ∧ (working (closeShort a0 a1 a2) = working a2 ) ∧
    (alive (closeShort a0 a1 a2) = alive a2 ) ∧ (upState (closeShort a0 a1 a2) = upState a2 ) ∧ (portOn (closeShort a0 a1 a2) = portOn a2 ) ∧
    (∀ (e : Env), dieNo e (closeShort a0 a1 a2) = dieNo e a2 ) ∧ (∀ (e : Env), nodeNo e (closeShort a0 a1 a2) = nodeNo e a2 ) ∧ (∀ (e : Env) (c : Nat), coreId e (closeShort a0 a1 a2) c = coreId e a2 c) ∧
    (∀ (e : Env) (c : Nat), unitId e (closeShort a0 a1 a2) c = unitId e a2 c) ∧ (∀ (c : Nat), chan (closeShort a0 a1 a2) c = chan a2 c) ∧ (∀ (x : Word), entOk (closeShort a0 a1 a2) x = entOk a2 x) ∧
    (∀ (c : Nat), groupOf (closeShort a0 a1 a2) c = groupOf a2 c) ∧ (∀ (c : Nat), probing (closeShort a0 a1 a2) c = probing a2 c) ∧ (∀ (e : Env) (x : Word), presentCore e (closeShort a0 a1 a2) x = presentCore e a2 x) := by
  have k := (closeShort_only a0 a1 a2).keep
  exact ⟨k .free (by decide), k .sys (by decide), k .isl (by decide), k .time (by decide), k .res (by decide), k .dig (by decide), k .xs (by decide), k .ens (by decide), k .casc (by decide), k .age (by decide), k .fab (by decide), k .sb (by decide), k .bc (by decide), k .jobs (by decide), k .mgt (by decide), k .cmd (by decide), k .prot (by decide), k .regs (by decide), k .mem (by decide), k .dma (by decide), k .trc (by decide), k .nid (by decide), k .log (by decide), k .boot (by decide), k .img (by decide), k .reports (by decide), k .ram (by decide), k .nvm (by decide), fun x => entity_congr (k .casc (by decide)) x, nowNs_congr (k .time (by decide)), imgOf_congr (k .img (by decide)), serving_congr (k .sys (by decide)), working_congr (k .sys (by decide)), alive_congr (k .sys (by decide)), upState_congr (k .sys (by decide)), portOn_congr (k .sys (by decide)), fun e  => dieNo_congr e (k .img (by decide)), fun e  => nodeNo_congr e (k .img (by decide)), fun e c => coreId_congr e (k .img (by decide)) c, fun e c => unitId_congr e (k .img (by decide)) c, fun c => chan_congr (k .cmd (by decide)) c, fun x => entOk_congr (k .img (by decide)) x, fun c => groupOf_congr (k .img (by decide)) (k .jobs (by decide)) c, fun c => probing_congr (k .age (by decide)) c, fun e x => presentCore_congr e (k .img (by decide)) x⟩

@[simp] theorem endOldest_reads (a0 a1 a2 a3 a4) :
    (endOldest a0 a1 a2 a3 a4).free = a4.free ∧ (endOldest a0 a1 a2 a3 a4).sys = a4.sys ∧ (endOldest a0 a1 a2 a3 a4).isl = a4.isl ∧
    (endOldest a0 a1 a2 a3 a4).time = a4.time ∧ (endOldest a0 a1 a2 a3 a4).dig = a4.dig ∧ (endOldest a0 a1 a2 a3 a4).xs = a4.xs ∧
    (endOldest a0 a1 a2 a3 a4).ens = a4.ens ∧ (endOldest a0 a1 a2 a3 a4).casc = a4.casc ∧ (endOldest a0 a1 a2 a3 a4).age = a4.age ∧
    (endOldest a0 a1 a2 a3 a4).fab = a4.fab ∧ (endOldest a0 a1 a2 a3 a4).sb = a4.sb ∧ (endOldest a0 a1 a2 a3 a4).bc = a4.bc ∧
    (endOldest a0 a1 a2 a3 a4).jobs = a4.jobs ∧ (endOldest a0 a1 a2 a3 a4).mgt = a4.mgt ∧ (endOldest a0 a1 a2 a3 a4).cmd = a4.cmd ∧
    (endOldest a0 a1 a2 a3 a4).prot = a4.prot ∧ (endOldest a0 a1 a2 a3 a4).regs = a4.regs ∧ (endOldest a0 a1 a2 a3 a4).mem = a4.mem ∧
    (endOldest a0 a1 a2 a3 a4).dma = a4.dma ∧ (endOldest a0 a1 a2 a3 a4).trc = a4.trc ∧ (endOldest a0 a1 a2 a3 a4).nid = a4.nid ∧
    (endOldest a0 a1 a2 a3 a4).log = a4.log ∧ (endOldest a0 a1 a2 a3 a4).boot = a4.boot ∧ (endOldest a0 a1 a2 a3 a4).img = a4.img ∧
    (endOldest a0 a1 a2 a3 a4).reports = a4.reports ∧ (endOldest a0 a1 a2 a3 a4).posted = a4.posted ∧ (endOldest a0 a1 a2 a3 a4).nvPosted = a4.nvPosted ∧
    (∀ (x : Word), entity (endOldest a0 a1 a2 a3 a4) x = entity a4 x) ∧ (nowNs (endOldest a0 a1 a2 a3 a4) = nowNs a4 ) ∧ (imgOf (endOldest a0 a1 a2 a3 a4) = imgOf a4 ) ∧
    (serving (endOldest a0 a1 a2 a3 a4) = serving a4 ) ∧ (working (endOldest a0 a1 a2 a3 a4) = working a4 ) ∧ (alive (endOldest a0 a1 a2 a3 a4) = alive a4 ) ∧
    (upState (endOldest a0 a1 a2 a3 a4) = upState a4 ) ∧ (portOn (endOldest a0 a1 a2 a3 a4) = portOn a4 ) ∧ (∀ (e : Env), dieNo e (endOldest a0 a1 a2 a3 a4) = dieNo e a4 ) ∧
    (∀ (e : Env), nodeNo e (endOldest a0 a1 a2 a3 a4) = nodeNo e a4 ) ∧ (∀ (e : Env) (c : Nat), coreId e (endOldest a0 a1 a2 a3 a4) c = coreId e a4 c) ∧ (∀ (e : Env) (c : Nat), unitId e (endOldest a0 a1 a2 a3 a4) c = unitId e a4 c) ∧
    (∀ (c : Nat), chan (endOldest a0 a1 a2 a3 a4) c = chan a4 c) ∧ (∀ (x : Word), entOk (endOldest a0 a1 a2 a3 a4) x = entOk a4 x) ∧ (∀ (c : Nat), groupOf (endOldest a0 a1 a2 a3 a4) c = groupOf a4 c) ∧
    (∀ (c : Nat), probing (endOldest a0 a1 a2 a3 a4) c = probing a4 c) ∧ (∀ (e : Env) (x : Word), presentCore e (endOldest a0 a1 a2 a3 a4) x = presentCore e a4 x) := by
  have k := (endOldest_only a0 a1 a2 a3 a4).keep
  exact ⟨k .free (by decide), k .sys (by decide), k .isl (by decide), k .time (by decide), k .dig (by decide), k .xs (by decide), k .ens (by decide), k .casc (by decide), k .age (by decide), k .fab (by decide), k .sb (by decide), k .bc (by decide), k .jobs (by decide), k .mgt (by decide), k .cmd (by decide), k .prot (by decide), k .regs (by decide), k .mem (by decide), k .dma (by decide), k .trc (by decide), k .nid (by decide), k .log (by decide), k .boot (by decide), k .img (by decide), k .reports (by decide), k .ram (by decide), k .nvm (by decide), fun x => entity_congr (k .casc (by decide)) x, nowNs_congr (k .time (by decide)), imgOf_congr (k .img (by decide)), serving_congr (k .sys (by decide)), working_congr (k .sys (by decide)), alive_congr (k .sys (by decide)), upState_congr (k .sys (by decide)), portOn_congr (k .sys (by decide)), fun e  => dieNo_congr e (k .img (by decide)), fun e  => nodeNo_congr e (k .img (by decide)), fun e c => coreId_congr e (k .img (by decide)) c, fun e c => unitId_congr e (k .img (by decide)) c, fun c => chan_congr (k .cmd (by decide)) c, fun x => entOk_congr (k .img (by decide)) x, fun c => groupOf_congr (k .img (by decide)) (k .jobs (by decide)) c, fun c => probing_congr (k .age (by decide)) c, fun e x => presentCore_congr e (k .img (by decide)) x⟩

@[simp] theorem dropEntry_reads (a0 a1) :
    (dropEntry a0 a1).free = a1.free ∧ (dropEntry a0 a1).sys = a1.sys ∧ (dropEntry a0 a1).isl = a1.isl ∧
    (dropEntry a0 a1).time = a1.time ∧ (dropEntry a0 a1).cells = a1.cells ∧ (dropEntry a0 a1).hubc = a1.hubc ∧
    (dropEntry a0 a1).res = a1.res ∧ (dropEntry a0 a1).dig = a1.dig ∧ (dropEntry a0 a1).xs = a1.xs ∧
    (dropEntry a0 a1).ens = a1.ens ∧ (dropEntry a0 a1).casc = a1.casc ∧ (dropEntry a0 a1).age = a1.age ∧
    (dropEntry a0 a1).fab = a1.fab ∧ (dropEntry a0 a1).sb = a1.sb ∧ (dropEntry a0 a1).bc = a1.bc ∧
    (dropEntry a0 a1).jobs = a1.jobs ∧ (dropEntry a0 a1).mgt = a1.mgt ∧ (dropEntry a0 a1).cmd = a1.cmd ∧
    (dropEntry a0 a1).prot = a1.prot ∧ (dropEntry a0 a1).regs = a1.regs ∧ (dropEntry a0 a1).mem = a1.mem ∧
    (dropEntry a0 a1).dma = a1.dma ∧ (dropEntry a0 a1).trc = a1.trc ∧ (dropEntry a0 a1).nid = a1.nid ∧
    (dropEntry a0 a1).log = a1.log ∧ (dropEntry a0 a1).boot = a1.boot ∧ (dropEntry a0 a1).img = a1.img ∧
    (dropEntry a0 a1).reports = a1.reports ∧ (dropEntry a0 a1).posted = a1.posted ∧ (dropEntry a0 a1).nvPosted = a1.nvPosted ∧
    (∀ (c : Nat), cell (dropEntry a0 a1) c = cell a1 c) ∧ (∀ (c : Nat), Sys2Proof.Machine.hubc (dropEntry a0 a1) c = Sys2Proof.Machine.hubc a1 c) ∧ (∀ (x : Word), entity (dropEntry a0 a1) x = entity a1 x) ∧
    (nowNs (dropEntry a0 a1) = nowNs a1 ) ∧ (imgOf (dropEntry a0 a1) = imgOf a1 ) ∧ (serving (dropEntry a0 a1) = serving a1 ) ∧
    (working (dropEntry a0 a1) = working a1 ) ∧ (alive (dropEntry a0 a1) = alive a1 ) ∧ (upState (dropEntry a0 a1) = upState a1 ) ∧
    (portOn (dropEntry a0 a1) = portOn a1 ) ∧ (∀ (e : Env), dieNo e (dropEntry a0 a1) = dieNo e a1 ) ∧ (∀ (e : Env), nodeNo e (dropEntry a0 a1) = nodeNo e a1 ) ∧
    (∀ (e : Env) (c : Nat), coreId e (dropEntry a0 a1) c = coreId e a1 c) ∧ (∀ (e : Env) (c : Nat), unitId e (dropEntry a0 a1) c = unitId e a1 c) ∧ (∀ (c : Nat), chan (dropEntry a0 a1) c = chan a1 c) ∧
    (∀ (x : Word), entOk (dropEntry a0 a1) x = entOk a1 x) ∧ (∀ (c : Nat), groupOf (dropEntry a0 a1) c = groupOf a1 c) ∧ (∀ (c : Nat), probing (dropEntry a0 a1) c = probing a1 c) ∧
    (∀ (e : Env) (x : Word), presentCore e (dropEntry a0 a1) x = presentCore e a1 x) := by
  have k := (dropEntry_only a0 a1).keep
  exact ⟨k .free (by decide), k .sys (by decide), k .isl (by decide), k .time (by decide), k .cells (by decide), k .hubc (by decide), k .res (by decide), k .dig (by decide), k .xs (by decide), k .ens (by decide), k .casc (by decide), k .age (by decide), k .fab (by decide), k .sb (by decide), k .bc (by decide), k .jobs (by decide), k .mgt (by decide), k .cmd (by decide), k .prot (by decide), k .regs (by decide), k .mem (by decide), k .dma (by decide), k .trc (by decide), k .nid (by decide), k .log (by decide), k .boot (by decide), k .img (by decide), k .reports (by decide), k .ram (by decide), k .nvm (by decide), fun c => cell_congr (k .cells (by decide)) c, fun c => hubc_congr (k .hubc (by decide)) c, fun x => entity_congr (k .casc (by decide)) x, nowNs_congr (k .time (by decide)), imgOf_congr (k .img (by decide)), serving_congr (k .sys (by decide)), working_congr (k .sys (by decide)), alive_congr (k .sys (by decide)), upState_congr (k .sys (by decide)), portOn_congr (k .sys (by decide)), fun e  => dieNo_congr e (k .img (by decide)), fun e  => nodeNo_congr e (k .img (by decide)), fun e c => coreId_congr e (k .img (by decide)) c, fun e c => unitId_congr e (k .img (by decide)) c, fun c => chan_congr (k .cmd (by decide)) c, fun x => entOk_congr (k .img (by decide)) x, fun c => groupOf_congr (k .img (by decide)) (k .jobs (by decide)) c, fun c => probing_congr (k .age (by decide)) c, fun e x => presentCore_congr e (k .img (by decide)) x⟩

@[simp] theorem auditSkip_reads (a0 a1 a2) :
    (auditSkip a0 a1 a2).free = a2.free ∧ (auditSkip a0 a1 a2).sys = a2.sys ∧ (auditSkip a0 a1 a2).isl = a2.isl ∧
    (auditSkip a0 a1 a2).time = a2.time ∧ (auditSkip a0 a1 a2).regions = a2.regions ∧ (auditSkip a0 a1 a2).cells = a2.cells ∧
    (auditSkip a0 a1 a2).dig = a2.dig ∧ (auditSkip a0 a1 a2).xs = a2.xs ∧ (auditSkip a0 a1 a2).ens = a2.ens ∧
    (auditSkip a0 a1 a2).casc = a2.casc ∧ (auditSkip a0 a1 a2).age = a2.age ∧ (auditSkip a0 a1 a2).fab = a2.fab ∧
    (auditSkip a0 a1 a2).sb = a2.sb ∧ (auditSkip a0 a1 a2).bc = a2.bc ∧ (auditSkip a0 a1 a2).jobs = a2.jobs ∧
    (auditSkip a0 a1 a2).mgt = a2.mgt ∧ (auditSkip a0 a1 a2).cmd = a2.cmd ∧ (auditSkip a0 a1 a2).prot = a2.prot ∧
    (auditSkip a0 a1 a2).regs = a2.regs ∧ (auditSkip a0 a1 a2).mem = a2.mem ∧ (auditSkip a0 a1 a2).dma = a2.dma ∧
    (auditSkip a0 a1 a2).trc = a2.trc ∧ (auditSkip a0 a1 a2).nid = a2.nid ∧ (auditSkip a0 a1 a2).log = a2.log ∧
    (auditSkip a0 a1 a2).boot = a2.boot ∧ (auditSkip a0 a1 a2).img = a2.img ∧ (auditSkip a0 a1 a2).reports = a2.reports ∧
    (auditSkip a0 a1 a2).posted = a2.posted ∧ (auditSkip a0 a1 a2).nvPosted = a2.nvPosted ∧ (∀ (c : Nat), cell (auditSkip a0 a1 a2) c = cell a2 c) ∧
    (∀ (c : Nat), region (auditSkip a0 a1 a2) c = region a2 c) ∧ (∀ (x : Word), entity (auditSkip a0 a1 a2) x = entity a2 x) ∧ (nowNs (auditSkip a0 a1 a2) = nowNs a2 ) ∧
    (imgOf (auditSkip a0 a1 a2) = imgOf a2 ) ∧ (serving (auditSkip a0 a1 a2) = serving a2 ) ∧ (working (auditSkip a0 a1 a2) = working a2 ) ∧
    (alive (auditSkip a0 a1 a2) = alive a2 ) ∧ (upState (auditSkip a0 a1 a2) = upState a2 ) ∧ (portOn (auditSkip a0 a1 a2) = portOn a2 ) ∧
    (∀ (e : Env), dieNo e (auditSkip a0 a1 a2) = dieNo e a2 ) ∧ (∀ (e : Env), nodeNo e (auditSkip a0 a1 a2) = nodeNo e a2 ) ∧ (∀ (e : Env) (c : Nat), coreId e (auditSkip a0 a1 a2) c = coreId e a2 c) ∧
    (∀ (e : Env) (c : Nat), unitId e (auditSkip a0 a1 a2) c = unitId e a2 c) ∧ (∀ (c : Nat), chan (auditSkip a0 a1 a2) c = chan a2 c) ∧ (∀ (x : Word), entOk (auditSkip a0 a1 a2) x = entOk a2 x) ∧
    (∀ (c : Nat), groupOf (auditSkip a0 a1 a2) c = groupOf a2 c) ∧ (∀ (c : Nat), probing (auditSkip a0 a1 a2) c = probing a2 c) ∧ (∀ (e : Env) (x : Word), presentCore e (auditSkip a0 a1 a2) x = presentCore e a2 x) := by
  have k := (auditSkip_only a0 a1 a2).keep
  exact ⟨k .free (by decide), k .sys (by decide), k .isl (by decide), k .time (by decide), k .regions (by decide), k .cells (by decide), k .dig (by decide), k .xs (by decide), k .ens (by decide), k .casc (by decide), k .age (by decide), k .fab (by decide), k .sb (by decide), k .bc (by decide), k .jobs (by decide), k .mgt (by decide), k .cmd (by decide), k .prot (by decide), k .regs (by decide), k .mem (by decide), k .dma (by decide), k .trc (by decide), k .nid (by decide), k .log (by decide), k .boot (by decide), k .img (by decide), k .reports (by decide), k .ram (by decide), k .nvm (by decide), fun c => cell_congr (k .cells (by decide)) c, fun c => region_congr (k .regions (by decide)) c, fun x => entity_congr (k .casc (by decide)) x, nowNs_congr (k .time (by decide)), imgOf_congr (k .img (by decide)), serving_congr (k .sys (by decide)), working_congr (k .sys (by decide)), alive_congr (k .sys (by decide)), upState_congr (k .sys (by decide)), portOn_congr (k .sys (by decide)), fun e  => dieNo_congr e (k .img (by decide)), fun e  => nodeNo_congr e (k .img (by decide)), fun e c => coreId_congr e (k .img (by decide)) c, fun e c => unitId_congr e (k .img (by decide)) c, fun c => chan_congr (k .cmd (by decide)) c, fun x => entOk_congr (k .img (by decide)) x, fun c => groupOf_congr (k .img (by decide)) (k .jobs (by decide)) c, fun c => probing_congr (k .age (by decide)) c, fun e x => presentCore_congr e (k .img (by decide)) x⟩

@[simp] theorem timeOutTile_reads (a0 a1 a2 a3) :
    (timeOutTile a0 a1 a2 a3).free = a3.free ∧ (timeOutTile a0 a1 a2 a3).sys = a3.sys ∧ (timeOutTile a0 a1 a2 a3).isl = a3.isl ∧
    (timeOutTile a0 a1 a2 a3).time = a3.time ∧ (timeOutTile a0 a1 a2 a3).res = a3.res ∧ (timeOutTile a0 a1 a2 a3).dig = a3.dig ∧
    (timeOutTile a0 a1 a2 a3).xs = a3.xs ∧ (timeOutTile a0 a1 a2 a3).ens = a3.ens ∧ (timeOutTile a0 a1 a2 a3).casc = a3.casc ∧
    (timeOutTile a0 a1 a2 a3).age = a3.age ∧ (timeOutTile a0 a1 a2 a3).fab = a3.fab ∧ (timeOutTile a0 a1 a2 a3).sb = a3.sb ∧
    (timeOutTile a0 a1 a2 a3).bc = a3.bc ∧ (timeOutTile a0 a1 a2 a3).jobs = a3.jobs ∧ (timeOutTile a0 a1 a2 a3).mgt = a3.mgt ∧
    (timeOutTile a0 a1 a2 a3).cmd = a3.cmd ∧ (timeOutTile a0 a1 a2 a3).prot = a3.prot ∧ (timeOutTile a0 a1 a2 a3).regs = a3.regs ∧
    (timeOutTile a0 a1 a2 a3).mem = a3.mem ∧ (timeOutTile a0 a1 a2 a3).dma = a3.dma ∧ (timeOutTile a0 a1 a2 a3).trc = a3.trc ∧
    (timeOutTile a0 a1 a2 a3).nid = a3.nid ∧ (timeOutTile a0 a1 a2 a3).log = a3.log ∧ (timeOutTile a0 a1 a2 a3).boot = a3.boot ∧
    (timeOutTile a0 a1 a2 a3).img = a3.img ∧ (timeOutTile a0 a1 a2 a3).reports = a3.reports ∧ (timeOutTile a0 a1 a2 a3).posted = a3.posted ∧
    (timeOutTile a0 a1 a2 a3).nvPosted = a3.nvPosted ∧ (∀ (x : Word), entity (timeOutTile a0 a1 a2 a3) x = entity a3 x) ∧ (nowNs (timeOutTile a0 a1 a2 a3) = nowNs a3 ) ∧
    (imgOf (timeOutTile a0 a1 a2 a3) = imgOf a3 ) ∧ (serving (timeOutTile a0 a1 a2 a3) = serving a3 ) ∧ (working (timeOutTile a0 a1 a2 a3) = working a3 ) ∧
    (alive (timeOutTile a0 a1 a2 a3) = alive a3 ) ∧ (upState (timeOutTile a0 a1 a2 a3) = upState a3 ) ∧ (portOn (timeOutTile a0 a1 a2 a3) = portOn a3 ) ∧
    (∀ (e : Env), dieNo e (timeOutTile a0 a1 a2 a3) = dieNo e a3 ) ∧ (∀ (e : Env), nodeNo e (timeOutTile a0 a1 a2 a3) = nodeNo e a3 ) ∧ (∀ (e : Env) (c : Nat), coreId e (timeOutTile a0 a1 a2 a3) c = coreId e a3 c) ∧
    (∀ (e : Env) (c : Nat), unitId e (timeOutTile a0 a1 a2 a3) c = unitId e a3 c) ∧ (∀ (c : Nat), chan (timeOutTile a0 a1 a2 a3) c = chan a3 c) ∧ (∀ (x : Word), entOk (timeOutTile a0 a1 a2 a3) x = entOk a3 x) ∧
    (∀ (c : Nat), groupOf (timeOutTile a0 a1 a2 a3) c = groupOf a3 c) ∧ (∀ (c : Nat), probing (timeOutTile a0 a1 a2 a3) c = probing a3 c) ∧ (∀ (e : Env) (x : Word), presentCore e (timeOutTile a0 a1 a2 a3) x = presentCore e a3 x) := by
  have k := (timeOutTile_only a0 a1 a2 a3).keep
  exact ⟨k .free (by decide), k .sys (by decide), k .isl (by decide), k .time (by decide), k .res (by decide), k .dig (by decide), k .xs (by decide), k .ens (by decide), k .casc (by decide), k .age (by decide), k .fab (by decide), k .sb (by decide), k .bc (by decide), k .jobs (by decide), k .mgt (by decide), k .cmd (by decide), k .prot (by decide), k .regs (by decide), k .mem (by decide), k .dma (by decide), k .trc (by decide), k .nid (by decide), k .log (by decide), k .boot (by decide), k .img (by decide), k .reports (by decide), k .ram (by decide), k .nvm (by decide), fun x => entity_congr (k .casc (by decide)) x, nowNs_congr (k .time (by decide)), imgOf_congr (k .img (by decide)), serving_congr (k .sys (by decide)), working_congr (k .sys (by decide)), alive_congr (k .sys (by decide)), upState_congr (k .sys (by decide)), portOn_congr (k .sys (by decide)), fun e  => dieNo_congr e (k .img (by decide)), fun e  => nodeNo_congr e (k .img (by decide)), fun e c => coreId_congr e (k .img (by decide)) c, fun e c => unitId_congr e (k .img (by decide)) c, fun c => chan_congr (k .cmd (by decide)) c, fun x => entOk_congr (k .img (by decide)) x, fun c => groupOf_congr (k .img (by decide)) (k .jobs (by decide)) c, fun c => probing_congr (k .age (by decide)) c, fun e x => presentCore_congr e (k .img (by decide)) x⟩

@[simp] theorem askAudit_reads (a0 a1 a2 a3 a4 a5 a6 a7) :
    (askAudit a0 a1 a2 a3 a4 a5 a6 a7).free = a7.free ∧ (askAudit a0 a1 a2 a3 a4 a5 a6 a7).sys = a7.sys ∧ (askAudit a0 a1 a2 a3 a4 a5 a6 a7).isl = a7.isl ∧
    (askAudit a0 a1 a2 a3 a4 a5 a6 a7).time = a7.time ∧ (askAudit a0 a1 a2 a3 a4 a5 a6 a7).cells = a7.cells ∧ (askAudit a0 a1 a2 a3 a4 a5 a6 a7).res = a7.res ∧
    (askAudit a0 a1 a2 a3 a4 a5 a6 a7).dig = a7.dig ∧ (askAudit a0 a1 a2 a3 a4 a5 a6 a7).xs = a7.xs ∧ (askAudit a0 a1 a2 a3 a4 a5 a6 a7).ens = a7.ens ∧
    (askAudit a0 a1 a2 a3 a4 a5 a6 a7).casc = a7.casc ∧ (askAudit a0 a1 a2 a3 a4 a5 a6 a7).age = a7.age ∧ (askAudit a0 a1 a2 a3 a4 a5 a6 a7).fab = a7.fab ∧
    (askAudit a0 a1 a2 a3 a4 a5 a6 a7).sb = a7.sb ∧ (askAudit a0 a1 a2 a3 a4 a5 a6 a7).bc = a7.bc ∧ (askAudit a0 a1 a2 a3 a4 a5 a6 a7).jobs = a7.jobs ∧
    (askAudit a0 a1 a2 a3 a4 a5 a6 a7).mgt = a7.mgt ∧ (askAudit a0 a1 a2 a3 a4 a5 a6 a7).cmd = a7.cmd ∧ (askAudit a0 a1 a2 a3 a4 a5 a6 a7).prot = a7.prot ∧
    (askAudit a0 a1 a2 a3 a4 a5 a6 a7).regs = a7.regs ∧ (askAudit a0 a1 a2 a3 a4 a5 a6 a7).mem = a7.mem ∧ (askAudit a0 a1 a2 a3 a4 a5 a6 a7).dma = a7.dma ∧
    (askAudit a0 a1 a2 a3 a4 a5 a6 a7).trc = a7.trc ∧ (askAudit a0 a1 a2 a3 a4 a5 a6 a7).nid = a7.nid ∧ (askAudit a0 a1 a2 a3 a4 a5 a6 a7).log = a7.log ∧
    (askAudit a0 a1 a2 a3 a4 a5 a6 a7).boot = a7.boot ∧ (askAudit a0 a1 a2 a3 a4 a5 a6 a7).img = a7.img ∧ (askAudit a0 a1 a2 a3 a4 a5 a6 a7).reports = a7.reports ∧
    (askAudit a0 a1 a2 a3 a4 a5 a6 a7).posted = a7.posted ∧ (askAudit a0 a1 a2 a3 a4 a5 a6 a7).nvPosted = a7.nvPosted ∧ (∀ (c : Nat), cell (askAudit a0 a1 a2 a3 a4 a5 a6 a7) c = cell a7 c) ∧
    (∀ (x : Word), entity (askAudit a0 a1 a2 a3 a4 a5 a6 a7) x = entity a7 x) ∧ (nowNs (askAudit a0 a1 a2 a3 a4 a5 a6 a7) = nowNs a7 ) ∧ (imgOf (askAudit a0 a1 a2 a3 a4 a5 a6 a7) = imgOf a7 ) ∧
    (serving (askAudit a0 a1 a2 a3 a4 a5 a6 a7) = serving a7 ) ∧ (working (askAudit a0 a1 a2 a3 a4 a5 a6 a7) = working a7 ) ∧ (alive (askAudit a0 a1 a2 a3 a4 a5 a6 a7) = alive a7 ) ∧
    (upState (askAudit a0 a1 a2 a3 a4 a5 a6 a7) = upState a7 ) ∧ (portOn (askAudit a0 a1 a2 a3 a4 a5 a6 a7) = portOn a7 ) ∧ (∀ (e : Env), dieNo e (askAudit a0 a1 a2 a3 a4 a5 a6 a7) = dieNo e a7 ) ∧
    (∀ (e : Env), nodeNo e (askAudit a0 a1 a2 a3 a4 a5 a6 a7) = nodeNo e a7 ) ∧ (∀ (e : Env) (c : Nat), coreId e (askAudit a0 a1 a2 a3 a4 a5 a6 a7) c = coreId e a7 c) ∧ (∀ (e : Env) (c : Nat), unitId e (askAudit a0 a1 a2 a3 a4 a5 a6 a7) c = unitId e a7 c) ∧
    (∀ (c : Nat), chan (askAudit a0 a1 a2 a3 a4 a5 a6 a7) c = chan a7 c) ∧ (∀ (x : Word), entOk (askAudit a0 a1 a2 a3 a4 a5 a6 a7) x = entOk a7 x) ∧ (∀ (c : Nat), groupOf (askAudit a0 a1 a2 a3 a4 a5 a6 a7) c = groupOf a7 c) ∧
    (∀ (c : Nat), probing (askAudit a0 a1 a2 a3 a4 a5 a6 a7) c = probing a7 c) ∧ (∀ (e : Env) (x : Word), presentCore e (askAudit a0 a1 a2 a3 a4 a5 a6 a7) x = presentCore e a7 x) := by
  have k := (askAudit_only a0 a1 a2 a3 a4 a5 a6 a7).keep
  exact ⟨k .free (by decide), k .sys (by decide), k .isl (by decide), k .time (by decide), k .cells (by decide), k .res (by decide), k .dig (by decide), k .xs (by decide), k .ens (by decide), k .casc (by decide), k .age (by decide), k .fab (by decide), k .sb (by decide), k .bc (by decide), k .jobs (by decide), k .mgt (by decide), k .cmd (by decide), k .prot (by decide), k .regs (by decide), k .mem (by decide), k .dma (by decide), k .trc (by decide), k .nid (by decide), k .log (by decide), k .boot (by decide), k .img (by decide), k .reports (by decide), k .ram (by decide), k .nvm (by decide), fun c => cell_congr (k .cells (by decide)) c, fun x => entity_congr (k .casc (by decide)) x, nowNs_congr (k .time (by decide)), imgOf_congr (k .img (by decide)), serving_congr (k .sys (by decide)), working_congr (k .sys (by decide)), alive_congr (k .sys (by decide)), upState_congr (k .sys (by decide)), portOn_congr (k .sys (by decide)), fun e  => dieNo_congr e (k .img (by decide)), fun e  => nodeNo_congr e (k .img (by decide)), fun e c => coreId_congr e (k .img (by decide)) c, fun e c => unitId_congr e (k .img (by decide)) c, fun c => chan_congr (k .cmd (by decide)) c, fun x => entOk_congr (k .img (by decide)) x, fun c => groupOf_congr (k .img (by decide)) (k .jobs (by decide)) c, fun c => probing_congr (k .age (by decide)) c, fun e x => presentCore_congr e (k .img (by decide)) x⟩

@[simp] theorem assignWord_reads (a0 a1 a2) :
    (assignWord a0 a1 a2).sys = a2.sys ∧ (assignWord a0 a1 a2).isl = a2.isl ∧ (assignWord a0 a1 a2).time = a2.time ∧
    (assignWord a0 a1 a2).regions = a2.regions ∧ (assignWord a0 a1 a2).dig = a2.dig ∧ (assignWord a0 a1 a2).xs = a2.xs ∧
    (assignWord a0 a1 a2).ens = a2.ens ∧ (assignWord a0 a1 a2).casc = a2.casc ∧ (assignWord a0 a1 a2).age = a2.age ∧
    (assignWord a0 a1 a2).fab = a2.fab ∧ (assignWord a0 a1 a2).sb = a2.sb ∧ (assignWord a0 a1 a2).bc = a2.bc ∧
    (assignWord a0 a1 a2).jobs = a2.jobs ∧ (assignWord a0 a1 a2).mgt = a2.mgt ∧ (assignWord a0 a1 a2).cmd = a2.cmd ∧
    (assignWord a0 a1 a2).prot = a2.prot ∧ (assignWord a0 a1 a2).regs = a2.regs ∧ (assignWord a0 a1 a2).mem = a2.mem ∧
    (assignWord a0 a1 a2).dma = a2.dma ∧ (assignWord a0 a1 a2).trc = a2.trc ∧ (assignWord a0 a1 a2).nid = a2.nid ∧
    (assignWord a0 a1 a2).log = a2.log ∧ (assignWord a0 a1 a2).boot = a2.boot ∧ (assignWord a0 a1 a2).img = a2.img ∧
    (assignWord a0 a1 a2).reports = a2.reports ∧ (assignWord a0 a1 a2).posted = a2.posted ∧ (assignWord a0 a1 a2).nvPosted = a2.nvPosted ∧
    (∀ (c : Nat), region (assignWord a0 a1 a2) c = region a2 c) ∧ (∀ (x : Word), entity (assignWord a0 a1 a2) x = entity a2 x) ∧ (nowNs (assignWord a0 a1 a2) = nowNs a2 ) ∧
    (imgOf (assignWord a0 a1 a2) = imgOf a2 ) ∧ (serving (assignWord a0 a1 a2) = serving a2 ) ∧ (working (assignWord a0 a1 a2) = working a2 ) ∧
    (alive (assignWord a0 a1 a2) = alive a2 ) ∧ (upState (assignWord a0 a1 a2) = upState a2 ) ∧ (portOn (assignWord a0 a1 a2) = portOn a2 ) ∧
    (∀ (e : Env), dieNo e (assignWord a0 a1 a2) = dieNo e a2 ) ∧ (∀ (e : Env), nodeNo e (assignWord a0 a1 a2) = nodeNo e a2 ) ∧ (∀ (e : Env) (c : Nat), coreId e (assignWord a0 a1 a2) c = coreId e a2 c) ∧
    (∀ (e : Env) (c : Nat), unitId e (assignWord a0 a1 a2) c = unitId e a2 c) ∧ (∀ (c : Nat), chan (assignWord a0 a1 a2) c = chan a2 c) ∧ (∀ (x : Word), entOk (assignWord a0 a1 a2) x = entOk a2 x) ∧
    (∀ (c : Nat), groupOf (assignWord a0 a1 a2) c = groupOf a2 c) ∧ (∀ (c : Nat), probing (assignWord a0 a1 a2) c = probing a2 c) ∧ (∀ (e : Env) (x : Word), presentCore e (assignWord a0 a1 a2) x = presentCore e a2 x) := by
  have k := (assignWord_only a0 a1 a2).keep
  exact ⟨k .sys (by decide), k .isl (by decide), k .time (by decide), k .regions (by decide), k .dig (by decide), k .xs (by decide), k .ens (by decide), k .casc (by decide), k .age (by decide), k .fab (by decide), k .sb (by decide), k .bc (by decide), k .jobs (by decide), k .mgt (by decide), k .cmd (by decide), k .prot (by decide), k .regs (by decide), k .mem (by decide), k .dma (by decide), k .trc (by decide), k .nid (by decide), k .log (by decide), k .boot (by decide), k .img (by decide), k .reports (by decide), k .ram (by decide), k .nvm (by decide), fun c => region_congr (k .regions (by decide)) c, fun x => entity_congr (k .casc (by decide)) x, nowNs_congr (k .time (by decide)), imgOf_congr (k .img (by decide)), serving_congr (k .sys (by decide)), working_congr (k .sys (by decide)), alive_congr (k .sys (by decide)), upState_congr (k .sys (by decide)), portOn_congr (k .sys (by decide)), fun e  => dieNo_congr e (k .img (by decide)), fun e  => nodeNo_congr e (k .img (by decide)), fun e c => coreId_congr e (k .img (by decide)) c, fun e c => unitId_congr e (k .img (by decide)) c, fun c => chan_congr (k .cmd (by decide)) c, fun x => entOk_congr (k .img (by decide)) x, fun c => groupOf_congr (k .img (by decide)) (k .jobs (by decide)) c, fun c => probing_congr (k .age (by decide)) c, fun e x => presentCore_congr e (k .img (by decide)) x⟩

@[simp] theorem needSelectors_reads (a0) :
    (needSelectors a0).sys = a0.sys ∧ (needSelectors a0).isl = a0.isl ∧ (needSelectors a0).time = a0.time ∧
    (needSelectors a0).regions = a0.regions ∧ (needSelectors a0).cells = a0.cells ∧ (needSelectors a0).hubc = a0.hubc ∧
    (needSelectors a0).dig = a0.dig ∧ (needSelectors a0).xs = a0.xs ∧ (needSelectors a0).ens = a0.ens ∧
    (needSelectors a0).casc = a0.casc ∧ (needSelectors a0).age = a0.age ∧ (needSelectors a0).fab = a0.fab ∧
    (needSelectors a0).sb = a0.sb ∧ (needSelectors a0).bc = a0.bc ∧ (needSelectors a0).jobs = a0.jobs ∧
    (needSelectors a0).mgt = a0.mgt ∧ (needSelectors a0).cmd = a0.cmd ∧ (needSelectors a0).prot = a0.prot ∧
    (needSelectors a0).regs = a0.regs ∧ (needSelectors a0).mem = a0.mem ∧ (needSelectors a0).dma = a0.dma ∧
    (needSelectors a0).trc = a0.trc ∧ (needSelectors a0).nid = a0.nid ∧ (needSelectors a0).log = a0.log ∧
    (needSelectors a0).boot = a0.boot ∧ (needSelectors a0).img = a0.img ∧ (needSelectors a0).reports = a0.reports ∧
    (needSelectors a0).posted = a0.posted ∧ (needSelectors a0).nvPosted = a0.nvPosted ∧ (∀ (c : Nat), cell (needSelectors a0) c = cell a0 c) ∧
    (∀ (c : Nat), Sys2Proof.Machine.hubc (needSelectors a0) c = Sys2Proof.Machine.hubc a0 c) ∧ (∀ (c : Nat), region (needSelectors a0) c = region a0 c) ∧ (∀ (x : Word), entity (needSelectors a0) x = entity a0 x) ∧
    (nowNs (needSelectors a0) = nowNs a0 ) ∧ (imgOf (needSelectors a0) = imgOf a0 ) ∧ (serving (needSelectors a0) = serving a0 ) ∧
    (working (needSelectors a0) = working a0 ) ∧ (alive (needSelectors a0) = alive a0 ) ∧ (upState (needSelectors a0) = upState a0 ) ∧
    (portOn (needSelectors a0) = portOn a0 ) ∧ (∀ (e : Env), dieNo e (needSelectors a0) = dieNo e a0 ) ∧ (∀ (e : Env), nodeNo e (needSelectors a0) = nodeNo e a0 ) ∧
    (∀ (e : Env) (c : Nat), coreId e (needSelectors a0) c = coreId e a0 c) ∧ (∀ (e : Env) (c : Nat), unitId e (needSelectors a0) c = unitId e a0 c) ∧ (∀ (c : Nat), chan (needSelectors a0) c = chan a0 c) ∧
    (∀ (x : Word), entOk (needSelectors a0) x = entOk a0 x) ∧ (∀ (c : Nat), groupOf (needSelectors a0) c = groupOf a0 c) ∧ (∀ (c : Nat), probing (needSelectors a0) c = probing a0 c) ∧
    (∀ (e : Env) (x : Word), presentCore e (needSelectors a0) x = presentCore e a0 x) := by
  have k := (needSelectors_only a0).keep
  exact ⟨k .sys (by decide), k .isl (by decide), k .time (by decide), k .regions (by decide), k .cells (by decide), k .hubc (by decide), k .dig (by decide), k .xs (by decide), k .ens (by decide), k .casc (by decide), k .age (by decide), k .fab (by decide), k .sb (by decide), k .bc (by decide), k .jobs (by decide), k .mgt (by decide), k .cmd (by decide), k .prot (by decide), k .regs (by decide), k .mem (by decide), k .dma (by decide), k .trc (by decide), k .nid (by decide), k .log (by decide), k .boot (by decide), k .img (by decide), k .reports (by decide), k .ram (by decide), k .nvm (by decide), fun c => cell_congr (k .cells (by decide)) c, fun c => hubc_congr (k .hubc (by decide)) c, fun c => region_congr (k .regions (by decide)) c, fun x => entity_congr (k .casc (by decide)) x, nowNs_congr (k .time (by decide)), imgOf_congr (k .img (by decide)), serving_congr (k .sys (by decide)), working_congr (k .sys (by decide)), alive_congr (k .sys (by decide)), upState_congr (k .sys (by decide)), portOn_congr (k .sys (by decide)), fun e  => dieNo_congr e (k .img (by decide)), fun e  => nodeNo_congr e (k .img (by decide)), fun e c => coreId_congr e (k .img (by decide)) c, fun e c => unitId_congr e (k .img (by decide)) c, fun c => chan_congr (k .cmd (by decide)) c, fun x => entOk_congr (k .img (by decide)) x, fun c => groupOf_congr (k .img (by decide)) (k .jobs (by decide)) c, fun c => probing_congr (k .age (by decide)) c, fun e x => presentCore_congr e (k .img (by decide)) x⟩

@[simp] theorem laneOutcome_reads (a0 a1 a2 a3 a4) :
    (laneOutcome a0 a1 a2 a3 a4).free = a4.free ∧ (laneOutcome a0 a1 a2 a3 a4).sys = a4.sys ∧ (laneOutcome a0 a1 a2 a3 a4).isl = a4.isl ∧
    (laneOutcome a0 a1 a2 a3 a4).time = a4.time ∧ (laneOutcome a0 a1 a2 a3 a4).dig = a4.dig ∧ (laneOutcome a0 a1 a2 a3 a4).xs = a4.xs ∧
    (laneOutcome a0 a1 a2 a3 a4).fab = a4.fab ∧ (laneOutcome a0 a1 a2 a3 a4).sb = a4.sb ∧ (laneOutcome a0 a1 a2 a3 a4).bc = a4.bc ∧
    (laneOutcome a0 a1 a2 a3 a4).jobs = a4.jobs ∧ (laneOutcome a0 a1 a2 a3 a4).mgt = a4.mgt ∧ (laneOutcome a0 a1 a2 a3 a4).cmd = a4.cmd ∧
    (laneOutcome a0 a1 a2 a3 a4).prot = a4.prot ∧ (laneOutcome a0 a1 a2 a3 a4).dma = a4.dma ∧ (laneOutcome a0 a1 a2 a3 a4).nid = a4.nid ∧
    (laneOutcome a0 a1 a2 a3 a4).boot = a4.boot ∧ (laneOutcome a0 a1 a2 a3 a4).img = a4.img ∧ (laneOutcome a0 a1 a2 a3 a4).reports = a4.reports ∧
    (laneOutcome a0 a1 a2 a3 a4).posted = a4.posted ∧ (laneOutcome a0 a1 a2 a3 a4).nvPosted = a4.nvPosted ∧ (nowNs (laneOutcome a0 a1 a2 a3 a4) = nowNs a4 ) ∧
    (imgOf (laneOutcome a0 a1 a2 a3 a4) = imgOf a4 ) ∧ (serving (laneOutcome a0 a1 a2 a3 a4) = serving a4 ) ∧ (working (laneOutcome a0 a1 a2 a3 a4) = working a4 ) ∧
    (alive (laneOutcome a0 a1 a2 a3 a4) = alive a4 ) ∧ (upState (laneOutcome a0 a1 a2 a3 a4) = upState a4 ) ∧ (portOn (laneOutcome a0 a1 a2 a3 a4) = portOn a4 ) ∧
    (∀ (e : Env), dieNo e (laneOutcome a0 a1 a2 a3 a4) = dieNo e a4 ) ∧ (∀ (e : Env), nodeNo e (laneOutcome a0 a1 a2 a3 a4) = nodeNo e a4 ) ∧ (∀ (e : Env) (c : Nat), coreId e (laneOutcome a0 a1 a2 a3 a4) c = coreId e a4 c) ∧
    (∀ (e : Env) (c : Nat), unitId e (laneOutcome a0 a1 a2 a3 a4) c = unitId e a4 c) ∧ (∀ (c : Nat), chan (laneOutcome a0 a1 a2 a3 a4) c = chan a4 c) ∧ (∀ (x : Word), entOk (laneOutcome a0 a1 a2 a3 a4) x = entOk a4 x) ∧
    (∀ (c : Nat), groupOf (laneOutcome a0 a1 a2 a3 a4) c = groupOf a4 c) ∧ (∀ (e : Env) (x : Word), presentCore e (laneOutcome a0 a1 a2 a3 a4) x = presentCore e a4 x) := by
  have k := (laneOutcome_only a0 a1 a2 a3 a4).keep
  exact ⟨k .free (by decide), k .sys (by decide), k .isl (by decide), k .time (by decide), k .dig (by decide), k .xs (by decide), k .fab (by decide), k .sb (by decide), k .bc (by decide), k .jobs (by decide), k .mgt (by decide), k .cmd (by decide), k .prot (by decide), k .dma (by decide), k .nid (by decide), k .boot (by decide), k .img (by decide), k .reports (by decide), k .ram (by decide), k .nvm (by decide), nowNs_congr (k .time (by decide)), imgOf_congr (k .img (by decide)), serving_congr (k .sys (by decide)), working_congr (k .sys (by decide)), alive_congr (k .sys (by decide)), upState_congr (k .sys (by decide)), portOn_congr (k .sys (by decide)), fun e  => dieNo_congr e (k .img (by decide)), fun e  => nodeNo_congr e (k .img (by decide)), fun e c => coreId_congr e (k .img (by decide)) c, fun e c => unitId_congr e (k .img (by decide)) c, fun c => chan_congr (k .cmd (by decide)) c, fun x => entOk_congr (k .img (by decide)) x, fun c => groupOf_congr (k .img (by decide)) (k .jobs (by decide)) c, fun e x => presentCore_congr e (k .img (by decide)) x⟩

@[simp] theorem deliverDrops_reads (a0 a1 a2) :
    (deliverDrops a0 a1 a2).free = a2.free ∧ (deliverDrops a0 a1 a2).sys = a2.sys ∧ (deliverDrops a0 a1 a2).isl = a2.isl ∧
    (deliverDrops a0 a1 a2).time = a2.time ∧ (deliverDrops a0 a1 a2).dig = a2.dig ∧ (deliverDrops a0 a1 a2).xs = a2.xs ∧
    (deliverDrops a0 a1 a2).fab = a2.fab ∧ (deliverDrops a0 a1 a2).sb = a2.sb ∧ (deliverDrops a0 a1 a2).bc = a2.bc ∧
    (deliverDrops a0 a1 a2).jobs = a2.jobs ∧ (deliverDrops a0 a1 a2).mgt = a2.mgt ∧ (deliverDrops a0 a1 a2).cmd = a2.cmd ∧
    (deliverDrops a0 a1 a2).prot = a2.prot ∧ (deliverDrops a0 a1 a2).dma = a2.dma ∧ (deliverDrops a0 a1 a2).nid = a2.nid ∧
    (deliverDrops a0 a1 a2).boot = a2.boot ∧ (deliverDrops a0 a1 a2).img = a2.img ∧ (deliverDrops a0 a1 a2).reports = a2.reports ∧
    (deliverDrops a0 a1 a2).posted = a2.posted ∧ (deliverDrops a0 a1 a2).nvPosted = a2.nvPosted ∧ (nowNs (deliverDrops a0 a1 a2) = nowNs a2 ) ∧
    (imgOf (deliverDrops a0 a1 a2) = imgOf a2 ) ∧ (serving (deliverDrops a0 a1 a2) = serving a2 ) ∧ (working (deliverDrops a0 a1 a2) = working a2 ) ∧
    (alive (deliverDrops a0 a1 a2) = alive a2 ) ∧ (upState (deliverDrops a0 a1 a2) = upState a2 ) ∧ (portOn (deliverDrops a0 a1 a2) = portOn a2 ) ∧
    (∀ (e : Env), dieNo e (deliverDrops a0 a1 a2) = dieNo e a2 ) ∧ (∀ (e : Env), nodeNo e (deliverDrops a0 a1 a2) = nodeNo e a2 ) ∧ (∀ (e : Env) (c : Nat), coreId e (deliverDrops a0 a1 a2) c = coreId e a2 c) ∧
    (∀ (e : Env) (c : Nat), unitId e (deliverDrops a0 a1 a2) c = unitId e a2 c) ∧ (∀ (c : Nat), chan (deliverDrops a0 a1 a2) c = chan a2 c) ∧ (∀ (x : Word), entOk (deliverDrops a0 a1 a2) x = entOk a2 x) ∧
    (∀ (c : Nat), groupOf (deliverDrops a0 a1 a2) c = groupOf a2 c) ∧ (∀ (e : Env) (x : Word), presentCore e (deliverDrops a0 a1 a2) x = presentCore e a2 x) := by
  have k := (deliverDrops_only a0 a1 a2).keep
  exact ⟨k .free (by decide), k .sys (by decide), k .isl (by decide), k .time (by decide), k .dig (by decide), k .xs (by decide), k .fab (by decide), k .sb (by decide), k .bc (by decide), k .jobs (by decide), k .mgt (by decide), k .cmd (by decide), k .prot (by decide), k .dma (by decide), k .nid (by decide), k .boot (by decide), k .img (by decide), k .reports (by decide), k .ram (by decide), k .nvm (by decide), nowNs_congr (k .time (by decide)), imgOf_congr (k .img (by decide)), serving_congr (k .sys (by decide)), working_congr (k .sys (by decide)), alive_congr (k .sys (by decide)), upState_congr (k .sys (by decide)), portOn_congr (k .sys (by decide)), fun e  => dieNo_congr e (k .img (by decide)), fun e  => nodeNo_congr e (k .img (by decide)), fun e c => coreId_congr e (k .img (by decide)) c, fun e c => unitId_congr e (k .img (by decide)) c, fun c => chan_congr (k .cmd (by decide)) c, fun x => entOk_congr (k .img (by decide)) x, fun c => groupOf_congr (k .img (by decide)) (k .jobs (by decide)) c, fun e x => presentCore_congr e (k .img (by decide)) x⟩

@[simp] theorem lateEndRecord_reads (a0 a1 a2 a3) :
    (lateEndRecord a0 a1 a2 a3).free = a3.free ∧ (lateEndRecord a0 a1 a2 a3).sys = a3.sys ∧ (lateEndRecord a0 a1 a2 a3).isl = a3.isl ∧
    (lateEndRecord a0 a1 a2 a3).time = a3.time ∧ (lateEndRecord a0 a1 a2 a3).regions = a3.regions ∧ (lateEndRecord a0 a1 a2 a3).cells = a3.cells ∧
    (lateEndRecord a0 a1 a2 a3).hubc = a3.hubc ∧ (lateEndRecord a0 a1 a2 a3).res = a3.res ∧ (lateEndRecord a0 a1 a2 a3).dig = a3.dig ∧
    (lateEndRecord a0 a1 a2 a3).xs = a3.xs ∧ (lateEndRecord a0 a1 a2 a3).ens = a3.ens ∧ (lateEndRecord a0 a1 a2 a3).casc = a3.casc ∧
    (lateEndRecord a0 a1 a2 a3).age = a3.age ∧ (lateEndRecord a0 a1 a2 a3).fab = a3.fab ∧ (lateEndRecord a0 a1 a2 a3).sb = a3.sb ∧
    (lateEndRecord a0 a1 a2 a3).bc = a3.bc ∧ (lateEndRecord a0 a1 a2 a3).jobs = a3.jobs ∧ (lateEndRecord a0 a1 a2 a3).mgt = a3.mgt ∧
    (lateEndRecord a0 a1 a2 a3).cmd = a3.cmd ∧ (lateEndRecord a0 a1 a2 a3).prot = a3.prot ∧ (lateEndRecord a0 a1 a2 a3).mem = a3.mem ∧
    (lateEndRecord a0 a1 a2 a3).dma = a3.dma ∧ (lateEndRecord a0 a1 a2 a3).trc = a3.trc ∧ (lateEndRecord a0 a1 a2 a3).nid = a3.nid ∧
    (lateEndRecord a0 a1 a2 a3).boot = a3.boot ∧ (lateEndRecord a0 a1 a2 a3).img = a3.img ∧ (lateEndRecord a0 a1 a2 a3).reports = a3.reports ∧
    (lateEndRecord a0 a1 a2 a3).posted = a3.posted ∧ (lateEndRecord a0 a1 a2 a3).nvPosted = a3.nvPosted ∧ (∀ (c : Nat), cell (lateEndRecord a0 a1 a2 a3) c = cell a3 c) ∧
    (∀ (c : Nat), Sys2Proof.Machine.hubc (lateEndRecord a0 a1 a2 a3) c = Sys2Proof.Machine.hubc a3 c) ∧ (∀ (c : Nat), region (lateEndRecord a0 a1 a2 a3) c = region a3 c) ∧ (∀ (x : Word), entity (lateEndRecord a0 a1 a2 a3) x = entity a3 x) ∧
    (nowNs (lateEndRecord a0 a1 a2 a3) = nowNs a3 ) ∧ (imgOf (lateEndRecord a0 a1 a2 a3) = imgOf a3 ) ∧ (serving (lateEndRecord a0 a1 a2 a3) = serving a3 ) ∧
    (working (lateEndRecord a0 a1 a2 a3) = working a3 ) ∧ (alive (lateEndRecord a0 a1 a2 a3) = alive a3 ) ∧ (upState (lateEndRecord a0 a1 a2 a3) = upState a3 ) ∧
    (portOn (lateEndRecord a0 a1 a2 a3) = portOn a3 ) ∧ (∀ (e : Env), dieNo e (lateEndRecord a0 a1 a2 a3) = dieNo e a3 ) ∧ (∀ (e : Env), nodeNo e (lateEndRecord a0 a1 a2 a3) = nodeNo e a3 ) ∧
    (∀ (e : Env) (c : Nat), coreId e (lateEndRecord a0 a1 a2 a3) c = coreId e a3 c) ∧ (∀ (e : Env) (c : Nat), unitId e (lateEndRecord a0 a1 a2 a3) c = unitId e a3 c) ∧ (∀ (c : Nat), chan (lateEndRecord a0 a1 a2 a3) c = chan a3 c) ∧
    (∀ (x : Word), entOk (lateEndRecord a0 a1 a2 a3) x = entOk a3 x) ∧ (∀ (c : Nat), groupOf (lateEndRecord a0 a1 a2 a3) c = groupOf a3 c) ∧ (∀ (c : Nat), probing (lateEndRecord a0 a1 a2 a3) c = probing a3 c) ∧
    (∀ (e : Env) (x : Word), presentCore e (lateEndRecord a0 a1 a2 a3) x = presentCore e a3 x) := by
  have k := (lateEndRecord_only a0 a1 a2 a3).keep
  exact ⟨k .free (by decide), k .sys (by decide), k .isl (by decide), k .time (by decide), k .regions (by decide), k .cells (by decide), k .hubc (by decide), k .res (by decide), k .dig (by decide), k .xs (by decide), k .ens (by decide), k .casc (by decide), k .age (by decide), k .fab (by decide), k .sb (by decide), k .bc (by decide), k .jobs (by decide), k .mgt (by decide), k .cmd (by decide), k .prot (by decide), k .mem (by decide), k .dma (by decide), k .trc (by decide), k .nid (by decide), k .boot (by decide), k .img (by decide), k .reports (by decide), k .ram (by decide), k .nvm (by decide), fun c => cell_congr (k .cells (by decide)) c, fun c => hubc_congr (k .hubc (by decide)) c, fun c => region_congr (k .regions (by decide)) c, fun x => entity_congr (k .casc (by decide)) x, nowNs_congr (k .time (by decide)), imgOf_congr (k .img (by decide)), serving_congr (k .sys (by decide)), working_congr (k .sys (by decide)), alive_congr (k .sys (by decide)), upState_congr (k .sys (by decide)), portOn_congr (k .sys (by decide)), fun e  => dieNo_congr e (k .img (by decide)), fun e  => nodeNo_congr e (k .img (by decide)), fun e c => coreId_congr e (k .img (by decide)) c, fun e c => unitId_congr e (k .img (by decide)) c, fun c => chan_congr (k .cmd (by decide)) c, fun x => entOk_congr (k .img (by decide)) x, fun c => groupOf_congr (k .img (by decide)) (k .jobs (by decide)) c, fun c => probing_congr (k .age (by decide)) c, fun e x => presentCore_congr e (k .img (by decide)) x⟩

@[simp] theorem auditArrives_reads (a0 a1 a2 a3 a4 a5) :
    (auditArrives a0 a1 a2 a3 a4 a5).free = a5.free ∧ (auditArrives a0 a1 a2 a3 a4 a5).sys = a5.sys ∧ (auditArrives a0 a1 a2 a3 a4 a5).isl = a5.isl ∧
    (auditArrives a0 a1 a2 a3 a4 a5).time = a5.time ∧ (auditArrives a0 a1 a2 a3 a4 a5).dig = a5.dig ∧ (auditArrives a0 a1 a2 a3 a4 a5).xs = a5.xs ∧
    (auditArrives a0 a1 a2 a3 a4 a5).fab = a5.fab ∧ (auditArrives a0 a1 a2 a3 a4 a5).sb = a5.sb ∧ (auditArrives a0 a1 a2 a3 a4 a5).bc = a5.bc ∧
    (auditArrives a0 a1 a2 a3 a4 a5).jobs = a5.jobs ∧ (auditArrives a0 a1 a2 a3 a4 a5).mgt = a5.mgt ∧ (auditArrives a0 a1 a2 a3 a4 a5).cmd = a5.cmd ∧
    (auditArrives a0 a1 a2 a3 a4 a5).prot = a5.prot ∧ (auditArrives a0 a1 a2 a3 a4 a5).dma = a5.dma ∧ (auditArrives a0 a1 a2 a3 a4 a5).nid = a5.nid ∧
    (auditArrives a0 a1 a2 a3 a4 a5).boot = a5.boot ∧ (auditArrives a0 a1 a2 a3 a4 a5).img = a5.img ∧ (auditArrives a0 a1 a2 a3 a4 a5).reports = a5.reports ∧
    (auditArrives a0 a1 a2 a3 a4 a5).posted = a5.posted ∧ (auditArrives a0 a1 a2 a3 a4 a5).nvPosted = a5.nvPosted ∧ (nowNs (auditArrives a0 a1 a2 a3 a4 a5) = nowNs a5 ) ∧
    (imgOf (auditArrives a0 a1 a2 a3 a4 a5) = imgOf a5 ) ∧ (serving (auditArrives a0 a1 a2 a3 a4 a5) = serving a5 ) ∧ (working (auditArrives a0 a1 a2 a3 a4 a5) = working a5 ) ∧
    (alive (auditArrives a0 a1 a2 a3 a4 a5) = alive a5 ) ∧ (upState (auditArrives a0 a1 a2 a3 a4 a5) = upState a5 ) ∧ (portOn (auditArrives a0 a1 a2 a3 a4 a5) = portOn a5 ) ∧
    (∀ (e : Env), dieNo e (auditArrives a0 a1 a2 a3 a4 a5) = dieNo e a5 ) ∧ (∀ (e : Env), nodeNo e (auditArrives a0 a1 a2 a3 a4 a5) = nodeNo e a5 ) ∧ (∀ (e : Env) (c : Nat), coreId e (auditArrives a0 a1 a2 a3 a4 a5) c = coreId e a5 c) ∧
    (∀ (e : Env) (c : Nat), unitId e (auditArrives a0 a1 a2 a3 a4 a5) c = unitId e a5 c) ∧ (∀ (c : Nat), chan (auditArrives a0 a1 a2 a3 a4 a5) c = chan a5 c) ∧ (∀ (x : Word), entOk (auditArrives a0 a1 a2 a3 a4 a5) x = entOk a5 x) ∧
    (∀ (c : Nat), groupOf (auditArrives a0 a1 a2 a3 a4 a5) c = groupOf a5 c) ∧ (∀ (e : Env) (x : Word), presentCore e (auditArrives a0 a1 a2 a3 a4 a5) x = presentCore e a5 x) := by
  have k := (auditArrives_only a0 a1 a2 a3 a4 a5).keep
  exact ⟨k .free (by decide), k .sys (by decide), k .isl (by decide), k .time (by decide), k .dig (by decide), k .xs (by decide), k .fab (by decide), k .sb (by decide), k .bc (by decide), k .jobs (by decide), k .mgt (by decide), k .cmd (by decide), k .prot (by decide), k .dma (by decide), k .nid (by decide), k .boot (by decide), k .img (by decide), k .reports (by decide), k .ram (by decide), k .nvm (by decide), nowNs_congr (k .time (by decide)), imgOf_congr (k .img (by decide)), serving_congr (k .sys (by decide)), working_congr (k .sys (by decide)), alive_congr (k .sys (by decide)), upState_congr (k .sys (by decide)), portOn_congr (k .sys (by decide)), fun e  => dieNo_congr e (k .img (by decide)), fun e  => nodeNo_congr e (k .img (by decide)), fun e c => coreId_congr e (k .img (by decide)) c, fun e c => unitId_congr e (k .img (by decide)) c, fun c => chan_congr (k .cmd (by decide)) c, fun x => entOk_congr (k .img (by decide)) x, fun c => groupOf_congr (k .img (by decide)) (k .jobs (by decide)) c, fun e x => presentCore_congr e (k .img (by decide)) x⟩

@[simp] theorem auditPush_reads (a0 a1 a2) :
    (auditPush a0 a1 a2).free = a2.free ∧ (auditPush a0 a1 a2).sys = a2.sys ∧ (auditPush a0 a1 a2).isl = a2.isl ∧
    (auditPush a0 a1 a2).time = a2.time ∧ (auditPush a0 a1 a2).dig = a2.dig ∧ (auditPush a0 a1 a2).xs = a2.xs ∧
    (auditPush a0 a1 a2).fab = a2.fab ∧ (auditPush a0 a1 a2).sb = a2.sb ∧ (auditPush a0 a1 a2).bc = a2.bc ∧
    (auditPush a0 a1 a2).jobs = a2.jobs ∧ (auditPush a0 a1 a2).mgt = a2.mgt ∧ (auditPush a0 a1 a2).cmd = a2.cmd ∧
    (auditPush a0 a1 a2).prot = a2.prot ∧ (auditPush a0 a1 a2).dma = a2.dma ∧ (auditPush a0 a1 a2).nid = a2.nid ∧
    (auditPush a0 a1 a2).boot = a2.boot ∧ (auditPush a0 a1 a2).img = a2.img ∧ (auditPush a0 a1 a2).reports = a2.reports ∧
    (auditPush a0 a1 a2).posted = a2.posted ∧ (auditPush a0 a1 a2).nvPosted = a2.nvPosted ∧ (nowNs (auditPush a0 a1 a2) = nowNs a2 ) ∧
    (imgOf (auditPush a0 a1 a2) = imgOf a2 ) ∧ (serving (auditPush a0 a1 a2) = serving a2 ) ∧ (working (auditPush a0 a1 a2) = working a2 ) ∧
    (alive (auditPush a0 a1 a2) = alive a2 ) ∧ (upState (auditPush a0 a1 a2) = upState a2 ) ∧ (portOn (auditPush a0 a1 a2) = portOn a2 ) ∧
    (∀ (e : Env), dieNo e (auditPush a0 a1 a2) = dieNo e a2 ) ∧ (∀ (e : Env), nodeNo e (auditPush a0 a1 a2) = nodeNo e a2 ) ∧ (∀ (e : Env) (c : Nat), coreId e (auditPush a0 a1 a2) c = coreId e a2 c) ∧
    (∀ (e : Env) (c : Nat), unitId e (auditPush a0 a1 a2) c = unitId e a2 c) ∧ (∀ (c : Nat), chan (auditPush a0 a1 a2) c = chan a2 c) ∧ (∀ (x : Word), entOk (auditPush a0 a1 a2) x = entOk a2 x) ∧
    (∀ (c : Nat), groupOf (auditPush a0 a1 a2) c = groupOf a2 c) ∧ (∀ (e : Env) (x : Word), presentCore e (auditPush a0 a1 a2) x = presentCore e a2 x) := by
  have k := (auditPush_only a0 a1 a2).keep
  exact ⟨k .free (by decide), k .sys (by decide), k .isl (by decide), k .time (by decide), k .dig (by decide), k .xs (by decide), k .fab (by decide), k .sb (by decide), k .bc (by decide), k .jobs (by decide), k .mgt (by decide), k .cmd (by decide), k .prot (by decide), k .dma (by decide), k .nid (by decide), k .boot (by decide), k .img (by decide), k .reports (by decide), k .ram (by decide), k .nvm (by decide), nowNs_congr (k .time (by decide)), imgOf_congr (k .img (by decide)), serving_congr (k .sys (by decide)), working_congr (k .sys (by decide)), alive_congr (k .sys (by decide)), upState_congr (k .sys (by decide)), portOn_congr (k .sys (by decide)), fun e  => dieNo_congr e (k .img (by decide)), fun e  => nodeNo_congr e (k .img (by decide)), fun e c => coreId_congr e (k .img (by decide)) c, fun e c => unitId_congr e (k .img (by decide)) c, fun c => chan_congr (k .cmd (by decide)) c, fun x => entOk_congr (k .img (by decide)) x, fun c => groupOf_congr (k .img (by decide)) (k .jobs (by decide)) c, fun e x => presentCore_congr e (k .img (by decide)) x⟩

@[simp] theorem auditEnds_reads (a0 a1 a2 a3) :
    (auditEnds a0 a1 a2 a3).free = a3.free ∧ (auditEnds a0 a1 a2 a3).sys = a3.sys ∧ (auditEnds a0 a1 a2 a3).isl = a3.isl ∧
    (auditEnds a0 a1 a2 a3).time = a3.time ∧ (auditEnds a0 a1 a2 a3).dig = a3.dig ∧ (auditEnds a0 a1 a2 a3).xs = a3.xs ∧
    (auditEnds a0 a1 a2 a3).fab = a3.fab ∧ (auditEnds a0 a1 a2 a3).sb = a3.sb ∧ (auditEnds a0 a1 a2 a3).bc = a3.bc ∧
    (auditEnds a0 a1 a2 a3).jobs = a3.jobs ∧ (auditEnds a0 a1 a2 a3).mgt = a3.mgt ∧ (auditEnds a0 a1 a2 a3).cmd = a3.cmd ∧
    (auditEnds a0 a1 a2 a3).prot = a3.prot ∧ (auditEnds a0 a1 a2 a3).dma = a3.dma ∧ (auditEnds a0 a1 a2 a3).nid = a3.nid ∧
    (auditEnds a0 a1 a2 a3).boot = a3.boot ∧ (auditEnds a0 a1 a2 a3).img = a3.img ∧ (auditEnds a0 a1 a2 a3).reports = a3.reports ∧
    (auditEnds a0 a1 a2 a3).nvPosted = a3.nvPosted ∧ (nowNs (auditEnds a0 a1 a2 a3) = nowNs a3 ) ∧ (imgOf (auditEnds a0 a1 a2 a3) = imgOf a3 ) ∧
    (serving (auditEnds a0 a1 a2 a3) = serving a3 ) ∧ (working (auditEnds a0 a1 a2 a3) = working a3 ) ∧ (alive (auditEnds a0 a1 a2 a3) = alive a3 ) ∧
    (upState (auditEnds a0 a1 a2 a3) = upState a3 ) ∧ (portOn (auditEnds a0 a1 a2 a3) = portOn a3 ) ∧ (∀ (e : Env), dieNo e (auditEnds a0 a1 a2 a3) = dieNo e a3 ) ∧
    (∀ (e : Env), nodeNo e (auditEnds a0 a1 a2 a3) = nodeNo e a3 ) ∧ (∀ (e : Env) (c : Nat), coreId e (auditEnds a0 a1 a2 a3) c = coreId e a3 c) ∧ (∀ (e : Env) (c : Nat), unitId e (auditEnds a0 a1 a2 a3) c = unitId e a3 c) ∧
    (∀ (c : Nat), chan (auditEnds a0 a1 a2 a3) c = chan a3 c) ∧ (∀ (x : Word), entOk (auditEnds a0 a1 a2 a3) x = entOk a3 x) ∧ (∀ (c : Nat), groupOf (auditEnds a0 a1 a2 a3) c = groupOf a3 c) ∧
    (∀ (e : Env) (x : Word), presentCore e (auditEnds a0 a1 a2 a3) x = presentCore e a3 x) := by
  have k := (auditEnds_only a0 a1 a2 a3).keep
  exact ⟨k .free (by decide), k .sys (by decide), k .isl (by decide), k .time (by decide), k .dig (by decide), k .xs (by decide), k .fab (by decide), k .sb (by decide), k .bc (by decide), k .jobs (by decide), k .mgt (by decide), k .cmd (by decide), k .prot (by decide), k .dma (by decide), k .nid (by decide), k .boot (by decide), k .img (by decide), k .reports (by decide), k .nvm (by decide), nowNs_congr (k .time (by decide)), imgOf_congr (k .img (by decide)), serving_congr (k .sys (by decide)), working_congr (k .sys (by decide)), alive_congr (k .sys (by decide)), upState_congr (k .sys (by decide)), portOn_congr (k .sys (by decide)), fun e  => dieNo_congr e (k .img (by decide)), fun e  => nodeNo_congr e (k .img (by decide)), fun e c => coreId_congr e (k .img (by decide)) c, fun e c => unitId_congr e (k .img (by decide)) c, fun c => chan_congr (k .cmd (by decide)) c, fun x => entOk_congr (k .img (by decide)) x, fun c => groupOf_congr (k .img (by decide)) (k .jobs (by decide)) c, fun e x => presentCore_congr e (k .img (by decide)) x⟩

@[simp] theorem auditOutcome_reads (a0 a1 a2 a3 a4 a5 a6) :
    (auditOutcome a0 a1 a2 a3 a4 a5 a6).free = a6.free ∧ (auditOutcome a0 a1 a2 a3 a4 a5 a6).sys = a6.sys ∧ (auditOutcome a0 a1 a2 a3 a4 a5 a6).isl = a6.isl ∧
    (auditOutcome a0 a1 a2 a3 a4 a5 a6).time = a6.time ∧ (auditOutcome a0 a1 a2 a3 a4 a5 a6).dig = a6.dig ∧ (auditOutcome a0 a1 a2 a3 a4 a5 a6).xs = a6.xs ∧
    (auditOutcome a0 a1 a2 a3 a4 a5 a6).fab = a6.fab ∧ (auditOutcome a0 a1 a2 a3 a4 a5 a6).sb = a6.sb ∧ (auditOutcome a0 a1 a2 a3 a4 a5 a6).bc = a6.bc ∧
    (auditOutcome a0 a1 a2 a3 a4 a5 a6).jobs = a6.jobs ∧ (auditOutcome a0 a1 a2 a3 a4 a5 a6).mgt = a6.mgt ∧ (auditOutcome a0 a1 a2 a3 a4 a5 a6).cmd = a6.cmd ∧
    (auditOutcome a0 a1 a2 a3 a4 a5 a6).prot = a6.prot ∧ (auditOutcome a0 a1 a2 a3 a4 a5 a6).dma = a6.dma ∧ (auditOutcome a0 a1 a2 a3 a4 a5 a6).nid = a6.nid ∧
    (auditOutcome a0 a1 a2 a3 a4 a5 a6).boot = a6.boot ∧ (auditOutcome a0 a1 a2 a3 a4 a5 a6).img = a6.img ∧ (auditOutcome a0 a1 a2 a3 a4 a5 a6).reports = a6.reports ∧
    (auditOutcome a0 a1 a2 a3 a4 a5 a6).posted = a6.posted ∧ (auditOutcome a0 a1 a2 a3 a4 a5 a6).nvPosted = a6.nvPosted ∧ (nowNs (auditOutcome a0 a1 a2 a3 a4 a5 a6) = nowNs a6 ) ∧
    (imgOf (auditOutcome a0 a1 a2 a3 a4 a5 a6) = imgOf a6 ) ∧ (serving (auditOutcome a0 a1 a2 a3 a4 a5 a6) = serving a6 ) ∧ (working (auditOutcome a0 a1 a2 a3 a4 a5 a6) = working a6 ) ∧
    (alive (auditOutcome a0 a1 a2 a3 a4 a5 a6) = alive a6 ) ∧ (upState (auditOutcome a0 a1 a2 a3 a4 a5 a6) = upState a6 ) ∧ (portOn (auditOutcome a0 a1 a2 a3 a4 a5 a6) = portOn a6 ) ∧
    (∀ (e : Env), dieNo e (auditOutcome a0 a1 a2 a3 a4 a5 a6) = dieNo e a6 ) ∧ (∀ (e : Env), nodeNo e (auditOutcome a0 a1 a2 a3 a4 a5 a6) = nodeNo e a6 ) ∧ (∀ (e : Env) (c : Nat), coreId e (auditOutcome a0 a1 a2 a3 a4 a5 a6) c = coreId e a6 c) ∧
    (∀ (e : Env) (c : Nat), unitId e (auditOutcome a0 a1 a2 a3 a4 a5 a6) c = unitId e a6 c) ∧ (∀ (c : Nat), chan (auditOutcome a0 a1 a2 a3 a4 a5 a6) c = chan a6 c) ∧ (∀ (x : Word), entOk (auditOutcome a0 a1 a2 a3 a4 a5 a6) x = entOk a6 x) ∧
    (∀ (c : Nat), groupOf (auditOutcome a0 a1 a2 a3 a4 a5 a6) c = groupOf a6 c) ∧ (∀ (e : Env) (x : Word), presentCore e (auditOutcome a0 a1 a2 a3 a4 a5 a6) x = presentCore e a6 x) := by
  have k := (auditOutcome_only a0 a1 a2 a3 a4 a5 a6).keep
  exact ⟨k .free (by decide), k .sys (by decide), k .isl (by decide), k .time (by decide), k .dig (by decide), k .xs (by decide), k .fab (by decide), k .sb (by decide), k .bc (by decide), k .jobs (by decide), k .mgt (by decide), k .cmd (by decide), k .prot (by decide), k .dma (by decide), k .nid (by decide), k .boot (by decide), k .img (by decide), k .reports (by decide), k .ram (by decide), k .nvm (by decide), nowNs_congr (k .time (by decide)), imgOf_congr (k .img (by decide)), serving_congr (k .sys (by decide)), working_congr (k .sys (by decide)), alive_congr (k .sys (by decide)), upState_congr (k .sys (by decide)), portOn_congr (k .sys (by decide)), fun e  => dieNo_congr e (k .img (by decide)), fun e  => nodeNo_congr e (k .img (by decide)), fun e c => coreId_congr e (k .img (by decide)) c, fun e c => unitId_congr e (k .img (by decide)) c, fun c => chan_congr (k .cmd (by decide)) c, fun x => entOk_congr (k .img (by decide)) x, fun c => groupOf_congr (k .img (by decide)) (k .jobs (by decide)) c, fun e x => presentCore_congr e (k .img (by decide)) x⟩

@[simp] theorem clearValid_reads (a0 a1 a2 a3) :
    (clearValid a0 a1 a2 a3).free = a3.free ∧ (clearValid a0 a1 a2 a3).sys = a3.sys ∧ (clearValid a0 a1 a2 a3).isl = a3.isl ∧
    (clearValid a0 a1 a2 a3).time = a3.time ∧ (clearValid a0 a1 a2 a3).regions = a3.regions ∧ (clearValid a0 a1 a2 a3).cells = a3.cells ∧
    (clearValid a0 a1 a2 a3).hubc = a3.hubc ∧ (clearValid a0 a1 a2 a3).res = a3.res ∧ (clearValid a0 a1 a2 a3).dig = a3.dig ∧
    (clearValid a0 a1 a2 a3).xs = a3.xs ∧ (clearValid a0 a1 a2 a3).ens = a3.ens ∧ (clearValid a0 a1 a2 a3).casc = a3.casc ∧
    (clearValid a0 a1 a2 a3).age = a3.age ∧ (clearValid a0 a1 a2 a3).fab = a3.fab ∧ (clearValid a0 a1 a2 a3).sb = a3.sb ∧
    (clearValid a0 a1 a2 a3).bc = a3.bc ∧ (clearValid a0 a1 a2 a3).jobs = a3.jobs ∧ (clearValid a0 a1 a2 a3).mgt = a3.mgt ∧
    (clearValid a0 a1 a2 a3).cmd = a3.cmd ∧ (clearValid a0 a1 a2 a3).prot = a3.prot ∧ (clearValid a0 a1 a2 a3).regs = a3.regs ∧
    (clearValid a0 a1 a2 a3).mem = a3.mem ∧ (clearValid a0 a1 a2 a3).dma = a3.dma ∧ (clearValid a0 a1 a2 a3).trc = a3.trc ∧
    (clearValid a0 a1 a2 a3).nid = a3.nid ∧ (clearValid a0 a1 a2 a3).log = a3.log ∧ (clearValid a0 a1 a2 a3).boot = a3.boot ∧
    (clearValid a0 a1 a2 a3).img = a3.img ∧ (clearValid a0 a1 a2 a3).reports = a3.reports ∧ (clearValid a0 a1 a2 a3).nvPosted = a3.nvPosted ∧
    (∀ (c : Nat), cell (clearValid a0 a1 a2 a3) c = cell a3 c) ∧ (∀ (c : Nat), Sys2Proof.Machine.hubc (clearValid a0 a1 a2 a3) c = Sys2Proof.Machine.hubc a3 c) ∧ (∀ (c : Nat), region (clearValid a0 a1 a2 a3) c = region a3 c) ∧
    (∀ (x : Word), entity (clearValid a0 a1 a2 a3) x = entity a3 x) ∧ (nowNs (clearValid a0 a1 a2 a3) = nowNs a3 ) ∧ (imgOf (clearValid a0 a1 a2 a3) = imgOf a3 ) ∧
    (serving (clearValid a0 a1 a2 a3) = serving a3 ) ∧ (working (clearValid a0 a1 a2 a3) = working a3 ) ∧ (alive (clearValid a0 a1 a2 a3) = alive a3 ) ∧
    (upState (clearValid a0 a1 a2 a3) = upState a3 ) ∧ (portOn (clearValid a0 a1 a2 a3) = portOn a3 ) ∧ (∀ (e : Env), dieNo e (clearValid a0 a1 a2 a3) = dieNo e a3 ) ∧
    (∀ (e : Env), nodeNo e (clearValid a0 a1 a2 a3) = nodeNo e a3 ) ∧ (∀ (e : Env) (c : Nat), coreId e (clearValid a0 a1 a2 a3) c = coreId e a3 c) ∧ (∀ (e : Env) (c : Nat), unitId e (clearValid a0 a1 a2 a3) c = unitId e a3 c) ∧
    (∀ (c : Nat), chan (clearValid a0 a1 a2 a3) c = chan a3 c) ∧ (∀ (x : Word), entOk (clearValid a0 a1 a2 a3) x = entOk a3 x) ∧ (∀ (c : Nat), groupOf (clearValid a0 a1 a2 a3) c = groupOf a3 c) ∧
    (∀ (c : Nat), probing (clearValid a0 a1 a2 a3) c = probing a3 c) ∧ (∀ (e : Env) (x : Word), presentCore e (clearValid a0 a1 a2 a3) x = presentCore e a3 x) := by
  have k := (clearValid_only a0 a1 a2 a3).keep
  exact ⟨k .free (by decide), k .sys (by decide), k .isl (by decide), k .time (by decide), k .regions (by decide), k .cells (by decide), k .hubc (by decide), k .res (by decide), k .dig (by decide), k .xs (by decide), k .ens (by decide), k .casc (by decide), k .age (by decide), k .fab (by decide), k .sb (by decide), k .bc (by decide), k .jobs (by decide), k .mgt (by decide), k .cmd (by decide), k .prot (by decide), k .regs (by decide), k .mem (by decide), k .dma (by decide), k .trc (by decide), k .nid (by decide), k .log (by decide), k .boot (by decide), k .img (by decide), k .reports (by decide), k .nvm (by decide), fun c => cell_congr (k .cells (by decide)) c, fun c => hubc_congr (k .hubc (by decide)) c, fun c => region_congr (k .regions (by decide)) c, fun x => entity_congr (k .casc (by decide)) x, nowNs_congr (k .time (by decide)), imgOf_congr (k .img (by decide)), serving_congr (k .sys (by decide)), working_congr (k .sys (by decide)), alive_congr (k .sys (by decide)), upState_congr (k .sys (by decide)), portOn_congr (k .sys (by decide)), fun e  => dieNo_congr e (k .img (by decide)), fun e  => nodeNo_congr e (k .img (by decide)), fun e c => coreId_congr e (k .img (by decide)) c, fun e c => unitId_congr e (k .img (by decide)) c, fun c => chan_congr (k .cmd (by decide)) c, fun x => entOk_congr (k .img (by decide)) x, fun c => groupOf_congr (k .img (by decide)) (k .jobs (by decide)) c, fun c => probing_congr (k .age (by decide)) c, fun e x => presentCore_congr e (k .img (by decide)) x⟩

@[simp] theorem rememberTimeout_reads (a0 a1 a2 a3) :
    (rememberTimeout a0 a1 a2 a3).free = a3.free ∧ (rememberTimeout a0 a1 a2 a3).sys = a3.sys ∧ (rememberTimeout a0 a1 a2 a3).isl = a3.isl ∧
    (rememberTimeout a0 a1 a2 a3).time = a3.time ∧ (rememberTimeout a0 a1 a2 a3).regions = a3.regions ∧ (rememberTimeout a0 a1 a2 a3).cells = a3.cells ∧
    (rememberTimeout a0 a1 a2 a3).res = a3.res ∧ (rememberTimeout a0 a1 a2 a3).dig = a3.dig ∧ (rememberTimeout a0 a1 a2 a3).xs = a3.xs ∧
    (rememberTimeout a0 a1 a2 a3).ens = a3.ens ∧ (rememberTimeout a0 a1 a2 a3).casc = a3.casc ∧ (rememberTimeout a0 a1 a2 a3).age = a3.age ∧
    (rememberTimeout a0 a1 a2 a3).fab = a3.fab ∧ (rememberTimeout a0 a1 a2 a3).sb = a3.sb ∧ (rememberTimeout a0 a1 a2 a3).bc = a3.bc ∧
    (rememberTimeout a0 a1 a2 a3).jobs = a3.jobs ∧ (rememberTimeout a0 a1 a2 a3).mgt = a3.mgt ∧ (rememberTimeout a0 a1 a2 a3).cmd = a3.cmd ∧
    (rememberTimeout a0 a1 a2 a3).prot = a3.prot ∧ (rememberTimeout a0 a1 a2 a3).regs = a3.regs ∧ (rememberTimeout a0 a1 a2 a3).mem = a3.mem ∧
    (rememberTimeout a0 a1 a2 a3).dma = a3.dma ∧ (rememberTimeout a0 a1 a2 a3).trc = a3.trc ∧ (rememberTimeout a0 a1 a2 a3).nid = a3.nid ∧
    (rememberTimeout a0 a1 a2 a3).log = a3.log ∧ (rememberTimeout a0 a1 a2 a3).boot = a3.boot ∧ (rememberTimeout a0 a1 a2 a3).img = a3.img ∧
    (rememberTimeout a0 a1 a2 a3).reports = a3.reports ∧ (rememberTimeout a0 a1 a2 a3).posted = a3.posted ∧ (rememberTimeout a0 a1 a2 a3).nvPosted = a3.nvPosted ∧
    (∀ (c : Nat), cell (rememberTimeout a0 a1 a2 a3) c = cell a3 c) ∧ (∀ (c : Nat), region (rememberTimeout a0 a1 a2 a3) c = region a3 c) ∧ (∀ (x : Word), entity (rememberTimeout a0 a1 a2 a3) x = entity a3 x) ∧
    (nowNs (rememberTimeout a0 a1 a2 a3) = nowNs a3 ) ∧ (imgOf (rememberTimeout a0 a1 a2 a3) = imgOf a3 ) ∧ (serving (rememberTimeout a0 a1 a2 a3) = serving a3 ) ∧
    (working (rememberTimeout a0 a1 a2 a3) = working a3 ) ∧ (alive (rememberTimeout a0 a1 a2 a3) = alive a3 ) ∧ (upState (rememberTimeout a0 a1 a2 a3) = upState a3 ) ∧
    (portOn (rememberTimeout a0 a1 a2 a3) = portOn a3 ) ∧ (∀ (e : Env), dieNo e (rememberTimeout a0 a1 a2 a3) = dieNo e a3 ) ∧ (∀ (e : Env), nodeNo e (rememberTimeout a0 a1 a2 a3) = nodeNo e a3 ) ∧
    (∀ (e : Env) (c : Nat), coreId e (rememberTimeout a0 a1 a2 a3) c = coreId e a3 c) ∧ (∀ (e : Env) (c : Nat), unitId e (rememberTimeout a0 a1 a2 a3) c = unitId e a3 c) ∧ (∀ (c : Nat), chan (rememberTimeout a0 a1 a2 a3) c = chan a3 c) ∧
    (∀ (x : Word), entOk (rememberTimeout a0 a1 a2 a3) x = entOk a3 x) ∧ (∀ (c : Nat), groupOf (rememberTimeout a0 a1 a2 a3) c = groupOf a3 c) ∧ (∀ (c : Nat), probing (rememberTimeout a0 a1 a2 a3) c = probing a3 c) ∧
    (∀ (e : Env) (x : Word), presentCore e (rememberTimeout a0 a1 a2 a3) x = presentCore e a3 x) := by
  have k := (rememberTimeout_only a0 a1 a2 a3).keep
  exact ⟨k .free (by decide), k .sys (by decide), k .isl (by decide), k .time (by decide), k .regions (by decide), k .cells (by decide), k .res (by decide), k .dig (by decide), k .xs (by decide), k .ens (by decide), k .casc (by decide), k .age (by decide), k .fab (by decide), k .sb (by decide), k .bc (by decide), k .jobs (by decide), k .mgt (by decide), k .cmd (by decide), k .prot (by decide), k .regs (by decide), k .mem (by decide), k .dma (by decide), k .trc (by decide), k .nid (by decide), k .log (by decide), k .boot (by decide), k .img (by decide), k .reports (by decide), k .ram (by decide), k .nvm (by decide), fun c => cell_congr (k .cells (by decide)) c, fun c => region_congr (k .regions (by decide)) c, fun x => entity_congr (k .casc (by decide)) x, nowNs_congr (k .time (by decide)), imgOf_congr (k .img (by decide)), serving_congr (k .sys (by decide)), working_congr (k .sys (by decide)), alive_congr (k .sys (by decide)), upState_congr (k .sys (by decide)), portOn_congr (k .sys (by decide)), fun e  => dieNo_congr e (k .img (by decide)), fun e  => nodeNo_congr e (k .img (by decide)), fun e c => coreId_congr e (k .img (by decide)) c, fun e c => unitId_congr e (k .img (by decide)) c, fun c => chan_congr (k .cmd (by decide)) c, fun x => entOk_congr (k .img (by decide)) x, fun c => groupOf_congr (k .img (by decide)) (k .jobs (by decide)) c, fun c => probing_congr (k .age (by decide)) c, fun e x => presentCore_congr e (k .img (by decide)) x⟩

@[simp] theorem openEpoch_reads (a0 a1 a2 a3) :
    (openEpoch a0 a1 a2 a3).free = a3.free ∧ (openEpoch a0 a1 a2 a3).sys = a3.sys ∧ (openEpoch a0 a1 a2 a3).time = a3.time ∧
    (openEpoch a0 a1 a2 a3).res = a3.res ∧ (openEpoch a0 a1 a2 a3).ens = a3.ens ∧ (openEpoch a0 a1 a2 a3).age = a3.age ∧
    (openEpoch a0 a1 a2 a3).bc = a3.bc ∧ (openEpoch a0 a1 a2 a3).mgt = a3.mgt ∧ (openEpoch a0 a1 a2 a3).prot = a3.prot ∧
    (openEpoch a0 a1 a2 a3).mem = a3.mem ∧ (openEpoch a0 a1 a2 a3).dma = a3.dma ∧ (openEpoch a0 a1 a2 a3).nid = a3.nid ∧
    (openEpoch a0 a1 a2 a3).boot = a3.boot ∧ (openEpoch a0 a1 a2 a3).img = a3.img ∧ (openEpoch a0 a1 a2 a3).posted = a3.posted ∧
    (openEpoch a0 a1 a2 a3).nvPosted = a3.nvPosted ∧ (nowNs (openEpoch a0 a1 a2 a3) = nowNs a3 ) ∧ (imgOf (openEpoch a0 a1 a2 a3) = imgOf a3 ) ∧
    (serving (openEpoch a0 a1 a2 a3) = serving a3 ) ∧ (working (openEpoch a0 a1 a2 a3) = working a3 ) ∧ (alive (openEpoch a0 a1 a2 a3) = alive a3 ) ∧
    (upState (openEpoch a0 a1 a2 a3) = upState a3 ) ∧ (portOn (openEpoch a0 a1 a2 a3) = portOn a3 ) ∧ (∀ (e : Env), dieNo e (openEpoch a0 a1 a2 a3) = dieNo e a3 ) ∧
    (∀ (e : Env), nodeNo e (openEpoch a0 a1 a2 a3) = nodeNo e a3 ) ∧ (∀ (e : Env) (c : Nat), coreId e (openEpoch a0 a1 a2 a3) c = coreId e a3 c) ∧ (∀ (e : Env) (c : Nat), unitId e (openEpoch a0 a1 a2 a3) c = unitId e a3 c) ∧
    (∀ (x : Word), entOk (openEpoch a0 a1 a2 a3) x = entOk a3 x) ∧ (∀ (c : Nat), probing (openEpoch a0 a1 a2 a3) c = probing a3 c) ∧ (∀ (e : Env) (x : Word), presentCore e (openEpoch a0 a1 a2 a3) x = presentCore e a3 x) := by
  have k := (openEpoch_only a0 a1 a2 a3).keep
  exact ⟨k .free (by decide), k .sys (by decide), k .time (by decide), k .res (by decide), k .ens (by decide), k .age (by decide), k .bc (by decide), k .mgt (by decide), k .prot (by decide), k .mem (by decide), k .dma (by decide), k .nid (by decide), k .boot (by decide), k .img (by decide), k .ram (by decide), k .nvm (by decide), nowNs_congr (k .time (by decide)), imgOf_congr (k .img (by decide)), serving_congr (k .sys (by decide)), working_congr (k .sys (by decide)), alive_congr (k .sys (by decide)), upState_congr (k .sys (by decide)), portOn_congr (k .sys (by decide)), fun e  => dieNo_congr e (k .img (by decide)), fun e  => nodeNo_congr e (k .img (by decide)), fun e c => coreId_congr e (k .img (by decide)) c, fun e c => unitId_congr e (k .img (by decide)) c, fun x => entOk_congr (k .img (by decide)) x, fun c => probing_congr (k .age (by decide)) c, fun e x => presentCore_congr e (k .img (by decide)) x⟩

@[simp] theorem stepBoundary_reads (a0 a1) :
    (stepBoundary a0 a1).free = a1.free ∧ (stepBoundary a0 a1).sys = a1.sys ∧ (stepBoundary a0 a1).time = a1.time ∧
    (stepBoundary a0 a1).res = a1.res ∧ (stepBoundary a0 a1).dig = a1.dig ∧ (stepBoundary a0 a1).xs = a1.xs ∧
    (stepBoundary a0 a1).ens = a1.ens ∧ (stepBoundary a0 a1).age = a1.age ∧ (stepBoundary a0 a1).fab = a1.fab ∧
    (stepBoundary a0 a1).bc = a1.bc ∧ (stepBoundary a0 a1).mgt = a1.mgt ∧ (stepBoundary a0 a1).prot = a1.prot ∧
    (stepBoundary a0 a1).mem = a1.mem ∧ (stepBoundary a0 a1).dma = a1.dma ∧ (stepBoundary a0 a1).nid = a1.nid ∧
    (stepBoundary a0 a1).boot = a1.boot ∧ (stepBoundary a0 a1).img = a1.img ∧ (stepBoundary a0 a1).posted = a1.posted ∧
    (stepBoundary a0 a1).nvPosted = a1.nvPosted ∧ (nowNs (stepBoundary a0 a1) = nowNs a1 ) ∧ (imgOf (stepBoundary a0 a1) = imgOf a1 ) ∧
    (serving (stepBoundary a0 a1) = serving a1 ) ∧ (working (stepBoundary a0 a1) = working a1 ) ∧ (alive (stepBoundary a0 a1) = alive a1 ) ∧
    (upState (stepBoundary a0 a1) = upState a1 ) ∧ (portOn (stepBoundary a0 a1) = portOn a1 ) ∧ (∀ (e : Env), dieNo e (stepBoundary a0 a1) = dieNo e a1 ) ∧
    (∀ (e : Env), nodeNo e (stepBoundary a0 a1) = nodeNo e a1 ) ∧ (∀ (e : Env) (c : Nat), coreId e (stepBoundary a0 a1) c = coreId e a1 c) ∧ (∀ (e : Env) (c : Nat), unitId e (stepBoundary a0 a1) c = unitId e a1 c) ∧
    (∀ (x : Word), entOk (stepBoundary a0 a1) x = entOk a1 x) ∧ (∀ (c : Nat), probing (stepBoundary a0 a1) c = probing a1 c) ∧ (∀ (e : Env) (x : Word), presentCore e (stepBoundary a0 a1) x = presentCore e a1 x) := by
  have k := (stepBoundary_only a0 a1).keep
  exact ⟨k .free (by decide), k .sys (by decide), k .time (by decide), k .res (by decide), k .dig (by decide), k .xs (by decide), k .ens (by decide), k .age (by decide), k .fab (by decide), k .bc (by decide), k .mgt (by decide), k .prot (by decide), k .mem (by decide), k .dma (by decide), k .nid (by decide), k .boot (by decide), k .img (by decide), k .ram (by decide), k .nvm (by decide), nowNs_congr (k .time (by decide)), imgOf_congr (k .img (by decide)), serving_congr (k .sys (by decide)), working_congr (k .sys (by decide)), alive_congr (k .sys (by decide)), upState_congr (k .sys (by decide)), portOn_congr (k .sys (by decide)), fun e  => dieNo_congr e (k .img (by decide)), fun e  => nodeNo_congr e (k .img (by decide)), fun e c => coreId_congr e (k .img (by decide)) c, fun e c => unitId_congr e (k .img (by decide)) c, fun x => entOk_congr (k .img (by decide)) x, fun c => probing_congr (k .age (by decide)) c, fun e x => presentCore_congr e (k .img (by decide)) x⟩

@[simp] theorem submitRound_reads (a0 a1 a2) :
    (submitRound a0 a1 a2).free = a2.free ∧ (submitRound a0 a1 a2).sys = a2.sys ∧ (submitRound a0 a1 a2).isl = a2.isl ∧
    (submitRound a0 a1 a2).time = a2.time ∧ (submitRound a0 a1 a2).regions = a2.regions ∧ (submitRound a0 a1 a2).cells = a2.cells ∧
    (submitRound a0 a1 a2).hubc = a2.hubc ∧ (submitRound a0 a1 a2).res = a2.res ∧ (submitRound a0 a1 a2).ens = a2.ens ∧
    (submitRound a0 a1 a2).casc = a2.casc ∧ (submitRound a0 a1 a2).age = a2.age ∧ (submitRound a0 a1 a2).sb = a2.sb ∧
    (submitRound a0 a1 a2).bc = a2.bc ∧ (submitRound a0 a1 a2).jobs = a2.jobs ∧ (submitRound a0 a1 a2).mgt = a2.mgt ∧
    (submitRound a0 a1 a2).cmd = a2.cmd ∧ (submitRound a0 a1 a2).prot = a2.prot ∧ (submitRound a0 a1 a2).mem = a2.mem ∧
    (submitRound a0 a1 a2).dma = a2.dma ∧ (submitRound a0 a1 a2).trc = a2.trc ∧ (submitRound a0 a1 a2).nid = a2.nid ∧
    (submitRound a0 a1 a2).boot = a2.boot ∧ (submitRound a0 a1 a2).img = a2.img ∧ (submitRound a0 a1 a2).reports = a2.reports ∧
    (submitRound a0 a1 a2).posted = a2.posted ∧ (submitRound a0 a1 a2).nvPosted = a2.nvPosted ∧ (∀ (c : Nat), cell (submitRound a0 a1 a2) c = cell a2 c) ∧
    (∀ (c : Nat), Sys2Proof.Machine.hubc (submitRound a0 a1 a2) c = Sys2Proof.Machine.hubc a2 c) ∧ (∀ (c : Nat), region (submitRound a0 a1 a2) c = region a2 c) ∧ (∀ (x : Word), entity (submitRound a0 a1 a2) x = entity a2 x) ∧
    (nowNs (submitRound a0 a1 a2) = nowNs a2 ) ∧ (imgOf (submitRound a0 a1 a2) = imgOf a2 ) ∧ (serving (submitRound a0 a1 a2) = serving a2 ) ∧
    (working (submitRound a0 a1 a2) = working a2 ) ∧ (alive (submitRound a0 a1 a2) = alive a2 ) ∧ (upState (submitRound a0 a1 a2) = upState a2 ) ∧
    (portOn (submitRound a0 a1 a2) = portOn a2 ) ∧ (∀ (e : Env), dieNo e (submitRound a0 a1 a2) = dieNo e a2 ) ∧ (∀ (e : Env), nodeNo e (submitRound a0 a1 a2) = nodeNo e a2 ) ∧
    (∀ (e : Env) (c : Nat), coreId e (submitRound a0 a1 a2) c = coreId e a2 c) ∧ (∀ (e : Env) (c : Nat), unitId e (submitRound a0 a1 a2) c = unitId e a2 c) ∧ (∀ (c : Nat), chan (submitRound a0 a1 a2) c = chan a2 c) ∧
    (∀ (x : Word), entOk (submitRound a0 a1 a2) x = entOk a2 x) ∧ (∀ (c : Nat), groupOf (submitRound a0 a1 a2) c = groupOf a2 c) ∧ (∀ (c : Nat), probing (submitRound a0 a1 a2) c = probing a2 c) ∧
    (∀ (e : Env) (x : Word), presentCore e (submitRound a0 a1 a2) x = presentCore e a2 x) := by
  have k := (submitRound_only a0 a1 a2).keep
  exact ⟨k .free (by decide), k .sys (by decide), k .isl (by decide), k .time (by decide), k .regions (by decide), k .cells (by decide), k .hubc (by decide), k .res (by decide), k .ens (by decide), k .casc (by decide), k .age (by decide), k .sb (by decide), k .bc (by decide), k .jobs (by decide), k .mgt (by decide), k .cmd (by decide), k .prot (by decide), k .mem (by decide), k .dma (by decide), k .trc (by decide), k .nid (by decide), k .boot (by decide), k .img (by decide), k .reports (by decide), k .ram (by decide), k .nvm (by decide), fun c => cell_congr (k .cells (by decide)) c, fun c => hubc_congr (k .hubc (by decide)) c, fun c => region_congr (k .regions (by decide)) c, fun x => entity_congr (k .casc (by decide)) x, nowNs_congr (k .time (by decide)), imgOf_congr (k .img (by decide)), serving_congr (k .sys (by decide)), working_congr (k .sys (by decide)), alive_congr (k .sys (by decide)), upState_congr (k .sys (by decide)), portOn_congr (k .sys (by decide)), fun e  => dieNo_congr e (k .img (by decide)), fun e  => nodeNo_congr e (k .img (by decide)), fun e c => coreId_congr e (k .img (by decide)) c, fun e c => unitId_congr e (k .img (by decide)) c, fun c => chan_congr (k .cmd (by decide)) c, fun x => entOk_congr (k .img (by decide)) x, fun c => groupOf_congr (k .img (by decide)) (k .jobs (by decide)) c, fun c => probing_congr (k .age (by decide)) c, fun e x => presentCore_congr e (k .img (by decide)) x⟩

@[simp] theorem retired_reads (a0 a1) :
    (retired a0 a1).free = a1.free ∧ (retired a0 a1).sys = a1.sys ∧ (retired a0 a1).isl = a1.isl ∧
    (retired a0 a1).time = a1.time ∧ (retired a0 a1).regions = a1.regions ∧ (retired a0 a1).cells = a1.cells ∧
    (retired a0 a1).hubc = a1.hubc ∧ (retired a0 a1).res = a1.res ∧ (retired a0 a1).ens = a1.ens ∧
    (retired a0 a1).casc = a1.casc ∧ (retired a0 a1).age = a1.age ∧ (retired a0 a1).sb = a1.sb ∧
    (retired a0 a1).bc = a1.bc ∧ (retired a0 a1).jobs = a1.jobs ∧ (retired a0 a1).mgt = a1.mgt ∧
    (retired a0 a1).cmd = a1.cmd ∧ (retired a0 a1).prot = a1.prot ∧ (retired a0 a1).mem = a1.mem ∧
    (retired a0 a1).dma = a1.dma ∧ (retired a0 a1).trc = a1.trc ∧ (retired a0 a1).nid = a1.nid ∧
    (retired a0 a1).boot = a1.boot ∧ (retired a0 a1).img = a1.img ∧ (retired a0 a1).reports = a1.reports ∧
    (retired a0 a1).posted = a1.posted ∧ (retired a0 a1).nvPosted = a1.nvPosted ∧ (∀ (c : Nat), cell (retired a0 a1) c = cell a1 c) ∧
    (∀ (c : Nat), Sys2Proof.Machine.hubc (retired a0 a1) c = Sys2Proof.Machine.hubc a1 c) ∧ (∀ (c : Nat), region (retired a0 a1) c = region a1 c) ∧ (∀ (x : Word), entity (retired a0 a1) x = entity a1 x) ∧
    (nowNs (retired a0 a1) = nowNs a1 ) ∧ (imgOf (retired a0 a1) = imgOf a1 ) ∧ (serving (retired a0 a1) = serving a1 ) ∧
    (working (retired a0 a1) = working a1 ) ∧ (alive (retired a0 a1) = alive a1 ) ∧ (upState (retired a0 a1) = upState a1 ) ∧
    (portOn (retired a0 a1) = portOn a1 ) ∧ (∀ (e : Env), dieNo e (retired a0 a1) = dieNo e a1 ) ∧ (∀ (e : Env), nodeNo e (retired a0 a1) = nodeNo e a1 ) ∧
    (∀ (e : Env) (c : Nat), coreId e (retired a0 a1) c = coreId e a1 c) ∧ (∀ (e : Env) (c : Nat), unitId e (retired a0 a1) c = unitId e a1 c) ∧ (∀ (c : Nat), chan (retired a0 a1) c = chan a1 c) ∧
    (∀ (x : Word), entOk (retired a0 a1) x = entOk a1 x) ∧ (∀ (c : Nat), groupOf (retired a0 a1) c = groupOf a1 c) ∧ (∀ (c : Nat), probing (retired a0 a1) c = probing a1 c) ∧
    (∀ (e : Env) (x : Word), presentCore e (retired a0 a1) x = presentCore e a1 x) := by
  have k := (retired_only a0 a1).keep
  exact ⟨k .free (by decide), k .sys (by decide), k .isl (by decide), k .time (by decide), k .regions (by decide), k .cells (by decide), k .hubc (by decide), k .res (by decide), k .ens (by decide), k .casc (by decide), k .age (by decide), k .sb (by decide), k .bc (by decide), k .jobs (by decide), k .mgt (by decide), k .cmd (by decide), k .prot (by decide), k .mem (by decide), k .dma (by decide), k .trc (by decide), k .nid (by decide), k .boot (by decide), k .img (by decide), k .reports (by decide), k .ram (by decide), k .nvm (by decide), fun c => cell_congr (k .cells (by decide)) c, fun c => hubc_congr (k .hubc (by decide)) c, fun c => region_congr (k .regions (by decide)) c, fun x => entity_congr (k .casc (by decide)) x, nowNs_congr (k .time (by decide)), imgOf_congr (k .img (by decide)), serving_congr (k .sys (by decide)), working_congr (k .sys (by decide)), alive_congr (k .sys (by decide)), upState_congr (k .sys (by decide)), portOn_congr (k .sys (by decide)), fun e  => dieNo_congr e (k .img (by decide)), fun e  => nodeNo_congr e (k .img (by decide)), fun e c => coreId_congr e (k .img (by decide)) c, fun e c => unitId_congr e (k .img (by decide)) c, fun c => chan_congr (k .cmd (by decide)) c, fun x => entOk_congr (k .img (by decide)) x, fun c => groupOf_congr (k .img (by decide)) (k .jobs (by decide)) c, fun c => probing_congr (k .age (by decide)) c, fun e x => presentCore_congr e (k .img (by decide)) x⟩

@[simp] theorem headerBeat_reads (a0 a1 a2 a3) :
    (headerBeat a0 a1 a2 a3).sys = a3.sys ∧ (headerBeat a0 a1 a2 a3).isl = a3.isl ∧ (headerBeat a0 a1 a2 a3).time = a3.time ∧
    (headerBeat a0 a1 a2 a3).regions = a3.regions ∧ (headerBeat a0 a1 a2 a3).cells = a3.cells ∧ (headerBeat a0 a1 a2 a3).hubc = a3.hubc ∧
    (headerBeat a0 a1 a2 a3).res = a3.res ∧ (headerBeat a0 a1 a2 a3).xs = a3.xs ∧ (headerBeat a0 a1 a2 a3).casc = a3.casc ∧
    (headerBeat a0 a1 a2 a3).age = a3.age ∧ (headerBeat a0 a1 a2 a3).fab = a3.fab ∧ (headerBeat a0 a1 a2 a3).sb = a3.sb ∧
    (headerBeat a0 a1 a2 a3).bc = a3.bc ∧ (headerBeat a0 a1 a2 a3).jobs = a3.jobs ∧ (headerBeat a0 a1 a2 a3).mgt = a3.mgt ∧
    (headerBeat a0 a1 a2 a3).cmd = a3.cmd ∧ (headerBeat a0 a1 a2 a3).prot = a3.prot ∧ (headerBeat a0 a1 a2 a3).dma = a3.dma ∧
    (headerBeat a0 a1 a2 a3).trc = a3.trc ∧ (headerBeat a0 a1 a2 a3).nid = a3.nid ∧ (headerBeat a0 a1 a2 a3).boot = a3.boot ∧
    (headerBeat a0 a1 a2 a3).img = a3.img ∧ (headerBeat a0 a1 a2 a3).reports = a3.reports ∧ (headerBeat a0 a1 a2 a3).posted = a3.posted ∧
    (headerBeat a0 a1 a2 a3).nvPosted = a3.nvPosted ∧ (∀ (c : Nat), cell (headerBeat a0 a1 a2 a3) c = cell a3 c) ∧ (∀ (c : Nat), Sys2Proof.Machine.hubc (headerBeat a0 a1 a2 a3) c = Sys2Proof.Machine.hubc a3 c) ∧
    (∀ (c : Nat), region (headerBeat a0 a1 a2 a3) c = region a3 c) ∧ (∀ (x : Word), entity (headerBeat a0 a1 a2 a3) x = entity a3 x) ∧ (nowNs (headerBeat a0 a1 a2 a3) = nowNs a3 ) ∧
    (imgOf (headerBeat a0 a1 a2 a3) = imgOf a3 ) ∧ (serving (headerBeat a0 a1 a2 a3) = serving a3 ) ∧ (working (headerBeat a0 a1 a2 a3) = working a3 ) ∧
    (alive (headerBeat a0 a1 a2 a3) = alive a3 ) ∧ (upState (headerBeat a0 a1 a2 a3) = upState a3 ) ∧ (portOn (headerBeat a0 a1 a2 a3) = portOn a3 ) ∧
    (∀ (e : Env), dieNo e (headerBeat a0 a1 a2 a3) = dieNo e a3 ) ∧ (∀ (e : Env), nodeNo e (headerBeat a0 a1 a2 a3) = nodeNo e a3 ) ∧ (∀ (e : Env) (c : Nat), coreId e (headerBeat a0 a1 a2 a3) c = coreId e a3 c) ∧
    (∀ (e : Env) (c : Nat), unitId e (headerBeat a0 a1 a2 a3) c = unitId e a3 c) ∧ (∀ (c : Nat), chan (headerBeat a0 a1 a2 a3) c = chan a3 c) ∧ (∀ (x : Word), entOk (headerBeat a0 a1 a2 a3) x = entOk a3 x) ∧
    (∀ (c : Nat), groupOf (headerBeat a0 a1 a2 a3) c = groupOf a3 c) ∧ (∀ (c : Nat), probing (headerBeat a0 a1 a2 a3) c = probing a3 c) ∧ (∀ (e : Env) (x : Word), presentCore e (headerBeat a0 a1 a2 a3) x = presentCore e a3 x) := by
  have k := (headerBeat_only a0 a1 a2 a3).keep
  exact ⟨k .sys (by decide), k .isl (by decide), k .time (by decide), k .regions (by decide), k .cells (by decide), k .hubc (by decide), k .res (by decide), k .xs (by decide), k .casc (by decide), k .age (by decide), k .fab (by decide), k .sb (by decide), k .bc (by decide), k .jobs (by decide), k .mgt (by decide), k .cmd (by decide), k .prot (by decide), k .dma (by decide), k .trc (by decide), k .nid (by decide), k .boot (by decide), k .img (by decide), k .reports (by decide), k .ram (by decide), k .nvm (by decide), fun c => cell_congr (k .cells (by decide)) c, fun c => hubc_congr (k .hubc (by decide)) c, fun c => region_congr (k .regions (by decide)) c, fun x => entity_congr (k .casc (by decide)) x, nowNs_congr (k .time (by decide)), imgOf_congr (k .img (by decide)), serving_congr (k .sys (by decide)), working_congr (k .sys (by decide)), alive_congr (k .sys (by decide)), upState_congr (k .sys (by decide)), portOn_congr (k .sys (by decide)), fun e  => dieNo_congr e (k .img (by decide)), fun e  => nodeNo_congr e (k .img (by decide)), fun e c => coreId_congr e (k .img (by decide)) c, fun e c => unitId_congr e (k .img (by decide)) c, fun c => chan_congr (k .cmd (by decide)) c, fun x => entOk_congr (k .img (by decide)) x, fun c => groupOf_congr (k .img (by decide)) (k .jobs (by decide)) c, fun c => probing_congr (k .age (by decide)) c, fun e x => presentCore_congr e (k .img (by decide)) x⟩

@[simp] theorem dataBeat_reads (a0 a1 a2 a3 a4) :
    (dataBeat a0 a1 a2 a3 a4).free = a4.free ∧ (dataBeat a0 a1 a2 a3 a4).sys = a4.sys ∧ (dataBeat a0 a1 a2 a3 a4).isl = a4.isl ∧
    (dataBeat a0 a1 a2 a3 a4).time = a4.time ∧ (dataBeat a0 a1 a2 a3 a4).regions = a4.regions ∧ (dataBeat a0 a1 a2 a3 a4).cells = a4.cells ∧
    (dataBeat a0 a1 a2 a3 a4).hubc = a4.hubc ∧ (dataBeat a0 a1 a2 a3 a4).res = a4.res ∧ (dataBeat a0 a1 a2 a3 a4).ens = a4.ens ∧
    (dataBeat a0 a1 a2 a3 a4).casc = a4.casc ∧ (dataBeat a0 a1 a2 a3 a4).age = a4.age ∧ (dataBeat a0 a1 a2 a3 a4).fab = a4.fab ∧
    (dataBeat a0 a1 a2 a3 a4).sb = a4.sb ∧ (dataBeat a0 a1 a2 a3 a4).bc = a4.bc ∧ (dataBeat a0 a1 a2 a3 a4).jobs = a4.jobs ∧
    (dataBeat a0 a1 a2 a3 a4).mgt = a4.mgt ∧ (dataBeat a0 a1 a2 a3 a4).cmd = a4.cmd ∧ (dataBeat a0 a1 a2 a3 a4).prot = a4.prot ∧
    (dataBeat a0 a1 a2 a3 a4).mem = a4.mem ∧ (dataBeat a0 a1 a2 a3 a4).dma = a4.dma ∧ (dataBeat a0 a1 a2 a3 a4).trc = a4.trc ∧
    (dataBeat a0 a1 a2 a3 a4).nid = a4.nid ∧ (dataBeat a0 a1 a2 a3 a4).boot = a4.boot ∧ (dataBeat a0 a1 a2 a3 a4).img = a4.img ∧
    (dataBeat a0 a1 a2 a3 a4).reports = a4.reports ∧ (dataBeat a0 a1 a2 a3 a4).posted = a4.posted ∧ (dataBeat a0 a1 a2 a3 a4).nvPosted = a4.nvPosted ∧
    (∀ (c : Nat), cell (dataBeat a0 a1 a2 a3 a4) c = cell a4 c) ∧ (∀ (c : Nat), Sys2Proof.Machine.hubc (dataBeat a0 a1 a2 a3 a4) c = Sys2Proof.Machine.hubc a4 c) ∧ (∀ (c : Nat), region (dataBeat a0 a1 a2 a3 a4) c = region a4 c) ∧
    (∀ (x : Word), entity (dataBeat a0 a1 a2 a3 a4) x = entity a4 x) ∧ (nowNs (dataBeat a0 a1 a2 a3 a4) = nowNs a4 ) ∧ (imgOf (dataBeat a0 a1 a2 a3 a4) = imgOf a4 ) ∧
    (serving (dataBeat a0 a1 a2 a3 a4) = serving a4 ) ∧ (working (dataBeat a0 a1 a2 a3 a4) = working a4 ) ∧ (alive (dataBeat a0 a1 a2 a3 a4) = alive a4 ) ∧
    (upState (dataBeat a0 a1 a2 a3 a4) = upState a4 ) ∧ (portOn (dataBeat a0 a1 a2 a3 a4) = portOn a4 ) ∧ (∀ (e : Env), dieNo e (dataBeat a0 a1 a2 a3 a4) = dieNo e a4 ) ∧
    (∀ (e : Env), nodeNo e (dataBeat a0 a1 a2 a3 a4) = nodeNo e a4 ) ∧ (∀ (e : Env) (c : Nat), coreId e (dataBeat a0 a1 a2 a3 a4) c = coreId e a4 c) ∧ (∀ (e : Env) (c : Nat), unitId e (dataBeat a0 a1 a2 a3 a4) c = unitId e a4 c) ∧
    (∀ (c : Nat), chan (dataBeat a0 a1 a2 a3 a4) c = chan a4 c) ∧ (∀ (x : Word), entOk (dataBeat a0 a1 a2 a3 a4) x = entOk a4 x) ∧ (∀ (c : Nat), groupOf (dataBeat a0 a1 a2 a3 a4) c = groupOf a4 c) ∧
    (∀ (c : Nat), probing (dataBeat a0 a1 a2 a3 a4) c = probing a4 c) ∧ (∀ (e : Env) (x : Word), presentCore e (dataBeat a0 a1 a2 a3 a4) x = presentCore e a4 x) := by
  have k := (dataBeat_only a0 a1 a2 a3 a4).keep
  exact ⟨k .free (by decide), k .sys (by decide), k .isl (by decide), k .time (by decide), k .regions (by decide), k .cells (by decide), k .hubc (by decide), k .res (by decide), k .ens (by decide), k .casc (by decide), k .age (by decide), k .fab (by decide), k .sb (by decide), k .bc (by decide), k .jobs (by decide), k .mgt (by decide), k .cmd (by decide), k .prot (by decide), k .mem (by decide), k .dma (by decide), k .trc (by decide), k .nid (by decide), k .boot (by decide), k .img (by decide), k .reports (by decide), k .ram (by decide), k .nvm (by decide), fun c => cell_congr (k .cells (by decide)) c, fun c => hubc_congr (k .hubc (by decide)) c, fun c => region_congr (k .regions (by decide)) c, fun x => entity_congr (k .casc (by decide)) x, nowNs_congr (k .time (by decide)), imgOf_congr (k .img (by decide)), serving_congr (k .sys (by decide)), working_congr (k .sys (by decide)), alive_congr (k .sys (by decide)), upState_congr (k .sys (by decide)), portOn_congr (k .sys (by decide)), fun e  => dieNo_congr e (k .img (by decide)), fun e  => nodeNo_congr e (k .img (by decide)), fun e c => coreId_congr e (k .img (by decide)) c, fun e c => unitId_congr e (k .img (by decide)) c, fun c => chan_congr (k .cmd (by decide)) c, fun x => entOk_congr (k .img (by decide)) x, fun c => groupOf_congr (k .img (by decide)) (k .jobs (by decide)) c, fun c => probing_congr (k .age (by decide)) c, fun e x => presentCore_congr e (k .img (by decide)) x⟩

@[simp] theorem sliceFinal_reads (a0 a1 a2 a3 a4) :
    (sliceFinal a0 a1 a2 a3 a4).free = a4.free ∧ (sliceFinal a0 a1 a2 a3 a4).sys = a4.sys ∧ (sliceFinal a0 a1 a2 a3 a4).isl = a4.isl ∧
    (sliceFinal a0 a1 a2 a3 a4).time = a4.time ∧ (sliceFinal a0 a1 a2 a3 a4).hubc = a4.hubc ∧ (sliceFinal a0 a1 a2 a3 a4).res = a4.res ∧
    (sliceFinal a0 a1 a2 a3 a4).xs = a4.xs ∧ (sliceFinal a0 a1 a2 a3 a4).fab = a4.fab ∧ (sliceFinal a0 a1 a2 a3 a4).sb = a4.sb ∧
    (sliceFinal a0 a1 a2 a3 a4).bc = a4.bc ∧ (sliceFinal a0 a1 a2 a3 a4).jobs = a4.jobs ∧ (sliceFinal a0 a1 a2 a3 a4).mgt = a4.mgt ∧
    (sliceFinal a0 a1 a2 a3 a4).cmd = a4.cmd ∧ (sliceFinal a0 a1 a2 a3 a4).prot = a4.prot ∧ (sliceFinal a0 a1 a2 a3 a4).dma = a4.dma ∧
    (sliceFinal a0 a1 a2 a3 a4).nid = a4.nid ∧ (sliceFinal a0 a1 a2 a3 a4).boot = a4.boot ∧ (sliceFinal a0 a1 a2 a3 a4).img = a4.img ∧
    (sliceFinal a0 a1 a2 a3 a4).reports = a4.reports ∧ (sliceFinal a0 a1 a2 a3 a4).posted = a4.posted ∧ (sliceFinal a0 a1 a2 a3 a4).nvPosted = a4.nvPosted ∧
    (∀ (c : Nat), Sys2Proof.Machine.hubc (sliceFinal a0 a1 a2 a3 a4) c = Sys2Proof.Machine.hubc a4 c) ∧ (nowNs (sliceFinal a0 a1 a2 a3 a4) = nowNs a4 ) ∧ (imgOf (sliceFinal a0 a1 a2 a3 a4) = imgOf a4 ) ∧
    (serving (sliceFinal a0 a1 a2 a3 a4) = serving a4 ) ∧ (working (sliceFinal a0 a1 a2 a3 a4) = working a4 ) ∧ (alive (sliceFinal a0 a1 a2 a3 a4) = alive a4 ) ∧
    (upState (sliceFinal a0 a1 a2 a3 a4) = upState a4 ) ∧ (portOn (sliceFinal a0 a1 a2 a3 a4) = portOn a4 ) ∧ (∀ (e : Env), dieNo e (sliceFinal a0 a1 a2 a3 a4) = dieNo e a4 ) ∧
    (∀ (e : Env), nodeNo e (sliceFinal a0 a1 a2 a3 a4) = nodeNo e a4 ) ∧ (∀ (e : Env) (c : Nat), coreId e (sliceFinal a0 a1 a2 a3 a4) c = coreId e a4 c) ∧ (∀ (e : Env) (c : Nat), unitId e (sliceFinal a0 a1 a2 a3 a4) c = unitId e a4 c) ∧
    (∀ (c : Nat), chan (sliceFinal a0 a1 a2 a3 a4) c = chan a4 c) ∧ (∀ (x : Word), entOk (sliceFinal a0 a1 a2 a3 a4) x = entOk a4 x) ∧ (∀ (c : Nat), groupOf (sliceFinal a0 a1 a2 a3 a4) c = groupOf a4 c) ∧
    (∀ (e : Env) (x : Word), presentCore e (sliceFinal a0 a1 a2 a3 a4) x = presentCore e a4 x) := by
  have k := (sliceFinal_only a0 a1 a2 a3 a4).keep
  exact ⟨k .free (by decide), k .sys (by decide), k .isl (by decide), k .time (by decide), k .hubc (by decide), k .res (by decide), k .xs (by decide), k .fab (by decide), k .sb (by decide), k .bc (by decide), k .jobs (by decide), k .mgt (by decide), k .cmd (by decide), k .prot (by decide), k .dma (by decide), k .nid (by decide), k .boot (by decide), k .img (by decide), k .reports (by decide), k .ram (by decide), k .nvm (by decide), fun c => hubc_congr (k .hubc (by decide)) c, nowNs_congr (k .time (by decide)), imgOf_congr (k .img (by decide)), serving_congr (k .sys (by decide)), working_congr (k .sys (by decide)), alive_congr (k .sys (by decide)), upState_congr (k .sys (by decide)), portOn_congr (k .sys (by decide)), fun e  => dieNo_congr e (k .img (by decide)), fun e  => nodeNo_congr e (k .img (by decide)), fun e c => coreId_congr e (k .img (by decide)) c, fun e c => unitId_congr e (k .img (by decide)) c, fun c => chan_congr (k .cmd (by decide)) c, fun x => entOk_congr (k .img (by decide)) x, fun c => groupOf_congr (k .img (by decide)) (k .jobs (by decide)) c, fun e x => presentCore_congr e (k .img (by decide)) x⟩

@[simp] theorem recallFinal_reads (a0 a1 a2 a3 a4 a5 a6 a7) :
    (recallFinal a0 a1 a2 a3 a4 a5 a6 a7).free = a7.free ∧ (recallFinal a0 a1 a2 a3 a4 a5 a6 a7).sys = a7.sys ∧ (recallFinal a0 a1 a2 a3 a4 a5 a6 a7).isl = a7.isl ∧
    (recallFinal a0 a1 a2 a3 a4 a5 a6 a7).time = a7.time ∧ (recallFinal a0 a1 a2 a3 a4 a5 a6 a7).hubc = a7.hubc ∧ (recallFinal a0 a1 a2 a3 a4 a5 a6 a7).res = a7.res ∧
    (recallFinal a0 a1 a2 a3 a4 a5 a6 a7).xs = a7.xs ∧ (recallFinal a0 a1 a2 a3 a4 a5 a6 a7).fab = a7.fab ∧ (recallFinal a0 a1 a2 a3 a4 a5 a6 a7).sb = a7.sb ∧
    (recallFinal a0 a1 a2 a3 a4 a5 a6 a7).bc = a7.bc ∧ (recallFinal a0 a1 a2 a3 a4 a5 a6 a7).jobs = a7.jobs ∧ (recallFinal a0 a1 a2 a3 a4 a5 a6 a7).mgt = a7.mgt ∧
    (recallFinal a0 a1 a2 a3 a4 a5 a6 a7).cmd = a7.cmd ∧ (recallFinal a0 a1 a2 a3 a4 a5 a6 a7).prot = a7.prot ∧ (recallFinal a0 a1 a2 a3 a4 a5 a6 a7).dma = a7.dma ∧
    (recallFinal a0 a1 a2 a3 a4 a5 a6 a7).nid = a7.nid ∧ (recallFinal a0 a1 a2 a3 a4 a5 a6 a7).boot = a7.boot ∧ (recallFinal a0 a1 a2 a3 a4 a5 a6 a7).img = a7.img ∧
    (recallFinal a0 a1 a2 a3 a4 a5 a6 a7).reports = a7.reports ∧ (recallFinal a0 a1 a2 a3 a4 a5 a6 a7).posted = a7.posted ∧ (recallFinal a0 a1 a2 a3 a4 a5 a6 a7).nvPosted = a7.nvPosted ∧
    (∀ (c : Nat), Sys2Proof.Machine.hubc (recallFinal a0 a1 a2 a3 a4 a5 a6 a7) c = Sys2Proof.Machine.hubc a7 c) ∧ (nowNs (recallFinal a0 a1 a2 a3 a4 a5 a6 a7) = nowNs a7 ) ∧ (imgOf (recallFinal a0 a1 a2 a3 a4 a5 a6 a7) = imgOf a7 ) ∧
    (serving (recallFinal a0 a1 a2 a3 a4 a5 a6 a7) = serving a7 ) ∧ (working (recallFinal a0 a1 a2 a3 a4 a5 a6 a7) = working a7 ) ∧ (alive (recallFinal a0 a1 a2 a3 a4 a5 a6 a7) = alive a7 ) ∧
    (upState (recallFinal a0 a1 a2 a3 a4 a5 a6 a7) = upState a7 ) ∧ (portOn (recallFinal a0 a1 a2 a3 a4 a5 a6 a7) = portOn a7 ) ∧ (∀ (e : Env), dieNo e (recallFinal a0 a1 a2 a3 a4 a5 a6 a7) = dieNo e a7 ) ∧
    (∀ (e : Env), nodeNo e (recallFinal a0 a1 a2 a3 a4 a5 a6 a7) = nodeNo e a7 ) ∧ (∀ (e : Env) (c : Nat), coreId e (recallFinal a0 a1 a2 a3 a4 a5 a6 a7) c = coreId e a7 c) ∧ (∀ (e : Env) (c : Nat), unitId e (recallFinal a0 a1 a2 a3 a4 a5 a6 a7) c = unitId e a7 c) ∧
    (∀ (c : Nat), chan (recallFinal a0 a1 a2 a3 a4 a5 a6 a7) c = chan a7 c) ∧ (∀ (x : Word), entOk (recallFinal a0 a1 a2 a3 a4 a5 a6 a7) x = entOk a7 x) ∧ (∀ (c : Nat), groupOf (recallFinal a0 a1 a2 a3 a4 a5 a6 a7) c = groupOf a7 c) ∧
    (∀ (e : Env) (x : Word), presentCore e (recallFinal a0 a1 a2 a3 a4 a5 a6 a7) x = presentCore e a7 x) := by
  have k := (recallFinal_only a0 a1 a2 a3 a4 a5 a6 a7).keep
  exact ⟨k .free (by decide), k .sys (by decide), k .isl (by decide), k .time (by decide), k .hubc (by decide), k .res (by decide), k .xs (by decide), k .fab (by decide), k .sb (by decide), k .bc (by decide), k .jobs (by decide), k .mgt (by decide), k .cmd (by decide), k .prot (by decide), k .dma (by decide), k .nid (by decide), k .boot (by decide), k .img (by decide), k .reports (by decide), k .ram (by decide), k .nvm (by decide), fun c => hubc_congr (k .hubc (by decide)) c, nowNs_congr (k .time (by decide)), imgOf_congr (k .img (by decide)), serving_congr (k .sys (by decide)), working_congr (k .sys (by decide)), alive_congr (k .sys (by decide)), upState_congr (k .sys (by decide)), portOn_congr (k .sys (by decide)), fun e  => dieNo_congr e (k .img (by decide)), fun e  => nodeNo_congr e (k .img (by decide)), fun e c => coreId_congr e (k .img (by decide)) c, fun e c => unitId_congr e (k .img (by decide)) c, fun c => chan_congr (k .cmd (by decide)) c, fun x => entOk_congr (k .img (by decide)) x, fun c => groupOf_congr (k .img (by decide)) (k .jobs (by decide)) c, fun e x => presentCore_congr e (k .img (by decide)) x⟩

@[simp] theorem uncompared_reads (a0 a1 a2) :
    (uncompared a0 a1 a2).free = a2.free ∧ (uncompared a0 a1 a2).sys = a2.sys ∧ (uncompared a0 a1 a2).isl = a2.isl ∧
    (uncompared a0 a1 a2).time = a2.time ∧ (uncompared a0 a1 a2).regions = a2.regions ∧ (uncompared a0 a1 a2).cells = a2.cells ∧
    (uncompared a0 a1 a2).hubc = a2.hubc ∧ (uncompared a0 a1 a2).res = a2.res ∧ (uncompared a0 a1 a2).xs = a2.xs ∧
    (uncompared a0 a1 a2).ens = a2.ens ∧ (uncompared a0 a1 a2).casc = a2.casc ∧ (uncompared a0 a1 a2).age = a2.age ∧
    (uncompared a0 a1 a2).fab = a2.fab ∧ (uncompared a0 a1 a2).sb = a2.sb ∧ (uncompared a0 a1 a2).bc = a2.bc ∧
    (uncompared a0 a1 a2).jobs = a2.jobs ∧ (uncompared a0 a1 a2).mgt = a2.mgt ∧ (uncompared a0 a1 a2).cmd = a2.cmd ∧
    (uncompared a0 a1 a2).prot = a2.prot ∧ (uncompared a0 a1 a2).mem = a2.mem ∧ (uncompared a0 a1 a2).dma = a2.dma ∧
    (uncompared a0 a1 a2).trc = a2.trc ∧ (uncompared a0 a1 a2).nid = a2.nid ∧ (uncompared a0 a1 a2).boot = a2.boot ∧
    (uncompared a0 a1 a2).img = a2.img ∧ (uncompared a0 a1 a2).reports = a2.reports ∧ (uncompared a0 a1 a2).posted = a2.posted ∧
    (uncompared a0 a1 a2).nvPosted = a2.nvPosted ∧ (∀ (c : Nat), cell (uncompared a0 a1 a2) c = cell a2 c) ∧ (∀ (c : Nat), Sys2Proof.Machine.hubc (uncompared a0 a1 a2) c = Sys2Proof.Machine.hubc a2 c) ∧
    (∀ (c : Nat), region (uncompared a0 a1 a2) c = region a2 c) ∧ (∀ (x : Word), entity (uncompared a0 a1 a2) x = entity a2 x) ∧ (nowNs (uncompared a0 a1 a2) = nowNs a2 ) ∧
    (imgOf (uncompared a0 a1 a2) = imgOf a2 ) ∧ (serving (uncompared a0 a1 a2) = serving a2 ) ∧ (working (uncompared a0 a1 a2) = working a2 ) ∧
    (alive (uncompared a0 a1 a2) = alive a2 ) ∧ (upState (uncompared a0 a1 a2) = upState a2 ) ∧ (portOn (uncompared a0 a1 a2) = portOn a2 ) ∧
    (∀ (e : Env), dieNo e (uncompared a0 a1 a2) = dieNo e a2 ) ∧ (∀ (e : Env), nodeNo e (uncompared a0 a1 a2) = nodeNo e a2 ) ∧ (∀ (e : Env) (c : Nat), coreId e (uncompared a0 a1 a2) c = coreId e a2 c) ∧
    (∀ (e : Env) (c : Nat), unitId e (uncompared a0 a1 a2) c = unitId e a2 c) ∧ (∀ (c : Nat), chan (uncompared a0 a1 a2) c = chan a2 c) ∧ (∀ (x : Word), entOk (uncompared a0 a1 a2) x = entOk a2 x) ∧
    (∀ (c : Nat), groupOf (uncompared a0 a1 a2) c = groupOf a2 c) ∧ (∀ (c : Nat), probing (uncompared a0 a1 a2) c = probing a2 c) ∧ (∀ (e : Env) (x : Word), presentCore e (uncompared a0 a1 a2) x = presentCore e a2 x) := by
  have k := (uncompared_only a0 a1 a2).keep
  exact ⟨k .free (by decide), k .sys (by decide), k .isl (by decide), k .time (by decide), k .regions (by decide), k .cells (by decide), k .hubc (by decide), k .res (by decide), k .xs (by decide), k .ens (by decide), k .casc (by decide), k .age (by decide), k .fab (by decide), k .sb (by decide), k .bc (by decide), k .jobs (by decide), k .mgt (by decide), k .cmd (by decide), k .prot (by decide), k .mem (by decide), k .dma (by decide), k .trc (by decide), k .nid (by decide), k .boot (by decide), k .img (by decide), k .reports (by decide), k .ram (by decide), k .nvm (by decide), fun c => cell_congr (k .cells (by decide)) c, fun c => hubc_congr (k .hubc (by decide)) c, fun c => region_congr (k .regions (by decide)) c, fun x => entity_congr (k .casc (by decide)) x, nowNs_congr (k .time (by decide)), imgOf_congr (k .img (by decide)), serving_congr (k .sys (by decide)), working_congr (k .sys (by decide)), alive_congr (k .sys (by decide)), upState_congr (k .sys (by decide)), portOn_congr (k .sys (by decide)), fun e  => dieNo_congr e (k .img (by decide)), fun e  => nodeNo_congr e (k .img (by decide)), fun e c => coreId_congr e (k .img (by decide)) c, fun e c => unitId_congr e (k .img (by decide)) c, fun c => chan_congr (k .cmd (by decide)) c, fun x => entOk_congr (k .img (by decide)) x, fun c => groupOf_congr (k .img (by decide)) (k .jobs (by decide)) c, fun c => probing_congr (k .age (by decide)) c, fun e x => presentCore_congr e (k .img (by decide)) x⟩

@[simp] theorem openChunk_reads (a0 a1 a2 a3 a4) :
    (openChunk a0 a1 a2 a3 a4).free = a4.free ∧ (openChunk a0 a1 a2 a3 a4).sys = a4.sys ∧ (openChunk a0 a1 a2 a3 a4).isl = a4.isl ∧
    (openChunk a0 a1 a2 a3 a4).time = a4.time ∧ (openChunk a0 a1 a2 a3 a4).regions = a4.regions ∧ (openChunk a0 a1 a2 a3 a4).cells = a4.cells ∧
    (openChunk a0 a1 a2 a3 a4).hubc = a4.hubc ∧ (openChunk a0 a1 a2 a3 a4).res = a4.res ∧ (openChunk a0 a1 a2 a3 a4).xs = a4.xs ∧
    (openChunk a0 a1 a2 a3 a4).ens = a4.ens ∧ (openChunk a0 a1 a2 a3 a4).casc = a4.casc ∧ (openChunk a0 a1 a2 a3 a4).age = a4.age ∧
    (openChunk a0 a1 a2 a3 a4).fab = a4.fab ∧ (openChunk a0 a1 a2 a3 a4).sb = a4.sb ∧ (openChunk a0 a1 a2 a3 a4).bc = a4.bc ∧
    (openChunk a0 a1 a2 a3 a4).jobs = a4.jobs ∧ (openChunk a0 a1 a2 a3 a4).mgt = a4.mgt ∧ (openChunk a0 a1 a2 a3 a4).cmd = a4.cmd ∧
    (openChunk a0 a1 a2 a3 a4).prot = a4.prot ∧ (openChunk a0 a1 a2 a3 a4).mem = a4.mem ∧ (openChunk a0 a1 a2 a3 a4).dma = a4.dma ∧
    (openChunk a0 a1 a2 a3 a4).trc = a4.trc ∧ (openChunk a0 a1 a2 a3 a4).nid = a4.nid ∧ (openChunk a0 a1 a2 a3 a4).boot = a4.boot ∧
    (openChunk a0 a1 a2 a3 a4).img = a4.img ∧ (openChunk a0 a1 a2 a3 a4).reports = a4.reports ∧ (openChunk a0 a1 a2 a3 a4).posted = a4.posted ∧
    (openChunk a0 a1 a2 a3 a4).nvPosted = a4.nvPosted ∧ (∀ (c : Nat), cell (openChunk a0 a1 a2 a3 a4) c = cell a4 c) ∧ (∀ (c : Nat), Sys2Proof.Machine.hubc (openChunk a0 a1 a2 a3 a4) c = Sys2Proof.Machine.hubc a4 c) ∧
    (∀ (c : Nat), region (openChunk a0 a1 a2 a3 a4) c = region a4 c) ∧ (∀ (x : Word), entity (openChunk a0 a1 a2 a3 a4) x = entity a4 x) ∧ (nowNs (openChunk a0 a1 a2 a3 a4) = nowNs a4 ) ∧
    (imgOf (openChunk a0 a1 a2 a3 a4) = imgOf a4 ) ∧ (serving (openChunk a0 a1 a2 a3 a4) = serving a4 ) ∧ (working (openChunk a0 a1 a2 a3 a4) = working a4 ) ∧
    (alive (openChunk a0 a1 a2 a3 a4) = alive a4 ) ∧ (upState (openChunk a0 a1 a2 a3 a4) = upState a4 ) ∧ (portOn (openChunk a0 a1 a2 a3 a4) = portOn a4 ) ∧
    (∀ (e : Env), dieNo e (openChunk a0 a1 a2 a3 a4) = dieNo e a4 ) ∧ (∀ (e : Env), nodeNo e (openChunk a0 a1 a2 a3 a4) = nodeNo e a4 ) ∧ (∀ (e : Env) (c : Nat), coreId e (openChunk a0 a1 a2 a3 a4) c = coreId e a4 c) ∧
    (∀ (e : Env) (c : Nat), unitId e (openChunk a0 a1 a2 a3 a4) c = unitId e a4 c) ∧ (∀ (c : Nat), chan (openChunk a0 a1 a2 a3 a4) c = chan a4 c) ∧ (∀ (x : Word), entOk (openChunk a0 a1 a2 a3 a4) x = entOk a4 x) ∧
    (∀ (c : Nat), groupOf (openChunk a0 a1 a2 a3 a4) c = groupOf a4 c) ∧ (∀ (c : Nat), probing (openChunk a0 a1 a2 a3 a4) c = probing a4 c) ∧ (∀ (e : Env) (x : Word), presentCore e (openChunk a0 a1 a2 a3 a4) x = presentCore e a4 x) := by
  have k := (openChunk_only a0 a1 a2 a3 a4).keep
  exact ⟨k .free (by decide), k .sys (by decide), k .isl (by decide), k .time (by decide), k .regions (by decide), k .cells (by decide), k .hubc (by decide), k .res (by decide), k .xs (by decide), k .ens (by decide), k .casc (by decide), k .age (by decide), k .fab (by decide), k .sb (by decide), k .bc (by decide), k .jobs (by decide), k .mgt (by decide), k .cmd (by decide), k .prot (by decide), k .mem (by decide), k .dma (by decide), k .trc (by decide), k .nid (by decide), k .boot (by decide), k .img (by decide), k .reports (by decide), k .ram (by decide), k .nvm (by decide), fun c => cell_congr (k .cells (by decide)) c, fun c => hubc_congr (k .hubc (by decide)) c, fun c => region_congr (k .regions (by decide)) c, fun x => entity_congr (k .casc (by decide)) x, nowNs_congr (k .time (by decide)), imgOf_congr (k .img (by decide)), serving_congr (k .sys (by decide)), working_congr (k .sys (by decide)), alive_congr (k .sys (by decide)), upState_congr (k .sys (by decide)), portOn_congr (k .sys (by decide)), fun e  => dieNo_congr e (k .img (by decide)), fun e  => nodeNo_congr e (k .img (by decide)), fun e c => coreId_congr e (k .img (by decide)) c, fun e c => unitId_congr e (k .img (by decide)) c, fun c => chan_congr (k .cmd (by decide)) c, fun x => entOk_congr (k .img (by decide)) x, fun c => groupOf_congr (k .img (by decide)) (k .jobs (by decide)) c, fun c => probing_congr (k .age (by decide)) c, fun e x => presentCore_congr e (k .img (by decide)) x⟩

@[simp] theorem chunkOverrun_reads (a0 a1 a2) :
    (chunkOverrun a0 a1 a2).free = a2.free ∧ (chunkOverrun a0 a1 a2).sys = a2.sys ∧ (chunkOverrun a0 a1 a2).isl = a2.isl ∧
    (chunkOverrun a0 a1 a2).time = a2.time ∧ (chunkOverrun a0 a1 a2).regions = a2.regions ∧ (chunkOverrun a0 a1 a2).cells = a2.cells ∧
    (chunkOverrun a0 a1 a2).hubc = a2.hubc ∧ (chunkOverrun a0 a1 a2).res = a2.res ∧ (chunkOverrun a0 a1 a2).xs = a2.xs ∧
    (chunkOverrun a0 a1 a2).ens = a2.ens ∧ (chunkOverrun a0 a1 a2).casc = a2.casc ∧ (chunkOverrun a0 a1 a2).age = a2.age ∧
    (chunkOverrun a0 a1 a2).fab = a2.fab ∧ (chunkOverrun a0 a1 a2).sb = a2.sb ∧ (chunkOverrun a0 a1 a2).bc = a2.bc ∧
    (chunkOverrun a0 a1 a2).jobs = a2.jobs ∧ (chunkOverrun a0 a1 a2).mgt = a2.mgt ∧ (chunkOverrun a0 a1 a2).cmd = a2.cmd ∧
    (chunkOverrun a0 a1 a2).prot = a2.prot ∧ (chunkOverrun a0 a1 a2).regs = a2.regs ∧ (chunkOverrun a0 a1 a2).mem = a2.mem ∧
    (chunkOverrun a0 a1 a2).dma = a2.dma ∧ (chunkOverrun a0 a1 a2).trc = a2.trc ∧ (chunkOverrun a0 a1 a2).nid = a2.nid ∧
    (chunkOverrun a0 a1 a2).log = a2.log ∧ (chunkOverrun a0 a1 a2).boot = a2.boot ∧ (chunkOverrun a0 a1 a2).img = a2.img ∧
    (chunkOverrun a0 a1 a2).reports = a2.reports ∧ (chunkOverrun a0 a1 a2).posted = a2.posted ∧ (chunkOverrun a0 a1 a2).nvPosted = a2.nvPosted ∧
    (∀ (c : Nat), cell (chunkOverrun a0 a1 a2) c = cell a2 c) ∧ (∀ (c : Nat), Sys2Proof.Machine.hubc (chunkOverrun a0 a1 a2) c = Sys2Proof.Machine.hubc a2 c) ∧ (∀ (c : Nat), region (chunkOverrun a0 a1 a2) c = region a2 c) ∧
    (∀ (x : Word), entity (chunkOverrun a0 a1 a2) x = entity a2 x) ∧ (nowNs (chunkOverrun a0 a1 a2) = nowNs a2 ) ∧ (imgOf (chunkOverrun a0 a1 a2) = imgOf a2 ) ∧
    (serving (chunkOverrun a0 a1 a2) = serving a2 ) ∧ (working (chunkOverrun a0 a1 a2) = working a2 ) ∧ (alive (chunkOverrun a0 a1 a2) = alive a2 ) ∧
    (upState (chunkOverrun a0 a1 a2) = upState a2 ) ∧ (portOn (chunkOverrun a0 a1 a2) = portOn a2 ) ∧ (∀ (e : Env), dieNo e (chunkOverrun a0 a1 a2) = dieNo e a2 ) ∧
    (∀ (e : Env), nodeNo e (chunkOverrun a0 a1 a2) = nodeNo e a2 ) ∧ (∀ (e : Env) (c : Nat), coreId e (chunkOverrun a0 a1 a2) c = coreId e a2 c) ∧ (∀ (e : Env) (c : Nat), unitId e (chunkOverrun a0 a1 a2) c = unitId e a2 c) ∧
    (∀ (c : Nat), chan (chunkOverrun a0 a1 a2) c = chan a2 c) ∧ (∀ (x : Word), entOk (chunkOverrun a0 a1 a2) x = entOk a2 x) ∧ (∀ (c : Nat), groupOf (chunkOverrun a0 a1 a2) c = groupOf a2 c) ∧
    (∀ (c : Nat), probing (chunkOverrun a0 a1 a2) c = probing a2 c) ∧ (∀ (e : Env) (x : Word), presentCore e (chunkOverrun a0 a1 a2) x = presentCore e a2 x) := by
  have k := (chunkOverrun_only a0 a1 a2).keep
  exact ⟨k .free (by decide), k .sys (by decide), k .isl (by decide), k .time (by decide), k .regions (by decide), k .cells (by decide), k .hubc (by decide), k .res (by decide), k .xs (by decide), k .ens (by decide), k .casc (by decide), k .age (by decide), k .fab (by decide), k .sb (by decide), k .bc (by decide), k .jobs (by decide), k .mgt (by decide), k .cmd (by decide), k .prot (by decide), k .regs (by decide), k .mem (by decide), k .dma (by decide), k .trc (by decide), k .nid (by decide), k .log (by decide), k .boot (by decide), k .img (by decide), k .reports (by decide), k .ram (by decide), k .nvm (by decide), fun c => cell_congr (k .cells (by decide)) c, fun c => hubc_congr (k .hubc (by decide)) c, fun c => region_congr (k .regions (by decide)) c, fun x => entity_congr (k .casc (by decide)) x, nowNs_congr (k .time (by decide)), imgOf_congr (k .img (by decide)), serving_congr (k .sys (by decide)), working_congr (k .sys (by decide)), alive_congr (k .sys (by decide)), upState_congr (k .sys (by decide)), portOn_congr (k .sys (by decide)), fun e  => dieNo_congr e (k .img (by decide)), fun e  => nodeNo_congr e (k .img (by decide)), fun e c => coreId_congr e (k .img (by decide)) c, fun e c => unitId_congr e (k .img (by decide)) c, fun c => chan_congr (k .cmd (by decide)) c, fun x => entOk_congr (k .img (by decide)) x, fun c => groupOf_congr (k .img (by decide)) (k .jobs (by decide)) c, fun c => probing_congr (k .age (by decide)) c, fun e x => presentCore_congr e (k .img (by decide)) x⟩

@[simp] theorem takeData_reads (a0 a1 a2 a3 a4) :
    (takeData a0 a1 a2 a3 a4).free = a4.free ∧ (takeData a0 a1 a2 a3 a4).sys = a4.sys ∧ (takeData a0 a1 a2 a3 a4).isl = a4.isl ∧
    (takeData a0 a1 a2 a3 a4).time = a4.time ∧ (takeData a0 a1 a2 a3 a4).regions = a4.regions ∧ (takeData a0 a1 a2 a3 a4).cells = a4.cells ∧
    (takeData a0 a1 a2 a3 a4).hubc = a4.hubc ∧ (takeData a0 a1 a2 a3 a4).res = a4.res ∧ (takeData a0 a1 a2 a3 a4).ens = a4.ens ∧
    (takeData a0 a1 a2 a3 a4).casc = a4.casc ∧ (takeData a0 a1 a2 a3 a4).age = a4.age ∧ (takeData a0 a1 a2 a3 a4).fab = a4.fab ∧
    (takeData a0 a1 a2 a3 a4).sb = a4.sb ∧ (takeData a0 a1 a2 a3 a4).bc = a4.bc ∧ (takeData a0 a1 a2 a3 a4).jobs = a4.jobs ∧
    (takeData a0 a1 a2 a3 a4).mgt = a4.mgt ∧ (takeData a0 a1 a2 a3 a4).cmd = a4.cmd ∧ (takeData a0 a1 a2 a3 a4).prot = a4.prot ∧
    (takeData a0 a1 a2 a3 a4).mem = a4.mem ∧ (takeData a0 a1 a2 a3 a4).dma = a4.dma ∧ (takeData a0 a1 a2 a3 a4).trc = a4.trc ∧
    (takeData a0 a1 a2 a3 a4).nid = a4.nid ∧ (takeData a0 a1 a2 a3 a4).boot = a4.boot ∧ (takeData a0 a1 a2 a3 a4).img = a4.img ∧
    (takeData a0 a1 a2 a3 a4).reports = a4.reports ∧ (takeData a0 a1 a2 a3 a4).posted = a4.posted ∧ (takeData a0 a1 a2 a3 a4).nvPosted = a4.nvPosted ∧
    (∀ (c : Nat), cell (takeData a0 a1 a2 a3 a4) c = cell a4 c) ∧ (∀ (c : Nat), Sys2Proof.Machine.hubc (takeData a0 a1 a2 a3 a4) c = Sys2Proof.Machine.hubc a4 c) ∧ (∀ (c : Nat), region (takeData a0 a1 a2 a3 a4) c = region a4 c) ∧
    (∀ (x : Word), entity (takeData a0 a1 a2 a3 a4) x = entity a4 x) ∧ (nowNs (takeData a0 a1 a2 a3 a4) = nowNs a4 ) ∧ (imgOf (takeData a0 a1 a2 a3 a4) = imgOf a4 ) ∧
    (serving (takeData a0 a1 a2 a3 a4) = serving a4 ) ∧ (working (takeData a0 a1 a2 a3 a4) = working a4 ) ∧ (alive (takeData a0 a1 a2 a3 a4) = alive a4 ) ∧
    (upState (takeData a0 a1 a2 a3 a4) = upState a4 ) ∧ (portOn (takeData a0 a1 a2 a3 a4) = portOn a4 ) ∧ (∀ (e : Env), dieNo e (takeData a0 a1 a2 a3 a4) = dieNo e a4 ) ∧
    (∀ (e : Env), nodeNo e (takeData a0 a1 a2 a3 a4) = nodeNo e a4 ) ∧ (∀ (e : Env) (c : Nat), coreId e (takeData a0 a1 a2 a3 a4) c = coreId e a4 c) ∧ (∀ (e : Env) (c : Nat), unitId e (takeData a0 a1 a2 a3 a4) c = unitId e a4 c) ∧
    (∀ (c : Nat), chan (takeData a0 a1 a2 a3 a4) c = chan a4 c) ∧ (∀ (x : Word), entOk (takeData a0 a1 a2 a3 a4) x = entOk a4 x) ∧ (∀ (c : Nat), groupOf (takeData a0 a1 a2 a3 a4) c = groupOf a4 c) ∧
    (∀ (c : Nat), probing (takeData a0 a1 a2 a3 a4) c = probing a4 c) ∧ (∀ (e : Env) (x : Word), presentCore e (takeData a0 a1 a2 a3 a4) x = presentCore e a4 x) := by
  have k := (takeData_only a0 a1 a2 a3 a4).keep
  exact ⟨k .free (by decide), k .sys (by decide), k .isl (by decide), k .time (by decide), k .regions (by decide), k .cells (by decide), k .hubc (by decide), k .res (by decide), k .ens (by decide), k .casc (by decide), k .age (by decide), k .fab (by decide), k .sb (by decide), k .bc (by decide), k .jobs (by decide), k .mgt (by decide), k .cmd (by decide), k .prot (by decide), k .mem (by decide), k .dma (by decide), k .trc (by decide), k .nid (by decide), k .boot (by decide), k .img (by decide), k .reports (by decide), k .ram (by decide), k .nvm (by decide), fun c => cell_congr (k .cells (by decide)) c, fun c => hubc_congr (k .hubc (by decide)) c, fun c => region_congr (k .regions (by decide)) c, fun x => entity_congr (k .casc (by decide)) x, nowNs_congr (k .time (by decide)), imgOf_congr (k .img (by decide)), serving_congr (k .sys (by decide)), working_congr (k .sys (by decide)), alive_congr (k .sys (by decide)), upState_congr (k .sys (by decide)), portOn_congr (k .sys (by decide)), fun e  => dieNo_congr e (k .img (by decide)), fun e  => nodeNo_congr e (k .img (by decide)), fun e c => coreId_congr e (k .img (by decide)) c, fun e c => unitId_congr e (k .img (by decide)) c, fun c => chan_congr (k .cmd (by decide)) c, fun x => entOk_congr (k .img (by decide)) x, fun c => groupOf_congr (k .img (by decide)) (k .jobs (by decide)) c, fun c => probing_congr (k .age (by decide)) c, fun e x => presentCore_congr e (k .img (by decide)) x⟩

@[simp] theorem sliceEnd_reads (a0 a1 a2 a3) :
    (sliceEnd a0 a1 a2 a3).free = a3.free ∧ (sliceEnd a0 a1 a2 a3).sys = a3.sys ∧ (sliceEnd a0 a1 a2 a3).isl = a3.isl ∧
    (sliceEnd a0 a1 a2 a3).time = a3.time ∧ (sliceEnd a0 a1 a2 a3).regions = a3.regions ∧ (sliceEnd a0 a1 a2 a3).cells = a3.cells ∧
    (sliceEnd a0 a1 a2 a3).hubc = a3.hubc ∧ (sliceEnd a0 a1 a2 a3).res = a3.res ∧ (sliceEnd a0 a1 a2 a3).xs = a3.xs ∧
    (sliceEnd a0 a1 a2 a3).ens = a3.ens ∧ (sliceEnd a0 a1 a2 a3).casc = a3.casc ∧ (sliceEnd a0 a1 a2 a3).age = a3.age ∧
    (sliceEnd a0 a1 a2 a3).fab = a3.fab ∧ (sliceEnd a0 a1 a2 a3).sb = a3.sb ∧ (sliceEnd a0 a1 a2 a3).bc = a3.bc ∧
    (sliceEnd a0 a1 a2 a3).jobs = a3.jobs ∧ (sliceEnd a0 a1 a2 a3).mgt = a3.mgt ∧ (sliceEnd a0 a1 a2 a3).cmd = a3.cmd ∧
    (sliceEnd a0 a1 a2 a3).prot = a3.prot ∧ (sliceEnd a0 a1 a2 a3).mem = a3.mem ∧ (sliceEnd a0 a1 a2 a3).dma = a3.dma ∧
    (sliceEnd a0 a1 a2 a3).trc = a3.trc ∧ (sliceEnd a0 a1 a2 a3).nid = a3.nid ∧ (sliceEnd a0 a1 a2 a3).boot = a3.boot ∧
    (sliceEnd a0 a1 a2 a3).img = a3.img ∧ (sliceEnd a0 a1 a2 a3).reports = a3.reports ∧ (sliceEnd a0 a1 a2 a3).posted = a3.posted ∧
    (sliceEnd a0 a1 a2 a3).nvPosted = a3.nvPosted ∧ (∀ (c : Nat), cell (sliceEnd a0 a1 a2 a3) c = cell a3 c) ∧ (∀ (c : Nat), Sys2Proof.Machine.hubc (sliceEnd a0 a1 a2 a3) c = Sys2Proof.Machine.hubc a3 c) ∧
    (∀ (c : Nat), region (sliceEnd a0 a1 a2 a3) c = region a3 c) ∧ (∀ (x : Word), entity (sliceEnd a0 a1 a2 a3) x = entity a3 x) ∧ (nowNs (sliceEnd a0 a1 a2 a3) = nowNs a3 ) ∧
    (imgOf (sliceEnd a0 a1 a2 a3) = imgOf a3 ) ∧ (serving (sliceEnd a0 a1 a2 a3) = serving a3 ) ∧ (working (sliceEnd a0 a1 a2 a3) = working a3 ) ∧
    (alive (sliceEnd a0 a1 a2 a3) = alive a3 ) ∧ (upState (sliceEnd a0 a1 a2 a3) = upState a3 ) ∧ (portOn (sliceEnd a0 a1 a2 a3) = portOn a3 ) ∧
    (∀ (e : Env), dieNo e (sliceEnd a0 a1 a2 a3) = dieNo e a3 ) ∧ (∀ (e : Env), nodeNo e (sliceEnd a0 a1 a2 a3) = nodeNo e a3 ) ∧ (∀ (e : Env) (c : Nat), coreId e (sliceEnd a0 a1 a2 a3) c = coreId e a3 c) ∧
    (∀ (e : Env) (c : Nat), unitId e (sliceEnd a0 a1 a2 a3) c = unitId e a3 c) ∧ (∀ (c : Nat), chan (sliceEnd a0 a1 a2 a3) c = chan a3 c) ∧ (∀ (x : Word), entOk (sliceEnd a0 a1 a2 a3) x = entOk a3 x) ∧
    (∀ (c : Nat), groupOf (sliceEnd a0 a1 a2 a3) c = groupOf a3 c) ∧ (∀ (c : Nat), probing (sliceEnd a0 a1 a2 a3) c = probing a3 c) ∧ (∀ (e : Env) (x : Word), presentCore e (sliceEnd a0 a1 a2 a3) x = presentCore e a3 x) := by
  have k := (sliceEnd_only a0 a1 a2 a3).keep
  exact ⟨k .free (by decide), k .sys (by decide), k .isl (by decide), k .time (by decide), k .regions (by decide), k .cells (by decide), k .hubc (by decide), k .res (by decide), k .xs (by decide), k .ens (by decide), k .casc (by decide), k .age (by decide), k .fab (by decide), k .sb (by decide), k .bc (by decide), k .jobs (by decide), k .mgt (by decide), k .cmd (by decide), k .prot (by decide), k .mem (by decide), k .dma (by decide), k .trc (by decide), k .nid (by decide), k .boot (by decide), k .img (by decide), k .reports (by decide), k .ram (by decide), k .nvm (by decide), fun c => cell_congr (k .cells (by decide)) c, fun c => hubc_congr (k .hubc (by decide)) c, fun c => region_congr (k .regions (by decide)) c, fun x => entity_congr (k .casc (by decide)) x, nowNs_congr (k .time (by decide)), imgOf_congr (k .img (by decide)), serving_congr (k .sys (by decide)), working_congr (k .sys (by decide)), alive_congr (k .sys (by decide)), upState_congr (k .sys (by decide)), portOn_congr (k .sys (by decide)), fun e  => dieNo_congr e (k .img (by decide)), fun e  => nodeNo_congr e (k .img (by decide)), fun e c => coreId_congr e (k .img (by decide)) c, fun e c => unitId_congr e (k .img (by decide)) c, fun c => chan_congr (k .cmd (by decide)) c, fun x => entOk_congr (k .img (by decide)) x, fun c => groupOf_congr (k .img (by decide)) (k .jobs (by decide)) c, fun c => probing_congr (k .age (by decide)) c, fun e x => presentCore_congr e (k .img (by decide)) x⟩

@[simp] theorem sealHeader_reads (a0 a1 a2 a3 a4) :
    (sealHeader a0 a1 a2 a3 a4).sys = a4.sys ∧ (sealHeader a0 a1 a2 a3 a4).isl = a4.isl ∧ (sealHeader a0 a1 a2 a3 a4).time = a4.time ∧
    (sealHeader a0 a1 a2 a3 a4).regions = a4.regions ∧ (sealHeader a0 a1 a2 a3 a4).cells = a4.cells ∧ (sealHeader a0 a1 a2 a3 a4).hubc = a4.hubc ∧
    (sealHeader a0 a1 a2 a3 a4).res = a4.res ∧ (sealHeader a0 a1 a2 a3 a4).xs = a4.xs ∧ (sealHeader a0 a1 a2 a3 a4).ens = a4.ens ∧
    (sealHeader a0 a1 a2 a3 a4).casc = a4.casc ∧ (sealHeader a0 a1 a2 a3 a4).age = a4.age ∧ (sealHeader a0 a1 a2 a3 a4).fab = a4.fab ∧
    (sealHeader a0 a1 a2 a3 a4).sb = a4.sb ∧ (sealHeader a0 a1 a2 a3 a4).bc = a4.bc ∧ (sealHeader a0 a1 a2 a3 a4).jobs = a4.jobs ∧
    (sealHeader a0 a1 a2 a3 a4).mgt = a4.mgt ∧ (sealHeader a0 a1 a2 a3 a4).cmd = a4.cmd ∧ (sealHeader a0 a1 a2 a3 a4).prot = a4.prot ∧
    (sealHeader a0 a1 a2 a3 a4).mem = a4.mem ∧ (sealHeader a0 a1 a2 a3 a4).dma = a4.dma ∧ (sealHeader a0 a1 a2 a3 a4).trc = a4.trc ∧
    (sealHeader a0 a1 a2 a3 a4).nid = a4.nid ∧ (sealHeader a0 a1 a2 a3 a4).boot = a4.boot ∧ (sealHeader a0 a1 a2 a3 a4).img = a4.img ∧
    (sealHeader a0 a1 a2 a3 a4).reports = a4.reports ∧ (sealHeader a0 a1 a2 a3 a4).posted = a4.posted ∧ (sealHeader a0 a1 a2 a3 a4).nvPosted = a4.nvPosted ∧
    (∀ (c : Nat), cell (sealHeader a0 a1 a2 a3 a4) c = cell a4 c) ∧ (∀ (c : Nat), Sys2Proof.Machine.hubc (sealHeader a0 a1 a2 a3 a4) c = Sys2Proof.Machine.hubc a4 c) ∧ (∀ (c : Nat), region (sealHeader a0 a1 a2 a3 a4) c = region a4 c) ∧
    (∀ (x : Word), entity (sealHeader a0 a1 a2 a3 a4) x = entity a4 x) ∧ (nowNs (sealHeader a0 a1 a2 a3 a4) = nowNs a4 ) ∧ (imgOf (sealHeader a0 a1 a2 a3 a4) = imgOf a4 ) ∧
    (serving (sealHeader a0 a1 a2 a3 a4) = serving a4 ) ∧ (working (sealHeader a0 a1 a2 a3 a4) = working a4 ) ∧ (alive (sealHeader a0 a1 a2 a3 a4) = alive a4 ) ∧
    (upState (sealHeader a0 a1 a2 a3 a4) = upState a4 ) ∧ (portOn (sealHeader a0 a1 a2 a3 a4) = portOn a4 ) ∧ (∀ (e : Env), dieNo e (sealHeader a0 a1 a2 a3 a4) = dieNo e a4 ) ∧
    (∀ (e : Env), nodeNo e (sealHeader a0 a1 a2 a3 a4) = nodeNo e a4 ) ∧ (∀ (e : Env) (c : Nat), coreId e (sealHeader a0 a1 a2 a3 a4) c = coreId e a4 c) ∧ (∀ (e : Env) (c : Nat), unitId e (sealHeader a0 a1 a2 a3 a4) c = unitId e a4 c) ∧
    (∀ (c : Nat), chan (sealHeader a0 a1 a2 a3 a4) c = chan a4 c) ∧ (∀ (x : Word), entOk (sealHeader a0 a1 a2 a3 a4) x = entOk a4 x) ∧ (∀ (c : Nat), groupOf (sealHeader a0 a1 a2 a3 a4) c = groupOf a4 c) ∧
    (∀ (c : Nat), probing (sealHeader a0 a1 a2 a3 a4) c = probing a4 c) ∧ (∀ (e : Env) (x : Word), presentCore e (sealHeader a0 a1 a2 a3 a4) x = presentCore e a4 x) := by
  have k := (sealHeader_only a0 a1 a2 a3 a4).keep
  exact ⟨k .sys (by decide), k .isl (by decide), k .time (by decide), k .regions (by decide), k .cells (by decide), k .hubc (by decide), k .res (by decide), k .xs (by decide), k .ens (by decide), k .casc (by decide), k .age (by decide), k .fab (by decide), k .sb (by decide), k .bc (by decide), k .jobs (by decide), k .mgt (by decide), k .cmd (by decide), k .prot (by decide), k .mem (by decide), k .dma (by decide), k .trc (by decide), k .nid (by decide), k .boot (by decide), k .img (by decide), k .reports (by decide), k .ram (by decide), k .nvm (by decide), fun c => cell_congr (k .cells (by decide)) c, fun c => hubc_congr (k .hubc (by decide)) c, fun c => region_congr (k .regions (by decide)) c, fun x => entity_congr (k .casc (by decide)) x, nowNs_congr (k .time (by decide)), imgOf_congr (k .img (by decide)), serving_congr (k .sys (by decide)), working_congr (k .sys (by decide)), alive_congr (k .sys (by decide)), upState_congr (k .sys (by decide)), portOn_congr (k .sys (by decide)), fun e  => dieNo_congr e (k .img (by decide)), fun e  => nodeNo_congr e (k .img (by decide)), fun e c => coreId_congr e (k .img (by decide)) c, fun e c => unitId_congr e (k .img (by decide)) c, fun c => chan_congr (k .cmd (by decide)) c, fun x => entOk_congr (k .img (by decide)) x, fun c => groupOf_congr (k .img (by decide)) (k .jobs (by decide)) c, fun c => probing_congr (k .age (by decide)) c, fun e x => presentCore_congr e (k .img (by decide)) x⟩

@[simp] theorem recallHeader_reads (a0 a1 a2 a3) :
    (recallHeader a0 a1 a2 a3).free = a3.free ∧ (recallHeader a0 a1 a2 a3).sys = a3.sys ∧ (recallHeader a0 a1 a2 a3).isl = a3.isl ∧
    (recallHeader a0 a1 a2 a3).time = a3.time ∧ (recallHeader a0 a1 a2 a3).regions = a3.regions ∧ (recallHeader a0 a1 a2 a3).cells = a3.cells ∧
    (recallHeader a0 a1 a2 a3).hubc = a3.hubc ∧ (recallHeader a0 a1 a2 a3).res = a3.res ∧ (recallHeader a0 a1 a2 a3).xs = a3.xs ∧
    (recallHeader a0 a1 a2 a3).ens = a3.ens ∧ (recallHeader a0 a1 a2 a3).casc = a3.casc ∧ (recallHeader a0 a1 a2 a3).age = a3.age ∧
    (recallHeader a0 a1 a2 a3).fab = a3.fab ∧ (recallHeader a0 a1 a2 a3).sb = a3.sb ∧ (recallHeader a0 a1 a2 a3).bc = a3.bc ∧
    (recallHeader a0 a1 a2 a3).jobs = a3.jobs ∧ (recallHeader a0 a1 a2 a3).mgt = a3.mgt ∧ (recallHeader a0 a1 a2 a3).cmd = a3.cmd ∧
    (recallHeader a0 a1 a2 a3).prot = a3.prot ∧ (recallHeader a0 a1 a2 a3).regs = a3.regs ∧ (recallHeader a0 a1 a2 a3).mem = a3.mem ∧
    (recallHeader a0 a1 a2 a3).dma = a3.dma ∧ (recallHeader a0 a1 a2 a3).trc = a3.trc ∧ (recallHeader a0 a1 a2 a3).nid = a3.nid ∧
    (recallHeader a0 a1 a2 a3).log = a3.log ∧ (recallHeader a0 a1 a2 a3).boot = a3.boot ∧ (recallHeader a0 a1 a2 a3).img = a3.img ∧
    (recallHeader a0 a1 a2 a3).reports = a3.reports ∧ (recallHeader a0 a1 a2 a3).posted = a3.posted ∧ (recallHeader a0 a1 a2 a3).nvPosted = a3.nvPosted ∧
    (∀ (c : Nat), cell (recallHeader a0 a1 a2 a3) c = cell a3 c) ∧ (∀ (c : Nat), Sys2Proof.Machine.hubc (recallHeader a0 a1 a2 a3) c = Sys2Proof.Machine.hubc a3 c) ∧ (∀ (c : Nat), region (recallHeader a0 a1 a2 a3) c = region a3 c) ∧
    (∀ (x : Word), entity (recallHeader a0 a1 a2 a3) x = entity a3 x) ∧ (nowNs (recallHeader a0 a1 a2 a3) = nowNs a3 ) ∧ (imgOf (recallHeader a0 a1 a2 a3) = imgOf a3 ) ∧
    (serving (recallHeader a0 a1 a2 a3) = serving a3 ) ∧ (working (recallHeader a0 a1 a2 a3) = working a3 ) ∧ (alive (recallHeader a0 a1 a2 a3) = alive a3 ) ∧
    (upState (recallHeader a0 a1 a2 a3) = upState a3 ) ∧ (portOn (recallHeader a0 a1 a2 a3) = portOn a3 ) ∧ (∀ (e : Env), dieNo e (recallHeader a0 a1 a2 a3) = dieNo e a3 ) ∧
    (∀ (e : Env), nodeNo e (recallHeader a0 a1 a2 a3) = nodeNo e a3 ) ∧ (∀ (e : Env) (c : Nat), coreId e (recallHeader a0 a1 a2 a3) c = coreId e a3 c) ∧ (∀ (e : Env) (c : Nat), unitId e (recallHeader a0 a1 a2 a3) c = unitId e a3 c) ∧
    (∀ (c : Nat), chan (recallHeader a0 a1 a2 a3) c = chan a3 c) ∧ (∀ (x : Word), entOk (recallHeader a0 a1 a2 a3) x = entOk a3 x) ∧ (∀ (c : Nat), groupOf (recallHeader a0 a1 a2 a3) c = groupOf a3 c) ∧
    (∀ (c : Nat), probing (recallHeader a0 a1 a2 a3) c = probing a3 c) ∧ (∀ (e : Env) (x : Word), presentCore e (recallHeader a0 a1 a2 a3) x = presentCore e a3 x) := by
  have k := (recallHeader_only a0 a1 a2 a3).keep
  exact ⟨k .free (by decide), k .sys (by decide), k .isl (by decide), k .time (by decide), k .regions (by decide), k .cells (by decide), k .hubc (by decide), k .res (by decide), k .xs (by decide), k .ens (by decide), k .casc (by decide), k .age (by decide), k .fab (by decide), k .sb (by decide), k .bc (by decide), k .jobs (by decide), k .mgt (by decide), k .cmd (by decide), k .prot (by decide), k .regs (by decide), k .mem (by decide), k .dma (by decide), k .trc (by decide), k .nid (by decide), k .log (by decide), k .boot (by decide), k .img (by decide), k .reports (by decide), k .ram (by decide), k .nvm (by decide), fun c => cell_congr (k .cells (by decide)) c, fun c => hubc_congr (k .hubc (by decide)) c, fun c => region_congr (k .regions (by decide)) c, fun x => entity_congr (k .casc (by decide)) x, nowNs_congr (k .time (by decide)), imgOf_congr (k .img (by decide)), serving_congr (k .sys (by decide)), working_congr (k .sys (by decide)), alive_congr (k .sys (by decide)), upState_congr (k .sys (by decide)), portOn_congr (k .sys (by decide)), fun e  => dieNo_congr e (k .img (by decide)), fun e  => nodeNo_congr e (k .img (by decide)), fun e c => coreId_congr e (k .img (by decide)) c, fun e c => unitId_congr e (k .img (by decide)) c, fun c => chan_congr (k .cmd (by decide)) c, fun x => entOk_congr (k .img (by decide)) x, fun c => groupOf_congr (k .img (by decide)) (k .jobs (by decide)) c, fun c => probing_congr (k .age (by decide)) c, fun e x => presentCore_congr e (k .img (by decide)) x⟩

@[simp] theorem stashEnd_reads (a0 a1 a2 a3) :
    (stashEnd a0 a1 a2 a3).free = a3.free ∧ (stashEnd a0 a1 a2 a3).sys = a3.sys ∧ (stashEnd a0 a1 a2 a3).isl = a3.isl ∧
    (stashEnd a0 a1 a2 a3).time = a3.time ∧ (stashEnd a0 a1 a2 a3).regions = a3.regions ∧ (stashEnd a0 a1 a2 a3).cells = a3.cells ∧
    (stashEnd a0 a1 a2 a3).hubc = a3.hubc ∧ (stashEnd a0 a1 a2 a3).res = a3.res ∧ (stashEnd a0 a1 a2 a3).xs = a3.xs ∧
    (stashEnd a0 a1 a2 a3).ens = a3.ens ∧ (stashEnd a0 a1 a2 a3).casc = a3.casc ∧ (stashEnd a0 a1 a2 a3).age = a3.age ∧
    (stashEnd a0 a1 a2 a3).fab = a3.fab ∧ (stashEnd a0 a1 a2 a3).sb = a3.sb ∧ (stashEnd a0 a1 a2 a3).bc = a3.bc ∧
    (stashEnd a0 a1 a2 a3).jobs = a3.jobs ∧ (stashEnd a0 a1 a2 a3).mgt = a3.mgt ∧ (stashEnd a0 a1 a2 a3).cmd = a3.cmd ∧
    (stashEnd a0 a1 a2 a3).prot = a3.prot ∧ (stashEnd a0 a1 a2 a3).mem = a3.mem ∧ (stashEnd a0 a1 a2 a3).dma = a3.dma ∧
    (stashEnd a0 a1 a2 a3).trc = a3.trc ∧ (stashEnd a0 a1 a2 a3).nid = a3.nid ∧ (stashEnd a0 a1 a2 a3).boot = a3.boot ∧
    (stashEnd a0 a1 a2 a3).img = a3.img ∧ (stashEnd a0 a1 a2 a3).reports = a3.reports ∧ (stashEnd a0 a1 a2 a3).posted = a3.posted ∧
    (stashEnd a0 a1 a2 a3).nvPosted = a3.nvPosted ∧ (∀ (c : Nat), cell (stashEnd a0 a1 a2 a3) c = cell a3 c) ∧ (∀ (c : Nat), Sys2Proof.Machine.hubc (stashEnd a0 a1 a2 a3) c = Sys2Proof.Machine.hubc a3 c) ∧
    (∀ (c : Nat), region (stashEnd a0 a1 a2 a3) c = region a3 c) ∧ (∀ (x : Word), entity (stashEnd a0 a1 a2 a3) x = entity a3 x) ∧ (nowNs (stashEnd a0 a1 a2 a3) = nowNs a3 ) ∧
    (imgOf (stashEnd a0 a1 a2 a3) = imgOf a3 ) ∧ (serving (stashEnd a0 a1 a2 a3) = serving a3 ) ∧ (working (stashEnd a0 a1 a2 a3) = working a3 ) ∧
    (alive (stashEnd a0 a1 a2 a3) = alive a3 ) ∧ (upState (stashEnd a0 a1 a2 a3) = upState a3 ) ∧ (portOn (stashEnd a0 a1 a2 a3) = portOn a3 ) ∧
    (∀ (e : Env), dieNo e (stashEnd a0 a1 a2 a3) = dieNo e a3 ) ∧ (∀ (e : Env), nodeNo e (stashEnd a0 a1 a2 a3) = nodeNo e a3 ) ∧ (∀ (e : Env) (c : Nat), coreId e (stashEnd a0 a1 a2 a3) c = coreId e a3 c) ∧
    (∀ (e : Env) (c : Nat), unitId e (stashEnd a0 a1 a2 a3) c = unitId e a3 c) ∧ (∀ (c : Nat), chan (stashEnd a0 a1 a2 a3) c = chan a3 c) ∧ (∀ (x : Word), entOk (stashEnd a0 a1 a2 a3) x = entOk a3 x) ∧
    (∀ (c : Nat), groupOf (stashEnd a0 a1 a2 a3) c = groupOf a3 c) ∧ (∀ (c : Nat), probing (stashEnd a0 a1 a2 a3) c = probing a3 c) ∧ (∀ (e : Env) (x : Word), presentCore e (stashEnd a0 a1 a2 a3) x = presentCore e a3 x) := by
  have k := (stashEnd_only a0 a1 a2 a3).keep
  exact ⟨k .free (by decide), k .sys (by decide), k .isl (by decide), k .time (by decide), k .regions (by decide), k .cells (by decide), k .hubc (by decide), k .res (by decide), k .xs (by decide), k .ens (by decide), k .casc (by decide), k .age (by decide), k .fab (by decide), k .sb (by decide), k .bc (by decide), k .jobs (by decide), k .mgt (by decide), k .cmd (by decide), k .prot (by decide), k .mem (by decide), k .dma (by decide), k .trc (by decide), k .nid (by decide), k .boot (by decide), k .img (by decide), k .reports (by decide), k .ram (by decide), k .nvm (by decide), fun c => cell_congr (k .cells (by decide)) c, fun c => hubc_congr (k .hubc (by decide)) c, fun c => region_congr (k .regions (by decide)) c, fun x => entity_congr (k .casc (by decide)) x, nowNs_congr (k .time (by decide)), imgOf_congr (k .img (by decide)), serving_congr (k .sys (by decide)), working_congr (k .sys (by decide)), alive_congr (k .sys (by decide)), upState_congr (k .sys (by decide)), portOn_congr (k .sys (by decide)), fun e  => dieNo_congr e (k .img (by decide)), fun e  => nodeNo_congr e (k .img (by decide)), fun e c => coreId_congr e (k .img (by decide)) c, fun e c => unitId_congr e (k .img (by decide)) c, fun c => chan_congr (k .cmd (by decide)) c, fun x => entOk_congr (k .img (by decide)) x, fun c => groupOf_congr (k .img (by decide)) (k .jobs (by decide)) c, fun c => probing_congr (k .age (by decide)) c, fun e x => presentCore_congr e (k .img (by decide)) x⟩

@[simp] theorem digRecord_reads (a0 a1 a2 a3 a4 a5 a6 a7 a8 a9 a10 a11 a12) :
    (digRecord a0 a1 a2 a3 a4 a5 a6 a7 a8 a9 a10 a11 a12).free = a12.free ∧ (digRecord a0 a1 a2 a3 a4 a5 a6 a7 a8 a9 a10 a11 a12).sys = a12.sys ∧ (digRecord a0 a1 a2 a3 a4 a5 a6 a7 a8 a9 a10 a11 a12).isl = a12.isl ∧
    (digRecord a0 a1 a2 a3 a4 a5 a6 a7 a8 a9 a10 a11 a12).time = a12.time ∧ (digRecord a0 a1 a2 a3 a4 a5 a6 a7 a8 a9 a10 a11 a12).regions = a12.regions ∧ (digRecord a0 a1 a2 a3 a4 a5 a6 a7 a8 a9 a10 a11 a12).cells = a12.cells ∧
    (digRecord a0 a1 a2 a3 a4 a5 a6 a7 a8 a9 a10 a11 a12).hubc = a12.hubc ∧ (digRecord a0 a1 a2 a3 a4 a5 a6 a7 a8 a9 a10 a11 a12).res = a12.res ∧ (digRecord a0 a1 a2 a3 a4 a5 a6 a7 a8 a9 a10 a11 a12).dig = a12.dig ∧
    (digRecord a0 a1 a2 a3 a4 a5 a6 a7 a8 a9 a10 a11 a12).xs = a12.xs ∧ (digRecord a0 a1 a2 a3 a4 a5 a6 a7 a8 a9 a10 a11 a12).ens = a12.ens ∧ (digRecord a0 a1 a2 a3 a4 a5 a6 a7 a8 a9 a10 a11 a12).casc = a12.casc ∧
    (digRecord a0 a1 a2 a3 a4 a5 a6 a7 a8 a9 a10 a11 a12).age = a12.age ∧ (digRecord a0 a1 a2 a3 a4 a5 a6 a7 a8 a9 a10 a11 a12).fab = a12.fab ∧ (digRecord a0 a1 a2 a3 a4 a5 a6 a7 a8 a9 a10 a11 a12).sb = a12.sb ∧
    (digRecord a0 a1 a2 a3 a4 a5 a6 a7 a8 a9 a10 a11 a12).bc = a12.bc ∧ (digRecord a0 a1 a2 a3 a4 a5 a6 a7 a8 a9 a10 a11 a12).jobs = a12.jobs ∧ (digRecord a0 a1 a2 a3 a4 a5 a6 a7 a8 a9 a10 a11 a12).mgt = a12.mgt ∧
    (digRecord a0 a1 a2 a3 a4 a5 a6 a7 a8 a9 a10 a11 a12).cmd = a12.cmd ∧ (digRecord a0 a1 a2 a3 a4 a5 a6 a7 a8 a9 a10 a11 a12).prot = a12.prot ∧ (digRecord a0 a1 a2 a3 a4 a5 a6 a7 a8 a9 a10 a11 a12).mem = a12.mem ∧
    (digRecord a0 a1 a2 a3 a4 a5 a6 a7 a8 a9 a10 a11 a12).dma = a12.dma ∧ (digRecord a0 a1 a2 a3 a4 a5 a6 a7 a8 a9 a10 a11 a12).trc = a12.trc ∧ (digRecord a0 a1 a2 a3 a4 a5 a6 a7 a8 a9 a10 a11 a12).nid = a12.nid ∧
    (digRecord a0 a1 a2 a3 a4 a5 a6 a7 a8 a9 a10 a11 a12).boot = a12.boot ∧ (digRecord a0 a1 a2 a3 a4 a5 a6 a7 a8 a9 a10 a11 a12).img = a12.img ∧ (digRecord a0 a1 a2 a3 a4 a5 a6 a7 a8 a9 a10 a11 a12).reports = a12.reports ∧
    (digRecord a0 a1 a2 a3 a4 a5 a6 a7 a8 a9 a10 a11 a12).posted = a12.posted ∧ (digRecord a0 a1 a2 a3 a4 a5 a6 a7 a8 a9 a10 a11 a12).nvPosted = a12.nvPosted ∧ (∀ (c : Nat), cell (digRecord a0 a1 a2 a3 a4 a5 a6 a7 a8 a9 a10 a11 a12) c = cell a12 c) ∧
    (∀ (c : Nat), Sys2Proof.Machine.hubc (digRecord a0 a1 a2 a3 a4 a5 a6 a7 a8 a9 a10 a11 a12) c = Sys2Proof.Machine.hubc a12 c) ∧ (∀ (c : Nat), region (digRecord a0 a1 a2 a3 a4 a5 a6 a7 a8 a9 a10 a11 a12) c = region a12 c) ∧ (∀ (x : Word), entity (digRecord a0 a1 a2 a3 a4 a5 a6 a7 a8 a9 a10 a11 a12) x = entity a12 x) ∧
    (nowNs (digRecord a0 a1 a2 a3 a4 a5 a6 a7 a8 a9 a10 a11 a12) = nowNs a12 ) ∧ (imgOf (digRecord a0 a1 a2 a3 a4 a5 a6 a7 a8 a9 a10 a11 a12) = imgOf a12 ) ∧ (serving (digRecord a0 a1 a2 a3 a4 a5 a6 a7 a8 a9 a10 a11 a12) = serving a12 ) ∧
    (working (digRecord a0 a1 a2 a3 a4 a5 a6 a7 a8 a9 a10 a11 a12) = working a12 ) ∧ (alive (digRecord a0 a1 a2 a3 a4 a5 a6 a7 a8 a9 a10 a11 a12) = alive a12 ) ∧ (upState (digRecord a0 a1 a2 a3 a4 a5 a6 a7 a8 a9 a10 a11 a12) = upState a12 ) ∧
    (portOn (digRecord a0 a1 a2 a3 a4 a5 a6 a7 a8 a9 a10 a11 a12) = portOn a12 ) ∧ (∀ (e : Env), dieNo e (digRecord a0 a1 a2 a3 a4 a5 a6 a7 a8 a9 a10 a11 a12) = dieNo e a12 ) ∧ (∀ (e : Env), nodeNo e (digRecord a0 a1 a2 a3 a4 a5 a6 a7 a8 a9 a10 a11 a12) = nodeNo e a12 ) ∧
    (∀ (e : Env) (c : Nat), coreId e (digRecord a0 a1 a2 a3 a4 a5 a6 a7 a8 a9 a10 a11 a12) c = coreId e a12 c) ∧ (∀ (e : Env) (c : Nat), unitId e (digRecord a0 a1 a2 a3 a4 a5 a6 a7 a8 a9 a10 a11 a12) c = unitId e a12 c) ∧ (∀ (c : Nat), chan (digRecord a0 a1 a2 a3 a4 a5 a6 a7 a8 a9 a10 a11 a12) c = chan a12 c) ∧
    (∀ (x : Word), entOk (digRecord a0 a1 a2 a3 a4 a5 a6 a7 a8 a9 a10 a11 a12) x = entOk a12 x) ∧ (∀ (c : Nat), groupOf (digRecord a0 a1 a2 a3 a4 a5 a6 a7 a8 a9 a10 a11 a12) c = groupOf a12 c) ∧ (∀ (c : Nat), probing (digRecord a0 a1 a2 a3 a4 a5 a6 a7 a8 a9 a10 a11 a12) c = probing a12 c) ∧
    (∀ (e : Env) (x : Word), presentCore e (digRecord a0 a1 a2 a3 a4 a5 a6 a7 a8 a9 a10 a11 a12) x = presentCore e a12 x) := by
  have k := (digRecord_only a0 a1 a2 a3 a4 a5 a6 a7 a8 a9 a10 a11 a12).keep
  exact ⟨k .free (by decide), k .sys (by decide), k .isl (by decide), k .time (by decide), k .regions (by decide), k .cells (by decide), k .hubc (by decide), k .res (by decide), k .dig (by decide), k .xs (by decide), k .ens (by decide), k .casc (by decide), k .age (by decide), k .fab (by decide), k .sb (by decide), k .bc (by decide), k .jobs (by decide), k .mgt (by decide), k .cmd (by decide), k .prot (by decide), k .mem (by decide), k .dma (by decide), k .trc (by decide), k .nid (by decide), k .boot (by decide), k .img (by decide), k .reports (by decide), k .ram (by decide), k .nvm (by decide), fun c => cell_congr (k .cells (by decide)) c, fun c => hubc_congr (k .hubc (by decide)) c, fun c => region_congr (k .regions (by decide)) c, fun x => entity_congr (k .casc (by decide)) x, nowNs_congr (k .time (by decide)), imgOf_congr (k .img (by decide)), serving_congr (k .sys (by decide)), working_congr (k .sys (by decide)), alive_congr (k .sys (by decide)), upState_congr (k .sys (by decide)), portOn_congr (k .sys (by decide)), fun e  => dieNo_congr e (k .img (by decide)), fun e  => nodeNo_congr e (k .img (by decide)), fun e c => coreId_congr e (k .img (by decide)) c, fun e c => unitId_congr e (k .img (by decide)) c, fun c => chan_congr (k .cmd (by decide)) c, fun x => entOk_congr (k .img (by decide)) x, fun c => groupOf_congr (k .img (by decide)) (k .jobs (by decide)) c, fun c => probing_congr (k .age (by decide)) c, fun e x => presentCore_congr e (k .img (by decide)) x⟩

@[simp] theorem dropRound_reads (a0 a1 a2 a3) :
    (dropRound a0 a1 a2 a3).free = a3.free ∧ (dropRound a0 a1 a2 a3).sys = a3.sys ∧ (dropRound a0 a1 a2 a3).isl = a3.isl ∧
    (dropRound a0 a1 a2 a3).time = a3.time ∧ (dropRound a0 a1 a2 a3).regions = a3.regions ∧ (dropRound a0 a1 a2 a3).cells = a3.cells ∧
    (dropRound a0 a1 a2 a3).hubc = a3.hubc ∧ (dropRound a0 a1 a2 a3).res = a3.res ∧ (dropRound a0 a1 a2 a3).dig = a3.dig ∧
    (dropRound a0 a1 a2 a3).ens = a3.ens ∧ (dropRound a0 a1 a2 a3).casc = a3.casc ∧ (dropRound a0 a1 a2 a3).age = a3.age ∧
    (dropRound a0 a1 a2 a3).fab = a3.fab ∧ (dropRound a0 a1 a2 a3).sb = a3.sb ∧ (dropRound a0 a1 a2 a3).bc = a3.bc ∧
    (dropRound a0 a1 a2 a3).jobs = a3.jobs ∧ (dropRound a0 a1 a2 a3).mgt = a3.mgt ∧ (dropRound a0 a1 a2 a3).cmd = a3.cmd ∧
    (dropRound a0 a1 a2 a3).prot = a3.prot ∧ (dropRound a0 a1 a2 a3).regs = a3.regs ∧ (dropRound a0 a1 a2 a3).mem = a3.mem ∧
    (dropRound a0 a1 a2 a3).dma = a3.dma ∧ (dropRound a0 a1 a2 a3).trc = a3.trc ∧ (dropRound a0 a1 a2 a3).nid = a3.nid ∧
    (dropRound a0 a1 a2 a3).log = a3.log ∧ (dropRound a0 a1 a2 a3).boot = a3.boot ∧ (dropRound a0 a1 a2 a3).img = a3.img ∧
    (dropRound a0 a1 a2 a3).reports = a3.reports ∧ (dropRound a0 a1 a2 a3).posted = a3.posted ∧ (dropRound a0 a1 a2 a3).nvPosted = a3.nvPosted ∧
    (∀ (c : Nat), cell (dropRound a0 a1 a2 a3) c = cell a3 c) ∧ (∀ (c : Nat), Sys2Proof.Machine.hubc (dropRound a0 a1 a2 a3) c = Sys2Proof.Machine.hubc a3 c) ∧ (∀ (c : Nat), region (dropRound a0 a1 a2 a3) c = region a3 c) ∧
    (∀ (x : Word), entity (dropRound a0 a1 a2 a3) x = entity a3 x) ∧ (nowNs (dropRound a0 a1 a2 a3) = nowNs a3 ) ∧ (imgOf (dropRound a0 a1 a2 a3) = imgOf a3 ) ∧
    (serving (dropRound a0 a1 a2 a3) = serving a3 ) ∧ (working (dropRound a0 a1 a2 a3) = working a3 ) ∧ (alive (dropRound a0 a1 a2 a3) = alive a3 ) ∧
    (upState (dropRound a0 a1 a2 a3) = upState a3 ) ∧ (portOn (dropRound a0 a1 a2 a3) = portOn a3 ) ∧ (∀ (e : Env), dieNo e (dropRound a0 a1 a2 a3) = dieNo e a3 ) ∧
    (∀ (e : Env), nodeNo e (dropRound a0 a1 a2 a3) = nodeNo e a3 ) ∧ (∀ (e : Env) (c : Nat), coreId e (dropRound a0 a1 a2 a3) c = coreId e a3 c) ∧ (∀ (e : Env) (c : Nat), unitId e (dropRound a0 a1 a2 a3) c = unitId e a3 c) ∧
    (∀ (c : Nat), chan (dropRound a0 a1 a2 a3) c = chan a3 c) ∧ (∀ (x : Word), entOk (dropRound a0 a1 a2 a3) x = entOk a3 x) ∧ (∀ (c : Nat), groupOf (dropRound a0 a1 a2 a3) c = groupOf a3 c) ∧
    (∀ (c : Nat), probing (dropRound a0 a1 a2 a3) c = probing a3 c) ∧ (∀ (e : Env) (x : Word), presentCore e (dropRound a0 a1 a2 a3) x = presentCore e a3 x) := by
  have k := (dropRound_only a0 a1 a2 a3).keep
  exact ⟨k .free (by decide), k .sys (by decide), k .isl (by decide), k .time (by decide), k .regions (by decide), k .cells (by decide), k .hubc (by decide), k .res (by decide), k .dig (by decide), k .ens (by decide), k .casc (by decide), k .age (by decide), k .fab (by decide), k .sb (by decide), k .bc (by decide), k .jobs (by decide), k .mgt (by decide), k .cmd (by decide), k .prot (by decide), k .regs (by decide), k .mem (by decide), k .dma (by decide), k .trc (by decide), k .nid (by decide), k .log (by decide), k .boot (by decide), k .img (by decide), k .reports (by decide), k .ram (by decide), k .nvm (by decide), fun c => cell_congr (k .cells (by decide)) c, fun c => hubc_congr (k .hubc (by decide)) c, fun c => region_congr (k .regions (by decide)) c, fun x => entity_congr (k .casc (by decide)) x, nowNs_congr (k .time (by decide)), imgOf_congr (k .img (by decide)), serving_congr (k .sys (by decide)), working_congr (k .sys (by decide)), alive_congr (k .sys (by decide)), upState_congr (k .sys (by decide)), portOn_congr (k .sys (by decide)), fun e  => dieNo_congr e (k .img (by decide)), fun e  => nodeNo_congr e (k .img (by decide)), fun e c => coreId_congr e (k .img (by decide)) c, fun e c => unitId_congr e (k .img (by decide)) c, fun c => chan_congr (k .cmd (by decide)) c, fun x => entOk_congr (k .img (by decide)) x, fun c => groupOf_congr (k .img (by decide)) (k .jobs (by decide)) c, fun c => probing_congr (k .age (by decide)) c, fun e x => presentCore_congr e (k .img (by decide)) x⟩

@[simp] theorem dropHalves_reads (a0 a1) :
    (dropHalves a0 a1).free = a1.free ∧ (dropHalves a0 a1).sys = a1.sys ∧ (dropHalves a0 a1).isl = a1.isl ∧
    (dropHalves a0 a1).time = a1.time ∧ (dropHalves a0 a1).regions = a1.regions ∧ (dropHalves a0 a1).cells = a1.cells ∧
    (dropHalves a0 a1).hubc = a1.hubc ∧ (dropHalves a0 a1).res = a1.res ∧ (dropHalves a0 a1).dig = a1.dig ∧
    (dropHalves a0 a1).xs = a1.xs ∧ (dropHalves a0 a1).ens = a1.ens ∧ (dropHalves a0 a1).age = a1.age ∧
    (dropHalves a0 a1).fab = a1.fab ∧ (dropHalves a0 a1).sb = a1.sb ∧ (dropHalves a0 a1).bc = a1.bc ∧
    (dropHalves a0 a1).jobs = a1.jobs ∧ (dropHalves a0 a1).mgt = a1.mgt ∧ (dropHalves a0 a1).cmd = a1.cmd ∧
    (dropHalves a0 a1).prot = a1.prot ∧ (dropHalves a0 a1).regs = a1.regs ∧ (dropHalves a0 a1).mem = a1.mem ∧
    (dropHalves a0 a1).dma = a1.dma ∧ (dropHalves a0 a1).trc = a1.trc ∧ (dropHalves a0 a1).nid = a1.nid ∧
    (dropHalves a0 a1).log = a1.log ∧ (dropHalves a0 a1).boot = a1.boot ∧ (dropHalves a0 a1).img = a1.img ∧
    (dropHalves a0 a1).reports = a1.reports ∧ (dropHalves a0 a1).posted = a1.posted ∧ (dropHalves a0 a1).nvPosted = a1.nvPosted ∧
    (∀ (c : Nat), cell (dropHalves a0 a1) c = cell a1 c) ∧ (∀ (c : Nat), Sys2Proof.Machine.hubc (dropHalves a0 a1) c = Sys2Proof.Machine.hubc a1 c) ∧ (∀ (c : Nat), region (dropHalves a0 a1) c = region a1 c) ∧
    (nowNs (dropHalves a0 a1) = nowNs a1 ) ∧ (imgOf (dropHalves a0 a1) = imgOf a1 ) ∧ (serving (dropHalves a0 a1) = serving a1 ) ∧
    (working (dropHalves a0 a1) = working a1 ) ∧ (alive (dropHalves a0 a1) = alive a1 ) ∧ (upState (dropHalves a0 a1) = upState a1 ) ∧
    (portOn (dropHalves a0 a1) = portOn a1 ) ∧ (∀ (e : Env), dieNo e (dropHalves a0 a1) = dieNo e a1 ) ∧ (∀ (e : Env), nodeNo e (dropHalves a0 a1) = nodeNo e a1 ) ∧
    (∀ (e : Env) (c : Nat), coreId e (dropHalves a0 a1) c = coreId e a1 c) ∧ (∀ (e : Env) (c : Nat), unitId e (dropHalves a0 a1) c = unitId e a1 c) ∧ (∀ (c : Nat), chan (dropHalves a0 a1) c = chan a1 c) ∧
    (∀ (x : Word), entOk (dropHalves a0 a1) x = entOk a1 x) ∧ (∀ (c : Nat), groupOf (dropHalves a0 a1) c = groupOf a1 c) ∧ (∀ (c : Nat), probing (dropHalves a0 a1) c = probing a1 c) ∧
    (∀ (e : Env) (x : Word), presentCore e (dropHalves a0 a1) x = presentCore e a1 x) := by
  have k := (dropHalves_only a0 a1).keep
  exact ⟨k .free (by decide), k .sys (by decide), k .isl (by decide), k .time (by decide), k .regions (by decide), k .cells (by decide), k .hubc (by decide), k .res (by decide), k .dig (by decide), k .xs (by decide), k .ens (by decide), k .age (by decide), k .fab (by decide), k .sb (by decide), k .bc (by decide), k .jobs (by decide), k .mgt (by decide), k .cmd (by decide), k .prot (by decide), k .regs (by decide), k .mem (by decide), k .dma (by decide), k .trc (by decide), k .nid (by decide), k .log (by decide), k .boot (by decide), k .img (by decide), k .reports (by decide), k .ram (by decide), k .nvm (by decide), fun c => cell_congr (k .cells (by decide)) c, fun c => hubc_congr (k .hubc (by decide)) c, fun c => region_congr (k .regions (by decide)) c, nowNs_congr (k .time (by decide)), imgOf_congr (k .img (by decide)), serving_congr (k .sys (by decide)), working_congr (k .sys (by decide)), alive_congr (k .sys (by decide)), upState_congr (k .sys (by decide)), portOn_congr (k .sys (by decide)), fun e  => dieNo_congr e (k .img (by decide)), fun e  => nodeNo_congr e (k .img (by decide)), fun e c => coreId_congr e (k .img (by decide)) c, fun e c => unitId_congr e (k .img (by decide)) c, fun c => chan_congr (k .cmd (by decide)) c, fun x => entOk_congr (k .img (by decide)) x, fun c => groupOf_congr (k .img (by decide)) (k .jobs (by decide)) c, fun c => probing_congr (k .age (by decide)) c, fun e x => presentCore_congr e (k .img (by decide)) x⟩

@[simp] theorem digOutcome_reads (a0 a1 a2 a3) :
    (digOutcome a0 a1 a2 a3).free = a3.free ∧ (digOutcome a0 a1 a2 a3).sys = a3.sys ∧ (digOutcome a0 a1 a2 a3).isl = a3.isl ∧
    (digOutcome a0 a1 a2 a3).time = a3.time ∧ (digOutcome a0 a1 a2 a3).hubc = a3.hubc ∧ (digOutcome a0 a1 a2 a3).res = a3.res ∧
    (digOutcome a0 a1 a2 a3).dig = a3.dig ∧ (digOutcome a0 a1 a2 a3).xs = a3.xs ∧ (digOutcome a0 a1 a2 a3).fab = a3.fab ∧
    (digOutcome a0 a1 a2 a3).sb = a3.sb ∧ (digOutcome a0 a1 a2 a3).bc = a3.bc ∧ (digOutcome a0 a1 a2 a3).jobs = a3.jobs ∧
    (digOutcome a0 a1 a2 a3).mgt = a3.mgt ∧ (digOutcome a0 a1 a2 a3).cmd = a3.cmd ∧ (digOutcome a0 a1 a2 a3).prot = a3.prot ∧
    (digOutcome a0 a1 a2 a3).dma = a3.dma ∧ (digOutcome a0 a1 a2 a3).nid = a3.nid ∧ (digOutcome a0 a1 a2 a3).boot = a3.boot ∧
    (digOutcome a0 a1 a2 a3).img = a3.img ∧ (digOutcome a0 a1 a2 a3).reports = a3.reports ∧ (digOutcome a0 a1 a2 a3).posted = a3.posted ∧
    (digOutcome a0 a1 a2 a3).nvPosted = a3.nvPosted ∧ (∀ (c : Nat), Sys2Proof.Machine.hubc (digOutcome a0 a1 a2 a3) c = Sys2Proof.Machine.hubc a3 c) ∧ (nowNs (digOutcome a0 a1 a2 a3) = nowNs a3 ) ∧
    (imgOf (digOutcome a0 a1 a2 a3) = imgOf a3 ) ∧ (serving (digOutcome a0 a1 a2 a3) = serving a3 ) ∧ (working (digOutcome a0 a1 a2 a3) = working a3 ) ∧
    (alive (digOutcome a0 a1 a2 a3) = alive a3 ) ∧ (upState (digOutcome a0 a1 a2 a3) = upState a3 ) ∧ (portOn (digOutcome a0 a1 a2 a3) = portOn a3 ) ∧
    (∀ (e : Env), dieNo e (digOutcome a0 a1 a2 a3) = dieNo e a3 ) ∧ (∀ (e : Env), nodeNo e (digOutcome a0 a1 a2 a3) = nodeNo e a3 ) ∧ (∀ (e : Env) (c : Nat), coreId e (digOutcome a0 a1 a2 a3) c = coreId e a3 c) ∧
    (∀ (e : Env) (c : Nat), unitId e (digOutcome a0 a1 a2 a3) c = unitId e a3 c) ∧ (∀ (c : Nat), chan (digOutcome a0 a1 a2 a3) c = chan a3 c) ∧ (∀ (x : Word), entOk (digOutcome a0 a1 a2 a3) x = entOk a3 x) ∧
    (∀ (c : Nat), groupOf (digOutcome a0 a1 a2 a3) c = groupOf a3 c) ∧ (∀ (e : Env) (x : Word), presentCore e (digOutcome a0 a1 a2 a3) x = presentCore e a3 x) := by
  have k := (digOutcome_only a0 a1 a2 a3).keep
  exact ⟨k .free (by decide), k .sys (by decide), k .isl (by decide), k .time (by decide), k .hubc (by decide), k .res (by decide), k .dig (by decide), k .xs (by decide), k .fab (by decide), k .sb (by decide), k .bc (by decide), k .jobs (by decide), k .mgt (by decide), k .cmd (by decide), k .prot (by decide), k .dma (by decide), k .nid (by decide), k .boot (by decide), k .img (by decide), k .reports (by decide), k .ram (by decide), k .nvm (by decide), fun c => hubc_congr (k .hubc (by decide)) c, nowNs_congr (k .time (by decide)), imgOf_congr (k .img (by decide)), serving_congr (k .sys (by decide)), working_congr (k .sys (by decide)), alive_congr (k .sys (by decide)), upState_congr (k .sys (by decide)), portOn_congr (k .sys (by decide)), fun e  => dieNo_congr e (k .img (by decide)), fun e  => nodeNo_congr e (k .img (by decide)), fun e c => coreId_congr e (k .img (by decide)) c, fun e c => unitId_congr e (k .img (by decide)) c, fun c => chan_congr (k .cmd (by decide)) c, fun x => entOk_congr (k .img (by decide)) x, fun c => groupOf_congr (k .img (by decide)) (k .jobs (by decide)) c, fun e x => presentCore_congr e (k .img (by decide)) x⟩

@[simp] theorem histDie_reads (a0 a1 a2 a3) :
    (histDie a0 a1 a2 a3).free = a3.free ∧ (histDie a0 a1 a2 a3).sys = a3.sys ∧ (histDie a0 a1 a2 a3).isl = a3.isl ∧
    (histDie a0 a1 a2 a3).time = a3.time ∧ (histDie a0 a1 a2 a3).regions = a3.regions ∧ (histDie a0 a1 a2 a3).cells = a3.cells ∧
    (histDie a0 a1 a2 a3).hubc = a3.hubc ∧ (histDie a0 a1 a2 a3).res = a3.res ∧ (histDie a0 a1 a2 a3).dig = a3.dig ∧
    (histDie a0 a1 a2 a3).xs = a3.xs ∧ (histDie a0 a1 a2 a3).ens = a3.ens ∧ (histDie a0 a1 a2 a3).casc = a3.casc ∧
    (histDie a0 a1 a2 a3).fab = a3.fab ∧ (histDie a0 a1 a2 a3).sb = a3.sb ∧ (histDie a0 a1 a2 a3).bc = a3.bc ∧
    (histDie a0 a1 a2 a3).jobs = a3.jobs ∧ (histDie a0 a1 a2 a3).mgt = a3.mgt ∧ (histDie a0 a1 a2 a3).cmd = a3.cmd ∧
    (histDie a0 a1 a2 a3).prot = a3.prot ∧ (histDie a0 a1 a2 a3).regs = a3.regs ∧ (histDie a0 a1 a2 a3).mem = a3.mem ∧
    (histDie a0 a1 a2 a3).dma = a3.dma ∧ (histDie a0 a1 a2 a3).trc = a3.trc ∧ (histDie a0 a1 a2 a3).nid = a3.nid ∧
    (histDie a0 a1 a2 a3).log = a3.log ∧ (histDie a0 a1 a2 a3).boot = a3.boot ∧ (histDie a0 a1 a2 a3).img = a3.img ∧
    (histDie a0 a1 a2 a3).reports = a3.reports ∧ (histDie a0 a1 a2 a3).posted = a3.posted ∧ (histDie a0 a1 a2 a3).nvPosted = a3.nvPosted ∧
    (∀ (c : Nat), cell (histDie a0 a1 a2 a3) c = cell a3 c) ∧ (∀ (c : Nat), Sys2Proof.Machine.hubc (histDie a0 a1 a2 a3) c = Sys2Proof.Machine.hubc a3 c) ∧ (∀ (c : Nat), region (histDie a0 a1 a2 a3) c = region a3 c) ∧
    (∀ (x : Word), entity (histDie a0 a1 a2 a3) x = entity a3 x) ∧ (nowNs (histDie a0 a1 a2 a3) = nowNs a3 ) ∧ (imgOf (histDie a0 a1 a2 a3) = imgOf a3 ) ∧
    (serving (histDie a0 a1 a2 a3) = serving a3 ) ∧ (working (histDie a0 a1 a2 a3) = working a3 ) ∧ (alive (histDie a0 a1 a2 a3) = alive a3 ) ∧
    (upState (histDie a0 a1 a2 a3) = upState a3 ) ∧ (portOn (histDie a0 a1 a2 a3) = portOn a3 ) ∧ (∀ (e : Env), dieNo e (histDie a0 a1 a2 a3) = dieNo e a3 ) ∧
    (∀ (e : Env), nodeNo e (histDie a0 a1 a2 a3) = nodeNo e a3 ) ∧ (∀ (e : Env) (c : Nat), coreId e (histDie a0 a1 a2 a3) c = coreId e a3 c) ∧ (∀ (e : Env) (c : Nat), unitId e (histDie a0 a1 a2 a3) c = unitId e a3 c) ∧
    (∀ (c : Nat), chan (histDie a0 a1 a2 a3) c = chan a3 c) ∧ (∀ (x : Word), entOk (histDie a0 a1 a2 a3) x = entOk a3 x) ∧ (∀ (c : Nat), groupOf (histDie a0 a1 a2 a3) c = groupOf a3 c) ∧
    (∀ (e : Env) (x : Word), presentCore e (histDie a0 a1 a2 a3) x = presentCore e a3 x) := by
  have k := (histDie_only a0 a1 a2 a3).keep
  exact ⟨k .free (by decide), k .sys (by decide), k .isl (by decide), k .time (by decide), k .regions (by decide), k .cells (by decide), k .hubc (by decide), k .res (by decide), k .dig (by decide), k .xs (by decide), k .ens (by decide), k .casc (by decide), k .fab (by decide), k .sb (by decide), k .bc (by decide), k .jobs (by decide), k .mgt (by decide), k .cmd (by decide), k .prot (by decide), k .regs (by decide), k .mem (by decide), k .dma (by decide), k .trc (by decide), k .nid (by decide), k .log (by decide), k .boot (by decide), k .img (by decide), k .reports (by decide), k .ram (by decide), k .nvm (by decide), fun c => cell_congr (k .cells (by decide)) c, fun c => hubc_congr (k .hubc (by decide)) c, fun c => region_congr (k .regions (by decide)) c, fun x => entity_congr (k .casc (by decide)) x, nowNs_congr (k .time (by decide)), imgOf_congr (k .img (by decide)), serving_congr (k .sys (by decide)), working_congr (k .sys (by decide)), alive_congr (k .sys (by decide)), upState_congr (k .sys (by decide)), portOn_congr (k .sys (by decide)), fun e  => dieNo_congr e (k .img (by decide)), fun e  => nodeNo_congr e (k .img (by decide)), fun e c => coreId_congr e (k .img (by decide)) c, fun e c => unitId_congr e (k .img (by decide)) c, fun c => chan_congr (k .cmd (by decide)) c, fun x => entOk_congr (k .img (by decide)) x, fun c => groupOf_congr (k .img (by decide)) (k .jobs (by decide)) c, fun e x => presentCore_congr e (k .img (by decide)) x⟩

@[simp] theorem openRound_reads (a0 a1 a2 a3 a4) :
    (openRound a0 a1 a2 a3 a4).free = a4.free ∧ (openRound a0 a1 a2 a3 a4).sys = a4.sys ∧ (openRound a0 a1 a2 a3 a4).isl = a4.isl ∧
    (openRound a0 a1 a2 a3 a4).time = a4.time ∧ (openRound a0 a1 a2 a3 a4).regions = a4.regions ∧ (openRound a0 a1 a2 a3 a4).cells = a4.cells ∧
    (openRound a0 a1 a2 a3 a4).hubc = a4.hubc ∧ (openRound a0 a1 a2 a3 a4).res = a4.res ∧ (openRound a0 a1 a2 a3 a4).dig = a4.dig ∧
    (openRound a0 a1 a2 a3 a4).ens = a4.ens ∧ (openRound a0 a1 a2 a3 a4).casc = a4.casc ∧ (openRound a0 a1 a2 a3 a4).age = a4.age ∧
    (openRound a0 a1 a2 a3 a4).sb = a4.sb ∧ (openRound a0 a1 a2 a3 a4).bc = a4.bc ∧ (openRound a0 a1 a2 a3 a4).jobs = a4.jobs ∧
    (openRound a0 a1 a2 a3 a4).mgt = a4.mgt ∧ (openRound a0 a1 a2 a3 a4).cmd = a4.cmd ∧ (openRound a0 a1 a2 a3 a4).prot = a4.prot ∧
    (openRound a0 a1 a2 a3 a4).regs = a4.regs ∧ (openRound a0 a1 a2 a3 a4).mem = a4.mem ∧ (openRound a0 a1 a2 a3 a4).dma = a4.dma ∧
    (openRound a0 a1 a2 a3 a4).trc = a4.trc ∧ (openRound a0 a1 a2 a3 a4).nid = a4.nid ∧ (openRound a0 a1 a2 a3 a4).log = a4.log ∧
    (openRound a0 a1 a2 a3 a4).boot = a4.boot ∧ (openRound a0 a1 a2 a3 a4).img = a4.img ∧ (openRound a0 a1 a2 a3 a4).reports = a4.reports ∧
    (openRound a0 a1 a2 a3 a4).posted = a4.posted ∧ (openRound a0 a1 a2 a3 a4).nvPosted = a4.nvPosted ∧ (∀ (c : Nat), cell (openRound a0 a1 a2 a3 a4) c = cell a4 c) ∧
    (∀ (c : Nat), Sys2Proof.Machine.hubc (openRound a0 a1 a2 a3 a4) c = Sys2Proof.Machine.hubc a4 c) ∧ (∀ (c : Nat), region (openRound a0 a1 a2 a3 a4) c = region a4 c) ∧ (∀ (x : Word), entity (openRound a0 a1 a2 a3 a4) x = entity a4 x) ∧
    (nowNs (openRound a0 a1 a2 a3 a4) = nowNs a4 ) ∧ (imgOf (openRound a0 a1 a2 a3 a4) = imgOf a4 ) ∧ (serving (openRound a0 a1 a2 a3 a4) = serving a4 ) ∧
    (working (openRound a0 a1 a2 a3 a4) = working a4 ) ∧ (alive (openRound a0 a1 a2 a3 a4) = alive a4 ) ∧ (upState (openRound a0 a1 a2 a3 a4) = upState a4 ) ∧
    (portOn (openRound a0 a1 a2 a3 a4) = portOn a4 ) ∧ (∀ (e : Env), dieNo e (openRound a0 a1 a2 a3 a4) = dieNo e a4 ) ∧ (∀ (e : Env), nodeNo e (openRound a0 a1 a2 a3 a4) = nodeNo e a4 ) ∧
    (∀ (e : Env) (c : Nat), coreId e (openRound a0 a1 a2 a3 a4) c = coreId e a4 c) ∧ (∀ (e : Env) (c : Nat), unitId e (openRound a0 a1 a2 a3 a4) c = unitId e a4 c) ∧ (∀ (c : Nat), chan (openRound a0 a1 a2 a3 a4) c = chan a4 c) ∧
    (∀ (x : Word), entOk (openRound a0 a1 a2 a3 a4) x = entOk a4 x) ∧ (∀ (c : Nat), groupOf (openRound a0 a1 a2 a3 a4) c = groupOf a4 c) ∧ (∀ (c : Nat), probing (openRound a0 a1 a2 a3 a4) c = probing a4 c) ∧
    (∀ (e : Env) (x : Word), presentCore e (openRound a0 a1 a2 a3 a4) x = presentCore e a4 x) := by
  have k := (openRound_only a0 a1 a2 a3 a4).keep
  exact ⟨k .free (by decide), k .sys (by decide), k .isl (by decide), k .time (by decide), k .regions (by decide), k .cells (by decide), k .hubc (by decide), k .res (by decide), k .dig (by decide), k .ens (by decide), k .casc (by decide), k .age (by decide), k .sb (by decide), k .bc (by decide), k .jobs (by decide), k .mgt (by decide), k .cmd (by decide), k .prot (by decide), k .regs (by decide), k .mem (by decide), k .dma (by decide), k .trc (by decide), k .nid (by decide), k .log (by decide), k .boot (by decide), k .img (by decide), k .reports (by decide), k .ram (by decide), k .nvm (by decide), fun c => cell_congr (k .cells (by decide)) c, fun c => hubc_congr (k .hubc (by decide)) c, fun c => region_congr (k .regions (by decide)) c, fun x => entity_congr (k .casc (by decide)) x, nowNs_congr (k .time (by decide)), imgOf_congr (k .img (by decide)), serving_congr (k .sys (by decide)), working_congr (k .sys (by decide)), alive_congr (k .sys (by decide)), upState_congr (k .sys (by decide)), portOn_congr (k .sys (by decide)), fun e  => dieNo_congr e (k .img (by decide)), fun e  => nodeNo_congr e (k .img (by decide)), fun e c => coreId_congr e (k .img (by decide)) c, fun e c => unitId_congr e (k .img (by decide)) c, fun c => chan_congr (k .cmd (by decide)) c, fun x => entOk_congr (k .img (by decide)) x, fun c => groupOf_congr (k .img (by decide)) (k .jobs (by decide)) c, fun c => probing_congr (k .age (by decide)) c, fun e x => presentCore_congr e (k .img (by decide)) x⟩

@[simp] theorem digProto_reads (a0 a1 a2 a3) :
    (digProto a0 a1 a2 a3).free = a3.free ∧ (digProto a0 a1 a2 a3).sys = a3.sys ∧ (digProto a0 a1 a2 a3).isl = a3.isl ∧
    (digProto a0 a1 a2 a3).time = a3.time ∧ (digProto a0 a1 a2 a3).regions = a3.regions ∧ (digProto a0 a1 a2 a3).cells = a3.cells ∧
    (digProto a0 a1 a2 a3).hubc = a3.hubc ∧ (digProto a0 a1 a2 a3).res = a3.res ∧ (digProto a0 a1 a2 a3).xs = a3.xs ∧
    (digProto a0 a1 a2 a3).ens = a3.ens ∧ (digProto a0 a1 a2 a3).casc = a3.casc ∧ (digProto a0 a1 a2 a3).age = a3.age ∧
    (digProto a0 a1 a2 a3).fab = a3.fab ∧ (digProto a0 a1 a2 a3).sb = a3.sb ∧ (digProto a0 a1 a2 a3).bc = a3.bc ∧
    (digProto a0 a1 a2 a3).jobs = a3.jobs ∧ (digProto a0 a1 a2 a3).mgt = a3.mgt ∧ (digProto a0 a1 a2 a3).cmd = a3.cmd ∧
    (digProto a0 a1 a2 a3).prot = a3.prot ∧ (digProto a0 a1 a2 a3).mem = a3.mem ∧ (digProto a0 a1 a2 a3).dma = a3.dma ∧
    (digProto a0 a1 a2 a3).trc = a3.trc ∧ (digProto a0 a1 a2 a3).nid = a3.nid ∧ (digProto a0 a1 a2 a3).boot = a3.boot ∧
    (digProto a0 a1 a2 a3).img = a3.img ∧ (digProto a0 a1 a2 a3).reports = a3.reports ∧ (digProto a0 a1 a2 a3).posted = a3.posted ∧
    (digProto a0 a1 a2 a3).nvPosted = a3.nvPosted ∧ (∀ (c : Nat), cell (digProto a0 a1 a2 a3) c = cell a3 c) ∧ (∀ (c : Nat), Sys2Proof.Machine.hubc (digProto a0 a1 a2 a3) c = Sys2Proof.Machine.hubc a3 c) ∧
    (∀ (c : Nat), region (digProto a0 a1 a2 a3) c = region a3 c) ∧ (∀ (x : Word), entity (digProto a0 a1 a2 a3) x = entity a3 x) ∧ (nowNs (digProto a0 a1 a2 a3) = nowNs a3 ) ∧
    (imgOf (digProto a0 a1 a2 a3) = imgOf a3 ) ∧ (serving (digProto a0 a1 a2 a3) = serving a3 ) ∧ (working (digProto a0 a1 a2 a3) = working a3 ) ∧
    (alive (digProto a0 a1 a2 a3) = alive a3 ) ∧ (upState (digProto a0 a1 a2 a3) = upState a3 ) ∧ (portOn (digProto a0 a1 a2 a3) = portOn a3 ) ∧
    (∀ (e : Env), dieNo e (digProto a0 a1 a2 a3) = dieNo e a3 ) ∧ (∀ (e : Env), nodeNo e (digProto a0 a1 a2 a3) = nodeNo e a3 ) ∧ (∀ (e : Env) (c : Nat), coreId e (digProto a0 a1 a2 a3) c = coreId e a3 c) ∧
    (∀ (e : Env) (c : Nat), unitId e (digProto a0 a1 a2 a3) c = unitId e a3 c) ∧ (∀ (c : Nat), chan (digProto a0 a1 a2 a3) c = chan a3 c) ∧ (∀ (x : Word), entOk (digProto a0 a1 a2 a3) x = entOk a3 x) ∧
    (∀ (c : Nat), groupOf (digProto a0 a1 a2 a3) c = groupOf a3 c) ∧ (∀ (c : Nat), probing (digProto a0 a1 a2 a3) c = probing a3 c) ∧ (∀ (e : Env) (x : Word), presentCore e (digProto a0 a1 a2 a3) x = presentCore e a3 x) := by
  have k := (digProto_only a0 a1 a2 a3).keep
  exact ⟨k .free (by decide), k .sys (by decide), k .isl (by decide), k .time (by decide), k .regions (by decide), k .cells (by decide), k .hubc (by decide), k .res (by decide), k .xs (by decide), k .ens (by decide), k .casc (by decide), k .age (by decide), k .fab (by decide), k .sb (by decide), k .bc (by decide), k .jobs (by decide), k .mgt (by decide), k .cmd (by decide), k .prot (by decide), k .mem (by decide), k .dma (by decide), k .trc (by decide), k .nid (by decide), k .boot (by decide), k .img (by decide), k .reports (by decide), k .ram (by decide), k .nvm (by decide), fun c => cell_congr (k .cells (by decide)) c, fun c => hubc_congr (k .hubc (by decide)) c, fun c => region_congr (k .regions (by decide)) c, fun x => entity_congr (k .casc (by decide)) x, nowNs_congr (k .time (by decide)), imgOf_congr (k .img (by decide)), serving_congr (k .sys (by decide)), working_congr (k .sys (by decide)), alive_congr (k .sys (by decide)), upState_congr (k .sys (by decide)), portOn_congr (k .sys (by decide)), fun e  => dieNo_congr e (k .img (by decide)), fun e  => nodeNo_congr e (k .img (by decide)), fun e c => coreId_congr e (k .img (by decide)) c, fun e c => unitId_congr e (k .img (by decide)) c, fun c => chan_congr (k .cmd (by decide)) c, fun x => entOk_congr (k .img (by decide)) x, fun c => groupOf_congr (k .img (by decide)) (k .jobs (by decide)) c, fun c => probing_congr (k .age (by decide)) c, fun e x => presentCore_congr e (k .img (by decide)) x⟩

@[simp] theorem onLink_reads (a0 a1 a2) :
    (onLink a0 a1 a2).free = a2.free ∧ (onLink a0 a1 a2).sys = a2.sys ∧ (onLink a0 a1 a2).isl = a2.isl ∧
    (onLink a0 a1 a2).time = a2.time ∧ (onLink a0 a1 a2).regions = a2.regions ∧ (onLink a0 a1 a2).cells = a2.cells ∧
    (onLink a0 a1 a2).hubc = a2.hubc ∧ (onLink a0 a1 a2).res = a2.res ∧ (onLink a0 a1 a2).xs = a2.xs ∧
    (onLink a0 a1 a2).ens = a2.ens ∧ (onLink a0 a1 a2).casc = a2.casc ∧ (onLink a0 a1 a2).age = a2.age ∧
    (onLink a0 a1 a2).fab = a2.fab ∧ (onLink a0 a1 a2).sb = a2.sb ∧ (onLink a0 a1 a2).bc = a2.bc ∧
    (onLink a0 a1 a2).jobs = a2.jobs ∧ (onLink a0 a1 a2).mgt = a2.mgt ∧ (onLink a0 a1 a2).cmd = a2.cmd ∧
    (onLink a0 a1 a2).prot = a2.prot ∧ (onLink a0 a1 a2).regs = a2.regs ∧ (onLink a0 a1 a2).mem = a2.mem ∧
    (onLink a0 a1 a2).dma = a2.dma ∧ (onLink a0 a1 a2).trc = a2.trc ∧ (onLink a0 a1 a2).nid = a2.nid ∧
    (onLink a0 a1 a2).log = a2.log ∧ (onLink a0 a1 a2).boot = a2.boot ∧ (onLink a0 a1 a2).img = a2.img ∧
    (onLink a0 a1 a2).reports = a2.reports ∧ (onLink a0 a1 a2).posted = a2.posted ∧ (onLink a0 a1 a2).nvPosted = a2.nvPosted ∧
    (∀ (c : Nat), cell (onLink a0 a1 a2) c = cell a2 c) ∧ (∀ (c : Nat), Sys2Proof.Machine.hubc (onLink a0 a1 a2) c = Sys2Proof.Machine.hubc a2 c) ∧ (∀ (c : Nat), region (onLink a0 a1 a2) c = region a2 c) ∧
    (∀ (x : Word), entity (onLink a0 a1 a2) x = entity a2 x) ∧ (nowNs (onLink a0 a1 a2) = nowNs a2 ) ∧ (imgOf (onLink a0 a1 a2) = imgOf a2 ) ∧
    (serving (onLink a0 a1 a2) = serving a2 ) ∧ (working (onLink a0 a1 a2) = working a2 ) ∧ (alive (onLink a0 a1 a2) = alive a2 ) ∧
    (upState (onLink a0 a1 a2) = upState a2 ) ∧ (portOn (onLink a0 a1 a2) = portOn a2 ) ∧ (∀ (e : Env), dieNo e (onLink a0 a1 a2) = dieNo e a2 ) ∧
    (∀ (e : Env), nodeNo e (onLink a0 a1 a2) = nodeNo e a2 ) ∧ (∀ (e : Env) (c : Nat), coreId e (onLink a0 a1 a2) c = coreId e a2 c) ∧ (∀ (e : Env) (c : Nat), unitId e (onLink a0 a1 a2) c = unitId e a2 c) ∧
    (∀ (c : Nat), chan (onLink a0 a1 a2) c = chan a2 c) ∧ (∀ (x : Word), entOk (onLink a0 a1 a2) x = entOk a2 x) ∧ (∀ (c : Nat), groupOf (onLink a0 a1 a2) c = groupOf a2 c) ∧
    (∀ (c : Nat), probing (onLink a0 a1 a2) c = probing a2 c) ∧ (∀ (e : Env) (x : Word), presentCore e (onLink a0 a1 a2) x = presentCore e a2 x) := by
  have k := (onLink_only a0 a1 a2).keep
  exact ⟨k .free (by decide), k .sys (by decide), k .isl (by decide), k .time (by decide), k .regions (by decide), k .cells (by decide), k .hubc (by decide), k .res (by decide), k .xs (by decide), k .ens (by decide), k .casc (by decide), k .age (by decide), k .fab (by decide), k .sb (by decide), k .bc (by decide), k .jobs (by decide), k .mgt (by decide), k .cmd (by decide), k .prot (by decide), k .regs (by decide), k .mem (by decide), k .dma (by decide), k .trc (by decide), k .nid (by decide), k .log (by decide), k .boot (by decide), k .img (by decide), k .reports (by decide), k .ram (by decide), k .nvm (by decide), fun c => cell_congr (k .cells (by decide)) c, fun c => hubc_congr (k .hubc (by decide)) c, fun c => region_congr (k .regions (by decide)) c, fun x => entity_congr (k .casc (by decide)) x, nowNs_congr (k .time (by decide)), imgOf_congr (k .img (by decide)), serving_congr (k .sys (by decide)), working_congr (k .sys (by decide)), alive_congr (k .sys (by decide)), upState_congr (k .sys (by decide)), portOn_congr (k .sys (by decide)), fun e  => dieNo_congr e (k .img (by decide)), fun e  => nodeNo_congr e (k .img (by decide)), fun e c => coreId_congr e (k .img (by decide)) c, fun e c => unitId_congr e (k .img (by decide)) c, fun c => chan_congr (k .cmd (by decide)) c, fun x => entOk_congr (k .img (by decide)) x, fun c => groupOf_congr (k .img (by decide)) (k .jobs (by decide)) c, fun c => probing_congr (k .age (by decide)) c, fun e x => presentCore_congr e (k .img (by decide)) x⟩

@[simp] theorem addSquares_reads (a0 a1 a2 a3) :
    (addSquares a0 a1 a2 a3).free = a3.free ∧ (addSquares a0 a1 a2 a3).sys = a3.sys ∧ (addSquares a0 a1 a2 a3).isl = a3.isl ∧
    (addSquares a0 a1 a2 a3).time = a3.time ∧ (addSquares a0 a1 a2 a3).regions = a3.regions ∧ (addSquares a0 a1 a2 a3).cells = a3.cells ∧
    (addSquares a0 a1 a2 a3).hubc = a3.hubc ∧ (addSquares a0 a1 a2 a3).res = a3.res ∧ (addSquares a0 a1 a2 a3).ens = a3.ens ∧
    (addSquares a0 a1 a2 a3).casc = a3.casc ∧ (addSquares a0 a1 a2 a3).age = a3.age ∧ (addSquares a0 a1 a2 a3).fab = a3.fab ∧
    (addSquares a0 a1 a2 a3).sb = a3.sb ∧ (addSquares a0 a1 a2 a3).bc = a3.bc ∧ (addSquares a0 a1 a2 a3).jobs = a3.jobs ∧
    (addSquares a0 a1 a2 a3).mgt = a3.mgt ∧ (addSquares a0 a1 a2 a3).cmd = a3.cmd ∧ (addSquares a0 a1 a2 a3).prot = a3.prot ∧
    (addSquares a0 a1 a2 a3).regs = a3.regs ∧ (addSquares a0 a1 a2 a3).mem = a3.mem ∧ (addSquares a0 a1 a2 a3).dma = a3.dma ∧
    (addSquares a0 a1 a2 a3).trc = a3.trc ∧ (addSquares a0 a1 a2 a3).nid = a3.nid ∧ (addSquares a0 a1 a2 a3).log = a3.log ∧
    (addSquares a0 a1 a2 a3).boot = a3.boot ∧ (addSquares a0 a1 a2 a3).img = a3.img ∧ (addSquares a0 a1 a2 a3).reports = a3.reports ∧
    (addSquares a0 a1 a2 a3).posted = a3.posted ∧ (addSquares a0 a1 a2 a3).nvPosted = a3.nvPosted ∧ (∀ (c : Nat), cell (addSquares a0 a1 a2 a3) c = cell a3 c) ∧
    (∀ (c : Nat), Sys2Proof.Machine.hubc (addSquares a0 a1 a2 a3) c = Sys2Proof.Machine.hubc a3 c) ∧ (∀ (c : Nat), region (addSquares a0 a1 a2 a3) c = region a3 c) ∧ (∀ (x : Word), entity (addSquares a0 a1 a2 a3) x = entity a3 x) ∧
    (nowNs (addSquares a0 a1 a2 a3) = nowNs a3 ) ∧ (imgOf (addSquares a0 a1 a2 a3) = imgOf a3 ) ∧ (serving (addSquares a0 a1 a2 a3) = serving a3 ) ∧
    (working (addSquares a0 a1 a2 a3) = working a3 ) ∧ (alive (addSquares a0 a1 a2 a3) = alive a3 ) ∧ (upState (addSquares a0 a1 a2 a3) = upState a3 ) ∧
    (portOn (addSquares a0 a1 a2 a3) = portOn a3 ) ∧ (∀ (e : Env), dieNo e (addSquares a0 a1 a2 a3) = dieNo e a3 ) ∧ (∀ (e : Env), nodeNo e (addSquares a0 a1 a2 a3) = nodeNo e a3 ) ∧
    (∀ (e : Env) (c : Nat), coreId e (addSquares a0 a1 a2 a3) c = coreId e a3 c) ∧ (∀ (e : Env) (c : Nat), unitId e (addSquares a0 a1 a2 a3) c = unitId e a3 c) ∧ (∀ (c : Nat), chan (addSquares a0 a1 a2 a3) c = chan a3 c) ∧
    (∀ (x : Word), entOk (addSquares a0 a1 a2 a3) x = entOk a3 x) ∧ (∀ (c : Nat), groupOf (addSquares a0 a1 a2 a3) c = groupOf a3 c) ∧ (∀ (c : Nat), probing (addSquares a0 a1 a2 a3) c = probing a3 c) ∧
    (∀ (e : Env) (x : Word), presentCore e (addSquares a0 a1 a2 a3) x = presentCore e a3 x) := by
  have k := (addSquares_only a0 a1 a2 a3).keep
  exact ⟨k .free (by decide), k .sys (by decide), k .isl (by decide), k .time (by decide), k .regions (by decide), k .cells (by decide), k .hubc (by decide), k .res (by decide), k .ens (by decide), k .casc (by decide), k .age (by decide), k .fab (by decide), k .sb (by decide), k .bc (by decide), k .jobs (by decide), k .mgt (by decide), k .cmd (by decide), k .prot (by decide), k .regs (by decide), k .mem (by decide), k .dma (by decide), k .trc (by decide), k .nid (by decide), k .log (by decide), k .boot (by decide), k .img (by decide), k .reports (by decide), k .ram (by decide), k .nvm (by decide), fun c => cell_congr (k .cells (by decide)) c, fun c => hubc_congr (k .hubc (by decide)) c, fun c => region_congr (k .regions (by decide)) c, fun x => entity_congr (k .casc (by decide)) x, nowNs_congr (k .time (by decide)), imgOf_congr (k .img (by decide)), serving_congr (k .sys (by decide)), working_congr (k .sys (by decide)), alive_congr (k .sys (by decide)), upState_congr (k .sys (by decide)), portOn_congr (k .sys (by decide)), fun e  => dieNo_congr e (k .img (by decide)), fun e  => nodeNo_congr e (k .img (by decide)), fun e c => coreId_congr e (k .img (by decide)) c, fun e c => unitId_congr e (k .img (by decide)) c, fun c => chan_congr (k .cmd (by decide)) c, fun x => entOk_congr (k .img (by decide)) x, fun c => groupOf_congr (k .img (by decide)) (k .jobs (by decide)) c, fun c => probing_congr (k .age (by decide)) c, fun e x => presentCore_congr e (k .img (by decide)) x⟩

@[simp] theorem chargeEnt_reads (a0 a1 a2) :
    (chargeEnt a0 a1 a2).free = a2.free ∧ (chargeEnt a0 a1 a2).sys = a2.sys ∧ (chargeEnt a0 a1 a2).isl = a2.isl ∧
    (chargeEnt a0 a1 a2).time = a2.time ∧ (chargeEnt a0 a1 a2).regions = a2.regions ∧ (chargeEnt a0 a1 a2).cells = a2.cells ∧
    (chargeEnt a0 a1 a2).hubc = a2.hubc ∧ (chargeEnt a0 a1 a2).res = a2.res ∧ (chargeEnt a0 a1 a2).dig = a2.dig ∧
    (chargeEnt a0 a1 a2).xs = a2.xs ∧ (chargeEnt a0 a1 a2).age = a2.age ∧ (chargeEnt a0 a1 a2).fab = a2.fab ∧
    (chargeEnt a0 a1 a2).sb = a2.sb ∧ (chargeEnt a0 a1 a2).bc = a2.bc ∧ (chargeEnt a0 a1 a2).jobs = a2.jobs ∧
    (chargeEnt a0 a1 a2).mgt = a2.mgt ∧ (chargeEnt a0 a1 a2).cmd = a2.cmd ∧ (chargeEnt a0 a1 a2).prot = a2.prot ∧
    (chargeEnt a0 a1 a2).dma = a2.dma ∧ (chargeEnt a0 a1 a2).trc = a2.trc ∧ (chargeEnt a0 a1 a2).nid = a2.nid ∧
    (chargeEnt a0 a1 a2).boot = a2.boot ∧ (chargeEnt a0 a1 a2).img = a2.img ∧ (chargeEnt a0 a1 a2).reports = a2.reports ∧
    (chargeEnt a0 a1 a2).posted = a2.posted ∧ (chargeEnt a0 a1 a2).nvPosted = a2.nvPosted ∧ (∀ (c : Nat), cell (chargeEnt a0 a1 a2) c = cell a2 c) ∧
    (∀ (c : Nat), Sys2Proof.Machine.hubc (chargeEnt a0 a1 a2) c = Sys2Proof.Machine.hubc a2 c) ∧ (∀ (c : Nat), region (chargeEnt a0 a1 a2) c = region a2 c) ∧ (nowNs (chargeEnt a0 a1 a2) = nowNs a2 ) ∧
    (imgOf (chargeEnt a0 a1 a2) = imgOf a2 ) ∧ (serving (chargeEnt a0 a1 a2) = serving a2 ) ∧ (working (chargeEnt a0 a1 a2) = working a2 ) ∧
    (alive (chargeEnt a0 a1 a2) = alive a2 ) ∧ (upState (chargeEnt a0 a1 a2) = upState a2 ) ∧ (portOn (chargeEnt a0 a1 a2) = portOn a2 ) ∧
    (∀ (e : Env), dieNo e (chargeEnt a0 a1 a2) = dieNo e a2 ) ∧ (∀ (e : Env), nodeNo e (chargeEnt a0 a1 a2) = nodeNo e a2 ) ∧ (∀ (e : Env) (c : Nat), coreId e (chargeEnt a0 a1 a2) c = coreId e a2 c) ∧
    (∀ (e : Env) (c : Nat), unitId e (chargeEnt a0 a1 a2) c = unitId e a2 c) ∧ (∀ (c : Nat), chan (chargeEnt a0 a1 a2) c = chan a2 c) ∧ (∀ (x : Word), entOk (chargeEnt a0 a1 a2) x = entOk a2 x) ∧
    (∀ (c : Nat), groupOf (chargeEnt a0 a1 a2) c = groupOf a2 c) ∧ (∀ (c : Nat), probing (chargeEnt a0 a1 a2) c = probing a2 c) ∧ (∀ (e : Env) (x : Word), presentCore e (chargeEnt a0 a1 a2) x = presentCore e a2 x) := by
  have k := (chargeEnt_only a0 a1 a2).keep
  exact ⟨k .free (by decide), k .sys (by decide), k .isl (by decide), k .time (by decide), k .regions (by decide), k .cells (by decide), k .hubc (by decide), k .res (by decide), k .dig (by decide), k .xs (by decide), k .age (by decide), k .fab (by decide), k .sb (by decide), k .bc (by decide), k .jobs (by decide), k .mgt (by decide), k .cmd (by decide), k .prot (by decide), k .dma (by decide), k .trc (by decide), k .nid (by decide), k .boot (by decide), k .img (by decide), k .reports (by decide), k .ram (by decide), k .nvm (by decide), fun c => cell_congr (k .cells (by decide)) c, fun c => hubc_congr (k .hubc (by decide)) c, fun c => region_congr (k .regions (by decide)) c, nowNs_congr (k .time (by decide)), imgOf_congr (k .img (by decide)), serving_congr (k .sys (by decide)), working_congr (k .sys (by decide)), alive_congr (k .sys (by decide)), upState_congr (k .sys (by decide)), portOn_congr (k .sys (by decide)), fun e  => dieNo_congr e (k .img (by decide)), fun e  => nodeNo_congr e (k .img (by decide)), fun e c => coreId_congr e (k .img (by decide)) c, fun e c => unitId_congr e (k .img (by decide)) c, fun c => chan_congr (k .cmd (by decide)) c, fun x => entOk_congr (k .img (by decide)) x, fun c => groupOf_congr (k .img (by decide)) (k .jobs (by decide)) c, fun c => probing_congr (k .age (by decide)) c, fun e x => presentCore_congr e (k .img (by decide)) x⟩

@[simp] theorem onDelivery_reads (a0 a1 a2 a3 a4 a5) :
    (onDelivery a0 a1 a2 a3 a4 a5).free = a5.free ∧ (onDelivery a0 a1 a2 a3 a4 a5).sys = a5.sys ∧ (onDelivery a0 a1 a2 a3 a4 a5).isl = a5.isl ∧
    (onDelivery a0 a1 a2 a3 a4 a5).time = a5.time ∧ (onDelivery a0 a1 a2 a3 a4 a5).regions = a5.regions ∧ (onDelivery a0 a1 a2 a3 a4 a5).cells = a5.cells ∧
    (onDelivery a0 a1 a2 a3 a4 a5).hubc = a5.hubc ∧ (onDelivery a0 a1 a2 a3 a4 a5).res = a5.res ∧ (onDelivery a0 a1 a2 a3 a4 a5).xs = a5.xs ∧
    (onDelivery a0 a1 a2 a3 a4 a5).ens = a5.ens ∧ (onDelivery a0 a1 a2 a3 a4 a5).casc = a5.casc ∧ (onDelivery a0 a1 a2 a3 a4 a5).age = a5.age ∧
    (onDelivery a0 a1 a2 a3 a4 a5).fab = a5.fab ∧ (onDelivery a0 a1 a2 a3 a4 a5).sb = a5.sb ∧ (onDelivery a0 a1 a2 a3 a4 a5).bc = a5.bc ∧
    (onDelivery a0 a1 a2 a3 a4 a5).jobs = a5.jobs ∧ (onDelivery a0 a1 a2 a3 a4 a5).mgt = a5.mgt ∧ (onDelivery a0 a1 a2 a3 a4 a5).cmd = a5.cmd ∧
    (onDelivery a0 a1 a2 a3 a4 a5).prot = a5.prot ∧ (onDelivery a0 a1 a2 a3 a4 a5).regs = a5.regs ∧ (onDelivery a0 a1 a2 a3 a4 a5).mem = a5.mem ∧
    (onDelivery a0 a1 a2 a3 a4 a5).dma = a5.dma ∧ (onDelivery a0 a1 a2 a3 a4 a5).trc = a5.trc ∧ (onDelivery a0 a1 a2 a3 a4 a5).nid = a5.nid ∧
    (onDelivery a0 a1 a2 a3 a4 a5).log = a5.log ∧ (onDelivery a0 a1 a2 a3 a4 a5).boot = a5.boot ∧ (onDelivery a0 a1 a2 a3 a4 a5).img = a5.img ∧
    (onDelivery a0 a1 a2 a3 a4 a5).reports = a5.reports ∧ (onDelivery a0 a1 a2 a3 a4 a5).posted = a5.posted ∧ (onDelivery a0 a1 a2 a3 a4 a5).nvPosted = a5.nvPosted ∧
    (∀ (c : Nat), cell (onDelivery a0 a1 a2 a3 a4 a5) c = cell a5 c) ∧ (∀ (c : Nat), Sys2Proof.Machine.hubc (onDelivery a0 a1 a2 a3 a4 a5) c = Sys2Proof.Machine.hubc a5 c) ∧ (∀ (c : Nat), region (onDelivery a0 a1 a2 a3 a4 a5) c = region a5 c) ∧
    (∀ (x : Word), entity (onDelivery a0 a1 a2 a3 a4 a5) x = entity a5 x) ∧ (nowNs (onDelivery a0 a1 a2 a3 a4 a5) = nowNs a5 ) ∧ (imgOf (onDelivery a0 a1 a2 a3 a4 a5) = imgOf a5 ) ∧
    (serving (onDelivery a0 a1 a2 a3 a4 a5) = serving a5 ) ∧ (working (onDelivery a0 a1 a2 a3 a4 a5) = working a5 ) ∧ (alive (onDelivery a0 a1 a2 a3 a4 a5) = alive a5 ) ∧
    (upState (onDelivery a0 a1 a2 a3 a4 a5) = upState a5 ) ∧ (portOn (onDelivery a0 a1 a2 a3 a4 a5) = portOn a5 ) ∧ (∀ (e : Env), dieNo e (onDelivery a0 a1 a2 a3 a4 a5) = dieNo e a5 ) ∧
    (∀ (e : Env), nodeNo e (onDelivery a0 a1 a2 a3 a4 a5) = nodeNo e a5 ) ∧ (∀ (e : Env) (c : Nat), coreId e (onDelivery a0 a1 a2 a3 a4 a5) c = coreId e a5 c) ∧ (∀ (e : Env) (c : Nat), unitId e (onDelivery a0 a1 a2 a3 a4 a5) c = unitId e a5 c) ∧
    (∀ (c : Nat), chan (onDelivery a0 a1 a2 a3 a4 a5) c = chan a5 c) ∧ (∀ (x : Word), entOk (onDelivery a0 a1 a2 a3 a4 a5) x = entOk a5 x) ∧ (∀ (c : Nat), groupOf (onDelivery a0 a1 a2 a3 a4 a5) c = groupOf a5 c) ∧
    (∀ (c : Nat), probing (onDelivery a0 a1 a2 a3 a4 a5) c = probing a5 c) ∧ (∀ (e : Env) (x : Word), presentCore e (onDelivery a0 a1 a2 a3 a4 a5) x = presentCore e a5 x) := by
  have k := (onDelivery_only a0 a1 a2 a3 a4 a5).keep
  exact ⟨k .free (by decide), k .sys (by decide), k .isl (by decide), k .time (by decide), k .regions (by decide), k .cells (by decide), k .hubc (by decide), k .res (by decide), k .xs (by decide), k .ens (by decide), k .casc (by decide), k .age (by decide), k .fab (by decide), k .sb (by decide), k .bc (by decide), k .jobs (by decide), k .mgt (by decide), k .cmd (by decide), k .prot (by decide), k .regs (by decide), k .mem (by decide), k .dma (by decide), k .trc (by decide), k .nid (by decide), k .log (by decide), k .boot (by decide), k .img (by decide), k .reports (by decide), k .ram (by decide), k .nvm (by decide), fun c => cell_congr (k .cells (by decide)) c, fun c => hubc_congr (k .hubc (by decide)) c, fun c => region_congr (k .regions (by decide)) c, fun x => entity_congr (k .casc (by decide)) x, nowNs_congr (k .time (by decide)), imgOf_congr (k .img (by decide)), serving_congr (k .sys (by decide)), working_congr (k .sys (by decide)), alive_congr (k .sys (by decide)), upState_congr (k .sys (by decide)), portOn_congr (k .sys (by decide)), fun e  => dieNo_congr e (k .img (by decide)), fun e  => nodeNo_congr e (k .img (by decide)), fun e c => coreId_congr e (k .img (by decide)) c, fun e c => unitId_congr e (k .img (by decide)) c, fun c => chan_congr (k .cmd (by decide)) c, fun x => entOk_congr (k .img (by decide)) x, fun c => groupOf_congr (k .img (by decide)) (k .jobs (by decide)) c, fun c => probing_congr (k .age (by decide)) c, fun e x => presentCore_congr e (k .img (by decide)) x⟩

@[simp] theorem putRound_reads (a0 a1 a2 a3 a4) :
    (putRound a0 a1 a2 a3 a4).free = a4.free ∧ (putRound a0 a1 a2 a3 a4).sys = a4.sys ∧ (putRound a0 a1 a2 a3 a4).isl = a4.isl ∧
    (putRound a0 a1 a2 a3 a4).time = a4.time ∧ (putRound a0 a1 a2 a3 a4).regions = a4.regions ∧ (putRound a0 a1 a2 a3 a4).cells = a4.cells ∧
    (putRound a0 a1 a2 a3 a4).hubc = a4.hubc ∧ (putRound a0 a1 a2 a3 a4).res = a4.res ∧ (putRound a0 a1 a2 a3 a4).dig = a4.dig ∧
    (putRound a0 a1 a2 a3 a4).ens = a4.ens ∧ (putRound a0 a1 a2 a3 a4).casc = a4.casc ∧ (putRound a0 a1 a2 a3 a4).age = a4.age ∧
    (putRound a0 a1 a2 a3 a4).fab = a4.fab ∧ (putRound a0 a1 a2 a3 a4).sb = a4.sb ∧ (putRound a0 a1 a2 a3 a4).bc = a4.bc ∧
    (putRound a0 a1 a2 a3 a4).jobs = a4.jobs ∧ (putRound a0 a1 a2 a3 a4).mgt = a4.mgt ∧ (putRound a0 a1 a2 a3 a4).cmd = a4.cmd ∧
    (putRound a0 a1 a2 a3 a4).prot = a4.prot ∧ (putRound a0 a1 a2 a3 a4).regs = a4.regs ∧ (putRound a0 a1 a2 a3 a4).mem = a4.mem ∧
    (putRound a0 a1 a2 a3 a4).dma = a4.dma ∧ (putRound a0 a1 a2 a3 a4).trc = a4.trc ∧ (putRound a0 a1 a2 a3 a4).nid = a4.nid ∧
    (putRound a0 a1 a2 a3 a4).log = a4.log ∧ (putRound a0 a1 a2 a3 a4).boot = a4.boot ∧ (putRound a0 a1 a2 a3 a4).img = a4.img ∧
    (putRound a0 a1 a2 a3 a4).reports = a4.reports ∧ (putRound a0 a1 a2 a3 a4).posted = a4.posted ∧ (putRound a0 a1 a2 a3 a4).nvPosted = a4.nvPosted ∧
    (∀ (c : Nat), cell (putRound a0 a1 a2 a3 a4) c = cell a4 c) ∧ (∀ (c : Nat), Sys2Proof.Machine.hubc (putRound a0 a1 a2 a3 a4) c = Sys2Proof.Machine.hubc a4 c) ∧ (∀ (c : Nat), region (putRound a0 a1 a2 a3 a4) c = region a4 c) ∧
    (∀ (x : Word), entity (putRound a0 a1 a2 a3 a4) x = entity a4 x) ∧ (nowNs (putRound a0 a1 a2 a3 a4) = nowNs a4 ) ∧ (imgOf (putRound a0 a1 a2 a3 a4) = imgOf a4 ) ∧
    (serving (putRound a0 a1 a2 a3 a4) = serving a4 ) ∧ (working (putRound a0 a1 a2 a3 a4) = working a4 ) ∧ (alive (putRound a0 a1 a2 a3 a4) = alive a4 ) ∧
    (upState (putRound a0 a1 a2 a3 a4) = upState a4 ) ∧ (portOn (putRound a0 a1 a2 a3 a4) = portOn a4 ) ∧ (∀ (e : Env), dieNo e (putRound a0 a1 a2 a3 a4) = dieNo e a4 ) ∧
    (∀ (e : Env), nodeNo e (putRound a0 a1 a2 a3 a4) = nodeNo e a4 ) ∧ (∀ (e : Env) (c : Nat), coreId e (putRound a0 a1 a2 a3 a4) c = coreId e a4 c) ∧ (∀ (e : Env) (c : Nat), unitId e (putRound a0 a1 a2 a3 a4) c = unitId e a4 c) ∧
    (∀ (c : Nat), chan (putRound a0 a1 a2 a3 a4) c = chan a4 c) ∧ (∀ (x : Word), entOk (putRound a0 a1 a2 a3 a4) x = entOk a4 x) ∧ (∀ (c : Nat), groupOf (putRound a0 a1 a2 a3 a4) c = groupOf a4 c) ∧
    (∀ (c : Nat), probing (putRound a0 a1 a2 a3 a4) c = probing a4 c) ∧ (∀ (e : Env) (x : Word), presentCore e (putRound a0 a1 a2 a3 a4) x = presentCore e a4 x) := by
  have k := (putRound_only a0 a1 a2 a3 a4).keep
  exact ⟨k .free (by decide), k .sys (by decide), k .isl (by decide), k .time (by decide), k .regions (by decide), k .cells (by decide), k .hubc (by decide), k .res (by decide), k .dig (by decide), k .ens (by decide), k .casc (by decide), k .age (by decide), k .fab (by decide), k .sb (by decide), k .bc (by decide), k .jobs (by decide), k .mgt (by decide), k .cmd (by decide), k .prot (by decide), k .regs (by decide), k .mem (by decide), k .dma (by decide), k .trc (by decide), k .nid (by decide), k .log (by decide), k .boot (by decide), k .img (by decide), k .reports (by decide), k .ram (by decide), k .nvm (by decide), fun c => cell_congr (k .cells (by decide)) c, fun c => hubc_congr (k .hubc (by decide)) c, fun c => region_congr (k .regions (by decide)) c, fun x => entity_congr (k .casc (by decide)) x, nowNs_congr (k .time (by decide)), imgOf_congr (k .img (by decide)), serving_congr (k .sys (by decide)), working_congr (k .sys (by decide)), alive_congr (k .sys (by decide)), upState_congr (k .sys (by decide)), portOn_congr (k .sys (by decide)), fun e  => dieNo_congr e (k .img (by decide)), fun e  => nodeNo_congr e (k .img (by decide)), fun e c => coreId_congr e (k .img (by decide)) c, fun e c => unitId_congr e (k .img (by decide)) c, fun c => chan_congr (k .cmd (by decide)) c, fun x => entOk_congr (k .img (by decide)) x, fun c => groupOf_congr (k .img (by decide)) (k .jobs (by decide)) c, fun c => probing_congr (k .age (by decide)) c, fun e x => presentCore_congr e (k .img (by decide)) x⟩

@[simp] theorem setTrace_reads (a0 a1 a2) :
    (setTrace a0 a1 a2).free = a2.free ∧ (setTrace a0 a1 a2).sys = a2.sys ∧ (setTrace a0 a1 a2).isl = a2.isl ∧
    (setTrace a0 a1 a2).time = a2.time ∧ (setTrace a0 a1 a2).hubc = a2.hubc ∧ (setTrace a0 a1 a2).res = a2.res ∧
    (setTrace a0 a1 a2).dig = a2.dig ∧ (setTrace a0 a1 a2).ens = a2.ens ∧ (setTrace a0 a1 a2).casc = a2.casc ∧
    (setTrace a0 a1 a2).age = a2.age ∧ (setTrace a0 a1 a2).sb = a2.sb ∧ (setTrace a0 a1 a2).bc = a2.bc ∧
    (setTrace a0 a1 a2).jobs = a2.jobs ∧ (setTrace a0 a1 a2).mgt = a2.mgt ∧ (setTrace a0 a1 a2).cmd = a2.cmd ∧
    (setTrace a0 a1 a2).prot = a2.prot ∧ (setTrace a0 a1 a2).mem = a2.mem ∧ (setTrace a0 a1 a2).boot = a2.boot ∧
    (setTrace a0 a1 a2).img = a2.img ∧ (setTrace a0 a1 a2).reports = a2.reports ∧ (setTrace a0 a1 a2).nvPosted = a2.nvPosted ∧
    (∀ (c : Nat), Sys2Proof.Machine.hubc (setTrace a0 a1 a2) c = Sys2Proof.Machine.hubc a2 c) ∧ (∀ (x : Word), entity (setTrace a0 a1 a2) x = entity a2 x) ∧ (nowNs (setTrace a0 a1 a2) = nowNs a2 ) ∧
    (imgOf (setTrace a0 a1 a2) = imgOf a2 ) ∧ (serving (setTrace a0 a1 a2) = serving a2 ) ∧ (working (setTrace a0 a1 a2) = working a2 ) ∧
    (alive (setTrace a0 a1 a2) = alive a2 ) ∧ (upState (setTrace a0 a1 a2) = upState a2 ) ∧ (portOn (setTrace a0 a1 a2) = portOn a2 ) ∧
    (∀ (e : Env), dieNo e (setTrace a0 a1 a2) = dieNo e a2 ) ∧ (∀ (e : Env), nodeNo e (setTrace a0 a1 a2) = nodeNo e a2 ) ∧ (∀ (e : Env) (c : Nat), coreId e (setTrace a0 a1 a2) c = coreId e a2 c) ∧
    (∀ (e : Env) (c : Nat), unitId e (setTrace a0 a1 a2) c = unitId e a2 c) ∧ (∀ (c : Nat), chan (setTrace a0 a1 a2) c = chan a2 c) ∧ (∀ (x : Word), entOk (setTrace a0 a1 a2) x = entOk a2 x) ∧
    (∀ (c : Nat), groupOf (setTrace a0 a1 a2) c = groupOf a2 c) ∧ (∀ (c : Nat), probing (setTrace a0 a1 a2) c = probing a2 c) ∧ (∀ (e : Env) (x : Word), presentCore e (setTrace a0 a1 a2) x = presentCore e a2 x) := by
  have k := (setTrace_only a0 a1 a2).keep
  exact ⟨k .free (by decide), k .sys (by decide), k .isl (by decide), k .time (by decide), k .hubc (by decide), k .res (by decide), k .dig (by decide), k .ens (by decide), k .casc (by decide), k .age (by decide), k .sb (by decide), k .bc (by decide), k .jobs (by decide), k .mgt (by decide), k .cmd (by decide), k .prot (by decide), k .mem (by decide), k .boot (by decide), k .img (by decide), k .reports (by decide), k .nvm (by decide), fun c => hubc_congr (k .hubc (by decide)) c, fun x => entity_congr (k .casc (by decide)) x, nowNs_congr (k .time (by decide)), imgOf_congr (k .img (by decide)), serving_congr (k .sys (by decide)), working_congr (k .sys (by decide)), alive_congr (k .sys (by decide)), upState_congr (k .sys (by decide)), portOn_congr (k .sys (by decide)), fun e  => dieNo_congr e (k .img (by decide)), fun e  => nodeNo_congr e (k .img (by decide)), fun e c => coreId_congr e (k .img (by decide)) c, fun e c => unitId_congr e (k .img (by decide)) c, fun c => chan_congr (k .cmd (by decide)) c, fun x => entOk_congr (k .img (by decide)) x, fun c => groupOf_congr (k .img (by decide)) (k .jobs (by decide)) c, fun c => probing_congr (k .age (by decide)) c, fun e x => presentCore_congr e (k .img (by decide)) x⟩

@[simp] theorem releaseBuf_reads (a0 a1 a2) :
    (releaseBuf a0 a1 a2).free = a2.free ∧ (releaseBuf a0 a1 a2).sys = a2.sys ∧ (releaseBuf a0 a1 a2).isl = a2.isl ∧
    (releaseBuf a0 a1 a2).time = a2.time ∧ (releaseBuf a0 a1 a2).hubc = a2.hubc ∧ (releaseBuf a0 a1 a2).res = a2.res ∧
    (releaseBuf a0 a1 a2).dig = a2.dig ∧ (releaseBuf a0 a1 a2).ens = a2.ens ∧ (releaseBuf a0 a1 a2).casc = a2.casc ∧
    (releaseBuf a0 a1 a2).age = a2.age ∧ (releaseBuf a0 a1 a2).sb = a2.sb ∧ (releaseBuf a0 a1 a2).bc = a2.bc ∧
    (releaseBuf a0 a1 a2).jobs = a2.jobs ∧ (releaseBuf a0 a1 a2).mgt = a2.mgt ∧ (releaseBuf a0 a1 a2).cmd = a2.cmd ∧
    (releaseBuf a0 a1 a2).prot = a2.prot ∧ (releaseBuf a0 a1 a2).mem = a2.mem ∧ (releaseBuf a0 a1 a2).boot = a2.boot ∧
    (releaseBuf a0 a1 a2).img = a2.img ∧ (releaseBuf a0 a1 a2).reports = a2.reports ∧ (releaseBuf a0 a1 a2).nvPosted = a2.nvPosted ∧
    (∀ (c : Nat), Sys2Proof.Machine.hubc (releaseBuf a0 a1 a2) c = Sys2Proof.Machine.hubc a2 c) ∧ (∀ (x : Word), entity (releaseBuf a0 a1 a2) x = entity a2 x) ∧ (nowNs (releaseBuf a0 a1 a2) = nowNs a2 ) ∧
    (imgOf (releaseBuf a0 a1 a2) = imgOf a2 ) ∧ (serving (releaseBuf a0 a1 a2) = serving a2 ) ∧ (working (releaseBuf a0 a1 a2) = working a2 ) ∧
    (alive (releaseBuf a0 a1 a2) = alive a2 ) ∧ (upState (releaseBuf a0 a1 a2) = upState a2 ) ∧ (portOn (releaseBuf a0 a1 a2) = portOn a2 ) ∧
    (∀ (e : Env), dieNo e (releaseBuf a0 a1 a2) = dieNo e a2 ) ∧ (∀ (e : Env), nodeNo e (releaseBuf a0 a1 a2) = nodeNo e a2 ) ∧ (∀ (e : Env) (c : Nat), coreId e (releaseBuf a0 a1 a2) c = coreId e a2 c) ∧
    (∀ (e : Env) (c : Nat), unitId e (releaseBuf a0 a1 a2) c = unitId e a2 c) ∧ (∀ (c : Nat), chan (releaseBuf a0 a1 a2) c = chan a2 c) ∧ (∀ (x : Word), entOk (releaseBuf a0 a1 a2) x = entOk a2 x) ∧
    (∀ (c : Nat), groupOf (releaseBuf a0 a1 a2) c = groupOf a2 c) ∧ (∀ (c : Nat), probing (releaseBuf a0 a1 a2) c = probing a2 c) ∧ (∀ (e : Env) (x : Word), presentCore e (releaseBuf a0 a1 a2) x = presentCore e a2 x) := by
  have k := (releaseBuf_only a0 a1 a2).keep
  exact ⟨k .free (by decide), k .sys (by decide), k .isl (by decide), k .time (by decide), k .hubc (by decide), k .res (by decide), k .dig (by decide), k .ens (by decide), k .casc (by decide), k .age (by decide), k .sb (by decide), k .bc (by decide), k .jobs (by decide), k .mgt (by decide), k .cmd (by decide), k .prot (by decide), k .mem (by decide), k .boot (by decide), k .img (by decide), k .reports (by decide), k .nvm (by decide), fun c => hubc_congr (k .hubc (by decide)) c, fun x => entity_congr (k .casc (by decide)) x, nowNs_congr (k .time (by decide)), imgOf_congr (k .img (by decide)), serving_congr (k .sys (by decide)), working_congr (k .sys (by decide)), alive_congr (k .sys (by decide)), upState_congr (k .sys (by decide)), portOn_congr (k .sys (by decide)), fun e  => dieNo_congr e (k .img (by decide)), fun e  => nodeNo_congr e (k .img (by decide)), fun e c => coreId_congr e (k .img (by decide)) c, fun e c => unitId_congr e (k .img (by decide)) c, fun c => chan_congr (k .cmd (by decide)) c, fun x => entOk_congr (k .img (by decide)) x, fun c => groupOf_congr (k .img (by decide)) (k .jobs (by decide)) c, fun c => probing_congr (k .age (by decide)) c, fun e x => presentCore_congr e (k .img (by decide)) x⟩

@[simp] theorem sinkOne_reads (a0) :
    (sinkOne a0).free = a0.free ∧ (sinkOne a0).sys = a0.sys ∧ (sinkOne a0).isl = a0.isl ∧
    (sinkOne a0).time = a0.time ∧ (sinkOne a0).regions = a0.regions ∧ (sinkOne a0).cells = a0.cells ∧
    (sinkOne a0).hubc = a0.hubc ∧ (sinkOne a0).res = a0.res ∧ (sinkOne a0).dig = a0.dig ∧
    (sinkOne a0).ens = a0.ens ∧ (sinkOne a0).casc = a0.casc ∧ (sinkOne a0).age = a0.age ∧
    (sinkOne a0).sb = a0.sb ∧ (sinkOne a0).bc = a0.bc ∧ (sinkOne a0).jobs = a0.jobs ∧
    (sinkOne a0).mgt = a0.mgt ∧ (sinkOne a0).cmd = a0.cmd ∧ (sinkOne a0).prot = a0.prot ∧
    (sinkOne a0).mem = a0.mem ∧ (sinkOne a0).nid = a0.nid ∧ (sinkOne a0).boot = a0.boot ∧
    (sinkOne a0).img = a0.img ∧ (sinkOne a0).reports = a0.reports ∧ (sinkOne a0).nvPosted = a0.nvPosted ∧
    (∀ (c : Nat), cell (sinkOne a0) c = cell a0 c) ∧ (∀ (c : Nat), Sys2Proof.Machine.hubc (sinkOne a0) c = Sys2Proof.Machine.hubc a0 c) ∧ (∀ (c : Nat), region (sinkOne a0) c = region a0 c) ∧
    (∀ (x : Word), entity (sinkOne a0) x = entity a0 x) ∧ (nowNs (sinkOne a0) = nowNs a0 ) ∧ (imgOf (sinkOne a0) = imgOf a0 ) ∧
    (serving (sinkOne a0) = serving a0 ) ∧ (working (sinkOne a0) = working a0 ) ∧ (alive (sinkOne a0) = alive a0 ) ∧
    (upState (sinkOne a0) = upState a0 ) ∧ (portOn (sinkOne a0) = portOn a0 ) ∧ (∀ (e : Env), dieNo e (sinkOne a0) = dieNo e a0 ) ∧
    (∀ (e : Env), nodeNo e (sinkOne a0) = nodeNo e a0 ) ∧ (∀ (e : Env) (c : Nat), coreId e (sinkOne a0) c = coreId e a0 c) ∧ (∀ (e : Env) (c : Nat), unitId e (sinkOne a0) c = unitId e a0 c) ∧
    (∀ (c : Nat), chan (sinkOne a0) c = chan a0 c) ∧ (∀ (x : Word), entOk (sinkOne a0) x = entOk a0 x) ∧ (∀ (c : Nat), groupOf (sinkOne a0) c = groupOf a0 c) ∧
    (∀ (c : Nat), probing (sinkOne a0) c = probing a0 c) ∧ (∀ (e : Env) (x : Word), presentCore e (sinkOne a0) x = presentCore e a0 x) := by
  have k := (sinkOne_only a0).keep
  exact ⟨k .free (by decide), k .sys (by decide), k .isl (by decide), k .time (by decide), k .regions (by decide), k .cells (by decide), k .hubc (by decide), k .res (by decide), k .dig (by decide), k .ens (by decide), k .casc (by decide), k .age (by decide), k .sb (by decide), k .bc (by decide), k .jobs (by decide), k .mgt (by decide), k .cmd (by decide), k .prot (by decide), k .mem (by decide), k .nid (by decide), k .boot (by decide), k .img (by decide), k .reports (by decide), k .nvm (by decide), fun c => cell_congr (k .cells (by decide)) c, fun c => hubc_congr (k .hubc (by decide)) c, fun c => region_congr (k .regions (by decide)) c, fun x => entity_congr (k .casc (by decide)) x, nowNs_congr (k .time (by decide)), imgOf_congr (k .img (by decide)), serving_congr (k .sys (by decide)), working_congr (k .sys (by decide)), alive_congr (k .sys (by decide)), upState_congr (k .sys (by decide)), portOn_congr (k .sys (by decide)), fun e  => dieNo_congr e (k .img (by decide)), fun e  => nodeNo_congr e (k .img (by decide)), fun e c => coreId_congr e (k .img (by decide)) c, fun e c => unitId_congr e (k .img (by decide)) c, fun c => chan_congr (k .cmd (by decide)) c, fun x => entOk_congr (k .img (by decide)) x, fun c => groupOf_congr (k .img (by decide)) (k .jobs (by decide)) c, fun c => probing_congr (k .age (by decide)) c, fun e x => presentCore_congr e (k .img (by decide)) x⟩

@[simp] theorem compressOne_reads (a0) :
    (compressOne a0).free = a0.free ∧ (compressOne a0).sys = a0.sys ∧ (compressOne a0).isl = a0.isl ∧
    (compressOne a0).time = a0.time ∧ (compressOne a0).regions = a0.regions ∧ (compressOne a0).cells = a0.cells ∧
    (compressOne a0).hubc = a0.hubc ∧ (compressOne a0).res = a0.res ∧ (compressOne a0).dig = a0.dig ∧
    (compressOne a0).xs = a0.xs ∧ (compressOne a0).ens = a0.ens ∧ (compressOne a0).casc = a0.casc ∧
    (compressOne a0).age = a0.age ∧ (compressOne a0).fab = a0.fab ∧ (compressOne a0).sb = a0.sb ∧
    (compressOne a0).bc = a0.bc ∧ (compressOne a0).jobs = a0.jobs ∧ (compressOne a0).mgt = a0.mgt ∧
    (compressOne a0).cmd = a0.cmd ∧ (compressOne a0).prot = a0.prot ∧ (compressOne a0).regs = a0.regs ∧
    (compressOne a0).mem = a0.mem ∧ (compressOne a0).dma = a0.dma ∧ (compressOne a0).log = a0.log ∧
    (compressOne a0).boot = a0.boot ∧ (compressOne a0).img = a0.img ∧ (compressOne a0).reports = a0.reports ∧
    (compressOne a0).posted = a0.posted ∧ (compressOne a0).nvPosted = a0.nvPosted ∧ (∀ (c : Nat), cell (compressOne a0) c = cell a0 c) ∧
    (∀ (c : Nat), Sys2Proof.Machine.hubc (compressOne a0) c = Sys2Proof.Machine.hubc a0 c) ∧ (∀ (c : Nat), region (compressOne a0) c = region a0 c) ∧ (∀ (x : Word), entity (compressOne a0) x = entity a0 x) ∧
    (nowNs (compressOne a0) = nowNs a0 ) ∧ (imgOf (compressOne a0) = imgOf a0 ) ∧ (serving (compressOne a0) = serving a0 ) ∧
    (working (compressOne a0) = working a0 ) ∧ (alive (compressOne a0) = alive a0 ) ∧ (upState (compressOne a0) = upState a0 ) ∧
    (portOn (compressOne a0) = portOn a0 ) ∧ (∀ (e : Env), dieNo e (compressOne a0) = dieNo e a0 ) ∧ (∀ (e : Env), nodeNo e (compressOne a0) = nodeNo e a0 ) ∧
    (∀ (e : Env) (c : Nat), coreId e (compressOne a0) c = coreId e a0 c) ∧ (∀ (e : Env) (c : Nat), unitId e (compressOne a0) c = unitId e a0 c) ∧ (∀ (c : Nat), chan (compressOne a0) c = chan a0 c) ∧
    (∀ (x : Word), entOk (compressOne a0) x = entOk a0 x) ∧ (∀ (c : Nat), groupOf (compressOne a0) c = groupOf a0 c) ∧ (∀ (c : Nat), probing (compressOne a0) c = probing a0 c) ∧
    (∀ (e : Env) (x : Word), presentCore e (compressOne a0) x = presentCore e a0 x) := by
  have k := (compressOne_only a0).keep
  exact ⟨k .free (by decide), k .sys (by decide), k .isl (by decide), k .time (by decide), k .regions (by decide), k .cells (by decide), k .hubc (by decide), k .res (by decide), k .dig (by decide), k .xs (by decide), k .ens (by decide), k .casc (by decide), k .age (by decide), k .fab (by decide), k .sb (by decide), k .bc (by decide), k .jobs (by decide), k .mgt (by decide), k .cmd (by decide), k .prot (by decide), k .regs (by decide), k .mem (by decide), k .dma (by decide), k .log (by decide), k .boot (by decide), k .img (by decide), k .reports (by decide), k .ram (by decide), k .nvm (by decide), fun c => cell_congr (k .cells (by decide)) c, fun c => hubc_congr (k .hubc (by decide)) c, fun c => region_congr (k .regions (by decide)) c, fun x => entity_congr (k .casc (by decide)) x, nowNs_congr (k .time (by decide)), imgOf_congr (k .img (by decide)), serving_congr (k .sys (by decide)), working_congr (k .sys (by decide)), alive_congr (k .sys (by decide)), upState_congr (k .sys (by decide)), portOn_congr (k .sys (by decide)), fun e  => dieNo_congr e (k .img (by decide)), fun e  => nodeNo_congr e (k .img (by decide)), fun e c => coreId_congr e (k .img (by decide)) c, fun e c => unitId_congr e (k .img (by decide)) c, fun c => chan_congr (k .cmd (by decide)) c, fun x => entOk_congr (k .img (by decide)) x, fun c => groupOf_congr (k .img (by decide)) (k .jobs (by decide)) c, fun c => probing_congr (k .age (by decide)) c, fun e x => presentCore_congr e (k .img (by decide)) x⟩

@[simp] theorem trigger_reads (a0 a1 a2) :
    (trigger a0 a1 a2).free = a2.free ∧ (trigger a0 a1 a2).sys = a2.sys ∧ (trigger a0 a1 a2).isl = a2.isl ∧
    (trigger a0 a1 a2).time = a2.time ∧ (trigger a0 a1 a2).hubc = a2.hubc ∧ (trigger a0 a1 a2).res = a2.res ∧
    (trigger a0 a1 a2).dig = a2.dig ∧ (trigger a0 a1 a2).xs = a2.xs ∧ (trigger a0 a1 a2).ens = a2.ens ∧
    (trigger a0 a1 a2).casc = a2.casc ∧ (trigger a0 a1 a2).age = a2.age ∧ (trigger a0 a1 a2).fab = a2.fab ∧
    (trigger a0 a1 a2).sb = a2.sb ∧ (trigger a0 a1 a2).bc = a2.bc ∧ (trigger a0 a1 a2).jobs = a2.jobs ∧
    (trigger a0 a1 a2).mgt = a2.mgt ∧ (trigger a0 a1 a2).cmd = a2.cmd ∧ (trigger a0 a1 a2).prot = a2.prot ∧
    (trigger a0 a1 a2).mem = a2.mem ∧ (trigger a0 a1 a2).dma = a2.dma ∧ (trigger a0 a1 a2).nid = a2.nid ∧
    (trigger a0 a1 a2).log = a2.log ∧ (trigger a0 a1 a2).boot = a2.boot ∧ (trigger a0 a1 a2).img = a2.img ∧
    (trigger a0 a1 a2).reports = a2.reports ∧ (trigger a0 a1 a2).posted = a2.posted ∧ (trigger a0 a1 a2).nvPosted = a2.nvPosted ∧
    (∀ (c : Nat), Sys2Proof.Machine.hubc (trigger a0 a1 a2) c = Sys2Proof.Machine.hubc a2 c) ∧ (∀ (x : Word), entity (trigger a0 a1 a2) x = entity a2 x) ∧ (nowNs (trigger a0 a1 a2) = nowNs a2 ) ∧
    (imgOf (trigger a0 a1 a2) = imgOf a2 ) ∧ (serving (trigger a0 a1 a2) = serving a2 ) ∧ (working (trigger a0 a1 a2) = working a2 ) ∧
    (alive (trigger a0 a1 a2) = alive a2 ) ∧ (upState (trigger a0 a1 a2) = upState a2 ) ∧ (portOn (trigger a0 a1 a2) = portOn a2 ) ∧
    (∀ (e : Env), dieNo e (trigger a0 a1 a2) = dieNo e a2 ) ∧ (∀ (e : Env), nodeNo e (trigger a0 a1 a2) = nodeNo e a2 ) ∧ (∀ (e : Env) (c : Nat), coreId e (trigger a0 a1 a2) c = coreId e a2 c) ∧
    (∀ (e : Env) (c : Nat), unitId e (trigger a0 a1 a2) c = unitId e a2 c) ∧ (∀ (c : Nat), chan (trigger a0 a1 a2) c = chan a2 c) ∧ (∀ (x : Word), entOk (trigger a0 a1 a2) x = entOk a2 x) ∧
    (∀ (c : Nat), groupOf (trigger a0 a1 a2) c = groupOf a2 c) ∧ (∀ (c : Nat), probing (trigger a0 a1 a2) c = probing a2 c) ∧ (∀ (e : Env) (x : Word), presentCore e (trigger a0 a1 a2) x = presentCore e a2 x) := by
  have k := (trigger_only a0 a1 a2).keep
  exact ⟨k .free (by decide), k .sys (by decide), k .isl (by decide), k .time (by decide), k .hubc (by decide), k .res (by decide), k .dig (by decide), k .xs (by decide), k .ens (by decide), k .casc (by decide), k .age (by decide), k .fab (by decide), k .sb (by decide), k .bc (by decide), k .jobs (by decide), k .mgt (by decide), k .cmd (by decide), k .prot (by decide), k .mem (by decide), k .dma (by decide), k .nid (by decide), k .log (by decide), k .boot (by decide), k .img (by decide), k .reports (by decide), k .ram (by decide), k .nvm (by decide), fun c => hubc_congr (k .hubc (by decide)) c, fun x => entity_congr (k .casc (by decide)) x, nowNs_congr (k .time (by decide)), imgOf_congr (k .img (by decide)), serving_congr (k .sys (by decide)), working_congr (k .sys (by decide)), alive_congr (k .sys (by decide)), upState_congr (k .sys (by decide)), portOn_congr (k .sys (by decide)), fun e  => dieNo_congr e (k .img (by decide)), fun e  => nodeNo_congr e (k .img (by decide)), fun e c => coreId_congr e (k .img (by decide)) c, fun e c => unitId_congr e (k .img (by decide)) c, fun c => chan_congr (k .cmd (by decide)) c, fun x => entOk_congr (k .img (by decide)) x, fun c => groupOf_congr (k .img (by decide)) (k .jobs (by decide)) c, fun c => probing_congr (k .age (by decide)) c, fun e x => presentCore_congr e (k .img (by decide)) x⟩

@[simp] theorem featWrites_reads (a0 a1 a2 a3 a4) :
    (featWrites a0 a1 a2 a3 a4).free = a4.free ∧ (featWrites a0 a1 a2 a3 a4).sys = a4.sys ∧ (featWrites a0 a1 a2 a3 a4).isl = a4.isl ∧
    (featWrites a0 a1 a2 a3 a4).time = a4.time ∧ (featWrites a0 a1 a2 a3 a4).regions = a4.regions ∧ (featWrites a0 a1 a2 a3 a4).cells = a4.cells ∧
    (featWrites a0 a1 a2 a3 a4).hubc = a4.hubc ∧ (featWrites a0 a1 a2 a3 a4).res = a4.res ∧ (featWrites a0 a1 a2 a3 a4).dig = a4.dig ∧
    (featWrites a0 a1 a2 a3 a4).xs = a4.xs ∧ (featWrites a0 a1 a2 a3 a4).casc = a4.casc ∧ (featWrites a0 a1 a2 a3 a4).age = a4.age ∧
    (featWrites a0 a1 a2 a3 a4).fab = a4.fab ∧ (featWrites a0 a1 a2 a3 a4).sb = a4.sb ∧ (featWrites a0 a1 a2 a3 a4).bc = a4.bc ∧
    (featWrites a0 a1 a2 a3 a4).jobs = a4.jobs ∧ (featWrites a0 a1 a2 a3 a4).mgt = a4.mgt ∧ (featWrites a0 a1 a2 a3 a4).cmd = a4.cmd ∧
    (featWrites a0 a1 a2 a3 a4).prot = a4.prot ∧ (featWrites a0 a1 a2 a3 a4).dma = a4.dma ∧ (featWrites a0 a1 a2 a3 a4).trc = a4.trc ∧
    (featWrites a0 a1 a2 a3 a4).nid = a4.nid ∧ (featWrites a0 a1 a2 a3 a4).boot = a4.boot ∧ (featWrites a0 a1 a2 a3 a4).img = a4.img ∧
    (featWrites a0 a1 a2 a3 a4).reports = a4.reports ∧ (featWrites a0 a1 a2 a3 a4).posted = a4.posted ∧ (featWrites a0 a1 a2 a3 a4).nvPosted = a4.nvPosted ∧
    (∀ (c : Nat), cell (featWrites a0 a1 a2 a3 a4) c = cell a4 c) ∧ (∀ (c : Nat), Sys2Proof.Machine.hubc (featWrites a0 a1 a2 a3 a4) c = Sys2Proof.Machine.hubc a4 c) ∧ (∀ (c : Nat), region (featWrites a0 a1 a2 a3 a4) c = region a4 c) ∧
    (∀ (x : Word), entity (featWrites a0 a1 a2 a3 a4) x = entity a4 x) ∧ (nowNs (featWrites a0 a1 a2 a3 a4) = nowNs a4 ) ∧ (imgOf (featWrites a0 a1 a2 a3 a4) = imgOf a4 ) ∧
    (serving (featWrites a0 a1 a2 a3 a4) = serving a4 ) ∧ (working (featWrites a0 a1 a2 a3 a4) = working a4 ) ∧ (alive (featWrites a0 a1 a2 a3 a4) = alive a4 ) ∧
    (upState (featWrites a0 a1 a2 a3 a4) = upState a4 ) ∧ (portOn (featWrites a0 a1 a2 a3 a4) = portOn a4 ) ∧ (∀ (e : Env), dieNo e (featWrites a0 a1 a2 a3 a4) = dieNo e a4 ) ∧
    (∀ (e : Env), nodeNo e (featWrites a0 a1 a2 a3 a4) = nodeNo e a4 ) ∧ (∀ (e : Env) (c : Nat), coreId e (featWrites a0 a1 a2 a3 a4) c = coreId e a4 c) ∧ (∀ (e : Env) (c : Nat), unitId e (featWrites a0 a1 a2 a3 a4) c = unitId e a4 c) ∧
    (∀ (c : Nat), chan (featWrites a0 a1 a2 a3 a4) c = chan a4 c) ∧ (∀ (x : Word), entOk (featWrites a0 a1 a2 a3 a4) x = entOk a4 x) ∧ (∀ (c : Nat), groupOf (featWrites a0 a1 a2 a3 a4) c = groupOf a4 c) ∧
    (∀ (c : Nat), probing (featWrites a0 a1 a2 a3 a4) c = probing a4 c) ∧ (∀ (e : Env) (x : Word), presentCore e (featWrites a0 a1 a2 a3 a4) x = presentCore e a4 x) := by
  have k := (featWrites_only a0 a1 a2 a3 a4).keep
  exact ⟨k .free (by decide), k .sys (by decide), k .isl (by decide), k .time (by decide), k .regions (by decide), k .cells (by decide), k .hubc (by decide), k .res (by decide), k .dig (by decide), k .xs (by decide), k .casc (by decide), k .age (by decide), k .fab (by decide), k .sb (by decide), k .bc (by decide), k .jobs (by decide), k .mgt (by decide), k .cmd (by decide), k .prot (by decide), k .dma (by decide), k .trc (by decide), k .nid (by decide), k .boot (by decide), k .img (by decide), k .reports (by decide), k .ram (by decide), k .nvm (by decide), fun c => cell_congr (k .cells (by decide)) c, fun c => hubc_congr (k .hubc (by decide)) c, fun c => region_congr (k .regions (by decide)) c, fun x => entity_congr (k .casc (by decide)) x, nowNs_congr (k .time (by decide)), imgOf_congr (k .img (by decide)), serving_congr (k .sys (by decide)), working_congr (k .sys (by decide)), alive_congr (k .sys (by decide)), upState_congr (k .sys (by decide)), portOn_congr (k .sys (by decide)), fun e  => dieNo_congr e (k .img (by decide)), fun e  => nodeNo_congr e (k .img (by decide)), fun e c => coreId_congr e (k .img (by decide)) c, fun e c => unitId_congr e (k .img (by decide)) c, fun c => chan_congr (k .cmd (by decide)) c, fun x => entOk_congr (k .img (by decide)) x, fun c => groupOf_congr (k .img (by decide)) (k .jobs (by decide)) c, fun c => probing_congr (k .age (by decide)) c, fun e x => presentCore_congr e (k .img (by decide)) x⟩

@[simp] theorem regionFigures_reads (a0 a1 a2) :
    (regionFigures a0 a1 a2).free = a2.free ∧ (regionFigures a0 a1 a2).sys = a2.sys ∧ (regionFigures a0 a1 a2).isl = a2.isl ∧
    (regionFigures a0 a1 a2).time = a2.time ∧ (regionFigures a0 a1 a2).cells = a2.cells ∧ (regionFigures a0 a1 a2).hubc = a2.hubc ∧
    (regionFigures a0 a1 a2).res = a2.res ∧ (regionFigures a0 a1 a2).dig = a2.dig ∧ (regionFigures a0 a1 a2).xs = a2.xs ∧
    (regionFigures a0 a1 a2).casc = a2.casc ∧ (regionFigures a0 a1 a2).fab = a2.fab ∧ (regionFigures a0 a1 a2).sb = a2.sb ∧
    (regionFigures a0 a1 a2).bc = a2.bc ∧ (regionFigures a0 a1 a2).jobs = a2.jobs ∧ (regionFigures a0 a1 a2).mgt = a2.mgt ∧
    (regionFigures a0 a1 a2).cmd = a2.cmd ∧ (regionFigures a0 a1 a2).prot = a2.prot ∧ (regionFigures a0 a1 a2).dma = a2.dma ∧
    (regionFigures a0 a1 a2).trc = a2.trc ∧ (regionFigures a0 a1 a2).nid = a2.nid ∧ (regionFigures a0 a1 a2).boot = a2.boot ∧
    (regionFigures a0 a1 a2).img = a2.img ∧ (regionFigures a0 a1 a2).reports = a2.reports ∧ (regionFigures a0 a1 a2).posted = a2.posted ∧
    (regionFigures a0 a1 a2).nvPosted = a2.nvPosted ∧ (∀ (c : Nat), cell (regionFigures a0 a1 a2) c = cell a2 c) ∧ (∀ (c : Nat), Sys2Proof.Machine.hubc (regionFigures a0 a1 a2) c = Sys2Proof.Machine.hubc a2 c) ∧
    (∀ (x : Word), entity (regionFigures a0 a1 a2) x = entity a2 x) ∧ (nowNs (regionFigures a0 a1 a2) = nowNs a2 ) ∧ (imgOf (regionFigures a0 a1 a2) = imgOf a2 ) ∧
    (serving (regionFigures a0 a1 a2) = serving a2 ) ∧ (working (regionFigures a0 a1 a2) = working a2 ) ∧ (alive (regionFigures a0 a1 a2) = alive a2 ) ∧
    (upState (regionFigures a0 a1 a2) = upState a2 ) ∧ (portOn (regionFigures a0 a1 a2) = portOn a2 ) ∧ (∀ (e : Env), dieNo e (regionFigures a0 a1 a2) = dieNo e a2 ) ∧
    (∀ (e : Env), nodeNo e (regionFigures a0 a1 a2) = nodeNo e a2 ) ∧ (∀ (e : Env) (c : Nat), coreId e (regionFigures a0 a1 a2) c = coreId e a2 c) ∧ (∀ (e : Env) (c : Nat), unitId e (regionFigures a0 a1 a2) c = unitId e a2 c) ∧
    (∀ (c : Nat), chan (regionFigures a0 a1 a2) c = chan a2 c) ∧ (∀ (x : Word), entOk (regionFigures a0 a1 a2) x = entOk a2 x) ∧ (∀ (c : Nat), groupOf (regionFigures a0 a1 a2) c = groupOf a2 c) ∧
    (∀ (e : Env) (x : Word), presentCore e (regionFigures a0 a1 a2) x = presentCore e a2 x) := by
  have k := (regionFigures_only a0 a1 a2).keep
  exact ⟨k .free (by decide), k .sys (by decide), k .isl (by decide), k .time (by decide), k .cells (by decide), k .hubc (by decide), k .res (by decide), k .dig (by decide), k .xs (by decide), k .casc (by decide), k .fab (by decide), k .sb (by decide), k .bc (by decide), k .jobs (by decide), k .mgt (by decide), k .cmd (by decide), k .prot (by decide), k .dma (by decide), k .trc (by decide), k .nid (by decide), k .boot (by decide), k .img (by decide), k .reports (by decide), k .ram (by decide), k .nvm (by decide), fun c => cell_congr (k .cells (by decide)) c, fun c => hubc_congr (k .hubc (by decide)) c, fun x => entity_congr (k .casc (by decide)) x, nowNs_congr (k .time (by decide)), imgOf_congr (k .img (by decide)), serving_congr (k .sys (by decide)), working_congr (k .sys (by decide)), alive_congr (k .sys (by decide)), upState_congr (k .sys (by decide)), portOn_congr (k .sys (by decide)), fun e  => dieNo_congr e (k .img (by decide)), fun e  => nodeNo_congr e (k .img (by decide)), fun e c => coreId_congr e (k .img (by decide)) c, fun e c => unitId_congr e (k .img (by decide)) c, fun c => chan_congr (k .cmd (by decide)) c, fun x => entOk_congr (k .img (by decide)) x, fun c => groupOf_congr (k .img (by decide)) (k .jobs (by decide)) c, fun e x => presentCore_congr e (k .img (by decide)) x⟩

@[simp] theorem coreCounts_reads (a0 a1 a2) :
    (coreCounts a0 a1 a2).free = a2.free ∧ (coreCounts a0 a1 a2).sys = a2.sys ∧ (coreCounts a0 a1 a2).isl = a2.isl ∧
    (coreCounts a0 a1 a2).time = a2.time ∧ (coreCounts a0 a1 a2).regions = a2.regions ∧ (coreCounts a0 a1 a2).cells = a2.cells ∧
    (coreCounts a0 a1 a2).hubc = a2.hubc ∧ (coreCounts a0 a1 a2).res = a2.res ∧ (coreCounts a0 a1 a2).dig = a2.dig ∧
    (coreCounts a0 a1 a2).xs = a2.xs ∧ (coreCounts a0 a1 a2).casc = a2.casc ∧ (coreCounts a0 a1 a2).age = a2.age ∧
    (coreCounts a0 a1 a2).fab = a2.fab ∧ (coreCounts a0 a1 a2).sb = a2.sb ∧ (coreCounts a0 a1 a2).bc = a2.bc ∧
    (coreCounts a0 a1 a2).jobs = a2.jobs ∧ (coreCounts a0 a1 a2).mgt = a2.mgt ∧ (coreCounts a0 a1 a2).cmd = a2.cmd ∧
    (coreCounts a0 a1 a2).prot = a2.prot ∧ (coreCounts a0 a1 a2).dma = a2.dma ∧ (coreCounts a0 a1 a2).trc = a2.trc ∧
    (coreCounts a0 a1 a2).nid = a2.nid ∧ (coreCounts a0 a1 a2).boot = a2.boot ∧ (coreCounts a0 a1 a2).img = a2.img ∧
    (coreCounts a0 a1 a2).reports = a2.reports ∧ (coreCounts a0 a1 a2).posted = a2.posted ∧ (coreCounts a0 a1 a2).nvPosted = a2.nvPosted ∧
    (∀ (c : Nat), cell (coreCounts a0 a1 a2) c = cell a2 c) ∧ (∀ (c : Nat), Sys2Proof.Machine.hubc (coreCounts a0 a1 a2) c = Sys2Proof.Machine.hubc a2 c) ∧ (∀ (c : Nat), region (coreCounts a0 a1 a2) c = region a2 c) ∧
    (∀ (x : Word), entity (coreCounts a0 a1 a2) x = entity a2 x) ∧ (nowNs (coreCounts a0 a1 a2) = nowNs a2 ) ∧ (imgOf (coreCounts a0 a1 a2) = imgOf a2 ) ∧
    (serving (coreCounts a0 a1 a2) = serving a2 ) ∧ (working (coreCounts a0 a1 a2) = working a2 ) ∧ (alive (coreCounts a0 a1 a2) = alive a2 ) ∧
    (upState (coreCounts a0 a1 a2) = upState a2 ) ∧ (portOn (coreCounts a0 a1 a2) = portOn a2 ) ∧ (∀ (e : Env), dieNo e (coreCounts a0 a1 a2) = dieNo e a2 ) ∧
    (∀ (e : Env), nodeNo e (coreCounts a0 a1 a2) = nodeNo e a2 ) ∧ (∀ (e : Env) (c : Nat), coreId e (coreCounts a0 a1 a2) c = coreId e a2 c) ∧ (∀ (e : Env) (c : Nat), unitId e (coreCounts a0 a1 a2) c = unitId e a2 c) ∧
    (∀ (c : Nat), chan (coreCounts a0 a1 a2) c = chan a2 c) ∧ (∀ (x : Word), entOk (coreCounts a0 a1 a2) x = entOk a2 x) ∧ (∀ (c : Nat), groupOf (coreCounts a0 a1 a2) c = groupOf a2 c) ∧
    (∀ (c : Nat), probing (coreCounts a0 a1 a2) c = probing a2 c) ∧ (∀ (e : Env) (x : Word), presentCore e (coreCounts a0 a1 a2) x = presentCore e a2 x) := by
  have k := (coreCounts_only a0 a1 a2).keep
  exact ⟨k .free (by decide), k .sys (by decide), k .isl (by decide), k .time (by decide), k .regions (by decide), k .cells (by decide), k .hubc (by decide), k .res (by decide), k .dig (by decide), k .xs (by decide), k .casc (by decide), k .age (by decide), k .fab (by decide), k .sb (by decide), k .bc (by decide), k .jobs (by decide), k .mgt (by decide), k .cmd (by decide), k .prot (by decide), k .dma (by decide), k .trc (by decide), k .nid (by decide), k .boot (by decide), k .img (by decide), k .reports (by decide), k .ram (by decide), k .nvm (by decide), fun c => cell_congr (k .cells (by decide)) c, fun c => hubc_congr (k .hubc (by decide)) c, fun c => region_congr (k .regions (by decide)) c, fun x => entity_congr (k .casc (by decide)) x, nowNs_congr (k .time (by decide)), imgOf_congr (k .img (by decide)), serving_congr (k .sys (by decide)), working_congr (k .sys (by decide)), alive_congr (k .sys (by decide)), upState_congr (k .sys (by decide)), portOn_congr (k .sys (by decide)), fun e  => dieNo_congr e (k .img (by decide)), fun e  => nodeNo_congr e (k .img (by decide)), fun e c => coreId_congr e (k .img (by decide)) c, fun e c => unitId_congr e (k .img (by decide)) c, fun c => chan_congr (k .cmd (by decide)) c, fun x => entOk_congr (k .img (by decide)) x, fun c => groupOf_congr (k .img (by decide)) (k .jobs (by decide)) c, fun c => probing_congr (k .age (by decide)) c, fun e x => presentCore_congr e (k .img (by decide)) x⟩

@[simp] theorem linkFeatures_reads (a0 a1) :
    (linkFeatures a0 a1).free = a1.free ∧ (linkFeatures a0 a1).sys = a1.sys ∧ (linkFeatures a0 a1).isl = a1.isl ∧
    (linkFeatures a0 a1).time = a1.time ∧ (linkFeatures a0 a1).regions = a1.regions ∧ (linkFeatures a0 a1).cells = a1.cells ∧
    (linkFeatures a0 a1).hubc = a1.hubc ∧ (linkFeatures a0 a1).res = a1.res ∧ (linkFeatures a0 a1).xs = a1.xs ∧
    (linkFeatures a0 a1).casc = a1.casc ∧ (linkFeatures a0 a1).age = a1.age ∧ (linkFeatures a0 a1).fab = a1.fab ∧
    (linkFeatures a0 a1).sb = a1.sb ∧ (linkFeatures a0 a1).bc = a1.bc ∧ (linkFeatures a0 a1).jobs = a1.jobs ∧
    (linkFeatures a0 a1).mgt = a1.mgt ∧ (linkFeatures a0 a1).cmd = a1.cmd ∧ (linkFeatures a0 a1).prot = a1.prot ∧
    (linkFeatures a0 a1).dma = a1.dma ∧ (linkFeatures a0 a1).trc = a1.trc ∧ (linkFeatures a0 a1).nid = a1.nid ∧
    (linkFeatures a0 a1).boot = a1.boot ∧ (linkFeatures a0 a1).img = a1.img ∧ (linkFeatures a0 a1).reports = a1.reports ∧
    (linkFeatures a0 a1).posted = a1.posted ∧ (linkFeatures a0 a1).nvPosted = a1.nvPosted ∧ (∀ (c : Nat), cell (linkFeatures a0 a1) c = cell a1 c) ∧
    (∀ (c : Nat), Sys2Proof.Machine.hubc (linkFeatures a0 a1) c = Sys2Proof.Machine.hubc a1 c) ∧ (∀ (c : Nat), region (linkFeatures a0 a1) c = region a1 c) ∧ (∀ (x : Word), entity (linkFeatures a0 a1) x = entity a1 x) ∧
    (nowNs (linkFeatures a0 a1) = nowNs a1 ) ∧ (imgOf (linkFeatures a0 a1) = imgOf a1 ) ∧ (serving (linkFeatures a0 a1) = serving a1 ) ∧
    (working (linkFeatures a0 a1) = working a1 ) ∧ (alive (linkFeatures a0 a1) = alive a1 ) ∧ (upState (linkFeatures a0 a1) = upState a1 ) ∧
    (portOn (linkFeatures a0 a1) = portOn a1 ) ∧ (∀ (e : Env), dieNo e (linkFeatures a0 a1) = dieNo e a1 ) ∧ (∀ (e : Env), nodeNo e (linkFeatures a0 a1) = nodeNo e a1 ) ∧
    (∀ (e : Env) (c : Nat), coreId e (linkFeatures a0 a1) c = coreId e a1 c) ∧ (∀ (e : Env) (c : Nat), unitId e (linkFeatures a0 a1) c = unitId e a1 c) ∧ (∀ (c : Nat), chan (linkFeatures a0 a1) c = chan a1 c) ∧
    (∀ (x : Word), entOk (linkFeatures a0 a1) x = entOk a1 x) ∧ (∀ (c : Nat), groupOf (linkFeatures a0 a1) c = groupOf a1 c) ∧ (∀ (c : Nat), probing (linkFeatures a0 a1) c = probing a1 c) ∧
    (∀ (e : Env) (x : Word), presentCore e (linkFeatures a0 a1) x = presentCore e a1 x) := by
  have k := (linkFeatures_only a0 a1).keep
  exact ⟨k .free (by decide), k .sys (by decide), k .isl (by decide), k .time (by decide), k .regions (by decide), k .cells (by decide), k .hubc (by decide), k .res (by decide), k .xs (by decide), k .casc (by decide), k .age (by decide), k .fab (by decide), k .sb (by decide), k .bc (by decide), k .jobs (by decide), k .mgt (by decide), k .cmd (by decide), k .prot (by decide), k .dma (by decide), k .trc (by decide), k .nid (by decide), k .boot (by decide), k .img (by decide), k .reports (by decide), k .ram (by decide), k .nvm (by decide), fun c => cell_congr (k .cells (by decide)) c, fun c => hubc_congr (k .hubc (by decide)) c, fun c => region_congr (k .regions (by decide)) c, fun x => entity_congr (k .casc (by decide)) x, nowNs_congr (k .time (by decide)), imgOf_congr (k .img (by decide)), serving_congr (k .sys (by decide)), working_congr (k .sys (by decide)), alive_congr (k .sys (by decide)), upState_congr (k .sys (by decide)), portOn_congr (k .sys (by decide)), fun e  => dieNo_congr e (k .img (by decide)), fun e  => nodeNo_congr e (k .img (by decide)), fun e c => coreId_congr e (k .img (by decide)) c, fun e c => unitId_congr e (k .img (by decide)) c, fun c => chan_congr (k .cmd (by decide)) c, fun x => entOk_congr (k .img (by decide)) x, fun c => groupOf_congr (k .img (by decide)) (k .jobs (by decide)) c, fun c => probing_congr (k .age (by decide)) c, fun e x => presentCore_congr e (k .img (by decide)) x⟩

@[simp] theorem busyRatios_reads (a0 a1) :
    (busyRatios a0 a1).free = a1.free ∧ (busyRatios a0 a1).sys = a1.sys ∧ (busyRatios a0 a1).isl = a1.isl ∧
    (busyRatios a0 a1).time = a1.time ∧ (busyRatios a0 a1).regions = a1.regions ∧ (busyRatios a0 a1).cells = a1.cells ∧
    (busyRatios a0 a1).hubc = a1.hubc ∧ (busyRatios a0 a1).res = a1.res ∧ (busyRatios a0 a1).dig = a1.dig ∧
    (busyRatios a0 a1).xs = a1.xs ∧ (busyRatios a0 a1).casc = a1.casc ∧ (busyRatios a0 a1).age = a1.age ∧
    (busyRatios a0 a1).fab = a1.fab ∧ (busyRatios a0 a1).sb = a1.sb ∧ (busyRatios a0 a1).bc = a1.bc ∧
    (busyRatios a0 a1).jobs = a1.jobs ∧ (busyRatios a0 a1).mgt = a1.mgt ∧ (busyRatios a0 a1).cmd = a1.cmd ∧
    (busyRatios a0 a1).prot = a1.prot ∧ (busyRatios a0 a1).dma = a1.dma ∧ (busyRatios a0 a1).trc = a1.trc ∧
    (busyRatios a0 a1).nid = a1.nid ∧ (busyRatios a0 a1).boot = a1.boot ∧ (busyRatios a0 a1).img = a1.img ∧
    (busyRatios a0 a1).reports = a1.reports ∧ (busyRatios a0 a1).posted = a1.posted ∧ (busyRatios a0 a1).nvPosted = a1.nvPosted ∧
    (∀ (c : Nat), cell (busyRatios a0 a1) c = cell a1 c) ∧ (∀ (c : Nat), Sys2Proof.Machine.hubc (busyRatios a0 a1) c = Sys2Proof.Machine.hubc a1 c) ∧ (∀ (c : Nat), region (busyRatios a0 a1) c = region a1 c) ∧
    (∀ (x : Word), entity (busyRatios a0 a1) x = entity a1 x) ∧ (nowNs (busyRatios a0 a1) = nowNs a1 ) ∧ (imgOf (busyRatios a0 a1) = imgOf a1 ) ∧
    (serving (busyRatios a0 a1) = serving a1 ) ∧ (working (busyRatios a0 a1) = working a1 ) ∧ (alive (busyRatios a0 a1) = alive a1 ) ∧
    (upState (busyRatios a0 a1) = upState a1 ) ∧ (portOn (busyRatios a0 a1) = portOn a1 ) ∧ (∀ (e : Env), dieNo e (busyRatios a0 a1) = dieNo e a1 ) ∧
    (∀ (e : Env), nodeNo e (busyRatios a0 a1) = nodeNo e a1 ) ∧ (∀ (e : Env) (c : Nat), coreId e (busyRatios a0 a1) c = coreId e a1 c) ∧ (∀ (e : Env) (c : Nat), unitId e (busyRatios a0 a1) c = unitId e a1 c) ∧
    (∀ (c : Nat), chan (busyRatios a0 a1) c = chan a1 c) ∧ (∀ (x : Word), entOk (busyRatios a0 a1) x = entOk a1 x) ∧ (∀ (c : Nat), groupOf (busyRatios a0 a1) c = groupOf a1 c) ∧
    (∀ (c : Nat), probing (busyRatios a0 a1) c = probing a1 c) ∧ (∀ (e : Env) (x : Word), presentCore e (busyRatios a0 a1) x = presentCore e a1 x) := by
  have k := (busyRatios_only a0 a1).keep
  exact ⟨k .free (by decide), k .sys (by decide), k .isl (by decide), k .time (by decide), k .regions (by decide), k .cells (by decide), k .hubc (by decide), k .res (by decide), k .dig (by decide), k .xs (by decide), k .casc (by decide), k .age (by decide), k .fab (by decide), k .sb (by decide), k .bc (by decide), k .jobs (by decide), k .mgt (by decide), k .cmd (by decide), k .prot (by decide), k .dma (by decide), k .trc (by decide), k .nid (by decide), k .boot (by decide), k .img (by decide), k .reports (by decide), k .ram (by decide), k .nvm (by decide), fun c => cell_congr (k .cells (by decide)) c, fun c => hubc_congr (k .hubc (by decide)) c, fun c => region_congr (k .regions (by decide)) c, fun x => entity_congr (k .casc (by decide)) x, nowNs_congr (k .time (by decide)), imgOf_congr (k .img (by decide)), serving_congr (k .sys (by decide)), working_congr (k .sys (by decide)), alive_congr (k .sys (by decide)), upState_congr (k .sys (by decide)), portOn_congr (k .sys (by decide)), fun e  => dieNo_congr e (k .img (by decide)), fun e  => nodeNo_congr e (k .img (by decide)), fun e c => coreId_congr e (k .img (by decide)) c, fun e c => unitId_congr e (k .img (by decide)) c, fun c => chan_congr (k .cmd (by decide)) c, fun x => entOk_congr (k .img (by decide)) x, fun c => groupOf_congr (k .img (by decide)) (k .jobs (by decide)) c, fun c => probing_congr (k .age (by decide)) c, fun e x => presentCore_congr e (k .img (by decide)) x⟩

@[simp] theorem memberVerdict_reads (a0 a1 a2 a3) :
    (memberVerdict a0 a1 a2 a3).free = a3.free ∧ (memberVerdict a0 a1 a2 a3).sys = a3.sys ∧ (memberVerdict a0 a1 a2 a3).isl = a3.isl ∧
    (memberVerdict a0 a1 a2 a3).time = a3.time ∧ (memberVerdict a0 a1 a2 a3).regions = a3.regions ∧ (memberVerdict a0 a1 a2 a3).cells = a3.cells ∧
    (memberVerdict a0 a1 a2 a3).hubc = a3.hubc ∧ (memberVerdict a0 a1 a2 a3).res = a3.res ∧ (memberVerdict a0 a1 a2 a3).dig = a3.dig ∧
    (memberVerdict a0 a1 a2 a3).xs = a3.xs ∧ (memberVerdict a0 a1 a2 a3).ens = a3.ens ∧ (memberVerdict a0 a1 a2 a3).casc = a3.casc ∧
    (memberVerdict a0 a1 a2 a3).age = a3.age ∧ (memberVerdict a0 a1 a2 a3).fab = a3.fab ∧ (memberVerdict a0 a1 a2 a3).bc = a3.bc ∧
    (memberVerdict a0 a1 a2 a3).jobs = a3.jobs ∧ (memberVerdict a0 a1 a2 a3).mgt = a3.mgt ∧ (memberVerdict a0 a1 a2 a3).cmd = a3.cmd ∧
    (memberVerdict a0 a1 a2 a3).prot = a3.prot ∧ (memberVerdict a0 a1 a2 a3).regs = a3.regs ∧ (memberVerdict a0 a1 a2 a3).mem = a3.mem ∧
    (memberVerdict a0 a1 a2 a3).dma = a3.dma ∧ (memberVerdict a0 a1 a2 a3).trc = a3.trc ∧ (memberVerdict a0 a1 a2 a3).nid = a3.nid ∧
    (memberVerdict a0 a1 a2 a3).log = a3.log ∧ (memberVerdict a0 a1 a2 a3).boot = a3.boot ∧ (memberVerdict a0 a1 a2 a3).img = a3.img ∧
    (memberVerdict a0 a1 a2 a3).reports = a3.reports ∧ (memberVerdict a0 a1 a2 a3).posted = a3.posted ∧ (memberVerdict a0 a1 a2 a3).nvPosted = a3.nvPosted ∧
    (∀ (c : Nat), cell (memberVerdict a0 a1 a2 a3) c = cell a3 c) ∧ (∀ (c : Nat), Sys2Proof.Machine.hubc (memberVerdict a0 a1 a2 a3) c = Sys2Proof.Machine.hubc a3 c) ∧ (∀ (c : Nat), region (memberVerdict a0 a1 a2 a3) c = region a3 c) ∧
    (∀ (x : Word), entity (memberVerdict a0 a1 a2 a3) x = entity a3 x) ∧ (nowNs (memberVerdict a0 a1 a2 a3) = nowNs a3 ) ∧ (imgOf (memberVerdict a0 a1 a2 a3) = imgOf a3 ) ∧
    (serving (memberVerdict a0 a1 a2 a3) = serving a3 ) ∧ (working (memberVerdict a0 a1 a2 a3) = working a3 ) ∧ (alive (memberVerdict a0 a1 a2 a3) = alive a3 ) ∧
    (upState (memberVerdict a0 a1 a2 a3) = upState a3 ) ∧ (portOn (memberVerdict a0 a1 a2 a3) = portOn a3 ) ∧ (∀ (e : Env), dieNo e (memberVerdict a0 a1 a2 a3) = dieNo e a3 ) ∧
    (∀ (e : Env), nodeNo e (memberVerdict a0 a1 a2 a3) = nodeNo e a3 ) ∧ (∀ (e : Env) (c : Nat), coreId e (memberVerdict a0 a1 a2 a3) c = coreId e a3 c) ∧ (∀ (e : Env) (c : Nat), unitId e (memberVerdict a0 a1 a2 a3) c = unitId e a3 c) ∧
    (∀ (c : Nat), chan (memberVerdict a0 a1 a2 a3) c = chan a3 c) ∧ (∀ (x : Word), entOk (memberVerdict a0 a1 a2 a3) x = entOk a3 x) ∧ (∀ (c : Nat), groupOf (memberVerdict a0 a1 a2 a3) c = groupOf a3 c) ∧
    (∀ (c : Nat), probing (memberVerdict a0 a1 a2 a3) c = probing a3 c) ∧ (∀ (e : Env) (x : Word), presentCore e (memberVerdict a0 a1 a2 a3) x = presentCore e a3 x) := by
  have k := (memberVerdict_only a0 a1 a2 a3).keep
  exact ⟨k .free (by decide), k .sys (by decide), k .isl (by decide), k .time (by decide), k .regions (by decide), k .cells (by decide), k .hubc (by decide), k .res (by decide), k .dig (by decide), k .xs (by decide), k .ens (by decide), k .casc (by decide), k .age (by decide), k .fab (by decide), k .bc (by decide), k .jobs (by decide), k .mgt (by decide), k .cmd (by decide), k .prot (by decide), k .regs (by decide), k .mem (by decide), k .dma (by decide), k .trc (by decide), k .nid (by decide), k .log (by decide), k .boot (by decide), k .img (by decide), k .reports (by decide), k .ram (by decide), k .nvm (by decide), fun c => cell_congr (k .cells (by decide)) c, fun c => hubc_congr (k .hubc (by decide)) c, fun c => region_congr (k .regions (by decide)) c, fun x => entity_congr (k .casc (by decide)) x, nowNs_congr (k .time (by decide)), imgOf_congr (k .img (by decide)), serving_congr (k .sys (by decide)), working_congr (k .sys (by decide)), alive_congr (k .sys (by decide)), upState_congr (k .sys (by decide)), portOn_congr (k .sys (by decide)), fun e  => dieNo_congr e (k .img (by decide)), fun e  => nodeNo_congr e (k .img (by decide)), fun e c => coreId_congr e (k .img (by decide)) c, fun e c => unitId_congr e (k .img (by decide)) c, fun c => chan_congr (k .cmd (by decide)) c, fun x => entOk_congr (k .img (by decide)) x, fun c => groupOf_congr (k .img (by decide)) (k .jobs (by decide)) c, fun c => probing_congr (k .age (by decide)) c, fun e x => presentCore_congr e (k .img (by decide)) x⟩

@[simp] theorem countRemoval_reads (a0 a1) :
    (countRemoval a0 a1).free = a1.free ∧ (countRemoval a0 a1).sys = a1.sys ∧ (countRemoval a0 a1).time = a1.time ∧
    (countRemoval a0 a1).regions = a1.regions ∧ (countRemoval a0 a1).cells = a1.cells ∧ (countRemoval a0 a1).hubc = a1.hubc ∧
    (countRemoval a0 a1).res = a1.res ∧ (countRemoval a0 a1).dig = a1.dig ∧ (countRemoval a0 a1).xs = a1.xs ∧
    (countRemoval a0 a1).ens = a1.ens ∧ (countRemoval a0 a1).casc = a1.casc ∧ (countRemoval a0 a1).age = a1.age ∧
    (countRemoval a0 a1).fab = a1.fab ∧ (countRemoval a0 a1).sb = a1.sb ∧ (countRemoval a0 a1).bc = a1.bc ∧
    (countRemoval a0 a1).jobs = a1.jobs ∧ (countRemoval a0 a1).mgt = a1.mgt ∧ (countRemoval a0 a1).cmd = a1.cmd ∧
    (countRemoval a0 a1).prot = a1.prot ∧ (countRemoval a0 a1).regs = a1.regs ∧ (countRemoval a0 a1).mem = a1.mem ∧
    (countRemoval a0 a1).dma = a1.dma ∧ (countRemoval a0 a1).trc = a1.trc ∧ (countRemoval a0 a1).nid = a1.nid ∧
    (countRemoval a0 a1).log = a1.log ∧ (countRemoval a0 a1).boot = a1.boot ∧ (countRemoval a0 a1).img = a1.img ∧
    (countRemoval a0 a1).reports = a1.reports ∧ (countRemoval a0 a1).posted = a1.posted ∧ (countRemoval a0 a1).nvPosted = a1.nvPosted ∧
    (∀ (c : Nat), cell (countRemoval a0 a1) c = cell a1 c) ∧ (∀ (c : Nat), Sys2Proof.Machine.hubc (countRemoval a0 a1) c = Sys2Proof.Machine.hubc a1 c) ∧ (∀ (c : Nat), region (countRemoval a0 a1) c = region a1 c) ∧
    (∀ (x : Word), entity (countRemoval a0 a1) x = entity a1 x) ∧ (nowNs (countRemoval a0 a1) = nowNs a1 ) ∧ (imgOf (countRemoval a0 a1) = imgOf a1 ) ∧
    (serving (countRemoval a0 a1) = serving a1 ) ∧ (working (countRemoval a0 a1) = working a1 ) ∧ (alive (countRemoval a0 a1) = alive a1 ) ∧
    (upState (countRemoval a0 a1) = upState a1 ) ∧ (portOn (countRemoval a0 a1) = portOn a1 ) ∧ (∀ (e : Env), dieNo e (countRemoval a0 a1) = dieNo e a1 ) ∧
    (∀ (e : Env), nodeNo e (countRemoval a0 a1) = nodeNo e a1 ) ∧ (∀ (e : Env) (c : Nat), coreId e (countRemoval a0 a1) c = coreId e a1 c) ∧ (∀ (e : Env) (c : Nat), unitId e (countRemoval a0 a1) c = unitId e a1 c) ∧
    (∀ (c : Nat), chan (countRemoval a0 a1) c = chan a1 c) ∧ (∀ (x : Word), entOk (countRemoval a0 a1) x = entOk a1 x) ∧ (∀ (c : Nat), groupOf (countRemoval a0 a1) c = groupOf a1 c) ∧
    (∀ (c : Nat), probing (countRemoval a0 a1) c = probing a1 c) ∧ (∀ (e : Env) (x : Word), presentCore e (countRemoval a0 a1) x = presentCore e a1 x) := by
  have k := (countRemoval_only a0 a1).keep
  exact ⟨k .free (by decide), k .sys (by decide), k .time (by decide), k .regions (by decide), k .cells (by decide), k .hubc (by decide), k .res (by decide), k .dig (by decide), k .xs (by decide), k .ens (by decide), k .casc (by decide), k .age (by decide), k .fab (by decide), k .sb (by decide), k .bc (by decide), k .jobs (by decide), k .mgt (by decide), k .cmd (by decide), k .prot (by decide), k .regs (by decide), k .mem (by decide), k .dma (by decide), k .trc (by decide), k .nid (by decide), k .log (by decide), k .boot (by decide), k .img (by decide), k .reports (by decide), k .ram (by decide), k .nvm (by decide), fun c => cell_congr (k .cells (by decide)) c, fun c => hubc_congr (k .hubc (by decide)) c, fun c => region_congr (k .regions (by decide)) c, fun x => entity_congr (k .casc (by decide)) x, nowNs_congr (k .time (by decide)), imgOf_congr (k .img (by decide)), serving_congr (k .sys (by decide)), working_congr (k .sys (by decide)), alive_congr (k .sys (by decide)), upState_congr (k .sys (by decide)), portOn_congr (k .sys (by decide)), fun e  => dieNo_congr e (k .img (by decide)), fun e  => nodeNo_congr e (k .img (by decide)), fun e c => coreId_congr e (k .img (by decide)) c, fun e c => unitId_congr e (k .img (by decide)) c, fun c => chan_congr (k .cmd (by decide)) c, fun x => entOk_congr (k .img (by decide)) x, fun c => groupOf_congr (k .img (by decide)) (k .jobs (by decide)) c, fun c => probing_congr (k .age (by decide)) c, fun e x => presentCore_congr e (k .img (by decide)) x⟩

@[simp] theorem refreshHold_reads (a0 a1 a2) :
    (refreshHold a0 a1 a2).free = a2.free ∧ (refreshHold a0 a1 a2).sys = a2.sys ∧ (refreshHold a0 a1 a2).isl = a2.isl ∧
    (refreshHold a0 a1 a2).time = a2.time ∧ (refreshHold a0 a1 a2).res = a2.res ∧ (refreshHold a0 a1 a2).dig = a2.dig ∧
    (refreshHold a0 a1 a2).xs = a2.xs ∧ (refreshHold a0 a1 a2).ens = a2.ens ∧ (refreshHold a0 a1 a2).casc = a2.casc ∧
    (refreshHold a0 a1 a2).age = a2.age ∧ (refreshHold a0 a1 a2).fab = a2.fab ∧ (refreshHold a0 a1 a2).sb = a2.sb ∧
    (refreshHold a0 a1 a2).bc = a2.bc ∧ (refreshHold a0 a1 a2).jobs = a2.jobs ∧ (refreshHold a0 a1 a2).mgt = a2.mgt ∧
    (refreshHold a0 a1 a2).cmd = a2.cmd ∧ (refreshHold a0 a1 a2).prot = a2.prot ∧ (refreshHold a0 a1 a2).regs = a2.regs ∧
    (refreshHold a0 a1 a2).mem = a2.mem ∧ (refreshHold a0 a1 a2).dma = a2.dma ∧ (refreshHold a0 a1 a2).trc = a2.trc ∧
    (refreshHold a0 a1 a2).nid = a2.nid ∧ (refreshHold a0 a1 a2).log = a2.log ∧ (refreshHold a0 a1 a2).boot = a2.boot ∧
    (refreshHold a0 a1 a2).img = a2.img ∧ (refreshHold a0 a1 a2).reports = a2.reports ∧ (refreshHold a0 a1 a2).posted = a2.posted ∧
    (refreshHold a0 a1 a2).nvPosted = a2.nvPosted ∧ (∀ (x : Word), entity (refreshHold a0 a1 a2) x = entity a2 x) ∧ (nowNs (refreshHold a0 a1 a2) = nowNs a2 ) ∧
    (imgOf (refreshHold a0 a1 a2) = imgOf a2 ) ∧ (serving (refreshHold a0 a1 a2) = serving a2 ) ∧ (working (refreshHold a0 a1 a2) = working a2 ) ∧
    (alive (refreshHold a0 a1 a2) = alive a2 ) ∧ (upState (refreshHold a0 a1 a2) = upState a2 ) ∧ (portOn (refreshHold a0 a1 a2) = portOn a2 ) ∧
    (∀ (e : Env), dieNo e (refreshHold a0 a1 a2) = dieNo e a2 ) ∧ (∀ (e : Env), nodeNo e (refreshHold a0 a1 a2) = nodeNo e a2 ) ∧ (∀ (e : Env) (c : Nat), coreId e (refreshHold a0 a1 a2) c = coreId e a2 c) ∧
    (∀ (e : Env) (c : Nat), unitId e (refreshHold a0 a1 a2) c = unitId e a2 c) ∧ (∀ (c : Nat), chan (refreshHold a0 a1 a2) c = chan a2 c) ∧ (∀ (x : Word), entOk (refreshHold a0 a1 a2) x = entOk a2 x) ∧
    (∀ (c : Nat), groupOf (refreshHold a0 a1 a2) c = groupOf a2 c) ∧ (∀ (c : Nat), probing (refreshHold a0 a1 a2) c = probing a2 c) ∧ (∀ (e : Env) (x : Word), presentCore e (refreshHold a0 a1 a2) x = presentCore e a2 x) := by
  have k := (refreshHold_only a0 a1 a2).keep
  exact ⟨k .free (by decide), k .sys (by decide), k .isl (by decide), k .time (by decide), k .res (by decide), k .dig (by decide), k .xs (by decide), k .ens (by decide), k .casc (by decide), k .age (by decide), k .fab (by decide), k .sb (by decide), k .bc (by decide), k .jobs (by decide), k .mgt (by decide), k .cmd (by decide), k .prot (by decide), k .regs (by decide), k .mem (by decide), k .dma (by decide), k .trc (by decide), k .nid (by decide), k .log (by decide), k .boot (by decide), k .img (by decide), k .reports (by decide), k .ram (by decide), k .nvm (by decide), fun x => entity_congr (k .casc (by decide)) x, nowNs_congr (k .time (by decide)), imgOf_congr (k .img (by decide)), serving_congr (k .sys (by decide)), working_congr (k .sys (by decide)), alive_congr (k .sys (by decide)), upState_congr (k .sys (by decide)), portOn_congr (k .sys (by decide)), fun e  => dieNo_congr e (k .img (by decide)), fun e  => nodeNo_congr e (k .img (by decide)), fun e c => coreId_congr e (k .img (by decide)) c, fun e c => unitId_congr e (k .img (by decide)) c, fun c => chan_congr (k .cmd (by decide)) c, fun x => entOk_congr (k .img (by decide)) x, fun c => groupOf_congr (k .img (by decide)) (k .jobs (by decide)) c, fun c => probing_congr (k .age (by decide)) c, fun e x => presentCore_congr e (k .img (by decide)) x⟩

@[simp] theorem refreshHolds_reads (a0 a1 a2) :
    (refreshHolds a0 a1 a2).free = a2.free ∧ (refreshHolds a0 a1 a2).sys = a2.sys ∧ (refreshHolds a0 a1 a2).isl = a2.isl ∧
    (refreshHolds a0 a1 a2).time = a2.time ∧ (refreshHolds a0 a1 a2).res = a2.res ∧ (refreshHolds a0 a1 a2).dig = a2.dig ∧
    (refreshHolds a0 a1 a2).xs = a2.xs ∧ (refreshHolds a0 a1 a2).ens = a2.ens ∧ (refreshHolds a0 a1 a2).casc = a2.casc ∧
    (refreshHolds a0 a1 a2).age = a2.age ∧ (refreshHolds a0 a1 a2).fab = a2.fab ∧ (refreshHolds a0 a1 a2).sb = a2.sb ∧
    (refreshHolds a0 a1 a2).bc = a2.bc ∧ (refreshHolds a0 a1 a2).jobs = a2.jobs ∧ (refreshHolds a0 a1 a2).mgt = a2.mgt ∧
    (refreshHolds a0 a1 a2).cmd = a2.cmd ∧ (refreshHolds a0 a1 a2).prot = a2.prot ∧ (refreshHolds a0 a1 a2).regs = a2.regs ∧
    (refreshHolds a0 a1 a2).mem = a2.mem ∧ (refreshHolds a0 a1 a2).dma = a2.dma ∧ (refreshHolds a0 a1 a2).trc = a2.trc ∧
    (refreshHolds a0 a1 a2).nid = a2.nid ∧ (refreshHolds a0 a1 a2).log = a2.log ∧ (refreshHolds a0 a1 a2).boot = a2.boot ∧
    (refreshHolds a0 a1 a2).img = a2.img ∧ (refreshHolds a0 a1 a2).reports = a2.reports ∧ (refreshHolds a0 a1 a2).posted = a2.posted ∧
    (refreshHolds a0 a1 a2).nvPosted = a2.nvPosted ∧ (∀ (x : Word), entity (refreshHolds a0 a1 a2) x = entity a2 x) ∧ (nowNs (refreshHolds a0 a1 a2) = nowNs a2 ) ∧
    (imgOf (refreshHolds a0 a1 a2) = imgOf a2 ) ∧ (serving (refreshHolds a0 a1 a2) = serving a2 ) ∧ (working (refreshHolds a0 a1 a2) = working a2 ) ∧
    (alive (refreshHolds a0 a1 a2) = alive a2 ) ∧ (upState (refreshHolds a0 a1 a2) = upState a2 ) ∧ (portOn (refreshHolds a0 a1 a2) = portOn a2 ) ∧
    (∀ (e : Env), dieNo e (refreshHolds a0 a1 a2) = dieNo e a2 ) ∧ (∀ (e : Env), nodeNo e (refreshHolds a0 a1 a2) = nodeNo e a2 ) ∧ (∀ (e : Env) (c : Nat), coreId e (refreshHolds a0 a1 a2) c = coreId e a2 c) ∧
    (∀ (e : Env) (c : Nat), unitId e (refreshHolds a0 a1 a2) c = unitId e a2 c) ∧ (∀ (c : Nat), chan (refreshHolds a0 a1 a2) c = chan a2 c) ∧ (∀ (x : Word), entOk (refreshHolds a0 a1 a2) x = entOk a2 x) ∧
    (∀ (c : Nat), groupOf (refreshHolds a0 a1 a2) c = groupOf a2 c) ∧ (∀ (c : Nat), probing (refreshHolds a0 a1 a2) c = probing a2 c) ∧ (∀ (e : Env) (x : Word), presentCore e (refreshHolds a0 a1 a2) x = presentCore e a2 x) := by
  have k := (refreshHolds_only a0 a1 a2).keep
  exact ⟨k .free (by decide), k .sys (by decide), k .isl (by decide), k .time (by decide), k .res (by decide), k .dig (by decide), k .xs (by decide), k .ens (by decide), k .casc (by decide), k .age (by decide), k .fab (by decide), k .sb (by decide), k .bc (by decide), k .jobs (by decide), k .mgt (by decide), k .cmd (by decide), k .prot (by decide), k .regs (by decide), k .mem (by decide), k .dma (by decide), k .trc (by decide), k .nid (by decide), k .log (by decide), k .boot (by decide), k .img (by decide), k .reports (by decide), k .ram (by decide), k .nvm (by decide), fun x => entity_congr (k .casc (by decide)) x, nowNs_congr (k .time (by decide)), imgOf_congr (k .img (by decide)), serving_congr (k .sys (by decide)), working_congr (k .sys (by decide)), alive_congr (k .sys (by decide)), upState_congr (k .sys (by decide)), portOn_congr (k .sys (by decide)), fun e  => dieNo_congr e (k .img (by decide)), fun e  => nodeNo_congr e (k .img (by decide)), fun e c => coreId_congr e (k .img (by decide)) c, fun e c => unitId_congr e (k .img (by decide)) c, fun c => chan_congr (k .cmd (by decide)) c, fun x => entOk_congr (k .img (by decide)) x, fun c => groupOf_congr (k .img (by decide)) (k .jobs (by decide)) c, fun c => probing_congr (k .age (by decide)) c, fun e x => presentCore_congr e (k .img (by decide)) x⟩

@[simp] theorem noteRemoved_reads (a0 a1 a2) :
    (noteRemoved a0 a1 a2).free = a2.free ∧ (noteRemoved a0 a1 a2).sys = a2.sys ∧ (noteRemoved a0 a1 a2).time = a2.time ∧
    (noteRemoved a0 a1 a2).regions = a2.regions ∧ (noteRemoved a0 a1 a2).cells = a2.cells ∧ (noteRemoved a0 a1 a2).hubc = a2.hubc ∧
    (noteRemoved a0 a1 a2).res = a2.res ∧ (noteRemoved a0 a1 a2).dig = a2.dig ∧ (noteRemoved a0 a1 a2).xs = a2.xs ∧
    (noteRemoved a0 a1 a2).ens = a2.ens ∧ (noteRemoved a0 a1 a2).casc = a2.casc ∧ (noteRemoved a0 a1 a2).age = a2.age ∧
    (noteRemoved a0 a1 a2).fab = a2.fab ∧ (noteRemoved a0 a1 a2).sb = a2.sb ∧ (noteRemoved a0 a1 a2).bc = a2.bc ∧
    (noteRemoved a0 a1 a2).jobs = a2.jobs ∧ (noteRemoved a0 a1 a2).mgt = a2.mgt ∧ (noteRemoved a0 a1 a2).cmd = a2.cmd ∧
    (noteRemoved a0 a1 a2).prot = a2.prot ∧ (noteRemoved a0 a1 a2).regs = a2.regs ∧ (noteRemoved a0 a1 a2).mem = a2.mem ∧
    (noteRemoved a0 a1 a2).dma = a2.dma ∧ (noteRemoved a0 a1 a2).trc = a2.trc ∧ (noteRemoved a0 a1 a2).nid = a2.nid ∧
    (noteRemoved a0 a1 a2).log = a2.log ∧ (noteRemoved a0 a1 a2).boot = a2.boot ∧ (noteRemoved a0 a1 a2).img = a2.img ∧
    (noteRemoved a0 a1 a2).reports = a2.reports ∧ (noteRemoved a0 a1 a2).posted = a2.posted ∧ (noteRemoved a0 a1 a2).nvPosted = a2.nvPosted ∧
    (∀ (c : Nat), cell (noteRemoved a0 a1 a2) c = cell a2 c) ∧ (∀ (c : Nat), Sys2Proof.Machine.hubc (noteRemoved a0 a1 a2) c = Sys2Proof.Machine.hubc a2 c) ∧ (∀ (c : Nat), region (noteRemoved a0 a1 a2) c = region a2 c) ∧
    (∀ (x : Word), entity (noteRemoved a0 a1 a2) x = entity a2 x) ∧ (nowNs (noteRemoved a0 a1 a2) = nowNs a2 ) ∧ (imgOf (noteRemoved a0 a1 a2) = imgOf a2 ) ∧
    (serving (noteRemoved a0 a1 a2) = serving a2 ) ∧ (working (noteRemoved a0 a1 a2) = working a2 ) ∧ (alive (noteRemoved a0 a1 a2) = alive a2 ) ∧
    (upState (noteRemoved a0 a1 a2) = upState a2 ) ∧ (portOn (noteRemoved a0 a1 a2) = portOn a2 ) ∧ (∀ (e : Env), dieNo e (noteRemoved a0 a1 a2) = dieNo e a2 ) ∧
    (∀ (e : Env), nodeNo e (noteRemoved a0 a1 a2) = nodeNo e a2 ) ∧ (∀ (e : Env) (c : Nat), coreId e (noteRemoved a0 a1 a2) c = coreId e a2 c) ∧ (∀ (e : Env) (c : Nat), unitId e (noteRemoved a0 a1 a2) c = unitId e a2 c) ∧
    (∀ (c : Nat), chan (noteRemoved a0 a1 a2) c = chan a2 c) ∧ (∀ (x : Word), entOk (noteRemoved a0 a1 a2) x = entOk a2 x) ∧ (∀ (c : Nat), groupOf (noteRemoved a0 a1 a2) c = groupOf a2 c) ∧
    (∀ (c : Nat), probing (noteRemoved a0 a1 a2) c = probing a2 c) ∧ (∀ (e : Env) (x : Word), presentCore e (noteRemoved a0 a1 a2) x = presentCore e a2 x) := by
  have k := (noteRemoved_only a0 a1 a2).keep
  exact ⟨k .free (by decide), k .sys (by decide), k .time (by decide), k .regions (by decide), k .cells (by decide), k .hubc (by decide), k .res (by decide), k .dig (by decide), k .xs (by decide), k .ens (by decide), k .casc (by decide), k .age (by decide), k .fab (by decide), k .sb (by decide), k .bc (by decide), k .jobs (by decide), k .mgt (by decide), k .cmd (by decide), k .prot (by decide), k .regs (by decide), k .mem (by decide), k .dma (by decide), k .trc (by decide), k .nid (by decide), k .log (by decide), k .boot (by decide), k .img (by decide), k .reports (by decide), k .ram (by decide), k .nvm (by decide), fun c => cell_congr (k .cells (by decide)) c, fun c => hubc_congr (k .hubc (by decide)) c, fun c => region_congr (k .regions (by decide)) c, fun x => entity_congr (k .casc (by decide)) x, nowNs_congr (k .time (by decide)), imgOf_congr (k .img (by decide)), serving_congr (k .sys (by decide)), working_congr (k .sys (by decide)), alive_congr (k .sys (by decide)), upState_congr (k .sys (by decide)), portOn_congr (k .sys (by decide)), fun e  => dieNo_congr e (k .img (by decide)), fun e  => nodeNo_congr e (k .img (by decide)), fun e c => coreId_congr e (k .img (by decide)) c, fun e c => unitId_congr e (k .img (by decide)) c, fun c => chan_congr (k .cmd (by decide)) c, fun x => entOk_congr (k .img (by decide)) x, fun c => groupOf_congr (k .img (by decide)) (k .jobs (by decide)) c, fun c => probing_congr (k .age (by decide)) c, fun e x => presentCore_congr e (k .img (by decide)) x⟩

@[simp] theorem closeProbe_reads (a0 a1 a2) :
    (closeProbe a0 a1 a2).free = a2.free ∧ (closeProbe a0 a1 a2).sys = a2.sys ∧ (closeProbe a0 a1 a2).isl = a2.isl ∧
    (closeProbe a0 a1 a2).time = a2.time ∧ (closeProbe a0 a1 a2).res = a2.res ∧ (closeProbe a0 a1 a2).dig = a2.dig ∧
    (closeProbe a0 a1 a2).xs = a2.xs ∧ (closeProbe a0 a1 a2).ens = a2.ens ∧ (closeProbe a0 a1 a2).casc = a2.casc ∧
    (closeProbe a0 a1 a2).fab = a2.fab ∧ (closeProbe a0 a1 a2).sb = a2.sb ∧ (closeProbe a0 a1 a2).bc = a2.bc ∧
    (closeProbe a0 a1 a2).jobs = a2.jobs ∧ (closeProbe a0 a1 a2).mgt = a2.mgt ∧ (closeProbe a0 a1 a2).cmd = a2.cmd ∧
    (closeProbe a0 a1 a2).prot = a2.prot ∧ (closeProbe a0 a1 a2).mem = a2.mem ∧ (closeProbe a0 a1 a2).dma = a2.dma ∧
    (closeProbe a0 a1 a2).trc = a2.trc ∧ (closeProbe a0 a1 a2).nid = a2.nid ∧ (closeProbe a0 a1 a2).boot = a2.boot ∧
    (closeProbe a0 a1 a2).img = a2.img ∧ (closeProbe a0 a1 a2).reports = a2.reports ∧ (closeProbe a0 a1 a2).posted = a2.posted ∧
    (closeProbe a0 a1 a2).nvPosted = a2.nvPosted ∧ (∀ (x : Word), entity (closeProbe a0 a1 a2) x = entity a2 x) ∧ (nowNs (closeProbe a0 a1 a2) = nowNs a2 ) ∧
    (imgOf (closeProbe a0 a1 a2) = imgOf a2 ) ∧ (serving (closeProbe a0 a1 a2) = serving a2 ) ∧ (working (closeProbe a0 a1 a2) = working a2 ) ∧
    (alive (closeProbe a0 a1 a2) = alive a2 ) ∧ (upState (closeProbe a0 a1 a2) = upState a2 ) ∧ (portOn (closeProbe a0 a1 a2) = portOn a2 ) ∧
    (∀ (e : Env), dieNo e (closeProbe a0 a1 a2) = dieNo e a2 ) ∧ (∀ (e : Env), nodeNo e (closeProbe a0 a1 a2) = nodeNo e a2 ) ∧ (∀ (e : Env) (c : Nat), coreId e (closeProbe a0 a1 a2) c = coreId e a2 c) ∧
    (∀ (e : Env) (c : Nat), unitId e (closeProbe a0 a1 a2) c = unitId e a2 c) ∧ (∀ (c : Nat), chan (closeProbe a0 a1 a2) c = chan a2 c) ∧ (∀ (x : Word), entOk (closeProbe a0 a1 a2) x = entOk a2 x) ∧
    (∀ (c : Nat), groupOf (closeProbe a0 a1 a2) c = groupOf a2 c) ∧ (∀ (e : Env) (x : Word), presentCore e (closeProbe a0 a1 a2) x = presentCore e a2 x) := by
  have k := (closeProbe_only a0 a1 a2).keep
  exact ⟨k .free (by decide), k .sys (by decide), k .isl (by decide), k .time (by decide), k .res (by decide), k .dig (by decide), k .xs (by decide), k .ens (by decide), k .casc (by decide), k .fab (by decide), k .sb (by decide), k .bc (by decide), k .jobs (by decide), k .mgt (by decide), k .cmd (by decide), k .prot (by decide), k .mem (by decide), k .dma (by decide), k .trc (by decide), k .nid (by decide), k .boot (by decide), k .img (by decide), k .reports (by decide), k .ram (by decide), k .nvm (by decide), fun x => entity_congr (k .casc (by decide)) x, nowNs_congr (k .time (by decide)), imgOf_congr (k .img (by decide)), serving_congr (k .sys (by decide)), working_congr (k .sys (by decide)), alive_congr (k .sys (by decide)), upState_congr (k .sys (by decide)), portOn_congr (k .sys (by decide)), fun e  => dieNo_congr e (k .img (by decide)), fun e  => nodeNo_congr e (k .img (by decide)), fun e c => coreId_congr e (k .img (by decide)) c, fun e c => unitId_congr e (k .img (by decide)) c, fun c => chan_congr (k .cmd (by decide)) c, fun x => entOk_congr (k .img (by decide)) x, fun c => groupOf_congr (k .img (by decide)) (k .jobs (by decide)) c, fun e x => presentCore_congr e (k .img (by decide)) x⟩

@[simp] theorem claimedProbes_reads (a0 a1) :
    (claimedProbes a0 a1).free = a1.free ∧ (claimedProbes a0 a1).sys = a1.sys ∧ (claimedProbes a0 a1).isl = a1.isl ∧
    (claimedProbes a0 a1).time = a1.time ∧ (claimedProbes a0 a1).res = a1.res ∧ (claimedProbes a0 a1).dig = a1.dig ∧
    (claimedProbes a0 a1).xs = a1.xs ∧ (claimedProbes a0 a1).ens = a1.ens ∧ (claimedProbes a0 a1).casc = a1.casc ∧
    (claimedProbes a0 a1).fab = a1.fab ∧ (claimedProbes a0 a1).sb = a1.sb ∧ (claimedProbes a0 a1).bc = a1.bc ∧
    (claimedProbes a0 a1).jobs = a1.jobs ∧ (claimedProbes a0 a1).mgt = a1.mgt ∧ (claimedProbes a0 a1).cmd = a1.cmd ∧
    (claimedProbes a0 a1).prot = a1.prot ∧ (claimedProbes a0 a1).mem = a1.mem ∧ (claimedProbes a0 a1).dma = a1.dma ∧
    (claimedProbes a0 a1).trc = a1.trc ∧ (claimedProbes a0 a1).nid = a1.nid ∧ (claimedProbes a0 a1).boot = a1.boot ∧
    (claimedProbes a0 a1).img = a1.img ∧ (claimedProbes a0 a1).reports = a1.reports ∧ (claimedProbes a0 a1).posted = a1.posted ∧
    (claimedProbes a0 a1).nvPosted = a1.nvPosted ∧ (∀ (x : Word), entity (claimedProbes a0 a1) x = entity a1 x) ∧ (nowNs (claimedProbes a0 a1) = nowNs a1 ) ∧
    (imgOf (claimedProbes a0 a1) = imgOf a1 ) ∧ (serving (claimedProbes a0 a1) = serving a1 ) ∧ (working (claimedProbes a0 a1) = working a1 ) ∧
    (alive (claimedProbes a0 a1) = alive a1 ) ∧ (upState (claimedProbes a0 a1) = upState a1 ) ∧ (portOn (claimedProbes a0 a1) = portOn a1 ) ∧
    (∀ (e : Env), dieNo e (claimedProbes a0 a1) = dieNo e a1 ) ∧ (∀ (e : Env), nodeNo e (claimedProbes a0 a1) = nodeNo e a1 ) ∧ (∀ (e : Env) (c : Nat), coreId e (claimedProbes a0 a1) c = coreId e a1 c) ∧
    (∀ (e : Env) (c : Nat), unitId e (claimedProbes a0 a1) c = unitId e a1 c) ∧ (∀ (c : Nat), chan (claimedProbes a0 a1) c = chan a1 c) ∧ (∀ (x : Word), entOk (claimedProbes a0 a1) x = entOk a1 x) ∧
    (∀ (c : Nat), groupOf (claimedProbes a0 a1) c = groupOf a1 c) ∧ (∀ (e : Env) (x : Word), presentCore e (claimedProbes a0 a1) x = presentCore e a1 x) := by
  have k := (claimedProbes_only a0 a1).keep
  exact ⟨k .free (by decide), k .sys (by decide), k .isl (by decide), k .time (by decide), k .res (by decide), k .dig (by decide), k .xs (by decide), k .ens (by decide), k .casc (by decide), k .fab (by decide), k .sb (by decide), k .bc (by decide), k .jobs (by decide), k .mgt (by decide), k .cmd (by decide), k .prot (by decide), k .mem (by decide), k .dma (by decide), k .trc (by decide), k .nid (by decide), k .boot (by decide), k .img (by decide), k .reports (by decide), k .ram (by decide), k .nvm (by decide), fun x => entity_congr (k .casc (by decide)) x, nowNs_congr (k .time (by decide)), imgOf_congr (k .img (by decide)), serving_congr (k .sys (by decide)), working_congr (k .sys (by decide)), alive_congr (k .sys (by decide)), upState_congr (k .sys (by decide)), portOn_congr (k .sys (by decide)), fun e  => dieNo_congr e (k .img (by decide)), fun e  => nodeNo_congr e (k .img (by decide)), fun e c => coreId_congr e (k .img (by decide)) c, fun e c => unitId_congr e (k .img (by decide)) c, fun c => chan_congr (k .cmd (by decide)) c, fun x => entOk_congr (k .img (by decide)) x, fun c => groupOf_congr (k .img (by decide)) (k .jobs (by decide)) c, fun e x => presentCore_congr e (k .img (by decide)) x⟩

@[simp] theorem latchExp_reads (a0 a1 a2) :
    (latchExp a0 a1 a2).free = a2.free ∧ (latchExp a0 a1 a2).sys = a2.sys ∧ (latchExp a0 a1 a2).isl = a2.isl ∧
    (latchExp a0 a1 a2).time = a2.time ∧ (latchExp a0 a1 a2).regions = a2.regions ∧ (latchExp a0 a1 a2).cells = a2.cells ∧
    (latchExp a0 a1 a2).res = a2.res ∧ (latchExp a0 a1 a2).dig = a2.dig ∧ (latchExp a0 a1 a2).xs = a2.xs ∧
    (latchExp a0 a1 a2).ens = a2.ens ∧ (latchExp a0 a1 a2).casc = a2.casc ∧ (latchExp a0 a1 a2).age = a2.age ∧
    (latchExp a0 a1 a2).fab = a2.fab ∧ (latchExp a0 a1 a2).sb = a2.sb ∧ (latchExp a0 a1 a2).bc = a2.bc ∧
    (latchExp a0 a1 a2).jobs = a2.jobs ∧ (latchExp a0 a1 a2).mgt = a2.mgt ∧ (latchExp a0 a1 a2).cmd = a2.cmd ∧
    (latchExp a0 a1 a2).prot = a2.prot ∧ (latchExp a0 a1 a2).regs = a2.regs ∧ (latchExp a0 a1 a2).mem = a2.mem ∧
    (latchExp a0 a1 a2).dma = a2.dma ∧ (latchExp a0 a1 a2).trc = a2.trc ∧ (latchExp a0 a1 a2).nid = a2.nid ∧
    (latchExp a0 a1 a2).log = a2.log ∧ (latchExp a0 a1 a2).boot = a2.boot ∧ (latchExp a0 a1 a2).img = a2.img ∧
    (latchExp a0 a1 a2).reports = a2.reports ∧ (latchExp a0 a1 a2).posted = a2.posted ∧ (latchExp a0 a1 a2).nvPosted = a2.nvPosted ∧
    (∀ (c : Nat), cell (latchExp a0 a1 a2) c = cell a2 c) ∧ (∀ (c : Nat), region (latchExp a0 a1 a2) c = region a2 c) ∧ (∀ (x : Word), entity (latchExp a0 a1 a2) x = entity a2 x) ∧
    (nowNs (latchExp a0 a1 a2) = nowNs a2 ) ∧ (imgOf (latchExp a0 a1 a2) = imgOf a2 ) ∧ (serving (latchExp a0 a1 a2) = serving a2 ) ∧
    (working (latchExp a0 a1 a2) = working a2 ) ∧ (alive (latchExp a0 a1 a2) = alive a2 ) ∧ (upState (latchExp a0 a1 a2) = upState a2 ) ∧
    (portOn (latchExp a0 a1 a2) = portOn a2 ) ∧ (∀ (e : Env), dieNo e (latchExp a0 a1 a2) = dieNo e a2 ) ∧ (∀ (e : Env), nodeNo e (latchExp a0 a1 a2) = nodeNo e a2 ) ∧
    (∀ (e : Env) (c : Nat), coreId e (latchExp a0 a1 a2) c = coreId e a2 c) ∧ (∀ (e : Env) (c : Nat), unitId e (latchExp a0 a1 a2) c = unitId e a2 c) ∧ (∀ (c : Nat), chan (latchExp a0 a1 a2) c = chan a2 c) ∧
    (∀ (x : Word), entOk (latchExp a0 a1 a2) x = entOk a2 x) ∧ (∀ (c : Nat), groupOf (latchExp a0 a1 a2) c = groupOf a2 c) ∧ (∀ (c : Nat), probing (latchExp a0 a1 a2) c = probing a2 c) ∧
    (∀ (e : Env) (x : Word), presentCore e (latchExp a0 a1 a2) x = presentCore e a2 x) := by
  have k := (latchExp_only a0 a1 a2).keep
  exact ⟨k .free (by decide), k .sys (by decide), k .isl (by decide), k .time (by decide), k .regions (by decide), k .cells (by decide), k .res (by decide), k .dig (by decide), k .xs (by decide), k .ens (by decide), k .casc (by decide), k .age (by decide), k .fab (by decide), k .sb (by decide), k .bc (by decide), k .jobs (by decide), k .mgt (by decide), k .cmd (by decide), k .prot (by decide), k .regs (by decide), k .mem (by decide), k .dma (by decide), k .trc (by decide), k .nid (by decide), k .log (by decide), k .boot (by decide), k .img (by decide), k .reports (by decide), k .ram (by decide), k .nvm (by decide), fun c => cell_congr (k .cells (by decide)) c, fun c => region_congr (k .regions (by decide)) c, fun x => entity_congr (k .casc (by decide)) x, nowNs_congr (k .time (by decide)), imgOf_congr (k .img (by decide)), serving_congr (k .sys (by decide)), working_congr (k .sys (by decide)), alive_congr (k .sys (by decide)), upState_congr (k .sys (by decide)), portOn_congr (k .sys (by decide)), fun e  => dieNo_congr e (k .img (by decide)), fun e  => nodeNo_congr e (k .img (by decide)), fun e c => coreId_congr e (k .img (by decide)) c, fun e c => unitId_congr e (k .img (by decide)) c, fun c => chan_congr (k .cmd (by decide)) c, fun x => entOk_congr (k .img (by decide)) x, fun c => groupOf_congr (k .img (by decide)) (k .jobs (by decide)) c, fun c => probing_congr (k .age (by decide)) c, fun e x => presentCore_congr e (k .img (by decide)) x⟩

@[simp] theorem endTest_reads (a0 a1 a2 a3) :
    (endTest a0 a1 a2 a3).free = a3.free ∧ (endTest a0 a1 a2 a3).sys = a3.sys ∧ (endTest a0 a1 a2 a3).time = a3.time ∧
    (endTest a0 a1 a2 a3).res = a3.res ∧ (endTest a0 a1 a2 a3).dig = a3.dig ∧ (endTest a0 a1 a2 a3).xs = a3.xs ∧
    (endTest a0 a1 a2 a3).ens = a3.ens ∧ (endTest a0 a1 a2 a3).fab = a3.fab ∧ (endTest a0 a1 a2 a3).bc = a3.bc ∧
    (endTest a0 a1 a2 a3).mgt = a3.mgt ∧ (endTest a0 a1 a2 a3).cmd = a3.cmd ∧ (endTest a0 a1 a2 a3).prot = a3.prot ∧
    (endTest a0 a1 a2 a3).mem = a3.mem ∧ (endTest a0 a1 a2 a3).dma = a3.dma ∧ (endTest a0 a1 a2 a3).nid = a3.nid ∧
    (endTest a0 a1 a2 a3).boot = a3.boot ∧ (endTest a0 a1 a2 a3).img = a3.img ∧ (endTest a0 a1 a2 a3).posted = a3.posted ∧
    (endTest a0 a1 a2 a3).nvPosted = a3.nvPosted ∧ (nowNs (endTest a0 a1 a2 a3) = nowNs a3 ) ∧ (imgOf (endTest a0 a1 a2 a3) = imgOf a3 ) ∧
    (serving (endTest a0 a1 a2 a3) = serving a3 ) ∧ (working (endTest a0 a1 a2 a3) = working a3 ) ∧ (alive (endTest a0 a1 a2 a3) = alive a3 ) ∧
    (upState (endTest a0 a1 a2 a3) = upState a3 ) ∧ (portOn (endTest a0 a1 a2 a3) = portOn a3 ) ∧ (∀ (e : Env), dieNo e (endTest a0 a1 a2 a3) = dieNo e a3 ) ∧
    (∀ (e : Env), nodeNo e (endTest a0 a1 a2 a3) = nodeNo e a3 ) ∧ (∀ (e : Env) (c : Nat), coreId e (endTest a0 a1 a2 a3) c = coreId e a3 c) ∧ (∀ (e : Env) (c : Nat), unitId e (endTest a0 a1 a2 a3) c = unitId e a3 c) ∧
    (∀ (c : Nat), chan (endTest a0 a1 a2 a3) c = chan a3 c) ∧ (∀ (x : Word), entOk (endTest a0 a1 a2 a3) x = entOk a3 x) ∧ (∀ (e : Env) (x : Word), presentCore e (endTest a0 a1 a2 a3) x = presentCore e a3 x) := by
  have k := (endTest_only a0 a1 a2 a3).keep
  exact ⟨k .free (by decide), k .sys (by decide), k .time (by decide), k .res (by decide), k .dig (by decide), k .xs (by decide), k .ens (by decide), k .fab (by decide), k .bc (by decide), k .mgt (by decide), k .cmd (by decide), k .prot (by decide), k .mem (by decide), k .dma (by decide), k .nid (by decide), k .boot (by decide), k .img (by decide), k .ram (by decide), k .nvm (by decide), nowNs_congr (k .time (by decide)), imgOf_congr (k .img (by decide)), serving_congr (k .sys (by decide)), working_congr (k .sys (by decide)), alive_congr (k .sys (by decide)), upState_congr (k .sys (by decide)), portOn_congr (k .sys (by decide)), fun e  => dieNo_congr e (k .img (by decide)), fun e  => nodeNo_congr e (k .img (by decide)), fun e c => coreId_congr e (k .img (by decide)) c, fun e c => unitId_congr e (k .img (by decide)) c, fun c => chan_congr (k .cmd (by decide)) c, fun x => entOk_congr (k .img (by decide)) x, fun e x => presentCore_congr e (k .img (by decide)) x⟩

@[simp] theorem abortTest_reads (a0 a1 a2) :
    (abortTest a0 a1 a2).free = a2.free ∧ (abortTest a0 a1 a2).sys = a2.sys ∧ (abortTest a0 a1 a2).isl = a2.isl ∧
    (abortTest a0 a1 a2).time = a2.time ∧ (abortTest a0 a1 a2).res = a2.res ∧ (abortTest a0 a1 a2).dig = a2.dig ∧
    (abortTest a0 a1 a2).xs = a2.xs ∧ (abortTest a0 a1 a2).ens = a2.ens ∧ (abortTest a0 a1 a2).age = a2.age ∧
    (abortTest a0 a1 a2).fab = a2.fab ∧ (abortTest a0 a1 a2).sb = a2.sb ∧ (abortTest a0 a1 a2).bc = a2.bc ∧
    (abortTest a0 a1 a2).jobs = a2.jobs ∧ (abortTest a0 a1 a2).mgt = a2.mgt ∧ (abortTest a0 a1 a2).cmd = a2.cmd ∧
    (abortTest a0 a1 a2).prot = a2.prot ∧ (abortTest a0 a1 a2).mem = a2.mem ∧ (abortTest a0 a1 a2).dma = a2.dma ∧
    (abortTest a0 a1 a2).trc = a2.trc ∧ (abortTest a0 a1 a2).nid = a2.nid ∧ (abortTest a0 a1 a2).boot = a2.boot ∧
    (abortTest a0 a1 a2).img = a2.img ∧ (abortTest a0 a1 a2).reports = a2.reports ∧ (abortTest a0 a1 a2).posted = a2.posted ∧
    (abortTest a0 a1 a2).nvPosted = a2.nvPosted ∧ (nowNs (abortTest a0 a1 a2) = nowNs a2 ) ∧ (imgOf (abortTest a0 a1 a2) = imgOf a2 ) ∧
    (serving (abortTest a0 a1 a2) = serving a2 ) ∧ (working (abortTest a0 a1 a2) = working a2 ) ∧ (alive (abortTest a0 a1 a2) = alive a2 ) ∧
    (upState (abortTest a0 a1 a2) = upState a2 ) ∧ (portOn (abortTest a0 a1 a2) = portOn a2 ) ∧ (∀ (e : Env), dieNo e (abortTest a0 a1 a2) = dieNo e a2 ) ∧
    (∀ (e : Env), nodeNo e (abortTest a0 a1 a2) = nodeNo e a2 ) ∧ (∀ (e : Env) (c : Nat), coreId e (abortTest a0 a1 a2) c = coreId e a2 c) ∧ (∀ (e : Env) (c : Nat), unitId e (abortTest a0 a1 a2) c = unitId e a2 c) ∧
    (∀ (c : Nat), chan (abortTest a0 a1 a2) c = chan a2 c) ∧ (∀ (x : Word), entOk (abortTest a0 a1 a2) x = entOk a2 x) ∧ (∀ (c : Nat), groupOf (abortTest a0 a1 a2) c = groupOf a2 c) ∧
    (∀ (c : Nat), probing (abortTest a0 a1 a2) c = probing a2 c) ∧ (∀ (e : Env) (x : Word), presentCore e (abortTest a0 a1 a2) x = presentCore e a2 x) := by
  have k := (abortTest_only a0 a1 a2).keep
  exact ⟨k .free (by decide), k .sys (by decide), k .isl (by decide), k .time (by decide), k .res (by decide), k .dig (by decide), k .xs (by decide), k .ens (by decide), k .age (by decide), k .fab (by decide), k .sb (by decide), k .bc (by decide), k .jobs (by decide), k .mgt (by decide), k .cmd (by decide), k .prot (by decide), k .mem (by decide), k .dma (by decide), k .trc (by decide), k .nid (by decide), k .boot (by decide), k .img (by decide), k .reports (by decide), k .ram (by decide), k .nvm (by decide), nowNs_congr (k .time (by decide)), imgOf_congr (k .img (by decide)), serving_congr (k .sys (by decide)), working_congr (k .sys (by decide)), alive_congr (k .sys (by decide)), upState_congr (k .sys (by decide)), portOn_congr (k .sys (by decide)), fun e  => dieNo_congr e (k .img (by decide)), fun e  => nodeNo_congr e (k .img (by decide)), fun e c => coreId_congr e (k .img (by decide)) c, fun e c => unitId_congr e (k .img (by decide)) c, fun c => chan_congr (k .cmd (by decide)) c, fun x => entOk_congr (k .img (by decide)) x, fun c => groupOf_congr (k .img (by decide)) (k .jobs (by decide)) c, fun c => probing_congr (k .age (by decide)) c, fun e x => presentCore_congr e (k .img (by decide)) x⟩

@[simp] theorem cancelTest_reads (a0 a1 a2) :
    (cancelTest a0 a1 a2).free = a2.free ∧ (cancelTest a0 a1 a2).sys = a2.sys ∧ (cancelTest a0 a1 a2).isl = a2.isl ∧
    (cancelTest a0 a1 a2).time = a2.time ∧ (cancelTest a0 a1 a2).regions = a2.regions ∧ (cancelTest a0 a1 a2).cells = a2.cells ∧
    (cancelTest a0 a1 a2).hubc = a2.hubc ∧ (cancelTest a0 a1 a2).res = a2.res ∧ (cancelTest a0 a1 a2).dig = a2.dig ∧
    (cancelTest a0 a1 a2).xs = a2.xs ∧ (cancelTest a0 a1 a2).ens = a2.ens ∧ (cancelTest a0 a1 a2).age = a2.age ∧
    (cancelTest a0 a1 a2).fab = a2.fab ∧ (cancelTest a0 a1 a2).sb = a2.sb ∧ (cancelTest a0 a1 a2).bc = a2.bc ∧
    (cancelTest a0 a1 a2).jobs = a2.jobs ∧ (cancelTest a0 a1 a2).mgt = a2.mgt ∧ (cancelTest a0 a1 a2).cmd = a2.cmd ∧
    (cancelTest a0 a1 a2).prot = a2.prot ∧ (cancelTest a0 a1 a2).mem = a2.mem ∧ (cancelTest a0 a1 a2).dma = a2.dma ∧
    (cancelTest a0 a1 a2).trc = a2.trc ∧ (cancelTest a0 a1 a2).nid = a2.nid ∧ (cancelTest a0 a1 a2).boot = a2.boot ∧
    (cancelTest a0 a1 a2).img = a2.img ∧ (cancelTest a0 a1 a2).reports = a2.reports ∧ (cancelTest a0 a1 a2).posted = a2.posted ∧
    (cancelTest a0 a1 a2).nvPosted = a2.nvPosted ∧ (∀ (c : Nat), cell (cancelTest a0 a1 a2) c = cell a2 c) ∧ (∀ (c : Nat), Sys2Proof.Machine.hubc (cancelTest a0 a1 a2) c = Sys2Proof.Machine.hubc a2 c) ∧
    (∀ (c : Nat), region (cancelTest a0 a1 a2) c = region a2 c) ∧ (nowNs (cancelTest a0 a1 a2) = nowNs a2 ) ∧ (imgOf (cancelTest a0 a1 a2) = imgOf a2 ) ∧
    (serving (cancelTest a0 a1 a2) = serving a2 ) ∧ (working (cancelTest a0 a1 a2) = working a2 ) ∧ (alive (cancelTest a0 a1 a2) = alive a2 ) ∧
    (upState (cancelTest a0 a1 a2) = upState a2 ) ∧ (portOn (cancelTest a0 a1 a2) = portOn a2 ) ∧ (∀ (e : Env), dieNo e (cancelTest a0 a1 a2) = dieNo e a2 ) ∧
    (∀ (e : Env), nodeNo e (cancelTest a0 a1 a2) = nodeNo e a2 ) ∧ (∀ (e : Env) (c : Nat), coreId e (cancelTest a0 a1 a2) c = coreId e a2 c) ∧ (∀ (e : Env) (c : Nat), unitId e (cancelTest a0 a1 a2) c = unitId e a2 c) ∧
    (∀ (c : Nat), chan (cancelTest a0 a1 a2) c = chan a2 c) ∧ (∀ (x : Word), entOk (cancelTest a0 a1 a2) x = entOk a2 x) ∧ (∀ (c : Nat), groupOf (cancelTest a0 a1 a2) c = groupOf a2 c) ∧
    (∀ (c : Nat), probing (cancelTest a0 a1 a2) c = probing a2 c) ∧ (∀ (e : Env) (x : Word), presentCore e (cancelTest a0 a1 a2) x = presentCore e a2 x) := by
  have k := (cancelTest_only a0 a1 a2).keep
  exact ⟨k .free (by decide), k .sys (by decide), k .isl (by decide), k .time (by decide), k .regions (by decide), k .cells (by decide), k .hubc (by decide), k .res (by decide), k .dig (by decide), k .xs (by decide), k .ens (by decide), k .age (by decide), k .fab (by decide), k .sb (by decide), k .bc (by decide), k .jobs (by decide), k .mgt (by decide), k .cmd (by decide), k .prot (by decide), k .mem (by decide), k .dma (by decide), k .trc (by decide), k .nid (by decide), k .boot (by decide), k .img (by decide), k .reports (by decide), k .ram (by decide), k .nvm (by decide), fun c => cell_congr (k .cells (by decide)) c, fun c => hubc_congr (k .hubc (by decide)) c, fun c => region_congr (k .regions (by decide)) c, nowNs_congr (k .time (by decide)), imgOf_congr (k .img (by decide)), serving_congr (k .sys (by decide)), working_congr (k .sys (by decide)), alive_congr (k .sys (by decide)), upState_congr (k .sys (by decide)), portOn_congr (k .sys (by decide)), fun e  => dieNo_congr e (k .img (by decide)), fun e  => nodeNo_congr e (k .img (by decide)), fun e c => coreId_congr e (k .img (by decide)) c, fun e c => unitId_congr e (k .img (by decide)) c, fun c => chan_congr (k .cmd (by decide)) c, fun x => entOk_congr (k .img (by decide)) x, fun c => groupOf_congr (k .img (by decide)) (k .jobs (by decide)) c, fun c => probing_congr (k .age (by decide)) c, fun e x => presentCore_congr e (k .img (by decide)) x⟩

@[simp] theorem actRecord_reads (a0 a1 a2 a3 a4 a5) :
    (actRecord a0 a1 a2 a3 a4 a5).free = a5.free ∧ (actRecord a0 a1 a2 a3 a4 a5).sys = a5.sys ∧ (actRecord a0 a1 a2 a3 a4 a5).isl = a5.isl ∧
    (actRecord a0 a1 a2 a3 a4 a5).time = a5.time ∧ (actRecord a0 a1 a2 a3 a4 a5).hubc = a5.hubc ∧ (actRecord a0 a1 a2 a3 a4 a5).res = a5.res ∧
    (actRecord a0 a1 a2 a3 a4 a5).dig = a5.dig ∧ (actRecord a0 a1 a2 a3 a4 a5).xs = a5.xs ∧ (actRecord a0 a1 a2 a3 a4 a5).ens = a5.ens ∧
    (actRecord a0 a1 a2 a3 a4 a5).age = a5.age ∧ (actRecord a0 a1 a2 a3 a4 a5).fab = a5.fab ∧ (actRecord a0 a1 a2 a3 a4 a5).sb = a5.sb ∧
    (actRecord a0 a1 a2 a3 a4 a5).bc = a5.bc ∧ (actRecord a0 a1 a2 a3 a4 a5).jobs = a5.jobs ∧ (actRecord a0 a1 a2 a3 a4 a5).mgt = a5.mgt ∧
    (actRecord a0 a1 a2 a3 a4 a5).cmd = a5.cmd ∧ (actRecord a0 a1 a2 a3 a4 a5).prot = a5.prot ∧ (actRecord a0 a1 a2 a3 a4 a5).mem = a5.mem ∧
    (actRecord a0 a1 a2 a3 a4 a5).dma = a5.dma ∧ (actRecord a0 a1 a2 a3 a4 a5).nid = a5.nid ∧ (actRecord a0 a1 a2 a3 a4 a5).boot = a5.boot ∧
    (actRecord a0 a1 a2 a3 a4 a5).img = a5.img ∧ (actRecord a0 a1 a2 a3 a4 a5).posted = a5.posted ∧ (actRecord a0 a1 a2 a3 a4 a5).nvPosted = a5.nvPosted ∧
    (∀ (c : Nat), Sys2Proof.Machine.hubc (actRecord a0 a1 a2 a3 a4 a5) c = Sys2Proof.Machine.hubc a5 c) ∧ (nowNs (actRecord a0 a1 a2 a3 a4 a5) = nowNs a5 ) ∧ (imgOf (actRecord a0 a1 a2 a3 a4 a5) = imgOf a5 ) ∧
    (serving (actRecord a0 a1 a2 a3 a4 a5) = serving a5 ) ∧ (working (actRecord a0 a1 a2 a3 a4 a5) = working a5 ) ∧ (alive (actRecord a0 a1 a2 a3 a4 a5) = alive a5 ) ∧
    (upState (actRecord a0 a1 a2 a3 a4 a5) = upState a5 ) ∧ (portOn (actRecord a0 a1 a2 a3 a4 a5) = portOn a5 ) ∧ (∀ (e : Env), dieNo e (actRecord a0 a1 a2 a3 a4 a5) = dieNo e a5 ) ∧
    (∀ (e : Env), nodeNo e (actRecord a0 a1 a2 a3 a4 a5) = nodeNo e a5 ) ∧ (∀ (e : Env) (c : Nat), coreId e (actRecord a0 a1 a2 a3 a4 a5) c = coreId e a5 c) ∧ (∀ (e : Env) (c : Nat), unitId e (actRecord a0 a1 a2 a3 a4 a5) c = unitId e a5 c) ∧
    (∀ (c : Nat), chan (actRecord a0 a1 a2 a3 a4 a5) c = chan a5 c) ∧ (∀ (x : Word), entOk (actRecord a0 a1 a2 a3 a4 a5) x = entOk a5 x) ∧ (∀ (c : Nat), groupOf (actRecord a0 a1 a2 a3 a4 a5) c = groupOf a5 c) ∧
    (∀ (c : Nat), probing (actRecord a0 a1 a2 a3 a4 a5) c = probing a5 c) ∧ (∀ (e : Env) (x : Word), presentCore e (actRecord a0 a1 a2 a3 a4 a5) x = presentCore e a5 x) := by
  have k := (actRecord_only a0 a1 a2 a3 a4 a5).keep
  exact ⟨k .free (by decide), k .sys (by decide), k .isl (by decide), k .time (by decide), k .hubc (by decide), k .res (by decide), k .dig (by decide), k .xs (by decide), k .ens (by decide), k .age (by decide), k .fab (by decide), k .sb (by decide), k .bc (by decide), k .jobs (by decide), k .mgt (by decide), k .cmd (by decide), k .prot (by decide), k .mem (by decide), k .dma (by decide), k .nid (by decide), k .boot (by decide), k .img (by decide), k .ram (by decide), k .nvm (by decide), fun c => hubc_congr (k .hubc (by decide)) c, nowNs_congr (k .time (by decide)), imgOf_congr (k .img (by decide)), serving_congr (k .sys (by decide)), working_congr (k .sys (by decide)), alive_congr (k .sys (by decide)), upState_congr (k .sys (by decide)), portOn_congr (k .sys (by decide)), fun e  => dieNo_congr e (k .img (by decide)), fun e  => nodeNo_congr e (k .img (by decide)), fun e c => coreId_congr e (k .img (by decide)) c, fun e c => unitId_congr e (k .img (by decide)) c, fun c => chan_congr (k .cmd (by decide)) c, fun x => entOk_congr (k .img (by decide)) x, fun c => groupOf_congr (k .img (by decide)) (k .jobs (by decide)) c, fun c => probing_congr (k .age (by decide)) c, fun e x => presentCore_congr e (k .img (by decide)) x⟩

@[simp] theorem dueTest_reads (a0 a1 a2 a3 a4) :
    (dueTest a0 a1 a2 a3 a4).free = a4.free ∧ (dueTest a0 a1 a2 a3 a4).sys = a4.sys ∧ (dueTest a0 a1 a2 a3 a4).isl = a4.isl ∧
    (dueTest a0 a1 a2 a3 a4).time = a4.time ∧ (dueTest a0 a1 a2 a3 a4).hubc = a4.hubc ∧ (dueTest a0 a1 a2 a3 a4).res = a4.res ∧
    (dueTest a0 a1 a2 a3 a4).dig = a4.dig ∧ (dueTest a0 a1 a2 a3 a4).xs = a4.xs ∧ (dueTest a0 a1 a2 a3 a4).ens = a4.ens ∧
    (dueTest a0 a1 a2 a3 a4).age = a4.age ∧ (dueTest a0 a1 a2 a3 a4).fab = a4.fab ∧ (dueTest a0 a1 a2 a3 a4).sb = a4.sb ∧
    (dueTest a0 a1 a2 a3 a4).bc = a4.bc ∧ (dueTest a0 a1 a2 a3 a4).jobs = a4.jobs ∧ (dueTest a0 a1 a2 a3 a4).mgt = a4.mgt ∧
    (dueTest a0 a1 a2 a3 a4).cmd = a4.cmd ∧ (dueTest a0 a1 a2 a3 a4).prot = a4.prot ∧ (dueTest a0 a1 a2 a3 a4).mem = a4.mem ∧
    (dueTest a0 a1 a2 a3 a4).dma = a4.dma ∧ (dueTest a0 a1 a2 a3 a4).nid = a4.nid ∧ (dueTest a0 a1 a2 a3 a4).boot = a4.boot ∧
    (dueTest a0 a1 a2 a3 a4).img = a4.img ∧ (dueTest a0 a1 a2 a3 a4).posted = a4.posted ∧ (dueTest a0 a1 a2 a3 a4).nvPosted = a4.nvPosted ∧
    (∀ (c : Nat), Sys2Proof.Machine.hubc (dueTest a0 a1 a2 a3 a4) c = Sys2Proof.Machine.hubc a4 c) ∧ (nowNs (dueTest a0 a1 a2 a3 a4) = nowNs a4 ) ∧ (imgOf (dueTest a0 a1 a2 a3 a4) = imgOf a4 ) ∧
    (serving (dueTest a0 a1 a2 a3 a4) = serving a4 ) ∧ (working (dueTest a0 a1 a2 a3 a4) = working a4 ) ∧ (alive (dueTest a0 a1 a2 a3 a4) = alive a4 ) ∧
    (upState (dueTest a0 a1 a2 a3 a4) = upState a4 ) ∧ (portOn (dueTest a0 a1 a2 a3 a4) = portOn a4 ) ∧ (∀ (e : Env), dieNo e (dueTest a0 a1 a2 a3 a4) = dieNo e a4 ) ∧
    (∀ (e : Env), nodeNo e (dueTest a0 a1 a2 a3 a4) = nodeNo e a4 ) ∧ (∀ (e : Env) (c : Nat), coreId e (dueTest a0 a1 a2 a3 a4) c = coreId e a4 c) ∧ (∀ (e : Env) (c : Nat), unitId e (dueTest a0 a1 a2 a3 a4) c = unitId e a4 c) ∧
    (∀ (c : Nat), chan (dueTest a0 a1 a2 a3 a4) c = chan a4 c) ∧ (∀ (x : Word), entOk (dueTest a0 a1 a2 a3 a4) x = entOk a4 x) ∧ (∀ (c : Nat), groupOf (dueTest a0 a1 a2 a3 a4) c = groupOf a4 c) ∧
    (∀ (c : Nat), probing (dueTest a0 a1 a2 a3 a4) c = probing a4 c) ∧ (∀ (e : Env) (x : Word), presentCore e (dueTest a0 a1 a2 a3 a4) x = presentCore e a4 x) := by
  have k := (dueTest_only a0 a1 a2 a3 a4).keep
  exact ⟨k .free (by decide), k .sys (by decide), k .isl (by decide), k .time (by decide), k .hubc (by decide), k .res (by decide), k .dig (by decide), k .xs (by decide), k .ens (by decide), k .age (by decide), k .fab (by decide), k .sb (by decide), k .bc (by decide), k .jobs (by decide), k .mgt (by decide), k .cmd (by decide), k .prot (by decide), k .mem (by decide), k .dma (by decide), k .nid (by decide), k .boot (by decide), k .img (by decide), k .ram (by decide), k .nvm (by decide), fun c => hubc_congr (k .hubc (by decide)) c, nowNs_congr (k .time (by decide)), imgOf_congr (k .img (by decide)), serving_congr (k .sys (by decide)), working_congr (k .sys (by decide)), alive_congr (k .sys (by decide)), upState_congr (k .sys (by decide)), portOn_congr (k .sys (by decide)), fun e  => dieNo_congr e (k .img (by decide)), fun e  => nodeNo_congr e (k .img (by decide)), fun e c => coreId_congr e (k .img (by decide)) c, fun e c => unitId_congr e (k .img (by decide)) c, fun c => chan_congr (k .cmd (by decide)) c, fun x => entOk_congr (k .img (by decide)) x, fun c => groupOf_congr (k .img (by decide)) (k .jobs (by decide)) c, fun c => probing_congr (k .age (by decide)) c, fun e x => presentCore_congr e (k .img (by decide)) x⟩

@[simp] theorem setVerdict_reads (a0 a1 a2 a3 a4) :
    (setVerdict a0 a1 a2 a3 a4).free = a4.free ∧ (setVerdict a0 a1 a2 a3 a4).sys = a4.sys ∧ (setVerdict a0 a1 a2 a3 a4).time = a4.time ∧
    (setVerdict a0 a1 a2 a3 a4).res = a4.res ∧ (setVerdict a0 a1 a2 a3 a4).dig = a4.dig ∧ (setVerdict a0 a1 a2 a3 a4).xs = a4.xs ∧
    (setVerdict a0 a1 a2 a3 a4).ens = a4.ens ∧ (setVerdict a0 a1 a2 a3 a4).age = a4.age ∧ (setVerdict a0 a1 a2 a3 a4).fab = a4.fab ∧
    (setVerdict a0 a1 a2 a3 a4).bc = a4.bc ∧ (setVerdict a0 a1 a2 a3 a4).mgt = a4.mgt ∧ (setVerdict a0 a1 a2 a3 a4).cmd = a4.cmd ∧
    (setVerdict a0 a1 a2 a3 a4).prot = a4.prot ∧ (setVerdict a0 a1 a2 a3 a4).mem = a4.mem ∧ (setVerdict a0 a1 a2 a3 a4).dma = a4.dma ∧
    (setVerdict a0 a1 a2 a3 a4).nid = a4.nid ∧ (setVerdict a0 a1 a2 a3 a4).boot = a4.boot ∧ (setVerdict a0 a1 a2 a3 a4).img = a4.img ∧
    (setVerdict a0 a1 a2 a3 a4).posted = a4.posted ∧ (setVerdict a0 a1 a2 a3 a4).nvPosted = a4.nvPosted ∧ (nowNs (setVerdict a0 a1 a2 a3 a4) = nowNs a4 ) ∧
    (imgOf (setVerdict a0 a1 a2 a3 a4) = imgOf a4 ) ∧ (serving (setVerdict a0 a1 a2 a3 a4) = serving a4 ) ∧ (working (setVerdict a0 a1 a2 a3 a4) = working a4 ) ∧
    (alive (setVerdict a0 a1 a2 a3 a4) = alive a4 ) ∧ (upState (setVerdict a0 a1 a2 a3 a4) = upState a4 ) ∧ (portOn (setVerdict a0 a1 a2 a3 a4) = portOn a4 ) ∧
    (∀ (e : Env), dieNo e (setVerdict a0 a1 a2 a3 a4) = dieNo e a4 ) ∧ (∀ (e : Env), nodeNo e (setVerdict a0 a1 a2 a3 a4) = nodeNo e a4 ) ∧ (∀ (e : Env) (c : Nat), coreId e (setVerdict a0 a1 a2 a3 a4) c = coreId e a4 c) ∧
    (∀ (e : Env) (c : Nat), unitId e (setVerdict a0 a1 a2 a3 a4) c = unitId e a4 c) ∧ (∀ (c : Nat), chan (setVerdict a0 a1 a2 a3 a4) c = chan a4 c) ∧ (∀ (x : Word), entOk (setVerdict a0 a1 a2 a3 a4) x = entOk a4 x) ∧
    (∀ (c : Nat), probing (setVerdict a0 a1 a2 a3 a4) c = probing a4 c) ∧ (∀ (e : Env) (x : Word), presentCore e (setVerdict a0 a1 a2 a3 a4) x = presentCore e a4 x) := by
  have k := (setVerdict_only a0 a1 a2 a3 a4).keep
  exact ⟨k .free (by decide), k .sys (by decide), k .time (by decide), k .res (by decide), k .dig (by decide), k .xs (by decide), k .ens (by decide), k .age (by decide), k .fab (by decide), k .bc (by decide), k .mgt (by decide), k .cmd (by decide), k .prot (by decide), k .mem (by decide), k .dma (by decide), k .nid (by decide), k .boot (by decide), k .img (by decide), k .ram (by decide), k .nvm (by decide), nowNs_congr (k .time (by decide)), imgOf_congr (k .img (by decide)), serving_congr (k .sys (by decide)), working_congr (k .sys (by decide)), alive_congr (k .sys (by decide)), upState_congr (k .sys (by decide)), portOn_congr (k .sys (by decide)), fun e  => dieNo_congr e (k .img (by decide)), fun e  => nodeNo_congr e (k .img (by decide)), fun e c => coreId_congr e (k .img (by decide)) c, fun e c => unitId_congr e (k .img (by decide)) c, fun c => chan_congr (k .cmd (by decide)) c, fun x => entOk_congr (k .img (by decide)) x, fun c => probing_congr (k .age (by decide)) c, fun e x => presentCore_congr e (k .img (by decide)) x⟩

@[simp] theorem setBase_reads (a0 a1 a2 a3 a4) :
    (setBase a0 a1 a2 a3 a4).free = a4.free ∧ (setBase a0 a1 a2 a3 a4).sys = a4.sys ∧ (setBase a0 a1 a2 a3 a4).time = a4.time ∧
    (setBase a0 a1 a2 a3 a4).res = a4.res ∧ (setBase a0 a1 a2 a3 a4).dig = a4.dig ∧ (setBase a0 a1 a2 a3 a4).xs = a4.xs ∧
    (setBase a0 a1 a2 a3 a4).ens = a4.ens ∧ (setBase a0 a1 a2 a3 a4).age = a4.age ∧ (setBase a0 a1 a2 a3 a4).fab = a4.fab ∧
    (setBase a0 a1 a2 a3 a4).bc = a4.bc ∧ (setBase a0 a1 a2 a3 a4).mgt = a4.mgt ∧ (setBase a0 a1 a2 a3 a4).cmd = a4.cmd ∧
    (setBase a0 a1 a2 a3 a4).prot = a4.prot ∧ (setBase a0 a1 a2 a3 a4).mem = a4.mem ∧ (setBase a0 a1 a2 a3 a4).dma = a4.dma ∧
    (setBase a0 a1 a2 a3 a4).nid = a4.nid ∧ (setBase a0 a1 a2 a3 a4).boot = a4.boot ∧ (setBase a0 a1 a2 a3 a4).img = a4.img ∧
    (setBase a0 a1 a2 a3 a4).posted = a4.posted ∧ (setBase a0 a1 a2 a3 a4).nvPosted = a4.nvPosted ∧ (nowNs (setBase a0 a1 a2 a3 a4) = nowNs a4 ) ∧
    (imgOf (setBase a0 a1 a2 a3 a4) = imgOf a4 ) ∧ (serving (setBase a0 a1 a2 a3 a4) = serving a4 ) ∧ (working (setBase a0 a1 a2 a3 a4) = working a4 ) ∧
    (alive (setBase a0 a1 a2 a3 a4) = alive a4 ) ∧ (upState (setBase a0 a1 a2 a3 a4) = upState a4 ) ∧ (portOn (setBase a0 a1 a2 a3 a4) = portOn a4 ) ∧
    (∀ (e : Env), dieNo e (setBase a0 a1 a2 a3 a4) = dieNo e a4 ) ∧ (∀ (e : Env), nodeNo e (setBase a0 a1 a2 a3 a4) = nodeNo e a4 ) ∧ (∀ (e : Env) (c : Nat), coreId e (setBase a0 a1 a2 a3 a4) c = coreId e a4 c) ∧
    (∀ (e : Env) (c : Nat), unitId e (setBase a0 a1 a2 a3 a4) c = unitId e a4 c) ∧ (∀ (c : Nat), chan (setBase a0 a1 a2 a3 a4) c = chan a4 c) ∧ (∀ (x : Word), entOk (setBase a0 a1 a2 a3 a4) x = entOk a4 x) ∧
    (∀ (c : Nat), probing (setBase a0 a1 a2 a3 a4) c = probing a4 c) ∧ (∀ (e : Env) (x : Word), presentCore e (setBase a0 a1 a2 a3 a4) x = presentCore e a4 x) := by
  have k := (setBase_only a0 a1 a2 a3 a4).keep
  exact ⟨k .free (by decide), k .sys (by decide), k .time (by decide), k .res (by decide), k .dig (by decide), k .xs (by decide), k .ens (by decide), k .age (by decide), k .fab (by decide), k .bc (by decide), k .mgt (by decide), k .cmd (by decide), k .prot (by decide), k .mem (by decide), k .dma (by decide), k .nid (by decide), k .boot (by decide), k .img (by decide), k .ram (by decide), k .nvm (by decide), nowNs_congr (k .time (by decide)), imgOf_congr (k .img (by decide)), serving_congr (k .sys (by decide)), working_congr (k .sys (by decide)), alive_congr (k .sys (by decide)), upState_congr (k .sys (by decide)), portOn_congr (k .sys (by decide)), fun e  => dieNo_congr e (k .img (by decide)), fun e  => nodeNo_congr e (k .img (by decide)), fun e c => coreId_congr e (k .img (by decide)) c, fun e c => unitId_congr e (k .img (by decide)) c, fun c => chan_congr (k .cmd (by decide)) c, fun x => entOk_congr (k .img (by decide)) x, fun c => probing_congr (k .age (by decide)) c, fun e x => presentCore_congr e (k .img (by decide)) x⟩

@[simp] theorem cmdRemove_reads (a0 a1 a2 a3) :
    (cmdRemove a0 a1 a2 a3).free = a3.free ∧ (cmdRemove a0 a1 a2 a3).sys = a3.sys ∧ (cmdRemove a0 a1 a2 a3).time = a3.time ∧
    (cmdRemove a0 a1 a2 a3).res = a3.res ∧ (cmdRemove a0 a1 a2 a3).dig = a3.dig ∧ (cmdRemove a0 a1 a2 a3).xs = a3.xs ∧
    (cmdRemove a0 a1 a2 a3).ens = a3.ens ∧ (cmdRemove a0 a1 a2 a3).age = a3.age ∧ (cmdRemove a0 a1 a2 a3).fab = a3.fab ∧
    (cmdRemove a0 a1 a2 a3).bc = a3.bc ∧ (cmdRemove a0 a1 a2 a3).mgt = a3.mgt ∧ (cmdRemove a0 a1 a2 a3).cmd = a3.cmd ∧
    (cmdRemove a0 a1 a2 a3).prot = a3.prot ∧ (cmdRemove a0 a1 a2 a3).mem = a3.mem ∧ (cmdRemove a0 a1 a2 a3).dma = a3.dma ∧
    (cmdRemove a0 a1 a2 a3).nid = a3.nid ∧ (cmdRemove a0 a1 a2 a3).boot = a3.boot ∧ (cmdRemove a0 a1 a2 a3).img = a3.img ∧
    (cmdRemove a0 a1 a2 a3).posted = a3.posted ∧ (cmdRemove a0 a1 a2 a3).nvPosted = a3.nvPosted ∧ (nowNs (cmdRemove a0 a1 a2 a3) = nowNs a3 ) ∧
    (imgOf (cmdRemove a0 a1 a2 a3) = imgOf a3 ) ∧ (serving (cmdRemove a0 a1 a2 a3) = serving a3 ) ∧ (working (cmdRemove a0 a1 a2 a3) = working a3 ) ∧
    (alive (cmdRemove a0 a1 a2 a3) = alive a3 ) ∧ (upState (cmdRemove a0 a1 a2 a3) = upState a3 ) ∧ (portOn (cmdRemove a0 a1 a2 a3) = portOn a3 ) ∧
    (∀ (e : Env), dieNo e (cmdRemove a0 a1 a2 a3) = dieNo e a3 ) ∧ (∀ (e : Env), nodeNo e (cmdRemove a0 a1 a2 a3) = nodeNo e a3 ) ∧ (∀ (e : Env) (c : Nat), coreId e (cmdRemove a0 a1 a2 a3) c = coreId e a3 c) ∧
    (∀ (e : Env) (c : Nat), unitId e (cmdRemove a0 a1 a2 a3) c = unitId e a3 c) ∧ (∀ (c : Nat), chan (cmdRemove a0 a1 a2 a3) c = chan a3 c) ∧ (∀ (x : Word), entOk (cmdRemove a0 a1 a2 a3) x = entOk a3 x) ∧
    (∀ (c : Nat), probing (cmdRemove a0 a1 a2 a3) c = probing a3 c) ∧ (∀ (e : Env) (x : Word), presentCore e (cmdRemove a0 a1 a2 a3) x = presentCore e a3 x) := by
  have k := (cmdRemove_only a0 a1 a2 a3).keep
  exact ⟨k .free (by decide), k .sys (by decide), k .time (by decide), k .res (by decide), k .dig (by decide), k .xs (by decide), k .ens (by decide), k .age (by decide), k .fab (by decide), k .bc (by decide), k .mgt (by decide), k .cmd (by decide), k .prot (by decide), k .mem (by decide), k .dma (by decide), k .nid (by decide), k .boot (by decide), k .img (by decide), k .ram (by decide), k .nvm (by decide), nowNs_congr (k .time (by decide)), imgOf_congr (k .img (by decide)), serving_congr (k .sys (by decide)), working_congr (k .sys (by decide)), alive_congr (k .sys (by decide)), upState_congr (k .sys (by decide)), portOn_congr (k .sys (by decide)), fun e  => dieNo_congr e (k .img (by decide)), fun e  => nodeNo_congr e (k .img (by decide)), fun e c => coreId_congr e (k .img (by decide)) c, fun e c => unitId_congr e (k .img (by decide)) c, fun c => chan_congr (k .cmd (by decide)) c, fun x => entOk_congr (k .img (by decide)) x, fun c => probing_congr (k .age (by decide)) c, fun e x => presentCore_congr e (k .img (by decide)) x⟩

@[simp] theorem endFloors_reads (a0 a1) :
    (endFloors a0 a1).free = a1.free ∧ (endFloors a0 a1).sys = a1.sys ∧ (endFloors a0 a1).isl = a1.isl ∧
    (endFloors a0 a1).time = a1.time ∧ (endFloors a0 a1).regions = a1.regions ∧ (endFloors a0 a1).cells = a1.cells ∧
    (endFloors a0 a1).hubc = a1.hubc ∧ (endFloors a0 a1).res = a1.res ∧ (endFloors a0 a1).dig = a1.dig ∧
    (endFloors a0 a1).xs = a1.xs ∧ (endFloors a0 a1).ens = a1.ens ∧ (endFloors a0 a1).age = a1.age ∧
    (endFloors a0 a1).fab = a1.fab ∧ (endFloors a0 a1).sb = a1.sb ∧ (endFloors a0 a1).bc = a1.bc ∧
    (endFloors a0 a1).jobs = a1.jobs ∧ (endFloors a0 a1).mgt = a1.mgt ∧ (endFloors a0 a1).cmd = a1.cmd ∧
    (endFloors a0 a1).prot = a1.prot ∧ (endFloors a0 a1).mem = a1.mem ∧ (endFloors a0 a1).dma = a1.dma ∧
    (endFloors a0 a1).trc = a1.trc ∧ (endFloors a0 a1).nid = a1.nid ∧ (endFloors a0 a1).boot = a1.boot ∧
    (endFloors a0 a1).img = a1.img ∧ (endFloors a0 a1).reports = a1.reports ∧ (endFloors a0 a1).posted = a1.posted ∧
    (endFloors a0 a1).nvPosted = a1.nvPosted ∧ (∀ (c : Nat), cell (endFloors a0 a1) c = cell a1 c) ∧ (∀ (c : Nat), Sys2Proof.Machine.hubc (endFloors a0 a1) c = Sys2Proof.Machine.hubc a1 c) ∧
    (∀ (c : Nat), region (endFloors a0 a1) c = region a1 c) ∧ (nowNs (endFloors a0 a1) = nowNs a1 ) ∧ (imgOf (endFloors a0 a1) = imgOf a1 ) ∧
    (serving (endFloors a0 a1) = serving a1 ) ∧ (working (endFloors a0 a1) = working a1 ) ∧ (alive (endFloors a0 a1) = alive a1 ) ∧
    (upState (endFloors a0 a1) = upState a1 ) ∧ (portOn (endFloors a0 a1) = portOn a1 ) ∧ (∀ (e : Env), dieNo e (endFloors a0 a1) = dieNo e a1 ) ∧
    (∀ (e : Env), nodeNo e (endFloors a0 a1) = nodeNo e a1 ) ∧ (∀ (e : Env) (c : Nat), coreId e (endFloors a0 a1) c = coreId e a1 c) ∧ (∀ (e : Env) (c : Nat), unitId e (endFloors a0 a1) c = unitId e a1 c) ∧
    (∀ (c : Nat), chan (endFloors a0 a1) c = chan a1 c) ∧ (∀ (x : Word), entOk (endFloors a0 a1) x = entOk a1 x) ∧ (∀ (c : Nat), groupOf (endFloors a0 a1) c = groupOf a1 c) ∧
    (∀ (c : Nat), probing (endFloors a0 a1) c = probing a1 c) ∧ (∀ (e : Env) (x : Word), presentCore e (endFloors a0 a1) x = presentCore e a1 x) := by
  have k := (endFloors_only a0 a1).keep
  exact ⟨k .free (by decide), k .sys (by decide), k .isl (by decide), k .time (by decide), k .regions (by decide), k .cells (by decide), k .hubc (by decide), k .res (by decide), k .dig (by decide), k .xs (by decide), k .ens (by decide), k .age (by decide), k .fab (by decide), k .sb (by decide), k .bc (by decide), k .jobs (by decide), k .mgt (by decide), k .cmd (by decide), k .prot (by decide), k .mem (by decide), k .dma (by decide), k .trc (by decide), k .nid (by decide), k .boot (by decide), k .img (by decide), k .reports (by decide), k .ram (by decide), k .nvm (by decide), fun c => cell_congr (k .cells (by decide)) c, fun c => hubc_congr (k .hubc (by decide)) c, fun c => region_congr (k .regions (by decide)) c, nowNs_congr (k .time (by decide)), imgOf_congr (k .img (by decide)), serving_congr (k .sys (by decide)), working_congr (k .sys (by decide)), alive_congr (k .sys (by decide)), upState_congr (k .sys (by decide)), portOn_congr (k .sys (by decide)), fun e  => dieNo_congr e (k .img (by decide)), fun e  => nodeNo_congr e (k .img (by decide)), fun e c => coreId_congr e (k .img (by decide)) c, fun e c => unitId_congr e (k .img (by decide)) c, fun c => chan_congr (k .cmd (by decide)) c, fun x => entOk_congr (k .img (by decide)) x, fun c => groupOf_congr (k .img (by decide)) (k .jobs (by decide)) c, fun c => probing_congr (k .age (by decide)) c, fun e x => presentCore_congr e (k .img (by decide)) x⟩

@[simp] theorem takeRemovals_reads (a0 a1 a2) :
    (takeRemovals a0 a1 a2).free = a2.free ∧ (takeRemovals a0 a1 a2).sys = a2.sys ∧ (takeRemovals a0 a1 a2).time = a2.time ∧
    (takeRemovals a0 a1 a2).res = a2.res ∧ (takeRemovals a0 a1 a2).dig = a2.dig ∧ (takeRemovals a0 a1 a2).xs = a2.xs ∧
    (takeRemovals a0 a1 a2).ens = a2.ens ∧ (takeRemovals a0 a1 a2).age = a2.age ∧ (takeRemovals a0 a1 a2).fab = a2.fab ∧
    (takeRemovals a0 a1 a2).bc = a2.bc ∧ (takeRemovals a0 a1 a2).mgt = a2.mgt ∧ (takeRemovals a0 a1 a2).cmd = a2.cmd ∧
    (takeRemovals a0 a1 a2).prot = a2.prot ∧ (takeRemovals a0 a1 a2).mem = a2.mem ∧ (takeRemovals a0 a1 a2).dma = a2.dma ∧
    (takeRemovals a0 a1 a2).nid = a2.nid ∧ (takeRemovals a0 a1 a2).boot = a2.boot ∧ (takeRemovals a0 a1 a2).img = a2.img ∧
    (takeRemovals a0 a1 a2).posted = a2.posted ∧ (takeRemovals a0 a1 a2).nvPosted = a2.nvPosted ∧ (nowNs (takeRemovals a0 a1 a2) = nowNs a2 ) ∧
    (imgOf (takeRemovals a0 a1 a2) = imgOf a2 ) ∧ (serving (takeRemovals a0 a1 a2) = serving a2 ) ∧ (working (takeRemovals a0 a1 a2) = working a2 ) ∧
    (alive (takeRemovals a0 a1 a2) = alive a2 ) ∧ (upState (takeRemovals a0 a1 a2) = upState a2 ) ∧ (portOn (takeRemovals a0 a1 a2) = portOn a2 ) ∧
    (∀ (e : Env), dieNo e (takeRemovals a0 a1 a2) = dieNo e a2 ) ∧ (∀ (e : Env), nodeNo e (takeRemovals a0 a1 a2) = nodeNo e a2 ) ∧ (∀ (e : Env) (c : Nat), coreId e (takeRemovals a0 a1 a2) c = coreId e a2 c) ∧
    (∀ (e : Env) (c : Nat), unitId e (takeRemovals a0 a1 a2) c = unitId e a2 c) ∧ (∀ (c : Nat), chan (takeRemovals a0 a1 a2) c = chan a2 c) ∧ (∀ (x : Word), entOk (takeRemovals a0 a1 a2) x = entOk a2 x) ∧
    (∀ (c : Nat), probing (takeRemovals a0 a1 a2) c = probing a2 c) ∧ (∀ (e : Env) (x : Word), presentCore e (takeRemovals a0 a1 a2) x = presentCore e a2 x) := by
  have k := (takeRemovals_only a0 a1 a2).keep
  exact ⟨k .free (by decide), k .sys (by decide), k .time (by decide), k .res (by decide), k .dig (by decide), k .xs (by decide), k .ens (by decide), k .age (by decide), k .fab (by decide), k .bc (by decide), k .mgt (by decide), k .cmd (by decide), k .prot (by decide), k .mem (by decide), k .dma (by decide), k .nid (by decide), k .boot (by decide), k .img (by decide), k .ram (by decide), k .nvm (by decide), nowNs_congr (k .time (by decide)), imgOf_congr (k .img (by decide)), serving_congr (k .sys (by decide)), working_congr (k .sys (by decide)), alive_congr (k .sys (by decide)), upState_congr (k .sys (by decide)), portOn_congr (k .sys (by decide)), fun e  => dieNo_congr e (k .img (by decide)), fun e  => nodeNo_congr e (k .img (by decide)), fun e c => coreId_congr e (k .img (by decide)) c, fun e c => unitId_congr e (k .img (by decide)) c, fun c => chan_congr (k .cmd (by decide)) c, fun x => entOk_congr (k .img (by decide)) x, fun c => probing_congr (k .age (by decide)) c, fun e x => presentCore_congr e (k .img (by decide)) x⟩

@[simp] theorem endPending_reads (a0 a1 a2) :
    (endPending a0 a1 a2).free = a2.free ∧ (endPending a0 a1 a2).sys = a2.sys ∧ (endPending a0 a1 a2).isl = a2.isl ∧
    (endPending a0 a1 a2).time = a2.time ∧ (endPending a0 a1 a2).regions = a2.regions ∧ (endPending a0 a1 a2).cells = a2.cells ∧
    (endPending a0 a1 a2).hubc = a2.hubc ∧ (endPending a0 a1 a2).res = a2.res ∧ (endPending a0 a1 a2).dig = a2.dig ∧
    (endPending a0 a1 a2).xs = a2.xs ∧ (endPending a0 a1 a2).ens = a2.ens ∧ (endPending a0 a1 a2).age = a2.age ∧
    (endPending a0 a1 a2).fab = a2.fab ∧ (endPending a0 a1 a2).sb = a2.sb ∧ (endPending a0 a1 a2).bc = a2.bc ∧
    (endPending a0 a1 a2).jobs = a2.jobs ∧ (endPending a0 a1 a2).mgt = a2.mgt ∧ (endPending a0 a1 a2).cmd = a2.cmd ∧
    (endPending a0 a1 a2).prot = a2.prot ∧ (endPending a0 a1 a2).mem = a2.mem ∧ (endPending a0 a1 a2).dma = a2.dma ∧
    (endPending a0 a1 a2).trc = a2.trc ∧ (endPending a0 a1 a2).nid = a2.nid ∧ (endPending a0 a1 a2).boot = a2.boot ∧
    (endPending a0 a1 a2).img = a2.img ∧ (endPending a0 a1 a2).reports = a2.reports ∧ (endPending a0 a1 a2).posted = a2.posted ∧
    (endPending a0 a1 a2).nvPosted = a2.nvPosted ∧ (∀ (c : Nat), cell (endPending a0 a1 a2) c = cell a2 c) ∧ (∀ (c : Nat), Sys2Proof.Machine.hubc (endPending a0 a1 a2) c = Sys2Proof.Machine.hubc a2 c) ∧
    (∀ (c : Nat), region (endPending a0 a1 a2) c = region a2 c) ∧ (nowNs (endPending a0 a1 a2) = nowNs a2 ) ∧ (imgOf (endPending a0 a1 a2) = imgOf a2 ) ∧
    (serving (endPending a0 a1 a2) = serving a2 ) ∧ (working (endPending a0 a1 a2) = working a2 ) ∧ (alive (endPending a0 a1 a2) = alive a2 ) ∧
    (upState (endPending a0 a1 a2) = upState a2 ) ∧ (portOn (endPending a0 a1 a2) = portOn a2 ) ∧ (∀ (e : Env), dieNo e (endPending a0 a1 a2) = dieNo e a2 ) ∧
    (∀ (e : Env), nodeNo e (endPending a0 a1 a2) = nodeNo e a2 ) ∧ (∀ (e : Env) (c : Nat), coreId e (endPending a0 a1 a2) c = coreId e a2 c) ∧ (∀ (e : Env) (c : Nat), unitId e (endPending a0 a1 a2) c = unitId e a2 c) ∧
    (∀ (c : Nat), chan (endPending a0 a1 a2) c = chan a2 c) ∧ (∀ (x : Word), entOk (endPending a0 a1 a2) x = entOk a2 x) ∧ (∀ (c : Nat), groupOf (endPending a0 a1 a2) c = groupOf a2 c) ∧
    (∀ (c : Nat), probing (endPending a0 a1 a2) c = probing a2 c) ∧ (∀ (e : Env) (x : Word), presentCore e (endPending a0 a1 a2) x = presentCore e a2 x) := by
  have k := (endPending_only a0 a1 a2).keep
  exact ⟨k .free (by decide), k .sys (by decide), k .isl (by decide), k .time (by decide), k .regions (by decide), k .cells (by decide), k .hubc (by decide), k .res (by decide), k .dig (by decide), k .xs (by decide), k .ens (by decide), k .age (by decide), k .fab (by decide), k .sb (by decide), k .bc (by decide), k .jobs (by decide), k .mgt (by decide), k .cmd (by decide), k .prot (by decide), k .mem (by decide), k .dma (by decide), k .trc (by decide), k .nid (by decide), k .boot (by decide), k .img (by decide), k .reports (by decide), k .ram (by decide), k .nvm (by decide), fun c => cell_congr (k .cells (by decide)) c, fun c => hubc_congr (k .hubc (by decide)) c, fun c => region_congr (k .regions (by decide)) c, nowNs_congr (k .time (by decide)), imgOf_congr (k .img (by decide)), serving_congr (k .sys (by decide)), working_congr (k .sys (by decide)), alive_congr (k .sys (by decide)), upState_congr (k .sys (by decide)), portOn_congr (k .sys (by decide)), fun e  => dieNo_congr e (k .img (by decide)), fun e  => nodeNo_congr e (k .img (by decide)), fun e c => coreId_congr e (k .img (by decide)) c, fun e c => unitId_congr e (k .img (by decide)) c, fun c => chan_congr (k .cmd (by decide)) c, fun x => entOk_congr (k .img (by decide)) x, fun c => groupOf_congr (k .img (by decide)) (k .jobs (by decide)) c, fun c => probing_congr (k .age (by decide)) c, fun e x => presentCore_congr e (k .img (by decide)) x⟩

@[simp] theorem removeNow_reads (a0 a1 a2 a3 a4) :
    (removeNow a0 a1 a2 a3 a4).free = a4.free ∧ (removeNow a0 a1 a2 a3 a4).sys = a4.sys ∧ (removeNow a0 a1 a2 a3 a4).time = a4.time ∧
    (removeNow a0 a1 a2 a3 a4).res = a4.res ∧ (removeNow a0 a1 a2 a3 a4).dig = a4.dig ∧ (removeNow a0 a1 a2 a3 a4).xs = a4.xs ∧
    (removeNow a0 a1 a2 a3 a4).ens = a4.ens ∧ (removeNow a0 a1 a2 a3 a4).age = a4.age ∧ (removeNow a0 a1 a2 a3 a4).fab = a4.fab ∧
    (removeNow a0 a1 a2 a3 a4).bc = a4.bc ∧ (removeNow a0 a1 a2 a3 a4).mgt = a4.mgt ∧ (removeNow a0 a1 a2 a3 a4).cmd = a4.cmd ∧
    (removeNow a0 a1 a2 a3 a4).prot = a4.prot ∧ (removeNow a0 a1 a2 a3 a4).mem = a4.mem ∧ (removeNow a0 a1 a2 a3 a4).dma = a4.dma ∧
    (removeNow a0 a1 a2 a3 a4).nid = a4.nid ∧ (removeNow a0 a1 a2 a3 a4).boot = a4.boot ∧ (removeNow a0 a1 a2 a3 a4).img = a4.img ∧
    (removeNow a0 a1 a2 a3 a4).posted = a4.posted ∧ (removeNow a0 a1 a2 a3 a4).nvPosted = a4.nvPosted ∧ (nowNs (removeNow a0 a1 a2 a3 a4) = nowNs a4 ) ∧
    (imgOf (removeNow a0 a1 a2 a3 a4) = imgOf a4 ) ∧ (serving (removeNow a0 a1 a2 a3 a4) = serving a4 ) ∧ (working (removeNow a0 a1 a2 a3 a4) = working a4 ) ∧
    (alive (removeNow a0 a1 a2 a3 a4) = alive a4 ) ∧ (upState (removeNow a0 a1 a2 a3 a4) = upState a4 ) ∧ (portOn (removeNow a0 a1 a2 a3 a4) = portOn a4 ) ∧
    (∀ (e : Env), dieNo e (removeNow a0 a1 a2 a3 a4) = dieNo e a4 ) ∧ (∀ (e : Env), nodeNo e (removeNow a0 a1 a2 a3 a4) = nodeNo e a4 ) ∧ (∀ (e : Env) (c : Nat), coreId e (removeNow a0 a1 a2 a3 a4) c = coreId e a4 c) ∧
    (∀ (e : Env) (c : Nat), unitId e (removeNow a0 a1 a2 a3 a4) c = unitId e a4 c) ∧ (∀ (c : Nat), chan (removeNow a0 a1 a2 a3 a4) c = chan a4 c) ∧ (∀ (x : Word), entOk (removeNow a0 a1 a2 a3 a4) x = entOk a4 x) ∧
    (∀ (c : Nat), probing (removeNow a0 a1 a2 a3 a4) c = probing a4 c) ∧ (∀ (e : Env) (x : Word), presentCore e (removeNow a0 a1 a2 a3 a4) x = presentCore e a4 x) := by
  have k := (removeNow_only a0 a1 a2 a3 a4).keep
  exact ⟨k .free (by decide), k .sys (by decide), k .time (by decide), k .res (by decide), k .dig (by decide), k .xs (by decide), k .ens (by decide), k .age (by decide), k .fab (by decide), k .bc (by decide), k .mgt (by decide), k .cmd (by decide), k .prot (by decide), k .mem (by decide), k .dma (by decide), k .nid (by decide), k .boot (by decide), k .img (by decide), k .ram (by decide), k .nvm (by decide), nowNs_congr (k .time (by decide)), imgOf_congr (k .img (by decide)), serving_congr (k .sys (by decide)), working_congr (k .sys (by decide)), alive_congr (k .sys (by decide)), upState_congr (k .sys (by decide)), portOn_congr (k .sys (by decide)), fun e  => dieNo_congr e (k .img (by decide)), fun e  => nodeNo_congr e (k .img (by decide)), fun e c => coreId_congr e (k .img (by decide)) c, fun e c => unitId_congr e (k .img (by decide)) c, fun c => chan_congr (k .cmd (by decide)) c, fun x => entOk_congr (k .img (by decide)) x, fun c => probing_congr (k .age (by decide)) c, fun e x => presentCore_congr e (k .img (by decide)) x⟩

@[simp] theorem verdictEffects_reads (a0 a1 a2 a3 a4) :
    (verdictEffects a0 a1 a2 a3 a4).free = a4.free ∧ (verdictEffects a0 a1 a2 a3 a4).sys = a4.sys ∧ (verdictEffects a0 a1 a2 a3 a4).time = a4.time ∧
    (verdictEffects a0 a1 a2 a3 a4).res = a4.res ∧ (verdictEffects a0 a1 a2 a3 a4).dig = a4.dig ∧ (verdictEffects a0 a1 a2 a3 a4).xs = a4.xs ∧
    (verdictEffects a0 a1 a2 a3 a4).ens = a4.ens ∧ (verdictEffects a0 a1 a2 a3 a4).age = a4.age ∧ (verdictEffects a0 a1 a2 a3 a4).fab = a4.fab ∧
    (verdictEffects a0 a1 a2 a3 a4).sb = a4.sb ∧ (verdictEffects a0 a1 a2 a3 a4).bc = a4.bc ∧ (verdictEffects a0 a1 a2 a3 a4).mgt = a4.mgt ∧
    (verdictEffects a0 a1 a2 a3 a4).cmd = a4.cmd ∧ (verdictEffects a0 a1 a2 a3 a4).prot = a4.prot ∧ (verdictEffects a0 a1 a2 a3 a4).mem = a4.mem ∧
    (verdictEffects a0 a1 a2 a3 a4).dma = a4.dma ∧ (verdictEffects a0 a1 a2 a3 a4).nid = a4.nid ∧ (verdictEffects a0 a1 a2 a3 a4).boot = a4.boot ∧
    (verdictEffects a0 a1 a2 a3 a4).img = a4.img ∧ (verdictEffects a0 a1 a2 a3 a4).posted = a4.posted ∧ (verdictEffects a0 a1 a2 a3 a4).nvPosted = a4.nvPosted ∧
    (nowNs (verdictEffects a0 a1 a2 a3 a4) = nowNs a4 ) ∧ (imgOf (verdictEffects a0 a1 a2 a3 a4) = imgOf a4 ) ∧ (serving (verdictEffects a0 a1 a2 a3 a4) = serving a4 ) ∧
    (working (verdictEffects a0 a1 a2 a3 a4) = working a4 ) ∧ (alive (verdictEffects a0 a1 a2 a3 a4) = alive a4 ) ∧ (upState (verdictEffects a0 a1 a2 a3 a4) = upState a4 ) ∧
    (portOn (verdictEffects a0 a1 a2 a3 a4) = portOn a4 ) ∧ (∀ (e : Env), dieNo e (verdictEffects a0 a1 a2 a3 a4) = dieNo e a4 ) ∧ (∀ (e : Env), nodeNo e (verdictEffects a0 a1 a2 a3 a4) = nodeNo e a4 ) ∧
    (∀ (e : Env) (c : Nat), coreId e (verdictEffects a0 a1 a2 a3 a4) c = coreId e a4 c) ∧ (∀ (e : Env) (c : Nat), unitId e (verdictEffects a0 a1 a2 a3 a4) c = unitId e a4 c) ∧ (∀ (c : Nat), chan (verdictEffects a0 a1 a2 a3 a4) c = chan a4 c) ∧
    (∀ (x : Word), entOk (verdictEffects a0 a1 a2 a3 a4) x = entOk a4 x) ∧ (∀ (c : Nat), probing (verdictEffects a0 a1 a2 a3 a4) c = probing a4 c) ∧ (∀ (e : Env) (x : Word), presentCore e (verdictEffects a0 a1 a2 a3 a4) x = presentCore e a4 x) := by
  have k := (verdictEffects_only a0 a1 a2 a3 a4).keep
  exact ⟨k .free (by decide), k .sys (by decide), k .time (by decide), k .res (by decide), k .dig (by decide), k .xs (by decide), k .ens (by decide), k .age (by decide), k .fab (by decide), k .sb (by decide), k .bc (by decide), k .mgt (by decide), k .cmd (by decide), k .prot (by decide), k .mem (by decide), k .dma (by decide), k .nid (by decide), k .boot (by decide), k .img (by decide), k .ram (by decide), k .nvm (by decide), nowNs_congr (k .time (by decide)), imgOf_congr (k .img (by decide)), serving_congr (k .sys (by decide)), working_congr (k .sys (by decide)), alive_congr (k .sys (by decide)), upState_congr (k .sys (by decide)), portOn_congr (k .sys (by decide)), fun e  => dieNo_congr e (k .img (by decide)), fun e  => nodeNo_congr e (k .img (by decide)), fun e c => coreId_congr e (k .img (by decide)) c, fun e c => unitId_congr e (k .img (by decide)) c, fun c => chan_congr (k .cmd (by decide)) c, fun x => entOk_congr (k .img (by decide)) x, fun c => probing_congr (k .age (by decide)) c, fun e x => presentCore_congr e (k .img (by decide)) x⟩

@[simp] theorem raiseAct_reads (a0 a1 a2 a3 a4 a5) :
    (raiseAct a0 a1 a2 a3 a4 a5).free = a5.free ∧ (raiseAct a0 a1 a2 a3 a4 a5).sys = a5.sys ∧ (raiseAct a0 a1 a2 a3 a4 a5).isl = a5.isl ∧
    (raiseAct a0 a1 a2 a3 a4 a5).time = a5.time ∧ (raiseAct a0 a1 a2 a3 a4 a5).hubc = a5.hubc ∧ (raiseAct a0 a1 a2 a3 a4 a5).res = a5.res ∧
    (raiseAct a0 a1 a2 a3 a4 a5).dig = a5.dig ∧ (raiseAct a0 a1 a2 a3 a4 a5).xs = a5.xs ∧ (raiseAct a0 a1 a2 a3 a4 a5).ens = a5.ens ∧
    (raiseAct a0 a1 a2 a3 a4 a5).age = a5.age ∧ (raiseAct a0 a1 a2 a3 a4 a5).fab = a5.fab ∧ (raiseAct a0 a1 a2 a3 a4 a5).sb = a5.sb ∧
    (raiseAct a0 a1 a2 a3 a4 a5).bc = a5.bc ∧ (raiseAct a0 a1 a2 a3 a4 a5).jobs = a5.jobs ∧ (raiseAct a0 a1 a2 a3 a4 a5).mgt = a5.mgt ∧
    (raiseAct a0 a1 a2 a3 a4 a5).cmd = a5.cmd ∧ (raiseAct a0 a1 a2 a3 a4 a5).prot = a5.prot ∧ (raiseAct a0 a1 a2 a3 a4 a5).mem = a5.mem ∧
    (raiseAct a0 a1 a2 a3 a4 a5).dma = a5.dma ∧ (raiseAct a0 a1 a2 a3 a4 a5).nid = a5.nid ∧ (raiseAct a0 a1 a2 a3 a4 a5).boot = a5.boot ∧
    (raiseAct a0 a1 a2 a3 a4 a5).img = a5.img ∧ (raiseAct a0 a1 a2 a3 a4 a5).posted = a5.posted ∧ (raiseAct a0 a1 a2 a3 a4 a5).nvPosted = a5.nvPosted ∧
    (∀ (c : Nat), Sys2Proof.Machine.hubc (raiseAct a0 a1 a2 a3 a4 a5) c = Sys2Proof.Machine.hubc a5 c) ∧ (nowNs (raiseAct a0 a1 a2 a3 a4 a5) = nowNs a5 ) ∧ (imgOf (raiseAct a0 a1 a2 a3 a4 a5) = imgOf a5 ) ∧
    (serving (raiseAct a0 a1 a2 a3 a4 a5) = serving a5 ) ∧ (working (raiseAct a0 a1 a2 a3 a4 a5) = working a5 ) ∧ (alive (raiseAct a0 a1 a2 a3 a4 a5) = alive a5 ) ∧
    (upState (raiseAct a0 a1 a2 a3 a4 a5) = upState a5 ) ∧ (portOn (raiseAct a0 a1 a2 a3 a4 a5) = portOn a5 ) ∧ (∀ (e : Env), dieNo e (raiseAct a0 a1 a2 a3 a4 a5) = dieNo e a5 ) ∧
    (∀ (e : Env), nodeNo e (raiseAct a0 a1 a2 a3 a4 a5) = nodeNo e a5 ) ∧ (∀ (e : Env) (c : Nat), coreId e (raiseAct a0 a1 a2 a3 a4 a5) c = coreId e a5 c) ∧ (∀ (e : Env) (c : Nat), unitId e (raiseAct a0 a1 a2 a3 a4 a5) c = unitId e a5 c) ∧
    (∀ (c : Nat), chan (raiseAct a0 a1 a2 a3 a4 a5) c = chan a5 c) ∧ (∀ (x : Word), entOk (raiseAct a0 a1 a2 a3 a4 a5) x = entOk a5 x) ∧ (∀ (c : Nat), groupOf (raiseAct a0 a1 a2 a3 a4 a5) c = groupOf a5 c) ∧
    (∀ (c : Nat), probing (raiseAct a0 a1 a2 a3 a4 a5) c = probing a5 c) ∧ (∀ (e : Env) (x : Word), presentCore e (raiseAct a0 a1 a2 a3 a4 a5) x = presentCore e a5 x) := by
  have k := (raiseAct_only a0 a1 a2 a3 a4 a5).keep
  exact ⟨k .free (by decide), k .sys (by decide), k .isl (by decide), k .time (by decide), k .hubc (by decide), k .res (by decide), k .dig (by decide), k .xs (by decide), k .ens (by decide), k .age (by decide), k .fab (by decide), k .sb (by decide), k .bc (by decide), k .jobs (by decide), k .mgt (by decide), k .cmd (by decide), k .prot (by decide), k .mem (by decide), k .dma (by decide), k .nid (by decide), k .boot (by decide), k .img (by decide), k .ram (by decide), k .nvm (by decide), fun c => hubc_congr (k .hubc (by decide)) c, nowNs_congr (k .time (by decide)), imgOf_congr (k .img (by decide)), serving_congr (k .sys (by decide)), working_congr (k .sys (by decide)), alive_congr (k .sys (by decide)), upState_congr (k .sys (by decide)), portOn_congr (k .sys (by decide)), fun e  => dieNo_congr e (k .img (by decide)), fun e  => nodeNo_congr e (k .img (by decide)), fun e c => coreId_congr e (k .img (by decide)) c, fun e c => unitId_congr e (k .img (by decide)) c, fun c => chan_congr (k .cmd (by decide)) c, fun x => entOk_congr (k .img (by decide)) x, fun c => groupOf_congr (k .img (by decide)) (k .jobs (by decide)) c, fun c => probing_congr (k .age (by decide)) c, fun e x => presentCore_congr e (k .img (by decide)) x⟩

@[simp] theorem startTest_reads (a0 a1 a2 a3) :
    (startTest a0 a1 a2 a3).free = a3.free ∧ (startTest a0 a1 a2 a3).sys = a3.sys ∧ (startTest a0 a1 a2 a3).isl = a3.isl ∧
    (startTest a0 a1 a2 a3).time = a3.time ∧ (startTest a0 a1 a2 a3).res = a3.res ∧ (startTest a0 a1 a2 a3).dig = a3.dig ∧
    (startTest a0 a1 a2 a3).xs = a3.xs ∧ (startTest a0 a1 a2 a3).ens = a3.ens ∧ (startTest a0 a1 a2 a3).age = a3.age ∧
    (startTest a0 a1 a2 a3).fab = a3.fab ∧ (startTest a0 a1 a2 a3).sb = a3.sb ∧ (startTest a0 a1 a2 a3).bc = a3.bc ∧
    (startTest a0 a1 a2 a3).jobs = a3.jobs ∧ (startTest a0 a1 a2 a3).mgt = a3.mgt ∧ (startTest a0 a1 a2 a3).prot = a3.prot ∧
    (startTest a0 a1 a2 a3).mem = a3.mem ∧ (startTest a0 a1 a2 a3).dma = a3.dma ∧ (startTest a0 a1 a2 a3).trc = a3.trc ∧
    (startTest a0 a1 a2 a3).nid = a3.nid ∧ (startTest a0 a1 a2 a3).boot = a3.boot ∧ (startTest a0 a1 a2 a3).img = a3.img ∧
    (startTest a0 a1 a2 a3).reports = a3.reports ∧ (startTest a0 a1 a2 a3).posted = a3.posted ∧ (startTest a0 a1 a2 a3).nvPosted = a3.nvPosted ∧
    (nowNs (startTest a0 a1 a2 a3) = nowNs a3 ) ∧ (imgOf (startTest a0 a1 a2 a3) = imgOf a3 ) ∧ (serving (startTest a0 a1 a2 a3) = serving a3 ) ∧
    (working (startTest a0 a1 a2 a3) = working a3 ) ∧ (alive (startTest a0 a1 a2 a3) = alive a3 ) ∧ (upState (startTest a0 a1 a2 a3) = upState a3 ) ∧
    (portOn (startTest a0 a1 a2 a3) = portOn a3 ) ∧ (∀ (e : Env), dieNo e (startTest a0 a1 a2 a3) = dieNo e a3 ) ∧ (∀ (e : Env), nodeNo e (startTest a0 a1 a2 a3) = nodeNo e a3 ) ∧
    (∀ (e : Env) (c : Nat), coreId e (startTest a0 a1 a2 a3) c = coreId e a3 c) ∧ (∀ (e : Env) (c : Nat), unitId e (startTest a0 a1 a2 a3) c = unitId e a3 c) ∧ (∀ (x : Word), entOk (startTest a0 a1 a2 a3) x = entOk a3 x) ∧
    (∀ (c : Nat), groupOf (startTest a0 a1 a2 a3) c = groupOf a3 c) ∧ (∀ (c : Nat), probing (startTest a0 a1 a2 a3) c = probing a3 c) ∧ (∀ (e : Env) (x : Word), presentCore e (startTest a0 a1 a2 a3) x = presentCore e a3 x) := by
  have k := (startTest_only a0 a1 a2 a3).keep
  exact ⟨k .free (by decide), k .sys (by decide), k .isl (by decide), k .time (by decide), k .res (by decide), k .dig (by decide), k .xs (by decide), k .ens (by decide), k .age (by decide), k .fab (by decide), k .sb (by decide), k .bc (by decide), k .jobs (by decide), k .mgt (by decide), k .prot (by decide), k .mem (by decide), k .dma (by decide), k .trc (by decide), k .nid (by decide), k .boot (by decide), k .img (by decide), k .reports (by decide), k .ram (by decide), k .nvm (by decide), nowNs_congr (k .time (by decide)), imgOf_congr (k .img (by decide)), serving_congr (k .sys (by decide)), working_congr (k .sys (by decide)), alive_congr (k .sys (by decide)), upState_congr (k .sys (by decide)), portOn_congr (k .sys (by decide)), fun e  => dieNo_congr e (k .img (by decide)), fun e  => nodeNo_congr e (k .img (by decide)), fun e c => coreId_congr e (k .img (by decide)) c, fun e c => unitId_congr e (k .img (by decide)) c, fun x => entOk_congr (k .img (by decide)) x, fun c => groupOf_congr (k .img (by decide)) (k .jobs (by decide)) c, fun c => probing_congr (k .age (by decide)) c, fun e x => presentCore_congr e (k .img (by decide)) x⟩

@[simp] theorem startTests_reads (a0 a1 a2) :
    (startTests a0 a1 a2).free = a2.free ∧ (startTests a0 a1 a2).sys = a2.sys ∧ (startTests a0 a1 a2).isl = a2.isl ∧
    (startTests a0 a1 a2).time = a2.time ∧ (startTests a0 a1 a2).res = a2.res ∧ (startTests a0 a1 a2).dig = a2.dig ∧
    (startTests a0 a1 a2).xs = a2.xs ∧ (startTests a0 a1 a2).ens = a2.ens ∧ (startTests a0 a1 a2).age = a2.age ∧
    (startTests a0 a1 a2).fab = a2.fab ∧ (startTests a0 a1 a2).sb = a2.sb ∧ (startTests a0 a1 a2).bc = a2.bc ∧
    (startTests a0 a1 a2).jobs = a2.jobs ∧ (startTests a0 a1 a2).mgt = a2.mgt ∧ (startTests a0 a1 a2).prot = a2.prot ∧
    (startTests a0 a1 a2).mem = a2.mem ∧ (startTests a0 a1 a2).dma = a2.dma ∧ (startTests a0 a1 a2).trc = a2.trc ∧
    (startTests a0 a1 a2).nid = a2.nid ∧ (startTests a0 a1 a2).boot = a2.boot ∧ (startTests a0 a1 a2).img = a2.img ∧
    (startTests a0 a1 a2).reports = a2.reports ∧ (startTests a0 a1 a2).posted = a2.posted ∧ (startTests a0 a1 a2).nvPosted = a2.nvPosted ∧
    (nowNs (startTests a0 a1 a2) = nowNs a2 ) ∧ (imgOf (startTests a0 a1 a2) = imgOf a2 ) ∧ (serving (startTests a0 a1 a2) = serving a2 ) ∧
    (working (startTests a0 a1 a2) = working a2 ) ∧ (alive (startTests a0 a1 a2) = alive a2 ) ∧ (upState (startTests a0 a1 a2) = upState a2 ) ∧
    (portOn (startTests a0 a1 a2) = portOn a2 ) ∧ (∀ (e : Env), dieNo e (startTests a0 a1 a2) = dieNo e a2 ) ∧ (∀ (e : Env), nodeNo e (startTests a0 a1 a2) = nodeNo e a2 ) ∧
    (∀ (e : Env) (c : Nat), coreId e (startTests a0 a1 a2) c = coreId e a2 c) ∧ (∀ (e : Env) (c : Nat), unitId e (startTests a0 a1 a2) c = unitId e a2 c) ∧ (∀ (x : Word), entOk (startTests a0 a1 a2) x = entOk a2 x) ∧
    (∀ (c : Nat), groupOf (startTests a0 a1 a2) c = groupOf a2 c) ∧ (∀ (c : Nat), probing (startTests a0 a1 a2) c = probing a2 c) ∧ (∀ (e : Env) (x : Word), presentCore e (startTests a0 a1 a2) x = presentCore e a2 x) := by
  have k := (startTests_only a0 a1 a2).keep
  exact ⟨k .free (by decide), k .sys (by decide), k .isl (by decide), k .time (by decide), k .res (by decide), k .dig (by decide), k .xs (by decide), k .ens (by decide), k .age (by decide), k .fab (by decide), k .sb (by decide), k .bc (by decide), k .jobs (by decide), k .mgt (by decide), k .prot (by decide), k .mem (by decide), k .dma (by decide), k .trc (by decide), k .nid (by decide), k .boot (by decide), k .img (by decide), k .reports (by decide), k .ram (by decide), k .nvm (by decide), nowNs_congr (k .time (by decide)), imgOf_congr (k .img (by decide)), serving_congr (k .sys (by decide)), working_congr (k .sys (by decide)), alive_congr (k .sys (by decide)), upState_congr (k .sys (by decide)), portOn_congr (k .sys (by decide)), fun e  => dieNo_congr e (k .img (by decide)), fun e  => nodeNo_congr e (k .img (by decide)), fun e c => coreId_congr e (k .img (by decide)) c, fun e c => unitId_congr e (k .img (by decide)) c, fun x => entOk_congr (k .img (by decide)) x, fun c => groupOf_congr (k .img (by decide)) (k .jobs (by decide)) c, fun c => probing_congr (k .age (by decide)) c, fun e x => presentCore_congr e (k .img (by decide)) x⟩

@[simp] theorem quickAct_reads (a0 a1 a2) :
    (quickAct a0 a1 a2).free = a2.free ∧ (quickAct a0 a1 a2).sys = a2.sys ∧ (quickAct a0 a1 a2).isl = a2.isl ∧
    (quickAct a0 a1 a2).time = a2.time ∧ (quickAct a0 a1 a2).res = a2.res ∧ (quickAct a0 a1 a2).dig = a2.dig ∧
    (quickAct a0 a1 a2).xs = a2.xs ∧ (quickAct a0 a1 a2).ens = a2.ens ∧ (quickAct a0 a1 a2).age = a2.age ∧
    (quickAct a0 a1 a2).fab = a2.fab ∧ (quickAct a0 a1 a2).sb = a2.sb ∧ (quickAct a0 a1 a2).bc = a2.bc ∧
    (quickAct a0 a1 a2).jobs = a2.jobs ∧ (quickAct a0 a1 a2).mgt = a2.mgt ∧ (quickAct a0 a1 a2).cmd = a2.cmd ∧
    (quickAct a0 a1 a2).prot = a2.prot ∧ (quickAct a0 a1 a2).mem = a2.mem ∧ (quickAct a0 a1 a2).dma = a2.dma ∧
    (quickAct a0 a1 a2).nid = a2.nid ∧ (quickAct a0 a1 a2).boot = a2.boot ∧ (quickAct a0 a1 a2).img = a2.img ∧
    (quickAct a0 a1 a2).posted = a2.posted ∧ (quickAct a0 a1 a2).nvPosted = a2.nvPosted ∧ (nowNs (quickAct a0 a1 a2) = nowNs a2 ) ∧
    (imgOf (quickAct a0 a1 a2) = imgOf a2 ) ∧ (serving (quickAct a0 a1 a2) = serving a2 ) ∧ (working (quickAct a0 a1 a2) = working a2 ) ∧
    (alive (quickAct a0 a1 a2) = alive a2 ) ∧ (upState (quickAct a0 a1 a2) = upState a2 ) ∧ (portOn (quickAct a0 a1 a2) = portOn a2 ) ∧
    (∀ (e : Env), dieNo e (quickAct a0 a1 a2) = dieNo e a2 ) ∧ (∀ (e : Env), nodeNo e (quickAct a0 a1 a2) = nodeNo e a2 ) ∧ (∀ (e : Env) (c : Nat), coreId e (quickAct a0 a1 a2) c = coreId e a2 c) ∧
    (∀ (e : Env) (c : Nat), unitId e (quickAct a0 a1 a2) c = unitId e a2 c) ∧ (∀ (c : Nat), chan (quickAct a0 a1 a2) c = chan a2 c) ∧ (∀ (x : Word), entOk (quickAct a0 a1 a2) x = entOk a2 x) ∧
    (∀ (c : Nat), groupOf (quickAct a0 a1 a2) c = groupOf a2 c) ∧ (∀ (c : Nat), probing (quickAct a0 a1 a2) c = probing a2 c) ∧ (∀ (e : Env) (x : Word), presentCore e (quickAct a0 a1 a2) x = presentCore e a2 x) := by
  have k := (quickAct_only a0 a1 a2).keep
  exact ⟨k .free (by decide), k .sys (by decide), k .isl (by decide), k .time (by decide), k .res (by decide), k .dig (by decide), k .xs (by decide), k .ens (by decide), k .age (by decide), k .fab (by decide), k .sb (by decide), k .bc (by decide), k .jobs (by decide), k .mgt (by decide), k .cmd (by decide), k .prot (by decide), k .mem (by decide), k .dma (by decide), k .nid (by decide), k .boot (by decide), k .img (by decide), k .ram (by decide), k .nvm (by decide), nowNs_congr (k .time (by decide)), imgOf_congr (k .img (by decide)), serving_congr (k .sys (by decide)), working_congr (k .sys (by decide)), alive_congr (k .sys (by decide)), upState_congr (k .sys (by decide)), portOn_congr (k .sys (by decide)), fun e  => dieNo_congr e (k .img (by decide)), fun e  => nodeNo_congr e (k .img (by decide)), fun e c => coreId_congr e (k .img (by decide)) c, fun e c => unitId_congr e (k .img (by decide)) c, fun c => chan_congr (k .cmd (by decide)) c, fun x => entOk_congr (k .img (by decide)) x, fun c => groupOf_congr (k .img (by decide)) (k .jobs (by decide)) c, fun c => probing_congr (k .age (by decide)) c, fun e x => presentCore_congr e (k .img (by decide)) x⟩

@[simp] theorem noteCmd_reads (a0 a1) :
    (noteCmd a0 a1).free = a1.free ∧ (noteCmd a0 a1).sys = a1.sys ∧ (noteCmd a0 a1).isl = a1.isl ∧
    (noteCmd a0 a1).time = a1.time ∧ (noteCmd a0 a1).regions = a1.regions ∧ (noteCmd a0 a1).cells = a1.cells ∧
    (noteCmd a0 a1).hubc = a1.hubc ∧ (noteCmd a0 a1).res = a1.res ∧ (noteCmd a0 a1).dig = a1.dig ∧
    (noteCmd a0 a1).xs = a1.xs ∧ (noteCmd a0 a1).ens = a1.ens ∧ (noteCmd a0 a1).age = a1.age ∧
    (noteCmd a0 a1).fab = a1.fab ∧ (noteCmd a0 a1).sb = a1.sb ∧ (noteCmd a0 a1).bc = a1.bc ∧
    (noteCmd a0 a1).jobs = a1.jobs ∧ (noteCmd a0 a1).mgt = a1.mgt ∧ (noteCmd a0 a1).cmd = a1.cmd ∧
    (noteCmd a0 a1).prot = a1.prot ∧ (noteCmd a0 a1).regs = a1.regs ∧ (noteCmd a0 a1).mem = a1.mem ∧
    (noteCmd a0 a1).dma = a1.dma ∧ (noteCmd a0 a1).trc = a1.trc ∧ (noteCmd a0 a1).nid = a1.nid ∧
    (noteCmd a0 a1).log = a1.log ∧ (noteCmd a0 a1).boot = a1.boot ∧ (noteCmd a0 a1).img = a1.img ∧
    (noteCmd a0 a1).reports = a1.reports ∧ (noteCmd a0 a1).posted = a1.posted ∧ (noteCmd a0 a1).nvPosted = a1.nvPosted ∧
    (∀ (c : Nat), cell (noteCmd a0 a1) c = cell a1 c) ∧ (∀ (c : Nat), Sys2Proof.Machine.hubc (noteCmd a0 a1) c = Sys2Proof.Machine.hubc a1 c) ∧ (∀ (c : Nat), region (noteCmd a0 a1) c = region a1 c) ∧
    (nowNs (noteCmd a0 a1) = nowNs a1 ) ∧ (imgOf (noteCmd a0 a1) = imgOf a1 ) ∧ (serving (noteCmd a0 a1) = serving a1 ) ∧
    (working (noteCmd a0 a1) = working a1 ) ∧ (alive (noteCmd a0 a1) = alive a1 ) ∧ (upState (noteCmd a0 a1) = upState a1 ) ∧
    (portOn (noteCmd a0 a1) = portOn a1 ) ∧ (∀ (e : Env), dieNo e (noteCmd a0 a1) = dieNo e a1 ) ∧ (∀ (e : Env), nodeNo e (noteCmd a0 a1) = nodeNo e a1 ) ∧
    (∀ (e : Env) (c : Nat), coreId e (noteCmd a0 a1) c = coreId e a1 c) ∧ (∀ (e : Env) (c : Nat), unitId e (noteCmd a0 a1) c = unitId e a1 c) ∧ (∀ (c : Nat), chan (noteCmd a0 a1) c = chan a1 c) ∧
    (∀ (x : Word), entOk (noteCmd a0 a1) x = entOk a1 x) ∧ (∀ (c : Nat), groupOf (noteCmd a0 a1) c = groupOf a1 c) ∧ (∀ (c : Nat), probing (noteCmd a0 a1) c = probing a1 c) ∧
    (∀ (e : Env) (x : Word), presentCore e (noteCmd a0 a1) x = presentCore e a1 x) := by
  have k := (noteCmd_only a0 a1).keep
  exact ⟨k .free (by decide), k .sys (by decide), k .isl (by decide), k .time (by decide), k .regions (by decide), k .cells (by decide), k .hubc (by decide), k .res (by decide), k .dig (by decide), k .xs (by decide), k .ens (by decide), k .age (by decide), k .fab (by decide), k .sb (by decide), k .bc (by decide), k .jobs (by decide), k .mgt (by decide), k .cmd (by decide), k .prot (by decide), k .regs (by decide), k .mem (by decide), k .dma (by decide), k .trc (by decide), k .nid (by decide), k .log (by decide), k .boot (by decide), k .img (by decide), k .reports (by decide), k .ram (by decide), k .nvm (by decide), fun c => cell_congr (k .cells (by decide)) c, fun c => hubc_congr (k .hubc (by decide)) c, fun c => region_congr (k .regions (by decide)) c, nowNs_congr (k .time (by decide)), imgOf_congr (k .img (by decide)), serving_congr (k .sys (by decide)), working_congr (k .sys (by decide)), alive_congr (k .sys (by decide)), upState_congr (k .sys (by decide)), portOn_congr (k .sys (by decide)), fun e  => dieNo_congr e (k .img (by decide)), fun e  => nodeNo_congr e (k .img (by decide)), fun e c => coreId_congr e (k .img (by decide)) c, fun e c => unitId_congr e (k .img (by decide)) c, fun c => chan_congr (k .cmd (by decide)) c, fun x => entOk_congr (k .img (by decide)) x, fun c => groupOf_congr (k .img (by decide)) (k .jobs (by decide)) c, fun c => probing_congr (k .age (by decide)) c, fun e x => presentCore_congr e (k .img (by decide)) x⟩

@[simp] theorem actDone_reads (a0 a1 a2 a3) :
    (actDone a0 a1 a2 a3).free = a3.free ∧ (actDone a0 a1 a2 a3).sys = a3.sys ∧ (actDone a0 a1 a2 a3).isl = a3.isl ∧
    (actDone a0 a1 a2 a3).time = a3.time ∧ (actDone a0 a1 a2 a3).regions = a3.regions ∧ (actDone a0 a1 a2 a3).cells = a3.cells ∧
    (actDone a0 a1 a2 a3).hubc = a3.hubc ∧ (actDone a0 a1 a2 a3).res = a3.res ∧ (actDone a0 a1 a2 a3).dig = a3.dig ∧
    (actDone a0 a1 a2 a3).xs = a3.xs ∧ (actDone a0 a1 a2 a3).ens = a3.ens ∧ (actDone a0 a1 a2 a3).age = a3.age ∧
    (actDone a0 a1 a2 a3).fab = a3.fab ∧ (actDone a0 a1 a2 a3).sb = a3.sb ∧ (actDone a0 a1 a2 a3).bc = a3.bc ∧
    (actDone a0 a1 a2 a3).jobs = a3.jobs ∧ (actDone a0 a1 a2 a3).mgt = a3.mgt ∧ (actDone a0 a1 a2 a3).cmd = a3.cmd ∧
    (actDone a0 a1 a2 a3).prot = a3.prot ∧ (actDone a0 a1 a2 a3).mem = a3.mem ∧ (actDone a0 a1 a2 a3).dma = a3.dma ∧
    (actDone a0 a1 a2 a3).trc = a3.trc ∧ (actDone a0 a1 a2 a3).nid = a3.nid ∧ (actDone a0 a1 a2 a3).boot = a3.boot ∧
    (actDone a0 a1 a2 a3).img = a3.img ∧ (actDone a0 a1 a2 a3).reports = a3.reports ∧ (actDone a0 a1 a2 a3).posted = a3.posted ∧
    (actDone a0 a1 a2 a3).nvPosted = a3.nvPosted ∧ (∀ (c : Nat), cell (actDone a0 a1 a2 a3) c = cell a3 c) ∧ (∀ (c : Nat), Sys2Proof.Machine.hubc (actDone a0 a1 a2 a3) c = Sys2Proof.Machine.hubc a3 c) ∧
    (∀ (c : Nat), region (actDone a0 a1 a2 a3) c = region a3 c) ∧ (nowNs (actDone a0 a1 a2 a3) = nowNs a3 ) ∧ (imgOf (actDone a0 a1 a2 a3) = imgOf a3 ) ∧
    (serving (actDone a0 a1 a2 a3) = serving a3 ) ∧ (working (actDone a0 a1 a2 a3) = working a3 ) ∧ (alive (actDone a0 a1 a2 a3) = alive a3 ) ∧
    (upState (actDone a0 a1 a2 a3) = upState a3 ) ∧ (portOn (actDone a0 a1 a2 a3) = portOn a3 ) ∧ (∀ (e : Env), dieNo e (actDone a0 a1 a2 a3) = dieNo e a3 ) ∧
    (∀ (e : Env), nodeNo e (actDone a0 a1 a2 a3) = nodeNo e a3 ) ∧ (∀ (e : Env) (c : Nat), coreId e (actDone a0 a1 a2 a3) c = coreId e a3 c) ∧ (∀ (e : Env) (c : Nat), unitId e (actDone a0 a1 a2 a3) c = unitId e a3 c) ∧
    (∀ (c : Nat), chan (actDone a0 a1 a2 a3) c = chan a3 c) ∧ (∀ (x : Word), entOk (actDone a0 a1 a2 a3) x = entOk a3 x) ∧ (∀ (c : Nat), groupOf (actDone a0 a1 a2 a3) c = groupOf a3 c) ∧
    (∀ (c : Nat), probing (actDone a0 a1 a2 a3) c = probing a3 c) ∧ (∀ (e : Env) (x : Word), presentCore e (actDone a0 a1 a2 a3) x = presentCore e a3 x) := by
  have k := (actDone_only a0 a1 a2 a3).keep
  exact ⟨k .free (by decide), k .sys (by decide), k .isl (by decide), k .time (by decide), k .regions (by decide), k .cells (by decide), k .hubc (by decide), k .res (by decide), k .dig (by decide), k .xs (by decide), k .ens (by decide), k .age (by decide), k .fab (by decide), k .sb (by decide), k .bc (by decide), k .jobs (by decide), k .mgt (by decide), k .cmd (by decide), k .prot (by decide), k .mem (by decide), k .dma (by decide), k .trc (by decide), k .nid (by decide), k .boot (by decide), k .img (by decide), k .reports (by decide), k .ram (by decide), k .nvm (by decide), fun c => cell_congr (k .cells (by decide)) c, fun c => hubc_congr (k .hubc (by decide)) c, fun c => region_congr (k .regions (by decide)) c, nowNs_congr (k .time (by decide)), imgOf_congr (k .img (by decide)), serving_congr (k .sys (by decide)), working_congr (k .sys (by decide)), alive_congr (k .sys (by decide)), upState_congr (k .sys (by decide)), portOn_congr (k .sys (by decide)), fun e  => dieNo_congr e (k .img (by decide)), fun e  => nodeNo_congr e (k .img (by decide)), fun e c => coreId_congr e (k .img (by decide)) c, fun e c => unitId_congr e (k .img (by decide)) c, fun c => chan_congr (k .cmd (by decide)) c, fun x => entOk_congr (k .img (by decide)) x, fun c => groupOf_congr (k .img (by decide)) (k .jobs (by decide)) c, fun c => probing_congr (k .age (by decide)) c, fun e x => presentCore_congr e (k .img (by decide)) x⟩

@[simp] theorem unitFlag_reads (a0 a1 a2) :
    (unitFlag a0 a1 a2).free = a2.free ∧ (unitFlag a0 a1 a2).sys = a2.sys ∧ (unitFlag a0 a1 a2).isl = a2.isl ∧
    (unitFlag a0 a1 a2).time = a2.time ∧ (unitFlag a0 a1 a2).regions = a2.regions ∧ (unitFlag a0 a1 a2).cells = a2.cells ∧
    (unitFlag a0 a1 a2).hubc = a2.hubc ∧ (unitFlag a0 a1 a2).res = a2.res ∧ (unitFlag a0 a1 a2).dig = a2.dig ∧
    (unitFlag a0 a1 a2).xs = a2.xs ∧ (unitFlag a0 a1 a2).casc = a2.casc ∧ (unitFlag a0 a1 a2).fab = a2.fab ∧
    (unitFlag a0 a1 a2).sb = a2.sb ∧ (unitFlag a0 a1 a2).bc = a2.bc ∧ (unitFlag a0 a1 a2).jobs = a2.jobs ∧
    (unitFlag a0 a1 a2).mgt = a2.mgt ∧ (unitFlag a0 a1 a2).cmd = a2.cmd ∧ (unitFlag a0 a1 a2).prot = a2.prot ∧
    (unitFlag a0 a1 a2).dma = a2.dma ∧ (unitFlag a0 a1 a2).trc = a2.trc ∧ (unitFlag a0 a1 a2).nid = a2.nid ∧
    (unitFlag a0 a1 a2).boot = a2.boot ∧ (unitFlag a0 a1 a2).img = a2.img ∧ (unitFlag a0 a1 a2).reports = a2.reports ∧
    (unitFlag a0 a1 a2).posted = a2.posted ∧ (unitFlag a0 a1 a2).nvPosted = a2.nvPosted ∧ (∀ (c : Nat), cell (unitFlag a0 a1 a2) c = cell a2 c) ∧
    (∀ (c : Nat), Sys2Proof.Machine.hubc (unitFlag a0 a1 a2) c = Sys2Proof.Machine.hubc a2 c) ∧ (∀ (c : Nat), region (unitFlag a0 a1 a2) c = region a2 c) ∧ (∀ (x : Word), entity (unitFlag a0 a1 a2) x = entity a2 x) ∧
    (nowNs (unitFlag a0 a1 a2) = nowNs a2 ) ∧ (imgOf (unitFlag a0 a1 a2) = imgOf a2 ) ∧ (serving (unitFlag a0 a1 a2) = serving a2 ) ∧
    (working (unitFlag a0 a1 a2) = working a2 ) ∧ (alive (unitFlag a0 a1 a2) = alive a2 ) ∧ (upState (unitFlag a0 a1 a2) = upState a2 ) ∧
    (portOn (unitFlag a0 a1 a2) = portOn a2 ) ∧ (∀ (e : Env), dieNo e (unitFlag a0 a1 a2) = dieNo e a2 ) ∧ (∀ (e : Env), nodeNo e (unitFlag a0 a1 a2) = nodeNo e a2 ) ∧
    (∀ (e : Env) (c : Nat), coreId e (unitFlag a0 a1 a2) c = coreId e a2 c) ∧ (∀ (e : Env) (c : Nat), unitId e (unitFlag a0 a1 a2) c = unitId e a2 c) ∧ (∀ (c : Nat), chan (unitFlag a0 a1 a2) c = chan a2 c) ∧
    (∀ (x : Word), entOk (unitFlag a0 a1 a2) x = entOk a2 x) ∧ (∀ (c : Nat), groupOf (unitFlag a0 a1 a2) c = groupOf a2 c) ∧ (∀ (e : Env) (x : Word), presentCore e (unitFlag a0 a1 a2) x = presentCore e a2 x) := by
  have k := (unitFlag_only a0 a1 a2).keep
  exact ⟨k .free (by decide), k .sys (by decide), k .isl (by decide), k .time (by decide), k .regions (by decide), k .cells (by decide), k .hubc (by decide), k .res (by decide), k .dig (by decide), k .xs (by decide), k .casc (by decide), k .fab (by decide), k .sb (by decide), k .bc (by decide), k .jobs (by decide), k .mgt (by decide), k .cmd (by decide), k .prot (by decide), k .dma (by decide), k .trc (by decide), k .nid (by decide), k .boot (by decide), k .img (by decide), k .reports (by decide), k .ram (by decide), k .nvm (by decide), fun c => cell_congr (k .cells (by decide)) c, fun c => hubc_congr (k .hubc (by decide)) c, fun c => region_congr (k .regions (by decide)) c, fun x => entity_congr (k .casc (by decide)) x, nowNs_congr (k .time (by decide)), imgOf_congr (k .img (by decide)), serving_congr (k .sys (by decide)), working_congr (k .sys (by decide)), alive_congr (k .sys (by decide)), upState_congr (k .sys (by decide)), portOn_congr (k .sys (by decide)), fun e  => dieNo_congr e (k .img (by decide)), fun e  => nodeNo_congr e (k .img (by decide)), fun e c => coreId_congr e (k .img (by decide)) c, fun e c => unitId_congr e (k .img (by decide)) c, fun c => chan_congr (k .cmd (by decide)) c, fun x => entOk_congr (k .img (by decide)) x, fun c => groupOf_congr (k .img (by decide)) (k .jobs (by decide)) c, fun e x => presentCore_congr e (k .img (by decide)) x⟩

@[simp] theorem unitCount_reads (a0 a1 a2) :
    (unitCount a0 a1 a2).free = a2.free ∧ (unitCount a0 a1 a2).sys = a2.sys ∧ (unitCount a0 a1 a2).isl = a2.isl ∧
    (unitCount a0 a1 a2).time = a2.time ∧ (unitCount a0 a1 a2).regions = a2.regions ∧ (unitCount a0 a1 a2).cells = a2.cells ∧
    (unitCount a0 a1 a2).hubc = a2.hubc ∧ (unitCount a0 a1 a2).res = a2.res ∧ (unitCount a0 a1 a2).dig = a2.dig ∧
    (unitCount a0 a1 a2).xs = a2.xs ∧ (unitCount a0 a1 a2).age = a2.age ∧ (unitCount a0 a1 a2).fab = a2.fab ∧
    (unitCount a0 a1 a2).sb = a2.sb ∧ (unitCount a0 a1 a2).bc = a2.bc ∧ (unitCount a0 a1 a2).jobs = a2.jobs ∧
    (unitCount a0 a1 a2).mgt = a2.mgt ∧ (unitCount a0 a1 a2).cmd = a2.cmd ∧ (unitCount a0 a1 a2).prot = a2.prot ∧
    (unitCount a0 a1 a2).dma = a2.dma ∧ (unitCount a0 a1 a2).trc = a2.trc ∧ (unitCount a0 a1 a2).nid = a2.nid ∧
    (unitCount a0 a1 a2).boot = a2.boot ∧ (unitCount a0 a1 a2).img = a2.img ∧ (unitCount a0 a1 a2).reports = a2.reports ∧
    (unitCount a0 a1 a2).posted = a2.posted ∧ (unitCount a0 a1 a2).nvPosted = a2.nvPosted ∧ (∀ (c : Nat), cell (unitCount a0 a1 a2) c = cell a2 c) ∧
    (∀ (c : Nat), Sys2Proof.Machine.hubc (unitCount a0 a1 a2) c = Sys2Proof.Machine.hubc a2 c) ∧ (∀ (c : Nat), region (unitCount a0 a1 a2) c = region a2 c) ∧ (nowNs (unitCount a0 a1 a2) = nowNs a2 ) ∧
    (imgOf (unitCount a0 a1 a2) = imgOf a2 ) ∧ (serving (unitCount a0 a1 a2) = serving a2 ) ∧ (working (unitCount a0 a1 a2) = working a2 ) ∧
    (alive (unitCount a0 a1 a2) = alive a2 ) ∧ (upState (unitCount a0 a1 a2) = upState a2 ) ∧ (portOn (unitCount a0 a1 a2) = portOn a2 ) ∧
    (∀ (e : Env), dieNo e (unitCount a0 a1 a2) = dieNo e a2 ) ∧ (∀ (e : Env), nodeNo e (unitCount a0 a1 a2) = nodeNo e a2 ) ∧ (∀ (e : Env) (c : Nat), coreId e (unitCount a0 a1 a2) c = coreId e a2 c) ∧
    (∀ (e : Env) (c : Nat), unitId e (unitCount a0 a1 a2) c = unitId e a2 c) ∧ (∀ (c : Nat), chan (unitCount a0 a1 a2) c = chan a2 c) ∧ (∀ (x : Word), entOk (unitCount a0 a1 a2) x = entOk a2 x) ∧
    (∀ (c : Nat), groupOf (unitCount a0 a1 a2) c = groupOf a2 c) ∧ (∀ (c : Nat), probing (unitCount a0 a1 a2) c = probing a2 c) ∧ (∀ (e : Env) (x : Word), presentCore e (unitCount a0 a1 a2) x = presentCore e a2 x) := by
  have k := (unitCount_only a0 a1 a2).keep
  exact ⟨k .free (by decide), k .sys (by decide), k .isl (by decide), k .time (by decide), k .regions (by decide), k .cells (by decide), k .hubc (by decide), k .res (by decide), k .dig (by decide), k .xs (by decide), k .age (by decide), k .fab (by decide), k .sb (by decide), k .bc (by decide), k .jobs (by decide), k .mgt (by decide), k .cmd (by decide), k .prot (by decide), k .dma (by decide), k .trc (by decide), k .nid (by decide), k .boot (by decide), k .img (by decide), k .reports (by decide), k .ram (by decide), k .nvm (by decide), fun c => cell_congr (k .cells (by decide)) c, fun c => hubc_congr (k .hubc (by decide)) c, fun c => region_congr (k .regions (by decide)) c, nowNs_congr (k .time (by decide)), imgOf_congr (k .img (by decide)), serving_congr (k .sys (by decide)), working_congr (k .sys (by decide)), alive_congr (k .sys (by decide)), upState_congr (k .sys (by decide)), portOn_congr (k .sys (by decide)), fun e  => dieNo_congr e (k .img (by decide)), fun e  => nodeNo_congr e (k .img (by decide)), fun e c => coreId_congr e (k .img (by decide)) c, fun e c => unitId_congr e (k .img (by decide)) c, fun c => chan_congr (k .cmd (by decide)) c, fun x => entOk_congr (k .img (by decide)) x, fun c => groupOf_congr (k .img (by decide)) (k .jobs (by decide)) c, fun c => probing_congr (k .age (by decide)) c, fun e x => presentCore_congr e (k .img (by decide)) x⟩

end Sys2Proof.Machine
end

