-- ==== Sys2Proof/Laws/Setters.lean ====
section
/-!
SUPPORT. A change of one part of the hub under a name, so that no proof carries a record update.
-/
namespace Sys2Proof.Machine

/-- A hub with another `free`. -/
def Hub.withFree (h : Hub) (v : Nat) : Hub := { h with free := v }
theorem withFree_eq (h : Hub) (v : Nat) : { h with free := v } = h.withFree v := rfl
@[simp] theorem withFree_reads (h : Hub) (v : Nat) :
    (h.withFree v).free = v ∧ (h.withFree v).sys = h.sys ∧ (h.withFree v).isl = h.isl ∧ (h.withFree v).time = h.time ∧ (h.withFree v).regions = h.regions ∧
    (h.withFree v).cells = h.cells ∧ (h.withFree v).hubc = h.hubc ∧ (h.withFree v).res = h.res ∧ (h.withFree v).dig = h.dig ∧ (h.withFree v).xs = h.xs ∧
    (h.withFree v).ens = h.ens ∧ (h.withFree v).casc = h.casc ∧ (h.withFree v).age = h.age ∧ (h.withFree v).fab = h.fab ∧ (h.withFree v).sb = h.sb ∧
    (h.withFree v).bc = h.bc ∧ (h.withFree v).jobs = h.jobs ∧ (h.withFree v).mgt = h.mgt ∧ (h.withFree v).cmd = h.cmd ∧ (h.withFree v).prot = h.prot ∧
    (h.withFree v).regs = h.regs ∧ (h.withFree v).mem = h.mem ∧ (h.withFree v).dma = h.dma ∧ (h.withFree v).trc = h.trc ∧ (h.withFree v).nid = h.nid ∧
    (h.withFree v).log = h.log ∧ (h.withFree v).boot = h.boot ∧ (h.withFree v).img = h.img ∧ (h.withFree v).reports = h.reports ∧ (h.withFree v).posted = h.posted ∧
    (h.withFree v).nvPosted = h.nvPosted ∧ (∀ (c : Nat), cell (h.withFree v) c = cell h c) ∧ (∀ (c : Nat), Sys2Proof.Machine.hubc (h.withFree v) c = Sys2Proof.Machine.hubc h c) ∧ (∀ (c : Nat), region (h.withFree v) c = region h c) ∧ (∀ (x : Word), entity (h.withFree v) x = entity h x) ∧
    (nowNs (h.withFree v)  = nowNs h ) ∧ (imgOf (h.withFree v)  = imgOf h ) ∧ (serving (h.withFree v)  = serving h ) ∧ (working (h.withFree v)  = working h ) ∧ (alive (h.withFree v)  = alive h ) ∧
    (upState (h.withFree v)  = upState h ) ∧ (portOn (h.withFree v)  = portOn h ) ∧ (∀ (e : Env), dieNo e (h.withFree v)  = dieNo e h ) ∧ (∀ (e : Env), nodeNo e (h.withFree v)  = nodeNo e h ) ∧ (∀ (e : Env) (c : Nat), coreId e (h.withFree v) c = coreId e h c) ∧
    (∀ (e : Env) (c : Nat), unitId e (h.withFree v) c = unitId e h c) ∧ (∀ (c : Nat), chan (h.withFree v) c = chan h c) ∧ (∀ (x : Word), entOk (h.withFree v) x = entOk h x) ∧ (∀ (c : Nat), groupOf (h.withFree v) c = groupOf h c) ∧ (∀ (c : Nat), probing (h.withFree v) c = probing h c) ∧
    (∀ (e : Env) (x : Word), presentCore e (h.withFree v) x = presentCore e h x) :=
  ⟨rfl, rfl, rfl, rfl, rfl, rfl, rfl, rfl, rfl, rfl, rfl, rfl, rfl, rfl, rfl, rfl, rfl, rfl, rfl, rfl, rfl, rfl, rfl, rfl, rfl, rfl, rfl, rfl, rfl, rfl, rfl, fun _ => rfl, fun _ => rfl, fun _ => rfl, fun _ => rfl, rfl, rfl, rfl, rfl, rfl, rfl, rfl, fun _  => rfl, fun _  => rfl, fun _ _ => rfl, fun _ _ => rfl, fun _ => rfl, fun _ => rfl, fun _ => rfl, fun _ => rfl, fun _ _ => rfl⟩

/-- A hub with another `sys`. -/
def Hub.withSys (h : Hub) (v : Sys) : Hub := { h with sys := v }
theorem withSys_eq (h : Hub) (v : Sys) : { h with sys := v } = h.withSys v := rfl
@[simp] theorem withSys_reads (h : Hub) (v : Sys) :
    (h.withSys v).free = h.free ∧ (h.withSys v).sys = v ∧ (h.withSys v).isl = h.isl ∧ (h.withSys v).time = h.time ∧ (h.withSys v).regions = h.regions ∧
    (h.withSys v).cells = h.cells ∧ (h.withSys v).hubc = h.hubc ∧ (h.withSys v).res = h.res ∧ (h.withSys v).dig = h.dig ∧ (h.withSys v).xs = h.xs ∧
    (h.withSys v).ens = h.ens ∧ (h.withSys v).casc = h.casc ∧ (h.withSys v).age = h.age ∧ (h.withSys v).fab = h.fab ∧ (h.withSys v).sb = h.sb ∧
    (h.withSys v).bc = h.bc ∧ (h.withSys v).jobs = h.jobs ∧ (h.withSys v).mgt = h.mgt ∧ (h.withSys v).cmd = h.cmd ∧ (h.withSys v).prot = h.prot ∧
    (h.withSys v).regs = h.regs ∧ (h.withSys v).mem = h.mem ∧ (h.withSys v).dma = h.dma ∧ (h.withSys v).trc = h.trc ∧ (h.withSys v).nid = h.nid ∧
    (h.withSys v).log = h.log ∧ (h.withSys v).boot = h.boot ∧ (h.withSys v).img = h.img ∧ (h.withSys v).reports = h.reports ∧ (h.withSys v).posted = h.posted ∧
    (h.withSys v).nvPosted = h.nvPosted ∧ (∀ (c : Nat), cell (h.withSys v) c = cell h c) ∧ (∀ (c : Nat), Sys2Proof.Machine.hubc (h.withSys v) c = Sys2Proof.Machine.hubc h c) ∧ (∀ (c : Nat), region (h.withSys v) c = region h c) ∧ (∀ (x : Word), entity (h.withSys v) x = entity h x) ∧
    (nowNs (h.withSys v)  = nowNs h ) ∧ (imgOf (h.withSys v)  = imgOf h ) ∧ (∀ (e : Env), dieNo e (h.withSys v)  = dieNo e h ) ∧ (∀ (e : Env), nodeNo e (h.withSys v)  = nodeNo e h ) ∧ (∀ (e : Env) (c : Nat), coreId e (h.withSys v) c = coreId e h c) ∧
    (∀ (e : Env) (c : Nat), unitId e (h.withSys v) c = unitId e h c) ∧ (∀ (c : Nat), chan (h.withSys v) c = chan h c) ∧ (∀ (x : Word), entOk (h.withSys v) x = entOk h x) ∧ (∀ (c : Nat), groupOf (h.withSys v) c = groupOf h c) ∧ (∀ (c : Nat), probing (h.withSys v) c = probing h c) ∧
    (∀ (e : Env) (x : Word), presentCore e (h.withSys v) x = presentCore e h x) :=
  ⟨rfl, rfl, rfl, rfl, rfl, rfl, rfl, rfl, rfl, rfl, rfl, rfl, rfl, rfl, rfl, rfl, rfl, rfl, rfl, rfl, rfl, rfl, rfl, rfl, rfl, rfl, rfl, rfl, rfl, rfl, rfl, fun _ => rfl, fun _ => rfl, fun _ => rfl, fun _ => rfl, rfl, rfl, fun _  => rfl, fun _  => rfl, fun _ _ => rfl, fun _ _ => rfl, fun _ => rfl, fun _ => rfl, fun _ => rfl, fun _ => rfl, fun _ _ => rfl⟩

/-- A hub with another `isl`. -/
def Hub.withIsl (h : Hub) (v : Island) : Hub := { h with isl := v }
theorem withIsl_eq (h : Hub) (v : Island) : { h with isl := v } = h.withIsl v := rfl
@[simp] theorem withIsl_reads (h : Hub) (v : Island) :
    (h.withIsl v).free = h.free ∧ (h.withIsl v).sys = h.sys ∧ (h.withIsl v).isl = v ∧ (h.withIsl v).time = h.time ∧ (h.withIsl v).regions = h.regions ∧
    (h.withIsl v).cells = h.cells ∧ (h.withIsl v).hubc = h.hubc ∧ (h.withIsl v).res = h.res ∧ (h.withIsl v).dig = h.dig ∧ (h.withIsl v).xs = h.xs ∧
    (h.withIsl v).ens = h.ens ∧ (h.withIsl v).casc = h.casc ∧ (h.withIsl v).age = h.age ∧ (h.withIsl v).fab = h.fab ∧ (h.withIsl v).sb = h.sb ∧
    (h.withIsl v).bc = h.bc ∧ (h.withIsl v).jobs = h.jobs ∧ (h.withIsl v).mgt = h.mgt ∧ (h.withIsl v).cmd = h.cmd ∧ (h.withIsl v).prot = h.prot ∧
    (h.withIsl v).regs = h.regs ∧ (h.withIsl v).mem = h.mem ∧ (h.withIsl v).dma = h.dma ∧ (h.withIsl v).trc = h.trc ∧ (h.withIsl v).nid = h.nid ∧
    (h.withIsl v).log = h.log ∧ (h.withIsl v).boot = h.boot ∧ (h.withIsl v).img = h.img ∧ (h.withIsl v).reports = h.reports ∧ (h.withIsl v).posted = h.posted ∧
    (h.withIsl v).nvPosted = h.nvPosted ∧ (∀ (c : Nat), cell (h.withIsl v) c = cell h c) ∧ (∀ (c : Nat), Sys2Proof.Machine.hubc (h.withIsl v) c = Sys2Proof.Machine.hubc h c) ∧ (∀ (c : Nat), region (h.withIsl v) c = region h c) ∧ (∀ (x : Word), entity (h.withIsl v) x = entity h x) ∧
    (nowNs (h.withIsl v)  = nowNs h ) ∧ (imgOf (h.withIsl v)  = imgOf h ) ∧ (serving (h.withIsl v)  = serving h ) ∧ (working (h.withIsl v)  = working h ) ∧ (alive (h.withIsl v)  = alive h ) ∧
    (upState (h.withIsl v)  = upState h ) ∧ (portOn (h.withIsl v)  = portOn h ) ∧ (∀ (e : Env), dieNo e (h.withIsl v)  = dieNo e h ) ∧ (∀ (e : Env), nodeNo e (h.withIsl v)  = nodeNo e h ) ∧ (∀ (e : Env) (c : Nat), coreId e (h.withIsl v) c = coreId e h c) ∧
    (∀ (e : Env) (c : Nat), unitId e (h.withIsl v) c = unitId e h c) ∧ (∀ (c : Nat), chan (h.withIsl v) c = chan h c) ∧ (∀ (x : Word), entOk (h.withIsl v) x = entOk h x) ∧ (∀ (c : Nat), groupOf (h.withIsl v) c = groupOf h c) ∧ (∀ (c : Nat), probing (h.withIsl v) c = probing h c) ∧
    (∀ (e : Env) (x : Word), presentCore e (h.withIsl v) x = presentCore e h x) :=
  ⟨rfl, rfl, rfl, rfl, rfl, rfl, rfl, rfl, rfl, rfl, rfl, rfl, rfl, rfl, rfl, rfl, rfl, rfl, rfl, rfl, rfl, rfl, rfl, rfl, rfl, rfl, rfl, rfl, rfl, rfl, rfl, fun _ => rfl, fun _ => rfl, fun _ => rfl, fun _ => rfl, rfl, rfl, rfl, rfl, rfl, rfl, rfl, fun _  => rfl, fun _  => rfl, fun _ _ => rfl, fun _ _ => rfl, fun _ => rfl, fun _ => rfl, fun _ => rfl, fun _ => rfl, fun _ _ => rfl⟩

/-- A hub with another `time`. -/
def Hub.withTime (h : Hub) (v : TimeU) : Hub := { h with time := v }
theorem withTime_eq (h : Hub) (v : TimeU) : { h with time := v } = h.withTime v := rfl
@[simp] theorem withTime_reads (h : Hub) (v : TimeU) :
    (h.withTime v).free = h.free ∧ (h.withTime v).sys = h.sys ∧ (h.withTime v).isl = h.isl ∧ (h.withTime v).time = v ∧ (h.withTime v).regions = h.regions ∧
    (h.withTime v).cells = h.cells ∧ (h.withTime v).hubc = h.hubc ∧ (h.withTime v).res = h.res ∧ (h.withTime v).dig = h.dig ∧ (h.withTime v).xs = h.xs ∧
    (h.withTime v).ens = h.ens ∧ (h.withTime v).casc = h.casc ∧ (h.withTime v).age = h.age ∧ (h.withTime v).fab = h.fab ∧ (h.withTime v).sb = h.sb ∧
    (h.withTime v).bc = h.bc ∧ (h.withTime v).jobs = h.jobs ∧ (h.withTime v).mgt = h.mgt ∧ (h.withTime v).cmd = h.cmd ∧ (h.withTime v).prot = h.prot ∧
    (h.withTime v).regs = h.regs ∧ (h.withTime v).mem = h.mem ∧ (h.withTime v).dma = h.dma ∧ (h.withTime v).trc = h.trc ∧ (h.withTime v).nid = h.nid ∧
    (h.withTime v).log = h.log ∧ (h.withTime v).boot = h.boot ∧ (h.withTime v).img = h.img ∧ (h.withTime v).reports = h.reports ∧ (h.withTime v).posted = h.posted ∧
    (h.withTime v).nvPosted = h.nvPosted ∧ (∀ (c : Nat), cell (h.withTime v) c = cell h c) ∧ (∀ (c : Nat), Sys2Proof.Machine.hubc (h.withTime v) c = Sys2Proof.Machine.hubc h c) ∧ (∀ (c : Nat), region (h.withTime v) c = region h c) ∧ (∀ (x : Word), entity (h.withTime v) x = entity h x) ∧
    (imgOf (h.withTime v)  = imgOf h ) ∧ (serving (h.withTime v)  = serving h ) ∧ (working (h.withTime v)  = working h ) ∧ (alive (h.withTime v)  = alive h ) ∧ (upState (h.withTime v)  = upState h ) ∧
    (portOn (h.withTime v)  = portOn h ) ∧ (∀ (e : Env), dieNo e (h.withTime v)  = dieNo e h ) ∧ (∀ (e : Env), nodeNo e (h.withTime v)  = nodeNo e h ) ∧ (∀ (e : Env) (c : Nat), coreId e (h.withTime v) c = coreId e h c) ∧ (∀ (e : Env) (c : Nat), unitId e (h.withTime v) c = unitId e h c) ∧
    (∀ (c : Nat), chan (h.withTime v) c = chan h c) ∧ (∀ (x : Word), entOk (h.withTime v) x = entOk h x) ∧ (∀ (c : Nat), groupOf (h.withTime v) c = groupOf h c) ∧ (∀ (c : Nat), probing (h.withTime v) c = probing h c) ∧ (∀ (e : Env) (x : Word), presentCore e (h.withTime v) x = presentCore e h x) :=
  ⟨rfl, rfl, rfl, rfl, rfl, rfl, rfl, rfl, rfl, rfl, rfl, rfl, rfl, rfl, rfl, rfl, rfl, rfl, rfl, rfl, rfl, rfl, rfl, rfl, rfl, rfl, rfl, rfl, rfl, rfl, rfl, fun _ => rfl, fun _ => rfl, fun _ => rfl, fun _ => rfl, rfl, rfl, rfl, rfl, rfl, rfl, fun _  => rfl, fun _  => rfl, fun _ _ => rfl, fun _ _ => rfl, fun _ => rfl, fun _ => rfl, fun _ => rfl, fun _ => rfl, fun _ _ => rfl⟩

/-- A hub with another `regions`. -/
def Hub.withRegions (h : Hub) (v : List Region) : Hub := { h with regions := v }
theorem withRegions_eq (h : Hub) (v : List Region) : { h with regions := v } = h.withRegions v := rfl
@[simp] theorem withRegions_reads (h : Hub) (v : List Region) :
    (h.withRegions v).free = h.free ∧ (h.withRegions v).sys = h.sys ∧ (h.withRegions v).isl = h.isl ∧ (h.withRegions v).time = h.time ∧ (h.withRegions v).regions = v ∧
    (h.withRegions v).cells = h.cells ∧ (h.withRegions v).hubc = h.hubc ∧ (h.withRegions v).res = h.res ∧ (h.withRegions v).dig = h.dig ∧ (h.withRegions v).xs = h.xs ∧
    (h.withRegions v).ens = h.ens ∧ (h.withRegions v).casc = h.casc ∧ (h.withRegions v).age = h.age ∧ (h.withRegions v).fab = h.fab ∧ (h.withRegions v).sb = h.sb ∧
    (h.withRegions v).bc = h.bc ∧ (h.withRegions v).jobs = h.jobs ∧ (h.withRegions v).mgt = h.mgt ∧ (h.withRegions v).cmd = h.cmd ∧ (h.withRegions v).prot = h.prot ∧
    (h.withRegions v).regs = h.regs ∧ (h.withRegions v).mem = h.mem ∧ (h.withRegions v).dma = h.dma ∧ (h.withRegions v).trc = h.trc ∧ (h.withRegions v).nid = h.nid ∧
    (h.withRegions v).log = h.log ∧ (h.withRegions v).boot = h.boot ∧ (h.withRegions v).img = h.img ∧ (h.withRegions v).reports = h.reports ∧ (h.withRegions v).posted = h.posted ∧
    (h.withRegions v).nvPosted = h.nvPosted ∧ (∀ (c : Nat), cell (h.withRegions v) c = cell h c) ∧ (∀ (c : Nat), Sys2Proof.Machine.hubc (h.withRegions v) c = Sys2Proof.Machine.hubc h c) ∧ (∀ (x : Word), entity (h.withRegions v) x = entity h x) ∧ (nowNs (h.withRegions v)  = nowNs h ) ∧
    (imgOf (h.withRegions v)  = imgOf h ) ∧ (serving (h.withRegions v)  = serving h ) ∧ (working (h.withRegions v)  = working h ) ∧ (alive (h.withRegions v)  = alive h ) ∧ (upState (h.withRegions v)  = upState h ) ∧
    (portOn (h.withRegions v)  = portOn h ) ∧ (∀ (e : Env), dieNo e (h.withRegions v)  = dieNo e h ) ∧ (∀ (e : Env), nodeNo e (h.withRegions v)  = nodeNo e h ) ∧ (∀ (e : Env) (c : Nat), coreId e (h.withRegions v) c = coreId e h c) ∧ (∀ (e : Env) (c : Nat), unitId e (h.withRegions v) c = unitId e h c) ∧
    (∀ (c : Nat), chan (h.withRegions v) c = chan h c) ∧ (∀ (x : Word), entOk (h.withRegions v) x = entOk h x) ∧ (∀ (c : Nat), groupOf (h.withRegions v) c = groupOf h c) ∧ (∀ (c : Nat), probing (h.withRegions v) c = probing h c) ∧ (∀ (e : Env) (x : Word), presentCore e (h.withRegions v) x = presentCore e h x) :=
  ⟨rfl, rfl, rfl, rfl, rfl, rfl, rfl, rfl, rfl, rfl, rfl, rfl, rfl, rfl, rfl, rfl, rfl, rfl, rfl, rfl, rfl, rfl, rfl, rfl, rfl, rfl, rfl, rfl, rfl, rfl, rfl, fun _ => rfl, fun _ => rfl, fun _ => rfl, rfl, rfl, rfl, rfl, rfl, rfl, rfl, fun _  => rfl, fun _  => rfl, fun _ _ => rfl, fun _ _ => rfl, fun _ => rfl, fun _ => rfl, fun _ => rfl, fun _ => rfl, fun _ _ => rfl⟩

/-- A hub with another `cells`. -/
def Hub.withCells (h : Hub) (v : Tab Cell) : Hub := { h with cells := v }
theorem withCells_eq (h : Hub) (v : Tab Cell) : { h with cells := v } = h.withCells v := rfl
@[simp] theorem withCells_reads (h : Hub) (v : Tab Cell) :
    (h.withCells v).free = h.free ∧ (h.withCells v).sys = h.sys ∧ (h.withCells v).isl = h.isl ∧ (h.withCells v).time = h.time ∧ (h.withCells v).regions = h.regions ∧
    (h.withCells v).cells = v ∧ (h.withCells v).hubc = h.hubc ∧ (h.withCells v).res = h.res ∧ (h.withCells v).dig = h.dig ∧ (h.withCells v).xs = h.xs ∧
    (h.withCells v).ens = h.ens ∧ (h.withCells v).casc = h.casc ∧ (h.withCells v).age = h.age ∧ (h.withCells v).fab = h.fab ∧ (h.withCells v).sb = h.sb ∧
    (h.withCells v).bc = h.bc ∧ (h.withCells v).jobs = h.jobs ∧ (h.withCells v).mgt = h.mgt ∧ (h.withCells v).cmd = h.cmd ∧ (h.withCells v).prot = h.prot ∧
    (h.withCells v).regs = h.regs ∧ (h.withCells v).mem = h.mem ∧ (h.withCells v).dma = h.dma ∧ (h.withCells v).trc = h.trc ∧ (h.withCells v).nid = h.nid ∧
    (h.withCells v).log = h.log ∧ (h.withCells v).boot = h.boot ∧ (h.withCells v).img = h.img ∧ (h.withCells v).reports = h.reports ∧ (h.withCells v).posted = h.posted ∧
    (h.withCells v).nvPosted = h.nvPosted ∧ (∀ (c : Nat), Sys2Proof.Machine.hubc (h.withCells v) c = Sys2Proof.Machine.hubc h c) ∧ (∀ (c : Nat), region (h.withCells v) c = region h c) ∧ (∀ (x : Word), entity (h.withCells v) x = entity h x) ∧ (nowNs (h.withCells v)  = nowNs h ) ∧
    (imgOf (h.withCells v)  = imgOf h ) ∧ (serving (h.withCells v)  = serving h ) ∧ (working (h.withCells v)  = working h ) ∧ (alive (h.withCells v)  = alive h ) ∧ (upState (h.withCells v)  = upState h ) ∧
    (portOn (h.withCells v)  = portOn h ) ∧ (∀ (e : Env), dieNo e (h.withCells v)  = dieNo e h ) ∧ (∀ (e : Env), nodeNo e (h.withCells v)  = nodeNo e h ) ∧ (∀ (e : Env) (c : Nat), coreId e (h.withCells v) c = coreId e h c) ∧ (∀ (e : Env) (c : Nat), unitId e (h.withCells v) c = unitId e h c) ∧
    (∀ (c : Nat), chan (h.withCells v) c = chan h c) ∧ (∀ (x : Word), entOk (h.withCells v) x = entOk h x) ∧ (∀ (c : Nat), groupOf (h.withCells v) c = groupOf h c) ∧ (∀ (c : Nat), probing (h.withCells v) c = probing h c) ∧ (∀ (e : Env) (x : Word), presentCore e (h.withCells v) x = presentCore e h x) :=
  ⟨rfl, rfl, rfl, rfl, rfl, rfl, rfl, rfl, rfl, rfl, rfl, rfl, rfl, rfl, rfl, rfl, rfl, rfl, rfl, rfl, rfl, rfl, rfl, rfl, rfl, rfl, rfl, rfl, rfl, rfl, rfl, fun _ => rfl, fun _ => rfl, fun _ => rfl, rfl, rfl, rfl, rfl, rfl, rfl, rfl, fun _  => rfl, fun _  => rfl, fun _ _ => rfl, fun _ _ => rfl, fun _ => rfl, fun _ => rfl, fun _ => rfl, fun _ => rfl, fun _ _ => rfl⟩

/-- A hub with another `hubc`. -/
def Hub.withHubc (h : Hub) (v : Tab HubCell) : Hub := { h with hubc := v }
theorem withHubc_eq (h : Hub) (v : Tab HubCell) : { h with hubc := v } = h.withHubc v := rfl
@[simp] theorem withHubc_reads (h : Hub) (v : Tab HubCell) :
    (h.withHubc v).free = h.free ∧ (h.withHubc v).sys = h.sys ∧ (h.withHubc v).isl = h.isl ∧ (h.withHubc v).time = h.time ∧ (h.withHubc v).regions = h.regions ∧
    (h.withHubc v).cells = h.cells ∧ (h.withHubc v).hubc = v ∧ (h.withHubc v).res = h.res ∧ (h.withHubc v).dig = h.dig ∧ (h.withHubc v).xs = h.xs ∧
    (h.withHubc v).ens = h.ens ∧ (h.withHubc v).casc = h.casc ∧ (h.withHubc v).age = h.age ∧ (h.withHubc v).fab = h.fab ∧ (h.withHubc v).sb = h.sb ∧
    (h.withHubc v).bc = h.bc ∧ (h.withHubc v).jobs = h.jobs ∧ (h.withHubc v).mgt = h.mgt ∧ (h.withHubc v).cmd = h.cmd ∧ (h.withHubc v).prot = h.prot ∧
    (h.withHubc v).regs = h.regs ∧ (h.withHubc v).mem = h.mem ∧ (h.withHubc v).dma = h.dma ∧ (h.withHubc v).trc = h.trc ∧ (h.withHubc v).nid = h.nid ∧
    (h.withHubc v).log = h.log ∧ (h.withHubc v).boot = h.boot ∧ (h.withHubc v).img = h.img ∧ (h.withHubc v).reports = h.reports ∧ (h.withHubc v).posted = h.posted ∧
    (h.withHubc v).nvPosted = h.nvPosted ∧ (∀ (c : Nat), cell (h.withHubc v) c = cell h c) ∧ (∀ (c : Nat), region (h.withHubc v) c = region h c) ∧ (∀ (x : Word), entity (h.withHubc v) x = entity h x) ∧ (nowNs (h.withHubc v)  = nowNs h ) ∧
    (imgOf (h.withHubc v)  = imgOf h ) ∧ (serving (h.withHubc v)  = serving h ) ∧ (working (h.withHubc v)  = working h ) ∧ (alive (h.withHubc v)  = alive h ) ∧ (upState (h.withHubc v)  = upState h ) ∧
    (portOn (h.withHubc v)  = portOn h ) ∧ (∀ (e : Env), dieNo e (h.withHubc v)  = dieNo e h ) ∧ (∀ (e : Env), nodeNo e (h.withHubc v)  = nodeNo e h ) ∧ (∀ (e : Env) (c : Nat), coreId e (h.withHubc v) c = coreId e h c) ∧ (∀ (e : Env) (c : Nat), unitId e (h.withHubc v) c = unitId e h c) ∧
    (∀ (c : Nat), chan (h.withHubc v) c = chan h c) ∧ (∀ (x : Word), entOk (h.withHubc v) x = entOk h x) ∧ (∀ (c : Nat), groupOf (h.withHubc v) c = groupOf h c) ∧ (∀ (c : Nat), probing (h.withHubc v) c = probing h c) ∧ (∀ (e : Env) (x : Word), presentCore e (h.withHubc v) x = presentCore e h x) :=
  ⟨rfl, rfl, rfl, rfl, rfl, rfl, rfl, rfl, rfl, rfl, rfl, rfl, rfl, rfl, rfl, rfl, rfl, rfl, rfl, rfl, rfl, rfl, rfl, rfl, rfl, rfl, rfl, rfl, rfl, rfl, rfl, fun _ => rfl, fun _ => rfl, fun _ => rfl, rfl, rfl, rfl, rfl, rfl, rfl, rfl, fun _  => rfl, fun _  => rfl, fun _ _ => rfl, fun _ _ => rfl, fun _ => rfl, fun _ => rfl, fun _ => rfl, fun _ => rfl, fun _ _ => rfl⟩

/-- A hub with another `res`. -/
def Hub.withRes (h : Hub) (v : ResU) : Hub := { h with res := v }
theorem withRes_eq (h : Hub) (v : ResU) : { h with res := v } = h.withRes v := rfl
@[simp] theorem withRes_reads (h : Hub) (v : ResU) :
    (h.withRes v).free = h.free ∧ (h.withRes v).sys = h.sys ∧ (h.withRes v).isl = h.isl ∧ (h.withRes v).time = h.time ∧ (h.withRes v).regions = h.regions ∧
    (h.withRes v).cells = h.cells ∧ (h.withRes v).hubc = h.hubc ∧ (h.withRes v).res = v ∧ (h.withRes v).dig = h.dig ∧ (h.withRes v).xs = h.xs ∧
    (h.withRes v).ens = h.ens ∧ (h.withRes v).casc = h.casc ∧ (h.withRes v).age = h.age ∧ (h.withRes v).fab = h.fab ∧ (h.withRes v).sb = h.sb ∧
    (h.withRes v).bc = h.bc ∧ (h.withRes v).jobs = h.jobs ∧ (h.withRes v).mgt = h.mgt ∧ (h.withRes v).cmd = h.cmd ∧ (h.withRes v).prot = h.prot ∧
    (h.withRes v).regs = h.regs ∧ (h.withRes v).mem = h.mem ∧ (h.withRes v).dma = h.dma ∧ (h.withRes v).trc = h.trc ∧ (h.withRes v).nid = h.nid ∧
    (h.withRes v).log = h.log ∧ (h.withRes v).boot = h.boot ∧ (h.withRes v).img = h.img ∧ (h.withRes v).reports = h.reports ∧ (h.withRes v).posted = h.posted ∧
    (h.withRes v).nvPosted = h.nvPosted ∧ (∀ (c : Nat), cell (h.withRes v) c = cell h c) ∧ (∀ (c : Nat), Sys2Proof.Machine.hubc (h.withRes v) c = Sys2Proof.Machine.hubc h c) ∧ (∀ (c : Nat), region (h.withRes v) c = region h c) ∧ (∀ (x : Word), entity (h.withRes v) x = entity h x) ∧
    (nowNs (h.withRes v)  = nowNs h ) ∧ (imgOf (h.withRes v)  = imgOf h ) ∧ (serving (h.withRes v)  = serving h ) ∧ (working (h.withRes v)  = working h ) ∧ (alive (h.withRes v)  = alive h ) ∧
    (upState (h.withRes v)  = upState h ) ∧ (portOn (h.withRes v)  = portOn h ) ∧ (∀ (e : Env), dieNo e (h.withRes v)  = dieNo e h ) ∧ (∀ (e : Env), nodeNo e (h.withRes v)  = nodeNo e h ) ∧ (∀ (e : Env) (c : Nat), coreId e (h.withRes v) c = coreId e h c) ∧
    (∀ (e : Env) (c : Nat), unitId e (h.withRes v) c = unitId e h c) ∧ (∀ (c : Nat), chan (h.withRes v) c = chan h c) ∧ (∀ (x : Word), entOk (h.withRes v) x = entOk h x) ∧ (∀ (c : Nat), groupOf (h.withRes v) c = groupOf h c) ∧ (∀ (c : Nat), probing (h.withRes v) c = probing h c) ∧
    (∀ (e : Env) (x : Word), presentCore e (h.withRes v) x = presentCore e h x) :=
  ⟨rfl, rfl, rfl, rfl, rfl, rfl, rfl, rfl, rfl, rfl, rfl, rfl, rfl, rfl, rfl, rfl, rfl, rfl, rfl, rfl, rfl, rfl, rfl, rfl, rfl, rfl, rfl, rfl, rfl, rfl, rfl, fun _ => rfl, fun _ => rfl, fun _ => rfl, fun _ => rfl, rfl, rfl, rfl, rfl, rfl, rfl, rfl, fun _  => rfl, fun _  => rfl, fun _ _ => rfl, fun _ _ => rfl, fun _ => rfl, fun _ => rfl, fun _ => rfl, fun _ => rfl, fun _ _ => rfl⟩

/-- A hub with another `dig`. -/
def Hub.withDig (h : Hub) (v : DigU) : Hub := { h with dig := v }
theorem withDig_eq (h : Hub) (v : DigU) : { h with dig := v } = h.withDig v := rfl
@[simp] theorem withDig_reads (h : Hub) (v : DigU) :
    (h.withDig v).free = h.free ∧ (h.withDig v).sys = h.sys ∧ (h.withDig v).isl = h.isl ∧ (h.withDig v).time = h.time ∧ (h.withDig v).regions = h.regions ∧
    (h.withDig v).cells = h.cells ∧ (h.withDig v).hubc = h.hubc ∧ (h.withDig v).res = h.res ∧ (h.withDig v).dig = v ∧ (h.withDig v).xs = h.xs ∧
    (h.withDig v).ens = h.ens ∧ (h.withDig v).casc = h.casc ∧ (h.withDig v).age = h.age ∧ (h.withDig v).fab = h.fab ∧ (h.withDig v).sb = h.sb ∧
    (h.withDig v).bc = h.bc ∧ (h.withDig v).jobs = h.jobs ∧ (h.withDig v).mgt = h.mgt ∧ (h.withDig v).cmd = h.cmd ∧ (h.withDig v).prot = h.prot ∧
    (h.withDig v).regs = h.regs ∧ (h.withDig v).mem = h.mem ∧ (h.withDig v).dma = h.dma ∧ (h.withDig v).trc = h.trc ∧ (h.withDig v).nid = h.nid ∧
    (h.withDig v).log = h.log ∧ (h.withDig v).boot = h.boot ∧ (h.withDig v).img = h.img ∧ (h.withDig v).reports = h.reports ∧ (h.withDig v).posted = h.posted ∧
    (h.withDig v).nvPosted = h.nvPosted ∧ (∀ (c : Nat), cell (h.withDig v) c = cell h c) ∧ (∀ (c : Nat), Sys2Proof.Machine.hubc (h.withDig v) c = Sys2Proof.Machine.hubc h c) ∧ (∀ (c : Nat), region (h.withDig v) c = region h c) ∧ (∀ (x : Word), entity (h.withDig v) x = entity h x) ∧
    (nowNs (h.withDig v)  = nowNs h ) ∧ (imgOf (h.withDig v)  = imgOf h ) ∧ (serving (h.withDig v)  = serving h ) ∧ (working (h.withDig v)  = working h ) ∧ (alive (h.withDig v)  = alive h ) ∧
    (upState (h.withDig v)  = upState h ) ∧ (portOn (h.withDig v)  = portOn h ) ∧ (∀ (e : Env), dieNo e (h.withDig v)  = dieNo e h ) ∧ (∀ (e : Env), nodeNo e (h.withDig v)  = nodeNo e h ) ∧ (∀ (e : Env) (c : Nat), coreId e (h.withDig v) c = coreId e h c) ∧
    (∀ (e : Env) (c : Nat), unitId e (h.withDig v) c = unitId e h c) ∧ (∀ (c : Nat), chan (h.withDig v) c = chan h c) ∧ (∀ (x : Word), entOk (h.withDig v) x = entOk h x) ∧ (∀ (c : Nat), groupOf (h.withDig v) c = groupOf h c) ∧ (∀ (c : Nat), probing (h.withDig v) c = probing h c) ∧
    (∀ (e : Env) (x : Word), presentCore e (h.withDig v) x = presentCore e h x) :=
  ⟨rfl, rfl, rfl, rfl, rfl, rfl, rfl, rfl, rfl, rfl, rfl, rfl, rfl, rfl, rfl, rfl, rfl, rfl, rfl, rfl, rfl, rfl, rfl, rfl, rfl, rfl, rfl, rfl, rfl, rfl, rfl, fun _ => rfl, fun _ => rfl, fun _ => rfl, fun _ => rfl, rfl, rfl, rfl, rfl, rfl, rfl, rfl, fun _  => rfl, fun _  => rfl, fun _ _ => rfl, fun _ _ => rfl, fun _ => rfl, fun _ => rfl, fun _ => rfl, fun _ => rfl, fun _ _ => rfl⟩

/-- A hub with another `xs`. -/
def Hub.withXs (h : Hub) (v : XsU) : Hub := { h with xs := v }
theorem withXs_eq (h : Hub) (v : XsU) : { h with xs := v } = h.withXs v := rfl
@[simp] theorem withXs_reads (h : Hub) (v : XsU) :
    (h.withXs v).free = h.free ∧ (h.withXs v).sys = h.sys ∧ (h.withXs v).isl = h.isl ∧ (h.withXs v).time = h.time ∧ (h.withXs v).regions = h.regions ∧
    (h.withXs v).cells = h.cells ∧ (h.withXs v).hubc = h.hubc ∧ (h.withXs v).res = h.res ∧ (h.withXs v).dig = h.dig ∧ (h.withXs v).xs = v ∧
    (h.withXs v).ens = h.ens ∧ (h.withXs v).casc = h.casc ∧ (h.withXs v).age = h.age ∧ (h.withXs v).fab = h.fab ∧ (h.withXs v).sb = h.sb ∧
    (h.withXs v).bc = h.bc ∧ (h.withXs v).jobs = h.jobs ∧ (h.withXs v).mgt = h.mgt ∧ (h.withXs v).cmd = h.cmd ∧ (h.withXs v).prot = h.prot ∧
    (h.withXs v).regs = h.regs ∧ (h.withXs v).mem = h.mem ∧ (h.withXs v).dma = h.dma ∧ (h.withXs v).trc = h.trc ∧ (h.withXs v).nid = h.nid ∧
    (h.withXs v).log = h.log ∧ (h.withXs v).boot = h.boot ∧ (h.withXs v).img = h.img ∧ (h.withXs v).reports = h.reports ∧ (h.withXs v).posted = h.posted ∧
    (h.withXs v).nvPosted = h.nvPosted ∧ (∀ (c : Nat), cell (h.withXs v) c = cell h c) ∧ (∀ (c : Nat), Sys2Proof.Machine.hubc (h.withXs v) c = Sys2Proof.Machine.hubc h c) ∧ (∀ (c : Nat), region (h.withXs v) c = region h c) ∧ (∀ (x : Word), entity (h.withXs v) x = entity h x) ∧
    (nowNs (h.withXs v)  = nowNs h ) ∧ (imgOf (h.withXs v)  = imgOf h ) ∧ (serving (h.withXs v)  = serving h ) ∧ (working (h.withXs v)  = working h ) ∧ (alive (h.withXs v)  = alive h ) ∧
    (upState (h.withXs v)  = upState h ) ∧ (portOn (h.withXs v)  = portOn h ) ∧ (∀ (e : Env), dieNo e (h.withXs v)  = dieNo e h ) ∧ (∀ (e : Env), nodeNo e (h.withXs v)  = nodeNo e h ) ∧ (∀ (e : Env) (c : Nat), coreId e (h.withXs v) c = coreId e h c) ∧
    (∀ (e : Env) (c : Nat), unitId e (h.withXs v) c = unitId e h c) ∧ (∀ (c : Nat), chan (h.withXs v) c = chan h c) ∧ (∀ (x : Word), entOk (h.withXs v) x = entOk h x) ∧ (∀ (c : Nat), groupOf (h.withXs v) c = groupOf h c) ∧ (∀ (c : Nat), probing (h.withXs v) c = probing h c) ∧
    (∀ (e : Env) (x : Word), presentCore e (h.withXs v) x = presentCore e h x) :=
  ⟨rfl, rfl, rfl, rfl, rfl, rfl, rfl, rfl, rfl, rfl, rfl, rfl, rfl, rfl, rfl, rfl, rfl, rfl, rfl, rfl, rfl, rfl, rfl, rfl, rfl, rfl, rfl, rfl, rfl, rfl, rfl, fun _ => rfl, fun _ => rfl, fun _ => rfl, fun _ => rfl, rfl, rfl, rfl, rfl, rfl, rfl, rfl, fun _  => rfl, fun _  => rfl, fun _ _ => rfl, fun _ _ => rfl, fun _ => rfl, fun _ => rfl, fun _ => rfl, fun _ => rfl, fun _ _ => rfl⟩

/-- A hub with another `ens`. -/
def Hub.withEns (h : Hub) (v : EnsU) : Hub := { h with ens := v }
theorem withEns_eq (h : Hub) (v : EnsU) : { h with ens := v } = h.withEns v := rfl
@[simp] theorem withEns_reads (h : Hub) (v : EnsU) :
    (h.withEns v).free = h.free ∧ (h.withEns v).sys = h.sys ∧ (h.withEns v).isl = h.isl ∧ (h.withEns v).time = h.time ∧ (h.withEns v).regions = h.regions ∧
    (h.withEns v).cells = h.cells ∧ (h.withEns v).hubc = h.hubc ∧ (h.withEns v).res = h.res ∧ (h.withEns v).dig = h.dig ∧ (h.withEns v).xs = h.xs ∧
    (h.withEns v).ens = v ∧ (h.withEns v).casc = h.casc ∧ (h.withEns v).age = h.age ∧ (h.withEns v).fab = h.fab ∧ (h.withEns v).sb = h.sb ∧
    (h.withEns v).bc = h.bc ∧ (h.withEns v).jobs = h.jobs ∧ (h.withEns v).mgt = h.mgt ∧ (h.withEns v).cmd = h.cmd ∧ (h.withEns v).prot = h.prot ∧
    (h.withEns v).regs = h.regs ∧ (h.withEns v).mem = h.mem ∧ (h.withEns v).dma = h.dma ∧ (h.withEns v).trc = h.trc ∧ (h.withEns v).nid = h.nid ∧
    (h.withEns v).log = h.log ∧ (h.withEns v).boot = h.boot ∧ (h.withEns v).img = h.img ∧ (h.withEns v).reports = h.reports ∧ (h.withEns v).posted = h.posted ∧
    (h.withEns v).nvPosted = h.nvPosted ∧ (∀ (c : Nat), cell (h.withEns v) c = cell h c) ∧ (∀ (c : Nat), Sys2Proof.Machine.hubc (h.withEns v) c = Sys2Proof.Machine.hubc h c) ∧ (∀ (c : Nat), region (h.withEns v) c = region h c) ∧ (∀ (x : Word), entity (h.withEns v) x = entity h x) ∧
    (nowNs (h.withEns v)  = nowNs h ) ∧ (imgOf (h.withEns v)  = imgOf h ) ∧ (serving (h.withEns v)  = serving h ) ∧ (working (h.withEns v)  = working h ) ∧ (alive (h.withEns v)  = alive h ) ∧
    (upState (h.withEns v)  = upState h ) ∧ (portOn (h.withEns v)  = portOn h ) ∧ (∀ (e : Env), dieNo e (h.withEns v)  = dieNo e h ) ∧ (∀ (e : Env), nodeNo e (h.withEns v)  = nodeNo e h ) ∧ (∀ (e : Env) (c : Nat), coreId e (h.withEns v) c = coreId e h c) ∧
    (∀ (e : Env) (c : Nat), unitId e (h.withEns v) c = unitId e h c) ∧ (∀ (c : Nat), chan (h.withEns v) c = chan h c) ∧ (∀ (x : Word), entOk (h.withEns v) x = entOk h x) ∧ (∀ (c : Nat), groupOf (h.withEns v) c = groupOf h c) ∧ (∀ (c : Nat), probing (h.withEns v) c = probing h c) ∧
    (∀ (e : Env) (x : Word), presentCore e (h.withEns v) x = presentCore e h x) :=
  ⟨rfl, rfl, rfl, rfl, rfl, rfl, rfl, rfl, rfl, rfl, rfl, rfl, rfl, rfl, rfl, rfl, rfl, rfl, rfl, rfl, rfl, rfl, rfl, rfl, rfl, rfl, rfl, rfl, rfl, rfl, rfl, fun _ => rfl, fun _ => rfl, fun _ => rfl, fun _ => rfl, rfl, rfl, rfl, rfl, rfl, rfl, rfl, fun _  => rfl, fun _  => rfl, fun _ _ => rfl, fun _ _ => rfl, fun _ => rfl, fun _ => rfl, fun _ => rfl, fun _ => rfl, fun _ _ => rfl⟩

/-- A hub with another `casc`. -/
def Hub.withCasc (h : Hub) (v : Casc) : Hub := { h with casc := v }
theorem withCasc_eq (h : Hub) (v : Casc) : { h with casc := v } = h.withCasc v := rfl
@[simp] theorem withCasc_reads (h : Hub) (v : Casc) :
    (h.withCasc v).free = h.free ∧ (h.withCasc v).sys = h.sys ∧ (h.withCasc v).isl = h.isl ∧ (h.withCasc v).time = h.time ∧ (h.withCasc v).regions = h.regions ∧
    (h.withCasc v).cells = h.cells ∧ (h.withCasc v).hubc = h.hubc ∧ (h.withCasc v).res = h.res ∧ (h.withCasc v).dig = h.dig ∧ (h.withCasc v).xs = h.xs ∧
    (h.withCasc v).ens = h.ens ∧ (h.withCasc v).casc = v ∧ (h.withCasc v).age = h.age ∧ (h.withCasc v).fab = h.fab ∧ (h.withCasc v).sb = h.sb ∧
    (h.withCasc v).bc = h.bc ∧ (h.withCasc v).jobs = h.jobs ∧ (h.withCasc v).mgt = h.mgt ∧ (h.withCasc v).cmd = h.cmd ∧ (h.withCasc v).prot = h.prot ∧
    (h.withCasc v).regs = h.regs ∧ (h.withCasc v).mem = h.mem ∧ (h.withCasc v).dma = h.dma ∧ (h.withCasc v).trc = h.trc ∧ (h.withCasc v).nid = h.nid ∧
    (h.withCasc v).log = h.log ∧ (h.withCasc v).boot = h.boot ∧ (h.withCasc v).img = h.img ∧ (h.withCasc v).reports = h.reports ∧ (h.withCasc v).posted = h.posted ∧
    (h.withCasc v).nvPosted = h.nvPosted ∧ (∀ (c : Nat), cell (h.withCasc v) c = cell h c) ∧ (∀ (c : Nat), Sys2Proof.Machine.hubc (h.withCasc v) c = Sys2Proof.Machine.hubc h c) ∧ (∀ (c : Nat), region (h.withCasc v) c = region h c) ∧ (nowNs (h.withCasc v)  = nowNs h ) ∧
    (imgOf (h.withCasc v)  = imgOf h ) ∧ (serving (h.withCasc v)  = serving h ) ∧ (working (h.withCasc v)  = working h ) ∧ (alive (h.withCasc v)  = alive h ) ∧ (upState (h.withCasc v)  = upState h ) ∧
    (portOn (h.withCasc v)  = portOn h ) ∧ (∀ (e : Env), dieNo e (h.withCasc v)  = dieNo e h ) ∧ (∀ (e : Env), nodeNo e (h.withCasc v)  = nodeNo e h ) ∧ (∀ (e : Env) (c : Nat), coreId e (h.withCasc v) c = coreId e h c) ∧ (∀ (e : Env) (c : Nat), unitId e (h.withCasc v) c = unitId e h c) ∧
    (∀ (c : Nat), chan (h.withCasc v) c = chan h c) ∧ (∀ (x : Word), entOk (h.withCasc v) x = entOk h x) ∧ (∀ (c : Nat), groupOf (h.withCasc v) c = groupOf h c) ∧ (∀ (c : Nat), probing (h.withCasc v) c = probing h c) ∧ (∀ (e : Env) (x : Word), presentCore e (h.withCasc v) x = presentCore e h x) :=
  ⟨rfl, rfl, rfl, rfl, rfl, rfl, rfl, rfl, rfl, rfl, rfl, rfl, rfl, rfl, rfl, rfl, rfl, rfl, rfl, rfl, rfl, rfl, rfl, rfl, rfl, rfl, rfl, rfl, rfl, rfl, rfl, fun _ => rfl, fun _ => rfl, fun _ => rfl, rfl, rfl, rfl, rfl, rfl, rfl, rfl, fun _  => rfl, fun _  => rfl, fun _ _ => rfl, fun _ _ => rfl, fun _ => rfl, fun _ => rfl, fun _ => rfl, fun _ => rfl, fun _ _ => rfl⟩

/-- A hub with another `age`. -/
def Hub.withAge (h : Hub) (v : AgeU) : Hub := { h with age := v }
theorem withAge_eq (h : Hub) (v : AgeU) : { h with age := v } = h.withAge v := rfl
@[simp] theorem withAge_reads (h : Hub) (v : AgeU) :
    (h.withAge v).free = h.free ∧ (h.withAge v).sys = h.sys ∧ (h.withAge v).isl = h.isl ∧ (h.withAge v).time = h.time ∧ (h.withAge v).regions = h.regions ∧
    (h.withAge v).cells = h.cells ∧ (h.withAge v).hubc = h.hubc ∧ (h.withAge v).res = h.res ∧ (h.withAge v).dig = h.dig ∧ (h.withAge v).xs = h.xs ∧
    (h.withAge v).ens = h.ens ∧ (h.withAge v).casc = h.casc ∧ (h.withAge v).age = v ∧ (h.withAge v).fab = h.fab ∧ (h.withAge v).sb = h.sb ∧
    (h.withAge v).bc = h.bc ∧ (h.withAge v).jobs = h.jobs ∧ (h.withAge v).mgt = h.mgt ∧ (h.withAge v).cmd = h.cmd ∧ (h.withAge v).prot = h.prot ∧
    (h.withAge v).regs = h.regs ∧ (h.withAge v).mem = h.mem ∧ (h.withAge v).dma = h.dma ∧ (h.withAge v).trc = h.trc ∧ (h.withAge v).nid = h.nid ∧
    (h.withAge v).log = h.log ∧ (h.withAge v).boot = h.boot ∧ (h.withAge v).img = h.img ∧ (h.withAge v).reports = h.reports ∧ (h.withAge v).posted = h.posted ∧
    (h.withAge v).nvPosted = h.nvPosted ∧ (∀ (c : Nat), cell (h.withAge v) c = cell h c) ∧ (∀ (c : Nat), Sys2Proof.Machine.hubc (h.withAge v) c = Sys2Proof.Machine.hubc h c) ∧ (∀ (c : Nat), region (h.withAge v) c = region h c) ∧ (∀ (x : Word), entity (h.withAge v) x = entity h x) ∧
    (nowNs (h.withAge v)  = nowNs h ) ∧ (imgOf (h.withAge v)  = imgOf h ) ∧ (serving (h.withAge v)  = serving h ) ∧ (working (h.withAge v)  = working h ) ∧ (alive (h.withAge v)  = alive h ) ∧
    (upState (h.withAge v)  = upState h ) ∧ (portOn (h.withAge v)  = portOn h ) ∧ (∀ (e : Env), dieNo e (h.withAge v)  = dieNo e h ) ∧ (∀ (e : Env), nodeNo e (h.withAge v)  = nodeNo e h ) ∧ (∀ (e : Env) (c : Nat), coreId e (h.withAge v) c = coreId e h c) ∧
    (∀ (e : Env) (c : Nat), unitId e (h.withAge v) c = unitId e h c) ∧ (∀ (c : Nat), chan (h.withAge v) c = chan h c) ∧ (∀ (x : Word), entOk (h.withAge v) x = entOk h x) ∧ (∀ (c : Nat), groupOf (h.withAge v) c = groupOf h c) ∧ (∀ (e : Env) (x : Word), presentCore e (h.withAge v) x = presentCore e h x) :=
  ⟨rfl, rfl, rfl, rfl, rfl, rfl, rfl, rfl, rfl, rfl, rfl, rfl, rfl, rfl, rfl, rfl, rfl, rfl, rfl, rfl, rfl, rfl, rfl, rfl, rfl, rfl, rfl, rfl, rfl, rfl, rfl, fun _ => rfl, fun _ => rfl, fun _ => rfl, fun _ => rfl, rfl, rfl, rfl, rfl, rfl, rfl, rfl, fun _  => rfl, fun _  => rfl, fun _ _ => rfl, fun _ _ => rfl, fun _ => rfl, fun _ => rfl, fun _ => rfl, fun _ _ => rfl⟩

/-- A hub with another `fab`. -/
def Hub.withFab (h : Hub) (v : Fab) : Hub := { h with fab := v }
theorem withFab_eq (h : Hub) (v : Fab) : { h with fab := v } = h.withFab v := rfl
@[simp] theorem withFab_reads (h : Hub) (v : Fab) :
    (h.withFab v).free = h.free ∧ (h.withFab v).sys = h.sys ∧ (h.withFab v).isl = h.isl ∧ (h.withFab v).time = h.time ∧ (h.withFab v).regions = h.regions ∧
    (h.withFab v).cells = h.cells ∧ (h.withFab v).hubc = h.hubc ∧ (h.withFab v).res = h.res ∧ (h.withFab v).dig = h.dig ∧ (h.withFab v).xs = h.xs ∧
    (h.withFab v).ens = h.ens ∧ (h.withFab v).casc = h.casc ∧ (h.withFab v).age = h.age ∧ (h.withFab v).fab = v ∧ (h.withFab v).sb = h.sb ∧
    (h.withFab v).bc = h.bc ∧ (h.withFab v).jobs = h.jobs ∧ (h.withFab v).mgt = h.mgt ∧ (h.withFab v).cmd = h.cmd ∧ (h.withFab v).prot = h.prot ∧
    (h.withFab v).regs = h.regs ∧ (h.withFab v).mem = h.mem ∧ (h.withFab v).dma = h.dma ∧ (h.withFab v).trc = h.trc ∧ (h.withFab v).nid = h.nid ∧
    (h.withFab v).log = h.log ∧ (h.withFab v).boot = h.boot ∧ (h.withFab v).img = h.img ∧ (h.withFab v).reports = h.reports ∧ (h.withFab v).posted = h.posted ∧
    (h.withFab v).nvPosted = h.nvPosted ∧ (∀ (c : Nat), cell (h.withFab v) c = cell h c) ∧ (∀ (c : Nat), Sys2Proof.Machine.hubc (h.withFab v) c = Sys2Proof.Machine.hubc h c) ∧ (∀ (c : Nat), region (h.withFab v) c = region h c) ∧ (∀ (x : Word), entity (h.withFab v) x = entity h x) ∧
    (nowNs (h.withFab v)  = nowNs h ) ∧ (imgOf (h.withFab v)  = imgOf h ) ∧ (serving (h.withFab v)  = serving h ) ∧ (working (h.withFab v)  = working h ) ∧ (alive (h.withFab v)  = alive h ) ∧
    (upState (h.withFab v)  = upState h ) ∧ (portOn (h.withFab v)  = portOn h ) ∧ (∀ (e : Env), dieNo e (h.withFab v)  = dieNo e h ) ∧ (∀ (e : Env), nodeNo e (h.withFab v)  = nodeNo e h ) ∧ (∀ (e : Env) (c : Nat), coreId e (h.withFab v) c = coreId e h c) ∧
    (∀ (e : Env) (c : Nat), unitId e (h.withFab v) c = unitId e h c) ∧ (∀ (c : Nat), chan (h.withFab v) c = chan h c) ∧ (∀ (x : Word), entOk (h.withFab v) x = entOk h x) ∧ (∀ (c : Nat), groupOf (h.withFab v) c = groupOf h c) ∧ (∀ (c : Nat), probing (h.withFab v) c = probing h c) ∧
    (∀ (e : Env) (x : Word), presentCore e (h.withFab v) x = presentCore e h x) :=
  ⟨rfl, rfl, rfl, rfl, rfl, rfl, rfl, rfl, rfl, rfl, rfl, rfl, rfl, rfl, rfl, rfl, rfl, rfl, rfl, rfl, rfl, rfl, rfl, rfl, rfl, rfl, rfl, rfl, rfl, rfl, rfl, fun _ => rfl, fun _ => rfl, fun _ => rfl, fun _ => rfl, rfl, rfl, rfl, rfl, rfl, rfl, rfl, fun _  => rfl, fun _  => rfl, fun _ _ => rfl, fun _ _ => rfl, fun _ => rfl, fun _ => rfl, fun _ => rfl, fun _ => rfl, fun _ _ => rfl⟩

/-- A hub with another `sb`. -/
def Hub.withSb (h : Hub) (v : Sb) : Hub := { h with sb := v }
theorem withSb_eq (h : Hub) (v : Sb) : { h with sb := v } = h.withSb v := rfl
@[simp] theorem withSb_reads (h : Hub) (v : Sb) :
    (h.withSb v).free = h.free ∧ (h.withSb v).sys = h.sys ∧ (h.withSb v).isl = h.isl ∧ (h.withSb v).time = h.time ∧ (h.withSb v).regions = h.regions ∧
    (h.withSb v).cells = h.cells ∧ (h.withSb v).hubc = h.hubc ∧ (h.withSb v).res = h.res ∧ (h.withSb v).dig = h.dig ∧ (h.withSb v).xs = h.xs ∧
    (h.withSb v).ens = h.ens ∧ (h.withSb v).casc = h.casc ∧ (h.withSb v).age = h.age ∧ (h.withSb v).fab = h.fab ∧ (h.withSb v).sb = v ∧
    (h.withSb v).bc = h.bc ∧ (h.withSb v).jobs = h.jobs ∧ (h.withSb v).mgt = h.mgt ∧ (h.withSb v).cmd = h.cmd ∧ (h.withSb v).prot = h.prot ∧
    (h.withSb v).regs = h.regs ∧ (h.withSb v).mem = h.mem ∧ (h.withSb v).dma = h.dma ∧ (h.withSb v).trc = h.trc ∧ (h.withSb v).nid = h.nid ∧
    (h.withSb v).log = h.log ∧ (h.withSb v).boot = h.boot ∧ (h.withSb v).img = h.img ∧ (h.withSb v).reports = h.reports ∧ (h.withSb v).posted = h.posted ∧
    (h.withSb v).nvPosted = h.nvPosted ∧ (∀ (c : Nat), cell (h.withSb v) c = cell h c) ∧ (∀ (c : Nat), Sys2Proof.Machine.hubc (h.withSb v) c = Sys2Proof.Machine.hubc h c) ∧ (∀ (c : Nat), region (h.withSb v) c = region h c) ∧ (∀ (x : Word), entity (h.withSb v) x = entity h x) ∧
    (nowNs (h.withSb v)  = nowNs h ) ∧ (imgOf (h.withSb v)  = imgOf h ) ∧ (serving (h.withSb v)  = serving h ) ∧ (working (h.withSb v)  = working h ) ∧ (alive (h.withSb v)  = alive h ) ∧
    (upState (h.withSb v)  = upState h ) ∧ (portOn (h.withSb v)  = portOn h ) ∧ (∀ (e : Env), dieNo e (h.withSb v)  = dieNo e h ) ∧ (∀ (e : Env), nodeNo e (h.withSb v)  = nodeNo e h ) ∧ (∀ (e : Env) (c : Nat), coreId e (h.withSb v) c = coreId e h c) ∧
    (∀ (e : Env) (c : Nat), unitId e (h.withSb v) c = unitId e h c) ∧ (∀ (c : Nat), chan (h.withSb v) c = chan h c) ∧ (∀ (x : Word), entOk (h.withSb v) x = entOk h x) ∧ (∀ (c : Nat), groupOf (h.withSb v) c = groupOf h c) ∧ (∀ (c : Nat), probing (h.withSb v) c = probing h c) ∧
    (∀ (e : Env) (x : Word), presentCore e (h.withSb v) x = presentCore e h x) :=
  ⟨rfl, rfl, rfl, rfl, rfl, rfl, rfl, rfl, rfl, rfl, rfl, rfl, rfl, rfl, rfl, rfl, rfl, rfl, rfl, rfl, rfl, rfl, rfl, rfl, rfl, rfl, rfl, rfl, rfl, rfl, rfl, fun _ => rfl, fun _ => rfl, fun _ => rfl, fun _ => rfl, rfl, rfl, rfl, rfl, rfl, rfl, rfl, fun _  => rfl, fun _  => rfl, fun _ _ => rfl, fun _ _ => rfl, fun _ => rfl, fun _ => rfl, fun _ => rfl, fun _ => rfl, fun _ _ => rfl⟩

/-- A hub with another `bc`. -/
def Hub.withBc (h : Hub) (v : BcastU) : Hub := { h with bc := v }
theorem withBc_eq (h : Hub) (v : BcastU) : { h with bc := v } = h.withBc v := rfl
@[simp] theorem withBc_reads (h : Hub) (v : BcastU) :
    (h.withBc v).free = h.free ∧ (h.withBc v).sys = h.sys ∧ (h.withBc v).isl = h.isl ∧ (h.withBc v).time = h.time ∧ (h.withBc v).regions = h.regions ∧
    (h.withBc v).cells = h.cells ∧ (h.withBc v).hubc = h.hubc ∧ (h.withBc v).res = h.res ∧ (h.withBc v).dig = h.dig ∧ (h.withBc v).xs = h.xs ∧
    (h.withBc v).ens = h.ens ∧ (h.withBc v).casc = h.casc ∧ (h.withBc v).age = h.age ∧ (h.withBc v).fab = h.fab ∧ (h.withBc v).sb = h.sb ∧
    (h.withBc v).bc = v ∧ (h.withBc v).jobs = h.jobs ∧ (h.withBc v).mgt = h.mgt ∧ (h.withBc v).cmd = h.cmd ∧ (h.withBc v).prot = h.prot ∧
    (h.withBc v).regs = h.regs ∧ (h.withBc v).mem = h.mem ∧ (h.withBc v).dma = h.dma ∧ (h.withBc v).trc = h.trc ∧ (h.withBc v).nid = h.nid ∧
    (h.withBc v).log = h.log ∧ (h.withBc v).boot = h.boot ∧ (h.withBc v).img = h.img ∧ (h.withBc v).reports = h.reports ∧ (h.withBc v).posted = h.posted ∧
    (h.withBc v).nvPosted = h.nvPosted ∧ (∀ (c : Nat), cell (h.withBc v) c = cell h c) ∧ (∀ (c : Nat), Sys2Proof.Machine.hubc (h.withBc v) c = Sys2Proof.Machine.hubc h c) ∧ (∀ (c : Nat), region (h.withBc v) c = region h c) ∧ (∀ (x : Word), entity (h.withBc v) x = entity h x) ∧
    (nowNs (h.withBc v)  = nowNs h ) ∧ (imgOf (h.withBc v)  = imgOf h ) ∧ (serving (h.withBc v)  = serving h ) ∧ (working (h.withBc v)  = working h ) ∧ (alive (h.withBc v)  = alive h ) ∧
    (upState (h.withBc v)  = upState h ) ∧ (portOn (h.withBc v)  = portOn h ) ∧ (∀ (e : Env), dieNo e (h.withBc v)  = dieNo e h ) ∧ (∀ (e : Env), nodeNo e (h.withBc v)  = nodeNo e h ) ∧ (∀ (e : Env) (c : Nat), coreId e (h.withBc v) c = coreId e h c) ∧
    (∀ (e : Env) (c : Nat), unitId e (h.withBc v) c = unitId e h c) ∧ (∀ (c : Nat), chan (h.withBc v) c = chan h c) ∧ (∀ (x : Word), entOk (h.withBc v) x = entOk h x) ∧ (∀ (c : Nat), groupOf (h.withBc v) c = groupOf h c) ∧ (∀ (c : Nat), probing (h.withBc v) c = probing h c) ∧
    (∀ (e : Env) (x : Word), presentCore e (h.withBc v) x = presentCore e h x) :=
  ⟨rfl, rfl, rfl, rfl, rfl, rfl, rfl, rfl, rfl, rfl, rfl, rfl, rfl, rfl, rfl, rfl, rfl, rfl, rfl, rfl, rfl, rfl, rfl, rfl, rfl, rfl, rfl, rfl, rfl, rfl, rfl, fun _ => rfl, fun _ => rfl, fun _ => rfl, fun _ => rfl, rfl, rfl, rfl, rfl, rfl, rfl, rfl, fun _  => rfl, fun _  => rfl, fun _ _ => rfl, fun _ _ => rfl, fun _ => rfl, fun _ => rfl, fun _ => rfl, fun _ => rfl, fun _ _ => rfl⟩

/-- A hub with another `jobs`. -/
def Hub.withJobs (h : Hub) (v : Jobs) : Hub := { h with jobs := v }
theorem withJobs_eq (h : Hub) (v : Jobs) : { h with jobs := v } = h.withJobs v := rfl
@[simp] theorem withJobs_reads (h : Hub) (v : Jobs) :
    (h.withJobs v).free = h.free ∧ (h.withJobs v).sys = h.sys ∧ (h.withJobs v).isl = h.isl ∧ (h.withJobs v).time = h.time ∧ (h.withJobs v).regions = h.regions ∧
    (h.withJobs v).cells = h.cells ∧ (h.withJobs v).hubc = h.hubc ∧ (h.withJobs v).res = h.res ∧ (h.withJobs v).dig = h.dig ∧ (h.withJobs v).xs = h.xs ∧
    (h.withJobs v).ens = h.ens ∧ (h.withJobs v).casc = h.casc ∧ (h.withJobs v).age = h.age ∧ (h.withJobs v).fab = h.fab ∧ (h.withJobs v).sb = h.sb ∧
    (h.withJobs v).bc = h.bc ∧ (h.withJobs v).jobs = v ∧ (h.withJobs v).mgt = h.mgt ∧ (h.withJobs v).cmd = h.cmd ∧ (h.withJobs v).prot = h.prot ∧
    (h.withJobs v).regs = h.regs ∧ (h.withJobs v).mem = h.mem ∧ (h.withJobs v).dma = h.dma ∧ (h.withJobs v).trc = h.trc ∧ (h.withJobs v).nid = h.nid ∧
    (h.withJobs v).log = h.log ∧ (h.withJobs v).boot = h.boot ∧ (h.withJobs v).img = h.img ∧ (h.withJobs v).reports = h.reports ∧ (h.withJobs v).posted = h.posted ∧
    (h.withJobs v).nvPosted = h.nvPosted ∧ (∀ (c : Nat), cell (h.withJobs v) c = cell h c) ∧ (∀ (c : Nat), Sys2Proof.Machine.hubc (h.withJobs v) c = Sys2Proof.Machine.hubc h c) ∧ (∀ (c : Nat), region (h.withJobs v) c = region h c) ∧ (∀ (x : Word), entity (h.withJobs v) x = entity h x) ∧
    (nowNs (h.withJobs v)  = nowNs h ) ∧ (imgOf (h.withJobs v)  = imgOf h ) ∧ (serving (h.withJobs v)  = serving h ) ∧ (working (h.withJobs v)  = working h ) ∧ (alive (h.withJobs v)  = alive h ) ∧
    (upState (h.withJobs v)  = upState h ) ∧ (portOn (h.withJobs v)  = portOn h ) ∧ (∀ (e : Env), dieNo e (h.withJobs v)  = dieNo e h ) ∧ (∀ (e : Env), nodeNo e (h.withJobs v)  = nodeNo e h ) ∧ (∀ (e : Env) (c : Nat), coreId e (h.withJobs v) c = coreId e h c) ∧
    (∀ (e : Env) (c : Nat), unitId e (h.withJobs v) c = unitId e h c) ∧ (∀ (c : Nat), chan (h.withJobs v) c = chan h c) ∧ (∀ (x : Word), entOk (h.withJobs v) x = entOk h x) ∧ (∀ (c : Nat), probing (h.withJobs v) c = probing h c) ∧ (∀ (e : Env) (x : Word), presentCore e (h.withJobs v) x = presentCore e h x) :=
  ⟨rfl, rfl, rfl, rfl, rfl, rfl, rfl, rfl, rfl, rfl, rfl, rfl, rfl, rfl, rfl, rfl, rfl, rfl, rfl, rfl, rfl, rfl, rfl, rfl, rfl, rfl, rfl, rfl, rfl, rfl, rfl, fun _ => rfl, fun _ => rfl, fun _ => rfl, fun _ => rfl, rfl, rfl, rfl, rfl, rfl, rfl, rfl, fun _  => rfl, fun _  => rfl, fun _ _ => rfl, fun _ _ => rfl, fun _ => rfl, fun _ => rfl, fun _ => rfl, fun _ _ => rfl⟩

/-- A hub with another `mgt`. -/
def Hub.withMgt (h : Hub) (v : Mgt) : Hub := { h with mgt := v }
theorem withMgt_eq (h : Hub) (v : Mgt) : { h with mgt := v } = h.withMgt v := rfl
@[simp] theorem withMgt_reads (h : Hub) (v : Mgt) :
    (h.withMgt v).free = h.free ∧ (h.withMgt v).sys = h.sys ∧ (h.withMgt v).isl = h.isl ∧ (h.withMgt v).time = h.time ∧ (h.withMgt v).regions = h.regions ∧
    (h.withMgt v).cells = h.cells ∧ (h.withMgt v).hubc = h.hubc ∧ (h.withMgt v).res = h.res ∧ (h.withMgt v).dig = h.dig ∧ (h.withMgt v).xs = h.xs ∧
    (h.withMgt v).ens = h.ens ∧ (h.withMgt v).casc = h.casc ∧ (h.withMgt v).age = h.age ∧ (h.withMgt v).fab = h.fab ∧ (h.withMgt v).sb = h.sb ∧
    (h.withMgt v).bc = h.bc ∧ (h.withMgt v).jobs = h.jobs ∧ (h.withMgt v).mgt = v ∧ (h.withMgt v).cmd = h.cmd ∧ (h.withMgt v).prot = h.prot ∧
    (h.withMgt v).regs = h.regs ∧ (h.withMgt v).mem = h.mem ∧ (h.withMgt v).dma = h.dma ∧ (h.withMgt v).trc = h.trc ∧ (h.withMgt v).nid = h.nid ∧
    (h.withMgt v).log = h.log ∧ (h.withMgt v).boot = h.boot ∧ (h.withMgt v).img = h.img ∧ (h.withMgt v).reports = h.reports ∧ (h.withMgt v).posted = h.posted ∧
    (h.withMgt v).nvPosted = h.nvPosted ∧ (∀ (c : Nat), cell (h.withMgt v) c = cell h c) ∧ (∀ (c : Nat), Sys2Proof.Machine.hubc (h.withMgt v) c = Sys2Proof.Machine.hubc h c) ∧ (∀ (c : Nat), region (h.withMgt v) c = region h c) ∧ (∀ (x : Word), entity (h.withMgt v) x = entity h x) ∧
    (nowNs (h.withMgt v)  = nowNs h ) ∧ (imgOf (h.withMgt v)  = imgOf h ) ∧ (serving (h.withMgt v)  = serving h ) ∧ (working (h.withMgt v)  = working h ) ∧ (alive (h.withMgt v)  = alive h ) ∧
    (upState (h.withMgt v)  = upState h ) ∧ (portOn (h.withMgt v)  = portOn h ) ∧ (∀ (e : Env), dieNo e (h.withMgt v)  = dieNo e h ) ∧ (∀ (e : Env), nodeNo e (h.withMgt v)  = nodeNo e h ) ∧ (∀ (e : Env) (c : Nat), coreId e (h.withMgt v) c = coreId e h c) ∧
    (∀ (e : Env) (c : Nat), unitId e (h.withMgt v) c = unitId e h c) ∧ (∀ (c : Nat), chan (h.withMgt v) c = chan h c) ∧ (∀ (x : Word), entOk (h.withMgt v) x = entOk h x) ∧ (∀ (c : Nat), groupOf (h.withMgt v) c = groupOf h c) ∧ (∀ (c : Nat), probing (h.withMgt v) c = probing h c) ∧
    (∀ (e : Env) (x : Word), presentCore e (h.withMgt v) x = presentCore e h x) :=
  ⟨rfl, rfl, rfl, rfl, rfl, rfl, rfl, rfl, rfl, rfl, rfl, rfl, rfl, rfl, rfl, rfl, rfl, rfl, rfl, rfl, rfl, rfl, rfl, rfl, rfl, rfl, rfl, rfl, rfl, rfl, rfl, fun _ => rfl, fun _ => rfl, fun _ => rfl, fun _ => rfl, rfl, rfl, rfl, rfl, rfl, rfl, rfl, fun _  => rfl, fun _  => rfl, fun _ _ => rfl, fun _ _ => rfl, fun _ => rfl, fun _ => rfl, fun _ => rfl, fun _ => rfl, fun _ _ => rfl⟩

/-- A hub with another `cmd`. -/
def Hub.withCmd (h : Hub) (v : CmdU) : Hub := { h with cmd := v }
theorem withCmd_eq (h : Hub) (v : CmdU) : { h with cmd := v } = h.withCmd v := rfl
@[simp] theorem withCmd_reads (h : Hub) (v : CmdU) :
    (h.withCmd v).free = h.free ∧ (h.withCmd v).sys = h.sys ∧ (h.withCmd v).isl = h.isl ∧ (h.withCmd v).time = h.time ∧ (h.withCmd v).regions = h.regions ∧
    (h.withCmd v).cells = h.cells ∧ (h.withCmd v).hubc = h.hubc ∧ (h.withCmd v).res = h.res ∧ (h.withCmd v).dig = h.dig ∧ (h.withCmd v).xs = h.xs ∧
    (h.withCmd v).ens = h.ens ∧ (h.withCmd v).casc = h.casc ∧ (h.withCmd v).age = h.age ∧ (h.withCmd v).fab = h.fab ∧ (h.withCmd v).sb = h.sb ∧
    (h.withCmd v).bc = h.bc ∧ (h.withCmd v).jobs = h.jobs ∧ (h.withCmd v).mgt = h.mgt ∧ (h.withCmd v).cmd = v ∧ (h.withCmd v).prot = h.prot ∧
    (h.withCmd v).regs = h.regs ∧ (h.withCmd v).mem = h.mem ∧ (h.withCmd v).dma = h.dma ∧ (h.withCmd v).trc = h.trc ∧ (h.withCmd v).nid = h.nid ∧
    (h.withCmd v).log = h.log ∧ (h.withCmd v).boot = h.boot ∧ (h.withCmd v).img = h.img ∧ (h.withCmd v).reports = h.reports ∧ (h.withCmd v).posted = h.posted ∧
    (h.withCmd v).nvPosted = h.nvPosted ∧ (∀ (c : Nat), cell (h.withCmd v) c = cell h c) ∧ (∀ (c : Nat), Sys2Proof.Machine.hubc (h.withCmd v) c = Sys2Proof.Machine.hubc h c) ∧ (∀ (c : Nat), region (h.withCmd v) c = region h c) ∧ (∀ (x : Word), entity (h.withCmd v) x = entity h x) ∧
    (nowNs (h.withCmd v)  = nowNs h ) ∧ (imgOf (h.withCmd v)  = imgOf h ) ∧ (serving (h.withCmd v)  = serving h ) ∧ (working (h.withCmd v)  = working h ) ∧ (alive (h.withCmd v)  = alive h ) ∧
    (upState (h.withCmd v)  = upState h ) ∧ (portOn (h.withCmd v)  = portOn h ) ∧ (∀ (e : Env), dieNo e (h.withCmd v)  = dieNo e h ) ∧ (∀ (e : Env), nodeNo e (h.withCmd v)  = nodeNo e h ) ∧ (∀ (e : Env) (c : Nat), coreId e (h.withCmd v) c = coreId e h c) ∧
    (∀ (e : Env) (c : Nat), unitId e (h.withCmd v) c = unitId e h c) ∧ (∀ (x : Word), entOk (h.withCmd v) x = entOk h x) ∧ (∀ (c : Nat), groupOf (h.withCmd v) c = groupOf h c) ∧ (∀ (c : Nat), probing (h.withCmd v) c = probing h c) ∧ (∀ (e : Env) (x : Word), presentCore e (h.withCmd v) x = presentCore e h x) :=
  ⟨rfl, rfl, rfl, rfl, rfl, rfl, rfl, rfl, rfl, rfl, rfl, rfl, rfl, rfl, rfl, rfl, rfl, rfl, rfl, rfl, rfl, rfl, rfl, rfl, rfl, rfl, rfl, rfl, rfl, rfl, rfl, fun _ => rfl, fun _ => rfl, fun _ => rfl, fun _ => rfl, rfl, rfl, rfl, rfl, rfl, rfl, rfl, fun _  => rfl, fun _  => rfl, fun _ _ => rfl, fun _ _ => rfl, fun _ => rfl, fun _ => rfl, fun _ => rfl, fun _ _ => rfl⟩

/-- A hub with another `prot`. -/
def Hub.withProt (h : Hub) (v : Prot) : Hub := { h with prot := v }
theorem withProt_eq (h : Hub) (v : Prot) : { h with prot := v } = h.withProt v := rfl
@[simp] theorem withProt_reads (h : Hub) (v : Prot) :
    (h.withProt v).free = h.free ∧ (h.withProt v).sys = h.sys ∧ (h.withProt v).isl = h.isl ∧ (h.withProt v).time = h.time ∧ (h.withProt v).regions = h.regions ∧
    (h.withProt v).cells = h.cells ∧ (h.withProt v).hubc = h.hubc ∧ (h.withProt v).res = h.res ∧ (h.withProt v).dig = h.dig ∧ (h.withProt v).xs = h.xs ∧
    (h.withProt v).ens = h.ens ∧ (h.withProt v).casc = h.casc ∧ (h.withProt v).age = h.age ∧ (h.withProt v).fab = h.fab ∧ (h.withProt v).sb = h.sb ∧
    (h.withProt v).bc = h.bc ∧ (h.withProt v).jobs = h.jobs ∧ (h.withProt v).mgt = h.mgt ∧ (h.withProt v).cmd = h.cmd ∧ (h.withProt v).prot = v ∧
    (h.withProt v).regs = h.regs ∧ (h.withProt v).mem = h.mem ∧ (h.withProt v).dma = h.dma ∧ (h.withProt v).trc = h.trc ∧ (h.withProt v).nid = h.nid ∧
    (h.withProt v).log = h.log ∧ (h.withProt v).boot = h.boot ∧ (h.withProt v).img = h.img ∧ (h.withProt v).reports = h.reports ∧ (h.withProt v).posted = h.posted ∧
    (h.withProt v).nvPosted = h.nvPosted ∧ (∀ (c : Nat), cell (h.withProt v) c = cell h c) ∧ (∀ (c : Nat), Sys2Proof.Machine.hubc (h.withProt v) c = Sys2Proof.Machine.hubc h c) ∧ (∀ (c : Nat), region (h.withProt v) c = region h c) ∧ (∀ (x : Word), entity (h.withProt v) x = entity h x) ∧
    (nowNs (h.withProt v)  = nowNs h ) ∧ (imgOf (h.withProt v)  = imgOf h ) ∧ (serving (h.withProt v)  = serving h ) ∧ (working (h.withProt v)  = working h ) ∧ (alive (h.withProt v)  = alive h ) ∧
    (upState (h.withProt v)  = upState h ) ∧ (portOn (h.withProt v)  = portOn h ) ∧ (∀ (e : Env), dieNo e (h.withProt v)  = dieNo e h ) ∧ (∀ (e : Env), nodeNo e (h.withProt v)  = nodeNo e h ) ∧ (∀ (e : Env) (c : Nat), coreId e (h.withProt v) c = coreId e h c) ∧
    (∀ (e : Env) (c : Nat), unitId e (h.withProt v) c = unitId e h c) ∧ (∀ (c : Nat), chan (h.withProt v) c = chan h c) ∧ (∀ (x : Word), entOk (h.withProt v) x = entOk h x) ∧ (∀ (c : Nat), groupOf (h.withProt v) c = groupOf h c) ∧ (∀ (c : Nat), probing (h.withProt v) c = probing h c) ∧
    (∀ (e : Env) (x : Word), presentCore e (h.withProt v) x = presentCore e h x) :=
  ⟨rfl, rfl, rfl, rfl, rfl, rfl, rfl, rfl, rfl, rfl, rfl, rfl, rfl, rfl, rfl, rfl, rfl, rfl, rfl, rfl, rfl, rfl, rfl, rfl, rfl, rfl, rfl, rfl, rfl, rfl, rfl, fun _ => rfl, fun _ => rfl, fun _ => rfl, fun _ => rfl, rfl, rfl, rfl, rfl, rfl, rfl, rfl, fun _  => rfl, fun _  => rfl, fun _ _ => rfl, fun _ _ => rfl, fun _ => rfl, fun _ => rfl, fun _ => rfl, fun _ => rfl, fun _ _ => rfl⟩

/-- A hub with another `regs`. -/
def Hub.withRegs (h : Hub) (v : HubRegs) : Hub := { h with regs := v }
theorem withRegs_eq (h : Hub) (v : HubRegs) : { h with regs := v } = h.withRegs v := rfl
@[simp] theorem withRegs_reads (h : Hub) (v : HubRegs) :
    (h.withRegs v).free = h.free ∧ (h.withRegs v).sys = h.sys ∧ (h.withRegs v).isl = h.isl ∧ (h.withRegs v).time = h.time ∧ (h.withRegs v).regions = h.regions ∧
    (h.withRegs v).cells = h.cells ∧ (h.withRegs v).hubc = h.hubc ∧ (h.withRegs v).res = h.res ∧ (h.withRegs v).dig = h.dig ∧ (h.withRegs v).xs = h.xs ∧
    (h.withRegs v).ens = h.ens ∧ (h.withRegs v).casc = h.casc ∧ (h.withRegs v).age = h.age ∧ (h.withRegs v).fab = h.fab ∧ (h.withRegs v).sb = h.sb ∧
    (h.withRegs v).bc = h.bc ∧ (h.withRegs v).jobs = h.jobs ∧ (h.withRegs v).mgt = h.mgt ∧ (h.withRegs v).cmd = h.cmd ∧ (h.withRegs v).prot = h.prot ∧
    (h.withRegs v).regs = v ∧ (h.withRegs v).mem = h.mem ∧ (h.withRegs v).dma = h.dma ∧ (h.withRegs v).trc = h.trc ∧ (h.withRegs v).nid = h.nid ∧
    (h.withRegs v).log = h.log ∧ (h.withRegs v).boot = h.boot ∧ (h.withRegs v).img = h.img ∧ (h.withRegs v).reports = h.reports ∧ (h.withRegs v).posted = h.posted ∧
    (h.withRegs v).nvPosted = h.nvPosted ∧ (∀ (c : Nat), cell (h.withRegs v) c = cell h c) ∧ (∀ (c : Nat), Sys2Proof.Machine.hubc (h.withRegs v) c = Sys2Proof.Machine.hubc h c) ∧ (∀ (c : Nat), region (h.withRegs v) c = region h c) ∧ (∀ (x : Word), entity (h.withRegs v) x = entity h x) ∧
    (nowNs (h.withRegs v)  = nowNs h ) ∧ (imgOf (h.withRegs v)  = imgOf h ) ∧ (serving (h.withRegs v)  = serving h ) ∧ (working (h.withRegs v)  = working h ) ∧ (alive (h.withRegs v)  = alive h ) ∧
    (upState (h.withRegs v)  = upState h ) ∧ (portOn (h.withRegs v)  = portOn h ) ∧ (∀ (e : Env), dieNo e (h.withRegs v)  = dieNo e h ) ∧ (∀ (e : Env), nodeNo e (h.withRegs v)  = nodeNo e h ) ∧ (∀ (e : Env) (c : Nat), coreId e (h.withRegs v) c = coreId e h c) ∧
    (∀ (e : Env) (c : Nat), unitId e (h.withRegs v) c = unitId e h c) ∧ (∀ (c : Nat), chan (h.withRegs v) c = chan h c) ∧ (∀ (x : Word), entOk (h.withRegs v) x = entOk h x) ∧ (∀ (c : Nat), groupOf (h.withRegs v) c = groupOf h c) ∧ (∀ (c : Nat), probing (h.withRegs v) c = probing h c) ∧
    (∀ (e : Env) (x : Word), presentCore e (h.withRegs v) x = presentCore e h x) :=
  ⟨rfl, rfl, rfl, rfl, rfl, rfl, rfl, rfl, rfl, rfl, rfl, rfl, rfl, rfl, rfl, rfl, rfl, rfl, rfl, rfl, rfl, rfl, rfl, rfl, rfl, rfl, rfl, rfl, rfl, rfl, rfl, fun _ => rfl, fun _ => rfl, fun _ => rfl, fun _ => rfl, rfl, rfl, rfl, rfl, rfl, rfl, rfl, fun _  => rfl, fun _  => rfl, fun _ _ => rfl, fun _ _ => rfl, fun _ => rfl, fun _ => rfl, fun _ => rfl, fun _ => rfl, fun _ _ => rfl⟩

/-- A hub with another `mem`. -/
def Hub.withMem (h : Hub) (v : MemU) : Hub := { h with mem := v }
theorem withMem_eq (h : Hub) (v : MemU) : { h with mem := v } = h.withMem v := rfl
@[simp] theorem withMem_reads (h : Hub) (v : MemU) :
    (h.withMem v).free = h.free ∧ (h.withMem v).sys = h.sys ∧ (h.withMem v).isl = h.isl ∧ (h.withMem v).time = h.time ∧ (h.withMem v).regions = h.regions ∧
    (h.withMem v).cells = h.cells ∧ (h.withMem v).hubc = h.hubc ∧ (h.withMem v).res = h.res ∧ (h.withMem v).dig = h.dig ∧ (h.withMem v).xs = h.xs ∧
    (h.withMem v).ens = h.ens ∧ (h.withMem v).casc = h.casc ∧ (h.withMem v).age = h.age ∧ (h.withMem v).fab = h.fab ∧ (h.withMem v).sb = h.sb ∧
    (h.withMem v).bc = h.bc ∧ (h.withMem v).jobs = h.jobs ∧ (h.withMem v).mgt = h.mgt ∧ (h.withMem v).cmd = h.cmd ∧ (h.withMem v).prot = h.prot ∧
    (h.withMem v).regs = h.regs ∧ (h.withMem v).mem = v ∧ (h.withMem v).dma = h.dma ∧ (h.withMem v).trc = h.trc ∧ (h.withMem v).nid = h.nid ∧
    (h.withMem v).log = h.log ∧ (h.withMem v).boot = h.boot ∧ (h.withMem v).img = h.img ∧ (h.withMem v).reports = h.reports ∧ (h.withMem v).posted = h.posted ∧
    (h.withMem v).nvPosted = h.nvPosted ∧ (∀ (c : Nat), cell (h.withMem v) c = cell h c) ∧ (∀ (c : Nat), Sys2Proof.Machine.hubc (h.withMem v) c = Sys2Proof.Machine.hubc h c) ∧ (∀ (c : Nat), region (h.withMem v) c = region h c) ∧ (∀ (x : Word), entity (h.withMem v) x = entity h x) ∧
    (nowNs (h.withMem v)  = nowNs h ) ∧ (imgOf (h.withMem v)  = imgOf h ) ∧ (serving (h.withMem v)  = serving h ) ∧ (working (h.withMem v)  = working h ) ∧ (alive (h.withMem v)  = alive h ) ∧
    (upState (h.withMem v)  = upState h ) ∧ (portOn (h.withMem v)  = portOn h ) ∧ (∀ (e : Env), dieNo e (h.withMem v)  = dieNo e h ) ∧ (∀ (e : Env), nodeNo e (h.withMem v)  = nodeNo e h ) ∧ (∀ (e : Env) (c : Nat), coreId e (h.withMem v) c = coreId e h c) ∧
    (∀ (e : Env) (c : Nat), unitId e (h.withMem v) c = unitId e h c) ∧ (∀ (c : Nat), chan (h.withMem v) c = chan h c) ∧ (∀ (x : Word), entOk (h.withMem v) x = entOk h x) ∧ (∀ (c : Nat), groupOf (h.withMem v) c = groupOf h c) ∧ (∀ (c : Nat), probing (h.withMem v) c = probing h c) ∧
    (∀ (e : Env) (x : Word), presentCore e (h.withMem v) x = presentCore e h x) :=
  ⟨rfl, rfl, rfl, rfl, rfl, rfl, rfl, rfl, rfl, rfl, rfl, rfl, rfl, rfl, rfl, rfl, rfl, rfl, rfl, rfl, rfl, rfl, rfl, rfl, rfl, rfl, rfl, rfl, rfl, rfl, rfl, fun _ => rfl, fun _ => rfl, fun _ => rfl, fun _ => rfl, rfl, rfl, rfl, rfl, rfl, rfl, rfl, fun _  => rfl, fun _  => rfl, fun _ _ => rfl, fun _ _ => rfl, fun _ => rfl, fun _ => rfl, fun _ => rfl, fun _ => rfl, fun _ _ => rfl⟩

/-- A hub with another `dma`. -/
def Hub.withDma (h : Hub) (v : DmaU) : Hub := { h with dma := v }
theorem withDma_eq (h : Hub) (v : DmaU) : { h with dma := v } = h.withDma v := rfl
@[simp] theorem withDma_reads (h : Hub) (v : DmaU) :
    (h.withDma v).free = h.free ∧ (h.withDma v).sys = h.sys ∧ (h.withDma v).isl = h.isl ∧ (h.withDma v).time = h.time ∧ (h.withDma v).regions = h.regions ∧
    (h.withDma v).cells = h.cells ∧ (h.withDma v).hubc = h.hubc ∧ (h.withDma v).res = h.res ∧ (h.withDma v).dig = h.dig ∧ (h.withDma v).xs = h.xs ∧
    (h.withDma v).ens = h.ens ∧ (h.withDma v).casc = h.casc ∧ (h.withDma v).age = h.age ∧ (h.withDma v).fab = h.fab ∧ (h.withDma v).sb = h.sb ∧
    (h.withDma v).bc = h.bc ∧ (h.withDma v).jobs = h.jobs ∧ (h.withDma v).mgt = h.mgt ∧ (h.withDma v).cmd = h.cmd ∧ (h.withDma v).prot = h.prot ∧
    (h.withDma v).regs = h.regs ∧ (h.withDma v).mem = h.mem ∧ (h.withDma v).dma = v ∧ (h.withDma v).trc = h.trc ∧ (h.withDma v).nid = h.nid ∧
    (h.withDma v).log = h.log ∧ (h.withDma v).boot = h.boot ∧ (h.withDma v).img = h.img ∧ (h.withDma v).reports = h.reports ∧ (h.withDma v).posted = h.posted ∧
    (h.withDma v).nvPosted = h.nvPosted ∧ (∀ (c : Nat), cell (h.withDma v) c = cell h c) ∧ (∀ (c : Nat), Sys2Proof.Machine.hubc (h.withDma v) c = Sys2Proof.Machine.hubc h c) ∧ (∀ (c : Nat), region (h.withDma v) c = region h c) ∧ (∀ (x : Word), entity (h.withDma v) x = entity h x) ∧
    (nowNs (h.withDma v)  = nowNs h ) ∧ (imgOf (h.withDma v)  = imgOf h ) ∧ (serving (h.withDma v)  = serving h ) ∧ (working (h.withDma v)  = working h ) ∧ (alive (h.withDma v)  = alive h ) ∧
    (upState (h.withDma v)  = upState h ) ∧ (portOn (h.withDma v)  = portOn h ) ∧ (∀ (e : Env), dieNo e (h.withDma v)  = dieNo e h ) ∧ (∀ (e : Env), nodeNo e (h.withDma v)  = nodeNo e h ) ∧ (∀ (e : Env) (c : Nat), coreId e (h.withDma v) c = coreId e h c) ∧
    (∀ (e : Env) (c : Nat), unitId e (h.withDma v) c = unitId e h c) ∧ (∀ (c : Nat), chan (h.withDma v) c = chan h c) ∧ (∀ (x : Word), entOk (h.withDma v) x = entOk h x) ∧ (∀ (c : Nat), groupOf (h.withDma v) c = groupOf h c) ∧ (∀ (c : Nat), probing (h.withDma v) c = probing h c) ∧
    (∀ (e : Env) (x : Word), presentCore e (h.withDma v) x = presentCore e h x) :=
  ⟨rfl, rfl, rfl, rfl, rfl, rfl, rfl, rfl, rfl, rfl, rfl, rfl, rfl, rfl, rfl, rfl, rfl, rfl, rfl, rfl, rfl, rfl, rfl, rfl, rfl, rfl, rfl, rfl, rfl, rfl, rfl, fun _ => rfl, fun _ => rfl, fun _ => rfl, fun _ => rfl, rfl, rfl, rfl, rfl, rfl, rfl, rfl, fun _  => rfl, fun _  => rfl, fun _ _ => rfl, fun _ _ => rfl, fun _ => rfl, fun _ => rfl, fun _ => rfl, fun _ => rfl, fun _ _ => rfl⟩

/-- A hub with another `trc`. -/
def Hub.withTrc (h : Hub) (v : Trc) : Hub := { h with trc := v }
theorem withTrc_eq (h : Hub) (v : Trc) : { h with trc := v } = h.withTrc v := rfl
@[simp] theorem withTrc_reads (h : Hub) (v : Trc) :
    (h.withTrc v).free = h.free ∧ (h.withTrc v).sys = h.sys ∧ (h.withTrc v).isl = h.isl ∧ (h.withTrc v).time = h.time ∧ (h.withTrc v).regions = h.regions ∧
    (h.withTrc v).cells = h.cells ∧ (h.withTrc v).hubc = h.hubc ∧ (h.withTrc v).res = h.res ∧ (h.withTrc v).dig = h.dig ∧ (h.withTrc v).xs = h.xs ∧
    (h.withTrc v).ens = h.ens ∧ (h.withTrc v).casc = h.casc ∧ (h.withTrc v).age = h.age ∧ (h.withTrc v).fab = h.fab ∧ (h.withTrc v).sb = h.sb ∧
    (h.withTrc v).bc = h.bc ∧ (h.withTrc v).jobs = h.jobs ∧ (h.withTrc v).mgt = h.mgt ∧ (h.withTrc v).cmd = h.cmd ∧ (h.withTrc v).prot = h.prot ∧
    (h.withTrc v).regs = h.regs ∧ (h.withTrc v).mem = h.mem ∧ (h.withTrc v).dma = h.dma ∧ (h.withTrc v).trc = v ∧ (h.withTrc v).nid = h.nid ∧
    (h.withTrc v).log = h.log ∧ (h.withTrc v).boot = h.boot ∧ (h.withTrc v).img = h.img ∧ (h.withTrc v).reports = h.reports ∧ (h.withTrc v).posted = h.posted ∧
    (h.withTrc v).nvPosted = h.nvPosted ∧ (∀ (c : Nat), cell (h.withTrc v) c = cell h c) ∧ (∀ (c : Nat), Sys2Proof.Machine.hubc (h.withTrc v) c = Sys2Proof.Machine.hubc h c) ∧ (∀ (c : Nat), region (h.withTrc v) c = region h c) ∧ (∀ (x : Word), entity (h.withTrc v) x = entity h x) ∧
    (nowNs (h.withTrc v)  = nowNs h ) ∧ (imgOf (h.withTrc v)  = imgOf h ) ∧ (serving (h.withTrc v)  = serving h ) ∧ (working (h.withTrc v)  = working h ) ∧ (alive (h.withTrc v)  = alive h ) ∧
    (upState (h.withTrc v)  = upState h ) ∧ (portOn (h.withTrc v)  = portOn h ) ∧ (∀ (e : Env), dieNo e (h.withTrc v)  = dieNo e h ) ∧ (∀ (e : Env), nodeNo e (h.withTrc v)  = nodeNo e h ) ∧ (∀ (e : Env) (c : Nat), coreId e (h.withTrc v) c = coreId e h c) ∧
    (∀ (e : Env) (c : Nat), unitId e (h.withTrc v) c = unitId e h c) ∧ (∀ (c : Nat), chan (h.withTrc v) c = chan h c) ∧ (∀ (x : Word), entOk (h.withTrc v) x = entOk h x) ∧ (∀ (c : Nat), groupOf (h.withTrc v) c = groupOf h c) ∧ (∀ (c : Nat), probing (h.withTrc v) c = probing h c) ∧
    (∀ (e : Env) (x : Word), presentCore e (h.withTrc v) x = presentCore e h x) :=
  ⟨rfl, rfl, rfl, rfl, rfl, rfl, rfl, rfl, rfl, rfl, rfl, rfl, rfl, rfl, rfl, rfl, rfl, rfl, rfl, rfl, rfl, rfl, rfl, rfl, rfl, rfl, rfl, rfl, rfl, rfl, rfl, fun _ => rfl, fun _ => rfl, fun _ => rfl, fun _ => rfl, rfl, rfl, rfl, rfl, rfl, rfl, rfl, fun _  => rfl, fun _  => rfl, fun _ _ => rfl, fun _ _ => rfl, fun _ => rfl, fun _ => rfl, fun _ => rfl, fun _ => rfl, fun _ _ => rfl⟩

/-- A hub with another `nid`. -/
def Hub.withNid (h : Hub) (v : Nid) : Hub := { h with nid := v }
theorem withNid_eq (h : Hub) (v : Nid) : { h with nid := v } = h.withNid v := rfl
@[simp] theorem withNid_reads (h : Hub) (v : Nid) :
    (h.withNid v).free = h.free ∧ (h.withNid v).sys = h.sys ∧ (h.withNid v).isl = h.isl ∧ (h.withNid v).time = h.time ∧ (h.withNid v).regions = h.regions ∧
    (h.withNid v).cells = h.cells ∧ (h.withNid v).hubc = h.hubc ∧ (h.withNid v).res = h.res ∧ (h.withNid v).dig = h.dig ∧ (h.withNid v).xs = h.xs ∧
    (h.withNid v).ens = h.ens ∧ (h.withNid v).casc = h.casc ∧ (h.withNid v).age = h.age ∧ (h.withNid v).fab = h.fab ∧ (h.withNid v).sb = h.sb ∧
    (h.withNid v).bc = h.bc ∧ (h.withNid v).jobs = h.jobs ∧ (h.withNid v).mgt = h.mgt ∧ (h.withNid v).cmd = h.cmd ∧ (h.withNid v).prot = h.prot ∧
    (h.withNid v).regs = h.regs ∧ (h.withNid v).mem = h.mem ∧ (h.withNid v).dma = h.dma ∧ (h.withNid v).trc = h.trc ∧ (h.withNid v).nid = v ∧
    (h.withNid v).log = h.log ∧ (h.withNid v).boot = h.boot ∧ (h.withNid v).img = h.img ∧ (h.withNid v).reports = h.reports ∧ (h.withNid v).posted = h.posted ∧
    (h.withNid v).nvPosted = h.nvPosted ∧ (∀ (c : Nat), cell (h.withNid v) c = cell h c) ∧ (∀ (c : Nat), Sys2Proof.Machine.hubc (h.withNid v) c = Sys2Proof.Machine.hubc h c) ∧ (∀ (c : Nat), region (h.withNid v) c = region h c) ∧ (∀ (x : Word), entity (h.withNid v) x = entity h x) ∧
    (nowNs (h.withNid v)  = nowNs h ) ∧ (imgOf (h.withNid v)  = imgOf h ) ∧ (serving (h.withNid v)  = serving h ) ∧ (working (h.withNid v)  = working h ) ∧ (alive (h.withNid v)  = alive h ) ∧
    (upState (h.withNid v)  = upState h ) ∧ (portOn (h.withNid v)  = portOn h ) ∧ (∀ (e : Env), dieNo e (h.withNid v)  = dieNo e h ) ∧ (∀ (e : Env), nodeNo e (h.withNid v)  = nodeNo e h ) ∧ (∀ (e : Env) (c : Nat), coreId e (h.withNid v) c = coreId e h c) ∧
    (∀ (e : Env) (c : Nat), unitId e (h.withNid v) c = unitId e h c) ∧ (∀ (c : Nat), chan (h.withNid v) c = chan h c) ∧ (∀ (x : Word), entOk (h.withNid v) x = entOk h x) ∧ (∀ (c : Nat), groupOf (h.withNid v) c = groupOf h c) ∧ (∀ (c : Nat), probing (h.withNid v) c = probing h c) ∧
    (∀ (e : Env) (x : Word), presentCore e (h.withNid v) x = presentCore e h x) :=
  ⟨rfl, rfl, rfl, rfl, rfl, rfl, rfl, rfl, rfl, rfl, rfl, rfl, rfl, rfl, rfl, rfl, rfl, rfl, rfl, rfl, rfl, rfl, rfl, rfl, rfl, rfl, rfl, rfl, rfl, rfl, rfl, fun _ => rfl, fun _ => rfl, fun _ => rfl, fun _ => rfl, rfl, rfl, rfl, rfl, rfl, rfl, rfl, fun _  => rfl, fun _  => rfl, fun _ _ => rfl, fun _ _ => rfl, fun _ => rfl, fun _ => rfl, fun _ => rfl, fun _ => rfl, fun _ _ => rfl⟩

/-- A hub with another `log`. -/
def Hub.withLog (h : Hub) (v : Recorder) : Hub := { h with log := v }
theorem withLog_eq (h : Hub) (v : Recorder) : { h with log := v } = h.withLog v := rfl
@[simp] theorem withLog_reads (h : Hub) (v : Recorder) :
    (h.withLog v).free = h.free ∧ (h.withLog v).sys = h.sys ∧ (h.withLog v).isl = h.isl ∧ (h.withLog v).time = h.time ∧ (h.withLog v).regions = h.regions ∧
    (h.withLog v).cells = h.cells ∧ (h.withLog v).hubc = h.hubc ∧ (h.withLog v).res = h.res ∧ (h.withLog v).dig = h.dig ∧ (h.withLog v).xs = h.xs ∧
    (h.withLog v).ens = h.ens ∧ (h.withLog v).casc = h.casc ∧ (h.withLog v).age = h.age ∧ (h.withLog v).fab = h.fab ∧ (h.withLog v).sb = h.sb ∧
    (h.withLog v).bc = h.bc ∧ (h.withLog v).jobs = h.jobs ∧ (h.withLog v).mgt = h.mgt ∧ (h.withLog v).cmd = h.cmd ∧ (h.withLog v).prot = h.prot ∧
    (h.withLog v).regs = h.regs ∧ (h.withLog v).mem = h.mem ∧ (h.withLog v).dma = h.dma ∧ (h.withLog v).trc = h.trc ∧ (h.withLog v).nid = h.nid ∧
    (h.withLog v).log = v ∧ (h.withLog v).boot = h.boot ∧ (h.withLog v).img = h.img ∧ (h.withLog v).reports = h.reports ∧ (h.withLog v).posted = h.posted ∧
    (h.withLog v).nvPosted = h.nvPosted ∧ (∀ (c : Nat), cell (h.withLog v) c = cell h c) ∧ (∀ (c : Nat), Sys2Proof.Machine.hubc (h.withLog v) c = Sys2Proof.Machine.hubc h c) ∧ (∀ (c : Nat), region (h.withLog v) c = region h c) ∧ (∀ (x : Word), entity (h.withLog v) x = entity h x) ∧
    (nowNs (h.withLog v)  = nowNs h ) ∧ (imgOf (h.withLog v)  = imgOf h ) ∧ (serving (h.withLog v)  = serving h ) ∧ (working (h.withLog v)  = working h ) ∧ (alive (h.withLog v)  = alive h ) ∧
    (upState (h.withLog v)  = upState h ) ∧ (portOn (h.withLog v)  = portOn h ) ∧ (∀ (e : Env), dieNo e (h.withLog v)  = dieNo e h ) ∧ (∀ (e : Env), nodeNo e (h.withLog v)  = nodeNo e h ) ∧ (∀ (e : Env) (c : Nat), coreId e (h.withLog v) c = coreId e h c) ∧
    (∀ (e : Env) (c : Nat), unitId e (h.withLog v) c = unitId e h c) ∧ (∀ (c : Nat), chan (h.withLog v) c = chan h c) ∧ (∀ (x : Word), entOk (h.withLog v) x = entOk h x) ∧ (∀ (c : Nat), groupOf (h.withLog v) c = groupOf h c) ∧ (∀ (c : Nat), probing (h.withLog v) c = probing h c) ∧
    (∀ (e : Env) (x : Word), presentCore e (h.withLog v) x = presentCore e h x) :=
  ⟨rfl, rfl, rfl, rfl, rfl, rfl, rfl, rfl, rfl, rfl, rfl, rfl, rfl, rfl, rfl, rfl, rfl, rfl, rfl, rfl, rfl, rfl, rfl, rfl, rfl, rfl, rfl, rfl, rfl, rfl, rfl, fun _ => rfl, fun _ => rfl, fun _ => rfl, fun _ => rfl, rfl, rfl, rfl, rfl, rfl, rfl, rfl, fun _  => rfl, fun _  => rfl, fun _ _ => rfl, fun _ _ => rfl, fun _ => rfl, fun _ => rfl, fun _ => rfl, fun _ => rfl, fun _ _ => rfl⟩

/-- A hub with another `boot`. -/
def Hub.withBoot (h : Hub) (v : Boot) : Hub := { h with boot := v }
theorem withBoot_eq (h : Hub) (v : Boot) : { h with boot := v } = h.withBoot v := rfl
@[simp] theorem withBoot_reads (h : Hub) (v : Boot) :
    (h.withBoot v).free = h.free ∧ (h.withBoot v).sys = h.sys ∧ (h.withBoot v).isl = h.isl ∧ (h.withBoot v).time = h.time ∧ (h.withBoot v).regions = h.regions ∧
    (h.withBoot v).cells = h.cells ∧ (h.withBoot v).hubc = h.hubc ∧ (h.withBoot v).res = h.res ∧ (h.withBoot v).dig = h.dig ∧ (h.withBoot v).xs = h.xs ∧
    (h.withBoot v).ens = h.ens ∧ (h.withBoot v).casc = h.casc ∧ (h.withBoot v).age = h.age ∧ (h.withBoot v).fab = h.fab ∧ (h.withBoot v).sb = h.sb ∧
    (h.withBoot v).bc = h.bc ∧ (h.withBoot v).jobs = h.jobs ∧ (h.withBoot v).mgt = h.mgt ∧ (h.withBoot v).cmd = h.cmd ∧ (h.withBoot v).prot = h.prot ∧
    (h.withBoot v).regs = h.regs ∧ (h.withBoot v).mem = h.mem ∧ (h.withBoot v).dma = h.dma ∧ (h.withBoot v).trc = h.trc ∧ (h.withBoot v).nid = h.nid ∧
    (h.withBoot v).log = h.log ∧ (h.withBoot v).boot = v ∧ (h.withBoot v).img = h.img ∧ (h.withBoot v).reports = h.reports ∧ (h.withBoot v).posted = h.posted ∧
    (h.withBoot v).nvPosted = h.nvPosted ∧ (∀ (c : Nat), cell (h.withBoot v) c = cell h c) ∧ (∀ (c : Nat), Sys2Proof.Machine.hubc (h.withBoot v) c = Sys2Proof.Machine.hubc h c) ∧ (∀ (c : Nat), region (h.withBoot v) c = region h c) ∧ (∀ (x : Word), entity (h.withBoot v) x = entity h x) ∧
    (nowNs (h.withBoot v)  = nowNs h ) ∧ (imgOf (h.withBoot v)  = imgOf h ) ∧ (serving (h.withBoot v)  = serving h ) ∧ (working (h.withBoot v)  = working h ) ∧ (alive (h.withBoot v)  = alive h ) ∧
    (upState (h.withBoot v)  = upState h ) ∧ (portOn (h.withBoot v)  = portOn h ) ∧ (∀ (e : Env), dieNo e (h.withBoot v)  = dieNo e h ) ∧ (∀ (e : Env), nodeNo e (h.withBoot v)  = nodeNo e h ) ∧ (∀ (e : Env) (c : Nat), coreId e (h.withBoot v) c = coreId e h c) ∧
    (∀ (e : Env) (c : Nat), unitId e (h.withBoot v) c = unitId e h c) ∧ (∀ (c : Nat), chan (h.withBoot v) c = chan h c) ∧ (∀ (x : Word), entOk (h.withBoot v) x = entOk h x) ∧ (∀ (c : Nat), groupOf (h.withBoot v) c = groupOf h c) ∧ (∀ (c : Nat), probing (h.withBoot v) c = probing h c) ∧
    (∀ (e : Env) (x : Word), presentCore e (h.withBoot v) x = presentCore e h x) :=
  ⟨rfl, rfl, rfl, rfl, rfl, rfl, rfl, rfl, rfl, rfl, rfl, rfl, rfl, rfl, rfl, rfl, rfl, rfl, rfl, rfl, rfl, rfl, rfl, rfl, rfl, rfl, rfl, rfl, rfl, rfl, rfl, fun _ => rfl, fun _ => rfl, fun _ => rfl, fun _ => rfl, rfl, rfl, rfl, rfl, rfl, rfl, rfl, fun _  => rfl, fun _  => rfl, fun _ _ => rfl, fun _ _ => rfl, fun _ => rfl, fun _ => rfl, fun _ => rfl, fun _ => rfl, fun _ _ => rfl⟩

/-- A hub with another `img`. -/
def Hub.withImg (h : Hub) (v : Option Image) : Hub := { h with img := v }
theorem withImg_eq (h : Hub) (v : Option Image) : { h with img := v } = h.withImg v := rfl
@[simp] theorem withImg_reads (h : Hub) (v : Option Image) :
    (h.withImg v).free = h.free ∧ (h.withImg v).sys = h.sys ∧ (h.withImg v).isl = h.isl ∧ (h.withImg v).time = h.time ∧ (h.withImg v).regions = h.regions ∧
    (h.withImg v).cells = h.cells ∧ (h.withImg v).hubc = h.hubc ∧ (h.withImg v).res = h.res ∧ (h.withImg v).dig = h.dig ∧ (h.withImg v).xs = h.xs ∧
    (h.withImg v).ens = h.ens ∧ (h.withImg v).casc = h.casc ∧ (h.withImg v).age = h.age ∧ (h.withImg v).fab = h.fab ∧ (h.withImg v).sb = h.sb ∧
    (h.withImg v).bc = h.bc ∧ (h.withImg v).jobs = h.jobs ∧ (h.withImg v).mgt = h.mgt ∧ (h.withImg v).cmd = h.cmd ∧ (h.withImg v).prot = h.prot ∧
    (h.withImg v).regs = h.regs ∧ (h.withImg v).mem = h.mem ∧ (h.withImg v).dma = h.dma ∧ (h.withImg v).trc = h.trc ∧ (h.withImg v).nid = h.nid ∧
    (h.withImg v).log = h.log ∧ (h.withImg v).boot = h.boot ∧ (h.withImg v).img = v ∧ (h.withImg v).reports = h.reports ∧ (h.withImg v).posted = h.posted ∧
    (h.withImg v).nvPosted = h.nvPosted ∧ (∀ (c : Nat), cell (h.withImg v) c = cell h c) ∧ (∀ (c : Nat), Sys2Proof.Machine.hubc (h.withImg v) c = Sys2Proof.Machine.hubc h c) ∧ (∀ (c : Nat), region (h.withImg v) c = region h c) ∧ (∀ (x : Word), entity (h.withImg v) x = entity h x) ∧
    (nowNs (h.withImg v)  = nowNs h ) ∧ (serving (h.withImg v)  = serving h ) ∧ (working (h.withImg v)  = working h ) ∧ (alive (h.withImg v)  = alive h ) ∧ (upState (h.withImg v)  = upState h ) ∧
    (portOn (h.withImg v)  = portOn h ) ∧ (∀ (c : Nat), chan (h.withImg v) c = chan h c) ∧ (∀ (c : Nat), probing (h.withImg v) c = probing h c) :=
  ⟨rfl, rfl, rfl, rfl, rfl, rfl, rfl, rfl, rfl, rfl, rfl, rfl, rfl, rfl, rfl, rfl, rfl, rfl, rfl, rfl, rfl, rfl, rfl, rfl, rfl, rfl, rfl, rfl, rfl, rfl, rfl, fun _ => rfl, fun _ => rfl, fun _ => rfl, fun _ => rfl, rfl, rfl, rfl, rfl, rfl, rfl, fun _ => rfl, fun _ => rfl⟩

/-- A hub with another `reports`. -/
def Hub.withReports (h : Hub) (v : List Report) : Hub := { h with reports := v }
theorem withReports_eq (h : Hub) (v : List Report) : { h with reports := v } = h.withReports v := rfl
@[simp] theorem withReports_reads (h : Hub) (v : List Report) :
    (h.withReports v).free = h.free ∧ (h.withReports v).sys = h.sys ∧ (h.withReports v).isl = h.isl ∧ (h.withReports v).time = h.time ∧ (h.withReports v).regions = h.regions ∧
    (h.withReports v).cells = h.cells ∧ (h.withReports v).hubc = h.hubc ∧ (h.withReports v).res = h.res ∧ (h.withReports v).dig = h.dig ∧ (h.withReports v).xs = h.xs ∧
    (h.withReports v).ens = h.ens ∧ (h.withReports v).casc = h.casc ∧ (h.withReports v).age = h.age ∧ (h.withReports v).fab = h.fab ∧ (h.withReports v).sb = h.sb ∧
    (h.withReports v).bc = h.bc ∧ (h.withReports v).jobs = h.jobs ∧ (h.withReports v).mgt = h.mgt ∧ (h.withReports v).cmd = h.cmd ∧ (h.withReports v).prot = h.prot ∧
    (h.withReports v).regs = h.regs ∧ (h.withReports v).mem = h.mem ∧ (h.withReports v).dma = h.dma ∧ (h.withReports v).trc = h.trc ∧ (h.withReports v).nid = h.nid ∧
    (h.withReports v).log = h.log ∧ (h.withReports v).boot = h.boot ∧ (h.withReports v).img = h.img ∧ (h.withReports v).reports = v ∧ (h.withReports v).posted = h.posted ∧
    (h.withReports v).nvPosted = h.nvPosted ∧ (∀ (c : Nat), cell (h.withReports v) c = cell h c) ∧ (∀ (c : Nat), Sys2Proof.Machine.hubc (h.withReports v) c = Sys2Proof.Machine.hubc h c) ∧ (∀ (c : Nat), region (h.withReports v) c = region h c) ∧ (∀ (x : Word), entity (h.withReports v) x = entity h x) ∧
    (nowNs (h.withReports v)  = nowNs h ) ∧ (imgOf (h.withReports v)  = imgOf h ) ∧ (serving (h.withReports v)  = serving h ) ∧ (working (h.withReports v)  = working h ) ∧ (alive (h.withReports v)  = alive h ) ∧
    (upState (h.withReports v)  = upState h ) ∧ (portOn (h.withReports v)  = portOn h ) ∧ (∀ (e : Env), dieNo e (h.withReports v)  = dieNo e h ) ∧ (∀ (e : Env), nodeNo e (h.withReports v)  = nodeNo e h ) ∧ (∀ (e : Env) (c : Nat), coreId e (h.withReports v) c = coreId e h c) ∧
    (∀ (e : Env) (c : Nat), unitId e (h.withReports v) c = unitId e h c) ∧ (∀ (c : Nat), chan (h.withReports v) c = chan h c) ∧ (∀ (x : Word), entOk (h.withReports v) x = entOk h x) ∧ (∀ (c : Nat), groupOf (h.withReports v) c = groupOf h c) ∧ (∀ (c : Nat), probing (h.withReports v) c = probing h c) ∧
    (∀ (e : Env) (x : Word), presentCore e (h.withReports v) x = presentCore e h x) :=
  ⟨rfl, rfl, rfl, rfl, rfl, rfl, rfl, rfl, rfl, rfl, rfl, rfl, rfl, rfl, rfl, rfl, rfl, rfl, rfl, rfl, rfl, rfl, rfl, rfl, rfl, rfl, rfl, rfl, rfl, rfl, rfl, fun _ => rfl, fun _ => rfl, fun _ => rfl, fun _ => rfl, rfl, rfl, rfl, rfl, rfl, rfl, rfl, fun _  => rfl, fun _  => rfl, fun _ _ => rfl, fun _ _ => rfl, fun _ => rfl, fun _ => rfl, fun _ => rfl, fun _ => rfl, fun _ _ => rfl⟩

/-- A hub with another `posted`. -/
def Hub.withPosted (h : Hub) (v : List Host.Cell) : Hub := { h with posted := v }
theorem withPosted_eq (h : Hub) (v : List Host.Cell) : { h with posted := v } = h.withPosted v := rfl
@[simp] theorem withPosted_reads (h : Hub) (v : List Host.Cell) :
    (h.withPosted v).free = h.free ∧ (h.withPosted v).sys = h.sys ∧ (h.withPosted v).isl = h.isl ∧ (h.withPosted v).time = h.time ∧ (h.withPosted v).regions = h.regions ∧
    (h.withPosted v).cells = h.cells ∧ (h.withPosted v).hubc = h.hubc ∧ (h.withPosted v).res = h.res ∧ (h.withPosted v).dig = h.dig ∧ (h.withPosted v).xs = h.xs ∧
    (h.withPosted v).ens = h.ens ∧ (h.withPosted v).casc = h.casc ∧ (h.withPosted v).age = h.age ∧ (h.withPosted v).fab = h.fab ∧ (h.withPosted v).sb = h.sb ∧
    (h.withPosted v).bc = h.bc ∧ (h.withPosted v).jobs = h.jobs ∧ (h.withPosted v).mgt = h.mgt ∧ (h.withPosted v).cmd = h.cmd ∧ (h.withPosted v).prot = h.prot ∧
    (h.withPosted v).regs = h.regs ∧ (h.withPosted v).mem = h.mem ∧ (h.withPosted v).dma = h.dma ∧ (h.withPosted v).trc = h.trc ∧ (h.withPosted v).nid = h.nid ∧
    (h.withPosted v).log = h.log ∧ (h.withPosted v).boot = h.boot ∧ (h.withPosted v).img = h.img ∧ (h.withPosted v).reports = h.reports ∧ (h.withPosted v).posted = v ∧
    (h.withPosted v).nvPosted = h.nvPosted ∧ (∀ (c : Nat), cell (h.withPosted v) c = cell h c) ∧ (∀ (c : Nat), Sys2Proof.Machine.hubc (h.withPosted v) c = Sys2Proof.Machine.hubc h c) ∧ (∀ (c : Nat), region (h.withPosted v) c = region h c) ∧ (∀ (x : Word), entity (h.withPosted v) x = entity h x) ∧
    (nowNs (h.withPosted v)  = nowNs h ) ∧ (imgOf (h.withPosted v)  = imgOf h ) ∧ (serving (h.withPosted v)  = serving h ) ∧ (working (h.withPosted v)  = working h ) ∧ (alive (h.withPosted v)  = alive h ) ∧
    (upState (h.withPosted v)  = upState h ) ∧ (portOn (h.withPosted v)  = portOn h ) ∧ (∀ (e : Env), dieNo e (h.withPosted v)  = dieNo e h ) ∧ (∀ (e : Env), nodeNo e (h.withPosted v)  = nodeNo e h ) ∧ (∀ (e : Env) (c : Nat), coreId e (h.withPosted v) c = coreId e h c) ∧
    (∀ (e : Env) (c : Nat), unitId e (h.withPosted v) c = unitId e h c) ∧ (∀ (c : Nat), chan (h.withPosted v) c = chan h c) ∧ (∀ (x : Word), entOk (h.withPosted v) x = entOk h x) ∧ (∀ (c : Nat), groupOf (h.withPosted v) c = groupOf h c) ∧ (∀ (c : Nat), probing (h.withPosted v) c = probing h c) ∧
    (∀ (e : Env) (x : Word), presentCore e (h.withPosted v) x = presentCore e h x) :=
  ⟨rfl, rfl, rfl, rfl, rfl, rfl, rfl, rfl, rfl, rfl, rfl, rfl, rfl, rfl, rfl, rfl, rfl, rfl, rfl, rfl, rfl, rfl, rfl, rfl, rfl, rfl, rfl, rfl, rfl, rfl, rfl, fun _ => rfl, fun _ => rfl, fun _ => rfl, fun _ => rfl, rfl, rfl, rfl, rfl, rfl, rfl, rfl, fun _  => rfl, fun _  => rfl, fun _ _ => rfl, fun _ _ => rfl, fun _ => rfl, fun _ => rfl, fun _ => rfl, fun _ => rfl, fun _ _ => rfl⟩

/-- A hub with another `nvPosted`. -/
def Hub.withNvPosted (h : Hub) (v : List Host.Cell) : Hub := { h with nvPosted := v }
theorem withNvPosted_eq (h : Hub) (v : List Host.Cell) : { h with nvPosted := v } = h.withNvPosted v := rfl
@[simp] theorem withNvPosted_reads (h : Hub) (v : List Host.Cell) :
    (h.withNvPosted v).free = h.free ∧ (h.withNvPosted v).sys = h.sys ∧ (h.withNvPosted v).isl = h.isl ∧ (h.withNvPosted v).time = h.time ∧ (h.withNvPosted v).regions = h.regions ∧
    (h.withNvPosted v).cells = h.cells ∧ (h.withNvPosted v).hubc = h.hubc ∧ (h.withNvPosted v).res = h.res ∧ (h.withNvPosted v).dig = h.dig ∧ (h.withNvPosted v).xs = h.xs ∧
    (h.withNvPosted v).ens = h.ens ∧ (h.withNvPosted v).casc = h.casc ∧ (h.withNvPosted v).age = h.age ∧ (h.withNvPosted v).fab = h.fab ∧ (h.withNvPosted v).sb = h.sb ∧
    (h.withNvPosted v).bc = h.bc ∧ (h.withNvPosted v).jobs = h.jobs ∧ (h.withNvPosted v).mgt = h.mgt ∧ (h.withNvPosted v).cmd = h.cmd ∧ (h.withNvPosted v).prot = h.prot ∧
    (h.withNvPosted v).regs = h.regs ∧ (h.withNvPosted v).mem = h.mem ∧ (h.withNvPosted v).dma = h.dma ∧ (h.withNvPosted v).trc = h.trc ∧ (h.withNvPosted v).nid = h.nid ∧
    (h.withNvPosted v).log = h.log ∧ (h.withNvPosted v).boot = h.boot ∧ (h.withNvPosted v).img = h.img ∧ (h.withNvPosted v).reports = h.reports ∧ (h.withNvPosted v).posted = h.posted ∧
    (h.withNvPosted v).nvPosted = v ∧ (∀ (c : Nat), cell (h.withNvPosted v) c = cell h c) ∧ (∀ (c : Nat), Sys2Proof.Machine.hubc (h.withNvPosted v) c = Sys2Proof.Machine.hubc h c) ∧ (∀ (c : Nat), region (h.withNvPosted v) c = region h c) ∧ (∀ (x : Word), entity (h.withNvPosted v) x = entity h x) ∧
    (nowNs (h.withNvPosted v)  = nowNs h ) ∧ (imgOf (h.withNvPosted v)  = imgOf h ) ∧ (serving (h.withNvPosted v)  = serving h ) ∧ (working (h.withNvPosted v)  = working h ) ∧ (alive (h.withNvPosted v)  = alive h ) ∧
    (upState (h.withNvPosted v)  = upState h ) ∧ (portOn (h.withNvPosted v)  = portOn h ) ∧ (∀ (e : Env), dieNo e (h.withNvPosted v)  = dieNo e h ) ∧ (∀ (e : Env), nodeNo e (h.withNvPosted v)  = nodeNo e h ) ∧ (∀ (e : Env) (c : Nat), coreId e (h.withNvPosted v) c = coreId e h c) ∧
    (∀ (e : Env) (c : Nat), unitId e (h.withNvPosted v) c = unitId e h c) ∧ (∀ (c : Nat), chan (h.withNvPosted v) c = chan h c) ∧ (∀ (x : Word), entOk (h.withNvPosted v) x = entOk h x) ∧ (∀ (c : Nat), groupOf (h.withNvPosted v) c = groupOf h c) ∧ (∀ (c : Nat), probing (h.withNvPosted v) c = probing h c) ∧
    (∀ (e : Env) (x : Word), presentCore e (h.withNvPosted v) x = presentCore e h x) :=
  ⟨rfl, rfl, rfl, rfl, rfl, rfl, rfl, rfl, rfl, rfl, rfl, rfl, rfl, rfl, rfl, rfl, rfl, rfl, rfl, rfl, rfl, rfl, rfl, rfl, rfl, rfl, rfl, rfl, rfl, rfl, rfl, fun _ => rfl, fun _ => rfl, fun _ => rfl, fun _ => rfl, rfl, rfl, rfl, rfl, rfl, rfl, rfl, fun _  => rfl, fun _  => rfl, fun _ _ => rfl, fun _ _ => rfl, fun _ => rfl, fun _ => rfl, fun _ => rfl, fun _ => rfl, fun _ _ => rfl⟩

end Sys2Proof.Machine
end

