-- ==== Sys2Proof/Laws/TraceCells.lean ====
section
/-!
SUPPORT. The trace unit changes nothing of a cell but whether it is selected.
-/
namespace Sys2Proof.Machine

/-- Between two hubs a cell differs at most in LC_TSEL, and a region in the changes that wait for its clock. -/
def TselOnly (h k : Hub) : Prop := (∀ d, ∃ b, cell k d = { (cell h d) with trace := { (cell h d).trace with tsel := b } }) ∧
  (∀ q, ∃ w, region k q = { (region h q) with waitCfg := w }) ∧ k.regions.length = h.regions.length

theorem TselOnly.refl (h : Hub) : TselOnly h h := ⟨fun d => ⟨(cell h d).trace.tsel, rfl⟩, fun q => ⟨(region h q).waitCfg, rfl⟩, rfl⟩
theorem TselOnly.trans {h k l : Hub} (a : TselOnly h k) (b : TselOnly k l) : TselOnly h l := by
  refine ⟨fun d => ?_, fun q => ?_, b.2.2.trans a.2.2⟩
  · obtain ⟨x, p⟩ := a.1 d
    obtain ⟨y, q⟩ := b.1 d
    exact ⟨y, by rw [q, p]⟩
  · obtain ⟨x, p⟩ := a.2.1 q
    obtain ⟨y, w⟩ := b.2.1 q
    exact ⟨y, by rw [w, p]⟩
theorem TselOnly.of_cells {h k : Hub} (e : k.cells = h.cells) (r : k.regions = h.regions) : TselOnly h k :=
  ⟨fun d => by rw [cell_congr e]; exact ⟨(cell h d).trace.tsel, rfl⟩, fun q => by rw [region_congr r]; exact ⟨(region h q).waitCfg, rfl⟩, by rw [r]⟩
theorem TselOnly.onRegion (r : Nat) (c : Nat) (x : Wait) (h : Hub) :
    TselOnly h (Machine.onRegion r (fun y => { y with waitCfg := y.waitCfg ++ [(c, x)] }) h) := by
  refine ⟨fun d => ⟨(cell h d).trace.tsel, rfl⟩, fun q => ?_, by unfold Machine.onRegion; simp⟩
  by_cases e : q = r
  · subst e
    by_cases l : q < h.regions.length
    · have g : h.regions[q]? = some (region h q) := by simp [region, getAt_eq, l]
      rw [region_onRegion _ g]
      exact ⟨_, rfl⟩
    · exact ⟨(region h q).waitCfg, by unfold Machine.onRegion region; simp [getAt_eq, l]⟩
  · rw [region_onRegion_ne _ _ e]
    exact ⟨(region h q).waitCfg, rfl⟩
theorem TselOnly.ite {h k l : Hub} {p : Prop} [Decidable p] (a : TselOnly h k) (b : TselOnly h l) : TselOnly h (if p then k else l) := by
  split
  · exact a
  · exact b
theorem TselOnly.foldl {α : Type} {f : Hub → α → Hub} (s : ∀ h x, TselOnly h (f h x)) (l : List α) (h : Hub) : TselOnly h (l.foldl f h) := by
  induction l generalizing h with
  | nil => exact TselOnly.refl h
  | cons x t ih => exact (s h x).trans (ih _)

theorem tsel_irq (n : Nat) (h : Hub) : TselOnly h (irq n h) := TselOnly.of_cells rfl rfl
theorem tsel_onTrc (f : Trc → Trc) (h : Hub) : TselOnly h (onTrc f h) := TselOnly.of_cells rfl rfl

theorem tsel_putFree (e : Env) (a b c d : Nat) (l : List Byte) (h : Hub) : TselOnly h (putFree e a b c d l h) := TselOnly.of_cells (by simp) (by simp)

theorem tsel_applyTsel (e : Env) (c : Nat) (b : Bool) (h : Hub) : TselOnly h (applyTsel e c b h) := by
  unfold applyTsel
  have k : TselOnly h (onCell c (fun x => { x with trace := { x.trace with tsel := b } }) h) := by
    refine ⟨fun d => ?_, fun q => ⟨(region h q).waitCfg, rfl⟩, rfl⟩
    by_cases q : d = c
    · subst q; exact ⟨b, by rw [cell_onCell_self]⟩
    · exact ⟨(cell h d).trace.tsel, by rw [cell_onCell_ne _ _ q]⟩
  exact TselOnly.ite (k.trans (tsel_putFree _ _ _ _ _ _ _)) k

theorem tsel_driveTsel (e : Env) (c : Nat) (b : Bool) (h : Hub) : TselOnly h (driveTsel e c b h) := by
  unfold driveTsel
  exact TselOnly.ite (TselOnly.onRegion ..) (tsel_applyTsel e c b h)

theorem tsel_applyCores (e : Env) (o n : List Nat) (h : Hub) : TselOnly h (applyCores e o n h) := by
  unfold applyCores
  exact (TselOnly.foldl (fun h c => tsel_driveTsel e c false h) _ h).trans (TselOnly.foldl (fun h c => tsel_driveTsel e c true h) _ _)

theorem tsel_applyTrcNext (e : Env) (h : Hub) : TselOnly h (applyTrcNext e h) := by
  unfold applyTrcNext
  split
  · exact TselOnly.refl h
  · exact (TselOnly.of_cells rfl rfl).trans (tsel_applyCores _ _ _ _)

theorem tsel_endBlock (e : Env) (a b c : Bool) (h : Hub) : TselOnly h (endBlock e a b c h) := by
  unfold endBlock
  exact TselOnly.ite (tsel_applyTrcNext _ _) ((TselOnly.of_cells rfl rfl).trans (tsel_applyTrcNext _ _))

theorem tsel_putRaw (e : Env) (a b c d : Nat) (l : List Byte) (h : Hub) : TselOnly h (putRaw e a b c d l h) := by
  unfold putRaw
  exact TselOnly.ite (tsel_putFree _ _ _ _ _ _ _) ((tsel_endBlock _ _ _ _ _).trans (tsel_putFree _ _ _ _ _ _ _))

theorem tsel_endPost (e : Env) (c : Nat) (h : Hub) : TselOnly h (endPost e c h) := by
  unfold endPost
  exact ((tsel_putRaw _ _ _ _ _ _ _).trans (tsel_endBlock _ _ _ _ _)).trans (tsel_onTrc _ _)

theorem tsel_fire (e : Env) (n : Nat) (h : Hub) : TselOnly h (fire e n h) := by
  unfold fire
  dsimp only
  have a : TselOnly h (irq 7 (onTrc (fun t => { t with armed := false, trigOut := t.trigOut + 1, conds := [], fired := true }) h)) :=
    (tsel_onTrc _ _).trans (tsel_irq _ _)
  generalize irq 7 (onTrc (fun t => { t with armed := false, trigOut := t.trigOut + 1, conds := [], fired := true }) h) = x at a ⊢
  refine TselOnly.ite a ?_
  have b := (a.trans (tsel_endBlock e false false false x)).trans (tsel_onTrc (fun t => { t with
      trig := true, curTrig := true, trigBseq := t.bseq, posting := decide (bufSize t > 0), posted := 0 }) _)
  generalize onTrc (fun t => { t with trig := true, curTrig := true, trigBseq := t.bseq, posting := decide (bufSize t > 0), posted := 0 })
    (endBlock e false false false x) = y at b ⊢
  have c := b.trans (tsel_putRaw e 8 0 (srcOf 3 0) (nowNs y) ([2] ++ beBytes 4 0 ++ beBytes 4 n) y)
  generalize putRaw e 8 0 (srcOf 3 0) (nowNs y) ([2] ++ beBytes 4 0 ++ beBytes 4 n) y = z at c ⊢
  split
  · exact c.trans (tsel_endPost _ _ _)
  · exact c

theorem tsel_ignoreCond (e : Env) (n : Nat) (h : Hub) : TselOnly h (ignoreCond e n h) := by
  unfold ignoreCond
  exact TselOnly.ite ((tsel_onTrc _ _).trans (tsel_putRaw _ _ _ _ _ _ _)) (tsel_onTrc _ _)

theorem tsel_trigger (e : Env) (n : Nat) (h : Hub) : TselOnly h (trigger e n h) := by
  unfold trigger
  exact TselOnly.ite (TselOnly.ite (tsel_onTrc _ _) (TselOnly.refl h)) (TselOnly.ite (TselOnly.refl h)
    (TselOnly.ite (TselOnly.ite (tsel_fire _ _ _) (tsel_onTrc _ _)) (tsel_ignoreCond _ _ _)))

theorem tsel_putPkt (e : Env) (a b c d : Nat) (l : List Byte) (h : Hub) : TselOnly h (putPkt e a b c d l h) := by
  unfold putPkt
  refine TselOnly.ite (TselOnly.refl h) (TselOnly.ite (tsel_onTrc _ _) ?_)
  dsimp only
  have k : TselOnly h (if h.trc.mergeDue > 0 then
      putRaw e 3 1 (srcOf 4 0) (nowNs h) (leb 7 h.trc.mergeDue) (onTrc (fun t => { t with mergeDue := 0 }) h) else h) :=
    TselOnly.ite ((tsel_onTrc _ _).trans (tsel_putRaw _ _ _ _ _ _ _)) (TselOnly.refl h)
  generalize (if h.trc.mergeDue > 0 then
      putRaw e 3 1 (srcOf 4 0) (nowNs h) (leb 7 h.trc.mergeDue) (onTrc (fun t => { t with mergeDue := 0 }) h) else h) = x at k ⊢
  have q := k.trans (tsel_putRaw e a b c d l x)
  generalize putRaw e a b c d l x = y at q ⊢
  have w : TselOnly h (match postDue y.trc with
      | some c => endPost e c y
      | none => y) := by
    split
    · exact q.trans (tsel_endPost _ _ _)
    · exact q
  exact TselOnly.ite (w.trans (tsel_trigger _ _ _)) w

theorem tsel_hostPkt (e : Env) (c : Nat) (w : DWord) (a b l : Nat) (h : Hub) : TselOnly h (hostPkt e c w a b l h) := by
  unfold hostPkt
  dsimp only
  refine TselOnly.trans (k := if l = 0 then h else putPkt e 3 0 (srcOf 0 c) b (leb 7 l) h) (TselOnly.ite (TselOnly.refl h) (tsel_putPkt ..)) ?_
  generalize (if l = 0 then h else putPkt e 3 0 (srcOf 0 c) b (leb 7 l) h) = k
  have q : TselOnly k (if fits e 2 0 (srcOf 0 c) b (leb 7 (if (!k.trc.absDone.contains c || k.trc.cur.isEmpty) = true then a % 2 ^ 48 else
      (a + 2 ^ 48 - Tab.getD k.trc.lastCyc c 0) % 2 ^ 48) ++ beBytes 8 w.toNat) k = true then k else endBlock e false false false k) :=
    TselOnly.ite (TselOnly.refl k) (tsel_endBlock ..)
  refine q.trans ?_
  exact TselOnly.ite (tsel_putPkt ..) ((tsel_putPkt ..).trans (tsel_onTrc ..))

theorem tsel_mark (e : Env) (n : Nat) (x v : Word) (t : Nat) (h : Hub) : TselOnly h (mark e n x v t h) := by
  unfold mark
  refine TselOnly.ite (TselOnly.refl h) ?_
  exact TselOnly.ite ((tsel_putPkt _ _ _ _ _ _ _).trans (tsel_trigger _ _ _)) (tsel_putPkt _ _ _ _ _ _ _)

theorem tsel_outcomeMark (e : Env) (x : Word) (b : Bool) (c t : Nat) (h : Hub) : TselOnly h (outcomeMark e x b c t h) := by
  unfold outcomeMark
  exact (tsel_mark _ _ _ _ _ _).trans (tsel_trigger _ _ _)

theorem TselOnly.same {h k : Hub} (a : TselOnly h k) (d : Nat) : (cell k d).cnt = (cell h d).cnt ∧ (cell k d).flags = (cell h d).flags ∧
    (cell k d).rules = (cell h d).rules ∧ (cell k d).watch = (cell h d).watch ∧ (cell k d).hold = (cell h d).hold ∧
    (cell k d).lane = (cell h d).lane ∧ (cell k d).trace.buf = (cell h d).trace.buf ∧ (cell k d).armed = (cell h d).armed ∧
    (cell k d).shadow = (cell h d).shadow ∧ (cell k d).sels = (cell h d).sels := by
  obtain ⟨b, e⟩ := a.1 d
  rw [e]
  exact ⟨rfl, rfl, rfl, rfl, rfl, rfl, rfl, rfl, rfl, rfl⟩

@[simp] theorem mark_same (e : Env) (n : Nat) (x v : Word) (t : Nat) (h : Hub) (d : Nat) : (cell (mark e n x v t h) d).cnt = (cell h d).cnt ∧
    (cell (mark e n x v t h) d).flags = (cell h d).flags ∧ (cell (mark e n x v t h) d).rules = (cell h d).rules ∧
    (cell (mark e n x v t h) d).lane = (cell h d).lane ∧ (cell (mark e n x v t h) d).hold = (cell h d).hold := by
  have := (tsel_mark e n x v t h).same d
  exact ⟨this.1, this.2.1, this.2.2.1, this.2.2.2.2.2.1, this.2.2.2.2.1⟩

theorem mark_region {α : Type} (P : Region → α) (p : ∀ x w, P { x with waitCfg := w } = P x) (e : Env) (n : Nat) (x v : Word) (t : Nat) (h : Hub) (q : Nat) :
    P (region (mark e n x v t h) q) = P (region h q) := by
  obtain ⟨w, k⟩ := (tsel_mark e n x v t h).2.1 q
  rw [k, p]
@[simp] theorem mark_length (e : Env) (n : Nat) (x v : Word) (t : Nat) (h : Hub) : (mark e n x v t h).regions.length = h.regions.length :=
  (tsel_mark e n x v t h).2.2

end Sys2Proof.Machine
end

