-- ==== Sys2Proof/Laws/Cells.lean ====
section
/-!
SUPPORT. What the operations of the lichen cells do, one lemma an operation.
-/
namespace Sys2Proof.Machine

theorem clearFlags_cell (e : Env) (c : Nat) (b : Byte) (h : Hub) : cell (clearFlags e c b h) c = { (cell h c) with
    flags := w1cSet (cell h c).flags (cell h c).fresh b
    rules := ((cell h c).rules.zipIdx).map (fun r =>
      if b.getLsbD r.2 && (cell h c).flags.getLsbD r.2 && !(cell h c).fresh.getLsbD r.2 then r.1.rearm (cell h c).cnt else r.1) } := by
  unfold clearFlags
  dsimp only
  split
  · rw [(featWrite_reads ..).1, (onHubc_reads ..).1, cell_onCell_self]
  · rw [cell_onCell_self]

@[simp] theorem clearFlags_rules (e : Env) (c : Nat) (b : Byte) (h : Hub) (d : Nat) :
    (Sys2Proof.Machine.hubc (clearFlags e c b h) d).rules = (Sys2Proof.Machine.hubc h d).rules := by
  unfold clearFlags
  dsimp only
  split
  · by_cases n : d = c
    · subst n; simp
    · simp [hubc_onHubc_ne _ _ n]
  · simp

theorem closeTiles_hubc (c i : Nat) (h : Hub) (d : Nat) : ∃ l, Sys2Proof.Machine.hubc (closeTiles c i h) d = { (Sys2Proof.Machine.hubc h d) with counts := l } := by
  unfold closeTiles
  dsimp only
  split
  · exact ⟨(Sys2Proof.Machine.hubc h d).counts, by simp⟩
  · by_cases n : d = c
    · subst n; exact ⟨_, by simp only [countCore, hubc_onHubc_self, onCell_reads]; rfl⟩
    · exact ⟨(Sys2Proof.Machine.hubc h d).counts, by simp [countCore, hubc_onHubc_ne _ _ n]⟩
@[simp] theorem closeTiles_cfg (c i : Nat) (h : Hub) (d : Nat) :
    (Sys2Proof.Machine.hubc (closeTiles c i h) d).sels = (Sys2Proof.Machine.hubc h d).sels ∧
    (Sys2Proof.Machine.hubc (closeTiles c i h) d).rules = (Sys2Proof.Machine.hubc h d).rules ∧
    (Sys2Proof.Machine.hubc (closeTiles c i h) d).watch = (Sys2Proof.Machine.hubc h d).watch ∧
    (Sys2Proof.Machine.hubc (closeTiles c i h) d).based = (Sys2Proof.Machine.hubc h d).based := by
  obtain ⟨l, e⟩ := closeTiles_hubc c i h d
  rw [e]
  exact ⟨rfl, rfl, rfl, rfl⟩

theorem applyRule_cell (e : Env) (c i : Nat) (h : Hub) : ∃ l, l.length = (cell h c).rules.length ∧ cell (applyRule e c i h) c = { (cell h c) with
    flags := w1cSet (cell h c).flags (cell h c).fresh (BitVec.ofNat 8 (2 ^ i))
    rules := setAt l i (Rule.arm { w0 := (getAt (Sys2Proof.Machine.hubc h c).rules i (0, 0)).1, w1 := (getAt (Sys2Proof.Machine.hubc h c).rules i (0, 0)).2 } (cell h c).cnt) } := by
  unfold applyRule
  simp only [cell_onCell_self, clearFlags_cell, clearFlags_rules]
  exact ⟨_, by simp, rfl⟩

theorem foldl_at {α : Type} {f : Hub → α → Hub} {P : Hub → α → Prop} (hp : ∀ h c, P (f h c) c) (hk : ∀ h c d, P h d → P (f h c) d) (l : List α) (h : Hub)
    {c : α} (m : c ∈ l) : P (l.foldl f h) c := by
  have keep : ∀ (l : List α) (h : Hub), P h c → P (l.foldl f h) c := by
    intro l
    induction l with
    | nil => intro h p; exact p
    | cons x t ih => intro h p; exact ih _ (hk _ _ _ p)
  induction l generalizing h with
  | nil => cases m
  | cons x t ih =>
    rcases List.mem_cons.mp m with rfl | m
    · exact keep t _ (hp _ _)
    · exact ih _ m

theorem mem_regionCores {e : Env} {c r : Nat} (p : e.present c = true) (q : regionOf c = r) : c ∈ regionCores e r := by
  unfold regionCores
  refine List.mem_filter.mpr ⟨List.mem_map.mpr ⟨c % 256, List.mem_range.mpr (Nat.mod_lt _ (by decide)), ?_⟩, p⟩
  unfold regionOf at q
  omega

/-- The accounting counters (R77, R78). -/
def Counters.acct (k : Counters) : Cnt × Cnt × Cnt × List Cnt := (k.elapsed, k.busy, k.idle, k.stalls)

@[simp] theorem event_acct (k : Counters) (l : List EvSel) (st : BitVec 2) (a b : Nat) : (k.event l st a b).acct = k.acct := rfl
@[simp] theorem hostEvents_acct (k : Counters) (l : List EvSel) (st : BitVec 2) (ev : DWord) : (k.hostEvents l st ev).acct = k.acct := rfl

theorem cellEvent_cell (c a : Nat) (h : Hub) (n d : Nat) : ∃ k, k.acct = (cell h d).cnt.acct ∧ cell (cellEvent c a h n) d = { (cell h d) with cnt := k } := by
  unfold cellEvent
  by_cases e : d = c
  · subst e
    rw [cell_onCell_self]
    split
    · exact ⟨_, event_acct _ _ _ _ _, rfl⟩
    · exact ⟨_, rfl, rfl⟩
  · rw [cell_onCell_ne _ _ e]
    exact ⟨_, rfl, rfl⟩
@[simp] theorem cellEvent_same (c a : Nat) (h : Hub) (n d : Nat) :
    (cell (cellEvent c a h n) d).cnt.acct = (cell h d).cnt.acct ∧ (cell (cellEvent c a h n) d).flags = (cell h d).flags ∧
    (cell (cellEvent c a h n) d).rules = (cell h d).rules ∧ (cell (cellEvent c a h n) d).watch = (cell h d).watch ∧
    (cell (cellEvent c a h n) d).hold = (cell h d).hold ∧ (cell (cellEvent c a h n) d).last = (cell h d).last ∧
    (cell (cellEvent c a h n) d).lane = (cell h d).lane ∧ (cell (cellEvent c a h n) d).trace = (cell h d).trace ∧
    (cell (cellEvent c a h n) d).armed = (cell h d).armed ∧ (cell (cellEvent c a h n) d).shadow = (cell h d).shadow := by
  obtain ⟨k, q, e⟩ := cellEvent_cell c a h n d
  rw [e]
  exact ⟨q, rfl, rfl, rfl, rfl, rfl, rfl, rfl, rfl, rfl⟩

theorem onCell_acct (c : Nat) (f : Cell → Cell) (h : Hub) (d : Nat) (q : ∀ x, (f x).cnt.acct = x.cnt.acct) :
    (cell (onCell c f h) d).cnt.acct = (cell h d).cnt.acct := by
  by_cases e : d = c
  · subst e; rw [cell_onCell_self]; exact q _
  · rw [cell_onCell_ne _ _ e]

theorem ite_acct {p : Prop} [Decidable p] {a b : Hub} {d : Nat} {z : Cnt × Cnt × Cnt × List Cnt} (x : (cell a d).cnt.acct = z) (y : (cell b d).cnt.acct = z) :
    (cell (if p then a else b) d).cnt.acct = z := by
  split
  · exact x
  · exact y

@[simp] theorem fireRule_acct (e : Env) (c i : Nat) (h : Hub) (d : Nat) : (cell (fireRule e c i h) d).cnt.acct = (cell h d).cnt.acct := by
  unfold fireRule
  dsimp only
  have k := onCell_acct c (fun x => { x with
    flags := x.flags ||| BitVec.ofNat 8 (2 ^ i), fresh := x.fresh ||| BitVec.ofNat 8 (2 ^ i), flagTb := setAt x.flagTb i (nowNs h)
    flagCycle := setAt x.flagCycle i x.cnt.elapsed }) h d (fun _ => rfl)
  split
  · rw [(mark_same ..).1, (onRegion_reads ..).1, (cellEvent_same ..).1]; exact k
  · rw [(onRegion_reads ..).1, (cellEvent_same ..).1]; exact k

@[simp] theorem evalRule_acct (e : Env) (c i : Nat) (v : Bool) (h : Hub) (d : Nat) : (cell (evalRule e c i v h) d).cnt.acct = (cell h d).cnt.acct := by
  unfold evalRule
  dsimp only
  exact ite_acct ((fireRule_acct ..).trans (onCell_acct _ _ _ _ (fun _ => rfl))) (onCell_acct _ _ _ _ (fun _ => rfl))

@[simp] theorem edgeRules_acct (e : Env) (c : Nat) (h : Hub) (d : Nat) : (cell (edgeRules e c h) d).cnt.acct = (cell h d).cnt.acct := by
  unfold edgeRules
  split
  · rfl
  · next n =>
    clear n
    generalize List.range 8 = l
    induction l generalizing h with
    | nil => rfl
    | cons i t ih =>
      exact (ih _).trans (ite_acct rfl (ite_acct (by simp) (onCell_acct _ _ _ _ (fun _ => rfl))))

@[simp] theorem takeWrongly_acct (e : Env) (c : Nat) (h : Hub) (d : Nat) : (cell (takeWrongly e c h) d).cnt.acct = (cell h d).cnt.acct := by
  unfold takeWrongly tapProto
  simp only [postOut_reads, cellEvent_same]
  unfold takeWord onLane
  exact onCell_acct _ _ _ _ (fun _ => rfl)

@[simp] theorem laneCycle_acct (e : Env) (c : Nat) (h : Hub) (d : Nat) : (cell (laneCycle e c h) d).cnt.acct = (cell h d).cnt.acct := by
  unfold laneCycle
  exact onCell_acct _ _ _ _ (fun _ => rfl)

@[simp] theorem holdCycle_acct (e : Env) (c : Nat) (st : BitVec 2) (r : BitVec 4) (h : Hub) (d : Nat) :
    (cell (holdCycle e c st r h) d).cnt.acct = (cell h d).cnt.acct := by
  have k := onCell_acct c (fun y => { y with holdAge := min 256 (y.holdAge + 1) }) h d (fun _ => rfl)
  unfold holdCycle
  dsimp only
  refine ite_acct rfl (ite_acct k (ite_acct ((cellEvent_same ..).1.trans k) ?_))
  simp only [setFloor_reads]
  refine Eq.trans (onCell_acct _ _ _ _ ?_) ?_
  · exact fun _ => rfl
  simp only [emit_reads, cellEvent_same]
  exact k

theorem onRegion_keep {α : Type} (P : Region → α) (r : Nat) (f : Region → Region) (h : Hub) (q : Nat) (p : ∀ x, P (f x) = P x) :
    P (region (onRegion r f h) q) = P (region h q) := by
  by_cases e : q = r
  · subst e
    unfold region onRegion
    simp only [getAt_eq, getElem?_setAt, region]
    by_cases l : q < h.regions.length
    · simp [l, p]
    · simp [l]
  · rw [region_onRegion_ne _ _ e]

/-- The clock of a region as the last host edge leaves it. -/
def Region.edge (x : Region) : Nat × Bool × Bool := (x.lastEdge, x.edges, x.stopped)

theorem ite_edge {p : Prop} [Decidable p] {a b : Hub} {q : Nat} {z : Nat × Bool × Bool} (x : (region a q).edge = z) (y : (region b q).edge = z) :
    (region (if p then a else b) q).edge = z := by
  split
  · exact x
  · exact y

@[simp] theorem fireRule_edge (e : Env) (c i : Nat) (h : Hub) (q : Nat) : (region (fireRule e c i h) q).edge = (region h q).edge := by
  unfold fireRule
  dsimp only
  have k : ∀ x, (region (onRegion (regionOf c) (fun r => { r with pending := r.pending ||| BitVec.ofNat 256 (2 ^ (c % 256)) }) x) q).edge = (region x q).edge :=
    fun x => onRegion_keep _ _ _ _ _ (fun _ => rfl)
  exact ite_edge ((mark_region Region.edge (fun _ _ => rfl) ..).trans (by simp only [k, cellEvent_reads, onCell_reads])) (by simp only [k, cellEvent_reads, onCell_reads])

@[simp] theorem evalRule_edge (e : Env) (c i : Nat) (v : Bool) (h : Hub) (q : Nat) : (region (evalRule e c i v h) q).edge = (region h q).edge := by
  unfold evalRule
  dsimp only
  exact ite_edge ((fireRule_edge ..).trans (by simp)) (by simp)

@[simp] theorem edgeRules_edge (e : Env) (c : Nat) (h : Hub) (q : Nat) : (region (edgeRules e c h) q).edge = (region h q).edge := by
  unfold edgeRules
  split
  · rfl
  · next n =>
    clear n
    generalize List.range 8 = l
    induction l generalizing h with
    | nil => rfl
    | cons i t ih => exact (ih _).trans (ite_edge rfl (ite_edge (by simp) (by simp)))

@[simp] theorem rememberTimeout_edge (c : Nat) (t : Option Tile) (w : Word) (h : Hub) (q : Nat) :
    (region (rememberTimeout c t w h) q).edge = (region h q).edge := by
  simp only [rememberTimeout_reads]

@[simp] theorem postOut_edge (o : TapOut) (h : Hub) (q : Nat) : (region (postOut o h) q).edge = (region h q).edge := by
  unfold postOut dropEntry
  dsimp only
  refine ite_edge (onRegion_keep _ _ _ _ _ (fun _ => rfl)) ?_
  refine Eq.trans (onRegion_keep _ _ _ _ _ ?_) ?_
  · exact fun _ => rfl
  · exact ite_edge ((rememberTimeout_edge ..).trans (ite_edge (by simp) rfl)) (ite_edge (by simp) rfl)

/-- Where no change waits for a stopped clock the reply is OK (R47). -/
theorem okCross_same {h k : Hub} {l : List Word} (e : k.regions = h.regions) : okCross h l k = .done stOk 0 l k := by
  unfold okCross crossWaits
  rw [if_neg]
  have : ∀ r, region k r = region h r := fun r => region_congr e r
  simp [this]
/-- Where one does it is ACCEPTED. -/
theorem okCross_wait {h k : Hub} {l : List Word} {r : Nat} (b : r < 8) (e : (region h r).waitCfg.length < (region k r).waitCfg.length) :
    okCross h l k = .done stAccepted 0 l k := by
  unfold okCross crossWaits
  rw [if_pos]
  exact List.any_eq_true.mpr ⟨r, List.mem_range.mpr b, by simpa using e⟩

/-- Whether something waits for a stopped clock follows from the regions. -/
theorem crossWaits_congr {h h' k k' : Hub} (a : h'.regions = h.regions) (b : k'.regions = k.regions) : crossWaits h' k' = crossWaits h k := by
  unfold crossWaits
  have p : ∀ r, region h' r = region h r := fun r => region_congr a r
  have q : ∀ r, region k' r = region k r := fun r => region_congr b r
  simp only [p, q]
/-- A command that may reach into host regions answers ACCEPTED where something then waits for a stopped clock, else OK (R47). -/
theorem op_cross {d : OpDef} {c : Cmd} {s : State} {res : List Word} {h0 k : Hub} (p : passes d c s = true)
    (a : d.act s.env (consumed c s) (ctxOf c s) = okCross h0 res k) (r : h0.regions = s.hub.regions) (hs : k.cmd.seqs = (consumed c s).cmd.seqs)
    (hc : k.cmd.chans = s.hub.cmd.chans) (hp : k.prot.locked = s.hub.prot.locked) :
    ∃ t, s.runOp d c = .next t ∧ Answered d.code (if crossWaits s.hub t.hub then stAccepted else stOk) 0 res c s t ∧
      t = s.settle (answer s.env d.code d.changes (ctxOf c s) (if crossWaits h0 k then stAccepted else stOk) 0 res k) := by
  obtain ⟨t, e, y, q⟩ := op_done p a (by split <;> decide) hs hc hp
  have w : crossWaits s.hub t.hub = crossWaits h0 k := by
    rw [q]
    exact crossWaits_congr r.symm (by simp)
  exact ⟨t, e, by rw [w]; exact y, q⟩

theorem Tab.find_map {α β : Type} (t : Tab α) (f : α → β) (i : Nat) : Tab.find (List.map (fun p => (p.1, f p.2)) t) i = (Tab.find t i).map f := by
  induction t with
  | nil => rfl
  | cons p l ih =>
    obtain ⟨k, a⟩ := p
    simp only [List.map_cons, Tab.find]
    split
    · rfl
    · exact ih

/-- Leaving DROWSE restarts the windows of the rules and changes nothing else of a cell. -/
theorem exitDrowse_cell (h : Hub) (d : Nat) : ∃ l, cell (exitDrowse h) d = { cell h d with rules := l } := by
  have w : ∀ k : Hub, k.cells = h.cells → ∃ l, cell (restartWindows k) d = { cell h d with rules := l } := fun k e => by
    refine ⟨(cell h d).rules.map (fun r : Rule => { r with start := none }), ?_⟩
    have z := Tab.find_map k.cells (fun c : Cell => { c with rules := c.rules.map (fun r : Rule => { r with start := none }) }) d
    unfold cell restartWindows Tab.getD
    refine (congrArg (fun o : Option Cell => o.getD {}) z).trans ?_
    rw [e]
    cases Tab.find h.cells d <;> rfl
  unfold exitDrowse
  split
  · exact ⟨(cell h d).rules, rfl⟩
  · have z := w (toState .serving h) (by simp)
    dsimp only
    split
    · exact z
    · obtain ⟨l, e⟩ := z
      refine ⟨l, Eq.trans (cell_congr ?_ _) e⟩
      simp [actHeld]

/-- What HOST_CYCLE does after it has counted: no step of it counts, moves the last edge or changes the block's state. -/
theorem cycle_rest {P : Hub → Prop} (e : Env) (c : Nat) (st : BitVec 2) (r : BitVec 4) (pt : Bool) {h : Hub} (p : P h)
    (k1 : ∀ a x, P x → P (cellEvent c a x)) (k2 : ∀ x, P x → P (holdCycle e c st r x)) (k3 : ∀ x, P x → P (laneCycle e c x))
    (k4 : ∀ x, P x → P (takeWrongly e c x)) (k5 : ∀ x, P x → P (edgeRules e c x)) :
    P (let h := if st = 3 then cellEvent c 40 h else h
       let h := holdCycle e c st r h
       let h := if working h then laneCycle e c h else h
       let h := if pt && working h then takeWrongly e c h else h
       edgeRules e c h) := by
  have ite : ∀ {q : Prop} [Decidable q] {a b : Hub}, P a → P b → P (if q then a else b) := by
    intro q _ a b x y
    split
    · exact x
    · exact y
  have s1 := ite (q := st = 3) (k1 40 _ p) p
  have s2 := k2 _ s1
  have s3 := ite (q := working (holdCycle e c st r (if st = 3 then cellEvent c 40 h else h)) = true) (k3 _ s2) s2
  exact k5 _ (ite (k4 _ s3) s3)

theorem closeTiles_cell_ne {c d : Nat} (i : Nat) (h : Hub) (n : d ≠ c) : cell (closeTiles c i h) d = cell h d := by
  unfold closeTiles
  dsimp only
  split <;> simp [countCore, cell_onCell_ne _ _ n]

@[simp] theorem cellRuns_clean (e : Env) (h : Hub) (c : Nat) : cellRuns e h.clean c = cellRuns e h c := rfl

@[simp] theorem fireRule_rules (e : Env) (c i : Nat) (h : Hub) : (cell (fireRule e c i h) c).rules = (cell h c).rules := by
  unfold fireRule
  dsimp only
  split <;> simp
theorem fireRule_flags (e : Env) (c i : Nat) (h : Hub) : (cell (fireRule e c i h) c).flags = (cell h c).flags ||| BitVec.ofNat 8 (2 ^ i) := by
  unfold fireRule
  dsimp only
  split
  · rw [(mark_same ..).2.1, (onRegion_reads ..).1, (cellEvent_same ..).2.1, cell_onCell_self]
  · rw [(onRegion_reads ..).1, (cellEvent_same ..).2.1, cell_onCell_self]

@[simp] theorem evalRule_length (e : Env) (c i : Nat) (v : Bool) (h : Hub) : (cell (evalRule e c i v h) c).rules.length = (cell h c).rules.length := by
  unfold evalRule
  dsimp only
  generalize (v && !(cell h c).flags.getLsbD i && _) = b
  cases b <;> simp
theorem evalRule_flags (e : Env) (c i : Nat) (h : Hub) (v : Bool) : (cell (evalRule e c i v h) c).flags =
    if v && !(cell h c).flags.getLsbD i && decide ((ruleAt (cell h c) i).holdN ≤ (if v then (ruleAt (cell h c) i).run + 1 else 0)) then
      (cell h c).flags ||| BitVec.ofNat 8 (2 ^ i) else (cell h c).flags := by
  unfold evalRule
  dsimp only
  simp only [ge_iff_le]
  generalize (v && !(cell h c).flags.getLsbD i && _) = b
  cases b <;> simp [fireRule_flags]

theorem countLost_nil {e : Env} {c : Nat} {h : Hub} (q : (Sys2Proof.Machine.hubc h c).lostOut = []) :
    countLost e c h = onHubc c (fun x => { x with lostOut := [] }) h := by
  unfold countLost
  rw [q]
  rfl

theorem acceptGood_hubc {e : Env} {c : Nat} {h : Hub} (q : (Sys2Proof.Machine.hubc h c).lostOut = []) :
    (Sys2Proof.Machine.hubc (acceptGood e c h) c).snap = (cell h c).shadow ∧ (Sys2Proof.Machine.hubc (acceptGood e c h) c).snapTb = nowNs h ∧
    (Sys2Proof.Machine.hubc (acceptGood e c h) c).based = true := by
  unfold acceptGood
  dsimp only
  rw [countLost_nil (by simp [q])]
  simp

theorem acceptGood_collect (e : Env) (c : Nat) (h : Hub) (r : Nat) : (region (acceptGood e c h) r).collect = (region h r).collect := by
  unfold acceptGood
  dsimp only
  simp only [countLost_reads]
  have k : ∀ x : Hub, (region (onRegion (regionOf c) (fun r => { r with answered := true }) x) r).collect = (region x r).collect :=
    fun x => onRegion_keep _ _ _ _ _ (fun _ => rfl)
  rw [k]
  simp only [onHubc_reads]
  have ite : ∀ {q : Prop} [Decidable q] {a b : Hub}, (region a r).collect = (region h r).collect → (region b r).collect = (region h r).collect →
      (region (if q then a else b) r).collect = (region h r).collect := by
    intro q _ a b x y
    split
    · exact x
    · exact y
  have base : ∀ z, (region (onRegion (regionOf c) (fun y => { y with hubEpoch := z }) h) r).collect = (region h r).collect :=
    fun z => onRegion_keep _ _ _ _ _ (fun _ => rfl)
  have step : (region (epochArrives e c h) r).collect = (region h r).collect := by
    unfold epochArrives
    dsimp only
    exact ite rfl (ite (by simp only [unitFlag_reads, unitCount_reads, emitUnit_reads]; exact base _)
      (by simp only [lossRecord_reads, unitFlag_reads, unitCount_reads, emitUnit_reads]; exact base _))
  exact ite (by simp only [lossRecord_reads]; exact step) step

theorem acceptGood_length (e : Env) (c : Nat) (h : Hub) : (acceptGood e c h).regions.length = h.regions.length := by
  unfold acceptGood epochArrives
  simp only [countLost_reads, onRegion_regions, length_setAt, onHubc_keeps, ite_regions, lossRecord_keeps, emitUnit_keeps, unitFlag_reads, unitCount_reads, apply_ite List.length, ite_self]

theorem turnDone_collect {e : Env} {r k : Nat} {l : List Nat} {h : Hub} (x : (region h r).collect = k :: l) (n : l ≠ []) (lt : r < h.regions.length) :
    (region (turnDone e r h) r).collect = l := by
  have g : h.regions[r]? = some (region h r) := by simp [region, getAt_eq, lt]
  have d : (region (onRegion r (fun x => { x with collect := x.collect.drop 1, turn := 0 }) h) r).collect = l := by
    rw [region_onRegion _ g]
    simp [x]
  unfold turnDone
  dsimp only
  rw [if_pos (by rw [d]; simpa using n)]
  exact d

end Sys2Proof.Machine
end

