-- ==== Sys2Proof/Laws/Lanes.lean ====
section
/-!
SUPPORT. What the operations of the residue lanes and the audit engine do, one lemma an operation.
-/
namespace Sys2Proof.Machine

@[simp] theorem auditExp_consumed (e : Env) (q : Cmd) (s : State) (c : Nat) : auditExp e (consumed q s) c = auditExp e s.hub c := by rw [consumed_eq]; rfl
@[simp] theorem laneRuns_clean (e : Env) (h : Hub) (c : Nat) : laneRuns e h.clean c = laneRuns e h c := rfl
@[simp] theorem dieEnt_consumed (e : Env) (q : Cmd) (s : State) : dieEnt e (consumed q s) = dieEnt e s.hub := by rw [consumed_eq]; rfl

/-- One block taken of the instance that serves (R118). -/
theorem takeBlocks_one {h : Hub} {i : Nat} (s : servingInstance h = some i) : takeBlocks 1 h = { h with
    free := h.free + 1
    res := { h.res with drbg := setAt h.res.drbg i (if (getAt h.res.drbg i (0, 0)).2 = 0 then ((getAt h.res.drbg i (0, 0)).1 + 1, 4095)
      else ((getAt h.res.drbg i (0, 0)).1, (getAt h.res.drbg i (0, 0)).2 - 1)) } } := by
  have s' : servingInstance (drawn h 1) = some i := s
  show takeBlock (drawn h 1) = _
  unfold takeBlock
  rw [s']
  rfl

@[simp] theorem onLane_lane (c : Nat) (f : Lane → Lane) (h : Hub) : (cell (onLane c f h) c).lane = f (cell h c).lane := by simp [onLane]
@[simp] theorem onLane_cnt (c : Nat) (f : Lane → Lane) (h : Hub) : (cell (onLane c f h) c).cnt = (cell h c).cnt := by simp [onLane]
@[simp] theorem presentIn6_lane (c : Nat) (v : BitVec 2) (t : BitVec 16) (h : Hub) : (cell (presentIn6 c v t h) c).lane =
    { (cell h c).lane with due := (cell h c).lane.due ++ [{ due := (cell h c).lane.cycle + 6, res := v, rtag := t }] } := by simp [presentIn6]

theorem postOut_room {o : TapOut} {h : Hub} {x : Region} (e : h.regions[regionOf o.core]? = some x) (lt : x.outq.length < 64) :
    postOut o h = onRegion (regionOf o.core) (fun x => { x with outq := x.outq ++ [o] }) h := by
  unfold postOut
  dsimp only
  rw [region_of e, if_pos lt]

theorem postOut_outq {o : TapOut} {h : Hub} {x : Region} (e : h.regions[regionOf o.core]? = some x) (lt : x.outq.length < 64) :
    ∃ y, (postOut o h).regions[regionOf o.core]? = some y ∧ y.outq = x.outq ++ [o] := by
  rw [postOut_room e lt]
  simp only [onRegion_regions, getElem?_setAt, region_of e]
  exact ⟨{ x with outq := x.outq ++ [o] }, by simp [(List.getElem?_eq_some_iff.mp e).1], rfl⟩

theorem postOut_shows {o : TapOut} {h : Hub} {x : Region} (e : h.regions[regionOf o.core]? = some x) (lt : x.outq.length < 64) {P : TapOut → Prop} (p : P o) :
    ∃ y q, (postOut o h).regions[regionOf o.core]? = some y ∧ y.outq = x.outq ++ [q] ∧ P q := by
  obtain ⟨y, a, b⟩ := postOut_outq e lt
  exact ⟨y, o, a, b, p⟩

theorem closeShort_nil {e : Env} {c : Nat} {h : Hub} (n : (cell h c).lane.tiles = []) : closeShort e c h = onLane c (fun l => { l with tiles := [] }) h := by
  unfold closeShort
  simp only [n, List.filter_nil, List.foldl_nil]
  unfold onLane onCell
  simp only [n, List.filter_nil]

theorem takeWord_lane {c : Nat} {h : Hub} {w : PointWord} {f : List PointWord} (e : (cell h c).lane.fifo = w :: f) :
    (cell (takeWord c h) c).lane = { (cell h c).lane with fifo := f, pseq := (cell h c).lane.pseq + 1 } := by
  unfold takeWord
  rw [onLane_lane, e]

theorem outcomeCounter_here (e : Env) (c code o n : Nat) (f : Bool) (h : Hub) : (outcomeCounter e c code o n f h).res = resCount code n h.res ∧
    (Sys2Proof.Machine.hubc (outcomeCounter e c code o n f h) c).outcome = (Sys2Proof.Machine.hubc h c).outcome + n := by
  unfold outcomeCounter
  dsimp only
  simp only [↓withRes_eq]
  constructor
  · cases f <;> simp
  · cases f <;> simp [countCore]

/-- An outcome counts at the die and at its core (R150). -/
theorem outcomeEffects_here (e : Env) (c code cls o : Nat) (pl : List Word) (b : Nat) (pr : Bool) (tb : Nat) (h : Hub) :
    (outcomeEffects e c code cls o pl b pr tb h).res = resCount code 1 h.res ∧
    (Sys2Proof.Machine.hubc (outcomeEffects e c code cls o pl b pr tb h) c).outcome = (Sys2Proof.Machine.hubc h c).outcome + 1 := by
  unfold outcomeEffects
  dsimp only
  generalize pl ++ _ = l
  have k := outcomeCounter_here e c code o 1 (!pr) (emitAt 1 2 0 (coreId e h c) 32 code l tb h)
  simp only [emitAt_keeps, emitAt_reads] at k
  constructor
  · split
    · exact (show _ = _ from k.1)
    · simp only [outcomeMark_reads, histCore_reads, setFloor_reads, sporeFeature_reads, flagCore_reads, irq_keeps]
      exact k.1
  · split
    · exact k.2
    · simp only [outcomeMark_reads, histCore_reads, setFloor_reads, sporeFeature_reads, flagCore, hubc_onHubc_self, irq_reads]
      exact k.2

/-- Of cells and regions an outcome may change only what its trace mark does (R509). -/
theorem outcomeEffects_tsel (e : Env) (c code cls o : Nat) (pl : List Word) (b : Nat) (pr : Bool) (tb : Nat) (h : Hub) :
    TselOnly h (outcomeEffects e c code cls o pl b pr tb h) := by
  unfold outcomeEffects
  dsimp only
  exact .ite (.of_cells (by simp) (by simp)) (.trans (.of_cells (by simp) (by simp)) (tsel_outcomeMark ..))
theorem laneOutcome_tsel (e : Env) (o : TapOut) (cls : Nat) (pr : Bool) (h : Hub) : TselOnly h (laneOutcome e o cls pr h) := by
  unfold laneOutcome
  exact .trans (.ite (.of_cells (by simp) (by simp)) (.refl _)) (outcomeEffects_tsel ..)
/-- A lane outcome counts at the die and at its core (R150). -/
theorem laneOutcome_here (e : Env) (o : TapOut) (cls : Nat) (pr : Bool) (h : Hub) :
    (laneOutcome e o cls pr h).res = resCount o.res.toNat 1 h.res ∧
    (Sys2Proof.Machine.hubc (laneOutcome e o cls pr h) o.core).outcome = (Sys2Proof.Machine.hubc h o.core).outcome + 1 := by
  have k : ∀ n, (rememberTimeout o.core o.tile n h).res = h.res ∧
      (Sys2Proof.Machine.hubc (rememberTimeout o.core o.tile n h) o.core).outcome = (Sys2Proof.Machine.hubc h o.core).outcome := fun n => by
    unfold rememberTimeout
    split <;> simp
  have q : ∀ K : Hub, K = (if o.res.toNat = 2 then rememberTimeout o.core o.tile (nextRseq h) h else h) → K.res = h.res ∧
      (Sys2Proof.Machine.hubc K o.core).outcome = (Sys2Proof.Machine.hubc h o.core).outcome := by
    rintro K rfl
    split
    · exact k _
    · exact ⟨rfl, rfl⟩
  unfold laneOutcome
  dsimp only
  have z := q _ rfl
  exact ⟨(outcomeEffects_here ..).1.trans (by rw [z.1]), (outcomeEffects_here ..).2.trans (by rw [z.2])⟩

theorem deliverDrops_nil {e : Env} {r : Nat} {h : Hub} (n : (region h r).dropped = []) : deliverDrops e r h = onRegion r (fun y => { y with dropped := [] }) h := by
  unfold deliverDrops
  simp only [n, List.foldl_nil]

end Sys2Proof.Machine
end

