-- ==== Sys2Proof/Laws/Dma.lean ====
section
/-!
SUPPORT. What going on as far as it can leaves to the DMA engine: the settings and pointers of every channel, whether it is stopped, and the
counts of the memory port.
-/
namespace Sys2Proof.Machine

/-- A channel after the engine has gone on: what software set, the pointers of its ring and the pending requests are as before; a channel
without a stop due has not stopped, and one whose descriptor is in progress still has it. -/
structure ChPumped (x y : DmaCh) : Prop where
  set : y.enable = x.enable ∧ y.reqen = x.reqen ∧ y.prio = x.prio ∧ y.rsize = x.rsize ∧ y.cqsize = x.cqsize ∧ y.ring = x.ring ∧ y.cq = x.cq
  ptr : y.tail = x.tail ∧ y.head = x.head ∧ y.cqhead = x.cqhead ∧ y.pend = x.pend ∧ y.burst = x.burst ∧ y.cur = x.cur ∧ y.descs = x.descs ∧ y.moved = x.moved
  runs : x.stopReq = false → y.stopReq = false ∧ (x.state ≠ 2 → x.state ≠ 3 → y.state ≠ 2 ∧ y.state ≠ 3) ∧ (x.state = 2 ∨ x.state = 3 → y.state = x.state)
  busy : dmaBusy x = true → dmaBusy y = true ∧ y.stopReq = x.stopReq

theorem ChPumped.refl (x : DmaCh) : ChPumped x x := ⟨⟨rfl, rfl, rfl, rfl, rfl, rfl, rfl⟩, ⟨rfl, rfl, rfl, rfl, rfl, rfl, rfl, rfl⟩, fun a => ⟨a, fun b c => ⟨b, c⟩, fun _ => rfl⟩, fun a => ⟨a, rfl⟩⟩

theorem ChPumped.trans {x y z : DmaCh} (a : ChPumped x y) (b : ChPumped y z) : ChPumped x z := by
  obtain ⟨⟨a1, a2, a3, a4, a5, a6, a7⟩, ⟨b1, b2, b3, b4, b5, b6, b7, b8⟩, ar, ab⟩ := a
  obtain ⟨⟨c1, c2, c3, c4, c5, c6, c7⟩, ⟨d1, d2, d3, d4, d5, d6, d7, d8⟩, br, bb⟩ := b
  refine ⟨⟨c1.trans a1, c2.trans a2, c3.trans a3, c4.trans a4, c5.trans a5, c6.trans a6, c7.trans a7⟩,
    ⟨d1.trans b1, d2.trans b2, d3.trans b3, d4.trans b4, d5.trans b5, d6.trans b6, d7.trans b7, d8.trans b8⟩, fun q => ?_, fun q => ?_⟩
  · obtain ⟨q1, q2, q3⟩ := ar q
    obtain ⟨r1, r2, r3⟩ := br q1
    refine ⟨r1, fun u v => r2 (q2 u v).1 (q2 u v).2, fun u => ?_⟩
    have := q3 u
    rw [r3 (this ▸ u), this]
  · obtain ⟨q1, q2⟩ := ab q
    obtain ⟨r1, r2⟩ := bb q1
    exact ⟨r1, r2.trans q2⟩

/-- The hub after the engine has gone on. -/
structure Pumped (h k : Hub) : Prop where
  chans : ∀ c, ChPumped (dmaCh h c) (dmaCh k c)
  counts : k.dma.irqstat = h.dma.irqstat ∧ k.dma.align = h.dma.align ∧ k.dma.buserr = h.dma.buserr ∧ k.dma.fetch = h.dma.fetch ∧ k.dma.lostreq = h.dma.lostreq
  port : k.mem.ranges = h.mem.ranges ∧ k.mem.failed = h.mem.failed ∧ k.mem.errTb = h.mem.errTb ∧ k.mem.migrating = h.mem.migrating ∧ k.mem.group = h.mem.group ∧
    k.mem.rekeys = h.mem.rekeys ∧ k.mem.timeouts = h.mem.timeouts ∧ k.mem.rerr = h.mem.rerr ∧ k.mem.berr = h.mem.berr ∧ k.mem.memTimeout = h.mem.memTimeout

theorem Pumped.refl (h : Hub) : Pumped h h := ⟨fun _ => ChPumped.refl _, ⟨rfl, rfl, rfl, rfl, rfl⟩, ⟨rfl, rfl, rfl, rfl, rfl, rfl, rfl, rfl, rfl, rfl⟩⟩

theorem Pumped.trans {h k l : Hub} (a : Pumped h k) (b : Pumped k l) : Pumped h l := by
  obtain ⟨ac, ⟨a1, a2, a3, a4, a5⟩, ⟨p1, p2, p3, p4, p5, p6, p7, p8, p9, p10⟩⟩ := a
  obtain ⟨bc, ⟨b1, b2, b3, b4, b5⟩, ⟨q1, q2, q3, q4, q5, q6, q7, q8, q9, q10⟩⟩ := b
  exact ⟨fun c => (ac c).trans (bc c), ⟨b1.trans a1, b2.trans a2, b3.trans a3, b4.trans a4, b5.trans a5⟩,
    ⟨q1.trans p1, q2.trans p2, q3.trans p3, q4.trans p4, q5.trans p5, q6.trans p6, q7.trans p7, q8.trans p8, q9.trans p9, q10.trans p10⟩⟩

/-- What leaves the engine alone, and the memory port but for its waiting and outstanding accesses. -/
theorem Pumped.of_eq {h k : Hub} (a : k.dma = h.dma) (b : k.mem.ranges = h.mem.ranges ∧ k.mem.failed = h.mem.failed ∧ k.mem.errTb = h.mem.errTb ∧
    k.mem.migrating = h.mem.migrating ∧ k.mem.group = h.mem.group ∧ k.mem.rekeys = h.mem.rekeys ∧ k.mem.timeouts = h.mem.timeouts ∧ k.mem.rerr = h.mem.rerr ∧
    k.mem.berr = h.mem.berr ∧ k.mem.memTimeout = h.mem.memTimeout) : Pumped h k :=
  ⟨fun c => by unfold dmaCh; rw [a]; exact ChPumped.refl _, by rw [a]; exact ⟨rfl, rfl, rfl, rfl, rfl⟩, b⟩

/-- What leaves both alone. -/
theorem Pumped.of_same {h k : Hub} (a : k.dma = h.dma) (b : k.mem = h.mem) : Pumped h k :=
  .of_eq a (by rw [b]; exact ⟨rfl, rfl, rfl, rfl, rfl, rfl, rfl, rfl, rfl, rfl⟩)

/-- What asks the memory port for accesses and leaves the engine alone. -/
theorem Pumped.of_port {h k : Hub} (a : k.dma = h.dma) (b : SamePort h k) : Pumped h k := by
  have q := b.eq
  unfold MemU.port at q
  simp only [Prod.mk.injEq] at q
  exact .of_eq a ⟨q.1, q.2.1, q.2.2.1, q.2.2.2.1, q.2.2.2.2.1, q.2.2.2.2.2.1, q.2.2.2.2.2.2.1, q.2.2.2.2.2.2.2.1, q.2.2.2.2.2.2.2.2.1, q.2.2.2.2.2.2.2.2.2.1⟩

/-- What says which pieces it changes, the engine's not among them. -/
theorem Pumped.of_only {ps : List Piece} {h k : Hub} (a : Only ps h k) (b : SamePort h k) (c : ps.contains .dma = false := by rfl) : Pumped h k :=
  .of_port (a.keep .dma (by simpa using c)) b

theorem dmaCh_onDmaCh (c d : Nat) (f : DmaCh → DmaCh) (h : Hub) : dmaCh (onDmaCh c f h) d = if d = c then f (dmaCh h c) else dmaCh h d := by
  unfold onDmaCh onDma dmaCh Tab.getD
  split
  · rename_i q; rw [q, Tab.find_put_self]; rfl
  · rename_i q; rw [Tab.find_put_ne]; exact q

theorem Pumped.onCh {c : Nat} {f : DmaCh → DmaCh} {h : Hub} (a : ChPumped (dmaCh h c) (f (dmaCh h c))) : Pumped h (onDmaCh c f h) := by
  refine ⟨fun d => ?_, ⟨rfl, rfl, rfl, rfl, rfl⟩, ⟨rfl, rfl, rfl, rfl, rfl, rfl, rfl, rfl, rfl, rfl⟩⟩
  rw [dmaCh_onDmaCh]
  split
  · rename_i q; rw [q]; exact a
  · exact ChPumped.refl _

theorem Pumped.foldl {α : Type} {f : Hub → α → Hub} (a : ∀ h x, Pumped h (f h x)) (l : List α) (h : Hub) : Pumped h (l.foldl f h) := by
  induction l generalizing h with
  | nil => exact .refl _
  | cons x l ih => exact (a h x).trans (ih _)

theorem issueReq_mem {l : List MemWait} {w : MemWait} {h k : Hub} (q : issueReq l w h = .issued k) : Pumped h k := .of_only (issueReq_only q) (issueReq_port q)
theorem decodeError_pumped (e : Env) (h : Hub) : Pumped h (decodeError e h) := .of_only (decodeError_only ..) (decodeError_port ..)
theorem tryAccess_pumped (e : Env) (b : List MemWait) (w : MemWait) (h : Hub) : Pumped h (tryAccess e b w h) := .of_only (tryAccess_only ..) (tryAccess_port ..)
theorem access_pumped (e : Env) (w : MemWait) (h : Hub) : Pumped h (access e w h) := .of_only (access_only ..) (access_port ..)
theorem chargeDecode_pumped (e : Env) (w : MemWait) (h : Hub) : Pumped h (chargeDecode e w h) := .of_only (chargeDecode_only ..) (chargeDecode_port ..)
theorem chargeEnt_pumped (e : Env) (x : Word) (h : Hub) : Pumped h (chargeEnt e x h) := .of_only (chargeEnt_only ..) (chargeEnt_port ..)
theorem rowLines_pumped (e : Env) (a : Nat) (w : Bool) (cl : Client) (bs : List Byte) (h : Hub) : Pumped h (rowLines e a w cl bs h) :=
  .of_only (rowLines_only ..) (rowLines_port ..)
theorem startFill_pumped (e : Env) (x : Word) (h : Hub) : Pumped h (startFill e x h) := .of_only (startFill_only ..) (startFill_port ..)
theorem retryRoom_pumped (e : Env) (h : Hub) : Pumped h (retryRoom e h) := .of_only (retryRoom_only ..) (retryRoom_port ..)
theorem featWrite_pumped (e : Env) (x : Word) (i : Nat) (v : Word) (h : Hub) : Pumped h (featWrite e x i v h) := .of_only (featWrite_only ..) (featWrite_port ..)
theorem dropSample_pumped (e : Env) (q : SampleWait) (h : Hub) : Pumped h (dropSample e q h) := .of_only (dropSample_only ..) (dropSample_port ..)
theorem abandon_pumped (e : Env) (q : AuditReq) (h : Hub) : Pumped h (abandon e q h) := .of_only (abandon_only ..) (abandon_port ..)
theorem clearValid_pumped (e : Env) (c : Nat) (s : BitVec 2) (h : Hub) : Pumped h (clearValid e c s h) :=
  .of_only (clearValid_only ..) (.of (clearValid_only ..) rfl)
theorem onEns_pumped (f : EnsU → EnsU) (h : Hub) : Pumped h (onEns f h) := .of_same rfl rfl
theorem emitUnit_pumped (a0 : Nat) (a1 : Word) (a2 : Nat) (a3 : List Word) (h : Hub) : Pumped h (emitUnit a0 a1 a2 a3 h) := .of_same (by simp) (by simp)

theorem dmaFail_pumped (c off : Nat) (h : Hub) : Pumped h (dmaFail c off h) :=
  .onCh ⟨⟨rfl, rfl, rfl, rfl, rfl, rfl, rfl⟩, ⟨rfl, rfl, rfl, rfl, rfl, rfl, rfl, rfl⟩, fun a => ⟨a, fun b c => ⟨b, c⟩, fun _ => rfl⟩, fun a => ⟨a, rfl⟩⟩

theorem queues_pumped (h : Hub) : Pumped h (onMem (fun m => { m with errq := [] }) h) := .of_eq rfl ⟨rfl, rfl, rfl, rfl, rfl, rfl, rfl, rfl, rfl, rfl⟩

theorem clientError_pumped (e : Env) (w : MemWait) (h : Hub) : Pumped h (clientError e w h) := by
  unfold clientError
  split
  · dsimp only
    split
    · refine Pumped.trans ?_ (retryRoom_pumped ..)
      refine Pumped.trans ?_ (onEns_pumped _ _)
      refine Pumped.trans ?_ (Pumped.foldl (fun h q => dropSample_pumped e q h) _ _)
      exact (emitUnit_pumped ..).trans (onEns_pumped ..)
    · exact .refl _
  · split
    · exact .of_eq rfl ⟨rfl, rfl, rfl, rfl, rfl, rfl, rfl, rfl, rfl, rfl⟩
    · split
      · exact (emitUnit_pumped ..).trans ((onEns_pumped ..).trans (retryRoom_pumped ..))
      · exact .refl _
  · split
    · refine Pumped.trans ?_ (clearValid_pumped ..)
      refine Pumped.trans ?_ (abandon_pumped ..)
      exact .of_same rfl rfl
    · exact .refl _
  · exact dmaFail_pumped ..
  · exact dmaFail_pumped ..
  · exact emitUnit_pumped ..
  · exact .onCh ⟨⟨rfl, rfl, rfl, rfl, rfl, rfl, rfl⟩, ⟨rfl, rfl, rfl, rfl, rfl, rfl, rfl, rfl⟩, fun a => ⟨a, fun b c => ⟨b, c⟩, fun _ => rfl⟩, fun a => ⟨by simp [dmaBusy], rfl⟩⟩
  · exact emitUnit_pumped ..
  · exact .of_eq rfl ⟨rfl, rfl, rfl, rfl, rfl, rfl, rfl, rfl, rfl, rfl⟩

theorem pumpPort_pumped (e : Env) (n : Nat) (h : Hub) : Pumped h (pumpPort e n h) := by
  induction n generalizing h with
  | zero => exact .refl _
  | succ n ih =>
    unfold pumpPort
    split
    · exact .refl _
    · refine Pumped.trans ?_ (ih _)
      refine Pumped.trans ?_ (tryAccess_pumped ..)
      exact .of_eq rfl ⟨rfl, rfl, rfl, rfl, rfl, rfl, rfl, rfl, rfl, rfl⟩

theorem memPump_pumped (e : Env) (h : Hub) : Pumped h (memPump e h) := by
  unfold memPump
  dsimp only
  refine Pumped.trans ?_ (Pumped.foldl (fun h w => (chargeDecode_pumped e w h).trans (clientError_pumped e w _)) _ _)
  exact (pumpPort_pumped ..).trans (queues_pumped ..)

theorem putRecord_pumped (e : Env) (c : Nat) (u : DWord) (b : Nat) (t : BitVec 16) (s : Nat) (f i : Bool) (h : Hub) : Pumped h (putRecord e c u b t s f i h) :=
  (Pumped.onCh (c := c) (f := fun x => { x with cqtail := (x.cqtail + 1) % 2 ^ 17, last := BitVec.ofNat 4 s })
    ⟨⟨rfl, rfl, rfl, rfl, rfl, rfl, rfl⟩, ⟨rfl, rfl, rfl, rfl, rfl, rfl, rfl, rfl⟩, fun a => ⟨a, fun b c => ⟨b, c⟩, fun _ => rfl⟩, fun a => ⟨a, rfl⟩⟩).trans (access_pumped ..)

theorem settleStop_pumped (e : Env) (c : Nat) (h : Hub) : Pumped h (settleStop e c h) := by
  unfold settleStop
  dsimp only
  split
  · exact .refl _
  · rename_i q
    simp only [Bool.or_eq_true, Bool.not_eq_true', not_or, Bool.not_eq_false, Bool.not_eq_true] at q
    have stop : ∀ (k : Hub), (dmaCh k c).stopReq = true → dmaBusy (dmaCh k c) = false → ∀ st b, Pumped k (onDmaCh c (fun x => { x with stopReq := b, state := st }) k) :=
      fun k a b st bb => .onCh ⟨⟨rfl, rfl, rfl, rfl, rfl, rfl, rfl⟩, ⟨rfl, rfl, rfl, rfl, rfl, rfl, rfl, rfl⟩, fun z => by simp [a] at z, fun z => by simp [b] at z⟩
    split
    · exact stop h q.1.1 q.1.2 _ _
    · split
      · have p := putRecord_pumped e c 0 0 0 4 false false h
        have s' : (dmaCh (putRecord e c 0 0 0 4 false false h) c).stopReq = true ∧ dmaBusy (dmaCh (putRecord e c 0 0 0 4 false false h) c) = false := by
          unfold putRecord
          have a : ∀ w k, dmaCh (access e w k) c = dmaCh k c := fun w k => by unfold dmaCh; simp only [access_keeps]
          rw [a, dmaCh_onDmaCh, if_pos rfl]
          exact q.1
        exact p.trans (stop _ s'.1 s'.2 _ _)
      · exact .onCh ⟨⟨rfl, rfl, rfl, rfl, rfl, rfl, rfl⟩, ⟨rfl, rfl, rfl, rfl, rfl, rfl, rfl, rfl⟩, fun z => by simp [q.1.1] at z, fun z => by simp [q.1.2] at z⟩

theorem kick_pumped (e : Env) (c : Nat) (h : Hub) : Pumped h (kick e c h) := by
  unfold kick
  dsimp only
  split
  · exact .refl _
  · rename_i q
    simp only [Bool.or_eq_true, Bool.not_eq_true', not_or, decide_eq_true_eq, Bool.not_eq_false, Bool.not_eq_true] at q
    obtain ⟨⟨⟨⟨⟨_, _⟩, q3⟩, q4⟩, q5⟩, q6⟩ := q
    have f : ∀ (fe : DmaCh → Bool) (st : BitVec 4), (st = 0 ∨ st = 1 ∨ st = 4) → Pumped h (onDmaCh c (fun x => { x with fetching := fe x, state := st }) h) := fun fe st v =>
      .onCh ⟨⟨rfl, rfl, rfl, rfl, rfl, rfl, rfl⟩, ⟨rfl, rfl, rfl, rfl, rfl, rfl, rfl, rfl⟩, fun a => ⟨a, fun _ _ => (by rcases v with v | v | v <;> rw [v] <;> decide : st ≠ 2 ∧ st ≠ 3),
        fun u => absurd u (not_or.mpr ⟨q4, q5⟩)⟩, fun z => by simp [q6] at z⟩
    split
    · cases b : (dmaCh h c).burst
      · have := f (fun x => x.fetching) 0 (by simp)
        unfold onDmaCh at this ⊢
        simpa [b] using this
      · have := f (fun x => x.fetching) 1 (by simp)
        unfold onDmaCh at this ⊢
        simpa [b] using this
    · split
      · exact f (fun x => x.fetching) 4 (by simp)
      · exact (f (fun _ => true) 1 (by simp)).trans (access_pumped ..)

theorem issueLines_pumped (e : Env) (n : Nat) (h : Hub) : Pumped h (issueLines e n h) := by
  induction n generalizing h with
  | zero => exact .refl _
  | succ n ih =>
    unfold issueLines
    split
    · exact .refl _
    · rename_i c _
      dsimp only
      split
      · exact .refl _
      · have a : Pumped h (onDma (fun u => { u with turn := some c, lastTurn := c }) h) :=
          ⟨fun _ => ChPumped.refl _, ⟨rfl, rfl, rfl, rfl, rfl⟩, ⟨rfl, rfl, rfl, rfl, rfl, rfl, rfl, rfl, rfl, rfl⟩⟩
        split
        · exact a.trans ((issueReq_mem (by assumption)).trans ((Pumped.onCh ⟨⟨rfl, rfl, rfl, rfl, rfl, rfl, rfl⟩, ⟨rfl, rfl, rfl, rfl, rfl, rfl, rfl, rfl⟩,
            fun a => ⟨a, fun b c => ⟨b, c⟩, fun _ => rfl⟩, fun a => ⟨a, rfl⟩⟩).trans (ih _)))
        · exact a
        · exact a.trans ((dmaFail_pumped ..).trans (ih _))
        · exact a.trans ((decodeError_pumped ..).trans ((chargeEnt_pumped ..).trans ((dmaFail_pumped ..).trans (ih _))))

/-- One channel's turn. -/
theorem turn_pumped (e : Env) (c : Nat) (h : Hub) : Pumped h (kick e c (settleStop e c h)) :=
  Pumped.trans (settleStop_pumped e c h) (kick_pumped e c (settleStop e c h))

/-- What the engine leaves as it was when it goes on as far as it can. -/
theorem dmaPump_pumped (e : Env) (h : Hub) : Pumped h (dmaPump e h) := by
  unfold dmaPump
  dsimp only
  split
  · exact memPump_pumped ..
  · refine Pumped.trans ?_ (issueLines_pumped ..)
    refine Pumped.trans (memPump_pumped e h) ?_
    generalize memPump e h = k
    generalize k.dma.ch = l
    have f : ∀ (h : Hub) (p : Nat × DmaCh), Pumped h ((fun (h : Hub) (p : Nat × DmaCh) => kick e p.1 (settleStop e p.1 h)) h p) := fun h p => turn_pumped e p.1 h
    exact Pumped.foldl f l k

/-! The memory port's counts. -/

/-- What a change to FAILED or another error adds at the memory port leaves its counts. -/
theorem memFeature_counts (e : Env) (att : Nat) (h : Hub) : (memFeature e att h).dma = h.dma ∧ (memFeature e att h).mem.timeouts = h.mem.timeouts ∧
    (memFeature e att h).mem.rerr = h.mem.rerr ∧ (memFeature e att h).mem.berr = h.mem.berr := by
  unfold memFeature
  dsimp only
  have p := featWrite_pumped e (ownId e h 7 att) (imgOf h).features.memErr (int32f (Tab.getD h.mem.errCount att 0 + 1))
    (onMem (fun m => { m with errCount := Tab.put m.errCount att (Tab.getD h.mem.errCount att 0 + 1) }) h)
  exact ⟨(featWrite_only ..).keep .dma (by decide), p.port.2.2.2.2.2.2.1, p.port.2.2.2.2.2.2.2.1, p.port.2.2.2.2.2.2.2.2.1⟩

/-- A memory error counts once, as what it is. -/
theorem memError_counts (e : Env) (att : Nat) (h : Hub) : (memError e att .timeout h).mem.timeouts = h.mem.timeouts + 1 ∧
    (memError e att .read h).mem.rerr = h.mem.rerr + 1 ∧ (memError e att .write h).dma.irqstat = h.dma.irqstat ∧ (memError e att .write h).mem.berr = h.mem.berr + 1 := by
  refine ⟨?_, ?_, ?_, ?_⟩ <;> unfold memError <;> dsimp only <;> split <;> simp [memFeature_counts, onMem]

/-- Asking for a group's first line leaves what the port is set to and has counted. -/
theorem beginGroup_port (e : Env) (r : Nat) (h : Hub) : (beginGroup e r h).mem.ranges = h.mem.ranges ∧ (beginGroup e r h).mem.migrating = h.mem.migrating ∧
    (beginGroup e r h).mem.rekeys = h.mem.rekeys ∧ (beginGroup e r h).mem.paused = h.mem.paused := by
  unfold beginGroup
  split
  · exact ⟨rfl, rfl, rfl, rfl⟩
  · next m _ =>
    have q := (access_port e { addr := m.r.base + m.pointer * m.r.n * 64, write := false, client := .migration, cost := 128 * m.r.n }
      (onMem (fun u => { u with group := true }) h)).eq
    unfold MemU.port at q
    simp only [Prod.mk.injEq] at q
    exact ⟨q.1, q.2.2.2.1, q.2.2.2.2.2.1, q.2.2.2.2.2.2.2.2.2.2⟩

/-- A group of a mapped range is under way once it has begun. -/
theorem beginGroup_starts {e : Env} {r : Nat} {m : MapRange} {h : Hub} (a : mapRange h r = some m) : (beginGroup e r h).mem.group = true := by
  unfold beginGroup
  simp only [a]
  have q := (access_port e { addr := m.r.base + m.pointer * m.r.n * 64, write := false, client := .migration, cost := 128 * m.r.n }
    (onMem (fun u => { u with group := true }) h)).eq
  unfold MemU.port at q
  simp only [Prod.mk.injEq] at q
  exact q.2.2.2.2.1

theorem mapRange_onRange {r : Nat} {m : MapRange} (f : MapRange → MapRange) {h : Hub} (a : mapRange h r = some m) : mapRange (onRange r f h) r = some (f m) := by
  unfold onRange
  rw [a]
  have l : r < h.mem.ranges.length := by
    by_contra n
    simp [mapRange, List.getElem?_eq_none (Nat.not_lt.mp n)] at a
  have e : (setAt h.mem.ranges r (f m))[r]? = some (f m) := by rw [getElem?_setAt]; simp [l]
  exact e

/-- What a range is follows from the list of ranges. -/
theorem mapRange_congr {h k : Hub} (a : k.mem.ranges = h.mem.ranges) (r : Nat) : mapRange k r = mapRange h r := by unfold mapRange; rw [a]

@[simp] theorem mapRange_clean (h : Hub) (r : Nat) : mapRange h.clean r = mapRange h r := rfl

/-! Memory that an answer writes. -/

theorem settleStop_posted (e : Env) (c : Nat) (h : Hub) : (settleStop e c h).posted = h.posted := (settleStop_only ..).keep .ram (by decide)
theorem kick_posted (e : Env) (c : Nat) (h : Hub) : (kick e c h).posted = h.posted := (kick_only ..).keep .ram (by decide)
theorem issueLines_posted (e : Env) (n : Nat) (h : Hub) : (issueLines e n h).posted = h.posted := (issueLines_only ..).keep .ram (by decide)

/-- With no access waiting and no client to tell, going on writes no memory. -/
theorem dmaPump_posted (e : Env) {h : Hub} (a : h.mem.waitq = []) (b : h.mem.errq = []) : (dmaPump e h).posted = h.posted := by
  have m : (memPump e h).posted = h.posted := by
    unfold memPump
    rw [a]
    show (List.foldl _ (onMem (fun m => { m with errq := [] }) h) h.mem.errq).posted = _
    rw [b]
    rfl
  unfold dmaPump
  dsimp only
  split
  · exact m
  · rw [issueLines_posted]
    generalize memPump e h = k at m ⊢
    generalize k.dma.ch = l
    have f : ∀ (l : List (Nat × DmaCh)) k, (List.foldl (fun (h : Hub) (p : Nat × DmaCh) => kick e p.1 (settleStop e p.1 h)) k l).posted = k.posted := by
      intro l
      induction l with
      | nil => exact fun _ => rfl
      | cons x l ih => exact fun k => (ih _).trans ((kick_posted ..).trans (settleStop_posted ..))
    exact (f l k).trans m

/-- The memory behind the port after a meaning. -/
theorem State.settle_ram (s : State) (h : Hub) : (s.settle h).mem = Mem.apply Mem.ramByte s.mem h.posted := rfl

end Sys2Proof.Machine
end

