-- ==== Sys2Proof/Laws/Mgt.lean ====
section
/-!
SUPPORT. What the operations of the management port do, one lemma an operation.
-/
namespace Sys2Proof.Machine

@[simp] theorem seg_onSeg (b : Bool) (f : Segment → Segment) (h : Hub) : seg (onSeg b f h) b = f (seg h b) := by cases b <;> rfl
@[simp] theorem seg_onSeg_other (b : Bool) (f : Segment → Segment) (h : Hub) : seg (onSeg (!b) f h) b = seg h b := by cases b <;> rfl
@[simp] theorem seg_onSeg_other' (b : Bool) (f : Segment → Segment) (h : Hub) : seg (onSeg b f h) (!b) = seg h (!b) := by cases b <;> rfl
theorem seg_of_mgt {h k : Hub} (e : k.mgt = h.mgt) (b : Bool) : seg k b = seg h b := by unfold seg; rw [e]

theorem emitState_mgt (a : Nat) (l : List Word) (h : Hub) : (emitState a l h).mgt = h.mgt := by simp

/-- The two segments apart, the port. -/
def rest (m : Mgt) : Mgt := { m with a := {}, b := {} }
theorem onSeg_rest (b : Bool) (f : Segment → Segment) (h : Hub) : rest (onSeg b f h).mgt = rest h.mgt := by cases b <;> rfl
theorem onSeg_mgt_active (b : Bool) (f : Segment → Segment) (h : Hub) : (onSeg b f h).mgt.active = h.mgt.active := by cases b <;> rfl

/-- What is of no segment stays as it was. -/
@[simp] theorem onSeg_mgt (b : Bool) (f : Segment → Segment) (h : Hub) :
    (onSeg b f h).mgt.active = h.mgt.active ∧ (onSeg b f h).mgt.portcfg = h.mgt.portcfg ∧ (onSeg b f h).mgt.gclCtrl = h.mgt.gclCtrl ∧ (onSeg b f h).mgt.gclBase = h.mgt.gclBase ∧ (onSeg b f h).mgt.gclCycle = h.mgt.gclCycle ∧ (onSeg b f h).mgt.gclE = h.mgt.gclE ∧ (onSeg b f h).mgt.oper = h.mgt.oper ∧ (onSeg b f h).mgt.pending = h.mgt.pending ∧ (onSeg b f h).mgt.gateIdx = h.mgt.gateIdx ∧
    (onSeg b f h).mgt.shapers = h.mgt.shapers ∧ (onSeg b f h).mgt.meters = h.mgt.meters ∧ (onSeg b f h).mgt.ingress = h.mgt.ingress ∧ (onSeg b f h).mgt.master = h.mgt.master ∧ (onSeg b f h).mgt.announces = h.mgt.announces ∧
    (onSeg b f h).mgt.accept = h.mgt.accept ∧ (onSeg b f h).mgt.stranger = h.mgt.stranger ∧ (onSeg b f h).mgt.fcs = h.mgt.fcs ∧ (onSeg b f h).mgt.size = h.mgt.size ∧ (onSeg b f h).mgt.metered = h.mgt.metered ∧ (onSeg b f h).mgt.coloured = h.mgt.coloured ∧ (onSeg b f h).mgt.full = h.mgt.full ∧ (onSeg b f h).mgt.authfail = h.mgt.authfail ∧ (onSeg b f h).mgt.replay = h.mgt.replay ∧ (onSeg b f h).mgt.ok = h.mgt.ok ∧
    (onSeg b f h).mgt.overrun = h.mgt.overrun ∧ (onSeg b f h).mgt.toolong = h.mgt.toolong ∧ (onSeg b f h).mgt.excess = h.mgt.excess ∧ (onSeg b f h).mgt.plcacol = h.mgt.plcacol ∧ (onSeg b f h).mgt.switches = h.mgt.switches ∧ (onSeg b f h).mgt.beacon = h.mgt.beacon ∧ (onSeg b f h).mgt.pdelayBad = h.mgt.pdelayBad ∧ (onSeg b f h).mgt.annto = h.mgt.annto ∧ (onSeg b f h).mgt.dropped = h.mgt.dropped ∧ (onSeg b f h).mgt.pdelayInt = h.mgt.pdelayInt := by
  cases b <;> exact ⟨rfl, rfl, rfl, rfl, rfl, rfl, rfl, rfl, rfl, rfl, rfl, rfl, rfl, rfl, rfl, rfl, rfl, rfl, rfl, rfl, rfl, rfl, rfl, rfl, rfl, rfl, rfl, rfl, rfl, rfl, rfl, rfl, rfl, rfl⟩

/-- A change of the port apart from its segments. -/
@[simp] theorem seg_onMgt {f : Mgt → Mgt} (k : ∀ m, (f m).a = m.a) (l : ∀ m, (f m).b = m.b) (h : Hub) (b : Bool) : seg (onMgt f h) b = seg h b := by
  cases b
  · exact k _
  · exact l _

/-- A segment but for its waiting frames. -/
def bare (s : Segment) : Segment := { s with queues := [] }

theorem moveFrames_bare (x y : Bool) (h : Hub) (b : Bool) : bare (seg (moveFrames x y h) b) = bare (seg h b) := by
  cases x <;> cases y <;> cases b <;> rfl

theorem switchTo_bare (b f : Bool) (h : Hub) (c : Bool) : bare (seg (switchTo b f h) c) = bare (seg h c) := by
  unfold switchTo
  dsimp only
  have k : bare (seg (emitState 8 [w32 (b2n !b), w32 (b2n b)] (onMgt (fun m => { m with active := b }) (moveFrames (!b) b h))) c) = bare (seg h c) := by
    rw [seg_of_mgt (h := onMgt (fun m => { m with active := b }) (moveFrames (!b) b h)) (by simp) c]
    exact moveFrames_bare ..
  split
  · rw [seg_of_mgt (h := emitState 8 [w32 (b2n !b), w32 (b2n b)] (onMgt (fun m => { m with active := b }) (moveFrames (!b) b h))) (by simp) c]
    exact k
  · exact k

theorem switchTo_active (b f : Bool) (h : Hub) : (switchTo b f h).mgt.active = b := by
  unfold switchTo
  dsimp only
  split <;> simp [onMgt]

/-- A failover, if any, changes a segment's waiting frames only. -/
theorem checkActive_bare (h : Hub) (b : Bool) : bare (seg (checkActive h) b) = bare (seg h b) := by
  unfold checkActive
  split
  · exact switchTo_bare ..
  · rfl

/-- A segment that changes state. -/
theorem setSeg_bare (b : Bool) {st : Nat} {h : Hub} (n : (seg h b).state.toNat ≠ st) : bare (seg (setSeg b st h) b) =
    bare { seg h b with state := BitVec.ofNat 2 st, upSince := if st = 2 then nowNs h else (seg h b).upSince, dad := if st = 2 then (seg h b).dad else none } := by
  unfold setSeg
  simp only [n, if_false]
  rw [checkActive_bare]
  exact congrArg bare ((seg_of_mgt (emitState_mgt _ _ _) b).trans (seg_onSeg ..))

/-- The state a segment is put in is the one it has. -/
theorem setSeg_state (b : Bool) (st : Nat) (h : Hub) (l : st < 4) : (seg (setSeg b st h) b).state = BitVec.ofNat 2 st := by
  by_cases n : (seg h b).state.toNat = st
  · unfold setSeg
    simp only [n, if_true]
    apply BitVec.eq_of_toNat_eq
    rw [n, BitVec.toNat_ofNat, Nat.mod_eq_of_lt l]
  · have := congrArg Segment.state (setSeg_bare b n)
    exact this

@[simp] theorem takeIngress_seg (b : Bool) (p : EthFrame → Bool) (h : Hub) (c : Bool) : seg (takeIngress b p h) c = seg h c := by
  unfold takeIngress
  split <;> cases c <;> rfl

/-- A frame taken out of the ingress buffer changes the buffer only. -/
theorem takeIngress_mgt (b : Bool) (p : EthFrame → Bool) (h : Hub) : { (takeIngress b p h).mgt with ingress := [] } = { h.mgt with ingress := [] } := by
  unfold takeIngress
  split <;> rfl

theorem takeIngress_hub (b : Bool) (p : EthFrame → Bool) (h : Hub) : { takeIngress b p h with mgt := {} } = { h with mgt := {} } := by
  unfold takeIngress
  split <;> rfl

/-- The selection leaves the best of the masters whose announcements are not overdue. -/
theorem reselect_mgt (h : Hub) : (reselect h).mgt.announces = h.mgt.announces.filter (fun a => decide (nowNs h < a.last + 3 * a.interval)) ∧
    (reselect h).mgt.master = bestMaster h.mgt.active (h.mgt.announces.filter (fun a => decide (nowNs h < a.last + 3 * a.interval))) ∧
    (reselect h).mgt.annto = h.mgt.annto := by
  unfold reselect
  dsimp only
  split
  · exact ⟨rfl, rfl, rfl⟩
  · have k : ∀ w, (emitState 7 w (onMgt (fun m => { m with switches := m.switches + 1 }) (selectMaster h))).mgt = { (selectMaster h).mgt with switches := (selectMaster h).mgt.switches + 1 } :=
      fun w => by simp [onMgt]
    split
    · split <;> (rw [k]; exact ⟨rfl, rfl, rfl⟩)
    · split <;> (rw [k]; exact ⟨rfl, rfl, rfl⟩)

/-- A shaper takes a value whose RATE and BURST are in their ranges; the other registers stay. -/
theorem writeShaper_takes {c : Nat} {p : Part} {v : DWord} {h : Hub} (a : bitsOf (mergePart p (getAt h.mgt.shapers c 0) v &&& 0xFFFF00003FFF).toNat 13 0 ≤ 10000)
    (b : 64 ≤ bitsOf (mergePart p (getAt h.mgt.shapers c 0) v &&& 0xFFFF00003FFF).toNat 47 32) :
    (writeShaper c p v h).mgt.shapers = setAt h.mgt.shapers c (mergePart p (getAt h.mgt.shapers c 0) v &&& 0xFFFF00003FFF) := by
  unfold writeShaper
  dsimp only
  rw [if_neg (by omega)]
  rfl

theorem writeShaper_refuses {c : Nat} {p : Part} {v : DWord} {h : Hub} (a : 10000 < bitsOf (mergePart p (getAt h.mgt.shapers c 0) v &&& 0xFFFF00003FFF).toNat 13 0) :
    (writeShaper c p v h).mgt = h.mgt := by
  unfold writeShaper
  dsimp only
  rw [if_pos (Or.inl a)]
  exact (refusedWrite_only ..).keep .mgt (by decide)

/-- A meter takes a value with CIR up to PIR and buckets of at least 64 bytes, and fills both. -/
theorem writeMeter_takes {c : Nat} {p : Part} {v : DWord} {h : Hub} (a : bitsOf (mergePart p (getAt h.mgt.meters c {}).cfg v).toNat 15 0 ≤ bitsOf (mergePart p (getAt h.mgt.meters c {}).cfg v).toNat 31 16)
    (b : 64 ≤ bitsOf (mergePart p (getAt h.mgt.meters c {}).cfg v).toNat 47 32) (d : 64 ≤ bitsOf (mergePart p (getAt h.mgt.meters c {}).cfg v).toNat 63 48) :
    (writeMeter c p v h).mgt = { h.mgt with meters := setAt h.mgt.meters c {
      cfg := mergePart p (getAt h.mgt.meters c {}).cfg v, c := bitsOf (mergePart p (getAt h.mgt.meters c {}).cfg v).toNat 47 32 * 1024
      p := bitsOf (mergePart p (getAt h.mgt.meters c {}).cfg v).toNat 63 48 * 1024, filled := nowNs h } } := by
  unfold writeMeter
  dsimp only
  rw [if_neg]
  · rfl
  · simp only [Bool.or_eq_true, Bool.and_eq_true, decide_eq_true_eq]
    omega

theorem writeMeter_refuses {c : Nat} {p : Part} {v : DWord} {h : Hub} (a : bitsOf (mergePart p (getAt h.mgt.meters c {}).cfg v).toNat 31 16 < bitsOf (mergePart p (getAt h.mgt.meters c {}).cfg v).toNat 15 0) :
    (writeMeter c p v h).mgt = h.mgt := by
  unfold writeMeter
  dsimp only
  rw [if_pos (Or.inl a)]
  exact (refusedWrite_only ..).keep .mgt (by decide)

/-- The settings of a segment, written, before its ENABLE bit has its effect. -/
def settle2 (b : Bool) (new old : DWord) (h : Hub) : Hub :=
  let h := onSeg b (fun s => { s with cfg := new }) h
  if plcaFields new = plcaFields old then h
  else if (seg h b).offered.isSome then onSeg b (fun s => { s with restart := true }) h else plcaStart b h

theorem settle2_seg (b : Bool) (new old : DWord) (h : Hub) : (seg (settle2 b new old h) b).cfg = new ∧ (seg (settle2 b new old h) b).state = (seg h b).state ∧
    nowNs (settle2 b new old h) = nowNs h := by
  unfold settle2 plcaStart
  dsimp only
  split
  · rw [seg_onSeg]; exact ⟨rfl, rfl, by cases b <;> rfl⟩
  · split <;> (rw [seg_onSeg, seg_onSeg]; exact ⟨rfl, rfl, by cases b <;> rfl⟩)

/-- A write of a segment's settings that is in range (R417–R419). -/
theorem writeSegcfg_takes {b : Bool} {p : Part} {v : DWord} {h : Hub} (a : segcfgOk p (mergePart p (seg h b).cfg v &&& 0xFFFFFFFFFFFFF) = true) :
    writeSegcfg b p v h =
      (let new := mergePart p (seg h b).cfg v &&& 0xFFFFFFFFFFFFF
       let k := settle2 b new (seg h b).cfg h
       match p with
       | .low => k
       | _ => if !new.getLsbD 51 then setSeg b 0 k else if (seg k b).state = 0 ∨ (seg k b).conflict = true then enableSeg b k else k) := by
  unfold writeSegcfg
  dsimp only
  rw [a, if_neg (by decide)]
  cases p <;> rfl

/-- The low half alone changes the settings and not the state. -/
theorem writeSegcfg_low {b : Bool} {v : DWord} {h : Hub} (a : segcfgOk .low (mergePart .low (seg h b).cfg v &&& 0xFFFFFFFFFFFFF) = true) :
    (seg (writeSegcfg b .low v h) b).cfg = mergePart .low (seg h b).cfg v &&& 0xFFFFFFFFFFFFF ∧ (seg (writeSegcfg b .low v h) b).state = (seg h b).state := by
  rw [writeSegcfg_takes a]
  exact ⟨(settle2_seg ..).1, (settle2_seg ..).2.1⟩

/-- With ENABLE 0 the segment is DISABLED. -/
theorem writeSegcfg_off {b : Bool} {v : DWord} {h : Hub} (a : segcfgOk .whole (v &&& 0xFFFFFFFFFFFFF) = true) (f : (v &&& 0xFFFFFFFFFFFFF).getLsbD 51 = false) :
    (seg (writeSegcfg b .whole v h) b).cfg = v &&& 0xFFFFFFFFFFFFF ∧ (seg (writeSegcfg b .whole v h) b).state = 0 := by
  rw [writeSegcfg_takes (p := .whole) a]
  simp only [mergePart, f, Bool.not_false, if_true]
  have kc := (settle2_seg b (v &&& 0xFFFFFFFFFFFFF) (seg h b).cfg h).1
  generalize settle2 b (v &&& 0xFFFFFFFFFFFFF) (seg h b).cfg h = k at kc ⊢
  refine ⟨?_, setSeg_state b 0 _ (by decide)⟩
  by_cases n : (seg k b).state.toNat = 0
  · unfold setSeg
    simp only [n, if_true]
    exact kc
  · exact (congrArg Segment.cfg (setSeg_bare b n)).trans kc

/-- A DISABLED segment that is enabled goes DOWN, its inputs ignored for 10 ms. -/
theorem writeSegcfg_on {b : Bool} {v : DWord} {h : Hub} (a : segcfgOk .whole (v &&& 0xFFFFFFFFFFFFF) = true) (f : (v &&& 0xFFFFFFFFFFFFF).getLsbD 51 = true)
    (g : (seg h b).state = 0) : (seg (writeSegcfg b .whole v h) b).cfg = v &&& 0xFFFFFFFFFFFFF ∧ (seg (writeSegcfg b .whole v h) b).state = 1 ∧
      (seg (writeSegcfg b .whole v h) b).holdoff = some (nowNs h + 10000000) := by
  rw [writeSegcfg_takes (p := .whole) a]
  dsimp only [mergePart]
  rw [f, if_neg (by decide)]
  have kc := settle2_seg b (v &&& 0xFFFFFFFFFFFFF) (seg h b).cfg h
  rw [if_pos (Or.inl (kc.2.1.trans g))]
  generalize settle2 b (v &&& 0xFFFFFFFFFFFFF) (seg h b).cfg h = k at kc ⊢
  obtain ⟨k1, k2, k3⟩ := kc
  rw [g] at k2
  simp only [enableSeg]
  have n : (seg (onSeg b (fun s => { s with holdoff := some (nowNs k + 10000000), conflict := false, link := false, lastFrame := none }) k) b).state.toNat ≠ 1 := by
    rw [seg_onSeg]
    show (seg k b).state.toNat ≠ 1
    rw [k2]
    decide
  have q1 := setSeg_bare b n
  rw [seg_onSeg] at q1
  refine ⟨(congrArg Segment.cfg q1).trans k1, congrArg Segment.state q1, (congrArg Segment.holdoff q1).trans ?_⟩
  show some (nowNs k + 10000000) = _
  rw [k3]

end Sys2Proof.Machine
end

