-- ==== Sys2Proof/Laws/Trc.lean ====
section
/-!
SUPPORT. What packets and blocks leave of the trace unit's settings and trigger, and a received fabric packet that is in order.
-/
namespace Sys2Proof.Machine

/-- The trigger's part of the trace unit, which packets and blocks leave alone. -/
def trigPart (t : Trc) : Bool × Nat × Nat × Nat × Sink × Bool := (t.armed, t.trigOut, t.ignored, t.sink, t.erg, t.rdy)

theorem putBytes_set (bs : List Byte) (t : Trc) : (putBytes bs t).set = t.set ∧ (putBytes bs t).next = t.next ∧ (putBytes bs t).capturing = t.capturing ∧
    trigPart (putBytes bs t) = trigPart t ∧ (putBytes bs t).bseq = t.bseq := ⟨rfl, rfl, rfl, rfl, rfl⟩

theorem putSeif_set (e : Env) (h : Hub) : (putSeif e h).trc.set = h.trc.set ∧ (putSeif e h).trc.next = h.trc.next ∧
    (putSeif e h).trc.capturing = h.trc.capturing ∧ trigPart (putSeif e h).trc = trigPart h.trc ∧ (putSeif e h).trc.bseq = h.trc.bseq := ⟨rfl, rfl, rfl, rfl, rfl⟩

theorem putTimed_set (e : Env) (a b c d : Nat) (l : List Byte) (h : Hub) : (putTimed e a b c d l h).trc.set = h.trc.set ∧
    (putTimed e a b c d l h).trc.next = h.trc.next ∧ (putTimed e a b c d l h).trc.capturing = h.trc.capturing ∧
    trigPart (putTimed e a b c d l h).trc = trigPart h.trc ∧ (putTimed e a b c d l h).trc.bseq = h.trc.bseq := by
  have ite : ∀ (p : Prop) [Decidable p] (k : Hub), ∀ x, x = (if p then putSeif e k else k) → x.trc.set = k.trc.set ∧ x.trc.next = k.trc.next ∧
      x.trc.capturing = k.trc.capturing ∧ trigPart x.trc = trigPart k.trc ∧ x.trc.bseq = k.trc.bseq := by
    intro p _ k x z
    subst z
    split <;> exact ⟨rfl, rfl, rfl, rfl, rfl⟩
  unfold putTimed
  dsimp only
  obtain ⟨p1, p2, p3, p4, p5⟩ := ite ((h.trc.seifDue || decide (((d : Int) - (h.trc.lastTb : Int)).natAbs > 2 ^ 34 - 1)) = true) h _ rfl
  generalize (if (h.trc.seifDue || decide (((d : Int) - (h.trc.lastTb : Int)).natAbs > 2 ^ 34 - 1)) = true then putSeif e h else h) = k at p1 p2 p3 p4 p5 ⊢
  obtain ⟨q1, q2, q3, q4, q5⟩ := ite (k.trc.seifDue = true) k _ rfl
  generalize (if k.trc.seifDue = true then putSeif e k else k) = l at q1 q2 q3 q4 q5 ⊢
  exact ⟨q1.trans p1, q2.trans p2, q3.trans p3, q4.trans p4, q5.trans p5⟩

theorem startBlock_set (e : Env) (h : Hub) : (startBlock e h).trc.set = h.trc.set ∧ (startBlock e h).trc.next = h.trc.next ∧
    (startBlock e h).trc.capturing = h.trc.capturing ∧ trigPart (startBlock e h).trc = trigPart h.trc ∧ (startBlock e h).trc.bseq = h.trc.bseq := by
  unfold startBlock
  split
  · exact ⟨rfl, rfl, rfl, rfl, rfl⟩
  · dsimp only
    split
    · exact ⟨rfl, rfl, rfl, rfl, rfl⟩
    · obtain ⟨a, b, c, d, f⟩ := putTimed_set e 3 2 (srcOf 4 0) (nowNs (putSeif e (onTrc (fun t => { t with curTb := nowNs h, absDone := [], curPkts := 0 }) h)))
        (leb 7 (putSeif e (onTrc (fun t => { t with curTb := nowNs h, absDone := [], curPkts := 0 }) h)).trc.sinkDue)
        (onTrc (fun t => { t with sinkDue := 0 }) (putSeif e (onTrc (fun t => { t with curTb := nowNs h, absDone := [], curPkts := 0 }) h)))
      exact ⟨a, b, c, d, f⟩

theorem putFree_set (e : Env) (a b c d : Nat) (l : List Byte) (h : Hub) : (putFree e a b c d l h).trc.set = h.trc.set ∧
    (putFree e a b c d l h).trc.next = h.trc.next ∧ (putFree e a b c d l h).trc.capturing = h.trc.capturing ∧
    trigPart (putFree e a b c d l h).trc = trigPart h.trc ∧ (putFree e a b c d l h).trc.bseq = h.trc.bseq := by
  unfold putFree
  obtain ⟨p, q, r, s, t⟩ := putTimed_set e a b c d l (startBlock e h)
  obtain ⟨p', q', r', s', t'⟩ := startBlock_set e h
  exact ⟨p.trans p', q.trans q', r.trans r', s.trans s', t.trans t'⟩

theorem driveTsel_set (e : Env) (c : Nat) (b : Bool) (h : Hub) : (driveTsel e c b h).trc.set = h.trc.set ∧
    (driveTsel e c b h).trc.next = h.trc.next ∧ (driveTsel e c b h).trc.capturing = h.trc.capturing ∧
    trigPart (driveTsel e c b h).trc = trigPart h.trc ∧ (driveTsel e c b h).trc.bseq = h.trc.bseq := by
  unfold driveTsel applyTsel
  split
  · exact ⟨rfl, rfl, rfl, rfl, rfl⟩
  · dsimp only
    split
    · exact putFree_set ..
    · exact ⟨rfl, rfl, rfl, rfl, rfl⟩

theorem applyCores_set (e : Env) (o n : List Nat) (h : Hub) : (applyCores e o n h).trc.set = h.trc.set ∧
    (applyCores e o n h).trc.next = h.trc.next ∧ (applyCores e o n h).trc.capturing = h.trc.capturing ∧
    trigPart (applyCores e o n h).trc = trigPart h.trc ∧ (applyCores e o n h).trc.bseq = h.trc.bseq := by
  unfold applyCores
  dsimp only
  have fold : ∀ (b : Bool) (l : List Nat) (h : Hub), (l.foldl (fun h c => driveTsel e c b h) h).trc.set = h.trc.set ∧
      (l.foldl (fun h c => driveTsel e c b h) h).trc.next = h.trc.next ∧ (l.foldl (fun h c => driveTsel e c b h) h).trc.capturing = h.trc.capturing ∧
      trigPart (l.foldl (fun h c => driveTsel e c b h) h).trc = trigPart h.trc ∧ (l.foldl (fun h c => driveTsel e c b h) h).trc.bseq = h.trc.bseq := by
    intro b l
    induction l with
    | nil => exact fun h => ⟨rfl, rfl, rfl, rfl, rfl⟩
    | cons x t ih =>
      intro h
      obtain ⟨p, q, r, s, u⟩ := ih (driveTsel e x b h)
      obtain ⟨p', q', r', s', u'⟩ := driveTsel_set e x b h
      exact ⟨p.trans p', q.trans q', r.trans r', s.trans s', u.trans u'⟩
  obtain ⟨p, q, r, s, u⟩ := fold true (n.filter (fun c => !o.contains c)) ((o.filter (fun c => !n.contains c)).foldl (fun h c => driveTsel e c false h) h)
  obtain ⟨p', q', r', s', u'⟩ := fold false (o.filter (fun c => !n.contains c)) h
  exact ⟨p.trans p', q.trans q', r.trans r', s.trans s', u.trans u'⟩

theorem applyTrcNext_set (e : Env) (h : Hub) : (applyTrcNext e h).trc.set = h.trc.next.getD h.trc.set ∧ (applyTrcNext e h).trc.next = none ∧
    (applyTrcNext e h).trc.capturing = h.trc.capturing ∧ trigPart (applyTrcNext e h).trc = trigPart h.trc ∧ (applyTrcNext e h).trc.bseq = h.trc.bseq := by
  unfold applyTrcNext
  cases n : h.trc.next with
  | none => exact ⟨rfl, n, rfl, rfl, rfl⟩
  | some s => exact applyCores_set e h.trc.set.cores s.cores (onTrc (fun t => { t with set := s, next := none }) h)

theorem applyTrcNext_none {e : Env} {h : Hub} (n : h.trc.next = none) : applyTrcNext e h = h := by unfold applyTrcNext; rw [n]

theorem endBlock_trig (e : Env) (a b c : Bool) (h : Hub) : trigPart (endBlock e a b c h).trc = trigPart h.trc ∧ (endBlock e a b c h).trc.next = none ∧
    (endBlock e a b c h).trc.set = h.trc.next.getD h.trc.set := by
  unfold endBlock
  split
  · obtain ⟨p, q, -, r, -⟩ := applyTrcNext_set e h
    exact ⟨r, q, p⟩
  · dsimp only
    obtain ⟨p, q, -, r, -⟩ := applyTrcNext_set e { h with trc := dealBlocks { h.trc with
      cur := [], curPkts := 0, curTrig := false, bseq := h.trc.bseq + 1, fifo := h.trc.fifo ++ [{ bseq := h.trc.bseq, data := h.trc.cur, trig := a || h.trc.curTrig, fin := b, flush := c }] } }
    exact ⟨r, q, p⟩

/-- The block in progress ends when no settings wait (R506). -/
theorem endBlock_ends {e : Env} {a b c : Bool} {h : Hub} (n : h.trc.next = none) (f : h.trc.cur ≠ []) :
    endBlock e a b c h = { h with trc := dealBlocks { h.trc with cur := [], curPkts := 0, curTrig := false, bseq := h.trc.bseq + 1, fifo := h.trc.fifo ++ [{ bseq := h.trc.bseq, data := h.trc.cur, trig := a || h.trc.curTrig, fin := b, flush := c }] } } := by
  unfold endBlock
  rw [if_neg (by simpa using f)]
  exact applyTrcNext_none n

theorem putRaw_trig (e : Env) (a b c d : Nat) (l : List Byte) (h : Hub) : trigPart (putRaw e a b c d l h).trc = trigPart h.trc := by
  unfold putRaw
  split
  · exact (putFree_set ..).2.2.2.1
  · exact (putFree_set ..).2.2.2.1.trans (endBlock_trig ..).1

theorem endPost_trig (e : Env) (c : Nat) (h : Hub) : trigPart (endPost e c h).trc = trigPart h.trc ∧ (endPost e c h).trc.capturing = false ∧
    (endPost e c h).trc.posting = false := by
  unfold endPost
  exact ⟨(endBlock_trig ..).1.trans (putRaw_trig ..), rfl, rfl⟩

/-- The trigger fires: it is disarmed and counted, whether or not a capture runs (R502, R504). -/
theorem fire_trc (e : Env) (n : Nat) (h : Hub) : trigPart (fire e n h).trc = (false, h.trc.trigOut + 1, h.trc.ignored, h.trc.sink, h.trc.erg, h.trc.rdy) := by
  unfold fire
  dsimp only
  have a : trigPart (irq 7 (onTrc (fun t => { t with armed := false, trigOut := t.trigOut + 1, conds := [], fired := true }) h)).trc =
      (false, h.trc.trigOut + 1, h.trc.ignored, h.trc.sink, h.trc.erg, h.trc.rdy) := rfl
  generalize irq 7 (onTrc (fun t => { t with armed := false, trigOut := t.trigOut + 1, conds := [], fired := true }) h) = x at a ⊢
  split
  · exact a
  · have r := (endBlock_trig e false false false x).1.trans a
    generalize endBlock e false false false x = y at r ⊢
    have r2 : trigPart (onTrc (fun t => { t with trig := true, curTrig := true, trigBseq := t.bseq, posting := decide (bufSize t > 0), posted := 0 }) y).trc = _ := r
    generalize onTrc (fun t => { t with trig := true, curTrig := true, trigBseq := t.bseq, posting := decide (bufSize t > 0), posted := 0 }) y = z at r2 ⊢
    have r3 := (putRaw_trig e 8 0 (srcOf 3 0) (nowNs z) ([2] ++ beBytes 4 0 ++ beBytes 4 n) z).trans r2
    split
    · exact (endPost_trig ..).1.trans r3
    · exact r3

/-- Condition 0 fires an armed trigger at once (R502). -/
theorem trigger_fires {e : Env} {h : Hub} (a : h.sys.st = .serving ∨ h.sys.st = .drowse) (b : h.trc.fired = false)
    (c : h.trc.armed = true) (d : h.trc.posting = false) (f : sinkFrozen h.trc = false) :
    (trigger e 0 h).trc.armed = false ∧ (trigger e 0 h).trc.trigOut = h.trc.trigOut + 1 ∧ (trigger e 0 h).trc.ignored = h.trc.ignored := by
  unfold trigger
  dsimp only
  have w : working h = true := by rcases a with a | a <;> simp [working, a]
  rw [if_neg (by rcases a with a | a <;> simp [a]), if_neg (by simp [b, w]), if_pos (by simp [c, d, f]), if_pos rfl]
  have z := fire_trc e 0 h
  simp only [trigPart, Prod.mk.injEq] at z
  exact ⟨z.1, z.2.1, z.2.2.1⟩

/-- Another condition of an armed trigger is judged at the end of its cycle (R502; log 102). -/
theorem trigger_waits {e : Env} {n : Nat} {h : Hub} (a : h.sys.st = .serving ∨ h.sys.st = .drowse) (b : h.trc.fired = false) (m : h.trc.set.cond.getLsbD n = true) (z : n ≠ 0)
    (c : h.trc.armed = true) (d : h.trc.posting = false) (f : sinkFrozen h.trc = false) :
    trigger e n h = onTrc (fun t => { t with conds := t.conds ++ [n] }) h := by
  unfold trigger
  dsimp only
  have w : working h = true := by rcases a with a | a <;> simp [working, a]
  rw [if_neg (by rcases a with a | a <;> simp [a]), if_neg (by simp [b, w, m]), if_pos (by simp [c, d, f]), if_neg z]

/-- One that counts and finds the trigger unable to fire is only ignored (R502). -/
theorem trigger_ignored {e : Env} {n : Nat} {h : Hub} (a : h.sys.st = .serving ∨ h.sys.st = .drowse) (b : h.trc.fired = false) (m : n = 0 ∨ h.trc.set.cond.getLsbD n = true)
    (c : (h.trc.armed && !h.trc.posting && !sinkFrozen h.trc) = false) :
    (trigger e n h).trc.armed = h.trc.armed ∧ (trigger e n h).trc.trigOut = h.trc.trigOut ∧ (trigger e n h).trc.ignored = h.trc.ignored + 1 := by
  unfold trigger
  dsimp only
  have w : working h = true := by rcases a with a | a <;> simp [working, a]
  rw [if_neg (by rcases a with a | a <;> simp [a]), if_neg (by rcases m with m | m <;> simp [b, w, m]), if_neg (by rw [c]; decide)]
  unfold ignoreCond
  dsimp only
  split
  · have z := putRaw_trig e 8 0 (srcOf 3 0) (nowNs (onTrc (fun t => { t with ignored := t.ignored + 1 }) h)) ([2] ++ beBytes 4 0 ++ beBytes 4 (2 ^ 31 + n))
      (onTrc (fun t => { t with ignored := t.ignored + 1 }) h)
    simp only [trigPart, Prod.mk.injEq] at z
    exact ⟨z.1, z.2.1, z.2.2.1⟩
  · exact ⟨rfl, rfl, rfl⟩

/-! Compressors, sinks and captures. -/

theorem sinkOf_congr {h k : Hub} (a : k.sys = h.sys) (b : k.trc.set = h.trc.set) : sinkOf k = sinkOf h := by unfold sinkOf; rw [a, b]

@[simp] theorem startCapture_trc (n : Nat) (h : Hub) : (startCapture n h).trc.set = h.trc.set ∧ (startCapture n h).trc.next = h.trc.next ∧
    (startCapture n h).trc.sink = n ∧ (startCapture n h).trc.cur = [] ∧ (startCapture n h).trc.soff = 0 ∧ (startCapture n h).trc.bseq = 0 ∧
    (startCapture n h).trc.wptr = 0 := ⟨rfl, rfl, rfl, rfl, rfl, rfl, rfl⟩

/-- A buffer's release discards its capture and starts a new one (R498). -/
theorem releaseBuf_erg (e : Env) (h : Hub) : (releaseBuf e true h).trc.erg = {} ∧ (releaseBuf e true h).trc.soff = 0 ∧
    (releaseBuf e true h).trc.bseq = 0 := by
  unfold releaseBuf startCapture
  simp [onTrc]

theorem releaseBuf_mem (e : Env) (h : Hub) : (releaseBuf e false h).trc.mem = {} ∧ (releaseBuf e false h).trc.soff = 0 ∧
    (releaseBuf e false h).trc.bseq = 0 := by
  unfold releaseBuf startCapture
  simp [onTrc]

theorem setTrace_trc (e : Env) (t : TrcSet) (h : Hub) :
    (newCapture h.trc.set t = true → (setTrace e t h).trc.set = t ∧ (setTrace e t h).trc.next = none ∧ (setTrace e t h).trc.soff = 0 ∧
      (setTrace e t h).trc.bseq = 0) ∧
    (newCapture h.trc.set t = false → h.trc.cur = [] → (setTrace e t h).trc.set = t ∧ (setTrace e t h).trc.next = none) ∧
    (newCapture h.trc.set t = false → h.trc.cur ≠ [] → (setTrace e t h).trc = { h.trc with
      set := { h.trc.set with seif := t.seif, flush := t.flush }, next := some t }) := by
  unfold setTrace
  have n : ∀ x, newCapture (onTrc (fun x => { x with set := { x.set with seif := t.seif, flush := t.flush } }) h).trc.set x = newCapture h.trc.set x := fun _ => rfl
  refine ⟨fun a => ?_, fun a b => ?_, fun a b => ?_⟩
  · dsimp only
    rw [n, if_pos a]
    generalize endCapture e 3 _ = k
    obtain ⟨p, q, -, -, -⟩ := applyTrcNext_set e (onTrc (fun x => { x with next := some t }) k)
    exact ⟨p, q, rfl, rfl⟩
  · dsimp only
    rw [n, if_neg (by rw [a]; decide)]
    obtain ⟨p, q, -, -, -⟩ := applyTrcNext_set e (onTrc (fun x => { x with next := some t }) (onTrc (fun x => { x with set := { x.set with seif := t.seif, flush := t.flush } }) h))
    rw [if_pos (by show h.trc.cur.isEmpty = true; rw [b]; rfl)]
    exact ⟨p, q⟩
  · dsimp only
    rw [n, if_neg (by rw [a]; decide)]
    rw [if_neg (by show ¬h.trc.cur.isEmpty = true; simpa using b)]
    rfl

/-- The oldest block leaves its compressor (R507, R510). -/
theorem compressOne_nid {h : Hub} {b : NBlock} {l : List NBlock} (g : h.trc.busy = b :: l) :
    (compressOne h).nid.inB = h.nid.inB + b.data.length ∧
      ((compressOne h).trc.lostSink = h.trc.lostSink ∧ (∃ i, (compressOne h).trc.ready = h.trc.ready ++ [{ b with image := some i }]) ∨
       (compressOne h).trc.lostSink = h.trc.lostSink + 1 ∧ (compressOne h).trc.ready = h.trc.ready) := by
  unfold compressOne
  rw [g]
  dsimp only
  split
  · exact ⟨rfl, .inr ⟨rfl, rfl⟩⟩
  · exact ⟨rfl, .inl ⟨rfl, _, rfl⟩⟩

/-- The next block reaches the trace port's sink, or is lost while TRC_RDY is low (R501, Table 13.5). -/
theorem sinkOne_port {h : Hub} {b : NBlock} {l : List NBlock} (g : h.trc.ready = b :: l) (k : h.trc.sink = 1) :
    (h.trc.rdy = true → sinkOne h = { h with trc := { h.trc with ready := l, portq := h.trc.portq ++ b.image.getD []
                                                                 wptr := h.trc.wptr + (b.image.getD []).length, sinkBlocks := h.trc.sinkBlocks + 1 } }) ∧
    (h.trc.rdy = false → sinkOne h = { h with trc := { h.trc with ready := l, lostSink := h.trc.lostSink + 1, sinkDue := h.trc.sinkDue + b.data.length } }) := by
  unfold sinkOne
  rw [g]
  dsimp only
  unfold sinkWrite
  refine ⟨fun a => ?_, fun a => ?_⟩
  · simp [onTrc, k, a]
  · simp [onTrc, dropBlock, k, a]

/-! Crossing to the merger. -/

theorem fillCrossing_none {h : Hub} {r : Nat} (n : Nat) (a : nextTraced h r (region h r).traceTurn = none) : fillCrossing n r h = h := by
  cases n with
  | zero => rfl
  | succ n => unfold fillCrossing; rw [a]; simp

/-- Bytes posted by a command reach the memory (R524). -/
theorem memAfter_posted {s : State} {k : Hub} (a : Nat) (bs : List Byte) (m : k.mem = s.hub.mem) (p : k.posted = []) :
    Mem.apply Mem.ramByte s.mem (postMem a bs k).posted = s.memAfter a bs := by
  unfold State.memAfter postMem physAddr
  simp only [m, p]
  rfl

/-! Received fabric packets. -/

theorem photenCheck_ok {e : Env} {h : Hub} {type : Nat} {p : List Byte} {port : Nat} (a : photenOk e h type p port = true) :
    ∃ r, rxAccept (Tab.find h.fab.rx ((photenFields p).src * 4 + (photenFields p).tc)) (bitsOf (beAt p 12 4) 15 0) (beAt p 16 8) (bitOf (beAt p 0 4) 20) = some r ∧
      photenCheck e p port h = ({ h with fab := { h.fab with
        rx := Tab.put h.fab.rx ((photenFields p).src * 4 + (photenFields p).tc) r, accepted := h.fab.accepted + 1 } }, some (photenFields p)) ∧
      (photenFields p).type = type := by
  unfold photenOk at a
  simp only [Bool.and_eq_true, decide_eq_true_eq] at a
  obtain ⟨⟨⟨⟨⟨⟨⟨⟨⟨⟨⟨⟨⟨⟨⟨a, b⟩, c⟩, d⟩, f⟩, g⟩, i⟩, j⟩, k⟩, l⟩, m⟩, n⟩, o⟩, q⟩, r⟩, s⟩ := a
  obtain ⟨x, s⟩ := Option.isSome_iff_exists.mp s
  refine ⟨x, s, ?_, k⟩
  unfold photenCheck
  have u : (h.sys.st == .drowse && bitsOf (beAt p 0 4) 27 24 != 5) = false := by
    rw [k]
    cases z : serving h with
    | true => have : h.sys.st = .serving := by simpa [serving] using z
              simp [this]
    | false => simp only [z, Bool.false_or, Bool.and_eq_true, beq_iff_eq] at a; simp [a.2]
  have v : (!(serving h || h.sys.st == .drowse)) = false := by
    cases z : serving h with
    | true => simp
    | false => simp only [z, Bool.false_or, Bool.and_eq_true] at a; simp [a.1]
  simp only [v, Bool.false_eq_true, if_false]
  rw [if_neg (by omega), if_neg (by omega), if_neg (not_not.mpr i), if_neg (by simp only [not_or]; omega), if_neg (by simp [r])]
  rw [u]
  simp only [Bool.false_eq_true, if_false, s, photenFields, c]

/-- A packet in order is counted and handed to its taker. -/
theorem photenRx_ok {e : Env} {h : Hub} {type : Nat} {p : List Byte} {port : Nat} (f : RxPkt → Hub → Hub) (a : photenOk e h type p port = true) :
    ∃ r, photenRx e type p port f h = f (photenFields p) { h with fab := { h.fab with
      rx := Tab.put h.fab.rx ((photenFields p).src * 4 + (photenFields p).tc) r, accepted := h.fab.accepted + 1 } } := by
  obtain ⟨r, -, b, c⟩ := photenCheck_ok a
  refine ⟨r, ?_⟩
  unfold photenRx
  rw [b]
  dsimp only
  rw [if_pos c]

end Sys2Proof.Machine
end

