-- ==== Sys2Proof/Laws/Exec.lean ====
section
/-!
SUPPORT. Every command answers a next state: what its meaning makes of the hub, settled.
-/
namespace Sys2Proof.Machine

theorem exec_settles (c : Instr) (s : State) : ∃ h, exec c s = .next (s.settle h) := by
  cases c <;> exact ⟨_, rfl⟩

end Sys2Proof.Machine
end

