-- ==== Sys2Proof/Laws/Due.lean ====
section
/-!
SUPPORT. Every expiry answers a next state, as every command does; so the expiries that are due together do.
-/
namespace Sys2Proof.Machine

/-- The expiry of each of some timers answers a next state: what it makes of the hub, settled. -/
def Settling (l : List Timer) : Prop := ∀ t ∈ l, ∀ s, ∃ k, t.2 s = .next (s.settle k)

theorem Settling.nil : Settling [] := fun _ m => nomatch m
theorem Settling.cons {t : Timer} {l : List Timer} (a : ∀ s, ∃ k, t.2 s = .next (s.settle k)) (b : Settling l) : Settling (t :: l) := fun u m => by
  rcases List.mem_cons.mp m with rfl | m
  · exact a
  · exact b u m
theorem Settling.append {l m : List Timer} (a : Settling l) (b : Settling m) : Settling (l ++ m) := fun u z => by
  rcases List.mem_append.mp z with z | z
  · exact a u z
  · exact b u z
theorem Settling.map {α : Type} {f : α → Timer} {l : List α} (a : ∀ x s, ∃ k, (f x).2 s = .next (s.settle k)) : Settling (l.map f) := fun u z => by
  obtain ⟨x, -, rfl⟩ := List.mem_map.mp z
  exact a x
theorem Settling.flatMap {α : Type} {f : α → List Timer} {l : List α} (a : ∀ x, Settling (f x)) : Settling (l.flatMap f) := fun u z => by
  obtain ⟨x, -, m⟩ := List.mem_flatMap.mp z
  exact a x u m
theorem Settling.timer {t : Option Nat} {f : State → Host.Outcome State Fault Refusal} (a : ∀ s, ∃ k, f s = .next (s.settle k)) : Settling (timer t f) := by
  unfold Machine.timer
  cases t with
  | none => exact .nil
  | some d => exact .cons a .nil

theorem timersSys_settle (h : Hub) : Settling (timersSys h) :=
  .append (.append (.append (.timer fun _ => ⟨_, rfl⟩) (.timer fun _ => ⟨_, rfl⟩)) (.timer fun _ => ⟨_, rfl⟩))
    (.cons (fun _ => ⟨_, rfl⟩) (.cons (fun _ => ⟨_, rfl⟩) (.cons (fun _ => ⟨_, rfl⟩) .nil)))
theorem timersCells_settle (e : Env) (h : Hub) : Settling (timersCells e h) :=
  .append (.append (.map fun _ _ => ⟨_, rfl⟩) (.flatMap fun _ => .append (.flatMap fun _ => .timer fun _ => ⟨_, rfl⟩) (.map fun _ _ => ⟨_, rfl⟩)))
    (.map fun _ _ => ⟨_, rfl⟩)
theorem timersSums_settle (h : Hub) : Settling (timersSums h) :=
  .append (.append (.append (.append (.timer fun _ => ⟨_, rfl⟩) (.timer fun _ => ⟨_, rfl⟩)) (.timer fun _ => ⟨_, rfl⟩))
    (.flatMap fun _ => .cons (fun _ => ⟨_, rfl⟩) (.cons (fun _ => ⟨_, rfl⟩) (.cons (fun _ => ⟨_, rfl⟩) (.cons (fun _ => ⟨_, rfl⟩) .nil)))))
    (.map fun _ _ => ⟨_, rfl⟩)
theorem timersCasc_settle (e : Env) (h : Hub) : Settling (timersCasc e h) := by
  unfold timersCasc
  refine .append (.append (.append (.append (.append (.append (.append ?_ (.flatMap fun _ => ?_)) (.map fun _ _ => ⟨_, rfl⟩)) ?_) ?_) (.map fun _ _ => ⟨_, rfl⟩))
    (.map fun _ _ => ⟨_, rfl⟩)) (.map fun _ _ => ⟨_, rfl⟩)
  · exact .cons (fun _ => ⟨_, rfl⟩) (.cons (fun _ => ⟨_, rfl⟩) (.cons (fun _ => ⟨_, rfl⟩) .nil))
  · refine .append (.append (.append (.map fun _ _ => ⟨_, rfl⟩) (.timer fun _ => ⟨_, rfl⟩)) ?_) ?_
    · split
      · exact .cons (fun _ => ⟨_, rfl⟩) .nil
      · exact .nil
    · split
      · exact .cons (fun _ => ⟨_, rfl⟩) .nil
      · exact .nil
  · split
    · exact .cons (fun _ => ⟨_, rfl⟩) .nil
    · exact .nil
  · exact .cons (fun _ => ⟨_, rfl⟩) (.cons (fun _ => ⟨_, rfl⟩) (.cons (fun _ => ⟨_, rfl⟩) .nil))
theorem timersFab_settle (h : Hub) : Settling (timersFab h) := by
  unfold timersFab
  refine .append (.append (.append (.append (.append ?_ (.flatMap fun _ => .cons (fun _ => ⟨_, rfl⟩) (.map fun _ _ => ⟨_, rfl⟩)))
    (.flatMap fun _ => .append (.timer fun _ => ⟨_, rfl⟩) (.cons (fun _ => ⟨_, rfl⟩) .nil))) (.map fun _ _ => ⟨_, rfl⟩)) (.map fun _ _ => ⟨_, rfl⟩))
    (.flatMap fun _ => .cons (fun _ => ⟨_, rfl⟩) (.cons (fun _ => ⟨_, rfl⟩) .nil))
  exact .cons (fun _ => ⟨_, rfl⟩) (.cons (fun _ => ⟨_, rfl⟩) (.cons (fun _ => ⟨_, rfl⟩) .nil))
theorem timersPort_settle (h : Hub) : Settling (timersPort h) := by
  unfold timersPort
  refine .append (.append (.append (.append (.append (.append (.flatMap fun _ => .append (.append (.timer fun _ => ⟨_, rfl⟩) (.timer fun _ => ⟨_, rfl⟩)) ?_)
    (.timer fun _ => ⟨_, rfl⟩)) (.timer fun _ => ⟨_, rfl⟩)) (.cons (fun _ => ⟨_, rfl⟩) .nil)) (.map fun _ _ => ⟨_, rfl⟩)) (.timer fun _ => ⟨_, rfl⟩))
    (.cons (fun _ => ⟨_, rfl⟩) .nil)
  exact .cons (fun _ => ⟨_, rfl⟩) (.cons (fun _ => ⟨_, rfl⟩) (.cons (fun _ => ⟨_, rfl⟩) .nil))

theorem dueTimers_settle (e : Env) (h : Hub) : Settling (dueTimers e h) := fun t m => by
  unfold dueTimers at m
  have m' := List.mem_of_mem_filter ((List.mergeSort_perm _ _).mem_iff.mp m)
  exact ((((((timersSys_settle h).append (timersCells_settle e h)).append (timersSums_settle h)).append (timersCasc_settle e h)).append
    (timersFab_settle h)).append (timersPort_settle h)) t m'

/-- What a state keeps of another through any number of meanings: fuses and queue, and the memories' canonical form; nothing is left to be written. -/
structure Settled (s t : State) : Prop where
  wf : s.wf = true → t.wf = true
  fuses : t.fuses = s.fuses
  pending : t.pending = s.pending
  posted : t.hub.posted = [] ∧ t.hub.nvPosted = []

theorem settle_settled (s : State) (k : Hub) : Settled s (s.settle k) := by
  refine ⟨fun w => ?_, rfl, rfl, rfl, rfl⟩
  unfold State.wf at w ⊢
  simp only [Bool.and_eq_true] at w ⊢
  exact ⟨Mem.wf_apply _ _ _ w.1, Mem.wf_apply _ _ _ w.2⟩

theorem Settled.trans {s t u : State} (a : Settled s t) (b : Settled t u) : Settled s u :=
  ⟨fun w => b.wf (a.wf w), b.fuses.trans a.fuses, b.pending.trans a.pending, b.posted⟩

/-- The expiries that are due together (R54, R71). -/
theorem fireDue_settled (s : State) : Settled s (fireDue s) := by
  unfold fireDue
  have d := dueTimers_settle s.env s.hub
  have z := settle_settled s { s.hub.clean with time := { s.hub.time with due := false } }
  generalize s.settle { s.hub.clean with time := { s.hub.time with due := false } } = t at z ⊢
  generalize dueTimers s.env s.hub = l at d
  induction l generalizing t with
  | nil => exact z
  | cons x l ih =>
    obtain ⟨k, e⟩ := d x (by simp) t
    refine ih _ (z.trans ?_) (fun y m => d y (List.mem_cons_of_mem _ m))
    unfold expire
    rw [e]
    exact settle_settled t k

end Sys2Proof.Machine
end

