-- ==== Sys2Proof/Laws/Dig.lean ====
section
/-!
SUPPORT. What a beat does to its pipe, and what reads of a pipe give after a change of the digest engine.
-/
namespace Sys2Proof.Machine

@[simp] theorem pipe_onPipe (p : Bool) (f : Pipe → Pipe) (h : Hub) : pipe (onPipe p f h) p = f (pipe h p) := by cases p <;> rfl
theorem pipe_congr {h k : Hub} (a : k.dig.ingress = h.dig.ingress) (b : k.dig.egress = h.dig.egress) (p : Bool) : pipe k p = pipe h p := by
  unfold pipe; rw [a, b]
theorem pipe_of_dig {h k : Hub} (a : k.dig = h.dig) (p : Bool) : pipe k p = pipe h p := by unfold pipe; rw [a]
@[simp] theorem pipe_onEpoch (n : Word) (f : Epoch → Epoch) (h : Hub) (p : Bool) : pipe (onEpoch n f h) p = pipe h p := pipe_congr rfl rfl p
@[simp] theorem pipe_onLink (l : Nat) (f : LinkStat → LinkStat) (h : Hub) (p : Bool) : pipe (onLink l f h) p = pipe h p := pipe_congr rfl rfl p
@[simp] theorem epochOf_onPipe (p : Bool) (f : Pipe → Pipe) (h : Hub) (n : Word) : epochOf (onPipe p f h) n = epochOf h n := by cases p <;> rfl
@[simp] theorem epochOf_onLink (l : Nat) (f : LinkStat → LinkStat) (h : Hub) (n : Word) : epochOf (onLink l f h) n = epochOf h n := rfl

theorem Tab.find_drop_self {α : Type} (t : Tab α) (i : Nat) : Tab.find (Tab.drop t i) i = none := by
  unfold Tab.drop
  induction t with
  | nil => rfl
  | cons x t ih =>
    rw [List.filter_cons]
    split
    · rename_i q
      unfold Tab.find
      rw [if_neg (by simpa using q)]
      exact ih
    · exact ih

/-- The hub once a beat has entered a pipe's FIFO (R169). -/
def entered (p : Bool) (c : Nat) (h : Hub) : Hub :=
  onPipe p (fun q => { fifoTick (nowNs h) q with fifo := (fifoTick (nowNs h) q).fifo ++ [c] }) h

theorem fifoPush_room {p : Bool} {c : Nat} {h : Hub} (a : (fifoTick (nowNs h) (pipe h p)).fifo.length < 16) : fifoPush p c h = (entered p c h, true) := by
  unfold fifoPush entered
  dsimp only
  rw [if_neg (by omega)]
  cases p <;> rfl

@[simp] theorem entered_pipe (p : Bool) (c : Nat) (h : Hub) : (pipe (entered p c h) p).chunk = (pipe h p).chunk ∧ (pipe (entered p c h) p).open_ = (pipe h p).open_ ∧
    (pipe (entered p c h) p).recalls = (pipe h p).recalls ∧ (pipe (entered p c h) p).finals = (pipe h p).finals ∧ (pipe (entered p c h) p).lost = (pipe h p).lost := by
  unfold entered
  rw [pipe_onPipe]
  exact ⟨rfl, rfl, rfl, rfl, rfl⟩
@[simp] theorem entered_dig (p : Bool) (c : Nat) (h : Hub) : (entered p c h).dig.seals = h.dig.seals ∧ (entered p c h).dig.opened = h.dig.opened ∧
    (entered p c h).dig.newer = h.dig.newer ∧ (entered p c h).dig.older = h.dig.older ∧ (entered p c h).dig.unopened = h.dig.unopened ∧
    (entered p c h).dig.proto = h.dig.proto ∧ (entered p c h).free = h.free := by
  cases p <;> exact ⟨rfl, rfl, rfl, rfl, rfl, rfl, rfl⟩
@[simp] theorem entered_reads (p : Bool) (c : Nat) (h : Hub) : nowNs (entered p c h) = nowNs h ∧ (∀ n, epochOf (entered p c h) n = epochOf h n) ∧
    (∀ n, epochOpen (entered p c h) n = epochOpen h n) ∧ (∀ l ep, deliveryKeys (entered p c h) p l ep = deliveryKeys h p l ep) ∧
    (∀ l s n, delivery (entered p c h) p l s n = delivery h p l s n) ∧ draw (entered p c h) = draw h := by
  refine ⟨?_, fun n => ?_, fun n => ?_, fun l ep => ?_, fun l s n => ?_, ?_⟩
  · unfold entered; simp
  · cases p <;> rfl
  · cases p <;> rfl
  · cases p <;> rfl
  · unfold delivery; rw [(entered_pipe p c h).2.1]
  · cases p <;> rfl

/-- A header beat that finds room acts by its type (R169, Table 5.4). -/
theorem headerBeat_room {e : Env} {p : Bool} {d : BitVec 128} {h : Hub} (a : (fifoTick (nowNs h) (pipe h p)).fifo.length < 16) (b : (digHdr d).rsvd = 0) :
    ((digHdr d).type = 0 → headerBeat e p d h = chunkHeader e p (digHdr d) (entered p 1 h)) ∧
    ((digHdr d).type = 1 → headerBeat e p d h = sliceEnd e p (digHdr d) (entered p 1 h)) ∧
    ((digHdr d).type = 2 → digFmtOk (digHdr d).fmt = true → headerBeat e p d h = sealHeader e p false (digHdr d) (entered p 1 h)) ∧
    ((digHdr d).type = 3 → digFmtOk (digHdr d).fmt = true → (digHdr d).base = 0 → headerBeat e p d h = recallHeader p false (digHdr d) (entered p 1 h)) ∧
    ((digHdr d).type = 4 → headerBeat e p d h = stashEnd e p (digHdr d) (entered p 1 h)) := by
  unfold headerBeat
  rw [fifoPush_room a]
  refine ⟨fun t => ?_, fun t => ?_, fun t f => ?_, fun t f g => ?_, fun t => ?_⟩
  · simp [t, b]
  · simp [t, b]
  · simp [t, b, f]
  · simp [t, b, f, g]
  · simp [t, b]

theorem Delivery.is_self (d : Delivery) : d.is d.layer d.slice d.epoch = true := by simp [Delivery.is]

/-- An open delivery after it has been changed in place. -/
theorem delivery_onDelivery {h : Hub} {p : Bool} {l s : Nat} {ep : Word} {d : Delivery} (a : delivery h p l s ep = some d) (f : Delivery → Delivery)
    (k : (f d).is l s ep = true) : delivery (onDelivery p l s ep f h) p l s ep = some (f d) := by
  unfold delivery onDelivery at *
  rw [pipe_onPipe]
  dsimp only
  generalize (pipe h p).open_ = o at a
  induction o with
  | nil => cases a
  | cons x t ih =>
    rw [List.find?_cons] at a
    rw [List.map_cons, List.find?_cons]
    split at a
    · rename_i q
      cases a
      rw [if_pos q, k]
    · rename_i q
      rw [if_neg (by rw [q]; decide), q]
      exact ih a

theorem delivery_append {o : List Delivery} {l s : Nat} {ep : Word} (d : Delivery) (a : o.find? (fun d => d.is l s ep) = none) (k : d.is l s ep = true) :
    (o ++ [d]).find? (fun d => d.is l s ep) = some d := by
  rw [List.find?_append, a]
  simp [k]

theorem pipe_ite (b p : Bool) (h k : Hub) (e : pipe k p = pipe h p) : pipe (if b = true then h else k) p = pipe h p := by
  split
  · rfl
  · exact e

theorem linkBeat_pipe (p : Bool) (l t : Nat) (h : Hub) (q : Bool) : pipe (linkBeat p l t h) q = pipe h q := by
  unfold linkBeat
  split
  · rfl
  · simp
theorem linkDelivers_pipe (p : Bool) (l : Nat) (n : Word) (h : Hub) (q : Bool) : pipe (linkDelivers p l n h) q = pipe h q := by
  unfold linkDelivers
  split
  · rfl
  · exact pipe_onLink ..

/-- A CHUNK whose delivery is not open starts it (R173). -/
theorem openChunk_starts {e : Env} {p : Bool} {x : DigHdr} {ep : Epoch} {h : Hub} (a : delivery h p x.layer x.slice x.epoch = none)
    (b : tableRoom p (x.layer * 64 + x.slice) ep = true) :
    (pipe (openChunk e p x ep h) p).chunk = some { kind := .slice x.layer x.slice x.epoch 0, fmt := BitVec.ofNat 4 x.fmt, link := x.link, next := x.base } ∧
    delivery (openChunk e p x ep h) p x.layer x.slice x.epoch = some
      { layer := x.layer, slice := x.slice, epoch := x.epoch, link := x.link, fmt := BitVec.ofNat 4 x.fmt, k0 := (deliveryKeys h p x.layer ep).1
        k1 := (deliveryKeys h p x.layer ep).2.1, fixed := (deliveryKeys h p x.layer ep).2.2, lastBeat := nowNs h } := by
  unfold openChunk
  dsimp only
  have b' : tableRoom p (pairKey x.layer x.slice) ep = true := b
  rw [if_pos b']
  refine ⟨?_, ?_⟩
  · rw [pipe_onEpoch]
    unfold sliceChunk
    rw [pipe_onPipe]
  · unfold delivery
    rw [pipe_onEpoch]
    unfold sliceChunk
    rw [pipe_onPipe]
    unfold startDelivery
    dsimp only
    rw [linkDelivers_pipe, a]
    dsimp only
    rw [pipe_onPipe]
    exact delivery_append _ a (by simp [Delivery.is])

theorem sliceChunk_chunk (p : Bool) (k : Nat) (x : DigHdr) (h : Hub) : (pipe (sliceChunk p k x h) p).chunk =
    some { kind := .slice x.layer x.slice x.epoch k, fmt := BitVec.ofNat 4 x.fmt, link := x.link, next := x.base } := by
  unfold sliceChunk
  rw [pipe_onPipe]

theorem digRecord_dig (a b c d f g i j k l m n o) : (digRecord a b c d f g i j k l m n o).dig = o.dig := by unfold digRecord; simp
theorem digProto_dig (e : Env) (p : Bool) (n : Nat) (h : Hub) : (digProto e p n h).dig = { h.dig with proto := h.dig.proto + 1 } := by
  unfold digProto
  rw [digRecord_dig]
  rfl

theorem addSquares_pipe (ep : Word) (f : Nat) (l : List Nat) (h : Hub) (p : Bool) : pipe (addSquares ep f l h) p = pipe h p := by
  unfold addSquares
  split
  · rfl
  · split
    · split
      · rfl
      · simp
    · split
      · rfl
      · exact pipe_of_dig ((laneBeats_only ..).keep .dig (by decide)) p

/-- A data beat's elements enter the digests of the open delivery (R168). -/
theorem takeData_slice {e : Env} {p : Bool} {c : Chunk} {ws : List Nat} {h : Hub} {l u : Nat} {ep : Word} {v : Delivery} (a : c.kind = .slice l u ep 0)
    (b : delivery h p l u ep = some v) (f : c.next + ws.length ≤ 2 ^ 28) :
    (pipe (takeData e p c ws h) p).chunk = some { c with next := c.next + ws.length } ∧
    delivery (takeData e p c ws h) p l u ep = some { v with
      d0 := (digList v.k0 v.k1 c.next (ws.map (valueBits c.fmt.toNat)) (v.d0, v.d1)).1
      d1 := (digList v.k0 v.k1 c.next (ws.map (valueBits c.fmt.toNat)) (v.d0, v.d1)).2
      count := v.count + ws.length, lastBeat := nowNs h } := by
  obtain ⟨kind, fmt, link, next⟩ := c
  dsimp only at a f ⊢
  subst a
  have t : (ws.take (2 ^ 28 - next)).map (valueBits fmt.toNat) = ws.map (valueBits fmt.toNat) := by rw [List.take_of_length_le (by omega)]
  have d : delivery (onPipe p (fun q => { q with chunk := some { kind := .slice l u ep 0, fmt := fmt, link := link, next := next + ws.length } }) h) p l u ep = some v := by
    unfold delivery at b ⊢
    rw [pipe_onPipe]
    exact b
  have is : v.is l u ep = true := by
    unfold delivery at b
    exact List.find?_some (p := fun d : Delivery => d.is l u ep) b
  unfold takeData
  simp only [t, List.length_map, Nat.lt_irrefl, decide_false, Bool.false_eq_true, if_false, d]
  generalize xs : ws.map (valueBits fmt.toNat) = xw
  generalize z0 : linkBeat p v.link v.lastBeat (onPipe p (fun q => { q with chunk := some { kind := .slice l u ep 0, fmt := fmt, link := link, next := next + ws.length } }) h) = k0
  have d0 : delivery k0 p l u ep = some v := by
    rw [← z0]
    unfold delivery at d ⊢
    rw [linkBeat_pipe]
    exact d
  have q := delivery_onDelivery d0 (fun d => { d with
      d0 := (digList v.k0 v.k1 next xw (v.d0, v.d1)).1, d1 := (digList v.k0 v.k1 next xw (v.d0, v.d1)).2
      count := d.count + ws.length, lastBeat := nowNs h }) (by simpa [Delivery.is] using is)
  generalize z : onDelivery p l u ep (fun d => { d with
      d0 := (digList v.k0 v.k1 next xw (v.d0, v.d1)).1, d1 := (digList v.k0 v.k1 next xw (v.d0, v.d1)).2
      count := d.count + ws.length, lastBeat := nowNs h }) k0 = k at q ⊢
  have ch : (pipe k p).chunk = some { kind := .slice l u ep 0, fmt := fmt, link := link, next := next + ws.length } := by
    rw [← z, ← z0]
    unfold onDelivery
    rw [pipe_onPipe, linkBeat_pipe, pipe_onPipe]
  have r : ∀ y : Hub, pipe y p = pipe k p → (pipe y p).chunk = some { kind := .slice l u ep 0, fmt := fmt, link := link, next := next + ws.length } ∧ delivery y p l u ep = delivery k p l u ep :=
    fun y w => ⟨by rw [w, ch], by unfold delivery; rw [w]⟩
  cases p
  · obtain ⟨r1, r2⟩ := r _ (pipe_onLink link (fun s => { s with elements := s.elements + ws.length }) k false)
    exact ⟨r1, r2.trans q⟩
  · obtain ⟨r1, r2⟩ := r _ (addSquares_pipe ep fmt.toNat xw k true)
    exact ⟨r1, r2.trans q⟩

end Sys2Proof.Machine
end

