-- ==== Sys2Proof/Laws/FrameScan.lean ====
section
/-!
SUPPORT. What leaves the boundaries that the cascade has last passed: everything that a boundary does after it has noted its own.
-/
namespace Sys2Proof.Machine

/-- The boundaries that the cascade has last passed: of the scan, and of the aggregation window in progress. -/
def Casc.clock (c : Casc) : Nat × Nat × Nat := (c.lastScan, c.window, c.windowTb)

/-- The boundaries last passed are the same in both hubs. -/
structure SameScan (h k : Hub) : Prop where
  eq : k.casc.clock = h.casc.clock

theorem SameScan.scan {h k : Hub} (a : SameScan h k) : k.casc.lastScan = h.casc.lastScan := congrArg (fun q => q.1) a.eq
theorem SameScan.window {h k : Hub} (a : SameScan h k) : k.casc.window = h.casc.window := congrArg (fun q => q.2.1) a.eq
theorem SameScan.start {h k : Hub} (a : SameScan h k) : k.casc.windowTb = h.casc.windowTb := congrArg (fun q => q.2.2) a.eq
theorem SameScan.refl (h : Hub) : SameScan h h := ⟨rfl⟩
theorem SameScan.step {h k l : Hub} (a : SameScan h k) (b : SameScan k l) : SameScan h l := ⟨b.eq.trans a.eq⟩
theorem SameScan.of {ps : List Piece} {h k : Hub} (b : Only ps h k) (w : ps.contains .casc = false) : SameScan h k :=
  ⟨by rw [show k.casc = h.casc from b.keep .casc (by simpa using w)]⟩
theorem SameScan.named {h v l : Hub} (k : SameScan h v → SameScan h l) (a : SameScan h v) : SameScan h l := k a
theorem SameScan.set_free {h k : Hub} (a : SameScan h k) {v} :
    SameScan h ⟨v, k.sys, k.isl, k.time, k.regions, k.cells, k.hubc, k.res, k.dig, k.xs, k.ens, k.casc, k.age, k.fab, k.sb, k.bc, k.jobs, k.mgt, k.cmd, k.prot, k.regs, k.mem, k.dma, k.trc, k.nid, k.log, k.boot, k.img, k.reports, k.posted, k.nvPosted⟩ := ⟨a.eq⟩
theorem SameScan.set_sys {h k : Hub} (a : SameScan h k) {v} :
    SameScan h ⟨k.free, v, k.isl, k.time, k.regions, k.cells, k.hubc, k.res, k.dig, k.xs, k.ens, k.casc, k.age, k.fab, k.sb, k.bc, k.jobs, k.mgt, k.cmd, k.prot, k.regs, k.mem, k.dma, k.trc, k.nid, k.log, k.boot, k.img, k.reports, k.posted, k.nvPosted⟩ := ⟨a.eq⟩
theorem SameScan.set_isl {h k : Hub} (a : SameScan h k) {v} :
    SameScan h ⟨k.free, k.sys, v, k.time, k.regions, k.cells, k.hubc, k.res, k.dig, k.xs, k.ens, k.casc, k.age, k.fab, k.sb, k.bc, k.jobs, k.mgt, k.cmd, k.prot, k.regs, k.mem, k.dma, k.trc, k.nid, k.log, k.boot, k.img, k.reports, k.posted, k.nvPosted⟩ := ⟨a.eq⟩
theorem SameScan.set_time {h k : Hub} (a : SameScan h k) {v} :
    SameScan h ⟨k.free, k.sys, k.isl, v, k.regions, k.cells, k.hubc, k.res, k.dig, k.xs, k.ens, k.casc, k.age, k.fab, k.sb, k.bc, k.jobs, k.mgt, k.cmd, k.prot, k.regs, k.mem, k.dma, k.trc, k.nid, k.log, k.boot, k.img, k.reports, k.posted, k.nvPosted⟩ := ⟨a.eq⟩
theorem SameScan.set_regions {h k : Hub} (a : SameScan h k) {v} :
    SameScan h ⟨k.free, k.sys, k.isl, k.time, v, k.cells, k.hubc, k.res, k.dig, k.xs, k.ens, k.casc, k.age, k.fab, k.sb, k.bc, k.jobs, k.mgt, k.cmd, k.prot, k.regs, k.mem, k.dma, k.trc, k.nid, k.log, k.boot, k.img, k.reports, k.posted, k.nvPosted⟩ := ⟨a.eq⟩
theorem SameScan.set_cells {h k : Hub} (a : SameScan h k) {v} :
    SameScan h ⟨k.free, k.sys, k.isl, k.time, k.regions, v, k.hubc, k.res, k.dig, k.xs, k.ens, k.casc, k.age, k.fab, k.sb, k.bc, k.jobs, k.mgt, k.cmd, k.prot, k.regs, k.mem, k.dma, k.trc, k.nid, k.log, k.boot, k.img, k.reports, k.posted, k.nvPosted⟩ := ⟨a.eq⟩
theorem SameScan.set_hubc {h k : Hub} (a : SameScan h k) {v} :
    SameScan h ⟨k.free, k.sys, k.isl, k.time, k.regions, k.cells, v, k.res, k.dig, k.xs, k.ens, k.casc, k.age, k.fab, k.sb, k.bc, k.jobs, k.mgt, k.cmd, k.prot, k.regs, k.mem, k.dma, k.trc, k.nid, k.log, k.boot, k.img, k.reports, k.posted, k.nvPosted⟩ := ⟨a.eq⟩
theorem SameScan.set_res {h k : Hub} (a : SameScan h k) {v} :
    SameScan h ⟨k.free, k.sys, k.isl, k.time, k.regions, k.cells, k.hubc, v, k.dig, k.xs, k.ens, k.casc, k.age, k.fab, k.sb, k.bc, k.jobs, k.mgt, k.cmd, k.prot, k.regs, k.mem, k.dma, k.trc, k.nid, k.log, k.boot, k.img, k.reports, k.posted, k.nvPosted⟩ := ⟨a.eq⟩
theorem SameScan.set_dig {h k : Hub} (a : SameScan h k) {v} :
    SameScan h ⟨k.free, k.sys, k.isl, k.time, k.regions, k.cells, k.hubc, k.res, v, k.xs, k.ens, k.casc, k.age, k.fab, k.sb, k.bc, k.jobs, k.mgt, k.cmd, k.prot, k.regs, k.mem, k.dma, k.trc, k.nid, k.log, k.boot, k.img, k.reports, k.posted, k.nvPosted⟩ := ⟨a.eq⟩
theorem SameScan.set_xs {h k : Hub} (a : SameScan h k) {v} :
    SameScan h ⟨k.free, k.sys, k.isl, k.time, k.regions, k.cells, k.hubc, k.res, k.dig, v, k.ens, k.casc, k.age, k.fab, k.sb, k.bc, k.jobs, k.mgt, k.cmd, k.prot, k.regs, k.mem, k.dma, k.trc, k.nid, k.log, k.boot, k.img, k.reports, k.posted, k.nvPosted⟩ := ⟨a.eq⟩
theorem SameScan.set_ens {h k : Hub} (a : SameScan h k) {v} :
    SameScan h ⟨k.free, k.sys, k.isl, k.time, k.regions, k.cells, k.hubc, k.res, k.dig, k.xs, v, k.casc, k.age, k.fab, k.sb, k.bc, k.jobs, k.mgt, k.cmd, k.prot, k.regs, k.mem, k.dma, k.trc, k.nid, k.log, k.boot, k.img, k.reports, k.posted, k.nvPosted⟩ := ⟨a.eq⟩
theorem SameScan.set_casc {h k : Hub} (a : SameScan h k) {v} (w : v.clock = k.casc.clock) :
    SameScan h ⟨k.free, k.sys, k.isl, k.time, k.regions, k.cells, k.hubc, k.res, k.dig, k.xs, k.ens, v, k.age, k.fab, k.sb, k.bc, k.jobs, k.mgt, k.cmd, k.prot, k.regs, k.mem, k.dma, k.trc, k.nid, k.log, k.boot, k.img, k.reports, k.posted, k.nvPosted⟩ := ⟨w.trans a.eq⟩
theorem SameScan.set_age {h k : Hub} (a : SameScan h k) {v} :
    SameScan h ⟨k.free, k.sys, k.isl, k.time, k.regions, k.cells, k.hubc, k.res, k.dig, k.xs, k.ens, k.casc, v, k.fab, k.sb, k.bc, k.jobs, k.mgt, k.cmd, k.prot, k.regs, k.mem, k.dma, k.trc, k.nid, k.log, k.boot, k.img, k.reports, k.posted, k.nvPosted⟩ := ⟨a.eq⟩
theorem SameScan.set_fab {h k : Hub} (a : SameScan h k) {v} :
    SameScan h ⟨k.free, k.sys, k.isl, k.time, k.regions, k.cells, k.hubc, k.res, k.dig, k.xs, k.ens, k.casc, k.age, v, k.sb, k.bc, k.jobs, k.mgt, k.cmd, k.prot, k.regs, k.mem, k.dma, k.trc, k.nid, k.log, k.boot, k.img, k.reports, k.posted, k.nvPosted⟩ := ⟨a.eq⟩
theorem SameScan.set_sb {h k : Hub} (a : SameScan h k) {v} :
    SameScan h ⟨k.free, k.sys, k.isl, k.time, k.regions, k.cells, k.hubc, k.res, k.dig, k.xs, k.ens, k.casc, k.age, k.fab, v, k.bc, k.jobs, k.mgt, k.cmd, k.prot, k.regs, k.mem, k.dma, k.trc, k.nid, k.log, k.boot, k.img, k.reports, k.posted, k.nvPosted⟩ := ⟨a.eq⟩
theorem SameScan.set_bc {h k : Hub} (a : SameScan h k) {v} :
    SameScan h ⟨k.free, k.sys, k.isl, k.time, k.regions, k.cells, k.hubc, k.res, k.dig, k.xs, k.ens, k.casc, k.age, k.fab, k.sb, v, k.jobs, k.mgt, k.cmd, k.prot, k.regs, k.mem, k.dma, k.trc, k.nid, k.log, k.boot, k.img, k.reports, k.posted, k.nvPosted⟩ := ⟨a.eq⟩
theorem SameScan.set_jobs {h k : Hub} (a : SameScan h k) {v} :
    SameScan h ⟨k.free, k.sys, k.isl, k.time, k.regions, k.cells, k.hubc, k.res, k.dig, k.xs, k.ens, k.casc, k.age, k.fab, k.sb, k.bc, v, k.mgt, k.cmd, k.prot, k.regs, k.mem, k.dma, k.trc, k.nid, k.log, k.boot, k.img, k.reports, k.posted, k.nvPosted⟩ := ⟨a.eq⟩
theorem SameScan.set_mgt {h k : Hub} (a : SameScan h k) {v} :
    SameScan h ⟨k.free, k.sys, k.isl, k.time, k.regions, k.cells, k.hubc, k.res, k.dig, k.xs, k.ens, k.casc, k.age, k.fab, k.sb, k.bc, k.jobs, v, k.cmd, k.prot, k.regs, k.mem, k.dma, k.trc, k.nid, k.log, k.boot, k.img, k.reports, k.posted, k.nvPosted⟩ := ⟨a.eq⟩
theorem SameScan.set_cmd {h k : Hub} (a : SameScan h k) {v} :
    SameScan h ⟨k.free, k.sys, k.isl, k.time, k.regions, k.cells, k.hubc, k.res, k.dig, k.xs, k.ens, k.casc, k.age, k.fab, k.sb, k.bc, k.jobs, k.mgt, v, k.prot, k.regs, k.mem, k.dma, k.trc, k.nid, k.log, k.boot, k.img, k.reports, k.posted, k.nvPosted⟩ := ⟨a.eq⟩
theorem SameScan.set_prot {h k : Hub} (a : SameScan h k) {v} :
    SameScan h ⟨k.free, k.sys, k.isl, k.time, k.regions, k.cells, k.hubc, k.res, k.dig, k.xs, k.ens, k.casc, k.age, k.fab, k.sb, k.bc, k.jobs, k.mgt, k.cmd, v, k.regs, k.mem, k.dma, k.trc, k.nid, k.log, k.boot, k.img, k.reports, k.posted, k.nvPosted⟩ := ⟨a.eq⟩
theorem SameScan.set_regs {h k : Hub} (a : SameScan h k) {v} :
    SameScan h ⟨k.free, k.sys, k.isl, k.time, k.regions, k.cells, k.hubc, k.res, k.dig, k.xs, k.ens, k.casc, k.age, k.fab, k.sb, k.bc, k.jobs, k.mgt, k.cmd, k.prot, v, k.mem, k.dma, k.trc, k.nid, k.log, k.boot, k.img, k.reports, k.posted, k.nvPosted⟩ := ⟨a.eq⟩
theorem SameScan.set_mem {h k : Hub} (a : SameScan h k) {v} :
    SameScan h ⟨k.free, k.sys, k.isl, k.time, k.regions, k.cells, k.hubc, k.res, k.dig, k.xs, k.ens, k.casc, k.age, k.fab, k.sb, k.bc, k.jobs, k.mgt, k.cmd, k.prot, k.regs, v, k.dma, k.trc, k.nid, k.log, k.boot, k.img, k.reports, k.posted, k.nvPosted⟩ := ⟨a.eq⟩
theorem SameScan.set_dma {h k : Hub} (a : SameScan h k) {v} :
    SameScan h ⟨k.free, k.sys, k.isl, k.time, k.regions, k.cells, k.hubc, k.res, k.dig, k.xs, k.ens, k.casc, k.age, k.fab, k.sb, k.bc, k.jobs, k.mgt, k.cmd, k.prot, k.regs, k.mem, v, k.trc, k.nid, k.log, k.boot, k.img, k.reports, k.posted, k.nvPosted⟩ := ⟨a.eq⟩
theorem SameScan.set_trc {h k : Hub} (a : SameScan h k) {v} :
    SameScan h ⟨k.free, k.sys, k.isl, k.time, k.regions, k.cells, k.hubc, k.res, k.dig, k.xs, k.ens, k.casc, k.age, k.fab, k.sb, k.bc, k.jobs, k.mgt, k.cmd, k.prot, k.regs, k.mem, k.dma, v, k.nid, k.log, k.boot, k.img, k.reports, k.posted, k.nvPosted⟩ := ⟨a.eq⟩
theorem SameScan.set_nid {h k : Hub} (a : SameScan h k) {v} :
    SameScan h ⟨k.free, k.sys, k.isl, k.time, k.regions, k.cells, k.hubc, k.res, k.dig, k.xs, k.ens, k.casc, k.age, k.fab, k.sb, k.bc, k.jobs, k.mgt, k.cmd, k.prot, k.regs, k.mem, k.dma, k.trc, v, k.log, k.boot, k.img, k.reports, k.posted, k.nvPosted⟩ := ⟨a.eq⟩
theorem SameScan.set_log {h k : Hub} (a : SameScan h k) {v} :
    SameScan h ⟨k.free, k.sys, k.isl, k.time, k.regions, k.cells, k.hubc, k.res, k.dig, k.xs, k.ens, k.casc, k.age, k.fab, k.sb, k.bc, k.jobs, k.mgt, k.cmd, k.prot, k.regs, k.mem, k.dma, k.trc, k.nid, v, k.boot, k.img, k.reports, k.posted, k.nvPosted⟩ := ⟨a.eq⟩
theorem SameScan.set_boot {h k : Hub} (a : SameScan h k) {v} :
    SameScan h ⟨k.free, k.sys, k.isl, k.time, k.regions, k.cells, k.hubc, k.res, k.dig, k.xs, k.ens, k.casc, k.age, k.fab, k.sb, k.bc, k.jobs, k.mgt, k.cmd, k.prot, k.regs, k.mem, k.dma, k.trc, k.nid, k.log, v, k.img, k.reports, k.posted, k.nvPosted⟩ := ⟨a.eq⟩
theorem SameScan.set_img {h k : Hub} (a : SameScan h k) {v} :
    SameScan h ⟨k.free, k.sys, k.isl, k.time, k.regions, k.cells, k.hubc, k.res, k.dig, k.xs, k.ens, k.casc, k.age, k.fab, k.sb, k.bc, k.jobs, k.mgt, k.cmd, k.prot, k.regs, k.mem, k.dma, k.trc, k.nid, k.log, k.boot, v, k.reports, k.posted, k.nvPosted⟩ := ⟨a.eq⟩
theorem SameScan.set_reports {h k : Hub} (a : SameScan h k) {v} :
    SameScan h ⟨k.free, k.sys, k.isl, k.time, k.regions, k.cells, k.hubc, k.res, k.dig, k.xs, k.ens, k.casc, k.age, k.fab, k.sb, k.bc, k.jobs, k.mgt, k.cmd, k.prot, k.regs, k.mem, k.dma, k.trc, k.nid, k.log, k.boot, k.img, v, k.posted, k.nvPosted⟩ := ⟨a.eq⟩
theorem SameScan.set_ram {h k : Hub} (a : SameScan h k) {v} :
    SameScan h ⟨k.free, k.sys, k.isl, k.time, k.regions, k.cells, k.hubc, k.res, k.dig, k.xs, k.ens, k.casc, k.age, k.fab, k.sb, k.bc, k.jobs, k.mgt, k.cmd, k.prot, k.regs, k.mem, k.dma, k.trc, k.nid, k.log, k.boot, k.img, k.reports, v, k.nvPosted⟩ := ⟨a.eq⟩
theorem SameScan.set_nvm {h k : Hub} (a : SameScan h k) {v} :
    SameScan h ⟨k.free, k.sys, k.isl, k.time, k.regions, k.cells, k.hubc, k.res, k.dig, k.xs, k.ens, k.casc, k.age, k.fab, k.sb, k.bc, k.jobs, k.mgt, k.cmd, k.prot, k.regs, k.mem, k.dma, k.trc, k.nid, k.log, k.boot, k.img, k.reports, k.posted, v⟩ := ⟨a.eq⟩
theorem SameScan.pair {α : Type} {h k : Hub} {x : α} {p : Hub × α} (e : p = (k, x)) (a : SameScan h p.1) : SameScan h k := by
  rw [e] at a; exact a
theorem SameScan.fst {α : Type} {h k : Hub} {x : α} (a : SameScan h k) : SameScan h (k, x).1 := a
theorem SameScan.snd {α : Type} {h k : Hub} {x : α} (a : SameScan h k) : SameScan h (x, k).2 := a
theorem SameScan.ite {h k l : Hub} {c : Prop} [Decidable c] (a : SameScan h k) (b : SameScan h l) : SameScan h (if c then k else l) := by
  split
  · exact a
  · exact b
theorem SameScan.ite1 {α : Type} {h : Hub} {k l : Hub × α} {c : Prop} [Decidable c] (a : SameScan h k.1) (b : SameScan h l.1) :
    SameScan h (if c then k else l).1 := by
  split
  · exact a
  · exact b
theorem SameScan.foldl {α : Type} {f : Hub → α → Hub} (hf : ∀ h x, SameScan h (f h x)) (l : List α) {h k : Hub} (a : SameScan h k) : SameScan h (l.foldl f k) := by
  induction l generalizing k with
  | nil => exact a
  | cons x t ih => exact ih (a.step (hf k x))
theorem SameScan.foldl1 {α β : Type} {f : Hub × β → α → Hub × β} (hf : ∀ p x, SameScan p.1 (f p x).1) (l : List α) {h : Hub} {k : Hub × β}
    (a : SameScan h k.1) : SameScan h (l.foldl f k).1 := by
  induction l generalizing k with
  | nil => exact a
  | cons x t ih => exact ih (a.step (hf k x))

theorem actDone_scan (a0 a1 a2 a3) : SameScan a3 (actDone a0 a1 a2 a3) := by
  unfold actDone
  exact (SameScan.step (SameScan.set_casc (SameScan.refl _) (by rfl)) (SameScan.of (emit_only ..) (by rfl)))

theorem onCasc_scan {f : Casc → Casc} (k : ∀ c, (f c).clock = c.clock) (h : Hub) : SameScan h (onCasc f h) := ⟨k h.casc⟩

theorem finishActs_scan (a0) : SameScan a0 (finishActs a0) := by
  unfold finishActs
  exact (SameScan.foldl (fun _ _ => (SameScan.step (SameScan.refl _) (actDone_scan ..))) _ (SameScan.step (SameScan.refl _) (onCasc_scan (by intro _; rfl) ..)))

theorem swapDone_scan (a0 a1 a2 a3) : SameScan a3 (swapDone a0 a1 a2 a3) := by
  unfold swapDone
  exact (by
    split
    · exact (SameScan.step (SameScan.refl _) (actDone_scan ..))
    · exact (SameScan.refl _))

theorem doSwap_scan (a0 a1 a2 a3) : SameScan a3 (doSwap a0 a1 a2 a3) := by
  unfold doSwap
  exact (SameScan.named (fun q1 =>
    (SameScan.ite (SameScan.step (SameScan.step q1 (SameScan.of (onSlot_only ..) (by rfl))) (SameScan.of (slotRecord_only ..) (by rfl))) (SameScan.ite (by
    split
    · exact q1
    · exact (SameScan.named (fun q2 =>
    (SameScan.step q2 (SameScan.of (onSlot_only ..) (by rfl))))
    (SameScan.step q1 (SameScan.of (slotRecord_only ..) (by rfl))))) (by
    split
    · exact q1
    · exact (SameScan.named (fun q2 =>
    (SameScan.step q2 (SameScan.of (onSlot_only ..) (by rfl))))
    (SameScan.step q1 (SameScan.of (slotRecord_only ..) (by rfl))))))))
    (SameScan.step (SameScan.refl _) (swapDone_scan ..)))

theorem doSwaps_scan (a0 a1 a2 a3) : SameScan a3 (doSwaps a0 a1 a2 a3) := by
  unfold doSwaps
  exact (SameScan.foldl (fun _ _ => (by
    split
    · exact (SameScan.ite (SameScan.step (SameScan.refl _) (doSwap_scan ..)) (SameScan.refl _))
    · exact (SameScan.refl _))) _ (SameScan.refl _))

theorem setPeriod_scan (a0 a1) : SameScan a1 (setPeriod a0 a1) := by
  unfold setPeriod
  exact (SameScan.ite (SameScan.refl _) (SameScan.step (SameScan.step (SameScan.refl _) (SameScan.of (emitState_only ..) (by rfl))) (onCasc_scan (by intro _; rfl) ..)))

theorem releaseJobs_scan (a0) : SameScan a0 (releaseJobs a0) := by
  unfold releaseJobs
  exact (SameScan.foldl (fun _ _ => (SameScan.named (fun q1 =>
    (SameScan.named (fun q2 =>
    (SameScan.step q2 (SameScan.of (emitUnit_only ..) (by rfl))))
    (SameScan.step q1 (onCasc_scan (by intro _; rfl) ..))))
    (SameScan.step (SameScan.refl _) (SameScan.of (onEns_only ..) (by rfl))))) _ (SameScan.refl _))

theorem takePolicy_scan (a0) : SameScan a0 (takePolicy a0) := by
  unfold takePolicy
  exact (SameScan.named (fun q1 =>
    (by
    try dsimp -proj only
    split
    · exact q1
    · exact (SameScan.named (fun q2 =>
    (SameScan.named (fun q3 =>
    (SameScan.ite (SameScan.step q3 (setPeriod_scan ..)) q3))
    (SameScan.step q2 (SameScan.of (onEns_only ..) (by rfl)))))
    (SameScan.step q1 (onCasc_scan (by intro _; rfl) ..)))))
    (SameScan.step (SameScan.refl _) (releaseJobs_scan ..)))

theorem onEnt_scan (a0 a1 a2) : SameScan a2 (onEnt a0 a1 a2) := by
  unfold onEnt
  exact (SameScan.set_casc (SameScan.refl _) (by rfl))

theorem actRecord_scan (a0 a1 a2 a3 a4 a5) : SameScan a5 (actRecord a0 a1 a2 a3 a4 a5) := by
  unfold actRecord
  exact (SameScan.named (fun q1 =>
    (SameScan.named (fun q2 =>
    (SameScan.named (fun q3 =>
    (SameScan.step q3 (onCasc_scan (by intro _; rfl) ..)))
    (SameScan.step q2 (SameScan.of (report_only ..) (by rfl)))))
    (SameScan.step q1 (SameScan.of (mark_only ..) (by rfl)))))
    (SameScan.step (SameScan.refl _) (SameScan.of (emit_only ..) (by rfl))))

theorem dueTest_scan (a0 a1 a2 a3 a4) : SameScan a4 (dueTest a0 a1 a2 a3 a4) := by
  unfold dueTest
  exact (SameScan.ite (SameScan.refl _) (SameScan.ite (SameScan.step (SameScan.refl _) (onEnt_scan ..)) (SameScan.ite (SameScan.ite (SameScan.step (SameScan.step (SameScan.step (SameScan.refl _) (actRecord_scan ..)) (actDone_scan ..)) (onEnt_scan ..)) (SameScan.step (SameScan.step (SameScan.refl _) (actRecord_scan ..)) (onEnt_scan ..))) (SameScan.step (SameScan.step (SameScan.refl _) (actRecord_scan ..)) (onEnt_scan ..)))))

theorem verdictEffects_scan (a0 a1 a2 a3 a4) : SameScan a4 (verdictEffects a0 a1 a2 a3 a4) := by
  unfold verdictEffects
  exact (SameScan.named (fun q1 =>
    (SameScan.named (fun q2 =>
    (SameScan.named (fun q3 =>
    (SameScan.ite (SameScan.foldl (fun _ _ => (SameScan.step (SameScan.refl _) (dueTest_scan ..))) _ q3) q3))
    (SameScan.ite (SameScan.step q2 (SameScan.of (noVote_only ..) (by rfl))) q2)))
    (SameScan.ite (SameScan.step (SameScan.step q1 (SameScan.of (noteRemoved_only ..) (by rfl))) (SameScan.of (refreshHolds_only ..) (by rfl))) q1)))
    (by
    split
    · exact (SameScan.step (SameScan.refl _) (SameScan.of (onHubc_only ..) (by rfl)))
    · exact (SameScan.refl _)))

theorem takeReceived_scan (e : Env) (x : Word) (m : Nat × Nat × Nat × Word × Nat × Nat) (h : Hub) : SameScan h (takeReceived e x m h) := by
  unfold takeReceived
  exact SameScan.named (fun q1 => SameScan.named (fun q2 => SameScan.step (SameScan.step (SameScan.step q2 (onCasc_scan (by intro _; rfl) ..)) (onEnt_scan ..))
    (verdictEffects_scan ..)) (SameScan.ite (SameScan.step q1 (SameScan.of (irq_only ..) (by rfl))) q1))
    (SameScan.step (SameScan.step (SameScan.refl _) (SameScan.of (verdictRecord_only ..) (by rfl))) (SameScan.of (verdictMark_only ..) (by rfl)))

theorem applyReceived_scan (a0 a1 a2) : SameScan a2 (applyReceived a0 a1 a2) := by
  unfold applyReceived
  exact (SameScan.foldl (fun _ _ => (SameScan.step (SameScan.refl _) (takeReceived_scan ..))) _ (SameScan.step (SameScan.refl _) (onEnt_scan ..)))

theorem detEntity_scan (a0 a1 a2 a3 a4) : SameScan a4 (detEntity a0 a1 a2 a3 a4) := by
  unfold detEntity
  exact (SameScan.named (fun q1 =>
    (SameScan.ite (SameScan.step q1 (SameScan.of (featWrite_only ..) (by rfl))) q1))
    (SameScan.step (SameScan.step (SameScan.refl _) (onCasc_scan (by intro _; rfl) ..)) (SameScan.of (featWrites_only ..) (by rfl))))

theorem detBoundary_scan (a0 a1 a2) : SameScan a2 (detBoundary a0 a1 a2) := by
  unfold detBoundary
  exact (SameScan.foldl (fun _ _ => (SameScan.foldl (fun _ _ => (SameScan.step (SameScan.refl _) (detEntity_scan ..))) _ (SameScan.refl _))) _ (SameScan.refl _))

theorem scanFeatures_scan (a0 a1) : SameScan a1 (scanFeatures a0 a1) := by
  unfold scanFeatures
  exact (SameScan.named (fun q1 =>
    (SameScan.named (fun q2 =>
    (SameScan.named (fun q3 =>
    (SameScan.named (fun q4 =>
    (SameScan.named (fun q5 =>
    (SameScan.foldl (fun _ _ => (SameScan.step (SameScan.refl _) (SameScan.of (onHubc_only ..) (by rfl)))) _ q5))
    (SameScan.foldl (fun _ _ => (SameScan.step (SameScan.refl _) (SameScan.of (regionFigures_only ..) (by rfl)))) _ q4)))
    (SameScan.step q3 (SameScan.of (busyRatios_only ..) (by rfl)))))
    (SameScan.step q2 (detBoundary_scan ..))))
    (SameScan.step q1 (SameScan.of (linkFeatures_only ..) (by rfl)))))
    (SameScan.foldl (fun _ _ => (SameScan.step (SameScan.step (SameScan.refl _) (SameScan.of (coreCounts_only ..) (by rfl))) (SameScan.of (residueFeatures_only ..) (by rfl)))) _ (SameScan.refl _)))

theorem unitCount_scan (a0 a1 a2) : SameScan a2 (unitCount a0 a1 a2) := by
  unfold unitCount
  exact (SameScan.named (fun q1 =>
    (SameScan.step q1 (SameScan.of (featWrite_only ..) (by rfl))))
    (SameScan.step (SameScan.set_casc (SameScan.refl _) (by rfl)) (SameScan.of (irq_only ..) (by rfl))))

theorem unitFault_scan (a0 a1 a2 a3 a4 a5 a6) : SameScan a6 (unitFault a0 a1 a2 a3 a4 a5 a6) := by
  unfold unitFault
  exact (SameScan.step (SameScan.step (SameScan.refl _) (SameScan.of (emit_only ..) (by rfl))) (unitCount_scan ..))

theorem regionHealth_scan (a0 a1 a2) : SameScan a2 (regionHealth a0 a1 a2) := by
  unfold regionHealth
  exact (SameScan.ite (SameScan.foldl (fun _ _ => (SameScan.step (SameScan.refl _) (SameScan.of (onHubc_only ..) (by rfl)))) _ (SameScan.step (SameScan.refl _) (SameScan.of (onRegion_only ..) (by rfl)))) (SameScan.named (fun q1 =>
    (SameScan.ite (SameScan.step (SameScan.step (SameScan.step q1 (SameScan.of (onRegion_only ..) (by rfl))) (unitFault_scan ..)) (SameScan.of (unitFlag_only ..) (by rfl))) q1))
    (SameScan.step (SameScan.refl _) (SameScan.of (onRegion_only ..) (by rfl)))))

theorem regionScan_scan (a0 a1 a2) : SameScan a2 (regionScan a0 a1 a2) := by
  unfold regionScan
  exact (SameScan.named (fun q1 =>
    (SameScan.named (fun q2 =>
    (SameScan.ite q2 (SameScan.ite (SameScan.step q2 (SameScan.of (onRegion_only ..) (by rfl))) (SameScan.step q2 (SameScan.of (beginFull_only ..) (by rfl))))))
    (SameScan.step q1 (SameScan.of (onRegion_only ..) (by rfl)))))
    (SameScan.step (SameScan.refl _) (regionHealth_scan ..)))

theorem startTest_scan (a0 a1 a2 a3) : SameScan a3 (startTest a0 a1 a2 a3) := by
  unfold startTest
  exact (SameScan.named (fun q1 =>
    (SameScan.named (fun q2 =>
    (SameScan.named (fun q3 =>
    (SameScan.named (fun q4 =>
    (SameScan.named (fun q5 =>
    (SameScan.step q5 (SameScan.of (sendNotice_only ..) (by rfl))))
    (SameScan.step q4 (SameScan.of (refreshHold_only ..) (by rfl)))))
    (SameScan.step q3 (onEnt_scan ..))))
    (SameScan.step q2 (onCasc_scan (by intro _; rfl) ..))))
    (SameScan.ite (SameScan.step q1 (SameScan.of (emitUnit_only ..) (by rfl))) q1)))
    (by
    split
    · exact (SameScan.step (SameScan.refl _) (actDone_scan ..))
    · exact (SameScan.refl _)))

theorem startTests_scan (a0 a1 a2) : SameScan a2 (startTests a0 a1 a2) := by
  unfold startTests
  exact (SameScan.foldl (fun _ _ => (SameScan.step (SameScan.refl _) (startTest_scan ..))) _ (SameScan.refl _))

theorem raiseAct_scan (a0 a1 a2 a3 a4 a5) : SameScan a5 (raiseAct a0 a1 a2 a3 a4 a5) := by
  unfold raiseAct
  exact (SameScan.ite (SameScan.refl _) (SameScan.ite (SameScan.step (SameScan.refl _) (actRecord_scan ..)) (SameScan.ite (SameScan.step (SameScan.step (SameScan.step (SameScan.refl _) (actRecord_scan ..)) (actDone_scan ..)) (onEnt_scan ..)) (SameScan.ite (SameScan.step (SameScan.refl _) (onEnt_scan ..)) (SameScan.step (SameScan.step (SameScan.refl _) (actRecord_scan ..)) (onCasc_scan (by intro _; rfl) ..))))))

theorem setVerdict_scan (a0 a1 a2 a3 a4) : SameScan a4 (setVerdict a0 a1 a2 a3 a4) := by
  unfold setVerdict
  exact (SameScan.ite (SameScan.refl _) (SameScan.named (fun q1 =>
    (SameScan.named (fun q2 =>
    (SameScan.named (fun q3 =>
    (SameScan.named (fun q4 =>
    (SameScan.named (fun q5 =>
    (SameScan.named (fun q6 =>
    (SameScan.ite (SameScan.foldl (fun _ _ => (SameScan.step (SameScan.refl _) (SameScan.of (memberVerdict_only ..) (by rfl)))) _ q6) q6))
    (SameScan.step (SameScan.step q5 (raiseAct_scan ..)) (verdictEffects_scan ..))))
    (SameScan.step q4 (onEnt_scan ..))))
    (SameScan.step (SameScan.step q3 (onCasc_scan (by intro _; rfl) ..)) (SameScan.of (report_only ..) (by rfl)))))
    (SameScan.ite (SameScan.step q2 (SameScan.of (irq_only ..) (by rfl))) q2)))
    (SameScan.step q1 (SameScan.of (verdictMark_only ..) (by rfl)))))
    (SameScan.step (SameScan.refl _) (SameScan.of (verdictRecord_only ..) (by rfl)))))

theorem boundaryFloor_scan (a0 a1 a2) : SameScan a2 (boundaryFloor a0 a1 a2) := by
  unfold boundaryFloor
  exact (SameScan.ite (SameScan.refl _) (SameScan.named (fun q1 =>
    (SameScan.step q1 (setVerdict_scan ..)))
    (SameScan.ite (SameScan.step (SameScan.refl _) (onEnt_scan ..)) (SameScan.refl _))))

theorem removeNow_scan (a0 a1 a2 a3 a4) : SameScan a4 (removeNow a0 a1 a2 a3 a4) := by
  unfold removeNow
  exact (SameScan.named (fun q1 =>
    (SameScan.ite q1 (SameScan.step q1 (SameScan.of (countRemoval_only ..) (by rfl)))))
    (SameScan.step (SameScan.step (SameScan.refl _) (onEnt_scan ..)) (setVerdict_scan ..)))

theorem endPending_scan (a0 a1 a2) : SameScan a2 (endPending a0 a1 a2) := by
  unfold endPending
  exact (SameScan.ite (SameScan.refl _) (SameScan.step (SameScan.step (SameScan.refl _) (actDone_scan ..)) (onEnt_scan ..)))

theorem limitPending_scan (a0) : SameScan a0 (limitPending a0) := by
  unfold limitPending
  exact (SameScan.ite (SameScan.refl _) (by
    split
    · exact (SameScan.step (SameScan.refl _) (endPending_scan ..))
    · exact (SameScan.refl _)))

theorem autoRemove_scan (a0 a1 a2 a3 a4 a5) : SameScan a5 (autoRemove a0 a1 a2 a3 a4 a5) := by
  unfold autoRemove
  exact (SameScan.ite (SameScan.ite (SameScan.refl _) (SameScan.step (SameScan.step (SameScan.refl _) (actRecord_scan ..)) (onEnt_scan ..))) (SameScan.named (fun q1 =>
    (SameScan.ite (SameScan.step q1 (actDone_scan ..)) (SameScan.ite (SameScan.step (SameScan.step (SameScan.step q1 (endPending_scan ..)) (removeNow_scan ..)) (actDone_scan ..)) (SameScan.named (fun q2 =>
    (SameScan.named (fun q3 =>
    (SameScan.step (SameScan.ite (SameScan.step (SameScan.step q3 (setVerdict_scan ..)) (SameScan.of (subsumed_only ..) (by rfl))) (SameScan.step q3 (setVerdict_scan ..))) (limitPending_scan ..)))
    (SameScan.step (SameScan.step q2 (onCasc_scan (by intro _; rfl) ..)) (onEnt_scan ..))))
    (SameScan.step q1 (endPending_scan ..))))))
    (SameScan.step (SameScan.refl _) (actRecord_scan ..))))

theorem takeRemovals_scan (a0 a1 a2) : SameScan a2 (takeRemovals a0 a1 a2) := by
  unfold takeRemovals
  exact (SameScan.foldl (fun _ _ => (SameScan.ite (SameScan.ite (SameScan.step (SameScan.step (SameScan.refl _) (removeNow_scan ..)) (endPending_scan ..)) (SameScan.refl _)) (SameScan.step (SameScan.refl _) (autoRemove_scan ..)))) _ (SameScan.refl _))

theorem boundaryRemoval_scan (a0 a1) : SameScan a0 (boundaryRemoval a0 a1).1 := by
  unfold boundaryRemoval
  exact (SameScan.ite1 (SameScan.fst (SameScan.refl _)) (SameScan.ite1 (SameScan.fst (SameScan.refl _)) (SameScan.ite1 (SameScan.fst (SameScan.refl _)) (SameScan.fst (SameScan.step (SameScan.refl _) (endPending_scan ..))))))

theorem boundaryVerdicts_scan (a0 a1) : SameScan a1 (boundaryVerdicts a0 a1) := by
  unfold boundaryVerdicts
  exact (SameScan.named (fun q1 =>
    (SameScan.named (fun q2 =>
    (SameScan.foldl (fun _ _ => (SameScan.ite (SameScan.foldl (fun _ _ => (SameScan.step (SameScan.refl _) (SameScan.of (subsumed_only ..) (by rfl)))) _ (SameScan.refl _)) (SameScan.step (SameScan.refl _) (boundaryFloor_scan ..)))) _ q2))
    (SameScan.step q1 (takeRemovals_scan ..))))
    (SameScan.foldl1 (fun _ _ => (SameScan.named (fun q1 =>
    (SameScan.fst q1))
    (SameScan.step (SameScan.refl _) (boundaryRemoval_scan ..)))) _ (SameScan.fst (SameScan.refl _))))

theorem autoAct_scan {e : Env} {row kind : Nat} {x cause : Word} {f : Hub → Hub} {h k : Hub} (a : SameScan h k) (hf : ∀ x, SameScan x (f x)) :
    SameScan h (autoAct e row kind x cause f k) := by
  unfold autoAct
  exact SameScan.ite (SameScan.step a (actRecord_scan ..)) (SameScan.named (fun hq => SameScan.ite (SameScan.step hq (actDone_scan ..))
    (SameScan.step (hq.step (hf _)) (actDone_scan ..))) (SameScan.step a (actRecord_scan ..)))

theorem cascPass_scan {e : Env} {slot : Option Nat} {use : PassUse} {todo : List Word} {tb : Nat} {fin : Pass → Hub → Hub} {h k : Hub}
    (a : SameScan h k) (hf : ∀ p x, SameScan x (fin p x)) : SameScan h (cascPass e slot use todo tb fin k) := by
  unfold cascPass
  dsimp only
  split
  · exact SameScan.step a (SameScan.of (onEns_only ..) (by rfl))
  · split
    · exact SameScan.step a (SameScan.of (askPass_only (by assumption)) (by rfl))
    · exact (SameScan.step a (SameScan.of (askPass_empty_only (by assumption)) (by rfl))).step (hf _ _)
    · exact SameScan.step a (SameScan.of (onEns_only ..) (by rfl))

theorem startProbe_scan (a0 a1 a2) : SameScan a2 (startProbe a0 a1 a2) := by
  unfold startProbe
  exact (SameScan.named (fun q1 =>
    (autoAct_scan q1 (fun _ => (SameScan.named (fun q1 =>
    (SameScan.named (fun q2 =>
    (SameScan.step (SameScan.step q2 (SameScan.of (refreshHold_only ..) (by rfl))) (SameScan.of (sendNotice_only ..) (by rfl))))
    (SameScan.set_age q1)))
    (SameScan.step (SameScan.refl _) (onCasc_scan (by intro _; rfl) ..))))))
    (SameScan.step (SameScan.refl _) (SameScan.of (onHubc_only ..) (by rfl))))

theorem startProbes_scan (a0 a1) : SameScan a1 (startProbes a0 a1) := by
  unfold startProbes
  exact (SameScan.foldl (fun _ _ => (SameScan.step (SameScan.refl _) (startProbe_scan ..))) _ (SameScan.refl _))

theorem setBase_scan (a0 a1 a2 a3 a4) : SameScan a4 (setBase a0 a1 a2 a3 a4) := by
  unfold setBase
  exact (SameScan.named (fun q1 =>
    (SameScan.step q1 (setVerdict_scan ..)))
    (SameScan.step (SameScan.refl _) (onEnt_scan ..)))

theorem withhold_scan (a0 a1 a2 a3) : SameScan a3 (withhold a0 a1 a2 a3) := by
  unfold withhold
  exact (SameScan.step (SameScan.refl _) (actRecord_scan ..))

theorem spikeAct_scan (a0 a1 a2 a3 a4) : SameScan a4 (spikeAct a0 a1 a2 a3 a4) := by
  unfold spikeAct
  exact (SameScan.ite (SameScan.step (SameScan.step (SameScan.step (SameScan.refl _) (SameScan.of (emitUnit_only ..) (by rfl))) (onCasc_scan (by intro _; rfl) ..)) (SameScan.of (onSlot_only ..) (by rfl))) (SameScan.ite (SameScan.step (SameScan.refl _) (actRecord_scan ..)) (SameScan.named (fun q1 =>
    (SameScan.ite (SameScan.step q1 (actDone_scan ..)) (SameScan.named (fun q2 =>
    (SameScan.step (SameScan.step q2 (onCasc_scan (by intro _; rfl) ..)) (SameScan.of (onSlot_only ..) (by rfl))))
    (SameScan.step q1 (swapDone_scan ..)))))
    (SameScan.step (SameScan.refl _) (actRecord_scan ..)))))

theorem applyChanges_scan (a0 a1 a2 a3 a4 a5) : SameScan a5 (applyChanges a0 a1 a2 a3 a4 a5) := by
  unfold applyChanges
  exact (SameScan.named (fun q1 =>
    (SameScan.named (fun q2 =>
    (SameScan.named (fun q3 =>
    (SameScan.step q3 (takeRemovals_scan ..)))
    (SameScan.foldl (fun _ _ => (SameScan.named (fun q1 =>
    (SameScan.ite (SameScan.step q1 (SameScan.of (subsumed_only ..) (by rfl))) q1))
    (SameScan.step (SameScan.refl _) (setBase_scan ..)))) _ q2)))
    (SameScan.foldl (fun _ _ => (SameScan.step (SameScan.refl _) (withhold_scan ..))) _ q1)))
    (SameScan.ite (SameScan.refl _) (SameScan.named (fun q1 =>
    (SameScan.step (SameScan.foldl (fun _ _ => (SameScan.step (SameScan.refl _) (withhold_scan ..))) _ q1) (spikeAct_scan ..)))
    (SameScan.step (SameScan.step (SameScan.refl _) (SameScan.of (emitUnit_only ..) (by rfl))) (SameScan.of (irq_only ..) (by rfl))))))

theorem takeBase_scan (a0 a1) : SameScan a1 (takeBase a0 a1) := by
  unfold takeBase
  exact (SameScan.step (SameScan.refl _) (onCasc_scan (by intro _; rfl) ..))

theorem noteClear_scan (a0 a1) : SameScan a1 (noteClear a0 a1) := by
  unfold noteClear
  exact (SameScan.foldl (fun _ _ => (SameScan.ite (SameScan.refl _) (SameScan.named (fun q1 =>
    (SameScan.ite (SameScan.step q1 (takeBase_scan ..)) q1))
    (SameScan.step (SameScan.refl _) (onEnt_scan ..))))) _ (SameScan.refl _))

theorem enterScores_scan (a0 a1) : SameScan a1 (enterScores a0 a1).1 := by
  unfold enterScores
  exact (SameScan.foldl1 (fun _ _ => (by
    split
    · exact (SameScan.fst (SameScan.step (SameScan.refl _) (onCasc_scan (by intro _; rfl) ..)))
    · exact (SameScan.fst (SameScan.step (SameScan.refl _) (onEnt_scan ..))))) _ (SameScan.fst (SameScan.refl _)))

theorem applyPass_scan (a0 a1 a2 a3) : SameScan a3 (applyPass a0 a1 a2 a3) := by
  unfold applyPass
  exact (SameScan.named (fun q1 =>
    (SameScan.step (SameScan.step q1 (applyChanges_scan ..)) (noteClear_scan ..)))
    (SameScan.step (SameScan.refl _) (enterScores_scan ..)))

theorem judgePass_scan (a0 a1 a2) : SameScan a2 (judgePass a0 a1 a2) := by
  unfold judgePass
  exact (SameScan.ite (SameScan.named (fun q1 =>
    (SameScan.ite (SameScan.step (SameScan.step q1 (onCasc_scan (by intro _; rfl) ..)) (setPeriod_scan ..)) q1))
    (SameScan.step (SameScan.refl _) (SameScan.of (overrunAt_only ..) (by rfl)))) (SameScan.ite (SameScan.ite (SameScan.step (SameScan.step (SameScan.refl _) (onCasc_scan (by intro _; rfl) ..)) (setPeriod_scan ..)) (SameScan.step (SameScan.refl _) (onCasc_scan (by intro _; rfl) ..))) (SameScan.step (SameScan.refl _) (onCasc_scan (by intro _; rfl) ..))))

theorem unscored_scan (a0 a1) : SameScan a1 (unscored a0 a1) := by
  unfold unscored
  exact (SameScan.foldl (fun _ _ => (SameScan.step (SameScan.step (SameScan.refl _) (onCasc_scan (by intro _; rfl) ..)) (SameScan.of (emitUnit_only ..) (by rfl)))) _ (SameScan.refl _))

theorem markUnconf_scan (a0 a1 a2) : SameScan a2 (markUnconf a0 a1 a2) := by
  unfold markUnconf
  exact (SameScan.foldl (fun _ _ => (SameScan.step (SameScan.refl _) (onEnt_scan ..))) _ (SameScan.refl _))

theorem soloScreen_scan (e : Env) (p : Pass) (h : Hub) : SameScan h (soloScreen e p h) := by
  unfold soloScreen
  dsimp only
  split
  · exact SameScan.step (SameScan.step (SameScan.refl _) (markUnconf_scan ..)) (applyPass_scan ..)
  · split
    · exact SameScan.step (SameScan.of (askPass_only (by assumption)) (by rfl)) (onCasc_scan (by intro _; rfl) ..)
    · exact SameScan.step (SameScan.step (SameScan.step (SameScan.refl _) (SameScan.of (onEns_only ..) (by rfl))) (markUnconf_scan ..)) (applyPass_scan ..)

theorem rhizStart_scan (a0 a1) : SameScan a1 (rhizStart a0 a1) := by
  unfold rhizStart
  exact (by
    try dsimp -proj only
    split
    · exact (SameScan.named (fun q1 =>
    (SameScan.named (fun q2 =>
    (SameScan.named (fun q3 =>
    (SameScan.foldl (fun _ _ => (SameScan.foldl (fun _ _ => (SameScan.step (SameScan.refl _) (SameScan.of (photenSend_only ..) (by rfl)))) _ (SameScan.refl _))) _ q3))
    (SameScan.step q2 (onCasc_scan (by intro _; rfl) ..))))
    (by
    split
    · exact (SameScan.step q1 (unscored_scan ..))
    · exact q1)))
    (SameScan.step (SameScan.refl _) (detBoundary_scan ..)))
    · exact (SameScan.named (fun q1 =>
    (cascPass_scan q1 (fun _ _ => (SameScan.step (SameScan.refl _) (soloScreen_scan ..)))))
    (SameScan.step (SameScan.refl _) (detBoundary_scan ..))))

theorem detWindow_scan (a0) : SameScan a0 (detWindow a0) := by
  unfold detWindow
  exact (SameScan.step (SameScan.refl _) (onCasc_scan (by intro _; rfl) ..))

theorem judgeLoad_scan (a0 a1 a2) : SameScan a2 (judgeLoad a0 a1 a2) := by
  unfold judgeLoad
  exact (SameScan.ite (SameScan.refl _) (SameScan.ite (autoAct_scan (SameScan.step (SameScan.refl _) (SameScan.of (onXs_only ..) (by rfl)))
    (fun _ => (SameScan.step (SameScan.refl _) (SameScan.of (setSpan_only ..) (by rfl))))) (SameScan.ite (SameScan.step (SameScan.refl _) (SameScan.of (setSpan_only ..) (by rfl))) (SameScan.refl _))))

theorem defeated_scan (a0 a1 a2 a3 a4) : SameScan a4 (defeated a0 a1 a2 a3 a4) := by
  unfold defeated
  exact (SameScan.ite (SameScan.named (fun q1 =>
    (SameScan.step (SameScan.step (SameScan.step q1 (SameScan.of (onRange_only ..) (by rfl))) (SameScan.of (onMem_only ..) (by rfl))) (SameScan.of (report_only ..) (by rfl))))
    (SameScan.step (SameScan.refl _) (SameScan.of (emit_only ..) (by rfl)))) (SameScan.ite (SameScan.refl _) (SameScan.ite (SameScan.step (SameScan.step (SameScan.refl _) (actRecord_scan ..)) (SameScan.of (onRange_only ..) (by rfl))) (SameScan.named (fun q1 =>
    (SameScan.step (SameScan.step (SameScan.step q1 (SameScan.of (onRange_only ..) (by rfl))) (SameScan.of (onMem_only ..) (by rfl))) (SameScan.of (report_only ..) (by rfl))))
    (SameScan.step (SameScan.step (SameScan.refl _) (actRecord_scan ..)) (SameScan.of (emit_only ..) (by rfl)))))))

theorem judgeRange_scan (a0 a1 a2) : SameScan a1 (judgeRange a0 a1 a2) := by
  unfold judgeRange
  exact (by
    split
    · exact (SameScan.refl _)
    · exact (SameScan.named (fun q1 =>
    (SameScan.ite (SameScan.step q1 (defeated_scan ..)) q1))
    (SameScan.step (SameScan.refl _) (SameScan.of (onRange_only ..) (by rfl)))))

theorem judgeMemory_scan (a0 a1) : SameScan a1 (judgeMemory a0 a1) := by
  unfold judgeMemory
  exact (SameScan.foldl (fun _ _ => (SameScan.step (SameScan.refl _) (judgeRange_scan ..))) _ (SameScan.refl _))

theorem windowServing_scan (a0 a1 a2) : SameScan a2 (windowServing a0 a1 a2) := by
  unfold windowServing
  exact (SameScan.named (fun q1 =>
    (SameScan.named (fun q2 =>
    (SameScan.named (fun q3 =>
    (SameScan.named (fun q4 =>
    (SameScan.named (fun q5 =>
    (SameScan.ite (SameScan.step (SameScan.step (SameScan.step (SameScan.step (SameScan.step q5 (finishActs_scan ..)) (takePolicy_scan ..)) (SameScan.of (stepLags_only ..) (by rfl))) (boundaryVerdicts_scan ..)) (rhizStart_scan ..)) q5))
    (SameScan.step (SameScan.step q4 (detWindow_scan ..)) (SameScan.of (ageWindow_only ..) (by rfl)))))
    (SameScan.step q3 (judgeLoad_scan ..))))
    (SameScan.ite (SameScan.step q2 (SameScan.of (openPeriodic_only ..) (by rfl))) (SameScan.step q2 (SameScan.of (contributeAll_only ..) (by rfl))))))
    (SameScan.step q1 (SameScan.of (takeLoad_only ..) (by rfl)))))
    (SameScan.step (SameScan.step (SameScan.refl _) (SameScan.of (reportMgt_only ..) (by rfl))) (judgeMemory_scan ..)))

theorem forgetBase_scan (a0 a1 a2 a3) : SameScan a3 (forgetBase a0 a1 a2 a3) := by
  unfold forgetBase
  exact (SameScan.step (SameScan.refl _) (onCasc_scan (by intro _; rfl) ..))

theorem applyChange_scan (a0 a1 a2) : SameScan a2 (applyChange a0 a1 a2) := by
  unfold applyChange
  exact (SameScan.named (fun q1 =>
    (SameScan.named (fun q2 =>
    (SameScan.ite (SameScan.step (SameScan.step (SameScan.step q2 (forgetBase_scan ..)) (onCasc_scan (by intro _; rfl) ..)) (SameScan.of (onEns_only ..) (by rfl))) q2))
    (SameScan.ite q1 (SameScan.step q1 (forgetBase_scan ..)))))
    (SameScan.set_jobs (SameScan.refl _)))

theorem applyMembership_scan (a0) : SameScan a0 (applyMembership a0) := by
  unfold applyMembership
  exact (SameScan.named (fun q1 =>
    (SameScan.foldl (fun _ _ => (SameScan.step (SameScan.refl _) (applyChange_scan ..))) _ q1))
    (SameScan.set_jobs (SameScan.refl _)))

end Sys2Proof.Machine
end

