-- ==== Sys2Proof/Laws/Casc.lean ====
section
/-!
SUPPORT. What the verdict unit's operations leave alone: verdicts, tests and floors.
-/
namespace Sys2Proof.Machine

/-! Verdicts. -/

theorem entity_onEnt_self (x : Word) (f : Ent → Ent) (h : Hub) : entity (onEnt x f h) x = f (entity h x) := by simp [entity, onEnt]
theorem entity_onEnt_ne {x y : Word} (f : Ent → Ent) (h : Hub) (n : y ≠ x) : entity (onEnt x f h) y = entity h y := by
  have m : y.toNat ≠ x.toNat := fun z => n (BitVec.eq_of_toNat_eq z)
  simp [entity, onEnt, Tab.getD_put_ne _ _ _ _ _ m]
@[simp] theorem onEnt_judged (x : Word) (f : Ent → Ent) (h : Hub) (y : Word) (k : (f (entity h x)).verdict = (entity h x).verdict) :
    (entity (onEnt x f h) y).verdict = (entity h y).verdict := by
  by_cases n : y = x
  · subst n; rw [entity_onEnt_self, k]
  · rw [entity_onEnt_ne _ _ n]
theorem entity_onCasc (f : Casc → Casc) (h : Hub) (y : Word) (k : (f h.casc).ents = h.casc.ents) : entity (onCasc f h) y = entity h y := by
  unfold entity onCasc; rw [k]
theorem entity_of_ents {h k : Hub} (a : k.casc.ents = h.casc.ents) (y : Word) : entity k y = entity h y := by unfold entity; rw [a]
theorem entity_of_casc {h k : Hub} (a : k.casc = h.casc) (y : Word) : entity k y = entity h y := entity_of_ents (congrArg Casc.ents a) y

@[simp] theorem Ent.ite_verdict {p : Prop} [Decidable p] (h k : Ent) : (if p then h else k).verdict = if p then h.verdict else k.verdict := by split <;> rfl
theorem foldl_judged {α : Type} (f : Hub → α → Hub) (l : List α) (h : Hub) (y : Word) (k : ∀ h x, (entity (f h x) y).verdict = (entity h y).verdict) :
    (entity (l.foldl f h) y).verdict = (entity h y).verdict := by
  induction l generalizing h with
  | nil => rfl
  | cons x t ih => exact (ih _).trans (k h x)

@[simp] theorem verdictRecord_casc (a b c d e f g i j h) : (verdictRecord a b c d e f g i j h).casc = h.casc := (verdictRecord_only ..).keep .casc (by decide)
@[simp] theorem verdictMark_casc (a b c d h) : (verdictMark a b c d h).casc = h.casc := (verdictMark_only ..).keep .casc (by decide)
@[simp] theorem actRecord_ent (a b c d f h y) : entity (actRecord a b c d f h) y = entity h y := by
  unfold actRecord
  rw [entity_onCasc _ _ _ rfl]
  exact entity_of_casc (by simp) y
@[simp] theorem actDone_ent (a b c h y) : entity (actDone a b c h) y = entity h y := by
  unfold actDone
  exact entity_of_ents (by simp) y
@[simp] theorem raiseAct_judged (a b c d f h y) : (entity (raiseAct a b c d f h) y).verdict = (entity h y).verdict := by
  unfold raiseAct
  dsimp only
  simp only [entity_ite, Ent.ite_verdict, actRecord_ent]
  rw [onEnt_judged _ _ _ _ rfl, onEnt_judged _ _ _ _ rfl, entity_onCasc _ _ _ rfl]
  simp
@[simp] theorem dueTest_judged (a b c d h y) : (entity (dueTest a b c d h) y).verdict = (entity h y).verdict := by
  unfold dueTest
  dsimp only
  simp only [entity_ite, Ent.ite_verdict]
  rw [onEnt_judged _ _ _ _ rfl, onEnt_judged _ _ _ _ rfl, onEnt_judged _ _ _ _ rfl, onEnt_judged _ _ _ _ rfl]
  simp
@[simp] theorem noVote_ent (x h y) : entity (noVote x h) y = entity h y := entity_of_casc (by unfold noVote; simp) y
@[simp] theorem verdictEffects_judged (a b c d h y) : (entity (verdictEffects a b c d h) y).verdict = (entity h y).verdict := by
  unfold verdictEffects
  dsimp only
  have F : ∀ k : Hub, (entity (if d = 4 ∧ kindOf b ≤ 2 then (coresOf a k b).foldl (fun h c => dueTest a c 0 none h) k else k) y).verdict = (entity k y).verdict := by
    intro k
    split
    · exact foldl_judged _ _ _ _ (fun h i => dueTest_judged ..)
    · rfl
  rw [F]
  refine congrArg Ent.verdict ?_
  rw [entity_ite, noVote_ent, ite_self]
  exact entity_of_casc (by cases ownCore a h b <;> simp) y

/-- A change of verdict changes that entity's verdict and no other's (R318). -/
theorem setVerdict_verdict (e : Env) (x : Word) (v c : Nat) (h : Hub) :
    (entity (setVerdict e x v c h) x).verdict = v ∧ ∀ y, y ≠ x → (entity (setVerdict e x v c h) y).verdict = (entity h y).verdict := by
  unfold setVerdict
  dsimp only
  split
  · rename_i a; exact ⟨a, fun _ _ => rfl⟩
  · have T : ∀ (k : Hub) (l : List Nat) (m : VerdictMsg) (y : Word), entity (if e.tray = true then l.foldl (fun h d => memberVerdict e d m h) k else k) y = entity k y :=
      fun k l m y => entity_of_casc (by split <;> simp) y
    refine ⟨?_, fun y n => ?_⟩
    · rw [T, verdictEffects_judged, raiseAct_judged, entity_onEnt_self]
    · rw [T, verdictEffects_judged, raiseAct_judged, entity_onEnt_ne _ _ n]
      refine congrArg Ent.verdict (entity_of_ents ?_ y)
      simp [onCasc]

@[simp] theorem endPending_judged (x r h y) : (entity (endPending x r h) y).verdict = (entity h y).verdict := by
  unfold endPending
  simp only [entity_ite, Ent.ite_verdict]
  rw [onEnt_judged _ _ _ _ rfl]
  simp
@[simp] theorem noteCmd_judged (x h y) : (entity (noteCmd x h) y).verdict = (entity h y).verdict := by
  unfold noteCmd
  rw [onEnt_judged _ _ _ _ rfl]

/-- A removal that a command makes: FENCE, or EXPEL where that stands already (R328). -/
theorem removeNow_verdict (e : Env) (x : Word) (v c : Nat) (h : Hub) :
    (entity (removeNow e x v c h) x).verdict = v ∧ ∀ y, y ≠ x → (entity (removeNow e x v c h) y).verdict = (entity h y).verdict := by
  unfold removeNow
  dsimp only
  have C : ∀ y, entity (if isRemoval (entity h x).verdict = true then setVerdict e x v c (onEnt x (fun s => { s with scoreV := v, down := 0 }) h) else
      countRemoval x (setVerdict e x v c (onEnt x (fun s => { s with scoreV := v, down := 0 }) h))) y =
      entity (setVerdict e x v c (onEnt x (fun s => { s with scoreV := v, down := 0 }) h)) y := fun y => entity_of_casc (by split <;> simp) y
  obtain ⟨p, q⟩ := setVerdict_verdict e x v c (onEnt x (fun s => { s with scoreV := v, down := 0 }) h)
  refine ⟨by rw [C, p], fun y n => ?_⟩
  rw [C, q y n, onEnt_judged _ _ _ _ rfl]

theorem cmdRemove_verdict (e : Env) (x : Word) (v : Nat) (h : Hub) :
    (entity (cmdRemove e x v h) x).verdict = worse (if isRemoval (entity h x).verdict then (entity h x).verdict else 0) v ∧
      ∀ y, y ≠ x → (entity (cmdRemove e x v h) y).verdict = (entity h y).verdict := by
  unfold cmdRemove
  dsimp only
  obtain ⟨p, q⟩ := removeNow_verdict e x (worse (if isRemoval (entity (endPending x 1 (noteCmd x h)) x).verdict then (entity (endPending x 1 (noteCmd x h)) x).verdict else 0) v)
    3 (endPending x 1 (noteCmd x h))
  exact ⟨by rw [p]; simp, fun y n => by rw [q y n]; simp⟩

theorem endFloors_ent (x : Word) (h : Hub) : (∀ y, (entity (endFloors x h) y).verdict = (entity h y).verdict) ∧
    (entity (endFloors x h) x).floors = (entity h x).floors.filter (fun f => decide (nowNs h ≤ f.tb)) := by
  unfold endFloors
  dsimp only
  have E : ∀ (l : List Floor) (y : Word), entity (l.foldl (fun h f => emitUnit 53 x 0 (w32 f.verdict :: w64 f.tb) h) h) y = entity h y :=
    fun l y => entity_of_casc (by simp) y
  refine ⟨fun y => ?_, ?_⟩
  · rw [onEnt_judged _ _ _ _ rfl, E]
  · rw [entity_onEnt_self, E]
    have n : ∀ l : List Floor, nowNs (l.foldl (fun h f => emitUnit 53 x 0 (w32 f.verdict :: w64 f.tb) h) h) = nowNs h := fun l => nowNs_congr (by simp)
    simp only [n]

/-! Tests. -/

/-- A test falls due on a core of a die in no job that has none due (R319). -/
theorem dueTest_idle {e : Env} {c : Nat} {i : Word} {q : Option (Nat × Nat)} {h : Hub} (a : (entity h (coreId e h c)).test = none) (b : jobOfDie h (dieNo e h) = none) :
    dueTest e c i q h = onEnt (coreId e h c) (fun s => { s with test := some { deadline := nowNs h + (policy h).deferral, ident := i, cond := q } }) h := by
  unfold dueTest
  dsimp only
  rw [if_neg (by rw [a]; decide), if_pos (by rw [b]; rfl)]

theorem testOf_congr {e : Env} {h k : Hub} {c : Nat} (a : k.img = h.img) (b : (entity k (coreId e h c)).test = (entity h (coreId e h c)).test) : testOf e k c = testOf e h c := by
  unfold testOf
  rw [coreId_congr e a, b]

theorem cancelTest_none (e : Env) (c : Nat) (h : Hub) : testOf e (cancelTest e c h) c = none := by
  unfold cancelTest
  cases q : testOf e h c with
  | none => exact q
  | some t =>
    dsimp only
    unfold testOf
    cases t.act with
    | none =>
      have i : coreId e (onEnt (coreId e h c) (fun s => { s with test := none }) h) c = coreId e h c := coreId_congr e rfl c
      rw [i, entity_onEnt_self]
    | some a =>
      have i : coreId e (onEnt (coreId e h c) (fun s => { s with test := none }) (actDone (coreId e h c) a 1 h)) c = coreId e h c := coreId_congr e (by simp) c
      rw [i, entity_onEnt_self]

theorem abortTest_test (e : Env) (c : Nat) (h : Hub) : testOf e (abortTest e c h) c = (testOf e h c).map (fun t => { t with running := none }) := by
  unfold abortTest testOf
  dsimp only
  simp only [refreshHold_reads, onEnt_reads, emitUnit_reads, entity_onEnt_self]

/-- Without a floor an entity's verdict is the one that stands (R317). -/
theorem setBase_verdict {e : Env} {x : Word} {v c : Nat} {h : Hub} (a : (entity h x).floors = []) : (entity (setBase e x v c h) x).verdict = v := by
  unfold setBase
  dsimp only
  have f : floorsNow (onEnt x (fun s => { s with scoreV := v, down := 0 }) h) x = [] := by
    unfold floorsNow
    rw [entity_onEnt_self]
    simp [a]
  rw [f]
  have w : worse v (highest (([] : List Floor).filter (fun f => !isRemoval f.verdict ||
      isRemoval (entity (onEnt x (fun s => { s with scoreV := v, down := 0 }) h) x).verdict))) = v := by
    unfold worse highest
    rw [if_neg]
    show ¬severity v < severity 0
    exact Nat.not_lt_zero _
  rw [w]
  exact (setVerdict_verdict ..).1

theorem refreshHold_lastTest (e : Env) (c : Nat) (h : Hub) (d : Nat) :
    (Sys2Proof.Machine.hubc (refreshHold e c h) d).lastTest = (Sys2Proof.Machine.hubc h d).lastTest := by
  have K : ∀ (i n : Nat) (h : Hub), (Sys2Proof.Machine.hubc (countCore c i h n) d).lastTest = (Sys2Proof.Machine.hubc h d).lastTest := fun i n h => by
    unfold countCore
    by_cases q : d = c
    · subst q; rw [hubc_onHubc_self]
    · rw [hubc_onHubc_ne _ _ q]
  unfold refreshHold applyHold closeTiles
  dsimp only
  split
  · rfl
  · split
    · rfl
    · split
      · split
        · rfl
        · exact K ..
      · rfl

/-- A test that passes is closed; a core whose verdict is TEST goes to WATCH (R325). -/
theorem endTest_pass {e : Env} {c : Nat} {h : Hub} :
    ((entity h (coreId e h c)).verdict ≠ 4 → (Sys2Proof.Machine.hubc (endTest e c false h) c).lastTest = nowNs h ∧ (entity (endTest e c false h) (coreId e h c)).test = none ∧
      (entity (endTest e c false h) (coreId e h c)).verdict = (entity h (coreId e h c)).verdict) ∧
    ((entity h (coreId e h c)).verdict = 4 → (entity h (coreId e h c)).floors = [] → (entity (endTest e c false h) (coreId e h c)).verdict = 1) := by
  unfold endTest
  simp only [Bool.false_eq_true, if_false]
  generalize z : onHubc c (fun y => { y with lastTest := nowNs h }) (histCore c (regionBin e (emitUnit 54 (coreId e h c) 0 [w32 c, w32 (b2n false)] h) (regionOf c)) .tpass 1 (nowNs h) (emitUnit 54 (coreId e h c) 0 [w32 c, w32 (b2n false)] h)) = k
  have k1 : ∀ y, entity k y = entity h y := fun y => by rw [← z]; simp
  have k2 : (Sys2Proof.Machine.hubc k c).lastTest = nowNs h := by rw [← z]; simp
  generalize coreId e h c = x
  have k3 : ∀ y, (entity (onEnt x (fun s => { s with test := none }) k) y).verdict = (entity h y).verdict := fun y => by rw [onEnt_judged _ _ _ _ rfl, k1]
  refine ⟨fun a => ?_, fun a b => ?_⟩
  · rw [if_neg (by rw [k3]; exact a)]
    simp only [refreshHold_reads, entity_onEnt_self, k1, refreshHold_lastTest]
    exact ⟨k2, trivial, trivial⟩
  · rw [if_pos (by rw [k3]; exact a)]
    simp only [refreshHold_reads]
    exact setBase_verdict (by rw [entity_onEnt_self, k1]; exact b)

end Sys2Proof.Machine
end

