-- ==== Sys2Proof/Laws/Ens.lean ====
section
/-!
SUPPORT. Ensembles: the slots, passes, loads and rows that the commands move, said once.
-/
namespace Sys2Proof.Machine

theorem guard_pos {b : Bool} {f : Hub → Hub} {h : Hub} (q : b = true) : Sys2Proof.Machine.guard b f h = f h := by rw [q]; rfl

theorem autoAct_id_ent (e : Env) (row kind : Nat) (x cause : Word) (h : Hub) (y : Word) : entity (autoAct e row kind x cause id h) y = entity h y := by
  unfold autoAct
  dsimp only
  split
  · exact actRecord_ent ..
  · split
    · rw [actDone_ent, actRecord_ent]
    · rw [actDone_ent, id, actRecord_ent]

theorem askPass_taken {e : Env} {slot : Nat} {use : PassUse} {todo : List Word} {tb : Nat} {h : Hub} {g : Gen} (a : (slotAt h slot).active = some g)
    (b : h.ens.passes.length < 8) (c : e.tray = false ∨ use.tenantJob.isSome = true) (n : todo ≠ []) : askPass e slot use todo tb h = .taken (onEns (fun s => { s with
      passes := s.passes ++ [{ slot := slot, use := use, todo := todo, gen := g, tb := tb, period := h.casc.p, seq := h.ens.passNo }]
      passNo := s.passNo + 1 }) h) := by
  unfold askPass
  simp only [a]
  have d : (e.tray && use.tenantJob.isNone) = false := by
    rcases c with c | c
    · rw [c]; rfl
    · cases q : use.tenantJob with
      | none => rw [q] at c; cases c
      | some j => simp
  rw [if_neg (by simpa using n), if_neg (by omega), d]
  rfl

theorem askPass_noGen {e : Env} {slot : Nat} {use : PassUse} {todo : List Word} {tb : Nat} {h : Hub} (a : (slotAt h slot).active = none) :
    askPass e slot use todo tb h = .noGen := by
  unfold askPass
  rw [a]

theorem askPass_full {e : Env} {slot : Nat} {use : PassUse} {todo : List Word} {tb : Nat} {h : Hub} {g : Gen} (a : (slotAt h slot).active = some g)
    (b : 8 ≤ h.ens.passes.length) (n : todo ≠ []) : askPass e slot use todo tb h = .full := by
  unfold askPass
  simp only [a]
  rw [if_neg (by simpa using n), if_pos b]

/-! Slots. -/

theorem slotAt_congr {h k : Hub} (a : k.ens = h.ens) (i : Nat) : slotAt k i = slotAt h i := by unfold slotAt; rw [a]
@[simp] theorem slotAt_clean (h : Hub) (i : Nat) : slotAt h.clean i = slotAt h i := rfl
@[simp] theorem slotAt_consumed (c : Cmd) (s : State) (i : Nat) : slotAt (consumed c s) i = slotAt s.hub i := slotAt_congr (by simp) i
theorem windowEnded_consumed (c : Cmd) (s : State) : windowEnded (consumed c s) = windowEnded s.hub := by
  funext w
  unfold windowEnded
  simp
theorem hasRow_congr {h k : Hub} (a : k.ens = h.ens) (e : Env) : hasRow e k = hasRow e h := by
  funext x
  unfold hasRow rowOf
  rw [a]
theorem scoringTb_congr {h k : Hub} (a : k.casc = h.casc) (e : Env) : scoringTb e k = scoringTb e h := by unfold scoringTb; rw [a]
theorem slotAt_onSlot {i : Nat} {f : Slot → Slot} {h : Hub} (a : i < h.ens.slots.length) : slotAt (onSlot i f h) i = f (slotAt h i) :=
  getAt_setAt_self _ _ _ _ a
theorem slotAt_onSlot_ne {i j : Nat} {f : Slot → Slot} {h : Hub} (n : j ≠ i) : slotAt (onSlot i f h) j = slotAt h j := getAt_setAt_ne _ _ _ _ _ n

/-- Two changes of a slot are one. -/
theorem onSlot_onSlot {i : Nat} {f g : Slot → Slot} {h k : Hub} (a : k.ens = h.ens) (l : i < h.ens.slots.length) :
    (onSlot i g (onSlot i f k)).ens = (onSlot i (fun x => g (f x)) h).ens := by
  show ({ (onSlot i f k).ens with slots := setAt (onSlot i f k).ens.slots i (g (slotAt (onSlot i f k) i)) } : EnsU) = _
  rw [slotAt_onSlot (by rw [a]; exact l), slotAt_congr a]
  show ({ k.ens with slots := setAt (setAt k.ens.slots i (f (slotAt k i))) i (g (f (slotAt h i))) } : EnsU) = { h.ens with slots := setAt h.ens.slots i (g (f (slotAt h i))) }
  rw [a, setAt_setAt]

theorem withPages_congr {h k : Hub} (a : k.ens = h.ens) (g : Gen) : withPages k g = withPages h g := by
  unfold withPages freePages
  rw [a]

/-- Only the named slot changes. -/
theorem slotAt_onSlot_only {i : Nat} {f : Slot → Slot} {h k : Hub} (a : k.ens = h.ens) (l : i < h.ens.slots.length) :
    slotAt (onSlot i f k) i = f (slotAt h i) ∧ ∀ j, j ≠ i → slotAt (onSlot i f k) j = slotAt h j :=
  ⟨(slotAt_onSlot (by rw [a]; exact l)).trans (by rw [slotAt_congr a]), fun j n => (slotAt_onSlot_ne n).trans (slotAt_congr a j)⟩

/-- Words put at consecutive places of a table. -/
theorem Tab.find_putList {α : Type} (i : Nat) (vs : List α) (t : Tab α) (n : Nat) :
    Tab.find ((vs.zipIdx).foldl (fun t p => Tab.put t (i + p.2) p.1) t) n = if i ≤ n ∧ n < i + vs.length then vs[n - i]? else Tab.find t n := by
  have k : ∀ (vs : List α) (j : Nat) (t : Tab α), Tab.find ((vs.zipIdx j).foldl (fun t p => Tab.put t (i + p.2) p.1) t) n =
      if i + j ≤ n ∧ n < i + j + vs.length then vs[n - (i + j)]? else Tab.find t n := by
    intro vs
    induction vs with
    | nil => exact fun j t => by rw [if_neg (by simp)]; rfl
    | cons v r ih =>
      intro j t
      rw [List.zipIdx_cons, List.foldl_cons, ih]
      by_cases z : n = i + j
      · rw [if_neg (by omega), if_pos (by simp; omega), z]
        simp
      · rw [Tab.find_put_ne _ _ _ _ z]
        by_cases w : i + (j + 1) ≤ n ∧ n < i + (j + 1) + r.length
        · rw [if_pos w, if_pos (by simp; omega), show n - (i + j) = (n - (i + (j + 1))) + 1 by omega]
          simp
        · rw [if_neg w, if_neg (by simp; omega)]
  simpa using k vs 0 t

/-! Rows. -/

@[simp] theorem rowOf_putRow (x : Word) (r : Row) (h : Hub) : rowOf (putRow x r h) x = some r := Tab.find_put_self ..
theorem rowOf_putRow_ne {x y : Word} (r : Row) (h : Hub) (n : y ≠ x) : rowOf (putRow x r h) y = rowOf h y :=
  Tab.find_put_ne _ _ _ _ (fun z => n (BitVec.eq_of_toNat_eq z))
@[simp] theorem rowOf_clean (h : Hub) (x : Word) : rowOf h.clean x = rowOf h x := rfl

/-- A write of a word of a VALID row lands in the row, which is then dirty. -/
theorem featWrite_valid {e : Env} {x : Word} {i : Nat} {v : Word} {h : Hub} {r : Row} (a : rowOf h x = some r) (b : r.st = .valid) :
    featWrite e x i v h = putRow x { r with words := Tab.put r.words i v, dirty := true, used := nowNs h } h := by
  have c : (e.tray && ((rowOf h x).isNone || (rowOf h x).any (fun r => r.st == .evicting && !r.refill))) = false := by simp [a, b]
  unfold featWrite
  rw [c]
  dsimp only
  rw [if_neg (by decide), a]
  dsimp only
  rw [if_pos (by rw [b]; rfl)]

/-- Writes of consecutive words of a VALID row: it holds them, and its other words as before. -/
theorem featWrites_valid {e : Env} {x : Word} {i : Nat} (vs : List Word) {h : Hub} {r : Row} (a : rowOf h x = some r) (b : r.st = .valid) :
    (∃ q, rowOf (featWrites e x i vs h) x = some q ∧ q.st = .valid ∧ q.pins = r.pins ∧ (vs ≠ [] → q.dirty = true) ∧
      ∀ n, Tab.find q.words n = if i ≤ n ∧ n < i + vs.length then vs[n - i]? else Tab.find r.words n) ∧
    ∀ y, y ≠ x → rowOf (featWrites e x i vs h) y = rowOf h y := by
  unfold featWrites
  have k : ∀ (vs : List Word) (j : Nat) (h : Hub) (r : Row), rowOf h x = some r → r.st = .valid →
      (∃ q, rowOf ((vs.zipIdx j).foldl (fun h p => featWrite e x (i + p.2) p.1 h) h) x = some q ∧ q.st = .valid ∧ q.pins = r.pins ∧
        (vs ≠ [] ∨ r.dirty = true → q.dirty = true) ∧
        ∀ n, Tab.find q.words n = if i + j ≤ n ∧ n < i + j + vs.length then vs[n - (i + j)]? else Tab.find r.words n) ∧
      ∀ y, y ≠ x → rowOf ((vs.zipIdx j).foldl (fun h p => featWrite e x (i + p.2) p.1 h) h) y = rowOf h y := by
    intro vs
    induction vs with
    | nil => exact fun j h r a b => ⟨⟨r, a, b, rfl, fun z => z.elim (fun z => absurd rfl z) id, fun n => by rw [if_neg (by simp)]⟩, fun _ _ => rfl⟩
    | cons v t ih =>
      intro j h r a b
      rw [List.zipIdx_cons, List.foldl_cons, featWrite_valid a b]
      obtain ⟨⟨q, q1, q2, q3, q4, q5⟩, q6⟩ := ih (j + 1) _ { r with words := Tab.put r.words (i + j) v, dirty := true, used := nowNs h } (rowOf_putRow ..) b
      refine ⟨⟨q, q1, q2, q3, fun _ => q4 (.inr rfl), fun n => ?_⟩, fun y n => (q6 y n).trans (rowOf_putRow_ne _ _ n)⟩
      rw [q5]
      by_cases z : n = i + j
      · rw [if_neg (by omega), if_pos (by simp; omega), z]
        simp
      · rw [Tab.find_put_ne _ _ _ _ z]
        by_cases w : i + (j + 1) ≤ n ∧ n < i + (j + 1) + t.length
        · rw [if_pos w, if_pos (by simp; omega), show n - (i + j) = (n - (i + (j + 1))) + 1 by omega]
          simp
        · rw [if_neg w, if_neg (by simp; omega)]
  have w := k vs 0 h r a b
  refine ⟨?_, w.2⟩
  obtain ⟨q, q1, q2, q3, q4, q5⟩ := w.1
  exact ⟨q, q1, q2, q3, fun z => q4 (.inl z), by simpa using q5⟩

/-! What the feature table's own work leaves of the engine: all but the rows, who waits for them, the backing store and two counts. -/

/-- The engine without what the feature table's own work may change. -/
def EnsU.rest (x : EnsU) : EnsU := { x with rows := [], roomq := [], backing := [], fillWaits := 0, misses := 0 }

theorem rest_putRow (x : Word) (r : Row) (h : Hub) : (putRow x r h).ens.rest = h.ens.rest := rfl
theorem rest_of {h k : Hub} (a : k.ens = h.ens) : k.ens.rest = h.ens.rest := by rw [a]
theorem rest_rowLines (e : Env) (a : Nat) (w : Bool) (c : Client) (b : List Byte) (h : Hub) : (rowLines e a w c b h).ens.rest = h.ens.rest :=
  rest_of ((rowLines_only ..).keep .ens (by decide))

theorem rest_makeRoom (e : Env) (h : Hub) : (makeRoom e h).ens.rest = h.ens.rest := by
  unfold makeRoom
  split
  · rfl
  · split
    · rfl
    · dsimp only
      split
      · split
        · split
          · exact rest_rowLines ..
          · rfl
        · rfl
      · rfl

theorem rest_takeRow (e : Env) (x : Word) (h : Hub) : (takeRow e x h).ens.rest = h.ens.rest := by
  unfold takeRow
  dsimp only
  split
  · split
    · rfl
    · exact rest_rowLines ..
  · split
    · rw [rest_of ((emitUnit_only ..).keep .ens (by decide))]
      rfl
    · rfl

theorem rest_startFill (e : Env) (x : Word) (h : Hub) : (startFill e x h).ens.rest = h.ens.rest := by
  have w : (makeRoom e (waitRoom x h)).ens.rest = h.ens.rest := by
    rw [rest_makeRoom]
    unfold waitRoom
    split <;> rfl
  unfold startFill
  dsimp only
  split
  · split <;> rfl
  · split
    · exact w
    · rw [rest_takeRow, w]

theorem rest_retryRoom (e : Env) (h : Hub) : (retryRoom e h).ens.rest = h.ens.rest := by
  unfold retryRoom
  have k : ∀ (l : List (Nat × List (Nat × Word))) (h : Hub), (l.foldl (fun h p => startFill e (BitVec.ofNat 32 p.1) h) h).ens.rest = h.ens.rest := by
    intro l
    induction l with
    | nil => exact fun _ => rfl
    | cons x t ih => exact fun h => (ih _).trans (rest_startFill ..)
  exact k _ _

theorem rest_featWrite (e : Env) (x : Word) (i : Nat) (v : Word) (h : Hub) : (featWrite e x i v h).ens.rest = h.ens.rest := by
  unfold featWrite
  dsimp only
  have k : (if (e.tray && ((rowOf h x).isNone || (rowOf h x).any (fun r => r.st == .evicting && !r.refill))) = true then startFill e x h else h).ens.rest = h.ens.rest := by
    split
    · exact rest_startFill ..
    · rfl
  split
  · exact k
  · split
    · exact k
    · exact k

theorem rest_unitFault (e : Env) (unit code sev : Nat) (x : Word) (l : List Word) (h : Hub) : (unitFault e unit code sev x l h).ens.rest = h.ens.rest := by
  unfold unitFault unitCount
  dsimp only
  rw [rest_featWrite]
  exact rest_of ((emit_only ..).keep .ens (by decide))

/-- Unpinning a sample's rows drops its wait, and touches nothing of the engine but that and the rows. -/
theorem rest_unpin (e : Env) (seq : Nat) (x : Word) (h : Hub) :
    (unpin e seq x h).ens.rest = (if (sampleWait h seq x.toNat).isNone then h.ens else { h.ens with waits := otherWaits h seq x.toNat }).rest := by
  unfold unpin
  cases q : sampleWait h seq x.toNat with
  | none => rfl
  | some w =>
    dsimp only
    rw [rest_retryRoom]
    have k : ∀ (l : List Nat) (h : Hub), (l.foldl (fun h k => match Tab.find h.ens.rows k with
      | some r => onEns (fun s => { s with rows := Tab.put s.rows k { r with pins := r.pins - 1 } }) h
      | none => h) h).ens.rest = h.ens.rest := by
      intro l
      induction l with
      | nil => exact fun _ => rfl
      | cons y t ih =>
        intro h
        rw [List.foldl_cons, ih]
        split <;> rfl
    have z := k w.pins h
    generalize w.pins.foldl _ h = K at z ⊢
    have z2 : otherWaits K seq x.toNat = otherWaits h seq x.toNat := by
      unfold otherWaits
      have v : K.ens.rest.waits = h.ens.rest.waits := congrArg EnsU.waits z
      rw [show K.ens.waits = h.ens.waits from v]
    show ({ K.ens with waits := otherWaits K seq x.toNat } : EnsU).rest = _
    rw [z2]
    exact congrArg (fun y : EnsU => ({ y with waits := otherWaits h seq x.toNat } : EnsU)) z

/-! Passes. -/

/-- One pass changes, the others stay. -/
theorem onPass_passes {i : Nat} {f : Pass → Pass} {h : Hub} {p : Pass} (a : h.ens.passes[i]? = some p) :
    (onPass i f h).ens = { h.ens with passes := setAt h.ens.passes i (f p) } := by
  unfold onPass onEns
  simp only [a]

theorem onPass_at {i : Nat} {f : Pass → Pass} {h : Hub} {p : Pass} (a : h.ens.passes[i]? = some p) :
    (onPass i f h).ens.passes[i]? = some (f p) ∧ ∀ j, j ≠ i → (onPass i f h).ens.passes[j]? = h.ens.passes[j]? := by
  rw [onPass_passes a]
  refine ⟨?_, fun j n => ?_⟩
  · show (setAt h.ens.passes i (f p))[i]? = _
    rw [getElem?_setAt, if_pos rfl, a]
    rfl
  · show (setAt h.ens.passes i (f p))[j]? = _
    rw [getElem?_setAt, if_neg (Ne.symm n)]

/-- A scored sample leaves its pass's list and adds its result; no other pass changes. -/
theorem scoreSample_pass {e : Env} {i : Nat} {p : Pass} {x : Word} {feat : Nat → Word} {bank : Nat → Option Nat} {st : Bool} {h : Hub}
    (a : h.ens.passes[i]? = some p) :
    (∃ q, (scoreSample e i p x feat bank st h).ens.passes[i]? = some q ∧ q.todo = p.todo.erase x ∧
      q.results = p.results ++ [formResult p.gen p.slot p.tb x st (walks p.gen feat)]) ∧
    (∀ j, j ≠ i → (scoreSample e i p x feat bank st h).ens.passes[j]? = h.ens.passes[j]?) ∧
    (scoreSample e i p x feat bank st h).ens.samples = h.ens.samples + 1 := by
  unfold scoreSample
  dsimp only
  have k : ∀ (b : Bool) (w : List Word) (K : Hub), (if b = true then unitFault e 24 12 2 (unitId e K 24) w K else K).ens.rest = K.ens.rest := by
    intro b w K
    cases b
    · rfl
    · exact rest_unitFault ..
  have P : ∀ {K L : Hub}, K.ens.rest = L.ens.rest → K.ens.passes = L.ens.passes := fun {K L} q => by
    have : K.ens.rest.passes = L.ens.rest.passes := congrArg EnsU.passes q
    exact this
  have S : ∀ {K L : Hub}, K.ens.rest = L.ens.rest → K.ens.samples = L.ens.samples := fun {K L} q => by
    have : K.ens.rest.samples = L.ens.rest.samples := congrArg EnsU.samples q
    exact this
  refine ⟨?_, fun j n => ?_, ?_⟩
  · rw [P (k ..)]
    exact ⟨_, (onPass_at a).1, rfl, rfl⟩
  · rw [P (k ..)]
    exact (onPass_at a).2 j n
  · rw [S (k ..)]
    simp only [onEns]
    rw [onPass_passes a]

theorem passes_unpin (e : Env) (seq : Nat) (x : Word) (h : Hub) : (unpin e seq x h).ens.passes = h.ens.passes ∧ (unpin e seq x h).ens.samples = h.ens.samples := by
  have q := rest_unpin e seq x h
  have a : (unpin e seq x h).ens.rest.passes = _ := congrArg EnsU.passes q
  have b : (unpin e seq x h).ens.rest.samples = _ := congrArg EnsU.samples q
  constructor
  · refine a.trans ?_
    split <;> rfl
  · refine b.trans ?_
    split <;> rfl

/-- A pass that ends is pending no longer, and is counted. -/
theorem passDone_passes (e : Env) (p : Pass) (h : Hub) :
    (passDone e p h).ens.passes = h.ens.passes.filter (fun q => decide (q.seq ≠ p.seq)) ∧ (passDone e p h).ens.done = h.ens.done + 1 := by
  have I : ∀ (c : Prop) [Decidable c] (K L : Hub), (K.ens.passes = h.ens.passes.filter (fun q => decide (q.seq ≠ p.seq)) ∧ K.ens.done = h.ens.done + 1) →
      (L.ens.passes = h.ens.passes.filter (fun q => decide (q.seq ≠ p.seq)) ∧ L.ens.done = h.ens.done + 1) →
      (if c then K else L).ens.passes = h.ens.passes.filter (fun q => decide (q.seq ≠ p.seq)) ∧ (if c then K else L).ens.done = h.ens.done + 1 := by
    intro c _ K L a b
    split
    · exact a
    · exact b
  unfold passDone passLosses
  refine I _ _ _ ⟨rfl, rfl⟩ (I _ _ _ ⟨rfl, rfl⟩ ?_)
  simp only [onSlot, onEns]
  rw [(report_only ..).keep .ens (by decide), (emit_only ..).keep .ens (by decide)]
  exact ⟨rfl, rfl⟩

end Sys2Proof.Machine
end

