-- ==== Sys2Proof/Laws/Red.lean ====
section
/-!
SUPPORT. Reduction: what the sending of packets queues, and the rounds at their levels, said once.
-/
namespace Sys2Proof.Machine

theorem noteFill_fab (h : Hub) : (noteFill h).fab = h.fab := rfl

theorem photenSend_queues {type tc dst flow soff : Nat} {b : List Byte} {h : Hub} (n : tc ≠ 3) :
    (photenSend type tc dst flow soff b h).fab = { h.fab with outq := h.fab.outq ++ [{
        type := BitVec.ofNat 4 type, tc := BitVec.ofNat 2 tc, dst := BitVec.ofNat 18 dst, flow := BitVec.ofNat 16 flow
        soff := BitVec.ofNat 24 soff, tb := nowNs h, body := b }] } := by
  unfold photenSend
  dsimp only
  rw [if_neg (fun z => n z.1)]
  rfl

theorem photenSend_rounds (type tc dst flow soff : Nat) (b : List Byte) (h : Hub) : (photenSend type tc dst flow soff b h).xs.rounds = h.xs.rounds := by
  unfold photenSend
  dsimp only
  split <;> rfl

theorem redSend_rounds (tc dst : Nat) (m : Red) (h : Hub) : (redSend tc dst m h).xs.rounds = h.xs.rounds := by
  unfold redSend
  have k : ∀ (l : List Red) (h : Hub), (l.foldl (fun h p => photenSend 0 tc dst m.group 0 (redBody p) h) h).xs.rounds = h.xs.rounds := by
    intro l
    induction l with
    | nil => exact fun _ => rfl
    | cons x t ih => exact fun h => (ih _).trans (photenSend_rounds ..)
  exact k _ _

theorem redSend_queues {tc dst : Nat} {m : Red} {h : Hub} (n : tc ≠ 3) :
    (redSend tc dst m h).fab = { h.fab with outq := h.fab.outq ++ redOut h tc dst m } := by
  unfold redSend redOut
  have k : ∀ (l : List Red) (h : Hub), (l.foldl (fun h p => photenSend 0 tc dst m.group 0 (redBody p) h) h).fab =
      { h.fab with outq := h.fab.outq ++ l.map (fun p => { type := 0, tc := BitVec.ofNat 2 tc, dst := BitVec.ofNat 18 dst, flow := BitVec.ofNat 16 m.group, soff := 0
                                                           tb := nowNs h, body := redBody p }) } := by
    intro l
    induction l with
    | nil => exact fun h => by simp
    | cons x t ih =>
      intro h
      rw [List.foldl_cons, ih, photenSend_queues n]
      have : nowNs (photenSend 0 tc dst m.group 0 (redBody x) h) = nowNs h := by simp
      simp [this]
  exact k _ _

theorem roundKey_inj {l g q l' g' q' : Nat} (a : g < 1024) (b : g' < 1024) (c : q < 65536) (d : q' < 65536) (n : roundKey l g q = roundKey l' g' q') :
    l = l' ∧ g = g' ∧ q = q' := by
  unfold roundKey at n
  omega

theorem roundAt_congr {h k : Hub} (a : k.xs.rounds = h.xs.rounds) (l g q : Nat) : roundAt k l g q = roundAt h l g q := by unfold roundAt; rw [a]
@[simp] theorem roundAt_put_self (l g q : Nat) (r : Round) (h : Hub) : roundAt (putRound l g q r h) l g q = some r := by
  simp [roundAt, putRound]
theorem roundAt_put_ne {l g q l' : Nat} (r : Round) (h : Hub) (n : l' ≠ l) : roundAt (putRound l g q r h) l' g q = roundAt h l' g q := by
  unfold roundAt putRound
  exact Tab.find_put_ne _ _ _ _ (by unfold roundKey; omega)
@[simp] theorem roundAt_drop_self (l g q : Nat) (h : Hub) : roundAt (dropRound l g q h) l g q = none := by
  unfold roundAt dropRound
  exact Tab.find_drop_self ..
theorem roundAt_redSend (tc dst : Nat) (m : Red) (h : Hub) (l g q : Nat) : roundAt (redSend tc dst m h) l g q = roundAt h l g q :=
  roundAt_congr (redSend_rounds ..) ..
@[simp] theorem roundAt_clean (h : Hub) (l g q : Nat) : roundAt h.clean l g q = roundAt h l g q := rfl

theorem rhizAdvance_none {e : Env} {h : Hub} (a : shardGroup h = none) : rhizAdvance e h = h := by
  unfold rhizAdvance
  rw [a]

@[simp] theorem xsMember_consumed (e : Env) (c : Cmd) (s : State) (g : Nat) : xsMember e (consumed c s) g = xsMember e s.hub g := by
  unfold xsMember; simp
@[simp] theorem xsBusy_consumed (e : Env) (c : Cmd) (s : State) (g q : Nat) : xsBusy e (consumed c s) g q = xsBusy e s.hub g q := by
  rw [consumed_eq]; rfl

theorem opXsReduce_stranger {e : Env} {h : Hub} {x : Ctx} (w : xsMember e h (x.n 1) = false) : opXsReduce.act e h x = .done stNotFound 1 [] h := by
  have : (!xsMember e h (x.n 1)) = true := by rw [w]; rfl
  exact if_pos this

theorem redOut_congr {h k : Hub} (a : nowNs k = nowNs h) (tc dst : Nat) (m : Red) : redOut k tc dst m = redOut h tc dst m := by unfold redOut; rw [a]
theorem redUp_congr {h k : Hub} (a : k.xs = h.xs) (m : Red) : redUp k m = redUp h m := by unfold redUp; rw [a]

theorem Tab.any_put_new {α : Type} {t : Tab α} {i : Nat} {a : α} {f : Nat × α → Bool} (n : Tab.find t i = none) (p : f (i, a) = false) :
    (Tab.put t i a).any f = t.any f := by
  induction t with
  | nil => simp [Tab.put, p]
  | cons x t ih =>
    obtain ⟨k, b⟩ := x
    by_cases h : k = i
    · simp [Tab.find, h] at n
    · have m : Tab.find t i = none := by simpa [Tab.find, h] using n
      unfold Tab.put
      split
      · simp [p]
      · rw [if_neg (fun z => h z.symm)]
        simp [ih m]

theorem Tab.find_drop_ne {α : Type} (t : Tab α) (i j : Nat) (h : j ≠ i) : Tab.find (Tab.drop t i) j = Tab.find t j := by
  induction t with
  | nil => rfl
  | cons x t ih =>
    obtain ⟨k, b⟩ := x
    have e : Tab.drop ((k, b) :: t) i = if k = i then Tab.drop t i else (k, b) :: Tab.drop t i := by
      unfold Tab.drop
      by_cases z : k = i <;> simp [z]
    rw [e]
    by_cases z : k = i
    · rw [if_pos z, ih, Tab.find, if_neg (by omega)]
    · rw [if_neg z, Tab.find, Tab.find, ih]

/-- A command that starts something whose work leaves the command interface alone is in progress; what it starts is applied to the hub with the
command entered. -/
theorem op_progress {d : OpDef} {c : Cmd} {s : State} {due : Option Nat} {f : Nat → Hub → Hub} (p : passes d c s = true)
    (a : d.act s.env (consumed c s) (ctxOf c s) = .later due f) (k : ∀ n h, (f n h).cmd = h.cmd) :
    ∃ t K, s.runOp d c = .next t ∧ InProgress d.code c t ∧ K = { s.hub.clean with cmd := K.cmd } ∧ t = s.settle (f s.hub.cmd.nextId K) := by
  obtain ⟨t, e, rfl⟩ := op_later p a
  refine ⟨_, _, e, ?_, by rw [consumed_eq c s], rfl⟩
  unfold InProgress
  rw [State.settle_hub, Hub.clean_cmd, k]
  exact ⟨_, List.mem_append_right _ (List.mem_singleton_self _), rfl, rfl, rfl⟩

theorem clean_only (h : Hub) : Only [.ram, .nvm] h h.clean :=
  ⟨fun p n => by cases p <;> first | rfl | exact absurd (by decide) n⟩

/-- A command answered at once leaves what its work leaves, but for these pieces. -/
theorem op_ends {d : OpDef} {c : Cmd} {s : State} {st det : Nat} {res : List Word} {k : Hub} (p : passes d c s = true)
    (a : d.act s.env (consumed c s) (ctxOf c s) = .done st det res k) (b : st ≠ stBusy) :
    ∃ t, s.runOp d c = .next t ∧ Only [.sb, .mgt, .cmd, .regs, .log, .ram, .nvm] k t.hub :=
  ⟨_, congrArg Host.Outcome.next (congrArg s.settle (runCmd_done p a b)), Only.step (Only.weaken (answer_only ..) rfl) (clean_only _) rfl⟩

/-- A command that is BUSY has had that answer, and nothing but the answer. -/
theorem op_busy {d : OpDef} {c : Cmd} {s : State} {det : Nat} {res : List Word} {k : Hub} (p : passes d c s = true)
    (a : d.act s.env (consumed c s) (ctxOf c s) = .done stBusy det res k) :
    s.runOp d c = .next (s.settle (replyOnly s.env d.code (ctxOf c s) stBusy s.hub.clean)) := by
  have r := runCmd_of_passes p
  rw [a] at r
  dsimp only at r
  rw [if_pos rfl] at r
  exact congrArg Host.Outcome.next (congrArg s.settle r)

/-- A command answered at once whose work leaves the command interface and the protection alone: what the answer adds lies in these pieces. -/
theorem op_kept {d : OpDef} {c : Cmd} {s : State} {st det : Nat} {res : List Word} {k : Hub} {ps : List Piece} (p : passes d c s = true)
    (a : d.act s.env (consumed c s) (ctxOf c s) = .done st det res k) (b : st ≠ stBusy) (o : Only ps (consumed c s) k)
    (x : (ps.contains .cmd || ps.contains .prot) = false) :
    ∃ t, s.runOp d c = .next t ∧ Answered d.code st det res c s t ∧ Only [.sb, .mgt, .cmd, .regs, .log, .ram, .nvm] k t.hub := by
  simp only [Bool.or_eq_false_iff, List.contains_eq_mem, decide_eq_false_iff_not] at x
  have u : k.cmd = (consumed c s).cmd := o.keep .cmd x.1
  have v : k.prot = (consumed c s).prot := o.keep .prot x.2
  obtain ⟨t, e, y, rfl⟩ := op_done p a b (by rw [u]) (by rw [u]; simp) (by rw [v]; simp)
  exact ⟨_, e, y, Only.step (Only.weaken (answer_only ..) rfl) (clean_only _) rfl⟩

/-! A member die's requests (R215, R230, R238). -/

theorem dieContribute_rounds (e : Env) (tc : Nat) (m : Red) (h : Hub) (l g q : Nat) : roundAt (dieContribute e tc m h) l g q = roundAt h l g q :=
  roundAt_redSend ..

theorem recordsWritten_fab (es : List Elem) (h : Hub) : (recordsWritten es h).fab = h.fab := rfl

theorem dieContribute_fab {e : Env} {tc : Nat} {m : Red} {h : Hub} (n : tc ≠ 3) :
    (dieContribute e tc m h).fab = { h.fab with outq := h.fab.outq ++ redOut h tc (2 ^ 17 + dieNo e h / 128) (redUp h m) } :=
  redSend_queues n

/-- A round that no context serves takes none from the free ones. -/
theorem freeCtx_put {h : Hub} {g q : Nat} {r : Round} (a : roundAt h 0 g q = none) (c : r.ctx = none) : freeCtx (putRound 0 g q r h) = freeCtx h := by
  unfold freeCtx
  refine List.filter_congr (fun k _ => ?_)
  rw [show (putRound 0 g q r h).xs.rounds = Tab.put h.xs.rounds (roundKey 0 g q) r from rfl, Tab.any_put_new a (by simp [c])]

theorem canStart_put {h : Hub} {g q : Nat} {r : Round} (a : roundAt h 0 g q = none) (c : r.ctx = none) : canStart (putRound 0 g q r h) = canStart h := by
  unfold canStart
  rw [freeCtx_put a c]
  rfl

theorem startRequest_reduce {e : Env} {h : Hub} {g q id d : Nat} {r : Round} (a : roundAt h 0 g q = some r) (u : r.use = .xsReduce id d) :
    startRequest e g q h = dieContribute e 2 {
        group := g, seq := q, op := r.op.toNat, level := 0, geom := r.geom.toNat, total := r.total, elems := r.acc.map Prod.snd }
      (putRound 0 g q { r with ctx := (freeCtx h).head?, acc := [], sent := true } h) := by
  unfold startRequest
  rw [a]
  dsimp only
  split
  · next w => rw [u] at w; cases w
  · rfl

theorem startRequest_norm {e : Env} {h : Hub} {g q id : Nat} {ep : Word} {r : Round} (a : roundAt h 0 g q = some r) (u : r.use = .norm id ep) :
    startRequest e g q h = onXs (fun x => { x with norms := x.norms ++ [{ group := g, epoch := ep, pend := id }] })
      (putRound 0 g q { r with ctx := (freeCtx h).head?, acc := [] } h) := by
  unfold startRequest
  rw [a]
  dsimp only
  split
  · next w => rw [u] at w; cases w; rfl
  · next w => exact absurd u (w id ep)

theorem redSend_queue (tc dst : Nat) (m : Red) (h : Hub) : (redSend tc dst m h).xs.queue = h.xs.queue := by
  unfold redSend
  have k : ∀ (l : List Red) (h : Hub), (l.foldl (fun h p => photenSend 0 tc dst m.group 0 (redBody p) h) h).xs.queue = h.xs.queue := by
    intro l
    induction l with
    | nil => exact fun _ => rfl
    | cons x t ih => exact fun h => (ih _).trans (by unfold photenSend; dsimp only; split <;> rfl)
  exact k _ _

theorem dieContribute_norms (e : Env) (tc : Nat) (m : Red) (h : Hub) : (dieContribute e tc m h).xs.norms = h.xs.norms := by
  unfold dieContribute redSend
  have k : ∀ (a : Nat) (l : List Red) (h : Hub), (l.foldl (fun h p => photenSend 0 tc a m.group 0 (redBody p) h) h).xs.norms = h.xs.norms := by
    intro a l
    induction l with
    | nil => exact fun _ => rfl
    | cons x t ih => exact fun h => (ih _).trans (by unfold photenSend; dsimp only; split <;> rfl)
  exact k ..

/-- A request that finds the lanes and a context free starts at once: an XS_REDUCE sends its vector. -/
theorem submitRequest_reduce {e : Env} {h : Hub} {g q id d : Nat} {r : Round} (n : roundAt h 0 g q = none) (c : r.ctx = none)
    (u : r.use = .xsReduce id d) (s : canStart h = true) :
    roundAt (submitRequest e g q (putRound 0 g q r h)) 0 g q = some { r with ctx := (freeCtx h).head?, acc := [], sent := true } ∧
    (submitRequest e g q (putRound 0 g q r h)).xs.queue = h.xs.queue ∧
    (submitRequest e g q (putRound 0 g q r h)).fab.outq = h.fab.outq ++ redOut h 2 (2 ^ 17 + dieNo e h / 128)
      (redUp h { group := g, seq := q, op := r.op.toNat, level := 0, geom := r.geom.toNat, total := r.total, elems := r.acc.map Prod.snd }) := by
  unfold submitRequest
  rw [canStart_put n c, if_pos s, startRequest_reduce (roundAt_put_self ..) u, freeCtx_put n c]
  refine ⟨?_, ?_, ?_⟩
  · rw [dieContribute_rounds, roundAt_put_self]
  · exact redSend_queue ..
  · rw [dieContribute_fab (by decide)]
    rfl

/-- A NORM_REQ that starts waits for its epoch, nothing being sent. -/
theorem submitRequest_norm {e : Env} {h : Hub} {g q id : Nat} {ep : Word} {r : Round} (n : roundAt h 0 g q = none) (c : r.ctx = none)
    (u : r.use = .norm id ep) (s : canStart h = true) :
    roundAt (submitRequest e g q (putRound 0 g q r h)) 0 g q = some { r with ctx := (freeCtx h).head?, acc := [] } ∧
    (submitRequest e g q (putRound 0 g q r h)).xs.norms = h.xs.norms ++ [{ group := g, epoch := ep, pend := id }] ∧
    (submitRequest e g q (putRound 0 g q r h)).fab = h.fab := by
  unfold submitRequest
  rw [canStart_put n c, if_pos s, startRequest_norm (roundAt_put_self ..) u, freeCtx_put n c]
  exact ⟨roundAt_put_self .., rfl, rfl⟩

/-- A request that cannot start joins the end of the queue. -/
theorem submitRequest_waits {e : Env} {h : Hub} {g q : Nat} {r : Round} (n : roundAt h 0 g q = none) (c : r.ctx = none) (s : canStart h = false) :
    roundAt (submitRequest e g q (putRound 0 g q r h)) 0 g q = some r ∧ (submitRequest e g q (putRound 0 g q r h)).xs.queue = h.xs.queue ++ [(g, q)] ∧
    (submitRequest e g q (putRound 0 g q r h)).xs.norms = h.xs.norms ∧ (submitRequest e g q (putRound 0 g q r h)).fab = h.fab := by
  unfold submitRequest
  rw [canStart_put n c, if_neg (by rw [s]; decide)]
  exact ⟨roundAt_put_self .., rfl, rfl, rfl⟩

/-- Giving a round up drops it and takes its request out of the queue; no packet is sent. -/
theorem giveUp_rounds (e : Env) (g q : Nat) (r : Round) (h : Hub) (l : Nat) : roundAt (giveUp e g q r h) l g q = roundAt (dropRound 0 g q h) l g q := by
  unfold giveUp
  dsimp only
  have F : ∀ p st b k, (finish e p st 0 [] b k).xs = k.xs := fun p st b k => (finish_only ..).keep .xs (by decide)
  have S : ∀ ep k, (shadowHalf e ep true false none k).xs = k.xs := fun ep k => (shadowHalf_only ..).keep .xs (by decide)
  refine roundAt_congr ?_ ..
  split <;> split <;> simp only [F, S, onXs]

theorem giveUp_fab (e : Env) (g q : Nat) (r : Round) (h : Hub) : (giveUp e g q r h).fab = h.fab := (giveUp_only ..).keep .fab (by decide)

theorem roundAt_drop_ne {l l' g q : Nat} (h : Hub) (n : l' ≠ l) : roundAt (dropRound l g q h) l' g q = roundAt h l' g q := by
  unfold roundAt dropRound
  exact Tab.find_drop_ne _ _ _ (by unfold roundKey; omega)

/-- Levels of a round freed one after another. -/
theorem freeRounds (e : Env) (g q : Nat) (old : List (Nat × Round)) (h : Hub) :
    (old.foldl (fun h p => if p.1 = 0 then giveUp e g q p.2 h else dropRound p.1 g q h) h).fab = h.fab ∧
    ∀ l, roundAt (old.foldl (fun h p => if p.1 = 0 then giveUp e g q p.2 h else dropRound p.1 g q h) h) l g q =
      if l ∈ old.map Prod.fst then none else roundAt h l g q := by
  induction old generalizing h with
  | nil => exact ⟨rfl, fun l => rfl⟩
  | cons p t ih =>
    rw [List.foldl_cons]
    have F : (if p.1 = 0 then giveUp e g q p.2 h else dropRound p.1 g q h).fab = h.fab := by
      split
      · exact giveUp_fab ..
      · rfl
    have R : ∀ l, roundAt (if p.1 = 0 then giveUp e g q p.2 h else dropRound p.1 g q h) l g q = roundAt (dropRound p.1 g q h) l g q := by
      intro l
      split
      · next z => rw [giveUp_rounds, z]
      · rfl
    refine ⟨((ih _).1).trans F, fun l => ?_⟩
    rw [(ih _).2, R]
    by_cases z : l = p.1
    · subst z
      rw [roundAt_drop_self, List.map_cons, if_pos (List.mem_cons_self ..), ite_self]
    · rw [roundAt_drop_ne _ z, List.map_cons]
      simp only [List.mem_cons, z, false_or]

end Sys2Proof.Machine
end

