-- ==== Sys2Proof/Laws/Age.lean ====
section
/-!
SUPPORT. The ageing unit: its zones, plans and bins, said once.
-/
namespace Sys2Proof.Machine

theorem zone_congr {h k : Hub} (a : k.age = h.age) (r : Nat) : zone k r = zone h r := by unfold zone; rw [a]
@[simp] theorem zone_clean (h : Hub) (r : Nat) : zone h.clean r = zone h r := rfl
@[simp] theorem zone_consumed (c : Cmd) (s : State) (r : Nat) : zone (consumed c s) r = zone s.hub r := zone_congr (by simp) r
theorem zone_onZone {r : Nat} {f : Zone → Zone} {h : Hub} (a : r < h.age.zones.length) : zone (onZone r f h) r = f (zone h r) := getAt_setAt_self _ _ _ _ a
theorem zone_onZone_ne {r q : Nat} {f : Zone → Zone} {h : Hub} (n : q ≠ r) : zone (onZone r f h) q = zone h q := getAt_setAt_ne _ _ _ _ _ n
@[simp] theorem onZone_length (r : Nat) (f : Zone → Zone) (h : Hub) : (onZone r f h).age.zones.length = h.age.zones.length := length_setAt ..

/-- Only the named zone changes. -/
theorem zone_onZone_only {r : Nat} {f : Zone → Zone} {h k : Hub} (a : k.age = h.age) (l : r < h.age.zones.length) :
    zone (onZone r f k) r = f (zone h r) ∧ ∀ q, q ≠ r → zone (onZone r f k) q = zone h q :=
  ⟨(zone_onZone (by rw [a]; exact l)).trans (by rw [zone_congr a]), fun q n => (zone_onZone_ne n).trans (zone_congr a q)⟩

/-- Forming a plan numbers it; one that goes to the host is the zone's sent plan, the newest sent, and waits for its ACK. -/
theorem formPlan_age (e : Env) (r cause : Nat) (off : Int) (cap : Nat) (h : Hub) :
    (formPlan e r cause off cap true h).age = { (onZone r (fun z => { z with sent := some (planFor h r cause off cap) }) { h with age := { h.age with planSeq := h.age.planSeq + 1 } }).age with
      sentSeq := h.age.planSeq + 1, ackDue := h.age.ackDue ++ [(h.age.planSeq + 1, nowNs h + h.age.ackLimit)] } ∧
    (formPlan e r cause off cap false h).age = { h.age with planSeq := h.age.planSeq + 1 } := by
  unfold formPlan sendPlan
  dsimp only
  constructor
  · rw [if_pos rfl, (sendNotice_only ..).keep .age (by decide)]
    have key : ∀ K : Hub, K.age = { h.age with planSeq := h.age.planSeq + 1 } → nowNs K = nowNs h → ∀ p : Plan,
        (onAge (fun a => { a with sentSeq := h.age.planSeq + 1, ackDue := a.ackDue ++ [(h.age.planSeq + 1, nowNs (onZone r (fun z => { z with sent := some p }) K) + a.ackLimit)] })
          (onZone r (fun z => { z with sent := some p }) K)).age =
        { (onZone r (fun z => { z with sent := some p }) { h with age := { h.age with planSeq := h.age.planSeq + 1 } }).age with
          sentSeq := h.age.planSeq + 1, ackDue := h.age.ackDue ++ [(h.age.planSeq + 1, nowNs h + h.age.ackLimit)] } := by
      intro K k n p
      have z : zone K r = zone { h with age := { h.age with planSeq := h.age.planSeq + 1 } } r := zone_congr k r
      have m : nowNs (onZone r (fun z => { z with sent := some p }) K) = nowNs h := n
      rw [m]
      simp only [onAge, onZone, z, k]
    refine key _ ?_ ?_ _
    · rw [(report_only ..).keep .age (by decide), (emit_only ..).keep .age (by decide)]
      rfl
    · simp [onAge, nowNs]
  · rw [if_neg (by decide), (report_only ..).keep .age (by decide), (emit_only ..).keep .age (by decide)]
    rfl

/-- A probe that ends runs no longer. -/
theorem endProbe_probes (e : Env) (p : Probe) (h : Hub) : (endProbe e p h).age.probes = h.age.probes.filter (fun q => decide (q.seq ≠ p.seq)) := by
  unfold endProbe
  dsimp only
  have key : ∀ (x : Word) (i : Nat) (w : Word) (K : Hub), K.age.probes = h.age.probes.filter (fun q => decide (q.seq ≠ p.seq)) → ∀ (b : Prop) [Decidable b],
      (if b then onZone (regionOf p.core) (fun z => { z with probeFail := true }) (setFloor x 4 (nowNs (featWrite e x i w K)) (featWrite e x i w K)) else featWrite e x i w K).age.probes =
        h.age.probes.filter (fun q => decide (q.seq ≠ p.seq)) := by
    intro x i w K k b _
    have f : (featWrite e x i w K).age.probes = h.age.probes.filter (fun q => decide (q.seq ≠ p.seq)) := by rw [(featWrite_only ..).keep .age (by decide)]; exact k
    split
    · show (setFloor _ _ _ _).age.probes = _
      rw [(setFloor_only ..).keep .age (by decide)]
      exact f
    · exact f
  refine key _ _ _ _ ?_ _
  rw [(emit_only ..).keep .age (by decide), (refreshHold_only ..).keep .age (by decide)]
  rfl

/-! Residence (R350). -/

theorem planeBin_congr {e : Env} {h k : Hub} (a : k.age.zones = h.age.zones) (b : k.regions = h.regions) (p : Nat) : planeBin e k p = planeBin e h p := by
  have z : zone k = zone h := by funext r; unfold zone; rw [a]
  have g : region k = region h := by funext r; exact region_congr b r
  have t : tempSum k = tempSum h := by funext r; unfold tempSum otherMax; simp only [z]
  have v : supplySum k = supplySum h := by funext r; unfold supplySum; simp only [z]
  unfold planeBin regionBin dieBin signature dieBand dieTemp dieSupply
  simp only [z, g, t, v, a, b]

theorem residencePlane_keeps (e : Env) (h : Hub) (p : Nat) : (residencePlane e h p).age.zones = h.age.zones ∧ (residencePlane e h p).regions = h.regions ∧
    (residencePlane e h p).age.lastTick = h.age.lastTick ∧ (residencePlane e h p).age.remUs.length = h.age.remUs.length ∧
    (residencePlane e h p).age.planes.length = h.age.planes.length := by
  unfold residencePlane
  dsimp only
  split
  · exact ⟨rfl, rfl, rfl, length_setAt .., rfl⟩
  · exact ⟨rfl, rfl, rfl, length_setAt .., length_setAt ..⟩

theorem residencePlane_at (e : Env) (h : Hub) (p : Nat) (a : p < h.age.remUs.length) (b : p < h.age.planes.length) :
    getAt (residencePlane e h p).age.remUs p 0 = (getAt h.age.remUs p 0 + 100) % 1000 ∧
    (binAt (residencePlane e h p) p (planeBin e h p)).residence =
      (if getAt h.age.remUs p 0 + 100 < 1000 then (binAt h p (planeBin e h p)).residence
       else sat 40 ((binAt h p (planeBin e h p)).residence + (getAt h.age.remUs p 0 + 100) / 1000)) ∧
    (∀ c, c ≠ planeBin e h p → binAt (residencePlane e h p) p c = binAt h p c) ∧
    (∀ q, q ≠ p → getAt (residencePlane e h p).age.remUs q 0 = getAt h.age.remUs q 0 ∧ ∀ c, binAt (residencePlane e h p) q c = binAt h q c) := by
  unfold residencePlane
  dsimp only
  have e1 : planeBin e (onAge (fun a => { a with remUs := setAt a.remUs p ((getAt h.age.remUs p 0 + 100) % 1000) }) h) p = planeBin e h p := planeBin_congr rfl rfl p
  split
  · next n =>
    refine ⟨getAt_setAt_self _ _ _ _ a, ?_, fun c _ => rfl, fun q n => ⟨getAt_setAt_ne _ _ _ _ _ n, fun c => rfl⟩⟩
    rw [if_pos (by omega)]
    rfl
  · next n =>
    rw [e1]
    have w : ∀ (q : Nat) (f : Bin → Bin) (K : Hub), q < K.age.planes.length → ∀ d, binAt (onBin q d f K) q d = f (binAt K q d) ∧
        (∀ c, c ≠ d → binAt (onBin q d f K) q c = binAt K q c) ∧ ∀ q', q' ≠ q → ∀ c, binAt (onBin q d f K) q' c = binAt K q' c := by
      intro q f K l d
      unfold binAt onBin
      dsimp only
      refine ⟨?_, fun c m => ?_, fun q' m c => ?_⟩
      · rw [getAt_setAt_self _ _ _ _ l, Tab.getD_put_self]
      · rw [getAt_setAt_self _ _ _ _ l, Tab.getD_put_ne _ _ _ _ _ m]
      · rw [getAt_setAt_ne _ _ _ _ _ m]
    obtain ⟨w1, w2, w3⟩ := w p (fun b => { b with residence := sat 40 (b.residence + (getAt h.age.remUs p 0 + 100) / 1000) })
      (onAge (fun a => { a with remUs := setAt a.remUs p ((getAt h.age.remUs p 0 + 100) % 1000) }) h) b (planeBin e h p)
    refine ⟨getAt_setAt_self _ _ _ _ a, ?_, fun c m => w2 c m, fun q m => ⟨getAt_setAt_ne _ _ _ _ _ m, fun c => w3 q m c⟩⟩
    rw [if_neg (by omega), w1]
    rfl

/-- The planes of a tick, one after another: each gains its own part. -/
theorem residence_fold (e : Env) (l : List Nat) (h : Hub) (nd : l.Nodup) (a : ∀ p ∈ l, p < h.age.remUs.length ∧ p < h.age.planes.length) :
    (l.foldl (residencePlane e) h).age.lastTick = h.age.lastTick ∧
    ∀ p, (p ∈ l → getAt (l.foldl (residencePlane e) h).age.remUs p 0 = (getAt h.age.remUs p 0 + 100) % 1000 ∧
      (binAt (l.foldl (residencePlane e) h) p (planeBin e h p)).residence =
        (if getAt h.age.remUs p 0 + 100 < 1000 then (binAt h p (planeBin e h p)).residence
         else sat 40 ((binAt h p (planeBin e h p)).residence + (getAt h.age.remUs p 0 + 100) / 1000)) ∧
      ∀ c, c ≠ planeBin e h p → binAt (l.foldl (residencePlane e) h) p c = binAt h p c) ∧
    (p ∉ l → getAt (l.foldl (residencePlane e) h).age.remUs p 0 = getAt h.age.remUs p 0 ∧ ∀ c, binAt (l.foldl (residencePlane e) h) p c = binAt h p c) := by
  induction l generalizing h with
  | nil => exact ⟨rfl, fun p => ⟨fun m => absurd m (by simp), fun _ => ⟨rfl, fun _ => rfl⟩⟩⟩
  | cons q t ih =>
    obtain ⟨k1, k2, k3, k4, k5⟩ := residencePlane_keeps e h q
    obtain ⟨g1, g2, g3, g4⟩ := residencePlane_at e h q (a q (List.mem_cons_self ..)).1 (a q (List.mem_cons_self ..)).2
    have nd' := List.nodup_cons.mp nd
    obtain ⟨i1, i2⟩ := ih (residencePlane e h q) nd'.2 (fun p m => by rw [k4, k5]; exact a p (List.mem_cons_of_mem _ m))
    have pb : ∀ p, planeBin e (residencePlane e h q) p = planeBin e h p := fun p => planeBin_congr k1 k2 p
    rw [List.foldl_cons]
    refine ⟨i1.trans k3, fun p => ⟨fun m => ?_, fun m => ?_⟩⟩
    · by_cases z : p = q
      · subst z
        obtain ⟨j1, j2⟩ := (i2 p).2 nd'.1
        exact ⟨j1.trans g1, by rw [j2]; exact g2, fun c n => (j2 c).trans (g3 c n)⟩
      · have m' : p ∈ t := (List.mem_cons.mp m).resolve_left z
        obtain ⟨j1, j2, j3⟩ := (i2 p).1 m'
        obtain ⟨y1, y2⟩ := g4 p z
        rw [pb] at j2 j3
        rw [y1, y2] at j2
        exact ⟨by rw [j1, y1], j2, fun c n => (j3 c n).trans (y2 c)⟩
    · have n1 : p ≠ q := fun z => m (z ▸ List.mem_cons_self ..)
      obtain ⟨j1, j2⟩ := (i2 p).2 (fun z => m (List.mem_cons_of_mem _ z))
      obtain ⟨y1, y2⟩ := g4 p n1
      exact ⟨j1.trans y1, fun c => (j2 c).trans (y2 c)⟩

/-! Concentration (R354). -/

theorem meanDrift_congr {h k : Hub} {r : Nat} (a : zone k r = zone h r) : meanDrift k r = meanDrift h r := by unfold meanDrift; rw [a]

theorem askCondition_age (e : Env) (c k : Nat) (h : Hub) : (askCondition e c k h).age.zones = h.age.zones ∧ (askCondition e c k h).age.lastConc = h.age.lastConc := by
  unfold askCondition
  dsimp only
  split
  · exact ⟨rfl, rfl⟩
  · rw [(dueTest_only ..).keep .age (by decide)]
    exact ⟨rfl, rfl⟩

theorem concCell_age (e : Env) (p k : Nat) (h : Hub) : (concCell e p k h).age.zones = h.age.zones ∧ (concCell e p k h).age.lastConc = h.age.lastConc := by
  have f : ∀ (l : List Nat) (h : Hub), (l.foldl (fun h c => askCondition e c k h) h).age.zones = h.age.zones ∧
      (l.foldl (fun h c => askCondition e c k h) h).age.lastConc = h.age.lastConc := by
    intro l
    induction l with
    | nil => exact fun _ => ⟨rfl, rfl⟩
    | cons x t ih => exact fun h => ⟨((ih _).1).trans (askCondition_age ..).1, ((ih _).2).trans (askCondition_age ..).2⟩
  unfold concCell
  dsimp only
  split
  · have q := f (coresInCell e (emit 14 1 0 (if p < 8 ∧ e.tray = false then ownId e h 2 p else unitId e h 12) 12 3
        [w32 p, w32 (k / 8), w32 (k % 8), w32 (cellOf h p (k / 8) (k % 8)).1, w32 (cellOf h p (k / 8) (k % 8)).2] h) p k)
      (emit 14 1 0 (if p < 8 ∧ e.tray = false then ownId e h 2 p else unitId e h 12) 12 3
        [w32 p, w32 (k / 8), w32 (k % 8), w32 (cellOf h p (k / 8) (k % 8)).1, w32 (cellOf h p (k / 8) (k % 8)).2] h)
    rw [(emit_only ..).keep .age (by decide)] at q
    exact q
  · rw [(report_only ..).keep .age (by decide), (emit_only ..).keep .age (by decide)]
    exact ⟨rfl, rfl⟩

theorem concCells_age (e : Env) (l : List Nat) (h : Hub) :
    (l.foldl (fun h p => ((cellsWith h p).filter (concentrated h p)).foldl (fun h k => concCell e p k h) h) h).age.zones = h.age.zones ∧
    (l.foldl (fun h p => ((cellsWith h p).filter (concentrated h p)).foldl (fun h k => concCell e p k h) h) h).age.lastConc = h.age.lastConc := by
  have f : ∀ (p : Nat) (l : List Nat) (h : Hub), (l.foldl (fun h k => concCell e p k h) h).age.zones = h.age.zones ∧
      (l.foldl (fun h k => concCell e p k h) h).age.lastConc = h.age.lastConc := by
    intro p l
    induction l with
    | nil => exact fun _ => ⟨rfl, rfl⟩
    | cons x t ih => exact fun h => ⟨((ih _).1).trans (concCell_age ..).1, ((ih _).2).trans (concCell_age ..).2⟩
  induction l generalizing h with
  | nil => exact ⟨rfl, rfl⟩
  | cons x t ih => exact ⟨((ih _).1).trans (f ..).1, ((ih _).2).trans (f ..).2⟩

/-- The hourly drift points of the regions (R346). -/
theorem hourly_fold (l : List Nat) (h : Hub) (nd : l.Nodup) (a : ∀ r ∈ l, r < h.age.zones.length) :
    (l.foldl (fun h r => onZone r (fun z => { z with hourly := (z.hourly ++ [meanDrift h r]).drop (z.hourly.length + 1 - 720) }) h) h).age.lastConc = h.age.lastConc ∧
    ∀ r, zone (l.foldl (fun h r => onZone r (fun z => { z with hourly := (z.hourly ++ [meanDrift h r]).drop (z.hourly.length + 1 - 720) }) h) h) r =
      if r ∈ l then { zone h r with hourly := ((zone h r).hourly ++ [meanDrift h r]).drop ((zone h r).hourly.length + 1 - 720) } else zone h r := by
  induction l generalizing h with
  | nil => exact ⟨rfl, fun r => by rw [if_neg (by simp)]; rfl⟩
  | cons q t ih =>
    have nd' := List.nodup_cons.mp nd
    obtain ⟨i1, i2⟩ := ih (onZone q (fun z => { z with hourly := (z.hourly ++ [meanDrift h q]).drop (z.hourly.length + 1 - 720) }) h) nd'.2
      (fun p m => by rw [onZone_length]; exact a p (List.mem_cons_of_mem _ m))
    rw [List.foldl_cons]
    refine ⟨i1, fun r => ?_⟩
    rw [i2]
    by_cases z : r = q
    · subst z
      rw [if_neg nd'.1, if_pos (List.mem_cons_self ..), zone_onZone (a _ (List.mem_cons_self ..))]
    · rw [meanDrift_congr (zone_onZone_ne z), zone_onZone_ne z]
      by_cases m : r ∈ t
      · rw [if_pos m, if_pos (List.mem_cons_of_mem _ m)]
      · rw [if_neg m, if_neg (fun w => (List.mem_cons.mp w).elim z m)]

end Sys2Proof.Machine
end

