-- ==== Sys2Proof/Laws/Rec.lean ====
section
/-!
SUPPORT. The event recorder: records that join its queue, its pages, and the tray's record log, said once.
-/
namespace Sys2Proof.Machine

/-- A record that finds room and no loss before it joins the queue with the next RSEQ. -/
theorem emit_joins {ty sev cmpl : Nat} {x : Word} {unit code : Nat} {pl : List Word} {h : Hub} (a : alive h = true) (l : h.log.lossDue = 0)
    (q : h.log.queue.length < 64) : (emit ty sev cmpl x unit code pl h).log = (pushRec ty sev cmpl x unit code pl (nowNs h) h).log := by
  have f : (h.sys.st == .flush) = false := by
    unfold alive at a
    cases v : h.sys.st <;> rw [v] at a <;> first | rfl | exact absurd a (by decide)
  have i : ∀ b, (irq b h).log = h.log := fun _ => rfl
  unfold emit emitAt
  rw [f, a, if_neg (by decide), if_neg (by decide)]
  dsimp only
  have n : ¬(h.log.queue.length + 1 > 64) := by omega
  split <;> split <;> simp only [irq, l, if_true, if_neg n, pushRec]

/-- A reply by a channel whose reply buffer is free writes no record. -/
theorem answer_log {e : Env} {code st det : Nat} {x : Ctx} {res : List Word} {h : Hub} {ch : BitVec 2} (q : x.req = .channel ch)
    (f : (chan h ch.toNat).rbuf = none) : (answer e code false x st det res h).log = h.log := by
  have L : ∀ (r : Reply) (k : Hub), k.log = h.log → k.cmd.chans = h.cmd.chans → (chanPut ch.toNat r k).log = h.log := by
    intro r k a b
    have g : (chan k ch.toNat).rbuf = none := by unfold chan; rw [b]; exact f
    unfold chanPut
    dsimp only
    rw [g]
    split
    · exact a
    · exact a
  unfold answer
  rw [q]
  dsimp only [Bool.false_and, sendReply]
  split
  · exact L _ _ rfl rfl
  · refine L _ _ ?_ (by simp)
    exact (onSeq_only ..).keep .log (by decide)

/-- What a record written leaves of the SRAM areas. -/
theorem emit_areas (ty sev cmpl : Nat) (x : Word) (unit code : Nat) (pl : List Word) (h : Hub) :
    (emit ty sev cmpl x unit code pl h).log.full = h.log.full ∧ (emit ty sev cmpl x unit code pl h).log.drift = h.log.drift ∧
      (emit ty sev cmpl x unit code pl h).log.bedrock = h.log.bedrock := by
  unfold emit emitAt
  dsimp only
  split
  · exact ⟨rfl, rfl, rfl⟩
  · split
    · exact ⟨rfl, rfl, rfl⟩
    · split <;> split <;> split <;> (try split) <;> exact ⟨rfl, rfl, rfl⟩

/-- A record finds its place in the bedrock area, or in the drift area (R551). -/
theorem storeRec_areas (e : Env) (r : Rec) (h : Hub) :
    (h.log.full = false → sizeOf_ h.log.bedrock + r.size ≤ 32768 →
      storeRec e r h = onLog (fun l => { l with bedrock := l.bedrock ++ [{ r with took := nowNs h }] }) h) ∧
    (h.log.full = true ∨ 32768 < sizeOf_ h.log.bedrock + r.size → (storeRec e r h).log.full = true ∧
      (storeRec e r h).log.drift = (trimDrift (h.log.drift ++ [{ r with took := nowNs h }])).2 ∧ (storeRec e r h).log.bedrock = h.log.bedrock) := by
  unfold storeRec
  dsimp only
  rw [show Rec.size { r with took := nowNs h } = r.size from rfl]
  generalize 32768 = m
  refine ⟨fun f d => ?_, fun d => ?_⟩
  · rw [f, decide_eq_true d]
    rfl
  · have n : ¬((!h.log.full && decide (sizeOf_ h.log.bedrock + r.size ≤ m)) = true) := by
      simp only [Bool.and_eq_true, Bool.not_eq_true', decide_eq_true_eq]
      rintro ⟨x, y⟩
      rcases d with d | d
      · rw [d] at x; cases x
      · omega
    rw [if_neg n]
    have I : ∀ (p : Prop) [Decidable p] (pl : List Word) (c : Nat) (k : Hub), (if p then k else emit 10 1 0 noEnt 10 c pl k).log.full = k.log.full ∧
        (if p then k else emit 10 1 0 noEnt 10 c pl k).log.drift = k.log.drift ∧ (if p then k else emit 10 1 0 noEnt 10 c pl k).log.bedrock = k.log.bedrock := by
      intro p _ pl c k
      split
      · exact ⟨rfl, rfl, rfl⟩
      · exact emit_areas ..
    refine ⟨(I ..).1.trans ((I ..).1.trans rfl), (I ..).2.1.trans ((I ..).2.1.trans rfl), (I ..).2.2.trans ((I ..).2.2.trans rfl)⟩

theorem appendLog_log {node soff : Nat} {body : List Byte} {h : Hub} {a : Nat} (t : trayLogAddr h = some a) :
    (appendLog node soff body h).log = { h.log with
      logIndex := dropOld h.log.logPtr (logEntry node soff body.length ((h.log.logSenders.find? (fun p => decide (p.1 = node))).any (fun p => decide (p.2 ≠ soff))) (nowNs h) body).length
          h.log.logIndex ++ [(((h.log.logIndex.getLast?).map (fun x => x.1 + 1)).getD 0, h.log.logPtr,
          (logEntry node soff body.length ((h.log.logSenders.find? (fun p => decide (p.1 = node))).any (fun p => decide (p.2 ≠ soff))) (nowNs h) body).length)]
      logPtr := (h.log.logPtr + (logEntry node soff body.length ((h.log.logSenders.find? (fun p => decide (p.1 = node))).any (fun p => decide (p.2 ≠ soff))) (nowNs h) body).length) % trayLogSize
      logSenders := h.log.logSenders.filter (fun x => decide (x.1 ≠ node)) ++ [(node, (soff + body.length / 4) % 2 ^ 24)] } := by
  unfold appendLog
  rw [t]
  dsimp only
  generalize logEntry node soff body.length ((h.log.logSenders.find? (fun p => decide (p.1 = node))).any (fun p => decide (p.2 ≠ soff))) (nowNs h) body = bs
  have k : (((chunksOf 64 bs).zipIdx).foldl (fun h' c => postMem (a + (h.log.logPtr + 64 * c.2) % trayLogSize) c.1 h') h).log = h.log :=
    (Only.foldl (ps := [.ram]) (fun _ _ => Only.step (Only.refl _ _) (postMem_only ..) rfl) _ (Only.refl _ _)).keep .log (by decide)
  simp only [onLog, k]

/-- Pages appended to the drift log move the recorder's write pointer and the erased space, and nothing else of it. -/
theorem appendDrift_log (bs : List Byte) (h : Hub) : (appendDrift bs h).log = { h.log with nvptr := (appendDrift bs h).log.nvptr, erased := (appendDrift bs h).log.erased } := by
  unfold appendDrift
  generalize chunksOf 256 (padTo 256 bs) = l
  induction l generalizing h with
  | nil => rfl
  | cons x t ih =>
    rw [List.foldl_cons]
    exact ih _

theorem head_due {h : Hub} {r : Rec} {l : List Rec} (n : Nat) (d : r.took + n ≤ nowNs h) : (r :: l).head?.any (fun r => decide (r.took + n ≤ nowNs h)) = true := by
  rw [List.head?_cons, Option.any_some]
  exact decide_eq_true d

/-- The oldest record that waits for the mirror was accepted 10 ms ago (R553). -/
theorem pageDue_head {h : Hub} {r : Rec} {l : List Rec} (b : unmirrored h = r :: l) (d : r.took + 10000000 ≤ nowNs h) : pageDue h = true := by
  unfold pageDue
  rw [b]
  exact head_due (l := l) 10000000 d

/-- What the mirror's pages leave of the recorder. -/
def Recorder.pages (l : Recorder) : Recorder := { l with nvptr := 0, erased := 0, slotPtr := 0, mirrored := 0, part := 0 }

theorem mirrorPage_pages (h : Hub) : (mirrorPage h).log.pages = h.log.pages := by
  unfold mirrorPage
  split
  · rfl
  · dsimp only
    split
    · rfl
    · simp only [onLog, Recorder.pages]
      rw [appendDrift_log]

theorem mirrorAll_pages (n : Nat) (h : Hub) : (mirrorAll n h).log.pages = h.log.pages := by
  induction n generalizing h with
  | zero => rfl
  | succ n ih =>
    unfold mirrorAll
    split
    · rfl
    · rw [ih, mirrorPage_pages]

/-- The page that the mirror writes next, and how far it then is (R553). -/
theorem mirrorPage_next {h : Hub} {r : Rec} {l : List Rec} {seg : List Rec} {bs : List Byte} (u : unmirrored h = r :: l)
    (s : (r :: l).takeWhile (fun x => toSlot h x == toSlot h r) = seg) (b : ((seg.flatMap Rec.bytes).drop h.log.part).take 256 = bs) :
    (mirrorPage h).log.mirrored = (advance seg h.log.mirrored (h.log.part + bs.length)).1 ∧
    (toSlot h r = true → (mirrorPage h).log.slotPtr = h.log.slotPtr + 256 ∧
      (mirrorPage h).nvPosted = (nvPost (slotAddr h h.log.bootseq.toNat + h.log.slotPtr) (padTo 256 bs) h).nvPosted) ∧
    (toSlot h r = false → (mirrorPage h).log.slotPtr = h.log.slotPtr ∧ (mirrorPage h).nvPosted = (appendDrift bs h).nvPosted) := by
  unfold mirrorPage
  rw [u]
  dsimp only
  rw [s, b]
  refine ⟨rfl, fun z => ?_, fun z => ?_⟩
  · rw [z, if_pos rfl]
    exact ⟨rfl, rfl⟩
  · rw [z]
    refine ⟨?_, rfl⟩
    show (appendDrift bs h).log.slotPtr = _
    rw [appendDrift_log]

end Sys2Proof.Machine
end

