-- ==== Sys2Proof/Laws/Sb.lean ====
section
/-!
SUPPORT. The sideband: what sending and receiving frames leave of the unit and its ports, said once.
-/
namespace Sys2Proof.Machine

theorem Frames.refl (h : Hub) : Frames h h := ⟨Only.refl _ _, rfl, fun _ => rfl⟩
theorem Frames.trans {h k l : Hub} (a : Frames h k) (b : Frames k l) : Frames h l :=
  ⟨a.only.trans b.only, b.sb.trans a.sb, fun i => (b.port i).trans (a.port i)⟩
theorem Frames.ite {h k l : Hub} {c : Prop} [Decidable c] (a : Frames h k) (b : Frames h l) : Frames h (if c then k else l) := by
  split
  · exact a
  · exact b
theorem Frames.foldl {α : Type} {f : Hub → α → Hub} (hf : ∀ h x, Frames h (f h x)) (l : List α) (h : Hub) : Frames h (l.foldl f h) := by
  induction l generalizing h with
  | nil => exact Frames.refl h
  | cons x l ih => exact (hf h x).trans (ih _)

theorem setAt_out {α : Type} {l : List α} {i : Nat} {a : α} (n : l.length ≤ i) : setAt l i a = l := by
  induction l generalizing i with
  | nil => rfl
  | cons x t ih =>
    cases i with
    | zero => simp at n
    | succ i => simp only [setAt, ih (Nat.le_of_succ_le_succ n)]

theorem sbPort_onPort {i : Nat} {f : Port → Port} {h : Hub} (l : i < h.sb.ports.length) : sbPort (onPort i f h) i = f (sbPort h i) := getAt_setAt_self _ _ _ _ l
theorem sbPort_onPort_ne {i j : Nat} {f : Port → Port} {h : Hub} (n : j ≠ i) : sbPort (onPort i f h) j = sbPort h j := getAt_setAt_ne _ _ _ _ _ n
@[simp] theorem onPort_length (i : Nat) (f : Port → Port) (h : Hub) : (onPort i f h).sb.ports.length = h.sb.ports.length := length_setAt ..
@[simp] theorem sbPort_clean' (h : Hub) (i : Nat) : sbPort h.clean i = sbPort h i := rfl
theorem sbPort_congr {h k : Hub} (a : k.sb = h.sb) (i : Nat) : sbPort k i = sbPort h i := by unfold sbPort; rw [a]
@[simp] theorem member_clean (h : Hub) (d : Nat) : member h.clean d = member h d := rfl

/-- A change of a port that leaves everything but its line. -/
theorem onPort_frames (i : Nat) (f : Port → Port) (h : Hub) (k : ∀ p, (f p).line = p.line) : Frames h (onPort i f h) := by
  refine ⟨onPort_only .., rfl, fun j => ?_⟩
  by_cases n : j = i
  · subst n
    by_cases l : j < h.sb.ports.length
    · rw [sbPort_onPort l, k]
    · unfold onPort sbPort
      dsimp only
      rw [setAt_out (by omega)]
  · rw [sbPort_onPort_ne n]

/-- A change of the unit's figures of frames. -/
theorem Frames.figures {h : Hub} {s : Sb} (a : s.line = h.sb.line) (p : s.ports = h.sb.ports) : Frames h { h with sb := s } :=
  ⟨Only.set_sb (Only.refl _ _) rfl, a, fun i => by unfold sbPort; rw [p]⟩

theorem Frames.onPort {h k : Hub} {i : Nat} {f : Port → Port} (a : Frames h k) (l : ∀ p, (f p).line = p.line) : Frames h (onPort i f k) :=
  a.trans (onPort_frames i f k l)

theorem sbLocal_frames (i : Nat) (f : SbFrame) (h : Hub) : Frames h (sbLocal i f h) := by
  unfold sbLocal
  exact Frames.onPort (Frames.figures rfl rfl) (fun _ => rfl)

theorem sbPump_frames (n i : Nat) (h : Hub) : Frames h (sbPump n i h) := by
  induction n generalizing h with
  | zero => exact Frames.refl h
  | succ n ih =>
    unfold sbPump
    dsimp only
    split
    · exact Frames.refl h
    · split
      · exact Frames.refl h
      · refine Frames.trans ?_ (ih _)
        exact Frames.onPort (Frames.figures rfl rfl) (fun _ => rfl)

theorem sbOut_frames (i : Nat) (f : SbFrame) (h : Hub) : Frames h (sbOut i f h) := by
  unfold sbOut
  refine Frames.ite (Frames.refl h) (Frames.ite (Frames.figures rfl rfl) (Frames.trans ?_ (sbPump_frames ..)))
  exact Frames.onPort (Frames.refl h) (fun _ => rfl)

theorem sbAlong_frames (e : Env) (r : Route) (t : Nat) (f : SbFrame) (h : Hub) : Frames h (sbAlong e r t f h) := by
  unfold sbAlong
  exact Frames.foldl (fun _ _ => Frames.ite (sbOut_frames ..) (sbOut_frames ..)) _ _

theorem sbFlood_frames (e : Env) (f : SbFrame) (h : Hub) : Frames h (sbFlood e f h) := by
  unfold sbFlood
  exact Frames.foldl (fun _ _ => Frames.foldl (fun _ _ => sbOut_frames ..) _ _) _ _

theorem sbUp_frames (e : Env) (a : Option Bool) (f : SbFrame) (h : Hub) : Frames h (sbUp e a f h) := by
  unfold sbUp
  dsimp only
  have n : Frames h (sbNextMseq h) := Frames.figures rfl rfl
  split
  · split
    · exact n.trans (sbFlood_frames ..)
    · exact n.trans (Frames.figures rfl rfl)
  · split
    · exact n.trans (sbAlong_frames ..)
    · exact n

theorem sbDown_frames (e : Env) (a : Bool) (d : Nat) (f : SbFrame) (h : Hub) : Frames h (sbDown e a d f h) := by
  unfold sbDown
  dsimp only
  have n : Frames h (sbNextMseq h) := Frames.figures rfl rfl
  split
  · exact n.trans (sbAlong_frames ..)
  · exact n.trans (Frames.figures rfl rfl)

theorem sbLack_frames (i : Nat) (l : BitVec 8) (h : Hub) : Frames h (sbLack i l h) := by
  unfold sbLack
  refine Frames.ite (Frames.refl h) (Frames.trans ?_ (sbPump_frames ..))
  exact Frames.onPort (Frames.refl h) (fun _ => rfl)

/-- A frame acted on: the port has taken it and sent what it lets go. -/
theorem sbRx_ok {e : Env} {h : Hub} {type i : Nat} {f : SbFrame} (a : sbOk e h type i f = true) :
    Frames h (sbRx e i f h).1 ∧ (sbRx e i f h).2 = true := by
  unfold sbOk at a
  simp only [Bool.and_eq_true, decide_eq_true_eq, Bool.not_eq_true'] at a
  obtain ⟨⟨⟨⟨⟨⟨⟨⟨⟨⟨a1, a2⟩, a3⟩, a4⟩, a5⟩, a6⟩, a7⟩, a8⟩, a9⟩, a10⟩, a11⟩ := a
  unfold sbRx
  dsimp only
  rw [if_neg (by rw [a1, a2]; decide), if_neg (by
    simp only [Bool.or_eq_true, decide_eq_true_eq, a4, Bool.false_eq_true, false_or]
    rintro ((((z | z) | z) | z) | z)
    · omega
    · omega
    · exact z a7
    · omega
    · omega)]
  rw [a3]
  have fr : Frames h { h with sb := { h.sb with rxFrames := h.sb.rxFrames + 1 } } := Frames.figures rfl rfl
  by_cases t : type ≤ 3
  · rw [if_pos t] at a10 ⊢
    simp only [Bool.or_eq_true, decide_eq_true_eq] at a10
    rw [if_neg (by rintro ⟨z1, z2⟩; rcases a10 with w | w; exacts [w z1, z2 w])]
    exact ⟨fr.trans (sbLack_frames ..), rfl⟩
  · rw [if_neg t] at a10 ⊢
    simp only [Bool.and_eq_true, decide_eq_true_eq, Bool.not_eq_true'] at a10
    obtain ⟨⟨b1, b2⟩, b3⟩ := a10
    rw [if_neg (by rw [b1]; exact fun z => z rfl), if_neg (by rw [b2]; decide), if_pos b3]
    refine ⟨Frames.trans ?_ (sbLocal_frames ..), rfl⟩
    exact Frames.onPort (fr.trans (sbLack_frames ..)) (fun _ => rfl)

theorem sbOk_type {e : Env} {h : Hub} {type i : Nat} {f : SbFrame} (a : sbOk e h type i f = true) : f.ftype.toNat = type ∧ (f.flood && floodSeen f h) = false := by
  unfold sbOk at a
  simp only [Bool.and_eq_true, decide_eq_true_eq, Bool.not_eq_true'] at a
  exact ⟨a.1.1.1.1.1.1.1.1.2, a.2⟩

theorem Frames.acted {h k : Hub} (a : Frames h k) : Acted h k := ⟨a.only, by unfold Sb.acted; rw [a.sb], a.port⟩

/-- A frame acted on is handed to what acts on it. -/
theorem sbOn_ok {e : Env} {h : Hub} {type i : Nat} {f : SbFrame} (act : Hub → Hub) (a : sbOk e h type i f = true) :
    ∃ k, Acted h k ∧ sbOn e type i f act h = act k := by
  obtain ⟨b, c⟩ := sbRx_ok a
  obtain ⟨d, w⟩ := sbOk_type a
  have fl : floodSeen f (sbRx e i f h).1 = floodSeen f h := by
    unfold floodSeen
    have q := congrArg Sb.flooded b.sb
    rw [show (sbRx e i f h).1.sb.flooded = h.sb.flooded from q]
  unfold sbOn
  dsimp only
  rw [c, decide_eq_true d, if_pos (by decide), fl]
  cases z : f.flood with
  | false => exact ⟨_, b.acted, rfl⟩
  | true =>
    rw [z] at w
    have w' : floodSeen f h = false := w
    rw [if_pos rfl, w', if_neg (by decide)]
    exact ⟨_, ⟨b.only.trans (noteFlood_only ..), by rw [show (noteFlood f (sbRx e i f h).1).sb.acted = (sbRx e i f h).1.sb.acted from rfl]; exact b.acted.sb,
      fun j => b.port j⟩, rfl⟩

/-- A message whole here leaves the fragments held in the sideband. -/
theorem sbAssemble_congr {f : SbFrame} {h k : Hub} (r : k.sb.reasm = h.sb.reasm) : (sbAssemble f k).2 = (sbAssemble f h).2 := by
  unfold sbAssemble
  rw [r]
  dsimp only
  split
  · rfl
  · split <;> (try split) <;> (try split) <;> rfl

theorem sbAssemble_acted {f : SbFrame} {h k : Hub} (a : Acted h k) : (sbAssemble f k).2 = (sbAssemble f h).2 := by
  have q := congrArg Sb.reasm a.sb
  exact sbAssemble_congr q

/-- A message for this block that has arrived whole, as the frame that ends it is acted on. -/
theorem sbMessage_ok {e : Env} {h : Hub} {type i : Nat} {f : SbFrame} {b : List Byte} (a : sbMessage e h type i f = some b) :
    sbOk e h type i f = true ∧ sbMine e f = true ∧ (sbAssemble f h).2 = some b := by
  unfold sbMessage at a
  split at a
  · next w => simp only [Bool.and_eq_true] at w; exact ⟨w.1, w.2, a⟩
  · cases a

end Sys2Proof.Machine
end

