-- ==== Sys2Proof/Laws/Bc.lean ====
section
/-!
SUPPORT. The broadcast: what a message that has arrived is handed to, and how far a broadcast goes, said once.
-/
namespace Sys2Proof.Machine

/-- A command that passes its checks has its values in range (step 13 of Table 12.3). -/
theorem passes_range {d : OpDef} {c : Cmd} {s : State} (p : passes d c s = true) : d.range s.env (consumed c s) (ctxOf c s) = none := by
  unfold passes at p
  simp only [Bool.and_eq_true, Option.isNone_iff_eq_none] at p
  exact p.2

theorem firstBad_none {l : List (Nat × Bool)} (a : firstBad l = none) : ∀ p ∈ l, p.2 = true := by
  intro p m
  unfold firstBad at a
  have := List.find?_eq_none.mp (Option.map_eq_none_iff.mp a) p m
  simpa using this

theorem upRoute_congr (e : Env) {h k : Hub} (a : k.img = h.img) (p : BitVec 4 × Route) : upRoute e k p = upRoute e h p := by
  unfold upRoute trayPortOf meshStep dieNo imgOf
  rw [a]

theorem backOf_congr (e : Env) {h k : Hub} (a : k.img = h.img) (i : Nat) (f : SbFrame) : backOf e i f k = backOf e i f h := by
  unfold backOf
  rw [upRoute_congr e a]

/-- A broadcast message that has arrived is handed on; beside the reception nothing has changed. -/
theorem bcastRx_ok {e : Env} {h : Hub} {m : BcastIn} {x : BRx} {want : List Nat} (f : BRx → Hub → Hub) (a : bcastMsg e h m = some x)
    (w : want.contains x.msg.phase = true) : ∃ k, Only [.sb, .fab] h k ∧ k.fab.outq = h.fab.outq ∧ bcastRx e m want f h = f x k := by
  cases m with
  | photen p port =>
    unfold bcastMsg at a
    dsimp only at a
    split at a
    · next z =>
      simp only [Bool.and_eq_true] at z
      obtain ⟨b, q, rfl⟩ := Option.map_eq_some_iff.mp a
      obtain ⟨r, y⟩ := photenRx_ok (fun r h => match readBMsg r.body with
        | some b => if e.tray && want.contains b.phase then f { src := r.src, back := .photen (BitVec.ofNat 18 r.src), msg := b } h else h
        | none => h) z.2
      refine ⟨{ h with fab := { h.fab with rx := Tab.put h.fab.rx ((photenFields p).src * 4 + (photenFields p).tc) r, accepted := h.fab.accepted + 1 } },
        Only.set_fab (Only.refl _ _) rfl, rfl, ?_⟩
      refine Eq.trans y ?_
      dsimp only
      rw [q]
      dsimp only
      have w' : want.contains b.phase = true := w
      rw [z.1, w']
      rfl
    · cases a
  | sb port fr =>
    unfold bcastMsg at a
    dsimp only at a
    obtain ⟨b, q, rfl⟩ := Option.map_eq_some_iff.mp a
    obtain ⟨bs, q1, q2⟩ := Option.bind_eq_some_iff.mp q
    obtain ⟨c1, c2, c3⟩ := sbMessage_ok q1
    obtain ⟨k, k1, k2⟩ := sbOn_ok (fun h =>
      if !sbMine e fr then h
      else match sbAssemble fr h with
        | (h, none) => h
        | (h, some bs) => match readBMsg bs with
          | some b => if want.contains b.phase then f { src := fr.src.toNat, back := .sb (backOf e port.toNat fr h), msg := b } h else h
          | none => h) c1
    have as : (sbAssemble fr k).2 = some bs := (sbAssemble_acted k1).trans c3
    rcases hz : sbAssemble fr k with ⟨k3, o⟩
    rw [hz] at as
    have as' : o = some bs := as
    subst as'
    have o3 : Only [.sb] h k3 := k1.only.trans (Only.pair hz (sbAssemble_only ..))
    refine ⟨k3, Only.weaken o3 rfl, by rw [o3.keep .fab (by decide)], ?_⟩
    refine Eq.trans k2 ?_
    rw [c2, hz]
    dsimp only
    have w' : want.contains b.phase = true := w
    rw [q2]
    dsimp only
    rw [w', backOf_congr e (o3.keep .img (by decide))]
    rfl

@[simp] theorem sbMessage_clean (e : Env) (h : Hub) (type i : Nat) (f : SbFrame) : sbMessage e h.clean type i f = sbMessage e h type i f := by
  unfold sbMessage
  rw [show sbOk e h.clean type i f = sbOk e h type i f from rfl, sbAssemble_congr (h := h) (k := h.clean) rfl]

@[simp] theorem bcastMsg_clean (e : Env) (h : Hub) (m : BcastIn) : bcastMsg e h.clean m = bcastMsg e h m := by
  cases m with
  | photen p port => rfl
  | sb port f =>
    unfold bcastMsg
    dsimp only
    rw [sbMessage_clean, backOf_congr e (h := h) (k := h.clean) rfl]

theorem beNat_lt (l : List Byte) : beNat l < 256 ^ l.length := by
  have k : ∀ (l : List Byte) (a : Nat), l.foldl (fun n b => n * 256 + b.toNat) a < (a + 1) * 256 ^ l.length := by
    intro l
    induction l with
    | nil => intro a; simp
    | cons x l ih =>
      intro a
      have := ih (a * 256 + x.toNat)
      have hx : x.toNat < 256 := x.isLt
      rw [List.foldl_cons, List.length_cons, Nat.pow_succ]
      refine Nat.lt_of_lt_of_le this ?_
      calc (a * 256 + x.toNat + 1) * 256 ^ l.length ≤ ((a + 1) * 256) * 256 ^ l.length := Nat.mul_le_mul_right _ (by omega)
        _ = (a + 1) * (256 ^ l.length * 256) := by rw [Nat.mul_assoc, Nat.mul_comm 256]
  simpa [beNat] using k l 0

theorem beAt_lt (l : List Byte) (o n : Nat) : beAt l o n < 256 ^ n := by
  unfold beAt
  refine Nat.lt_of_lt_of_le (beNat_lt _) (Nat.pow_le_pow_right (by decide) ?_)
  simp

theorem bcastMsg_small {e : Env} {h : Hub} {m : BcastIn} {x : BRx} (a : bcastMsg e h m = some x) : x.msg.group < 65536 ∧ x.msg.bid < 65536 := by
  have k : ∀ (bs : List Byte) (y : BMsg), readBMsg bs = some y → y.group < 65536 ∧ y.bid < 65536 := by
    intro bs y q
    unfold readBMsg at q
    dsimp only at q
    split at q
    · cases q
    · cases q
      exact ⟨beAt_lt bs 4 2, beAt_lt bs 2 2⟩
  cases m with
  | photen p port =>
    unfold bcastMsg at a
    dsimp only at a
    split at a
    · obtain ⟨b, q, rfl⟩ := Option.map_eq_some_iff.mp a
      exact k _ _ q
    · cases a
  | sb port fr =>
    unfold bcastMsg at a
    dsimp only at a
    obtain ⟨b, q, rfl⟩ := Option.map_eq_some_iff.mp a
    obtain ⟨bs, q1, q2⟩ := Option.bind_eq_some_iff.mp q
    exact k _ _ q2

/-- An answer that goes back over Photen is queued for the block it goes to. -/
theorem sendBack_photen {e : Env} {n : Node} {m : BMsg} {h : Hub} :
    (sendBack e (.photen n) m h).fab.outq = h.fab.outq ++ [{ type := 1, tc := 1, dst := BitVec.ofNat 18 n.toNat, flow := BitVec.ofNat 16 m.group, soff := 0
                                                             tb := nowNs h, body := m.bytes }] := by
  unfold sendBack bPhoten
  dsimp only
  rw [photenSend_queues (by decide)]
  rfl

/-! Broadcasts held. -/

theorem heldB_congr {h k : Hub} (a : k.bc.held = h.bc.held) (g b : Nat) : heldB k g b = heldB h g b := by unfold heldB; rw [a]
@[simp] theorem heldB_clean (h : Hub) (g b : Nat) : heldB h.clean g b = heldB h g b := rfl
@[simp] theorem seenB_clean (h : Hub) (g b : Nat) : seenB h.clean g b = seenB h g b := rfl
@[simp] theorem groupB_clean (h : Hub) (g : Nat) : groupB h.clean g = groupB h g := rfl
@[simp] theorem groupOf_clean (h : Hub) (g : Nat) : groupOf h.clean g = groupOf h g := rfl

theorem heldB_is {h : Hub} {g b : Nat} {x : Bcast} (a : heldB h g b = some x) : x.group.toNat = g ∧ x.bid.toNat = b := by
  have := List.find?_some a
  simpa using this

theorem sameB_iff (x y : Bcast) : sameB x y = true ↔ y.group.toNat = x.group.toNat ∧ y.bid.toNat = x.bid.toNat := by
  unfold sameB
  simp only [Bool.and_eq_true, decide_eq_true_eq, BitVec.toNat_eq]
  exact ⟨fun z => ⟨z.1.symm, z.2.symm⟩, fun z => ⟨z.1.symm, z.2.symm⟩⟩

theorem heldB_putB {x : Bcast} {h : Hub} {g b : Nat} (xg : x.group.toNat = g) (xb : x.bid.toNat = b) (o : (heldB h g b).isSome = true) :
    heldB (putB x h) g b = some x := by
  subst xg xb
  unfold heldB at o ⊢
  show List.find? _ (h.bc.held.map _) = _
  generalize h.bc.held = l at o ⊢
  induction l with
  | nil => cases o
  | cons y l ih =>
    rw [List.map_cons]
    by_cases s : sameB x y = true
    · rw [if_pos s, List.find?_cons_of_pos (by simp)]
    · rw [if_neg s]
      have n : (decide (y.group.toNat = x.group.toNat) && decide (y.bid.toNat = x.bid.toNat)) = false := by
        rw [← Bool.not_eq_true, Bool.and_eq_true, decide_eq_true_eq, decide_eq_true_eq]
        exact fun z => s ((sameB_iff x y).mpr z)
      rw [List.find?_cons] at o ⊢
      rw [n] at o ⊢
      exact ih o

theorem heldB_addB {x : Bcast} {h : Hub} {g b : Nat} (xg : x.group.toNat = g) (xb : x.bid.toNat = b) : (heldB (addB x h) g b).isSome = true := by
  subst xg xb
  unfold heldB
  rw [List.find?_isSome]
  exact ⟨x, List.mem_append_right _ (List.mem_singleton_self _), by simp⟩

theorem heldB_dropB {x : Bcast} {h : Hub} {g b : Nat} (xg : x.group.toNat = g) (xb : x.bid.toNat = b) : heldB (dropB x h) g b = none := by
  subst xg xb
  unfold heldB
  rw [List.find?_eq_none]
  intro y m
  have := (List.mem_filter.mp m).2
  simp only [Bool.not_eq_true'] at this
  simp only [Bool.and_eq_true, decide_eq_true_eq]
  intro z
  rw [(sameB_iff x y).mpr z] at this
  cases this

/-! How far a broadcast goes. -/

theorem asked_ids {a b : Bcast} (h : a.asked = b.asked) : a.group = b.group ∧ a.bid = b.bid := by
  have p := congrArg Bcast.group h
  have q := congrArg Bcast.bid h
  exact ⟨p, q⟩

theorem trayPart_asked (e : Env) (b : Bcast) (h : Hub) : (trayPart e b h).2.asked = b.asked ∧ (trayPart e b h).2.phase = b.phase ∧ Only [.sb] h (trayPart e b h).1 := by
  refine ⟨?_, ?_, trayPart_only ..⟩ <;>
  · unfold trayPart
    dsimp only
    split <;> split <;> (try split) <;> rfl

theorem upPart_asked (b : Bcast) (h : Hub) : (upPart b h).2.asked = b.asked ∧ (upPart b h).2.phase = b.phase ∧ Only [.xs, .fab] h (upPart b h).1 := by
  refine ⟨?_, ?_, upPart_only ..⟩ <;>
  · unfold upPart
    split <;> rfl

theorem lackingD_congr {h k : Hub} (i : k.img = h.img) (j : k.jobs = h.jobs) (b : Bcast) : lackingD k b = lackingD h b := by
  unfold lackingD wantedD membersIn groupB myTray
  rw [groupOf_congr i j, imgOf_congr i]

/-- The part in the tree is over: the members without an answer are asked once more (R401). -/
theorem trayPart_again {e : Env} {b : Bcast} {h : Hub} (t : b.tree = 0) (d : b.treeDue ≤ nowNs h) (l : lackingD h b ≠ []) (p : 0 < h.bc.tack) :
    ∃ k, Only [.sb] h k ∧ trayPart e b h = (k, { b with tree := 1, treeDue := nowNs h + 2 * h.bc.tack }) := by
  have O : Only [.sb] h ((lackingD h b).foldl (fun h d => sbDown e true d (bFrame (bodyDown b true)) h) h) :=
    Only.foldl (fun _ _ => sbDown_only ..) _ (Only.refl _ _)
  refine ⟨_, O, ?_⟩
  have e1 : (if b.tree = 0 ∧ (b.awaitD.isEmpty = true ∨ b.treeDue ≤ nowNs h) then
      if (lackingD h b).isEmpty then (h, { b with tree := 2 })
      else ((lackingD h b).foldl (fun h d => sbDown e true d (bFrame (bodyDown b true)) h) h, { b with tree := 1, treeDue := nowNs h + 2 * h.bc.tack })
    else (h, b)) = ((lackingD h b).foldl (fun h d => sbDown e true d (bFrame (bodyDown b true)) h) h, { b with tree := 1, treeDue := nowNs h + 2 * h.bc.tack }) := by
    rw [if_pos ⟨t, .inr d⟩, if_neg (by simpa using l)]
  unfold trayPart
  dsimp only
  rw [e1]
  dsimp only
  rw [lackingD_congr (O.keep .img (by decide)) (O.keep .jobs (by decide)), show lackingD h { b with tree := 1, treeDue := nowNs h + 2 * h.bc.tack } = lackingD h b from rfl, if_neg (by
    rintro ⟨-, z | z⟩
    · simp at z; exact l z
    · omega)]

/-- The members asked once more have had their time (R401). -/
theorem trayPart_ends {e : Env} {b : Bcast} {h : Hub} (t : b.tree = 1) (d : b.treeDue ≤ nowNs h) : trayPart e b h = (h, { b with tree := 2 }) := by
  have e1 : (if b.tree = 0 ∧ (b.awaitD.isEmpty = true ∨ b.treeDue ≤ nowNs h) then
      if (lackingD h b).isEmpty then (h, { b with tree := 2 })
      else ((lackingD h b).foldl (fun h d => sbDown e true d (bFrame (bodyDown b true)) h) h, { b with tree := 1, treeDue := nowNs h + 2 * h.bc.tack })
    else (h, b)) = (h, b) := if_neg (by rw [t]; rintro ⟨z, -⟩; cases z)
  unfold trayPart
  dsimp only
  rw [e1]
  exact if_pos ⟨t, .inr d⟩

theorem endPhase_bc (e : Env) (b : Bcast) (h : Hub) :
    (b.phase < 2 → ∃ p s, p.asked = b.asked ∧ p.phase = 1 ∧ p.exD = b.exD ∧ p.exT = b.exT ∧ (endPhase e b h).bc = { (putB p h).bc with seen := s }) ∧
    (2 ≤ b.phase → ∃ s, (endPhase e b h).bc = { (dropB b h).bc with seen := s }) := by
  have N : ∀ c g d bs (k : Hub), ∃ s, (noteSeen c g d bs k).bc = { k.bc with seen := s } := fun c g d bs k => ⟨_, rfl⟩
  have F : ∀ id st det res bl k, (finish e id st det res bl k).bc = k.bc := fun id st det res bl k => (finish_only ..).keep .bc (by decide)
  have B : ∀ bk m k, (sendBack e bk m k).bc = k.bc := fun bk m k => (sendBack_only ..).keep .bc (by decide)
  have G : ∀ (back : Back) (c : Bool) (m : BMsg) (x : Bcast) (k : Hub), k.bc = h.bc →
      (∃ s, (putB x (noteSeen c b.group.toNat b.bid.toNat m.bytes (sendBack e back m k))).bc = { (putB x h).bc with seen := s }) ∧
      (∃ s, (dropB x (noteSeen c b.group.toNat b.bid.toNat m.bytes (sendBack e back m k))).bc = { (dropB x h).bc with seen := s }) := by
    intro back c m x k q
    obtain ⟨s, n⟩ := N c b.group.toNat b.bid.toNat m.bytes (sendBack e back m k)
    rw [B, q] at n
    refine ⟨⟨s, ?_⟩, ⟨s, ?_⟩⟩
    · unfold putB onBc; dsimp only; rw [n]
    · unfold dropB onBc; dsimp only; rw [n]
  unfold endPhase
  dsimp only
  split
  · refine ⟨fun z => ?_, fun z => ?_⟩
    · rw [if_pos z, F]
      exact ⟨{ b with phase := 1, pend := none, prepared := b.ackD.length + (b.covered - b.refused) }, h.bc.seen, rfl, rfl, rfl, rfl, rfl⟩
    · rw [if_neg (by omega), F]
      exact ⟨h.bc.seen, rfl⟩
  · refine ⟨fun z => ?_, fun z => ?_⟩
    · rw [if_pos z]
      obtain ⟨s, q⟩ := (G b.back (decide (b.phase ≥ 2)) (answerOf e { h with fab := { h.fab with phases := h.fab.phases + 1, excluded := h.fab.excluded + (if b.phase < 2 then excludedCount h b else 0) } } b) { b with phase := 1 } { h with fab := { h.fab with phases := h.fab.phases + 1, excluded := h.fab.excluded + (if b.phase < 2 then excludedCount h b else 0) } } rfl).1
      exact ⟨{ b with phase := 1 }, s, rfl, rfl, rfl, rfl, q⟩
    · rw [if_neg (by omega)]
      exact (G b.back (decide (b.phase ≥ 2)) (answerOf e { h with fab := { h.fab with phases := h.fab.phases + 1, excluded := h.fab.excluded + (if b.phase < 2 then excludedCount h b else 0) } } b) b { h with fab := { h.fab with phases := h.fab.phases + 1, excluded := h.fab.excluded + (if b.phase < 2 then excludedCount h b else 0) } } rfl).2

/-- A broadcast's place after it has gone on: still held, with its answers, and perhaps answered, or let go at the end of a commit phase. -/
structure Goes (b : Bcast) (h k : Hub) : Prop where
  rest : ∃ l s, k.bc = { h.bc with held := l, seen := s }
  held : ∀ {g d}, b.group.toNat = g → b.bid.toNat = d → (heldB h g d).isSome = true →
    (∃ p, heldB k g d = some p ∧ p.asked = b.asked ∧ (p.phase = b.phase ∨ (b.phase < 2 ∧ p.phase = 1))) ∨ (2 ≤ b.phase ∧ heldB k g d = none)

theorem goes_end {e : Env} {b x : Bcast} {h k : Hub} (a : x.asked = b.asked) (p : x.phase = b.phase) (o : k.bc = h.bc) : Goes b h (endPhase e x k) := by
  obtain ⟨q1, q2⟩ := endPhase_bc e x k
  have i := asked_ids a
  by_cases z : x.phase < 2
  · obtain ⟨p1, s, w1, w2, -, -, w⟩ := q1 z
    have j := asked_ids w1
    refine ⟨⟨_, _, w.trans (by unfold putB onBc; dsimp only; rw [o])⟩, fun {g d} xg xb y => .inl ⟨p1, ?_, w1.trans a, .inr ⟨by omega, w2⟩⟩⟩
    rw [heldB_congr (show (endPhase e x k).bc.held = (putB p1 h).bc.held by rw [w]; unfold putB onBc; dsimp only; rw [o])]
    exact heldB_putB (by rw [j.1, i.1]; exact xg) (by rw [j.2, i.2]; exact xb) y
  · obtain ⟨s, w⟩ := q2 (by omega)
    refine ⟨⟨_, _, w.trans (by unfold dropB onBc; dsimp only; rw [o])⟩, fun {g d} xg xb y => .inr ⟨by omega, ?_⟩⟩
    rw [heldB_congr (show (endPhase e x k).bc.held = (dropB x h).bc.held by rw [w]; unfold dropB onBc; dsimp only; rw [o])]
    exact heldB_dropB (by rw [i.1]; exact xg) (by rw [i.2]; exact xb)

theorem goes_put {b x : Bcast} {h k : Hub} (a : x.asked = b.asked) (p : x.phase = b.phase) (o : k.bc = h.bc) : Goes b h (putB x k) := by
  have i := asked_ids a
  refine ⟨⟨_, _, show (putB x k).bc = _ by unfold putB onBc; dsimp only; rw [o]⟩, fun {g d} xg xb y => .inl ⟨x, ?_, a, .inl p⟩⟩
  exact heldB_putB (by rw [i.1]; exact xg) (by rw [i.2]; exact xb) (by rw [heldB_congr (h := h) (k := k) (by rw [o])]; exact y)

/-- A broadcast that goes on (R401–R404). -/
theorem advanceB_goes (e : Env) (b : Bcast) (h : Hub) : Goes b h (advanceB e b h) := by
  unfold advanceB
  dsimp only
  split
  · obtain ⟨a1, a2, a3⟩ := trayPart_asked e b h
    obtain ⟨b1, b2, b3⟩ := upPart_asked (trayPart e b h).2 (trayPart e b h).1
    have o : (upPart (trayPart e b h).2 (trayPart e b h).1).1.bc = h.bc := (b3.keep .bc (by decide)).trans (a3.keep .bc (by decide))
    split
    · refine goes_end ?_ ?_ o
      · unfold excludeD
        split
        · exact b1.trans a1
        · exact b1.trans a1
      · unfold excludeD
        split
        · exact b2.trans a2
        · exact b2.trans a2
    · exact goes_put (b1.trans a1) (b2.trans a2) o
  · split
    · exact goes_end rfl rfl rfl
    · exact goes_put rfl rfl rfl

/-- A phase that starts asks the children and the trays below, with no answer yet. -/
theorem startPhase_asked (e : Env) (b : Bcast) (h : Hub) :
    (startPhase e b h).2.asked = { b with awaitD := treeKids e h, ackD := [], refD := [], ackT := [], refT := [], fullT := [], covered := 0, refused := 0 }.asked ∧
      (startPhase e b h).2.phase = b.phase ∧ Only [.xs, .fab, .sb] h (startPhase e b h).1 := ⟨rfl, rfl, startPhase_only ..⟩

/-- A COMMIT or ABORT of a broadcast held here in its prepare phase (R404): the commit phase starts and goes on, in die role after the member's own
part. -/
theorem commitIn_held {e : Env} {x : BRx} {b : Bcast} {h : Hub} (f : fromAbove e x = true) (a : heldB h x.msg.group x.msg.bid = some b) (p : b.phase < 2) :
    ∃ k y z, Only [.xs, .fab, .sb] h k ∧ commitIn e x h = advanceB e y (if e.tray then k else (commitOwn e z x k).1) ∧ y.phase = 2 ∧
      y.abort = decide (x.msg.phase = 4) ∧ y.back = x.back ∧ y.cmd = b.cmd ∧ y.group = b.group ∧ y.bid = b.bid ∧
      z.member = b.member ∧ z.status = b.status ∧ z.window = b.window ∧ z.cmd = b.cmd ∧
      (e.tray = false → y.ackD = if (commitOwn e z x k).2 then [dieNo e k] else []) := by
  unfold commitIn
  dsimp only
  rw [f, if_neg (by decide), a]
  have p' : ((some b).any (fun b => decide (b.phase ≥ 2)) || ((some b).isNone && decide (h.bc.held.length ≥ 4))) = false := by
    simp only [Option.any_some, Option.isNone_some, Bool.false_and, Bool.or_false, decide_eq_false_iff_not]
    omega
  dsimp only
  rw [p']
  simp only [Option.isNone_some, Option.getD_some, Bool.false_eq_true, if_false]
  generalize hx : ({ b with phase := 2, abort := decide (x.msg.phase = 4), back := x.back, exT := _, exD := _ } : Bcast) = b1
  obtain ⟨s1, s2, s3⟩ := startPhase_asked e b1 h
  have j1 : b1.group = b.group := by rw [← hx]
  have j2 : b1.bid = b.bid := by rw [← hx]
  have j3 : b1.abort = decide (x.msg.phase = 4) := by rw [← hx]
  have j4 : b1.back = x.back := by rw [← hx]
  have j5 : b1.cmd = b.cmd := by rw [← hx]
  have j6 : b1.phase = 2 := by rw [← hx]
  have j7 : b1.member = b.member := by rw [← hx]
  have j8 : b1.status = b.status := by rw [← hx]
  have j9 : b1.window = b.window := by rw [← hx]
  cases t : e.tray with
  | true =>
    refine ⟨(startPhase e b1 h).1, { (startPhase e b1 h).2 with ackD := [] }, b1, s3, rfl, j6, j3, j4, j5, j1, j2, j7, j8, j9, j5, fun z => absurd z (by decide)⟩
  | false =>
    exact ⟨(startPhase e b1 h).1, { (startPhase e b1 h).2 with ackD := if (commitOwn e b1 x (startPhase e b1 h).1).2 then [dieNo e h] else [] }, b1, s3, rfl,
      j6, j3, j4, j5, j1, j2, j7, j8, j9, j5, fun _ => by rw [dieNo_congr e (s3.keep .img (by decide))]⟩

/-! Datagrams sent on the management port. -/

/-- What datagrams queued on the segments leave of the management port. -/
def Mgt.sent (m : Mgt) : Mgt := { m with a := {}, b := {}, dropped := 0 }

theorem mgtQueue_sent (b : Bool) (c : Nat) (f : Frame) (h : Hub) : (mgtQueue b c f h).mgt.sent = h.mgt.sent := by
  unfold mgtQueue
  dsimp only
  split
  · rfl
  · cases b <;> rfl

theorem mgtSend_sent (c : Nat) (o : Option Bool) (p : List Byte) (h : Hub) : (mgtSend c o p h).mgt.sent = h.mgt.sent := by
  unfold mgtSend
  dsimp only
  split
  · split
    · split <;> split
      · exact (mgtQueue_sent ..).trans (mgtQueue_sent ..)
      · exact mgtQueue_sent ..
      · exact mgtQueue_sent ..
      · rfl
    · exact mgtQueue_sent ..
  · split <;> exact mgtQueue_sent ..

theorem mgtReply_sent (e : Env) (k : Nat) (b : Bool) (p : List Byte) (h : Hub) : (mgtReply e k b p h).mgt.sent = h.mgt.sent := by
  unfold mgtReply
  split
  · rfl
  · exact mgtSend_sent ..

/-- A refused envelope is counted, whether or not it is answered. -/
theorem authFail_sent (e : Env) (b : Bool) (p : List Byte) (h : Hub) : (authFail e b p h).mgt.sent = { h.mgt.sent with authfail := h.mgt.authfail + 1 } := by
  unfold authFail
  dsimp only
  split
  · rfl
  · refine (mgtSend_sent ..).trans ?_
    cases b <;> rfl

theorem authFail_cmd (e : Env) (b : Bool) (p : List Byte) (h : Hub) : (authFail e b p h).cmd = h.cmd := by
  unfold authFail
  dsimp only
  split
  · rfl
  · refine ((mgtSend_only ..).keep .cmd (by decide)).trans ?_
    cases b <;> rfl

end Sys2Proof.Machine
end

