-- ==== Sys2Proof/Laws/Fab.lean ====
section
/-!
SUPPORT. Heartbeats and port states: what hearing a die and a port's change leave, said once.
-/
namespace Sys2Proof.Machine

@[simp] theorem member_onMember (d : Nat) (f : Member → Member) (h : Hub) : member (onMember d f h) d = f (member h d) := Tab.getD_put_self ..
theorem member_congr {h k : Hub} (a : k.sb = h.sb) (d : Nat) : member k d = member h d := by unfold member; rw [a]

/-- What a heartbeat leaves of a member die's record (R392–R394). -/
def Member.heard (m : Member) (b : Heartbeat) (now : Nat) : Member :=
  { m with
    last := now, state := b.state, quality := b.quality, playa := b.playa, ports := b.ports, offset := b.offset, waiting := b.waiting
    lost := false, sent := m.sent.filter (fun v => decide (v.msg.seq ≠ b.verdictSeq)) }

/-- A member die's heartbeat is its record, and a change of its port states makes the routes due. -/
theorem noteHeartbeat_sb {e : Env} {b : Heartbeat} {h : Hub} (a : memberDie e h b.die.toNat = true) :
    member (noteHeartbeat e b h) b.die.toNat = (member h b.die.toNat).heard b (nowNs h) ∧
      (noteHeartbeat e b h).sb.changed = (if (member h b.die.toNat).ports = b.ports then h.sb.changed else some (h.sb.changed.getD (nowNs h))) := by
  unfold noteHeartbeat
  dsimp only
  rw [a, if_neg (by decide)]
  generalize hc : (if (member h b.die.toNat).ports = b.ports then h else { h with sb := { h.sb with changed := some (h.sb.changed.getD (nowNs h)) } }) = c
  have c1 : member c b.die.toNat = member h b.die.toNat := by rw [← hc]; split <;> rfl
  have c2 : c.sb.changed = (if (member h b.die.toNat).ports = b.ports then h.sb.changed else some (h.sb.changed.getD (nowNs h))) := by rw [← hc]; split <;> rfl
  have c3 : nowNs c = nowNs h := by rw [← hc]; split <;> rfl
  generalize hd : (if (member h b.die.toNat).lost = true then featWrite e (dieId b.die.toNat) (imgOf c).features.lost (int32f 0) c else c) = d
  have d1 : d.sb = c.sb := by
    rw [← hd]
    split
    · exact (featWrite_only ..).keep .sb (by decide)
    · rfl
  have d2 : nowNs d = nowNs c := by
    rw [← hd]
    split
    · unfold nowNs
      rw [(featWrite_only ..).keep .time (by decide)]
    · rfl
  refine ⟨?_, ?_⟩
  · rw [member_onMember, member_congr d1, c1, d2, c3]
    rfl
  · show d.sb.changed = _
    rw [d1, c2]

/-! Ports. -/

/-- A port's change of state: the state, and in tray role the routes due. -/
theorem setPort_port {e : Env} {i st : Nat} {h : Hub} (l : i < h.sb.ports.length) (b : st < 4) :
    sbPort (setPort e i st h) i = { sbPort h i with state := BitVec.ofNat 2 st } ∧
      { (setPort e i st h).sb with ports := [], changed := none } = { h.sb with ports := [], changed := none } := by
  unfold setPort
  dsimp only
  split
  · next q =>
    have w : BitVec.ofNat 2 st = (sbPort h i).state := by rw [← q]; simp
    exact ⟨by rw [w], rfl⟩
  · generalize hk : emitState 6 _ (onPort i (fun p => { p with state := BitVec.ofNat 2 st }) h) = k
    have k1 : k.sb = (onPort i (fun p => { p with state := BitVec.ofNat 2 st }) h).sb := by rw [← hk]; exact (emitState_only ..).keep .sb (by decide)
    have k2 : sbPort k i = { sbPort h i with state := BitVec.ofNat 2 st } := by rw [sbPort_congr k1, sbPort_onPort l]
    split
    · exact ⟨k2, by dsimp only; rw [k1]; rfl⟩
    · exact ⟨k2, by rw [k1]; rfl⟩

/-- What is left of a port that goes DOWN. -/
def Port.down (p : Port) : Port := { p with state := 0, queue := [], unacked := [], lseq := 0, rseq := 0, resent := 0, ackDue := none, t1 := none }

/-- A port that goes DOWN restarts its link; what it held cannot be delivered. -/
theorem portDown_port {e : Env} {i : Nat} {h : Hub} (l : i < h.sb.ports.length) (n : (sbPort h i).state ≠ 0) :
    sbPort (portDown e i h) i = (sbPort h i).down ∧ (portDown e i h).sb.downs = h.sb.downs + 1 ∧
      (portDown e i h).sb.undeliv = h.sb.undeliv + ((sbPort h i).queue.length + (sbPort h i).unacked.length) ∧ (portDown e i h).sb.code = h.sb.code := by
  unfold portDown
  dsimp only
  rw [if_neg n]
  generalize hk : onPort i _ { h with sb := { h.sb with downs := h.sb.downs + 1, undeliv := h.sb.undeliv + ((sbPort h i).queue.length + (sbPort h i).unacked.length) } } = k
  have kl : i < k.sb.ports.length := by rw [← hk, onPort_length]; exact l
  have kp : sbPort k i = { sbPort h i with queue := [], unacked := [], lseq := 0, rseq := 0, resent := 0, ackDue := none, t1 := none } := by
    rw [← hk, sbPort_onPort (by exact l)]
    rfl
  obtain ⟨x, y⟩ := setPort_port (e := e) (st := 0) kl (by decide)
  have y1 := congrArg Sb.downs y
  have y2 := congrArg Sb.undeliv y
  have y3 := congrArg Sb.code y
  have z1 : (setPort e i 0 k).sb.downs = k.sb.downs := y1
  have z2 : (setPort e i 0 k).sb.undeliv = k.sb.undeliv := y2
  have z3 : (setPort e i 0 k).sb.code = k.sb.code := y3
  refine ⟨?_, ?_, ?_, ?_⟩
  · rw [x, kp]
    rfl
  · rw [z1, ← hk]
    rfl
  · rw [z2, ← hk]
    rfl
  · rw [z3, ← hk]
    rfl

theorem sbPump_length (n i : Nat) (h : Hub) : (sbPump n i h).sb.ports.length = h.sb.ports.length := by
  induction n generalizing h with
  | zero => rfl
  | succ n ih =>
    unfold sbPump
    dsimp only
    split
    · rfl
    · split
      · rfl
      · rw [ih, onPort_length]

theorem sbLack_length (i : Nat) (l : BitVec 8) (h : Hub) : (sbLack i l h).sb.ports.length = h.sb.ports.length := by
  unfold sbLack
  dsimp only
  repeat' split
  all_goals first | rfl | rw [sbPump_length, onPort_length]

theorem onPort_rseq (i : Nat) (f : Port → Port) (h : Hub) (k : ∀ p, (f p).rseq = p.rseq) (j : Nat) : (sbPort (onPort i f h) j).rseq = (sbPort h j).rseq := by
  by_cases n : j = i
  · subst n
    by_cases l : j < h.sb.ports.length
    · rw [sbPort_onPort l, k]
    · unfold onPort sbPort
      dsimp only
      rw [setAt_out (by omega)]
  · rw [sbPort_onPort_ne n]

theorem sbPump_rseq (n i : Nat) (h : Hub) (j : Nat) : (sbPort (sbPump n i h) j).rseq = (sbPort h j).rseq := by
  induction n generalizing h with
  | zero => rfl
  | succ n ih =>
    unfold sbPump
    dsimp only
    split
    · rfl
    · split
      · rfl
      · rw [ih, onPort_rseq]
        · rfl
        · exact fun _ => rfl

theorem sbLack_rseq (i : Nat) (l : BitVec 8) (h : Hub) (j : Nat) : (sbPort (sbLack i l h) j).rseq = (sbPort h j).rseq := by
  unfold sbLack
  dsimp only
  repeat' split
  all_goals first | rfl | (rw [sbPump_rseq, onPort_rseq]; exact fun _ => rfl)

/-- A link-local frame acted on: its LACK is taken, and nothing is answered yet. -/
theorem sbRx_local {e : Env} {h : Hub} {type i : Nat} {f : SbFrame} (a : sbOk e h type i f = true) (t : type ≤ 3) :
    sbRx e i f h = (sbLack i f.lack { h with sb := { h.sb with rxFrames := h.sb.rxFrames + 1 } }, true) := by
  unfold sbOk at a
  simp only [Bool.and_eq_true, decide_eq_true_eq, Bool.not_eq_true'] at a
  obtain ⟨⟨⟨⟨⟨⟨⟨⟨⟨⟨a1, a2⟩, a3⟩, a4⟩, a5⟩, a6⟩, a7⟩, a8⟩, a9⟩, a10⟩, a11⟩ := a
  rw [if_pos t] at a10
  simp only [Bool.or_eq_true, decide_eq_true_eq] at a10
  unfold sbRx
  dsimp only
  rw [if_neg (by rw [a1, a2]; decide), if_neg (by
    simp only [Bool.or_eq_true, decide_eq_true_eq, a4, Bool.false_eq_true, false_or]
    rintro ((((z | z) | z) | z) | z)
    · omega
    · omega
    · exact z a7
    · omega
    · omega), a3, if_pos t, if_neg (by rintro ⟨z1, z2⟩; rcases a10 with w | w; exacts [w z1, z2 w])]

/-- A frame acted on is handed on, noted first if it is flooded. -/
theorem sbOn_eq {e : Env} {h : Hub} {type i : Nat} {f : SbFrame} (act : Hub → Hub) (a : sbOk e h type i f = true) :
    sbOn e type i f act h = act (if f.flood then noteFlood f (sbRx e i f h).1 else (sbRx e i f h).1) := by
  obtain ⟨b, c⟩ := sbRx_ok a
  obtain ⟨d, w⟩ := sbOk_type a
  have fl : floodSeen f (sbRx e i f h).1 = floodSeen f h := by
    unfold floodSeen
    have q := congrArg Sb.flooded b.sb
    rw [show (sbRx e i f h).1.sb.flooded = h.sb.flooded from q]
  unfold sbOn
  dsimp only
  rw [c, decide_eq_true d, if_pos (by decide), fl]
  cases z : f.flood with
  | false => rfl
  | true =>
    rw [z] at w
    have w' : floodSeen f h = false := w
    rw [if_pos rfl, w', if_neg (by decide), if_pos rfl]

theorem Frames.noted {h k : Hub} (a : Frames h k) (f : SbFrame) : Acted h (if f.flood then noteFlood f k else k) := by
  split
  · exact ⟨a.only.trans (noteFlood_only ..), a.acted.sb, fun j => a.port j⟩
  · exact a.acted

/-- A link-local frame is handed to what acts on it with its port's received number as it was. -/
theorem sbOn_local {e : Env} {h : Hub} {type i : Nat} {f : SbFrame} (act : Hub → Hub) (a : sbOk e h type i f = true) (t : type ≤ 3) :
    ∃ k, Acted h k ∧ (sbPort k i).rseq = (sbPort h i).rseq ∧ k.sb.ports.length = h.sb.ports.length ∧ sbOn e type i f act h = act k := by
  refine ⟨_, (sbRx_ok a).1.noted f, ?_, ?_, sbOn_eq act a⟩
  · have r : (sbPort (sbRx e i f h).1 i).rseq = (sbPort h i).rseq := by
      rw [sbRx_local a t]
      dsimp only
      rw [sbLack_rseq]
      rfl
    split
    · exact r
    · exact r
  · have r : (sbRx e i f h).1.sb.ports.length = h.sb.ports.length := by
      rw [sbRx_local a t]
      dsimp only
      rw [sbLack_length]
    split
    · exact r
    · exact r

theorem sbLocal_length (i : Nat) (f : SbFrame) (h : Hub) : (sbLocal i f h).sb.ports.length = h.sb.ports.length := length_setAt ..

theorem sbRx_length {e : Env} {h : Hub} {type i : Nat} {f : SbFrame} (a : sbOk e h type i f = true) : (sbRx e i f h).1.sb.ports.length = h.sb.ports.length := by
  unfold sbOk at a
  simp only [Bool.and_eq_true, decide_eq_true_eq, Bool.not_eq_true'] at a
  obtain ⟨⟨⟨⟨⟨⟨⟨⟨⟨⟨a1, a2⟩, a3⟩, a4⟩, a5⟩, a6⟩, a7⟩, a8⟩, a9⟩, a10⟩, a11⟩ := a
  unfold sbRx
  dsimp only
  rw [if_neg (by rw [a1, a2]; decide), if_neg (by
    simp only [Bool.or_eq_true, decide_eq_true_eq, a4, Bool.false_eq_true, false_or]
    rintro ((((z | z) | z) | z) | z)
    · omega
    · omega
    · exact z a7
    · omega
    · omega)]
  split
  · split
    · rfl
    · exact sbLack_length ..
  · split
    · rfl
    · split
      · rfl
      · split
        · exact (sbLocal_length ..).trans ((onPort_length ..).trans (sbLack_length ..))
        · exact (sbLocal_length ..).trans (sbLack_length ..)

/-- A frame acted on is handed over with as many ports as there were. -/
theorem sbOn_ports {e : Env} {h : Hub} {type i : Nat} {f : SbFrame} (act : Hub → Hub) (a : sbOk e h type i f = true) :
    ∃ k, Acted h k ∧ k.sb.ports.length = h.sb.ports.length ∧ sbOn e type i f act h = act k := by
  refine ⟨_, (sbRx_ok a).1.noted f, ?_, sbOn_eq act a⟩
  split
  · exact sbRx_length a
  · exact sbRx_length a

theorem setPort_length (e : Env) (i st : Nat) (h : Hub) : (setPort e i st h).sb.ports.length = h.sb.ports.length := by
  unfold setPort
  dsimp only
  split
  · rfl
  · have k : (emitState 6 [w32 i, w32 (sbPort h i).state.toNat, w32 st] (onPort i (fun p => { p with state := BitVec.ofNat 2 st }) h)).sb.ports.length = h.sb.ports.length := by
      rw [(emitState_only ..).keep .sb (by decide), onPort_length]
    split
    · exact k
    · exact k

/-- A link-local frame is the last on its port's line. -/
theorem sbPort_sbLocal {i : Nat} {f : SbFrame} {h : Hub} (l : i < h.sb.ports.length) :
    sbPort (sbLocal i f h) i = { sbPort h i with last := some { f with lseq := 0, lack := (sbPort h i).rseq } } := by
  unfold sbLocal
  rw [sbPort_onPort (by exact l)]
  rfl

theorem sbPump_none {n i : Nat} {h : Hub} (q : (sbPort h i).queue = []) : sbPump n i h = h := by
  cases n with
  | zero => rfl
  | succ n =>
    unfold sbPump
    dsimp only
    rw [q]

/-! Routes. -/

/-- Two hubs see the same mesh: its map, the block's own port states, and the port states that its dies have told (R388). -/
structure SameMesh (h k : Hub) : Prop where
  img : k.img = h.img
  port : ∀ i, (sbPort k i).state = (sbPort h i).state
  up : ∀ d i, dieUp k d i = dieUp h d i

theorem SameMesh.refl (h : Hub) : SameMesh h h := ⟨rfl, fun _ => rfl, fun _ _ => rfl⟩
theorem SameMesh.trans {h k l : Hub} (a : SameMesh h k) (b : SameMesh k l) : SameMesh h l :=
  ⟨b.img.trans a.img, fun i => (b.port i).trans (a.port i), fun d i => (b.up d i).trans (a.up d i)⟩

theorem pathLevel_congr {h k : Hub} (a : SameMesh h k) (all : Bool) (front : List Path) (seen : List Nat) : pathLevel all k front seen = pathLevel all h front seen := by
  have s : ∀ p seen, pathSteps all k p seen = pathSteps all h p seen := by
    intro p seen
    unfold pathSteps meshStep imgOf
    simp only [a.img, a.up]
  unfold pathLevel
  simp only [s]

theorem pathSearch_congr {h k : Hub} (a : SameMesh h k) (all : Bool) (n : Nat) (front : List Path) (seen : List Nat) : pathSearch all k n front seen = pathSearch all h n front seen := by
  induction n generalizing front seen with
  | zero => rfl
  | succ n ih =>
    unfold pathSearch
    simp only [pathLevel_congr a, ih]

theorem pathStart_congr {h k : Hub} (a : SameMesh h k) (all : Bool) (skip : Option (BitVec 4)) (avoid : List Nat) : pathStart all k skip avoid = pathStart all h skip avoid := by
  unfold pathStart imgOf
  simp only [a.img, a.port, a.up]

theorem primaryTree_congr {h k : Hub} (a : SameMesh h k) (all : Bool) : primaryTree all k = primaryTree all h := by
  unfold primaryTree
  simp only [pathStart_congr a, pathSearch_congr a]

theorem alternatePath_congr {h k : Hub} (a : SameMesh h k) (p : Path) : alternatePath k p = alternatePath h p := by
  unfold alternatePath
  simp only [pathStart_congr a, pathSearch_congr a]

/-- The routes that a search gives a die: its primary, the alternate, and its tree children. -/
def routesOf (tree : List Path) (h : Hub) (d : Nat) : Option (BitVec 4 × Route) × Option (BitVec 4 × Route) × List (BitVec 2) :=
  ((tree.find? (fun p => decide (p.die = d))).map Path.asRoute, ((tree.find? (fun p => decide (p.die = d))).bind (alternatePath h)).map Path.asRoute, treeChildren tree d)

/-- The routes that the tray holds for a die. -/
def Member.routes (m : Member) : Option (BitVec 4 × Route) × Option (BitVec 4 × Route) × List (BitVec 2) := (m.primary, m.alternate, m.children)

/-- A die's routes become what the search gives, and nothing else of the mesh or of another die's record changes. -/
theorem routeDie_does (e : Env) (tree : List Path) (h : Hub) (d : Nat) :
    SameMesh h (routeDie e tree h d) ∧ (member (routeDie e tree h d) d).routes = routesOf tree h d ∧
      (∀ x, x ≠ d → member (routeDie e tree h d) x = member h x) ∧ (routeDie e tree h d).sb.changed = h.sb.changed := by
  unfold routeDie
  dsimp only
  split
  · next w => exact ⟨SameMesh.refl h, by unfold Member.routes routesOf; rw [w.1, w.2.1, w.2.2], fun _ _ => rfl, rfl⟩
  · generalize hk : onMember d (fun m => { m with
      primary := (tree.find? (fun p => decide (p.die = d))).map Path.asRoute, alternate := ((tree.find? (fun p => decide (p.die = d))).bind (alternatePath h)).map Path.asRoute
      children := treeChildren tree d }) h = k
    have km : SameMesh h k := by
      rw [← hk]
      refine ⟨rfl, fun _ => rfl, fun x i => ?_⟩
      unfold dieUp
      by_cases n : x = d
      · subst n
        rw [member_onMember]
      · unfold member onMember
        rw [Tab.getD_put_ne _ _ _ _ _ n]
    have kr : (member k d).routes = routesOf tree h d := by rw [← hk, member_onMember]; rfl
    have kx : ∀ x, x ≠ d → member k x = member h x := fun x n => by
      rw [← hk]
      unfold member onMember
      rw [Tab.getD_put_ne _ _ _ _ _ n]
    have kc : k.sb.changed = h.sb.changed := by rw [← hk]; rfl
    generalize hj : emitState 10 _ k = j
    have js : j.sb = k.sb := by rw [← hj]; exact (emitState_only ..).keep .sb (by decide)
    have ji : j.img = k.img := by rw [← hj]; exact (emitState_only ..).keep .img (by decide)
    generalize hr : (if ((tree.find? (fun p => decide (p.die = d))).isSome && ((tree.find? (fun p => decide (p.die = d))).bind (alternatePath h)).isNone &&
        ((member h d).alternate.isSome || (member h d).primary.isNone)) = true then report 2 .singlePath (dieId d) [] j else j) = r
    have rs : r.sb = j.sb := by rw [← hr]; split <;> rfl
    have ri : r.img = j.img := by rw [← hr]; split <;> rfl
    generalize hq : sbDown e _ d _ r = q
    have fr : Frames r q := by rw [← hq]; exact sbDown_frames ..
    have qm := congrArg Sb.members fr.sb
    have qm' : q.sb.members = r.sb.members := qm
    have qc := congrArg Sb.changed fr.sb
    have qc' : q.sb.changed = r.sb.changed := qc
    have mem : ∀ x, member q x = member k x := fun x => by unfold member; rw [qm', rs, js]
    refine ⟨km.trans ⟨?_, fun i => ?_, fun x i => ?_⟩, ?_, fun x n => ?_, ?_⟩
    · rw [fr.only.keep .img (by decide), ri, ji]
    · have z := congrArg Port.state (fr.port i)
      have z' : (sbPort q i).state = (sbPort r i).state := z
      rw [z']
      unfold sbPort
      rw [rs, js]
    · unfold dieUp
      rw [mem]
    · rw [mem, kr]
    · rw [mem, kx x n]
    · rw [qc', rs, js, kc]

/-- The dies of a list are all given what the search gives. -/
theorem routeDies_does (e : Env) (tree : List Path) (l : List Nat) (h : Hub) :
    (∀ d ∈ l, (member (l.foldl (fun h d => routeDie e tree h d) h) d).routes = routesOf tree h d) ∧
      (∀ x, x ∉ l → member (l.foldl (fun h d => routeDie e tree h d) h) x = member h x) ∧ (l.foldl (fun h d => routeDie e tree h d) h).sb.changed = h.sb.changed := by
  induction l generalizing h with
  | nil => exact ⟨fun d m => absurd m (List.not_mem_nil), fun _ _ => rfl, rfl⟩
  | cons a l ih =>
    obtain ⟨m, r, x, c⟩ := routeDie_does e tree h a
    obtain ⟨i1, i2, i3⟩ := ih (routeDie e tree h a)
    have same : ∀ d, routesOf tree (routeDie e tree h a) d = routesOf tree h d := fun d => by
      unfold routesOf
      simp only [funext (alternatePath_congr m)]
    refine ⟨fun d w => ?_, fun y n => ?_, i3.trans c⟩
    · by_cases z : d ∈ l
      · exact (i1 d z).trans (same d)
      · have q : d = a := by simpa [z] using w
        subst q
        exact (congrArg Member.routes (i2 d z)).trans r
    · simp only [List.mem_cons, not_or] at n
      exact (i2 y n.2).trans (x y n.1)

end Sys2Proof.Machine
end

