-- ==== Sys2Proof/Laws/Rounds.lean ====
section
/-!
SUPPORT. Rounds that are sent stay sent, whatever the levels above do with what they get; and what of a hub decides how a message is met.
-/
namespace Sys2Proof.Machine

/-- Every round that was sent is still there and sent. -/
structure SentMono (h k : Hub) : Prop where
  kept : ∀ i, (Tab.find h.xs.rounds i).map Round.sent = some true → (Tab.find k.xs.rounds i).map Round.sent = some true

theorem SentMono.refl (h : Hub) : SentMono h h := ⟨fun _ a => a⟩
theorem SentMono.trans {h k l : Hub} (a : SentMono h k) (b : SentMono k l) : SentMono h l := ⟨fun i x => b.kept i (a.kept i x)⟩
theorem SentMono.same {h k : Hub} (a : k.xs.rounds = h.xs.rounds) : SentMono h k := ⟨fun i x => by rw [a]; exact x⟩
theorem SentMono.ite {h k l : Hub} {c : Prop} [Decidable c] (a : SentMono h k) (b : SentMono h l) : SentMono h (if c then k else l) := by
  split
  · exact a
  · exact b
theorem SentMono.foldl {α : Type} {f : Hub → α → Hub} (hf : ∀ h x, SentMono h (f h x)) (l : List α) (h : Hub) : SentMono h (l.foldl f h) := by
  induction l generalizing h with
  | nil => exact SentMono.refl h
  | cons x l ih => exact (hf h x).trans (ih _)

/-- A round put where one was sent is sent. -/
theorem SentMono.put {h : Hub} {l g q : Nat} {r : Round} (a : (roundAt h l g q).map Round.sent = some true → r.sent = true) : SentMono h (putRound l g q r h) := by
  refine ⟨fun i x => ?_⟩
  by_cases n : i = roundKey l g q
  · subst n
    show (Tab.find (Tab.put h.xs.rounds _ r) _).map Round.sent = _
    rw [Tab.find_put_self]
    exact congrArg some (a x)
  · show (Tab.find (Tab.put h.xs.rounds _ r) _).map Round.sent = _
    rw [Tab.find_put_ne _ _ _ _ n]
    exact x

theorem redSend_mono (tc dst : Nat) (m : Red) (h : Hub) : SentMono h (redSend tc dst m h) := .same (redSend_rounds ..)

theorem carryElems_rounds (l q op n : Nat) (es : List Elem) (h : Hub) : (carryElems l q op n es h).xs.rounds = h.xs.rounds := rfl

theorem roundLate_rounds (l : Nat) (m : Red) (h : Hub) : (roundLate l m h).xs.rounds = h.xs.rounds := by
  unfold roundLate
  split <;> rfl

theorem takeCarry_rounds (l : Nat) (r : Round) (q : Nat) (h : Hub) : (takeCarry l r q h).1.xs.rounds = h.xs.rounds := by
  unfold takeCarry
  dsimp only
  split
  · rfl
  · split <;> rfl

theorem carryParts_rounds (l q : Nat) (r : Round) (h : Hub) : (carryParts l q r h).xs.rounds = h.xs.rounds := by
  unfold carryParts
  split
  · rfl
  · have k : ∀ (t : List RoundRx) (h : Hub), (t.foldl (fun h x => carryElems l q r.op.toNat x.first x.elems h) h).xs.rounds = h.xs.rounds := by
      intro t
      induction t with
      | nil => exact fun _ => rfl
      | cons x t ih => exact fun h => ih _
    exact k _ _

theorem coarsen_rounds (l q : Nat) (r : Round) (h : Hub) : (coarsen l q r h).1.xs.rounds = h.xs.rounds := by
  unfold coarsen
  dsimp only
  split
  · rfl
  · split <;> rfl

theorem emitUnit_rounds (c : Nat) (x : Word) (u : Nat) (pl : List Word) (h : Hub) : (emitUnit c x u pl h).xs = h.xs := (emitUnit_only ..).keep .xs (by decide)

theorem roundRefuse_rounds (e : Env) (l src : Nat) (m : Red) (t : Take) (h : Hub) : (roundRefuse e l src m t h).xs.rounds = h.xs.rounds := by
  unfold roundRefuse
  split
  · exact roundLate_rounds ..
  · rfl
  · rfl
  · split
    · rw [emitUnit_rounds]
    · rfl
  · rfl
  · rfl

theorem roundNoRoom_rounds (e : Env) (l : Nat) (m : Red) (h : Hub) : (roundNoRoom e l m h).xs.rounds = h.xs.rounds := by
  unfold roundNoRoom
  rw [emitUnit_rounds]
  exact roundLate_rounds ..

theorem trayResult_mono (h : Hub) (g : Group) (tc : Nat) (m : Red) : SentMono h (trayResult h g tc m) := by
  have tail : ∀ k : Hub, SentMono k (if isScoring k m.group then
      match roundAt k 0 m.group m.seq with
      | some r => putRound 0 m.group m.seq (resultTake r m) k
      | none => k
    else (g.dies.filter (fun d => decide (d / 128 = myTray k))).foldl (fun h d => redSend tc d m h) k) := by
    intro k
    refine .ite ?_ (.foldl (fun _ _ => redSend_mono ..) _ _)
    split
    · next r x =>
      refine .put (fun z => ?_)
      rw [x] at z
      have z' : r.sent = true := Option.some.inj z
      unfold resultTake
      dsimp only
      split <;> exact z'
    · exact .refl k
  unfold trayResult
  cases x : roundAt h 1 m.group m.seq with
  | none => exact tail h
  | some r => exact SentMono.trans (.put (fun z => by rw [x] at z; exact Option.some.inj z)) (tail _)

theorem combResult_mono (h : Hub) (g : Group) (tc : Nat) (m : Red) : SentMono h (combResult h g tc m) := by
  unfold combResult
  dsimp only
  refine SentMono.trans ?_ (.foldl (fun _ _ => .ite (trayResult_mono ..) (redSend_mono ..)) _ _)
  split
  · next r x => exact .put (fun z => by rw [x] at z; exact Option.some.inj z)
  · exact .refl h

theorem rootResult_mono (h : Hub) (g : Group) (f : List Nat) (tc : Nat) (m : Red) : SentMono h (rootResult h g f tc m) := by
  unfold rootResult
  exact SentMono.trans (.foldl (fun _ _ => .ite (combResult_mono ..) (redSend_mono ..)) _ _) (.foldl (fun _ _ => .ite (trayResult_mono ..) (redSend_mono ..)) _ _)

/-- The root has formed its result: its round is sent. -/
theorem rootForm_mono (e : Env) (g : Group) (group seq : Nat) (r : Round) (h : Hub) :
    SentMono h (rootForm e g group seq r h) ∧ (roundAt (rootForm e g group seq r h) 3 group seq).map Round.sent = some true := by
  have tail : ∀ (k j : Hub) (q : Round) (b : Bool) (es : List Elem) (f : List Nat) (tc : Nat) (m : Red), k.xs.rounds = h.xs.rounds → j.xs = (putRound 3 group seq { q with sent := true, done := true } k).xs →
      SentMono h (rootResult (roundDone b es j) g f tc m) ∧ (roundAt (rootResult (roundDone b es j) g f tc m) 3 group seq).map Round.sent = some true := by
    intro k j q b es f tc m a y
    have x : SentMono (putRound 3 group seq { q with sent := true, done := true } k) (rootResult (roundDone b es j) g f tc m) :=
      SentMono.trans (.same (by rw [← y]; rfl)) (rootResult_mono ..)
    refine ⟨SentMono.trans (SentMono.trans (.same a) (.put (fun _ => rfl))) x, x.kept _ ?_⟩
    show (roundAt (putRound 3 group seq { q with sent := true, done := true } k) 3 group seq).map Round.sent = _
    rw [roundAt_put_self]
    rfl
  unfold rootForm
  dsimp only
  refine tail (carryParts 3 seq (takeCarry 3 r seq h).2 (takeCarry 3 r seq h).1) _ (takeCarry 3 r seq h).2 _ _ _ _ _ ?_ ?_
  · rw [carryParts_rounds, takeCarry_rounds]
  · split
    · rw [emitUnit_rounds]
    · rfl

theorem roundAccept_taken {r q : Round} {src : Nat} {m : Red} (a : roundAccept r src m = .taken q) : r.sent = false ∧ q = roundTake r src m := by
  unfold roundAccept at a
  split at a
  · cases a
  · split at a
    · cases a
    · split at a
      · cases a
      · split at a
        · cases a
        · next n =>
          split at a
          · cases a
          · exact ⟨by simpa using n, by cases a; rfl⟩

theorem levelTake_mono {e : Env} {l src : Nat} {g : Group} {exp : List Nat} {tc : Nat} {m : Red} {send : Round → Hub → Hub} {h : Hub} (s : ∀ r h, SentMono h (send r h)) :
    SentMono h (levelTake e l src g exp tc m send h) := by
  unfold levelTake
  split
  · next r x =>
    split
    · next q y =>
      have ns : r.sent = false := by
        split at y
        · exact Bool.noConfusion (roundAccept_taken y).1
        · exact (roundAccept_taken y).1
      have p : SentMono h (putRound l m.group m.seq q h) := .put (fun z => by rw [x] at z; exact absurd (Option.some.inj z) (by rw [ns]; decide))
      exact .ite (p.trans (s _ _)) p
    · exact .same (roundRefuse_rounds ..)
  · next x =>
    refine .ite (.same (roundLate_rounds ..)) (.ite (.same (roundNoRoom_rounds ..)) ?_)
    have p : ∀ q, SentMono h (putRound l m.group m.seq q h) := fun q => .put (fun z => by rw [x] at z; cases z)
    exact .ite ((p _).trans (s _ _)) (p _)

theorem rootTake_mono (e : Env) (g : Group) (src tc : Nat) (m : Red) (h : Hub) : SentMono h (rootTake e g src tc m h) :=
  levelTake_mono (fun _ _ => (rootForm_mono ..).1)

/-- A combiner has sent its partial: its round is sent. -/
theorem combSend_mono (e : Env) (g : Group) (group seq : Nat) (r : Round) (h : Hub) :
    SentMono h (combSend e g group seq r h) ∧ (roundAt (combSend e g group seq r h) 2 group seq).map Round.sent = some true := by
  have tail : ∀ (k j : Hub) (q : Round), k.xs.rounds = h.xs.rounds → q.sent = true → SentMono (putRound 2 group seq q k) j →
      SentMono h j ∧ (roundAt j 2 group seq).map Round.sent = some true := by
    intro k j q a b x
    refine ⟨SentMono.trans (SentMono.trans (.same a) (.put (fun _ => b))) x, x.kept _ ?_⟩
    show (roundAt (putRound 2 group seq q k) 2 group seq).map Round.sent = _
    rw [roundAt_put_self]
    exact congrArg some b
  unfold combSend
  dsimp only
  refine tail (coarsen 2 seq (takeCarry 2 r seq h).2 (carryParts 2 seq r (takeCarry 2 r seq h).1)).1 _ _ ?_ ?_
    (.ite (.refl _) (.ite (rootTake_mono ..) (redSend_mono ..)))
  · rw [coarsen_rounds, carryParts_rounds, takeCarry_rounds]
  · rfl

theorem combTake_mono (e : Env) (g : Group) (src tc : Nat) (m : Red) (h : Hub) : SentMono h (combTake e g src tc m h) :=
  levelTake_mono (fun _ _ => (combSend_mono ..).1)

theorem trayDeliver_mono (e : Env) (g : Group) (d : Bool) (tc : Nat) (m : Red) (h : Hub) : SentMono h (trayDeliver e g d tc m h) := by
  unfold trayDeliver
  dsimp only
  split
  · exact .ite (combTake_mono ..) (redSend_mono ..)
  · exact .ite (rootTake_mono ..) (redSend_mono ..)

/-- A tray has sent its contribution: its round is sent. -/
theorem traySend_mono (e : Env) (g : Group) (group seq : Nat) (r : Round) (h : Hub) :
    SentMono h (traySend e g group seq r h) ∧ (roundAt (traySend e g group seq r h) 1 group seq).map Round.sent = some true := by
  have tail : ∀ (k j : Hub) (q : Round), k.xs.rounds = h.xs.rounds → q.sent = true → SentMono (putRound 1 group seq q k) j →
      SentMono h j ∧ (roundAt j 1 group seq).map Round.sent = some true := by
    intro k j q a b x
    refine ⟨SentMono.trans (SentMono.trans (.same a) (.put (fun _ => b))) x, x.kept _ ?_⟩
    show (roundAt (putRound 1 group seq q k) 1 group seq).map Round.sent = _
    rw [roundAt_put_self]
    exact congrArg some b
  have miss : ∀ (c : Prop) [Decidable c] (x : Word) (pl : List Word) (k : Hub), SentMono k (if c then k else emitUnit 22 x 30 pl k) := by
    intro c _ x pl k
    exact .ite (.refl k) (.same (by rw [emitUnit_rounds]))
  unfold traySend
  dsimp only
  refine tail (coarsen 1 seq (takeCarry 1 r seq h).2 (carryParts 1 seq r (takeCarry 1 r seq h).1)).1 _ _ ?_ ?_
    (.ite (miss ..) (SentMono.trans (miss ..) (trayDeliver_mono ..)))
  · rw [coarsen_rounds, carryParts_rounds, takeCarry_rounds]
  · rfl

/-! What is due. -/

theorem sendDue_none {h : Hub} {l group seq : Nat} {f : Round → Bool} (a : roundAt h l group seq = none) : (roundAt h l group seq).filter f = none := by rw [a]; rfl
theorem sendDue_some {h : Hub} {l group seq : Nat} {r : Round} {f : Round → Bool} (a : roundAt h l group seq = some r) (b : f r = true) : (roundAt h l group seq).filter f = some r := by
  rw [a]
  exact (Option.filter_some_pos b)

/-- The lowest level of a round that is due sends what it has. -/
theorem sendDue_level {e : Env} {g : Group} {l group seq : Nat} {due : Nat → Round → Bool} {h : Hub} {r : Round} (b : 1 ≤ l ∧ l ≤ 3)
    (n : ∀ i, 1 ≤ i → i < l → roundAt h i group seq = none) (a : roundAt h l group seq = some r) (u : r.sent = false) (d : due l r = true) :
    (roundAt (sendDue e g group seq due h) l group seq).map Round.sent = some true := by
  have two : ∀ k : Hub, SentMono k (match (roundAt k 2 group seq).filter (fun r => !r.sent && due 2 r) with
      | some r => combSend e g group seq r k
      | none => k) := by
    intro k
    split
    · exact (combSend_mono ..).1
    · exact .refl k
  have three : ∀ k : Hub, SentMono k (match (roundAt k 3 group seq).filter (fun r => !r.sent && due 3 r) with
      | some r => rootForm e g group seq r k
      | none => k) := by
    intro k
    split
    · exact (rootForm_mono ..).1
    · exact .refl k
  have f : ∀ i, due i r = true → (fun r : Round => !r.sent && due i r) r = true := by
    intro i x
    show (!r.sent && due i r) = true
    rw [u, x]
    rfl
  unfold sendDue
  dsimp only
  obtain rfl | rfl | rfl : l = 1 ∨ l = 2 ∨ l = 3 := by omega
  · rw [sendDue_some a (f 1 d)]
    dsimp only
    exact (three _).kept _ ((two _).kept _ (traySend_mono ..).2)
  · rw [sendDue_none (n 1 (by omega) (by omega))]
    dsimp only
    rw [sendDue_some a (f 2 d)]
    dsimp only
    exact (three _).kept _ (combSend_mono ..).2
  · rw [sendDue_none (n 1 (by omega) (by omega))]
    dsimp only
    rw [sendDue_none (n 2 (by omega) (by omega))]
    dsimp only
    rw [sendDue_some a (f 3 d)]
    exact (rootForm_mono ..).2

/-- On demand, a tray that is neither combiner nor root sends its contribution to the node above it. -/
theorem traySend_demand {e : Env} {g : Group} {group seq : Nat} {r : Round} {h : Hub} {dst : Nat} (w : r.window = 0) (d : r.direct = false) (tc : r.tc.toNat ≠ 3)
    (hd : dst = (combinerFor g (myTray h)).getD g.root) (n : dst ≠ myTray h) :
    (traySend e g group seq r h).xs.rounds = (putRound 1 group seq { r with sent := true, incomplete := roundIncomplete r, kept := false } h).xs.rounds ∧
      (traySend e g group seq r h).fab = { h.fab with outq := h.fab.outq ++ redOut h r.tc.toNat (2 ^ 17 + dst) (upMessage h 1 group seq r [myTray h]) } := by
  have c1 : takeCarry 1 r seq h = (h, r) := by unfold takeCarry; rw [if_pos w]
  have c2 : carryParts 1 seq r h = h := by unfold carryParts; rw [if_pos w]
  have c3 : coarsen 1 seq r h = (h, some r) := by unfold coarsen; dsimp only; rw [if_pos (Or.inl w)]
  unfold traySend
  rw [c1]
  dsimp only
  rw [c2, c3]
  dsimp only [Option.getD_some, Option.isNone_some]
  rw [if_neg (by decide)]
  generalize hm : upMessage h 1 group seq r [myTray h] = m
  have mi : m.incomplete = roundIncomplete r := by rw [← hm]; rfl
  rw [mi]
  generalize hk : putRound 1 group seq { r with sent := true, incomplete := roundIncomplete r, kept := false } h = k
  have k0 : k.fab = h.fab := by rw [← hk]; rfl
  have k1 : nowNs k = nowNs h := by rw [← hk]; rfl
  have k2 : k.img = h.img := by rw [← hk]; rfl
  generalize hj : (if (r.expected.filter (fun p => !posDone r p)).isEmpty then k
    else emitUnit 22 (unitId e k 30) 30 ([w32 group, w32 seq] ++ (r.expected.filter (fun p => !posDone r p)).map w32) k) = j
  have o : Only [.regs, .log] k j := by rw [← hj]; exact Only.ite (Only.refl _ _) (emitUnit_only ..)
  have j1 : nowNs j = nowNs h := by rw [← k1]; unfold nowNs; rw [o.keep .time (by decide)]
  have j2 : myTray j = myTray h := by unfold myTray imgOf; rw [o.keep .img (by decide), k2]
  have S : trayDeliver e g r.direct r.tc.toNat m j = redSend r.tc.toNat (2 ^ 17 + dst) m j := by
    unfold trayDeliver
    dsimp only
    rw [d, if_neg (by decide), j2]
    cases x : combinerFor g (myTray h) with
    | none =>
      rw [x, Option.getD_none] at hd
      dsimp only
      rw [if_neg (by rw [← hd]; exact n), hd]
    | some c =>
      rw [x, Option.getD_some] at hd
      dsimp only
      rw [if_neg (by rw [← hd]; exact n), hd]
  rw [S]
  refine ⟨?_, ?_⟩
  · rw [redSend_rounds, o.keep .xs (by decide)]
  · rw [redSend_queues tc, redOut_congr j1, o.keep .fab (by decide), k0]

/-- What of a hub names a round's group: its rounds, the jobs, the image, and the shadows. -/
theorem roundGroup_congr {h k : Hub} (o : Only [.xs, .fab] h k) (a : k.xs.rounds = h.xs.rounds) (group seq op : Nat) : roundGroup k group seq op = roundGroup h group seq op := by
  have j := o.keep .jobs (by decide)
  have i := o.keep .img (by decide)
  have c := o.keep .casc (by decide)
  have r : ∀ l, roundAt k l group seq = roundAt h l group seq := fun l => roundAt_congr a ..
  have g : groupOf k group = groupOf h group := by unfold groupOf imgOf; rw [j, i]
  have p : ∀ b n, pairDies k b n = pairDies h b n := fun b n => by unfold pairDies jobDies jobAt; rw [j, c]
  unfold roundGroup
  simp only [r, g, p]

/-- A message for a round that takes it and is not full with it: the round holds it. -/
theorem levelTake_taken {e : Env} {l src : Nat} {g : Group} {exp : List Nat} {tc : Nat} {m : Red} {send : Round → Hub → Hub} {h : Hub} {r q : Round}
    (a : roundAt h l m.group m.seq = some r) (c : afterCutoff h l m = false) (t : roundAccept r src m = .taken q) (f : roundFull q = false) :
    levelTake e l src g exp tc m send h = putRound l m.group m.seq q h := by
  unfold levelTake
  rw [a]
  dsimp only
  rw [c, if_neg (by decide), t]
  dsimp only
  rw [f, if_neg (by decide)]

/-- A message that finds no round opens one. -/
theorem levelTake_opens {e : Env} {l src : Nat} {g : Group} {exp : List Nat} {tc : Nat} {m : Red} {send : Round → Hub → Hub} {h : Hub}
    (a : roundAt h l m.group m.seq = none) (c : afterCutoff h l m = false) (o : roundRoom e h m.group m.seq = true) (f : roundFull (roundTake (newRound h g m tc exp) src m) = false) :
    levelTake e l src g exp tc m send h = putRound l m.group m.seq (roundTake (newRound h g m tc exp) src m) h := by
  unfold levelTake
  rw [a]
  dsimp only
  rw [c, if_neg (by decide), o, if_neg (by decide), f, if_neg (by decide)]

/-- A message that a round does not take is refused as its rule says. -/
theorem levelTake_refused {e : Env} {l src : Nat} {g : Group} {exp : List Nat} {tc : Nat} {m : Red} {send : Round → Hub → Hub} {h : Hub} {r : Round} {t : Take}
    (a : roundAt h l m.group m.seq = some r) (c : afterCutoff h l m = false) (b : roundAccept r src m = t) (n : ∀ q, t ≠ .taken q) :
    levelTake e l src g exp tc m send h = roundRefuse e l src m t h := by
  unfold levelTake
  rw [a]
  dsimp only
  rw [c, if_neg (by decide), b]
  cases t with
  | taken q => exact absurd rfl (n q)
  | late => rfl
  | gone => rfl
  | dup => rfl
  | overlap => rfl
  | bad => rfl

/-! Messages that have arrived. -/

/-- A message to several nodes is queued for each. -/
theorem redSends_queues {tc : Nat} {m : Red} (n : tc ≠ 3) (l : List Nat) (h : Hub) :
    (l.foldl (fun h d => redSend tc d m h) h).fab = { h.fab with outq := h.fab.outq ++ l.flatMap (fun d => redOut h tc d m) } := by
  induction l generalizing h with
  | nil => simp
  | cons x l ih =>
    have t : nowNs (redSend tc x m h) = nowNs h := by unfold nowNs; rw [(redSend_only ..).keep .time (by decide)]
    rw [List.foldl_cons, ih, redSend_queues n]
    simp only [redOut_congr t, List.flatMap_cons, List.append_assoc]

/-- A packet to several nodes is queued for each. -/
theorem photenSends_queues {type tc flow soff : Nat} {b : List Byte} (n : tc ≠ 3) (l : List Nat) (f : Nat → Nat) (h : Hub) :
    (l.foldl (fun h t => photenSend type tc (f t) flow soff b h) h).fab = { h.fab with outq := h.fab.outq ++ l.map (fun t => {
        type := BitVec.ofNat 4 type, tc := BitVec.ofNat 2 tc, dst := BitVec.ofNat 18 (f t), flow := BitVec.ofNat 16 flow
        soff := BitVec.ofNat 24 soff, tb := nowNs h, body := b }) } ∧
      (l.foldl (fun h t => photenSend type tc (f t) flow soff b h) h).xs.rounds = h.xs.rounds := by
  induction l generalizing h with
  | nil => exact ⟨by simp, rfl⟩
  | cons x l ih =>
    have t : nowNs (photenSend type tc (f x) flow soff b h) = nowNs h := by unfold nowNs; rw [(photenSend_only ..).keep .time (by decide)]
    rw [List.foldl_cons, (ih _).1, (ih _).2, photenSend_rounds, photenSend_queues n, t]
    exact ⟨by simp, rfl⟩

/-- What the load that a message tells leaves: the rounds, the span and what is counted (R232–R236). -/
theorem noteLoad_keeps (src : Nat) (m : Red) (h : Hub) :
    (noteLoad src m h).xs.rounds = h.xs.rounds ∧ (noteLoad src m h).xs.dup = h.xs.dup ∧ (noteLoad src m h).xs.span = h.xs.span ∧ (noteLoad src m h).xs.load = h.xs.load := by
  unfold noteLoad
  split <;> exact ⟨rfl, rfl, rfl, rfl⟩

/-- A reduction packet in order is taken with its load noted, before the rhizome goes on with what it brings. -/
theorem redReceive_ok {s : State} {p : List Byte} {port : BitVec 6} (a : photenOk s.env s.hub 0 p port.toNat = true) (b : shardGroup s.hub = none) :
    ∃ k, Only [.fab] s.hub.clean k ∧ k.fab.outq = s.hub.fab.outq ∧ redReceive p port s = .next (s.settle (reduceRx s.env (photenFields p) k)) := by
  obtain ⟨r, q⟩ := photenRx_ok (e := s.env) (h := s.hub.clean) (type := 0) (p := p) (port := port.toNat)
    (fun r h => if serving h then rhizAdvance s.env (reduceRx s.env r h) else h) a
  generalize hk : ({ s.hub.clean with fab := { s.hub.clean.fab with
    rx := Tab.put s.hub.clean.fab.rx ((photenFields p).src * 4 + (photenFields p).tc) r, accepted := s.hub.clean.fab.accepted + 1 } } : Hub) = k at q
  have o : Only [.fab] s.hub.clean k := by rw [← hk]; exact Only.set_fab (Only.refl _ _) rfl
  have sv : serving k = true := by
    unfold photenOk at a
    simp only [Bool.and_eq_true, Bool.or_eq_true] at a
    have z := a.1.1.1.1.1.1.1.1.1.1.1.1.1.1.1
    rcases z with z | z
    · rw [← z, ← hk]; rfl
    · exact absurd z.2 (by decide)
  refine ⟨k, o, by rw [← hk]; rfl, ?_⟩
  rw [sv, if_pos rfl] at q
  have g : shardGroup (reduceRx s.env (photenFields p) k) = none := by
    rw [← b]
    unfold shardGroup imgOf
    rw [(reduceRx_only ..).keep .img (by decide), o.keep .img (by decide)]
    rfl
  rw [rhizAdvance_none g] at q
  exact congrArg (fun h => Host.Outcome.next (s.settle h)) q

/-! The rhizome. -/

/-- Entities whose scores a window does not give are counted. -/
theorem unscored_casc (xs : List Word) (h : Hub) : (unscored xs h).casc = { h.casc with unscored := h.casc.unscored + xs.length } := by
  unfold unscored
  induction xs generalizing h with
  | nil => rfl
  | cons x xs ih =>
    rw [List.foldl_cons, ih, (emitUnit_only ..).keep .casc (by decide)]
    show { h.casc with unscored := h.casc.unscored + 1 + xs.length } = _
    rw [List.length_cons, Nat.add_assoc, Nat.add_comm 1]

/-- A member that still waits for others' words stays in the exchange step. -/
theorem rhizAdvance_waits {e : Env} {h : Hub} {s : Scoring} {r : Rhizome} (a : shardGroup h = some s) (b : h.casc.rhizome = some r) (c : r.step = 2)
    (d : (List.range s.members.length).all (fun i => decide (i = myPos h s) || r.heard.contains i) = false) : rhizAdvance e h = h := by
  have one : rhizStep e s h = h := by
    unfold rhizStep
    rw [b]
    dsimp only
    rw [c]
    show (if _ then _ else h) = h
    rw [d, if_neg (by decide)]
  unfold rhizAdvance
  rw [a]
  dsimp only
  rw [one, one, one, one]

end Sys2Proof.Machine
end

