-- ==== Sys2Proof/WellFormed.lean ====
section
/-!
DEFINITION. Which commands are well formed: limits that the spec gives a command's operands and that their types do not
already hold. Meanings are total; an ill-formed command is one that no port of the block could deliver.
-/
namespace Sys2Proof

/-- A packet carries at most 348 parameter words (R456, Table 12.12). -/
def Cmd.wf (c : Cmd) : Bool := decide (c.params.length ≤ 348)

/-- A command with an operation word has room for 347 more words (R474). -/
def Cmd.wfOp (c : Cmd) : Bool := decide (c.params.length ≤ 347)

/-- A sideband frame's payload is of the frame's type (Table 10.5). -/
def SbPayload.code : SbPayload → Nat
  | .ack => 0
  | .hello _ _ => 1
  | .pdelayReq => 2
  | .pdelayResp _ _ => 3
  | .heartbeat _ => 4
  | .sync _ _ => 5
  | .command _ => 6
  | .reply _ => 7
  | .verdict _ => 8
  | .bcast _ => 9
  | .routeSet _ _ _ => 10
  | .wake => 11

/-- A frame of a type with a payload of another type is no frame of Table 10.5. -/
def SbFrame.wf (f : SbFrame) : Bool := decide (f.ftype.toNat > 11) || decide (f.payload.code = f.ftype.toNat)

/-- A Photen packet as beats carry it: at most 256 bytes (Table 10.10). -/
def packetWf (p : List Byte) : Bool := decide (p.length ≤ 256)

/-- A broadcast message as it arrives. -/
def BcastIn.wf : BcastIn → Bool
  | .photen p _ => packetWf p
  | .sb _ f => f.wf

/-- Well-formed commands. -/
def Instr.wf : Instr → Bool
  | .sysInfo c | .sysReset c | .timeSet c | .timeTrim c | .timeRead c | .cellCfg c | .cntRead c | .cntSnap c
  | .watchSet c | .ruleSet c | .resCfg c | .auditRate c | .auditRead c | .digCfg c | .digRead c | .digCompare c
  | .xsReduce c | .normReq c | .ensLoad c | .ensActivate c | .ensRun c | .featWrite c | .ensRollback c | .policySet c
  | .fence c | .unfence c | .expel c | .shadowStart c | .verdictRead c | .lifeRead c | .trcCfg c | .nidCfg c
  | .recRead c | .recMark c | .bcastPrepare c | .bcastCommit c | .keyLoad c | .protLock c | .imgLoad c | .dbgRead c
  | .dbgWrite c | .relayCommand _ c => c.wf
  | .sysStateRead c _ | .sysStateRequestServing c | .sysStateRequestDrowse c | .sysStateRequestDormant c
  | .digEpochOpen c | .digEpochRelease c | .digEpochCheckpoint c | .testSchedSchedule c | .testSchedCancel c
  | .testSchedDone c | .marginPlanMode c | .marginPlanSet c | .marginPlanAuto c | .marginPlanAck c
  | .marginPlanProbeDone c | .trcTrigArm c | .trcTrigDisarm c | .trcTrigFire c | .trcTrigRelease c | .trcTrigDump c
  | .jobMembersSet c | .jobMembersAdd c | .jobMembersRemove c | .jobMembersRead c => c.wfOp
  | .halfHoldRead a => decide (a.toNat % 4 = 0)
  | .digestDataBeat _ _ lanes => decide (lanes.length = 128)
  | .reduceContributionReceive p _ | .reduceResultReceive p _ | .redirectReceive p _ | .exchangeReceive p _
  | .photenHeartbeatReceive p _ | .photenRecordReceive p _ | .photenTraceReceive p _ => packetWf p
  | .sbHelloReceive _ f | .sbAckReceive _ f | .sbFrameForward _ f | .sbFloodForward _ f | .sbHeartbeatReceive _ f
  | .sbVerdictReceive _ f | .syncReceive _ f | .sbPdelayReqReceive _ f | .sbPdelayRespReceive _ f
  | .sbCommandReceive _ f | .sbReplyReceive _ f | .routeSetReceive _ f | .sbWakeFrame _ f => f.wf
  | .bcastPrepareReceive m | .bcastAckReceive m | .bcastCommitReceive m | .bcastAbortReceive m => m.wf
  | _ => true

end Sys2Proof
end

