-- ==== Sys2Proof/Tests/Slice0.lean ====
section
/-!
SUPPORT. Tests of the model: ill-formed commands that the checks refuse, the worked values of the spec, and for every statement with hypotheses
a state and operands that meet them.
-/
namespace Sys2Proof.Machine

set_option Elab.async false

/-! Ill-formed commands, one a check (WellFormed). -/

/-- 349 parameter words are more than a packet carries (Table 12.12). -/
theorem test_wf_params : Instr.wf (.sysInfo { req := .channel 0, params := List.replicate 349 0 }) = false := by decide +kernel
/-- With an operation word only 347 more fit (R474). -/
theorem test_wf_op_params : Instr.wf (.jobMembersSet { req := .channel 0, params := List.replicate 348 0 }) = false := by decide +kernel
/-- A 32-bit read lies at a multiple of four (R608). -/
theorem test_wf_half_read : Instr.wf (.halfHoldRead 6) = false := by decide +kernel
/-- A data beat has 128 lanes (Table 5.3). -/
theorem test_wf_lanes : Instr.wf (.digestDataBeat false 0 (List.replicate 127 0)) = false := by decide +kernel
/-- A packet of 257 bytes is none (Table 10.10). -/
theorem test_wf_packet : packetWf (List.replicate 257 0) = false := by decide +kernel

/-- A frame of type ACK carries no verdict (Table 10.5). -/
theorem test_wf_frame : Instr.wf (.sbAckReceive 0 { ftype := 0, payload := .command [] }) = false := by decide +kernel
/-- Nor does one that brings a broadcast carry another type's payload (R398). -/
theorem test_wf_bcast : BcastIn.wf (.sb 0 { ftype := 9, payload := .ack }) = false := by decide +kernel

/-! States that witnesses start from. -/

/-- A die in SERVING with an applied image, its channel 0 FLEET, 1 µs after TB began. -/
def tHub : Hub :=
  { sys := { st := .serving, porstLow := false, pllLocked := true }
    img := some {}
    time := { tb := BitVec.ofNat 96 (2 ^ 32 * 1000) }
    prot := { locked := true }
    cmd := { chans := [{ enabled := true, domain := 1 }, {}, {}, {}] } }
/-- The state with that hub. -/
def tS : State := { hub := tHub }
/-- A command of channel 0. -/
def tC (ps : List Word) : Cmd := { req := .channel 0, cseq := 5, params := ps }

/-- A held request of channel 0. -/
def tQ (w : Wanted) : HeldReq := { want := w, req := .channel 0, dom := 1, cseq := 9 }
/-- The die state in a tray-role block. -/
def tT : State := { tS with fuses.array := 7 }

/-- A parse decided by its parts. -/
theorem tParse {p : Parsed} {a b c d e}
    (h : (match p with | .good v w x y z => decide (v = a ∧ w = b ∧ x = c ∧ y = d ∧ z = e) | .bad .. => false) = true) :
    p = .good a b c d e := by
  cases p with
  | bad => cases h
  | good => simpa using h
/-- Before a memory map a boot image is read straight from memory. -/
theorem tBoot (m : Mem) (s : State) (h : Hub) (a n : Nat) (hr : h.mem.ranges.isEmpty = true) (hb : a + n ≤ 2 ^ 40) :
    bootRead ({ s with mem := m } : State).env h a n = some ((List.range n).map (fun i => m.get Mem.ramByte (a + i))) := by
  rw [bootRead, if_pos hr, if_pos hb]; rfl

/-- Whether IMG_LOAD passes does not hang on memory. -/
theorem tPass {m : Mem} {s : State} {c : Cmd} (h : passes opImgLoad c s = true) : passes opImgLoad c { s with mem := m } = true := h

/-- An ensemble image of one output and no tree (Tables 7.6, 7.7). -/
def tImg : List Byte := [49, 69, 86, 83, 1, 0, 0, 0, 160, 0, 0, 0, 156, 32, 253, 180, 7, 0, 0, 0, 0, 0, 33, 0, 0, 0, 0, 0, 0, 0, 0, 0, 0, 0, 0, 0, 0, 0, 0, 0] ++ List.replicate 120 0
/-- A CRC taken in four parts. -/
theorem tCrc {a b c d : List Byte} {u v w x : Word} (h1 : a.foldl crcByte 0xFFFFFFFF = u) (h2 : b.foldl crcByte u = v)
    (h3 : c.foldl crcByte v = w) (h4 : d.foldl crcByte w = x) : crc32c (a ++ b ++ c ++ d) = x ^^^ 0xFFFFFFFF := by
  rw [crc32c, List.foldl_append, List.foldl_append, List.foldl_append, h1, h2, h3, h4]
/-- Its CRC. -/
theorem tImg_crc : imageCrc tImg = 0xB4FD209C := by
  have h : tImg.take 12 ++ [0, 0, 0, 0] ++ tImg.drop 16 =
      (tImg.take 12 ++ [0, 0, 0, 0] ++ (tImg.drop 16).take 24) ++ List.replicate 40 0 ++ List.replicate 40 0 ++ List.replicate 40 0 := by decide +kernel
  rw [imageCrc, h, tCrc (u := 0xD6C8BE35) (v := 0x67D4B522) (w := 0x6EECABC4) (x := 0x4B02DF63) (by decide +kernel)
    (by decide +kernel) (by decide +kernel) (by decide +kernel)]
  decide

/-- A computed answer that is there. -/
theorem tSome {α : Type} {o : Option α} {d : α} (h : o.isSome = true) : o = some (o.getD d) := by
  cases o with
  | none => cases h
  | some x => rfl

/-- An envelope with no packet in it, authenticated under the key 0: its AES-CMAC is that of an implementation of RFC 4493. -/
def tEnv : List Byte := [16, 0, 0, 0, 0, 0, 0, 0, 0, 0, 0, 1, 0, 0, 0, 0] ++ beBytes 16 41049695676560763694399129570263406389
/-- Slot 0 with the key 0 authenticates it. -/
theorem tEnv_key {h : Hub} {k : KeySlot} (hk : Tab.find h.cmd.keys 0 = some k) (hz : k.key = 0) : envelopeKey h tEnv = some k := by
  have a : (aesCmac 0 (tEnv.take 16)).toNat = beAt tEnv 16 16 := by decide +kernel
  have s : bitsOf (beAt tEnv 0 4) 23 16 = 0 := by decide +kernel
  have n : tEnv.length - 16 = 16 := by decide +kernel
  unfold envelopeKey
  rw [s, n]
  dsimp only
  rw [if_neg (by decide), hk, Option.filter_some, if_pos]
  rw [hz]
  exact decide_eq_true a

/-- A packet taken. -/
theorem tTaken {r : Round} {src : Nat} {m : Red} (h : (match roundAccept r src m with | .taken q => decide (q = roundTake r src m) | _ => false) = true) :
    roundAccept r src m = .taken (roundTake r src m) := by
  split at h
  next e => rw [e, of_decide_eq_true h]
  next => cases h
/-- A packet that has come before. -/
theorem tDup {r : Round} {src : Nat} {m : Red} (h : (match roundAccept r src m with | .dup => true | _ => false) = true) : roundAccept r src m = .dup := by
  split at h
  next e => exact e
  next => cases h

/-! Worked values of the spec. -/

/-- The core of the example of chapter 01: entity 0x009C_42BC of die 5,000, and the die's own entity. -/
theorem test_entity : entId 0 (5000 * 2048 + 700) = 0x009C42BC ∧ entId 3 (5000 * 2048) = 0x309C4000 := by decide +kernel

/-- The pairs of the 4 × 4 tile of chapter 04. -/
def tPairs : List (Nat × Nat) := [(14, 102), (36, resP - 45), (resP - 4, 114)]
/-- Its tile after three PAIR beats. -/
def tTile : Tile := tPairs.foldl (fun t p => t.pair (BitVec.ofNat 128 (p.1 * 2 ^ 61 + p.2))) { bounded := false, orient := 0, fmtL := 0, fmtR := 0, fmtC := 0, pseq := 0, m := 4, n := 4, k := 3, tag := 0, deadline := 0, stopped0 := 0, word := { audit := false, s := 2, t := 3, u := 5, fixed := true } }
/-- The lane holds −648: the host's p − 648 passes, and −540, the figure of a wrong element, does not (R114, R127). -/
theorem test_tile : tTile.sum.toNat = resP - 648 ∧ tilePass tTile 24 2305843009213693303 = true ∧ tilePass tTile 24 (resP - 540) = false := by decide +kernel

/-- The five-element slice of chapter 05, whole and as two shards (R163, R166). -/
theorem test_digest : digList 1 2 0 [3, 0, 7, 1, 2] (0, 0) = (5716601473964, 6747393626065) ∧ (digList 1 2 0 [3, 0] (0, 0)).1 = 47244640345 ∧
    (digList 1 2 2 [7, 1, 2] (0, 0)).1 = 5669356833619 := by decide +kernel

/-- The sum of the addends of chapter 06: 2^24, four of 1.0 and −2^24 over two dies. -/
def tSum : Xa :=
  let s := fun (l : List Word) => (l.map (fun w => Xa.ofFlt (dec32 w))).foldl Xa.add {}
  (s [0x4B800000, 0x3F800000, 0x3F800000]).add (s [0x3F800000, 0x3F800000, 0xCB800000])
/-- A is 2^322: byte 0x2F of the record is 4, and binary32 gives 4.0 (R207, R210). -/
theorem test_sum : tSum.round f32 = 0x40800000 ∧ tSum.a = 2 ^ 322 ∧ tSum.bytes[0x2F]? = some 4 := by decide +kernel

/-- The ensemble of chapter 07: a tree of depth 3 and a stump. -/
def tGen : Gen := {
  num := 1, levels := 3, trees := 2, total := 2, treeBase := 0, relmask := 1, scale := 0, table := [], sets := [], pages := 0
  outs := [{ bias := 32768, xform := 0, a := 0, b := 0 }]
  nodes := [[0x20033E8000000000, 0x00033F0000000004],
    [0x001142C800000000, 0x2028400000000002, 0xC000000000000000, 0xC000000000000000, 0x8000FFFFFE000000, 0x8000000020000000],
    [0x8000000003E80000, 0x8000000010000000, 0x8000FFFFF8000000, 0x8000000100000000]] }
/-- Core A: tree 0 takes the default direction at NaN, and the score is 97,792 (R249, R251). -/
theorem test_core_a : rawScore tGen (walks tGen (fun n => if n = 3 then 0x3E800000 else if n = 17 then 0x40E00000 else 0x7FC00000)) 0 = 97792 := by decide +kernel
/-- Core B: a feature never written is missing, and the score is 33,256. -/
theorem test_core_b : rawScore tGen (walks tGen (fun n => if n = 3 then 0x3DCCCCCD else missing)) 0 = 33256 := by decide +kernel

/-- The command packet of chapter 12: SYS_STATE READ with CSEQ 1 (R456). -/
theorem test_packet : parsePacket [0x10, 0x02, 0, 0, 0, 0, 0, 1, 0, 3, 0xFF, 0xFF, 0xC5, 0xE7, 0x2C, 0x30] = .good 2 false 1 0x3FFFF [] := tParse (by decide +kernel)
/-- And its reply. -/
theorem test_reply : replyBytes { opcode := 2, cseq := 1, status := 0, domain := 1, detail := 0, tb := 0x1800000000000000, result := [0xA4] } =
    [0x14, 0x02, 0, 1, 0, 0, 0, 1, 0, 0, 0x40, 0, 0x18, 0, 0, 0, 0, 0, 0, 0, 0, 0, 0, 0xA4, 0xE5, 0x2B, 0xF0, 0xF3] := by decide +kernel

/-- The block range of chapter 14: line 0x65 lies at attachment 6, channel-local line 0x4019 (R524). -/
theorem test_place : place { r := { base := 2 ^ 38, size := 2 ^ 30, tier := .slower, block := true, c0 := 4, n := 4, localBase := 0x100000, masks := [0xA1, 0x66] } } 0x65 =
    (6, 0x4019) := by decide +kernel
/-- Its group goes to c = 3, 2, 1 and 0. -/
theorem test_group : [0x64, 0x65, 0x66, 0x67].map (maskC [0xA1, 0x66]) = [3, 2, 1, 0] := by decide +kernel

/-! States and operands that meet the hypotheses of each statement. -/

/-- The hypotheses of StepRunsFront are met. -/
theorem meets_StepRunsFront :
    (∃ (s : State) (c : Instr) (l : List Instr), s.pending = c :: l) :=
  ⟨{ tS with pending := [.holdoverEntry] }, .holdoverEntry, [], by decide +kernel⟩

/-- The hypotheses of IdleStep are met. -/
theorem meets_IdleStep :
    (∃ (s : State), s.pending = []) ∧
    (∃ (s : State), s.pending = [] ∧ s.hub.time.due = true) ∧
    (∃ (s : State), s.pending = [] ∧ s.hub.time.due = false ∧ s.hub.trc.conds = [] ∧ s.hub.mem.out = [] ∧ s.hub.mem.waitq = [] ∧ s.hub.sys.st = .dormant ∧
    s.hub.isl.refLost = false ∧ nowNs s.hub + 10 < 2 ^ 64) ∧
    (∃ (s : State), s.pending = [] ∧ s.hub.time.due = false ∧ s.hub.trc.conds = [] ∧ s.hub.mem.out = [] ∧ s.hub.mem.waitq = [] ∧ alive s.hub = true ∧
    (∀ c, (chan s.hub c).submitted = none) ∧ s.hub.cmd.held = [] ∧ s.hub.mem.errq = [] ∧ s.hub.xs.queue = [] ∧ s.hub.reports = [] ∧
    ctlTraced s.hub = false) ∧
    (∃ (s : State), s.pending = [] ∧ s.hub.time.due = false ∧ s.hub.trc.conds = [] ∧ s.hub.mem.out = [] ∧ s.hub.mem.waitq = [] ∧ s.hub.sys.st = .cold ∧
    s.hub.sys.supplyLost = false ∧ s.hub.sys.porstLow = true) :=
  ⟨⟨tS, by decide +kernel⟩,
    ⟨{ tS with hub.time.due := true }, by decide +kernel⟩,
    ⟨{ tS with hub.sys.st := .dormant }, by decide +kernel⟩,
    ⟨tS, by decide +kernel, by decide +kernel, by decide +kernel, by decide +kernel, by decide +kernel, by decide +kernel, by intro c; rcases c with _|_|_|_|c <;> rfl, by decide +kernel, by decide +kernel, by decide +kernel, by decide +kernel, by decide +kernel⟩,
    ⟨{}, by decide +kernel⟩⟩

/-- The hypotheses of StepKeepsCanonical are met. -/
theorem meets_StepKeepsCanonical :
    (∃ (s : State), s.wf = true) :=
  ⟨tS, by decide +kernel⟩

/-- The hypotheses of ExactSums are met. -/
theorem meets_ExactSums :
    (∃ (l : List Xa) (m : List Xa), l.Perm m) :=
  ⟨[{ a := 1 }, { a := 2 }], [{ a := 2 }, { a := 1 }], .swap _ _ _⟩

/-- The hypotheses of StateReport are met. -/
theorem meets_StateReport :
    (∃ (c : Cmd) (s : State) (w : Bool), passes opSysStateRead (if w then withOp 0 c else c) s = true) :=
  ⟨tC [], tS, true, by decide +kernel⟩

/-- The hypotheses of IdentityAndStateCommands are met. -/
theorem meets_IdentityAndStateCommands :
    (∃ (c : Cmd) (s : State), passes opSysInfo c s = true) ∧
    (∃ (c : Cmd) (s : State), passes opSysStateRead (withOp 0 c) s = true) ∧
    (∃ (c : Cmd) (s : State), passes opSysStateRead c s = true) ∧
    (∃ (c : Cmd) (s : State), passes (opStateRequest .serving) (withOp 1 c) s = true ∧ transiting s.hub = false ∧ s.hub.sys.st = .serving) ∧
    (∃ (c : Cmd) (s : State), passes (opStateRequest .serving) (withOp 1 c) s = true ∧ transiting s.hub = false ∧ s.hub.sys.st = .drowse) ∧
    (∃ (c : Cmd) (s : State), passes (opStateRequest .drowse) (withOp 2 c) s = true ∧ transiting s.hub = false ∧ s.hub.sys.st = .drowse) ∧
    (∃ (c : Cmd) (s : State), passes (opStateRequest .drowse) (withOp 2 c) s = true ∧ transiting s.hub = false ∧ s.hub.sys.st = .serving) ∧
    (∃ (c : Cmd) (s : State), passes (opStateRequest .dormant) (withOp 3 c) s = true ∧ transiting s.hub = false ∧ s.hub.sys.st = .drowse) ∧
    (∃ (c : Cmd) (s : State), passes (opStateRequest .dormant) (withOp 3 c) s = true ∧ transiting s.hub = true) ∧
    (∃ (c : Cmd) (s : State), passes opSysReset c s = true ∧ transiting s.hub = false ∧ c.n 1 = 1) ∧
    (∃ (c : Cmd) (s : State), passes opSysReset c s = true ∧ transiting s.hub = false ∧ c.n 1 = 0) :=
  ⟨⟨tC [], tS, by decide +kernel⟩,
    ⟨tC [], tS, by decide +kernel⟩,
    ⟨tC [], tS, by decide +kernel⟩,
    ⟨tC [], tS, by decide +kernel⟩,
    ⟨tC [], { tS with hub.sys.st := .drowse }, by decide +kernel⟩,
    ⟨tC [], { tS with hub.sys.st := .drowse }, by decide +kernel⟩,
    ⟨tC [], tS, by decide +kernel⟩,
    ⟨tC [], { tS with hub.sys.st := .drowse }, by decide +kernel⟩,
    ⟨tC [], { tS with hub.sys.orderly := some .dormant }, by decide +kernel⟩,
    ⟨tC [1], tS, by decide +kernel⟩,
    ⟨tC [0], tS, by decide +kernel⟩⟩

/-- The hypotheses of TimeCommands are met. -/
theorem meets_TimeCommands :
    (∃ (c : Cmd) (s : State), passes opTimeSet c s = true ∧ s.hub.time.source = 1) ∧
    (∃ (c : Cmd) (s : State), passes opTimeSet c s = true ∧ s.hub.time.source ≠ 1 ∧ mayStep s.hub ((c.d 1 : Int) - nowNs s.hub) = true) ∧
    (∃ (c : Cmd) (s : State), passes opTimeSet c s = true ∧ s.hub.time.source ≠ 1 ∧ mayStep s.hub ((c.d 1 : Int) - nowNs s.hub) = false) ∧
    (∃ (c : Cmd) (s : State) (tm : TimeU), passes opTimeTrim c s = true ∧ foldSet timeSetting c.params.length 1 c.params [] s.hub.time = .inr tm) ∧
    (∃ (c : Cmd) (s : State), passes opTimeRead c s = true) ∧
    (∃ (s : State), portOn s.hub = true ∧ s.hub.regs.cmdWrote.contains (2, 0x38) = false) ∧
    (∃ (s : State), portOn s.hub = true) :=
  ⟨⟨tC [0, 5000], { tS with hub.time.source := 1 }, by decide +kernel⟩,
    ⟨tC [1, 0], { tS with hub.sys.st := .playa, hub.time.source := 0 }, by decide +kernel⟩,
    ⟨tC [1, 0], { tS with hub.time.source := 0 }, by decide +kernel⟩,
    ⟨tC [0x00020100, 5], tS, { tHub.time with rate := 5 }, by decide +kernel⟩,
    ⟨tC [], tS, by decide +kernel⟩,
    ⟨tS, by decide +kernel⟩,
    ⟨tS, by decide +kernel⟩⟩

/-- The hypotheses of TimeQuality are met. -/
theorem meets_TimeQuality :
    (∃ (s : State), s.hub.time.quality = 2 ∧ s.hub.time.lastSync + 3 * s.hub.time.syncInt ≤ nowNs s.hub ∧ alive s.hub = true) ∧
    (∃ (s : State), s.hub.time.quality = 3 ∧ s.hub.time.holdSince + s.hub.time.holdoverLimit ≤ nowNs s.hub ∧ alive s.hub = true ∧
    s.env.beaten evSync (s.hub.time.holdSince + s.hub.time.holdoverLimit) (nowNs s.hub) = false) ∧
    (∃ (s : State), s.hub.isl.refLost = false) ∧
    (∃ (s : State), s.hub.isl.refLost = true) :=
  ⟨⟨{ tS with hub.time.quality := 2, hub.time.lastSync := 0, hub.time.syncInt := 100 }, by decide +kernel⟩,
    ⟨{ tS with hub.time.quality := 3, hub.time.holdSince := 0, hub.time.holdoverLimit := 100 }, by decide +kernel⟩,
    ⟨tS, by decide +kernel⟩,
    ⟨{ tS with hub.isl.refLost := true }, by decide +kernel⟩⟩

/-- The hypotheses of ResetEvents are met. -/
theorem meets_ResetEvents :
    (∃ (s : State), s.hub.sys.st = .cold ∧ s.hub.sys.supplyLost = false) ∧
    (∃ (s : State), s.hub.sys.st ≠ .cold) ∧
    (∃ (s : State), s.hub.sys.blkrstLow = true ∧ s.hub.sys.st ≠ .fuse) ∧
    (∃ (s : State), portOn s.hub = true ∧ s.hub.sys.wdReset = none ∧ alive s.hub = false) ∧
    (∃ (s : State) (d : Nat), s.hub.sys.wdReset = some d ∧ d ≤ nowNs s.hub) ∧
    (∃ (s : State), s.hub.sys.supplyLost = true) ∧
    (∃ (s : State), s.hub.sys.supplyLost = false ∧ s.hub.sys.st = .dormant ∧ s.hub.isl.asking = true) ∧
    (∃ (s : State), s.hub.sys.st ≠ .dormant ∧ s.hub.sys.st ≠ .cold) :=
  ⟨⟨{}, by decide +kernel⟩,
    ⟨tS, by decide +kernel⟩,
    ⟨{ tS with hub.sys.blkrstLow := true }, by decide +kernel⟩,
    ⟨{ tS with hub.sys.st := .flush }, by decide +kernel⟩,
    ⟨{ tS with hub.sys.wdReset := some 5 }, 5, by decide +kernel⟩,
    ⟨{ tS with hub.sys.supplyLost := true }, by decide +kernel⟩,
    ⟨{ tS with hub.sys.st := .dormant, hub.isl.asking := true }, by decide +kernel⟩,
    ⟨tS, by decide +kernel⟩⟩

/-- The hypotheses of FuseEnd are met. -/
theorem meets_FuseEnd :
    (∃ (s : State), s.hub.sys.st = .fuse ∧ s.hub.sys.sense = none ∧ s.hub.sys.pllLocked = true ∧ s.hub.sys.blkrstLow = false ∧ s.hub.sys.pfwLow = false ∧
    s.hub.log.holdUntil = none) ∧
    (∃ (s : State), s.hub.sys.st = .fuse ∧ s.hub.sys.sense = none ∧ s.hub.sys.pllLocked = false) ∧
    (∃ (s : State) (r : Bool), s.hub.sys.st = .fuse ∧ s.hub.sys.mainPg = true ∧ s.hub.sys.sense = some r ∧ s.hub.sys.blkrstLow = false ∧
    s.hub.sys.pfwLow = false ∧ s.hub.log.holdUntil = none) ∧
    (∃ (s : State), s.hub.sys.st = .fuse ∧ s.hub.sys.mainPg = true ∧ s.hub.sys.sense = none) ∧
    (∃ (s : State), s.hub.sys.st = .dormant ∧ s.hub.isl.asking = true ∧ s.hub.isl.released = true) :=
  ⟨⟨{ tS with hub.sys.st := .fuse }, by decide +kernel⟩,
    ⟨{ tS with hub.sys.st := .fuse, hub.sys.pllLocked := false }, by decide +kernel⟩,
    ⟨{ tS with hub.sys.st := .fuse, hub.sys.mainPg := true, hub.sys.sense := some true }, true, by decide +kernel⟩,
    ⟨{ tS with hub.sys.st := .fuse, hub.sys.mainPg := true }, by decide +kernel⟩,
    ⟨{ tS with hub.sys.st := .dormant, hub.isl.asking := true, hub.isl.released := true }, by decide +kernel⟩⟩

/-- The hypotheses of PowerFailEvents are met. -/
theorem meets_PowerFailEvents :
    (∃ (s : State), s.hub.sys.pfwLow = false ∧ alive s.hub = true) ∧
    (∃ (s : State), s.hub.sys.pfwLow = false ∧ (s.hub.sys.st = .cold ∨ s.hub.sys.st = .fuse)) ∧
    (∃ (s : State), s.hub.sys.pfwLow = false ∧ s.hub.sys.st = .dormant) ∧
    (∃ (s : State) (f : Flush), s.hub.sys.pfwLow = false ∧ s.hub.sys.st = .flush ∧ s.hub.log.flush = some f) ∧
    (∃ (s : State) (f : Flush), s.hub.sys.st = .flush ∧ s.hub.log.flush = some f ∧ f.ended = false) ∧
    (∃ (s : State), s.hub.sys.pfwLow = true ∧ s.hub.sys.st = .flush) ∧
    (∃ (s : State), s.hub.sys.pfwLow = true ∧ (s.hub.sys.st = .cold ∨ s.hub.sys.st = .fuse)) ∧
    (∃ (s : State) (d : Nat) (f : Flush), s.hub.log.holdUntil = some d ∧ d ≤ nowNs s.hub ∧ s.hub.sys.pfwLow = false ∧
    s.env.beaten evWarning d (nowNs s.hub) = false ∧ s.hub.sys.st = .flush ∧ s.hub.log.flush = some f ∧ f.ended = true ∧ erasedEnough s.hub = true) ∧
    (∃ (s : State) (d : Nat), s.hub.log.holdUntil = some d ∧ d ≤ nowNs s.hub ∧ s.hub.sys.pfwLow = false ∧ s.env.beaten evWarning d (nowNs s.hub) = false ∧
    s.hub.sys.st = .cold) :=
  ⟨⟨tS, by decide +kernel⟩,
    ⟨{}, by decide +kernel⟩,
    ⟨{ tS with hub.sys.st := .dormant }, by decide +kernel⟩,
    ⟨{ tS with hub.sys.st := .flush, hub.log.flush := some { c0 := 5, orderly := false } }, { c0 := 5, orderly := false }, by decide +kernel⟩,
    ⟨{ tS with hub.sys.st := .flush, hub.log.flush := some { c0 := 5, orderly := false } }, { c0 := 5, orderly := false }, by decide +kernel⟩,
    ⟨{ tS with hub.sys.st := .flush, hub.sys.pfwLow := true }, by decide +kernel⟩,
    ⟨{ tS with hub.sys.st := .cold, hub.sys.pfwLow := true }, by decide +kernel⟩,
    ⟨{ tS with hub.sys.st := .flush, hub.log.holdUntil := some 7, hub.log.flush := some { c0 := 5, orderly := false, ended := true } }, 7, { c0 := 5, orderly := false, ended := true }, by decide +kernel⟩,
    ⟨{ tS with hub.sys.st := .cold, hub.log.holdUntil := some 7 }, 7, by decide +kernel⟩⟩

/-- The hypotheses of DormantEvents are met. -/
theorem meets_DormantEvents :
    (∃ (s : State) (f : Flush), alive s.hub = true ∧ s.hub.sys.orderly = some .dormant ∧ s.hub.log.flush = some f ∧ f.orderly = true) ∧
    (∃ (s : State) (f : Flush), alive s.hub = true ∧ s.hub.sys.orderly = some .blockReset ∧ s.hub.log.flush = some f ∧ f.orderly = true) ∧
    (∃ (s : State), s.hub.sys.st = .dormant ∧ s.hub.sys.pfwLow = false) ∧
    (∃ (s : State), s.hub.sys.st = .dormant ∧ s.hub.sys.pfwLow = true) ∧
    (∃ (s : State) (p : BitVec 4), s.env.tray = false ∧ s.hub.sys.st = .dormant ∧ p.toNat < 4 ∧ s.hub.sys.pfwLow = false) ∧
    (∃ (s : State), s.env.tray = false ∧ serving s.hub = true ∧ transiting s.hub = false ∧ (∃ r < 8, s.env.regionAbsent r = false) ∧
    ((∀ r < 8, s.env.regionAbsent r = false → (region s.hub r).stopped = true ∧ (region s.hub r).stopTb + s.hub.boot.drowseDelay < nowNs s.hub))) ∧
    (∃ (s : State) (q : HeldReq) (l : List HeldReq), alive s.hub = true ∧ s.hub.sys.orderly = none ∧ s.hub.sys.held = q :: l ∧
    wantedState q.want = some s.hub.sys.st) ∧
    (∃ (s : State) (q : HeldReq) (l : List HeldReq), s.hub.sys.orderly = none ∧ s.hub.sys.held = q :: l ∧ q.want = .drowse ∧ s.hub.sys.st = .serving) ∧
    (∃ (s : State) (q : HeldReq) (l : List HeldReq), alive s.hub = true ∧ s.hub.sys.orderly = none ∧ s.hub.sys.held = q :: l ∧ q.want = .dormant ∧
    s.hub.sys.st ≠ .drowse) :=
  ⟨⟨{ tS with hub.sys.orderly := some .dormant, hub.log.flush := some { c0 := 5, orderly := true } }, { c0 := 5, orderly := true }, by decide +kernel⟩,
    ⟨{ tS with hub.sys.orderly := some .blockReset, hub.log.flush := some { c0 := 5, orderly := true } }, { c0 := 5, orderly := true }, by decide +kernel⟩,
    ⟨{ tS with hub.sys.st := .dormant }, by decide +kernel⟩,
    ⟨{ tS with hub.sys.st := .dormant, hub.sys.pfwLow := true }, by decide +kernel⟩,
    ⟨{ tS with hub.sys.st := .dormant }, 1, by decide +kernel⟩,
    ⟨{ tS with hub.regions := List.replicate 8 { stopped := true }, hub.time.tb := BitVec.ofNat 96 (2 ^ 32 * 10 ^ 12) }, by decide +kernel⟩,
    ⟨{ tS with hub.sys.held := [tQ .serving] }, tQ .serving, [], by decide +kernel⟩,
    ⟨{ tS with hub.sys.held := [tQ .drowse] }, tQ .drowse, [], by decide +kernel⟩,
    ⟨{ tS with hub.sys.held := [tQ .dormant] }, tQ .dormant, [], by decide +kernel⟩⟩

/-- The hypotheses of BootEvents are met. -/
theorem meets_BootEvents :
    (∃ (s : State), s.hub.sys.st = .config ∧ s.hub.boot.checked = false ∧ chooseImage (validCopies s.env) s.hub.boot.delivered = .nothing) ∧
    (∀ (nv : Mem) (d : List Byte), chooseImage (validCopies ({ tS with nv := nv } : State).env) (some d) = .conflict → ∃ (s : State), s.hub.sys.st = .config ∧
    s.hub.boot.checked = false ∧ chooseImage (validCopies s.env) s.hub.boot.delivered = .conflict) ∧
    (∃ (s : State) (b : List Byte) (wb : Bool), s.hub.sys.st = .config ∧ s.hub.boot.checked = false ∧
    chooseImage (validCopies s.env) s.hub.boot.delivered = .image b wb) ∧
    (∃ (s : State) (d : Nat), s.hub.sys.st = .config ∧ s.hub.boot.selected = none ∧ s.hub.boot.waitUntil = some d ∧ d ≤ nowNs s.hub ∧
    s.env.beaten evImage d (nowNs s.hub) = false) ∧
    (∃ (s : State) (d : Nat), s.hub.sys.st = .config ∧ s.hub.prot.locked = false ∧ s.hub.boot.protUntil = some d ∧ d ≤ nowNs s.hub ∧
    s.hub.sys.orderly = none ∧ s.env.beaten evLock d (nowNs s.hub) = false) ∧
    (∃ (s : State) (b : List Byte) (w : Bool) (i : Image) (f : Nat × Nat × Nat), s.hub.sys.st = .config ∧ s.hub.boot.applied = false ∧
    s.hub.boot.selected = some (b, w) ∧
    i = ({ generation := w32 (imgGen b), hier6 := bitOf (imgW b 4) 16, autolock := bitOf (imgW b 4) 17 } : Image) ∧
    (applyAll s.env b (orderedSects b) s.hub.clean i).2.2 = some f) ∧
    (Config.extraOf [] = some {} → ∃ (s : State) (b : List Byte) (w : Bool) (i : Image) (x : Config.Extra), s.hub.sys.st = .config ∧
    s.hub.boot.applied = false ∧ s.hub.boot.selected = some (b, w) ∧
    i = ({ generation := w32 (imgGen b), hier6 := bitOf (imgW b 4) 16, autolock := bitOf (imgW b 4) 17 } : Image) ∧
    (applyAll s.env b (orderedSects b) s.hub.clean i).2.2 = none ∧ settingsAgree s.env (applyAll s.env b (orderedSects b) s.hub.clean i).1 = none ∧
    Config.extraOf b = some x ∧ extraBad x = none) ∧
    (∃ (s : State) (b : List Byte) (w : Bool), s.hub.sys.st = .config ∧ s.hub.boot.writeBack = true ∧ s.hub.boot.selected = some (b, w)) ∧
    (∃ (s : State), s.hub.sys.st = .config ∧ s.hub.boot.applied = true ∧ s.hub.prot.locked = true ∧ s.hub.boot.writeBack = false ∧
    s.hub.sys.orderly = none) ∧
    (∀ (mem : Mem), imageStep ({ tS with mem := mem } : State).env ((List.range ((tC [0, 0, 0, 1024]).d 3)).map (fun i => mem.get Mem.ramByte ((tC [0, 0, 0, 1024]).d 1 + i))) = none → ∃ (c : Cmd) (s : State) (b : List Byte), passes opImgLoad c s = true ∧
    s.hub.sys.st = .config ∧ (ctxOf c s).dom = .boot ∧ s.hub.boot.selected = none ∧ s.hub.boot.checked = false ∧
    bootRead s.env s.hub (c.d 1) (c.d 3) = some b ∧ imageStep s.env b = none) ∧
    (∃ (c : Cmd) (s : State) (b : List Byte) (n : Nat), passes opImgLoad c s = true ∧ imgLoadNow s.hub (ctxOf c s) = true ∧
    bootRead s.env s.hub (c.d 1) (c.d 3) = some b ∧ imageStep s.env b = some n) ∧
    (∀ (mem : Mem), imageStep ({ tS with mem := mem } : State).env ((List.range ((tC [0, 0, 0, 1024]).d 3)).map (fun i => mem.get Mem.ramByte ((tC [0, 0, 0, 1024]).d 1 + i))) = none → ∃ (c : Cmd) (s : State) (b : List Byte), passes opImgLoad c s = true ∧
    s.hub.sys.st = .playa ∧ s.hub.sys.orderly = none ∧ fleetDom (ctxOf c s) = true ∧ bootRead s.env s.hub (c.d 1) (c.d 3) = some b ∧
    imageStep s.env b = none) :=
  ⟨⟨{ tS with hub.sys.st := .config }, by decide +kernel, by decide +kernel, rfl⟩,
    fun nv d hb => ⟨{ tS with nv := nv, hub.sys.st := .config, hub.boot.delivered := some d }, rfl, rfl, hb⟩,
    ⟨{ tS with hub.sys.st := .config, hub.boot.delivered := some [] }, [], true, by decide +kernel, by decide +kernel, rfl⟩,
    ⟨{ tS with hub.sys.st := .config, hub.boot.waitUntil := some 5 }, 5, by decide +kernel⟩,
    ⟨{ tS with hub.sys.st := .config, hub.prot.locked := false, hub.boot.protUntil := some 5 }, 5, by decide +kernel⟩,
    ⟨{ tS with hub.sys.st := .config, hub.boot.selected := some (List.replicate 16 0 ++ [1], false) }, List.replicate 16 0 ++ [1], false, { generation := w32 (imgGen (List.replicate 16 0 ++ [1] : List Byte)), hier6 := bitOf (imgW (List.replicate 16 0 ++ [1] : List Byte) 4) 16, autolock := bitOf (imgW (List.replicate 16 0 ++ [1] : List Byte) 4) 17 }, (0, 0, 580), by decide +kernel⟩,
    fun hx => ⟨{ tS with hub.sys.st := .config, hub.boot.selected := some ([], false) }, [], false, { generation := w32 (imgGen ([] : List Byte)), hier6 := bitOf (imgW ([] : List Byte) 4) 16, autolock := bitOf (imgW ([] : List Byte) 4) 17 }, {}, by decide +kernel, by decide +kernel, by decide +kernel, by decide +kernel, by decide +kernel, by decide +kernel, hx, by decide +kernel⟩,
    ⟨{ tS with hub.sys.st := .config, hub.boot.writeBack := true, hub.boot.selected := some ([], true) }, [], true, by decide +kernel⟩,
    ⟨{ tS with hub.sys.st := .config, hub.boot.applied := true }, by decide +kernel⟩,
    fun mem hb => ⟨tC [0, 0, 0, 1024], { tS with mem := mem, hub.sys.st := .config, hub.prot.locked := false }, (List.range ((tC [0, 0, 0, 1024]).d 3)).map (fun i => mem.get Mem.ramByte ((tC [0, 0, 0, 1024]).d 1 + i)), tPass (s := { tS with hub.sys.st := .config, hub.prot.locked := false }) (by decide +kernel), rfl, rfl, rfl, rfl, tBoot mem tS _ _ _ rfl (by decide +kernel), hb⟩,
    ⟨tC [0, 0, 0, 1024], { tS with hub.sys.st := .playa }, (List.range 1024).map (fun _ => 0), 1, by decide +kernel⟩,
    fun mem hb => ⟨tC [0, 0, 0, 1024], { tS with mem := mem, hub.sys.st := .playa }, (List.range ((tC [0, 0, 0, 1024]).d 3)).map (fun i => mem.get Mem.ramByte ((tC [0, 0, 0, 1024]).d 1 + i)), tPass (s := { tS with hub.sys.st := .playa }) (by decide +kernel), rfl, rfl, rfl, tBoot mem tS _ _ _ rfl (by decide +kernel), hb⟩⟩

/-- The hypotheses of ProtectionCommands are met. -/
theorem meets_ProtectionCommands :
    (∃ (c : Cmd) (s : State) (ch : BitVec 2), passes opKeyLoad c s = true ∧ c.req = .channel ch ∧ c.n 2 ≠ 0 ∧ ((c.n 2 = 3 → s.env.debugDis = false))) ∧
    (∃ (c : Cmd) (s : State), passes opKeyLoad c s = true ∧ (c.n 2 = 0 ∨ (c.n 2 = 3 ∧ s.env.debugDis = true))) ∧
    (∃ (c : Cmd) (s : State), passes opProtLock c s = true) ∧
    (∃ (c : Cmd) (s : State), passes opDbgRead c s = true) ∧
    (∃ (c : Cmd) (s : State), passes opDbgWrite c s = true ∧ serving s.hub = true ∧ debugOnly (c.n 1) (c.n 2) = false) ∧
    (∃ (c : Cmd) (s : State), passes opDbgWrite c s = true ∧ s.env.tray = false ∧ c.n 1 = 32 ∧ c.n 2 = 0x40 ∧ (∀ w ∈ s.hub.regs.portWrote, ¬(w.1 = 32 ∧
    w.2.1 = 0x40))) :=
  ⟨⟨tC [1, 1, 0, 7, 7, 7, 7], { tS with hub.prot := {} }, 0, by decide +kernel⟩,
    ⟨tC [1, 0, 0, 7, 7, 7, 7], { tS with hub.prot := {} }, by decide +kernel⟩,
    ⟨tC [], { tS with hub.prot := {} }, by decide +kernel⟩,
    ⟨tC [0, 0], { tS with hub.cmd.chans := [{ enabled := true, domain := 3 }, {}, {}, {}] }, by decide +kernel⟩,
    ⟨tC [0, 0x40, 0, 1], { tS with hub.cmd.chans := [{ enabled := true, domain := 3 }, {}, {}, {}] }, by decide +kernel⟩,
    ⟨tC [32, 0x40, 0, 1], { tS with hub.cmd.chans := [{ enabled := true, domain := 3 }, {}, {}, {}] }, by decide +kernel, by decide +kernel, by decide +kernel, by decide +kernel, by decide +kernel⟩⟩

/-- The hypotheses of RegisterAccesses are met. -/
theorem meets_RegisterAccesses :
    (∃ (s : State) (a : BitVec 20), portOn s.hub = true ∧ locate (a.toNat / 8 * 8) = none) ∧
    (∃ (s : State), portOn s.hub = true ∧ s.hub.regs.cmdWrote.contains (0, 0x40) = false) ∧
    (∃ (s : State), portOn s.hub = true ∧ s.hub.regs.cmdWrote.contains (0, 0x38) = false) ∧
    (∃ (s : State) (ch : BitVec 2) (x : Channel), portOn s.hub = true ∧ s.hub.regs.cmdWrote.contains (1, 0x1000 * ch.toNat + 0x18) = false ∧
    s.hub.cmd.chans[ch.toNat]? = some x ∧ x.event &&& 3 = 0) ∧
    (∃ (s : State) (ch : BitVec 2) (b : BitVec 3) (x : Channel), portOn s.hub = true ∧
    s.hub.regs.cmdWrote.contains (1, 0x1000 * ch.toNat + 0x18) = false ∧ s.hub.cmd.chans[ch.toNat]? = some x ∧ x.event &&& 3 ≠ 0 ∧
    x.event &&& ~~~(b &&& ~~~x.fresh) &&& 3 = 0 ∧ x.waiting = []) ∧
    (∃ (s : State) (a : BitVec 20), portOn s.hub = true ∧ a.toNat % 8 = 0 ∧ a.toNat ≠ 0x8008) ∧
    (∃ (s : State) (a : BitVec 20) (b : BitVec 20) (w : Word), portOn s.hub = true ∧ a.toNat % 8 = 4 ∧ s.hub.regs.half = some (b, w) ∧
    b.toNat + 4 = a.toNat) ∧
    (∃ (s : State) (ch : BitVec 2) (p : Part), portOn s.hub = true ∧ s.hub.regs.cmdWrote.contains (11, 8 + 8 * ch.toNat) = false ∧
    s.hub.prot.locked = true ∧ p ≠ .high) ∧
    (∃ (s : State) (ch : BitVec 2), portOn s.hub = true ∧ s.hub.regs.cmdWrote.contains (11, 8 + 8 * ch.toNat) = false ∧ s.hub.prot.locked = true) ∧
    (∃ (s : State) (ch : BitVec 2) (v : DWord), portOn s.hub = true ∧ s.hub.regs.cmdWrote.contains (11, 8 + 8 * ch.toNat) = false ∧
    s.hub.prot.locked = false ∧ bitsOf v.toNat 2 1 ≠ 0 ∧ ((bitsOf v.toNat 2 1 = 3 → s.env.debugDis = false))) ∧
    (∃ (s : State) (ch : BitVec 2) (v : DWord), portOn s.hub = true ∧ s.hub.regs.cmdWrote.contains (11, 8 + 8 * ch.toNat) = false ∧
    s.hub.prot.locked = false ∧ bitsOf v.toNat 2 1 = 0) ∧
    (∃ (s : State), portOn s.hub = true ∧ s.hub.regs.cmdWrote.contains (32, 0x38) = false) ∧
    (∃ (s : State) (v : DWord), portOn s.hub = true ∧ s.env.tray = false ∧ v.getLsbD 63 = false ∧ (∀ w ∈ s.hub.regs.portWrote, ¬(w.1 = 32 ∧
    w.2.1 = 0x38))) ∧
    (∃ (s : State), portOn s.hub = true ∧ s.hub.regs.cmdWrote.contains (0, 0x40) = true) ∧
    (∃ (s : State) (ch : BitVec 2) (len : BitVec 11) (x : Channel) (code : Nat) (order : Bool) (cseq : Word) (target : Node) (ws : List Word) (d : OpDef), portOn s.hub = true ∧
    s.hub.regs.cmdWrote.contains (1, 0x1000 * ch.toNat + 8) = false ∧ chanOn s.hub ch.toNat = true ∧ s.hub.cmd.chans[ch.toNat]? = some x ∧
    x.submitted = none ∧ parsePacket (cbufBytes x len.toNat) = .good code order cseq target ws ∧ opIn opcodes code ws = some d) ∧
    (∃ (s : State) (ch : BitVec 2) (x : Channel) (b : List Byte), portOn s.hub = true ∧ s.hub.regs.cmdWrote.contains (1, 0x1000 * ch.toNat + 8) = false ∧
    chanOn s.hub ch.toNat = true ∧ s.hub.cmd.chans[ch.toNat]? = some x ∧ x.submitted = some b) :=
  ⟨⟨tS, 0x1C000, by decide +kernel⟩,
    ⟨tS, by decide +kernel⟩,
    ⟨tS, by decide +kernel⟩,
    ⟨tS, 0, { enabled := true, domain := 1 }, by decide +kernel⟩,
    ⟨{ tS with hub.cmd.chans := [{ enabled := true, domain := 1, event := 1 }, {}, {}, {}] }, 0, 1, { enabled := true, domain := 1, event := 1 }, by decide +kernel⟩,
    ⟨tS, 0x40, by decide +kernel⟩,
    ⟨{ tS with hub.regs.half := some (0x40, 7) }, 0x44, 0x40, 7, by decide +kernel⟩,
    ⟨tS, 1, .low, by decide +kernel⟩,
    ⟨tS, 1, by decide +kernel⟩,
    ⟨{ tS with hub.prot.locked := false }, 1, 2, by decide +kernel⟩,
    ⟨{ tS with hub.prot.locked := false }, 1, 0x10, by decide +kernel⟩,
    ⟨tS, by decide +kernel⟩,
    ⟨tS, 5, by decide +kernel⟩,
    ⟨{ tS with hub.regs.cmdWrote := [(0, 0x40)] }, by decide +kernel⟩,
    ⟨{ tS with hub.cmd.chans := [{ enabled := true, domain := 1, cbuf := [(0, 0x10), (1, 0x00), (2, 0x00), (3, 0x00), (4, 0x00), (5, 0x00), (6, 0x00), (7, 0x09), (8, 0x00), (9, 0x03), (10, 0xFF), (11, 0xFF), (12, 0x2B), (13, 0x8F), (14, 0xBE), (15, 0xD2)] }, {}, {}, {}] }, 0, 16, { enabled := true, domain := 1, cbuf := [(0, 0x10), (1, 0x00), (2, 0x00), (3, 0x00), (4, 0x00), (5, 0x00), (6, 0x00), (7, 0x09), (8, 0x00), (9, 0x03), (10, 0xFF), (11, 0xFF), (12, 0x2B), (13, 0x8F), (14, 0xBE), (15, 0xD2)] }, 0, false, 9, 0x3FFFF, [], opSysInfo, by decide +kernel, by decide +kernel, by decide +kernel, by decide +kernel, by decide +kernel, tParse (by decide +kernel), rfl⟩,
    ⟨{ tS with hub.cmd.chans := [{ enabled := true, domain := 1, submitted := some [1] }, {}, {}, {}] }, 0, { enabled := true, domain := 1, submitted := some [1] }, [1], by decide +kernel⟩⟩

/-- The hypotheses of CellCommands are met. -/
theorem meets_CellCommands :
    (∃ (c : Cmd) (s : State) (k : Nat) (x : Region) (l : List EvSel) (b : _), passes opCellCfg c s = true ∧ presentCore s.env s.hub (c.w 1) = some k ∧
    s.hub.regions[regionOf k]? = some x ∧ (ctxOf c s).settings 2 cellSetting ((hubc s.hub k).sels, false) = .inr (l, b) ∧ x.stopped = false ∧
    b = false) ∧
    (∃ (c : Cmd) (s : State) (k : Nat) (x : Region) (l : List EvSel) (b : _), passes opCellCfg c s = true ∧ presentCore s.env s.hub (c.w 1) = some k ∧
    s.hub.regions[regionOf k]? = some x ∧ (ctxOf c s).settings 2 cellSetting ((hubc s.hub k).sels, false) = .inr (l, b) ∧ x.stopped = false ∧
    b = true) ∧
    (∃ (c : Cmd) (s : State) (k : Nat) (x : Region) (l : List EvSel) (b : _), passes opCellCfg c s = true ∧ presentCore s.env s.hub (c.w 1) = some k ∧
    s.hub.regions[regionOf k]? = some x ∧ (ctxOf c s).settings 2 cellSetting ((hubc s.hub k).sels, false) = .inr (l, b) ∧ x.stopped = true) ∧
    (∃ (c : Cmd) (s : State) (k : Nat), passes opCntRead c s = true ∧ c.params = [c.w 1] ∧ presentCore s.env s.hub (c.w 1) = some k) ∧
    (∃ (c : Cmd) (s : State), passes opCntRead c s = true ∧ c.params = []) ∧
    (∃ (c : Cmd) (s : State) (x : Region), passes opCntSnap c s = true ∧ (maskCores (c.n 1) (c.params.drop 1)).all s.env.present = true ∧
    s.hub.regions[c.n 1]? = some x ∧ x.collect ≠ [] ∧ maskCores (c.n 1) (c.params.drop 1) ≠ []) ∧
    (∃ (c : Cmd) (s : State) (k : Nat) (x : Region) (w : WatchSet), passes opWatchSet c s = true ∧ presentCore s.env s.hub (c.w 1) = some k ∧
    s.hub.regions[regionOf k]? = some x ∧ x.stopped = false ∧ (ctxOf c s).settings 2 watchSetting (hubc s.hub k).watch = .inr w) ∧
    (∃ (c : Cmd) (s : State) (k : Nat) (x : Region), passes opRuleSet c s = true ∧ presentCore s.env s.hub (c.w 1) = some k ∧
    s.hub.regions[regionOf k]? = some x ∧ x.stopped = false ∧ (hubc s.hub k).rules.length = 8 ∧ (cell s.hub k).rules.length = 8 ∧ c.n 2 ≤ 7) ∧
    (∃ (s : State) (k : BitVec 11) (x : Region), portOn s.hub = true ∧ s.hub.regs.cmdWrote.contains (16, 64 * k.toNat + 8) = false ∧
    s.env.present k.toNat = true ∧ s.hub.regions[regionOf k.toNat]? = some x ∧ x.stopped = false) :=
  ⟨⟨tC [5, 0x00010100, 0x300], tS, 5, {}, (setOr ((hubc (tS : State).hub (5 : Nat)).sels, false) ((ctxOf (tC [5, 0x00010100, 0x300] : Cmd) (tS : State)).settings 2 cellSetting ((hubc (tS : State).hub (5 : Nat)).sels, false))).1, false, by decide +kernel⟩,
    ⟨tC [5, 0x00110100, 1], tS, 5, {}, (setOr ((hubc (tS : State).hub (5 : Nat)).sels, false) ((ctxOf (tC [5, 0x00110100, 1] : Cmd) (tS : State)).settings 2 cellSetting ((hubc (tS : State).hub (5 : Nat)).sels, false))).1, true, by decide +kernel⟩,
    ⟨tC [5, 0x00110100, 1], { tS with hub.regions := List.replicate 8 { stopped := true } }, 5, { stopped := true }, (setOr ((hubc ({ tS with hub.regions := List.replicate 8 { stopped := true } } : State).hub (5 : Nat)).sels, false) ((ctxOf (tC [5, 0x00110100, 1] : Cmd) ({ tS with hub.regions := List.replicate 8 { stopped := true } } : State)).settings 2 cellSetting ((hubc ({ tS with hub.regions := List.replicate 8 { stopped := true } } : State).hub (5 : Nat)).sels, false))).1, true, by decide +kernel⟩,
    ⟨tC [5], tS, 5, by decide +kernel⟩,
    ⟨tC [], tS, by decide +kernel⟩,
    ⟨tC [0, 1, 0, 0, 0, 0, 0, 0, 0], { tS with hub.regions := List.replicate 8 { collect := [9] } }, { collect := [9] }, by decide +kernel⟩,
    ⟨tC [5, 0x00030100, 1], tS, 5, {}, setOr (hubc (tS : State).hub (5 : Nat)).watch ((ctxOf (tC [5, 0x00030100, 1] : Cmd) (tS : State)).settings 2 watchSetting (hubc (tS : State).hub (5 : Nat)).watch), by decide +kernel⟩,
    ⟨tC [5, 2, 0x08000000, 0, 1, 0], tS, 5, {}, by decide +kernel⟩,
    ⟨tS, 5, {}, by decide +kernel⟩⟩

/-- The hypotheses of HostCycle are met. -/
theorem meets_HostCycle :
    (∃ (s : State) (k : BitVec 11) (x : Region), cellRuns s.env s.hub k.toNat = true ∧ s.hub.regions[regionOf k.toNat]? = some x ∧
    (cell s.hub k.toNat).cnt.stalls.length = 16) ∧
    (∃ (k : Counters), k.stalls.length = 16) :=
  ⟨⟨tS, 5, {}, by decide +kernel⟩,
    ⟨{}, by decide +kernel⟩⟩

/-- The hypotheses of CellEvents are met. -/
theorem meets_CellEvents :
    (∃ (s : State) (r : RegionNo) (x : Region), s.env.tray = false ∧ portOn s.hub = true ∧ s.hub.regions[r.toNat]? = some x) ∧
    (∃ (s : State) (r : RegionNo) (x : Region), alive s.hub = true ∧ s.hub.regions[r.toNat]? = some x ∧ x.rewrite = true ∧ x.stopped = false) ∧
    (∃ (s : State) (k : BitVec 11), cellRuns s.env s.hub k.toNat = true ∧ (cell s.hub k.toNat).hold ≠ 0 ∧ 256 ≤ (cell s.hub k.toNat).holdAge) ∧
    (∃ (s : State) (k : BitVec 11) (i : BitVec 3) (r : Rule) (t0 : Nat), cellRuns s.env s.hub k.toNat = true ∧ serving s.hub = true ∧
    (cell s.hub k.toNat).armed = true ∧ (cell s.hub k.toNat).rules[i.toNat]? = some r ∧ r.en = true ∧ r.kind ≠ 0 ∧ r.start = some t0 ∧
    t0 + r.window ≤ nowNs s.hub) ∧
    (∃ (s : State) (k : BitVec 11) (wd : Word) (last : Bool) (w : Watch) (n : WatchWin), cellRuns s.env s.hub k.toNat = true ∧ serving s.hub = true ∧
    (cell s.hub k.toNat).watch = w ∧ w.set.mode ≠ 0 ∧ w.ignore = 0 ∧ watchStep s.hub w.set wd w.win = n ∧ n.count < 2 ^ 28 ∧ last = false ∧
    w.set.window ≠ n.count) ∧
    (∃ (s : State) (k : BitVec 11) (wd : Word) (last : Bool) (w : Watch) (n : WatchWin), cellRuns s.env s.hub k.toNat = true ∧ serving s.hub = true ∧
    (cell s.hub k.toNat).watch = w ∧ w.set.mode ≠ 0 ∧ w.ignore = 0 ∧ watchStep s.hub w.set wd w.win = n ∧ n.count < 2 ^ 28 ∧ last = true ∧
    w.results.length < 2) ∧
    (∃ (s : State) (k : BitVec 11) (wd : Word) (last : Bool) (w : Watch) (n : WatchWin), cellRuns s.env s.hub k.toNat = true ∧ serving s.hub = true ∧
    (cell s.hub k.toNat).watch = w ∧ w.set.mode ≠ 0 ∧ w.ignore = 0 ∧ watchStep s.hub w.set wd w.win = n ∧ n.count < 2 ^ 28 ∧ last = true ∧
    2 ≤ w.results.length) ∧
    (∃ (s : State) (k : BitVec 11) (x : Region) (a : WatchWin) (l : _), cellRuns s.env s.hub k.toNat = true ∧ s.hub.regions[regionOf k.toNat]? = some x ∧
    (cell s.hub k.toNat).watch.results = a :: l) ∧
    (∃ (s : State) (r : RegionNo) (x : Region), s.env.tray = false ∧ upState s.hub = true ∧ s.hub.regions[r.toNat]? = some x) ∧
    (∃ (s : State) (r : RegionNo) (x : Region), s.env.tray = false ∧ upState s.hub = true ∧ s.hub.regions[r.toNat]? = some x ∧ x.stopped = false ∧
    x.lastEdge + s.hub.time.stopThr ≤ nowNs s.hub ∧ s.env.beaten (evEdge r.toNat) (x.lastEdge + s.hub.time.stopThr) (nowNs s.hub) = false) ∧
    (∃ (s : State) (r : RegionNo) (x : Region) (k : Nat), s.env.tray = false ∧ s.hub.sys.st = .playa ∧ s.hub.regions[r.toNat]? = some x ∧
    x.stopped = true ∧ x.partialReq = [] ∧ ((x.waitCfg = [] ∨ x.waitCfg = [(k, .sels)]))) ∧
    (∃ (s : State) (k : BitVec 11) (l : List Nat) (x : Region), cellRuns s.env s.hub k.toNat = true ∧ s.hub.regions[regionOf k.toNat]? = some x ∧
    x.collect = k.toNat :: l) ∧
    (∃ (s : State) (k : BitVec 11) (l : List Nat) (x : Region), cellRuns s.env s.hub k.toNat = true ∧ s.hub.regions[regionOf k.toNat]? = some x ∧
    x.collect = k.toNat :: l ∧ x.turn = 16) ∧
    (∃ (s : State) (r : RegionNo) (x : Region), s.env.tray = false ∧ serving s.hub = true ∧ s.hub.regions[r.toNat]? = some x ∧ x.stopped = false ∧
    x.echoWait = false ∧ x.pending ≠ 0) :=
  ⟨⟨tS, 3, {}, by decide +kernel⟩,
    ⟨{ tS with hub.regions := List.replicate 8 { rewrite := true } }, 3, { rewrite := true }, by decide +kernel⟩,
    ⟨{ tS with hub.cells := [(5, { hold := 2 })] }, 5, by decide +kernel⟩,
    ⟨{ tS with hub.cells := [(5, { rules := [{ w0 := 0xA800000000000000, start := some 0 }] })] }, 5, 0, ruleAt (cell ({ tS with hub.cells := [(5, { rules := [{ w0 := 0xA800000000000000, start := some 0 }] })] } : State).hub 5) 0, 0, by decide +kernel⟩,
    ⟨{ tS with hub.cells := [(5, { watch := { set := { mode := 1, window := 7 } } })] }, 5, 7, false, { set := { mode := 1, window := 7 } }, watchStep ({ tS with hub.cells := [(5, { watch := { set := { mode := 1, window := 7 } } })] } : State).hub ({ set := { mode := 1, window := 7 } } : Watch).set (7 : Word) ({ set := { mode := 1, window := 7 } } : Watch).win, by decide +kernel⟩,
    ⟨{ tS with hub.cells := [(5, { watch := { set := { mode := 1, window := 7 } } })] }, 5, 7, true, { set := { mode := 1, window := 7 } }, watchStep ({ tS with hub.cells := [(5, { watch := { set := { mode := 1, window := 7 } } })] } : State).hub ({ set := { mode := 1, window := 7 } } : Watch).set (7 : Word) ({ set := { mode := 1, window := 7 } } : Watch).win, by decide +kernel⟩,
    ⟨{ tS with hub.cells := [(5, { watch := { set := { mode := 1, window := 7 }, results := [{}, {}] } })] }, 5, 7, true, { set := { mode := 1, window := 7 }, results := [{}, {}] }, watchStep ({ tS with hub.cells := [(5, { watch := { set := { mode := 1, window := 7 }, results := [{}, {}] } })] } : State).hub ({ set := { mode := 1, window := 7 }, results := [{}, {}] } : Watch).set (7 : Word) ({ set := { mode := 1, window := 7 }, results := [{}, {}] } : Watch).win, by decide +kernel⟩,
    ⟨{ tS with hub.cells := [(5, { watch := { set := { mode := 1, window := 7 }, results := [{}, {}] } })] }, 5, {}, {}, [{}], by decide +kernel⟩,
    ⟨tS, 3, {}, by decide +kernel⟩,
    ⟨{ tS with hub.time.tb := BitVec.ofNat 96 (2 ^ 32 * 10 ^ 6) }, 3, {}, by decide +kernel⟩,
    ⟨{ tS with hub.sys.st := .playa, hub.regions := List.replicate 8 { stopped := true } }, 3, { stopped := true }, 0, by decide +kernel⟩,
    ⟨{ tS with hub.regions := List.replicate 8 { collect := [5, 9] } }, 5, [9], { collect := [5, 9] }, by decide +kernel⟩,
    ⟨{ tS with hub.regions := List.replicate 8 { collect := [5, 9], turn := 16 } }, 5, [9], { collect := [5, 9], turn := 16 }, by decide +kernel⟩,
    ⟨{ tS with hub.regions := List.replicate 8 { pending := 9 } }, 3, { pending := 9 }, by decide +kernel⟩⟩

/-- The hypotheses of ResidueCommands are met. -/
theorem meets_ResidueCommands :
    (∃ (c : Cmd) (s : State) (k : Nat) (a : ResSet) (x : Region), passes opResCfg c s = true ∧ kindOf (c.w 1) = 0 ∧
    presentCore s.env s.hub (c.w 1) = some k ∧ (ctxOf c s).settings 2 resCoreSetting { die := s.hub.res } = .inr a ∧
    s.hub.regions[regionOf k]? = some x ∧ x.stopped = false) ∧
    (∃ (c : Cmd) (s : State) (k : Nat) (a : ResSet) (x : Region), passes opResCfg c s = true ∧ kindOf (c.w 1) = 0 ∧
    presentCore s.env s.hub (c.w 1) = some k ∧ (ctxOf c s).settings 2 resCoreSetting { die := s.hub.res } = .inr a ∧
    s.hub.regions[regionOf k]? = some x ∧ x.stopped = true ∧ regionOf k < 8) ∧
    (∃ (c : Cmd) (s : State) (a : ResSet), passes opResCfg c s = true ∧ kindOf (c.w 1) = 3 ∧ c.w 1 = dieEnt s.env s.hub ∧
    (ctxOf c s).settings 2 resDieSetting { die := s.hub.res } = .inr a ∧ a.cores = false) ∧
    (∃ (c : Cmd) (s : State) (k : Nat), passes opAuditRate c s = true ∧ presentCore s.env s.hub (c.w 1) = some k) ∧
    (∃ (c : Cmd) (s : State) (k : Nat), passes opAuditRead c s = true ∧ presentCore s.env s.hub (c.w 1) = some k) ∧
    (∃ (s : State) (k : BitVec 11) (d : BitVec 128) (l : Lane) (w : PointWord) (f : List PointWord), laneRuns s.env s.hub k.toNat = true ∧
    (cell s.hub k.toNat).lane = l ∧ l.fifo = w :: f ∧ l.tiles = [] ∧ newTileCheck s.hub k.toNat d true false = 0) ∧
    (∃ (s : State) (k : BitVec 11) (d : BitVec 128) (l : Lane) (w : PointWord) (f : List PointWord), laneRuns s.env s.hub k.toNat = true ∧
    (cell s.hub k.toNat).lane = l ∧ l.fifo = w :: f ∧ l.tiles = [] ∧ newTileCheck s.hub k.toNat d true true = 0) ∧
    (∃ (s : State) (k : BitVec 11) (x : Region), laneRuns s.env s.hub k.toNat = true ∧ (cell s.hub k.toNat).lane.tiles = [] ∧
    s.hub.regions[regionOf k.toNat]? = some x ∧ x.outq.length < 64) ∧
    (∃ (s : State) (k : BitVec 11) (l : Lane) (u : Tile), laneRuns s.env s.hub k.toNat = true ∧ (cell s.hub k.toNat).lane = l ∧ l.tiles = [u] ∧
    u.pairs < u.k ∧ u.bounded = false) ∧
    (∃ (s : State) (k : BitVec 11) (d : BitVec 128) (l : Lane) (u : Tile) (x : Region), laneRuns s.env s.hub k.toNat = true ∧
    (cell s.hub k.toNat).lane = l ∧ l.tiles = [u] ∧ u.bounded = false ∧ u.word.audit = false ∧ u.k ≤ u.pairs ∧ beatBits d 122 80 = 0 ∧
    beatBits d 127 126 = 0 ∧ beatBits d 63 61 = 0 ∧ beatBits d 79 64 = u.tag.toNat ∧ s.hub.regions[regionOf k.toNat]? = some x ∧ x.outq.length < 64 ∧
    fld (beatBits d 63 0) = u.sum) ∧
    (∃ (s : State) (k : BitVec 11) (d : BitVec 128) (l : Lane) (u : Tile) (x : Region), laneRuns s.env s.hub k.toNat = true ∧
    (cell s.hub k.toNat).lane = l ∧ l.tiles = [u] ∧ u.bounded = false ∧ u.word.audit = false ∧ u.k ≤ u.pairs ∧ beatBits d 122 80 = 0 ∧
    beatBits d 127 126 = 0 ∧ beatBits d 63 61 = 0 ∧ beatBits d 79 64 = u.tag.toNat ∧ s.hub.regions[regionOf k.toNat]? = some x ∧ x.outq.length < 64 ∧
    fld (beatBits d 63 0) ≠ u.sum) ∧
    (∃ (s : State) (k : BitVec 11) (l : Lane) (o : TapDue) (q : _), laneRuns s.env s.hub k.toNat = true ∧ (cell s.hub k.toNat).lane = l ∧ l.due = o :: q ∧
    l.rv = false ∧ o.due ≤ l.cycle) ∧
    (∃ (s : State) (k : BitVec 11) (l : Lane) (u : Tile) (x : Region), laneRuns s.env s.hub k.toNat = true ∧ (cell s.hub k.toNat).lane = l ∧
    l.tiles = [u] ∧ tileExpired s.hub k.toNat u = true ∧ s.env.beaten (evTapEnd k.toNat) (tileDue s.hub k.toNat u) (nowNs s.hub) = false ∧
    s.hub.regions[regionOf k.toNat]? = some x ∧ x.outq.length < 64) ∧
    (∀ b : BitVec 128, Config.drbg 0 = b → pointOk b = true → ∃ (s : State) (k : BitVec 11) (l : Lane) (b : BitVec 128) (sel : BitVec 20) (q : List (BitVec 20)) (i : Nat), laneRuns s.env s.hub k.toNat = true ∧
    servingInstance s.hub = some i ∧ (cell s.hub k.toNat).lane = l ∧ l.wants = true ∧ Config.drbg s.hub.free = b ∧ pointOk b = true ∧
    s.hub.res.selectors = sel :: q ∧ selected sel (auditExp s.env s.hub k.toNat).1 = false ∧ s.hub.res.dbgS.getLsbD 63 = false) :=
  ⟨⟨tC [5, 0x00010100, 1], tS, 5, setOr { die := (tS : State).hub.res } ((ctxOf (tC [5, 0x00010100, 1] : Cmd) (tS : State)).settings 2 resCoreSetting { die := (tS : State).hub.res }), {}, by decide +kernel, by decide +kernel, by decide +kernel, rfl, by decide +kernel, by decide +kernel⟩,
    ⟨tC [5, 0x00010100, 1], { tS with hub.regions := List.replicate 8 { stopped := true } }, 5, setOr { die := ({ tS with hub.regions := List.replicate 8 { stopped := true } } : State).hub.res } ((ctxOf (tC [5, 0x00010100, 1] : Cmd) ({ tS with hub.regions := List.replicate 8 { stopped := true } } : State)).settings 2 resCoreSetting { die := ({ tS with hub.regions := List.replicate 8 { stopped := true } } : State).hub.res }), { stopped := true }, by decide +kernel, by decide +kernel, by decide +kernel, rfl, by decide +kernel, by decide +kernel, by decide +kernel⟩,
    ⟨tC [0x30000000, 0x00030200, 0, 5000], tS, setOr { die := (tS : State).hub.res } ((ctxOf (tC [0x30000000, 0x00030200, 0, 5000] : Cmd) (tS : State)).settings 2 resDieSetting { die := (tS : State).hub.res }), by decide +kernel, by decide +kernel, by decide +kernel, rfl, by decide +kernel⟩,
    ⟨tC [5, 7], tS, 5, by decide +kernel⟩,
    ⟨tC [5], tS, 5, by decide +kernel⟩,
    ⟨{ tS with hub.cells := [(5, { lane := { fifo := [{ audit := false, s := 3, t := 5, u := 7, fixed := false }] } })] }, 5, 0x8010000200038000000000000, { fifo := [{ audit := false, s := 3, t := 5, u := 7, fixed := false }] }, { audit := false, s := 3, t := 5, u := 7, fixed := false }, [], by decide +kernel⟩,
    ⟨{ tS with hub.cells := [(5, { lane := { fifo := [{ audit := false, s := 3, t := 5, u := 7, fixed := false }] } })] }, 5, 0x8010000200038000000000000, { fifo := [{ audit := false, s := 3, t := 5, u := 7, fixed := false }] }, { audit := false, s := 3, t := 5, u := 7, fixed := false }, [], by decide +kernel⟩,
    ⟨tS, 5, {}, by decide +kernel⟩,
    ⟨{ tS with hub.cells := [(5, { lane := { tiles := [{ bounded := false, orient := 0, fmtL := 0, fmtR := 0, fmtC := 0, pseq := 0, m := 1, n := 1, k := 4, tag := 7, word := { audit := false, s := 3, t := 5, u := 7, fixed := false }, deadline := 5000, stopped0 := 0 }] } })] }, 5, { tiles := [{ bounded := false, orient := 0, fmtL := 0, fmtR := 0, fmtC := 0, pseq := 0, m := 1, n := 1, k := 4, tag := 7, word := { audit := false, s := 3, t := 5, u := 7, fixed := false }, deadline := 5000, stopped0 := 0 }] }, { bounded := false, orient := 0, fmtL := 0, fmtR := 0, fmtC := 0, pseq := 0, m := 1, n := 1, k := 4, tag := 7, word := { audit := false, s := 3, t := 5, u := 7, fixed := false }, deadline := 5000, stopped0 := 0 }, by decide +kernel⟩,
    ⟨{ tS with hub.cells := [(5, { lane := { tiles := [{ bounded := false, orient := 0, fmtL := 0, fmtR := 0, fmtC := 0, pseq := 0, m := 1, n := 1, k := 4, tag := 7, word := { audit := false, s := 3, t := 5, u := 7, fixed := false }, deadline := 5000, stopped0 := 0, pairs := 4 }] } })] }, 5, 0x70000000000000000, { tiles := [{ bounded := false, orient := 0, fmtL := 0, fmtR := 0, fmtC := 0, pseq := 0, m := 1, n := 1, k := 4, tag := 7, word := { audit := false, s := 3, t := 5, u := 7, fixed := false }, deadline := 5000, stopped0 := 0, pairs := 4 }] }, { bounded := false, orient := 0, fmtL := 0, fmtR := 0, fmtC := 0, pseq := 0, m := 1, n := 1, k := 4, tag := 7, word := { audit := false, s := 3, t := 5, u := 7, fixed := false }, deadline := 5000, stopped0 := 0, pairs := 4 }, {}, by decide +kernel⟩,
    ⟨{ tS with hub.cells := [(5, { lane := { tiles := [{ bounded := false, orient := 0, fmtL := 0, fmtR := 0, fmtC := 0, pseq := 0, m := 1, n := 1, k := 4, tag := 7, word := { audit := false, s := 3, t := 5, u := 7, fixed := false }, deadline := 5000, stopped0 := 0, pairs := 4 }] } })] }, 5, 0x70000000000000001, { tiles := [{ bounded := false, orient := 0, fmtL := 0, fmtR := 0, fmtC := 0, pseq := 0, m := 1, n := 1, k := 4, tag := 7, word := { audit := false, s := 3, t := 5, u := 7, fixed := false }, deadline := 5000, stopped0 := 0, pairs := 4 }] }, { bounded := false, orient := 0, fmtL := 0, fmtR := 0, fmtC := 0, pseq := 0, m := 1, n := 1, k := 4, tag := 7, word := { audit := false, s := 3, t := 5, u := 7, fixed := false }, deadline := 5000, stopped0 := 0, pairs := 4 }, {}, by decide +kernel⟩,
    ⟨{ tS with hub.cells := [(5, { lane := { due := [{ due := 0, res := 1, rtag := 7 }] } })] }, 5, { due := [{ due := 0, res := 1, rtag := 7 }] }, { due := 0, res := 1, rtag := 7 }, [], by decide +kernel⟩,
    ⟨{ tS with hub.cells := [(5, { lane := { tiles := [{ bounded := false, orient := 0, fmtL := 0, fmtR := 0, fmtC := 0, pseq := 0, m := 1, n := 1, k := 4, tag := 7, word := { audit := false, s := 3, t := 5, u := 7, fixed := false }, deadline := 5, stopped0 := 0 }] } })] }, 5, { tiles := [{ bounded := false, orient := 0, fmtL := 0, fmtR := 0, fmtC := 0, pseq := 0, m := 1, n := 1, k := 4, tag := 7, word := { audit := false, s := 3, t := 5, u := 7, fixed := false }, deadline := 5, stopped0 := 0 }] }, { bounded := false, orient := 0, fmtL := 0, fmtR := 0, fmtC := 0, pseq := 0, m := 1, n := 1, k := 4, tag := 7, word := { audit := false, s := 3, t := 5, u := 7, fixed := false }, deadline := 5, stopped0 := 0 }, {}, by decide +kernel⟩,
    fun b hb hp => ⟨{ tS with hub.cells := [], hub.res.drbgOk := 1, hub.res.selectors := [1] }, 5, {}, b, 1, [], 0, by decide +kernel, by decide +kernel, by decide +kernel, by decide +kernel, hb, hp, by decide +kernel, by decide +kernel, by decide +kernel⟩⟩

/-- The hypotheses of AuditEvents are met. -/
theorem meets_AuditEvents :
    (∃ (s : State) (i : BitVec 3), s.env.tray = false ∧ alive s.hub = true ∧ s.hub.res.drbgOk.getLsbD i.toNat = true ∧ drbgSpent s.hub i.toNat = true) ∧
    (∃ (s : State) (i : BitVec 3), s.env.tray = false ∧ alive s.hub = true ∧ s.hub.res.drbgOk.getLsbD i.toNat = true) ∧
    (∃ (s : State) (r : RegionNo) (x : Region) (o : TapOut) (l : List TapOut), s.env.tray = false ∧ working s.hub = true ∧
    s.hub.regions[r.toNat]? = some x ∧ x.stopped = false ∧ x.echoWait = false ∧ x.dropped = [] ∧ x.outq = o :: l ∧ o.audit = none ∧ o.lateEnd = none ∧
    o.res = 1 ∧ o.tile.any (fun u => u.word.audit) = false) ∧
    (∃ (s : State) (r : RegionNo) (x : Region) (o : TapOut) (l : List TapOut), s.env.tray = false ∧ working s.hub = true ∧
    s.hub.regions[r.toNat]? = some x ∧ x.stopped = false ∧ x.echoWait = false ∧ x.dropped = [] ∧ x.outq = o :: l ∧ o.audit = none ∧ o.lateEnd = none ∧
    o.res = 1 ∧ o.tile.any (fun u => u.word.audit) = true) ∧
    (∃ (s : State) (r : RegionNo) (x : Region) (o : TapOut) (l : List TapOut) (slot : BitVec 2) (rd : Bool) (u : Tile), s.env.tray = false ∧
    working s.hub = true ∧ s.hub.regions[r.toNat]? = some x ∧ x.stopped = false ∧ x.echoWait = false ∧ x.dropped = [] ∧ x.outq = o :: l ∧
    o.audit = some (slot, rd) ∧ o.lateEnd = none ∧ o.tile = some u ∧ slotBusy s.hub o.core slot = false ∧ s.hub.res.queue.length < 256) ∧
    (∃ (s : State) (q : AuditReq) (u : Nat), s.env.tray = false ∧ serving s.hub = true ∧ auditNext s.hub.res.queue = some q ∧ freeUnit s.hub = some u ∧
    nowNs s.hub < q.until_) ∧
    (∃ (s : State) (u : BitVec 5) (q : AuditReq) (d : Nat), serving s.hub = true ∧ Tab.find s.hub.res.units u.toNat = some q ∧ q.again = some d ∧
    d ≤ nowNs s.hub) ∧
    (∃ (s : State) (u : BitVec 5) (q : AuditReq), serving s.hub = true ∧ Tab.find s.hub.res.units u.toNat = some q ∧ q.again = none ∧
    clientBusy s.hub (fun c => c == .audit u.toNat) = false ∧ auditTile s.env s.hub q (hubc s.hub q.core).uacc = some (.diffs []) ∧
    s.hub.res.unclassed.find? (fun p => p.1.isOf q) = none) ∧
    (∃ (s : State) (u : BitVec 5) (q : AuditReq) (p : TapOut × Bool), serving s.hub = true ∧ Tab.find s.hub.res.units u.toNat = some q ∧ q.again = none ∧
    clientBusy s.hub (fun c => c == .audit u.toNat) = false ∧ auditTile s.env s.hub q (hubc s.hub q.core).uacc = some (.diffs []) ∧
    s.hub.res.unclassed.find? (fun p => p.1.isOf q) = some p) ∧
    (∃ (s : State) (k : BitVec 11) (tag : BitVec 16) (q : AuditReq), alive s.hub = true ∧
    s.hub.res.queue.find? (fun q => decide (q.core = k.toNat) && decide (q.tile.tag = tag) && decide (q.until_ ≤ nowNs s.hub)) = some q ∧
    s.env.beaten evAudit q.until_ (nowNs s.hub) = false ∧ s.hub.res.unclassed.find? (fun p => p.1.isOf q) = none) :=
  ⟨⟨{ tS with hub.res.drbgOk := 1, hub.res.drbg := List.replicate 8 (2 ^ 32, 0) }, 0, by decide +kernel⟩,
    ⟨{ tS with hub.res.drbgOk := 1, hub.res.drbg := List.replicate 8 (2 ^ 32, 0) }, 0, by decide +kernel⟩,
    ⟨{ tS with hub.regions := List.replicate 8 { outq := [{ core := 5, res := 1, tb := 900, hostCycle := 3 }] } }, 0, { outq := [{ core := 5, res := 1, tb := 900, hostCycle := 3 }] }, { core := 5, res := 1, tb := 900, hostCycle := 3 }, [], by decide +kernel⟩,
    ⟨{ tS with hub.regions := List.replicate 8 { outq := [{ core := 5, res := 1, tb := 900, hostCycle := 3, tile := some { bounded := false, orient := 0, fmtL := 0, fmtR := 0, fmtC := 0, pseq := 0, m := 1, n := 1, k := 4, tag := 7, word := { audit := true, s := 3, t := 5, u := 7, fixed := false }, deadline := 5000, stopped0 := 0 } }] } }, 0, { outq := [{ core := 5, res := 1, tb := 900, hostCycle := 3, tile := some { bounded := false, orient := 0, fmtL := 0, fmtR := 0, fmtC := 0, pseq := 0, m := 1, n := 1, k := 4, tag := 7, word := { audit := true, s := 3, t := 5, u := 7, fixed := false }, deadline := 5000, stopped0 := 0 } }] }, { core := 5, res := 1, tb := 900, hostCycle := 3, tile := some { bounded := false, orient := 0, fmtL := 0, fmtR := 0, fmtC := 0, pseq := 0, m := 1, n := 1, k := 4, tag := 7, word := { audit := true, s := 3, t := 5, u := 7, fixed := false }, deadline := 5000, stopped0 := 0 } }, [], by decide +kernel⟩,
    ⟨{ tS with hub.regions := List.replicate 8 { outq := [{ core := 5, res := 1, tb := 900, hostCycle := 3, tile := some { bounded := false, orient := 0, fmtL := 0, fmtR := 0, fmtC := 0, pseq := 0, m := 1, n := 1, k := 4, tag := 7, word := { audit := false, s := 3, t := 5, u := 7, fixed := false }, deadline := 5000, stopped0 := 0 }, audit := some (0, true) }] } }, 0, { outq := [{ core := 5, res := 1, tb := 900, hostCycle := 3, tile := some { bounded := false, orient := 0, fmtL := 0, fmtR := 0, fmtC := 0, pseq := 0, m := 1, n := 1, k := 4, tag := 7, word := { audit := false, s := 3, t := 5, u := 7, fixed := false }, deadline := 5000, stopped0 := 0 }, audit := some (0, true) }] }, { core := 5, res := 1, tb := 900, hostCycle := 3, tile := some { bounded := false, orient := 0, fmtL := 0, fmtR := 0, fmtC := 0, pseq := 0, m := 1, n := 1, k := 4, tag := 7, word := { audit := false, s := 3, t := 5, u := 7, fixed := false }, deadline := 5000, stopped0 := 0 }, audit := some (0, true) }, [], 0, true, { bounded := false, orient := 0, fmtL := 0, fmtR := 0, fmtC := 0, pseq := 0, m := 1, n := 1, k := 4, tag := 7, word := { audit := false, s := 3, t := 5, u := 7, fixed := false }, deadline := 5000, stopped0 := 0 }, by decide +kernel⟩,
    ⟨{ tS with hub.res.queue := [{ core := 5, tile := { bounded := false, orient := 0, fmtL := 0, fmtR := 0, fmtC := 0, pseq := 0, m := 1, n := 1, k := 4, tag := 7, word := { audit := false, s := 3, t := 5, u := 7, fixed := false }, deadline := 5000, stopped0 := 0 }, lane := 1, slot := 0, ready := true, special := false, high := false, until_ := 2000 }] }, { core := 5, tile := { bounded := false, orient := 0, fmtL := 0, fmtR := 0, fmtC := 0, pseq := 0, m := 1, n := 1, k := 4, tag := 7, word := { audit := false, s := 3, t := 5, u := 7, fixed := false }, deadline := 5000, stopped0 := 0 }, lane := 1, slot := 0, ready := true, special := false, high := false, until_ := 2000 }, 0, by decide +kernel⟩,
    ⟨{ tS with hub.res.units := [(0, { core := 5, tile := { bounded := false, orient := 0, fmtL := 0, fmtR := 0, fmtC := 0, pseq := 0, m := 1, n := 1, k := 4, tag := 7, word := { audit := false, s := 3, t := 5, u := 7, fixed := false }, deadline := 5000, stopped0 := 0 }, lane := 1, slot := 0, ready := true, special := false, high := false, until_ := 2000, again := some 5 })] }, 0, { core := 5, tile := { bounded := false, orient := 0, fmtL := 0, fmtR := 0, fmtC := 0, pseq := 0, m := 1, n := 1, k := 4, tag := 7, word := { audit := false, s := 3, t := 5, u := 7, fixed := false }, deadline := 5000, stopped0 := 0 }, lane := 1, slot := 0, ready := true, special := false, high := false, until_ := 2000, again := some 5 }, 5, by decide +kernel⟩,
    ⟨{ tS with hub.res.units := [(0, { core := 5, tile := { bounded := false, orient := 0, fmtL := 0, fmtR := 0, fmtC := 0, pseq := 0, m := 0, n := 0, k := 0, tag := 0, word := { audit := false, s := 3, t := 5, u := 7, fixed := false }, deadline := 5000, stopped0 := 0 }, lane := 1, slot := 0, ready := true, special := false, high := false, until_ := 2000, valid := true })], hub.mem.ranges := [{ r := { base := 0, size := 1048576, tier := .faster, block := true, c0 := 0, n := 4, localBase := 0, masks := [] } }] }, 0, { core := 5, tile := { bounded := false, orient := 0, fmtL := 0, fmtR := 0, fmtC := 0, pseq := 0, m := 0, n := 0, k := 0, tag := 0, word := { audit := false, s := 3, t := 5, u := 7, fixed := false }, deadline := 5000, stopped0 := 0 }, lane := 1, slot := 0, ready := true, special := false, high := false, until_ := 2000, valid := true }, by decide +kernel⟩,
    ⟨{ tS with hub.res.units := [(0, { core := 5, tile := { bounded := false, orient := 0, fmtL := 0, fmtR := 0, fmtC := 0, pseq := 0, m := 0, n := 0, k := 0, tag := 0, word := { audit := false, s := 3, t := 5, u := 7, fixed := false }, deadline := 5000, stopped0 := 0 }, lane := 1, slot := 0, ready := true, special := false, high := false, until_ := 2000, valid := true })], hub.mem.ranges := [{ r := { base := 0, size := 1048576, tier := .faster, block := true, c0 := 0, n := 4, localBase := 0, masks := [] } }], hub.res.unclassed := [({ core := 5, res := 1, tile := some { bounded := false, orient := 0, fmtL := 0, fmtR := 0, fmtC := 0, pseq := 0, m := 0, n := 0, k := 0, tag := 0, word := { audit := false, s := 3, t := 5, u := 7, fixed := false }, deadline := 5000, stopped0 := 0 }, tb := 900, hostCycle := 3 }, false)] }, 0, { core := 5, tile := { bounded := false, orient := 0, fmtL := 0, fmtR := 0, fmtC := 0, pseq := 0, m := 0, n := 0, k := 0, tag := 0, word := { audit := false, s := 3, t := 5, u := 7, fixed := false }, deadline := 5000, stopped0 := 0 }, lane := 1, slot := 0, ready := true, special := false, high := false, until_ := 2000, valid := true }, ({ core := 5, res := 1, tile := some { bounded := false, orient := 0, fmtL := 0, fmtR := 0, fmtC := 0, pseq := 0, m := 0, n := 0, k := 0, tag := 0, word := { audit := false, s := 3, t := 5, u := 7, fixed := false }, deadline := 5000, stopped0 := 0 }, tb := 900, hostCycle := 3 }, false), by decide +kernel⟩,
    ⟨{ tS with hub.res.queue := [{ core := 5, tile := { bounded := false, orient := 0, fmtL := 0, fmtR := 0, fmtC := 0, pseq := 0, m := 1, n := 1, k := 4, tag := 7, word := { audit := false, s := 3, t := 5, u := 7, fixed := false }, deadline := 5000, stopped0 := 0 }, lane := 1, slot := 0, ready := true, special := false, high := false, until_ := 5 }] }, 5, 7, { core := 5, tile := { bounded := false, orient := 0, fmtL := 0, fmtR := 0, fmtC := 0, pseq := 0, m := 1, n := 1, k := 4, tag := 7, word := { audit := false, s := 3, t := 5, u := 7, fixed := false }, deadline := 5000, stopped0 := 0 }, lane := 1, slot := 0, ready := true, special := false, high := false, until_ := 5 }, by decide +kernel⟩⟩

/-- The hypotheses of DigestCommands are met. -/
theorem meets_DigestCommands :
    (∃ (c : Cmd) (s : State) (d : DigCfg), passes opDigCfg c s = true ∧ (ctxOf c s).settings 2 digSetting (digBase s.hub (c.n 1)) = .inr d ∧
    (d.job ≠ s.hub.dig.cfg.job ∨ d.seed ≠ (digBase s.hub (c.n 1)).seed)) ∧
    (∃ (c : Cmd) (s : State) (d : DigCfg), passes opDigCfg c s = true ∧ (ctxOf c s).settings 2 digSetting (digBase s.hub (c.n 1)) = .inr d ∧
    s.hub.dig.next = none ∧ c.n 1 = s.hub.dig.cfg.job.toNat ∧ d.job = s.hub.dig.cfg.job ∧ d.seed = s.hub.dig.cfg.seed) ∧
    (∃ (c : Cmd) (s : State) (ep : Epoch) (x : DigEntry), passes opDigRead c s = true ∧ c.n 1 ≤ 1 ∧ epochOf s.hub (c.w 4) = some ep ∧
    Tab.find (tableOf (decide (c.n 1 = 1)) ep) (c.n 2 * 64 + c.n 3) = some x) ∧
    (∃ (c : Cmd) (s : State) (x : Seal), passes opDigRead c s = true ∧ c.n 1 = 2 ∧ Tab.find s.hub.dig.seals (c.n 2) = some x) ∧
    (∃ (c : Cmd) (s : State), passes opDigOpen (withOp 0 c) s = true ∧ s.hub.dig.newer = none ∧ s.hub.dig.older = none ∧ s.hub.dig.next = none) ∧
    (∃ (c : Cmd) (s : State) (ep : Epoch), passes opDigRelease (withOp 1 c) s = true ∧ s.hub.dig.older = some ep ∧ ep.num = (withOp 1 c).w 2 ∧
    0 < (withOp 1 c).n 3 ∧ (withOp 1 c).n 3 < s.hub.dig.retire) ∧
    (∃ (c : Cmd) (s : State) (ep : Epoch), passes opDigRelease (withOp 1 c) s = true ∧ s.hub.dig.older = some ep ∧ ep.num = (withOp 1 c).w 2 ∧
    s.hub.dig.retire < (withOp 1 c).n 3) ∧
    (∃ (c : Cmd) (s : State), passes opDigCheckpoint (withOp 2 c) s = true ∧ (epochOf s.hub ((withOp 2 c).w 2)).isSome = true) ∧
    (∃ (c : Cmd) (s : State) (ep : Epoch) (j : Job), passes opDigCompare c s = true ∧ s.hub.dig.older = some ep ∧
    ((∀ y, s.hub.dig.newer = some y → y.num ≠ ep.num)) ∧ s.hub.dig.retire = 0 ∧ jobOfDie s.hub (dieNo s.env s.hub) = some (BitVec.ofNat 16 (c.n 1)) ∧
    jobAt s.hub (BitVec.ofNat 16 (c.n 1)) = some j ∧ s.hub.dig.buf0 = none ∧
    (s.hub.xs.rounds.filter (fun p => decide (p.1 / 2 ^ 26 = 0) && !p.2.done)).length < 16 ∧
    ep.ingress.filter (fun p => included s.hub ep.num.toNat (p.1 / 64)) ≠ []) ∧
    (∃ (s : State) (ep : Epoch), digRuns s.env s.hub = true ∧ s.hub.dig.older = some ep ∧ 0 < s.hub.dig.retire ∧ s.hub.dig.overdue = false ∧
    s.hub.dig.heldSince + s.hub.dig.cfg.retireLimit < nowNs s.hub) ∧
    (∃ (s : State) (b : CmpRound), digRuns s.env s.hub = true ∧ s.hub.dig.buf0 = some b ∧ b.deadline ≤ nowNs s.hub ∧
    s.env.beaten evResult b.deadline (nowNs s.hub) = false) ∧
    (∃ (s : State) (i : Byte) (r : Frozen), digRuns s.env s.hub = true ∧ s.hub.dig.cfg.frozen[i.toNat]? = some r ∧ s.hub.dig.cfg.scrubRate ≠ 0 ∧
    Tab.find s.hub.dig.frozenRef (pairKey r.layer r.slice) = none) ∧
    (∃ (s : State) (i : Byte) (r : Frozen) (f : DigEntry) (b : List Byte) (v : Fld × Fld), digRuns s.env s.hub = true ∧
    s.hub.dig.cfg.frozen[i.toNat]? = some r ∧ s.hub.dig.cfg.scrubRate ≠ 0 ∧ Tab.find s.hub.dig.frozenRef (pairKey r.layer r.slice) = some f ∧
    readMem s.env s.hub r.addr r.len = some b ∧
    digList (laneKeys s.hub (frozenKeys s.hub)).1 (laneKeys s.hub (frozenKeys s.hub)).2.1 r.base (regionElems r.fmt.toNat b) (0, 0) = v ∧
    v = (f.d0, f.d1)) ∧
    (∃ (s : State) (i : Byte) (r : Frozen) (f : DigEntry) (b : List Byte) (v : Fld × Fld), digRuns s.env s.hub = true ∧
    s.hub.dig.cfg.frozen[i.toNat]? = some r ∧ s.hub.dig.cfg.scrubRate ≠ 0 ∧ Tab.find s.hub.dig.frozenRef (pairKey r.layer r.slice) = some f ∧
    readMem s.env s.hub r.addr r.len = some b ∧
    digList (laneKeys s.hub (frozenKeys s.hub)).1 (laneKeys s.hub (frozenKeys s.hub)).2.1 r.base (regionElems r.fmt.toNat b) (0, 0) = v ∧
    v ≠ (f.d0, f.d1)) :=
  ⟨⟨tC [9, 0x00030100, 8], tS, setOr (digBase (tS : State).hub ((tC [9, 0x00030100, 8] : Cmd).n 1)) ((ctxOf (tC [9, 0x00030100, 8] : Cmd) (tS : State)).settings 2 digSetting (digBase (tS : State).hub ((tC [9, 0x00030100, 8] : Cmd).n 1))), by decide +kernel⟩,
    ⟨tC [0, 0x00030100, 8], tS, setOr (digBase (tS : State).hub ((tC [0, 0x00030100, 8] : Cmd).n 1)) ((ctxOf (tC [0, 0x00030100, 8] : Cmd) (tS : State)).settings 2 digSetting (digBase (tS : State).hub ((tC [0, 0x00030100, 8] : Cmd).n 1))), by decide +kernel⟩,
    ⟨tC [0, 2, 3, 8], { tS with hub.dig.newer := some { num := 8, k0 := 3, k1 := 5, ctx := false, ingress := [(2 * 64 + 3, { d0 := 3, d1 := 5, count := 7, state := 1 })] } }, { num := 8, k0 := 3, k1 := 5, ctx := false, ingress := [(2 * 64 + 3, { d0 := 3, d1 := 5, count := 7, state := 1 })] }, { d0 := 3, d1 := 5, count := 7, state := 1 }, by decide +kernel⟩,
    ⟨tC [2, 4], { tS with hub.dig.seals := [(4, { state := 2, k0 := 3, k1 := 5, count := 4 })] }, { state := 2, k0 := 3, k1 := 5, count := 4 }, by decide +kernel⟩,
    ⟨tC [8, 1], tS, by decide +kernel⟩,
    ⟨tC [4, 1], { tS with hub.dig.older := some { num := 4, k0 := 3, k1 := 5, ctx := false }, hub.dig.retire := 3 }, { num := 4, k0 := 3, k1 := 5, ctx := false }, by decide +kernel⟩,
    ⟨tC [4, 9], { tS with hub.dig.older := some { num := 4, k0 := 3, k1 := 5, ctx := false }, hub.dig.retire := 3 }, { num := 4, k0 := 3, k1 := 5, ctx := false }, by decide +kernel⟩,
    ⟨tC [4], { tS with hub.dig.older := some { num := 4, k0 := 3, k1 := 5, ctx := false }, hub.dig.retire := 3 }, by decide +kernel⟩,
    ⟨tC [0], { tS with hub.dig.older := some { num := 4, k0 := 3, k1 := 5, ctx := false, ingress := [(2 * 64 + 3, { d0 := 3, d1 := 5, count := 7, state := 1 })] }, hub.jobs.table := [(0, { group := 1, root := 0, combiners := [], dies := [{ die := 0, rep := 0, shadow := false }] })] }, { num := 4, k0 := 3, k1 := 5, ctx := false, ingress := [(2 * 64 + 3, { d0 := 3, d1 := 5, count := 7, state := 1 })] }, { group := 1, root := 0, combiners := [], dies := [{ die := 0, rep := 0, shadow := false }] }, by decide +kernel⟩,
    ⟨{ tS with hub.dig.older := some { num := 4, k0 := 3, k1 := 5, ctx := false }, hub.dig.retire := 3, hub.time.tb := BitVec.ofNat 96 (2 ^ 32 * 10 ^ 11) }, { num := 4, k0 := 3, k1 := 5, ctx := false }, by decide +kernel⟩,
    ⟨{ tS with hub.dig.buf0 := some { epoch := 4, no := 0, seq := 1, group := 1, deadline := 5, pairs := [] } }, { epoch := 4, no := 0, seq := 1, group := 1, deadline := 5, pairs := [] }, by decide +kernel⟩,
    ⟨{ tS with hub.dig.cfg.frozen := [{ layer := 1, slice := 2, fmt := 6, base := 0, addr := 0, len := 4 }] }, 0, { layer := 1, slice := 2, fmt := 6, base := 0, addr := 0, len := 4 }, by decide +kernel⟩,
    ⟨{ tS with hub.dig.dbgK0 := 0x8000000000000000, hub.dig.cfg.frozen := [{ layer := 1, slice := 2, fmt := 6, base := 0, addr := 0, len := 4 }], hub.dig.frozenRef := [(66, { d0 := 34359738368, d1 := 34359738368 })], hub.mem.ranges := [{ r := { base := 0, size := 4096, tier := .faster, block := true, c0 := 0, n := 4, localBase := 0, masks := [] } }] }, 0, { layer := 1, slice := 2, fmt := 6, base := 0, addr := 0, len := 4 }, { d0 := 34359738368, d1 := 34359738368 }, [0, 0, 0, 0], (34359738368, 34359738368), by decide +kernel⟩,
    ⟨{ tS with hub.dig.dbgK0 := 0x8000000000000000, hub.dig.cfg.frozen := [{ layer := 1, slice := 2, fmt := 6, base := 0, addr := 0, len := 4 }], hub.dig.frozenRef := [(66, { d0 := 3, d1 := 5, count := 7, state := 1 })], hub.mem.ranges := [{ r := { base := 0, size := 4096, tier := .faster, block := true, c0 := 0, n := 4, localBase := 0, masks := [] } }] }, 0, { layer := 1, slice := 2, fmt := 6, base := 0, addr := 0, len := 4 }, { d0 := 3, d1 := 5, count := 7, state := 1 }, [0, 0, 0, 0], (34359738368, 34359738368), by decide +kernel⟩⟩

/-- The hypotheses of DmaRegisters are met. -/
theorem meets_DmaRegisters :
    (∃ (s : State) (ch : BitVec 6), portOn s.hub = true ∧ (imgOf s.hub).blockCh ≤ ch.toNat ∧
    (∀ o ∈ [0, 0x18, 0x28], s.hub.regs.cmdWrote.contains (6, 0x1000 + 0x40 * ch.toNat + o) = false) ∧ (dmaCh s.hub ch.toNat).rsize ≠ 0 ∧
    (dmaCh s.hub ch.toNat).cqsize ≠ 0) ∧
    (∃ (s : State) (ch : BitVec 6), portOn s.hub = true ∧ (imgOf s.hub).blockCh ≤ ch.toNat ∧
    (∀ o ∈ [0, 0x18, 0x28], s.hub.regs.cmdWrote.contains (6, 0x1000 + 0x40 * ch.toNat + o) = false) ∧ (dmaCh s.hub ch.toNat).rsize = 0) ∧
    (∃ (s : State) (ch : BitVec 6), portOn s.hub = true ∧ (imgOf s.hub).blockCh ≤ ch.toNat ∧
    (∀ o ∈ [0, 0x18, 0x28], s.hub.regs.cmdWrote.contains (6, 0x1000 + 0x40 * ch.toNat + o) = false) ∧ (dmaCh s.hub ch.toNat).enable = true) ∧
    (∃ (s : State) (ch : BitVec 6), portOn s.hub = true ∧ (imgOf s.hub).blockCh ≤ ch.toNat ∧
    (∀ o ∈ [0, 0x18, 0x28], s.hub.regs.cmdWrote.contains (6, 0x1000 + 0x40 * ch.toNat + o) = false) ∧ (dmaCh s.hub ch.toNat).state ≠ 2 ∧
    (dmaCh s.hub ch.toNat).state ≠ 3 ∧ dmaBusy (dmaCh s.hub ch.toNat) = true) ∧
    (∃ (s : State) (ch : BitVec 6), portOn s.hub = true ∧ (imgOf s.hub).blockCh ≤ ch.toNat ∧
    (∀ o ∈ [0, 0x18, 0x28], s.hub.regs.cmdWrote.contains (6, 0x1000 + 0x40 * ch.toNat + o) = false) ∧
    ((dmaCh s.hub ch.toNat).state = 2 ∨ (dmaCh s.hub ch.toNat).state = 3) ∧ (dmaCh s.hub ch.toNat).stopReq = false) ∧
    (∃ (s : State) (ch : BitVec 6), portOn s.hub = true ∧ (imgOf s.hub).blockCh ≤ ch.toNat ∧
    (∀ o ∈ [0, 0x18, 0x28], s.hub.regs.cmdWrote.contains (6, 0x1000 + 0x40 * ch.toNat + o) = false) ∧ (dmaCh s.hub ch.toNat).enable = true ∧
    (dmaCh s.hub ch.toNat).reqen = true ∧ (dmaCh s.hub ch.toNat).pend < 65535) ∧
    (∃ (s : State) (ch : BitVec 6) (tail : BitVec 17), portOn s.hub = true ∧ (imgOf s.hub).blockCh ≤ ch.toNat ∧
    (∀ o ∈ [0, 0x18, 0x28], s.hub.regs.cmdWrote.contains (6, 0x1000 + 0x40 * ch.toNat + o) = false) ∧
    ahead 17 tail.toNat (dmaCh s.hub ch.toNat).head ≤ ringSize (dmaCh s.hub ch.toNat)) ∧
    (∃ (s : State) (ch : BitVec 6) (tail : BitVec 17), portOn s.hub = true ∧ (imgOf s.hub).blockCh ≤ ch.toNat ∧
    (∀ o ∈ [0, 0x18, 0x28], s.hub.regs.cmdWrote.contains (6, 0x1000 + 0x40 * ch.toNat + o) = false) ∧
    ringSize (dmaCh s.hub ch.toNat) < ahead 17 tail.toNat (dmaCh s.hub ch.toNat).head) ∧
    (∃ (s : State) (ch : BitVec 6), portOn s.hub = true ∧ (imgOf s.hub).blockCh ≤ ch.toNat ∧
    (∀ o ∈ [0, 0x18, 0x28], s.hub.regs.cmdWrote.contains (6, 0x1000 + 0x40 * ch.toNat + o) = false)) ∧
    (∃ (s : State), portOn s.hub = true ∧ s.hub.regs.cmdWrote.contains (6, 0x108) = false) ∧
    (∃ (s : State), portOn s.hub = true ∧ s.hub.regs.cmdWrote.contains (6, 8) = false) :=
  ⟨⟨{ tS with hub.dma.ch := [(40, { rsize := 4, cqsize := 4 })] }, 40, by decide +kernel⟩,
    ⟨tS, 40, by decide +kernel⟩,
    ⟨{ tS with hub.dma.ch := [(40, { enable := true })] }, 40, by decide +kernel⟩,
    ⟨{ tS with hub.dma.ch := [(40, { fetching := true })] }, 40, by decide +kernel⟩,
    ⟨{ tS with hub.dma.ch := [(40, { state := 2 })] }, 40, by decide +kernel⟩,
    ⟨{ tS with hub.dma.ch := [(40, { enable := true, reqen := true })] }, 40, by decide +kernel⟩,
    ⟨{ tS with hub.dma.ch := [(40, { rsize := 4 })] }, 40, 16, by decide +kernel⟩,
    ⟨{ tS with hub.dma.ch := [(40, { rsize := 4 })] }, 40, 17, by decide +kernel⟩,
    ⟨{ tS with hub.dma.ch := [(40, { rsize := 4 })] }, 40, by decide +kernel⟩,
    ⟨{ tS with hub.dma.ch := [(40, { rsize := 4 })] }, by decide +kernel⟩,
    ⟨{ tS with hub.dma.ch := [(40, { rsize := 4 })] }, by decide +kernel⟩⟩

/-- The hypotheses of MemoryEvents are met. -/
theorem meets_MemoryEvents :
    (∃ (s : State) (ch : BitVec 6), dmaRuns s.hub = true ∧ (dmaCh s.hub ch.toNat).enable = true ∧ (dmaCh s.hub ch.toNat).reqen = true ∧
    (dmaCh s.hub ch.toNat).burst = false ∧ 0 < (dmaCh s.hub ch.toNat).pend ∧ 0 < readyDescs (dmaCh s.hub ch.toNat) ∧
    (dmaCh s.hub ch.toNat).stopReq = false ∧ (dmaCh s.hub ch.toNat).state ≠ 2 ∧ (dmaCh s.hub ch.toNat).state ≠ 3 ∧
    dmaBusy (dmaCh s.hub ch.toNat) = false) ∧
    (∃ (s : State) (ch : BitVec 6) (d : Desc), dmaRuns s.hub = true ∧ (dmaCh s.hub ch.toNat).cur = some d ∧
    linesDone s.hub ch.toNat (dmaCh s.hub ch.toNat) = true ∧ cqRoom (dmaCh s.hub ch.toNat) = true ∧ d.align = false ∧ d.len ≠ 0 ∧
    (dmaCh s.hub ch.toNat).fail = none) ∧
    (∃ (s : State) (ch : BitVec 6), dmaRuns s.hub = true ∧ (dmaCh s.hub ch.toNat).fetchBad = true ∧ cqRoom (dmaCh s.hub ch.toNat) = true ∧
    (dmaCh s.hub ch.toNat).stopReq = false) ∧
    (∃ (s : State) (att : BitVec 5) (tag : Byte) (q : MemReq) (c : Nat), memOn s.hub = true ∧ Tab.find s.hub.mem.out (reqAt att tag) = some q ∧
    q.write = false ∧ q.timedOut = false ∧ q.client = .dmaFetch c) ∧
    (∃ (s : State) (att : BitVec 5) (tag : Byte) (q : MemReq) (c : Nat), memOn s.hub = true ∧ Tab.find s.hub.mem.out (reqAt att tag) = some q ∧
    q.write = false ∧ q.timedOut = false ∧ q.client = .dmaRead c 0) ∧
    (∃ (s : State) (att : BitVec 5) (tag : Byte) (q : MemReq) (c : Nat), s.wf = true ∧ memOn s.hub = true ∧
    Tab.find s.hub.mem.out (reqAt att tag) = some q ∧ q.write = true ∧ q.timedOut = false ∧ q.client = .dmaRecord c true) ∧
    (∃ (s : State) (att : BitVec 5) (tag : Byte) (q : MemReq) (c : Nat) (off : Nat) (b : Byte), s.wf = true ∧ memOn s.hub = true ∧
    Tab.find s.hub.mem.out (reqAt att tag) = some q ∧ q.write = true ∧ q.timedOut = false ∧ q.client = .dmaWrite c off ∧ q.data = [b] ∧
    s.hub.mem.waitq = [] ∧ s.hub.mem.errq = []) ∧
    (∃ (s : State) (att : BitVec 5) (tag : Byte) (q : MemReq), memOn s.hub = true ∧ Tab.find s.hub.mem.out (reqAt att tag) = some q ∧ q.timedOut = false ∧
    q.deadline ≤ nowNs s.hub ∧ s.env.beaten (evMemory att tag) q.deadline (nowNs s.hub) = false) ∧
    (∃ (s : State) (r : BitVec 3) (m : MapRange) (a : Word), mapRange s.hub r.toNat = some m ∧ m.wanted = some a ∧ serving s.hub = true ∧
    s.hub.casc.windowTb = nowNs s.hub ∧ s.hub.mem.migrating = none ∧ m.r.block = true) ∧
    (∃ (s : State) (r : Nat) (m : MapRange) (o : List (BitVec 58)), s.hub.mem.migrating = some r ∧ mapRange s.hub r = some m ∧ m.old = some o ∧
    memOn s.hub = true ∧ s.hub.mem.group = true ∧ s.hub.mem.paused = none ∧ clientBusy s.hub (fun c => c == .migration) = false ∧
    groupBusy s.hub r m = false ∧ m.pointer + 1 < groupsOf m) ∧
    (∃ (s : State) (r : Nat) (m : MapRange) (o : List (BitVec 58)), s.hub.mem.migrating = some r ∧ mapRange s.hub r = some m ∧ m.old = some o ∧
    memOn s.hub = true ∧ s.hub.mem.group = true ∧ s.hub.mem.paused = none ∧ clientBusy s.hub (fun c => c == .migration) = false ∧
    groupBusy s.hub r m = false ∧ groupsOf m ≤ m.pointer + 1) ∧
    (∃ (s : State) (r : Nat) (m : MapRange) (tb : Nat), s.hub.mem.migrating = some r ∧ s.hub.mem.paused = some tb ∧ alive s.hub = true ∧
    tb ≤ nowNs s.hub ∧ mapRange s.hub r = some m) :=
  ⟨⟨{ tS with hub.dma.ch := [(40, { enable := true, reqen := true, rsize := 4, cqsize := 4, pend := 2, tail := 3 })] }, 40, by decide +kernel⟩,
    ⟨{ tS with hub.dma.ch := [(40, { enable := true, cqsize := 4, cur := some { src := 0, dst := 0, len := 64, tag := 1, chain := false, irq := false, barrier := false, align := false, user := 0 }, issued := 64 })] }, 40, { src := 0, dst := 0, len := 64, tag := 1, chain := false, irq := false, barrier := false, align := false, user := 0 }, by decide +kernel⟩,
    ⟨{ tS with hub.dma.ch := [(40, { cqsize := 4, fetchBad := true })] }, 40, by decide +kernel⟩,
    ⟨{ tS with hub.mem.out := [(0x105, { line := 4, write := false, client := .dmaFetch 40, range := 0, deadline := 7, addr := 256, data := [] })] }, 1, 5, { line := 4, write := false, client := .dmaFetch 40, range := 0, deadline := 7, addr := 256, data := [] }, 40, by decide +kernel⟩,
    ⟨{ tS with hub.mem.out := [(0x105, { line := 4, write := false, client := .dmaRead 40 0, range := 0, deadline := 7, addr := 256, data := [] })] }, 1, 5, { line := 4, write := false, client := .dmaRead 40 0, range := 0, deadline := 7, addr := 256, data := [] }, 40, by decide +kernel⟩,
    ⟨{ tS with hub.mem.out := [(0x105, { line := 4, write := true, client := .dmaRecord 40 true, range := 0, deadline := 7, addr := 256, data := [] })] }, 1, 5, { line := 4, write := true, client := .dmaRecord 40 true, range := 0, deadline := 7, addr := 256, data := [] }, 40, by decide +kernel⟩,
    ⟨{ tS with hub.mem.out := [(0x105, { line := 4, write := true, client := .dmaWrite 40 0, range := 0, deadline := 7, addr := 256, data := [7] })] }, 1, 5, { line := 4, write := true, client := .dmaWrite 40 0, range := 0, deadline := 7, addr := 256, data := [7] }, 40, 0, 7, by decide +kernel⟩,
    ⟨{ tS with hub.mem.out := [(0x105, { line := 4, write := true, client := .dmaWrite 40 0, range := 0, deadline := 7, addr := 256, data := [] })] }, 1, 5, { line := 4, write := true, client := .dmaWrite 40 0, range := 0, deadline := 7, addr := 256, data := [] }, by decide +kernel⟩,
    ⟨{ tS with hub.mem.ranges := [{ r := { base := 0, size := 4096, tier := .faster, block := true, c0 := 0, n := 4, localBase := 0, masks := [] }, wanted := some 3 }], hub.casc.windowTb := 1000 }, 0, { r := { base := 0, size := 4096, tier := .faster, block := true, c0 := 0, n := 4, localBase := 0, masks := [] }, wanted := some 3 }, 3, by decide +kernel⟩,
    ⟨{ tS with hub.mem.ranges := [{ r := { base := 0, size := 4096, tier := .faster, block := true, c0 := 0, n := 4, localBase := 0, masks := [] }, old := some [] }], hub.mem.migrating := some 0, hub.mem.group := true }, 0, { r := { base := 0, size := 4096, tier := .faster, block := true, c0 := 0, n := 4, localBase := 0, masks := [] }, old := some [] }, [], by decide +kernel⟩,
    ⟨{ tS with hub.mem.ranges := [{ r := { base := 0, size := 4096, tier := .faster, block := true, c0 := 0, n := 4, localBase := 0, masks := [] }, old := some [], pointer := 15 }], hub.mem.migrating := some 0, hub.mem.group := true }, 0, { r := { base := 0, size := 4096, tier := .faster, block := true, c0 := 0, n := 4, localBase := 0, masks := [] }, old := some [], pointer := 15 }, [], by decide +kernel⟩,
    ⟨{ tS with hub.mem.ranges := [{ r := { base := 0, size := 4096, tier := .faster, block := true, c0 := 0, n := 4, localBase := 0, masks := [] } }], hub.mem.migrating := some 0, hub.mem.paused := some 5 }, 0, { r := { base := 0, size := 4096, tier := .faster, block := true, c0 := 0, n := 4, localBase := 0, masks := [] } }, 5, by decide +kernel⟩⟩

/-- The hypotheses of ManagementRegisters are met. -/
theorem meets_ManagementRegisters :
    (∃ (s : State) (c : BitVec 2) (p : Part) (v : DWord), portOn s.hub = true ∧ s.env.tray = true ∧
    s.hub.regs.cmdWrote.contains (3, 0x40 + 8 * c.toNat) = false ∧ s.hub.regs.cmdWrote.contains (3, 0x60 + 8 * c.toNat) = false ∧
    bitsOf (mergePart p (getAt s.hub.mgt.shapers c.toNat 0) v &&& 0xFFFF00003FFF).toNat 13 0 ≤ 10000 ∧
    64 ≤ bitsOf (mergePart p (getAt s.hub.mgt.shapers c.toNat 0) v &&& 0xFFFF00003FFF).toNat 47 32) ∧
    (∃ (s : State) (c : BitVec 2) (p : Part) (v : DWord), portOn s.hub = true ∧ s.env.tray = true ∧
    s.hub.regs.cmdWrote.contains (3, 0x40 + 8 * c.toNat) = false ∧ s.hub.regs.cmdWrote.contains (3, 0x60 + 8 * c.toNat) = false ∧
    10000 < bitsOf (mergePart p (getAt s.hub.mgt.shapers c.toNat 0) v &&& 0xFFFF00003FFF).toNat 13 0) ∧
    (∃ (s : State) (c : BitVec 2) (p : Part) (v : DWord), portOn s.hub = true ∧ s.env.tray = true ∧
    s.hub.regs.cmdWrote.contains (3, 0x40 + 8 * c.toNat) = false ∧ s.hub.regs.cmdWrote.contains (3, 0x60 + 8 * c.toNat) = false ∧
    bitsOf (mergePart p (getAt s.hub.mgt.meters c.toNat {}).cfg v).toNat 15 0 ≤ bitsOf (mergePart p (getAt s.hub.mgt.meters c.toNat {}).cfg v).toNat 31 16 ∧
    64 ≤ bitsOf (mergePart p (getAt s.hub.mgt.meters c.toNat {}).cfg v).toNat 47 32 ∧
    64 ≤ bitsOf (mergePart p (getAt s.hub.mgt.meters c.toNat {}).cfg v).toNat 63 48) ∧
    (∃ (s : State) (c : BitVec 2) (p : Part) (v : DWord), portOn s.hub = true ∧ s.env.tray = true ∧
    s.hub.regs.cmdWrote.contains (3, 0x40 + 8 * c.toNat) = false ∧ s.hub.regs.cmdWrote.contains (3, 0x60 + 8 * c.toNat) = false ∧
    bitsOf (mergePart p (getAt s.hub.mgt.meters c.toNat {}).cfg v).toNat 31 16 < bitsOf (mergePart p (getAt s.hub.mgt.meters c.toNat {}).cfg v).toNat 15 0) ∧
    (∃ (s : State), portOn s.hub = true ∧ s.env.tray = false) ∧
    (∃ (s : State), portOn s.hub = true ∧ s.env.tray = true ∧ s.hub.regs.cmdWrote.contains (3, 0x20) = false ∧ adminOk s.hub.mgt = true) ∧
    (∃ (s : State), portOn s.hub = true ∧ s.env.tray = true ∧ s.hub.regs.cmdWrote.contains (3, 0x20) = false ∧ adminOk s.hub.mgt = false) ∧
    (∃ (s : State) (b : Bool) (v : DWord), portOn s.hub = true ∧ s.env.tray = true ∧ s.hub.regs.cmdWrote.contains (3, if b then 0x10 else 8) = false ∧
    segcfgOk .low (mergePart .low (seg s.hub b).cfg v &&& 0xFFFFFFFFFFFFF) = true) ∧
    (∃ (s : State) (b : Bool) (v : DWord), portOn s.hub = true ∧ s.env.tray = true ∧ s.hub.regs.cmdWrote.contains (3, if b then 0x10 else 8) = false ∧
    segcfgOk .whole (v &&& 0xFFFFFFFFFFFFF) = true ∧ (v &&& 0xFFFFFFFFFFFFF).getLsbD 51 = false) ∧
    (∃ (s : State) (b : Bool) (v : DWord), portOn s.hub = true ∧ s.env.tray = true ∧ s.hub.regs.cmdWrote.contains (3, if b then 0x10 else 8) = false ∧
    segcfgOk .whole (v &&& 0xFFFFFFFFFFFFF) = true ∧ (v &&& 0xFFFFFFFFFFFFF).getLsbD 51 = true ∧ (seg s.hub b).state = 0) ∧
    (∃ (s : State) (b : Bool) (v : DWord), portOn s.hub = true ∧ s.env.tray = true ∧ s.hub.regs.cmdWrote.contains (3, if b then 0x10 else 8) = false ∧
    segcfgOk .whole (v &&& 0xFFFFFFFFFFFFF) = false) ∧
    (∃ (s : State), mgtRuns s.env s.hub = true ∧ s.hub.mgt.oper.entries ≠ []) ∧
    (∃ (s : State) (g : Gates) (tb : Nat), mgtRuns s.env s.hub = true ∧ s.hub.mgt.pending = some (g, tb) ∧ tb ≤ nowNs s.hub) :=
  ⟨⟨tT, 2, .whole, 0x100000002710, by decide +kernel⟩,
    ⟨tT, 2, .whole, 0x100000002711, by decide +kernel⟩,
    ⟨tT, 2, .whole, 0x0040004003E803E8, by decide +kernel⟩,
    ⟨tT, 2, .whole, 0x0040004003E803E9, by decide +kernel⟩,
    ⟨tS, by decide +kernel⟩,
    ⟨tT, by decide +kernel⟩,
    ⟨{ tT with hub.mgt.gclCycle := 5 }, by decide +kernel⟩,
    ⟨tT, true, 0x20800, by decide +kernel⟩,
    ⟨{ tT with hub.mgt.b.state := 1 }, true, 0x1480002008FF, by decide +kernel⟩,
    ⟨tT, true, 0x81480002008FF, by decide +kernel⟩,
    ⟨tT, true, 0, by decide +kernel⟩,
    ⟨{ tT with hub.mgt.oper.entries := [(1, 500)] }, by decide +kernel⟩,
    ⟨{ tT with hub.mgt.pending := some ({}, 5) }, {}, 5, by decide +kernel⟩⟩

/-- The hypotheses of ManagementSegments are met. -/
theorem meets_ManagementSegments :
    (∃ (s : State) (b : Bool), mgtRuns s.env s.hub = true ∧ segOn (seg s.hub b) = true) ∧
    (∃ (s : State) (b : Bool), mgtRuns s.env s.hub = true ∧ segOn (seg s.hub b) = true ∧ (seg s.hub b).state = 2) ∧
    (∃ (s : State) (b : Bool), mgtRuns s.env s.hub = true ∧ segUp s.hub b = true ∧ heard s.hub b = false ∧
    s.env.beaten (evFrame b) (silenceDue s.hub b) (nowNs s.hub) = false) ∧
    (∃ (s : State) (b : Bool), mgtRuns s.env s.hub = true ∧ (seg s.hub b).state = 1 ∧ (seg s.hub b).link = true ∧ heard s.hub b = true ∧
    (seg s.hub b).conflict = false ∧ (seg s.hub b).holdoff = none) ∧
    (∃ (s : State) (b : Bool) (x : Nat), mgtRuns s.env s.hub = true ∧ (seg s.hub b).holdoff = some x ∧ x ≤ nowNs s.hub) ∧
    (∃ (s : State), mgtRuns s.env s.hub = true ∧ s.hub.mgt.portcfg.getLsbD 33 = true ∧ s.hub.mgt.active ≠ preferred s.hub ∧
    segUp s.hub (preferred s.hub) = true ∧ (seg s.hub (preferred s.hub)).upSince + 10000000000 ≤ nowNs s.hub) ∧
    (∃ (s : State) (b : Bool), mgtRuns s.env s.hub = true ∧ segOn (seg s.hub b) = true ∧ follower (seg s.hub b) = true ∧ (seg s.hub b).holdoff = none) ∧
    (∃ (s : State) (b : Bool), mgtRuns s.env s.hub = true ∧ segOn (seg s.hub b) = true ∧ follower (seg s.hub b) = true ∧ (seg s.hub b).plca = true ∧
    (seg s.hub b).lastBeacon + 400000 ≤ nowNs s.hub ∧ s.env.beaten (evBeacon b) ((seg s.hub b).lastBeacon + 400000) (nowNs s.hub) = false) ∧
    (∃ (s : State) (b : Bool), mgtRuns s.env s.hub = true ∧ segOn (seg s.hub b) = true ∧ (seg s.hub b).plca = true ∧
    ((seg s.hub b).collisions.filter (fun t => decide (nowNs s.hub < t + 1000000000))).length < 15) ∧
    (∃ (s : State) (b : Bool) (c : Nat) (f : Frame) (l : _), mgtRuns s.env s.hub = true ∧ (seg s.hub b).plca = false ∧
    (seg s.hub b).offered = some (c, f, l) ∧ (seg s.hub b).attempts < 15) ∧
    (∃ (s : State) (b : Bool) (c : Nat) (f : Frame) (l : _), mgtRuns s.env s.hub = true ∧ (seg s.hub b).plca = false ∧
    (seg s.hub b).offered = some (c, f, l) ∧ 15 ≤ (seg s.hub b).attempts ∧ c = 3) ∧
    (∃ (s : State) (b : Bool) (from_ : BitVec 128), mgtRuns s.env s.hub = true ∧ segOn (seg s.hub b) = true ∧ (seg s.hub b).holdoff = none ∧ from_ ≠ 0 ∧
    (seg s.hub b).conflict = false ∧ (seg s.hub b).dad = none) ∧
    (∃ (s : State) (b : Bool) (x : Nat), mgtRuns s.env s.hub = true ∧ segOn (seg s.hub b) = true ∧ (seg s.hub b).holdoff = none ∧
    (seg s.hub b).state = 2 ∧ (seg s.hub b).dad = some x ∧ nowNs s.hub ≤ x) ∧
    (∃ (s : State) (b : Bool) (x : Nat), mgtRuns s.env s.hub = true ∧ (seg s.hub b).dad = some x ∧ x ≤ nowNs s.hub ∧
    s.env.beaten (evNeighbour b) x (nowNs s.hub) = false) ∧
    (∃ (s : State) (b : Bool) (f : Frame) (l : List Frame), mgtRuns s.env s.hub = true ∧ segUp s.hub b = true ∧ (seg s.hub b).offered = none ∧
    getAt (seg s.hub b).queues 0 [] = f :: l ∧ offerOf s.hub (seg s.hub b) 0 f = .yes) ∧
    (∃ (s : State) (b : Bool) (c : Nat) (f : Frame) (l : Bool), s.env.tray = true ∧ portOn s.hub = true ∧ (seg s.hub b).offered = some (c, f, l)) :=
  ⟨⟨tT, true, by decide +kernel⟩,
    ⟨{ tT with hub.mgt.b := { state := 2 } }, true, by decide +kernel⟩,
    ⟨{ tT with hub.mgt.b := { state := 2 } }, true, by decide +kernel⟩,
    ⟨{ tT with hub.mgt.b := { state := 1, link := true, lastFrame := some 900 } }, true, by decide +kernel⟩,
    ⟨{ tT with hub.mgt.b := { holdoff := some 5 } }, true, 5, by decide +kernel⟩,
    ⟨{ tT with hub.mgt.portcfg := 0x200000000, hub.mgt.active := true, hub.mgt.a := { state := 2 }, hub.time.tb := BitVec.ofNat 96 (2 ^ 32 * 10 ^ 11) }, by decide +kernel⟩,
    ⟨{ tT with hub.mgt.b := { cfg := 0x8148000200807 } }, true, by decide +kernel⟩,
    ⟨{ tT with hub.time.tb := BitVec.ofNat 96 (2 ^ 32 * 10 ^ 6), hub.mgt.b := { cfg := 0x8148000200807, plca := true } }, true, by decide +kernel⟩,
    ⟨{ tT with hub.mgt.b := { plca := true } }, true, by decide +kernel⟩,
    ⟨{ tT with hub.mgt.b := { offered := some (1, { bytes := 100 }, false) } }, true, 1, { bytes := 100 }, false, by decide +kernel⟩,
    ⟨{ tT with hub.mgt.b := { offered := some (3, { bytes := 100 }, false), attempts := 15 } }, true, 3, { bytes := 100 }, false, by decide +kernel⟩,
    ⟨tT, true, 7, by decide +kernel⟩,
    ⟨{ tT with hub.mgt.b := { state := 2, dad := some 2000 } }, true, 2000, by decide +kernel⟩,
    ⟨{ tT with hub.mgt.b := { state := 2, dad := some 5 } }, true, 5, by decide +kernel⟩,
    ⟨{ tT with hub.mgt.b := { state := 2, queues := [[{ bytes := 100 }], [], [], []] } }, true, { bytes := 100 }, [], by decide +kernel, by decide +kernel, by decide +kernel, by decide +kernel, rfl⟩,
    ⟨{ tT with hub.mgt.b := { offered := some (1, { bytes := 100 }, false) } }, true, 1, { bytes := 100 }, false, by decide +kernel⟩⟩

/-- The hypotheses of ManagementTraffic are met. -/
theorem meets_ManagementTraffic :
    (∃ (s : State) (b : Bool) (f : EthFrame), mgtRuns s.env s.hub = true ∧ segOn (seg s.hub b) = true ∧ (seg s.hub b).holdoff = none ∧ f.fcsOk = false) ∧
    (∃ (s : State) (b : Bool) (f : EthFrame), mgtRuns s.env s.hub = true ∧ segOn (seg s.hub b) = true ∧ (seg s.hub b).holdoff = none ∧
    classify s.hub.mgt f = .stranger ∧ f.fcsOk = true) ∧
    (∃ (s : State) (b : Bool) (f : EthFrame) (c : _), mgtRuns s.env s.hub = true ∧ segOn (seg s.hub b) = true ∧ (seg s.hub b).holdoff = none ∧
    classify s.hub.mgt f = .pass c ∧ f.fcsOk = true ∧ f.etherType ≠ 0x88F7 ∧ s.hub.sys.st ≠ .config ∧
    bitsOf (getAt s.hub.mgt.meters c {}).cfg.toNat 31 16 = 0 ∧ ingressFill s.hub.mgt + f.bytes ≤ 14336) ∧
    (∃ (s : State) (b : Bool) (a : Announce), mgtRuns s.env s.hub = true ∧ segUp s.hub b = true ∧ 0 < a.interval) ∧
    (∃ (s : State) (m : Master), mgtRuns s.env s.hub = true ∧ s.hub.mgt.master = some m ∧
    (((s.hub.mgt.announces.find? (fun a => decide (a.identity = m.identity) && decide (a.seg = m.seg))).map Master.last).getD m.last) + 3 * m.interval ≤ nowNs s.hub ∧
    s.env.beaten evAnnounce ((((s.hub.mgt.announces.find? (fun a => decide (a.identity = m.identity) && decide (a.seg = m.seg))).map Master.last).getD m.last) + 3 * m.interval) (nowNs s.hub) = false) ∧
    (∃ (s : State) (b : Bool) (i : BitVec 80), mgtRuns s.env s.hub = true ∧ segUp s.hub b = true ∧ isMaster s.hub b i = true) ∧
    (∃ (s : State) (b : Bool) (i : BitVec 80), mgtRuns s.env s.hub = true ∧ segUp s.hub b = true ∧ isMaster s.hub b i = false) ∧
    (∃ (s : State) (b : Bool), mgtRuns s.env s.hub = true ∧ segUp s.hub b = true ∧ (seg s.hub b).lastPd + s.hub.mgt.pdelayInt ≤ nowNs s.hub) ∧
    (∃ (s : State) (b : Bool) (i : BitVec 80), mgtRuns s.env s.hub = true ∧ segUp s.hub b = true ∧ i ≠ 0) ∧
    (∃ (s : State) (b : Bool) (i : BitVec 80) (t1 : Nat), mgtRuns s.env s.hub = true ∧ segUp s.hub b = true ∧ isMaster s.hub b i = true ∧
    (seg s.hub b).pdelayT1 = some t1) ∧
    (∃ (s : State) (b : Bool) (i : BitVec 80), mgtRuns s.env s.hub = true ∧ segUp s.hub b = true ∧ isMaster s.hub b i = false) :=
  ⟨⟨tT, true, { fcsOk := false }, by decide +kernel⟩,
    ⟨tT, true, { dstOk := false }, by decide +kernel, by decide +kernel, by decide +kernel, rfl, by decide +kernel⟩,
    ⟨tT, true, { body := .ndp false true }, 2, by decide +kernel, by decide +kernel, by decide +kernel, rfl, by decide +kernel, by decide +kernel, by decide +kernel, by decide +kernel, by decide +kernel⟩,
    ⟨{ tT with hub.mgt.b := { state := 2 } }, true, { vector := 9, identity := 5, interval := 100 }, by decide +kernel⟩,
    ⟨{ tT with hub.mgt.b := {  }, hub.mgt.master := some { seg := true, vector := 9, identity := 5, interval := 100, last := 0 } }, { seg := true, vector := 9, identity := 5, interval := 100, last := 0 }, by decide +kernel⟩,
    ⟨{ tT with hub.mgt.b := { state := 2 }, hub.mgt.master := some { seg := true, vector := 9, identity := 5, interval := 100, last := 0 } }, true, 5, by decide +kernel⟩,
    ⟨{ tT with hub.mgt.b := { state := 2 }, hub.mgt.master := some { seg := true, vector := 9, identity := 5, interval := 100, last := 0 } }, true, 6, by decide +kernel⟩,
    ⟨{ tT with hub.mgt.b := { state := 2 }, hub.time.tb := BitVec.ofNat 96 (2 ^ 32 * 10 ^ 10) }, true, by decide +kernel⟩,
    ⟨{ tT with hub.mgt.b := { state := 2 }, hub.time.tb := BitVec.ofNat 96 (2 ^ 32 * 10 ^ 10) }, true, 3, by decide +kernel⟩,
    ⟨{ tT with hub.mgt.b := { state := 2, pdelayT1 := some 5 }, hub.mgt.master := some { seg := true, vector := 9, identity := 5, interval := 100, last := 0 } }, true, 5, 5, by decide +kernel⟩,
    ⟨{ tT with hub.mgt.b := { state := 2, pdelayT1 := some 5 }, hub.mgt.master := some { seg := true, vector := 9, identity := 5, interval := 100, last := 0 } }, true, 6, by decide +kernel⟩⟩

/-- The hypotheses of TraceCommands are met. -/
theorem meets_TraceCommands :
    (∃ (c : Cmd) (s : State) (v : _), passes opTrcCfg c s = true ∧ (ctxOf c s).settings 1 trcSetting (trcWanted s.hub) = .inr v ∧
    v.cores.all s.env.present = false) ∧
    (∃ (c : Cmd) (s : State) (v : _), passes opTrcCfg c s = true ∧ (ctxOf c s).settings 1 trcSetting (trcWanted s.hub) = .inr v ∧
    v.cores.all s.env.present = true ∧ newCapture s.hub.trc.set v = false ∧ s.hub.trc.cur ≠ []) ∧
    (∃ (c : Cmd) (s : State) (v : _), passes opTrcCfg c s = true ∧ (ctxOf c s).settings 1 trcSetting (trcWanted s.hub) = .inr v ∧
    v.cores.all s.env.present = true ∧ newCapture s.hub.trc.set v = false ∧ s.hub.trc.cur = []) ∧
    (∃ (c : Cmd) (s : State) (v : _), passes opTrcCfg c s = true ∧ (ctxOf c s).settings 1 trcSetting (trcWanted s.hub) = .inr v ∧
    v.cores.all s.env.present = true ∧ newCapture s.hub.trc.set v = true) ∧
    (∃ (c : Cmd) (s : State) (v : Nid), passes opNidCfg c s = true ∧ (ctxOf c s).settings 1 nidSetting s.hub.nid = .inr v) ∧
    (∃ (c : Cmd) (s : State), passes opTrigArm (withOp 0 c) s = true ∧ (sinkFrozen s.hub.trc || s.hub.trc.posting) = false) ∧
    (∃ (c : Cmd) (s : State), passes opTrigArm (withOp 0 c) s = true ∧ (sinkFrozen s.hub.trc || s.hub.trc.posting) = true) ∧
    (∃ (c : Cmd) (s : State), passes opTrigDisarm (withOp 1 c) s = true) ∧
    (∃ (c : Cmd) (s : State), passes opTrigFire (withOp 2 c) s = true ∧ (s.hub.sys.st = .serving ∨ s.hub.sys.st = .drowse) ∧ s.hub.trc.fired = false ∧
    s.hub.trc.armed = true ∧ s.hub.trc.posting = false ∧ sinkFrozen s.hub.trc = false) ∧
    (∃ (c : Cmd) (s : State), passes opTrigFire (withOp 2 c) s = true ∧ (s.hub.sys.st = .serving ∨ s.hub.sys.st = .drowse) ∧ s.hub.trc.fired = false ∧
    (s.hub.trc.armed && !s.hub.trc.posting && !sinkFrozen s.hub.trc) = false) ∧
    (∃ (c : Cmd) (s : State), passes opTrigRelease (withOp 3 c) s = true ∧ s.hub.trc.erg.frozen = true ∧ sinkFrozen s.hub.trc = true ∧ s.hub.trc.sink = 3) ∧
    (∃ (c : Cmd) (s : State), passes opTrigRelease (withOp 3 c) s = true ∧ sinkFrozen s.hub.trc = true ∧ s.hub.trc.sink ≠ 3) ∧
    (∃ (c : Cmd) (s : State), passes opTrigRelease (withOp 3 c) s = true ∧ s.hub.trc.erg.frozen = false ∧ sinkFrozen s.hub.trc = false) ∧
    (∃ (c : Cmd) (s : State) (bs : List Byte), passes opTrigDump (withOp 4 c) s = true ∧ s.hub.trc.erg.frozen = true ∧
    s.hub.trc.erg.blocks.flatMap Prod.snd = bs ∧ bs.length ≤ (withOp 4 c).d 4 ∧ writable s.hub ((withOp 4 c).d 2) bs.length = true) :=
  ⟨⟨tC [0x00020100, 5], { tS with fuses.array := BitVec.ofNat _ (2 ^ (494 + 5)) }, setOr (trcWanted ({ tS with fuses.array := BitVec.ofNat _ (2 ^ (494 + 5)) } : State).hub) ((ctxOf (tC [0x00020100, 5] : Cmd) ({ tS with fuses.array := BitVec.ofNat _ (2 ^ (494 + 5)) } : State)).settings 1 trcSetting (trcWanted ({ tS with fuses.array := BitVec.ofNat _ (2 ^ (494 + 5)) } : State).hub)), by decide +kernel⟩,
    ⟨tC [0x00020100, 5], { tS with hub.trc.cur := [1] }, setOr (trcWanted ({ tS with hub.trc.cur := [1] } : State).hub) ((ctxOf (tC [0x00020100, 5] : Cmd) ({ tS with hub.trc.cur := [1] } : State)).settings 1 trcSetting (trcWanted ({ tS with hub.trc.cur := [1] } : State).hub)), by decide +kernel⟩,
    ⟨tC [0x00020100, 5], tS, setOr (trcWanted (tS : State).hub) ((ctxOf (tC [0x00020100, 5] : Cmd) (tS : State)).settings 1 trcSetting (trcWanted (tS : State).hub)), by decide +kernel⟩,
    ⟨tC [0x00010100, 1], tS, setOr (trcWanted (tS : State).hub) ((ctxOf (tC [0x00010100, 1] : Cmd) (tS : State)).settings 1 trcSetting (trcWanted (tS : State).hub)), by decide +kernel⟩,
    ⟨tC [0x00010100, 2], tS, setOr (tS : State).hub.nid ((ctxOf (tC [0x00010100, 2] : Cmd) (tS : State)).settings 1 nidSetting (tS : State).hub.nid), by decide +kernel⟩,
    ⟨tC [], tS, by decide +kernel⟩,
    ⟨tC [], { tS with hub.trc.posting := true }, by decide +kernel⟩,
    ⟨tC [], tS, by decide +kernel⟩,
    ⟨tC [], { tS with hub.trc.armed := true }, by decide +kernel⟩,
    ⟨tC [], tS, by decide +kernel⟩,
    ⟨tC [], { tS with hub.trc.erg.frozen := true, hub.trc.sink := 3 }, by decide +kernel⟩,
    ⟨tC [], { tS with hub.trc.mem.frozen := true, hub.trc.sink := 2 }, by decide +kernel⟩,
    ⟨tC [], tS, by decide +kernel⟩,
    ⟨tC [0, 0, 0, 64], { tS with hub.trc.erg := { frozen := true, blocks := [(0, [7])] }, hub.mem.ranges := [{ r := { base := 0, size := 4096, tier := .faster, block := true, c0 := 0, n := 4, localBase := 0, masks := [] } }] }, [7], by decide +kernel⟩⟩

/-- The hypotheses of TraceEvents are met. -/
theorem meets_TraceEvents :
    (∃ (s : State) (k : BitVec 11), cellRuns s.env s.hub k.toNat = true ∧ (cell s.hub k.toNat).trace.tsel = true ∧
    (cell s.hub k.toNat).trace.buf.length < 64) ∧
    (∃ (s : State) (k : BitVec 11), cellRuns s.env s.hub k.toNat = true ∧ (cell s.hub k.toNat).trace.tsel = true ∧
    64 ≤ (cell s.hub k.toNat).trace.buf.length) ∧
    (∃ (s : State) (r : RegionNo) (x : Region), s.env.tray = false ∧ working s.hub = true ∧ s.hub.regions[r.toNat]? = some x ∧ x.stopped = false ∧
    nextTraced s.hub r.toNat x.traceTurn = none) ∧
    (∃ (s : State), (s.hub.sys.st = .serving ∨ s.hub.sys.st = .drowse) ∧ s.hub.trc.set.cond.getLsbD 1 = true ∧ s.hub.trc.fired = false ∧
    s.hub.trc.armed = true ∧ s.hub.trc.posting = false ∧ sinkFrozen s.hub.trc = false) ∧
    (∃ (s : State), (s.hub.sys.st = .serving ∨ s.hub.sys.st = .drowse) ∧ s.hub.trc.set.cond.getLsbD 1 = true ∧ s.hub.trc.fired = false ∧
    (s.hub.trc.armed && !s.hub.trc.posting && !sinkFrozen s.hub.trc) = false) ∧
    (∃ (s : State), alive s.hub = true ∧ s.hub.trc.next = none ∧ 65536 < s.hub.trc.cur.length + 4) ∧
    (∃ (s : State), alive s.hub = true ∧ s.hub.trc.next = none ∧ s.hub.trc.cur ≠ [] ∧ s.hub.trc.set.flush ≠ 0 ∧
    s.hub.trc.curTb + s.hub.trc.set.flush ≤ nowNs s.hub) ∧
    (∃ (s : State), alive s.hub = true ∧ s.hub.trc.posting = true ∧ s.hub.trc.set.post ≤ s.hub.trc.posted) ∧
    (∃ (s : State) (b : NBlock) (l : List NBlock), alive s.hub = true ∧ s.hub.trc.busy = b :: l) ∧
    (∃ (s : State) (b : NBlock) (l : List NBlock), alive s.hub = true ∧ s.hub.trc.ready = b :: l ∧ s.hub.trc.sink = 1 ∧ s.hub.trc.rdy = true) ∧
    (∃ (s : State) (b : NBlock) (l : List NBlock), alive s.hub = true ∧ s.hub.trc.ready = b :: l ∧ s.hub.trc.sink = 1 ∧ s.hub.trc.rdy = false) ∧
    (∃ (s : State), alive s.hub = true ∧ s.hub.trc.rdy = true ∧ s.hub.trc.portq ≠ []) ∧
    (∃ (s : State) (p : List Byte) (port : BitVec 6), photenOk s.env s.hub 3 p port.toNat = true) :=
  ⟨⟨{ tS with hub.cells := [(5, { trace := { tsel := true } })] }, 5, by decide +kernel⟩,
    ⟨{ tS with hub.cells := [(5, { trace := { tsel := true, buf := List.replicate 64 (0, 0, 0, 0) } })] }, 5, by decide +kernel⟩,
    ⟨tS, 3, {}, by decide +kernel⟩,
    ⟨{ tS with hub.trc.armed := true }, by decide +kernel⟩,
    ⟨tS, by decide +kernel⟩,
    ⟨{ tS with hub.trc.cur := List.replicate 65533 1 }, by decide +kernel⟩,
    ⟨{ tS with hub.trc.cur := [1], hub.time.tb := BitVec.ofNat 96 (2 ^ 32 * 10 ^ 6) }, by decide +kernel⟩,
    ⟨{ tS with hub.trc.posting := true, hub.trc.posted := 262144 }, by decide +kernel⟩,
    ⟨{ tS with hub.trc.busy := [{ bseq := 3, data := [1] }] }, { bseq := 3, data := [1] }, [], by decide +kernel⟩,
    ⟨{ tS with hub.trc.ready := [{ bseq := 3, data := [1] }], hub.trc.sink := 1 }, { bseq := 3, data := [1] }, [], by decide +kernel⟩,
    ⟨{ tS with hub.trc.ready := [{ bseq := 3, data := [1] }], hub.trc.sink := 1, hub.trc.rdy := false }, { bseq := 3, data := [1] }, [], by decide +kernel⟩,
    ⟨{ tS with hub.trc.portq := [1] }, by decide +kernel⟩,
    ⟨tS, [19, 0, 64, 0, 0, 0, 0, 0, 0, 0, 0, 1, 0, 0, 0, 0, 0, 0, 0, 0, 0, 0, 0, 1, 0, 0, 0, 0, 132, 98, 14, 159, 0, 0, 0, 0, 0, 0, 0, 0, 0, 0, 0, 0, 0, 0, 0, 0, 0, 0, 0, 0, 0, 0, 0, 0, 0, 0, 0, 0, 0, 0, 0, 0], 1, by decide +kernel⟩⟩

/-- The hypotheses of DigestBeats are met. -/
theorem meets_DigestBeats :
    (∃ (s : State) (p : Bool) (d : BitVec 128) (ep : _) (x : _), digRuns s.env s.hub = true ∧ (fifoTick (nowNs s.hub) (pipe s.hub p)).fifo.length < 16 ∧
    digHdr d = x ∧ x.rsvd = 0 ∧ x.type = 0 ∧ digFmtOk x.fmt = true ∧ epochOpen s.hub x.epoch = true ∧ epochOf s.hub x.epoch = some ep ∧
    delivery s.hub p x.layer x.slice x.epoch = none ∧ tableRoom p (x.layer * 64 + x.slice) ep = true) ∧
    (∃ (s : State) (p : Bool) (d : BitVec 128) (x : _), digRuns s.env s.hub = true ∧ (fifoTick (nowNs s.hub) (pipe s.hub p)).fifo.length < 16 ∧
    digHdr d = x ∧ x.rsvd = 0 ∧ x.type = 0 ∧ digFmtOk x.fmt = true ∧ epochOpen s.hub x.epoch = false ∧ s.hub.dig.opened.contains x.epoch = false) ∧
    (∃ (s : State) (p : Bool) (n : Byte) (lanes : List Word) (c : Chunk) (l : Nat) (u : Nat) (ep : Word) (v : Delivery), digRuns s.env s.hub = true ∧
    (fifoTick (nowNs s.hub) (pipe s.hub p)).fifo.length < 16 ∧ (pipe s.hub p).chunk = some c ∧ c.kind = .slice l u ep 0 ∧
    delivery s.hub p l u ep = some v ∧ 0 < n.toNat ∧ n.toNat ≤ 128 ∧ n.toNat ≤ lanes.length ∧ c.next + n.toNat ≤ 2 ^ 28) ∧
    (∃ (s : State) (d : BitVec 128) (x : _) (v : Delivery), digRuns s.env s.hub = true ∧ (fifoTick (nowNs s.hub) s.hub.dig.ingress).fifo.length < 16 ∧
    digHdr d = x ∧ x.rsvd = 0 ∧ x.type = 1 ∧ s.hub.dig.ingress.chunk = none ∧ delivery s.hub false x.layer x.slice x.epoch = some v ∧
    v.invalid = false ∧ v.overrun = false ∧ v.count = x.base) ∧
    (∀ b : BitVec 128, Config.drbg 0 = b → ∃ (s : State) (p : Bool) (d : BitVec 128) (x : _) (b : BitVec 128) (k : _), digRuns s.env s.hub = true ∧
    (fifoTick (nowNs s.hub) (pipe s.hub p)).fifo.length < 16 ∧ digHdr d = x ∧ x.rsvd = 0 ∧ x.type = 2 ∧ digFmtOk x.fmt = true ∧
    Tab.find s.hub.dig.seals x.sid = none ∧ Config.drbg s.hub.free = b ∧ laneKeys s.hub (fld (bitsOf b.toNat 60 0), fld (bitsOf b.toNat 121 61)) = k) ∧
    (∃ (s : State) (p : Bool) (d : BitVec 128) (x : _) (v : Seal) (k : _), digRuns s.env s.hub = true ∧
    (fifoTick (nowNs s.hub) (pipe s.hub p)).fifo.length < 16 ∧ digHdr d = x ∧ x.rsvd = 0 ∧ x.type = 3 ∧ digFmtOk x.fmt = true ∧ x.base = 0 ∧
    Tab.find s.hub.dig.seals x.sid = some v ∧ v.state = 2 ∧ v.overrun = false ∧ laneKeys s.hub (v.k0, v.k1) = k) ∧
    (∃ (s : State) (p : Bool) (d : BitVec 128) (x : _) (v : Seal), digRuns s.env s.hub = true ∧ (fifoTick (nowNs s.hub) (pipe s.hub p)).fifo.length < 16 ∧
    digHdr d = x ∧ x.rsvd = 0 ∧ x.type = 4 ∧ Tab.find s.hub.dig.seals x.sid = some v ∧ Tab.find (pipe s.hub p).recalls x.sid = none ∧ v.state = 1 ∧
    v.egress = p ∧ v.count = x.base ∧ v.invalid = false ∧ v.overrun = false) ∧
    (∃ (s : State) (p : Bool) (d : BitVec 128) (x : _) (v : Seal) (r : Seal), digRuns s.env s.hub = true ∧
    (fifoTick (nowNs s.hub) (pipe s.hub p)).fifo.length < 16 ∧ digHdr d = x ∧ x.rsvd = 0 ∧ x.type = 4 ∧ Tab.find s.hub.dig.seals x.sid = some v ∧
    Tab.find (pipe s.hub p).recalls x.sid = some r ∧ r.state = 1 ∧ r.overrun = false ∧ r.invalid = false ∧ r.count = x.base) ∧
    (∃ (s : State) (p : Bool) (due : Nat) (sid : Nat) (r : Seal) (x : Option Seal) (o : Bool) (k : Bool) (l : List (Nat × Final)), digRuns s.env s.hub = true ∧
    (pipe s.hub p).finals = (due, .recall sid r x o k) :: l ∧ due ≤ nowNs s.hub ∧ (k && !o) = false) ∧
    (∃ (s : State) (due : Nat) (v : Delivery) (l : List (Nat × Final)) (ep : Epoch), digRuns s.env s.hub = true ∧
    s.hub.dig.egress.finals = (due, .slice v true) :: l ∧ due ≤ nowNs s.hub ∧ v.overrun = false ∧ s.hub.dig.newer = some ep ∧ ep.num = v.epoch ∧
    tableRoom true (pairKey v.layer v.slice) ep = true) :=
  ⟨⟨{ tS with hub.dig.newer := some { num := 9, k0 := 3, k1 := 5, ctx := false } }, true, 0x8400620000000480000000070000000, { num := 9, k0 := 3, k1 := 5, ctx := false }, digHdr (0x8400620000000480000000070000000 : BitVec 128), by decide +kernel, by decide +kernel, rfl, by decide +kernel, by decide +kernel, by decide +kernel, by decide +kernel, by decide +kernel, by decide +kernel, by decide +kernel⟩,
    ⟨tS, true, 0x8400620000000480000000070000000, digHdr (0x8400620000000480000000070000000 : BitVec 128), by decide +kernel, by decide +kernel, rfl, by decide +kernel, by decide +kernel, by decide +kernel, by decide +kernel, by decide +kernel⟩,
    ⟨{ tS with hub.dig.egress := { chunk := some { kind := .slice 3 4 9 0, fmt := 8, link := 2, next := 0 }, open_ := [{ layer := 3, slice := 4, epoch := 9, link := 2, fmt := 8, k0 := 3, k1 := 5, fixed := false, lastBeat := 900 }] } }, true, 2, List.replicate 128 1, { kind := .slice 3 4 9 0, fmt := 8, link := 2, next := 0 }, 3, 4, 9, { layer := 3, slice := 4, epoch := 9, link := 2, fmt := 8, k0 := 3, k1 := 5, fixed := false, lastBeat := 900 }, by decide +kernel⟩,
    ⟨{ tS with hub.dig.ingress := { open_ := [{ layer := 3, slice := 4, epoch := 9, link := 2, fmt := 8, k0 := 3, k1 := 5, fixed := false, lastBeat := 900 }] } }, 0x18400620000000480000000070000000, digHdr (0x18400620000000480000000070000000 : BitVec 128), { layer := 3, slice := 4, epoch := 9, link := 2, fmt := 8, k0 := 3, k1 := 5, fixed := false, lastBeat := 900 }, by decide +kernel, by decide +kernel, rfl, by decide +kernel, by decide +kernel, by decide +kernel, by decide +kernel, by decide +kernel, by decide +kernel, by decide +kernel⟩,
    fun b hb => ⟨tS, true, 0x28400620000000480000000070000000, digHdr (0x28400620000000480000000070000000 : BitVec 128), b, laneKeys (tS : State).hub (fld (bitsOf b.toNat 60 0), fld (bitsOf b.toNat 121 61)), by decide +kernel, by decide +kernel, rfl, by decide +kernel, by decide +kernel, by decide +kernel, by decide +kernel, hb, rfl⟩,
    ⟨{ tS with hub.dig.seals := [(7, { state := 2, k0 := 3, k1 := 5 })] }, true, 0x38400620000000480000000070000000, digHdr (0x38400620000000480000000070000000 : BitVec 128), { state := 2, k0 := 3, k1 := 5 }, laneKeys ({ tS with hub.dig.seals := [(7, { state := 2, k0 := 3, k1 := 5 })] } : State).hub (({ state := 2, k0 := 3, k1 := 5 } : Seal).k0, ({ state := 2, k0 := 3, k1 := 5 } : Seal).k1), by decide +kernel, by decide +kernel, rfl, by decide +kernel, by decide +kernel, by decide +kernel, by decide +kernel, by decide +kernel, by decide +kernel, by decide +kernel, rfl⟩,
    ⟨{ tS with hub.dig.seals := [(7, { state := 1, k0 := 3, k1 := 5, egress := true })] }, true, 0x48400620000000480000000070000000, digHdr (0x48400620000000480000000070000000 : BitVec 128), { state := 1, k0 := 3, k1 := 5, egress := true }, by decide +kernel, by decide +kernel, rfl, by decide +kernel, by decide +kernel, by decide +kernel, by decide +kernel, by decide +kernel, by decide +kernel, by decide +kernel, by decide +kernel, by decide +kernel⟩,
    ⟨{ tS with hub.dig.seals := [(7, { state := 2, k0 := 3, k1 := 5 })], hub.dig.egress.recalls := [(7, { state := 1, k0 := 3, k1 := 5 })] }, true, 0x48400620000000480000000070000000, digHdr (0x48400620000000480000000070000000 : BitVec 128), { state := 2, k0 := 3, k1 := 5 }, { state := 1, k0 := 3, k1 := 5 }, by decide +kernel, by decide +kernel, rfl, by decide +kernel, by decide +kernel, by decide +kernel, by decide +kernel, by decide +kernel, by decide +kernel, by decide +kernel, by decide +kernel⟩,
    ⟨{ tS with hub.dig.egress.finals := [(5, .recall 7 { state := 1, k0 := 3, k1 := 5 } none false false)] }, true, 5, 7, { state := 1, k0 := 3, k1 := 5 }, none, false, false, [], by decide +kernel⟩,
    ⟨{ tS with hub.dig.egress.finals := [(5, .slice { layer := 3, slice := 4, epoch := 9, link := 2, fmt := 8, k0 := 3, k1 := 5, fixed := false, lastBeat := 900 } true)], hub.dig.newer := some { num := 9, k0 := 3, k1 := 5, ctx := false } }, 5, { layer := 3, slice := 4, epoch := 9, link := 2, fmt := 8, k0 := 3, k1 := 5, fixed := false, lastBeat := 900 }, [], { num := 9, k0 := 3, k1 := 5, ctx := false }, by decide +kernel⟩⟩

/-- The hypotheses of VerdictCommands are met. -/
theorem meets_VerdictCommands :
    (∃ (c : Cmd) (s : State) (v : _), passes opPolicySet c s = true ∧ (ctxOf c s).settings 1 polSetting (polBase s.hub) = .inr v ∧
    (v.quotas.map Quota.arrays).sum ≤ 8 ∧ (v.quotas.map Quota.pages).sum ≤ 128 ∧ (v.quotas.map Quota.rows).sum ≤ 2048) ∧
    (∃ (c : Cmd) (s : State) (v : _), passes opPolicySet c s = true ∧ (ctxOf c s).settings 1 polSetting (polBase s.hub) = .inr v ∧
    8 < (v.quotas.map Quota.arrays).sum) ∧
    (∃ (c : Cmd) (s : State), passes opFence c s = true ∧ ownsEnt s.env s.hub (c.w 1) = true) ∧
    (∃ (c : Cmd) (s : State), passes opFence c s = true ∧ ownsEnt s.env s.hub (c.w 1) = false) ∧
    (∃ (c : Cmd) (s : State), passes opExpel c s = true ∧ ownsEnt s.env s.hub (c.w 1) = true) ∧
    (∃ (c : Cmd) (s : State), passes opUnfence c s = true ∧ ownsEnt s.env s.hub (c.w 1) = true ∧ kindOf (c.w 1) ≠ 9 ∧
    isRemoval (entity s.hub (c.w 1)).verdict = true) ∧
    (∃ (c : Cmd) (s : State), passes opUnfence c s = true ∧ ownsEnt s.env s.hub (c.w 1) = true ∧ isRemoval (entity s.hub (c.w 1)).verdict = false) ∧
    (∃ (c : Cmd) (s : State), passes opShadowStart c s = true ∧ (jobAt s.hub ((c.w 1).setWidth 16)).isSome = true ∧ c.n 2 ≠ c.n 3 ∧
    votes s.hub ((c.w 1).setWidth 16) (c.n 3) = true ∧ c.n 2 < 256) ∧
    (∃ (c : Cmd) (s : State) (k : Nat), passes opTestSchedule (withOp 0 c) s = true ∧ coresOf s.env s.hub ((withOp 0 c).w 2) = [k] ∧
    coreId s.env s.hub k = (withOp 0 c).w 2 ∧ (entity s.hub ((withOp 0 c).w 2)).test = none ∧ jobOfDie s.hub (dieNo s.env s.hub) = none) ∧
    (∃ (c : Cmd) (s : State) (k : Nat) (v : _), passes opTestCancel (withOp 1 c) s = true ∧ coresOf s.env s.hub ((withOp 1 c).w 2) = [k] ∧
    testOf s.env s.hub k = some v ∧ v.running = none) ∧
    (∃ (c : Cmd) (s : State) (k : Nat) (v : _), passes opTestCancel (withOp 1 c) s = true ∧ coresOf s.env s.hub ((withOp 1 c).w 2) = [k] ∧
    testOf s.env s.hub k = some v ∧ v.running.isSome = true) ∧
    (∃ (c : Cmd) (s : State) (k : Nat) (lim : Nat), passes opTestDone (withOp 2 c) s = true ∧ testCore s.env s.hub ((withOp 2 c).w 2) = some (k, lim) ∧
    nowNs s.hub ≤ lim ∧ (withOp 2 c).n 3 = 2) ∧
    (∃ (c : Cmd) (s : State) (k : Nat) (lim : Nat), passes opTestDone (withOp 2 c) s = true ∧ testCore s.env s.hub ((withOp 2 c).w 2) = some (k, lim) ∧
    nowNs s.hub ≤ lim ∧ (withOp 2 c).n 3 = 0 ∧ (entity s.hub (coreId s.env s.hub k)).verdict ≠ 4) ∧
    (∃ (c : Cmd) (s : State) (k : Nat) (lim : Nat), passes opTestDone (withOp 2 c) s = true ∧ testCore s.env s.hub ((withOp 2 c).w 2) = some (k, lim) ∧
    nowNs s.hub ≤ lim ∧ (withOp 2 c).n 3 = 0 ∧ (entity s.hub (coreId s.env s.hub k)).verdict = 4 ∧ (entity s.hub (coreId s.env s.hub k)).floors = []) ∧
    (∃ (c : Cmd) (s : State), passes opVerdictRead c s = true ∧ knowsEnt s.env s.hub (c.w 1) = true) :=
  ⟨⟨tC [0x00030100, 8], tS, setOr (polBase (tS : State).hub) ((ctxOf (tC [0x00030100, 8] : Cmd) (tS : State)).settings 1 polSetting (polBase (tS : State).hub)), by decide +kernel, rfl, by decide +kernel, by decide +kernel, by decide +kernel⟩,
    ⟨tC [0x002E0500, 1, 9, 0, 0, 0], tS, setOr (polBase (tS : State).hub) ((ctxOf (tC [0x002E0500, 1, 9, 0, 0, 0] : Cmd) (tS : State)).settings 1 polSetting (polBase (tS : State).hub)), by decide +kernel, rfl, by decide +kernel⟩,
    ⟨tC [5], tS, by decide +kernel⟩,
    ⟨tC [5], { tS with fuses.array := BitVec.ofNat _ (2 ^ (494 + 5)) }, by decide +kernel⟩,
    ⟨tC [5], tS, by decide +kernel⟩,
    ⟨tC [5], { tS with hub.casc.ents := [(5, { verdict := 5 })] }, by decide +kernel⟩,
    ⟨tC [5], tS, by decide +kernel⟩,
    ⟨tC [1, 3, 2], { tS with hub.jobs.table := [(1, { group := 1, root := 0, combiners := [], dies := [{ die := 0, rep := 2, shadow := false }] })] }, by decide +kernel⟩,
    ⟨tC [5, 77], tS, 5, by decide +kernel⟩,
    ⟨tC [5], { tS with hub.casc.ents := [(5, { test := some { deadline := 900 } })] }, 5, { deadline := 900 }, by decide +kernel⟩,
    ⟨tC [5], { tS with hub.casc.ents := [(5, { test := some { deadline := 900, running := some (1, 2000) } })] }, 5, { deadline := 900, running := some (1, 2000) }, by decide +kernel⟩,
    ⟨tC [1, 2], { tS with hub.casc.ents := [(5, { test := some { deadline := 900, running := some (1, 2000) } })] }, 5, 2000, by decide +kernel⟩,
    ⟨tC [1, 0], { tS with hub.casc.ents := [(5, { test := some { deadline := 900, running := some (1, 2000) } })] }, 5, 2000, by decide +kernel⟩,
    ⟨tC [1, 0], { tS with hub.casc.ents := [(5, { verdict := 4, test := some { deadline := 900, running := some (1, 2000) } })] }, 5, 2000, by decide +kernel⟩,
    ⟨tC [5], tS, by decide +kernel⟩⟩

/-- The hypotheses of CascadeEvents are met. -/
theorem meets_CascadeEvents :
    (∃ (s : State), s.env.tray = false ∧ working s.hub = true ∧ s.hub.casc.lastScan < scanTb s.hub) ∧
    (∃ (s : State), s.env.tray = false ∧ serving s.hub = true ∧ s.hub.casc.lastQuick < quickTb s.hub) ∧
    (∃ (s : State), ensRuns s.env s.hub = true) ∧
    (∃ (s : State) (x : Word) (d : Nat), ensRuns s.env s.hub = true ∧ (entity s.hub x).verdict = 3 ∧ (entity s.hub x).probEnd = some d ∧ d ≤ nowNs s.hub) ∧
    (∃ (s : State) (k : CoreNo), s.env.present k.toNat = true ∧ ensRuns s.env s.hub = true ∧ (policy s.hub).periodic ≠ 0 ∧
    (hubc s.hub k.toNat).lastTest + (policy s.hub).periodic ≤ nowNs s.hub ∧ (entity s.hub (coreId s.env s.hub k.toNat)).test = none ∧
    jobOfDie s.hub (dieNo s.env s.hub) = none) ∧
    (∃ (s : State) (k : CoreNo) (v : TestDue), s.env.present k.toNat = true ∧ ensRuns s.env s.hub = true ∧
    (entity s.hub (coreId s.env s.hub k.toNat)).test = some v ∧ v.running = none ∧ v.overdue = false ∧ v.deadline ≤ nowNs s.hub ∧
    s.env.beaten evStep v.deadline (nowNs s.hub) = false) ∧
    (∃ (s : State) (q : Word) (k : Nat) (lim : Nat), testCore s.env s.hub q = some (k, lim) ∧ ensRuns s.env s.hub = true ∧ lim ≤ nowNs s.hub ∧
    s.env.beaten evTestDone lim (nowNs s.hub) = false) :=
  ⟨⟨{ tS with hub.time.tb := BitVec.ofNat 96 (2 ^ 32 * 10 ^ 15) }, by decide +kernel⟩,
    ⟨{ tS with hub.time.tb := BitVec.ofNat 96 (2 ^ 32 * 10 ^ 15) }, by decide +kernel⟩,
    ⟨{ tS with hub.time.tb := BitVec.ofNat 96 (2 ^ 32 * 10 ^ 15) }, by decide +kernel⟩,
    ⟨{ tS with hub.casc.ents := [(5, { verdict := 3, probEnd := some 5 })] }, 5, 5, by decide +kernel⟩,
    ⟨{ tS with hub.time.tb := BitVec.ofNat 96 (2 ^ 32 * 10 ^ 15) }, 5, by decide +kernel⟩,
    ⟨{ tS with hub.casc.ents := [(5, { test := some { deadline := 900 } })] }, 5, { deadline := 900 }, by decide +kernel⟩,
    ⟨{ tS with hub.casc.ents := [(5, { test := some { deadline := 900, running := some (1, 900) } })] }, 1, 5, 900, by decide +kernel⟩⟩

/-- The hypotheses of ReduceCommands are met. -/
theorem meets_ReduceCommands :
    (∃ (c : Cmd) (s : State), passes opXsReduce c s = true ∧ xsMember s.env s.hub (c.n 1) = false) ∧
    (∃ (c : Cmd) (s : State) (es : List Elem), passes opXsReduce c s = true ∧ xsMember s.env s.hub (c.n 1) = true ∧
    xsBusy s.env s.hub (c.n 1) (c.n 2) = false ∧ xsElems s.env (consumed c s) (ctxOf c s) = some es) ∧
    (∃ (c : Cmd) (s : State), passes opNormReq c s = true ∧ xsMember s.env s.hub (c.n 1) = false) ∧
    (∃ (c : Cmd) (s : State), passes opNormReq c s = true ∧ xsMember s.env s.hub (c.n 1) = true ∧ xsBusy s.env s.hub (c.n 1) (seqOfNorm (c.n 2)) = false) :=
  ⟨⟨tC [0, 9, 0, 0, 1, 0, 0, 7, 7, 0, 0], tS, by decide +kernel⟩,
    ⟨tC [0, 9, 0, 0, 1, 0, 0, 7, 7, 0, 0], { tS with hub.img := some { fleet := { dies := [0] } } }, [.int (7 * 2 ^ 32 + 7)], by decide +kernel⟩,
    ⟨tC [0, 4], tS, by decide +kernel⟩,
    ⟨tC [0, 4], { tS with hub.img := some { fleet := { dies := [0] } } }, by decide +kernel⟩⟩

/-- The hypotheses of MemberRounds are met. -/
theorem meets_MemberRounds :
    (∃ (s : State) (g : BitVec 10) (n : NormWait) (ep : Epoch) (r : Round), s.env.tray = false ∧ working s.hub = true ∧
    s.hub.xs.norms.find? (fun n => decide (n.group = g.toNat) && (egressFinal s.hub n.epoch || epochGone s.hub n.epoch)) = some n ∧
    epochOf s.hub n.epoch = some ep ∧ roundAt s.hub 0 n.group (seqOfNorm n.epoch.toNat) = some r) ∧
    (∃ (s : State) (g : BitVec 10) (n : NormWait), s.env.tray = false ∧ working s.hub = true ∧
    s.hub.xs.norms.find? (fun n => decide (n.group = g.toNat) && (egressFinal s.hub n.epoch || epochGone s.hub n.epoch)) = some n ∧
    epochOf s.hub n.epoch = none) ∧
    (∃ (s : State) (g : BitVec 16) (q : BitVec 16) (r : Round), s.env.tray = false ∧ working s.hub = true ∧ roundAt s.hub 0 g.toNat q.toNat = some r ∧
    (roundWait r).isSome = true ∧ r.opened + s.hub.xs.resultTimeout ≤ nowNs s.hub ∧
    s.env.beaten evResult (r.opened + s.hub.xs.resultTimeout) (nowNs s.hub) = false) ∧
    (∃ (s : State), working s.hub = true) :=
  ⟨⟨{ tS with hub.xs.norms := [{ group := 0, epoch := 4, pend := 1 }], hub.xs.rounds := [(roundKey 0 0 (seqOfNorm 4), { op := 3, total := 1, use := .norm 1 4, opened := 0 })], hub.dig.older := some { num := 4, k0 := 3, k1 := 5, ctx := false } }, 0, { group := 0, epoch := 4, pend := 1 }, { num := 4, k0 := 3, k1 := 5, ctx := false }, { op := 3, total := 1, use := .norm 1 4, opened := 0 }, by decide +kernel⟩,
    ⟨{ tS with hub.xs.norms := [{ group := 0, epoch := 4, pend := 1 }], hub.dig.opened := [4] }, 0, { group := 0, epoch := 4, pend := 1 }, by decide +kernel⟩,
    ⟨{ tS with hub.xs.rounds := [(roundKey 0 0 9, { op := 0, total := 1, use := .xsReduce 1 0, opened := 0 })], hub.xs.resultTimeout := 100 }, 0, 9, { op := 0, total := 1, use := .xsReduce 1 0, opened := 0 }, by decide +kernel⟩,
    ⟨tS, by decide +kernel⟩⟩

/-- The hypotheses of EnsembleCommands are met. -/
theorem meets_EnsembleCommands :
    (∃ (c : Cmd) (s : State), passes opEnsLoad c s = true) ∧
    (∃ (c : Cmd) (s : State), passes opEnsActivate c s = true ∧ c.n 1 < s.hub.ens.slots.length ∧
    (slotAt s.hub (c.n 1)).staged.all (fun g => decide (g.num ≠ c.w 2)) = true) ∧
    (∃ (c : Cmd) (s : State) (g : Gen), passes opEnsActivate c s = true ∧ c.n 1 < s.hub.ens.slots.length ∧ (slotAt s.hub (c.n 1)).staged = some g ∧
    g.num = c.w 2 ∧ g.damaged = true) ∧
    (∃ (c : Cmd) (s : State) (g : Gen), passes opEnsActivate c s = true ∧ c.n 1 < s.hub.ens.slots.length ∧ (slotAt s.hub (c.n 1)).staged = some g ∧
    g.num = c.w 2 ∧ g.damaged = false ∧ (windowWord (ctxOf c s) 3).any (windowEnded s.hub) = true) ∧
    (∃ (c : Cmd) (s : State) (g : Gen), passes opEnsActivate c s = true ∧ c.n 1 < s.hub.ens.slots.length ∧ (slotAt s.hub (c.n 1)).staged = some g ∧
    g.num = c.w 2 ∧ g.damaged = false ∧ (windowWord (ctxOf c s) 3).any (windowEnded s.hub) = false ∧
    (slotAt s.hub (c.n 1)).swap.any Swap.commanded = true) ∧
    (∃ (c : Cmd) (s : State) (g : Gen), passes opEnsActivate c s = true ∧ c.n 1 < s.hub.ens.slots.length ∧ (slotAt s.hub (c.n 1)).staged = some g ∧
    g.num = c.w 2 ∧ g.damaged = false ∧ (windowWord (ctxOf c s) 3).any (windowEnded s.hub) = false ∧
    (slotAt s.hub (c.n 1)).swap.any Swap.commanded = false) ∧
    (∃ (c : Cmd) (s : State), passes opEnsRollback c s = true ∧ c.n 1 < s.hub.ens.slots.length ∧ (slotAt s.hub (c.n 1)).previous = none) ∧
    (∃ (c : Cmd) (s : State) (g : Gen), passes opEnsRollback c s = true ∧ c.n 1 < s.hub.ens.slots.length ∧ (slotAt s.hub (c.n 1)).previous = some g ∧
    g.damaged = true) ∧
    (∃ (c : Cmd) (s : State) (g : Gen), passes opEnsRollback c s = true ∧ c.n 1 < s.hub.ens.slots.length ∧ (slotAt s.hub (c.n 1)).previous = some g ∧
    g.damaged = false ∧ (windowWord (ctxOf c s) 2).any (windowEnded s.hub) = true) ∧
    (∃ (c : Cmd) (s : State) (g : Gen), passes opEnsRollback c s = true ∧ c.n 1 < s.hub.ens.slots.length ∧ (slotAt s.hub (c.n 1)).previous = some g ∧
    g.damaged = false ∧ (windowWord (ctxOf c s) 2).any (windowEnded s.hub) = false ∧
    (slotAt s.hub (c.n 1)).swap.any (fun w => w.commanded && w.rollback) = true) ∧
    (∃ (c : Cmd) (s : State) (g : Gen), passes opEnsRollback c s = true ∧ c.n 1 < s.hub.ens.slots.length ∧ (slotAt s.hub (c.n 1)).previous = some g ∧
    g.damaged = false ∧ (windowWord (ctxOf c s) 2).any (windowEnded s.hub) = false ∧
    (slotAt s.hub (c.n 1)).swap.any (fun w => w.commanded && w.rollback) = false) ∧
    (∃ (c : Cmd) (s : State), passes opEnsRun c s = true ∧
    (if (ctxOf c s).tenant then none else firstWord 4 (c.params.drop 3) (hasRow s.env s.hub)) = none ∧ (slotAt s.hub (c.n 1)).active = none) ∧
    (∃ (c : Cmd) (s : State) (g : Gen), passes opEnsRun c s = true ∧
    (if (ctxOf c s).tenant then none else firstWord 4 (c.params.drop 3) (hasRow s.env s.hub)) = none ∧ (slotAt s.hub (c.n 1)).active = some g ∧
    c.params.drop 3 ≠ [] ∧ 8 ≤ s.hub.ens.passes.length) ∧
    (∃ (c : Cmd) (s : State) (g : Gen), passes opEnsRun c s = true ∧
    (if (ctxOf c s).tenant then none else firstWord 4 (c.params.drop 3) (hasRow s.env s.hub)) = none ∧ (slotAt s.hub (c.n 1)).active = some g ∧
    c.params.drop 3 ≠ [] ∧ s.hub.ens.passes.length < 8 ∧ (s.env.tray = false ∨ (ctxOf c s).tenant = true ∧ (ctxOf c s).job.isSome = true)) ∧
    (∃ (c : Cmd) (s : State), passes opFeatWrite c s = true ∧ (ctxOf c s).tenant = true) ∧
    (∃ (c : Cmd) (s : State), passes opFeatWrite c s = true ∧ (ctxOf c s).tenant = false ∧ hasRow s.env s.hub (c.w 1) = false) ∧
    (∃ (c : Cmd) (s : State) (r : Row), passes opFeatWrite c s = true ∧ (ctxOf c s).tenant = false ∧ hasRow s.env s.hub (c.w 1) = true ∧
    rowOf s.hub (c.w 1) = some r ∧ r.st = .valid) :=
  ⟨⟨tC [0, 0, 0, 0, 160], tS, by decide +kernel⟩,
    ⟨tC [0, 7], tS, by decide +kernel⟩,
    ⟨tC [0, 7], { tS with hub.ens.slots := setAt (List.replicate 16 {}) 0 { staged := some { num := 7, levels := 1, trees := 0, total := 0, treeBase := 0, relmask := 1, scale := 0, outs := [], table := [], nodes := [], sets := [], pages := 0, damaged := true } } }, { num := 7, levels := 1, trees := 0, total := 0, treeBase := 0, relmask := 1, scale := 0, outs := [], table := [], nodes := [], sets := [], pages := 0, damaged := true }, by decide +kernel⟩,
    ⟨tC [0, 7, 3], { tS with hub.ens.slots := setAt (List.replicate 16 {}) 0 { staged := some { num := 7, levels := 1, trees := 0, total := 0, treeBase := 0, relmask := 1, scale := 0, outs := [], table := [], nodes := [], sets := [], pages := 0 } }, hub.casc.window := 5 }, { num := 7, levels := 1, trees := 0, total := 0, treeBase := 0, relmask := 1, scale := 0, outs := [], table := [], nodes := [], sets := [], pages := 0 }, by decide +kernel⟩,
    ⟨tC [0, 7], { tS with hub.ens.slots := setAt (List.replicate 16 {}) 0 { staged := some { num := 7, levels := 1, trees := 0, total := 0, treeBase := 0, relmask := 1, scale := 0, outs := [], table := [], nodes := [], sets := [], pages := 0 }, swap := some { rollback := false, commanded := true, window := none } } }, { num := 7, levels := 1, trees := 0, total := 0, treeBase := 0, relmask := 1, scale := 0, outs := [], table := [], nodes := [], sets := [], pages := 0 }, by decide +kernel⟩,
    ⟨tC [0, 7], { tS with hub.ens.slots := setAt (List.replicate 16 {}) 0 { staged := some { num := 7, levels := 1, trees := 0, total := 0, treeBase := 0, relmask := 1, scale := 0, outs := [], table := [], nodes := [], sets := [], pages := 0 } } }, { num := 7, levels := 1, trees := 0, total := 0, treeBase := 0, relmask := 1, scale := 0, outs := [], table := [], nodes := [], sets := [], pages := 0 }, by decide +kernel⟩,
    ⟨tC [0], tS, by decide +kernel⟩,
    ⟨tC [0], { tS with hub.ens.slots := setAt (List.replicate 16 {}) 0 { previous := some { num := 7, levels := 1, trees := 0, total := 0, treeBase := 0, relmask := 1, scale := 0, outs := [], table := [], nodes := [], sets := [], pages := 0, damaged := true } } }, { num := 7, levels := 1, trees := 0, total := 0, treeBase := 0, relmask := 1, scale := 0, outs := [], table := [], nodes := [], sets := [], pages := 0, damaged := true }, by decide +kernel⟩,
    ⟨tC [0, 3], { tS with hub.ens.slots := setAt (List.replicate 16 {}) 0 { previous := some { num := 7, levels := 1, trees := 0, total := 0, treeBase := 0, relmask := 1, scale := 0, outs := [], table := [], nodes := [], sets := [], pages := 0 } }, hub.casc.window := 5 }, { num := 7, levels := 1, trees := 0, total := 0, treeBase := 0, relmask := 1, scale := 0, outs := [], table := [], nodes := [], sets := [], pages := 0 }, by decide +kernel⟩,
    ⟨tC [0], { tS with hub.ens.slots := setAt (List.replicate 16 {}) 0 { previous := some { num := 7, levels := 1, trees := 0, total := 0, treeBase := 0, relmask := 1, scale := 0, outs := [], table := [], nodes := [], sets := [], pages := 0 }, swap := some { rollback := true, commanded := true, window := none } } }, { num := 7, levels := 1, trees := 0, total := 0, treeBase := 0, relmask := 1, scale := 0, outs := [], table := [], nodes := [], sets := [], pages := 0 }, by decide +kernel⟩,
    ⟨tC [0], { tS with hub.ens.slots := setAt (List.replicate 16 {}) 0 { previous := some { num := 7, levels := 1, trees := 0, total := 0, treeBase := 0, relmask := 1, scale := 0, outs := [], table := [], nodes := [], sets := [], pages := 0 } } }, { num := 7, levels := 1, trees := 0, total := 0, treeBase := 0, relmask := 1, scale := 0, outs := [], table := [], nodes := [], sets := [], pages := 0 }, by decide +kernel⟩,
    ⟨tC [0, 0, 0], tS, by decide +kernel⟩,
    ⟨tC [0, 0, 0, 5], { tS with hub.ens.slots := setAt (List.replicate 16 {}) 0 { active := some { num := 7, levels := 1, trees := 0, total := 0, treeBase := 0, relmask := 1, scale := 0, outs := [], table := [], nodes := [], sets := [], pages := 0 } }, hub.ens.rows := [(5, {})], hub.ens.passes := List.replicate 8 { slot := 0, use := .full, todo := [5], gen := { num := 7, levels := 1, trees := 0, total := 0, treeBase := 0, relmask := 1, scale := 0, outs := [], table := [], nodes := [], sets := [], pages := 0 }, tb := 900, period := 20000 } }, { num := 7, levels := 1, trees := 0, total := 0, treeBase := 0, relmask := 1, scale := 0, outs := [], table := [], nodes := [], sets := [], pages := 0 }, by decide +kernel⟩,
    ⟨tC [0, 0, 0, 5], { tS with hub.ens.slots := setAt (List.replicate 16 {}) 0 { active := some { num := 7, levels := 1, trees := 0, total := 0, treeBase := 0, relmask := 1, scale := 0, outs := [], table := [], nodes := [], sets := [], pages := 0 } }, hub.ens.rows := [(5, {})] }, { num := 7, levels := 1, trees := 0, total := 0, treeBase := 0, relmask := 1, scale := 0, outs := [], table := [], nodes := [], sets := [], pages := 0 }, by decide +kernel⟩,
    ⟨tC [4, 0, 9], { tS with hub.cmd.chans := [{ enabled := true, domain := 2, job := 3 }, {}, {}, {}], hub.ens.quotas := [{ job := 3, arrays := 1, pages := 1, rows := 9, slots := [] }] }, by decide +kernel⟩,
    ⟨tC [4, 0, 9], tS, by decide +kernel⟩,
    ⟨tC [4, 0, 9], { tS with hub.ens.rows := [(4, {})] }, {}, by decide +kernel⟩⟩

/-- The hypotheses of EnsembleLoads are met. -/
theorem meets_EnsembleLoads :
    (∃ (s : State) (l : Load), s.hub.ens.loads.find? (fun l => l.gen.isNone) = some l ∧ ensRuns s.env s.hub = true ∧
    ((∀ b, readMem s.env s.hub.clean l.addr l.len = some b → imageCheck s.hub l.slot l.len l.job b ≠ stOk))) ∧
    (∃ (s : State) (l : Load) (b : List Byte), s.hub.ens.loads.find? (fun l => l.gen.isNone) = some l ∧ ensRuns s.env s.hub = true ∧
    readMem s.env s.hub.clean l.addr l.len = some b ∧ imageCheck s.hub l.slot l.len l.job b = stOk ∧ l.slot < s.hub.ens.slots.length) ∧
    (∃ (s : State) (l : Load) (b : List Byte), s.hub.ens.loads.find? (fun l => l.gen.isSome) = some l ∧ ensRuns s.env s.hub = true ∧
    readMem s.env s.hub.clean l.addr l.len = some b ∧ imageCrc b = l.crc.toNat ∧ l.slot < s.hub.ens.slots.length) ∧
    (∃ (s : State) (l : Load), s.hub.ens.loads.find? (fun l => l.gen.isSome) = some l ∧ ensRuns s.env s.hub = true ∧
    ((∀ b, readMem s.env s.hub.clean l.addr l.len = some b → imageCrc b ≠ l.crc.toNat))) ∧
    (∃ (s : State) (i : BitVec 4) (g : GenSel) (x : Gen), slotGen (slotAt s.hub i.toNat) g = some x ∧ alive s.hub = true) ∧
    (∃ (s : State) (i : BitVec 4) (g : GenSel) (x : Gen) (bad : List (Nat × Nat)), slotGen (slotAt s.hub i.toNat) g = some x ∧ alive s.hub = true ∧
    bad ≠ [] ∧ i.toNat < s.hub.ens.slots.length) :=
  ⟨⟨{ tS with hub.ens.loads := [{ slot := 0, addr := 0, len := 160, pend := 3, job := none }] }, { slot := 0, addr := 0, len := 160, pend := 3, job := none }, by decide +kernel, by decide +kernel, by intro b h; exact absurd h (by rw [show readMem _ _ _ _ = none by decide +kernel]; simp)⟩,
    ⟨{ tS with mem := [(0, 49), (1, 69), (2, 86), (3, 83), (4, 1), (8, 160), (12, 156), (13, 32), (14, 253), (15, 180), (16, 7), (22, 33)], hub.ens.loads := [{ slot := 0, addr := 0, len := 160, pend := 3, job := none }], hub.mem.ranges := [{ r := { base := 0, size := 1048576, tier := .faster, block := true, c0 := 0, n := 1, localBase := 0, masks := [] } }] }, { slot := 0, addr := 0, len := 160, pend := 3, job := none }, tImg, by decide +kernel, by decide +kernel, by decide +kernel, by simp only [imageCheck, tImg_crc]; decide +kernel, by decide +kernel⟩,
    ⟨{ tS with mem := [(0, 49), (1, 69), (2, 86), (3, 83), (4, 1), (8, 160), (12, 156), (13, 32), (14, 253), (15, 180), (16, 7), (22, 33)], hub.ens.loads := [{ slot := 0, addr := 0, len := 160, pend := 3, job := none, gen := some { num := 7, levels := 1, trees := 0, total := 0, treeBase := 0, relmask := 1, scale := 0, outs := [], table := [], nodes := [], sets := [], pages := 0 }, crc := 3036487836 }], hub.mem.ranges := [{ r := { base := 0, size := 1048576, tier := .faster, block := true, c0 := 0, n := 1, localBase := 0, masks := [] } }] }, { slot := 0, addr := 0, len := 160, pend := 3, job := none, gen := some { num := 7, levels := 1, trees := 0, total := 0, treeBase := 0, relmask := 1, scale := 0, outs := [], table := [], nodes := [], sets := [], pages := 0 }, crc := 3036487836 }, tImg, by decide +kernel, by decide +kernel, by decide +kernel, by rw [tImg_crc]; decide +kernel, by decide +kernel⟩,
    ⟨{ tS with hub.ens.loads := [{ slot := 0, addr := 0, len := 160, pend := 3, job := none, gen := some { num := 7, levels := 1, trees := 0, total := 0, treeBase := 0, relmask := 1, scale := 0, outs := [], table := [], nodes := [], sets := [], pages := 0 }, crc := 5 }] }, { slot := 0, addr := 0, len := 160, pend := 3, job := none, gen := some { num := 7, levels := 1, trees := 0, total := 0, treeBase := 0, relmask := 1, scale := 0, outs := [], table := [], nodes := [], sets := [], pages := 0 }, crc := 5 }, by decide +kernel, by decide +kernel, by intro b h; exact absurd h (by rw [show readMem _ _ _ _ = none by decide +kernel]; simp)⟩,
    ⟨{ tS with hub.ens.slots := setAt (List.replicate 16 {}) 0 { active := some { num := 7, levels := 1, trees := 0, total := 0, treeBase := 0, relmask := 1, scale := 0, outs := [], table := [], nodes := [], sets := [], pages := 0 } } }, 0, .active, { num := 7, levels := 1, trees := 0, total := 0, treeBase := 0, relmask := 1, scale := 0, outs := [], table := [], nodes := [], sets := [], pages := 0 }, by decide +kernel⟩,
    ⟨{ tS with hub.ens.slots := setAt (List.replicate 16 {}) 0 { active := some { num := 7, levels := 1, trees := 0, total := 0, treeBase := 0, relmask := 1, scale := 0, outs := [], table := [], nodes := [], sets := [], pages := 0 } } }, 0, .active, { num := 7, levels := 1, trees := 0, total := 0, treeBase := 0, relmask := 1, scale := 0, outs := [], table := [], nodes := [], sets := [], pages := 0 }, [(0, 3)], by decide +kernel⟩⟩

/-- The hypotheses of EnsemblePasses are met. -/
theorem meets_EnsemblePasses :
    (∃ (s : State) (p : Pass) (i : Nat) (x : Word), ensRuns s.env s.hub = true ∧ nextSample s.env (assembleAll s.env s.hub.clean) = some (p, i, x) ∧
    (assembleAll s.env s.hub.clean).ens.passes[i]? = some p ∧ p.use.tenantJob = none ∧
    (s.env.tray = true ∨ (rowOf (assembleAll s.env s.hub.clean) x).isSome = true)) ∧
    (∃ (s : State) (p : Pass) (i : Nat) (x : Word) (j : _), ensRuns s.env s.hub = true ∧
    nextSample s.env (assembleAll s.env s.hub.clean) = some (p, i, x) ∧ (assembleAll s.env s.hub.clean).ens.passes[i]? = some p ∧
    p.use.tenantJob = some j) ∧
    (∃ (s : State) (p : Pass) (i : Nat) (x : Word), ensRuns s.env s.hub = true ∧ nextSample s.env (assembleAll s.env s.hub.clean) = some (p, i, x) ∧
    (assembleAll s.env s.hub.clean).ens.passes[i]? = some p ∧ p.use.tenantJob = none ∧ s.env.tray = false ∧ rowOf s.hub x = none) ∧
    (∃ (s : State) (p : Pass) (pend : Nat) (dest : Nat) (job : Option (BitVec 16)), ensRuns s.env s.hub = true ∧
    s.hub.ens.passes.find? (fun p => p.todo.isEmpty) = some p ∧ p.use = .run pend dest job) ∧
    (∃ (s : State) (x : Word) (r : Row) (b : List Byte), s.env.tray = true ∧ alive s.hub = true ∧ s.hub.ens.roomq = [] ∧ rowOf s.hub x = some r ∧
    r.st = .filling ∧ clientBusy s.hub (fun c => c == .fill x.toNat) = false ∧ backingBytes s.env s.hub.clean x = some b) ∧
    (∃ (s : State) (x : Word) (r : Row) (a : Nat), s.env.tray = true ∧ alive s.hub = true ∧ s.hub.ens.roomq = [] ∧ rowOf s.hub x = some r ∧
    r.st = .evicting ∧ r.refill = false ∧ r.waiting = [] ∧ (backingOf s.hub x).bind (backingAddr s.hub) = some a ∧
    clientBusy s.hub (fun c => match c with | .writeback y _ => decide (y = x.toNat) | _ => false) = false) ∧
    (∃ (s : State) (x : Word) (w : SampleWait) (i : Nat) (p : Pass), ensRuns s.env s.hub = true ∧
    s.env.beaten evRowFill w.deadline (nowNs s.hub) = false ∧
    s.hub.ens.waits.find? (fun w => decide (w.ent = x.toNat) && decide (w.deadline ≤ nowNs s.hub) && s.hub.ens.passes.any (fun p => decide (p.seq = w.pass) && !assembled s.hub p.gen x)) = some w ∧
    s.hub.ens.passes.findIdx (fun p => decide (p.seq = w.pass)) = i ∧ s.hub.ens.passes[i]? = some p) :=
  ⟨⟨{ tS with hub.ens.passes := [{ slot := 0, use := .full, todo := [5], gen := { num := 7, levels := 1, trees := 0, total := 0, treeBase := 0, relmask := 1, scale := 0, outs := [], table := [], nodes := [], sets := [], pages := 0 }, tb := 900, period := 20000 }], hub.ens.rows := [(5, {})] }, { slot := 0, use := .full, todo := [5], gen := { num := 7, levels := 1, trees := 0, total := 0, treeBase := 0, relmask := 1, scale := 0, outs := [], table := [], nodes := [], sets := [], pages := 0 }, tb := 900, period := 20000 }, 0, 5, by decide +kernel⟩,
    ⟨{ tS with hub.ens.passes := [{ slot := 0, use := .run 1 0 (some 3), todo := [5], gen := { num := 7, levels := 1, trees := 0, total := 0, treeBase := 0, relmask := 1, scale := 0, outs := [], table := [], nodes := [], sets := [], pages := 0 }, tb := 900, period := 20000 }] }, { slot := 0, use := .run 1 0 (some 3), todo := [5], gen := { num := 7, levels := 1, trees := 0, total := 0, treeBase := 0, relmask := 1, scale := 0, outs := [], table := [], nodes := [], sets := [], pages := 0 }, tb := 900, period := 20000 }, 0, 5, 3, by decide +kernel⟩,
    ⟨{ tS with hub.ens.passes := [{ slot := 0, use := .full, todo := [5], gen := { num := 7, levels := 1, trees := 0, total := 0, treeBase := 0, relmask := 1, scale := 0, outs := [], table := [], nodes := [], sets := [], pages := 0 }, tb := 900, period := 20000 }] }, { slot := 0, use := .full, todo := [5], gen := { num := 7, levels := 1, trees := 0, total := 0, treeBase := 0, relmask := 1, scale := 0, outs := [], table := [], nodes := [], sets := [], pages := 0 }, tb := 900, period := 20000 }, 0, 5, by decide +kernel⟩,
    ⟨{ tS with hub.ens.passes := [{ slot := 0, use := .run 1 0 none, todo := [], gen := { num := 7, levels := 1, trees := 0, total := 0, treeBase := 0, relmask := 1, scale := 0, outs := [], table := [], nodes := [], sets := [], pages := 0 }, tb := 900, period := 20000 }] }, { slot := 0, use := .run 1 0 none, todo := [], gen := { num := 7, levels := 1, trees := 0, total := 0, treeBase := 0, relmask := 1, scale := 0, outs := [], table := [], nodes := [], sets := [], pages := 0 }, tb := 900, period := 20000 }, 1, 0, none, by decide +kernel⟩,
    ⟨{ tT with hub.ens.rows := [(5, { st := .filling })], hub.ens.backing := [(5, 0)], hub.mem.ranges := [{ r := { base := 0, size := 2 ^ 30, tier := .reserved, block := true, c0 := 0, n := 1, localBase := 0, masks := [] } }] }, 5, { st := .filling }, List.replicate 1024 0, by decide +kernel⟩,
    ⟨{ tT with hub.ens.rows := [(5, { st := .evicting })], hub.ens.backing := [(5, 0)], hub.mem.ranges := [{ r := { base := 0, size := 2 ^ 30, tier := .reserved, block := true, c0 := 0, n := 1, localBase := 0, masks := [] } }] }, 5, { st := .evicting }, 128 * 2 ^ 20, by decide +kernel⟩,
    ⟨{ tS with hub.ens.passes := [{ slot := 0, use := .full, todo := [5], gen := { num := 7, levels := 1, trees := 0, total := 0, treeBase := 0, relmask := 1, scale := 0, outs := [], table := [], nodes := [], sets := [], pages := 0 }, tb := 900, period := 20000 }], hub.ens.waits := [{ pass := 0, ent := 5, deadline := 5 }] }, 5, { pass := 0, ent := 5, deadline := 5 }, 0, { slot := 0, use := .full, todo := [5], gen := { num := 7, levels := 1, trees := 0, total := 0, treeBase := 0, relmask := 1, scale := 0, outs := [], table := [], nodes := [], sets := [], pages := 0 }, tb := 900, period := 20000 }, by decide +kernel⟩⟩

/-- The hypotheses of MarginPlanCommands are met. -/
theorem meets_MarginPlanCommands :
    (∃ (c : Cmd) (s : State), passes opPlanMode (withOp 0 c) s = true) ∧
    (∃ (c : Cmd) (s : State), passes opPlanSet (withOp 1 c) s = true ∧ (withOp 1 c).n 2 < s.hub.age.zones.length) ∧
    (∃ (c : Cmd) (s : State), passes opPlanAuto (withOp 2 c) s = true ∧ (withOp 2 c).n 2 < s.hub.age.zones.length) ∧
    (∃ (c : Cmd) (s : State) (q : BitVec 16) (r : Nat), passes opPlanAck (withOp 3 c) s = true ∧ ((withOp 3 c).w 2).setWidth 16 = q ∧
    (List.range 8).find? (fun r => (zone s.hub r).sent.any (fun p => decide (p.seq = q))) = some r ∧ r < s.hub.age.zones.length ∧
    (withOp 3 c).n 2 < 65536 ∧ q = s.hub.age.sentSeq ∧ s.hub.age.ackDue.any (fun p => decide (p.1 = q)) = true) ∧
    (∃ (c : Cmd) (s : State) (q : BitVec 16), passes opPlanAck (withOp 3 c) s = true ∧ ((withOp 3 c).w 2).setWidth 16 = q ∧
    ((List.range 8).find? (fun r => (zone s.hub r).sent.any (fun p => decide (p.seq = q))) = none ∨ 65536 ≤ (withOp 3 c).n 2 ∨ q ≠ s.hub.age.sentSeq ∨ s.hub.age.ackDue.any (fun p => decide (p.1 = q)) = false)) ∧
    (∃ (c : Cmd) (s : State) (p : Probe), passes opProbeDone (withOp 4 c) s = true ∧ probeOf s.hub ((withOp 4 c).w 2) = some p ∧
    nowNs s.hub ≤ p.notice + 1000000000) ∧
    (∃ (c : Cmd) (s : State), passes opProbeDone (withOp 4 c) s = true ∧
    ((∀ p, probeOf s.hub ((withOp 4 c).w 2) = some p → p.notice + 1000000000 < nowNs s.hub))) ∧
    (∃ (c : Cmd) (s : State), passes opLifeRead c s = true ∧ c.params.length = 0) ∧
    (∃ (c : Cmd) (s : State), passes opLifeRead c s = true ∧ c.params.length = 1) ∧
    (∃ (c : Cmd) (s : State), passes opLifeRead c s = true ∧ c.params.length = 2) :=
  ⟨⟨tC [0], tS, by decide +kernel⟩,
    ⟨tC [3, 0, 1000], tS, by decide +kernel⟩,
    ⟨tC [3], tS, by decide +kernel⟩,
    ⟨tC [4], { tS with hub.age.zones := List.replicate 8 { sent := some { seq := 4 } }, hub.age.sentSeq := 4, hub.age.ackDue := [(4, 2000)] }, 4, 0, by decide +kernel⟩,
    ⟨tC [4], tS, 4, by decide +kernel⟩,
    ⟨tC [9], { tS with hub.age.probes := [{ core := 5, seq := 9, notice := 500, base := 1600 }] }, { core := 5, seq := 9, notice := 500, base := 1600 }, by decide +kernel⟩,
    ⟨tC [9], tS, by decide +kernel, by intro p h; exact absurd h (by rw [show probeOf _ _ = none by decide +kernel]; simp)⟩,
    ⟨tC [], tS, by decide +kernel⟩,
    ⟨tC [8], tS, by decide +kernel⟩,
    ⟨tC [8, 127], tS, by decide +kernel⟩⟩

/-- The hypotheses of AgeingEvents are met. -/
theorem meets_AgeingEvents :
    (∃ (s : State) (r : RegionNo) (k : MonKind) (m : BitVec 3) (v : ℤ) (old : Monitor), ageRuns s.hub = true ∧
    getAt ((zone s.hub r.toNat).mons k) m.toNat {} = old ∧ old.failed = false ∧
    ((k = .pathDelay → s.env.tray = false → (region s.hub r.toNat).stopped = false)) ∧ r.toNat < s.hub.age.zones.length ∧ monInRange k v = false) ∧
    (∃ (s : State) (r : RegionNo) (k : MonKind) (m : BitVec 3) (v : ℤ) (mn : Int) (old : Monitor) (new : Monitor) (l : List Monitor), ageRuns s.hub = true ∧
    getAt ((zone s.hub r.toNat).mons k) m.toNat {} = old ∧ old.failed = false ∧
    ((k = .pathDelay → s.env.tray = false → (region s.hub r.toNat).stopped = false)) ∧ r.toNat < s.hub.age.zones.length ∧ monInRange k v = true ∧
    old.read v mn (if k == .pathDelay then driftOf s.env s.hub r.toNat m.toNat v else missing) (nowNs s.hub) = new ∧
    (if old.value = some v then setAt ((zone s.hub r.toNat).mons k) m.toNat new else markChanged m.toNat (setAt ((zone s.hub r.toNat).mons k) m.toNat new)) = l) ∧
    (∃ (s : State), alive s.hub = true ∧ s.hub.age.lastTick + 100000 ≤ nowNs s.hub ∧ s.hub.age.remUs.length = 9 ∧ s.hub.age.planes.length = 9) ∧
    (∃ (s : State), serving s.hub = true ∧ s.hub.age.lastConc + 3600000000000 ≤ nowNs s.hub ∧ s.hub.age.zones.length = 8) ∧
    (∃ (s : State) (r : RegionNo) (next : Option (Nat × Int × Nat)), serving s.hub = true ∧
    (zone s.hub r.toNat).lastPlan + s.hub.age.interval ≤ nowNs s.hub ∧ r.toNat < s.hub.age.zones.length ∧
    (if (zone s.hub r.toNat).manual || decide (s.hub.age.mode = 0) then none else nextPlan s.hub r.toNat) = next) ∧
    (∃ (s : State) (p : _), working s.hub = true ∧ s.hub.age.ackDue.find? (fun p => decide (p.2 ≤ nowNs s.hub)) = some p ∧
    s.env.beaten evPlanAck p.2 (nowNs s.hub) = false) ∧
    (∃ (s : State) (q : _) (p : Probe), working s.hub = true ∧ probeOf s.hub q = some p ∧ p.notice + 1000000000 ≤ nowNs s.hub ∧
    s.env.beaten evProbeDone (p.notice + 1000000000) (nowNs s.hub) = false) ∧
    (∃ (s : State) (a : Nat) (bs : List Byte), alive s.hub = true ∧ s.hub.img.isSome = true ∧ agePlaceOf s.hub ((s.hub.age.nvgen + 1).toNat % 2) = a ∧
    ageBytes (s.hub.age.nvgen + 1).toNat s.hub.age = bs ∧ s.hub.age.lastPersist + s.hub.age.persist ≤ nowNs s.hub) ∧
    (∃ (s : State) (a : Nat) (bs : List Byte), alive s.hub = true ∧ s.hub.img.isSome = true ∧ agePlaceOf s.hub ((s.hub.age.nvgen + 1).toNat % 2) = a ∧
    ageBytes (s.hub.age.nvgen + 1).toNat s.hub.age = bs ∧ 200 ≤ s.hub.age.changed.length) :=
  ⟨⟨tS, 3, .temperature, 2, 601, {}, by decide +kernel⟩,
    ⟨tS, 3, .temperature, 2, 100, 0, {}, ({} : Monitor).read (100 : ℤ) (0 : Int) missing 1000, markChanged 2 (setAt (List.replicate 8 {}) 2 (({} : Monitor).read (100 : ℤ) (0 : Int) missing 1000 : Monitor)), by decide +kernel⟩,
    ⟨{ tS with hub.time.tb := BitVec.ofNat 96 (2 ^ 32 * 10 ^ 15) }, by decide +kernel⟩,
    ⟨{ tS with hub.time.tb := BitVec.ofNat 96 (2 ^ 32 * 10 ^ 15) }, by decide +kernel⟩,
    ⟨{ tS with hub.time.tb := BitVec.ofNat 96 (2 ^ 32 * 10 ^ 15) }, 3, nextPlan ({ tS with hub.time.tb := BitVec.ofNat 96 (2 ^ 32 * 10 ^ 15) } : State).hub 3, by decide +kernel⟩,
    ⟨{ tS with hub.age.ackDue := [(4, 900)] }, (4, 900), by decide +kernel⟩,
    ⟨{ tS with hub.age.probes := [{ core := 5, seq := 9, notice := 500, base := 1600 }], hub.time.tb := BitVec.ofNat 96 (2 ^ 32 * 10 ^ 15) }, 9, { core := 5, seq := 9, notice := 500, base := 1600 }, by decide +kernel⟩,
    ⟨{ tS with hub.time.tb := BitVec.ofNat 96 (2 ^ 32 * 10 ^ 15) }, agePlaceOf ({ tS with hub.time.tb := BitVec.ofNat 96 (2 ^ 32 * 10 ^ 15) } : State).hub 1, ageBytes 1 ({ tS with hub.time.tb := BitVec.ofNat 96 (2 ^ 32 * 10 ^ 15) } : State).hub.age, by decide +kernel, by decide +kernel, rfl, rfl, by decide +kernel⟩,
    ⟨{ tS with hub.age.changed := List.replicate 200 (0, 0) }, agePlaceOf ({ tS with hub.age.changed := List.replicate 200 (0, 0) } : State).hub 1, ageBytes 1 ({ tS with hub.age.changed := List.replicate 200 (0, 0) } : State).hub.age, by decide +kernel, by decide +kernel, rfl, rfl, by decide +kernel⟩⟩

/-- The hypotheses of RecorderCommands are met. -/
theorem meets_RecorderCommands :
    (∃ (c : Cmd) (s : State), passes opRecRead c s = true ∧ areaRecs s.env s.hub (c.n 1) (c.n 2) = none) ∧
    (∃ (c : Cmd) (s : State) (l : List (List Byte)), passes opRecRead c s = true ∧ areaRecs s.env s.hub (c.n 1) (c.n 2) = some l ∧ c.d 3 = 0) ∧
    (∃ (c : Cmd) (s : State) (l : List (List Byte)), passes opRecRead c s = true ∧ areaRecs s.env s.hub (c.n 1) (c.n 2) = some l ∧ c.d 3 ≠ 0 ∧
    writable s.hub (c.d 3) l.flatten.length = true) ∧
    (∃ (c : Cmd) (s : State) (l : List (List Byte)), passes opRecRead c s = true ∧ areaRecs s.env s.hub (c.n 1) (c.n 2) = some l ∧ c.d 3 ≠ 0 ∧
    writable s.hub (c.d 3) l.flatten.length = false) ∧
    (∃ (c : Cmd) (s : State) (ch : BitVec 2), passes opRecMark c s = true ∧ c.req = .channel ch ∧ (chan s.hub ch.toNat).rbuf = none ∧ alive s.hub = true ∧
    s.hub.log.lossDue = 0 ∧ s.hub.log.queue.length < 64) :=
  ⟨⟨tC [6, 0, 0, 0], tS, by decide +kernel⟩,
    ⟨tC [0, 0, 0, 0], { tS with hub.log.bedrock := [{ type := 11, sev := 1, cmpl := 0, rseq := 4, tb := 900, entity := 0, unit := 10, code := 0, boot := 1, payload := [7, 0] }] }, [Rec.bytes { type := 11, sev := 1, cmpl := 0, rseq := 4, tb := 900, entity := 0, unit := 10, code := 0, boot := 1, payload := [7, 0] }], by decide +kernel⟩,
    ⟨tC [0, 0, 0, 64], { tS with hub.log.bedrock := [{ type := 11, sev := 1, cmpl := 0, rseq := 4, tb := 900, entity := 0, unit := 10, code := 0, boot := 1, payload := [7, 0] }], hub.mem.ranges := [{ r := { base := 0, size := 1048576, tier := .faster, block := true, c0 := 0, n := 1, localBase := 0, masks := [] } }] }, [Rec.bytes { type := 11, sev := 1, cmpl := 0, rseq := 4, tb := 900, entity := 0, unit := 10, code := 0, boot := 1, payload := [7, 0] }], by decide +kernel⟩,
    ⟨tC [0, 0, 0, 64], { tS with hub.log.bedrock := [{ type := 11, sev := 1, cmpl := 0, rseq := 4, tb := 900, entity := 0, unit := 10, code := 0, boot := 1, payload := [7, 0] }] }, [Rec.bytes { type := 11, sev := 1, cmpl := 0, rseq := 4, tb := 900, entity := 0, unit := 10, code := 0, boot := 1, payload := [7, 0] }], by decide +kernel⟩,
    ⟨tC [7], { tS with hub.log.bedrock := [{ type := 11, sev := 1, cmpl := 0, rseq := 4, tb := 900, entity := 0, unit := 10, code := 0, boot := 1, payload := [7, 0] }] }, 0, by decide +kernel⟩⟩

/-- The hypotheses of RecorderEvents are met. -/
theorem meets_RecorderEvents :
    (∃ (s : State) (r : Rec) (l : List Rec), alive s.hub = true ∧ s.hub.log.queue = r :: l ∧ s.hub.log.full = false ∧
    sizeOf_ s.hub.log.bedrock + r.size ≤ 32768) ∧
    (∃ (s : State) (r : Rec) (l : List Rec), alive s.hub = true ∧ s.hub.log.queue = r :: l ∧
    (s.hub.log.full = true ∨ 32768 < sizeOf_ s.hub.log.bedrock + r.size)) ∧
    (∃ (s : State) (r : Rec) (l : List Rec) (seg : List Rec) (bs : List Byte), mirrorOn s.hub = true ∧ unmirrored s.hub = r :: l ∧
    s.hub.log.urgent = false ∧ (256 ≤ pendingBytes s.hub ∨ r.took + 10000000 ≤ nowNs s.hub) ∧
    (r :: l).takeWhile (fun x => toSlot s.hub x == toSlot s.hub r) = seg ∧ ((seg.flatMap Rec.bytes).drop s.hub.log.part).take 256 = bs) ∧
    (∃ (s : State) (r : Rec) (l : List Rec), mirrorOn s.hub = true ∧ unmirrored s.hub = r :: l ∧ s.hub.log.urgent = true) ∧
    (∃ (s : State), s.hub.log.nvOn = true ∧ s.hub.log.erasing = false ∧ s.hub.log.erased < 262144 ∧ s.hub.sys.pfwLow = false ∧ alive s.hub = true) ∧
    (∃ (s : State), s.hub.log.erasing = true ∧ s.hub.log.suspended = false ∧ portOn s.hub = true) ∧
    (∃ (s : State) (r : Rec) (body : List Byte), serving s.hub = true ∧ (bodyOf (unsent s.hub) 0).getLast? = some r ∧
    (bodyOf (unsent s.hub) 0).flatMap Rec.bytes = body ∧ s.env.tray = false ∧ queueFill s.hub + photenLen body ≤ 65536) ∧
    (∃ (s : State) (r : Rec) (body : List Byte) (a : Nat), serving s.hub = true ∧ (bodyOf (unsent s.hub) 0).getLast? = some r ∧
    (bodyOf (unsent s.hub) 0).flatMap Rec.bytes = body ∧ s.env.tray = true ∧ trayLogAddr s.hub = some a) ∧
    (∃ (s : State) (p : List Byte) (port : BitVec 6) (a : Nat), s.env.tray = true ∧ photenOk s.env s.hub 2 p port.toNat = true ∧
    trayLogAddr s.hub = some a) :=
  ⟨⟨{ tS with hub.log.queue := [{ type := 11, sev := 1, cmpl := 0, rseq := 4, tb := 900, entity := 0, unit := 10, code := 0, boot := 1, payload := [7, 0] }] }, { type := 11, sev := 1, cmpl := 0, rseq := 4, tb := 900, entity := 0, unit := 10, code := 0, boot := 1, payload := [7, 0] }, [], by decide +kernel⟩,
    ⟨{ tS with hub.log.queue := [{ type := 11, sev := 1, cmpl := 0, rseq := 4, tb := 900, entity := 0, unit := 10, code := 0, boot := 1, payload := [7, 0] }], hub.log.full := true }, { type := 11, sev := 1, cmpl := 0, rseq := 4, tb := 900, entity := 0, unit := 10, code := 0, boot := 1, payload := [7, 0] }, [], by decide +kernel⟩,
    ⟨{ tS with hub.log.drift := [{ type := 11, sev := 1, cmpl := 0, rseq := 4, tb := 900, entity := 0, unit := 10, code := 0, boot := 1, payload := [7, 0] }], hub.log.nvOn := true, hub.log.erased := 65536, hub.time.tb := BitVec.ofNat 96 (2 ^ 32 * 10 ^ 8) }, { type := 11, sev := 1, cmpl := 0, rseq := 4, tb := 900, entity := 0, unit := 10, code := 0, boot := 1, payload := [7, 0] }, [], [{ type := 11, sev := 1, cmpl := 0, rseq := 4, tb := 900, entity := 0, unit := 10, code := 0, boot := 1, payload := [7, 0] }], (Rec.bytes { type := 11, sev := 1, cmpl := 0, rseq := 4, tb := 900, entity := 0, unit := 10, code := 0, boot := 1, payload := [7, 0] }).take 256, by decide +kernel⟩,
    ⟨{ tS with hub.log.drift := [{ type := 11, sev := 1, cmpl := 0, rseq := 4, tb := 900, entity := 0, unit := 10, code := 0, boot := 1, payload := [7, 0] }], hub.log.urgent := true, hub.log.nvOn := true, hub.log.erased := 65536 }, { type := 11, sev := 1, cmpl := 0, rseq := 4, tb := 900, entity := 0, unit := 10, code := 0, boot := 1, payload := [7, 0] }, [], by decide +kernel⟩,
    ⟨{ tS with hub.log.nvOn := true }, by decide +kernel⟩,
    ⟨{ tS with hub.log.erasing := true }, by decide +kernel⟩,
    ⟨{ tS with hub.log.drift := [{ type := 11, sev := 1, cmpl := 0, rseq := 4, tb := 900, entity := 0, unit := 10, code := 0, boot := 1, payload := [7, 0] }] }, { type := 11, sev := 1, cmpl := 0, rseq := 4, tb := 900, entity := 0, unit := 10, code := 0, boot := 1, payload := [7, 0] }, Rec.bytes { type := 11, sev := 1, cmpl := 0, rseq := 4, tb := 900, entity := 0, unit := 10, code := 0, boot := 1, payload := [7, 0] }, by decide +kernel⟩,
    ⟨{ tT with hub.log.drift := [{ type := 11, sev := 1, cmpl := 0, rseq := 4, tb := 900, entity := 0, unit := 10, code := 0, boot := 1, payload := [7, 0] }], hub.mem.ranges := [{ r := { base := 0, size := 2 ^ 38, tier := .reserved, block := true, c0 := 0, n := 1, localBase := 0, masks := [] } }] }, { type := 11, sev := 1, cmpl := 0, rseq := 4, tb := 900, entity := 0, unit := 10, code := 0, boot := 1, payload := [7, 0] }, Rec.bytes { type := 11, sev := 1, cmpl := 0, rseq := 4, tb := 900, entity := 0, unit := 10, code := 0, boot := 1, payload := [7, 0] }, trayLogSize, by decide +kernel⟩,
    ⟨{ tT with hub.log.drift := [{ type := 11, sev := 1, cmpl := 0, rseq := 4, tb := 900, entity := 0, unit := 10, code := 0, boot := 1, payload := [7, 0] }], hub.mem.ranges := [{ r := { base := 0, size := 2 ^ 38, tier := .reserved, block := true, c0 := 0, n := 1, localBase := 0, masks := [] } }] }, [18, 0, 64, 0, 0, 2, 0, 0, 0, 0, 0, 1, 0, 0, 0, 0, 0, 0, 0, 0, 0, 0, 0, 1, 0, 0, 0, 0, 152, 239, 250, 245, 0, 0, 0, 0, 0, 0, 0, 0, 0, 0, 0, 0, 0, 0, 0, 0, 0, 0, 0, 0, 0, 0, 0, 0, 0, 0, 0, 0, 0, 0, 0, 0], 1, trayLogSize, by decide +kernel⟩⟩

/-- The hypotheses of BroadcastCommands are met. -/
theorem meets_BroadcastCommands :
    (∃ (c : Cmd) (s : State) (g : Group) (up : Nat), passes opBcastPrepare c s = true ∧ groupOf s.hub (c.n 1) = some g ∧ s.env.tray = true ∧
    g.root = myTray s.hub ∧ photenShut s.hub g = false ∧ ((Tab.find s.hub.bc.last (c.n 1)).map (fun l => ahead 16 (c.n 2) l.toNat)).getD 1 = up ∧
    1 ≤ up ∧ up ≤ 32767 ∧ 4 ≤ s.hub.bc.held.length) ∧
    (∃ (c : Cmd) (s : State) (g : Group) (up : Nat), passes opBcastPrepare c s = true ∧ groupOf s.hub (c.n 1) = some g ∧ s.env.tray = true ∧
    g.root = myTray s.hub ∧ photenShut s.hub g = false ∧ ((Tab.find s.hub.bc.last (c.n 1)).map (fun l => ahead 16 (c.n 2) l.toNat)).getD 1 = up ∧
    1 ≤ up ∧ up ≤ 32767 ∧ s.hub.bc.held.length < 4 ∧ g.dies = []) ∧
    (∃ (c : Cmd) (s : State) (g : Group) (up : Nat), passes opBcastPrepare c s = true ∧ groupOf s.hub (c.n 1) = some g ∧ s.env.tray = true ∧
    g.root = myTray s.hub ∧ photenShut s.hub g = false ∧ ((Tab.find s.hub.bc.last (c.n 1)).map (fun l => ahead 16 (c.n 2) l.toNat)).getD 1 = up ∧
    1 ≤ up ∧ up ≤ 32767 ∧ s.hub.bc.held.length < 4 ∧ g.dies ≠ [] ∧ writable s.hub (c.d 4) 16384 = false) ∧
    (∃ (c : Cmd) (s : State) (g : Group) (up : Nat), passes opBcastPrepare c s = true ∧ groupOf s.hub (c.n 1) = some g ∧ s.env.tray = true ∧
    g.root = myTray s.hub ∧ photenShut s.hub g = false ∧ ((Tab.find s.hub.bc.last (c.n 1)).map (fun l => ahead 16 (c.n 2) l.toNat)).getD 1 = up ∧
    1 ≤ up ∧ up ≤ 32767 ∧ s.hub.bc.held.length < 4 ∧ g.dies ≠ [] ∧ writable s.hub (c.d 4) 16384 = true) ∧
    (∃ (c : Cmd) (s : State) (g : Group) (up : Nat), passes opBcastPrepare c s = true ∧ groupOf s.hub (c.n 1) = some g ∧ s.env.tray = true ∧
    g.root = myTray s.hub ∧ photenShut s.hub g = false ∧ ((Tab.find s.hub.bc.last (c.n 1)).map (fun l => ahead 16 (c.n 2) l.toNat)).getD 1 = up ∧
    (up = 0 ∨ 32767 < up)) ∧
    (∃ (c : Cmd) (s : State), passes opBcastPrepare c s = true ∧ ((∀ g, groupOf s.hub (c.n 1) = some g → s.env.tray = false ∨ g.root ≠ myTray s.hub))) ∧
    (∃ (c : Cmd) (s : State) (b : Bcast), passes opBcastCommit c s = true ∧ heldB s.hub (c.n 1) (c.n 2) = some b ∧ b.back = .root ∧
    photenShut s.hub (groupB s.hub (c.n 1)) = false ∧ b.phase = 1 ∧ (groupB s.hub (c.n 1)).dies = []) ∧
    (∃ (c : Cmd) (s : State) (b : Bcast), passes opBcastCommit c s = true ∧ heldB s.hub (c.n 1) (c.n 2) = some b ∧ b.back = .root ∧
    photenShut s.hub (groupB s.hub (c.n 1)) = false ∧ b.phase = 1 ∧ (groupB s.hub (c.n 1)).dies ≠ []) ∧
    (∃ (c : Cmd) (s : State) (b : Bcast), passes opBcastCommit c s = true ∧ heldB s.hub (c.n 1) (c.n 2) = some b ∧ b.back = .root ∧
    photenShut s.hub (groupB s.hub (c.n 1)) = false ∧ b.phase ≠ 1) ∧
    (∃ (c : Cmd) (s : State), passes opBcastCommit c s = true ∧ ((∀ b, heldB s.hub (c.n 1) (c.n 2) = some b → b.back ≠ .root))) :=
  ⟨⟨tC [0, 1, 0, 0, 0, 1, 1, 1, 1], { tT with hub.bc.held := List.replicate 4 { group := 0, bid := 1, window := 0, cmd := [], back := .root } }, (imgOf ({ tT with hub.bc.held := List.replicate 4 { group := 0, bid := 1, window := 0, cmd := [], back := .root } } : State).hub).fleet, 1, by decide +kernel⟩,
    ⟨tC [0, 1, 0, 0, 0, 1, 1, 1, 1], tT, (imgOf (tT : State).hub).fleet, 1, by decide +kernel⟩,
    ⟨tC [0, 1, 0, 0, 0, 1, 1, 1, 1], { tT with hub.img := some { fleet := { root := 0, dies := [130] } } }, (imgOf ({ tT with hub.img := some { fleet := { root := 0, dies := [130] } } } : State).hub).fleet, 1, by decide +kernel⟩,
    ⟨tC [0, 1, 0, 0, 0, 1, 1, 1, 1], { tT with hub.img := some { fleet := { root := 0, dies := [130] } }, hub.mem.ranges := [{ r := { base := 0, size := 1048576, tier := .faster, block := true, c0 := 0, n := 1, localBase := 0, masks := [] } }] }, (imgOf ({ tT with hub.img := some { fleet := { root := 0, dies := [130] } }, hub.mem.ranges := [{ r := { base := 0, size := 1048576, tier := .faster, block := true, c0 := 0, n := 1, localBase := 0, masks := [] } }] } : State).hub).fleet, 1, by decide +kernel⟩,
    ⟨tC [0, 1, 0, 0, 0, 1, 1, 1, 1], { tT with hub.bc.last := [(0, 5)] }, (imgOf ({ tT with hub.bc.last := [(0, 5)] } : State).hub).fleet, 65532, by decide +kernel⟩,
    ⟨tC [0, 1, 0, 0, 0, 1, 1, 1, 1], tS, by decide +kernel, by intro g _; exact .inl (by decide +kernel)⟩,
    ⟨tC [0, 1, 0], { tT with hub.bc.held := [{ group := 0, bid := 1, window := 0, cmd := [], back := .root, phase := 1 }] }, { group := 0, bid := 1, window := 0, cmd := [], back := .root, phase := 1 }, by decide +kernel, by decide +kernel, rfl, by decide +kernel, by decide +kernel, by decide +kernel⟩,
    ⟨tC [0, 1, 0], { tT with hub.bc.held := [{ group := 0, bid := 1, window := 0, cmd := [], back := .root, phase := 1 }], hub.img := some { fleet := { root := 0, dies := [130] } } }, { group := 0, bid := 1, window := 0, cmd := [], back := .root, phase := 1 }, by decide +kernel⟩,
    ⟨tC [0, 1, 0], { tT with hub.bc.held := [{ group := 0, bid := 1, window := 0, cmd := [], back := .root }] }, { group := 0, bid := 1, window := 0, cmd := [], back := .root }, by decide +kernel⟩,
    ⟨tC [0, 1, 0], tT, by decide +kernel, by intro b h; exact absurd h (by rw [show heldB _ _ _ = none by decide +kernel]; simp)⟩⟩

/-- The hypotheses of BroadcastMessages are met. -/
theorem meets_BroadcastMessages :
    (∃ (s : State) (m : BcastIn) (x : BRx), bcastMsg s.env s.hub m = some x ∧ x.msg.phase = 0 ∧ fromAbove s.env x = true ∧
    heldB s.hub x.msg.group x.msg.bid = none ∧ seenB s.hub x.msg.group x.msg.bid = none ∧ tooOld s.hub x.msg.group x.msg.bid = false ∧
    s.hub.bc.held.length < 4) ∧
    (∃ (s : State) (m : BcastIn) (x : BRx), bcastMsg s.env s.hub m = some x ∧ x.msg.phase = 0 ∧ fromAbove s.env x = true ∧
    ((heldB s.hub x.msg.group x.msg.bid).isSome = true ∨ (seenB s.hub x.msg.group x.msg.bid).isSome = true)) ∧
    (∃ (s : State) (m : BcastIn) (x : BRx), bcastMsg s.env s.hub m = some x ∧ x.msg.phase = 0 ∧ fromAbove s.env x = true ∧
    heldB s.hub x.msg.group x.msg.bid = none ∧ seenB s.hub x.msg.group x.msg.bid = none ∧
    (tooOld s.hub x.msg.group x.msg.bid = true ∨ 4 ≤ s.hub.bc.held.length)) ∧
    (∃ (s : State) (m : BcastIn) (x : BRx), bcastMsg s.env s.hub m = some x ∧ (x.msg.phase = 1 ∨ x.msg.phase = 3) ∧
    ((∀ b, heldB s.hub x.msg.group x.msg.bid = some b → b.phase ≠ x.msg.phase - 1))) ∧
    (∃ (s : State) (m : BcastIn) (x : BRx) (b : Bcast) (r : Route), bcastMsg s.env s.hub m = some x ∧ (x.msg.phase = 1 ∨ x.msg.phase = 3) ∧
    heldB s.hub x.msg.group x.msg.bid = some b ∧ b.phase = x.msg.phase - 1 ∧ x.back = .sb r ∧ (s.env.tray && decide (b.tree = 2)) = false) ∧
    (∃ (s : State) (m : BcastIn) (x : BRx) (b : Bcast) (n : Node) (ts : List Nat), bcastMsg s.env s.hub m = some x ∧ (x.msg.phase = 1 ∨ x.msg.phase = 3) ∧
    heldB s.hub x.msg.group x.msg.bid = some b ∧ b.phase = x.msg.phase - 1 ∧ x.back = .photen n ∧
    b.awaitT.filter (fun y => decide (y = x.src - 2 ^ 17) || decide (viaComb (groupB s.hub x.msg.group) y = some (x.src - 2 ^ 17))) = ts ∧ ts = []) ∧
    (∃ (s : State) (m : BcastIn) (x : BRx) (b : Bcast) (n : Node) (ts : List Nat), bcastMsg s.env s.hub m = some x ∧ (x.msg.phase = 1 ∨ x.msg.phase = 3) ∧
    heldB s.hub x.msg.group x.msg.bid = some b ∧ b.phase = x.msg.phase - 1 ∧ x.back = .photen n ∧
    b.awaitT.filter (fun y => decide (y = x.src - 2 ^ 17) || decide (viaComb (groupB s.hub x.msg.group) y = some (x.src - 2 ^ 17))) = ts ∧ ts ≠ []) ∧
    (∃ (s : State) (g : BitVec 16) (d : BitVec 16) (b : Bcast), heldB s.hub g.toNat d.toNat = some b ∧ upState s.hub = true ∧ dueB s.hub b = true ∧
    s.env.beaten evBcast (deadlineB b) (nowNs s.hub) = false ∧ s.env.tray = false ∧ b.treeDue ≤ nowNs s.hub) ∧
    (∃ (s : State) (g : BitVec 16) (d : BitVec 16) (b : Bcast), heldB s.hub g.toNat d.toNat = some b ∧ upState s.hub = true ∧ dueB s.hub b = true ∧
    s.env.beaten evBcast (deadlineB b) (nowNs s.hub) = false ∧ s.env.tray = true ∧ b.tree = 0 ∧ b.treeDue ≤ nowNs s.hub ∧ lackingD s.hub b ≠ [] ∧
    0 < s.hub.bc.tack ∧ (b.awaitT = [] ∨ nowNs s.hub < b.upDue)) ∧
    (∃ (s : State) (g : BitVec 16) (d : BitVec 16) (b : Bcast), heldB s.hub g.toNat d.toNat = some b ∧ upState s.hub = true ∧ dueB s.hub b = true ∧
    s.env.beaten evBcast (deadlineB b) (nowNs s.hub) = false ∧ s.env.tray = true ∧ b.tree = 1 ∧ b.treeDue ≤ nowNs s.hub ∧ b.awaitT = []) ∧
    (∃ (s : State) (m : BcastIn) (x : BRx) (b : Bcast), bcastMsg s.env s.hub m = some x ∧ fromAbove s.env x = true ∧
    heldB s.hub x.msg.group x.msg.bid = some b ∧ b.phase < 2 ∧ (x.msg.phase = 4 ∨ (x.msg.phase = 2 ∧
    (s.env.tray = true ∨ b.member = false ∨ 1 < b.status.toNat)))) ∧
    (∃ (s : State) (m : BcastIn) (x : BRx) (b : Bcast) (out : Bool), bcastMsg s.env s.hub m = some x ∧ fromAbove s.env x = true ∧
    heldB s.hub x.msg.group x.msg.bid = some b ∧ b.phase < 2 ∧
    (bitOf (beAt x.msg.data 0 128) (dieNo s.env s.hub / 128 % 1024) || bitOf (beAt x.msg.data 128 16) (dieNo s.env s.hub % 128)) = out ∧
    x.msg.phase = 2 ∧ s.env.tray = false ∧ b.member = true ∧ b.status.toNat ≤ 1 ∧ out = true) ∧
    (∃ (s : State) (m : BcastIn) (x : BRx) (b : Bcast) (out : Bool), bcastMsg s.env s.hub m = some x ∧ fromAbove s.env x = true ∧
    heldB s.hub x.msg.group x.msg.bid = some b ∧ b.phase < 2 ∧
    (bitOf (beAt x.msg.data 0 128) (dieNo s.env s.hub / 128 % 1024) || bitOf (beAt x.msg.data 128 16) (dieNo s.env s.hub % 128)) = out ∧
    x.msg.phase = 2 ∧ s.env.tray = false ∧ b.member = true ∧ b.status.toNat ≤ 1 ∧ out = false ∧ b.window ≠ 0 ∧ windowEnded s.hub b.window = false) ∧
    (∃ (s : State) (m : BcastIn) (x : BRx) (b : Bcast) (out : Bool), bcastMsg s.env s.hub m = some x ∧ fromAbove s.env x = true ∧
    heldB s.hub x.msg.group x.msg.bid = some b ∧ b.phase < 2 ∧
    (bitOf (beAt x.msg.data 0 128) (dieNo s.env s.hub / 128 % 1024) || bitOf (beAt x.msg.data 128 16) (dieNo s.env s.hub % 128)) = out ∧
    x.msg.phase = 2 ∧ s.env.tray = false ∧ b.member = true ∧ b.status.toNat ≤ 1 ∧ out = false ∧ (b.window = 0 ∨ windowEnded s.hub b.window = true)) ∧
    (∃ (s : State) (g : BitVec 16) (d : BitVec 16) (b : Bcast), heldB s.hub g.toNat d.toNat = some b ∧ upState s.hub = true ∧ b.back ≠ .root ∧
    b.phase < 2 ∧ b.hold + s.hub.bc.hold ≤ nowNs s.hub ∧ s.env.beaten evCommit (b.hold + s.hub.bc.hold) (nowNs s.hub) = false) :=
  ⟨⟨{ tS with hub.sb.ports := [{}, { state := 2 }] }, .sb 1 { ftype := 9, lseq := 1, nhops := 0, payload := .bcast [0, 0, 0, 1, 0, 0, 0, 0, 0, 0, 0, 0, 0, 0, 0, 0] }, (bcastMsg ({ tS with hub.sb.ports := [{}, { state := 2 }] } : State).env ({ tS with hub.sb.ports := [{}, { state := 2 }] } : State).hub (.sb 1 { ftype := 9, lseq := 1, nhops := 0, payload := .bcast [0, 0, 0, 1, 0, 0, 0, 0, 0, 0, 0, 0, 0, 0, 0, 0] } : BcastIn)).getD { src := 0, back := .root, msg := { phase := 0, group := 0, bid := 0 } }, by exact tSome (by decide +kernel), by decide +kernel, by decide +kernel, by decide +kernel, by decide +kernel, by decide +kernel, by decide +kernel⟩,
    ⟨{ tS with hub.sb.ports := [{}, { state := 2 }], hub.bc.held := [{ group := 0, bid := 1, window := 0, cmd := [], back := .sb (mkRoute [1]) }] }, .sb 1 { ftype := 9, lseq := 1, nhops := 0, payload := .bcast [0, 0, 0, 1, 0, 0, 0, 0, 0, 0, 0, 0, 0, 0, 0, 0] }, (bcastMsg ({ tS with hub.sb.ports := [{}, { state := 2 }], hub.bc.held := [{ group := 0, bid := 1, window := 0, cmd := [], back := .sb (mkRoute [1]) }] } : State).env ({ tS with hub.sb.ports := [{}, { state := 2 }], hub.bc.held := [{ group := 0, bid := 1, window := 0, cmd := [], back := .sb (mkRoute [1]) }] } : State).hub (.sb 1 { ftype := 9, lseq := 1, nhops := 0, payload := .bcast [0, 0, 0, 1, 0, 0, 0, 0, 0, 0, 0, 0, 0, 0, 0, 0] } : BcastIn)).getD { src := 0, back := .root, msg := { phase := 0, group := 0, bid := 0 } }, by exact tSome (by decide +kernel), by decide +kernel, by decide +kernel, by decide +kernel⟩,
    ⟨{ tS with hub.sb.ports := [{}, { state := 2 }], hub.bc.held := List.replicate 4 ({ group := 0, bid := 7, window := 0, cmd := [], back := .root }) }, .sb 1 { ftype := 9, lseq := 1, nhops := 0, payload := .bcast [0, 0, 0, 1, 0, 0, 0, 0, 0, 0, 0, 0, 0, 0, 0, 0] }, (bcastMsg ({ tS with hub.sb.ports := [{}, { state := 2 }], hub.bc.held := List.replicate 4 ({ group := 0, bid := 7, window := 0, cmd := [], back := .root }) } : State).env ({ tS with hub.sb.ports := [{}, { state := 2 }], hub.bc.held := List.replicate 4 ({ group := 0, bid := 7, window := 0, cmd := [], back := .root }) } : State).hub (.sb 1 { ftype := 9, lseq := 1, nhops := 0, payload := .bcast [0, 0, 0, 1, 0, 0, 0, 0, 0, 0, 0, 0, 0, 0, 0, 0] } : BcastIn)).getD { src := 0, back := .root, msg := { phase := 0, group := 0, bid := 0 } }, by exact tSome (by decide +kernel), by decide +kernel, by decide +kernel, by decide +kernel, by decide +kernel, by decide +kernel⟩,
    ⟨{ tS with hub.sb.ports := [{}, { state := 2 }] }, .sb 1 { ftype := 9, lseq := 1, nhops := 0, payload := .bcast [16, 0, 0, 1, 0, 0, 0, 0, 0, 0, 0, 0, 0, 0, 0, 0] }, (bcastMsg ({ tS with hub.sb.ports := [{}, { state := 2 }] } : State).env ({ tS with hub.sb.ports := [{}, { state := 2 }] } : State).hub (.sb 1 { ftype := 9, lseq := 1, nhops := 0, payload := .bcast [16, 0, 0, 1, 0, 0, 0, 0, 0, 0, 0, 0, 0, 0, 0, 0] } : BcastIn)).getD { src := 0, back := .root, msg := { phase := 0, group := 0, bid := 0 } }, by exact tSome (by decide +kernel), by decide +kernel, by intro b h; exact absurd h (by rw [show heldB _ _ _ = none by decide +kernel]; simp)⟩,
    ⟨{ tS with hub.sb.ports := [{}, { state := 2 }], hub.bc.held := [{ group := 0, bid := 1, window := 0, cmd := [], back := .sb (mkRoute [1]) }] }, .sb 1 { ftype := 9, lseq := 1, nhops := 0, payload := .bcast [16, 0, 0, 1, 0, 0, 0, 0, 0, 0, 0, 0, 0, 0, 0, 0] }, (bcastMsg ({ tS with hub.sb.ports := [{}, { state := 2 }], hub.bc.held := [{ group := 0, bid := 1, window := 0, cmd := [], back := .sb (mkRoute [1]) }] } : State).env ({ tS with hub.sb.ports := [{}, { state := 2 }], hub.bc.held := [{ group := 0, bid := 1, window := 0, cmd := [], back := .sb (mkRoute [1]) }] } : State).hub (.sb 1 { ftype := 9, lseq := 1, nhops := 0, payload := .bcast [16, 0, 0, 1, 0, 0, 0, 0, 0, 0, 0, 0, 0, 0, 0, 0] } : BcastIn)).getD { src := 0, back := .root, msg := { phase := 0, group := 0, bid := 0 } }, { group := 0, bid := 1, window := 0, cmd := [], back := .sb (mkRoute [1]) }, mkRoute [1], by exact tSome (by decide +kernel), by decide +kernel, by decide +kernel, by decide +kernel, by decide +kernel, by decide +kernel⟩,
    ⟨{ tT with hub.bc.held := [{ group := 0, bid := 1, window := 0, cmd := [], back := .sb (mkRoute [1]) }] }, .photen [17, 64, 64, 0, 0, 2, 0, 0, 0, 2, 0, 1, 0, 0, 0, 0, 0, 0, 0, 0, 0, 0, 0, 1, 0, 0, 0, 0, 22, 191, 223, 173, 16, 0, 0, 1, 0, 0, 0, 0, 0, 0, 0, 0, 0, 0, 0, 0, 0, 0, 0, 0, 0, 0, 0, 0, 0, 0, 0, 0, 0, 0, 0, 0] 1, (bcastMsg ({ tT with hub.bc.held := [{ group := 0, bid := 1, window := 0, cmd := [], back := .sb (mkRoute [1]) }] } : State).env ({ tT with hub.bc.held := [{ group := 0, bid := 1, window := 0, cmd := [], back := .sb (mkRoute [1]) }] } : State).hub (.photen [17, 64, 64, 0, 0, 2, 0, 0, 0, 2, 0, 1, 0, 0, 0, 0, 0, 0, 0, 0, 0, 0, 0, 1, 0, 0, 0, 0, 22, 191, 223, 173, 16, 0, 0, 1, 0, 0, 0, 0, 0, 0, 0, 0, 0, 0, 0, 0, 0, 0, 0, 0, 0, 0, 0, 0, 0, 0, 0, 0, 0, 0, 0, 0] 1 : BcastIn)).getD { src := 0, back := .root, msg := { phase := 0, group := 0, bid := 0 } }, { group := 0, bid := 1, window := 0, cmd := [], back := .sb (mkRoute [1]) }, 131073, [], by exact tSome (by decide +kernel), by decide +kernel, by decide +kernel, by decide +kernel, by decide +kernel, by decide +kernel, by decide +kernel⟩,
    ⟨{ tT with hub.bc.held := [{ group := 0, bid := 1, window := 0, cmd := [], back := .sb (mkRoute [1]), awaitT := [1] }] }, .photen [17, 64, 64, 0, 0, 2, 0, 0, 0, 2, 0, 1, 0, 0, 0, 0, 0, 0, 0, 0, 0, 0, 0, 1, 0, 0, 0, 0, 22, 191, 223, 173, 16, 0, 0, 1, 0, 0, 0, 0, 0, 0, 0, 0, 0, 0, 0, 0, 0, 0, 0, 0, 0, 0, 0, 0, 0, 0, 0, 0, 0, 0, 0, 0] 1, (bcastMsg ({ tT with hub.bc.held := [{ group := 0, bid := 1, window := 0, cmd := [], back := .sb (mkRoute [1]), awaitT := [1] }] } : State).env ({ tT with hub.bc.held := [{ group := 0, bid := 1, window := 0, cmd := [], back := .sb (mkRoute [1]), awaitT := [1] }] } : State).hub (.photen [17, 64, 64, 0, 0, 2, 0, 0, 0, 2, 0, 1, 0, 0, 0, 0, 0, 0, 0, 0, 0, 0, 0, 1, 0, 0, 0, 0, 22, 191, 223, 173, 16, 0, 0, 1, 0, 0, 0, 0, 0, 0, 0, 0, 0, 0, 0, 0, 0, 0, 0, 0, 0, 0, 0, 0, 0, 0, 0, 0, 0, 0, 0, 0] 1 : BcastIn)).getD { src := 0, back := .root, msg := { phase := 0, group := 0, bid := 0 } }, { group := 0, bid := 1, window := 0, cmd := [], back := .sb (mkRoute [1]), awaitT := [1] }, 131073, [1], by exact tSome (by decide +kernel), by decide +kernel, by decide +kernel, by decide +kernel, by decide +kernel, by decide +kernel, by decide +kernel⟩,
    ⟨{ tS with hub.bc.held := [{ group := 0, bid := 1, window := 0, cmd := [], back := .sb (mkRoute [1]) }], hub.time.tb := BitVec.ofNat 96 (2 ^ 32 * 10 ^ 9) }, 0, 1, { group := 0, bid := 1, window := 0, cmd := [], back := .sb (mkRoute [1]) }, by decide +kernel⟩,
    ⟨{ tT with hub.bc.held := [{ group := 0, bid := 1, window := 0, cmd := [], back := .sb (mkRoute [1]) }], hub.time.tb := BitVec.ofNat 96 (2 ^ 32 * 10 ^ 9), hub.img := some { fleet := { root := 0, dies := [5] } } }, 0, 1, { group := 0, bid := 1, window := 0, cmd := [], back := .sb (mkRoute [1]) }, by decide +kernel⟩,
    ⟨{ tT with hub.bc.held := [{ group := 0, bid := 1, window := 0, cmd := [], back := .sb (mkRoute [1]), tree := 1 }], hub.time.tb := BitVec.ofNat 96 (2 ^ 32 * 10 ^ 9) }, 0, 1, { group := 0, bid := 1, window := 0, cmd := [], back := .sb (mkRoute [1]), tree := 1 }, by decide +kernel⟩,
    ⟨{ tS with hub.sb.ports := [{}, { state := 2 }], hub.bc.held := [{ group := 0, bid := 1, window := 0, cmd := [], back := .sb (mkRoute [1]) }] }, .sb 1 { ftype := 9, lseq := 1, nhops := 0, payload := .bcast [64, 0, 0, 1, 0, 0, 0, 0, 0, 0, 0, 0, 0, 0, 0, 0] }, (bcastMsg ({ tS with hub.sb.ports := [{}, { state := 2 }], hub.bc.held := [{ group := 0, bid := 1, window := 0, cmd := [], back := .sb (mkRoute [1]) }] } : State).env ({ tS with hub.sb.ports := [{}, { state := 2 }], hub.bc.held := [{ group := 0, bid := 1, window := 0, cmd := [], back := .sb (mkRoute [1]) }] } : State).hub (.sb 1 { ftype := 9, lseq := 1, nhops := 0, payload := .bcast [64, 0, 0, 1, 0, 0, 0, 0, 0, 0, 0, 0, 0, 0, 0, 0] } : BcastIn)).getD { src := 0, back := .root, msg := { phase := 0, group := 0, bid := 0 } }, { group := 0, bid := 1, window := 0, cmd := [], back := .sb (mkRoute [1]) }, by exact tSome (by decide +kernel), by decide +kernel, by decide +kernel, by decide +kernel, by decide +kernel⟩,
    ⟨{ tS with hub.sb.ports := [{}, { state := 2 }], hub.bc.held := [{ group := 0, bid := 1, window := 0, cmd := [], back := .sb (mkRoute [1]), member := true }] }, .sb 1 { ftype := 9, lseq := 1, nhops := 0, payload := .bcast [32, 0, 0, 1, 0, 0, 0, 0, 0, 0, 0, 0, 0, 0, 0, 0, 255, 255, 255, 255, 255, 255, 255, 255, 255, 255, 255, 255, 255, 255, 255, 255, 255, 255, 255, 255, 255, 255, 255, 255, 255, 255, 255, 255, 255, 255, 255, 255, 255, 255, 255, 255, 255, 255, 255, 255, 255, 255, 255, 255, 255, 255, 255, 255, 255, 255, 255, 255, 255, 255, 255, 255, 255, 255, 255, 255, 255, 255, 255, 255, 255, 255, 255, 255, 255, 255, 255, 255, 255, 255, 255, 255, 255, 255, 255, 255, 255, 255, 255, 255, 255, 255, 255, 255, 255, 255, 255, 255, 255, 255, 255, 255, 255, 255, 255, 255, 255, 255, 255, 255, 255, 255, 255, 255, 255, 255, 255, 255, 255, 255, 255, 255, 255, 255, 255, 255, 255, 255, 255, 255, 255, 255, 255, 255, 255, 255, 255, 255, 255, 255, 255, 255, 255, 255, 255, 255, 255, 255, 255, 255] }, (bcastMsg ({ tS with hub.sb.ports := [{}, { state := 2 }], hub.bc.held := [{ group := 0, bid := 1, window := 0, cmd := [], back := .sb (mkRoute [1]), member := true }] } : State).env ({ tS with hub.sb.ports := [{}, { state := 2 }], hub.bc.held := [{ group := 0, bid := 1, window := 0, cmd := [], back := .sb (mkRoute [1]), member := true }] } : State).hub (.sb 1 { ftype := 9, lseq := 1, nhops := 0, payload := .bcast [32, 0, 0, 1, 0, 0, 0, 0, 0, 0, 0, 0, 0, 0, 0, 0, 255, 255, 255, 255, 255, 255, 255, 255, 255, 255, 255, 255, 255, 255, 255, 255, 255, 255, 255, 255, 255, 255, 255, 255, 255, 255, 255, 255, 255, 255, 255, 255, 255, 255, 255, 255, 255, 255, 255, 255, 255, 255, 255, 255, 255, 255, 255, 255, 255, 255, 255, 255, 255, 255, 255, 255, 255, 255, 255, 255, 255, 255, 255, 255, 255, 255, 255, 255, 255, 255, 255, 255, 255, 255, 255, 255, 255, 255, 255, 255, 255, 255, 255, 255, 255, 255, 255, 255, 255, 255, 255, 255, 255, 255, 255, 255, 255, 255, 255, 255, 255, 255, 255, 255, 255, 255, 255, 255, 255, 255, 255, 255, 255, 255, 255, 255, 255, 255, 255, 255, 255, 255, 255, 255, 255, 255, 255, 255, 255, 255, 255, 255, 255, 255, 255, 255, 255, 255, 255, 255, 255, 255, 255, 255] } : BcastIn)).getD { src := 0, back := .root, msg := { phase := 0, group := 0, bid := 0 } }, { group := 0, bid := 1, window := 0, cmd := [], back := .sb (mkRoute [1]), member := true }, true, by exact tSome (by decide +kernel), by decide +kernel, by decide +kernel, by decide +kernel, by decide +kernel, by decide +kernel, by decide +kernel, by decide +kernel, by decide +kernel, by decide +kernel⟩,
    ⟨{ tS with hub.sb.ports := [{}, { state := 2 }], hub.bc.held := [{ group := 0, bid := 1, window := 9, cmd := [], back := .sb (mkRoute [1]), member := true }] }, .sb 1 { ftype := 9, lseq := 1, nhops := 0, payload := .bcast [32, 0, 0, 1, 0, 0, 0, 0, 0, 0, 0, 0, 0, 0, 0, 0, 0, 0, 0, 0, 0, 0, 0, 0, 0, 0, 0, 0, 0, 0, 0, 0, 0, 0, 0, 0, 0, 0, 0, 0, 0, 0, 0, 0, 0, 0, 0, 0, 0, 0, 0, 0, 0, 0, 0, 0, 0, 0, 0, 0, 0, 0, 0, 0, 0, 0, 0, 0, 0, 0, 0, 0, 0, 0, 0, 0, 0, 0, 0, 0, 0, 0, 0, 0, 0, 0, 0, 0, 0, 0, 0, 0, 0, 0, 0, 0, 0, 0, 0, 0, 0, 0, 0, 0, 0, 0, 0, 0, 0, 0, 0, 0, 0, 0, 0, 0, 0, 0, 0, 0, 0, 0, 0, 0, 0, 0, 0, 0, 0, 0, 0, 0, 0, 0, 0, 0, 0, 0, 0, 0, 0, 0, 0, 0, 0, 0, 0, 0, 0, 0, 0, 0, 0, 0, 0, 0, 0, 0, 0, 0] }, (bcastMsg ({ tS with hub.sb.ports := [{}, { state := 2 }], hub.bc.held := [{ group := 0, bid := 1, window := 9, cmd := [], back := .sb (mkRoute [1]), member := true }] } : State).env ({ tS with hub.sb.ports := [{}, { state := 2 }], hub.bc.held := [{ group := 0, bid := 1, window := 9, cmd := [], back := .sb (mkRoute [1]), member := true }] } : State).hub (.sb 1 { ftype := 9, lseq := 1, nhops := 0, payload := .bcast [32, 0, 0, 1, 0, 0, 0, 0, 0, 0, 0, 0, 0, 0, 0, 0, 0, 0, 0, 0, 0, 0, 0, 0, 0, 0, 0, 0, 0, 0, 0, 0, 0, 0, 0, 0, 0, 0, 0, 0, 0, 0, 0, 0, 0, 0, 0, 0, 0, 0, 0, 0, 0, 0, 0, 0, 0, 0, 0, 0, 0, 0, 0, 0, 0, 0, 0, 0, 0, 0, 0, 0, 0, 0, 0, 0, 0, 0, 0, 0, 0, 0, 0, 0, 0, 0, 0, 0, 0, 0, 0, 0, 0, 0, 0, 0, 0, 0, 0, 0, 0, 0, 0, 0, 0, 0, 0, 0, 0, 0, 0, 0, 0, 0, 0, 0, 0, 0, 0, 0, 0, 0, 0, 0, 0, 0, 0, 0, 0, 0, 0, 0, 0, 0, 0, 0, 0, 0, 0, 0, 0, 0, 0, 0, 0, 0, 0, 0, 0, 0, 0, 0, 0, 0, 0, 0, 0, 0, 0, 0] } : BcastIn)).getD { src := 0, back := .root, msg := { phase := 0, group := 0, bid := 0 } }, { group := 0, bid := 1, window := 9, cmd := [], back := .sb (mkRoute [1]), member := true }, false, by exact tSome (by decide +kernel), by decide +kernel, by decide +kernel, by decide +kernel, by decide +kernel, by decide +kernel, by decide +kernel, by decide +kernel, by decide +kernel, by decide +kernel, by decide +kernel, by decide +kernel⟩,
    ⟨{ tS with hub.sb.ports := [{}, { state := 2 }], hub.bc.held := [{ group := 0, bid := 1, window := 0, cmd := [], back := .sb (mkRoute [1]), member := true }] }, .sb 1 { ftype := 9, lseq := 1, nhops := 0, payload := .bcast [32, 0, 0, 1, 0, 0, 0, 0, 0, 0, 0, 0, 0, 0, 0, 0, 0, 0, 0, 0, 0, 0, 0, 0, 0, 0, 0, 0, 0, 0, 0, 0, 0, 0, 0, 0, 0, 0, 0, 0, 0, 0, 0, 0, 0, 0, 0, 0, 0, 0, 0, 0, 0, 0, 0, 0, 0, 0, 0, 0, 0, 0, 0, 0, 0, 0, 0, 0, 0, 0, 0, 0, 0, 0, 0, 0, 0, 0, 0, 0, 0, 0, 0, 0, 0, 0, 0, 0, 0, 0, 0, 0, 0, 0, 0, 0, 0, 0, 0, 0, 0, 0, 0, 0, 0, 0, 0, 0, 0, 0, 0, 0, 0, 0, 0, 0, 0, 0, 0, 0, 0, 0, 0, 0, 0, 0, 0, 0, 0, 0, 0, 0, 0, 0, 0, 0, 0, 0, 0, 0, 0, 0, 0, 0, 0, 0, 0, 0, 0, 0, 0, 0, 0, 0, 0, 0, 0, 0, 0, 0] }, (bcastMsg ({ tS with hub.sb.ports := [{}, { state := 2 }], hub.bc.held := [{ group := 0, bid := 1, window := 0, cmd := [], back := .sb (mkRoute [1]), member := true }] } : State).env ({ tS with hub.sb.ports := [{}, { state := 2 }], hub.bc.held := [{ group := 0, bid := 1, window := 0, cmd := [], back := .sb (mkRoute [1]), member := true }] } : State).hub (.sb 1 { ftype := 9, lseq := 1, nhops := 0, payload := .bcast [32, 0, 0, 1, 0, 0, 0, 0, 0, 0, 0, 0, 0, 0, 0, 0, 0, 0, 0, 0, 0, 0, 0, 0, 0, 0, 0, 0, 0, 0, 0, 0, 0, 0, 0, 0, 0, 0, 0, 0, 0, 0, 0, 0, 0, 0, 0, 0, 0, 0, 0, 0, 0, 0, 0, 0, 0, 0, 0, 0, 0, 0, 0, 0, 0, 0, 0, 0, 0, 0, 0, 0, 0, 0, 0, 0, 0, 0, 0, 0, 0, 0, 0, 0, 0, 0, 0, 0, 0, 0, 0, 0, 0, 0, 0, 0, 0, 0, 0, 0, 0, 0, 0, 0, 0, 0, 0, 0, 0, 0, 0, 0, 0, 0, 0, 0, 0, 0, 0, 0, 0, 0, 0, 0, 0, 0, 0, 0, 0, 0, 0, 0, 0, 0, 0, 0, 0, 0, 0, 0, 0, 0, 0, 0, 0, 0, 0, 0, 0, 0, 0, 0, 0, 0, 0, 0, 0, 0, 0, 0] } : BcastIn)).getD { src := 0, back := .root, msg := { phase := 0, group := 0, bid := 0 } }, { group := 0, bid := 1, window := 0, cmd := [], back := .sb (mkRoute [1]), member := true }, false, by exact tSome (by decide +kernel), by decide +kernel, by decide +kernel, by decide +kernel, by decide +kernel, by decide +kernel, by decide +kernel, by decide +kernel, by decide +kernel, by decide +kernel, by decide +kernel⟩,
    ⟨{ tS with hub.time.tb := BitVec.ofNat 96 (2 ^ 32 * 10 ^ 9), hub.bc.held := [{ group := 0, bid := 1, window := 0, cmd := [], back := .sb (mkRoute [1]) }] }, 0, 1, { group := 0, bid := 1, window := 0, cmd := [], back := .sb (mkRoute [1]) }, by decide +kernel⟩⟩

/-- The hypotheses of JobCommands are met. -/
theorem meets_JobCommands :
    (∃ (c : Cmd) (s : State) (x : _) (w : Option Word), passes opJobSet (withOp 0 c) s = true ∧ ctxOf (withOp 0 c) s = x ∧
    lastWindow x (setDw x + setD x) = w ∧ w.any (windowEnded s.hub) = false) ∧
    (∃ (c : Cmd) (s : State) (x : _) (w : Option Word), passes opJobSet (withOp 0 c) s = true ∧ ctxOf (withOp 0 c) s = x ∧
    lastWindow x (setDw x + setD x) = w ∧ w.any (windowEnded s.hub) = true) ∧
    (∃ (c : Cmd) (s : State) (x : _) (w : Option Word), passes (opJobList false) (withOp 1 c) s = true ∧ ctxOf (withOp 1 c) s = x ∧
    lastWindow x (3 + x.n 3) = w ∧ Tab.find (projected s.hub) (x.n 2) = none) ∧
    (∃ (c : Cmd) (s : State) (x : _) (w : Option Word) (y : Job), passes (opJobList false) (withOp 1 c) s = true ∧ ctxOf (withOp 1 c) s = x ∧
    lastWindow x (3 + x.n 3) = w ∧ Tab.find (projected s.hub) (x.n 2) = some y ∧ w.any (windowEnded s.hub) = false) ∧
    (∃ (c : Cmd) (s : State) (x : _) (w : Option Word) (y : Job), passes (opJobList false) (withOp 1 c) s = true ∧ ctxOf (withOp 1 c) s = x ∧
    lastWindow x (3 + x.n 3) = w ∧ Tab.find (projected s.hub) (x.n 2) = some y ∧ w.any (windowEnded s.hub) = true) ∧
    (∃ (c : Cmd) (s : State) (x : _) (w : Option Word), passes (opJobList true) (withOp 2 c) s = true ∧ ctxOf (withOp 2 c) s = x ∧
    lastWindow x (3 + x.n 3) = w ∧ Tab.find (projected s.hub) (x.n 2) = none) ∧
    (∃ (c : Cmd) (s : State) (x : _) (w : Option Word) (y : Job) (p : Nat × Word), passes (opJobList true) (withOp 2 c) s = true ∧
    ctxOf (withOp 2 c) s = x ∧ lastWindow x (3 + x.n 3) = w ∧ Tab.find (projected s.hub) (x.n 2) = some y ∧
    (dieEntries x 4 (x.n 3)).find? (fun p => !y.dies.any (fun d => decide (d.die = (dieEntry p.2).die))) = some p) ∧
    (∃ (c : Cmd) (s : State) (x : _) (w : Option Word) (y : Job), passes (opJobList true) (withOp 2 c) s = true ∧ ctxOf (withOp 2 c) s = x ∧
    lastWindow x (3 + x.n 3) = w ∧ Tab.find (projected s.hub) (x.n 2) = some y ∧
    (dieEntries x 4 (x.n 3)).find? (fun p => !y.dies.any (fun d => decide (d.die = (dieEntry p.2).die))) = none ∧ w.any (windowEnded s.hub) = false) ∧
    (∃ (c : Cmd) (s : State) (x : _) (w : Option Word) (y : Job), passes (opJobList true) (withOp 2 c) s = true ∧ ctxOf (withOp 2 c) s = x ∧
    lastWindow x (3 + x.n 3) = w ∧ Tab.find (projected s.hub) (x.n 2) = some y ∧
    (dieEntries x 4 (x.n 3)).find? (fun p => !y.dies.any (fun d => decide (d.die = (dieEntry p.2).die))) = none ∧ w.any (windowEnded s.hub) = true) ∧
    (∃ (c : Cmd) (s : State) (x : Job), passes opJobRead (withOp 3 c) s = true ∧ jobAt s.hub (BitVec.ofNat 16 ((withOp 3 c).n 2)) = some x) ∧
    (∃ (c : Cmd) (s : State), passes opJobRead (withOp 3 c) s = true ∧ jobAt s.hub (BitVec.ofNat 16 ((withOp 3 c).n 2)) = none) :=
  ⟨⟨tC [1, 1, 0, 0, 0], { tS with hub.img := some { fleetDies := 128, trays := 1 } }, ctxOf (withOp 0 (tC [1, 1, 0, 0, 0] : Cmd)) ({ tS with hub.img := some { fleetDies := 128, trays := 1 } } : State), none, by decide +kernel, rfl, by decide +kernel, by decide +kernel⟩,
    ⟨tC [1, 1, 0, 0, 0, 9], { tS with hub.img := some { fleetDies := 128, trays := 1 }, hub.casc.window := 10 }, ctxOf (withOp 0 (tC [1, 1, 0, 0, 0, 9] : Cmd)) ({ tS with hub.img := some { fleetDies := 128, trays := 1 }, hub.casc.window := 10 } : State), some 9, by decide +kernel, rfl, by decide +kernel, by decide +kernel⟩,
    ⟨tC [1, 1, 3], { tS with hub.img := some { fleetDies := 128, trays := 1 } }, ctxOf (withOp 1 (tC [1, 1, 3] : Cmd)) ({ tS with hub.img := some { fleetDies := 128, trays := 1 } } : State), none, by decide +kernel, rfl, by decide +kernel, by decide +kernel⟩,
    ⟨tC [1, 1, 3], { tS with hub.jobs.table := [(1, { group := 1, root := 0, combiners := [], dies := [{ die := 3, rep := 0, shadow := false }] })], hub.img := some { fleetDies := 128, trays := 1 } }, ctxOf (withOp 1 (tC [1, 1, 3] : Cmd)) ({ tS with hub.jobs.table := [(1, { group := 1, root := 0, combiners := [], dies := [{ die := 3, rep := 0, shadow := false }] })], hub.img := some { fleetDies := 128, trays := 1 } } : State), none, { group := 1, root := 0, combiners := [], dies := [{ die := 3, rep := 0, shadow := false }] }, by decide +kernel, rfl, by decide +kernel, by decide +kernel, by decide +kernel⟩,
    ⟨tC [1, 1, 3, 9], { tS with hub.jobs.table := [(1, { group := 1, root := 0, combiners := [], dies := [{ die := 3, rep := 0, shadow := false }] })], hub.img := some { fleetDies := 128, trays := 1 }, hub.casc.window := 10 }, ctxOf (withOp 1 (tC [1, 1, 3, 9] : Cmd)) ({ tS with hub.jobs.table := [(1, { group := 1, root := 0, combiners := [], dies := [{ die := 3, rep := 0, shadow := false }] })], hub.img := some { fleetDies := 128, trays := 1 }, hub.casc.window := 10 } : State), some 9, { group := 1, root := 0, combiners := [], dies := [{ die := 3, rep := 0, shadow := false }] }, by decide +kernel, rfl, by decide +kernel, by decide +kernel, by decide +kernel⟩,
    ⟨tC [1, 1, 3], { tS with hub.img := some { fleetDies := 128, trays := 1 } }, ctxOf (withOp 2 (tC [1, 1, 3] : Cmd)) ({ tS with hub.img := some { fleetDies := 128, trays := 1 } } : State), none, by decide +kernel, rfl, by decide +kernel, by decide +kernel⟩,
    ⟨tC [1, 1, 4], { tS with hub.jobs.table := [(1, { group := 1, root := 0, combiners := [], dies := [{ die := 3, rep := 0, shadow := false }] })], hub.img := some { fleetDies := 128, trays := 1 } }, ctxOf (withOp 2 (tC [1, 1, 4] : Cmd)) ({ tS with hub.jobs.table := [(1, { group := 1, root := 0, combiners := [], dies := [{ die := 3, rep := 0, shadow := false }] })], hub.img := some { fleetDies := 128, trays := 1 } } : State), none, { group := 1, root := 0, combiners := [], dies := [{ die := 3, rep := 0, shadow := false }] }, (4, 4), by decide +kernel, rfl, by decide +kernel, by decide +kernel, by decide +kernel⟩,
    ⟨tC [1, 1, 3], { tS with hub.jobs.table := [(1, { group := 1, root := 0, combiners := [], dies := [{ die := 3, rep := 0, shadow := false }] })], hub.img := some { fleetDies := 128, trays := 1 } }, ctxOf (withOp 2 (tC [1, 1, 3] : Cmd)) ({ tS with hub.jobs.table := [(1, { group := 1, root := 0, combiners := [], dies := [{ die := 3, rep := 0, shadow := false }] })], hub.img := some { fleetDies := 128, trays := 1 } } : State), none, { group := 1, root := 0, combiners := [], dies := [{ die := 3, rep := 0, shadow := false }] }, by decide +kernel, rfl, by decide +kernel, by decide +kernel, by decide +kernel, by decide +kernel⟩,
    ⟨tC [1, 1, 3, 9], { tS with hub.jobs.table := [(1, { group := 1, root := 0, combiners := [], dies := [{ die := 3, rep := 0, shadow := false }] })], hub.img := some { fleetDies := 128, trays := 1 }, hub.casc.window := 10 }, ctxOf (withOp 2 (tC [1, 1, 3, 9] : Cmd)) ({ tS with hub.jobs.table := [(1, { group := 1, root := 0, combiners := [], dies := [{ die := 3, rep := 0, shadow := false }] })], hub.img := some { fleetDies := 128, trays := 1 }, hub.casc.window := 10 } : State), some 9, { group := 1, root := 0, combiners := [], dies := [{ die := 3, rep := 0, shadow := false }] }, by decide +kernel, rfl, by decide +kernel, by decide +kernel, by decide +kernel, by decide +kernel⟩,
    ⟨tC [1], { tS with hub.jobs.table := [(1, { group := 1, root := 0, combiners := [], dies := [{ die := 3, rep := 0, shadow := false }] })] }, { group := 1, root := 0, combiners := [], dies := [{ die := 3, rep := 0, shadow := false }] }, by decide +kernel⟩,
    ⟨tC [5], { tS with hub.jobs.table := [(1, { group := 1, root := 0, combiners := [], dies := [{ die := 3, rep := 0, shadow := false }] })] }, by decide +kernel⟩⟩

/-- The hypotheses of RelaysAndEnvelopes are met. -/
theorem meets_RelaysAndEnvelopes :
    (∃ (op : Byte) (c : Cmd) (d : OpDef), opIn opcodes op.toNat c.params = some d) ∧
    (∃ (s : State) (op : Byte) (c : Cmd) (d : OpDef) (dj : Domain × Option (BitVec 16)), opIn opcodes op.toNat c.params = some d ∧
    reqDom s.env s.hub c.req = some dj ∧ c.params.length ≤ 348 ∧ c.target ≠ 0x3FFFF ∧ c.target.toNat ≠ nodeNo s.env s.hub ∧
    memberDie s.env s.hub c.target.toNat = true ∧ d.may (mkCtx c dj) = true ∧ (dj.1 == .tenant && dj.2.isNone) = false ∧ (dj.1 == .boot) = false ∧
    s.hub.cmd.relays.length < 64) ∧
    (∃ (s : State) (op : Byte) (c : Cmd) (d : OpDef) (dj : Domain × Option (BitVec 16)), opIn opcodes op.toNat c.params = some d ∧
    reqDom s.env s.hub c.req = some dj ∧ c.params.length ≤ 348 ∧ c.target ≠ 0x3FFFF ∧ c.target.toNat ≠ nodeNo s.env s.hub ∧
    memberDie s.env s.hub c.target.toNat = true ∧ d.may (mkCtx c dj) = true ∧ (dj.1 == .tenant && dj.2.isNone) = false ∧ (dj.1 == .boot) = false ∧
    64 ≤ s.hub.cmd.relays.length) ∧
    (∃ (s : State) (op : Byte) (c : Cmd) (dj : Domain × Option (BitVec 16)), opIn opcodes op.toNat c.params = none ∧ reqDom s.env s.hub c.req = some dj) ∧
    (∃ (s : State) (rid : BitVec 24) (r : Relay), s.hub.cmd.relays.find? (fun r => decide (r.rid = rid)) = some r ∧ alive s.hub = true ∧
    r.due ≤ nowNs s.hub ∧ s.env.beaten evSbReply r.due (nowNs s.hub) = false) ∧
    (∃ (s : State) (port : BitVec 4) (f : SbFrame) (bs : List Byte) (code : Nat) (order : Bool) (cseq : Word) (target : Node) (ps : List Word) (d : OpDef), s.env.tray = false ∧
    sbMessage s.env s.hub 6 port.toNat f = some bs ∧ ownTray s.hub f.src = true ∧ 8 ≤ bs.length ∧
    parsePacket (bs.drop 8) = .good code order cseq target ps ∧ opIn opcodes code ps = some d) ∧
    (∃ (s : State) (port : BitVec 4) (f : SbFrame), s.env.tray = false ∧ sbOk s.env s.hub 6 port.toNat f = true ∧ sbMine s.env f = true ∧
    ownTray s.hub f.src = false) ∧
    (∃ (s : State) (b : Bool) (p : List Byte), mgtRuns s.env s.hub = true ∧ s.hub.sys.st ≠ .config ∧ segOn (seg s.hub b) = true ∧ envelopeForm p = false) ∧
    (∃ (s : State) (b : Bool) (p : List Byte), mgtRuns s.env s.hub = true ∧ s.hub.sys.st ≠ .config ∧ segOn (seg s.hub b) = true ∧ envelopeForm p = true ∧
    envelopeKey s.hub p = none) ∧
    (∃ (s : State) (b : Bool) (p : List Byte) (k : KeySlot), mgtRuns s.env s.hub = true ∧ s.hub.sys.st ≠ .config ∧ segOn (seg s.hub b) = true ∧
    envelopeForm p = true ∧ envelopeKey s.hub p = some k ∧ ((b && twinOnA s.env s.hub p) = true ∨ seqWindow k (beAt p 4 8) = none)) ∧
    (∃ (s : State) (b : Bool) (p : List Byte) (k : KeySlot) (k' : KeySlot), mgtRuns s.env s.hub = true ∧ s.hub.sys.st ≠ .config ∧
    segOn (seg s.hub b) = true ∧ envelopeForm p = true ∧ envelopeKey s.hub p = some k ∧ (b && twinOnA s.env s.hub p) = false ∧
    seqWindow k (beAt p 4 8) = some k') :=
  ⟨⟨0, { req := .channel 0, cseq := 5, target := 3, params := [] }, opSysInfo, rfl⟩,
    ⟨{ tT with hub.img := some { mesh := { dies := [(3, [])] } } }, 0, { req := .channel 0, cseq := 5, target := 3, params := [] }, opSysInfo, (.fleet, none), rfl, by decide +kernel, by decide +kernel, by decide +kernel, by decide +kernel, by decide +kernel, by decide +kernel, by decide +kernel, by decide +kernel, by decide +kernel⟩,
    ⟨{ tT with hub.img := some { mesh := { dies := [(3, [])] } }, hub.cmd.relays := List.replicate 64 { rid := 4, die := 3, req := .channel 0, opcode := 1, cseq := 2, domain := 1, due := 5 } }, 0, { req := .channel 0, cseq := 5, target := 3, params := [] }, opSysInfo, (.fleet, none), rfl, by decide +kernel, by decide +kernel, by decide +kernel, by decide +kernel, by decide +kernel, by decide +kernel, by decide +kernel, by decide +kernel, by decide +kernel⟩,
    ⟨tS, 0xFE, { req := .channel 0, cseq := 5, target := 3, params := [] }, (.fleet, none), rfl, by decide +kernel⟩,
    ⟨{ tS with hub.cmd.relays := [{ rid := 4, die := 3, req := .channel 0, opcode := 1, cseq := 2, domain := 1, due := 5 }] }, 4, { rid := 4, die := 3, req := .channel 0, opcode := 1, cseq := 2, domain := 1, due := 5 }, by decide +kernel⟩,
    ⟨{ tS with hub.sb.ports := [{}, { state := 2 }] }, 1, { ftype := 6, lseq := 1, src := 131072, payload := .command [0, 0, 0, 1, 0, 0, 0, 0, 16, 0, 0, 0, 0, 0, 0, 9, 0, 3, 255, 255, 43, 143, 190, 210] }, [0, 0, 0, 1, 0, 0, 0, 0, 16, 0, 0, 0, 0, 0, 0, 9, 0, 3, 255, 255, 43, 143, 190, 210], 0, false, 9, 0x3FFFF, [], opSysInfo, by decide +kernel, by decide +kernel, by decide +kernel, by decide +kernel, tParse (by decide +kernel), rfl⟩,
    ⟨{ tS with hub.sb.ports := [{}, { state := 2 }] }, 1, { ftype := 6, lseq := 1, src := 131077, payload := .command [0, 0, 0, 1, 0, 0, 0, 0, 16, 0, 0, 0, 0, 0, 0, 9, 0, 3, 255, 255, 43, 143, 190, 210] }, by decide +kernel⟩,
    ⟨{ tT with hub.mgt.a.cfg := BitVec.ofNat 64 (2 ^ 51) }, false, [], by decide +kernel⟩,
    ⟨{ tT with hub.mgt.a.cfg := BitVec.ofNat 64 (2 ^ 51) }, false, tEnv, by decide +kernel⟩,
    ⟨{ tT with hub.mgt.a.cfg := BitVec.ofNat 64 (2 ^ 51), hub.cmd.keys := [(0, { key := 0, domain := 1, job := 0, h := 1, mask := 1 })] }, false, tEnv, { key := 0, domain := 1, job := 0, h := 1, mask := 1 }, by decide +kernel, by decide +kernel, by decide +kernel, by decide +kernel, tEnv_key (by decide +kernel) rfl, by decide +kernel⟩,
    ⟨{ tT with hub.mgt.a.cfg := BitVec.ofNat 64 (2 ^ 51), hub.cmd.keys := [(0, { key := 0, domain := 1, job := 0, h := 0, mask := 0 })] }, false, tEnv, { key := 0, domain := 1, job := 0, h := 0, mask := 0 }, { key := 0, domain := 1, job := 0, h := 1, mask := 1 }, by decide +kernel, by decide +kernel, by decide +kernel, by decide +kernel, tEnv_key (by decide +kernel) rfl, by decide +kernel, by decide +kernel⟩⟩

/-- The hypotheses of PhotenQueueAndHeartbeats are met. -/
theorem meets_PhotenQueueAndHeartbeats :
    (∃ (s : State), txHead s.hub = none) ∧
    (∃ (s : State) (p : _), txHead s.hub = some p ∧ working s.hub = true ∧ 1024 * photenLen p.body ≤ bucketNow s.hub) ∧
    (∃ (s : State) (p : _), txHead s.hub = some p ∧ working s.hub = true ∧ bucketNow s.hub < 1024 * photenLen p.body ∧ p.tc = 3) ∧
    (∃ (s : State) (p : _), txHead s.hub = some p ∧ working s.hub = true ∧ bucketNow s.hub < 1024 * photenLen p.body ∧ p.tc ≠ 3) ∧
    (∃ (s : State) (p : _) (port : BitVec 6), photenOk s.env s.hub 5 p port.toNat = true ∧ s.env.tray = true ∧
    memberDie s.env s.hub (readHeartbeat (photenFields p).body).die.toNat = true) ∧
    (∃ (s : State), s.env.tray = false ∧ sbRuns s.hub = true ∧ s.hub.sb.lastBeat + s.hub.sb.beatPeriod ≤ nowNs s.hub) ∧
    (∃ (s : State) (die : BitVec 7) (d : Nat), d = (imgOf s.hub).tray * 128 + die.toNat ∧ memberDie s.env s.hub d = true ∧ sbRuns s.hub = true ∧
    (member s.hub d).lost = false ∧ (member s.hub d).last + 4 * s.hub.sb.beatPeriod ≤ nowNs s.hub ∧
    s.env.beaten (evHeartbeat d) ((member s.hub d).last + 4 * s.hub.sb.beatPeriod) (nowNs s.hub) = false) ∧
    (∃ (s : State), s.env.tray = false ∧ sbRuns s.hub = true ∧ s.hub.sb.trayLost = false ∧ s.hub.sb.lastSync + 4 * s.hub.time.syncInt ≤ nowNs s.hub ∧
    s.env.beaten evSync (s.hub.sb.lastSync + 4 * s.hub.time.syncInt) (nowNs s.hub) = false) :=
  ⟨⟨tS, by decide +kernel⟩,
    ⟨{ tS with hub.fab := { outq := [{ type := 1, tc := 1, dst := 3, tb := 900, body := [] }], bucket := 16777216 } }, { type := 1, tc := 1, dst := 3, tb := 900, body := [] }, by decide +kernel⟩,
    ⟨{ tS with hub.fab := { outq := [{ type := 1, tc := 3, dst := 3, tb := 900, body := [] }], bucket := 0 }, hub.img := some { share := 0 } }, { type := 1, tc := 3, dst := 3, tb := 900, body := [] }, by decide +kernel⟩,
    ⟨{ tS with hub.fab := { outq := [{ type := 1, tc := 1, dst := 3, tb := 900, body := [] }], bucket := 0 }, hub.img := some { share := 0 } }, { type := 1, tc := 1, dst := 3, tb := 900, body := [] }, by decide +kernel⟩,
    ⟨{ tT with hub.img := some { mesh := { dies := [(3, [])] } } }, [21, 0, 64, 0, 0, 2, 0, 0, 0, 0, 0, 3, 0, 0, 0, 0, 0, 0, 0, 0, 0, 0, 0, 1, 0, 0, 0, 0, 91, 92, 186, 177, 0, 0, 0, 3, 0, 0, 0, 0, 0, 0, 0, 0, 0, 0, 0, 0, 0, 0, 0, 0, 0, 0, 0, 0, 0, 0, 0, 0, 0, 0, 0, 0], 1, by decide +kernel⟩,
    ⟨{ tS with hub.time.tb := BitVec.ofNat 96 (2 ^ 32 * 10 ^ 12) }, by decide +kernel⟩,
    ⟨{ tT with hub.img := some { mesh := { dies := [(3, [])] } }, hub.time.tb := BitVec.ofNat 96 (2 ^ 32 * 10 ^ 12) }, 3, 3, by decide +kernel⟩,
    ⟨{ tS with hub.time.tb := BitVec.ofNat 96 (2 ^ 32 * 10 ^ 12) }, by decide +kernel⟩⟩

/-- The hypotheses of SidebandPorts are met. -/
theorem meets_SidebandPorts :
    (∃ (s : State) (port : BitVec 4) (p : Port), p = sbPort s.hub port.toNat ∧ sbRuns s.hub = true ∧ (sbPorts s.env).contains port.toNat = true ∧
    port.toNat < s.hub.sb.ports.length ∧ p.state = 0 ∧ p.miswired = false) ∧
    (∃ (s : State) (port : BitVec 4) (f : SbFrame) (node : Node) (dorm : Bool) (p : Port), p = sbPort s.hub port.toNat ∧
    sbOk s.env s.hub 1 port.toNat f = true ∧ f.payload = .hello node dorm ∧ port.toNat < s.hub.sb.ports.length ∧ p.state ≠ 0 ∧
    (meshKnown s.hub && expected s.env s.hub port.toNat != some node.toNat) = true) ∧
    (∃ (s : State) (port : BitVec 4) (f : SbFrame) (node : Node) (dorm : Bool) (p : Port), p = sbPort s.hub port.toNat ∧
    sbOk s.env s.hub 1 port.toNat f = true ∧ f.payload = .hello node dorm ∧ port.toNat < s.hub.sb.ports.length ∧ p.state ≠ 0 ∧
    (meshKnown s.hub && expected s.env s.hub port.toNat != some node.toNat) = false) ∧
    (∃ (s : State) (port : BitVec 4) (p : Port), p = sbPort s.hub port.toNat ∧ sbRuns s.hub = true ∧ (sbPorts s.env).contains port.toNat = true ∧
    port.toNat < s.hub.sb.ports.length ∧ p.state ≠ 0) ∧
    (∃ (s : State) (port : BitVec 4) (f : SbFrame) (p : Port) (g : SbFrame) (gs : List SbFrame), p = sbPort s.hub port.toNat ∧
    sbOk s.env s.hub 0 port.toNat f = true ∧ port.toNat < s.hub.sb.ports.length ∧ p.queue = [] ∧ p.unacked = g :: gs ∧
    0 < ahead 8 f.lack.toNat (g.lseq - 1).toNat ∧ ahead 8 f.lack.toNat (g.lseq - 1).toNat ≤ p.unacked.length) ∧
    (∃ (s : State) (port : BitVec 4) (p : Port) (due : Nat), p = sbPort s.hub port.toNat ∧ sbRuns s.hub = true ∧ port.toNat < s.hub.sb.ports.length ∧
    p.state = 2 ∧ p.dormant = false ∧ p.unacked ≠ [] ∧ p.ackDue = some due ∧ due ≤ nowNs s.hub ∧
    s.env.beaten (evSbAck port.toNat) due (nowNs s.hub) = false ∧ p.resent < 8) ∧
    (∃ (s : State) (port : BitVec 4) (p : Port) (due : Nat), p = sbPort s.hub port.toNat ∧ sbRuns s.hub = true ∧ port.toNat < s.hub.sb.ports.length ∧
    p.state = 2 ∧ p.dormant = false ∧ p.unacked ≠ [] ∧ p.ackDue = some due ∧ due ≤ nowNs s.hub ∧
    s.env.beaten (evSbAck port.toNat) due (nowNs s.hub) = false ∧ 8 ≤ p.resent) ∧
    (∃ (s : State) (port : BitVec 4) (p : Port), p = sbPort s.hub port.toNat ∧ sbRuns s.hub = true ∧ (sbPorts s.env).contains port.toNat = true ∧
    port.toNat < s.hub.sb.ports.length ∧ p.state = 2 ∧ p.dormant = false ∧ p.lastPd + s.hub.sb.pdelay ≤ nowNs s.hub) ∧
    (∃ (s : State) (port : BitVec 4) (f : SbFrame), sbOk s.env s.hub 2 port.toNat f = true ∧ port.toNat < s.hub.sb.ports.length) ∧
    (∃ (s : State) (port : BitVec 4) (f : SbFrame) (t1 : Nat) (t2 : DWord) (t3 : DWord), sbOk s.env s.hub 3 port.toNat f = true ∧
    port.toNat < s.hub.sb.ports.length ∧ f.payload = .pdelayResp t2 t3 ∧ (sbPort s.hub port.toNat).t1 = some t1) :=
  ⟨⟨{ tS with hub.sb.ports := [{}, {}] }, 1, {}, by decide +kernel⟩,
    ⟨{ tS with hub.sb.ports := [{}, { state := 2 }], hub.img := some { mesh := { dies := [(0, [])] } } }, 1, { ftype := 1, lseq := 1, payload := .hello 9 false }, 9, false, { state := 2 }, by decide +kernel⟩,
    ⟨{ tS with hub.sb.ports := [{}, { state := 2 }] }, 1, { ftype := 1, lseq := 1, payload := .hello 9 false }, 9, false, { state := 2 }, by decide +kernel⟩,
    ⟨{ tS with hub.sb.ports := [{}, { state := 2 }] }, 1, { state := 2 }, by decide +kernel⟩,
    ⟨{ tS with hub.sb.ports := [{}, { state := 2, unacked := [{ ftype := 4, lseq := 1 }], ackDue := some 5 }] }, 1, { ftype := 0, lseq := 1, lack := 1 }, { state := 2, unacked := [{ ftype := 4, lseq := 1 }], ackDue := some 5 }, { ftype := 4, lseq := 1 }, [], by decide +kernel⟩,
    ⟨{ tS with hub.sb.ports := [{}, { state := 2, unacked := [{ ftype := 4, lseq := 1 }], ackDue := some 5 }], hub.time.tb := BitVec.ofNat 96 (2 ^ 32 * 10 ^ 12) }, 1, { state := 2, unacked := [{ ftype := 4, lseq := 1 }], ackDue := some 5 }, 5, by decide +kernel⟩,
    ⟨{ tS with hub.sb.ports := [{}, { state := 2, unacked := [{ ftype := 4, lseq := 1 }], ackDue := some 5, resent := 8 }], hub.time.tb := BitVec.ofNat 96 (2 ^ 32 * 10 ^ 12) }, 1, { state := 2, unacked := [{ ftype := 4, lseq := 1 }], ackDue := some 5, resent := 8 }, 5, by decide +kernel⟩,
    ⟨{ tS with hub.sb.ports := [{}, { state := 2 }], hub.time.tb := BitVec.ofNat 96 (2 ^ 32 * 10 ^ 12) }, 1, { state := 2 }, by decide +kernel⟩,
    ⟨{ tS with hub.sb.ports := [{}, { state := 2 }], hub.time.tb := BitVec.ofNat 96 (2 ^ 32 * 10 ^ 12) }, 1, { ftype := 2, lseq := 1 }, by decide +kernel⟩,
    ⟨{ tS with hub.sb.ports := [{}, { state := 2, t1 := some 5 }], hub.time.tb := BitVec.ofNat 96 (2 ^ 32 * 10 ^ 12) }, 1, { ftype := 3, lseq := 1, payload := .pdelayResp 7 8 }, 5, 7, 8, by decide +kernel⟩⟩

/-- The hypotheses of SidebandFrames are met. -/
theorem meets_SidebandFrames :
    (∃ (s : State) (port : BitVec 4) (f : SbFrame), s.env.tray = false ∧ sbOk s.env s.hub f.ftype.toNat port.toNat f = true ∧ 4 ≤ f.ftype.toNat ∧
    f.flood = false ∧ sbMine s.env f = false ∧ f.hop.toNat < 16) ∧
    (∃ (s : State) (port : BitVec 4) (f : SbFrame), s.env.tray = false ∧ sbOk s.env s.hub f.ftype.toNat port.toNat f = true ∧ 4 ≤ f.ftype.toNat ∧
    f.flood = true) ∧
    (∃ (s : State) (port : BitVec 4) (f : SbFrame) (i : Nat), s.env.tray = false ∧ sbOk s.env s.hub 11 port.toNat f = true ∧ sbMine s.env f = false ∧
    f.hop.toNat < 16 ∧ i = bitsOf f.route.toNat (31 - 2 * f.hop.toNat) (30 - 2 * f.hop.toNat) ∧ f.hop.toNat + 1 = f.nhops.toNat ∧
    (sbPort s.hub i).dormant = true ∧ i < s.hub.sb.ports.length) ∧
    (∃ (s : State) (port : BitVec 4) (f : SbFrame) (i : Nat), s.env.tray = false ∧ sbOk s.env s.hub 11 port.toNat f = true ∧ sbMine s.env f = false ∧
    f.hop.toNat < 16 ∧ i = bitsOf f.route.toNat (31 - 2 * f.hop.toNat) (30 - 2 * f.hop.toNat) ∧ ¬(f.hop.toNat + 1 = f.nhops.toNat ∧
    (sbPort s.hub i).dormant = true)) ∧
    (∃ (s : State) (src : Node) (mseq : BitVec 16) (r : _), s.hub.sb.reasm.find? (fun (r : Reasm) => decide (r.src = src.toNat) && decide (r.mseq = mseq)) = some r ∧
    sbRuns s.hub = true ∧ r.first + 1000000 ≤ nowNs s.hub ∧ s.env.beaten (evFragment r.src r.mseq) (r.first + 1000000) (nowNs s.hub) = false) ∧
    (∃ (s : State) (port : BitVec 4) (f : SbFrame) (b : Heartbeat) (m : Member), s.env.tray = true ∧ sbOk s.env s.hub 4 port.toNat f = true ∧
    sbMine s.env f = true ∧ f.payload = .heartbeat b ∧ memberDie s.env s.hub b.die.toNat = true ∧ m = member s.hub b.die.toNat) ∧
    (∃ (s : State) (port : BitVec 4) (f : SbFrame) (v : VerdictMsg), s.env.tray = false ∧ sbOk s.env s.hub 8 port.toNat f = true ∧ sbMine s.env f = true ∧
    f.payload = .verdict v) ∧
    (∃ (s : State) (die : BitVec 7) (d : Nat) (late : SentVerdict → Bool), d = (imgOf s.hub).tray * 128 + die.toNat ∧ memberDie s.env s.hub d = true ∧
    sbRuns s.hub = true ∧
    late = (fun (v : SentVerdict) => decide (v.tb + 4 * s.hub.sb.beatPeriod ≤ nowNs s.hub) && !s.env.beaten (evHeartbeat d) (v.tb + 4 * s.hub.sb.beatPeriod) (nowNs s.hub))) ∧
    (∃ (s : State) (port : BitVec 4) (f : SbFrame) (bs : List Byte) (rid : BitVec 24), s.env.tray = true ∧
    sbMessage s.env s.hub 7 port.toNat f = some bs ∧ rid = BitVec.ofNat 24 (beAt bs 4 4) ∧
    s.hub.cmd.relays.find? (fun r => decide (r.rid = rid)) = none ∧ rid ≠ 0) ∧
    (∃ (s : State) (port : BitVec 4) (f : SbFrame) (bs : List Byte) (rid : BitVec 24) (r : Relay), s.env.tray = true ∧
    sbMessage s.env s.hub 7 port.toNat f = some bs ∧ rid = BitVec.ofNat 24 (beAt bs 4 4) ∧
    s.hub.cmd.relays.find? (fun r => decide (r.rid = rid)) = some r) :=
  ⟨⟨{ tS with hub.sb.ports := [{}, { state := 2 }] }, 1, { ftype := 9, lseq := 1, nhops := 1 }, by decide +kernel⟩,
    ⟨{ tS with hub.sb.ports := [{}, { state := 2 }] }, 1, { ftype := 9, lseq := 1, flood := true }, by decide +kernel⟩,
    ⟨{ tS with hub.sb.ports := [{ dormant := true }, { state := 2 }] }, 1, { ftype := 11, lseq := 1, nhops := 1 }, 0, by decide +kernel⟩,
    ⟨{ tS with hub.sb.ports := [{}, { state := 2 }] }, 1, { ftype := 11, lseq := 1, nhops := 1 }, 0, by decide +kernel⟩,
    ⟨{ tS with hub.sb.reasm := [{ src := 7, mseq := 2, first := 9, bytes := [] }], hub.time.tb := BitVec.ofNat 96 (2 ^ 32 * 10 ^ 12) }, 7, 2, { src := 7, mseq := 2, first := 9, bytes := [] }, by decide +kernel⟩,
    ⟨{ tT with hub.sb.ports := [{}, { state := 2 }], hub.img := some { mesh := { dies := [(3, [])] } } }, 1, { ftype := 4, lseq := 1, payload := .heartbeat { die := 3, state := 4, quality := 0, playa := 0, ports := [], verdictSeq := 0, offset := 0, waiting := 0 } }, { die := 3, state := 4, quality := 0, playa := 0, ports := [], verdictSeq := 0, offset := 0, waiting := 0 }, {}, by decide +kernel⟩,
    ⟨{ tS with hub.sb.ports := [{}, { state := 2 }] }, 1, { ftype := 8, lseq := 1, payload := .verdict { seq := 3, entity := 0, verdict := 2, cause := 1, score := 0, generation := 0, slot := 0, floor := 0 } }, { seq := 3, entity := 0, verdict := 2, cause := 1, score := 0, generation := 0, slot := 0, floor := 0 }, by decide +kernel⟩,
    ⟨{ tT with hub.sb.ports := [{}, { state := 2 }], hub.img := some { mesh := { dies := [(3, [])] } } }, 3, 3, fun (v : SentVerdict) => decide (v.tb + 4 * ({ tT with hub.sb.ports := [{}, { state := 2 }], hub.img := some { mesh := { dies := [(3, [])] } } } : State).hub.sb.beatPeriod ≤ nowNs ({ tT with hub.sb.ports := [{}, { state := 2 }], hub.img := some { mesh := { dies := [(3, [])] } } } : State).hub) && !({ tT with hub.sb.ports := [{}, { state := 2 }], hub.img := some { mesh := { dies := [(3, [])] } } } : State).env.beaten (evHeartbeat (3 : Nat)) (v.tb + 4 * ({ tT with hub.sb.ports := [{}, { state := 2 }], hub.img := some { mesh := { dies := [(3, [])] } } } : State).hub.sb.beatPeriod) (nowNs ({ tT with hub.sb.ports := [{}, { state := 2 }], hub.img := some { mesh := { dies := [(3, [])] } } } : State).hub), by decide +kernel, by decide +kernel, by decide +kernel, rfl⟩,
    ⟨{ tT with hub.sb.ports := [{}, { state := 2 }], hub.img := some { mesh := { dies := [(3, [])] } } }, 1, { ftype := 7, lseq := 1, payload := .reply [0, 0, 0, 0, 0, 0, 0, 4] }, [0, 0, 0, 0, 0, 0, 0, 4], 4, by decide +kernel⟩,
    ⟨{ tT with hub.sb.ports := [{}, { state := 2 }], hub.cmd.relays := [{ rid := 4, die := 3, req := .channel 0, opcode := 1, cseq := 2, domain := 1, due := 5 }] }, 1, { ftype := 7, lseq := 1, payload := .reply [0, 0, 0, 0, 0, 0, 0, 4] }, [0, 0, 0, 0, 0, 0, 0, 4], 4, { rid := 4, die := 3, req := .channel 0, opcode := 1, cseq := 2, domain := 1, due := 5 }, by decide +kernel⟩⟩

/-- The hypotheses of TimeAndRoutesOverTheSideband are met. -/
theorem meets_TimeAndRoutesOverTheSideband :
    (∃ (s : State), s.env.tray = true ∧ sbRuns s.hub = true ∧ s.hub.sb.lastSync + s.hub.time.syncInt ≤ nowNs s.hub) ∧
    (∃ (s : State) (port : BitVec 4) (f : SbFrame) (origin : DWord) (corr : DWord) (c : Int), s.env.tray = false ∧
    sbOk s.env s.hub 5 port.toNat f = true ∧ f.payload = .sync origin corr ∧ c = signed 64 corr.toNat + linkDelay s.hub port.toNat) ∧
    (∃ (s : State), s.env.tray = true ∧ sbRuns s.hub = true ∧ s.hub.sb.changed.isSome = true) ∧
    (∃ (s : State) (port : BitVec 4) (f : SbFrame) (p : _) (a : Option (BitVec 4 × Route)) (cs : List (BitVec 2)), s.env.tray = false ∧
    sbOk s.env s.hub 10 port.toNat f = true ∧ sbMine s.env f = true ∧ f.payload = .routeSet p a cs) :=
  ⟨⟨{ tT with hub.time.tb := BitVec.ofNat 96 (2 ^ 32 * 10 ^ 12) }, by decide +kernel⟩,
    ⟨{ tS with hub.sb.ports := [{}, { state := 2 }] }, 1, { ftype := 5, lseq := 1, payload := .sync 7 8 }, 7, 8, signed 64 ((8 : BitVec 64)).toNat + linkDelay ({ tS with hub.sb.ports := [{}, { state := 2 }] } : State).hub 1, by decide +kernel⟩,
    ⟨{ tT with hub.sb.changed := some 5 }, by decide +kernel⟩,
    ⟨{ tS with hub.sb.ports := [{}, { state := 2 }] }, 1, { ftype := 10, lseq := 1, payload := .routeSet none none [1] }, none, none, [1], by decide +kernel⟩⟩

/-- The hypotheses of RoundDeadlines are met. -/
theorem meets_RoundDeadlines :
    (∃ (s : State) (group : BitVec 16) (seq : BitVec 16) (g : Group) (l : Nat) (r : Round), roundGroup s.hub group.toNat seq.toNat (roundOp s.hub group.toNat seq.toNat) = some g ∧
    s.env.tray = true ∧ serving s.hub = true ∧ shardGroup s.hub = none ∧ 1 ≤ l ∧ l ≤ 3 ∧
    ((∀ i, 1 ≤ i → i < l → roundAt s.hub i group.toNat seq.toNat = none)) ∧ roundAt s.hub l group.toNat seq.toNat = some r ∧ r.sent = false ∧
    r.window ≠ 0 ∧ cutoffPast s.hub r (cutoffShare l) = true ∧ s.env.beaten evContribution (cutoffAt s.hub (cutoffShare l)) (nowNs s.hub) = false) ∧
    (∃ (s : State) (group : BitVec 16) (seq : BitVec 16) (g : Group) (l : Nat) (r : Round), roundGroup s.hub group.toNat seq.toNat (roundOp s.hub group.toNat seq.toNat) = some g ∧
    s.env.tray = true ∧ serving s.hub = true ∧ shardGroup s.hub = none ∧ 1 ≤ l ∧ l ≤ 3 ∧
    ((∀ i, 1 ≤ i → i < l → roundAt s.hub i group.toNat seq.toNat = none)) ∧ roundAt s.hub l group.toNat seq.toNat = some r ∧ r.sent = false ∧
    r.window = 0 ∧ r.timer + s.hub.xs.memberTimeout ≤ nowNs s.hub ∧
    s.env.beaten evContribution (r.timer + s.hub.xs.memberTimeout) (nowNs s.hub) = false ∧ ((l ≠ 3 ∨ missingCombiners s.hub g r = []))) ∧
    (∃ (s : State) (group : BitVec 16) (seq : BitVec 16) (g : Group) (r : Round) (dst : Nat), roundGroup s.hub group.toNat seq.toNat (roundOp s.hub group.toNat seq.toNat) = some g ∧
    s.env.tray = true ∧ serving s.hub = true ∧ shardGroup s.hub = none ∧ roundAt s.hub 1 group.toNat seq.toNat = some r ∧
    roundAt s.hub 2 group.toNat seq.toNat = none ∧ roundAt s.hub 3 group.toNat seq.toNat = none ∧ r.sent = false ∧ r.direct = false ∧ r.tc.toNat ≠ 3 ∧
    r.window = 0 ∧ r.timer + s.hub.xs.memberTimeout ≤ nowNs s.hub ∧
    s.env.beaten evContribution (r.timer + s.hub.xs.memberTimeout) (nowNs s.hub) = false ∧ dst = (combinerFor g (myTray s.hub)).getD g.root ∧
    dst ≠ myTray s.hub) ∧
    (∃ (s : State) (group : BitVec 16) (seq : BitVec 16) (combiner : BitVec 10) (g : Group) (r : Round) (ts : List Nat), roundGroup s.hub group.toNat seq.toNat (roundOp s.hub group.toNat seq.toNat) = some g ∧
    s.env.tray = true ∧ serving s.hub = true ∧ roundAt s.hub 3 group.toNat seq.toNat = some r ∧ r.sent = false ∧
    (missingCombiners s.hub g r).contains combiner.toNat = true ∧ r.tc.toNat ≠ 3 ∧ r.timer + s.hub.xs.memberTimeout ≤ nowNs s.hub ∧
    s.env.beaten evContribution (r.timer + s.hub.xs.memberTimeout) (nowNs s.hub) = false ∧
    ts = (groupTrays g).filter (fun t => decide (combinerFor g t = some combiner.toNat) && !posDone r t) ∧ myTray s.hub ∉ ts) :=
  ⟨⟨{ tT with hub.xs.rounds := [(67108865, { op := 0, total := 1, use := .passing, opened := 0, expected := [3, 4], window := 3 })], hub.time.tb := BitVec.ofNat 96 (2 ^ 32 * 10 ^ 12), hub.img := some { fleet := { root := 1, combiners := [], dies := [3, 4] } }, hub.casc.window := 5 }, 0, 1, (imgOf ({ tT with hub.xs.rounds := [(67108865, { op := 0, total := 1, use := .passing, opened := 0, expected := [3, 4], window := 3 })], hub.time.tb := BitVec.ofNat 96 (2 ^ 32 * 10 ^ 12), hub.img := some { fleet := { root := 1, combiners := [], dies := [3, 4] } }, hub.casc.window := 5 } : State).hub).fleet, 1, { op := 0, total := 1, use := .passing, opened := 0, expected := [3, 4], window := 3 }, by decide +kernel, by decide +kernel, by decide +kernel, by decide +kernel, by decide +kernel, by decide +kernel, by intro i a b; omega, by decide +kernel, by decide +kernel, by decide +kernel, by decide +kernel, by decide +kernel⟩,
    ⟨{ tT with hub.xs.rounds := [(67108865, { op := 0, total := 1, use := .passing, opened := 0, expected := [3, 4] })], hub.time.tb := BitVec.ofNat 96 (2 ^ 32 * 10 ^ 12), hub.img := some { fleet := { root := 1, combiners := [], dies := [3, 4] } } }, 0, 1, (imgOf ({ tT with hub.xs.rounds := [(67108865, { op := 0, total := 1, use := .passing, opened := 0, expected := [3, 4] })], hub.time.tb := BitVec.ofNat 96 (2 ^ 32 * 10 ^ 12), hub.img := some { fleet := { root := 1, combiners := [], dies := [3, 4] } } } : State).hub).fleet, 1, { op := 0, total := 1, use := .passing, opened := 0, expected := [3, 4] }, by decide +kernel, by decide +kernel, by decide +kernel, by decide +kernel, by decide +kernel, by decide +kernel, by intro i a b; omega, by decide +kernel, by decide +kernel, by decide +kernel, by decide +kernel, by decide +kernel, by decide +kernel⟩,
    ⟨{ tT with hub.xs.rounds := [(67108865, { op := 0, total := 1, use := .passing, opened := 0, expected := [3, 4] })], hub.time.tb := BitVec.ofNat 96 (2 ^ 32 * 10 ^ 12), hub.img := some { fleet := { root := 1, combiners := [], dies := [3, 4] } } }, 0, 1, (imgOf ({ tT with hub.xs.rounds := [(67108865, { op := 0, total := 1, use := .passing, opened := 0, expected := [3, 4] })], hub.time.tb := BitVec.ofNat 96 (2 ^ 32 * 10 ^ 12), hub.img := some { fleet := { root := 1, combiners := [], dies := [3, 4] } } } : State).hub).fleet, { op := 0, total := 1, use := .passing, opened := 0, expected := [3, 4] }, 1, by decide +kernel⟩,
    ⟨{ tT with hub.xs.rounds := [(201326593, { op := 0, total := 1, use := .passing, opened := 0, expected := [3, 4] })], hub.time.tb := BitVec.ofNat 96 (2 ^ 32 * 10 ^ 12), hub.img := some { fleet := { root := 0, combiners := [1], dies := [130] } } }, 0, 1, 1, (imgOf ({ tT with hub.xs.rounds := [(201326593, { op := 0, total := 1, use := .passing, opened := 0, expected := [3, 4] })], hub.time.tb := BitVec.ofNat 96 (2 ^ 32 * 10 ^ 12), hub.img := some { fleet := { root := 0, combiners := [1], dies := [130] } } } : State).hub).fleet, { op := 0, total := 1, use := .passing, opened := 0, expected := [3, 4] }, [1], by decide +kernel⟩⟩

/-- The hypotheses of ReductionMessages are met. -/
theorem meets_ReductionMessages :
    (∃ (s : State) (bytes : List Byte) (port : BitVec 6) (p : RxPkt) (m : Red) (g : Group) (r : Round) (q : Round), photenOk s.env s.hub 0 bytes port.toNat = true ∧
    shardGroup s.hub = none ∧ p = photenFields bytes ∧ redParse p.body = some m ∧ m.result = false ∧ m.redirect = false ∧ s.env.tray = true ∧
    roundGroup s.hub m.group m.seq m.op = some g ∧ m.level = 0 ∧ isScoring s.hub m.group = false ∧ afterCutoff s.hub 1 m = false ∧
    roundAt s.hub 1 m.group m.seq = some r ∧ r.expected.contains p.src = true ∧ roundAccept r p.src { m with cover := [p.src] } = .taken q ∧
    roundFull q = false) ∧
    (∃ (s : State) (bytes : List Byte) (port : BitVec 6) (p : RxPkt) (m : Red) (g : Group) (r : Round), photenOk s.env s.hub 0 bytes port.toNat = true ∧
    shardGroup s.hub = none ∧ p = photenFields bytes ∧ redParse p.body = some m ∧ m.result = false ∧ m.redirect = false ∧ s.env.tray = true ∧
    roundGroup s.hub m.group m.seq m.op = some g ∧ m.level = 0 ∧ isScoring s.hub m.group = false ∧ afterCutoff s.hub 1 m = false ∧
    roundAt s.hub 1 m.group m.seq = some r ∧ r.expected.contains p.src = true ∧ roundAccept r p.src { m with cover := [p.src] } = .dup) ∧
    (∃ (s : State) (bytes : List Byte) (port : BitVec 6) (p : RxPkt) (m : Red) (g : Group) (r : Round), photenOk s.env s.hub 0 bytes port.toNat = true ∧
    shardGroup s.hub = none ∧ p = photenFields bytes ∧ redParse p.body = some m ∧ m.result = false ∧ m.redirect = false ∧ s.env.tray = true ∧
    roundGroup s.hub m.group m.seq m.op = some g ∧ m.level = 0 ∧ isScoring s.hub m.group = false ∧ afterCutoff s.hub 1 m = false ∧
    roundAt s.hub 1 m.group m.seq = none ∧ (trayMembers s.hub g).contains p.src = true ∧ roundRoom s.env s.hub m.group m.seq = true ∧
    r = roundTake (newRound s.hub g m p.tc (trayMembers s.hub g)) p.src { m with cover := [p.src] } ∧ roundFull r = false) ∧
    (∃ (s : State) (bytes : List Byte) (port : BitVec 6) (p : RxPkt) (m : Red) (g : Group) (r : Round) (q : Round), photenOk s.env s.hub 0 bytes port.toNat = true ∧
    shardGroup s.hub = none ∧ p = photenFields bytes ∧ redParse p.body = some m ∧ m.result = false ∧ m.redirect = false ∧ s.env.tray = true ∧
    roundGroup s.hub m.group m.seq m.op = some g ∧ m.level = 1 ∧ combinerFor g (p.src % 1024) = some (myTray s.hub) ∧
    roundAt s.hub 2 m.group m.seq = some r ∧ afterCutoff s.hub 2 m = false ∧ roundAccept r p.src { m with cover := [p.src % 1024] } = .taken q ∧
    roundFull q = false) ∧
    (∃ (s : State) (bytes : List Byte) (port : BitVec 6) (p : RxPkt) (m : Red) (g : Group) (r : Round) (q : Round), photenOk s.env s.hub 0 bytes port.toNat = true ∧
    shardGroup s.hub = none ∧ p = photenFields bytes ∧ redParse p.body = some m ∧ m.result = false ∧ m.redirect = false ∧ s.env.tray = true ∧
    roundGroup s.hub m.group m.seq m.op = some g ∧ m.level = 2 ∧ g.root = myTray s.hub ∧ roundAt s.hub 3 m.group m.seq = some r ∧
    afterCutoff s.hub 3 m = false ∧ roundAccept r p.src m = .taken q ∧ roundFull q = false) ∧
    (∃ (s : State) (bytes : List Byte) (port : BitVec 6) (p : RxPkt) (m : Red) (g : Group) (r : Round), photenOk s.env s.hub 0 bytes port.toNat = true ∧
    shardGroup s.hub = none ∧ p = photenFields bytes ∧ redParse p.body = some m ∧ m.result = true ∧ m.redirect = false ∧
    roundGroup s.hub m.group m.seq m.op = some g ∧ s.env.tray = false ∧ roundAt s.hub 0 m.group m.seq = some r ∧ r.op.toNat = m.op ∧
    (resultTake r m).done = false) ∧
    (∃ (s : State) (bytes : List Byte) (port : BitVec 6) (p : RxPkt) (m : Red) (g : Group) (r : Round), photenOk s.env s.hub 0 bytes port.toNat = true ∧
    shardGroup s.hub = none ∧ p = photenFields bytes ∧ redParse p.body = some m ∧ m.result = true ∧ m.redirect = false ∧
    roundGroup s.hub m.group m.seq m.op = some g ∧ s.env.tray = true ∧ g.combiners.contains (myTray s.hub) = false ∧ isScoring s.hub m.group = false ∧
    roundAt s.hub 1 m.group m.seq = some r ∧ p.tc ≠ 3) ∧
    (∃ (s : State) (bytes : List Byte) (port : BitVec 6) (p : RxPkt) (m : Red) (g : Group) (r : Round), photenOk s.env s.hub 0 bytes port.toNat = true ∧
    shardGroup s.hub = none ∧ p = photenFields bytes ∧ redParse p.body = some m ∧ m.redirect = true ∧ roundGroup s.hub m.group m.seq m.op = some g ∧
    s.env.tray = true ∧ roundAt s.hub 1 m.group m.seq = some r ∧ r.done = false ∧ r.direct = false ∧ r.kept = false ∧ r.sent = false) ∧
    (∃ (s : State) (bytes : List Byte) (port : BitVec 6) (p : RxPkt) (m : Red) (g : Group) (r : Round), photenOk s.env s.hub 0 bytes port.toNat = true ∧
    shardGroup s.hub = none ∧ p = photenFields bytes ∧ redParse p.body = some m ∧ m.redirect = true ∧ roundGroup s.hub m.group m.seq m.op = some g ∧
    s.env.tray = true ∧ roundAt s.hub 1 m.group m.seq = some r ∧ r.done = false ∧ r.direct = false ∧ r.kept = false ∧ r.sent = true ∧
    g.root ≠ myTray s.hub ∧ r.tc.toNat ≠ 3) :=
  ⟨⟨{ tT with hub.xs.rounds := [(67108865, { op := 0, total := 1, use := .passing, opened := 0, expected := [3, 4] })], hub.img := some { fleet := { root := 1, combiners := [], dies := [3, 4] } } }, [16, 128, 72, 0, 0, 2, 0, 0, 0, 0, 0, 3, 0, 0, 0, 0, 0, 0, 0, 0, 0, 0, 0, 1, 0, 0, 0, 0, 149, 27, 31, 7, 0, 0, 0, 1, 0, 0, 0, 0, 0, 0, 0, 1, 1, 0, 0, 0, 0, 0, 0, 1, 0, 0, 0, 0, 0, 0, 0, 0, 0, 0, 0, 0, 0, 0, 0, 0, 0, 0, 0, 0], 1, photenFields ([16, 128, 72, 0, 0, 2, 0, 0, 0, 0, 0, 3, 0, 0, 0, 0, 0, 0, 0, 0, 0, 0, 0, 1, 0, 0, 0, 0, 149, 27, 31, 7, 0, 0, 0, 1, 0, 0, 0, 0, 0, 0, 0, 1, 1, 0, 0, 0, 0, 0, 0, 1, 0, 0, 0, 0, 0, 0, 0, 0, 0, 0, 0, 0, 0, 0, 0, 0, 0, 0, 0, 0] : List Byte), (redParse (RxPkt.body (photenFields ([16, 128, 72, 0, 0, 2, 0, 0, 0, 0, 0, 3, 0, 0, 0, 0, 0, 0, 0, 0, 0, 0, 0, 1, 0, 0, 0, 0, 149, 27, 31, 7, 0, 0, 0, 1, 0, 0, 0, 0, 0, 0, 0, 1, 1, 0, 0, 0, 0, 0, 0, 1, 0, 0, 0, 0, 0, 0, 0, 0, 0, 0, 0, 0, 0, 0, 0, 0, 0, 0, 0, 0] : List Byte) : RxPkt))).getD { group := 0, seq := 0, op := 0, level := 0, total := 0 }, (imgOf ({ tT with hub.xs.rounds := [(67108865, { op := 0, total := 1, use := .passing, opened := 0, expected := [3, 4] })], hub.img := some { fleet := { root := 1, combiners := [], dies := [3, 4] } } } : State).hub).fleet, { op := 0, total := 1, use := .passing, opened := 0, expected := [3, 4] }, roundTake ({ op := 0, total := 1, use := .passing, opened := 0, expected := [3, 4] } : Round) (RxPkt.src (photenFields ([16, 128, 72, 0, 0, 2, 0, 0, 0, 0, 0, 3, 0, 0, 0, 0, 0, 0, 0, 0, 0, 0, 0, 1, 0, 0, 0, 0, 149, 27, 31, 7, 0, 0, 0, 1, 0, 0, 0, 0, 0, 0, 0, 1, 1, 0, 0, 0, 0, 0, 0, 1, 0, 0, 0, 0, 0, 0, 0, 0, 0, 0, 0, 0, 0, 0, 0, 0, 0, 0, 0, 0] : List Byte) : RxPkt)) { (((redParse (RxPkt.body (photenFields ([16, 128, 72, 0, 0, 2, 0, 0, 0, 0, 0, 3, 0, 0, 0, 0, 0, 0, 0, 0, 0, 0, 0, 1, 0, 0, 0, 0, 149, 27, 31, 7, 0, 0, 0, 1, 0, 0, 0, 0, 0, 0, 0, 1, 1, 0, 0, 0, 0, 0, 0, 1, 0, 0, 0, 0, 0, 0, 0, 0, 0, 0, 0, 0, 0, 0, 0, 0, 0, 0, 0, 0] : List Byte) : RxPkt))).getD { group := 0, seq := 0, op := 0, level := 0, total := 0 } : Red) : Red) with cover := [RxPkt.src (photenFields ([16, 128, 72, 0, 0, 2, 0, 0, 0, 0, 0, 3, 0, 0, 0, 0, 0, 0, 0, 0, 0, 0, 0, 1, 0, 0, 0, 0, 149, 27, 31, 7, 0, 0, 0, 1, 0, 0, 0, 0, 0, 0, 0, 1, 1, 0, 0, 0, 0, 0, 0, 1, 0, 0, 0, 0, 0, 0, 0, 0, 0, 0, 0, 0, 0, 0, 0, 0, 0, 0, 0, 0] : List Byte) : RxPkt)] }, by decide +kernel, by decide +kernel, rfl, by decide +kernel, by decide +kernel, by decide +kernel, by decide +kernel, by decide +kernel, by decide +kernel, by decide +kernel, by decide +kernel, by decide +kernel, by decide +kernel, tTaken (by decide +kernel), by decide +kernel⟩,
    ⟨{ tT with hub.xs.rounds := [(67108865, { op := 0, total := 1, use := .passing, opened := 0, expected := [3, 4], received := [{ src := 3, first := 0, nel := 1, total := 1, cover := [3] }] })], hub.img := some { fleet := { root := 1, combiners := [], dies := [3, 4] } } }, [16, 128, 72, 0, 0, 2, 0, 0, 0, 0, 0, 3, 0, 0, 0, 0, 0, 0, 0, 0, 0, 0, 0, 1, 0, 0, 0, 0, 149, 27, 31, 7, 0, 0, 0, 1, 0, 0, 0, 0, 0, 0, 0, 1, 1, 0, 0, 0, 0, 0, 0, 1, 0, 0, 0, 0, 0, 0, 0, 0, 0, 0, 0, 0, 0, 0, 0, 0, 0, 0, 0, 0], 1, photenFields ([16, 128, 72, 0, 0, 2, 0, 0, 0, 0, 0, 3, 0, 0, 0, 0, 0, 0, 0, 0, 0, 0, 0, 1, 0, 0, 0, 0, 149, 27, 31, 7, 0, 0, 0, 1, 0, 0, 0, 0, 0, 0, 0, 1, 1, 0, 0, 0, 0, 0, 0, 1, 0, 0, 0, 0, 0, 0, 0, 0, 0, 0, 0, 0, 0, 0, 0, 0, 0, 0, 0, 0] : List Byte), (redParse (RxPkt.body (photenFields ([16, 128, 72, 0, 0, 2, 0, 0, 0, 0, 0, 3, 0, 0, 0, 0, 0, 0, 0, 0, 0, 0, 0, 1, 0, 0, 0, 0, 149, 27, 31, 7, 0, 0, 0, 1, 0, 0, 0, 0, 0, 0, 0, 1, 1, 0, 0, 0, 0, 0, 0, 1, 0, 0, 0, 0, 0, 0, 0, 0, 0, 0, 0, 0, 0, 0, 0, 0, 0, 0, 0, 0] : List Byte) : RxPkt))).getD { group := 0, seq := 0, op := 0, level := 0, total := 0 }, (imgOf ({ tT with hub.xs.rounds := [(67108865, { op := 0, total := 1, use := .passing, opened := 0, expected := [3, 4], received := [{ src := 3, first := 0, nel := 1, total := 1, cover := [3] }] })], hub.img := some { fleet := { root := 1, combiners := [], dies := [3, 4] } } } : State).hub).fleet, { op := 0, total := 1, use := .passing, opened := 0, expected := [3, 4], received := [{ src := 3, first := 0, nel := 1, total := 1, cover := [3] }] }, by decide +kernel, by decide +kernel, rfl, by decide +kernel, by decide +kernel, by decide +kernel, by decide +kernel, by decide +kernel, by decide +kernel, by decide +kernel, by decide +kernel, by decide +kernel, by decide +kernel, tDup (by decide +kernel)⟩,
    ⟨{ tT with hub.img := some { fleet := { root := 1, combiners := [], dies := [3, 4] } } }, [16, 128, 72, 0, 0, 2, 0, 0, 0, 0, 0, 3, 0, 0, 0, 0, 0, 0, 0, 0, 0, 0, 0, 1, 0, 0, 0, 0, 149, 27, 31, 7, 0, 0, 0, 1, 0, 0, 0, 0, 0, 0, 0, 1, 1, 0, 0, 0, 0, 0, 0, 1, 0, 0, 0, 0, 0, 0, 0, 0, 0, 0, 0, 0, 0, 0, 0, 0, 0, 0, 0, 0], 1, photenFields ([16, 128, 72, 0, 0, 2, 0, 0, 0, 0, 0, 3, 0, 0, 0, 0, 0, 0, 0, 0, 0, 0, 0, 1, 0, 0, 0, 0, 149, 27, 31, 7, 0, 0, 0, 1, 0, 0, 0, 0, 0, 0, 0, 1, 1, 0, 0, 0, 0, 0, 0, 1, 0, 0, 0, 0, 0, 0, 0, 0, 0, 0, 0, 0, 0, 0, 0, 0, 0, 0, 0, 0] : List Byte), (redParse (RxPkt.body (photenFields ([16, 128, 72, 0, 0, 2, 0, 0, 0, 0, 0, 3, 0, 0, 0, 0, 0, 0, 0, 0, 0, 0, 0, 1, 0, 0, 0, 0, 149, 27, 31, 7, 0, 0, 0, 1, 0, 0, 0, 0, 0, 0, 0, 1, 1, 0, 0, 0, 0, 0, 0, 1, 0, 0, 0, 0, 0, 0, 0, 0, 0, 0, 0, 0, 0, 0, 0, 0, 0, 0, 0, 0] : List Byte) : RxPkt))).getD { group := 0, seq := 0, op := 0, level := 0, total := 0 }, (imgOf ({ tT with hub.img := some { fleet := { root := 1, combiners := [], dies := [3, 4] } } } : State).hub).fleet, roundTake (newRound ({ tT with hub.img := some { fleet := { root := 1, combiners := [], dies := [3, 4] } } } : State).hub ((imgOf ({ tT with hub.img := some { fleet := { root := 1, combiners := [], dies := [3, 4] } } } : State).hub).fleet : Group) ((redParse (RxPkt.body (photenFields ([16, 128, 72, 0, 0, 2, 0, 0, 0, 0, 0, 3, 0, 0, 0, 0, 0, 0, 0, 0, 0, 0, 0, 1, 0, 0, 0, 0, 149, 27, 31, 7, 0, 0, 0, 1, 0, 0, 0, 0, 0, 0, 0, 1, 1, 0, 0, 0, 0, 0, 0, 1, 0, 0, 0, 0, 0, 0, 0, 0, 0, 0, 0, 0, 0, 0, 0, 0, 0, 0, 0, 0] : List Byte) : RxPkt))).getD { group := 0, seq := 0, op := 0, level := 0, total := 0 } : Red) (RxPkt.tc (photenFields ([16, 128, 72, 0, 0, 2, 0, 0, 0, 0, 0, 3, 0, 0, 0, 0, 0, 0, 0, 0, 0, 0, 0, 1, 0, 0, 0, 0, 149, 27, 31, 7, 0, 0, 0, 1, 0, 0, 0, 0, 0, 0, 0, 1, 1, 0, 0, 0, 0, 0, 0, 1, 0, 0, 0, 0, 0, 0, 0, 0, 0, 0, 0, 0, 0, 0, 0, 0, 0, 0, 0, 0] : List Byte) : RxPkt)) (trayMembers ({ tT with hub.img := some { fleet := { root := 1, combiners := [], dies := [3, 4] } } } : State).hub ((imgOf ({ tT with hub.img := some { fleet := { root := 1, combiners := [], dies := [3, 4] } } } : State).hub).fleet : Group))) (RxPkt.src (photenFields ([16, 128, 72, 0, 0, 2, 0, 0, 0, 0, 0, 3, 0, 0, 0, 0, 0, 0, 0, 0, 0, 0, 0, 1, 0, 0, 0, 0, 149, 27, 31, 7, 0, 0, 0, 1, 0, 0, 0, 0, 0, 0, 0, 1, 1, 0, 0, 0, 0, 0, 0, 1, 0, 0, 0, 0, 0, 0, 0, 0, 0, 0, 0, 0, 0, 0, 0, 0, 0, 0, 0, 0] : List Byte) : RxPkt)) { (((redParse (RxPkt.body (photenFields ([16, 128, 72, 0, 0, 2, 0, 0, 0, 0, 0, 3, 0, 0, 0, 0, 0, 0, 0, 0, 0, 0, 0, 1, 0, 0, 0, 0, 149, 27, 31, 7, 0, 0, 0, 1, 0, 0, 0, 0, 0, 0, 0, 1, 1, 0, 0, 0, 0, 0, 0, 1, 0, 0, 0, 0, 0, 0, 0, 0, 0, 0, 0, 0, 0, 0, 0, 0, 0, 0, 0, 0] : List Byte) : RxPkt))).getD { group := 0, seq := 0, op := 0, level := 0, total := 0 } : Red) : Red) with cover := [RxPkt.src (photenFields ([16, 128, 72, 0, 0, 2, 0, 0, 0, 0, 0, 3, 0, 0, 0, 0, 0, 0, 0, 0, 0, 0, 0, 1, 0, 0, 0, 0, 149, 27, 31, 7, 0, 0, 0, 1, 0, 0, 0, 0, 0, 0, 0, 1, 1, 0, 0, 0, 0, 0, 0, 1, 0, 0, 0, 0, 0, 0, 0, 0, 0, 0, 0, 0, 0, 0, 0, 0, 0, 0, 0, 0] : List Byte) : RxPkt)] }, by decide +kernel, by decide +kernel, rfl, by decide +kernel, by decide +kernel, by decide +kernel, by decide +kernel, by decide +kernel, by decide +kernel, by decide +kernel, by decide +kernel, by decide +kernel, by decide +kernel, by decide +kernel, by decide +kernel, by decide +kernel⟩,
    ⟨{ tT with hub.xs.rounds := [(134217729, { op := 0, total := 1, use := .passing, opened := 0, expected := [1, 2] })], hub.img := some { fleet := { root := 5, combiners := [0], dies := [130, 300] } } }, [16, 128, 72, 0, 0, 2, 0, 0, 0, 2, 0, 1, 0, 0, 0, 0, 0, 0, 0, 0, 0, 0, 0, 1, 0, 0, 0, 0, 62, 169, 116, 169, 0, 0, 0, 1, 1, 0, 0, 0, 0, 0, 0, 1, 1, 0, 0, 0, 0, 0, 0, 1, 0, 0, 0, 0, 0, 0, 0, 0, 0, 0, 0, 0, 0, 0, 0, 0, 0, 0, 0, 0], 1, photenFields ([16, 128, 72, 0, 0, 2, 0, 0, 0, 2, 0, 1, 0, 0, 0, 0, 0, 0, 0, 0, 0, 0, 0, 1, 0, 0, 0, 0, 62, 169, 116, 169, 0, 0, 0, 1, 1, 0, 0, 0, 0, 0, 0, 1, 1, 0, 0, 0, 0, 0, 0, 1, 0, 0, 0, 0, 0, 0, 0, 0, 0, 0, 0, 0, 0, 0, 0, 0, 0, 0, 0, 0] : List Byte), (redParse (RxPkt.body (photenFields ([16, 128, 72, 0, 0, 2, 0, 0, 0, 2, 0, 1, 0, 0, 0, 0, 0, 0, 0, 0, 0, 0, 0, 1, 0, 0, 0, 0, 62, 169, 116, 169, 0, 0, 0, 1, 1, 0, 0, 0, 0, 0, 0, 1, 1, 0, 0, 0, 0, 0, 0, 1, 0, 0, 0, 0, 0, 0, 0, 0, 0, 0, 0, 0, 0, 0, 0, 0, 0, 0, 0, 0] : List Byte) : RxPkt))).getD { group := 0, seq := 0, op := 0, level := 0, total := 0 }, (imgOf ({ tT with hub.xs.rounds := [(134217729, { op := 0, total := 1, use := .passing, opened := 0, expected := [1, 2] })], hub.img := some { fleet := { root := 5, combiners := [0], dies := [130, 300] } } } : State).hub).fleet, { op := 0, total := 1, use := .passing, opened := 0, expected := [1, 2] }, roundTake ({ op := 0, total := 1, use := .passing, opened := 0, expected := [1, 2] } : Round) (RxPkt.src (photenFields ([16, 128, 72, 0, 0, 2, 0, 0, 0, 2, 0, 1, 0, 0, 0, 0, 0, 0, 0, 0, 0, 0, 0, 1, 0, 0, 0, 0, 62, 169, 116, 169, 0, 0, 0, 1, 1, 0, 0, 0, 0, 0, 0, 1, 1, 0, 0, 0, 0, 0, 0, 1, 0, 0, 0, 0, 0, 0, 0, 0, 0, 0, 0, 0, 0, 0, 0, 0, 0, 0, 0, 0] : List Byte) : RxPkt)) { (((redParse (RxPkt.body (photenFields ([16, 128, 72, 0, 0, 2, 0, 0, 0, 2, 0, 1, 0, 0, 0, 0, 0, 0, 0, 0, 0, 0, 0, 1, 0, 0, 0, 0, 62, 169, 116, 169, 0, 0, 0, 1, 1, 0, 0, 0, 0, 0, 0, 1, 1, 0, 0, 0, 0, 0, 0, 1, 0, 0, 0, 0, 0, 0, 0, 0, 0, 0, 0, 0, 0, 0, 0, 0, 0, 0, 0, 0] : List Byte) : RxPkt))).getD { group := 0, seq := 0, op := 0, level := 0, total := 0 } : Red) : Red) with cover := [RxPkt.src (photenFields ([16, 128, 72, 0, 0, 2, 0, 0, 0, 2, 0, 1, 0, 0, 0, 0, 0, 0, 0, 0, 0, 0, 0, 1, 0, 0, 0, 0, 62, 169, 116, 169, 0, 0, 0, 1, 1, 0, 0, 0, 0, 0, 0, 1, 1, 0, 0, 0, 0, 0, 0, 1, 0, 0, 0, 0, 0, 0, 0, 0, 0, 0, 0, 0, 0, 0, 0, 0, 0, 0, 0, 0] : List Byte) : RxPkt) % 1024] }, by decide +kernel, by decide +kernel, rfl, by decide +kernel, by decide +kernel, by decide +kernel, by decide +kernel, by decide +kernel, by decide +kernel, by decide +kernel, by decide +kernel, by decide +kernel, tTaken (by decide +kernel), by decide +kernel⟩,
    ⟨{ tT with hub.xs.rounds := [(201326593, { op := 0, total := 1, use := .passing, opened := 0, expected := [1, 2] })], hub.img := some { fleet := { root := 0, combiners := [], dies := [130, 300] } } }, [16, 128, 72, 0, 0, 2, 0, 0, 0, 2, 0, 1, 0, 0, 0, 0, 0, 0, 0, 0, 0, 0, 0, 1, 0, 0, 0, 0, 11, 88, 200, 167, 0, 0, 0, 1, 2, 0, 0, 0, 0, 0, 0, 1, 1, 0, 0, 0, 0, 0, 0, 1, 0, 0, 0, 0, 0, 0, 0, 2, 0, 0, 0, 0, 0, 0, 0, 0, 0, 0, 0, 0], 1, photenFields ([16, 128, 72, 0, 0, 2, 0, 0, 0, 2, 0, 1, 0, 0, 0, 0, 0, 0, 0, 0, 0, 0, 0, 1, 0, 0, 0, 0, 11, 88, 200, 167, 0, 0, 0, 1, 2, 0, 0, 0, 0, 0, 0, 1, 1, 0, 0, 0, 0, 0, 0, 1, 0, 0, 0, 0, 0, 0, 0, 2, 0, 0, 0, 0, 0, 0, 0, 0, 0, 0, 0, 0] : List Byte), (redParse (RxPkt.body (photenFields ([16, 128, 72, 0, 0, 2, 0, 0, 0, 2, 0, 1, 0, 0, 0, 0, 0, 0, 0, 0, 0, 0, 0, 1, 0, 0, 0, 0, 11, 88, 200, 167, 0, 0, 0, 1, 2, 0, 0, 0, 0, 0, 0, 1, 1, 0, 0, 0, 0, 0, 0, 1, 0, 0, 0, 0, 0, 0, 0, 2, 0, 0, 0, 0, 0, 0, 0, 0, 0, 0, 0, 0] : List Byte) : RxPkt))).getD { group := 0, seq := 0, op := 0, level := 0, total := 0 }, (imgOf ({ tT with hub.xs.rounds := [(201326593, { op := 0, total := 1, use := .passing, opened := 0, expected := [1, 2] })], hub.img := some { fleet := { root := 0, combiners := [], dies := [130, 300] } } } : State).hub).fleet, { op := 0, total := 1, use := .passing, opened := 0, expected := [1, 2] }, roundTake ({ op := 0, total := 1, use := .passing, opened := 0, expected := [1, 2] } : Round) (RxPkt.src (photenFields ([16, 128, 72, 0, 0, 2, 0, 0, 0, 2, 0, 1, 0, 0, 0, 0, 0, 0, 0, 0, 0, 0, 0, 1, 0, 0, 0, 0, 11, 88, 200, 167, 0, 0, 0, 1, 2, 0, 0, 0, 0, 0, 0, 1, 1, 0, 0, 0, 0, 0, 0, 1, 0, 0, 0, 0, 0, 0, 0, 2, 0, 0, 0, 0, 0, 0, 0, 0, 0, 0, 0, 0] : List Byte) : RxPkt)) ((redParse (RxPkt.body (photenFields ([16, 128, 72, 0, 0, 2, 0, 0, 0, 2, 0, 1, 0, 0, 0, 0, 0, 0, 0, 0, 0, 0, 0, 1, 0, 0, 0, 0, 11, 88, 200, 167, 0, 0, 0, 1, 2, 0, 0, 0, 0, 0, 0, 1, 1, 0, 0, 0, 0, 0, 0, 1, 0, 0, 0, 0, 0, 0, 0, 2, 0, 0, 0, 0, 0, 0, 0, 0, 0, 0, 0, 0] : List Byte) : RxPkt))).getD { group := 0, seq := 0, op := 0, level := 0, total := 0 } : Red), by decide +kernel, by decide +kernel, rfl, by decide +kernel, by decide +kernel, by decide +kernel, by decide +kernel, by decide +kernel, by decide +kernel, by decide +kernel, by decide +kernel, by decide +kernel, tTaken (by decide +kernel), by decide +kernel⟩,
    ⟨{ tS with hub.xs.rounds := [(1, { op := 0, total := 2, use := .passing, opened := 0, expected := [3, 4] })], hub.img := some { fleet := { root := 1, combiners := [], dies := [3, 4] } } }, [16, 128, 72, 0, 0, 0, 0, 0, 0, 2, 0, 0, 0, 0, 0, 0, 0, 0, 0, 0, 0, 0, 0, 1, 0, 0, 0, 0, 155, 210, 32, 239, 0, 0, 0, 1, 0, 128, 0, 0, 0, 0, 0, 2, 1, 0, 0, 0, 0, 0, 0, 1, 0, 0, 0, 0, 0, 0, 0, 0, 0, 0, 0, 0, 0, 0, 0, 0, 0, 0, 0, 0], 1, photenFields ([16, 128, 72, 0, 0, 0, 0, 0, 0, 2, 0, 0, 0, 0, 0, 0, 0, 0, 0, 0, 0, 0, 0, 1, 0, 0, 0, 0, 155, 210, 32, 239, 0, 0, 0, 1, 0, 128, 0, 0, 0, 0, 0, 2, 1, 0, 0, 0, 0, 0, 0, 1, 0, 0, 0, 0, 0, 0, 0, 0, 0, 0, 0, 0, 0, 0, 0, 0, 0, 0, 0, 0] : List Byte), (redParse (RxPkt.body (photenFields ([16, 128, 72, 0, 0, 0, 0, 0, 0, 2, 0, 0, 0, 0, 0, 0, 0, 0, 0, 0, 0, 0, 0, 1, 0, 0, 0, 0, 155, 210, 32, 239, 0, 0, 0, 1, 0, 128, 0, 0, 0, 0, 0, 2, 1, 0, 0, 0, 0, 0, 0, 1, 0, 0, 0, 0, 0, 0, 0, 0, 0, 0, 0, 0, 0, 0, 0, 0, 0, 0, 0, 0] : List Byte) : RxPkt))).getD { group := 0, seq := 0, op := 0, level := 0, total := 0 }, (imgOf ({ tS with hub.xs.rounds := [(1, { op := 0, total := 2, use := .passing, opened := 0, expected := [3, 4] })], hub.img := some { fleet := { root := 1, combiners := [], dies := [3, 4] } } } : State).hub).fleet, { op := 0, total := 2, use := .passing, opened := 0, expected := [3, 4] }, by decide +kernel, by decide +kernel, rfl, by decide +kernel, by decide +kernel, by decide +kernel, by decide +kernel, by decide +kernel, by decide +kernel, by decide +kernel, by decide +kernel⟩,
    ⟨{ tT with hub.xs.rounds := [(67108865, { op := 0, total := 1, use := .passing, opened := 0, expected := [3, 4] })], hub.img := some { fleet := { root := 1, combiners := [], dies := [3, 4] } } }, [16, 128, 72, 0, 0, 2, 0, 0, 0, 2, 0, 1, 0, 0, 0, 0, 0, 0, 0, 0, 0, 0, 0, 1, 0, 0, 0, 0, 176, 233, 177, 133, 0, 0, 0, 1, 0, 128, 0, 0, 0, 0, 0, 1, 1, 0, 0, 0, 0, 0, 0, 1, 0, 0, 0, 0, 0, 0, 0, 0, 0, 0, 0, 0, 0, 0, 0, 0, 0, 0, 0, 0], 1, photenFields ([16, 128, 72, 0, 0, 2, 0, 0, 0, 2, 0, 1, 0, 0, 0, 0, 0, 0, 0, 0, 0, 0, 0, 1, 0, 0, 0, 0, 176, 233, 177, 133, 0, 0, 0, 1, 0, 128, 0, 0, 0, 0, 0, 1, 1, 0, 0, 0, 0, 0, 0, 1, 0, 0, 0, 0, 0, 0, 0, 0, 0, 0, 0, 0, 0, 0, 0, 0, 0, 0, 0, 0] : List Byte), (redParse (RxPkt.body (photenFields ([16, 128, 72, 0, 0, 2, 0, 0, 0, 2, 0, 1, 0, 0, 0, 0, 0, 0, 0, 0, 0, 0, 0, 1, 0, 0, 0, 0, 176, 233, 177, 133, 0, 0, 0, 1, 0, 128, 0, 0, 0, 0, 0, 1, 1, 0, 0, 0, 0, 0, 0, 1, 0, 0, 0, 0, 0, 0, 0, 0, 0, 0, 0, 0, 0, 0, 0, 0, 0, 0, 0, 0] : List Byte) : RxPkt))).getD { group := 0, seq := 0, op := 0, level := 0, total := 0 }, (imgOf ({ tT with hub.xs.rounds := [(67108865, { op := 0, total := 1, use := .passing, opened := 0, expected := [3, 4] })], hub.img := some { fleet := { root := 1, combiners := [], dies := [3, 4] } } } : State).hub).fleet, { op := 0, total := 1, use := .passing, opened := 0, expected := [3, 4] }, by decide +kernel, by decide +kernel, rfl, by decide +kernel, by decide +kernel, by decide +kernel, by decide +kernel, by decide +kernel, by decide +kernel, by decide +kernel, by decide +kernel, by decide +kernel⟩,
    ⟨{ tT with hub.xs.rounds := [(67108865, { op := 0, total := 1, use := .passing, opened := 0, expected := [3, 4] })], hub.img := some { fleet := { root := 1, combiners := [], dies := [3, 4] } } }, [16, 128, 72, 0, 0, 2, 0, 0, 0, 2, 0, 1, 0, 0, 0, 0, 0, 0, 0, 0, 0, 0, 0, 1, 0, 0, 0, 0, 83, 163, 240, 93, 0, 0, 0, 1, 0, 64, 0, 0, 0, 0, 0, 1, 1, 0, 0, 0, 0, 0, 0, 1, 0, 0, 0, 0, 0, 0, 0, 0, 0, 0, 0, 0, 0, 0, 0, 0, 0, 0, 0, 0], 1, photenFields ([16, 128, 72, 0, 0, 2, 0, 0, 0, 2, 0, 1, 0, 0, 0, 0, 0, 0, 0, 0, 0, 0, 0, 1, 0, 0, 0, 0, 83, 163, 240, 93, 0, 0, 0, 1, 0, 64, 0, 0, 0, 0, 0, 1, 1, 0, 0, 0, 0, 0, 0, 1, 0, 0, 0, 0, 0, 0, 0, 0, 0, 0, 0, 0, 0, 0, 0, 0, 0, 0, 0, 0] : List Byte), (redParse (RxPkt.body (photenFields ([16, 128, 72, 0, 0, 2, 0, 0, 0, 2, 0, 1, 0, 0, 0, 0, 0, 0, 0, 0, 0, 0, 0, 1, 0, 0, 0, 0, 83, 163, 240, 93, 0, 0, 0, 1, 0, 64, 0, 0, 0, 0, 0, 1, 1, 0, 0, 0, 0, 0, 0, 1, 0, 0, 0, 0, 0, 0, 0, 0, 0, 0, 0, 0, 0, 0, 0, 0, 0, 0, 0, 0] : List Byte) : RxPkt))).getD { group := 0, seq := 0, op := 0, level := 0, total := 0 }, (imgOf ({ tT with hub.xs.rounds := [(67108865, { op := 0, total := 1, use := .passing, opened := 0, expected := [3, 4] })], hub.img := some { fleet := { root := 1, combiners := [], dies := [3, 4] } } } : State).hub).fleet, { op := 0, total := 1, use := .passing, opened := 0, expected := [3, 4] }, by decide +kernel, by decide +kernel, rfl, by decide +kernel, by decide +kernel, by decide +kernel, by decide +kernel, by decide +kernel, by decide +kernel, by decide +kernel, by decide +kernel, by decide +kernel⟩,
    ⟨{ tT with hub.xs.rounds := [(67108865, { op := 0, total := 1, use := .passing, opened := 0, expected := [3, 4], sent := true })], hub.img := some { fleet := { root := 1, combiners := [], dies := [3, 4] } } }, [16, 128, 72, 0, 0, 2, 0, 0, 0, 2, 0, 1, 0, 0, 0, 0, 0, 0, 0, 0, 0, 0, 0, 1, 0, 0, 0, 0, 83, 163, 240, 93, 0, 0, 0, 1, 0, 64, 0, 0, 0, 0, 0, 1, 1, 0, 0, 0, 0, 0, 0, 1, 0, 0, 0, 0, 0, 0, 0, 0, 0, 0, 0, 0, 0, 0, 0, 0, 0, 0, 0, 0], 1, photenFields ([16, 128, 72, 0, 0, 2, 0, 0, 0, 2, 0, 1, 0, 0, 0, 0, 0, 0, 0, 0, 0, 0, 0, 1, 0, 0, 0, 0, 83, 163, 240, 93, 0, 0, 0, 1, 0, 64, 0, 0, 0, 0, 0, 1, 1, 0, 0, 0, 0, 0, 0, 1, 0, 0, 0, 0, 0, 0, 0, 0, 0, 0, 0, 0, 0, 0, 0, 0, 0, 0, 0, 0] : List Byte), (redParse (RxPkt.body (photenFields ([16, 128, 72, 0, 0, 2, 0, 0, 0, 2, 0, 1, 0, 0, 0, 0, 0, 0, 0, 0, 0, 0, 0, 1, 0, 0, 0, 0, 83, 163, 240, 93, 0, 0, 0, 1, 0, 64, 0, 0, 0, 0, 0, 1, 1, 0, 0, 0, 0, 0, 0, 1, 0, 0, 0, 0, 0, 0, 0, 0, 0, 0, 0, 0, 0, 0, 0, 0, 0, 0, 0, 0] : List Byte) : RxPkt))).getD { group := 0, seq := 0, op := 0, level := 0, total := 0 }, (imgOf ({ tT with hub.xs.rounds := [(67108865, { op := 0, total := 1, use := .passing, opened := 0, expected := [3, 4], sent := true })], hub.img := some { fleet := { root := 1, combiners := [], dies := [3, 4] } } } : State).hub).fleet, { op := 0, total := 1, use := .passing, opened := 0, expected := [3, 4], sent := true }, by decide +kernel, by decide +kernel, rfl, by decide +kernel, by decide +kernel, by decide +kernel, by decide +kernel, by decide +kernel, by decide +kernel, by decide +kernel, by decide +kernel, by decide +kernel, by decide +kernel, by decide +kernel⟩⟩

/-- The hypotheses of WindowsAndRhizomes are met. -/
theorem meets_WindowsAndRhizomes :
    (∃ (s : State), working s.hub = true ∧ s.hub.casc.window < nowNs s.hub / (imgOf s.hub).windowNs ∧
    (∀ p ∈ s.hub.bc.apply, windowEnded { s.hub with casc := { s.hub.casc with window := s.hub.casc.window + 1 } } p.1 = false)) ∧
    (∃ (s : State) (bytes : List Byte) (port : BitVec 6) (b : List Byte) (sg : Scoring) (r : Rhizome) (pos : Nat) (ps : List (Word × List Word)), s.env.tray = true ∧
    serving s.hub = true ∧ photenOk s.env s.hub 4 bytes port.toNat = true ∧ shardGroup s.hub = some sg ∧ s.hub.casc.rhizome = some r ∧
    b = (photenFields bytes).body ∧ pos = sg.members.idxOf ((photenFields bytes).src % 1024) ∧
    ps = (readParts sg b.length (b.drop 8)).filter (fun p => (entsAt s.hub sg pos).contains p.1) ∧ r.step ≠ 2) ∧
    (∃ (s : State) (bytes : List Byte) (port : BitVec 6) (b : List Byte) (sg : Scoring) (r : Rhizome) (pos : Nat) (ps : List (Word × List Word)) (got : List Nat) (heard : List Nat), s.env.tray = true ∧
    serving s.hub = true ∧ photenOk s.env s.hub 4 bytes port.toNat = true ∧ shardGroup s.hub = some sg ∧ s.hub.casc.rhizome = some r ∧
    b = (photenFields bytes).body ∧ pos = sg.members.idxOf ((photenFields bytes).src % 1024) ∧
    ps = (readParts sg b.length (b.drop 8)).filter (fun p => (entsAt s.hub sg pos).contains p.1) ∧ r.step = 2 ∧ pos < sg.members.length ∧
    beAt b 0 4 = r.window % 2 ^ 32 ∧ got = (r.present ++ ps.map (fun p => p.1.toNat)).dedup ∧
    heard = (if (entsAt s.hub sg pos).all (fun x => got.contains x.toNat) then (r.heard ++ [pos]).dedup else r.heard) ∧
    (List.range sg.members.length).all (fun i => decide (i = myPos s.hub sg) || heard.contains i) = false) ∧
    (∃ (s : State) (step : BitVec 3) (sg : Scoring) (r : Rhizome), s.env.tray = true ∧ working s.hub = true ∧ shardGroup s.hub = some sg ∧
    s.hub.casc.rhizome = some r ∧ r.step = step.toNat ∧ 100 * (nowNs s.hub - r.boundary) ≥ rhizShare step.toNat * (imgOf s.hub).windowNs ∧
    s.env.beaten evRound (r.boundary + rhizShare step.toNat * (imgOf s.hub).windowNs / 100) (nowNs s.hub) = false ∧ step = 2) ∧
    (∃ (s : State) (step : BitVec 3) (sg : Scoring) (r : Rhizome), s.env.tray = true ∧ working s.hub = true ∧ shardGroup s.hub = some sg ∧
    s.hub.casc.rhizome = some r ∧ r.step = step.toNat ∧ 100 * (nowNs s.hub - r.boundary) ≥ rhizShare step.toNat * (imgOf s.hub).windowNs ∧
    s.env.beaten evRound (r.boundary + rhizShare step.toNat * (imgOf s.hub).windowNs / 100) (nowNs s.hub) = false ∧ step = 4) ∧
    (∃ (s : State) (step : BitVec 3) (sg : Scoring) (r : Rhizome), s.env.tray = true ∧ working s.hub = true ∧ shardGroup s.hub = some sg ∧
    s.hub.casc.rhizome = some r ∧ r.step = step.toNat ∧ 100 * (nowNs s.hub - r.boundary) ≥ rhizShare step.toNat * (imgOf s.hub).windowNs ∧
    s.env.beaten evRound (r.boundary + rhizShare step.toNat * (imgOf s.hub).windowNs / 100) (nowNs s.hub) = false ∧ step = 3) ∧
    (∃ (s : State) (step : BitVec 3) (sg : Scoring) (r : Rhizome), s.env.tray = true ∧ working s.hub = true ∧ shardGroup s.hub = some sg ∧
    s.hub.casc.rhizome = some r ∧ r.step = step.toNat ∧ 100 * (nowNs s.hub - r.boundary) ≥ rhizShare step.toNat * (imgOf s.hub).windowNs ∧
    s.env.beaten evRound (r.boundary + rhizShare step.toNat * (imgOf s.hub).windowNs / 100) (nowNs s.hub) = false ∧ step = 5) :=
  ⟨⟨{ tS with hub.time.tb := BitVec.ofNat 96 (2 ^ 32 * 10 ^ 12) }, by decide +kernel⟩,
    ⟨{ tT with hub.img := some { scoring := some { members := [0, 1, 2], handle := 2 } }, hub.casc.rhizome := some { window := 0, boundary := 0, step := 3 }, hub.time.tb := BitVec.ofNat 96 (2 ^ 32 * 10 ^ 12) }, [20, 128, 64, 0, 0, 2, 0, 0, 0, 2, 0, 1, 0, 0, 0, 0, 0, 0, 0, 0, 0, 0, 0, 1, 0, 0, 0, 0, 19, 86, 154, 146, 0, 0, 0, 0, 0, 0, 0, 0, 0, 0, 0, 0, 0, 0, 0, 0, 0, 0, 0, 0, 0, 0, 0, 0, 0, 0, 0, 0, 0, 0, 0, 0], 1, (photenFields ([20, 128, 64, 0, 0, 2, 0, 0, 0, 2, 0, 1, 0, 0, 0, 0, 0, 0, 0, 0, 0, 0, 0, 1, 0, 0, 0, 0, 19, 86, 154, 146, 0, 0, 0, 0, 0, 0, 0, 0, 0, 0, 0, 0, 0, 0, 0, 0, 0, 0, 0, 0, 0, 0, 0, 0, 0, 0, 0, 0, 0, 0, 0, 0] : List Byte)).body, { members := [0, 1, 2], handle := 2 }, { window := 0, boundary := 0, step := 3 }, 1, (readParts ({ members := [0, 1, 2], handle := 2 } : Scoring) (List.length ((photenFields ([20, 128, 64, 0, 0, 2, 0, 0, 0, 2, 0, 1, 0, 0, 0, 0, 0, 0, 0, 0, 0, 0, 0, 1, 0, 0, 0, 0, 19, 86, 154, 146, 0, 0, 0, 0, 0, 0, 0, 0, 0, 0, 0, 0, 0, 0, 0, 0, 0, 0, 0, 0, 0, 0, 0, 0, 0, 0, 0, 0, 0, 0, 0, 0] : List Byte)).body : List Byte)) ((((photenFields ([20, 128, 64, 0, 0, 2, 0, 0, 0, 2, 0, 1, 0, 0, 0, 0, 0, 0, 0, 0, 0, 0, 0, 1, 0, 0, 0, 0, 19, 86, 154, 146, 0, 0, 0, 0, 0, 0, 0, 0, 0, 0, 0, 0, 0, 0, 0, 0, 0, 0, 0, 0, 0, 0, 0, 0, 0, 0, 0, 0, 0, 0, 0, 0] : List Byte)).body : List Byte) : List Byte).drop 8)).filter (fun p => (entsAt ({ tT with hub.img := some { scoring := some { members := [0, 1, 2], handle := 2 } }, hub.casc.rhizome := some { window := 0, boundary := 0, step := 3 }, hub.time.tb := BitVec.ofNat 96 (2 ^ 32 * 10 ^ 12) } : State).hub ({ members := [0, 1, 2], handle := 2 } : Scoring) (1 : Nat)).contains p.1), by decide +kernel⟩,
    ⟨{ tT with hub.img := some { scoring := some { members := [0, 1, 2], handle := 2 } }, hub.casc.rhizome := some { window := 0, boundary := 0, step := 2 }, hub.time.tb := BitVec.ofNat 96 (2 ^ 32 * 10 ^ 12) }, [20, 128, 64, 0, 0, 2, 0, 0, 0, 2, 0, 1, 0, 0, 0, 0, 0, 0, 0, 0, 0, 0, 0, 1, 0, 0, 0, 0, 19, 86, 154, 146, 0, 0, 0, 0, 0, 0, 0, 0, 0, 0, 0, 0, 0, 0, 0, 0, 0, 0, 0, 0, 0, 0, 0, 0, 0, 0, 0, 0, 0, 0, 0, 0], 1, (photenFields ([20, 128, 64, 0, 0, 2, 0, 0, 0, 2, 0, 1, 0, 0, 0, 0, 0, 0, 0, 0, 0, 0, 0, 1, 0, 0, 0, 0, 19, 86, 154, 146, 0, 0, 0, 0, 0, 0, 0, 0, 0, 0, 0, 0, 0, 0, 0, 0, 0, 0, 0, 0, 0, 0, 0, 0, 0, 0, 0, 0, 0, 0, 0, 0] : List Byte)).body, { members := [0, 1, 2], handle := 2 }, { window := 0, boundary := 0, step := 2 }, 1, (readParts ({ members := [0, 1, 2], handle := 2 } : Scoring) (List.length ((photenFields ([20, 128, 64, 0, 0, 2, 0, 0, 0, 2, 0, 1, 0, 0, 0, 0, 0, 0, 0, 0, 0, 0, 0, 1, 0, 0, 0, 0, 19, 86, 154, 146, 0, 0, 0, 0, 0, 0, 0, 0, 0, 0, 0, 0, 0, 0, 0, 0, 0, 0, 0, 0, 0, 0, 0, 0, 0, 0, 0, 0, 0, 0, 0, 0] : List Byte)).body : List Byte)) ((((photenFields ([20, 128, 64, 0, 0, 2, 0, 0, 0, 2, 0, 1, 0, 0, 0, 0, 0, 0, 0, 0, 0, 0, 0, 1, 0, 0, 0, 0, 19, 86, 154, 146, 0, 0, 0, 0, 0, 0, 0, 0, 0, 0, 0, 0, 0, 0, 0, 0, 0, 0, 0, 0, 0, 0, 0, 0, 0, 0, 0, 0, 0, 0, 0, 0] : List Byte)).body : List Byte) : List Byte).drop 8)).filter (fun p => (entsAt ({ tT with hub.img := some { scoring := some { members := [0, 1, 2], handle := 2 } }, hub.casc.rhizome := some { window := 0, boundary := 0, step := 2 }, hub.time.tb := BitVec.ofNat 96 (2 ^ 32 * 10 ^ 12) } : State).hub ({ members := [0, 1, 2], handle := 2 } : Scoring) (1 : Nat)).contains p.1), (Rhizome.present ({ window := 0, boundary := 0, step := 2 } : Rhizome) ++ List.map (fun (p : Word × List Word) => p.1.toNat) ((readParts ({ members := [0, 1, 2], handle := 2 } : Scoring) (List.length ((photenFields ([20, 128, 64, 0, 0, 2, 0, 0, 0, 2, 0, 1, 0, 0, 0, 0, 0, 0, 0, 0, 0, 0, 0, 1, 0, 0, 0, 0, 19, 86, 154, 146, 0, 0, 0, 0, 0, 0, 0, 0, 0, 0, 0, 0, 0, 0, 0, 0, 0, 0, 0, 0, 0, 0, 0, 0, 0, 0, 0, 0, 0, 0, 0, 0] : List Byte)).body : List Byte)) ((((photenFields ([20, 128, 64, 0, 0, 2, 0, 0, 0, 2, 0, 1, 0, 0, 0, 0, 0, 0, 0, 0, 0, 0, 0, 1, 0, 0, 0, 0, 19, 86, 154, 146, 0, 0, 0, 0, 0, 0, 0, 0, 0, 0, 0, 0, 0, 0, 0, 0, 0, 0, 0, 0, 0, 0, 0, 0, 0, 0, 0, 0, 0, 0, 0, 0] : List Byte)).body : List Byte) : List Byte).drop 8)).filter (fun p => (entsAt ({ tT with hub.img := some { scoring := some { members := [0, 1, 2], handle := 2 } }, hub.casc.rhizome := some { window := 0, boundary := 0, step := 2 }, hub.time.tb := BitVec.ofNat 96 (2 ^ 32 * 10 ^ 12) } : State).hub ({ members := [0, 1, 2], handle := 2 } : Scoring) (1 : Nat)).contains p.1) : List (Word × List Word))).dedup, if (entsAt ({ tT with hub.img := some { scoring := some { members := [0, 1, 2], handle := 2 } }, hub.casc.rhizome := some { window := 0, boundary := 0, step := 2 }, hub.time.tb := BitVec.ofNat 96 (2 ^ 32 * 10 ^ 12) } : State).hub ({ members := [0, 1, 2], handle := 2 } : Scoring) (1 : Nat)).all (fun x => List.contains ((Rhizome.present ({ window := 0, boundary := 0, step := 2 } : Rhizome) ++ List.map (fun (p : Word × List Word) => p.1.toNat) ((readParts ({ members := [0, 1, 2], handle := 2 } : Scoring) (List.length ((photenFields ([20, 128, 64, 0, 0, 2, 0, 0, 0, 2, 0, 1, 0, 0, 0, 0, 0, 0, 0, 0, 0, 0, 0, 1, 0, 0, 0, 0, 19, 86, 154, 146, 0, 0, 0, 0, 0, 0, 0, 0, 0, 0, 0, 0, 0, 0, 0, 0, 0, 0, 0, 0, 0, 0, 0, 0, 0, 0, 0, 0, 0, 0, 0, 0] : List Byte)).body : List Byte)) ((((photenFields ([20, 128, 64, 0, 0, 2, 0, 0, 0, 2, 0, 1, 0, 0, 0, 0, 0, 0, 0, 0, 0, 0, 0, 1, 0, 0, 0, 0, 19, 86, 154, 146, 0, 0, 0, 0, 0, 0, 0, 0, 0, 0, 0, 0, 0, 0, 0, 0, 0, 0, 0, 0, 0, 0, 0, 0, 0, 0, 0, 0, 0, 0, 0, 0] : List Byte)).body : List Byte) : List Byte).drop 8)).filter (fun p => (entsAt ({ tT with hub.img := some { scoring := some { members := [0, 1, 2], handle := 2 } }, hub.casc.rhizome := some { window := 0, boundary := 0, step := 2 }, hub.time.tb := BitVec.ofNat 96 (2 ^ 32 * 10 ^ 12) } : State).hub ({ members := [0, 1, 2], handle := 2 } : Scoring) (1 : Nat)).contains p.1) : List (Word × List Word))).dedup : List Nat) x.toNat) then (Rhizome.heard ({ window := 0, boundary := 0, step := 2 } : Rhizome) ++ [(1 : Nat)]).dedup else Rhizome.heard ({ window := 0, boundary := 0, step := 2 } : Rhizome), by decide +kernel⟩,
    ⟨{ tT with hub.img := some { scoring := some { members := [0, 1, 2], handle := 2 } }, hub.casc.rhizome := some { window := 0, boundary := 0, step := 2 }, hub.time.tb := BitVec.ofNat 96 (2 ^ 32 * 10 ^ 12) }, 2, { members := [0, 1, 2], handle := 2 }, { window := 0, boundary := 0, step := 2 }, by decide +kernel⟩,
    ⟨{ tT with hub.img := some { scoring := some { members := [0, 1, 2], handle := 2 } }, hub.casc.rhizome := some { window := 0, boundary := 0, step := 4 }, hub.time.tb := BitVec.ofNat 96 (2 ^ 32 * 10 ^ 12) }, 4, { members := [0, 1, 2], handle := 2 }, { window := 0, boundary := 0, step := 4 }, by decide +kernel⟩,
    ⟨{ tT with hub.img := some { scoring := some { members := [0, 1, 2], handle := 2 } }, hub.casc.rhizome := some { window := 0, boundary := 0, step := 3 }, hub.time.tb := BitVec.ofNat 96 (2 ^ 32 * 10 ^ 12) }, 3, { members := [0, 1, 2], handle := 2 }, { window := 0, boundary := 0, step := 3 }, by decide +kernel⟩,
    ⟨{ tT with hub.img := some { scoring := some { members := [0, 1, 2], handle := 2 } }, hub.casc.rhizome := some { window := 0, boundary := 0, step := 5 }, hub.time.tb := BitVec.ofNat 96 (2 ^ 32 * 10 ^ 12) }, 5, { members := [0, 1, 2], handle := 2 }, { window := 0, boundary := 0, step := 5 }, by decide +kernel⟩⟩

end Sys2Proof.Machine
end

section
/-!
PROOF. The register window's accesses (O17): what a write of each kind of register makes of the hub, and that the access reaches it.
-/
namespace Sys2Proof.Machine

/-- An event at the host target port takes place while the port responds (R607). -/
theorem port_run {s : State} {f : Env → Hub → Hub} (on : portOn s.hub = true) :
    s.run (fun e h => guard (portOn h) (f e) h) = .next (s.settle (f s.env s.hub.clean)) :=
  run_guard (b := fun _ h => portOn h) on

/-! REGISTER_WRITE. -/

/-- An access of the port that is not a doorbell is its direct write, once a half held for a read is gone (R609). -/
theorem registerWrite_run {s : State} {a : BitVec 20} {z : BitVec 2} {v : DWord} (on : portOn s.hub = true) (n : doorbellAt a.toNat = none) :
    exec (.registerWrite a z v) s =
      .next (s.settle (directWrite s.env a.toNat z v { s.hub.clean with regs := { s.hub.regs with half := none } })) := by
  show s.run (direct _) = _
  rw [State.run_next]
  unfold direct
  rw [portOn_clean, on, n]
  rfl

/-- No doorbell lies at an address of no register. -/
theorem doorbellAt_of_locate_none {a : Nat} (n : locate (a / 8 * 8) = none) : doorbellAt a = none := by
  unfold doorbellAt
  rw [n]

/-- A write to no register is ignored and counted (R611). -/
theorem directWrite_nowhere {e : Env} {a : Nat} {z : BitVec 2} {v : DWord} {h : Hub} (n : locate (a / 8 * 8) = none) :
    directWrite e a z v h = ignoredWrite 0xFF a (BitVec.ofNat 64 (v.toNat % 2 ^ (8 * sizeBytes z))) h := by
  unfold directWrite
  rw [n]

/-- An ignored write is counted (R611). -/
theorem ignoredWrite_prot (u o : Nat) (v : DWord) (h : Hub) : (ignoredWrite u o v h).prot = { h.prot with ignored := h.prot.ignored + 1 } := by
  unfold ignoredWrite
  simp

/-- HUB_IRQEN takes the bits written (R620). -/
theorem writeReg_irqen (e : Env) (boot debug : Bool) (v : DWord) (h : Hub) :
    writeReg e boot debug 0 0x40 .whole v h = { h with regs := { h.regs with irqen := v.setWidth 10 } } := by
  simp [writeReg, debugOnly, partLow]

/-- A 64-bit write at 0x40 is a direct write of HUB_IRQEN. -/
theorem directWrite_irqen (e : Env) (v : DWord) (h : Hub) :
    directWrite e 0x40 3 v h = portField 0 0x40 v (fun k => { k with regs := { k.regs with irqen := v.setWidth 10 } }) h := by
  have bytes : BitVec.ofNat 64 (v.toNat % 2 ^ (8 * 8)) = v := by
    rw [Nat.mod_eq_of_lt (by exact v.isLt), BitVec.ofNat_toNat, BitVec.setWidth_eq]
  show portField 0 0x40 (BitVec.ofNat 64 (v.toNat % 2 ^ (8 * 8)))
    (writeReg e (!h.prot.locked) false 0 0x40 .whole (BitVec.ofNat 64 (v.toNat % 2 ^ (8 * 8)))) h = _
  rw [bytes]
  exact congrArg (fun f => portField 0 0x40 v f h) (funext (writeReg_irqen e _ _ v))

/-- A direct write of a register that a command has written in this cycle writes no register (R613). -/
theorem portField_overridden {u o : Nat} {v : DWord} (f : Hub → Hub) {h : Hub} (a : h.regs.cmdWrote.contains (u, o) = true) :
    (portField u o v f h).regs.irqen = h.regs.irqen ∧ (portField u o v f h).regs.portWrote = h.regs.portWrote := by
  unfold portField
  rw [if_pos a]
  obtain ⟨q, fr, hregs⟩ := (emitAt_irq 8 1 0 noEnt 11 6 ([w32 u, w32 o] ++ w64 v.toNat) (nowNs h) h).eq
  have regs : (overridden u o v h).regs = { h.regs with irqstat := q, irqFresh := fr } := hregs
  rw [regs]
  exact ⟨rfl, rfl⟩

/-! CMD_EVENT_CLEAR. -/

/-- A channel that stands in the list is the channel of its number. -/
theorem chan_of {h : Hub} {c : Nat} {x : Channel} (g : h.cmd.chans[c]? = some x) : chan h c = x := by simp [chan, getAt_eq, g]

/-- EVENT loses the bits written as one that were not set in this cycle; only where one of REPLY and NOTICE stood does the next reply come
(R468). -/
theorem clearEvent_chans {h : Hub} {c : Nat} {x : Channel} (b : BitVec 3) (g : h.cmd.chans[c]? = some x) :
    (clearEvent c b h).cmd.chans[c]? = some (
      if x.event &&& 3 ≠ 0 then chanNext { x with event := x.event &&& ~~~(b &&& ~~~x.fresh) } else { x with event := x.event &&& ~~~(b &&& ~~~x.fresh) }) ∧
    ∀ i, i ≠ c → (clearEvent c b h).cmd.chans[i]? = h.cmd.chans[i]? := by
  unfold clearEvent
  rw [chan_of g]
  refine ⟨?_, fun i n => ?_⟩
  · simp [onChan, getElem?_setAt, g, w1cSet]
  · simp [onChan, getElem?_setAt, n.symm]

/-- Once REPLY and NOTICE are clear a channel with nothing waiting has a free reply buffer (R468). -/
theorem chanNext_free {x : Channel} (e : x.event &&& 3 = 0) (w : x.waiting = []) : chanNext x = { x with rbuf := none } := by
  unfold chanNext
  rw [if_neg (by simpa using e), w]

/-! HALF_HOLD_READ. -/

/-- The low half of an aligned register is returned, and its high half held (R609). -/
theorem read32_low {e : Env} {a : BitVec 20} {h : Hub} (al : a.toNat % 8 = 0) (n : a.toNat ≠ 0x8008) :
    read32 e a h =
      let v := readWindow e { h with regs := { h.regs with half := none } } a.toNat
      { h with regs := { h.regs with half := some (a, (v >>> 32).setWidth 32), lastRead := v &&& 0xFFFFFFFF } } := by
  unfold read32
  dsimp only
  rw [if_neg (by omega), if_pos al, if_neg n]

/-- The read of the high half that follows it returns what is held (R609). -/
theorem read32_held {e : Env} {a b : BitVec 20} {w : Word} {h : Hub} (al : a.toNat % 8 = 4) (g : h.regs.half = some (b, w)) (n : b.toNat + 4 = a.toNat) :
    read32 e a h = { h with regs := { h.regs with half := none, lastRead := w.setWidth 64 } } := by
  unfold read32
  dsimp only
  rw [if_neg (by omega), if_neg (by omega), g]
  dsimp only
  rw [if_pos n]

/-- The access takes place while the port responds (R607). -/
theorem halfHoldRead_run {s : State} {a : BitVec 20} (on : portOn s.hub = true) :
    exec (.halfHoldRead a) s = .next (s.settle (read32 s.env a s.hub.clean)) := port_run (f := fun e => read32 e a) on

/-! PROT_CHc. -/

/-- A write of the reserved half writes no field (R608). -/
theorem writeProt_high (e : Env) (boot : Bool) (c : Nat) (v : DWord) (h : Hub) : writeProt e boot c .high v h = h := by simp [writeProt]

/-- Once the setup is locked a write is counted as an attempt (R478). -/
theorem writeProt_locked {e : Env} {boot : Bool} {c : Nat} {p : Part} {v : DWord} {h : Hub} (l : h.prot.locked = true) (n : p ≠ .high) :
    (writeProt e boot c p v h).prot = { h.prot with bwLocked := h.prot.bwLocked + 1 } := by
  simp [writeProt, n, l]

/-- While the setup is open BOOT's write of the whole register puts the value there (R477). -/
theorem writeProt_open {e : Env} {c : Nat} {v : DWord} {h : Hub} (l : h.prot.locked = false) :
    writeProt e true c .whole v h = protPut e c v.toNat h := by
  simp [writeProt, l, mergePart]

/-- A value that names a domain the channel may have takes its place (R478, R624). -/
theorem protPut_good {e : Env} {c v : Nat} {h : Hub} (n : bitsOf v 2 1 ≠ 0) (d : bitsOf v 2 1 = 3 → e.debugDis = false) :
    (protPut e c v h).prot = { h.prot with ch := setAt h.prot.ch c (BitVec.ofNat 64 (protBits v)) } := by
  have good : (decide (bitsOf v 2 1 = 0) || (decide (bitsOf v 2 1 = 3) && e.debugDis)) = false := by
    simpa [n] using d
  unfold protPut
  simp [good]

/-- A value that names BOOT leaves the channel disabled and is counted (R478, R624). -/
theorem protPut_boot {e : Env} {c v : Nat} {h : Hub} (z : bitsOf v 2 1 = 0) :
    (protPut e c v h).prot = { h.prot with ch := setAt h.prot.ch c (BitVec.ofNat 64 (protBits v / 2 * 2)), refused := h.prot.refused + 1 } := by
  unfold protPut
  simp [z]

/-! RES_DBG_S. -/

/-- A write of RES_DBG_S that is not DEBUG's is ignored (R159, R611). -/
theorem writeReg_dbgS_ignored (e : Env) (boot : Bool) (p : Part) (v : DWord) (h : Hub) :
    writeReg e boot false 32 0x38 p v h = ignoredWrite 32 0x38 v h := by
  simp [writeReg, debugOnly]

/-- DEBUG's write of the whole of RES_DBG_S with FIXED 0 takes its bits (R159). -/
theorem writeReg_dbgS {e : Env} {boot : Bool} {v : DWord} {h : Hub} (die : e.tray = false) (n : v.getLsbD 63 = false) :
    writeReg e boot true 32 0x38 .whole v h = { h with res := { h.res with dbgS := v &&& 0x9FFFFFFFFFFFFFFF } } := by
  have fixed : (v &&& 0x9FFFFFFFFFFFFFFF).getLsbD 63 = false := by rw [BitVec.getLsbD_and, n, Bool.false_and]
  have here : writeReg e boot true 32 0x38 .whole v h = writeDbgS .whole v h := by simp [writeReg, debugOnly, die]
  rw [here]
  unfold writeDbgS
  dsimp only [mergePart]
  rw [fixed]
  rfl

/-- A write of RES_DBG_S reaches the register's own write, as DEBUG's or as a direct one (R123, R613). -/
theorem resDbgSWrite_run {s : State} (debug : Bool) {p : Part} {v : DWord} (on : portOn s.hub = true) :
    exec (.resDbgSWrite debug p v) s = .next (s.settle
      ((if debug then commandField 32 0x38 else portField 32 0x38 v) (writeReg s.env false debug 32 0x38 p v) s.hub.clean)) :=
  port_run (f := fun e => (if debug then commandField 32 0x38 else portField 32 0x38 v) (writeReg e false debug 32 0x38 p v)) on

/-! CMD_DOORBELL. -/

/-- A doorbell of a busy buffer sets ERR, and what the buffer holds is then taken (R467, R468). -/
theorem doorbell_busy {e : Env} {h : Hub} {ch : BitVec 2} {len : Nat} {x : Channel} {b : List Byte} (o : chanOn h ch.toNat = true)
    (g : h.cmd.chans[ch.toNat]? = some x) (q : x.submitted = some b) :
    takeSubmitted e ch.toNat (ringDoorbell ch.toNat len h) = packetIn opcodes e (.channel ch) b { h with
      cmd := { h.cmd with chans := setAt h.cmd.chans ch.toNat { x with event := x.event ||| 4, fresh := x.fresh ||| 4, submitted := none } } } := by
  have rings : ringDoorbell ch.toNat len h = onChan ch.toNat (fun x => { x with event := x.event ||| 4, fresh := x.fresh ||| 4 }) h := by
    simp [ringDoorbell, o, chan_of g, q]
  have busy : chan (onChan ch.toNat (fun x => { x with event := x.event ||| 4, fresh := x.fresh ||| 4 }) h) ch.toNat =
      { x with event := x.event ||| 4, fresh := x.fresh ||| 4 } :=
    chan_of (by simp [onChan, getElem?_setAt, g, chan_of g])
  have number : BitVec.ofNat 2 ch.toNat = ch := by simp
  rw [rings]
  unfold takeSubmitted
  rw [busy]
  dsimp only
  rw [q, number]
  dsimp only
  unfold onChan at busy ⊢
  rw [busy, chan_of g]
  dsimp only
  rw [setAt_setAt]

/-- Settles O17: `registerWrite_run`, `directReg_run`, `halfHoldRead_run` and `resDbgSWrite_run` say that the access reaches its register, and
the lemma on each register what it does there. -/
theorem registerAccesses : Obligations.RegisterAccesses := by
  unfold Obligations.RegisterAccesses
  refine ⟨fun s a z v on nowhere => ?_, fun s v on free => ?_, fun s m on free => ?_, fun s ch b x on free g clear => ?_,
    fun s ch b x on free g full clear quiet => ?_, fun s a on al n => ?_, fun s a b w on al held next => ?_,
    fun s ch v on free locked => ⟨fun p n => ?_, ?_⟩, fun s ch v on free unlocked => ⟨fun n d => ?_, fun z => ?_⟩,
    fun s p v on free => ?_, fun s v on die n alone => ?_, fun s v on wrote => ?_,
    fun s ch len x code order cseq target ws d on free o g idle parsed op => ?_, fun s ch len x b on free o g busy => ?_⟩
  · refine ⟨_, registerWrite_run on (doorbellAt_of_locate_none nowhere), ?_, ?_, ?_⟩
    · rw [State.settle_hub, Hub.clean_prot, directWrite_nowhere nowhere, ignoredWrite_prot]
      rfl
    · simp [directWrite_nowhere nowhere]
    · simp [directWrite_nowhere nowhere]
  · refine ⟨_, registerWrite_run on (by decide), ?_⟩
    rw [State.settle_hub, show (0x40 : BitVec 20).toNat = 0x40 from rfl, directWrite_irqen, portField_free (by exact free)]
    rfl
  · exact ⟨_, directReg_run on free, rfl⟩
  · obtain ⟨here, others⟩ := clearEvent_chans (h := noted 1 (0x1000 * ch.toNat + 0x18) (b.setWidth 64) s.hub) b g
    rw [if_neg (by simpa using clear)] at here
    exact ⟨_, directReg_run on free, here, others, rfl⟩
  · obtain ⟨here, others⟩ := clearEvent_chans (h := noted 1 (0x1000 * ch.toNat + 0x18) (b.setWidth 64) s.hub) b g
    rw [if_pos full, chanNext_free (x := { x with event := x.event &&& ~~~(b &&& ~~~x.fresh) }) clear quiet] at here
    exact ⟨_, directReg_run on free, here, others⟩
  · refine ⟨_, halfHoldRead_run on, _, rfl, ?_⟩
    rw [State.settle_hub, read32_low al n]
    rfl
  · refine ⟨_, halfHoldRead_run on, ?_⟩
    rw [State.settle_hub, read32_held (h := s.hub.clean) al held next]
    rfl
  · exact ⟨_, directReg_run on free, writeProt_locked (h := noted 11 (8 + 8 * ch.toNat) v s.hub) locked n⟩
  · refine ⟨_, directReg_run on free, ?_⟩
    rw [State.settle_hub, writeProt_high]
    rfl
  · refine ⟨_, directReg_run on free, ?_⟩
    show (writeProt s.env (!s.hub.prot.locked) ch.toNat .whole v (noted 11 (8 + 8 * ch.toNat) v s.hub)).prot = _
    rw [unlocked, Bool.not_false, writeProt_open (by exact unlocked), protPut_good n d]
    rfl
  · refine ⟨_, directReg_run on free, ?_⟩
    show (writeProt s.env (!s.hub.prot.locked) ch.toNat .whole v (noted 11 (8 + 8 * ch.toNat) v s.hub)).prot = _
    rw [unlocked, Bool.not_false, writeProt_open (by exact unlocked), protPut_boot z]
    rfl
  · refine ⟨_, resDbgSWrite_run false on, ?_⟩
    rw [State.settle_hub, if_neg (by decide), portField_free (by exact free), writeReg_dbgS_ignored]
    exact ⟨by simp, by rw [Hub.clean_prot, ignoredWrite_prot]; rfl⟩
  · refine ⟨_, resDbgSWrite_run true on, ?_⟩
    rw [State.settle_hub, if_pos rfl, commandField_free (by exact alone), writeReg_dbgS die n]
    rfl
  · refine ⟨_, registerWrite_run on (by decide), ?_⟩
    rw [State.settle_hub, show (0x40 : BitVec 20).toNat = 0x40 from rfl, directWrite_irqen]
    exact portField_overridden _ wrote
  · exact ⟨_, directReg_run on free, congrArg s.settle
      (doorbell_runs (h := noted 1 (0x1000 * ch.toNat + 8) (len.setWidth 64) s.hub) on o g idle parsed op)⟩
  · exact ⟨_, directReg_run on free, congrArg s.settle
      (doorbell_busy (h := noted 1 (0x1000 * ch.toNat + 8) (len.setWidth 64) s.hub) o g busy)⟩

end Sys2Proof.Machine
end

section
/-!
PROOF. The commands of the lichen cells (O18): one lemma says what a command that changes a core's settings leaves, whether the region's clock
runs or not; the others say what the change does at the cell.
-/
namespace Sys2Proof.Machine

/-! A change of a core's settings. -/

/-- A change goes to a cell at once while its region's clock runs (R47). -/
theorem sendCell_runs {e : Env} {c : Nat} {w : Wait} {h : Hub} (r : (region h (regionOf c)).stopped = false) :
    sendCell e c w h = (applyWait e c w h, false) := by
  simp [sendCell, r]

/-- A change waits for the clock of a stopped region (R47). -/
theorem sendCell_waits {e : Env} {c : Nat} {w : Wait} {h : Hub} (r : (region h (regionOf c)).stopped = true) :
    sendCell e c w h = (onRegion (regionOf c) (fun y => { y with waitCfg := y.waitCfg ++ [(c, w)] }) h, true) := by
  simp [sendCell, r]

/-- A command on a present core acts on it. -/
theorem onCore_present {c : Cmd} {s : State} {k : Nat} (f : Nat → Ans) (a : presentCore s.env s.hub (c.w 1) = some k) :
    onCore s.env (consumed c s) (ctxOf c s) f = f k := by
  unfold onCore
  rw [presentCore_consumed, ctxOf_w, a]

section
variable {d : OpDef} {c : Cmd} {s : State} {k : Nat} {w : Wait} {f : HubCell → HubCell}

/-- A command that changes the hub's copy of a core's settings is answered OK while the region's clock runs, and the change takes effect. -/
theorem coreCmd_runs (p : passes d c s = true)
    (a : d.act s.env (consumed c s) (ctxOf c s) = cellAns (sendCell s.env k w (onHubc k f (consumed c s))))
    (r : (region s.hub (regionOf k)).stopped = false) :
    ∃ t, s.runOp d c = .next t ∧ Answered d.code stOk 0 [] c s t ∧ t.hub.cells = (applyWait s.env k w (onHubc k f (consumed c s))).cells ∧
      t.hub.hubc = (applyWait s.env k w (onHubc k f (consumed c s))).hubc := by
  rw [sendCell_runs (by simpa using r)] at a
  change _ = Ans.done stOk 0 [] _ at a
  obtain ⟨t, run, ans, ht⟩ := op_done p a (by decide) (by simp) (by simp) (by simp)
  exact ⟨t, run, ans, by simp [ht], by simp [ht]⟩

/-- Where the region's clock is stopped it is answered ACCEPTED: the hub's copy has changed, the cell has not, and the change waits. -/
theorem coreCmd_waits (p : passes d c s = true)
    (a : d.act s.env (consumed c s) (ctxOf c s) = cellAns (sendCell s.env k w (onHubc k f (consumed c s))))
    (r : (region s.hub (regionOf k)).stopped = true) :
    ∃ t, s.runOp d c = .next t ∧ Answered d.code stAccepted 0 [] c s t ∧ t.hub.cells = s.hub.cells ∧
      t.hub.hubc = Tab.put s.hub.hubc k (f (hubc s.hub k)) ∧
      t.hub.regions = setAt s.hub.regions (regionOf k)
        { region s.hub (regionOf k) with waitCfg := (region s.hub (regionOf k)).waitCfg ++ [(k, w)] } := by
  rw [sendCell_waits (by simpa using r)] at a
  change _ = Ans.done stAccepted 0 [] _ at a
  obtain ⟨t, run, ans, ht⟩ := op_done p a (by decide) (by simp) (by simp) (by simp)
  exact ⟨t, run, ans, by simp [ht], by simp [ht], by simp [ht]⟩

end

/-! CELL_CFG. -/

/-- CELL_CFG's change: the selections, or a reset of the cell (R83, Table 3.14). -/
theorem opCellCfg_act {c : Cmd} {s : State} {k : Nat} {l : List EvSel} {b : Bool} (a : presentCore s.env s.hub (c.w 1) = some k)
    (v : (ctxOf c s).settings 2 cellSetting ((hubc s.hub k).sels, false) = .inr (l, b)) :
    opCellCfg.act s.env (consumed c s) (ctxOf c s) =
      cellAns (sendCell s.env k (if b then .reset else .sels) (onHubc k (fun x => { x with sels := l }) (consumed c s))) := by
  refine (onCore_present _ a).trans ?_
  dsimp only
  rw [hubc_consumed, v]
  rfl

/-- A cell after RESET: counters, flags and watch windows gone, its settings as the hub's copy has them (Table 3.14, R102). -/
theorem resetCell_cell (c : Nat) (h : Hub) :
    (cell (resetCell c h) c).cnt = {} ∧ (cell (resetCell c h) c).flags = 0 ∧ (cell (resetCell c h) c).sels = (hubc h c).sels ∧
      (cell (resetCell c h) c).watch = { set := (hubc h c).watch } ∧ (hubc (resetCell c h) c).failed = false := by
  simp [resetCell, rewriteCell, clearCell]

/-! CNT_READ. -/

/-- CNT_READ of a core answers with its counters (R106). -/
theorem opCntRead_core {c : Cmd} {s : State} {k : Nat} (one : c.params = [c.w 1]) (a : presentCore s.env s.hub (c.w 1) = some k) :
    opCntRead.act s.env (consumed c s) (ctxOf c s) = ok (cntCore s.env s.hub k) (consumed c s) := by
  show (if (ctxOf c s).words.isEmpty then _ else _) = _
  rw [show (ctxOf c s).words = [c.w 1] from one, if_neg (by simp), onCore_present _ a, cntCore_consumed]

/-- CNT_READ without a core answers with the die's sums (R107). -/
theorem opCntRead_die {c : Cmd} {s : State} (empty : c.params = []) :
    opCntRead.act s.env (consumed c s) (ctxOf c s) = ok (cntDie s.env s.hub) (consumed c s) := by
  show (if (ctxOf c s).words.isEmpty then _ else _) = _
  rw [show (ctxOf c s).words = [] from empty, if_pos List.isEmpty_nil, cntDie_consumed]

/-! CNT_SNAP. -/

/-- The cores of a mask are cores of its region. -/
theorem mem_region_of_mem_maskCores {r i : Nat} {ws : List Word} (m : i ∈ maskCores r ws) : i ∈ (List.range 256).map (fun j => r * 256 + j) := by
  unfold maskCores at m
  obtain ⟨j, hj, rfl⟩ := List.mem_map.mp m
  exact List.mem_map.mpr ⟨j, List.mem_of_mem_filter hj, rfl⟩

/-- A partial snapshot of at least one core is put behind the region's collection in progress (R97). -/
theorem askPartial_queues {r i : Nat} {cs : List Nat} {h : Hub} {x : Region} (g : h.regions[r]? = some x) (busy : x.collect ≠ [])
    (m : i ∈ cs) (inside : i ∈ (List.range 256).map (fun j => r * 256 + j)) :
    askPartial r cs h = onRegion r (fun x => { x with
      partialReq := x.partialReq ++ [(((List.range 256).map (fun j => r * 256 + j)).filter cs.contains).take 32] }) h := by
  have some_core : (((List.range 256).map (fun j => r * 256 + j)).filter cs.contains).take 32 ≠ [] := by
    have here : i ∈ ((List.range 256).map (fun j => r * 256 + j)).filter cs.contains := List.mem_filter.mpr ⟨inside, by simpa using m⟩
    simpa using List.ne_nil_of_mem here
  unfold askPartial
  generalize (((List.range 256).map (fun j => r * 256 + j)).filter cs.contains).take 32 = l at some_core
  have nonempty : l.isEmpty = false := by simpa using some_core
  simp only [nonempty, Bool.false_eq_true, if_false]
  rw [region_onRegion _ g, if_neg (by simp [busy])]

/-- CNT_SNAP of present cores asks for them, and is answered ACCEPTED where the region's clock is stopped (R47, R97). -/
theorem opCntSnap_act {c : Cmd} {s : State} (a : (maskCores (c.n 1) (c.params.drop 1)).all s.env.present = true) :
    opCntSnap.act s.env (consumed c s) (ctxOf c s) = .done (if (region s.hub (c.n 1)).stopped then stAccepted else stOk) 0 []
      (askPartial (c.n 1) (maskCores (c.n 1) (c.params.drop 1)) (consumed c s)) := by
  have all_present : (maskCores ((ctxOf c s).n 1) ((ctxOf c s).from_ 2)).all s.env.present = true := a
  show (if !(maskCores ((ctxOf c s).n 1) ((ctxOf c s).from_ 2)).all s.env.present then _ else _) = _
  rw [all_present, region_consumed]
  rfl

/-! WATCH_SET. -/

/-- WATCH_SET's change: the hub's copy of the watch settings, which then go to the cell (R91). -/
theorem opWatchSet_act {c : Cmd} {s : State} {k : Nat} {v : WatchSet} (a : presentCore s.env s.hub (c.w 1) = some k)
    (g : (ctxOf c s).settings 2 watchSetting (hubc s.hub k).watch = .inr v) :
    opWatchSet.act s.env (consumed c s) (ctxOf c s) = cellAns (sendCell s.env k .watch (onHubc k (fun x => { x with watch := v }) (consumed c s))) := by
  refine (onCore_present _ a).trans ?_
  dsimp only
  rw [hubc_consumed, g]
  rfl

/-- The watch settings reach the cell as the hub's copy has them, and a new mode ends the window (R94). -/
theorem applyWatch_cell (c : Nat) (h : Hub) : (cell (applyWatch c h) c).watch.set = (hubc h c).watch ∧
    ((cell h c).watch.set.mode ≠ (hubc h c).watch.mode → (cell (applyWatch c h) c).watch.win = {} ∧ (cell (applyWatch c h) c).watch.ignore = 16) := by
  unfold applyWatch
  rw [cell_onCell_self]
  refine ⟨?_, fun n => ?_⟩
  · dsimp only
    split <;> rfl
  · rw [if_pos (.inr (.inr n))]
    exact ⟨rfl, rfl⟩

/-! RULE_SET. -/

/-- RULE_SET's change: the descriptor in the hub's copy, which then goes to the cell (R84). -/
theorem opRuleSet_act {c : Cmd} {s : State} {k : Nat} (a : presentCore s.env s.hub (c.w 1) = some k) :
    opRuleSet.act s.env (consumed c s) (ctxOf c s) = cellAns (sendCell s.env k (.rule (c.n 2))
      (onHubc k (fun x => { x with rules := setAt x.rules (c.n 2) (BitVec.ofNat 64 (c.d 3), BitVec.ofNat 64 (c.d 5)) }) (consumed c s))) :=
  onCore_present _ a

/-- A new descriptor at the cell: its flag is cleared but for one raised in this cycle, and its rule is armed with the counters as they
stand (R88). -/
theorem applyRule_sets (e : Env) {k i : Nat} {d : DWord × DWord} {h : Hub} (a : i < (hubc h k).rules.length) (b : i < (cell h k).rules.length) :
    let x := cell (applyRule e k i (onHubc k (fun y => { y with rules := setAt y.rules i d }) h)) k
    x.flags = (cell h k).flags &&& ~~~(BitVec.ofNat 8 (2 ^ i) &&& ~~~(cell h k).fresh) ∧ x.cnt = (cell h k).cnt ∧
      ruleAt x i = Rule.arm { w0 := d.1, w1 := d.2 } (cell h k).cnt := by
  obtain ⟨l, hl, hx⟩ := applyRule_cell e k i (onHubc k (fun y => { y with rules := setAt y.rules i d }) h)
  have same : cell (onHubc k (fun y => { y with rules := setAt y.rules i d }) h) k = cell h k := rfl
  rw [same] at hl hx
  dsimp only
  rw [hx, hubc_onHubc_self]
  refine ⟨rfl, rfl, ?_⟩
  unfold ruleAt
  rw [getAt_setAt_self _ _ _ _ (by omega), getAt_setAt_self _ _ _ _ a]

/-! CELL_FLAGS_CLEAR. -/

/-- A direct write of a present cell's flags that no command has written in this cycle clears them at once while the region's clock runs. -/
theorem cellFlagsClear_run {s : State} {k : BitVec 11} (b : Byte) (on : portOn s.hub = true)
    (free : s.hub.regs.cmdWrote.contains (16, 64 * k.toNat + 8) = false) (here : s.env.present k.toNat = true)
    (r : (region s.hub (regionOf k.toNat)).stopped = false) :
    ∃ t, exec (.cellFlagsClear k b) s = .next t ∧
      t.hub.cells = (clearFlags s.env k.toNat b (noted 16 (64 * k.toNat + 8) (b.setWidth 64) s.hub)).cells := by
  refine ⟨_, port_run (f := fun e h =>
    let h := { h with regs := { h.regs with half := none } }
    if e.present k.toNat then portField 16 (64 * k.toNat + 8) (b.setWidth 64) (fun h => (sendCell e k.toNat (.flags b) h).1) h
    else ignoredWrite 16 (64 * k.toNat + 8) (b.setWidth 64) h) on, ?_⟩
  dsimp only
  rw [if_pos here, portField_free (by exact free), sendCell_runs (by exact r)]
  rfl

/-- Settles O18: what a command on a core leaves follows from `coreCmd_runs` and `coreCmd_waits`, and what it changes from the lemma on its
change. -/
theorem cellCommands : Obligations.CellCommands := by
  unfold Obligations.CellCommands
  refine ⟨fun c s k x l b p hk hx hv => ⟨fun run hb => ?_, fun run hb => ?_, fun stop => ?_⟩, fun c s k p one hk => ?_, fun c s p empty => ?_,
    fun c s x p all hx busy cores => ?_, fun c s k x w p hk hx run hv => ?_, fun c s k x p hk hx run hlen clen lt => ?_,
    fun s k b x on free here hx run => ?_⟩
  · obtain ⟨t, ht, ans, hcells, hhubc⟩ := coreCmd_runs p (opCellCfg_act hk hv) (by rw [region_of hx, run])
    subst hb
    exact ⟨t, ht, ans, by simp [hhubc, applyWait], by simp [hcells, applyWait]⟩
  · obtain ⟨t, ht, ans, hcells, hhubc⟩ := coreCmd_runs p (opCellCfg_act hk hv) (by rw [region_of hx, run])
    subst hb
    obtain ⟨hcnt, hflags, hsels, hwatch, hfailed⟩ := resetCell_cell k (onHubc k (fun x => { x with sels := l }) (consumed c s))
    refine ⟨t, ht, ans, ?_⟩
    rw [cell_congr hcells, hubc_congr hhubc]
    rw [hubc_onHubc_self] at hsels hwatch
    exact ⟨hcnt, hflags, hsels, by rw [← hubc_consumed c s]; exact hwatch, hfailed⟩
  · obtain ⟨t, ht, ans, hcells, hhubc, hregions⟩ := coreCmd_waits p (opCellCfg_act hk hv) (by rw [region_of hx, stop])
    rw [region_of hx] at hregions
    exact ⟨t, ht, ans, hcells, hhubc, hregions⟩
  · obtain ⟨t, run, ans, ht⟩ := op_done p (opCntRead_core one hk) (by decide) rfl (by simp) (by simp)
    exact ⟨t, run, ans, by simp [ht]⟩
  · obtain ⟨t, run, ans, ht⟩ := op_done p (opCntRead_die empty) (by decide) rfl (by simp) (by simp)
    exact ⟨t, run, ans, by simp [ht]⟩
  · obtain ⟨i, hi⟩ := List.exists_mem_of_ne_nil _ cores
    have queues := askPartial_queues (h := consumed c s) (by simpa using hx) busy hi (mem_region_of_mem_maskCores hi)
    obtain ⟨t, run, ans, ht⟩ := op_done p (opCntSnap_act all) (by split <;> decide) (by simp) (by simp) (by simp)
    rw [region_of hx] at ans
    refine ⟨t, run, ans, ?_⟩
    rw [ht, queues]
    simp [region_of hx]
  · obtain ⟨t, ht, ans, hcells, hhubc⟩ := coreCmd_runs p (opWatchSet_act hk hv) (by rw [region_of hx, run])
    obtain ⟨hset, hwin⟩ := applyWatch_cell k (onHubc k (fun x => { x with watch := w }) (consumed c s))
    refine ⟨t, ht, ans, ?_⟩
    rw [cell_congr hcells, hubc_congr hhubc]
    rw [hubc_onHubc_self] at hset hwin
    exact ⟨by simp [applyWait], hset, fun n => hwin (by simpa using n)⟩
  · obtain ⟨t, ht, ans, hcells, -⟩ := coreCmd_runs p (opRuleSet_act hk) (by rw [region_of hx, run])
    obtain ⟨hflags, hcnt, hrule⟩ := applyRule_sets s.env (i := c.n 2) (d := (BitVec.ofNat 64 (c.d 3), BitVec.ofNat 64 (c.d 5)))
      (h := consumed c s) (k := k) (by rw [hubc_consumed]; omega) (by rw [cell_consumed]; omega)
    rw [cell_consumed] at hflags hcnt hrule
    refine ⟨t, ht, ans, ?_⟩
    rw [cell_congr hcells]
    exact ⟨hflags, hcnt, hrule⟩
  · obtain ⟨t, ht, hcells⟩ := cellFlagsClear_run b on free here (by rw [region_of hx, run])
    refine ⟨t, ht, ?_⟩
    rw [cell_congr hcells, clearFlags_cell]
    exact ⟨rfl, rfl⟩

end Sys2Proof.Machine
end

section
/-!
PROOF. Writes of the DMA channels' registers (O24): what each does to its channel before the engine goes on, which keeps it.
-/
namespace Sys2Proof.Machine

/-! Channel operations. -/

/-- A stop leaves whether the channel is enabled. -/
theorem dmaStop_enable (e : Env) (c : Nat) (h : Hub) : (dmaCh (dmaStop e c h) c).enable = (dmaCh h c).enable := by
  unfold dmaStop
  dsimp only
  split
  · rfl
  · obtain ⟨henable, -⟩ := ((dmaPump_pumped e (onDmaCh c (fun x => { x with stopReq := true }) h)).chans c).set
    rw [henable, dmaCh_onDmaCh, if_pos rfl]

/-- A stop of a channel whose descriptor is in progress marks it and leaves it its descriptor (R541). -/
theorem dmaStop_marks {e : Env} {c : Nat} {h : Hub} (n2 : (dmaCh h c).state ≠ 2) (n3 : (dmaCh h c).state ≠ 3) (b : dmaBusy (dmaCh h c) = true) :
    (dmaCh (dmaStop e c h) c).stopReq = true ∧ (dmaCh (dmaStop e c h) c).cur = (dmaCh h c).cur := by
  have marked : dmaCh (onDmaCh c (fun x => { x with stopReq := true }) h) c = { dmaCh h c with stopReq := true } := by
    rw [dmaCh_onDmaCh, if_pos rfl]
  have pumped := (dmaPump_pumped e (onDmaCh c (fun x => { x with stopReq := true }) h)).chans c
  rw [marked] at pumped
  obtain ⟨-, hstop⟩ := pumped.busy b
  obtain ⟨-, -, -, -, -, hcur, -⟩ := pumped.ptr
  have moves : dmaStop e c h = dmaPump e (onDmaCh c (fun x => { x with stopReq := true }) h) := by
    unfold dmaStop
    exact if_neg (by simpa using ⟨n2, n3⟩)
  rw [moves]
  exact ⟨hstop, hcur⟩

/-- RESUME takes a stopped or halted channel out of that state (R542). -/
theorem dmaResume_leaves {e : Env} {c : Nat} {h : Hub} (st : (dmaCh h c).state = 2 ∨ (dmaCh h c).state = 3) (q : (dmaCh h c).stopReq = false) :
    (dmaCh (dmaResume e c h) c).state ≠ 2 ∧ (dmaCh (dmaResume e c h) c).state ≠ 3 := by
  have idle : dmaCh (onDmaCh c (fun x => { x with state := 0 }) h) c = { dmaCh h c with state := 0 } := by
    rw [dmaCh_onDmaCh, if_pos rfl]
  have pumped := (dmaPump_pumped e (onDmaCh c (fun x => { x with state := 0 }) h)).chans c
  rw [idle] at pumped
  obtain ⟨-, hruns, -⟩ := pumped.runs q
  have moves : dmaResume e c h = dmaPump e (onDmaCh c (fun x => { x with state := 0 }) h) := by
    unfold dmaResume
    exact if_pos (by simpa using st)
  rw [moves]
  exact hruns (by simp) (by simp)

/-- ENABLE takes effect where both sizes are set (R543). -/
theorem dmaEnable_sets {e : Env} {c : Nat} {h : Hub} (r : (dmaCh h c).rsize ≠ 0) (q : (dmaCh h c).cqsize ≠ 0) :
    (dmaCh (dmaEnable e c true h) c).enable = true := by
  obtain ⟨henable, -⟩ := ((dmaPump_pumped e (onDmaCh c (fun x => { x with enable := true }) h)).chans c).set
  have moves : dmaEnable e c true h = dmaPump e (onDmaCh c (fun x => { x with enable := true }) h) := by
    simp [dmaEnable, r, q]
  rw [moves, henable, dmaCh_onDmaCh, if_pos rfl]

/-- ENABLE is refused while the ring has no size (R543). -/
theorem dmaEnable_refused {e : Env} {c : Nat} {h : Hub} (r : (dmaCh h c).rsize = 0) :
    dmaEnable e c true h = refusedWrite 6 (0x1000 + 0x40 * c) 1 h := by
  simp [dmaEnable, r]

/-- ENABLE 0 disables an enabled channel (R543). -/
theorem dmaEnable_clears {e : Env} {c : Nat} {h : Hub} (a : (dmaCh h c).enable = true) : (dmaCh (dmaEnable e c false h) c).enable = false := by
  have stops : dmaEnable e c false h = dmaStop e c (onDmaCh c (fun x => { x with enable := false }) h) := by
    simp [dmaEnable, a]
  rw [stops, dmaStop_enable, dmaCh_onDmaCh, if_pos rfl]

/-- REQ counts one more request (R536). -/
theorem dmaRequest_counts {c : Nat} {h : Hub} (a : (dmaCh h c).enable = true) (b : (dmaCh h c).reqen = true) (lt : (dmaCh h c).pend < 65535) :
    dmaCh (dmaRequest c h) c = { dmaCh h c with pend := (dmaCh h c).pend + 1 } := by
  have counts : dmaRequest c h = onDmaCh c (fun x => { x with pend := x.pend + 1 }) h := by
    unfold dmaCh at a b lt
    unfold dmaRequest
    dsimp only
    rw [if_neg (by rw [a, b]; decide), if_neg (by omega)]
    rfl
  rw [counts, dmaCh_onDmaCh, if_pos rfl]

/-- TAIL takes the value written where the ring holds as many descriptors (R533). -/
theorem dmaTail_sets {e : Env} {c : Nat} {tail : BitVec 17} {h : Hub} (a : ahead 17 tail.toNat (dmaCh h c).head ≤ ringSize (dmaCh h c)) :
    (dmaCh (dmaTail e c tail h) c).tail = tail.toNat ∧ (dmaCh (dmaTail e c tail h) c).head = (dmaCh h c).head := by
  obtain ⟨htail, hhead, -⟩ := ((dmaPump_pumped e (onDmaCh c (fun x => { x with tail := tail.toNat }) h)).chans c).ptr
  have moves : dmaTail e c tail h = dmaPump e (onDmaCh c (fun x => { x with tail := tail.toNat }) h) := if_neg (Nat.not_lt.mpr a)
  rw [moves, htail, hhead, dmaCh_onDmaCh, if_pos rfl]
  exact ⟨rfl, rfl⟩

/-- TAIL is refused where the ring does not hold as many descriptors (R533). -/
theorem dmaTail_refused {e : Env} {c : Nat} {tail : BitVec 17} {h : Hub} (a : ringSize (dmaCh h c) < ahead 17 tail.toNat (dmaCh h c).head) :
    dmaTail e c tail h = refusedWrite 6 (0x1000 + 0x40 * c + 0x18) (tail.setWidth 64 <<< 32) h := if_pos a

/-- CQHEAD takes the value written (R544). -/
theorem dmaCqhead_sets (e : Env) (c : Nat) (head : BitVec 17) (h : Hub) : (dmaCh (dmaCqhead e c head h) c).cqhead = head.toNat := by
  unfold dmaCqhead
  dsimp only
  obtain ⟨-, -, hcqhead, -⟩ := ((dmaPump_pumped e _).chans c).ptr
  rw [hcqhead]
  simp [dmaCh_onDmaCh]

/-- The engine's going on leaves FAILED as the write has made it (R518). -/
theorem failedClear_failed (e : Env) (m : BitVec 32) (h : Hub) :
    (dmaPump e (failedClear m h)).mem.failed = h.mem.failed &&& ~~~(m &&& ~~~h.mem.failFresh) := by
  obtain ⟨-, hfailed, -⟩ := (dmaPump_pumped e (failedClear m h)).port
  exact hfailed

/-! The writes. -/

section
variable {s : State} {c : BitVec 6} {o : Nat} {v : DWord} {f : Env → Hub → Hub}

/-- A direct write of a software channel's register leaves of the channel what the register's own write leaves of it. -/
theorem dmaWrite_ch {P : DmaCh → Prop} (on : portOn s.hub = true) (own : (imgOf s.hub).blockCh ≤ c.toNat)
    (free : s.hub.regs.cmdWrote.contains (6, 0x1000 + 0x40 * c.toNat + o) = false)
    (p : ∀ h, dmaCh h c.toNat = dmaCh s.hub c.toNat → P (dmaCh (f s.env h) c.toNat)) :
    ∃ t, s.run (dmaWrite c o v f) = .next t ∧ P (dmaCh t.hub c.toNat) :=
  ⟨_, dmaWrite_run on own free, p _ rfl⟩

/-- One that the register's own write refuses leaves the engine alone. -/
theorem dmaWrite_refused {r : Nat} {w : DWord} (on : portOn s.hub = true) (own : (imgOf s.hub).blockCh ≤ c.toNat)
    (free : s.hub.regs.cmdWrote.contains (6, 0x1000 + 0x40 * c.toNat + o) = false)
    (p : ∀ h, dmaCh h c.toNat = dmaCh s.hub c.toNat → f s.env h = refusedWrite 6 r w h) :
    ∃ t, s.run (dmaWrite c o v f) = .next t ∧ t.hub.dma = s.hub.dma := by
  refine ⟨_, dmaWrite_run on own free, ?_⟩
  rw [State.settle_hub, p (noted 6 (0x1000 + 0x40 * c.toNat + o) v s.hub) rfl]
  simp

end

/-- Settles O24: each write reaches its channel, and `dmaPump_pumped` says that the engine's going on keeps what it has written. -/
theorem dmaRegisters : Obligations.DmaRegisters := by
  unfold Obligations.DmaRegisters
  refine ⟨fun s ch on own free => ?_, fun s m on free => ?_, fun s m on free => ?_⟩
  · have ctrl := free 0 (by simp)
    have ring := free 0x18 (by simp)
    have queue := free 0x28 (by simp)
    refine ⟨fun r q => ?_, fun r => ?_, fun a => ?_, fun n2 n3 b => ?_, fun st q => ?_, fun a b lt => ?_, fun tail a => ?_, fun tail a => ?_, fun head => ?_⟩
    · exact dmaWrite_ch (P := fun y => y.enable = true) on own ctrl fun h same => dmaEnable_sets (same ▸ r) (same ▸ q)
    · exact dmaWrite_refused on own ctrl fun h same => dmaEnable_refused (same ▸ r)
    · exact dmaWrite_ch (P := fun y => y.enable = false) on own ctrl fun h same => dmaEnable_clears (same ▸ a)
    · exact dmaWrite_ch (P := fun y => y.stopReq = true ∧ y.cur = (dmaCh s.hub ch.toNat).cur) on own ctrl fun h same =>
        same ▸ dmaStop_marks (same ▸ n2) (same ▸ n3) (same ▸ b)
    · exact dmaWrite_ch (P := fun y => y.state ≠ 2 ∧ y.state ≠ 3) on own ctrl fun h same => dmaResume_leaves (same ▸ st) (same ▸ q)
    · exact dmaWrite_ch (P := fun y => y = { dmaCh s.hub ch.toNat with pend := (dmaCh s.hub ch.toNat).pend + 1 }) on own ctrl fun h same =>
        same ▸ dmaRequest_counts (same ▸ a) (same ▸ b) (same ▸ lt)
    · exact dmaWrite_ch (P := fun y => y.tail = tail.toNat ∧ y.head = (dmaCh s.hub ch.toNat).head) on own ring fun h same =>
        same ▸ dmaTail_sets (same ▸ a)
    · exact dmaWrite_refused on own ring fun h same => dmaTail_refused (same ▸ a)
    · exact dmaWrite_ch (P := fun y => y.cqhead = head.toNat) on own queue fun h _ => dmaCqhead_sets _ _ head h
  · refine ⟨_, directReg_run on free, ?_⟩
    rw [State.settle_hub, Hub.clean_mem, failedClear_failed]
    rfl
  · exact ⟨_, directReg_run on free, rfl⟩

end Sys2Proof.Machine
end

section
/-!
PROOF. The state word (O7): its fields, as SYS_STATE READ returns it and as the HUB state register shows it.
-/
namespace Sys2Proof.Machine

theorem BlockState.code_lt (st : BlockState) : st.code < 8 := by cases st <;> decide

/-- The fields of a word put together as the state word is (R482). -/
theorem packed_fields {a q p : Nat} (t l : Bool) (ha : a < 8) (hq : q < 4) (hp : p < 8) :
    let r := w32 (a + q * 2 ^ 4 + b2n t * 2 ^ 6 + b2n l * 2 ^ 7 + p * 2 ^ 8)
    r.extractLsb 3 0 = BitVec.ofNat 4 a ∧ r.extractLsb 5 4 = BitVec.ofNat 2 q ∧ r.getLsbD 6 = t ∧ r.getLsbD 7 = l ∧
      r.extractLsb 10 8 = BitVec.ofNat 3 p ∧ r.extractLsb 31 11 = 0 := by
  intro r
  have word : r.toNat = a + q * 16 + b2n t * 64 + b2n l * 128 + p * 256 := by
    simp only [r, w32, BitVec.toNat_ofNat]
    cases t <;> cases l <;> simp only [b2n, Bool.false_eq_true, if_false, if_true] <;> omega
  have bit (i : Nat) : r.getLsbD i = decide (r.toNat / 2 ^ i % 2 = 1) := by
    rw [BitVec.getLsbD, Nat.testBit_eq_decide_div_mod_eq]
  have field (hi lo : Nat) : (r.extractLsb hi lo).toNat = r.toNat / 2 ^ lo % 2 ^ (hi - lo + 1) := by
    rw [BitVec.extractLsb_toNat, Nat.shiftRight_eq_div_pow]
  have flag (b : Bool) : b2n b = 0 ∧ b = false ∨ b2n b = 1 ∧ b = true := by cases b <;> simp [b2n]
  have ht := flag t
  have hl := flag l
  refine ⟨BitVec.eq_of_toNat_eq ?_, BitVec.eq_of_toNat_eq ?_, ?_, ?_, BitVec.eq_of_toNat_eq ?_, BitVec.eq_of_toNat_eq ?_⟩
  · rw [field, word, BitVec.toNat_ofNat]; omega
  · rw [field, word, BitVec.toNat_ofNat]; omega
  · rw [bit, word]
    rcases ht with ⟨n, rfl⟩ | ⟨n, rfl⟩ <;> simp <;> omega
  · rw [bit, word]
    rcases hl with ⟨n, rfl⟩ | ⟨n, rfl⟩ <;> simp <;> omega
  · rw [field, word, BitVec.toNat_ofNat]; omega
  · rw [field, word]; show _ = 0; omega

/-- The HUB state register's low bits are the state's code (R29). -/
theorem readHub_state (e : Env) (h : Hub) : readReg e h 0 0x08 % 16 = h.sys.st.code := by
  have small := h.sys.st.code_lt
  show (e.cellCount * 2 ^ 16 + h.sys.lastReset.toNat * 2 ^ 12 + b2n h.sys.unprov * 2 ^ 11 + stateWord e h) % 16 = _
  unfold stateWord
  omega

/-- Settles O7: SYS_STATE READ answers with the state word, whose fields `packed_fields` gives. -/
theorem stateReport : Obligations.StateReport := by
  unfold Obligations.StateReport
  refine ⟨fun c s w p => ?_, fun e h => ?_⟩
  · have act : opSysStateRead.act s.env (consumed (if w then withOp 0 c else c) s) (ctxOf (if w then withOp 0 c else c) s) =
        ok [w32 (stateWord s.env s.hub)] (consumed (if w then withOp 0 c else c) s) := by
      simp [opSysStateRead, stateWord]
    obtain ⟨t, run, ans, -⟩ := op_done p act (by decide) rfl (by simp) (by simp)
    have cause : (if s.hub.sys.st == .playa then s.hub.sys.playaCause.toNat else 0) < 8 := by split <;> omega
    obtain ⟨hst, hq, htray, hlock, hcause, hrest⟩ := packed_fields s.env.tray s.hub.prot.locked s.hub.sys.st.code_lt s.hub.time.quality.isLt cause
    refine ⟨t, _, run, ans, hst.trans ?_, hq.trans (by simp), htray, hlock, hcause.trans ?_, hrest⟩
    · cases s.hub.sys.st <;> rfl
    · cases s.hub.sys.st <;> simp
  · rw [readHub_state]
    cases h.sys.st <;> rfl

end Sys2Proof.Machine
end

section
/-!
PROOF. The end of FUSE (O12): what its check makes of the hub, once its last condition has come and before.
-/
namespace Sys2Proof.Machine

/-- FUSE goes on while one of its conditions is open (R32). -/
theorem fuseCheck_waits {e : Env} {h : Hub} (n : fuseEnds h = false) : fuseCheck e h = h := by
  unfold fuseCheck
  rw [n]
  rfl

/-- Once all have come the block enters CONFIG when the fuse read is good, with its protection wait, and PLAYA with cause 1 when it failed
(R576, R588). -/
theorem fuseCheck_ends {e : Env} {h : Hub} {good : Bool} (ends : fuseEnds h = true) (sense : h.sys.sense = some good) :
    (fuseCheck e h).sys.st = (if good then .config else .playa) ∧ (fuseCheck e h).sys.playaCause = (if good then 0 else 1) ∧
      (fuseCheck e h).sys.sense = some good ∧ (fuseCheck e h).sys.pllLocked = h.sys.pllLocked ∧ (fuseCheck e h).img = none ∧
      (fuseCheck e h).boot.protUntil = (if good then some (nowNs h + 10000000000) else none) := by
  unfold fuseCheck
  rw [ends]
  cases good with
  | true =>
    simp only [Bool.not_true, Bool.false_eq_true, if_false, onSys, sense, if_true, enterConfig_st, enterConfig_boot]
    exact ⟨trivial, trivial, trivial, trivial, trivial, rfl⟩
  | false =>
    simp only [Bool.not_true, Bool.false_eq_true, if_false, onSys, sense, Option.some.injEq, enterPlaya_st, holdRemoved_keeps, startTimers]
    exact ⟨trivial, rfl, trivial, trivial, trivial, trivial⟩

/-- After a wake PLL_LOCK enters CONFIG with what the island has kept (R601). -/
theorem pllLock_wakes {s : State} (st : s.hub.sys.st = .dormant) (ask : s.hub.isl.asking = true) (rel : s.hub.isl.released = true) :
    exec .pllLock s = .next (s.settle (enterConfig s.env .dormant (wakeClear (onSys (fun x => { x with pllLocked := true }) s.hub.clean)))) := by
  show execPllLock s = _
  unfold execPllLock
  rw [State.run_next]
  simp [st, ask, rel]

/-- In FUSE PLL_LOCK is checked for FUSE's end (R38). -/
theorem pllLock_checks {s : State} (st : s.hub.sys.st = .fuse) (on : s.hub.sys.mainPg = true) :
    exec .pllLock s = .next (s.settle (fuseCheck s.env (onSys (fun x => { x with pllLocked := true }) s.hub.clean))) := by
  show execPllLock s = _
  unfold execPllLock
  rw [State.run_next]
  simp [st, on]

/-- The end of the sensing passes is checked for FUSE's end (R574). -/
theorem fuseSenseDone_checks {s : State} (u d : Bool) (st : s.hub.sys.st = .fuse) (open_ : s.hub.sys.sense = none) :
    exec (.fuseSenseDone u d) s = .next (s.settle (fuseCheck s.env (onSys (fun x => { x with sense := some (!u && !d) }) s.hub.clean))) := by
  show execFuseSenseDone u d s = _
  exact run_guard (b := fun _ h => h.sys.st == .fuse && h.sys.sense.isNone) (by simp [st, open_])

/-- Settles O12: both events come to `fuseCheck`, which goes on in FUSE by `fuseCheck_waits` or leaves it by `fuseCheck_ends`. -/
theorem fuseEnd : Obligations.FuseEnd := by
  unfold Obligations.FuseEnd
  refine ⟨fun s u d st sense pll rst warn hold => ⟨_, fuseSenseDone_checks u d st sense, ?_⟩,
    fun s u d st sense pll => ⟨_, fuseSenseDone_checks u d st sense, ?_⟩,
    fun s r st on sense rst warn hold => ⟨_, pllLock_checks st on, ?_⟩,
    fun s st on sense => ⟨_, pllLock_checks st on, ?_⟩, fun s st ask rel => ⟨_, pllLock_wakes st ask rel, ?_⟩⟩
  · obtain ⟨hst, hcause, hsense, -, himg, hprot⟩ := fuseCheck_ends (e := s.env) (good := !u && !d)
      (h := onSys (fun x => { x with sense := some (!u && !d) }) s.hub.clean) (by simp [fuseEnds, onSys, st, pll, rst, warn, hold]) rfl
    have failed : (!u && !d) = !(u || d) := by cases u <;> rfl
    refine ⟨hsense, himg, hst.trans ?_, hcause.trans ?_, hprot.trans ?_⟩ <;> rw [failed] <;> cases u || d <;> rfl
  · rw [fuseCheck_waits (by simp [fuseEnds, onSys, pll])]
    rfl
  · obtain ⟨hst, -, -, hpll, -, -⟩ := fuseCheck_ends (e := s.env) (good := r)
      (h := onSys (fun x => { x with pllLocked := true }) s.hub.clean) (by simp [fuseEnds, onSys, st, sense, rst, warn, hold]) sense
    exact ⟨hpll, hst⟩
  · rw [fuseCheck_waits (by simp [fuseEnds, onSys, sense])]
    rfl
  · obtain ⟨hst, hreset, htb⟩ := enterConfig_st s.env .dormant (wakeClear (onSys (fun x => { x with pllLocked := true }) s.hub.clean))
    obtain ⟨-, -, -, -, -, hremoved⟩ := enterConfig_boot s.env .dormant (wakeClear (onSys (fun x => { x with pllLocked := true }) s.hub.clean))
    exact ⟨hst, hreset, htb, hremoved⟩

end Sys2Proof.Machine
end

section
/-!
PROOF. The power-fail events (O13): a warning by the state it comes in, the flush's end, the release and the hold's end.
-/
namespace Sys2Proof.Machine

/-- The block is alive in four states. -/
theorem alive_cases {h : Hub} (a : alive h = true) :
    h.sys.st = .config ∨ h.sys.st = .playa ∨ h.sys.st = .serving ∨ h.sys.st = .drowse := by
  unfold alive at a
  cases st : h.sys.st <;> simp [st] at a ⊢

/-! PFW_WARNING. -/

/-- The hub once the pin is low. -/
def warned (s : State) : Hub := onSys (fun x => { x with pfwLow := true }) s.hub.clean

/-- What a warning does follows from the state it comes in: the block alive enters FLUSH (R560), in COLD and FUSE the island latches it (R32),
in DORMANT the island counts it (R33), in FLUSH it is a bounce (R568). -/
theorem pfwWarning_run {s : State} (high : s.hub.sys.pfwLow = false) : ∃ k, exec .pfwWarning s = .next (s.settle k) ∧
    (alive s.hub = true → k = enterFlush s.env (warned s)) ∧
    (s.hub.sys.st = .cold ∨ s.hub.sys.st = .fuse →
      k = onLog (fun l => { l with holdUntil := none }) (onIsl (fun i => { i with latched := true }) (warned s))) ∧
    (s.hub.sys.st = .dormant → k = onLog (fun l => { l with holdUntil := none }) (onIsl (fun i => { i with
      warnings := i.warnings + 1, firstWarn := if i.warnings = 0 then nowNs s.hub else i.firstWarn, lastWarn := nowNs s.hub }) (warned s))) ∧
    (s.hub.sys.st = .flush → k = onLog (fun l => { l with
      bounce := l.bounce + 1, holdUntil := none, suspended := l.erasing, flush := l.flush.map (fun f => { f with bounces := f.bounces + 1 }) }) (warned s)) := by
  refine ⟨_, (run_guard (s := s) (b := fun _ h => !h.sys.pfwLow) (by simp [high]) : execPfwWarning s = _), fun a => ?_, fun st => ?_, fun st => ?_, fun st => ?_⟩
  · rcases alive_cases a with st | st | st | st <;> simp [onSys, st, warned]
  · rcases st with st | st <;> simp [onSys, st, warned]
  · simp only [onSys, Hub.clean_sys, st, warned]
    rfl
  · simp [onSys, st, warned]

/-! FLUSH_END. -/

/-- A flush that has not ended is written (R561). -/
theorem flushEnd_writes {s : State} {f : Flush} (st : s.hub.sys.st = .flush) (fl : s.hub.log.flush = some f) (open_ : f.ended = false) :
    exec .flushEnd s = .next (s.settle (writeFlush s.env s.hub.clean)) := by
  show execFlushEnd s = _
  exact run_guard (s := s) (b := fun _ h => h.sys.st == .flush && h.log.flush.any (fun f => !f.ended)) (by simp [st, fl, open_])

/-! PFW_RELEASE. -/

/-- The hub once the pin is high and a hold of some length runs. -/
def releasedFor (n : Nat) (s : State) : Hub :=
  onLog (fun l => { l with holdUntil := some (nowNs s.hub + n), suspended := false }) (onSys (fun x => { x with pfwLow := false }) s.hub.clean)

/-- In FLUSH a release starts the hold of the configured length (R568), in COLD and FUSE one of 10 ms (R32). -/
theorem pfwRelease_run {s : State} (low : s.hub.sys.pfwLow = true) : ∃ k, exec .pfwRelease s = .next (s.settle k) ∧
    (s.hub.sys.st = .flush → k = releasedFor s.hub.boot.recHold s) ∧
    (s.hub.sys.st = .cold ∨ s.hub.sys.st = .fuse → k = releasedFor 10000000 s) := by
  refine ⟨_, (run_guard (s := s) (b := fun _ h => h.sys.pfwLow) low : execPfwRelease s = _), fun st => ?_, fun st => ?_⟩
  · simp only [onSys, Hub.clean_sys, st, releasedFor]
    rfl
  · rcases st with st | st <;> simp only [onSys, Hub.clean_sys, st, releasedFor] <;> rfl

/-! RECOVERY_HOLD_EXPIRY. -/

/-- When the hold ends without a new warning an ended flush with its erases done is left (R568), and in COLD nothing else follows (R32). -/
theorem recoveryHoldExpiry_run {s : State} {d : Nat} (hold : s.hub.log.holdUntil = some d) (past : d ≤ nowNs s.hub) (high : s.hub.sys.pfwLow = false)
    (first : s.env.beaten evWarning d (nowNs s.hub) = false) : ∃ k, exec .recoveryHoldExpiry s = .next (s.settle k) ∧
    (s.hub.sys.st = .flush → s.hub.log.flush.any Flush.ended = true → erasedEnough s.hub = true → k = leaveFlush s.env s.hub.clean) ∧
    (s.hub.sys.st = .cold → k = onLog (fun l => { l with holdUntil := none }) s.hub.clean) := by
  refine ⟨_, (run_guard (s := s)
    (b := fun e h => reached h h.log.holdUntil && !h.sys.pfwLow && !e.beaten evWarning (h.log.holdUntil.getD 0) (nowNs h))
    (by simp [reached, hold, past, high, first]) : execRecoveryHoldExpiry s = _), fun st ended erased => ?_, fun st => ?_⟩
  · have erased' : erasedEnough s.hub.clean = true := erased
    simp [st, ended, erased']
  · simp [st]

/-- The units that go on behind a flush take the expiries it has kept (R71). -/
theorem leaveFlush_time (e : Env) (h : Hub) : (leaveFlush e h).time = { h.time with due := true } := by
  unfold leaveFlush
  simp [actHeld, onSys, onLog]

/-- Settles O13: each event does what the lemma on it says for the state it comes in. -/
theorem powerFailEvents : Obligations.PowerFailEvents := by
  unfold Obligations.PowerFailEvents
  refine ⟨fun s high a => ?_, fun s high st => ?_, fun s high st => ?_, fun s f high st fl => ?_,
    fun s f st fl open_ => ⟨_, flushEnd_writes st fl open_, ?_⟩, fun s low st => ?_, fun s low st => ?_,
    fun s d f hold past high first st fl ended erased => ?_, fun s d hold past high first st => ?_⟩
  · obtain ⟨k, run, flushes, -⟩ := pfwWarning_run high
    obtain ⟨hst, hleft, hpfw⟩ := enterFlush_st s.env (warned s)
    refine ⟨_, run, ?_⟩
    rw [flushes a]
    exact ⟨hst, hleft, hpfw, by simp [warned], by simp [warned]⟩
  · obtain ⟨k, run, -, latches, -⟩ := pfwWarning_run high
    exact ⟨_, run, by rw [latches st]; rfl⟩
  · obtain ⟨k, run, -, -, counts, -⟩ := pfwWarning_run high
    refine ⟨_, run, ?_⟩
    rw [counts st]
    exact ⟨rfl, rfl⟩
  · obtain ⟨k, run, -, -, -, bounces⟩ := pfwWarning_run high
    refine ⟨_, run, ?_⟩
    rw [bounces st]
    exact ⟨rfl, by simp [onLog, warned, onSys, fl]⟩
  · obtain ⟨hlast, hflush⟩ := writeFlush_log s.env s.hub.clean
    exact ⟨hlast, hflush, by simp, by simp⟩
  · obtain ⟨k, run, holds, -⟩ := pfwRelease_run low
    exact ⟨_, run, by rw [holds st]; rfl⟩
  · obtain ⟨k, run, -, early⟩ := pfwRelease_run low
    exact ⟨_, run, by rw [early st]; rfl⟩
  · obtain ⟨k, run, leaves, -⟩ := recoveryHoldExpiry_run hold past high first
    refine ⟨_, run, ?_⟩
    rw [leaves st (by simp [fl, ended]) erased]
    exact ⟨by simp [leaveFlush_st], by simp [leaveFlush_time], by simp⟩
  · obtain ⟨k, run, -, cold⟩ := recoveryHoldExpiry_run hold past high first
    exact ⟨_, run, by rw [cold st]; rfl⟩

end Sys2Proof.Machine
end

section
/-!
PROOF. Orderly flush, DORMANT, the wake and DROWSE (O14): each event by its own lemma, a held request by what it asks for.
-/
namespace Sys2Proof.Machine

/-! ORDERLY_FLUSH_DONE. -/

/-- An orderly flush in progress ends (R569). -/
theorem orderlyFlushDone_ends {s : State} {f : Flush} {w : Wanted} (a : alive s.hub = true) (o : s.hub.sys.orderly = some w)
    (fl : s.hub.log.flush = some f) (ord : f.orderly = true) :
    exec .orderlyFlushDone s = .next (s.settle (endOrderly s.env s.hub.clean)) := by
  show execOrderlyFlushDone s = _
  exact run_guard (s := s) (b := fun _ h => alive h && h.sys.orderly.isSome && h.log.flush.any Flush.orderly) (by simp [a, o, fl, ord])

/-- The hub with its orderly flush written and done. -/
def orderlyWritten (e : Env) (h : Hub) : Hub :=
  onLog (fun l => { l with flush := none }) (onSys (fun s => { s with orderly := none }) (writeFlush e (acceptAll e 65 h)))

/-- Writing the flush leaves the block's state, the island and TB. -/
theorem orderlyWritten_keeps (e : Env) (h : Hub) :
    (orderlyWritten e h).sys = { h.sys with orderly := none } ∧ (orderlyWritten e h).isl = h.isl ∧ (orderlyWritten e h).time = h.time := by
  simp [orderlyWritten, onLog, onSys]

/-- What it was started for follows: DORMANT, or the BLOCK reset (R569, R594, R600). -/
theorem endOrderly_leads (e : Env) (h : Hub) :
    (h.sys.orderly = some .dormant → endOrderly e h = enterDormant e (orderlyWritten e h)) ∧
      (h.sys.orderly = some .blockReset → endOrderly e h = blockReset (orderlyWritten e h)) := by
  unfold endOrderly
  constructor <;> intro o <;> simp only [writeFlush_keeps, acceptAll_keeps, o] <;> rfl

/-- A BLOCK reset enters FUSE; TB and the removal memory stay (R592, R602). -/
theorem blockReset_st (h : Hub) : (blockReset h).sys.st = .fuse ∧ (blockReset h).sys.lastReset = 1 ∧ (blockReset h).time.tb = h.time.tb ∧
    (blockReset h).isl.removed = h.isl.removed := ⟨rfl, rfl, rfl, rfl⟩

/-! The wake. -/

/-- WAKE_N in DORMANT makes the island ask for the supply, or wait while a warning is present (R601, R630). -/
theorem wakeN_run {s : State} (st : s.hub.sys.st = .dormant) :
    exec .wakeN s = .next (s.settle (if s.hub.sys.pfwLow then onIsl (fun i => { i with wakeHeld := true }) s.hub.clean else askMain s.hub.clean)) := by
  show execWakeN s = _
  exact run_guard (s := s) (b := fun _ h => h.sys.st == .dormant) (by simp [st])

/-- Idles on a die's sideband port do so too while no warning is present (R397, R601). -/
theorem sbWakeIdles_run {s : State} {p : BitVec 4} (die : s.env.tray = false) (st : s.hub.sys.st = .dormant) (lt : p.toNat < 4)
    (high : s.hub.sys.pfwLow = false) : exec (.sbWakeIdles p) s = .next (s.settle (askMain s.hub.clean)) := by
  show execSbWakeIdles p s = _
  exact run_guard (s := s) (b := fun e h => !e.tray && h.sys.st == .dormant && decide (p.toNat < 4) && !h.sys.pfwLow)
    (by simp [die, st, lt, high])

/-! DROWSE. -/

/-- An entry to DROWSE changes the state alone of the block's state machine (R292). -/
theorem enterDrowse_sys (h : Hub) : (enterDrowse h).sys = { h.sys with st := .drowse } := by
  unfold enterDrowse
  simp

/-- With every region that has cells stopped for longer than the drowse delay the block enters DROWSE (R599). -/
theorem drowseDelayExpiry_run {s : State} (die : s.env.tray = false) (sv : serving s.hub = true) (free : transiting s.hub = false)
    (some_ : ∃ r < 8, s.env.regionAbsent r = false)
    (still : ∀ r < 8, s.env.regionAbsent r = false → (region s.hub r).stopped = true ∧ (region s.hub r).stopTb + s.hub.boot.drowseDelay < nowNs s.hub) :
    exec .drowseDelayExpiry s = .next (s.settle (enterDrowse s.hub.clean)) := by
  obtain ⟨r, hr, present⟩ := some_
  have nonempty : ((List.range 8).filter (fun r => !s.env.regionAbsent r)).isEmpty = false := by
    have mem : r ∈ (List.range 8).filter (fun r => !s.env.regionAbsent r) := by simp [hr, present]
    simpa using List.ne_nil_of_mem mem
  have all : ((List.range 8).filter (fun r => !s.env.regionAbsent r)).all
      (fun r => (region s.hub r).stopped && decide ((region s.hub r).stopTb + s.hub.boot.drowseDelay < nowNs s.hub)) = true := by
    rw [List.all_eq_true]
    intro q hq
    obtain ⟨lt, here⟩ := List.mem_filter.mp hq
    obtain ⟨stopped, long⟩ := still q (List.mem_range.mp lt) (by simpa using here)
    simp [stopped, long]
  have occurs : (!s.env.tray && serving s.hub && !transiting s.hub && !((List.range 8).filter (fun r => !s.env.regionAbsent r)).isEmpty &&
      ((List.range 8).filter (fun r => !s.env.regionAbsent r)).all
        (fun r => (region s.hub r).stopped && decide ((region s.hub r).stopTb + s.hub.boot.drowseDelay < nowNs s.hub))) = true := by
    rw [die, sv, free, nonempty, all]
    rfl
  exact congrArg (fun b => Host.Outcome.next (s.settle (guard b enterDrowse s.hub.clean))) occurs

/-! Held requests. -/

/-- With no transition in progress the oldest held request comes to its turn (R34). -/
theorem heldTransitionRecheck_run {s : State} (a : alive s.hub = true) (o : s.hub.sys.orderly = none) :
    exec .heldTransitionRecheck s = .next (s.settle (recheckHeld s.env s.hub.clean)) := by
  show execHeldTransitionRecheck s = _
  exact run_guard (s := s) (b := fun _ h => (alive h || h.sys.st == .dormant) && h.sys.orderly.isNone) (by simp [a, o])

/-- A request for the present state is dropped, an admitted one starts its transition, and another is refused (R34). -/
theorem recheckHeld_cases {e : Env} {h : Hub} {q : HeldReq} {l : List HeldReq} (held : h.sys.held = q :: l) :
    (wantedState q.want = some h.sys.st → recheckHeld e h = onSys (fun s => { s with held := l }) h) ∧
    (wantedState q.want ≠ some h.sys.st → transitionOk q.want (onSys (fun s => { s with held := l }) h) = true →
      recheckHeld e h = startTransition e q.want (onSys (fun s => { s with held := l }) h)) ∧
    (wantedState q.want ≠ some h.sys.st → transitionOk q.want (onSys (fun s => { s with held := l }) h) = false →
      (recheckHeld e h).sys = { h.sys with held := l }) := by
  unfold recheckHeld
  rw [held]
  refine ⟨fun w => if_pos w, fun w ok => (if_neg w).trans (if_pos ok), fun w refused => ?_⟩
  dsimp only
  rw [if_neg (by exact w), if_neg (by simp [refused])]
  simp [onSys]

/-- Settles O14: the events by their lemmas, the held requests by `recheckHeld_cases`. -/
theorem dormantEvents : Obligations.DormantEvents := by
  unfold Obligations.DormantEvents
  refine ⟨fun s f a o fl ord => ⟨_, orderlyFlushDone_ends a o fl ord, ?_⟩, fun s f a o fl ord => ⟨_, orderlyFlushDone_ends a o fl ord, ?_⟩,
    fun s st high => ⟨_, wakeN_run st, ?_⟩, fun s st low => ⟨_, wakeN_run st, ?_⟩,
    fun s p die st lt high => ⟨_, sbWakeIdles_run die st lt high, rfl, rfl⟩,
    fun s die sv free some_ still => ⟨_, drowseDelayExpiry_run die sv free some_ still, ?_⟩,
    fun s q l a o held w => ⟨_, heldTransitionRecheck_run a o, ?_⟩, fun s q l o held w st => ?_,
    fun s q l a o held w n => ⟨_, heldTransitionRecheck_run a o, ?_⟩⟩
  · obtain ⟨hsys, hisl, htime⟩ := orderlyWritten_keeps s.env s.hub.clean
    obtain ⟨dsys, disl⟩ := enterDormant_st s.env (orderlyWritten s.env s.hub.clean)
    rw [State.settle_hub, (endOrderly_leads s.env s.hub.clean).1 o, Hub.clean_sys, Hub.clean_isl, dsys, disl, hsys]
    exact ⟨rfl, rfl, by simp [nowNs, htime], rfl⟩
  · obtain ⟨hsys, hisl, htime⟩ := orderlyWritten_keeps s.env s.hub.clean
    obtain ⟨hst, hreset, htb, hremoved⟩ := blockReset_st (orderlyWritten s.env s.hub.clean)
    rw [State.settle_hub, (endOrderly_leads s.env s.hub.clean).2 o]
    exact ⟨hst, hreset, htb.trans (by rw [htime]; rfl), hremoved.trans (by rw [hisl]; rfl)⟩
  · rw [if_neg (by simp [high])]
    exact ⟨rfl, rfl, rfl⟩
  · rw [if_pos low]
    rfl
  · simp [enterDrowse_sys]
  · obtain ⟨drops, -, -⟩ := recheckHeld_cases (e := s.env) (h := s.hub.clean) held
    rw [drops w]
    rfl
  · have a : alive s.hub = true := by simp [alive, st]
    obtain ⟨-, starts, -⟩ := recheckHeld_cases (e := s.env) (h := s.hub.clean) held
    refine ⟨_, heldTransitionRecheck_run a o, ?_⟩
    rw [starts (by simp [w, wantedState, st]) (by simp [w, transitionOk, onSys, st]), w]
    simp [startTransition, enterDrowse_sys, onSys]
  · obtain ⟨-, -, refused⟩ := recheckHeld_cases (e := s.env) (h := s.hub.clean) held
    refine refused ?_ (by simp [w, transitionOk, onSys, n])
    rcases alive_cases a with st | st | st | st <;> simp [w, wantedState, st]

end Sys2Proof.Machine
end

section
/-!
PROOF. The audit engine's events (O22): the DRBG's, the crossing of a region's oldest entry, and the units that audit.
-/
namespace Sys2Proof.Machine

/-! The DRBG. -/

/-- A spent generator that runs is reseeded by three draws (R118). -/
theorem drbgReseed_run {s : State} {i : BitVec 3} (die : s.env.tray = false) (a : alive s.hub = true) (on : s.hub.res.drbgOk.getLsbD i.toNat = true)
    (spent : drbgSpent s.hub i.toNat = true) : exec (.drbgReseed i) s =
      .next (s.settle (drawn { s.hub.clean with res := { s.hub.res with drbg := setAt s.hub.res.drbg i.toNat (0, 0) } } 3)) := by
  have spent' : drbgSpent s.hub.clean i.toNat = true := spent
  show execDrbgReseed i s = _
  exact run_guard (s := s) (b := fun e h => !e.tray && alive h && h.res.drbgOk.getLsbD i.toNat && drbgSpent h i.toNat) (by simp [die, a, on, spent'])

/-- A generator that fails stops; the records and reports of it touch nothing else of the engine (R122). -/
theorem drbgFailure_run {s : State} {i : BitVec 3} (die : s.env.tray = false) (a : alive s.hub = true) (on : s.hub.res.drbgOk.getLsbD i.toNat = true) :
    ∃ t, exec (.drbgFailure i) s = .next t ∧ t.hub.res = { s.hub.res with drbgOk := s.hub.res.drbgOk &&& ~~~BitVec.ofNat 8 (2 ^ i.toNat) } := by
  refine ⟨_, (run_guard (s := s) (b := fun e h => !e.tray && alive h && h.res.drbgOk.getLsbD i.toNat) (by simp [die, a, on]) : execDrbgFailure i s = _), ?_⟩
  rw [State.settle_hub]
  dsimp only
  split <;> simp [w1c]

/-! The crossing of an entry. -/

/-- The hub with the oldest entry of a region's queue taken. -/
def crossed (r : Nat) (x : Region) (l : List TapOut) (h : Hub) : Hub := onRegion r (fun _ => { x with outq := l }) h

theorem region_crossed {r : Nat} {x : Region} {h : Hub} (l : List TapOut) (g : h.regions[r]? = some x) : region (crossed r x l h) r = { x with outq := l } :=
  region_onRegion _ g

/-- With no losses to report the entry alone has left the region. -/
theorem deliverDrops_crossed {e : Env} {r : Nat} {x : Region} {h : Hub} (l : List TapOut) (g : h.regions[r]? = some x) (none_ : x.dropped = []) :
    deliverDrops e r (onRegion r (fun x => { x with outq := l }) h) = crossed r x l h := by
  have taken : region (onRegion r (fun x => { x with outq := l }) h) r = { x with outq := l } := region_onRegion _ g
  rw [deliverDrops_nil (by rw [taken]; exact none_)]
  unfold onRegion at taken ⊢
  rw [taken, ← none_, region_of g]
  dsimp only
  rw [setAt_setAt]
  rfl

section
variable {s : State} {r : RegionNo} {x : Region} {o : TapOut} {l : List TapOut} (die : s.env.tray = false) (work : working s.hub = true)
  (g : s.hub.regions[r.toNat]? = some x) (run : x.stopped = false) (echo : x.echoWait = false) (none_ : x.dropped = []) (front : x.outq = o :: l)
  (inTime : o.lateEnd = none)
include die work g run echo none_ front inTime

/-- The oldest entry of a running region's queue reaches the hub: an audit request as such, another as a lane outcome (R19, R134). -/
theorem outcomeQueueTransfer_run : ∃ k, exec (.outcomeQueueTransfer r) s = .next (s.settle k) ∧
    (o.audit = none → k = laneArrives s.env o (crossed r.toNat x l s.hub.clean)) ∧
    (∀ slot rd u, o.audit = some (slot, rd) → o.tile = some u → k = auditArrives s.env o slot rd u (crossed r.toNat x l s.hub.clean)) := by
  have reg : region s.hub r.toNat = x := region_of g
  have taken := deliverDrops_crossed (e := s.env) (h := s.hub.clean) l g none_
  refine ⟨_, (rfl : execOutcomeQueueTransfer r s = _), fun a => ?_, fun slot rd u a t => ?_⟩
  · simp only [region_clean, reg, front, die, working_clean, work, run, echo, inTime, a, Bool.not_false, Bool.and_self, guard_true, taken]
  · simp only [region_clean, reg, front, die, working_clean, work, run, echo, inTime, a, t, Bool.not_false, Bool.and_self, guard_true, taken]

end

/-- A mismatch that reaches the hub leaves the counts and the regions to its outcome. -/
theorem mismatchArrives_keeps (c : Nat) (h : Hub) : (mismatchArrives c h).res = h.res ∧ (mismatchArrives c h).regions = h.regions ∧
    (Sys2Proof.Machine.hubc (mismatchArrives c h) c).outcome = (Sys2Proof.Machine.hubc h c).outcome := by
  have only := (mismatchArrives_only c h).keep
  refine ⟨only .res (by decide), only .regions (by decide), ?_⟩
  unfold mismatchArrives
  split
  · rfl
  · simp [confirmWindow]

section
variable {o : TapOut} (mis : o.res = 1)
include mis

/-- A mismatch of a tile without an audit counts at the die and at its core (R19, R150); of a region it leaves all but what waits for its
clock. -/
theorem laneArrives_counts (e : Env) (h : Hub) (plain : o.tile.any (fun u => u.word.audit) = false) :
    (laneArrives e o h).res = { h.res with mismatch := h.res.mismatch + 1 } ∧
      (Sys2Proof.Machine.hubc (laneArrives e o h) o.core).outcome = (Sys2Proof.Machine.hubc h o.core).outcome + 1 ∧
      ∀ r, ∃ w, region (laneArrives e o h) r = { region h r with waitCfg := w } := by
  have runs : laneArrives e o h = laneOutcome e o classUnclassified (probing h o.core) (mismatchArrives o.core h) := by
    unfold laneArrives
    rw [if_pos mis, plain]
    rfl
  obtain ⟨mres, mregions, moutcome⟩ := mismatchArrives_keeps o.core h
  obtain ⟨hres, houtcome⟩ := laneOutcome_here e o classUnclassified (probing h o.core) (mismatchArrives o.core h)
  obtain ⟨-, hregion, -⟩ := laneOutcome_tsel e o classUnclassified (probing h o.core) (mismatchArrives o.core h)
  rw [runs]
  refine ⟨?_, by rw [houtcome, moutcome], fun r => ?_⟩
  · rw [hres, mres, mis]
    rfl
  · obtain ⟨w, hw⟩ := hregion r
    exact ⟨w, by rw [hw, region_congr mregions]⟩

/-- That of an audited tile waits for its class (R151). -/
theorem laneArrives_waits (e : Env) (h : Hub) (audited : o.tile.any (fun u => u.word.audit) = true) :
    (laneArrives e o h).res = { h.res with unclassed := h.res.unclassed ++ [(o, probing h o.core)] } ∧
      (laneArrives e o h).regions = h.regions ∧
      (Sys2Proof.Machine.hubc (laneArrives e o h) o.core).outcome = (Sys2Proof.Machine.hubc h o.core).outcome := by
  obtain ⟨mres, mregions, moutcome⟩ := mismatchArrives_keeps o.core h
  unfold laneArrives
  rw [if_pos mis, if_pos audited, mres]
  exact ⟨rfl, mregions, moutcome⟩

end

/-- An audit request whose slot is free joins a queue that has room (R142). -/
theorem auditArrives_queues {e : Env} {o : TapOut} {slot : BitVec 2} {rd : Bool} {u : Tile} {h : Hub} (free : slotBusy h o.core slot = false)
    (room : h.res.queue.length < 256) : ∃ q, (auditArrives e o slot rd u h).res = { h.res with queue := h.res.queue ++ [q] } ∧
      q.core = o.core ∧ q.tile = u ∧ q.slot = slot ∧ q.until_ = o.tb + h.res.holdLimit := by
  unfold auditArrives auditPush
  rw [free]
  dsimp only
  rw [if_neg (by decide), if_pos room]
  exact ⟨_, rfl, rfl, rfl, rfl, rfl⟩

/-! The units. -/

@[simp] theorem readDesc_clean (e : Env) (h : Hub) (c : Nat) (slot : BitVec 2) : readDesc e h.clean c slot = readDesc e h c slot := rfl
@[simp] theorem freeUnit_clean (h : Hub) : freeUnit h.clean = freeUnit h := rfl
@[simp] theorem clientBusy_clean (h : Hub) (f : Client → Bool) : clientBusy h.clean f = clientBusy h f := rfl
@[simp] theorem auditTile_clean (e : Env) (h : Hub) (q : AuditReq) (n : Nat) : auditTile e h.clean q n = auditTile e h q n := rfl

/-- A free unit takes the next request and reads its descriptor (R141, R142). -/
theorem auditStart_takes {s : State} {q : AuditReq} {u : Nat} (die : s.env.tray = false) (sv : serving s.hub = true)
    (next : auditNext s.hub.res.queue = some q) (unit : freeUnit s.hub = some u) (inTime : nowNs s.hub < q.until_) :
    ∃ t w, exec .auditStart s = .next t ∧ t.hub.res = { s.hub.res with
      queue := s.hub.res.queue.erase q
      units := Tab.put s.hub.res.units u { q with
        valid := ((readDesc s.env s.hub q.core q.slot).map AuditDesc.isValid).getD false, again := w } } := by
  refine ⟨_, if ((readDesc s.env s.hub q.core q.slot).map AuditDesc.isValid).getD false || !q.ready then none else some (nowNs s.hub + 1000),
    (rfl : execAuditStart s = _), ?_⟩
  simp only [State.settle_hub, Hub.clean_res, freeUnit_clean, next, unit, die, serving_clean, sv, nowNs_clean, inTime, decide_true, Bool.not_false,
    Bool.and_self, guard_true, access_keeps, readDesc_clean]
  rfl

/-- The second read of a descriptor (R141). -/
theorem auditDescriptorReread_run {s : State} {u : BitVec 5} {q : AuditReq} {d : Nat} (sv : serving s.hub = true)
    (unit : Tab.find s.hub.res.units u.toNat = some q) (again : q.again = some d) (past : d ≤ nowNs s.hub) :
    ∃ t, exec (.auditDescriptorReread u) s = .next t ∧ t.hub.res = { s.hub.res with units := Tab.put s.hub.res.units u.toNat { q with
      again := none, valid := ((readDesc s.env s.hub q.core q.slot).map AuditDesc.isValid).getD false } } := by
  refine ⟨_, (rfl : execAuditDescriptorReread u s = _), ?_⟩
  simp only [State.settle_hub, Hub.clean_res, unit, serving_clean, sv, again, nowNs_clean, Option.any_some, past, decide_true, Bool.and_self,
    guard_true, readDesc_clean]

/-- Where a mismatch waits for a request's class it is counted, and no longer waits; where none does nothing changes (R151). -/
theorem giveClass_res (e : Env) (q : AuditReq) (cls : Nat) (h : Hub) :
    (h.res.unclassed.find? (fun p => p.1.isOf q) = none → giveClass e q cls h = h) ∧
    (∀ p, h.res.unclassed.find? (fun p => p.1.isOf q) = some p →
      (giveClass e q cls h).res = resCount p.1.res.toNat 1 { h.res with unclassed := h.res.unclassed.erase p }) := by
  unfold giveClass
  refine ⟨fun n => by rw [n], fun p f => ?_⟩
  rw [f]
  exact (laneOutcome_here ..).1

/-- A lane outcome's count is not that of audits (Table 4.13). -/
theorem resCount_audits (code n : Nat) (r : ResU) : (resCount code n r).audits = r.audits := by
  unfold resCount
  split <;> rfl

/-- An audit that finds no difference ends: it is counted, and its class given (R149, R150). -/
theorem auditEnds_clean (e : Env) (q : AuditReq) (h : Hub) : (auditEnds e q (.diffs []) h).res =
    { (giveClass e q (auditClass q.lane (.diffs [])) h).res with audits := (giveClass e q (auditClass q.lane (.diffs [])) h).res.audits + 1 } := by
  unfold auditEnds
  simp

/-- The hub with a unit free again, and the draws of its audit made (R145). -/
def unitFreed (u : Nat) (h : Hub) : Hub := drawn { h with res := { h.res with units := Tab.drop h.res.units u } } h.res.elements

/-- The end of a unit's audit that finds no difference frees the unit (R144). -/
theorem auditComplete_run {s : State} {u : BitVec 5} {q : AuditReq} (sv : serving s.hub = true) (unit : Tab.find s.hub.res.units u.toNat = some q)
    (read : q.again = none) (answered : clientBusy s.hub (fun c => c == .audit u.toNat) = false)
    (clean : auditTile s.env s.hub q (hubc s.hub q.core).uacc = some (.diffs [])) :
    exec (.auditComplete u) s = .next (s.settle (auditEnds s.env q (.diffs []) (unitFreed u.toNat s.hub.clean))) := by
  show execAuditComplete u s = _
  unfold execAuditComplete
  rw [State.run_next]
  simp only [Hub.clean_res, unit, hubc_clean, auditTile_clean, clean, serving_clean, sv, read, clientBusy_clean, answered, Option.isNone_none,
    Bool.not_false, Bool.and_self, guard_true]
  rfl

/-- A request beyond the hold limit is skipped and counted; with no mismatch waiting for its class nothing else of the engine changes (R143). -/
theorem auditHoldExpiry_run {s : State} {k : BitVec 11} {tag : BitVec 16} {q : AuditReq} (a : alive s.hub = true)
    (mine : s.hub.res.queue.find? (fun q => decide (q.core = k.toNat) && decide (q.tile.tag = tag) && decide (q.until_ ≤ nowNs s.hub)) = some q)
    (first : s.env.beaten evAudit q.until_ (nowNs s.hub) = false) (none_ : s.hub.res.unclassed.find? (fun p => p.1.isOf q) = none) :
    ∃ t, exec (.auditHoldExpiry k tag) s = .next t ∧
      t.hub.res = { s.hub.res with queue := s.hub.res.queue.erase q, audSkip := s.hub.res.audSkip + 1 } := by
  have mine' : s.hub.clean.res.queue.find? (fun q => decide (q.core = k.toNat) && decide (q.tile.tag = tag) && decide (q.until_ ≤ nowNs s.hub.clean)) =
    some q := mine
  refine ⟨_, (rfl : execAuditHoldExpiry k tag s = _), ?_⟩
  have skipped := (giveClass_res s.env q classUnclassified
    (auditSkip q.core 1 { s.hub.clean with res := { s.hub.res with queue := s.hub.res.queue.erase q } })).1 (by simp [auditSkip, none_])
  dsimp only
  rw [mine']
  simp only [State.settle_hub, Hub.clean_res, nowNs_clean, alive_clean, a, first, Bool.not_false, Bool.and_self, guard_true, clearValid_reads,
    abandon, skipped]
  simp [auditSkip]

/-- Settles O22: each event by the lemma on it; the crossing by what the entry is. -/
theorem auditEvents : Obligations.AuditEvents := by
  unfold Obligations.AuditEvents
  refine ⟨fun s i die a on => ⟨fun spent => ⟨_, drbgReseed_run die a on spent, rfl, rfl⟩, drbgFailure_run die a on⟩,
    fun s r x o l die work g run echo none_ front lane inTime mis => ⟨fun plain => ?_, fun audited => ?_⟩,
    fun s r x o l slot rd u die work g run echo none_ front req inTime tile free room => ?_,
    fun s q u die sv next unit inTime => ?_, fun s u q d sv unit again past => auditDescriptorReread_run sv unit again past,
    fun s u q sv unit read answered clean => ⟨fun none_ => ⟨_, auditComplete_run sv unit read answered clean, ?_⟩,
      fun p one => ⟨_, auditComplete_run sv unit read answered clean, ?_⟩⟩,
    fun s k tag q a mine first none_ => auditHoldExpiry_run a mine first none_⟩
  · obtain ⟨k, runs, outcome, -⟩ := outcomeQueueTransfer_run die work g run echo none_ front inTime
    obtain ⟨hres, houtcome, hregion⟩ := laneArrives_counts mis s.env (crossed r.toNat x l s.hub.clean) plain
    obtain ⟨w, hw⟩ := hregion r.toNat
    refine ⟨_, runs, ?_⟩
    rw [outcome lane]
    exact ⟨⟨w, hw.trans (by rw [region_crossed l (by exact g)])⟩, hres, houtcome⟩
  · obtain ⟨k, runs, outcome, -⟩ := outcomeQueueTransfer_run die work g run echo none_ front inTime
    obtain ⟨hres, hregions, houtcome⟩ := laneArrives_waits mis s.env (crossed r.toNat x l s.hub.clean) audited
    refine ⟨_, runs, ?_⟩
    rw [outcome lane]
    exact ⟨(region_congr hregions _).trans (region_crossed l g), hres, houtcome⟩
  · obtain ⟨k, runs, -, request⟩ := outcomeQueueTransfer_run die work g run echo none_ front inTime
    refine ⟨_, runs, ?_⟩
    rw [request slot rd u req tile]
    exact auditArrives_queues (h := crossed r.toNat x l s.hub.clean) free room
  · obtain ⟨t, w, runs, hres⟩ := auditStart_takes die sv next unit inTime
    refine ⟨t, runs, by rw [hres], _, (congrArg (fun x => Tab.find x.units u) hres).trans (Tab.find_put_self ..), ?_⟩
    exact ⟨rfl, rfl, rfl⟩
  · rw [State.settle_hub, Hub.clean_res, auditEnds_clean, (giveClass_res s.env q _ (unitFreed u.toNat s.hub.clean)).1 none_]
    rfl
  · rw [State.settle_hub, Hub.clean_res, auditEnds_clean, (giveClass_res s.env q _ (unitFreed u.toNat s.hub.clean)).2 p one, resCount_audits]
    rfl

end Sys2Proof.Machine
end

section
/-!
PROOF. The verdict unit's commands (O32): one lemma says what each leaves beside its answer, the others what its change does to verdicts,
floors and tests.
-/
namespace Sys2Proof.Machine

/-! What step 8 leaves to read. -/

@[simp] theorem ownsEnt_consumed (e : Env) (q : Cmd) (s : State) (x : Word) : ownsEnt e (consumed q s) x = ownsEnt e s.hub x := by rw [consumed_eq]; rfl
@[simp] theorem knowsEnt_consumed (e : Env) (q : Cmd) (s : State) (x : Word) : knowsEnt e (consumed q s) x = knowsEnt e s.hub x := by rw [consumed_eq]; rfl
@[simp] theorem polBase_consumed (q : Cmd) (s : State) : polBase (consumed q s) = polBase s.hub := by rw [consumed_eq]; rfl
@[simp] theorem policy_consumed (q : Cmd) (s : State) : policy (consumed q s) = policy s.hub := by rw [consumed_eq]; rfl
@[simp] theorem floorWord_consumed (q : Cmd) (s : State) (x : Word) : floorWord (consumed q s) x = floorWord s.hub x := by rw [consumed_eq]; rfl
@[simp] theorem votes_consumed (q : Cmd) (s : State) (j : BitVec 16) (r : Nat) : votes (consumed q s) j r = votes s.hub j r := by rw [consumed_eq]; rfl
@[simp] theorem testOf_consumed (e : Env) (q : Cmd) (s : State) (k : Nat) : testOf e (consumed q s) k = testOf e s.hub k := by rw [consumed_eq]; rfl
@[simp] theorem testCore_consumed (e : Env) (q : Cmd) (s : State) (w : Word) : testCore e (consumed q s) w = testCore e s.hub w := by rw [consumed_eq]; rfl

/-! What a command leaves beside its answer. -/

section
variable {d : OpDef} {c : Cmd} {s : State} {k : Hub}

/-- A command whose change leaves the interpreter and the protection setup alone is answered, and of the verdict unit and the cores stands
what the change has left. -/
theorem verdictCmd_done {st det : Nat} {res : List Word} (p : passes d c s = true)
    (a : d.act s.env (consumed c s) (ctxOf c s) = .done st det res k) (b : st ≠ stBusy) (cmd : k.cmd = (consumed c s).cmd)
    (prot : k.prot = s.hub.prot) :
    ∃ t, s.runOp d c = .next t ∧ Answered d.code st det res c s t ∧ t.hub.casc = k.casc ∧ t.hub.hubc = k.hubc ∧ t.hub.img = k.img ∧
      t.hub.regions = k.regions := by
  obtain ⟨t, run, ans, ht⟩ := op_done p a b (by rw [cmd]) (by rw [cmd, consumed_chans]) (by rw [prot])
  exact ⟨t, run, ans, by simp [ht], by simp [ht], by simp [ht], by simp [ht]⟩

/-- One that may reach into a host region is answered ACCEPTED where an effect of it waits there for a stopped clock (R47). -/
theorem verdictCmd_crosses {h : Hub} (p : passes d c s = true) (a : d.act s.env (consumed c s) (ctxOf c s) = okCross h [] k)
    (same : h.regions = s.hub.regions) (cmd : k.cmd = (consumed c s).cmd) (prot : k.prot = s.hub.prot) :
    ∃ t, s.runOp d c = .next t ∧ Answered d.code (if crossWaits s.hub t.hub then stAccepted else stOk) 0 [] c s t ∧ t.hub.casc = k.casc ∧
      t.hub.hubc = k.hubc ∧ t.hub.img = k.img := by
  obtain ⟨t, run, ans, hcasc, hhubc, himg, hregions⟩ := verdictCmd_done p a (by split <;> decide) cmd prot
  rw [← crossWaits_congr same.symm hregions] at ans
  exact ⟨t, run, ans, hcasc, hhubc, himg⟩

end

/-! POLICY_SET. -/

/-- POLICY_SET's change: the policy is kept for the next boundary where its quotas fit the block, else refused (R312). -/
theorem opPolicySet_act {c : Cmd} {s : State} {v : Policy} (set : (ctxOf c s).settings 1 polSetting (polBase s.hub) = .inr v) :
    opPolicySet.act s.env (consumed c s) (ctxOf c s) =
      if 8 < (v.quotas.map Quota.arrays).sum ∨ 128 < (v.quotas.map Quota.pages).sum ∨ 2048 < (v.quotas.map Quota.rows).sum then
        refuse stNoSpace (consumed c s)
      else ok [] (onCasc (fun x => { x with next := some v }) (consumed c s)) := by
  unfold opPolicySet
  dsimp only
  rw [polBase_consumed, set]
  rfl

/-! Removals. -/

/-- FENCE acts on an entity that the block judges. -/
theorem opFence_act {c : Cmd} {s : State} (own : ownsEnt s.env s.hub (c.w 1) = true) :
    opFence.act s.env (consumed c s) (ctxOf c s) = okCross (consumed c s) [] (cmdRemove s.env (c.w 1) 5 (consumed c s)) :=
  if_pos ((ownsEnt_consumed ..).trans own)
/-- FENCE of another is refused. -/
theorem opFence_strange {c : Cmd} {s : State} (strange : ownsEnt s.env s.hub (c.w 1) = false) :
    opFence.act s.env (consumed c s) (ctxOf c s) = refuse stNotFound (consumed c s) 1 :=
  if_neg (by simp [strange])
/-- EXPEL acts on an entity that the block judges. -/
theorem opExpel_act {c : Cmd} {s : State} (own : ownsEnt s.env s.hub (c.w 1) = true) :
    opExpel.act s.env (consumed c s) (ctxOf c s) = okCross (consumed c s) [] (cmdRemove s.env (c.w 1) 6 (consumed c s)) :=
  if_pos ((ownsEnt_consumed ..).trans own)

/-- A commanded removal makes the verdict it names, but an EXPEL that stands stays one behind FENCE (R328). -/
theorem worse_removal (v : Nat) : worse (if isRemoval v then v else 0) 5 = (if v = 6 then 6 else 5) ∧ worse (if isRemoval v then v else 0) 6 = 6 := by
  by_cases fence : v = 5
  · subst fence
    decide
  · by_cases expel : v = 6
    · subst expel
      decide
    · have stays : isRemoval v = false := by simp [isRemoval, fence, expel]
      simp only [stays, if_neg expel, Bool.false_eq_true, if_false]
      decide

/-- The commanded removals by what they leave: that verdict, and no other entity's (R318, R328). -/
theorem removal_run {d : OpDef} {c : Cmd} {s : State} {v : Nat} (p : passes d c s = true)
    (a : d.act s.env (consumed c s) (ctxOf c s) = okCross (consumed c s) [] (cmdRemove s.env (c.w 1) v (consumed c s))) :
    ∃ t, s.runOp d c = .next t ∧ Answered d.code (if crossWaits s.hub t.hub then stAccepted else stOk) 0 [] c s t ∧
      (entity t.hub (c.w 1)).verdict = worse (if isRemoval (entity s.hub (c.w 1)).verdict then (entity s.hub (c.w 1)).verdict else 0) v ∧
      ∀ y, y ≠ c.w 1 → (entity t.hub y).verdict = (entity s.hub y).verdict := by
  obtain ⟨t, run, ans, hcasc, -⟩ := verdictCmd_crosses p a (by simp) (by simp) (by simp)
  obtain ⟨own, others⟩ := cmdRemove_verdict s.env (c.w 1) v (consumed c s)
  simp only [entity_consumed] at own others
  refine ⟨t, run, ans, ?_, fun y n => ?_⟩
  · rw [entity_of_casc hcasc, own]
  · rw [entity_of_casc hcasc, others y n]

/-! UNFENCE. -/

/-- The hub once UNFENCE has ended the floors that lie before it (R27, R315). -/
def unfloored (x : Word) (h : Hub) : Hub := endFloors x (noteCmd x h)

/-- The hub with a core's commanded exponent ended (R155). -/
def exponentEnded (e : Env) (x : Word) (h : Hub) : Hub :=
  match ownCore e h x with
  | some c => onHubc c (fun y => { y with exponent := none }) h
  | none => h

@[simp] theorem exponentEnded_keeps (e : Env) (x : Word) (h : Hub) :
    (exponentEnded e x h).casc = h.casc ∧ (exponentEnded e x h).cmd = h.cmd ∧ (exponentEnded e x h).prot = h.prot := by
  unfold exponentEnded
  split <;> exact ⟨rfl, rfl, rfl⟩

/-- The hub with the entity in PROBATION; a core's commanded exponent ends (R155, R315). -/
def unfenced (e : Env) (x : Word) (h : Hub) : Hub :=
  exponentEnded e x (setVerdict e x 3 3 (onEnt x (fun s => { s with scoreV := 3, down := 0 }) (unfloored x h)))

/-- UNFENCE's change. -/
theorem opUnfence_act {c : Cmd} {s : State} (own : ownsEnt s.env s.hub (c.w 1) = true) :
    (kindOf (c.w 1) ≠ 9 → isRemoval (entity s.hub (c.w 1)).verdict = true →
      opUnfence.act s.env (consumed c s) (ctxOf c s) = okCross (unfloored (c.w 1) (consumed c s)) [] (unfenced s.env (c.w 1) (consumed c s))) ∧
    (isRemoval (entity s.hub (c.w 1)).verdict = false → opUnfence.act s.env (consumed c s) (ctxOf c s) = refuse stWrongState (consumed c s) 1) := by
  unfold opUnfence
  simp only [ctxOf_w, ownsEnt_consumed, own, entity_consumed]
  refine ⟨fun kind removed => ?_, fun stands => ?_⟩
  · rw [if_neg (by decide), if_neg (by simp [kind, removed])]
    rfl
  · rw [if_neg (by decide), if_pos (.inr stands)]

/-- PROBATION for that entity, and no other verdict changes (R315, R318). -/
theorem unfenced_verdict (e : Env) (x : Word) (h : Hub) :
    (entity (unfenced e x h) x).verdict = 3 ∧ ∀ y, y ≠ x → (entity (unfenced e x h) y).verdict = (entity h y).verdict := by
  obtain ⟨own, others⟩ := setVerdict_verdict e x 3 3 (onEnt x (fun s => { s with scoreV := 3, down := 0 }) (unfloored x h))
  have exponent (k : Hub) (y : Word) : entity (exponentEnded e x k) y = entity k y := entity_of_casc (exponentEnded_keeps e x k).1 y
  unfold unfenced
  refine ⟨?_, fun y n => ?_⟩
  · rw [exponent, own]
  · rw [exponent, others y n, onEnt_judged _ _ _ _ rfl]
    exact ((endFloors_ent x (noteCmd x h)).1 y).trans (noteCmd_judged ..)

/-- UNFENCE leaves the interpreter and the protection setup alone. -/
theorem unfenced_keeps (e : Env) (x : Word) (h : Hub) : (unfenced e x h).cmd = h.cmd ∧ (unfenced e x h).prot = h.prot := by
  simp [unfenced, unfloored]

/-! SHADOW_START. -/

/-- The hub with the replica marked as the shadow of its twin, its floors ended (R335, R336). -/
def shadowed (j : BitVec 16) (x : Word) (r twin : Nat) (h : Hub) : Hub :=
  onCasc (fun y => { y with
      shadows := y.shadows.filter (fun q => !(decide (q.job = j) && decide (q.rep.toNat = r))) ++ [{ job := j, rep := BitVec.ofNat 8 r, twin := BitVec.ofNat 8 twin }] })
    (markShadow j r (endFloors x (endPending x 1 (noteCmd x h))))

/-- SHADOW_START's change (R335). -/
theorem opShadowStart_act {c : Cmd} {s : State} (job : (jobAt s.hub ((c.w 1).setWidth 16)).isSome = true) (other : c.n 2 ≠ c.n 3)
    (twin : votes s.hub ((c.w 1).setWidth 16) (c.n 3) = true) (lt : c.n 2 < 256) :
    opShadowStart.act s.env (consumed c s) (ctxOf c s) = ok [] (setVerdict s.env (entId 9 (c.n 1 * 256 + c.n 2)) 7 5
      (onEnt (entId 9 (c.n 1 * 256 + c.n 2)) (fun s => { s with scoreV := 7, down := 0 })
        (shadowed ((c.w 1).setWidth 16) (entId 9 (c.n 1 * 256 + c.n 2)) (c.n 2) (c.n 3) (consumed c s)))) := by
  have listed : (jobAt s.hub ((c.w 1).setWidth 16)).isNone = false := by
    rw [Option.isNone_eq_false_iff]
    exact job
  unfold opShadowStart
  simp only [ctxOf_w, ctxOf_n, jobAt_consumed, votes_consumed, listed, twin, other]
  rw [if_neg (by decide), if_neg (by decide)]
  exact if_neg (Nat.not_le.mpr lt)

/-- Marking the shadow leaves the interpreter and the protection setup alone. -/
theorem shadowed_keeps (j : BitVec 16) (x : Word) (r twin : Nat) (h : Hub) :
    (shadowed j x r twin h).cmd = h.cmd ∧ (shadowed j x r twin h).prot = h.prot := by
  simp [shadowed, markShadow]

/-! TEST_SCHED. -/

/-- SCHEDULE of an idle core makes its test due (R319). -/
theorem opTestSchedule_act {c : Cmd} {s : State} {k : Nat} (one : coresOf s.env s.hub (c.w 2) = [k])
    (idle : (entity s.hub (coreId s.env s.hub k)).test = none) (out : jobOfDie s.hub (dieNo s.env s.hub) = none) :
    opTestSchedule.act s.env (consumed c s) (ctxOf c s) = ok [] (noteCmd (c.w 2) (onEnt (coreId s.env s.hub k) (fun y => { y with
      test := some { deadline := nowNs s.hub + (policy s.hub).deferral, ident := c.w 3, cond := condOf (ctxOf c s) 4 } }) (consumed c s))) := by
  have due := dueTest_idle (e := s.env) (c := k) (i := c.w 3) (q := condOf (ctxOf c s) 4) (h := consumed c s) (by simpa using idle) (by simpa using out)
  simp only [coreId_consumed, nowNs_consumed, policy_consumed] at due
  unfold opTestSchedule
  simp only [ctxOf_w, coresOf_consumed, one, List.foldl_cons, List.foldl_nil, due]
  rfl

/-- The test of a core's entity, whose number is that entity's index. -/
theorem noteCmd_test (x : Word) (f : Ent → Ent) (h : Hub) : (entity (noteCmd x (onEnt x f h)) x).test = (f (entity h x)).test := by
  unfold noteCmd
  rw [entity_onEnt_self, entity_onEnt_self]

/-- CANCEL of one core's due test: refused while it runs, else the test is dropped (Table 8.10). -/
theorem opTestCancel_act {c : Cmd} {s : State} {k : Nat} {v : TestDue} (one : coresOf s.env s.hub (c.w 2) = [k])
    (due : testOf s.env s.hub k = some v) :
    (v.running = none → opTestCancel.act s.env (consumed c s) (ctxOf c s) = ok [] (cancelTest s.env k (noteCmd (c.w 2) (consumed c s)))) ∧
    (v.running.isSome = true → opTestCancel.act s.env (consumed c s) (ctxOf c s) = refuse stWrongState (consumed c s) 2) := by
  unfold opTestCancel
  simp only [ctxOf_w, coresOf_consumed, one, testOf_consumed, due, List.filter_cons, List.filter_nil, Option.isSome_some, if_true,
    List.any_cons, List.any_nil, Option.any_some, Bool.or_false, List.isEmpty_cons, Bool.false_eq_true, if_false, List.foldl_cons, List.foldl_nil]
  refine ⟨fun waits => ?_, fun runs => if_pos runs⟩
  rw [waits]
  rfl

/-- DONE of a test within its limit: an abort, or the result (R324, R325). -/
theorem opTestDone_act {c : Cmd} {s : State} {k lim : Nat} (core : testCore s.env s.hub (c.w 2) = some (k, lim)) (inTime : nowNs s.hub ≤ lim) :
    opTestDone.act s.env (consumed c s) (ctxOf c s) = okCross (consumed c s) [] (if c.n 3 = 2 then abortTest s.env k (consumed c s)
      else endTest s.env k (decide (c.n 3 = 1)) (consumed c s)) := by
  unfold opTestDone
  simp only [ctxOf_w, ctxOf_n, testCore_consumed, core, nowNs_consumed]
  exact if_neg (by omega)

/-- A result PASS within the limit. -/
theorem opTestDone_pass {c : Cmd} {s : State} {k lim : Nat} (core : testCore s.env s.hub (c.w 2) = some (k, lim)) (inTime : nowNs s.hub ≤ lim)
    (pass : c.n 3 = 0) : opTestDone.act s.env (consumed c s) (ctxOf c s) = okCross (consumed c s) [] (endTest s.env k false (consumed c s)) := by
  rw [opTestDone_act core inTime, pass]
  rfl

/-! VERDICT_READ. -/

/-- VERDICT_READ of an entity whose verdict the block holds (R340). -/
theorem opVerdictRead_act {c : Cmd} {s : State} (known : knowsEnt s.env s.hub (c.w 1) = true) : opVerdictRead.act s.env (consumed c s) (ctxOf c s) =
    ok [w32 (entity s.hub (c.w 1)).verdict, scoreWord (entity s.hub (c.w 1)), floorWord s.hub (c.w 1)] (consumed c s) := by
  unfold opVerdictRead
  simp only [ctxOf_w, knowsEnt_consumed, known, entity_consumed, floorWord_consumed, if_true]

/-- Settles O32: what each command leaves follows from `verdictCmd_done` and `verdictCmd_crosses`, and what it changes from the lemma on its
change. -/
theorem verdictCommands : Obligations.VerdictCommands := by
  unfold Obligations.VerdictCommands
  refine ⟨fun c s v p set => ⟨fun arrays pages rows => ?_, fun excess => ?_⟩, fun c s p => ⟨fun own => ?_, fun strange => ?_⟩, fun c s p own => ?_,
    fun c s p own => ⟨fun kind removed => ?_, fun stands => ?_⟩, fun c s p job other twin lt => ?_, fun c s k p one ent idle out => ?_,
    fun c s k v p one due => ⟨fun waits => ?_, fun runs => ?_⟩, fun c s k lim p core inTime => ⟨fun abort => ?_, fun pass v => ?_, fun pass v fl => ?_⟩,
    fun c s p known => ?_⟩
  · obtain ⟨t, run, ans, hcasc, -⟩ := verdictCmd_done p ((opPolicySet_act set).trans (if_neg (by omega))) (by decide) rfl (by simp)
    exact ⟨t, run, ans, by simp [hcasc, onCasc]⟩
  · obtain ⟨t, run, ans, hcasc, -⟩ := verdictCmd_done p ((opPolicySet_act set).trans (if_pos (.inl excess))) (by decide) rfl (by simp)
    exact ⟨t, run, ans, by simp [hcasc]⟩
  · obtain ⟨t, run, ans, hown, others⟩ := removal_run p (opFence_act own)
    exact ⟨t, run, ans, hown.trans (worse_removal _).1, others⟩
  · obtain ⟨t, run, ans, hcasc, -⟩ := verdictCmd_done p (opFence_strange strange) (by decide) rfl (by simp)
    exact ⟨t, run, ans, by simp [hcasc]⟩
  · obtain ⟨t, run, ans, hown, others⟩ := removal_run p (opExpel_act own)
    exact ⟨t, run, ans, hown.trans (worse_removal _).2, others⟩
  · obtain ⟨hcmd, hprot⟩ := unfenced_keeps s.env (c.w 1) (consumed c s)
    obtain ⟨t, run, ans, hcasc, -⟩ := verdictCmd_crosses p ((opUnfence_act own).1 kind removed) (by simp [unfloored]) hcmd (by simp [hprot])
    obtain ⟨hown, others⟩ := unfenced_verdict s.env (c.w 1) (consumed c s)
    exact ⟨t, run, ans, by rw [entity_of_casc hcasc, hown], fun y n => by rw [entity_of_casc hcasc, others y n, entity_consumed]⟩
  · obtain ⟨t, run, ans, hcasc, -⟩ := verdictCmd_done p ((opUnfence_act own).2 stands) (by decide) rfl (by simp)
    exact ⟨t, run, ans, by simp [hcasc]⟩
  · obtain ⟨hcmd, hprot⟩ := shadowed_keeps ((c.w 1).setWidth 16) (entId 9 (c.n 1 * 256 + c.n 2)) (c.n 2) (c.n 3) (consumed c s)
    obtain ⟨t, run, ans, hcasc, -⟩ := verdictCmd_done p (opShadowStart_act job other twin lt) (by decide) (by simp [hcmd]) (by simp [hprot])
    exact ⟨t, run, ans, by rw [entity_of_casc hcasc]; exact (setVerdict_verdict ..).1⟩
  · obtain ⟨t, run, ans, hcasc, -⟩ := verdictCmd_done p (opTestSchedule_act one (by rw [ent]; exact idle) out) (by decide) (by simp) (by simp)
    refine ⟨t, run, ans, ?_⟩
    rw [entity_of_casc hcasc, ent, noteCmd_test]
  · obtain ⟨t, run, ans, hcasc, -, himg, -⟩ := verdictCmd_done p ((opTestCancel_act one due).1 waits) (by decide) (by simp) (by simp)
    exact ⟨t, run, ans, (testOf_congr himg (congrArg Ent.test (entity_of_casc hcasc _))).trans (cancelTest_none ..)⟩
  · obtain ⟨t, run, ans, hcasc, -⟩ := verdictCmd_done p ((opTestCancel_act one due).2 runs) (by decide) rfl (by simp)
    exact ⟨t, run, ans, by simp [hcasc]⟩
  · obtain ⟨t, run, ans, hcasc, -, himg⟩ := verdictCmd_crosses p ((opTestDone_act core inTime).trans (by rw [if_pos abort])) (by simp) (by simp) (by simp)
    refine ⟨t, run, ans, (testOf_congr himg (congrArg Ent.test (entity_of_casc hcasc _))).trans ?_⟩
    rw [abortTest_test, testOf_consumed]
  · obtain ⟨t, run, ans, hcasc, hhubc, himg⟩ := verdictCmd_crosses p (opTestDone_pass core inTime pass) (by simp) (by simp) (by simp)
    obtain ⟨hlast, htest, -⟩ := (endTest_pass (e := s.env) (c := k) (h := consumed _ s)).1 (by simpa using v)
    refine ⟨t, run, ans, (testOf_congr himg (congrArg Ent.test (entity_of_casc hcasc _))).trans ?_, ?_⟩
    · simpa [testOf] using htest
    · rw [hubc_congr hhubc, hlast, nowNs_consumed]
  · obtain ⟨t, run, -, hcasc, -⟩ := verdictCmd_crosses p (opTestDone_pass core inTime pass) (by simp) (by simp) (by simp)
    refine ⟨t, run, ?_⟩
    rw [entity_of_casc hcasc, ← coreId_consumed s.env (withOp 2 c) s k]
    exact endTest_pass.2 (by simpa using v) (by simpa using fl)
  · obtain ⟨t, run, ans, hcasc, -⟩ := verdictCmd_done p (opVerdictRead_act known) (by decide) rfl (by simp)
    exact ⟨t, run, ans, by simp [hcasc]⟩

end Sys2Proof.Machine
end

section
/-!
PROOF. The aggregation window's end and the steps of a rhizome (O53): what a window's end leaves of the clock of the scans, what a member's
exchange words leave of the rhizome, and what a step's deadline does.
-/
namespace Sys2Proof.Machine

/-! The window's end (R17). -/

/-- Broadcasts whose windows are still to come wait on, and the clock of the scans is left. -/
theorem applyBroadcasts_scan {e : Env} {h : Hub} (a : ∀ p ∈ h.bc.apply, windowEnded h p.1 = false) : SameScan h (applyBroadcasts e h) := by
  have none_due : h.bc.apply.filter (fun p => windowEnded h p.1) = [] :=
    List.filter_eq_nil_iff.mpr (fun p hp => by simp [a p hp])
  unfold applyBroadcasts
  rw [none_due]
  exact SameScan.of (onBc_only ..) rfl

/-- The window after `w` is in progress, from now. -/
def windowTurned (w : Nat) (h : Hub) : Hub :=
  { onCasc (fun c => { c with window := w + 1, windowTb := nowNs h }) h with
    hubc := h.hubc.map (fun p => (p.1, { p.2 with hadOutcome := false })) }

/-- What a window's end does once the next window is in progress. `w` is the window that ends. -/
def windowRest (e : Env) (w : Nat) (h : Hub) : Hub :=
  let h := applyMembership (doSwaps e e.tray true (applyBroadcasts e h))
  if serving h then windowServing e w h
  else if e.tray then h
  else photenSend 5 0 (2 ^ 17 + myTray h) 0 0 (heartbeatBytes (heartbeatNow e h)) h

theorem windowRest_scan {e : Env} {w : Nat} {h : Hub} (a : ∀ p ∈ h.bc.apply, windowEnded h p.1 = false) : SameScan h (windowRest e w h) := by
  have boundary := ((applyBroadcasts_scan (e := e) a).step (doSwaps_scan e e.tray true _)).step (applyMembership_scan _)
  unfold windowRest
  dsimp only
  split
  · exact boundary.step (windowServing_scan ..)
  · split
    · exact boundary
    · exact boundary.step (SameScan.of (photenSend_only ..) (by rfl))

/-! The exchange (Table 8.4 step 2): what is read of a group. -/

theorem shardGroup_congr {h k : Hub} (a : k.img = h.img) : shardGroup k = shardGroup h := by
  unfold shardGroup imgOf
  rw [a]

theorem myPos_congr {h k : Hub} (a : k.img = h.img) (s : Scoring) : myPos k s = myPos h s := by
  unfold myPos myTray imgOf
  rw [a]

theorem firstDie_congr {h k : Hub} (a : k.jobs = h.jobs) (x : Word) : firstDie k x = firstDie h x := by
  unfold firstDie jobDies jobAt
  rw [a]

theorem entsAt_congr {h k : Hub} (a : k.jobs = h.jobs) (s : Scoring) (i : Nat) : entsAt k s i = entsAt h s i := by
  unfold entsAt homePos
  simp only [firstDie_congr a]

/-- The words of a member's entities enter their rows. -/
def enterWords (e : Env) (s : Scoring) (ps : List (Word × List Word)) (h : Hub) : Hub :=
  ps.foldl (fun h p => ((exchangeWords s p.1).zip p.2).foldl (fun h w => featWrite e p.1 w.1 w.2 h) h) h

theorem enterWords_only (e : Env) (s : Scoring) (ps : List (Word × List Word)) (h : Hub) :
    Only [.ens, .regs, .mem, .log] h (enterWords e s ps h) :=
  Only.foldl (fun k _ => Only.foldl (fun _ _ => featWrite_only ..) _ (Only.refl _ k)) _ (Only.refl _ h)

/-- After its second step a rhizome takes no words. -/
theorem exchangeRx_late {e : Env} {src : Nat} {b : List Byte} {h : Hub} {s : Scoring} {r : Rhizome} (g : shardGroup h = some s)
    (c : h.casc.rhizome = some r) (d : r.step ≠ 2) : exchangeRx e src b h = h := by
  unfold exchangeRx
  simp only [g, c]
  exact if_pos (.inl d)

/-- What a member's words make of the exchange: its entities are present, and the member is heard when all of them are. -/
def hears (h : Hub) (s : Scoring) (src : Nat) (b : List Byte) (r : Rhizome) : Rhizome :=
  let pos := s.members.idxOf (src % 1024)
  let ps := (readParts s b.length (b.drop 8)).filter (fun p => (entsAt h s pos).contains p.1)
  let got := (r.present ++ ps.map (fun p => p.1.toNat)).dedup
  { r with present := got, heard := if (entsAt h s pos).all (fun x => got.contains x.toNat) then (r.heard ++ [pos]).dedup else r.heard }

/-- A member's words for the window in progress enter their rows, and the exchange waits on for the members not heard. -/
theorem exchangeRx_waits {e : Env} {src : Nat} {b : List Byte} {h : Hub} {s : Scoring} {r : Rhizome} (g : shardGroup h = some s)
    (c : h.casc.rhizome = some r) (step : r.step = 2) (member : s.members.idxOf (src % 1024) < s.members.length) (window : beAt b 0 4 = r.window % 2 ^ 32)
    (wait : (List.range s.members.length).all (fun i => decide (i = myPos h s) || (hears h s src b r).heard.contains i) = false) :
    (exchangeRx e src b h).casc.rhizome = some (hears h s src b r) := by
  have taken : ¬ (r.step ≠ 2 ∨ s.members.idxOf (src % 1024) ≥ s.members.length ∨ beAt b 0 4 ≠ r.window % 2 ^ 32) := by
    rintro (n | n | n)
    · exact n step
    · omega
    · exact n window
  have eq : exchangeRx e src b h = rhizAdvance e (onRhiz
      (fun q => { q with
        present := (hears h s src b r).present
        heard := if (entsAt h s (s.members.idxOf (src % 1024))).all (fun x => (hears h s src b r).present.contains x.toNat) then
          (q.heard ++ [s.members.idxOf (src % 1024)]).dedup else q.heard })
      (enterWords e s ((readParts s b.length (b.drop 8)).filter (fun p => (entsAt h s (s.members.idxOf (src % 1024))).contains p.1)) h)) := by
    unfold exchangeRx
    simp only [g, c]
    exact if_neg taken
  rw [eq]
  generalize hk : enterWords e s _ h = k
  have o : Only [.ens, .regs, .mem, .log] h k := hk ▸ enterWords_only ..
  generalize hl : onRhiz _ k = l
  have img : l.img = h.img := by rw [← hl]; exact o.keep .img (by decide)
  have rh : l.casc.rhizome = some (hears h s src b r) := by
    rw [← hl]
    show k.casc.rhizome.map _ = _
    rw [show k.casc = h.casc from o.keep .casc (by decide), c]
    rfl
  rw [rhizAdvance_waits ((shardGroup_congr img).trans g) rh step (by rw [myPos_congr img]; exact wait)]
  exact rh

/-! A step's deadline (Table 8.4, R306). -/

/-- A deadline is taken when the step's share of the window has passed. -/
theorem exec_rhizomeStepDeadline {s : State} {step : BitVec 3} {r : Rhizome} (tray : s.env.tray = true) (w : working s.hub = true)
    (c : s.hub.casc.rhizome = some r) (at_ : r.step = step.toNat)
    (share : 100 * (nowNs s.hub - r.boundary) ≥ rhizShare step.toNat * (imgOf s.hub).windowNs)
    (first : s.env.beaten evRound (r.boundary + rhizShare step.toNat * (imgOf s.hub).windowNs / 100) (nowNs s.hub) = false) :
    exec (.rhizomeStepDeadline step) s = .next (s.settle (rhizDeadline s.env step.toNat s.hub.clean)) := by
  show execRhizomeStepDeadline step s = _
  unfold execRhizomeStepDeadline
  rw [State.run_next]
  simp [c, tray, w, at_, share, first, guard]

theorem exchangeDeadline {e : Env} {h : Hub} {s : Scoring} {r : Rhizome} (g : shardGroup h = some s) (c : h.casc.rhizome = some r) :
    rhizDeadline e 2 h = rhizAdvance e (startScreen e s h) := by
  unfold rhizDeadline
  rw [g, c]
  rfl

theorem confirmDeadline {e : Env} {h : Hub} {s : Scoring} {r : Rhizome} (g : shardGroup h = some s) (c : h.casc.rhizome = some r) :
    rhizDeadline e 4 h = rhizAdvance e (startRaises e s r.results r.slot (onRhiz (fun r => { r with unconf := r.gated }) h)) := by
  unfold rhizDeadline
  rw [g, c]
  rfl

theorem screenDeadline_casc {e : Env} {h : Hub} {s : Scoring} {r : Rhizome} (g : shardGroup h = some s) (c : h.casc.rhizome = some r) :
    (rhizDeadline e 3 h).casc = { h.casc with rhizome := none, unscored := h.casc.unscored + (homeEnts h s).length } := by
  unfold rhizDeadline
  rw [g, c]
  show { (unscored (homeEnts h s) h).casc with rhizome := none } = _
  rw [unscored_casc]

theorem spikeDeadline_casc {e : Env} {h : Hub} {s : Scoring} {r : Rhizome} (g : shardGroup h = some s) (c : h.casc.rhizome = some r) :
    (rhizDeadline e 5 h).casc = { h.casc with rhizome := none, unscored := h.casc.unscored + r.results.length } := by
  unfold rhizDeadline
  rw [g, c]
  show (unscored (r.results.map (fun q => q.entity)) (rhizEnd h)).casc = _
  rw [unscored_casc, List.length_map]
  rfl

/-! The three events. -/

theorem exec_aggregationWindowEnd {s : State} (w : working s.hub = true) (past : s.hub.casc.window < nowNs s.hub / (imgOf s.hub).windowNs) :
    exec .aggregationWindowEnd s = .next (s.settle (windowRest s.env s.hub.casc.window (windowTurned s.hub.casc.window s.hub.clean))) := by
  show execAggregationWindowEnd s = _
  unfold execAggregationWindowEnd
  rw [State.run_next]
  have due : (working s.hub.clean && decide (s.hub.clean.casc.window < nowNs s.hub.clean / (imgOf s.hub.clean).windowNs)) = true := by
    simp [w, past]
  show Host.Outcome.next (s.settle (guard _ (fun h => windowRest s.env s.hub.casc.window (windowTurned s.hub.casc.window h)) s.hub.clean)) = _
  rw [guard_pos due]

/-- An EXCHANGE in order is counted, and taken by a tray in SERVING. -/
theorem exec_exchangeReceive {s : State} {bytes : List Byte} {port : BitVec 6} (tray : s.env.tray = true) (sv : serving s.hub = true)
    (ok : photenOk s.env s.hub 4 bytes port.toNat = true) :
    ∃ h, Only [.fab] s.hub.clean h ∧ h.fab.accepted = s.hub.fab.accepted + 1 ∧
      exec (.exchangeReceive bytes port) s = .next (s.settle (exchangeRx s.env (photenFields bytes).src (photenFields bytes).body h)) := by
  obtain ⟨n, q⟩ := photenRx_ok (e := s.env) (h := s.hub.clean)
    (fun r h => if s.env.tray && serving h then exchangeRx s.env r.src r.body h else h) ok
  refine ⟨{ s.hub.clean with fab := { s.hub.clean.fab with
    rx := Tab.put s.hub.clean.fab.rx ((photenFields bytes).src * 4 + (photenFields bytes).tc) n, accepted := s.hub.clean.fab.accepted + 1 } },
    Only.set_fab (Only.refl _ _) rfl, rfl, ?_⟩
  show execExchangeReceive bytes port s = _
  unfold execExchangeReceive
  rw [State.run_next, q, if_pos (by rw [tray]; exact sv)]

/-- Settles O53: a window's end moves the clock of the scans by one window, a member's words wait for the others', and a deadline ends the
step that it meets. -/
theorem windowsAndRhizomes : Obligations.WindowsAndRhizomes := by
  unfold Obligations.WindowsAndRhizomes
  refine ⟨fun s w past wait => ?_, fun s bytes port b sg r pos ps tray sv ok g c hb hpos hps => ?_,
    fun s step sg r tray w g c at_ share first => ?_⟩
  · have scan : SameScan (windowTurned s.hub.casc.window s.hub.clean) _ :=
      windowRest_scan (e := s.env) (w := s.hub.casc.window) wait
    refine ⟨_, exec_aggregationWindowEnd w past, ?_⟩
    rw [State.settle_hub, Hub.clean_casc, scan.window, scan.start, scan.scan]
    exact ⟨rfl, rfl, rfl⟩
  · obtain ⟨h, o, accepted, eq⟩ := exec_exchangeReceive (port := port) tray sv ok
    have casc : h.casc = s.hub.casc := o.keep .casc (by decide)
    have img : h.img = s.hub.img := o.keep .img (by decide)
    have jobs : h.jobs = s.hub.jobs := o.keep .jobs (by decide)
    have g' : shardGroup h = some sg := (shardGroup_congr img).trans g
    have c' : h.casc.rhizome = some r := by rw [casc]; exact c
    subst hb hpos hps
    refine ⟨fun late => ⟨_, eq, ?_⟩, fun got heard step member window hgot hheard wait => ⟨_, eq, ?_⟩⟩
    · rw [State.settle_hub, exchangeRx_late g' c' late]
      exact ⟨casc, accepted⟩
    · have is : hears h sg (photenFields bytes).src (photenFields bytes).body r = { r with present := got, heard := heard } := by
        unfold hears
        simp only [entsAt_congr jobs, hgot, hheard]
      rw [State.settle_hub, Hub.clean_casc, ← is]
      exact exchangeRx_waits g' c' step member window (by rw [is, myPos_congr img]; exact wait)
  · have eq := exec_rhizomeStepDeadline tray w c at_ share first
    refine ⟨?_, ?_, ?_, ?_⟩ <;> rintro rfl
    · rw [eq]
      exact congrArg (fun h => Host.Outcome.next (s.settle h)) (exchangeDeadline (h := s.hub.clean) g c)
    · rw [eq]
      exact congrArg (fun h => Host.Outcome.next (s.settle h)) (confirmDeadline (h := s.hub.clean) g c)
    · exact ⟨_, eq, screenDeadline_casc (h := s.hub.clean) g c⟩
    · exact ⟨_, eq, spikeDeadline_casc (h := s.hub.clean) g c⟩

end Sys2Proof.Machine
end

section
/-!
PROOF. An idle step (O2): what is due fires, and otherwise one clock cycle passes, in which nothing moves but the time base where nothing waits.
-/
namespace Sys2Proof.Machine

/-- A step with nothing waiting and nothing due is one cycle (log 9). -/
theorem step_cycle {s : State} (idle : s.pending = []) (due : s.hub.time.due = false) : step s = .next (s.settle (tick s.env s.hub.clean)) := by
  unfold step
  rw [idle, due]
  rfl

/-- With nothing waiting the expiries that are due together act (R54, R71). -/
theorem step_due {s : State} (idle : s.pending = []) (due : s.hub.time.due = true) : step s = .next (fireDue s) := by
  unfold step
  rw [idle, due]
  rfl

/-! The cycle's end. -/

/-- The cycle in progress has ended without a trigger condition. -/
def ended (h : Hub) : Hub := endCycle (onTrc (fun t => { t with fired := false }) h)

theorem fireConds_none {e : Env} {h : Hub} (quiet : h.trc.conds = []) : fireConds e h = onTrc (fun t => { t with fired := false }) h := by
  unfold fireConds
  rw [quiet]
  exact congrArg (fun l => onTrc (fun t => { t with conds := l, fired := false }) h) quiet.symm

theorem countBusy_idle {h : Hub} (out : h.mem.out = []) (waitq : h.mem.waitq = []) : countBusy h = h := by
  unfold countBusy
  rw [out, waitq]
  rfl

/-! What a cycle adds to the time base (R49, R59). -/

theorem tickTime_dormant {h : Hub} (st : h.sys.st = .dormant) (ref : h.isl.refLost = false) : tickTime h = { h with time := tbDormant h.time } := by
  unfold tickTime
  rw [st, ref]
  rfl

theorem tickTime_alive {h : Hub} (al : alive h = true) : tickTime h = { h with time := tbCycle h.time } := by
  have core : (h.sys.st == .dormant || h.sys.st == .fuse || (h.sys.st == .cold && (h.sys.supplyLost || !h.sys.porstLow))) = false := by
    unfold alive at al
    cases st : h.sys.st <;> simp_all
  unfold tickTime
  rw [core, al]
  rfl

theorem tickTime_reset {h : Hub} (st : h.sys.st = .cold) (supply : h.sys.supplyLost = false) (low : h.sys.porstLow = true) : tickTime h = h := by
  unfold tickTime alive
  rw [st, supply, low]
  rfl

theorem tickTime_time (h : Hub) : ∃ t, tickTime h = { h with time := t } := by
  unfold tickTime
  split
  · split
    · exact ⟨h.time, rfl⟩
    · exact ⟨_, rfl⟩
  · split
    · exact ⟨_, rfl⟩
    · exact ⟨h.time, rfl⟩

/-- A REFCLK cycle of the island moves TB_NS by 10 and leaves no fraction (R59). -/
theorem tbDormant_now (t : TimeU) (lt : t.tb.toNat / 2 ^ 32 + 10 < 2 ^ 64) :
    (tbDormant t).tb.toNat = (t.tb.toNat / 2 ^ 32 + 10) * 2 ^ 32 := by
  simp only [tbDormant, tbUnit, BitVec.toNat_ofNat]
  exact Nat.mod_eq_of_lt (by omega)

/-! What goes on once time has moved. -/

/-- What may start in a cycle once time has moved. -/
def startsIn (e : Env) (h : Hub) : Hub :=
  let h := if portOn h then (List.range 4).foldl (fun h c => takeSubmitted e c h) h else h
  let h := if alive h then ctlTrace e (sendReports e (drainQueue e 8 (startAllHeld e h))) else h
  if h.mem.errq.isEmpty || !alive h then h else dmaPump e h

/-- With no trigger condition met and nothing at the memory port a cycle ends, time moves, and what can start does. -/
theorem tick_eq {e : Env} {h : Hub} (quiet : h.trc.conds = []) (out : h.mem.out = []) (waitq : h.mem.waitq = []) :
    tick e h = startsIn e (tickTime (ended h)) := by
  obtain ⟨t, moved⟩ := tickTime_time (ended h)
  show startsIn e (countBusy (tickTime (endCycle (fireConds e h)))) = _
  rw [fireConds_none quiet]
  show startsIn e (countBusy (tickTime (ended h))) = _
  rw [moved, countBusy_idle (h := { ended h with time := t }) out waitq]

/-- In a state whose port does not respond nothing starts. -/
theorem startsIn_off {e : Env} {h : Hub} (off : portOn h = false) : startsIn e h = h := by
  have dead : alive h = false := by
    unfold portOn at off
    unfold alive
    cases st : h.sys.st <;> simp_all
  simp [startsIn, off, dead]

/-- The port responds neither in DORMANT nor in COLD (R607). -/
theorem portOn_off {h : Hub} (st : h.sys.st = .dormant ∨ h.sys.st = .cold) : portOn h = false := by
  unfold portOn
  rcases st with st | st <;> rw [st] <;> rfl

theorem takeSubmitted_none {e : Env} {c : Nat} {h : Hub} (empty : (chan h c).submitted = none) : takeSubmitted e c h = h := by
  unfold takeSubmitted
  rw [empty]

theorem startAllHeld_none {e : Env} {h : Hub} (empty : h.cmd.held = []) : startAllHeld e h = h := by
  unfold startAllHeld
  rw [empty]
  rfl

theorem drainQueue_none {e : Env} {n : Nat} {h : Hub} (empty : h.xs.queue = []) : drainQueue e n h = h := by
  unfold drainQueue
  split
  · rfl
  · rw [empty]

theorem sendReports_none {e : Env} {h : Hub} (empty : h.reports = []) : sendReports e h = h := by
  unfold sendReports
  split
  · rw [empty]
    exact congrArg (fun l => { h with reports := l }) empty.symm
  · rfl

theorem ctlTrace_off {e : Env} {h : Hub} (off : ctlTraced h = false) : ctlTrace e h = h := by
  unfold ctlTrace
  rw [off]
  rfl

/-- With no packet submitted, no command held back, no request, no report, no trace of the controller and no access to end as an error,
nothing starts. -/
theorem startsIn_none {e : Env} {h : Hub} (sub : ∀ c, (chan h c).submitted = none) (held : h.cmd.held = []) (errq : h.mem.errq = [])
    (queue : h.xs.queue = []) (reports : h.reports = []) (ctl : ctlTraced h = false) : startsIn e h = h := by
  have packets : ∀ l : List Nat, l.foldl (fun h c => takeSubmitted e c h) h = h := by
    intro l
    induction l with
    | nil => rfl
    | cons c t ih => rw [List.foldl_cons, takeSubmitted_none (sub c), ih]
  simp [startsIn, packets, startAllHeld_none held, drainQueue_none queue, sendReports_none reports, ctlTrace_off ctl, errq]

/-- A channel holds a packet after the cycle's end where it held one before. -/
theorem chan_ended (h : Hub) (c : Nat) : (chan (ended h) c).submitted = (chan h c).submitted := by
  show (getAt (h.cmd.chans.map (fun x : Channel => { x with fresh := 0 })) c {}).submitted = (getAt h.cmd.chans c {}).submitted
  rw [getAt_eq, getAt_eq, List.getElem?_map]
  cases h.cmd.chans[c]? <;> rfl

/-- A cycle in a state whose port does not respond, with nothing at the memory port. -/
theorem tick_off {e : Env} {h : Hub} (quiet : h.trc.conds = []) (out : h.mem.out = []) (waitq : h.mem.waitq = [])
    (st : h.sys.st = .dormant ∨ h.sys.st = .cold) : tick e h = tickTime (ended h) := by
  obtain ⟨t, moved⟩ := tickTime_time (ended h)
  rw [tick_eq quiet out waitq, moved]
  exact startsIn_off (portOn_off st)

/-- A cycle with nothing waiting to go. -/
theorem tick_none {e : Env} {h : Hub} (quiet : h.trc.conds = []) (out : h.mem.out = []) (waitq : h.mem.waitq = [])
    (sub : ∀ c, (chan h c).submitted = none) (held : h.cmd.held = []) (errq : h.mem.errq = [])
    (queue : h.xs.queue = []) (reports : h.reports = []) (ctl : ctlTraced h = false) : tick e h = tickTime (ended h) := by
  obtain ⟨t, moved⟩ := tickTime_time (ended h)
  rw [tick_eq quiet out waitq, moved]
  exact startsIn_none (fun c => (chan_ended h c).trans (sub c)) held errq queue reports ctl

/-- Settles O2: an idle step is the expiries that are due or one cycle, of which only the cycle's end and the time base are left where
nothing waits. -/
theorem idleStep : Obligations.IdleStep := by
  unfold Obligations.IdleStep
  refine ⟨fun s idle => ?_, fun s idle due => step_due idle due, fun s idle due quiet out waitq => ?_⟩
  · cases due : s.hub.time.due with
    | true => exact ⟨_, step_due idle due, (fireDue_settled s).pending.trans idle⟩
    | false => exact ⟨_, step_cycle idle due, idle⟩
  · have cycle := step_cycle idle due
    refine ⟨fun st ref lt => ?_, fun al sub held errq queue reports ctl => ?_, fun st supply low => ?_⟩
    · rw [tick_off (h := s.hub.clean) quiet out waitq (.inl st), tickTime_dormant (h := ended s.hub.clean) st ref] at cycle
      have tb := tbDormant_now s.hub.time lt
      refine ⟨_, cycle, ?_, ?_, rfl⟩
      · show (tbDormant s.hub.time).tb.toNat / 2 ^ 32 = _
        rw [tb, Nat.mul_div_cancel _ (by decide)]
        rfl
      · show (tbDormant s.hub.time).tb.toNat % 2 ^ 32 = 0
        rw [tb, Nat.mul_mod_left]
    · rw [tick_none (h := s.hub.clean) quiet out waitq sub held errq queue reports ctl, tickTime_alive (h := ended s.hub.clean) al] at cycle
      exact ⟨_, cycle, rfl⟩
    · rw [tick_off (h := s.hub.clean) quiet out waitq (.inr st), tickTime_reset (h := ended s.hub.clean) st supply low] at cycle
      exact ⟨_, cycle, rfl⟩

end Sys2Proof.Machine
end

section
/-!
PROOF. The time base's commands and register accesses (O9), and the events of the time quality (O10).
-/
namespace Sys2Proof.Machine

/-! The time quality (R57, R58, R40). -/

/-- HOLDOVER_ENTRY meets a LOCKED time base without a valid sync for 3 sync intervals. -/
theorem exec_holdoverEntry {s : State} (q : s.hub.time.quality = 2) (late : s.hub.time.lastSync + 3 * s.hub.time.syncInt ≤ nowNs s.hub)
    (al : alive s.hub = true) :
    exec .holdoverEntry s =
      .next (s.settle (setQuality 3 { s.hub.clean with time := { s.hub.time with holdSince := nowNs s.hub } })) := by
  show execHoldoverEntry s = _
  unfold execHoldoverEntry
  exact run_guard (by simp [q, late, al])

/-- HOLDOVER_LIMIT_EXPIRY meets HOLDOVER beyond its limit, unless a sync of the same cycle comes first. -/
theorem exec_holdoverLimitExpiry {s : State} (q : s.hub.time.quality = 3)
    (late : s.hub.time.holdSince + s.hub.time.holdoverLimit ≤ nowNs s.hub) (al : alive s.hub = true)
    (first : s.env.beaten evSync (s.hub.time.holdSince + s.hub.time.holdoverLimit) (nowNs s.hub) = false) :
    exec .holdoverLimitExpiry s = .next (s.settle (setQuality 0 { s.hub.clean with time := { s.hub.time with lockRun := 0 } })) := by
  show execHoldoverLimitExpiry s = _
  unfold execHoldoverLimitExpiry
  exact run_guard (by simp [q, late, al, first])

/-- What a loss or a return of REFCLK does before the quality follows: it is recorded, and the run of locked intervals restarts. -/
def refclkTurned (back : Bool) (h : Hub) : Hub :=
  { refclkRecord back h with isl := { h.isl with refLost := !back }, time := { h.time with lockRun := 0 } }

theorem refclkTurned_sys (back : Bool) (h : Hub) : (refclkTurned back h).sys = h.sys := (refclkRecord_only back h).keep .sys (by decide)

theorem exec_refclkLoss {s : State} (on : s.hub.isl.refLost = false) :
    exec .refclkLoss s = .next (s.settle (setQuality 0 (refclkTurned false s.hub.clean))) :=
  run_guard (b := fun _ h => !h.isl.refLost) (f := fun _ h => setQuality 0 (refclkTurned false h)) (by simp [on])

theorem exec_refclkReturn {s : State} (off : s.hub.isl.refLost = true) :
    exec .refclkReturn s =
      .next (s.settle (setQuality (qualityNow (refclkTurned true s.hub.clean)) (refclkTurned true s.hub.clean))) :=
  run_guard (b := fun _ h => h.isl.refLost) (f := fun _ h => setQuality (qualityNow (refclkTurned true h)) (refclkTurned true h)) off

/-- With REFCLK back and no locked interval yet, the quality is ACQUIRING where a source is selected (R40). -/
theorem qualityNow_returned (h : Hub) : qualityNow (refclkTurned true h) = if h.time.source = 1 then 1 else 0 := by
  by_cases src : h.time.source = 1 <;> simp [qualityNow, refclkTurned, src]

/-- Settles O10: each event changes the quality as its rule says, and keeps what the statement names. -/
theorem timeQuality : Obligations.TimeQuality := by
  unfold Obligations.TimeQuality
  refine ⟨fun s q late al => ⟨_, exec_holdoverEntry q late al, ?_⟩, fun s q late al first => ⟨_, exec_holdoverLimitExpiry q late al first, ?_⟩,
    fun s on => ⟨_, exec_refclkLoss on, ?_⟩, fun s off => ⟨_, exec_refclkReturn off, ?_⟩⟩
  · exact setQuality_time (by simp [q])
  · exact setQuality_time (by simp [q])
  · simp only [State.settle_hub, Hub.clean_isl, Hub.clean_time, Hub.clean_sys, setQuality_keeps, setQuality_quality, setQuality_other, setQuality_tb, refclkTurned_sys]
    exact ⟨rfl, rfl, rfl, rfl, trivial⟩
  · simp only [State.settle_hub, Hub.clean_isl, Hub.clean_time, setQuality_keeps, setQuality_quality, setQuality_other, setQuality_tb, qualityNow_returned]
    exact ⟨rfl, apply_ite (BitVec.ofNat 2) .., rfl, rfl⟩

/-! TIME_SET (R56, R52, R53). -/

/-- TIME_SET with a source selected is refused. -/
theorem opTimeSet_refused {e : Env} {h : Hub} {c : Ctx} (src : h.time.source = 1) : opTimeSet.act e h c = .done stWrongState 0 [] h := by
  show (if h.time.source = 1 then refuse stWrongState h else _) = _
  rw [if_pos src]
  rfl

/-- Without one it is a correction by the difference. -/
theorem opTimeSet_corrects {e : Env} {h : Hub} {c : Ctx} (src : h.time.source ≠ 1) :
    opTimeSet.act e h c = .done stOk 0 [] (correct ((c.d 1 : Int) - nowNs h) h) := by
  show (if h.time.source = 1 then _ else ok [] (correct ((c.d 1 : Int) - nowNs h) h)) = _
  rw [if_neg src]
  rfl

theorem correct_step {off : Int} {h : Hub} (may : mayStep h off = true) : correct off h = stepTb off h := by
  unfold correct
  rw [if_pos may]

theorem correct_slew {off : Int} {h : Hub} (may : mayStep h off = false) :
    correct off h = { h with time := { h.time with toSlew := off * (tbUnit : Int) } } := by
  unfold correct
  rw [if_neg (by rw [may]; decide)]

@[simp] theorem mayStep_consumed (c : Cmd) (s : State) (off : Int) : mayStep (consumed c s) off = mayStep s.hub off := by
  unfold mayStep
  simp

/-- A 64-bit parameter is below 2^64. -/
theorem cmd_d_lt (c : Cmd) (n : Nat) : c.d n < 2 ^ 64 := by
  have hi := (c.w n).isLt
  have lo := (c.w (n + 1)).isLt
  show (c.w n).toNat * 2 ^ 32 + (c.w (n + 1)).toNat < 2 ^ 64
  omega

/-- What the answer leaves of the time base. -/
theorem settled_time {s : State} {e : Env} {code st det : Nat} {ch : Bool} {x : Ctx} {res : List Word} {k : Hub} :
    (s.settle (answer e code ch x st det res k)).hub.time = k.time := by simp

/-! TIME_TRIM (R643, R50). -/

/-- What a setting computes from its value keeps TB when each value does. -/
theorem tb_of_map {α : Type} {f : α → TimeU} {o : Option α} {a b : TimeU} (q : o.map f = some b) (keep : ∀ x, (f x).tb = a.tb) : b.tb = a.tb := by
  obtain ⟨x, -, rfl⟩ := Option.map_eq_some_iff.mp q
  exact keep x

theorem timeSetting_tb (n : Nat) (v : List Word) (a b : TimeU) (q : timeSetting n v a = some b) : b.tb = a.tb := by
  unfold timeSetting at q
  split at q
  case h_1 | h_2 | h_3 | h_4 | h_5 | h_6 => exact tb_of_map q (fun _ => rfl)
  case h_7 =>
    split at q
    · cases q; rfl
    · cases q
  case h_8 => cases q

/-- A change of source leaves the settings and TB. -/
theorem sourceChanged_settings (old : BitVec 2) (h : Hub) :
    (sourceChanged old h).time.rate = h.time.rate ∧ (sourceChanged old h).time.source = h.time.source ∧
    (sourceChanged old h).time.slewPpm = h.time.slewPpm ∧ (sourceChanged old h).time.stepThr = h.time.stepThr ∧
    (sourceChanged old h).time.tb = h.time.tb := by
  have quality : ∀ (q : Nat) (k : Hub), (setQuality q k).time.slewPpm = k.time.slewPpm ∧ (setQuality q k).time.stepThr = k.time.stepThr := by
    intro q k
    unfold setQuality
    split <;> simp
  unfold sourceChanged
  split
  · exact ⟨rfl, rfl, rfl, rfl, rfl⟩
  · simp [quality]

@[simp] theorem sourceChanged_cmd (old : BitVec 2) (h : Hub) : (sourceChanged old h).cmd = h.cmd ∧ (sourceChanged old h).prot = h.prot :=
  ⟨(sourceChanged_only old h).keep .cmd (by decide), (sourceChanged_only old h).keep .prot (by decide)⟩

/-- TIME_TRIM with valid settings puts them in force, and the quality follows a change of source. -/
theorem opTimeTrim_act {c : Cmd} {s : State} {tm : TimeU} (set : foldSet timeSetting c.params.length 1 c.params [] s.hub.time = .inr tm) :
    opTimeTrim.act s.env (consumed c s) (ctxOf c s) =
      .done stOk 0 [] (sourceChanged s.hub.time.source { consumed c s with time := tm }) := by
  have settings : (ctxOf c s).settings 1 timeSetting (consumed c s).time = .inr tm := by
    unfold Ctx.settings
    simpa using set
  show ok [] (sourceChanged (consumed c s).time.source { consumed c s with
    time := setOr (consumed c s).time ((ctxOf c s).settings 1 timeSetting (consumed c s).time) }) = _
  rw [settings]
  simp only [consumed_keeps]
  rfl

/-! The register accesses (R621, R622). -/

/-- What a write of CAP does once it is noted. -/
def captured (cap : Bool) (h : Hub) : Hub := if cap then { h with time := { h.time with capNs := BitVec.ofNat 64 (nowNs h) } } else h

/-- A direct write of CAP that no command's write meets is noted and acts (R621, R613). -/
theorem exec_timeCapture {s : State} (cap : Bool) (on : portOn s.hub = true) (free : s.hub.regs.cmdWrote.contains (2, 0x38) = false) :
    exec (.timeCapture cap) s = .next (s.settle (captured cap (noted 2 0x38 (BitVec.ofNat 64 (b2n cap)) s.hub))) := by
  refine (port_run (f := fun _ h => portField 2 0x38 (BitVec.ofNat 64 (b2n cap)) (captured cap) { h with regs := { h.regs with half := none } }) on).trans ?_
  rw [portField_free (by exact free)]
  rfl

/-- Settles O9: TIME_SET is refused, a step or a slew; TIME_TRIM and TIME_READ do what they name; a capture and a read latch one sample. -/
theorem timeCommands : Obligations.TimeCommands := by
  unfold Obligations.TimeCommands
  refine ⟨fun c s p => ⟨fun src => ?_, fun src may => ?_, fun src may => ?_⟩, fun c s p tm set => ?_, fun c s p => ?_,
    fun s on free => ⟨_, exec_timeCapture true on free, ?_⟩, fun s on free => ⟨_, exec_timeCapture false on free, ?_⟩,
    fun s on => ⟨_, port_run (f := fun _ h => _) on, ?_⟩⟩
  · obtain ⟨t, run, ans, rfl⟩ := op_done p (opTimeSet_refused (by simpa using src)) (by decide) rfl (by simp) (by simp)
    exact ⟨_, run, ans, by simp⟩
  · have act := opTimeSet_corrects (e := s.env) (h := consumed c s) (c := ctxOf c s) (by simpa using src)
    rw [correct_step (by simpa using may)] at act
    obtain ⟨t, run, ans, rfl⟩ := op_done p act (by decide) (by simp) (by simp) (by simp)
    obtain ⟨now, slew, steps⟩ := stepTb_now (off := ((ctxOf c s).d 1 : Int) - nowNs (consumed c s)) (h := consumed c s) (n := c.d 1)
      (by simp) (cmd_d_lt c 1)
    refine ⟨_, run, ans, (nowNs_congr settled_time).trans now, ?_⟩
    rw [settled_time]
    exact ⟨slew, by simpa using steps⟩
  · have act := opTimeSet_corrects (e := s.env) (h := consumed c s) (c := ctxOf c s) (by simpa using src)
    rw [correct_slew (by simpa using may)] at act
    obtain ⟨t, run, ans, rfl⟩ := op_done p act (by decide) rfl (by simp) (by simp)
    refine ⟨_, run, ans, ?_⟩
    rw [settled_time]
    simp [tbUnit]
  · obtain ⟨t, run, ans, rfl⟩ := op_done p (opTimeTrim_act set) (by decide) (by simp) (by simp) (by simp)
    obtain ⟨rate, source, slew, thr, tb⟩ := sourceChanged_settings s.hub.time.source { consumed c s with time := tm }
    refine ⟨_, run, ans, ?_⟩
    rw [settled_time]
    exact ⟨rate, source, slew, thr, tb, foldSet_inv timeSetting TimeU.tb timeSetting_tb _ _ _ _ _ _ set⟩
  · obtain ⟨t, run, ans, rfl⟩ := op_done (d := opTimeRead) p rfl (by decide) rfl (by simp) (by simp)
    refine ⟨_, run, ?_, by simp⟩
    have words : timeReadWords (consumed c s) = timeReadWords s.hub := by
      unfold timeReadWords
      simp
    rw [← words]
    exact ans
  · exact ⟨rfl, rfl, rfl⟩
  · rfl
  · exact ⟨rfl, rfl⟩

end Sys2Proof.Machine
end

section
/-!
PROOF. One host clock edge at a cell (O19): what it counts, and what it leaves of the region's clock and of the block's state.
-/
namespace Sys2Proof.Machine

/-! The accounting counters (R77, R78). -/

theorem account_elapsed (k : Counters) (st : BitVec 2) (reason : BitVec 4) : (k.account st reason).elapsed = k.elapsed + 1 := by
  unfold Counters.account
  split
  · rfl
  · split <;> rfl

theorem account_busy (k : Counters) (reason : BitVec 4) : k.account 1 reason = { k with elapsed := k.elapsed + 1, busy := k.busy + 1 } := rfl

theorem account_idle (k : Counters) (reason : BitVec 4) : k.account 0 reason = { k with elapsed := k.elapsed + 1, idle := k.idle + 1 } := rfl

/-- The stall counter of a stalled or unknown state: an unknown state counts as reason 15. -/
def stallNo (st : BitVec 2) (reason : BitVec 4) : Nat := if st = 3 then 15 else reason.toNat

theorem stallNo_lt (st : BitVec 2) (reason : BitVec 4) : stallNo st reason < 16 := by
  unfold stallNo
  split
  · decide
  · exact reason.isLt

theorem account_stall {st : BitVec 2} (stalled : st = 2 ∨ st = 3) (k : Counters) (reason : BitVec 4) : k.account st reason =
    { k with elapsed := k.elapsed + 1, stalls := setAt k.stalls (stallNo st reason) (getAt k.stalls (stallNo st reason) 0 + 1) } := by
  rcases stalled with rfl | rfl <;> rfl

/-- A counter of a list raised by one raises the sum by one. -/
theorem sum_setAt_succ {l : List Cnt} {i : Nat} (lt : i < l.length) : (setAt l i (getAt l i 0 + 1)).sum = l.sum + 1 := by
  induction l generalizing i with
  | nil => cases lt
  | cons x t ih =>
    cases i with
    | zero => simp only [setAt, getAt, List.sum_cons]; ac_rfl
    | succ i => simp only [setAt, getAt, List.sum_cons, ih (Nat.lt_of_succ_lt_succ lt)]; ac_rfl

/-- Every presented state is busy, idle, stalled or unknown. -/
theorem state_cases (st : BitVec 2) : st = 1 ∨ st = 0 ∨ st = 2 ∨ st = 3 := by
  revert st
  decide

/-- The sum of busy, idle and stalls moves with elapsed (R78). -/
theorem account_balance {k : Counters} (st : BitVec 2) (reason : BitVec 4) (len : k.stalls.length = 16) :
    (k.account st reason).busy + (k.account st reason).idle + (k.account st reason).stalls.sum - (k.account st reason).elapsed =
      k.busy + k.idle + k.stalls.sum - k.elapsed := by
  rcases state_cases st with rfl | rfl | stalled
  · rw [account_busy]; bv_omega
  · rw [account_idle]; bv_omega
  · rw [account_stall stalled, sum_setAt_succ (by rw [len]; exact stallNo_lt st reason)]; bv_omega

/-! One host edge (R75). -/

/-- The region's clock at a host edge, after which the cell has counted (R64, R77, R78, R82). -/
def edgeCounted (c : Nat) (st : BitVec 2) (reason : BitVec 4) (ev : DWord) (h : Hub) : Hub :=
  onCell c (fun x => { x with
      last := st
      cnt := if x.armed then (x.cnt.account st reason).hostEvents x.sels st ev else x.cnt.account st reason
      watch := { x.watch with ignore := x.watch.ignore - 1 } })
    (onRegion (regionOf c) (fun r => { r with
      lastEdge := nowNs h, edges := true, turn := if r.collect.head? = some c then min 16 (r.turn + 1) else r.turn }) (exitDrowse h))

/-- What the edge does once it has counted. -/
def edgeRest (e : Env) (c : Nat) (st : BitVec 2) (reason : BitVec 4) (pt : Bool) (h : Hub) : Hub :=
  let h := if st = 3 then cellEvent c 40 h else h
  let h := holdCycle e c st reason h
  let h := if working h then laneCycle e c h else h
  let h := if pt && working h then takeWrongly e c h else h
  edgeRules e c h

theorem exec_hostCycle {s : State} {k : BitVec 11} {st : BitVec 2} {reason : BitVec 4} {ev : DWord} {pt : Bool}
    (runs : cellRuns s.env s.hub k.toNat = true) :
    exec (.hostCycle k st reason ev pt) s =
      .next (s.settle (edgeRest s.env k.toNat st reason pt (edgeCounted k.toNat st reason ev s.hub.clean))) :=
  run_guard (b := fun e h => cellRuns e h k.toNat) (f := fun e h => edgeRest e k.toNat st reason pt (edgeCounted k.toNat st reason ev h)) runs

theorem edgeCounted_acct (c : Nat) (st : BitVec 2) (reason : BitVec 4) (ev : DWord) (h : Hub) :
    (cell (edgeCounted c st reason ev h) c).cnt.acct = ((cell h c).cnt.account st reason).acct := by
  obtain ⟨rules, before⟩ := exitDrowse_cell h c
  unfold edgeCounted
  rw [cell_onCell_self, (onRegion_reads ..).1, before]
  dsimp only
  split
  · exact hostEvents_acct ..
  · rfl

theorem edgeCounted_edge {c : Nat} {st : BitVec 2} {reason : BitVec 4} {ev : DWord} {h : Hub} {x : Region} (g : h.regions[regionOf c]? = some x) :
    (region (edgeCounted c st reason ev h) (regionOf c)).edge = (nowNs h, true, x.stopped) := by
  have g' : (exitDrowse h).regions[regionOf c]? = some x := by simpa using g
  unfold edgeCounted
  rw [(onCell_reads ..).2.1, region_onRegion _ g']
  rfl

@[simp] theorem takeWrongly_edge (e : Env) (c : Nat) (h : Hub) (q : Nat) : (region (takeWrongly e c h) q).edge = (region h q).edge := by
  unfold takeWrongly tapProto
  rw [postOut_edge]
  simp

/-- What the edge does after the count keeps the accounting counters, the region's clock and the block's state. -/
theorem edgeRest_keeps (e : Env) (c : Nat) (st : BitVec 2) (reason : BitVec 4) (pt : Bool) (h : Hub) (d q : Nat) :
    (cell (edgeRest e c st reason pt h) d).cnt.acct = (cell h d).cnt.acct ∧
    (region (edgeRest e c st reason pt h) q).edge = (region h q).edge ∧ (edgeRest e c st reason pt h).sys = h.sys :=
  cycle_rest (P := fun k => (cell k d).cnt.acct = (cell h d).cnt.acct ∧ (region k q).edge = (region h q).edge ∧ k.sys = h.sys)
    e c st reason pt ⟨rfl, rfl, rfl⟩ (fun _ _ p => by simpa using p) (fun _ p => by simpa using p) (fun _ p => by simpa using p)
    (fun _ p => by simpa using p) (fun _ p => by simpa using p)

/-- Settles O19: the edge counts once, the steps behind the count change nothing of it, and one count keeps the balance. -/
theorem hostCycle : Obligations.HostCycle := by
  unfold Obligations.HostCycle
  refine ⟨fun s k st reason ev pt x runs g len => ⟨_, exec_hostCycle runs, ?_⟩, fun k st reason len => account_balance st reason len⟩
  obtain ⟨acct, edge, sys⟩ := edgeRest_keeps s.env k.toNat st reason pt (edgeCounted k.toNat st reason ev s.hub.clean) k.toNat (regionOf k.toNat)
  rw [edgeCounted_acct] at acct
  rw [edgeCounted_edge (h := s.hub.clean) g] at edge
  simp only [State.settle_hub, cell_clean, region_clean, Hub.clean_sys]
  generalize edgeRest _ _ _ _ _ _ = t at acct edge sys ⊢
  obtain ⟨elapsed, busy, idle, stalls⟩ : _ ∧ _ ∧ _ ∧ _ := by simpa only [Counters.acct, Prod.mk.injEq] using acct
  obtain ⟨last, edges, -⟩ : _ ∧ _ ∧ _ := by simpa only [Region.edge, Prod.mk.injEq] using edge
  rw [elapsed, busy, idle, stalls, last, edges, sys]
  refine ⟨account_elapsed .., ?_, ?_, ?_, rfl, rfl, fun dr or => ?_⟩
  · rintro rfl
    exact ⟨rfl, rfl, rfl⟩
  · rintro rfl
    exact ⟨rfl, rfl, rfl⟩
  · intro stalled
    rw [account_stall stalled]
    refine ⟨rfl, rfl, fun i v val => ?_⟩
    show (setAt _ (stallNo st reason) _)[i]? = some (if i = stallNo st reason then v + 1 else v)
    rw [getElem?_setAt]
    by_cases here : i = stallNo st reason
    · subst here
      simp [getAt_eq, cell_clean, val]
    · simp [here, Ne.symm here, val]
  · exact exitDrowse_st dr or

end Sys2Proof.Machine
end

section
/-!
PROOF. The events of the lichen cells and host regions (O20): resets and rewrites, rules and watch windows, the region's clock, and snapshots.
-/
namespace Sys2Proof.Machine

/-! A region's reset and the rewrite that follows it (R102, R44). -/

theorem clearCell_cell (c : Nat) (h : Hub) :
    (cell (clearCell c h) c).cnt = {} ∧ (cell (clearCell c h) c).flags = 0 ∧ (cell (clearCell c h) c).armed = false := by
  unfold clearCell
  dsimp only
  rw [cell_onCell_self]
  exact ⟨rfl, rfl, rfl⟩

theorem clearCell_cell_ne {c d : Nat} (h : Hub) (n : d ≠ c) : cell (clearCell c h) d = cell h d := by
  unfold clearCell
  dsimp only
  rw [cell_onCell_ne _ _ n, (onHubc_reads ..).1, closeTiles_cell_ne _ _ n]

/-- The cells of a region clear. -/
def clearRegion (e : Env) (r : Nat) (h : Hub) : Hub := (regionCores e r).foldl (fun h c => clearCell c h) h

theorem clearRegion_regions (e : Env) (r : Nat) (h : Hub) : (clearRegion e r h).regions = h.regions :=
  (Only.foldl (ps := [.cells, .hubc]) (f := fun h c => clearCell c h) (fun k c => clearCell_only c k) _ (Only.refl _ h)).keep .regions (by decide)

theorem clearRegion_cell {e : Env} {r c : Nat} (h : Hub) (m : c ∈ regionCores e r) :
    (cell (clearRegion e r h) c).cnt = {} ∧ (cell (clearRegion e r h) c).flags = 0 ∧ (cell (clearRegion e r h) c).armed = false :=
  foldl_at (f := fun h c => clearCell c h) (P := fun k c => (cell k c).cnt = {} ∧ (cell k c).flags = 0 ∧ (cell k c).armed = false)
    (fun k c => clearCell_cell c k)
    (fun k c d p => by
      by_cases same : d = c
      · subst same; exact clearCell_cell d k
      · rw [clearCell_cell_ne _ same]; exact p)
    (regionCores e r) h m

theorem exec_hostRegionReset {s : State} {r : RegionNo} (die : s.env.tray = false) (on : portOn s.hub = true) :
    exec (.hostRegionReset r) s = .next (s.settle (
      onRegion r.toNat (fun x => { x with epoch := x.epoch + 1, rewrite := true }) (clearRegion s.env r.toNat s.hub.clean))) := by
  show execHostRegionReset r s = _
  unfold execHostRegionReset
  exact run_guard (by simp [die, on])

/-- What the hub's copy gives a cell is there: its selections, its watch settings, and it counts again. -/
def Rewritten (h : Hub) (c : Nat) : Prop :=
  (cell h c).sels = (Sys2Proof.Machine.hubc h c).sels ∧ (cell h c).watch.set = (Sys2Proof.Machine.hubc h c).watch ∧ (cell h c).armed = true

theorem rewriteCell_rewritten (c : Nat) (h : Hub) : Rewritten (rewriteCell c h) c := by
  unfold Rewritten
  simp only [rewriteCell_reads]
  unfold rewriteCell
  rw [cell_onCell_self]
  exact ⟨rfl, rfl, rfl⟩

theorem rewriteCell_cell_ne {c d : Nat} (h : Hub) (n : d ≠ c) : cell (rewriteCell c h) d = cell h d := cell_onCell_ne _ _ n

/-- The hub rewrites the configuration of a region's cells. -/
def rewriteRegion (e : Env) (r : Nat) (h : Hub) : Hub := (regionCores e r).foldl (fun h c => rewriteCell c h) h

theorem rewriteRegion_only (e : Env) (r : Nat) (h : Hub) : Only [.cells] h (rewriteRegion e r h) :=
  Only.foldl (f := fun h c => rewriteCell c h) (fun k c => rewriteCell_only c k) _ (Only.refl _ h)

theorem rewriteRegion_rewritten {e : Env} {r c : Nat} (h : Hub) (m : c ∈ regionCores e r) : Rewritten (rewriteRegion e r h) c :=
  foldl_at (f := fun h c => rewriteCell c h) (P := Rewritten) (fun k c => rewriteCell_rewritten c k)
    (fun k c d p => by
      by_cases same : d = c
      · subst same; exact rewriteCell_rewritten d k
      · unfold Rewritten
        simp only [rewriteCell_cell_ne _ same, rewriteCell_reads]
        exact p)
    (regionCores e r) h m

theorem exec_cellConfigRewrite {s : State} {r : RegionNo} {x : Region} (al : alive s.hub = true) (g : s.hub.regions[r.toNat]? = some x)
    (owed : x.rewrite = true) (clock : x.stopped = false) :
    exec (.cellConfigRewrite r) s = .next (s.settle (
      onRegion r.toNat (fun x => { x with rewrite := false }) (rewriteRegion s.env r.toNat s.hub.clean))) := by
  show execCellConfigRewrite r s = _
  unfold execCellConfigRewrite
  exact run_guard (by simp [al, region_of g, owed, clock])

/-! Rules (R85, R86, R87). -/

theorem ruleAt_of {x : Cell} {i : Nat} {r : Rule} (g : x.rules[i]? = some r) : ruleAt x i = r := by
  unfold ruleAt
  rw [getAt_eq, g]
  rfl

theorem exec_holdGraceExpiry {s : State} {k : BitVec 11} (runs : cellRuns s.env s.hub k.toNat = true) (held : (cell s.hub k.toNat).hold ≠ 0)
    (age : 256 ≤ (cell s.hub k.toNat).holdAge) :
    exec (.holdGraceExpiry k) s = .next (s.settle (onCell k.toNat (fun x => { x with graceOver := true }) s.hub.clean)) := by
  show execHoldGraceExpiry k s = _
  unfold execHoldGraceExpiry
  exact run_guard (f := fun _ => onCell k.toNat (fun x => { x with graceOver := true })) (by
    simp only [cellRuns_clean, cell_clean, runs, bne_iff_ne.mpr held, ge_iff_le, age, decide_true, Bool.and_self])

/-- A rule's window ends: the rule is evaluated unless a stop lay in the window, and the next window starts. -/
def windowEval (e : Env) (c i t : Nat) (r : Rule) (h : Hub) : Hub :=
  let h := if windowStopped (region h (regionOf c)) t r.window then h else evalRule e c i (r.holds (cell h c).cnt) h
  onCell c (fun y => { y with rules := setAt y.rules i { (ruleAt y i) with
    base := y.cnt.src r.srcNo, elapsed := y.cnt.elapsed, start := some (nowNs h / r.window * r.window) } }) h

theorem exec_sporeWindowEval {s : State} {k : BitVec 11} {i : BitVec 3} {r : Rule} {t : Nat} (runs : cellRuns s.env s.hub k.toNat = true)
    (sv : serving s.hub = true) (armed : (cell s.hub k.toNat).armed = true) (g : (cell s.hub k.toNat).rules[i.toNat]? = some r)
    (en : r.en = true) (kind : r.kind ≠ 0) (start : r.start = some t) (past : t + r.window ≤ nowNs s.hub) :
    exec (.sporeWindowEval k i) s = .next (s.settle (windowEval s.env k.toNat i.toNat t r s.hub.clean)) := by
  have due : (cellRuns s.env s.hub.clean k.toNat && serving s.hub.clean && (cell s.hub.clean k.toNat).armed && r.en && decide (r.kind ≠ 0) &&
      decide (t + r.window ≤ nowNs s.hub.clean)) = true := by
    simp [runs, sv, armed, en, kind, past]
  show execSporeWindowEval k i s = _
  unfold execSporeWindowEval
  rw [State.run_next]
  simp only [cell_clean, ruleAt_of g, start]
  exact congrArg (fun h => Host.Outcome.next (s.settle h)) (guard_pos due)

theorem windowEval_start {e : Env} {c i t : Nat} {r x : Rule} {h : Hub} (g : (cell h c).rules[i]? = some x) :
    (ruleAt (cell (windowEval e c i t r h) c) i).start = some (nowNs h / r.window * r.window) := by
  have lt : i < (cell h c).rules.length := (List.getElem?_eq_some_iff.mp g).1
  unfold windowEval
  dsimp only
  rw [cell_onCell_self]
  unfold ruleAt
  split
  · rw [getAt_setAt_self _ _ _ _ lt]
  · rw [getAt_setAt_self _ _ _ _ (by rw [evalRule_length]; exact lt)]
    simp only [evalRule_reads]

theorem windowEval_stopped {e : Env} {c i t : Nat} {r : Rule} {h : Hub} (stop : windowStopped (region h (regionOf c)) t r.window = true) :
    (cell (windowEval e c i t r h) c).flags = (cell h c).flags := by
  unfold windowEval
  dsimp only
  rw [cell_onCell_self, if_pos stop]

/-- A condition that has held for HOLD windows sets a flag that was clear (R87). -/
theorem windowEval_fires {e : Env} {c i t : Nat} {r : Rule} {h : Hub} (g : (cell h c).rules[i]? = some r)
    (run : windowStopped (region h (regionOf c)) t r.window = false) (holds : r.holds (cell h c).cnt = true)
    (clear : (cell h c).flags.getLsbD i = false) (long : r.holdN ≤ r.run + 1) :
    (cell (windowEval e c i t r h) c).flags = (cell h c).flags ||| BitVec.ofNat 8 (2 ^ i) := by
  unfold windowEval
  dsimp only
  rw [cell_onCell_self, if_neg (by rw [run]; decide)]
  dsimp only
  rw [evalRule_flags, holds, clear, ruleAt_of g, if_pos (by simpa using long)]

/-! Watch windows (R91–R94). -/

/-- A watch element has entered its window. -/
def elementIn (c : Nat) (s : WatchSet) (wd : Word) (h : Hub) : Hub :=
  cellEvent c 38 (onCell c (fun x => { x with watch := { x.watch with win := watchStep h s wd x.watch.win } }) h)

/-- The window ends at the stream's last element, at N elements, or, in a digest, at 2^28. -/
def windowCloses (c : Nat) (s : WatchSet) (last : Bool) (h : Hub) : Hub :=
  let n := (cell h c).watch.win.count
  if last || (decide (s.window ≠ 0) && decide (n = s.window)) then watchEnd c false h
  else if decide (s.mode = 2) && decide (n = 2 ^ 28) then watchEnd c true h else h

theorem exec_watchElement {s : State} {k : BitVec 11} {wd : Word} {last : Bool} (runs : cellRuns s.env s.hub k.toNat = true)
    (sv : serving s.hub = true) (mode : (cell s.hub k.toNat).watch.set.mode ≠ 0) (takes : (cell s.hub k.toNat).watch.ignore = 0) :
    exec (.watchElement k wd last) s = .next (s.settle (
      windowCloses k.toNat (cell s.hub k.toNat).watch.set last (elementIn k.toNat (cell s.hub k.toNat).watch.set wd s.hub.clean))) := by
  have due : (cellRuns s.env s.hub.clean k.toNat && serving s.hub.clean && (cell s.hub.clean k.toNat).watch.set.mode != 0 &&
      decide ((cell s.hub.clean k.toNat).watch.ignore = 0)) = true := by
    simp only [cellRuns_clean, serving_clean, cell_clean, runs, sv, bne_iff_ne.mpr mode, takes, decide_true, Bool.and_self]
  show execWatchElement k wd last s = _
  unfold execWatchElement
  rw [State.run_next]
  exact congrArg (fun h => Host.Outcome.next (s.settle h)) (guard_pos due)

theorem elementIn_watch (c : Nat) (s : WatchSet) (wd : Word) (h : Hub) :
    (cell (elementIn c s wd h) c).watch = { (cell h c).watch with win := watchStep h s wd (cell h c).watch.win } := by
  unfold elementIn
  simp only [cellEvent_same, cell_onCell_self]

theorem windowCloses_open {c : Nat} {s : WatchSet} {h : Hub} (few : (cell h c).watch.win.count < 2 ^ 28)
    (more : s.window ≠ (cell h c).watch.win.count) : windowCloses c s false h = h := by
  unfold windowCloses
  dsimp only
  rw [if_neg (by simp [Ne.symm more]), if_neg (by simp only [Nat.ne_of_lt few, decide_false, Bool.and_false]; decide)]

theorem windowCloses_last (c : Nat) (s : WatchSet) (h : Hub) : windowCloses c s true h = watchEnd c false h := by
  unfold windowCloses
  simp

/-- A result enters the two-entry buffer. -/
theorem watchEnd_kept {c : Nat} {forced : Bool} {h : Hub} (room : (cell h c).watch.results.length < 2) :
    (cell (watchEnd c forced h) c).watch = { (cell h c).watch with
      win := {}, results := (cell h c).watch.results ++ [{ (watchClose (cell h c).watch.set (cell h c).watch.win) with forced := forced }] } := by
  unfold watchEnd
  dsimp only
  rw [if_neg (by omega), cell_onCell_self]

/-- A third result is discarded and counted (R94). -/
theorem watchEnd_lost {c : Nat} {forced : Bool} {h : Hub} (full : 2 ≤ (cell h c).watch.results.length) :
    (cell (watchEnd c forced h) c).watch = { (cell h c).watch with win := {}, lost := (cell h c).watch.lost + 1 } := by
  unfold watchEnd
  dsimp only
  rw [if_pos full]
  simp only [cellEvent_same, cell_onCell_self]

section
variable {s : State} {k : BitVec 11} {wd : Word} {last : Bool} {n : WatchWin} (runs : cellRuns s.env s.hub k.toNat = true)
  (sv : serving s.hub = true) (mode : (cell s.hub k.toNat).watch.set.mode ≠ 0) (takes : (cell s.hub k.toNat).watch.ignore = 0)
  (next : watchStep s.hub (cell s.hub k.toNat).watch.set wd (cell s.hub k.toNat).watch.win = n)
include runs sv mode takes next

/-- The element is in its window, and then the window may close. -/
theorem watchElement_entered : ∃ h, (cell h k.toNat).watch = { (cell s.hub k.toNat).watch with win := n } ∧
    exec (.watchElement k wd last) s = .next (s.settle (windowCloses k.toNat (cell s.hub k.toNat).watch.set last h)) := by
  refine ⟨_, ?_, exec_watchElement runs sv mode takes⟩
  rw [elementIn_watch, ← next]
  rfl

theorem watchElement_open (few : n.count < 2 ^ 28) (goes : last = false) (more : (cell s.hub k.toNat).watch.set.window ≠ n.count) :
    ∃ t, exec (.watchElement k wd last) s = .next t ∧ (cell t.hub k.toNat).watch = { (cell s.hub k.toNat).watch with win := n } := by
  obtain ⟨h, entered, run⟩ := watchElement_entered (last := last) runs sv mode takes next
  rw [goes, windowCloses_open (by rw [entered]; exact few) (by rw [entered]; exact more)] at run
  exact ⟨_, goes ▸ run, entered⟩

theorem watchElement_kept (ends : last = true) (room : (cell s.hub k.toNat).watch.results.length < 2) :
    ∃ t, exec (.watchElement k wd last) s = .next t ∧ (cell t.hub k.toNat).watch = { (cell s.hub k.toNat).watch with
      win := {}, results := (cell s.hub k.toNat).watch.results ++ [{ (watchClose (cell s.hub k.toNat).watch.set n) with forced := false }] } := by
  obtain ⟨h, entered, run⟩ := watchElement_entered (last := last) runs sv mode takes next
  have kept := watchEnd_kept (c := k.toNat) (forced := false) (h := h) (by rw [entered]; exact room)
  rw [entered] at kept
  rw [ends, windowCloses_last] at run
  exact ⟨_, ends ▸ run, kept⟩

theorem watchElement_lost (ends : last = true) (full : 2 ≤ (cell s.hub k.toNat).watch.results.length) :
    ∃ t, exec (.watchElement k wd last) s = .next t ∧ (cell t.hub k.toNat).watch =
      { (cell s.hub k.toNat).watch with win := {}, lost := (cell s.hub k.toNat).watch.lost + 1 } := by
  obtain ⟨h, entered, run⟩ := watchElement_entered (last := last) runs sv mode takes next
  have lost := watchEnd_lost (c := k.toNat) (forced := false) (h := h) (by rw [entered]; exact full)
  rw [entered] at lost
  rw [ends, windowCloses_last] at run
  exact ⟨_, ends ▸ run, lost⟩
end

/-- The oldest result has left a cell with the number discarded before it. -/
def watchDrained (e : Env) (c : Nat) (a : WatchWin) (l : List WatchWin) (h : Hub) : Hub :=
  let n := (cell h c).watch.lost
  let h := onRegion (regionOf c) (fun x => { x with watchq := x.watchq ++ [(c, { a with lost := n })] })
    (onCell c (fun x => { x with watch := { x.watch with results := l, lost := 0 } }) h)
  if n = 0 then h else lossRecord 4 (coreId e h c) 16 n (nowNs h) (nowNs h) h

theorem exec_watchResultDrain {s : State} {k : BitVec 11} {a : WatchWin} {l : List WatchWin} (runs : cellRuns s.env s.hub k.toNat = true)
    (res : (cell s.hub k.toNat).watch.results = a :: l) :
    exec (.watchResultDrain k) s = .next (s.settle (watchDrained s.env k.toNat a l s.hub.clean)) := by
  show execWatchResultDrain k s = _
  unfold execWatchResultDrain
  rw [State.run_next]
  simp only [cell_clean, res]
  exact congrArg (fun h => Host.Outcome.next (s.settle h)) (guard_pos (b := cellRuns s.env s.hub.clean k.toNat) runs)

theorem watchDrained_cell (e : Env) (c : Nat) (a : WatchWin) (l : List WatchWin) (h : Hub) :
    (cell (watchDrained e c a l h) c).watch.results = l ∧ (cell (watchDrained e c a l h) c).watch.lost = 0 := by
  unfold watchDrained
  dsimp only
  split <;> simp

theorem watchDrained_regions {e : Env} {c : Nat} {a : WatchWin} {l : List WatchWin} {h : Hub} {x : Region} (g : h.regions[regionOf c]? = some x) :
    (watchDrained e c a l h).regions =
      setAt h.regions (regionOf c) { x with watchq := x.watchq ++ [(c, { a with lost := (cell h c).watch.lost })] } := by
  unfold watchDrained
  dsimp only
  split <;> simp [region_of g]

/-! The region's clock (R64–R67, R47). -/

/-- After a change of one region the trace unit may write, and give regions changes that wait for their clocks. -/
theorem region_tsel {h k : Hub} {r : Nat} {x : Region} {f : Region → Region} (g : h.regions[r]? = some x) (a : TselOnly (onRegion r f h) k) :
    (∃ w, region k r = { f x with waitCfg := w }) ∧ ∀ q, q ≠ r → ∃ w, region k q = { region h q with waitCfg := w } := by
  obtain ⟨-, regions, -⟩ := a
  refine ⟨?_, fun q n => ?_⟩
  · obtain ⟨w, now⟩ := regions r
    exact ⟨w, by rw [now, region_onRegion _ g]⟩
  · obtain ⟨w, now⟩ := regions q
    exact ⟨w, by rw [now, region_onRegion_ne _ _ n]⟩

/-- What the clock monitor makes of a region at the end of a 1 µs interval with `n` host edges (R65, R79). -/
def monitored (h : Hub) (i : Nat) (n : BitVec 16) (x : Region) : Region := { x with
  stretched := x.stretched + (getAt h.time.mhz i 1600 - n.toNat), stretchPeriod := x.stretchPeriod + (getAt h.time.mhz i 1600 - n.toNat)
  count := n.toNat, edges := x.edges || decide (n ≠ 0)
  lastEdge := if n = 0 ∨ nowNs h < x.lastEdge + 1000 then x.lastEdge else nowNs h - Config.lastEdge i (nowNs h) % 1000 }

theorem exec_clockMonitorInterval {s : State} {r : RegionNo} (n : BitVec 16) (die : s.env.tray = false) (up : upState s.hub = true) :
    ∃ k, exec (.clockMonitorInterval r n) s = .next (s.settle k) ∧
      TselOnly (onRegion r.toNat (monitored s.hub r.toNat n) s.hub.clean) k := by
  have due : (!s.env.tray && upState s.hub.clean) = true := by simp [die, up]
  show ∃ k, execClockMonitorInterval r n s = _ ∧ _
  unfold execClockMonitorInterval
  rw [State.run_next, guard_pos due]
  exact ⟨_, rfl, TselOnly.ite (tsel_putPkt ..) (TselOnly.refl _)⟩

/-- The clock of a region has been found stopped (R66). -/
def stoppedAt (y : Region) : Region := { y with stopped := true, stopTb := y.lastEdge, stopSeen := true }

theorem exec_regionStopDetect {s : State} {r : RegionNo} {x : Region} (die : s.env.tray = false) (up : upState s.hub = true)
    (g : s.hub.regions[r.toNat]? = some x) (clock : x.stopped = false) (late : x.lastEdge + s.hub.time.stopThr ≤ nowNs s.hub)
    (first : s.env.beaten (evEdge r.toNat) (x.lastEdge + s.hub.time.stopThr) (nowNs s.hub) = false) :
    ∃ k, exec (.regionStopDetect r) s = .next (s.settle k) ∧ TselOnly (onRegion r.toNat stoppedAt s.hub.clean) k := by
  have due : (!s.env.tray && upState s.hub.clean && !x.stopped && decide (x.lastEdge + s.hub.clean.time.stopThr ≤ nowNs s.hub.clean) &&
      !s.env.beaten (evEdge r.toNat) (x.lastEdge + s.hub.clean.time.stopThr) (nowNs s.hub.clean)) = true := by
    simp [die, up, clock, late, first]
  show ∃ k, execRegionStopDetect r s = _ ∧ _
  unfold execRegionStopDetect
  rw [State.run_next]
  simp only [region_clean, region_of g]
  rw [guard_pos due]
  exact ⟨_, rfl, TselOnly.ite (TselOnly.foldl (fun k c => tsel_putPkt ..) _ _) (TselOnly.refl _)⟩

/-- The clock of a region has resumed (R64, R67). -/
def resumedAt (now : Nat) (y : Region) : Region := { y with
  stopped := false, resumeTb := now, echoWait := true, lastEdge := now, edges := true, stopSeen := true
  stoppedNs := y.stoppedNs + (now - y.stopTb), waitCfg := [] }

/-- The changes that waited for a clock take effect, each with its TB recorded (R47). -/
def changesApplied (e : Env) (now : Nat) (l : List (Nat × Wait)) (h : Hub) : Hub :=
  l.foldl (fun h w => emitUnit 11 (coreId e h w.1) 16 (w64 now) (applyWait e w.1 w.2 h)) h

theorem changesApplied_regions (e : Env) (now : Nat) (l : List (Nat × Wait)) (h : Hub) : (changesApplied e now l h).regions = h.regions := by
  unfold changesApplied
  induction l generalizing h with
  | nil => rfl
  | cons w t ih =>
    rw [List.foldl_cons, ih]
    simp

/-- A selection that waited is at its cell. -/
theorem changesApplied_sels (e : Env) (now k : Nat) (h : Hub) :
    (cell (changesApplied e now [(k, .sels)] h) k).sels = (Sys2Proof.Machine.hubc h k).sels := by
  unfold changesApplied applyWait
  simp

theorem exitDrowse_awake {h : Hub} (st : h.sys.st ≠ .drowse) : exitDrowse h = h := by
  unfold exitDrowse
  rw [if_pos]
  simp [st]

theorem beginPartial_none {r : Nat} {h : Hub} (noReq : (region h r).partialReq = []) : beginPartial r h = h := by
  unfold beginPartial
  rw [noReq]

/-- What the first edge after a stop does. `x` is the region as the stop left it. -/
def resumption (e : Env) (i : Nat) (x : Region) (h : Hub) : Hub :=
  let h := exitDrowse h
  let now := nowNs h
  let n := lostCycles (now - x.stopTb) (getAt h.time.mhz i 1600)
  let h := onRegion i (resumedAt now) h
  let h := if serving h then (tracedCores h i).foldl (fun h c => putPkt e 5 0 (srcOf 0 c) now (leb 7 n) h) h else h
  let h := changesApplied e now x.waitCfg h
  if (region h i).collect.isEmpty then
    beginPartial i (if x.partialReq.isEmpty then h else emitUnit 11 (ownId e h 2 i) 16 (w64 now) h)
  else h

theorem exec_regionResume {s : State} {r : RegionNo} {x : Region} (die : s.env.tray = false) (up : upState s.hub = true)
    (g : s.hub.regions[r.toNat]? = some x) (clock : x.stopped = true) :
    exec (.regionResume r) s = .next (s.settle (resumption s.env r.toNat x s.hub.clean)) := by
  have due : (!s.env.tray && upState s.hub.clean && x.stopped) = true := by simp [die, clock, up]
  show execRegionResume r s = _
  unfold execRegionResume
  rw [State.run_next]
  simp only [region_clean, region_of g]
  exact congrArg (fun h => Host.Outcome.next (s.settle h)) (guard_pos due)

/-- In PLAYA nothing is traced; with no snapshot asked for, only the region's times and the changes that waited are left. -/
theorem resumption_playa {e : Env} {i : Nat} {x : Region} {h : Hub} (st : h.sys.st = .playa) (g : h.regions[i]? = some x) (noReq : x.partialReq = []) :
    resumption e i x h = changesApplied e (nowNs h) x.waitCfg (onRegion i (resumedAt (nowNs h)) h) := by
  have off : serving (onRegion i (resumedAt (nowNs h)) h) = false := by simp [serving, st]
  have rest : beginPartial i (changesApplied e (nowNs h) x.waitCfg (onRegion i (resumedAt (nowNs h)) h)) =
      changesApplied e (nowNs h) x.waitCfg (onRegion i (resumedAt (nowNs h)) h) :=
    beginPartial_none (by
      rw [region_congr (changesApplied_regions ..), region_onRegion _ g]
      exact noReq)
  unfold resumption
  dsimp only
  rw [exitDrowse_awake (by rw [st]; decide), off, noReq]
  simp [rest]

/-! Snapshots (R96, R44, R43, Table 3.10). -/

theorem exec_snapshotTransfer {s : State} {k : BitVec 11} {x : Region} {l : List Nat} (parityErr sumErr : Bool)
    (runs : cellRuns s.env s.hub k.toNat = true) (g : s.hub.regions[regionOf k.toNat]? = some x) (turn : x.collect = k.toNat :: l) :
    exec (.snapshotTransfer k parityErr sumErr) s = .next (s.settle (turnDone s.env (regionOf k.toNat)
      (if parityErr || sumErr then acceptBad s.env k.toNat s.hub.clean else acceptGood s.env k.toNat s.hub.clean))) := by
  show execSnapshotTransfer k parityErr sumErr s = _
  unfold execSnapshotTransfer
  exact run_guard (by simp [runs, region_of g, turn])

/-- The cell whose turn it is delivers without an error. -/
theorem exec_snapshotTransfer_good {s : State} {k : BitVec 11} {x : Region} {l : List Nat} (runs : cellRuns s.env s.hub k.toNat = true)
    (g : s.hub.regions[regionOf k.toNat]? = some x) (turn : x.collect = k.toNat :: l) :
    exec (.snapshotTransfer k false false) s =
      .next (s.settle (turnDone s.env (regionOf k.toNat) (acceptGood s.env k.toNat s.hub.clean))) :=
  exec_snapshotTransfer false false runs g turn

/-- It delivers with a parity error. -/
theorem exec_snapshotTransfer_bad {s : State} {k : BitVec 11} {x : Region} {l : List Nat} (runs : cellRuns s.env s.hub k.toNat = true)
    (g : s.hub.regions[regionOf k.toNat]? = some x) (turn : x.collect = k.toNat :: l) :
    exec (.snapshotTransfer k true false) s =
      .next (s.settle (turnDone s.env (regionOf k.toNat) (acceptBad s.env k.toNat s.hub.clean))) :=
  exec_snapshotTransfer true false runs g turn

/-- The end of a turn changes nothing of a core's data, whatever of it is read. -/
theorem turnDone_hubc (e : Env) (r c : Nat) (s : State) (h : Hub) :
    Sys2Proof.Machine.hubc (s.settle (turnDone e r h)).hub c = Sys2Proof.Machine.hubc h c :=
  hubc_congr ((turnDone_only e r h).keep .hubc (by decide)) c

/-- After a good snapshot the rest of the collection has its turn. -/
theorem turnDone_good {e : Env} {k : Nat} {x : Region} {l : List Nat} {h : Hub} (g : h.regions[regionOf k]? = some x)
    (head : x.collect = k :: l) (more : l ≠ []) : (region (turnDone e (regionOf k) (acceptGood e k h)) (regionOf k)).collect = l := by
  refine turnDone_collect (k := k) ?_ more ?_
  · rw [acceptGood_collect, region_of g, head]
  · rw [acceptGood_length]
    exact (List.getElem?_eq_some_iff.mp g).1

/-- A bad snapshot leaves the last good one, and the third in a row marks the cell FAILED (Table 3.10). -/
theorem acceptBad_hubc (e : Env) (c : Nat) (h : Hub) :
    (Sys2Proof.Machine.hubc (acceptBad e c h) c).snap = (Sys2Proof.Machine.hubc h c).snap ∧
    (Sys2Proof.Machine.hubc (acceptBad e c h) c).badRun = (Sys2Proof.Machine.hubc h c).badRun + 1 ∧
    ((Sys2Proof.Machine.hubc h c).badRun = 2 → (Sys2Proof.Machine.hubc (acceptBad e c h) c).failed = true) := by
  unfold acceptBad
  dsimp only
  split
  · simp
  · next n => simp; omega

/-- A cell has missed its turn. -/
def turnMissed (e : Env) (c : Nat) (h : Hub) : Hub :=
  let n := (Sys2Proof.Machine.hubc h c).skips + 1
  let h := cellFault e c 2 (onHubc c (fun x => { x with skips := n, noResp := true, goodRun := 0 }) h)
  if n = 3 then cellFault e c 1 (onHubc c (fun x => { x with failed := true }) h) else h

theorem turnMissed_hubc (e : Env) (c : Nat) (h : Hub) :
    (Sys2Proof.Machine.hubc (turnMissed e c h) c).snap = (Sys2Proof.Machine.hubc h c).snap ∧
    (Sys2Proof.Machine.hubc (turnMissed e c h) c).skips = (Sys2Proof.Machine.hubc h c).skips + 1 ∧
    ((Sys2Proof.Machine.hubc h c).skips = 2 → (Sys2Proof.Machine.hubc (turnMissed e c h) c).failed = true) := by
  unfold turnMissed
  dsimp only
  split
  · simp
  · next n => simp; omega

theorem exec_cellTurnTimeout {s : State} {k : BitVec 11} {x : Region} {l : List Nat} (runs : cellRuns s.env s.hub k.toNat = true)
    (g : s.hub.regions[regionOf k.toNat]? = some x) (head : x.collect = k.toNat :: l) (turn : x.turn = 16) :
    exec (.cellTurnTimeout k) s = .next (s.settle (turnDone s.env (regionOf k.toNat) (turnMissed s.env k.toNat s.hub.clean))) := by
  show execCellTurnTimeout k s = _
  unfold execCellTurnTimeout
  exact run_guard (f := fun e h => turnDone e (regionOf k.toNat) (turnMissed e k.toNat h)) (by simp [runs, region_of g, head, turn])

/-! The bits that a region has gathered cross (R100). -/

/-- The cores of the bits enter the quick set, with their features. -/
def flagCores (e : Env) (i : Nat) (l : List Nat) (h : Hub) : Hub :=
  l.foldl (fun h k => sporeFeature e (i * 256 + k) (flagCore (i * 256 + k) h)) h

theorem flagCores_regions (e : Env) (i : Nat) (l : List Nat) (h : Hub) : (flagCores e i l h).regions = h.regions := by
  unfold flagCores
  induction l generalizing h with
  | nil => rfl
  | cons k t ih =>
    rw [List.foldl_cons, ih]
    simp

theorem flagCores_spore {e : Env} {i k : Nat} {l : List Nat} (h : Hub) (m : k ∈ l) :
    (Sys2Proof.Machine.hubc (flagCores e i l h) (i * 256 + k)).spore = true := by
  have here : ∀ (h : Hub) (k : Nat), (Sys2Proof.Machine.hubc (sporeFeature e (i * 256 + k) (flagCore (i * 256 + k) h)) (i * 256 + k)).spore = true := by
    intro h k
    simp [flagCore]
  refine foldl_at (P := fun h k => (Sys2Proof.Machine.hubc h (i * 256 + k)).spore = true) here (fun h c d p => ?_) l h m
  by_cases same : d = c
  · subst same; exact here h d
  · have ne : i * 256 + d ≠ i * 256 + c := by omega
    simp only [sporeFeature_reads, flagCore, hubc_onHubc_ne _ _ ne]
    exact p

theorem exec_pendingFlagTransfer {s : State} {r : RegionNo} {x : Region} (die : s.env.tray = false) (sv : serving s.hub = true)
    (g : s.hub.regions[r.toNat]? = some x) (clock : x.stopped = false) (echo : x.echoWait = false) (bits : x.pending ≠ 0) :
    exec (.pendingFlagTransfer r) s = .next (s.settle (
      flagCores s.env r.toNat ((List.range 256).filter (fun k => x.pending.getLsbD k))
        (onRegion r.toNat (fun x => { x with pending := 0, answered := true }) s.hub.clean))) := by
  have due : (!s.env.tray && serving s.hub.clean && !x.stopped && !x.echoWait && x.pending != 0) = true := by
    simp only [die, serving_clean, sv, clock, echo, bne_iff_ne.mpr bits, Bool.not_false, Bool.and_self]
  show execPendingFlagTransfer r s = _
  unfold execPendingFlagTransfer
  rw [State.run_next]
  simp only [region_clean, region_of g]
  exact congrArg (fun h => Host.Outcome.next (s.settle h)) (guard_pos due)

/-- Changing a region that is there puts the changed region in its place. -/
theorem onRegion_setAt {r : Nat} {x : Region} {h k : Hub} (f : Region → Region) (same : k.regions = h.regions) (g : h.regions[r]? = some x) :
    (onRegion r f k).regions = setAt h.regions r (f x) := by
  rw [onRegion_regions, region_congr same, region_of g, same]

/-- Settles O20: each event reaches the cell, the region or the core's data that its rule names. -/
theorem cellEvents : Obligations.CellEvents := by
  unfold Obligations.CellEvents
  refine ⟨fun s r x die on g => ?_, fun s r x al g owed clock => ?_, fun s k runs held age => ?_,
    fun s k i r t0 runs sv armed g en kind start past => ?_, fun s k wd last w n runs sv hw mode takes next few => ?_,
    fun s k x a l runs g res => ?_, fun s r n x die up g => ?_, fun s r x die up g clock late first => ?_,
    fun s r x k die st g clock noReq wait => ?_, fun s k l x runs g head => ⟨?_, ?_, fun turn => ?_⟩,
    fun s r x die sv g clock echo bits => ?_⟩
  · refine ⟨_, exec_hostRegionReset die on, ?_, fun c here own => clearRegion_cell s.hub.clean (mem_regionCores here own)⟩
    rw [State.settle_hub, Hub.clean_regions]
    exact onRegion_setAt (h := s.hub.clean) _ (clearRegion_regions ..) g
  · refine ⟨_, exec_cellConfigRewrite al g owed clock, ?_, fun c here own => ?_⟩
    · rw [State.settle_hub, Hub.clean_regions]
      exact onRegion_setAt (h := s.hub.clean) _ ((rewriteRegion_only ..).keep .regions (by decide)) g
    · obtain ⟨sels, watch, armed⟩ := rewriteRegion_rewritten s.hub.clean (mem_regionCores here own)
      have copy : Sys2Proof.Machine.hubc (rewriteRegion s.env r.toNat s.hub.clean) c = Sys2Proof.Machine.hubc s.hub c :=
        hubc_congr ((rewriteRegion_only s.env r.toNat s.hub.clean).keep .hubc (by decide)) c
      rw [copy] at sels watch
      exact ⟨sels, watch, armed⟩
  · exact ⟨_, exec_holdGraceExpiry runs held age, rfl⟩
  · exact ⟨_, exec_sporeWindowEval runs sv armed g en kind start past, windowEval_start (h := s.hub.clean) g,
      windowEval_stopped (h := s.hub.clean), windowEval_fires (h := s.hub.clean) g⟩
  · subst hw
    exact ⟨watchElement_open runs sv mode takes next few, watchElement_kept runs sv mode takes next, watchElement_lost runs sv mode takes next⟩
  · obtain ⟨left, zero⟩ := watchDrained_cell s.env k.toNat a l s.hub.clean
    exact ⟨_, exec_watchResultDrain runs res, left, zero, watchDrained_regions (h := s.hub.clean) g⟩
  · obtain ⟨t, run, only⟩ := exec_clockMonitorInterval n die up
    exact ⟨_, run, region_tsel (h := s.hub.clean) g only⟩
  · obtain ⟨t, run, only⟩ := exec_regionStopDetect die up g clock late first
    exact ⟨_, run, region_tsel (h := s.hub.clean) g only⟩
  · refine ⟨_, exec_regionResume die (by simp [upState, st]) g clock, ?_⟩
    rw [resumption_playa (h := s.hub.clean) st g noReq]
    refine ⟨?_, fun sel => ?_⟩
    · rw [State.settle_hub, Hub.clean_regions, changesApplied_regions]
      exact onRegion_setAt (h := s.hub) _ rfl g
    · rw [sel]
      exact changesApplied_sels ..
  · refine ⟨_, exec_snapshotTransfer_good runs g head, ?_, ?_⟩
    · rw [turnDone_hubc]
      exact acceptGood_hubc (h := s.hub.clean)
    · rw [State.settle_hub, region_clean]
      exact turnDone_good (h := s.hub.clean) g head
  · refine ⟨_, exec_snapshotTransfer_bad runs g head, ?_⟩
    rw [turnDone_hubc]
    exact acceptBad_hubc s.env k.toNat s.hub.clean
  · refine ⟨_, exec_cellTurnTimeout runs g head turn, ?_⟩
    rw [turnDone_hubc]
    exact turnMissed_hubc s.env k.toNat s.hub.clean
  · refine ⟨_, exec_pendingFlagTransfer die sv g clock echo bits, ?_,
      fun i lt bit => flagCores_spore _ (List.mem_filter.mpr ⟨List.mem_range.mpr lt, bit⟩)⟩
    rw [State.settle_hub, Hub.clean_regions, flagCores_regions]
    exact onRegion_setAt (h := s.hub) _ rfl g

end Sys2Proof.Machine
end

section
/-!
PROOF. The trace unit's events (O30): words of cells and regions, the trigger input, the ends of blocks and captures, compressors and the trace
port, and a trace packet received.
-/
namespace Sys2Proof.Machine

/-! Words of a cell and of a region (R95, R486). -/

/-- A selected core's word enters its cell's buffer of 64 words, or is lost and counted. -/
def wordArrives (c : Nat) (w : DWord) (h : Hub) : Hub :=
  if (cell h c).trace.buf.length ≥ 64 then
    cellEvent c 37 (onCell c (fun y => { y with trace := { y.trace with lost := y.trace.lost + 1 } }) h)
  else
    cellEvent c 36 (onCell c (fun y => { y with trace := { y.trace with
      buf := y.trace.buf ++ [(w, y.cnt.elapsed, nowNs h, y.trace.lost)], lost := 0 } }) h)

theorem exec_traceWord {s : State} {k : BitVec 11} (w : DWord) (runs : cellRuns s.env s.hub k.toNat = true)
    (sel : (cell s.hub k.toNat).trace.tsel = true) : exec (.traceWord k w) s = .next (s.settle (wordArrives k.toNat w s.hub.clean)) := by
  show execTraceWord k w s = _
  unfold execTraceWord
  exact run_guard (f := fun _ h => wordArrives k.toNat w h) (by simp [runs, sel])

theorem cellEvent_trace (c a n d : Nat) (h : Hub) : (cell (cellEvent c a h n) d).trace = (cell h d).trace := by simp only [cellEvent_same]

theorem wordArrives_enters {c : Nat} {h : Hub} (w : DWord) (room : (cell h c).trace.buf.length < 64) :
    (cell (wordArrives c w h) c).trace = { (cell h c).trace with
      buf := (cell h c).trace.buf ++ [(w, (cell h c).cnt.elapsed, nowNs h, (cell h c).trace.lost)], lost := 0 } := by
  unfold wordArrives
  rw [if_neg (by omega), cellEvent_trace, cell_onCell_self]

theorem wordArrives_lost {c : Nat} {h : Hub} (w : DWord) (full : 64 ≤ (cell h c).trace.buf.length) :
    (cell (wordArrives c w h) c).trace = { (cell h c).trace with lost := (cell h c).trace.lost + 1 } := by
  unfold wordArrives
  rw [if_pos full, cellEvent_trace, cell_onCell_self]

/-- Where no cell of the region holds a word, only the crossing buffer gives some up; the trace unit takes them. -/
theorem exec_regionTraceTransfer {s : State} {r : RegionNo} {x : Region} (die : s.env.tray = false) (w : working s.hub = true)
    (g : s.hub.regions[r.toNat]? = some x) (clock : x.stopped = false) (empty : nextTraced s.hub r.toNat x.traceTurn = none) :
    ∃ k, exec (.regionTraceTransfer r) s = .next (s.settle k) ∧
      TselOnly (onRegion r.toNat (fun x => { x with traceBuf := x.traceBuf.drop 8 }) s.hub.clean) k := by
  have due : (!s.env.tray && working s.hub.clean && !(region s.hub.clean r.toNat).stopped) = true := by simp [die, w, region_of g, clock]
  have same : fillCrossing 32 r.toNat s.hub.clean = s.hub.clean :=
    fillCrossing_none 32 (by rw [region_clean, region_of g]; exact empty)
  show ∃ k, execRegionTraceTransfer r s = _ ∧ _
  unfold execRegionTraceTransfer
  rw [State.run_next, guard_pos due]
  dsimp only
  rw [same]
  exact ⟨_, rfl, TselOnly.foldl (fun h w => (tsel_onTrc _ h).trans (tsel_hostPkt ..)) _ _⟩

/-! The ends of blocks and captures (R504, R506). -/

/-- Blocks go to the compressors in their order (R507). -/
theorem dealBlocks_order (t : Trc) : (dealBlocks t).busy ++ (dealBlocks t).fifo = t.busy ++ t.fifo := by simp [dealBlocks]

/-- A block that ends takes the next BSEQ and its place behind those that wait. -/
theorem endBlock_queues {e : Env} {fin flush : Bool} {h : Hub} (n : h.trc.next = none) (begun : h.trc.cur ≠ []) :
    (endBlock e false fin flush h).trc.cur = [] ∧ (endBlock e false fin flush h).trc.bseq = h.trc.bseq + 1 ∧
    (endBlock e false fin flush h).trc.ready = h.trc.ready ∧
    (endBlock e false fin flush h).trc.busy ++ (endBlock e false fin flush h).trc.fifo = h.trc.busy ++ h.trc.fifo ++
      [{ bseq := h.trc.bseq, data := h.trc.cur, trig := h.trc.curTrig, fin := fin, flush := flush }] := by
  rw [endBlock_ends n begun]
  exact ⟨rfl, rfl, rfl, (dealBlocks_order _).trans (List.append_assoc ..).symm⟩

theorem exec_traceBlockEnd {s : State} (a : alive s.hub = true) (full : 65536 < s.hub.trc.cur.length + 4) :
    exec .traceBlockEnd s = .next (s.settle (endBlock s.env false false false s.hub.clean)) := by
  show execTraceBlockEnd s = _
  unfold execTraceBlockEnd
  exact run_guard (by simp [a, full])

theorem exec_traceFlushInterval {s : State} (a : alive s.hub = true) (begun : s.hub.trc.cur ≠ []) (on : s.hub.trc.set.flush ≠ 0)
    (past : s.hub.trc.curTb + s.hub.trc.set.flush ≤ nowNs s.hub) :
    exec .traceFlushInterval s = .next (s.settle (endBlock s.env false false true s.hub.clean)) := by
  show execTraceFlushInterval s = _
  unfold execTraceFlushInterval
  exact run_guard (by simp [a, begun, on, past])

/-- The count that the setting asks for ends a post-trigger run. -/
theorem postDue_count {t : Trc} (run : t.posting = true) (past : t.set.post ≤ t.posted) : postDue t = some 0 := by
  unfold postDue
  rw [run, if_neg (by decide), if_pos past]

theorem exec_postTriggerEnd {s : State} (a : alive s.hub = true) (run : s.hub.trc.posting = true) (past : s.hub.trc.set.post ≤ s.hub.trc.posted) :
    exec .postTriggerEnd s = .next (s.settle (endPost s.env 0 s.hub.clean)) := by
  show execPostTriggerEnd s = _
  unfold execPostTriggerEnd
  rw [State.run_next, Hub.clean_trc, postDue_count run past]
  exact congrArg (fun h => Host.Outcome.next (s.settle h)) (guard_pos a)

/-- The end of a post-trigger run is no trigger. -/
theorem endPost_trigOut (e : Env) (cause : Nat) (h : Hub) : (endPost e cause h).trc.trigOut = h.trc.trigOut :=
  congrArg (fun p => p.2.1) (endPost_trig e cause h).1

/-! Compressors and the trace port (R501, R507). -/

theorem exec_compressDone {s : State} (a : alive s.hub = true) : exec .compressDone s = .next (s.settle (compressOne s.hub.clean)) := by
  show execCompressDone s = _
  unfold execCompressDone
  exact run_guard a

theorem exec_sinkBlockWrite {s : State} (a : alive s.hub = true) : exec .sinkBlockWrite s = .next (s.settle (sinkOne s.hub.clean)) := by
  show execSinkBlockWrite s = _
  unfold execSinkBlockWrite
  exact run_guard a

theorem exec_tracePortFrame {s : State} (a : alive s.hub = true) : exec .tracePortFrame s = .next (s.settle (portFrame s.env s.hub.clean)) := by
  show execTracePortFrame s = _
  unfold execTracePortFrame
  exact run_guard a

/-- While TRC_RDY is high a frame takes the oldest 2,048 bytes of the stream, or all that wait. -/
theorem portFrame_sends {e : Env} {h : Hub} (rdy : h.trc.rdy = true) (wait : h.trc.portq ≠ []) :
    (portFrame e h).trc.portq = h.trc.portq.drop 2048 ∧ (portFrame e h).trc.frames = h.trc.frames + 1 ∧
    (portFrame e h).trc.fseq = h.trc.fseq + 1 ∧ (portFrame e h).trc.lastFrame = frameBytes (nodeNo e h) h.trc.fseq (h.trc.portq.take 2048) := by
  unfold portFrame
  rw [if_neg (by simp [rdy, wait])]
  exact ⟨rfl, rfl, rfl, rfl⟩

/-! A trace packet received (R376, R499). -/

theorem exec_photenTraceReceive {s : State} {p : List Byte} {port : BitVec 6} (ok : photenOk s.env s.hub 3 p port.toNat = true) :
    ∃ k, exec (.photenTraceReceive p port) s = .next (s.settle k) ∧ k.fab.accepted = s.hub.fab.accepted + 1 ∧ k.trc = s.hub.trc := by
  obtain ⟨r, taken⟩ := photenRx_ok (e := s.env) (h := s.hub.clean) (fun _ h => h) ok
  exact ⟨_, congrArg (fun h => Host.Outcome.next (s.settle h)) taken, rfl, rfl⟩

/-- Settles O30: each event does to the trace unit what its rule says. -/
theorem traceEvents : Obligations.TraceEvents := by
  unfold Obligations.TraceEvents
  refine ⟨fun s k w runs sel => ⟨fun room => ?_, fun full => ?_⟩, fun s r x die w g clock empty => ?_,
    fun s up on quiet => ⟨fun armed post open_ => ?_, fun unable => ?_⟩, fun s a n => ⟨fun full => ?_, fun begun flush past => ?_⟩,
    fun s a run past => ?_, fun s b l a busy => ?_, fun s b l a ready port => ⟨fun rdy => ?_, fun low => ?_⟩, fun s a rdy wait => ?_,
    fun s p port ok => ?_⟩
  · exact ⟨_, exec_traceWord w runs sel, wordArrives_enters (h := s.hub.clean) w room⟩
  · exact ⟨_, exec_traceWord w runs sel, wordArrives_lost (h := s.hub.clean) w full⟩
  · obtain ⟨k, run, only⟩ := exec_regionTraceTransfer die w g clock empty
    exact ⟨_, run, (region_tsel (h := s.hub.clean) g only).1⟩
  · exact ⟨_, rfl, congrArg Hub.trc (trigger_waits (h := s.hub.clean) up quiet on (by decide) armed post open_)⟩
  · exact ⟨_, rfl, (trigger_ignored (h := s.hub.clean) up quiet (.inr on) unable).2⟩
  · have begun : s.hub.trc.cur ≠ [] := by
      intro empty
      rw [empty] at full
      exact absurd full (by decide)
    exact ⟨_, exec_traceBlockEnd a full, endBlock_queues (h := s.hub.clean) n begun⟩
  · obtain ⟨cur, bseq, -, order⟩ := endBlock_queues (e := s.env) (fin := false) (flush := true) (h := s.hub.clean) n begun
    exact ⟨_, exec_traceFlushInterval a begun flush past, cur, bseq, order⟩
  · obtain ⟨-, capturing, posting⟩ := endPost_trig s.env 0 s.hub.clean
    exact ⟨_, exec_postTriggerEnd a run past, capturing, posting, endPost_trigOut ..⟩
  · exact ⟨_, exec_compressDone a, compressOne_nid (h := s.hub.clean) busy⟩
  · exact ⟨_, exec_sinkBlockWrite a, congrArg Hub.trc ((sinkOne_port (h := s.hub.clean) ready port).1 rdy)⟩
  · exact ⟨_, exec_sinkBlockWrite a, congrArg Hub.trc ((sinkOne_port (h := s.hub.clean) ready port).2 low)⟩
  · exact ⟨_, exec_tracePortFrame a, portFrame_sends (h := s.hub.clean) rdy wait⟩
  · obtain ⟨k, run, accepted, trc⟩ := exec_photenTraceReceive ok
    exact ⟨_, run, accepted, trc⟩

end Sys2Proof.Machine
end

section
/-!
PROOF. The residue verifier's commands and its lane (O21): what RES_CFG, AUDIT_RATE and AUDIT_READ change, what each beat makes of the lane, and
how its outcomes are queued, presented and drawn.
-/
namespace Sys2Proof.Machine

/-! The commands (R150, R155, R157). -/

/-- RES_CFG's records are read under the scope of word 1, for the die as it stands (Table 4.12). -/
theorem resSettings_consumed (c : Cmd) (s : State) : resSettings (consumed c s) (ctxOf c s) =
    (ctxOf c s).settings 2 (if kindOf (c.w 1) = 3 then resDieSetting else resCoreSetting) { die := s.hub.res } := by
  unfold resSettings
  simp only [consumed_keeps]
  rfl

section
variable {c : Cmd} {s : State} {k : Nat} {a : ResSet}

/-- RES_CFG of a core sends the settings there (R157). -/
theorem opResCfg_core (core : kindOf (c.w 1) = 0) (here : presentCore s.env s.hub (c.w 1) = some k)
    (set : (ctxOf c s).settings 2 resCoreSetting { die := s.hub.res } = .inr a) :
    opResCfg.act s.env (consumed c s) (ctxOf c s) = okCross (consumed c s) [] (sendRes s.env a k (consumed c s)) := by
  have settings : resSettings (consumed c s) (ctxOf c s) = .inr a := by
    rw [resSettings_consumed, core, if_neg (by decide), set]
  unfold opResCfg
  dsimp only
  rw [ctxOf_w, core, if_neg (by decide), settings, onCore_present _ here]
  rfl

/-- RES_CFG of the die, with settings of the die alone, puts them in force (R157). -/
theorem opResCfg_die (die : kindOf (c.w 1) = 3) (own : c.w 1 = dieEnt s.env s.hub)
    (set : (ctxOf c s).settings 2 resDieSetting { die := s.hub.res } = .inr a) (alone : a.cores = false) :
    opResCfg.act s.env (consumed c s) (ctxOf c s) = okCross (consumed c s) [] { consumed c s with res := a.die } := by
  have settings : resSettings (consumed c s) (ctxOf c s) = .inr a := by
    rw [resSettings_consumed, die, if_pos rfl, set]
  unfold opResCfg
  dsimp only
  rw [ctxOf_w, die, if_pos rfl, dieEnt_consumed, if_neg (by simpa using own), settings]
  simp [setOr, alone]

/-- Core-scoped settings reach a core whose region's clock runs (R47). -/
theorem sendRes_runs {h : Hub} (e : Env) (a : ResSet) (run : (region h (regionOf k)).stopped = false) :
    sendRes e a k h = resToCore a.bounded a.required a.uacc k h := by
  unfold sendRes
  rw [sendCell_runs run]
  rfl

/-- They wait for the clock of a stopped one (R47). -/
theorem sendRes_waits {h : Hub} (e : Env) (a : ResSet) (stop : (region h (regionOf k)).stopped = true) :
    sendRes e a k h = onRegion (regionOf k) (fun y => { y with waitCfg := y.waitCfg ++ [(k, .res a.bounded a.required a.uacc)] }) h := by
  unfold sendRes
  rw [sendCell_waits stop]

/-- What waits for a stopped clock of the die's eight regions is seen in the answer (R47). -/
theorem okCross_sendRes {h : Hub} {x : Region} (e : Env) (a : ResSet) (g : h.regions[regionOf k]? = some x) (stop : x.stopped = true)
    (lt : regionOf k < 8) : okCross h [] (sendRes e a k h) = .done stAccepted 0 [] (sendRes e a k h) := by
  refine okCross_wait lt ?_
  rw [sendRes_waits e a (by rw [region_of g, stop]), region_onRegion _ g, region_of g]
  simp

/-- AUDIT_RATE's change: the commanded exponent of a core (R155). -/
theorem opAuditRate_act (here : presentCore s.env s.hub (c.w 1) = some k) :
    opAuditRate.act s.env (consumed c s) (ctxOf c s) =
      ok [] (onEnt (c.w 1) (fun x => { x with lastCmd := some (nowNs s.hub), rateTb := some (nowNs s.hub) })
        (onHubc k (fun x => { x with exponent := some (c.n 2), newVerdict := false }) (consumed c s))) := by
  refine (onCore_present _ here).trans ?_
  simp only [ctxOf_w, ctxOf_n, nowNs_consumed]

/-- AUDIT_READ's answer: the core's exponent and its source, whether verification is required of it, and its counts (R150). -/
theorem opAuditRead_act (here : presentCore s.env s.hub (c.w 1) = some k) :
    opAuditRead.act s.env (consumed c s) (ctxOf c s) = ok (auditReadWords s.env s.hub k) (consumed c s) := by
  refine (onCore_present _ here).trans ?_
  simp only [auditReadWords, coreId_consumed, auditExp_consumed, hubc_consumed]

end

/-! The beats reach the lane (R126, R640). -/

section
variable {s : State} {k : BitVec 11} (d : BitVec 128) (ptake : Bool) (on : laneRuns s.env s.hub k.toNat = true)
include on

/-- An event of a lane takes place while the lane and the clock of its region run (Table 1.10). -/
theorem lane_run (f : Env → Hub → Hub) : s.run (fun e h => guard (laneRuns e h k.toNat) (f e) h) = .next (s.settle (f s.env s.hub.clean)) :=
  run_guard (b := fun e h => laneRuns e h k.toNat) on

theorem exec_tapStart : exec (.tapStart k d ptake) s = .next (s.settle (lanStart s.env k.toNat d ptake s.hub.clean)) := by
  show execTapStart k d ptake s = _
  exact lane_run on (fun e => lanStart e k.toNat d ptake)

theorem exec_tapSkip : exec (.tapSkip k d ptake) s = .next (s.settle (lanSkip s.env k.toNat d ptake s.hub.clean)) := by
  show execTapSkip k d ptake s = _
  exact lane_run on (fun e => lanSkip e k.toNat d ptake)

theorem exec_tapPair : exec (.tapPair k d ptake) s = .next (s.settle (lanPair s.env k.toNat d ptake s.hub.clean)) := by
  show execTapPair k d ptake s = _
  exact lane_run on (fun e => lanPair e k.toNat d ptake)

theorem exec_tapEnd : exec (.tapEnd k d ptake) s = .next (s.settle (lanEnd s.env k.toNat d ptake s.hub.clean)) := by
  show execTapEnd k d ptake s = _
  exact lane_run on (fun e => lanEnd e k.toNat d ptake)

end

/-! New tiles: START and SKIP beats (R126, R133). -/

/-- The word that a beat takes is the one at the FIFO head (R119, R123). -/
theorem headWord_front {h : Hub} {c : Nat} {w : PointWord} {f : List PointWord} (front : (cell h c).lane.fifo = w :: f) :
    headWord h c = fixWord h w := by
  unfold headWord
  rw [front]
  rfl

/-- A beat without TAP_PTAKE takes no word, the first violation (R640). -/
theorem newTileCheck_untaken (h : Hub) (c : Nat) (d : BitVec 128) (skip : Bool) : newTileCheck h c d false skip = 1 := rfl

/-- With no tile open none is short, and the lane stays as it is. -/
theorem closeShort_lane {e : Env} {c : Nat} {h : Hub} (none_ : (cell h c).lane.tiles = []) :
    (cell (closeShort e c h) c).lane = (cell h c).lane := by
  rw [closeShort_nil none_, onLane_lane, ← none_]

theorem closeShort_regions {e : Env} {c : Nat} {h : Hub} (none_ : (cell h c).lane.tiles = []) : (closeShort e c h).regions = h.regions := by
  rw [closeShort_nil none_]
  rfl

section
variable {e : Env} {c : Nat} {d : BitVec 128} {h : Hub} {w : PointWord} {f : List PointWord} (front : (cell h c).lane.fifo = w :: f)
  (none_ : (cell h c).lane.tiles = [])
include front none_

/-- A legal START opens a tile with the word at the FIFO head (R126). -/
theorem lanStart_opens (legal : newTileCheck h c d true false = 0) : (cell (lanStart e c d true h) c).lane = { (cell h c).lane with
      fifo := f, pseq := (cell h c).lane.pseq + 1, tiles := [beatTile h c d (fixWord h w)] } ∧ (lanStart e c d true h).res = h.res := by
  have taken := takeWord_lane front
  have stillNone : (cell (takeWord c h) c).lane.tiles = [] := by rw [taken]; exact none_
  have closed : (cell (closeShort e c (takeWord c h)) c).lane = { (cell h c).lane with fifo := f, pseq := (cell h c).lane.pseq + 1 } :=
    (closeShort_lane stillNone).trans taken
  have opens : lanStart e c d true h =
      onLane c (fun l => { l with tiles := l.tiles ++ [beatTile h c d (fixWord h w)] }) (closeShort e c (takeWord c h)) := by
    unfold lanStart
    simp [legal, headWord_front front, closed, none_]
  rw [opens, onLane_lane, closed, none_]
  exact ⟨rfl, by simp⟩

/-- A legal SKIP takes the word and counts a tile that is not verified (R133). -/
theorem lanSkip_counts (legal : newTileCheck h c d true true = 0) : (cell (lanSkip e c d true h) c).lane = { (cell h c).lane with
      fifo := f, pseq := (cell h c).lane.pseq + 1 } ∧ (lanSkip e c d true h).res = { h.res with tileSkip := h.res.tileSkip + 1 } := by
  have taken := takeWord_lane front
  have skips : lanSkip e c d true h = closeShort e c (countCore c 1 { (takeWord c h) with
      res := { (takeWord c h).res with tileSkip := (takeWord c h).res.tileSkip + 1 } }) := by
    unfold lanSkip
    simp [legal]
  have counted : (cell (countCore c 1 { (takeWord c h) with
      res := { (takeWord c h).res with tileSkip := (takeWord c h).res.tileSkip + 1 } }) c).lane = (cell (takeWord c h) c).lane := by
    rw [(countCore_reads ..).1]
    rfl
  have stillNone := (congrArg Lane.tiles (counted.trans taken)).trans none_
  rw [skips, closeShort_lane stillNone, counted, taken]
  exact ⟨rfl, by simp⟩

end

/-! Protocol outcomes (R128). -/

/-- The outcome of a tile is due on TAP_RV; the lane is else as it was. -/
theorem tapProto_lane (e : Env) (c sub : Nat) (t : Tile) (h : Hub) : (cell (tapProto e c sub (some t) h) c).lane =
    { (cell h c).lane with due := (cell h c).lane.due ++ [{ due := (cell h c).lane.cycle + 6, res := 3, rtag := t.tag }] } := by
  unfold tapProto
  simp

/-- It joins the region's queue with its sub-code. -/
theorem tapProto_queues {e : Env} {c sub : Nat} {t : Tile} {h : Hub} {x : Region} (g : h.regions[regionOf c]? = some x) (room : x.outq.length < 64) :
    ∃ y o, (tapProto e c sub (some t) h).regions[regionOf c]? = some y ∧ y.outq = x.outq ++ [o] ∧ o.core = c ∧ o.res = 3 ∧ o.sub = sub := by
  unfold tapProto
  exact postOut_shows (o := { (mkOut e c (presentIn6 c 3 t.tag (cellEvent c 35 h))) with res := 3, sub := sub, tile := some t })
    (by simpa [mkOut] using g) room (P := fun o => o.core = c ∧ o.res = 3 ∧ o.sub = sub) ⟨rfl, rfl, rfl⟩

/-- A START without TAP_PTAKE opens no tile and is such an outcome. -/
theorem lanStart_untaken {e : Env} {c : Nat} {d : BitVec 128} {h : Hub} {x : Region} (none_ : (cell h c).lane.tiles = [])
    (g : h.regions[regionOf c]? = some x) (room : x.outq.length < 64) :
    (cell (lanStart e c d false h) c).lane.tiles = [] ∧
      ∃ y o, (lanStart e c d false h).regions[regionOf c]? = some y ∧ y.outq = x.outq ++ [o] ∧ o.core = c ∧ o.res = 3 ∧ o.sub = 1 := by
  have refused : lanStart e c d false h = closeShort e c (tapProto e c 1 (some (beatTile h c d (headWord h c))) h) := by
    unfold lanStart
    simp [newTileCheck_untaken]
  have stillNone : (cell (tapProto e c 1 (some (beatTile h c d (headWord h c))) h) c).lane.tiles = [] := by
    rw [tapProto_lane]
    exact none_
  rw [refused, closeShort_lane stillNone, closeShort_regions stillNone]
  exact ⟨stillNone, tapProto_queues g room⟩

/-! PAIR beats (R114, R126). -/

/-- The beat goes to the open tile that wants pairs. -/
theorem lanPair_lane {e : Env} {c : Nat} {d : BitVec 128} {h : Hub} {u : Tile} (one : (cell h c).lane.tiles = [u]) (more : u.pairs < u.k) :
    (cell (lanPair e c d false h) c).lane = { (cell h c).lane with tiles := [u.pair d] } := by
  have pairs : lanPair e c d false h = onLane c (fun l => { l with tiles := setNewest (u.pair d) l.tiles }) h := by
    unfold lanPair
    simp [one, Nat.not_le.mpr more]
  rw [pairs, onLane_lane, one]
  rfl

/-- A tile in exact mode adds the product of the beat's elements to its lane sum. -/
theorem pair_exact {u : Tile} (d : BitVec 128) (exact_ : u.bounded = false) : (u.pair d).pairs = u.pairs + 1 ∧
    (u.pair d).sum = fAdd u.sum (fMul (fld (beatBits d 121 61)) (fld (beatBits d 60 0))) := by
  unfold Tile.pair
  rw [exact_]
  exact ⟨rfl, rfl⟩

/-! END beats (R127). -/

/-- The value that an END beat carries. -/
theorem endValue_toNat (d : BitVec 128) : (BitVec.ofNat 64 (beatBits d 63 0)).toNat = beatBits d 63 0 := by
  rw [BitVec.toNat_ofNat]
  exact Nat.mod_eq_of_lt (Nat.mod_lt _ (by decide))

/-- The hub once the oldest tile has left the lane. -/
def oldestClosed (c : Nat) (h : Hub) : Hub := onLane c (fun l => { l with tiles := l.tiles.drop 1 }) h

theorem oldestClosed_lane {c : Nat} {h : Hub} {u : Tile} (one : (cell h c).lane.tiles = [u]) :
    (cell (oldestClosed c h) c).lane = { (cell h c).lane with tiles := [] } := by
  unfold oldestClosed
  rw [onLane_lane, one]
  rfl

/-- An END beat that names the one open tile ends it (R640). -/
theorem lanEnd_oldest {e : Env} {c : Nat} {d : BitVec 128} {h : Hub} {u : Tile} (one : (cell h c).lane.tiles = [u])
    (tag : beatBits d 79 64 = u.tag.toNat) : lanEnd e c d false h = endOldest e c u d h := by
  have named : BitVec.ofNat 16 (beatBits d 79 64) = u.tag := by rw [tag, BitVec.ofNat_toNat, BitVec.setWidth_eq]
  unfold lanEnd
  simp [one, named]

/-- A well-formed END of a complete tile that is not audited has the tile compared (R127). -/
theorem endOldest_compares {e : Env} {c : Nat} {d : BitVec 128} {h : Hub} {u : Tile} (plain : u.word.audit = false) (full : u.k ≤ u.pairs)
    (rsvd : beatBits d 122 80 = 0) (status : beatBits d 127 126 = 0) (high : beatBits d 63 61 = 0) (tag : beatBits d 79 64 = u.tag.toNat) :
    endOldest e c u d h = (endNormal e c u (BitVec.ofNat 64 (beatBits d 63 0)) (oldestClosed c h)).1 := by
  unfold endOldest askAudit
  simp only [plain, rsvd, status, high, tag]
  rw [if_neg (by simp), if_neg (by simp), if_neg (by omega), if_neg (by decide), if_neg (by decide), if_neg (by decide)]
  rfl

/-- The hub once a tile's end is counted at the die and its core, its result due on TAP_RV, and the event given (R127, R150). -/
def tileEnded (c event : Nat) (res : BitVec 2) (u : Tile) (h : Hub) : Hub :=
  cellEvent c event (presentIn6 c res u.tag (countCore c 0 { h with res := { h.res with tiles := h.res.tiles + 1 } }))

theorem tileEnded_lane (c event : Nat) (res : BitVec 2) (u : Tile) (h : Hub) : (cell (tileEnded c event res u h) c).lane =
    { (cell h c).lane with due := (cell h c).lane.due ++ [{ due := (cell h c).lane.cycle + 6, res := res, rtag := u.tag }] } := by
  have counted : cell (countCore c 0 { h with res := { h.res with tiles := h.res.tiles + 1 } }) c = cell h c := (countCore_reads ..).1 c
  unfold tileEnded
  simp only [cellEvent_same, presentIn6_lane, counted]

theorem tileEnded_keeps (c event : Nat) (res : BitVec 2) (u : Tile) (h : Hub) : (tileEnded c event res u h).regions = h.regions ∧
    (tileEnded c event res u h).res = { h.res with tiles := h.res.tiles + 1 } := by
  unfold tileEnded
  simp

/-- The outcome of a mismatch, as it is queued (R127). -/
def mismatchOut (e : Env) (c : Nat) (u : Tile) (v : DWord) (h : Hub) : TapOut := { mkOut e c h with res := 1, tile := some u, vsent := v }

section
variable {e : Env} {c : Nat} {v : DWord} {h : Hub} {u : Tile} (exact_ : u.bounded = false)
include exact_

/-- A value that agrees with the lane sum passes (R127). -/
theorem endNormal_passes (agrees : fld v.toNat = u.sum) : (endNormal e c u v h).1 = tileEnded c 32 0 u h := by
  have pass (b : Nat) : tilePass u b v.toNat = true := by simp [tilePass, exact_, agrees]
  unfold endNormal
  rw [if_pos (pass _)]
  rfl

/-- Another is a mismatch, which is queued with its tile (R127). -/
theorem endNormal_mismatches (differs : fld v.toNat ≠ u.sum) :
    (endNormal e c u v h).1 = postOut (mismatchOut e c u v (tileEnded c 33 1 u h)) (tileEnded c 33 1 u h) := by
  have fail (b : Nat) : tilePass u b v.toNat = false := by simp [tilePass, exact_, differs]
  unfold endNormal
  rw [if_neg (by rw [fail]; decide)]
  rfl

end

/-- An entry of a region's queue changes no cell. -/
theorem postOut_cell (o : TapOut) (h : Hub) (c : Nat) : cell (postOut o h) c = cell h c := cell_congr ((postOut_only ..).keep .cells (by decide)) c

/-- A mismatch leaves of the lane what its end does, and is at the end of its region's queue. -/
theorem postOut_mismatch {e : Env} {c : Nat} {v : DWord} {h : Hub} {u : Tile} {x : Region} (g : h.regions[regionOf c]? = some x)
    (room : x.outq.length < 64) : ∃ y o, (postOut (mismatchOut e c u v h) h).regions[regionOf c]? = some y ∧ y.outq = x.outq ++ [o] ∧
      o.core = c ∧ o.res = 1 ∧ o.tile = some u :=
  postOut_shows (o := mismatchOut e c u v h) g room (P := fun o => o.core = c ∧ o.res = 1 ∧ o.tile = some u) ⟨rfl, rfl, rfl⟩

section
variable {e : Env} {c : Nat} {d : BitVec 128} {h : Hub} {u : Tile} (one : (cell h c).lane.tiles = [u]) (exact_ : u.bounded = false)
  (plain : u.word.audit = false) (full : u.k ≤ u.pairs) (rsvd : beatBits d 122 80 = 0) (status : beatBits d 127 126 = 0)
  (high : beatBits d 63 61 = 0) (tag : beatBits d 79 64 = u.tag.toNat)
include one exact_ plain full rsvd status high tag

/-- The one open tile ends as verified: its result is due in six cycles, and the die counts it (R127). -/
theorem lanEnd_passes (agrees : fld (beatBits d 63 0) = u.sum) : (cell (lanEnd e c d false h) c).lane = { (cell h c).lane with
      tiles := [], due := (cell h c).lane.due ++ [{ due := (cell h c).lane.cycle + 6, res := 0, rtag := u.tag }] } ∧
    (lanEnd e c d false h).regions = h.regions ∧ (lanEnd e c d false h).res = { h.res with tiles := h.res.tiles + 1 } := by
  have ends : lanEnd e c d false h = tileEnded c 32 0 u (oldestClosed c h) := by
    rw [lanEnd_oldest one tag, endOldest_compares plain full rsvd status high tag]
    exact endNormal_passes exact_ (by rw [endValue_toNat]; exact agrees)
  rw [ends, tileEnded_lane, oldestClosed_lane one]
  exact ⟨rfl, tileEnded_keeps ..⟩

/-- It ends as a mismatch: its result is due, and its outcome in the region's queue (R127). -/
theorem lanEnd_mismatches {x : Region} (differs : fld (beatBits d 63 0) ≠ u.sum) (g : h.regions[regionOf c]? = some x)
    (room : x.outq.length < 64) : (cell (lanEnd e c d false h) c).lane = { (cell h c).lane with
      tiles := [], due := (cell h c).lane.due ++ [{ due := (cell h c).lane.cycle + 6, res := 1, rtag := u.tag }] } ∧
    ∃ y o, (lanEnd e c d false h).regions[regionOf c]? = some y ∧ y.outq = x.outq ++ [o] ∧ o.core = c ∧ o.res = 1 ∧ o.tile = some u := by
  have ends : lanEnd e c d false h = postOut (mismatchOut e c u (BitVec.ofNat 64 (beatBits d 63 0)) (tileEnded c 33 1 u (oldestClosed c h)))
      (tileEnded c 33 1 u (oldestClosed c h)) := by
    rw [lanEnd_oldest one tag, endOldest_compares plain full rsvd status high tag]
    exact endNormal_mismatches exact_ (by rw [endValue_toNat]; exact differs)
  rw [ends, postOut_cell, tileEnded_lane, oldestClosed_lane one]
  exact ⟨rfl, postOut_mismatch (by rw [(tileEnded_keeps ..).1]; exact g) room⟩

end

/-! Presentation and timeouts (R127, R129). -/

/-- The oldest outcome that is due is presented once no earlier one holds TAP_RV (R127). -/
theorem exec_tapOutcomePresent {s : State} {k : BitVec 11} {o : TapDue} {q : List TapDue} (on : laneRuns s.env s.hub k.toNat = true)
    (front : (cell s.hub k.toNat).lane.due = o :: q) (free : (cell s.hub k.toNat).lane.rv = false)
    (past : o.due ≤ (cell s.hub k.toNat).lane.cycle) :
    exec (.tapOutcomePresent k) s = .next (s.settle (
      onLane k.toNat (fun l => { l with due := q, rv := true, res := o.res, rtag := o.rtag }) s.hub.clean)) := by
  show execTapOutcomePresent k s = _
  unfold execTapOutcomePresent
  rw [State.run_next]
  simp only [cell_clean, front]
  exact congrArg (fun h => Host.Outcome.next (s.settle h)) (guard_pos (by simp [on, free, past]))

/-- The one open tile, once its deadline has passed, is closed by its timeout (R129). -/
theorem exec_tapTimeout {s : State} {k : BitVec 11} {u : Tile} (on : laneRuns s.env s.hub k.toNat = true)
    (one : (cell s.hub k.toNat).lane.tiles = [u]) (past : tileExpired s.hub k.toNat u = true)
    (first : s.env.beaten (evTapEnd k.toNat) (tileDue s.hub k.toNat u) (nowNs s.hub) = false) :
    exec (.tapTimeout k) s = .next (s.settle (timeOutTile s.env k.toNat u s.hub.clean)) := by
  have found : (cell s.hub.clean k.toNat).lane.tiles.find? (fun t => tileExpired s.hub.clean k.toNat t) = some u := by
    rw [cell_clean, one]
    exact List.find?_cons_of_pos past
  have due : (laneRuns s.env s.hub.clean k.toNat && !s.env.beaten (evTapEnd k.toNat) (tileDue s.hub.clean k.toNat u) (nowNs s.hub.clean)) = true := by
    rw [laneRuns_clean, on]
    exact congrArg not first
  show execTapTimeout k s = _
  unfold execTapTimeout
  rw [State.run_next]
  dsimp only
  rw [found]
  exact congrArg (fun h => Host.Outcome.next (s.settle h)) (guard_pos due)

/-- It leaves no tile open, and RES_TAP_TIMEOUT is queued with it. -/
theorem timeOutTile_closes {e : Env} {c : Nat} {h : Hub} {u : Tile} {x : Region} (one : (cell h c).lane.tiles = [u])
    (g : h.regions[regionOf c]? = some x) (room : x.outq.length < 64) :
    (cell (timeOutTile e c u h) c).lane.tiles = [] ∧
      ∃ y o, (timeOutTile e c u h).regions[regionOf c]? = some y ∧ y.outq = x.outq ++ [o] ∧ o.core = c ∧ o.res = 2 ∧ o.tile = some u := by
  unfold timeOutTile
  dsimp only
  refine ⟨?_, postOut_shows (P := fun o => o.core = c ∧ o.res = 2 ∧ o.tile = some u) (by simpa [mkOut] using g) room ⟨rfl, rfl, rfl⟩⟩
  simp [one]

/-! Refills (R118, R119, R121). -/

theorem exec_pointFifoRefill {s : State} {k : BitVec 11} {i : Nat} (on : laneRuns s.env s.hub k.toNat = true)
    (inst : servingInstance s.hub = some i) (wants : (cell s.hub k.toNat).lane.wants = true) :
    exec (.pointFifoRefill k) s = .next (s.settle (
      onLane k.toNat (fun l => { l with filling := decide (l.fifo.length < 8) }) (assignWord s.env k.toNat s.hub.clean))) := by
  have inst' : servingInstance s.hub.clean = some i := inst
  show execPointFifoRefill k s = _
  unfold execPointFifoRefill
  exact run_guard (b := fun e h => laneRuns e h k.toNat && (servingInstance h).isSome && (cell h k.toNat).lane.wants)
    (by simp [on, inst', wants])

/-- A first draw that satisfies the test is the one used. -/
theorem drawUntil_first {ok : BitVec 128 → Bool} {free n : Nat} {b : BitVec 128} (drawn_ : Config.drbg free = b) (good : ok b = true) :
    drawUntil ok free (n + 1) 0 = (some b, 1) := by
  unfold drawUntil
  rw [Nat.add_zero, drawn_, if_pos good]

/-- No block is taken of the generator where none is needed. -/
theorem takeBlocks_zero (h : Hub) : takeBlocks 0 h = h := rfl

/-- Where a selector is left none is drawn. -/
theorem needSelectors_left {h : Hub} {sel : BitVec 20} {q : List (BitVec 20)} (left : h.res.selectors = sel :: q) : needSelectors h = h := by
  unfold needSelectors
  rw [left]
  rfl

/-- The point word that a block gives when no audit is called for (R119). -/
def plainWord (b : BitVec 128) : PointWord :=
  { audit := false, s := BitVec.ofNat 61 (beatBits b 121 61), t := BitVec.ofNat 61 (beatBits b 60 0), u := 0, fixed := false }

section
variable {e : Env} {c i : Nat} {h : Hub} {b : BitVec 128} {sel : BitVec 20} {q : List (BitVec 20)} (inst : servingInstance h = some i)
  (drawn_ : Config.drbg h.free = b) (good : pointOk b = true) (left : h.res.selectors = sel :: q)
  (plain : selected sel (auditExp e h c).1 = false) (unfixed : h.res.dbgS.getLsbD 63 = false)
include inst drawn_ good left plain unfixed

/-- One block and one selector place a word that calls for no audit (R119). -/
theorem assignWord_plain : assignWord e c h = onHubc c (fun x => { x with confirm := x.confirm - 1 })
    (onLane c (fun l => { l with fifo := l.fifo ++ [plainWord b] }) { takeBlocks 1 h with res := { (takeBlocks 1 h).res with selectors := q } }) := by
  have block := takeBlocks_one inst
  have left' : (takeBlocks 1 h).res.selectors = sel :: q := by rw [block]; exact left
  have plain' : selected sel (auditExp e (takeBlocks 1 h) c).1 = false := by rw [block]; exact plain
  have unfixed' : (takeBlocks 1 h).res.dbgS.getLsbD 63 = false := by rw [block]; exact unfixed
  unfold assignWord
  simp only [drawUntil_first drawn_ good, needSelectors_left left', left', plain', Bool.false_eq_true, if_false, takeBlocks_zero, unfixed']
  rfl

theorem assignWord_lane : (cell (assignWord e c h) c).lane = { (cell h c).lane with fifo := (cell h c).lane.fifo ++ [plainWord b] } := by
  rw [assignWord_plain inst drawn_ good left plain unfixed, (onHubc_reads ..).1, onLane_lane, takeBlocks_one inst]
  rfl

theorem assignWord_res : (assignWord e c h).res = { h.res with
    selectors := q
    drbg := setAt h.res.drbg i (if (getAt h.res.drbg i (0, 0)).2 = 0 then ((getAt h.res.drbg i (0, 0)).1 + 1, 4095)
      else ((getAt h.res.drbg i (0, 0)).1, (getAt h.res.drbg i (0, 0)).2 - 1)) } := by
  rw [assignWord_plain inst drawn_ good left plain unfixed, takeBlocks_one inst]
  rfl

end

/-- Settles O21: the commands by the lemma on each one's change, the events by what the beat, the timeout or the refill makes of the lane. -/
theorem residueCommands : Obligations.ResidueCommands := by
  unfold Obligations.ResidueCommands
  refine ⟨fun c s k a x p core here set g => ⟨fun run => ?_, fun stop lt => ?_⟩, fun c s a p die own set alone => ?_, fun c s k p here => ?_,
    fun c s k p here => ?_, fun s k d l w f on hl front none_ => ⟨fun legal => ?_, fun legal => ?_⟩, fun s k d x on none_ g room => ?_,
    fun s k d l u on hl one more exact_ => ?_,
    fun s k d l u x on hl one exact_ plain full rsvd status high tag g room => ⟨fun agrees => ?_, fun differs => ?_⟩,
    fun s k l o q on hl front free past => ?_, fun s k l u x on hl one past first g room => ?_,
    fun s k l b sel q i on inst hl wants hb good left plain unfixed => ?_⟩
  · have act := opResCfg_core core here set
    rw [sendRes_runs s.env a (by rw [region_consumed, region_of g, run]), okCross_same (by simp)] at act
    obtain ⟨t, runs, ans, ht⟩ := op_done p act (by decide) (by simp) (by simp) (by simp)
    exact ⟨t, runs, ans, by simp [ht, resToCore], by simp [ht]⟩
  · have g' : (consumed c s).regions[regionOf k]? = some x := by simpa using g
    have act := (opResCfg_core core here set).trans (okCross_sendRes s.env a g' stop lt)
    rw [sendRes_waits s.env a (by rw [region_of g', stop])] at act
    obtain ⟨t, runs, ans, ht⟩ := op_done p act (by decide) (by simp) (by simp) (by simp)
    exact ⟨t, runs, ans, by simp [ht], by simp [ht], by simp [ht, region_of g]⟩
  · have act := (opResCfg_die die own set alone).trans (okCross_same rfl)
    obtain ⟨t, runs, ans, ht⟩ := op_done p act (by decide) rfl (by simp) (by simp)
    exact ⟨t, runs, ans, by simp [ht], by simp [ht]⟩
  · obtain ⟨t, runs, ans, ht⟩ := op_done p (opAuditRate_act here) (by decide) (by simp) (by simp) (by simp)
    exact ⟨t, runs, ans, by simp [ht]⟩
  · obtain ⟨t, runs, ans, ht⟩ := op_done p (opAuditRead_act here) (by decide) rfl (by simp) (by simp)
    exact ⟨t, runs, ans, by simp [ht]⟩
  · subst hl
    refine ⟨_, exec_tapStart d true on, ?_⟩
    rw [State.settle_hub, cell_clean, Hub.clean_res]
    exact lanStart_opens (h := s.hub.clean) front none_ legal
  · subst hl
    refine ⟨_, exec_tapSkip d true on, ?_⟩
    rw [State.settle_hub, cell_clean, Hub.clean_res]
    exact lanSkip_counts (h := s.hub.clean) front none_ legal
  · refine ⟨_, exec_tapStart d false on, ?_⟩
    rw [State.settle_hub, cell_clean, Hub.clean_regions]
    exact lanStart_untaken (h := s.hub.clean) none_ g room
  · subst hl
    refine ⟨_, exec_tapPair d false on, u.pair d, ?_, pair_exact d exact_⟩
    rw [State.settle_hub, cell_clean]
    exact lanPair_lane (h := s.hub.clean) one more
  · subst hl
    refine ⟨_, exec_tapEnd d false on, ?_⟩
    rw [State.settle_hub, cell_clean, Hub.clean_regions, Hub.clean_res]
    exact lanEnd_passes (h := s.hub.clean) one exact_ plain full rsvd status high tag agrees
  · subst hl
    refine ⟨_, exec_tapEnd d false on, ?_⟩
    rw [State.settle_hub, cell_clean, Hub.clean_regions]
    exact lanEnd_mismatches (h := s.hub.clean) one exact_ plain full rsvd status high tag differs g room
  · subst hl
    refine ⟨_, exec_tapOutcomePresent on front free past, ?_⟩
    rw [State.settle_hub, cell_clean, onLane_lane, cell_clean]
  · subst hl
    refine ⟨_, exec_tapTimeout on one past first, ?_⟩
    rw [State.settle_hub, cell_clean, Hub.clean_regions]
    exact timeOutTile_closes (h := s.hub.clean) one g room
  · subst hl
    refine ⟨_, exec_pointFifoRefill on inst wants, ?_, ?_⟩
    · rw [State.settle_hub, cell_clean, onLane_lane, assignWord_lane (h := s.hub.clean) inst hb good left plain unfixed]
      simp [plainWord]
    · rw [State.settle_hub, Hub.clean_res]
      exact assignWord_res (h := s.hub.clean) inst hb good left plain unfixed

end Sys2Proof.Machine
end

section
/-!
PROOF. The beats of the digest taps (O31): a header beat that finds room is its type's operation on the hub that the beat has entered, and
one lemma says what each operation leaves.
-/
namespace Sys2Proof.Machine

@[simp] theorem pipe_clean (h : Hub) (p : Bool) : pipe h.clean p = pipe h p := rfl
@[simp] theorem delivery_clean (h : Hub) (p : Bool) (l u : Nat) (n : Word) : delivery h.clean p l u n = delivery h p l u n := rfl

theorem pipe_onDig {f : DigU → DigU} {h : Hub} (i : (f h.dig).ingress = h.dig.ingress) (g : (f h.dig).egress = h.dig.egress) (p : Bool) :
    pipe (onDig f h) p = pipe h p := pipe_congr i g p

section
variable {s : State} {p : Bool} {d : BitVec 128} (on : digRuns s.env s.hub = true)
  (room : (fifoTick (nowNs s.hub) (pipe s.hub p)).fifo.length < 16) (rsvd : (digHdr d).rsvd = 0)
include on

/-- A header beat acts while the taps take beats (Table 1.10). -/
theorem headerBeat_run :
    s.run (fun e h => guard (digRuns e h) (headerBeat e p d) h) = .next (s.settle (headerBeat s.env p d s.hub.clean)) :=
  run_guard (b := digRuns) on

include room rsvd

/-! One that finds room is its type's operation (Table 5.4). -/

theorem digestChunkHeader_run (type : (digHdr d).type = 0) :
    exec (.digestChunkHeader p d) s = .next (s.settle (chunkHeader s.env p (digHdr d) (entered p 1 s.hub.clean))) := by
  obtain ⟨acts, -⟩ := headerBeat_room (e := s.env) (h := s.hub.clean) room rsvd
  exact (headerBeat_run on).trans (by rw [acts type])
theorem digestSliceEnd_run (type : (digHdr d).type = 1) :
    exec (.digestSliceEnd p d) s = .next (s.settle (sliceEnd s.env p (digHdr d) (entered p 1 s.hub.clean))) := by
  obtain ⟨-, acts, -⟩ := headerBeat_room (e := s.env) (h := s.hub.clean) room rsvd
  exact (headerBeat_run on).trans (by rw [acts type])
theorem digestSealHeader_run (type : (digHdr d).type = 2) (fmt : digFmtOk (digHdr d).fmt = true) :
    exec (.digestSealHeader p d) s = .next (s.settle (sealHeader s.env p false (digHdr d) (entered p 1 s.hub.clean))) := by
  obtain ⟨-, -, acts, -⟩ := headerBeat_room (e := s.env) (h := s.hub.clean) room rsvd
  exact (headerBeat_run on).trans (by rw [acts type fmt])
theorem digestRecallHeader_run (type : (digHdr d).type = 3) (fmt : digFmtOk (digHdr d).fmt = true) (base : (digHdr d).base = 0) :
    exec (.digestRecallHeader p d) s = .next (s.settle (recallHeader p false (digHdr d) (entered p 1 s.hub.clean))) := by
  obtain ⟨-, -, -, acts, -⟩ := headerBeat_room (e := s.env) (h := s.hub.clean) room rsvd
  exact (headerBeat_run on).trans (by rw [acts type fmt base])
theorem digestStashEnd_run (type : (digHdr d).type = 4) :
    exec (.digestStashEnd p d) s = .next (s.settle (stashEnd s.env p (digHdr d) (entered p 1 s.hub.clean))) := by
  obtain ⟨-, -, -, -, acts⟩ := headerBeat_room (e := s.env) (h := s.hub.clean) room rsvd
  exact (headerBeat_run on).trans (by rw [acts type])

end

/-- A beat's entry changes no debug key. -/
theorem laneKeys_entered (p : Bool) (c : Nat) (h : Hub) (k : Fld × Fld) : laneKeys (entered p c h) k = laneKeys h k := by cases p <;> rfl

/-! Chunks (R173, R181). -/

/-- A CHUNK of an epoch that was never opened counts twice, and its elements are not digested (R181, Table 5.6). -/
theorem chunkHeader_unopened {e : Env} {p : Bool} {x : DigHdr} {h : Hub} (fmt : digFmtOk x.fmt = true) (shut : epochOpen h x.epoch = false)
    (never : h.dig.opened.contains x.epoch = false) :
    (pipe (chunkHeader e p x h) p).chunk =
        some { kind := .slice x.layer x.slice x.epoch 3, fmt := BitVec.ofNat 4 x.fmt, link := x.link, next := x.base } ∧
      (chunkHeader e p x h).dig.unopened = h.dig.unopened + 1 ∧ (chunkHeader e p x h).dig.proto = h.dig.proto + 1 := by
  have acts : chunkHeader e p x h = sliceChunk p 3 x (onDig (fun d => { d with unopened := d.unopened + 1 }) (digProto e p 4 h)) := by
    unfold chunkHeader
    simp only [fmt, shut, never, Bool.not_true, Bool.false_eq_true, if_false]
  have counts (k : Hub) : (sliceChunk p 3 x k).dig.unopened = k.dig.unopened ∧ (sliceChunk p 3 x k).dig.proto = k.dig.proto := by
    cases p <;> exact ⟨rfl, rfl⟩
  rw [acts, (counts _).1, (counts _).2]
  refine ⟨sliceChunk_chunk .., ?_, ?_⟩
  · simp [onDig, digProto_dig]
  · simp [onDig, digProto_dig]

/-- One of an open epoch acts on the epoch's table. -/
theorem chunkHeader_open {e : Env} {p : Bool} {x : DigHdr} {ep : Epoch} {h : Hub} (fmt : digFmtOk x.fmt = true) (open_ : epochOpen h x.epoch = true)
    (held : epochOf h x.epoch = some ep) : chunkHeader e p x h = openChunk e p x ep h := by
  unfold chunkHeader
  simp only [fmt, open_, held, Bool.not_true, Bool.false_eq_true, if_false, if_true]

/-! Data beats (R168, R169). -/

/-- A data beat of 1 to 128 elements that finds room enters its elements where the tap's chunk says. -/
theorem dataBeat_room {e : Env} {p : Bool} {n : Nat} {lanes : List Word} {c : Chunk} {h : Hub}
    (room : (fifoTick (nowNs h) (pipe h p)).fifo.length < 16) (chunk : (pipe h p).chunk = some c) (pos : 0 < n) (le : n ≤ 128) :
    dataBeat e p n lanes h = takeData e p c ((lanes.take n).map BitVec.toNat) (entered p (beatCost c.fmt.toNat n) h) := by
  unfold dataBeat
  simp only [Nat.ne_of_gt pos, Nat.min_eq_left le, Nat.not_lt.mpr le, chunk, fifoPush_room room, (entered_pipe ..).1, Bool.not_true,
    Bool.false_eq_true, if_false]

/-! Ends of slices (R174). -/

/-- The ingress SLICE_END that states the count of an open delivery takes it out of those open, to be final as valid. -/
theorem sliceEnd_valid {e : Env} {x : DigHdr} {v : Delivery} {h : Hub} (chunk : h.dig.ingress.chunk = none)
    (mine : delivery h false x.layer x.slice x.epoch = some v) (good : v.invalid = false) (whole : v.overrun = false) (count : v.count = x.base) :
    (sliceEnd e false x h).dig.ingress.chunk = none ∧
      (sliceEnd e false x h).dig.ingress.open_ = h.dig.ingress.open_.filter (fun y => !y.is x.layer x.slice x.epoch) ∧
      (∃ due, (sliceEnd e false x h).dig.ingress.finals = h.dig.ingress.finals ++ [(due, .slice v true)]) ∧
      (sliceEnd e false x h).dig.invalid = h.dig.invalid := by
  have chunk' : (pipe h false).chunk = none := chunk
  unfold sliceEnd
  simp only [chunk', mine, good, whole, count, Option.map_none, Bool.not_false, Bool.and_self, decide_true, Bool.not_true,
    Bool.false_eq_true, if_false, if_true]
  exact ⟨rfl, rfl, ⟨_, rfl⟩, rfl⟩

/-! Stashes (R186–R188). -/

/-- A SEAL header under a number that holds no seal opens one, under keys drawn for it. -/
theorem sealHeader_opens {e : Env} {p : Bool} {x : DigHdr} {k : Fld × Fld × Bool} {h : Hub} (none_ : Tab.find h.dig.seals x.sid = none)
    (keys : laneKeys h (fld (bitsOf (draw h).toNat 60 0), fld (bitsOf (draw h).toNat 121 61)) = k) :
    Tab.find (sealHeader e p false x h).dig.seals x.sid = some { state := 1, egress := p, k0 := k.1, k1 := k.2.1, fixed := k.2.2 } ∧
      (sealHeader e p false x h).free = h.free + 1 ∧
      (pipe (sealHeader e p false x h) p).chunk = some { kind := .seal x.sid, fmt := BitVec.ofNat 4 x.fmt, link := 0, next := x.base } := by
  subst keys
  have seals (k : Hub) : (stashChunk p (.seal x.sid) x k).dig.seals = k.dig.seals := by cases p <;> rfl
  have free (k : Hub) : (stashChunk p (.seal x.sid) x k).free = k.free := (stashChunk_only ..).keep .free (by decide)
  unfold sealHeader
  simp only [none_]
  refine ⟨?_, ?_, ?_⟩
  · rw [seals]
    exact Tab.find_put_self ..
  · rw [free]
    rfl
  · unfold stashChunk
    rw [pipe_onPipe]

/-- A RECALL header of a valid seal digests from index 0 under the seal's keys, and the seal stays. -/
theorem recallHeader_digests {p : Bool} {x : DigHdr} {v : Seal} {k : Fld × Fld × Bool} {h : Hub} (sealed : Tab.find h.dig.seals x.sid = some v)
    (valid : v.state = 2) (whole : v.overrun = false) (keys : laneKeys h (v.k0, v.k1) = k) :
    Tab.find (pipe (recallHeader p false x h) p).recalls x.sid = some { state := 1, egress := p, k0 := k.1, k1 := k.2.1, fixed := k.2.2 } ∧
      (pipe (recallHeader p false x h) p).chunk = some { kind := .recall x.sid, fmt := BitVec.ofNat 4 x.fmt, link := 0, next := 0 } ∧
      (recallHeader p false x h).dig.seals = h.dig.seals := by
  unfold recallHeader stashChunk
  simp only [sealed, valid, whole, keys, pipe_onPipe]
  refine ⟨Tab.find_put_self .., trivial, ?_⟩
  cases p <;> rfl

/-- STASH_END makes the seal that the tap has digested whole. -/
theorem stashEnd_seals {e : Env} {p : Bool} {x : DigHdr} {v : Seal} {h : Hub} (sealed : Tab.find h.dig.seals x.sid = some v)
    (none_ : Tab.find (pipe h p).recalls x.sid = none) (digesting : v.state = 1) (own : v.egress = p) (count : v.count = x.base)
    (good : v.invalid = false) (whole : v.overrun = false) :
    Tab.find (stashEnd e p x h).dig.seals x.sid = some { v with state := 2 } ∧ (pipe (stashEnd e p x h) p).chunk = none := by
  have acts : stashEnd e p x h =
      onDig (fun d => { d with seals := Tab.put d.seals x.sid { v with state := 2 } }) (onPipe p (fun q => { q with chunk := none }) h) := by
    unfold stashEnd
    simp [none_, sealed, digesting, own, count, good, whole]
  rw [acts]
  refine ⟨Tab.find_put_self .., ?_⟩
  rw [pipe_onDig rfl rfl, pipe_onPipe]

/-- STASH_END of a checked recall ends it and frees the seal; the two digests and counts are compared when it is final. -/
theorem stashEnd_recalls {e : Env} {p : Bool} {x : DigHdr} {v r : Seal} {h : Hub} (sealed : Tab.find h.dig.seals x.sid = some v)
    (open_ : Tab.find (pipe h p).recalls x.sid = some r) (checked : r.state = 1) (whole : r.overrun = false) (good : r.invalid = false)
    (count : r.count = x.base) :
    Tab.find (stashEnd e p x h).dig.seals x.sid = none ∧ Tab.find (pipe (stashEnd e p x h) p).recalls x.sid = none ∧ ∃ due,
      (pipe (stashEnd e p x h) p).finals = (pipe h p).finals ++
        [(due, .recall x.sid r (some v) (decide (v.count = r.count) && decide (v.d0 = r.d0) && decide (v.d1 = r.d1)) true)] := by
  have acts : stashEnd e p x h = onDig (fun d => { d with seals := Tab.drop d.seals x.sid }) (onPipe p (fun q => { q with
      chunk := none, recalls := Tab.drop q.recalls x.sid
      finals := q.finals ++ [(finalAt q, .recall x.sid r (some v) (decide (v.count = r.count) && decide (v.d0 = r.d0) && decide (v.d1 = r.d1)) true)] }) h) := by
    unfold stashEnd
    simp [open_, sealed, checked, whole, good, count]
  rw [acts, pipe_onDig rfl rfl, pipe_onPipe]
  exact ⟨Tab.find_drop_self .., Tab.find_drop_self .., _, rfl⟩

/-! Digests that are final (R171, R175, R187). -/

/-- What an end does once its digest is final. -/
def finalActs (e : Env) (p : Bool) (h : Hub) : Final → Hub
  | .slice d v => sliceFinal e p d v h
  | .recall sid r x ok k => recallFinal e p sid r x ok k h

/-- The hub with the oldest end of a pipe taken, and no stash result shown. -/
def endTaken (p : Bool) (l : List (Nat × Final)) (h : Hub) : Hub := onDig (fun d => { d with sv := false }) (onPipe p (fun q => { q with finals := l }) h)

/-- The oldest end of a pipe is final once its time has come. -/
theorem deliveryFinal_run {s : State} {p : Bool} {due : Nat} {f : Final} {l : List (Nat × Final)} (on : digRuns s.env s.hub = true)
    (front : (pipe s.hub p).finals = (due, f) :: l) (past : due ≤ nowNs s.hub) :
    exec (.deliveryFinal p) s = .next (s.settle (finalActs s.env p (endTaken p l s.hub.clean) f)) := by
  have on' : digRuns s.env s.hub.clean = true := on
  show execDeliveryFinal p s = _
  unfold execDeliveryFinal
  rw [State.run_next]
  simp only [pipe_clean, front, on', nowNs_clean, past, decide_true, Bool.and_self, guard_true]
  cases f <;> rfl

/-- A recall that does not break its seal is counted, and shows its result. -/
theorem recallFinal_shows (e : Env) (p : Bool) (sid : Nat) (r : Seal) (x : Option Seal) {o k : Bool} (l : List (Nat × Final)) (h : Hub)
    (holds : (k && !o) = false) :
    (pipe (recallFinal e p sid r x o k (endTaken p l h)) p).finals = l ∧ (recallFinal e p sid r x o k (endTaken p l h)).dig.sv = true ∧
      (recallFinal e p sid r x o k (endTaken p l h)).dig.sok = o ∧ (recallFinal e p sid r x o k (endTaken p l h)).dig.sid = BitVec.ofNat 10 sid ∧
      (recallFinal e p sid r x o k (endTaken p l h)).dig.checked = h.dig.checked + b2n k := by
  unfold recallFinal endTaken
  simp only [holds, Bool.false_eq_true, if_false]
  rw [pipe_onDig rfl rfl, pipe_onDig rfl rfl, pipe_onPipe]
  cases p <;> exact ⟨rfl, rfl, rfl, rfl, rfl⟩

/-- An egress delivery that is final adds to its entry of the newer epoch, and touches no pipe (R175). -/
theorem sliceFinal_adds {e : Env} {v : Delivery} {ep : Epoch} {h : Hub} (whole : v.overrun = false) (newer : h.dig.newer = some ep)
    (num : ep.num = v.epoch) (room : tableRoom true (pairKey v.layer v.slice) ep = true) :
    (sliceFinal e true v true h).dig.egress = h.dig.egress ∧
      ∃ y, (sliceFinal e true v true h).dig.newer = some y ∧ Tab.find y.egress (v.layer * 64 + v.slice) =
        some { d0 := fAdd (Tab.getD ep.egress (v.layer * 64 + v.slice) {}).d0 v.d0, d1 := fAdd (Tab.getD ep.egress (v.layer * 64 + v.slice) {}).d1 v.d1
               count := (Tab.getD ep.egress (v.layer * 64 + v.slice) {}).count + v.count
               state := if (Tab.getD ep.egress (v.layer * 64 + v.slice) {}).state = (2 : BitVec 2) then (2 : BitVec 2) else 1
               fixed := (Tab.getD ep.egress (v.layer * 64 + v.slice) {}).fixed || v.fixed } := by
  have held : epochOf h v.epoch = some ep := by
    unfold epochOf
    rw [newer]
    exact if_pos num
  have open_ : epochOpen h v.epoch = true := by
    unfold epochOpen
    rw [newer]
    simp [num]
  unfold sliceFinal setEntry onEpoch onDig
  simp only [whole, held, open_, Bool.not_true, Bool.false_eq_true, if_false, if_true, newer, Option.map_some, num, room]
  exact ⟨trivial, _, rfl, Tab.find_put_self ..⟩

/-- Settles O31: a header beat by the lemma on its type's operation, a data beat by `takeData_slice`, an end by what is final. -/
theorem digestBeats : Obligations.DigestBeats := by
  unfold Obligations.DigestBeats
  refine ⟨fun s p d ep x on room hx rsvd type fmt open_ held new tab => ?_, fun s p d x on room hx rsvd type fmt shut never => ?_,
    fun s p n lanes c l u ep v on room chunk kind mine pos le len fits => ?_,
    fun s d x v on room hx rsvd type chunk mine good whole count => ?_, fun s p d x b k on room hx rsvd type fmt none_ hb keys => ?_,
    fun s p d x v k on room hx rsvd type fmt base sealed valid whole keys => ?_,
    fun s p d x v on room hx rsvd type sealed => ⟨fun none_ digesting own count good whole => ?_, fun r open_ checked whole good count => ?_⟩,
    fun s p due sid r x o k l on front past holds => ⟨_, deliveryFinal_run on front past, recallFinal_shows s.env p sid r x l s.hub.clean holds⟩,
    fun s due v l ep on front past whole newer num tab => ⟨_, deliveryFinal_run on front past, ?_⟩⟩
  · subst hx
    refine ⟨_, digestChunkHeader_run on room rsvd type, ?_⟩
    obtain ⟨hnow, hof, hopen, hkeys, hdel, -⟩ := entered_reads p 1 s.hub.clean
    rw [State.settle_hub, pipe_clean, delivery_clean, chunkHeader_open fmt ((hopen _).trans open_) ((hof _).trans held)]
    have starts := openChunk_starts (e := s.env) ((hdel ..).trans new) tab
    rwa [hkeys, hnow] at starts
  · subst hx
    refine ⟨_, digestChunkHeader_run on room rsvd type, ?_⟩
    obtain ⟨-, hopened, -, -, hun, hproto, -⟩ := entered_dig p 1 s.hub.clean
    obtain ⟨-, -, hopen, -⟩ := entered_reads p 1 s.hub.clean
    obtain ⟨hchunk, unopened, proto⟩ := chunkHeader_unopened (e := s.env) (p := p) fmt ((hopen _).trans shut) (by rw [hopened]; exact never)
    exact ⟨hchunk, unopened.trans (congrArg (· + 1) hun), proto.trans (congrArg (· + 1) hproto)⟩
  · have hlen : ((lanes.take n.toNat).map BitVec.toNat).length = n.toNat := by simp [len]
    have run : exec (.digestDataBeat p n lanes) s = .next (s.settle (dataBeat s.env p n.toNat lanes s.hub.clean)) :=
      run_guard (s := s) (b := digRuns) (f := fun e => dataBeat e p n.toNat lanes) on
    refine ⟨_, run, ?_⟩
    obtain ⟨hnow, -, -, -, hdel, -⟩ := entered_reads p (beatCost c.fmt.toNat n.toNat) s.hub.clean
    rw [State.settle_hub, pipe_clean, delivery_clean, dataBeat_room (h := s.hub.clean) room chunk pos le]
    have takes := takeData_slice (e := s.env) kind ((hdel ..).trans mine) (by rw [hlen]; exact fits)
    rwa [hlen, hnow] at takes
  · subst hx
    refine ⟨_, digestSliceEnd_run on room rsvd type, ?_⟩
    obtain ⟨hchunk, hopen, -, hfinals, -⟩ := entered_pipe false 1 s.hub.clean
    obtain ⟨-, -, -, -, hdel, -⟩ := entered_reads false 1 s.hub.clean
    obtain ⟨ends, closed, ⟨due, final⟩, counts⟩ := sliceEnd_valid (e := s.env) (hchunk.trans chunk) ((hdel ..).trans mine) good whole count
    exact ⟨ends, closed.trans (congrArg _ hopen), ⟨due, final.trans (congrArg (· ++ _) hfinals)⟩, counts⟩
  · subst hx hb
    refine ⟨_, digestSealHeader_run on room rsvd type fmt, ?_⟩
    obtain ⟨hseals, -, -, -, -, -, hfree⟩ := entered_dig p 1 s.hub.clean
    obtain ⟨sealed, free, hchunk⟩ := sealHeader_opens (e := s.env) (p := p) (k := k) ((congrArg (Tab.find · _) hseals).trans none_)
      ((laneKeys_entered ..).trans (by rw [draw, hfree]; exact keys))
    exact ⟨sealed, free.trans (congrArg (· + 1) hfree), hchunk⟩
  · subst hx
    refine ⟨_, digestRecallHeader_run on room rsvd type fmt base, ?_⟩
    obtain ⟨hseals, -⟩ := entered_dig p 1 s.hub.clean
    obtain ⟨recalled, hchunk, stays⟩ := recallHeader_digests (p := p) ((congrArg (Tab.find · _) hseals).trans sealed) valid whole ((laneKeys_entered ..).trans keys)
    exact ⟨recalled, hchunk, stays.trans hseals⟩
  · subst hx
    refine ⟨_, digestStashEnd_run on room rsvd type, ?_⟩
    obtain ⟨hseals, -⟩ := entered_dig p 1 s.hub.clean
    obtain ⟨-, -, hrecalls, -⟩ := entered_pipe p 1 s.hub.clean
    exact stashEnd_seals ((congrArg (Tab.find · _) hseals).trans sealed) ((congrArg (Tab.find · _) hrecalls).trans none_) digesting own count good whole
  · subst hx
    refine ⟨_, digestStashEnd_run on room rsvd type, ?_⟩
    obtain ⟨hseals, -⟩ := entered_dig p 1 s.hub.clean
    obtain ⟨-, -, hrecalls, hfinals, -⟩ := entered_pipe p 1 s.hub.clean
    have ends := stashEnd_recalls (e := s.env) ((congrArg (Tab.find · _) hseals).trans sealed) ((congrArg (Tab.find · _) hrecalls).trans open_) checked whole good count
    rwa [hfinals] at ends
  · obtain ⟨hpipe, adds⟩ := sliceFinal_adds (e := s.env) (h := endTaken true l s.hub.clean) whole newer num tab
    exact ⟨congrArg Pipe.finals hpipe, adds⟩

end Sys2Proof.Machine
end

section
/-!
PROOF. The digest engine's commands and expiries (O23): one lemma says what a command leaves of the engine, the others what each change is.
-/
namespace Sys2Proof.Machine

/-! What step 8 leaves to read. -/

@[simp] theorem digBase_consumed (q : Cmd) (s : State) (j : Nat) : digBase (consumed q s) j = digBase s.hub j := by rw [consumed_eq]; rfl
@[simp] theorem epochOf_consumed (q : Cmd) (s : State) (n : Word) : epochOf (consumed q s) n = epochOf s.hub n := by rw [consumed_eq]; rfl
@[simp] theorem included_consumed (q : Cmd) (s : State) (n l : Nat) : included (consumed q s) n l = included s.hub n l := by rw [consumed_eq]; rfl

/-- A command whose change leaves the interpreter and the protection setup alone is answered, and of the digest engine stands what the change
has left. -/
theorem digCmd_done {d : OpDef} {c : Cmd} {s : State} {k : Hub} {st det : Nat} {res : List Word} (p : passes d c s = true)
    (a : d.act s.env (consumed c s) (ctxOf c s) = .done st det res k) (b : st ≠ stBusy) (cmd : k.cmd = (consumed c s).cmd)
    (prot : k.prot = s.hub.prot) : ∃ t, s.runOp d c = .next t ∧ Answered d.code st det res c s t ∧ t.hub.dig = k.dig := by
  obtain ⟨t, run, ans, ht⟩ := op_done p a b (by rw [cmd]) (by rw [cmd, consumed_chans]) (by rw [prot])
  exact ⟨t, run, ans, by simp [ht]⟩

/-! DIG_CFG (R202). -/

section
variable {c : Cmd} {s : State} {d : DigCfg} (set : (ctxOf c s).settings 2 digSetting (digBase s.hub (c.n 1)) = .inr d)
include set

/-- Figures of another job or seed wait for the next OPEN. -/
theorem opDigCfg_waits (other : d.job ≠ s.hub.dig.cfg.job ∨ d.seed ≠ (digBase s.hub (c.n 1)).seed) :
    opDigCfg.act s.env (consumed c s) (ctxOf c s) = ok [] (onDig (fun x => { x with next := some d }) (consumed c s)) := by
  unfold opDigCfg takeDigCfg
  simp only [ctxOf_n, digBase_consumed, set, setOr, consumed_keeps]
  rw [if_pos other]

/-- Figures of the job and seed in force, where none wait, come into force at once. -/
theorem opDigCfg_acts (idle : s.hub.dig.next = none) (own : c.n 1 = s.hub.dig.cfg.job.toNat) (job : d.job = s.hub.dig.cfg.job)
    (seed : d.seed = s.hub.dig.cfg.seed) : ∃ k, opDigCfg.act s.env (consumed c s) (ctxOf c s) = ok [] k ∧ k.cmd = (consumed c s).cmd ∧
      k.prot = s.hub.prot ∧ k.dig = { s.hub.dig with
        cfg := d, frozenRef := s.hub.dig.frozenRef.filter (fun q => keepsRefs s.hub.dig.cfg d (q.1 / 64)) } := by
  have base : digBase s.hub (c.n 1) = s.hub.dig.cfg := by
    unfold digBase
    simp [idle, own]
  rw [base] at set
  have stands : ¬(d.job ≠ s.hub.dig.cfg.job ∨ d.seed ≠ s.hub.dig.cfg.seed) := by simp [job, seed]
  have kept : ({ d with seed := s.hub.dig.cfg.seed } : DigCfg) = d := by rw [← seed]
  refine ⟨_, rfl, ?_⟩
  unfold takeDigCfg
  simp only [ctxOf_n, digBase_consumed, base, set, setOr, consumed_keeps, stands, if_false, kept]
  refine ⟨by simp [applyDigCfg], by simp [applyDigCfg], ?_⟩
  simp [onDig, applyDigCfg, idle, job]

end

/-! DIG_READ (R203). -/

/-- DIG_READ of a pair that an epoch's table holds answers with its entry. -/
theorem opDigRead_entry {c : Cmd} {s : State} {ep : Epoch} {x : DigEntry} (le : c.n 1 ≤ 1) (held : epochOf s.hub (c.w 4) = some ep)
    (entry : Tab.find (tableOf (decide (c.n 1 = 1)) ep) (c.n 2 * 64 + c.n 3) = some x) :
    opDigRead.act s.env (consumed c s) (ctxOf c s) = ok (entryWords x) (consumed c s) := by
  have get : Tab.getD (tableOf (decide (c.n 1 = 1)) ep) (pairKey (c.n 2) (c.n 3)) {} = x := by
    unfold Tab.getD pairKey
    rw [entry]
    rfl
  have table : c.n 1 ≠ 2 := by omega
  unfold opDigRead
  simp only [ctxOf_n, ctxOf_w, epochOf_consumed, held]
  exact (if_neg table).trans (congrArg (fun y => ok (entryWords y) _) get)

/-- DIG_READ of a seal that is held answers with its state and count. -/
theorem opDigRead_seal {c : Cmd} {s : State} {x : Seal} (two : c.n 1 = 2) (sealed : Tab.find s.hub.dig.seals (c.n 2) = some x) :
    opDigRead.act s.env (consumed c s) (ctxOf c s) = ok [x.state.setWidth 32, w32 x.count] (consumed c s) := by
  unfold opDigRead
  simp only [ctxOf_n, consumed_keeps, two, sealed, if_true]

/-! DIG_EPOCH (R180, R183). -/

/-- With releases left, or no older epoch, nothing retires (R181). -/
theorem retired_stays {e : Env} {h : Hub} (left : ∀ ep, h.dig.older = some ep → h.dig.retire ≠ 0) : retired e h = h := by
  unfold retired
  split
  · next ep held => exact if_neg (left ep held)
  · rfl

/-- OPEN with no epoch held: the new one stands alone, in context 0. -/
theorem openEpoch_first {e : Env} {n : Word} {cnt : Nat} {h : Hub} (newer : h.dig.newer = none) (idle : h.dig.next = none) :
    (openEpoch e n cnt h).dig = { h.dig with
      newer := some {
        num := n, k0 := digKey h.dig.cfg.seed h.dig.cfg.job.toNat n.toNat 0, k1 := digKey h.dig.cfg.seed h.dig.cfg.job.toNat n.toNat 1, ctx := false }
      older := none, retire := 0, heldSince := nowNs h, overdue := false, opened := h.dig.opened ++ [n] } ∧
    (openEpoch e n cnt h).xs = { h.xs with lanes := h.xs.lanes.filter (fun p => decide (p.1 % 16 ≠ 0)), held0 := true } := by
  have same : takeNext h = h := by
    unfold takeNext
    rw [idle]
  unfold openEpoch
  simp only [same, newer, Option.any_none, Bool.false_eq_true, if_false, stepBoundary_reads]
  rw [retired_stays (fun ep held => absurd (newer.symm.trans held) (by simp))]
  simp only [onDig, onXs, clearCtx, newer, Option.isSome_none, Bool.false_eq_true, if_false]
  exact ⟨rfl, rfl⟩

/-- OPEN with no older epoch opens the one it names. -/
theorem opDigOpen_act {c : Cmd} {s : State} (first : s.hub.dig.older = none) :
    opDigOpen.act s.env (consumed c s) (ctxOf c s) = ok [] (openEpoch s.env (c.w 2) (c.n 3) (consumed c s)) := by
  unfold opDigOpen
  simp only [consumed_keeps, first, ctxOf_w, ctxOf_n, Option.isSome_none, Bool.false_and, Bool.false_eq_true, if_false]

section
variable {c : Cmd} {s : State} {ep : Epoch} (older : s.hub.dig.older = some ep) (num : ep.num = c.w 2)
include older num

/-- RELEASE of fewer than are left lowers the count. -/
theorem opDigRelease_lowers (pos : 0 < c.n 3) (lt : c.n 3 < s.hub.dig.retire) : opDigRelease.act s.env (consumed c s) (ctxOf c s) =
    ok [] (onDig (fun d => { d with retire := d.retire - c.n 3 }) (consumed c s)) := by
  have stays : retired s.env (onDig (fun d => { d with retire := d.retire - c.n 3 }) (consumed c s)) =
      onDig (fun d => { d with retire := d.retire - c.n 3 }) (consumed c s) :=
    retired_stays (fun _ _ => by simp only [onDig, consumed_keeps]; omega)
  unfold opDigRelease
  simp only [consumed_keeps, older, ctxOf_w, ctxOf_n, num, stays]
  rw [if_neg (by simp), if_neg (by omega)]

/-- RELEASE of more is refused. -/
theorem opDigRelease_excess (gt : s.hub.dig.retire < c.n 3) :
    opDigRelease.act s.env (consumed c s) (ctxOf c s) = refuse stBadParam (consumed c s) 3 := by
  unfold opDigRelease
  simp only [consumed_keeps, older, ctxOf_w, ctxOf_n, num]
  rw [if_neg (by simp), if_pos (.inr gt)]

end

/-- CHECKPOINT of an epoch that is held names it. -/
theorem opDigCheckpoint_act {c : Cmd} {s : State} (held : (epochOf s.hub (c.w 2)).isSome = true) : opDigCheckpoint.act s.env (consumed c s) (ctxOf c s) =
    ok [] (onDig (fun d => { d with checkpoint := some (c.w 2) }) (consumed c s)) := by
  unfold opDigCheckpoint
  simp only [ctxOf_w, epochOf_consumed]
  exact if_neg (by simpa using Option.isSome_iff_ne_none.mp held)

/-! DIG_COMPARE (R195, R196, R199). -/

theorem openRound_dig (e : Env) (use : RoundUse) (tc : Nat) (m : Red) (h : Hub) : (openRound e use tc m h).dig = h.dig :=
  (openRound_only ..).keep .dig (by decide)

/-- The rounds of a shadow's or its twin's egress digests change nothing of the digest engine. -/
theorem openRounds_dig (e : Env) (use : Nat → RoundUse) (tc : Nat) (m : Nat → Red) (l : List Nat) (h : Hub) :
    (l.foldl (fun h rep => openRound e (use rep) tc (m rep) h) h).dig = h.dig := by
  induction l generalizing h with
  | nil => rfl
  | cons rep l ih => rw [List.foldl_cons, ih, openRound_dig]

/-- A round of the older epoch is counted there. -/
theorem onEpoch_older {ep : Epoch} {h : Hub} (f : Epoch → Epoch) (older : h.dig.older = some ep)
    (alone : ∀ y, h.dig.newer = some y → y.num ≠ ep.num) : (onEpoch ep.num f h).dig = { h.dig with older := some (f ep) } := by
  have newer : h.dig.newer.map (fun x => if x.num = ep.num then f x else x) = h.dig.newer := by
    cases other : h.dig.newer with
    | none => rfl
    | some y => exact congrArg some (if_neg (alone y other))
  unfold onEpoch onDig
  simp only [older, newer, Option.map_some, if_true]

/-- DIG_COMPARE by the die's own job submits its retired epoch. -/
theorem opDigCompare_act {c : Cmd} {s : State} {ep : Epoch} (older : s.hub.dig.older = some ep) (zero : s.hub.dig.retire = 0)
    (mine : jobOfDie s.hub (dieNo s.env s.hub) = some (BitVec.ofNat 16 (c.n 1))) :
    opDigCompare.act s.env (consumed c s) (ctxOf c s) = ok [] (submitRound s.env ep (consumed c s)) := by
  unfold opDigCompare
  simp only [consumed_keeps, older, zero, jobOfDie_consumed, dieNo_consumed, mine, ctxOf_n, and_self, if_true]

/-- A round whose epoch has included digests, with a buffer and a round free, takes them into that buffer. -/
theorem submitRound_submits {e : Env} {ep : Epoch} {j : BitVec 16} {job : Job} {h : Hub} (older : h.dig.older = some ep)
    (alone : ∀ y, h.dig.newer = some y → y.num ≠ ep.num) (mine : jobOfDie h (dieNo e h) = some j) (known : jobAt h j = some job)
    (free : h.dig.buf0 = none) (room : (h.xs.rounds.filter (fun p => decide (p.1 / 2 ^ 26 = 0) && !p.2.done)).length < 16)
    (pairs : ep.ingress.filter (fun p => included h ep.num.toNat (p.1 / 64)) ≠ []) :
    (submitRound e ep h).dig = { h.dig with
      older := some { ep with rounds := ep.rounds + 1 }
      buf0 := some { epoch := ep.num, no := ep.rounds, seq := BitVec.ofNat 16 (seqOfCompare ep.num.toNat), group := job.group.toNat
                     deadline := nowNs h + h.dig.cfg.cmpTimeout
                     pairs := ep.ingress.filter (fun p => included h ep.num.toNat (p.1 / 64)) } } := by
  have some_ : (ep.ingress.filter (fun p => included h ep.num.toNat (p.1 / 64))).isEmpty = false := by simpa using pairs
  unfold submitRound
  simp only [some_, Bool.false_eq_true, if_false]
  generalize hk : onEpoch ep.num (fun y => { y with rounds := y.rounds + 1 }) h = k
  have counted : k.dig = { h.dig with older := some { ep with rounds := ep.rounds + 1 } } := by rw [← hk, onEpoch_older _ older alone]
  have mine' : jobOfDie k (dieNo e k) = some j := by rw [← hk]; exact mine
  have known' : jobAt k j = some job := by rw [← hk]; exact known
  have free' : k.dig.buf0 = none := by rw [counted]; exact free
  have now : nowNs k = nowNs h := by rw [← hk]; rfl
  simp only [mine', known', free', Option.isSome_none, Bool.false_and, Bool.false_or, Nat.not_le.mpr room, decide_false,
    Bool.false_eq_true, if_false, Option.isNone_none, if_true, now]
  split
  · rw [openRound_dig]
    simp only [onDig, counted]
  · rw [openRounds_dig, openRound_dig]
    simp only [onDig, counted]

/-! The expiries and the scrub (R182, R191, R197). -/

/-- An epoch held beyond the limit is marked overdue, and stays held. -/
theorem retireOverdue_marks {s : State} {ep : Epoch} (on : digRuns s.env s.hub = true) (older : s.hub.dig.older = some ep)
    (left : 0 < s.hub.dig.retire) (fresh : s.hub.dig.overdue = false) (late : s.hub.dig.heldSince + s.hub.dig.cfg.retireLimit < nowNs s.hub) :
    ∃ t, exec .retireOverdue s = .next t ∧ t.hub.dig = { s.hub.dig with overdue := true } := by
  have on' : digRuns s.env s.hub.clean = true := on
  refine ⟨_, (rfl : execRetireOverdue s = _), ?_⟩
  simp only [State.settle_hub, Hub.clean_dig, older, on', left, fresh, nowNs_clean, late, decide_true, Bool.not_false, Bool.and_self,
    guard_true, featWrite_keeps, digRecord_dig, onDig]

/-- A round recorded as uncompared counts as one. -/
theorem uncompared_dig (e : Env) (n : Word) (h : Hub) : (uncompared e n h).dig = { h.dig with uncmp := h.dig.uncmp + 1 } := by
  unfold uncompared
  rw [digRecord_dig]
  rfl

/-- A round that is not answered in time leaves its buffer, and is counted. -/
theorem compareTimeout_frees {s : State} {b : CmpRound} (on : digRuns s.env s.hub = true) (buf : s.hub.dig.buf0 = some b)
    (past : b.deadline ≤ nowNs s.hub) (first : s.env.beaten evResult b.deadline (nowNs s.hub) = false) :
    ∃ t, exec (.compareTimeout false) s = .next t ∧ t.hub.dig = { s.hub.dig with buf0 := none, uncmp := s.hub.dig.uncmp + 1 } := by
  have on' : digRuns s.env s.hub.clean = true := on
  refine ⟨_, (rfl : execCompareTimeout false s = _), ?_⟩
  simp only [State.settle_hub, Hub.clean_dig, Bool.false_eq_true, if_false, buf, on', nowNs_clean, past, first, decide_true, Bool.not_false,
    Bool.and_self, guard_true, dropHalves_reads, uncompared_dig, dropRound_reads]
  rfl

section
variable {s : State} {i : Byte} {r : Frozen} (on : digRuns s.env s.hub = true) (listed : s.hub.dig.cfg.frozen[i.toNat]? = some r)
  (rate : s.hub.dig.cfg.scrubRate ≠ 0)
include on listed rate

/-- A region without a reference is counted as unchecked. -/
theorem frozenScrubPass_unchecked (none_ : Tab.find s.hub.dig.frozenRef (pairKey r.layer r.slice) = none) :
    ∃ t, exec (.frozenScrubPass i) s = .next t ∧ t.hub.dig = { s.hub.dig with scrubUnchecked := s.hub.dig.scrubUnchecked + 1 } := by
  have on' : digRuns s.env s.hub.clean = true := on
  refine ⟨_, (rfl : execFrozenScrubPass i s = _), ?_⟩
  simp only [State.settle_hub, Hub.clean_dig, listed, on', rate, ne_eq, not_false_eq_true, decide_true, Bool.and_self, guard_true, none_]
  rfl

/-- One whose copy can be read is compared with its reference: a difference counts, and nothing else changes (R190). -/
theorem frozenScrubPass_compares {f : DigEntry} {b : List Byte} {v : Fld × Fld}
    (ref : Tab.find s.hub.dig.frozenRef (pairKey r.layer r.slice) = some f) (copy : readMem s.env s.hub r.addr r.len = some b)
    (digest : digList (laneKeys s.hub (frozenKeys s.hub)).1 (laneKeys s.hub (frozenKeys s.hub)).2.1 r.base (regionElems r.fmt.toNat b) (0, 0) = v) :
    ∃ t, exec (.frozenScrubPass i) s = .next t ∧
      t.hub.dig = if v = (f.d0, f.d1) then s.hub.dig else { s.hub.dig with odd := s.hub.dig.odd + 1 } := by
  have on' : digRuns s.env s.hub.clean = true := on
  have copy' : readMem s.env s.hub.clean r.addr r.len = some b := copy
  have digest' : digList (laneKeys s.hub.clean (frozenKeys s.hub.clean)).1 (laneKeys s.hub.clean (frozenKeys s.hub.clean)).2.1 r.base
      (regionElems r.fmt.toNat b) (0, 0) = v := digest
  refine ⟨_, (rfl : execFrozenScrubPass i s = _), ?_⟩
  simp only [State.settle_hub, Hub.clean_dig, listed, on', rate, ne_eq, not_false_eq_true, decide_true, Bool.and_self, guard_true, ref, copy', digest']
  by_cases same : v = (f.d0, f.d1)
  · simp [same]
  · have differ : ¬(v.1 = f.d0 ∧ v.2 = f.d1) := fun ⟨d0, d1⟩ => same (Prod.ext d0 d1)
    rw [if_neg differ, if_neg same]
    simp only [setFloor_reads, digOutcome_reads, digRecord_dig]
    rfl

end

/-- Settles O23: what a command leaves follows from `digCmd_done` and the lemma on its change, an expiry by the lemma on it. -/
theorem digestCommands : Obligations.DigestCommands := by
  unfold Obligations.DigestCommands
  refine ⟨fun c s d p set => ⟨fun other => ?_, fun idle own job seed => ?_⟩, fun c s ep x p le held entry => ?_, fun c s x p two sealed => ?_,
    fun c s p newer older idle => ?_, fun c s ep p older num => ⟨fun pos lt => ?_, fun gt => ?_⟩, fun c s p held => ?_,
    fun c s ep j p older alone zero mine known free room pairs => ?_, fun s ep on older left fresh late => retireOverdue_marks on older left fresh late,
    fun s b on buf past first => compareTimeout_frees on buf past first,
    fun s i r on listed rate => ⟨frozenScrubPass_unchecked on listed rate, fun f b v ref copy digest => ?_⟩⟩
  · obtain ⟨t, run, ans, hdig⟩ := digCmd_done p (opDigCfg_waits set other) (by decide) (by simp) (by simp)
    exact ⟨t, run, ans, by simp [hdig, onDig]⟩
  · obtain ⟨k, act, hcmd, hprot, hk⟩ := opDigCfg_acts set idle own job seed
    obtain ⟨t, run, ans, hdig⟩ := digCmd_done p act (by decide) hcmd hprot
    exact ⟨t, run, ans, hdig.trans hk⟩
  · obtain ⟨t, run, ans, hdig⟩ := digCmd_done p (opDigRead_entry le held entry) (by decide) rfl (by simp)
    exact ⟨t, run, ans, by simp [hdig]⟩
  · obtain ⟨t, run, ans, -⟩ := digCmd_done p (opDigRead_seal two sealed) (by decide) rfl (by simp)
    exact ⟨t, run, ans⟩
  · obtain ⟨hdig, hxs⟩ := openEpoch_first (e := s.env) (n := (withOp 0 c).w 2) (cnt := (withOp 0 c).n 3) (h := consumed (withOp 0 c) s)
      (by simp [newer]) (by simp [idle])
    refine ⟨_, congrArg (fun h => Host.Outcome.next (s.settle h)) (runCmd_done p (opDigOpen_act older) (by decide)), ?_, ?_⟩
    · simp only [State.settle_hub, Hub.clean_dig, answer_keeps, hdig, consumed_keeps, nowNs_consumed, older]
      rfl
    · simp only [State.settle_hub, Hub.clean_xs, answer_keeps, hxs, consumed_keeps]
  · obtain ⟨t, run, ans, hdig⟩ := digCmd_done p (opDigRelease_lowers older num pos lt) (by decide) (by simp) (by simp)
    exact ⟨t, run, ans, by simp [hdig, onDig]⟩
  · obtain ⟨t, run, ans, hdig⟩ := digCmd_done p (opDigRelease_excess older num gt) (by decide) rfl (by simp)
    exact ⟨t, run, ans, by simp [hdig]⟩
  · obtain ⟨t, run, ans, hdig⟩ := digCmd_done p (opDigCheckpoint_act held) (by decide) (by simp) (by simp)
    exact ⟨t, run, ans, by simp [hdig, onDig]⟩
  · obtain ⟨t, run, ans, hdig⟩ := digCmd_done p (opDigCompare_act older zero mine) (by decide) (by simp) (by simp)
    refine ⟨t, run, ans, hdig.trans ?_⟩
    rw [submitRound_submits (by simp [older]) (by simpa using alone) (by simpa using mine) (by simpa using known) (by simp [free]) (by simpa using room)
      (by simpa using pairs)]
    simp
  · obtain ⟨t, run, hdig⟩ := frozenScrubPass_compares on listed rate ref copy digest
    exact ⟨fun same => ⟨t, run, by rw [hdig, if_pos same]⟩, fun differ => ⟨t, run, by rw [hdig, if_neg differ]⟩⟩

end Sys2Proof.Machine
end

section
/-!
PROOF. Exact sums (O6): records add associatively, in any order, and the empty record changes no sum.
-/
namespace Sys2Proof.Machine

/-! Counts that saturate. -/

theorem satAdd32_comm (a b : Nat) : satAdd32 a b = satAdd32 b a := by
  unfold satAdd32
  rw [Nat.add_comm]

theorem satAdd32_assoc (a b c : Nat) : satAdd32 (satAdd32 a b) c = satAdd32 a (satAdd32 b c) := by
  unfold satAdd32
  omega

/-- A count that has saturated once stays as it is when nothing comes. -/
theorem satAdd32_zero (a b : Nat) : satAdd32 (satAdd32 a b) 0 = satAdd32 a b := by
  unfold satAdd32
  omega

/-! Records. -/

theorem Xa.add_comm (x y : Xa) : x.add y = y.add x := by
  simp only [Xa.add, BitVec.add_comm x.a, satAdd32_comm x.nans, satAdd32_comm x.pinfs, satAdd32_comm x.ninfs, Bool.or_comm x.range,
    Bool.or_comm x.part, Bool.or_comm x.incomplete]

theorem Xa.add_assoc (x y z : Xa) : (x.add y).add z = x.add (y.add z) := by
  simp only [Xa.add, BitVec.add_assoc, satAdd32_assoc, Bool.or_assoc]

theorem Xa.add_right_comm (x y z : Xa) : (x.add y).add z = (x.add z).add y := by
  rw [Xa.add_assoc, Xa.add_comm y, ← Xa.add_assoc]

/-- The empty record leaves a sum as it is. A record that is no sum may hold counts above saturation. -/
theorem Xa.add_empty (x y : Xa) : (x.add y).add {} = x.add y := by
  simp [Xa.add, satAdd32_zero]

theorem Xa.empty_add_empty : Xa.add {} {} = {} := by
  simp [Xa.add, satAdd32]

/-- What follows a sum may be summed apart. -/
theorem Xa.foldl_add {x : Xa} (kept : x.add {} = x) (l : List Xa) : l.foldl Xa.add x = x.add (l.foldl Xa.add {}) := by
  have assoc : Std.Associative Xa.add := ⟨Xa.add_assoc⟩
  calc l.foldl Xa.add x = l.foldl Xa.add (x.add {}) := by rw [kept]
    _ = x.add (l.foldl Xa.add {}) := List.foldl_assoc

/-- Groups summed apart and then together give the sum of all. -/
theorem Xa.foldl_add_groups (g : List (List Xa)) {x : Xa} (kept : x.add {} = x) :
    (g.map (fun l => l.foldl Xa.add {})).foldl Xa.add x = g.flatten.foldl Xa.add x := by
  induction g generalizing x with
  | nil => rfl
  | cons l g ih =>
    rw [List.map_cons, List.foldl_cons, List.flatten_cons, List.foldl_append, Xa.foldl_add kept l]
    exact ih (Xa.add_empty ..)

/-- Settles O6: the fields add as `Xa.add` says, a permutation by `Xa.add_right_comm`, a grouping by `Xa.foldl_add_groups`. -/
theorem exactSums : Obligations.ExactSums := by
  unfold Obligations.ExactSums
  refine ⟨fun x y => ⟨x.a.toNat_add y.a, rfl, rfl, rfl, rfl, rfl, rfl⟩, fun l m p => ?_, fun g => Xa.foldl_add_groups g Xa.empty_add_empty⟩
  exact p.foldl_eq' (fun x _ y _ z => Xa.add_right_comm z x y) _

end Sys2Proof.Machine
end

section
/-!
PROOF. A member die's requests (O34): what the command accepts, and that what it starts or queues is the same in the hub that it found.
-/
namespace Sys2Proof.Machine

/-! What of a hub decides a request. -/

theorem canStart_congr {h k : Hub} (a : k.xs = h.xs) : canStart k = canStart h := by
  unfold canStart lanesFree freeCtx
  rw [a]

theorem freeCtx_congr {h k : Hub} (a : k.xs = h.xs) : freeCtx k = freeCtx h := by
  unfold freeCtx
  rw [a]

/-- A die that is not busy with a round has none open of its number. -/
theorem roundAt_of_idle {e : Env} {h : Hub} {g q : Nat} (idle : xsBusy e h g q = false) : roundAt h 0 g q = none := by
  unfold xsBusy xsOpen at idle
  obtain ⟨⟨absent, -⟩, -⟩ : (roundAt h 0 g q = none ∧ roundRoom e h g q = true) ∧ queueFull h = false := by simpa using idle
  exact absent

/-! XS_REDUCE. -/

/-- The round of an XS_REDUCE as it opens, before it has a context. -/
def reduceRound (c : Ctx) (es : List Elem) (id now : Nat) : Round :=
  { op := BitVec.ofNat 4 (c.n 3), geom := w32 (c.n 4), total := es.length, use := .xsReduce id (xsDest c), opened := now, timer := now
    acc := es.zipIdx.map Prod.swap }

theorem reduceRound_acc (c : Ctx) (es : List Elem) (id now : Nat) : (reduceRound c es id now).acc.map Prod.snd = es := by
  simp [reduceRound, Function.comp_def]

/-- The round is opened and submitted once a vector in memory has pulsed its DMA request line, which leaves the unit and the fabric alone. -/
theorem beginReduce_submits (e : Env) (c : Ctx) (es : List Elem) (id : Nat) (h : Hub) :
    ∃ k, Only [.regs, .dma, .log] h k ∧ beginReduce e c es id h =
      submitRequest e (c.n 1) (c.n 2) (putRound 0 (c.n 1) (c.n 2) (reduceRound c es id (nowNs h)) k) :=
  ⟨_, Only.ite (Only.refl _ _) (pulseLine_only ..), rfl⟩

theorem opXsReduce_begins {e : Env} {h : Hub} {c : Ctx} {es : List Elem} (member : xsMember e h (c.n 1) = true)
    (idle : xsBusy e h (c.n 1) (c.n 2) = false) (vector : xsElems e h c = some es) :
    opXsReduce.act e h c = .later (some (nowNs h + h.xs.resultTimeout)) (beginReduce e c es) := by
  simp [opXsReduce, member, idle, vector]

/-! NORM_REQ. -/

/-- The round of a NORM_REQ as it opens, before it has a context. -/
def normRound (c : Ctx) (id now : Nat) : Round := { op := 3, total := 1, use := .norm id (c.w 2), opened := now, timer := now, tc := 0 }

theorem beginNorm_submits (e : Env) (c : Ctx) (id : Nat) (h : Hub) :
    beginNorm e c id h = submitRequest e (c.n 1) (seqOfNorm (c.n 2)) (putRound 0 (c.n 1) (seqOfNorm (c.n 2)) (normRound c id (nowNs h)) h) := rfl

/-- A NORM_REQ sends nothing, whether it starts or waits. -/
theorem beginNorm_fab {e : Env} {c : Ctx} {id : Nat} {h : Hub} (absent : roundAt h 0 (c.n 1) (seqOfNorm (c.n 2)) = none) : (beginNorm e c id h).fab = h.fab := by
  rw [beginNorm_submits]
  cases start : canStart h with
  | true => exact (submitRequest_norm absent rfl rfl start).2.2
  | false => exact (submitRequest_waits absent rfl start).2.2.2

theorem opNormReq_stranger {e : Env} {h : Hub} {c : Ctx} (stranger : xsMember e h (c.n 1) = false) :
    opNormReq.act e h c = .done stNotFound 1 [] h := by
  simp [opNormReq, stranger, refuse]

theorem opNormReq_begins {e : Env} {h : Hub} {c : Ctx} (member : xsMember e h (c.n 1) = true)
    (idle : xsBusy e h (c.n 1) (seqOfNorm (c.n 2)) = false) :
    opNormReq.act e h c = .later (some (nowNs h + h.xs.resultTimeout)) (beginNorm e c) := by
  simp [opNormReq, member, idle]

/-! The two commands. -/

/-- A command refused at step 14 with nothing done is answered, and the exact-sum unit is as it was. -/
theorem op_refused_xs {d : OpDef} {c : Cmd} {s : State} {st det : Nat} (p : passes d c s = true)
    (a : d.act s.env (consumed c s) (ctxOf c s) = .done st det [] (consumed c s)) (b : st ≠ stBusy) :
    ∃ t, s.runOp d c = .next t ∧ Answered d.code st det [] c s t ∧ t.hub.xs = s.hub.xs := by
  obtain ⟨t, run, ans, o⟩ := op_kept p a b (Only.refl [] _) rfl
  exact ⟨t, run, ans, (o.keep .xs (by decide)).trans (by simp)⟩

/-- Settles O34: a stranger by the commands' first check; a member's request by `op_progress`, and what it leaves by the lemmas on
`submitRequest`. -/
theorem reduceCommands : Obligations.ReduceCommands := by
  unfold Obligations.ReduceCommands
  refine ⟨fun c s p => ⟨fun stranger => ?_, fun es member idle vector => ?_⟩, fun c s p => ⟨fun stranger => ?_, fun member idle => ?_⟩⟩
  · exact op_refused_xs p (opXsReduce_stranger (by simpa using stranger)) (by decide)
  · have act := opXsReduce_begins (h := consumed c s) (c := ctxOf c s) (by simpa using member) (by simpa using idle) vector
    obtain ⟨t, K, run, prog, hK, rfl⟩ := op_progress p act (fun n h => (beginReduce_only ..).keep .cmd (by decide))
    obtain ⟨k, o, eq⟩ := beginReduce_submits s.env (ctxOf c s) es s.hub.cmd.nextId K
    have now : nowNs K = nowNs s.hub := by rw [hK]; rfl
    have xs : k.xs = s.hub.xs := (o.keep .xs (by decide)).trans (by rw [hK]; rfl)
    have fab : k.fab = s.hub.fab := (o.keep .fab (by decide)).trans (by rw [hK]; rfl)
    have time : nowNs k = nowNs s.hub := (nowNs_congr (o.keep .time (by decide))).trans now
    have die : dieNo s.env k = dieNo s.env s.hub := (dieNo_congr _ (o.keep .img (by decide))).trans (by rw [hK]; rfl)
    have absent : roundAt k 0 (c.n 1) (c.n 2) = none := (roundAt_congr (by rw [xs]) ..).trans (roundAt_of_idle idle)
    refine ⟨_, run, prog, fun start => ?_, fun waits => ?_⟩
    · obtain ⟨at_, queue, outq⟩ := submitRequest_reduce (e := s.env) (r := reduceRound (ctxOf c s) es s.hub.cmd.nextId (nowNs K)) absent rfl rfl
        ((canStart_congr xs).trans start)
      rw [State.settle_hub, roundAt_clean, Hub.clean_xs, Hub.clean_fab, eq]
      refine ⟨at_.trans ?_, queue.trans (by rw [xs]), outq.trans ?_⟩
      · rw [freeCtx_congr xs, now]
        rfl
      · rw [reduceRound_acc, redOut_congr time, redUp_congr xs, fab, die]
        rfl
    · obtain ⟨at_, queue, -, sent⟩ := submitRequest_waits (e := s.env) (r := reduceRound (ctxOf c s) es s.hub.cmd.nextId (nowNs K)) absent rfl
        ((canStart_congr xs).trans waits)
      rw [State.settle_hub, roundAt_clean, Hub.clean_xs, Hub.clean_fab, eq]
      exact ⟨⟨_, at_, reduceRound_acc .., rfl, rfl⟩, queue.trans (by rw [xs]), sent.trans fab⟩
  · exact op_refused_xs p (opNormReq_stranger (by simpa using stranger)) (by decide)
  · have act := opNormReq_begins (h := consumed c s) (c := ctxOf c s) (by simpa using member) (by simpa using idle)
    obtain ⟨t, K, run, prog, hK, rfl⟩ := op_progress p act (fun n h => (beginNorm_only ..).keep .cmd (by decide))
    have xs : K.xs = s.hub.xs := by rw [hK]; rfl
    have fab : K.fab = s.hub.fab := by rw [hK]; rfl
    have now : nowNs K = nowNs s.hub := by rw [hK]; rfl
    have absent : roundAt K 0 (c.n 1) (seqOfNorm (c.n 2)) = none := (roundAt_congr (by rw [xs]) ..).trans (roundAt_of_idle idle)
    refine ⟨_, run, prog, ?_, fun start => ?_, fun waits => ?_⟩
    · exact (beginNorm_fab (by simpa only [ctxOf_n] using absent)).trans fab
    · obtain ⟨at_, norms, -⟩ := submitRequest_norm (e := s.env) (r := normRound (ctxOf c s) s.hub.cmd.nextId (nowNs K)) absent rfl rfl
        ((canStart_congr xs).trans start)
      rw [State.settle_hub, roundAt_clean, Hub.clean_xs, beginNorm_submits]
      simp only [ctxOf_n]
      refine ⟨at_.trans ?_, norms.trans (by rw [xs]; rfl)⟩
      rw [freeCtx_congr xs, now]
      rfl
    · obtain ⟨-, queue, norms, -⟩ := submitRequest_waits (e := s.env) (r := normRound (ctxOf c s) s.hub.cmd.nextId (nowNs K)) absent rfl
        ((canStart_congr xs).trans waits)
      rw [State.settle_hub, Hub.clean_xs, beginNorm_submits]
      simp only [ctxOf_n]
      exact ⟨queue.trans (by rw [xs]), norms.trans (by rw [xs])⟩

end Sys2Proof.Machine
end

section
/-!
PROOF. The events of a member die's rounds (O35): a norm request is taken up, a round is given up, and its levels are freed.
-/
namespace Sys2Proof.Machine

/-! NORM_CONTRIBUTE (R238). -/

/-- A norm request waits no longer. -/
def dropNorm (n : NormWait) (h : Hub) : Hub := onXs (fun x => { x with norms := x.norms.filter (fun q => decide (q.pend ≠ n.pend)) }) h

section
variable {s : State} {g : BitVec 10} {n : NormWait} (die : s.env.tray = false) (w : working s.hub = true)
  (first : s.hub.xs.norms.find? (fun n => decide (n.group = g.toNat) && (egressFinal s.hub n.epoch || epochGone s.hub n.epoch)) = some n)
include die w first

/-- With the epoch and the round at hand the request's sum leaves for the tray. -/
theorem normContribute_sends {ep : Epoch} {r : Round} (held : epochOf s.hub n.epoch = some ep)
    (open_ : roundAt s.hub 0 n.group (seqOfNorm n.epoch.toNat) = some r) :
    exec (.normContribute g) s = .next (s.settle (dieContribute s.env 0
      { group := n.group, seq := seqOfNorm n.epoch.toNat, op := 3, level := 0, total := 1, elems := [.xa (normElem s.hub ep)] }
      (putRound 0 n.group (seqOfNorm n.epoch.toNat) { r with sent := true } (dropNorm n s.hub.clean)))) := by
  have found : s.hub.clean.xs.norms.find? (fun n => decide (n.group = g.toNat) && (egressFinal s.hub.clean n.epoch || epochGone s.hub.clean n.epoch)) =
    some n := first
  have runs : (!s.env.tray && working s.hub.clean) = true := by simp [die, w]
  have held' : epochOf (dropNorm n s.hub.clean) n.epoch = some ep := held
  have open' : roundAt (dropNorm n s.hub.clean) 0 n.group (seqOfNorm n.epoch.toNat) = some r := open_
  unfold dropNorm at held' open' ⊢
  show execNormContribute g s = _
  unfold execNormContribute
  rw [State.run_next]
  simp only [found, guard_pos runs, held', open']
  rfl

/-- Of an epoch held no longer only the record is made. -/
theorem normContribute_gone (gone : epochOf s.hub n.epoch = none) :
    exec (.normContribute g) s = .next (s.settle
      (emitUnit 25 (unitId s.env (dropNorm n s.hub.clean) 30) 30 [w32 n.group, n.epoch] (dropNorm n s.hub.clean))) := by
  have found : s.hub.clean.xs.norms.find? (fun n => decide (n.group = g.toNat) && (egressFinal s.hub.clean n.epoch || epochGone s.hub.clean n.epoch)) =
    some n := first
  have runs : (!s.env.tray && working s.hub.clean) = true := by simp [die, w]
  have gone' : epochOf (dropNorm n s.hub.clean) n.epoch = none := gone
  unfold dropNorm at gone' ⊢
  show execNormContribute g s = _
  unfold execNormContribute
  rw [State.run_next]
  simp only [found, guard_pos runs, gone']

end

/-! RESULT_TIMEOUT (R230, R240) and ROUND_LIFETIME_EXPIRY (R224, R243). -/

theorem resultTimeout_givesUp {s : State} {g q : BitVec 16} {r : Round} (die : s.env.tray = false) (w : working s.hub = true)
    (open_ : roundAt s.hub 0 g.toNat q.toNat = some r) (waits : (roundWait r).isSome = true)
    (late : r.opened + s.hub.xs.resultTimeout ≤ nowNs s.hub)
    (first : s.env.beaten evResult (r.opened + s.hub.xs.resultTimeout) (nowNs s.hub) = false) :
    exec (.resultTimeout g q) s = .next (s.settle (giveUp s.env g.toNat q.toNat r s.hub.clean)) := by
  show execResultTimeout g q s = _
  unfold execResultTimeout
  rw [State.run_next]
  simp [open_, die, w, waits, late, first]

/-- A round has reached the end of its lifetime. -/
def outlived (e : Env) (h : Hub) (r : Round) : Bool :=
  decide (r.opened + roundLifetime ≤ nowNs h) && !e.beaten evResult (r.opened + roundLifetime) (nowNs h)

/-- The levels whose part of a round has reached the end of its lifetime. -/
def oldLevels (e : Env) (h : Hub) (g q : Nat) : List (Nat × Round) :=
  ([0, 1, 2, 3].filterMap (fun l => (roundAt h l g q).map (fun r => (l, r)))).filter (fun p => outlived e h p.2)

theorem mem_oldLevels {e : Env} {h : Hub} {g q l : Nat} {r : Round} (lt : l < 4) (open_ : roundAt h l g q = some r) :
    l ∈ (oldLevels e h g q).map Prod.fst ↔ outlived e h r = true := by
  unfold oldLevels
  simp only [List.mem_map, List.mem_filter, List.mem_filterMap, Option.map_eq_some_iff]
  constructor
  · rintro ⟨p, ⟨⟨i, -, r', at_, rfl⟩, old⟩, rfl⟩
    rwa [Option.some.inj (open_.symm.trans at_)]
  · exact fun old => ⟨(l, r), ⟨⟨l, by simp; omega, r, open_, rfl⟩, old⟩, rfl⟩

/-- A round that ends without a result at one of its levels is recorded as expired. -/
def noteExpired (e : Env) (g q : BitVec 16) (h : Hub) : Hub :=
  if (oldLevels e h g.toNat q.toNat).any (fun p => !p.2.done) then emitUnit 24 (unitId e h 30) 30 [g.setWidth 32, q.setWidth 32] h else h

theorem noteExpired_only (e : Env) (g q : BitVec 16) (h : Hub) : Only [.regs, .log] h (noteExpired e g q h) :=
  Only.ite (emitUnit_only ..) (Only.refl _ _)

theorem roundLifetimeExpiry_frees {s : State} {g q : BitVec 16} (w : working s.hub = true) :
    exec (.roundLifetimeExpiry g q) s = .next (s.settle ((oldLevels s.env s.hub g.toNat q.toNat).foldl
      (fun h p => if p.1 = 0 then giveUp s.env g.toNat q.toNat p.2 h else dropRound p.1 g.toNat q.toNat h) (noteExpired s.env g q s.hub.clean))) := by
  have runs : working s.hub.clean = true := w
  show execRoundLifetimeExpiry g q s = _
  exact run_guard (b := fun _ h => working h) runs

/-- Settles O35: the first request that can be served by `normContribute_sends` and `normContribute_gone`, a timeout by `giveUp_rounds`, the
lifetime's end by `freeRounds`. -/
theorem memberRounds : Obligations.MemberRounds := by
  unfold Obligations.MemberRounds
  refine ⟨fun s g n die w first => ⟨fun ep r held open_ => ?_, fun gone => ?_⟩, fun s g q r die w open_ waits late first => ?_, fun s g q w => ?_⟩
  · refine ⟨_, normContribute_sends die w first held open_, ?_⟩
    rw [State.settle_hub, roundAt_clean, Hub.clean_xs, Hub.clean_fab, dieContribute_norms, dieContribute_rounds, roundAt_put_self, dieContribute_fab (by decide)]
    exact ⟨rfl, rfl, rfl⟩
  · refine ⟨_, normContribute_gone die w first gone, ?_⟩
    simp only [State.settle_hub, Hub.clean_xs, Hub.clean_fab, emitUnit_keeps]
    exact ⟨rfl, rfl, rfl⟩
  · refine ⟨_, resultTimeout_givesUp die w open_ waits late first, ?_, ?_⟩
    · rw [State.settle_hub, roundAt_clean, giveUp_rounds, roundAt_drop_self]
    · rw [State.settle_hub, Hub.clean_fab, giveUp_fab, Hub.clean_fab]
  · have noted := noteExpired_only s.env g q s.hub.clean
    obtain ⟨sent, left⟩ := freeRounds s.env g.toNat q.toNat (oldLevels s.env s.hub g.toNat q.toNat) (noteExpired s.env g q s.hub.clean)
    refine ⟨_, roundLifetimeExpiry_frees w, sent.trans (noted.keep .fab (by decide)), fun l r lt open_ => ?_⟩
    have level : roundAt (noteExpired s.env g q s.hub.clean) l g.toNat q.toNat = some r :=
      (roundAt_congr (congrArg XsU.rounds (noted.keep .xs (by decide))) ..).trans open_
    rw [State.settle_hub, roundAt_clean, left, level]
    refine if_congr ((mem_oldLevels lt open_).trans ?_) rfl rfl
    unfold outlived roundLifetime
    rw [Bool.and_eq_true, decide_eq_true_eq, Bool.not_eq_true']

end Sys2Proof.Machine
end

section
/-!
PROOF. What falls due in a round (O51): which levels are due, and whom a failed combiner's trays hear from.
-/
namespace Sys2Proof.Machine

/-- A round of a level whose cutoff has passed (R227, R229). -/
def cutoffDue (e : Env) (h : Hub) (l : Nat) (r : Round) : Bool :=
  decide (r.window ≠ 0) && cutoffPast h r (cutoffShare l) && !e.beaten evContribution (cutoffAt h (cutoffShare l)) (nowNs h)

/-- A round on demand whose wait is over; the root's goes on while a combiner is missing (R230). -/
def timeoutDue (e : Env) (g : Group) (h : Hub) (l : Nat) (r : Round) : Bool :=
  decide (r.window = 0) && decide (r.timer + h.xs.memberTimeout ≤ nowNs h) && !e.beaten evContribution (r.timer + h.xs.memberTimeout) (nowNs h) &&
    (decide (l ≠ 3) || (missingCombiners h g r).isEmpty)

/-- Where no rhizome is shared, what is due is sent and nothing follows. -/
theorem rhizAdvance_sendDue {e : Env} {g : Group} {group seq : Nat} {due : Nat → Round → Bool} {h : Hub} (alone : shardGroup h = none) :
    rhizAdvance e (sendDue e g group seq due h) = sendDue e g group seq due h :=
  rhizAdvance_none ((shardGroup_congr ((sendDue_only ..).keep .img (by decide))).trans alone)

section
variable {s : State} {group seq : BitVec 16} {g : Group}
  (grp : roundGroup s.hub group.toNat seq.toNat (roundOp s.hub group.toNat seq.toNat) = some g) (tray : s.env.tray = true) (sv : serving s.hub = true)
include grp tray sv

theorem reductionCutoff_sends (alone : shardGroup s.hub = none) :
    exec (.reductionCutoff group seq) s = .next (s.settle (sendDue s.env g group.toNat seq.toNat (cutoffDue s.env s.hub) s.hub.clean)) := by
  have grp' : roundGroup s.hub.clean group.toNat seq.toNat (roundOp s.hub.clean group.toNat seq.toNat) = some g := grp
  have runs : (s.env.tray && serving s.hub.clean) = true := by simp [tray, sv]
  show execReductionCutoff group seq s = _
  unfold execReductionCutoff
  rw [State.run_next]
  simp only [grp', guard_pos runs]
  exact congrArg (fun h => Host.Outcome.next (s.settle h)) (rhizAdvance_sendDue (h := s.hub.clean) alone)

theorem memberTimeout_sends (alone : shardGroup s.hub = none) :
    exec (.memberTimeout group seq) s = .next (s.settle (sendDue s.env g group.toNat seq.toNat (timeoutDue s.env g s.hub) s.hub.clean)) := by
  have grp' : roundGroup s.hub.clean group.toNat seq.toNat (roundOp s.hub.clean group.toNat seq.toNat) = some g := grp
  have runs : (s.env.tray && serving s.hub.clean) = true := by simp [tray, sv]
  show execMemberTimeout group seq s = _
  unfold execMemberTimeout
  rw [State.run_next]
  simp only [grp', guard_pos runs]
  exact congrArg (fun h => Host.Outcome.next (s.settle h)) (rhizAdvance_sendDue (h := s.hub.clean) alone)

end

/-! The tray level alone. -/

/-- Where a node serves a round at the tray level alone, what is due is its contribution. -/
theorem sendDue_tray {e : Env} {g : Group} {group seq : Nat} {due : Nat → Round → Bool} {h : Hub} {r : Round} (at_ : roundAt h 1 group seq = some r)
    (unsent : r.sent = false) (d : due 1 r = true)
    (above : ∀ l, l = 2 ∨ l = 3 → roundAt (traySend e g group seq r h) l group seq = none) :
    sendDue e g group seq due h = traySend e g group seq r h := by
  unfold sendDue
  dsimp only
  rw [sendDue_some at_ (by simp [unsent, d])]
  dsimp only
  rw [sendDue_none (above 2 (.inl rfl))]
  dsimp only
  rw [sendDue_none (above 3 (.inr rfl))]

/-! A combiner that has failed (R224). -/

/-- What the root asks of the trays of a failed combiner. -/
def redirectOf (group seq : Nat) (r : Round) (ts : List Nat) : Red :=
  { group := group, seq := seq, op := r.op.toNat, level := 3, redirect := true, geom := r.geom.toNat, total := r.total, cover := ts, window := r.window }

/-- Trays other than this one are sent the packet. -/
theorem redirects_others {e : Env} {g : Group} {m : Red} {tc flow : Nat} {b : List Byte} {ts : List Nat} {h : Hub} (others : myTray h ∉ ts) :
    ts.foldl (fun h t => if t = myTray h then redirected e g m h else photenSend 0 tc (2 ^ 17 + t) flow 0 b h) h =
      ts.foldl (fun h t => photenSend 0 tc (2 ^ 17 + t) flow 0 b h) h := by
  induction ts generalizing h with
  | nil => rfl
  | cons t ts ih =>
    obtain ⟨this, rest⟩ : myTray h ≠ t ∧ myTray h ∉ ts := by simpa using others
    have me : myTray (photenSend 0 tc (2 ^ 17 + t) flow 0 b h) = myTray h := congrArg Image.tray (imgOf_congr ((photenSend_only ..).keep .img (by decide)))
    rw [List.foldl_cons, List.foldl_cons, if_neg (Ne.symm this)]
    exact ih (by rwa [me])

/-- The root's round with a combiner declared failed, of which the trays `ts` are missing: its wait begins again. -/
def combinerFailed (e : Env) (group seq : BitVec 16) (c : Nat) (r : Round) (ts : List Nat) (h : Hub) : Hub :=
  let h := putRound 3 group.toNat seq.toNat { r with failed := r.failed ++ [2 ^ 17 + c], timer := nowNs h } h
  emitUnit 26 (unitId e h 30) 30 ([group.setWidth 32, seq.setWidth 32, w32 c] ++ ts.map w32) h

theorem combinerFailed_only (e : Env) (group seq : BitVec 16) (c : Nat) (r : Round) (ts : List Nat) (h : Hub) :
    Only [.regs, .log] (putRound 3 group.toNat seq.toNat { r with failed := r.failed ++ [2 ^ 17 + c], timer := nowNs h } h)
      (combinerFailed e group seq c r ts h) := emitUnit_only ..

/-- COMBINER_TIMEOUT declares the combiner failed, and asks its trays that are missing. -/
theorem combinerTimeout_asks {s : State} {group seq : BitVec 16} {combiner : BitVec 10} {g : Group} {r : Round}
    (grp : roundGroup s.hub group.toNat seq.toNat (roundOp s.hub group.toNat seq.toNat) = some g) (tray : s.env.tray = true) (sv : serving s.hub = true)
    (at_ : roundAt s.hub 3 group.toNat seq.toNat = some r) (unsent : r.sent = false) (missing : (missingCombiners s.hub g r).contains combiner.toNat = true)
    (late : r.timer + s.hub.xs.memberTimeout ≤ nowNs s.hub)
    (first : s.env.beaten evContribution (r.timer + s.hub.xs.memberTimeout) (nowNs s.hub) = false) {ts : List Nat}
    (asked : ts = (groupTrays g).filter (fun t => decide (combinerFor g t = some combiner.toNat) && !posDone r t)) :
    exec (.combinerTimeout group seq combiner) s = .next (s.settle (ts.foldl (fun h t =>
      if t = myTray h then redirected s.env g (redirectOf group.toNat seq.toNat r ts) h
      else photenSend 0 r.tc.toNat (2 ^ 17 + t) group.toNat 0 (redBody (redirectOf group.toNat seq.toNat r ts)) h)
      (combinerFailed s.env group seq combiner.toNat r ts s.hub.clean))) := by
  have grp' : roundGroup s.hub.clean group.toNat seq.toNat (roundOp s.hub.clean group.toNat seq.toNat) = some g := grp
  have at' : roundAt s.hub.clean 3 group.toNat seq.toNat = some r := at_
  have due : (s.env.tray && serving s.hub.clean && !r.sent && (missingCombiners s.hub.clean g r).contains combiner.toNat &&
      decide (r.timer + s.hub.clean.xs.memberTimeout ≤ nowNs s.hub.clean) &&
      !s.env.beaten evContribution (r.timer + s.hub.clean.xs.memberTimeout) (nowNs s.hub.clean)) = true := by
    have missing' : (missingCombiners s.hub.clean g r).contains combiner.toNat = true := missing
    simp only [tray, unsent, missing', serving_clean, sv, Hub.clean_xs, nowNs_clean, late, first]
    rfl
  rw [asked]
  show execCombinerTimeout group seq combiner s = _
  unfold execCombinerTimeout
  rw [State.run_next]
  simp only [grp', at', guard_pos due]
  rfl

/-- Settles O51: what is due by `sendDue_level`, a tray's contribution on demand by `traySend_demand`, a failed combiner's trays by
`photenSends_queues`. -/
theorem roundDeadlines : Obligations.RoundDeadlines := by
  unfold Obligations.RoundDeadlines
  refine ⟨fun s group seq g l r grp tray sv alone level below at_ unsent => ⟨fun periodic past first => ?_, fun demand late first combiners => ?_⟩,
    fun s group seq g r dst grp tray sv alone at_ two three unsent direct tc demand late first hd other => ?_,
    fun s group seq combiner g r ts grp tray sv at_ unsent missing tc late first asked others => ?_⟩
  · have due : cutoffDue s.env s.hub l r = true := by simp [cutoffDue, periodic, past, first]
    exact ⟨_, reductionCutoff_sends grp tray sv alone, sendDue_level (h := s.hub.clean) level below at_ unsent due⟩
  · have due : timeoutDue s.env g s.hub l r = true := by
      rcases combiners with n | n <;> simp [timeoutDue, demand, late, first, n]
    exact ⟨_, memberTimeout_sends grp tray sv alone, sendDue_level (h := s.hub.clean) level below at_ unsent due⟩
  · have due : timeoutDue s.env g s.hub 1 r = true := by simp [timeoutDue, demand, late, first]
    obtain ⟨rounds, fab⟩ := traySend_demand (e := s.env) (g := g) (group := group.toNat) (seq := seq.toNat) (h := s.hub.clean) demand direct tc hd other
    have above : ∀ l, l = 2 ∨ l = 3 → roundAt (traySend s.env g group.toNat seq.toNat r s.hub.clean) l group.toNat seq.toNat = none := by
      intro l hl
      rw [roundAt_congr rounds, roundAt_put_ne _ _ (by omega)]
      rcases hl with rfl | rfl
      · exact two
      · exact three
    refine ⟨_, memberTimeout_sends grp tray sv alone, ?_⟩
    rw [sendDue_tray (h := s.hub.clean) at_ unsent due above, State.settle_hub, roundAt_clean, Hub.clean_fab, roundAt_congr rounds, roundAt_put_self]
    exact ⟨rfl, fab⟩
  · have run := combinerTimeout_asks grp tray sv at_ unsent missing late first asked
    have o := combinerFailed_only s.env group seq combiner.toNat r ts s.hub.clean
    generalize combinerFailed s.env group seq combiner.toNat r ts s.hub.clean = k at run o
    have me : myTray k = myTray s.hub := congrArg Image.tray (imgOf_congr (o.keep .img (by decide)))
    have now : nowNs k = nowNs s.hub := nowNs_congr (o.keep .time (by decide))
    have fab : k.fab = s.hub.fab := o.keep .fab (by decide)
    have xs := o.keep .xs (by decide)
    refine ⟨_, run, ?_⟩
    rw [redirects_others (by rwa [me])]
    obtain ⟨queued, rounds⟩ := photenSends_queues (type := 0) (flow := group.toNat) (soff := 0) (b := redBody (redirectOf group.toNat seq.toNat r ts)) tc ts
      (fun t => 2 ^ 17 + t) k
    refine ⟨?_, ?_⟩
    · rw [State.settle_hub, roundAt_clean, roundAt_congr rounds, roundAt_congr (congrArg XsU.rounds xs), roundAt_put_self, nowNs_clean]
    · rw [State.settle_hub, Hub.clean_fab, queued, fab, now]
      rfl

end Sys2Proof.Machine
end

section
/-!
PROOF. Reduction messages that arrive (O52): what the port and the load told leave as it was, the operation a message comes to by its header,
and what that operation makes of the round.
-/
namespace Sys2Proof.Machine

/-! What of a hub decides how a message is met. -/

/-- Between two hubs only a packet has been counted and the load it tells noted (R232, R376). -/
structure Heard (h k : Hub) : Prop where
  only : Only [.xs, .fab] h k
  rounds : k.xs.rounds = h.xs.rounds
  dup : k.xs.dup = h.xs.dup
  span : k.xs.span = h.xs.span
  load : k.xs.load = h.xs.load
  outq : k.fab.outq = h.fab.outq

section
variable {h k : Hub} (a : Heard h k)
include a

theorem Heard.now : nowNs k = nowNs h := nowNs_congr (a.only.keep .time (by decide))
theorem Heard.img : imgOf k = imgOf h := imgOf_congr (a.only.keep .img (by decide))
theorem Heard.me : myTray k = myTray h := congrArg Image.tray a.img
theorem Heard.round (l g q : Nat) : roundAt k l g q = roundAt h l g q := roundAt_congr a.rounds ..
theorem Heard.scoring (g : Nat) : isScoring k g = isScoring h g := by
  unfold isScoring
  rw [a.img, a.only.keep .jobs (by decide)]
theorem Heard.members (g : Group) : trayMembers k g = trayMembers h g := by
  unfold trayMembers
  rw [a.me]
theorem Heard.cutoff (l : Nat) (m : Red) : afterCutoff k l m = afterCutoff h l m := by
  unfold afterCutoff cutoffAt
  rw [a.img, a.now, a.only.keep .casc (by decide)]
theorem Heard.room (e : Env) (g q : Nat) : roundRoom e k g q = roundRoom e h g q := by
  unfold roundRoom
  rw [a.rounds]
theorem Heard.new (g : Group) (m : Red) (tc : Nat) (exp : List Nat) : newRound k g m tc exp = newRound h g m tc exp := by
  unfold newRound
  rw [a.now, a.span]

end

/-- A reduction packet in order comes to `reduceRx` in a hub that has counted it, and its round's group is the same there with its load noted. -/
theorem redReceive_heard {s : State} {p : List Byte} {port : BitVec 6} {m : Red} {g : Group} (ok : photenOk s.env s.hub 0 p port.toNat = true)
    (alone : shardGroup s.hub = none) (grp : roundGroup s.hub m.group m.seq m.op = some g) :
    ∃ k, Heard s.hub.clean (noteLoad (photenFields p).src m k) ∧ roundGroup (noteLoad (photenFields p).src m k) m.group m.seq m.op = some g ∧
      redReceive p port s = .next (s.settle (reduceRx s.env (photenFields p) k)) := by
  obtain ⟨k, o, outq, run⟩ := redReceive_ok ok alone
  obtain ⟨rounds, dup, span, load⟩ := noteLoad_keeps (photenFields p).src m k
  have xs : k.xs = s.hub.xs := o.keep .xs (by decide)
  have fab : (noteLoad (photenFields p).src m k).fab = k.fab := (noteLoad_only ..).keep .fab (by decide)
  rw [xs] at rounds dup span load
  have both : Only [.xs, .fab] s.hub.clean (noteLoad (photenFields p).src m k) := Only.step (o.weaken rfl) (noteLoad_only ..) rfl
  exact ⟨k, ⟨both, rounds, dup, span, load, by rw [fab]; exact outq⟩, (roundGroup_congr both rounds ..).trans grp, run⟩

/-! The operation a message comes to (R220–R226). -/

section
variable {e : Env} {p : RxPkt} {m : Red} {g : Group} {h : Hub} (parse : redParse p.body = some m)
  (grp : roundGroup (noteLoad p.src m h) m.group m.seq m.op = some g)
include parse grp

theorem reduceRx_dieResult (die : e.tray = false) (res : m.result = true) : reduceRx e p h = dieResult e m (noteLoad p.src m h) := by
  simp [reduceRx, parse, grp, die, res]

section
variable (tray : e.tray = true)
include tray

theorem reduceRx_redirected (red : m.redirect = true) : reduceRx e p h = redirected e g m (noteLoad p.src m h) := by
  simp [reduceRx, parse, grp, tray, red]

theorem reduceRx_trayResult (red : m.redirect = false) (res : m.result = true)
    (plain : g.combiners.contains (myTray (noteLoad p.src m h)) = false) : reduceRx e p h = trayResult (noteLoad p.src m h) g p.tc m := by
  simp only [reduceRx, parse, grp, tray, red, res, plain]
  rfl

section
variable (red : m.redirect = false) (res : m.result = false)
include red res

theorem reduceRx_trayTake (level : m.level = 0) (job : isScoring (noteLoad p.src m h) m.group = false) :
    reduceRx e p h = trayTake e g p.src p.tc m (noteLoad p.src m h) := by
  simp [reduceRx, parse, grp, tray, red, res, level, job]

theorem reduceRx_combTake (level : m.level = 1) (mine : combinerFor g (p.src % 1024) = some (myTray (noteLoad p.src m h))) :
    reduceRx e p h = combTake e g p.src p.tc { m with cover := [p.src % 1024] } (noteLoad p.src m h) := by
  simp [reduceRx, parse, grp, tray, red, res, level, mine]

theorem reduceRx_rootTake (level : m.level = 2) (mine : g.root = myTray (noteLoad p.src m h)) :
    reduceRx e p h = rootTake e g p.src p.tc m (noteLoad p.src m h) := by
  simp [reduceRx, parse, grp, tray, red, res, level, mine]

end
end
end

/-! What it makes of the round. -/

/-! A die's message at its tray: of one that the open round expects, or of a member where none is open (R223). -/

theorem trayTake_expected {e : Env} {g : Group} {src tc : Nat} {m : Red} {h : Hub} {r : Round} (at_ : roundAt h 1 m.group m.seq = some r)
    (exp : r.expected.contains src = true) :
    trayTake e g src tc m h = levelTake e 1 src g (trayMembers h g) tc { m with cover := [src] } (traySend e g m.group m.seq) h := by
  unfold trayTake
  rw [at_]
  simp only [Option.map_some, Option.getD_some, exp]
  rfl

theorem trayTake_takes {e : Env} {g : Group} {src tc : Nat} {m : Red} {h : Hub} {r q : Round} (at_ : roundAt h 1 m.group m.seq = some r)
    (exp : r.expected.contains src = true) (cut : afterCutoff h 1 m = false) (taken : roundAccept r src { m with cover := [src] } = .taken q)
    (more : roundFull q = false) : trayTake e g src tc m h = putRound 1 m.group m.seq q h :=
  (trayTake_expected at_ exp).trans (levelTake_taken (m := { m with cover := [src] }) at_ cut taken more)

theorem trayTake_repeated {e : Env} {g : Group} {src tc : Nat} {m : Red} {h : Hub} {r : Round} (at_ : roundAt h 1 m.group m.seq = some r)
    (exp : r.expected.contains src = true) (cut : afterCutoff h 1 m = false) (dup : roundAccept r src { m with cover := [src] } = .dup) :
    trayTake e g src tc m h = onXs (fun x => { x with dup := x.dup + 1 }) h :=
  (trayTake_expected at_ exp).trans (levelTake_refused (m := { m with cover := [src] }) at_ cut dup (fun _ => Take.noConfusion))

theorem trayTake_opens {e : Env} {g : Group} {src tc : Nat} {m : Red} {h : Hub} {r : Round} (absent : roundAt h 1 m.group m.seq = none)
    (member : (trayMembers h g).contains src = true) (cut : afterCutoff h 1 m = false) (room : roundRoom e h m.group m.seq = true)
    (opened : r = roundTake (newRound h g m tc (trayMembers h g)) src { m with cover := [src] }) (more : roundFull r = false) :
    trayTake e g src tc m h = putRound 1 m.group m.seq r h := by
  subst opened
  unfold trayTake
  rw [absent]
  simp only [Option.map_none, Option.getD_none, member]
  exact levelTake_opens (m := { m with cover := [src] }) absent cut room more

/-! Results and redirects. -/

theorem dieResult_gathers {e : Env} {m : Red} {h : Hub} {r : Round} (at_ : roundAt h 0 m.group m.seq = some r) (op : r.op.toNat = m.op)
    (more : (resultTake r m).done = false) : dieResult e m h = putRound 0 m.group m.seq (resultTake r m) h := by
  unfold dieResult
  rw [at_]
  dsimp only
  rw [if_neg (not_not.mpr op), more, if_neg (by decide)]

theorem redSends_rounds (tc : Nat) (m : Red) (l : List Nat) (h : Hub) : (l.foldl (fun h d => redSend tc d m h) h).xs.rounds = h.xs.rounds := by
  induction l generalizing h with
  | nil => rfl
  | cons d l ih => exact (ih _).trans (redSend_rounds ..)

/-- A tray notes the result in its round and hands the packet to its member dies. -/
theorem trayResult_hands {h : Hub} {g : Group} {tc : Nat} {m : Red} {r : Round} (at_ : roundAt h 1 m.group m.seq = some r)
    (job : isScoring h m.group = false) (n : tc ≠ 3) :
    roundAt (trayResult h g tc m) 1 m.group m.seq = some { r with done := r.done || m.ends } ∧
      (trayResult h g tc m).fab.outq = h.fab.outq ++ (trayMembers h g).flatMap (fun d => redOut h tc d m) := by
  have eq : trayResult h g tc m =
      (trayMembers h g).foldl (fun h d => redSend tc d m h) (putRound 1 m.group m.seq { r with done := r.done || m.ends } h) := by
    unfold trayResult
    rw [at_]
    exact if_neg (by rw [show isScoring (putRound ..) m.group = _ from job]; decide)
  rw [eq, roundAt_congr (redSends_rounds ..), roundAt_put_self, redSends_queues n]
  exact ⟨rfl, rfl⟩

/-- A tray whose contribution is still to come will send it past its combiner. -/
theorem redirected_waits {e : Env} {g : Group} {m : Red} {h : Hub} {r : Round} (at_ : roundAt h 1 m.group m.seq = some r) (done : r.done = false)
    (unsent : r.sent = false) : redirected e g m h = putRound 1 m.group m.seq { r with direct := true } h := by
  unfold redirected
  rw [at_]
  simp [done, unsent]

/-- A tray that holds a contribution it has sent sends it to the root. -/
theorem redirected_sends {e : Env} {g : Group} {m : Red} {h : Hub} {r : Round} (at_ : roundAt h 1 m.group m.seq = some r) (done : r.done = false)
    (direct : r.direct = false) (kept : r.kept = false) (sent : r.sent = true) (other : g.root ≠ myTray h) :
    redirected e g m h = redSend r.tc.toNat (2 ^ 17 + g.root)
      { (upMessage h 1 m.group m.seq r [myTray h]) with incomplete := r.incomplete } (putRound 1 m.group m.seq { r with direct := true } h) := by
  unfold redirected
  rw [at_]
  simp only [done, direct, kept, sent, Bool.or_self, Bool.false_eq_true, if_false, if_true]
  exact if_neg other

theorem upMessage_congr {h k : Hub} (a : k.xs.load = h.xs.load) (l g q : Nat) (r : Round) (c : List Nat) : upMessage k l g q r c = upMessage h l g q r c := by
  unfold upMessage
  rw [a]

/-- Settles O52: a message comes to its operation by `redReceive_heard` and the lemma on its header, and what that makes of the round does not
turn on the load that the packet tells. -/
theorem reductionMessages : Obligations.ReductionMessages := by
  unfold Obligations.ReductionMessages
  refine ⟨fun s bytes port p m g ok alone hp parse res red tray grp => ?_, fun s bytes port p m g r ok alone hp parse res red grp => ?_,
    fun s bytes port p m g r ok alone hp parse red grp tray at_ done direct kept => ?_⟩ <;>
    subst hp <;> obtain ⟨k, heard, grp', run⟩ := redReceive_heard (port := port) ok alone grp
  · refine ⟨fun level job cut => ⟨fun r at_ exp => ⟨fun q taken more => ?_, fun dup => ?_⟩, fun r absent member room hr more => ?_⟩,
      fun r q level mine at_ cut taken more => ?_, fun r q level mine at_ cut taken more => ?_⟩
    · have rx := (reduceRx_trayTake parse grp' tray red res level ((heard.scoring _).trans job)).trans
        (trayTake_takes ((heard.round ..).trans at_) exp ((heard.cutoff ..).trans cut) taken more)
      exact ⟨_, run, by rw [rx]; exact roundAt_put_self .., (roundAccept_taken taken).2⟩
    · have rx := (reduceRx_trayTake parse grp' tray red res level ((heard.scoring _).trans job)).trans
        (trayTake_repeated ((heard.round ..).trans at_) exp ((heard.cutoff ..).trans cut) dup)
      exact ⟨_, run, by rw [rx]; exact (heard.round ..).trans at_, by rw [rx]; exact congrArg (· + 1) heard.dup⟩
    · have rx := (reduceRx_trayTake parse grp' tray red res level ((heard.scoring _).trans job)).trans
        (trayTake_opens ((heard.round ..).trans absent) (by rw [heard.members]; exact member) ((heard.cutoff ..).trans cut) ((heard.room ..).trans room)
          (by rw [heard.new, heard.members, hr]; rfl) more)
      exact ⟨_, run, by rw [rx]; exact roundAt_put_self ..⟩
    · have rx := reduceRx_combTake parse grp' tray red res level (mine.trans (congrArg some heard.me.symm))
      rw [combTake, levelTake_taken (m := { m with cover := [(photenFields bytes).src % 1024] }) ((heard.round ..).trans at_) ((heard.cutoff ..).trans cut)
        taken more] at rx
      exact ⟨_, run, by rw [rx]; exact roundAt_put_self ..⟩
    · have rx := reduceRx_rootTake parse grp' tray red res level (mine.trans heard.me.symm)
      rw [rootTake, levelTake_taken (r := r) ((heard.round ..).trans at_) ((heard.cutoff ..).trans cut) taken more] at rx
      exact ⟨_, run, by rw [rx]; exact roundAt_put_self ..⟩
  · refine ⟨fun die at_ op more => ?_, fun tray plain job at_ tc => ?_⟩
    · have rx := reduceRx_dieResult parse grp' die res
      rw [dieResult_gathers ((heard.round ..).trans at_) op more] at rx
      exact ⟨_, run, by rw [rx]; exact roundAt_put_self ..⟩
    · have rx := reduceRx_trayResult parse grp' tray red res (by rw [heard.me]; exact plain)
      obtain ⟨round, outq⟩ := trayResult_hands (g := g) ((heard.round ..).trans at_) ((heard.scoring _).trans job) tc
      refine ⟨_, run, by rw [rx]; exact round, ?_⟩
      rw [rx]
      refine outq.trans ?_
      rw [heard.outq, heard.members]
      simp only [redOut_congr heard.now]
      rfl
  · have rx := reduceRx_redirected parse grp' tray red
    refine ⟨fun unsent => ?_, fun sent other tc => ?_⟩
    · rw [redirected_waits ((heard.round ..).trans at_) done unsent] at rx
      exact ⟨_, run, by rw [rx]; exact roundAt_put_self .., by rw [rx]; exact heard.outq⟩
    · rw [redirected_sends ((heard.round ..).trans at_) done direct kept sent (by rw [heard.me]; exact other)] at rx
      refine ⟨_, run, by rw [rx]; exact (roundAt_redSend ..).trans (roundAt_put_self ..), ?_⟩
      rw [rx, State.settle_hub, Hub.clean_fab, redSend_queues tc, upMessage_congr heard.load, heard.me]
      exact congr (congrArg _ heard.outq) (redOut_congr heard.now ..)

end Sys2Proof.Machine
end

section
/-!
PROOF. The cascade's boundaries and expiries (O33): what a scan and a quick boundary leave once they have noted themselves, and each expiry by
its own lemma.
-/
namespace Sys2Proof.Machine

@[simp] theorem ensRuns_clean (e : Env) (h : Hub) : ensRuns e h.clean = ensRuns e h := rfl
@[simp] theorem policy_clean (h : Hub) : policy h.clean = policy h := rfl
@[simp] theorem coreId_clean (e : Env) (h : Hub) (c : Nat) : coreId e h.clean c = coreId e h c := rfl
@[simp] theorem testOf_clean (e : Env) (h : Hub) (k : Nat) : testOf e h.clean k = testOf e h k := rfl

/-- A step that changes one entity's judgement leaves every other's. -/
theorem settle_onEnt (s : State) (x : Word) (f : Ent → Ent) : entity (s.settle (onEnt x f s.hub.clean)).hub x = f (entity s.hub x) ∧
    ∀ y, y ≠ x → entity (s.settle (onEnt x f s.hub.clean)).hub y = entity s.hub y :=
  ⟨entity_onEnt_self x f s.hub.clean, fun _ n => entity_onEnt_ne f s.hub.clean n⟩

/-! The scan boundary (R262, R287). -/

/-- A scan boundary notes the multiple of P, and nothing that it does after that moves the boundaries last passed. -/
theorem scanBoundary_run {s : State} (die : s.env.tray = false) (w : working s.hub = true) (due : s.hub.casc.lastScan < scanTb s.hub) :
    ∃ k, exec .scanBoundary s = .next (s.settle k) ∧ SameScan (onCasc (fun c => { c with lastScan := scanTb s.hub }) s.hub.clean) k := by
  have occurs : (!s.env.tray && working s.hub.clean && decide (s.hub.clean.casc.lastScan < scanTb s.hub.clean)) = true := by
    rw [die, working_clean, w]
    exact decide_eq_true due
  show ∃ k, execScanBoundary s = _ ∧ _
  unfold execScanBoundary
  rw [State.run_next, guard_pos occurs]
  refine ⟨_, rfl, cascPass_scan (SameScan.named (fun tests => SameScan.ite (tests.step (startProbes_scan ..)) tests) ?_)
    (fun _ _ => (judgePass_scan ..).step (applyPass_scan ..))⟩
  refine SameScan.step (SameScan.step ?_ (boundaryVerdicts_scan ..)) (startTests_scan ..)
  refine SameScan.foldl (fun _ _ => regionScan_scan ..) _ ?_
  refine SameScan.step (SameScan.step ?_ (SameScan.of (claimedProbes_only ..) rfl)) (scanFeatures_scan ..)
  refine SameScan.foldl (fun _ _ => SameScan.of (latchExp_only ..) rfl) _ (SameScan.foldl (fun _ _ => applyReceived_scan ..) _ ?_)
  exact ((doSwaps_scan ..).step (finishActs_scan _)).step (takePolicy_scan _)

/-! The quick boundary (R288, R289). -/

/-- The quick scoring of these cores' spore flags, as acts. -/
def quickActs (e : Env) (cs : List Nat) (h : Hub) : Hub := cs.foldl (fun h c => quickAct e c h) h

/-- The region snapshots that a quick pass asks for, of these cores. -/
def askPartials (cs : List Nat) (h : Hub) : Hub :=
  (List.range 8).foldl (fun h r => askPartial r (cs.filter (fun c => decide (regionOf c = r))) h) h

theorem quickActs_only (e : Env) (cs : List Nat) (h : Hub) :
    Only [.regions, .cells, .hubc, .casc, .regs, .trc, .log, .reports] h (quickActs e cs h) :=
  Only.foldl (fun _ _ => quickAct_only ..) _ (Only.refl _ _)

theorem askPartials_only (cs : List Nat) (h : Hub) : Only [.regions, .cells] h (askPartials cs h) :=
  Only.foldl (fun _ _ => askPartial_only ..) _ (Only.refl _ _)

/-- A quick boundary has been noted. -/
def quickNoted (h : Hub) : Hub := onCasc (fun c => { c with lastQuick := quickTb h }) h.clean
@[simp] theorem quickEnts_noted (e : Env) (h : Hub) : quickEnts e (quickNoted h) = quickEnts e h := rfl

/-- What a quick boundary does once it has noted itself as `q`. -/
def quickServed (e : Env) (q : Nat) (h : Hub) : Hub :=
  let flags := (List.range 2048).filter (sporePending e h)
  if q % h.casc.p = 0 then h
  else if (quickEnts e h).isEmpty then quickActs e flags h
  else if h.ens.passes.any (fun p => p.use == .quick) then onCasc (fun c => { c with quickSkipped := c.quickSkipped + 1 }) h
  else
    let k := askPartials (flags.filter (flagged e h)) (quickActs e flags h)
    cascPass e (stageSlot k .frond) .quick (quickEnts e h) q (fun _ h => h) k

theorem exec_quickBoundary {s : State} (die : s.env.tray = false) (sv : serving s.hub = true) (due : s.hub.casc.lastQuick < quickTb s.hub) :
    exec .quickBoundary s = .next (s.settle (quickServed s.env (quickTb s.hub) (quickNoted s.hub))) := by
  have occurs : (!s.env.tray && serving s.hub.clean && decide (s.hub.clean.casc.lastQuick < quickTb s.hub.clean)) = true := by
    rw [die, serving_clean, sv]
    exact decide_eq_true due
  show execQuickBoundary s = _
  unfold execQuickBoundary
  rw [State.run_next, guard_pos occurs]
  rfl

section
variable {e : Env} {q : Nat} {h : Hub}

/-- A quick boundary that is a scan boundary serves nothing. -/
theorem quickServed_scan (scan : q % h.casc.p = 0) : quickServed e q h = h := if_pos scan

/-- One whose set is empty asks for no pass. -/
theorem quickServed_idle (empty : quickEnts e h = []) : (quickServed e q h).ens = h.ens := by
  unfold quickServed
  rw [empty]
  split
  · rfl
  · exact (quickActs_only ..).keep .ens (by decide)

/-- One that finds a quick pass running is counted as skipped. -/
theorem quickServed_skips (quick : q % h.casc.p ≠ 0) (set : quickEnts e h ≠ []) (running : h.ens.passes.any (fun p => p.use == .quick) = true) :
    quickServed e q h = onCasc (fun c => { c with quickSkipped := c.quickSkipped + 1 }) h := by
  unfold quickServed
  dsimp only
  rw [if_neg quick, if_neg (by simpa using set), if_pos running]

/-- Another asks for the quick pass of the frond slot over the set. -/
theorem quickServed_asks {i : Nat} {g : Gen} (die : e.tray = false) (quick : q % h.casc.p ≠ 0) (set : quickEnts e h ≠ [])
    (idle : h.ens.passes.any (fun p => p.use == .quick) = false) (slot : stageSlot h .frond = some i) (active : (slotAt h i).active = some g)
    (room : h.ens.passes.length < 8) :
    ∃ period seq, (quickServed e q h).ens.passes =
      h.ens.passes ++ [{ slot := i, use := .quick, todo := quickEnts e h, gen := g, tb := q, period := period, seq := seq }] := by
  unfold quickServed
  dsimp only
  rw [if_neg quick, if_neg (by simpa using set), if_neg (by simp [idle])]
  generalize hk : askPartials _ _ = k
  have ens : k.ens = h.ens := hk ▸ ((askPartials_only ..).keep .ens (by decide)).trans ((quickActs_only ..).keep .ens (by decide))
  have img : k.img = h.img := hk ▸ ((askPartials_only ..).keep .img (by decide)).trans ((quickActs_only ..).keep .img (by decide))
  have slot' : stageSlot k .frond = some i := by
    unfold stageSlot at slot ⊢
    rw [imgOf_congr img, slot]
  have taken := askPass_taken (e := e) (use := .quick) (tb := q) ((congrArg Slot.active (slotAt_congr ens i)).trans active) (by rw [ens]; exact room) (.inl die) set
  unfold cascPass
  rw [slot']
  dsimp only
  rw [taken]
  exact ⟨_, _, congrArg (fun u : EnsU => u.passes ++ _) ens⟩

end

/-! Floors and probations (R315, R316). -/

theorem exec_floorExpiry {s : State} {x : Word} (runs : ensRuns s.env s.hub = true) :
    exec (.floorExpiry x) s = .next (s.settle (onEnt x (fun y => { y with
      floors := y.floors.filter (fun f => decide (nowNs s.hub < f.tb + (policy s.hub).floorHold)) }) s.hub.clean)) := by
  show execFloorExpiry x s = _
  unfold execFloorExpiry
  rw [State.run_next, guard_pos (by exact runs)]
  rfl

section
variable {s : State} {x : Word} {d : Nat} (runs : ensRuns s.env s.hub = true) (probation : (entity s.hub x).verdict = 3)
  (until_ : (entity s.hub x).probEnd = some d) (past : d ≤ nowNs s.hub)
include runs probation until_ past

/-- A probation ends in WATCH, or is prolonged. -/
theorem exec_probationExpiry : exec (.probationExpiry x) s = .next (s.settle (
    if (entity s.hub x).calm ≥ (polRow s.hub x).dwellDown ∧ (floorsNow s.hub x).isEmpty ∧ (entity s.hub x).pendRem.isNone then setBase s.env x 1 0 s.hub.clean
    else onEnt x (fun y => { y with probEnd := some (nowNs s.hub + (policy s.hub).probation) }) s.hub.clean)) := by
  have occurs : (ensRuns s.env s.hub.clean && decide ((entity s.hub.clean x).verdict = 3) &&
      (entity s.hub.clean x).probEnd.any (fun t => decide (t ≤ nowNs s.hub.clean))) = true := by
    simp [runs, probation, until_, past]
  show execProbationExpiry x s = _
  unfold execProbationExpiry
  rw [State.run_next]
  dsimp only
  rw [guard_pos occurs]
  rfl

end

/-! Tests (R319, R321, R324). -/

theorem exec_periodicTestDue {s : State} {k : CoreNo} (present : s.env.present k.toNat = true) (runs : ensRuns s.env s.hub = true)
    (on : (policy s.hub).periodic ≠ 0) (past : (hubc s.hub k.toNat).lastTest + (policy s.hub).periodic ≤ nowNs s.hub) :
    exec (.periodicTestDue k) s = .next (s.settle (dueTest s.env k.toNat 0 none s.hub.clean)) := by
  have occurs : (s.env.present k.toNat && ensRuns s.env s.hub.clean && decide ((policy s.hub.clean).periodic ≠ 0) &&
      decide ((Machine.hubc s.hub.clean k.toNat).lastTest + (policy s.hub.clean).periodic ≤ nowNs s.hub.clean)) = true := by
    simp [present, runs, on, past]
  show execPeriodicTestDue k s = _
  unfold execPeriodicTestDue
  rw [State.run_next, guard_pos occurs]

/-- A test not started by its deadline is overdue; the raise of the audit rate that follows leaves every entity as it is. -/
theorem deferralDeadline_run {s : State} {k : CoreNo} {v : TestDue} (present : s.env.present k.toNat = true) (runs : ensRuns s.env s.hub = true)
    (due : (entity s.hub (coreId s.env s.hub k.toNat)).test = some v) (waits : v.running = none) (first : v.overdue = false)
    (past : v.deadline ≤ nowNs s.hub) (alone : s.env.beaten evStep v.deadline (nowNs s.hub) = false) :
    ∃ h, exec (.deferralDeadline k) s = .next (s.settle h) ∧ ∀ y, entity h y = entity (onEnt (coreId s.env s.hub k.toNat) (fun x => { x with
      test := some { v with overdue := true, noRaise := overruled s.env s.hub (coreId s.env s.hub k.toNat) } }) s.hub) y := by
  have occurs : (s.env.present k.toNat && ensRuns s.env s.hub.clean && v.running.isNone && !v.overdue && decide (v.deadline ≤ nowNs s.hub.clean) &&
      !s.env.beaten evStep v.deadline (nowNs s.hub.clean)) = true := by
    simp [present, runs, waits, first, past, alone]
  show ∃ h, execDeferralDeadline k s = _ ∧ _
  unfold execDeferralDeadline
  rw [State.run_next]
  dsimp only
  rw [show (entity s.hub.clean (coreId s.env s.hub.clean k.toNat)).test = some v from due]
  dsimp only
  rw [guard_pos occurs]
  exact ⟨_, rfl, fun y => autoAct_id_ent ..⟩

theorem exec_testHoldExpiry {s : State} {q : Word} {k lim : Nat} (core : testCore s.env s.hub q = some (k, lim)) (runs : ensRuns s.env s.hub = true)
    (past : lim ≤ nowNs s.hub) (alone : s.env.beaten evTestDone lim (nowNs s.hub) = false) :
    exec (.testHoldExpiry q) s = .next (s.settle (abortTest s.env k s.hub.clean)) := by
  have occurs : (ensRuns s.env s.hub.clean && decide (lim ≤ nowNs s.hub.clean) && !s.env.beaten evTestDone lim (nowNs s.hub.clean)) = true := by
    simp [runs, past, alone]
  show execTestHoldExpiry q s = _
  unfold execTestHoldExpiry
  rw [State.run_next, show testCore s.env s.hub.clean q = some (k, lim) from core]
  dsimp only
  rw [guard_pos occurs]

/-- Settles O33: each event by its own lemma, and what it leaves by the laws of boundaries, entities and tests. -/
theorem cascadeEvents : Obligations.CascadeEvents := by
  unfold Obligations.CascadeEvents
  refine ⟨fun s die w due => ?_, fun s die sv due => ?_, fun s x runs => ?_, fun s x d runs probation until_ past => ?_,
    fun s k present runs on past none_ out => ?_, fun s k v present runs due waits first past alone => ?_, fun s q k lim core runs past alone => ?_⟩
  · obtain ⟨k, run, scan⟩ := scanBoundary_run die w due
    exact ⟨_, run, scan.scan⟩
  · refine ⟨_, exec_quickBoundary die sv due, fun scan => ?_, fun empty => ?_, fun quick set running => ?_,
      fun i g quick set idle slot active room => ?_⟩
    · rw [State.settle_hub, Hub.clean_casc, Hub.clean_ens, quickServed_scan (h := quickNoted s.hub) scan]
      exact ⟨rfl, rfl⟩
    · exact quickServed_idle (h := quickNoted s.hub) ((quickEnts_noted ..).trans empty)
    · rw [State.settle_hub, Hub.clean_casc, Hub.clean_ens, quickServed_skips (h := quickNoted s.hub) quick (by rwa [quickEnts_noted]) running]
      exact ⟨rfl, rfl⟩
    · obtain ⟨period, seq, passes⟩ := quickServed_asks (h := quickNoted s.hub) die quick (by rwa [quickEnts_noted]) idle slot active room
      rw [State.settle_hub, Hub.clean_ens, passes, List.map_append, quickEnts_noted]
      rfl
  · exact ⟨_, exec_floorExpiry runs, settle_onEnt ..⟩
  · have run := exec_probationExpiry runs probation until_ past
    refine ⟨_, run, fun calm floors none_ => ?_, fun restless => ?_⟩
    · rw [State.settle_hub, entity_clean, if_pos ⟨calm, by simp [floorsNow, floors], by simp [none_]⟩]
      exact setBase_verdict floors
    · rw [if_neg (fun c => absurd c.1 (by omega))]
      exact settle_onEnt ..
  · refine ⟨_, exec_periodicTestDue present runs on past, ?_⟩
    rw [dueTest_idle (h := s.hub.clean) none_ out, coreId_clean]
    obtain ⟨own, others⟩ := settle_onEnt s (coreId s.env s.hub k.toNat) (fun y => { y with
      test := some { deadline := nowNs s.hub + (policy s.hub).deferral, ident := 0, cond := none } })
    exact ⟨congrArg Ent.test own, others⟩
  · obtain ⟨h, run, ents⟩ := deferralDeadline_run present runs due waits first past alone
    refine ⟨_, run, ?_, fun y => ?_⟩
    · rw [State.settle_hub, entity_clean, ents, entity_onEnt_self]
    · rw [State.settle_hub, entity_clean, ents, onEnt_judged _ _ _ _ rfl]
  · refine ⟨_, exec_testHoldExpiry core runs past alone, ?_⟩
    rw [State.settle_hub, testOf_clean, abortTest_test, testOf_clean]

end Sys2Proof.Machine
end

section
/-!
PROOF. The ensemble engine's commands (O36): what each command's answer leaves of the engine, and what its change does to slots, passes and rows.
-/
namespace Sys2Proof.Machine

theorem rowOf_congr {h k : Hub} (a : k.ens = h.ens) (x : Word) : rowOf k x = rowOf h x := by
  unfold rowOf
  rw [a]

/-! What a command leaves of the engine. -/

section
variable {d : OpDef} {c : Cmd} {s : State} {st det : Nat}

/-- A command answered at once leaves of the engine what its change has left. -/
theorem ensCmd_done {res : List Word} {k : Hub} {ps : List Piece} (p : passes d c s = true)
    (a : d.act s.env (consumed c s) (ctxOf c s) = .done st det res k) (b : st ≠ stBusy) (o : Only ps (consumed c s) k)
    (x : (ps.contains .cmd || ps.contains .prot) = false) :
    ∃ t, s.runOp d c = .next t ∧ Answered d.code st det res c s t ∧ t.hub.ens = k.ens := by
  obtain ⟨t, run, ans, left⟩ := op_kept p a b o x
  exact ⟨t, run, ans, left.keep .ens (by decide)⟩

/-- One that is refused changes nothing of it. -/
theorem ensCmd_refused (p : passes d c s = true) (a : d.act s.env (consumed c s) (ctxOf c s) = refuse st (consumed c s) det) (b : st ≠ stBusy) :
    ∃ t, s.runOp d c = .next t ∧ Answered d.code st det [] c s t ∧ t.hub.ens = s.hub.ens := by
  obtain ⟨t, run, ans, ens⟩ := ensCmd_done p a b (Only.refl [] _) rfl
  exact ⟨t, run, ans, ens.trans (by simp)⟩

/-- Nor does one that is BUSY. -/
theorem ensCmd_busy (p : passes d c s = true) (a : d.act s.env (consumed c s) (ctxOf c s) = refuse stBusy (consumed c s)) :
    ∃ t, s.runOp d c = .next t ∧ t.hub.ens = s.hub.ens :=
  ⟨_, op_busy p a, (replyOnly_only ..).keep .ens (by decide)⟩

end

/-! Swaps (R273–R276). -/

/-- The slot with a commanded swap that waits, in place of one that waited. -/
def Slot.awaits (rollback : Bool) (window : Option Word) (s : Slot) : Slot :=
  { s with swap := some { rollback := rollback, commanded := true, window := window } }

/-- A swap that is taken waits in its slot; no other slot changes. -/
theorem swapCmd_done {d : OpDef} {c : Cmd} {s : State} {rollback : Bool} {window : Option Word} {k : Hub} (p : passes d c s = true)
    (a : d.act s.env (consumed c s) (ctxOf c s) = ok [] (onSlot (c.n 1) (Slot.awaits rollback window) k))
    (o : Only [.casc, .regs, .log] (consumed c s) k) (slot : c.n 1 < s.hub.ens.slots.length) :
    ∃ t, s.runOp d c = .next t ∧ Answered d.code stOk 0 [] c s t ∧
      slotAt t.hub (c.n 1) = Slot.awaits rollback window (slotAt s.hub (c.n 1)) ∧ ∀ i, i ≠ c.n 1 → slotAt t.hub i = slotAt s.hub i := by
  obtain ⟨t, run, ans, ens⟩ := ensCmd_done p a (by decide) (Only.step (Only.weaken (qs := [.casc, .regs, .log]) (ps := [.ens, .casc, .regs, .log]) o rfl)
    (onSlot_only ..) rfl) rfl
  obtain ⟨own, others⟩ := slotAt_onSlot_only (f := Slot.awaits rollback window) (h := s.hub) ((o.keep .ens (by decide)).trans (by simp)) slot
  exact ⟨t, run, ans, (slotAt_congr ens _).trans own, fun i n => (slotAt_congr ens i).trans (others i n)⟩

section
variable {c : Cmd} {s : State} {g : Gen}

/-- ENS_ACTIVATE names a generation that is not STAGED. -/
theorem opEnsActivate_strange (strange : (slotAt s.hub (c.n 1)).staged.all (fun g => decide (g.num ≠ c.w 2)) = true) :
    opEnsActivate.act s.env (consumed c s) (ctxOf c s) = refuse stNotFound (consumed c s) 2 := by
  unfold opEnsActivate
  simp only [ctxOf_n, ctxOf_w, slotAt_consumed]
  cases staged : (slotAt s.hub (c.n 1)).staged with
  | none => rfl
  | some g =>
    rw [staged] at strange
    exact if_pos (by simpa using strange)

/-- ENS_ACTIVATE of the STAGED generation, by its checks. -/
theorem opEnsActivate_act (staged : (slotAt s.hub (c.n 1)).staged = some g) (num : g.num = c.w 2) :
    opEnsActivate.act s.env (consumed c s) (ctxOf c s) =
      if g.damaged then refuse stBadParam (consumed c s) 2
      else if (windowWord (ctxOf c s) 3).any (windowEnded s.hub) then refuse stWrongState (consumed c s) 3
      else if (slotAt s.hub (c.n 1)).swap.any Swap.commanded then refuse stBusy (consumed c s)
      else ok [] (onSlot (c.n 1) (Slot.awaits false (windowWord (ctxOf c s) 3)) (swapDone s.env (slotAt s.hub (c.n 1)).swap 1 (consumed c s))) := by
  unfold opEnsActivate
  simp only [ctxOf_n, ctxOf_w, slotAt_consumed, staged, windowEnded_consumed]
  exact if_neg (not_not_intro num)

/-- ENS_ROLLBACK of a slot without a PREVIOUS generation. -/
theorem opEnsRollback_strange (none_ : (slotAt s.hub (c.n 1)).previous = none) :
    opEnsRollback.act s.env (consumed c s) (ctxOf c s) = refuse stNotFound (consumed c s) 1 := by
  unfold opEnsRollback
  simp only [ctxOf_n, slotAt_consumed, none_]
  exact if_pos rfl

/-- A rollback ends the swap that it replaces: an activation as cancelled, recorded as such, an act's rollback as superseded. -/
def rollbackEnds (e : Env) (x : Word) (w : Option Swap) (h : Hub) : Hub :=
  if w.any (fun w => !w.rollback) then emitUnit 44 noEnt 24 [x] h else swapDone e w 1 h

theorem rollbackEnds_only (e : Env) (x : Word) (w : Option Swap) (h : Hub) : Only [.casc, .regs, .log] h (rollbackEnds e x w h) :=
  Only.ite (Only.weaken (emitUnit_only ..) rfl) (swapDone_only ..)

/-- ENS_ROLLBACK of the PREVIOUS generation, by its checks. -/
theorem opEnsRollback_act (previous : (slotAt s.hub (c.n 1)).previous = some g) :
    opEnsRollback.act s.env (consumed c s) (ctxOf c s) =
      if g.damaged then refuse stBadParam (consumed c s) 1
      else if (windowWord (ctxOf c s) 2).any (windowEnded s.hub) then refuse stWrongState (consumed c s) 2
      else if (slotAt s.hub (c.n 1)).swap.any (fun w => w.commanded && w.rollback) then refuse stBusy (consumed c s)
      else ok [] (onSlot (c.n 1) (Slot.awaits true (windowWord (ctxOf c s) 2))
        (rollbackEnds s.env (c.w 1) (slotAt s.hub (c.n 1)).swap (consumed c s))) := by
  unfold opEnsRollback
  simp only [ctxOf_n, ctxOf_w, slotAt_consumed, previous, windowEnded_consumed]
  rfl

end

/-! ENS_LOAD (R271). -/

/-- The load that an ENS_LOAD starts: it waits for its first read. -/
def loadOf (c : Cmd) (s : State) : Load :=
  { slot := c.n 1, addr := c.d 2, len := c.d 4, pend := s.hub.cmd.nextId, job := if (ctxOf c s).tenant then (ctxOf c s).job else none }

theorem ensLoad_run {c : Cmd} {s : State} (p : passes opEnsLoad c s = true) : ∃ t, exec (.ensLoad c) s = .next t ∧ InProgress 0x60 c t ∧
    t.hub.ens = { s.hub.ens with loads := s.hub.ens.loads ++ [loadOf c s] } := by
  obtain ⟨t, K, run, prog, hK, rfl⟩ := op_progress p rfl (fun n h => (pulseLine_only ..).keep .cmd (by decide))
  refine ⟨_, run, prog, ((pulseLine_only ..).keep .ens (by decide)).trans ?_⟩
  rw [hK]
  rfl

/-! ENS_RUN (R269). -/

/-- The pass that an ENS_RUN asks for, under the number of its reply. -/
def ensAsk (e : Env) (x : Ctx) (id : Nat) (h : Hub) : Asked :=
  askPass e (x.n 1) (.run id (x.d 2) (if x.tenant then x.job else none)) (x.from_ 4) (scoringTb e h) h

/-- The pass as it is pending. -/
def ensPass (c : Cmd) (s : State) (id : Nat) (g : Gen) : Pass :=
  { slot := c.n 1, use := .run id (c.d 2) (if (ctxOf c s).tenant then (ctxOf c s).job else none), todo := c.params.drop 3, gen := g
    tb := scoringTb s.env s.hub, period := s.hub.casc.p, seq := s.hub.ens.passNo }

section
variable {c : Cmd} {s : State} {g : Gen}

/-- The answer of an ENS_RUN whose entities have rows is that of the pass it asks for. -/
theorem opEnsRun_asks (rows : (if (ctxOf c s).tenant then none else firstWord 4 (c.params.drop 3) (hasRow s.env s.hub)) = none) :
    (ensAsk s.env (ctxOf c s) 0 (consumed c s) = .noGen → opEnsRun.act s.env (consumed c s) (ctxOf c s) = refuse stNotFound (consumed c s) 1) ∧
    (ensAsk s.env (ctxOf c s) 0 (consumed c s) = .full → opEnsRun.act s.env (consumed c s) (ctxOf c s) = refuse stBusy (consumed c s)) ∧
    ∀ k, ensAsk s.env (ctxOf c s) 0 (consumed c s) = .taken k → ∃ f, opEnsRun.act s.env (consumed c s) (ctxOf c s) = .later none f ∧
      (∀ id h, (f id h).cmd = h.cmd) ∧ ∀ id h l, ensAsk s.env (ctxOf c s) id h = .taken l → f id h = l := by
  rw [← hasRow_congr (show (consumed c s).ens = s.hub.ens by simp)] at rows
  unfold opEnsRun ensAsk
  simp only [show (ctxOf c s).from_ 4 = c.params.drop 3 from rfl, rows]
  refine ⟨fun noGen => by rw [noGen], fun full => by rw [full], fun k asked => ?_⟩
  rw [asked]
  refine ⟨_, rfl, fun id h => ?_, fun id h l taken => ?_⟩
  · split
    · exact (askPass_only (by assumption)).keep .cmd (by decide)
    · rfl
  · rw [taken]

theorem ensAsk_noGen {e : Env} {x : Ctx} {id : Nat} {h : Hub} (active : (slotAt h (x.n 1)).active = none) : ensAsk e x id h = .noGen :=
  askPass_noGen active

theorem ensAsk_full {id : Nat} {h : Hub} (ens : h.ens = s.hub.ens) (active : (slotAt s.hub (c.n 1)).active = some g) (named : c.params.drop 3 ≠ [])
    (full : 8 ≤ s.hub.ens.passes.length) : ensAsk s.env (ctxOf c s) id h = .full :=
  askPass_full ((congrArg Slot.active (slotAt_congr ens _)).trans active) (by rwa [ens]) named

/-- With room, the pass is taken as it is asked for. -/
theorem ensAsk_taken {id : Nat} {h : Hub} (ens : h.ens = s.hub.ens) (casc : h.casc = s.hub.casc) (active : (slotAt s.hub (c.n 1)).active = some g)
    (named : c.params.drop 3 ≠ []) (room : s.hub.ens.passes.length < 8) (plain : s.env.tray = false ∨ (ctxOf c s).tenant = true ∧ (ctxOf c s).job.isSome = true) :
    ∃ l, ensAsk s.env (ctxOf c s) id h = .taken l ∧ l.ens.passes = s.hub.ens.passes ++ [ensPass c s id g] := by
  have job : s.env.tray = false ∨ (PassUse.run id (c.d 2) (if (ctxOf c s).tenant then (ctxOf c s).job else none)).tenantJob.isSome = true :=
    plain.imp_right (fun t => by rw [if_pos t.1]; exact t.2)
  refine ⟨_, askPass_taken ((congrArg Slot.active (slotAt_congr ens _)).trans active) (by rwa [ens]) job named, ?_⟩
  show h.ens.passes ++ [_] = _
  rw [scoringTb_congr casc, casc, ens]
  rfl

end

/-! FEAT_WRITE (R262, R268, R278). -/

section
variable {c : Cmd} {s : State}

/-- The row of a TENANT's job with the command's words put in it. -/
def tenantWritten (c : Cmd) (x : Ctx) (u : EnsU) : EnsU :=
  { u with tenant := Tab.put u.tenant (tenantKey (x.job.getD 0) (c.n 1)) { Tab.getD u.tenant (tenantKey (x.job.getD 0) (c.n 1)) {} with
      words := ((c.params.drop 2).zipIdx).foldl (fun t p => Tab.put t (c.n 2 + p.2) p.1)
        (Tab.getD u.tenant (tenantKey (x.job.getD 0) (c.n 1)) {}).words } }

theorem opFeatWrite_tenant (tenant : (ctxOf c s).tenant = true) :
    opFeatWrite.act s.env (consumed c s) (ctxOf c s) = ok [] (onEns (tenantWritten c (ctxOf c s)) (consumed c s)) := if_pos tenant

theorem opFeatWrite_strange (own : (ctxOf c s).tenant = false) (strange : hasRow s.env s.hub (c.w 1) = false) :
    opFeatWrite.act s.env (consumed c s) (ctxOf c s) = refuse stNotFound (consumed c s) 1 := by
  rw [← hasRow_congr (show (consumed c s).ens = s.hub.ens by simp)] at strange
  unfold opFeatWrite
  simp [own, strange]

theorem opFeatWrite_row {r : Row} (own : (ctxOf c s).tenant = false) (has : hasRow s.env s.hub (c.w 1) = true) (row : rowOf (consumed c s) (c.w 1) = some r) :
    opFeatWrite.act s.env (consumed c s) (ctxOf c s) = ok [] (featWrites s.env (c.w 1) (c.n 2) (c.params.drop 2) (consumed c s)) := by
  rw [← hasRow_congr (show (consumed c s).ens = s.hub.ens by simp)] at has
  unfold opFeatWrite
  simp [own, has, row]

end

/-- Settles O36: each command's change by its own lemma, and what it leaves of the engine by `ensCmd_done`, `ensCmd_refused` and `ensCmd_busy`. -/
theorem ensembleCommands : Obligations.EnsembleCommands := by
  unfold Obligations.EnsembleCommands
  refine ⟨fun c s p => ensLoad_run p,
    fun c s p slot => ⟨fun strange => ?_, fun g staged num => ⟨fun bad => ?_, fun good late => ?_, fun good inTime => ⟨fun waits => ?_, fun free => ?_⟩⟩⟩,
    fun c s p slot => ⟨fun none_ => ?_, fun g previous => ⟨fun bad => ?_, fun good late => ?_, fun good inTime => ⟨fun waits => ?_, fun free => ?_⟩⟩⟩,
    fun c s p rows => ⟨fun none_ => ?_, fun g active named => ⟨fun full => ?_, fun room plain => ?_⟩⟩,
    fun c s p => ⟨fun tenant => ?_, fun own strange => ?_, fun r own has row valid => ?_⟩⟩
  · exact ensCmd_refused p (opEnsActivate_strange strange) (by decide)
  · exact ensCmd_refused p ((opEnsActivate_act staged num).trans (if_pos bad)) (by decide)
  · exact ensCmd_refused p ((opEnsActivate_act staged num).trans (by rw [good, if_pos late]; rfl)) (by decide)
  · exact ensCmd_busy p ((opEnsActivate_act staged num).trans (by rw [good, inTime, if_pos waits]; rfl))
  · exact swapCmd_done p ((opEnsActivate_act staged num).trans (by rw [good, inTime, free]; rfl)) (swapDone_only ..) slot
  · exact ensCmd_refused p (opEnsRollback_strange none_) (by decide)
  · exact ensCmd_refused p ((opEnsRollback_act previous).trans (if_pos bad)) (by decide)
  · exact ensCmd_refused p ((opEnsRollback_act previous).trans (by rw [good, if_pos late]; rfl)) (by decide)
  · exact ensCmd_busy p ((opEnsRollback_act previous).trans (by rw [good, inTime, if_pos waits]; rfl))
  · exact swapCmd_done p ((opEnsRollback_act previous).trans (by rw [good, inTime, free]; rfl)) (rollbackEnds_only ..) slot
  · exact ensCmd_refused p ((opEnsRun_asks rows).1 (ensAsk_noGen (by simpa using none_))) (by decide)
  · exact ensCmd_busy p ((opEnsRun_asks rows).2.1 (ensAsk_full (by simp) active named full))
  · obtain ⟨-, -, starts⟩ := opEnsRun_asks rows
    obtain ⟨k, asked, -⟩ := ensAsk_taken (id := 0) (h := consumed c s) (by simp) (by simp) active named room plain
    obtain ⟨f, act, cmd, gives⟩ := starts k asked
    obtain ⟨t, K, run, prog, hK, rfl⟩ := op_progress p act cmd
    obtain ⟨l, taken, pending⟩ := ensAsk_taken (id := s.hub.cmd.nextId) (h := K) (by rw [hK]; rfl) (by rw [hK]; rfl) active named room plain
    refine ⟨_, run, prog, ?_⟩
    rw [State.settle_hub, Hub.clean_ens, gives _ _ _ taken, pending]
    rfl
  · obtain ⟨t, run, ans, ens⟩ := ensCmd_done p (opFeatWrite_tenant tenant) (by decide) (onEns_only ..) rfl
    have written : t.hub.ens = tenantWritten c (ctxOf c s) s.hub.ens := ens.trans (congrArg (tenantWritten c (ctxOf c s)) (by simp))
    refine ⟨t, run, ans, by rw [written]; rfl, fun n => ?_⟩
    rw [written]
    simp only [tenantWritten, Tab.getD_put_self]
    exact Tab.find_putList ..
  · exact ensCmd_refused p (opFeatWrite_strange own strange) (by decide)
  · have row' : rowOf (consumed c s) (c.w 1) = some r := (rowOf_congr (by simp) _).trans row
    obtain ⟨t, run, ans, ens⟩ := ensCmd_done p (opFeatWrite_row own has row') (by decide) (featWrites_only ..) rfl
    obtain ⟨⟨q, at_, st, -, dirty, words⟩, others⟩ := featWrites_valid (e := s.env) (i := c.n 2) (c.params.drop 2) row' valid
    exact ⟨t, run, ans, ⟨q, (rowOf_congr ens _).trans at_, st, dirty, words⟩,
      fun y n => (rowOf_congr ens y).trans ((others y n).trans (rowOf_congr (by simp) y))⟩

end Sys2Proof.Machine
end

section
/-!
PROOF. The reads of an ensemble load and the scrubber (O37): what each read makes of the load that it is for, and what the scrubber makes of a
generation.
-/
namespace Sys2Proof.Machine

/-! The first read (R271, R272). -/

/-- A load has ended. -/
def endLoad (l : Load) (h : Hub) : Hub := onEns (fun u => { u with loads := u.loads.filter (fun q => decide (q.pend ≠ l.pend)) }) h

/-- The slot of a load whose first read is good: its STAGED generation is freed, and an activation of it that waited. -/
def Slot.freed (x : Slot) : Slot := { x with staged := none, swap := x.swap.filter Swap.rollback }

/-- The first read of a load that cannot be read, or fails a check, ends it with a reply. -/
theorem firstRead_fails {s : State} {l : Load} (at_ : s.hub.ens.loads.find? (fun l => l.gen.isNone) = some l) (runs : ensRuns s.env s.hub = true)
    (bad : ∀ b, readMem s.env s.hub.clean l.addr l.len = some b → imageCheck s.hub l.slot l.len l.job b ≠ stOk) :
    ∃ st det, exec .ensLoadFirstReadDone s =
      .next (s.settle (finish s.env l.pend st det [] (loadSeen s.hub l) (endLoad l s.hub.clean))) := by
  show ∃ st det, execEnsLoadFirstReadDone s = _
  unfold execEnsLoadFirstReadDone
  rw [State.run_next, Hub.clean_ens, at_]
  dsimp only
  rw [guard_pos (by exact runs)]
  cases read : readMem s.env s.hub.clean l.addr l.len with
  | none => exact ⟨_, _, rfl⟩
  | some b =>
    dsimp only
    rw [if_pos (by exact bad b read)]
    exact ⟨_, _, rfl⟩

/-- The engine once a load's first read is good: the load holds the image's generation, on pages that are free then. -/
def EnsU.held (l : Load) (b : List Byte) (h : Hub) : EnsU :=
  { (onSlot l.slot Slot.freed h).ens with loads := h.ens.loads.map (fun q => if q.pend = l.pend then
      { q with gen := some (withPages (onSlot l.slot Slot.freed h) (imageGen b)), crc := w32 (leAt b 12 4) } else q) }

/-- The slot is freed in two steps. -/
theorem Slot.freed_eq : (fun x : Slot => { { x with staged := none } with
    swap := ({ x with staged := none } : Slot).swap.bind (fun w => if w.rollback then some w else none) }) = Slot.freed := by
  funext x
  unfold Slot.freed
  cases x.swap <;> rfl

/-- What the first read does to the slot, on a hub whose engine is `h`'s. -/
theorem freed_of {i : Nat} {h k : Hub} (ens : k.ens = h.ens) (slot : i < h.ens.slots.length) :
    (onSlot i (fun x => { x with swap := x.swap.bind (fun w => if w.rollback then some w else none) })
      (onSlot i (fun x => { x with staged := none }) k)).ens = (onSlot i Slot.freed h).ens := by
  have freed := onSlot_onSlot (f := fun x : Slot => { x with staged := none })
    (g := fun x => { x with swap := x.swap.bind (fun w => if w.rollback then some w else none) }) ens slot
  rwa [Slot.freed_eq] at freed

/-- What the first read does to the load, on a hub in which its slot is freed. -/
theorem held_of {l : Load} {b : List Byte} {h m : Hub} (freed : m.ens = (onSlot l.slot Slot.freed h).ens) :
    (onEns (fun u => { u with loads := u.loads.map (fun q => if q.pend = l.pend then
      { q with gen := some (withPages m (imageGen b)), crc := w32 (leAt b 12 4) } else q) }) m).ens = EnsU.held l b h := by
  unfold EnsU.held onEns
  dsimp only
  rw [withPages_congr freed, freed]
  rfl

/-- The first read of a load that passes every check. -/
theorem firstRead_passes {s : State} {l : Load} {b : List Byte} (at_ : s.hub.ens.loads.find? (fun l => l.gen.isNone) = some l)
    (runs : ensRuns s.env s.hub = true) (read : readMem s.env s.hub.clean l.addr l.len = some b) (good : imageCheck s.hub l.slot l.len l.job b = stOk)
    (slot : l.slot < s.hub.ens.slots.length) :
    ∃ t, exec .ensLoadFirstReadDone s = .next t ∧ t.hub.ens = EnsU.held l b s.hub := by
  show ∃ t, execEnsLoadFirstReadDone s = _ ∧ _
  unfold execEnsLoadFirstReadDone
  rw [State.run_next, Hub.clean_ens, at_]
  dsimp only
  rw [guard_pos (by exact runs), read]
  dsimp only
  rw [if_neg (not_not_intro (by exact good))]
  refine ⟨_, rfl, held_of (freed_of ?_ slot)⟩
  have pulsed : (pulseLine 2 s.hub.clean).ens = s.hub.ens := (pulseLine_only ..).keep .ens (by decide)
  split
  · exact ((slotRecord_only ..).keep .ens (by decide)).trans pulsed
  · exact pulsed

/-! The second read (R271). -/

/-- A change of the engine speaks of the engine only. -/
theorem onEns_congr {f : EnsU → EnsU} {h k : Hub} (ens : k.ens = h.ens) : (onEns f k).ens = (onEns f h).ens := congrArg f ens
theorem onSlot_congr {i : Nat} {f : Slot → Slot} {h k : Hub} (ens : k.ens = h.ens) : (onSlot i f k).ens = (onSlot i f h).ens := by
  unfold onSlot onEns
  dsimp only
  rw [slotAt_congr ens, ens]

/-- The reply at the end of a load leaves the engine as it is. -/
theorem finish_ens (e : Env) (p st det : Nat) (ws : List Word) (seen : Bool) (h : Hub) : (finish e p st det ws seen h).ens = h.ens :=
  (finish_only ..).keep .ens (by decide)

/-- The second read of a load stages its generation when the image still has its CRC. -/
theorem secondRead_stages {s : State} {l : Load} {b : List Byte} (at_ : s.hub.ens.loads.find? (fun l => l.gen.isSome) = some l)
    (runs : ensRuns s.env s.hub = true) (read : readMem s.env s.hub.clean l.addr l.len = some b) (same : imageCrc b = l.crc.toNat) :
    ∃ t, exec .ensLoadSecondReadDone s = .next t ∧
      t.hub.ens = (onSlot l.slot (fun x => { x with staged := l.gen }) (endLoad l s.hub)).ens := by
  have read : readMem s.env (endLoad l s.hub.clean) l.addr l.len = some b := read
  show ∃ t, execEnsLoadSecondReadDone s = _ ∧ _
  unfold execEnsLoadSecondReadDone
  rw [State.run_next, Hub.clean_ens, at_]
  dsimp only
  rw [guard_pos (by exact runs), if_pos]
  · refine ⟨_, rfl, ?_⟩
    rw [State.settle_hub, Hub.clean_ens]
    exact finish_ens ..
  · split
    · next found => exact decide_eq_true ((congrArg imageCrc (Option.some.inj (found.symm.trans read))).trans same)
    · next unread => cases unread.symm.trans read

/-- The second read of a load whose image changed, or cannot be read, ends the load. -/
theorem secondRead_fails {s : State} {l : Load} (at_ : s.hub.ens.loads.find? (fun l => l.gen.isSome) = some l)
    (runs : ensRuns s.env s.hub = true) (bad : ∀ b, readMem s.env s.hub.clean l.addr l.len = some b → imageCrc b ≠ l.crc.toNat) :
    ∃ t, exec .ensLoadSecondReadDone s = .next t ∧ t.hub.ens = (endLoad l s.hub).ens := by
  have bad : ∀ b, readMem s.env (endLoad l s.hub.clean) l.addr l.len = some b → imageCrc b ≠ l.crc.toNat := bad
  show ∃ t, execEnsLoadSecondReadDone s = _ ∧ _
  unfold execEnsLoadSecondReadDone
  rw [State.run_next, Hub.clean_ens, at_]
  dsimp only
  rw [guard_pos (by exact runs), if_neg]
  · refine ⟨_, rfl, ?_⟩
    rw [State.settle_hub, Hub.clean_ens]
    exact finish_ens ..
  · split
    · exact fun same => bad _ (by assumption) (of_decide_eq_true same)
    · exact Bool.false_ne_true

/-! The scrubber (R248). -/

/-- A generation that is put in a slot is the slot's. -/
theorem slotGen_putGen (x : Slot) (g : GenSel) (y : Gen) : slotGen (putGen x g y) g = some y := by cases g <;> rfl

/-- A generation that the scrubber finds uncorrectable words in. -/
def Gen.damagedBy (bad : List (Nat × Nat)) (x : Gen) : Gen := { x with bad := x.bad ++ bad, damaged := true }

/-- The engine with the words that the scrubber found counted. -/
def scrubbed (n : BitVec 32) (bad : List (Nat × Nat)) (h : Hub) : Hub :=
  onEns (fun u => { u with corr := u.corr + n.toNat, uncorr := u.uncorr + bad.length }) h

/-- The passes that a damaged generation scores, damaged with it. -/
def damagePasses (i : Nat) (x y : Gen) (h : Hub) : Hub :=
  onEns (fun u => { u with passes := u.passes.map (fun p => if p.slot = i ∧ p.gen.num = x.num then { p with gen := y } else p) }) h

/-- The scrubber that finds nothing uncorrectable. -/
theorem scrub_counts {s : State} {i : BitVec 4} {g : GenSel} {n : BitVec 32} {x : Gen} (at_ : slotGen (slotAt s.hub i.toNat) g = some x)
    (al : alive s.hub = true) : exec (.nodeMemoryScrub i g n []) s = .next (s.settle (scrubbed n [] s.hub.clean)) := by
  show execNodeMemoryScrub i g n [] s = _
  unfold execNodeMemoryScrub
  rw [State.run_next, slotAt_clean, at_]
  dsimp only
  rw [guard_pos (by exact al)]
  rfl

/-- The scrubber that finds uncorrectable words. -/
theorem scrub_damages {s : State} {i : BitVec 4} {g : GenSel} {n : BitVec 32} {x : Gen} {bad : List (Nat × Nat)}
    (at_ : slotGen (slotAt s.hub i.toNat) g = some x) (al : alive s.hub = true) (found : bad ≠ []) :
    ∃ t, exec (.nodeMemoryScrub i g n bad) s = .next t ∧ t.hub.ens =
      (onSlot i.toNat (fun q => putGen q g (x.damagedBy bad)) (damagePasses i.toNat x (x.damagedBy bad) (scrubbed n bad s.hub))).ens := by
  show ∃ t, execNodeMemoryScrub i g n bad s = _ ∧ _
  unfold execNodeMemoryScrub
  rw [State.run_next, slotAt_clean, at_]
  dsimp only
  rw [guard_pos (by exact al), if_neg (by simpa using found)]
  refine ⟨_, rfl, ?_⟩
  rw [State.settle_hub, Hub.clean_ens]
  exact onSlot_congr (onEns_congr ((emit_only ..).keep .ens (by decide)))

/-- What the scrubber damages is the generation in its slot and in its passes. -/
theorem scrub_leaves {i : Nat} {g : GenSel} {n : BitVec 32} {x y : Gen} {bad : List (Nat × Nat)} {t h : Hub}
    (ens : t.ens = (onSlot i (fun q => putGen q g y) (damagePasses i x y (scrubbed n bad h))).ens) (slot : i < h.ens.slots.length) :
    t.ens.corr = h.ens.corr + n.toNat ∧ t.ens.uncorr = h.ens.uncorr + bad.length ∧ slotGen (slotAt t i) g = some y ∧
      (∀ j, j ≠ i → slotAt t j = slotAt h j) ∧
      t.ens.passes = h.ens.passes.map (fun p => if p.slot = i ∧ p.gen.num = x.num then { p with gen := y } else p) := by
  refine ⟨by rw [ens]; rfl, by rw [ens]; rfl, ?_, fun j ne => ?_, by rw [ens]; rfl⟩
  · rw [slotAt_congr ens, slotAt_onSlot (by exact slot), slotGen_putGen]
  · rw [slotAt_congr ens, slotAt_onSlot_ne ne]
    rfl

/-- Settles O37: each read makes of its load what `firstRead_…` and `secondRead_…` say, and the scrubber of its generation what `scrub_…` says. -/
theorem ensembleLoads : Obligations.EnsembleLoads := by
  unfold Obligations.EnsembleLoads
  refine ⟨fun s l at_ runs => ⟨fun bad => ?_, fun b read good slot => ?_⟩, fun s l at_ runs => ⟨fun b read same slot => ?_, fun bad => ?_⟩,
    fun s i g n x at_ al => ⟨?_, fun bad found slot => ?_⟩⟩
  · obtain ⟨st, det, run⟩ := firstRead_fails at_ runs bad
    refine ⟨_, run, ?_⟩
    rw [State.settle_hub, Hub.clean_ens, finish_ens]
    rfl
  · obtain ⟨t, run, ens⟩ := firstRead_passes at_ runs read good slot
    refine ⟨t, run, ?_, fun j ne => ?_, by rw [ens]; rfl⟩
    · exact (show slotAt t.hub l.slot = slotAt (onSlot l.slot Slot.freed s.hub) l.slot by unfold slotAt; rw [ens]; rfl).trans (slotAt_onSlot slot)
    · exact (show slotAt t.hub j = slotAt (onSlot l.slot Slot.freed s.hub) j by unfold slotAt; rw [ens]; rfl).trans (slotAt_onSlot_ne ne)
  · obtain ⟨t, run, ens⟩ := secondRead_stages at_ runs read same
    obtain ⟨staged, others⟩ := slotAt_onSlot_only (f := fun x => { x with staged := l.gen }) (rfl : (endLoad l s.hub).ens = _) slot
    refine ⟨t, run, by rw [ens]; rfl, (slotAt_congr ens _).trans staged, fun j ne => (slotAt_congr ens j).trans (others j ne)⟩
  · exact secondRead_fails at_ runs bad
  · exact ⟨_, scrub_counts at_ al, rfl⟩
  · obtain ⟨t, run, ens⟩ := scrub_damages at_ al found
    exact ⟨t, run, scrub_leaves ens slot⟩

end Sys2Proof.Machine
end

section
/-!
PROOF. Samples, passes and cached rows (O38): the sample issued next, the pass that ends, a row's fill and write-back, and the sample that
waits too long.
-/
namespace Sys2Proof.Machine

/-! Samples and their waits (R255, R263, R265). -/

/-- In die role nothing is assembled. -/
theorem assembleAll_die {e : Env} {h : Hub} (die : e.tray = false) : assembleAll e h = h := if_neg (by simp [die])

/-- The sample issued next, once its guard holds. -/
theorem sampleComplete_eq {s : State} {p : Pass} {i : Nat} {x : Word} (runs : ensRuns s.env s.hub = true)
    (next : nextSample s.env (assembleAll s.env s.hub.clean) = some (p, i, x)) :
    exec .sampleComplete s = .next (s.settle (
      let h := assembleAll s.env s.hub.clean
      match p.use.tenantJob with
      | some j =>
        let r := Tab.getD h.ens.tenant (tenantKey j x.toNat) {}
        scoreSample s.env i p x (fun n => if n < 256 then Tab.getD r.words n missing else missing)
          (fun n => if n < 256 then some (Config.featBank (2 ^ 32 + tenantKey j x.toNat) n % 512) else none) false h
      | none =>
        if s.env.tray || (rowOf h x).isSome then unpin s.env p.seq x (scoreSample s.env i p x (feature h x) (featBankOf h x) (entStopped h x) h)
        else refuseSample i x h)) := by
  show execSampleComplete s = _
  unfold execSampleComplete
  rw [State.run_next, guard_pos (by exact runs)]
  dsimp only
  rw [next] <;> rfl

/-- A sample refused leaves its pass's list, and is counted there and in all. -/
theorem refuseSample_pass {i : Nat} {x : Word} {h : Hub} {p : Pass} (at_ : h.ens.passes[i]? = some p) :
    (refuseSample i x h).ens.passes[i]? = some { p with todo := p.todo.erase x, refused := p.refused + 1 } ∧
      (∀ j, j ≠ i → (refuseSample i x h).ens.passes[j]? = h.ens.passes[j]?) ∧
      (refuseSample i x h).ens = { h.ens with
        refusedPass := h.ens.refusedPass + 1, passes := setAt h.ens.passes i { p with todo := p.todo.erase x, refused := p.refused + 1 } } :=
  let counted := onEns (fun u => { u with refusedPass := u.refusedPass + 1 }) h
  have at_ : counted.ens.passes[i]? = some p := at_
  ⟨(onPass_at at_).1, (onPass_at at_).2, onPass_passes at_⟩

/-- A sample that is unpinned waits no longer; nothing that was refused is counted again. -/
theorem unpin_waits (e : Env) (seq : Nat) (x : Word) (h : Hub) :
    sampleWait (unpin e seq x h) seq x.toNat = none ∧ (unpin e seq x h).ens.refused = h.ens.refused := by
  have rest := rest_unpin e seq x h
  have waits : (unpin e seq x h).ens.rest.waits = _ := congrArg EnsU.waits rest
  have refused : (unpin e seq x h).ens.rest.refused = _ := congrArg EnsU.refused rest
  refine ⟨?_, refused.trans (by split <;> rfl)⟩
  show (unpin e seq x h).ens.rest.waits.find? _ = none
  rw [waits]
  split
  · next waiting => exact Option.isNone_iff_eq_none.mp waiting
  · exact List.find?_eq_none.mpr (fun w mem => by simpa [imp_iff_not_or] using (List.mem_filter.mp mem).2)

/-- A sample that is dropped is refused in its pass, and waits no longer. -/
theorem dropSample_drops {e : Env} {w : SampleWait} {x : Word} {i : Nat} {p : Pass} (h : Hub) (ent : w.ent = x.toNat)
    (index : h.ens.passes.findIdx (fun p => decide (p.seq = w.pass)) = i) (pass : h.ens.passes[i]? = some p) :
    (dropSample e w h).ens.refused = h.ens.refused ∧
      (dropSample e w h).ens.passes[i]? = some { p with todo := p.todo.erase x, refused := p.refused + 1 } ∧
      sampleWait (dropSample e w h) w.pass x.toNat = none := by
  unfold dropSample
  rw [ent, BitVec.ofNat_toNat, BitVec.setWidth_eq, index]
  obtain ⟨refused, _, ens⟩ := refuseSample_pass (x := x) pass
  obtain ⟨waits, count⟩ := unpin_waits e w.pass x (refuseSample i x h)
  refine ⟨?_, ?_, waits⟩
  · rw [count, ens]
  · rw [(passes_unpin ..).1, refused]

/-- ASSEMBLY_LIMIT_EXPIRY of a sample that waits drops it. -/
theorem assemblyLimit_eq {s : State} {x : Word} {w : SampleWait} (runs : ensRuns s.env s.hub = true)
    (late : s.env.beaten evRowFill w.deadline (nowNs s.hub) = false)
    (at_ : s.hub.ens.waits.find? (fun w => decide (w.ent = x.toNat) && decide (w.deadline ≤ nowNs s.hub) &&
        s.hub.ens.passes.any (fun p => decide (p.seq = w.pass) && !assembled s.hub p.gen x)) = some w) :
    exec (.assemblyLimitExpiry x) s =
      .next (s.settle (dropSample s.env w (onEns (fun u => { u with refused := u.refused + 1 }) s.hub.clean))) := by
  show execAssemblyLimitExpiry x s = _
  unfold execAssemblyLimitExpiry
  have at_ : s.hub.clean.ens.waits.find? (fun w => decide (w.ent = x.toNat) && decide (w.deadline ≤ nowNs s.hub.clean) &&
        s.hub.clean.ens.passes.any (fun p => decide (p.seq = w.pass) && !assembled s.hub.clean p.gen x)) = some w := at_
  rw [State.run_next, at_]
  dsimp only
  rw [guard_pos (by simp [runs, late])]

/-! Passes (R269, R270). -/

/-- An ENS_RUN's pass that ends. -/
theorem passComplete_run {s : State} {p : Pass} {pend dest : Nat} {job : Option (BitVec 16)} (runs : ensRuns s.env s.hub = true)
    (at_ : s.hub.ens.passes.find? (fun p => p.todo.isEmpty) = some p) (use : p.use = .run pend dest job) :
    exec .passComplete s = .next (s.settle (runComplete s.env p pend dest job (passDone s.env p s.hub.clean))) := by
  show execPassComplete s = _
  unfold execPassComplete
  rw [State.run_next, Hub.clean_ens, at_]
  dsimp only
  rw [guard_pos (by exact runs), use]

/-! Cached rows (R265-R268). -/

/-- Nothing waits for room. -/
theorem retryRoom_idle (e : Env) {h : Hub} (idle : h.ens.roomq = []) : retryRoom e h = h := by
  unfold retryRoom
  rw [idle]
  rfl

/-- A row that has come from the backing store: its bytes, and the writes that waited for them. -/
def Row.filled (b : List Byte) (now : Nat) (r : Row) : Row :=
  { r with st := .valid, words := r.waiting.foldl (fun t p => Tab.put t p.1 p.2) (rowWords b), dirty := !r.waiting.isEmpty, waiting := [], used := now }

/-- ROW_FILL_COMPLETE while nothing waits for room. -/
theorem rowFill_eq {s : State} {x : Word} {r : Row} {b : List Byte} (tray : s.env.tray = true) (al : alive s.hub = true) (idle : s.hub.ens.roomq = [])
    (row : rowOf s.hub x = some r) (filling : r.st = .filling) (free : clientBusy s.hub (fun c => c == .fill x.toNat) = false)
    (bytes : backingBytes s.env s.hub.clean x = some b) :
    exec (.rowFillComplete x) s = .next (s.settle (putRow x (r.filled b (nowNs s.hub)) s.hub.clean)) := by
  show execRowFillComplete x s = _
  unfold execRowFillComplete
  rw [State.run_next, rowOf_clean, row]
  dsimp only
  rw [guard_pos (by simp [tray, al, filling, free]), bytes]
  dsimp only
  rw [retryRoom_idle _ (by exact idle)]
  rfl

/-- An entity's row leaves the feature table. -/
def dropRow (x : Word) (h : Hub) : Hub := onEns (fun u => { u with rows := Tab.drop u.rows x.toNat }) h

theorem rowOf_dropRow (x : Word) (h : Hub) : rowOf (dropRow x h) x = none := Tab.find_drop_self ..
theorem rowOf_dropRow_ne {x y : Word} (h : Hub) (n : y ≠ x) : rowOf (dropRow x h) y = rowOf h y :=
  Tab.find_drop_ne _ _ _ (fun same => n (BitVec.eq_of_toNat_eq same))

/-- ROW_WRITEBACK_COMPLETE of a row that nothing asks for again, while nothing waits for room. -/
theorem rowWriteback_eq {s : State} {x : Word} {r : Row} {a : Nat} (tray : s.env.tray = true) (al : alive s.hub = true) (idle : s.hub.ens.roomq = [])
    (row : rowOf s.hub x = some r) (evicting : r.st = .evicting) (refill : r.refill = false) (waiting : r.waiting = [])
    (place : (backingOf s.hub x).bind (backingAddr s.hub) = some a)
    (free : clientBusy s.hub (fun c => match c with | .writeback y _ => decide (y = x.toNat) | _ => false) = false) :
    exec (.rowWritebackComplete x) s = .next (s.settle (dropRow x (postMem a (rowBytes r) s.hub.clean))) := by
  have place : (backingOf s.hub.clean x).bind (backingAddr s.hub.clean) = some a := place
  show execRowWritebackComplete x s = _
  unfold execRowWritebackComplete
  rw [State.run_next, rowOf_clean, row]
  dsimp only
  rw [guard_pos (by rw [tray, evicting, clientBusy_clean]; simp [al]; exact free), place]
  dsimp only
  rw [if_neg (by simp [refill, waiting]), retryRoom_idle _ (by exact idle)]
  rfl

/-! The obligation. -/

/-- What SAMPLE_COMPLETE leaves of the passes when the sample is a tenant's. -/
theorem sampleComplete_tenant {s : State} {p : Pass} {i : Nat} {x : Word} {j : BitVec 16} (runs : ensRuns s.env s.hub = true)
    (next : nextSample s.env (assembleAll s.env s.hub.clean) = some (p, i, x)) (job : p.use.tenantJob = some j) :
    ∃ bank, exec .sampleComplete s = .next (s.settle (scoreSample s.env i p x (fun n =>
      if n < 256 then Tab.getD (Tab.getD (assembleAll s.env s.hub.clean).ens.tenant (tenantKey j x.toNat) {}).words n missing else missing)
      bank false (assembleAll s.env s.hub.clean))) := by
  rw [sampleComplete_eq runs next, job]
  exact ⟨_, rfl⟩

/-- What SAMPLE_COMPLETE makes of a sample whose features are there. -/
theorem sampleComplete_scores {s : State} {p : Pass} {i : Nat} {x : Word} (runs : ensRuns s.env s.hub = true)
    (next : nextSample s.env (assembleAll s.env s.hub.clean) = some (p, i, x)) (own : p.use.tenantJob = none)
    (here : s.env.tray = true ∨ (rowOf (assembleAll s.env s.hub.clean) x).isSome = true) :
    exec .sampleComplete s = .next (s.settle (let h := assembleAll s.env s.hub.clean
      unpin s.env p.seq x (scoreSample s.env i p x (feature h x) (featBankOf h x) (entStopped h x) h))) := by
  rw [sampleComplete_eq runs next, own]
  dsimp only
  rw [if_pos (by simpa using here)]

/-- What SAMPLE_COMPLETE makes, in die role, of a sample without a row. -/
theorem sampleComplete_refuses {s : State} {p : Pass} {i : Nat} {x : Word} (runs : ensRuns s.env s.hub = true)
    (next : nextSample s.env (assembleAll s.env s.hub.clean) = some (p, i, x)) (own : p.use.tenantJob = none)
    (die : s.env.tray = false) (none_ : rowOf s.hub x = none) :
    exec .sampleComplete s = .next (s.settle (refuseSample i x s.hub.clean)) := by
  rw [sampleComplete_eq runs next, own, assembleAll_die die]
  dsimp only
  rw [if_neg (by simp [die, none_])]

/-- Settles O38, by what each event leaves of the passes, of the rows and of the waits. -/
theorem ensemblePasses : Obligations.EnsemblePasses := by
  unfold Obligations.EnsemblePasses
  refine ⟨fun s p i x runs next at_ => ⟨fun own here => ?_, fun j job => ?_, fun own die none_ => ?_⟩, fun s p pend dest job runs at_ use => ?_,
    fun s x r tray al idle row => ⟨fun b filling free bytes => ?_, fun a evicting refill waiting place free => ?_⟩,
    fun s x w i p runs late at_ index pass => ?_⟩
  · obtain ⟨⟨q, scored, todo, results⟩, others, samples⟩ := scoreSample_pass (e := s.env) (x := x) (feat := feature (assembleAll s.env s.hub.clean) x)
      (bank := featBankOf (assembleAll s.env s.hub.clean) x) (st := entStopped (assembleAll s.env s.hub.clean) x) at_
    refine ⟨_, q, sampleComplete_scores runs next own here, ?_, todo, results, fun k ne => ?_, ?_⟩ <;>
      rw [State.settle_hub, Hub.clean_ens]
    · rw [(passes_unpin ..).1, scored]
    · rw [(passes_unpin ..).1, others k ne]
    · rw [(passes_unpin ..).2, samples]
  · obtain ⟨bank, run⟩ := sampleComplete_tenant runs next job
    obtain ⟨⟨q, scored, todo, results⟩, others, _⟩ := scoreSample_pass (e := s.env) (x := x) (bank := bank) (st := false) at_
    exact ⟨_, q, run, scored, todo, results, others⟩
  · rw [assembleAll_die die] at at_
    obtain ⟨refused, others, ens⟩ := refuseSample_pass (x := x) at_
    refine ⟨_, sampleComplete_refuses runs next own die none_, refused, ?_, others⟩
    rw [State.settle_hub, Hub.clean_ens, ens]
    rfl
  · obtain ⟨passes, done⟩ := passDone_passes s.env p s.hub.clean
    refine ⟨_, passComplete_run runs at_ use, ?_, ?_⟩ <;>
      rw [State.settle_hub, Hub.clean_ens, (runComplete_only ..).keep .ens (by decide)]
    · exact passes
    · exact done
  · exact ⟨_, rowFill_eq tray al idle row filling free bytes, fun y ne => rowOf_putRow_ne _ s.hub ne, rowOf_putRow x _ s.hub⟩
  · refine ⟨_, rowWriteback_eq tray al idle row evicting refill waiting place free, ?_, fun y ne => ?_, ?_⟩
    · rw [State.settle_hub, rowOf_clean, rowOf_dropRow]
    · rw [State.settle_hub, rowOf_clean, rowOf_dropRow_ne _ ne]
      exact rowOf_congr (by simp) y
    · rw [State.settle_ram]
      exact memAfter_posted a (rowBytes r) rfl rfl
  · have ent : w.ent = x.toNat := by
      have found := List.find?_some at_
      simp only [Bool.and_eq_true, decide_eq_true_eq] at found
      exact found.1.1
    obtain ⟨count, refused, waits⟩ :=
      dropSample_drops (e := s.env) (onEns (fun u => { u with refused := u.refused + 1 }) s.hub.clean) ent index pass
    refine ⟨_, assemblyLimit_eq runs late at_, ?_, ?_, waits⟩
    · rw [State.settle_hub, Hub.clean_ens, count]
      rfl
    · rw [State.settle_hub, Hub.clean_ens, refused]

end Sys2Proof.Machine
end

section
/-!
PROOF. The commands of the margin planner (O39): what a command's answer leaves of the ageing unit, and what its change does to the regions'
plans and to the probes.
-/
namespace Sys2Proof.Machine

/-! What a command leaves of the ageing unit. -/

section
variable {d : OpDef} {c : Cmd} {s : State} {st det : Nat} {res : List Word}

/-- A command answered at once leaves of the ageing unit what its change has left. -/
theorem ageCmd_done {k : Hub} {ps : List Piece} (p : passes d c s = true)
    (a : d.act s.env (consumed c s) (ctxOf c s) = .done st det res k) (b : st ≠ stBusy) (o : Only ps (consumed c s) k)
    (x : (ps.contains .cmd || ps.contains .prot) = false) :
    ∃ t, s.runOp d c = .next t ∧ Answered d.code st det res c s t ∧ t.hub.age = k.age := by
  obtain ⟨t, run, ans, left⟩ := op_kept p a b o x
  exact ⟨t, run, ans, left.keep .age (by decide)⟩

/-- One that only reads, or is refused, leaves all of it. -/
theorem ageCmd_kept (p : passes d c s = true) (a : d.act s.env (consumed c s) (ctxOf c s) = .done st det res (consumed c s))
    (b : st ≠ stBusy) : ∃ t, s.runOp d c = .next t ∧ Answered d.code st det res c s t ∧ t.hub.age = s.hub.age := by
  obtain ⟨t, run, ans, age⟩ := ageCmd_done p a b (Only.refl [] _) rfl
  exact ⟨t, run, ans, age.trans (by simp)⟩

end

/-! What step 8 leaves to read. -/

theorem age_consumed (c : Cmd) (s : State) : (consumed c s).age = s.hub.age := by simp
@[simp] theorem driftWords_consumed (c : Cmd) (s : State) : driftWords (consumed c s) = driftWords s.hub := by rw [consumed_eq]; rfl
@[simp] theorem planeWords_consumed (c : Cmd) (s : State) (p : Nat) : planeWords (consumed c s) p = planeWords s.hub p := by rw [consumed_eq]; rfl
@[simp] theorem binAt_consumed (c : Cmd) (s : State) (p b : Nat) : binAt (consumed c s) p b = binAt s.hub p b := by rw [consumed_eq]; rfl
@[simp] theorem probeOf_consumed (c : Cmd) (s : State) (q : Word) : probeOf (consumed c s) q = probeOf s.hub q := by rw [consumed_eq]; rfl

/-! Plans (R356, R358, R360). -/

/-- A region put in its place is the one there, and no other has changed. -/
theorem zone_put {h k : Hub} {r : Nat} {z : Zone} (put : k.age.zones = setAt h.age.zones r z) (at_ : r < h.age.zones.length) :
    zone k r = z ∧ ∀ q, q ≠ r → zone k q = zone h q := by
  unfold zone
  rw [put]
  exact ⟨getAt_setAt_self _ _ _ _ at_, fun q n => getAt_setAt_ne _ _ _ _ _ n⟩

/-- What forming a plan does to the ageing unit: the plan is numbered, and one that goes to the host is sent and waits for its ACK. -/
theorem formPlan_leaves (e : Env) (r cause : Nat) (off : Int) (cap : Nat) (toHost : Bool) (h : Hub) :
    (formPlan e r cause off cap toHost h).age = { h.age with
      planSeq := h.age.planSeq + 1
      zones := if toHost then setAt h.age.zones r { zone h r with sent := some (planFor h r cause off cap) } else h.age.zones
      sentSeq := if toHost then h.age.planSeq + 1 else h.age.sentSeq
      ackDue := if toHost then h.age.ackDue ++ [(h.age.planSeq + 1, nowNs h + h.age.ackLimit)] else h.age.ackDue } := by
  cases toHost with
  | true => exact (formPlan_age ..).1
  | false => exact (formPlan_age ..).2

/-- The plan formed for a region is the one it was last sent, where it goes to the host; no other region changes. -/
theorem formPlan_zone (e : Env) {r : Nat} (cause : Nat) (off : Int) (cap : Nat) (toHost : Bool) {h : Hub} (at_ : r < h.age.zones.length) :
    zone (formPlan e r cause off cap toHost h) r =
        { zone h r with sent := if toHost then some (planFor h r cause off cap) else (zone h r).sent } ∧
      ∀ q, q ≠ r → zone (formPlan e r cause off cap toHost h) q = zone h q := by
  have plans := congrArg AgeU.zones (formPlan_leaves e r cause off cap toHost h)
  cases toHost with
  | true => exact zone_put plans at_
  | false => exact ⟨by unfold zone; rw [plans]; rfl, fun q _ => by unfold zone; rw [plans]; rfl⟩

/-- A plan follows from the last plan's number, the region's worst slack and the time. -/
theorem planFor_congr {h k : Hub} {r : Nat} (seq : k.age.planSeq = h.age.planSeq) (smin : (zone k r).smin = (zone h r).smin)
    (time : k.time = h.time) (cause : Nat) (off : Int) (cap : Nat) : planFor k r cause off cap = planFor h r cause off cap := by
  unfold planFor
  rw [seq, smin, nowNs_congr time]

/-- A region whose plan a command fixes. -/
def Zone.fixed (z : Zone) : Zone := { z with manual := true, probeFail := false }

/-- The hub in which MARGIN_PLAN SET forms its plan. -/
def fixRegion (e : Env) (r : Nat) (h : Hub) : Hub := onZone r Zone.fixed (if e.tray then h else noteCmd (ownId e h 2 r) h)

theorem fixRegion_only (e : Env) (r : Nat) (h : Hub) : Only [.age, .casc] h (fixRegion e r h) :=
  Only.step (Only.ite (Only.refl _ _) (Only.weaken (noteCmd_only ..) rfl)) (onZone_only ..) rfl

/-- The region is fixed; its plans stay, and so does every other region. -/
theorem fixRegion_age (e : Env) (r : Nat) (h : Hub) : (fixRegion e r h).age = (onZone r Zone.fixed h).age := by
  have noted : (if e.tray then h else noteCmd (ownId e h 2 r) h).age = h.age :=
    (Only.ite (ps := [.casc]) (Only.refl _ _) (noteCmd_only ..)).keep .age (by decide)
  unfold fixRegion
  generalize (if e.tray then h else noteCmd (ownId e h 2 r) h) = k at noted
  unfold onZone
  rw [noted, zone_congr noted]

/-- What MARGIN_PLAN SET leaves of the ageing unit. -/
theorem marginPlanSet_run {c : Cmd} {s : State} (p : passes opPlanSet c s = true) : ∃ t, s.runOp opPlanSet c = .next t ∧
    t.hub.age = (formPlan s.env (c.n 2) 2 (signed 32 (c.n 3)) (c.n 4) true (fixRegion s.env (c.n 2) (consumed c s))).age := by
  obtain ⟨t, run, left⟩ := op_ends (k := formPlan s.env (c.n 2) 2 (signed 32 (c.n 3)) (c.n 4) true (fixRegion s.env (c.n 2) (consumed c s)))
    p rfl (by decide)
  exact ⟨t, run, left.keep .age (by decide)⟩

/-- MARGIN_PLAN SET fixes its region and sends it the plan given. -/
theorem marginPlanSet_sends {c : Cmd} {s : State} (p : passes opPlanSet c s = true) (at_ : c.n 2 < s.hub.age.zones.length) :
    ∃ t, s.runOp opPlanSet c = .next t ∧
      zone t.hub (c.n 2) = { (zone s.hub (c.n 2)).fixed with sent := some (planFor s.hub (c.n 2) 2 (signed 32 (c.n 3)) (c.n 4)) } ∧
      (∀ r, r ≠ c.n 2 → zone t.hub r = zone s.hub r) ∧ t.hub.age.planSeq = s.hub.age.planSeq + 1 ∧ t.hub.age.sentSeq = s.hub.age.planSeq + 1 ∧
      t.hub.age.ackDue = s.hub.age.ackDue ++ [(s.hub.age.planSeq + 1, nowNs s.hub + s.hub.age.ackLimit)] := by
  obtain ⟨t, run, age⟩ := marginPlanSet_run p
  have fixes : (fixRegion s.env (c.n 2) (consumed c s)).age =
      { s.hub.age with zones := setAt s.hub.age.zones (c.n 2) (zone s.hub (c.n 2)).fixed } := by
    rw [fixRegion_age, onZone, age_consumed, zone_consumed]
  have time : (fixRegion s.env (c.n 2) (consumed c s)).time = s.hub.time := ((fixRegion_only ..).keep .time (by decide)).trans (by simp)
  generalize fixRegion s.env (c.n 2) (consumed c s) = k at age fixes time
  obtain ⟨fixed, kept⟩ := zone_put (congrArg AgeU.zones fixes) at_
  obtain ⟨own, others⟩ := formPlan_zone s.env (r := c.n 2) 2 (signed 32 (c.n 3)) (c.n 4) true (h := k) (by rw [fixes, length_setAt]; exact at_)
  refine ⟨t, run, ?_, fun r n => ?_, ?_, ?_, ?_⟩
  · rw [zone_congr age, own, fixed, if_pos rfl, planFor_congr (by rw [fixes]) (by rw [fixed]; rfl) time]
  · rw [zone_congr age, others r n, kept r n]
  · simp [age, formPlan_leaves, fixes]
  · simp [age, formPlan_leaves, fixes]
  · simp [age, formPlan_leaves, fixes, nowNs_congr time]

/-- MARGIN_PLAN AUTO gives its region back, and no other. -/
theorem marginPlanAuto_done {c : Cmd} {s : State} (p : passes opPlanAuto c s = true) (at_ : c.n 2 < s.hub.age.zones.length) :
    ∃ t, s.runOp opPlanAuto c = .next t ∧ Answered 0x80 stOk 0 [] c s t ∧
      zone t.hub (c.n 2) = { zone s.hub (c.n 2) with manual := false } ∧ ∀ r, r ≠ c.n 2 → zone t.hub r = zone s.hub r := by
  obtain ⟨t, run, ans, age⟩ := ageCmd_done p rfl (by decide) (onZone_only (c.n 2) (fun z => { z with manual := false }) (consumed c s)) rfl
  obtain ⟨own, others⟩ := zone_onZone_only (f := fun z => { z with manual := false }) (k := consumed c s) (by simp) at_
  exact ⟨t, run, ans, (zone_congr age _).trans own, fun r n => (zone_congr age r).trans (others r n)⟩

/-! MARGIN_PLAN ACK (R358, R359). -/

/-- The region whose last plan sent has a number. -/
def sentTo (h : Hub) (q : BitVec 16) : Option Nat := (List.range 8).find? (fun r => (zone h r).sent.any (fun p => decide (p.seq = q)))

/-- The newest plan sent is put in force while it waits for its ACK. -/
def ackable (h : Hub) (n : Nat) (q : BitVec 16) : Prop := n < 65536 ∧ q = h.age.sentSeq ∧ h.age.ackDue.any (fun p => decide (p.1 = q)) = true

/-- A region's plan sent comes into force. -/
def Zone.acked (z : Zone) : Zone := { z with current := z.sent.getD z.current, sent := none }

/-- A plan waits for its ACK no longer. -/
def endWait (q : BitVec 16) (h : Hub) : Hub := onAge (fun a => { a with ackDue := a.ackDue.filter (fun p => decide (p.1 ≠ q)) }) h

/-- The hub in which a plan has come into force. -/
def ackPlan (r : Nat) (q : BitVec 16) (h : Hub) : Hub := onZone r Zone.acked (endWait q h)
theorem ackPlan_only (r : Nat) (q : BitVec 16) (h : Hub) : Only [.age] h (ackPlan r q h) := Only.step (onAge_only ..) (onZone_only ..) rfl
theorem ackPlan_age (r : Nat) (q : BitVec 16) (h : Hub) : (ackPlan r q h).age = { h.age with
    ackDue := h.age.ackDue.filter (fun p => decide (p.1 ≠ q)), zones := setAt h.age.zones r (zone h r).acked } := rfl

@[simp] theorem sentTo_consumed (c : Cmd) (s : State) (q : BitVec 16) : sentTo (consumed c s) q = sentTo s.hub q := by rw [consumed_eq]; rfl
@[simp] theorem ackable_consumed (c : Cmd) (s : State) (n : Nat) (q : BitVec 16) : ackable (consumed c s) n q ↔ ackable s.hub n q := by
  unfold ackable
  rw [consumed_eq]
  rfl

theorem opPlanAck_acts {e : Env} {h : Hub} {c : Ctx} {r : Nat} (sent : sentTo h ((c.w 2).setWidth 16) = some r)
    (newest : ackable h (c.n 2) ((c.w 2).setWidth 16)) : opPlanAck.act e h c = ok [] (ackPlan r ((c.w 2).setWidth 16) h) := by
  unfold sentTo at sent
  unfold opPlanAck
  dsimp only
  rw [sent]
  exact if_pos newest

theorem opPlanAck_strange {e : Env} {h : Hub} {c : Ctx}
    (strange : sentTo h ((c.w 2).setWidth 16) = none ∨ ¬ackable h (c.n 2) ((c.w 2).setWidth 16)) :
    opPlanAck.act e h c = refuse stNotFound h 2 := by
  unfold opPlanAck
  dsimp only
  cases sent : sentTo h ((c.w 2).setWidth 16) with
  | none =>
    unfold sentTo at sent
    rw [sent]
  | some r =>
    have stale := strange.resolve_left (by simp [sent])
    unfold sentTo at sent
    rw [sent]
    exact if_neg stale

/-- MARGIN_PLAN ACK of the newest plan, while it waits, puts the plan in force in its region, and in no other. -/
theorem marginPlanAck_done {c : Cmd} {s : State} {r : Nat} (p : passes opPlanAck c s = true)
    (sent : sentTo s.hub ((c.w 2).setWidth 16) = some r) (newest : ackable s.hub (c.n 2) ((c.w 2).setWidth 16))
    (at_ : r < s.hub.age.zones.length) : ∃ t, s.runOp opPlanAck c = .next t ∧ Answered 0x80 stOk 0 [] c s t ∧
      zone t.hub r = (zone s.hub r).acked ∧ (∀ i, i ≠ r → zone t.hub i = zone s.hub i) ∧
      t.hub.age.ackDue = s.hub.age.ackDue.filter (fun x => decide (x.1 ≠ (c.w 2).setWidth 16)) := by
  have act := opPlanAck_acts (e := s.env) (h := consumed c s) (c := ctxOf c s) (by rw [sentTo_consumed]; exact sent)
    ((ackable_consumed ..).mpr newest)
  obtain ⟨t, run, ans, age⟩ := ageCmd_done p act (by decide) (ackPlan_only ..) rfl
  rw [ackPlan_age, zone_consumed, age_consumed] at age
  obtain ⟨own, others⟩ := zone_put (congrArg AgeU.zones age) at_
  exact ⟨t, run, ans, own, others, by rw [age]; rfl⟩

/-- MARGIN_PLAN ACK of any other plan is NOT_FOUND. -/
theorem marginPlanAck_refused {c : Cmd} {s : State} (p : passes opPlanAck c s = true)
    (strange : sentTo s.hub ((c.w 2).setWidth 16) = none ∨ ¬ackable s.hub (c.n 2) ((c.w 2).setWidth 16)) :
    ∃ t, s.runOp opPlanAck c = .next t ∧ Answered 0x80 stNotFound 2 [] c s t ∧ t.hub.age = s.hub.age :=
  ageCmd_kept p (opPlanAck_strange (by rw [sentTo_consumed, ackable_consumed]; exact strange)) (by decide)

/-! MARGIN_PLAN PROBE_DONE (R364). -/

theorem opProbeDone_ends {e : Env} {h : Hub} {c : Ctx} {p : Probe} (running : probeOf h (c.w 2) = some p)
    (early : nowNs h ≤ p.notice + probeLimit) : opProbeDone.act e h c = okCross h [] (endProbe e p h) := by
  unfold opProbeDone
  dsimp only
  rw [running]
  exact if_neg (by omega)

theorem opProbeDone_strange {e : Env} {h : Hub} {c : Ctx} (strange : ∀ p, probeOf h (c.w 2) = some p → p.notice + probeLimit < nowNs h) :
    opProbeDone.act e h c = refuse stNotFound h 2 := by
  unfold opProbeDone
  dsimp only
  cases running : probeOf h (c.w 2) with
  | none => rfl
  | some p => exact if_pos (strange p running)

/-- PROBE_DONE of a probe that runs: the probe ends, and the answer says whether something then waits for a stopped clock (R47). -/
theorem probeDone_ends {c : Cmd} {s : State} {p : Probe} (ok_ : passes opProbeDone c s = true) (running : probeOf s.hub (c.w 2) = some p)
    (early : nowNs s.hub ≤ p.notice + probeLimit) : ∃ t, s.runOp opProbeDone c = .next t ∧
      Answered 0x80 (if crossWaits s.hub t.hub then stAccepted else stOk) 0 [] c s t ∧
      t.hub.age.probes = s.hub.age.probes.filter (fun q => decide (q.seq ≠ p.seq)) := by
  have act := opProbeDone_ends (e := s.env) (h := consumed c s) (c := ctxOf c s) (by simpa using running) (by simpa using early)
  have left := endProbe_only s.env p (consumed c s)
  have cmd : (endProbe s.env p (consumed c s)).cmd = (consumed c s).cmd := left.keep .cmd (by decide)
  have prot : (endProbe s.env p (consumed c s)).prot = (consumed c s).prot := left.keep .prot (by decide)
  obtain ⟨t, run, ans, rfl⟩ := op_cross ok_ act (by simp) (by rw [cmd]) (by rw [cmd, consumed_chans]) (by rw [prot]; simp)
  exact ⟨_, run, ans, by simp [endProbe_probes]⟩

/-! LIFE_READ (R369). -/

section
variable {c : Cmd} {s : State}

theorem opLifeRead_drift (len : c.params.length = 0) :
    opLifeRead.act s.env (consumed c s) (ctxOf c s) = ok (driftWords s.hub) (consumed c s) := by
  unfold opLifeRead
  dsimp only
  rw [(ctxOf_words c s).1, len, driftWords_consumed]
  rfl

theorem opLifeRead_plane (len : c.params.length = 1) :
    opLifeRead.act s.env (consumed c s) (ctxOf c s) = ok (planeWords s.hub (c.n 1)) (consumed c s) := by
  unfold opLifeRead
  dsimp only
  rw [(ctxOf_words c s).1, len, planeWords_consumed, ctxOf_n]
  rfl

theorem opLifeRead_cell (len : c.params.length = 2) : opLifeRead.act s.env (consumed c s) (ctxOf c s) =
    ok ((List.range 8).flatMap (fun v => (binAt s.hub (c.n 1) (c.n 2 / 8 * 64 + v * 8 + c.n 2 % 8)).words)) (consumed c s) := by
  unfold opLifeRead
  dsimp only
  rw [(ctxOf_words c s).1, len]
  simp only [binAt_consumed, ctxOf_n]

end

/-! The obligation. -/

/-- Settles O39: an answer leaves the ageing unit as its command's change has, by `ageCmd_done` and `ageCmd_kept`; what the change is, each
command's own lemma says. -/
theorem marginPlanCommands : Obligations.MarginPlanCommands := by
  unfold Obligations.MarginPlanCommands
  refine ⟨fun c s p => ?_, fun c s p at_ => marginPlanSet_sends p at_, fun c s p at_ => marginPlanAuto_done p at_, fun c s q p hq => ⟨?_, ?_⟩,
    fun c s p => ⟨fun probe running early => probeDone_ends p running early, fun strange => ?_⟩, fun c s p => ⟨?_, ?_, ?_⟩⟩
  · obtain ⟨t, run, ans, age⟩ := ageCmd_done (ps := [.age]) p rfl (by decide) (Only.set_age (Only.refl _ _) rfl) rfl
    exact ⟨t, run, ans, age.trans (by simp)⟩
  · subst hq
    exact fun r sent at_ word newest waits => marginPlanAck_done p sent ⟨word, newest, waits⟩ at_
  · subst hq
    refine fun strange => marginPlanAck_refused p (strange.imp_right fun stale newest => ?_)
    obtain ⟨word, newest, waits⟩ := newest
    rcases stale with long | other | idle
    · exact absurd word (not_lt.mpr long)
    · exact other newest
    · exact absurd (idle.symm.trans waits) (by decide)
  · refine ageCmd_kept p (opProbeDone_strange fun probe running => ?_) (by decide)
    rw [nowNs_consumed]
    exact strange probe (by simpa using running)
  · exact fun none_ => ageCmd_kept p (opLifeRead_drift none_) (by decide)
  · exact fun plane => ageCmd_kept p (opLifeRead_plane plane) (by decide)
  · exact fun cell => ageCmd_kept p (opLifeRead_cell cell) (by decide)

end Sys2Proof.Machine
end

section
/-!
PROOF. The events of the ageing unit (O40): readings, ticks, the hourly evaluation, the planner's intervals and limits, and persists.
-/
namespace Sys2Proof.Machine

/-- A region's figures follow from the list of the regions. -/
theorem zone_of_zones {h k : Hub} (zones : k.age.zones = h.age.zones) (r : Nat) : zone k r = zone h r := by
  unfold zone
  rw [zones]

/-! Readings (R342, R343). -/

/-- What a reading in range brings its region beside the monitor's own value. -/
def Zone.reads (k : MonKind) (v mn : Int) (d : Nat) (z : Zone) : Zone :=
  match k with
  | .temperature => z
  | .droop => { z with
      vmin := some (match z.vmin with
        | some x => min x mn
        | none => mn)
      dips := z.dips + d, droopNow := z.droopNow || decide (d > 0) }
  | .pathDelay => { z with smin := some (match z.smin with
      | some x => min x v
      | none => v) }

/-- A region changed twice is put once. -/
theorem onZone_twice {r : Nat} (f g : Zone → Zone) {h : Hub} (at_ : r < h.age.zones.length) :
    (onZone r g (onZone r f h)).age.zones = setAt h.age.zones r (g (f (zone h r))) :=
  (setAt_setAt ..).trans (by rw [zone_onZone at_])

@[simp] theorem ageRuns_clean (h : Hub) : ageRuns h.clean = ageRuns h := rfl

/-- What follows a reading leaves the ageing unit: outcomes are given their condition, and a failed monitor is reported. -/
theorem age_after_reading (e : Env) (r m : Nat) (k : MonKind) (v : Int) (failed : Bool) (h : Hub) :
    (if failed then monitorFailed e r m k v (sampledConds e r h) else sampledConds e r h).age = h.age := by
  have sampled : (sampledConds e r h).age = h.age := (sampledConds_only ..).keep .age (by decide)
  split
  · exact ((monitorFailed_only ..).keep .age (by decide)).trans sampled
  · exact sampled

section
variable {s : State} {r : RegionNo} {k : MonKind} {m : BitVec 3} {v mn : Int} {d : Nat} (runs : ageRuns s.hub = true)
  (works : (getAt ((zone s.hub r.toNat).mons k) m.toNat {}).failed = false)
  (clocked : k = .pathDelay → s.env.tray = false → (region s.hub r.toNat).stopped = false)
include runs works clocked

/-- A monitor that works is read: a path-delay monitor of a die only while its region's clock runs. -/
theorem monitor_samples : (ageRuns s.hub.clean && !(getAt ((zone s.hub.clean r.toNat).mons k) m.toNat {}).failed &&
    !(k == .pathDelay && !s.env.tray && (region s.hub.clean r.toNat).stopped)) = true := by
  have clock : (k == .pathDelay && !s.env.tray && (region s.hub r.toNat).stopped) = false := by
    by_contra held
    simp only [Bool.not_eq_false, Bool.and_eq_true, beq_iff_eq, Bool.not_eq_true'] at held
    obtain ⟨⟨path, die⟩, stopped⟩ := held
    simp [clocked path die] at stopped
  rw [zone_clean, region_clean, works, clock]
  simpa using runs

/-- A reading out of range fails its monitor. -/
theorem monitorSample_fails (out : monInRange k v = false) : ∃ K, exec (.monitorSample r k m v mn d) s = .next (s.settle K) ∧
    K.age = (onZone r.toNat (fun z => z.setMons k (setAt (z.mons k) m.toNat
      { getAt ((zone s.hub r.toNat).mons k) m.toNat {} with failed := true })) s.hub).age := by
  show ∃ K, execMonitorSample r k m v mn d s = _ ∧ _
  unfold execMonitorSample
  rw [State.run_next]
  dsimp only
  rw [guard_pos (monitor_samples runs works clocked), if_pos (by simp [out])]
  exact ⟨_, rfl, (monitorFailed_only ..).keep .age (by decide)⟩

/-- A reading in range is its monitor's value. -/
theorem monitorSample_reads (in_ : monInRange k v = true) (zones : r.toNat < s.hub.age.zones.length) {new : Monitor} {l : List Monitor}
    (read : (getAt ((zone s.hub r.toNat).mons k) m.toNat {}).read v mn
      (if k == .pathDelay then driftOf s.env s.hub r.toNat m.toNat v else missing) (nowNs s.hub) = new)
    (marked : (if (getAt ((zone s.hub r.toNat).mons k) m.toNat {}).value = some v then setAt ((zone s.hub r.toNat).mons k) m.toNat new
      else markChanged m.toNat (setAt ((zone s.hub r.toNat).mons k) m.toNat new)) = l) :
    ∃ K, exec (.monitorSample r k m v mn d) s = .next (s.settle K) ∧
      K.age.zones = setAt s.hub.age.zones r.toNat (((zone s.hub r.toNat).setMons k l).reads k v mn d) := by
  subst read marked
  show ∃ K, execMonitorSample r k m v mn d s = _ ∧ _
  unfold execMonitorSample
  rw [State.run_next]
  dsimp only
  rw [guard_pos (monitor_samples runs works clocked), if_neg (by simp [in_])]
  refine ⟨_, rfl, (congrArg AgeU.zones (age_after_reading ..)).trans ?_⟩
  cases k with
  | temperature => rfl
  | droop => exact onZone_twice (h := s.hub.clean) _ (Zone.reads .droop v mn d) zones
  | pathDelay => exact onZone_twice (h := s.hub.clean) _ (Zone.reads .pathDelay v mn d) zones

end

/-! Residence and concentration (R346, R350). -/

theorem residenceTick_run {s : State} (al : alive s.hub = true) (due : s.hub.age.lastTick + 100000 ≤ nowNs s.hub) :
    exec .residenceTick s = .next (s.settle ((List.range 9).foldl (residencePlane s.env)
      (onAge (fun a => { a with lastTick := nowNs s.hub / 100000 * 100000 }) s.hub.clean))) := by
  show execResidenceTick s = _
  unfold execResidenceTick
  exact run_guard (by simp [al, due])

/-- The hourly drift points of the regions are taken. -/
def hourlyPoints (h : Hub) : Hub :=
  (List.range 8).foldl (fun h r => onZone r (fun z => { z with hourly := (z.hourly ++ [meanDrift h r]).drop (z.hourly.length + 1 - 720) }) h)
    (onAge (fun a => { a with lastConc := nowNs h }) h)

/-- Each of the eight regions gains its point, and the hour is noted. -/
theorem hourlyPoints_hourly {h : Hub} (zones : h.age.zones.length = 8) : (hourlyPoints h).age.lastConc = nowNs h ∧ ∀ r, r < 8 →
    (zone (hourlyPoints h) r).hourly = ((zone h r).hourly ++ [meanDrift h r]).drop ((zone h r).hourly.length + 1 - 720) := by
  obtain ⟨noted, points⟩ := hourly_fold (List.range 8) (onAge (fun a => { a with lastConc := nowNs h }) h)
    List.nodup_range (fun r lt => by simpa [onAge, zones] using lt)
  refine ⟨noted, fun r lt => ?_⟩
  have same : zone (onAge (fun a => { a with lastConc := nowNs h }) h) r = zone h r := rfl
  unfold hourlyPoints
  rw [points, if_pos (List.mem_range.mpr lt), meanDrift_congr same, same]

theorem concentrationEval_run {s : State} (on : serving s.hub = true) (due : s.hub.age.lastConc + 3600000000000 ≤ nowNs s.hub) :
    ∃ K, exec .concentrationEval s = .next (s.settle K) ∧ K.age.zones = (hourlyPoints s.hub.clean).age.zones ∧
      K.age.lastConc = (hourlyPoints s.hub.clean).age.lastConc := by
  show ∃ K, execConcentrationEval s = _ ∧ _
  unfold execConcentrationEval
  rw [State.run_next, guard_pos (by simp [on, nsHour, due])]
  dsimp only
  have kept := concCells_age s.env (List.range 9) (hourlyPoints s.hub.clean)
  unfold hourlyPoints at kept ⊢
  exact ⟨_, rfl, kept⟩

/-! Plan intervals (R357, R360). -/

/-- A region's next plan, where no command has fixed it and the planner is not off. -/
def duePlan (h : Hub) (r : Nat) : Option (Nat × Int × Nat) := if (zone h r).manual || decide (h.age.mode = 0) then none else nextPlan h r

/-- The next plan, if there is one, is formed, and sent where the mode says so. -/
def takePlan (e : Env) (r : Nat) (next : Option (Nat × Int × Nat)) (h : Hub) : Hub :=
  match next with
  | some p => formPlan e r p.1 p.2.1 p.2.2 (decide (h.age.mode = 2)) h
  | none => h

/-- A region at the end of a plan interval: whether a plan was formed, and whether the worst slack was above S_HIGH. -/
def Zone.intervalEnded (formed high : Bool) (now interval : Nat) (z : Zone) : Zone :=
  { z with lastPlan := now, smin := none, sminLast := z.smin, probeFail := if formed then false else z.probeFail
           highFor := if high then z.highFor + interval else 0 }

theorem planInterval_run {s : State} {r : RegionNo} (on : serving s.hub = true)
    (due : (zone s.hub r.toNat).lastPlan + s.hub.age.interval ≤ nowNs s.hub) :
    exec (.planInterval r) s = .next (s.settle (
      let k := takePlan s.env r.toNat (duePlan s.hub r.toNat) s.hub.clean
      onZone r.toNat (Zone.intervalEnded (duePlan s.hub r.toNat).isSome ((zone s.hub r.toNat).smin.any (fun x => decide (x > k.age.sHigh)))
        (nowNs k) k.age.interval) k)) := by
  show execPlanInterval r s = _
  unfold execPlanInterval
  exact run_guard (b := fun _ h => serving h && decide ((zone h r.toNat).lastPlan + h.age.interval ≤ nowNs h)) (by simp [on, due])

/-- What taking the next plan leaves: it is sent in mode 2, it is numbered, and nothing else of the region, the settings or the time changes. -/
theorem takePlan_leaves (e : Env) {r : Nat} (next : Option (Nat × Int × Nat)) {h : Hub} (at_ : r < h.age.zones.length) :
    zone (takePlan e r next h) r = { zone h r with sent := (match next with
        | some p => if h.age.mode = 2 then some (planFor h r p.1 p.2.1 p.2.2) else (zone h r).sent
        | none => (zone h r).sent) } ∧
      (∀ q, q ≠ r → zone (takePlan e r next h) q = zone h q) ∧
      (takePlan e r next h).age.planSeq = h.age.planSeq + (if next.isSome then 1 else 0) ∧
      (takePlan e r next h).age.sHigh = h.age.sHigh ∧ (takePlan e r next h).age.interval = h.age.interval ∧
      (takePlan e r next h).age.zones.length = h.age.zones.length ∧ nowNs (takePlan e r next h) = nowNs h := by
  cases next with
  | none => exact ⟨rfl, fun _ _ => rfl, (BitVec.add_zero _).symm, rfl, rfl, rfl, rfl⟩
  | some p =>
    obtain ⟨own, others⟩ := formPlan_zone e p.1 p.2.1 p.2.2 (decide (h.age.mode = 2)) at_
    have age := formPlan_leaves e r p.1 p.2.1 p.2.2 (decide (h.age.mode = 2)) h
    refine ⟨own.trans (by simp), others, ?_⟩
    unfold takePlan
    dsimp only
    rw [age]
    refine ⟨rfl, rfl, rfl, ?_, nowNs_congr ((formPlan_only ..).keep .time (by decide))⟩
    dsimp only
    split <;> simp

/-! The limits of plans and probes (R359, R364). -/

/-- The region that was last sent a plan of a number has it withdrawn. -/
def unsend (q : BitVec 16) (h : Hub) : Hub :=
  match sentTo h q with
  | some r => onZone r (fun z => { z with sent := none }) h
  | none => h

theorem unsend_ackDue (q : BitVec 16) (h : Hub) : (unsend q h).age.ackDue = h.age.ackDue := by
  unfold unsend
  split <;> rfl

theorem unsend_zone {q : BitVec 16} {h : Hub} {r : Nat} (sent : sentTo h q = some r) (at_ : r < h.age.zones.length) :
    zone (unsend q h) r = { zone h r with sent := none } := by
  unfold unsend
  rw [sent]
  exact zone_onZone at_

theorem planAckTimeout_run {s : State} {p : BitVec 16 × Nat} (on : working s.hub = true)
    (late : s.hub.age.ackDue.find? (fun p => decide (p.2 ≤ nowNs s.hub)) = some p)
    (alone : s.env.beaten evPlanAck p.2 (nowNs s.hub) = false) :
    ∃ K, exec .planAckTimeout s = .next (s.settle K) ∧ K.age = (unsend p.1 (endWait p.1 s.hub.clean)).age := by
  show ∃ K, execPlanAckTimeout s = _ ∧ _
  unfold execPlanAckTimeout
  rw [State.run_next, Hub.clean_age, nowNs_clean, late]
  dsimp only
  rw [guard_pos (by simp [on, alone])]
  exact ⟨_, rfl, (emit_only ..).keep .age (by decide)⟩

/-- A probe that is closed runs no longer. -/
theorem closeProbe_probes (e : Env) (p : Probe) (h : Hub) : (closeProbe e p h).age.probes = h.age.probes.filter (fun q => decide (q.seq ≠ p.seq)) := by
  unfold closeProbe
  dsimp only
  rw [(refreshHold_only ..).keep .age (by decide), (emitUnit_only ..).keep .age (by decide)]

theorem probeTimeout_run {s : State} {q : Word} {p : Probe} (on : working s.hub = true) (running : probeOf s.hub q = some p)
    (late : p.notice + 1000000000 ≤ nowNs s.hub) (alone : s.env.beaten evProbeDone (p.notice + 1000000000) (nowNs s.hub) = false) :
    exec (.probeTimeout q) s = .next (s.settle (closeProbe s.env p s.hub.clean)) := by
  show execProbeTimeout q s = _
  unfold execProbeTimeout
  rw [State.run_next, show probeOf s.hub.clean q = some p from running]
  dsimp only
  rw [guard_pos (by simp [on, probeLimit, late, alone])]

/-! Persists (R367). -/

section
variable {s : State} (al : alive s.hub = true) (img : s.hub.img.isSome = true)
include al img

theorem ageingPersist_run (due : s.hub.age.lastPersist + s.hub.age.persist ≤ nowNs s.hub) :
    exec .ageingPersist s = .next (s.settle (persistAge s.env s.hub.clean)) :=
  run_guard (b := fun _ h => alive h && h.img.isSome && decide (h.age.lastPersist + h.age.persist ≤ nowNs h)) (by simp [al, img, due])

theorem ageingEarlyPersist_run (many : 200 ≤ s.hub.age.changed.length) :
    exec .ageingEarlyPersist s = .next (s.settle (persistAge s.env s.hub.clean)) :=
  run_guard (b := fun _ h => alive h && h.img.isSome && decide (h.age.changed.length ≥ 200)) (by simp [al, img, many])

end

/-- A persist writes the copy of the next generation's parity, and starts counting changes and time anew. -/
theorem settle_persistAge (s : State) : (s.settle (persistAge s.env s.hub.clean)).nv =
      s.nvAfter (agePlaceOf s.hub ((s.hub.age.nvgen + 1).toNat % 2)) (ageBytes (s.hub.age.nvgen + 1).toNat s.hub.age) ∧
    (s.settle (persistAge s.env s.hub.clean)).hub.age =
      { s.hub.age with nvgen := s.hub.age.nvgen + 1, changed := [], lastPersist := nowNs s.hub } := ⟨rfl, rfl⟩

/-! The obligation. -/

/-- Settles O40: each event by the lemma on what it makes of the ageing unit. -/
theorem ageingEvents : Obligations.AgeingEvents := by
  unfold Obligations.AgeingEvents
  refine ⟨fun s r k m v mn d old runs at_ works clocked zones => ?_, fun s al due rems planes => ?_, fun s on due zones => ?_,
    fun s r next on due zones plan => ?_, fun s p on late alone => ?_, fun s q p on running late alone => ?_, fun s a bs al img place bytes => ?_⟩
  · subst at_
    refine ⟨fun out => ?_, fun new l in_ read marked => ?_⟩
    · obtain ⟨K, run, age⟩ := monitorSample_fails (m := m) (mn := mn) (d := d) runs works clocked out
      obtain ⟨own, others⟩ := zone_put (congrArg AgeU.zones age) zones
      exact ⟨_, run, others, own⟩
    · obtain ⟨K, run, read⟩ := monitorSample_reads (d := d) runs works clocked in_ zones read marked
      obtain ⟨own, others⟩ := zone_put read zones
      refine ⟨_, run, others, own.trans ?_⟩
      cases k <;> rfl
  · obtain ⟨tick, each⟩ := residence_fold s.env (List.range 9) (onAge (fun a => { a with lastTick := nowNs s.hub / 100000 * 100000 }) s.hub.clean)
      List.nodup_range (fun p lt => ⟨by simpa [onAge, rems] using lt, by simpa [onAge, planes] using lt⟩)
    refine ⟨_, residenceTick_run al due, tick, fun p lt => ?_⟩
    have gains := (each p).1 (List.mem_range.mpr lt)
    have bin : planeBin s.env (onAge (fun a => { a with lastTick := nowNs s.hub / 100000 * 100000 }) s.hub.clean) p = planeBin s.env s.hub p :=
      planeBin_congr rfl rfl p
    rw [bin] at gains
    exact gains
  · obtain ⟨K, run, same, conc⟩ := concentrationEval_run on due
    obtain ⟨noted, points⟩ := hourlyPoints_hourly (h := s.hub.clean) zones
    refine ⟨_, run, conc.trans noted, fun r lt => ?_⟩
    rw [State.settle_hub, zone_clean, zone_of_zones same]
    exact points r lt
  · obtain ⟨own, others, seq, high, interval, length, now⟩ := takePlan_leaves s.env (r := r.toNat) next (h := s.hub.clean) zones
    have run := planInterval_run on due
    rw [show duePlan s.hub r.toNat = next from plan] at run
    refine ⟨_, run, fun q n => (zone_onZone_ne n).trans (others q n), seq, ?_⟩
    rw [State.settle_hub, zone_clean, zone_onZone (by rw [length]; exact zones), own, high, interval, now]
    rfl
  · obtain ⟨K, run, age⟩ := planAckTimeout_run on late alone
    refine ⟨_, run, ?_, fun r sent at_ => ?_⟩
    · rw [State.settle_hub, Hub.clean_age, age, unsend_ackDue]
      rfl
    · exact (zone_congr age r).trans (unsend_zone (h := endWait p.1 s.hub.clean) sent at_)
  · exact ⟨_, probeTimeout_run on running late alone, closeProbe_probes ..⟩
  · subst place bytes
    obtain ⟨written, age⟩ := settle_persistAge s
    exact ⟨fun due => ⟨_, ageingPersist_run al img due, written, age⟩, fun many => ⟨_, ageingEarlyPersist_run al img many, written, age⟩⟩

end Sys2Proof.Machine
end

section
/-!
PROOF. Job membership (O45): the change that each command of JOB_MEMBERS comes to, and what its answer leaves of the jobs.
-/
namespace Sys2Proof.Machine

/-! What step 8 leaves to read. -/

@[simp] theorem projected_consumed (q : Cmd) (s : State) : projected (consumed q s) = projected s.hub := by rw [consumed_eq]; rfl

/-! What a command leaves of the jobs. -/

section
variable {d : OpDef} {c : Cmd} {s : State}

/-- A command whose change is at most one of the jobs is answered, and of the jobs stands what the change has left. -/
theorem jobCmd_done {st det : Nat} {res : List Word} {u : Jobs} (p : passes d c s = true)
    (a : d.act s.env (consumed c s) (ctxOf c s) = .done st det res { consumed c s with jobs := u }) (b : st ≠ stBusy) :
    ∃ t, s.runOp d c = .next t ∧ Answered d.code st det res c s t ∧ t.hub.jobs = u := by
  obtain ⟨t, run, ans, ht⟩ := op_done p a b rfl (by simp) (by simp)
  exact ⟨t, run, ans, by simp [ht]⟩

/-- A command that changes nothing leaves the jobs as they were. -/
theorem jobCmd_reads {st det : Nat} {res : List Word} (p : passes d c s = true)
    (a : d.act s.env (consumed c s) (ctxOf c s) = .done st det res (consumed c s)) (b : st ≠ stBusy) :
    ∃ t, s.runOp d c = .next t ∧ Answered d.code st det res c s t ∧ t.hub.jobs = s.hub.jobs := by
  obtain ⟨t, run, ans, ht⟩ := op_done p a b rfl (by simp) (by simp)
  exact ⟨t, run, ans, by simp [ht]⟩

end

/-! Changes (R408, R409). -/

/-- The jobs once a change waits for the window named, or for the one in progress. -/
def withChange (h : Hub) (w : Option Word) (j : BitVec 16) (ch : JobChange) : Jobs :=
  { h.jobs with waiting :=
      queueChange (h.casc.window % 2 ^ 32) (w.elim (h.casc.window % 2 ^ 32) BitVec.toNat) j ch h.jobs.waiting }

/-- A change is put behind those of its window where that has not ended. -/
theorem acceptChange_waits {x : Ctx} {w : Option Word} (ch : JobChange) {h : Hub} (on : w.any (windowEnded h) = false) :
    acceptChange x w ch h = ok [] { h with jobs := withChange h w (BitVec.ofNat 16 (x.n 2)) ch } := by
  cases w with
  | none =>
    unfold acceptChange withChange
    rw [Option.elim_none]
  | some w =>
    rw [Option.any_some] at on
    unfold acceptChange withChange
    dsimp only
    rw [on, Option.elim_some, if_neg (by decide)]

/-- A change for a window that has ended is refused. -/
theorem acceptChange_ended {x : Ctx} {w : Option Word} (ch : JobChange) {h : Hub} (past : w.any (windowEnded h) = true) :
    acceptChange x w ch h = refuse stWrongState h := by
  cases w with
  | none => cases past
  | some w =>
    rw [Option.any_some] at past
    unfold acceptChange
    dsimp only
    rw [past, if_pos rfl]

/-- A command that comes to a change is OK and puts the change where it waits, or is WRONG_STATE where the window has ended. -/
theorem jobChange_run {d : OpDef} {c : Cmd} {s : State} {w : Option Word} {ch : JobChange} (p : passes d c s = true)
    (a : d.act s.env (consumed c s) (ctxOf c s) = acceptChange (ctxOf c s) w ch (consumed c s)) :
    (w.any (windowEnded s.hub) = false → ∃ t, s.runOp d c = .next t ∧ Answered d.code stOk 0 [] c s t ∧
      t.hub.jobs = withChange s.hub w (BitVec.ofNat 16 ((ctxOf c s).n 2)) ch) ∧
    (w.any (windowEnded s.hub) = true → ∃ t, s.runOp d c = .next t ∧ Answered d.code stWrongState 0 [] c s t ∧ t.hub.jobs = s.hub.jobs) := by
  have same : w.any (windowEnded (consumed c s)) = w.any (windowEnded s.hub) := by rw [windowEnded_consumed]
  refine ⟨fun on => ?_, fun past => ?_⟩
  · obtain ⟨t, run, ans, jobs⟩ := jobCmd_done p (a.trans (acceptChange_waits ch (same.trans on))) (by decide)
    exact ⟨t, run, ans, by simp [jobs, withChange]⟩
  · exact jobCmd_reads p (a.trans (acceptChange_ended ch (same.trans past))) (by decide)

/-! ADD and REMOVE. -/

/-- A job without a membership by then is not found. -/
theorem opJobList_unknown {away : Bool} {c : Cmd} {s : State} (no : Tab.find (projected s.hub) ((ctxOf c s).n 2) = none) :
    (opJobList away).act s.env (consumed c s) (ctxOf c s) = refuse stNotFound (consumed c s) 2 := by
  unfold opJobList
  dsimp only
  rw [projected_consumed, no]

/-- ADD's change. -/
theorem opJobAdd_act {c : Cmd} {s : State} {y : Job} (job : Tab.find (projected s.hub) ((ctxOf c s).n 2) = some y) :
    (opJobList false).act s.env (consumed c s) (ctxOf c s) = acceptChange (ctxOf c s) (lastWindow (ctxOf c s) (3 + (ctxOf c s).n 3))
      (.add ((dieEntries (ctxOf c s) 4 ((ctxOf c s).n 3)).map (fun p => dieEntry p.2))) (consumed c s) := by
  unfold opJobList
  dsimp only
  rw [projected_consumed, job]
  rfl

section
variable {c : Cmd} {s : State} {y : Job} (job : Tab.find (projected s.hub) ((ctxOf c s).n 2) = some y)
include job

/-- REMOVE's change, where every die of it is listed. -/
theorem opJobRemove_act
    (all : (dieEntries (ctxOf c s) 4 ((ctxOf c s).n 3)).find? (fun p => !y.dies.any (fun d => decide (d.die = (dieEntry p.2).die))) = none) :
    (opJobList true).act s.env (consumed c s) (ctxOf c s) = acceptChange (ctxOf c s) (lastWindow (ctxOf c s) (3 + (ctxOf c s).n 3))
      (.remove ((dieEntries (ctxOf c s) 4 ((ctxOf c s).n 3)).map (fun p => (dieEntry p.2).die))) (consumed c s) := by
  unfold opJobList
  dsimp only
  rw [projected_consumed, job]
  dsimp only
  rw [if_pos rfl, all]

/-- The first die of a REMOVE that is not listed is not found. -/
theorem opJobRemove_stray {q : Nat × Word}
    (stray : (dieEntries (ctxOf c s) 4 ((ctxOf c s).n 3)).find? (fun p => !y.dies.any (fun d => decide (d.die = (dieEntry p.2).die))) = some q) :
    (opJobList true).act s.env (consumed c s) (ctxOf c s) = refuse stNotFound (consumed c s) q.1 := by
  unfold opJobList
  dsimp only
  rw [projected_consumed, job]
  dsimp only
  rw [if_pos rfl, stray]

end

/-! READ. -/

/-- READ answers with the membership. -/
theorem opJobRead_act {c : Cmd} {s : State} {x : Job} (job : jobAt s.hub (BitVec.ofNat 16 (c.n 2)) = some x) :
    opJobRead.act s.env (consumed c s) (ctxOf c s) = ok ((jobWords x).take 346) (consumed c s) := by
  unfold opJobRead
  dsimp only
  rw [jobAt_consumed, ctxOf_n, job]

/-- READ of a job without one does not find it. -/
theorem opJobRead_unknown {c : Cmd} {s : State} (no : jobAt s.hub (BitVec.ofNat 16 (c.n 2)) = none) :
    opJobRead.act s.env (consumed c s) (ctxOf c s) = refuse stNotFound (consumed c s) 2 := by
  unfold opJobRead
  dsimp only
  rw [jobAt_consumed, ctxOf_n, no]

/-- Settles O45: SET, ADD and REMOVE by `jobChange_run` on the change that each comes to, READ and the refusals by what they answer. -/
theorem jobCommands : Obligations.JobCommands := by
  unfold Obligations.JobCommands
  refine ⟨fun c s x w p ctx win => ?_, fun c s x w p ctx win => ⟨fun no => ?_, fun y job => ?_⟩,
    fun c s x w p ctx win => ⟨fun no => ?_, fun y job => ⟨fun q stray => ?_, fun all => ?_⟩⟩, fun c s p => ⟨fun x job => ?_, fun no => ?_⟩⟩
  · subst ctx win
    exact jobChange_run p rfl
  · subst ctx
    exact jobCmd_reads p (opJobList_unknown no) (by decide)
  · subst ctx win
    exact jobChange_run p (opJobAdd_act job)
  · subst ctx
    exact jobCmd_reads p (opJobList_unknown no) (by decide)
  · subst ctx
    exact jobCmd_reads p (opJobRemove_stray job stray) (by decide)
  · subst ctx win
    exact jobChange_run p (opJobRemove_act job all)
  · exact jobCmd_reads p (opJobRead_act job) (by decide)
  · exact jobCmd_reads p (opJobRead_unknown no) (by decide)

end Sys2Proof.Machine
end

section
/-!
PROOF. The broadcast's commands (O43): what BCAST_PREPARE and BCAST_COMMIT come to at the root, and what of a broadcast stands when the phase
that they start has gone on.
-/
namespace Sys2Proof.Machine

/-! What step 8 leaves to read. -/

@[simp] theorem myTray_consumed (q : Cmd) (s : State) : myTray (consumed q s) = myTray s.hub := by rw [consumed_eq]; rfl
@[simp] theorem photenShut_consumed (q : Cmd) (s : State) (g : Group) : photenShut (consumed q s) g = photenShut s.hub g := by rw [consumed_eq]; rfl
@[simp] theorem heldB_consumed (q : Cmd) (s : State) (g b : Nat) : heldB (consumed q s) g b = heldB s.hub g b := by rw [consumed_eq]; rfl
@[simp] theorem groupB_consumed (q : Cmd) (s : State) (g : Nat) : groupB (consumed q s) g = groupB s.hub g := by rw [consumed_eq]; rfl

/-! What a command leaves of the broadcast unit. -/

section
variable {d : OpDef} {c : Cmd} {s : State} {st det : Nat} {res : List Word}

/-- A command whose change is at most one of the broadcast unit is answered, and of the unit stands what the change has left. -/
theorem bcastCmd_done {k : Hub} (p : passes d c s = true) (a : d.act s.env (consumed c s) (ctxOf c s) = .done st det res k) (b : st ≠ stBusy)
    (o : Only [.bc] (consumed c s) k) : ∃ t, s.runOp d c = .next t ∧ Answered d.code st det res c s t ∧ t.hub.bc = k.bc := by
  obtain ⟨t, run, ans, only⟩ := op_kept p a b o rfl
  exact ⟨t, run, ans, only.keep .bc (by decide)⟩

/-- A refused command leaves the broadcast unit as it was. -/
theorem bcastCmd_refused (p : passes d c s = true) (a : d.act s.env (consumed c s) (ctxOf c s) = refuse st (consumed c s) det) (b : st ≠ stBusy) :
    ∃ t, s.runOp d c = .next t ∧ Answered d.code st det [] c s t ∧ t.hub.bc = s.hub.bc := by
  obtain ⟨t, run, ans, bc⟩ := bcastCmd_done p a b (Only.refl _ _)
  exact ⟨t, run, ans, by simp [bc]⟩

end

/-- A command that starts a phase is in progress while the phase goes on, in a hub with the broadcast unit as it was. -/
theorem bcastCmd_starts {d : OpDef} {c : Cmd} {s : State} {f : Nat → Hub → Hub} (p : passes d c s = true)
    (a : d.act s.env (consumed c s) (ctxOf c s) = .later none f) :
    ∃ K, s.runOp d c = .next (s.settle (f s.hub.cmd.nextId K)) ∧ K.bc = s.hub.bc ∧ nowNs K = nowNs s.hub := by
  obtain ⟨t, run, rfl⟩ := op_later p a
  exact ⟨_, run, by simp, nowNs_consumed c s⟩

/-! BCAST_PREPARE (R398, R403, R406, R407). -/

/-- The broadcast that a BCAST_PREPARE names, as its root holds it. -/
def rootCast (c : Cmd) (now : Nat) : Bcast :=
  { group := BitVec.ofNat 16 (c.n 1), bid := BitVec.ofNat 16 (c.n 2), window := c.w 3, cmd := wordsBytes (c.params.drop 5), back := .root, hold := now }

/-- The hub with a new broadcast held, its BID the group's last. -/
def holdNew (c : Cmd) (b : Bcast) (h : Hub) : Hub := addB b (onBc (fun u => { u with last := Tab.put u.last (c.n 1) b.bid }) h)

theorem holdNew_only (c : Cmd) (b : Bcast) (h : Hub) : Only [.bc] h (holdNew c b h) := Only.set_bc (Only.set_bc (Only.refl _ _) rfl) rfl

/-- How far the BID of a BCAST_PREPARE lies above the group's last; one above where there is none (R407). -/
def bidAhead (c : Cmd) (h : Hub) : Nat := ((Tab.find h.bc.last (c.n 1)).map (fun l => ahead 16 (c.n 2) l.toNat)).getD 1

/-- A BCAST_PREPARE elsewhere than at its group's root. -/
theorem opBcastPrepare_elsewhere {c : Cmd} {s : State} (away : ∀ g, groupOf s.hub (c.n 1) = some g → s.env.tray = false ∨ g.root ≠ myTray s.hub) :
    opBcastPrepare.act s.env (consumed c s) (ctxOf c s) = refuse stNotPermitted (consumed c s) := by
  unfold opBcastPrepare
  simp only [ctxOf_n, groupOf_consumed, myTray_consumed]
  cases known : groupOf s.hub (c.n 1) with
  | none => rfl
  | some g =>
    dsimp only
    rw [if_pos (by simpa using away g known)]

section
variable {c : Cmd} {s : State} {g : Group} (known : groupOf s.hub (c.n 1) = some g) (tray : s.env.tray = true) (own : g.root = myTray s.hub)
  (up : photenShut s.hub g = false)
include known tray own up

/-- A BCAST_PREPARE at its group's root: out of order, one too many, of a group without members, or a phase to start. -/
theorem opBcastPrepare_atRoot : opBcastPrepare.act s.env (consumed c s) (ctxOf c s) =
    if !(decide (1 ≤ bidAhead c s.hub) && decide (bidAhead c s.hub ≤ 32767)) then refuse stReplay (consumed c s)
    else if s.hub.bc.held.length ≥ 4 then refuse stBusy (consumed c s)
    else if g.dies.isEmpty then ok [0, 0, 0] (holdNew c { rootCast c (nowNs s.hub) with phase := 1 } (consumed c s))
    else if !writable s.hub (c.d 4) 16384 then refuse stBadParam (consumed c s) 4
    else .later none (startRoot s.env (ctxOf c s)) := by
  have unit : (consumed c s).bc = s.hub.bc := by simp
  unfold opBcastPrepare bidAhead
  simp only [ctxOf_n, ctxOf_d, ctxOf_w, ctxOf_from, groupOf_consumed, myTray_consumed, photenShut_consumed, writable_consumed, nowNs_consumed, known, unit]
  rw [if_neg (by simp [tray, own]), if_neg (by simp [up])]
  rfl

/-- One out of order. -/
theorem opBcastPrepare_replay (bad : bidAhead c s.hub = 0 ∨ 32767 < bidAhead c s.hub) :
    opBcastPrepare.act s.env (consumed c s) (ctxOf c s) = refuse stReplay (consumed c s) := by
  rw [opBcastPrepare_atRoot known tray own up, if_pos]
  rw [Bool.not_eq_true', Bool.and_eq_false_iff, decide_eq_false_iff_not, decide_eq_false_iff_not]
  omega

variable (next : 1 ≤ bidAhead c s.hub) (near : bidAhead c s.hub ≤ 32767)
include next near

/-- A fifth. -/
theorem opBcastPrepare_full (full : 4 ≤ s.hub.bc.held.length) :
    opBcastPrepare.act s.env (consumed c s) (ctxOf c s) = refuse stBusy (consumed c s) := by
  rw [opBcastPrepare_atRoot known tray own up, if_neg (by simp [next, near]), if_pos full]

variable (room : s.hub.bc.held.length < 4)
include room

/-- One of a group without members is held as prepared. -/
theorem opBcastPrepare_memberless (empty : g.dies = []) : opBcastPrepare.act s.env (consumed c s) (ctxOf c s) =
    ok [0, 0, 0] (holdNew c { rootCast c (nowNs s.hub) with phase := 1 } (consumed c s)) := by
  rw [opBcastPrepare_atRoot known tray own up, if_neg (by simp [next, near]), if_neg (by omega), if_pos (by simp [empty])]

variable (members : g.dies ≠ [])
include members

/-- One whose vector cannot be written. -/
theorem opBcastPrepare_unwritable (no : writable s.hub (c.d 4) 16384 = false) :
    opBcastPrepare.act s.env (consumed c s) (ctxOf c s) = refuse stBadParam (consumed c s) 4 := by
  rw [opBcastPrepare_atRoot known tray own up, if_neg (by simp [next, near]), if_neg (by omega), if_neg (by simpa using members), if_pos (by simp [no])]

/-- One that starts its prepare phase. -/
theorem opBcastPrepare_starts (yes : writable s.hub (c.d 4) 16384 = true) :
    opBcastPrepare.act s.env (consumed c s) (ctxOf c s) = .later none (startRoot s.env (ctxOf c s)) := by
  rw [opBcastPrepare_atRoot known tray own up, if_neg (by simp [next, near]), if_neg (by omega), if_neg (by simpa using members), if_neg (by simp [yes])]

end

/-- The names of a BCAST_PREPARE that passes its checks are their own 16 bits. -/
theorem bcastPrepare_names {c : Cmd} {s : State} (p : passes opBcastPrepare c s = true) :
    (BitVec.ofNat 16 (c.n 1)).toNat = c.n 1 ∧ (BitVec.ofNat 16 (c.n 2)).toNat = c.n 2 := by
  have good := firstBad_none (passes_range p)
  have group : c.n 1 < 1024 := of_decide_eq_true (p := (ctxOf c s).n 1 < 1024) (good _ (.head _))
  have bid : c.n 2 < 65536 := of_decide_eq_true (p := (ctxOf c s).n 2 < 65536) (good _ (.tail _ (.head _)))
  rw [BitVec.toNat_ofNat, BitVec.toNat_ofNat]
  exact ⟨Nat.mod_eq_of_lt (by omega), Nat.mod_eq_of_lt bid⟩

/-- A broadcast started at its root is held in its prepare phase or answered, and its BID is the group's last. -/
theorem startRoot_holds {e : Env} {c : Cmd} {s : State} {id : Nat} {h : Hub}
    (names : (BitVec.ofNat 16 (c.n 1)).toNat = c.n 1 ∧ (BitVec.ofNat 16 (c.n 2)).toNat = c.n 2) :
    (startRoot e (ctxOf c s) id h).bc.last = Tab.put h.bc.last (c.n 1) (BitVec.ofNat 16 (c.n 2)) ∧
    ∃ p, heldB (startRoot e (ctxOf c s) id h) (c.n 1) (c.n 2) = some p ∧ p.back = .root ∧ p.window = c.w 3 ∧ p.cmd = wordsBytes (c.params.drop 5) ∧
      p.dest = c.d 4 ∧ p.phase < 2 := by
  obtain ⟨group, bid⟩ := names
  generalize hb : { rootCast c (nowNs h) with pend := some id, dest := c.d 4 } = b
  have start : startRoot e (ctxOf c s) id h = advanceB e (startPhase e b (holdNew c b h)).2 (startPhase e b (holdNew c b h)).1 := by
    subst hb
    rfl
  obtain ⟨asked, phase, only⟩ := startPhase_asked e b (holdNew c b h)
  have unit : (startPhase e b (holdNew c b h)).1.bc = (holdNew c b h).bc := only.keep .bc (by decide)
  obtain ⟨⟨l, n, rest⟩, held⟩ := advanceB_goes e (startPhase e b (holdNew c b h)).2 (startPhase e b (holdNew c b h)).1
  rw [start]
  have ids := asked_ids asked
  have first : b.phase = 0 ∧ b.group = BitVec.ofNat 16 (c.n 1) ∧ b.bid = BitVec.ofNat 16 (c.n 2) := by
    subst hb
    exact ⟨rfl, rfl, rfl⟩
  obtain ⟨zero, ofGroup, ofBid⟩ := first
  refine ⟨?_, ?_⟩
  · rw [rest, unit, ← ofBid]
    rfl
  · have new : (heldB (startPhase e b (holdNew c b h)).1 (c.n 1) (c.n 2)).isSome = true := by
      rw [heldB_congr (h := holdNew c b h) (by rw [unit])]
      exact heldB_addB (by rw [ofGroup, group]) (by rw [ofBid, bid])
    rcases held (by rw [ids.1]; exact (congrArg BitVec.toNat ofGroup).trans group) (by rw [ids.2]; exact (congrArg BitVec.toNat ofBid).trans bid) new with
      ⟨p, at_, same, how⟩ | ⟨late, -⟩
    · have is := same.trans asked
      subst hb
      exact ⟨p, at_, congrArg Bcast.back is, congrArg Bcast.window is, congrArg Bcast.cmd is, congrArg Bcast.dest is, by omega⟩
    · omega

/-! BCAST_COMMIT (R404, R406). -/

/-- A BCAST_COMMIT of a broadcast that its root does not hold. -/
theorem opBcastCommit_unknown {c : Cmd} {s : State} (no : ∀ b, heldB s.hub (c.n 1) (c.n 2) = some b → b.back ≠ .root) :
    opBcastCommit.act s.env (consumed c s) (ctxOf c s) = refuse stNotFound (consumed c s) 2 := by
  have gone : rootB (consumed c s) (ctxOf c s) = none := by
    unfold rootB
    rw [ctxOf_n, ctxOf_n, heldB_consumed, Option.filter_eq_none_iff]
    exact fun b at_ => by simpa using no b at_
  unfold opBcastCommit
  dsimp only
  rw [gone]

section
variable {c : Cmd} {s : State} {b : Bcast} (at_ : heldB s.hub (c.n 1) (c.n 2) = some b) (root : b.back = .root)
include at_ root

/-- A BCAST_COMMIT of a broadcast held at its root. -/
theorem opBcastCommit_held : opBcastCommit.act s.env (consumed c s) (ctxOf c s) =
    if b.phase ≠ 1 || photenShut s.hub (groupB s.hub (c.n 1)) then refuse stWrongState (consumed c s)
    else if (groupB s.hub (c.n 1)).dies.isEmpty then ok [0, 0] (dropB b (consumed c s))
    else .later none (fun id h =>
      let r := startPhase s.env { b with phase := 2, abort := decide (c.n 3 = 1), pend := some id } h
      advanceB s.env r.2 (putB r.2 r.1)) := by
  have held : rootB (consumed c s) (ctxOf c s) = some b := by
    unfold rootB
    rw [ctxOf_n, ctxOf_n, heldB_consumed, at_]
    simp [root]
  unfold opBcastCommit
  simp only [ctxOf_n, held, photenShut_consumed, groupB_consumed]
  rfl

/-- One whose prepare phase goes on, or whose commit phase has begun. -/
theorem opBcastCommit_early (early : b.phase ≠ 1) : opBcastCommit.act s.env (consumed c s) (ctxOf c s) = refuse stWrongState (consumed c s) := by
  rw [opBcastCommit_held at_ root, if_pos (by simp [early])]

variable (ready : b.phase = 1) (up : photenShut s.hub (groupB s.hub (c.n 1)) = false)
include ready up

/-- One of a group without members is let go. -/
theorem opBcastCommit_memberless (empty : (groupB s.hub (c.n 1)).dies = []) :
    opBcastCommit.act s.env (consumed c s) (ctxOf c s) = ok [0, 0] (dropB b (consumed c s)) := by
  rw [opBcastCommit_held at_ root, if_neg (by simp [ready, up]), if_pos (by simp [empty])]

/-- One that starts its commit or abort phase. -/
theorem opBcastCommit_starts (members : (groupB s.hub (c.n 1)).dies ≠ []) : opBcastCommit.act s.env (consumed c s) (ctxOf c s) =
    .later none (fun id h =>
      let r := startPhase s.env { b with phase := 2, abort := decide (c.n 3 = 1), pend := some id } h
      advanceB s.env r.2 (putB r.2 r.1)) := by
  rw [opBcastCommit_held at_ root, if_neg (by simp [ready, up]), if_neg (by simpa using members)]

end

/-- A broadcast put in its place in a phase that starts, once it has gone on: held in that commit phase, or let go at its end. -/
theorem commitPhase_goes {e : Env} {b x : Bcast} {h : Hub} {g d : Nat} (at_ : heldB h g d = some b) (names : x.group = b.group ∧ x.bid = b.bid)
    (phase : x.phase = 2) : ∀ r, startPhase e x h = r → (advanceB e r.2 (putB r.2 r.1)).bc.last = h.bc.last ∧
      (heldB (advanceB e r.2 (putB r.2 r.1)) g d = none ∨
        ∃ p, heldB (advanceB e r.2 (putB r.2 r.1)) g d = some p ∧ p.phase = 2 ∧ p.abort = x.abort ∧ p.cmd = x.cmd) := by
  rintro r rfl
  obtain ⟨asked, same, only⟩ := startPhase_asked e x h
  generalize startPhase e x h = r at asked same only ⊢
  have unit : r.1.bc = h.bc := only.keep .bc (by decide)
  have ids := asked_ids asked
  obtain ⟨ofGroup, ofBid⟩ := heldB_is at_
  have group : r.2.group.toNat = g := by rw [ids.1]; exact (congrArg BitVec.toNat names.1).trans ofGroup
  have bid : r.2.bid.toNat = d := by rw [ids.2]; exact (congrArg BitVec.toNat names.2).trans ofBid
  obtain ⟨⟨l, n, rest⟩, held⟩ := advanceB_goes e r.2 (putB r.2 r.1)
  have put : heldB (putB r.2 r.1) g d = some r.2 :=
    heldB_putB group bid (by rw [heldB_congr (h := h) (by rw [unit]), at_]; rfl)
  refine ⟨?_, ?_⟩
  · rw [rest]
    show r.1.bc.last = _
    rw [unit]
  · rcases held group bid (by rw [put]; rfl) with ⟨p, at', like, how⟩ | ⟨-, gone⟩
    · have is := like.trans asked
      have abort := congrArg Bcast.abort is
      have cmd := congrArg Bcast.cmd is
      exact .inr ⟨p, at', by omega, abort, cmd⟩
    · exact .inl gone

/-- Settles O43: each answer by the lemma on the case it is in, and the phases by how far a broadcast goes. -/
theorem broadcastCommands : Obligations.BroadcastCommands := by
  unfold Obligations.BroadcastCommands
  refine ⟨fun c s p => ⟨fun g known tray own up n ahead => ?_, fun away => ?_⟩,
    fun c s p => ⟨fun b at_ root up => ⟨fun ready empty => ?_, fun ready members => ?_, fun early => ?_⟩,
    fun no => ?_⟩⟩
  · subst ahead
    refine ⟨fun next near => ⟨fun full => ?_, fun room empty => ?_, fun room members no => ?_, fun room members yes => ?_⟩, fun bad => ?_⟩
    · exact ⟨op_busy p (opBcastPrepare_full known tray own up next near full), (replyOnly_only ..).keep .bc (by decide)⟩
    · obtain ⟨t, run, ans, bc⟩ := bcastCmd_done p (opBcastPrepare_memberless known tray own up next near room empty) (by decide) (holdNew_only ..)
      refine ⟨t, run, ans, bc.trans ?_⟩
      simp [holdNew, rootCast, addB, onBc]
    · exact bcastCmd_refused p (opBcastPrepare_unwritable known tray own up next near room members no) (by decide)
    · obtain ⟨K, run, unit, -⟩ := bcastCmd_starts p (opBcastPrepare_starts known tray own up next near room members yes)
      obtain ⟨last, b, held, is⟩ := startRoot_holds (e := s.env) (s := s) (id := s.hub.cmd.nextId) (h := K) (bcastPrepare_names p)
      exact ⟨_, b, run, last.trans (by rw [unit]), held, is⟩
    · exact bcastCmd_refused p (opBcastPrepare_replay known tray own up bad) (by decide)
  · exact bcastCmd_refused p (opBcastPrepare_elsewhere away) (by decide)
  · obtain ⟨t, run, ans, bc⟩ := bcastCmd_done p (opBcastCommit_memberless at_ root ready up empty) (by decide) (Only.set_bc (Only.refl _ _) rfl)
    refine ⟨t, run, ans, bc.trans ?_⟩
    simp [dropB, onBc]
  · obtain ⟨K, run, unit, -⟩ := bcastCmd_starts p (opBcastCommit_starts at_ root ready up members)
    obtain ⟨last, held⟩ := commitPhase_goes (e := s.env) (b := b) (x := { b with phase := 2, abort := decide (c.n 3 = 1), pend := some s.hub.cmd.nextId })
      (h := K) ((heldB_congr (by rw [unit]) ..).trans at_) ⟨rfl, rfl⟩ rfl _ rfl
    exact ⟨_, run, last.trans (by rw [unit]), held⟩
  · exact bcastCmd_refused p (opBcastCommit_early at_ root early) (by decide)
  · exact bcastCmd_refused p (opBcastCommit_unknown no) (by decide)

end Sys2Proof.Machine
end

section
/-!
PROOF. The broadcast's messages and deadlines (O44): the hub that a message is acted on in, what a PREPARE, an answer and a COMMIT make of the
broadcast they name, and how far a broadcast goes at its deadline.
-/
namespace Sys2Proof.Machine

/-! What of a hub decides how a message is met. -/

theorem groupB_congr {h k : Hub} (img : k.img = h.img) (jobs : k.jobs = h.jobs) (g : Nat) : groupB k g = groupB h g := by
  unfold groupB
  rw [groupOf_congr img jobs]
theorem seenB_congr {h k : Hub} (bc : k.bc = h.bc) (g b : Nat) : seenB k g b = seenB h g b := by
  unfold seenB seenOf
  rw [bc]
theorem tooOld_congr {h k : Hub} (bc : k.bc = h.bc) (g b : Nat) : tooOld k g b = tooOld h g b := by
  unfold tooOld seenOf
  rw [bc]
theorem dieMask_congr {h k : Hub} (img : k.img = h.img) (jobs : k.jobs = h.jobs) (x : BRx) (o : Nat) : dieMask k x o = dieMask h x o := by
  unfold dieMask membersIn myTray
  rw [groupB_congr img jobs, imgOf_congr img]

/-- A broadcast message that has arrived is acted on in a hub that has taken the frame or packet, and is as it was beside that. -/
theorem bcastMsg_run {s : State} {m : BcastIn} {x : BRx} {want : List Nat} (f : Env → BRx → Hub → Hub) (a : bcastMsg s.env s.hub m = some x)
    (w : want.contains x.msg.phase = true) : ∃ k, Only [.sb, .fab] s.hub.clean k ∧ k.fab.outq = s.hub.fab.outq ∧
      s.run (fun e h => bcastRx e m want (f e) h) = .next (s.settle (f s.env x k)) := by
  obtain ⟨k, only, outq, rx⟩ := bcastRx_ok (h := s.hub.clean) (f s.env) ((bcastMsg_clean ..).trans a) w
  exact ⟨k, only, outq, by rw [State.run_next, rx]⟩

/-! How far a broadcast goes. -/

section
variable {e : Env} {b : Bcast} {h : Hub} {g d : Nat} (group : b.group.toNat = g) (bid : b.bid.toNat = d) (at_ : (heldB h g d).isSome = true)
include group bid at_

/-- A broadcast in its prepare phase stays held as it goes on. -/
theorem advanceB_prepare (early : b.phase < 2) : ∃ p, heldB (advanceB e b h) g d = some p ∧ p.asked = b.asked ∧ p.phase < 2 := by
  rcases (advanceB_goes e b h).held group bid at_ with ⟨p, held, same, how⟩ | ⟨late, -⟩
  · exact ⟨p, held, same, by omega⟩
  · omega

/-- A broadcast in its commit phase stays in it or is let go. -/
theorem advanceB_commit (late : b.phase = 2) :
    heldB (advanceB e b h) g d = none ∨ ∃ p, heldB (advanceB e b h) g d = some p ∧ p.asked = b.asked ∧ p.phase = 2 := by
  rcases (advanceB_goes e b h).held group bid at_ with ⟨p, held, same, how⟩ | ⟨-, gone⟩
  · exact .inr ⟨p, held, same, by omega⟩
  · exact .inl gone

/-- A broadcast that goes on is let go at the end of a commit phase, or held with the answers that it had. -/
theorem advanceB_held : (2 ≤ b.phase ∧ heldB (advanceB e b h) g d = none) ∨ ∃ p, heldB (advanceB e b h) g d = some p ∧ p.asked = b.asked := by
  rcases (advanceB_goes e b h).held group bid at_ with ⟨p, held, same, -⟩ | gone
  · exact .inr ⟨p, held, same⟩
  · exact .inl gone

end

/-- A broadcast that goes on changes the broadcasts held and the answers remembered, and nothing else of the unit. -/
theorem advanceB_bc (e : Env) (b : Bcast) (h : Hub) : ∃ l n, (advanceB e b h).bc = { h.bc with held := l, seen := n } := (advanceB_goes e b h).rest

/-! A PREPARE (R399, R407). -/

section
variable {e : Env} {x : BRx} {h : Hub} (above : fromAbove e x = true)
include above

/-- A PREPARE of a broadcast not known here is held. -/
theorem prepareIn_holds (small : x.msg.group < 65536 ∧ x.msg.bid < 65536) (new : heldB h x.msg.group x.msg.bid = none)
    (unseen : seenB h x.msg.group x.msg.bid = none) (recent : tooOld h x.msg.group x.msg.bid = false) (room : h.bc.held.length < 4) :
    ∃ p, heldB (prepareIn e x h) x.msg.group x.msg.bid = some p ∧ p.phase < 2 ∧ p.back = x.back ∧ p.window = BitVec.ofNat 32 x.msg.window ∧
      p.cmd = x.msg.data.take x.msg.count ∧ p.hold = nowNs h ∧ p.member = (!e.tray && (groupB h x.msg.group).dies.contains (dieNo e h)) := by
  have group : (BitVec.ofNat 16 x.msg.group).toNat = x.msg.group := by rw [BitVec.toNat_ofNat, Nat.mod_eq_of_lt small.1]
  have bid : (BitVec.ofNat 16 x.msg.bid).toNat = x.msg.bid := by rw [BitVec.toNat_ofNat, Nat.mod_eq_of_lt small.2]
  unfold prepareIn
  dsimp only
  rw [above, if_neg (by decide), new, unseen, if_neg (by decide), recent, if_neg (by decide), if_neg (by omega)]
  generalize (if (!e.tray && (groupB h x.msg.group).dies.contains (dieNo e h)) = true then
    if (x.msg.data.take x.msg.count).length > 192 then stBadLength else checkEmbedded e (x.msg.data.take x.msg.count) h else 0) = status
  generalize hn : ({ group := _, bid := _, window := _, cmd := _, back := x.back, member := _, status := _, hold := _ } : Bcast) = n
  have unit : (startPhase e n (addB n h)).1.bc = (addB n h).bc := (startPhase_only ..).keep .bc (by decide)
  have held : (heldB (startPhase e n (addB n h)).1 x.msg.group x.msg.bid).isSome = true := by
    rw [heldB_congr (h := addB n h) (by rw [unit])]
    exact heldB_addB (by rw [← hn]; exact group) (by rw [← hn]; exact bid)
  obtain ⟨p, at_, same, early⟩ := advanceB_prepare (e := e) (b := { (startPhase e n (addB n h)).2 with
      ackD := if (!e.tray && (groupB h x.msg.group).dies.contains (dieNo e h) && decide (status ≤ 1)) = true then [dieNo e h] else []
      refD := if (!e.tray && (groupB h x.msg.group).dies.contains (dieNo e h) && decide (status > 1)) = true then [dieNo e h] else [] })
    (by rw [← hn]; exact group) (by rw [← hn]; exact bid) held (by rw [← hn]; exact Nat.zero_lt_two)
  refine ⟨p, at_, early, ?_⟩
  subst hn
  exact ⟨(congrArg Bcast.back same :), (congrArg Bcast.window same :), (congrArg Bcast.cmd same :), (congrArg Bcast.hold same :),
    (congrArg Bcast.member same :)⟩

/-- A copy of a PREPARE is answered as before, or not at all while no answer has gone. -/
theorem prepareIn_again (known : (heldB h x.msg.group x.msg.bid).isSome = true ∨ (seenB h x.msg.group x.msg.bid).isSome = true) :
    Only [.xs, .fab, .sb] h (prepareIn e x h) ∧
    ∀ bytes y, (seenB h x.msg.group x.msg.bid).bind BcastSeen.prep = some bytes → readBMsg bytes = some y →
      prepareIn e x h = sendBack e x.back y h := by
  unfold prepareIn
  dsimp only
  rw [above, if_neg (by decide), if_pos (by simpa using known)]
  refine ⟨?_, fun bytes y prep read => ?_⟩
  · split
    · split
      · exact sendBack_only ..
      · exact Only.refl _ _
    · exact Only.refl _ _
  · rw [prep]
    dsimp only
    rw [read]

/-- A PREPARE that is too old, or the fifth, is refused. -/
theorem prepareIn_refused (new : heldB h x.msg.group x.msg.bid = none) (unseen : seenB h x.msg.group x.msg.bid = none)
    (bad : tooOld h x.msg.group x.msg.bid = true ∨ 4 ≤ h.bc.held.length) : Only [.xs, .fab, .sb] h (prepareIn e x h) := by
  unfold prepareIn
  dsimp only
  rw [above, if_neg (by decide), new, unseen, if_neg (by decide)]
  by_cases old : tooOld h x.msg.group x.msg.bid = true
  · rw [if_pos old]
    exact refuseB_only ..
  · rw [if_neg old, if_pos (bad.resolve_left old)]
    exact refuseB_only ..

end

/-! Answers (R400, R401, R402). -/

/-- A late answer is counted. -/
theorem lateAck_bc (x : BRx) (h : Hub) : (lateAck x h).bc = { h.bc with lateAcks := h.bc.lateAcks + 1 } := by
  unfold lateAck
  rw [(emit_only ..).keep .bc (by decide)]
  rfl

/-- A broadcast with the answer of a die. -/
def withDie (x : BRx) (h : Hub) (b : Bcast) : Bcast :=
  { b with awaitD := b.awaitD.filter (fun d => decide (d ≠ x.src)), ackD := unionNat b.ackD (dieMask h x 0), refD := unionNat b.refD (dieMask h x 16) }

/-- A broadcast with the answer of a tray or a combiner, which stands for the trays of a list. -/
def withTrays (x : BRx) (h : Hub) (ts : List Nat) (b : Bcast) : Bcast :=
  let ack := maskOf x.msg.data 0 128 ts
  { b with
    awaitT := b.awaitT.filter (fun y => !ts.contains y), ackT := b.ackT ++ ack, refT := b.refT ++ maskOf x.msg.data 16 128 ts
    fullT := if decide (x.msg.status = 0) && decide (x.msg.count = (membersOf h x.msg.group ack).length) then b.fullT ++ ack else b.fullT
    covered := b.covered + x.msg.count, refused := b.refused + x.msg.status
    exT := if b.phase < 2 then b.exT ++ ts.filter (fun y => !ack.contains y) else b.exT }

section
variable {e : Env} {x : BRx} {h : Hub}

/-- An answer that no broadcast waits for in its phase is late. -/
theorem ackIn_late (no : ∀ b, heldB h x.msg.group x.msg.bid = some b → b.phase ≠ x.msg.phase - 1) : ackIn e x h = lateAck x h := by
  unfold ackIn
  cases at_ : heldB h x.msg.group x.msg.bid with
  | none => rfl
  | some b =>
    dsimp only
    rw [if_pos (decide_eq_true (no b at_))]

variable {b : Bcast} (at_ : heldB h x.msg.group x.msg.bid = some b) (phase : b.phase = x.msg.phase - 1)
include at_ phase

/-- A die's answer comes to its part of the broadcast. -/
theorem ackIn_sb {r : Route} (back : x.back = .sb r) : ackIn e x h = dieAck e x b h := by
  unfold ackIn
  rw [at_]
  dsimp only
  rw [if_neg (by simp [phase]), back]

/-- A tray's answer comes to its part of the broadcast. -/
theorem ackIn_photen {n : Node} (back : x.back = .photen n) : ackIn e x h = trayAck e x b h := by
  unfold ackIn
  rw [at_]
  dsimp only
  rw [if_neg (by simp [phase]), back]

/-- A die's answer joins those of the tree while its part goes on. -/
theorem ackIn_die {r : Route} (back : x.back = .sb r) (goesOn : (e.tray && decide (b.tree = 2)) = false) :
    (ackIn e x h).bc.lateAcks = h.bc.lateAcks ∧ ((2 ≤ b.phase ∧ heldB (ackIn e x h) x.msg.group x.msg.bid = none) ∨
      ∃ p, heldB (ackIn e x h) x.msg.group x.msg.bid = some p ∧ p.awaitD = b.awaitD.filter (fun d => decide (d ≠ x.src)) ∧
        p.ackD = unionNat b.ackD (dieMask h x 0) ∧ p.refD = unionNat b.refD (dieMask h x 16)) := by
  have is : ackIn e x h = advanceB e (withDie x h b) h := by
    rw [ackIn_sb at_ phase back]
    unfold dieAck
    rw [goesOn, if_neg (by decide)]
    rfl
  obtain ⟨group, bid⟩ := heldB_is at_
  obtain ⟨l, n, rest⟩ := advanceB_bc e (withDie x h b) h
  have here : (heldB h x.msg.group x.msg.bid).isSome = true := by rw [at_, Option.isSome_some]
  rw [is]
  refine ⟨by rw [rest], (advanceB_held (b := withDie x h b) group bid here).imp_right ?_⟩
  rintro ⟨p, held, same⟩
  exact ⟨p, held, (congrArg Bcast.awaitD same :), (congrArg Bcast.ackD same :), (congrArg Bcast.refD same :)⟩

variable {n : Node} (back : x.back = .photen n) {ts : List Nat}
  (for_ : b.awaitT.filter (fun y => decide (y = x.src - 2 ^ 17) || decide (viaComb (groupB h x.msg.group) y = some (x.src - 2 ^ 17))) = ts)
include back for_

/-- A tray's answer for no tray that is awaited is late. -/
theorem ackIn_tray_late (empty : ts = []) : ackIn e x h = lateAck x h := by
  rw [ackIn_photen at_ phase back]
  unfold trayAck
  dsimp only
  rw [for_, if_pos (by rw [empty]; rfl)]

/-- A tray's answer joins those of the levels above. -/
theorem ackIn_tray (nonempty : ts ≠ []) :
    (ackIn e x h).bc.lateAcks = h.bc.lateAcks ∧ ((2 ≤ b.phase ∧ heldB (ackIn e x h) x.msg.group x.msg.bid = none) ∨
      ∃ p, heldB (ackIn e x h) x.msg.group x.msg.bid = some p ∧ p.ackT = b.ackT ++ maskOf x.msg.data 0 128 ts ∧
        p.refT = b.refT ++ maskOf x.msg.data 16 128 ts ∧ p.covered = b.covered + x.msg.count ∧ p.refused = b.refused + x.msg.status) := by
  have is : ackIn e x h = advanceB e (withTrays x h ts b) h := by
    rw [ackIn_photen at_ phase back]
    unfold trayAck
    dsimp only
    rw [for_, if_neg (by simpa using nonempty)]
    rfl
  obtain ⟨group, bid⟩ := heldB_is at_
  obtain ⟨l, n, rest⟩ := advanceB_bc e (withTrays x h ts b) h
  have here : (heldB h x.msg.group x.msg.bid).isSome = true := by rw [at_, Option.isSome_some]
  rw [is]
  refine ⟨by rw [rest], (advanceB_held (b := withTrays x h ts b) group bid here).imp_right ?_⟩
  rintro ⟨p, held, same⟩
  exact ⟨p, held, (congrArg Bcast.ackT same :), (congrArg Bcast.refT same :),
    (congrArg Bcast.covered same :), (congrArg Bcast.refused same :)⟩

end

/-! Deadlines (R401, R402). -/

section
variable {s : State} {g d : BitVec 16} {b : Bcast} (at_ : heldB s.hub g.toNat d.toNat = some b)
include at_

/-- The deadline of a broadcast held here takes place, and the broadcast goes on. -/
theorem bcastAckDeadline_run (up : upState s.hub = true) (due : dueB s.hub b = true) (alone : s.env.beaten evBcast (deadlineB b) (nowNs s.hub) = false) :
    exec (.bcastAckDeadline g d) s = .next (s.settle (advanceB s.env b s.hub.clean)) := by
  show execBcastAckDeadline g d s = _
  unfold execBcastAckDeadline
  rw [State.run_next, heldB_clean, at_]
  dsimp only
  rw [guard_pos (by simp [up, show dueB s.hub.clean b = true from due, alone])]

/-- A broadcast not committed within the hold time is let go. -/
theorem prepareHoldExpiry_run (up : upState s.hub = true) (away : b.back ≠ .root) (early : b.phase < 2) (late : b.hold + s.hub.bc.hold ≤ nowNs s.hub)
    (alone : s.env.beaten evCommit (b.hold + s.hub.bc.hold) (nowNs s.hub) = false) :
    ∃ k, exec (.prepareHoldExpiry g d) s = .next (s.settle k) ∧ k.bc = (dropB b s.hub).bc := by
  refine ⟨if b.member && decide (b.status.toNat ≤ 1) then emit 15 0 0 noEnt 4 4 [g.setWidth 32, d.setWidth 32] (dropB b s.hub.clean)
    else dropB b s.hub.clean, ?_, ?_⟩
  · show execPrepareHoldExpiry g d s = _
    unfold execPrepareHoldExpiry
    rw [State.run_next, heldB_clean, at_]
    dsimp only
    rw [guard_pos (by simp [up, away, early, late, alone])]
  · split
    · exact (emit_only ..).keep .bc (by decide)
    · rfl

end

/-- A commit phase that ends here lets its broadcast go. -/
theorem endPhase_commit {e : Env} {b : Bcast} {h : Hub} {g d : Nat} (group : b.group.toNat = g) (bid : b.bid.toNat = d) (late : 2 ≤ b.phase) :
    heldB (endPhase e b h) g d = none := by
  obtain ⟨n, bc⟩ := (endPhase_bc e b h).2 late
  rw [heldB_congr (h := dropB b h) (by rw [bc])]
  exact heldB_dropB group bid

section
variable {e : Env} {b : Bcast} {h : Hub} {g d : Nat} (group : b.group.toNat = g) (bid : b.bid.toNat = d) (at_ : (heldB h g d).isSome = true)
include group bid at_

/-- A prepare phase that ends here leaves its broadcast answered. -/
theorem endPhase_prepare (early : b.phase < 2) :
    ∃ p, heldB (endPhase e b h) g d = some p ∧ p.phase = 1 ∧ p.asked = b.asked ∧ p.exD = b.exD := by
  obtain ⟨p, n, asked, phase, exD, -, bc⟩ := (endPhase_bc e b h).1 early
  have ids := asked_ids asked
  refine ⟨p, ?_, phase, asked, exD⟩
  rw [heldB_congr (h := putB p h) (by rw [bc])]
  exact heldB_putB (by rw [ids.1]; exact group) (by rw [ids.2]; exact bid) at_

/-- A die whose deadline has passed answers with what it has (R401). -/
theorem advanceB_die (die : e.tray = false) (past : b.treeDue ≤ nowNs h) (waits : b.phase = 0 ∨ b.phase = 2) :
    (b.phase = 2 ∧ heldB (advanceB e b h) g d = none) ∨ ∃ p, heldB (advanceB e b h) g d = some p ∧ p.phase = 1 ∧ p.asked = b.asked := by
  have ends : advanceB e b h = endPhase e b h := by
    unfold advanceB
    rw [if_neg (by rw [die]; decide), if_pos (.inr past)]
  rw [ends]
  rcases waits with zero | two
  · obtain ⟨p, held, phase, asked, -⟩ := endPhase_prepare (e := e) group bid at_ (by omega)
    exact .inr ⟨p, held, phase, asked⟩
  · exact .inl ⟨two, endPhase_commit group bid (by omega)⟩

variable (tray : e.tray = true) (past : b.treeDue ≤ nowNs h)
include tray past

/-- A tray whose tree has not all answered by its deadline asks the members without an answer on their alternate routes (R401). -/
theorem advanceB_again (first : b.tree = 0) (lack : lackingD h b ≠ []) (wait : 0 < h.bc.tack) (above : b.awaitT = [] ∨ nowNs h < b.upDue) :
    heldB (advanceB e b h) g d = some { b with tree := 1, treeDue := nowNs h + 2 * h.bc.tack } := by
  obtain ⟨k, only, part⟩ := trayPart_again (e := e) first past lack wait
  have now : nowNs k = nowNs h := nowNs_congr (only.keep .time (by decide))
  have up : upPart { b with tree := 1, treeDue := nowNs h + 2 * h.bc.tack } k = (k, { b with tree := 1, treeDue := nowNs h + 2 * h.bc.tack }) :=
    if_pos (by rw [now]; simpa using above)
  unfold advanceB
  dsimp only
  rw [if_pos tray, part, up, if_neg (fun ended => by simp at ended)]
  exact heldB_putB group bid (by rw [heldB_congr (h := h) (by rw [only.keep .bc (by decide)])]; exact at_)

/-- A tray whose members have been asked once more ends its part without those that have not answered (R401). -/
theorem advanceB_without (asked : b.tree = 1) (alone : b.awaitT = []) (waits : b.phase = 0 ∨ b.phase = 2) :
    (b.phase = 2 ∧ heldB (advanceB e b h) g d = none) ∨ ∃ p, heldB (advanceB e b h) g d = some p ∧ p.phase = 1 ∧ p.exD = lackingD h b ++ b.refD := by
  have up : upPart { b with tree := 2 } h = (h, { b with tree := 2 }) := if_pos (by simp [alone])
  have ends : advanceB e b h = endPhase e (excludeD h { b with tree := 2 }) h := by
    unfold advanceB
    dsimp only
    rw [if_pos tray, trayPart_ends asked past, up, if_pos ⟨rfl, by simp [alone]⟩]
  rw [ends]
  rcases waits with zero | two
  · have out : excludeD h { b with tree := 2 } = { b with tree := 2, exD := lackingD h b ++ b.refD } := if_pos (by rw [zero]; decide)
    rw [out]
    obtain ⟨p, held, phase, -, exD⟩ := endPhase_prepare (e := e) (b := { b with tree := 2, exD := lackingD h b ++ b.refD }) group bid at_
      (by rw [zero]; decide)
    exact .inr ⟨p, held, phase, exD⟩
  · have in_ : excludeD h { b with tree := 2 } = { b with tree := 2 } := if_neg (by rw [two]; decide)
    rw [in_]
    exact .inl ⟨two, endPhase_commit (b := { b with tree := 2 }) group bid (by rw [two])⟩

end

/-- A broadcast whose deadline has passed waits for answers. -/
theorem dueB_waits {h : Hub} {b : Bcast} (due : dueB h b = true) : b.phase = 0 ∨ b.phase = 2 := by
  unfold dueB waitingB at due
  rw [Bool.and_eq_true] at due
  simpa using due.1

/-! A COMMIT or an ABORT (R404, R405). -/

/-- A COMMIT's masks exclude this die. -/
def masked (e : Env) (x : BRx) (h : Hub) : Bool :=
  bitOf (beAt x.msg.data 0 128) (dieNo e h / 128 % 1024) || bitOf (beAt x.msg.data 128 16) (dieNo e h % 128)

theorem masked_congr {h k : Hub} (img : k.img = h.img) (e : Env) (x : BRx) : masked e x k = masked e x h := by
  unfold masked
  rw [dieNo_congr e img]

section
variable {e : Env} {b : Bcast} {x : BRx} {h : Hub}

/-- A block that is no member, a member that refused or is excluded, and an ABORT apply nothing. -/
theorem commitOwn_none (out : b.member = false ∨ 1 < b.status.toNat ∨ masked e x h = true ∨ x.msg.phase = 4) : (commitOwn e b x h).1 = h := by
  unfold commitOwn
  dsimp only
  split
  · rfl
  · next in_ =>
    rw [if_pos]
    simp only [Bool.or_eq_true, Bool.not_eq_true', decide_eq_true_eq, not_or] at in_
    obtain ⟨⟨member, good⟩, notDie, notTray⟩ := in_
    rcases out with no | bad | hit | abort
    · exact absurd no member
    · exact absurd bad good
    · unfold masked at hit
      rw [Bool.or_eq_true] at hit
      exact (hit.elim notDie notTray).elim
    · exact abort

variable (member : b.member = true) (good : b.status.toNat ≤ 1) (in_ : masked e x h = false) (commit : x.msg.phase = 2)
include member good in_ commit

/-- A member's COMMIT: at once, or at the end of the window named. -/
theorem commitOwn_member : commitOwn e b x h = if b.window = 0 ∨ windowEnded h b.window = true then (applyEmbedded e b.cmd h, true)
    else (onBc (fun u => { u with apply := u.apply ++ [(b.window, b.cmd)] }) h, true) := by
  unfold masked at in_
  unfold commitOwn
  dsimp only
  rw [Bool.or_assoc, in_, if_neg (by simp [member, good]), if_neg (by omega)]

end

section
variable {e : Env} {x : BRx} {b : Bcast} {k : Hub} (above : fromAbove e x = true) (at_ : heldB k x.msg.group x.msg.bid = some b) (early : b.phase < 2)
include above at_ early

/-- A COMMIT or ABORT by which this block applies nothing starts the commit or abort phase here, which is gone or goes on. -/
theorem commitIn_none (out : e.tray = true ∨ b.member = false ∨ 1 < b.status.toNat ∨ masked e x k = true ∨ x.msg.phase = 4) :
    (commitIn e x k).bc.apply = k.bc.apply ∧ (heldB (commitIn e x k) x.msg.group x.msg.bid = none ∨
      ∃ p, heldB (commitIn e x k) x.msg.group x.msg.bid = some p ∧ p.phase = 2 ∧ p.abort = decide (x.msg.phase = 4) ∧ p.back = x.back) := by
  obtain ⟨K, y, z, only, is, phase, abort, back, -, group, bid, member, status, -, -, -⟩ := commitIn_held above at_ early
  have unit : K.bc = k.bc := only.keep .bc (by decide)
  have goes : commitIn e x k = advanceB e y K := by
    rw [is]
    split
    · rfl
    · next die =>
      rw [commitOwn_none (by rw [member, status, masked_congr (only.keep .img (by decide))]; exact out.resolve_left die)]
  obtain ⟨ofGroup, ofBid⟩ := heldB_is at_
  obtain ⟨l, n, rest⟩ := advanceB_bc e y K
  have here : (heldB K x.msg.group x.msg.bid).isSome = true := by rw [heldB_congr (h := k) (by rw [unit]), at_, Option.isSome_some]
  rw [goes]
  refine ⟨by rw [rest, unit], ?_⟩
  refine (advanceB_commit (by rw [group]; exact ofGroup) (by rw [bid]; exact ofBid) here phase).imp_right ?_
  rintro ⟨p, held, same, two⟩
  have ofAbort : p.abort = y.abort := (congrArg Bcast.abort same :)
  have ofBack : p.back = y.back := (congrArg Bcast.back same :)
  exact ⟨p, held, two, ofAbort.trans abort, ofBack.trans back⟩

variable (die : e.tray = false) (member : b.member = true) (good : b.status.toNat ≤ 1) (in_ : masked e x k = false) (commit : x.msg.phase = 2)
include die member good in_ commit

/-- A member's COMMIT comes to its own part, and to an answer that it acknowledges. -/
theorem commitIn_member : ∃ K y, Only [.xs, .fab, .sb] k K ∧ y.group = b.group ∧ y.bid = b.bid ∧ y.phase = 2 ∧
    (b.window = 0 ∨ windowEnded k b.window = true → y.ackD = [dieNo e k] ∧ commitIn e x k = advanceB e y (applyEmbedded e b.cmd K)) ∧
    (b.window ≠ 0 → windowEnded k b.window = false →
      commitIn e x k = advanceB e y (onBc (fun u => { u with apply := u.apply ++ [(b.window, b.cmd)] }) K)) := by
  obtain ⟨K, y, z, only, is, phase, -, -, -, group, bid, ofMember, ofStatus, ofWindow, ofCmd, ack⟩ := commitIn_held above at_ early
  have own := commitOwn_member (e := e) (b := z) (x := x) (h := K) (by rw [ofMember, member]) (by rw [ofStatus]; exact good)
    (by rw [masked_congr (only.keep .img (by decide)), in_]) commit
  have ended : windowEnded K b.window = windowEnded k b.window := by
    unfold windowEnded
    rw [only.keep .casc (by decide)]
  rw [ofWindow, ofCmd, ended] at own
  rw [if_neg (by rw [die]; decide)] at is
  refine ⟨K, y, only, group, bid, phase, fun now => ?_, fun named later => ?_⟩
  · rw [if_pos now] at own
    rw [is, ack die, own, dieNo_congr e (only.keep .img (by decide))]
    exact ⟨rfl, rfl⟩
  · rw [if_neg (by rw [later]; exact fun z => z.elim named (by decide))] at own
    rw [is, own]

end

/-- Settles O44: a message by the lemma on what it comes to in the hub that has taken it, a deadline by how far the broadcast goes. -/
theorem broadcastMessages : Obligations.BroadcastMessages := by
  unfold Obligations.BroadcastMessages
  refine ⟨fun s m x msg zero above => ?_, fun s m x msg phases => ?_,
    fun s g d b at_ up due alone => ⟨fun die past => ?_, fun tray first past lack wait above => ?_, fun tray asked past levels => ?_⟩,
    fun s m x b msg above at_ early => ?_, fun s g d b at_ up away early late alone => ?_⟩
  · obtain ⟨k, only, outq, run⟩ := bcastMsg_run (want := [0]) prepareIn msg (by rw [zero]; decide)
    have unit : k.bc = s.hub.bc := only.keep .bc (by decide)
    have img : k.img = s.hub.img := only.keep .img (by decide)
    have jobs : k.jobs = s.hub.jobs := only.keep .jobs (by decide)
    have now : nowNs k = nowNs s.hub := nowNs_congr (only.keep .time (by decide))
    have held : heldB k x.msg.group x.msg.bid = heldB s.hub x.msg.group x.msg.bid := heldB_congr (by rw [unit]) ..
    have seen : seenB k x.msg.group x.msg.bid = seenB s.hub x.msg.group x.msg.bid := seenB_congr unit ..
    have old : tooOld k x.msg.group x.msg.bid = tooOld s.hub x.msg.group x.msg.bid := tooOld_congr unit ..
    rw [← held, ← seen, ← old, ← unit]
    refine ⟨fun new unseen recent room => ?_, fun known => ?_, fun new unseen bad => ?_⟩
    · obtain ⟨p, is⟩ := prepareIn_holds above (bcastMsg_small msg) new unseen recent room
      rw [now, groupB_congr img jobs, dieNo_congr s.env img] at is
      exact ⟨_, p, run, is⟩
    · obtain ⟨keeps, again⟩ := prepareIn_again above known
      refine ⟨_, run, keeps.keep .bc (by decide), fun bytes y n prep read back => ?_⟩
      rw [State.settle_hub, Hub.clean_fab, again bytes y prep read, back, sendBack_photen, outq, now]
    · exact ⟨_, run, (prepareIn_refused above new unseen bad).keep .bc (by decide)⟩
  · obtain ⟨k, only, outq, run⟩ := bcastMsg_run (want := [1, 3]) ackIn msg (by rcases phases with one | three <;> simp [*])
    have unit : k.bc = s.hub.bc := only.keep .bc (by decide)
    have held : heldB k x.msg.group x.msg.bid = heldB s.hub x.msg.group x.msg.bid := heldB_congr (by rw [unit]) ..
    refine ⟨fun no => ?_, fun b at_ phase => ?_⟩
    · rw [← held] at no
      exact ⟨_, run, by rw [State.settle_hub, Hub.clean_bc, ackIn_late no, lateAck_bc, unit]⟩
    · have img : k.img = s.hub.img := only.keep .img (by decide)
      have jobs : k.jobs = s.hub.jobs := only.keep .jobs (by decide)
      rw [← held] at at_
      rw [← unit, ← dieMask_congr img jobs, ← dieMask_congr img jobs, ← groupB_congr img jobs]
      refine ⟨fun r back goesOn => ⟨_, run, ackIn_die at_ phase back goesOn⟩,
        fun n ts back for_ => ⟨fun empty => ⟨_, run, ?_⟩, fun nonempty => ⟨_, run, ackIn_tray at_ phase back for_ nonempty⟩⟩⟩
      rw [State.settle_hub, Hub.clean_bc, ackIn_tray_late at_ phase back for_ empty, lateAck_bc]
  · obtain ⟨ofGroup, ofBid⟩ := heldB_is at_
    exact ⟨_, bcastAckDeadline_run at_ up due alone,
      advanceB_die (h := s.hub.clean) ofGroup ofBid (by rw [heldB_clean, at_]; rfl) die past (dueB_waits due)⟩
  · obtain ⟨ofGroup, ofBid⟩ := heldB_is at_
    exact ⟨_, bcastAckDeadline_run at_ up due alone,
      advanceB_again (h := s.hub.clean) ofGroup ofBid (by rw [heldB_clean, at_]; rfl) tray past first lack wait above⟩
  · obtain ⟨ofGroup, ofBid⟩ := heldB_is at_
    exact ⟨_, bcastAckDeadline_run at_ up due alone,
      advanceB_without (h := s.hub.clean) ofGroup ofBid (by rw [heldB_clean, at_]; rfl) tray past asked levels (dueB_waits due)⟩
  · refine ⟨fun nothing => ?_, fun out mask two die member good => ?_⟩
    · by_cases four : x.msg.phase = 4
      · obtain ⟨k, only, -, run⟩ := bcastMsg_run (want := [4]) commitIn msg (by rw [four]; decide)
        have unit : k.bc = s.hub.bc := only.keep .bc (by decide)
        rw [if_pos four, ← unit]
        exact ⟨_, run, commitIn_none above ((heldB_congr (by rw [unit]) ..).trans at_) early (.inr (.inr (.inr (.inr four))))⟩
      · obtain ⟨two, no⟩ := nothing.resolve_left four
        obtain ⟨k, only, -, run⟩ := bcastMsg_run (want := [2]) commitIn msg (by rw [two]; decide)
        have unit : k.bc = s.hub.bc := only.keep .bc (by decide)
        rw [if_neg four, ← unit]
        exact ⟨_, run, commitIn_none above ((heldB_congr (by rw [unit]) ..).trans at_) early (no.imp_right (Or.imp_right .inl))⟩
    · obtain ⟨k, only, -, run⟩ := bcastMsg_run (want := [2]) commitIn msg (by rw [two]; decide)
      have unit : k.bc = s.hub.bc := only.keep .bc (by decide)
      have here := (heldB_congr (by rw [unit]) ..).trans at_
      have hit : masked s.env x k = out := (masked_congr (h := s.hub) (only.keep .img (by decide)) ..).trans mask
      have ended : windowEnded k b.window = windowEnded s.hub b.window := by
        unfold windowEnded
        rw [show k.casc = s.hub.casc from only.keep .casc (by decide)]
      rw [← ended]
      refine ⟨fun yes => ?_, fun no named later => ?_, fun no now => ?_⟩
      · rw [← unit]
        exact ⟨_, run, (commitIn_none above here early (.inr (.inr (.inr (.inl (hit.trans yes)))))).1⟩
      · obtain ⟨K, y, keeps, -, -, -, -, waits⟩ := commitIn_member above here early die member good (hit.trans no) two
        obtain ⟨l, n, rest⟩ := advanceB_bc s.env y (onBc (fun u => { u with apply := u.apply ++ [(b.window, b.cmd)] }) K)
        refine ⟨_, run, ?_⟩
        rw [State.settle_hub, Hub.clean_bc, waits named later, rest, ← unit, ← keeps.keep .bc (by decide)]
        rfl
      · obtain ⟨K, y, keeps, group, bid, phase, applies, -⟩ := commitIn_member above here early die member good (hit.trans no) two
        obtain ⟨ack, is⟩ := applies now
        exact ⟨K, y, (Only.weaken only rfl).trans keeps, group, bid, phase, ack.trans (by rw [dieNo_congr s.env (h := s.hub) (only.keep .img (by decide))]),
          run.trans (by rw [is])⟩
  · obtain ⟨k, run, unit⟩ := prepareHoldExpiry_run at_ up away early late alone
    exact ⟨_, run, unit⟩

end Sys2Proof.Machine
end

section
/-!
PROOF. The Photen output queue and the heartbeats (O47): what the packet at the queue's head comes to, and what a heartbeat sent, received or
missed leaves of the sideband unit.
-/
namespace Sys2Proof.Machine

/-! What is read of a hub with nothing left to write. -/

@[simp] theorem sbRuns_clean (h : Hub) : sbRuns h.clean = sbRuns h := rfl
@[simp] theorem memberDie_clean (e : Env) (h : Hub) (n : Nat) : memberDie e h.clean n = memberDie e h n := rfl
@[simp] theorem txHead_clean (h : Hub) : txHead h.clean = txHead h := rfl
@[simp] theorem bucketNow_clean (h : Hub) : bucketNow h.clean = bucketNow h := rfl

/-! The output queue (R378, R379, R381). -/

/-- A packet leaves the output queue, and of the port nothing else changes. -/
theorem unqueue_fab (p : Packet) (h : Hub) : (unqueue p h).fab = { h.fab with outq := h.fab.outq.erase p } := by
  unfold unqueue
  rw [noteFill_fab]

section
variable {s : State}

/-- With an empty queue nothing is sent. -/
theorem photenTxHead_empty (empty : txHead s.hub = none) : exec .photenTxHead s = .next (s.settle s.hub.clean) := by
  show execPhotenTxHead s = _
  unfold execPhotenTxHead
  rw [State.run_next, txHead_clean, empty]

variable {p : Packet} (head : txHead s.hub = some p) (on : working s.hub = true)
include head on

/-- A packet that the bucket pays is sent green. -/
theorem photenTxHead_green (pays : 1024 * photenLen p.body ≤ bucketNow s.hub) :
    exec .photenTxHead s = .next (s.settle (sendGreen s.env p (bucketNow s.hub) s.hub.clean)) := by
  show execPhotenTxHead s = _
  unfold execPhotenTxHead
  rw [State.run_next, txHead_clean, head]
  dsimp only
  rw [guard_pos (by simpa using on), bucketNow_clean, if_pos pays]

/-- One that it does not is discarded in TC3 and waits in the others. -/
theorem photenTxHead_red (short : bucketNow s.hub < 1024 * photenLen p.body) : exec .photenTxHead s = .next (s.settle (
    if p.tc = 3 then unqueue p { s.hub.clean with fab := { s.hub.fab with bucket := bucketNow s.hub, filled := nowNs s.hub, red := s.hub.fab.red + 1 } }
    else { s.hub.clean with fab := { s.hub.fab with bucket := bucketNow s.hub, filled := nowNs s.hub } })) := by
  show execPhotenTxHead s = _
  unfold execPhotenTxHead
  rw [State.run_next, txHead_clean, head]
  dsimp only
  rw [guard_pos (by simpa using on), bucketNow_clean, if_neg (Nat.not_le.mpr short)]
  rfl

end

/-- A packet sent green takes the next MSEQ of its class, and the bucket pays its length (R376, R378). -/
theorem sendGreen_fab (e : Env) (p : Packet) (level : Nat) (h : Hub) : (sendGreen e p level h).fab = { h.fab with
    outq := h.fab.outq.erase p, tx := h.fab.tx + 1, bucket := level - 1024 * photenLen p.body, filled := nowNs h
    mseq := setAt h.fab.mseq p.tc.toNat (getAt h.fab.mseq p.tc.toNat 0 + 1), fresh := setAt h.fab.fresh p.tc.toNat (getAt h.fab.fresh p.tc.toNat 0 - 1)
    sent := h.fab.sent ++ [photenBytes p (nodeNo e h) (getAt h.fab.mseq p.tc.toNat 0).toNat false (decide (getAt h.fab.fresh p.tc.toNat 0 > 0))] } := by
  unfold sendGreen
  rw [unqueue_fab]

/-! Heartbeats (R381, R392). -/

/-- A heartbeat in a packet becomes the tray's record of the die. -/
theorem photenHeartbeat_run {s : State} {p : List Byte} {port : BitVec 6} (ok : photenOk s.env s.hub 5 p port.toNat = true) (tray : s.env.tray = true) :
    ∃ r, exec (.photenHeartbeatReceive p port) s = .next (s.settle (noteHeartbeat s.env (readHeartbeat (photenFields p).body) { s.hub.clean with
      fab := { s.hub.fab with rx := r, accepted := s.hub.fab.accepted + 1 } })) := by
  obtain ⟨r, rx⟩ := photenRx_ok (h := s.hub.clean) (fun r h => if s.env.tray then noteHeartbeat s.env (readHeartbeat r.body) h else h) ok
  refine ⟨Tab.put s.hub.fab.rx ((photenFields p).src * 4 + (photenFields p).tc) r, ?_⟩
  show execPhotenHeartbeatReceive p port s = _
  unfold execPhotenHeartbeatReceive
  rw [State.run_next, rx, if_pos tray]
  rfl

/-- A die's heartbeat falls due a period after the last (R392). -/
theorem heartbeatSend_run {s : State} (die : s.env.tray = false) (on : sbRuns s.hub = true) (due : s.hub.sb.lastBeat + s.hub.sb.beatPeriod ≤ nowNs s.hub) :
    exec .heartbeatSend s = .next (s.settle (sendHeartbeat s.env s.hub.clean)) :=
  run_guard (b := fun e h => !e.tray && sbRuns h && decide (h.sb.lastBeat + h.sb.beatPeriod ≤ nowNs h))
    (by simp [die, on, due])

/-- A heartbeat sent is counted, at its time. -/
theorem sendHeartbeat_counts (e : Env) (h : Hub) :
    (sendHeartbeat e h).sb.beat = h.sb.beat + 1 ∧ (sendHeartbeat e h).sb.lastBeat = nowNs h := by
  have line := (sbUp_frames e (some (decide ((h.sb.beat + 1) % 8 = 0))) { ftype := 4, payload := .heartbeat (heartbeatNow e h) }
    { h with sb := { h.sb with beat := h.sb.beat + 1, lastBeat := nowNs h } }).sb
  exact ⟨(congrArg Sb.beat line :), (congrArg Sb.lastBeat line :)⟩

/-! The loss of a die or of the tray (R393, R463). -/

/-- What a die that is lost leaves of the hub: its record, the loss counted and reported. -/
theorem dieLost_run {s : State} {die : BitVec 7} {d : Nat} (no : d = (imgOf s.hub).tray * 128 + die.toNat) (mine : memberDie s.env s.hub d = true)
    (on : sbRuns s.hub = true) (heard : (member s.hub d).lost = false) (late : (member s.hub d).last + 4 * s.hub.sb.beatPeriod ≤ nowNs s.hub)
    (alone : s.env.beaten (evHeartbeat d) ((member s.hub d).last + 4 * s.hub.sb.beatPeriod) (nowNs s.hub) = false) :
    ∃ k, exec (.dieLost die) s = .next (s.settle (report 0 .dieLost (dieId d) [] k)) ∧ k.time = s.hub.time ∧ k.reports = s.hub.reports ∧
      k.sb = { (onMember d (fun m => { m with lost := true }) s.hub.clean).sb with dieLosses := s.hub.sb.dieLosses + 1 } := by
  subst no
  show ∃ k, execDieLost die s = _ ∧ _
  unfold execDieLost
  rw [State.run_next]
  dsimp only
  rw [guard_pos (by simp [mine, on, heard, late, alone])]
  exact ⟨_, rfl, by simp [onMember], by simp [onMember], by simp [onMember]⟩

/-- The reports that wait once one more is queued. -/
theorem report_reports (tc : Nat) (kind : ReportKind) (x : Word) (vals : List Nat) (h : Hub) :
    (report tc kind x vals h).reports = h.reports ++ [{ tc := BitVec.ofNat 2 tc, kind := kind, entity := x, vals := vals, tb := nowNs h }] := rfl

/-- A die that has lost its tray notes and counts it, and forgets the sequence states of the relay origins. -/
theorem trayLost_run {s : State} (die : s.env.tray = false) (on : sbRuns s.hub = true) (had : s.hub.sb.trayLost = false)
    (late : s.hub.sb.lastSync + 4 * s.hub.time.syncInt ≤ nowNs s.hub)
    (alone : s.env.beaten evSync (s.hub.sb.lastSync + 4 * s.hub.time.syncInt) (nowNs s.hub) = false) :
    ∃ k, exec .trayLost s = .next (s.settle k) ∧ k.sb = { s.hub.sb with trayLost := true, trayLosses := s.hub.sb.trayLosses + 1 } ∧
      k.cmd = { s.hub.cmd with seqs := s.hub.cmd.seqs.filter (fun q => decide (q.1 < 32)) } := by
  show ∃ k, execTrayLost s = _ ∧ _
  unfold execTrayLost
  rw [State.run_next, guard_pos (by simp [die, on, had, late, alone])]
  exact ⟨_, rfl, by simp, by simp⟩

/-- Settles O47: the queue by the lemma on what its head comes to, the others by what each leaves of the sideband unit. -/
theorem photenQueueAndHeartbeats : Obligations.PhotenQueueAndHeartbeats := by
  unfold Obligations.PhotenQueueAndHeartbeats
  refine ⟨fun s empty => photenTxHead_empty empty, fun s p head on => ⟨fun pays => ?_, fun short red => ?_, fun short green => ?_⟩,
    fun s p port ok tray mine => ?_, fun s die on due => ?_, fun s die d no mine on heard late alone => ?_, fun s die on had late alone => ?_⟩
  · exact ⟨_, photenTxHead_green head on pays, sendGreen_fab ..⟩
  · have run := photenTxHead_red head on short
    rw [if_pos red] at run
    exact ⟨_, run, unqueue_fab ..⟩
  · have run := photenTxHead_red head on short
    rw [if_neg green] at run
    exact run
  · obtain ⟨r, run⟩ := photenHeartbeat_run ok tray
    obtain ⟨record, changed⟩ := noteHeartbeat_sb (e := s.env) (b := readHeartbeat (photenFields p).body)
      (h := { s.hub.clean with fab := { s.hub.fab with rx := r, accepted := s.hub.fab.accepted + 1 } }) mine
    refine ⟨_, _, run, ?_, rfl, record, changed⟩
    rw [State.settle_hub, Hub.clean_fab, (noteHeartbeat_only ..).keep .fab (by decide)]
  · obtain ⟨beat, last⟩ := sendHeartbeat_counts s.env s.hub.clean
    exact ⟨_, heartbeatSend_run die on due, beat, last, rfl⟩
  · obtain ⟨k, run, time, reports, unit⟩ := dieLost_run no mine on heard late alone
    refine ⟨_, run, ?_, ?_, ?_⟩
    · have members : k.sb.members = (onMember d (fun m => { m with lost := true }) s.hub.clean).sb.members := by rw [unit]
      show Tab.getD k.sb.members d {} = _
      rw [members]
      exact member_onMember ..
    · show k.sb.dieLosses = _
      rw [unit]
    · rw [State.settle_hub, Hub.clean_reports, report_reports, reports, nowNs_congr time]
      rfl
  · obtain ⟨k, run, unit, cmd⟩ := trayLost_run die on had late alone
    exact ⟨_, run, unit, cmd⟩

end Sys2Proof.Machine
end

section
/-!
PROOF. The sideband ports (O48): the states of a port and what they leave of its link, the frames that an acknowledgement lets go or a
deadline sends again, and the measurements of the link delay.
-/
namespace Sys2Proof.Machine

/-! A frame received on its port. -/

theorem Acted.img {h k : Hub} (a : Acted h k) : k.img = h.img := a.only.keep .img (by decide)
theorem Acted.now {h k : Hub} (a : Acted h k) : nowNs k = nowNs h := nowNs_congr (a.only.keep .time (by decide))
theorem Acted.state {h k : Hub} (a : Acted h k) (i : Nat) : (sbPort k i).state = (sbPort h i).state := (congrArg Port.state (a.port i) :)
theorem Acted.dormant {h k : Hub} (a : Acted h k) (i : Nat) : (sbPort k i).dormant = (sbPort h i).dormant :=
  (congrArg Port.dormant (a.port i) :)
theorem Acted.downs {h k : Hub} (a : Acted h k) : k.sb.downs = h.sb.downs := (congrArg Sb.downs a.sb :)

theorem sbPort_of_ports {h k : Hub} (ports : k.sb.ports = h.sb.ports) (i : Nat) : sbPort k i = sbPort h i := by
  unfold sbPort
  rw [ports]

theorem meshKnown_congr {h k : Hub} (img : k.img = h.img) : meshKnown k = meshKnown h := by
  unfold meshKnown
  rw [imgOf_congr img]
theorem expected_congr {h k : Hub} (img : k.img = h.img) (e : Env) (i : Nat) : expected e k i = expected e h i := by
  unfold expected portEnd
  rw [imgOf_congr img, dieNo_congr e img]

/-- The hub in which a frame is acted on: the port has taken the frame, and a flooded one is noted. -/
def sbTaken (e : Env) (i : Nat) (f : SbFrame) (h : Hub) : Hub := if f.flood then noteFlood f (sbRx e i f h).1 else (sbRx e i f h).1

section
variable {s : State} {type i : Nat} {f : SbFrame}

theorem sbTaken_acted (ok : sbOk s.env s.hub type i f = true) : Acted s.hub.clean (sbTaken s.env i f s.hub.clean) :=
  (sbRx_ok (h := s.hub.clean) ok).1.noted f

theorem sbTaken_length (ok : sbOk s.env s.hub type i f = true) : (sbTaken s.env i f s.hub.clean).sb.ports.length = s.hub.sb.ports.length := by
  have rx : (sbRx s.env i f s.hub.clean).1.sb.ports.length = s.hub.sb.ports.length := sbRx_length (h := s.hub.clean) ok
  unfold sbTaken
  split
  · exact rx
  · exact rx

/-- A link-local frame leaves the number that its port has received. -/
theorem sbTaken_rseq (ok : sbOk s.env s.hub type i f = true) (local_ : type ≤ 3) : (sbPort (sbTaken s.env i f s.hub.clean) i).rseq = (sbPort s.hub i).rseq := by
  have rx : (sbPort (sbRx s.env i f s.hub.clean).1 i).rseq = (sbPort s.hub i).rseq := by
    rw [sbRx_local (h := s.hub.clean) ok local_]
    dsimp only
    rw [sbLack_rseq]
    rfl
  unfold sbTaken
  split
  · exact rx
  · exact rx

theorem sbOn_run {act : Env → Hub → Hub} (ok : sbOk s.env s.hub type i f = true) :
    s.run (fun e h => sbOn e type i f (act e) h) = .next (s.settle (act s.env (sbTaken s.env i f s.hub.clean))) := by
  rw [State.run_next, sbOn_eq (h := s.hub.clean) (act s.env) ok]
  rfl

end

/-! The states of a port (R385, R397). -/

/-- A port that has trained sends its HELLO. -/
theorem sbIdlesTrain_run {s : State} {port : BitVec 4} (on : sbRuns s.hub = true) (mine : (sbPorts s.env).contains port.toNat = true)
    (isDown : (sbPort s.hub port.toNat).state = 0) (wired : (sbPort s.hub port.toNat).miswired = false) :
    exec (.sbIdlesTrain port) s = .next (s.settle (sbLocal port.toNat
      { ftype := 1, src := BitVec.ofNat 18 (nodeNo s.env s.hub), payload := .hello (BitVec.ofNat 18 (nodeNo s.env s.hub)) false }
      (setPort s.env port.toNat 1 (onPort port.toNat (fun p => { p with dormant := false, idles := false }) s.hub.clean)))) := by
  have node : nodeNo s.env (setPort s.env port.toNat 1 (onPort port.toNat (fun p => { p with dormant := false, idles := false }) s.hub.clean)) =
      nodeNo s.env s.hub := nodeNo_congr s.env ((setPort_only ..).keep .img (by decide))
  show execSbIdlesTrain port s = _
  unfold execSbIdlesTrain
  rw [State.run_next]
  dsimp only
  rw [guard_pos (by simp [on, isDown, wired, List.contains_iff_mem.mp mine]), node]

section
variable {s : State} {port : BitVec 4} {f : SbFrame} {node : Node} {dorm : Bool} (ok : sbOk s.env s.hub 1 port.toNat f = true)
  (hello : f.payload = .hello node dorm) (lt : port.toNat < s.hub.sb.ports.length) (up : (sbPort s.hub port.toNat).state ≠ 0)
include ok hello lt up

/-- A HELLO on a port that is not DOWN, by the node that the mesh map expects there. -/
theorem sbHelloReceive_run : ∃ k, Acted s.hub.clean k ∧ port.toNat < k.sb.ports.length ∧ exec (.sbHelloReceive port f) s = .next (s.settle (
    if meshKnown s.hub && expected s.env s.hub port.toNat != some node.toNat then
      emit 9 1 0 (linkId s.env (portDown s.env port.toNat (onPort port.toNat (fun p => { p with miswired := true }) k)) port.toNat) 4 7
        [w32 port.toNat, node.setWidth 32] (portDown s.env port.toNat (onPort port.toNat (fun p => { p with miswired := true }) k))
    else if dorm then onPort port.toNat (fun p => { p with dormant := true }) k
    else setPort s.env port.toNat 2 k)) := by
  have acted := sbTaken_acted ok
  refine ⟨_, acted, by rw [sbTaken_length ok]; exact lt, ?_⟩
  show execSbHelloReceive port f s = _
  unfold execSbHelloReceive
  rw [sbOn_run ok, hello]
  dsimp only
  rw [if_neg (by rw [acted.state]; exact up), meshKnown_congr (h := s.hub) acted.img, expected_congr (h := s.hub) acted.img]

/-- A HELLO that disagrees with the mesh map takes the port DOWN and MISWIRED. -/
theorem sbHelloReceive_miswired (wrong : (meshKnown s.hub && expected s.env s.hub port.toNat != some node.toNat) = true) :
    ∃ t p, exec (.sbHelloReceive port f) s = .next t ∧ sbPort t.hub port.toNat = { Port.down p with miswired := true } ∧
      t.hub.sb.downs = s.hub.sb.downs + 1 := by
  obtain ⟨k, acted, inside, run⟩ := sbHelloReceive_run ok hello lt up
  rw [if_pos wrong] at run
  generalize hd : portDown s.env port.toNat (onPort port.toNat (fun p => { p with miswired := true }) k) = d at run
  have port_ : sbPort (onPort port.toNat (fun p => { p with miswired := true }) k) port.toNat = { sbPort k port.toNat with miswired := true } := sbPort_onPort inside
  obtain ⟨left, downs, -, -⟩ := portDown_port (e := s.env) (h := onPort port.toNat (fun p => { p with miswired := true }) k)
    (by rw [onPort_length]; exact inside) (by rw [port_]; exact fun z => up ((acted.state _).symm.trans z))
  rw [hd] at left downs
  have unit (x : Word) (l : List Word) : (emit 9 1 0 x 4 7 l d).sb = d.sb := (emit_only ..).keep .sb (by decide)
  refine ⟨_, sbPort k port.toNat, run, ?_, ?_⟩
  · rw [State.settle_hub, sbPort_clean, sbPort_congr (unit ..), left, port_]
    rfl
  · rw [State.settle_hub, Hub.clean_sb, unit, downs]
    exact congrArg (· + 1) acted.downs

/-- A HELLO that agrees takes the port UP, or marks its neighbour dormant. -/
theorem sbHelloReceive_agrees (right : (meshKnown s.hub && expected s.env s.hub port.toNat != some node.toNat) = false) :
    ∃ t, exec (.sbHelloReceive port f) s = .next t ∧
      (sbPort t.hub port.toNat).line = (if dorm then { sbPort s.hub port.toNat with dormant := true } else { sbPort s.hub port.toNat with state := 2 }).line ∧
      t.hub.sb.downs = s.hub.sb.downs := by
  obtain ⟨k, acted, inside, run⟩ := sbHelloReceive_run ok hello lt up
  rw [if_neg (by rw [right]; decide)] at run
  have line : (sbPort k port.toNat).line = (sbPort s.hub port.toNat).line := acted.port _
  refine ⟨_, run, ?_⟩
  rw [State.settle_hub, sbPort_clean, Hub.clean_sb]
  cases dorm with
  | true =>
    rw [if_pos rfl, if_pos rfl, sbPort_onPort inside]
    exact ⟨congrArg (fun p => { p with dormant := true }) line, acted.downs⟩
  | false =>
    rw [if_neg (by decide), if_neg (by decide)]
    obtain ⟨left, rest⟩ := setPort_port (e := s.env) (st := 2) inside (by decide)
    rw [left]
    exact ⟨congrArg (fun p => { p with state := 2 }) line, (congrArg Sb.downs rest :).trans acted.downs⟩

end

/-- A port goes DOWN by one of its causes; more than 16 code errors are counted first. -/
theorem sbPortDown_run {s : State} {port : BitVec 4} (cause : BitVec 2) (on : sbRuns s.hub = true) (mine : (sbPorts s.env).contains port.toNat = true) :
    ∃ k, exec (.sbPortDown port cause) s = .next (s.settle (portDown s.env port.toNat k)) ∧
      k.sb = { s.hub.sb with code := if cause = 0 then s.hub.sb.code + 17 else s.hub.sb.code } := by
  show ∃ k, execSbPortDown port cause s = _ ∧ _
  unfold execSbPortDown
  rw [State.run_next, guard_pos (by simp [on, List.contains_iff_mem.mp mine])]
  refine ⟨_, rfl, ?_⟩
  split
  · exact (chargePort_only ..).keep .sb (by decide)
  · rfl

/-! Acknowledgements (R386). -/

/-- Frames acknowledged leave the window of a port with nothing queued. -/
theorem sbLack_drops {i : Nat} {lack : BitVec 8} {h : Hub} {g : SbFrame} {gs : List SbFrame} (lt : i < h.sb.ports.length) (idle : (sbPort h i).queue = [])
    (sent : (sbPort h i).unacked = g :: gs) (some : 0 < ahead 8 lack.toNat (g.lseq - 1).toNat)
    (within : ahead 8 lack.toNat (g.lseq - 1).toNat ≤ (sbPort h i).unacked.length) :
    sbLack i lack h = onPort i (fun p => { p with
      unacked := (sbPort h i).unacked.drop (ahead 8 lack.toNat (g.lseq - 1).toNat), resent := 0
      ackDue := if ((sbPort h i).unacked.drop (ahead 8 lack.toNat (g.lseq - 1).toNat)).isEmpty then none else Option.some (nowNs h + 20000) }) h := by
  unfold sbLack
  dsimp only
  rw [sent] at within ⊢
  dsimp only
  rw [if_neg (by omega), sbPump_none]
  rw [sbPort_onPort lt]
  exact idle

/-- An ACK does nothing beside what every frame does. -/
theorem sbAckReceive_run {s : State} {port : BitVec 4} {f : SbFrame} (ok : sbOk s.env s.hub 0 port.toNat f = true) :
    exec (.sbAckReceive port f) s = .next (s.settle (sbTaken s.env port.toNat f s.hub.clean)) := sbOn_run (act := fun _ h => h) ok

/-- A link-local frame is acted on where its acknowledgement has let its frames go. -/
theorem sbTaken_local {s : State} {type i : Nat} {f : SbFrame} (ok : sbOk s.env s.hub type i f = true) (local_ : type ≤ 3) :
    (sbTaken s.env i f s.hub.clean).sb.rxFrames = (sbLack i f.lack { s.hub.clean with sb := { s.hub.sb with rxFrames := s.hub.sb.rxFrames + 1 } }).sb.rxFrames ∧
      (sbTaken s.env i f s.hub.clean).sb.ports = (sbLack i f.lack { s.hub.clean with sb := { s.hub.sb with rxFrames := s.hub.sb.rxFrames + 1 } }).sb.ports := by
  unfold sbTaken
  rw [sbRx_local (h := s.hub.clean) ok local_]
  split
  · exact ⟨rfl, rfl⟩
  · exact ⟨rfl, rfl⟩

section
variable {s : State} {port : BitVec 4} {due : Nat} (on : sbRuns s.hub = true) (up : (sbPort s.hub port.toNat).state = 2)
  (awake : (sbPort s.hub port.toNat).dormant = false) (sent : (sbPort s.hub port.toNat).unacked ≠ []) (at_ : (sbPort s.hub port.toNat).ackDue = some due)
  (past : due ≤ nowNs s.hub) (alone : s.env.beaten (evSbAck port.toNat) due (nowNs s.hub) = false)
include on up awake sent at_ past alone

/-- Frames without an acknowledgement in time go out again; after the eighth time the port is DOWN. -/
theorem sbRetransmitTimeout_run : exec (.sbRetransmitTimeout port) s = .next (s.settle (
    if (sbPort s.hub port.toNat).resent ≥ 8 then portDown s.env port.toNat s.hub.clean
    else onPort port.toNat (fun p => { p with resent := p.resent + 1, ackDue := some (nowNs s.hub + 20000), last := p.unacked.getLast? })
      { s.hub.clean with sb := { s.hub.sb with
        retry := s.hub.sb.retry + (sbPort s.hub port.toNat).unacked.length, txFrames := s.hub.sb.txFrames + (sbPort s.hub port.toNat).unacked.length } })) := by
  show execSbRetransmitTimeout port s = _
  unfold execSbRetransmitTimeout
  rw [State.run_next]
  dsimp only
  rw [guard_pos (by simp [on, up, awake, sent, at_, past, alone]), sbPort_clean]
  rfl

end

/-! Link delays (R395). -/

/-- A port that asks its neighbour notes the time. -/
theorem pdelayInterval_run {s : State} {port : BitVec 4} (on : sbRuns s.hub = true) (mine : (sbPorts s.env).contains port.toNat = true)
    (up : (sbPort s.hub port.toNat).state = 2) (awake : (sbPort s.hub port.toNat).dormant = false)
    (due : (sbPort s.hub port.toNat).lastPd + s.hub.sb.pdelay ≤ nowNs s.hub) :
    exec (.pdelayInterval port) s = .next (s.settle (sbLocal port.toNat { ftype := 2, src := BitVec.ofNat 18 (nodeNo s.env s.hub), payload := .pdelayReq }
      (onPort port.toNat (fun p => { p with t1 := some (nowNs s.hub), lastPd := nowNs s.hub }) s.hub.clean))) := by
  show execPdelayInterval port s = _
  unfold execPdelayInterval
  rw [State.run_next]
  dsimp only
  rw [guard_pos (by simp [on, up, awake, due, List.contains_iff_mem.mp mine])]
  rfl

/-- A neighbour's request is answered with the captures of both. -/
theorem sbPdelayReqReceive_run {s : State} {port : BitVec 4} {f : SbFrame} (ok : sbOk s.env s.hub 2 port.toNat f = true) (lt : port.toNat < s.hub.sb.ports.length) :
    ∃ k, port.toNat < k.sb.ports.length ∧ (sbPort k port.toNat).rseq = (sbPort s.hub port.toNat).rseq ∧ exec (.sbPdelayReqReceive port f) s =
      .next (s.settle (sbLocal port.toNat { ftype := 3, src := BitVec.ofNat 18 (nodeNo s.env s.hub)
                                            payload := .pdelayResp (BitVec.ofNat 64 (nowNs s.hub)) (BitVec.ofNat 64 (nowNs s.hub)) } k)) := by
  have acted := sbTaken_acted ok
  refine ⟨_, by rw [sbTaken_length ok]; exact lt, sbTaken_rseq ok (by decide), ?_⟩
  show execSbPdelayReqReceive port f s = _
  unfold execSbPdelayReqReceive
  rw [sbOn_run ok]
  dsimp only
  rw [acted.now, nodeNo_congr s.env (h := s.hub) acted.img, nowNs_clean]

/-- The measurements of a port with one more, of which the last 16 stay. -/
def measured (l : List Int) (m : Int) : List Int := (l ++ [m]).drop (l.length + 1 - 16)

/-- An answer to a request that stands is a measurement. -/
theorem sbPdelayRespReceive_run {s : State} {port : BitVec 4} {f : SbFrame} {t1 : Nat} {t2 t3 : DWord} (ok : sbOk s.env s.hub 3 port.toNat f = true)
    (lt : port.toNat < s.hub.sb.ports.length) (answer : f.payload = .pdelayResp t2 t3) (asked : (sbPort s.hub port.toNat).t1 = some t1) :
    ∃ t, exec (.sbPdelayRespReceive port f) s = .next t ∧ (sbPort t.hub port.toNat).t1 = none ∧ (sbPort t.hub port.toNat).delays =
      measured (sbPort s.hub port.toNat).delays ((((nowNs s.hub : Int) - t1) - ((t3.toNat : Int) - t2.toNat)) / 2) := by
  have acted := sbTaken_acted ok
  have stands : (sbPort (sbTaken s.env port.toNat f s.hub.clean) port.toNat).t1 = some t1 := (congrArg Port.t1 (acted.port port.toNat) :).trans asked
  have before : (sbPort (sbTaken s.env port.toNat f s.hub.clean) port.toNat).delays = (sbPort s.hub port.toNat).delays :=
    (congrArg Port.delays (acted.port port.toNat) :)
  have run : exec (.sbPdelayRespReceive port f) s = execSbPdelayRespReceive port f s := rfl
  unfold execSbPdelayRespReceive at run
  rw [sbOn_run ok, answer, stands] at run
  refine ⟨_, run, ?_⟩
  dsimp only
  rw [State.settle_hub, sbPort_clean, sbPort_onPort (by rw [sbTaken_length ok]; exact lt), acted.now, before]
  exact ⟨rfl, rfl⟩

/-- Settles O48: each event by the lemma on what it makes of its port. -/
theorem sidebandPorts : Obligations.SidebandPorts := by
  unfold Obligations.SidebandPorts
  refine ⟨fun s port p at_ on mine lt isDown wired => ?_, fun s port f node dorm p at_ ok hello lt up => ⟨fun wrong => ?_, fun right => ?_⟩,
    fun s port cause p at_ on mine lt up => ?_, fun s port f p g gs at_ ok lt idle sent some within => ?_,
    fun s port p due at_ on lt up awake sent dueAt past alone => ⟨fun few => ?_, fun many => ?_⟩, fun s port p at_ on mine lt up awake due => ?_,
    fun s port f ok lt => ?_, fun s port f t1 t2 t3 ok lt answer asked => ?_⟩
  · subst at_
    refine ⟨_, sbIdlesTrain_run on mine isDown wired, ?_⟩
    have inside : port.toNat < (onPort port.toNat (fun p => { p with dormant := false, idles := false }) s.hub.clean).sb.ports.length := by
      rw [onPort_length]
      exact lt
    rw [State.settle_hub, sbPort_clean, sbPort_sbLocal (by rw [setPort_length]; exact inside), (setPort_port (st := 1) inside (by decide)).1, sbPort_onPort (by exact lt)]
    rfl
  · subst at_
    obtain ⟨t, p, run, left, downs⟩ := sbHelloReceive_miswired ok hello lt up wrong
    refine ⟨t, run, ?_⟩
    rw [left]
    exact ⟨rfl, rfl, rfl, rfl, downs⟩
  · subst at_
    exact sbHelloReceive_agrees ok hello lt up right
  · subst at_
    obtain ⟨k, run, unit⟩ := sbPortDown_run cause on mine
    have port_ : sbPort k port.toNat = sbPort s.hub port.toNat := by unfold sbPort; rw [unit]
    obtain ⟨left, downs, undeliv, code⟩ := portDown_port (e := s.env) (i := port.toNat) (h := k) (by rw [unit]; exact lt) (by rw [port_]; exact up)
    rw [unit] at downs undeliv code
    rw [port_] at left undeliv
    exact ⟨_, run, left, downs, undeliv, code⟩
  · subst at_
    obtain ⟨frames, ports⟩ := sbTaken_local ok (by decide)
    have drops := sbLack_drops (h := { s.hub.clean with sb := { s.hub.sb with rxFrames := s.hub.sb.rxFrames + 1 } }) lt idle sent some within
    rw [drops] at frames ports
    refine ⟨_, sbAckReceive_run ok, frames, ?_⟩
    exact (sbPort_of_ports ports _).trans (sbPort_onPort (by exact lt))
  · subst at_
    have run := sbRetransmitTimeout_run on up awake sent dueAt past alone
    rw [if_neg (by omega)] at run
    refine ⟨_, run, ?_, rfl, rfl⟩
    rw [State.settle_hub, sbPort_clean, sbPort_onPort (by exact lt)]
    rfl
  · subst at_
    have run := sbRetransmitTimeout_run on up awake sent dueAt past alone
    rw [if_pos many] at run
    obtain ⟨left, downs, -, -⟩ := portDown_port (e := s.env) (h := s.hub.clean) lt (by rw [sbPort_clean, up]; decide)
    refine ⟨_, run, ?_, ?_, downs⟩
    · rw [State.settle_hub, sbPort_clean, left]
      rfl
    · rw [State.settle_hub, sbPort_clean, left]
      rfl
  · subst at_
    refine ⟨_, pdelayInterval_run on mine up awake due, ?_⟩
    rw [State.settle_hub, sbPort_clean, sbPort_sbLocal (by rw [onPort_length]; exact lt), sbPort_onPort (by exact lt)]
    rfl
  · obtain ⟨k, inside, rseq, run⟩ := sbPdelayReqReceive_run ok lt
    refine ⟨_, run, ?_⟩
    rw [State.settle_hub, sbPort_clean, sbPort_sbLocal inside, rseq]
  · exact sbPdelayRespReceive_run ok lt answer asked

end Sys2Proof.Machine
end

section
/-!
PROOF. Frames of the sideband (O49): where a frame goes that is not for this block, and what the frames that are for it are acted on as.
-/
namespace Sys2Proof.Machine

/-! The record of a die. -/

theorem Acted.member {h k : Hub} (a : Acted h k) (d : Nat) : member k d = member h d := by
  have members : k.sb.members = h.sb.members := (congrArg Sb.members a.sb :)
  unfold Machine.member
  rw [members]
theorem Frames.member {h k : Hub} (a : Frames h k) (d : Nat) : member k d = member h d := a.acted.member d

theorem memberDie_congr {h k : Hub} (img : k.img = h.img) (e : Env) (d : Nat) : memberDie e k d = memberDie e h d := by
  unfold memberDie trayDies
  rw [imgOf_congr img]

/-! Forwarding (R389, R390, R397). -/

section
variable {s : State} {port : BitVec 4} {f : SbFrame} (die : s.env.tray = false)
include die

/-- A routed frame for another block goes out on the port its route names. -/
theorem sbFrameForward_run (ok : sbOk s.env s.hub f.ftype.toNat port.toNat f = true) (routed : 4 ≤ f.ftype.toNat) (flood : f.flood = false)
    (other : sbMine s.env f = false) (hops : f.hop.toNat < 16) : exec (.sbFrameForward port f) s = .next (s.settle
      (sbOut (bitsOf f.route.toNat (31 - 2 * f.hop.toNat) (30 - 2 * f.hop.toNat)) { f with hop := f.hop + 1 } (sbRx s.env port.toNat f s.hub.clean).1)) := by
  have taken := (sbRx_ok (h := s.hub.clean) ok).2
  show execSbFrameForward port f s = _
  unfold execSbFrameForward
  rw [State.run_next]
  dsimp only
  rw [if_pos (by simp [taken, routed, flood, other, die, hops])]

/-- A flooded frame seen for the first time goes out on every other port, while it has hops left. -/
theorem sbFloodForward_run (ok : sbOk s.env s.hub f.ftype.toNat port.toNat f = true) (routed : 4 ≤ f.ftype.toNat) (flood : f.flood = true) :
    ∃ k, Frames s.hub.clean k ∧ exec (.sbFloodForward port f) s = .next (s.settle (if f.ttl.toNat ≤ 1 then noteFlood f k
      else ((sbPorts s.env).filter (fun i => decide (i ≠ port.toNat) && (sbPort k i).state == 2)).foldl (fun h i => sbOut i { f with ttl := f.ttl - 1 } h) (noteFlood f k))) := by
  obtain ⟨frames, taken⟩ := sbRx_ok (h := s.hub.clean) ok
  have first : floodSeen f (sbRx s.env port.toNat f s.hub.clean).1 = false := by
    have seen := (sbOk_type ok).2
    rw [flood, Bool.true_and] at seen
    unfold floodSeen at seen ⊢
    have flooded : (sbRx s.env port.toNat f s.hub.clean).1.sb.flooded = s.hub.sb.flooded := (congrArg Sb.flooded frames.sb :)
    rw [flooded]
    exact seen
  refine ⟨_, frames, ?_⟩
  show execSbFloodForward port f s = _
  unfold execSbFloodForward
  rw [State.run_next]
  dsimp only
  rw [if_neg (by simp [taken, routed, flood, die, first])]
  rfl

variable (ok : sbOk s.env s.hub 11 port.toNat f = true) (other : sbMine s.env f = false) (hops : f.hop.toNat < 16)
include ok other hops

/-- A WAKE frame at a block on its way: idles for a dormant die behind it, the frame itself otherwise. -/
theorem sbWakeFrame_run {i : Nat} (at_ : i = bitsOf f.route.toNat (31 - 2 * f.hop.toNat) (30 - 2 * f.hop.toNat)) :
    ∃ k, Acted s.hub.clean k ∧ k.sb.ports.length = s.hub.sb.ports.length ∧ exec (.sbWakeFrame port f) s = .next (s.settle (
      if f.hop.toNat + 1 = f.nhops.toNat ∧ (sbPort s.hub i).dormant = true then onPort i (fun p => { p with idles := true }) k
      else sbOut i { f with hop := f.hop + 1 } k)) := by
  have acted := sbTaken_acted ok
  refine ⟨_, acted, sbTaken_length ok, ?_⟩
  show execSbWakeFrame port f s = _
  unfold execSbWakeFrame
  rw [sbOn_run ok]
  dsimp only
  rw [if_neg (by simp [other, die, hops]), ← at_, acted.dormant, sbPort_clean]

end

/-! Fragments (R384). -/

theorem sbReassemblyTimeout_run {s : State} {src : Node} {mseq : BitVec 16} {r : Reasm}
    (held : s.hub.sb.reasm.find? (fun r => decide (r.src = src.toNat) && decide (r.mseq = mseq)) = some r) (on : sbRuns s.hub = true)
    (past : r.first + 1000000 ≤ nowNs s.hub) (alone : s.env.beaten (evFragment r.src r.mseq) (r.first + 1000000) (nowNs s.hub) = false) :
    exec (.sbReassemblyTimeout src mseq) s = .next (s.settle { s.hub.clean with
      sb := { s.hub.sb with reasm := s.hub.sb.reasm.filter (fun r => !(decide (r.src = src.toNat) && decide (r.mseq = mseq))), crc := s.hub.sb.crc + 1 } }) := by
  show execSbReassemblyTimeout src mseq s = _
  unfold execSbReassemblyTimeout
  rw [State.run_next]
  dsimp only
  rw [Hub.clean_sb, held]
  dsimp only
  rw [guard_pos (by simp [on, past, alone])]
  rfl

/-! Heartbeats and verdicts (R392, R394, R646). -/

/-- An entity for which a verdict waits for the scan boundary. -/
def Ent.told (v : VerdictMsg) (s : Ent) : Ent :=
  { s with received := s.received ++ [(v.verdict.toNat, v.cause.toNat, v.score.toNat, v.generation, v.slot.toNat, v.floor.toNat)] }

section
variable {s : State} {port : BitVec 4} {f : SbFrame}

/-- A heartbeat that reaches the tray is noted. -/
theorem sbHeartbeatReceive_run {b : Heartbeat} (tray : s.env.tray = true) (ok : sbOk s.env s.hub 4 port.toNat f = true) (mine : sbMine s.env f = true)
    (is : f.payload = .heartbeat b) : exec (.sbHeartbeatReceive port f) s = .next (s.settle (noteHeartbeat s.env b (sbTaken s.env port.toNat f s.hub.clean))) := by
  show execSbHeartbeatReceive port f s = _
  unfold execSbHeartbeatReceive
  rw [sbOn_run ok, is]
  dsimp only
  rw [tray, mine]
  rfl

variable {v : VerdictMsg} (die : s.env.tray = false) (ok : sbOk s.env s.hub 8 port.toNat f = true) (mine : sbMine s.env f = true) (is : f.payload = .verdict v)
include die ok mine is

/-- A verdict received before is taken once. -/
theorem sbVerdictReceive_again (old : s.hub.sb.lastVerdict.contains v.seq = true) : exec (.sbVerdictReceive port f) s =
    .next (s.settle { sbTaken s.env port.toNat f s.hub.clean with sb := { (sbTaken s.env port.toNat f s.hub.clean).sb with vseq := v.seq } }) := by
  have last : (sbTaken s.env port.toNat f s.hub.clean).sb.lastVerdict = s.hub.sb.lastVerdict := (congrArg Sb.lastVerdict (sbTaken_acted ok).sb :)
  show execSbVerdictReceive port f s = _
  unfold execSbVerdictReceive
  rw [sbOn_run ok, is]
  dsimp only
  rw [if_neg (by simp [die, mine]), if_pos (by rw [last]; exact old), if_pos (by rw [last]; exact old)]

/-- A verdict received first waits for the scan boundary. -/
theorem sbVerdictReceive_first (new : s.hub.sb.lastVerdict.contains v.seq = false) : exec (.sbVerdictReceive port f) s =
    .next (s.settle (onEnt v.entity (Ent.told v)
      { sbTaken s.env port.toNat f s.hub.clean with
        sb := { (sbTaken s.env port.toNat f s.hub.clean).sb with vseq := v.seq, lastVerdict := v.seq :: s.hub.sb.lastVerdict } })) := by
  have last : (sbTaken s.env port.toNat f s.hub.clean).sb.lastVerdict = s.hub.sb.lastVerdict := (congrArg Sb.lastVerdict (sbTaken_acted ok).sb :)
  show execSbVerdictReceive port f s = _
  unfold execSbVerdictReceive
  rw [sbOn_run ok, is]
  dsimp only
  rw [if_neg (by simp [die, mine]), last, new, if_neg (by decide), if_neg (by decide)]
  rfl

end

/-- Verdicts that have waited for their echo go out again on the alternate route. -/
theorem verdictResend_run {s : State} {die : BitVec 7} {d : Nat} {late : SentVerdict → Bool} (at_ : d = (imgOf s.hub).tray * 128 + die.toNat)
    (member_ : memberDie s.env s.hub d = true) (on : sbRuns s.hub = true) (isLate : late = fun v =>
      decide (v.tb + 4 * s.hub.sb.beatPeriod ≤ nowNs s.hub) && !s.env.beaten (evHeartbeat d) (v.tb + 4 * s.hub.sb.beatPeriod) (nowNs s.hub)) :
    exec (.verdictResend die) s = .next (s.settle (((member s.hub d).sent.filter late).foldl (fun h v => sbDown s.env true d { ftype := 8, payload := .verdict v.msg } h)
      (onMember d (fun m => { m with sent := m.sent.filter (fun v => !late v) }) s.hub.clean))) := by
  subst at_ isLate
  show execVerdictResend die s = _
  unfold execVerdictResend
  rw [State.run_next]
  dsimp only
  rw [guard_pos (by simp [on, member_])]
  rfl

/-! Replies (R469, R470). -/

section
variable {s : State} {port : BitVec 4} {f : SbFrame} {bs : List Byte} (tray : s.env.tray = true) (whole : sbMessage s.env s.hub 7 port.toNat f = some bs)
include tray whole

/-- A reply that is whole is looked up among the relays. -/
theorem sbReplyReceive_run : ∃ k : Hub, k.cmd = s.hub.cmd ∧ k.prot = s.hub.prot ∧
    (s.hub.cmd.relays.find? (fun r => decide (r.rid = BitVec.ofNat 24 (beAt bs 4 4))) = none → BitVec.ofNat 24 (beAt bs 4 4) ≠ 0 →
      exec (.sbReplyReceive port f) s = .next (s.settle { k with cmd := { k.cmd with lateReplies := k.cmd.lateReplies + 1 } })) ∧
    (∀ r, s.hub.cmd.relays.find? (fun r => decide (r.rid = BitVec.ofNat 24 (beAt bs 4 4))) = some r →
      exec (.sbReplyReceive port f) s = .next (s.settle (relayBack s.env r (bs.drop 8)
        { k with cmd := { k.cmd with relays := k.cmd.relays.filter (fun q => decide (q.rid ≠ BitVec.ofNat 24 (beAt bs 4 4))) } }))) := by
  obtain ⟨ok, mine, ends⟩ := sbMessage_ok ((sbMessage_clean ..).trans whole)
  have acted := sbTaken_acted (s := s) ok
  have only := acted.only.trans (sbAssemble_only f _)
  have text : (sbAssemble f (sbTaken s.env port.toNat f s.hub.clean)).2 = some bs := (sbAssemble_acted acted).trans ends
  have run : exec (.sbReplyReceive port f) s = execSbReplyReceive port f s := rfl
  unfold execSbReplyReceive at run
  rw [sbOn_run (s := s) ok] at run
  dsimp only at run
  rw [if_neg (by simp [tray, mine])] at run
  generalize sbAssemble f (sbTaken s.env port.toNat f s.hub.clean) = a at only text run
  obtain ⟨k, o⟩ := a
  subst text
  have cmd : k.cmd = s.hub.cmd := only.keep .cmd (by decide)
  refine ⟨k, cmd, only.keep .prot (by decide), fun missing other => ?_, fun r found => ?_⟩
  · rw [run]
    dsimp only
    rw [cmd, missing]
    dsimp only
    rw [if_neg other]
  · rw [run]
    dsimp only
    rw [cmd, found]

end

/-- A reply that goes back leaves the relays. -/
@[simp] theorem relayBack_relays (e : Env) (r : Relay) (bs : List Byte) (h : Hub) : (relayBack e r bs h).cmd.relays = h.cmd.relays := by
  unfold relayBack
  split
  · exact (mgtReply_rest ..).2
  · exact (chanPut_rest ..).2.2.1
  · rfl

/-- A reply that goes back to a channel with a free buffer fills it. -/
theorem relayBack_channel {e : Env} {r : Relay} {bs : List Byte} {h : Hub} {ch : BitVec 2} {x : Channel} (by_ : r.req = .channel ch)
    (on : chanOn h ch.toNat = true) (here : h.cmd.chans[ch.toNat]? = some x) (free : x.rbuf = none) :
    ∃ y, (relayBack e r bs h).cmd.chans[ch.toNat]? = some y ∧ y.rbuf = some (readReply bs) := by
  unfold relayBack
  rw [by_]
  exact chanPut_here on here free

/-- Settles O49: each event by the lemma on where it sends its frame or what it acts on. -/
theorem sidebandFrames : Obligations.SidebandFrames := by
  unfold Obligations.SidebandFrames
  refine ⟨fun s port f die ok routed => ⟨fun flood other hops => ?_, fun flood => sbFloodForward_run die ok routed flood⟩,
    fun s port f i die ok other hops at_ => ⟨fun last asleep lt => ?_, fun goes => ?_⟩,
    fun s src mseq r held on past alone => sbReassemblyTimeout_run held on past alone, fun s port f b m tray ok mine is member_ at_ => ?_,
    fun s port f v die ok mine is => ?_, fun s die d late at_ member_ on isLate => ?_, fun s port f bs rid tray whole at_ => ⟨fun missing other => ?_, fun r found => ?_⟩⟩
  · exact ⟨_, (sbRx_ok (h := s.hub.clean) ok).1, sbFrameForward_run die ok routed flood other hops⟩
  · obtain ⟨k, -, length, run⟩ := sbWakeFrame_run die ok other hops at_
    rw [if_pos ⟨last, asleep⟩] at run
    refine ⟨_, run, ?_⟩
    rw [State.settle_hub, sbPort_clean, sbPort_onPort (by rw [length]; exact lt)]
  · obtain ⟨k, acted, -, run⟩ := sbWakeFrame_run die ok other hops at_
    rw [if_neg goes] at run
    exact ⟨k, acted, run⟩
  · subst at_
    have acted := sbTaken_acted ok
    obtain ⟨heard, changed⟩ := noteHeartbeat_sb (b := b) (h := sbTaken s.env port.toNat f s.hub.clean) ((memberDie_congr acted.img s.env _).trans member_)
    have before : (sbTaken s.env port.toNat f s.hub.clean).sb.changed = s.hub.sb.changed := (congrArg Sb.changed acted.sb :)
    rw [acted.member, acted.now] at heard
    rw [acted.member, acted.now, before] at changed
    exact ⟨_, sbHeartbeatReceive_run tray ok mine is, heard, changed⟩
  · have acted := sbTaken_acted ok
    have casc : (sbTaken s.env port.toNat f s.hub.clean).casc = s.hub.casc := acted.only.keep .casc (by decide)
    cases seen : s.hub.sb.lastVerdict.contains v.seq with
    | true =>
      exact ⟨_, sbVerdictReceive_again die ok mine is seen, rfl, fun _ => ⟨(congrArg Sb.lastVerdict acted.sb :), casc⟩, fun new => absurd new (by decide)⟩
    | false =>
      refine ⟨_, sbVerdictReceive_first die ok mine is seen, rfl, (fun old => absurd old (by decide)), fun _ => ⟨rfl, fun x other => ?_, ?_⟩⟩
      · rw [State.settle_hub, entity_clean, entity_onEnt_ne _ _ other]
        exact entity_congr casc x
      · rw [State.settle_hub, entity_clean, entity_onEnt_self]
        exact congrArg (Ent.told v) (entity_congr (h := s.hub) casc v.entity)
  · refine ⟨_, verdictResend_run at_ member_ on isLate, ?_, rfl⟩
    rw [State.settle_hub, member_clean, (Frames.foldl (fun _ _ => sbDown_frames ..) _ _).member, member_onMember, member_clean]
  · subst at_
    obtain ⟨k, cmd, -, late, -⟩ := sbReplyReceive_run tray whole
    refine ⟨_, late missing other, ?_⟩
    rw [State.settle_hub, Hub.clean_cmd, cmd]
  · subst at_
    obtain ⟨k, cmd, prot, -, back⟩ := sbReplyReceive_run tray whole
    refine ⟨_, back r found, ?_, fun ch x by_ on here free => ?_⟩
    · rw [State.settle_hub, Hub.clean_cmd, relayBack_relays, cmd]
    · rw [State.settle_hub, Hub.clean_cmd]
      refine relayBack_channel by_ ?_ (by rw [cmd]; exact here) free
      rw [← on]
      exact chanOn_congr (by rw [cmd]) (by rw [prot])

end Sys2Proof.Machine
end

section
/-!
PROOF. Time and routes over the sideband (O50): the SYNC that a tray sends and a die passes on, and the routes that a tray gives its dies.
-/
namespace Sys2Proof.Machine

theorem Acted.trans {h k l : Hub} (a : Acted h k) (b : Acted k l) : Acted h l :=
  ⟨a.only.trans b.only, b.sb.trans a.sb, fun i => (b.port i).trans (a.port i)⟩

/-! SYNC (R395, R396). -/

/-- An interval after the last SYNC, the tray sends one on every port that a primary route uses. -/
theorem syncSend_run {s : State} (tray : s.env.tray = true) (on : sbRuns s.hub = true) (due : s.hub.sb.lastSync + s.hub.time.syncInt ≤ nowNs s.hub) :
    exec .syncSend s = .next (s.settle ((((s.hub.sb.members.filterMap (fun m => m.2.primary.map (fun p => p.1.toNat)))).dedup).foldl (fun h i => sbOut i {
        ftype := 5, tport := BitVec.ofNat 4 i, src := BitVec.ofNat 18 (nodeNo s.env h), mseq := h.sb.mseq, payload := .sync (BitVec.ofNat 64 (nowNs h)) 0 } h)
      { s.hub.clean with sb := { s.hub.sb with lastSync := nowNs s.hub, mseq := s.hub.sb.mseq + 1 } })) := by
  show execSyncSend s = _
  unfold execSyncSend
  rw [State.run_next, guard_pos (by simp [tray, on, due])]
  rfl

theorem linkDelay_congr {h k : Hub} {i : Nat} (delays : (sbPort k i).delays = (sbPort h i).delays) : linkDelay k i = linkDelay h i := by
  unfold linkDelay
  rw [delays]

/-- A SYNC passed on to a die's tree children, with a new correction. -/
def syncPassed (f : SbFrame) (origin : DWord) (c : Int) (k : Hub) : Hub :=
  k.sb.children.foldl (fun h i => sbOut i.toNat { f with hop := f.hop + 1, payload := .sync origin (BitVec.ofNat 64 (unsigned 64 c)) } h) k

theorem syncPassed_frames (f : SbFrame) (origin : DWord) (c : Int) (k : Hub) : Frames k (syncPassed f origin c k) :=
  Frames.foldl (fun _ _ => sbOut_frames ..) _ _

section
variable {s : State} {port : BitVec 4} {f : SbFrame} (die : s.env.tray = false)
include die

/-- A SYNC at a die goes on to its tree children and disciplines its time. -/
theorem syncReceive_run {origin corr : DWord} {c : Int} (ok : sbOk s.env s.hub 5 port.toNat f = true) (is : f.payload = .sync origin corr)
    (sum : c = signed 64 corr.toNat + linkDelay s.hub port.toNat) :
    exec (.syncReceive port f) s = .next (s.settle (syncMeasured s.env ((nowNs s.hub : Int) - (signed 64 origin.toNat + c))
      { syncPassed f origin c (sbTaken s.env port.toNat f s.hub.clean) with
        sb := { (syncPassed f origin c (sbTaken s.env port.toNat f s.hub.clean)).sb with
          lastSync := nowNs s.hub, trayLost := false
          trayNode := if s.hub.sys.st == .playa && !meshKnown s.hub && s.hub.sb.trayNode.isNone then some f.src else s.hub.sb.trayNode } })) := by
  have acted := sbTaken_acted ok
  have passed := acted.trans (syncPassed_frames f origin c _).acted
  have delay : linkDelay (sbTaken s.env port.toNat f s.hub.clean) port.toNat = linkDelay s.hub port.toNat :=
    linkDelay_congr (congrArg Port.delays (acted.port port.toNat) :)
  have sys : (syncPassed f origin c (sbTaken s.env port.toNat f s.hub.clean)).sys = s.hub.sys := passed.only.keep .sys (by decide)
  have tray : (syncPassed f origin c (sbTaken s.env port.toNat f s.hub.clean)).sb.trayNode = s.hub.sb.trayNode := (congrArg Sb.trayNode passed.sb :)
  show execSyncReceive port f s = _
  unfold execSyncReceive
  rw [sbOn_run ok, is]
  dsimp only
  rw [if_neg (by simp [die]), delay, ← sum, acted.now]
  rw [← syncPassed, sys, tray, meshKnown_congr passed.img, passed.now]
  rfl

/-- A die's routes are those that it is sent. -/
theorem routeSetReceive_run {p a : Option (BitVec 4 × Route)} {cs : List (BitVec 2)} (ok : sbOk s.env s.hub 10 port.toNat f = true) (mine : sbMine s.env f = true)
    (is : f.payload = .routeSet p a cs) : exec (.routeSetReceive port f) s = .next (s.settle { sbTaken s.env port.toNat f s.hub.clean with
      sb := { (sbTaken s.env port.toNat f s.hub.clean).sb with primary := p, alternate := a, children := cs } }) := by
  show execRouteSetReceive port f s = _
  unfold execRouteSetReceive
  rw [sbOn_run ok, is]
  dsimp only
  rw [if_neg (by simp [die, mine])]

end

/-! Routes (R388, R391). -/

theorem SameMesh.of_unit {h k : Hub} (img : k.img = h.img) (ports : k.sb.ports = h.sb.ports) (members : k.sb.members = h.sb.members) : SameMesh h k := by
  refine ⟨img, fun i => by rw [sbPort_of_ports ports], fun d i => ?_⟩
  unfold dieUp member
  rw [members]

theorem routesOf_congr {h k : Hub} (a : SameMesh h k) (tree : List Path) (d : Nat) : routesOf tree k d = routesOf tree h d := by
  unfold routesOf
  rw [funext (alternatePath_congr a)]

/-- A die of the list is given the routes of the search in a hub that sees the same mesh. -/
theorem routeDies_give (e : Env) (tree : List Path) {l : List Nat} {h k : Hub} {d : Nat} (same : SameMesh h k) (here : d ∈ l) :
    (member (l.foldl (fun h d => routeDie e tree h d) k) d).primary = (tree.find? (fun p => decide (p.die = d))).map Path.asRoute ∧
      (member (l.foldl (fun h d => routeDie e tree h d) k) d).alternate = ((tree.find? (fun p => decide (p.die = d))).bind (alternatePath h)).map Path.asRoute ∧
      (member (l.foldl (fun h d => routeDie e tree h d) k) d).children = treeChildren tree d := by
  have routes := ((routeDies_does e tree l k).1 d here).trans (routesOf_congr same tree d)
  unfold Member.routes routesOf at routes
  rw [Prod.mk.injEq, Prod.mk.injEq] at routes
  exact routes

/-- When port states have changed, every die of the tray gets the routes that the search gives it. -/
theorem routeRecompute_run {s : State} (tray : s.env.tray = true) (on : sbRuns s.hub = true) (changed : s.hub.sb.changed.isSome = true) :
    exec .routeRecompute s = .next (s.settle ((trayDies s.hub).foldl (fun h d => routeDie s.env (primaryTree false s.hub) h d)
      { s.hub.clean with sb := { s.hub.sb with changed := none } })) := by
  have same : primaryTree false s.hub.clean = primaryTree false s.hub := primaryTree_congr (SameMesh.of_unit rfl rfl rfl) false
  show execRouteRecompute s = _
  unfold execRouteRecompute
  rw [State.run_next, guard_pos (by simp [tray, on, changed])]
  dsimp only
  rw [same]
  rfl

/-- Settles O50: each event by the lemma on what it sends and what it leaves of the unit. -/
theorem timeAndRoutesOverTheSideband : Obligations.TimeAndRoutesOverTheSideband := by
  unfold Obligations.TimeAndRoutesOverTheSideband
  refine ⟨fun s tray on due => ?_, fun s port f origin corr c die ok is sum => ?_, fun s tray on changed => ?_, fun s port f p a cs die ok mine is => ?_⟩
  · refine ⟨_, syncSend_run tray on due, ?_, rfl⟩
    rw [State.settle_hub, Hub.clean_sb]
    exact (congrArg Sb.lastSync (Frames.foldl (fun _ _ => sbOut_frames ..) _ _).sb :)
  · have unit (off : Int) (h : Hub) : (syncMeasured s.env off h).sb = h.sb := (syncMeasured_only ..).keep .sb (by decide)
    refine ⟨_, _, syncReceive_run die ok is sum, sbTaken_acted ok, ?_, ?_, rfl⟩
    · rw [State.settle_hub, Hub.clean_sb, unit]
    · rw [State.settle_hub, Hub.clean_sb, unit]
  · obtain ⟨-, others, flag⟩ := routeDies_does s.env (primaryTree false s.hub) (trayDies s.hub) { s.hub.clean with sb := { s.hub.sb with changed := none } }
    refine ⟨_, routeRecompute_run tray on changed, ?_⟩
    rw [State.settle_hub, Hub.clean_sb]
    refine ⟨flag, fun d outside => ?_, fun d p here at_ => ?_⟩
    · rw [member_clean]
      exact others d outside
    · subst at_
      rw [member_clean]
      exact routeDies_give s.env _ (SameMesh.of_unit rfl rfl rfl) here
  · exact ⟨_, routeSetReceive_run die ok mine is, rfl, rfl, rfl⟩

end Sys2Proof.Machine
end

section
/-!
PROOF. The management port's registers (O26): what a direct write of each makes of the port, and the gate list that comes into force.
-/
namespace Sys2Proof.Machine

/-! What is read of a hub with nothing left to write. -/

@[simp] theorem mgtRuns_clean (e : Env) (h : Hub) : mgtRuns e h.clean = mgtRuns e h := rfl
@[simp] theorem segUp_clean (h : Hub) (b : Bool) : segUp h.clean b = segUp h b := rfl
@[simp] theorem heard_clean (h : Hub) (b : Bool) : heard h.clean b = heard h b := rfl
@[simp] theorem silenceDue_clean (h : Hub) (b : Bool) : silenceDue h.clean b = silenceDue h b := rfl
@[simp] theorem preferred_clean (h : Hub) : preferred h.clean = preferred h := rfl

/-! A direct write (R607, R616). -/

/-- A write that the register refuses leaves the port as it was. -/
theorem writeSegcfg_refuses {b : Bool} {p : Part} {v : DWord} {h : Hub} (bad : segcfgOk p (mergePart p (seg h b).cfg v &&& 0xFFFFFFFFFFFFF) = false) :
    (writeSegcfg b p v h).mgt = h.mgt := by
  unfold writeSegcfg
  dsimp only
  rw [bad, if_pos (by decide)]
  exact (refusedWrite_only ..).keep .mgt (by decide)

/-- A die has no register of the management port: the write is recorded as ignored. -/
theorem mgtWrite_die {s : State} {o : Nat} {v : DWord} {f : Env → Hub → Hub} (on : portOn s.hub = true) (die : s.env.tray = false) :
    ∃ t, s.run (mgtWrite o v f) = .next t ∧ t.hub.mgt = s.hub.mgt := by
  have on' : portOn s.hub.clean = true := on
  refine ⟨_, State.run_next .., ?_⟩
  unfold mgtWrite
  rw [if_neg (by rw [on']; decide), die, if_neg (by decide)]
  exact (ignoredWrite_only ..).keep .mgt (by decide)

/-! The gate list (R443, R444, R446). -/

/-- The admin list as a gate list. -/
def adminGates (m : Mgt) : Gates where
  entries := (m.gclE.take m.gclCtrl.toNat).map (fun w => (BitVec.ofNat 4 (bitsOf w.toNat 35 32), bitsOf w.toNat 31 0))
  base := m.gclBase.toNat
  cycle := m.gclCycle.toNat

theorem gateBits (w : DWord) : BitVec.ofNat 4 (bitsOf w.toNat 35 32) = w.extractLsb' 32 4 := by
  apply BitVec.eq_of_toNat_eq
  simp [bitsOf, BitVec.extractLsb'_toNat, Nat.shiftRight_eq_div_pow]

theorem gateTime (w : DWord) : bitsOf w.toNat 31 0 = (w.extractLsb' 0 32).toNat := by
  simp [bitsOf, BitVec.extractLsb'_toNat]

theorem adminGates_entries (m : Mgt) : (adminGates m).entries =
    (m.gclE.take m.gclCtrl.toNat).map (fun w => (w.extractLsb' 32 4, (w.extractLsb' 0 32).toNat)) := by
  unfold adminGates
  simp only [gateBits, gateTime]

/-- COMMIT queues a right admin list for the first cycle boundary after the operational cycle. -/
theorem commitGates_queues {h : Hub} (right : adminOk h.mgt = true) : (commitGates h).mgt = { h.mgt with
    pending := some (adminGates h.mgt, cycleAt h.mgt.gclBase.toNat h.mgt.gclCycle.toNat (operEnd h.mgt.oper (nowNs h))) } := by
  unfold commitGates
  dsimp only
  rw [right, if_neg (by decide)]
  rfl

theorem commitGates_refuses {h : Hub} (wrong : adminOk h.mgt = false) : (commitGates h).mgt = h.mgt := by
  unfold commitGates
  dsimp only
  rw [wrong, if_pos (by decide)]
  exact (refusedWrite_only ..).keep .mgt (by decide)

section
variable {s : State} (runs : mgtRuns s.env s.hub = true)
include runs

/-- At an entry's boundary the list stands at the entry that TB gives. -/
theorem gateEntryBoundary_run (listed : s.hub.mgt.oper.entries ≠ []) : exec .gateEntryBoundary s =
    .next (s.settle (onMgt (fun m => { m with gateIdx := gateEntry m.oper (nowNs s.hub) }) s.hub.clean)) := by
  show execGateEntryBoundary s = _
  unfold execGateEntryBoundary
  rw [State.run_next, guard_pos (by simp [runs, listed])]
  rfl

/-- At its time the pending list is the operational one. -/
theorem gclPendingActivate_run {g : Gates} {tb : Nat} (queued : s.hub.mgt.pending = some (g, tb)) (due : tb ≤ nowNs s.hub) :
    exec .gclPendingActivate s =
      .next (s.settle (onMgt (fun m => { m with oper := g, pending := none, gateIdx := gateEntry g (nowNs s.hub) }) s.hub.clean)) := by
  show execGclPendingActivate s = _
  unfold execGclPendingActivate
  rw [State.run_next, Hub.clean_mgt, queued]
  dsimp only
  rw [guard_pos (by simp [runs, due])]
  rfl

end

/-- Settles O26: a write reaches its register by `mgtWrite_run`, and what it makes of the port is said by the lemma on the register. -/
theorem managementRegisters : Obligations.ManagementRegisters := by
  unfold Obligations.ManagementRegisters
  refine ⟨fun s c p v on tray shaper meter => ⟨fun rate burst => ?_, fun rate => ?_, fun rates committed peak => ?_, fun rates => ?_⟩,
    fun s c p v on die => mgtWrite_die on die, fun s on tray free => ⟨fun right => ?_, fun wrong => ?_⟩,
    fun s b v on tray free => ⟨fun good => ?_, fun good off => ?_, fun good on_ was => ?_, fun bad => ?_⟩,
    fun s runs => ⟨fun listed => ⟨_, gateEntryBoundary_run runs listed, rfl⟩, fun g tb queued due => ⟨_, gclPendingActivate_run runs queued due, rfl⟩⟩⟩
  · exact ⟨_, mgtWrite_run on tray shaper, writeShaper_takes (h := noted _ _ _ s.hub) rate burst⟩
  · exact ⟨_, mgtWrite_run on tray shaper, writeShaper_refuses (h := noted _ _ _ s.hub) rate⟩
  · exact ⟨_, mgtWrite_run on tray meter, writeMeter_takes (h := noted _ _ _ s.hub) rates committed peak⟩
  · exact ⟨_, mgtWrite_run on tray meter, writeMeter_refuses (h := noted _ _ _ s.hub) rates⟩
  · exact ⟨_, mgtWrite_run on tray free, adminGates s.hub.mgt, commitGates_queues (h := noted _ _ _ s.hub) right, rfl, rfl, adminGates_entries _⟩
  · exact ⟨_, mgtWrite_run on tray free, commitGates_refuses (h := noted _ _ _ s.hub) wrong⟩
  · exact ⟨_, mgtWrite_run on tray free, writeSegcfg_low (h := noted _ _ _ s.hub) good⟩
  · exact ⟨_, mgtWrite_run on tray free, writeSegcfg_off (h := noted _ _ _ s.hub) good off⟩
  · exact ⟨_, mgtWrite_run on tray free, writeSegcfg_on (h := noted _ _ _ s.hub) good on_ was⟩
  · exact ⟨_, mgtWrite_run on tray free, writeSegcfg_refuses (p := .whole) (h := noted _ _ _ s.hub) bad⟩

end Sys2Proof.Machine
end

section
/-!
PROOF. The segments of the management port (O27): their states, PLCA and collisions, addresses, and the frames that they send.
-/
namespace Sys2Proof.Machine

/-- A poll's link status is all that it changes of the segment. -/
theorem seg_link (b l : Bool) (h : Hub) : seg (onSeg b (fun s => { s with link := l }) h) b = { seg h b with link := l } := seg_onSeg ..

/-- A segment put in another state: a failover that follows moves its waiting frames, and nothing else of it. -/
theorem setSeg_seg (b : Bool) {st : Nat} {h : Hub} (moves : (seg h b).state.toNat ≠ st) : ∃ q, seg (setSeg b st h) b = { seg h b with
    state := BitVec.ofNat 2 st, upSince := if st = 2 then nowNs h else (seg h b).upSince, dad := if st = 2 then (seg h b).dad else none, queues := q } := by
  refine ⟨(seg (setSeg b st h) b).queues, ?_⟩
  have left := setSeg_bare b moves
  exact congrArg (fun x : Segment => { x with queues := (seg (setSeg b st h) b).queues }) left

/-! States (R416, R417, R423–R425, Table 11.3). -/

section
variable {s : State} {b : Bool} (runs : mgtRuns s.env s.hub = true)
include runs

/-- A poll sets the link status; a lost link takes an UP segment DOWN. -/
theorem phyPoll_run (link : Bool) (on : segOn (seg s.hub b) = true) : exec (.phyPoll b link) s = .next (s.settle (
    if !link && segUp s.hub b then setSeg b 1 (onSeg b (fun s => { s with link := link }) s.hub.clean)
    else onSeg b (fun s => { s with link := link }) s.hub.clean)) := by
  have up : segUp (onSeg b (fun s => { s with link := link }) s.hub.clean) b = segUp s.hub b := by
    unfold segUp
    rw [seg_onSeg]
    rfl
  show execPhyPoll b link s = _
  unfold execPhyPoll
  rw [State.run_next, guard_pos (by simp [runs, on])]
  dsimp only
  rw [up]

theorem segmentSilenceTimeout_run (up : segUp s.hub b = true) (silent : heard s.hub b = false)
    (alone : s.env.beaten (evFrame b) (silenceDue s.hub b) (nowNs s.hub) = false) :
    exec (.segmentSilenceTimeout b) s = .next (s.settle (setSeg b 1 s.hub.clean)) := by
  show execSegmentSilenceTimeout b s = _
  unfold execSegmentSilenceTimeout
  rw [State.run_next, guard_pos (by simp [runs, up, silent, alone])]

theorem segmentUp_run (down : (seg s.hub b).state = 1) (link : (seg s.hub b).link = true) (good : heard s.hub b = true)
    (free : (seg s.hub b).conflict = false) (out : (seg s.hub b).holdoff = none) : exec (.segmentUp b) s =
    .next (s.settle (setSeg b 2 (onSeg b (fun x => { x with dad := some (nowNs s.hub + 1000000000), sentFrames := x.sentFrames + 1 }) s.hub.clean))) := by
  show execSegmentUp b s = _
  unfold execSegmentUp
  rw [State.run_next]
  dsimp only
  rw [guard_pos (by simp [runs, down, link, good, free, out])]
  rfl

theorem segmentEnableHoldExpiry_run {x : Nat} (hold : (seg s.hub b).holdoff = some x) (due : x ≤ nowNs s.hub) :
    exec (.segmentEnableHoldExpiry b) s = .next (s.settle (onSeg b (fun s => { s with holdoff := none }) s.hub.clean)) := by
  show execSegmentEnableHoldExpiry b s = _
  unfold execSegmentEnableHoldExpiry
  rw [State.run_next, guard_pos (by simp [runs, hold, due])]

theorem failbackTimer_run (asked : s.hub.mgt.portcfg.getLsbD 33 = true) (away : s.hub.mgt.active ≠ preferred s.hub)
    (up : segUp s.hub (preferred s.hub) = true) (long : (seg s.hub (preferred s.hub)).upSince + 10000000000 ≤ nowNs s.hub) :
    exec .failbackTimer s = .next (s.settle (switchTo (preferred s.hub) false s.hub.clean)) := by
  show execFailbackTimer s = _
  unfold execFailbackTimer
  rw [State.run_next]
  dsimp only
  rw [guard_pos (by simp [runs, asked, away, up, long])]
  rfl

end

/-! PLCA and collisions (R420–R422). -/

/-- A segment's PLCA status is recorded, and nothing else of it changes. -/
theorem setPlca_seg (b on : Bool) (h : Hub) : seg (setPlca b on h) b = { seg h b with plca := on } :=
  (seg_of_mgt (emitState_mgt ..) b).trans (seg_onSeg ..)

theorem setPlca_beacon (b on : Bool) (h : Hub) : (setPlca b on h).mgt.beacon = h.mgt.beacon := by
  unfold setPlca
  rw [emitState_mgt]
  simp

/-- A segment that uses PLCA already. -/
theorem plca_eta {x : Segment} (on : x.plca = true) : { x with plca := true } = x := by
  rw [← on]

section
variable {s : State} {b : Bool} (runs : mgtRuns s.env s.hub = true)
include runs

/-- A BEACON makes a follower use PLCA. -/
theorem plcaBeaconReceive_seg (on : segOn (seg s.hub b) = true) (follows : follower (seg s.hub b) = true) (out : (seg s.hub b).holdoff = none) :
    ∃ t, exec (.plcaBeaconReceive b) s = .next t ∧ seg t.hub b = { seg s.hub b with lastBeacon := nowNs s.hub, plca := true } := by
  have run : exec (.plcaBeaconReceive b) s = execPlcaBeaconReceive b s := rfl
  unfold execPlcaBeaconReceive at run
  rw [State.run_next, guard_pos (by simp [runs, on, follows, out])] at run
  refine ⟨_, run, ?_⟩
  dsimp only
  rw [State.settle_hub, seg_clean]
  split
  · next had =>
    rw [seg_onSeg] at had ⊢
    exact (plca_eta had).symm
  · rw [setPlca_seg, seg_onSeg]
    rfl

/-- 4,000 bit times without a BEACON end it. -/
theorem plcaBeaconTimeout_run (on : segOn (seg s.hub b) = true) (follows : follower (seg s.hub b) = true) (uses : (seg s.hub b).plca = true)
    (late : (seg s.hub b).lastBeacon + 400000 ≤ nowNs s.hub)
    (alone : s.env.beaten (evBeacon b) ((seg s.hub b).lastBeacon + 400000) (nowNs s.hub) = false) : exec (.plcaBeaconTimeout b) s =
    .next (s.settle (setPlca b false (onMgt (fun m => { m with beacon := m.beacon + 1 }) s.hub.clean))) := by
  show execPlcaBeaconTimeout b s = _
  unfold execPlcaBeaconTimeout
  rw [State.run_next]
  dsimp only
  rw [guard_pos (by simp [runs, on, follows, uses, late, alone])]

/-- The collisions of a segment within the last second. -/
def recentCollisions (h : Hub) (b : Bool) : List Nat := (seg h b).collisions.filter (fun t => decide (nowNs h < t + 1000000000))

/-- A collision under PLCA, of fewer than 16 within a second. -/
theorem plcaCollision_run (on : segOn (seg s.hub b) = true) (uses : (seg s.hub b).plca = true) (few : (recentCollisions s.hub b).length < 15) :
    exec (.plcaCollision b) s = .next (s.settle (onSeg b (fun x => { x with collisions := recentCollisions s.hub b ++ [nowNs s.hub] })
      (onMgt (fun m => { m with plcacol := m.plcacol + 1 }) s.hub.clean))) := by
  have counted : (recentCollisions s.hub b ++ [nowNs s.hub]).length < 16 := by
    rw [List.length_append, List.length_singleton]
    omega
  show execPlcaCollision b s = _
  unfold execPlcaCollision
  rw [State.run_next, guard_pos (by simp [runs, on, uses])]
  dsimp only
  rw [if_pos (by exact counted)]
  rfl

/-- A collision on CSMA: the 16th ends the attempt, and a TC3 frame is discarded. -/
theorem csmaCollision_run {c : Nat} {f : Frame} {l : Bool} (csma : (seg s.hub b).plca = false) (sends : (seg s.hub b).offered = some (c, f, l)) :
    exec (.csmaCollision b) s = .next (s.settle (
      if (seg s.hub b).attempts + 1 < 16 then onSeg b (fun x => { x with attempts := (seg s.hub b).attempts + 1 }) s.hub.clean
      else onSeg b (fun x => { x with attempts := 0, offered := none, queues := if c = 3 then x.queues else setAt x.queues c (f :: getAt x.queues c []) })
        (onMgt (fun m => { m with excess := m.excess + 1 }) s.hub.clean))) := by
  show execCsmaCollision b s = _
  unfold execCsmaCollision
  rw [State.run_next, seg_clean, sends]
  dsimp only
  rw [guard_pos (by simp [runs, csma])]
  rfl

/-! Addresses (R429). -/

/-- A solicitation is answered while the address holds. -/
theorem neighborSolicitationReceive_run {from_ : BitVec 128} (on : segOn (seg s.hub b) = true) (out : (seg s.hub b).holdoff = none)
    (known : from_ ≠ 0) (free : (seg s.hub b).conflict = false) (held : (seg s.hub b).dad = none) : exec (.neighborSolicitationReceive b from_) s =
    .next (s.settle (onSeg b (fun x => { x with sentFrames := x.sentFrames + 1 }) (takeIngress b (isNdp false) s.hub.clean))) := by
  show execNeighborSolicitationReceive b from_ s = _
  unfold execNeighborSolicitationReceive
  rw [State.run_next, guard_pos (by simp [runs, on, out])]
  dsimp only
  rw [if_neg (by simp only [known, takeIngress_seg, seg_clean, free, held, Option.isSome_none, Bool.false_eq_true, or_self, not_false_eq_true])]

/-- An advertisement of the address within the second marks a conflict. -/
theorem neighborAdvertisementReceive_run {x : Nat} (on : segOn (seg s.hub b) = true) (out : (seg s.hub b).holdoff = none)
    (asked : (seg s.hub b).dad = some x) (soon : nowNs s.hub ≤ x) : ∃ k : Hub, k.mgt = (onSeg b (fun y => { y with conflict := true, dad := none })
        (takeIngress b (isNdp true) s.hub.clean)).mgt ∧ ∃ u, exec (.neighborAdvertisementReceive b) s =
      .next (s.settle (report 0 .addressConflict u [b2n b] (setSeg b 1 k))) := by
  have now : nowNs (takeIngress b (isNdp true) s.hub.clean) = nowNs s.hub := nowNs_congr ((takeIngress_only ..).keep .time (by decide))
  have run : exec (.neighborAdvertisementReceive b) s = execNeighborAdvertisementReceive b s := rfl
  unfold execNeighborAdvertisementReceive at run
  rw [State.run_next, guard_pos (by simp [runs, on, out])] at run
  dsimp only at run
  rw [if_pos (by rw [now]; simp [asked, soon])] at run
  exact ⟨_, (emit_only ..).keep .mgt (by decide), _, run⟩

theorem dadTimeout_run {x : Nat} (asked : (seg s.hub b).dad = some x) (due : x ≤ nowNs s.hub)
    (alone : s.env.beaten (evNeighbour b) x (nowNs s.hub) = false) :
    exec (.dadTimeout b) s = .next (s.settle (onSeg b (fun s => { s with dad := none }) s.hub.clean)) := by
  show execDadTimeout b s = _
  unfold execDadTimeout
  rw [State.run_next, guard_pos (by simp [runs, asked, due, alone])]

/-! Egress (R442). -/

omit runs in
/-- The head frame of the first class that may go is offered. -/
theorem selectFrame_offers {h : Hub} {b : Bool} {c : Nat} {cs : List Nat} {f : Frame} {l : List Frame} (head : getAt (seg h b).queues c [] = f :: l)
    (may : offerOf h (seg h b) c f = .yes) : selectFrame b (c :: cs) h = offerFrame b c f false h := by
  rw [selectFrame, head]
  dsimp only
  rw [may]

omit runs in
/-- What the offer of a frame makes of its segment. -/
theorem offerFrame_seg {h : Hub} {c : Nat} {f : Frame} {l : List Frame} (late : Bool) (head : getAt (seg h b).queues c [] = f :: l) :
    (seg (offerFrame b c f late h) b).offered = some (c, f, late) ∧ (seg (offerFrame b c f late h) b).attempts = 0 ∧
      (seg (offerFrame b c f late h) b).queues = setAt (seg h b).queues c l := by
  unfold offerFrame
  dsimp only
  simp only [seg_onSeg, seg_onMgt, implies_true, head, List.drop_succ_cons, List.drop_zero, and_self]

theorem egressFrameSelect_run {f : Frame} {l : List Frame} (up : segUp s.hub b = true) (idle : (seg s.hub b).offered = none)
    (head : getAt (seg s.hub b).queues 0 [] = f :: l) (may : offerOf s.hub (seg s.hub b) 0 f = .yes) :
    exec (.egressFrameSelect b) s = .next (s.settle (offerFrame b 0 f false s.hub.clean)) := by
  show execEgressFrameSelect b s = _
  unfold execEgressFrameSelect
  rw [State.run_next, guard_pos (by simp [runs, up, idle]), selectFrame_offers (h := s.hub.clean) head may]

end

/-- A restart of PLCA leaves the frames of its segment. -/
theorem plcaStart_frames (b : Bool) (h : Hub) : (seg (plcaStart b h) b).offered = (seg h b).offered ∧ (seg (plcaStart b h) b).attempts = (seg h b).attempts ∧
    (seg (plcaStart b h) b).sentFrames = (seg h b).sentFrames ∧ (seg (plcaStart b h) b).queues = (seg h b).queues := by
  unfold plcaStart
  rw [seg_onSeg]
  exact ⟨rfl, rfl, rfl, rfl⟩

/-- A frame that completes is counted, and its segment is free for the next. -/
theorem egressFrameDone_seg {s : State} {b : Bool} {c : Nat} {f : Frame} {l : Bool} (tray : s.env.tray = true) (on : portOn s.hub = true)
    (sends : (seg s.hub b).offered = some (c, f, l)) : ∃ t, exec (.egressFrameDone b) s = .next t ∧ (seg t.hub b).offered = none ∧
      (seg t.hub b).attempts = 0 ∧ (seg t.hub b).sentFrames = (seg s.hub b).sentFrames + 1 ∧ (seg t.hub b).queues = (seg s.hub b).queues := by
  have run : exec (.egressFrameDone b) s = execEgressFrameDone b s := rfl
  unfold execEgressFrameDone at run
  rw [State.run_next, seg_clean, sends] at run
  dsimp only at run
  rw [guard_pos (by simp [tray, on])] at run
  refine ⟨_, run, ?_⟩
  rw [State.settle_hub, seg_clean]
  split
  · obtain ⟨offered, attempts, sent, queues⟩ := plcaStart_frames b (onSeg b (fun s => { s with offered := none, attempts := 0, sentFrames := s.sentFrames + 1 })
      (onMgt (fun m => { m with overrun := m.overrun + b2n (!l && !gateOpen s.hub.clean.mgt.oper c (nowNs s.hub.clean)) }) s.hub.clean))
    rw [offered, attempts, sent, queues, seg_onSeg]
    exact ⟨rfl, rfl, rfl, rfl⟩
  · rw [seg_onSeg]
    exact ⟨rfl, rfl, rfl, rfl⟩

/-- Settles O27: each event by the lemma on what it makes of its segment. -/
theorem managementSegments : Obligations.ManagementSegments := by
  unfold Obligations.ManagementSegments
  refine ⟨fun s b runs on => ⟨?_, fun up => ?_⟩, fun s b runs up silent alone => ?_, fun s b runs down link good free out => ?_,
    fun s b x runs hold due => ⟨_, segmentEnableHoldExpiry_run runs hold due, seg_onSeg ..⟩,
    fun s runs asked away up long => ⟨_, failbackTimer_run runs asked away up long, switchTo_active ..⟩,
    fun s b runs on follows => ⟨fun out => plcaBeaconReceive_seg runs on follows out, fun uses late alone => ?_⟩,
    fun s b runs on uses few => ?_, fun s b c f l runs csma sends => ⟨fun more => ?_, fun last bulk => ?_⟩,
    fun s b from_ runs on out known free held => ?_, fun s b x runs on out up asked soon => ?_,
    fun s b x runs asked due alone => ⟨_, dadTimeout_run runs asked due alone, seg_onSeg ..⟩,
    fun s b f l runs up idle head may => ?_, fun s b c f l tray on sends => egressFrameDone_seg tray on sends⟩
  · exact ⟨_, phyPoll_run runs true on, seg_link ..⟩
  · have moves : (seg (onSeg b (fun s => { s with link := false }) s.hub.clean) b).state.toNat ≠ 1 := by
      rw [seg_link, seg_clean, up]
      decide
    obtain ⟨q, left⟩ := setSeg_seg b moves
    refine ⟨_, phyPoll_run runs false on, ?_⟩
    rw [if_pos (by simp [segUp, up]), State.settle_hub, seg_clean, left, seg_link]
    exact ⟨rfl, rfl⟩
  · exact ⟨_, segmentSilenceTimeout_run runs up silent alone, setSeg_state _ 1 _ (by decide)⟩
  · have moves : (seg (onSeg b (fun x => { x with dad := some (nowNs s.hub + 1000000000), sentFrames := x.sentFrames + 1 }) s.hub.clean) b).state.toNat ≠ 2 := by
      rw [seg_onSeg, seg_clean, down]
      decide
    have now : nowNs (onSeg b (fun x => { x with dad := some (nowNs s.hub + 1000000000), sentFrames := x.sentFrames + 1 }) s.hub.clean) = nowNs s.hub :=
      nowNs_congr ((onSeg_only ..).keep .time (by decide))
    obtain ⟨q, left⟩ := setSeg_seg b moves
    refine ⟨_, segmentUp_run runs down link good free out, ?_⟩
    rw [State.settle_hub, seg_clean, left, now, seg_onSeg]
    exact ⟨rfl, rfl, rfl⟩
  · refine ⟨_, plcaBeaconTimeout_run runs on follows uses late alone, ?_, setPlca_beacon ..⟩
    rw [State.settle_hub, seg_clean, setPlca_seg]
    rfl
  · refine ⟨_, plcaCollision_run runs on uses few, by simp [onMgt], ?_⟩
    rw [State.settle_hub, seg_clean, seg_onSeg]
    rfl
  · refine ⟨_, csmaCollision_run runs csma sends, ?_⟩
    rw [if_pos (by omega), State.settle_hub, seg_clean, seg_onSeg]
    rfl
  · refine ⟨_, csmaCollision_run runs csma sends, ?_⟩
    rw [if_neg (by omega), State.settle_hub, seg_clean, seg_onSeg, if_pos bulk]
    exact ⟨rfl, by simp [onMgt]⟩
  · refine ⟨_, neighborSolicitationReceive_run runs on out known free held, ?_⟩
    rw [State.settle_hub, seg_clean, seg_onSeg, takeIngress_seg]
    rfl
  · obtain ⟨k, port, u, run⟩ := neighborAdvertisementReceive_run runs on out asked soon
    have before : seg k b = { seg s.hub b with conflict := true, dad := none } := by
      rw [seg_of_mgt port, seg_onSeg, takeIngress_seg]
      rfl
    obtain ⟨q, left⟩ := setSeg_seg b (h := k) (st := 1) (by rw [before, up]; decide)
    refine ⟨_, run, ?_⟩
    rw [State.settle_hub, seg_clean, seg_of_mgt ((report_only ..).keep .mgt (by decide)), left, before]
    exact ⟨rfl, rfl, rfl⟩
  · exact ⟨_, egressFrameSelect_run runs up idle head may, offerFrame_seg false (h := s.hub.clean) head⟩

end Sys2Proof.Machine
end

section
/-!
PROOF. Frames that arrive at the management port and gPTP (O28): what a frame received comes to, the selection of the master, and the
measurements of its time and of the link's delay.
-/
namespace Sys2Proof.Machine

/-! Frames received (R430, R449–R453). -/

/-- The class of a frame depends on the port's settings alone. -/
theorem classify_congr {m n : Mgt} (settings : n.portcfg = m.portcfg) (f : EthFrame) : classify n f = classify m f := by
  unfold classify
  rw [settings]

theorem classify_fcs {m : Mgt} {f : EthFrame} (bad : f.fcsOk = false) : classify m f = .fcs := by
  unfold classify
  rw [if_pos (by simp [bad])]

/-- A frame of a class without a meter is green. -/
theorem meterFrame_none {m : Meter} (now len : Nat) (off : bitsOf m.cfg.toNat 31 16 = 0) : meterFrame now len m = (m, 0) := by
  unfold meterFrame
  exact if_pos off

/-- A frame that no meter holds enters the ingress buffer while it has room. -/
theorem meterIn_accepts {b : Bool} {c : Nat} {f : EthFrame} {h : Hub} (plain : f.etherType ≠ 0x88F7)
    (off : bitsOf (getAt h.mgt.meters c {}).cfg.toNat 31 16 = 0) (room : ingressFill h.mgt + f.bytes ≤ 14336) :
    (meterIn b c f h).mgt.accept = h.mgt.accept + 1 ∧ (meterIn b c f h).mgt.ingress = h.mgt.ingress ++ [(b, f)] ∧
      (meterIn b c f h).mgt.metered = h.mgt.metered := by
  have room' (m : List Meter) : ¬ingressFill { h.mgt with accept := h.mgt.accept + 1, meters := m } + f.bytes > 14336 := Nat.not_lt.mpr room
  unfold meterIn
  simp only [meterFrame_none _ _ off, plain, decide_false, onMgt]
  rw [if_neg (by simp), if_neg (by exact room' _)]
  exact ⟨rfl, rfl, rfl⟩

section
variable {s : State} {b : Bool} {f : EthFrame} (runs : mgtRuns s.env s.hub = true) (on : segOn (seg s.hub b) = true)
  (out : (seg s.hub b).holdoff = none)
include runs on out

/-- A frame with a wrong check sequence is counted. -/
theorem miiFrameReceive_bad (bad : f.fcsOk = false) : exec (.miiFrameReceive b f) s =
    .next (s.settle (onMgt (fun m => { m with fcs := m.fcs + 1 }) s.hub.clean)) := by
  show execMiiFrameReceive b f s = _
  unfold execMiiFrameReceive
  rw [State.run_next, guard_pos (by simp [runs, on, out]), if_neg (by simp [bad])]
  dsimp only
  rw [classify_fcs bad]

variable (good : f.fcsOk = true)
include good

/-- The hub in which a good frame has been heard on a segment. -/
def frameHeard (b : Bool) (h : Hub) : Hub := onSeg b (fun x => { x with lastFrame := some (nowNs h) }) h

omit runs on out good in
theorem frameHeard_seg (b : Bool) (h : Hub) : seg (frameHeard b h) b = { seg h b with lastFrame := some (nowNs h) } := seg_onSeg ..

/-- A good frame for someone else. -/
theorem miiFrameReceive_stranger (other : classify s.hub.mgt f = .stranger) : exec (.miiFrameReceive b f) s =
    .next (s.settle (onMgt (fun m => { m with stranger := m.stranger + 1 }) (frameHeard b s.hub.clean))) := by
  have class_ : classify (frameHeard b s.hub.clean).mgt f = .stranger := (classify_congr (onSeg_mgt b _ _).2.1 f).trans other
  show execMiiFrameReceive b f s = _
  unfold execMiiFrameReceive
  rw [State.run_next, guard_pos (by simp [runs, on, out]), if_pos good]
  rw [← frameHeard]
  dsimp only
  rw [class_]

/-- A good frame that passes the filter outside CONFIG is metered. -/
theorem miiFrameReceive_pass {c : Nat} (pass : classify s.hub.mgt f = .pass c) (later : s.hub.sys.st ≠ .config) : exec (.miiFrameReceive b f) s =
    .next (s.settle (meterIn b c f (frameHeard b s.hub.clean))) := by
  have class_ : classify (frameHeard b s.hub.clean).mgt f = .pass c := (classify_congr (onSeg_mgt b _ _).2.1 f).trans pass
  have state : (frameHeard b s.hub.clean).sys = s.hub.sys := (onSeg_only ..).keep .sys (by decide)
  show execMiiFrameReceive b f s = _
  unfold execMiiFrameReceive
  rw [State.run_next, guard_pos (by simp [runs, on, out]), if_pos good]
  rw [← frameHeard]
  dsimp only
  rw [class_]
  dsimp only
  split
  · next config _ => exact absurd ((congrArg Sys.st state).symm.trans config) later
  · rfl

end

/-! The master (R438, R439). -/

theorem takeIngress_now (b : Bool) (p : EthFrame → Bool) (h : Hub) : nowNs (takeIngress b p h) = nowNs h :=
  nowNs_congr ((takeIngress_only ..).keep .time (by decide))
theorem takeIngress_active (b : Bool) (p : EthFrame → Bool) (h : Hub) : (takeIngress b p h).mgt.active = h.mgt.active :=
  (congrArg Mgt.active (takeIngress_mgt b p h) :)
theorem takeIngress_master (b : Bool) (p : EthFrame → Bool) (h : Hub) : (takeIngress b p h).mgt.master = h.mgt.master :=
  (congrArg Mgt.master (takeIngress_mgt b p h) :)

@[simp] theorem isMaster_clean (h : Hub) (b : Bool) (i : BitVec 80) : isMaster h.clean b i = isMaster h b i := rfl

theorem takeIngress_isMaster (b : Bool) (p : EthFrame → Bool) (h : Hub) (c : Bool) (i : BitVec 80) :
    isMaster (takeIngress b p h) c i = isMaster h c i := by
  unfold isMaster
  rw [takeIngress_master]

/-- The Announce messages held with one more, in place of the one before it from the same master. -/
def heldWith (b : Bool) (a : Announce) (h : Hub) : List Master :=
  h.mgt.announces.filter (fun x => !(decide (x.seg = b) && decide (x.identity = a.identity))) ++
    [{ seg := b, vector := a.vector, identity := a.identity, interval := a.interval, last := nowNs h }]

/-- The hub that holds an Announce that has arrived. -/
def announced (b : Bool) (a : Announce) (h : Hub) : Hub := onMgt (fun x => { x with announces := heldWith b a h }) h

/-- A selection leaves the best of the masters that it holds. -/
theorem reselect_best (h : Hub) : (reselect h).mgt.master = bestMaster h.mgt.active (reselect h).mgt.announces := by
  obtain ⟨held, best, -⟩ := reselect_mgt h
  rw [best, held]

/-- An Announce is held through the selection that it brings. -/
theorem reselect_announced {b : Bool} {a : Announce} {h : Hub} (timed : 0 < a.interval) :
    { seg := b, vector := a.vector, identity := a.identity, interval := a.interval, last := nowNs h } ∈ (reselect (announced b a h)).mgt.announces := by
  rw [(reselect_mgt _).1]
  refine List.mem_filter.mpr ⟨List.mem_append_right _ List.mem_cons_self, ?_⟩
  show decide (nowNs h < nowNs h + 3 * a.interval) = true
  exact decide_eq_true (by omega)

theorem gptpAnnounceReceive_run {s : State} {b : Bool} {a : Announce} (runs : mgtRuns s.env s.hub = true) (up : segUp s.hub b = true) :
    exec (.gptpAnnounceReceive b a) s = .next (s.settle (reselect (announced b a (takeIngress b isGptp s.hub.clean)))) := by
  show execGptpAnnounceReceive b a s = _
  unfold execGptpAnnounceReceive
  rw [State.run_next, guard_pos (by simp [runs, up])]
  rfl

/-- When the selected master was heard last. -/
def masterHeard (h : Hub) (m : Master) : Nat :=
  ((h.mgt.announces.find? (fun a => decide (a.identity = m.identity) && decide (a.seg = m.seg))).map Master.last).getD m.last

/-- The loss of the master is counted, and another is selected. -/
theorem gptpAnnounceTimeout_run {s : State} {m : Master} (runs : mgtRuns s.env s.hub = true) (master : s.hub.mgt.master = some m)
    (late : masterHeard s.hub m + 3 * m.interval ≤ nowNs s.hub)
    (alone : s.env.beaten evAnnounce (masterHeard s.hub m + 3 * m.interval) (nowNs s.hub) = false) :
    exec .gptpAnnounceTimeout s = .next (s.settle (reselect (onMgt (fun x => { x with annto := x.annto + 1 }) s.hub.clean))) := by
  show execGptpAnnounceTimeout s = _
  unfold execGptpAnnounceTimeout
  rw [State.run_next, Hub.clean_mgt, master]
  dsimp only
  rw [guard_pos]
  rw [mgtRuns_clean, runs, ← masterHeard, nowNs_clean, alone, decide_eq_true late]
  rfl

/-! Time (R437, R440, R441). -/

/-- A 64-bit field as a signed number. -/
theorem signed_toInt (x : DWord) : signed 64 x.toNat = x.toInt := by
  have lt := x.isLt
  unfold signed
  rw [Nat.mod_eq_of_lt lt, BitVec.toInt_eq_toNat_cond]
  split <;> split <;> omega

section
variable {s : State} {b : Bool} (runs : mgtRuns s.env s.hub = true) (up : segUp s.hub b = true)
include runs up

/-- A Sync of the selected master is measured, with the receive stamp less RX_LAT; another is not. -/
theorem gptpSyncReceive_run {i : BitVec 80} {o c : DWord} {n : Nat} : exec (.gptpSyncReceive b i o c n) s = .next (s.settle (
    if isMaster s.hub b i then syncMeasured s.env ((nowNs s.hub : Int) - (seg s.hub b).rxLat - (o.toInt + c.toInt + (seg s.hub b).delay))
      { takeIngress b isGptp s.hub.clean with time := { s.hub.time with syncInt := n } }
    else takeIngress b isGptp s.hub.clean)) := by
  have time : (takeIngress b isGptp s.hub.clean).time = s.hub.time := (takeIngress_only ..).keep .time (by decide)
  show execGptpSyncReceive b i o c n s = _
  unfold execGptpSyncReceive
  rw [State.run_next, guard_pos (by simp [runs, up])]
  dsimp only
  rw [takeIngress_isMaster, isMaster_clean, takeIngress_now, takeIngress_seg, time, signed_toInt, signed_toInt]
  rfl

theorem gptpPdelayInterval_run (due : (seg s.hub b).lastPd + s.hub.mgt.pdelayInt ≤ nowNs s.hub) : exec (.gptpPdelayInterval b) s =
    .next (s.settle (onSeg b (fun x => { x with pdelayT1 := some (nowNs s.hub + x.txLat), lastPd := nowNs s.hub, sentFrames := x.sentFrames + 1 }) s.hub.clean)) := by
  show execGptpPdelayInterval b s = _
  unfold execGptpPdelayInterval
  rw [State.run_next, guard_pos (by simp [runs, up, due])]
  rfl

theorem gptpPdelayReqReceive_run {i : BitVec 80} (known : i ≠ 0) : exec (.gptpPdelayReqReceive b i) s =
    .next (s.settle (onSeg b (fun x => { x with sentFrames := x.sentFrames + 2 }) (takeIngress b isGptp s.hub.clean))) := by
  show execGptpPdelayReqReceive b i s = _
  unfold execGptpPdelayReqReceive
  rw [State.run_next, guard_pos (by rw [mgtRuns_clean, runs, segUp_clean, up, decide_eq_true known]; rfl)]

/-- The answer of the master's port gives the mean delay. -/
theorem gptpPdelayRespReceive_master {i : BitVec 80} {t2 t3 : DWord} {t1 : Nat} (master : isMaster s.hub b i = true) (asked : (seg s.hub b).pdelayT1 = some t1) :
    exec (.gptpPdelayRespReceive b i t2 t3) s = .next (s.settle (onSeg b (fun x => { x with
      pdelayT1 := none, delay := (((nowNs s.hub : Int) - x.rxLat - t1) - ((t3.toNat : Int) - t2.toNat)) / 2 }) (takeIngress b isGptp s.hub.clean))) := by
  show execGptpPdelayRespReceive b i t2 t3 s = _
  unfold execGptpPdelayRespReceive
  rw [State.run_next, guard_pos (by simp [runs, up])]
  dsimp only
  rw [takeIngress_isMaster, isMaster_clean, takeIngress_seg, seg_clean, master, asked, takeIngress_now]
  rfl

/-- Another answer is counted. -/
theorem gptpPdelayRespReceive_other {i : BitVec 80} {t2 t3 : DWord} (other : isMaster s.hub b i = false) :
    exec (.gptpPdelayRespReceive b i t2 t3) s = .next (s.settle (onMgt (fun m => { m with pdelayBad := m.pdelayBad + 1 }) (takeIngress b isGptp s.hub.clean))) := by
  show execGptpPdelayRespReceive b i t2 t3 s = _
  unfold execGptpPdelayRespReceive
  rw [State.run_next, guard_pos (by simp [runs, up])]
  dsimp only
  rw [takeIngress_isMaster, isMaster_clean, other]

end

/-- Settles O28: a frame by what it is classed as, an Announce and its timeout by what is then selected, the others by what each makes of
its segment. -/
theorem managementTraffic : Obligations.ManagementTraffic := by
  unfold Obligations.ManagementTraffic
  refine ⟨fun s b f runs on out => ⟨fun bad => ⟨_, miiFrameReceive_bad runs on out bad, rfl⟩, fun other good => ?_, fun c pass good plain later off room => ?_⟩,
    fun s b a runs up timed => ⟨_, gptpAnnounceReceive_run runs up, ?_, ?_⟩, fun s m runs master late alone => ?_,
    fun s b i o c n runs up => ⟨fun master => ?_, fun other => ?_⟩, fun s b runs up due => ⟨_, gptpPdelayInterval_run runs up due, seg_onSeg ..⟩,
    fun s b i runs up known => ?_, fun s b i t2 t3 runs up => ⟨fun t1 master asked => ?_, fun other => ?_⟩⟩
  · refine ⟨_, miiFrameReceive_stranger runs on out good other, ?_, ?_, ?_⟩
    · simp [onMgt, frameHeard]
    · simp [onMgt, frameHeard]
    · rw [State.settle_hub, seg_clean, show seg (onMgt _ (frameHeard b s.hub.clean)) b = seg (frameHeard b s.hub.clean) b from rfl, frameHeard_seg]
      rfl
  · obtain ⟨accept, ingress, metered⟩ := meterIn_accepts (b := b) (h := frameHeard b s.hub.clean) plain (c := c)
      (by unfold frameHeard; rw [show (onSeg b _ s.hub.clean).mgt.meters = s.hub.mgt.meters by simp]; exact off)
      (by unfold frameHeard ingressFill; rw [show (onSeg b _ s.hub.clean).mgt.ingress = s.hub.mgt.ingress by simp]; exact room)
    refine ⟨_, miiFrameReceive_pass runs on out good pass later, accept.trans ?_, ingress.trans ?_, metered.trans ?_⟩ <;> simp [frameHeard]
  · have held := reselect_announced (b := b) (h := takeIngress b isGptp s.hub.clean) timed
    rw [takeIngress_now] at held
    exact held
  · have best := reselect_best (announced b a (takeIngress b isGptp s.hub.clean))
    rw [show (announced b a (takeIngress b isGptp s.hub.clean)).mgt.active = s.hub.mgt.active from takeIngress_active ..] at best
    exact best
  · exact ⟨_, gptpAnnounceTimeout_run runs master late alone, (reselect_mgt _).2.2, reselect_best _⟩
  · refine ⟨_, gptpSyncReceive_run runs up, ?_⟩
    rw [if_pos master]
    rfl
  · refine ⟨_, gptpSyncReceive_run runs up, ?_⟩
    rw [if_neg (by simp [other])]
    exact (takeIngress_only ..).keep .time (by decide)
  · refine ⟨_, gptpPdelayReqReceive_run runs up known, ?_⟩
    rw [State.settle_hub, seg_clean, seg_onSeg, takeIngress_seg]
    rfl
  · refine ⟨_, gptpPdelayRespReceive_master runs up master asked, ?_⟩
    rw [State.settle_hub, seg_clean, seg_onSeg, takeIngress_seg]
    rfl
  · refine ⟨_, gptpPdelayRespReceive_other runs up other, ?_, ?_⟩
    · exact congrArg (· + 1) (congrArg Mgt.pdelayBad (takeIngress_mgt ..) :)
    · exact takeIngress_seg ..

end Sys2Proof.Machine
end

section
/-!
PROOF. Keys, the lock and the debug commands (O16): what each command's change is, and what its answer leaves of it.
-/
namespace Sys2Proof.Machine

/-! KEY_LOAD (R431, R433, R463, R478). -/

/-- A slot's key clears the sequence state of that slot alone: a channel keeps its own. -/
theorem seqOf_loadKey (slot dom job : Nat) (key : BitVec 128) (h : Hub) (ch : BitVec 2) :
    seqOf (loadKey slot dom job key h) (.channel ch) = seqOf h (.channel ch) := by
  have kept : Tab.find (h.cmd.seqs.filter (fun p => decide (p.1 ≠ 16 + slot))) ch.toNat = Tab.find h.cmd.seqs ch.toNat :=
    Tab.find_filter _ _ _ (fun _ => decide_eq_true (by have := ch.isLt; omega))
  exact congrArg (fun o : Option SeqState => o.getD {}) kept

/-- A slot for BOOT, or for DEBUG while the fuse forbids it. -/
def forbiddenSlot (c : Cmd) (s : State) : Prop := c.n 2 = 0 ∨ (c.n 2 = 3 ∧ s.env.debugDis = true)

section
variable {c : Cmd} {s : State} (p : passes opKeyLoad c s = true)
include p

theorem keyLoad_loads {ch : BitVec 2} (by_ : c.req = .channel ch) (may : ¬forbiddenSlot c s) : ∃ t, exec (.keyLoad c) s = .next t ∧
    Answered 0xC0 0x0000 0 [] c s t ∧
      t.hub.cmd.keys = Tab.put s.hub.cmd.keys (c.n 1) { key := keyOf (ctxOf c s) 4, domain := BitVec.ofNat 2 (c.n 2), job := BitVec.ofNat 16 (c.n 3) } := by
  have act : opKeyLoad.act s.env (consumed c s) (ctxOf c s) = ok [] (loadKey (c.n 1) (c.n 2) (c.n 3) (keyOf (ctxOf c s) 4) (consumed c s)) := if_neg may
  have own : (ctxOf c s).req = .channel ch := by_
  obtain ⟨t, run, ans, rfl⟩ := op_done_seq p act (by decide) (by rw [by_, seqOf_loadKey]) (consumed_chans c s)
    (congrArg Prot.locked (by simp [loadKey] : (loadKey (c.n 1) (c.n 2) (c.n 3) (keyOf (ctxOf c s) 4) (consumed c s)).prot = s.hub.prot))
  refine ⟨_, run, ans, ?_⟩
  rw [State.settle_hub, Hub.clean_cmd, answer_keys own]
  simp [loadKey, consumed]

theorem keyLoad_refused (not_ : forbiddenSlot c s) : ∃ t, exec (.keyLoad c) s = .next t ∧ Answered 0xC0 0x0103 2 [] c s t ∧
    t.hub.prot = { s.hub.prot with refused := s.hub.prot.refused + 1 } := by
  have act : opKeyLoad.act s.env (consumed c s) (ctxOf c s) = refuse stBadParam (refusedWrite 11 0x28 (BitVec.ofNat 64 (c.d 1))
      { consumed c s with prot := { (consumed c s).prot with refused := (consumed c s).prot.refused + 1 } }) 2 := if_pos not_
  obtain ⟨t, run, ans, rfl⟩ := op_done p act (by decide) (by simp) (by simp) (by simp)
  exact ⟨_, run, ans, by simp⟩

end

/-! PROT_LOCK (R477, R624). -/

/-- Every channel is what its PROT value makes it. -/
theorem lockProt_channel {auto : Bool} {h : Hub} {i : Nat} {x : Channel} (at_ : (lockProt auto h).cmd.chans[i]? = some x) :
    ∃ y, x = lockChannel (getAt h.prot.ch i 0).toNat y := by
  unfold lockProt at at_
  simp only [List.getElem?_map, List.getElem?_zipIdx, Option.map_eq_some_iff] at at_
  obtain ⟨-, ⟨y, -, rfl⟩, rfl⟩ := at_
  exact ⟨y, by simp⟩

theorem lockProt_length (auto : Bool) (h : Hub) : (lockProt auto h).cmd.chans.length = h.cmd.chans.length := by
  simp [lockProt]

/-- PROT_LOCK locks the hub that its reply has left, in which the PROT values and the number of the channels stand. -/
theorem protLock_run {c : Cmd} {s : State} (p : passes opProtLock c s = true) : ∃ k : Hub, k.prot = s.hub.prot ∧
    k.cmd.chans.length = s.hub.cmd.chans.length ∧ exec (.protLock c) s = .next (s.settle (lockProt false k)) := by
  obtain ⟨t, run, rfl⟩ := op_later p rfl
  refine ⟨_, ?_, ?_, run⟩
  · rw [(finish_only ..).keep .prot (by decide)]
    simp
  · rw [finish_chans]
    simp

/-! DBG_READ and DBG_WRITE (R476). -/

/-- DBG_WRITE of a register that is not the DEBUG domain's own is refused in SERVING, and leaves the units. -/
theorem dbgWrite_refused {c : Cmd} {s : State} (p : passes opDbgWrite c s = true) (serves : serving s.hub = true)
    (other : debugOnly (c.n 1) (c.n 2) = false) : ∃ t, exec (.dbgWrite c) s = .next t ∧ Answered 0xF1 0x0108 0 [] c s t ∧
      t.hub.res = s.hub.res ∧ t.hub.dig = s.hub.dig := by
  have act : opDbgWrite.act s.env (consumed c s) (ctxOf c s) = refuse stWrongState (consumed c s) :=
    if_pos (by rw [serving_consumed, serves, ctxOf_n, ctxOf_n, other]; rfl)
  obtain ⟨t, run, ans, rfl⟩ := op_done p act (by decide) rfl (consumed_chans c s) (by simp)
  exact ⟨_, run, ans, by simp, by simp⟩

/-- RES_DBG_T takes its bits from a command in the DEBUG domain. -/
theorem writeReg_dbgT {e : Env} {boot : Bool} {v : DWord} {h : Hub} (die : e.tray = false) : writeReg e boot true 32 0x40 .whole v h =
    { h with res := { h.res with dbgT := v &&& 0x1FFFFFFFFFFFFFFF } } := by
  unfold writeReg
  rw [die]
  rfl

/-- A DBG_WRITE of RES_DBG_T writes it in any state. -/
theorem opDbgWrite_dbgT {c : Cmd} {s : State} (die : s.env.tray = false) (unit : c.n 1 = 32) (off : c.n 2 = 0x40)
    (alone : ∀ w ∈ s.hub.regs.portWrote, ¬(w.1 = 32 ∧ w.2.1 = 0x40)) : opDbgWrite.act s.env (consumed c s) (ctxOf c s) =
      ok [] { consumed c s with
        regs := { s.hub.regs with cmdWrote := (32, 0x40) :: s.hub.regs.cmdWrote }
        res := { s.hub.res with dbgT := BitVec.ofNat 64 (c.d 3) &&& 0x1FFFFFFFFFFFFFFF } } := by
  have regs : (consumed c s).regs = s.hub.regs := by simp
  have res : (consumed c s).res = s.hub.res := by simp
  unfold opDbgWrite
  dsimp only
  rw [ctxOf_n, ctxOf_n, unit, off, if_neg (by rw [show debugOnly 32 0x40 = true by decide]; simp), if_pos (by decide),
    commandField_free (by rw [regs]; exact alone), writeReg_dbgT die, regs, res]
  rfl

/-- Settles O16: the keys by `keyLoad_loads` and `keyLoad_refused`, the lock by `protLock_run`, a debug command by its change. -/
theorem protectionCommands : Obligations.ProtectionCommands := by
  unfold Obligations.ProtectionCommands
  refine ⟨fun c s ch p by_ named fuse => ?_, fun c s p not_ => keyLoad_refused p not_, fun c s p => ?_, fun c s p => ?_,
    fun c s p serves other => dbgWrite_refused p serves other, fun c s p die unit off alone => ?_⟩
  · have may : ¬forbiddenSlot c s := fun not_ => not_.elim named (fun d => by simpa [d.2] using fuse d.1)
    obtain ⟨t, run, ans, keys⟩ := keyLoad_loads p by_ may
    refine ⟨t, run, ans, ?_, fun i other => ?_⟩
    · rw [keys, Tab.find_put_self]
      rfl
    · rw [keys, Tab.find_put_ne _ _ _ _ other]
  · obtain ⟨k, prot, length, run⟩ := protLock_run p
    refine ⟨_, run, ?_, ?_, fun i x at_ => ?_⟩
    · rw [State.settle_hub, Hub.clean_prot, ← prot]
      rfl
    · rw [State.settle_hub, Hub.clean_cmd, lockProt_length, length]
    · obtain ⟨y, rfl⟩ := lockProt_channel (auto := false) (h := k) at_
      rw [prot]
      exact ⟨rfl, rfl, rfl, rfl⟩
  · obtain ⟨t, run, ans, -⟩ := op_done p (st := stOk) (det := 0) (k := consumed c s) rfl (by decide) rfl (consumed_chans c s) (by simp)
    exact ⟨t, run, ans⟩
  · obtain ⟨t, run, ans, rfl⟩ := op_done p (opDbgWrite_dbgT die unit off alone) (by decide) rfl (consumed_chans c s) (by simp)
    exact ⟨_, run, ans, by simp⟩

end Sys2Proof.Machine
end

section
/-!
PROOF. Relayed commands and management envelopes (O46): the relay that a packet for a member die becomes, its timeout, the COMMAND messages
of the tray, and what an envelope comes to.
-/
namespace Sys2Proof.Machine

/-! RELAY_COMMAND (R469, R470). -/

theorem relayCommand_runs {s : State} {op : Byte} {c : Cmd} {d : OpDef} (assigned : opIn opcodes op.toNat c.params = some d) :
    exec (.relayCommand op c) s = s.runOp d c := by
  show execRelayCommand op c s = _
  unfold execRelayCommand State.runOp
  rw [State.run_next, State.run_next, assigned]

/-- A packet of an opcode that is not assigned. -/
theorem relayCommand_unassigned {s : State} {op : Byte} {c : Cmd} {dj : Domain × Option (BitVec 16)} (none_ : opIn opcodes op.toNat c.params = none)
    (known : reqDom s.env s.hub c.req = some dj) : exec (.relayCommand op c) s =
      .next (s.settle (refusePacket s.env c.req dj op.toNat c.cseq stBadOpcode s.hub.clean)) := by
  have known' : reqDom s.env s.hub.clean c.req = some dj := known
  show execRelayCommand op c s = _
  unfold execRelayCommand
  rw [State.run_next, none_, known']

/-- A command for a member die, from a requester that may relay it, comes to the relay. -/
theorem runCmd_relays {d : OpDef} {e : Env} {c : Cmd} {h : Hub} {dj : Domain × Option (BitVec 16)} (known : reqDom e h c.req = some dj)
    (short : c.params.length ≤ 348) (named : c.target ≠ 0x3FFFF) (other : c.target.toNat ≠ nodeNo e h) (member_ : memberDie e h c.target.toNat = true)
    (may : d.may (mkCtx c dj) = true) (bound : (dj.1 == .tenant && dj.2.isNone) = false) (late : (dj.1 == .boot) = false) :
    runCmd d e c h = relayCmd e d.code c (mkCtx c dj) c.target.toNat h := by
  have own : (decide (c.target = 0x3FFFF) || decide (c.target.toNat = nodeNo e h)) = false := by
    rw [decide_eq_false named, decide_eq_false other]
    rfl
  have bound' : ((mkCtx c dj).dom == .tenant && (mkCtx c dj).job.isNone) = false := bound
  have late' : ((mkCtx c dj).dom == .boot) = false := late
  unfold runCmd
  rw [known]
  dsimp only
  rw [if_neg (Nat.not_lt.mpr short), own, member_, may, bound', late']
  rfl

/-- The number of the next relay. -/
def nextRid (h : Hub) : BitVec 24 := if h.cmd.rid + 1 = 0 then 1 else h.cmd.rid + 1

/-- The relay that a command becomes. -/
def relayOf (d : OpDef) (c : Cmd) (dj : Domain × Option (BitVec 16)) (h : Hub) : Relay where
  rid := nextRid h
  die := c.target.toNat
  req := c.req
  opcode := BitVec.ofNat 8 d.code
  cseq := c.cseq
  domain := BitVec.ofNat 2 (domCode dj.1)
  due := nowNs h + h.cmd.relayTimeout

/-- A relay is kept with its number while fewer than 64 are. -/
theorem relayCmd_relayed {d : OpDef} {e : Env} {c : Cmd} {dj : Domain × Option (BitVec 16)} {die : Nat} {h : Hub} (at_ : die = c.target.toNat)
    (room : h.cmd.relays.length < 64) : (relayCmd e d.code c (mkCtx c dj) die h).cmd =
      { h.cmd with rid := nextRid h, relays := h.cmd.relays ++ [relayOf d c dj h] } := by
  subst at_
  unfold relayCmd
  rw [if_neg (Nat.not_le.mpr room)]
  exact (sbDown_only ..).keep .cmd (by decide)

/-- BUSY where 64 relays are in progress. -/
theorem relayCmd_busy {d : OpDef} {e : Env} {c : Cmd} {x : Ctx} {die : Nat} {h : Hub} (full : 64 ≤ h.cmd.relays.length) :
    relayCmd e d.code c x die h = replyOnly e d.code x stBusy h := by
  unfold relayCmd
  exact if_pos full

/-! RELAY_TIMEOUT (R470). -/

theorem relayTimeout_run {s : State} {rid : BitVec 24} {r : Relay} (held : s.hub.cmd.relays.find? (fun r => decide (r.rid = rid)) = some r)
    (on : alive s.hub = true) (due : r.due ≤ nowNs s.hub) (alone : s.env.beaten evSbReply r.due (nowNs s.hub) = false) :
    exec (.relayTimeout rid) s = .next (s.settle (relayBack s.env r (replyBytes (mkReply r.opcode.toNat r.cseq stTimeout r.domain.toNat 0 [] s.hub))
      { s.hub.clean with cmd := { s.hub.cmd with relays := s.hub.cmd.relays.filter (fun q => decide (q.rid ≠ rid)) } })) := by
  show execRelayTimeout rid s = _
  unfold execRelayTimeout
  rw [State.run_next, Hub.clean_cmd, held]
  dsimp only
  rw [guard_pos (by simp [on, due, alone])]
  rfl

/-! SB_COMMAND_RECEIVE (R469, R471, Table 12.7). -/

theorem ownTray_congr {h k : Hub} (img : k.img = h.img) (sender : k.sb.trayNode = h.sb.trayNode) (src : Node) : ownTray k src = ownTray h src := by
  unfold ownTray
  rw [img, sender]

/-- A packet of an assigned opcode is executed; of a requester that reaches no interpreter it has no effect either way. -/
theorem packetIn_runs {e : Env} {q : Requester} {b : List Byte} {h : Hub} {code : Nat} {order : Bool} {cseq : Word} {target : Node} {ps : List Word}
    {d : OpDef} (notChannel : ∀ ch, q ≠ .channel ch) (good : parsePacket b = .good code order cseq target ps) (assigned : opIn opcodes code ps = some d) :
    packetIn opcodes e q b h = runCmd d e { req := q, order := order, cseq := cseq, target := target, params := ps } h := by
  unfold packetIn
  cases known : reqDom e h q with
  | some dj =>
    dsimp only
    rw [good]
    dsimp only
    rw [assigned]
  | none =>
    unfold runCmd
    rw [known]
    cases q with
    | channel ch => exact absurd rfl (notChannel ch)
    | key => rfl
    | relay => rfl
    | broadcast => rfl

/-- The relay header's requester (Table 12.7). -/
def relayReq (bs : List Byte) : Requester :=
  .relay (BitVec.ofNat 4 (bitsOf (beAt bs 4 4) 27 24)) (domOf (bitsOf (beAt bs 0 4) 31 30)) (BitVec.ofNat 16 (beAt bs 0 4)) (BitVec.ofNat 24 (beAt bs 4 4))

section
variable {s : State} {port : BitVec 4} {f : SbFrame} (die : s.env.tray = false)
include die

/-- A message of the own tray that is whole is taken as a packet. -/
theorem sbCommandReceive_takes {bs : List Byte} (whole : sbMessage s.env s.hub 6 port.toNat f = some bs) (own : ownTray s.hub f.src = true)
    (long : 8 ≤ bs.length) : ∃ k, Only [.sb] s.hub.clean k ∧
      exec (.sbCommandReceive port f) s = .next (s.settle (packetIn opcodes s.env (relayReq bs) (bs.drop 8) k)) := by
  obtain ⟨ok, mine, ends⟩ := sbMessage_ok ((sbMessage_clean ..).trans whole)
  have acted := sbTaken_acted (s := s) ok
  have only := acted.only.trans (sbAssemble_only f _)
  have text : (sbAssemble f (sbTaken s.env port.toNat f s.hub.clean)).2 = some bs := (sbAssemble_acted acted).trans ends
  have own' : ownTray (sbTaken s.env port.toNat f s.hub.clean) f.src = true := (ownTray_congr acted.img (congrArg Sb.trayNode acted.sb :) _).trans own
  have run : exec (.sbCommandReceive port f) s = execSbCommandReceive port f s := rfl
  unfold execSbCommandReceive at run
  rw [sbOn_run (s := s) ok] at run
  dsimp only at run
  rw [if_neg (by simp [die, mine]), if_neg (by simp [own'])] at run
  generalize sbAssemble f (sbTaken s.env port.toNat f s.hub.clean) = a at only text run
  obtain ⟨k, o⟩ := a
  subst text
  refine ⟨k, only, run.trans ?_⟩
  dsimp only
  rw [if_neg (Nat.not_lt.mpr long)]
  rfl

/-- One from another is counted. -/
theorem sbCommandReceive_stranger (ok : sbOk s.env s.hub 6 port.toNat f = true) (mine : sbMine s.env f = true) (other : ownTray s.hub f.src = false) :
    ∃ t, exec (.sbCommandReceive port f) s = .next t ∧ t.hub.sb.notTray = s.hub.sb.notTray + 1 := by
  have acted := sbTaken_acted (s := s) ok
  have other' : ownTray (sbTaken s.env port.toNat f s.hub.clean) f.src = false := (ownTray_congr acted.img (congrArg Sb.trayNode acted.sb :) _).trans other
  have run : exec (.sbCommandReceive port f) s = execSbCommandReceive port f s := rfl
  unfold execSbCommandReceive at run
  rw [sbOn_run ok] at run
  dsimp only at run
  rw [if_neg (by simp [die, mine]), if_pos (by simp [other'])] at run
  exact ⟨_, run, congrArg (· + 1) (congrArg Sb.notTray acted.sb :)⟩

end

/-! MGMT_ENVELOPE_RECEIVE (R432, R433, R435). -/

theorem envelopeKey_congr {h k : Hub} (cmd : k.cmd = h.cmd) (p : List Byte) : envelopeKey k p = envelopeKey h p := by
  unfold envelopeKey
  rw [cmd]

theorem twinOnA_congr {h k : Hub} (cmd : k.cmd = h.cmd) (e : Env) (p : List Byte) : twinOnA e k p = twinOnA e h p := by
  unfold twinOnA
  simp only [envelopeKey_congr cmd]

/-- The hub in which an envelope has left the ingress buffer. -/
def envelopeTaken (b : Bool) (p : List Byte) (h : Hub) : Hub := takeIngress b (isEnvelope p) h

theorem envelopeTaken_cmd (b : Bool) (p : List Byte) (h : Hub) : (envelopeTaken b p h).cmd = h.cmd := (takeIngress_only ..).keep .cmd (by decide)

section
variable {s : State} {b : Bool} {p : List Byte} (runs : mgtRuns s.env s.hub = true) (later : s.hub.sys.st ≠ .config) (on : segOn (seg s.hub b) = true)
include runs later on

/-- What an envelope comes to, by its form, its key and its SEQ. -/
theorem mgmtEnvelopeReceive_run :
    (envelopeForm p = false → exec (.mgmtEnvelopeReceive b p) s =
      .next (s.settle (onMgt (fun m => { m with stranger := m.stranger + 1 }) (envelopeTaken b p s.hub.clean)))) ∧
    (envelopeForm p = true → envelopeKey s.hub p = none →
      exec (.mgmtEnvelopeReceive b p) s = .next (s.settle (authFail s.env b p (envelopeTaken b p s.hub.clean)))) ∧
    (∀ k, envelopeForm p = true → envelopeKey s.hub p = some k → (if b && twinOnA s.env s.hub p then none else seqWindow k (beAt p 4 8)) = none →
      exec (.mgmtEnvelopeReceive b p) s = .next (s.settle (
        mgtReply s.env (bitsOf (beAt p 0 4) 23 16) b (envelopeReply p stReplay k.domain.toNat (envelopeTaken b p s.hub.clean))
          (onMgt (fun m => { m with replay := m.replay + 1 }) (envelopeTaken b p s.hub.clean))))) ∧
    (∀ k k', envelopeForm p = true → envelopeKey s.hub p = some k →
      (if b && twinOnA s.env s.hub p then none else seqWindow k (beAt p 4 8)) = some k' → exec (.mgmtEnvelopeReceive b p) s = .next (s.settle (
        packetIn opcodes s.env (.key (BitVec.ofNat 3 (bitsOf (beAt p 0 4) 23 16)) b) ((p.drop 16).take (p.length - 32))
          (onMgt (fun m => { m with ok := m.ok + 1 }) { envelopeTaken b p s.hub.clean with
            cmd := { s.hub.cmd with keys := Tab.put s.hub.cmd.keys (bitsOf (beAt p 0 4) 23 16) k' } })))) := by
  have cmd : (envelopeTaken b p s.hub.clean).cmd = s.hub.cmd := envelopeTaken_cmd ..
  have run : exec (.mgmtEnvelopeReceive b p) s = execMgmtEnvelopeReceive b p s := rfl
  unfold execMgmtEnvelopeReceive at run
  rw [State.run_next, guard_pos (by simp [runs, later, on])] at run
  dsimp only at run
  rw [← envelopeTaken, envelopeKey_congr cmd, twinOnA_congr cmd, cmd] at run
  refine ⟨fun bad => ?_, fun form none_ => ?_, fun k form key refused => ?_, fun k k' form key new => ?_⟩
  · rw [run, if_pos (by simp [bad])]
  · rw [run, if_neg (by simp [form]), none_]
  · rw [run, if_neg (by simp [form]), key]
    dsimp only
    rw [refused]
  · rw [run, if_neg (by simp [form]), key]
    dsimp only
    rw [new]

end

/-- Settles O46: a packet by `relayCommand_runs` and the relay it becomes, a message by `sbCommandReceive_takes`, an envelope by the case of
`mgmtEnvelopeReceive_run` it is in. -/
theorem relaysAndEnvelopes : Obligations.RelaysAndEnvelopes := by
  unfold Obligations.RelaysAndEnvelopes
  refine ⟨fun s op c d assigned => ⟨⟨_, relayCommand_runs assigned, rfl⟩, fun dj known short named other member_ may bound late => ?_⟩,
    fun s op c dj none_ known => relayCommand_unassigned none_ known, fun s rid r held on due alone => ?_, fun s port f die => ⟨?_, ?_⟩,
    fun s b p runs later on => ⟨fun bad => ?_, fun form none_ => ?_, fun k form key => ⟨fun old => ?_, fun k' alone new => ?_⟩⟩⟩
  · have relayed := runCmd_relays (d := d) (h := s.hub.clean) known short named other member_ may bound late
    have run : exec (.relayCommand op c) s = .next (s.settle (runCmd d s.env c s.hub.clean)) := relayCommand_runs assigned
    rw [relayed] at run
    refine ⟨fun room => ?_, fun full => ?_⟩
    · have kept := relayCmd_relayed (d := d) (e := s.env) (c := c) (dj := dj) (h := s.hub.clean) rfl room
      exact ⟨_, run, (congrArg CmdU.rid kept :), (congrArg CmdU.relays kept :)⟩
    · rw [relayCmd_busy (by exact full)] at run
      exact ⟨_, run, (sendReply_rest ..).2.1, rfl⟩
  · refine ⟨_, relayTimeout_run held on due alone, relayBack_relays .., fun ch x by_ open_ here free => ?_⟩
    exact relayBack_channel by_ open_ here free
  · intro bs code order cseq target ps d whole own long good assigned
    obtain ⟨k, only, run⟩ := sbCommandReceive_takes die whole own long
    exact ⟨k, only, by rw [run, packetIn_runs (by simp [relayReq]) good assigned]; rfl⟩
  · exact sbCommandReceive_stranger die
  · obtain ⟨run, -, -, -⟩ := mgmtEnvelopeReceive_run runs later on (p := p)
    exact ⟨_, run bad, congrArg (· + 1) (congrArg Mgt.stranger (takeIngress_mgt ..) :)⟩
  · obtain ⟨-, run, -, -⟩ := mgmtEnvelopeReceive_run runs later on (p := p)
    refine ⟨_, run form none_, (congrArg Mgt.authfail (authFail_sent ..) :).trans ?_, (authFail_cmd ..).trans (envelopeTaken_cmd ..)⟩
    exact congrArg (· + 1) (congrArg Mgt.authfail (takeIngress_mgt ..) :)
  · obtain ⟨-, -, run, -⟩ := mgmtEnvelopeReceive_run runs later on (p := p)
    have refused : (if b && twinOnA s.env s.hub p then none else seqWindow k (beAt p 4 8)) = none := by
      split
      · rfl
      · next alone => exact old.resolve_left alone
    refine ⟨_, run k form key refused, (congrArg Mgt.replay (mgtReply_sent ..) :).trans ?_⟩
    exact congrArg (· + 1) (congrArg Mgt.replay (takeIngress_mgt ..) :)
  · obtain ⟨-, -, -, run⟩ := mgmtEnvelopeReceive_run runs later on (p := p)
    refine ⟨_, ?_, ?_, rfl, run k k' form key (by rw [if_neg (by simp [alone]), new])⟩
    · exact Only.step (Only.set_cmd (Only.weaken (takeIngress_only ..) rfl) rfl) (onMgt_only ..) rfl
    · exact congrArg (· + 1) (congrArg Mgt.ok (takeIngress_mgt ..) :)

end Sys2Proof.Machine
end

section
/-!
PROOF. The machine as a whole (O1, O3, O4, O5): a step runs the queue's front, the state right after reset, and the memories' canonical form,
which the reset state has and every step keeps.
-/
namespace Sys2Proof.Machine

/-- Settles O1: the step function takes the queue apart. -/
theorem stepRunsFront : Obligations.StepRunsFront := by
  unfold Obligations.StepRunsFront
  intro s c l front
  unfold step
  rw [front]

/-- Right after reset the channels that serve are those of the open protection setup: channel 0. -/
theorem chanOn_reset (c : Nat) : chanOn State.reset.hub c = decide (c = 0) := by
  match c with
  | 0 | 1 | 2 | 3 => rfl
  | c + 4 => rfl

/-- Settles O3: every part stands at its reset value, and of the channels `chanOn_reset` speaks. -/
theorem resetState : Obligations.ResetState :=
  ⟨rfl, rfl, rfl, rfl, rfl, chanOn_reset, rfl, rfl, rfl, rfl, rfl, rfl, rfl, rfl⟩

/-- Settles O4: an empty memory is in canonical form. -/
theorem resetCanonical : Obligations.ResetCanonical := ⟨rfl, rfl, rfl⟩

/-- A step settles: on an empty queue the expiries that are due together, or one cycle; otherwise the front's meaning, on the queue's rest. -/
theorem step_settled (s : State) : ∃ t, step s = .next t ∧ Settled { s with pending := s.pending.tail } t := by
  unfold step
  cases queue : s.pending with
  | nil =>
    have same : { s with pending := [] } = s := by rw [← queue]
    dsimp only [List.tail_nil]
    rw [same]
    split
    · exact ⟨_, rfl, fireDue_settled s⟩
    · exact ⟨_, rfl, settle_settled s _⟩
  | cons c rest =>
    obtain ⟨k, run⟩ := exec_settles c { s with pending := rest }
    exact ⟨_, run, settle_settled _ k⟩

/-- Settles O5: what a step settles has kept the fuses, the queue's rest and the canonical form. -/
theorem stepKeepsCanonical : Obligations.StepKeepsCanonical := by
  unfold Obligations.StepKeepsCanonical
  intro s canonical
  obtain ⟨t, run, kept⟩ := step_settled s
  exact ⟨t, run, kept.wf canonical, kept.posted.1, kept.posted.2, kept.fuses, kept.pending⟩

end Sys2Proof.Machine
end

section
/-!
PROOF. Identity and state commands (O8): what the words say, a request for a state by whether a transition is in progress, and a reset by
command, whose CONFIG form answers first.
-/
namespace Sys2Proof.Machine

@[simp] theorem sysInfoWords_consumed (e : Env) (c : Cmd) (s : State) : sysInfoWords e (consumed c s) = sysInfoWords e s.hub := by
  unfold sysInfoWords
  rw [nodeNo_consumed]

@[simp] theorem stateWord_consumed (e : Env) (c : Cmd) (s : State) : stateWord e (consumed c s) = stateWord e s.hub := by
  simp [stateWord]

@[simp] theorem transiting_consumed (c : Cmd) (s : State) : transiting (consumed c s) = transiting s.hub := by
  simp [transiting]

theorem opSysInfo_act {c : Cmd} {s : State} : opSysInfo.act s.env (consumed c s) (ctxOf c s) = ok (sysInfoWords s.env s.hub) (consumed c s) :=
  congrArg (ok · (consumed c s)) (sysInfoWords_consumed ..)

theorem opSysStateRead_act {c : Cmd} {s : State} :
    opSysStateRead.act s.env (consumed c s) (ctxOf c s) = ok [w32 (stateWord s.env s.hub)] (consumed c s) :=
  congrArg (fun n => ok [w32 n] (consumed c s)) (stateWord_consumed ..)

/-- SYS_STATE READ is answered with the state word (R482). -/
theorem sysStateRead_run {c : Cmd} {s : State} (p : passes opSysStateRead c s = true) :
    ∃ t, s.runOp opSysStateRead c = .next t ∧ Answered 0x02 0x0000 0 [w32 (stateWord s.env s.hub)] c s t := by
  obtain ⟨t, run, ans, -⟩ := op_done p opSysStateRead_act (by decide) rfl (consumed_chans c s) (by simp)
  exact ⟨t, run, ans⟩

theorem orderly_of_not_transiting {h : Hub} (free : transiting h = false) : h.sys.orderly = none := by
  unfold transiting at free
  rw [Bool.or_eq_false_iff] at free
  exact Option.not_isSome_iff_eq_none.mp (by rw [free.1]; decide)

/-! SYS_STATE requests (R30, R34). -/

/-- No transition is admitted to the present state (Table 1.9). -/
theorem transitionOk_elsewhere {w : Wanted} {h : Hub} (admits : transitionOk w h = true) : wantedState w ≠ some h.sys.st := by
  cases w with
  | serving | drowse | dormant => simp only [transitionOk, beq_iff_eq] at admits; simp [wantedState, admits]
  | configReset | blockReset => simp [wantedState]

/-- The start of a transition to a state leaves the interpreter and the protection setup. -/
theorem startTransition_keeps {e : Env} {w : Wanted} {h : Hub} {st : BlockState} (names : wantedState w = some st) :
    (startTransition e w h).cmd = h.cmd ∧ (startTransition e w h).prot = h.prot := by
  cases w with
  | serving | drowse | dormant => simp [startTransition]
  | configReset | blockReset => cases names

section
variable {w : Wanted} {c : Cmd} {s : State}

/-- While a transition is in progress a request is held behind it (R34). -/
theorem opStateRequest_held (busy : transiting s.hub = true) : (opStateRequest w).act s.env (consumed c s) (ctxOf c s) =
    .done stAccepted 0 [] (holdReq w (ctxOf c s) (consumed c s)) := if_pos (by rw [transiting_consumed, busy])

/-- A request for the present state leaves it. -/
theorem opStateRequest_present (free : transiting s.hub = false) (here : wantedState w = some s.hub.sys.st) :
    (opStateRequest w).act s.env (consumed c s) (ctxOf c s) = ok [] (consumed c s) := by
  have here' : wantedState w = some (consumed c s).sys.st := by rw [here]; simp
  exact (if_neg (by rw [transiting_consumed, free]; decide)).trans (if_pos here')

/-- An admitted request starts its transition (R30). -/
theorem opStateRequest_starts (free : transiting s.hub = false) (admits : transitionOk w s.hub = true) :
    (opStateRequest w).act s.env (consumed c s) (ctxOf c s) = .done stAccepted 0 [] (startTransition s.env w (consumed c s)) := by
  have admits' : transitionOk w (consumed c s) = true := by
    rw [← admits]
    cases w <;> simp [transitionOk]
  exact ((if_neg (by rw [transiting_consumed, free]; decide)).trans (if_neg (transitionOk_elsewhere admits'))).trans (if_pos admits')

/-- A request for the present state is answered OK. -/
theorem stateRequest_present (p : passes (opStateRequest w) c s = true) (free : transiting s.hub = false) (here : wantedState w = some s.hub.sys.st) :
    ∃ t, s.runOp (opStateRequest w) c = .next t ∧ Answered 0x02 0x0000 0 [] c s t ∧ t.hub.sys = s.hub.sys := by
  obtain ⟨t, run, ans, rfl⟩ := op_done p (opStateRequest_present free here) (by decide) rfl (consumed_chans c s) (by simp)
  exact ⟨_, run, ans, by simp⟩

/-- An admitted request for a state is answered ACCEPTED, and its transition starts. -/
theorem stateRequest_starts {st : BlockState} (p : passes (opStateRequest w) c s = true) (free : transiting s.hub = false)
    (names : wantedState w = some st) (admits : transitionOk w s.hub = true) :
    ∃ t, s.runOp (opStateRequest w) c = .next t ∧ Answered 0x02 0x0001 0 [] c s t ∧ t.hub.sys = (startTransition s.env w (consumed c s)).sys := by
  obtain ⟨cmd, prot⟩ := startTransition_keeps (e := s.env) (h := consumed c s) names
  obtain ⟨t, run, ans, rfl⟩ := op_done p (opStateRequest_starts free admits) (by decide) (by rw [cmd]) (by rw [cmd]; simp) (by rw [prot]; simp)
  exact ⟨_, run, ans, by simp⟩

end

/-! SYS_RESET (R594, R600). -/

/-- Kind 1 starts the orderly flush that the BLOCK reset follows. -/
theorem opSysReset_block {c : Cmd} {s : State} (free : transiting s.hub = false) (kind : c.n 1 = 1) :
    opSysReset.act s.env (consumed c s) (ctxOf c s) = .done stAccepted 0 [] (startOrderly .blockReset (consumed c s)) :=
  (if_neg (by rw [transiting_consumed, free]; decide)).trans (if_neg (by rw [ctxOf_n, kind]; decide))

/-- Kind 0 answers first. -/
theorem opSysReset_config {c : Cmd} {s : State} (free : transiting s.hub = false) (kind : c.n 1 = 0) :
    opSysReset.act s.env (consumed c s) (ctxOf c s) = .later none (configAfterReply s.env) :=
  (if_neg (by rw [transiting_consumed, free]; decide)).trans (if_pos (by rw [ctxOf_n, kind]))

/-- The CONFIG reset of a command in progress. -/
theorem configAfterReply_st {e : Env} {id : Nat} {h : Hub} {p : Pend} (at_ : pendOf h id = some p) :
    (configAfterReply e id h).sys.st = .config ∧ (configAfterReply e id h).sys.lastReset = 2 ∧ (configAfterReply e id h).time.tb = h.time.tb := by
  obtain ⟨st, last, tb⟩ := commandConfig_st e (finish e id stAccepted 0 [] true h)
  have kept : (finish e id stAccepted 0 [] true h).time = h.time := by simp
  rw [kept] at tb
  unfold configAfterReply
  rw [at_]
  dsimp only
  split
  · exact ⟨by simpa using st, by simpa using last, by simpa using tb⟩
  · exact ⟨st, last, tb⟩

/-- A command just put in progress is found by its number. -/
theorem pendOf_last {h : Hub} {l : List Pend} {p : Pend} {id : Nat} (pends : h.cmd.pends = l ++ [p]) (at_ : p.id = id) :
    ∃ q, pendOf h id = some q := by
  refine Option.isSome_iff_exists.mp (List.find?_isSome.mpr ⟨p, ?_, by simpa using at_⟩)
  rw [pends]
  simp

/-- Kind 0 is put in progress and ends in the CONFIG reset. -/
theorem sysReset_config {c : Cmd} {s : State} (p : passes opSysReset c s = true) (free : transiting s.hub = false) (kind : c.n 1 = 0) :
    ∃ k : Hub, k.time = s.hub.time ∧ (∃ q, pendOf k s.hub.cmd.nextId = some q) ∧
      exec (.sysReset c) s = .next (s.settle (configAfterReply s.env s.hub.cmd.nextId k)) := by
  obtain ⟨t, run, rfl⟩ := op_later p (opSysReset_config free kind)
  refine ⟨_, ?_, ?_, run⟩
  · simp
  · exact pendOf_last rfl rfl

/-- Settles O8: a request by whether it is held, for the present state or starts its transition; a reset by its kind. -/
theorem identityAndStateCommands : Obligations.IdentityAndStateCommands := by
  unfold Obligations.IdentityAndStateCommands
  refine ⟨fun c s p => ?_, fun c s p => ?_, fun c s p => ?_, fun c s p free => ⟨fun st => ?_, fun st => ?_⟩, fun c s p free => ⟨fun st => ?_, fun st => ?_⟩,
    fun c s p free st => ?_, fun c s p busy => ?_, fun c s p free kind => ?_, fun c s p free kind => ?_⟩
  · obtain ⟨t, run, ans, -⟩ := op_done p opSysInfo_act (by decide) rfl (consumed_chans c s) (by simp)
    exact ⟨t, run, ans⟩
  · exact sysStateRead_run p
  · exact sysStateRead_run p
  · exact stateRequest_present p free (by rw [st]; rfl)
  · obtain ⟨t, run, ans, sys⟩ := stateRequest_starts p free rfl (by simp [transitionOk, st])
    have served := exitDrowse_st (h := consumed (withOp 1 c) s) (by simpa using st) (by simpa using orderly_of_not_transiting free)
    exact ⟨t, run, ans, (congrArg Sys.st sys).trans served⟩
  · exact stateRequest_present p free (by rw [st]; rfl)
  · obtain ⟨t, run, ans, sys⟩ := stateRequest_starts p free rfl (by simp [transitionOk, st])
    exact ⟨t, run, ans, (congrArg Sys.st sys).trans (congrArg Sys.st (enterDrowse_sys _) :)⟩
  · obtain ⟨t, run, ans, sys⟩ := stateRequest_starts p free rfl (by simp [transitionOk, st])
    exact ⟨t, run, ans, by rw [sys]; simpa [startTransition, startOrderly, onSys, onLog] using st, by rw [sys]; rfl⟩
  · obtain ⟨t, run, ans, rfl⟩ := op_done p (opStateRequest_held busy) (by decide) rfl (consumed_chans _ s) (by simp [holdReq, onSys])
    exact ⟨_, run, ans, by simp [holdReq, onSys], by simp [holdReq, onSys]⟩
  · obtain ⟨t, run, ans, rfl⟩ := op_done p (opSysReset_block free kind) (by decide) (by simp) (by simp) (by simp)
    exact ⟨_, run, ans, by simp [startOrderly, onSys, onLog], by simp [startOrderly, onSys, onLog]⟩
  · obtain ⟨k, time, ⟨q, found⟩, run⟩ := sysReset_config p free kind
    obtain ⟨st, last, tb⟩ := configAfterReply_st (e := s.env) found
    exact ⟨_, run, st, last, by rw [← time]; exact tb⟩

end Sys2Proof.Machine
end

section
/-!
PROOF. The recorder's commands (O41): the records of an area as a reply or in memory, and the record of a mark.
-/
namespace Sys2Proof.Machine

/-! REC_READ (R570, R571). -/

@[simp] theorem areaRecs_consumed (e : Env) (c : Cmd) (s : State) (area first : Nat) : areaRecs e (consumed c s) area first = areaRecs e s.hub area first := by
  rw [consumed_eq]
  rfl

/-- The answer once the area's records are known. -/
theorem opRecRead_area {c : Cmd} {s : State} {l : List (List Byte)} (recs : areaRecs s.env s.hub (c.n 1) (c.n 2) = some l) :
    opRecRead.act s.env (consumed c s) (ctxOf c s) =
      if c.d 3 = 0 then
        ok ([w32 ((takeFit 1376 l).map List.length).sum, w32 (takeFit 1376 l).length] ++ bytesWords (takeFit 1376 l).flatten) (consumed c s)
      else match writeOut 5 (c.d 3) l.flatten (consumed c s) with
        | some h => ok [w32 (l.map List.length).sum, w32 l.length] h
        | none => refuse stBadParam (consumed c s) 3 := by
  unfold opRecRead
  dsimp only
  rw [ctxOf_n, ctxOf_n, areaRecs_consumed, recs]
  rfl

/-- An area that the role does not have is NOT_FOUND. -/
theorem recRead_notFound {c : Cmd} {s : State} (p : passes opRecRead c s = true) (none_ : areaRecs s.env s.hub (c.n 1) (c.n 2) = none) :
    ∃ t, exec (.recRead c) s = .next t ∧ Answered 0xA0 stNotFound 1 [] c s t := by
  have act : opRecRead.act s.env (consumed c s) (ctxOf c s) = refuse stNotFound (consumed c s) 1 := by
    unfold opRecRead
    dsimp only
    rw [ctxOf_n, ctxOf_n, areaRecs_consumed, none_]
  obtain ⟨t, run, ans, -⟩ := op_done p act (by decide) rfl (consumed_chans c s) (by simp)
  exact ⟨t, run, ans⟩

section
variable {c : Cmd} {s : State} {l : List (List Byte)} (p : passes opRecRead c s = true) (recs : areaRecs s.env s.hub (c.n 1) (c.n 2) = some l)
include p recs

/-- With no address the reply carries the records that fit it. -/
theorem recRead_replies (reply : c.d 3 = 0) : ∃ t, exec (.recRead c) s = .next t ∧
    Answered 0xA0 stOk 0 ([w32 (((takeFit 1376 l).map List.length).sum), w32 (takeFit 1376 l).length] ++ bytesWords (takeFit 1376 l).flatten) c s t := by
  obtain ⟨t, run, ans, -⟩ := op_done p ((opRecRead_area recs).trans (if_pos reply)) (by decide) rfl (consumed_chans c s) (by simp)
  exact ⟨t, run, ans⟩

/-- With an address the records go to memory, where it may be written. -/
theorem recRead_writes (there : c.d 3 ≠ 0) (may : writable s.hub (c.d 3) l.flatten.length = true) : ∃ t, exec (.recRead c) s = .next t ∧
    Answered 0xA0 stOk 0 [w32 ((l.map List.length).sum), w32 l.length] c s t ∧ t.mem = s.memAfter (c.d 3) l.flatten := by
  have wrote : writeOut 5 (c.d 3) l.flatten (consumed c s) = some (postMem (c.d 3) l.flatten (pulseLine 5 (consumed c s))) :=
    if_pos (by rw [writable_consumed, may])
  have act := (opRecRead_area recs).trans (if_neg there)
  rw [wrote] at act
  obtain ⟨t, run, ans, rfl⟩ := op_done p act (by decide) (by simp) (by simp) (by simp)
  refine ⟨_, run, ans, ?_⟩
  rw [← memAfter_posted (k := pulseLine 5 (consumed c s)) (c.d 3) l.flatten (by simp) (by simp)]
  exact congrArg (Mem.apply Mem.ramByte s.mem) ((answer_only ..).keep .ram (by decide))

/-- Where it may not, the address is refused. -/
theorem recRead_refused (there : c.d 3 ≠ 0) (not_ : writable s.hub (c.d 3) l.flatten.length = false) : ∃ t, exec (.recRead c) s = .next t ∧
    Answered 0xA0 stBadParam 3 [] c s t := by
  have wrote : writeOut 5 (c.d 3) l.flatten (consumed c s) = none := if_neg (by rw [writable_consumed, not_]; decide)
  have act := (opRecRead_area recs).trans (if_neg there)
  rw [wrote] at act
  obtain ⟨t, run, ans, -⟩ := op_done p act (by decide) rfl (consumed_chans c s) (by simp)
  exact ⟨t, run, ans⟩

end

/-! REC_MARK (R487). -/

/-- The job that a mark names: a tenant's own. -/
def markJob (x : Ctx) : Word := if x.tenant then (x.job.getD 0).setWidth 32 else 0

/-- The hub once the mark's record is written, and marked in the trace. -/
def recMarked (e : Env) (x : Ctx) (h : Hub) : Hub :=
  mark e 0 (if x.tenant then entId 10 (markJob x).toNat else 0) (x.w 1) (nowNs h) (emit 11 0 0 noEnt 10 0 [x.w 1, markJob x] h)

theorem recMarked_only (e : Env) (x : Ctx) (h : Hub) : Only [.regions, .cells, .regs, .trc, .log] h (recMarked e x h) :=
  Only.step (Only.weaken (emit_only ..) rfl) (mark_only ..) rfl

/-- The trace's mark leaves the recorder as the record has left it. -/
theorem recMarked_log (e : Env) (x : Ctx) (h : Hub) : (recMarked e x h).log = (emit 11 0 0 noEnt 10 0 [x.w 1, markJob x] h).log :=
  (mark_only ..).keep .log (by decide)

/-- REC_MARK is answered OK, and by a channel whose reply buffer is free it leaves the recorder as its record has. -/
theorem recMark_run {c : Cmd} {s : State} {ch : BitVec 2} (p : passes opRecMark c s = true) (by_ : c.req = .channel ch)
    (free : (chan s.hub ch.toNat).rbuf = none) : ∃ t, exec (.recMark c) s = .next t ∧ Answered 0xA1 stOk 0 [] c s t ∧
      t.hub.log = (emit 11 0 0 noEnt 10 0 [c.w 1, markJob (ctxOf c s)] (consumed c s)).log := by
  have kept := (recMarked_only s.env (ctxOf c s) (consumed c s)).keep
  have cmd : (recMarked s.env (ctxOf c s) (consumed c s)).cmd = (consumed c s).cmd := kept .cmd (by decide)
  have prot : (recMarked s.env (ctxOf c s) (consumed c s)).prot = (consumed c s).prot := kept .prot (by decide)
  have buf : (chan (recMarked s.env (ctxOf c s) (consumed c s)) ch.toNat).rbuf = none := by
    rw [← free]
    unfold chan
    rw [cmd, consumed_chans]
  obtain ⟨t, run, ans, rfl⟩ := op_done p (k := recMarked s.env (ctxOf c s) (consumed c s)) rfl (by decide) (by rw [cmd]) (by rw [cmd]; simp)
    (by rw [prot]; simp)
  exact ⟨_, run, ans, (answer_log by_ buf).trans (recMarked_log ..)⟩

/-- Settles O41: REC_READ by where its records go, REC_MARK by the record that joins the queue. -/
theorem recorderCommands : Obligations.RecorderCommands := by
  unfold Obligations.RecorderCommands
  refine ⟨fun c s p => ⟨recRead_notFound p, fun l recs => ⟨recRead_replies p recs, recRead_writes p recs, recRead_refused p recs⟩⟩,
    fun c s ch p by_ free live noLoss room => ?_⟩
  obtain ⟨t, run, ans, log⟩ := recMark_run p by_ free
  have kept : (consumed c s).log = s.hub.log := by simp
  have joins := log.trans (emit_joins (by simpa using live) (by rw [kept]; exact noLoss) (by rw [kept]; exact room))
  unfold pushRec at joins
  dsimp only at joins
  rw [kept] at joins
  refine ⟨t, _, run, ans, congrArg Recorder.queue joins, congrArg Recorder.rseq joins, rfl, rfl, ?_, rfl, rfl⟩
  simp

end Sys2Proof.Machine
end

section
/-!
PROOF. The recorder's events (O42): a record's place in the SRAM areas, the mirror's pages, the erases ahead of it, and the bodies that go
upward or arrive.
-/
namespace Sys2Proof.Machine

/-! RECORD_ACCEPT (R551, R552). -/

/-- The hub in which the record that waited first has left the queue. -/
def dequeued (r : Rec) (l : List Rec) (h : Hub) : Hub := onLog (fun x => { x with queue := l, urgent := x.urgent || decide (r.sev = 3) }) h

theorem recordAccept_run {s : State} {r : Rec} {l : List Rec} (live : alive s.hub = true) (queue : s.hub.log.queue = r :: l) :
    exec .recordAccept s = .next (s.settle (storeRec s.env r (dequeued r l s.hub.clean))) := by
  have taken : acceptRec s.env s.hub.clean = storeRec s.env r (dequeued r l s.hub.clean) := by
    unfold acceptRec
    rw [Hub.clean_log, queue]
    rfl
  show execRecordAccept s = _
  unfold execRecordAccept
  rw [run_guard (s := s) (b := fun _ h => alive h) live, taken]

/-! MIRROR_PAGE_WRITE (R553, R557). -/

/-- The hub in which the FLUSH record of code FAULT has been written behind a fatal record. -/
def faultFlushed (h : Hub) : Hub :=
  let r := flushRec 6 [] (onLog (fun l => { l with urgent := false }) h)
  appendDrift r.1.bytes r.2

/-- The mirror writes one page, or behind a fatal record all that waits. -/
theorem mirrorPageWrite_run {s : State} {r : Rec} {l : List Rec} (on : mirrorOn s.hub = true) (waits : unmirrored s.hub = r :: l)
    (due : (s.hub.log.urgent || decide (pendingBytes s.hub ≥ 256) || pageDue s.hub) = true) :
    exec .mirrorPageWrite s =
      .next (s.settle (if s.hub.log.urgent then mirrorAll 1024 (faultFlushed s.hub.clean) else mirrorPage s.hub.clean)) := by
  have waits' : (unmirrored s.hub.clean).isEmpty = false := by
    show (unmirrored s.hub).isEmpty = false
    rw [waits]
    rfl
  have on' : mirrorOn s.hub.clean = true := on
  have due' : (s.hub.clean.log.urgent || decide (pendingBytes s.hub.clean ≥ 256) || pageDue s.hub.clean) = true := due
  exact run_guard (s := s) (f := fun _ h => if h.log.urgent then mirrorAll 1024 (faultFlushed h) else mirrorPage h)
    (b := fun _ h => mirrorOn h && !(unmirrored h).isEmpty && (h.log.urgent || decide (pendingBytes h ≥ 256) || pageDue h))
    (by rw [on', waits', due']; rfl)

/-- What is written behind a fatal record takes one RSEQ, and leaves the SRAM areas. -/
theorem faultFlushed_pages (n : Nat) (h : Hub) :
    (mirrorAll n (faultFlushed h)).log.pages = { h.log with urgent := false, rseq := h.log.rseq + 1 }.pages := by
  rw [mirrorAll_pages]
  unfold faultFlushed Recorder.pages
  dsimp only
  rw [appendDrift_log]
  rfl

/-! NV_SECTOR_ERASE, NV_ERASE_DONE (R554). -/

theorem nvSectorErase_run {s : State} (known : s.hub.log.nvOn = true) (idle : s.hub.log.erasing = false) (few : s.hub.log.erased < eraseAhead)
    (high : s.hub.sys.pfwLow = false) (live : alive s.hub = true) :
    exec .nvSectorErase s = .next (s.settle (onLog (fun l => { l with erasing := true, suspended := false }) s.hub.clean)) :=
  run_guard (s := s) (f := fun _ => onLog (fun l => { l with erasing := true, suspended := false }))
    (b := fun _ h => h.log.nvOn && !h.log.erasing && decide (h.log.erased < eraseAhead) && !h.sys.pfwLow &&
      (alive h || (h.sys.st == .flush && h.log.holdUntil.isSome)))
    (by simp [known, idle, few, high, live])

theorem nvEraseDone_run {s : State} (erasing : s.hub.log.erasing = true) (running : s.hub.log.suspended = false) (on : portOn s.hub = true) :
    exec .nvEraseDone s = .next (s.settle (eraseNext s.env (onLog (fun l => { l with erasing := false }) s.hub.clean))) :=
  run_guard (s := s) (f := fun e h => eraseNext e (onLog (fun l => { l with erasing := false }) h))
    (b := fun _ h => h.log.erasing && !h.log.suspended && portOn h) (by simp [erasing, running, on])

/-! RECORD_UPLOAD (R558, R559). -/

/-- A packet that finds room in the output queue joins it. -/
theorem photenSend_fits {type tc dst flow soff : Nat} {b : List Byte} {h : Hub} (room : queueFill h + photenLen b ≤ 65536) :
    (photenSend type tc dst flow soff b h).fab = { h.fab with outq := h.fab.outq ++ [{
        type := BitVec.ofNat 4 type, tc := BitVec.ofNat 2 tc, dst := BitVec.ofNat 18 dst, flow := BitVec.ofNat 16 flow
        soff := BitVec.ofNat 24 soff, tb := nowNs h, body := b }] } := by
  unfold photenSend
  dsimp only
  rw [if_neg (fun full => Nat.not_lt.mpr room full.2)]
  rfl

/-- The hub in which the records of a body count as sent. -/
def bodySent (r : Rec) (body : List Byte) (h : Hub) : Hub := onLog (fun l => { l with sent := r.rseq.toNat, soff := l.soff + body.length }) h

/-- The body goes to the own record log in tray role, and otherwise into a packet. -/
theorem recordUpload_run {s : State} {r : Rec} {body : List Byte} (serves : serving s.hub = true) (last : (bodyOf (unsent s.hub) 0).getLast? = some r)
    (bytes : (bodyOf (unsent s.hub) 0).flatMap Rec.bytes = body) :
    exec .recordUpload s = .next (s.settle (
      if s.env.tray then appendLog (nodeNo s.env s.hub) (s.hub.log.soff / 4 % 2 ^ 24) body (bodySent r body s.hub.clean)
      else photenSend 2 3 (2 ^ 17 + (imgOf s.hub).tray) 0 (s.hub.log.soff / 4 % 2 ^ 24) body (bodySent r body s.hub.clean))) := by
  have sent : uploadOne s.env s.hub.clean =
      if s.env.tray then appendLog (nodeNo s.env s.hub) (s.hub.log.soff / 4 % 2 ^ 24) body (bodySent r body s.hub.clean)
      else photenSend 2 3 (2 ^ 17 + (imgOf s.hub).tray) 0 (s.hub.log.soff / 4 % 2 ^ 24) body (bodySent r body s.hub.clean) := by
    have last' : (bodyOf (unsent s.hub.clean) 0).getLast? = some r := last
    have bytes' : (bodyOf (unsent s.hub.clean) 0).flatMap Rec.bytes = body := bytes
    unfold uploadOne
    dsimp only
    rw [last']
    dsimp only
    rw [bytes']
    rfl
  show execRecordUpload s = _
  unfold execRecordUpload
  rw [run_guard (s := s) (b := fun _ h => serving h) serves, sent]

/-! The record log (R559). -/

/-- A body appended to the record log is its newest entry, and its sender's next offset is noted; what has been sent stays. -/
theorem appendLog_newest {node soff : Nat} {body : List Byte} {h : Hub} {a : Nat} (at_ : trayLogAddr h = some a) :
    (appendLog node soff body h).log.sent = h.log.sent ∧ (appendLog node soff body h).log.soff = h.log.soff ∧
    (appendLog node soff body h).log.logSenders =
      h.log.logSenders.filter (fun x => decide (x.1 ≠ node)) ++ [(node, (soff + body.length / 4) % 2 ^ 24)] ∧
    ((appendLog node soff body h).log.logIndex.getLast?).map (fun x => (x.1, x.2.1)) =
      some (((h.log.logIndex.getLast?).map (fun x => x.1 + 1)).getD 0, h.log.logPtr) := by
  rw [appendLog_log at_]
  exact ⟨rfl, rfl, rfl, by simp⟩

/-- The evidence that a member's records carry. -/
def evidenceRead (e : Env) (r : RxPkt) (h : Hub) : Hub :=
  if memberDie e h r.src then (readRecs false 0 16 r.body).foldl (fun h b => readEvidence r.src b h) h else h

/-- It reaches the verdict unit, and neither the port nor the recorder. -/
theorem evidenceRead_only (e : Env) (r : RxPkt) (h : Hub) : Only [.casc, .reports] h (evidenceRead e r h) :=
  Only.ite (Only.foldl (fun _ _ => readEvidence_only ..) _ (Only.refl _ _)) (Only.refl _ _)

/-- A body that arrives is appended to the record log, and a member's is read for its evidence. -/
theorem photenRecordReceive_run {s : State} {p : List Byte} {port : BitVec 6} (tray : s.env.tray = true)
    (ok_ : photenOk s.env s.hub 2 p port.toNat = true) : ∃ k : Hub, k.log = s.hub.log ∧ k.mem = s.hub.mem ∧ k.fab.accepted = s.hub.fab.accepted + 1 ∧
      exec (.photenRecordReceive p port) s = .next (s.settle (evidenceRead s.env (photenFields p)
        (appendLog (photenFields p).src (photenFields p).soff (photenFields p).body k))) := by
  have run : exec (.photenRecordReceive p port) s = execPhotenRecordReceive p port s := rfl
  unfold execPhotenRecordReceive at run
  obtain ⟨r, rx⟩ := photenRx_ok (h := s.hub.clean) (fun r h =>
    if !s.env.tray then h
    else
      let h := appendLog r.src r.soff r.body h
      if memberDie s.env h r.src then (readRecs false 0 16 r.body).foldl (fun h b => readEvidence r.src b h) h else h) ok_
  rw [State.run_next, rx, if_neg (by simp [tray])] at run
  refine ⟨_, ?_, ?_, ?_, run⟩ <;> rfl

/-- Settles O42: each event by what it makes of the recorder. -/
theorem recorderEvents : Obligations.RecorderEvents := by
  unfold Obligations.RecorderEvents
  refine ⟨fun s r l live queue => ⟨fun more fits => ?_, fun full => ?_⟩, fun s r l seg bs on waits calm due run_ page => ?_,
    fun s r l on waits urgent => ?_, fun s known idle few high live => ?_, fun s erasing running on => ?_,
    fun s r body serves last bytes => ⟨fun die room => ?_, fun tray a at_ => ?_⟩, fun s p port a tray ok_ at_ => ?_⟩
  · refine ⟨_, recordAccept_run live queue, ?_⟩
    rw [(storeRec_areas s.env r (dequeued r l s.hub.clean)).1 more fits]
    rfl
  · exact ⟨_, recordAccept_run live queue, (storeRec_areas s.env r (dequeued r l s.hub.clean)).2 full⟩
  · have due' : (s.hub.log.urgent || decide (pendingBytes s.hub ≥ 256) || pageDue s.hub) = true := by
      rcases due with many | old
      · simp [many]
      · simp [pageDue_head waits old]
    obtain ⟨reached, slot, drift⟩ := mirrorPage_next (h := s.hub.clean) waits run_ page
    refine ⟨_, mirrorPageWrite_run on waits due', ?_⟩
    rw [if_neg (by simp [calm])]
    refine ⟨reached, fun bed => ?_, fun behind => ?_⟩
    · exact ⟨(slot bed).1, congrArg (Mem.apply Mem.nvByte s.nv) (slot bed).2⟩
    · exact ⟨(drift behind).1, congrArg (Mem.apply Mem.nvByte s.nv) (drift behind).2⟩
  · refine ⟨_, mirrorPageWrite_run on waits (by simp [urgent]), ?_⟩
    rw [if_pos urgent]
    have pages := faultFlushed_pages 1024 s.hub.clean
    exact ⟨congrArg Recorder.urgent pages, congrArg Recorder.rseq pages, (congrArg Recorder.bedrock pages :), (congrArg Recorder.drift pages :)⟩
  · exact ⟨_, nvSectorErase_run known idle few high live, rfl, rfl⟩
  · exact ⟨_, nvEraseDone_run erasing running on, rfl, rfl⟩
  · refine ⟨_, recordUpload_run serves last bytes, ?_⟩
    rw [if_neg (by simp [die])]
    have log := (photenSend_only 2 3 (2 ^ 17 + (imgOf s.hub).tray) 0 (s.hub.log.soff / 4 % 2 ^ 24) body (bodySent r body s.hub.clean)).keep .log (by decide)
    have fill : queueFill (bodySent r body s.hub.clean) = queueFill s.hub := rfl
    have fab := photenSend_fits (type := 2) (tc := 3) (dst := 2 ^ 17 + (imgOf s.hub).tray) (flow := 0) (soff := s.hub.log.soff / 4 % 2 ^ 24)
      (h := bodySent r body s.hub.clean) (by rw [fill]; exact room)
    exact ⟨(congrArg Recorder.sent log :), (congrArg Recorder.soff log :), (congrArg Fab.outq fab :)⟩
  · obtain ⟨sent, soff, senders, newest⟩ := appendLog_newest (node := nodeNo s.env s.hub) (soff := s.hub.log.soff / 4 % 2 ^ 24) (body := body)
      (h := bodySent r body s.hub.clean) at_
    have run := recordUpload_run serves last bytes
    rw [if_pos tray] at run
    exact ⟨_, _, run, sent, soff, senders, newest, rfl⟩
  · obtain ⟨k, log, mem, accepted, run⟩ := photenRecordReceive_run tray ok_
    have at' : trayLogAddr k = some a := by
      rw [← at_]
      unfold trayLogAddr reservedBase
      rw [mem]
    obtain ⟨-, -, senders, newest⟩ := appendLog_newest (node := (photenFields p).src) (soff := (photenFields p).soff) (body := (photenFields p).body) at'
    rw [log] at senders newest
    have read := (evidenceRead_only s.env (photenFields p) (appendLog (photenFields p).src (photenFields p).soff (photenFields p).body k)).keep
    have rlog := read .log (by decide)
    have fab := (read .fab (by decide)).trans ((appendLog_only ..).keep .fab (by decide))
    refine ⟨_, run, (congrArg Fab.accepted fab :).trans accepted, (congrArg Recorder.logSenders rlog :).trans senders, ?_⟩
    exact (congrArg (fun x : Recorder => (x.logIndex.getLast?).map (fun x => (x.1, x.2.1))) rlog :).trans newest

end Sys2Proof.Machine
end
